-- ==== Sys2Proof/Word.lean ====
section
/-! DEFINITION. The word types of the DCM-47 and the keyed list its tables are held in. -/

namespace Sys2Proof

/-- One byte. -/
abbrev Byte := BitVec 8

/-- One register word (spec/03_register_conventions.md R64). -/
abbrev Word := BitVec 32

/-- A 64-bit quantity (spec/03_register_conventions.md R69). -/
abbrev DWord := BitVec 64

/-- Numbered things of one kind, keys strictly rising. -/
abbrev Tab (α : Type) := List (Nat × α)

/-- A byte memory: (address, byte) pairs, addresses strictly rising, no entry equal to 0. -/
abbrev Mem := List (Nat × BitVec 8)

end Sys2Proof
end

