-- ==== Sys2Proof/Syntax.lean ====
section
/-! DEFINITION. The commands of the DCM-47, one constructor per row of spec/opcode_table.json, and their operands. -/

namespace Sys2Proof

/-- The operating modes (spec/02_modes_and_startup.md Table 2.1). -/
inductive Mode where
  | retain | boot | idleLink | commission | test | stop | run | hold | takeover | activate | faultHalt | recovery
deriving DecidableEq, Repr

/-- The synchronisation states (spec/09_duplex_pair.md Table 9.1). -/
inductive SyncState where
  | lone | noPartner | waitPeer | syncing | insync | linkLost | refused
deriving DecidableEq, Repr

/-- Who writes a register (spec/03_register_conventions.md R62, spec/14_safety.md R384, spec/06_lockstep_and_darn.md R175).
`app p` is the application on AP pair p, `dbg p` the halted or stepping core A of a broken pair p. -/
inductive Ini where
  | host | app (pair : Nat) | dbg (pair : Nat) | hk | other
deriving DecidableEq, Repr

/-- One deferred store (spec/06_lockstep_and_darn.md R162): a register write, a write of `bytes` at an address of shared
memory, or a write into the memory of CAN channel `ch`, in the control block of queue `q` or in its entries, at offset
`off` (spec/12_can.md R324), or a HART request of the class that owns AIO channel `ch` (spec/13_local_field_io.md R364). -/
inductive DefSt where
  | reg (off : Nat) (val : Word)
  | mem (addr : Nat) (bytes : List Byte)
  | canCtl (ch : Fin 8) (q : Fin 3) (off : Nat) (bytes : List Byte)
  | canEnt (ch : Fin 8) (q : Fin 3) (off : Nat) (bytes : List Byte)
  | hart (ch : Fin 16) (request : List Byte)
deriving DecidableEq, Repr

/-- How an attempt of a CAN transmitter ends (spec/12_can.md R336): success with the loop delay it measured (R328), lost
arbitration, or an error. -/
inductive CanEnd where
  | sent (tdcv : BitVec 8) | lost | error
deriving DecidableEq, Repr

/-- The kinds of CAN bus errors (spec/12_can.md Table 12.12, CAN_ERRINFO). -/
inductive CanErr where
  | stuff | form | ack | bit1 | bit0 | crc
deriving DecidableEq, Repr

/-- How an output trips (spec/13_local_field_io.md R347): its high switch, its low switch, or thermal shutdown. -/
inductive Trip where
  | ovl | shortSup | therm
deriving DecidableEq, Repr

/-- How a HART transaction ends (spec/13_local_field_io.md R362, R364): a response, no response, or a check-byte error. -/
inductive HartEnd where
  | answer (bytes : List Byte) | silent | checkByte
deriving DecidableEq, Repr

/-- A word of BAR2 that the host writes (spec/04_host_rings.md R98): a doorbell page and the offset in it. -/
structure DbWord where
  page : Nat
  off : Nat
deriving DecidableEq, Repr

/-- What a comparator sees (spec/06_lockstep_and_darn.md Table 6.1, R171): the comparison point, one below its code, and whether an idle
pair was inside its known-answer sequence. -/
structure Mism where
  point : Fin 4
  inSeq : Bool
deriving DecidableEq, Repr

/-- The transceiver of a port (spec/10_io_network.md R275): its type is accepted, and its diagnostic values. -/
structure Sfp where
  typeOk : Bool
  diag : List Byte
deriving DecidableEq, Repr

/-- What one part's comparators read at one sample (spec/14_safety.md R372): channels a and b of SI0 to SI7, and RST closed. -/
structure Samp where
  a : Byte
  b : Byte
  rst : Bool
deriving DecidableEq, Repr

/-- Where SP and the Selvedge logic disagree (spec/14_safety.md R381, R382): a channel of an input, RST, or an output's permit. -/
inductive Disagree where
  | channel (i : Fin 8) (chb : Bool) | rst | permit (k : Fin 4)
deriving DecidableEq, Repr

/-- One SP cycle (spec/14_safety.md R367, R383): the permits of the safety program, its data for each WSC connection and
whether they are fail-safe values, the connections it acknowledges, the outputs whose read-back matches their switches, its
stores into the CAN queues it owns, the execution time in µs, a failure of the Selvedge state words, a failure of its own
diagnostics (log entry 8), and the connections on CAN whose period begins, with the TXQ entries that take their PDUs (R392). -/
structure SpRun where
  permits : BitVec 4
  tx : List (Nat × List Byte × Bool)
  acks : DWord
  match_ : BitVec 4
  stores : List DefSt
  us : BitVec 16
  selBad : Bool
  diag : Bool
  canTx : List (Fin 64 × Nat)
deriving DecidableEq, Repr

/-- An access of an engine to DRAM (spec/16_memory_integrity.md R426 to R429): a read of the codeword at byte address `addr` that
finds the symbols `syms` newly in error, for a partial write if `part`, in initiator class `cls` of Table 1.3; or a write of
the whole line of index `line`. Where Table 16.2 gives no guarantee, `mis` holds the symbols that a miscorrection changes
(log entry 20). -/
inductive MemAcc where
  | read (addr : Nat) (syms : List Nat) (mis : Option (List Nat)) (part : Bool) (cls : Fin 4)
  | write (line : Nat)
deriving DecidableEq, Repr

/-- Where a double error of MRAM lies (spec/16_memory_integrity.md R436). -/
inductive MramErr where
  | tally (audit : Bool) (seq : Word) | journal (slot : Nat) (reqId : DWord) | keyStore (off : Nat) | calib (ch : Fin 16)
  | twin
deriving DecidableEq, Repr

/-- One submission entry with what the module fetched for it (Table 4.4, R101, R102). -/
structure Hcmd where
  /-- 5; 04 Table 4.3 -/
  slot : Nat := 0
  /-- 8; 04 Table 4.4 -/
  opcode : BitVec 8 := 0
  /-- 1; 04 Table 4.4 -/
  noint : Bool := false
  /-- 1; 04 Table 4.4 -/
  sgl : Bool := false
  /-- 1: a reserved field is not 0; 04 R101 -/
  rsvd : Bool := false
  /-- 16; 04 Table 4.4 -/
  target : BitVec 16 := 0
  /-- 32; 04 Table 4.4 -/
  dlen : BitVec 32 := 0
  /-- 64; 04 Table 4.4 -/
  reqId : BitVec 64 := 0
  /-- 64; 04 Table 4.4 -/
  dptr : BitVec 64 := 0
  /-- 64; 04 Table 4.4 -/
  rptr : BitVec 64 := 0
  /-- 32; 04 Table 4.4 -/
  rlen : BitVec 32 := 0
  /-- 32; 04 Table 4.4 -/
  param0 : BitVec 32 := 0
  /-- 64; 04 Table 4.4 -/
  param1 : BitVec 64 := 0
  /-- 64; 04 Table 4.4 -/
  param2 : BitVec 64 := 0
  /-- 1: payload and scatter list were read; 04 R119 -/
  fetchOk : Bool := true
  /-- 1: the completion ring takes its write; 04 R119 -/
  cqeOk : Bool := true
  /-- elements of the scatter list: address, length, flags; 04 R102 -/
  sgList : List (BitVec 64 × BitVec 32 × BitVec 32) := []
  /-- 1: the return buffer takes its write; 04 R119 -/
  retOk : Bool := true
  /-- DLEN bytes; 04 R101 -/
  payload : List Byte := []
  /-- the requester of a P6 request; 10 R292 -/
  p6node : Option (BitVec 18) := none
deriving DecidableEq, Repr

/-- Hcmd right after reset. -/
def Hcmd.reset : Hcmd := {}

/-- One private store of a class (R162). -/
structure PStore where
  /-- 0 data, 1 working buffer, 2 working copy of its globals; 06 R162 -/
  area : Nat := 0
  /-- address; 06 R162 -/
  addr : Nat := 0
  /-- bytes; 06 R162 -/
  bytes : List Byte := []
deriving DecidableEq, Repr

/-- PStore right after reset. -/
def PStore.reset : PStore := {}

/-- What the program of a class has stored since the previous command of its pair, in order (log entry 8). -/
structure Work where
  /-- private stores; 06 R162 -/
  priv : List PStore := []
  /-- deferred stores; 06 R162 -/
  defs : List DefSt := []
deriving DecidableEq, Repr

/-- Work right after reset. -/
def Work.reset : Work := {}

/-- One record of the baste link (Table 9.13). -/
structure BRec where
  /-- 16; 09 Table 9.13 -/
  type : Nat := 0
  /-- 8; 09 Table 9.13 -/
  fmt : Nat := 0
  /-- 1; 09 Table 9.13 -/
  sync : Bool := false
  /-- 1; 09 Table 9.13 -/
  last : Bool := true
  /-- 1: the lane it arrived on; 09 R235 -/
  lane : Bool := false
  /-- 1: its CRC-32 is valid; 09 R238 -/
  crcOk : Bool := true
  /-- 64; 09 Table 9.13 -/
  rseq : BitVec 64 := 0
  /-- 32; 09 Table 9.13 -/
  progVer : BitVec 32 := 0
  /-- 65,536 bytes; 09 R238 -/
  payload : List Byte := []
deriving DecidableEq, Repr

/-- BRec right after reset. -/
def BRec.reset : BRec := {}

/-- One heartbeat as received (Table 9.15). -/
structure Hb where
  /-- 1: its CRC-32 is valid; 09 R238 -/
  crcOk : Bool := true
  /-- 8; 09 Table 9.13 -/
  fmt : Nat := 0
  /-- 64; 09 Table 9.13 -/
  count : BitVec 64 := 0
  /-- 4; 09 Table 9.15 -/
  mode : Mode := .boot
  /-- 1; 09 Table 9.15 -/
  role : Bool := false
  /-- 1; 09 Table 9.15 -/
  insync : Bool := false
  /-- 1; 09 Table 9.15 -/
  trans : Bool := false
  /-- 1; 09 Table 9.15 -/
  side : Bool := false
  /-- 3; 09 Table 9.15 -/
  state : SyncState := .lone
  /-- 32; 09 Table 9.15 -/
  eOwn : BitVec 32 := 0
  /-- 32; 09 Table 9.15 -/
  eSeen : BitVec 32 := 0
  /-- 32; 09 Table 9.15 -/
  txTime : BitVec 32 := 0
  /-- 32; 09 Table 9.15 -/
  prevTx : BitVec 32 := 0
  /-- 32; 09 Table 9.15 -/
  prevRx : BitVec 32 := 0
  /-- 64; 09 Table 9.15 -/
  cycno : BitVec 64 := 0
  /-- 8 bytes; 09 Table 9.15 -/
  fwPfx : List Byte := []
  /-- 8 bytes; 09 Table 9.15 -/
  cfgPfx : List Byte := []
  /-- 8 bytes; 09 Table 9.15 -/
  progPfx : List Byte := []
  /-- 8; 09 Table 9.15 -/
  mfmt : BitVec 8 := 0
  /-- 8; 09 Table 9.15 -/
  mmin : BitVec 8 := 0
deriving DecidableEq, Repr

/-- Hb right after reset. -/
def Hb.reset : Hb := {}

/-- One received KCP frame (Table 10.3) with what its receiver finds of it. -/
structure Kcp where
  /-- port 0-6; 10 Table 10.1 -/
  port : Nat := 0
  /-- 1: it came from the west; 10 R279 -/
  west : Bool := false
  /-- 1: its FCS is valid; 10 R288 -/
  fcsOk : Bool := true
  /-- 1: LEN matches the frame; 10 R280 -/
  lenOk : Bool := true
  /-- 4; 10 Table 10.3 -/
  version : BitVec 4 := 1
  /-- 4; 10 Table 10.4 -/
  type : BitVec 4 := 0
  /-- 16; 10 Table 10.3 -/
  seq : BitVec 16 := 0
  /-- 1; 10 Table 10.3 -/
  rep : Bool := false
  /-- 4; 10 Table 10.3 -/
  pgrp : BitVec 4 := 0
  /-- 18; 10 Table 10.3 -/
  src : BitVec 18 := 0
  /-- 18; 10 Table 10.3 -/
  dst : BitVec 18 := 0
  /-- 32; 10 Table 10.3 -/
  epoch : BitVec 32 := 0
  /-- 32; 10 Table 10.3 -/
  launch : BitVec 32 := 0
  /-- 16; 10 Table 10.3 -/
  cyc : BitVec 16 := 0
  /-- LEN bytes; 10 Table 10.3 -/
  payload : List Byte := []
deriving DecidableEq, Repr

/-- Kcp right after reset. -/
def Kcp.reset : Kcp := {}

/-- A CAN frame, or the header and data of a queue entry (Table 12.7). -/
structure CanEnt where
  /-- 29; 12 Table 12.7 -/
  id : BitVec 29 := 0
  /-- 1; 12 Table 12.7 -/
  ide : Bool := false
  /-- 1; 12 Table 12.7 -/
  rtr : Bool := false
  /-- 2; 12 Table 12.7 -/
  fmt : BitVec 2 := 0
  /-- 1; 12 Table 12.7 -/
  brs : Bool := false
  /-- 1; 12 Table 12.7 -/
  esi : Bool := false
  /-- 4; 12 Table 12.7 -/
  retry : BitVec 4 := 0
  /-- 8; 12 Table 12.7 -/
  sdt : BitVec 8 := 0
  /-- 11; 12 Table 12.7 -/
  dlc : BitVec 11 := 0
  /-- 32; 12 Table 12.7 -/
  af : BitVec 32 := 0
  /-- 8; 12 Table 12.7 -/
  vcid : BitVec 8 := 0
  /-- 1; 12 Table 12.7 -/
  sec : Bool := false
  /-- 1: a reserved field is not 0; 12 R335 -/
  rsvd : Bool := false
  /-- 2,048 bytes; 12 R331 -/
  data : List Byte := []
deriving DecidableEq, Repr

/-- CanEnt right after reset. -/
def CanEnt.reset : CanEnt := {}

/-- What a start finds (Table 2.5): the outcomes that hardware and stored contents decide. -/
structure BootObs where
  /-- 1: the key-store parity check passes; 02 Table 2.5 -/
  ksParity : Bool := true
  /-- devices that fail training; 02 R38 -/
  trainFail : List Nat := []
  /-- 1: every check of R57 passes; 02 R57 -/
  selfTest : Bool := true
  /-- 32: RET seconds counter; 02 R35 -/
  retSecs : BitVec 32 := 0
  /-- stations whose valid INPUT arrived in step 8; 02 Table 2.5 -/
  stnsIn : List Nat := []
  /-- words that the MRAM check corrects; 16 R436 -/
  mramCe : Nat := 0
  /-- double errors that it finds; 16 R436 -/
  mramBad : List MramErr := []
  /-- offset of the key-store word whose parity fails; 03 R78 -/
  ksOff : Nat := 0
  /-- 4: speed that the PCI Express link trains to; 04 Table 4.12 -/
  speed : BitVec 4 := 4
  /-- 5: its width; 04 Table 4.12 -/
  width : BitVec 5 := 4
  /-- AIO channels whose factory trim fails its check; 13 R361 -/
  factoryBad : List (Fin 16) := []
deriving DecidableEq, Repr, Inhabited

/-- BootObs right after reset. -/
def BootObs.reset : BootObs := {}

/-- A failed access to host memory (spec/04_host_rings.md R119): the entry fetch of a ring slot, the payload or
scatter-list fetch, the return-data write or the completion write of a command, or an event entry write. -/
inductive HostErr where
  | entry (slot : Nat) | payload (h : Hcmd) | returned (h : Hcmd) | completion (h : Hcmd) | event
deriving DecidableEq, Repr

/-- The messages of the precision time protocol that the module handles beside measured Syncs (spec/11_time.md R311). -/
inductive PtpMsg where
  | announce | sync | followUp | pdelayReq | pdelayResp | delayReq | delayResp
deriving DecidableEq, Repr


/-- The commands of spec/opcode_table.json, one constructor per row, in the table's order. -/
inductive Instr where
  /-- POWER_GOOD (R54): The ORed input has stayed at 20.0 V or more for 50 ms with the hold-up bus at 44 V, so BOOT starts at step 1. -/
  | powerGood (obs : BootObs)
  /-- PCIE_CONFIG_REQUEST (R58): A PCIe configuration request is answered with retry status until boot step 2 completes, and normally from then on. -/
  | pcieConfigRequest
  /-- TAMPER_LATCH_SET (R35): The slot-presence contact or the cover switch opens while the module is unpowered, and the RET tamper latch sets. -/
  | tamperLatchSet (cover : Bool)
  /-- VRET_LOST (R36): VRET falls below its retention threshold, so RET restarts its counter at 0 and the tamper latch reads set. -/
  | vretLost
  /-- PFAIL_SET (R467): The ORed input stays below 19.0 V for 100 µs, so PFAIL sets, non-volatile writes are inhibited and ring fetching stops. -/
  | pfailSet
  /-- PFAIL_CLEAR (R52): The ORed input stays at 19.0 V or more for 1 ms before shutdown has begun, so PFAIL clears and the held writes, fetches and erases resume. -/
  | pfailClear (low : BitVec 16)
  /-- INPUT_LOST (R467): The ORed input stays below 17.0 V for 10 ms, so shutdown begins. -/
  | inputLost
  /-- HOLD_UP_SPENT (R467): The hold-up bus falls below 36.0 V, so shutdown begins. -/
  | holdUpSpent
  /-- FEED_RANGE_CHANGE (R465): A 24 V feed has been outside, or back inside, 18.0 V to 32.0 V for 10 ms, so FEEDA_OK or FEEDB_OK changes. -/
  | feedRangeChange (feedB : Bool) (inRange : Bool) (mv : BitVec 16)
  /-- RAIL_FAULT (R474): A monitored rail is outside its window for 1 µs, which is an unrecoverable fault of the module. -/
  | railFault (rail : Fin 7) (mv : Word)
  /-- TEMPERATURE_SAMPLE (R475): The 10 ms junction-temperature sample updates PWR_TEMP and raises TEMP_WARN at or above PWR_TWARN. -/
  | temperatureSample (junction : BitVec 16) (inlet : BitVec 16)
  /-- OVERTEMPERATURE (R475): The junction has been at or above 150.0 °C for 100 consecutive samples, which is an unrecoverable fault. -/
  | overtemperature
  /-- HK_WATCHDOG_EXPIRY (R476): HK has not kicked its PWR watchdog within 50 ms, so the PWR block signals an unrecoverable fault. -/
  | hkWatchdogExpiry
  /-- ENGINE_WATCHDOG_EXPIRY (R11): An engine watchdog expires, so the partner takes over or a lone module enters FAULT-HALT. -/
  | engineWatchdogExpiry (engine : Fin 8)
  /-- CLOCK_FAULT (R14): The TCXO deviates more than 1 % from the Selvedge crystal for 100 µs, so all safety outputs go off and the module has an unrecoverable fault. -/
  | clockFault
  /-- OPTIME_SAVE (R473): Every 10 s outside PFAIL, SYS_OPTIME is saved to MRAM. -/
  | optimeSave
  /-- VRET_MEASUREMENT (R477): Every 60 s, VRET is measured and VRET_LOW is updated. -/
  | vretMeasurement (mv : BitVec 16)
  /-- SLOT_PRESENCE_LOST (R270): The slot-presence contact breaks under power, and the module acts on its role. -/
  | slotPresenceLost
  /-- REGISTER_WRITE (R62): A write to a register that has no behaviour of its own takes effect as its access code states. -/
  | registerWrite (ini : Ini) (off : Nat) (val : Word) (be : BitVec 4)
  /-- BIT_ALIAS_WRITE (R87): A BAR4 alias write sets one target bit by an indivisible read-modify-write. -/
  | bitAliasWrite (ini : Ini) (off : Nat) (val : Word) (be : BitVec 4)
  /-- POSTED_WRITE_DONE (R70): A posted write reaches its slow island and takes effect, and BUSY clears. -/
  | postedWriteDone (base : Nat)
  /-- POSTED_BLOCK_FAILED (R72): BUSY of a posted block has stayed at 1 for 1 ms, so the block is declared failed. -/
  | postedBlockFailed (base : Nat)
  /-- PRESS_GO (R81): Writing GO to a press control register requests a press and sets PEND. -/
  | pressGo (ini : Ini) (off : Nat)
  /-- PRESS_APPLY (R81): At the group's safe boundary, the staging copies are checked together and copied to the live copies, or the press is refused. -/
  | pressApply (off : Nat)
  /-- VOTE_SWEEP (R76): Every 100 ms, HK votes every RWV field. -/
  | voteSweep (upset : List (Nat × Nat × Word))
  /-- PARITY_SWEEP (R78): Every 10 ms, HK checks the parity of every RWK field. -/
  | paritySweep (upset : List Nat)
  /-- SYS_HLW_KICK (R91): A full-word write to SYS_HLW_KICK restarts the host-liveness timer and clears HOST_LOST. -/
  | sysHlwKick (val : Word)
  /-- HOST_LIVENESS_EXPIRY (R91): The live SYS_HLW_TIME passes without a kick, so HOST_LOST reads 1 and a warning record is written. -/
  | hostLivenessExpiry
  /-- SYS_RESTART (R92): A write to the SYS_RESTART key; a complete key in FAULT-HALT, RECOVERY or BOOT held starts BOOT at step 2. -/
  | sysRestart (val : Word) (obs : BootObs)
  /-- PCIE_RESET (R95): A Function Level Reset, hot reset, PERST# or link-down resets the PCI island and HIF, deleting every ring. -/
  | pcieReset
  /-- SUBMISSION_DOORBELL (R99): The host writes a submission tail doorbell, which is checked and makes new entries available for fetch. -/
  | submissionDoorbell (word : DbWord) (val : Word) (be : BitVec 4)
  /-- COMPLETION_DOORBELL (R99): The host writes a completion head doorbell, releasing completion entries and resuming a stalled pair. -/
  | completionDoorbell (page : Nat) (val : Word) (be : BitVec 4)
  /-- MSIX_UNMASK (R120): An MSI-X vector is unmasked and its pending message is sent. -/
  | msixUnmask (vector : Fin 64)
  /-- INTERRUPT_COALESCE_TIMEOUT (R109): COAL_T passes after the first uncounted completion, so the interrupt is raised. -/
  | interruptCoalesceTimeout (slot : Nat)
  /-- HOST_MEMORY_ERROR (R119): A host-memory access fails, and the module halts the ring, fails the command or drops the event as Table R119 gives. -/
  | hostMemoryError (err : HostErr)
  /-- WINDOW_ENTRY_FLUSH (R112): The window entry of a class N command is sent at the latest 1 ms after the command. -/
  | windowEntryFlush
  /-- MIRROR_ACK_TIMEOUT (R113): The partner has not acknowledged a record 200 µs after it was sent, so the record is journaled. -/
  | mirrorAckTimeout (rseq : DWord)
  /-- NOP (R107): Admin opcode 0x00 completes without effect. -/
  | nop (h : Hcmd)
  /-- IDENTIFY (R110): Returns the 4,096-byte identity structure, including SYS registers, versions and the nonce. -/
  | identify (h : Hcmd)
  /-- RING_CREATE (R109): Creates command ring pair TARGET with the given bases, sizes, vector and coalescing. -/
  | ringCreate (h : Hcmd)
  /-- RING_DELETE (R110): Stops fetching on a command pair, completes or aborts its commands and deletes it. -/
  | ringDelete (h : Hcmd)
  /-- EVENT_CREATE (R110): Creates the event ring with its base, size, vector and lowest reported severity. -/
  | eventCreate (h : Hcmd)
  /-- EVENT_DELETE (R110): Deletes the event ring. -/
  | eventDelete (h : Hcmd)
  /-- MODE_SET_RUN (R43): MODE_SET to RUN: classes start at their next boundaries and loops after the first commit. -/
  | modeSetRun (h : Hcmd)
  /-- MODE_SET_STOP (R142): MODE_SET to STOP: each class finishes its cycle, then outputs go to safe values. -/
  | modeSetStop (h : Hcmd)
  /-- MODE_SET_COMMISSION (R50): MODE_SET to COMMISSION, where Table 2.4 allows it. -/
  | modeSetCommission (h : Hcmd)
  /-- MODE_SET_TEST (R50): MODE_SET to TEST, where Table 2.4 allows it. -/
  | modeSetTest (h : Hcmd)
  /-- MODE_SET_HOLD (R174): MODE_SET to HOLD breaks the pairs of the mask, holding core B and letting core A run under debug control. -/
  | modeSetHold (h : Hcmd)
  /-- MODE_SET_HOLD_EXIT (R45): Exit from HOLD to its entry mode: broken pairs are reset and reloaded, and lock-step resumes. -/
  | modeSetHoldExit (h : Hcmd)
  /-- MODE_SET_IDLE_LINK (R39): MODE_SET to IDLE-LINK powers down engines and puts DRAM into self-refresh. -/
  | modeSetIdleLink (h : Hcmd)
  /-- MODE_SET_IDLE_EXIT (R40): The exit command over PCIe or P6 reloads engines, runs self-test and returns to the mode before IDLE-LINK. -/
  | modeSetIdleExit (h : Hcmd) (obs : BootObs)
  /-- ROLE_EXCHANGE (R265): Starts a commanded exchange of roles, or a proof swap, at a hand-over boundary. -/
  | roleExchange (h : Hcmd)
  /-- RESTART (R111): Completes with OK, then within 1 ms begins BOOT at step 2. -/
  | restart (h : Hcmd) (obs : BootObs)
  /-- IMAGE_WRITE (R448): Writes a part of a firmware, configuration or key image to the staging area the module chooses. -/
  | imageWrite (h : Hcmd)
  /-- IMAGE_VERIFY (R449): Verifies the staged image of an area and returns the outcome; with ENROLL, applies a key image. -/
  | imageVerify (h : Hcmd)
  /-- ACTIVATE_SWITCH (R452): ACTIVATE with OP SWITCH starts a switch of firmware, configuration or both, at once or by schedule. -/
  | activateSwitch (h : Hcmd)
  /-- ACTIVATE_CONFIRM (R462): ACTIVATE with OP CONFIRM confirms the running firmware, raising the minimum SVN and setting the STORE_FMT. -/
  | activateConfirm (h : Hcmd)
  /-- ACTIVATE_CANCEL (R459): ACTIVATE with OP CANCEL abandons a prepared switch before its step 2. -/
  | activateCancel (h : Hcmd)
  /-- CONFIG_RETURN (R460): Switches to the previous configuration version, using the reverse state map. -/
  | configReturn (h : Hcmd)
  /-- ATTEST_QUOTE (R463): Returns a quote of measurements and versions, signed with the identity key. -/
  | attestQuote (h : Hcmd)
  /-- TALLY_CLEAR (R420): Clears sealed records of a Tally region in a sequence range, subject to the token rules, and writes an audit record. -/
  | tallyClear (h : Hcmd)
  /-- NOP_COMMAND (R107): Command-ring opcode 0x40 completes without effect. -/
  | nopCommand (h : Hcmd)
  /-- VAR_READ (R145): Returns variable elements copied from one commit of a class. -/
  | varRead (h : Hcmd)
  /-- VAR_WRITE (R146): Enters variable elements into the class's pending-write buffer, to be applied together. -/
  | varWrite (h : Hcmd)
  /-- FORCE_SET (R147): Forces variable elements in TEST. -/
  | forceSet (h : Hcmd)
  /-- FORCE_CLEAR (R147): Clears forces of elements, or all forces of a class. -/
  | forceClear (h : Hcmd)
  /-- LOOP_READ (R211): Returns one 64-byte record per loop, taken at its next crease or from mirrored state. -/
  | loopRead (h : Hcmd)
  /-- LOOP_WRITE (R210): Writes loop fields, coefficients and commands, which take effect together at each loop's next phase 0. -/
  | loopWrite (h : Hcmd)
  /-- TALLY_READ (R416): Returns whole sealed records of a region from a sequence on. -/
  | tallyRead (h : Hcmd)
  /-- PROGRAM_LOAD_CHANGE (R219): Checks, stores and schedules an online program change to a new version. -/
  | programLoadChange (h : Hcmd)
  /-- PROGRAM_LOAD_RETURN (R230): Exchanges the active program for the previous one by the reverse map. -/
  | programLoadReturn (h : Hcmd)
  /-- PROGRAM_LOAD_STATUS (R232): Returns the program versions and the state of a change. -/
  | programLoadStatus (h : Hcmd)
  /-- CLASS_BOUNDARY (R135): At a class boundary the cycle number advances and the cycle is started, made late or dropped. -/
  | classBoundary (c : Fin 8) (mem : List MemAcc) (work : Work)
  /-- OUTPUT_COMMIT (R19): A class ends its body, forced outputs are applied, deferred writes are released and the published-buffer index is written. -/
  | outputCommit (c : Fin 8) (work : Work) (early : Bool)
  /-- SOFT_BUDGET_EXPIRY (R136): A cycle's soft budget elapses before its commit, so OVER_SOFT sets and the overrun is counted. -/
  | softBudgetExpiry (c : Fin 8)
  /-- HARD_LIMIT_EXPIRY (R137): The hard limit of a non-skippable class expires, so the module sends a halt notice and enters FAULT-HALT. -/
  | hardLimitExpiry (c : Fin 8)
  /-- INTERVAL_CHECKPOINT (R159): LSP_PAIR_CKINT has passed since the last seal or restore, so an interval checkpoint is taken. -/
  | intervalCheckpoint (p : Fin 4) (work : Work)
  /-- EARLY_CHECKPOINT (R165): A store finds the darn log or the deferred-write buffer full, so the pair takes an early checkpoint. -/
  | earlyCheckpoint (p : Fin 4) (work : Work) (deferFull : Bool)
  /-- CHECKPOINT_SEAL (R158): A checkpoint's seal word is written, the darn log empties and the deferred stores are released. -/
  | checkpointSeal (p : Fin 4)
  /-- COMPARATOR_MISMATCH (R166): The comparator of a pair sees a mismatch, so the fence latches and a darn or a pair failure follows. -/
  | comparatorMismatch (p : Fin 4) (seen : Mism) (work : Work)
  /-- DARN_RESTORE_END (R166): The restore of a darn ends, and the fence and cores are released to re-execute. -/
  | darnRestoreEnd (p : Fin 4) (ns : Nat)
  /-- RESTORE_TIMEOUT (R169): A restore has not ended 20 µs after the mismatch, so the pair fails. -/
  | restoreTimeout (p : Fin 4)
  /-- KNOWN_ANSWER_RUN (R171): Once per second, an idle pair, or every pair of a standby, runs its known-answer sequence. -/
  | knownAnswerRun (p : Fin 4)
  /-- DBG_HALT (R176): LSP_PAIR_DBG_CTRL HALT stops core A of a broken pair. -/
  | dbgHalt (p : Fin 4) (pc : Word) (work : Work)
  /-- DBG_STEP (R176): LSP_PAIR_DBG_CTRL STEP runs one instruction of core A. -/
  | dbgStep (p : Fin 4) (pc : Word) (work : Work)
  /-- DBG_RESUME (R176): LSP_PAIR_DBG_CTRL RESUME lets core A continue. -/
  | dbgResume (p : Fin 4)
  /-- BREAKPOINT_HIT (R176): Core A of a broken pair reaches an enabled breakpoint and halts. -/
  | breakpointHit (p : Fin 4) (bp : Fin 4) (work : Work)
  /-- MINOR_FRAME_START (R191): A loop engine begins a minor frame and walks its frame-table entries. -/
  | minorFrameStart (e : Fin 4)
  /-- LOOP_PHASE0 (R200): At a loop's phase 0, inputs are sampled and the pending re-arm, mode request and presses are taken. -/
  | loopPhase0 (slot : Nat)
  /-- LOOP_STEP (R191): A loop step starts at its START and runs its law for exactly COST clocks. -/
  | loopStep (slot : Nat) (flip : Word)
  /-- LOOP_CREASE (R188): At the crease offset, the loop's output latch is written to its output. -/
  | loopCrease (slot : Nat)
  /-- LOOP_CMD_REARM (R199): CLE_LOOP_CMD REARM requests a re-arm from feedback loss at the next phase 0. -/
  | loopCmdRearm (w : Fin 8) (ini : Ini)
  /-- LOOP_CMD_MANUAL (R199): CLE_LOOP_CMD MANUAL requests manual mode at the next phase 0. -/
  | loopCmdManual (w : Fin 8) (ini : Ini)
  /-- LOOP_CMD_AUTO (R199): CLE_LOOP_CMD AUTO requests a return to automatic at the next phase 0. -/
  | loopCmdAuto (w : Fin 8) (ini : Ini)
  /-- EXCHANGE_INSTANT (R221): At the exchange instant of an online change, the changed classes switch to the new program by the sequence of Table 8.7. -/
  | exchangeInstant
  /-- PACKAGE_STORE_DONE (R219): The change package has been written to slot memory. -/
  | packageStoreDone
  /-- STANDBY_READY_TIMEOUT (R219): The standby has not reported ready 60 s after receiving the package, so the change is refused with reason 0x37. -/
  | standbyReadyTimeout
  /-- HEARTBEAT_SEND (R236): Every 50 µs, each module sends a heartbeat on each lane. -/
  | heartbeatSend (lane : Bool)
  /-- HEARTBEAT (R239): A heartbeat is received, updating the partner's state and feeding the baste time source. -/
  | heartbeat (lane : Bool) (hb : Hb)
  /-- HEARTBEAT_MISSED (R236): No heartbeat arrives within 55 µs of the previous one on a lane. -/
  | heartbeatMissed (lane : Bool)
  /-- RSEQ_GAP_TIMEOUT (R238): A missing RSEQ has not arrived 100 µs after a later record, so INSYNC ends. -/
  | rseqGapTimeout
  /-- ACK (R240): An ACK record acknowledges a record that needed acknowledgement. -/
  | ack (r : BRec)
  /-- HOSTWORK (R246): The standby receives a host-work record, acknowledges it and applies it at its cycle number. -/
  | hostwork (r : BRec)
  /-- LINES (R244): The standby receives changed 64-byte lines of a commit into its inactive buffer. -/
  | lines (r : BRec)
  /-- COMMIT_END (R244): The standby receives the end mark of a commit record and switches buffers if it is valid. -/
  | commitEnd (r : BRec)
  /-- LOOP_STATE (R204): The standby receives mirrored loop state. -/
  | loopState (r : BRec)
  /-- LOOP_GROUP (R204): The standby receives the live operating group of a loop after a press. -/
  | loopGroup (r : BRec)
  /-- TALLY_HDRS (R243): The partner's Tally record headers are received and kept. -/
  | tallyHdrs (r : BRec)
  /-- TALLY_HDRS_SEND (R243): Sealed Tally headers are sent to the partner in a batch at most 1 ms after the seal. -/
  | tallyHdrsSend
  /-- VERSIONS (R247): A VERSIONS record is received and the versions check of Table 9.3 applies. -/
  | versions (r : BRec)
  /-- WINDOW (R248): The standby receives the window and H of a ring at the cut-in. -/
  | window (r : BRec)
  /-- IMAGE (R238): A part of a firmware, configuration, program or package image is received over the baste link. -/
  | image (r : BRec)
  /-- NOTICE_FAILURE (R252): A failure notice from the primary is received and feeds the takeover decision. -/
  | noticeFailure (r : BRec)
  /-- NOTICE_HALT (R137): A halt notice is received and the standby enters FAULT-HALT without taking over. -/
  | noticeHalt (r : BRec)
  /-- NOTICE_HANDOVER (R265): A hand-over notice naming boundary h is received. -/
  | noticeHandover (r : BRec)
  /-- NOTICE_HANDBACK (R269): A hand-back notice after a failed proof check is received. -/
  | noticeHandback (r : BRec)
  /-- NOTICE_RING_ABSENT (R253): The primary receives a report that its beacons are absent on a ring and hands over. -/
  | noticeRingAbsent (r : BRec)
  /-- NOTICE_PROOF_FAIL (R269): A PROOF_FAIL notice from the partner is received. -/
  | noticeProofFail (r : BRec)
  /-- NOTICE_CUT_IN (R248): The cut-in notice of initial sync is received and acknowledged, and both modules enter INSYNC. -/
  | noticeCutIn (r : BRec)
  /-- NOTICE_READY (R219): The standby reports ready for a change package or activation. -/
  | noticeReady (r : BRec)
  /-- NOTICE_CHECK_FAILED (R219): The standby reports that a package or image failed its check. -/
  | noticeCheckFailed (r : BRec)
  /-- INITIAL_SYNC_START (R247): A standby in RUN with a lane up and passing versions starts initial sync. -/
  | initialSyncStart
  /-- CUT_IN (R248): At the next 1 ms tick, the primary holds J and S fetching and sends the remaining lines, windows and pending writes. -/
  | cutIn
  /-- SYNC_ABANDON (R248): Initial sync has not finished in 10 s and is abandoned. -/
  | syncAbandon
  /-- HANDOVER_BOUNDARY (R265): At the hand-over boundary both modules enter TAKEOVER and the new primary starts the cycle. -/
  | handoverBoundary
  /-- PROOF_SWAP_DUE (R267): DPX_PS_NEXT is reached, so the primary starts a proof swap or defers it. -/
  | proofSwapDue
  /-- PROOF_WINDOW_END (R268): DPX_PS_WINDOW ends after the new primary's first commit, and the proof swap passes. -/
  | proofWindowEnd
  /-- PARTNER_SEARCH_TIMEOUT (R261): No heartbeat appears within 100 ms after self-test, so the module listens for beacons or waits. -/
  | partnerSearchTimeout
  /-- ABSENT_WAIT_EXPIRY (R261): DPX_ABSENT_WAIT passes with no beacon heard, so the module takes the primary role. -/
  | absentWaitExpiry
  /-- DPX_CLAIM (R263): The claim key makes a module in WAIT_PEER take the primary role with a new epoch. -/
  | dpxClaim (val : Word)
  /-- LINK_CHANGE (R274): An Ethernet port link comes up or goes down; a wrong speed, duplex or transceiver holds it down. -/
  | linkChange (port : Fin 7) (up : Bool) (speed : BitVec 2) (full : Bool) (sfp : Sfp)
  /-- BEACON_SLOT (R252): At each 50 µs beacon slot, the primary sends beacons and the modules judge beacon absence. -/
  | beaconSlot
  /-- BEACON (R260): A beacon frame is received, raising E_seen and feeding ring and takeover supervision. -/
  | beacon (f : Kcp)
  /-- INPUT (R281): A station's INPUT frame is received, eliminated or written to its receive buffer. -/
  | input (f : Kcp)
  /-- LOOP_IN (R289): A station's LOOP_IN frame is received for one loop sample. -/
  | loopIn (f : Kcp)
  /-- OUTPUT_LAUNCH (R20): At a station's launch time, NE0 sends its OUTPUT frame from the last committed image. -/
  | outputLaunch (stn : Nat)
  /-- LOOP_OUT_LAUNCH (R289): At its launch time, the primary sends a LOOP_OUT frame for a loop sample. -/
  | loopOutLaunch (stn : Nat) (pgrp : BitVec 4)
  /-- PARAM_ACK (R285): A station's PARAM_ACK is received, accepting or refusing its parameter block. -/
  | paramAck (f : Kcp)
  /-- PARAM_RETRY (R285): No PARAM_ACK arrives within 10 ms, so the whole block is sent again. -/
  | paramRetry (stn : Nat)
  /-- PARAM_PERIODIC (R486): Every 1 s, a failed station that has not acknowledged gets its parameter block under a new PARAM_ID. -/
  | paramPeriodic (stn : Nat)
  /-- ELIMINATION_HISTORY_RESET (R278): No frame of a stream has arrived for 16 of its periods, so its elimination history resets. -/
  | eliminationHistoryReset (key : Nat)
  /-- PEER (R291): A PEER frame of a subscription is received and kept if its epoch is high enough. -/
  | peer (f : Kcp)
  /-- PEER_LAUNCH (R290): NE1 sends a publication at its launch offset from the last committed image. -/
  | peerLaunch (pub : Nat)
  /-- PEER_TIMEOUT (R291): No valid PEER frame has arrived for PEER_TMO, so the subscription fails. -/
  | peerTimeout (sub : Nat)
  /-- MGMT (R292): An MGMT request on P6 is executed and answered with a completion frame. -/
  | mgmt (f : Kcp) (h : Hcmd)
  /-- SYNC_MEASUREMENT (R305): A PTP Sync yields an offset measurement that feeds the servo or updates the domain state. -/
  | syncMeasurement (d : Fin 2) (theta : Int) (gm : DWord)
  /-- TIM_DOM_MEAS (R303): A host write of TIM_DOM_MEAS submits a measurement. -/
  | timDomMeas (d : Fin 2) (val : Word)
  /-- CLOCK_SET (R309): At the next whole millisecond, a decided set or realign gives the local clock its new value. -/
  | clockSet
  /-- DOMAIN_HOLDOVER (R304): A domain has no accepted measurement for 3 s and enters HOLDOVER. -/
  | domainHoldover (d : Fin 2)
  /-- HOLDOVER_TIMEOUT (R304): A domain has been in HOLDOVER for 60 s and goes to ACQUIRING. -/
  | holdoverTimeout (d : Fin 2)
  /-- REVERT_TIMER (R308): The preferred domain has been LOCKED and AGREE for 60 s, so the module switches back. -/
  | revertTimer
  /-- TIM_REALIGN (R310): The realign key sets the local clock to the selected domain where a set is permitted. -/
  | timRealign (val : Word)
  /-- TX_TIMESTAMP (R313): The first bit of a tagged frame leaves, and a timestamp entry is queued or lost. -/
  | txTimestamp (port : Fin 7) (tag : BitVec 16) (frac : BitVec 2)
  /-- LAUNCH_LATE (R316): A frame cannot begin by its launch time plus 8 ns, so it is discarded as late. -/
  | launchLate (port : Fin 7)
  /-- CAPTURE_EDGE (R318): A selected edge on TCAP0 or TCAP1 is captured with the local full time. -/
  | captureEdge (inp : Fin 2) (rising : Bool) (frac : BitVec 2)
  /-- TOUT_EDGE (R319): TOUT rises at a multiple of its period and falls TIM_TOUT_WIDTH later. -/
  | toutEdge
  /-- CAN_FRAME_RECEIVED (R332): A CAN frame reaches its validity point, is filtered and handed over to a receive queue or dropped. -/
  | canFrameReceived (ch : Fin 8) (fr : CanEnt) (sof : Word)
  /-- PROTOCOL_EXCEPTION (R322): A recessive res bit after FDF starts the protocol exception event or a form error. -/
  | protocolException (ch : Fin 8) (xl : Bool)
  /-- TXQ_POLL (R333): Every 5 µs, the controller reads the TXQ control block and fetches a newly submitted entry. -/
  | txqPoll (ch : Fin 8)
  /-- ATTEMPT_START (R336): At bus idle, the transmitter starts an attempt for the entry in progress. -/
  | attemptStart (ch : Fin 8)
  /-- ATTEMPT_END (R336): An attempt ends with success, lost arbitration or error, and the entry completes or retries. -/
  | attemptEnd (ch : Fin 8) (out : CanEnd)
  /-- CAN_ERROR (R338): A bus error is detected and counted, and the error counters move the fault-confinement state. -/
  | canError (ch : Fin 8) (kind : CanErr) (dataPhase : Bool) (tx : Bool) (inc : Fin 9)
  /-- CAN_CMD_RECOVER (R339): The host's RECOVER starts bus-off recovery. -/
  | canCmdRecover (ch : Fin 8) (ini : Ini)
  /-- BUS_OFF_RECOVERY_DONE (R339): 128 occurrences of 11 recessive bits have passed, so the channel is error active again. -/
  | busOffRecoveryDone (ch : Fin 8)
  /-- DI_FILTER_CHANGE (R344): The input filter counter reaches full or empty and the filtered state changes. -/
  | diFilterChange (ch : Fin 32) (level : Bool)
  /-- LOCAL_APPLY (R342): At a class's local apply offset, the sequencer writes its local outputs from the last committed image. -/
  | localApply (c : Fin 8) (pins : Word)
  /-- RBERR_ONSET (R346): The read-back differs from the output value in force for 50 µs, so RBERR rises. -/
  | rberrOnset (ch : Fin 32)
  /-- DIO_TRIP (R347): An output stays in current limit for 2 ms or reaches thermal shutdown and trips. -/
  | dioTrip (ch : Fin 32) (how : Trip)
  /-- DIO_RETRY (R348): RETRY ms after a trip, the output drives again for up to 2 ms. -/
  | dioRetry (ch : Fin 32)
  /-- RETRIES_RESET (R348): One second without a trip returns RETRIES to 0. -/
  | retriesReset (ch : Fin 32)
  /-- FIO_DIO_REARM (R348): A write to FIO_DIO_REARM re-arms latched outputs. -/
  | fioDioRearm (val : Word)
  /-- FEED_LOST (R350): A DIO feed stays below 18.0 V for 1 ms, so its outputs drive only low. -/
  | feedLost (group : Fin 2) (mv : Word)
  /-- FEED_RETURN (R350): A lost feed stays at 19.0 V or more for 10 ms and its outputs resume. -/
  | feedReturn (group : Fin 2)
  /-- AI_CONVERSION (R352): An AI conversion completes and its value is trimmed, scaled and classified. -/
  | aiConversion (ch : Fin 16) (x : Int) (full : Bool) (fault : Bool)
  /-- AO_COMPLY (R358): An AO's measured current differs from the command by more than 0.2 mA for 10 ms. -/
  | aoComply (ch : Fin 16) (tenthUa : Nat)
  /-- AO_OPEN (R358): An AO's current stays below 0.5 mA for 10 ms while 3.5 mA or more is commanded. -/
  | aoOpen (ch : Fin 16) (tenthUa : Nat)
  /-- AO_CONDITION_CLEAR (R358): After 10 ms within 0.1 mA of the command, OPEN or COMPLY clears. -/
  | aoConditionClear (ch : Fin 16) (tenthUa : Nat)
  /-- PWR_LIM (R359): A channel's stored energy reaches 0, so it limits its draw to 0.8 W. -/
  | pwrLim (ch : Fin 16) (e : Nat)
  /-- STRAP_CHANGE (R357): A fail-direction strap is fitted or removed while powered. -/
  | strapChange (g : Fin 2) (fitted : Bool)
  /-- CAPT_LO (R360): Trim OP CAPT_LO records M_LO and R_LO. -/
  | captLo (ch : Fin 16) (mean : Int)
  /-- CAPT_HI (R360): Trim OP CAPT_HI records M_HI and R_HI. -/
  | captHi (ch : Fin 16) (mean : Int)
  /-- STORE (R360): Trim OP STORE computes the trim and writes it to the calibration store. -/
  | store (ch : Fin 16)
  /-- DISCARD (R360): Trim OP DISCARD abandons the trim in progress. -/
  | discard (ch : Fin 16)
  /-- FACTORY (R360): Trim OP FACTORY erases the user trim. -/
  | factory (ch : Fin 16)
  /-- DRIVE_LO (R360): Trim OP DRIVE_LO makes an AO drive its low trim point. -/
  | driveLo (ch : Fin 16)
  /-- DRIVE_HI (R360): Trim OP DRIVE_HI makes an AO drive its high trim point. -/
  | driveHi (ch : Fin 16)
  /-- HART_POLL (R363): At the poll interval, a channel polls a device with command 3. -/
  | hartPoll (ch : Fin 16)
  /-- HART_HCTL_GO (R364): GO in FIO_HART_HCTL submits the host mailbox request. -/
  | hartHctlGo (val : Word)
  /-- HART_TRANSACTION_END (R362): A HART transaction ends with a response or after its retries. -/
  | hartTransactionEnd (ch : Fin 16) (out : HartEnd) (retries : Nat)
  /-- SELVEDGE_SAMPLE (R391): Every 250 µs, the Selvedge logic samples its inputs and runs the actions of Table 14.3. -/
  | selvedgeSample (x : Samp) (sp : Samp)
  /-- DISCREPANCY (R376): The discrepancy count of an input reaches N and the input trips. -/
  | discrepancy (input : Fin 8)
  /-- RESET_STUCK (R388): RST has been read closed for 12,001 samples, so the press never qualifies. -/
  | resetStuck
  /-- SP_CYCLE (R391): Every 1 ms, SP runs its safety program and checks, and commands its switches. -/
  | spCycle (r : SpRun)
  /-- TEST_PULSE (R373): The Selvedge logic drives a 500 µs test pulse on TP1 or TP2. -/
  | testPulse (second : Bool)
  /-- OUT_FAULT (R378): A safety-output read-back mismatch has lasted 1 ms. -/
  | outFault (k : Fin 4)
  /-- DARK_TEST (R379): Every DARK seconds, one switch of an on output opens for 300 µs and is checked. -/
  | darkTest (k : Fin 4) (ok : Bool)
  /-- OVERCURRENT (R380): A safety output exceeds its current limit for 1 ms. -/
  | overcurrent (k : Fin 4)
  /-- SUPPLY (R380): The safety field supply is below 18.0 V for 1 ms. -/
  | supply (mv : BitVec 16)
  /-- AGREE (R381): SP and the Selvedge logic disagree on a channel for 8 samples, or on a permit for 20 ms. -/
  | agree (d : Disagree)
  /-- SELVEDGE_CHALLENGE (R383): Every 1 ms, the Selvedge logic challenges SP and checks the previous answer. -/
  | selvedgeChallenge (ok : Bool)
  /-- WSC_PDU_RECEIVE (R395): A WSC PDU is checked and accepted or discarded. -/
  | wscPduReceive (conn : Fin 64) (pdu : List Byte) (primarySeq : BitVec 16)
  /-- WSC_DEADLINE (R396): A connection's deadline passes, so it fails and delivers fail-safe values. -/
  | wscDeadline (conn : Fin 64)
  /-- TALLY_WRITE (R404): The Tally unit writes and seals a queued record into its severity's open page. -/
  | tallyWrite
  /-- TLY_RDSEQ (R415): A write to TLY_RDSEQ copies the matching record into TLY_RDBUF. -/
  | tlyRdseq (val : Word)
  /-- TLY_CLRKEY (R422): The clear key clears log records through registers where the rings are not fetched. -/
  | tlyClrkey (val : Word)
  /-- RINSE_READ (R433): The rinse scrubber reads and decodes the next DRAM line. -/
  | rinseRead (e0 : List Nat) (e1 : List Nat) (m0 : Option (List Nat)) (m1 : Option (List Nat)) (behind : Bool)
  /-- CORRECTED_WRITE_BACK (R428): A corrected line is written back unless a newer write came first. -/
  | correctedWriteBack (line : Nat)
  /-- SRAM_SWEEP (R435): Every 10 s, each SRAM is read and single-bit errors are corrected. -/
  | sramSweep (ce : Nat) (refetch : Nat) (dbl : Nat)
  /-- MRAM_SCRUB (R436): Every 24 h, HK reads all MRAM and writes back corrected words. -/
  | mramScrub (ce : Nat) (errs : List MramErr)
  /-- MEM_INJ_ARM (R437): Writing ARM in TEST arms the error injection into the next full-line write. -/
  | memInjArm
  /-- BOOT_LD_KEY (R447): In BOOT held, the load key makes the mask ROM load, verify and write a firmware image. -/
  | bootLdKey (val : Word) (image : List Byte)
  /-- WARM_SWITCH (R453): At the first boundary with no class active, the module switches firmware or configuration without a restart. -/
  | warmSwitch
  /-- SCHEDULED_SWITCH (R455): At AT minus 30 s of a scheduled switch, the standby warm-switches. -/
  | scheduledSwitch
  /-- SETTLE_END (R458): The settle window after a switch ends and the new selection stands. -/
  | settleEnd (fail : Option (Fin 5))
  /-- AUTO_CONFIRM (R462): 72 operating hours after a switch, the firmware is confirmed. -/
  | autoConfirm
  /-- HOLDUP_OK_CHANGE (R467): The hold-up bus rises to 44.0 V or falls below it, or the boost finishes recharging it to 48.0 V, so HOLDUP_OK or RECHARGE changes. -/
  | holdupOkChange (mv : BitVec 16)
  /-- PTP_MESSAGE (R311): A PTP message other than a measured Sync (Announce, Follow_Up, Pdelay_Req or Pdelay_Resp) is received, updating the grandmaster identity or link delay, or answering a peer-delay request. -/
  | ptpMessage (port : Fin 7) (m : PtpMsg) (d : Fin 2) (gm : DWord) (tag : BitVec 16) (ns : Word)
  /-- PTP_TRANSMIT (R311): At its sync interval, the module sends PTP event messages: Announce and Sync on the rings as grandmaster when primary, and its own delay requests. -/
  | ptpTransmit (port : Fin 7) (m : PtpMsg) (tag : BitVec 16)
  /-- AREA_WRITE_COMPLETE (R450): A NOR or slot-memory program or erase of a staged image, a loaded firmware bank or a partner image ends, clearing PENDING, advancing BOOT_STG and removing an erase mark. -/
  | areaWriteComplete (area : Fin 3) (obs : BootObs)
  /-- RING_STARTUP_TIMEOUT (R285): The 1.5 s bound of boot step 8 is reached with stations still absent, so the step ends and those stations are marked failed at their first latch. -/
  | ringStartupTimeout
  /-- HART_BURST_MESSAGE (R362): A HART device in burst mode sends an unsolicited message, which the primary master receives. -/
  | hartBurstMessage (ch : Fin 16) (bytes : List Byte)
deriving DecidableEq, Repr

end Sys2Proof
end

