-- ==== Sys2Proof/Decode.lean ====
section
/-! DEFINITION. Words and commands. spec/opcode_table.json gives none of its rows any bits (every row's list of fields is empty):
the commands are events, register accesses, frames and ring entries, each with its own layout, so no word spells one. -/

namespace Sys2Proof

/-- The command that the `nbits` low bits of `w` spell by the table's bits: none, as no row has bits. -/
def decodeTableWord (_nbits _w : Nat) : Option Instr := none

end Sys2Proof
end

