-- ==== Sys2Proof/Config.lean ====
section
/-! DEFINITION. What an implementation or a standard outside spec/ fixes, and the free values.
Every opaque constant is a free value: nothing in Lean can evaluate it. -/

namespace Sys2Proof.Config

/-- The n-th free word drawn (log entry 5): the Tally nonce of R419 and every value the spec calls random. -/
opaque freeWord : Nat → DWord

/-- The n-th free Boolean drawn (log entry 5). -/
opaque freeBit : Nat → Bool

/-- What the n-th start that no command describes finds (spec/02_modes_and_startup.md R57, R60: self-test, DRAM training and the
key-store parity check run at every start, and the spec gives them no outcome; log entry 111). -/
opaque freeObs : Nat → BootObs

/-- The payload of a NaN that an operation of a loop engine makes (spec/07_loop_engines.md R179: IEEE 754, which leaves it open;
log entry 5). -/
opaque nanPayload : BitVec 22

/-- What register f`n` of a loop program holds before the program writes it (spec/07_loop_engines.md R185; log entry 5). -/
opaque freeReg : Nat → Word

/-- SHA-256 of FIPS 180-4 (spec/17_firmware_and_configuration.md R443; log entry 7): 32 bytes. -/
opaque sha256 : List Byte → List Byte

/-- ECDSA P-256 verification: key, digest, signature (spec/17_firmware_and_configuration.md R443; log entry 7). -/
opaque ecdsaOk : List Byte → List Byte → List Byte → Bool

/-- An ECDSA P-256 signature made with the identity key (spec/17_firmware_and_configuration.md R463; log entry 7). -/
opaque ecdsaSign : List Byte → List Byte

/-- Which of the two reasons of the first check of Table 17.5 an image that fails it gives: 0x63 or 0x64
(spec/17_firmware_and_configuration.md R444 states both and not which; log entry 13). -/
opaque firstCheck : List Byte → Bool

/-- The node identifier that a slot record holds (spec/17_firmware_and_configuration.md Table 17.1; log entry 6). -/
opaque slotNode : List Byte → BitVec 18

/-- The bytes that host memory holds at an address, by a count of the reads: what the mask ROM reads where the key word of
BOOT_LD_KEY comes as a plain register write (spec/17_firmware_and_configuration.md R447; log entry 5). -/
opaque hostBytes : DWord → Nat → Nat → List Byte

/-- The PCI Express Vendor ID assigned to Thilupor Controls (spec/04_host_rings.md Table 4.1 gives no number; log entry 6). -/
opaque vendorId : BitVec 16

end Sys2Proof.Config
end

