-- ==== Sys2Proof/Machine/Parts.lean ====
section
/-! DEFINITION. The blocks of State, each a structure of the registers, counters, queues and latches the spec gives it.
The default of a field is its value right after reset. -/

namespace Sys2Proof.Machine

/-- The states of a time domain (spec/11_time.md Table 11.8). -/
inductive DomState where
  | off | acquiring | locked | holdover | refused
deriving DecidableEq, Repr

/-- One completion entry (spec/04_host_rings.md Table 4.5). -/
structure Cqe where
  reqId : DWord
  sqHead : Nat
  slot : Nat
  opcode : BitVec 8
  status : BitVec 16
  phase : Bool
  dup : Bool
  mirrored : Bool
  journaled : Bool
  rdone : Nat
  result0 : Word
  result1 : DWord
  accTime : Word
  node : BitVec 18
  jseq : DWord
deriving DecidableEq, Repr

/-- One event entry (spec/04_host_rings.md Table 4.10). -/
structure Evt where
  code : BitVec 16
  sev : Nat
  phase : Bool
  loss : Bool
  source : Word
  seq : DWord
  optime : BitVec 48
  detail : List Byte
deriving DecidableEq, Repr

/-- The frames the module sends (spec/10_io_network.md, spec/11_time.md). -/
inductive FrameKind where
  | output | loopOut | param | beacon | peer | can
deriving DecidableEq, Repr

/-- One frame sent: its kind, where it goes (ring, station, publication, port or channel), its stream sequence number,
the repeat mark, the epoch, the cycle or sample number, the period group, the launch time, the node identifiers, the traffic class, the
VLAN and the length it carries (spec/10_io_network.md Table 10.3), and its payload. -/
structure Frame where
  kind : FrameKind
  dst : Nat
  seq : BitVec 16
  rep : Bool
  epoch : Word
  cyc : BitVec 16 := 0
  pgrp : BitVec 4 := 0
  launch : Word := 0
  src : BitVec 18 := 0
  dstNode : BitVec 18 := 0
  pcp : BitVec 3 := 0
  vid : BitVec 12 := 0
  len : Nat := 0
  payload : List Byte
deriving DecidableEq, Repr

/-- What the configuration header and the BARs show of the function (spec/04_host_rings.md Tables 4.1, 4.2): Vendor ID, Device ID,
Subsystem ID, Revision ID, the 64-bit non-prefetchable memory BARs with their sizes, to which each is aligned, the largest payload in
bytes and the MSI-X vectors. -/
structure PciId where
  vendor : BitVec 16
  device : BitVec 16
  subsystem : BitVec 16
  revision : BitVec 8
  bars : List (Nat × Nat)
  maxPayload : Nat
  vectors : Nat
deriving DecidableEq, Repr

/-- What leaves the module, in the order it leaves: the model's own observation (log entry 4). -/
inductive Out where
  | cqe (slot : Nat) (c : Cqe)
  | ret (slot : Nat) (addr : DWord) (bytes : List Byte)
  | event (e : Evt)
  | msix (vector : Nat)
  | cfgRetry | cfgAnswer (id : PciId)
  | p6 (node : BitVec 18) (bytes : List Byte)
  | frame (f : Frame)
  | baste (r : BRec)
  | heartbeat (lane : Bool) (h : Hb)
  | dio (ch : Nat) (level : Option Bool)
  | aio (ch : Nat) (tenthUa : Int)
  | so (k : Nat) (hs ls : Bool)
  | tp (n : Nat) (high : Bool)
  | tout (high : Bool)
  | ptp (port : Nat) (m : PtpMsg) (node : BitVec 18)
  | loop (slot : Nat) (value : Word)
  | reg (off : Nat) (val : Word)
  | hart (ch : Nat) (bytes : List Byte)
deriving DecidableEq, Repr


/-- One press control register (Table 3.6, R80). -/
structure Press where
  /-- 1; 03 R80 -/
  pend : Bool := false
  /-- 1; 03 R80 -/
  refused : Bool := false
  /-- 16; 03 R80 -/
  lost : BitVec 16 := 0
deriving DecidableEq, Repr

/-- Press right after reset. -/
def Press.reset : Press := {}

/-- A posted write in flight (R70). -/
structure Post where
  /-- 24; 03 R70 -/
  off : Nat := 0
  /-- 32; 03 R70 -/
  val : BitVec 32 := 0
  /-- mean of 256 conversions that a capture finds; 13 R360 -/
  mean : Option Int := none
deriving DecidableEq, Repr

/-- Post right after reset. -/
def Post.reset : Post := {}

/-- BLOCK_PSTAT of one posted block or CAN channel (Table 3.3, R70). -/
structure Posted where
  /-- 1 + the write; 03 R70 -/
  busy : Option Post := none
  /-- 16; 03 R70 -/
  lostwr : BitVec 16 := 0
  /-- 1; 03 R72 -/
  failed : Bool := false
deriving DecidableEq, Repr

/-- Posted right after reset. -/
def Posted.reset : Posted := {}

/-- The three copies of one RWV register (R76). -/
structure Vote where
  /-- 32; 03 R76 -/
  a : BitVec 32 := 0
  /-- 32; 03 R76 -/
  b : BitVec 32 := 0
  /-- 32; 03 R76 -/
  c : BitVec 32 := 0
  /-- 1; 03 R77 -/
  atDefault : Bool := false
deriving DecidableEq, Repr

/-- Vote right after reset. -/
def Vote.reset : Vote := {}

/-- A mode transition in progress (R51). -/
structure Trans where
  /-- 4; 02 R51 -/
  dst : Mode := .stop
  /-- 8; 15 R407 -/
  cause : Nat := 0
  /-- 5; 04 R107 -/
  slot : Nat := 0
deriving DecidableEq, Repr

/-- Trans right after reset. -/
def Trans.reset : Trans := {}

/-- The SYS block and what R89 to R92 keep behind it. -/
structure Sys where
  /-- 1; 03 Table 3.10 -/
  marine : Bool := false
  /-- 64; 03 R89 -/
  uid : BitVec 64 := 0
  /-- 18; 03 Table 3.11 -/
  nodeId : BitVec 18 := 0
  /-- 6; 03 Table 3.11 -/
  slotNo : BitVec 6 := 0
  /-- 4; 03 Table 3.12 -/
  mode : Mode := .boot
  /-- 1 + target; 03 Table 3.12 -/
  trans : Option Trans := none
  /-- 1; 03 Table 3.12 -/
  primary : Bool := false
  /-- 1; 03 Table 3.12 -/
  lone : Bool := false
  /-- 4; 03 Table 3.12 -/
  from_ : Mode := .retain
  /-- 8; 03 Table 3.14 -/
  haltCause : BitVec 8 := 0
  /-- 32; 03 R89 -/
  voteAddr : BitVec 32 := 0
  /-- 32; 03 R89 -/
  voteFix : BitVec 32 := 0
  /-- 32; 03 R89 -/
  voteFail : BitVec 32 := 0
  /-- 8; 03 Table 3.16 -/
  partial_ : BitVec 8 := 0
  /-- 8; 03 Table 3.16 -/
  unassigned : BitVec 8 := 0
  /-- 8; 03 Table 3.16 -/
  roWr : BitVec 8 := 0
  /-- 8; 03 Table 3.16 -/
  seqErr : BitVec 8 := 0
  /-- 32; 03 R89 -/
  accAddr : BitVec 32 := 0
  /-- 48 (ms) + fraction; 03 R89 -/
  opNs : Nat := 0
  /-- 32; 03 R89, 02 R37 -/
  pwrcyc : BitVec 32 := 0
  /-- 14; 03 R89 -/
  island : BitVec 14 := 0x3FFF
  /-- time; 03 R91 -/
  hlwFrom : Nat := 0
  /-- 1; 03 R91 -/
  hostLost : Bool := false
  /-- time of the first key word; 03 R92 -/
  restartKey : Option Nat := none
  /-- per cause: time of the last access-fault record; 03 R75 -/
  warned : Tab Nat := []
  /-- per cause: times of the instances since that record; 15 R407 -/
  further : Tab (List Nat) := []
  /-- groups in their safe state; 03 R78 -/
  parTrip : List Nat := []
  /-- RWK words whose parity bit is wrong; 03 R78 -/
  parityBad : List Nat := []
  /-- ring slots of abandoned mode commands; 02 R52 -/
  preempted : List Nat := []
deriving DecidableEq, Repr

/-- Sys right after reset. -/
def Sys.reset : Sys := {}

/-- The command a ring is executing (R117): fetched, not yet completed. -/
structure Infl where
  /-- 64 bytes + payload; 04 R117 -/
  cmd : Hcmd := Hcmd.reset
  /-- 16; 04 Table 4.6 -/
  status : BitVec 16 := 0
  /-- 32; 04 Table 4.5 -/
  reason : BitVec 32 := 0
  /-- 64: the HOSTWORK record awaiting its ACK; 04 R113 -/
  ackRseq : Option (BitVec 64) := none
  /-- 1: step 3 of R112 is done; 04 R112 -/
  recorded : Bool := false
  /-- 1; 04 Table 4.5 -/
  mirrored : Bool := false
  /-- 64; 04 Table 4.5 -/
  jseq : BitVec 64 := 0
  /-- 64; 04 R115 -/
  h : BitVec 64 := 0
  /-- what the command waits for (a cycle number, a count); 04 R112 -/
  aux : Nat := 0
  /-- records of a LOOP_READ already taken, by element; 07 R211 -/
  got : Tab (List Byte) := []
deriving DecidableEq, Repr

/-- Infl right after reset. -/
def Infl.reset : Infl := {}

/-- One admin or command ring pair (Tables 4.2, 4.3, 4.12). -/
structure Ring where
  /-- 1; 04 Table 4.12 -/
  live : Bool := false
  /-- 1; 04 R100 -/
  halted : Bool := false
  /-- 64; 04 R96 -/
  sqBase : BitVec 64 := 0
  /-- 64; 04 R96 -/
  cqBase : BitVec 64 := 0
  /-- 5; 04 R96 -/
  sqK : Nat := 0
  /-- 5; 04 R96 -/
  cqK : Nat := 0
  /-- 6; 04 Table 4.8 -/
  vector : Nat := 0
  /-- 16; 04 Table 4.8 -/
  coalN : Nat := 0
  /-- 16; 04 Table 4.8 -/
  coalT : Nat := 0
  /-- 16; 04 R98 -/
  tail : Nat := 0
  /-- 16; 04 R98 -/
  headDb : Nat := 0
  /-- 32: the submission doorbell as last written; 04 R98 -/
  sqDb : BitVec 32 := 0
  /-- 32: the completion doorbell as last written; 04 R98 -/
  cqDb : BitVec 32 := 0
  /-- 16; 04 Table 4.12 -/
  sqHead : Nat := 0
  /-- 16; 04 Table 4.12 -/
  cqTail : Nat := 0
  /-- 1; 04 R105 -/
  phase : Bool := true
  /-- 16; 04 Table 4.8 -/
  uncounted : Nat := 0
  /-- one command; 04 R117 -/
  infl : Option Infl := none
  /-- 1; 04 R110 -/
  deleting : Bool := false
  /-- 1: the completion ring of the pair has halted; 04 R100 -/
  cqHalt : Bool := false
deriving DecidableEq, Repr

/-- Ring right after reset. -/
def Ring.reset : Ring := {}

/-- The duplicate-suppression window of one ring (R115). -/
structure Win where
  /-- 64; 04 R115 -/
  high : BitVec 64 := 0
  /-- 65,536 x 64; 04 R115 -/
  ids : List (BitVec 64) := []
deriving DecidableEq, Repr

/-- Win right after reset. -/
def Win.reset : Win := {}

/-- The event ring (R110, R121). -/
structure EvRing where
  /-- 1; 04 Table 4.3 -/
  live : Bool := false
  /-- 1; 04 R100 -/
  halted : Bool := false
  /-- 64; 04 R110 -/
  base : BitVec 64 := 0
  /-- 5; 04 R110 -/
  k : Nat := 0
  /-- 6; 04 R110 -/
  vector : Nat := 0
  /-- 3; 04 R110 -/
  minSev : Nat := 0
  /-- 16; 04 R98 -/
  headDb : Nat := 0
  /-- 32: the completion doorbell as last written; 04 R98 -/
  cqDb : BitVec 32 := 0
  /-- 16; 04 Table 4.12 -/
  tail : Nat := 0
  /-- 1; 04 Table 4.10 -/
  phase : Bool := true
deriving DecidableEq, Repr

/-- EvRing right after reset. -/
def EvRing.reset : EvRing := {}

/-- One press-journal record (R112, R114). -/
structure JRec where
  /-- 5; 04 R112 -/
  slot : Nat := 0
  /-- 8; 04 R112 -/
  opcode : BitVec 8 := 0
  /-- 64; 04 R112 -/
  reqId : BitVec 64 := 0
  /-- 64; 04 Table 4.5 -/
  jseq : BitVec 64 := 0
  /-- 16; 04 R112 -/
  status : BitVec 16 := 0
  /-- 16; 04 R112 -/
  target : BitVec 16 := 0
  /-- 32; 04 R112 -/
  param0 : BitVec 32 := 0
  /-- DLEN bytes; 04 R112 -/
  payload : List Byte := []
  /-- 1; 04 R112 -/
  noEffect : Bool := false
  /-- 1; 17 R450 -/
  pending : Bool := false
  /-- 1; 16 R436 -/
  sealed : Bool := true
  /-- 1; 09 R260 -/
  orphan : Bool := false
  /-- 1: its completion is written; 04 R114 -/
  done : Bool := false
  /-- 32: NEW_VER of a program change; 08 R219 -/
  newVer : BitVec 32 := 0
  /-- 64: cycle number of its exchange boundary; 08 R219 -/
  applyCyc : BitVec 64 := 0
deriving DecidableEq, Repr

/-- JRec right after reset. -/
def JRec.reset : JRec := {}

/-- The HIF block and the host work it holds (chapter 04). -/
structure Hif where
  /-- 1; 04 R97 -/
  ready : Bool := false
  /-- 1: configuration requests get retry status; 02 R58 -/
  crs : Bool := true
  /-- 4; 04 Table 4.12 -/
  speed : BitVec 4 := 0
  /-- 5; 04 Table 4.12 -/
  width : BitVec 5 := 0
  /-- 1; 04 Table 4.12 -/
  l1 : Bool := false
  /-- 1; 04 Table 4.12 -/
  adminLive : Bool := false
  /-- 17 slots; 04 Table 4.3 -/
  rings : Tab Ring := []
  /-- 17 windows; 04 R115 -/
  wins : Tab Win := []
  /-- 1 slot; 04 Table 4.3 -/
  ev : EvRing := EvRing.reset
  /-- 32; 04 Table 4.12 -/
  errInfo : BitVec 32 := 0
  /-- 32; 04 Table 4.12 -/
  dmaErr : BitVec 32 := 0
  /-- 32; 04 Table 4.12 -/
  dupCnt : BitVec 32 := 0
  /-- 32; 04 Table 4.12 -/
  staleCnt : BitVec 32 := 0
  /-- 32; 04 Table 4.12 -/
  evtLost : BitVec 32 := 0
  /-- 64; 04 R121 -/
  evSeq : BitVec 64 := 0
  /-- 1; 04 R121 -/
  evLoss : Bool := false
  /-- 4 MiB; 04 R114 -/
  journal : List JRec := []
  /-- 64; 04 Table 4.5 -/
  jseq : BitVec 64 := 0
  /-- class N window entries not yet sent (R112); 04 R112 -/
  nWin : List Hcmd := []
  /-- 64 mask bits; 04 R120 -/
  msixMask : List Nat := List.range 64
  /-- 64 pending bits; 04 R120 -/
  msixPend : List Nat := []
  /-- 1: J and S fetch held; 09 R248, R266 -/
  hold : Bool := false
  /-- completions that wait until their pair is created again, each with NOINT; 04 R100 -/
  heldCq : List (Bool × Cqe) := []
  /-- commands of deleted rings whose record still awaits its acknowledgement; 04 R95 -/
  lost : List Infl := []
deriving DecidableEq, Repr

/-- Hif right after reset. -/
def Hif.reset : Hif := {}

/-- One element of VAR_READ, VAR_WRITE, FORCE_SET or FORCE_CLEAR (Table 5.6). -/
structure Elem where
  /-- 32; 05 Table 5.6 -/
  handle : BitVec 32 := 0
  /-- 16; 05 Table 5.6 -/
  off : Nat := 0
  /-- 16; 05 Table 5.6 -/
  len : Nat := 0
  /-- LEN bytes; 05 Table 5.6 -/
  val : List Byte := []
deriving DecidableEq, Repr

/-- Elem right after reset. -/
def Elem.reset : Elem := {}

/-- One task class (chapter 05). -/
structure Cls where
  /-- nominal boundary of the late cycle; 05 R135 -/
  lateNs : Nat := 0
  /-- stations with CHANGED at this latch; 05 Table 5.3 -/
  etArg : Nat := 0
  /-- 1; 05 Table 5.12 -/
  active : Bool := false
  /-- 1; 05 Table 5.12 -/
  late : Bool := false
  /-- 1; 05 Table 5.12 -/
  overSoft : Bool := false
  /-- 1; 05 Table 5.12 -/
  held : Bool := false
  /-- 1; 05 Table 5.12 -/
  first : Bool := false
  /-- 1: the next executed cycle is a first scan; 05 R141 -/
  firstDue : Bool := false
  /-- 1: changed-scan flag; 08 R225 -/
  changed : Bool := false
  /-- 1: the next executed cycle is an exchange cycle; 08 R225 -/
  changedDue : Bool := false
  /-- 1: boundaries start cycles; 05 R135, R142 -/
  running : Bool := false
  /-- 1: body ended, the aligned index write is due; 09 R250 -/
  bodyDone : Bool := false
  /-- 1; 05 R128 -/
  preempted : Bool := false
  /-- 64; 05 Table 5.10 -/
  cycno : BitVec 64 := 0
  /-- 64: number of the active cycle; 05 R130 -/
  cur : BitVec 64 := 0
  /-- nominal boundary of the active cycle; 05 R134 -/
  startNs : Nat := 0
  /-- 32; 05 Table 5.10 -/
  exec : BitVec 32 := 0
  /-- 32; 05 Table 5.10 -/
  execMax : BitVec 32 := 0
  /-- 32; 05 Table 5.10 -/
  ovrCnt : BitVec 32 := 0
  /-- 32; 05 Table 5.10 -/
  lateCnt : BitVec 32 := 0
  /-- 32; 05 Table 5.10 -/
  skipCnt : BitVec 32 := 0
  /-- 8; 05 Table 5.10 -/
  etOver : BitVec 8 := 0
  /-- 8; 05 Table 5.10 -/
  etStn : BitVec 8 := 0
  /-- 8; 05 Table 5.10 -/
  etTake : BitVec 8 := 0
  /-- 8; 05 Table 5.10 -/
  etSkip : BitVec 8 := 0
  /-- 64; 05 R135 -/
  latePend : Option (BitVec 64) := none
  /-- count; 05 R135 -/
  dropped : Nat := 0
  /-- count; 05 Table 5.3 -/
  droppedArg : Nat := 0
  /-- 1: this cycle passed its soft budget; 05 R136 -/
  cycOver : Bool := false
  /-- 1: the previous executed cycle kept its soft budget; 05 R136 -/
  prevIn : Bool := true
  /-- µs; 05 Table 5.3 -/
  overArg : Nat := 0
  /-- 1; 05 R139 -/
  dueOver : Bool := false
  /-- the new epoch; 05 Table 5.3 -/
  dueTake : Option (BitVec 32) := none
  /-- 1; 05 R139 -/
  dueSkip : Bool := false
  /-- error tasks called in this cycle with their arguments; 05 R139 -/
  calls : List (Nat × Nat) := []
  /-- 1: a boundary found the cycle active in this 2 ns step; 05 R134 -/
  undecided : Bool := false
deriving DecidableEq, Repr

/-- Cls right after reset. -/
def Cls.reset : Cls := {}

/-- The memories of one task class (R18, R132). -/
structure ClsMem where
  /-- 2 MiB per pair; 01 R18 -/
  inImg : Mem := []
  /-- output working buffer; 05 R132 -/
  work : Mem := []
  /-- published buffer 0; 01 R19 -/
  pub0 : Mem := []
  /-- published buffer 1; 01 R19 -/
  pub1 : Mem := []
  /-- 1: published-buffer index; 01 R19 -/
  idx : Bool := false
  /-- variables and instance data; 05 R141 -/
  data : Mem := []
  /-- own working copy of its globals; 05 R133 -/
  glob : Mem := []
  /-- published globals; 01 R22 -/
  globPub : Mem := []
  /-- other classes' globals as latched; 01 R22 -/
  globIn : Tab Mem := []
  /-- station status words, by station index; 05 R133 -/
  words : Tab (BitVec 32) := []
  /-- subscription status words; 10 R291 -/
  subWords : Tab (BitVec 32) := []
  /-- 256 KiB; 05 R146 -/
  pendWr : List Elem := []
  /-- commits since the class started to run; 05 R43 -/
  commits : Nat := 0
  /-- commits since the start; 01 R20 -/
  commitNo : Nat := 0
  /-- 1: outputs keep the values of the previous mode until the first commit; 02 R43 -/
  preRun : Bool := false
  /-- lines changed since the last commit: area and line; 09 Table 9.2 -/
  dirty : List (Nat × Nat) := []
  /-- class state when the active cycle started: that of its last commit; 09 R244 -/
  comData : Mem := []
  /-- 64: cycle number of the last commit; 09 R236 -/
  lastNo : BitVec 64 := 0
  /-- 32: local short time of the last index write; 09 R244 -/
  commitT : BitVec 32 := 0
deriving DecidableEq, Repr

/-- ClsMem right after reset. -/
def ClsMem.reset : ClsMem := {}

/-- One forced element (R147). -/
structure Force where
  /-- 3; 05 R147 -/
  cls : Nat := 0
  /-- as Table 5.6; 05 R147 -/
  elem : Elem := Elem.reset
  /-- 1; 05 R147 -/
  output : Bool := false
deriving DecidableEq, Repr

/-- Force right after reset. -/
def Force.reset : Force := {}

/-- The CYC block (Table 5.10). -/
structure Cyc where
  /-- 8 classes; 05 R127 -/
  cls : Tab Cls := []
  /-- 8 classes; 05 R132 -/
  mem : Tab ClsMem := []
  /-- 4 x 16; 05 Table 5.10 -/
  load : Tab (BitVec 16) := []
  /-- 4 x 16; 05 Table 5.10 -/
  loadMax : Tab (BitVec 16) := []
  /-- 4,096; 05 R147 -/
  forces : List Force := []
  /-- memory that other engines read; 06 R162 -/
  shared : Mem := []
deriving DecidableEq, Repr

/-- Cyc right after reset. -/
def Cyc.reset : Cyc := {}

/-- One darn-log entry: the old contents of a 64-byte line (R164). -/
structure LogEnt where
  /-- 3; 06 R164 -/
  cls : Nat := 0
  /-- 0 data, 1 working buffer, 2 working copy of its globals; 06 R162 -/
  area : Nat := 0
  /-- address; 06 R164 -/
  line : Nat := 0
  /-- 64 bytes; 06 R164 -/
  old : List Byte := []
deriving DecidableEq, Repr

/-- LogEnt right after reset. -/
def LogEnt.reset : LogEnt := {}

/-- One AP pair (Tables 6.5 to 6.8). -/
structure Pair where
  /-- 1; 06 Table 6.7 -/
  failed : Bool := false
  /-- 1; 06 Table 6.7 -/
  broken : Bool := false
  /-- 1; 06 Table 6.7 -/
  restoring : Bool := false
  /-- 1; 06 Table 6.7 -/
  reexec : Bool := false
  /-- 1; 06 Table 6.7 -/
  idle : Bool := true
  /-- 3; 06 Table 6.7 -/
  cls : Nat := 0
  /-- 1: a task-start checkpoint is being taken; 06 R158 -/
  starting : Bool := false
  /-- 7 resume checkpoints; 06 R160 -/
  resume : List (Nat × BitVec 32) := []
  /-- 32; 06 R157 -/
  ckseq : BitVec 32 := 0
  /-- 32: last sealed sequence; 06 R157 -/
  seqNext : BitVec 32 := 0
  /-- 32; 06 Table 6.5 -/
  darnCnt : BitVec 32 := 0
  /-- darns of the last 3,600 s; 06 Table 6.5 -/
  darnTimes : List Nat := []
  /-- 32; 06 Table 6.5 -/
  ckptCnt : BitVec 32 := 0
  /-- 16; 06 Table 6.5 -/
  earlyLog : BitVec 16 := 0
  /-- 16; 06 Table 6.5 -/
  earlyDef : BitVec 16 := 0
  /-- 13; 06 Table 6.5 -/
  fillLog : Nat := 0
  /-- 11; 06 Table 6.5 -/
  fillDef : Nat := 0
  /-- 4; 06 Table 6.8 -/
  mmPoint : BitVec 4 := 0
  /-- 3; 06 Table 6.8 -/
  mmClass : BitVec 3 := 0
  /-- 1; 06 Table 6.8 -/
  mmIdle : Bool := false
  /-- 1; 06 Table 6.8 -/
  mmSecond : Bool := false
  /-- 16; 06 Table 6.8 -/
  mmCkseq : BitVec 16 := 0
  /-- 32; 06 Table 6.5 -/
  mmTime : BitVec 32 := 0
  /-- 32; 06 Table 6.5 -/
  restMax : BitVec 32 := 0
  /-- 4,096; 06 R164 -/
  log : List LogEnt := []
  /-- 1,024; 06 R162 -/
  defer : List DefSt := []
  /-- 1; 06 R154 -/
  fence : Bool := false
  /-- 1: a mismatch since the last seal or task start; 06 R169 -/
  mism : Bool := false
  /-- 1; 06 Table 6.5 -/
  halted : Bool := false
  /-- 1; 06 Table 6.5 -/
  bpHit : Bool := false
  /-- 2; 06 Table 6.5 -/
  bpNo : BitVec 2 := 0
  /-- 1; 06 Table 6.5 -/
  stepped : Bool := false
  /-- 1: a checkpoint of the running class is being taken; 06 R158 -/
  taking : Bool := false
  /-- start of the running stretch, local ns; 05 Table 5.10 -/
  busyFrom : Option Nat := none
  /-- running stretches of the last second, local ns; 05 Table 5.10 -/
  busy : List (Nat × Nat) := []
  /-- 16; 06 Table 6.5 -/
  dbgDropped : BitVec 16 := 0
  /-- 32; 06 Table 6.5 -/
  pc : BitVec 32 := 0
  /-- private stores held until the seal of an early checkpoint; 06 R165 -/
  heldP : List PStore := []
  /-- deferred stores held until the seal of an early checkpoint; 06 R165 -/
  heldD : List DefSt := []
deriving DecidableEq, Repr

/-- Pair right after reset. -/
def Pair.reset : Pair := {}

/-- The operating group of a loop (R208): staging or live. -/
structure OpGrp where
  /-- 32; 07 Table 7.14 -/
  sp : BitVec 32 := 0
  /-- 32; 07 Table 7.14 -/
  mout : BitVec 32 := 0
  /-- 32; 07 Table 7.14 -/
  safe : BitVec 32 := 0
  /-- 32; 07 Table 7.14 -/
  sattime : BitVec 32 := 0
  /-- 32; 07 Table 7.14 -/
  frztime : BitVec 32 := 0
  /-- 32; 07 Table 7.14 -/
  action : BitVec 32 := 0
deriving DecidableEq, Repr

/-- OpGrp right after reset. -/
def OpGrp.reset : OpGrp := {}

/-- One loop slot (chapter 07). -/
structure Loop where
  /-- 1; 07 Table 7.16 -/
  run : Bool := false
  /-- 1; 07 Table 7.16 -/
  man : Bool := false
  /-- 1; 07 Table 7.16 -/
  fbl : Bool := false
  /-- 3; 07 Table 7.16 -/
  fblCause : BitVec 3 := 0
  /-- 1; 07 Table 7.16 -/
  sat : Bool := false
  /-- 1; 07 Table 7.16 -/
  satHi : Bool := false
  /-- 1; 07 Table 7.16 -/
  chkHold : Bool := false
  /-- 1; 07 Table 7.16 -/
  abank : Bool := false
  /-- 1; 07 Table 7.16 -/
  rearmPend : Bool := false
  /-- 1: a re-arm is taken in this sample; 07 R199 -/
  nowRearm : Bool := false
  /-- 1: a return to auto is taken in this sample; 07 R199 -/
  nowAuto : Bool := false
  /-- 1: manual was taken in this sample; 07 R199 -/
  nowMan : Bool := false
  /-- 1; 07 R199 -/
  manReq : Bool := false
  /-- 1; 07 R199 -/
  autoReq : Bool := false
  /-- 1: mode before the loss; 07 R199 -/
  manBefore : Bool := false
  /-- 6 x 32; 07 R208 -/
  stg : OpGrp := OpGrp.reset
  /-- 6 x 32; 07 R208 -/
  op : OpGrp := OpGrp.reset
  /-- 32; 07 Table 7.14 -/
  opPress : Press := Press.reset
  /-- 32; 07 Table 7.14 -/
  bkPress : Press := Press.reset
  /-- 128 x 32; 07 R181 -/
  bank0 : Tab (BitVec 32) := []
  /-- 128 x 32; 07 R181 -/
  bank1 : Tab (BitVec 32) := []
  /-- 32 x 32 dynamic state words; 07 Table 7.2 -/
  dyn : Tab (BitVec 32) := []
  /-- 8 x 32 sampled inputs; 07 R187 -/
  ins : Tab (BitVec 32) := []
  /-- 1: valid status of the feedback; 07 R196 -/
  fbOk : Bool := false
  /-- 32 output latch; 07 R188 -/
  latch : BitVec 32 := 0
  /-- 32 latch of the odd engine; 07 R201 -/
  latchB : BitVec 32 := 0
  /-- 32; 07 Table 7.14 -/
  out : BitVec 32 := 0
  /-- 32; 07 Table 7.14 -/
  fb : BitVec 32 := 0
  /-- 32; 07 R197 -/
  prevFb : Option (BitVec 32) := none
  /-- count; 07 R197 -/
  frzN : Nat := 0
  /-- count; 07 R195 -/
  satN : Nat := 0
  /-- time of the last SAT_EV record; 07 R195 -/
  satEv : Option Nat := none
  /-- 8; 07 Table 7.14 -/
  cntSat : BitVec 8 := 0
  /-- 8; 07 Table 7.14 -/
  cntFbl : BitVec 8 := 0
  /-- 8; 07 Table 7.14 -/
  cntChk : BitVec 8 := 0
  /-- 8; 07 Table 7.14 -/
  cntRef : BitVec 8 := 0
  /-- 128 x 32 words in use; 07 Table 7.14 -/
  acoef : Tab (BitVec 32) := []
  /-- 4; 07 Table 7.14 -/
  schPt : BitVec 4 := 0
  /-- 16; 07 Table 7.14 -/
  schF : BitVec 16 := 0
  /-- 32; 07 Table 7.12 -/
  creaseT : BitVec 32 := 0
  /-- 32; 09 Table 9.14 -/
  presses : BitVec 32 := 0
  /-- 1: R207 takes place at the next step; 07 R207 -/
  bumpDue : Bool := false
  /-- 32; 07 R207 -/
  uref : BitVec 32 := 0
  /-- 32 manual output as a request of AUTO finds it; 07 R207 -/
  autoRef : BitVec 32 := 0
  /-- 32 output written at the last crease before the loss; 07 R198 -/
  lossOut : BitVec 32 := 0
  /-- 1: a loss detected at this sample, shown at the crease; 07 R198 -/
  newLoss : Bool := false
  /-- 1: a step ran for this sample; 07 R191 -/
  stepped : Bool := false
  /-- 1: enabled for commissioning; 02 Table 2.2 -/
  commEn : Bool := false
  /-- sample number; 10 R289 -/
  sample : Nat := 0
  /-- 32: FREEZE_TIME before a press of this sample; 07 R200 -/
  frzOld : BitVec 32 := 0
  /-- per input slot: the conversion of this sample and its validity; 07 R187 -/
  conv : Tab (BitVec 32 × Bool) := []
  /-- 32: feedback at the last crease; 07 R189 -/
  fbCrease : BitVec 32 := 0
  /-- 32: CLE_LOOP_STAT at the last crease; 07 R189 -/
  statCrease : BitVec 32 := 0
  /-- 32: f of the last sample, before its truncation; 07 R193 -/
  schFrac : BitVec 32 := 0
deriving DecidableEq, Repr

/-- Loop right after reset. -/
def Loop.reset : Loop := {}

/-- One frame-table entry (Table 7.6). -/
structure FrEnt where
  /-- 12; 07 Table 7.6 -/
  slot : Nat := 0
  /-- 24; 07 Table 7.6 -/
  start : Nat := 0
  /-- 1; 07 Table 7.6 -/
  last : Bool := false
  /-- 16; 07 Table 7.6 -/
  cost : Nat := 0
deriving DecidableEq, Repr

/-- FrEnt right after reset. -/
def FrEnt.reset : FrEnt := {}

/-- One loop engine. -/
structure Eng where
  /-- 1; 07 Table 7.14 -/
  runs : Bool := false
  /-- 32; 07 Table 7.14 -/
  slack : BitVec 32 := 0xFFFFFFFF
  /-- 32; 07 Table 7.14 -/
  nanin : BitVec 32 := 0
  /-- 65,536 entries; 07 R190 -/
  frame : List FrEnt := []
  /-- minor frame in progress, by its number in the major frame; 07 R191 -/
  pos : Nat := 0
  /-- end of the previous step, from the minor-frame start, in 1/6 ns; 07 R191 -/
  endNs : Nat := 0
  /-- entries left in this minor frame; 07 R191 -/
  todo : List FrEnt := []
deriving DecidableEq, Repr

/-- Eng right after reset. -/
def Eng.reset : Eng := {}

/-- The CLE block (Table 7.14). -/
structure Cle where
  /-- 4,096 slots; 07 R178 -/
  loops : Tab Loop := []
  /-- 4 engines; 07 R178 -/
  eng : Tab Eng := []
  /-- 1; 07 Table 7.14 -/
  chk0 : Bool := false
  /-- 1; 07 Table 7.14 -/
  chk1 : Bool := false
  /-- 32; 07 Table 7.14 -/
  mm0 : BitVec 32 := 0
  /-- 32; 07 Table 7.14 -/
  mm1 : BitVec 32 := 0
  /-- 1: loops wait for the first commit of the fastest class; 02 R43, 07 R203 -/
  waitCommit : Bool := false
deriving DecidableEq, Repr

/-- Cle right after reset. -/
def Cle.reset : Cle := {}

/-- One map run (Table 8.5). -/
structure MapRun where
  /-- 32; 08 Table 8.5 -/
  src : Nat := 0
  /-- 32; 08 Table 8.5 -/
  dst : Nat := 0
  /-- 32; 08 Table 8.5 -/
  len : Nat := 0
  /-- 8; 08 Table 8.6 -/
  rule : Nat := 0
  /-- 3; 08 Table 8.5 -/
  cls : Nat := 0
deriving DecidableEq, Repr

/-- MapRun right after reset. -/
def MapRun.reset : MapRun := {}

/-- The program store and the online change in progress (chapter 08). -/
structure Change where
  /-- 32; 08 Table 8.9 -/
  actVer : BitVec 32 := 0
  /-- 32; 08 Table 8.9 -/
  prevVer : BitVec 32 := 0
  /-- 32 bytes; 08 Table 8.9 -/
  actDig : List Byte := []
  /-- 32 bytes; 08 R217 -/
  prevDig : List Byte := []
  /-- 32: higher of the two after a RETURN; 08 R230 -/
  high : BitVec 32 := 0
  /-- 16 MiB; 08 R217 -/
  active : List Byte := []
  /-- 16 MiB; 08 R217 -/
  previous : List Byte := []
  /-- 16 MiB incoming package; 08 R217 -/
  package : List Byte := []
  /-- both maps of the active program; 08 R217 -/
  actMaps : List Byte := []
  /-- both maps of the previous program; 08 R217 -/
  prevMaps : List Byte := []
  /-- 3; 08 Table 8.9 -/
  state : BitVec 3 := 0
  /-- 2; 08 Table 8.9 -/
  moves : Nat := 0
  /-- 64; 08 Table 8.9 -/
  xcyc : BitVec 64 := 0
  /-- exchange instant; 08 R220 -/
  xNs : Nat := 0
  /-- 1; 08 R214 -/
  isReturn : Bool := false
  /-- 5: the command's ring; 08 R219 -/
  slot : Nat := 0
  /-- 8; 08 Table 8.3 -/
  classes : BitVec 8 := 0
  /-- 32; 08 Table 8.3 -/
  newVer : BitVec 32 := 0
  /-- 32 bytes; 08 Table 8.3 -/
  newDig : List Byte := []
  /-- 1: own package written; 08 R219 -/
  stored : Bool := false
  /-- 1: standby ready; 08 R219 -/
  peerReady : Bool := false
  /-- 1; 08 R219 -/
  recorded : Bool := false
  /-- changed classes yet to commit; 08 R219 -/
  awaitCls : List Nat := []
  /-- 64: RSEQ of the last IMAGE part; 09 Table 9.18 -/
  pkgRseq : BitVec 64 := 0
  /-- 1: the instant has passed on the standby, no record of the new version has arrived; 08 R226, R227 -/
  xDue : Bool := false
  /-- 1: the package stands whole in slot memory; 08 R227 -/
  pkgDone : Bool := false
  /-- the recorded command, on the standby of its module; 08 R227 -/
  cmd : Option Hcmd := none
deriving DecidableEq, Repr

/-- Change right after reset. -/
def Change.reset : Change := {}

/-- The DPX block and the baste link (chapter 09). -/
structure Dpx where
  /-- 4: rings on which a beacon arrived in this slot; 09 R252 -/
  slotHeard : BitVec 4 := 0
  /-- 3; 09 Table 9.9 -/
  state : SyncState := .lone
  /-- 1; 09 Table 9.9 -/
  handover : Bool := false
  /-- 1; 09 Table 9.9 -/
  proofFail : Bool := false
  /-- 1; 09 Table 9.9 -/
  partnerPf : Bool := false
  /-- 1; 09 Table 9.9 -/
  ringAbsent : Bool := false
  /-- 4; 09 Table 9.9 -/
  reason : BitVec 4 := 0
  /-- 4; 09 Table 9.9 -/
  beaconHeard : BitVec 4 := 0
  /-- 32; 09 R258 -/
  eOwn : BitVec 32 := 0
  /-- 32; 09 R258 -/
  eSeen : BitVec 32 := 0
  /-- 4; 09 Table 9.8 -/
  partnerMode : BitVec 4 := 0
  /-- 1; 09 Table 9.8 -/
  partnerRole : Bool := false
  /-- 1: the partner's heartbeats arrive; 09 R261 -/
  partnerHb : Bool := false
  /-- 32: the partner's E_own; 09 Table 9.15 -/
  partnerE : BitVec 32 := 0
  /-- 1; 09 Table 9.8 -/
  up0 : Bool := false
  /-- 1; 09 Table 9.8 -/
  up1 : Bool := false
  /-- 8; 09 Table 9.8 -/
  miss0 : BitVec 8 := 0
  /-- 8; 09 Table 9.8 -/
  miss1 : BitVec 8 := 0
  /-- 16; 09 Table 9.8 -/
  crc0 : BitVec 16 := 0
  /-- 16; 09 Table 9.8 -/
  crc1 : BitVec 16 := 0
  /-- consecutive good heartbeats; 09 R237 -/
  good0 : Nat := 0
  /-- consecutive good heartbeats; 09 R237 -/
  good1 : Nat := 0
  /-- CRC errors of the last 1 ms; 09 R237 -/
  crcT0 : List Nat := []
  /-- CRC errors of the last 1 ms; 09 R237 -/
  crcT1 : List Nat := []
  /-- 64; 09 Table 9.13 -/
  hbCnt0 : BitVec 64 := 0
  /-- 64; 09 Table 9.13 -/
  hbCnt1 : BitVec 64 := 0
  /-- 32; 09 Table 9.15 -/
  prevTx0 : BitVec 32 := 0
  /-- 32; 09 Table 9.15 -/
  prevRx0 : BitVec 32 := 0
  /-- 32; 09 Table 9.15 -/
  prevTx1 : BitVec 32 := 0
  /-- 32; 09 Table 9.15 -/
  prevRx1 : BitVec 32 := 0
  /-- baste offset of lane 0; 09 R239 -/
  theta0 : Option Int := none
  /-- baste offset of lane 1; 09 R239 -/
  theta1 : Option Int := none
  /-- 32; 09 Table 9.8 -/
  hbLost : BitVec 32 := 0
  /-- 1: this module sends heartbeats; 09 R236 -/
  heartbeats : Bool := true
  /-- 64: count of the last heartbeat received on lane 0; 09 Table 9.13 -/
  hbRx0 : BitVec 64 := 0
  /-- 64: count of the last heartbeat received on lane 1; 09 Table 9.13 -/
  hbRx1 : BitVec 64 := 0
deriving DecidableEq, Repr

/-- Dpx right after reset. -/
def Dpx.reset : Dpx := {}

/-- The pair: counters, records, takeover and exchange (chapter 09). -/
structure Dpx2 where
  /-- 32; 09 Table 9.8 -/
  gapLast : BitVec 32 := 0
  /-- 32; 09 Table 9.8 -/
  gapMax : BitVec 32 := 0
  /-- 16; 09 Table 9.8 -/
  toDet : BitVec 16 := 0
  /-- 16; 09 Table 9.8 -/
  toCmd : BitVec 16 := 0
  /-- 16; 09 Table 9.8 -/
  mirKib : BitVec 16 := 0
  /-- 16; 09 Table 9.8 -/
  mirMax : BitVec 16 := 0
  /-- bytes; 14 bits of KiB; 09 Table 9.8 -/
  backlog : Nat := 0
  /-- 32; 09 Table 9.8 -/
  ackTo : BitVec 32 := 0
  /-- 16; 09 Table 9.8 -/
  syncDone : BitVec 16 := 0
  /-- 16; 09 Table 9.8 -/
  syncAband : BitVec 16 := 0
  /-- abandoned in a row; 09 Table 9.9 -/
  abandRow : Nat := 0
  /-- 12; 09 Table 9.8 -/
  syncMib : BitVec 12 := 0
  /-- 32; 09 Table 9.8 -/
  psNext : BitVec 32 := 0
  /-- 2; 09 Table 9.10 -/
  psResult : BitVec 2 := 0
  /-- 4; 09 Table 9.10 -/
  psCheck : BitVec 4 := 0
  /-- 4; 09 Table 9.10 -/
  psRing : BitVec 4 := 0
  /-- 16; 09 Table 9.10 -/
  psCnt : BitVec 16 := 0
  /-- time of the first key word; 09 R263 -/
  claimKey : Option Nat := none
  /-- 1: an exchange waits for its hand-over boundary; 09 R265 -/
  xPend : Bool := false
  /-- 64: RSEQ of the cut-in notice; 09 R248 -/
  cutRseq : BitVec 64 := 0
  /-- 4: rings reported absent; 09 R253 -/
  absRep : BitVec 4 := 0
  /-- 32; 09 Table 9.8 -/
  stepDown : BitVec 32 := 0
  /-- 64; 09 Table 9.13 -/
  rseqTx : BitVec 64 := 0
  /-- 64: last applied; 09 R238 -/
  rseqRx : BitVec 64 := 0
  /-- records after a gap; 09 R238 -/
  waitRec : List BRec := []
  /-- 32; 09 R256 -/
  lastCommitT : BitVec 32 := 0
  /-- 2: 1 detection, 2 exchange; 09 R46 -/
  takeFrom : BitVec 2 := 0
  /-- 64: hand-over boundary h; 09 R265 -/
  hBound : BitVec 64 := 0
  /-- 1; 09 R267 -/
  isProof : Bool := false
  /-- 5: ring of the ROLE_EXCHANGE; 09 R265 -/
  xslot : Nat := 0
  /-- 1: the proof window runs; 09 R268 -/
  proofWin : Bool := false
  /-- per ring: last hand-over on a report; 09 R253 -/
  absentT : Tab Nat := []
  /-- 1: a failure notice has arrived; 09 R252 -/
  failNote : Bool := false
  /-- per ring: consecutive empty beacon slots; 09 R252 -/
  absSlots : Tab Nat := []
  /-- content of the IMAGE parts received so far; 09 Table 9.14 -/
  imgBuf : List Byte := []
  /-- 8: its KIND; 09 Table 9.14 -/
  imgKind : Nat := 0
  /-- 32: its total length; 09 Table 9.14 -/
  imgLen : Nat := 0
  /-- last VERSIONS payload of the partner; 09 Table 9.14 -/
  vers : List Byte := []
  /-- 64: RSEQ of the last COMMIT_END of the fastest class; 09 R265 -/
  ceRseq : BitVec 64 := 0
  /-- 1: the last commit of the fastest class is acknowledged; 09 R265 -/
  ceAck : Bool := false
  /-- per ring: identifier of a mirrored record that is still PENDING; 17 R450 -/
  pendIds : Tab (BitVec 64) := []
  /-- number of the 1 ms window of full time being counted; 09 R245 -/
  mirWin : Nat := 0
  /-- bytes: changed data in that window; 09 R245 -/
  mirB : Nat := 0
  /-- mode that the standby follows, and the boundary of the fastest class; 02 R34 -/
  modeDue : Option (Mode × BitVec 64) := none
  /-- 4: rings reported absent that await a hand-over; 09 R253 -/
  absPend : BitVec 4 := 0
  /-- 1: the outcome of the partner's proof window is not known; 09 R268 -/
  psOpen : Bool := false
  /-- full-time seconds from which the proof-swap interval counts; 09 R267 -/
  psFrom : Option Nat := none
  /-- 64: RSEQ of the hand-over notice; 09 R265 -/
  hoRseq : BitVec 64 := 0
  /-- 1: the bulk of this initial sync has been sent; 09 R248 -/
  bulkSent : Bool := false
  /-- 1: the partner that the rings show is not the one configured; 09 R234 -/
  misnamed : Bool := false
  /-- ns: time of the last change of the backlog; 09 R245 -/
  blNs : Nat := 0
  /-- 64 each: RSEQ of host-work records of no ring command that await their acknowledgement; 09 R242 -/
  hwOut : List (BitVec 64) := []
  /-- payload of the parts of a host-work record received so far; 09 Table 9.13 -/
  hwBuf : List Byte := []
  /-- 1: more parts of the window being received follow; 09 Table 9.13 -/
  winOpen : Bool := false
deriving DecidableEq, Repr

/-- Dpx2 right after reset. -/
def Dpx2.reset : Dpx2 := {}

/-- What a standby holds of one class: the received buffers (R244). -/
structure MirCls where
  /-- lines of the commit being received; 09 R244 -/
  inactive : List (Nat × List Byte) := []
  /-- class-state lines being received; 09 R244 -/
  inData : List (Nat × List Byte) := []
  /-- global lines being received; 09 R244 -/
  inGlob : List (Nat × List Byte) := []
  /-- the class as the partner of another configuration holds it; 17 R457 -/
  old : ClsMem := ClsMem.reset
  /-- host writes of the class that no mirrored commit holds yet, with their cycles; 09 R246 -/
  wr : List (BitVec 64 × Elem) := []
  /-- payloads under the end mark's CRC; 09 Table 9.17 -/
  crcBuf : List Byte := []
  /-- 32; 09 Table 9.17 -/
  lines : Nat := 0
  /-- 64: cycle of the last complete commit; 09 R244 -/
  cyc : BitVec 64 := 0
  /-- 32: program version of that commit; 09 R226 -/
  ver : BitVec 32 := 0
  /-- 1: the bulk of this initial sync has been received; 09 R248 -/
  bulk : Bool := false
deriving DecidableEq, Repr

/-- MirCls right after reset. -/
def MirCls.reset : MirCls := {}

/-- One station as the primary's module knows it (Table 10.8). -/
structure Stn where
  /-- commits of its class at its last launch; 01 R20 -/
  sentNo : Nat := 0
  /-- 1; 10 Table 10.8 -/
  failed : Bool := false
  /-- 1; 10 Table 10.8 -/
  rejoining : Bool := false
  /-- 1; 10 Table 10.8 -/
  paramPend : Bool := false
  /-- 8; 10 Table 10.8 -/
  last0 : BitVec 8 := 0
  /-- 8; 10 Table 10.8 -/
  missLatch : BitVec 8 := 0
  /-- 8; 10 Table 10.8 -/
  timesFailed : BitVec 8 := 0
  /-- 8; 10 Table 10.8 -/
  rejoins : BitVec 8 := 0
  /-- 8; 10 Table 10.8 -/
  single : BitVec 8 := 0
  /-- receive buffer, 1,400 bytes; 01 data flow -/
  rx : List Byte := []
  /-- echo, 1,400 bytes; 10 R281 -/
  echo : List Byte := []
  /-- 1: a valid INPUT since the previous latch; 05 R140 -/
  got : Bool := false
  /-- 1: one with PARAM_OK 1 and RESTARTED 0; 10 R287 -/
  gotOk : Bool := false
  /-- 32; 10 Table 10.9 -/
  paramId : BitVec 32 := 0
  /-- 1: a block acknowledged since marked; 10 R486 -/
  acked : Bool := false
  /-- 1: an INPUT in this start; 10 R285 -/
  everIn : Bool := false
  /-- 1; 10 R285 -/
  refused : Bool := false
  /-- latches whose echo differs; 09 Table 9.6 -/
  echoBad : Nat := 0
deriving DecidableEq, Repr

/-- Stn right after reset. -/
def Stn.reset : Stn := {}

/-- The elimination history of one stream (R278). -/
structure Strm where
  /-- 16; 10 R278 -/
  last : BitVec 16 := 0
  /-- 1: only one copy of the last frame so far; 10 R288 -/
  alone : Bool := false
  /-- 32 sequence numbers; 10 R278 -/
  seen : List (BitVec 16) := []
deriving DecidableEq, Repr

/-- Strm right after reset. -/
def Strm.reset : Strm := {}

/-- One I/O ring (Table 10.8). -/
structure NRing where
  /-- 1; 10 Table 10.8 -/
  opened : Bool := false
  /-- 1: a beacon from the east in this slot; 10 R279 -/
  curE : Bool := false
  /-- 1: a beacon from the west in this slot; 10 R279 -/
  curW : Bool := false
  /-- 1; 10 Table 10.8 -/
  east : Bool := false
  /-- 1; 10 Table 10.8 -/
  west : Bool := false
  /-- slots without a beacon from the east; 10 R279 -/
  missE : Nat := 0
  /-- slots without a beacon from the west; 10 R279 -/
  missW : Nat := 0
  /-- consecutive slots with both; 10 R279 -/
  both : Nat := 0
  /-- 32; 10 Table 10.8 -/
  elim : BitVec 32 := 0
  /-- 32; 10 Table 10.8 -/
  single : BitVec 32 := 0
  /-- 32; 10 Table 10.8 -/
  disc : BitVec 32 := 0
  /-- 32; 10 Table 10.8 -/
  late : BitVec 32 := 0
  /-- 32; 10 Table 10.8 -/
  openCnt : BitVec 32 := 0
deriving DecidableEq, Repr

/-- NRing right after reset. -/
def NRing.reset : NRing := {}

/-- One Ethernet port (Table 10.8). -/
structure Port where
  /-- 1; 10 Table 10.8 -/
  link : Bool := false
  /-- 1; 10 Table 10.8 -/
  held : Bool := false
  /-- 2; 10 Table 10.8 -/
  speed : BitVec 2 := 0
  /-- 1; 10 Table 10.8 -/
  full : Bool := false
  /-- 16; 10 Table 10.8 -/
  fcs : BitVec 16 := 0
  /-- diagnostic values of the transceiver (SFF-8472); 10 R275 -/
  diag : List Byte := []
deriving DecidableEq, Repr

/-- Port right after reset. -/
def Port.reset : Port := {}

/-- One subscription (R291). -/
structure Sub where
  /-- 1; 10 Table 10.8 -/
  failed : Bool := false
  /-- 32; 10 R291 -/
  epoch : BitVec 32 := 0
  /-- 8,192 bytes; 10 R290 -/
  data : List Byte := []
  /-- 1; 10 R291 -/
  got : Bool := false
  /-- 1; 05 Table 5.2 -/
  changed : Bool := false
deriving DecidableEq, Repr

/-- Sub right after reset. -/
def Sub.reset : Sub := {}

/-- The NET block (Table 10.8). -/
structure Net where
  /-- per publication: commits at its last launch; 10 R290 -/
  pubSent : Tab Nat := []
  /-- 7 ports; 10 Table 10.8 -/
  ports : Tab Port := []
  /-- 4 rings; 10 Table 10.8 -/
  rings : Tab NRing := []
  /-- 1,024 stations; 10 Table 10.8 -/
  stns : Tab Stn := []
  /-- one per stream; 10 R278 -/
  strms : Tab Strm := []
  /-- 256 subscriptions; 10 R290 -/
  subs : Tab Sub := []
  /-- 32; 10 Table 10.8 -/
  peerElim : BitVec 32 := 0
  /-- 32; 10 Table 10.8 -/
  peerDisc : BitVec 32 := 0
  /-- transmit sequence number per stream; 10 R278 -/
  tx : Tab (BitVec 16) := []
  /-- 1: NE0 has expired since it was loaded; 02 R29 -/
  ne0Bad : Bool := false
  /-- per station and period group: sample number, arrival in ns and values of the last LOOP_IN; 10 R289 -/
  loopIn : Tab (BitVec 16 × Nat × List Byte) := []
deriving DecidableEq, Repr

/-- Net right after reset. -/
def Net.reset : Net := {}

/-- One transmit timestamp (Table 11.5). -/
structure TsEnt where
  /-- 16; 11 Table 11.5 -/
  tag : BitVec 16 := 0
  /-- 2; 11 Table 11.5 -/
  frac : BitVec 2 := 0
  /-- 8; 11 Table 11.5 -/
  seclo : BitVec 8 := 0
  /-- 32; 11 Table 11.5 -/
  ns : BitVec 32 := 0
deriving DecidableEq, Repr

/-- TsEnt right after reset. -/
def TsEnt.reset : TsEnt := {}

/-- The time registers of one port (Table 11.6). -/
structure TPort where
  /-- 64 entries; 11 R313 -/
  queue : List TsEnt := []
  /-- 32; 11 Table 11.6 -/
  lost : BitVec 32 := 0
  /-- 32; 11 Table 11.6 -/
  late : BitVec 32 := 0
  /-- 32; 11 Table 11.6 -/
  pdelay : BitVec 32 := 0
deriving DecidableEq, Repr

/-- TPort right after reset. -/
def TPort.reset : TPort := {}

/-- One time domain (Table 11.6). -/
structure Dom where
  /-- 3; 11 Table 11.8 -/
  state : DomState := .off
  /-- 1; 11 Table 11.8 -/
  agree : Bool := false
  /-- 5; 11 Table 11.8 -/
  good : Nat := 0
  /-- 32, saturating; 11 Table 11.6 -/
  ofs : Int := 0
  /-- 32; 11 Table 11.6 -/
  ofsMax : Nat := 0
  /-- 64; 11 Table 11.6 -/
  gmid : BitVec 64 := 0
  /-- 32; 11 Table 11.6 -/
  meast : BitVec 32 := 0
  /-- 32; 11 Table 11.6 -/
  measS : BitVec 32 := 0
  /-- MEAST submitted in the last second; 11 R303 -/
  measts : List (BitVec 32) := []
  /-- 1: MEAST has been submitted; 11 R303 -/
  used : Bool := false
  /-- 16; 11 Table 11.6 -/
  acc : BitVec 16 := 0
  /-- 16; 11 Table 11.6 -/
  rej : BitVec 16 := 0
  /-- time of the previous measurement not refused; 11 R305 -/
  prevT : Option Nat := none
  /-- 4 measurements; 11 R307 -/
  last4 : List (Nat × Int) := []
  /-- time of the last measurement; 11 R310 -/
  lastAny : Option Nat := none
deriving DecidableEq, Repr

/-- Dom right after reset. -/
def Dom.reset : Dom := {}

/-- One capture input (Table 11.6). -/
structure Cap where
  /-- 32; 11 Table 11.6 -/
  ns : BitVec 32 := 0
  /-- 32; 11 Table 11.6 -/
  slo : BitVec 32 := 0
  /-- 2; 11 Table 11.6 -/
  frac : BitVec 2 := 0
  /-- 1; 11 Table 11.6 -/
  edge : Bool := false
  /-- 16; 11 Table 11.6 -/
  count : BitVec 16 := 0
  /-- 32; 11 Table 11.6 -/
  missed : BitVec 32 := 0
  /-- time of the last captured edge; 11 R318 -/
  last : Option Nat := none
deriving DecidableEq, Repr

/-- Cap right after reset. -/
def Cap.reset : Cap := {}

/-- A decided set of the local clock (R307, R309, R310). -/
structure TimSet where
  /-- domain: 0 A, 1 B, 2 baste; 11 R309 -/
  src : Nat := 0
  /-- offset in ns; 11 R307 -/
  ofs : Int := 0
  /-- frequency of the four measurements in the unit of f; none for a realign; 11 R307 -/
  slope : Option Int := none
deriving DecidableEq, Repr

/-- TimSet right after reset. -/
def TimSet.reset : TimSet := {}

/-- The TIM block (Table 11.6). -/
structure Tim where
  /-- 80: local full time in ns; 11 R295 -/
  ns : Nat := 0
  /-- fraction of the frequency adjustment; 11 R297 -/
  frac : Int := 0
  /-- 1; 11 Table 11.7 -/
  set : Bool := false
  /-- 1; 11 Table 11.7 -/
  sel : Bool := false
  /-- 1; 11 Table 11.7 -/
  holdover : Bool := false
  /-- 1; 11 Table 11.7 -/
  slewLim : Bool := false
  /-- 1; 11 Table 11.7 -/
  iClamp : Bool := false
  /-- I in 2⁻¹⁶ × 10⁻⁹ ppb; 11 R305 -/
  iTerm : Int := 0
  /-- f in the same unit; 11 R305 -/
  f : Int := 0
  /-- 32; 11 Table 11.6 -/
  stepCnt : BitVec 32 := 0
  /-- 32; 11 Table 11.6 -/
  swCnt : BitVec 32 := 0
  /-- 32; 11 Table 11.6 -/
  setCnt : BitVec 32 := 0
  /-- 2 domains; 11 Table 11.6 -/
  doms : Tab Dom := []
  /-- 7 ports; 11 Table 11.6 -/
  ports : Tab TPort := []
  /-- 2 inputs; 11 Table 11.6 -/
  caps : Tab Cap := []
  /-- time of the first key word; 11 R310 -/
  realignKey : Option Nat := none
  /-- the set or realign decided; 11 R309 -/
  pend : Option TimSet := none
  /-- 4 baste measurements; 11 R302 -/
  baste4 : List (Nat × Int) := []
  /-- lane and offset of the half of a pair of heartbeats; 09 R239 -/
  basteHeld : Option (Bool × Int) := none
  /-- time of the previous one; 11 R305 -/
  bastePrev : Option Nat := none
  /-- time of the last 0x0704 record; 11 R305 -/
  iClampT : Option Nat := none
  /-- preferred domain LOCKED and AGREE since; 11 R308 -/
  prefSince : Option Nat := none
  /-- 1: level of TOUT; 11 R319 -/
  tout : Bool := false
deriving DecidableEq, Repr

/-- Tim right after reset. -/
def Tim.reset : Tim := {}

/-- One CAN channel (Table 12.12). -/
structure Can where
  /-- 2; 12 Table 12.13 -/
  estate : BitVec 2 := 0
  /-- 1; 12 Table 12.13 -/
  txErr : Bool := false
  /-- 1; 12 Table 12.13 -/
  rx0Err : Bool := false
  /-- 1; 12 Table 12.13 -/
  rx1Err : Bool := false
  /-- 1; 12 Table 12.13 -/
  listen : Bool := false
  /-- 1; 12 Table 12.13 -/
  off : Bool := true
  /-- 1; 12 Table 12.13 -/
  txActive : Bool := false
  /-- 1; 12 Table 12.13 -/
  pex : Bool := false
  /-- 9; 12 Table 12.12 -/
  tec : Nat := 0
  /-- 8; 12 Table 12.12 -/
  recv : Nat := 0
  /-- 3; 12 Table 12.12 -/
  errN : BitVec 3 := 0
  /-- 3; 12 Table 12.12 -/
  errD : BitVec 3 := 0
  /-- 7; 12 Table 12.12 -/
  tdcv : BitVec 7 := 0
  /-- 7; 12 Table 12.12 -/
  ssp : BitVec 7 := 0
  /-- 32; 12 Table 12.12 -/
  rxCnt : BitVec 32 := 0
  /-- 32; 12 Table 12.12 -/
  txCnt : BitVec 32 := 0
  /-- 32; 12 Table 12.12 -/
  arbLost : BitVec 32 := 0
  /-- 8; 12 Table 12.12 -/
  eStuff : BitVec 8 := 0
  /-- 8; 12 Table 12.12 -/
  eForm : BitVec 8 := 0
  /-- 8; 12 Table 12.12 -/
  eCrc : BitVec 8 := 0
  /-- 8; 12 Table 12.12 -/
  eBit : BitVec 8 := 0
  /-- 8; 12 Table 12.12 -/
  eAck : BitVec 8 := 0
  /-- 8; 12 Table 12.12 -/
  ePass : BitVec 8 := 0
  /-- 8; 12 Table 12.12 -/
  eBus : BitVec 8 := 0
  /-- 8; 12 Table 12.12 -/
  ePex : BitVec 8 := 0
  /-- 16; 12 Table 12.12 -/
  dropFull : BitVec 16 := 0
  /-- 16; 12 Table 12.12 -/
  dropSize : BitVec 16 := 0
  /-- 16; 12 Table 12.12 -/
  cancelled : BitVec 16 := 0
  /-- 16; 12 Table 12.12 -/
  cancelLate : BitVec 16 := 0
deriving DecidableEq, Repr

/-- Can right after reset. -/
def Can.reset : Can := {}

/-- The transmit entry in progress (R333, R336). -/
structure CanCur where
  /-- the entry as fetched; 12 R333 -/
  ent : CanEnt := {}
  /-- attempts made; 12 R336 -/
  tries : Nat := 0
  /-- 1: an attempt lost arbitration; 12 Table 12.7 -/
  arb : Bool := false
  /-- 1: an attempt ended in error; 12 Table 12.7 -/
  err : Bool := false
  /-- 32: start of frame of the last attempt; 12 Table 12.7 -/
  sof : BitVec 32 := 0
deriving DecidableEq, Repr

/-- CanCur right after reset. -/
def CanCur.reset : CanCur := {}

/-- The queues of one CAN channel in the owner's memory (Tables 12.6, 12.7): 0 TXQ, 1 RXQ0, 2 RXQ1. -/
structure CanQ where
  /-- control block of each queue, 64 bytes; 12 Table 12.6 -/
  ctl : Tab Mem := []
  /-- entries of each queue; 12 R331 -/
  ent : Tab Mem := []
  /-- 16: SIDX as last read; 12 Table 12.12 -/
  sidxRd : BitVec 16 := 0
  /-- 16; 12 Table 12.6 -/
  cidx : BitVec 16 := 0
  /-- 16; 12 Table 12.6 -/
  w0 : BitVec 16 := 0
  /-- 16; 12 Table 12.6 -/
  w1 : BitVec 16 := 0
  /-- 8: RECOVER_SEQ as last read; 12 R339 -/
  recoverRd : BitVec 8 := 0
  /-- the entry in progress; 12 R333 -/
  cur : Option CanCur := none
deriving DecidableEq, Repr

/-- CanQ right after reset. -/
def CanQ.reset : CanQ := {}

/-- One DIO channel (Table 13.5). -/
structure Dio where
  /-- 1; 13 Table 13.5 -/
  state : Bool := false
  /-- 1; 13 Table 13.5 -/
  rb : Bool := false
  /-- 1; 13 Table 13.5 -/
  ovl : Bool := false
  /-- 1; 13 Table 13.5 -/
  shortSup : Bool := false
  /-- 1; 13 Table 13.5 -/
  therm : Bool := false
  /-- 1; 13 Table 13.5 -/
  latched : Bool := false
  /-- 1; 13 Table 13.5 -/
  rberr : Bool := false
  /-- 1; 13 Table 13.5 -/
  feedLost : Bool := false
  /-- 8; 13 Table 13.5 -/
  c : Nat := 0
  /-- 8; 13 Table 13.5 -/
  retries : Nat := 0
  /-- 1: the pin floats; 13 R347 -/
  tripped : Bool := false
  /-- 8; 13 Table 13.4 -/
  trips : BitVec 8 := 0
  /-- 8; 13 Table 13.4 -/
  latches : BitVec 8 := 0
  /-- 8; 13 Table 13.4 -/
  rbCnt : BitVec 8 := 0
  /-- 8; 13 Table 13.4 -/
  chg : BitVec 8 := 0
  /-- 1: a run of trips is on; 13 R347 -/
  runOn : Bool := false
  /-- time of the last retry; 13 R348 -/
  retryAt : Option Nat := none
deriving DecidableEq, Repr

/-- Dio right after reset. -/
def Dio.reset : Dio := {}

/-- One AIO channel (Table 13.6). -/
structure Aio where
  /-- 1; 13 Table 13.6 -/
  valid : Bool := false
  /-- 3; 13 Table 13.6 -/
  code : BitVec 3 := 0
  /-- 1; 13 Table 13.6 -/
  openW : Bool := false
  /-- 1; 13 Table 13.6 -/
  comply : Bool := false
  /-- 1; 13 Table 13.6 -/
  pwrLim : Bool := false
  /-- 1; 13 Table 13.6 -/
  failout : Bool := false
  /-- 1; 13 Table 13.6 -/
  trimActive : Bool := false
  /-- 1: an AO drives a trim point; its output is not the program's; 13 R360 -/
  driven : Bool := false
  /-- 1: an AO carries 0 mA, or the strap current in its place; 13 R355 -/
  zero : Bool := true
  /-- 11: E in 0.01 mJ; 13 Table 13.6 -/
  store : Nat := 0
  /-- 24; 13 Table 13.4 -/
  raw : BitVec 24 := 0
  /-- 32; 13 Table 13.4 -/
  value : BitVec 32 := 0
  /-- 3; 13 Table 13.4 -/
  step : BitVec 3 := 0
  /-- 4; 13 Table 13.4 -/
  why : BitVec 4 := 0
  /-- 8; 13 Table 13.4 -/
  cLow : BitVec 8 := 0
  /-- 8; 13 Table 13.4 -/
  cHigh : BitVec 8 := 0
  /-- 8; 13 Table 13.4 -/
  cPwr : BitVec 8 := 0
  /-- 8; 13 Table 13.4 -/
  cAo : BitVec 8 := 0
  /-- 8; 13 Table 13.4 -/
  devs : BitVec 8 := 0
  /-- 8; 13 Table 13.4 -/
  hRetries : BitVec 8 := 0
  /-- 8; 13 Table 13.4 -/
  hFailed : BitVec 8 := 0
  /-- captured M_LO; 13 R360 -/
  mLo : Option Int := none
  /-- captured R_LO; 13 R360 -/
  rLo : Int := 0
  /-- captured M_HI; 13 R360 -/
  mHi : Option Int := none
  /-- captured R_HI; 13 R360 -/
  rHi : Int := 0
  /-- user trim of the calibration store; 13 R361 -/
  cal : Option (Int × Int × Int × Int) := none
  /-- 1; 13 Table 13.2 -/
  chanFault : Bool := false
  /-- commanded current in 0.1 µA; 13 R353 -/
  cmd : Int := 0
  /-- last current written; 13 R355 -/
  lastI : Option Int := none
  /-- last 2^AVG conversions; 13 R352 -/
  avg : List Int := []
  /-- time of the last 0x0904 record; 13 R354 -/
  warnT : Option Nat := none
  /-- per device: failed polls in a row; 13 R363 -/
  absent : Tab Nat := []
  /-- per device: last answer; 13 R363 -/
  vals : Tab (List Byte) := []
  /-- per device: time of the last good answer; 13 R363 -/
  answered : Tab Nat := []
deriving DecidableEq, Repr

/-- Aio right after reset. -/
def Aio.reset : Aio := {}

/-- The HART transactions (R362 to R364). -/
structure Hart where
  /-- per channel: source and device of the transaction in progress; 13 R364 -/
  run : Tab (Nat × Nat) := []
  /-- per channel: next source in turn; 13 R364 -/
  next : Tab Nat := []
  /-- channel of the waiting host request; 13 R364 -/
  host : Option Nat := none
  /-- 2; 13 Table 13.4 -/
  hstat : BitVec 2 := 0
  /-- 8; 13 Table 13.4 -/
  bytes : BitVec 8 := 0
  /-- 8; 13 Table 13.4 -/
  why : BitVec 8 := 0
  /-- 8; 13 Table 13.4 -/
  lost : BitVec 8 := 0
  /-- per channel: the class's HART requests; 13 R364 -/
  clsQ : Tab (List (List Byte)) := []
  /-- per channel: responses to the class; 13 R364 -/
  clsR : Tab (List (List Byte)) := []
  /-- per channel: next device to poll; 13 R363 -/
  pollDev : Tab Nat := []
  /-- 272 bytes; 13 Table 13.4 -/
  rsp : List Byte := []
  /-- per channel: the last burst-mode message received; 13 R362 -/
  burst : Tab (List Byte) := []
  /-- channels whose poll is due; 13 R363 -/
  due : List Nat := []
deriving DecidableEq, Repr

/-- Hart right after reset. -/
def Hart.reset : Hart := {}

/-- The FIO block (Table 13.4). -/
structure Fio where
  /-- 1; 13 Table 13.4 -/
  run : Bool := false
  /-- 1; 13 Table 13.4 -/
  feed0 : Bool := false
  /-- 1; 13 Table 13.4 -/
  feed1 : Bool := false
  /-- 1; 13 Table 13.4 -/
  afeed : Bool := false
  /-- 1; 13 Table 13.4 -/
  strap0 : Bool := false
  /-- 1; 13 Table 13.4 -/
  strap1 : Bool := false
  /-- 32 channels; 13 R341 -/
  dio : Tab Dio := []
  /-- 16 channels; 13 R341 -/
  aio : Tab Aio := []
  /-- 16 modems; 13 R362 -/
  hart : Hart := Hart.reset
deriving DecidableEq, Repr

/-- Fio right after reset. -/
def Fio.reset : Fio := {}

/-- One channel of a safety input, as one part samples it (R372 to R375). -/
structure SiCh where
  /-- 1: the last unmasked sample; 14 R374 -/
  v : Bool := false
  /-- 1: filtered; 14 R372 -/
  filt : Bool := false
  /-- 4: samples of the new value; 14 R372 -/
  run : Nat := 0
  /-- 1: the last sample before the pulse in progress; 14 R375 -/
  pre : Bool := false
  /-- 1: low at the first sample of the pulse; 14 R375 -/
  low1 : Bool := false
  /-- 1: low at its second sample; 14 R375 -/
  low2 : Bool := false
  /-- own pulses not seen in a row; 14 R375 -/
  miss : Nat := 0
  /-- own pulses seen in a row; 14 Table 14.2 -/
  seen : Nat := 0
  /-- foreign pulses seen in a row; 14 R375 -/
  fors : Nat := 0
  /-- foreign pulses not seen in a row; 14 Table 14.2 -/
  noFor : Nat := 0
  /-- 1 PULSE_MISSING; 14 Table 14.7 -/
  pm : Bool := false
  /-- 1 CROSS_SHORT; 14 Table 14.7 -/
  cs : Bool := false
deriving DecidableEq, Repr

/-- SiCh right after reset. -/
def SiCh.reset : SiCh := {}

/-- One safety input, as one part samples it (Table 14.7). -/
structure Si where
  /-- channel a; 14 R371 -/
  a : SiCh := SiCh.reset
  /-- channel b; 14 R371 -/
  b : SiCh := SiCh.reset
  /-- 1; 14 Table 14.7 -/
  go : Bool := false
  /-- 15; 14 Table 14.7 -/
  disc : Nat := 0
  /-- 1: DISCREPANCY present; 14 R376 -/
  tripped : Bool := false
  /-- 1; 14 Table 14.7 -/
  agree : Bool := false
  /-- 8; 14 Table 14.7 -/
  cTrip : BitVec 8 := 0
  /-- 8; 14 Table 14.7 -/
  cPulse : BitVec 8 := 0
  /-- 8; 14 Table 14.7 -/
  cCross : BitVec 8 := 0
  /-- 8; 14 Table 14.7 -/
  cDemand : BitVec 8 := 0
deriving DecidableEq, Repr

/-- Si right after reset. -/
def Si.reset : Si := {}

/-- One safety output (Table 14.7). -/
structure So where
  /-- 1: high-side switch closed; 14 Table 14.7 -/
  hs : Bool := false
  /-- 1: low-side switch closed; 14 Table 14.7 -/
  ls : Bool := false
  /-- 1; 14 Table 14.7 -/
  spPermit : Bool := false
  /-- 1; 14 Table 14.7 -/
  selPermit : Bool := false
  /-- 1 RESTART_WAIT; 14 Table 14.7 -/
  wait : Bool := false
  /-- 1; 14 Table 14.7 -/
  outFault : Bool := false
  /-- 1; 14 Table 14.7 -/
  overcur : Bool := false
  /-- 1: the next dark test opens the low side; 14 R379 -/
  darkLow : Bool := false
  /-- 1: a press the Selvedge logic qualified restarted a MANUAL output; 14 R390 -/
  rearmSel : Bool := false
  /-- 1: a press that SP qualified restarted it; 14 R390 -/
  rearmSp : Bool := false
  /-- 16; 14 Table 14.7 -/
  ons : BitVec 16 := 0
  /-- 8; 14 Table 14.7 -/
  darkFail : BitVec 8 := 0
  /-- 8; 14 Table 14.7 -/
  faults : BitVec 8 := 0
  /-- SP cycles the read-back matched the open switches; 14 Table 14.2 -/
  rbOk : Nat := 0
deriving DecidableEq, Repr

/-- So right after reset. -/
def So.reset : So := {}

/-- One WSC connection (R392 to R398). -/
structure Wsc where
  /-- 3; 14 Table 14.7 -/
  state : BitVec 3 := 0
  /-- 1: fail-safe values delivered; 14 Table 14.7 -/
  fsv : Bool := false
  /-- 16: last SEQ accepted; 14 Table 14.7 -/
  lastSeq : BitVec 16 := 0
  /-- 16: last SEQ sent; 14 Table 14.7 -/
  txSeq : BitVec 16 := 0
  /-- 16: last ACKSEQ accepted; 14 Table 14.7 -/
  ackSeq : BitVec 16 := 0
  /-- 8; 14 Table 14.7 -/
  eCrc : BitVec 8 := 0
  /-- 8; 14 Table 14.7 -/
  eSeq : BitVec 8 := 0
  /-- 8; 14 Table 14.7 -/
  eLen : BitVec 8 := 0
  /-- 8; 14 Table 14.7 -/
  eWd : BitVec 8 := 0
  /-- 16; 14 Table 14.7 -/
  rtt : BitVec 16 := 0
  /-- 16; 14 Table 14.7 -/
  rttMax : BitVec 16 := 0
  /-- operating time; 14 R396 -/
  deadline : Option Nat := none
  /-- 64 SEQs sent with their times; 14 R395 -/
  sent : List (BitVec 16 × Nat) := []
  /-- consecutive valid PDUs; 14 R397 -/
  valid : Nat := 0
  /-- 48 bytes delivered; 14 R397 -/
  data : List Byte := []
  /-- 16: last learned primary SEQ; 14 R398 -/
  learned : Option (BitVec 16) := none
  /-- 48 bytes: the data to send; 14 R393 -/
  tx : List Byte := []
  /-- 1: they are fail-safe values; 14 R393 -/
  txFsv : Bool := false
deriving DecidableEq, Repr

/-- Wsc right after reset. -/
def Wsc.reset : Wsc := {}

/-- One reset qualification and lock-out latch (R386 to R389); SP and the Selvedge logic have one each. -/
structure Lat where
  /-- 1; 14 Table 14.9 -/
  set : Bool := true
  /-- 14: closed samples of the press in progress; 14 R387 -/
  press : Nat := 0
  /-- 1 RESET_STUCK; 14 R388 -/
  stuck : Bool := false
  /-- 1: a sample was taken since the start; 14 R388 -/
  started : Bool := false
deriving DecidableEq, Repr

/-- Lat right after reset. -/
def Lat.reset : Lat := {}

/-- The SAF block (Table 14.7). -/
structure Saf where
  /-- 1: SP and the Selvedge logic started in this start; 14 R370 -/
  started : Bool := false
  /-- 1; 14 Table 14.8 -/
  spRun : Bool := false
  /-- 1; 14 Table 14.8 -/
  selRun : Bool := false
  /-- 1; 14 Table 14.8 -/
  rst : Bool := false
  /-- 1; 14 Table 14.8 -/
  cfgOk : Bool := false
  /-- 5; 14 Table 14.9 -/
  cause : BitVec 5 := 2
  /-- 5; 14 Table 14.9 -/
  last : BitVec 5 := 0
  /-- 16; 14 Table 14.9 -/
  present : BitVec 16 := 0
  /-- 6; 14 Table 14.7 -/
  infoIndex : BitVec 6 := 0
  /-- 2; 14 Table 14.7 -/
  infoKind : BitVec 2 := 0
  /-- 1 BY; 14 Table 14.7 -/
  infoSp : Bool := false
  /-- 1 CHB; 14 Table 14.7 -/
  infoChb : Bool := false
  /-- Selvedge latch; 14 R389 -/
  sel : Lat := Lat.reset
  /-- SP latch; 14 R389 -/
  sp : Lat := Lat.reset
  /-- 32; 14 Table 14.7 -/
  cfgCrc : BitVec 32 := 0
  /-- 32; 14 Table 14.7 -/
  selCrc : BitVec 32 := 0
  /-- 8; 14 Table 14.7 -/
  cntLock : BitVec 8 := 0
  /-- 8; 14 Table 14.7 -/
  cntAcc : BitVec 8 := 0
  /-- 8; 14 Table 14.7 -/
  cntRef : BitVec 8 := 0
  /-- 8; 14 Table 14.7 -/
  cntStuck : BitVec 8 := 0
  /-- 16; 14 Table 14.7 -/
  spCyc : BitVec 16 := 0
  /-- 16; 14 Table 14.7 -/
  spCycMax : BitVec 16 := 0
  /-- 32; 14 Table 14.7 -/
  mboxApp : BitVec 32 := 0
  /-- 1; 14 Table 14.7 -/
  tp1 : Bool := false
  /-- 1; 14 Table 14.7 -/
  tp2 : Bool := false
  /-- 16; 14 Table 14.7 -/
  pulses : BitVec 16 := 0
  /-- 8 inputs; 14 Table 14.7 -/
  si : Tab Si := []
  /-- 4 outputs; 14 Table 14.7 -/
  so : Tab So := []
  /-- 64 connections; 14 R392 -/
  wsc : Tab Wsc := []
  /-- 1: SUPPLY present; 14 R380 -/
  supplyBad : Bool := false
  /-- 8 inputs as SP samples them; 14 R367 -/
  spSi : Tab Si := []
  /-- 0 none, 1 TP1, 2 TP2: pulse in progress or just ended; 14 R373 -/
  pulseNo : Nat := 0
  /-- samples of that pulse taken; 14 R374 -/
  pulseK : Nat := 0
  /-- samples at which SP and the Selvedge logic agreed in a row; 14 Table 14.2 -/
  agreeOk : Nat := 0
  /-- 1: SP has seen the release edge of a qualified press; 14 R387 -/
  spQual : Bool := false
  /-- 1: the Selvedge logic has judged that press; 14 R387 -/
  selQual : Bool := false
  /-- 5: cause of the last lock-out whose release has no record; 14 R389 -/
  openLock : BitVec 5 := 0
deriving DecidableEq, Repr

/-- Saf right after reset. -/
def Saf.reset : Saf := {}

/-- One Tally record (R405 to R408). -/
structure TRec where
  /-- 32; 15 Table 15.1 -/
  seq : BitVec 32 := 0
  /-- 3; 15 Table 15.1 -/
  sev : Nat := 0
  /-- 5; 15 Table 15.1 -/
  source : Nat := 0
  /-- 32; 15 Table 15.1 -/
  pwrcyc : BitVec 32 := 0
  /-- 48; 15 Table 15.1 -/
  optime : BitVec 48 := 0
  /-- LEN - 3 units of 8 bytes; 15 R405 -/
  payload : List Byte := []
  /-- 1: the seal is valid; 15 R408 -/
  sealed : Bool := false
deriving DecidableEq, Repr

/-- TRec right after reset. -/
def TRec.reset : TRec := {}

/-- One Tally page in use (R403, R404). -/
structure Page where
  /-- 13; 15 R403 -/
  no : Nat := 0
  /-- 3; 15 R403 -/
  sev : Nat := 0
  /-- 1; 15 R404 -/
  isOpen : Bool := false
  /-- 128 units; 15 R403 -/
  recs : List TRec := []
deriving DecidableEq, Repr

/-- Page right after reset. -/
def Page.reset : Page := {}

/-- The Tally (chapter 15). -/
structure Tly where
  /-- 8,192 pages; 15 R403 -/
  log : List Page := []
  /-- 256 pages; 15 R403 -/
  audit : List Page := []
  /-- 64 KiB; 15 R410 -/
  queue : List TRec := []
  /-- 32; 15 Table 15.6 -/
  seq : BitVec 32 := 0
  /-- 64; 15 Table 15.6 -/
  nonce : BitVec 64 := 0
  /-- 32; 15 Table 15.6 -/
  ovw : BitVec 32 := 0
  /-- 32; 15 Table 15.6 -/
  drop : BitVec 32 := 0
  /-- 32; 15 Table 15.6 -/
  auditLost : BitVec 32 := 0
  /-- 32; 15 Table 15.6 -/
  qLost : BitVec 32 := 0
  /-- 32; 15 Table 15.6 -/
  sealFail : BitVec 32 := 0
  /-- 16; 15 Table 15.6 -/
  clears : BitVec 16 := 0
  /-- 16; 15 Table 15.6 -/
  clrRefused : BitVec 16 := 0
  /-- 1 OPEN; 15 Table 15.6 -/
  isOpen : Bool := false
  /-- 8; 15 Table 15.6 -/
  clrReason : BitVec 8 := 0
  /-- 1; 15 Table 15.6 -/
  found : Bool := false
  /-- 1; 15 Table 15.6 -/
  later : Bool := false
  /-- 8; 15 Table 15.6 -/
  rdLen : BitVec 8 := 0
  /-- 1,024 bytes; 15 Table 15.6 -/
  rdBuf : List Byte := []
  /-- time of the first key word; 15 R422 -/
  clrKey : Option Nat := none
  /-- 65,536 headers of 16 bytes; 15 R416 -/
  partner : List (List Byte) := []
  /-- headers sealed and not yet sent to the partner; 09 R243 -/
  unsent : List (List Byte) := []
  /-- the record whose write has begun; 15 R411 -/
  writing : Option TRec := none
deriving DecidableEq, Repr

/-- Tly right after reset. -/
def Tly.reset : Tly := {}

/-- One DRAM device (R430). -/
structure DevE where
  /-- times of its corrections in the last 3,600 s; 16; 16 Table 16.3 -/
  hour : List Nat := []
  /-- 15; 16 Table 16.3 -/
  boot : BitVec 15 := 0
  /-- 1; 16 Table 16.3 -/
  marked : Bool := false
  /-- time of its last warning record; 16 R427 -/
  warnT : Option Nat := none
  /-- time of its last 0x0C04 record; 16 R431 -/
  overT : Option Nat := none
deriving DecidableEq, Repr

/-- DevE right after reset. -/
def DevE.reset : DevE := {}

/-- The MEM block (Table 16.3) and the DRAM contents that carry errors. -/
structure Mm where
  /-- 1; 16 Table 16.3 -/
  trained : Bool := false
  /-- 5; 16 Table 16.3 -/
  markDev : Option Nat := none
  /-- 1; 16 Table 16.3 -/
  rinseRun : Bool := false
  /-- 1; 16 Table 16.3 -/
  rinsePaused : Bool := false
  /-- 32; 16 Table 16.3 -/
  ceCnt : BitVec 32 := 0
  /-- 32; 16 Table 16.3 -/
  ueCnt : BitVec 32 := 0
  /-- 34; 16 Table 16.3 -/
  ceAddr : Nat := 0
  /-- 5; 16 Table 16.3 -/
  dev0 : BitVec 5 := 0
  /-- 5; 16 Table 16.3 -/
  dev1 : BitVec 5 := 0
  /-- 1; 16 Table 16.3 -/
  erased : Bool := false
  /-- 1; 16 Table 16.3 -/
  ceRinse : Bool := false
  /-- 34; 16 Table 16.3 -/
  ueAddr : Nat := 0
  /-- 1; 16 Table 16.3 -/
  ueRinse : Bool := false
  /-- 1; 16 Table 16.3 -/
  uePartial : Bool := false
  /-- 2; 16 Table 16.3 -/
  ueCls : BitVec 2 := 0
  /-- 28; 16 Table 16.3 -/
  pos : Nat := 0
  /-- 16; 16 Table 16.3 -/
  passes : BitVec 16 := 0
  /-- 1; 16 Table 16.3 -/
  behind : Bool := false
  /-- corrected in this pass; 16 Table 16.3 -/
  passCe : Nat := 0
  /-- uncorrectable in this pass; 16 Table 16.3 -/
  passUe : Nat := 0
  /-- 16; 16 Table 16.3 -/
  lastCe : BitVec 16 := 0
  /-- 16; 16 Table 16.3 -/
  lastUe : BitVec 16 := 0
  /-- 19 devices; 16 Table 16.3 -/
  devs : Tab DevE := []
  /-- 32; 16 Table 16.3 -/
  sramCe : BitVec 32 := 0
  /-- 16; 16 Table 16.3 -/
  refetch : BitVec 16 := 0
  /-- 16; 16 Table 16.3 -/
  fatal : BitVec 16 := 0
  /-- 32; 16 Table 16.3 -/
  mramCe : BitVec 32 := 0
  /-- 32; 16 Table 16.3 -/
  mramUe : BitVec 32 := 0
  /-- armed injections: line address to device mask; 16 R437 -/
  inj : Tab Nat := []
  /-- codeword address to its symbols in error in DRAM; 16 Table 16.2 -/
  bad : Tab (List Nat) := []
  /-- lines read and corrected, write-back not yet done; 16 R428 -/
  wbPend : List Nat := []
  /-- 1: the marking awaits its MRAM record; 18 Table 18.3 -/
  markUnsaved : Bool := false
deriving DecidableEq, Repr

/-- Mm right after reset. -/
def Mm.reset : Mm := {}

/-- An image header as stored (Table 17.3). -/
structure Hdr where
  /-- 16; 17 Table 17.3 -/
  format : BitVec 16 := 0
  /-- 2; 17 Table 17.3 -/
  kind : BitVec 2 := 0
  /-- 1; 17 Table 17.3 -/
  keyslot : Bool := false
  /-- 32; 17 Table 17.3 -/
  version : BitVec 32 := 0
  /-- 16; 17 Table 17.3 -/
  svn : BitVec 16 := 0
  /-- 16; 17 Table 17.3 -/
  storeFmt : BitVec 16 := 0
  /-- 16; 17 Table 17.3 -/
  storeMin : BitVec 16 := 0
  /-- 32; 17 Table 17.3 -/
  length : Nat := 0
  /-- 16; 17 Table 17.3 -/
  sections : Nat := 0
  /-- 8; 17 Table 17.3 -/
  hwrev : BitVec 8 := 0
  /-- 32 bytes; 17 Table 17.3 -/
  digest : List Byte := []
  /-- 8; 17 Table 17.3 -/
  mirrorFmt : BitVec 8 := 0
  /-- 8; 17 Table 17.3 -/
  mirrorMin : BitVec 8 := 0
  /-- 32; 17 Table 17.3 -/
  copyNs : BitVec 32 := 0
deriving DecidableEq, Repr

/-- Hdr right after reset. -/
def Hdr.reset : Hdr := {}

/-- One NOR bank, one configuration slot or one staging buffer (Table 17.1). -/
structure Bank where
  /-- up to 64 MiB; 17 Table 17.1 -/
  bytes : List Byte := []
  /-- 1: it verifies; 17 R445 -/
  ok : Bool := false
  /-- Table 17.3; 17 Table 17.3 -/
  hdr : Hdr := Hdr.reset
  /-- blocks marked for re-erase; 17 R451 -/
  erase : List Nat := []
deriving DecidableEq, Repr

/-- Bank right after reset. -/
def Bank.reset : Bank := {}

/-- The staging state of one area (R448, BOOT_STG). -/
structure Stg where
  /-- 3; 17 Table 17.10 -/
  state : BitVec 3 := 0
  /-- 32; 17 Table 17.10 -/
  len : Nat := 0
  /-- the bank or slot written; 17 R448 -/
  dest : Nat := 0
  /-- 32; 17 R449 -/
  outcome : BitVec 32 := 0
  /-- 1: a program or erase is in progress; 17 R451 -/
  writing : Bool := false
  /-- slots and identifiers of PENDING journal records; 17 R450 -/
  pendReq : List (Nat × BitVec 64) := []
deriving DecidableEq, Repr

/-- Stg right after reset. -/
def Stg.reset : Stg := {}

/-- An activation (Tables 17.6 to 17.8, 17.10). -/
structure Act where
  /-- 3; 17 Table 17.10 -/
  state : BitVec 3 := 0
  /-- 1; 17 Table 17.10 -/
  separate : Bool := false
  /-- 1; 17 Table 17.10 -/
  safety : Bool := false
  /-- 8; 17 Table 17.10 -/
  reason : BitVec 8 := 0
  /-- 48; 17 Table 17.10 -/
  at_ : BitVec 48 := 0
  /-- 32; 17 Table 17.10 -/
  pauseUs : BitVec 32 := 0
  /-- 1 WHAT bit 0; 17 Table 17.6 -/
  fw : Bool := false
  /-- 1 WHAT bit 1; 17 Table 17.6 -/
  cfg : Bool := false
  /-- 32; 17 Table 17.6 -/
  fwVer : BitVec 32 := 0
  /-- 32; 17 Table 17.6 -/
  cfgVer : BitVec 32 := 0
  /-- 5: the ring that fetched it; 17 Table 17.8 -/
  slot : Nat := 0
  /-- 1: CONFIG_RETURN; 17 R460 -/
  isReturn : Bool := false
  /-- 1: in progress; 17 R452 -/
  busy : Bool := false
  /-- step of Table 17.8; 17 Table 17.8 -/
  step : Nat := 0
  /-- end of the settle window; 17 R458 -/
  settleTo : Nat := 0
  /-- 4: mode entered from; 17 Table 17.7 -/
  from_ : Mode := .run
  /-- time of the last commit before step 1; 17 R453 -/
  lastCommit : Nat := 0
  /-- 1: bank before the switch; 17 R458 -/
  prevBank : Bool := false
  /-- configuration slot before the switch; 17 R458 -/
  prevCfg : Nat := 0
  /-- 1: step 6 of Table 17.7 is due; 17 Table 17.7 -/
  awaitCommit : Bool := false
  /-- 1: the standby is verifying the images; 17 R452 -/
  awaitReady : Bool := false
  /-- 64: RSEQ of the last IMAGE part; 09 Table 9.18 -/
  pkgRseq : BitVec 64 := 0
  /-- 1: Table 17.8 applies; 17 R455 -/
  pair : Bool := false
  /-- 1: this module has switched; 17 R453 -/
  done : Bool := false
deriving DecidableEq, Repr

/-- Act right after reset. -/
def Act.reset : Act := {}

/-- The key store (Table 17.2). -/
structure Ks where
  /-- public key; 17 Table 17.2 -/
  rel0 : Option (List Byte) := none
  /-- public key; 17 Table 17.2 -/
  rel1 : Option (List Byte) := none
  /-- public key; 17 Table 17.2 -/
  plant : Option (List Byte) := none
  /-- public key; 17 Table 17.2 -/
  plantRet : Option (List Byte) := none
  /-- 32; 17 Table 17.2 -/
  plantRetHigh : BitVec 32 := 0
  /-- 8 public keys; 17 Table 17.2 -/
  op : Tab (List Byte) := []
  /-- 1: identity key and certificate present; 17 Table 17.2 -/
  dev : Bool := false
  /-- certificate chain; 17 Table 17.9 -/
  chain : List Byte := []
  /-- a REL1 awaiting CONFIRM; 17 R462 -/
  pendRel1 : Option (List Byte) := none
  /-- 1; 17 R442 -/
  locked : Bool := false
deriving DecidableEq, Repr

/-- Ks right after reset. -/
def Ks.reset : Ks := {}

/-- The BOOT block, banks and stores (chapter 17). -/
structure Boot where
  /-- 4; 17 Table 17.11 -/
  step : BitVec 4 := 2
  /-- 1; 17 Table 17.11 -/
  held : Bool := false
  /-- 4; 17 Table 17.11 -/
  cause : BitVec 4 := 0
  /-- 1; 17 Table 17.11 -/
  bank : Bool := false
  /-- 1; 17 Table 17.11 -/
  migrating : Bool := false
  /-- 64 MiB; 17 Table 17.1 -/
  bankA : Bank := Bank.reset
  /-- 64 MiB; 17 Table 17.1 -/
  bankB : Bank := Bank.reset
  /-- 4 configuration slots; 17 Table 17.1 -/
  cfgs : Tab Bank := []
  /-- 1: bank that the selection record names; 17 R445 -/
  sel : Bool := false
  /-- 2: slot of the configuration in force; 17 R446 -/
  cfgRun : Option Nat := none
  /-- 2: slot of the active configuration; 17 R439 -/
  cfgAct : Option Nat := none
  /-- 2: slot of the previous one; 17 R439 -/
  cfgPrev : Option Nat := none
  /-- 32; 17 Table 17.10 -/
  actVer : BitVec 32 := 0
  /-- 32; 17 Table 17.10 -/
  prevVer : BitVec 32 := 0
  /-- 32; 17 Table 17.10 -/
  high : BitVec 32 := 0
  /-- 32; 17 Table 17.10 -/
  fwVer : BitVec 32 := 0
  /-- 16; 17 Table 17.10 -/
  fwSvn : BitVec 16 := 0
  /-- 16; 17 Table 17.10 -/
  minSvn : BitVec 16 := 0
  /-- 16 confirmed STORE_FMT; 17 R462 -/
  storeFmt : BitVec 16 := 0
  /-- running firmware header; 17 Table 17.3 -/
  runHdr : Hdr := Hdr.reset
  /-- firmware area; 17 Table 17.10 -/
  stgFw : Stg := Stg.reset
  /-- configuration area; 17 Table 17.10 -/
  stgCfg : Stg := Stg.reset
  /-- keys area; 17 Table 17.10 -/
  stgKey : Stg := Stg.reset
  /-- 4 KiB; 17 R448 -/
  keyBuf : List Byte := []
  /-- activation; 17 Table 17.10 -/
  act : Act := Act.reset
  /-- 8 KiB; 17 R440 -/
  ks : Ks := Ks.reset
  /-- operating ms of automatic confirmation; 17 R462 -/
  confirmAt : Option Nat := none
  /-- 1: a firmware switch awaits confirmation; 17 R462 -/
  switched : Bool := false
  /-- time of the first key word; 17 R447 -/
  ldKey : Option Nat := none
  /-- 3; 17 Table 17.10 -/
  ldState : BitVec 3 := 0
  /-- 8; 17 Table 17.10 -/
  ldReason : BitVec 8 := 0
  /-- 9 x 32 bytes; 17 Table 17.10 -/
  meas : Tab (List Byte) := []
  /-- two copies of 64 KiB; 17 Table 17.1 -/
  slotRec : Tab (List Byte) := []
  /-- 1: boot step 8 waits for stations; 10 R285 -/
  awaitStn : Bool := false
  /-- 1: R261 waits for heartbeats; 09 R261 -/
  awaitPartner : Bool := false
  /-- 1: R261 listens for beacons; 09 R261 -/
  listening : Bool := false
  /-- 1: the press journal is not yet replayed in this start; 04 R114 -/
  replayDue : Bool := false
deriving DecidableEq, Repr

/-- Boot right after reset. -/
def Boot.reset : Boot := {}

/-- The PWR block (Tables 18.16, 18.17). -/
structure Pwr where
  /-- 1; 18 Table 18.17 -/
  pfail : Bool := false
  /-- 1 FEEDA_OK; 18 Table 18.17 -/
  feedA : Bool := true
  /-- 1 FEEDB_OK; 18 Table 18.17 -/
  feedB : Bool := true
  /-- 1 HOLDUP_OK; 18 Table 18.17 -/
  holdup : Bool := true
  /-- 1; 18 Table 18.17 -/
  shutdown : Bool := false
  /-- 1; 18 Table 18.17 -/
  boardWarn : Bool := false
  /-- 1; 18 Table 18.17 -/
  tempWarn : Bool := false
  /-- 1; 18 Table 18.17 -/
  vretLow : Bool := false
  /-- 1; 18 Table 18.17 -/
  recharge : Bool := false
  /-- 16; 18 Table 18.16 -/
  feedAmv : BitVec 16 := 24000
  /-- 16; 18 Table 18.16 -/
  feedAma : BitVec 16 := 0
  /-- 16; 18 Table 18.16 -/
  feedBmv : BitVec 16 := 24000
  /-- 16; 18 Table 18.16 -/
  feedBma : BitVec 16 := 0
  /-- 16; 18 Table 18.16 -/
  busMv : BitVec 16 := 48000
  /-- 16; 18 Table 18.16 -/
  busLow : BitVec 16 := 48000
  /-- 16; 18 Table 18.16 -/
  power : BitVec 16 := 0
  /-- 16; 18 Table 18.16 -/
  powerMax : BitVec 16 := 0
  /-- 16; 18 Table 18.16 -/
  pfCnt : BitVec 16 := 0
  /-- 16; 18 Table 18.16 -/
  pfClr : BitVec 16 := 0
  /-- 32; 18 Table 18.16 -/
  pfLast : BitVec 32 := 0
  /-- time PFAIL set; 18 Table 18.16 -/
  pfFrom : Nat := 0
  /-- 7; 18 Table 18.16 -/
  rails : BitVec 7 := 0
  /-- 3; 18 Table 18.16 -/
  railFirst : BitVec 3 := 0
  /-- 1; 18 Table 18.16 -/
  railValid : Bool := false
  /-- 16; 18 Table 18.16 -/
  temp : BitVec 16 := 0
  /-- 16; 18 Table 18.16 -/
  tempMax : BitVec 16 := 0
  /-- 16; 18 Table 18.16 -/
  tboard : BitVec 16 := 0
  /-- 16; 18 Table 18.16 -/
  tboardMax : BitVec 16 := 0
  /-- 1: a sample has been taken since boot; 18 R475 -/
  tempSeen : Bool := false
  /-- samples at or above 150.0 C; 18 R475 -/
  hotRun : Nat := 0
  /-- time of the last warning record; 18 R475 -/
  twarnT : Option Nat := none
  /-- 16; 18 Table 18.16 -/
  vret : BitVec 16 := 0
  /-- time of the last warning record; 18 R477 -/
  vretWarnT : Option Nat := none
  /-- 16; 18 Table 18.16 -/
  sfeedMv : BitVec 16 := 24000
  /-- 16; 18 Table 18.16 -/
  afeedMv : BitVec 16 := 24000
  /-- 1: HK watchdog expired; 18 R476 -/
  hkWd : Bool := false
deriving DecidableEq, Repr

/-- Pwr right after reset. -/
def Pwr.reset : Pwr := {}

/-- The RET island (R35, R36). -/
structure Ret where
  /-- 32; 18 Table 18.16 -/
  secs : BitVec 32 := 0
  /-- 3: slot presence, cover, VRET lost; 02 R35 -/
  tamper : BitVec 3 := 0
  /-- 1: slot-presence contact made; 09 R270 -/
  present : Bool := true
  /-- 48 saved operating time; 18 R473 -/
  savedOp : Nat := 0
deriving DecidableEq, Repr

/-- Ret right after reset. -/
def Ret.reset : Ret := {}

/-- Configuration of one task class (section 0x21). -/
structure ClsCfg where
  /-- 1: configured; 05 Table 5.11 -/
  en : Bool := false
  /-- 1; 05 Table 5.11 -/
  mirror : Bool := false
  /-- bytes of its input image; 01 R18, 05 Table 5.1 -/
  inBytes : Nat := 0
  /-- bytes of its output image; 01 R18 -/
  outBytes : Nat := 0
  /-- its process signals; 01 Table 1.6 -/
  signals : Nat := 0
  /-- µs from the boundary to its earliest output launch; 05 Table 5.9, 01 R20 -/
  launchUs : Option Nat := none
  /-- cycle in µs; 05 Table 5.10 -/
  cycUs : Nat := 0
  /-- 2: AP pair; 05 Table 5.11 -/
  pair : Nat := 0
  /-- 1; 05 Table 5.11 -/
  skippable : Bool := false
  /-- local apply offset; 13 R342 -/
  applyNs : Nat := 0
  /-- station indexes; 05 R132 -/
  stns : List Nat := []
  /-- subscriptions; 10 R291 -/
  subs : List Nat := []
  /-- publications; 10 R290 -/
  pubs : List Nat := []
  /-- classes whose globals it reads; 01 R22 -/
  reads : List Nat := []
  /-- local digital inputs and their image addresses; 05 R132 -/
  din : List (Nat × Nat) := []
  /-- local digital outputs and their image addresses; 05 R132 -/
  dout : List (Nat × Nat) := []
  /-- local analogue inputs and their image addresses; 05 R132 -/
  ain : List (Nat × Nat) := []
  /-- analogue or digital channels and the image addresses of their status; 13 R353 -/
  stat : List (Bool × Nat × Nat) := []
  /-- channels, devices and the image addresses of their HART results; 13 R363 -/
  hart : List (Nat × Nat × Nat) := []
  /-- loops, what is read of them (0 output, 1 feedback, 2 status) and its image address; 07 R189 -/
  loops : List (Nat × Nat × Nat) := []
  /-- local analogue outputs and their image addresses; 05 R132 -/
  aout : List (Nat × Nat) := []
deriving DecidableEq, Repr

/-- ClsCfg right after reset. -/
def ClsCfg.reset : ClsCfg := {}

/-- Configuration of one station. -/
structure StnCfg where
  /-- 18; 10 Table 10.8 -/
  node : BitVec 18 := 0
  /-- 3; 10 Table 10.8 -/
  cls : Nat := 0
  /-- 2; 10 Table 10.8 -/
  ring : Nat := 0
  /-- address in the input image; 05 R132 -/
  inAt : Nat := 0
  /-- bytes; 05 R132 -/
  inLen : Nat := 0
  /-- 1: substitute mode hold; 05 R140 -/
  hold : Bool := false
  /-- fixed substitute values; 05 R140 -/
  subst : List Byte := []
  /-- address of its status word; 05 R133 -/
  wordAt : Nat := 0
  /-- address in the output image; 05 R132 -/
  outAt : Nat := 0
  /-- bytes; 05 R132 -/
  outLen : Nat := 0
  /-- safe values of its outputs; 02 R29 -/
  safe : List Byte := []
  /-- 1: outputs enabled for commissioning; 02 Table 2.2 -/
  comm : Bool := false
  /-- parameter block; 10 R285 -/
  param : List Byte := []
deriving DecidableEq, Repr

/-- StnCfg right after reset. -/
def StnCfg.reset : StnCfg := {}

/-- Configuration of one subscription. -/
structure SubCfg where
  /-- 18: publisher's side-0 module; 10 R290 -/
  node : BitVec 18 := 0
  /-- 18: publisher's side-1 module; 10 R290 -/
  node1 : BitVec 18 := 0
  /-- 3; 10 R290 -/
  cls : Nat := 0
  /-- address in the input image; 10 R291 -/
  at_ : Nat := 0
  /-- bytes; 10 R290 -/
  len : Nat := 0
  /-- 1: substitute mode hold; 10 R291 -/
  hold : Bool := false
  /-- fixed substitute values; 10 R291 -/
  subst : List Byte := []
  /-- address of its status word; 10 R291 -/
  wordAt : Nat := 0
  /-- layout digest; 10 R290 -/
  digest : List Byte := []
deriving DecidableEq, Repr

/-- SubCfg right after reset. -/
def SubCfg.reset : SubCfg := {}

/-- Configuration of one publication. -/
structure PubCfg where
  /-- 3; 10 R290 -/
  cls : Nat := 0
  /-- address in the global outputs; 10 R290 -/
  at_ : Nat := 0
  /-- bytes; 10 R290 -/
  len : Nat := 0
  /-- layout digest; 10 R290 -/
  digest : List Byte := []
deriving DecidableEq, Repr

/-- PubCfg right after reset. -/
def PubCfg.reset : PubCfg := {}

/-- Configuration of one WSC connection (R392). -/
structure WscCfg where
  /-- 1; 14 Table 14.7 -/
  en : Bool := false
  /-- 2; 14 Table 14.7 -/
  carrier : BitVec 2 := 0
  /-- 1; 14 Table 14.7 -/
  ackAuto : Bool := false
  /-- 8; 14 Table 14.7 -/
  len : Nat := 0
  /-- 14 ms; 14 Table 14.7 -/
  wd : Nat := 0
  /-- 32; 14 Table 14.7 -/
  id : BitVec 32 := 0
  /-- station, publication or CAN channel; 14 R392 -/
  unit : Nat := 0
  /-- offset in the carrier; 14 R392 -/
  at_ : Nat := 0
deriving DecidableEq, Repr

/-- WscCfg right after reset. -/
def WscCfg.reset : WscCfg := {}

/-- Configuration of one I/O ring. -/
structure RingCfg where
  /-- 10; 10 Table 10.8 -/
  seg : BitVec 10 := 0
  /-- 12; 10 Table 10.8 -/
  vid : BitVec 12 := 0
  /-- 9; 10 Table 10.8 -/
  n : Nat := 0
  /-- 1: 100 Mb/s; 10 Table 10.8 -/
  slow : Bool := false
  /-- 16; 10 Table 10.8 -/
  load : BitVec 16 := 0
deriving DecidableEq, Repr

/-- RingCfg right after reset. -/
def RingCfg.reset : RingCfg := {}

/-- Where an input of a loop comes from (R187). -/
structure InSrc where
  /-- 0 none, 1 AI, 2 DI, 3 station, 4 process image, 5 output of another loop; 07 Table 7.5 -/
  kind : Nat := 0
  /-- channel, station or slot; 07 Table 7.5 -/
  unit : Nat := 0
  /-- entry of the parameter block; for an image 0 outputs, 1 globals; 10 Table 10.10 -/
  idx : Nat := 0
  /-- class of the image; 07 R189 -/
  cls : Nat := 0
  /-- address in the image; 07 R189 -/
  addr : Nat := 0
  /-- arrival of the loop frame of its station after phase 0, in ns; 07 Table 7.5 -/
  arriveNs : Nat := 0
deriving DecidableEq, Repr

/-- InSrc right after reset. -/
def InSrc.reset : InSrc := {}

/-- Where the output of a loop goes (R188). -/
structure OutDst where
  /-- 0 none, 1 AO, 2 DO, 3 station; 07 R188 -/
  kind : Nat := 0
  /-- channel or station; 07 R188 -/
  unit : Nat := 0
  /-- entry of the parameter block; 10 Table 10.10 -/
  idx : Nat := 0
  /-- offset of its echo in the INPUT frame; 07 R205 -/
  echoAt : Option Nat := none
  /-- launch of its loop frame after phase 0, in ns; 07 Table 7.7 -/
  launchNs : Nat := 0
deriving DecidableEq, Repr

/-- OutDst right after reset. -/
def OutDst.reset : OutDst := {}

/-- One instruction of a loop program (Table 7.4). -/
structure LIns where
  /-- operation, in the order of Table 7.4; 07 Table 7.4 -/
  op : Nat := 0
  /-- 4; 07 Table 7.4 -/
  d : Nat := 0
  /-- 7; 07 Table 7.4 -/
  a : Nat := 0
  /-- 4; 07 Table 7.4 -/
  b : Nat := 0
  /-- 4; 07 Table 7.4 -/
  c : Nat := 0
  /-- 2: its predicate; 07 R185 -/
  pred : Option Nat := none
  /-- 1: !pN; 07 R185 -/
  inv : Bool := false
deriving DecidableEq, Repr

/-- LIns right after reset. -/
def LIns.reset : LIns := {}

/-- Configuration of one loop slot (Table 7.15, sections 0x24 and 0x21). -/
structure LoopCfg where
  /-- 1 CMODE; 07 Table 7.15 -/
  sched : Bool := false
  /-- 1 SINTERP; 07 Table 7.15 -/
  linear : Bool := false
  /-- 5; 07 Table 7.15 -/
  law : Nat := 0
  /-- 1; 07 Table 7.15 -/
  reverse : Bool := false
  /-- 1; 07 Table 7.15 -/
  chk : Bool := false
  /-- 1; 07 Table 7.15 -/
  remoteFb : Bool := false
  /-- 1; 07 Table 7.15 -/
  remoteOut : Bool := false
  /-- 1; 07 Table 7.15 -/
  spExt : Bool := false
  /-- 2; 07 Table 7.15 -/
  owner : Nat := 0
  /-- 9: in 25 µs; 07 Table 7.14 -/
  period : Nat := 0
  /-- 10: in 0.1 %; 07 Table 7.14 -/
  crease : Nat := 0
  /-- 4: states of a state-space law; 07 Table 7.2 -/
  n : Nat := 0
  /-- 3: its inputs; 07 Table 7.2 -/
  m : Nat := 0
  /-- 4: inputs of a feedforward summation; 07 Table 7.2 -/
  k : Nat := 0
  /-- 8 input slots; 07 R184 -/
  ins : List InSrc := []
  /-- setpoint from the process image; 07 R208 -/
  spSrc : InSrc := InSrc.reset
  /-- scheduling variable; 07 R193 -/
  schSrc : InSrc := InSrc.reset
  /-- output; 07 R188 -/
  out : OutDst := OutDst.reset
  /-- 32: safe value of its output signal; 07 R203 -/
  safe : BitVec 32 := 0
  /-- 1: enabled for commissioning; 02 Table 2.2 -/
  comm : Bool := false
  /-- 64 instructions; 07 R185 -/
  prog : List LIns := []
  /-- 128 x 32 loaded bank; 07 R181 -/
  bank : Tab (BitVec 32) := []
  /-- loaded operating group; 07 R208 -/
  grp : OpGrp := OpGrp.reset
deriving DecidableEq, Repr

/-- LoopCfg right after reset. -/
def LoopCfg.reset : LoopCfg := {}

/-- The filter lists of one CAN channel (R329). -/
structure CanCfg where
  /-- 256 one-word elements; 12 Table 12.5 -/
  std : List (BitVec 32) := []
  /-- 256 two-word elements; 12 Table 12.5 -/
  ext : List (BitVec 32 × BitVec 32) := []
deriving DecidableEq, Repr

/-- CanCfg right after reset. -/
def CanCfg.reset : CanCfg := {}

/-- Scaling and safe value of one AIO channel (R353, R355). -/
structure AioCfg where
  /-- 32: ELO; 13 R353 -/
  elo : BitVec 32 := 0
  /-- 32: EHI; 13 R353 -/
  ehi : BitVec 32 := 0
  /-- safe value as an engineering value; none: the fail setting; 13 R355 -/
  safe : Option (BitVec 32) := none
deriving DecidableEq, Repr

/-- AioCfg right after reset. -/
def AioCfg.reset : AioCfg := {}

/-- The module configuration in force (section 0x21 and its companions; their byte layouts are Ehrim Workbench's). -/
structure Cfg where
  /-- 1: a valid configuration is active; 02 R31 -/
  valid : Bool := false
  /-- largest changed data of the pair in a 1 ms cycle, in bytes; 01 Table 1.6 -/
  mirBytes : Nat := 0
  /-- registers marked "from configuration": BAR0 offset to value; 17 Table 17.4 -/
  regs : Tab (BitVec 32) := []
  /-- 4; 02 Table 2.3 -/
  startMode : Mode := .stop
  /-- 8 classes; 05 R127 -/
  cls : Tab ClsCfg := []
  /-- 1,024 stations; 10 Table 10.8 -/
  stn : Tab StnCfg := []
  /-- 256 subscriptions; 10 R290 -/
  subs : Tab SubCfg := []
  /-- 64 publications; 10 R290 -/
  pubs : Tab PubCfg := []
  /-- 64 connections; 14 R392 -/
  wsc : Tab WscCfg := []
  /-- configured loop slots; 07 R178 -/
  loops : Tab LoopCfg := []
  /-- frame tables of 4 engines; 07 R190 -/
  frames : Tab (List FrEnt) := []
  /-- 1: LE0/LE1 checked pair; 07 R201 -/
  chk0 : Bool := false
  /-- 1: LE2/LE3 checked pair; 07 R201 -/
  chk1 : Bool := false
  /-- 16 channels; 13 R353 -/
  aio : Tab AioCfg := []
  /-- DIO outputs whose safe value is on; 02 Table 2.2 -/
  dioSafe : List Nat := []
  /-- 8 channels; 12 R329 -/
  can : Tab CanCfg := []
  /-- configured I/O rings; 10 Table 10.8 -/
  rings : Tab RingCfg := []
  /-- 1: a partner is configured; 09 R234 -/
  partner : Bool := false
  /-- 18; 09 R234 -/
  partnerNode : BitVec 18 := 0
  /-- DPX_ALIGN in µs; 09 R250 -/
  alignUs : Nat := 0
  /-- 1: plant outputs enabled in TEST; 02 R40 to R42 -/
  plantEn : Bool := false
  /-- DIO enabled for commissioning; 02 Table 2.2 -/
  commDio : List Nat := []
  /-- AIO enabled for commissioning; 02 Table 2.2 -/
  commAio : List Nat := []
  /-- 12: VLAN of the backbone; 10 Table 10.3 -/
  backVid : BitVec 12 := 0
deriving DecidableEq, Repr, Inhabited

/-- Cfg right after reset. -/
def Cfg.reset : Cfg := {}

/-- One variable of the program's symbol table. -/
structure Var where
  /-- 3; 05 Table 5.6 -/
  cls : Nat := 0
  /-- 2: 0 data, 1 input image, 2 output image, 3 globals; 05 Table 5.6 -/
  mem : Nat := 0
  /-- address in that memory; 05 Table 5.6 -/
  addr : Nat := 0
  /-- bytes of one element; 05 Table 5.6 -/
  size : Nat := 0
  /-- 1: a constant; 05 Table 5.7 -/
  const_ : Bool := false
  /-- 1: written by a loop; 05 Table 5.7 -/
  byLoop : Bool := false
  /-- 1: a safety output; 02 R41 -/
  safety : Bool := false
  /-- 1; 05 Table 5.7 -/
  mirrored : Bool := true
deriving DecidableEq, Repr

/-- Var right after reset. -/
def Var.reset : Var := {}

/-- The application program in force (chapters 05 and 08). -/
structure Prog where
  /-- 1; 05 R141 -/
  loaded : Bool := false
  /-- symbol table by handle; 05 Table 5.6 -/
  vars : Tab Var := []
  /-- per class: initial data; 05 R141 -/
  init : Tab Mem := []
deriving DecidableEq, Repr, Inhabited

/-- Prog right after reset. -/
def Prog.reset : Prog := {}

end Sys2Proof.Machine
end

