-- ==== Sys2Proof/Machine/Tab.lean ====
section
/-! DEFINITION. Keyed lists, byte memories, and the byte, bit and time helpers every block uses. -/

namespace Sys2Proof

/-- The entry of key `k`. -/
def Tab.find {α : Type} : Tab α → Nat → Option α
  | [], _ => none
  | (j, v) :: t, k => if j = k then some v else Tab.find t k

/-- The entry of key `k`, or `d` where the table lists none. -/
def Tab.look {α : Type} (t : Tab α) (k : Nat) (d : α) : α := (t.find k).getD d

/-- `t` with the entry of key `k` set to `v`, keys kept rising. -/
def Tab.put {α : Type} : Tab α → Nat → α → Tab α
  | [], k, v => [(k, v)]
  | (j, u) :: t, k, v =>
    if k < j then (k, v) :: (j, u) :: t
    else if k = j then (k, v) :: t
    else (j, u) :: Tab.put t k v

/-- `t` without an entry of key `k`. -/
def Tab.del {α : Type} : Tab α → Nat → Tab α
  | [], _ => []
  | (j, u) :: t, k => if j = k then Tab.del t k else (j, u) :: Tab.del t k

/-- `t` with the entry of key `k` changed by `f`; `d` stands for an entry the table does not list. -/
def Tab.upd {α : Type} (t : Tab α) (k : Nat) (d : α) (f : α → α) : Tab α := t.put k (f (t.look k d))

/-- The keys of `t`, rising. -/
def Tab.keys {α : Type} (t : Tab α) : List Nat := t.map Prod.fst

/-- Some entry of `t` meets `p`. -/
def Tab.anyV {α : Type} (t : Tab α) (p : α → Bool) : Bool := List.any t fun e => p e.2

/-- How many entries of `t` meet `p`. -/
def Tab.countV {α : Type} (t : Tab α) (p : α → Bool) : Nat := List.countP (fun e => p e.2) t

/-- `t` with every entry changed by `f`. -/
def Tab.mapV {α : Type} (t : Tab α) (f : α → α) : Tab α := List.map (fun e => (e.1, f e.2)) t

/-! Byte memories: an address that is not listed reads 0 (spec/02_modes_and_startup.md R55: boot step 4 clears DRAM). -/

/-- The byte at `a`. -/
def Mem.rd : Mem → Nat → Byte
  | [], _ => 0
  | (j, v) :: m, a => if j = a then v else Mem.rd m a

/-- `m` with byte `b` at `a`; an entry that would read 0 is removed. -/
def Mem.wr : Mem → Nat → Byte → Mem
  | [], a, b => if b = 0 then [] else [(a, b)]
  | (j, u) :: m, a, b =>
    if a < j then (if b = 0 then (j, u) :: m else (a, b) :: (j, u) :: m)
    else if a = j then (if b = 0 then m else (a, b) :: m)
    else (j, u) :: Mem.wr m a b

/-- `n` bytes from `a` on. -/
def Mem.rdN (m : Mem) (a : Nat) : Nat → List Byte
  | 0 => []
  | n + 1 => m.rd a :: Mem.rdN m (a + 1) n

/-- `m` with the bytes `bs` from `a` on. -/
def Mem.wrN (m : Mem) (a : Nat) : List Byte → Mem
  | [] => m
  | b :: bs => Mem.wrN (m.wr a b) (a + 1) bs

/-- The canonical form: addresses strictly rising and no entry equal to 0. -/
def Mem.wfFrom : Mem → Nat → Bool
  | [], _ => true
  | (j, v) :: m, lo => decide (lo ≤ j) && decide (v ≠ 0) && Mem.wfFrom m (j + 1)

/-- The canonical form of a memory. -/
def Memory.wf (m : Mem) : Bool := Mem.wfFrom m 0

/-! Little-endian bytes. -/

/-- The `n` low bytes of `v`, least significant first. -/
def le (n v : Nat) : List Byte :=
  match n with
  | 0 => []
  | n + 1 => BitVec.ofNat 8 v :: le n (v / 256)

/-- The number the bytes spell, least significant first. -/
def unle : List Byte → Nat
  | [] => 0
  | b :: bs => b.toNat + 256 * unle bs

/-- `n` bytes of `bs` from `off` on; bytes beyond its end are 0. -/
def slice (bs : List Byte) (off n : Nat) : List Byte :=
  ((bs.drop off).take n) ++ List.replicate (n - ((bs.drop off).take n).length) 0

/-- The number at bytes `off` to `off + n - 1` of `bs`. -/
def fieldN (bs : List Byte) (off n : Nat) : Nat := unle (slice bs off n)

/-- `bs` padded with zeros to a multiple of 8 bytes. -/
def pad8 (bs : List Byte) : List Byte := bs ++ List.replicate ((8 - bs.length % 8) % 8) 0

/-- `bs` padded with zeros to `n` bytes. -/
def padTo (n : Nat) (bs : List Byte) : List Byte := bs ++ List.replicate (n - bs.length) 0

/-! Bits. -/

/-- A flag as a number. -/
def bit (b : Bool) : Nat := if b then 1 else 0

/-- The register word that the fields `(position, value)` spell. -/
def wordOf (fs : List (Nat × Nat)) : Word := BitVec.ofNat 32 (fs.foldl (fun a f => a + f.2 <<< f.1) 0)

/-- Bits `lo` to `lo + n - 1` of `w`. -/
def bits (w : Word) (lo n : Nat) : Nat := (w.toNat >>> lo) % 2 ^ n

/-- The sum of `f i` over `i` from 0 to `n - 1`. -/
def sumTo (n : Nat) (f : Nat → Nat) : Nat := ((List.range n).map f).sum

/-- The word whose bit `i` is `f i`, for `i` below `n`. -/
def maskOf (n : Nat) (f : Nat → Bool) : Word := BitVec.ofNat 32 (sumTo n fun i => bit (f i) <<< i)

/-- `n` counted in `w` bits, saturating. -/
def sat (w n : Nat) : Nat := min n (2 ^ w - 1)

/-- A signed number in 32 bits, saturating at ±(2³¹ − 1) (spec/11_time.md Table 11.6). -/
def satInt (x : Int) : Word := BitVec.ofInt 32 (max (-2147483647) (min x 2147483647))

/-- The difference of two short times (spec/11_time.md R296): modulo 2³², as a signed number. -/
def shortDiff (a b : Word) : Int := (a - b).toInt

/-! CRC-32 of IEEE 802.3 and the WSC safety CRC, both reflected. -/

/-- One bit step of a reflected CRC with reflected polynomial `p`. -/
def crcBit (p c : Word) : Word := if c.getLsbD 0 then (c >>> 1) ^^^ p else c >>> 1

/-- `k` bit steps. -/
def crcBits (p : Word) : Nat → Word → Word
  | 0, c => c
  | k + 1, c => crcBits p k (crcBit p c)

/-- The CRC register after the bytes `bs`. -/
def crcRun (p : Word) (c : Word) : List Byte → Word
  | [] => c
  | b :: bs => crcRun p (crcBits p 8 (c ^^^ b.setWidth 32)) bs

/-- CRC-32 of IEEE 802.3 (spec/09_duplex_pair.md R238, spec/15_tally_recorder.md Table 15.4). -/
def crc32 (bs : List Byte) : Word := ~~~ crcRun 0xEDB88320 0xFFFFFFFF bs

/-- The WSC safety CRC (spec/14_safety.md R394): polynomial 0xF4ACFB13, reflected. -/
def crcWsc (bs : List Byte) : Word := ~~~ crcRun 0xC8DF352F 0xFFFFFFFF bs

/-! Codes. -/

/-- The key of the stream that a KCP frame belongs to (spec/10_io_network.md R278): type, period group, ring and source; the two ports of
the backbone carry one stream (R290). -/
def Kcp.key (f : Kcp) : Nat := ((f.type.toNat * 16 + f.pgrp.toNat) * 8 + (if f.port < 4 then f.port else 4)) * 2 ^ 18 + f.src.toNat

/-- A frame of the type that the command names; one whose TYPE is not in spec/10_io_network.md Table 10.4 keeps its code, 10 to 15. -/
def Kcp.typed (f : Kcp) (type : BitVec 4) : Kcp := if f.type.toNat ≤ 9 then { f with type := type } else f

/-- The code of a mode (spec/02_modes_and_startup.md Table 2.1). -/
def Mode.code : Mode → Nat
  | .retain => 0 | .boot => 1 | .idleLink => 2 | .commission => 3 | .test => 4 | .stop => 5 | .run => 6 | .hold => 7
  | .takeover => 8 | .activate => 9 | .faultHalt => 10 | .recovery => 11

/-- The code of a synchronisation state (spec/09_duplex_pair.md Table 9.1). -/
def SyncState.code : SyncState → Nat
  | .lone => 0 | .noPartner => 1 | .waitPeer => 2 | .syncing => 3 | .insync => 4 | .linkLost => 5 | .refused => 6

end Sys2Proof
end

