-- ==== Sys2Proof/Machine/Float.lean ====
section
/-! DEFINITION. IEEE 754 binary32 as the loop engines compute it (spec/07_loop_engines.md R179, Table 7.1): round to nearest
even, no traps, subnormal operands read as zeros and subnormal results written as zeros of the same sign. -/

namespace Sys2Proof.F32

/-- Sign, exponent and fraction fields. -/
def neg (w : Word) : Bool := w.getLsbD 31
def expo (w : Word) : Nat := bits w 23 8
def frac (w : Word) : Nat := bits w 0 23

def isNaN (w : Word) : Bool := decide (expo w = 255) && decide (frac w ≠ 0)
def isInf (w : Word) : Bool := decide (expo w = 255) && decide (frac w = 0)
/-- NaN, +∞ and −∞ are not finite. -/
def isFinite (w : Word) : Bool := decide (expo w ≠ 255)
/-- A zero, or a subnormal that reads as one. -/
def isZero (w : Word) : Bool := decide (expo w = 0)

/-- A zero of a sign. -/
def zero (n : Bool) : Word := if n then 0x80000000 else 0
/-- An infinity of a sign. -/
def inf (n : Bool) : Word := if n then 0xFF800000 else 0x7F800000
/-- The NaN of an invalid operation: a quiet NaN whose payload IEEE 754 leaves open, so it is a free value (log entry 5). -/
def nan : Word := 0x7FC00000 ||| (Config.nanPayload.setWidth 32)

/-- The significand of a finite word as a signed number: the value is `man w` × 2^(`pow w`). -/
def man (w : Word) : Int :=
  if isZero w then 0 else (if neg w then -((frac w + 2 ^ 23 : Nat) : Int) else ((frac w + 2 ^ 23 : Nat) : Int))
/-- The power of two of the significand. -/
def pow (w : Word) : Int := (expo w : Int) - 150

/-- `n` × 2^`e` rounded to a whole number, to nearest even; `sticky` tells that a part below was cut off. -/
def roundShift (n : Nat) (sh : Nat) (sticky : Bool) : Nat :=
  if sh = 0 then n
  else
    let q := n >>> sh
    let r := n % 2 ^ sh
    let half := 2 ^ (sh - 1)
    if half < r ∨ (r = half ∧ (sticky = true ∨ q % 2 = 1)) then q + 1 else q

/-- The word of sign `s` nearest to `n` × 2^`e`, with `sticky` for a cut-off part; a subnormal result is a zero. -/
def pack (s : Bool) (n : Nat) (e : Int) (sticky : Bool) : Word :=
  if n = 0 then zero s
  else
    let top := (Nat.log2 n : Int) + e
    let q := max (top - 23) (-149)
    let r := if e < q then roundShift n (q - e).toNat sticky else n <<< (e - q).toNat
    if r < 2 ^ 23 then zero s
    else
      let (m, q) := if r = 2 ^ 24 then (2 ^ 23, q + 1) else (r, q)
      let ex := q + 150
      if 255 ≤ ex then inf s else (if s then (0x80000000 : Word) else 0) ||| BitVec.ofNat 32 (ex.toNat * 2 ^ 23 + (m - 2 ^ 23))

/-- The word nearest to `m` × 2^`e`; an exact zero takes the sign `z`. -/
def ofDy (m e : Int) (z : Bool) : Word := if m = 0 then zero z else pack (decide (m < 0)) m.natAbs e false

/-- The exact sum of two scaled integers, on the smaller power. -/
def addDy (m e n f : Int) : Int × Int :=
  if e ≤ f then (m + n * 2 ^ (f - e).toNat, e) else (m * 2 ^ (e - f).toNat + n, f)

/-- The negative. -/
def negate (a : Word) : Word := a ^^^ 0x80000000
/-- The magnitude. -/
def absol (a : Word) : Word := a &&& 0x7FFFFFFF

/-- An operand as it is read: a subnormal is a zero of the same sign. -/
def daz (a : Word) : Word := if isZero a then zero (neg a) else a

/-- Addition. -/
def add (a b : Word) : Word :=
  if isNaN a || isNaN b then nan
  else if isInf a && isInf b then (if neg a = neg b then a else nan)
  else if isInf a then a
  else if isInf b then b
  else
    let (m, e) := addDy (man a) (pow a) (man b) (pow b)
    ofDy m e (neg a && neg b)

/-- Subtraction. -/
def sub (a b : Word) : Word := add a (negate b)

/-- The sign of a product. -/
def psign (a b : Word) : Bool := neg a != neg b

/-- Multiplication. -/
def mul (a b : Word) : Word :=
  if isNaN a || isNaN b then nan
  else if isInf a || isInf b then (if isZero a || isZero b then nan else inf (psign a b))
  else ofDy (man a * man b) (pow a + pow b) (psign a b)

/-- a × b + c with one rounding. -/
def fma (a b c : Word) : Word :=
  if isNaN a || isNaN b || isNaN c then nan
  else if isInf a || isInf b then
    (if isZero a || isZero b then nan
     else if isInf c && (neg c != psign a b) then nan else inf (psign a b))
  else if isInf c then c
  else
    let (m, e) := addDy (man a * man b) (pow a + pow b) (man c) (pow c)
    ofDy m e (psign a b && neg c)

/-- Division. -/
def div (a b : Word) : Word :=
  if isNaN a || isNaN b then nan
  else if isInf a then (if isInf b then nan else inf (psign a b))
  else if isInf b then zero (psign a b)
  else if isZero b then (if isZero a then nan else inf (psign a b))
  else
    let n := (man a).natAbs <<< 30
    let d := (man b).natAbs
    pack (psign a b) (2 * (n / d) + (if n % d = 0 then 0 else 1)) (pow a - pow b - 31) false

/-- The integer square root of `n`, tried bit by bit from bit `k - 1` down. -/
def isqrt (n : Nat) : Nat → Nat → Nat
  | 0, r => r
  | k + 1, r => if (r + 2 ^ k) * (r + 2 ^ k) ≤ n then isqrt n k (r + 2 ^ k) else isqrt n k r

/-- Square root. -/
def sqrt (a : Word) : Word :=
  if isNaN a then nan
  else if isZero a then zero (neg a)
  else if neg a then nan
  else if isInf a then a
  else
    let odd := pow a % 2 ≠ 0
    let n := if odd then (man a).natAbs <<< 33 else (man a).natAbs <<< 32
    let e := if odd then pow a - 33 else pow a - 32
    let r := isqrt n 30 0
    pack false (2 * r + (if r * r = n then 0 else 1)) (e / 2 - 1) false

/-- A number that orders the finite words and the infinities as their values. -/
def key (a : Word) : Int :=
  let m : Int := ((daz a &&& 0x7FFFFFFF).toNat : Int)
  if neg a then -m else m

/-- Comparisons (Table 7.1: the zeros are equal; with a NaN nothing holds). -/
def lt (a b : Word) : Bool := !isNaN a && !isNaN b && decide (key a < key b)
def leq (a b : Word) : Bool := !isNaN a && !isNaN b && decide (key a ≤ key b)
def eq (a b : Word) : Bool := !isNaN a && !isNaN b && decide (key a = key b)

/-- The lesser, the greater, and the clamp to a range; a NaN propagates. -/
def fmin (a b : Word) : Word := if isNaN a || isNaN b then nan else if lt b a then daz b else daz a
def fmax (a b : Word) : Word := if isNaN a || isNaN b then nan else if lt a b then daz b else daz a
def clamp (v lo hi : Word) : Word :=
  if isNaN v || isNaN lo || isNaN hi then nan else if lt v lo then daz lo else if lt hi v then daz hi else daz v

/-- The word nearest to the rational `n` / `d`, `d` positive. -/
def ofRat (n : Int) (d : Nat) : Word :=
  if d = 0 ∨ n = 0 then 0
  else
    let a := n.natAbs <<< 64
    pack (decide (n < 0)) (2 * (a / d) + (if a % d = 0 then 0 else 1)) (-65) false

/-- The whole number that a word holds, for counts and indices (R181); 0 for a negative or a non-finite one. -/
def toNat (a : Word) : Nat :=
  if !isFinite a || neg a then 0
  else if 0 ≤ pow a then (man a).toNat <<< (pow a).toNat else (man a).toNat >>> (-pow a).toNat

/-- The word is a whole number from `lo` to `hi`. -/
def wholeIn (a : Word) (lo hi : Nat) : Bool :=
  isFinite a && eq a (ofRat (toNat a) 1) && decide (lo ≤ toNat a) && decide (toNat a ≤ hi)

/-- A number of 0.01-steps and the like, truncated: `a` × `k`, as a signed whole number, for a finite `a`. -/
def toIntScaled (a : Word) (k : Nat) : Int :=
  if !isFinite a then 0
  else if 0 ≤ pow a then man a * k * 2 ^ (pow a).toNat else (man a * k).tdiv (2 ^ (-pow a).toNat)

end Sys2Proof.F32
end

