-- ==== Sys2Proof/Machine/Law.lean ====
section
/-! DEFINITION. The law library of the loop engines, loop programs and the checks of a coefficient bank
(spec/07_loop_engines.md R180 to R185, R192 to R194). Each expression is evaluated from left to right as the equations of
the spec are written (log entry 26). -/

namespace Sys2Proof.Machine
open F32

/-- What a law step takes: effective coefficients of this sample and of the previous one, input slots, setpoint, period in
seconds and dynamic state. -/
structure LawIn where
  co : Nat → Word
  old : Nat → Word
  x : Nat → Word
  sp : Word
  t : Word
  st : Nat → Word
  bump : Bool
  init : Option Word

/-- What it gives: the law output before the clamp, the output, and the new dynamic state. -/
structure LawOut where
  v : Word
  u : Word
  st : List Word

/-- The binary32 one. -/
abbrev one32 : Word := 0x3F800000

/-- Kp, Ki and Kd of the PID forms (R182). -/
def pidGains (law : Nat) (co : Nat → Word) : Word × Word × Word :=
  if law = 0 then (co 2, co 3, co 4)
  else
    let ki := if isZero (co 3) then 0 else div (co 2) (co 3)
    let kp := if law = 2 && !isZero (co 3) then mul (co 2) (add one32 (div (co 4) (co 3))) else co 2
    (kp, ki, mul (co 2) (co 4))

/-- An error negated where REVERSE is 1 (R182). -/
def rev (r : Bool) (w : Word) : Word := if r then negate w else w

/-- `c` × r − y, of the direction of the loop. -/
def loopErr (r : Bool) (c sp y : Word) : Word := rev r (sub (mul c sp) y)

/-- The derivative term (R182): D from the previous one and the change of e_d. -/
def dTerm (kd tf t d ed ed' : Word) : Word :=
  let a := div tf (add tf t)
  add (mul a d) (div (mul (mul kd (sub one32 a)) (sub ed ed')) t)

/-- A step of a PID law (R182, R183, R194, R207): state S, D, e_d and the output before the clamp. -/
def pidStep (law : Nat) (r : Bool) (i : LawIn) : LawOut :=
  let g := pidGains law i.co
  let y := i.x 0
  let e := rev r (sub i.sp y)
  let ed := loopErr r (i.co 7) i.sp y
  let p := mul g.1 (loopErr r (i.co 6) i.sp y)
  match i.init with
  | some uref =>
    let s := clamp (sub uref p) (i.co 0) (i.co 1)
    { v := uref, u := uref, st := [s, 0, ed, uref] }
  | none =>
    let d := dTerm g.2.2 (i.co 5) i.t (i.st 1) ed (i.st 2)
    let go := pidGains law i.old
    let po := mul go.1 (loopErr r (i.old 6) i.sp y)
    let dold := dTerm go.2.2 (i.old 5) i.t (i.st 1) (loopErr r (i.old 7) i.sp y) (i.st 2)
    let s0 := if i.bump then add (i.st 0) (sub (add po dold) (add p d)) else i.st 0
    let ds := mul (mul g.2.1 i.t) e
    let v1 := add (add p (add s0 ds)) d
    let hold := (lt (i.co 1) v1 && lt 0 ds) || (lt v1 (i.co 0) && lt ds 0)
    let s := clamp (if hold then s0 else add s0 ds) (i.co 0) (i.co 1)
    let v := add (add p s) d
    { v := v, u := clamp v (i.co 0) (i.co 1), st := [s, d, ed, v] }

/-- A step of the PI law (R183, R194, R207): state S and u − v. -/
def piStep (r : Bool) (i : LawIn) : LawOut :=
  let y := i.x 0
  let e := rev r (sub i.sp y)
  let p := mul (i.co 2) (loopErr r (i.co 6) i.sp y)
  match i.init with
  | some uref => { v := uref, u := uref, st := [clamp (sub uref p) (i.co 0) (i.co 1), 0] }
  | none =>
    let po := mul (i.old 2) (loopErr r (i.old 6) i.sp y)
    let s0 := if i.bump then add (i.st 0) (sub po p) else i.st 0
    let ds := mul (mul (i.co 3) i.t) e
    let s1 := add s0 ds
    let v1 := add p s1
    let hold := (lt (i.co 1) v1 && lt 0 ds) || (lt v1 (i.co 0) && lt ds 0)
    let s2 := if isZero (i.co 4) then (if hold then s0 else s1) else add s1 (mul (div i.t (i.co 4)) (i.st 1))
    let s := clamp s2 (i.co 0) (i.co 1)
    let v := add p s
    let u := clamp v (i.co 0) (i.co 1)
    { v := v, u := u, st := [s, sub u v] }

/-- An output clamped to OLO and OHI (R181). -/
def lawOut (i : LawIn) (v : Word) (st : List Word) : LawOut := { v := v, u := clamp v (i.co 0) (i.co 1), st := st }

/-- Lead-lag (R184): state x and y of the previous sample. -/
def leadLag (i : LawIn) : LawOut :=
  let al := div 0x40000000 i.t
  let dn := add one32 (mul al (i.co 4))
  let b0 := div (mul (i.co 2) (add one32 (mul al (i.co 3)))) dn
  let b1 := div (mul (i.co 2) (sub one32 (mul al (i.co 3)))) dn
  let a1 := div (sub one32 (mul al (i.co 4))) dn
  let y := sub (add (mul b0 (i.x 0)) (mul b1 (i.st 0))) (mul a1 (i.st 1))
  lawOut i y [i.x 0, y]

/-- Second-order filter (R184). -/
def secondOrder (i : LawIn) : LawOut :=
  let x := i.x 0
  let y := add (mul (i.co 2) x) (i.st 0)
  let s1 := add (sub (mul (i.co 3) x) (mul (i.co 5) y)) (i.st 1)
  lawOut i y [s1, sub (mul (i.co 4) x) (mul (i.co 6) y)]

/-- The sum of `f 0` to `f (n - 1)`, from the left. -/
def fsum (f : Nat → Word) : Nat → Word
  | 0 => 0
  | n + 1 => if n = 0 then f 0 else add (fsum f n) (f n)

/-- State-space (R184): A row by row from word 2, then B, C and D. -/
def stateSpace (n m : Nat) (i : LawIn) : LawOut :=
  let b := 2 + n * n
  let c := b + n * m
  let d := c + n
  let v := add (fsum (fun j => mul (i.co (c + j)) (i.st j)) n) (fsum (fun j => mul (i.co (d + j)) (i.x j)) m)
  let row (j : Nat) : Word :=
    add (fsum (fun q => mul (i.co (2 + n * j + q)) (i.st q)) n) (fsum (fun q => mul (i.co (b + m * j + q)) (i.x q)) m)
  lawOut i v ((List.range n).map row)

/-- The highest of the points 0 to `n` whose abscissa is at most `x`; 0 where there is none. -/
def pointAt (ab : Nat → Word) (x : Word) : Nat → Nat
  | 0 => 0
  | n + 1 => if leq (ab (n + 1)) x then n + 1 else pointAt ab x n

/-- Characteriser (R184). -/
def characteriser (i : LawIn) : LawOut :=
  let n := toNat (i.co 2)
  let xs (j : Nat) : Word := i.co (3 + j)
  let ys (j : Nat) : Word := i.co (3 + n + j)
  let x := i.x 0
  let j := pointAt xs x (n - 1)
  let v := if isNaN x then x else if lt x (xs 0) then ys 0
    else if j + 1 = n then ys j
    else add (ys j) (mul (div (sub x (xs j)) (sub (xs (j + 1)) (xs j))) (sub (ys (j + 1)) (ys j)))
  lawOut i v []

/-- Ramp and rate limiter (R184, R207). -/
def ramp (i : LawIn) : LawOut :=
  match i.init with
  | some uref => { v := uref, u := uref, st := [uref] }
  | none =>
    let dx := sub (i.x 0) (i.st 0)
    let up := mul (i.co 2) i.t
    let dn := negate (mul (i.co 3) i.t)
    let a := if !isZero (i.co 2) && lt up dx then up else dx
    let b := if !isZero (i.co 3) && lt a dn then dn else a
    let v := add (i.st 0) b
    lawOut i v [v]

/-- Feedforward summation (R184). -/
def feedforward (k : Nat) (i : LawIn) : LawOut :=
  lawOut i ((List.range k).foldl (fun v j => add v (mul (i.co (3 + j)) (i.x j))) (i.co 2)) []

/-! Loop programs (R185, Table 7.4). -/

/-- What a loop program works on. -/
structure Prg where
  f : Tab Word
  p : Tab Bool
  st : Tab Word
  out : Option Word

/-- One instruction, its predicate true. -/
def Prg.op (q : Prg) (co x : Nat → Word) (i : LIns) : Prg :=
  let r (n : Nat) : Word := q.f.look n (Config.freeReg n)
  let pr (n : Nat) : Bool := q.p.look n (Config.freeBit n)
  let set (w : Word) : Prg := { q with f := q.f.put i.d w }
  let setp (b : Bool) : Prg := { q with p := q.p.put i.d b }
  match i.op with
  | 0 => set (x i.a)
  | 1 => set (co i.a)
  | 2 => set (q.st.look i.a 0)
  | 3 => { q with st := q.st.put i.a (daz (r i.d)) }
  | 4 => set (r i.a)
  | 5 => set (negate (r i.a))
  | 6 => set (absol (r i.a))
  | 7 => set (add (r i.a) (r i.b))
  | 8 => set (sub (r i.a) (r i.b))
  | 9 => set (mul (r i.a) (r i.b))
  | 10 => set (fma (r i.a) (r i.b) (r i.c))
  | 11 => set (fmin (r i.a) (r i.b))
  | 12 => set (fmax (r i.a) (r i.b))
  | 13 => set (clamp (r i.a) (r i.b) (r i.c))
  | 14 => setp (lt (r i.a) (r i.b))
  | 15 => setp (leq (r i.a) (r i.b))
  | 16 => setp (eq (r i.a) (r i.b))
  | 17 => setp (pr i.a && pr i.b)
  | 18 => setp (pr i.a || pr i.b)
  | 19 => setp (!pr i.a)
  | 20 => set (if pr i.c then r i.a else r i.b)
  | 21 => set (div (r i.a) (r i.b))
  | 22 => set (sqrt (r i.a))
  | _ => { q with out := some (r i.d) }

/-- One instruction: with a false predicate it changes nothing (R185). -/
def Prg.step (co x : Nat → Word) (q : Prg) (i : LIns) : Prg :=
  match i.pred with
  | none => q.op co x i
  | some n => if q.p.look n (Config.freeBit n) != i.inv then q.op co x i else q

/-- A loop program's step (R185, R207). -/
def program (prog : List LIns) (i : LawIn) : LawOut :=
  let st : Tab Word := (List.range 32).map fun j => (j, i.st j)
  match i.init with
  | some uref => { v := uref, u := uref, st := [uref, i.x 0] ++ ((st.drop 2).map Prod.snd) }
  | none =>
    let q0 : Prg := { f := [], p := [], st := st, out := none }
    let q : Prg := prog.foldl (fun (z : Prg) k => z.step i.co i.x k) q0
    lawOut i (q.out.getD 0) (q.st.map Prod.snd)

/-- One step of a loop's law (R180). -/
def lawStep (c : LoopCfg) (i : LawIn) : LawOut :=
  match c.law with
  | 0 | 1 | 2 => pidStep c.law c.reverse i
  | 3 => piStep c.reverse i
  | 4 => leadLag i
  | 5 => secondOrder i
  | 6 => stateSpace c.n c.m i
  | 7 => characteriser i
  | 8 => ramp i
  | 9 => feedforward c.k i
  | _ => program c.prog i

/-- The clocks of one instruction (Table 7.4). -/
def LIns.clocks (i : LIns) : Nat :=
  if i.op ≤ 3 ∨ i.op = 23 then 2 else if i.op = 21 ∨ i.op = 22 then 8 else 1

/-- The clocks of a step (R180, Table 7.2). -/
def LoopCfg.cost (c : LoopCfg) : Nat :=
  (match c.law with
   | 0 => 50
   | 1 => 52
   | 2 => 56
   | 3 => 32
   | 4 => 26
   | 5 => 30
   | 6 => 20 + c.n * (c.n + c.m) + c.n + c.m
   | 7 => 36
   | 8 => 24
   | 9 => 16 + 2 * c.k
   | _ => 12 + (c.prog.map LIns.clocks).sum) + (if c.sched then (if c.linear then 14 else 10) else 0)

/-- The dynamic state words of a law (Table 7.2). -/
def LoopCfg.words (c : LoopCfg) : Nat :=
  match c.law with
  | 0 | 1 | 2 => 4
  | 3 | 4 | 5 => 2
  | 6 => c.n
  | 7 | 9 => 0
  | 8 => 1
  | _ => 32

/-- The bank words that a law uses (Table 7.2). -/
def LoopCfg.bankWords (c : LoopCfg) (bank : Nat → Word) : Nat :=
  match c.law with
  | 0 | 1 | 2 => 8
  | 3 | 5 => 7
  | 4 => 5
  | 6 => 2 + c.n * c.n + c.n * c.m + c.n + c.m
  | 7 => 3 + 2 * toNat (bank 2)
  | 8 => 4
  | 9 => 3 + c.k
  | _ => if c.sched then 32 else 128

/-! The checks of a bank (Tables 7.8, R193). -/

/-- Rising strictly: `ab 0` to `ab n`. -/
def rising (ab : Nat → Word) : Nat → Bool
  | 0 => true
  | n + 1 => lt (ab n) (ab (n + 1)) && rising ab n

/-- `w` is finite and at least 0. -/
def nonNeg (w : Word) : Bool := isFinite w && leq 0 w
/-- `w` lies in [0, 1]. -/
def inUnit (w : Word) : Bool := leq 0 w && leq w one32

/-- The condition of Table 7.8 on word `j` of a law alone; word 5 of PI is unused (Table 7.3). -/
def wordOk (law j : Nat) (w : Word) : Bool :=
  (decide (law = 3) && decide (j = 5)) || isFinite w && (match law with
    | 0 => if j = 5 then nonNeg w else if j = 6 ∨ j = 7 then inUnit w else true
    | 1 | 2 => if j = 3 ∨ j = 4 ∨ j = 5 then nonNeg w else if j = 6 ∨ j = 7 then inUnit w else true
    | 3 => if j = 4 then nonNeg w else if j = 6 then inUnit w else true
    | 4 => if j = 3 ∨ j = 4 then nonNeg w else true
    | 8 => if j = 2 ∨ j = 3 then nonNeg w else true
    | _ => true)

/-- The laws that may be scheduled (R193). -/
def schedLaw (law : Nat) : Bool := decide (law ≤ 5) || decide (law = 9) || decide (law = 16)

/-- The scheduled word `q` (0 to 3) of a bank: 0 for none. -/
def schedWord (bank : Nat → Word) (q : Nat) : Nat := toNat (bank (33 + q))

/-- The schedule of a bank (R193). -/
def schedOk (c : LoopCfg) (bank : Nat → Word) : Bool :=
  let r := toNat (bank 32)
  schedLaw c.law && wholeIn (bank 32) 2 16 &&
    ((List.range 4).all fun q => wholeIn (bank (33 + q)) 0 31 && decide (schedWord bank q ≠ 1)) &&
    ((List.range r).all fun i => isFinite (bank (40 + 5 * i)) &&
      (List.range 4).all fun q => decide (schedWord bank q = 0) || wordOk c.law (schedWord bank q) (bank (41 + 5 * i + q))) &&
    rising (fun i => bank (40 + 5 * i)) (r - 1)

/-- A bank is valid as a whole (R192, Table 7.8). -/
def bankOk (c : LoopCfg) (bank : Nat → Word) : Bool :=
  ((List.range (min 128 (c.bankWords bank))).all fun j => wordOk c.law j (bank j)) && lt (bank 0) (bank 1) &&
    (c.law != 7 || (wholeIn (bank 2) 2 32 && rising (fun j => bank (3 + j)) (toNat (bank 2) - 1))) &&
    (!c.sched || schedOk c bank)

/-- The point of a schedule and the fraction to the next one, for the scheduling variable `s` (R193): the fraction is 0
with step interpolation and beyond the ends. -/
def schedAt (c : LoopCfg) (bank : Nat → Word) (s : Word) : Nat × Word :=
  let r := toNat (bank 32)
  let ab (i : Nat) : Word := bank (40 + 5 * i)
  let i := pointAt ab s (r - 1)
  if !c.linear || lt s (ab 0) || decide (i + 1 = r) then (i, 0)
  else (i, div (sub s (ab i)) (sub (ab (i + 1)) (ab i)))

/-- The effective word `j` of a bank (R193). -/
def effWord (c : LoopCfg) (bank : Nat → Word) (at_ : Nat × Word) (j : Nat) : Word :=
  if !c.sched then bank j
  else match (List.range 4).find? fun q => decide (schedWord bank q = j) && decide (2 ≤ j) with
    | none => bank j
    | some q =>
      let v (i : Nat) : Word := bank (41 + 5 * i + q)
      if isZero at_.2 then v at_.1 else add (v at_.1) (mul at_.2 (sub (v (at_.1 + 1)) (v at_.1)))

/-- The period in seconds (R181). -/
def LoopCfg.secs (c : LoopCfg) : Word := ofRat (25 * c.period) 1000000

/-- The period in ns. -/
def LoopCfg.ns (c : LoopCfg) : Nat := 25000 * c.period

/-- The crease offset in ns, truncated to a whole 2 ns (R186). -/
def LoopCfg.creaseNs (c : LoopCfg) : Nat := c.ns * c.crease / 1000 / 2 * 2

end Sys2Proof.Machine
end

