-- ==== Sys2Proof/Machine/State.lean ====
section
/-! DEFINITION. The state of the module, the reasons a step can stop, and the state right after reset. -/

namespace Sys2Proof.Machine

/-- The reasons a command stops with a fault. Both are safe: the spec gives a host access no effect outside its BAR
(spec/03_register_conventions.md R61, R86; spec/04_host_rings.md R94), and the model stops. -/
inductive Fault where
  /-- Raised by a register, alias or doorbell write at an offset its BAR does not have. Safe. -/
  | outsideBar
  /-- Raised by a write that does not start at a whole 32-bit word. Safe. -/
  | notWordAligned
deriving DecidableEq, Repr

/-- The reasons a command has no meaning. Safe: the model stops. -/
inductive Refusal where
  /-- Raised by an arm of exec whose command is not modelled yet. Safe. -/
  | notModelled (mnemonic : String)
deriving DecidableEq, Repr

/-- The state of the module: every block, the register copies, what has left the module, and the waiting commands. -/
structure State where

  /-- The SYS block and what R89 to R92 keep behind it. -/
  sys : Sys := Sys.reset
  /-- The HIF block and the host work it holds (chapter 04). -/
  hif : Hif := Hif.reset
  /-- The CYC block (Table 5.10). -/
  cyc : Cyc := Cyc.reset
  /-- One AP pair (Tables 6.5 to 6.8). -/
  lsp : Tab Pair := []
  /-- The CLE block (Table 7.14). -/
  cle : Cle := Cle.reset
  /-- The program store and the online change in progress (chapter 08). -/
  chg : Change := Change.reset
  /-- The DPX block and the baste link (chapter 09). -/
  dpx : Dpx := Dpx.reset
  /-- The pair: counters, records, takeover and exchange (chapter 09). -/
  dpx2 : Dpx2 := Dpx2.reset
  /-- What a standby holds of one class: the received buffers (R244). -/
  mir : Tab MirCls := []
  /-- The NET block (Table 10.8). -/
  net : Net := Net.reset
  /-- The TIM block (Table 11.6). -/
  tim : Tim := Tim.reset
  /-- One CAN channel (Table 12.12). -/
  can : Tab Can := []
  /-- The queues of one CAN channel in the owner's memory (Tables 12.6, 12.7): 0 TXQ, 1 RXQ0, 2 RXQ1. -/
  canq : Tab CanQ := []
  /-- The FIO block (Table 13.4). -/
  fio : Fio := Fio.reset
  /-- The SAF block (Table 14.7). -/
  saf : Saf := Saf.reset
  /-- The Tally (chapter 15). -/
  tly : Tly := Tly.reset
  /-- The MEM block (Table 16.3) and the DRAM contents that carry errors. -/
  mm : Mm := Mm.reset
  /-- The BOOT block, banks and stores (chapter 17). -/
  boot : Boot := Boot.reset
  /-- The PWR block (Tables 18.16, 18.17). -/
  pwr : Pwr := Pwr.reset
  /-- The RET island (R35, R36). -/
  ret : Ret := Ret.reset
  /-- The module configuration in force (section 0x21 and its companions; their byte layouts are Ehrim Workbench's). -/
  cfg : Cfg := Cfg.reset
  /-- The application program in force (chapters 05 and 08). -/
  prog : Prog := Prog.reset
  /-- Current value or staging copy of the registers without a field of their own, by BAR0 offset (R62). -/
  regs : Tab Word := []
  /-- Live copy of the RWP registers, by BAR0 offset (R80). -/
  live : Tab Word := []
  /-- The three copies of the RWV registers, by BAR0 offset (R76). -/
  votes : Tab Vote := []
  /-- The press control of each press group, by BAR0 offset (R80). -/
  press : Tab Press := []
  /-- BLOCK_PSTAT of each posted block and CAN channel, by base (R70). -/
  posted : Tab Posted := []
  /-- What has left the module, oldest first: the model's own (log entry 4). -/
  outbox : List Out := []
  /-- Counter of the free values drawn: the model's own (log entry 5). -/
  freeN : Nat := 0
  /-- The commands waiting, first in, first out. -/
  pending : List Instr := []
deriving DecidableEq, Repr

/-- The module right after reset: every field at its reset value, no command waiting. A register that no table lists
reads the Reset column of its register map (Registers.lean). -/
def State.reset : State := {}

end Sys2Proof.Machine
end

