-- ==== Sys2Proof/Machine/Registers.lean ====
section
/-! DEFINITION. The register maps of the fifteen blocks (Tables 3.9, 4.12, 5.10, 6.5, 7.14, 9.8, 10.8, 11.6, 12.12, 13.4,
14.7, 15.6, 16.3, 17.10, 18.16), one row per register or register array, and the copies State holds of them. -/

namespace Sys2Proof.Machine

/-- The access codes of spec/03_register_conventions.md Table 3.2, and the press controls of Table 3.6. -/
inductive Acc where
  | ro | rw | wo | rwp | rwv | rwk | press
deriving DecidableEq, Repr

/-- A row of a register map: BAR0 offset of its first register, array stride and count, access code, the bits that are
not reserved, the reset value, and the offset of its press control (0: none), which has the same stride. -/
structure RegRow where
  off : Nat
  stride : Nat
  count : Nat
  acc : Acc
  mask : Word
  rst : Word
  press : Nat
deriving DecidableEq, Repr

/-- The register map of the block at 0x000000 (spec/03_register_conventions.md Table 3.1). -/
def sysMap : List RegRow := [
  ⟨0x000000, 0x0, 1, .ro, 0x0, 0x470143, 0x0⟩,  -- SYS_ID
  ⟨0x000004, 0x0, 1, .ro, 0x0, 0x0, 0x0⟩,  -- SYS_UID_LO
  ⟨0x000008, 0x0, 1, .ro, 0x0, 0x0, 0x0⟩,  -- SYS_UID_HI
  ⟨0x00000C, 0x0, 1, .ro, 0x0, 0x0, 0x0⟩,  -- SYS_SLOT
  ⟨0x000010, 0x0, 1, .ro, 0x0, 0x1, 0x0⟩,  -- SYS_MODE
  ⟨0x000014, 0x0, 1, .ro, 0x0, 0x4C044, 0x0⟩,  -- SYS_CAP
  ⟨0x000018, 0x0, 1, .ro, 0x0, 0x0, 0x0⟩,  -- SYS_FAULT
  ⟨0x00001C, 0x0, 1, .ro, 0x0, 0x0, 0x0⟩,  -- SYS_VOTE_ADDR
  ⟨0x000020, 0x0, 1, .ro, 0x0, 0x0, 0x0⟩,  -- SYS_VOTEFIX
  ⟨0x000024, 0x0, 1, .ro, 0x0, 0x0, 0x0⟩,  -- SYS_VOTEFAIL
  ⟨0x000028, 0x0, 1, .ro, 0x0, 0x0, 0x0⟩,  -- SYS_ACCFAULT
  ⟨0x00002C, 0x0, 1, .ro, 0x0, 0x0, 0x0⟩,  -- SYS_ACCADDR
  ⟨0x000030, 0x0, 1, .ro, 0x0, 0x0, 0x0⟩,  -- SYS_OPTIME_LO
  ⟨0x000034, 0x0, 1, .ro, 0x0, 0x0, 0x0⟩,  -- SYS_OPTIME_HI
  ⟨0x000038, 0x0, 1, .ro, 0x0, 0x0, 0x0⟩,  -- SYS_PWRCYC
  ⟨0x00003C, 0x0, 1, .ro, 0x0, 0x3FFF, 0x0⟩,  -- SYS_ISLAND
  ⟨0x000040, 0x0, 1, .rw, 0xFFFFFFFF, 0x0, 0x0⟩,  -- SYS_SCRATCH
  ⟨0x000044, 0x0, 1, .wo, 0xFFFFFFFF, 0x0, 0x0⟩,  -- SYS_RESTART
  ⟨0x000050, 0x0, 1, .rwp, 0xFFFFFFFF, 0x3E8, 0x58⟩,  -- SYS_HLW_TIME
  ⟨0x000054, 0x0, 1, .rwp, 0x1, 0x0, 0x58⟩,  -- SYS_HLW_MODE
  ⟨0x000058, 0x0, 1, .press, 0x1, 0x0, 0x0⟩,  -- SYS_HLW_PRESS
  ⟨0x00005C, 0x0, 1, .wo, 0xFFFFFFFF, 0x0, 0x0⟩]  -- SYS_HLW_KICK

/-- The register map of the block at 0x010000 (spec/03_register_conventions.md Table 3.1). -/
def hifMap : List RegRow := [
  ⟨0x010000, 0x0, 1, .ro, 0x0, 0x0, 0x0⟩,  -- HIF_STAT
  ⟨0x010004, 0x0, 1, .ro, 0x0, 0x0, 0x0⟩,  -- HIF_LINK
  ⟨0x010008, 0x0, 1, .rwp, 0x1, 0x0, 0x1000C⟩,  -- HIF_CTRL
  ⟨0x01000C, 0x0, 1, .press, 0x1, 0x0, 0x0⟩,  -- HIF_PRESS
  ⟨0x010010, 0x0, 1, .rwp, 0xFFFFFFFF, 0x0, 0x1000C⟩,  -- HIF_AQ_SQBASE_LO
  ⟨0x010014, 0x0, 1, .rwp, 0xFFFFFFFF, 0x0, 0x1000C⟩,  -- HIF_AQ_SQBASE_HI
  ⟨0x010018, 0x0, 1, .rwp, 0xFFFFFFFF, 0x0, 0x1000C⟩,  -- HIF_AQ_CQBASE_LO
  ⟨0x01001C, 0x0, 1, .rwp, 0xFFFFFFFF, 0x0, 0x1000C⟩,  -- HIF_AQ_CQBASE_HI
  ⟨0x010020, 0x0, 1, .rwp, 0x3F1F1F, 0x0, 0x1000C⟩,  -- HIF_AQ_SIZE
  ⟨0x010024, 0x0, 1, .ro, 0x0, 0x0, 0x0⟩,  -- HIF_RING_HALT
  ⟨0x010028, 0x0, 1, .ro, 0x0, 0x0, 0x0⟩,  -- HIF_RING_LIVE
  ⟨0x01002C, 0x0, 1, .ro, 0x0, 0x0, 0x0⟩,  -- HIF_ERRINFO
  ⟨0x010030, 0x0, 1, .ro, 0x0, 0x0, 0x0⟩,  -- HIF_DMAERR
  ⟨0x010034, 0x0, 1, .ro, 0x0, 0x0, 0x0⟩,  -- HIF_DUPCNT
  ⟨0x010038, 0x0, 1, .ro, 0x0, 0x0, 0x0⟩,  -- HIF_STALECNT
  ⟨0x01003C, 0x0, 1, .ro, 0x0, 0x0, 0x0⟩,  -- HIF_JRNL
  ⟨0x010040, 0x0, 1, .ro, 0x0, 0x0, 0x0⟩,  -- HIF_EVTLOST
  ⟨0x010100, 0x10, 17, .ro, 0x0, 0x0, 0x0⟩,  -- HIF_HIGH_LO
  ⟨0x010104, 0x10, 17, .ro, 0x0, 0x0, 0x0⟩,  -- HIF_HIGH_HI
  ⟨0x010108, 0x10, 17, .ro, 0x0, 0x0, 0x0⟩,  -- HIF_SQHEAD
  ⟨0x01010C, 0x10, 18, .ro, 0x0, 0x0, 0x0⟩]  -- HIF_CQTAIL

/-- The register map of the block at 0x020000 (spec/03_register_conventions.md Table 3.1). -/
def cycMap : List RegRow := [
  ⟨0x020000, 0x0, 1, .ro, 0x0, 0x0, 0x0⟩,  -- CYC_STAT
  ⟨0x020008, 0x0, 1, .ro, 0x0, 0x0, 0x0⟩,  -- CYC_FORCES
  ⟨0x02000C, 0x0, 1, .ro, 0x0, 0x0, 0x0⟩,  -- CYC_PENDWR
  ⟨0x020020, 0x4, 4, .ro, 0x0, 0x0, 0x0⟩,  -- CYC_PAIR_LOAD
  ⟨0x020100, 0x40, 8, .ro, 0x0, 0x0, 0x0⟩,  -- CYC_CLS_CFG
  ⟨0x020104, 0x40, 8, .ro, 0x0, 0x0, 0x0⟩,  -- CYC_CLS_CYCLE
  ⟨0x02010C, 0x40, 8, .rwp, 0xFFFFFFFF, 0x0, 0x20118⟩,  -- CYC_CLS_SOFT
  ⟨0x020110, 0x40, 8, .rwp, 0xFFFFFFFF, 0x0, 0x20118⟩,  -- CYC_CLS_HARD
  ⟨0x020114, 0x40, 8, .rwp, 0xFF, 0x8, 0x20118⟩,  -- CYC_CLS_SKIPMAX
  ⟨0x020118, 0x40, 8, .press, 0x1, 0x0, 0x0⟩,  -- CYC_CLS_PRESS
  ⟨0x02011C, 0x40, 8, .ro, 0x0, 0x0, 0x0⟩,  -- CYC_CLS_STAT
  ⟨0x020120, 0x40, 8, .ro, 0x0, 0x0, 0x0⟩,  -- CYC_CLS_CYCNO_LO
  ⟨0x020124, 0x40, 8, .ro, 0x0, 0x0, 0x0⟩,  -- CYC_CLS_CYCNO_HI
  ⟨0x020128, 0x40, 8, .ro, 0x0, 0x0, 0x0⟩,  -- CYC_CLS_EXEC
  ⟨0x02012C, 0x40, 8, .ro, 0x0, 0x0, 0x0⟩,  -- CYC_CLS_EXECMAX
  ⟨0x020130, 0x40, 8, .ro, 0x0, 0x0, 0x0⟩,  -- CYC_CLS_OVRCNT
  ⟨0x020134, 0x40, 8, .ro, 0x0, 0x0, 0x0⟩,  -- CYC_CLS_LATECNT
  ⟨0x020138, 0x40, 8, .ro, 0x0, 0x0, 0x0⟩,  -- CYC_CLS_SKIPCNT
  ⟨0x02013C, 0x40, 8, .ro, 0x0, 0x0, 0x0⟩]  -- CYC_CLS_ERRTASK

/-- The register map of the block at 0x030000 (spec/03_register_conventions.md Table 3.1). -/
def lspMap : List RegRow := [
  ⟨0x030000, 0x0, 1, .ro, 0x0, 0x0, 0x0⟩,  -- LSP_STAT
  ⟨0x030100, 0x80, 4, .ro, 0x0, 0x10, 0x0⟩,  -- LSP_PAIR_STAT
  ⟨0x030104, 0x80, 4, .rwp, 0xFFFFFFFF, 0x64, 0x30108⟩,  -- LSP_PAIR_CKINT
  ⟨0x030108, 0x80, 4, .press, 0x1, 0x0, 0x0⟩,  -- LSP_PAIR_PRESS
  ⟨0x03010C, 0x80, 4, .ro, 0x0, 0x0, 0x0⟩,  -- LSP_PAIR_CKMAX
  ⟨0x030110, 0x80, 4, .rwv, 0xFFFF, 0x20, 0x0⟩,  -- LSP_PAIR_DARNLIM
  ⟨0x030114, 0x80, 4, .ro, 0x0, 0x0, 0x0⟩,  -- LSP_PAIR_DARNCNT
  ⟨0x030118, 0x80, 4, .ro, 0x0, 0x0, 0x0⟩,  -- LSP_PAIR_DARNHR
  ⟨0x03011C, 0x80, 4, .ro, 0x0, 0x0, 0x0⟩,  -- LSP_PAIR_CKPTCNT
  ⟨0x030120, 0x80, 4, .ro, 0x0, 0x0, 0x0⟩,  -- LSP_PAIR_EARLYCNT
  ⟨0x030124, 0x80, 4, .ro, 0x0, 0x0, 0x0⟩,  -- LSP_PAIR_FILLMAX
  ⟨0x030128, 0x80, 4, .ro, 0x0, 0x0, 0x0⟩,  -- LSP_PAIR_MMINFO
  ⟨0x03012C, 0x80, 4, .ro, 0x0, 0x0, 0x0⟩,  -- LSP_PAIR_MMTIME
  ⟨0x030130, 0x80, 4, .ro, 0x0, 0x0, 0x0⟩,  -- LSP_PAIR_RESTMAX
  ⟨0x030134, 0x80, 4, .wo, 0x7, 0x0, 0x0⟩,  -- LSP_PAIR_DBG_CTRL
  ⟨0x030138, 0x80, 4, .ro, 0x0, 0x0, 0x0⟩,  -- LSP_PAIR_DBG_STAT
  ⟨0x03013C, 0x80, 4, .ro, 0x0, 0x0, 0x0⟩,  -- LSP_PAIR_DBG_PC
  ⟨0x030140, 0x80, 4, .rw, 0xFFFFFFFD, 0x0, 0x0⟩,  -- LSP_PAIR_BP0
  ⟨0x030144, 0x80, 4, .rw, 0xFFFFFFFD, 0x0, 0x0⟩,  -- LSP_PAIR_BP1
  ⟨0x030148, 0x80, 4, .rw, 0xFFFFFFFD, 0x0, 0x0⟩,  -- LSP_PAIR_BP2
  ⟨0x03014C, 0x80, 4, .rw, 0xFFFFFFFD, 0x0, 0x0⟩]  -- LSP_PAIR_BP3

/-- The register map of the block at 0x040000 (spec/03_register_conventions.md Table 3.1). -/
def cleMap : List RegRow := [
  ⟨0x040000, 0x0, 1, .ro, 0x0, 0x0, 0x0⟩,  -- CLE_STAT
  ⟨0x040010, 0x4, 4, .ro, 0x0, 0x0, 0x0⟩,  -- CLE_ENG_LOAD
  ⟨0x040020, 0x4, 4, .ro, 0x0, 0xFFFFFFFF, 0x0⟩,  -- CLE_ENG_SLACK
  ⟨0x040030, 0x4, 4, .ro, 0x0, 0x0, 0x0⟩,  -- CLE_ENG_ENTRIES
  ⟨0x040040, 0x4, 4, .ro, 0x0, 0x0, 0x0⟩,  -- CLE_ENG_NANIN
  ⟨0x040050, 0x4, 2, .ro, 0x0, 0x0, 0x0⟩,  -- CLE_CHKMM
  ⟨0x040400, 0x100, 8, .rw, 0xFFF, 0x0, 0x0⟩,  -- CLE_WIN_SEL
  ⟨0x040404, 0x100, 8, .ro, 0x0, 0x0, 0x0⟩,  -- CLE_LOOP
  ⟨0x040408, 0x100, 8, .ro, 0x0, 0x0, 0x0⟩,  -- CLE_LOOP_TIMING
  ⟨0x04040C, 0x100, 8, .ro, 0x0, 0x0, 0x0⟩,  -- CLE_LOOP_STAT
  ⟨0x040410, 0x100, 8, .rwp, 0xFFFFFFFF, 0x0, 0x40428⟩,  -- CLE_LOOP_SP
  ⟨0x040414, 0x100, 8, .rwp, 0xFFFFFFFF, 0x0, 0x40428⟩,  -- CLE_LOOP_MOUT
  ⟨0x040418, 0x100, 8, .rwp, 0xFFFFFFFF, 0x0, 0x40428⟩,  -- CLE_LOOP_SAFE
  ⟨0x04041C, 0x100, 8, .rwp, 0xFFFFFFFF, 0x0, 0x40428⟩,  -- CLE_LOOP_SATTIME
  ⟨0x040420, 0x100, 8, .rwp, 0xFFFFFFFF, 0x0, 0x40428⟩,  -- CLE_LOOP_FRZTIME
  ⟨0x040424, 0x100, 8, .rwp, 0x1F, 0x0, 0x40428⟩,  -- CLE_LOOP_ACTION
  ⟨0x040428, 0x100, 8, .press, 0x1, 0x0, 0x0⟩,  -- CLE_LOOP_PRESS
  ⟨0x04042C, 0x100, 8, .press, 0x1, 0x0, 0x0⟩,  -- CLE_LOOP_BPRESS
  ⟨0x040430, 0x100, 8, .wo, 0x7, 0x0, 0x0⟩,  -- CLE_LOOP_CMD
  ⟨0x040434, 0x100, 8, .ro, 0x0, 0x0, 0x0⟩,  -- CLE_LOOP_OUT
  ⟨0x040438, 0x100, 8, .ro, 0x0, 0x0, 0x0⟩,  -- CLE_LOOP_FB
  ⟨0x04043C, 0x100, 8, .ro, 0x0, 0x0, 0x0⟩,  -- CLE_LOOP_STATE0
  ⟨0x040440, 0x100, 8, .rwp, 0xFFFFFFFF, 0x0, 0x4042C⟩,  -- CLE_LOOP_COEF
  ⟨0x040444, 0x100, 8, .rwp, 0xFFFFFFFF, 0x0, 0x4042C⟩,  -- CLE_LOOP_COEF
  ⟨0x040448, 0x100, 8, .rwp, 0xFFFFFFFF, 0x0, 0x4042C⟩,  -- CLE_LOOP_COEF
  ⟨0x04044C, 0x100, 8, .rwp, 0xFFFFFFFF, 0x0, 0x4042C⟩,  -- CLE_LOOP_COEF
  ⟨0x040450, 0x100, 8, .rwp, 0xFFFFFFFF, 0x0, 0x4042C⟩,  -- CLE_LOOP_COEF
  ⟨0x040454, 0x100, 8, .rwp, 0xFFFFFFFF, 0x0, 0x4042C⟩,  -- CLE_LOOP_COEF
  ⟨0x040458, 0x100, 8, .rwp, 0xFFFFFFFF, 0x0, 0x4042C⟩,  -- CLE_LOOP_COEF
  ⟨0x04045C, 0x100, 8, .rwp, 0xFFFFFFFF, 0x0, 0x4042C⟩,  -- CLE_LOOP_COEF
  ⟨0x040460, 0x100, 8, .rwp, 0xFFFFFFFF, 0x0, 0x4042C⟩,  -- CLE_LOOP_COEF
  ⟨0x040464, 0x100, 8, .rwp, 0xFFFFFFFF, 0x0, 0x4042C⟩,  -- CLE_LOOP_COEF
  ⟨0x040468, 0x100, 8, .rwp, 0xFFFFFFFF, 0x0, 0x4042C⟩,  -- CLE_LOOP_COEF
  ⟨0x04046C, 0x100, 8, .rwp, 0xFFFFFFFF, 0x0, 0x4042C⟩,  -- CLE_LOOP_COEF
  ⟨0x040470, 0x100, 8, .rwp, 0xFFFFFFFF, 0x0, 0x4042C⟩,  -- CLE_LOOP_COEF
  ⟨0x040474, 0x100, 8, .rwp, 0xFFFFFFFF, 0x0, 0x4042C⟩,  -- CLE_LOOP_COEF
  ⟨0x040478, 0x100, 8, .rwp, 0xFFFFFFFF, 0x0, 0x4042C⟩,  -- CLE_LOOP_COEF
  ⟨0x04047C, 0x100, 8, .rwp, 0xFFFFFFFF, 0x0, 0x4042C⟩,  -- CLE_LOOP_COEF
  ⟨0x040480, 0x100, 8, .ro, 0x0, 0x0, 0x0⟩,  -- CLE_LOOP_ACOEF
  ⟨0x040484, 0x100, 8, .ro, 0x0, 0x0, 0x0⟩,  -- CLE_LOOP_ACOEF
  ⟨0x040488, 0x100, 8, .ro, 0x0, 0x0, 0x0⟩,  -- CLE_LOOP_ACOEF
  ⟨0x04048C, 0x100, 8, .ro, 0x0, 0x0, 0x0⟩,  -- CLE_LOOP_ACOEF
  ⟨0x040490, 0x100, 8, .ro, 0x0, 0x0, 0x0⟩,  -- CLE_LOOP_ACOEF
  ⟨0x040494, 0x100, 8, .ro, 0x0, 0x0, 0x0⟩,  -- CLE_LOOP_ACOEF
  ⟨0x040498, 0x100, 8, .ro, 0x0, 0x0, 0x0⟩,  -- CLE_LOOP_ACOEF
  ⟨0x04049C, 0x100, 8, .ro, 0x0, 0x0, 0x0⟩,  -- CLE_LOOP_ACOEF
  ⟨0x0404A0, 0x100, 8, .ro, 0x0, 0x0, 0x0⟩,  -- CLE_LOOP_ACOEF
  ⟨0x0404A4, 0x100, 8, .ro, 0x0, 0x0, 0x0⟩,  -- CLE_LOOP_ACOEF
  ⟨0x0404A8, 0x100, 8, .ro, 0x0, 0x0, 0x0⟩,  -- CLE_LOOP_ACOEF
  ⟨0x0404AC, 0x100, 8, .ro, 0x0, 0x0, 0x0⟩,  -- CLE_LOOP_ACOEF
  ⟨0x0404B0, 0x100, 8, .ro, 0x0, 0x0, 0x0⟩,  -- CLE_LOOP_ACOEF
  ⟨0x0404B4, 0x100, 8, .ro, 0x0, 0x0, 0x0⟩,  -- CLE_LOOP_ACOEF
  ⟨0x0404B8, 0x100, 8, .ro, 0x0, 0x0, 0x0⟩,  -- CLE_LOOP_ACOEF
  ⟨0x0404BC, 0x100, 8, .ro, 0x0, 0x0, 0x0⟩,  -- CLE_LOOP_ACOEF
  ⟨0x0404C0, 0x100, 8, .ro, 0x0, 0x0, 0x0⟩,  -- CLE_LOOP_SCHED
  ⟨0x0404C4, 0x100, 8, .ro, 0x0, 0x0, 0x0⟩,  -- CLE_LOOP_CNT
  ⟨0x0404C8, 0x100, 8, .ro, 0x0, 0x0, 0x0⟩,  -- CLE_LOOP_SPL
  ⟨0x0404CC, 0x100, 8, .ro, 0x0, 0x0, 0x0⟩,  -- CLE_LOOP_MOUTL
  ⟨0x041000, 0x4, 128, .ro, 0x0, 0x0, 0x0⟩,  -- CLE_FBL
  ⟨0x041200, 0x4, 128, .ro, 0x0, 0x0, 0x0⟩,  -- CLE_SAT
  ⟨0x041400, 0x4, 128, .ro, 0x0, 0x0, 0x0⟩]  -- CLE_MAN

/-- The register map of the block at 0x050000 (spec/03_register_conventions.md Table 3.1). -/
def dpxMap : List RegRow := [
  ⟨0x050000, 0x0, 1, .ro, 0x0, 0x0, 0x0⟩,  -- DPX_STAT
  ⟨0x050004, 0x0, 1, .rwk, 0xFF07, 0x0, 0x0⟩,  -- DPX_CFG
  ⟨0x050008, 0x0, 1, .ro, 0x0, 0x0, 0x0⟩,  -- DPX_EPOCH
  ⟨0x05000C, 0x0, 1, .ro, 0x0, 0x0, 0x0⟩,  -- DPX_EPOCH_SEEN
  ⟨0x050010, 0x0, 1, .ro, 0x0, 0x0, 0x0⟩,  -- DPX_PARTNER
  ⟨0x050014, 0x4, 2, .ro, 0x0, 0x0, 0x0⟩,  -- DPX_LANE
  ⟨0x05001C, 0x0, 1, .ro, 0x0, 0x0, 0x0⟩,  -- DPX_HBLOST
  ⟨0x050020, 0x0, 1, .ro, 0x0, 0x0, 0x0⟩,  -- DPX_ALIGN
  ⟨0x050024, 0x0, 1, .ro, 0x0, 0x0, 0x0⟩,  -- DPX_GAP_LAST
  ⟨0x050028, 0x0, 1, .ro, 0x0, 0x0, 0x0⟩,  -- DPX_GAP_MAX
  ⟨0x05002C, 0x0, 1, .ro, 0x0, 0x0, 0x0⟩,  -- DPX_TOCNT
  ⟨0x050030, 0x0, 1, .ro, 0x0, 0x0, 0x0⟩,  -- DPX_MIRROR
  ⟨0x050034, 0x0, 1, .ro, 0x0, 0x0, 0x0⟩,  -- DPX_BACKLOG
  ⟨0x050038, 0x0, 1, .ro, 0x0, 0x0, 0x0⟩,  -- DPX_ACKTO
  ⟨0x05003C, 0x0, 1, .ro, 0x0, 0x0, 0x0⟩,  -- DPX_SYNCCNT
  ⟨0x050040, 0x0, 1, .ro, 0x0, 0x0, 0x0⟩,  -- DPX_SYNCPROG
  ⟨0x050044, 0x0, 1, .rwp, 0xFFFFFFFF, 0x93A80, 0x5004C⟩,  -- DPX_PS_INTERVAL
  ⟨0x050048, 0x0, 1, .rwp, 0xFFFFFFFF, 0x2710, 0x5004C⟩,  -- DPX_PS_WINDOW
  ⟨0x05004C, 0x0, 1, .press, 0x1, 0x0, 0x0⟩,  -- DPX_PS_PRESS
  ⟨0x050050, 0x0, 1, .ro, 0x0, 0x0, 0x0⟩,  -- DPX_PS_NEXT
  ⟨0x050054, 0x0, 1, .ro, 0x0, 0x0, 0x0⟩,  -- DPX_PS_LAST
  ⟨0x050058, 0x0, 1, .rwv, 0xFFFFFFFF, 0x7D0, 0x0⟩,  -- DPX_ABSENT_WAIT
  ⟨0x05005C, 0x0, 1, .wo, 0xFFFFFFFF, 0x0, 0x0⟩,  -- DPX_CLAIM
  ⟨0x050060, 0x0, 1, .ro, 0x0, 0x0, 0x0⟩,  -- DPX_STEPDOWN
  ⟨0x050064, 0x0, 1, .ro, 0x0, 0x0, 0x0⟩]  -- DPX_ORPHAN

/-- The register map of the block at 0x060000 (spec/03_register_conventions.md Table 3.1). -/
def netMap : List RegRow := [
  ⟨0x060000, 0x0, 1, .ro, 0x0, 0x0, 0x0⟩,  -- NET_STAT
  ⟨0x060010, 0x4, 7, .ro, 0x0, 0x0, 0x0⟩,  -- NET_PORT
  ⟨0x060030, 0x0, 1, .rw, 0x3FF, 0x0, 0x0⟩,  -- NET_STN_SEL
  ⟨0x060034, 0x0, 1, .ro, 0x0, 0x0, 0x0⟩,  -- NET_STN_INFO
  ⟨0x060038, 0x0, 1, .ro, 0x0, 0x0, 0x0⟩,  -- NET_STN_STAT
  ⟨0x06003C, 0x0, 1, .ro, 0x0, 0x0, 0x0⟩,  -- NET_STN_CNT
  ⟨0x060100, 0x40, 4, .ro, 0x0, 0x0, 0x0⟩,  -- NET_RING_CFG
  ⟨0x060104, 0x40, 4, .ro, 0x0, 0x0, 0x0⟩,  -- NET_RING_STAT
  ⟨0x060108, 0x40, 4, .ro, 0x0, 0x0, 0x0⟩,  -- NET_RING_LOAD
  ⟨0x06010C, 0x40, 4, .ro, 0x0, 0x0, 0x0⟩,  -- NET_RING_ELIM
  ⟨0x060110, 0x40, 4, .ro, 0x0, 0x0, 0x0⟩,  -- NET_RING_SINGLE
  ⟨0x060114, 0x40, 4, .ro, 0x0, 0x0, 0x0⟩,  -- NET_RING_DISC
  ⟨0x060118, 0x40, 4, .ro, 0x0, 0x0, 0x0⟩,  -- NET_RING_LATE
  ⟨0x06011C, 0x40, 4, .ro, 0x0, 0x0, 0x0⟩,  -- NET_RING_OPENCNT
  ⟨0x060300, 0x0, 1, .ro, 0x0, 0x0, 0x0⟩,  -- NET_PEER_STAT
  ⟨0x060304, 0x0, 1, .ro, 0x0, 0x0, 0x0⟩,  -- NET_PEER_ELIM
  ⟨0x060308, 0x0, 1, .ro, 0x0, 0x0, 0x0⟩,  -- NET_PEER_DISC
  ⟨0x061000, 0x4, 32, .ro, 0x0, 0x0, 0x0⟩,  -- NET_STN_FAILED
  ⟨0x061100, 0x4, 8, .ro, 0x0, 0x0, 0x0⟩]  -- NET_PEER_FAILED

/-- The register map of the block at 0x070000 (spec/03_register_conventions.md Table 3.1). -/
def timMap : List RegRow := [
  ⟨0x070000, 0x0, 1, .ro, 0x0, 0x0, 0x0⟩,  -- TIM_STAT
  ⟨0x070004, 0x0, 1, .rwp, 0xF, 0x4, 0x70018⟩,  -- TIM_CFG
  ⟨0x070008, 0x0, 1, .rwp, 0xFFFFFFFF, 0x3E8, 0x70018⟩,  -- TIM_STEPMAX
  ⟨0x07000C, 0x0, 1, .rwp, 0xFFFFFFFF, 0x2710, 0x70018⟩,  -- TIM_SLEW
  ⟨0x070010, 0x0, 1, .rwp, 0xFFFFFFFF, 0xC000, 0x70018⟩,  -- TIM_KP
  ⟨0x070014, 0x0, 1, .rwp, 0xFFFFFFFF, 0x4000, 0x70018⟩,  -- TIM_KI
  ⟨0x070018, 0x0, 1, .press, 0x1, 0x0, 0x0⟩,  -- TIM_PRESS
  ⟨0x07001C, 0x0, 1, .wo, 0xFFFFFFFF, 0x0, 0x0⟩,  -- TIM_REALIGN
  ⟨0x070020, 0x0, 1, .ro, 0x0, 0x0, 0x0⟩,  -- TIM_NOW_NS
  ⟨0x070024, 0x0, 1, .ro, 0x0, 0x0, 0x0⟩,  -- TIM_NOW_SLO
  ⟨0x070028, 0x0, 1, .ro, 0x0, 0x0, 0x0⟩,  -- TIM_NOW_SHI
  ⟨0x07002C, 0x0, 1, .ro, 0x0, 0x0, 0x0⟩,  -- TIM_NOW_SHORT
  ⟨0x070030, 0x0, 1, .ro, 0x0, 0x0, 0x0⟩,  -- TIM_FREQ
  ⟨0x070034, 0x0, 1, .ro, 0x0, 0x0, 0x0⟩,  -- TIM_STEPCNT
  ⟨0x070038, 0x0, 1, .ro, 0x0, 0x0, 0x0⟩,  -- TIM_SWCNT
  ⟨0x07003C, 0x0, 1, .ro, 0x0, 0x0, 0x0⟩,  -- TIM_SETCNT
  ⟨0x070100, 0x40, 2, .ro, 0x0, 0x0, 0x0⟩,  -- TIM_DOM_CFG
  ⟨0x070104, 0x40, 2, .ro, 0x0, 0x0, 0x0⟩,  -- TIM_DOM_STAT
  ⟨0x070108, 0x40, 2, .ro, 0x0, 0x0, 0x0⟩,  -- TIM_DOM_OFS
  ⟨0x07010C, 0x40, 2, .ro, 0x0, 0x0, 0x0⟩,  -- TIM_DOM_OFSMAX
  ⟨0x070110, 0x40, 2, .ro, 0x0, 0x0, 0x0⟩,  -- TIM_DOM_SHORT
  ⟨0x070114, 0x40, 2, .ro, 0x0, 0x0, 0x0⟩,  -- TIM_DOM_GMID_LO
  ⟨0x070118, 0x40, 2, .ro, 0x0, 0x0, 0x0⟩,  -- TIM_DOM_GMID_HI
  ⟨0x07011C, 0x40, 2, .wo, 0xFFFFFFFF, 0x0, 0x0⟩,  -- TIM_DOM_MEAST
  ⟨0x070120, 0x40, 2, .wo, 0xFFFFFFFF, 0x0, 0x0⟩,  -- TIM_DOM_MEAS_S
  ⟨0x070124, 0x40, 2, .wo, 0xFFFFFFFF, 0x0, 0x0⟩,  -- TIM_DOM_MEAS
  ⟨0x070128, 0x40, 2, .ro, 0x0, 0x0, 0x0⟩,  -- TIM_DOM_MEASCNT
  ⟨0x070200, 0x10, 7, .ro, 0x0, 0x0, 0x0⟩,  -- TIM_TSQ_STAT
  ⟨0x070204, 0x10, 7, .ro, 0x0, 0x0, 0x0⟩,  -- TIM_TSQ_LOST
  ⟨0x070208, 0x10, 7, .ro, 0x0, 0x0, 0x0⟩,  -- TIM_PORT_LATE
  ⟨0x07020C, 0x10, 7, .ro, 0x0, 0x0, 0x0⟩,  -- TIM_PORT_PDELAY
  ⟨0x070300, 0x0, 1, .rw, 0xF, 0x0, 0x0⟩,  -- TIM_CAP_CFG
  ⟨0x070310, 0x10, 2, .ro, 0x0, 0x0, 0x0⟩,  -- TIM_CAP_NS
  ⟨0x070314, 0x10, 2, .ro, 0x0, 0x0, 0x0⟩,  -- TIM_CAP_SLO
  ⟨0x070318, 0x10, 2, .ro, 0x0, 0x0, 0x0⟩,  -- TIM_CAP_INFO
  ⟨0x07031C, 0x10, 2, .ro, 0x0, 0x0, 0x0⟩,  -- TIM_CAP_MISSED
  ⟨0x070340, 0x0, 1, .rwp, 0xFFFFFFFF, 0xF4240, 0x70348⟩,  -- TIM_TOUT_PERIOD
  ⟨0x070344, 0x0, 1, .rwp, 0xFFFFFFFF, 0x186A0, 0x70348⟩,  -- TIM_TOUT_WIDTH
  ⟨0x070348, 0x0, 1, .press, 0x1, 0x0, 0x0⟩]  -- TIM_TOUT_PRESS

/-- The register map of the block at 0x080000 (spec/03_register_conventions.md Table 3.1). -/
def canMap : List RegRow := [
  ⟨0x080000, 0x2000, 8, .ro, 0x0, 0x40, 0x0⟩,  -- CAN_STAT
  ⟨0x080004, 0x2000, 8, .ro, 0x0, 0x0, 0x0⟩,  -- CAN_PSTAT
  ⟨0x080008, 0x2000, 8, .ro, 0x0, 0x0, 0x0⟩,  -- CAN_CFG
  ⟨0x08000C, 0x2000, 8, .ro, 0x0, 0x0, 0x0⟩,  -- CAN_FILT
  ⟨0x080010, 0x2000, 8, .rwp, 0x7FFFFFFF, 0x0, 0x80020⟩,  -- CAN_NBT
  ⟨0x080014, 0x2000, 8, .rwp, 0xF0F1F1F, 0x0, 0x80020⟩,  -- CAN_DBT
  ⟨0x08C018, 0x2000, 2, .rwp, 0xF0F1F1F, 0x0, 0x8C020⟩,  -- CAN_XBT
  ⟨0x08001C, 0x2000, 8, .rwp, 0x17F, 0x0, 0x80020⟩,  -- CAN_TDC
  ⟨0x080020, 0x2000, 8, .press, 0x1, 0x0, 0x0⟩,  -- CAN_PRESS
  ⟨0x080024, 0x2000, 8, .wo, 0x1, 0x0, 0x0⟩,  -- CAN_CMD
  ⟨0x080028, 0x2000, 8, .ro, 0x0, 0x0, 0x0⟩,  -- CAN_ECNT
  ⟨0x08002C, 0x2000, 8, .ro, 0x0, 0x0, 0x0⟩,  -- CAN_ERRINFO
  ⟨0x080030, 0x2000, 8, .ro, 0x0, 0x0, 0x0⟩,  -- CAN_TDCV
  ⟨0x080034, 0x2000, 8, .ro, 0x0, 0x0, 0x0⟩,  -- CAN_RXCNT
  ⟨0x080038, 0x2000, 8, .ro, 0x0, 0x0, 0x0⟩,  -- CAN_TXCNT
  ⟨0x08003C, 0x2000, 8, .ro, 0x0, 0x0, 0x0⟩,  -- CAN_ARBLOST
  ⟨0x080040, 0x2000, 8, .ro, 0x0, 0x0, 0x0⟩,  -- CAN_ERRCNT
  ⟨0x080044, 0x2000, 8, .ro, 0x0, 0x0, 0x0⟩,  -- CAN_ERRCNT2
  ⟨0x080048, 0x2000, 8, .ro, 0x0, 0x0, 0x0⟩,  -- CAN_DROP
  ⟨0x08004C, 0x2000, 8, .ro, 0x0, 0x0, 0x0⟩,  -- CAN_TXQ
  ⟨0x080050, 0x2000, 8, .ro, 0x0, 0x0, 0x0⟩,  -- CAN_RXQ0
  ⟨0x080054, 0x2000, 8, .ro, 0x0, 0x0, 0x0⟩,  -- CAN_RXQ1
  ⟨0x080058, 0x2000, 8, .ro, 0x0, 0x0, 0x0⟩]  -- CAN_CANCEL

/-- The register map of the block at 0x090000 (spec/03_register_conventions.md Table 3.1). -/
def fioMap : List RegRow := [
  ⟨0x090000, 0x0, 1, .ro, 0x0, 0x0, 0x0⟩,  -- FIO_STAT
  ⟨0x090004, 0x0, 1, .ro, 0x0, 0x0, 0x0⟩,  -- FIO_PSTAT
  ⟨0x090008, 0x0, 1, .ro, 0x0, 0x0, 0x0⟩,  -- FIO_DIO_IN
  ⟨0x09000C, 0x0, 1, .ro, 0x0, 0x0, 0x0⟩,  -- FIO_DIO_RB
  ⟨0x090010, 0x0, 1, .ro, 0x0, 0x0, 0x0⟩,  -- FIO_DIO_FAULT
  ⟨0x090014, 0x0, 1, .ro, 0x0, 0x0, 0x0⟩,  -- FIO_AIO_FAULT
  ⟨0x090020, 0x0, 1, .wo, 0xFFFFFFFF, 0x0, 0x0⟩,  -- FIO_DIO_REARM
  ⟨0x090100, 0x20, 32, .ro, 0x0, 0x0, 0x0⟩,  -- FIO_DIO_CFG
  ⟨0x090104, 0x20, 32, .rwp, 0x3FF, 0x0, 0x9010C⟩,  -- FIO_DIO_FILT
  ⟨0x090108, 0x20, 32, .rwp, 0xFFFFFF, 0x50064, 0x9010C⟩,  -- FIO_DIO_RETRY
  ⟨0x09010C, 0x20, 32, .press, 0x1, 0x0, 0x0⟩,  -- FIO_DIO_PRESS
  ⟨0x090110, 0x20, 32, .ro, 0x0, 0x0, 0x0⟩,  -- FIO_DIO_STAT
  ⟨0x090114, 0x20, 32, .ro, 0x0, 0x0, 0x0⟩,  -- FIO_DIO_CNT
  ⟨0x090600, 0x40, 16, .ro, 0x0, 0x0, 0x0⟩,  -- FIO_AIO_CFG
  ⟨0x090604, 0x40, 16, .rwp, 0xFFFFF, 0x3E8, 0x9060C⟩,  -- FIO_AIO_RATE
  ⟨0x090608, 0x40, 16, .rwv, 0x3, 0x1, 0x0⟩,  -- FIO_AIO_FAIL
  ⟨0x09060C, 0x40, 16, .press, 0x1, 0x0, 0x0⟩,  -- FIO_AIO_PRESS
  ⟨0x090610, 0x40, 16, .ro, 0x0, 0x0, 0x0⟩,  -- FIO_AIO_STAT
  ⟨0x090614, 0x40, 16, .ro, 0x0, 0x0, 0x0⟩,  -- FIO_AIO_RAW
  ⟨0x090618, 0x40, 16, .ro, 0x0, 0x0, 0x0⟩,  -- FIO_AIO_VALUE
  ⟨0x09061C, 0x40, 16, .wo, 0x7, 0x0, 0x0⟩,  -- FIO_AIO_TRIMCMD
  ⟨0x090620, 0x40, 16, .rw, 0xFFFFFF, 0x0, 0x0⟩,  -- FIO_AIO_TRIMREF
  ⟨0x090624, 0x40, 16, .ro, 0x0, 0x0, 0x0⟩,  -- FIO_AIO_TRIMST
  ⟨0x090628, 0x40, 16, .ro, 0x0, 0x0, 0x0⟩,  -- FIO_AIO_CNT
  ⟨0x09062C, 0x40, 16, .ro, 0x0, 0x0, 0x0⟩,  -- FIO_AIO_HART
  ⟨0x090A00, 0x0, 1, .rw, 0x1FF0F, 0x0, 0x0⟩,  -- FIO_HART_HCTL
  ⟨0x090A04, 0x0, 1, .ro, 0x0, 0x0, 0x0⟩,  -- FIO_HART_HSTAT
  ⟨0x090B00, 0x4, 68, .rw, 0xFFFFFFFF, 0x0, 0x0⟩,  -- FIO_HART_HREQ
  ⟨0x090D00, 0x4, 68, .ro, 0x0, 0x0, 0x0⟩]  -- FIO_HART_HRSP

/-- The register map of the block at 0x0A0000 (spec/03_register_conventions.md Table 3.1). -/
def safMap : List RegRow := [
  ⟨0x0A0000, 0x0, 1, .ro, 0x0, 0x0, 0x0⟩,  -- SAF_STAT
  ⟨0x0A0004, 0x0, 1, .ro, 0x0, 0x0, 0x0⟩,  -- SAF_PSTAT
  ⟨0x0A0008, 0x0, 1, .ro, 0x0, 0x62, 0x0⟩,  -- SAF_LOCK
  ⟨0x0A000C, 0x0, 1, .ro, 0x0, 0x0, 0x0⟩,  -- SAF_LOCKINFO
  ⟨0x0A0010, 0x0, 1, .ro, 0x0, 0x0, 0x0⟩,  -- SAF_CFGCRC
  ⟨0x0A0014, 0x0, 1, .ro, 0x0, 0x0, 0x0⟩,  -- SAF_SELCRC
  ⟨0x0A0018, 0x0, 1, .ro, 0x0, 0x0, 0x0⟩,  -- SAF_CNT
  ⟨0x0A001C, 0x0, 1, .ro, 0x0, 0x0, 0x0⟩,  -- SAF_SPCYC
  ⟨0x0A0020, 0x0, 1, .rw, 0xFFFFFFFF, 0x0, 0x0⟩,  -- SAF_MBOX_APP
  ⟨0x0A0024, 0x0, 1, .rw, 0xFFFFFFFF, 0x0, 0x0⟩,  -- SAF_MBOX_HOST
  ⟨0x0A0028, 0x0, 1, .ro, 0x0, 0x0, 0x0⟩,  -- SAF_TP
  ⟨0x0A0040, 0x4, 8, .rwk, 0x7FFF00F7, 0x0, 0x0⟩,  -- SAF_SI_CFG
  ⟨0x0A0060, 0x4, 8, .ro, 0x0, 0x0, 0x0⟩,  -- SAF_SI_STAT
  ⟨0x0A0080, 0x4, 8, .ro, 0x0, 0x0, 0x0⟩,  -- SAF_SI_CNT
  ⟨0x0A00A0, 0x4, 4, .rwk, 0xFFF07FF, 0x0, 0x0⟩,  -- SAF_SO_CFG
  ⟨0x0A00B0, 0x4, 4, .ro, 0x0, 0x0, 0x0⟩,  -- SAF_SO_STAT
  ⟨0x0A00C0, 0x4, 4, .ro, 0x0, 0x0, 0x0⟩,  -- SAF_SO_CNT
  ⟨0x0A0100, 0x0, 1, .rw, 0x3F, 0x0, 0x0⟩,  -- SAF_WSC_SEL
  ⟨0x0A0104, 0x0, 1, .ro, 0x0, 0x0, 0x0⟩,  -- SAF_WSC_CFG
  ⟨0x0A0108, 0x0, 1, .ro, 0x0, 0x0, 0x0⟩,  -- SAF_WSC_ID
  ⟨0x0A010C, 0x0, 1, .ro, 0x0, 0x0, 0x0⟩,  -- SAF_WSC_STAT
  ⟨0x0A0110, 0x0, 1, .ro, 0x0, 0x0, 0x0⟩,  -- SAF_WSC_TX
  ⟨0x0A0114, 0x0, 1, .ro, 0x0, 0x0, 0x0⟩,  -- SAF_WSC_ERR
  ⟨0x0A0118, 0x0, 1, .ro, 0x0, 0x0, 0x0⟩,  -- SAF_WSC_RTT
  ⟨0x0A0200, 0x4, 2, .ro, 0x0, 0x0, 0x0⟩]  -- SAF_WSC_FAILED

/-- The register map of the block at 0x0B0000 (spec/03_register_conventions.md Table 3.1). -/
def tlyMap : List RegRow := [
  ⟨0x0B0000, 0x0, 1, .ro, 0x0, 0x0, 0x0⟩,  -- TLY_STAT
  ⟨0x0B0004, 0x0, 1, .ro, 0x0, 0x0, 0x0⟩,  -- TLY_PSTAT
  ⟨0x0B0008, 0x0, 1, .ro, 0x0, 0x0, 0x0⟩,  -- TLY_SEQ
  ⟨0x0B000C, 0x0, 1, .ro, 0x0, 0x0, 0x0⟩,  -- TLY_OLDEST
  ⟨0x0B0010, 0x0, 1, .ro, 0x0, 0x0, 0x0⟩,  -- TLY_AOLDEST
  ⟨0x0B0014, 0x0, 1, .ro, 0x0, 0x0, 0x0⟩,  -- TLY_AFREE
  ⟨0x0B0018, 0x0, 1, .ro, 0x0, 0x0, 0x0⟩,  -- TLY_NONCE_LO
  ⟨0x0B001C, 0x0, 1, .ro, 0x0, 0x0, 0x0⟩,  -- TLY_NONCE_HI
  ⟨0x0B0020, 0x0, 1, .ro, 0x0, 0x0, 0x0⟩,  -- TLY_OVWCNT
  ⟨0x0B0024, 0x0, 1, .ro, 0x0, 0x0, 0x0⟩,  -- TLY_DROPCNT
  ⟨0x0B0028, 0x0, 1, .ro, 0x0, 0x0, 0x0⟩,  -- TLY_AUDITLOST
  ⟨0x0B002C, 0x0, 1, .ro, 0x0, 0x0, 0x0⟩,  -- TLY_QLOST
  ⟨0x0B0030, 0x0, 1, .ro, 0x0, 0x0, 0x0⟩,  -- TLY_SEALFAIL
  ⟨0x0B0034, 0x0, 1, .ro, 0x0, 0x0, 0x0⟩,  -- TLY_CLRCNT
  ⟨0x0B0038, 0x0, 1, .rwv, 0x7, 0x1, 0x0⟩,  -- TLY_SEVMIN
  ⟨0x0B0040, 0x0, 1, .rw, 0xFFFFFFFF, 0x0, 0x0⟩,  -- TLY_RDSEQ
  ⟨0x0B0044, 0x0, 1, .rw, 0x1, 0x0, 0x0⟩,  -- TLY_RDREG
  ⟨0x0B0048, 0x0, 1, .ro, 0x0, 0x0, 0x0⟩,  -- TLY_RDSTAT
  ⟨0x0B0050, 0x0, 1, .rw, 0xFFFFFFFF, 0x0, 0x0⟩,  -- TLY_CLR_FROM
  ⟨0x0B0054, 0x0, 1, .rw, 0xFFFFFFFF, 0x0, 0x0⟩,  -- TLY_CLR_TO
  ⟨0x0B005C, 0x0, 1, .wo, 0xFFFFFFFF, 0x0, 0x0⟩,  -- TLY_CLRKEY
  ⟨0x0B0400, 0x4, 256, .ro, 0x0, 0x0, 0x0⟩]  -- TLY_RDBUF

/-- The register map of the block at 0x0C0000 (spec/03_register_conventions.md Table 3.1). -/
def memMap : List RegRow := [
  ⟨0x0C0000, 0x0, 1, .ro, 0x0, 0x0, 0x0⟩,  -- MEM_STAT
  ⟨0x0C0004, 0x0, 1, .ro, 0x0, 0x0, 0x0⟩,  -- MEM_CECNT
  ⟨0x0C0008, 0x0, 1, .ro, 0x0, 0x0, 0x0⟩,  -- MEM_UECNT
  ⟨0x0C000C, 0x0, 1, .ro, 0x0, 0x0, 0x0⟩,  -- MEM_CE_ADDR_LO
  ⟨0x0C0010, 0x0, 1, .ro, 0x0, 0x0, 0x0⟩,  -- MEM_CE_ADDR_HI
  ⟨0x0C0014, 0x0, 1, .ro, 0x0, 0x0, 0x0⟩,  -- MEM_CE_INFO
  ⟨0x0C0018, 0x0, 1, .ro, 0x0, 0x0, 0x0⟩,  -- MEM_UE_ADDR_LO
  ⟨0x0C001C, 0x0, 1, .ro, 0x0, 0x0, 0x0⟩,  -- MEM_UE_ADDR_HI
  ⟨0x0C0020, 0x0, 1, .ro, 0x0, 0x0, 0x0⟩,  -- MEM_UE_INFO
  ⟨0x0C0024, 0x0, 1, .rwp, 0xFFFFFFFF, 0x1E0, 0xC0028⟩,  -- MEM_RINSE_PERIOD
  ⟨0x0C0028, 0x0, 1, .press, 0x1, 0x0, 0x0⟩,  -- MEM_RINSE_PRESS
  ⟨0x0C002C, 0x0, 1, .ro, 0x0, 0x0, 0x0⟩,  -- MEM_RINSE_POS
  ⟨0x0C0030, 0x0, 1, .ro, 0x0, 0x0, 0x0⟩,  -- MEM_RINSE_STAT
  ⟨0x0C0034, 0x0, 1, .ro, 0x0, 0x0, 0x0⟩,  -- MEM_RINSE_LAST
  ⟨0x0C0038, 0x0, 1, .rwv, 0xFFFF, 0x20, 0x0⟩,  -- MEM_MARKTHR
  ⟨0x0C0040, 0x4, 19, .ro, 0x0, 0x0, 0x0⟩,  -- MEM_DEV
  ⟨0x0C0090, 0x0, 1, .ro, 0x0, 0x0, 0x0⟩,  -- MEM_SRAM_CE
  ⟨0x0C0094, 0x0, 1, .ro, 0x0, 0x0, 0x0⟩,  -- MEM_SRAM_UE
  ⟨0x0C0098, 0x0, 1, .ro, 0x0, 0x0, 0x0⟩,  -- MEM_MRAM_CE
  ⟨0x0C009C, 0x0, 1, .ro, 0x0, 0x0, 0x0⟩,  -- MEM_MRAM_UE
  ⟨0x0C00B0, 0x0, 1, .rw, 0xFFFFFFFF, 0x0, 0x0⟩,  -- MEM_INJ_ADDR_LO
  ⟨0x0C00B4, 0x0, 1, .rw, 0x3, 0x0, 0x0⟩,  -- MEM_INJ_ADDR_HI
  ⟨0x0C00B8, 0x0, 1, .rw, 0x7FFFF, 0x0, 0x0⟩,  -- MEM_INJ_MASK
  ⟨0x0C00BC, 0x0, 1, .rw, 0x1, 0x0, 0x0⟩]  -- MEM_INJ_CTRL

/-- The register map of the block at 0x0D0000 (spec/03_register_conventions.md Table 3.1). -/
def bootMap : List RegRow := [
  ⟨0x0D0000, 0x0, 1, .ro, 0x0, 0x2, 0x0⟩,  -- BOOT_STAT
  ⟨0x0D0004, 0x0, 1, .ro, 0x0, 0x0, 0x0⟩,  -- BOOT_FWVER
  ⟨0x0D0008, 0x0, 1, .ro, 0x0, 0x0, 0x0⟩,  -- BOOT_FWSVN
  ⟨0x0D000C, 0x0, 1, .ro, 0x0, 0x0, 0x0⟩,  -- BOOT_BANKA_VER
  ⟨0x0D0010, 0x0, 1, .ro, 0x0, 0x0, 0x0⟩,  -- BOOT_BANKB_VER
  ⟨0x0D0014, 0x0, 1, .ro, 0x0, 0x0, 0x0⟩,  -- BOOT_CFG_ACT
  ⟨0x0D0018, 0x0, 1, .ro, 0x0, 0x0, 0x0⟩,  -- BOOT_CFG_PREV
  ⟨0x0D001C, 0x0, 1, .ro, 0x0, 0x0, 0x0⟩,  -- BOOT_CFG_HIGH
  ⟨0x0D0020, 0x0, 1, .ro, 0x0, 0x0, 0x0⟩,  -- BOOT_STG
  ⟨0x0D0024, 0x0, 1, .ro, 0x0, 0x0, 0x0⟩,  -- BOOT_STG_FWLEN
  ⟨0x0D0028, 0x0, 1, .ro, 0x0, 0x0, 0x0⟩,  -- BOOT_STG_CFGLEN
  ⟨0x0D0030, 0x0, 1, .ro, 0x0, 0x0, 0x0⟩,  -- BOOT_ACT_STAT
  ⟨0x0D0034, 0x0, 1, .ro, 0x0, 0x0, 0x0⟩,  -- BOOT_ACT_AT_LO
  ⟨0x0D0038, 0x0, 1, .ro, 0x0, 0x0, 0x0⟩,  -- BOOT_ACT_AT_HI
  ⟨0x0D003C, 0x0, 1, .ro, 0x0, 0x0, 0x0⟩,  -- BOOT_ACT_PAUSE
  ⟨0x0D0040, 0x0, 1, .ro, 0x0, 0x0, 0x0⟩,  -- BOOT_MIG_LEFT
  ⟨0x0D0044, 0x0, 1, .rwv, 0xFFFFFFFF, 0x2710, 0x0⟩,  -- BOOT_SETTLE
  ⟨0x0D0048, 0x0, 1, .ro, 0x0, 0x0, 0x0⟩,  -- BOOT_KS
  ⟨0x0D0050, 0x0, 1, .rw, 0xFFFFFFFF, 0x0, 0x0⟩,  -- BOOT_LD_ADDR_LO
  ⟨0x0D0054, 0x0, 1, .rw, 0xFFFFFFFF, 0x0, 0x0⟩,  -- BOOT_LD_ADDR_HI
  ⟨0x0D0058, 0x0, 1, .rw, 0xFFFFFFFF, 0x0, 0x0⟩,  -- BOOT_LD_LEN
  ⟨0x0D005C, 0x0, 1, .wo, 0xFFFFFFFF, 0x0, 0x0⟩,  -- BOOT_LD_KEY
  ⟨0x0D0060, 0x0, 1, .ro, 0x0, 0x0, 0x0⟩,  -- BOOT_LD_STAT
  ⟨0x0D0100, 0x4, 72, .ro, 0x0, 0x0, 0x0⟩]  -- BOOT_MEAS

/-- The register map of the block at 0x0E0000 (spec/03_register_conventions.md Table 3.1). -/
def pwrMap : List RegRow := [
  ⟨0x0E0000, 0x0, 1, .ro, 0x0, 0x0, 0x0⟩,  -- PWR_STAT
  ⟨0x0E0004, 0x0, 1, .ro, 0x0, 0x0, 0x0⟩,  -- PWR_PSTAT
  ⟨0x0E0008, 0x0, 1, .ro, 0x0, 0x0, 0x0⟩,  -- PWR_FEEDA
  ⟨0x0E000C, 0x0, 1, .ro, 0x0, 0x0, 0x0⟩,  -- PWR_FEEDB
  ⟨0x0E0010, 0x0, 1, .ro, 0x0, 0x0, 0x0⟩,  -- PWR_BUS
  ⟨0x0E0014, 0x0, 1, .ro, 0x0, 0x0, 0x0⟩,  -- PWR_POWER
  ⟨0x0E0018, 0x0, 1, .ro, 0x0, 0x0, 0x0⟩,  -- PWR_PFCNT
  ⟨0x0E001C, 0x0, 1, .ro, 0x0, 0x0, 0x0⟩,  -- PWR_PFLAST
  ⟨0x0E0020, 0x0, 1, .ro, 0x0, 0x0, 0x0⟩,  -- PWR_RAIL
  ⟨0x0E0024, 0x0, 1, .ro, 0x0, 0x0, 0x0⟩,  -- PWR_TEMP
  ⟨0x0E0028, 0x0, 1, .ro, 0x0, 0x0, 0x0⟩,  -- PWR_TBOARD
  ⟨0x0E002C, 0x0, 1, .rwv, 0xFFFF, 0x546, 0x0⟩,  -- PWR_TWARN
  ⟨0x0E0030, 0x0, 1, .ro, 0x0, 0x0, 0x0⟩,  -- PWR_VRET
  ⟨0x0E0034, 0x0, 1, .ro, 0x0, 0x0, 0x0⟩,  -- PWR_RETSEC
  ⟨0x0E0038, 0x0, 1, .ro, 0x0, 0x0, 0x0⟩,  -- PWR_SFEED
  ⟨0x0E003C, 0x0, 1, .ro, 0x0, 0x0, 0x0⟩,  -- PWR_LED
  ⟨0x0E0040, 0x0, 1, .rw, 0x1, 0x0, 0x0⟩]  -- PWR_IDENT

/-- The register map of the block that `o` lies in; the offsets from 0x0F0000 on are unassigned (R61). -/
def mapOf (o : Nat) : List RegRow :=
  match o / 0x10000 with
  | 0 => sysMap
  | 1 => hifMap
  | 2 => cycMap
  | 3 => lspMap
  | 4 => cleMap
  | 5 => dpxMap
  | 6 => netMap
  | 7 => timMap
  | 8 => canMap
  | 9 => fioMap
  | 10 => safMap
  | 11 => tlyMap
  | 12 => memMap
  | 13 => bootMap
  | 14 => pwrMap
  | _ => []

/-- `r` has a register at BAR0 offset `o`. -/
def RegRow.has (r : RegRow) (o : Nat) : Bool :=
  decide (r.off ≤ o) && (if r.stride = 0 then decide (o = r.off)
    else decide ((o - r.off) % r.stride = 0) && decide ((o - r.off) / r.stride < r.count))

/-- Which register of its array the offset `o` names. -/
def RegRow.idx (r : RegRow) (o : Nat) : Nat := if r.stride = 0 then 0 else (o - r.off) / r.stride

/-- The row of the register at BAR0 offset `o`; none where `o` is unassigned (R61). -/
def rowAt (o : Nat) : Option RegRow := (mapOf o).find? fun r => r.has o

/-- The press control of the group that the register at `o` belongs to (R80); none where it belongs to no group. -/
def pressOf (o : Nat) : Option Nat :=
  match rowAt o with
  | some r => if r.press = 0 then none else some (r.press + r.stride * r.idx o)
  | none => none

/-- The reset value of the register at `o`. -/
def rstOf (o : Nat) : Word := ((rowAt o).map RegRow.rst).getD 0

/-! The BAR0 offset of each register, or of the first of an array. -/

/-- SYS_ID. -/
abbrev Reg.sysId : Nat := 0x000000
/-- SYS_UID_LO. -/
abbrev Reg.sysUidLo : Nat := 0x000004
/-- SYS_UID_HI. -/
abbrev Reg.sysUidHi : Nat := 0x000008
/-- SYS_SLOT. -/
abbrev Reg.sysSlot : Nat := 0x00000C
/-- SYS_MODE. -/
abbrev Reg.sysMode : Nat := 0x000010
/-- SYS_CAP. -/
abbrev Reg.sysCap : Nat := 0x000014
/-- SYS_FAULT. -/
abbrev Reg.sysFault : Nat := 0x000018
/-- SYS_VOTE_ADDR. -/
abbrev Reg.sysVoteAddr : Nat := 0x00001C
/-- SYS_VOTEFIX. -/
abbrev Reg.sysVotefix : Nat := 0x000020
/-- SYS_VOTEFAIL. -/
abbrev Reg.sysVotefail : Nat := 0x000024
/-- SYS_ACCFAULT. -/
abbrev Reg.sysAccfault : Nat := 0x000028
/-- SYS_ACCADDR. -/
abbrev Reg.sysAccaddr : Nat := 0x00002C
/-- SYS_OPTIME_LO. -/
abbrev Reg.sysOptimeLo : Nat := 0x000030
/-- SYS_OPTIME_HI. -/
abbrev Reg.sysOptimeHi : Nat := 0x000034
/-- SYS_PWRCYC. -/
abbrev Reg.sysPwrcyc : Nat := 0x000038
/-- SYS_ISLAND. -/
abbrev Reg.sysIsland : Nat := 0x00003C
/-- SYS_SCRATCH. -/
abbrev Reg.sysScratch : Nat := 0x000040
/-- SYS_RESTART. -/
abbrev Reg.sysRestart : Nat := 0x000044
/-- SYS_HLW_TIME. -/
abbrev Reg.sysHlwTime : Nat := 0x000050
/-- SYS_HLW_MODE. -/
abbrev Reg.sysHlwMode : Nat := 0x000054
/-- SYS_HLW_PRESS. -/
abbrev Reg.sysHlwPress : Nat := 0x000058
/-- SYS_HLW_KICK. -/
abbrev Reg.sysHlwKick : Nat := 0x00005C
/-- HIF_STAT. -/
abbrev Reg.hifStat : Nat := 0x010000
/-- HIF_LINK. -/
abbrev Reg.hifLink : Nat := 0x010004
/-- HIF_CTRL. -/
abbrev Reg.hifCtrl : Nat := 0x010008
/-- HIF_PRESS. -/
abbrev Reg.hifPress : Nat := 0x01000C
/-- HIF_AQ_SQBASE_LO. -/
abbrev Reg.hifAqSqbaseLo : Nat := 0x010010
/-- HIF_AQ_SQBASE_HI. -/
abbrev Reg.hifAqSqbaseHi : Nat := 0x010014
/-- HIF_AQ_CQBASE_LO. -/
abbrev Reg.hifAqCqbaseLo : Nat := 0x010018
/-- HIF_AQ_CQBASE_HI. -/
abbrev Reg.hifAqCqbaseHi : Nat := 0x01001C
/-- HIF_AQ_SIZE. -/
abbrev Reg.hifAqSize : Nat := 0x010020
/-- HIF_RING_HALT. -/
abbrev Reg.hifRingHalt : Nat := 0x010024
/-- HIF_RING_LIVE. -/
abbrev Reg.hifRingLive : Nat := 0x010028
/-- HIF_ERRINFO. -/
abbrev Reg.hifErrinfo : Nat := 0x01002C
/-- HIF_DMAERR. -/
abbrev Reg.hifDmaerr : Nat := 0x010030
/-- HIF_DUPCNT. -/
abbrev Reg.hifDupcnt : Nat := 0x010034
/-- HIF_STALECNT. -/
abbrev Reg.hifStalecnt : Nat := 0x010038
/-- HIF_JRNL. -/
abbrev Reg.hifJrnl : Nat := 0x01003C
/-- HIF_EVTLOST. -/
abbrev Reg.hifEvtlost : Nat := 0x010040
/-- HIF_HIGH_LO. -/
abbrev Reg.hifHighLo : Nat := 0x010100
/-- HIF_HIGH_HI. -/
abbrev Reg.hifHighHi : Nat := 0x010104
/-- HIF_SQHEAD. -/
abbrev Reg.hifSqhead : Nat := 0x010108
/-- HIF_CQTAIL. -/
abbrev Reg.hifCqtail : Nat := 0x01010C
/-- CYC_STAT. -/
abbrev Reg.cycStat : Nat := 0x020000
/-- CYC_FORCES. -/
abbrev Reg.cycForces : Nat := 0x020008
/-- CYC_PENDWR. -/
abbrev Reg.cycPendwr : Nat := 0x02000C
/-- CYC_PAIR_LOAD. -/
abbrev Reg.cycPairLoad : Nat := 0x020020
/-- CYC_CLS_CFG. -/
abbrev Reg.cycClsCfg : Nat := 0x020100
/-- CYC_CLS_CYCLE. -/
abbrev Reg.cycClsCycle : Nat := 0x020104
/-- CYC_CLS_SOFT. -/
abbrev Reg.cycClsSoft : Nat := 0x02010C
/-- CYC_CLS_HARD. -/
abbrev Reg.cycClsHard : Nat := 0x020110
/-- CYC_CLS_SKIPMAX. -/
abbrev Reg.cycClsSkipmax : Nat := 0x020114
/-- CYC_CLS_PRESS. -/
abbrev Reg.cycClsPress : Nat := 0x020118
/-- CYC_CLS_STAT. -/
abbrev Reg.cycClsStat : Nat := 0x02011C
/-- CYC_CLS_CYCNO_LO. -/
abbrev Reg.cycClsCycnoLo : Nat := 0x020120
/-- CYC_CLS_CYCNO_HI. -/
abbrev Reg.cycClsCycnoHi : Nat := 0x020124
/-- CYC_CLS_EXEC. -/
abbrev Reg.cycClsExec : Nat := 0x020128
/-- CYC_CLS_EXECMAX. -/
abbrev Reg.cycClsExecmax : Nat := 0x02012C
/-- CYC_CLS_OVRCNT. -/
abbrev Reg.cycClsOvrcnt : Nat := 0x020130
/-- CYC_CLS_LATECNT. -/
abbrev Reg.cycClsLatecnt : Nat := 0x020134
/-- CYC_CLS_SKIPCNT. -/
abbrev Reg.cycClsSkipcnt : Nat := 0x020138
/-- CYC_CLS_ERRTASK. -/
abbrev Reg.cycClsErrtask : Nat := 0x02013C
/-- LSP_STAT. -/
abbrev Reg.lspStat : Nat := 0x030000
/-- LSP_PAIR_STAT. -/
abbrev Reg.lspPairStat : Nat := 0x030100
/-- LSP_PAIR_CKINT. -/
abbrev Reg.lspPairCkint : Nat := 0x030104
/-- LSP_PAIR_PRESS. -/
abbrev Reg.lspPairPress : Nat := 0x030108
/-- LSP_PAIR_CKMAX. -/
abbrev Reg.lspPairCkmax : Nat := 0x03010C
/-- LSP_PAIR_DARNLIM. -/
abbrev Reg.lspPairDarnlim : Nat := 0x030110
/-- LSP_PAIR_DARNCNT. -/
abbrev Reg.lspPairDarncnt : Nat := 0x030114
/-- LSP_PAIR_DARNHR. -/
abbrev Reg.lspPairDarnhr : Nat := 0x030118
/-- LSP_PAIR_CKPTCNT. -/
abbrev Reg.lspPairCkptcnt : Nat := 0x03011C
/-- LSP_PAIR_EARLYCNT. -/
abbrev Reg.lspPairEarlycnt : Nat := 0x030120
/-- LSP_PAIR_FILLMAX. -/
abbrev Reg.lspPairFillmax : Nat := 0x030124
/-- LSP_PAIR_MMINFO. -/
abbrev Reg.lspPairMminfo : Nat := 0x030128
/-- LSP_PAIR_MMTIME. -/
abbrev Reg.lspPairMmtime : Nat := 0x03012C
/-- LSP_PAIR_RESTMAX. -/
abbrev Reg.lspPairRestmax : Nat := 0x030130
/-- LSP_PAIR_DBG_CTRL. -/
abbrev Reg.lspPairDbgCtrl : Nat := 0x030134
/-- LSP_PAIR_DBG_STAT. -/
abbrev Reg.lspPairDbgStat : Nat := 0x030138
/-- LSP_PAIR_DBG_PC. -/
abbrev Reg.lspPairDbgPc : Nat := 0x03013C
/-- LSP_PAIR_BP0. -/
abbrev Reg.lspPairBp0 : Nat := 0x030140
/-- LSP_PAIR_BP1. -/
abbrev Reg.lspPairBp1 : Nat := 0x030144
/-- LSP_PAIR_BP2. -/
abbrev Reg.lspPairBp2 : Nat := 0x030148
/-- LSP_PAIR_BP3. -/
abbrev Reg.lspPairBp3 : Nat := 0x03014C
/-- CLE_STAT. -/
abbrev Reg.cleStat : Nat := 0x040000
/-- CLE_ENG_LOAD. -/
abbrev Reg.cleEngLoad : Nat := 0x040010
/-- CLE_ENG_SLACK. -/
abbrev Reg.cleEngSlack : Nat := 0x040020
/-- CLE_ENG_ENTRIES. -/
abbrev Reg.cleEngEntries : Nat := 0x040030
/-- CLE_ENG_NANIN. -/
abbrev Reg.cleEngNanin : Nat := 0x040040
/-- CLE_CHKMM. -/
abbrev Reg.cleChkmm : Nat := 0x040050
/-- CLE_WIN_SEL. -/
abbrev Reg.cleWinSel : Nat := 0x040400
/-- CLE_LOOP. -/
abbrev Reg.cleLoop : Nat := 0x040404
/-- CLE_LOOP_TIMING. -/
abbrev Reg.cleLoopTiming : Nat := 0x040408
/-- CLE_LOOP_STAT. -/
abbrev Reg.cleLoopStat : Nat := 0x04040C
/-- CLE_LOOP_SP. -/
abbrev Reg.cleLoopSp : Nat := 0x040410
/-- CLE_LOOP_MOUT. -/
abbrev Reg.cleLoopMout : Nat := 0x040414
/-- CLE_LOOP_SAFE. -/
abbrev Reg.cleLoopSafe : Nat := 0x040418
/-- CLE_LOOP_SATTIME. -/
abbrev Reg.cleLoopSattime : Nat := 0x04041C
/-- CLE_LOOP_FRZTIME. -/
abbrev Reg.cleLoopFrztime : Nat := 0x040420
/-- CLE_LOOP_ACTION. -/
abbrev Reg.cleLoopAction : Nat := 0x040424
/-- CLE_LOOP_PRESS. -/
abbrev Reg.cleLoopPress : Nat := 0x040428
/-- CLE_LOOP_BPRESS. -/
abbrev Reg.cleLoopBpress : Nat := 0x04042C
/-- CLE_LOOP_CMD. -/
abbrev Reg.cleLoopCmd : Nat := 0x040430
/-- CLE_LOOP_OUT. -/
abbrev Reg.cleLoopOut : Nat := 0x040434
/-- CLE_LOOP_FB. -/
abbrev Reg.cleLoopFb : Nat := 0x040438
/-- CLE_LOOP_STATE0. -/
abbrev Reg.cleLoopState0 : Nat := 0x04043C
/-- CLE_LOOP_COEF. -/
abbrev Reg.cleLoopCoef : Nat := 0x040440
/-- CLE_LOOP_ACOEF. -/
abbrev Reg.cleLoopAcoef : Nat := 0x040480
/-- CLE_LOOP_SCHED. -/
abbrev Reg.cleLoopSched : Nat := 0x0404C0
/-- CLE_LOOP_CNT. -/
abbrev Reg.cleLoopCnt : Nat := 0x0404C4
/-- CLE_LOOP_SPL. -/
abbrev Reg.cleLoopSpl : Nat := 0x0404C8
/-- CLE_LOOP_MOUTL. -/
abbrev Reg.cleLoopMoutl : Nat := 0x0404CC
/-- CLE_FBL. -/
abbrev Reg.cleFbl : Nat := 0x041000
/-- CLE_SAT. -/
abbrev Reg.cleSat : Nat := 0x041200
/-- CLE_MAN. -/
abbrev Reg.cleMan : Nat := 0x041400
/-- DPX_STAT. -/
abbrev Reg.dpxStat : Nat := 0x050000
/-- DPX_CFG. -/
abbrev Reg.dpxCfg : Nat := 0x050004
/-- DPX_EPOCH. -/
abbrev Reg.dpxEpoch : Nat := 0x050008
/-- DPX_EPOCH_SEEN. -/
abbrev Reg.dpxEpochSeen : Nat := 0x05000C
/-- DPX_PARTNER. -/
abbrev Reg.dpxPartner : Nat := 0x050010
/-- DPX_LANE. -/
abbrev Reg.dpxLane : Nat := 0x050014
/-- DPX_HBLOST. -/
abbrev Reg.dpxHblost : Nat := 0x05001C
/-- DPX_ALIGN. -/
abbrev Reg.dpxAlign : Nat := 0x050020
/-- DPX_GAP_LAST. -/
abbrev Reg.dpxGapLast : Nat := 0x050024
/-- DPX_GAP_MAX. -/
abbrev Reg.dpxGapMax : Nat := 0x050028
/-- DPX_TOCNT. -/
abbrev Reg.dpxTocnt : Nat := 0x05002C
/-- DPX_MIRROR. -/
abbrev Reg.dpxMirror : Nat := 0x050030
/-- DPX_BACKLOG. -/
abbrev Reg.dpxBacklog : Nat := 0x050034
/-- DPX_ACKTO. -/
abbrev Reg.dpxAckto : Nat := 0x050038
/-- DPX_SYNCCNT. -/
abbrev Reg.dpxSynccnt : Nat := 0x05003C
/-- DPX_SYNCPROG. -/
abbrev Reg.dpxSyncprog : Nat := 0x050040
/-- DPX_PS_INTERVAL. -/
abbrev Reg.dpxPsInterval : Nat := 0x050044
/-- DPX_PS_WINDOW. -/
abbrev Reg.dpxPsWindow : Nat := 0x050048
/-- DPX_PS_PRESS. -/
abbrev Reg.dpxPsPress : Nat := 0x05004C
/-- DPX_PS_NEXT. -/
abbrev Reg.dpxPsNext : Nat := 0x050050
/-- DPX_PS_LAST. -/
abbrev Reg.dpxPsLast : Nat := 0x050054
/-- DPX_ABSENT_WAIT. -/
abbrev Reg.dpxAbsentWait : Nat := 0x050058
/-- DPX_CLAIM. -/
abbrev Reg.dpxClaim : Nat := 0x05005C
/-- DPX_STEPDOWN. -/
abbrev Reg.dpxStepdown : Nat := 0x050060
/-- DPX_ORPHAN. -/
abbrev Reg.dpxOrphan : Nat := 0x050064
/-- NET_STAT. -/
abbrev Reg.netStat : Nat := 0x060000
/-- NET_PORT. -/
abbrev Reg.netPort : Nat := 0x060010
/-- NET_STN_SEL. -/
abbrev Reg.netStnSel : Nat := 0x060030
/-- NET_STN_INFO. -/
abbrev Reg.netStnInfo : Nat := 0x060034
/-- NET_STN_STAT. -/
abbrev Reg.netStnStat : Nat := 0x060038
/-- NET_STN_CNT. -/
abbrev Reg.netStnCnt : Nat := 0x06003C
/-- NET_RING_CFG. -/
abbrev Reg.netRingCfg : Nat := 0x060100
/-- NET_RING_STAT. -/
abbrev Reg.netRingStat : Nat := 0x060104
/-- NET_RING_LOAD. -/
abbrev Reg.netRingLoad : Nat := 0x060108
/-- NET_RING_ELIM. -/
abbrev Reg.netRingElim : Nat := 0x06010C
/-- NET_RING_SINGLE. -/
abbrev Reg.netRingSingle : Nat := 0x060110
/-- NET_RING_DISC. -/
abbrev Reg.netRingDisc : Nat := 0x060114
/-- NET_RING_LATE. -/
abbrev Reg.netRingLate : Nat := 0x060118
/-- NET_RING_OPENCNT. -/
abbrev Reg.netRingOpencnt : Nat := 0x06011C
/-- NET_PEER_STAT. -/
abbrev Reg.netPeerStat : Nat := 0x060300
/-- NET_PEER_ELIM. -/
abbrev Reg.netPeerElim : Nat := 0x060304
/-- NET_PEER_DISC. -/
abbrev Reg.netPeerDisc : Nat := 0x060308
/-- NET_STN_FAILED. -/
abbrev Reg.netStnFailed : Nat := 0x061000
/-- NET_PEER_FAILED. -/
abbrev Reg.netPeerFailed : Nat := 0x061100
/-- TIM_STAT. -/
abbrev Reg.timStat : Nat := 0x070000
/-- TIM_CFG. -/
abbrev Reg.timCfg : Nat := 0x070004
/-- TIM_STEPMAX. -/
abbrev Reg.timStepmax : Nat := 0x070008
/-- TIM_SLEW. -/
abbrev Reg.timSlew : Nat := 0x07000C
/-- TIM_KP. -/
abbrev Reg.timKp : Nat := 0x070010
/-- TIM_KI. -/
abbrev Reg.timKi : Nat := 0x070014
/-- TIM_PRESS. -/
abbrev Reg.timPress : Nat := 0x070018
/-- TIM_REALIGN. -/
abbrev Reg.timRealign : Nat := 0x07001C
/-- TIM_NOW_NS. -/
abbrev Reg.timNowNs : Nat := 0x070020
/-- TIM_NOW_SLO. -/
abbrev Reg.timNowSlo : Nat := 0x070024
/-- TIM_NOW_SHI. -/
abbrev Reg.timNowShi : Nat := 0x070028
/-- TIM_NOW_SHORT. -/
abbrev Reg.timNowShort : Nat := 0x07002C
/-- TIM_FREQ. -/
abbrev Reg.timFreq : Nat := 0x070030
/-- TIM_STEPCNT. -/
abbrev Reg.timStepcnt : Nat := 0x070034
/-- TIM_SWCNT. -/
abbrev Reg.timSwcnt : Nat := 0x070038
/-- TIM_SETCNT. -/
abbrev Reg.timSetcnt : Nat := 0x07003C
/-- TIM_DOM_CFG. -/
abbrev Reg.timDomCfg : Nat := 0x070100
/-- TIM_DOM_STAT. -/
abbrev Reg.timDomStat : Nat := 0x070104
/-- TIM_DOM_OFS. -/
abbrev Reg.timDomOfs : Nat := 0x070108
/-- TIM_DOM_OFSMAX. -/
abbrev Reg.timDomOfsmax : Nat := 0x07010C
/-- TIM_DOM_SHORT. -/
abbrev Reg.timDomShort : Nat := 0x070110
/-- TIM_DOM_GMID_LO. -/
abbrev Reg.timDomGmidLo : Nat := 0x070114
/-- TIM_DOM_GMID_HI. -/
abbrev Reg.timDomGmidHi : Nat := 0x070118
/-- TIM_DOM_MEAST. -/
abbrev Reg.timDomMeast : Nat := 0x07011C
/-- TIM_DOM_MEAS_S. -/
abbrev Reg.timDomMeasS : Nat := 0x070120
/-- TIM_DOM_MEAS. -/
abbrev Reg.timDomMeas : Nat := 0x070124
/-- TIM_DOM_MEASCNT. -/
abbrev Reg.timDomMeascnt : Nat := 0x070128
/-- TIM_TSQ_STAT. -/
abbrev Reg.timTsqStat : Nat := 0x070200
/-- TIM_TSQ_LOST. -/
abbrev Reg.timTsqLost : Nat := 0x070204
/-- TIM_PORT_LATE. -/
abbrev Reg.timPortLate : Nat := 0x070208
/-- TIM_PORT_PDELAY. -/
abbrev Reg.timPortPdelay : Nat := 0x07020C
/-- TIM_CAP_CFG. -/
abbrev Reg.timCapCfg : Nat := 0x070300
/-- TIM_CAP_NS. -/
abbrev Reg.timCapNs : Nat := 0x070310
/-- TIM_CAP_SLO. -/
abbrev Reg.timCapSlo : Nat := 0x070314
/-- TIM_CAP_INFO. -/
abbrev Reg.timCapInfo : Nat := 0x070318
/-- TIM_CAP_MISSED. -/
abbrev Reg.timCapMissed : Nat := 0x07031C
/-- TIM_TOUT_PERIOD. -/
abbrev Reg.timToutPeriod : Nat := 0x070340
/-- TIM_TOUT_WIDTH. -/
abbrev Reg.timToutWidth : Nat := 0x070344
/-- TIM_TOUT_PRESS. -/
abbrev Reg.timToutPress : Nat := 0x070348
/-- CAN_STAT. -/
abbrev Reg.canStat : Nat := 0x080000
/-- CAN_PSTAT. -/
abbrev Reg.canPstat : Nat := 0x080004
/-- CAN_CFG. -/
abbrev Reg.canCfg : Nat := 0x080008
/-- CAN_FILT. -/
abbrev Reg.canFilt : Nat := 0x08000C
/-- CAN_NBT. -/
abbrev Reg.canNbt : Nat := 0x080010
/-- CAN_DBT. -/
abbrev Reg.canDbt : Nat := 0x080014
/-- CAN_TDC. -/
abbrev Reg.canTdc : Nat := 0x08001C
/-- CAN_PRESS. -/
abbrev Reg.canPress : Nat := 0x080020
/-- CAN_CMD. -/
abbrev Reg.canCmd : Nat := 0x080024
/-- CAN_ECNT. -/
abbrev Reg.canEcnt : Nat := 0x080028
/-- CAN_ERRINFO. -/
abbrev Reg.canErrinfo : Nat := 0x08002C
/-- CAN_TDCV. -/
abbrev Reg.canTdcv : Nat := 0x080030
/-- CAN_RXCNT. -/
abbrev Reg.canRxcnt : Nat := 0x080034
/-- CAN_TXCNT. -/
abbrev Reg.canTxcnt : Nat := 0x080038
/-- CAN_ARBLOST. -/
abbrev Reg.canArblost : Nat := 0x08003C
/-- CAN_ERRCNT. -/
abbrev Reg.canErrcnt : Nat := 0x080040
/-- CAN_ERRCNT2. -/
abbrev Reg.canErrcnt2 : Nat := 0x080044
/-- CAN_DROP. -/
abbrev Reg.canDrop : Nat := 0x080048
/-- CAN_TXQ. -/
abbrev Reg.canTxq : Nat := 0x08004C
/-- CAN_RXQ0. -/
abbrev Reg.canRxq0 : Nat := 0x080050
/-- CAN_RXQ1. -/
abbrev Reg.canRxq1 : Nat := 0x080054
/-- CAN_CANCEL. -/
abbrev Reg.canCancel : Nat := 0x080058
/-- CAN_XBT. -/
abbrev Reg.canXbt : Nat := 0x08C018
/-- FIO_STAT. -/
abbrev Reg.fioStat : Nat := 0x090000
/-- FIO_PSTAT. -/
abbrev Reg.fioPstat : Nat := 0x090004
/-- FIO_DIO_IN. -/
abbrev Reg.fioDioIn : Nat := 0x090008
/-- FIO_DIO_RB. -/
abbrev Reg.fioDioRb : Nat := 0x09000C
/-- FIO_DIO_FAULT. -/
abbrev Reg.fioDioFault : Nat := 0x090010
/-- FIO_AIO_FAULT. -/
abbrev Reg.fioAioFault : Nat := 0x090014
/-- FIO_DIO_REARM. -/
abbrev Reg.fioDioRearm : Nat := 0x090020
/-- FIO_DIO_CFG. -/
abbrev Reg.fioDioCfg : Nat := 0x090100
/-- FIO_DIO_FILT. -/
abbrev Reg.fioDioFilt : Nat := 0x090104
/-- FIO_DIO_RETRY. -/
abbrev Reg.fioDioRetry : Nat := 0x090108
/-- FIO_DIO_PRESS. -/
abbrev Reg.fioDioPress : Nat := 0x09010C
/-- FIO_DIO_STAT. -/
abbrev Reg.fioDioStat : Nat := 0x090110
/-- FIO_DIO_CNT. -/
abbrev Reg.fioDioCnt : Nat := 0x090114
/-- FIO_AIO_CFG. -/
abbrev Reg.fioAioCfg : Nat := 0x090600
/-- FIO_AIO_RATE. -/
abbrev Reg.fioAioRate : Nat := 0x090604
/-- FIO_AIO_FAIL. -/
abbrev Reg.fioAioFail : Nat := 0x090608
/-- FIO_AIO_PRESS. -/
abbrev Reg.fioAioPress : Nat := 0x09060C
/-- FIO_AIO_STAT. -/
abbrev Reg.fioAioStat : Nat := 0x090610
/-- FIO_AIO_RAW. -/
abbrev Reg.fioAioRaw : Nat := 0x090614
/-- FIO_AIO_VALUE. -/
abbrev Reg.fioAioValue : Nat := 0x090618
/-- FIO_AIO_TRIMCMD. -/
abbrev Reg.fioAioTrimcmd : Nat := 0x09061C
/-- FIO_AIO_TRIMREF. -/
abbrev Reg.fioAioTrimref : Nat := 0x090620
/-- FIO_AIO_TRIMST. -/
abbrev Reg.fioAioTrimst : Nat := 0x090624
/-- FIO_AIO_CNT. -/
abbrev Reg.fioAioCnt : Nat := 0x090628
/-- FIO_AIO_HART. -/
abbrev Reg.fioAioHart : Nat := 0x09062C
/-- FIO_HART_HCTL. -/
abbrev Reg.fioHartHctl : Nat := 0x090A00
/-- FIO_HART_HSTAT. -/
abbrev Reg.fioHartHstat : Nat := 0x090A04
/-- FIO_HART_HREQ. -/
abbrev Reg.fioHartHreq : Nat := 0x090B00
/-- FIO_HART_HRSP. -/
abbrev Reg.fioHartHrsp : Nat := 0x090D00
/-- SAF_STAT. -/
abbrev Reg.safStat : Nat := 0x0A0000
/-- SAF_PSTAT. -/
abbrev Reg.safPstat : Nat := 0x0A0004
/-- SAF_LOCK. -/
abbrev Reg.safLock : Nat := 0x0A0008
/-- SAF_LOCKINFO. -/
abbrev Reg.safLockinfo : Nat := 0x0A000C
/-- SAF_CFGCRC. -/
abbrev Reg.safCfgcrc : Nat := 0x0A0010
/-- SAF_SELCRC. -/
abbrev Reg.safSelcrc : Nat := 0x0A0014
/-- SAF_CNT. -/
abbrev Reg.safCnt : Nat := 0x0A0018
/-- SAF_SPCYC. -/
abbrev Reg.safSpcyc : Nat := 0x0A001C
/-- SAF_MBOX_APP. -/
abbrev Reg.safMboxApp : Nat := 0x0A0020
/-- SAF_MBOX_HOST. -/
abbrev Reg.safMboxHost : Nat := 0x0A0024
/-- SAF_TP. -/
abbrev Reg.safTp : Nat := 0x0A0028
/-- SAF_SI_CFG. -/
abbrev Reg.safSiCfg : Nat := 0x0A0040
/-- SAF_SI_STAT. -/
abbrev Reg.safSiStat : Nat := 0x0A0060
/-- SAF_SI_CNT. -/
abbrev Reg.safSiCnt : Nat := 0x0A0080
/-- SAF_SO_CFG. -/
abbrev Reg.safSoCfg : Nat := 0x0A00A0
/-- SAF_SO_STAT. -/
abbrev Reg.safSoStat : Nat := 0x0A00B0
/-- SAF_SO_CNT. -/
abbrev Reg.safSoCnt : Nat := 0x0A00C0
/-- SAF_WSC_SEL. -/
abbrev Reg.safWscSel : Nat := 0x0A0100
/-- SAF_WSC_CFG. -/
abbrev Reg.safWscCfg : Nat := 0x0A0104
/-- SAF_WSC_ID. -/
abbrev Reg.safWscId : Nat := 0x0A0108
/-- SAF_WSC_STAT. -/
abbrev Reg.safWscStat : Nat := 0x0A010C
/-- SAF_WSC_TX. -/
abbrev Reg.safWscTx : Nat := 0x0A0110
/-- SAF_WSC_ERR. -/
abbrev Reg.safWscErr : Nat := 0x0A0114
/-- SAF_WSC_RTT. -/
abbrev Reg.safWscRtt : Nat := 0x0A0118
/-- SAF_WSC_FAILED. -/
abbrev Reg.safWscFailed : Nat := 0x0A0200
/-- TLY_STAT. -/
abbrev Reg.tlyStat : Nat := 0x0B0000
/-- TLY_PSTAT. -/
abbrev Reg.tlyPstat : Nat := 0x0B0004
/-- TLY_SEQ. -/
abbrev Reg.tlySeq : Nat := 0x0B0008
/-- TLY_OLDEST. -/
abbrev Reg.tlyOldest : Nat := 0x0B000C
/-- TLY_AOLDEST. -/
abbrev Reg.tlyAoldest : Nat := 0x0B0010
/-- TLY_AFREE. -/
abbrev Reg.tlyAfree : Nat := 0x0B0014
/-- TLY_NONCE_LO. -/
abbrev Reg.tlyNonceLo : Nat := 0x0B0018
/-- TLY_NONCE_HI. -/
abbrev Reg.tlyNonceHi : Nat := 0x0B001C
/-- TLY_OVWCNT. -/
abbrev Reg.tlyOvwcnt : Nat := 0x0B0020
/-- TLY_DROPCNT. -/
abbrev Reg.tlyDropcnt : Nat := 0x0B0024
/-- TLY_AUDITLOST. -/
abbrev Reg.tlyAuditlost : Nat := 0x0B0028
/-- TLY_QLOST. -/
abbrev Reg.tlyQlost : Nat := 0x0B002C
/-- TLY_SEALFAIL. -/
abbrev Reg.tlySealfail : Nat := 0x0B0030
/-- TLY_CLRCNT. -/
abbrev Reg.tlyClrcnt : Nat := 0x0B0034
/-- TLY_SEVMIN. -/
abbrev Reg.tlySevmin : Nat := 0x0B0038
/-- TLY_RDSEQ. -/
abbrev Reg.tlyRdseq : Nat := 0x0B0040
/-- TLY_RDREG. -/
abbrev Reg.tlyRdreg : Nat := 0x0B0044
/-- TLY_RDSTAT. -/
abbrev Reg.tlyRdstat : Nat := 0x0B0048
/-- TLY_CLR_FROM. -/
abbrev Reg.tlyClrFrom : Nat := 0x0B0050
/-- TLY_CLR_TO. -/
abbrev Reg.tlyClrTo : Nat := 0x0B0054
/-- TLY_CLRKEY. -/
abbrev Reg.tlyClrkey : Nat := 0x0B005C
/-- TLY_RDBUF. -/
abbrev Reg.tlyRdbuf : Nat := 0x0B0400
/-- MEM_STAT. -/
abbrev Reg.memStat : Nat := 0x0C0000
/-- MEM_CECNT. -/
abbrev Reg.memCecnt : Nat := 0x0C0004
/-- MEM_UECNT. -/
abbrev Reg.memUecnt : Nat := 0x0C0008
/-- MEM_CE_ADDR_LO. -/
abbrev Reg.memCeAddrLo : Nat := 0x0C000C
/-- MEM_CE_ADDR_HI. -/
abbrev Reg.memCeAddrHi : Nat := 0x0C0010
/-- MEM_CE_INFO. -/
abbrev Reg.memCeInfo : Nat := 0x0C0014
/-- MEM_UE_ADDR_LO. -/
abbrev Reg.memUeAddrLo : Nat := 0x0C0018
/-- MEM_UE_ADDR_HI. -/
abbrev Reg.memUeAddrHi : Nat := 0x0C001C
/-- MEM_UE_INFO. -/
abbrev Reg.memUeInfo : Nat := 0x0C0020
/-- MEM_RINSE_PERIOD. -/
abbrev Reg.memRinsePeriod : Nat := 0x0C0024
/-- MEM_RINSE_PRESS. -/
abbrev Reg.memRinsePress : Nat := 0x0C0028
/-- MEM_RINSE_POS. -/
abbrev Reg.memRinsePos : Nat := 0x0C002C
/-- MEM_RINSE_STAT. -/
abbrev Reg.memRinseStat : Nat := 0x0C0030
/-- MEM_RINSE_LAST. -/
abbrev Reg.memRinseLast : Nat := 0x0C0034
/-- MEM_MARKTHR. -/
abbrev Reg.memMarkthr : Nat := 0x0C0038
/-- MEM_DEV. -/
abbrev Reg.memDev : Nat := 0x0C0040
/-- MEM_SRAM_CE. -/
abbrev Reg.memSramCe : Nat := 0x0C0090
/-- MEM_SRAM_UE. -/
abbrev Reg.memSramUe : Nat := 0x0C0094
/-- MEM_MRAM_CE. -/
abbrev Reg.memMramCe : Nat := 0x0C0098
/-- MEM_MRAM_UE. -/
abbrev Reg.memMramUe : Nat := 0x0C009C
/-- MEM_INJ_ADDR_LO. -/
abbrev Reg.memInjAddrLo : Nat := 0x0C00B0
/-- MEM_INJ_ADDR_HI. -/
abbrev Reg.memInjAddrHi : Nat := 0x0C00B4
/-- MEM_INJ_MASK. -/
abbrev Reg.memInjMask : Nat := 0x0C00B8
/-- MEM_INJ_CTRL. -/
abbrev Reg.memInjCtrl : Nat := 0x0C00BC
/-- BOOT_STAT. -/
abbrev Reg.bootStat : Nat := 0x0D0000
/-- BOOT_FWVER. -/
abbrev Reg.bootFwver : Nat := 0x0D0004
/-- BOOT_FWSVN. -/
abbrev Reg.bootFwsvn : Nat := 0x0D0008
/-- BOOT_BANKA_VER. -/
abbrev Reg.bootBankaVer : Nat := 0x0D000C
/-- BOOT_BANKB_VER. -/
abbrev Reg.bootBankbVer : Nat := 0x0D0010
/-- BOOT_CFG_ACT. -/
abbrev Reg.bootCfgAct : Nat := 0x0D0014
/-- BOOT_CFG_PREV. -/
abbrev Reg.bootCfgPrev : Nat := 0x0D0018
/-- BOOT_CFG_HIGH. -/
abbrev Reg.bootCfgHigh : Nat := 0x0D001C
/-- BOOT_STG. -/
abbrev Reg.bootStg : Nat := 0x0D0020
/-- BOOT_STG_FWLEN. -/
abbrev Reg.bootStgFwlen : Nat := 0x0D0024
/-- BOOT_STG_CFGLEN. -/
abbrev Reg.bootStgCfglen : Nat := 0x0D0028
/-- BOOT_ACT_STAT. -/
abbrev Reg.bootActStat : Nat := 0x0D0030
/-- BOOT_ACT_AT_LO. -/
abbrev Reg.bootActAtLo : Nat := 0x0D0034
/-- BOOT_ACT_AT_HI. -/
abbrev Reg.bootActAtHi : Nat := 0x0D0038
/-- BOOT_ACT_PAUSE. -/
abbrev Reg.bootActPause : Nat := 0x0D003C
/-- BOOT_MIG_LEFT. -/
abbrev Reg.bootMigLeft : Nat := 0x0D0040
/-- BOOT_SETTLE. -/
abbrev Reg.bootSettle : Nat := 0x0D0044
/-- BOOT_KS. -/
abbrev Reg.bootKs : Nat := 0x0D0048
/-- BOOT_LD_ADDR_LO. -/
abbrev Reg.bootLdAddrLo : Nat := 0x0D0050
/-- BOOT_LD_ADDR_HI. -/
abbrev Reg.bootLdAddrHi : Nat := 0x0D0054
/-- BOOT_LD_LEN. -/
abbrev Reg.bootLdLen : Nat := 0x0D0058
/-- BOOT_LD_KEY. -/
abbrev Reg.bootLdKey : Nat := 0x0D005C
/-- BOOT_LD_STAT. -/
abbrev Reg.bootLdStat : Nat := 0x0D0060
/-- BOOT_MEAS. -/
abbrev Reg.bootMeas : Nat := 0x0D0100
/-- PWR_STAT. -/
abbrev Reg.pwrStat : Nat := 0x0E0000
/-- PWR_PSTAT. -/
abbrev Reg.pwrPstat : Nat := 0x0E0004
/-- PWR_FEEDA. -/
abbrev Reg.pwrFeeda : Nat := 0x0E0008
/-- PWR_FEEDB. -/
abbrev Reg.pwrFeedb : Nat := 0x0E000C
/-- PWR_BUS. -/
abbrev Reg.pwrBus : Nat := 0x0E0010
/-- PWR_POWER. -/
abbrev Reg.pwrPower : Nat := 0x0E0014
/-- PWR_PFCNT. -/
abbrev Reg.pwrPfcnt : Nat := 0x0E0018
/-- PWR_PFLAST. -/
abbrev Reg.pwrPflast : Nat := 0x0E001C
/-- PWR_RAIL. -/
abbrev Reg.pwrRail : Nat := 0x0E0020
/-- PWR_TEMP. -/
abbrev Reg.pwrTemp : Nat := 0x0E0024
/-- PWR_TBOARD. -/
abbrev Reg.pwrTboard : Nat := 0x0E0028
/-- PWR_TWARN. -/
abbrev Reg.pwrTwarn : Nat := 0x0E002C
/-- PWR_VRET. -/
abbrev Reg.pwrVret : Nat := 0x0E0030
/-- PWR_RETSEC. -/
abbrev Reg.pwrRetsec : Nat := 0x0E0034
/-- PWR_SFEED. -/
abbrev Reg.pwrSfeed : Nat := 0x0E0038
/-- PWR_LED. -/
abbrev Reg.pwrLed : Nat := 0x0E003C
/-- PWR_IDENT. -/
abbrev Reg.pwrIdent : Nat := 0x0E0040

/-- The current value, or the staging copy, of the register at `o`. -/
def State.reg (s : State) (o : Nat) : Word := s.regs.look o (rstOf o)

/-- The live copy of the RWP register at `o` (R80). -/
def State.liveReg (s : State) (o : Nat) : Word := s.live.look o (rstOf o)

/-- `s` with the current value or staging copy of the register at `o` set. -/
def State.setReg (o : Nat) (v : Word) (s : State) : State := { s with regs := s.regs.put o v }

/-- `s` with the live copy of the register at `o` set. -/
def State.setLive (o : Nat) (v : Word) (s : State) : State := { s with live := s.live.put o v }

/-- The three copies of the RWV register at `o`. -/
def State.vote (s : State) (o : Nat) : Vote := s.votes.look o { a := rstOf o, b := rstOf o, c := rstOf o }

/-- The value a vote gives (R76): the majority, or the safe default `d` where all three copies differ. -/
def Vote.val (v : Vote) (d : Word) : Word := if v.a = v.b ∨ v.a = v.c then v.a else if v.b = v.c then v.b else d

/-- The value of the RWV register at `o` (R62): the majority of its three copies; the safe default is its reset value
(R77: every register map names the reset value, or none, as the default), at which a field whose copies have all differed stays until
software writes it. -/
def State.voted (s : State) (o : Nat) : Word := if (s.vote o).atDefault then rstOf o else (s.vote o).val (rstOf o)

/-- Written with the majority voting, all three copies take the value, and the field leaves its safe default (R77). -/
def State.setVote (o : Nat) (v : Word) (s : State) : State :=
  { s with votes := s.votes.put o { a := v, b := v, c := v } }

end Sys2Proof.Machine
end

