-- ==== Sys2Proof/Machine/Ops.lean ====
section
/-! DEFINITION. The operations every block shares: the clocks, Tally records, events and interrupts, the mode and the
role, the safety lock-out, and what a command leaves to be reported. -/

namespace Sys2Proof.Machine

/-! Times. -/

/-- Operating time in ms (spec/03_register_conventions.md R89). -/
def State.opMs (s : State) : Nat := s.sys.opNs / 1000000

/-- Local short time (spec/11_time.md R296): the full time in ns modulo 2³². -/
def State.short (s : State) : Word := BitVec.ofNat 32 s.tim.ns

/-- Seconds field of the local full time. -/
def State.secs (s : State) : Nat := s.tim.ns / 1000000000 % 2 ^ 48

/-- Nanoseconds field of the local full time. -/
def State.nanos (s : State) : Nat := s.tim.ns % 1000000000

/-- Domain `d` is enabled (spec/11_time.md Table 11.6, TIM_DOM_CFG bit 8). -/
def State.domEn (s : State) (d : Nat) : Bool := bits (s.reg (Reg.timDomCfg + 0x40 * d)) 8 1 = 1

/-- One time domain. -/
def State.dom (s : State) (d : Nat) : Dom := s.tim.doms.look d {}

/-- Domain `d` is synchronised (spec/11_time.md R304). -/
def State.domLocked (s : State) (d : Nat) : Bool := s.domEn d && decide ((s.dom d).state = .locked)

/-- The short time of domain A; 0 while domain A is not LOCKED (spec/04_host_rings.md Table 4.5, spec/11_time.md R304). -/
def State.accTime (s : State) : Word :=
  if s.domLocked 0 then s.short + BitVec.ofInt 32 (s.dom 0).ofs else 0

/-! Free values (log entry 5). -/

/-- The next free word, and the state that has drawn it. -/
def State.draw (s : State) : DWord × State := (Config.freeWord s.freeN, { s with freeN := s.freeN + 1 })

/-- What the next start that no command describes finds, and the state that has drawn it (log entry 111). -/
def State.drawObs (s : State) : BootObs × State := (Config.freeObs s.freeN, { s with freeN := s.freeN + 1 })

/-! Codes. -/

/-- INSYNC (spec/09_duplex_pair.md R241). -/
def State.insync (s : State) : Bool := decide (s.dpx.state = .insync)

/-- The safety lock-out is latched: either latch is set (spec/14_safety.md R386), once SP and the Selvedge logic have
started in this start (R370; log entry 11). -/
def State.locked (s : State) : Bool := s.saf.started && (s.saf.sel.set || s.saf.sp.set)

/-- SYS_MODE (spec/03_register_conventions.md Table 3.12). -/
def State.sysMode (s : State) : Word :=
  wordOf [(0, s.sys.mode.code), (4, bit s.sys.trans.isSome), (8, bit s.sys.primary), (9, bit s.sys.lone),
    (10, bit s.insync), (12, s.sys.from_.code)]

/-- SYS_FAULT (spec/03_register_conventions.md Table 3.14, R90): each bit reads 1 while its cause exists. -/
def State.sysFault (s : State) : Word :=
  wordOf [
    (0, bit (s.votes.anyV Vote.atDefault)),
    (1, bit (!s.sys.parTrip.isEmpty)),
    (2, bit (s.lsp.anyV fun p => p.failed || p.broken)),
    (3, bit s.mm.markDev.isSome),
    (4, bit (s.pwr.pfail || !s.pwr.feedA || !s.pwr.feedB)),
    (5, bit s.locked),
    (6, bit (s.net.stns.anyV Stn.failed || s.net.rings.anyV NRing.opened)),
    (7, bit (decide (s.dpx.state ≠ .lone) && !s.insync)),
    (8, bit ((s.domEn 0 && !s.domLocked 0) || (s.domEn 1 && !s.domLocked 1))),
    (9, bit (s.posted.anyV Posted.failed)),
    (10, bit s.sys.hostLost),
    (16, if s.sys.mode = .faultHalt then s.sys.haltCause.toNat else 0)]

/-! What leaves the module. -/

/-- `s` after `o` has left the module. -/
def State.put (o : Out) (s : State) : State := { s with outbox := s.outbox ++ [o] }

/-- An MSI-X message of vector `v`; a masked vector sets its pending bit (spec/04_host_rings.md R120). -/
def State.msix (v : Nat) (s : State) : State :=
  if v ∈ s.hif.msixMask then
    { s with hif := { s.hif with msixPend := if v ∈ s.hif.msixPend then s.hif.msixPend else s.hif.msixPend ++ [v] } }
  else s.put (.msix v)

/-- How many entries of a ring of 2^k entries lie from `a` forward to `b`. -/
def ringDist (k a b : Nat) : Nat := (b + 2 ^ k - a) % 2 ^ k

/-- An event (spec/04_host_rings.md R121): generated only while an event ring exists; dropped and counted while it is
full or halted; the first event written after a drop carries LOSS. -/
def State.event (code : BitVec 16) (sev : Nat) (source : Word) (detail : List Byte) (s : State) : State :=
  if !s.hif.ev.live then s
  else
    let seq := s.hif.evSeq + 1
    let e := s.hif.ev
    if e.halted || decide (ringDist e.k e.tail e.headDb = 1) then
      { s with hif := { s.hif with evSeq := seq, evtLost := s.hif.evtLost + 1, evLoss := true } }
    else
      let out : Evt := { code := code, sev := sev, phase := e.phase, loss := s.hif.evLoss, source := source, seq := seq,
                         optime := BitVec.ofNat 48 s.opMs, detail := padTo 40 detail }
      let t := (e.tail + 1) % 2 ^ e.k
      let h := { s.hif with evSeq := seq, evLoss := false,
                            ev := { e with tail := t, phase := if t = 0 then !e.phase else e.phase } }
      (({ s with hif := h }).put (.event out)).msix e.vector

/-! Tally records. -/

/-- NTV of a payload head (spec/15_tally_recorder.md R406). -/
def State.ntv (s : State) : Bool := s.tim.set && s.domLocked (bit s.tim.sel)

/-- The payload head of a record (spec/15_tally_recorder.md Table 15.2). -/
def State.recHead (s : State) (code : Nat) : List Byte :=
  le 2 code ++ [BitVec.ofNat 8 (bit s.ntv), BitVec.ofNat 8 (bits s.sysMode 0 8)] ++
    (if s.ntv then le 4 s.nanos ++ le 6 s.secs else le 10 0) ++ [0, 0]

/-- The length of a record in units of 8 bytes (spec/15_tally_recorder.md R405). -/
def TRec.len (r : TRec) : Nat := 3 + (r.payload.length + 7) / 8

/-- The lowest severity queued (spec/15_tally_recorder.md R410): a value above 2 acts as 2. -/
def State.sevMin (s : State) : Nat := min 2 (bits (s.voted Reg.tlySevmin) 0 3)

/-- A record enters the Tally unit's queue and takes its sequence number, or finds the 64 KiB full
(spec/15_tally_recorder.md R409, R410). -/
def State.intoQueue (r : TRec) (s : State) : State :=
  if (s.tly.queue.map TRec.len).sum + r.len > 8192 then { s with tly := { s.tly with qLost := s.tly.qLost + 1 } }
  else { s with tly := { s.tly with queue := s.tly.queue ++ [{ r with seq := s.tly.seq }], seq := s.tly.seq + 1 } }

/-- A record of more than 128 units is refused, counted in TLY_DROPCNT and told of in an error record that names its source
(spec/15_tally_recorder.md R405). -/
def State.refuseRec (r : TRec) (s : State) : State :=
  ({ s with tly := { s.tly with drop := s.tly.drop + 1 } }).intoQueue
    { sev := 4, source := 0x0B, pwrcyc := r.pwrcyc, optime := r.optime,
      payload := pad8 (s.recHead 0x0B02 ++ [BitVec.ofNat 8 r.source, BitVec.ofNat 8 r.len]) }

/-- A record of a legal length is queued (spec/15_tally_recorder.md R405). -/
def State.enqueue (r : TRec) (s : State) : State := if r.len ≤ 128 then s.intoQueue r else s.refuseRec r

/-- The module writes the record `code` of Table 15.7 (spec/15_tally_recorder.md R406, R407). -/
def State.log (code sev : Nat) (detail : List Byte) (s : State) : State :=
  if sev < s.sevMin then s
  else s.enqueue { sev := sev, source := code / 256, pwrcyc := s.sys.pwrcyc, optime := BitVec.ofNat 48 s.opMs,
                   payload := pad8 (s.recHead code ++ detail) }

/-! What a command reports when it has been executed. -/

/-- The severity of the event that reports a change of SYS_FAULT, role or INSYNC (log entry 12: 3, the warning level). -/
def reportSev : Nat := 3

/-- The events of Table 4.11 for what `t` holds otherwise than `s`: ROLE_CHANGE, SYNC_CHANGE and FAULT_CHANGE
(spec/04_host_rings.md R121). -/
def report (s t : State) : State :=
  let t1 := if s.sys.primary = t.sys.primary then t
    else t.event 2 reportSev t.sysMode (le 4 t.cfg.partnerNode.toNat)
  let t2 := if s.insync = t1.insync then t1 else t1.event 3 reportSev (BitVec.ofNat 32 (bit t1.insync)) []
  if s.sysFault = t2.sysFault then t2 else t2.event 4 reportSev t2.sysFault []

/-! Safety outputs and the lock-out. -/

/-- Both switches of every safety output open (spec/14_safety.md R386). -/
def State.soOff (s : State) : State :=
  let off : List Nat := (s.saf.so.filter fun (e : Nat × So) => e.2.hs || e.2.ls).map Prod.fst
  let n := s.saf.so.mapV fun o => { o with hs := false, ls := false, wait := false, rearmSel := false, rearmSp := false }
  off.foldl (fun (t : State) k => t.put (.so k false false)) { s with saf := { s.saf with so := n } }

/-- Cause `c` of Table 14.2 is present. -/
def Saf.isPresent (f : Saf) (c : Nat) : Bool := f.present.getLsbD c

/-- `f` with cause `c` present or gone. -/
def Saf.setPresent (f : Saf) (c : Nat) (b : Bool) : Saf :=
  { f with present := if b then f.present ||| (1#16 <<< c) else f.present &&& ~~~(1#16 <<< c) }

/-- A detected safety fault of cause `c` (spec/14_safety.md R386). Both latches set and every safety output goes off; the
first cause is kept in CAUSE and LOCKINFO; the onset of each cause writes a record of severity 6, by its finder. -/
def State.lockout (c kind index : Nat) (bySp chb : Bool) (s : State) : State :=
  let onset := !s.saf.isPresent c
  let fresh := !(s.saf.sel.set || s.saf.sp.set)
  let f := if fresh then
      { s.saf with cause := BitVec.ofNat 5 c, infoIndex := BitVec.ofNat 6 index, infoKind := BitVec.ofNat 2 kind,
                   infoSp := bySp, infoChb := chb, cntLock := s.saf.cntLock + 1, openLock := BitVec.ofNat 5 c }
    else s.saf
  let g := { f with sel := { f.sel with set := true }, sp := { f.sp with set := true } }.setPresent c true
  let t := ({ s with saf := g }).soOff
  if onset || fresh then
    t.log (if bySp then 0x0A01 else 0x1101) 6
      [BitVec.ofNat 8 c, BitVec.ofNat 8 kind, BitVec.ofNat 8 index, BitVec.ofNat 8 (bit bySp + 2 * bit chb)]
  else t

/-! The mode and the role. -/

/-- The primary role is allowed in the mode (spec/02_modes_and_startup.md R32); `entry` is the mode HOLD was entered from. -/
def roleAllowed (m entry : Mode) : Bool :=
  match m with
  | .commission | .test | .stop | .run | .takeover | .activate => true
  | .hold => decide (entry = .commission ∨ entry = .test)
  | _ => false

/-- Descriptor rings are accepted in the mode (spec/04_host_rings.md R97). -/
def readyIn (m : Mode) : Bool := match m with | .retain | .boot => false | _ => true

/-- The severity of a mode change (spec/02_modes_and_startup.md Table 2.1a): 5 to FAULT-HALT, 4 to RECOVERY and, for a
detected failure, to TAKEOVER; otherwise 2. -/
def modeSev (m : Mode) (cause : Nat) : Nat :=
  match m with
  | .faultHalt => 5
  | .recovery => 4
  | .takeover => if cause = 5 then 4 else 2
  | _ => 2

/-- The detail of a mode-change record (spec/15_tally_recorder.md Table 15.7, code 0x0001). -/
def State.modeDetail (s : State) (old : Mode) (cause : Nat) : List Byte :=
  [BitVec.ofNat 8 old.code, BitVec.ofNat 8 s.sys.mode.code, BitVec.ofNat 8 cause, BitVec.ofNat 8 (bit s.sys.primary)] ++
    le 4 s.sysFault.toNat

/-- Every force is cleared (spec/02_modes_and_startup.md R42). -/
def State.clearForces (s : State) : State := { s with cyc := { s.cyc with forces := [] } }

/-- The role after a change to mode `m` (R31, R32): a forbidding mode ends it; a lone module takes it again. -/
def State.roleIn (s : State) (m : Mode) : Bool :=
  roleAllowed m s.sys.mode && (s.sys.primary || (s.sys.lone && decide (m ≠ .boot)))

/-- The module is in mode `m` (R27, R28): FROM keeps the mode left, the transition ends, the role follows R32, and a
record and a MODE_CHANGE event report the change. An exit from TEST clears the forces (R42) and the armed injection
(spec/16_memory_integrity.md R437). -/
def State.setMode (m : Mode) (cause : Nat) (s : State) : State :=
  let old := s.sys.mode
  let t := { s with
    sys := { s.sys with mode := m, trans := none, from_ := old, primary := s.roleIn m,
                        haltCause := if m = Mode.faultHalt then s.sys.haltCause else 0 }
    hif := { s.hif with ready := readyIn m } }
  let t := if old = .test then { t.clearForces with mm := { t.mm with inj := [] } } else t
  let t := if old = .faultHalt then { t with saf := t.saf.setPresent 2 false } else t
  let sev := modeSev m cause
  (t.log 0x0001 sev (t.modeDetail old cause)).event 1 sev (BitVec.ofNat 32 (old.code + 16 * m.code)) []

/-- A transition to `m` is in progress (R51); `slot` is the ring whose command it completes. -/
def State.beginTrans (m : Mode) (cause slot : Nat) (s : State) : State :=
  { s with sys := { s.sys with trans := some { dst := m, cause := cause, slot := slot } } }

/-- A commanded transition in progress is abandoned (R52): its command completes with MODE_PREEMPTED once its ring is
served. -/
def State.preempt (s : State) : State :=
  match s.sys.trans with
  | some t => { s with sys := { s.sys with trans := none, preempted := s.sys.preempted ++ [t.slot] } }
  | none => s

/-- Is the module powered: every mode but RETAIN. -/
def State.powered (s : State) : Bool := decide (s.sys.mode ≠ .retain)

/-- The modes in which registers are served from boot step 2 on (R58) and the engines run. -/
def State.alive (s : State) : Bool := s.powered && !s.pwr.shutdown

end Sys2Proof.Machine
end

