-- ==== Sys2Proof/Machine/Follow.lean ====
section
/-! DEFINITION. The local outputs and the CAN channels, as far as every change of mode or role moves them
(spec/13_local_field_io.md R346 to R359, spec/12_can.md R325, R326), and how a command ends. -/

namespace Sys2Proof.Machine

/-! CAN channels. -/

/-- One CAN channel. -/
def State.chan (s : State) (c : Nat) : Can := s.can.look c {}

/-- `s` with CAN channel `c` changed by `f`. -/
def State.updCan (c : Nat) (f : Can → Can) (s : State) : State := { s with can := s.can.upd c {} f }

/-- The queues of CAN channel `c`. -/
def State.canQ (s : State) (c : Nat) : CanQ := s.canq.look c {}

/-- `s` with the queues of CAN channel `c` changed by `f`. -/
def State.updCanQ (c : Nat) (f : CanQ → CanQ) (s : State) : State := { s with canq := s.canq.upd c {} f }

/-- The register at channel offset `o` of channel `c` (R340). -/
def canReg (c o : Nat) : Nat := 0x080000 + 0x2000 * c + o

/-- CAN_CFG of channel `c`. -/
def State.canCfg (s : State) (c : Nat) : Word := s.reg (canReg c 0x8)

/-- The channel is configured (Table 12.12, CAN_CFG.EN). -/
def State.canSet (s : State) (c : Nat) : Bool := bits (s.canCfg c) 28 1 = 1

/-- The channel's state in the module's mode and role (Table 12.2): `none` leaves it as it is (TAKEOVER); otherwise off and
listen-only. -/
def State.canWants (s : State) : Option (Bool × Bool) :=
  match s.sys.mode with
  | .commission | .test | .stop | .hold => some (false, false)
  | .run => some (false, !s.sys.primary)
  | .activate => some (false, false)
  | .takeover => none
  | .retain | .boot | .idleLink | .faultHalt | .recovery => some (true, false)

/-- The queues of a channel that no longer reads them (R326): what it has fetched is abandoned, and the indices of every queue are 0 on
both sides. -/
def CanQ.abandon (x : CanQ) : CanQ :=
  { ctl := [0, 1, 2].foldl (fun (t : Tab Mem) (q : Nat) => t.upd q [] fun m => (m.wrN 0 [0, 0]).wrN 32 [0, 0]) x.ctl, ent := x.ent,
    recoverRd := x.recoverRd }

/-- A channel follows the mode: where its queues are no longer read, they and the entry in progress are abandoned; where it
goes bus-on, its error counters are 0 (R326). -/
def State.canFollow (c : Nat) (s : State) : State :=
  match s.canWants with
  | none => s
  | some (off, listen) =>
    let x := s.chan c
    let wasOn := !x.off && !x.listen
    let on := !off && !listen
    if decide (x.off = off) && decide (x.listen = listen) then s
    else
      let t := s.updCan c fun y =>
        let z := { y with off := off, listen := listen, txActive := false, txErr := false, rx0Err := false, rx1Err := false }
        if on && !wasOn then { z with tec := 0, recv := 0, estate := 0, pex := false } else z
      if on then t else t.updCanQ c CanQ.abandon

/-- Every configured channel follows the mode and the role. -/
def State.canSync (s : State) : State :=
  (List.range 8).foldl (fun (t : State) c => if t.canSet c then t.canFollow c else t) s

/-! Digital channels (spec/13_local_field_io.md). -/

/-- One DIO channel. -/
def State.dio (s : State) (n : Nat) : Dio := s.fio.dio.look n {}

/-- `s` with DIO channel `n` changed by `f`. -/
def State.updDio (n : Nat) (f : Dio → Dio) (s : State) : State := { s with fio := { s.fio with dio := s.fio.dio.upd n {} f } }

/-- FIO_DIO_CFG of channel `n`. -/
def State.dioCfg (s : State) (n : Nat) : Word := s.reg (Reg.fioDioCfg + 0x20 * n)

/-- DIO channel `n` is configured (Table 13.4, EN). -/
def State.dioSet (s : State) (n : Nat) : Bool := bits (s.dioCfg n) 6 1 = 1

/-- DIO channel `n` is a configured output. -/
def State.dioOut (s : State) (n : Nat) : Bool := s.dioSet n && decide (bits (s.dioCfg n) 0 1 = 1)

/-- The level that an output drives (R343, R347, R350): `none` while it floats. -/
def Dio.level (d : Dio) : Option Bool := if d.tripped || d.latched then none else some (d.state && !d.feedLost)

/-- An output after a change of what it drives: RBERR goes where the pin reads what is driven (R346). -/
def Dio.settle (d : Dio) : Dio :=
  if d.rberr then (if d.level = some d.rb then { d with rberr := false } else d) else { d with rb := d.level.getD d.rb }

/-- An output changed by `f`; a changed level leaves the module. -/
def State.driveWith (n : Nat) (f : Dio → Dio) (s : State) : State :=
  let d := s.dio n
  let e := (f d).settle
  let t := s.updDio n fun _ => e
  if d.level = e.level then t else t.put (.dio n e.level)

/-- The value in force of DIO output `n`. -/
def State.driveDio (n : Nat) (v : Bool) (s : State) : State :=
  if s.dioOut n then s.driveWith n fun d => { d with state := v } else s

/-! Analogue channels. -/

/-- One AIO channel. -/
def State.aio (s : State) (n : Nat) : Aio := s.fio.aio.look n {}

/-- `s` with AIO channel `n` changed by `f`. -/
def State.updAio (n : Nat) (f : Aio → Aio) (s : State) : State := { s with fio := { s.fio with aio := s.fio.aio.upd n {} f } }

/-- FIO_AIO_CFG of channel `n`. -/
def State.aioCfg (s : State) (n : Nat) : Word := s.reg (Reg.fioAioCfg + 0x40 * n)

/-- AIO channel `n` is configured (Table 13.4, EN). -/
def State.aioSet (s : State) (n : Nat) : Bool := bits (s.aioCfg n) 8 1 = 1

/-- RANGE of Table 13.1. -/
def State.aioRange (s : State) (n : Nat) : Nat := bits (s.aioCfg n) 0 3

/-- AIO channel `n` is a configured output. -/
def State.aioOut (s : State) (n : Nat) : Bool := s.aioSet n && decide (s.aioRange n = 5)

/-- The fail-direction strap of the group of channel `n` is fitted (R357). -/
def State.strapped (s : State) (n : Nat) : Bool := if n < 8 then s.fio.strap0 else s.fio.strap1

/-- The current for the engineering value `u` (R353), to the nearest 0.1 µA (log entry 26). -/
def State.aoCurrent (s : State) (n : Nat) (u : Word) : Int :=
  let c := s.cfg.aio.look n {}
  let t := F32.div (F32.sub u c.elo) (F32.sub c.ehi c.elo)
  max 38000 (min 205000 ((F32.toIntScaled (F32.add (F32.ofRat 4 1) (F32.mul (F32.ofRat 16 1) t)) 20000 + 1) / 2))

/-- The engineering value that stands `num` / `den` of the way from ELO to EHI (R353). -/
def State.engValue (s : State) (n : Nat) (num : Int) (den : Nat) : Word :=
  let c := s.cfg.aio.look n {}
  F32.add c.elo (F32.mul (F32.sub c.ehi c.elo) (F32.ofRat num den))

/-- The current that AO `n` measures, scaled back (R358, spec/07_loop_engines.md R205). -/
def State.aioBack (s : State) (n : Nat) : Word := s.engValue n ((s.aio n).raw.toInt - 40000) 160000

/-- The inverse of the user trim, applied to a commanded current (R361). -/
def Aio.untrim (a : Aio) (i : Int) : Int :=
  match a.cal with
  | some (mLo, rLo, mHi, rHi) => if rHi = rLo then i else mLo + (i - rLo) * (mHi - mLo) / (rHi - rLo)
  | none => i

/-- An AO commands the current `i`; a channel driving a trim point keeps it (R360). -/
def State.command (n : Nat) (i : Int) (f : Aio → Aio) (s : State) : State :=
  if !s.aioOut n || (s.aio n).driven then s
  else
    let t := s.updAio n fun a => f { a with cmd := i, raw := BitVec.ofInt 24 i }
    if (s.aio n).cmd = i then t else t.put (.aio n ((s.aio n).untrim i))

/-- The current of a fail value (R355 to R357). -/
def State.failCurrent (s : State) (n : Nat) : Int :=
  let f := bits (s.voted (Reg.fioAioFail + 0x40 * n)) 0 2
  if s.strapped n then 35000
  else if f = 0 then 215000
  else if f = 2 then (s.aio n).lastI.getD 35000
  else 35000

/-- AO `n` carries its fail value (R355). -/
def State.driveFail (n : Nat) (s : State) : State :=
  s.command n (s.failCurrent n) fun a => { a with failout := true, zero := false }

/-- AO `n` carries 0 mA, or the strap's current in its place (Table 2.2, R357). -/
def State.driveZero (n : Nat) (s : State) : State :=
  s.command n (if s.strapped n then 32000 else 0) fun a => { a with failout := false, zero := true }

/-- AO `n` carries the engineering value `u`; a NaN or an infinity makes it carry its fail value (R355). -/
def State.driveAo (n : Nat) (u : Word) (s : State) : State :=
  if F32.isFinite u then
    let i := s.aoCurrent n u
    s.command n i fun a => { a with value := u, failout := false, zero := false, lastI := some i }
  else s.driveFail n

/-- AO `n` carries its safe value (R355). -/
def State.driveSafe (n : Nat) (s : State) : State :=
  match (s.cfg.aio.look n {}).safe with
  | some u => s.driveAo n u
  | none => s.driveFail n

/-- A trim in progress is abandoned (R360). -/
def Aio.endTrim (a : Aio) : Aio :=
  if a.trimActive || a.mLo.isSome || a.mHi.isSome then
    { a with trimActive := false, driven := false, mLo := none, mHi := none, step := 0, why := 0 } else a

/-- FIO_DIO_STAT (Table 13.5). -/
def State.dioStat (s : State) (n : Nat) : Word :=
  let d := s.dio n
  if !s.dioSet n then 0
  else wordOf [(0, bit d.state), (1, bit d.rb), (2, bit d.ovl), (3, bit d.shortSup), (4, bit d.therm), (5, bit d.latched),
    (6, bit d.rberr), (7, bit d.feedLost), (8, d.c), (16, d.retries)]

/-- A HART transaction of channel `n` is in progress. -/
def State.hartBusy (s : State) (n : Nat) : Bool := (s.fio.hart.run.find n).isSome

/-- FIO_AIO_STAT (Table 13.6). -/
def State.aioStat (s : State) (n : Nat) : Word :=
  let a := s.aio n
  if !s.aioSet n then 0
  else wordOf [(0, bit a.valid), (1, if s.aioOut n then 0 else a.code.toNat), (4, bit a.openW), (5, bit a.comply), (6, bit a.pwrLim),
    (7, bit a.failout), (8, bit a.cal.isSome), (9, bit a.trimActive), (10, bit (s.hartBusy n)), (16, a.store)]

/-! Following the mode and the role. -/

/-- The local outputs on entry to a mode (Table 2.2): off and 0 mA in BOOT and IDLE-LINK, off and the fail setting in
FAULT-HALT; in any other mode they change at their next instant. A trim ends with its mode (R360). -/
def State.fioFollow (old : Mode) (s : State) : State :=
  if decide (s.sys.mode = old) then s
  else
    let t := { s with fio := { s.fio with aio := s.fio.aio.mapV Aio.endTrim } }
    let dios := List.range 32
    let aios := List.range 16
    match s.sys.mode with
    | .boot | .idleLink => aios.foldl (fun (u : State) n => u.driveZero n) (dios.foldl (fun (u : State) n => u.driveDio n false) t)
    | .faultHalt => aios.foldl (fun (u : State) n => u.driveFail n) (dios.foldl (fun (u : State) n => u.driveDio n false) t)
    | _ => t

end Sys2Proof.Machine
end

