-- ==== Sys2Proof/Machine/Images.lean ====
section
/-! DEFINITION. Firmware, configuration and key images: the header, the section directory and the verification of
spec/17_firmware_and_configuration.md. -/

namespace Sys2Proof.Config

/-- The configuration that a configuration image holds (section layouts are Ehrim Workbench's; log entry 6). -/
opaque parseCfg : List Byte → Machine.Cfg

/-- The version of a stored program (log entry 6). -/
opaque progVersion : List Byte → BitVec 32

/-- The program that a stored program holds (log entry 6). -/
opaque parseProg : List Byte → Machine.Prog

end Sys2Proof.Config

namespace Sys2Proof.Machine

/-- The header of an image (Table 17.3). -/
def parseHdr (b : List Byte) : Hdr :=
  { format := BitVec.ofNat 16 (fieldN b 0 2), kind := BitVec.ofNat 2 (fieldN b 2 1),
    keyslot := (slice b 3 1 = [1]), version := BitVec.ofNat 32 (fieldN b 4 4),
    svn := BitVec.ofNat 16 (fieldN b 8 2), storeFmt := BitVec.ofNat 16 (fieldN b 10 2),
    storeMin := BitVec.ofNat 16 (fieldN b 12 2), mirrorFmt := BitVec.ofNat 8 (fieldN b 14 1),
    mirrorMin := BitVec.ofNat 8 (fieldN b 15 1), length := fieldN b 16 4, sections := fieldN b 20 2,
    hwrev := BitVec.ofNat 8 (fieldN b 22 1), copyNs := BitVec.ofNat 32 (fieldN b 24 4), digest := slice b 32 32 }

/-- The reserved fields of a header are 0, and KEYSLOT is but for firmware (Table 17.3). -/
def hdrReserved (b : List Byte) : Bool :=
  decide (fieldN b 2 1 < 4) && decide (fieldN b 3 1 < (if fieldN b 2 1 = 1 then 2 else 1)) && decide (fieldN b 23 1 = 0) && decide (fieldN b 28 4 = 0)

/-- One entry of a section directory: type, class, offset, length, CRC-32. -/
structure Section where
  type : Nat
  cls : Nat
  off : Nat
  len : Nat
  crc : Word
deriving DecidableEq, Repr

/-- The `n` entries of the section directory at `at_`. -/
def parseSections (b : List Byte) (at_ : Nat) : Nat → List Section
  | 0 => []
  | n + 1 =>
    { type := fieldN b at_ 1, cls := fieldN b (at_ + 1) 1, off := fieldN b (at_ + 4) 4, len := fieldN b (at_ + 8) 4,
      crc := BitVec.ofNat 32 (fieldN b (at_ + 12) 4) } :: parseSections b (at_ + 16) n

/-- The bytes of a section. -/
def Section.data (x : Section) (b : List Byte) : List Byte := slice b x.off x.len

/-- The section lies within the `n` bytes before the signature, and its CRC-32 matches. -/
def Section.good (x : Section) (b : List Byte) (n : Nat) : Bool :=
  decide (x.off + x.len ≤ n) && decide (crc32 (x.data b) = x.crc)

/-- The bytes of the sections of the types `ts`, in directory order. -/
def sectionBytes (b : List Byte) (ts : List Nat) : List Byte :=
  ((parseSections b 64 (parseHdr b).sections).filter fun x => ts.contains x.type).flatMap fun x => x.data b

/-- All sections of an image in directory order. -/
def allSections (b : List Byte) : List Byte := (parseSections b 64 (parseHdr b).sections).flatMap fun x => x.data b

/-- What a verification finds: it passes, the signature fails, or a check of Table 17.5 fails with a reason. -/
inductive VOut where
  | ok | sig | reason (n : Nat)
deriving DecidableEq, Repr

/-- The areas of images (R448): firmware, configuration, keys. -/
inductive Area where
  | fw | cfg | keys
deriving DecidableEq, Repr

/-- The KIND of an area's images (Table 17.3). -/
def Area.kind : Area → Nat
  | .fw => 1 | .cfg => 2 | .keys => 3

/-- The capacity of an area in bytes (Table 17.1, R448). -/
def Area.cap : Area → Nat
  | .fw => 0x3FF0000 | .cfg => 0x1000000 | .keys => 4096

/-- The hardware revision letter is accepted: bit n of HWREV for letter 'A' + n; SYS_ID.HW_REV is 0x43, C (Table 3.10). -/
def hwOk (h : Hdr) : Bool := h.hwrev.getLsbD 2

/-- An ECDSA signature over the SHA-256 of everything before the last 64 bytes, under key `k`; no key verifies nothing. -/
def sigOk (k : Option (List Byte)) (b : List Byte) : Bool :=
  match k with
  | none => false
  | some key => Config.ecdsaOk key (Config.sha256 (b.take (b.length - 64))) (b.drop (b.length - 64))

/-- The keys that may sign an image (R440, R441, R443): the release key named in KEYSLOT; the plant key; for a
configuration no newer than its limit, the retired plant key too; for a first enrolment, the key the image carries. -/
def keysFor (ks : Ks) (a : Area) (h : Hdr) (b : List Byte) : List (Option (List Byte)) :=
  match a with
  | .fw => [if h.keyslot then ks.rel1 else ks.rel0]
  | .cfg => if h.version.toNat ≤ ks.plantRetHigh.toNat then [ks.plant, ks.plantRet] else [ks.plant]
  | .keys => match ks.plant with
    | some k => [some k]
    | none => [some (sectionBytes b [0x30])]

/-- The verification of R444, each check in the order of Table 17.5. `minSvn` and `fmt` are the minimum SVN and the
confirmed STORE_FMT; a configuration must exceed `high`, unless `old` (the previous version, or one the partner sends). -/
def verifyImage (ks : Ks) (a : Area) (minSvn fmt : Nat) (high : Nat) (old : Bool) (b : List Byte) : VOut :=
  let h := parseHdr b
  if !(decide (h.format = 0x1701) && decide (h.kind.toNat = a.kind) && decide (1 ≤ h.sections ∧ h.sections ≤ 32) &&
       decide (h.length ≤ a.cap ∧ h.length = b.length) && hdrReserved b) then
    .reason (if Config.firstCheck b then 0x63 else 0x64)
  else if !hwOk h then .reason 0x65
  else if ks.locked || !(keysFor ks a h b).any (fun k => sigOk k b) then .sig
  else if !((parseSections b 64 h.sections).all (fun x => x.good b (b.length - 64)) &&
       decide (Config.sha256 (allSections b) = h.digest)) then .reason 0x68
  else match a with
    | .fw =>
      if h.svn.toNat < minSvn then .reason 0x66
      else if h.storeMin.toNat ≤ fmt ∧ fmt ≤ h.storeFmt.toNat then .ok else .reason 0x66
    | .cfg => if old || decide (high < h.version.toNat) then .ok else .reason 0x67
    | .keys => .ok

/-- A slot record verifies (R443): FORMAT 0x1703, signed by the plant key. -/
def slotRecOk (ks : Ks) (b : List Byte) : Bool :=
  !ks.locked && decide (fieldN b 0 2 = 0x1703) && sigOk ks.plant b

/-- The NOR bank `true` for B, `false` for A. -/
def Boot.bankOf (b : Boot) (second : Bool) : Bank := if second then b.bankB else b.bankA

/-- `b` with a bank replaced. -/
def Boot.setBank (b : Boot) (second : Bool) (k : Bank) : Boot :=
  if second then { b with bankB := k } else { b with bankA := k }

/-- A bank verifies in this start (R444, R445). -/
def Boot.bankVerifies (b : Boot) (second : Bool) : Bool :=
  let k := b.bankOf second
  decide (verifyImage b.ks .fw b.minSvn.toNat b.storeFmt.toNat 0 false k.bytes = .ok) && k.erase.isEmpty

end Sys2Proof.Machine
end

