-- ==== Sys2Proof/Machine/Limits.lean ====
section
/-! DEFINITION. The configurations that the module refuses to load (spec/01_architecture.md R21, R25; the rules of the chapters that
name a check at load). -/

namespace Sys2Proof.Machine

/-- The limits of a class with soft budget, hard limit in µs and skip limit (spec/05_cyclic_execution.md Table 5.9). -/
def ClsCfg.limitsOk (k : ClsCfg) (soft hard skip : Nat) : Bool :=
  decide (25 ≤ soft) && decide (soft + 15 ≤ k.cycUs) &&
    (match k.launchUs with
      | some l => decide (soft + 10 ≤ l)
      | none => true) &&
    decide (k.cycUs ≤ hard) && decide (hard ≤ (if k.skippable then 16 else 2) * k.cycUs) &&
    (!k.skippable || (decide (1 ≤ skip) && decide (skip ≤ 255)))

/-- A register as the configuration loads it. -/
def Cfg.word (k : Cfg) (o : Nat) : Word := k.regs.look o 0

/-- The configured classes. -/
def Cfg.classes (k : Cfg) : List (Nat × ClsCfg) := k.cls.filter fun c => c.2.en

/-- Every two values are a multiple one of the other (spec/05_cyclic_execution.md R128). -/
def harmonic (l : List Nat) : Bool := l.all fun a => l.all fun b => decide (a % b = 0) || decide (b % a = 0)

/-- Class `c` (spec/05_cyclic_execution.md R127, Table 5.9): its cycle, its pair, its limits, and an input latch of at most 20 % of the
cycle by the formula of Table 5.1. -/
def Cfg.classOk (k : Cfg) (c : Nat × ClsCfg) : Bool :=
  let o := 0x40 * c.1
  decide (c.1 < 8) && decide (c.2.pair < 4) && decide (250 ≤ c.2.cycUs ∧ c.2.cycUs ≤ 10000000 ∧ c.2.cycUs % 250 = 0) &&
    c.2.limitsOk (k.word (Reg.cycClsSoft + o)).toNat (k.word (Reg.cycClsHard + o)).toNat (k.word (Reg.cycClsSkipmax + o)).toNat &&
    decide (5 * (3200 + c.2.inBytes) ≤ 4000 * c.2.cycUs)

/-- The classes of one pair (spec/01_architecture.md R18, spec/05_cyclic_execution.md R128): harmonic cycles, and images of 2 MiB. -/
def Cfg.pairOk (k : Cfg) (p : Nat) : Bool :=
  let cs := (k.classes.map Prod.snd).filter fun c => decide (c.pair = p)
  harmonic (cs.map ClsCfg.cycUs) && decide ((cs.map ClsCfg.inBytes).sum ≤ 0x200000) && decide ((cs.map ClsCfg.outBytes).sum ≤ 0x200000)

/-- The process signals and the mirror traffic (spec/01_architecture.md Table 1.6). -/
def Cfg.signalsOk (k : Cfg) : Bool :=
  let cs := k.classes.map Prod.snd
  decide ((cs.map ClsCfg.signals).sum ≤ 96000) &&
    decide (((cs.filter fun c => decide (c.cycUs ≤ 1000)).map ClsCfg.signals).sum ≤ 16000) && decide (k.mirBytes ≤ 0x100000)

/-- Stations, rings, publications, subscriptions and safe connections (spec/01_architecture.md Table 1.6, spec/10_io_network.md R290,
R293, spec/14_safety.md R392). -/
def Cfg.networkOk (k : Cfg) : Bool :=
  decide (k.stn.length ≤ 1024) && (k.stn.all fun e => decide (e.2.ring < 4)) && ((List.range 4).all fun r => decide (k.stn.countP (fun e => decide (e.2.ring = r)) ≤ 256)) &&
    (k.rings.all fun r => decide (r.2.load.toNat ≤ 6000)) && decide (k.subs.length ≤ 256) && decide (k.pubs.length ≤ 64) &&
    (k.pubs.all fun p => decide (p.2.len ≤ 8192)) && decide (k.wsc.length ≤ 64)

/-- The local channels that the configuration names exist (spec/01_architecture.md Table 1.6): 32 digital, 16 analogue with their HART
masters. -/
def Cfg.localOk (k : Cfg) : Bool :=
  (k.classes.all fun c => (c.2.din ++ c.2.dout).all (fun e => decide (e.1 < 32)) && (c.2.ain ++ c.2.aout).all (fun e => decide (e.1 < 16)) &&
    c.2.stat.all (fun e => decide (e.2.1 < if e.1 then 16 else 32)) && c.2.hart.all (fun e => decide (e.1 < 16))) &&
    k.aio.all (fun a => decide (a.1 < 16)) && k.dioSafe.all (fun n => decide (n < 32)) && k.commDio.all (fun n => decide (n < 32)) &&
    k.commAio.all (fun n => decide (n < 16)) &&
    k.loops.all fun l => (l.2.ins ++ [l.2.spSrc, l.2.schSrc]).all (fun i =>
      if i.kind = 1 then decide (i.unit < 16) else i.kind ≠ 2 || decide (i.unit < 32)) &&
      (if l.2.out.kind = 1 then decide (l.2.out.unit < 16) else l.2.out.kind ≠ 2 || decide (l.2.out.unit < 32))

/-- No watchdog time is 0, and each lies in its range (spec/03_register_conventions.md R88, Table 3.8, R91; spec/14_safety.md R392). -/
def Cfg.watchdogsOk (k : Cfg) : Bool :=
  (match k.regs.find Reg.sysHlwTime with
    | some v => decide (10 ≤ v.toNat ∧ v.toNat ≤ 60000)
    | none => true) &&
    k.wsc.all fun w => !w.2.en || decide (1 ≤ w.2.wd ∧ w.2.wd ≤ 10000)

/-- The start mode is one that Table 2.3 has a row for (spec/02_modes_and_startup.md R38; log entry 114). -/
def Cfg.startOk (k : Cfg) : Bool := k.startMode == .commission || k.startMode == .stop || k.startMode == .run

/-- At most 8 HART devices on a channel (spec/01_architecture.md Table 1.6). -/
def Cfg.hartOk (k : Cfg) : Bool :=
  (List.range 16).all fun ch =>
    decide (((k.classes.flatMap fun c => (c.2.hart.filter fun h => decide (h.1 = ch)).map fun h => h.2.1).eraseDups).length ≤ 8)

/-! Loops and frame tables. -/

/-- Does the output instruction of a loop program (Table 7.4) stand here? -/
def LIns.isOut (i : LIns) : Bool := decide (i.op = 23)

/-- A loop program has at most 64 instructions and exactly one OUT, which carries no predicate (spec/07_loop_engines.md R185). -/
def progOk (p : List LIns) : Bool :=
  decide (p.length ≤ 64) && decide (p.countP LIns.isOut = 1) && p.all fun i => !i.isOut || i.pred.isNone

/-- The law of a loop may be scheduled (spec/07_loop_engines.md R193): a program only if it reads words 2 to 31 alone of the bank. -/
def LoopCfg.maySched (c : LoopCfg) : Bool :=
  schedLaw c.law && (decide (c.law ≤ 9) || c.prog.all fun i => decide (i.op ≠ 1) || decide (2 ≤ i.a ∧ i.a ≤ 31))

/-- The law, the period, the crease phase and the program of a loop (spec/07_loop_engines.md R180, R185, R186, R193). -/
def LoopCfg.ok (c : LoopCfg) : Bool :=
  decide (1 ≤ c.period ∧ c.period ≤ 400) && (!(c.remoteFb || c.remoteOut) || decide (4 ≤ c.period)) &&
    decide (100 ≤ c.crease ∧ c.crease ≤ 900) && (decide (c.law ≤ 9) || (decide (c.law = 16) && progOk c.prog)) &&
    (!c.sched || c.maySched)

/-- The data-ready time of an input after phase 0, in ns (spec/07_loop_engines.md Table 7.5). -/
def InSrc.readyNs (i : InSrc) : Nat :=
  match i.kind with
  | 0 => 0
  | 1 => 18600
  | 2 => 1000
  | 3 => i.arriveNs + 1000
  | _ => 500

/-- The data-ready time of a loop: that of its latest input. -/
def LoopCfg.readyNs (c : LoopCfg) : Nat :=
  (c.ins ++ (if c.spExt then [c.spSrc] else []) ++ (if c.sched then [c.schSrc] else [])).foldl (fun m i => max m i.readyNs) 0

/-- The minor frames of a table (spec/07_loop_engines.md Table 7.6): each ends with an entry marked LAST. -/
def splitFrames : List FrEnt → List (List FrEnt)
  | [] => []
  | e :: es => if e.last then [e] :: splitFrames es
    else match splitFrames es with
      | [] => [[e]]
      | f :: fs => (e :: f) :: fs

/-- The steps of one minor frame, in 1/6 ns from its start (spec/07_loop_engines.md R191, Table 7.7): `idx` is its number in the major
frame, `minor` its length in ns, `end_` the end of the previous step, `at_` the START of the previous entry. -/
def Cfg.stepsOk (k : Cfg) (eng idx minor : Nat) : List FrEnt → Nat → Nat → Bool
  | [], _, _ => true
  | e :: es, end_, at_ =>
    let c := k.loops.look e.slot {}
    let fin := max (12 * e.start) end_ + 5 * e.cost
    (k.loops.find e.slot).isSome && decide (e.slot / 1024 = eng) && decide (at_ ≤ e.start) && decide (e.cost = c.cost) &&
      decide (idx * minor % c.ns = 0) && decide (c.readyNs ≤ 2 * e.start) &&
      (if c.remoteOut then decide (fin + 12000 ≤ 6 * c.out.launchNs) else decide (fin + 900 ≤ 6 * c.creaseNs)) &&
      decide (fin ≤ 6 * minor) && k.stepsOk eng idx minor es fin e.start

/-- A list is met frame by frame, each with its number. -/
def allFrames (f : Nat → List FrEnt → Bool) : Nat → List (List FrEnt) → Bool
  | _, [] => true
  | n, x :: xs => f n x && allFrames f (n + 1) xs

/-- The frame table of engine `e` passes the checks of Table 7.7, and its periods are harmonic (spec/07_loop_engines.md R186, R190,
R191). The slots of the odd engine of a checked pair are unused (R201). -/
def Cfg.engineOk (k : Cfg) (e : Nat) : Bool :=
  let ls := k.loops.filter fun l => decide (l.1 / 1024 = e)
  let ps := ls.map fun l => l.2.ns
  let minor := ps.foldl (fun m p => if m = 0 then p else min m p) 0
  let major := ps.foldl max 0
  let tab := k.frames.look e []
  let fs := splitFrames tab
  let odd := (decide (e = 1) && k.chk0) || (decide (e = 3) && k.chk1)
  if odd then ls.isEmpty
  else decide (ls.length ≤ 1024) && harmonic ps &&
    decide (5 * (ls.map fun l => l.2.cost * (major / l.2.ns)).sum ≤ 6 * major) &&
    decide (tab.length = (ls.map fun l => major / l.2.ns).sum) && decide (tab.length ≤ 65536) &&
    (tab.isEmpty || decide (fs.length = major / minor)) &&
    allFrames (fun n f => decide ((f.map FrEnt.slot).Nodup) && k.stepsOk e n minor f 0 0) 0 fs

/-! Outputs, safety inputs, CAN and the pair. -/

/-- Every output signal has one writer (spec/01_architecture.md R21): the digital and analogue outputs and the loop signals of stations
among the output images of the classes and the loops; the outputs of a station belong to the one class that names it. -/
def Cfg.writersOk (k : Cfg) : Bool :=
  let outs (n : Nat) : List (Nat × Nat) := (k.loops.filter fun l => decide (l.2.out.kind = n)).map fun l => (l.2.out.unit, if n = 3 then l.2.out.idx else 0)
  decide (((k.classes.flatMap fun (c : Nat × ClsCfg) => c.2.dout.map fun (d : Nat × Nat) => (d.1, 0)) ++ outs 2).Nodup) &&
    decide (((k.classes.flatMap fun (c : Nat × ClsCfg) => c.2.aout.map fun (a : Nat × Nat) => (a.1, 0)) ++ outs 1).Nodup) && decide ((outs 3).Nodup) &&
    decide ((k.stn.map fun e => (e.2.ring, e.2.node)).Nodup)

/-- The discrepancy time of a safety input that is not off lies from 40 to 20,000 samples (spec/14_safety.md R376). -/
def Cfg.safetyOk (k : Cfg) : Bool :=
  (List.range 8).all fun i =>
    let w := k.word (Reg.safSiCfg + 4 * i)
    decide (bits w 0 2 = 0) || decide (40 ≤ bits w 16 15 ∧ bits w 16 15 ≤ 20000)

/-- A size code of a CAN queue: 0, or 2 to 10 (spec/12_can.md R331). -/
def queueCode (k : Nat) : Bool := decide (k = 0) || decide (2 ≤ k ∧ k ≤ 10)

/-- No filter element and no NOMATCH of a CAN channel names an absent receive queue (spec/12_can.md R330, R331); CAN XL and the
2,048-byte slot are for CAN6 and CAN7 only (spec/01_architecture.md Table 1.6, spec/12_can.md R331). -/
def Cfg.canOk (k : Cfg) (n : Nat) : Bool :=
  let w := k.word (Reg.canCfg + 0x2000 * n)
  let c := k.can.look n {}
  let acts := ((c.std.filter fun x => decide (bits x 30 2 < 3)).map fun x => bits x 27 2) ++
    (c.ext.filter fun x => decide (bits x.2 30 2 < 3)).map fun x => bits x.1 29 2
  let no := bits w 8 2
  decide (bits w 28 1 = 0) ||
    (decide (c.std.length ≤ 256) && decide (c.ext.length ≤ 256) && decide (bits w 12 2 ≠ 3) && (decide (6 ≤ n) || (!w.getLsbD 5 && decide (bits w 12 2 ≠ 2))) &&
    queueCode (bits w 16 4) && queueCode (bits w 20 4) && queueCode (bits w 24 4) &&
    (decide (bits w 16 4 ≠ 0) || (!acts.contains 1 && decide (no ≠ 0))) && (decide (bits w 20 4 ≠ 0) || (!acts.contains 2 && decide (no ≠ 1))))

/-- A pair aligns its clocks well within its shortest cycle (spec/09_duplex_pair.md R251). -/
def Cfg.alignOk (k : Cfg) : Bool := !k.partner || k.classes.all fun c => decide (k.alignUs + 180 ≤ c.2.cycUs)

/-- The module loads the configuration: it keeps every limit that the module holds it to. -/
def Cfg.loadable (k : Cfg) : Bool :=
  k.classes.all k.classOk && (List.range 4).all k.pairOk && k.signalsOk && k.networkOk && k.hartOk && k.localOk && k.watchdogsOk && k.startOk &&
    (k.loops.all fun l => decide (l.1 < 4096) && l.2.ok) && (List.range 4).all k.engineOk && k.writersOk && k.safetyOk &&
    (List.range 8).all k.canOk && k.alignOk

/-- A configuration slot verifies and can be loaded (log entry 50); a version already active once is not held to exceed
BOOT_CFG_HIGH. -/
def Boot.cfgVerifies (b : Boot) (n : Nat) : Bool :=
  decide (verifyImage b.ks .cfg 0 0 b.high.toNat true (b.cfgs.look n {}).bytes = .ok) &&
    (Config.parseCfg (b.cfgs.look n {}).bytes).loadable

end Sys2Proof.Machine
end

