-- ==== Sys2Proof/Machine/Frames.lean ====
section
/-! DEFINITION. The frames that the module sends on its ports, and the parameter blocks of its stations (spec/10_io_network.md). -/

namespace Sys2Proof.Machine

/-- The side of this module (spec/09_duplex_pair.md R234). -/
def State.side (s : State) : Bool := (s.reg Reg.dpxCfg).getLsbD 0

/-- One station as the module knows it. -/
def State.stn (s : State) (i : Nat) : Stn := s.net.stns.look i {}

/-- `s` with station `i` changed by `f`. -/
def State.updStn (i : Nat) (f : Stn → Stn) (s : State) : State :=
  { s with net := { s.net with stns := s.net.stns.upd i {} f } }

/-- The configuration of station `i`. -/
def State.scfg (s : State) (i : Nat) : StnCfg := s.cfg.stn.look i {}

/-- The node identifier of the side-0 module of this pair, by which the pair group is addressed (Table 10.3). -/
def State.pairNode (s : State) : BitVec 18 := if s.cfg.partner && s.side then s.cfg.partnerNode else s.sys.nodeId

/-- The next sequence number of a stream that this module sends. -/
def State.nextSeq (key : Nat) (s : State) : BitVec 16 × State :=
  let n := s.net.tx.look key 0 + 1
  (n, { s with net := { s.net with tx := s.net.tx.put key n } })

/-- The traffic class of a frame (Table 10.1). -/
def FrameKind.pcp : FrameKind → BitVec 3
  | .beacon => 7
  | .output | .loopOut | .peer => 6
  | .param => 5
  | .can => 0

/-- DST_NODE of a frame (Table 10.3): the station, the group of the publishing pair, or for a beacon, which goes to all nodes of its
ring, the low bits of its DA (log entry 125). -/
def State.dstNode (s : State) (kind : FrameKind) (dst : Nat) : BitVec 18 :=
  match kind with
  | .output | .loopOut | .param => (s.scfg dst).node
  | .peer => s.pairNode
  | _ => 0x3FFFF

/-- The VLAN of a frame (Table 10.3): that of its ring, or of the backbone. -/
def State.frameVid (s : State) (kind : FrameKind) (dst : Nat) : BitVec 12 :=
  match kind with
  | .output | .loopOut | .param => (s.cfg.rings.look (s.scfg dst).ring {}).vid
  | .beacon => (s.cfg.rings.look dst {}).vid
  | _ => s.cfg.backVid

/-- A frame leaves under E_own (Table 10.3). -/
def State.sendIn (kind : FrameKind) (key dst : Nat) (rep : Bool) (cyc : BitVec 16) (pgrp : BitVec 4) (payload : List Byte)
    (s : State) : State :=
  let (n, t) := s.nextSeq key
  t.put (.frame { kind := kind, dst := dst, seq := n, rep := rep, epoch := t.dpx.eOwn, cyc := cyc, pgrp := pgrp, launch := t.short,
                  src := s.sys.nodeId, dstNode := s.dstNode kind dst, pcp := kind.pcp, vid := s.frameVid kind dst,
                  len := payload.length, payload := payload })

/-- A frame that belongs to no cycle. -/
def State.sendFrame (kind : FrameKind) (key dst : Nat) (rep : Bool) (payload : List Byte) (s : State) : State :=
  s.sendIn kind key dst rep 0 0 payload

/-- The parameter block of station `i` with `id` as PARAM_ID (Table 10.9). -/
def State.paramBlock (s : State) (i : Nat) (id : Word) : List Byte :=
  let b := (s.scfg i).param
  b.take 20 ++ le 4 id.toNat ++ b.drop 24

/-- The PARAM frames of a block: part headers and slices of 1,470 bytes, one to four (R285). -/
def State.sendParts (i parts : Nat) (b : List Byte) (s : State) : Nat → State
  | 0 => s
  | k + 1 =>
    let n := parts - (k + 1)
    State.sendParts i parts b (s.sendFrame .param (0x60000 + i) i false
      ([BitVec.ofNat 8 n, BitVec.ofNat 8 parts, 0, 0] ++ ((b.drop (1470 * n)).take 1470))) k

/-- The block of station `i` is sent under its PARAM_ID. -/
def State.sendBlock (i : Nat) (s : State) : State :=
  let b := s.paramBlock i (s.stn i).paramId
  let parts := max 1 ((b.length + 1469) / 1470)
  State.sendParts i parts b s parts

/-- A station whose parameters are refused with result `r` is failed, with an error record (R276, R285). -/
def State.refuseStn (i r : Nat) (id : Word) (s : State) : State :=
  (s.updStn i fun x => { x with paramPend := false, acked := true, rejoining := false, gotOk := false, refused := true, failed := true }).log
    0x0603 4 ([BitVec.ofNat 8 (s.scfg i).ring, BitVec.ofNat 8 r] ++ le 2 i ++ le 4 id.toNat)

/-- The node identifier of station `i` is that of an earlier station or of a module of this pair (R276). -/
def State.dupStn (s : State) (i : Nat) : Bool :=
  let n := (s.scfg i).node
  (s.cfg.stn.any fun e => decide (e.1 < i) && decide (e.2.node = n)) || decide (n = s.sys.nodeId) || (s.cfg.partner && decide (n = s.cfg.partnerNode))

/-- A block is built for station `i` under a new PARAM_ID and sent (R285); a station with a duplicate identifier is refused (R276). -/
def State.newBlock (i : Nat) (s : State) : State :=
  if s.dupStn i then s.refuseStn i 3 (s.stn i).paramId
  else (s.updStn i fun x => { x with paramId := x.paramId + 1, paramPend := true }).sendBlock i

/-- The blocks of every station. -/
def State.newBlocks (s : State) : State := s.cfg.stn.foldl (fun (t : State) e => t.newBlock e.1) s

end Sys2Proof.Machine
end

