-- ==== Sys2Proof/Machine/Start.lean ====
section
/-! DEFINITION. A start of the module: what it keeps, the boot steps of spec/02_modes_and_startup.md Table 2.5, the exits
of Table 2.3, and the loading of engines and configuration. -/

namespace Sys2Proof.Machine

/-- A module that takes the primary role has no primary to hear (spec/09_duplex_pair.md Table 9.9, RING_ABSENT and RINGS_BEACON). -/
def State.clearBeacons (s : State) : State :=
  { s with dpx := { s.dpx with ringAbsent := false, beaconHeard := 0, slotHeard := 0 }
           dpx2 := { s.dpx2 with absRep := 0, absSlots := [], misnamed := false } }

/-- The module takes the primary role with a new epoch (spec/09_duplex_pair.md R258): the smallest value above E_seen
whose bit 0 is its side; a module without a valid configuration takes none (R31). -/
def State.takeEpoch (s : State) : State :=
  let s := s.clearBeacons
  if s.cfg.valid then
    let n := s.dpx.eSeen + 1
    let e := if n.getLsbD 0 = s.side then n else n + 1
    { s with dpx := { s.dpx with eOwn := e, eSeen := e } }
  else s

/-- A change of DPX_STAT.STATE (spec/09_duplex_pair.md R241): a record of severity 2, or 4 when INSYNC ends. -/
def State.setSync (st : SyncState) (reason cause : Nat) (s : State) : State :=
  if s.dpx.state = st then { s with dpx := { s.dpx with reason := BitVec.ofNat 4 reason } }
  else
    let old := s.dpx.state
    ({ s with dpx := { s.dpx with state := st, reason := BitVec.ofNat 4 reason } }).log 0x0502
      (if old = SyncState.insync then 4 else 2)
      [BitVec.ofNat 8 old.code, BitVec.ofNat 8 st.code, BitVec.ofNat 8 reason, BitVec.ofNat 8 cause]

/-- An area whose write a start interrupts reads INCOMPLETE (spec/17_firmware_and_configuration.md R451). -/
def Stg.interrupted (g : Stg) : Stg :=
  if g.writing then { g with state := 2, writing := false, pendReq := [] } else { g with pendReq := [] }

/-- What a start keeps: MRAM, NOR, slot memory, the RET island and the supply; everything else takes its reset value
(spec/03_register_conventions.md R74, R85; log entry 14). -/
def State.kept (s : State) : State :=
  { sys := { marine := s.sys.marine, uid := s.sys.uid, nodeId := s.sys.nodeId, slotNo := s.sys.slotNo,
             mode := s.sys.mode, from_ := s.sys.from_, opNs := s.sys.opNs, pwrcyc := s.sys.pwrcyc }
    hif := { crs := s.hif.crs, speed := s.hif.speed, width := s.hif.width, l1 := s.hif.l1, wins := s.hif.wins,
             journal := s.hif.journal, jseq := s.hif.jseq, msixMask := s.hif.msixMask }
    chg := { actVer := s.chg.actVer, prevVer := s.chg.prevVer, actDig := s.chg.actDig, prevDig := s.chg.prevDig,
             high := s.chg.high, active := s.chg.active, previous := s.chg.previous, package := s.chg.package,
             actMaps := s.chg.actMaps, prevMaps := s.chg.prevMaps, pkgDone := s.chg.pkgDone }
    dpx := { eOwn := s.dpx.eOwn, eSeen := s.dpx.eSeen }
    saf := { openLock := s.saf.openLock, supplyBad := s.saf.supplyBad }
    fio := { aio := s.fio.aio.mapV fun a => { cal := a.cal }, strap0 := s.fio.strap0, strap1 := s.fio.strap1 }
    tly := { s.tly with ovw := 0, drop := 0, auditLost := 0, qLost := 0, sealFail := 0, clears := 0, clrRefused := 0,
                        clrReason := 0, found := false, later := false, rdLen := 0, rdBuf := [], clrKey := none,
                        partner := [], unsent := [] }
    mm := { markDev := s.mm.markDev, devs := s.mm.devs.mapV fun d => { marked := d.marked } }
    boot := { s.boot with step := 2, held := false, cause := 0, act := {}, ldKey := none, ldState := 0, ldReason := 0,
                          meas := [], awaitStn := false, awaitPartner := false, listening := false,
                          stgFw := s.boot.stgFw.interrupted, stgCfg := s.boot.stgCfg.interrupted,
                          stgKey := s.boot.stgKey.interrupted }
    pwr := { feedA := s.pwr.feedA, feedB := s.pwr.feedB, holdup := s.pwr.holdup, recharge := s.pwr.recharge,
             pfail := s.pwr.pfail, pfFrom := s.pwr.pfFrom, feedAmv := s.pwr.feedAmv, feedAma := s.pwr.feedAma,
             feedBmv := s.pwr.feedBmv, feedBma := s.pwr.feedBma, busMv := s.pwr.busMv, busLow := s.pwr.busLow,
             sfeedMv := s.pwr.sfeedMv, afeedMv := s.pwr.afeedMv }
    ret := s.ret, outbox := s.outbox, freeN := s.freeN, pending := s.pending }

/-- The pages of a region that hold records. -/
def Tly.pages (t : Tly) (audit : Bool) : List Page := if audit then t.audit else t.log

/-- `t` with the pages of a region replaced. -/
def Tly.setPages (t : Tly) (audit : Bool) (ps : List Page) : Tly :=
  if audit then { t with audit := ps } else { t with log := ps }

/-- A Tally record whose seal fails does not exist (spec/16_memory_integrity.md R436, spec/15_tally_recorder.md R408). -/
def Page.unseal (seq : Word) (p : Page) : Page :=
  { p with recs := p.recs.map fun r => if r.seq = seq then { r with sealed := false } else r }

/-- The outputs of BOOT (spec/02_modes_and_startup.md Table 2.2), as a start from a powered mode finds them: a trim ends, every
safety switch opens, the digital outputs go off and the analogue ones to 0 mA, or to the strap's current. -/
def State.bootOutputs (s : State) : State :=
  let t := { s.soOff with fio := { s.soOff.fio with aio := s.soOff.fio.aio.mapV Aio.endTrim } }
  let u := (List.range 32).foldl (fun (u : State) n => if u.dioOut n then u.driveWith n fun _ => {} else u) t
  (List.range 16).foldl (fun (u : State) n => u.driveZero n) u

/-- The parity trip of guarded group `g` is recorded (spec/03_register_conventions.md R78, record 0x0005). -/
def State.tripGroup (off g : Nat) (s : State) : State :=
  ({ s with sys := { s.sys with parTrip := s.sys.parTrip ++ [g] } }).log 0x0005 5 (le 4 off ++ [BitVec.ofNat 8 g])

/-- A parity mismatch of the key store (Table 3.5): it is locked, and every signature and token check fails from then on. -/
def State.keyTrip (off : Nat) (s : State) : State :=
  if s.sys.parTrip.contains 3 then s
  else
    let t := s.tripGroup off 3
    { t with boot := { t.boot with ks := { t.boot.ks with locked := true } } }

/-- A double error of MRAM (spec/16_memory_integrity.md R436). -/
def State.mramDouble (e : MramErr) (s : State) : State :=
  let s := { s with mm := { s.mm with mramUe := s.mm.mramUe + 1 } }
  match e with
  | .tally audit seq => { s with tly := s.tly.setPages audit ((s.tly.pages audit).map (Page.unseal seq)) }
  | .journal slot id => { s with hif := { s.hif with journal := s.hif.journal.map fun (r : JRec) =>
      if r.slot = slot && r.reqId = id then { r with sealed := false } else r } }
  | .keyStore off => s.keyTrip off
  | .calib ch =>
    if (s.aio ch.val).cal.isSome then
      (s.updAio ch.val fun a => { a with cal := none }).log 0x0908 3 [BitVec.ofNat 8 ch.val]
    else s
  | .twin => s

/-- HK has read all of MRAM (spec/16_memory_integrity.md R436): `ce` words corrected, and the double errors `errs`. -/
def State.mramRead (ce : Nat) (errs : List MramErr) (s : State) : State :=
  errs.foldl (fun (u : State) e => u.mramDouble e) { s with mm := { s.mm with mramCe := s.mm.mramCe + BitVec.ofNat 32 ce } }

/-- The Tally records whose words hold a double error have lost their seal (spec/16_memory_integrity.md R436). -/
def Tly.damaged (t : Tly) (errs : List MramErr) : Tly :=
  errs.foldl (fun (u : Tly) e => match e with
    | .tally audit seq => u.setPages audit ((u.pages audit).map (Page.unseal seq))
    | _ => u) t

/-- The Tally opened (spec/15_tally_recorder.md R404, R408): open pages are closed and unsealed records counted. -/
def Tly.reopen (t : Tly) : Tly :=
  let unsealed := ((t.log ++ t.audit).map fun p => p.recs.countP fun r => !r.sealed).sum
  { t with log := t.log.map fun p => { p with isOpen := false }, audit := t.audit.map fun p => { p with isOpen := false },
           sealFail := BitVec.ofNat 32 unsealed, isOpen := true, writing := none }

/-- The newest operating time that a sealed record carries (spec/18_power_electrical_mechanical.md R473). -/
def Tly.newest (t : Tly) : Nat :=
  ((t.log ++ t.audit).flatMap Page.recs).foldl (fun m r => if r.sealed then max m r.optime.toNat else m) 0

/-- The power-up mark (spec/15_tally_recorder.md R406, R410): three units, written whatever TLY_SEVMIN holds. -/
def State.powerMark (s : State) : State :=
  s.enqueue { sev := 1, source := 0x10, pwrcyc := s.sys.pwrcyc, optime := BitVec.ofNat 48 s.opMs, payload := [] }

/-- The tamper and VRET handling of boot step 2 (spec/02_modes_and_startup.md R35, R36). -/
def State.tamperRead (s : State) : State :=
  let t := if s.ret.tamper = 0 then s
    else s.log 0x1001 7 ([BitVec.ofNat 8 s.ret.tamper.toNat, 0, 0, 0] ++ le 4 s.ret.secs.toNat)
  let t := if s.ret.tamper.getLsbD 2 then t.log 0x1002 3 ([0, 0, 0, 0] ++ le 4 s.ret.secs.toNat) else t
  { t with ret := { t.ret with tamper := 0 } }

/-- A replaced Tally nonce (spec/15_tally_recorder.md R419): a free value (log entry 5). -/
def State.newNonce (s : State) : State :=
  { s.draw.2 with tly := { s.draw.2.tly with nonce := s.draw.1 } }

/-- The AIO channels whose factory trim fails its check are in CHAN_FAULT (spec/13_local_field_io.md R361). -/
def State.factoryCheck (bad : List (Fin 16)) (s : State) : State :=
  bad.foldl (fun (u : State) ch => u.updAio ch.val fun a => { a with chanFault := true }) s

/-- Boot step 2, in the order of Table 2.5. `pg` tells a start from power good from a restart (R37, R60). A parity mismatch of the
key store trips its group (spec/03_register_conventions.md R78). -/
def State.step2 (pg : Bool) (obs : BootObs) (s : State) : State :=
  let old := s.sys.mode
  let k := (if pg then s else s.bootOutputs).kept
  let ms := if pg then max s.ret.savedOp s.tly.newest + 1
    else max s.opMs (max s.ret.savedOp s.tly.newest + 1)
  let op := if pg then ms * 1000000 else max s.sys.opNs (ms * 1000000)
  let k := { k with
    sys := { k.sys with mode := .boot, opNs := op, pwrcyc := if pg then k.sys.pwrcyc + 1 else k.sys.pwrcyc, from_ := old }
    tly := { (k.tly.damaged obs.mramBad).reopen with queue := if pg then [] else k.tly.queue }
    ret := { k.ret with secs := if pg then obs.retSecs else k.ret.secs }
    hif := { k.hif with crs := false, speed := if pg then obs.speed else k.hif.speed, width := if pg then obs.width else k.hif.width }
    boot := { k.boot with replayDue := true, ks := { k.boot.ks with locked := false } } }
  let k := if pg then k.powerMark else k
  let k := k.log 0x0001 2 (k.modeDetail old (if pg then 9 else 7))
  let k := (k.mramRead obs.mramCe obs.mramBad).factoryCheck obs.factoryBad
  let k := if obs.ksParity then k else k.keyTrip obs.ksOff
  k.tamperRead.newNonce

/-- Boot step 3 (spec/17_firmware_and_configuration.md R445): both banks are verified, the selected bank first. -/
def State.step3 (s : State) : State :=
  let a := s.boot.bankVerifies false
  let b := s.boot.bankVerifies true
  let sel := s.boot.sel
  let selOk := if sel then b else a
  let run := if selOk then sel else !sel
  let bt := { s.boot with
    bankA := { s.boot.bankA with ok := a, hdr := parseHdr s.boot.bankA.bytes, erase := [] }
    bankB := { s.boot.bankB with ok := b, hdr := parseHdr s.boot.bankB.bytes, erase := [] }
    cfgs := s.boot.cfgs.mapV fun k => { k with erase := [] }
    bank := run, step := 3, cause := if selOk then s.boot.cause else 3 }
  let h := parseHdr (bt.bankOf run).bytes
  { s with boot := { bt with runHdr := h, fwVer := h.version, fwSvn := h.svn,
                             meas := [(0, Config.sha256 (sectionBytes (bt.bankOf run).bytes [0x01]))] } }

/-- A device is marked failed (spec/16_memory_integrity.md R430); `why` is 1 for the threshold, 2 for training. Under
PFAIL its MRAM record waits (spec/18_power_electrical_mechanical.md Table 18.3). -/
def State.markDevice (d why : Nat) (s : State) : State :=
  ({ s with mm := { s.mm with markDev := some d, markUnsaved := s.pwr.pfail,
                              devs := s.mm.devs.upd d {} fun x => { x with marked := true } } }).log 0x0C03 4
    [BitVec.ofNat 8 d, BitVec.ofNat 8 why]

/-- Boot step 4: DRAM trained and cleared; the first device that fails training is marked (R38, R430). -/
def State.step4 (obs : BootObs) (s : State) : State :=
  let s := match s.mm.markDev, obs.trainFail with
    | none, [d] => s.markDevice d 2
    | _, _ => s
  { s with mm := { s.mm with trained := true, rinseRun := true, pos := 0 }, boot := { s.boot with step := 4 } }

/-- DRAM training leaves more than one device failed (spec/16_memory_integrity.md R431). -/
def trainingLost (s : State) (obs : BootObs) : Bool :=
  match s.mm.markDev with
  | none => decide (2 ≤ obs.trainFail.length)
  | some d => obs.trainFail.any fun x => decide (x ≠ d)

/-- The operator keys of a configuration image: section 0x26, up to 8 keys of 64 bytes (spec/17 R440; log entry 6). -/
def opKeys (b : List Byte) : Tab (List Byte) :=
  let k := sectionBytes b [0x26]
  (List.range (min 8 (k.length / 64))).map fun i => (i, slice k (64 * i) 64)

/-- The image of configuration slot `n`. -/
def Boot.cfgImage (b : Boot) (n : Nat) : List Byte := (b.cfgs.look n {}).bytes

/-- The registers that a configuration loads: an RWV field in all three copies, an RWP field in both copies
(spec/03_register_conventions.md R85). -/
def State.loadRegs : Tab Word → State → State
  | [], s => s
  | (o, v) :: t, s =>
    State.loadRegs t (match (rowAt o).map RegRow.acc with
      | some .rwv => s.setVote o v
      | some .rwp => (s.setReg o v).setLive o v
      | _ => s.setReg o v)

/-- The program in force: the active program of slot memory (spec/08_online_change.md R217), each class with its initial
values (spec/05_cyclic_execution.md R141). -/
def State.loadProgram (s : State) : State :=
  let p := if s.chg.active.isEmpty then {} else { Config.parseProg s.chg.active with loaded := true }
  { s with prog := p
           cyc := { s.cyc with mem := s.cfg.cls.map fun c => (c.1, { data := p.init.look c.1 [] }) } }

/-- The program that the configuration image `img` names becomes the active one and the previous program is cleared
(spec/08_online_change.md R231). -/
def State.installProgram (img : List Byte) (s : State) : State :=
  let p := sectionBytes img [0x25]
  { s with chg := { s.chg with active := p, actVer := Config.progVersion p, actDig := if p.isEmpty then [] else Config.sha256 p,
                               previous := [], prevVer := 0, prevDig := [], actMaps := [], prevMaps := [], high := 0 } }

/-- The operator keys of a configuration are enrolled (spec/17_firmware_and_configuration.md R440): each that differs from the
stored one is recorded. -/
def State.enrolOps (img : List Byte) (s : State) : State :=
  let new := opKeys img
  let t := new.foldl (fun (u : State) (e : Nat × List Byte) =>
    if s.boot.ks.op.look e.1 [] = e.2 then u
    else u.log 0x0D03 7 ([BitVec.ofNat 8 (8 + e.1), 0, 0, 0] ++ Config.sha256 e.2)) s
  { t with boot := { t.boot with ks := { t.boot.ks with op := new } } }

/-- Boot step 5 (spec/17_firmware_and_configuration.md R446): slot record and configuration. -/
def State.step5 (s : State) : State :=
  let b := { s.boot with step := 5 }
  let rec_ := (b.slotRec.map Prod.snd).filter fun r => slotRecOk b.ks r
  let pick := match b.cfgAct, b.cfgPrev with
    | some a, p => if b.cfgVerifies a then some (a, false)
        else match p with
          | some p => if b.cfgVerifies p then some (p, true) else none
          | none => none
    | none, _ => none
  match rec_, pick with
  | r :: _, some (n, fallback) =>
    let img := b.cfgImage n
    let b := { b with cfgRun := some n, actVer := (parseHdr img).version, cause := if fallback then 4 else b.cause,
                      meas := b.meas.put 8 (Config.sha256 img) }
    let s := { s with boot := b, cfg := { Config.parseCfg img with valid := true },
                      sys := { s.sys with nodeId := Config.slotNode r } }
    (if b.cause = 0 then s else s.installProgram img).enrolOps img |>.loadProgram
  | _, _ => { s with boot := { b with cfgRun := none, actVer := 0 }, cfg := {}, prog := {}, sys := { s.sys with nodeId := 0 } }

/-- The counters of a safety input go on over a start of the subsystem (spec/03_register_conventions.md R74). -/
def Si.counts (x : Si) : Si := { cTrip := x.cTrip, cPulse := x.cPulse, cCross := x.cCross, cDemand := x.cDemand }

/-- The counters of a safety output. -/
def So.counts (x : So) : So := { ons := x.ons, darkFail := x.darkFail, faults := x.faults }

/-- The counters of a Waland Safe Channel. -/
def Wsc.counts (x : Wsc) : Wsc := { eCrc := x.eCrc, eSeq := x.eSeq, eLen := x.eLen, eWd := x.eWd, rttMax := x.rttMax }

/-- The counters of a loop and the words that it starts with. -/
def Loop.loaded (l : Loop) (c : LoopCfg) : Loop :=
  { bank0 := c.bank, bank1 := c.bank, op := c.grp, stg := c.grp, commEn := c.comm
    cntSat := l.cntSat, cntFbl := l.cntFbl, cntChk := l.cntChk, cntRef := l.cntRef }

/-- The lock-out at a start of the safety subsystem (spec/14_safety.md R370, R389): both latches set with the cause of
the last lock-out whose release has no record, else START; it is shown and not present. A supply that is still below its limit is
detected again. -/
def State.safStart (s : State) : State :=
  let c := if s.saf.openLock = 0 then 1 else s.saf.openLock
  let f : Saf := { started := true, spRun := true, selRun := true, cfgOk := s.cfg.valid, cause := c, openLock := c,
                   last := s.saf.last, cntLock := s.saf.cntLock + 1, cntAcc := s.saf.cntAcc, cntRef := s.saf.cntRef,
                   cntStuck := s.saf.cntStuck, supplyBad := s.saf.supplyBad, mboxApp := s.saf.mboxApp,
                   cfgCrc := s.saf.cfgCrc, selCrc := s.saf.selCrc,
                   tp1 := true, tp2 := true, pulses := s.saf.pulses, spCycMax := s.saf.spCycMax,
                   si := s.saf.si.mapV Si.counts, so := s.saf.so.mapV So.counts,
                   wsc := s.cfg.wsc.map fun c => (c.1,
                     { (s.saf.wsc.look c.1 {}).counts with
                       state := if c.2.en then 1 else 0, fsv := c.2.en, sent := [(0, s.sys.opNs)] }) }
  let t := ({ s with saf := f }).log 0x0A01 6 [BitVec.ofNat 8 c.toNat, 0, 0, 1]
  if f.supplyBad then t.lockout 10 0 0 true false else t

/-- The measurements M1 to M7 (spec/17_firmware_and_configuration.md Table 17.4), taken as each engine is loaded. -/
def State.measure (s : State) : State :=
  let fw := (s.boot.bankOf s.boot.bank).bytes
  let cf := match s.boot.cfgRun with
    | some n => s.boot.cfgImage n
    | none => []
  let m := [(1, sectionBytes fw [0x02]), (2, sectionBytes cf [0x22, 0x23]), (3, sectionBytes fw [0x03]),
    (4, sectionBytes fw [0x04]), (5, sectionBytes fw [0x05]), (6, sectionBytes fw [0x06] ++ sectionBytes cf [0x24]),
    (7, sectionBytes fw [0x07] ++ sectionBytes cf [0x25])]
  { s with boot := { s.boot with meas := m.foldl (fun t e => t.put e.1 (Config.sha256 e.2)) s.boot.meas } }

/-- The cycle number of every configured class computed from the local full time (spec/05_cyclic_execution.md R129): how many
whole cycles have passed since full time 0. -/
def State.numberCycles (s : State) : State :=
  { s with cyc := { s.cyc with cls := s.cfg.cls.foldl (fun (t : Tab Cls) (c : Nat × ClsCfg) => if c.2.en then
      t.upd c.1 {} fun x => { x with cycno := BitVec.ofNat 64 (s.tim.ns / (1000 * c.2.cycUs)) } else t) s.cyc.cls } }

/-- The FIO sequencer, once it is loaded, holds the local outputs in their state of BOOT (R56; Table 2.2): off, and 0 mA or the
strap's current. -/
def State.bootHeld (s : State) : State :=
  let t := (List.range 32).foldl (fun (u : State) n => if u.dioOut n then u.put (.dio n (u.dio n).level) else u) s
  (List.range 16).foldl (fun (u : State) n => u.driveZero n) t

/-- Boot step 6 (R56): the engines are loaded in order, and the configuration is loaded into the registers. A
module with a partner configured waits for it from then on (spec/09_duplex_pair.md Table 9.1; log entry 112). -/
def State.step6 (s : State) : State :=
  let cf := match s.boot.cfgRun with
    | some n => s.boot.cfgImage n
    | none => []
  let s := State.loadRegs s.cfg.regs { s with boot := { s.boot with step := 6 } }
  let s := { s with saf := { s.saf with cfgCrc := crc32 (sectionBytes cf [0x22]), selCrc := crc32 (sectionBytes cf [0x23]) } }
  let s := s.safStart.measure.numberCycles
  let s := { s with
           fio := { s.fio with run := true, feed0 := true, feed1 := true, afeed := true }
           tim := { s.tim with sel := bits (s.liveReg Reg.timCfg) 3 1 = 1,
                               doms := (([0, 1] : List Nat).filter fun d => s.domEn d).map fun d => (d, { s.dom d with state := .acquiring }) }
           cle := { s.cle with
             chk0 := s.cfg.chk0, chk1 := s.cfg.chk1
             loops := s.cfg.loops.map fun (c : Nat × LoopCfg) => (c.1, (s.cle.loops.look c.1 {}).loaded c.2)
             eng := s.cfg.frames.map fun (f : Nat × List FrEnt) => (f.1, { frame := f.2, nanin := (s.cle.eng.look f.1 {}).nanin }) }
           sys := { s.sys with lone := !(s.cfg.valid && s.cfg.partner) } }
  let s := s.bootHeld
  if s.sys.lone then s else s.setSync .waitPeer 0 0

/-- Every configured class starts at its next boundary (spec/02_modes_and_startup.md R43), with a first scan due
(spec/05_cyclic_execution.md R141), and no station counts as failed before its first latch (R133) but one that refused its parameters (spec/10_io_network.md R285); the loops wait for the first commit
of the fastest class. -/
def State.runClasses (s : State) : State :=
  { s with
    cyc := { s.cyc with
      cls := s.cfg.cls.foldl (fun t c => if c.2.en then
        t.upd c.1 {} fun x => { x with running := true, firstDue := true, prevIn := true } else t) s.cyc.cls
      mem := s.cfg.cls.foldl (fun t c => t.upd c.1 {} fun m => { m with commits := 0, preRun := true }) s.cyc.mem }
    net := { s.net with stns := s.net.stns.mapV fun x => { x with failed := x.failed && x.refused, rejoining := false } }
    cle := { s.cle with waitCommit := true } }

/-! The load of a pair (spec/05_cyclic_execution.md Table 5.10, CYC_PAIR_LOAD). -/

/-- The part of a running stretch that lies in the second before `now`, in ns. -/
def spanIn (now : Nat) (e : Nat × Nat) : Nat := e.2 - max e.1 (now - 1000000000)

/-- The stretches in the second before `now` in which a class ran on the pair. -/
def Pair.spans (now : Nat) (q : Pair) : List (Nat × Nat) :=
  (match q.busyFrom with
    | some t => q.busy ++ [(t, now)]
    | none => q.busy).filter fun e => decide (now < e.2 + 1000000000)

/-- The load of the pair over the second before `now`, in 0.01 %. -/
def Pair.load (now : Nat) (q : Pair) : BitVec 16 := BitVec.ofNat 16 (min 10000 (((q.spans now).map (spanIn now)).sum / 100000))

/-- The load of pair `p` is noted where it is highest: at the end of a stretch. -/
def State.noteLoad (p : Nat) (s : State) : State :=
  let l := (s.lsp.look p {}).load s.tim.ns
  let old := s.cyc.loadMax.look p 0
  { s with cyc := { s.cyc with load := s.cyc.load.put p l, loadMax := s.cyc.loadMax.put p (if old < l then l else old) } }

/-- No class runs on the pair any more; an abandoned cycle has no checkpoint to resume from. A failed pair keeps what Table 6.7 shows of
the moment of failure. -/
def Pair.free (now : Nat) (q : Pair) : Pair :=
  let x := { q with busyFrom := none, busy := q.spans now }
  if q.failed then x else { x with idle := true, starting := false, taking := false, resume := [], heldP := [], heldD := [] }

/-- No class starts a further cycle, the active cycles are abandoned, and the pairs are idle. -/
def State.haltClasses (s : State) : State :=
  let t := (List.range 4).foldl (fun (u : State) p => u.noteLoad p) s
  { t with
    cyc := { t.cyc with cls := t.cyc.cls.mapV fun x => { x with running := false, active := false, undecided := false } }
    lsp := t.lsp.mapV (Pair.free t.tim.ns) }

/-- BOOT ends in mode `m` (R38); a module of a pair that ends in RECOVERY or FAULT-HALT waits for its partner
(spec/09_duplex_pair.md Table 9.1). -/
def State.enterStart (m : Mode) (primary : Bool) (s : State) : State :=
  let s := { s with boot := { s.boot with step := 0, awaitStn := false, awaitPartner := false, listening := false } }
  let p := primary && roleAllowed m m
  let s := { s with sys := { s.sys with primary := p } }
  let s := if m = .run then s.runClasses else s
  let s := s.setMode m 2
  let s := { s with sys := { s.sys with primary := p } }
  if s.cfg.partner && (m == .recovery || m == .faultHalt) then s.setSync .waitPeer 0 0 else s

/-- BOOT ends in mode `m`; the module that holds the primary role takes a new epoch (R258). -/
def State.endBoot (m : Mode) (primary : Bool) (s : State) : State :=
  (if primary && roleAllowed m m then s.takeEpoch else s).enterStart m primary

/-- The replay of the press journal (spec/04_host_rings.md R114), once in a start: by a lone module, and by a module of a pair that takes
the primary role alone (log entry 113). -/
def State.replayOnce (replay : State → State) (s : State) : State :=
  if s.boot.replayDue then
    let t := replay s
    { t with boot := { t.boot with replayDue := false } }
  else s

/-- Boot steps 8 and 9 of a module that takes the primary role, with a new epoch (R258): every station gets its parameter block, and the
step waits for the stations that have not delivered (spec/10_io_network.md R285); then the module replays its journal (R114) and enters
its start mode. -/
def State.ringStart (replay : State → State) (stnsIn : List Nat) (s : State) : State :=
  let miss := s.cfg.stn.filter fun e => !(stnsIn.contains e.1)
  let s := { s with net := { s.net with stns := stnsIn.foldl (fun t i => t.upd i {} fun x =>
    { x with got := true, gotOk := true, everIn := true }) s.net.stns } }
  let s := s.takeEpoch.newBlocks
  if miss.isEmpty then (s.replayOnce replay).enterStart s.cfg.startMode true
  else { s with boot := { s.boot with step := 8, awaitStn := true } }

/-- BOOT is held in the mask ROM (Table 2.3, R79). -/
def State.holdBoot (cause : Nat) (s : State) : State :=
  { s with boot := { s.boot with held := true, cause := BitVec.ofNat 4 cause } }

/-- A failed self-test (Table 2.3, R30): FAULT-HALT with cause 0x04, and the lock-out latched with MODULE_HALT. -/
def State.testFailed (s : State) : State :=
  ((({ s with sys := { s.sys with haltCause := 4 } }).endBoot .faultHalt false).lockout 2 0 0 true false)

/-- The exit from BOOT after step 7: the first row of Table 2.3 that holds; a module with a partner waits for
heartbeats (spec/09_duplex_pair.md R59, R261), a lone one replays its journal (spec/04_host_rings.md R114). `failed` tells
whether self-test failed. -/
def State.bootExit (replay : State → State) (failed : Bool) (stnsIn : List Nat) (s : State) : State :=
  if s.boot.cause.toNat = 3 || s.boot.cause.toNat = 4 then (if s.sys.lone then s.replayOnce replay else s).endBoot .recovery false
  else if failed then s.testFailed
  else if !s.cfg.valid then (s.replayOnce replay).endBoot .commission true
  else if s.cfg.partner then { s with boot := { s.boot with awaitPartner := true } }
  else if decide (s.cfg.startMode = .run) then s.ringStart replay stnsIn
  else (s.replayOnce replay).endBoot s.cfg.startMode true

/-- Boot steps 4 to 7. -/
def State.steps4to7 (obs : BootObs) (s : State) : State :=
  let t := ((s.step4 obs).step5).step6
  { t with boot := { t.boot with step := 7 } }

/-- Boot steps 4 on, once a firmware bank runs. -/
def State.bootFrom4 (replay : State → State) (obs : BootObs) (s : State) : State :=
  (s.steps4to7 obs).bootExit replay (trainingLost s obs || !obs.selfTest) obs.stnsIn

/-- Boot steps 3 on. -/
def State.bootFrom3 (replay : State → State) (obs : BootObs) (s : State) : State :=
  if !s.boot.bankA.ok && !s.boot.bankB.ok then s.holdBoot 1 else s.bootFrom4 replay obs

/-- The whole start from step 2 on (Table 2.5); `pg` tells a start from power good from a restart. -/
def State.bootFrom2 (replay : State → State) (pg : Bool) (obs : BootObs) (s : State) : State :=
  let t := s.step2 pg obs
  if t.boot.ks.locked then t.holdBoot 2 else t.step3.bootFrom3 replay obs

end Sys2Proof.Machine
end

