-- ==== Sys2Proof/Machine/TlyOps.lean ====
section
/-! DEFINITION. The Tally's pages: writing and sealing a record, overwriting, reading and clearing
(spec/15_tally_recorder.md). -/

namespace Sys2Proof.Machine

/-- The units a page's records use. -/
def Page.used (p : Page) : Nat := (p.recs.map TRec.len).sum

/-- The pages of a region: 8,192 log pages or 256 audit pages (R403). -/
def regionPages (audit : Bool) : Nat := if audit then 256 else 8192

/-- The free pages of a region. -/
def Tly.freePages (t : Tly) (audit : Bool) : Nat := regionPages audit - (t.pages audit).length

/-- The lowest page number that no page of `ps` has. -/
def freeNo (ps : List Page) : Nat → Nat → Nat
  | 0, n => n
  | k + 1, n => if ps.any fun p => p.no == n then freeNo ps k (n + 1) else n

/-- The sealed records of a list of pages. -/
def sealedRecs (ps : List Page) : List TRec := (ps.flatMap Page.recs).filter TRec.sealed

/-- Sequence `a` lies before `b` (R409, R296): compared modulo 2³². -/
def seqLt (a b : Word) : Bool := decide ((a - b).toInt < 0)

/-- The record of lowest sequence. -/
def oldest : List TRec → Option TRec
  | [] => none
  | r :: rs => match oldest rs with
    | none => some r
    | some q => if seqLt q.seq r.seq then some q else some r

/-- The page that a full log overwrites (R412): the one holding the oldest sealed record of severity at most `sev`. -/
def Tly.victim (t : Tly) (sev : Nat) : Option Page :=
  match oldest ((sealedRecs t.log).filter fun r => decide (r.sev ≤ sev)) with
  | none => none
  | some r => t.log.find? fun p => p.recs.any fun q => q.seq == r.seq && q.sealed

/-- The page `no` of a region replaced by `p`. -/
def replacePage (ps : List Page) (no : Nat) (p : Page) : List Page := ps.map fun q => if q.no = no then p else q

/-- The record in `r` sealed and in the open page of its severity, where it fits there (R404). -/
def Tly.intoOpen (t : Tly) (audit : Bool) (r : TRec) : Option Tly :=
  match (t.pages audit).find? fun p => p.isOpen && p.sev == r.sev with
  | some p => if p.used + r.len ≤ 128 then
      some (t.setPages audit (replacePage (t.pages audit) p.no { p with recs := p.recs ++ [{ r with sealed := true }] }))
    else none
  | none => none

/-- The open page of severity `sev` is closed. -/
def Tly.closeOpen (t : Tly) (audit : Bool) (sev : Nat) : Tly :=
  t.setPages audit ((t.pages audit).map fun p => if p.sev = sev then { p with isOpen := false } else p)

/-- The record in a fresh page of its severity. -/
def Tly.intoNew (t : Tly) (audit : Bool) (no : Nat) (r : TRec) : Tly :=
  t.setPages audit (t.pages audit ++ [{ no := no, sev := r.sev, isOpen := true, recs := [{ r with sealed := true }] }])

/-- The 16-byte header of a record (Table 15.1). -/
def TRec.header (r : TRec) : List Byte :=
  [BitVec.ofNat 8 r.len, BitVec.ofNat 8 (r.sev + 8 * r.source)] ++ le 4 r.seq.toNat ++ le 4 r.pwrcyc.toNat ++
    le 6 r.optime.toNat

/-- A whole record: header, payload and seal (R405, R408). -/
def TRec.bytes (r : TRec) : List Byte :=
  let b := r.header ++ pad8 r.payload
  b ++ le 4 (crc32 b).toNat ++ le 4 r.seq.toNat

/-- The record is a clear's audit record (R413, R420). -/
def TRec.isClear (r : TRec) : Bool := fieldN r.payload 0 2 == 0x0B01

/-- A record of severity 0 to 6 is written and sealed (R404, R412). -/
def Tly.writeLog (t : Tly) (r : TRec) : Tly :=
  match t.intoOpen false r with
  | some u => u
  | none =>
    let u := t.closeOpen false r.sev
    if 0 < u.freePages false then u.intoNew false (freeNo u.log 8192 0) r
    else match u.victim r.sev with
      | some p =>
        ({ u with log := u.log.filter (fun q => q.no != p.no),
                  ovw := u.ovw + BitVec.ofNat 32 (p.recs.countP TRec.sealed) }).intoNew false p.no r
      | none => { u with drop := u.drop + 1 }

/-- An audit record is written and sealed; the last page is held back for the records of clears (R413): while no page is free, it is the
open one. -/
def Tly.writeAudit (t : Tly) (r : TRec) : Tly :=
  if !r.isClear && decide (t.freePages true = 0) then { t with auditLost := t.auditLost + 1 }
  else match t.intoOpen true r with
  | some u => u
  | none =>
    let u := t.closeOpen true 7
    if (if r.isClear then 0 else 1) < u.freePages true then u.intoNew true (freeNo u.audit 256 0) r
    else { u with auditLost := u.auditLost + 1 }

/-- A record is written and sealed in its region (R403). -/
def Tly.write (t : Tly) (r : TRec) : Tly := if r.sev = 7 then t.writeAudit r else t.writeLog r

/-- The next record that may be written: the first of the queue, or under PFAIL the first of severity 5 to 7 or whose
write had begun (R411). -/
def Tly.next (t : Tly) (pfail : Bool) : Option TRec :=
  t.queue.find? fun r => !pfail || decide (5 ≤ r.sev) || t.writing.any fun w => w.seq == r.seq

/-- Every record that may still be written under PFAIL is written (spec/18 Table 18.2); the others are lost with the
queue. -/
def Tly.flush (t : Tly) : Tly :=
  let (keep, _) := t.queue.partition fun r => decide (5 ≤ r.sev) || t.writing.any fun w => w.seq == r.seq
  { keep.foldl Tly.write t with queue := [], writing := none }

/-- The records of a region with a valid seal, at or after sequence `n`, of severity at least `sev`, in sequence order. -/
def insertSeq (r : TRec) : List TRec → List TRec
  | [] => [r]
  | q :: qs => if seqLt r.seq q.seq then r :: q :: qs else q :: insertSeq r qs

/-- The sealed records of a region in sequence order. -/
def Tly.sorted (t : Tly) (audit : Bool) : List TRec := (sealedRecs (t.pages audit)).foldl (fun l r => insertSeq r l) []

/-- The sealed record of lowest sequence at or after `n` (R415). -/
def Tly.lookup (t : Tly) (audit : Bool) (n : Word) : Option TRec :=
  (t.sorted audit).find? fun r => !seqLt r.seq n

/-- The oldest sealed sequence of a region; 0 where it holds none. -/
def Tly.oldestSeq (t : Tly) (audit : Bool) : Word := match oldest (sealedRecs (t.pages audit)) with
  | some r => r.seq
  | none => 0

/-- Sequence `x` lies from `a` to `b`, modulo 2³². -/
def seqIn (a b x : Word) : Bool := decide (x - a ≤ b - a)

/-- The records a clear clears (R420): sealed, and of a sequence in the range. -/
def Tly.cleared (t : Tly) (audit : Bool) (a b : Word) : Nat :=
  (sealedRecs (t.pages audit)).countP fun r => seqIn a b r.seq

/-- A region after a clear (R420): the records' seals are zeroed, and a page is freed once all its records are cleared. -/
def clearPages (ps : List Page) (a b : Word) : List Page :=
  (ps.map fun p => { p with recs := p.recs.map fun r => if r.sealed && seqIn a b r.seq then { r with sealed := false } else r }).filter
    fun p => p.recs.any TRec.sealed

/-- The reason for which a clear is refused (R420); 0 if it is not. -/
def Tly.clearReason (t : Tly) (audit : Bool) (a b : Word) : Nat :=
  let room := (t.audit.any fun p => p.isOpen && decide (p.used + 7 ≤ 128)) || decide (0 < t.freePages true)
  if !room then 0x50
  else if 2 ^ 31 ≤ (b - a).toNat then 0x51
  else if audit && decide (a ≠ t.oldestSeq true) then 0x52
  else 0

/-- A clear is applied (R420): the records go, TLY_CLRCNT counts it, and the audit record 0x0B01 is written. -/
def State.applyClear (audit : Bool) (a b : Word) (key : Nat) (s : State) : State :=
  let n := s.tly.cleared audit a b
  let t := { s with tly := (s.tly.setPages audit (clearPages (s.tly.pages audit) a b)) }
  ({ t with tly := { t.tly with clears := t.tly.clears + 1 } }).log 0x0B01 7
    (le 4 a.toNat ++ le 4 b.toNat ++ [BitVec.ofNat 8 (bit audit), BitVec.ofNat 8 key, BitVec.ofNat 8 s.sys.mode.code, 0] ++ le 4 n)

end Sys2Proof.Machine
end

