-- ==== Sys2Proof/Machine/Fail.lean ====
section
/-! DEFINITION. What ends a module's work: records and notices on the baste link, the end of INSYNC, FAULT-HALT, the
takeover by a standby and the step-down of a primary, and the shutdown. -/

namespace Sys2Proof.Machine

/-- The fastest configured class: shortest cycle, then lowest number (spec/09_duplex_pair.md R250). -/
def State.fastest (s : State) : Option Nat :=
  (s.cfg.cls.foldl (fun b c =>
    if !c.2.en then b
    else match b with
      | none => some (c.1, c.2.cycUs)
      | some (i, u) => if c.2.cycUs < u then some (c.1, c.2.cycUs) else some (i, u)) none).map Prod.fst

/-- The configuration of class `c`. -/
def State.ccfg (s : State) (c : Nat) : ClsCfg := s.cfg.cls.look c {}

/-- The state of class `c`. -/
def State.cls (s : State) (c : Nat) : Cls := s.cyc.cls.look c {}

/-- The memories of class `c`. -/
def State.cmem (s : State) (c : Nat) : ClsMem := s.cyc.mem.look c {}

/-- `s` with class `c` changed by `f`. -/
def State.updCls (c : Nat) (f : Cls → Cls) (s : State) : State :=
  { s with cyc := { s.cyc with cls := s.cyc.cls.upd c {} f } }

/-- `s` with the memories of class `c` changed by `f`. -/
def State.updMem (c : Nat) (f : ClsMem → ClsMem) (s : State) : State :=
  { s with cyc := { s.cyc with mem := s.cyc.mem.upd c {} f } }

/-- The shortest configured cycle c_f in µs. -/
def State.cfUs (s : State) : Nat := match s.fastest with
  | some c => (s.ccfg c).cycUs
  | none => 0

/-- The cycle number of the last commit of the fastest class (spec/09_duplex_pair.md Tables 9.15, 9.18); 0 if none. -/
def State.lastCommit (s : State) : DWord := match s.fastest with
  | some c => if (s.cmem c).commits = 0 then 0 else (s.cmem c).lastNo
  | none => 0

/-! Records on the baste link. -/

/-- The changed data of a commit is counted in its 1 ms window of full time (spec/09_duplex_pair.md R245, DPX_MIRROR). -/
def State.countMirror (n : Nat) (s : State) : State :=
  let w := s.tim.ns / 1000000
  let d := s.dpx2
  if w = d.mirWin then { s with dpx2 := { d with mirB := d.mirB + n } }
  else
    let k := BitVec.ofNat 16 (if w = d.mirWin + 1 then d.mirB / 1024 else 0)
    let top := BitVec.ofNat 16 (d.mirB / 1024)
    { s with dpx2 := { d with mirWin := w, mirB := n, mirKib := k, mirMax := if d.mirMax < top then top else d.mirMax } }

/-- The changed data that a mirror record carries (spec/09_duplex_pair.md Table 9.2): 64 bytes and payload of host work, lines of 64
bytes, loop entries, headers of 16 bytes. -/
def mirrorBytes (type : Nat) (p : List Byte) : Nat :=
  if type = 3 then p.length - 32
  else if type = 4 then 64 * fieldN p 2 2
  else if type = 8 then 16 * fieldN p 0 2
  else if type = 6 ∨ type = 7 then p.length
  else 0

/-- The mirror backlog in bytes (spec/09_duplex_pair.md R245): what was queued, less what a lane of 1,100 MiB/s has carried since
(R235; log entry 68). -/
def State.backlogNow (s : State) : Nat := s.dpx2.backlog - (s.tim.ns - s.dpx2.blNs) * 1153433600 / 1000000000

/-- A mirror record (TYPE 3 to 8) enters the backlog and its window's count. -/
def State.queueRec (type : Nat) (payload : List Byte) (s : State) : State :=
  if 3 ≤ type ∧ type ≤ 8 then
    let t := s.countMirror (mirrorBytes type payload)
    { t with dpx2 := { t.dpx2 with backlog := s.backlogNow + 28 + (payload.length + 7) / 8 * 8, blNs := s.tim.ns } }
  else s

/-- A record other than a heartbeat is sent on both lanes under one RSEQ (spec/09_duplex_pair.md R235, R238); `last` marks
the last part of split content. -/
def State.sendPart (type : Nat) (sync prog last : Bool) (payload : List Byte) (s : State) : State :=
  if !s.cfg.partner then s
  else
    let n := s.dpx2.rseqTx + 1
    let t := if sync then s else s.queueRec type payload
    ({ t with dpx2 := { t.dpx2 with rseqTx := n } }).put (.baste
      { type := type, fmt := s.boot.runHdr.mirrorFmt.toNat, sync := sync, last := last, rseq := n,
        progVer := if prog then s.chg.actVer else 0, payload := payload })

/-- A record that is not split. -/
def State.sendRec (type : Nat) (sync prog : Bool) (payload : List Byte) (s : State) : State :=
  s.sendPart type sync prog true payload

/-- A NOTICE record (spec/09_duplex_pair.md Table 9.18). -/
def State.notice (kind detail : Nat) (cycno ref : DWord) (s : State) : State :=
  s.sendRec 0x0B false false
    ([BitVec.ofNat 8 kind, BitVec.ofNat 8 detail, 0, 0] ++ le 4 s.dpx.eOwn.toNat ++ le 8 cycno.toNat ++ le 8 ref.toNat)

/-- This module's heartbeats stop on both lanes. -/
def State.stopHeartbeats (s : State) : State := { s with dpx := { s.dpx with heartbeats := false } }

/-- The state that follows the end of INSYNC or of an initial sync (spec/09_duplex_pair.md Table 9.1, R253; log entry 15):
with a lane up, SYNCING; with both down, LINK_LOST on the primary, and on a standby while it hears the primary's beacons,
else WAIT_PEER. -/
def State.afterLoss (s : State) : SyncState :=
  if s.dpx.up0 || s.dpx.up1 then .syncing
  else if s.sys.primary || decide (s.dpx.beaconHeard ||| s.dpx.slotHeard ≠ 0) then .linkLost else .waitPeer

/-- INSYNC ends for `cause` of record 0x0502 (spec/09_duplex_pair.md R242); an exchange that waits for its boundary is abandoned
(log entry 40). -/
def State.endInsync (cause : Nat) (s : State) : State :=
  if !s.insync then s
  else
    let t := s.setSync s.afterLoss 0 cause
    let t := if (s.dpx2.xPend || s.dpx.handover) && s.sys.primary then
        { t with sys := { t.sys with preempted := t.sys.preempted ++ [s.dpx2.xslot] } } else t
    { t with dpx := { t.dpx with handover := false }
             dpx2 := { t.dpx2 with syncMib := 0, xPend := false, isProof := false, absPend := 0, modeDue := none, bulkSent := false,
                                   hwOut := [] }
             hif := { t.hif with hold := false } }

/-- A mirror backlog above 8 MiB ends INSYNC (spec/09_duplex_pair.md R242, R245). -/
def State.backlogOver (s : State) : State := if 8388608 < s.backlogNow then s.endInsync 2 else s

/-! FAULT-HALT. -/

/-- A cycle that never commits has its overrun record written (spec/05_cyclic_execution.md R136). -/
def State.overrunRec (c : Nat) (s : State) : State :=
  let x := s.cls c
  if x.active && x.cycOver && x.prevIn then
    let us := (s.tim.ns - x.startNs) / 1000 - (s.liveReg (Reg.cycClsSoft + 0x40 * c)).toNat
    s.log 0x0201 3 ([BitVec.ofNat 8 c, 0, 0, 0] ++ le 8 x.cur.toNat ++ le 4 us)
  else s

/-- The records of R136 for every class whose cycle is abandoned. -/
def State.overrunRecs (s : State) : State := (s.cyc.cls.keys).foldl (fun t c => t.overrunRec c) s

/-- Entry to FAULT-HALT (spec/02_modes_and_startup.md R30, R48): a transition in progress is abandoned (R52), no class
executes again, the lock-out latches with MODULE_HALT. -/
def State.enterHalt (cause : Nat) (s : State) : State :=
  let t := s.overrunRecs.preempt.haltClasses
  (({ t with sys := { t.sys with haltCause := BitVec.ofNat 8 cause } }).setMode .faultHalt 3).lockout 2 0 0 true false

/-- The selection before the last switch is in force again (spec/17_firmware_and_configuration.md R455, R458). -/
def Boot.previousSelection (b : Boot) : Boot :=
  { b with bank := if b.act.fw then b.act.prevBank else b.bank
           sel := if b.act.fw then b.act.prevBank else b.sel
           switched := b.switched && !b.act.fw
           migrating := b.migrating && !b.act.fw
           confirmAt := if b.act.fw then none else b.confirmAt
           cfgPrev := if b.act.cfg then b.cfgAct else b.cfgPrev
           cfgAct := if b.act.cfg then some b.act.prevCfg else b.cfgAct }

/-- The module restarts at step 2 on its previous selection and enters RECOVERY with BOOT_STAT.CAUSE 5 and an error
record (spec/17_firmware_and_configuration.md R458). What this start finds is a free value (log entry 111); a start that holds in
BOOT (Table 2.3) stays there. -/
def State.settleFail (check : Nat) (s : State) : State :=
  let v := ({ s with boot := s.boot.previousSelection }).haltClasses
  let (obs, u) := v.drawObs
  let t := u.step2 false obs
  if t.boot.ks.locked then t.holdBoot 2
  else
    let t := t.step3
    if !t.boot.bankA.ok && !t.boot.bankB.ok then t.holdBoot 1
    else (((({ t with boot := { t.boot with cause := 5 } }).steps4to7 obs).endBoot .recovery false)).log 0x0D02 4
      [0x6C, BitVec.ofNat 8 check]

/-- A lone module is in the settle window of R458. -/
def State.settling (s : State) : Bool := decide (s.boot.act.state = 4) && !s.insync

/-- An unrecoverable fault of the module (R11, R48; spec/06_lockstep_and_darn.md R170): with an in-sync partner a failure
notice goes out, heartbeats stop, and the halt cause is 0x07; otherwise the halt cause is `alone`. In the settle window of
a lone module's switch, the module restarts on its previous selection instead (R458). -/
def State.unrecoverable (alone : Nat) (s : State) : State :=
  if !s.powered || s.pwr.shutdown || decide (s.sys.mode = .faultHalt) then s
  else if s.settling then s.settleFail 0
  else if s.insync then (((s.notice 1 0 s.lastCommit 0).stopHeartbeats).endInsync 6).enterHalt 7
  else s.enterHalt alone

/-! Roles. -/

/-- A class's data that is not mirrored starts from initial values on a new primary (spec/09_duplex_pair.md R255). -/
def State.freshUnmirrored (s : State) : State :=
  (s.cfg.cls.filter fun c => c.2.en && !c.2.mirror).foldl
    (fun t c => t.updMem c.1 fun m => { m with data := s.prog.init.look c.1 [], glob := [], globPub := [] }) s

/-- The classes and loops of a module that takes the primary role (spec/09_duplex_pair.md R254, Table 5.3): each class
starts at its next boundary with the TAKEOVER error task due and no first scan, and with the host writes that no mirrored commit
holds pending; the loops are held and resume bumplessly. -/
def State.startTakeover (s : State) : State :=
  let t := s.freshUnmirrored
  let late := fun (c : Nat) => (s.mir.look c {}).wr.map Prod.snd
  { t with
    mir := t.mir.mapV fun x => { x with wr := [] }
    cyc := { t.cyc with
      cls := t.cfg.cls.foldl (fun k c => if c.2.en then
        k.upd c.1 {} fun x => { x with running := true, active := false, firstDue := false, dueTake := some t.dpx.eOwn,
                                       prevIn := true, dropped := 0, latePend := none } else k) t.cyc.cls
      mem := t.cyc.mem.map fun (m : Nat × ClsMem) => (m.1, { m.2 with commits := 0, pendWr := m.2.pendWr ++ late m.1 }) }
    cle := { t.cle with waitCommit := true, loops := t.cle.loops.mapV fun l => { l with bumpDue := true } } }

/-- An online change that was not recorded is discarded by a takeover; a recorded one stays scheduled
(spec/08_online_change.md R227). -/
def Change.afterTakeover (c : Change) : Change := if c.state = 3 then c else { c with state := 0, recorded := false, awaitCls := [] }

/-- An activation in progress goes on as on a lone module (spec/17_firmware_and_configuration.md R459): a module that has
switched is on the new version, and its settle checks follow. -/
def Act.afterTakeover (a : Act) : Act :=
  if !a.busy then a
  else if a.done then { a with pair := false, state := 4, step := 5 }
  else { a with pair := false, state := if a.at_ = 0 then 1 else 2, step := 1 }

/-- A standby takes over by detection (spec/09_duplex_pair.md R252, R254): mode TAKEOVER with cause 5, a new epoch, the
roles of its classes and loops; INSYNC ends with the partner's loss. -/
def State.takeover (s : State) : State :=
  let t := { s with chg := s.chg.afterTakeover, boot := { s.boot with act := s.boot.act.afterTakeover } }
  let t := t.preempt.setMode .takeover 5
  let t := (t.beginTrans .run 5 31).takeEpoch
  let t := { t with dpx := { t.dpx with state := .noPartner, partnerHb := false }, dpx2 := { t.dpx2 with takeFrom := 1 } }
  (t.startTakeover).log 0x0502 4 [4, 1, 0, 3]

/-- The unretired journal records become orphans (spec/09_duplex_pair.md R260), each named in a record. -/
def State.orphanJournal (s : State) : State :=
  let js := s.hif.journal.filter fun r => !r.orphan
  let t : State := js.foldl (fun (u : State) (r : JRec) =>
    u.log 0x0507 4 ([BitVec.ofNat 8 r.slot, 0, 0, 0, 0, 0, 0, 0] ++ le 8 r.reqId.toNat)) s
  { t with hif := { t.hif with journal := t.hif.journal.map fun (r : JRec) => { r with orphan := true } } }

/-- The role is standby. -/
def State.asStandby (s : State) : State := { s with sys := { s.sys with primary := false } }

/-- A module in TAKEOVER returns to RUN as standby (spec/02_modes_and_startup.md R46). -/
def State.leaveTakeover (s : State) : State :=
  if decide (s.sys.mode = .takeover) then ((s.setMode .run 5).asStandby) else s.asStandby

/-- A primary, or a module in TAKEOVER, that meets a higher epoch becomes standby (spec/09_duplex_pair.md R260): an error
record, the count, no class commits again, its unretired journal records become orphans. -/
def State.stepDown (port : Nat) (e : Word) (s : State) : State :=
  let t := { s with dpx := { s.dpx with eSeen := if s.dpx.eSeen < e then e else s.dpx.eSeen },
                    dpx2 := { s.dpx2 with stepDown := s.dpx2.stepDown + 1, takeFrom := 0 } }
  let u := (t.log 0x0503 4 ([BitVec.ofNat 8 port, 0, 0, 0] ++ le 4 e.toNat ++ le 4 s.dpx.eOwn.toNat)).orphanJournal
  let v := (((u.endInsync 5).haltClasses).asStandby).leaveTakeover
  v.setSync v.afterLoss 0 5

/-- E_seen rises to a higher epoch met in a heartbeat or on a ring (spec/09_duplex_pair.md R258). -/
def State.seeEpoch (e : Word) (s : State) : State :=
  if s.dpx.eSeen < e then { s with dpx := { s.dpx with eSeen := e } } else s

/-- The module transmits in the primary role: as primary, or in TAKEOVER after it has taken its epoch (R252, R254). An old
primary in TAKEOVER of a commanded exchange has handed over and does not (R265; log entry 22). -/
def State.drives (s : State) : Bool :=
  s.alive && (if decide (s.sys.mode = .takeover) then decide (s.dpx2.takeFrom ≠ 0)
              else s.sys.primary && decide (s.sys.mode ≠ .boot))

/-! Shutdown. -/

/-- The outputs of a stopping module (spec/18_power_electrical_mechanical.md Table 18.2): every safety switch open, DIO
undriven, AO at 0 mA or the strap's current, CAN recessive. -/
def State.dropOutputs (s : State) : State :=
  let t := (List.range 32).foldl (fun (u : State) n => if u.dioOut n then u.put (.dio n none) else u) s.soOff
  let t := { t with fio := { t.fio with aio := t.fio.aio.mapV Aio.endTrim } }
  let t := (List.range 16).foldl (fun (u : State) n => u.driveZero n) t
  { t with can := t.can.mapV (fun c => { c with off := true, txActive := false }) }

/-- A module stops as at t = 0 of a shutdown (Table 18.2; spec/09_duplex_pair.md R270): heartbeats stop, no class commits,
no frame and no fetch, and the outputs drop. -/
def State.stopModule (s : State) : State :=
  let t := ((s.stopHeartbeats.preempt).haltClasses).dropOutputs
  { t with pwr := { t.pwr with shutdown := true },
           sys := { t.sys with trans := some { dst := .retain, cause := 4, slot := 31 } } }

/-- RETAIN: MRAM, NOR, slot memory and RET are left (R468); the tally queue's records of severity 5 to 7 are sealed, the
others lost (spec/15_tally_recorder.md R411); a device marking that waited is lost (Table 18.3). The mode change enters the queue as its
last record (spec/02_modes_and_startup.md R28). -/
def State.intoRetain (s : State) : State :=
  let old := s.sys.mode
  let r := { s with sys := { s.sys with mode := .retain, primary := false } }
  let s := r.log 0x0001 2 (r.modeDetail old 4)
  let k := { s with tly := s.tly.flush }.kept
  { k with
    sys := { k.sys with mode := .retain, from_ := old }
    hif := { k.hif with crs := true }
    tly := { k.tly with isOpen := false }
    mm := if s.mm.markUnsaved then {} else k.mm
    boot := { k.boot with step := 0 } }

end Sys2Proof.Machine
end

