-- ==== Sys2Proof/Machine/Waiting.lean ====
section
/-! DEFINITION. What the waiting reads of a ring return: VAR_READ (spec/05_cyclic_execution.md R145) waits for a commit and LOOP_READ
(spec/07_loop_engines.md R211) for creases, as long as the module's mode and role let them come. -/

namespace Sys2Proof.Machine

/-- The module runs and no shutdown has begun (spec/18_power_electrical_mechanical.md R469). -/
def State.running (s : State) : Bool := s.powered && !s.pwr.shutdown

/-- The classes of this module execute: it is in the primary role, or in TAKEOVER with its own new epoch. -/
def State.executes (s : State) : Bool :=
  s.running && (s.sys.primary || (decide (s.sys.mode = .takeover) && decide (s.dpx2.takeFrom ≠ 0)))

/-! Loops: their configuration, and which of them run. -/

/-- One loop slot. -/
def State.loop (s : State) (n : Nat) : Loop := s.cle.loops.look n {}

/-- The configuration of loop `n`. -/
def State.lcfg (s : State) (n : Nat) : LoopCfg := s.cfg.loops.look n {}

/-- Slot `n` is configured. -/
def State.loopSet (s : State) (n : Nat) : Bool := (s.cfg.loops.find n).isSome

/-- The mode whose row of Table 2.2 (spec/02_modes_and_startup.md) governs: in HOLD the mode it was entered from. -/
def State.rowMode (s : State) : Mode := if decide (s.sys.mode = .hold) then s.sys.from_ else s.sys.mode

/-- The target of a commanded stop of the classes that is in progress (spec/02_modes_and_startup.md R43,
spec/05_cyclic_execution.md R142). -/
def State.stopTo (s : State) : Option Mode :=
  match s.sys.trans with
  | some t => if t.dst = .stop ∨ t.dst = .commission then some t.dst else none
  | none => none

/-- The row of Table 2.2 that the loops follow: from a command to STOP on, that of STOP (spec/02_modes_and_startup.md R43). -/
def State.outMode (s : State) : Mode := (s.stopTo).getD s.rowMode

/-- The mode lets loop `n` compute steps (spec/02_modes_and_startup.md Table 2.2, spec/07_loop_engines.md R203). -/
def State.loopRuns (s : State) (n : Nat) : Bool :=
  s.running && s.loopSet n && (match s.outMode with
    | .run => s.sys.primary && !s.cle.waitCommit
    | .test => s.cfg.plantEn && !s.cle.waitCommit
    | .commission => (s.loop n).commEn
    | _ => false)

/-- The loop engines are loaded and stepping is possible at all. -/
def State.loopsUp (s : State) : Bool :=
  s.running && (match s.sys.mode with
    | .retain | .boot | .idleLink | .faultHalt => false
    | _ => true)

/-- CLE_LOOP_STAT of loop `n` (spec/07_loop_engines.md Table 7.16). -/
def State.loopStat (s : State) (n : Nat) : Word :=
  let l := s.loop n
  if !s.loopSet n then 0
  else wordOf [(0, bit (l.run && s.loopRuns n)), (1, bit l.man), (2, bit l.fbl), (3, if l.fbl then l.fblCause.toNat else 0), (6, bit l.sat),
    (7, bit (l.sat && l.satHi)), (8, bit l.chkHold), (9, bit l.abank),
    (10, bit (decide (s.sys.mode = .run) && !s.sys.primary)),
    (11, bit (decide (s.sys.mode = .takeover ∨ s.sys.mode = .activate))), (12, bit l.rearmPend)]

/-! VAR_READ (spec/05_cyclic_execution.md Tables 5.6, 5.8). -/

/-- The committed output image (spec/01_architecture.md R19): the buffer that the published-buffer index names. -/
def ClsMem.image (m : ClsMem) : Mem := if m.idx then m.pub1 else m.pub0

/-- The variable of a handle. -/
def State.var (s : State) (h : Word) : Option Var := s.prog.vars.find h.toNat

/-- Bytes padded to a multiple of 8. -/
def pad8n (n : Nat) : Nat := (n + 7) / 8 * 8

/-- The elements that `b` holds, each with its value if `vals`; `fuel` bounds their number. -/
def parseElems (vals : Bool) : Nat → List Byte → List Elem
  | 0, _ => []
  | fuel + 1, b =>
    if b.isEmpty then []
    else
      let n := fieldN b 6 2
      { handle := BitVec.ofNat 32 (fieldN b 0 4), off := fieldN b 4 2, len := n, val := if vals then slice b 8 n else [] } ::
        parseElems vals fuel (b.drop (if vals then 8 + pad8n n else 8))

/-- The elements of a command. -/
def elemsOf (vals : Bool) (h : Hcmd) : List Elem := parseElems vals (h.payload.length / 8) h.payload

/-- The class that a command addresses. -/
def classOf (h : Hcmd) : Nat := h.target.toNat % 8

/-- The bytes of an element in the state of its class as of the last commit. -/
def State.readElem (s : State) (e : Elem) : List Byte :=
  match s.var e.handle with
  | none => []
  | some v =>
    let m := s.cmem v.cls
    let src := if v.mem = 1 then m.inImg else if v.mem = 2 then m.image else if v.mem = 3 then m.globPub else m.data
    src.rdN (v.addr + e.off) e.len

/-- The cycle number of the commit that a VAR_READ of class `c` reads: the class's last, or the last mirrored one on a standby. -/
def State.readCyc (s : State) (c : Nat) : DWord := if s.executes || s.sys.lone then (s.cmem c).lastNo else (s.mir.look c {}).cyc

/-- The return data of VAR_READ (Table 5.8); NOCYCLE where the class has no cycle active and none has just committed. -/
def State.varReturn (s : State) (c : Nat) (noCycle : Bool) (es : List Elem) : List Byte :=
  le 8 (s.readCyc c).toNat ++ [BitVec.ofNat 8 c, BitVec.ofNat 8 (bit noCycle)] ++ le 2 es.length ++ le 4 0 ++
    es.flatMap fun (e : Elem) => padTo (pad8n e.len) (s.readElem e)

/-- The return data of a VAR_READ whose copy is made at once. -/
def State.varNow (s : State) (h : Hcmd) : List Byte := s.varReturn (classOf h) (!(s.cls (classOf h)).active) (elemsOf false h)

/-- VAR_READ waits for a commit: the class runs cycles on this module, in RUN or TEST, or finishes its last one. -/
def State.readWaits (s : State) (c : Nat) : Bool :=
  s.executes && ((s.cls c).running || (s.cls c).active) && decide (s.sys.mode = .run ∨ s.sys.mode = .test)

/-! LOOP_READ (spec/07_loop_engines.md Table 7.12). -/

/-- The elements of a loop command: 8 bytes each. -/
def loopElems (h : Hcmd) : List (List Byte) := (List.range (h.payload.length / 8)).map fun i => slice h.payload (8 * i) 8

/-- The slot that an element names. -/
def slotOf (b : List Byte) : Nat := fieldN b 0 2 % 4096

/-- A bank as words by number (spec/07_loop_engines.md R181). -/
def bankOf (t : Tab Word) : Nat → Word := fun j => t.look j 0

/-- The active bank. -/
def Loop.active (l : Loop) : Tab Word := if l.abank then l.bank1 else l.bank0

/-- The active word `j` in use, after the scheduling of the last sample (R193, CLE_LOOP_ACOEF). -/
def Loop.activeWord (l : Loop) (c : LoopCfg) (j : Nat) : Word := effWord c (bankOf l.active) (l.schPt.toNat, l.schFrac) j

/-- The record of loop `n` (Table 7.12). -/
def State.loopRecord (s : State) (n : Nat) : List Byte :=
  let l := s.loop n
  le 2 n ++ le 2 (s.loopStat n).toNat ++ le 4 l.op.sp.toNat ++ le 4 l.fb.toNat ++ le 4 l.out.toNat ++ le 4 l.op.mout.toNat ++
    le 4 (l.dyn.look 0 0).toNat ++ le 4 l.creaseT.toNat ++ le 4 0 ++
    (List.range 8).flatMap fun j => le 4 (l.activeWord (s.lcfg n) (2 + j)).toNat

/-- The return data of LOOP_READ. -/
def loopReturn (rs : List (List Byte)) : List Byte := padTo 16 (le 2 rs.length) ++ rs.flatten

/-- LOOP_READ waits for the creases of its loops: on a module in the primary role whose loops crease. -/
def State.loopReadWaits (s : State) : Bool := s.sys.primary && s.loopsUp

/-- The records of a waiting LOOP_READ in the order of its elements: those taken at creases, and the others now. -/
def State.loopRest (s : State) (i : Infl) : List (List Byte) :=
  (List.range (loopElems i.cmd).length).map fun k => match i.got.find k with
    | some b => b
    | none => s.loopRecord (slotOf ((loopElems i.cmd).getD k []))

end Sys2Proof.Machine
end

