-- ==== Sys2Proof/Machine/Rings.lean ====
section
/-! DEFINITION. The life of a ring command (spec/04_host_rings.md): taken from its ring, checked, matched against the
window, recorded, applied and completed. -/

namespace Sys2Proof.Machine

/-! Status codes of Table 4.6. -/

abbrev St.ok : BitVec 16 := 0x0000
abbrev St.invalidOpcode : BitVec 16 := 0x0001
abbrev St.invalidField : BitVec 16 := 0x0002
abbrev St.lenErr : BitVec 16 := 0x0003
abbrev St.dmaErr : BitVec 16 := 0x0004
abbrev St.idErr : BitVec 16 := 0x0005
abbrev St.staleId : BitVec 16 := 0x0006
abbrev St.roleRefused : BitVec 16 := 0x0007
abbrev St.modeRefused : BitVec 16 := 0x0008
abbrev St.modeBusy : BitVec 16 := 0x0009
abbrev St.modePreempted : BitVec 16 := 0x000A
abbrev St.forceRefused : BitVec 16 := 0x000B
abbrev St.tokenErr : BitVec 16 := 0x000C
abbrev St.sigErr : BitVec 16 := 0x000D
abbrev St.notFound : BitVec 16 := 0x000E
abbrev St.aborted : BitVec 16 := 0x000F
abbrev St.refused : BitVec 16 := 0x0010

/-- The durability classes of R109. -/
inductive Dur where
  | n | j | s
deriving DecidableEq, Repr

/-- What the checks that depend on state decide: the command goes on, or is refused with a status and a reason. -/
inductive Verdict where
  | go
  | no (status : BitVec 16) (reason : Word)
deriving DecidableEq, Repr

/-- The result of a command's effect: the state, the return data, the results, whether the completion waits, and the
status of a completion that does not. -/
structure HRes where
  s : State
  ret : List Byte := []
  r0 : Word := 0
  r1 : DWord := 0
  wait : Bool := false
  status : BitVec 16 := 0

/-- One row of Table 4.7: its code, whether it belongs to the admin ring, its durability class, whether it is of role P,
its checks of step 1 of R112 (`none`: passed), its checks on state, and its effect. `prepare` is the work that comes
before the record (spec/08_online_change.md R219, spec/17_firmware_and_configuration.md R452); `none`: there is none. `cyc` is the cycle number at which
the effect applies, as the record carries it (spec/09_duplex_pair.md R246). -/
structure HostOp where
  code : BitVec 8
  admin : Bool
  dur : Dur
  roleP : Bool
  static : Hcmd → Option (BitVec 16)
  check : Hcmd → State → Verdict
  effect : Hcmd → State → HRes
  prepare : Hcmd → State → Option State := fun _ _ => none
  cyc : Hcmd → State → DWord := fun _ _ => 0

/-- One ring. -/
def State.ring (s : State) (n : Nat) : Ring := s.hif.rings.look n {}

/-- `s` with ring `n` changed by `f`. -/
def State.updRing (n : Nat) (f : Ring → Ring) (s : State) : State :=
  { s with hif := { s.hif with rings := s.hif.rings.upd n {} f } }

/-- The completion ring of ring `n` is full (R106). -/
def Ring.full (r : Ring) : Bool := decide (ringDist r.cqK r.cqTail r.headDb = 1)

/-! The journal (R112, R114). -/

/-- The bytes that a journal record takes (log entry 17: entry and payload). -/
def JRec.size (r : JRec) : Nat := 64 + r.payload.length

/-- Bytes of the journal in use. -/
def State.journalFill (s : State) : Nat := (s.hif.journal.map JRec.size).sum

/-- HIF_JRNL.FILL in KiB. -/
def State.journalKib (s : State) : Nat := (s.journalFill + 1023) / 1024

/-- Less than 64 KiB of the journal are free (R114). -/
def State.journalTight (s : State) : Bool := decide (4096 - s.journalKib < 64)

/-- The targets of a record are held until a later record of the same ring sets them: VAR_WRITE, FORCE_SET, FORCE_CLEAR
and LOOP_WRITE (R114). -/
def keepsTargets (op : BitVec 8) : Bool := op = 0x42 || op = 0x43 || op = 0x44 || op = 0x46

/-- What a record sets, one entry per element of its payload (Tables 5.6, 7.11): a variable with its offset and length, or a
loop with its field and index; the values of VAR_WRITE and FORCE_SET are passed over. -/
def targetsOf (op : BitVec 8) : Nat → List Byte → List (List Byte)
  | 0, _ => []
  | fuel + 1, b =>
    if b.isEmpty then []
    else if op = 0x46 then b.take 4 :: targetsOf op fuel (b.drop 8)
    else b.take 8 :: targetsOf op fuel (b.drop (if op = 0x44 then 8 else 8 + (fieldN b 6 2 + 7) / 8 * 8))

/-- The targets of a record. -/
def JRec.targets (r : JRec) : List (List Byte) := targetsOf r.opcode (r.payload.length / 8) r.payload

/-- Target `a` of a record is set by target `b` of a later one of the same kind: the same loop field, the same force, or bytes
of the same variable among those of `b`; the clear-all element sets every force of its class. -/
def covers (op : BitVec 8) (b a : List Byte) : Bool :=
  if op = 0x42 then decide (a.take 4 = b.take 4) && decide (fieldN b 4 2 ≤ fieldN a 4 2) &&
    decide (fieldN a 4 2 + fieldN a 6 2 ≤ fieldN b 4 2 + fieldN b 6 2)
  else decide (a = b) || (op = 0x44 && decide (fieldN b 0 4 = 0xFFFFFFFF))

/-- Two opcodes set targets of one kind: FORCE_SET and FORCE_CLEAR both set forces. -/
def sameKind (a b : BitVec 8) : Bool := a = b || ((a = 0x43 || a = 0x44) && (b = 0x43 || b = 0x44))

/-- Record `new` sets the targets of record `old` (R114; log entry 35). -/
def JRec.supersedes (new old : JRec) : Bool :=
  new.slot = old.slot && sameKind new.opcode old.opcode && new.target = old.target && !new.noEffect && !old.noEffect && !old.orphan &&
    old.targets.all fun a => new.targets.any fun b => covers new.opcode b a

/-- A record written to the journal with its seal; it retires the older records whose targets it sets. -/
def State.journal (r : JRec) (s : State) : State :=
  let keep := if keepsTargets r.opcode then s.hif.journal.filter (fun o => !(r.supersedes o)) else s.hif.journal
  { s with hif := { s.hif with journal := keep ++ [r], jseq := s.hif.jseq + 1 } }

/-- The record of a completed command retires, unless its targets are held (R114). -/
def State.retire (slot : Nat) (id : DWord) (s : State) : State :=
  { s with hif := { s.hif with journal := (s.hif.journal.map fun r =>
      if r.slot = slot && r.reqId = id then { r with done := true } else r).filter fun r =>
        !(r.slot = slot && r.reqId = id && !r.orphan && (!keepsTargets r.opcode || r.noEffect)) } }

/-! The window (R115). -/

/-- The window of ring `n`. -/
def State.win (s : State) (n : Nat) : Win := s.hif.wins.look n {}

/-- The identifier `id` entered in a window: the last 65,536 are kept, H is the highest. -/
def Win.enter (w : Win) (id : DWord) : Win :=
  let l := w.ids ++ [id]
  { high := if w.high < id then id else w.high, ids := l.drop (l.length - 65536) }

/-- `s` with `id` in the window of ring `n`. -/
def State.enterWin (n : Nat) (id : DWord) (s : State) : State :=
  { s with hif := { s.hif with wins := s.hif.wins.upd n {} fun w => w.enter id } }

/-- The window without `id`; where `id` was H, the highest identifier that is left takes its place, so that a resubmission is
new (R114, R125; log entry 36). -/
def Win.leave (w : Win) (id : DWord) : Win :=
  let l := w.ids.filter fun i => i != id
  { high := if w.high = id then l.foldl (fun (m : DWord) i => if m < i then i else m) 0 else w.high, ids := l }

/-- `s` with `id` removed from the window of ring `n`. -/
def State.leaveWin (n : Nat) (id : DWord) (s : State) : State :=
  { s with hif := { s.hif with wins := s.hif.wins.upd n {} fun w => w.leave id } }

/-! Completions. -/

/-- A completion counted towards the ring's interrupt (R109, Table 4.8); NOINT raises none on its own. -/
def State.countInt (n : Nat) (noint : Bool) (s : State) : State :=
  let r := s.ring n
  if r.coalN ≤ 1 then (if noint then s else s.msix r.vector)
  else if r.coalN ≤ r.uncounted + 1 then
    (s.updRing n fun x => { x with uncounted := 0 }).msix r.vector
  else s.updRing n fun x => { x with uncounted := x.uncounted + 1 }

/-- Ring `n` halts with RING_ERR for `cause` of HIF_ERRINFO (R100): no further fetch, an error record and a RING_HALT
event. -/
def State.haltRing (n cause idx : Nat) (s : State) : State :=
  let i := if cause = 3 then 0 else idx
  let t := if n = 17 then { s with hif := { s.hif with ev := { s.hif.ev with halted := true } } }
    else s.updRing n fun r => { r with halted := true }
  let t := { t with hif := { t.hif with errInfo := wordOf [(0, n), (8, cause), (16, i)] } }
  (t.log 0x0101 4 ([BitVec.ofNat 8 n, BitVec.ofNat 8 cause] ++ le 2 i)).event 5 4 (BitVec.ofNat 32 n)
    [BitVec.ofNat 8 cause]

/-- A failed access to host memory is counted (R119). -/
def State.dmaErr (s : State) : State := { s with hif := { s.hif with dmaErr := s.hif.dmaErr + 1 } }

/-- A completion entry written to its ring: the fetch head, the phase and the time are those of the write; the interrupt follows, and the
record of the command retires (R104, R114, R120). -/
def State.postCqe (noint : Bool) (c : Cqe) (s : State) : State :=
  let r := s.ring c.slot
  let tl := (r.cqTail + 1) % 2 ^ r.cqK
  ((((s.updRing c.slot fun x => { x with cqTail := tl, phase := if tl = 0 then !x.phase else x.phase }).put
    (.cqe c.slot { c with sqHead := r.sqHead, phase := r.phase, accTime := s.accTime })).countInt c.slot noint).retire c.slot c.reqId)

/-- The completions that waited for ring `n` to be created again (R100). -/
def State.releaseHeld (n : Nat) (s : State) : State :=
  (s.hif.heldCq.filter fun e => e.2.slot == n).foldl (fun (t : State) e => t.postCqe e.1 e.2)
    { s with hif := { s.hif with heldCq := s.hif.heldCq.filter fun e => e.2.slot != n } }

/-- The completion entry of a command (R104, Table 4.5), then its interrupt (R120). A failed completion write halts the
ring and leaves the command recorded (R119); the completion of a command on a halted completion ring waits until its pair is created
again (R100). -/
def State.writeCqe (h : Hcmd) (status : BitVec 16) (dup mirrored : Bool) (jseq : DWord) (rdone : Nat) (r0 : Word)
    (r1 : DWord) (s : State) : State :=
  let t := s.updRing h.slot fun r => { r with infl := none }
  if !h.cqeOk then ((t.dmaErr).haltRing h.slot 3 0).updRing h.slot fun r => { r with cqHalt := true }
  else
    let c : Cqe := { reqId := h.reqId, sqHead := 0, slot := h.slot, opcode := h.opcode, status := status,
                     phase := true, dup := dup, mirrored := mirrored, journaled := decide (jseq ≠ 0), rdone := rdone,
                     result0 := r0, result1 := r1, accTime := 0, node := t.sys.nodeId, jseq := jseq }
    if (t.ring h.slot).cqHalt then { t with hif := { t.hif with heldCq := t.hif.heldCq ++ [(h.noint, c)] } }
    else t.postCqe h.noint c

/-- Ring `n` goes; its window and H stay (R110). -/
def State.removeRing (n : Nat) (s : State) : State := { s with hif := { s.hif with rings := s.hif.rings.del n } }

/-- The end of a RING_DELETE of ring `n` whose last command has completed: the pair goes, then the RING_DELETE on the admin ring
completes (R110). -/
def State.endDelete (n : Nat) (s : State) : State :=
  let t := s.removeRing n
  match (t.ring 0).infl with
  | some i => if i.cmd.opcode = 0x03 then t.writeCqe i.cmd 0 false false 0 0 0 0 else t
  | none => t

/-- A completion (R104, R110): the last one of a ring that is being deleted ends its deletion. -/
def State.complete (h : Hcmd) (status : BitVec 16) (dup mirrored : Bool) (jseq : DWord) (rdone : Nat) (r0 : Word)
    (r1 : DWord) (s : State) : State :=
  let t := s.writeCqe h status dup mirrored jseq rdone r0 r1
  if (s.ring h.slot).deleting && decide (h.slot ≠ 0) then t.endDelete h.slot else t

/-- A completion without results. -/
def State.finish (h : Hcmd) (status : BitVec 16) (s : State) : State := s.complete h status false false 0 0 0 0

/-- Return data written before the completion (R120); a failed write completes with DMA_ERR, its effect stands (R119). -/
def State.giveBack (h : Hcmd) (bs : List Byte) (s : State) : Bool × State :=
  if bs.isEmpty then (true, s)
  else if h.retOk then (true, s.put (.ret h.slot h.rptr bs))
  else (false, s.dmaErr)

/-- The completion of a command whose effect has taken place: results, return data, and the durability marks. -/
def State.settle (h : Hcmd) (status : BitVec 16) (mirrored : Bool) (jseq : DWord) (ret : List Byte) (r0 : Word)
    (r1 : DWord) (s : State) : State :=
  let (good, t) := s.giveBack h ret
  t.complete h (if good then status else St.dmaErr) false mirrored jseq (if good then ret.length else 0) r0 r1

/-! Taking a command. -/

/-- A command of ring `n` can be taken (R97, R106, R112, R117, R118): the ring exists, is not halted, has an entry, runs
no other command, its completion ring has room, PFAIL is 0, and its durability class is not held. -/
def State.canTake (s : State) (n : Nat) (dur : Dur) : Bool :=
  let r := s.ring n
  s.hif.ready && s.alive && r.live && !r.halted && !r.deleting && decide (r.sqHead ≠ r.tail) && r.infl.isNone && !r.full &&
    !s.pwr.pfail && (decide (n = 0) || decide (s.sys.mode ≠ .idleLink)) &&
    (decide (dur = .n) || (!s.hif.hold && (!s.sys.primary || !s.journalTight)))

/-- The fetch of the next entry of ring `n`. -/
def State.fetch (n : Nat) (s : State) : State :=
  s.updRing n fun r => { r with sqHead := (r.sqHead + 1) % 2 ^ r.sqK }

/-- The scatter list of an entry (R102): the elements up to the first one marked last, within 256; none where there is none. -/
def sgElems : Nat → List (BitVec 64 × Word × Word) → List (BitVec 64 × Word × Word)
  | 0, _ => []
  | _, [] => []
  | n + 1, e :: es => if e.2.2.getLsbD 0 then [e] else match sgElems n es with
    | [] => []
    | l => e :: l

/-- The payload of an entry can be read as it says (R102): a scatter list ends within 256 elements, none of them has length 0, and the
lengths add up to DLEN. -/
def sgOk (h : Hcmd) : Bool :=
  let l := sgElems 256 h.sgList
  !h.sgl || (!l.isEmpty && (l.all fun e => decide (e.2.1 ≠ 0)) && decide ((l.map fun e => e.2.1.toNat).sum = h.dlen.toNat))

/-- The fields that are reserved in every entry, the identifier and the lengths (R101, R102, R103): `dmin`, `dmax` bound
DLEN, `rmin` RLEN; a ring carries the opcodes of its kind (R107). Of several checks that fail, the status is that of the first in this
order (log entry 118). -/
def commonCheck (admin : Bool) (dmin dmax rmin : Nat) (h : Hcmd) : Option (BitVec 16) :=
  if decide (h.slot = 0) ≠ admin then some St.invalidOpcode
  else if h.rsvd then some St.invalidField
  else if h.dlen.toNat < dmin ∨ dmax < h.dlen.toNat then some St.lenErr
  else if h.rlen.toNat < rmin ∨ (rmin = 0 ∧ h.rlen ≠ 0) then some St.lenErr
  else if h.reqId = 0 then some St.idErr
  else if dmax ≠ 0 ∧ sgOk h = false then some St.lenErr
  else if dmax ≠ 0 ∧ h.fetchOk = false then some St.dmaErr
  else none

/-- A further check of step 1 after another. -/
def orElse (a : Option (BitVec 16)) (c : Bool) (st : BitVec 16) : Option (BitVec 16) :=
  match a with
  | some x => some x
  | none => if c then none else some st

/-- The journal record of a command (R112); that of a program change holds NEW_VER and the cycle number of the exchange instant
(spec/08_online_change.md R219). -/
def jrecOf (dur : Dur) (h : Hcmd) (status : BitVec 16) (noEffect : Bool) (jseq applyCyc : DWord) : JRec :=
  { newVer := if h.opcode = 0x48 && !noEffect then BitVec.ofNat 32 (fieldN h.payload 4 4) else 0
    applyCyc := if h.opcode = 0x48 && !noEffect then applyCyc else 0
    slot := h.slot, opcode := h.opcode, reqId := h.reqId, jseq := jseq, status := status, target := h.target,
    param0 := h.param0, payload := if noEffect || decide (dur = .s) then [] else h.payload, noEffect := noEffect,
    pending := decide (dur = .s) && !noEffect }

/-- The 64 bytes of a submission entry (Table 4.4). -/
def entryBytes (h : Hcmd) : List Byte :=
  [h.opcode, BitVec.ofNat 8 (bit h.noint + 2 * bit h.sgl)] ++ le 2 h.target.toNat ++ le 4 h.dlen.toNat ++
    le 8 h.reqId.toNat ++ le 8 h.dptr.toNat ++ le 8 h.rptr.toNat ++ le 4 h.rlen.toNat ++ le 4 h.param0.toNat ++
    le 8 h.param1.toNat ++ le 8 h.param2.toNat ++ le 8 0

/-- The command that the 64 bytes of an entry and its payload spell. -/
def entryOf (slot : Nat) (b p : List Byte) : Hcmd :=
  { slot := slot, opcode := BitVec.ofNat 8 (fieldN b 0 1), noint := (fieldN b 1 1) % 2 = 1, sgl := (fieldN b 1 1) / 2 % 2 = 1,
    target := BitVec.ofNat 16 (fieldN b 2 2), dlen := BitVec.ofNat 32 (fieldN b 4 4), reqId := BitVec.ofNat 64 (fieldN b 8 8),
    dptr := BitVec.ofNat 64 (fieldN b 16 8), rptr := BitVec.ofNat 64 (fieldN b 24 8), rlen := BitVec.ofNat 32 (fieldN b 32 4),
    param0 := BitVec.ofNat 32 (fieldN b 36 4), param1 := BitVec.ofNat 64 (fieldN b 40 8),
    param2 := BitVec.ofNat 64 (fieldN b 48 8), payload := p }

/-- The HOSTWORK payload of a command (spec/09_duplex_pair.md Table 9.16). -/
def hostworkBytes (dur : Dur) (h : Hcmd) (status : BitVec 16) (noEffect : Bool) (high applyCyc : DWord) : List Byte :=
  [BitVec.ofNat 8 h.slot, h.opcode] ++ le 2 status.toNat ++
    [BitVec.ofNat 8 (bit (decide (dur = .s) && !noEffect) + 2 * bit noEffect), 0, 0, 0] ++ le 8 h.reqId.toNat ++
    le 8 high.toNat ++ le 8 applyCyc.toNat ++ entryBytes h ++ (if noEffect || decide (dur = .s) then [] else h.payload)

/-- What follows the record of a command (steps 4 to 6 of R112): the window entry, the effect unless it was refused, and
the completion unless it waits. -/
def State.afterRecord (op : HostOp) (h : Hcmd) (status : BitVec 16) (reason : Word) (mirrored : Bool) (jseq : DWord)
    (s : State) : State :=
  let t := s.enterWin h.slot h.reqId
  if status ≠ St.ok then t.complete h status false mirrored jseq 0 reason 0
  else
    let r := op.effect h t
    let w : Infl := { cmd := h, recorded := true, mirrored := mirrored, jseq := jseq, h := (t.win h.slot).high }
    if r.wait then r.s.updRing h.slot fun x => { x with infl := some w }
    else r.s.settle h r.status mirrored jseq r.ret r.r0 r.r1

/-- The record of a command goes to the press journal (R112, R113); `applyCyc` is the cycle at which the effect applies. -/
def State.recordJournal (op : HostOp) (h : Hcmd) (status : BitVec 16) (reason : Word) (applyCyc : DWord) (s : State) : State :=
  let q := s.hif.jseq + 1
  let t := s.updRing h.slot fun x => { x with infl := some { cmd := h, status := status, reason := reason, aux := applyCyc.toNat } }
  (t.journal (jrecOf op.dur h status (decide (status ≠ St.ok)) q applyCyc)).afterRecord op h status reason false q

/-- A host-work record (spec/09_duplex_pair.md Table 9.16): a payload beyond the 65,536 bytes of a record is split, each part with
the same 96 bytes before its bytes (log entry 116). -/
def State.sendHostwork (sync : Bool) (b : List Byte) (s : State) : State :=
  let n := max 1 ((b.length - 96 + 65439) / 65440)
  (List.range n).foldl (fun (t : State) i =>
    t.sendPart 3 sync false (decide (i + 1 = n)) (b.take 96 ++ ((b.drop (96 + 65440 * i)).take 65440))) s

/-- The record of a command goes to an in-sync partner, and the command waits for its acknowledgement (R112); without
such a partner it is journaled. -/
def State.record (op : HostOp) (h : Hcmd) (status : BitVec 16) (reason : Word) (applyCyc : DWord) (s : State) : State :=
  if s.insync then
    let hi := ((s.win h.slot).enter h.reqId).high
    let t := s.sendHostwork false (hostworkBytes op.dur h status (decide (status ≠ St.ok)) hi applyCyc)
    let w : Infl := {
      cmd := h, status := status, reason := reason, ackRseq := some t.dpx2.rseqTx, mirrored := true, h := hi
      aux := applyCyc.toNat }
    (t.updRing h.slot fun x => { x with infl := some w }).backlogOver
  else s.recordJournal op h status reason applyCyc

/-- A class N command, or any command on a standby (R116): no record; its window entry, on a primary, travels later. One that waits is
not recorded (R100, R118). -/
def State.runUnrecorded (op : HostOp) (h : Hcmd) (s : State) : State :=
  match op.check h s with
  | .no st reason => s.complete h st false false 0 0 reason 0
  | .go =>
    let r := op.effect h s
    if r.wait then r.s.updRing h.slot fun x => { x with infl := some { cmd := h } }
    else r.s.settle h r.status false 0 r.ret r.r0 r.r1

/-- A command on a module in the primary role, once its checks of step 1 have passed: the window (R115), the checks on
state, then the record (R112). -/
def State.runPrimary (op : HostOp) (h : Hcmd) (s : State) : State :=
  let w := s.win h.slot
  if !(w.high < h.reqId) then
    if w.ids.contains h.reqId then
      ({ s with hif := { s.hif with dupCnt := s.hif.dupCnt + 1 } }).complete h St.ok true false 0 0 0 0
    else ({ s with hif := { s.hif with staleCnt := s.hif.staleCnt + 1 } }).finish h St.staleId
  else if op.dur = .n then
    let t := s.enterWin h.slot h.reqId
    ({ t with hif := { t.hif with nWin := t.hif.nWin ++ [h] } }).runUnrecorded op h
  else match op.check h s with
    | .no st reason => s.record op h st reason 0
    | .go => match op.prepare h s with
      | some t => t.updRing h.slot fun x => { x with infl := some { cmd := h } }
      | none => s.record op h St.ok 0 (op.cyc h s)

/-- The prepared command of ring `n` is recorded. -/
def State.recordPrepared (op : HostOp) (n : Nat) (s : State) : State :=
  match (s.ring n).infl with
  | some i => s.record op i.cmd St.ok 0 0
  | none => s

/-- The prepared command of ring `n` is refused for `reason`, with its record and its window entry (R112). -/
def State.refuseRecorded (op : HostOp) (n : Nat) (reason : Word) (s : State) : State :=
  match (s.ring n).infl with
  | some i => s.record op i.cmd St.refused reason 0
  | none => s

/-- The prepared command of ring `n` is refused without a record (spec/08_online_change.md R219). -/
def State.refusePrepared (n : Nat) (reason : Word) (s : State) : State :=
  match (s.ring n).infl with
  | some i => s.complete i.cmd St.refused false false 0 0 reason 0
  | none => s

/-- A command of `op` with entry `h` (R112, R116): not taken where its ring does not offer it (log entry 9). -/
def State.runCmd (op : HostOp) (h : Hcmd) (s : State) : State :=
  if !s.canTake h.slot op.dur then s
  else
    let t := s.fetch h.slot
    match op.static h with
    | some st => (if st = St.dmaErr then t.dmaErr else t).finish h st
    | none =>
      if t.sys.primary then t.runPrimary op h
      else if op.roleP then t.finish h St.roleRefused
      else t.runUnrecorded op h

/-- The waiting command of ring `n` completes with `status` and its results. -/
def State.finishWaiting (n : Nat) (status : BitVec 16) (ret : List Byte) (r0 : Word) (r1 : DWord) (s : State) : State :=
  match (s.ring n).infl with
  | some i => s.settle i.cmd status (i.recorded && i.mirrored) i.jseq ret r0 r1
  | none => s

/-- The transition in progress ends in mode `m`, and the command that asked for it completes (R51). -/
def State.finishTrans (s : State) : State :=
  match s.sys.trans with
  | some t => (s.setMode t.dst t.cause).finishWaiting t.slot St.ok [] 0 0
  | none => s

/-- The abandoned mode commands complete with MODE_PREEMPTED (spec/02_modes_and_startup.md R52). -/
def State.completePreempted (s : State) : State :=
  (s.sys.preempted.foldl (fun (t : State) n => t.finishWaiting n St.modePreempted [] 0 0)
    { s with sys := { s.sys with preempted := [] } })

/-- The recording of a command has begun: it is recorded, or its record has gone to the partner (R118: such a record is finished). -/
def Infl.begun (i : Infl) : Bool := i.recorded || i.ackRseq.isSome

/-- Nothing that is under way completes into ring `n` any more. -/
def State.detach (n : Nat) (s : State) : State :=
  let f (k : Nat) : Nat := if k = n then 31 else k
  { s with sys := { s.sys with trans := s.sys.trans.map fun t => { t with slot := f t.slot }
                               preempted := s.sys.preempted.filter fun k => k != n }
           chg := { s.chg with slot := f s.chg.slot }
           boot := { s.boot with act := { s.boot.act with slot := f s.boot.act.slot } }
           dpx2 := { s.dpx2 with xslot := f s.dpx2.xslot } }

/-- What a fetched command of ring `n` has prepared before its record is forgotten with it: a program change being stored, or a switch
whose standby is being prepared. -/
def State.forget (n : Nat) (s : State) : State :=
  let t := if s.chg.slot = n ∧ (s.chg.state = 1 ∨ s.chg.state = 2) then { s with chg := { s.chg with state := 0, moves := 0, xcyc := 0 } } else s
  let t := if t.boot.act.awaitReady ∧ t.boot.act.slot = n then
      { t with boot := { t.boot with act := { t.boot.act with awaitReady := false } } } else t
  t.detach n

/-- A fetched, unrecorded command of ring `n` completes with ABORTED (R100, R110). -/
def State.abortInfl (n : Nat) (s : State) : State :=
  match (s.ring n).infl with
  | some i => if i.begun then s else (s.forget n).finish i.cmd St.aborted
  | none => s

/-- The fetched command of ring `n`, if it is not recorded, is dropped without completion, and is fetched again (R118). -/
def State.dropInfl (n : Nat) (s : State) : State :=
  match (s.ring n).infl with
  | some i => if i.begun then s
      else (s.forget n).updRing n fun r => { r with infl := none, sqHead := (r.sqHead + 2 ^ r.sqK - 1) % 2 ^ r.sqK }
  | none => s

/-- The fetched commands of every ring that are not recorded are dropped (R118). -/
def State.dropUnrecorded (s : State) : State := (s.hif.rings.keys).foldl (fun (t : State) n => t.dropInfl n) s

/-- The command of a ring whose record has gone to the partner and awaits its acknowledgement. -/
def Ring.unacked (r : Ring) : Option Infl := r.infl.filter fun i => i.ackRseq.isSome

/-- Every ring is deleted (R95): unrecorded commands are dropped, recorded ones complete into nothing, as do those whose record still
awaits its acknowledgement. -/
def State.deleteRings (s : State) : State :=
  let t := s.dropUnrecorded
  let u := (t.hif.rings.keys).foldl (fun (v : State) n => v.detach n) t
  { u with hif := { u.hif with rings := [], ev := {}, adminLive := false, heldCq := []
                               lost := u.hif.lost ++ u.hif.rings.filterMap fun e => e.2.unacked } }

/-- A read that waits on ring `n` for what the mode and the role no longer bring completes at once (spec/05_cyclic_execution.md R145,
spec/07_loop_engines.md R211; log entry 106). -/
def State.serveRead (n : Nat) (s : State) : State :=
  match (s.ring n).infl with
  | some i =>
    if i.cmd.opcode = 0x41 ∧ s.readWaits (classOf i.cmd) = false then
      s.finishWaiting n St.ok (s.varNow i.cmd) (BitVec.ofNat 32 (elemsOf false i.cmd).length) (s.readCyc (classOf i.cmd))
    else if i.cmd.opcode = 0x45 ∧ s.loopReadWaits = false then
      s.finishWaiting n St.ok (loopReturn (s.loopRest i)) (BitVec.ofNat 32 (loopElems i.cmd).length) 0
    else s
  | none => s

/-- The waiting reads follow a change of mode from `m`. -/
def State.readsFollow (m : Mode) (s : State) : State :=
  if s.sys.mode = m then s else (s.hif.rings.keys).foldl (fun (t : State) n => t.serveRead n) s

/-- What follows a command that leads from `s` to `t`: the CAN channels, the local outputs and the waiting reads follow the mode and
the role, and the changes of SYS_FAULT, role and INSYNC are reported. -/
def settleState (s t : State) : State :=
  let u := (t.canSync).fioFollow s.sys.mode
  report s (if u.alive then (u.completePreempted).readsFollow s.sys.mode else u)

/-- A command that leads from `s` to `t` answers `t` with what follows it. -/
def done (s t : State) : Host.Outcome State Fault Refusal := .next (settleState s t)

end Sys2Proof.Machine
end

