-- ==== Sys2Proof/Machine/Power.lean ====
section
/-! DEFINITION. The supply, the rails, the temperatures, the watchdogs, retention and the slot-presence contact
(spec/18_power_electrical_mechanical.md, spec/02_modes_and_startup.md R35, R36, R58). -/

namespace Sys2Proof.Machine

/-- `s` with the PWR block changed by `f`. -/
def State.updPwr (f : Pwr → Pwr) (s : State) : State := { s with pwr := f s.pwr }

/-- The function as its configuration header shows it (spec/04_host_rings.md R93, R94; spec/00_scope.md R2: the Subsystem ID tells the
variant). -/
def State.pciId (s : State) : PciId :=
  { vendor := Config.vendorId, device := 0x0047, subsystem := if s.sys.marine then 2 else 1, revision := 0x43
    bars := [(0, 0x1000000), (2, 0x100000), (4, 0x2000000)], maxPayload := 512, vectors := 64 }

/-- PCIE_CONFIG_REQUEST (spec/02_modes_and_startup.md R58): retry status until boot step 2 is complete, then an answer.
An unpowered module answers nothing (log entry 9). -/
def execPcieConfigRequest (s : State) : Host.Outcome State Fault Refusal :=
  if !s.powered then .next s
  else if s.hif.crs then .next (s.put .cfgRetry)
  else .next (s.put (.cfgAnswer s.pciId))

/-- TAMPER_LATCH_SET (R35): the slot-presence contact (bit 0) or the cover switch (bit 1) opens while the module is
unpowered. -/
def execTamperLatchSet (cover : Bool) (s : State) : Host.Outcome State Fault Refusal :=
  if s.powered then .next s
  else .next { s with ret := { s.ret with tamper := s.ret.tamper ||| (if cover then 2 else 1),
                                          present := cover && s.ret.present } }

/-- VRET_LOST (R36): the counter restarts at 0 and the tamper latch reads set, with VRET lost as its cause (bit 2). -/
def execVretLost (s : State) : Host.Outcome State Fault Refusal :=
  if s.powered then .next s
  else .next { s with ret := { s.ret with tamper := s.ret.tamper ||| 4, secs := 0 } }

/-- The block that an area is writing is marked for re-erase (spec/17_firmware_and_configuration.md R451; log entry 18:
blocks of 64 KiB). -/
def Boot.markErase (b : Boot) : Boot :=
  let blk (g : Stg) : Nat := g.len / 65536
  let b := if b.stgFw.writing then
      let second := decide (b.stgFw.dest = 1)
      b.setBank second { b.bankOf second with erase := [blk b.stgFw] } else b
  if b.stgCfg.writing then
    { b with cfgs := b.cfgs.upd b.stgCfg.dest {} fun k => { k with erase := [blk b.stgCfg] } } else b

/-- PFAIL sets (R467, Table 18.1): writes as Table 18.3 and spec/15_tally_recorder.md R411 (log entry 27), no fetch (spec/04_host_rings.md R118), a record and an event. -/
def State.pfailOn (s : State) : State :=
  let t := s.updPwr fun p => { p with pfail := true, pfCnt := p.pfCnt + 1, pfFrom := s.sys.opNs, busLow := p.busMv }
  let t := ({ t with boot := t.boot.markErase, tly := { t.tly with writing := t.tly.queue.head? } }).dropUnrecorded
  (t.log 0x0E05 3 ([1, 0, 0, 0] ++ le 4 0 ++ le 2 (t.pwr.busLow.toNat / 100))).event 7 3 1 []

/-- PFAIL_SET. -/
def execPfailSet (s : State) : Host.Outcome State Fault Refusal :=
  if s.running && !s.pwr.pfail then done s s.pfailOn else .next s

/-- PFAIL clears before shutdown has begun (R467, spec/02_modes_and_startup.md R52): its duration and the lowest bus
voltage are kept, held writes take place, fetching resumes. -/
def State.pfailOff (low : BitVec 16) (s : State) : State :=
  let us := sat 32 ((s.sys.opNs - s.pwr.pfFrom) / 1000)
  let t := s.updPwr fun p => { p with pfail := false, pfClr := p.pfClr + 1, pfLast := BitVec.ofNat 32 us, busLow := low,
                                      recharge := decide (p.busMv < 48000 ∨ low < 48000) }
  let t := { t with mm := { t.mm with markUnsaved := false }, tly := { t.tly with writing := none } }
  (t.log 0x0E05 3 ([0, 0, 0, 0] ++ le 4 us ++ le 2 (low.toNat / 100))).event 7 3 0 []

/-- PFAIL_CLEAR, `low` the lowest bus voltage of this PFAIL in mV. -/
def execPfailClear (low : BitVec 16) (s : State) : Host.Outcome State Fault Refusal :=
  if s.running && s.pwr.pfail then done s (s.pfailOff low) else .next s

/-- What stops the module: the commanded transition that it overtakes completes with MODE_PREEMPTED
(spec/02_modes_and_startup.md R52). -/
def State.stopNow (s : State) : State := s.stopModule.completePreempted

/-- Shutdown (R468): a module with INSYNC 1 sends a failure notice, stops, and reaches RETAIN. -/
def State.shutdown (s : State) : State :=
  (if s.insync then s.notice 1 0 s.lastCommit 0 else s).stopNow.intoRetain

/-- INPUT_LOST (R467): shutdown begins, and always completes (R468, R469; log entry 16). -/
def execInputLost (s : State) : Host.Outcome State Fault Refusal :=
  if s.powered then done s s.shutdown else .next s

/-- HOLD_UP_SPENT (R467): shutdown begins. -/
def execHoldUpSpent (s : State) : Host.Outcome State Fault Refusal :=
  if s.powered then done s s.shutdown else .next s

/-- A feed leaves or re-enters 18.0 V to 32.0 V (R465). -/
def State.feedChange (feedB inRange : Bool) (mv : BitVec 16) (s : State) : State :=
  let t := s.updPwr fun p => if feedB then { p with feedB := inRange, feedBmv := mv } else { p with feedA := inRange, feedAmv := mv }
  if inRange then t else t.log 0x0E01 3 ([BitVec.ofNat 8 (bit feedB), 0, 0, 0] ++ le 4 mv.toNat)

/-- FEED_RANGE_CHANGE. -/
def execFeedRangeChange (feedB inRange : Bool) (mv : BitVec 16) (s : State) : Host.Outcome State Fault Refusal :=
  if s.powered && decide ((if feedB then s.pwr.feedB else s.pwr.feedA) ≠ inRange) then done s (s.feedChange feedB inRange mv)
  else .next s

/-- Every low-side safety switch opens (R474, spec/14_safety.md R383). -/
def State.lowSidesOpen (s : State) : State :=
  { s with saf := { s.saf with so := s.saf.so.mapV fun o => { o with ls := false, selPermit := false } } }

/-- A rail is outside its window (R474, Table 18.4): recorded, and an unrecoverable fault with halt cause 0x07. The
supervisor of VSEL (code 2) opens every low-side safety switch. -/
def State.railFault (c : Fin 7) (mv : Word) (s : State) : State :=
  let t := s.updPwr fun p => { p with rails := p.rails ||| (1#7 <<< c.val), railValid := true,
                                      railFirst := if p.railValid then p.railFirst else BitVec.ofNat 3 c.val }
  let t := t.log 0x0E02 5 ([BitVec.ofNat 8 c.val, 0, 0, 0] ++ le 4 mv.toNat)
  (if c.val = 2 then t.lowSidesOpen else t).unrecoverable 7

/-- RAIL_FAULT. -/
def execRailFault (rail : Fin 7) (mv : Word) (s : State) : Host.Outcome State Fault Refusal :=
  if s.running then done s (s.railFault rail mv) else .next s

/-- PWR_TWARN in use: a value outside 800 to 1,450 acts as 1,350 (R485). -/
def State.twarn (s : State) : Nat :=
  let v := bits (s.voted Reg.pwrTwarn) 0 16
  if 800 ≤ v ∧ v ≤ 1450 then v else 1350

/-- The greater of two signed 16-bit readings. -/
def smax (a b : BitVec 16) : BitVec 16 := if a.toInt < b.toInt then b else a

/-- A temperature sample (R475): the readings and the highest since boot, TEMP_WARN, the run at 150.0 °C, and one warning record per 60 s. -/
def State.tempSample (junction inlet : BitVec 16) (s : State) : State :=
  let warn := decide ((s.twarn : Int) ≤ junction.toInt)
  let rec_ := warn && (match s.pwr.twarnT with
    | none => true
    | some t0 => decide (t0 + 60000000000 ≤ s.sys.opNs))
  let t := s.updPwr fun p => { p with
    temp := junction, tempMax := if p.tempSeen then smax p.tempMax junction else junction, tboard := inlet,
    tboardMax := if p.tempSeen then smax p.tboardMax inlet else inlet, tempSeen := true,
    tempWarn := warn, boardWarn := decide (700 < inlet.toInt),
    hotRun := if 1500 ≤ junction.toInt then p.hotRun + 1 else 0,
    twarnT := if rec_ then some s.sys.opNs else p.twarnT }
  if rec_ then t.log 0x0E03 3 ([0, 0, 0, 0] ++ le 2 junction.toNat) else t

/-- TEMPERATURE_SAMPLE, in 0.1 °C. -/
def execTemperatureSample (junction inlet : BitVec 16) (s : State) : Host.Outcome State Fault Refusal :=
  if s.powered then done s (s.tempSample junction inlet) else .next s

/-- OVERTEMPERATURE (R475): 100 consecutive samples at or above 150.0 °C are an unrecoverable fault, as R474. -/
def execOvertemperature (s : State) : Host.Outcome State Fault Refusal :=
  if s.running && decide (100 ≤ s.pwr.hotRun) then done s (s.unrecoverable 7) else .next s

/-- The watchdog of engine `e` of record 0x1004 has expired (spec/01_architecture.md R11): halt cause 0x03. -/
def State.watchdog (e : Nat) (s : State) : State :=
  (s.log 0x1004 5 [BitVec.ofNat 8 e]).unrecoverable 3

/-- HK_WATCHDOG_EXPIRY (R476). -/
def execHkWatchdogExpiry (s : State) : Host.Outcome State Fault Refusal :=
  if s.running then done s ((s.updPwr fun p => { p with hkWd := true }).watchdog 8) else .next s

/-- What the expiry of an engine's watchdog stops: NE0 (4), SP (6), the FIO sequencer (7), a loop engine (0 to 3). -/
def State.engineDead (e : Nat) (s : State) : State :=
  if e < 4 then { s with cle := { s.cle with eng := s.cle.eng.upd e {} fun x => { x with runs := false } } }
  else if e = 4 then { s with net := { s.net with ne0Bad := true } }
  else if e = 6 then { s with saf := { s.saf with spRun := false } }
  else if e = 7 then { s with fio := { s.fio with run := false } }
  else s

/-- ENGINE_WATCHDOG_EXPIRY (spec/01_architecture.md R11), `engine` as in record 0x1004. -/
def execEngineWatchdogExpiry (engine : Fin 8) (s : State) : Host.Outcome State Fault Refusal :=
  if s.running then done s ((s.engineDead engine.val).watchdog engine.val) else .next s

/-- CLOCK_FAULT (spec/01_architecture.md R14): safety outputs off, the lock-out latched with cause CLOCK, and an
unrecoverable fault with halt cause 0x06. -/
def execClockFault (s : State) : Host.Outcome State Fault Refusal :=
  if s.running then done s ((s.lockout 13 0 0 false false).unrecoverable 6) else .next s

/-- OPTIME_SAVE (R473): not under PFAIL. -/
def execOptimeSave (s : State) : Host.Outcome State Fault Refusal :=
  if s.running && !s.pwr.pfail then .next { s with ret := { s.ret with savedOp := s.opMs % 2 ^ 48 } } else .next s

/-- A VRET measurement (R477): below 2.20 V, VRET_LOW and one warning record per 24 h. -/
def State.vretSample (mv : BitVec 16) (s : State) : State :=
  let low := decide (mv < 2200)
  let rec_ := low && (match s.pwr.vretWarnT with
    | none => true
    | some t0 => decide (t0 + 86400000000000 ≤ s.sys.opNs))
  let t := s.updPwr fun p => { p with vret := mv, vretLow := low, vretWarnT := if rec_ then some s.sys.opNs else p.vretWarnT }
  if rec_ then t.log 0x0E04 3 ([0, 0, 0, 0] ++ le 2 mv.toNat) else t

/-- VRET_MEASUREMENT, in mV. -/
def execVretMeasurement (mv : BitVec 16) (s : State) : Host.Outcome State Fault Refusal :=
  if s.powered then .next (s.vretSample mv) else .next s

/-- The presence contact breaks under power (spec/09_duplex_pair.md R270): an audit record; a primary with an in-sync
partner sends a failure notice and stops, a standby stops, any other primary keeps running. -/
def State.withdrawn (s : State) : State :=
  let t := ({ s with ret := { s.ret with present := false } }).log 0x1005 7
    ([BitVec.ofNat 8 (bit s.sys.primary), BitVec.ofNat 8 (bit s.insync), BitVec.ofNat 8 (bit s.sys.lone), 0] ++
      le 4 s.ret.secs.toNat)
  if s.sys.primary then
    if s.insync then (t.notice 1 0 t.lastCommit 0).stopNow else t
  else t.stopNow

/-- SLOT_PRESENCE_LOST. -/
def execSlotPresenceLost (s : State) : Host.Outcome State Fault Refusal :=
  if s.running && s.ret.present then done s s.withdrawn else .next s

/-- HOLDUP_OK_CHANGE (R466, R467), `mv` the hold-up bus: HOLDUP_OK from 44.0 V, RECHARGE until 48.0 V. -/
def execHoldupOkChange (mv : BitVec 16) (s : State) : Host.Outcome State Fault Refusal :=
  .next (s.updPwr fun p => { p with busMv := mv, holdup := decide (44000 ≤ mv),
                                    busLow := if p.pfail && decide (mv < p.busLow) then mv else p.busLow,
                                    recharge := p.recharge && decide (mv < 48000) })

end Sys2Proof.Machine
end

