-- ==== Sys2Proof/Machine/Access.lean ====
section
/-! DEFINITION. Discarded writes (spec/03_register_conventions.md R64 to R75). -/

namespace Sys2Proof.Machine

/-- The record of an access fault of cause `c` (Table 15.7, code 0x0002): at most one per cause per second (R75), with the
further instances of the last second. -/
def State.faultRec (c off : Nat) (s : State) : State :=
  let now := s.sys.opNs
  let since := s.sys.further.look c []
  if (match s.sys.warned.find c with
      | none => true
      | some t0 => decide (t0 + 1000000000 ≤ now)) then
    let n := since.countP fun t => decide (now < t + 1000000000)
    ({ s with sys := { s.sys with warned := s.sys.warned.put c now, further := s.sys.further.put c [] } }).log 0x0002 3
      ([BitVec.ofNat 8 c, 0, 0, 0] ++ le 4 off ++ le 4 n)
  else { s with sys := { s.sys with further := s.sys.further.put c (since ++ [now]) } }

/-- SYS_ACCADDR after a discarded write at `off`, in BAR2 if `bar2` (R66, Table 3.9). -/
def State.accAddr (off : Nat) (bar2 : Bool) (s : State) : State :=
  { s with sys := { s.sys with accAddr := wordOf [(2, off / 4 % 2 ^ 22), (24, bit bar2)] } }

/-- A write discarded for incomplete byte enables (R64). -/
def State.partialWr (off : Nat) (bar2 : Bool) (s : State) : State :=
  (({ s with sys := { s.sys with partial_ := s.sys.partial_ + 1 } }).accAddr off bar2).faultRec 1 off

/-- A write to an unassigned address (R66). -/
def State.unassignedWr (off : Nat) (bar2 : Bool) (s : State) : State :=
  (({ s with sys := { s.sys with unassigned := s.sys.unassigned + 1 } }).accAddr off bar2).faultRec 2 off

/-- A write to an RO field (R62, R73). -/
def State.roWr (off : Nat) (s : State) : State :=
  (({ s with sys := { s.sys with roWr := s.sys.roWr + 1 } }).accAddr off false).faultRec 3 off

/-- A key word out of sequence, late, or in a mode that refuses it (R92). -/
def State.seqErr (off : Nat) (s : State) : State :=
  (({ s with sys := { s.sys with seqErr := s.sys.seqErr + 1 } }).accAddr off false).faultRec 4 off

/-- A write to a posted block or channel whose BUSY is 1 (R71): discarded and counted in LOSTWR. -/
def State.lostWr (base off : Nat) (s : State) : State :=
  (({ s with posted := s.posted.upd base {} fun p => { p with lostwr := p.lostwr + 1 } }).accAddr off false).faultRec 5 off

/-- A write of `v` to `off` accepted by the posted block or channel at `base` (R70, R71): BUSY reads 1 until POSTED_WRITE_DONE gives it
effect; `mean` is what a trim capture then finds. -/
def State.postTo (base off : Nat) (v : Word) (mean : Option Int) (s : State) : State :=
  if (s.posted.look base {}).busy.isSome then s.lostWr base off
  else { s with posted := s.posted.upd base {} fun p => { p with busy := some { off := off, val := v, mean := mean } } }

/-- The registers can be reached (spec/02_modes_and_startup.md R58): the module is powered and step 2 is complete. -/
def State.reach (s : State) : Bool := s.powered && !s.hif.crs

/-- A write to `o` arrives somewhere: in IDLE-LINK only SYS, HIF, TLY, BOOT and PWR run (spec/02_modes_and_startup.md R49); a write
to the range that no block has is discarded and counted in every mode (R61, R66). -/
def State.regLive (o : Nat) (s : State) : Bool :=
  s.reach && (decide (s.sys.mode ≠ .idleLink) || ([0, 1, 11, 13, 14] : List Nat).contains (o / 0x10000) || decide (15 ≤ o / 0x10000))

/-- A key of two words `k1`, `k2`, the second within 1 ms of the first (R92): the pending time after the write of `v`,
and whether the key is complete; `none` for a word out of sequence or late. -/
def keyStep (k1 k2 v : Word) (now : Nat) (pend : Option Nat) : Option (Option Nat × Bool) :=
  match pend with
  | none => if v = k1 then some (some now, false) else none
  | some t0 => if v = k2 ∧ now ≤ t0 + 1000000 then some (none, true) else none

end Sys2Proof.Machine
end

