-- ==== Sys2Proof/Machine/Hif.lean ====
section
/-! DEFINITION. The host interface apart from the ring commands: resets, doorbells, interrupts
(spec/04_host_rings.md R95 to R100, R119, R120). -/

namespace Sys2Proof.Machine

/-- The PCI island and HIF are reset (R95): every ring goes, unrecorded commands are dropped, recorded ones complete into
nothing; counters, journal and windows stay, and the event sequence continues. The HIF registers take their reset values. -/
def State.pcieReset (s : State) : State :=
  let t := s.deleteRings
  let regs := t.regs.filter fun e => e.1 / 0x10000 != 1
  let live := t.live.filter fun e => e.1 / 0x10000 != 1
  let press := t.press.filter fun e => e.1 / 0x10000 != 1
  { t with regs := regs, live := live, press := press,
           hif := { t.hif with errInfo := 0, msixMask := List.range 64, msixPend := [] } }

/-- PCIE_RESET. -/
def execPcieReset (s : State) : Host.Outcome State Fault Refusal :=
  if s.powered then .next s.pcieReset else .next s

/-- Ring `n` halts on a doorbell (R99, R100). -/
def State.haltDoorbell (n cause idx : Nat) (s : State) : State := (s.abortInfl n).haltRing n cause idx

/-- The cause for which the doorbell value `v` halts a ring of 2^k entries (R99); `far` is how far the index may move
forward from `prev`, `code` the cause for a move beyond that. A value that breaks several conditions shows the first of the causes
4, 1 and `code` (log entry 118). -/
def doorbellCause (k prev far code : Nat) (v : Word) : Option Nat :=
  if bits v 16 16 ≠ 0 then some 4
  else if 2 ^ k ≤ bits v 0 16 then some 1
  else if far < ringDist k prev (bits v 0 16) then some code
  else none

/-- A submission tail on an existing ring. A halted ring keeps the value for a read of the doorbell and makes no check of it (log entry
118). -/
def State.sqDoorbell (n : Nat) (v : Word) (s : State) : State :=
  let r := s.ring n
  let t := s.updRing n fun x => { x with sqDb := v }
  if r.halted then t
  else match doorbellCause r.sqK r.tail (ringDist r.sqK r.tail (r.sqHead + 2 ^ r.sqK - 1)) 2 v with
    | some c => t.haltDoorbell n c (bits v 0 16)
    | none => t.updRing n fun x => { x with tail := bits v 0 16 }

/-- The doorbell page of BAR2 belongs to a ring slot that exists (R98). -/
def State.slotLive (s : State) (n : Nat) : Bool := if n = 17 then s.hif.ev.live else (s.ring n).live

/-- A completion head on an existing pair. -/
def State.cqDoorbell (n : Nat) (v : Word) (s : State) : State :=
  let r := s.ring n
  let t := s.updRing n fun x => { x with cqDb := v }
  if r.halted then t
  else match doorbellCause r.cqK r.headDb (ringDist r.cqK r.headDb r.cqTail) 5 v with
    | some c => (t.haltDoorbell n c (bits v 0 16)).updRing n fun x => { x with cqHalt := true }
    | none => t.updRing n fun x => { x with headDb := bits v 0 16 }

/-- A completion head on the event ring. -/
def State.evDoorbell (v : Word) (s : State) : State :=
  let e := s.hif.ev
  let t := { s with hif := { s.hif with ev := { e with cqDb := v } } }
  if e.halted then t
  else match doorbellCause e.k e.headDb (ringDist e.k e.headDb e.tail) 5 v with
    | some c => t.haltRing 17 c (bits v 0 16)
    | none => { t with hif := { t.hif with ev := { t.hif.ev with headDb := bits v 0 16 } } }

/-- A full-word write to offset `k` of doorbell page `page` (R98): of a slot that exists, 0x000 is the submission tail and 0x004 the
completion head; every other word of BAR2 is unassigned. -/
def State.doorbell (page k : Nat) (v : Word) (s : State) : State :=
  if 17 < page ∨ s.slotLive page = false then s.unassignedWr (page * 0x1000 + k) true
  else if k = 0 ∧ page < 17 then s.sqDoorbell page v
  else if k = 4 then (if page = 17 then s.evDoorbell v else s.cqDoorbell page v)
  else s.unassignedWr (page * 0x1000 + k) true

/-- A write to offset `k` of page `page` of BAR2 (R64). -/
def State.bar2Write (page k : Nat) (v : Word) (be : BitVec 4) (s : State) : Host.Outcome State Fault Refusal :=
  if 256 ≤ page ∨ 0x1000 ≤ k then .fault .outsideBar
  else if k % 4 ≠ 0 then .fault .notWordAligned
  else if !s.reach then .next s
  else if be ≠ 15 then done s (s.partialWr (page * 0x1000 + k) true)
  else done s (s.doorbell page k v)

/-- SUBMISSION_DOORBELL (R98, R99): the doorbell of a page is its offset 0x000; another offset names another word of the page. -/
def execSubmissionDoorbell (word : DbWord) (val : Word) (be : BitVec 4) (s : State) : Host.Outcome State Fault Refusal :=
  s.bar2Write word.page word.off val be

/-- COMPLETION_DOORBELL (R98, R99): BAR2 page `page`, offset 0x004. -/
def execCompletionDoorbell (page : Nat) (val : Word) (be : BitVec 4) (s : State) : Host.Outcome State Fault Refusal :=
  s.bar2Write page 4 val be

/-- MSIX_UNMASK (R120): the vector is unmasked, and its pending message is sent. -/
def execMsixUnmask (vector : Fin 64) (s : State) : Host.Outcome State Fault Refusal :=
  if !s.reach then .next s
  else
    let v := vector.val
    let t := { s with hif := { s.hif with msixMask := s.hif.msixMask.filter fun x => x != v,
                                          msixPend := s.hif.msixPend.filter fun x => x != v } }
    .next (if v ∈ s.hif.msixPend then t.put (.msix v) else t)

/-- INTERRUPT_COALESCE_TIMEOUT (R109): COAL_T has passed since the first uncounted completion of ring `slot`. -/
def execInterruptCoalesceTimeout (slot : Nat) (s : State) : Host.Outcome State Fault Refusal :=
  let r := s.ring slot
  if r.live && decide (0 < r.uncounted) then .next ((s.updRing slot fun x => { x with uncounted := 0 }).msix r.vector)
  else .next s

/-- A host-work record that no ring command waits for; its acknowledgement is awaited all the same (spec/09_duplex_pair.md R242). -/
def State.sendUnasked (b : List Byte) (s : State) : State :=
  let t := s.sendHostwork false b
  { t with dpx2 := { t.dpx2 with hwOut := t.dpx2.hwOut ++ [t.dpx2.rseqTx] } }

/-- The waiting window entries of class N commands are sent, or enter the journal's header block (R112, R114). -/
def State.flushWins (s : State) : State :=
  let t := { s with hif := { s.hif with nWin := [] } }
  if s.insync then
    s.hif.nWin.foldl (fun (u : State) (h : Hcmd) => u.sendUnasked (hostworkBytes .n h St.ok true (u.win h.slot).high 0)) t
  else t

/-- WINDOW_ENTRY_FLUSH (R112). -/
def execWindowEntryFlush (s : State) : Host.Outcome State Fault Refusal :=
  if s.running then .next s.flushWins else .next s

end Sys2Proof.Machine
end

