-- ==== Sys2Proof/Machine/Stations.lean ====
section
/-! DEFINITION. The I/O rings as the module sees them: receiving frames, elimination, stations, parameter blocks
(spec/10_io_network.md). -/

namespace Sys2Proof.Machine

/-- One I/O ring. -/
def State.nring (s : State) (r : Nat) : NRing := s.net.rings.look r {}

/-- `s` with ring `r` changed by `f`. -/
def State.updRingN (r : Nat) (f : NRing → NRing) (s : State) : State :=
  { s with net := { s.net with rings := s.net.rings.upd r {} f } }

/-- Station `i` is configured. -/
def State.stnSet (s : State) (i : Nat) : Bool := (s.cfg.stn.find i).isSome

/-- The link of port `n` is up and not held down (R274). -/
def State.portUp (s : State) (n : Nat) : Bool := let p := s.net.ports.look n {}; p.link && !p.held

/-- Ring `r` is configured. -/
def State.ringSet (s : State) (r : Nat) : Bool := (s.cfg.rings.find r).isSome

/-! Frames that arrive. -/

/-- A frame is addressed to this node or one of its groups (R280). -/
def State.addressed (s : State) (f : Kcp) : Bool :=
  f.dst = s.sys.nodeId || f.dst = s.pairNode || f.type = 5 || (s.cfg.subs.anyV fun c => c.node = f.dst)

/-- The frame types a port may receive (R280, Table 10.4). -/
def typeOnPort (type : BitVec 4) (port : Nat) : Bool :=
  match type.toNat with
  | 9 => decide (port = 6)
  | 8 => decide (port = 4 ∨ port = 5)
  | 1 | 2 | 3 | 4 | 5 | 6 | 7 => decide (port < 4)
  | _ => false

/-- The KCP header is valid (R280). -/
def State.headerOk (s : State) (f : Kcp) : Bool :=
  decide (f.version = 1) && typeOnPort f.type f.port && f.lenOk && s.addressed f

/-- A discarded frame is counted on its ring, or with the peer frames (R280). -/
def State.discFrame (port : Nat) (s : State) : State :=
  if port < 4 then s.updRingN port fun r => { r with disc := r.disc + 1 }
  else { s with net := { s.net with peerDisc := s.net.peerDisc + 1 } }

/-- A frame with a bad FCS is counted on its port and goes no further (R288). -/
def State.fcsBad (port : Nat) (s : State) : State :=
  { s with net := { s.net with ports := s.net.ports.upd port {} fun p => { p with fcs := p.fcs + 1 } } }

/-- What elimination decides of a sequence number (R278): the vector recovery algorithm with a history of 32. -/
inductive Elim where
  | fresh | duplicate | outside
deriving DecidableEq, Repr

/-- Vector recovery: a number beyond the history, either way, is outside. -/
def Strm.judge (h : Strm) (seq : BitVec 16) : Elim :=
  let d := (seq - h.last).toInt
  if h.seen.isEmpty then .fresh
  else if 32 ≤ d ∨ d ≤ -32 then .outside
  else if h.seen.contains seq then .duplicate else .fresh

/-- The history after a fresh sequence number. -/
def Strm.take (h : Strm) (seq : BitVec 16) : Strm :=
  let l := if h.seen.isEmpty ∨ 0 < (seq - h.last).toInt then seq else h.last
  { last := l, alone := true, seen := (h.seen ++ [seq]).filter fun q => decide ((l - q).toNat < 32) }

/-- A frame counted as received in one copy only (R288). -/
def State.singleFrame (port : Nat) (stn : Option Nat) (s : State) : State :=
  let t := if port < 4 then s.updRingN port fun r => { r with single := r.single + 1 } else s
  match stn with
  | some i => t.updStn i fun x => { x with single := x.single + 1 }
  | none => t

/-- A valid frame passes elimination (R278): whether it is the first copy, and the state after it. The previous frame of
the stream whose second copy never came counts as single. -/
def State.eliminate (f : Kcp) (stn : Option Nat) (s : State) : Bool × State :=
  let h := s.net.strms.look f.key {}
  match h.judge f.seq with
  | .fresh =>
    let t := if h.alone then s.singleFrame f.port stn else s
    (true, { t with net := { t.net with strms := t.net.strms.put f.key (h.take f.seq) } })
  | .duplicate =>
    let t := { s with net := { s.net with strms := s.net.strms.put f.key { h with alone := false } } }
    (false, if f.port < 4 then t.updRingN f.port fun r => { r with elim := r.elim + 1 }
            else { t with net := { t.net with peerElim := t.net.peerElim + 1 } })
  | .outside => (false, s)

/-- A frame of `type` arrives: link, FCS, header, then elimination; `use` takes the first copy (R280, R288). -/
def State.receive (type : BitVec 4) (stn : Option Nat) (use : State → State) (f : Kcp) (s : State) : State :=
  let g := f.typed type
  if !s.running || !s.portUp f.port then s
  else if !f.fcsOk then s.fcsBad f.port
  else if !s.headerOk g then s.discFrame f.port
  else
    let (first, t) := s.eliminate g stn
    if first then use t else t

/-- An epoch met on a ring port (spec/09_duplex_pair.md R258, R260): E_seen rises; a module that drives the plant under a
lower epoch steps down. -/
def State.meetEpoch (port : Nat) (e : Word) (s : State) : State :=
  if s.drives && decide (s.dpx.eOwn < e) then (s.seeEpoch e).stepDown port e else s.seeEpoch e

/-- The station on ring `r` with node identifier `n`. -/
def State.stnOf (s : State) (r : Nat) (n : BitVec 18) : Option Nat :=
  ((s.cfg.stn.find? fun e => decide (e.2.ring = r ∧ e.2.node = n)).map Prod.fst)

/-- The module parameterises stations: as primary, and in boot step 8 (R285). -/
def State.paramsUp (s : State) : Bool := s.drives || (s.running && s.boot.awaitStn)

/-- The primary builds a block for station `i` and sends it (R285). -/
def State.parameterise (i : Nat) (s : State) : State := if s.paramsUp then s.newBlock i else s

/-- A status that reports RESTARTED (Table 10.5) brings the station a new block (R285), once while it is outstanding. -/
def State.restarted (i : Nat) (b0 : Byte) (s : State) : State :=
  if b0.getLsbD 1 && !(s.stn i).paramPend then s.parameterise i else s

/-! INPUT and the parameter frames. -/

/-- What an INPUT leaves of its station (R281, R285 to R287). -/
def Stn.input (x : Stn) (c : StnCfg) (p : List Byte) : Stn :=
  let b0 := p.headD 0
  { x with last0 := b0, rx := slice p 4 c.inLen, echo := slice p (4 + c.inLen) c.outLen, got := true, everIn := true,
           gotOk := x.gotOk || (b0.getLsbD 0 && !b0.getLsbD 1 && !x.paramPend) }

/-- An INPUT that belongs to a cycle already latched has come late (Table 10.8); it counts for the next window (R288). -/
def State.lateInput (f : Kcp) (c : Nat) (s : State) : State :=
  if (f.cyc - ((s.cls c).cycno + 1).setWidth 16).toInt < 0 then s.updRingN f.port fun r => { r with late := r.late + 1 } else s

/-- Boot step 8 ends once every configured station has delivered (R285), with the replay of R114; under PFAIL no
further step starts (spec/18_power_electrical_mechanical.md R472). -/
def State.step8Done (replay : State → State) (s : State) : State :=
  if s.boot.awaitStn && !s.pwr.pfail && s.cfg.stn.all fun e => (s.stn e.1).everIn then
    (s.replayOnce replay).enterStart s.cfg.startMode true
  else s

/-- An INPUT frame of station `i`. -/
def State.takeInput (replay : State → State) (i : Nat) (f : Kcp) (s : State) : State :=
  let c := s.scfg i
  let t := (s.meetEpoch f.port f.epoch).lateInput f c.cls
  let t := t.updStn i fun x => x.input c f.payload
  (t.restarted i (f.payload.headD 0)).step8Done replay

/-- A PARAM_ACK of station `i` (R285, R276): a refusal leaves the station failed, with an error record. -/
def State.takeParamAck (i : Nat) (f : Kcp) (s : State) : State :=
  let id := BitVec.ofNat 32 (fieldN f.payload 0 4)
  let r := fieldN f.payload 4 1
  let t := s.meetEpoch f.port f.epoch
  if !(t.stn i).paramPend || decide ((t.stn i).paramId ≠ id) then t
  else if r = 0 then t.updStn i fun x => { x with paramPend := false, acked := true, rejoining := false, gotOk := false, refused := false }
  else t.refuseStn i r id

/-- PARAM_ACK. -/
def execParamAck (f : Kcp) (s : State) : Host.Outcome State Fault Refusal :=
  match s.stnOf f.port f.src with
  | some i => done s (s.receive 7 none (fun t => t.takeParamAck i f) f)
  | none => done s (s.receive 7 none (fun t => t.meetEpoch f.port f.epoch) f)

/-- PARAM_RETRY (R285): no PARAM_ACK has come within 10 ms, so the block is sent again under the same PARAM_ID. -/
def execParamRetry (stn : Nat) (s : State) : Host.Outcome State Fault Refusal :=
  if s.paramsUp && s.stnSet stn && (s.stn stn).paramPend then .next (s.sendBlock stn) else .next s

/-- PARAM_PERIODIC (R486): every 1 s while the station is failed and has acknowledged no block since. -/
def execParamPeriodic (stn : Nat) (s : State) : Host.Outcome State Fault Refusal :=
  if s.drives && s.stnSet stn && (s.stn stn).failed && !(s.stn stn).acked then .next (s.parameterise stn) else .next s

/-- The ring and the station of the stream `key` (R278): the station where the stream is its INPUT or LOOP_IN. -/
def State.strmFrom (s : State) (key : Nat) : Nat × Option Nat :=
  let r := key / 2 ^ 18 % 8
  let type := key / 2 ^ 25
  (r, if type = 2 ∨ type = 4 then s.stnOf r (BitVec.ofNat 18 key) else none)

/-- ELIMINATION_HISTORY_RESET (R278): no frame of the stream has come for 16 of its periods. A frame of it that came in one
copy only is counted (R288). -/
def execEliminationHistoryReset (key : Nat) (s : State) : Host.Outcome State Fault Refusal :=
  let t := if (s.net.strms.look key {}).alone then s.singleFrame (s.strmFrom key).1 (s.strmFrom key).2 else s
  .next { t with net := { t.net with strms := t.net.strms.del key } }

/-! The latch of a class (spec/05_cyclic_execution.md R133, R140; spec/10_io_network.md R287, R291). -/

/-- Bytes written to the input image of class `c`. -/
def State.setIn (c at_ : Nat) (b : List Byte) (s : State) : State := s.updMem c fun m => { m with inImg := m.inImg.wrN at_ b }

/-- The station status word written (Table 5.2). -/
def State.setWord (c i at_ : Nat) (w : Word) (s : State) : State :=
  s.updMem c fun m => { m with inImg := m.inImg.wrN at_ (le 4 w.toNat), words := m.words.put i w }

/-- Substitute values of station `i` in place of its inputs: fixed ones, or the last inputs received from it (R140). -/
def State.substStn (c i : Nat) (s : State) : State :=
  let k := s.scfg i
  if !k.hold then s.setIn c k.inAt (slice k.subst 0 k.inLen)
  else if (s.stn i).everIn then s.setIn c k.inAt (s.stn i).rx
  else s

/-- Station `i` is marked failed at this latch (R140). -/
def State.failStn (c i : Nat) (n : DWord) (s : State) : State :=
  let k := s.scfg i
  let t := s.updStn i fun x => { x with failed := true, rejoining := false, acked := false, timesFailed := x.timesFailed + 1 }
  let t := ((t.substStn c i).setWord c i k.wordAt 6).log 0x0204 3
    ([BitVec.ofNat 8 c, BitVec.ofNat 8 k.ring] ++ le 2 i ++ le 4 k.node.toNat ++ le 8 n.toNat)
  t.updCls c fun x => { x with etArg := x.etArg + 1 }

/-- Station `i` is used again (R287). -/
def State.rejoinStn (c i : Nat) (s : State) : State :=
  let k := s.scfg i
  let t := s.updStn i fun x => { x with failed := false, rejoining := false, rejoins := x.rejoins + 1 }
  let t := (t.setIn c k.inAt (t.stn i).rx).setWord c i k.wordAt 5
  t.updCls c fun x => { x with etArg := x.etArg + 1 }

/-- The latch of station `i` of class `c`; its window then starts afresh. -/
def State.latchStn (c : Nat) (n : DWord) (i : Nat) (s : State) : State :=
  let x := s.stn i
  let k := s.scfg i
  let t := if x.got then s else s.updStn i fun y => { y with missLatch := y.missLatch + 1 }
  let t :=
    if !x.failed then (if x.got then (t.setIn c k.inAt x.rx).setWord c i k.wordAt 1 else t.failStn c i n)
    else if x.gotOk && x.rejoining && !x.refused then t.rejoinStn c i
    else ((t.updStn i fun y => { y with rejoining := x.gotOk && !x.refused }).substStn c i).setWord c i k.wordAt 2
  t.updStn i fun y => { y with got := false, gotOk := false }

/-- What the window of a cycle tells a standby of a station: it is marked failed and rejoins as on the primary, whose NE0 hears the same
frames (R288). -/
def Stn.window (x : Stn) : Stn :=
  let y := { x with got := false, gotOk := false }
  if !x.failed then (if x.got then y else { y with failed := true, rejoining := false, acked := false })
  else if x.gotOk && x.rejoining && !x.refused then { y with failed := false, rejoining := false }
  else { y with rejoining := x.gotOk && !x.refused }

/-- NE0 of a standby keeps receiving INPUT frames, so the first latch of a new primary judges each station by the window before it, and
the stations that the old primary had marked failed start failed (R288, log entry 109). -/
def State.watchStations (c : Nat) (s : State) : State :=
  if s.running && s.cfg.partner && !s.executes && decide (s.sys.mode = .run) then
    (s.ccfg c).stns.foldl (fun (u : State) i => u.updStn i Stn.window) s
  else s

/-- The latch of subscription `i` of class `c` (R291). -/
def State.latchSub (c i : Nat) (s : State) : State :=
  let x := s.net.subs.look i {}
  let k := s.cfg.subs.look i {}
  let w : Word := wordOf [(0, bit x.got), (1, bit x.failed), (2, bit x.changed)]
  let t := if x.failed then (if k.hold then s else s.setIn c k.at_ (slice k.subst 0 k.len)) else s.setIn c k.at_ (slice x.data 0 k.len)
  let t := t.updMem c fun m => { m with inImg := m.inImg.wrN k.wordAt (le 4 w.toNat), subWords := m.subWords.put i w }
  { t with net := { t.net with subs := t.net.subs.put i { x with got := false, changed := false } } }

/-- A subscription of the class failed since its previous latch (R291). -/
def State.subFailed (s : State) (c : Nat) : Bool :=
  (s.ccfg c).subs.any fun i => let x := s.net.subs.look i {}; x.failed && x.changed

end Sys2Proof.Machine
end

