-- ==== Sys2Proof/Machine/Cyc.lean ====
section
/-! DEFINITION. The AP pairs and the steps of a cycle: stores, checkpoints, preemption, the latch and the start of a cycle
(spec/05_cyclic_execution.md, spec/06_lockstep_and_darn.md). -/

namespace Sys2Proof.Machine

/-- One AP pair. -/
def State.pair (s : State) (p : Nat) : Pair := s.lsp.look p {}

/-- `s` with pair `p` changed by `f`. -/
def State.updPair (p : Nat) (f : Pair → Pair) (s : State) : State := { s with lsp := s.lsp.upd p {} f }

/-- A memory that the program of a class writes privately (R162): 0 data, 1 working buffer, 2 working copy of its globals. -/
def ClsMem.area (m : ClsMem) (a : Nat) : Mem := if a = 0 then m.data else if a = 1 then m.work else m.glob

/-- `m` with a private memory replaced. -/
def ClsMem.setArea (m : ClsMem) (a : Nat) (x : Mem) : ClsMem :=
  if a = 0 then { m with data := x } else if a = 1 then { m with work := x } else { m with glob := x }

/-- A line changed since the last commit (spec/09_duplex_pair.md Table 9.2). -/
def ClsMem.touch (m : ClsMem) (a line : Nat) : ClsMem :=
  if m.dirty.contains (a, line) then m else { m with dirty := m.dirty ++ [(a, line)] }

/-- The 64-byte lines that `n` bytes from `addr` on touch. -/
def linesOf (addr n : Nat) : List Nat :=
  if n = 0 then [] else (List.range ((addr + n - 1) / 64 + 1 - addr / 64)).map fun i => i + addr / 64

/-- The bytes `b` written at `addr` of a private memory. -/
def ClsMem.poke (m : ClsMem) (a addr : Nat) (b : List Byte) : ClsMem :=
  ((linesOf addr b.length).foldl (fun (x : ClsMem) l => x.touch a l) m).setArea a ((m.area a).wrN addr b)

/-! Stores of a pair (R162 to R164). -/

/-- The darn log holds the line (R164). -/
def Pair.logged (q : Pair) (c a line : Nat) : Bool := q.log.any fun e => e.cls == c && e.area == a && e.line == line

/-- The log entry of a line: its old contents (R164). -/
def State.logEntry (s : State) (c a line : Nat) : LogEnt :=
  { cls := c, area := a, line := line, old := ((s.cmem c).area a).rdN (64 * line) 64 }

/-- A store of the pair is held until the next seal (R165): the program waits behind it. -/
def Pair.stalled (q : Pair) : Bool := !(q.heldP.isEmpty && q.heldD.isEmpty)

/-- A private store of class `c` (R162, R164): the first store to a line after a seal logs it. A store that finds the log
full is held, and so is every store behind it (R165); a broken pair logs nothing (R174). -/
def State.privStore (p c : Nat) (x : PStore) (s : State) : State :=
  let q := s.pair p
  let fresh := (linesOf x.addr x.bytes.length).filter fun l => !q.logged c x.area l
  if q.broken then s.updMem c fun m => m.poke x.area x.addr x.bytes
  else if q.stalled || decide (4096 < q.log.length + fresh.length) then s.updPair p fun y => { y with heldP := y.heldP ++ [x] }
  else
    let n := q.log.length + fresh.length
    (s.updPair p fun y => { y with log := y.log ++ fresh.map (fun l => s.logEntry c x.area l), fillLog := max y.fillLog n }).updMem c
      fun m => m.poke x.area x.addr x.bytes

/-- A deferred store (R162): kept in the buffer, or held where that is full (R165); on a broken pair discarded and counted (R175). -/
def State.defStore (p : Nat) (d : DefSt) (s : State) : State :=
  let q := s.pair p
  if q.broken then s.updPair p fun y => { y with dbgDropped := y.dbgDropped + 1 }
  else if q.stalled || decide (1024 ≤ q.defer.length) then s.updPair p fun y => { y with heldD := y.heldD ++ [d] }
  else s.updPair p fun y => { y with defer := y.defer ++ [d], fillDef := max y.fillDef (q.defer.length + 1) }

/-- What the program of class `c` has stored (log entry 8). -/
def State.runWork (p c : Nat) (w : Work) (s : State) : State :=
  let t := w.priv.foldl (fun (u : State) x => u.privStore p c x) s
  w.defs.foldl (fun (u : State) d => u.defStore p d) t

/-- The stores that pair `p` held proceed (R165), those of its class first that found the log full. -/
def State.releaseStores (p : Nat) (s : State) : State :=
  let q := s.pair p
  (s.updPair p fun x => { x with heldP := [], heldD := [] }).runWork p q.cls { priv := q.heldP, defs := q.heldD }

/-- The program of pair `p` runs: a class runs on it and no checkpoint, restore or fence holds it. -/
def Pair.runs (q : Pair) : Bool := !q.idle && !q.failed && !q.fence && !q.restoring && !q.starting && !q.taking && !q.halted

/-- Every logged line has its old contents again (R166). -/
def State.undoLog (p : Nat) (s : State) : State :=
  (s.pair p).log.foldl (fun (u : State) (e : LogEnt) =>
    u.updMem e.cls fun m => m.setArea e.area ((m.area e.area).wrN (64 * e.line) e.old)) s

/-- A checkpoint of pair `p` is sealed (R157, R158): its sequence, an empty log, the deferred stores released in order, and the stores
held for want of room as the first use of the new log and buffer (R165). -/
def State.seal (release : Nat → DefSt → State → State) (p : Nat) (s : State) : State :=
  let n := (s.pair p).seqNext + 1
  let t := s.updPair p fun x => { x with seqNext := n, ckseq := n, ckptCnt := x.ckptCnt + 1, log := [], defer := [],
                                         mism := false, reexec := false, starting := false, taking := false }
  ((s.pair p).defer.foldl (fun (u : State) d => release p d u) t).releaseStores p

/-- A class runs on pair `p` from now on. -/
def State.pairBusy (p : Nat) (s : State) : State :=
  s.updPair p fun x => { x with busyFrom := match x.busyFrom with
                                  | some t => some t
                                  | none => some s.tim.ns }

/-- No class runs on pair `p` any more. -/
def State.pairIdle (p : Nat) (s : State) : State :=
  (s.noteLoad p).updPair p fun x => { x with idle := true, starting := false, taking := false, busyFrom := none, busy := x.spans s.tim.ns }

/-! Priorities and preemption (R128, R160). -/

/-- Class `c` has priority over class `d` (R128). -/
def State.above (s : State) (c d : Nat) : Bool :=
  let a := (s.ccfg c).cycUs
  let b := (s.ccfg d).cycUs
  decide (a < b) || (decide (a = b) && decide (c < d))

/-- CYC_CLS_CFG.RANK (Table 5.11): how many classes of the pair have priority over class `c`. -/
def State.rank (s : State) (c : Nat) : Nat :=
  s.cfg.cls.countP fun e => e.2.en && decide (e.2.pair = (s.ccfg c).pair) && s.above e.1 c

/-- Class `c` has a cycle whose body has not ended. -/
def State.wants (s : State) (c : Nat) : Bool := let x := s.cls c; x.active && !x.bodyDone && !x.held

/-- The class of highest priority that has work on pair `p`. -/
def State.bestOn (s : State) (p : Nat) : Option Nat :=
  s.cfg.cls.foldl (fun (b : Option Nat) e =>
    if e.2.en && decide (e.2.pair = p) && s.wants e.1 then
      (match b with
       | none => some e.1
       | some d => if s.above e.1 d then some e.1 else some d)
    else b) none

/-- The running class of pair `p` is preempted: its checkpoint is its resume checkpoint (R160). A class whose task-start
checkpoint is not sealed has none and takes it again. -/
def State.preemptOn (release : Nat → DefSt → State → State) (p : Nat) (s : State) : State :=
  let c := (s.pair p).cls
  let t := if (s.pair p).starting then s
    else
      let u := s.seal release p
      u.updPair p fun x => { x with resume := x.resume ++ [(c, x.ckseq)] }
  t.updCls c fun x => { x with preempted := true }

/-- Class `c` runs on pair `p`: from its resume checkpoint with an empty log (R160), or by taking its task-start
checkpoint (R159). -/
def State.beginOn (p c : Nat) (s : State) : State :=
  let t := (s.pairBusy p).updCls c fun x => { x with preempted := false }
  match (s.pair p).resume.find? fun e => e.1 == c with
  | some e => t.updPair p fun x => { x with idle := false, cls := c, starting := false, ckseq := e.2, log := [],
                                            resume := x.resume.filter fun r => r.1 != c }
  | none => t.updPair p fun x => { x with idle := false, cls := c, starting := true }

/-- Pair `p` turns to the class of highest priority (R128). A failed, broken or fenced pair stays as it is. -/
def State.schedule (release : Nat → DefSt → State → State) (p : Nat) (s : State) : State :=
  let q := s.pair p
  if q.failed || q.broken || q.fence then s
  else match s.bestOn p with
    | none => if q.idle then s else s.pairIdle p
    | some c =>
      if !q.idle && q.cls == c then s
      else (if q.idle then s else s.preemptOn release p).beginOn p c

/-! Variables (Table 5.6). -/

/-- The value of an element written into the memory of its variable. -/
def State.pokeElem (e : Elem) (s : State) : State :=
  match s.var e.handle with
  | none => s
  | some v =>
    let a := v.addr + e.off
    if v.mem = 1 then s.setIn v.cls a e.val
    else s.updMem v.cls fun m => m.poke (if v.mem = 2 then 1 else if v.mem = 3 then 2 else 0) a e.val

/-- The element's value written at once, with the committed image and the published globals (R146). -/
def State.pokeNow (e : Elem) (s : State) : State :=
  let t := s.pokeElem e
  match s.var e.handle with
  | none => t
  | some v =>
    let a := v.addr + e.off
    t.updMem v.cls fun m =>
      if v.mem = 2 then (if m.idx then { m with pub1 := m.pub1.wrN a e.val, commitNo := m.commitNo + 1 }
                         else { m with pub0 := m.pub0.wrN a e.val, commitNo := m.commitNo + 1 })
      else if v.mem = 3 then { m with globPub := m.globPub.wrN a e.val }
      else m

/-- The forces of class `c` on inputs or outputs applied (R147). -/
def State.applyForces (c : Nat) (output : Bool) (s : State) : State :=
  (s.cyc.forces.filter fun f => f.cls == c && f.output == output).foldl (fun (u : State) f => u.pokeElem f.elem) s

/-- The pending host writes of class `c` applied (R146). -/
def State.applyPending (c : Nat) (s : State) : State :=
  let t := (s.cmem c).pendWr.foldl (fun (u : State) e => u.pokeElem e) s
  t.updMem c fun m => { m with pendWr := [] }

/-! The start of a cycle (Table 5.1). -/

/-- The result of a HART device as the image holds it (spec/13_local_field_io.md R363; log entry 21): the bytes of its last answer
and AGE, the time in ms since then. -/
def State.hartResult (s : State) (n d : Nat) : List Byte :=
  let age := match (s.aio n).answered.find d with
    | some t => (s.sys.opNs - t) / 1000000
    | none => s.sys.opNs / 1000000
  padTo 18 ((s.aio n).vals.look d []) ++ le 4 age

/-- The local inputs copied into the input image (log entry 21: one byte per digital, four per analogue channel, four per
channel status). -/
def State.latchLocal (c : Nat) (s : State) : State :=
  let k := s.ccfg c
  let t := k.din.foldl (fun (u : State) e => u.setIn c e.2 [BitVec.ofNat 8 (bit (u.dio e.1).state)]) s
  let t := k.ain.foldl (fun (u : State) e => u.setIn c e.2 (le 4 (u.aio e.1).value.toNat)) t
  let t := k.stat.foldl (fun (u : State) e => u.setIn c e.2.2 (le 4 (if e.1 then u.aioStat e.2.1 else u.dioStat e.2.1).toNat)) t
  k.hart.foldl (fun (u : State) e => u.setIn c e.2.2 (u.hartResult e.1 e.2.1)) t

/-- Step 2 of Table 5.1: the input latch of class `c` in cycle `n`. -/
def State.latch (c : Nat) (n : DWord) (s : State) : State :=
  let t := s.updCls c fun x => { x with etArg := 0 }
  let t := (s.ccfg c).stns.foldl (fun (u : State) i => u.latchStn c n i) t
  let t := ((s.ccfg c).subs.foldl (fun (u : State) i => u.latchSub c i) t).latchLocal c
  t.updMem c fun m => { m with globIn := (s.ccfg c).reads.map (fun d => (d, (s.cmem d).globPub)), work := m.image }

/-- Step 5 of Table 5.1 (R139): the error tasks due, in the order of Table 5.3, each counted; `stn` tells whether the
STATION error task is due. -/
def Cls.errorTasks (x : Cls) (stn : Bool) : Cls :=
  let take := match x.dueTake with
    | some e => [(1, e.toNat)]
    | none => []
  let calls := take ++ (if stn then [(2, x.etArg)] else []) ++ (if x.dueOver then [(3, x.overArg)] else []) ++
    (if x.dueSkip then [(4, x.droppedArg)] else [])
  { x with calls := calls, dueTake := none, dueOver := false, dueSkip := false, droppedArg := 0,
           etTake := if x.dueTake.isSome then x.etTake + 1 else x.etTake,
           etStn := if stn then x.etStn + 1 else x.etStn,
           etOver := if x.dueOver then x.etOver + 1 else x.etOver,
           etSkip := if x.dueSkip then x.etSkip + 1 else x.etSkip }

/-- The cycle of number `n` of class `c` starts, its boundary at `ns` (R135): steps 2, 3 and 5 of Table 5.1. -/
def State.startCycle (c : Nat) (n : DWord) (ns : Nat) (s : State) : State :=
  let subDue := s.subFailed c
  let t := s.updMem c fun m => { m with comData := m.data }
  let t := t.updCls c fun x => { x with active := true, late := false, cur := n, startNs := ns, cycOver := false, bodyDone := false,
                                        first := x.firstDue && !x.changedDue, firstDue := false,
                                        changed := x.changedDue, changedDue := false, latePend := none, preempted := true }
  let t := ((t.latch c n).applyForces c false).applyPending c
  t.updCls c fun x => x.errorTasks (subDue || decide (0 < x.etArg))

/-! What stops every class (R137, R170). -/

/-- The application halts for class `c` (R137): a halt notice from the primary of a pair, record 0x0203 with reason `why`
(1 hard limit, 2 skip limit, 3 the partner's notice), and FAULT-HALT with cause 0x01. In the settle window of a lone
module's switch the module falls back instead (spec/17_firmware_and_configuration.md R458). -/
def State.haltNotice (c why : Nat) (n : DWord) (s : State) : State :=
  let t := s.log 0x0203 5 ([BitVec.ofNat 8 c, BitVec.ofNat 8 why, 0, 0] ++ le 8 n.toNat)
  if t.settling && decide (why ≠ 3) then t.settleFail 0
  else ((if why ≠ 3 ∧ t.executes = true then t.notice 2 1 t.lastCommit 0 else t).endInsync 6).enterHalt 1

/-- LSP_PAIR_MMINFO (spec/06_lockstep_and_darn.md Table 6.8). -/
def Pair.mminfo (q : Pair) : Word :=
  wordOf [(0, q.mmPoint.toNat), (4, q.mmClass.toNat), (7, bit q.mmIdle), (8, bit q.mmSecond), (16, q.mmCkseq.toNat)]

/-- Pair `p` fails for `why` (R169 to R171): 1 a second mismatch, 2 a restore over 20 µs, 3 the darn limit. Without an in-sync partner
the halt cause is 0x02 (R170), on a standby 0x07 (R171). -/
def State.failPair (p why : Nat) (s : State) : State :=
  let t := s.updPair p fun x => { x with failed := true, fence := true, restoring := false, reexec := false }
  let q := t.pair p
  (t.log 0x0302 5 ([BitVec.ofNat 8 p, BitVec.ofNat 8 why, BitVec.ofNat 8 q.cls, 0] ++ le 4 (q.mminfo).toNat)).unrecoverable
    (if s.sys.lone || s.sys.primary || s.executes then 2 else 7)

end Sys2Proof.Machine
end

