-- ==== Sys2Proof/Machine/Lsp.lean ====
section
/-! DEFINITION. Checkpoints, mismatches, darns and the debugger of a broken pair (spec/06_lockstep_and_darn.md). -/

namespace Sys2Proof.Machine

/-- The AP pairs are loaded: they run from the end of BOOT on, but not in IDLE-LINK. -/
def State.pairsUp (s : State) : Bool :=
  s.running && decide (s.sys.mode ≠ .boot) && decide (s.sys.mode ≠ .idleLink)

/-- Pair `p` runs in lock step: it is neither failed nor broken (R154, R174). -/
def State.lockstep (s : State) (p : Nat) : Bool := s.pairsUp && !(s.pair p).failed && !(s.pair p).broken

/-- The stores of the class on pair `p` since the previous command of the pair, while its program runs. -/
def State.pairWork (p : Nat) (w : Work) (s : State) : State :=
  if (s.pair p).runs then s.runWork p (s.pair p).cls w else s

/-- INTERVAL_CHECKPOINT (R159): the pair stops the class and takes a checkpoint, which CHECKPOINT_SEAL seals. -/
def execIntervalCheckpoint (p : Fin 4) (work : Work) (s : State) : Host.Outcome State Fault Refusal :=
  if s.lockstep p && (s.pair p).runs then .next ((s.pairWork p work).updPair p fun x => { x with taking := true }) else .next s

/-- EARLY_CHECKPOINT (R165): a store finds all 4,096 log entries, or all 1,024 buffer entries, in use. -/
def execEarlyCheckpoint (p : Fin 4) (work : Work) (deferFull : Bool) (s : State) : Host.Outcome State Fault Refusal :=
  if s.lockstep p && (s.pair p).runs then
    let t := s.pairWork p work
    let q := t.pair p
    if deferFull && (!q.heldD.isEmpty || decide (1024 ≤ q.defer.length)) then
      .next (t.updPair p fun x => { x with taking := true, earlyDef := x.earlyDef + 1 })
    else if !deferFull && (!q.heldP.isEmpty || decide (4096 ≤ q.log.length)) then
      .next (t.updPair p fun x => { x with taking := true, earlyLog := x.earlyLog + 1 })
    else .next t
  else .next s

/-! Mismatches (R166, R158, R161, R169). -/

/-- The mismatch is noted in LSP_PAIR_MMINFO and LSP_PAIR_MMTIME (Table 6.8); for an idle pair, CKSEQ and CLASS are those it ran last
(log entry 122). -/
def State.noteMismatch (p point : Nat) (idle second : Bool) (s : State) : State :=
  s.updPair p fun x => { x with
    mmPoint := BitVec.ofNat 4 point, mmClass := BitVec.ofNat 3 x.cls, mmIdle := idle, mmSecond := second,
                                mmCkseq := x.ckseq.setWidth 16, mmTime := s.short, mism := true }

/-- A darn of pair `p` is counted (Table 6.4). -/
def State.countDarn (p : Nat) (s : State) : State :=
  s.updPair p fun x => { x with
    darnCnt := x.darnCnt + 1,
    darnTimes := (x.darnTimes.filter fun t => decide (s.sys.opNs < t + 3600000000000)) ++ [s.sys.opNs] }

/-- LSP_PAIR_DARNLIM of pair `p`. -/
def State.darnLim (s : State) (p : Nat) : Nat := bits (s.voted (Reg.lspPairDarnlim + 0x80 * p)) 0 16

/-- The darns of the last 3,600 s are above the limit (R169). -/
def State.overDarns (s : State) (p : Nat) : Bool :=
  decide (s.darnLim p ≠ 0) && decide (s.darnLim p < (s.pair p).darnTimes.length)

/-- The notice record of a darn (Table 15.7, code 0x0301). -/
def State.darnRec (p : Nat) (idle : Bool) (ns : Nat) (s : State) : State :=
  let q := s.pair p
  s.log 0x0301 2 ([BitVec.ofNat 8 p, BitVec.ofNat 8 q.mmPoint.toNat, BitVec.ofNat 8 q.cls, BitVec.ofNat 8 (bit idle)] ++
    le 4 q.ckseq.toNat ++ le 4 ns)

/-- A checkpoint of pair `p` is in force: that of its class once sealed, or that of the known-answer sequence (`seq`) which an idle
pair runs (R158, R161, R171). -/
def Pair.underCkpt (q : Pair) (seq : Bool) : Bool := if q.idle then seq else !q.starting

/-- A mismatch that comes first since the last seal (R166): the fence latches and the restore begins, or, without a
checkpoint in force, both cores are reset and the reset counts as a darn with an empty log (R158, R161), after which REEXEC stays 0 (log
entry 122). A darn over the limit of R169 fails the pair at the mismatch, without a restore (log entry 122). -/
def State.firstMismatch (p : Nat) (seq : Bool) (s : State) : State :=
  let q := s.pair p
  let t := s.countDarn p
  let u := if !q.underCkpt seq then t.darnRec p true 0
    else t.updPair p fun x => { x with fence := true, restoring := true, taking := false }
  if u.overDarns p then u.failPair p 3 else u

/-- A mismatch at compared point `point` of Table 6.1. -/
def State.mismatch (p point : Nat) (seq : Bool) (s : State) : State :=
  let q := s.pair p
  let t := s.noteMismatch p point (!q.underCkpt seq) q.mism
  if q.mism then t.failPair p 1 else t.firstMismatch p seq

/-- The restore of pair `p` ends (R166): the logged lines have their old contents, the held deferred stores are gone, fence
and cores are released, and the class runs again from its checkpoint. The pair then turns to a class whose boundary fell
into the restore; nothing is held that such a checkpoint could release. -/
def State.restoreEnd (p ns : Nat) (s : State) : State :=
  let t := (s.undoLog p).updPair p fun x => { x with
    log := [], defer := [], heldP := [], heldD := [], restoring := false, fence := false, reexec := true,
    restMax := if x.restMax.toNat < ns then BitVec.ofNat 32 ns else x.restMax }
  (t.darnRec p false ns).schedule (fun _ _ u => u) p

/-- DARN_RESTORE_END, after `ns` nanoseconds. -/
def execDarnRestoreEnd (p : Fin 4) (ns : Nat) (s : State) : Host.Outcome State Fault Refusal :=
  if s.lockstep p && (s.pair p).restoring then done s (s.restoreEnd p ns) else .next s

/-- RESTORE_TIMEOUT (R169): the restore has not ended 20 µs after the mismatch. -/
def execRestoreTimeout (p : Fin 4) (s : State) : Host.Outcome State Fault Refusal :=
  if s.lockstep p && (s.pair p).restoring then done s (s.failPair p 2) else .next s

/-- Pair `p` runs known-answer sequences: it hosts no class (spec/05_cyclic_execution.md R127), or the module is a
standby (R171). -/
def State.knownAnswer (s : State) (p : Nat) : Bool :=
  s.lockstep p && (s.pair p).idle && !(s.pair p).restoring && (!s.executes || !(s.cfg.cls.any fun e => e.2.en && decide (e.2.pair = p)))

/-- COMPARATOR_MISMATCH; `work` is what the class stored before it. A known-answer sequence of an idle pair runs with checkpoints and
darns like a class (R171). -/
def execComparatorMismatch (p : Fin 4) (seen : Mism) (work : Work) (s : State) : Host.Outcome State Fault Refusal :=
  if s.lockstep p then
    done s ((s.pairWork p work).mismatch p (seen.point.val + 1) (seen.inSeq && (s.knownAnswer p || (s.pair p).restoring)))
  else .next s

/-- KNOWN_ANSWER_RUN (R171): the sequence runs under the comparator from a checkpoint of its own. -/
def execKnownAnswerRun (p : Fin 4) (s : State) : Host.Outcome State Fault Refusal :=
  if s.knownAnswer p then .next (s.seal (fun _ _ u => u) p) else .next s

/-! The debugger (R174 to R176). -/

/-- The offset of a register of pair `p`. -/
def lspReg (o p : Nat) : Nat := o + 0x80 * p

/-- Pair `p` is broken in HOLD, so the debug registers act (R176). -/
def State.debuggable (s : State) (p : Nat) : Bool := s.running && decide (s.sys.mode = .hold) && (s.pair p).broken

/-- Core A of pair `p` halts before the instruction at `pc`. -/
def State.haltCore (p : Nat) (pc : Word) (work : Work) (s : State) : State :=
  (s.pairWork p work).updPair p fun x => { x with halted := true, pc := pc, bpHit := false, stepped := false }

/-- DBG_HALT: a write of HALT to LSP_PAIR_DBG_CTRL; on a pair that is not broken it is discarded (R176). -/
def execDbgHalt (p : Fin 4) (pc : Word) (work : Work) (s : State) : Host.Outcome State Fault Refusal :=
  if !s.reach then .next s
  else if !s.debuggable p then done s (s.roWr (lspReg Reg.lspPairDbgCtrl p))
  else if (s.pair p).halted then .next s
  else .next (s.haltCore p pc work)

/-- One instruction of core A runs. -/
def State.stepCore (p : Nat) (pc : Word) (work : Work) (s : State) : State :=
  let t := s.updPair p fun x => { x with halted := false }
  (t.pairWork p work).updPair p fun x => { x with halted := true, stepped := true, bpHit := false, pc := pc }

/-- DBG_STEP: a write of STEP; it acts on a halted core. -/
def execDbgStep (p : Fin 4) (pc : Word) (work : Work) (s : State) : Host.Outcome State Fault Refusal :=
  if !s.reach then .next s
  else if !s.debuggable p then done s (s.roWr (lspReg Reg.lspPairDbgCtrl p))
  else if !(s.pair p).halted then .next s
  else .next (s.stepCore p pc work)

/-- Core A of pair `p` continues. -/
def State.resumeCore (p : Nat) (s : State) : State :=
  s.updPair p fun x => { x with halted := false, stepped := false, bpHit := false }

/-- DBG_RESUME: a write of RESUME. -/
def execDbgResume (p : Fin 4) (s : State) : Host.Outcome State Fault Refusal :=
  if !s.reach then .next s
  else if !s.debuggable p then done s (s.roWr (lspReg Reg.lspPairDbgCtrl p))
  else .next (s.resumeCore p)

/-- The breakpoint register `b` of pair `p`. -/
def State.bpReg (s : State) (p b : Nat) : Word := s.reg (lspReg (Reg.lspPairBp0 + 4 * b) p)

/-- BREAKPOINT_HIT (R176): core A reaches an enabled breakpoint and halts there. -/
def execBreakpointHit (p : Fin 4) (bp : Fin 4) (work : Work) (s : State) : Host.Outcome State Fault Refusal :=
  if s.debuggable p && !(s.pair p).halted && (s.bpReg p bp).getLsbD 0 then
    .next ((s.haltCore p (s.bpReg p bp &&& 0xFFFFFFFC) work).updPair p fun x => { x with bpHit := true, bpNo := BitVec.ofNat 2 bp.val })
  else .next s

end Sys2Proof.Machine
end

