-- ==== Sys2Proof/Machine/Dpx.lean ====
section
/-! DEFINITION. The baste link's lanes and heartbeats, the takeover decision, and the start of a paired module
(spec/09_duplex_pair.md R236 to R239, R252, R253, R261 to R263). -/

namespace Sys2Proof.Machine

/-- `s` with the DPX block changed by `f`. -/
def State.updDpx (f : Dpx → Dpx) (s : State) : State := { s with dpx := f s.dpx }

/-- `s` with the pair's counters changed by `f`. -/
def State.updDpx2 (f : Dpx2 → Dpx2) (s : State) : State := { s with dpx2 := f s.dpx2 }

/-- The lanes work: a partner is configured, and BOOT has trained them (spec/02_modes_and_startup.md R57, R39). -/
def State.lanesOn (s : State) : Bool :=
  s.running && s.cfg.partner && decide (s.sys.mode ≠ .idleLink) &&
    (decide (s.sys.mode ≠ .boot) || s.boot.awaitPartner || s.boot.awaitStn || s.boot.listening)

/-! One lane. -/

def Dpx.up (d : Dpx) (lane : Bool) : Bool := if lane then d.up1 else d.up0
def Dpx.miss (d : Dpx) (lane : Bool) : BitVec 8 := if lane then d.miss1 else d.miss0
def Dpx.good (d : Dpx) (lane : Bool) : Nat := if lane then d.good1 else d.good0
def Dpx.crcT (d : Dpx) (lane : Bool) : List Nat := if lane then d.crcT1 else d.crcT0
def Dpx.hbCnt (d : Dpx) (lane : Bool) : DWord := if lane then d.hbCnt1 else d.hbCnt0
def Dpx.prevTx (d : Dpx) (lane : Bool) : Word := if lane then d.prevTx1 else d.prevTx0
def Dpx.prevRx (d : Dpx) (lane : Bool) : Word := if lane then d.prevRx1 else d.prevRx0

def Dpx.setUp (d : Dpx) (lane b : Bool) : Dpx := if lane then { d with up1 := b } else { d with up0 := b }
def Dpx.setGood (d : Dpx) (lane : Bool) (n : Nat) : Dpx := if lane then { d with good1 := n } else { d with good0 := n }
def Dpx.setMiss (d : Dpx) (lane : Bool) (n : BitVec 8) : Dpx := if lane then { d with miss1 := n } else { d with miss0 := n }
def Dpx.hbRx (d : Dpx) (lane : Bool) : DWord := if lane then d.hbRx1 else d.hbRx0
def Dpx.setHbRx (d : Dpx) (lane : Bool) (n : DWord) : Dpx := if lane then { d with hbRx1 := n } else { d with hbRx0 := n }
def Dpx.setPrev (d : Dpx) (lane : Bool) (tx rx : Word) : Dpx :=
  if lane then { d with prevTx1 := tx, prevRx1 := rx } else { d with prevTx0 := tx, prevRx0 := rx }

/-- The digest of the active configuration (spec/17_firmware_and_configuration.md Table 17.3). -/
def State.cfgDigest (s : State) : List Byte := match s.boot.cfgRun with
  | some n => (parseHdr (s.boot.cfgImage n)).digest
  | none => []

/-- The heartbeat of this module on a lane (Table 9.15). -/
def State.heartbeatOf (s : State) (lane : Bool) : Hb :=
  { fmt := s.boot.runHdr.mirrorFmt.toNat, count := s.dpx.hbCnt lane + 1, mode := s.sys.mode, role := s.sys.primary, insync := s.insync,
    trans := s.sys.trans.isSome, side := s.side, state := s.dpx.state, eOwn := s.dpx.eOwn, eSeen := s.dpx.eSeen,
    txTime := s.short, prevTx := s.dpx.prevTx lane, prevRx := s.dpx.prevRx lane, cycno := s.lastCommit,
    fwPfx := slice s.boot.runHdr.digest 0 8, cfgPfx := slice s.cfgDigest 0 8, progPfx := slice s.chg.actDig 0 8,
    mfmt := s.boot.runHdr.mirrorFmt, mmin := s.boot.runHdr.mirrorMin }

/-- HEARTBEAT_SEND (R236). -/
def execHeartbeatSend (lane : Bool) (s : State) : Host.Outcome State Fault Refusal :=
  if s.lanesOn && s.dpx.heartbeats then
    .next ((s.updDpx fun d => if lane then { d with hbCnt1 := d.hbCnt1 + 1 } else { d with hbCnt0 := d.hbCnt0 + 1 }).put
      (.heartbeat lane (s.heartbeatOf lane)))
  else .next s

/-! Takeover by detection (R252). -/

/-- Three consecutive heartbeats are missed on both lanes. -/
def State.heartbeatsLost (s : State) : Bool := decide (3 ≤ s.dpx.miss0.toNat) && decide (3 ≤ s.dpx.miss1.toNat)

/-- The configured ring ports whose link is up. -/
def State.liveRings (s : State) : List Nat := s.cfg.rings.keys.filter fun r => s.portUp r

/-- No role beacon with the primary's epoch has come in two consecutive slots on ring `r`. -/
def State.beaconAbsent (s : State) (r : Nat) : Bool := decide (2 ≤ s.dpx2.absSlots.look r 0)

/-- A standby in RUN with INSYNC 1 decides takeover (R252). -/
def State.takeoverDue (s : State) : Bool :=
  s.running && decide (s.sys.mode = .run) && !s.sys.primary && s.insync && (s.dpx2.failNote || s.heartbeatsLost) &&
    s.liveRings.all (fun r => s.beaconAbsent r) && !s.liveRings.isEmpty

/-- The takeover, counted. -/
def State.decideTakeover (s : State) : State := if s.takeoverDue then s.takeover else s

/-- A standby falls back to its configured source (spec/11_time.md R302): where that gives no measurement, f holds at I (R305). -/
def State.holdUnfed (s : State) : State :=
  let d := bit s.tim.sel
  if s.sys.primary || (s.domEn d && decide ((s.dom d).state = .locked ∨ (s.dom d).state = .acquiring)) then s
  else { s with tim := { s.tim with f := s.tim.iTerm, holdover := true } }

/-- Both lanes are down (R242, R253): unless takeover is decided on it, INSYNC or an initial sync ends. -/
def State.bothDown (s : State) : State :=
  let s := { s.holdUnfed with dpx2 := { s.dpx2 with rseqRx := 0, waitRec := [], vers := [] } }
  if s.takeoverDue then s.takeover
  else
    let t := s.updDpx fun d => { d with partnerHb := false }
    if t.insync then t.endInsync 3
    else if decide (t.dpx.state = .syncing) then t.setSync t.afterLoss 0 3
    else if decide (t.dpx.state = .refused) then t.setSync t.afterLoss 0 3
    else t

/-- A lane goes down (R237) for `cause`: 1 heartbeats, 2 CRC errors. -/
def State.laneDown (lane : Bool) (cause : Nat) (s : State) : State :=
  if !s.dpx.up lane then s
  else (s.updDpx fun d => d.setUp lane false).log 0x0501 3 [BitVec.ofNat 8 (bit lane), 1, BitVec.ofNat 8 cause]

/-- One more heartbeat is missed on a lane. -/
def State.missOne (lane : Bool) (s : State) : State :=
  let n : BitVec 8 := if s.dpx.miss lane = 255 then 255 else s.dpx.miss lane + 1
  s.updDpx fun d => { (d.setMiss lane n).setGood lane 0 with hbLost := d.hbLost + 1 }

/-- HEARTBEAT_MISSED (R236, R237, R252): none has come within 55 µs of the previous one. -/
def State.heartbeatMissed (lane : Bool) (s : State) : State :=
  let t := s.missOne lane
  if decide (3 ≤ (t.dpx.miss lane).toNat) then
    let u := t.laneDown lane 1
    if !u.dpx.up0 && !u.dpx.up1 then u.bothDown else u
  else t

/-- HEARTBEAT_MISSED. -/
def execHeartbeatMissed (lane : Bool) (s : State) : Host.Outcome State Fault Refusal :=
  if s.lanesOn then done s (s.heartbeatMissed lane) else .next s

/-! Receiving a heartbeat (R237 to R239). -/

/-- A record's FMT lies in the receiver's range (R238). -/
def State.fmtOk (s : State) (fmt : Nat) : Bool :=
  decide (s.boot.runHdr.mirrorMin.toNat ≤ fmt) && decide (fmt ≤ s.boot.runHdr.mirrorFmt.toNat)

/-- A discarded record counts as a CRC error of its lane (R238); 16 within 1 ms take the lane down (R237). -/
def State.crcError (lane : Bool) (s : State) : State :=
  let now := s.sys.opNs
  let ts := ((s.dpx.crcT lane).filter fun t => decide (now < t + 1000000)) ++ [now]
  let t := s.updDpx fun d => if lane then { d with crc1 := d.crc1 + 1, crcT1 := ts, good1 := 0 }
                             else { d with crc0 := d.crc0 + 1, crcT0 := ts, good0 := 0 }
  if 16 ≤ ts.length ∧ t.dpx.up lane = true then
    let u := t.laneDown lane 2
    if !u.dpx.up0 && !u.dpx.up1 then u.bothDown else u
  else t

/-- A lane comes up after 1,000 consecutive good heartbeats (R237). -/
def State.laneGood (lane : Bool) (s : State) : State :=
  let n := s.dpx.good lane + 1
  let t := s.updDpx fun d => (d.setGood lane n).setMiss lane 0
  if 1000 ≤ n ∧ t.dpx.up lane = false then
    (t.updDpx fun d => d.setUp lane true).log 0x0501 3 [BitVec.ofNat 8 (bit lane), 0, 3]
  else t

/-- What the heartbeat tells of the partner (Table 9.15, R258). A heartbeat count that does not rise shows that the partner has
restarted, which clears its PROOF_FAIL (R269). -/
def State.notePartner (lane : Bool) (hb : Hb) (s : State) : State :=
  let t := s.updDpx fun d => { (d.setPrev lane hb.txTime s.short).setHbRx lane hb.count with
    partnerMode := BitVec.ofNat 4 hb.mode.code, partnerRole := hb.role, partnerHb := true, partnerE := hb.eOwn
    partnerPf := d.partnerPf && decide (d.hbRx lane < hb.count) }
  (t.seeEpoch hb.eOwn).seeEpoch hb.eSeen

/-- This module, and not its partner, takes the primary role when neither holds it (R262): the higher E_own, or side 0
where both are 0; also where the partner is in a mode that forbids the role (R32; log entry 23). -/
def State.winsRole (hb : Hb) (s : State) : Bool :=
  (hb.mode ≠ .boot && !roleAllowed hb.mode .run) || decide (hb.eOwn < s.dpx.eOwn) ||
    (decide (hb.eOwn = 0) && decide (s.dpx.eOwn = 0) && !s.side)

/-- The start of a paired module goes on when its partner's heartbeat is there (R59, R262): beside a primary it skips step 8
and becomes standby; without one, the rule of R262 decides. -/
def State.meetPartner (replay : State → State) (hb : Hb) (s : State) : State :=
  let t := { s with boot := { s.boot with awaitPartner := false, listening := false } }
  if hb.role then (t.endBoot t.cfg.startMode false).setSync .syncing 0 0
  else if s.winsRole hb then
    (if decide (t.cfg.startMode = .run) then t.ringStart replay [] else (t.replayOnce replay).endBoot t.cfg.startMode true).setSync .noPartner 0 0
  else (t.endBoot t.cfg.startMode false).setSync .syncing 0 0

/-- The primary role taken after the start, by the rule of R262 or the claim of R263: a new epoch, the replay of its journal, the
classes of RUN, and the parameter blocks of every station (spec/10_io_network.md R285). -/
def State.assumeRole (replay : State → State) (s : State) : State :=
  let s := s.replayOnce replay
  let t := { s.takeEpoch with sys := { s.takeEpoch.sys with primary := roleAllowed s.sys.mode s.sys.from_ } }
  let u : State := if t.sys.mode = Mode.run then t.runClasses else t
  u.cfg.stn.foldl (fun (v : State) e => v.parameterise e.1) u

/-! Versions (R243, R247). -/

/-- The activation in progress runs by Table 17.8 on this module. -/
def State.pairAct (s : State) : Bool := s.boot.act.busy && s.boot.act.pair

/-- A version in the last VERSIONS of the partner: 0 firmware, 4 and 8 configurations, 12 and 16 programs. -/
def State.theirs (s : State) (o : Nat) : Nat := fieldN s.dpx2.vers o 4

/-- The firmware of the two modules can synchronise: it is the same, or an activation in progress changes it under R457. -/
def State.fwMatches (s : State) : Bool :=
  decide (s.theirs 0 = s.boot.fwVer.toNat) || (s.pairAct && s.boot.act.fw)

/-- The configurations match, or an activation in progress changes them. -/
def State.cfgMatches (s : State) : Bool :=
  decide (s.theirs 4 = s.boot.actVer.toNat) || (s.pairAct && s.boot.act.cfg)

/-- The programs match, or follow the configurations. -/
def State.progMatches (s : State) : Bool :=
  decide (s.theirs 12 = s.chg.actVer.toNat) || (s.pairAct && s.boot.act.cfg)

/-- The versions check of Table 9.3 passes. -/
def State.versOk (s : State) : Bool := !s.dpx2.vers.isEmpty && s.fwMatches && s.cfgMatches && s.progMatches

/-- The VERSIONS payload of this module (Table 9.14). -/
def State.versBytes (s : State) : List Byte :=
  le 4 s.boot.fwVer.toNat ++ le 4 s.boot.actVer.toNat ++ le 4 s.boot.prevVer.toNat ++ le 4 s.chg.actVer.toNat ++
    le 4 s.chg.prevVer.toNat ++ padTo 32 s.boot.runHdr.digest ++ padTo 32 s.cfgDigest ++ padTo 32 s.chg.actDig

/-- This module tells its partner its versions. -/
def State.sendVersions (s : State) : State := s.sendRec 9 false false s.versBytes

/-! Synchronisation states (R234, R241, R242). -/

/-- The reason for which a heartbeat shows that synchronisation is refused (Table 9.9): 5 where the sides are equal or the partners'
names do not fit (log entry 115), 3 for a standby in RECOVERY. A primary whose partner refuses what its versions allow follows it
with reason 5. -/
def State.refusal (hb : Hb) (s : State) : Option Nat :=
  if hb.side = s.side ∨ s.dpx2.misnamed = true ∨ s.cfg.partnerNode = s.sys.nodeId then some 5
  else if (s.sys.primary && decide (hb.mode = .recovery)) || (!s.sys.primary && decide (s.sys.mode = .recovery) && hb.role) then some 3
  else if s.sys.primary && decide (s.dpx.state = .syncing) && decide (hb.state = .refused) && s.versOk then some 5
  else none

/-- The reason of a refusal that a heartbeat shows has gone (R247): nothing but the versions and the count of abandoned syncs keeps a
pair apart without it. A primary leaves after its standby. -/
def State.refusalGone (hb : Hb) (s : State) : Bool :=
  decide (s.dpx.state = .refused) && decide (s.dpx.reason = 3 ∨ s.dpx.reason = 5) &&
    !(s.sys.primary && decide (hb.state = .refused))

/-- `s` with the versions of its partner unknown. -/
def State.forgetVersions (s : State) : State := { s with dpx2 := { s.dpx2 with vers := [] } }

/-- The synchronisation state as the partner's heartbeat changes it (R234, R241, R242); a standby follows its
primary to RUN and STOP (spec/02_modes_and_startup.md R34; log entry 39); a module in WAIT_PEER meets its partner; the end of INSYNC and an initial sync are followed. -/
def State.followPartner (replay : State → State) (hb : Hb) (s : State) : State :=
  match s.refusal hb with
  | some r => ((if s.insync then s.endInsync 6 else s).forgetVersions).setSync .refused r 0
  | none =>
    if s.refusalGone hb then s.setSync .syncing 0 0
    else if !s.sys.primary && !s.insync && hb.role && s.sys.trans.isNone &&
        ((s.sys.mode == .stop && hb.mode == .run) || (s.sys.mode == .run && hb.mode == .stop)) then s.setMode hb.mode 0
    else if s.insync && !hb.insync && !s.dpx.handover && hb.mode ≠ .takeover && s.sys.mode ≠ .takeover then
      s.endInsync (if s.sys.primary then (if hb.mode = .run then 6 else 5) else 1)
    else if s.dpx.state = .waitPeer ∧ hb.role = false ∧ s.winsRole hb = true then (s.assumeRole replay).setSync .noPartner 0 0
    else if (s.dpx.state = .waitPeer ∨ s.dpx.state = .linkLost) ∧ hb.role = true ∧ s.sys.primary = false then s.setSync .syncing 0 0
    else if (s.dpx.state = .noPartner ∨ s.dpx.state = .linkLost) ∧ s.sys.primary = true ∧ hb.state = .syncing then s.setSync .syncing 0 0
    else s

/-- A valid heartbeat; `time` is what it gives the time unit (R239, R302). Under PFAIL a start goes no further
(spec/18_power_electrical_mechanical.md R472). -/
def State.takeHeartbeat (replay : State → State) (time : Bool → Hb → State → State) (lane : Bool) (hb : Hb) (s : State) : State :=
  let t := ((time lane hb s).laneGood lane).notePartner lane hb
  if t.boot.awaitPartner || t.boot.listening then (if t.pwr.pfail then t else t.meetPartner replay hb)
  else if decide (t.sys.mode = .boot) then t
  else t.followPartner replay hb

/-- HEARTBEAT without what the time unit makes of it. -/
def State.heartbeatIn (replay : State → State) (time : Bool → Hb → State → State) (lane : Bool) (hb : Hb) (s : State) : State :=
  if !hb.crcOk || !s.fmtOk hb.fmt then s.crcError lane else s.takeHeartbeat replay time lane hb

/-! The start without a partner (R261, R263). -/

/-- PARTNER_SEARCH_TIMEOUT (R261): no heartbeat within 100 ms of the end of self-test. -/
def State.noPartnerFound (s : State) : State :=
  let t := { s with boot := { s.boot with awaitPartner := false } }
  if decide (s.dpx.eOwn = s.dpx.eSeen) then { t with boot := { t.boot with listening := true } }
  else (t.endBoot t.cfg.startMode false).setSync .waitPeer 0 0

/-- PARTNER_SEARCH_TIMEOUT; under PFAIL the start waits (spec/18_power_electrical_mechanical.md R472; log entry 51). -/
def execPartnerSearchTimeout (s : State) : Host.Outcome State Fault Refusal :=
  if s.running && !s.pwr.pfail && s.boot.awaitPartner then done s s.noPartnerFound else .next s

/-- A beacon is heard while the module listens (R261): it stays standby in WAIT_PEER. -/
def State.heardWhileListening (s : State) : State :=
  if s.boot.listening && !s.pwr.pfail then (s.endBoot s.cfg.startMode false).setSync .waitPeer 0 0 else s

/-- ABSENT_WAIT_EXPIRY (R261): no beacon was heard in DPX_ABSENT_WAIT, so the module takes the primary role. -/
def State.absentExpired (replay : State → State) (s : State) : State :=
  let t := { s with boot := { s.boot with listening := false } }
  (if decide (t.cfg.startMode = .run) then t.ringStart replay [] else (t.replayOnce replay).endBoot t.cfg.startMode true).setSync .noPartner 0 0

/-- A complete claim key (R263): an audit record, a new epoch and the primary role. -/
def State.claimRole (replay : State → State) (s : State) : State :=
  let old := s.dpx.eSeen
  let t := (s.assumeRole replay).setSync .noPartner 0 0
  t.log 0x0506 7 ([0, 0, 0, 0] ++ le 4 t.dpx.eOwn.toNat ++ le 4 old.toNat)

/-- A word written to DPX_CLAIM (R263, R92): the second word of the key claims the role in WAIT_PEER; any other word is
counted in SYS_ACCFAULT.SEQ. -/
def State.claimWord (replay : State → State) (v : Word) (s : State) : State :=
  if s.dpx.state ≠ .waitPeer ∨ s.sys.mode = .boot then ({ s with dpx2 := { s.dpx2 with claimKey := none } }).seqErr Reg.dpxClaim
  else match keyStep 0x0000C1A1 0x00001A1C v s.sys.opNs s.dpx2.claimKey with
    | some (k, full) =>
      let t := { s with dpx2 := { s.dpx2 with claimKey := k } }
      if full then t.claimRole replay else t
    | none => ({ s with dpx2 := { s.dpx2 with claimKey := none } }).seqErr Reg.dpxClaim

end Sys2Proof.Machine
end

