-- ==== Sys2Proof/Machine/Net.lean ====
section
/-! DEFINITION. Port links, role beacons, ring supervision and peer subscriptions (spec/10_io_network.md R274, R275, R279,
R280, R291; spec/09_duplex_pair.md R252, R253, R258, R260). -/

namespace Sys2Proof.Machine

/-! Links (R274, R275). -/

/-- The cause for which a link that comes up is held down (Table 15.7, code 0x0601): 1 speed, 2 duplex, 3 transceiver. -/
def State.holdCause (s : State) (port : Nat) (speed : BitVec 2) (full typeOk : Bool) : Option Nat :=
  if port < 4 then
    (match s.cfg.rings.find port with
     | some r => if speed ≠ (if r.slow then 1 else 2) then some 1 else if !full then some 2 else none
     | none => if !full then some 2 else none)
  else if port < 6 then (if typeOk then none else some 3)
  else none

/-- A configured ring whose port is held counts as open (R274). -/
def State.ringHeld (port : Nat) (s : State) : State :=
  if port < 4 && s.ringSet port then s.updRingN port fun r => { r with opened := true } else s

/-- A link comes up. -/
def State.linkUp (port : Nat) (speed : BitVec 2) (full typeOk : Bool) (diag : List Byte) (s : State) : State :=
  let c := s.holdCause port speed full typeOk
  let t := { s with net := { s.net with ports := s.net.ports.upd port {} fun p =>
    { p with link := true, held := c.isSome, speed := speed, full := full, diag := if port = 4 ∨ port = 5 then diag else [] } } }
  match c with
  | some k => (t.ringHeld port).log 0x0601 3 [BitVec.ofNat 8 port, BitVec.ofNat 8 k]
  | none => t

/-- A link goes down. -/
def State.linkDown (port : Nat) (s : State) : State :=
  { s with net := { s.net with ports := s.net.ports.upd port {} fun p => { p with link := false, held := false, speed := 0, full := false, diag := [] } } }

/-- LINK_CHANGE; Table 10.8 gives NET_PORT no bits for the diagnostic values of a fitted transceiver (R275, log entry 126). -/
def execLinkChange (port : Fin 7) (up : Bool) (speed : BitVec 2) (full : Bool) (sfp : Sfp) (s : State) :
    Host.Outcome State Fault Refusal :=
  if !s.running then .next s
  else if up then done s (s.linkUp port speed full sfp.typeOk sfp.diag)
  else done s (s.linkDown port)

/-! Beacon slots (R252, R253, R279). -/

/-- The role beacon of this module on ring `r` (Table 10.4). -/
def State.sendBeacon (r : Nat) (s : State) : State :=
  s.sendFrame .beacon (0x50000 + r) r false (le 4 s.dpx.eSeen.toNat ++ le 4 (s.tim.ns / 50000))

/-- The beacons of a module that drives the plant, on every configured ring whose link is up (R252). -/
def State.sendBeacons (s : State) : State :=
  if s.drives then s.liveRings.foldl (fun (u : State) r => u.sendBeacon r) s else s

/-- The slot's observations of a ring, taken over (R279); a direction is missed only while the port's link is up. -/
def NRing.slot (x : NRing) (up : Bool) : NRing :=
  { x with east := x.curE, west := x.curW, curE := false, curW := false,
           missE := if x.curE || !up then 0 else x.missE + 1, missW := if x.curW || !up then 0 else x.missW + 1,
           both := if x.curE && x.curW then x.both + 1 else 0 }

/-- The supervision of ring `r` at the end of a slot (R279): three slots without beacons from one direction open it, 20 with
both close it. -/
def State.superviseRing (r : Nat) (s : State) : State :=
  let x := (s.nring r).slot (s.portUp r)
  let t := s.updRingN r fun _ => x
  if !x.opened && (decide (3 ≤ x.missE) || decide (3 ≤ x.missW)) then
    (t.updRingN r fun y => { y with opened := true, openCnt := y.openCnt + 1 }).log 0x0602 3
      [BitVec.ofNat 8 r, if 3 ≤ x.missE then 1 else 2]
  else if x.opened && decide (20 ≤ x.both) && !(s.net.ports.look r {}).held then t.updRingN r fun y => { y with opened := false }
  else t

/-- The module watches its rings: NE0 is loaded and the mode has a primary to hear (log entry 24). -/
def State.watchesRings (s : State) : Bool :=
  s.alive && (match s.sys.mode with
    | .retain | .boot | .idleLink | .faultHalt | .recovery => false
    | _ => true)

/-- A standby counts the slots without the primary's beacon on each ring (R252), and shows what the slot gave. -/
def State.countAbsent (s : State) : State :=
  let n := s.cfg.rings.keys.map fun r => (r, if s.dpx.slotHeard.getLsbD r then 0 else s.dpx2.absSlots.look r 0 + 1)
  { s with dpx2 := { s.dpx2 with absSlots := n }, dpx := { s.dpx with beaconHeard := s.dpx.slotHeard, slotHeard := 0 } }

/-- The live rings on which the primary's beacons are absent. -/
def State.absentMask (s : State) : BitVec 4 :=
  s.liveRings.foldl (fun m r => if s.beaconAbsent r then m ||| (1#4 <<< r) else m) 0

/-- RING_ABSENT (Table 9.9). -/
def State.showAbsent (s : State) : State := { s with dpx := { s.dpx with ringAbsent := decide (s.absentMask ≠ 0) } }

/-- A standby whose heartbeats go on while beacons are absent on a live ring reports each ring to the primary (R253), once while it
stays absent, and again when the pair comes in sync. -/
def State.reportAbsent (s : State) : State :=
  let m := s.absentMask
  let t := { s with dpx2 := { s.dpx2 with absRep := s.dpx2.absRep &&& m } }
  if m &&& ~~~t.dpx2.absRep ≠ 0 then
    ({ t with dpx2 := { t.dpx2 with absRep := m } }).notice 5 (m &&& ~~~t.dpx2.absRep).toNat t.lastCommit 0
  else t

/-- The end of a beacon slot on a standby of a pair. -/
def State.standbySlot (s : State) : State :=
  let t := s.countAbsent.showAbsent
  if t.takeoverDue then t.takeover
  else if !t.dpx2.failNote && (t.dpx.up0 || t.dpx.up1) && decide (t.sys.mode = .run) then t.reportAbsent
  else t

/-- A beacon slot (R252, R279). -/
def State.beaconSlot (s : State) : State :=
  let t := s.sendBeacons
  let u := if t.watchesRings then t.cfg.rings.keys.foldl (fun (v : State) r => v.superviseRing r) t else t
  if u.cfg.partner && !u.drives && u.watchesRings then u.standbySlot else u

/-- BEACON_SLOT. -/
def execBeaconSlot (s : State) : Host.Outcome State Fault Refusal :=
  if s.running then done s s.beaconSlot else .next s

/-! BEACON. -/

/-- The direction a copy of a beacon came from (R279): a module that drives watches its own beacons, any other those of its
partner. -/
def State.noteDirection (f : Kcp) (s : State) : State :=
  if f.src = (if s.drives then s.sys.nodeId else s.cfg.partnerNode) then
    s.updRingN f.port fun r => if f.west then { r with curW := true } else { r with curE := true }
  else s

/-- A standby hears the primary's beacon on a ring (R252). Modules of a pair never hold the same epoch (R258), so a beacon of another
node under the partner's epoch shows that the configurations do not name each other (R234; log entry 115). A module that drives and
meets its partner under a higher epoch has heard it when it becomes standby (R260). -/
def State.noteBeacon (f : Kcp) (s : State) : State :=
  if (!s.drives && f.src = s.cfg.partnerNode && f.epoch = s.dpx.partnerE) ||
      (s.drives && f.src = s.cfg.partnerNode && decide (s.dpx.eOwn < f.epoch)) then
    { s with dpx := { s.dpx with slotHeard := s.dpx.slotHeard ||| (1#4 <<< f.port) } }
  else if !s.drives && s.cfg.partner && s.dpx.partnerRole && f.src ≠ s.cfg.partnerNode && f.src ≠ s.sys.nodeId &&
      decide (f.epoch = s.dpx.partnerE) && decide (f.epoch ≠ 0) then
    { s with dpx2 := { s.dpx2 with misnamed := true } }
  else s

/-- The first copy of another module's beacon: its epoch, and E_seen of its payload (R258, R260, R261). -/
def State.useBeacon (f : Kcp) (s : State) : State :=
  ((s.meetEpoch f.port f.epoch).seeEpoch (BitVec.ofNat 32 (fieldN f.payload 0 4))).heardWhileListening

/-- NE0 takes the oldest of its beacon timestamps of a ring port once a beacon of its own has come back, to measure ring delay
(spec/11_time.md R313; log entry 127). -/
def State.ringDelay (p : Nat) (s : State) : State :=
  { s with tim := { s.tim with ports := s.tim.ports.upd p {} fun x => { x with queue := x.queue.eraseP fun e => e.tag.getLsbD 15 } } }

/-- A beacon arrives (R279, R280). -/
def State.beaconIn (f : Kcp) (s : State) : State :=
  let g := f.typed 5
  if !s.running || !s.portUp f.port then s
  else if !f.fcsOk then s.fcsBad f.port
  else if !s.headerOk g then s.discFrame f.port
  else
    let t := (s.noteDirection g).noteBeacon g
    if f.src = s.sys.nodeId then t.ringDelay f.port
    else
      let (first, u) := t.eliminate g none
      if first then u.useBeacon g else u

/-- BEACON. -/
def execBeacon (f : Kcp) (s : State) : Host.Outcome State Fault Refusal := done s (s.beaconIn f)

/-! Subscriptions (R290, R291). -/

/-- The subscriptions that read publications of the module `n`. -/
def State.subsOf (s : State) (n : BitVec 18) : List Nat :=
  (s.cfg.subs.filter fun e => decide (e.2.node = n ∨ e.2.node1 = n)).map Prod.fst

/-- `s` with subscription `i` changed by `f`. -/
def State.updSub (i : Nat) (f : Sub → Sub) (s : State) : State :=
  { s with net := { s.net with subs := s.net.subs.upd i {} f } }

/-- A frame that subscription `i` takes: one of its length (log entry 25), kept; a failed subscription recovers. -/
def State.takePeer (f : Kcp) (i : Nat) (s : State) : State :=
  if f.payload.length = (s.cfg.subs.look i {}).len then
    s.updSub i fun x => { x with data := f.payload, got := true, changed := x.changed || x.failed, failed := false }
  else s

/-- The first copy of a PEER frame (R291): a lower epoch than the highest of its publishing pair is discarded. -/
def State.usePeer (f : Kcp) (s : State) : State :=
  let is := s.subsOf f.src
  if is.any fun i => decide (f.epoch < (s.net.subs.look i {}).epoch) then s.discFrame f.port
  else is.foldl (fun (u : State) i => (u.updSub i fun x => { x with epoch := f.epoch }).takePeer f i) s

/-- PEER. -/
def execPeer (f : Kcp) (s : State) : Host.Outcome State Fault Refusal := done s (s.receive 8 none (fun t => t.usePeer f) f)

/-- PEER_TIMEOUT (R291). -/
def execPeerTimeout (sub : Nat) (s : State) : Host.Outcome State Fault Refusal :=
  if s.running && (s.cfg.subs.find sub).isSome && !(s.net.subs.look sub {}).failed then
    done s ((s.updSub sub fun x => { x with failed := true, changed := true }).log 0x0604 3
      ([BitVec.ofNat 8 sub, 0, 0, 0] ++ le 4 (s.cfg.subs.look sub {}).node.toNat))
  else .next s

end Sys2Proof.Machine
end

