-- ==== Sys2Proof/Machine/Cle.lean ====
section
/-! DEFINITION. The loop engines: samples, steps, creases, feedback loss and the loop windows (spec/07_loop_engines.md). -/

namespace Sys2Proof.Machine

/-- `s` with loop `n` changed by `f`. -/
def State.updLoop (n : Nat) (f : Loop → Loop) (s : State) : State := { s with cle := { s.cle with loops := s.cle.loops.upd n {} f } }

/-- Engine `e`. -/
def State.eng (s : State) (e : Nat) : Eng := s.cle.eng.look e {}

/-- `s` with engine `e` changed by `f`. -/
def State.updEng (e : Nat) (f : Eng → Eng) (s : State) : State := { s with cle := { s.cle with eng := s.cle.eng.upd e {} f } }

/-! Banks (R181, R192). -/

/-- The inactive bank, which is the staging copy. -/
def Loop.inactive (l : Loop) : Tab Word := if l.abank then l.bank0 else l.bank1
/-- A word written to the inactive bank. -/
def Loop.stage (l : Loop) (j : Nat) (w : Word) : Loop :=
  if l.abank then { l with bank0 := l.bank0.put j w } else { l with bank1 := l.bank1.put j w }

/-- A pending bank press is taken (R192): a valid inactive bank becomes active, and is copied to the other one. -/
def Loop.takeBank (c : LoopCfg) (l : Loop) : Loop :=
  if !l.bkPress.pend then l
  else if bankOk c (bankOf l.inactive) then
    { l with abank := !l.abank, bank0 := l.inactive, bank1 := l.inactive, bkPress := { l.bkPress with pend := false, refused := false } }
  else { l with bkPress := { l.bkPress with pend := false, refused := true } }

/-- An operating group is valid (Table 7.14). -/
def OpGrp.ok (g : OpGrp) : Bool :=
  decide (bits g.action 0 2 ≠ 3) && decide (g.sattime.toNat ≤ 60000000) && decide (g.frztime.toNat ≤ 60000000)

/-- A pending operating-group press is taken (R81, R208). -/
def Loop.takeOp (l : Loop) : Loop :=
  if !l.opPress.pend then l
  else if l.stg.ok then { l with op := l.stg, opPress := { l.opPress with pend := false, refused := false }, presses := l.presses + 1 }
  else { l with opPress := { l.opPress with pend := false, refused := true } }

/-! Which loops run (Table 2.2, R203, R43). -/

/-- The row of Table 2.2 that the outputs of class `c` follow: it finishes its cycle in the mode being left (R43). -/
def State.classMode (s : State) (c : Nat) : Mode := if (s.cls c).active then s.rowMode else s.outMode

/-! Loop signals of a station (Table 10.10). -/

/-- The loop entries of a parameter block: direction (1 output) and period in 25 µs. -/
def loopEntries (b : List Byte) : List (Bool × Nat) :=
  let o := (24 + fieldN b 2 2 + 3) / 4 * 4
  (List.range (fieldN b 18 1)).map fun i => (decide (fieldN b (o + 8 * i) 1 % 2 = 1), fieldN b (o + 8 * i + 2) 2)

/-- The different periods of a station's loop signals, rising (Table 10.3, PGRP). -/
def groupPeriods (es : List (Bool × Nat)) : List Nat :=
  (es.map Prod.snd).foldl (fun (l : List Nat) p => if l.contains p then l else (l.filter fun q => decide (q < p)) ++ [p] ++ (l.filter fun q => decide (p < q))) []

/-- The period group of entry `i`, and its place among the values of a frame of its group and direction. -/
def entryPlace (es : List (Bool × Nat)) (i : Nat) : Nat × Nat :=
  let e := es.getD i (false, 0)
  ((groupPeriods es).findIdx fun p => p == e.2, (es.take i).countP fun q => q == e)

/-- The loop entries of station `i`. -/
def State.stnLoops (s : State) (i : Nat) : List (Bool × Nat) := loopEntries (s.scfg i).param

/-- The sample number of a loop period of `ns` (R289): full time of the sample's phase 0 ÷ period. -/
def State.sampleNo (s : State) (ns : Nat) : Nat := if ns = 0 then 0 else s.tim.ns / ns

/-- The first copy of a LOOP_IN (R285, R289): kept if it names the current sample of its group, else late. -/
def State.takeLoopIn (i : Nat) (f : Kcp) (s : State) : State :=
  let t := (s.meetEpoch f.port f.epoch).restarted i (f.payload.headD 0)
  let ns := 25000 * ((groupPeriods (t.stnLoops i)).getD f.pgrp.toNat 0)
  if ns ≠ 0 ∧ f.cyc = BitVec.ofNat 16 (t.sampleNo ns) then
    { t with net := { t.net with loopIn := t.net.loopIn.put (i * 16 + f.pgrp.toNat) (f.cyc, t.tim.ns, f.payload.drop 4) } }
  else t.updRingN f.port fun r => { r with late := r.late + 1 }

/-- LOOP_IN. -/
def execLoopIn (f : Kcp) (s : State) : Host.Outcome State Fault Refusal :=
  match s.stnOf f.port f.src with
  | some i => done s (s.receive 4 (some i) (fun t => t.takeLoopIn i f) f)
  | none => done s (s.receive 4 none (fun t => t.meetEpoch f.port f.epoch) f)

/-! Sampling (R187, Table 7.1). -/

/-- What an AI has converted, and whether it is valid. -/
def State.aiNow (s : State) (ch : Nat) : Word × Bool := let a := s.fio.aio.look ch {}; (a.value, a.valid && !a.chanFault)

/-- The value of the input source `i` with key `k` of loop `n`, and whether it is valid: of an AI the conversion begun at phase 0, of a
station what had arrived by the data-ready time (R187). -/
def State.source (s : State) (n k : Nat) (i : InSrc) : Word × Bool :=
  let c := s.lcfg n
  let l := s.loop n
  match i.kind with
  | 1 => (l.conv.find k).getD (s.aiNow i.unit)
  | 2 => (if (s.fio.dio.look i.unit {}).state then one32 else 0, true)
  | 3 =>
    let (g, k) := entryPlace (s.stnLoops i.unit) i.idx
    (match s.net.loopIn.find (i.unit * 16 + g) with
     | some (m, t, b) => (BitVec.ofNat 32 (fieldN b (4 * k) 4),
         decide (m = BitVec.ofNat 16 l.sample) && decide (t ≤ l.sample * c.ns + i.readyNs) && !(s.stn i.unit).failed &&
           decide (4 * k + 4 ≤ b.length))
     | none => (0, false))
  | 4 =>
    let m := s.cmem i.cls
    (BitVec.ofNat 32 (unle ((if i.idx = 0 then m.image else m.globPub).rdN i.addr 4)), true)
  | 5 => ((s.loop i.unit).out, true)
  | _ => (0, true)

/-- The input is sampled at phase 0; a converter or a station delivers later, for the step (Table 7.5). -/
def InSrc.atPhase0 (i : InSrc) : Bool := decide (i.kind ≠ 1) && decide (i.kind ≠ 3)

/-- The key of the setpoint and of the scheduling variable among the sampled inputs. -/
abbrev spKey : Nat := 8
abbrev schKey : Nat := 9

/-- The inputs of a loop with their numbers, the setpoint and the scheduling variable among them. -/
def LoopCfg.inputs (c : LoopCfg) : List (Nat × InSrc) :=
  ((List.range c.ins.length).zip c.ins) ++ (if c.spExt then [(spKey, c.spSrc)] else []) ++ (if c.sched then [(schKey, c.schSrc)] else [])

/-- Input 0 is the feedback of the law (R184). -/
def LoopCfg.hasFb (c : LoopCfg) : Bool := !(decide (c.law = 9) && decide (c.k = 0)) && !c.ins.isEmpty

/-- One input of loop `n` is sampled: a value that is not finite leaves the last valid one in use and is counted (Table 7.1);
the feedback is taken as it comes. -/
def State.sampleOne (n : Nat) (e : Nat × InSrc) (s : State) : State :=
  let c := s.lcfg n
  let (w, ok) := s.source n e.1 e.2
  if e.1 = 0 && c.hasFb then s.updLoop n fun l => { l with fb := w, fbOk := ok }
  else if F32.isFinite w && ok then s.updLoop n fun l => { l with ins := l.ins.put e.1 w }
  else if F32.isFinite w then s
  else s.updEng (n / 1024) fun g => { g with nanin := g.nanin + 1 }

/-- A conversion of AI `ch` is delivered: the first one after phase 0 is that of the sample, for every loop that reads the channel
(R187); later ones, begun by a faster loop, leave it. -/
def State.deliver (ch : Nat) (s : State) : State :=
  (s.cfg.loops.flatMap fun (l : Nat × LoopCfg) => (l.2.inputs.filter fun e => decide (e.2.kind = 1 ∧ e.2.unit = ch)).map fun e => (l.1, e.1)).foldl
    (fun (t : State) e => t.updLoop e.1 fun l => if (l.conv.find e.2).isSome then l else { l with conv := l.conv.put e.2 (s.aiNow ch) }) s

/-- The inputs that meet `p` are sampled. -/
def State.sampleIns (n : Nat) (p : InSrc → Bool) (s : State) : State :=
  ((s.lcfg n).inputs.filter fun e => p e.2).foldl (fun (t : State) e => t.sampleOne n e) s

/-- The read-back value of a loop (R205): the channel's, the station's echo, or, where that is not valid, the last output. -/
def State.readback (s : State) (n : Nat) : Word :=
  let c := s.lcfg n
  let l := s.loop n
  match c.out.kind with
  | 1 => if (s.aio c.out.unit).chanFault then l.out else s.aioBack c.out.unit
  | 2 => if (s.fio.dio.look c.out.unit {}).rb then one32 else 0
  | 3 => (match c.out.echoAt with
      | some a => if (s.stn c.out.unit).failed then l.out else BitVec.ofNat 32 (fieldN (s.stn c.out.unit).echo a 4)
      | none => l.out)
  | _ => l.out

/-! Phase 0 (R200). -/

/-- A pending MANUAL, AUTO or REARM is taken at phase 0 (R199): MANUAL at once, with the live manual output at the output
last written; the others decide in this sample. -/
def Loop.takeRequests (l : Loop) : Loop :=
  let m := { l with nowRearm := l.rearmPend, nowAuto := l.autoReq && !l.manReq, nowMan := l.manReq, autoRef := l.op.mout,
                    rearmPend := false, autoReq := false, manReq := false }
  if l.manReq then { m with man := true, op := { m.op with mout := l.out } } else m

/-- A loop that may run and did not resumes (R203): through R207 unless it is in manual. -/
def Loop.resume (l : Loop) (runs : Bool) (uref : Word) : Loop :=
  if runs && !l.run then { l with run := true, bumpDue := !l.man, uref := uref }
  else if runs then l
  else { l with run := false }

/-- The record of an applied operating-group press (spec/09_duplex_pair.md Table 9.14, LOOP_GROUP). -/
def State.sendGroup (n : Nat) (s : State) : State :=
  let l := s.loop n
  if s.insync && s.sys.primary then
    (s.sendRec 7 false true (le 2 n ++ [0, 0] ++ le 4 l.op.safe.toNat ++ le 4 l.op.sattime.toNat ++ le 4 l.op.frztime.toNat ++
      le 4 l.op.action.toNat ++ le 4 l.presses.toNat)).backlogOver
  else s

/-- The loops of a standby in RUN hold the mirrored state (R203). -/
def State.tracks (s : State) : Bool := decide (s.sys.mode = .run) && !s.sys.primary

/-- Phase 0 of loop `n`; one that tracks the primary samples nothing (R203). The freeze time of the sample is that before a press
taken in it (Table 7.10). -/
def State.phase0 (n : Nat) (s : State) : State :=
  let c := s.lcfg n
  let old := (s.loop n).presses
  let t := s.updLoop n fun l => { l.resume (s.loopRuns n) (s.readback n) with
    stepped := false, sample := s.sampleNo c.ns, conv := [], frzOld := l.op.frztime }
  let t := if s.tracks then t else t.sampleIns n InSrc.atPhase0
  let t := t.updLoop n fun l => (l.takeRequests.takeOp).takeBank c
  if (t.loop n).presses = old then t else t.sendGroup n

/-- LOOP_PHASE0. -/
def execLoopPhase0 (slot : Nat) (s : State) : Host.Outcome State Fault Refusal :=
  if s.loopsUp && s.loopSet slot then .next (s.phase0 slot) else .next s

/-- The length of a minor frame of engine `e`, its shortest loop period, in ns (R190). -/
def State.minorNs (s : State) (e : Nat) : Nat :=
  (s.cfg.loops.filter fun l => decide (l.1 / 1024 = e)).foldl (fun m l => if m = 0 then l.2.ns else min m l.2.ns) 0

/-- The minor frame of number `i` begins (R191): its entries are walked in order. -/
def Eng.begin (i : Nat) (g : Eng) : Eng :=
  let fs := splitFrames g.frame
  let p := i % max 1 fs.length
  { g with runs := !g.frame.isEmpty, todo := fs.getD p [], endNs := 0, pos := p }

/-- MINOR_FRAME_START: a minor frame begins at a multiple of its length in full time, and with it phase 0 of its loops (R186, R190). -/
def execMinorFrameStart (e : Fin 4) (s : State) : Host.Outcome State Fault Refusal :=
  if s.loopsUp then .next (s.updEng e fun g => g.begin (s.tim.ns / max 1 (s.minorNs e))) else .next s

/-! The step of a sample (R196 to R200). -/

/-- Freeze detection (R197), under the freeze time before a press of this sample (Table 7.10). -/
def Loop.frozen (l : Loop) (c : LoopCfg) : Bool :=
  decide (l.frzOld ≠ 0) && decide (l.frzOld.toNat * 1000 < (l.frzN - 1) * c.ns)

/-- The run of samples that carry the same bits (R197). -/
def Loop.countFreeze (l : Loop) : Loop :=
  { l with frzN := if l.prevFb = some l.fb then l.frzN + 1 else 1, prevFb := some l.fb }

/-- A cause of Table 7.9 in this sample. -/
def Loop.cause (l : Loop) (c : LoopCfg) : Option Nat :=
  if !c.hasFb then none
  else if !l.fbOk then some 1
  else if !F32.isFinite l.fb then some 2
  else if l.frozen c then some 3
  else none

/-- The pending re-arm and the return to automatic (R199); a press of this sample comes after them (Table 7.10), so AUTO starts from
the manual output as the request found it (R207). -/
def Loop.decide_ (l : Loop) (cause : Option Nat) : Loop :=
  let a :=
    if l.nowRearm && l.fbl then
      (if cause.isSome then { l with cntRef := l.cntRef + 1 }
       else
         let man := l.nowMan || l.manBefore
         { l with fbl := false, man := man, bumpDue := !man, uref := l.out })
    else l
  let b := if a.nowAuto && !a.fbl && a.man then { a with man := false, bumpDue := true, uref := a.autoRef } else a
  { b with nowRearm := false, nowAuto := false, nowMan := false }

/-- The setpoint in use. -/
def Loop.setpoint (l : Loop) (c : LoopCfg) : Word := if c.spExt then l.ins.look spKey 0 else l.op.sp

/-- The law step of a loop in automatic (R194, R200 row 4). -/
def Loop.lawStep (l : Loop) (c : LoopCfg) (flip : Word) : Loop :=
  let bank := bankOf l.active
  let at_ := schedAt c bank (l.ins.look schKey 0)
  let co := effWord c bank at_
  let used := min 128 (c.bankWords bank)
  let eff : Tab Word := (List.range used).map fun j => (j, co j)
  let old := bankOf (if l.acoef.isEmpty then eff else l.acoef)
  let i : LawIn := { co := co, old := old, x := fun j => if j = 0 && c.hasFb then F32.daz l.fb else l.ins.look j 0,
                     sp := l.setpoint c, t := c.secs, st := fun j => l.dyn.look j 0,
                     bump := l.op.action.getLsbD 4 && decide (eff ≠ l.acoef) && !l.acoef.isEmpty,
                     init := if l.bumpDue then some l.uref else none }
  let r := Machine.lawStep c i
  let f := BitVec.ofInt 16 (F32.toIntScaled at_.2 65536)
  let m := { l with acoef := eff, schPt := BitVec.ofNat 4 at_.1, schF := f, schFrac := at_.2 }
  if F32.isNaN r.u then { m with newLoss := true, fblCause := 4 }
  else { m with dyn := (List.range r.st.length).zip r.st, latch := r.u, latchB := r.u ^^^ flip, bumpDue := false }

/-- One step of a loop. -/
def Loop.step (l : Loop) (c : LoopCfg) (flip : Word) : Loop :=
  let a := if c.hasFb then l.countFreeze else l
  let cz := a.cause c
  let b := { a.decide_ cz with stepped := true, latchB := a.latch }
  let b := if b.man && b.op.action.getLsbD 2 && !c.spExt && cz.isNone && c.hasFb then { b with op := { b.op with sp := b.fb } } else b
  if b.fbl then b
  else match cz with
    | some k => { b with newLoss := true, fblCause := BitVec.ofNat 3 k }
    | none => if b.man then b else b.lawStep c flip

/-- The end of the step of `slot` in the walk of the frame table, in 1/6 ns (R191): each step starts at the later of its
START and the end of the previous one. A clock of the engine is 5/6 ns. -/
def walkTo (slot : Nat) : List FrEnt → Nat → Option (Nat × List FrEnt)
  | [], _ => none
  | e :: es, t =>
    let f := max (12 * e.start) t + 5 * e.cost
    if e.slot = slot then some (f, es) else walkTo slot es f

/-- The least time from a step's end to its crease (CLE_ENG_SLACK). -/
def Eng.slackTo (g : Eng) (crease end_ : Nat) : Eng :=
  let d := crease - (end_ + 5) / 6
  { g with slack := if d < g.slack.toNat then BitVec.ofNat 32 d else g.slack }

/-- LOOP_STEP (R191): a step of the minor frame in progress, for a loop that runs; `flip` is what the odd engine of a checked
pair has otherwise. -/
def State.loopStep (n : Nat) (flip : Word) (s : State) : State :=
  match walkTo n (s.eng (n / 1024)).todo (s.eng (n / 1024)).endNs with
  | none => s
  | some (e, rest) =>
    let c := s.lcfg n
    let t := s.updEng (n / 1024) fun g => { g.slackTo c.creaseNs e with todo := rest, endNs := e }
    (t.sampleIns n fun i => !i.atPhase0).updLoop n fun l => l.step c flip

/-- LOOP_STEP. -/
def execLoopStep (slot : Nat) (flip : Word) (s : State) : Host.Outcome State Fault Refusal :=
  if s.loopsUp && s.loopSet slot && s.loopRuns slot && (s.loop slot).run then .next (s.loopStep slot flip) else .next s

/-! The crease (R188, R195, R198, R202, R206). -/

/-- A loop enters feedback loss (R198): the action MANUAL loads the live manual output with the last output. -/
def Loop.enterLoss (l : Loop) (cause : Nat) : Loop :=
  let m := { l with fbl := true, fblCause := BitVec.ofNat 3 cause, newLoss := false, manBefore := l.man, lossOut := l.out, cntFbl := l.cntFbl + 1 }
  if bits l.op.action 0 2 = 2 then { m with man := true, op := { m.op with mout := l.out } } else m

/-- A loop in loss whose action a press has set to MANUAL goes to manual (R198). -/
def Loop.lossManual (l : Loop) : Loop :=
  if l.fbl && decide (bits l.op.action 0 2 = 2) && !l.man then { l with man := true, op := { l.op with mout := l.lossOut } } else l

/-- The law output of this sample was NaN (Table 7.1): its crease writes the previous output, before the loss action. -/
def Loop.calcNow (l : Loop) : Bool := l.newLoss && !l.fbl && decide (l.fblCause = 4)

/-- The checked pair's latches differ at this crease (R202). -/
def Loop.mismatch (l : Loop) (c : LoopCfg) : Bool := c.chk && l.stepped && decide (l.latch ≠ l.latchB)

/-- What a loop writes at its crease after the loss action (R198, R199), before the mode override. -/
def Loop.value (l : Loop) (mis : Bool) : Word :=
  if l.fbl then
    (if bits l.op.action 0 2 = 1 then l.op.safe else if bits l.op.action 0 2 = 2 then l.op.mout else l.lossOut)
  else if l.man then l.op.mout
  else if mis then l.out
  else l.latch

/-- The value that the mode requires of a loop that does not run (R206, R43, R203): safe values, or the output held; none until a
loop starts after BOOT, which puts no value out (spec/02_modes_and_startup.md Table 2.2). -/
def State.idleValue (s : State) (n : Nat) : Option Word :=
  match s.outMode with
  | .takeover | .activate => some (s.loop n).out
  | .run | .test =>
    if s.cle.waitCommit && (s.sys.primary && (decide (s.outMode = .run) || s.cfg.plantEn)) then
      (if s.sys.from_ = .boot then none else some (s.loop n).out)
    else some (s.lcfg n).safe
  | _ => some (s.lcfg n).safe

/-- Loops write their outputs in this mode: not on a standby in RUN, which tracks (Table 2.2). -/
def State.loopsDrive (s : State) : Bool :=
  s.loopsUp && !(decide (s.outMode = .run) && !s.sys.primary)

/-- Saturation counting at a crease (R195): SAT clears with an output between the limits. -/
def Loop.saturate (l : Loop) (c : LoopCfg) (u : Word) : Loop × Bool :=
  let hi := F32.eq u (bankOf l.active 1)
  let at_ := hi || F32.eq u (bankOf l.active 0)
  let within := F32.lt (bankOf l.active 0) u && F32.lt u (bankOf l.active 1)
  if !at_ then ({ l with satN := 0, sat := l.sat && !within }, false)
  else
    let n := l.satN + 1
    if !l.sat && decide (l.op.sattime.toNat * 1000 < n * c.ns) then ({ l with satN := n, sat := true, satHi := hi, cntSat := l.cntSat + 1 }, true)
    else ({ l with satN := n, satHi := if l.sat then hi else l.satHi }, false)

/-- The LOOP_STATE entry of loop `n` (spec/09_duplex_pair.md Table 9.14). -/
def State.loopEntry (s : State) (n : Nat) : List Byte :=
  let l := s.loop n
  let w := (s.lcfg n).words
  le 2 n ++ [BitVec.ofNat 8 w, BitVec.ofNat 8 (bit l.abank)] ++ le 4 (s.loopStat n).toNat ++ le 4 l.out.toNat ++ le 4 l.fb.toNat ++
    le 4 l.op.sp.toNat ++ le 4 l.op.mout.toNat ++ le 4 l.creaseT.toNat ++ le 4 l.presses.toNat ++
    (List.range w).flatMap fun j => le 4 (l.dyn.look j 0).toNat

/-- The loop's state goes to the partner after this crease (R204): every crease from 1 ms on, else the last one before a
1 ms boundary. -/
def State.mirrorLoop (n : Nat) (s : State) : State :=
  let p := (s.lcfg n).ns
  if s.insync && s.sys.primary && (decide (1000000 ≤ p) || decide (s.tim.ns / 1000000 ≠ (s.tim.ns + p) / 1000000)) then
    (s.sendRec 6 false true (s.loopEntry n)).backlogOver
  else s

/-- A mismatch of the checked pair is counted; a second one in a row is feedback loss with cause CHECK (R202). -/
def State.checkPair (n : Nat) (s : State) : State :=
  let l := s.loop n
  if !l.mismatch (s.lcfg n) then s.updLoop n fun x => { x with chkHold := false }
  else
    let t := if n / 2048 = 0 then { s with cle := { s.cle with mm0 := s.cle.mm0 + 1 } } else { s with cle := { s.cle with mm1 := s.cle.mm1 + 1 } }
    t.updLoop n fun x => { x with chkHold := true, cntChk := x.cntChk + 1, newLoss := x.newLoss || (l.chkHold && !l.fbl),
                                  fblCause := if l.chkHold && !l.fbl then 5 else x.fblCause }

/-- A loss found in this sample takes hold, with its warning record (R198). -/
def State.takeLoss (n : Nat) (s : State) : State :=
  let l := s.loop n
  if l.newLoss && !l.fbl then
    (s.updLoop n fun x => x.enterLoss x.fblCause.toNat).log 0x0402 3
      (le 2 n ++ [BitVec.ofNat 8 l.fblCause.toNat, 0] ++ le 4 l.out.toNat)
  else s

/-- Saturation, with at most one notice record per loop per second (R195). -/
def State.countSat (n : Nat) (u : Word) (s : State) : State :=
  let (l, on) := (s.loop n).saturate (s.lcfg n) u
  let rec_ := on && l.op.action.getLsbD 3 && (match l.satEv with
    | none => true
    | some t0 => decide (t0 + 1000000000 ≤ s.sys.opNs))
  let t := s.updLoop n fun _ => { l with satEv := if rec_ then some s.sys.opNs else l.satEv }
  if rec_ then t.log 0x0401 2 (le 2 n ++ [BitVec.ofNat 8 (bit l.satHi)]) else t

/-- What loop `n` writes at its crease, if anything, and the state with what the crease finds of the loop (R198 to R206): a loop that
does not run writes the value that the mode requires. -/
def State.creaseOut (n : Nat) (s : State) : Option Word × State :=
  let run := (s.loop n).run && s.loopRuns n
  let mis := run && (s.loop n).mismatch (s.lcfg n)
  let t := if run then ((s.checkPair n).takeLoss n).updLoop n Loop.lossManual else s
  (if !run then t.idleValue n else some (if (s.loop n).calcNow then (s.loop n).out else (t.loop n).value mis), t)

/-- What a class reads of loop `n` is as at this crease (R189). -/
def State.noteCrease (n : Nat) (s : State) : State :=
  let w := s.loopStat n
  s.updLoop n fun l => { l with fbCrease := l.fb, statCrease := w }

/-- The crease of loop `n`: `write` puts the value on the output. A loop that tracks the primary keeps the mirrored state, and its output
is safe (R203, R205). -/
def State.crease (write : OutDst → Word → State → State) (n : Nat) (s : State) : State :=
  if s.tracks then write (s.lcfg n).out (s.lcfg n).safe s
  else
    let run := (s.loop n).run && s.loopRuns n
    match s.creaseOut n with
    | (none, t) => t.updLoop n fun l => { l with run := run, stepped := false }
    | (some u, t) =>
      let t := write (s.lcfg n).out u t
      let t := t.updLoop n fun l => { l with out := u, creaseT := t.short, run := run, stepped := false }
      ((((if run then t.countSat n u else t).noteCrease n)).mirrorLoop n).put (.loop n u)

/-! Requests through a window (R199, R208, R209). -/

/-- The slot that window `w` selects. -/
def State.winSlot (s : State) (w : Nat) : Nat := bits (s.reg (Reg.cleWinSel + 0x100 * w)) 0 12

/-- The initiator that window `w` belongs to (R209). -/
def winOwner (w : Nat) (ini : Ini) : Bool :=
  match ini with
  | .app p => decide (p = w) && decide (w < 4)
  | .host => decide (4 ≤ w)
  | _ => false

/-- The one writer of a loop (R208): 0 the application, 1 the host. -/
def ownerOk (owner : Nat) (ini : Ini) : Bool :=
  match ini with
  | .app _ => decide (owner = 0)
  | .host => decide (owner = 1)
  | _ => false

/-- A write through window `w` at `off`: by its owner, on a configured slot; `own` tells that the register has the one writer
of R208. -/
def State.viaWindow (w off : Nat) (own : Bool) (ini : Ini) (use : Nat → State → State) (s : State) : State :=
  if !winOwner w ini then s.roWr off
  else if !s.loopSet (s.winSlot w) then s.unassignedWr off false
  else if own && !ownerOk (s.lcfg (s.winSlot w)).owner ini then s.roWr off
  else use (s.winSlot w) s

/-- A request of CLE_LOOP_CMD: bit 0 REARM, bit 1 MANUAL, bit 2 AUTO. -/
def Loop.request (v : Word) (l : Loop) : Loop :=
  { l with rearmPend := l.rearmPend || v.getLsbD 0, manReq := l.manReq || v.getLsbD 1,
           autoReq := l.autoReq || (v.getLsbD 2 && !v.getLsbD 1) }

/-- A write of CLE_LOOP_CMD through window `w`. -/
def State.loopCmd (w : Nat) (ini : Ini) (v : Word) (s : State) : State :=
  s.viaWindow w (Reg.cleLoopCmd + 0x100 * w) true ini fun n t => t.updLoop n (Loop.request v)

/-- LOOP_CMD_REARM. -/
def execLoopCmdRearm (w : Fin 8) (ini : Ini) (s : State) : Host.Outcome State Fault Refusal :=
  if s.reach then done s (s.loopCmd w ini 1) else .next s

/-- LOOP_CMD_MANUAL. -/
def execLoopCmdManual (w : Fin 8) (ini : Ini) (s : State) : Host.Outcome State Fault Refusal :=
  if s.reach then done s (s.loopCmd w ini 2) else .next s

/-- LOOP_CMD_AUTO. -/
def execLoopCmdAuto (w : Fin 8) (ini : Ini) (s : State) : Host.Outcome State Fault Refusal :=
  if s.reach then done s (s.loopCmd w ini 4) else .next s

end Sys2Proof.Machine
end

