-- ==== Sys2Proof/Machine/Tim.lean ====
section
/-! DEFINITION. The local clock, the time domains, the servo, timestamps, captures and the time output
(spec/11_time.md). Frequencies are held in units of 2⁻¹⁶ × 10⁻⁹ ppb, so that R305 is exact. -/

namespace Sys2Proof.Machine

/-- `s` with the TIM block changed by `f`. -/
def State.updTim (f : Tim → Tim) (s : State) : State := { s with tim := f s.tim }

/-- `s` with domain `d` changed by `f`. -/
def State.updDom (d : Nat) (f : Dom → Dom) (s : State) : State :=
  s.updTim fun t => { t with doms := t.doms.upd d {} f }

/-- `s` with the time registers of port `p` changed by `f`. -/
def State.updTPort (p : Nat) (f : TPort → TPort) (s : State) : State :=
  s.updTim fun t => { t with ports := t.ports.upd p {} f }

/-- The TIM island runs (R300). -/
def State.timRuns (s : State) : Bool := s.running && decide (s.sys.mode ≠ .idleLink)

/-! The clock (R297). -/

/-- One ppb in the unit of f and I. -/
def ppbUnit : Int := 65536 * 1000000000

/-- One 500 MHz TIM clock (R297): 2 ns, and one 2 ns step more or less whenever the frequency adjustment has gathered one. -/
def Tim.tick (t : Tim) : Tim :=
  let whole : Int := 65536 * 1000000000000000000
  let g := t.frac + t.f
  if whole ≤ g then { t with ns := t.ns + 4, frac := g - whole }
  else if g ≤ -whole then { t with frac := g + whole }
  else { t with ns := t.ns + 2, frac := g }

/-! Sources and permissions. -/

/-- The standby follows its primary over the baste link (Table 11.2). -/
def State.basteOn (s : State) : Bool :=
  !s.sys.primary && !s.sys.lone && (s.dpx.up0 || s.dpx.up1) && s.dpx.partnerRole

/-- TIM_STAT.SRC_EFF (Table 11.7). -/
def State.srcEff (s : State) : Nat := if s.basteOn then 2 else bits (s.liveReg Reg.timCfg) 0 2

/-- A set of the local clock is permitted (R298): outside the named modes on a standby that is not in sync and executes no class. -/
def State.setPermitted (s : State) : Bool :=
  match s.sys.mode with
  | .boot | .stop | .recovery => true
  | .commission => !(s.cfg.loops.anyV fun l => l.comm)
  | _ => !s.executes && !s.sys.lone && !s.insync

/-- The preferred domain (Table 11.6, TIM_CFG). -/
def State.prefDom (s : State) : Nat := bits (s.liveReg Reg.timCfg) 3 1

/-- The selected domain. -/
def State.selDom (s : State) : Nat := bit s.tim.sel

/-- TIM_STEPMAX in force. -/
def State.stepMax (s : State) : Nat := (s.liveReg Reg.timStepmax).toNat

/-- TIM_STAT.HOLDOVER (R298, Table 11.7). -/
def State.inHoldover (s : State) : Bool := s.tim.holdover || (!s.tim.set && !s.setPermitted)

/-! The servo (R305). -/

/-- `x` held between `-l` and `l`. -/
def clampInt (l x : Int) : Int := max (-l) (min l x)

/-- The limit of I: 100,000 ppb. -/
def iLimit : Int := 100000 * ppbUnit

/-- An I held at its clamp is recorded once per 60 s. -/
def State.clampRecord (s : State) : State :=
  let due := match s.tim.iClampT with
    | none => true
    | some t => decide (t + 60000000000 ≤ s.sys.opNs)
  if s.tim.iClamp && due then
    (s.updTim fun t => { t with iClampT := some s.sys.opNs }).log 0x0704 3
      ([0, 0, 0, 0] ++ le 4 (BitVec.ofInt 32 (s.tim.iTerm / (ppbUnit / 1000))).toNat)
  else s

/-- One measurement feeds the servo: offset `theta`, `dns` ns after the previous one. -/
def State.servo (theta : Int) (dns : Nat) (s : State) : State :=
  let kp : Int := (s.liveReg Reg.timKp).toNat
  let ki : Int := (s.liveReg Reg.timKi).toNat
  let slew : Int := (s.liveReg Reg.timSlew).toNat * ppbUnit
  let i := clampInt iLimit (s.tim.iTerm + ki * theta * (min dns 1000000000 : Nat))
  let p := kp * theta * 1000000000
  (s.updTim fun t => { t with iTerm := i, f := i + clampInt slew p, holdover := false,
                              slewLim := decide (slew < |p|), iClamp := decide (|i| = iLimit) }).clampRecord

/-- No measurement feeds the servo: f holds at I. -/
def State.holdFreq (s : State) : State := s.updTim fun t => { t with f := t.iTerm, holdover := true }

/-! Domain states and the switch (R304, R308). -/

/-- A domain that may be selected. -/
def State.domGood (s : State) (d : Nat) : Bool := s.domLocked d && (s.dom d).agree

/-- The module switches to the other domain (R308): counted, recorded, I kept. -/
def State.switchDom (cause : Nat) (s : State) : State :=
  let from_ := s.selDom
  (s.updTim fun t => { t with sel := !t.sel, swCnt := t.swCnt + 1, prefSince := none, holdover := false }).log 0x0703 2
    [BitVec.ofNat 8 from_, BitVec.ofNat 8 (1 - from_), BitVec.ofNat 8 cause]

/-- The switch decisions after a measurement or a change of a domain's state (R308). -/
def State.decideSwitch (s : State) : State :=
  let d := s.selDom
  let st := (s.dom d).state
  let t :=
    if s.domEn d && (decide (st = .refused) || decide (st = .holdover)) then
      (if s.domGood (1 - d) then s.switchDom (if st = .refused then 1 else 2)
       else if s.srcEff = 2 then s else s.holdFreq)
    else s
  let on := decide (t.prefDom ≠ t.selDom) && t.domGood t.prefDom
  t.updTim fun x => { x with prefSince := if on then some (x.prefSince.getD s.sys.opNs) else none }

/-- Domain `d` enters a state (Table 11.3). -/
def State.enterDom (d : Nat) (st : DomState) (s : State) : State :=
  s.updDom d fun x =>
    { x with state := st, good := 0, prevT := if st = .acquiring then none else x.prevT,
             ofsMax := if st = .locked then x.ofs.natAbs else x.ofsMax }

/-- The state of domain `d` after an accepted measurement of offset `theta` (Table 11.3, R306). -/
def State.domStep (d : Nat) (theta : Int) (s : State) : State :=
  let x := s.dom d
  let near := decide (theta.natAbs ≤ 250)
  match x.state with
  | .acquiring =>
    if !near then s.updDom d fun y => { y with good := 0 }
    else if 8 ≤ x.good + 1 then s.enterDom d .locked
    else s.updDom d fun y => { y with good := y.good + 1 }
  | .holdover => if near then s.enterDom d .locked else s
  | .refused =>
    if s.stepMax < theta.natAbs then s.updDom d fun y => { y with good := 0 }
    else if 16 ≤ x.good + 1 then s.enterDom d .acquiring
    else s.updDom d fun y => { y with good := y.good + 1 }
  | _ => s

/-! Sets (R298, R307, R309). -/

/-- Four measurements lie on a straight line within 1 µs (R307): the line runs through the first and the fourth. -/
def onLine : List (Nat × Int) → Bool
  | [(t0, a), (t1, b), (t2, c), (t3, d)] =>
    let w : Int := (t3 : Int) - t0
    let far (t : Nat) (x : Int) : Bool := decide (|(x - a) * w - (d - a) * ((t : Int) - t0)| ≤ 1000 * w)
    decide (0 < w) && far t1 b && far t2 c
  | _ => false

/-- The slope of such a line in the unit of f. -/
def lineSlope : List (Nat × Int) → Int
  | [(t0, a), _, _, (t3, d)] => (d - a) * 1000000000 * ppbUnit / ((t3 : Int) - t0)
  | _ => 0

/-- The last four of a list of measurements with one more. -/
def push4 (l : List (Nat × Int)) (x : Nat × Int) : List (Nat × Int) :=
  let m := l ++ [x]
  m.drop (m.length - 4)

/-- The domain of R307 that sets the clock: with SET 0 the preferred one if it qualifies within its first four
measurements, otherwise the first to qualify; `d` has just delivered. -/
def State.chooseSet (d : Nat) (s : State) : Option Nat :=
  let ok (k : Nat) : Bool := s.domEn k && onLine (s.dom k).last4
  let p := s.prefDom
  if s.tim.set then (if ok d then some d else none)
  else if ok p then some p
  else if s.domEn p && decide ((s.dom p).last4.length < 4) then none
  else if ok (1 - p) then some (1 - p) else none

/-- A domain beyond TIM_STEPMAX while a set is permitted (R307). -/
def State.qualify (d : Nat) (at_ : Nat) (theta : Int) (s : State) : State :=
  let t := s.updDom d fun x => { x with last4 := push4 x.last4 (at_, theta) }
  match t.chooseSet d with
  | some k =>
    let l := (t.dom k).last4
    let ofs := (l.getLast?.map Prod.snd).getD 0
    t.updTim fun x => { x with pend := some { src := k, ofs := ofs, slope := some (lineSlope l) } }
  | none => t

/-- The local clock takes its new value (R298, R309): recorded and counted, SET 1, every REFUSED state ended, and every cycle
number computed afresh (spec/05_cyclic_execution.md R129). -/
def State.setClock (p : TimSet) (s : State) : State :=
  let new := ((s.tim.ns : Int) + p.ofs).toNat
  let i := match p.slope with
    | some m => clampInt iLimit (s.tim.f + m)
    | none => s.tim.iTerm
  let t := s.updTim fun x => { x with
    ns := new, set := true, setCnt := x.setCnt + 1, pend := none, iTerm := i, f := i, iClamp := decide (|i| = iLimit),
    holdover := false, baste4 := [], bastePrev := none, basteHeld := none,
    doms := x.doms.mapV fun y => { y with last4 := [], prevT := none, used := true, measts := [],
                                          state := if y.state = .refused then .acquiring else y.state,
                                          good := if y.state = .refused then 0 else y.good } }
  t.numberCycles.log 0x0701 2 ([BitVec.ofNat 8 (if p.slope.isSome then 1 else 2), BitVec.ofNat 8 p.src, 0, 0] ++ le 6 s.secs ++ le 4 s.nanos ++
    le 6 t.secs ++ le 4 t.nanos)

/-- CLOCK_SET (R309): a decided set or realign takes effect, where a set is still permitted. -/
def execClockSet (s : State) : Host.Outcome State Fault Refusal :=
  match s.tim.pend with
  | none => .next s
  | some p =>
    if s.timRuns && s.setPermitted then done s (s.setClock p)
    else .next (s.updTim fun t => { t with pend := none })

/-! Measurements (R303 to R309). -/

/-- What every measurement updates: the offset and AGREE. -/
def State.noteOfs (d : Nat) (theta : Int) (s : State) : State :=
  s.updDom d fun x => { x with ofs := theta, ofsMax := max x.ofsMax theta.natAbs, agree := decide (theta.natAbs ≤ s.stepMax),
                               lastAny := some s.sys.opNs }

/-- A measurement beyond TIM_STEPMAX is refused (R306). -/
def State.refuseMeas (d : Nat) (theta : Int) (s : State) : State :=
  let t := (s.enterDom d .refused).updTim fun x => { x with stepCnt := x.stepCnt + 1 }
  (t.log 0x0702 3 ([BitVec.ofNat 8 d, 0, 0, 0, 0, 0, 0, 0] ++ le 8 (BitVec.ofInt 64 theta).toNat ++
    le 8 (t.dom d).gmid.toNat)).decideSwitch

/-- An accepted measurement (R304, R305, R307): the domain's state, then the servo or the set it leads to. -/
def State.acceptMeas (d at_ : Nat) (theta : Int) (host : Bool) (s : State) : State :=
  let x := s.dom d
  let dns := match x.prevT with
    | some p => at_ - p
    | none => 0
  let big := decide (s.stepMax < theta.natAbs)
  let t := s.updDom d fun y => { y with prevT := some at_, acc := if host then y.acc + 1 else y.acc,
                                        last4 := if big then y.last4 else [] }
  let t := t.domStep d theta
  let feeds := decide (d = s.selDom) && decide (s.srcEff ≠ 2) && decide (x.state ≠ .refused) && !big
  let t := if feeds then t.servo theta dns else t
  (if big && decide (s.srcEff ≠ 2) then t.qualify d at_ theta else t).decideSwitch

/-- A measurement of domain `d`, its offset `theta` having held at local time `at_` (R298, R306, R309). -/
def State.domMeasure (d at_ : Nat) (theta : Int) (host : Bool) (s : State) : State :=
  if s.tim.pend.isSome then s
  else
    let t := s.noteOfs d theta
    if !t.tim.set && !t.setPermitted then t.updDom d fun y => { y with prevT := some at_ }
    else if t.stepMax < theta.natAbs ∧ t.setPermitted = false then t.refuseMeas d theta
    else t.acceptMeas d at_ theta host

/-- SYNC_MEASUREMENT (R302): a Sync of domain `d` gives the offset `theta` and the grandmaster's identity. -/
def execSyncMeasurement (d : Fin 2) (theta : Int) (gm : DWord) (s : State) : Host.Outcome State Fault Refusal :=
  if s.timRuns && s.domEn d.val && decide (bits (s.liveReg Reg.timCfg) 0 2 = 0) then
    done s ((s.updDom d.val fun x => { x with gmid := gm }).domMeasure d.val s.tim.ns theta false)
  else .next s

/-- A host measurement is rejected (R303). -/
def State.measBad (s : State) (d : Nat) (meas : Int) : Bool :=
  let x := s.dom d
  let age := shortDiff s.short x.meast
  decide (age < 0) || decide (1000000000 < age) || decide (999999999 < |meas|) || x.used || x.measts.contains x.meast

/-- A submission of a host measurement (R303). -/
def State.submitMeas (d : Nat) (val : Word) (s : State) : State :=
  let x := s.dom d
  let meas := val.toInt
  let age := shortDiff s.short x.meast
  let keep := (x.measts.filter fun m => decide (0 ≤ shortDiff s.short m) && decide (shortDiff s.short m ≤ 1000000000)) ++ [x.meast]
  let t := s.updDom d fun y => { y with used := true, measts := keep }
  if s.measBad d meas then t.updDom d fun y => { y with rej := y.rej + 1 }
  else t.domMeasure d (s.tim.ns - age.toNat) (x.measS.toInt * 1000000000 + meas) true

/-- The host may write measurements of domain `d`: it is the source (R302, R303), and the domain is enabled. -/
def State.hostMeasures (s : State) (d : Nat) : Bool := decide (bits (s.liveReg Reg.timCfg) 0 2 = 1) && s.domEn d

/-- A word written to TIM_DOM_MEAS of domain `d`. -/
def State.writeMeas (d : Nat) (val : Word) (s : State) : State :=
  if !s.hostMeasures d then s.roWr (Reg.timDomMeas + 0x40 * d)
  else if s.timRuns then s.submitMeas d val else s

/-- TIM_DOM_MEAS (R303). -/
def execTimDomMeas (d : Fin 2) (val : Word) (s : State) : Host.Outcome State Fault Refusal :=
  if s.reach then done s (s.writeMeas d.val val) else .next s

/-- DOMAIN_HOLDOVER (R304): no accepted measurement for 3 s. -/
def execDomainHoldover (d : Fin 2) (s : State) : Host.Outcome State Fault Refusal :=
  if s.timRuns && s.domLocked d.val then done s (s.enterDom d.val .holdover).decideSwitch else .next s

/-- HOLDOVER_TIMEOUT (R304). -/
def execHoldoverTimeout (d : Fin 2) (s : State) : Host.Outcome State Fault Refusal :=
  if s.timRuns && s.domEn d.val && decide ((s.dom d.val).state = .holdover) then done s (s.enterDom d.val .acquiring)
  else .next s

/-- REVERT_TIMER (R308): the preferred domain has been LOCKED and AGREE for 60 s without a break. -/
def execRevertTimer (s : State) : Host.Outcome State Fault Refusal :=
  if s.timRuns && decide (bits (s.liveReg Reg.timCfg) 2 1 = 1) && decide (s.prefDom ≠ s.selDom) && s.domGood s.prefDom then
    done s (s.switchDom 3)
  else .next s

/-! The baste source (R302, spec/09_duplex_pair.md R239). -/

/-- The offset that a heartbeat gives, arriving now (R239). -/
def State.basteTheta (s : State) (hb : Hb) : Int :=
  (shortDiff hb.prevRx hb.prevTx + shortDiff hb.txTime s.short) / 2

/-- A baste measurement disciplines the local clock (R302): beyond TIM_STEPMAX, where a set is permitted, four on a line
set it; otherwise it feeds the servo. -/
def State.basteMeasure (theta : Int) (s : State) : State :=
  let now := s.tim.ns
  if s.tim.pend.isSome || (!s.tim.set && !s.setPermitted) then s
  else if s.stepMax < theta.natAbs ∧ s.setPermitted = true then
    let l := push4 s.tim.baste4 (now, theta)
    s.updTim fun t => { t with baste4 := l, bastePrev := some now,
                               pend := if onLine l then some { src := 2, ofs := theta, slope := some (lineSlope l) } else none }
  else
    let dns := match s.tim.bastePrev with
      | some p => now - p
      | none => 0
    (s.servo theta dns).updTim fun t => { t with baste4 := [], bastePrev := some now }

/-- What a heartbeat of the primary gives a standby's clock (R239): one measurement per lane, and the mean when both lanes
deliver; the measurement of a lane whose next heartbeat comes before the other lane's is used alone. -/
def State.basteTime (lane : Bool) (hb : Hb) (s : State) : State :=
  if !(s.timRuns && !s.sys.primary && !s.sys.lone && hb.role && s.dpx.up lane) then s
  else
    let th := s.basteTheta hb
    if !s.dpx.up (!lane) then (s.updTim fun t => { t with basteHeld := none }).basteMeasure th
    else match s.tim.basteHeld with
      | some (l, other) =>
        if l = lane then (s.updTim fun t => { t with basteHeld := some (lane, th) }).basteMeasure other
        else (s.updTim fun t => { t with basteHeld := none }).basteMeasure ((th + other) / 2)
      | none => s.updTim fun t => { t with basteHeld := some (lane, th) }

/-! The realign key (R310). -/

/-- Domain `d` has delivered a measurement within the last 3 s. -/
def State.freshDom (s : State) (d : Nat) : Bool :=
  s.domEn d && (match (s.dom d).lastAny with
    | some t => decide (s.sys.opNs ≤ t + 3000000000)
    | none => false)

/-- A complete realign key: the set to the selected domain, or failing that to the preferred one, is decided. -/
def State.realign (s : State) : State :=
  let d := if s.freshDom s.selDom then s.selDom else s.prefDom
  if s.freshDom d then s.updTim fun t => { t with pend := some { src := d, ofs := (s.dom d).ofs } } else s

/-- A word written to TIM_REALIGN. -/
def State.realignWord (v : Word) (s : State) : State :=
  let clear := s.updTim fun t => { t with realignKey := none }
  if !s.setPermitted then clear.seqErr Reg.timRealign
  else match keyStep 0x00007E5A 0x0000A5E7 v s.sys.opNs s.tim.realignKey with
    | some (k, full) =>
      let t := s.updTim fun x => { x with realignKey := k }
      if full then t.realign else t
    | none => clear.seqErr Reg.timRealign

/-- TIM_REALIGN (R310). -/
def execTimRealign (val : Word) (s : State) : Host.Outcome State Fault Refusal :=
  if s.reach then done s (s.realignWord val) else .next s

/-! Timestamps, launches, captures and the time output. -/

/-- The time registers of a port. -/
def State.tport (s : State) (p : Nat) : TPort := s.tim.ports.look p {}

/-- TX_TIMESTAMP (R313, R314). -/
def execTxTimestamp (port : Fin 7) (tag : BitVec 16) (frac : BitVec 2) (s : State) : Host.Outcome State Fault Refusal :=
  if !s.timRuns then .next s
  else
    let e : TsEnt := { tag := tag, frac := frac, seclo := BitVec.ofNat 8 s.secs, ns := BitVec.ofNat 32 s.nanos }
    .next (s.updTPort port.val fun p =>
      if 64 ≤ p.queue.length then { p with lost := p.lost + 1 } else { p with queue := p.queue ++ [e] })

/-- The sender takes the timestamp of a frame from its port's queue (R313). -/
def State.takeStamp (p : Nat) (tag : BitVec 16) (s : State) : Option State :=
  if (s.tport p).queue.any fun e => e.tag == tag then
    some (s.updTPort p fun x => { x with queue := x.queue.filter fun e => e.tag != tag })
  else none

/-- LAUNCH_LATE (R316): the frame is discarded and counted. -/
def execLaunchLate (port : Fin 7) (s : State) : Host.Outcome State Fault Refusal :=
  if s.timRuns then .next (s.updTPort port.val fun p => { p with late := p.late + 1 }) else .next s

/-- The edge is selected by TIM_CAP_CFG (Table 11.6). -/
def State.capSelected (s : State) (c : Nat) (rising : Bool) : Bool :=
  let m := bits (s.reg Reg.timCapCfg) (2 * c) 2
  if rising then decide (m = 1 ∨ m = 3) else decide (m = 2 ∨ m = 3)

/-- CAPTURE_EDGE (R318). -/
def execCaptureEdge (inp : Fin 2) (rising : Bool) (frac : BitVec 2) (s : State) : Host.Outcome State Fault Refusal :=
  if !(s.timRuns && s.capSelected inp.val rising) then .next s
  else
    let near := match (s.tim.caps.look inp.val {}).last with
      | some t => decide (s.sys.opNs < t + 1000)
      | none => false
    let f (c : Cap) : Cap :=
      if near then { c with missed := c.missed + 1 }
      else { c with ns := BitVec.ofNat 32 s.nanos, slo := BitVec.ofNat 32 s.secs, frac := frac, edge := rising,
                    count := c.count + 1, last := some s.sys.opNs }
    .next (s.updTim fun t => { t with caps := t.caps.upd inp.val {} f })

/-- TOUT_EDGE (R319): TOUT rises, or falls; a period of 0 holds it low. -/
def execToutEdge (s : State) : Host.Outcome State Fault Refusal :=
  let up := !s.tim.tout
  if !s.timRuns || (up && decide (s.liveReg Reg.timToutPeriod = 0)) then .next s
  else .next ((s.updTim fun t => { t with tout := up }).put (.tout up))

/-! The precision time protocol (R301, R311). -/

/-- Domain `d` is carried on port `p` (Table 11.6, TIM_DOM_CFG). -/
def State.carries (s : State) (d p : Nat) : Bool :=
  s.domEn d && decide (bits (s.reg (Reg.timDomCfg + 0x40 * d)) (16 + p) 1 = 1)

/-- The profile of domain `d` (Table 11.1). -/
def State.profile (s : State) (d : Nat) : Nat := bits (s.reg (Reg.timDomCfg + 0x40 * d)) 9 2

/-- Port `p` carries a domain whose delay mechanism is end-to-end, or peer-to-peer. -/
def State.delayOn (s : State) (e2e : Bool) (p : Nat) : Bool :=
  [0, 1].any fun d => s.carries d p && (decide (s.profile d = 2) == e2e)

/-- The node identifier that the ring time domain's clock identity is derived from: the side-0 module's (R311). -/
def State.side0Node (s : State) : BitVec 18 := if s.cfg.partner && s.side then s.cfg.partnerNode else s.sys.nodeId

/-- A message leaves through port `p`. -/
def State.sendPtp (p : Nat) (m : PtpMsg) (s : State) : State :=
  s.put (.ptp p m (if p < 4 then s.side0Node else s.sys.nodeId))

/-- PTP_MESSAGE (R311): an Announce gives the grandmaster's identity; a peer-delay request is answered; a delay response
ends a measurement whose transmit timestamp is there (R314), and gives the link delay. -/
def execPtpMessage (port : Fin 7) (m : PtpMsg) (d : Fin 2) (gm : DWord) (tag : BitVec 16) (ns : Word) (s : State) :
    Host.Outcome State Fault Refusal :=
  let p := port.val
  if !(s.timRuns && s.portUp p) then .next s
  else match m with
    | .announce => if s.carries d.val p then .next (s.updDom d.val fun x => { x with gmid := gm }) else .next s
    | .pdelayReq =>
      if (decide (p < 4) && s.ringSet p) || s.delayOn false p then .next (s.sendPtp p .pdelayResp) else .next s
    | .pdelayResp => match s.takeStamp p tag with
      | some t => .next (t.updTPort p fun x => { x with pdelay := ns })
      | none => .next s
    | .delayResp => match s.takeStamp p tag with
      | some t => .next t
      | none => .next s
    | .sync | .followUp | .delayReq => .next s

/-- The module sends message `m` on port `p` (R301, R311): on its rings only the primary sends, as grandmaster; elsewhere the
module is never grandmaster and sends its own delay requests. -/
def State.maySend (s : State) (p : Nat) (m : PtpMsg) : Bool :=
  match m with
  | .announce | .sync | .followUp => decide (p < 4) && s.ringSet p && s.drives
  | .pdelayReq => if p < 4 then s.ringSet p && s.drives else s.delayOn false p
  | .delayReq => decide (4 ≤ p) && s.delayOn true p
  | .pdelayResp | .delayResp => false

/-- PTP_TRANSMIT (R311); a Follow_Up carries the timestamp of its Sync. -/
def execPtpTransmit (port : Fin 7) (m : PtpMsg) (tag : BitVec 16) (s : State) : Host.Outcome State Fault Refusal :=
  let p := port.val
  if !(s.timRuns && s.portUp p && s.maySend p m) then .next s
  else match m with
    | .followUp => match s.takeStamp p tag with
      | some t => .next (t.sendPtp p m)
      | none => .next s
    | _ => .next (s.sendPtp p m)

end Sys2Proof.Machine
end

