-- ==== Sys2Proof/Machine/Fio.lean ====
section
/-! DEFINITION. The FIO sequencer: digital inputs and outputs, analogue channels, trim and HART
(spec/13_local_field_io.md). -/

namespace Sys2Proof.Machine

/-- The FIO sequencer runs (R342). -/
def State.fioRuns (s : State) : Bool := s.running && s.fio.run && decide (s.sys.mode ≠ .idleLink)

/-- A full-word write of `v` to the register at `off` of the posted FIO block (spec/03_register_conventions.md R70). -/
def State.postFio (off : Nat) (v : Word) (mean : Option Int) (s : State) : State := s.postTo 0x090000 off v mean

/-- A write of operation `op` to the trim control of channel `n` (R360). -/
def State.postTrim (n : Nat) (op : Word) (mean : Option Int) (s : State) : State :=
  s.postFio (Reg.fioAioTrimcmd + 0x40 * n) op mean

/-! Digital inputs (R344). -/

/-- DI_FILTER_CHANGE: the counter reaches full (`level` true) or empty. -/
def execDiFilterChange (ch : Fin 32) (level : Bool) (s : State) : Host.Outcome State Fault Refusal :=
  let n := ch.val
  let d := s.dio n
  if !(s.fioRuns && s.dioSet n) || s.dioOut n || d.state == level then .next s
  else
    let full := bits (s.liveReg (Reg.fioDioFilt + 0x20 * n)) 0 8
    .next (s.updDio n fun x => { x with state := level, rb := level, c := if level then full else 0, chg := x.chg + 1 })

/-! Local outputs (R342, Table 2.2). -/

/-- The committed output image that class `c` reads its local outputs from. -/
def State.outImage (s : State) (c : Nat) : Mem := let m := s.cmem c; if m.idx then m.pub1 else m.pub0

/-- An output of class `c` at address `a` is forced (R42, R147). -/
def State.forcedAt (s : State) (c a : Nat) : Bool :=
  s.cyc.forces.any fun f => f.cls == c && f.output &&
    (match s.prog.vars.find f.elem.handle.toNat with
     | some v => decide (v.addr + f.elem.off ≤ a) && decide (a < v.addr + f.elem.off + f.elem.val.length)
     | none => false)

/-- What an output of class `c` at address `a` carries in the mode (Table 2.2): the image, its safe value, the value it has, or
the mode's own state; `enabled` tells that it is enabled for commissioning. -/
inductive Carry where
  | image | safe | keep | dead
deriving DecidableEq, Repr

/-- The choice of Table 2.2 for such an output. -/
def State.carryOf (s : State) (c a : Nat) (enabled : Bool) : Carry :=
  match s.classMode c with
  | .commission => if enabled then .image else .safe
  | .test => if s.forcedAt c a || s.cfg.plantEn then (if (s.cmem c).preRun then .keep else .image) else .safe
  | .run => if !s.sys.primary then .safe else if (s.cmem c).preRun then .keep else .image
  | .stop | .recovery => .safe
  | .takeover | .activate => .keep
  | .retain | .boot | .idleLink | .faultHalt | .hold => .dead

/-- The local digital outputs of class `c` at its apply instant. -/
def State.applyDio (c n a : Nat) (s : State) : State :=
  match s.carryOf c a (s.cfg.commDio.contains n) with
  | .image => s.driveDio n (decide ((s.outImage c).rd a ≠ 0))
  | .safe => s.driveDio n (s.cfg.dioSafe.contains n)
  | .keep | .dead => s

/-- The local analogue outputs of class `c` at its apply instant. -/
def State.applyAio (c n a : Nat) (s : State) : State :=
  match s.carryOf c a (s.cfg.commAio.contains n) with
  | .image => s.driveAo n (BitVec.ofNat 32 (unle ((s.outImage c).rdN a 4)))
  | .safe => s.driveSafe n
  | .keep | .dead => s

/-- The read-back of DIO channel `n` is the pin level `v` (R346). -/
def State.readPin (n : Nat) (v : Bool) (s : State) : State :=
  if s.dioSet n then s.updDio n fun d => { d with rb := v, rberr := d.rberr && decide (d.level ≠ some v) } else s

/-- LOCAL_APPLY (R342): the outputs of class `c` are written; `pins` is what the read-back comparators show before. -/
def execLocalApply (c : Fin 8) (pins : Word) (s : State) : Host.Outcome State Fault Refusal :=
  if !s.fioRuns then .next s
  else
    let k := s.ccfg c.val
    let t := k.dout.foldl (fun (u : State) e => u.readPin e.1 (pins.getLsbD e.1)) s
    let t := k.dout.foldl (fun (u : State) e => u.applyDio c.val e.1 e.2) t
    .next (k.aout.foldl (fun (u : State) e => u.applyAio c.val e.1 e.2) t)

/-- The word that stands for a half (R341). -/
def half32 : Word := 0x3F000000

/-- A loop writes its local output (R341, R355). -/
def State.writeOut (o : OutDst) (u : Word) (s : State) : State :=
  if !s.fioRuns then s
  else match o.kind with
    | 1 => s.driveAo o.unit u
    | 2 => s.driveDio o.unit (F32.leq half32 u)
    | _ => s

/-- RBERR_ONSET (R346). -/
def execRberrOnset (ch : Fin 32) (s : State) : Host.Outcome State Fault Refusal :=
  let n := ch.val
  let d := s.dio n
  if !(s.fioRuns && s.dioOut n) || d.rberr || d.tripped || d.latched || d.feedLost then .next s
  else .next (s.updDio n fun x => { x with rberr := true, rbCnt := x.rbCnt + 1, rb := !x.state })

/-! Trips (R347, R348). -/

/-- RETRYMAX in force. -/
def State.retryMax (s : State) (n : Nat) : Nat := bits (s.liveReg (Reg.fioDioRetry + 0x20 * n)) 16 8

/-- The flag and the code of a trip. -/
def Dio.markTrip (d : Dio) (h : Trip) : Dio :=
  match h with
  | .ovl => { d with ovl := true, rb := false }
  | .shortSup => { d with shortSup := true, rb := true }
  | .therm => { d with therm := true }

/-- The cause of a trip in record 0x0901. -/
def tripCode : Trip → Nat
  | .ovl => 1 | .shortSup => 2 | .therm => 3

/-- The output can trip in this way: it drives, high for the high switch and low for the low one. -/
def Dio.canTrip (d : Dio) (h : Trip) : Bool :=
  match h, d.level with
  | .ovl, some v => v
  | .shortSup, some v => !v
  | .therm, some _ => true
  | _, none => false

/-- An output trips (R347): the first trip of a run is recorded; the trip of a retry counts in RETRIES, and at RETRYMAX the
output latches, with RETRYMAX 0 at its first trip (R348). -/
def State.trip (n : Nat) (h : Trip) (s : State) : State :=
  let d := s.dio n
  let again := match d.retryAt with
    | some t => decide (s.sys.opNs ≤ t + 2000000)
    | none => false
  let r := if again then d.retries + 1 else d.retries
  let latch := if again then decide (s.retryMax n ≤ r) else decide (s.retryMax n = 0)
  let f (x : Dio) : Dio :=
    { x.markTrip h with tripped := true, runOn := true, retries := min 255 r, trips := x.trips + 1, rberr := false,
                        latched := latch, latches := if latch then x.latches + 1 else x.latches }
  let t := (s.updDio n f).put (.dio n none)
  let t := if d.runOn || again then t else t.log 0x0901 3 [BitVec.ofNat 8 n, BitVec.ofNat 8 (tripCode h)]
  if latch then t.log 0x0902 4 [BitVec.ofNat 8 n, BitVec.ofNat 8 (min 255 r)] else t

/-- DIO_TRIP. -/
def execDioTrip (ch : Fin 32) (how : Trip) (s : State) : Host.Outcome State Fault Refusal :=
  if s.fioRuns && s.dioOut ch.val && (s.dio ch.val).canTrip how then .next (s.trip ch.val how) else .next s

/-- The flags of a trip are gone while the output drives. -/
def Dio.untrip (d : Dio) : Dio := { d with tripped := false, latched := false, ovl := false, shortSup := false, therm := false }

/-- DIO_RETRY (R348): the output drives its value in force again. -/
def execDioRetry (ch : Fin 32) (s : State) : Host.Outcome State Fault Refusal :=
  let d := s.dio ch.val
  if s.fioRuns && s.dioOut ch.val && d.tripped && !d.latched then
    .next (s.driveWith ch.val fun x => { x.untrip with retryAt := some s.sys.opNs })
  else .next s

/-- RETRIES_RESET (R348): one second without a trip. -/
def execRetriesReset (ch : Fin 32) (s : State) : Host.Outcome State Fault Refusal :=
  if s.fioRuns && s.dioOut ch.val then .next (s.updDio ch.val fun d => { d with retries := 0, runOn := false })
  else .next s

/-- The latched outputs of a mask are re-armed (R348). -/
def State.rearm (v : Word) (s : State) : State :=
  (List.range 32).foldl (fun (t : State) n =>
    if v.getLsbD n && t.dioOut n && (t.dio n).latched then
      t.driveWith n fun d => { d.untrip with retries := 0, runOn := false, retryAt := none }
    else t) s

/-- FIO_DIO_REARM (R348). -/
def execFioDioRearm (val : Word) (s : State) : Host.Outcome State Fault Refusal :=
  if s.regLive Reg.fioDioRearm then done s (s.postFio Reg.fioDioRearm val none) else .next s

/-! Feeds (R350). -/

/-- A feed group is present. -/
def State.feedOn (s : State) (g : Nat) : Bool := if g = 0 then s.fio.feed0 else s.fio.feed1

/-- A feed group is lost or returns: its outputs drive only low, or their values in force again. -/
def State.setFeed (g : Nat) (b : Bool) (s : State) : State :=
  let f := if g = 0 then { s.fio with feed0 := b } else { s.fio with feed1 := b }
  (List.range 16).foldl (fun (t : State) i =>
    let n := 16 * g + i
    if t.dioOut n then t.driveWith n fun d => { d with feedLost := !b, rberr := d.rberr && b } else t) { s with fio := f }

/-- FEED_LOST: with the feed voltage in mV. -/
def execFeedLost (group : Fin 2) (mv : Word) (s : State) : Host.Outcome State Fault Refusal :=
  if s.fioRuns && s.feedOn group.val then
    .next ((s.setFeed group.val false).log 0x0903 4 ([BitVec.ofNat 8 group.val, 0, 0, 0] ++ le 4 mv.toNat))
  else .next s

/-- FEED_RETURN. -/
def execFeedReturn (group : Fin 2) (s : State) : Host.Outcome State Fault Refusal :=
  if s.fioRuns && !s.feedOn group.val then .next (s.setFeed group.val true) else .next s

/-! Analogue inputs (R352 to R354). -/

/-- A loop reads or writes AIO channel `n`. -/
def loopUses (n : Nat) (l : LoopCfg) : Bool :=
  (l.ins.any fun i => decide (i.kind = 1) && decide (i.unit = n)) || (decide (l.out.kind = 1) && decide (l.out.unit = n))

/-- The trimmed value of a factory-trimmed one (R361). -/
def Aio.trim (a : Aio) (x : Int) : Int :=
  match a.cal with
  | some (mLo, rLo, mHi, rHi) => if mHi = mLo then x else rLo + (x - mLo) * (rHi - rLo) / (mHi - mLo)
  | none => x

/-- STAT.CODE of a trimmed conversion in 0.1 µA or µV (R354, Tables 13.1, 13.2). -/
def aiCode (range : Nat) (multi full fault : Bool) (y : Int) : Nat :=
  if multi then 6
  else if fault then 5
  else if range = 4 then (if full ∨ 10500000 ≤ y then 4 else if 10250000 < y then 2 else 0)
  else if full ∨ 210000 ≤ y then 4
  else if 205000 < y then 2
  else if range = 3 then 0
  else if y ≤ 36000 then 3
  else if y < 38000 then 1 else 0

/-- The engineering value of a measurement `y` of AI `n` (R353). -/
def State.aiValue (s : State) (n : Nat) (y : Int) : Word :=
  match s.aioRange n with
  | 3 => s.engValue n y 200000
  | 4 => s.engValue n y 10000000
  | _ => s.engValue n (y - 40000) 160000

/-- The mean of the last conversions, as AVG gives it (R352); a channel that a loop reads reports each conversion alone. -/
def State.aiMean (s : State) (n : Nat) (y : Int) : List Int × Int :=
  let avg := if s.cfg.loops.anyV (fun l => loopUses n l) then 0 else min 8 (bits (s.liveReg (Reg.fioAioRate + 0x40 * n)) 16 4)
  let l := (s.aio n).avg ++ [y]
  let l := l.drop (l.length - 2 ^ avg)
  (l, l.sum / l.length)

/-- The entry into LOW_FAIL or HIGH_FAIL is counted, and recorded at most once per second and channel (R354). -/
def State.aiFailure (n code : Nat) (y : Int) (s : State) : State :=
  let a := s.aio n
  if decide (code = 3 ∨ code = 4) && decide (a.code.toNat ≠ code) then
    let due := match a.warnT with
      | some t => decide (t + 1000000000 ≤ s.sys.opNs)
      | none => true
    let t := s.updAio n fun x =>
      { x with cLow := if code = 3 then x.cLow + 1 else x.cLow, cHigh := if code = 4 then x.cHigh + 1 else x.cHigh,
               warnT := if due then some s.sys.opNs else x.warnT }
    if due then t.log 0x0904 3 ([BitVec.ofNat 8 n, BitVec.ofNat 8 code, 0, 0] ++ le 4 (BitVec.ofInt 32 y).toNat) else t
  else s

/-- An AI conversion of the factory-trimmed value `x`. -/
def State.convert (n : Nat) (x : Int) (full fault : Bool) (s : State) : State :=
  let y := (s.aio n).trim x
  let multi := bits (s.aioCfg n) 3 1 = 1
  let code := aiCode (s.aioRange n) multi full (fault || (s.aio n).chanFault) y
  let (l, m) := s.aiMean n y
  let t := s.aiFailure n code y
  let bad := decide (5 ≤ code)
  t.updAio n fun a => { a with code := BitVec.ofNat 3 code, valid := decide (code ≤ 2),
                               raw := if bad then a.raw else BitVec.ofInt 24 y, value := if bad then a.value else s.aiValue n m,
                               avg := if bad then a.avg else l }

/-- AI_CONVERSION (R352): `x` is the factory-trimmed measurement, `full` converter full scale, `fault` a transfer, converter or
store failure. -/
def execAiConversion (ch : Fin 16) (x : Int) (full fault : Bool) (s : State) : Host.Outcome State Fault Refusal :=
  let n := ch.val
  if s.fioRuns && s.aioSet n && decide (1 ≤ s.aioRange n ∧ s.aioRange n ≤ 4) then .next ((s.convert n x full fault).deliver n) else .next s

/-! Analogue outputs (R357 to R359). -/

/-- The onset of OPEN or COMPLY: counted and recorded. -/
def State.aoOnset (n what m : Nat) (s : State) : State :=
  (s.updAio n fun a => { a with openW := a.openW || decide (what = 1), comply := a.comply || decide (what = 2), cAo := a.cAo + 1,
                                raw := BitVec.ofNat 24 m }).log 0x0905 3
    ([BitVec.ofNat 8 n, BitVec.ofNat 8 what, 0, 0] ++ le 4 m ++ le 4 (BitVec.ofInt 32 (s.aio n).cmd).toNat)

/-- AO_COMPLY: the measured current differs from the command. -/
def execAoComply (ch : Fin 16) (tenthUa : Nat) (s : State) : Host.Outcome State Fault Refusal :=
  let a := s.aio ch.val
  if s.fioRuns && s.aioOut ch.val && !a.comply && decide (5000 ≤ tenthUa) && decide (2000 < |(tenthUa : Int) - a.cmd|) then
    .next (s.aoOnset ch.val 2 tenthUa)
  else .next s

/-- AO_OPEN: no current flows where 3.5 mA or more is commanded. -/
def execAoOpen (ch : Fin 16) (tenthUa : Nat) (s : State) : Host.Outcome State Fault Refusal :=
  let a := s.aio ch.val
  if s.fioRuns && s.aioOut ch.val && !a.openW && decide (tenthUa < 5000) && decide (35000 ≤ a.cmd) then
    .next (s.aoOnset ch.val 1 tenthUa)
  else .next s

/-- AO_CONDITION_CLEAR: the measured current is within 0.1 mA of the command. -/
def execAoConditionClear (ch : Fin 16) (tenthUa : Nat) (s : State) : Host.Outcome State Fault Refusal :=
  if s.fioRuns && s.aioOut ch.val && decide (|(tenthUa : Int) - (s.aio ch.val).cmd| ≤ 1000) then
    .next (s.updAio ch.val fun a => { a with openW := false, comply := false, raw := BitVec.ofNat 24 tenthUa })
  else .next s

/-- PWR_LIM (R359): the store of a channel reaches `e` in 0.01 mJ: 0 limits the draw until it is back at 4 mJ. -/
def execPwrLim (ch : Fin 16) (e : Nat) (s : State) : Host.Outcome State Fault Refusal :=
  if s.fioRuns && s.aioSet ch.val then
    .next (s.updAio ch.val fun a =>
      { a with store := min 1600 e, pwrLim := decide (e = 0) || (a.pwrLim && decide (e < 400)),
               cPwr := if decide (e = 0) && !a.pwrLim then a.cPwr + 1 else a.cPwr })
  else .next s

/-- The outputs of a strap's group take the current that the strap gives them (R357). -/
def State.restrap (g : Nat) (s : State) : State :=
  (List.range 8).foldl (fun (t : State) i =>
    let n := 8 * g + i
    if (t.aio n).failout then t.driveFail n else if (t.aio n).zero then t.driveZero n else t) s

/-- STRAP_CHANGE (R357). -/
def execStrapChange (g : Fin 2) (fitted : Bool) (s : State) : Host.Outcome State Fault Refusal :=
  let was := if g.val = 0 then s.fio.strap0 else s.fio.strap1
  if !s.fioRuns || was == fitted then .next s
  else
    let f := if g.val = 0 then { s.fio with strap0 := fitted } else { s.fio with strap1 := fitted }
    .next (({ s with fio := f }).restrap g.val |>.log 0x0906 2 [BitVec.ofNat 8 g.val, BitVec.ofNat 8 (bit fitted)])

/-! Trim (R360, R361). -/

/-- Trim is refused for reason 1 of Table 13.3: mode, a running loop, or an output enabled for commissioning. -/
def State.trimBarred (s : State) (n : Nat) : Bool :=
  !(decide (s.sys.mode = .commission) || decide (s.sys.mode = .test)) ||
    (s.cfg.loops.any fun e => loopUses n e.2 && s.loopRuns e.1) || (s.aioOut n && s.cfg.commAio.contains n)

/-- A trim operation is refused (R361). -/
def State.trimRefuse (n why : Nat) (s : State) : State := s.updAio n fun a => { a with step := 4, why := BitVec.ofNat 4 why }

/-- A trim operation on channel `n`: its checks of reason 1, then `f`. -/
def State.trimOp (n : Nat) (f : State → State) (s : State) : State :=
  if !s.aioSet n then s else if s.trimBarred n then s.trimRefuse n 1 else f s

/-- The trim points of channel `n` (R360) and 5 % of its span, in 0.1 µA or µV. -/
def State.trimPoint (s : State) (n : Nat) (hi : Bool) : Int × Int :=
  match s.aioRange n with
  | 4 => (if hi then 10000000 else 2000000, 500000)
  | 3 => (if hi then 200000 else 40000, 10000)
  | _ => (if hi then 200000 else 40000, 8000)

/-- TRIMST.STEP of a trim in progress (Table 13.4). -/
def Aio.trimStep (a : Aio) : BitVec 3 :=
  if a.mLo.isSome && a.mHi.isSome then 2 else if a.mLo.isSome then 1 else if a.driven then 5 else 0

/-- A point is captured: the reference, and the mean of an AI or the commanded point of an AO. -/
def State.capture (n : Nat) (hi : Bool) (mean : Int) (s : State) : State :=
  let r : Int := bits (s.reg (Reg.fioAioTrimref + 0x40 * n)) 0 24
  let (p, tol) := s.trimPoint n hi
  let m := if s.aioOut n then p else mean
  if tol < |r - p| then s.trimRefuse n 2
  else s.updAio n fun a =>
    let b := if hi then { a with mHi := some m, rHi := r } else { a with mLo := some m, rLo := r }
    { b with trimActive := true, why := 0, step := b.trimStep }

/-- CAPT_LO: `mean` is the mean of 256 untrimmed conversions of an AI. -/
def execCaptLo (ch : Fin 16) (mean : Int) (s : State) : Host.Outcome State Fault Refusal :=
  if s.regLive (Reg.fioAioTrimcmd + 0x40 * ch.val) then done s (s.postTrim ch.val 1 (some mean)) else .next s

/-- CAPT_HI. -/
def execCaptHi (ch : Fin 16) (mean : Int) (s : State) : Host.Outcome State Fault Refusal :=
  if s.regLive (Reg.fioAioTrimcmd + 0x40 * ch.val) then done s (s.postTrim ch.val 2 (some mean)) else .next s

/-- The gain or an offset lies outside the limits of reason 4 (Table 13.3). -/
def trimBad (volts : Bool) (mLo rLo mHi rHi : Int) : Bool :=
  let lim : Int := if volts then 100000 else 2000
  decide (mHi - mLo ≤ 0) || decide (100 * (rHi - rLo) < 98 * (mHi - mLo)) || decide (102 * (mHi - mLo) < 100 * (rHi - rLo)) ||
    decide (lim < |rLo - mLo|) || decide (lim < |rHi - mHi|)

/-- The record of a trim stored or reset (Table 15.7, code 0x0907). -/
def State.trimRecord (n op : Nat) (mLo rLo mHi rHi : Int) (s : State) : State :=
  let f (x : Int) : List Byte := le 4 (BitVec.ofInt 32 x).toNat
  s.log 0x0907 2 ([BitVec.ofNat 8 n, BitVec.ofNat 8 op, 0, 0] ++ f mLo ++ f rLo ++ f mHi ++ f rHi)

/-- The trim captured is stored. -/
def State.trimStore (n : Nat) (s : State) : State :=
  let a := s.aio n
  match a.mLo, a.mHi with
  | some mLo, some mHi =>
    if s.pwr.pfail then s.trimRefuse n 3
    else if trimBad (decide (s.aioRange n = 4)) mLo a.rLo mHi a.rHi then s.trimRefuse n 4
    else (s.updAio n fun x => { x with cal := some (mLo, x.rLo, mHi, x.rHi), mLo := none, mHi := none, trimActive := false,
                                       driven := false, step := 3, why := 0 }).trimRecord n 3 mLo a.rLo mHi a.rHi
  | _, _ => s.trimRefuse n 5

/-- STORE. -/
def execStore (ch : Fin 16) (s : State) : Host.Outcome State Fault Refusal :=
  if s.regLive (Reg.fioAioTrimcmd + 0x40 * ch.val) then done s (s.postTrim ch.val 3 none) else .next s

/-- The trim in progress is abandoned. -/
def State.trimDiscard (n : Nat) (s : State) : State :=
  s.updAio n fun a => { a with trimActive := false, driven := false, mLo := none, mHi := none, step := 0, why := 0 }

/-- DISCARD. -/
def execDiscard (ch : Fin 16) (s : State) : Host.Outcome State Fault Refusal :=
  if s.regLive (Reg.fioAioTrimcmd + 0x40 * ch.val) then done s (s.postTrim ch.val 4 none) else .next s

/-- The user trim is erased; a trim in progress goes on, and an AO at a trim point stays there (R360, log entry 110). -/
def State.trimFactory (n : Nat) (s : State) : State :=
  if s.pwr.pfail then s.trimRefuse n 3
  else
    let (mLo, rLo, mHi, rHi) := (s.aio n).cal.getD (0, 0, 0, 0)
    (s.updAio n fun a => { a with cal := none, step := a.trimStep, why := 0 }).trimRecord n 5
      mLo rLo mHi rHi

/-- FACTORY. -/
def execFactory (ch : Fin 16) (s : State) : Host.Outcome State Fault Refusal :=
  if s.regLive (Reg.fioAioTrimcmd + 0x40 * ch.val) then done s (s.postTrim ch.val 5 none) else .next s

/-- An AO drives a trim point under its factory trim. -/
def State.trimDrive (n : Nat) (hi : Bool) (s : State) : State :=
  if !s.aioOut n then s.trimRefuse n 5
  else
    let i := (s.trimPoint n hi).1
    (s.updAio n fun a => { a with cmd := i, raw := BitVec.ofInt 24 i, trimActive := true, driven := true, step := 5, why := 0,
                                  failout := false, zero := false }).put (.aio n i)

/-- DRIVE_LO. -/
def execDriveLo (ch : Fin 16) (s : State) : Host.Outcome State Fault Refusal :=
  if s.regLive (Reg.fioAioTrimcmd + 0x40 * ch.val) then done s (s.postTrim ch.val 6 none) else .next s

/-- DRIVE_HI. -/
def execDriveHi (ch : Fin 16) (s : State) : Host.Outcome State Fault Refusal :=
  if s.regLive (Reg.fioAioTrimcmd + 0x40 * ch.val) then done s (s.postTrim ch.val 7 none) else .next s

/-! HART (R362 to R364). -/

/-- `s` with the HART transactions changed by `f`. -/
def State.updHart (f : Hart → Hart) (s : State) : State := { s with fio := { s.fio with hart := f s.fio.hart } }

/-- HART runs in this mode (R362), on channel `n` with HART enabled. -/
def State.hartRuns (s : State) (n : Nat) : Bool :=
  s.fioRuns && s.aioSet n && decide (bits (s.aioCfg n) 9 1 = 1) &&
    (match s.sys.mode with
     | .commission | .test | .stop | .run | .hold | .takeover | .activate | .recovery => true
     | _ => false)

/-- The devices of channel `n`: one on a point-to-point channel. -/
def State.hartDevs (s : State) (n : Nat) : Nat := if bits (s.aioCfg n) 3 1 = 1 then bits (s.aioCfg n) 10 4 else 1

/-- Bytes `0` to `k - 1` of the host's request (R364). -/
def State.hartReq (s : State) (k : Nat) : List Byte :=
  ((List.range ((k + 3) / 4)).flatMap fun i => le 4 (s.reg (Reg.fioHartHreq + 4 * i)).toNat).take k

/-- The next request of source `src` on channel `n`: its device and its bytes; the polling addresses of a multidrop channel begin at 1
(R362). -/
def State.hartWants (s : State) (n src : Nat) : Option (Nat × List Byte) :=
  let h := s.fio.hart
  if src = 0 then
    (if h.due.contains n then
      let d := h.pollDev.look n 0
      some (d, [BitVec.ofNat 8 (if bits (s.aioCfg n) 3 1 = 1 then d + 1 else 0), 3, 0]) else none)
  else if src = 1 then (match h.clsQ.look n [] with
    | q :: _ => some (0, q)
    | [] => none)
  else if h.host = some n then some (0, s.hartReq (bits (s.reg Reg.fioHartHctl) 8 8)) else none

/-- The request of a source leaves its queue. -/
def State.hartPop (n src : Nat) (s : State) : State :=
  s.updHart fun h =>
    if src = 0 then { h with due := h.due.filter fun c => c != n,
                             pollDev := h.pollDev.put n ((h.pollDev.look n 0 + 1) % max 1 (s.hartDevs n)) }
    else if src = 1 then { h with clsQ := h.clsQ.upd n [] List.tail }
    else { h with host := none }

/-- Channel `n` starts the transaction of the next source in turn that has one (R364). -/
def State.hartNext (n : Nat) (s : State) : State :=
  if s.hartBusy n then s
  else
    let k := s.fio.hart.next.look n 0
    match [k % 3, (k + 1) % 3, (k + 2) % 3].find? fun src => (s.hartWants n src).isSome with
    | none => s
    | some src =>
      let (d, q) := (s.hartWants n src).getD (0, [])
      ((s.hartPop n src).updHart fun h => { h with run := h.run.put n (src, d), next := h.next.put n ((src + 1) % 3) }).put (.hart n q)

/-- HART_POLL (R363). -/
def execHartPoll (ch : Fin 16) (s : State) : Host.Outcome State Fault Refusal :=
  let n := ch.val
  if !s.hartRuns n || decide (s.hartDevs n = 0) then .next s
  else .next ((s.updHart fun h => { h with due := if h.due.contains n then h.due else h.due ++ [n] }).hartNext n)

/-- GO of the host mailbox (R364): `v` is the word written to FIO_HART_HCTL. A GO while the mailbox is busy is discarded and leaves its
offset in SYS_ACCADDR (spec/03_register_conventions.md R66). -/
def State.hartGo (v : Word) (s : State) : State :=
  let n := bits v 0 4
  if s.fio.hart.hstat = 1 then (s.updHart fun h => { h with lost := h.lost + 1 }).accAddr Reg.fioHartHctl false
  else
    let t := s.setReg Reg.fioHartHctl (v &&& 0x0000FF0F#32)
    if !s.hartRuns n then t.updHart fun h => { h with hstat := 3, why := 3, bytes := 0 }
    else if bits v 8 8 = 0 then t.updHart fun h => { h with hstat := 3, why := 4, bytes := 0 }
    else (t.updHart fun h => { h with hstat := 1, why := 0, bytes := 0, host := some n }).hartNext n

/-- HART_HCTL_GO (R364): a write of FIO_HART_HCTL with GO. -/
def execHartHctlGo (val : Word) (s : State) : Host.Outcome State Fault Refusal :=
  if s.regLive Reg.fioHartHctl then done s (s.postFio Reg.fioHartHctl (val ||| 0x10000#32) none) else .next s

/-- A poll of device `d` on channel `n` ends (R363): three failed polls in a row mark it absent. -/
def State.pollEnd (n d : Nat) (out : HartEnd) (s : State) : State :=
  match out with
  | .answer b =>
    s.updAio n fun a => { a with devs := a.devs ||| (1#8 <<< d), absent := a.absent.put d 0,
                                 vals := a.vals.put d (b.take 18), answered := a.answered.put d s.sys.opNs }
  | _ =>
    let f := (s.aio n).absent.look d 0 + 1
    s.updAio n fun a => { a with absent := a.absent.put d f, devs := if 3 ≤ f then a.devs &&& ~~~(1#8 <<< d) else a.devs }

/-- A transaction of the host mailbox ends (Table 13.4, FIO_HART_HSTAT). -/
def Hart.hostEnd (h : Hart) (out : HartEnd) : Hart :=
  match out with
  | .answer b => { h with hstat := 2, bytes := BitVec.ofNat 8 b.length, why := 0, rsp := padTo 272 (b.take 272) }
  | .silent => { h with hstat := 3, bytes := 0, why := 1 }
  | .checkByte => { h with hstat := 3, bytes := 0, why := 2 }

/-- A transaction of the class's queue ends: its response joins the responses. -/
def Hart.classEnd (h : Hart) (n : Nat) (out : HartEnd) : Hart :=
  { h with clsR := h.clsR.upd n [] fun l => l ++ [match out with
    | .answer b => b
    | _ => []] }

/-- HART_TRANSACTION_END (R362): with the retries it took. -/
def State.hartEnd (n : Nat) (out : HartEnd) (retries : Nat) (s : State) : State :=
  match s.fio.hart.run.find n with
  | none => s
  | some (src, d) =>
    let good := match out with
      | .answer _ => true
      | _ => false
    let t := s.updAio n fun a => { a with hRetries := a.hRetries + BitVec.ofNat 8 retries,
                                          hFailed := if good then a.hFailed else a.hFailed + 1 }
    let t := t.updHart fun h => { h with run := h.run.del n }
    let t := if src = 0 then t.pollEnd n d out
      else if src = 1 then t.updHart fun h => h.classEnd n out
      else t.updHart fun h => h.hostEnd out
    t.hartNext n

/-- HART_TRANSACTION_END. -/
def execHartTransactionEnd (ch : Fin 16) (out : HartEnd) (retries : Nat) (s : State) : Host.Outcome State Fault Refusal :=
  if s.hartRuns ch.val then .next (s.hartEnd ch.val out retries) else .next s

/-- HART_BURST_MESSAGE (R362): the master receives a burst-mode message. -/
def execHartBurstMessage (ch : Fin 16) (bytes : List Byte) (s : State) : Host.Outcome State Fault Refusal :=
  if s.hartRuns ch.val then .next (s.updHart fun h => { h with burst := h.burst.put ch.val bytes }) else .next s

end Sys2Proof.Machine
end

