-- ==== Sys2Proof/Machine/Can.lean ====
section
/-! DEFINITION. The CAN channels (spec/12_can.md): filtering, queues, attempts, errors and bus-off. -/

namespace Sys2Proof

/-- The code of an error kind (Table 12.12, CAN_ERRINFO). -/
def CanErr.code : CanErr → Nat
  | .stuff => 1 | .form => 2 | .ack => 3 | .bit1 => 4 | .bit0 => 5 | .crc => 6

/-- The bytes of an entry's header that describe the frame (Table 12.7, bytes 0 to 15). -/
def CanEnt.head (e : CanEnt) (retry : Nat) : List Byte :=
  le 4 (e.id.toNat + bit e.ide * 2 ^ 29 + bit e.rtr * 2 ^ 30) ++
    [BitVec.ofNat 8 (e.fmt.toNat + 4 * bit e.brs + 8 * bit e.esi + 16 * retry), e.sdt] ++ le 2 e.dlc.toNat ++ le 4 e.af.toNat ++
    [e.vcid, BitVec.ofNat 8 (bit e.sec), 0, 0]

end Sys2Proof

namespace Sys2Proof.Machine

/-- The channel is bus-on or listens: it takes part in its bus. -/
def State.canLive (s : State) (c : Nat) : Bool := s.running && s.canSet c && !(s.chan c).off && decide ((s.chan c).estate.toNat ≤ 1)

/-- The channel sends (R325): bus-on, and neither bus-off nor recovering. -/
def State.canSends (s : State) (c : Nat) : Bool := s.canLive c && !(s.chan c).listen

/-- CAN FD is enabled (R322). -/
def State.canFd (s : State) (c : Nat) : Bool := bits (s.canCfg c) 4 1 = 1

/-- CAN XL is enabled (R323). -/
def State.canXl (s : State) (c : Nat) : Bool := decide (6 ≤ c) && decide (bits (s.canCfg c) 5 1 = 1)

/-- A frame format that the channel enables (R322, R323). -/
def State.canFmt (s : State) (c : Nat) (f : BitVec 2) : Bool :=
  if f = 0 then true else if f = 1 then s.canFd c else if f = 2 then s.canXl c else false

/-! Queues (R331). -/

/-- DSLOT in bytes. -/
def State.dslot (s : State) (c : Nat) : Nat :=
  match bits (s.canCfg c) 12 2 with
  | 0 => 8
  | 1 => 64
  | _ => 2048

/-- The size code k of queue `q`: 0 TXQ, 1 RXQ0, 2 RXQ1. -/
def State.qk (s : State) (c q : Nat) : Nat := bits (s.canCfg c) (if q = 0 then 24 else if q = 1 then 16 else 20) 4

/-- The 16-bit field at byte `o` of the control block of queue `q`. -/
def CanQ.ctl16 (x : CanQ) (q o : Nat) : Nat := unle ((x.ctl.look q []).rdN o 2)

/-- `x` with a 16-bit field of a control block written. -/
def CanQ.setCtl16 (x : CanQ) (q o v : Nat) : CanQ := { x with ctl := x.ctl.upd q [] fun m => m.wrN o (le 2 v) }

/-- WIDX of a receive queue. -/
def CanQ.widx (x : CanQ) (q : Nat) : BitVec 16 := if q = 1 then x.w0 else x.w1

/-- RIDX of a receive queue, as the owner wrote it. -/
def CanQ.ridx (x : CanQ) (q : Nat) : BitVec 16 := BitVec.ofNat 16 (x.ctl16 q 32)

/-- The address of the entry that index `i` of queue `q` refers to. -/
def State.entAt (s : State) (c q : Nat) (i : BitVec 16) : Nat := i.toNat % 2 ^ s.qk c q * (32 + s.dslot c)

/-- A receive queue holds 2^k unacknowledged entries or its indices are inconsistent (R332, R334); an absent queue holds none. -/
def State.rxFull (s : State) (c q : Nat) : Bool := decide (s.qk c q ≠ 0) && decide (2 ^ s.qk c q ≤ ((s.canQ c).widx q - (s.canQ c).ridx q).toNat)

/-- The indices of queue `q` are inconsistent (R334); an absent queue has none. -/
def State.qBad (s : State) (c q : Nat) : Bool :=
  let x := s.canQ c
  decide (s.qk c q ≠ 0) && decide (2 ^ s.qk c q < (if q = 0 then x.sidxRd - x.cidx else x.widx q - x.ridx q).toNat)

/-- The flags of the queues that are halted. -/
def Can.qErr (x : Can) (q : Nat) : Bool := if q = 0 then x.txErr else if q = 1 then x.rx0Err else x.rx1Err

/-- `x` with such a flag set. -/
def Can.setQErr (x : Can) (q : Nat) (b : Bool) : Can :=
  if q = 0 then { x with txErr := b } else if q = 1 then { x with rx0Err := b } else { x with rx1Err := b }

/-- The halt of queue `q` judged (R334): one error record per occurrence. -/
def State.judgeQ (c q : Nat) (s : State) : State :=
  let bad := s.qBad c q
  let t := s.updCan c fun x => x.setQErr q bad
  if bad && !(s.chan c).qErr q then
    let x := s.canQ c
    t.log 0x0803 4 ([BitVec.ofNat 8 c, BitVec.ofNat 8 q] ++ le 2 (if q = 0 then x.sidxRd else x.ridx q).toNat ++
      le 2 (if q = 0 then x.cidx else x.widx q).toNat)
  else t

/-- The owner's store reaches the memory of a channel (R324). -/
def State.canStore (c q : Nat) (entry : Bool) (off : Nat) (b : List Byte) (s : State) : State :=
  if entry then s.updCanQ c fun x => { x with ent := x.ent.upd q [] fun m => m.wrN off b }
  else
    let t := s.updCanQ c fun x => { x with ctl := x.ctl.upd q [] fun m => m.wrN off b }
    if q = 0 then t else t.judgeQ c q

/-! Fault confinement (R338). -/

/-- The state that the counters of channel `c` give: its records and counts on entry. -/
def State.confine (c : Nat) (s : State) : State :=
  let x := s.chan c
  if 2 ≤ x.estate.toNat then s
  else if 255 < x.tec then
    let rec_ := bits (s.canCfg c) 6 1 = 1
    (s.updCan c fun y => { y with estate := if rec_ then 3 else 2, tec := 256, eBus := y.eBus + 1, pex := false }).log 0x0802 4
      [BitVec.ofNat 8 c, BitVec.ofNat 8 (x.errN.toNat + 16 * x.errD.toNat)]
  else if 128 ≤ x.tec ∨ 128 ≤ x.recv then
    if x.estate = 1 then s
    else (s.updCan c fun y => { y with estate := 1, ePass := y.ePass + 1 }).log 0x0801 3
      ([BitVec.ofNat 8 c, 0] ++ le 2 x.tec ++ [BitVec.ofNat 8 x.recv])
  else s.updCan c fun y => { y with estate := 0 }

/-- An error counted by its kind and by its phase. -/
def Can.count (x : Can) (k : CanErr) (dataPhase : Bool) : Can :=
  let y := if dataPhase then { x with errD := BitVec.ofNat 3 k.code } else { x with errN := BitVec.ofNat 3 k.code }
  match k with
  | .stuff => { y with eStuff := y.eStuff + 1 }
  | .form => { y with eForm := y.eForm + 1 }
  | .ack => { y with eAck := y.eAck + 1 }
  | .bit1 | .bit0 => { y with eBit := y.eBit + 1 }
  | .crc => { y with eCrc := y.eCrc + 1 }

/-! Completions. -/

/-- The entry in progress completes with a status and flags; TIME of an entry that was never attempted is a free value (log entry 5). -/
def State.canComplete (c status : Nat) (late : Bool) (s : State) : State :=
  let x := s.canQ c
  match x.cur with
  | none => s
  | some e =>
    let (w, t) := if e.tries = 0 then s.draw else (e.sof.setWidth 64, s)
    let at_ := s.entAt c 0 x.cidx
    let fl := bit late + 2 * bit e.arb + 4 * bit e.err
    t.updCanQ c fun q =>
      { q with cur := none, cidx := q.cidx + 1,
               ent := q.ent.upd 0 [] fun m => (m.wrN (at_ + 24) [BitVec.ofNat 8 status, BitVec.ofNat 8 fl, BitVec.ofNat 8 (min 255 e.tries)]).wrN
                 (at_ + 28) (le 4 (w.toNat % 2 ^ 32)),
               ctl := q.ctl.upd 0 [] fun m => m.wrN 32 (le 2 (q.cidx + 1).toNat) }

/-- CANCEL of the entry in progress, as memory holds it (R337). -/
def State.cancelled (s : State) (c : Nat) : Bool :=
  let x := s.canQ c
  (((x.ent.look 0 []).rd (s.entAt c 0 x.cidx + 16)).getLsbD 0)

/-! Entries. -/

/-- The data length that a DLC gives (Table 12.7). -/
def dlcLen (fmt : BitVec 2) (rtr : Bool) (dlc : BitVec 11) : Nat :=
  if fmt = 2 then dlc.toNat + 1
  else
    let d := dlc.toNat % 16
    if fmt = 0 then (if rtr then 0 else min 8 d)
    else if d ≤ 8 then d
    else [12, 16, 20, 24, 32, 48, 64].getD (d - 9) 64

/-- The entry that 32 bytes of header and the data slot spell (Table 12.7). -/
def parseEnt (b : List Byte) : CanEnt :=
  let w := fieldN b 0 4
  let fmt := fieldN b 4 1
  let dlc := fieldN b 6 2
  let rsv := decide (2 ^ 31 ≤ w) || decide (2048 ≤ dlc) || (decide (fmt % 4 ≠ 2) && decide (16 ≤ dlc)) || decide (2 ≤ fieldN b 13 1) ||
    decide (fieldN b 14 2 ≠ 0) || decide (2 ≤ fieldN b 16 1) || decide (fieldN b 17 7 ≠ 0) || decide (fieldN b 27 1 ≠ 0)
  let e : CanEnt :=
    { id := BitVec.ofNat 29 w, ide := w.testBit 29, rtr := w.testBit 30, fmt := BitVec.ofNat 2 fmt, brs := fmt.testBit 2,
      esi := fmt.testBit 3, retry := BitVec.ofNat 4 (fmt / 16), sdt := BitVec.ofNat 8 (fieldN b 5 1), dlc := BitVec.ofNat 11 dlc,
      af := BitVec.ofNat 32 (fieldN b 8 4), vcid := BitVec.ofNat 8 (fieldN b 12 1), sec := (fieldN b 13 1).testBit 0, rsvd := rsv }
  { e with data := slice b 32 (dlcLen e.fmt e.rtr e.dlc) }

/-- The entry is completed INVALID (R335). -/
def State.entInvalid (s : State) (c : Nat) (e : CanEnt) : Bool :=
  !s.canFmt c e.fmt || (e.rtr && decide (e.fmt ≠ 0)) || (e.brs && decide (e.fmt ≠ 1)) ||
    decide (s.dslot c < dlcLen e.fmt e.rtr e.dlc) || e.rsvd

/-- The controller fetches the next submitted entry (R333); an invalid one completes without an attempt (R335). -/
def State.canFetch (c : Nat) (s : State) : State :=
  let x := s.canQ c
  if x.cur.isSome || s.qBad c 0 || decide (x.sidxRd = x.cidx) || decide (s.qk c 0 = 0) then s
  else
    let e := parseEnt ((x.ent.look 0 []).rdN (s.entAt c 0 x.cidx) (32 + s.dslot c))
    let t := s.updCanQ c fun q => { q with cur := some { ent := e } }
    if s.entInvalid c e then t.canComplete c 4 false else t

/-- The controller reads the TXQ control block (R333, R334, R339): SIDX, and RECOVER_SEQ, whose change starts recovery of a
bus-off channel. -/
def State.canPoll (c : Nat) (s : State) : State :=
  let x := s.canQ c
  let seq := (x.ctl.look 0 []).rd 2
  let t := s.updCanQ c fun q => { q with sidxRd := BitVec.ofNat 16 (x.ctl16 0 0), recoverRd := seq }
  let t := if seq ≠ x.recoverRd ∧ (s.chan c).estate = 2 then t.updCan c fun y => { y with estate := 3 } else t
  (t.judgeQ c 0).canFetch c

/-- TXQ_POLL (R333). -/
def execTxqPoll (ch : Fin 8) (s : State) : Host.Outcome State Fault Refusal :=
  let c := ch.val
  if s.running && s.canSet c && !(s.chan c).off && !(s.chan c).listen then .next (s.canPoll c) else .next s

/-! Receiving (R330, R332). -/

/-- An element of type 0 range, 1 dual identifier, 2 classic mask matches (Table 12.5, R330). -/
def elemMatch (type id1 id2 id : Nat) : Bool :=
  if type = 0 then decide (id1 ≤ id ∧ id ≤ id2)
  else if type = 1 then decide (id = id1 ∨ id = id2)
  else if type = 2 then decide (Nat.land id id2 = Nat.land id1 id2)
  else false

/-- A standard element: whether it matches, and its action. -/
def stdElem (w : Word) (id : Nat) : Bool × Nat :=
  (decide (bits w 27 2 ≠ 0) && elemMatch (bits w 30 2) (bits w 16 11) (bits w 0 11) id, bits w 27 2)

/-- An extended element: whether it matches, and its action. -/
def extElem (w : Word × Word) (id : Nat) : Bool × Nat :=
  (decide (bits w.1 29 2 ≠ 0) && elemMatch (bits w.2 30 2) (bits w.1 0 29) (bits w.2 0 29) id, bits w.1 29 2)

/-- The first element that matches: its number and action. -/
def firstMatch : List (Bool × Nat) → Nat → Option (Nat × Nat)
  | [], _ => none
  | (m, a) :: l, i => if m then some (i, a) else firstMatch l (i + 1)

/-- What filtering decides (R330): the receive queue or `none` for a rejected frame, and the number of the element. -/
def State.filterFrame (s : State) (c : Nat) (e : CanEnt) : Option Nat × Option Nat :=
  let f := s.cfg.can.look c {}
  let hit := if e.ide then firstMatch (f.ext.map fun w => extElem w e.id.toNat) 0
    else firstMatch (f.std.map fun w => stdElem w (e.id.toNat % 2048)) 0
  if e.rtr && decide (bits (s.canCfg c) 10 1 = 1) then (none, none)
  else match hit with
    | some (i, a) => (if a = 1 then some 1 else if a = 2 then some 2 else none, some i)
    | none =>
      let n := bits (s.canCfg c) 8 2
      (if n = 0 then some 1 else if n = 1 then some 2 else none, none)

/-- A received frame is handed over to queue `q` (R332). STATUS of a frame that no element matched is a free value. DEDUCED: a frame
that finds its queue full and exceeds DSLOT counts in FULL (log entry 128). -/
def State.handOver (c q : Nat) (el : Option Nat) (e : CanEnt) (sof : Word) (s : State) : State :=
  if s.qk c q = 0 then s
  else if s.rxFull c q then s.updCan c fun x => { x with dropFull := x.dropFull + 1 }
  else if s.dslot c < dlcLen e.fmt e.rtr e.dlc then s.updCan c fun x => { x with dropSize := x.dropSize + 1 }
  else
    let (n, t) := match el with
      | some i => (i, s)
      | none => (s.draw.1.toNat % 256, s.draw.2)
    let bs := e.head 0 ++ List.replicate 8 0 ++ [BitVec.ofNat 8 n, BitVec.ofNat 8 (bit e.ide + 2 * bit el.isNone), BitVec.ofNat 8 (n / 256 % 2), 0] ++
      le 4 sof.toNat ++ padTo (s.dslot c) e.data
    let w := (s.canQ c).widx q
    let at_ := s.entAt c q w
    let u := t.updCanQ c fun x =>
      let y := { x with ent := x.ent.upd q [] fun m => m.wrN at_ bs }
      (if q = 1 then { y with w0 := w + 1 } else { y with w1 := w + 1 }).setCtl16 q 0 (w + 1).toNat
    (u.updCan c fun x => { x with rxCnt := x.rxCnt + 1 }).judgeQ c q

/-- REC after a frame received without error (R338: ISO 11898-1; above 127 it takes a value from 119 to 127, a free value). -/
def State.recDown (c : Nat) (s : State) : State :=
  let r := (s.chan c).recv
  if r = 0 then s
  else if r ≤ 127 then s.updCan c fun x => { x with recv := r - 1 }
  else s.draw.2.updCan c fun x => { x with recv := 119 + s.draw.1.toNat % 9 }

/-- CAN_FRAME_RECEIVED (R330, R332): a frame of another node reaches its validity point. -/
def execCanFrameReceived (ch : Fin 8) (fr : CanEnt) (sof : Word) (s : State) : Host.Outcome State Fault Refusal :=
  let c := ch.val
  if !(s.canLive c && s.canFmt c fr.fmt) then .next s
  else
    let t := ((s.updCan c fun x => { x with pex := false }).recDown c).confine c
    match (s.chan c).listen, s.filterFrame c fr with
    | false, (some q, el) => .next (t.handOver c q el fr sof)
    | _, _ => .next t

/-! Errors (R322, R338, R339). -/

/-- The attempt in progress ends as an error (R336): a cancel, the last allowed attempt, or a wait for the next. -/
def State.attemptFailed (c : Nat) (arb : Bool) (s : State) : State :=
  match (s.canQ c).cur with
  | none => s
  | some e =>
    let e := if arb then { e with arb := true } else { e with err := true }
    let t := (s.updCanQ c fun q => { q with cur := some e }).updCan c fun x => { x with txActive := false }
    if t.cancelled c then (t.canComplete c 2 false).updCan c fun x => { x with cancelled := x.cancelled + 1 }
    else if decide (e.ent.retry ≠ 15) && decide (e.ent.retry.toNat + 1 ≤ e.tries) then t.canComplete c 3 false
    else t

/-- CAN_ERROR (R338): `inc` is the count that ISO 11898-1 gives the error; `tx` tells a transmitter's from a receiver's. Bus-off ends
the attempt in progress as an error (R336), and the control block is read again (R333). -/
def State.canError (c : Nat) (k : CanErr) (dataPhase tx : Bool) (inc : Nat) (s : State) : State :=
  let t := s.updCan c fun x =>
    let y := { x.count k dataPhase with pex := false }
    if tx then (if y.listen then y else { y with tec := min 256 (y.tec + inc) }) else { y with recv := min 255 (y.recv + inc) }
  let t := t.confine c
  if 2 ≤ (t.chan c).estate.toNat ∧ (t.chan c).txActive = true then (t.attemptFailed c false).canPoll c else t

/-- CAN_ERROR. -/
def execCanError (ch : Fin 8) (kind : CanErr) (dataPhase tx : Bool) (inc : Fin 9) (s : State) :
    Host.Outcome State Fault Refusal :=
  if s.canLive ch.val then .next (s.canError ch.val kind dataPhase tx inc.val) else .next s

/-- PROTOCOL_EXCEPTION (R322): a recessive res bit after FDF, of a frame that `xl` tells to be CAN XL; with PXD at 1 it is a
form error of the receiver. DEDUCED: with FDEN at 0 nothing is counted, and CAN_STAT.PEX reads 1 until the next frame, attempt or error
(log entry 128). -/
def execProtocolException (ch : Fin 8) (xl : Bool) (s : State) : Host.Outcome State Fault Refusal :=
  let c := ch.val
  if !(s.canLive c && s.canFd c) || (xl && s.canXl c) then .next s
  else if bits (s.canCfg c) 7 1 = 1 then .next (s.canError c .form false false 1)
  else .next (s.updCan c fun x => { x with pex := true, ePex := x.ePex + 1 })

/-- CAN_CMD (R324, R339, R340): RECOVER of a bus-off channel starts recovery. -/
def State.canCmd (c : Nat) (s : State) : State :=
  if s.canSet c && decide ((s.chan c).estate = 2) then s.updCan c fun x => { x with estate := 3 } else s

/-- CAN_CMD_RECOVER. -/
def execCanCmdRecover (ch : Fin 8) (ini : Ini) (s : State) : Host.Outcome State Fault Refusal :=
  let o := canReg ch.val 0x24
  if !s.regLive o then .next s
  else if ini ≠ .host ∧ ini ≠ .hk then done s (s.roWr o)
  else done s (s.postTo (canReg ch.val 0) o 1 none)

/-- BUS_OFF_RECOVERY_DONE (R339): error active with both counters at 0. -/
def execBusOffRecoveryDone (ch : Fin 8) (s : State) : Host.Outcome State Fault Refusal :=
  if s.running && decide ((s.chan ch.val).estate = 3) then .next (s.updCan ch.val fun x => { x with estate := 0, tec := 0, recv := 0 })
  else .next s

/-! Attempts (R336, R337). -/

/-- ATTEMPT_START (R336, R337): CANCEL is read; otherwise the attempt begins. -/
def execAttemptStart (ch : Fin 8) (s : State) : Host.Outcome State Fault Refusal :=
  let c := ch.val
  match (s.canQ c).cur with
  | none => .next s
  | some e =>
    if !s.canSends c || (s.chan c).txActive then .next s
    else if s.cancelled c then
      .next ((s.canComplete c 2 false).updCan c fun x => { x with cancelled := x.cancelled + 1 })
    else
      .next ((s.updCanQ c fun q => { q with cur := some { e with tries := e.tries + 1, sof := s.short } }).updCan c fun x =>
        { x with txActive := true, pex := false })

/-- The loop delay of a frame sent with TDCEN at 1 (R328). -/
def State.noteTdcv (c : Nat) (e : CanEnt) (v : BitVec 8) (s : State) : State :=
  let r := s.liveReg (canReg c 0x1C)
  if decide (e.fmt ≠ 0) && decide (bits r 8 1 = 1) then
    let d := min 127 v.toNat
    s.updCan c fun x => { x with tdcv := BitVec.ofNat 7 d, ssp := BitVec.ofNat 7 (min 127 (d + bits r 0 7)) }
  else s

/-- The frame that the channel sends for an entry: an FD or XL frame carries the channel's own error state in ESI (R338, Table 12.7). -/
def State.canSent (s : State) (c : Nat) (e : CanEnt) : List Byte :=
  { e with esi := decide (e.fmt ≠ 0) && decide ((s.chan c).estate = 1) }.head 0 ++ e.data

/-- An attempt succeeds: counted, TEC lowered, and the entry completed SENT. -/
def State.attemptSent (c : Nat) (e : CanCur) (v : BitVec 8) (s : State) : State :=
  let late := s.cancelled c
  let t := (s.noteTdcv c e.ent v).put (.frame { kind := .can, dst := c, seq := (s.canQ c).cidx, rep := false, epoch := 0,
                                                payload := s.canSent c e.ent })
  let t := t.updCan c fun x => { x with txActive := false, txCnt := x.txCnt + 1, tec := x.tec - 1,
                                        cancelLate := if late then x.cancelLate + 1 else x.cancelLate }
  (t.canComplete c 1 late).confine c

/-- ATTEMPT_END (R336): then the control block is read again (R333). -/
def execAttemptEnd (ch : Fin 8) (out : CanEnd) (s : State) : Host.Outcome State Fault Refusal :=
  let c := ch.val
  match (s.canQ c).cur with
  | none => .next s
  | some e =>
    if !s.canSends c || !(s.chan c).txActive then .next s
    else
      let t := match out with
        | .sent v => s.attemptSent c e v
        | .lost => (s.updCan c fun x => { x with arbLost := x.arbLost + 1 }).attemptFailed c true
        | .error => s.attemptFailed c false
      .next (t.canPoll c)

end Sys2Proof.Machine
end

