-- ==== Sys2Proof/Machine/Saf.lean ====
section
/-! DEFINITION. The safety subsystem: samples, pulse and discrepancy checks, lock-out, reset, the safety outputs and the Waland
Safe Channel (spec/14_safety.md). -/

namespace Sys2Proof.Machine

/-- `s` with the SAF block changed by `f`. -/
def State.updSaf (f : Saf → Saf) (s : State) : State := { s with saf := f s.saf }

/-- SP and the Selvedge logic run (R370). -/
def State.safRuns (s : State) : Bool := s.running && s.saf.started

/-- SAF_SI_CFG of input `i`. -/
def State.siCfg (s : State) (i : Nat) : Word := s.reg (Reg.safSiCfg + 4 * i)

/-- SAF_SO_CFG of output `k`. -/
def State.soCfg (s : State) (k : Nat) : Word := s.reg (Reg.safSoCfg + 4 * k)

/-! One channel of an input (R372 to R375). -/

/-- The channel follows a sample: masked inside a pulse of its own source, filtered after FILT equal samples. -/
def SiCh.take (c : SiCh) (raw masked : Bool) (filt : Nat) : SiCh :=
  let v := if masked then c.v else raw
  if v == c.filt then { c with v := v, run := 0 }
  else if max 1 filt ≤ c.run + 1 then { c with v := v, filt := v, run := 0 }
  else { c with v := v, run := c.run + 1 }

/-- An own pulse has been seen, or not, by a channel that read high before it. -/
def SiCh.ownPulse (c : SiCh) (seen : Bool) : SiCh :=
  if !c.pre then c
  else if seen then { c with seen := c.seen + 1, miss := 0, pm := c.pm && decide (c.seen + 1 < 3) }
  else { c with miss := c.miss + 1, seen := 0, pm := c.pm || decide (2 ≤ c.miss + 1) }

/-- A foreign pulse has been seen, or not, by a channel that reads high before and after it. -/
def SiCh.foreignPulse (c : SiCh) (seen : Bool) : SiCh :=
  if seen then { c with fors := c.fors + 1, noFor := 0, cs := c.cs || decide (2 ≤ c.fors + 1) }
  else { c with noFor := c.noFor + 1, fors := 0, cs := c.cs && decide (c.noFor + 1 < 3) }

/-- One sample of a channel fed from a pulse source (R374, R375): `own` tells whose pulse is in progress or just ended, `k`
is 1 or 2 inside a pulse and 3 at the first sample after it, 0 otherwise. -/
def SiCh.sample (c : SiCh) (fed own raw : Bool) (k filt : Nat) : SiCh :=
  let inside := fed && decide (k = 1 ∨ k = 2)
  let c := if fed && decide (k = 1) then { c with pre := c.v, low1 := !raw } else c
  let c := if fed && decide (k = 2) then { c with low2 := !raw } else c
  let c := if fed && own && decide (k = 2) then c.ownPulse (c.low1 && !raw) else c
  let c := if fed && !own && decide (k = 3) && c.pre && raw then c.foreignPulse (c.low1 && c.low2) else c
  c.take raw (inside && own) filt

/-! One input (R371, R376). -/

/-- TYPE of an input: 0 off, 1 equivalent, 2 antivalent. -/
def siType (w : Word) : Nat := bits w 0 2

/-- The two channels disagree. -/
def Si.disagree (x : Si) (w : Word) : Bool := if siType w = 2 then x.a.v == x.b.v else x.a.v != x.b.v

/-- Both channels are sampled at their stop levels. -/
def Si.stopped (x : Si) (w : Word) : Bool := !x.a.v && (x.b.v == decide (siType w = 2))

/-- Both channels are sampled by one part; `p` is 1 or 2 for the pulse in progress or just ended. -/
def Si.sample (x : Si) (w : Word) (a b : Bool) (p k : Nat) : Si :=
  if siType w = 0 then x
  else
    let fed := bits w 2 1 = 0
    let filt := bits w 4 4
    let ca := x.a.sample fed (decide (p = 1)) a k filt
    let cb := x.b.sample fed (decide (p = 2)) b k filt
    let go := ca.filt && (cb.filt == decide (siType w ≠ 2))
    { x with a := ca, b := cb, go := go, cDemand := if x.go && !go then x.cDemand + 1 else x.cDemand,
             cPulse := x.cPulse + BitVec.ofNat 8 (bit (ca.pm && !x.a.pm) + bit (cb.pm && !x.b.pm)),
             cCross := x.cCross + BitVec.ofNat 8 (bit (ca.cs && !x.a.cs) + bit (cb.cs && !x.b.cs)) }

/-- The discrepancy count (R376); the trip ends when both channels are sampled at their stop levels. -/
def Si.discrepancy (x : Si) (w : Word) : Si :=
  let n := bits w 16 15
  if siType w = 0 then x
  else if !x.disagree w then { x with disc := 0, tripped := x.tripped && !x.stopped w }
  else if x.disc + 1 = n then { x with disc := n, tripped := true, cTrip := x.cTrip + 1 }
  else { x with disc := min n (x.disc + 1) }

/-! The latches (R386 to R389). -/

/-- One sample of RST by one part: its latch, whether the sample is the release edge of a qualified press, and the code of a
RESET_STUCK onset (1 over 3 s, 2 closed at the start). -/
def Lat.sample (l : Lat) (closed : Bool) : Lat × Bool × Nat :=
  if !closed then
    ({ l with press := 0, stuck := false, started := true }, decide (800 ≤ l.press ∧ l.press ≤ 12000) && !l.stuck, 0)
  else if !l.started then ({ l with press := 1, stuck := true, started := true }, false, 2)
  else if l.press + 1 = 12001 ∧ l.stuck = false then ({ l with press := 12001, stuck := true }, false, 1)
  else ({ l with press := min 12001 (l.press + 1) }, false, 0)

/-- RESET_STUCK sets (R388): counted and recorded once for both parts. -/
def State.stuckRecord (why : Nat) (s : State) : State :=
  (s.updSaf fun f => { f with cntStuck := f.cntStuck + 1 }).log 0x0A04 6 [BitVec.ofNat 8 why]

/-- A part clears its latch (R387, R389): recorded; with both clear the lock-out is released. -/
def State.clearLatch (bySp : Bool) (s : State) : State :=
  let f := s.saf
  if !(if bySp then f.sp.set else f.sel.set) then s
  else
    let g := if bySp then { f with sp := { f.sp with set := false } } else { f with sel := { f.sel with set := false } }
    let h := if g.sel.set || g.sp.set then g else { g with last := g.cause, cause := 0, openLock := 0 }
    ({ s with saf := h }).log 0x0A02 6 [BitVec.ofNat 8 f.cause.toNat, if bySp then 2 else 1]

/-- A qualified press while a cause is present is refused (R387). -/
def State.refuseReset (s : State) : State :=
  (s.updSaf fun f => { f with cntRef := f.cntRef + 1 }).log 0x0A03 6 (le 4 s.saf.present.toNat)

/-- A part judges a qualified press (R387): refused while a cause is present, otherwise its latch clears. `counted` tells that
the other part has counted it. -/
def State.judgePress (bySp counted : Bool) (s : State) : State :=
  if s.saf.present ≠ 0 then (if counted then s else s.refuseReset)
  else (if counted then s else s.updSaf fun f => { f with cntAcc := f.cntAcc + 1 }).clearLatch bySp

/-! The safety outputs (R368, R390, Table 2.2). -/

/-- One safety output. -/
def State.so (s : State) (k : Nat) : So := s.saf.so.look k {}

/-- The mode lets output `k` run under its permits (R370, R400). -/
def State.soMode (s : State) (k : Nat) : Bool :=
  match s.sys.mode with
  | .commission => bits (s.soCfg k) 9 1 = 1
  | .test | .stop | .run | .hold | .takeover | .activate => true
  | _ => false

/-- Output `k` is configured. -/
def State.soSet (s : State) (k : Nat) : Bool := bits (s.soCfg k) 10 1 = 1

/-- Output `k` changed by `f`; a change of its switches leaves the module, and each switch-on counts. -/
def State.updSo (k : Nat) (f : So → So) (s : State) : State :=
  let o := s.so k
  let n := f o
  let n := if n.hs && n.ls && !(o.hs && o.ls) then { n with ons := n.ons + 1 } else n
  let t := s.updSaf fun x => { x with so := x.so.put k n }
  if n.hs == o.hs && n.ls == o.ls then t else t.put (.so k n.hs n.ls)

/-- The restart state of output `k` (R390): a demand ends a restart; a MANUAL output waits while both permits hold. -/
def State.restartSo (s : State) (k : Nat) (selPress spPress : Bool) (o : So) : So :=
  let both := o.spPermit && o.selPermit
  let manual := bits (s.soCfg k) 8 1 = 1
  let a := both && (o.rearmSel || selPress)
  let b := both && (o.rearmSp || spPress)
  { o with rearmSel := a, rearmSp := b,
           wait := manual && both && s.soMode k && !s.saf.sel.set && !s.saf.sp.set && !(a && b) }

/-- The switch of one part closes (R368): its permit holds, its latch is clear, the mode allows it, and a MANUAL output has
been restarted. -/
def State.closes (s : State) (k : Nat) (permit latch rearmed : Bool) : Bool :=
  permit && !latch && s.soMode k && s.soSet k && (decide (bits (s.soCfg k) 8 1 = 0) || rearmed)

/-- The Selvedge permit of output `k` (Table 14.1): every input of SEL_MASK in its go state. -/
def State.selPermits (s : State) (k : Nat) : Bool :=
  s.soSet k && (List.range 8).all fun i => !(s.soCfg k).getLsbD i || (s.saf.si.look i {}).go

/-- Row 6 of Table 14.3 for the Selvedge logic: permits, restart and low-side switches. -/
def State.selSwitch (press : Bool) (s : State) : State :=
  (List.range 4).foldl (fun (t : State) k =>
    t.updSo k fun o =>
      let n := t.restartSo k press false { o with selPermit := t.selPermits k }
      { n with ls := t.closes k n.selPermit t.saf.sel.set n.rearmSel }) s

/-- Row 6 of Table 14.3 for SP: permits, restart and high-side switches. -/
def State.spSwitch (permits : BitVec 4) (press : Bool) (s : State) : State :=
  (List.range 4).foldl (fun (t : State) k =>
    t.updSo k fun o =>
      let n := t.restartSo k false press { o with spPermit := permits.getLsbD k && t.soSet k }
      { n with hs := t.closes k n.spPermit t.saf.sp.set n.rearmSp }) s

/-! SELVEDGE_SAMPLE (R391, Table 14.3). -/

/-- The inputs of one part after a sample. -/
def State.sampleInputs (s : State) (l : Tab Si) (x : Samp) (p k : Nat) (disc : Bool) : Tab Si :=
  (List.range 8).foldl (fun t i =>
    let w := s.siCfg i
    if siType w = 0 then t
    else
      let y := (t.look i {}).sample w (x.a.getLsbD i) (x.b.getLsbD i) p k
      t.put i (if disc then y.discrepancy w else y)) l

/-- Causes 4 to 6 are present as the inputs of both parts show them (Table 14.2). -/
def Saf.judgeInputs (f : Saf) : Saf :=
  let any (p : Si → Bool) : Bool := f.si.anyV p || f.spSi.anyV p
  ((f.setPresent 4 (f.si.anyV Si.tripped)).setPresent 5 (any fun x => x.a.pm || x.b.pm)).setPresent 6
    (any fun x => x.a.cs || x.b.cs)

/-- The faults that a part's inputs show new at this sample: cause, input, channel b. -/
def newFaults (old new : Tab Si) : List (Nat × Nat × Bool) :=
  new.flatMap fun e =>
    let o := old.look e.1 {}
    let n := e.2
    (if n.a.pm && !o.a.pm then [(5, e.1, false)] else []) ++ (if n.b.pm && !o.b.pm then [(5, e.1, true)] else []) ++
      (if n.a.cs && !o.a.cs then [(6, e.1, false)] else []) ++ (if n.b.cs && !o.b.cs then [(6, e.1, true)] else []) ++
      (if n.tripped && !o.tripped then [(4, e.1, false)] else [])

/-- Row 4 of Table 14.3: the faults latch. -/
def State.latchFaults (bySp : Bool) (fs : List (Nat × Nat × Bool)) (s : State) : State :=
  fs.foldl (fun (t : State) e => t.lockout e.1 1 e.2.1 bySp e.2.2) s

/-- SP's comparison with the Selvedge samples (R381, Table 14.2): eight samples of agreement end the cause AGREE of a channel. -/
def Saf.agreeing (f : Saf) (x sp : Samp) : Saf :=
  if x = sp then
    let n := f.agreeOk + 1
    if 8 ≤ n then { f.setPresent 9 false with agreeOk := n, si := f.si.mapV fun y => { y with agree := false } }
    else { f with agreeOk := n }
  else { f with agreeOk := 0 }

/-- Row 5 of Table 14.3: both parts sample RST; the Selvedge logic judges a release edge at once, SP at its next cycle. -/
def State.sampleReset (x sp : Samp) (s : State) : State × Bool :=
  let (a, qa, ka) := s.saf.sel.sample x.rst
  let (b, qb, kb) := s.saf.sp.sample sp.rst
  let k := if ka ≠ 0 then ka else if s.saf.sel.stuck then 0 else kb
  let t := s.updSaf fun f => { f with sel := a, sp := b, rst := x.rst, spQual := f.spQual || qb,
                                      selQual := qa || (f.selQual && !x.rst) }
  let t := if k = 0 then t else t.stuckRecord k
  (if qa then t.judgePress false false else t, qa && decide (t.saf.present = 0))

/-- The pulse whose window a sample falls in, and its place: 1 and 2 inside, 3 at the first sample after (R374). -/
def Saf.window (f : Saf) : Nat × Nat := if f.pulseNo = 0 then (0, 0) else (f.pulseNo, f.pulseK + 1)

/-- The pulse in progress after a sample. -/
def Saf.endWindow (f : Saf) : Saf :=
  if f.pulseNo = 0 then f
  else if f.pulseK < 2 then { f with pulseK := f.pulseK + 1, tp1 := f.tp1 || decide (f.pulseK = 1), tp2 := f.tp2 || decide (f.pulseK = 1) }
  else { f with pulseNo := 0, pulseK := 0 }

/-- One sample (Table 14.3). -/
def State.selSample (x sp : Samp) (s : State) : State :=
  let (p, k) := s.saf.window
  let a := s.sampleInputs s.saf.si x p k true
  let b := s.sampleInputs s.saf.spSi sp p k false
  let fa := newFaults s.saf.si a
  let fb := newFaults s.saf.spSi b
  let t := (s.latchFaults false fa).latchFaults true fb
  let t := t.updSaf fun f => (({ f with si := a, spSi := b }.judgeInputs).agreeing x sp).endWindow
  let (t, press) := t.sampleReset x sp
  t.selSwitch press

/-- SELVEDGE_SAMPLE: `x` is what the Selvedge comparators read, `sp` what SP's read at the same instant. -/
def execSelvedgeSample (x sp : Samp) (s : State) : Host.Outcome State Fault Refusal :=
  if s.safRuns && s.saf.selRun then done s (s.selSample x sp) else .next s

/-- DISCREPANCY (R376): the count of a disagreeing input reaches N. -/
def execDiscrepancy (i : Fin 8) (s : State) : Host.Outcome State Fault Refusal :=
  let w := s.siCfg i.val
  let y := s.saf.si.look i.val {}
  if !(s.safRuns && s.saf.selRun) || decide (siType w = 0) || !y.disagree w || y.tripped then .next s
  else
    let n := { y with disc := bits w 16 15, tripped := true, cTrip := y.cTrip + 1 }
    done s ((s.updSaf fun f => { f with si := f.si.put i.val n }).lockout 4 1 i.val false false)

/-- RESET_STUCK (R388): the press in progress reaches 12,001 closed samples. -/
def execResetStuck (s : State) : Host.Outcome State Fault Refusal :=
  if s.safRuns && s.saf.rst && !s.saf.sel.stuck then
    done s ((s.updSaf fun f => { f with sel := { f.sel with press := 12001, stuck := true },
                                        sp := { f.sp with press := 12001, stuck := true } }).stuckRecord 1)
  else .next s

/-- TEST_PULSE (R373): TP2 if `second`, else TP1, goes low for 500 µs. -/
def execTestPulse (second : Bool) (s : State) : Host.Outcome State Fault Refusal :=
  if s.safRuns && s.saf.selRun then
    .next ((s.updSaf fun f => { f with pulseNo := if second then 2 else 1, pulseK := 0, pulses := f.pulses + 1,
                                       tp1 := f.tp1 && second, tp2 := f.tp2 && !second }).put (.tp (if second then 2 else 1) false))
  else .next s

/-! Output faults (R378 to R380). -/

/-- A fault of output `k` with cause `c` (7 OUT_FAULT, 8 OVERCURRENT). -/
def State.soFault (c k : Nat) (s : State) : State :=
  (s.updSo k fun o => { o with faults := o.faults + 1, outFault := o.outFault || decide (c = 7),
                               overcur := o.overcur || decide (c = 8), rbOk := 0 }).lockout c 2 k true false

/-- OUT_FAULT (R378). -/
def execOutFault (k : Fin 4) (s : State) : Host.Outcome State Fault Refusal :=
  if s.safRuns && s.soSet k.val && !(s.so k.val).outFault then done s (s.soFault 7 k.val) else .next s

/-- OVERCURRENT (R380). -/
def execOvercurrent (k : Fin 4) (s : State) : Host.Outcome State Fault Refusal :=
  if s.safRuns && s.soSet k.val && !(s.so k.val).overcur then done s (s.soFault 8 k.val) else .next s

/-- DARK_TEST (R379): `ok` tells whether the read-back shows the switch open; the switches take turns. -/
def execDarkTest (k : Fin 4) (ok : Bool) (s : State) : Host.Outcome State Fault Refusal :=
  let o := s.so k.val
  if !(s.safRuns && o.hs && o.ls) || decide (bits (s.soCfg k.val) 16 12 = 0) then .next s
  else
    let t := s.updSo k.val fun x => { x with darkLow := !x.darkLow, darkFail := if ok then x.darkFail else x.darkFail + 1 }
    if ok then done s t else done s (t.soFault 7 k.val)

/-- SUPPLY (R380, Table 14.2): the safety field supply in mV, below 18.0 V for 1 ms or at 19.0 V or more for 10 ms. -/
def execSupply (mv : BitVec 16) (s : State) : Host.Outcome State Fault Refusal :=
  let t := s.updPwr fun p => { p with sfeedMv := mv }
  if !s.powered then .next s
  else if mv.toNat < 18000 then
    (let u := t.updSaf fun f => { f with supplyBad := true }
     if s.safRuns && !s.saf.supplyBad then done s (u.lockout 10 0 0 true false) else .next u)
  else if 19000 ≤ mv.toNat then done s (t.updSaf fun f => { f.setPresent 10 false with supplyBad := false })
  else .next t

/-! Supervision (R381 to R383). -/

/-- A fault that is also an unrecoverable fault of the module (R386): causes 11 to 14. -/
def State.safDead (c : Nat) (bySp : Bool) (s : State) : State := (s.lockout c 0 0 bySp false).unrecoverable (if c = 13 then 6 else 7)

/-- AGREE (R381, R382). -/
def execAgree (d : Disagree) (s : State) : Host.Outcome State Fault Refusal :=
  if !s.safRuns then .next s
  else
    let t := s.updSaf fun f => { f with agreeOk := 0 }
    match d with
    | .channel i chb =>
      done s ((t.updSaf fun f => { f with si := f.si.upd i.val {} fun y => { y with agree := true } }).lockout 9 1 i.val true chb)
    | .rst => done s (t.lockout 9 0 0 true false)
    | .permit k => done s (t.lockout 9 2 k.val true false)

/-- SELVEDGE_CHALLENGE (R383): a wrong or missing answer to the previous challenge is SP_LOST. -/
def execSelvedgeChallenge (ok : Bool) (s : State) : Host.Outcome State Fault Refusal :=
  if !(s.safRuns && s.saf.selRun) || ok then .next s
  else done s ((s.updSaf fun f => { f with spRun := false }).safDead 11 false)

/-! The Waland Safe Channel (R392 to R398). -/

/-- One connection. -/
def State.wsc (s : State) (n : Nat) : Wsc := s.saf.wsc.look n {}

/-- `s` with connection `n` changed by `f`. -/
def State.updWsc (n : Nat) (f : Wsc → Wsc) (s : State) : State := s.updSaf fun x => { x with wsc := x.wsc.upd n {} f }

/-- The configuration of connection `n`. -/
def State.wscCfg (s : State) (n : Nat) : WscCfg := s.cfg.wsc.look n {}

/-- This end sends (R398): a standby does not. -/
def State.wscSends (s : State) : Bool := s.drives || (s.sys.lone && s.running)

/-- The CRC that a PDU must carry (R394). -/
def wscCrc (id : Word) (len : Nat) (pdu : List Byte) : Word := crcWsc (le 4 id.toNat ++ slice pdu 0 (6 + len))

/-- The first check of R395 that a PDU fails: 1 LEN, 2 CRC, 3 SEQ, 4 ACKSEQ; 0 if it passes. -/
def State.wscCheck (s : State) (n : Nat) (pdu : List Byte) : Nat :=
  let c := s.wscCfg n
  let x := s.wsc n
  let d := BitVec.ofNat 16 (fieldN pdu 0 2) - x.lastSeq
  if fieldN pdu 5 1 ≠ c.len ∨ pdu.length ≠ 10 + c.len then 1
  else if fieldN pdu (6 + c.len) 4 ≠ (wscCrc c.id c.len pdu).toNat then 2
  else if x.state ≠ 1 ∧ ¬(1 ≤ d.toNat ∧ d.toNat ≤ 64) then 3
  else if s.wscSends = true ∧ (x.sent.all fun e => e.1.toNat ≠ fieldN pdu 2 2) = true then 4
  else 0

/-- A discarded PDU counts by kind (Table 14.7, SAF_WSC_ERR) and breaks a run of valid ones (R397). -/
def Wsc.discard (x : Wsc) (k : Nat) : Wsc :=
  let y := { x with valid := if x.state = 1 ∨ x.state = 3 then 0 else x.valid }
  if k = 1 then { y with eLen := y.eLen + 1 } else if k = 2 then { y with eCrc := y.eCrc + 1 } else { y with eSeq := y.eSeq + 1 }

/-- The deadline of an accepted PDU (R396): from the send time of the SEQ it acknowledges, or from its arrival on an end that
sends nothing; and the round trip in 0.1 ms. -/
def State.wscTimes (s : State) (n : Nat) (ack : BitVec 16) (x : Wsc) : Wsc :=
  let now := s.sys.opNs
  let wd := (s.wscCfg n).wd * 1000000
  if !s.wscSends then { x with deadline := some (now + wd) }
  else match x.sent.find? fun e => e.1 == ack with
    | none => { x with deadline := some (now + wd) }
    | some (_, t0) =>
      let r := BitVec.ofNat 16 ((now - t0) / 100000)
      { x with deadline := some (t0 + wd), rtt := r, rttMax := if x.rttMax < r then r else x.rttMax }

/-- What an accepted PDU does (R396, R397): the baseline of START, data from the second on, WAIT_ACK after two PDUs of a failed
connection. -/
def Wsc.accept (x : Wsc) (ackAuto fsv : Bool) (data : List Byte) : Wsc :=
  let zeros := List.replicate data.length 0
  let good := { x with fsv := fsv, data := if fsv then zeros else data }
  if x.state = 1 then (if x.valid = 0 then { x with valid := 1 } else { good with state := 2, valid := 2 })
  else if x.state = 2 then good
  else if x.state = 3 then
    let n := if fsv then 0 else x.valid + 1
    if n < 2 then { x with valid := n }
    else if ackAuto then { good with state := 2, valid := n } else { x with state := 4, valid := n }
  else x

/-- A PDU of connection `n` (R395); `primarySeq` is what a standby learns of the primary's last SEQ (R398). -/
def State.wscReceive (n : Nat) (pdu : List Byte) (primarySeq : BitVec 16) (s : State) : State :=
  let k := s.wscCheck n pdu
  let t := if s.wscSends then s else s.updWsc n fun x => { x with learned := some primarySeq }
  if k ≠ 0 then t.updWsc n fun x => x.discard k
  else
    let c := s.wscCfg n
    let ack := BitVec.ofNat 16 (fieldN pdu 2 2)
    t.updWsc n fun x =>
      let y := { x with lastSeq := BitVec.ofNat 16 (fieldN pdu 0 2), ackSeq := ack }
      (s.wscTimes n ack y).accept c.ackAuto ((fieldN pdu 4 1) % 2 = 1) (slice pdu 6 c.len)

/-- WSC_PDU_RECEIVE. -/
def execWscPduReceive (conn : Fin 64) (pdu : List Byte) (primarySeq : BitVec 16) (s : State) : Host.Outcome State Fault Refusal :=
  if s.safRuns && (s.wscCfg conn.val).en then .next (s.wscReceive conn.val pdu primarySeq) else .next s

/-- WSC_DEADLINE (R396): the connection fails. -/
def execWscDeadline (conn : Fin 64) (s : State) : Host.Outcome State Fault Refusal :=
  let n := conn.val
  let x := s.wsc n
  if !(s.safRuns && (s.wscCfg n).en) || x.deadline.isNone || decide (x.state = 3) then .next s
  else
    .next ((s.updWsc n fun y => { y with state := 3, fsv := true, valid := 0, deadline := none, eWd := y.eWd + 1,
                                         data := List.replicate (s.wscCfg n).len 0 }).log 0x0A05 6
      ([BitVec.ofNat 8 n, 0, 0, 0] ++ le 4 (s.wscCfg n).id.toNat ++ le 2 x.lastSeq.toNat))

/-- The PDU that connection `n` sends next (R393, R394, R398), and the state that has sent it. -/
def State.wscSend (n : Nat) (s : State) : List Byte × State :=
  let c := s.wscCfg n
  let x := s.wsc n
  let seq := match x.learned with
    | some q => q + 32
    | none => x.txSeq + 1
  let fsv := x.txFsv || decide (x.state = 3)
  let body := le 2 seq.toNat ++ le 2 x.lastSeq.toNat ++ [BitVec.ofNat 8 (bit fsv), BitVec.ofNat 8 c.len] ++ slice x.tx 0 c.len
  let sent := x.sent ++ [(seq, s.sys.opNs)]
  (body ++ le 4 (wscCrc c.id c.len body).toNat,
   s.updWsc n fun y => { y with txSeq := seq, learned := none, sent := sent.drop (sent.length - 64) })

/-! SP_CYCLE (R367, R378, R382 to R391). -/

/-- A store of SP into the memory of a CAN queue that it owns (R392, spec/12_can.md R324). -/
def State.spStore (d : DefSt) (s : State) : State :=
  match d with
  | .canCtl c q o b => if bits (s.canCfg c.val) 3 1 = 1 then s.canStore c.val q.val false o b else s
  | .canEnt c q o b => if bits (s.canCfg c.val) 3 1 = 1 then s.canStore c.val q.val true o b else s
  | _ => s

/-- The read-back of the outputs (Table 14.2): after 10 cycles with both switches open and a matching read-back, OUT_FAULT and
OVERCURRENT are gone. -/
def State.readBacks (m : BitVec 4) (s : State) : State :=
  let t := (List.range 4).foldl (fun (t : State) k => t.updSo k fun o =>
    let n := if m.getLsbD k && !o.hs && !o.ls then o.rbOk + 1 else 0
    if 10 ≤ n then { o with rbOk := n, outFault := false, overcur := false } else { o with rbOk := n }) s
  t.updSaf fun f => (f.setPresent 7 (f.isPresent 7 && f.so.anyV So.outFault)).setPresent 8 (f.isPresent 8 && f.so.anyV So.overcur)

/-- The safety program's data and acknowledgements for the connections (R393, R397). -/
def State.spWsc (r : SpRun) (s : State) : State :=
  let t := r.tx.foldl (fun (u : State) e => u.updWsc e.1 fun x => { x with tx := e.2.1, txFsv := e.2.2 }) s
  t.updSaf fun f => { f with wsc := f.wsc.map fun e =>
    (e.1, if r.acks.getLsbD e.1 && decide (e.2.state = 4) then { e.2 with state := 2 } else e.2) }

/-- The PDU of connection `n` goes into the data field of TXQ entry `i` of the channel that SP owns (R392). -/
def State.spCanPdu (n i : Nat) (s : State) : State :=
  let c := s.wscCfg n
  if c.en && decide (c.carrier = 2) && s.wscSends && decide (bits (s.canCfg c.unit) 3 1 = 1) then
    let (p, t) := s.wscSend n
    t.canStore c.unit 0 true (t.entAt c.unit 0 (BitVec.ofNat 16 i) + 32 + c.at_) p
  else s

/-- What SP stores into its CAN queues: the PDUs that are due, then the stores of its program. -/
def State.spStores (r : SpRun) (s : State) : State :=
  r.stores.foldl (fun (u : State) d => u.spStore d) (r.canTx.foldl (fun (u : State) e => u.spCanPdu e.1.val e.2) s)

/-- One SP cycle. -/
def State.spCycle (r : SpRun) (s : State) : State :=
  let t := (s.updSaf fun f => { f with spCyc := r.us, spCycMax := if f.spCycMax < r.us then r.us else f.spCycMax }).readBacks r.match_
  let t := (t.spWsc r).spStores r
  let t := if r.selBad then t.safDead 12 true else t
  let t := if r.diag then t.safDead 14 true else t
  let press := t.saf.spQual
  let good := press && decide (t.saf.present = 0)
  let t := if press then t.judgePress true t.saf.selQual else t
  (t.updSaf fun f => { f with spQual := false, selQual := f.selQual && !press }).spSwitch r.permits good

/-- SP_CYCLE. -/
def execSpCycle (r : SpRun) (s : State) : Host.Outcome State Fault Refusal :=
  if s.safRuns && s.saf.spRun then done s (s.spCycle r) else .next s

end Sys2Proof.Machine
end

