-- ==== Sys2Proof/Machine/Tly.lean ====
section
/-! DEFINITION. The Tally unit's writes, and reading and clearing it through registers (spec/15_tally_recorder.md). -/

namespace Sys2Proof.Machine

/-- A sealed record with the sequence of `r` stands in the pages of its region. -/
def Tly.holds (t : Tly) (r : TRec) : Bool :=
  (sealedRecs (t.pages (decide (r.sev = 7)))).any fun q => q.seq == r.seq && q.sev == r.sev

/-- What follows the seal of a record: an in-sync partner gets its header (spec/09_duplex_pair.md Table 9.2), and a record at or
above the severity of EVENT_CREATE is told by a TALLY event (spec/04_host_rings.md Table 4.11), whose SOURCE the spec does not
state (log entry 5). -/
def State.afterSeal (r : TRec) (s : State) : State :=
  let t := if s.sys.primary && s.insync then { s with tly := { s.tly with unsent := s.tly.unsent ++ [r.header] } } else s
  if s.hif.ev.live && decide (s.hif.ev.minSev ≤ r.sev) then
    t.draw.2.event 6 r.sev (t.draw.1.setWidth 32) (le 8 r.seq.toNat)
  else t

/-- The next record that may be written leaves the queue and is written and sealed (R404, R411, R412, R413). -/
def State.writeNext (s : State) : State :=
  match s.tly.next s.pwr.pfail with
  | none => s
  | some r =>
    let u := { s.tly with queue := s.tly.queue.filter fun q => q.seq != r.seq }.write r
    let t := { s with tly := u }
    if u.holds r then t.afterSeal r else t

/-- TALLY_WRITE. -/
def execTallyWrite (s : State) : Host.Outcome State Fault Refusal :=
  if s.running && s.tly.isOpen then done s s.writeNext else .next s

/-! The register port (R415). -/

/-- The record sought is copied into TLY_RDBUF. -/
def State.lookRecord (v : Word) (s : State) : State :=
  let t := s.setReg Reg.tlyRdseq v
  match s.tly.lookup ((s.reg Reg.tlyRdreg).getLsbD 0) v with
  | some r => { t with tly := { t.tly with found := true, later := decide (r.seq ≠ v), rdLen := BitVec.ofNat 8 r.len,
                                           rdBuf := padTo 1024 r.bytes } }
  | none => { t with tly := { t.tly with found := false, later := false, rdLen := 0, rdBuf := [] } }

/-- TLY_RDSEQ: a posted write (R415). -/
def execTlyRdseq (val : Word) (s : State) : Host.Outcome State Fault Refusal :=
  if s.reach then done s (s.postTo 0x0B0000 Reg.tlyRdseq val none) else .next s

/-! Clears (R417 to R422). -/

/-- A clear of a region needs an operator token in the mode (R417). -/
def needsToken (audit : Bool) (m : Mode) : Bool :=
  audit || (match m with
    | .stop | .run | .hold | .takeover | .activate | .faultHalt | .idleLink => true
    | .retain | .boot | .commission | .test | .recovery => false)

/-- The token of a TALLY_CLEAR payload of 128 bytes passes (R419). -/
def State.tokenOk (s : State) (p : List Byte) : Bool :=
  let msg := le 8 s.sys.uid.toNat ++ le 8 s.tly.nonce.toNat ++ slice p 0 16
  decide (fieldN p 16 8 = s.tly.nonce.toNat) && !s.boot.ks.locked &&
    (match s.boot.ks.op.find (fieldN p 24 1 % 8) with
     | some k => Config.ecdsaOk k (Config.sha256 msg) (slice p 64 64)
     | none => false)

/-- A clear refused: counted in TLY_CLRCNT. -/
def State.clearRefused (s : State) : State := { s with tly := { s.tly with clrRefused := s.tly.clrRefused + 1 } }

/-- A clear of the records `a` to `b` applied or refused (R420), with its reason. -/
def State.clearRange (audit : Bool) (a b : Word) (key : Nat) (s : State) : Nat × State :=
  let r := s.tly.clearReason audit a b
  (r, if r = 0 then s.applyClear audit a b key else s.clearRefused)

/-- The log is cleared through registers (R422): a refusal leaves its reason in TLY_STAT. -/
def State.registerClear (s : State) : State :=
  let (r, t) := s.clearRange false (s.reg Reg.tlyClrFrom) (s.reg Reg.tlyClrTo) 0xFF
  { t with tly := { t.tly with clrReason := BitVec.ofNat 8 r } }

/-- A word written to TLY_CLRKEY (R422). -/
def State.clrWord (v : Word) (s : State) : State :=
  let bad := ({ s with tly := { s.tly with clrKey := none } }).seqErr Reg.tlyClrkey
  if needsToken false s.sys.mode then bad
  else match keyStep 0x0000C1EA 0x0000AE1C v s.sys.opNs s.tly.clrKey with
    | some (k, full) =>
      let t := { s with tly := { s.tly with clrKey := k } }
      if full then t.registerClear else t
    | none => bad

/-- TLY_CLRKEY. -/
def execTlyClrkey (val : Word) (s : State) : Host.Outcome State Fault Refusal :=
  if s.reach then done s (s.postTo 0x0B0000 Reg.tlyClrkey val none) else .next s

end Sys2Proof.Machine
end

