-- ==== Sys2Proof/Machine/Mem.lean ====
section
/-! DEFINITION. DRAM codewords, rinse, device marking, SRAM and MRAM, and error injection (spec/16_memory_integrity.md). -/

namespace Sys2Proof.Machine

/-- `s` with the MEM block changed by `f`. -/
def State.updMm (f : Mm → Mm) (s : State) : State := { s with mm := f s.mm }

/-! Decoding (R426, Table 16.2). -/

/-- What the decoder makes of a codeword: clean, corrected in the symbols named, or uncorrectable. -/
inductive Dec where
  | clean | fixed (syms : List Nat) | bad
deriving DecidableEq, Repr

/-- The symbols in error that are no erasures of the marked device (R425, R426). -/
def liveSyms (mark : Option Nat) (syms : List Nat) : List Nat :=
  match mark with
  | some d => syms.filter fun x => x / 2 != d
  | none => syms

/-- The outcome of Table 16.2 for a codeword whose symbols `syms` are in error; `mis` is what a miscorrection changes in the rows
without a guarantee (log entry 20): at
most two symbols of the shortened code, none of them an erasure. -/
def decodeSyms (mark : Option Nat) (syms : List Nat) (mis : Option (List Nat)) : Dec :=
  let e := liveSyms mark syms
  if e.length = 0 then .clean
  else if e.length ≤ 2 then .fixed e
  else if mark = none ∧ e.length ≤ 4 then .bad
  else match mis with
    | some m =>
      let l := liveSyms mark m
      if 1 ≤ l.length ∧ l.length ≤ 2 ∧ l.all (fun x => decide (x < 38)) = true then .fixed l else .bad
    | none => .bad

/-- The devices of a list of symbols, each once, rising. -/
def devicesOf (syms : List Nat) : List Nat := (List.range 19).filter fun d => syms.any fun x => x / 2 == d

/-! Corrections (R427, R430, R431). -/

/-- MEM_MARKTHR in use: 0 acts as 0x0020 (Table 16.3). -/
def State.markThr (s : State) : Nat :=
  let v := bits (s.voted Reg.memMarkthr) 0 16
  if v = 0 then 0x20 else v

/-- The corrections of a device in the 3,600 s of operating time before `now` (R430); those of the marked device stand. -/
def DevE.hourAt (d : DevE) (now : Nat) : Nat :=
  if d.marked then d.hour.length else d.hour.countP fun t => decide (now < t + 3600000000000)

/-- A correction of device `d` counted. -/
def State.countDevice (d : Nat) (s : State) : State :=
  s.updMm fun m => { m with devs := m.devs.upd d {} fun x =>
    { x with hour := (x.hour.filter fun t => decide (s.sys.opNs < t + 3600000000000)) ++ [s.sys.opNs], boot := x.boot + 1 } }

/-- What follows when a device exceeds the threshold: it is marked (R430), or, beside a marked one, a record per hour (R431). -/
def State.judgeDevice (d : Nat) (s : State) : State :=
  let x := s.mm.devs.look d {}
  if x.hour.length ≤ s.markThr then s
  else match s.mm.markDev with
    | none => s.markDevice d 1
    | some _ =>
      if (match x.overT with
          | some t => decide (t + 3600000000000 ≤ s.sys.opNs)
          | none => true) then
        (s.updMm fun m => { m with devs := m.devs.upd d {} fun y => { y with overT := some s.sys.opNs } }).log 0x0C04 5
          ([BitVec.ofNat 8 d, 0] ++ le 2 (sat 16 x.hour.length))
      else s

/-- The warning record of a correction: at most one per device per second (R427; log entry 28). -/
def State.warnDevices (ds named : List Nat) (addr : Nat) (rinse : Bool) (s : State) : State :=
  if ds.all fun d => (match (s.mm.devs.look d {}).warnT with
      | some t => decide (t + 1000000000 ≤ s.sys.opNs)
      | none => true) then
    (s.updMm fun m => { m with devs := ds.foldl (fun (t : Tab DevE) d => t.upd d {} fun y => { y with warnT := some s.sys.opNs }) m.devs }).log
      0x0C01 3 ([BitVec.ofNat 8 (named.headD 31), BitVec.ofNat 8 ((named.drop 1).headD 31), BitVec.ofNat 8 (bit rinse), 0, 0, 0, 0, 0] ++
        le 8 addr)
  else s

/-- The devices that MEM_CE_INFO and the record name: those corrected and the marked one, whose symbols were erasures, in
rising order (Table 16.4; log entry 49). -/
def Mm.named (m : Mm) (syms : List Nat) : List Nat :=
  devicesOf (match m.markDev with
    | some d => 2 * d :: syms
    | none => syms)

/-- The other codeword of the line that holds the codeword at `addr`. -/
def otherWord (addr : Nat) : Nat := if addr % 64 < 32 then addr + 32 else addr - 32

/-- The corrected line is due to be written back (R428), unless its other codeword is uncorrectable: such a line stays as it is
(R429). -/
def Mm.dueBack (m : Mm) (addr : Nat) : List Nat :=
  if m.wbPend.contains (addr / 64) || decide (decodeSyms m.markDev (m.bad.look (otherWord addr) []) none = .bad) then m.wbPend
  else m.wbPend ++ [addr / 64]

/-- A corrected codeword (R427, R428): counted, and its line is due to be written back. -/
def State.corrected (addr : Nat) (syms : List Nat) (rinse : Bool) (s : State) : State :=
  let ds := devicesOf syms
  let named := s.mm.named syms
  let t := s.updMm fun m => { m with
    ceCnt := m.ceCnt + 1, ceAddr := addr, dev0 := BitVec.ofNat 5 (named.headD 31), dev1 := BitVec.ofNat 5 ((named.drop 1).headD 31),
    erased := m.markDev.isSome, ceRinse := rinse, passCe := if rinse then m.passCe + 1 else m.passCe,
    wbPend := m.dueBack addr }
  let t := ds.foldl (fun (u : State) d => u.countDevice d) t
  ds.foldl (fun (u : State) d => u.judgeDevice d) (t.warnDevices ds named addr rinse)

/-! Uncorrectable codewords (R429). -/

/-- MEM_UE_INFO (Table 16.3). -/
def Mm.ueInfo (m : Mm) : Nat := bit m.ueRinse + 2 * bit m.uePartial + 4 * m.ueCls.toNat

/-- An uncorrectable codeword: counted, recorded, and an unrecoverable fault of the module unless rinse found it. -/
def State.uncorrectable (addr : Nat) (rinse part : Bool) (cls : Nat) (s : State) : State :=
  let t := s.updMm fun m => { m with
    ueCnt := m.ueCnt + 1, ueAddr := addr, ueRinse := rinse, uePartial := part, ueCls := BitVec.ofNat 2 cls,
    passUe := if rinse then m.passUe + 1 else m.passUe }
  let t := t.log 0x0C02 5 ([BitVec.ofNat 8 t.mm.ueInfo, 0, 0, 0, 0, 0, 0, 0] ++ le 8 addr)
  if rinse then t else t.unrecoverable 7

/-- A codeword is read: the stored symbols in error, joined by `syms`, are decoded (R426). -/
def State.readCodeword (addr : Nat) (syms : List Nat) (mis : Option (List Nat)) (rinse part : Bool) (cls : Nat) (s : State) : State :=
  let old := s.mm.bad.look addr []
  let all := old ++ syms.filter fun x => !old.contains x
  let t := if syms.isEmpty then s else s.updMm fun m => { m with bad := m.bad.put addr all }
  match decodeSyms s.mm.markDev all mis with
  | .clean => t
  | .fixed e => t.corrected addr e rinse
  | .bad => t.uncorrectable addr rinse part cls

/-- A whole line is written (R428, R429): its codewords are good from then on, and a write-back that waits for it is dropped. An
armed injection into it corrupts its first codeword (R437). -/
def State.writeLine (line : Nat) (s : State) : State :=
  let t := s.updMm fun m => { m with
    bad := (m.bad.del (64 * line)).del (64 * line + 32), wbPend := m.wbPend.filter fun l => l != line }
  match s.mm.inj.find line with
  | some mask =>
    let e := ((List.range 19).filter fun d => mask.testBit d).flatMap fun d => [2 * d, 2 * d + 1]
    (t.updMm fun m => { m with bad := if e.isEmpty then m.bad else m.bad.put (64 * line) e, inj := m.inj.del line })
  | none => t

/-- One access of an engine to DRAM; the accesses behind an unrecoverable fault do not take place. -/
def State.access (a : MemAcc) (s : State) : State :=
  match a with
  | .read addr syms mis part cls => s.readCodeword addr syms mis false part cls.val
  | .write line => s.writeLine line

/-! Rinse (R433, R434). -/

/-- Rinse runs: DRAM is trained and out of self-refresh. -/
def State.rinses (s : State) : Bool := s.running && s.mm.trained && s.mm.rinseRun && decide (s.sys.mode ≠ .idleLink)

/-- The position moves to the next line; a pass ends after the last. -/
def Mm.nextLine (m : Mm) (behind : Bool) : Mm :=
  if m.pos + 1 < 2 ^ 28 then { m with pos := m.pos + 1, behind := behind }
  else { m with pos := 0, passes := m.passes + 1, behind := behind, lastCe := BitVec.ofNat 16 (sat 16 m.passCe),
                lastUe := BitVec.ofNat 16 (sat 16 m.passUe), passCe := 0, passUe := 0 }

/-- A line in which rinse has found an uncorrectable codeword is not written back: it stays as it is (R429). -/
def State.rinsed (old line : Nat) (s : State) : State :=
  if decide (s.mm.ueCnt.toNat = old) then s else s.updMm fun m => { m with wbPend := m.wbPend.filter fun l => l != line }

/-- RINSE_READ: both codewords of the next line are read; `e0` and `e1` are their symbols newly in error. -/
def execRinseRead (e0 e1 : List Nat) (m0 m1 : Option (List Nat)) (behind : Bool) (s : State) : Host.Outcome State Fault Refusal :=
  if s.rinses then
    let a := 64 * s.mm.pos
    let t := (s.readCodeword a e0 m0 true false 3).readCodeword (a + 32) e1 m1 true false 3
    done s ((t.rinsed s.mm.ueCnt.toNat s.mm.pos).updMm fun m => m.nextLine behind)
  else .next s

/-- CORRECTED_WRITE_BACK (R428): the corrected line is written, unless a newer write has come. -/
def execCorrectedWriteBack (line : Nat) (s : State) : Host.Outcome State Fault Refusal :=
  if s.running && s.mm.wbPend.contains line then .next (s.writeLine line) else .next s

/-! SRAM and MRAM (R435, R436). -/

/-- SRAM_SWEEP: `ce` words corrected, `refetch` clean cache lines fetched again, and `dbl` double errors anywhere else. -/
def execSramSweep (ce refetch dbl : Nat) (s : State) : Host.Outcome State Fault Refusal :=
  if !s.running then .next s
  else
    let t := s.updMm fun m => { m with sramCe := m.sramCe + BitVec.ofNat 32 ce, refetch := m.refetch + BitVec.ofNat 16 refetch,
                                       fatal := m.fatal + BitVec.ofNat 16 dbl }
    done s (if dbl = 0 then t else t.unrecoverable 7)

/-- A parity mismatch of the field at `off` in group `g` of record 0x0005 (spec/03_register_conventions.md R78, Table 3.5). -/
def State.parityTrip (off g : Nat) (s : State) : State :=
  if s.sys.parTrip.contains g then s
  else
    match g with
    | 1 => (s.tripGroup off 1).lockout 3 0 0 true false
    | 2 => (s.tripGroup off 2).lockout 3 0 0 false false
    | 3 => s.keyTrip off
    | _ => (s.tripGroup off g).unrecoverable 5

/-- MRAM_SCRUB: `ce` words corrected and the double errors found. -/
def execMramScrub (ce : Nat) (errs : List MramErr) (s : State) : Host.Outcome State Fault Refusal :=
  if !s.running then .next s
  else
    done s (s.mramRead ce errs)

/-! Error injection (R437). -/

/-- The line that MEM_INJ_ADDR names. -/
def State.injLine (s : State) : Nat := ((s.reg Reg.memInjAddrLo).toNat + bits (s.reg Reg.memInjAddrHi) 0 2 * 2 ^ 32) / 64

/-- A word written to MEM_INJ_CTRL: ARM takes the address and the mask (spec/03_register_conventions.md R69), 0 ends it. -/
def State.injWord (v : Word) (s : State) : State :=
  if s.sys.mode ≠ .test then s.roWr Reg.memInjCtrl
  else if v.getLsbD 0 then s.updMm fun m => { m with inj := [(s.injLine, bits (s.reg Reg.memInjMask) 0 19)] }
  else s.updMm fun m => { m with inj := [] }

/-- MEM_INJ_ARM: a write of ARM. -/
def execMemInjArm (s : State) : Host.Outcome State Fault Refusal :=
  if s.reach then done s (s.injWord 1) else .next s

end Sys2Proof.Machine
end

