-- ==== Sys2Proof/Machine/Maps.lean ====
section
/-! DEFINITION. State maps and their runs (spec/08_online_change.md Tables 8.5, 8.6), used by an online change and by a
configuration switch. -/

namespace Sys2Proof.Config

/-- How far the first-call bytes of successive edge-detector instances lie apart (spec/08_online_change.md Table 8.6 gives no
layout; log entry 30). -/
opaque edgeStride : Nat

end Sys2Proof.Config

namespace Sys2Proof.Machine

/-- The run of the 16 bytes at `at_` (Table 8.5). -/
def parseRun (b : List Byte) (at_ : Nat) : MapRun :=
  { src := fieldN b at_ 4, dst := fieldN b (at_ + 4) 4, len := fieldN b (at_ + 8) 4, rule := fieldN b (at_ + 12) 1,
    cls := fieldN b (at_ + 13) 1 }

/-- The runs of a map section, in array order. -/
def parseRuns (b : List Byte) : List MapRun := (List.range (b.length / 16)).map fun i => parseRun b (16 * i)

/-- The bytes a run reads of the old state area, or of the initial data for INIT. -/
def MapRun.reads (r : MapRun) : Nat :=
  match r.rule with
  | 0 | 1 => r.len
  | 3 | 5 => 2 * r.len
  | 4 | 6 | 7 => 4 * r.len
  | _ => 0

/-- The bytes a run writes. -/
def MapRun.writes (r : MapRun) : Nat :=
  match r.rule with
  | 0 | 1 | 2 => r.len
  | 3 | 5 => 4 * r.len
  | 4 | 6 | 7 => 8 * r.len
  | _ => r.len

/-- How far from its DST a run writes: the instances of EDGE_FIRST lie a stride apart. -/
def MapRun.spans (r : MapRun) : Nat := if r.rule = 8 then (if r.len = 0 then 0 else Config.edgeStride * (r.len - 1) + 1) else r.writes

/-- Where the globals begin in the state area of a class; its data lies below (log entry 30). -/
def globAt : Nat := 0x80000000

/-- A state area: the data of a class and its globals. -/
structure Area2 where
  data : Mem
  glob : Mem
deriving DecidableEq, Repr

/-- The byte at `a` of a state area. -/
def Area2.rd (x : Area2) (a : Nat) : Byte := if a < globAt then x.data.rd a else x.glob.rd (a - globAt)

/-- A state area with byte `b` at `a`. -/
def Area2.wr (x : Area2) (a : Nat) (b : Byte) : Area2 :=
  if a < globAt then { x with data := x.data.wr a b } else { x with glob := x.glob.wr (a - globAt) b }

/-- `n` bytes of a state area. -/
def Area2.rdN (x : Area2) (a n : Nat) : List Byte := (List.range n).map fun i => x.rd (a + i)

/-- A state area with the bytes `bs` from `a` on. -/
def Area2.wrN (x : Area2) (a : Nat) : List Byte → Area2
  | [] => x
  | b :: bs => Area2.wrN (x.wr a b) (a + 1) bs

/-- The bytes `b` widened to twice their length, with the sign if `signed`. -/
def widen (signed : Bool) (b : List Byte) : List Byte :=
  let neg := signed && (match b.getLast? with
    | some x => x.getLsbD 7
    | none => false)
  b ++ List.replicate b.length (if neg then 0xFF else 0)

/-- The position of the highest bit set of `n`, searched from `k` down. -/
def topBit (n : Nat) : Nat → Nat
  | 0 => 0
  | k + 1 => if n.testBit (k + 1) then k + 1 else topBit n k

/-- The binary64 word equal to a binary32 word (rule F32_F64). -/
def f32to64 (w : Word) : DWord :=
  let sgn := bits w 31 1
  let e := bits w 23 8
  let f := bits w 0 23
  let body :=
    if e = 255 then 2047 * 2 ^ 52 + f * 2 ^ 29
    else if e ≠ 0 then (e + 896) * 2 ^ 52 + f * 2 ^ 29
    else if f = 0 then 0
    else (topBit f 22 + 874) * 2 ^ 52 + (f - 2 ^ topBit f 22) * 2 ^ (52 - topBit f 22)
  BitVec.ofNat 64 (sgn * 2 ^ 63 + body)

/-- Element `i` of a conversion, from `b`. -/
def MapRun.convert (rule : Nat) (b : List Byte) : List Byte :=
  if rule = 7 then le 8 (f32to64 (BitVec.ofNat 32 (unle b))).toNat else widen (decide (rule ≤ 4)) b

/-- A run carried out (Table 8.6): it reads `old` or the initial data `ini` and writes `new`. -/
def MapRun.apply (ini : List Byte) (old : Area2) (r : MapRun) (new : Area2) : Area2 :=
  match r.rule with
  | 0 => new.wrN r.dst (old.rdN r.src r.len)
  | 1 => new.wrN r.dst (slice ini r.src r.len)
  | 2 => new.wrN r.dst (List.replicate r.len 0)
  | 8 => (List.range r.len).foldl (fun (x : Area2) i => x.wr (r.dst + Config.edgeStride * i) 1) new
  | _ =>
    let n := r.reads / max 1 r.len
    (List.range r.len).foldl (fun (x : Area2) i =>
      x.wrN (r.dst + 2 * n * i) (MapRun.convert r.rule (old.rdN (r.src + n * i) n))) new

/-- The runs of class `c` carried out in array order; what no run writes keeps `base`. -/
def mapArea (ini : List Byte) (runs : List MapRun) (c : Nat) (old base : Area2) : Area2 :=
  (runs.filter fun r => r.cls == c).foldl (fun (x : Area2) r => r.apply ini old x) base

/-- The memories of class `c` after a map (R223): its data, its own globals and its published globals. -/
def ClsMem.mapped (ini : List Byte) (runs : List MapRun) (c : Nat) (init : Mem) (m : ClsMem) : ClsMem :=
  let a := mapArea ini runs c { data := m.data, glob := m.glob } { data := init, glob := [] }
  let g := mapArea ini runs c { data := m.data, glob := m.globPub } { data := init, glob := [] }
  { m with data := a.data, glob := a.glob, globPub := g.glob, dirty := m.dirty.filter fun (e : Nat × Nat) => decide (e.1 = 1) }

/-- `n` bytes at `a` lie in the state area of class `c`: `size c` bytes of data, `size (c + 8)` bytes of globals. -/
def inArea (size : Nat → Nat) (c a n : Nat) : Bool :=
  decide (a + n ≤ size c ∧ a + n ≤ globAt) || (decide (globAt ≤ a) && decide (a - globAt + n ≤ size (c + 8)))

/-- A run is well formed (R216): its class is in `mask`, it reads the old state area or `iniLen` bytes of initial data, and
it writes the new state area. -/
def MapRun.ok (mask : BitVec 8) (oldSize newSize : Nat → Nat) (iniLen : Nat) (r : MapRun) : Bool :=
  decide (r.rule ≤ 8) && decide (r.cls < 8) && mask.getLsbD r.cls && inArea newSize r.cls r.dst r.spans &&
    (if r.rule = 1 then decide (r.src + r.len ≤ iniLen)
     else if r.rule = 2 ∨ r.rule = 8 then true else inArea oldSize r.cls r.src r.reads)

end Sys2Proof.Machine
end

