-- ==== Sys2Proof/Machine/Change.lean ====
section
/-! DEFINITION. The online program change (spec/08_online_change.md): packages, their checks, the exchange and the status. -/

namespace Sys2Proof.Config

/-- The new program that a change package makes of the program it is based on (sections 0x01, 0x02, 0x05, 0x06; log entry 6). -/
opaque newProgram : List Byte → List Byte → List Byte

/-- A package alters nothing that Table 8.1 marks as unchangeable, and no unchanged class reads a changed layout
(R213, R218; the layout of a class descriptor is not in the spec; log entry 6). -/
opaque pkgAllowed : List Byte → List Byte → Bool

/-- The darn reserve of a class in ns, from its descriptor in a package (R222; log entry 6). -/
opaque darnReserve : List Byte → Nat → Nat

/-- The size in bytes of the data of class `c`, and of its globals for `c + 8`, of a stored program (R216; log entry 6). -/
opaque areaSize : List Byte → Nat → Nat

/-- The items that a package initialises where a record names them (R223), by its forward map or, if the flag is set, by its reverse map
(R230): class, kind, handle, qualified name (log entry 6). -/
opaque initialised : List Byte → Bool → List (Nat × Nat × BitVec 32 × List Byte)

end Sys2Proof.Config

namespace Sys2Proof.Machine

/-! Packages (Tables 8.3, 8.4). -/

/-- The header of a package, or of a RETURN. -/
structure Pkg where
  format : Nat
  op : Nat
  rsvd : Nat
  newVer : Word
  baseVer : Word
  classes : BitVec 8
  copyBytes : Nat
  runs : Nat
  sections : Nat
  wcet : Nat
  digest : List Byte
deriving DecidableEq, Repr

/-- The 64 bytes of a package header (Table 8.3). -/
def parsePkg (b : List Byte) : Pkg :=
  { format := fieldN b 0 2, op := fieldN b 2 1, rsvd := fieldN b 3 1 + fieldN b 13 3, newVer := BitVec.ofNat 32 (fieldN b 4 4),
    baseVer := BitVec.ofNat 32 (fieldN b 8 4), classes := BitVec.ofNat 8 (fieldN b 12 1), copyBytes := fieldN b 16 4,
    runs := fieldN b 20 4, sections := fieldN b 24 4, wcet := fieldN b 28 4, digest := slice b 32 32 }

/-- The sections of a package. -/
def pkgSections (b : List Byte) : List Section := parseSections b 64 (min 64 (parsePkg b).sections)

/-- The data of the sections of type `t` of a package. -/
def pkgData (b : List Byte) (t : Nat) : List Byte := ((pkgSections b).filter fun x => x.type == t).flatMap fun x => x.data b

/-- The forward or reverse map of a package. -/
def pkgMap (b : List Byte) (reverse : Bool) : List MapRun := parseRuns (pkgData b (if reverse then 4 else 3))

/-- The changed classes of a mask. -/
def classList (m : BitVec 8) : List Nat := (List.range 8).filter fun c => m.getLsbD c

/-- A package passes the check of its header, sections and runs against the program it is based on (R216). -/
def pkgFormed (base b : List Byte) (op : Nat) : Bool :=
  let p := parsePkg b
  let new := Config.newProgram base b
  decide (p.format = 0x0801 ∧ p.op = op ∧ p.rsvd = 0) && decide (1 ≤ p.sections ∧ p.sections ≤ 64) &&
    decide (1 ≤ p.runs ∧ p.runs ≤ 262144) && decide (p.classes ≠ 0) &&
    (pkgSections b).all (fun x => x.good b (b.length - 64) && (x.type != 1 || (decide (x.cls < 8) && p.classes.getLsbD x.cls))) &&
    decide ((pkgMap b false).length = p.runs) &&
    (pkgMap b false).all (MapRun.ok p.classes (Config.areaSize base) (Config.areaSize new) (pkgData b 5).length) &&
    (pkgMap b true).all (MapRun.ok p.classes (Config.areaSize new) (Config.areaSize base) (pkgData b 5).length) &&
    decide (Config.sha256 new = p.digest)

/-- The least common multiple of the cycles of the changed classes, in ns (R220). -/
def State.exchangeL (s : State) (m : BitVec 8) : Nat := (classList m).foldl (fun l c => Nat.lcm l ((s.ccfg c).cycUs * 1000)) 1

/-- The changed class of shortest cycle. -/
def State.shortest (s : State) (m : BitVec 8) : Nat :=
  match (classList m).foldl (fun (b : Option Nat) c => match b with
    | none => some c
    | some d => if (s.ccfg c).cycUs < (s.ccfg d).cycUs then some c else some d) none with
  | some c => c
  | none => 0

/-- The copy time of R222 in units of 0.25 ns. -/
def copyTime4 (bytes runs : Nat) : Nat := 22000 + bytes + 80 * runs

/-- The limits of R220 and R222, and the reason for which a change breaks them. -/
def State.changeLimits (s : State) (pkg : List Byte) (m : BitVec 8) (bytes runs wcet : Nat) : Option Word :=
  let c := s.shortest m
  let cyc := (s.ccfg c).cycUs * 1000
  let soft := (s.liveReg (Reg.cycClsSoft + 0x40 * c)).toNat * 1000
  if 10000000000 < s.exchangeL m then some 0x36
  else if 4 * cyc < 5 * copyTime4 bytes runs then some 0x34
  else if 4 * soft < copyTime4 bytes runs + 4 * (wcet + Config.darnReserve pkg c) then some 0x35
  else none

/-- The package that holds the map between the active and the previous program, and whether a RETURN uses its reverse map:
it does while the active program is the package's new one (R230), which has the higher version (R217); each program is stored with the
maps of the package that made it. -/
def Change.returnMap (c : Change) : List Byte × Bool :=
  if c.actVer.toNat < c.prevVer.toNat then (c.prevMaps, false) else (c.actMaps, true)

/-- The check of a package against the active program of this module (R216 to R218, R222): its outcome as a verdict. -/
def State.checkPkg (b : List Byte) (s : State) : Verdict :=
  let p := parsePkg b
  if s.boot.ks.locked || !sigOk s.boot.ks.plant b then .no St.sigErr 0
  else if p.baseVer ≠ s.chg.actVer then .no St.refused 0x30
  else if !pkgFormed s.chg.active b 0 then .no St.refused 0x3B
  else if p.newVer.toNat ≤ (max s.chg.actVer.toNat s.chg.high.toNat) then .no St.refused 0x31
  else if !Config.pkgAllowed s.chg.active b then .no St.refused 0x33
  else match s.changeLimits b p.classes p.copyBytes p.runs p.wcet with
    | some r => .no St.refused r
    | none => .go

/-- The modes in which a change is accepted (R214). -/
def State.changeMode (s : State) : Bool :=
  match s.sys.mode with
  | .run | .test | .stop | .commission => true
  | _ => false

/-- A CHANGE, RETURN or activation is in progress (R217, spec/17_firmware_and_configuration.md R452). -/
def State.changeBusy (s : State) : Bool := decide (s.chg.state ≠ 0) || s.boot.act.busy || s.boot.act.awaitReady

/-- The checks of CHANGE on state. -/
def State.checkChange (h : Hcmd) (s : State) : Verdict :=
  if !s.changeMode then .no St.modeRefused 0
  else if s.changeBusy then .no St.refused 0x39
  else s.checkPkg h.payload

/-- The checks of RETURN on state (R230, R231). -/
def State.checkReturn (h : Hcmd) (s : State) : Verdict :=
  let p := parsePkg h.payload
  let (pkg, rev) := s.chg.returnMap
  let m := (parsePkg pkg).classes
  let runs := pkgMap pkg rev
  if !s.changeMode then .no St.modeRefused 0
  else if s.changeBusy then .no St.refused 0x39
  else if p.format ≠ 0x0801 ∨ p.op ≠ 1 ∨ p.rsvd ≠ 0 then .no St.refused 0x3B
  else if p.baseVer ≠ s.chg.actVer then .no St.refused 0x30
  else if s.chg.previous.isEmpty ∨ p.newVer ≠ s.chg.prevVer ∨ p.digest ≠ s.chg.prevDig then .no St.refused 0x31
  else match s.changeLimits pkg m ((runs.map MapRun.writes).sum) runs.length p.wcet with
    | some r => .no St.refused r
    | none => .go

/-! Content over the baste link. -/

/-- The parts of a content as IMAGE records (spec/09_duplex_pair.md Table 9.14): at most 32 KiB each. -/
def State.sendImage (kind : Nat) (b : List Byte) (s : State) : State :=
  let n := max 1 ((b.length + 32767) / 32768)
  (List.range n).foldl (fun (t : State) i =>
    t.sendPart 0x0C false false (decide (i + 1 = n))
      ([BitVec.ofNat 8 kind, 0, 0, 0] ++ le 4 b.length ++ le 8 (32768 * i) ++ (b.drop (32768 * i)).take 32768)) s

/-! Preparing and recording (R219, R220). -/

/-- `s` with the change record changed by `f`. -/
def State.updChg (f : Change → Change) (s : State) : State := { s with chg := f s.chg }

/-- The change that `h` asks for is set up; `ret` for a RETURN. -/
def State.setUpChange (ret : Bool) (h : Hcmd) (s : State) : State :=
  let p := parsePkg h.payload
  s.updChg fun c => { c with
    state := 1, moves := 0, isReturn := ret, slot := h.slot, recorded := false, xDue := false, awaitCls := [],
    package := if ret then c.package else h.payload, stored := ret || (c.pkgDone && decide (c.package = h.payload)),
    pkgDone := c.pkgDone && (ret || decide (c.package = h.payload)), cmd := none,
    classes := if ret then (parsePkg c.returnMap.1).classes else p.classes,
    newVer := p.newVer, newDig := p.digest, peerReady := ret || !s.insync }

/-- The work of a CHANGE before its record: the package goes to an in-sync partner and to slot memory. A package that is
stored already, without such a partner, needs neither (R227). -/
def State.prepareChange (h : Hcmd) (s : State) : Option State :=
  let t := s.setUpChange false h
  if t.chg.stored && t.chg.peerReady then none
  else some (if s.insync then
    let u := t.sendImage 4 h.payload
    u.updChg fun c => { c with pkgRseq := u.dpx2.rseqTx }
  else t)

/-- The first multiple of `l` that is at least `t`. -/
def nextMultiple (l t : Nat) : Nat := if l = 0 then t else (t + l - 1) / l * l

/-- The exchange instant (R220): the first whole multiple of L at least 5 ms after the record is durable, which a journaled record is
at once and a mirrored one at most 200 µs after it is sent (log entry 31); outside RUN and TEST, the next 1 ms tick of the
operating-time counter (R214). -/
def State.exchangeAt (s : State) : Nat :=
  if s.sys.mode = .run ∨ s.sys.mode = .test then
    nextMultiple (s.exchangeL s.chg.classes) (s.tim.ns + (if s.insync then 5200000 else 5000000))
  else s.tim.ns + (1000000 - s.sys.opNs % 1000000)

/-- The cycle number of the boundary of the shortest changed class at the time `t`. -/
def State.exchangeCyc (s : State) (t : Nat) : DWord :=
  let c := s.shortest s.chg.classes
  let k := max 1 ((s.ccfg c).cycUs * 1000)
  (s.cls c).cycno + BitVec.ofNat 64 (t / k - s.tim.ns / k)

/-- The time of the boundary of cycle `n` of the shortest changed class. -/
def State.exchangeNs (s : State) (n : DWord) : Nat :=
  let c := s.shortest s.chg.classes
  let k := max 1 ((s.ccfg c).cycUs * 1000)
  (s.tim.ns / k + (n - (s.cls c).cycno).toNat) * k

/-- The exchange is scheduled once the record is durable; the standby takes the instant from the record's cycle number. -/
def State.scheduleAt (ns : Nat) (s : State) : State :=
  s.updChg fun c => { c with state := 3, recorded := true, xNs := ns, xcyc := s.exchangeCyc ns }

/-- The cycle number that the record of the command of ring `n` carried to the standby; 0 if none went there. -/
def State.sentCyc (s : State) (n : Nat) : DWord := match (s.ring n).infl with
  | some i => BitVec.ofNat 64 i.aux
  | none => 0

/-- The effect of a CHANGE or RETURN: the exchange is scheduled, for the cycle that a mirrored record has named, and the completion
waits for the commits (R219). -/
def State.scheduleChange (ret : Bool) (h : Hcmd) (s : State) : HRes :=
  let t := s.setUpChange ret h
  let n := s.sentCyc h.slot
  let at_ := if n ≠ 0 ∧ (t.sys.mode = .run ∨ t.sys.mode = .test) then t.exchangeNs n else t.exchangeAt
  { s := (t.updChg fun c => { c with stored := true, peerReady := true, pkgDone := true }).scheduleAt at_, wait := true }

/-- The prepared command of the change in progress is recorded once the package is stored and the standby is ready. -/
def State.recordChange (op : HostOp) (s : State) : State :=
  if s.chg.stored && s.chg.peerReady then
    match (s.ring s.chg.slot).infl with
    | some i => s.record op i.cmd St.ok 0 (s.exchangeCyc s.exchangeAt)
    | none => s
  else s

/-- The change in progress ends without an exchange (R219, R221): both modules keep the old program. -/
def State.dropChange (s : State) : State :=
  s.updChg fun c => { c with state := 0, moves := 0, xcyc := 0, awaitCls := [], recorded := false, xDue := false, cmd := none }

/-- A change refused before its record with reason 0x37. -/
def State.refuseChange (s : State) : State := (s.dropChange).refusePrepared s.chg.slot 0x37

/-! The exchange (R221 to R225, Table 8.7). -/

/-- The class executes and has a cycle active, or its index is not written yet. -/
def State.changedActive (s : State) : Bool := (classList s.chg.classes).any fun c => (s.cls c).active

/-- The exchange moves to the next multiple of L with a notice record (R221). -/
def State.moveExchange (s : State) : State :=
  let n := s.chg.xNs + s.exchangeL s.chg.classes
  let t := s.updChg fun c => { c with moves := c.moves + 1, xNs := n,
                                      xcyc := c.xcyc + BitVec.ofNat 64 (s.exchangeL c.classes / max 1 ((s.ccfg (s.shortest c.classes)).cycUs * 1000)) }
  t.log 0x0205 2 ([BitVec.ofNat 8 t.chg.moves, 0, 0, 0] ++ le 8 t.chg.xcyc.toNat)

/-- The selection of programs after the exchange (R217, R230): the active and the previous change places, or the new one
becomes active. -/
def Change.select (c : Change) : Change :=
  if c.isReturn then
    let up : BitVec 32 := if c.actVer.toNat < c.prevVer.toNat then c.prevVer else c.actVer
    { c with active := c.previous, previous := c.active, actVer := c.prevVer, prevVer := c.actVer, actDig := c.prevDig,
             prevDig := c.actDig, actMaps := c.prevMaps, prevMaps := c.actMaps, high := if c.high.toNat < up.toNat then up else c.high }
  else
    { c with active := Config.newProgram c.active c.package, previous := c.active, actVer := c.newVer, prevVer := c.actVer,
             actDig := c.newDig, prevDig := c.actDig, actMaps := c.package, prevMaps := c.actMaps }

/-- A class maps its state: every class on the primary, a mirrored one on the standby, whose other data is not held (R226). -/
def State.mapClass (ini : List Byte) (runs : List MapRun) (new : Prog) (c : Nat) (s : State) : State :=
  if s.executes || (s.ccfg c).mirror then s.updMem c fun m => m.mapped ini runs c (new.init.look c [])
  else s.updMem c fun m => { m with data := new.init.look c [], glob := [], globPub := [] }

/-- The package whose map the exchange runs, and whether it runs in reverse (R217, R230). -/
def Change.mapOf (c : Change) : List Byte × Bool := if c.isReturn then c.returnMap else (c.package, false)

/-- The exchange of Table 8.7, orders 2 to 5: pending writes to the old state, the selection record, the map, then the symbol
table, the handles and the forces; the cycles that start on the new program read the changed-scan flag as 1 (R225), and a record names
every item that takes its initial value for want of a conversion (R223). -/
def State.exchangePrograms (s : State) : State :=
  let cs := classList s.chg.classes
  let m := s.chg.mapOf
  let t := cs.foldl (fun (u : State) c => u.applyPending c) s
  let t := t.updChg Change.select
  let new : Prog := { Config.parseProg t.chg.active with loaded := true }
  let t := cs.foldl (fun (u : State) c => u.mapClass (pkgData m.1 5) (pkgMap m.1 m.2) new c) t
  let t := { t with prog := new
                    cyc := { t.cyc with forces := t.cyc.forces.filter fun f => (new.vars.find f.elem.handle.toNat).isSome } }
  let t := if t.executes then cs.foldl (fun (u : State) c => u.updCls c fun x => { x with changedDue := true }) t else t
  (Config.initialised m.1 m.2).foldl (fun (u : State) (e : Nat × Nat × Word × List Byte) =>
    u.log 0x0206 3 ([BitVec.ofNat 8 e.1, BitVec.ofNat 8 e.2.1, 0, 0] ++ le 4 e.2.2.1.toNat ++ padTo 64 e.2.2.2)) t

/-- The change ends with its completion: of the command that waits for it, or, on a new primary, of the mirrored command `cmd`, into a
ring of its slot if there is one (R227; log entry 57). -/
def State.endChange (status : BitVec 16) (r0 : Word) (r1 : DWord) (s : State) : State :=
  match s.chg.cmd with
  | none => (s.dropChange).finishWaiting s.chg.slot status [] r0 r1
  | some h =>
    let r := s.ring h.slot
    if r.live && !r.cqHalt && !r.full then
      s.dropChange.postCqe h.noint { reqId := h.reqId, sqHead := 0, slot := h.slot, opcode := h.opcode, status := status, phase := true,
                                     dup := false, mirrored := true, journaled := false, rdone := 0, result0 := r0, result1 := r1,
                                     accTime := 0, node := s.sys.nodeId, jseq := 0 }
    else s.dropChange

/-- The completion of the change (R219): RESULT0 the version, RESULT1 the cycle number of the exchange boundary. -/
def State.completeChange (s : State) : State := s.endChange St.ok s.chg.newVer s.chg.xcyc

/-- The exchange on this module, which tells its partner its new versions (spec/09_duplex_pair.md Table 9.14): on the standby, and in STOP and COMMISSION, nothing is left to wait for. -/
def State.exchangeNow (s : State) : State :=
  let t := s.exchangePrograms
  let t := if t.cfg.partner then t.sendVersions else t
  if t.executes && decide (t.sys.mode = .run ∨ t.sys.mode = .test) then
    t.updChg fun c => { c with state := 4, awaitCls := classList c.classes }
  else if t.executes then t.completeChange else t.dropChange

/-- The instant on a module that does not execute: an in-sync standby exchanges once the last mirror record of the old program has
arrived, which the first one of the new version shows (R226, log entry 108); any other has no change to take part in. -/
def State.standbyInstant (s : State) : State := if s.insync then s.updChg fun c => { c with xDue := true } else s.dropChange

/-- EXCHANGE_INSTANT (R214, R221). -/
def State.exchangeInstant (s : State) : State :=
  if !s.executes then s.standbyInstant
  else if s.changedActive || s.pwr.pfail then
    if s.chg.moves = 3 then s.endChange St.refused 0x38 0 else s.moveExchange
  else s.exchangeNow

/-- The number of the cycle of class `d` that begins with cycle `n` of class `c`. -/
def State.cycleAt (s : State) (c : Nat) (n : DWord) (d : Nat) : DWord :=
  let k := max 1 ((s.ccfg c).cycUs * 1000)
  let l := max 1 ((s.ccfg d).cycUs * 1000)
  let at_ := (s.tim.ns / k - ((s.cls c).cycno - n).toNat) * k
  (s.cls d).cycno - BitVec.ofNat 64 (s.tim.ns / l - at_ / l)

/-- The mirrored host writes of class `c` up to cycle `n` are applied (Table 8.7, order 2; R224). -/
def State.applyMirrored (c : Nat) (n : DWord) (s : State) : State :=
  let x := s.mir.look c {}
  let t := (x.wr.filter fun e => decide (e.1.toNat ≤ n.toNat)).foldl (fun (u : State) e => u.pokeElem e.2) s
  { t with mir := t.mir.put c { x with wr := x.wr.filter fun e => decide (n.toNat < e.1.toNat) } }

/-- A mirror record of program version `v` of cycle `n` of class `c` reaches a standby with a recorded change (R226): the first one of the
new version comes after the last one of the old program, so the standby exchanges before it takes the record. -/
def State.meetVersion (v : Word) (c : Nat) (n : DWord) (s : State) : State :=
  if !s.executes && decide (s.chg.state = 3) && decide (v = s.chg.newVer) && decide (v ≠ s.chg.actVer) then
    ((classList s.chg.classes).foldl (fun (u : State) d => u.applyMirrored d (s.cycleAt c n d)) s).exchangeNow
  else s

/-- A commit of the old program for a cycle that begins at or after the last instant that R221 allows shows a standby that its primary has
abandoned the change (log entry 108). -/
def State.changeLapsed (v : Word) (c : Nat) (n : DWord) (s : State) : State :=
  let k := max 1 ((s.ccfg c).cycUs * 1000)
  if !s.executes && decide (s.chg.state = 3) && decide (c = s.shortest s.chg.classes) && decide (v = s.chg.actVer) &&
      decide (s.chg.xcyc.toNat + 3 * (s.exchangeL s.chg.classes / k) ≤ n.toNat) then s.dropChange
  else s

/-- The first commit of a new primary whose exchange instant has passed without a record of the new version (R227): it runs the old
program, and exchanges at the first multiple of L after this commit. -/
def State.resumeChange (s : State) : State :=
  if decide (s.chg.state = 3) && s.chg.xDue then
    (s.updChg fun c => { c with xDue := false }).scheduleAt (nextMultiple (s.exchangeL s.chg.classes) (s.tim.ns + 1))
  else s

/-- EXCHANGE_INSTANT; an instant that has passed on the standby is not met again before a new primary sets the next one, and one that
passes in TAKEOVER is made good after the first commit (R227). -/
def execExchangeInstant (s : State) : Host.Outcome State Fault Refusal :=
  if s.running && decide (s.chg.state = 3) && !s.chg.xDue then
    (if s.changeMode then done s s.exchangeInstant
     else if decide (s.sys.mode = .takeover) then done s (s.updChg fun c => { c with xDue := true }) else .next s)
  else .next s

/-- The first commit of class `c` on the new program (R219): the command completes after the last one. -/
def State.changeCommitted (c : Nat) (s : State) : State :=
  if s.chg.state = 4 then
    let l := s.chg.awaitCls.filter fun d => d != c
    let t := s.updChg fun x => { x with awaitCls := l }
    if l.isEmpty then t.completeChange else t
  else s

/-! The operations of PROGRAM_LOAD (R215). -/

/-- The checks of an entry (Table 8.2): OP in TARGET[1:0], other fields 0. -/
def changeStatic (dmin dmax rmin : Nat) (anyR : Bool) (h : Hcmd) : Option (BitVec 16) :=
  let g := if anyR then { h with rlen := 0 } else h
  orElse (orElse (commonCheck false dmin dmax rmin g) (decide (h.target.toNat < 3)) St.invalidField)
    (decide (h.param0 = 0 ∧ h.param1 = 0 ∧ h.param2 = 0)) St.invalidField

/-- PROGRAM_LOAD CHANGE. -/
def opChange : HostOp :=
  { code := 0x48, admin := false, dur := .s, roleP := true, static := changeStatic 128 0x1000000 0 true
    check := fun h s => s.checkChange h, effect := fun h s => s.scheduleChange false h
    cyc := fun h s => (s.setUpChange false h).exchangeCyc (s.setUpChange false h).exchangeAt
    prepare := fun h s => s.prepareChange h }

/-- PROGRAM_LOAD RETURN. -/
def opReturn : HostOp :=
  { code := 0x48, admin := false, dur := .s, roleP := true, static := changeStatic 64 64 0 true
    check := fun h s => s.checkReturn h, effect := fun h s => s.scheduleChange true h
    cyc := fun h s => (s.setUpChange true h).exchangeCyc (s.setUpChange true h).exchangeAt }

/-- The 64 bytes of STATUS (Table 8.9). -/
def State.changeStatus (s : State) : List Byte :=
  let c := s.chg
  le 4 c.actVer.toNat ++ le 4 c.prevVer.toNat ++ [BitVec.ofNat 8 c.state.toNat, BitVec.ofNat 8 c.moves] ++ le 6 0 ++
    le 8 (if c.state = 0 then 0 else c.xcyc.toNat) ++ padTo 32 c.actDig ++ le 8 0

/-- PROGRAM_LOAD STATUS (R232). -/
def opStatus : HostOp :=
  { code := 0x48, admin := false, dur := .n, roleP := false, static := changeStatic 0 0 64 false
    check := fun _ _ => .go, effect := fun _ s => { s := s, ret := s.changeStatus, r0 := s.chg.actVer } }

/-- A PROGRAM_LOAD entry of operation `n` (R215); one whose OP is 3 keeps it, and is refused. -/
def loadEntry (h : Hcmd) (n : Nat) : Hcmd :=
  { h with opcode := 0x48, target := if h.target &&& 3 = 3 then h.target else (h.target &&& 0xFFFC) ||| BitVec.ofNat 16 n }

/-- PROGRAM_LOAD_CHANGE. -/
def execProgramLoadChange (h : Hcmd) (s : State) : Host.Outcome State Fault Refusal := done s (s.runCmd opChange (loadEntry h 0))

/-- PROGRAM_LOAD_RETURN. -/
def execProgramLoadReturn (h : Hcmd) (s : State) : Host.Outcome State Fault Refusal := done s (s.runCmd opReturn (loadEntry h 1))

/-- PROGRAM_LOAD_STATUS. -/
def execProgramLoadStatus (h : Hcmd) (s : State) : Host.Outcome State Fault Refusal := done s (s.runCmd opStatus (loadEntry h 2))

/-- The operation of the change in progress. -/
def State.changeOp (s : State) : HostOp := if s.chg.isReturn then opReturn else opChange

/-- This module's package is stored (R219): the primary records once the standby is ready too; a standby reports ready. -/
def State.packageStored (s : State) : State :=
  let t := s.updChg fun c => { c with stored := true, pkgDone := true, state := 2 }
  if s.executes then t.recordChange t.changeOp
  else t.notice 8 0 t.lastCommit t.chg.pkgRseq

/-- PACKAGE_STORE_DONE (R219, R118). -/
def execPackageStoreDone (s : State) : Host.Outcome State Fault Refusal :=
  if s.running && !s.pwr.pfail && decide (s.chg.state = 1) && !s.chg.stored then done s s.packageStored else .next s

/-- STANDBY_READY_TIMEOUT (R219). -/
def execStandbyReadyTimeout (s : State) : Host.Outcome State Fault Refusal :=
  if s.running && s.executes && decide (s.chg.state = 1 ∨ s.chg.state = 2) && !s.chg.peerReady then done s s.refuseChange
  else .next s

end Sys2Proof.Machine
end

