-- ==== Sys2Proof/Machine/Stage.lean ====
section
/-! DEFINITION. Staging, verifying and switching images (spec/17_firmware_and_configuration.md R448 to R462). -/

namespace Sys2Proof.Config

/-- The initial data that the INIT runs of a configuration's state map read (spec/17_firmware_and_configuration.md Table 17.4
names no section for it; log entry 6). -/
opaque mapInit : List Byte → List Byte

end Sys2Proof.Config

namespace Sys2Proof.Machine

/-! Areas (R448). -/

/-- The staging record of an area. -/
def Boot.stg (b : Boot) : Area → Stg
  | .fw => b.stgFw
  | .cfg => b.stgCfg
  | .keys => b.stgKey

/-- `b` with the staging record of an area. -/
def Boot.setStg (b : Boot) (a : Area) (g : Stg) : Boot :=
  match a with
  | .fw => { b with stgFw := g }
  | .cfg => { b with stgCfg := g }
  | .keys => { b with stgKey := g }

/-- The area of TARGET[1:0]. -/
def areaOf (n : Nat) : Area := if n = 1 then .fw else if n = 2 then .cfg else .keys

/-- The bytes at destination `d` of an area. -/
def Boot.imageAt (b : Boot) (a : Area) (d : Nat) : List Byte :=
  match a with
  | .fw => (b.bankOf (d == 1)).bytes
  | .cfg => b.cfgImage d
  | .keys => b.keyBuf

/-- The image staged in an area. -/
def Boot.stagedBytes (b : Boot) (a : Area) : List Byte := b.imageAt a (b.stg a).dest

/-- `b` with the bytes at destination `d` of an area; they are not verified. -/
def Boot.setBytes (b : Boot) (a : Area) (d : Nat) (x : List Byte) : Boot :=
  match a with
  | .fw => b.setBank (d == 1) { b.bankOf (d == 1) with bytes := x, ok := false }
  | .cfg => { b with cfgs := b.cfgs.upd d {} fun k => { k with bytes := x, ok := false } }
  | .keys => { b with keyBuf := x }

/-- The configuration slots that hold neither the active nor the previous version; among them the lowest version, then the
lowest number. -/
def Boot.freeCfg (b : Boot) : Nat :=
  let free := (List.range 4).filter fun n => b.cfgAct ≠ some n ∧ b.cfgPrev ≠ some n
  let ver (n : Nat) := (parseHdr (b.cfgImage n)).version.toNat
  match free.foldl (fun (x : Option Nat) n => match x with
    | none => some n
    | some m => if ver n < ver m then some n else some m) none with
  | some n => n
  | none => 0

/-- The destination that the module chooses for a new image. -/
def Boot.destOf (b : Boot) : Area → Nat
  | .fw => bit (!b.bank)
  | .cfg => b.freeCfg
  | .keys => 0

/-- The area is in use by an activation. -/
def Boot.areaBusy (b : Boot) : Area → Bool
  | .fw => b.act.busy && b.act.fw
  | .cfg => b.act.busy && b.act.cfg
  | .keys => false

/-- `s` with the BOOT block changed by `f`. -/
def State.updBoot (f : Boot → Boot) (s : State) : State := { s with boot := f s.boot }

/-- `s` with the activation changed by `f`. -/
def State.updAct (f : Act → Act) (s : State) : State := s.updBoot fun b => { b with act := f b.act }

/-! IMAGE_WRITE (R448, R450, R451). -/

/-- TARGET is an area, and the other fields are in range. -/
def imageStatic (dmin dmax rmin : Nat) (offset : Bool) (h : Hcmd) : Option (BitVec 16) :=
  orElse (commonCheck true dmin dmax rmin h)
    (decide (1 ≤ h.target.toNat ∧ h.target.toNat ≤ 3) && decide (h.param0.toNat ≤ 1) && (offset || decide (h.param1 = 0)) &&
      decide (h.param2 = 0)) St.invalidField

/-- The destination of the image staged in an area has been switched in since: it holds the running bank or a configuration that is
kept, and is not written on (R439). -/
def Boot.destKept (b : Boot) : Area → Bool
  | .fw => decide (b.stgFw.dest = bit b.bank)
  | .cfg => decide (b.cfgAct = some b.stgCfg.dest) || decide (b.cfgPrev = some b.stgCfg.dest)
  | .keys => false

/-- The refusals of R448. -/
def State.checkWrite (h : Hcmd) (s : State) : Verdict :=
  let a := areaOf h.target.toNat
  let g := s.boot.stg a
  let first := h.param0 = 1
  if s.boot.areaBusy a then .no St.refused 0x60
  else if first ∧ h.param1 ≠ 0 then .no St.refused 0x61
  else if ¬first ∧ (h.param1.toNat ≠ g.len ∨ g.state = 0 ∨ g.state = 2 ∨ s.boot.destKept a = true) then .no St.refused 0x61
  else if a.cap < h.param1.toNat + h.dlen.toNat then .no St.refused 0x62
  else .go

/-- Bytes go into an area: the write is in progress until AREA_WRITE_COMPLETE. -/
def Boot.write (b : Boot) (a : Area) (first : Bool) (x : List Byte) (req : List (Nat × DWord)) : Boot :=
  let g := b.stg a
  let d := if first then b.destOf a else g.dest
  let old := if first then [] else (b.imageAt a d).take g.len
  (b.setBytes a d (old ++ x)).setStg a
    { g with state := 1, dest := d, outcome := 0, writing := true, pendReq := req, len := if first then 0 else g.len }

/-- The effect of IMAGE_WRITE; the completion waits for the write. -/
def State.imageWrite (h : Hcmd) (s : State) : HRes :=
  { s := s.updBoot fun b => b.write (areaOf h.target.toNat) (decide (h.param0 = 1)) h.payload [(h.slot, h.reqId)], wait := true }

/-- IMAGE_WRITE. -/
def opImageWrite : HostOp :=
  { code := 0x09, admin := true, dur := .s, roleP := false, static := imageStatic 1 0x1000000 0 true
    check := fun h s => s.checkWrite h, effect := fun h s => s.imageWrite h }

/-- IMAGE_WRITE. -/
def execImageWrite (h : Hcmd) (s : State) : Host.Outcome State Fault Refusal := done s (s.runCmd opImageWrite { h with opcode := 0x09 })

/-! IMAGE_VERIFY (R441, R444, R449). -/

/-- The code of an outcome: 0, a reason of Table 17.5, or the status of a failed signature. -/
def VOut.code : VOut → Nat
  | .ok => 0
  | .sig => 0x0D
  | .reason n => n

/-- The outcome of verifying the image staged in an area; an INCOMPLETE area does not verify (R451). -/
def Boot.verifyStaged (b : Boot) (a : Area) (partner : Bool) : VOut :=
  let x := b.stagedBytes a
  if (b.stg a).state = 2 then .reason (if Config.firstCheck x then 0x63 else 0x64)
  else verifyImage b.ks a b.minSvn.toNat b.storeFmt.toNat b.high.toNat
    (partner || (decide (b.prevVer ≠ 0) && decide ((parseHdr x).version = b.prevVer))) x

/-- The outcome written into the area's record, and whether its bank or slot verifies (R445). -/
def Boot.noteVerify (b : Boot) (a : Area) (v : VOut) : Boot :=
  let g := { b.stg a with state := if v = .ok then 4 else 5, outcome := BitVec.ofNat 32 v.code }
  let h := parseHdr (b.stagedBytes a)
  let t := b.setStg a g
  match a with
  | .fw => t.setBank (g.dest == 1) { t.bankOf (g.dest == 1) with ok := decide (v = .ok), hdr := h }
  | .cfg => { t with cfgs := t.cfgs.upd g.dest {} fun k => { k with ok := decide (v = .ok), hdr := h } }
  | .keys => t

/-- A key record (Table 15.7, code 0x0D03). -/
def State.keyRec (slot : Nat) (key : List Byte) (s : State) : State :=
  s.log 0x0D03 7 ([BitVec.ofNat 8 slot, 0, 0, 0] ++ Config.sha256 key)

/-- A plant key is enrolled from a verified key image that carries one (R441). -/
def State.enrolPlant (s : State) : State :=
  let k := sectionBytes s.boot.keyBuf [0x30]
  if k.isEmpty then s
  else match s.boot.ks.plant with
    | none => (s.updBoot fun b => { b with ks := { b.ks with plant := some k } }).keyRec 2 k
    | some old => ((s.updBoot fun b => { b with ks := { b.ks with plant := some k, plantRet := some old,
                                                                     plantRetHigh := b.high } }).keyRec 2 k).keyRec 3 old

/-- IMAGE_VERIFY asks for the first enrolment of a plant key outside COMMISSION (log entry 32). -/
def State.checkVerify (h : Hcmd) (s : State) : Verdict :=
  if h.target = 3 ∧ h.param0 = 1 ∧ s.boot.ks.plant = none ∧ s.sys.mode ≠ .commission then .no St.modeRefused 0 else .go

/-- The 256 bytes that IMAGE_VERIFY returns (R449). -/
def Boot.verifyReturn (b : Boot) (a : Area) (v : VOut) : List Byte :=
  let x := b.stagedBytes a
  padTo 256 (slice x 0 64 ++ le 4 v.code ++ le 4 (b.stg a).len ++ padTo 32 (Config.sha256 (allSections x)))

/-- The effect of IMAGE_VERIFY. -/
def State.imageVerify (h : Hcmd) (s : State) : HRes :=
  let a := areaOf h.target.toNat
  let v := s.boot.verifyStaged a false
  let t := s.updBoot fun b => b.noteVerify a v
  let t := if a = .keys ∧ v = .ok ∧ h.param0 = 1 then t.enrolPlant else t
  { s := t, ret := s.boot.verifyReturn a v,
    status := match v with
      | .ok => St.ok
      | .sig => St.sigErr
      | .reason _ => St.refused
    r0 := match v with
      | .reason n => BitVec.ofNat 32 n
      | _ => 0 }

/-- IMAGE_VERIFY. -/
def opImageVerify : HostOp :=
  { code := 0x0A, admin := true, dur := .s, roleP := false, static := imageStatic 0 0 256 false
    check := fun h s => s.checkVerify h, effect := fun h s => s.imageVerify h }

/-- IMAGE_VERIFY. -/
def execImageVerify (h : Hcmd) (s : State) : Host.Outcome State Fault Refusal := done s (s.runCmd opImageVerify { h with opcode := 0x0A })

/-! ACTIVATE (R452 to R456). -/

/-- The payload of ACTIVATE (Table 17.6). -/
structure ActReq where
  op : Nat
  what : Nat
  flags : Nat
  fwVer : Word
  cfgVer : Word
  at_ : Nat
  pairs : Nat
  list : List (Nat × Nat)
deriving DecidableEq, Repr

/-- The bytes of an ACTIVATE payload. -/
def parseAct (b : List Byte) : ActReq :=
  let n := fieldN b 22 2
  { op := fieldN b 0 1, what := fieldN b 1 1, flags := fieldN b 2 1, fwVer := BitVec.ofNat 32 (fieldN b 4 4),
    cfgVer := BitVec.ofNat 32 (fieldN b 8 4), at_ := fieldN b 16 6, pairs := n,
    list := (List.range (min n 504)).map fun i => (fieldN b (64 + 8 * i) 4, fieldN b (68 + 8 * i) 4) }

/-- The checks of an ACTIVATE entry and payload that they decide alone. -/
def actStatic (h : Hcmd) : Option (BitVec 16) :=
  let r := parseAct h.payload
  let b := h.payload
  let c := orElse (commonCheck true 64 4096 0 h) (decide (h.dlen.toNat = 64 + 8 * r.pairs)) St.lenErr
  orElse c
    (decide (r.op < 3) && decide (1 ≤ r.what ∧ r.what ≤ 3) && decide (r.flags < 4) && decide (h.target = 0) &&
      decide (h.param0 = 0 ∧ h.param1 = 0 ∧ h.param2 = 0) &&
      decide (fieldN b 3 1 = 0 ∧ fieldN b 12 4 = 0 ∧ fieldN b 24 8 = 0 ∧ fieldN b 32 32 = 0) &&
      (decide (r.what % 2 = 1) || decide (r.fwVer = 0)) && (decide (2 ≤ r.what) || decide (r.cfgVer = 0)) &&
      (decide (r.at_ ≠ 0) || decide (r.pairs = 0)) &&
      r.list.all (fun e => decide (e.1 < 2 ^ 18) && decide (e.2 < 2 ^ 18))) St.invalidField

/-- The configuration slot that a switch to version `v` selects: the one staged and verified, if the module can load it (log entry
50). -/
def Boot.cfgTarget (b : Boot) (v : Word) : Option Nat :=
  if b.stgCfg.state = 4 ∧ (parseHdr (b.cfgImage b.stgCfg.dest)).version = v ∧
      (Config.parseCfg (b.cfgImage b.stgCfg.dest)).loadable = true then some b.stgCfg.dest else none

/-- The firmware that a switch to version `v` selects stands verified in the bank that is not running. -/
def Boot.fwTarget (b : Boot) (v : Word) : Bool :=
  (b.bankOf (!b.bank)).ok && b.bankVerifies (!b.bank) && decide ((parseHdr (b.bankOf (!b.bank)).bytes).version = v)

/-- What a switch selects: firmware, the new configuration image, and the image whose map carries the state over. -/
structure Target where
  fw : Bool
  cfg : Option Nat
  map : List Byte
  copyNs : Nat
deriving DecidableEq, Repr

/-- The active configuration image. -/
def Boot.activeCfg (b : Boot) : List Byte := match b.cfgRun with
  | some n => b.cfgImage n
  | none => []

/-- What a SWITCH selects (R453). -/
def Boot.targetOf (b : Boot) (r : ActReq) : Target :=
  let n := if 2 ≤ r.what then b.cfgTarget r.cfgVer else none
  let img := match n with
    | some k => b.cfgImage k
    | none => []
  { fw := decide (r.what % 2 = 1), cfg := n, map := sectionBytes img [0x27], copyNs := (parseHdr img).copyNs.toNat }

/-- What a CONFIG_RETURN selects (R460). -/
def Boot.returnTarget (b : Boot) : Target :=
  { fw := false, cfg := b.cfgPrev, map := sectionBytes b.activeCfg [0x28], copyNs := (parseHdr b.activeCfg).copyNs.toNat }

/-- A switch changes M1 or M2 (R454). -/
def Boot.safetyChanges (b : Boot) (t : Target) : Bool :=
  (t.fw && decide (sectionBytes (b.bankOf (!b.bank)).bytes [2] ≠ sectionBytes (b.bankOf b.bank).bytes [2])) ||
    (match t.cfg with
     | some n => decide (sectionBytes (b.cfgImage n) [0x22, 0x23] ≠ sectionBytes b.activeCfg [0x22, 0x23])
     | none => false)

/-- Two firmware images can synchronise (R457): the newer accepts the older's MIRROR_FMT. -/
def mirrorOk (x y : Hdr) : Bool :=
  let (new, old) := if x.version.toNat < y.version.toNat then (y, x) else (x, y)
  decide (new.mirrorMin.toNat ≤ old.mirrorFmt.toNat ∧ old.mirrorFmt.toNat ≤ new.mirrorFmt.toNat)

/-- The node identifiers of this pair as a list entry (Table 17.6). -/
def State.pairEntry (s : State) : Nat × Nat :=
  if s.sys.lone || !s.cfg.partner then (s.sys.nodeId.toNat, 0)
  else if s.side then (s.cfg.partnerNode.toNat, s.sys.nodeId.toNat) else (s.sys.nodeId.toNat, s.cfg.partnerNode.toNat)

/-- The publishers whose layout digest a new configuration changes (R452). -/
def State.digestChanges (s : State) (new : Cfg) : List Nat :=
  (new.subs.filter fun e => match s.cfg.subs.find? fun f => decide (f.2.node = e.2.node ∧ f.2.at_ = e.2.at_) with
    | some f => decide (f.2.digest ≠ e.2.digest)
    | none => false).map fun e => e.2.node.toNat

/-- The list of a scheduled switch is complete and in time (R452). -/
def State.scheduleOk (s : State) (r : ActReq) (t : Target) : Bool :=
  let new := match t.cfg with
    | some n => Config.parseCfg (s.boot.cfgImage n)
    | none => s.cfg
  decide (s.secs + 60 ≤ r.at_) && decide (r.pairs ≤ 256) && r.list.contains s.pairEntry &&
    (s.digestChanges new).all fun n => r.list.any fun e => decide (e.1 = n)

/-- The modes a switch is entered from (R47, R50, R51). -/
def State.switchMode (s : State) : Verdict :=
  if s.sys.trans.isSome then .no St.modeBusy 0
  else match s.sys.mode with
    | .run | .stop => .go
    | _ => .no St.modeRefused 0

/-- The refusals of a switch that both SWITCH and CONFIG_RETURN know (R452 to R456). -/
def State.checkTarget (t : Target) (safety separate : Bool) (s : State) : Verdict :=
  if 200000000 < t.copyNs ∧ t.cfg ≠ none then .no St.refused 0x6E
  else if s.boot.safetyChanges t ∧ safety = false then .no St.refused 0x6A
  else if s.insync ∧ t.fw ∧ separate = false ∧ mirrorOk s.boot.runHdr (parseHdr (s.boot.bankOf (!s.boot.bank)).bytes) = false then
    .no St.refused 0x71
  else .go

/-- The checks of SWITCH on state. -/
def State.checkSwitch (h : Hcmd) (s : State) : Verdict :=
  let r := parseAct h.payload
  let t := s.boot.targetOf r
  match s.switchMode with
  | .no a b => .no a b
  | .go =>
    if s.changeBusy then .no St.refused 0x69
    else if (t.fw && !s.boot.fwTarget r.fwVer) || (decide (2 ≤ r.what) && t.cfg.isNone) then .no St.refused 0x70
    else if r.at_ ≠ 0 ∧ s.scheduleOk r t = false then .no St.refused 0x6F
    else s.checkTarget t (r.flags % 2 = 1) (r.flags / 2 % 2 = 1)

/-- The checks of CONFIG_RETURN on state (R460); a configuration that the module cannot load is refused
(spec/01_architecture.md R21, R25). -/
def State.checkCfgReturn (h : Hcmd) (s : State) : Verdict :=
  match s.switchMode with
  | .no a b => .no a b
  | .go =>
    if s.changeBusy then .no St.refused 0x69
    else if (match s.boot.cfgPrev with
        | some n => !(Config.parseCfg (s.boot.cfgImage n)).loadable
        | none => true) then .no St.refused 0x70
    else s.checkTarget s.boot.returnTarget (h.param0.getLsbD 0) (h.param0.getLsbD 1)

/-- An activation step is recorded (Table 15.7, code 0x0D01). -/
def State.actRec (s : State) : State :=
  let a := s.boot.act
  s.log 0x0D01 2 ([BitVec.ofNat 8 a.state.toNat, 0, 0, 0] ++ le 4 a.fwVer.toNat ++ le 4 a.cfgVer.toNat)

/-- The activation that a SWITCH asks for. -/
def State.switchAct (h : Hcmd) (s : State) : Act :=
  let r := parseAct h.payload
  let sep := decide (r.flags / 2 % 2 = 1)
  { state := if r.at_ = 0 then 1 else 2, separate := sep, safety := decide (r.flags % 2 = 1), at_ := BitVec.ofNat 48 r.at_,
    reason := s.boot.act.reason, pauseUs := s.boot.act.pauseUs, fw := decide (r.what % 2 = 1), cfg := decide (2 ≤ r.what),
    fwVer := r.fwVer, cfgVer := r.cfgVer, slot := h.slot, busy := true, step := 1, from_ := s.sys.mode,
    pair := s.insync && !sep }

/-- The activation that a CONFIG_RETURN asks for. -/
def State.returnAct (h : Hcmd) (s : State) : Act :=
  let sep := h.param0.getLsbD 1
  let v := match s.boot.cfgPrev with
    | some n => (parseHdr (s.boot.cfgImage n)).version
    | none => 0
  { state := 1, separate := sep, safety := h.param0.getLsbD 0, reason := s.boot.act.reason, pauseUs := s.boot.act.pauseUs,
    cfg := true, cfgVer := v, slot := h.slot, busy := true, step := 1, from_ := s.sys.mode, isReturn := true,
    pair := s.insync && !sep }

/-- The recorded activation begins; its completion waits. -/
def State.beginAct (a : Act) (s : State) : HRes := { s := (s.updAct fun _ => a).actRec, wait := true }

/-- Before the record of a SWITCH on an in-sync pair, the images go to the standby, which verifies them (R452). -/
def State.prepareSwitch (h : Hcmd) (s : State) : Option State :=
  if !s.insync then none
  else
    let r := parseAct h.payload
    let t := if r.what % 2 = 1 then s.sendImage 1 (s.boot.bankOf (!s.boot.bank)).bytes else s
    let t := match (s.boot.targetOf r).cfg with
      | some n => t.sendImage 2 (s.boot.cfgImage n)
      | none => t
    some (t.updAct fun a => { a with awaitReady := true, pkgRseq := t.dpx2.rseqTx, slot := h.slot })

/-- ACTIVATE SWITCH. -/
def opSwitch : HostOp :=
  { code := 0x0B, admin := true, dur := .j, roleP := true, static := actStatic
    check := fun h s => s.checkSwitch h, effect := fun h s => s.beginAct (s.switchAct h)
    prepare := fun h s => s.prepareSwitch h }

/-- The entry of CONFIG_RETURN. -/
def cfgReturnStatic (h : Hcmd) : Option (BitVec 16) :=
  orElse (commonCheck true 0 0 0 h)
    (decide (h.target = 0 ∧ h.param0.toNat < 4 ∧ h.param1 = 0 ∧ h.param2 = 0)) St.invalidField

/-- CONFIG_RETURN. -/
def opCfgReturn : HostOp :=
  { code := 0x0C, admin := true, dur := .j, roleP := true, static := cfgReturnStatic
    check := fun h s => s.checkCfgReturn h, effect := fun h s => s.beginAct (s.returnAct h) }

/-- Confirmation (R462): minimum SVN, STORE_FMT, a pending REL1; the old copies are released. -/
def State.confirm (s : State) : State :=
  let b := s.boot
  let t := s.updBoot fun b => { b with
    minSvn := if b.minSvn.toNat < b.fwSvn.toNat then b.fwSvn else b.minSvn, storeFmt := b.runHdr.storeFmt
    migrating := false, switched := false, confirmAt := none
    ks := { b.ks with rel1 := if b.ks.pendRel1.isSome then b.ks.pendRel1 else b.ks.rel1, pendRel1 := none } }
  match b.ks.pendRel1 with
  | some k => t.keyRec 1 k
  | none => t

/-- The check of CONFIRM: something awaits confirmation. -/
def State.checkConfirm (s : State) : Verdict := if s.boot.switched then .go else .no St.refused 0x6B

/-- ACTIVATE CONFIRM. -/
def opConfirm : HostOp :=
  { code := 0x0B, admin := true, dur := .j, roleP := true, static := actStatic
    check := fun _ s => s.checkConfirm, effect := fun _ s => { s := s.confirm } }

/-- The check of CANCEL (R459): an activation before step 2. -/
def State.checkCancel (s : State) : Verdict :=
  let a := s.boot.act
  if a.busy && !a.done && decide (a.step ≤ 1) then .go else .no St.refused 0x6B

/-- The activation is abandoned. -/
def State.cancelAct (s : State) : State :=
  s.updAct fun a => { a with busy := false, state := 0, step := 0, awaitReady := false }

/-- ACTIVATE CANCEL. -/
def opCancel : HostOp :=
  { code := 0x0B, admin := true, dur := .j, roleP := true, static := actStatic
    check := fun _ s => s.checkCancel, effect := fun _ s => { s := s.cancelAct } }

/-- An ACTIVATE entry of operation `n`; one whose OP is 3 keeps it, and is refused. -/
def actEntry (h : Hcmd) (n : Nat) : Hcmd :=
  { h with opcode := 0x0B, payload := match h.payload with
      | [] => []
      | b :: bs => (if b &&& 3 = 3 then b else (b &&& 0xFC) ||| BitVec.ofNat 8 n) :: bs }

/-- BOOT_ACT_STAT keeps the reason of the last refusal (Table 17.10): that of a command that reaches its checks on state. -/
def State.noteReason (op : HostOp) (h : Hcmd) (s t : State) : State :=
  if s.canTake h.slot op.dur && (op.static h).isNone && s.sys.primary && decide ((s.win h.slot).high < h.reqId) then
    match op.check h s with
    | .no st r => if st = St.refused then t.updAct fun a => { a with reason := r.setWidth 8 } else t
    | .go => t
  else t

/-- An operation of an activation taken from its ring. -/
def State.runAct (op : HostOp) (h : Hcmd) (s : State) : State := s.noteReason op h (s.runCmd op h)

/-- ACTIVATE_SWITCH. -/
def execActivateSwitch (h : Hcmd) (s : State) : Host.Outcome State Fault Refusal := done s (s.runAct opSwitch (actEntry h 0))

/-- ACTIVATE_CONFIRM. -/
def execActivateConfirm (h : Hcmd) (s : State) : Host.Outcome State Fault Refusal := done s (s.runAct opConfirm (actEntry h 1))

/-- ACTIVATE_CANCEL. -/
def execActivateCancel (h : Hcmd) (s : State) : Host.Outcome State Fault Refusal := done s (s.runAct opCancel (actEntry h 2))

/-- CONFIG_RETURN. -/
def execConfigReturn (h : Hcmd) (s : State) : Host.Outcome State Fault Refusal := done s (s.runAct opCfgReturn { h with opcode := 0x0C })

/-! The warm switch (R453, R454, Table 17.7). -/

/-- The target of the activation in progress. -/
def Boot.actTarget (b : Boot) : Target :=
  if b.act.isReturn then b.returnTarget
  else b.targetOf { op := 0, what := bit b.act.fw + 2 * bit b.act.cfg, flags := 0, fwVer := b.act.fwVer, cfgVer := b.act.cfgVer,
                    at_ := 0, pairs := 0, list := [] }

/-- A pair reset and reloaded (step 2); its counters stay. -/
def Pair.reload (q : Pair) : Pair :=
  { q with failed := false, broken := false, restoring := false, reexec := false, idle := true, starting := false, taking := false,
           resume := [], log := [], defer := [], heldP := [], heldD := [], fence := false, mism := false, halted := false, busyFrom := none }

/-- The selection record after the switch (step 1, R460). -/
def Boot.select (b : Boot) (t : Target) : Boot :=
  let b1 := { b with act := { b.act with prevBank := b.bank, prevCfg := b.cfgAct.getD 0 }, bank := if t.fw then !b.bank else b.bank,
                     sel := if t.fw then !b.bank else b.sel }
  match t.cfg with
  | none => b1
  | some n =>
    let v := (parseHdr (b.cfgImage n)).version
    { b1 with cfgAct := some n, cfgRun := some n, cfgPrev := b.cfgAct, prevVer := b.actVer, actVer := v,
              high := if b.high.toNat < v.toNat then v else b.high }

/-- The new firmware runs (step 5): its header, and what awaits confirmation (R461, R462). -/
def Boot.newFirmware (b : Boot) (nowMs : Nat) : Boot :=
  let x := (b.bankOf b.bank).bytes
  let h := parseHdr x
  let k := sectionBytes x [0x31]
  { b with runHdr := h, fwVer := h.version, fwSvn := h.svn, migrating := decide (b.storeFmt.toNat < h.storeFmt.toNat),
           switched := true, confirmAt := some (nowMs + 259200000)
           ks := { b.ks with pendRel1 := if k.isEmpty || h.keyslot then b.ks.pendRel1 else some k } }

/-- The loops under a new configuration: each keeps its state, with its live setpoint and manual output, and resumes bumplessly (R203,
spec/07_loop_engines.md R207; log entry 124). -/
def State.reloadLoops (s : State) : State :=
  { s with cle := { s.cle with
      loops := s.cfg.loops.map fun c =>
        let l := s.cle.loops.look c.1 {}
        let g := if (s.cle.loops.find c.1).isSome then { c.2.grp with sp := l.op.sp, mout := l.op.mout } else c.2.grp
        (c.1, { l with bank0 := c.2.bank, bank1 := c.2.bank, op := g, stg := g, commEn := c.2.comm, bumpDue := true })
      eng := s.cfg.frames.map fun f => (f.1, { s.cle.eng.look f.1 {} with frame := f.2 })
      chk0 := s.cfg.chk0, chk1 := s.cfg.chk1 } }

/-- The new configuration is in force (steps 3 and 4): its registers, its program (spec/08_online_change.md R231), the state
carried over by its map, and the operator keys (R440). -/
def State.newConfig (img map : List Byte) (s : State) : State :=
  let t := { s with cfg := { Config.parseCfg img with valid := true } }
  let t := (State.loadRegs t.cfg.regs t).installProgram img
  let p : Prog := { Config.parseProg t.chg.active with loaded := decide (t.chg.active ≠ []) }
  let runs := parseRuns map
  let t := { t with prog := p, cyc := { t.cyc with mem := t.cfg.cls.map fun (c : Nat × ClsCfg) =>
    (c.1, (t.cmem c.1).mapped (Config.mapInit img) runs c.1 (p.init.look c.1 [])) } }
  (t.reloadLoops.numberCycles).enrolOps img

/-- Steps 1 to 5 of Table 17.7; `cause` 0 for a command, 1 for a schedule. -/
def State.warmSwitch (cause : Nat) (s : State) : State :=
  let x := s.boot.actTarget
  let restart := s.boot.safetyChanges x && s.boot.act.safety
  let img := match x.cfg with
    | some n => s.boot.cfgImage n
    | none => []
  let t := s.updAct fun a => { a with from_ := s.sys.mode, lastCommit := s.dpx2.lastCommitT.toNat, done := true }
  let t := (t.setMode .activate cause).updBoot fun b => b.select x
  let t := { t with lsp := t.lsp.mapV Pair.reload }
  let t := if x.cfg.isSome then t.newConfig img x.map else t
  let t := if x.fw then t.updBoot fun b => b.newFirmware t.opMs else t
  let t := if restart then (t.soOff).safStart else t
  let t := t.measure
  let t := if x.fw then t.updBoot fun b => { b with meas := b.meas.put 0 (Config.sha256 (sectionBytes (b.bankOf b.bank).bytes [0x01])) } else t
  let t := match x.cfg with
    | some _ => t.updBoot fun b => { b with meas := b.meas.put 8 (Config.sha256 img) }
    | none => t
  { t with cle := { t.cle with loops := t.cle.loops.mapV fun l => { l with bumpDue := true } } }

/-- The mode that ACTIVATE returns to. -/
def State.leaveActivate (s : State) : State :=
  if decide (s.sys.mode = .activate) then s.setMode s.boot.act.from_ 0 else s

/-- The activation completes (R455, R458): the command that asked for it, if this module's ring holds it. -/
def State.completeAct (status : BitVec 16) (reason : Word) (s : State) : State :=
  let slot := s.boot.act.slot
  let t := s.updAct fun a => { a with busy := false, state := 0, step := 0, pair := false, done := false,
                                      reason := if reason = 0 then a.reason else reason.setWidth 8 }
  match (s.ring slot).infl with
  | some i => if i.cmd.opcode = 0x0B ∨ i.cmd.opcode = 0x0C then t.finishWaiting slot status [] reason 0 else t
  | none => t

/-- BOOT_SETTLE in use in ms (Table 17.10): a value outside 1,000 to 600,000 acts as 10,000. -/
def State.settleMs (s : State) : Nat :=
  let v := (s.voted Reg.bootSettle).toNat
  if 1000 ≤ v ∧ v ≤ 600000 then v else 10000

/-- The settle window in ms: BOOT_SETTLE of a lone switch (R458), DPX_PS_WINDOW on a pair (R455). -/
def State.settleWindow (s : State) : Nat := if s.boot.act.pair then (s.liveReg Reg.dpxPsWindow).toNat else s.settleMs

/-- The first commit after the switch (step 6): the mode is left and the settle window runs. -/
def State.settleFrom (s : State) : State :=
  let us := (s.short - s.dpx2.lastCommitT).toNat / 1000
  let t := s.leaveActivate
  (t.updAct fun a => { a with state := 4, step := 5, awaitCommit := false, pauseUs := BitVec.ofNat 32 us,
                              settleTo := t.opMs + t.settleWindow }).actRec

/-- No class has a cycle active. -/
def State.quiet (s : State) : Bool := !(s.cyc.cls.anyV Cls.active)

/-- The switch may begin on this module (R453, R455, R456): with an activation recorded and not yet carried out here, no
PFAIL, no class active; on a pair, on the standby first. That AT is reached, the event asserts. -/
def State.mayWarmSwitch (s : State) : Bool :=
  let a := s.boot.act
  s.running && !s.pwr.pfail && a.busy && !a.done && !a.awaitReady && s.quiet &&
    (match s.sys.mode with
     | .run | .stop => true
     | _ => false) &&
    (if a.pair then !s.sys.primary && (decide (4 ≤ a.step) || (decide (a.step = 1) && decide (a.at_ = 0)))
     else true)

/-- After steps 1 to 5 (Tables 17.7, 17.8): a module whose classes run waits for their first commit; a standby returns at
once, its INSYNC ended; a module with no class to run has completed (log entry 33). -/
def State.afterSwitch (s : State) : State :=
  let s := if s.cfg.partner then s.sendVersions else s
  let a := s.boot.act
  if s.sys.primary && decide (a.from_ = .run) then s.updAct fun x => { x with awaitCommit := true, step := 6 }
  else
    let t := s.leaveActivate
    if t.sys.primary then t.completeAct St.ok 0
    else
      let t := t.updAct fun x => { x with step := if 4 ≤ a.step then 6 else 3, state := if 4 ≤ a.step then 5 else 3,
                                          busy := a.pair, done := a.pair }
      ((t.actRec).endInsync 5)

/-- WARM_SWITCH. -/
def execWarmSwitch (s : State) : Host.Outcome State Fault Refusal :=
  if s.mayWarmSwitch then done s (s.warmSwitch (bit (decide (s.boot.act.at_ ≠ 0)))).afterSwitch else .next s

/-- SCHEDULED_SWITCH (R455): the standby of a scheduled switch, 30 s before AT. -/
def execScheduledSwitch (s : State) : Host.Outcome State Fault Refusal :=
  let a := s.boot.act
  if s.running && !s.pwr.pfail && a.busy && !a.done && a.pair && !s.sys.primary && decide (a.at_ ≠ 0) && decide (a.step = 1) &&
      s.quiet && decide (s.sys.mode = .run ∨ s.sys.mode = .stop) then
    done s (s.warmSwitch 1).afterSwitch
  else .next s

/-- The settle checks pass (R455, R458): a lone switch has completed; on a pair the partner switches next. -/
def State.settled (s : State) : State :=
  if s.boot.act.pair then (s.updAct fun a => { a with state := 5, step := 6 }).actRec
  else s.completeAct St.ok 0

/-- A settle check fails: a lone module restarts on its previous selection (R458); on a pair the new primary hands back
first (R455). -/
def State.settleBad (check : Nat) (s : State) : State :=
  if s.boot.act.pair && s.insync then
    let t := (s.log 0x0D02 4 [0x6C, BitVec.ofNat 8 check]).updAct fun a => { a with reason := 0x6C, state := 0, step := 5 }
    { t with dpx2 := { t.dpx2 with xPend := true, isProof := false } }
  else s.settleFail check

/-- SETTLE_END (R458), with the code of the failed check of Table 9.6, or 0 for another check. -/
def execSettleEnd (fail : Option (Fin 5)) (s : State) : Host.Outcome State Fault Refusal :=
  if s.running && decide (s.boot.act.state = 4) then
    match fail with
    | none => done s s.settled
    | some c => done s (s.settleBad c.val)
  else .next s

/-- AUTO_CONFIRM (R462): 72 h of operating time after this module's switch; it does not count in RECOVERY. -/
def execAutoConfirm (s : State) : Host.Outcome State Fault Refusal :=
  if s.running && s.boot.switched && !s.pwr.pfail && decide (s.sys.mode ≠ .recovery) then done s s.confirm else .next s

end Sys2Proof.Machine
end

