-- ==== Sys2Proof/Machine/HostCmd.lean ====
section
/-! DEFINITION. The command-ring opcodes: NOP, variables and forces (spec/05_cyclic_execution.md R144 to R147), loops
(spec/07_loop_engines.md R210, R211) and TALLY_READ (spec/15_tally_recorder.md R416). -/

namespace Sys2Proof.Machine

/-- No field beyond those of the opcode is set: TARGET and the PARAM fields are 0. -/
def noFields (h : Hcmd) : Bool := decide (h.target = 0 ∧ h.param0 = 0 ∧ h.param1 = 0 ∧ h.param2 = 0)

/-- NOP of either ring. -/
def opNop (admin : Bool) : HostOp :=
  { code := if admin then 0x00 else 0x40, admin := admin, dur := .n, roleP := false
    static := fun h => orElse (commonCheck admin 0 0 0 h) (noFields h) St.invalidField
    check := fun _ _ => .go, effect := fun _ s => { s := s } }

/-- NOP_COMMAND. -/
def execNopCommand (h : Hcmd) (s : State) : Host.Outcome State Fault Refusal := done s (s.runCmd (opNop false) { h with opcode := 0x40 })

/-! Elements (Table 5.6). -/

/-- The bytes that elements with values take. -/
def elemBytes (es : List Elem) : Nat := (es.map fun (e : Elem) => 8 + pad8n e.len).sum

/-- The checks of step 1 of the four variable commands (R144, log entry 34): TARGET a class, DLEN a multiple of 8, whole
elements; VAR_READ's RLEN holds its values (R145). -/
def varStatic (vals read : Bool) (h : Hcmd) : Option (BitVec 16) :=
  let es := elemsOf vals h
  let need := if read then 16 + (es.map fun (e : Elem) => pad8n e.len).sum else 0
  let c := commonCheck false 8 65536 (if read then 16 else 0) h
  let c := orElse c (decide (h.dlen.toNat % 8 = 0) && (!vals || decide (elemBytes es = h.payload.length)) &&
    decide (need ≤ h.rlen.toNat ∨ read = false)) St.lenErr
  orElse c (decide (h.target.toNat < 8) && decide (h.param0 = 0 ∧ h.param1 = 0 ∧ h.param2 = 0)) St.invalidField

/-- The checks of an element against the loaded program (R144). -/
def State.checkElem (s : State) (c : Nat) (e : Elem) : Verdict :=
  match s.var e.handle with
  | none => .no St.notFound 0
  | some v =>
    if v.cls ≠ c then .no St.refused 1
    else if e.len = 0 ∨ 4096 < e.len ∨ v.size < e.off + e.len then .no St.invalidField 0
    else .go

/-- The first refusal of a list of elements: of elements that fail for different reasons, the first in the payload decides (log entry
118). -/
def firstNo (f : Elem → Verdict) : List Elem → Verdict
  | [] => .go
  | e :: es => match f e with
    | .go => firstNo f es
    | .no a b => .no a b

/-- A further condition on an element's variable. -/
def State.elemIf (s : State) (c : Nat) (e : Elem) (f : Var → Verdict) : Verdict :=
  match s.checkElem c e with
  | .no a b => .no a b
  | .go => match s.var e.handle with
    | some v => f v
    | none => .go

/-! VAR_READ (R145). -/

/-- The checks of VAR_READ on state: a standby has the mirrored variables, and in HOLD all data of a held class (R145). -/
def State.checkRead (h : Hcmd) (s : State) : Verdict :=
  firstNo (fun e => s.elemIf (classOf h) e fun v =>
    if !s.sys.primary && !(decide (s.sys.mode = .hold) && (s.cls (classOf h)).held) && !v.mirrored then .no St.refused 7 else .go) (elemsOf false h)

/-- The effect of VAR_READ. -/
def State.varRead (h : Hcmd) (s : State) : HRes :=
  let c := classOf h
  let es := elemsOf false h
  if s.readWaits c then { s := s, wait := true }
  else { s := s, ret := s.varNow h, r0 := BitVec.ofNat 32 es.length, r1 := s.readCyc c }

/-- VAR_READ. -/
def opVarRead : HostOp :=
  { code := 0x41, admin := false, dur := .n, roleP := false, static := varStatic false true
    check := fun h s => s.checkRead h, effect := fun h s => s.varRead h }

/-- VAR_READ. -/
def execVarRead (h : Hcmd) (s : State) : Host.Outcome State Fault Refusal := done s (s.runCmd opVarRead { h with opcode := 0x41 })

/-- The waiting VAR_READ of ring `n` on class `c` completes after a commit of the class (R145). -/
def State.answerRead (c n : Nat) (s : State) : State :=
  match (s.ring n).infl with
  | some i =>
    if i.cmd.opcode = 0x41 ∧ classOf i.cmd = c then
      let es := elemsOf false i.cmd
      s.finishWaiting n St.ok (s.varReturn c false es) (BitVec.ofNat 32 es.length) (s.readCyc c)
    else s
  | none => s

/-- Every waiting VAR_READ of class `c` completes. -/
def State.answerReads (c : Nat) (s : State) : State := (s.hif.rings.keys).foldl (fun (t : State) n => t.answerRead c n) s

/-! VAR_WRITE (R146). -/

/-- The elements go to the class's pending-write buffer: its cycles run, or one is active (R146). -/
def State.writePends (s : State) (c : Nat) : Bool :=
  decide (s.sys.mode = .run ∨ s.sys.mode = .test) || (s.cls c).active

/-- VAR_WRITE waits: the pending-write buffer of the class has no room, or the mode is TAKEOVER or ACTIVATE (R146). -/
def State.writeWaits (s : State) (h : Hcmd) : Bool :=
  decide (s.sys.mode = .takeover ∨ s.sys.mode = .activate) ||
    decide (262144 < elemBytes (s.cmem (classOf h)).pendWr + elemBytes (elemsOf true h))

/-- The checks of VAR_WRITE on state. -/
def State.checkVarWrite (h : Hcmd) (s : State) : Verdict :=
  match s.sys.mode with
  | .run | .test | .commission | .stop | .hold | .takeover | .activate =>
    if !s.sys.primary && !(s.cls (classOf h)).held then .no St.roleRefused 0
    else firstNo (fun e => s.elemIf (classOf h) e fun v =>
      if v.mem = 1 then .no St.refused 2 else if v.byLoop then .no St.refused 3
      else if v.const_ then .no St.refused 6 else .go) (elemsOf true h)
  | _ => .no St.modeRefused 0

/-- The number of the next cycle of class `c` to start (R146): that of a late cycle, else of the next boundary (log entry 121). -/
def State.nextCycle (s : State) (c : Nat) : DWord := (s.cls c).latePend.getD ((s.cls c).cycno + 1)

/-- The effect of VAR_WRITE. -/
def State.varWrite (h : Hcmd) (s : State) : HRes :=
  let c := classOf h
  let es := elemsOf true h
  if s.writePends c then
    { s := s.updMem c fun m => { m with pendWr := m.pendWr ++ es }, r1 := s.nextCycle c }
  else { s := es.foldl (fun (t : State) e => t.pokeNow e) s, r1 := (s.cls c).cycno }

/-- VAR_WRITE on a module in the primary role. -/
def opVarWrite : HostOp :=
  { code := 0x42, admin := false, dur := .j, roleP := true, static := varStatic true false
    check := fun h s => s.checkVarWrite h, effect := fun h s => s.varWrite h
    cyc := fun h s => if s.writePends (classOf h) then s.nextCycle (classOf h) else 0 }

/-- VAR_WRITE as the role and mode have it (Table 4.7, R146): on a standby in HOLD a class N command of either role. -/
def State.varWriteOp (s : State) : HostOp :=
  if !s.sys.primary && decide (s.sys.mode = .hold) then { opVarWrite with dur := .n, roleP := false } else opVarWrite

/-- VAR_WRITE stays in its ring: it waits, and no check of step 1 refuses it first. -/
def State.writeBlocked (s : State) (h : Hcmd) : Bool := s.writeWaits h && (varStatic true false { h with opcode := 0x42 }).isNone

/-- VAR_WRITE; a command that waits stays in its ring (log entry 9). -/
def execVarWrite (h : Hcmd) (s : State) : Host.Outcome State Fault Refusal :=
  if s.writeBlocked h then .next s
  else done s (s.runCmd s.varWriteOp { h with opcode := 0x42 })

/-! Forces (R147). -/

/-- The clear-all element. -/
def Elem.clearAll (e : Elem) : Bool := decide (e.handle = 0xFFFFFFFF ∧ e.off = 0 ∧ e.len = 0)

/-- The element names the same bytes as `f`. -/
def sameElem (e f : Elem) : Bool := decide (e.handle = f.handle ∧ e.off = f.off ∧ e.len = f.len)

/-- One element forced (R147): a force on it replaces its value. -/
def State.setForce (c : Nat) (e : Elem) (s : State) : State :=
  let out := match s.var e.handle with
    | some v => decide (v.mem = 2)
    | none => false
  { s with cyc := { s.cyc with forces := (s.cyc.forces.filter fun f => !sameElem e f.elem) ++ [{ cls := c, elem := e, output := out }] } }

/-- The elements of a command forced. -/
def State.setForces (c : Nat) (es : List Elem) (s : State) : State := es.foldl (fun (t : State) e => t.setForce c e) s

/-- The checks of FORCE_SET on state. -/
def State.checkForceSet (h : Hcmd) (s : State) : Verdict :=
  let es := elemsOf true h
  if s.sys.mode ≠ .test then .no St.modeRefused 0
  else match firstNo (fun e => s.elemIf (classOf h) e fun v =>
      if v.safety then .no St.forceRefused 0 else if v.mem ≠ 1 ∧ v.mem ≠ 2 then .no St.refused 4
      else if v.byLoop then .no St.refused 3 else .go) es with
    | .no a b => .no a b
    | .go => if 4096 < (s.setForces (classOf h) es).cyc.forces.length then .no St.refused 5 else .go

/-- FORCE_SET. -/
def opForceSet : HostOp :=
  { code := 0x43, admin := false, dur := .j, roleP := true, static := varStatic true false
    check := fun h s => s.checkForceSet h, effect := fun h s => { s := s.setForces (classOf h) (elemsOf true h) } }

/-- FORCE_SET. -/
def execForceSet (h : Hcmd) (s : State) : Host.Outcome State Fault Refusal := done s (s.runCmd opForceSet { h with opcode := 0x43 })

/-- One element of FORCE_CLEAR. -/
def State.clearForce (c : Nat) (e : Elem) (s : State) : State :=
  { s with cyc := { s.cyc with forces := s.cyc.forces.filter fun f => if e.clearAll then f.cls != c else !sameElem e f.elem } }

/-- The checks of FORCE_CLEAR on state. -/
def State.checkForceClear (h : Hcmd) (s : State) : Verdict :=
  if s.sys.mode ≠ .test then .no St.modeRefused 0
  else firstNo (fun e =>
    if e.clearAll then .go else if e.handle = 0xFFFFFFFF then .no St.invalidField 0 else s.checkElem (classOf h) e) (elemsOf false h)

/-- FORCE_CLEAR. -/
def opForceClear : HostOp :=
  { code := 0x44, admin := false, dur := .j, roleP := true, static := varStatic false false
    check := fun h s => s.checkForceClear h
    effect := fun h s => { s := (elemsOf false h).foldl (fun (t : State) e => t.clearForce (classOf h) e) s } }

/-- FORCE_CLEAR. -/
def execForceClear (h : Hcmd) (s : State) : Host.Outcome State Fault Refusal := done s (s.runCmd opForceClear { h with opcode := 0x44 })

/-! LOOP_READ (R211). -/

/-- The checks of step 1 of LOOP_READ. -/
def loopReadStatic (h : Hcmd) : Option (BitVec 16) :=
  let c := commonCheck false 8 4096 16 h
  let c := orElse c (decide (h.dlen.toNat % 8 = 0) && decide (16 + 8 * h.dlen.toNat ≤ h.rlen.toNat)) St.lenErr
  orElse c (noFields h && (loopElems h).all fun b => decide (fieldN b 0 2 < 4096) && decide (fieldN b 2 6 = 0)) St.invalidField

/-- A loop that no configuration names is not found. -/
def State.checkLoops (s : State) (h : Hcmd) : Verdict :=
  if (loopElems h).all fun b => s.loopSet (slotOf b) then .go else .no St.notFound 0

/-- The effect of LOOP_READ. -/
def State.loopRead (h : Hcmd) (s : State) : HRes :=
  if s.loopReadWaits then { s := s, wait := true }
  else { s := s, ret := loopReturn ((loopElems h).map fun b => s.loopRecord (slotOf b)), r0 := BitVec.ofNat 32 (loopElems h).length }

/-- LOOP_READ. -/
def opLoopRead : HostOp :=
  { code := 0x45, admin := false, dur := .n, roleP := false, static := loopReadStatic
    check := fun h s => s.checkLoops h, effect := fun h s => s.loopRead h }

/-- LOOP_READ. -/
def execLoopRead (h : Hcmd) (s : State) : Host.Outcome State Fault Refusal := done s (s.runCmd opLoopRead { h with opcode := 0x45 })

/-- The record of loop `slot` taken at its crease for the LOOP_READ that waits on ring `n`, which completes with its last
record (R211). -/
def State.answerLoopRead (slot n : Nat) (s : State) : State :=
  match (s.ring n).infl with
  | some i =>
    if i.cmd.opcode = 0x45 then
      let es := loopElems i.cmd
      let got := (List.range es.length).foldl (fun (t : Tab (List Byte)) k =>
        if slotOf (es.getD k []) = slot ∧ (t.find k).isNone then t.put k (s.loopRecord slot) else t) i.got
      let t := s.updRing n fun r => { r with infl := some { i with got := got } }
      if got.length = es.length then t.finishWaiting n St.ok (loopReturn (got.map Prod.snd)) (BitVec.ofNat 32 es.length) 0 else t
    else s
  | none => s

/-- Every waiting LOOP_READ takes its record of loop `slot`. -/
def State.answerLoopReads (slot : Nat) (s : State) : State := (s.hif.rings.keys).foldl (fun (t : State) n => t.answerLoopRead slot n) s

/-! LOOP_WRITE (R210). -/

/-- FIELD of an element. -/
def fieldOf (b : List Byte) : Nat := fieldN b 2 1

/-- VALUE of an element. -/
def valueOf (b : List Byte) : Word := BitVec.ofNat 32 (fieldN b 4 4)

/-- An element of LOOP_WRITE is well formed (Table 7.11, Table 7.14). -/
def loopElemOk (b : List Byte) : Bool :=
  let f := fieldOf b
  let i := fieldN b 3 1
  let v := valueOf b
  decide (fieldN b 0 2 < 4096) && [1, 2, 3, 4, 5, 6, 0x10, 0x11, 0x20].contains f &&
    (if f = 0x10 then decide (i < 128) else decide (i = 0)) &&
    (if f = 4 ∨ f = 5 then decide (v.toNat ≤ 60000000) else if f = 6 then decide (v.toNat < 32) && decide (bits v 0 2 ≠ 3)
     else if f = 0x11 then decide (v = 1) else if f = 0x20 then decide (v.toNat < 8) else true)

/-- The checks of step 1 of LOOP_WRITE. -/
def loopWriteStatic (h : Hcmd) : Option (BitVec 16) :=
  let c := commonCheck false 8 4096 0 h
  let c := orElse c (decide (h.dlen.toNat % 8 = 0)) St.lenErr
  orElse c (noFields h && (loopElems h).all loopElemOk) St.invalidField

/-- An operating group with a field of Table 7.11 set. -/
def OpGrp.setField (g : OpGrp) (f : Nat) (v : Word) : OpGrp :=
  match f with
  | 1 => { g with sp := v }
  | 2 => { g with mout := v }
  | 3 => { g with safe := v }
  | 4 => { g with sattime := v }
  | 5 => { g with frztime := v }
  | 6 => { g with action := v }
  | _ => g

/-- An element taken by its loop: it is staged, and its group's press is requested. -/
def Loop.takeElem (b : List Byte) (l : Loop) : Loop :=
  let f := fieldOf b
  if f < 7 then { l with stg := l.stg.setField f (valueOf b), opPress := { l.opPress with pend := true } }
  else if f = 0x10 then { l.stage (fieldN b 3 1) (valueOf b) with bkPress := { l.bkPress with pend := true } }
  else if f = 0x11 then { l with bkPress := { l.bkPress with pend := true } }
  else l.request (valueOf b)

/-- The loop as LOOP_WRITE leaves it. -/
def State.writtenLoop (s : State) (h : Hcmd) (n : Nat) : Loop :=
  ((loopElems h).filter fun b => slotOf b == n).foldl (fun (l : Loop) b => l.takeElem b) (s.loop n)

/-- A loop's law and mode have the bank word `j` (Table 7.3, R193): a characteriser up to 32 points, a schedule words 32 to 119. -/
def LoopCfg.hasWord (c : LoopCfg) (j : Nat) : Bool :=
  decide (j < if c.law = 7 then 67 else c.bankWords fun _ => 0) || (c.sched && decide (32 ≤ j) && decide (j < 120))

/-- The law and the inputs of a loop have the field (Table 7.11): a setpoint for the laws with an error, a freeze time where there is a
feedback, the bank words in use. -/
def LoopCfg.hasField (c : LoopCfg) (f j : Nat) : Bool :=
  if f = 1 then decide (c.law ≤ 3) else if f = 5 then c.hasFb else if f = 0x10 then c.hasWord j else true

/-- The checks of an element on state (Table 7.13). -/
def State.checkLoopElem (s : State) (b : List Byte) : Verdict :=
  let n := slotOf b
  let c := s.lcfg n
  let f := fieldOf b
  if !s.loopSet n then .no St.notFound 0
  else if c.owner ≠ 1 ∨ (f = 1 ∧ c.spExt = true) then .no St.refused 0x24
  else if (f ≤ 3 ∨ f = 0x10) ∧ F32.isFinite (valueOf b) = false then .no St.refused 0x20
  else if c.hasField f (fieldN b 3 1) = false then .no St.refused 0x21
  else .go

/-- The checks of LOOP_WRITE on state: its elements, then the banks that it presses. -/
def State.checkLoopWrite (h : Hcmd) (s : State) : Verdict :=
  let bad := (loopElems h).foldl (fun (v : Verdict) b => match v with
    | .go => s.checkLoopElem b
    | .no x y => .no x y) .go
  match bad with
  | .no a b => .no a b
  | .go =>
    if (loopElems h).any fun b => (fieldOf b == 0x10 || fieldOf b == 0x11) && !bankOk (s.lcfg (slotOf b)) (bankOf (s.writtenLoop h (slotOf b)).inactive) then
      .no St.refused 0x22
    else .go

/-- The effect of LOOP_WRITE: each loop's elements are staged with one press of each group that they touch. -/
def State.loopWrite (h : Hcmd) (s : State) : State :=
  (loopElems h).foldl (fun (t : State) b => t.updLoop (slotOf b) (Loop.takeElem b)) s

/-- A press of a group that the command touches is pending, and the command waits (R210). -/
def State.loopWriteWaits (s : State) (h : Hcmd) : Bool :=
  (loopElems h).any fun b =>
    let l := s.loop (slotOf b)
    (decide (fieldOf b < 7) && l.opPress.pend) || ((fieldOf b == 0x10 || fieldOf b == 0x11) && l.bkPress.pend)

/-- LOOP_WRITE. -/
def opLoopWrite : HostOp :=
  { code := 0x46, admin := false, dur := .j, roleP := true, static := loopWriteStatic
    check := fun h s => s.checkLoopWrite h, effect := fun h s => { s := s.loopWrite h } }

/-- LOOP_WRITE stays in its ring: it waits, and no check of step 1 refuses it first. -/
def State.loopBlocked (s : State) (h : Hcmd) : Bool := s.loopWriteWaits h && (loopWriteStatic { h with opcode := 0x46 }).isNone

/-- LOOP_WRITE; a command that waits stays in its ring (log entry 9). -/
def execLoopWrite (h : Hcmd) (s : State) : Host.Outcome State Fault Refusal :=
  if s.loopBlocked h then .next s
  else done s (s.runCmd opLoopWrite { h with opcode := 0x46 })

/-! TALLY_READ (R416). -/

/-- As many whole records as fit in `n` bytes, with the sequence of each. -/
def fitRecs : Nat → List (Word × List Byte) → List (Word × List Byte)
  | _, [] => []
  | n, r :: rs => if r.2.length ≤ n then r :: fitRecs (n - r.2.length) rs else []

/-- The records of a region in sequence order, with sequence, severity and bytes: 0 log, 1 audit, 2 partner headers. -/
def State.regionRecs (s : State) (region : Nat) : List (Word × Nat × List Byte) :=
  if region = 2 then s.tly.partner.map fun b => (BitVec.ofNat 32 (fieldN b 2 4), fieldN b 1 1 % 8, b)
  else (s.tly.sorted (decide (region = 1))).map fun r => (r.seq, r.sev, r.bytes)

/-- The effect of TALLY_READ. -/
def State.tallyRead (h : Hcmd) (s : State) : HRes :=
  let all := s.regionRecs (h.target.toNat % 4)
  let want := all.filter fun e => !seqLt e.1 h.param0 && decide (h.param1.toNat % 8 ≤ e.2.1)
  let got := fitRecs h.rlen.toNat (want.map fun e => (e.1, e.2.2))
  let next := match got.getLast? with
    | some e => e.1 + 1
    | none => h.param0
  let old := match all.head? with
    | some e => e.1
    | none => 0
  { s := s, ret := got.flatMap Prod.snd, r0 := BitVec.ofNat 32 got.length,
    r1 := BitVec.ofNat 64 (next.toNat + old.toNat * 2 ^ 32) }

/-- TALLY_READ. -/
def opTallyRead : HostOp :=
  { code := 0x47, admin := false, dur := .n, roleP := false
    static := fun h => orElse (commonCheck false 0 0 1024 h)
      (decide (h.target.toNat < 3) && decide (h.param1.toNat < 8 ∧ h.param2 = 0)) St.invalidField
    check := fun _ _ => .go, effect := fun h s => s.tallyRead h }

/-- TALLY_READ. -/
def execTallyRead (h : Hcmd) (s : State) : Host.Outcome State Fault Refusal := done s (s.runCmd opTallyRead { h with opcode := 0x47 })

end Sys2Proof.Machine
end

