-- ==== Sys2Proof/Machine/Replay.lean ====
section
/-! DEFINITION. The replay of the press journal at a start of a lone module (spec/04_host_rings.md R114,
spec/16_memory_integrity.md R436, spec/17_firmware_and_configuration.md R450). -/

namespace Sys2Proof.Machine

/-- The command that a journal record holds. -/
def JRec.cmd (r : JRec) : Hcmd :=
  { slot := r.slot, opcode := r.opcode, reqId := r.reqId, target := r.target, param0 := r.param0, payload := r.payload,
    dlen := BitVec.ofNat 32 r.payload.length }

/-- A record skipped for `why` (Table 15.7, code 0x1003). -/
def State.skipRec (r : JRec) (why : Nat) (s : State) : State :=
  s.log 0x1003 5 ([BitVec.ofNat 8 r.slot, BitVec.ofNat 8 why, 0, 0, 0, 0, 0, 0] ++ le 8 r.reqId.toNat)

/-- Whether the loaded program and the configuration take a record again: `none`, or the reason of record 0x1003. A force
is refused outside TEST, which no start enters. -/
def State.replayBar (s : State) (r : JRec) : Option Nat :=
  let h := r.cmd
  let v := if r.opcode = 0x42 then firstNo (fun e => s.elemIf (classOf h) e fun v =>
      if v.mem = 1 then .no St.refused 2 else if v.byLoop then .no St.refused 3
      else if v.const_ then .no St.refused 6 else .go) (elemsOf true h)
    else if r.opcode = 0x46 then s.checkLoopWrite h
    else if r.opcode = 0x43 then firstNo (fun e => s.checkElem (classOf h) e) (elemsOf true h)
    else firstNo (fun e => if e.clearAll then .go else s.checkElem (classOf h) e) (elemsOf false h)
  match v with
  | .no st _ => some (if st = St.notFound then 2 else 3)
  | .go => if (r.opcode = 0x43 ∨ r.opcode = 0x44) ∧ s.sys.mode ≠ .test then some 3 else none

/-- The effect of a record that is applied. -/
def State.replayEffect (r : JRec) (s : State) : State :=
  let h := r.cmd
  if r.opcode = 0x42 then (elemsOf true h).foldl (fun (t : State) e => t.pokeNow e) s
  else if r.opcode = 0x46 then s.loopWrite h
  else if r.opcode = 0x43 then s.setForces (classOf h) (elemsOf true h)
  else (elemsOf false h).foldl (fun (t : State) e => t.clearForce (classOf h) e) s

/-- `s` without the journal record `r`. -/
def State.dropRec (r : JRec) (s : State) : State :=
  { s with hif := { s.hif with journal := s.hif.journal.filter fun o => o != r } }

/-- An image record (R450): its identifier stays in the window unless it is still PENDING. -/
def State.dropImage (r : JRec) (s : State) : State := if r.pending then (s.dropRec r).leaveWin r.slot r.reqId else s.dropRec r

/-- One unretired record at the start. A skipped record stays in the journal; one whose seal fails does not exist (log entry
37). -/
def State.replayOne (s : State) (r : JRec) : State :=
  if r.orphan then s
  else if !r.sealed then (s.skipRec r 1).dropRec r
  else if keepsTargets r.opcode && !r.noEffect then
    match s.replayBar r with
    | some why => s.skipRec r why
    | none => s.replayEffect r
  else if !r.noEffect && (r.opcode = 0x09 || r.opcode = 0x0A) then s.dropImage r
  else (s.dropRec r).leaveWin r.slot r.reqId

/-- The records of ring `n`, oldest first. -/
def State.recsOf (s : State) (n : Nat) : List JRec := s.hif.journal.filter fun r => r.slot == n

/-- The replay: the unretired records in ring order. -/
def State.replay (s : State) : State :=
  (List.range 17).foldl (fun (t : State) n => (s.recsOf n).foldl State.replayOne t) s

end Sys2Proof.Machine
end

