-- ==== Sys2Proof/Machine/Admin.lean ====
section
/-! DEFINITION. The admin opcodes of spec/04_host_rings.md R107 to R111: identity, rings, modes, the exchange of roles, restart,
quote and Tally clear. -/

namespace Sys2Proof.Machine

/-! Register words that commands return. -/

/-- SYS_ID (spec/03_register_conventions.md Table 3.10). -/
def State.sysId (s : State) : Word := if s.sys.marine then 0x00470243 else 0x00470143

/-- SYS_SLOT (spec/03_register_conventions.md Table 3.11). -/
def State.sysSlot (s : State) : Word := wordOf [(0, s.sys.nodeId.toNat), (24, s.sys.slotNo.toNat)]

/-- SYS_CAP (spec/03_register_conventions.md Table 3.13). -/
abbrev sysCap : Word := 0x0004C044

/-- BOOT_STAT (spec/17_firmware_and_configuration.md Table 17.11). -/
def State.bootStat (s : State) : Word :=
  let b := s.boot
  wordOf [(0, b.step.toNat), (4, bit b.held), (8, b.cause.toNat), (12, bit b.bank), (13, bit (b.bankOf (!b.bank)).ok),
    (14, bit b.migrating), (15, bit b.ks.locked)]

/-- DPX_STAT (spec/09_duplex_pair.md Table 9.9). -/
def State.dpxStat (s : State) : Word :=
  let d := s.dpx
  wordOf [(0, d.state.code), (3, bit d.handover), (4, bit d.proofFail), (5, bit d.partnerPf), (6, bit d.ringAbsent),
    (8, d.reason.toNat), (16, (maskOf 4 fun r => s.portUp r).toNat), (20, d.beaconHeard.toNat)]

/-! NOP and IDENTIFY. -/

/-- The opcodes of Table 4.7. -/
def knownOp (b : BitVec 8) : Bool := decide (b.toNat < 0x0F) || (decide (0x40 ≤ b.toNat) && decide (b.toNat < 0x49))

/-- An entry with another opcode is refused with INVALID_OPCODE (R107). -/
def State.runUnknown (h : Hcmd) (s : State) : State :=
  if s.canTake h.slot .n then (s.fetch h.slot).finish h St.invalidOpcode else s

/-- NOP. An entry whose opcode Table 4.7 does not list has no row of its own and is taken here (log entry 119). -/
def execNop (h : Hcmd) (s : State) : Host.Outcome State Fault Refusal :=
  done s (if knownOp h.opcode then s.runCmd (opNop true) { h with opcode := 0x00 } else s.runUnknown h)

/-- The identity structure (R110). -/
def State.identity (s : State) : List Byte :=
  padTo 4096 (le 4 s.sysId.toNat ++ le 8 s.sys.uid.toNat ++ le 4 s.sysSlot.toNat ++ le 4 s.sysMode.toNat ++ le 4 sysCap.toNat ++
    le 4 s.boot.fwVer.toNat ++ le 4 s.boot.actVer.toNat ++ le 8 s.tly.nonce.toNat ++ le 4 s.chg.actVer.toNat ++
    le 4 s.dpxStat.toNat ++ le 4 s.sysFault.toNat ++ le 4 s.bootStat.toNat)

/-- IDENTIFY. -/
def opIdentify : HostOp :=
  { code := 0x01, admin := true, dur := .n, roleP := false
    static := fun h => orElse (commonCheck true 0 0 4096 h) (noFields h) St.invalidField
    check := fun _ _ => .go, effect := fun _ s => { s := s, ret := s.identity } }

/-- IDENTIFY. -/
def execIdentify (h : Hcmd) (s : State) : Host.Outcome State Fault Refusal := done s (s.runCmd opIdentify { h with opcode := 0x01 })

/-! Rings (R96, R109, R110). -/

/-- A base is aligned to 4 KiB and an exponent lies from `lo` to 16 (R96). -/
def ringFieldsOk (base : DWord) (k lo : Nat) : Bool := decide (base.toNat % 4096 = 0) && decide (lo ≤ k) && decide (k ≤ 16)

/-- The fields of RING_CREATE (Table 4.8). -/
def ringFields (h : Hcmd) : Bool :=
  let k := bits h.param0 0 5
  let n := h.param1.toNat % 65536
  decide (h.target.toNat < 16) && ringFieldsOk h.dptr k 4 && ringFieldsOk h.rptr (bits h.param0 8 5) (max 4 k) &&
    decide (h.param0 &&& 0xFFC0E0E0 = 0) && decide (h.param1.toNat < 2 ^ 32) && decide (h.param2 = 0) &&
    !(decide (h.param1.toNat / 65536 = 0) && decide (1 < n))

/-- The ring that RING_CREATE makes; its phase begins at 1 (R105). -/
def ringMade (h : Hcmd) : Ring :=
  { live := true, sqBase := h.dptr, cqBase := h.rptr, sqK := bits h.param0 0 5, cqK := bits h.param0 8 5,
    vector := bits h.param0 16 6, coalN := h.param1.toNat % 65536, coalT := h.param1.toNat / 65536 }

/-- Ring slot `n` with ring `r` in it. -/
def State.setRing (n : Nat) (r : Ring) (s : State) : State := { s with hif := { s.hif with rings := s.hif.rings.put n r } }

/-- RING_CREATE. -/
def opRingCreate : HostOp :=
  { code := 0x02, admin := true, dur := .n, roleP := false
    static := fun h => orElse (commonCheck true 0 0 0 h) (ringFields h) St.invalidField
    check := fun h s => if (s.ring (h.target.toNat + 1)).live then .no St.invalidField 0 else .go
    effect := fun h s => { s := (s.setRing (h.target.toNat + 1) (ringMade h)).releaseHeld (h.target.toNat + 1) } }

/-- RING_CREATE. -/
def execRingCreate (h : Hcmd) (s : State) : Host.Outcome State Fault Refusal := done s (s.runCmd opRingCreate { h with opcode := 0x02 })

/-- The effect of RING_DELETE on the ring of slot `n` (R110): an unrecorded command is aborted and the pair goes; a recorded one
completes first. -/
def State.ringDelete (n : Nat) (s : State) : HRes :=
  match (s.ring n).infl with
  | some i =>
    if i.begun then { s := s.updRing n fun r => { r with deleting := true }, wait := true }
    else { s := (s.abortInfl n).removeRing n }
  | none => { s := s.removeRing n }

/-- RING_DELETE. -/
def opRingDelete : HostOp :=
  { code := 0x03, admin := true, dur := .n, roleP := false
    static := fun h => orElse (commonCheck true 0 0 0 h)
      (decide (h.target.toNat < 16) && decide (h.param0 = 0 ∧ h.param1 = 0 ∧ h.param2 = 0)) St.invalidField
    check := fun h s => if (s.ring (h.target.toNat + 1)).live then .go else .no St.invalidField 0
    effect := fun h s => s.ringDelete (h.target.toNat + 1) }

/-- RING_DELETE. -/
def execRingDelete (h : Hcmd) (s : State) : Host.Outcome State Fault Refusal := done s (s.runCmd opRingDelete { h with opcode := 0x03 })

/-- The event ring that EVENT_CREATE makes (R110). -/
def evMade (h : Hcmd) : EvRing :=
  { live := true, base := h.dptr, k := bits h.param0 0 5, vector := bits h.param0 16 6, minSev := bits h.param0 24 3 }

/-- EVENT_CREATE. -/
def opEventCreate : HostOp :=
  { code := 0x04, admin := true, dur := .n, roleP := false
    static := fun h => orElse (commonCheck true 0 0 0 h)
      (decide (h.target = 0) && ringFieldsOk h.dptr (bits h.param0 0 5) 4 && decide (h.param0 &&& 0xF8C0FFE0 = 0) &&
        decide (h.param1 = 0 ∧ h.param2 = 0)) St.invalidField
    check := fun _ s => if s.hif.ev.live then .no St.invalidField 0 else .go
    effect := fun h s => { s := { s with hif := { s.hif with ev := evMade h } } } }

/-- EVENT_CREATE. -/
def execEventCreate (h : Hcmd) (s : State) : Host.Outcome State Fault Refusal := done s (s.runCmd opEventCreate { h with opcode := 0x04 })

/-- EVENT_DELETE. -/
def opEventDelete : HostOp :=
  { code := 0x05, admin := true, dur := .n, roleP := false
    static := fun h => orElse (commonCheck true 0 0 0 h) (noFields h) St.invalidField
    check := fun _ s => if s.hif.ev.live then .go else .no St.invalidField 0
    effect := fun _ s => { s := { s with hif := { s.hif with ev := {} } } } }

/-- EVENT_DELETE. -/
def execEventDelete (h : Hcmd) (s : State) : Host.Outcome State Fault Refusal := done s (s.runCmd opEventDelete { h with opcode := 0x05 })

/-! MODE_SET (spec/02_modes_and_startup.md R34, R39 to R45, R49 to R51; spec/06_lockstep_and_darn.md R174). -/

/-- The commanded transitions of Table 2.4 from mode `m`; from HOLD and IDLE-LINK to the mode `entry` that it was entered from. -/
def mayGo (m entry dst : Mode) : Bool :=
  match m with
  | .idleLink | .hold => dst == entry
  | .commission => dst == .test || dst == .stop || dst == .idleLink || dst == .hold
  | .test => dst == .commission || dst == .stop || dst == .hold
  | .stop => dst == .run || dst == .commission || dst == .test || dst == .idleLink
  | .run => dst == .stop || dst == .hold
  | .recovery => dst == .stop || dst == .commission
  | .retain | .boot | .takeover | .activate | .faultHalt => false

/-- A pair that hosts a class (R127, R174). -/
def State.hosts (s : State) (p : Nat) : Bool := s.cfg.cls.any fun c => c.2.en && c.2.pair == p

/-- The pairs of a HOLD mask. -/
def holdPairs (h : Hcmd) : List Nat := (List.range 4).filter fun p => h.param0.getLsbD p

/-- The checks of MODE_SET to `dst` on state. -/
def State.checkMode (dst : Mode) (h : Hcmd) (s : State) : Verdict :=
  if s.sys.trans.isSome then .no St.modeBusy 0
  else if !mayGo s.sys.mode s.sys.from_ dst then .no St.modeRefused 0
  else if s.sys.mode = .run ∧ dst = .hold ∧ s.sys.primary = true then .no St.roleRefused 0
  else if dst = .idleLink ∧ s.sys.primary = true ∧ s.sys.lone = false ∧ s.dpx.partnerHb = true ∧
      s.dpx.partnerMode ≠ BitVec.ofNat 4 Mode.idleLink.code then .no St.roleRefused 0
  else if s.sys.mode = .commission ∧ dst = .stop ∧ (s.cfg.valid = false ∨ s.prog.loaded = false) then .no St.modeRefused 0
  else if dst = .hold ∧ (holdPairs h).all (fun p => s.hosts p) = false then .no St.invalidField 0
  else .go

/-- No class starts a further cycle; an active one goes on to its commit (spec/05_cyclic_execution.md R142). -/
def State.stopClasses (s : State) : State :=
  { s with cyc := { s.cyc with cls := s.cyc.cls.mapV fun x => { x with running := false } } }

/-- The classes run in TEST: as in RUN, but a first scan is due only to a class that has executed no cycle since BOOT
(spec/05_cyclic_execution.md R135, R141). -/
def State.testClasses (s : State) : State :=
  let t := s.runClasses
  { t with cyc := { t.cyc with cls := t.cfg.cls.foldl (fun k c =>
      k.upd c.1 {} fun x => { x with firstDue := decide ((s.cmem c.1).commitNo = 0) }) t.cyc.cls } }

/-- A standby that leaves RUN leaves INSYNC (spec/09_duplex_pair.md R242). -/
def State.leaveSync (s : State) : State := if s.sys.primary then s else s.endInsync 5

/-- The standby follows its primary to mode `m` (spec/02_modes_and_startup.md R34). -/
def State.followMode (m : Mode) (s : State) : State :=
  ({ s with dpx2 := { s.dpx2 with modeDue := none } }.leaveSync).setMode m 0

/-- A mode that the standby follows is due at the boundary of the fastest class that the record of the command names (R34): the modes
of Table 2.4 that lead there are the same on both modules. -/
def State.followDue (c : Nat) (s : State) : State :=
  match s.dpx2.modeDue with
  | some (m, n) =>
    if s.fastest = some c ∧ n ≤ (s.cls c).cycno ∧ s.sys.mode = .run ∧ s.sys.primary = false ∧ s.sys.trans = none then s.followMode m else s
  | none => s

/-- Pair `p` is broken (R174): core A goes on alone, without comparator, checkpoints or darns. -/
def Pair.breakUp (q : Pair) : Pair :=
  { q with broken := true, restoring := false, reexec := false, starting := false, taking := false, fence := false, mism := false,
           resume := [], log := [] }

/-- Entry to HOLD (R174, spec/05_cyclic_execution.md R143): the pairs of the mask are broken, and their programs go on from where they
stood, past a store held for want of room; their classes are held. -/
def State.enterHold (h : Hcmd) (s : State) : State :=
  let t := (holdPairs h).foldl (fun (u : State) p => (u.updPair p Pair.breakUp).releaseStores p) s
  let t := { t with cyc := { t.cyc with cls := t.cfg.cls.foldl (fun (k : Tab Cls) (c : Nat × ClsCfg) =>
    if c.2.en && (holdPairs h).contains c.2.pair then k.upd c.1 {} fun x => { x with held := true } else k) t.cyc.cls } }
  (if decide (s.sys.mode = Mode.run) then t.leaveSync else t).setMode .hold 0

/-- The breakpoints of pair `p` are cleared (R176). -/
def State.clearBps (p : Nat) (s : State) : State :=
  (List.range 4).foldl (fun (t : State) b => t.setReg (lspReg (Reg.lspPairBp0 + 4 * b) p) 0) s

/-- Exit from HOLD (R45, R143): the broken pairs are reset and reloaded, and the cycles of their classes abandoned, an overrun among
them with its record (spec/05_cyclic_execution.md R136). -/
def State.leaveHold (s : State) : State :=
  let s := (s.cyc.cls.keys).foldl (fun (u : State) c => if (u.cls c).held then u.overrunRec c else u) s
  let ps := (List.range 4).filter fun p => (s.pair p).broken
  let t := ps.foldl (fun (u : State) p => (u.clearBps p).updPair p Pair.reload) s
  let t := { t with cyc := { t.cyc with cls := t.cyc.cls.mapV fun x =>
    if x.held then { x with held := false, active := false, bodyDone := false, preempted := false, latePend := none } else x } }
  t.setMode s.sys.from_ 0

/-- SYS_ISLAND in IDLE-LINK (spec/03_register_conventions.md R89): of the islands of spec/01_architecture.md Table 1.2, PCI (4), ETH (5)
with P6, HSK (11) and RET (13) stay powered (spec/02_modes_and_startup.md, IDLE-LINK; log entry 117). -/
def idleIslands : BitVec 14 := 0x2830

/-- Entry to IDLE-LINK (R39, spec/11_time.md R300): the engines lose power, DRAM refreshes itself. -/
def State.enterIdle (s : State) : State :=
  let t := (s.leaveSync).soOff
  let t := { t with
    saf := { t.saf with started := false, spRun := false, selRun := false }
    fio := { t.fio with run := false }
    mm := { t.mm with rinsePaused := true }
    sys := { t.sys with island := idleIslands }, hif := { t.hif with l1 := true }
    dpx := { t.dpx with up0 := false, up1 := false, good0 := 0, good1 := 0, partnerHb := false } }
  t.haltClasses.setMode .idleLink 0

/-- The network engines reloaded: a counter goes on (spec/03_register_conventions.md R74). -/
def Net.restarted (n : Net) : Net :=
  { ports := n.ports, tx := n.tx, peerElim := n.peerElim, peerDisc := n.peerDisc
    rings := n.rings.mapV fun r => { elim := r.elim, single := r.single, disc := r.disc, late := r.late, openCnt := r.openCnt }
    stns := n.stns.mapV fun x => { missLatch := x.missLatch, timesFailed := x.timesFailed, rejoins := x.rejoins, single := x.single } }

/-- The local clock restarted at full time 0 (spec/11_time.md R300): a counter goes on (spec/03_register_conventions.md R74). -/
def Tim.restarted (t : Tim) : Tim :=
  { stepCnt := t.stepCnt, swCnt := t.swCnt, setCnt := t.setCnt
    doms := t.doms.mapV fun d => { acc := d.acc, rej := d.rej }
    ports := t.ports.mapV fun p => { lost := p.lost, late := p.late }
    caps := t.caps.mapV fun c => { count := c.count, missed := c.missed } }

/-- Every powered-down engine reloaded (R40). -/
def State.reloadEngines (s : State) : State :=
  let t := { s with
    lsp := s.lsp.mapV Pair.reload
    net := s.net.restarted, tim := s.tim.restarted
    mm := { s.mm with rinsePaused := false }
    sys := { s.sys with island := 0x3FFF }, hif := { s.hif with l1 := false } }
  let t := t.step6
  { t with boot := { t.boot with step := 0 } }

/-- The running bank still verifies. -/
def Boot.runs (b : Boot) : Bool := b.bankVerifies b.bank

/-- Exit from IDLE-LINK (R40): to the mode it was entered from, or to FAULT-HALT where verification or self-test fails; a module of
a pair looks for its partner again. A command that does not say what self-test finds leaves that a free value (log entry 111). -/
def State.leaveIdle (seen : Option BootObs) (s : State) : State :=
  let entry := s.sys.from_
  let (obs, s) := match seen with
    | some o => (o, s)
    | none => s.drawObs
  let t := s.reloadEngines
  if obs.selfTest && s.boot.runs then t.setMode entry 0
  else (({ t with sys := { t.sys with haltCause := 4 } }).setMode .faultHalt 3).lockout 2 0 0 true false

/-- The fall-back selection is accepted as the running version (R49). -/
def Boot.acceptFallback (b : Boot) : Boot :=
  { b with sel := b.bank, cfgAct := b.cfgRun, cfgPrev := if b.cfgRun = b.cfgAct then b.cfgPrev else b.cfgAct }

/-- Exit from RECOVERY (R49): to STOP the fall-back is accepted; a module that takes the primary role has a new epoch
(spec/09_duplex_pair.md R258), and has replayed its journal (spec/04_host_rings.md R114). -/
def State.leaveRecovery (dst : Mode) (s : State) : State :=
  let t := if dst = .stop then { s with boot := s.boot.acceptFallback } else s
  (if t.sys.lone then (t.replayOnce State.replay).takeEpoch else t).setMode dst 0

/-- The classes stop on the way from RUN or TEST to `dst` (R142): at once where no cycle is active. Host writes
still pending then wait for the first cycle after the next start (log entry 121). -/
def State.stopInto (dst : Mode) (slot : Nat) (s : State) : HRes :=
  let t := s.stopClasses
  if s.quiet || !s.executes then { s := (t.leaveSync).setMode dst 0 }
  else { s := t.beginTrans dst 0 slot, wait := true }

/-- The effect of MODE_SET to `dst`. -/
def State.modeEffect (dst : Mode) (obs : Option BootObs) (h : Hcmd) (s : State) : HRes :=
  match s.sys.mode with
  | .hold => { s := s.leaveHold }
  | .idleLink => { s := s.leaveIdle obs }
  | .recovery => { s := s.leaveRecovery dst }
  | .run | .test => if dst = .hold then { s := s.enterHold h } else s.stopInto dst h.slot
  | _ =>
    if dst = .hold then { s := s.enterHold h }
    else if dst = .idleLink then { s := s.enterIdle }
    else if dst = .run then { s := (if s.sys.primary then s.runClasses else s).setMode .run 0 }
    else if dst = .test then { s := (if s.sys.primary then s.testClasses else s).setMode .test 0 }
    else { s := s.setMode dst 0 }

/-- The cycle number of the next boundary of the fastest class. -/
def State.nextFast (s : State) : DWord := match s.fastest with
  | some c => (s.cls c).cycno + 1
  | none => 0

/-- The fields of MODE_SET (R174): TARGET is a code of spec/02_modes_and_startup.md Table 2.1. -/
def modeFields (dst : Mode) (h : Hcmd) : Bool :=
  decide (h.target.toNat < 12) && decide (h.param1 = 0 ∧ h.param2 = 0) &&
    (if dst = .hold then decide (h.param0.toNat < 16) && decide (h.param0 ≠ 0) else decide (h.param0 = 0))

/-- MODE_SET to `dst` as the mode has it: STOP and RUN are of role P, but for the exits of modes that forbid the role (Table 4.7;
log entry 38). -/
def State.modeOp (s : State) (dst : Mode) (obs : Option BootObs) : HostOp :=
  { code := 0x06, admin := true, dur := .j
    roleP := (dst == .stop || dst == .run) && !(s.sys.mode == .hold || s.sys.mode == .idleLink || s.sys.mode == .recovery)
    static := fun h => orElse (commonCheck true 0 0 0 h) (modeFields dst h) St.invalidField
    check := fun h s => s.checkMode dst h, effect := fun h s => s.modeEffect dst obs h
    cyc := fun _ s => if s.sys.mode = .run ∧ dst = .stop then s.nextFast else 0 }

/-- A MODE_SET entry to `dst`. -/
def modeEntry (dst : Mode) (h : Hcmd) : Hcmd := { h with opcode := 0x06, target := BitVec.ofNat 16 dst.code }

/-- MODE_SET to `dst` taken from the admin ring. -/
def State.runMode (dst : Mode) (obs : Option BootObs) (h : Hcmd) (s : State) : State := s.runCmd (s.modeOp dst obs) (modeEntry dst h)

/-- MODE_SET_RUN, from STOP. -/
def execModeSetRun (h : Hcmd) (s : State) : Host.Outcome State Fault Refusal := done s (s.runMode .run none h)

/-- MODE_SET_STOP. -/
def execModeSetStop (h : Hcmd) (s : State) : Host.Outcome State Fault Refusal := done s (s.runMode .stop none h)

/-- MODE_SET_COMMISSION. -/
def execModeSetCommission (h : Hcmd) (s : State) : Host.Outcome State Fault Refusal := done s (s.runMode .commission none h)

/-- MODE_SET_TEST. -/
def execModeSetTest (h : Hcmd) (s : State) : Host.Outcome State Fault Refusal := done s (s.runMode .test none h)

/-- MODE_SET_HOLD. -/
def execModeSetHold (h : Hcmd) (s : State) : Host.Outcome State Fault Refusal := done s (s.runMode .hold none h)

/-- MODE_SET_HOLD_EXIT: to the mode that HOLD was entered from; outside HOLD the entry's own target is refused as Table 2.4 has it. -/
def execModeSetHoldExit (h : Hcmd) (s : State) : Host.Outcome State Fault Refusal :=
  done s (if s.sys.mode = .hold then s.runMode s.sys.from_ none h
    else s.runCmd { s.modeOp s.sys.from_ none with check := fun _ _ => .no St.modeRefused 0 } { h with opcode := 0x06 })

/-- MODE_SET_IDLE_LINK. -/
def execModeSetIdleLink (h : Hcmd) (s : State) : Host.Outcome State Fault Refusal := done s (s.runMode .idleLink none h)

/-! ROLE_EXCHANGE (spec/09_duplex_pair.md R264, R265). -/

/-- An exchange is under way. -/
def State.exchanging (s : State) : Bool := s.dpx2.xPend || s.dpx.handover

/-- The refusals of R264. -/
def State.checkExchange (s : State) : Verdict :=
  if s.sys.trans.isSome ∨ s.exchanging = true then .no St.modeBusy 0
  else if s.sys.mode ≠ .run then .no St.modeRefused 0
  else if s.insync = false then .no St.refused 0x40
  else if s.dpx.partnerPf then .no St.refused 0x41
  else if s.changeBusy then .no St.refused 0x42
  else .go

/-- An exchange waits for its hand-over boundary; the command of ring `slot` waits for it. -/
def State.askExchange (proof : Bool) (slot : Nat) (s : State) : State :=
  { s with dpx2 := { s.dpx2 with xPend := true, isProof := proof, xslot := slot } }

/-- ROLE_EXCHANGE. -/
def opExchange : HostOp :=
  { code := 0x07, admin := true, dur := .j, roleP := true
    static := fun h => orElse (commonCheck true 0 0 0 h)
      (decide (h.target = 0 ∧ h.param0.toNat < 2 ∧ h.param1 = 0 ∧ h.param2 = 0)) St.invalidField
    check := fun _ s => s.checkExchange
    effect := fun h s => { s := s.askExchange (h.param0.getLsbD 0) h.slot, wait := true } }

/-- ROLE_EXCHANGE. -/
def execRoleExchange (h : Hcmd) (s : State) : Host.Outcome State Fault Refusal := done s (s.runCmd opExchange { h with opcode := 0x07 })

/-! RESTART (R111). -/

/-- The refusals of R111. -/
def State.checkRestart (s : State) : Verdict :=
  if s.sys.trans.isSome then .no St.modeBusy 0
  else match s.sys.mode with
    | .commission | .test | .stop | .faultHalt | .recovery => .go
    | .run => if s.sys.primary then .no St.roleRefused 0 else .go
    | _ => .no St.modeRefused 0

/-- RESTART; BOOT follows its completion. -/
def opRestart : HostOp :=
  { code := 0x08, admin := true, dur := .n, roleP := false
    static := fun h => orElse (commonCheck true 0 0 0 h) (noFields h) St.invalidField
    check := fun _ s => s.checkRestart, effect := fun _ s => { s := s.beginTrans .boot 7 31 } }

/-- A restart (spec/02_modes_and_startup.md R60): BOOT from step 2 on. -/
def State.restart (obs : BootObs) (s : State) : State := s.bootFrom2 State.replay false obs

/-- RESTART taken from the admin ring: BOOT follows its completion. -/
def State.runRestart (obs : BootObs) (h : Hcmd) (s : State) : State :=
  let t := s.runCmd opRestart { h with opcode := 0x08 }
  match t.sys.trans with
  | some x => if x.dst = .boot then t.restart obs else t
  | none => t

/-- RESTART. -/
def execRestart (h : Hcmd) (obs : BootObs) (s : State) : Host.Outcome State Fault Refusal := done s (s.runRestart obs h)

/-! ATTEST_QUOTE (spec/17_firmware_and_configuration.md R463). -/

/-- The signed part of the quote (Table 17.9). -/
def State.quoteBody (s : State) (nonce : List Byte) (len : Nat) : List Byte :=
  padTo 384 ([0x02, 0x17] ++ le 2 len ++ le 4 0 ++ le 8 s.sys.uid.toNat ++ le 4 s.sys.nodeId.toNat ++ le 4 s.sys.pwrcyc.toNat ++
    le 6 s.opMs ++ [0, 0] ++ nonce ++ (List.range 9).flatMap (fun m => slice (s.boot.meas.look m []) 0 32) ++
    le 4 s.boot.fwVer.toNat ++ le 4 s.boot.actVer.toNat ++ le 4 s.chg.actVer.toNat ++ le 4 s.sysMode.toNat ++ le 4 s.bootStat.toNat)

/-- The quote for a payload of 64 bytes. -/
def State.quote (p : List Byte) (s : State) : List Byte :=
  let chain := if (slice p 32 1).headD 0 &&& 1 = 1 then s.boot.ks.chain else []
  let body := s.quoteBody (slice p 0 32) (448 + chain.length)
  body ++ slice (Config.ecdsaSign (Config.sha256 body)) 0 64 ++ chain

/-- ATTEST_QUOTE. -/
def opQuote : HostOp :=
  { code := 0x0D, admin := true, dur := .n, roleP := false
    static := fun h => orElse (commonCheck true 64 64 4096 h) (noFields h) St.invalidField
    check := fun _ _ => .go, effect := fun h s => { s := s, ret := s.quote h.payload } }

/-- ATTEST_QUOTE. -/
def execAttestQuote (h : Hcmd) (s : State) : Host.Outcome State Fault Refusal := done s (s.runCmd opQuote { h with opcode := 0x0D })

/-! TALLY_CLEAR (spec/15_tally_recorder.md R416 to R421). -/

/-- The reserved bytes of a TALLY_CLEAR payload (Table 15.5). -/
def clearReserved (p : List Byte) : Bool :=
  decide (fieldN p 8 1 < 2) && decide (fieldN p 9 7 = 0) &&
    (decide (p.length ≤ 16) || (decide (fieldN p 24 1 < 8) && decide (unle (slice p 25 39) = 0)))

/-- The region of a clear: the audit region if `true`. -/
def clearAudit (h : Hcmd) : Bool := fieldN h.payload 8 1 % 2 = 1

/-- The first and the last sequence of a clear. -/
def clearSeqs (h : Hcmd) : Word × Word := (BitVec.ofNat 32 (fieldN h.payload 0 4), BitVec.ofNat 32 (fieldN h.payload 4 4))

/-- The command carries a token. -/
def hasToken (h : Hcmd) : Bool := decide (h.dlen = 128)

/-- The checks of TALLY_CLEAR on state: the token, then R420. -/
def State.checkClear (h : Hcmd) (s : State) : Verdict :=
  if (if hasToken h then s.tokenOk h.payload else !needsToken (clearAudit h) s.sys.mode) then
    let r := s.tly.clearReason (clearAudit h) (clearSeqs h).1 (clearSeqs h).2
    if r = 0 then .go else .no St.refused (BitVec.ofNat 32 r)
  else .no St.tokenErr 0

/-- The effect of TALLY_CLEAR. -/
def State.tallyClear (h : Hcmd) (s : State) : State :=
  (s.clearRange (clearAudit h) (clearSeqs h).1 (clearSeqs h).2 (if hasToken h then fieldN h.payload 24 1 % 8 else 0xFF)).2

/-- TALLY_CLEAR. -/
def opClear : HostOp :=
  { code := 0x0E, admin := true, dur := .j, roleP := false
    static := fun h => orElse (orElse (commonCheck true 16 128 0 h) (decide (h.dlen = 16 ∨ h.dlen = 128)) St.lenErr)
      (noFields h && clearReserved h.payload) St.invalidField
    check := fun h s => s.checkClear h, effect := fun h s => { s := s.tallyClear h } }

/-- What a TALLY_CLEAR that reaches its checks on state leaves beside its effect: a new nonce after a token check (R419), and the
count of a refusal. -/
def State.afterToken (h : Hcmd) (s t : State) : State :=
  if s.canTake h.slot opClear.dur && (opClear.static h).isNone && (!s.sys.primary || decide ((s.win h.slot).high < h.reqId)) then
    let u := if hasToken h || needsToken (clearAudit h) s.sys.mode then t.newNonce else t
    match s.checkClear h with
    | .no _ _ => u.clearRefused
    | .go => u
  else t

/-- TALLY_CLEAR taken from the admin ring. -/
def State.runClear (h : Hcmd) (s : State) : State :=
  let g := { h with opcode := 0x0E }
  s.afterToken g (s.runCmd opClear g)

/-- TALLY_CLEAR. -/
def execTallyClear (h : Hcmd) (s : State) : Host.Outcome State Fault Refusal := done s (s.runClear h)

end Sys2Proof.Machine
end

