-- ==== Sys2Proof/Machine/HostOps.lean ====
section
/-! DEFINITION. Commands by their opcode: the acknowledgement or the journal that makes a mirrored command durable, failed accesses to
host memory, and the management port (spec/04_host_rings.md R107, R112, R113, R119, spec/10_io_network.md R292). -/

namespace Sys2Proof.Machine

/-- The mode that a MODE_SET entry names in TARGET (spec/02_modes_and_startup.md Table 2.1). -/
def targetMode (h : Hcmd) : Mode :=
  match h.target.toNat with
  | 0 => .retain
  | 1 => .boot
  | 2 => .idleLink
  | 3 => .commission
  | 4 => .test
  | 5 => .stop
  | 6 => .run
  | 7 => .hold
  | 8 => .takeover
  | 9 => .activate
  | 10 => .faultHalt
  | _ => .recovery

/-- The operation of an ACTIVATE payload (spec/17_firmware_and_configuration.md Table 17.6). -/
def activateOp (h : Hcmd) : HostOp :=
  match (h.payload.headD 0).toNat % 4 with
  | 0 => opSwitch
  | 1 => opConfirm
  | _ => opCancel

/-- The operation of a PROGRAM_LOAD entry (spec/08_online_change.md R215). -/
def loadOp (h : Hcmd) : HostOp :=
  match h.target.toNat % 4 with
  | 0 => opChange
  | 1 => opReturn
  | _ => opStatus

/-- The operation that an entry asks for (Table 4.7). -/
def State.hostOp (s : State) (h : Hcmd) : Option HostOp :=
  match h.opcode.toNat with
  | 0x00 => some (opNop true)
  | 0x01 => some opIdentify
  | 0x02 => some opRingCreate
  | 0x03 => some opRingDelete
  | 0x04 => some opEventCreate
  | 0x05 => some opEventDelete
  | 0x06 => some (s.modeOp (targetMode h) none)
  | 0x07 => some opExchange
  | 0x08 => some opRestart
  | 0x09 => some opImageWrite
  | 0x0A => some opImageVerify
  | 0x0B => some (activateOp h)
  | 0x0C => some opCfgReturn
  | 0x0D => some opQuote
  | 0x0E => some opClear
  | 0x40 => some (opNop false)
  | 0x41 => some opVarRead
  | 0x42 => some s.varWriteOp
  | 0x43 => some opForceSet
  | 0x44 => some opForceClear
  | 0x45 => some opLoopRead
  | 0x46 => some opLoopWrite
  | 0x47 => some opTallyRead
  | 0x48 => some (loadOp h)
  | _ => none

/-- The ring whose command waits for the acknowledgement of record `rseq`. -/
def State.awaiting (s : State) (rseq : DWord) : Option Nat :=
  (s.hif.rings.find? fun e => match e.2.infl with
    | some i => i.ackRseq == some rseq
    | none => false).map Prod.fst

/-- The command of ring `n` is durable on the partner (R112): its effect follows. -/
def State.ackHost (n : Nat) (s : State) : State :=
  match (s.ring n).infl with
  | none => s
  | some i => match s.hostOp i.cmd with
    | none => s
    | some op => (s.updRing n fun r => { r with infl := some { i with ackRseq := none } }).afterRecord op i.cmd i.status i.reason true 0

/-- The record of the command of ring `n` was not acknowledged in time (R113): INSYNC ends and the record is journaled. -/
def State.ackMissing (n : Nat) (s : State) : State :=
  match (s.ring n).infl with
  | none => s
  | some i => match s.hostOp i.cmd with
    | none => s
    | some op =>
      let t := (s.endInsync 1).updRing n fun r => { r with infl := some { i with ackRseq := none } }
      ({ t with dpx2 := { t.dpx2 with ackTo := t.dpx2.ackTo + 1 } }).recordJournal op i.cmd i.status i.reason (BitVec.ofNat 64 i.aux)

/-- The command of a deleted ring whose record `rseq` awaits its acknowledgement. -/
def State.lostOf (s : State) (rseq : DWord) : Option Infl := s.hif.lost.find? fun i => i.ackRseq == some rseq

/-- The record of a command whose ring is deleted is durable: its window entry and its effect follow, and it completes into nothing
(R95). -/
def State.endLost (i : Infl) (s : State) : State :=
  let t := { s with hif := { s.hif with lost := s.hif.lost.filter fun x => x.ackRseq != i.ackRseq } }.enterWin i.cmd.slot i.cmd.reqId
  match s.hostOp i.cmd with
  | some op => if i.status = St.ok then (op.effect { i.cmd with slot := 31 } t).s else t
  | none => t

/-- The record of such a command was not acknowledged in time (R113). -/
def State.lostMissing (i : Infl) (s : State) : State :=
  let t := s.endInsync 1
  let t := { t with dpx2 := { t.dpx2 with ackTo := t.dpx2.ackTo + 1 } }
  match s.hostOp i.cmd with
  | some op => (t.journal (jrecOf op.dur i.cmd i.status (decide (i.status ≠ St.ok)) (t.hif.jseq + 1) (BitVec.ofNat 64 i.aux))).endLost i
  | none => t

/-- A host-work record that no ring command waits for was not acknowledged in time: INSYNC ends (spec/09_duplex_pair.md R242). -/
def State.unaskedMissing (s : State) : State :=
  let t := s.endInsync 1
  { t with dpx2 := { t.dpx2 with ackTo := t.dpx2.ackTo + 1 } }

/-- MIRROR_ACK_TIMEOUT (R113): record `rseq` has not been acknowledged 200 µs after it was sent. -/
def execMirrorAckTimeout (rseq : DWord) (s : State) : Host.Outcome State Fault Refusal :=
  match s.awaiting rseq with
  | some n => if s.running then done s (s.ackMissing n) else .next s
  | none => match s.lostOf rseq with
    | some i => if s.running then done s (s.lostMissing i) else .next s
    | none => if s.running && s.dpx2.hwOut.contains rseq then done s s.unaskedMissing else .next s

/-! Failed accesses to host memory (R119). -/

/-- An entry taken from its ring by its opcode. What the restart of a RESTART entry finds is a free value (log entry 111). -/
def State.runEntry (h : Hcmd) (s : State) : State :=
  match h.opcode.toNat with
  | 0x08 => s.drawObs.2.runRestart s.drawObs.1 h
  | 0x0B => s.runAct (activateOp h) h
  | 0x0C => s.runAct opCfgReturn h
  | 0x0E => s.runClear h
  | 0x42 => if s.writeBlocked h then s else s.runCmd s.varWriteOp h
  | 0x46 => if s.loopBlocked h then s else s.runCmd opLoopWrite h
  | _ => match s.hostOp h with
    | some op => s.runCmd op h
    | none => s.runUnknown h

/-- The fetch of an entry of ring `n` fails; an entry is fetched only from a ring that `canTake` describes. -/
def State.entryFails (n : Nat) (s : State) : State :=
  if s.canTake n .n then (s.dmaErr).haltRing n 3 0 else s

/-- The write of the event written last fails: it is dropped, and the next event takes its entry (log entry 41). -/
def State.eventFails (s : State) : State :=
  let e := s.hif.ev
  if e.live && !e.halted && decide (e.tail ≠ e.headDb) then
    let t := s.dmaErr
    { t with hif := { t.hif with evtLost := t.hif.evtLost + 1, evLoss := true
                                 ev := { e with tail := (e.tail + 2 ^ e.k - 1) % 2 ^ e.k, phase := if e.tail = 0 then !e.phase else e.phase } } }
  else s

/-- What a failed access to host memory leads to. -/
def State.hostError : HostErr → State → State
  | .entry n, s => s.entryFails n
  | .payload h, s => s.runEntry { h with fetchOk := false }
  | .returned h, s => s.runEntry { h with retOk := false }
  | .completion h, s => s.runEntry { h with cqeOk := false }
  | .event, s => s.eventFails

/-- HOST_MEMORY_ERROR. -/
def execHostMemoryError (err : HostErr) (s : State) : Host.Outcome State Fault Refusal := done s (s.hostError err)

/-! The management port (spec/10_io_network.md R292). -/

/-- The bytes of a completion entry (Table 4.5). -/
def Cqe.bytes (c : Cqe) : List Byte :=
  le 8 c.reqId.toNat ++ le 2 c.sqHead ++ [BitVec.ofNat 8 c.slot, c.opcode] ++ le 2 c.status.toNat ++
    [0, BitVec.ofNat 8 (bit c.phase + 2 * bit c.dup + 4 * bit c.mirrored + 8 * bit c.journaled)] ++ le 4 c.rdone ++
    le 4 c.result0.toNat ++ le 8 c.result1.toNat ++ le 4 c.accTime.toNat ++ le 4 c.node.toNat ++ le 8 c.jseq.toNat ++ le 16 0

/-- The answer to a P6 request; the ring fields of its completion entry, which stands in no ring, are free values (log entry 5). -/
def State.p6Answer (node : BitVec 18) (h : Hcmd) (status : BitVec 16) (ret : List Byte) (s : State) : State :=
  let (w, t) := s.draw
  let c : Cqe := { reqId := h.reqId, sqHead := w.toNat % 65536, slot := 0, opcode := h.opcode, status := status, phase := w.getLsbD 16,
                   dup := false, mirrored := false, journaled := false, rdone := ret.length, result0 := 0, result1 := 0,
                   accTime := t.accTime, node := t.sys.nodeId, jseq := 0 }
  t.put (.p6 node (c.bytes ++ ret))

/-- The token of a MODE_SET on P6 passes (Table 10.11): MODE equals TARGET, and the token as R419. -/
def State.p6Token (s : State) (h : Hcmd) : Bool := decide (fieldN h.payload 0 4 = h.target.toNat) && s.tokenOk h.payload

/-- The reserved bytes of the token payload are 0. -/
def p6Reserved (p : List Byte) : Bool :=
  decide (fieldN p 4 12 = 0) && decide (fieldN p 24 1 < 8) && decide (unle (slice p 25 39) = 0)

/-- A MODE_SET on P6: its status, and the state it leads to. -/
def State.p6Mode (obs : Option BootObs) (h : Hcmd) (s : State) : BitVec 16 × State :=
  if s.sys.mode ≠ .idleLink then (St.invalidOpcode, s)
  else if h.dlen = 0 then (St.tokenErr, s.newNonce)
  else if h.dlen ≠ 128 then (St.lenErr, s)
  else if !modeFields (targetMode h) h || !p6Reserved h.payload then (St.invalidField, s)
  else if !s.p6Token h then (St.tokenErr, s.newNonce)
  else match s.newNonce.checkMode (targetMode h) h with
    | .no st _ => (st, s.newNonce)
    | .go => (St.ok, s.newNonce.leaveIdle obs)

/-- A P6 request without effect on state: its status and return data. The identifier takes no part in any check. -/
def State.p6Query (s : State) (op : HostOp) (h : Hcmd) : BitVec 16 × List Byte :=
  match op.static { h with slot := 0, reqId := 1, sgl := false } with
  | some st => (st, [])
  | none => (St.ok, (op.effect h s).ret)

/-- A request of node `n` on P6. -/
def State.p6Run (obs : Option BootObs) (n : BitVec 18) (h : Hcmd) (s : State) : State :=
  if h.opcode = 0x01 then let a := s.p6Query opIdentify h; s.p6Answer n h a.1 a.2
  else if h.opcode = 0x0D then let a := s.p6Query opQuote h; s.p6Answer n h a.1 a.2
  else if h.opcode = 0x06 then let a := s.p6Mode obs h; a.2.p6Answer n h a.1 []
  else s.p6Answer n h St.invalidOpcode []

/-- The request that a MGMT frame holds; `h` tells whether a reserved field of its entry is not 0. -/
def p6Entry (f : Kcp) (h : Hcmd) : Hcmd :=
  { entryOf 0 (f.payload.take 64) (f.payload.drop 64) with rsvd := h.rsvd }

/-- MGMT. -/
def execMgmt (f : Kcp) (h : Hcmd) (s : State) : Host.Outcome State Fault Refusal :=
  let c := p6Entry f h
  let g := f.typed 9
  if !s.running || !s.portUp 6 then .next s
  else if !g.fcsOk then .next (s.fcsBad 6)
  else if !s.headerOk { g with port := 6 } then .next (s.discFrame 6)
  else done s (if c.payload.length = c.dlen.toNat then s.p6Run none f.src c else s.p6Answer f.src c St.lenErr [])

/-- MODE_SET_IDLE_EXIT: to the mode that IDLE-LINK was entered from; `obs` tells whether self-test passes. The command comes from
the admin ring, or from P6. -/
def execModeSetIdleExit (h : Hcmd) (obs : BootObs) (s : State) : Host.Outcome State Fault Refusal :=
  let g := { h with opcode := 0x06 }
  match h.p6node with
  | some n => if s.running && s.portUp 6 then done s (s.p6Run (some obs) n g) else .next s
  | none => done s (if s.sys.mode = .idleLink then s.runMode s.sys.from_ (some obs) g
      else s.runCmd { s.modeOp s.sys.from_ (some obs) with check := fun _ _ => .no St.modeRefused 0 } g)

end Sys2Proof.Machine
end

