-- ==== Sys2Proof/Machine/Records.lean ====
section
/-! DEFINITION. The records of the baste link as they are received: order and acknowledgement, host work on the standby, commit
records, loop state, Tally headers, versions, windows, images and notices (spec/09_duplex_pair.md R238 to R249, Tables 9.13 to 9.18). -/

namespace Sys2Proof.Machine

/-- The acknowledgement of a record (Table 9.14, ACK): `result` 0 accepted, 1 check failed. -/
def State.ackRec (r : BRec) (result : Nat) (s : State) : State :=
  s.sendRec 2 false false (le 8 r.rseq.toNat ++ [BitVec.ofNat 8 r.type, BitVec.ofNat 8 result] ++ le 6 0)

/-- The standby of a pair receives what its primary mirrors. -/
def State.receives (s : State) : Bool := s.cfg.partner && !s.executes

/-- What a standby holds of class `c`. -/
def State.mirCls (s : State) (c : Nat) : MirCls := s.mir.look c {}

/-- `s` with what a standby holds of class `c` changed by `f`. -/
def State.updMir (c : Nat) (f : MirCls → MirCls) (s : State) : State := { s with mir := s.mir.upd c {} f }

/-! Commanded exchange (R264, R265). -/

/-- The exchange of step 4 of a scheduled switch waits for AT (spec/17_firmware_and_configuration.md Table 17.8). -/
def State.beforeAt (s : State) : Bool :=
  s.pairAct && decide (s.boot.act.step = 3) && decide (s.secs < s.boot.act.at_.toNat)

/-- The next boundary of the fastest class lies at least 20 µs ahead. -/
def State.marginOk (s : State) : Bool :=
  let k := max 1 (s.cfUs * 1000)
  decide (s.tim.ns % k + 20000 ≤ k)

/-- The exchange hands the role back: after a failed proof swap (R269), or a failed settle window
(spec/17_firmware_and_configuration.md Table 17.8). -/
def State.handsBack (s : State) : Bool :=
  s.dpx.proofFail || (s.pairAct && decide (s.boot.act.state = 0) && decide (s.boot.act.step = 5))

/-- The hand-over boundary is chosen (R265, R266): the next boundary of the fastest class, where the commit of its last cycle has been
acknowledged 20 µs before it. The notice goes out, and the primary fetches no J or S command from then on. -/
def State.tryHandover (s : State) : State :=
  match s.fastest with
  | none => s
  | some c =>
    let n := (s.cls c).cycno
    if s.dpx2.xPend && s.sys.primary && s.insync && decide (s.sys.mode = .run) && s.dpx2.ceAck && decide (s.lastCommit = n) &&
        s.marginOk && !s.beforeAt && !s.dpx.partnerPf then
      let t := s.notice (if s.handsBack then 4 else 3) 0 (n + 1) 0
      { t with dpx := { t.dpx with handover := true }
               dpx2 := { t.dpx2 with xPend := false, hBound := n + 1, hoRseq := t.dpx2.rseqTx }
               hif := { t.hif with hold := true } }
    else s

/-- An exchange on a report of RING_ABSENT (R253) starts as soon as R264 lets it: in RUN, in sync, with no transition, exchange,
PROGRAM_LOAD or ACTIVATE in progress, towards a partner that has not failed its proof swap. -/
def State.tryAbsent (s : State) : State :=
  if s.dpx2.absPend = 0 ∨ s.checkExchange ≠ .go then s
  else
    let t := s.askExchange false 31
    ({ t with dpx2 := { t.dpx2 with
      absPend := 0
      absentT := (List.range 4).foldl (fun (a : Tab Nat) r => if s.dpx2.absPend.getLsbD r then a.put r s.sys.opNs else a) t.dpx2.absentT } }).tryHandover

/-! Host work on the standby (R246). -/

/-- An activation recorded on the primary is recorded here (spec/17_firmware_and_configuration.md Table 17.8). -/
def State.mirrorAct (a : Act) (s : State) : State := ((s.updAct fun _ => { a with slot := 31 })).actRec

/-- A RETURN recorded on the primary (spec/08_online_change.md R230): its record carries no payload. -/
def State.mirrorReturn (s : State) : State :=
  s.updChg fun c => { c with state := 1, moves := 0, isReturn := true, slot := 31, awaitCls := [],
                             classes := (parsePkg c.returnMap.1).classes, newVer := c.prevVer, newDig := c.prevDig }

/-- The exchange of a recorded change is scheduled for the cycle that its record names (spec/08_online_change.md R220, R226). -/
def State.mirrorChange (cyc : DWord) (s : State) : State :=
  s.scheduleAt (if cyc = 0 then s.tim.ns else s.exchangeNs cyc)

/-- Values of VAR_WRITE: at once, or with the mirrored commit of cycle `cyc` (R246). -/
def State.mirrorWrites (h : Hcmd) (cyc : DWord) (s : State) : State :=
  if cyc = 0 then (elemsOf true h).foldl (fun (u : State) e => u.pokeNow e) s
  else s.updMir (classOf h) fun m => { m with wr := m.wr ++ (elemsOf true h).map fun e => (cyc, e) }

/-- STOP on the primary, which the standby follows from RUN at the boundary that the record names (spec/02_modes_and_startup.md R34,
R50), or at once where it has passed. -/
def State.mirrorMode (m : Mode) (cyc : DWord) (s : State) : State :=
  if m ≠ .stop ∨ s.sys.mode ≠ .run ∨ s.sys.trans.isSome = true then s
  else if s.nextFast ≤ cyc ∧ s.fastest.isSome = true then { s with dpx2 := { s.dpx2 with modeDue := some (m, cyc) } }
  else s.followMode m

/-- The effect of a command of the primary on its standby. -/
def State.mirrorEffect (h : Hcmd) (cyc : DWord) (s : State) : State :=
  match h.opcode.toNat with
  | 0x06 => s.mirrorMode (targetMode h) cyc
  | 0x07 => { s with dpx2 := { s.dpx2 with isProof := h.param0.getLsbD 0 } }
  | 0x0B => match (h.payload.headD 0).toNat % 4 with
      | 0 => s.mirrorAct (s.switchAct h)
      | 1 => if s.boot.switched then s.confirm else s
      | _ => s.cancelAct
  | 0x0C => s.mirrorAct (s.returnAct h)
  | 0x42 => s.mirrorWrites h cyc
  | 0x43 => (opForceSet.effect h s).s
  | 0x44 => (opForceClear.effect h s).s
  | 0x46 => s.loopWrite h
  | 0x48 => ((if h.target.toNat % 4 = 1 then s.mirrorReturn else s).mirrorChange cyc).updChg fun c => { c with cmd := some h }
  | _ => s

/-- The copy of a ring's window takes an identifier (R246); a record of identifier 0 carries none. -/
def State.mirrorWin (n : Nat) (id hi : DWord) (pend : Bool) (s : State) : State :=
  if id = 0 then s
  else
    let t := { s with hif := { s.hif with wins := s.hif.wins.upd n {} fun w => { w.enter id with high := hi } } }
    { t with dpx2 := { t.dpx2 with pendIds := if pend then t.dpx2.pendIds.put n id else t.dpx2.pendIds.del n } }

/-- The parts of host work joined: nothing until the last one is there. -/
def State.joinHost (r : BRec) (s : State) : List Byte × State :=
  (r.payload.take 96 ++ s.dpx2.hwBuf ++ r.payload.drop 96,
   { s with dpx2 := { s.dpx2 with hwBuf := if r.last then [] else s.dpx2.hwBuf ++ r.payload.drop 96 } })

/-- HOSTWORK (Table 9.16): acknowledged, entered in the window, and its effect applied; never journaled. A module that is no standby
acknowledges it as failed (R240). -/
def State.takeHostwork (r : BRec) (s : State) : State :=
  let (b, s) := s.joinHost r
  let slot := fieldN b 0 1 % 32
  let flags := fieldN b 4 1
  let pend := decide (flags % 2 = 1)
  if !s.receives then s.ackRec r 1
  else if !r.last then s.ackRec r 0
  else
    let t := s.mirrorWin slot (BitVec.ofNat 64 (fieldN b 8 8)) (BitVec.ofNat 64 (fieldN b 16 8)) pend
    let u := if flags / 2 % 2 = 1 ∨ fieldN b 2 2 ≠ 0 then t
      else t.mirrorEffect (entryOf slot (slice b 32 64) (b.drop 96)) (BitVec.ofNat 64 (fieldN b 24 8))
    u.ackRec r 0

/-! Commit records (R244). -/

/-- The entries of a LINES record: offset and line. -/
def lineEntries (b : List Byte) (at_ : Nat) : Nat → List (Nat × List Byte)
  | 0 => []
  | n + 1 => (fieldN b at_ 8, slice b (at_ + 8) 64) :: lineEntries b (at_ + 72) n

/-- INSYNC ends for a record of a program version that this module does not hold (R226, R242). -/
def State.versionUnknown (s : State) : State := s.endInsync 4

/-- The map that converts the state of the partner's configuration into this module's, with the image that names its initial data
(spec/17_firmware_and_configuration.md R457): the newer module converts forward, and the older one, after the exchange of Table
17.8, back (log entry 42). -/
def State.pairMap (s : State) : Option (List Byte × List Byte) :=
  let a := s.boot.act
  let prev := match s.boot.cfgPrev with
    | some n => s.boot.cfgImage n
    | none => []
  let new := match s.boot.actTarget.cfg with
    | some n => s.boot.cfgImage n
    | none => []
  if !s.pairAct || !a.cfg then none
  else if a.done then some (if a.isReturn then (prev, sectionBytes prev [0x28]) else (s.boot.activeCfg, sectionBytes s.boot.activeCfg [0x27]))
  else if 4 ≤ a.step then some (if a.isReturn then (s.boot.activeCfg, sectionBytes s.boot.activeCfg [0x27]) else (new, sectionBytes new [0x28]))
  else none

/-- The record belongs to a program that this module holds, or to one whose state it converts. -/
def State.holdsVersion (s : State) (v : Word) : Bool := decide (v = s.chg.actVer) || s.pairMap.isSome

/-- LINES (Table 9.14): changed lines of a commit in progress. -/
def State.takeLines (r : BRec) (s : State) : State :=
  let b := r.payload
  let es := lineEntries b 16 (fieldN b 2 2)
  if !s.receives then s
  else if !s.holdsVersion r.progVer then s.versionUnknown
  else s.updMir (fieldN b 0 1 % 8) fun m =>
    let m := { m with crcBuf := m.crcBuf ++ b, lines := m.lines + 1 }
    match fieldN b 1 1 with
    | 0 => { m with inactive := m.inactive ++ es }
    | 1 => { m with inData := m.inData ++ es }
    | _ => { m with inGlob := m.inGlob ++ es }

/-- The lines of a commit written over what was held. -/
def overlay (m : Mem) (ls : List (Nat × List Byte)) : Mem := ls.foldl (fun (x : Mem) e => x.wrN e.1 e.2) m

/-- The class after a complete commit record: its other published buffer takes the lines and becomes the image, and its data and globals
take theirs (R244). In the bulk of an initial sync the lines are all that exists, so they replace what was held (R248). -/
def ClsMem.commitLines (m : ClsMem) (fresh : Bool) (x : MirCls) : ClsMem :=
  let img := overlay (if fresh then [] else m.image) x.inactive
  let g := overlay (if fresh then [] else m.globPub) x.inGlob
  { m with pub0 := if m.idx then img else m.pub0, pub1 := if m.idx then m.pub1 else img, idx := !m.idx
           data := overlay (if fresh then [] else m.data) x.inData, glob := g, globPub := g }

/-- The end mark is valid (Table 9.17): the number of LINES records and the CRC over their payloads. -/
def MirCls.closes (x : MirCls) (b : List Byte) : Bool :=
  decide (fieldN b 20 4 = x.lines) && decide (fieldN b 4 4 = (crc32 x.crcBuf).toNat)

/-- A commit record ends: the buffers that received it are empty again. -/
def MirCls.clearIn (x : MirCls) : MirCls := { x with inactive := [], inData := [], inGlob := [], crcBuf := [], lines := 0 }

/-- A complete commit of class `c` is taken over: the host writes of its cycle (spec/05_cyclic_execution.md R146), then what the cycle
changed. -/
def State.takeCommit (c : Nat) (r : BRec) (s : State) : State :=
  let x := s.mirCls c
  let cyc : DWord := BitVec.ofNat 64 (fieldN r.payload 8 8)
  let fresh := r.sync && !x.bulk
  let t := match s.pairMap with
    | some (img, map) =>
      let o := x.old.commitLines fresh x
      let new := o.mapped (Config.mapInit img) (parseRuns map) c (s.prog.init.look c [])
      (s.updMir c fun y => { y with old := o }).updMem c fun m =>
        { m with pub0 := new.pub0, pub1 := new.pub1, idx := new.idx, data := new.data, glob := new.glob, globPub := new.globPub }
    | none =>
      let due := x.wr.filter fun (e : DWord × Elem) => decide (e.1.toNat ≤ cyc.toNat)
      (due.foldl (fun (v : State) (e : DWord × Elem) => v.pokeElem e.2) s).updMem c fun m => m.commitLines fresh x
  let t := t.updMem c fun m => { m with lastNo := cyc, commitT := BitVec.ofNat 32 (fieldN r.payload 16 4) }
  let u := t.updMir c fun y => { y.clearIn with cyc := cyc, bulk := x.bulk || r.sync, ver := r.progVer, wr := y.wr.filter fun e => decide (cyc.toNat < e.1.toNat) }
  if s.fastest = some c then { u with dpx2 := { u.dpx2 with lastCommitT := BitVec.ofNat 32 (fieldN r.payload 16 4) } } else u

/-- A restart at boot step 2 (spec/02_modes_and_startup.md R60) of the module as `f` leaves it. No command says what it finds: that is a free
value (log entry 111). -/
def State.freshStart (f : State → State) (s : State) : State := (f s).drawObs.2.bootFrom2 State.replay false s.drawObs.1

/-- The restart of a module on its previous selection (spec/17_firmware_and_configuration.md R455). -/
def State.restartPrevious (s : State) : State := s.freshStart fun t => { t with boot := t.boot.previousSelection }

/-- The settings of the proof swap (R267). -/
def State.psInterval (s : State) : Nat := (s.liveReg Reg.dpxPsInterval).toNat

/-- The next proof swap falls due (R267): the interval after the time from which it counts; 0 while disabled. -/
def State.psCount (s : State) : State :=
  { s with dpx2 := { s.dpx2 with psNext := match s.dpx2.psFrom with
      | some t => if s.psInterval = 0 then 0 else BitVec.ofNat 32 (t + s.psInterval)
      | none => 0 } }

/-- A proof swap completes at the full-time second `t` (R267). -/
def State.psRestart (t : Nat) (s : State) : State := { s with dpx2 := { s.dpx2 with psFrom := some t } }.psCount

/-- The old primary of a proof swap: the swap completes at the end of the new primary's window (R267, R268), whose outcome only a
PROOF_FAIL notice tells. -/
def State.proofOpen (s : State) : State :=
  let t := { s with dpx2 := { s.dpx2 with isProof := false, psOpen := s.dpx2.isProof } }
  if s.dpx2.isProof then t.psRestart ((s.tim.ns + (s.liveReg Reg.dpxPsWindow).toNat * 1000000) / 1000000000 % 2 ^ 48) else t

/-- The old primary of an exchange sees the first commit of the new one (R265): RUN as standby, and the command completes, RESULT0
the new epoch and RESULT1 the cycle of the hand-over boundary. The output pause of a pair's switch is that of the exchange, exactly
c_f (spec/17_firmware_and_configuration.md R455). -/
def State.handedOver (s : State) : State :=
  let t := (s.setMode .run 6).asStandby.proofOpen
  let t := { t with dpx := { t.dpx with handover := false }, hif := { t.hif with hold := false } }
  let t := if t.pairAct && decide (t.boot.act.step = 4) then t.updAct fun a => { a with pauseUs := BitVec.ofNat 32 t.cfUs } else t
  let t := t.finishWaiting t.dpx2.xslot St.ok [] t.dpx.eSeen t.dpx2.hBound
  let t := { t with dpx2 := { t.dpx2 with xslot := 31 } }
  if t.pairAct && t.boot.act.done && decide (t.boot.act.step = 5) && decide (t.boot.act.state = 0) then t.restartPrevious else t

/-- COMMIT_END, acknowledged in every case (R240); the first one of the fastest class ends the TAKEOVER of the old primary (R265). -/
def State.takeCommitEnd (r : BRec) (s : State) : State :=
  let c := fieldN r.payload 0 1 % 8
  if !s.receives then s.ackRec r 1
  else if !s.holdsVersion r.progVer then ((s.updMir c MirCls.clearIn).ackRec r 1).versionUnknown
  else if !(s.mirCls c).closes r.payload then (s.updMir c MirCls.clearIn).ackRec r 1
  else
    let t := ((s.takeCommit c r).changeLapsed r.progVer c (BitVec.ofNat 64 (fieldN r.payload 8 8))).ackRec r 0
    if decide (t.sys.mode = .takeover) && decide (t.dpx2.takeFrom = 0) && decide (s.fastest = some c) then t.handedOver else t

/-! Loops (spec/07_loop_engines.md R204). -/

/-- What a loop entry of LOOP_STATE at `o` leaves of its loop. -/
def Loop.mirrored (l : Loop) (b : List Byte) (o : Nat) : Loop :=
  let w (k : Nat) : Word := BitVec.ofNat 32 (fieldN b (o + k) 4)
  let st := w 4
  { l with
    abank := fieldN b (o + 3) 1 % 2 = 1
    man := st.getLsbD 1, fbl := st.getLsbD 2, fblCause := BitVec.ofNat 3 (bits st 3 3), sat := st.getLsbD 6, satHi := st.getLsbD 7
    chkHold := st.getLsbD 8, rearmPend := st.getLsbD 12, statCrease := st, fbCrease := w 12
    out := w 8, lossOut := w 8, fb := w 12, op := { l.op with sp := w 16, mout := w 20 }, creaseT := w 24, presses := w 28
    dyn := (List.range (fieldN b (o + 2) 1)).foldl (fun (d : Tab Word) j => d.put j (w (32 + 4 * j))) l.dyn }

/-- The loop entries of LOOP_STATE from `o` on; `fuel` bounds their number. -/
def State.takeLoopEntries (b : List Byte) : Nat → Nat → State → State
  | 0, _, s => s
  | fuel + 1, o, s =>
    if b.length < o + 32 then s
    else (State.takeLoopEntries b fuel (o + 32 + 4 * fieldN b (o + 2) 1)
      (if s.loopSet (fieldN b o 2) then s.updLoop (fieldN b o 2) fun l => l.mirrored b o else s))

/-- The record belongs to the program that a recorded change of this module leads to: no loop is part of a change (R213), so it is used
without waiting for the exchange. -/
def State.awaitsVersion (s : State) (v : Word) : Bool := decide (s.chg.state = 3) && decide (v = s.chg.newVer)

/-- LOOP_STATE. -/
def State.takeLoopState (r : BRec) (s : State) : State :=
  if !s.receives then s
  else if !s.holdsVersion r.progVer && !s.awaitsVersion r.progVer then s.versionUnknown
  else s.takeLoopEntries r.payload r.payload.length 0

/-- LOOP_GROUP. -/
def State.takeLoopGroup (r : BRec) (s : State) : State :=
  let b := r.payload
  let w (k : Nat) : Word := BitVec.ofNat 32 (fieldN b k 4)
  if !s.receives then s
  else if !s.holdsVersion r.progVer && !s.awaitsVersion r.progVer then s.versionUnknown
  else if s.loopSet (fieldN b 0 2) then
    s.updLoop (fieldN b 0 2) fun l =>
      { l with op := { l.op with safe := w 4, sattime := w 8, frztime := w 12, action := w 16 }, presses := w 20 }
  else s

/-! Tally headers (R243; spec/15_tally_recorder.md R423). -/

/-- The headers of a record, each of 16 bytes. -/
def headersOf (b : List Byte) : Nat → Nat → List (List Byte)
  | 0, _ => []
  | n + 1, o => slice b o 16 :: headersOf b n (o + 16)

/-- TALLY_HDRS: the last 65,536 headers are kept, each once. -/
def State.takeHdrs (r : BRec) (s : State) : State :=
  let new := headersOf r.payload (fieldN r.payload 0 2) 8
  let l := (s.tly.partner.filter fun h => !(new.contains h)) ++ new
  if s.cfg.partner then { s with tly := { s.tly with partner := l.drop (l.length - 65536) } } else s

/-- Headers sent in records of at most 4,095, which with the count fill the 65,536 bytes of a record (R238; log entry 116). -/
def State.sendHdrs (sync : Bool) (hs : List (List Byte)) (s : State) : State :=
  let n := (hs.length + 4094) / 4095
  (List.range n).foldl (fun (u : State) i =>
    let p := (hs.drop (4095 * i)).take 4095
    u.sendPart 8 sync false (decide (i + 1 = n)) (le 2 p.length ++ le 6 0 ++ p.flatten)) s

/-- TALLY_HDRS_SEND: the batch of headers sealed since the last one; without an in-sync partner they wait for initial sync. -/
def execTallyHdrsSend (s : State) : Host.Outcome State Fault Refusal :=
  if s.running && s.insync && s.sys.primary then
    done s (({ s with tly := { s.tly with unsent := [] } }.sendHdrs false s.tly.unsent).backlogOver)
  else .next s

/-! Versions (R243, R247). -/

/-- A content that this module holds goes to the partner. -/
def State.sendIf (kind : Nat) (b : List Byte) (s : State) : State := if b.isEmpty then s else s.sendImage kind b

/-- A stored program as IMAGE records carry it: its length, its bytes, and the package with both its maps (spec/08_online_change.md R217,
R228; log entry 120). -/
def progContent (p maps : List Byte) : List Byte := le 4 p.length ++ p ++ maps

/-- The previous configuration image. -/
def Boot.previousCfg (b : Boot) : List Byte := match b.cfgPrev with
  | some n => b.cfgImage n
  | none => []

/-- The versions check on the primary (Table 9.3, R271): firmware, configurations or programs go to the standby, or
synchronisation is refused. -/
def State.judgeVersions (s : State) : State :=
  if !s.fwMatches then s.sendImage 1 (s.boot.bankOf s.boot.bank).bytes
  else if !s.cfgMatches then
    if s.theirs 4 < s.boot.actVer.toNat then (s.sendIf 2 s.boot.previousCfg).sendImage 2 s.boot.activeCfg
    else s.setSync .refused 2 4
  else if !s.progMatches then
    (if s.chg.previous.isEmpty then s else s.sendImage 3 (progContent s.chg.previous s.chg.prevMaps)).sendImage 3
      (progContent s.chg.active s.chg.actMaps)
  else s

/-! What an initial sync sends (R248). -/

/-- The lines of a memory that hold something. -/
def memLines (m : Mem) : List Nat :=
  m.foldr (fun (e : Host.Cell) (l : List Nat) => match l with
    | [] => [e.1 / 64 * 64]
    | a :: _ => if a = e.1 / 64 * 64 then l else e.1 / 64 * 64 :: l) []

/-- The payloads of the LINES records for the lines `ls` of an area, at most 512 to a record (Table 9.14). -/
def linesPayloads (c area : Nat) (cyc : DWord) (m : Mem) (ls : List Nat) : List (List Byte) :=
  (List.range ((ls.length + 511) / 512)).map fun i =>
    let p := (ls.drop (512 * i)).take 512
    [BitVec.ofNat 8 c, BitVec.ofNat 8 area] ++ le 2 p.length ++ le 4 0 ++ le 8 cyc.toNat ++ p.flatMap fun a => le 8 a ++ m.rdN a 64

/-- The LINES records of an area; the last one of a split list is marked (Table 9.13; log entry 116). -/
def State.sendLines (sync : Bool) (ps : List (List Byte)) (s : State) : State :=
  ((List.range ps.length).zip ps).foldl (fun (u : State) p => u.sendPart 4 sync true (decide (p.1 + 1 = ps.length)) p.2) s

/-- The class state that a commit holds (R244): while a cycle is active, that with which it started. -/
def State.committed (s : State) (c : Nat) : Mem := if (s.cls c).active then (s.cmem c).comData else (s.cmem c).data

/-- A commit of class `c` goes to the partner: its lines, then the end mark (Tables 9.14, 9.17). -/
def State.sendCommit (sync : Bool) (c : Nat) (img data glob : List Nat) (s : State) : State :=
  let m := s.cmem c
  let cyc : DWord := if m.commits = 0 then 0 else m.lastNo
  let p0 := linesPayloads c 0 cyc m.image img
  let p1 := linesPayloads c 1 cyc (s.committed c) data
  let p2 := linesPayloads c 2 cyc m.globPub glob
  let ps := p0 ++ p1 ++ p2
  let t := ((s.sendLines sync p0).sendLines sync p1).sendLines sync p2
  let t := t.sendRec 5 sync true ([BitVec.ofNat 8 c, 0, 0, 0] ++ le 4 (crc32 ps.flatten).toNat ++ le 8 cyc.toNat ++
    le 4 m.commitT.toNat ++ le 4 ps.length ++ le 4 (s.cls c).exec.toNat ++ le 4 0)
  if s.fastest = some c then { t with dpx2 := { t.dpx2 with ceRseq := t.dpx2.rseqTx, ceAck := false } } else t

/-- All that a class has to mirror (Table 9.2). -/
def State.sendClass (c : Nat) (s : State) : State :=
  let m := s.cmem c
  let mir := (s.ccfg c).mirror
  s.sendCommit true c (memLines m.image) (if mir then memLines (s.committed c) else []) (if mir then memLines m.globPub else [])

/-- The changed lines of one area since the last commit. -/
def ClsMem.changed (m : ClsMem) (a : Nat) : List Nat := (m.dirty.filter fun e => e.1 == a).map fun e => 64 * e.2

/-- The lines of class `c` that are still marked (R248); a cycle in progress keeps its marks for its commit. -/
def State.sendRest (c : Nat) (s : State) : State :=
  let m := s.cmem c
  let mir := (s.ccfg c).mirror
  s.sendCommit true c (m.changed 1) (if mir then m.changed 0 else []) (if mir then m.changed 2 else [])

/-- All of a loop's mirrored state. -/
def State.sendLoop (n : Nat) (s : State) : State :=
  let l := s.loop n
  (s.sendRec 6 true true (s.loopEntry n)).sendRec 7 true true
    (le 2 n ++ [0, 0] ++ le 4 l.op.safe.toNat ++ le 4 l.op.sattime.toNat ++ le 4 l.op.frztime.toNat ++ le 4 l.op.action.toNat ++
      le 4 l.presses.toNat)

/-- The window and H of a ring (Table 9.14, WINDOW), in parts of at most 8,190 identifiers, each with its own count (log entry 116). -/
def State.sendWindow (n : Nat) (w : Win) (s : State) : State :=
  let k := max 1 ((w.ids.length + 8189) / 8190)
  (List.range k).foldl (fun (u : State) i =>
    let p := (w.ids.drop (8190 * i)).take 8190
    u.sendPart 10 true false (decide (i + 1 = k))
      ([BitVec.ofNat 8 n, 0, 0, 0] ++ le 4 p.length ++ le 8 w.high.toNat ++ p.flatMap fun (x : DWord) => le 8 x.toNat)) s

/-- The classes that are mirrored. -/
def State.syncClasses (s : State) : List Nat := (s.cfg.cls.filter fun c => c.2.en).map Prod.fst

/-- The bytes that records took on the link. -/
def linkBytes (os : List Out) : Nat := (os.map fun o => match o with
  | .baste r => r.payload.length
  | _ => 0).sum

/-- DPX_SYNCPROG counts what has left since the outbox had length `n`. -/
def State.countSync (n : Nat) (s : State) : State :=
  { s with dpx2 := { s.dpx2 with syncMib := s.dpx2.syncMib + BitVec.ofNat 12 (linkBytes (s.outbox.drop n) / 1048576) } }

/-- The bulk of an initial sync (R248): all data of Table 9.2 that exists, in one step (log entry 45). The lines that change from now on
stay marked. -/
def State.sendBulk (s : State) : State :=
  if s.dpx2.bulkSent then s
  else
    let cs := s.syncClasses
    let t := cs.foldl (fun (u : State) c => u.sendClass c) s
    let t := s.cfg.loops.foldl (fun (u : State) c => u.sendLoop c.1) t
    let t := ({ t with tly := { t.tly with unsent := [] } }).sendHdrs true ((s.tly.sorted false ++ s.tly.sorted true).map TRec.header)
    let t := cs.foldl (fun (u : State) c => if (u.cls c).active then u else u.updMem c fun m => { m with dirty := [] }) t
    { t.countSync s.outbox.length with dpx2 := { (t.countSync s.outbox.length).dpx2 with bulkSent := true } }

/-- VERSIONS of a pair that synchronises: the primary judges them, and a standby with the newer configuration is refused. -/
def State.weighVersions (s : State) : State :=
  if s.sys.primary then (if s.versOk then s.sendBulk else s.judgeVersions)
  else if s.fwMatches && !s.cfgMatches && decide (s.theirs 4 < s.boot.actVer.toNat) then s.setSync .refused 2 4
  else s

/-- VERSIONS: kept, and judged while the pair synchronises; a pair refused for its firmware or its configurations synchronises once they
fit (R247). -/
def State.takeVersions (r : BRec) (s : State) : State :=
  let t := { s with dpx2 := { s.dpx2 with vers := r.payload } }
  if !s.cfg.partner then t
  else if decide (t.dpx.state = .syncing) then t.weighVersions
  else if decide (t.dpx.state = .refused) && decide (t.dpx.reason = 1 ∨ t.dpx.reason = 2) && t.versOk then t.setSync .syncing 0 0
  else t

/-! Windows (R248). -/

/-- WINDOW: the window and H of a ring; the parts of a split one are joined (log entry 116). -/
def State.takeWindow (r : BRec) (s : State) : State :=
  let b := r.payload
  let k := fieldN b 0 1 % 32
  let new := (List.range (fieldN b 4 4)).map fun i => (BitVec.ofNat 64 (fieldN b (16 + 8 * i) 8) : DWord)
  let w : Win := { high := BitVec.ofNat 64 (fieldN b 8 8), ids := if s.dpx2.winOpen then (s.win k).ids ++ new else new }
  if s.receives then
    { s with hif := { s.hif with wins := s.hif.wins.put k w }, dpx2 := { s.dpx2 with winOpen := !r.last } }
  else s

/-! Images (R247, R271; spec/08_online_change.md R219, R228, spec/17_firmware_and_configuration.md R452). -/

/-- A restart at boot step 5 (R247, spec/08_online_change.md R228): what the steps before it found stands, and self-test runs again
(spec/02_modes_and_startup.md R60); its outcome is a free value (log entry 111). -/
def State.restart5 (s : State) : State :=
  let (obs, s) := s.drawObs
  let k := s.bootOutputs.kept
  let k := { k with
    sys := { k.sys with mode := .boot, opNs := s.sys.opNs, from_ := s.sys.mode }
    tly := s.tly, mm := s.mm
    hif := { k.hif with crs := false }
    boot := { k.boot with ks := s.boot.ks, replayDue := true } }
  let t := (((k.log 0x0001 2 (k.modeDetail s.sys.mode 7)).step3).step5).step6
  ({ t with boot := { t.boot with step := 7 } }).bootExit State.replay (!obs.selfTest) []

/-- A change package from the primary is checked and written to slot memory (spec/08_online_change.md R219). -/
def State.takePackage (b : List Byte) (rseq : DWord) (s : State) : State :=
  match s.checkPkg b with
  | .no st r => s.notice 9 (if st = St.refused then r.toNat else st.toNat) s.lastCommit rseq
  | .go =>
    let p := parsePkg b
    let old := s.chg.pkgDone && decide (s.chg.package = b)
    let t := s.updChg fun c => { c with pkgDone := old, cmd := none, state := if old then 2 else 1, moves := 0, isReturn := false, slot := 31, recorded := false,
                                        awaitCls := [], package := b, stored := old, classes := p.classes, newVer := p.newVer,
                                        newDig := p.digest, pkgRseq := rseq }
    if old then t.notice 8 0 t.lastCommit rseq else t

/-- A staged image that the primary sends before a SWITCH is written and verified (spec/17_firmware_and_configuration.md R452). -/
def State.takeStaged (a : Area) (b : List Byte) (rseq : DWord) (s : State) : State :=
  let t := s.updBoot fun x => (x.write a true b []).setStg a { (x.write a true b []).stg a with writing := false, state := 3, len := b.length }
  let v := t.boot.verifyStaged a true
  let u := t.updBoot fun x => x.noteVerify a v
  if v = .ok then u.notice 8 0 u.lastCommit rseq else u.notice 9 v.code u.lastCommit rseq

/-- The partner's firmware is written to the inactive bank, and the module restarts on it (R271); an image that does not verify leaves
synchronisation refused with reason 1 (spec/17_firmware_and_configuration.md R457). -/
def State.takeFirmware (b : List Byte) (rseq : DWord) (s : State) : State :=
  let n := !s.boot.bank
  let x := s.boot.setBank n { bytes := b }
  if x.bankVerifies n then s.freshStart fun t => { t with boot := { x with sel := n } }
  else (s.notice 9 0x64 s.lastCommit rseq).setSync .refused 1 4

/-- A configuration of the partner (R247): its active one is selected, and the module restarts at boot step 5; the previous one is kept. -/
def State.takeConfig (b : List Byte) (s : State) : State :=
  let v := (parseHdr b).version
  let n := s.boot.freeCfg
  let x := s.boot.setBytes .cfg n b
  if v.toNat = s.theirs 4 then
    ({ s with boot := { x with cfgAct := some n, prevVer := BitVec.ofNat 32 (s.theirs 8), actVer := v,
                               high := if x.high.toNat < v.toNat then v else x.high } }).restart5
  else { s with boot := { x with cfgPrev := some n } }

/-- A program of the partner (spec/08_online_change.md R228): the previous one is kept, and with the active one the module restarts at
boot step 5. A partner without a previous program leaves none here, and the next CHANGE must exceed both versions (R230). -/
def State.takeProgram (b : List Byte) (s : State) : State :=
  let p := slice b 4 (fieldN b 0 4)
  let maps := b.drop (4 + fieldN b 0 4)
  let v := Config.progVersion p
  if v.toNat = s.theirs 12 then
    (s.updChg fun c =>
      let c := if s.theirs 16 = 0 then { c with previous := [], prevVer := 0, prevDig := [], prevMaps := [] } else c
      { c with active := p, actVer := v, actDig := Config.sha256 p, actMaps := maps
               high := if v.toNat < c.prevVer.toNat then c.prevVer else v }).restart5
  else s.updChg fun c => { c with previous := p, prevVer := v, prevDig := Config.sha256 p, prevMaps := maps }

/-- The versions of the primary may be taken over (R247): the standby synchronises in RUN, from which a standby may restart (R50,
spec/04_host_rings.md R111). -/
def State.mayRenew (s : State) : Bool := decide (s.dpx.state = .syncing) && decide (s.sys.mode = .run) && s.sys.trans.isNone

/-- A whole content has been received. -/
def State.takeContent (kind : Nat) (b : List Byte) (rseq : DWord) (s : State) : State :=
  match kind with
  | 1 => if s.insync then s.takeStaged .fw b rseq else if s.mayRenew then s.takeFirmware b rseq else s
  | 2 => if s.insync then s.takeStaged .cfg b rseq else if s.mayRenew then s.takeConfig b else s
  | 3 => if s.mayRenew then s.takeProgram b else s
  | _ => s.takePackage b rseq

/-- IMAGE: a part is acknowledged and joined to its content, which is used once complete. -/
def State.takeImage (r : BRec) (s : State) : State :=
  let b := r.payload
  let at_ := fieldN b 8 8
  let old := if at_ = 0 then [] else s.dpx2.imgBuf
  if !s.receives then s.ackRec r 1
  else
    let t := s.ackRec r 0
    let buf := old.take at_ ++ b.drop 16
    let u := { t with dpx2 := { t.dpx2 with imgBuf := buf, imgKind := fieldN b 0 1, imgLen := fieldN b 4 4 } }
    if r.last then ({ u with dpx2 := { u.dpx2 with imgBuf := [] } }).takeContent (fieldN b 0 1) (buf.take (fieldN b 4 4)) r.rseq else u

/-! Notices (Table 9.18). -/

/-- A pair that comes in sync before any proof swap counts its interval from then (log entry 43). -/
def State.psBegin (s : State) : State := if s.dpx2.psFrom = none then s.psRestart s.secs else s

/-- The end of a failed proof swap on this module (R269): error record, PROOF_FAIL, and the hand-back at once, but to a partner that has
failed one itself. -/
def State.proofFailed (check ring : Nat) (s : State) : State :=
  let t := { s with
    dpx := { s.dpx with proofFail := true }
    dpx2 := { s.dpx2 with psResult := 2, psCheck := BitVec.ofNat 4 check, psRing := BitVec.ofNat 4 ring, psCnt := s.dpx2.psCnt + 1,
                          proofWin := false, xPend := !s.dpx.partnerPf, isProof := false, xslot := 31 } }
  (((t.log 0x0504 4 [2, BitVec.ofNat 8 check, BitVec.ofNat 8 ring]).psRestart s.secs).notice 6 0 s.lastCommit 0).tryHandover

/-- RING_ABSENT (R253, R268): in the proof window it fails check 1; otherwise the primary hands over, at most once per 60 s for a
ring. A report that finds an exchange, a PROGRAM_LOAD or an ACTIVATE in progress waits for the first boundary after it. -/
def State.ringAbsent (mask : Nat) (s : State) : State :=
  let new := maskOf 4 fun r => decide (mask / 2 ^ r % 2 = 1) && (match s.dpx2.absentT.find r with
    | some t => decide (t + 60000000000 ≤ s.sys.opNs)
    | none => true)
  if !s.sys.primary || !s.insync then s
  else if s.dpx2.proofWin then s.proofFailed 1 mask
  else ({ s with dpx2 := { s.dpx2 with absPend := s.dpx2.absPend ||| new.setWidth 4 } }).tryAbsent

/-- HANDOVER and HANDBACK (R265): the hand-over boundary is named. A module that failed a proof swap refuses the role (R269). -/
def State.takeHandover (back : Bool) (r : BRec) (s : State) : State :=
  if s.insync && !s.sys.primary && decide (s.sys.mode = .run) then
    if s.dpx.proofFail then s.ackRec r 1
    else
      let t := s.ackRec r 0
      let u := { t with dpx := { t.dpx with handover := true }
                        dpx2 := { t.dpx2 with hBound := BitVec.ofNat 64 (fieldN r.payload 8 8), isProof := t.dpx2.isProof && !back } }
      if back && u.pairAct && decide (u.boot.act.step = 4) then u.updAct fun a => { a with step := 7 } else u
  else s.ackRec r 1

/-- The standby refuses the hand-over: the exchange is abandoned with the reason of R264. -/
def State.handoverRefused (s : State) : State :=
  let t := { s with dpx := { s.dpx with handover := false, partnerPf := true }, hif := { s.hif with hold := false }
                    dpx2 := { s.dpx2 with isProof := false, xslot := 31 } }
  t.finishWaiting s.dpx2.xslot St.refused [] 0x41 0

/-- PROOF_FAIL of the partner (R269): it is kept. Where it ends the proof swap in which this module gave its role away, DPX_PS_LAST shows
the outcome; of the failed check it knows what it reported itself, and any other is a free value (log entry 5). -/
def State.partnerProofFail (s : State) : State :=
  if s.dpx2.psOpen then
    let (w, t) := if s.dpx2.absRep ≠ 0 then ((1 : DWord), s) else s.draw
    ({ t with
      dpx := { t.dpx with partnerPf := true }
      dpx2 := { t.dpx2 with psResult := 2, psCheck := w.setWidth 4, psRing := s.dpx2.absRep, psCnt := t.dpx2.psCnt + 1,
                            psOpen := false } }).psRestart s.secs
  else { s with dpx := { s.dpx with partnerPf := true } }

/-- Both modules are in sync (R248). A module that has failed its proof swap tells a partner that may have restarted since (R264). -/
def State.enterSync (s : State) : State :=
  let t := s.setSync .insync 0 7
  let u := { t with dpx2 := { t.dpx2 with syncDone := t.dpx2.syncDone + 1, abandRow := 0, syncMib := 0, failNote := false, absRep := 0,
                                          bulkSent := false }
                    mir := t.mir.mapV fun x => { x with bulk := false }
                    hif := { t.hif with hold := false } }.psBegin
  if u.dpx.proofFail then u.notice 6 0 u.lastCommit 0 else u

/-- The activation of Table 17.8 after a synchronisation: the old primary that has switched completes the command (step 7); the
primary whose standby has switched goes on to the exchange (steps 3 and 4); the new primary has finished. -/
def State.actInSync (s : State) : State :=
  let a := s.boot.act
  if !s.pairAct then s
  else if !s.sys.primary then (if a.done && decide (a.step = 6) then s.completeAct St.ok 0 else s)
  else if a.done then (if a.state = 5 then s.completeAct St.ok 0 else s)
  else if a.step < 3 then ((s.updAct fun x => { x with step := 3, state := 3 }).actRec).askExchange false 31
  else s

/-- CUT_IN (R248, R249): acknowledged; the standby is in sync and discards its own journal, but for orphans. -/
def State.takeCutIn (r : BRec) (s : State) : State :=
  let t := s.ackRec r 0
  if s.receives && decide (s.dpx.state = .syncing) && decide (s.sys.mode = .run) then
    ({ t with hif := { t.hif with journal := t.hif.journal.filter fun j => j.orphan } }.enterSync).actInSync
  else t

/-- READY (spec/08_online_change.md R219, spec/17_firmware_and_configuration.md R452): the standby holds what the command needs. -/
def State.takeReady (r : BRec) (s : State) : State :=
  let t := s.ackRec r 0
  let ref : DWord := BitVec.ofNat 64 (fieldN r.payload 16 8)
  if !s.sys.primary then t
  else if decide (s.chg.state = 1 ∨ s.chg.state = 2) && !s.chg.recorded && decide (ref = s.chg.pkgRseq) then
    (t.updChg fun c => { c with peerReady := true }).recordChange t.changeOp
  else if s.boot.act.awaitReady && decide (ref = s.boot.act.pkgRseq) then
    (t.updAct fun a => { a with awaitReady := false }).recordPrepared opSwitch s.boot.act.slot
  else t

/-- CHECK_FAILED: the command waiting for the standby is refused; a module that could not take the primary's firmware stays refused. -/
def State.takeCheckFailed (s : State) : State :=
  if !s.sys.primary then s
  else if decide (s.chg.state = 1 ∨ s.chg.state = 2) && !s.chg.recorded then s.refuseChange
  else if s.boot.act.awaitReady then (s.updAct fun a => { a with awaitReady := false, reason := 0x70 }).refuseRecorded opSwitch s.boot.act.slot 0x70
  else if decide (s.dpx.state = .syncing) then s.setSync .refused 1 4
  else s

/-- A failure notice (R252). -/
def State.takeFailure (s : State) : State :=
  ({ s with dpx2 := { s.dpx2 with failNote := true } }).decideTakeover

/-- A halt notice (spec/05_cyclic_execution.md R137): FAULT-HALT without takeover. -/
def State.takeHalt (r : BRec) (s : State) : State :=
  if s.receives && s.alive && decide (s.sys.mode ≠ .boot) && decide (s.sys.mode ≠ .faultHalt) then
    s.haltNotice (s.fastest.getD 0) 3 (BitVec.ofNat 64 (fieldN r.payload 8 8))
  else s

/-- A NOTICE by its KIND. -/
def State.takeNotice (r : BRec) (s : State) : State :=
  match fieldN r.payload 0 1 with
  | 1 => s.takeFailure
  | 2 => s.takeHalt r
  | 3 => s.takeHandover false r
  | 4 => s.takeHandover true r
  | 5 => s.ringAbsent (fieldN r.payload 1 1)
  | 6 => s.partnerProofFail
  | 7 => s.takeCutIn r
  | 8 => s.takeReady r
  | 9 => s.takeCheckFailed
  | _ => s

/-! Acknowledgements. -/

/-- ACK (R240), with result 0 for accepted: of host work, of the last commit of the fastest class, of the cut-in notice. -/
def State.takeAck (r : BRec) (s : State) : State :=
  let n : DWord := BitVec.ofNat 64 (fieldN r.payload 0 8)
  let good := decide (fieldN r.payload 9 1 = 0)
  match fieldN r.payload 8 1 with
  | 3 => if !good then s else (match s.awaiting n with
    | some k => s.ackHost k
    | none => match s.lostOf n with
      | some i => s.endLost i
      | none => { s with dpx2 := { s.dpx2 with hwOut := s.dpx2.hwOut.filter fun x => x != n } })
  | 5 => if n = s.dpx2.ceRseq ∧ good = true then
      (({ s with dpx2 := { s.dpx2 with ceAck := true } }).tryHandover).tryAbsent else s
  | 0x0B => if !good then (if n = s.dpx2.hoRseq ∧ s.dpx.handover = true ∧ s.sys.primary = true then s.handoverRefused else s)
    else if n = s.dpx2.cutRseq ∧ s.dpx.state = .syncing ∧ s.sys.primary = true then (s.enterSync).actInSync else s
  | _ => s

/-! Order of arrival (R238). -/

/-- A record is used by its TYPE. -/
def State.useRec (r : BRec) (s : State) : State :=
  match r.type with
  | 2 => s.takeAck r
  | 3 => s.takeHostwork r
  | 4 => (s.meetVersion r.progVer (fieldN r.payload 0 1 % 8) (BitVec.ofNat 64 (fieldN r.payload 8 8))).takeLines r
  | 5 => (s.meetVersion r.progVer (fieldN r.payload 0 1 % 8) (BitVec.ofNat 64 (fieldN r.payload 8 8))).takeCommitEnd r
  | 6 => s.takeLoopState r
  | 7 => s.takeLoopGroup r
  | 8 => s.takeHdrs r
  | 9 => s.takeVersions r
  | 10 => s.takeWindow r
  | 11 => s.takeNotice r
  | 12 => s.takeImage r
  | _ => s

/-- A record used in its turn. -/
def State.nextRec (r : BRec) (s : State) : State := ({ s with dpx2 := { s.dpx2 with rseqRx := r.rseq } }).useRec r

/-- The waiting records whose turn has come; `fuel` bounds their number. -/
def State.drainRecs : Nat → State → State
  | 0, s => s
  | fuel + 1, s => match s.dpx2.waitRec.find? fun r => r.rseq == s.dpx2.rseqRx + 1 with
    | none => s
    | some r => State.drainRecs fuel
        (({ s with dpx2 := { s.dpx2 with waitRec := s.dpx2.waitRec.filter fun x => x.rseq != r.rseq } }).nextRec r)

/-- A record arrives (R235, R238): one that fails a check counts with its lane's CRC errors; the first valid copy of each RSEQ is kept,
and records are used in RSEQ order, from the first that arrives after the lanes were down (log entry 44). -/
def State.takeRec (r : BRec) (s : State) : State :=
  if !r.crcOk || !s.fmtOk r.fmt || !(decide (1 ≤ r.type) && decide (r.type ≤ 12)) then s.crcError r.lane
  else if s.dpx2.rseqRx = 0 ∨ r.rseq = s.dpx2.rseqRx + 1 then
    let t := s.nextRec r
    t.drainRecs t.dpx2.waitRec.length
  else if s.dpx2.rseqRx < r.rseq then
    if s.dpx2.waitRec.any fun x => x.rseq == r.rseq then s
    else { s with dpx2 := { s.dpx2 with waitRec := s.dpx2.waitRec ++ [r] } }
  else s

/-- A record of type `type` arrives at a module whose lanes work; a TYPE that is not in Table 9.14 stays as it is (R238). -/
def State.recIn (type : Nat) (r : BRec) (s : State) : Host.Outcome State Fault Refusal :=
  if s.running && s.lanesOn then done s (s.takeRec { r with type := if r.type ≤ 12 then type else r.type }) else .next s

/-- A NOTICE of a kind arrives. -/
def State.noticeIn (kind : Nat) (r : BRec) (s : State) : Host.Outcome State Fault Refusal :=
  s.recIn 11 { r with payload := BitVec.ofNat 8 kind :: r.payload.drop 1 }

/-- The lowest RSEQ of a list of records. -/
def lowestRseq : List BRec → Option DWord
  | [] => none
  | r :: rs => match lowestRseq rs with
    | none => some r.rseq
    | some m => some (if r.rseq < m then r.rseq else m)

/-- RSEQ_GAP_TIMEOUT (R238): INSYNC ends; the records that waited are used in their order (log entry 44). -/
def State.gapOver (s : State) : State :=
  match lowestRseq s.dpx2.waitRec with
  | none => s
  | some m =>
    let t := s.endInsync 9
    ({ t with dpx2 := { t.dpx2 with rseqRx := m - 1 } }).drainRecs s.dpx2.waitRec.length

/-- RSEQ_GAP_TIMEOUT. -/
def execRseqGapTimeout (s : State) : Host.Outcome State Fault Refusal :=
  if s.running && !s.dpx2.waitRec.isEmpty then done s s.gapOver else .next s

/-- ACK. -/
def execAck (r : BRec) (s : State) : Host.Outcome State Fault Refusal := s.recIn 2 r

/-- HOSTWORK. -/
def execHostwork (r : BRec) (s : State) : Host.Outcome State Fault Refusal := s.recIn 3 r

/-- LINES. -/
def execLines (r : BRec) (s : State) : Host.Outcome State Fault Refusal := s.recIn 4 r

/-- COMMIT_END. -/
def execCommitEnd (r : BRec) (s : State) : Host.Outcome State Fault Refusal := s.recIn 5 r

/-- LOOP_STATE. -/
def execLoopState (r : BRec) (s : State) : Host.Outcome State Fault Refusal := s.recIn 6 r

/-- LOOP_GROUP. -/
def execLoopGroup (r : BRec) (s : State) : Host.Outcome State Fault Refusal := s.recIn 7 r

/-- TALLY_HDRS. -/
def execTallyHdrs (r : BRec) (s : State) : Host.Outcome State Fault Refusal := s.recIn 8 r

/-- VERSIONS. -/
def execVersions (r : BRec) (s : State) : Host.Outcome State Fault Refusal := s.recIn 9 r

/-- WINDOW. -/
def execWindow (r : BRec) (s : State) : Host.Outcome State Fault Refusal := s.recIn 10 r

/-- IMAGE. -/
def execImage (r : BRec) (s : State) : Host.Outcome State Fault Refusal := s.recIn 12 r

/-- NOTICE_FAILURE. -/
def execNoticeFailure (r : BRec) (s : State) : Host.Outcome State Fault Refusal := s.noticeIn 1 r

/-- NOTICE_HALT. -/
def execNoticeHalt (r : BRec) (s : State) : Host.Outcome State Fault Refusal := s.noticeIn 2 r

/-- NOTICE_HANDOVER. -/
def execNoticeHandover (r : BRec) (s : State) : Host.Outcome State Fault Refusal := s.noticeIn 3 r

/-- NOTICE_HANDBACK. -/
def execNoticeHandback (r : BRec) (s : State) : Host.Outcome State Fault Refusal := s.noticeIn 4 r

/-- NOTICE_RING_ABSENT. -/
def execNoticeRingAbsent (r : BRec) (s : State) : Host.Outcome State Fault Refusal := s.noticeIn 5 r

/-- NOTICE_PROOF_FAIL. -/
def execNoticeProofFail (r : BRec) (s : State) : Host.Outcome State Fault Refusal := s.noticeIn 6 r

/-- NOTICE_CUT_IN. -/
def execNoticeCutIn (r : BRec) (s : State) : Host.Outcome State Fault Refusal := s.noticeIn 7 r

/-- NOTICE_READY. -/
def execNoticeReady (r : BRec) (s : State) : Host.Outcome State Fault Refusal := s.noticeIn 8 r

/-- NOTICE_CHECK_FAILED. -/
def execNoticeCheckFailed (r : BRec) (s : State) : Host.Outcome State Fault Refusal := s.noticeIn 9 r

end Sys2Proof.Machine
end

