-- ==== Sys2Proof/Machine/PairSync.lean ====
section
/-! DEFINITION. The pair over time: heartbeats, initial sync, the hand-over boundary and proof swaps (spec/09_duplex_pair.md R239,
R247, R248, R261, R265 to R269). -/

namespace Sys2Proof.Machine

/-! Heartbeats and what they let a module see. -/

/-- A scheduled switch whose standby is not in sync again by AT (spec/17_firmware_and_configuration.md R455): the standby restarts on its
previous selection, and the command completes with reason 0x6D. -/
def State.missedAt (s : State) : State :=
  let a := s.boot.act
  if s.pairAct && decide (a.at_ ≠ 0) && !s.insync && decide (a.at_.toNat ≤ s.secs) && decide (a.step ≤ 3) then
    if s.sys.primary && !a.done then s.completeAct St.refused 0x6D
    else if !s.sys.primary && a.done then s.restartPrevious
    else s
  else s

/-- HEARTBEAT. -/
def execHeartbeat (lane : Bool) (hb : Hb) (s : State) : Host.Outcome State Fault Refusal :=
  if s.running && s.lanesOn then
    done s (s.heartbeatIn State.replay (fun l h t => t.basteTime l h) lane hb).missedAt
  else .next s

/-- ABSENT_WAIT_EXPIRY (R261); under PFAIL the start waits (spec/18_power_electrical_mechanical.md R472; log entry 51). -/
def execAbsentWaitExpiry (s : State) : Host.Outcome State Fault Refusal :=
  if s.running && !s.pwr.pfail && s.boot.listening then done s (s.absentExpired State.replay) else .next s

/-- DPX_CLAIM. -/
def execDpxClaim (val : Word) (s : State) : Host.Outcome State Fault Refusal :=
  if s.reach then done s (s.claimWord State.replay val) else .next s

/-! Initial sync (R247, R248). -/

/-- A sync may start on this module: the partner is there in the other role, a lane is up, and both run. -/
def State.maySync (s : State) : Bool :=
  s.running && s.lanesOn && (s.dpx.up0 || s.dpx.up1) && s.dpx.partnerHb && decide (s.sys.mode = .run) &&
    decide (s.dpx.partnerMode.toNat = Mode.run.code) && (s.dpx.partnerRole != s.sys.primary) &&
    (match s.dpx.state with
     | .noPartner | .waitPeer | .syncing | .linkLost => true
     | _ => false)

/-- A sync begins: nothing of it has been sent or received. -/
def State.beginSync (s : State) : State :=
  let t := s.setSync .syncing 0 0
  { t with dpx2 := { t.dpx2 with bulkSent := false, syncMib := 0 }, mir := t.mir.mapV fun x => { x with bulk := false } }

/-- INITIAL_SYNC_START: STATE is SYNCING, and the versions go to the partner for the check of Table 9.3; a primary that has the
partner's versions already sends the bulk where they pass. -/
def execInitialSyncStart (s : State) : Host.Outcome State Fault Refusal :=
  if s.maySync then
    let t := s.beginSync.sendVersions
    done s (if t.sys.primary && !t.dpx2.vers.isEmpty then t.weighVersions else t)
  else .next s

/-- An element of VAR_WRITE as a payload holds it (spec/05_cyclic_execution.md Table 5.6). -/
def Elem.bytes (e : Elem) : List Byte := le 4 e.handle.toNat ++ le 2 e.off ++ le 2 e.len ++ pad8 e.val

/-- The pending host writes of class `c`, as a host-work record of identifier 0 for its next cycle (R248; log entry 45). -/
def State.sendPending (c : Nat) (s : State) : State :=
  let p := (s.cmem c).pendWr.flatMap Elem.bytes
  if p.isEmpty then s
  else s.sendHostwork true (hostworkBytes .j { opcode := 0x42, target := BitVec.ofNat 16 c, dlen := BitVec.ofNat 32 p.length, payload := p }
    St.ok false 0 ((s.cls c).cycno + 1))

/-- CUT_IN on the primary (R248): fetching is held; what the bulk and the catch-up left, the windows and the pending host writes go over,
then the notice (log entry 45). -/
def State.cutIn (s : State) : State :=
  let cs := s.syncClasses
  let t := { s with hif := { s.hif with hold := true } }
  let t := cs.foldl (fun (u : State) c => u.sendRest c) t
  let t := s.cfg.loops.foldl (fun (u : State) c => u.sendLoop c.1) t
  let t := ({ t with tly := { t.tly with unsent := [] } }).sendHdrs true t.tly.unsent
  let t := s.hif.wins.foldl (fun (u : State) w => u.sendWindow w.1 w.2) t
  let t := cs.foldl (fun (u : State) c => u.sendPending c) t
  let u := (t.countSync s.outbox.length).notice 7 0 t.lastCommit 0
  { u with dpx2 := { u.dpx2 with cutRseq := u.dpx2.rseqTx } }

/-- CUT_IN. -/
def execCutIn (s : State) : Host.Outcome State Fault Refusal :=
  if s.maySync && decide (s.dpx.state = .syncing) && s.sys.primary && s.versOk && s.dpx2.bulkSent then done s s.cutIn else .next s

/-- SYNC_ABANDON (R248): counted on both modules; after three in a row synchronisation is refused (Table 9.9). -/
def State.abandon (s : State) : State :=
  let n := s.dpx2.abandRow + 1
  let t := { s with dpx2 := { s.dpx2 with syncAband := s.dpx2.syncAband + 1, abandRow := n, syncMib := 0,
                                          bulkSent := false }, hif := { s.hif with hold := false } }
  if 3 ≤ n then t.setSync .refused 4 8 else t

/-- SYNC_ABANDON. -/
def execSyncAbandon (s : State) : Host.Outcome State Fault Refusal :=
  if s.running && decide (s.dpx.state = .syncing) then done s s.abandon else .next s

/-! The hand-over boundary (R265). -/

/-- The old primary enters TAKEOVER: it starts no cycle, and cycles still active never commit. -/
def State.handToPartner (s : State) : State :=
  let t := (s.overrunRecs.haltClasses).setMode .takeover 6
  let t := (t.beginTrans .run 6 31).asStandby
  let t := { t with dpx2 := { t.dpx2 with takeFrom := 0, proofWin := false } }
  if t.pairAct && decide (t.boot.act.step = 3) && !t.boot.act.done then t.updAct fun a => { a with step := 4 } else t

/-- The new primary enters TAKEOVER: its epoch, and its classes from the mirrored state. The rings that it had reported absent count as
handed over for now, so that the roles do not swing back (R253). -/
def State.takeOverByCommand (s : State) : State :=
  let t := ((s.setMode .takeover 6).beginTrans .run 6 31).takeEpoch
  let rings := (List.range 4).filter fun r => s.dpx2.absRep.getLsbD r
  ({ t with dpx2 := { t.dpx2 with takeFrom := 2, psOpen := false
                                  absentT := rings.foldl (fun (a : Tab Nat) r => a.put r s.sys.opNs) t.dpx2.absentT } }).startTakeover

/-- HANDOVER_BOUNDARY, on either module. -/
def execHandoverBoundary (s : State) : Host.Outcome State Fault Refusal :=
  if s.running && s.dpx.handover && s.insync && decide (s.sys.mode = .run) then
    done s (if s.sys.primary then s.handToPartner else s.takeOverByCommand)
  else .next s

/-! Proof swaps (R267 to R269). -/

/-- The reason for which a proof swap is deferred (R264, R267); 0 where the mode or a transition forbids it. -/
def Verdict.deferral : Verdict → Option Word
  | .go => none
  | .no st r => some (if st = St.refused then r else 0)

/-- A proof swap that is due starts an exchange, which the standby learns from a host-work record of identifier 0 (log entry 46), or is
deferred by 60 s. -/
def State.proofDue (s : State) : State :=
  match s.checkExchange.deferral with
  | none =>
    ((s.sendUnasked (hostworkBytes .j { opcode := 0x07, param0 := 1 } St.ok false 0 0)).askExchange true 31).tryHandover
  | some r =>
    ({ s with dpx2 := { s.dpx2 with psResult := 3, psCheck := 0, psRing := 0, psNext := s.dpx2.psNext + 60 } }).log 0x0505 2
      [BitVec.ofNat 8 r.toNat]

/-- PROOF_SWAP_DUE. -/
def execProofSwapDue (s : State) : Host.Outcome State Fault Refusal :=
  if s.running && s.sys.primary && decide (s.psInterval ≠ 0) && decide (s.dpx2.psNext ≠ 0) then done s s.proofDue else .next s

/-- Check 3 of Table 9.6 (spec/13_local_field_io.md R365): a configured output of this module has a fault condition. -/
def State.outputsBad (s : State) : Bool :=
  (s.fio.dio.any fun (e : Nat × Dio) => s.dioOut e.1 &&
    (e.2.rberr || e.2.ovl || e.2.shortSup || e.2.therm || e.2.latched || e.2.feedLost)) ||
  (s.fio.aio.any fun (e : Nat × Aio) => s.aioOut e.1 && (e.2.openW || e.2.comply || e.2.chanFault))

/-- Check 2 of Table 9.6: the rings with a station whose echo differed at two consecutive latches. -/
def State.echoRings (s : State) : Nat :=
  (maskOf 4 fun r => s.net.stns.any fun (e : Nat × Stn) => decide (2 ≤ e.2.echoBad) && decide ((s.scfg e.1).ring = r)).toNat

/-- The checks of the proof window that this module sees by itself (Table 9.6). -/
def State.proofJudge (s : State) : State :=
  if !s.dpx2.proofWin then s
  else if s.echoRings ≠ 0 then s.proofFailed 2 s.echoRings
  else if s.outputsBad then s.proofFailed 3 0
  else s

/-- The proof swap passes (R268). -/
def State.proofPassed (s : State) : State :=
  (({ s with dpx2 := { s.dpx2 with psResult := 1, psCheck := 0, psRing := 0, psCnt := s.dpx2.psCnt + 1, proofWin := false } }).log 0x0504 2
    [1, 0, 0]).psRestart s.secs

/-- PROOF_WINDOW_END. -/
def State.windowEnd (s : State) : State :=
  let t := s.proofJudge
  if t.dpx2.proofWin then t.proofPassed else t

/-- PROOF_WINDOW_END. -/
def execProofWindowEnd (s : State) : Host.Outcome State Fault Refusal :=
  if s.running && s.dpx2.proofWin then done s s.windowEnd else .next s

end Sys2Proof.Machine
end

