-- ==== Sys2Proof/Machine/Regs.lean ====
section
/-! DEFINITION. Register writes: access codes, bit aliases, posted writes, the press, votes, parity and the keys of the SYS block
(spec/03_register_conventions.md). -/

namespace Sys2Proof.Machine

/-! Which writes reach a register. -/

/-- The pair of an LSP register. -/
def lspPairOf (o : Nat) : Nat := (o - 0x030100) / 0x80

/-- The offset of an LSP register in its pair's block. -/
def lspPlace (o : Nat) : Nat := if 0x030100 ≤ o ∧ o < 0x040000 then (o - 0x030100) % 0x80 else 0x80

/-- A debug control or a breakpoint of a pair. -/
def debugReg (o : Nat) : Bool := decide (lspPlace o = 0x34) || (decide (0x40 ≤ lspPlace o) && decide (lspPlace o ≤ 0x4C))

/-- The initiator and the mode may write the register at `o` of code `a`; any other write is one to an RO field (spec/06 R176, spec/09
DPX registers, spec/10, spec/11 R303, spec/12 R324, spec/14 R384, spec/16 R437, spec/17 R447). -/
def State.mayWrite (ini : Ini) (o : Nat) (a : Acc) (s : State) : Bool :=
  if o = Reg.dpxCfg then decide (s.sys.mode = .commission)
  else if debugReg o then s.debuggable (lspPairOf o)
  else if o = Reg.netStnSel ∨ o = Reg.safWscSel ∨ o = 0x0A0024 then decide (ini = .host)
  else if o / 0x10000 = 8 then decide (ini = .host) || decide (ini = .hk)
  else if o = 0x0A0020 then (match ini with
    | .app _ => true
    | _ => false)
  else if a = .rwk then decide (ini = .hk)
  else if Reg.bootLdAddrLo ≤ o ∧ o ≤ Reg.bootLdLen then s.boot.held
  else if Reg.memInjAddrLo ≤ o ∧ o ≤ Reg.memInjCtrl then decide (s.sys.mode = .test)
  else if o = 0x07011C ∨ o = 0x070120 then s.hostMeasures 0
  else if o = 0x07015C ∨ o = 0x070160 then s.hostMeasures 1
  else true

/-- The base of the posted block or channel that `o` lies in (Table 3.4). -/
def postBase (o : Nat) : Option Nat :=
  if o = 0x0A0020 then none
  else match o / 0x10000 with
    | 8 => some (o / 0x2000 * 0x2000)
    | 9 => some 0x090000
    | 10 => some 0x0A0000
    | 11 => some 0x0B0000
    | 14 => some 0x0E0000
    | _ => none

/-! The press (R80 to R85). -/

/-- The press control at `o`. -/
def State.pressAt (o : Nat) (s : State) : Press := s.press.look o {}

/-- The press control at `o` changed by `f`. -/
def State.updPress (o : Nat) (f : Press → Press) (s : State) : State := { s with press := s.press.upd o {} f }

/-- A write or a GO that finds PEND at 1 (R82): discarded and counted in LOST. -/
def Press.lose (p : Press) : Press := { p with lost := p.lost + 1 }

/-- A write to a press control: bit 0 requests a press. -/
def Press.go (p : Press) (v : Word) : Press := if !v.getLsbD 0 then p else if p.pend then p.lose else { p with pend := true }

/-- The end of a press that is pending. -/
def Press.endWith (p : Press) (ok : Bool) : Press := { p with pend := false, refused := !ok }

/-- A write of the press control at `o`; a lost GO leaves its offset. -/
def State.goAt (o : Nat) (v : Word) (s : State) : State :=
  let t := s.updPress o fun p => p.go v
  if v.getLsbD 0 && (s.pressAt o).pend then t.accAddr o false else t

/-- A write of the RWP register at `o`, whose group is pressed at `g`. -/
def State.stageAt (o g : Nat) (v : Word) (s : State) : State :=
  if (s.pressAt g).pend then (s.updPress g Press.lose).accAddr o false else s.setReg o v

/-! The windows of the loop engines (spec/07_loop_engines.md R208, R209). -/

/-- `o` lies in a window. -/
def inWindow (o : Nat) : Bool := decide (0x040400 ≤ o) && decide (o < 0x040C00)

/-- The window of `o`, and the place in it. -/
def winOf (o : Nat) : Nat × Nat := ((o - 0x040400) / 0x100, (o - 0x040400) % 0x100)

/-- A staging copy of the operating group at window place `k`. -/
def OpGrp.at_ (g : OpGrp) (k : Nat) : Word :=
  match k with
  | 0x10 => g.sp
  | 0x14 => g.mout
  | 0x18 => g.safe
  | 0x1C => g.sattime
  | 0x20 => g.frztime
  | _ => g.action

/-- The operating group with the copy at window place `k` written. -/
def OpGrp.set (g : OpGrp) (k : Nat) (v : Word) : OpGrp :=
  match k with
  | 0x10 => { g with sp := v }
  | 0x14 => { g with mout := v }
  | 0x18 => { g with safe := v }
  | 0x1C => { g with sattime := v }
  | 0x20 => { g with frztime := v }
  | _ => { g with action := v &&& 0x1F }

/-- A write of an operating-group register of a loop. -/
def Loop.stageOp (l : Loop) (k : Nat) (v : Word) : Loop :=
  if l.opPress.pend then { l with opPress := l.opPress.lose } else { l with stg := l.stg.set k v }

/-- A write of a coefficient of a loop's inactive bank. -/
def Loop.stageCoef (l : Loop) (j : Nat) (v : Word) : Loop :=
  if l.bkPress.pend then { l with bkPress := l.bkPress.lose } else l.stage j v

/-- A write through window `w` at place `k`, the register being at `o`. -/
def State.windowWrite (ini : Ini) (o w k : Nat) (v : Word) (s : State) : State :=
  let lost (n : Nat) (op : Bool) (t : State) : State :=
    if (if op then (s.loop n).opPress.pend else (s.loop n).bkPress.pend) then t.accAddr o false else t
  if k = 0 then (if winOwner w ini then s.setReg o (v &&& 0xFFF) else s.roWr o)
  else if k < 0x28 then
    if (decide (k = 0x10) && (s.lcfg (s.winSlot w)).spExt) && winOwner w ini && s.loopSet (s.winSlot w) then s.roWr o
    else s.viaWindow w o true ini (fun n t => lost n true (t.updLoop n fun l => l.stageOp k v))
  else if k = 0x28 then
    s.viaWindow w o true ini (fun n t =>
      (if v.getLsbD 0 then lost n true else id) (t.updLoop n fun l => { l with opPress := l.opPress.go v }))
  else if k = 0x2C then
    s.viaWindow w o true ini (fun n t =>
      (if v.getLsbD 0 then lost n false else id) (t.updLoop n fun l => { l with bkPress := l.bkPress.go v }))
  else if k = 0x30 then s.loopCmd w ini v
  else s.viaWindow w o true ini (fun n t => lost n false (t.updLoop n fun l => l.stageCoef ((k - 0x40) / 4) v))

/-- What a window shows of its writable registers. -/
def State.windowRead (o w k : Nat) (s : State) : Word :=
  let l := s.loop (s.winSlot w)
  if k = 0 then s.reg o
  else if !s.loopSet (s.winSlot w) then 0
  else if 0x10 ≤ k ∧ k < 0x28 then l.stg.at_ k
  else if 0x40 ≤ k then bankOf l.inactive ((k - 0x40) / 4)
  else 0

/-! Keys and triggers of the SYS block. -/

/-- A kick of the host-liveness timer (R91); without supervision it has no effect. -/
def State.kick (s : State) : State :=
  if (s.liveReg Reg.sysHlwMode).getLsbD 0 then { s with sys := { s.sys with hlwFrom := s.sys.opNs, hostLost := false } } else s

/-- The modes in which the restart key is accepted (R92). -/
def State.restartable (s : State) : Bool :=
  decide (s.sys.mode = .faultHalt) || decide (s.sys.mode = .recovery) || (decide (s.sys.mode = .boot) && s.boot.held)

/-- A word written to SYS_RESTART (R92); `obs` is what the start it leads to finds. -/
def State.restartWord (v : Word) (obs : BootObs) (s : State) : State :=
  let clear : State := { s with sys := { s.sys with restartKey := none } }
  if !s.restartable then clear.seqErr Reg.sysRestart
  else match keyStep 0x0000A5C3 0x00003C5A v s.sys.opNs s.sys.restartKey with
    | some (k, full) =>
      let t : State := { s with sys := { s.sys with restartKey := k } }
      if full then t.restart obs else t
    | none => clear.seqErr Reg.sysRestart

/-- The mask ROM loads the image `img` (spec/17_firmware_and_configuration.md R447): a locked key store fails at once; an image that
verifies goes to bank A, whose write AREA_WRITE_COMPLETE ends. -/
def State.loadImage (img : List Byte) (s : State) : State :=
  let b := s.boot
  if b.ks.locked then { s with boot := { b with ldState := 5, ldReason := 0x6F, cause := 2 } }
  else
    let v := verifyImage b.ks .fw b.minSvn.toNat b.storeFmt.toNat 0 false img
    match v with
    | .ok => { s with boot := { b with bankA := { b.bankA with bytes := img, ok := false, erase := [] }, ldState := 3, ldReason := 0 } }
    | w => { s with boot := { b with ldState := 5, ldReason := BitVec.ofNat 8 w.code } }

/-- A word written to BOOT_LD_KEY (spec/17_firmware_and_configuration.md R447); `img` is what the mask ROM reads from host memory. -/
def State.ldWord (v : Word) (img : List Byte) (s : State) : State :=
  if !s.boot.held then s.roWr Reg.bootLdKey
  else
    let clear : State := { s with boot := { s.boot with ldKey := none } }
    match keyStep 0x0000B007 0x0000700B v s.sys.opNs s.boot.ldKey with
    | some (k, full) =>
      let t : State := { s with boot := { s.boot with ldKey := k } }
      if full then t.loadImage img else t
    | none => clear.seqErr Reg.bootLdKey

/-- The image that lies in host memory at BOOT_LD_ADDR: a free value where the command does not carry it (log entry 5). -/
def State.hostImage (s : State) : List Byte × State :=
  let a : DWord := (s.reg Reg.bootLdAddrHi) ++ (s.reg Reg.bootLdAddrLo)
  (Config.hostBytes a (s.reg Reg.bootLdLen).toNat s.freeN, { s with freeN := s.freeN + 1 })

/-! The effect of a write that reaches its register. -/

/-- A trim operation by its code in FIO_AIO_TRIMCMD; the mean of a captured point is a free value where no command carries it
(log entry 5). -/
def State.trimWrite (n op : Nat) (found : Option Int) (s : State) : State :=
  let (w, d) := if found.isSome then (0, s) else s.draw
  let mean : Int := found.getD (BitVec.ofNat 24 w.toNat).toInt
  match op with
  | 1 => d.trimOp n (State.capture n false mean)
  | 2 => d.trimOp n (State.capture n true mean)
  | 3 => s.trimOp n (State.trimStore n)
  | 4 => s.trimOp n (State.trimDiscard n)
  | 5 => s.trimOp n (State.trimFactory n)
  | 6 => s.trimOp n (State.trimDrive n false)
  | 7 => s.trimOp n (State.trimDrive n true)
  | _ => s

/-- A write of LSP_PAIR_DBG_CTRL of pair `p` (spec/06_lockstep_and_darn.md R176); where core A stands is a free value where the
command does not carry it (log entry 5). Of several controls written 1 together, HALT acts before STEP and STEP before RESUME, and STEP
does nothing to a core that is not halted (log entry 123). -/
def State.debugWrite (p : Nat) (v : Word) (s : State) : State :=
  let pc (t : State) : Word := BitVec.ofNat 32 t.draw.1.toNat
  if v.getLsbD 0 then (if (s.pair p).halted then s else s.draw.2.haltCore p (pc s) {})
  else if v.getLsbD 1 then (if (s.pair p).halted then s.draw.2.stepCore p (pc s) {} else s)
  else if v.getLsbD 2 then s.resumeCore p
  else s

/-- A WO register; `mean` is what a trim capture finds. -/
def State.writeOnly (o : Nat) (v : Word) (mean : Option Int) (s : State) : State :=
  if o = Reg.sysRestart then s.drawObs.2.restartWord v s.drawObs.1
  else if o = Reg.sysHlwKick then s.kick
  else if o = Reg.dpxClaim then s.claimWord State.replay v
  else if o = Reg.timRealign then s.realignWord v
  else if o = Reg.fioDioRearm then s.rearm v
  else if o = Reg.tlyClrkey then s.clrWord v
  else if o = Reg.bootLdKey then s.hostImage.2.ldWord v s.hostImage.1
  else if debugReg o then s.debugWrite (lspPairOf o) v
  else if o / 0x10000 = 7 then
    let d := (o - 0x070100) / 0x40
    match (o - 0x070100) % 0x40 with
    | 0x1C => s.updDom d fun x => { x with meast := v, used := false }
    | 0x20 => s.updDom d fun x => { x with measS := v }
    | _ => s.writeMeas d v
  else if o / 0x10000 = 8 then (if v.getLsbD 0 then s.canCmd ((o - 0x080000) / 0x2000) else s)
  else s.trimWrite ((o - 0x090600) / 0x40) (bits v 0 3) mean

/-- An RW register; `v` has its reserved bits at 0. -/
def State.writeNow (o : Nat) (v : Word) (s : State) : State :=
  if o = Reg.memInjCtrl then s.injWord v
  else if o = Reg.tlyRdseq then s.lookRecord v
  else if o = Reg.fioHartHctl then (if v.getLsbD 16 then s.hartGo v else s.setReg o v)
  else if o = 0x0A0020 then { s with saf := { s.saf with mboxApp := v } }
  else s.setReg o v

/-- The effect of a write of `v` to the register `o` of row `r` (R62, R67); a voted field leaves its safe default (R77), and a
guarded word is written with fresh parity (R78). -/
def State.writeReg (o : Nat) (r : RegRow) (v : Word) (mean : Option Int) (s : State) : State :=
  let w := v &&& r.mask
  match r.acc with
  | .ro => s.roWr o
  | .rw => s.writeNow o w
  | .wo => s.writeOnly o w mean
  | .rwp => s.stageAt o ((pressOf o).getD 0) w
  | .rwv => s.setVote o w
  | .rwk => { s.setReg o w with sys := { s.sys with parityBad := s.sys.parityBad.filter fun x => x ≠ o } }
  | .press => s.goAt o w

/-- The MSI-X table and pending bits (spec/04_host_rings.md R122): a vector control word masks or unmasks its vector, the pending bits
are read-only. -/
def State.msixWrite (o : Nat) (v : Word) (s : State) : State :=
  if 0x019000 ≤ o then s.roWr o
  else if o % 16 = 12 then
    let n := (o - 0x018000) / 16
    if v.getLsbD 0 then { s with hif := { s.hif with msixMask := n :: s.hif.msixMask.filter fun x => x ≠ n } }
    else
      let t : State := { s with hif := { s.hif with msixMask := s.hif.msixMask.filter fun x => x ≠ n,
                                                    msixPend := s.hif.msixPend.filter fun x => x ≠ n } }
      if s.hif.msixPend.contains n then t.msix n else t
  else s.setReg o v

/-- The MSI-X table and the pending-bit array, of 64 vectors. -/
def inMsix (o : Nat) : Bool := (decide (0x018000 ≤ o) && decide (o < 0x018400)) || (decide (0x019000 ≤ o) && decide (o < 0x019008))

/-- A full-word write of `v` at `o` by `ini` (R62 to R71, R82); a posted block takes it as `postTo` says. -/
def State.fullWrite (ini : Ini) (o : Nat) (v : Word) (s : State) : State :=
  if inMsix o then s.msixWrite o v
  else match rowAt o with
    | none => s.unassignedWr o false
    | some r =>
      if r.acc = .ro then s.roWr o
      else if inWindow o then s.windowWrite ini o (winOf o).1 (winOf o).2 v
      else if !s.mayWrite ini o r.acc then s.roWr o
      else match postBase o with
        | none => s.writeReg o r v none
        | some b => s.postTo b o v none

/-- REGISTER_WRITE: at BAR0 offset `off`, with byte enables `be` (R62, R64, R66). -/
def execRegisterWrite (ini : Ini) (off : Nat) (val : Word) (be : BitVec 4) (s : State) : Host.Outcome State Fault Refusal :=
  if 0x1000000 ≤ off then .fault .outsideBar
  else if off % 4 ≠ 0 then .fault .notWordAligned
  else if !s.regLive off then .next s
  else if be ≠ 15 then done s (s.partialWr off false)
  else done s (s.fullWrite ini off val)

/-! Bit aliases (R86, R87). -/

/-- The value of the register at `o` that a read-modify-write starts from: its current value or staging copy, the voted value, and 0 for
what only takes commands. -/
def State.aliasRead (o : Nat) (s : State) : Word :=
  if inWindow o then s.windowRead o (winOf o).1 (winOf o).2
  else if inMsix o then
    (if 0x019000 ≤ o then maskOf 32 fun i => s.hif.msixPend.contains (i + 8 * (o - 0x019000))
     else if o % 16 = 12 then BitVec.ofNat 32 (bit (s.hif.msixMask.contains ((o - 0x018000) / 16))) else s.reg o)
  else match rowAt o with
    | some r => (match r.acc with
      | .rw | .rwp | .rwk => (if o = 0x0A0020 then s.saf.mboxApp else if o = Reg.memInjCtrl then BitVec.ofNat 32 (bit (!s.mm.inj.isEmpty))
          else s.reg o)
      | .rwv => s.voted o
      | _ => 0)
    | none => 0

/-- The word with bit `i` set to `b`. -/
def withBit (w : Word) (i : Nat) (b : Bool) : Word := if b then w ||| (1#32 <<< i) else w &&& ~~~(1#32 <<< i)

/-- An alias write of bit `i` of the register at `o`. -/
def State.aliasWrite (ini : Ini) (o i : Nat) (b : Bool) (s : State) : State :=
  if inMsix o then s.fullWrite ini o (withBit (s.aliasRead o) i b)
  else match rowAt o with
    | none => s.unassignedWr o false
    | some r =>
      if r.acc = .ro || !r.mask.getLsbD i then s.roWr o
      else s.fullWrite ini o (withBit (s.aliasRead o) i b)

/-- BIT_ALIAS_WRITE: at BAR4 offset `off`. -/
def execBitAliasWrite (ini : Ini) (off : Nat) (val : Word) (be : BitVec 4) (s : State) : Host.Outcome State Fault Refusal :=
  let o := off / 128 * 4
  if 0x2000000 ≤ off then .fault .outsideBar
  else if off % 4 ≠ 0 then .fault .notWordAligned
  else if !s.regLive o then .next s
  else if be ≠ 15 then done s (s.partialWr o false)
  else done s (s.aliasWrite ini o (off / 4 % 32) (val.getLsbD 0))

/-! Posted writes (R70 to R72). -/

/-- POSTED_WRITE_DONE: the write in flight to the block at `base` takes effect. -/
def execPostedWriteDone (base : Nat) (s : State) : Host.Outcome State Fault Refusal :=
  match (s.posted.look base {}).busy with
  | some p =>
    let t : State := { s with posted := s.posted.upd base {} fun x => { x with busy := none, failed := false } }
    match rowAt p.off with
    | some r => done s (t.writeReg p.off r p.val p.mean)
    | none => done s t
  | none => .next s

/-- POSTED_BLOCK_FAILED: BUSY of the block at `base` has stayed at 1 for 1 ms. -/
def execPostedBlockFailed (base : Nat) (s : State) : Host.Outcome State Fault Refusal :=
  let p := s.posted.look base {}
  if p.busy.isSome && !p.failed then
    done s (({ s with posted := s.posted.put base { p with failed := true } }).log 0x0006 5 (le 4 base))
  else .next s

/-- PRESS_GO: GO of the press control at `off` (R81, R82). -/
def execPressGo (ini : Ini) (off : Nat) (s : State) : Host.Outcome State Fault Refusal :=
  match rowAt off with
  | some r => if s.regLive off && decide (r.acc = .press) then done s (s.fullWrite ini off 1) else .next s
  | none => .next s

/-! The safe boundary of a press (R81, R84). -/

/-- The members of the group that the press control at `o` governs. -/
def groupOf (o : Nat) : List Nat :=
  (mapOf o).filterMap fun r =>
    if r.press = 0 then none
    else if r.stride = 0 then (if r.press = o then some r.off else none)
    else if r.press ≤ o ∧ (o - r.press) % r.stride = 0 ∧ (o - r.press) / r.stride < r.count then some (r.off + (o - r.press))
    else none

/-- `x` lies from `a` to `b`. -/
def within (a b : Nat) (x : Word) : Bool := decide (a ≤ x.toNat) && decide (x.toNat ≤ b)

/-- The HIF group (spec/04_host_rings.md R96, R123). -/
def State.hifPressOk (s : State) : Bool :=
  let z := s.reg Reg.hifAqSize
  !(s.reg Reg.hifCtrl).getLsbD 0 ||
    (decide (bits (s.reg Reg.hifAqSqbaseLo) 0 12 = 0) && decide (bits (s.reg Reg.hifAqCqbaseLo) 0 12 = 0) &&
      decide (4 ≤ bits z 0 5) && decide (bits z 0 5 ≤ 16) && decide (4 ≤ bits z 8 5) && decide (bits z 8 5 ≤ 16))

/-- The class group of class `c`. -/
def State.clsPressOk (c : Nat) (s : State) : Bool :=
  let o := 0x40 * c
  (s.ccfg c).en && (s.ccfg c).limitsOk (s.reg (0x02010C + o)).toNat (s.reg (0x020110 + o)).toNat (s.reg (0x020114 + o)).toNat

/-- The servo group (spec/11_time.md R305, R320). -/
def State.timPressOk (s : State) : Bool :=
  let kp := s.reg Reg.timKp
  let ki := s.reg Reg.timKi
  let c := s.reg Reg.timCfg
  within 50 1000000000 (s.reg Reg.timStepmax) && within 1000 100000 (s.reg Reg.timSlew) && within 0x1000 0x40000 kp &&
    within 0x100 0x40000 ki && decide (ki.toNat * 65536 ≤ kp.toNat * kp.toNat) && decide (bits c 0 2 < 2) && s.domEn (bits c 3 1)

/-- The output group (spec/11_time.md R319). -/
def State.toutPressOk (s : State) : Bool :=
  let p := (s.reg Reg.timToutPeriod).toNat
  let w := (s.reg Reg.timToutWidth).toNat
  decide (p = 0) || (decide (1000000 % p = 0) && decide (1 ≤ w) && decide (w + 1 ≤ p))

/-- The timing group of CAN channel `c` (spec/12_can.md Table 12.3): a bit of a phase lasts `d` quanta of 12.5 ns. -/
def State.canPressOk (c : Nat) (s : State) : Bool :=
  let n := s.reg (canReg c 0x10)
  let t := s.reg (canReg c 0x1C)
  let len (brp t1 t2 : Nat) : Nat := (brp + 1) * (3 + t1 + t2)
  let dn := len (bits n 0 9) (bits n 9 8) (bits n 17 7)
  let data (w : Word) (least : Nat) : Bool :=
    let d := len (bits w 0 5) (bits w 8 5) (bits w 16 4)
    decide (bits w 24 4 ≤ bits w 16 4) && decide (least ≤ d) && decide (d ≤ dn) &&
      (!t.getLsbD 8 || decide (bits w 0 5 < 2)) && (t.getLsbD 8 || decide (40 ≤ d))
  s.canSet c && decide (1 ≤ bits n 9 8) && decide (1 ≤ bits n 17 7) && decide (bits n 24 7 ≤ bits n 17 7) &&
    decide (80 ≤ dn) && decide (dn ≤ 8000) && data (s.reg (canReg c 0x14)) 10 &&
    (decide (c < 6) || data (s.reg (canReg c 0x18)) 8)

/-- The staging copies of the group of `o` are valid together. -/
def State.pressOk (o : Nat) (s : State) : Bool :=
  if o = Reg.sysHlwPress then within 10 60000 (s.reg Reg.sysHlwTime)
  else if o = Reg.hifPress then s.hifPressOk
  else if o = Reg.dpxPsPress then
    let i := s.reg 0x050044
    (decide (i = 0) || within 3600 2592000 i) && within 1000 600000 (s.reg 0x050048)
  else if o = Reg.timPress then s.timPressOk
  else if o = Reg.timToutPress then s.toutPressOk
  else if o = Reg.memRinsePress then within 60 4320 (s.reg Reg.memRinsePeriod)
  else match o / 0x10000 with
    | 2 => s.clsPressOk ((o - 0x020118) / 0x40)
    | 3 =>
      let v := s.reg (o - 4)
      within 25 1000 v && decide (v.toNat ≤ (s.reg (o + 4)).toNat)
    | 8 => s.canPressOk ((o - 0x080020) / 0x2000)
    | _ =>
      if o < 0x090600 then
        let n := (o - 0x09010C) / 0x20
        s.dioSet n && decide (bits (s.reg (o - 8)) 8 2 ≠ 3) && decide (10 ≤ bits (s.reg (o - 4)) 0 16) &&
          decide (bits (s.reg (o - 4)) 0 16 ≤ 10000)
      else
        let r := s.reg (o - 8)
        s.aioSet ((o - 0x09060C) / 0x40) && decide (100 ≤ bits r 0 16) && decide (bits r 0 16 ≤ 50000) && decide (bits r 16 4 ≤ 8)

/-- An applied press of the HIF group (spec/04_host_rings.md R96, R123): ADMIN_EN makes the admin ring, changes it, or deletes it. -/
def State.adminPressed (s : State) : State :=
  let z := s.reg Reg.hifAqSize
  let sq : DWord := s.reg Reg.hifAqSqbaseHi ++ s.reg Reg.hifAqSqbaseLo
  let cq : DWord := s.reg Reg.hifAqCqbaseHi ++ s.reg Reg.hifAqCqbaseLo
  if (s.reg Reg.hifCtrl).getLsbD 0 then
    let t := if s.hif.adminLive then s else s.removeRing 0
    let u := t.updRing 0 fun r => { r with live := true, sqBase := sq, cqBase := cq, sqK := bits z 0 5, cqK := bits z 8 5, vector := bits z 16 6 }
    let u := { u with hif := { u.hif with adminLive := true } }
    if s.hif.adminLive then u else u.releaseHeld 0
  else
    let t := s.removeRing 0
    { t with hif := { t.hif with adminLive := false } }

/-- What an applied press does beside the copy (R91; spec/04 R123; spec/09 R267; spec/13 R344). -/
def State.afterPress (o : Nat) (s : State) : State :=
  if o = Reg.sysHlwPress then { s with sys := { s.sys with hlwFrom := s.sys.opNs, hostLost := false } }
  else if o = Reg.hifPress then s.adminPressed
  else if o = Reg.dpxPsPress then s.psCount
  else if 0x090100 ≤ o ∧ o < 0x090600 then
    s.updDio ((o - 0x09010C) / 0x20) fun d => { d with c := min d.c (bits (s.reg (o - 8)) 0 8) }
  else s

/-- The press at `o` is taken: the staging copies go to the live ones together, or the press is refused. -/
def State.takePress (o : Nat) (s : State) : State :=
  if !s.pressOk o then s.updPress o fun p => p.endWith false
  else
    let t := (groupOf o).foldl (fun (u : State) m => u.setLive m (u.reg m)) s
    (t.afterPress o).updPress o fun p => p.endWith true

/-- The pending press of a loop, selected by the window whose press control is at `o` (R84): the loop is stopped, or at phase 0. -/
def State.takeLoopPress (o : Nat) (s : State) : State :=
  let n := s.winSlot (winOf o).1
  if !s.loopSet n then s
  else if (winOf o).2 = 0x2C then s.updLoop n fun l => l.takeBank (s.lcfg n)
  else
    let t := s.updLoop n Loop.takeOp
    if (t.loop n).presses = (s.loop n).presses then t else t.sendGroup n

/-- The unit that owns the group is at its safe boundary as far as the state shows it (Table 3.7): for HIF the admin ring is idle, for a CAN
channel no attempt is on its bus. -/
def State.atBoundary (o : Nat) (s : State) : Bool :=
  (decide (o ≠ Reg.hifPress) || (s.ring 0).infl.isNone) &&
    (decide (o / 0x10000 ≠ 8) || !(s.chan (o % 0x10000 / 0x2000)).txActive)

/-- PRESS_APPLY: the safe boundary of the group whose press control is at `off`. -/
def execPressApply (off : Nat) (s : State) : Host.Outcome State Fault Refusal :=
  if !s.regLive off then .next s
  else if inWindow off then
    (if (winOf off).2 = 0x28 ∨ (winOf off).2 = 0x2C then done s (s.takeLoopPress off) else .next s)
  else if (s.pressAt off).pend && s.atBoundary off then done s (s.takePress off)
  else .next s

/-! Votes (R76, R77). -/

/-- A copy of a voted field upset: `k` 0, 1 or 2. -/
def Vote.upset (x : Vote) (k : Nat) (w : Word) : Vote :=
  match k with
  | 0 => { x with a := w }
  | 1 => { x with b := w }
  | _ => { x with c := w }

/-- Two of the three copies agree. -/
def Vote.majority (x : Vote) : Bool := decide (x.a = x.b) || decide (x.a = x.c) || decide (x.b = x.c)

/-- All three copies agree. -/
def Vote.agree (x : Vote) : Bool := decide (x.a = x.b) && decide (x.b = x.c)

/-- The vote of the field at `o`; one that stands at its safe default is not voted again until it is written. -/
def State.voteOne (o : Nat) (s : State) : State :=
  let x := s.vote o
  let m := x.val (rstOf o)
  if x.atDefault || x.agree then s
  else if x.majority then
    ((s.setVote o m).log 0x0003 3 (le 4 o ++ le 4 m.toNat)) |> fun t => { t with sys := { t.sys with voteFix := t.sys.voteFix + 1 } }
  else
    let t : State := { s with votes := s.votes.put o { x with atDefault := true }
                              sys := { s.sys with voteFail := s.sys.voteFail + 1, voteAddr := BitVec.ofNat 32 o } }
    t.log 0x0004 5 (le 4 o ++ le 4 (rstOf o).toNat)

/-- The offset names an RWV register. -/
def isVoted (o : Nat) : Bool :=
  match rowAt o with
  | some r => decide (r.acc = .rwv)
  | none => false

/-- VOTE_SWEEP: `upset` lists the copies that have changed since the last one: field, copy, value. -/
def execVoteSweep (upset : List (Nat × Nat × Word)) (s : State) : Host.Outcome State Fault Refusal :=
  if !s.reach then .next s
  else
    let t := (upset.filter fun (e : Nat × Nat × Word) => isVoted e.1).foldl
      (fun (u : State) e => { u with votes := u.votes.put e.1 ((u.vote e.1).upset e.2.1 e.2.2) }) s
    done s (t.votes.keys.foldl (fun (u : State) o => u.voteOne o) t)

/-! Parity (R78). -/

/-- The group of record 0x0005 that the guarded word at `o` belongs to (Table 3.5; log entry 47): the safety configuration, the
Selvedge parameters, which SAF_SELCRC stands for, the key store, and the role and epoch. -/
def parityGroup (o : Nat) : Option Nat :=
  match o / 0x10000 with
  | 10 => some (if o = Reg.safSelcrc then 2 else 1)
  | 13 => some 3
  | 5 => some 4
  | _ => none

/-- A guarded word checked. -/
def State.checkParity (o : Nat) (s : State) : State :=
  match parityGroup o with
  | some g => s.parityTrip o g
  | none => s

/-- PARITY_SWEEP: `upset` lists the guarded words that have changed since the last one. -/
def execParitySweep (upset : List Nat) (s : State) : Host.Outcome State Fault Refusal :=
  if !s.reach then .next s
  else
    let bad := s.sys.parityBad ++ upset.filter fun o => (parityGroup o).isSome && !s.sys.parityBad.contains o
    let t : State := { s with sys := { s.sys with parityBad := bad } }
    done s (bad.foldl (fun (u : State) o => u.checkParity o) t)

/-! Host liveness and restart (R91, R92). -/

/-- SYS_HLW_KICK: a full-word write. -/
def execSysHlwKick (_val : Word) (s : State) : Host.Outcome State Fault Refusal :=
  if s.reach then done s s.kick else .next s

/-- HOST_LIVENESS_EXPIRY: the live SYS_HLW_TIME has passed without a kick. -/
def execHostLivenessExpiry (s : State) : Host.Outcome State Fault Refusal :=
  if s.reach && (s.liveReg Reg.sysHlwMode).getLsbD 0 && !s.sys.hostLost then
    done s (({ s with sys := { s.sys with hostLost := true } }).log 0x0007 3 (le 4 (s.liveReg Reg.sysHlwTime).toNat))
  else .next s

/-- SYS_RESTART: a word of the restart key. -/
def execSysRestart (val : Word) (obs : BootObs) (s : State) : Host.Outcome State Fault Refusal :=
  if s.reach then done s (s.restartWord val obs) else .next s

/-! The rows of BOOT that end in a start (spec/02_modes_and_startup.md R54, spec/17_firmware_and_configuration.md R447, R450). -/

/-- POWER_GOOD: BOOT starts at step 1. `obs` is what the start finds. -/
def execPowerGood (obs : BootObs) (s : State) : Host.Outcome State Fault Refusal :=
  if decide (s.sys.mode = .retain) || (decide (s.sys.mode = .boot) && s.hif.crs) then
    done s (s.bootFrom2 State.replay true obs)
  else .next s

/-- BOOT_LD_KEY: a word of the load key, with the image that the mask ROM reads. -/
def execBootLdKey (val : Word) (image : List Byte) (s : State) : Host.Outcome State Fault Refusal :=
  if s.reach then done s (s.ldWord val image) else .next s

/-- A record whose area write is complete is PENDING no longer. -/
def JRec.stored (req : List (Nat × DWord)) (r : JRec) : JRec :=
  if req.contains (r.slot, r.reqId) then { r with pending := false } else r

/-- The write of area `a` is complete (R450): the record of the command is PENDING no longer, and the command completes. -/
def State.areaWritten (a : Area) (s : State) : State :=
  let g := s.boot.stg a
  let t := s.updBoot fun b => (b.setStg a { g with state := 3, len := (b.imageAt a g.dest).length, writing := false, pendReq := [] })
  let t := t.updBoot fun b => match a with
    | .fw => b.setBank (g.dest == 1) { b.bankOf (g.dest == 1) with erase := [] }
    | .cfg => { b with cfgs := b.cfgs.upd g.dest {} fun k => { k with erase := [] } }
    | .keys => b
  let t : State := { t with hif := { t.hif with journal := t.hif.journal.map (JRec.stored g.pendReq) } }
  match (t.ring 0).infl with
  | some i => if g.pendReq.contains (i.cmd.slot, i.cmd.reqId) then t.finishWaiting 0 St.ok [] 0 0 else t
  | none => t

/-- The bank that the load key has written is verified, and the module restarts at boot step 2 (R447). -/
def State.bankLoaded (obs : BootObs) (s : State) : State :=
  let b := s.boot
  match verifyImage b.ks .fw b.minSvn.toNat b.storeFmt.toNat 0 false b.bankA.bytes with
  | .ok => ({ s with boot := { b with ldState := 4 } }).restart obs
  | w => { s with boot := { b with ldState := 5, ldReason := BitVec.ofNat 8 w.code } }

/-- AREA_WRITE_COMPLETE: area 0 firmware, 1 configuration, 2 keys. Bank A loaded in BOOT held is verified, and the module restarts. -/
def execAreaWriteComplete (area : Fin 3) (obs : BootObs) (s : State) : Host.Outcome State Fault Refusal :=
  let a : Area := if area.val = 0 then .fw else if area.val = 1 then .cfg else .keys
  if !s.reach then .next s
  else if s.boot.held then
    if area.val = 0 && decide (s.boot.ldState = 3) then done s (s.bankLoaded obs)
    else .next s
  else if s.running && (s.boot.stg a).writing && !s.pwr.pfail then done s (s.areaWritten a)
  else .next s

end Sys2Proof.Machine
end

