-- ==== Sys2Proof/Machine/CycExec.lean ====
section
/-! DEFINITION. The boundaries and commits of the task classes and the seal of a checkpoint
(spec/05_cyclic_execution.md, spec/06_lockstep_and_darn.md R158, R162). -/

namespace Sys2Proof.Machine

/-! The release of deferred stores (R162). -/

/-- A HART request of the program on pair `p` reaches the channel's queue (spec/13_local_field_io.md R364), of the class that owns the
channel. -/
def State.hartRequest (p n : Nat) (b : List Byte) (s : State) : State :=
  let c := bits (s.liveReg (Reg.fioAioCfg + 0x40 * n)) 4 3
  if (s.ccfg c).en && decide ((s.ccfg c).pair = p) then
    let q := s.fio.hart.clsQ.look n []
    ({ s with fio := { s.fio with hart := { s.fio.hart with clsQ := s.fio.hart.clsQ.put n (q ++ [b]) } } }).hartNext n
  else s

/-- A store of the program on pair `p` into the memory of a CAN channel that a class of the pair owns
(spec/12_can.md R324). -/
def State.canRequest (p c q : Nat) (entry : Bool) (off : Nat) (b : List Byte) (s : State) : State :=
  let w := s.liveReg (Reg.canCfg + 0x1000 * c)
  if !w.getLsbD 3 && decide ((s.ccfg (bits w 0 3)).pair = p) then s.canStore c q entry off b else s

/-- A deferred store of pair `p` reaches its target (R162). -/
def releaseDef (p : Nat) (d : DefSt) (s : State) : State :=
  match d with
  | .reg o v => if o < 2 ^ 24 ∧ o % 4 = 0 ∧ s.regLive o = true then s.fullWrite (.app p) o v else s
  | .mem a b => { s with cyc := { s.cyc with shared := s.cyc.shared.wrN a b } }
  | .canCtl c q o b => s.canRequest p c.val q.val false o b
  | .canEnt c q o b => s.canRequest p c.val q.val true o b
  | .hart n b => s.hartRequest p n.val b

/-- CHECKPOINT_SEAL (R158): the checkpoint being taken is sealed, and the held stores are released. -/
def execCheckpointSeal (p : Fin 4) (s : State) : Host.Outcome State Fault Refusal :=
  let q := s.pair p
  if s.lockstep p && (q.starting || q.taking) && !q.fence && !q.restoring then
    done s ((s.seal releaseDef p).schedule releaseDef p)
  else .next s

/-! Boundaries (R129, R135). -/

/-- Cycles start at boundaries (R141, Table 2.2): the classes of this module execute, in RUN, TEST or HOLD, in TAKEOVER under the new
epoch, or in ACTIVATE after the switch (spec/17_firmware_and_configuration.md Table 17.7). -/
def State.cycles (s : State) : Bool :=
  s.executes && (match s.sys.mode with
    | .run | .test | .hold => true
    | .takeover => decide (s.dpx2.takeFrom ≠ 0)
    | .activate => s.boot.act.awaitCommit
    | _ => false)

/-- What class `c` reads of loops at its latch: each as at its last crease (spec/07_loop_engines.md R189). -/
def State.latchLoops (c : Nat) (s : State) : State :=
  (s.ccfg c).loops.foldl (fun (u : State) e =>
    let l := s.loop e.1
    let w := if e.2.1 = 0 then l.out else if e.2.1 = 1 then l.fbCrease else l.statCrease
    u.setIn c e.2.2 (le 4 w.toNat)) s

/-- The cycle of number `n` starts, with its boundary at `ns`, and its pair turns to it (R128). -/
def State.startOn (c : Nat) (n : DWord) (ns : Nat) (s : State) : State :=
  (((s.latchLoops c).startCycle c n ns).schedule releaseDef (s.ccfg c).pair).proofJudge

/-- The skip limit of class `c` in use. -/
def State.skipMax (s : State) (c : Nat) : Nat := bits (s.liveReg (Reg.cycClsSkipmax + 0x40 * c)) 0 8

/-- A boundary that finds the previous cycle still active (R135): the cycle is late, or dropped. -/
def State.boundaryBusy (c : Nat) (s : State) : State :=
  let n := (s.cls c).cycno
  if !(s.ccfg c).skippable then
    s.updCls c fun x => { x with late := true, latePend := some n, lateNs := s.tim.ns, lateCnt := x.lateCnt + 1 }
  else
    let t := s.updCls c fun x => { x with
      late := true, skipCnt := x.skipCnt + 1, dropped := x.dropped + 1, droppedArg := x.droppedArg + 1, dueSkip := true }
    if t.skipMax c < (t.cls c).dropped then t.haltNotice c 2 n else t

/-- The step of a boundary that found the cycle of class `c` active has passed without its commit (R134): the cycle is late or the
boundary dropped. -/
def State.decideBusy (c : Nat) (s : State) : State :=
  let x := s.cls c
  let t := s.updCls c fun y => { y with undecided := false }
  if x.undecided && x.active && x.running && !x.held && s.cycles then t.boundaryBusy c else t

/-- A boundary of class `c`: the cycle number advances, then the start decision (R135, R143). A cycle that is still active may commit in
the same 2 ns step, which then counts first (R134): what the boundary does to it is decided as the step passes. A boundary met while the
class finishes its last cycle on a STOP counts nothing (log entry 121). -/
def State.boundary (c : Nat) (s : State) : State :=
  let t := (s.decideBusy c).updCls c fun x => { x with cycno := x.cycno + 1 }
  let x := t.cls c
  if !x.running || x.held || !t.cycles then t.watchStations c
  else if x.active then t.updCls c fun y => { y with undecided := true }
  else t.startOn c x.cycno t.tim.ns

/-- CLASS_BOUNDARY; `mem` are the accesses to DRAM since the previous command, `work` what the pair's class stored. -/
def execClassBoundary (c : Fin 8) (mem : List MemAcc) (work : Work) (s : State) : Host.Outcome State Fault Refusal :=
  if s.running && (s.ccfg c).en && decide (s.sys.mode ≠ .idleLink) then
    let t := mem.foldl (fun (u : State) a => u.access a) s
    done s (if (t.ccfg c).en then ((t.pairWork (t.ccfg c).pair work).boundary c).followDue c else t)
  else .next s

/-! The commit (R19, Table 5.1 step 7). -/

/-- The body of class `c` ends: its last stores, forced outputs, then the held stores in order (R162); the log is empty. -/
def State.bodyEnd (c : Nat) (work : Work) (s : State) : State :=
  let p := (s.ccfg c).pair
  let t := (s.runWork p c work).applyForces c true
  let ds := (t.pair p).defer
  let t := t.updPair p fun x => { x with log := [], defer := [] }
  ds.foldl (fun (u : State) d => releaseDef p d u) t

/-- The published-buffer index is written (R19) in cycle `n` at short time `t`: the working buffer becomes the committed image, and
the globals are published (R22). -/
def ClsMem.publish (n : DWord) (t : Word) (m : ClsMem) : ClsMem :=
  let x := if m.idx then { m with pub0 := m.work, idx := false } else { m with pub1 := m.work, idx := true }
  { x with globPub := m.glob, commits := m.commits + 1, commitNo := m.commitNo + 1, preRun := false, lastNo := n, commitT := t }

/-- A cycle ends with its commit, `us` after its boundary, under a soft budget of `soft` (R134 to R136). -/
def Cls.commit (x : Cls) (us soft : Nat) : Cls :=
  let e := BitVec.ofNat 32 us
  { x with overArg := if x.cycOver && x.prevIn then us - soft else x.overArg, active := false, bodyDone := false, late := false, exec := e, execMax := if x.execMax < e then e else x.execMax,
           prevIn := !x.cycOver, overSoft := x.overSoft && x.cycOver, dropped := if x.cycOver then x.dropped else 0,
           cycOver := false }

/-- The first output commit of a new primary (spec/02_modes_and_startup.md R46; spec/09_duplex_pair.md R254, R256): RUN as primary, and
the gap is measured. -/
def State.firstCommit (s : State) : State :=
  let byCmd := decide (s.dpx2.takeFrom = 2)
  let gap := BitVec.ofNat 32 ((s.short - s.dpx2.lastCommitT).toNat / 1000)
  let t := { s with
    sys := { s.sys with primary := true }
    dpx := { s.dpx with handover := false }
    hif := { s.hif with hold := false }
    dpx2 := { s.dpx2 with
      gapLast := gap
      gapMax := if s.dpx2.gapMax < gap then gap else s.dpx2.gapMax
      toDet := if byCmd then s.dpx2.toDet else s.dpx2.toDet + 1
      toCmd := if byCmd then s.dpx2.toCmd + 1 else s.dpx2.toCmd
      proofWin := byCmd && s.dpx2.isProof
      isProof := false
      takeFrom := 0 } }
  t.setMode .run (if byCmd then 6 else 5)

/-- What an activation does at the first commit after its switch (spec/17_firmware_and_configuration.md Tables 17.7, 17.8). -/
def State.actCommit (took : Bool) (s : State) : State :=
  let a := s.boot.act
  if took && s.pairAct && a.done && decide (a.step = 3) then s.settleFrom
  else if took && s.pairAct && decide (a.step = 7) then s.completeAct St.refused 0x6C
  else if decide (s.sys.mode = .activate) && a.awaitCommit then s.settleFrom
  else s

/-- A commit of the fastest class. -/
def State.fastCommit (s : State) : State :=
  let took := decide (s.sys.mode = .takeover) && decide (s.dpx2.takeFrom ≠ 0)
  let t := (if took then s.firstCommit.resumeChange else s).actCommit took
  { t with
    dpx2 := { t.dpx2 with lastCommitT := t.short }
    cle := { t.cle with waitCommit := false } }

/-- The commit goes to an in-sync partner (spec/09_duplex_pair.md R243, R244, Table 9.2), from a new primary still in TAKEOVER too.
During an initial sync the changed lines stay marked after the bulk, and are sent again once 64 KiB of them are marked (R248). -/
def State.mirrorCommit (c : Nat) (s : State) : State :=
  let m := s.cmem c
  let mir := (s.ccfg c).mirror
  let img := m.changed 1
  let data := if mir then m.changed 0 else []
  let glob := if mir then m.changed 2 else []
  if s.insync && s.executes then ((s.sendCommit false c img data glob).backlogOver).updMem c fun x => { x with dirty := [] }
  else if s.dpx2.bulkSent && decide (s.dpx.state = .syncing) && decide (m.dirty.length < 1024) then s
  else
    let t := if s.dpx2.bulkSent && decide (s.dpx.state = .syncing) then s.sendCommit true c img data glob else s
    t.updMem c fun x => { x with dirty := [] }

/-- A stop of the classes ends with the last commit (R142; spec/02_modes_and_startup.md R43). -/
def State.stopDone (s : State) : State :=
  match s.stopTo with
  | some _ => if s.quiet then s.leaveSync.finishTrans else s
  | none => s

/-- What a commit of class `c` lets start (R134, R135): the late cycle, or that of a boundary of the same step. -/
def State.lateStart (c : Nat) (s : State) : State :=
  let x := s.cls c
  match x.latePend with
  | some n => if x.running && s.cycles then s.startOn c n x.lateNs else s
  | none =>
    if x.undecided && x.running && s.cycles then (s.updCls c fun y => { y with undecided := false }).startOn c x.cycno s.tim.ns else s

/-- The index of class `c` is written: its commit is complete, and what follows it. -/
def State.writeIndex (c : Nat) (s : State) : State :=
  let us := (s.tim.ns - (s.cls c).startNs) / 1000
  let t := (s.overrunRec c).updMem c (ClsMem.publish (s.cls c).cur s.short)
  let t := t.updCls c fun x => x.commit us (s.liveReg (Reg.cycClsSoft + 0x40 * c)).toNat
  let t := if t.fastest = some c then t.fastCommit else t
  let t := (((t.mirrorCommit c).answerReads c).changeCommitted c).stopDone
  (t.lateStart c).schedule releaseDef (s.ccfg c).pair

/-- The index of class `c` is written at the aligned time (spec/09_duplex_pair.md R250). -/
def State.aligned (s : State) (c : Nat) : Bool := !s.sys.lone && decide ((s.ccfg c).cycUs = s.cfUs)

/-- The cycle of a class whose pair is broken ends without a commit (R143; spec/06_lockstep_and_darn.md R175): what it stored
privately stays, and its deferred stores are discarded and counted, the index write with them. An overrun has its record (R136), and the pair is
idle. -/
def State.brokenEnd (c p : Nat) (work : Work) (s : State) : State :=
  let t := (s.runWork p c work).overrunRec c
  let t := t.updPair p fun x => { x with defer := [], dbgDropped := x.dbgDropped + BitVec.ofNat 16 (x.defer.length + 1) }
  (t.updCls c fun x => { x with active := false, bodyDone := false, cycOver := false }).pairIdle p

/-- The body of class `c` has ended on its pair (R250): before the aligned time (`early`), the index is left to the press engine and
lower classes resume. -/
def State.endOrWrite (c : Nat) (early : Bool) (s : State) : State :=
  if early && s.aligned c then
    (s.updCls c fun x => { x with bodyDone := true }).schedule releaseDef (s.ccfg c).pair
  else s.writeIndex c

/-- A commit of class `c`. A body whose stores wait for an early checkpoint has not ended (R165). -/
def State.commit (c : Nat) (work : Work) (early : Bool) (s : State) : State :=
  let p := (s.ccfg c).pair
  let q := s.pair p
  let x := s.cls c
  if !x.active then s
  else if x.bodyDone then (if early then s else s.writeIndex c)
  else if !(q.runs && decide (q.cls = c)) then s
  else if q.broken then s.brokenEnd c p work
  else if ((s.runWork p c work).pair p).stalled then s.runWork p c work
  else ((s.bodyEnd c work).pairIdle p).endOrWrite c early

/-- OUTPUT_COMMIT: the body ends with the stores `work`; `early` tells that DPX_ALIGN has not been reached. A body end before the
aligned time is followed by a second OUTPUT_COMMIT at that time, which writes the index (R250). -/
def execOutputCommit (c : Fin 8) (work : Work) (early : Bool) (s : State) : Host.Outcome State Fault Refusal :=
  if s.pairsUp && (s.ccfg c).en then done s (s.commit c work early) else .next s

/-! Budgets (R136 to R138). -/

/-- The soft budget of the active cycle elapses. -/
def State.softOver (c : Nat) (s : State) : State :=
  let t := s.updCls c fun x => { x with overSoft := true, cycOver := true, ovrCnt := x.ovrCnt + 1, dueOver := x.dueOver || x.prevIn }
  if t.dpx2.proofWin then t.proofFailed 4 0 else t

/-- SOFT_BUDGET_EXPIRY (R136). -/
def execSoftBudgetExpiry (c : Fin 8) (s : State) : Host.Outcome State Fault Refusal :=
  let x := s.cls c
  if s.pairsUp && (s.ccfg c).en && x.active && !x.held && !x.cycOver then done s (s.softOver c) else .next s

/-- The hard limit of the active cycle expires. -/
def State.hardOver (c : Nat) (s : State) : State :=
  let n := (s.cls c).cur
  if (s.ccfg c).skippable then
    s.log 0x0202 4 ([BitVec.ofNat 8 c, 0, 0, 0] ++ le 8 n.toNat ++ le 4 ((s.tim.ns - (s.cls c).startNs) / 1000))
  else s.haltNotice c 1 n

/-- HARD_LIMIT_EXPIRY (R137, R138). -/
def execHardLimitExpiry (c : Fin 8) (s : State) : Host.Outcome State Fault Refusal :=
  if s.pairsUp && (s.ccfg c).en && (s.cls c).active && !(s.cls c).held then done s (s.hardOver c) else .next s

end Sys2Proof.Machine
end

