-- ==== Sys2Proof/Machine/Clock.lean ====
section
/-! DEFINITION. One TIM clock without a command (log entry 10). -/

namespace Sys2Proof.Machine

/-- The classes whose boundary found their cycle active in this step (spec/05_cyclic_execution.md R134). -/
def State.undecided (s : State) : List Nat := (List.range 8).filter fun c => (s.cls c).undecided

/-- One clock of 500 MHz (spec/11_time.md R297): the local clock advances and operating time counts 2 ns; in RETAIN neither runs, and in IDLE-LINK
the local clock stands (R300). What a
boundary does to a cycle that has not committed in its step is decided as the step passes (spec/05_cyclic_execution.md R134). -/
def State.clock (s : State) : State :=
  if !s.powered then s
  else
    let t := match s.undecided with
      | [] => s
      | cs => settleState s (cs.foldl (fun (u : State) c => u.decideBusy c) s)
    { t with tim := if t.sys.mode = .idleLink then t.tim else t.tim.tick, sys := { t.sys with opNs := t.sys.opNs + 2 } }

end Sys2Proof.Machine
end

