-- ==== Sys2Proof/Machine/NetExec.lean ====
section
/-! DEFINITION. Station inputs, the launches of OUTPUT, LOOP_OUT and PEER frames, the creases of loops and the end of boot step 8
(spec/10_io_network.md, spec/02_modes_and_startup.md Table 2.2). -/

namespace Sys2Proof.Machine

/-- INPUT (R281, R285). -/
def execInput (f : Kcp) (s : State) : Host.Outcome State Fault Refusal :=
  match s.stnOf f.port f.src with
  | some i => done s (s.receive 2 (some i) (fun t => t.takeInput State.replay i f) f)
  | none => done s (s.receive 2 none (fun t => t.meetEpoch f.port f.epoch) f)

/-- RING_STARTUP_TIMEOUT (R285): boot step 8 ends with stations still absent. -/
def execRingStartupTimeout (s : State) : Host.Outcome State Fault Refusal :=
  if s.running && !s.pwr.pfail && s.boot.awaitStn then done s ((s.replayOnce State.replay).enterStart s.cfg.startMode true) else .next s

/-! OUTPUT frames (spec/01_architecture.md R20, spec/02_modes_and_startup.md Table 2.2). -/

/-- The PDUs of the WSC connections that a station's outputs or a publication carry (spec/14_safety.md R392, R393): `carrier` 0 a
station, 1 a publication. -/
def State.carryPdus (carrier unit : Nat) (b : List Byte) (s : State) : List Byte × State :=
  if !(s.safRuns && s.wscSends) then (b, s)
  else (s.cfg.wsc.filter fun e => e.2.en && decide (e.2.carrier.toNat = carrier) && decide (e.2.unit = unit)).foldl
    (fun (r : List Byte × State) e =>
      let (p, t) := r.2.wscSend e.1
      (padTo e.2.at_ (r.1.take e.2.at_) ++ p ++ r.1.drop (e.2.at_ + p.length), t)) (b, s)

/-- The outputs of a station in the committed image of its class. -/
def State.stnImage (s : State) (k : StnCfg) : List Byte := (s.cmem k.cls).image.rdN k.outAt k.outLen

/-- The safe values of a station. -/
def stnSafe (k : StnCfg) : List Byte := slice k.safe 0 k.outLen

/-- The outputs of a station in TEST (Table 2.2): forced values over the program's values or the safe values. -/
def State.stnTest (s : State) (k : StnCfg) : List Byte :=
  if s.cfg.plantEn then s.stnImage k
  else (List.range k.outLen).map fun i =>
    if s.forcedAt k.cls (k.outAt + i) then (s.cmem k.cls).image.rd (k.outAt + i) else (stnSafe k).getD i 0

/-- The outputs of a station until the first commit of its class (spec/02_modes_and_startup.md R43; log entry 48): those that the mode
before required; after TAKEOVER and ACTIVATE the last committed image, as a repeat (spec/01_architecture.md R20). -/
def State.stnBefore (s : State) (k : StnCfg) : Option (Bool × List Byte) :=
  match s.sys.from_ with
  | .commission => some (false, if k.comm then s.stnImage k else stnSafe k)
  | .boot => none
  | .takeover | .activate => some (true, s.stnImage k)
  | _ => some (false, stnSafe k)

/-- What an OUTPUT frame of a station of configuration `k` carries in this mode, and whether it is the image (Table 2.2); `none`
where the mode sends none. -/
def State.outputOf (s : State) (k : StnCfg) : Option (Bool × List Byte) :=
  let before := s.stnBefore k
  let pre := (s.cmem k.cls).preRun
  match s.classMode k.cls with
  | .run => if pre then before else some (true, s.stnImage k)
  | .test => if pre then before else some (true, s.stnTest k)
  | .takeover | .activate => some (true, s.stnImage k)
  | .commission => some (false, if k.comm then s.stnImage k else stnSafe k)
  | .stop => some (false, stnSafe k)
  | .retain | .boot | .idleLink | .hold | .faultHalt | .recovery => none

/-- The stations of this module get frames from it: it drives, or it is a lone module in FAULT-HALT or RECOVERY whose NE0 is
healthy (R29, R31). -/
def State.safeFrames (s : State) : Bool :=
  s.running && s.sys.lone && !s.net.ne0Bad && decide (s.sys.mode = .faultHalt ∨ s.sys.mode = .recovery)

/-- The OUTPUT frame of station `i` leaves with its outputs `b`. -/
def State.sendOutput (i : Nat) (rep : Bool) (b : List Byte) (s : State) : State :=
  let (p, t) := s.carryPdus 0 i b
  t.sendIn .output (0x10000 + i) i rep ((s.cls (s.scfg i).cls).cycno.setWidth 16) 0 p

/-- The launch of station `i`: the image is a repeat where its class has not committed since the previous launch, and always in TAKEOVER
and ACTIVATE. -/
def State.launchOutput (i : Nat) (s : State) : State :=
  let k := s.scfg i
  let n := (s.cmem k.cls).commitNo
  if s.drives && !s.pwr.shutdown then
    match s.outputOf k with
    | some (true, b) =>
      let rep := decide ((s.stn i).sentNo = n) || (s.cmem k.cls).preRun || decide (s.sys.mode = .takeover ∨ s.sys.mode = .activate)
      (s.sendOutput i rep b).updStn i fun x => { x with sentNo := n }
    | some (false, b) => s.sendOutput i false b
    | none => s
  else if s.safeFrames then s.sendOutput i false (stnSafe k)
  else s

/-- OUTPUT_LAUNCH. -/
def execOutputLaunch (stn : Nat) (s : State) : Host.Outcome State Fault Refusal :=
  if s.stnSet stn then .next (s.launchOutput stn) else .next s

/-! LOOP_OUT frames (R289). -/

/-- The loop that writes entry `e` of station `i`. -/
def State.loopFor (s : State) (i e : Nat) : Option Nat :=
  (s.cfg.loops.find? fun l => decide (l.2.out.kind = 3) && decide (l.2.out.unit = i) && decide (l.2.out.idx = e)).map Prod.fst

/-- The loops whose outputs a LOOP_OUT of station `i` and period group `g` carries, in the order of the station's entries. -/
def State.groupLoops (s : State) (i g : Nat) : List Nat :=
  let es := s.stnLoops i
  (List.range es.length).filterMap fun e =>
    if (es.getD e (false, 0)).1 && decide ((entryPlace es e).1 = g) then s.loopFor i e else none

/-- LOOP_OUT of station `i` and period group `g`: what its loops write at the crease of the sample that the frame names. -/
def State.launchLoopOut (i g : Nat) (s : State) : State :=
  match s.groupLoops i g with
  | [] => s
  | n :: ns =>
    if (n :: ns).all fun j => (s.creaseOut j).1.isNone then s
    else s.sendIn .loopOut (0x30000 + 16 * i + g) i false (BitVec.ofNat 16 (s.loop n).sample) (BitVec.ofNat 4 g)
      ((n :: ns).flatMap fun j => le 4 ((s.creaseOut j).1.getD (s.loop j).out).toNat)

/-- LOOP_OUT_LAUNCH. -/
def execLoopOutLaunch (stn : Nat) (pgrp : BitVec 4) (s : State) : Host.Outcome State Fault Refusal :=
  if s.drives && !s.pwr.shutdown && s.loopsUp && s.stnSet stn then .next (s.launchLoopOut stn pgrp.toNat) else .next s

/-! Publications (R290). -/

/-- A publication leaves from the last committed globals of its class. -/
def State.launchPub (i : Nat) (s : State) : State :=
  let k := s.cfg.pubs.look i {}
  let m := s.cmem k.cls
  let (b, t) := s.carryPdus 1 i (m.globPub.rdN k.at_ k.len)
  let rep := decide (s.net.pubSent.look i 0 = m.commitNo)
  let u := t.sendIn .peer (0x80000 + i) i rep ((s.cls k.cls).cycno.setWidth 16) 0 b
  { u with net := { u.net with pubSent := u.net.pubSent.put i m.commitNo } }

/-- PEER_LAUNCH. -/
def execPeerLaunch (pub : Nat) (s : State) : Host.Outcome State Fault Refusal :=
  if s.drives && !s.pwr.shutdown && (s.cfg.pubs.find pub).isSome then .next (s.launchPub pub) else .next s

/-! Creases (spec/07_loop_engines.md R188). -/

/-- LOOP_CREASE; the LOOP_READ commands that wait take their records (R211). -/
def execLoopCrease (slot : Nat) (s : State) : Host.Outcome State Fault Refusal :=
  if s.loopsUp && s.loopSet slot then
    done s ((s.crease (fun o u t => if t.loopsDrive then t.writeOut o u else t) slot).answerLoopReads slot)
  else .next s

end Sys2Proof.Machine
end

