-- ==== Sys2Proof/Machine/Dispatch.lean ====
section
/-! DEFINITION. One arm per command: the call of its meaning. -/

namespace Sys2Proof.Machine

def exec (i : Instr) (s : State) : Host.Outcome State Fault Refusal :=
  match i with
  | .powerGood obs => Sys2Proof.Machine.execPowerGood obs s
  | .pcieConfigRequest => Sys2Proof.Machine.execPcieConfigRequest s
  | .tamperLatchSet cover => Sys2Proof.Machine.execTamperLatchSet cover s
  | .vretLost => Sys2Proof.Machine.execVretLost s
  | .pfailSet => Sys2Proof.Machine.execPfailSet s
  | .pfailClear low => Sys2Proof.Machine.execPfailClear low s
  | .inputLost => Sys2Proof.Machine.execInputLost s
  | .holdUpSpent => Sys2Proof.Machine.execHoldUpSpent s
  | .feedRangeChange feedB inRange mv => Sys2Proof.Machine.execFeedRangeChange feedB inRange mv s
  | .railFault rail mv => Sys2Proof.Machine.execRailFault rail mv s
  | .temperatureSample junction inlet => Sys2Proof.Machine.execTemperatureSample junction inlet s
  | .overtemperature => Sys2Proof.Machine.execOvertemperature s
  | .hkWatchdogExpiry => Sys2Proof.Machine.execHkWatchdogExpiry s
  | .engineWatchdogExpiry engine => Sys2Proof.Machine.execEngineWatchdogExpiry engine s
  | .clockFault => Sys2Proof.Machine.execClockFault s
  | .optimeSave => Sys2Proof.Machine.execOptimeSave s
  | .vretMeasurement mv => Sys2Proof.Machine.execVretMeasurement mv s
  | .slotPresenceLost => Sys2Proof.Machine.execSlotPresenceLost s
  | .registerWrite ini off val be => Sys2Proof.Machine.execRegisterWrite ini off val be s
  | .bitAliasWrite ini off val be => Sys2Proof.Machine.execBitAliasWrite ini off val be s
  | .postedWriteDone base => Sys2Proof.Machine.execPostedWriteDone base s
  | .postedBlockFailed base => Sys2Proof.Machine.execPostedBlockFailed base s
  | .pressGo ini off => Sys2Proof.Machine.execPressGo ini off s
  | .pressApply off => Sys2Proof.Machine.execPressApply off s
  | .voteSweep upset => Sys2Proof.Machine.execVoteSweep upset s
  | .paritySweep upset => Sys2Proof.Machine.execParitySweep upset s
  | .sysHlwKick val => Sys2Proof.Machine.execSysHlwKick val s
  | .hostLivenessExpiry => Sys2Proof.Machine.execHostLivenessExpiry s
  | .sysRestart val obs => Sys2Proof.Machine.execSysRestart val obs s
  | .pcieReset => Sys2Proof.Machine.execPcieReset s
  | .submissionDoorbell word val be => Sys2Proof.Machine.execSubmissionDoorbell word val be s
  | .completionDoorbell page val be => Sys2Proof.Machine.execCompletionDoorbell page val be s
  | .msixUnmask vector => Sys2Proof.Machine.execMsixUnmask vector s
  | .interruptCoalesceTimeout slot => Sys2Proof.Machine.execInterruptCoalesceTimeout slot s
  | .hostMemoryError err => Sys2Proof.Machine.execHostMemoryError err s
  | .windowEntryFlush => Sys2Proof.Machine.execWindowEntryFlush s
  | .mirrorAckTimeout rseq => Sys2Proof.Machine.execMirrorAckTimeout rseq s
  | .nop h => Sys2Proof.Machine.execNop h s
  | .identify h => Sys2Proof.Machine.execIdentify h s
  | .ringCreate h => Sys2Proof.Machine.execRingCreate h s
  | .ringDelete h => Sys2Proof.Machine.execRingDelete h s
  | .eventCreate h => Sys2Proof.Machine.execEventCreate h s
  | .eventDelete h => Sys2Proof.Machine.execEventDelete h s
  | .modeSetRun h => Sys2Proof.Machine.execModeSetRun h s
  | .modeSetStop h => Sys2Proof.Machine.execModeSetStop h s
  | .modeSetCommission h => Sys2Proof.Machine.execModeSetCommission h s
  | .modeSetTest h => Sys2Proof.Machine.execModeSetTest h s
  | .modeSetHold h => Sys2Proof.Machine.execModeSetHold h s
  | .modeSetHoldExit h => Sys2Proof.Machine.execModeSetHoldExit h s
  | .modeSetIdleLink h => Sys2Proof.Machine.execModeSetIdleLink h s
  | .modeSetIdleExit h obs => Sys2Proof.Machine.execModeSetIdleExit h obs s
  | .roleExchange h => Sys2Proof.Machine.execRoleExchange h s
  | .restart h obs => Sys2Proof.Machine.execRestart h obs s
  | .imageWrite h => Sys2Proof.Machine.execImageWrite h s
  | .imageVerify h => Sys2Proof.Machine.execImageVerify h s
  | .activateSwitch h => Sys2Proof.Machine.execActivateSwitch h s
  | .activateConfirm h => Sys2Proof.Machine.execActivateConfirm h s
  | .activateCancel h => Sys2Proof.Machine.execActivateCancel h s
  | .configReturn h => Sys2Proof.Machine.execConfigReturn h s
  | .attestQuote h => Sys2Proof.Machine.execAttestQuote h s
  | .tallyClear h => Sys2Proof.Machine.execTallyClear h s
  | .nopCommand h => Sys2Proof.Machine.execNopCommand h s
  | .varRead h => Sys2Proof.Machine.execVarRead h s
  | .varWrite h => Sys2Proof.Machine.execVarWrite h s
  | .forceSet h => Sys2Proof.Machine.execForceSet h s
  | .forceClear h => Sys2Proof.Machine.execForceClear h s
  | .loopRead h => Sys2Proof.Machine.execLoopRead h s
  | .loopWrite h => Sys2Proof.Machine.execLoopWrite h s
  | .tallyRead h => Sys2Proof.Machine.execTallyRead h s
  | .programLoadChange h => Sys2Proof.Machine.execProgramLoadChange h s
  | .programLoadReturn h => Sys2Proof.Machine.execProgramLoadReturn h s
  | .programLoadStatus h => Sys2Proof.Machine.execProgramLoadStatus h s
  | .classBoundary c mem work => Sys2Proof.Machine.execClassBoundary c mem work s
  | .outputCommit c work early => Sys2Proof.Machine.execOutputCommit c work early s
  | .softBudgetExpiry c => Sys2Proof.Machine.execSoftBudgetExpiry c s
  | .hardLimitExpiry c => Sys2Proof.Machine.execHardLimitExpiry c s
  | .intervalCheckpoint p work => Sys2Proof.Machine.execIntervalCheckpoint p work s
  | .earlyCheckpoint p work deferFull => Sys2Proof.Machine.execEarlyCheckpoint p work deferFull s
  | .checkpointSeal p => Sys2Proof.Machine.execCheckpointSeal p s
  | .comparatorMismatch p seen work => Sys2Proof.Machine.execComparatorMismatch p seen work s
  | .darnRestoreEnd p ns => Sys2Proof.Machine.execDarnRestoreEnd p ns s
  | .restoreTimeout p => Sys2Proof.Machine.execRestoreTimeout p s
  | .knownAnswerRun p => Sys2Proof.Machine.execKnownAnswerRun p s
  | .dbgHalt p pc work => Sys2Proof.Machine.execDbgHalt p pc work s
  | .dbgStep p pc work => Sys2Proof.Machine.execDbgStep p pc work s
  | .dbgResume p => Sys2Proof.Machine.execDbgResume p s
  | .breakpointHit p bp work => Sys2Proof.Machine.execBreakpointHit p bp work s
  | .minorFrameStart e => Sys2Proof.Machine.execMinorFrameStart e s
  | .loopPhase0 slot => Sys2Proof.Machine.execLoopPhase0 slot s
  | .loopStep slot flip => Sys2Proof.Machine.execLoopStep slot flip s
  | .loopCrease slot => Sys2Proof.Machine.execLoopCrease slot s
  | .loopCmdRearm w ini => Sys2Proof.Machine.execLoopCmdRearm w ini s
  | .loopCmdManual w ini => Sys2Proof.Machine.execLoopCmdManual w ini s
  | .loopCmdAuto w ini => Sys2Proof.Machine.execLoopCmdAuto w ini s
  | .exchangeInstant => Sys2Proof.Machine.execExchangeInstant s
  | .packageStoreDone => Sys2Proof.Machine.execPackageStoreDone s
  | .standbyReadyTimeout => Sys2Proof.Machine.execStandbyReadyTimeout s
  | .heartbeatSend lane => Sys2Proof.Machine.execHeartbeatSend lane s
  | .heartbeat lane hb => Sys2Proof.Machine.execHeartbeat lane hb s
  | .heartbeatMissed lane => Sys2Proof.Machine.execHeartbeatMissed lane s
  | .rseqGapTimeout => Sys2Proof.Machine.execRseqGapTimeout s
  | .ack r => Sys2Proof.Machine.execAck r s
  | .hostwork r => Sys2Proof.Machine.execHostwork r s
  | .lines r => Sys2Proof.Machine.execLines r s
  | .commitEnd r => Sys2Proof.Machine.execCommitEnd r s
  | .loopState r => Sys2Proof.Machine.execLoopState r s
  | .loopGroup r => Sys2Proof.Machine.execLoopGroup r s
  | .tallyHdrs r => Sys2Proof.Machine.execTallyHdrs r s
  | .tallyHdrsSend => Sys2Proof.Machine.execTallyHdrsSend s
  | .versions r => Sys2Proof.Machine.execVersions r s
  | .window r => Sys2Proof.Machine.execWindow r s
  | .image r => Sys2Proof.Machine.execImage r s
  | .noticeFailure r => Sys2Proof.Machine.execNoticeFailure r s
  | .noticeHalt r => Sys2Proof.Machine.execNoticeHalt r s
  | .noticeHandover r => Sys2Proof.Machine.execNoticeHandover r s
  | .noticeHandback r => Sys2Proof.Machine.execNoticeHandback r s
  | .noticeRingAbsent r => Sys2Proof.Machine.execNoticeRingAbsent r s
  | .noticeProofFail r => Sys2Proof.Machine.execNoticeProofFail r s
  | .noticeCutIn r => Sys2Proof.Machine.execNoticeCutIn r s
  | .noticeReady r => Sys2Proof.Machine.execNoticeReady r s
  | .noticeCheckFailed r => Sys2Proof.Machine.execNoticeCheckFailed r s
  | .initialSyncStart => Sys2Proof.Machine.execInitialSyncStart s
  | .cutIn => Sys2Proof.Machine.execCutIn s
  | .syncAbandon => Sys2Proof.Machine.execSyncAbandon s
  | .handoverBoundary => Sys2Proof.Machine.execHandoverBoundary s
  | .proofSwapDue => Sys2Proof.Machine.execProofSwapDue s
  | .proofWindowEnd => Sys2Proof.Machine.execProofWindowEnd s
  | .partnerSearchTimeout => Sys2Proof.Machine.execPartnerSearchTimeout s
  | .absentWaitExpiry => Sys2Proof.Machine.execAbsentWaitExpiry s
  | .dpxClaim val => Sys2Proof.Machine.execDpxClaim val s
  | .linkChange port up speed full sfp => Sys2Proof.Machine.execLinkChange port up speed full sfp s
  | .beaconSlot => Sys2Proof.Machine.execBeaconSlot s
  | .beacon f => Sys2Proof.Machine.execBeacon f s
  | .input f => Sys2Proof.Machine.execInput f s
  | .loopIn f => Sys2Proof.Machine.execLoopIn f s
  | .outputLaunch stn => Sys2Proof.Machine.execOutputLaunch stn s
  | .loopOutLaunch stn pgrp => Sys2Proof.Machine.execLoopOutLaunch stn pgrp s
  | .paramAck f => Sys2Proof.Machine.execParamAck f s
  | .paramRetry stn => Sys2Proof.Machine.execParamRetry stn s
  | .paramPeriodic stn => Sys2Proof.Machine.execParamPeriodic stn s
  | .eliminationHistoryReset key => Sys2Proof.Machine.execEliminationHistoryReset key s
  | .peer f => Sys2Proof.Machine.execPeer f s
  | .peerLaunch pub => Sys2Proof.Machine.execPeerLaunch pub s
  | .peerTimeout sub => Sys2Proof.Machine.execPeerTimeout sub s
  | .mgmt f h => Sys2Proof.Machine.execMgmt f h s
  | .syncMeasurement d theta gm => Sys2Proof.Machine.execSyncMeasurement d theta gm s
  | .timDomMeas d val => Sys2Proof.Machine.execTimDomMeas d val s
  | .clockSet => Sys2Proof.Machine.execClockSet s
  | .domainHoldover d => Sys2Proof.Machine.execDomainHoldover d s
  | .holdoverTimeout d => Sys2Proof.Machine.execHoldoverTimeout d s
  | .revertTimer => Sys2Proof.Machine.execRevertTimer s
  | .timRealign val => Sys2Proof.Machine.execTimRealign val s
  | .txTimestamp port tag frac => Sys2Proof.Machine.execTxTimestamp port tag frac s
  | .launchLate port => Sys2Proof.Machine.execLaunchLate port s
  | .captureEdge inp rising frac => Sys2Proof.Machine.execCaptureEdge inp rising frac s
  | .toutEdge => Sys2Proof.Machine.execToutEdge s
  | .canFrameReceived ch fr sof => Sys2Proof.Machine.execCanFrameReceived ch fr sof s
  | .protocolException ch xl => Sys2Proof.Machine.execProtocolException ch xl s
  | .txqPoll ch => Sys2Proof.Machine.execTxqPoll ch s
  | .attemptStart ch => Sys2Proof.Machine.execAttemptStart ch s
  | .attemptEnd ch out => Sys2Proof.Machine.execAttemptEnd ch out s
  | .canError ch kind dataPhase tx inc => Sys2Proof.Machine.execCanError ch kind dataPhase tx inc s
  | .canCmdRecover ch ini => Sys2Proof.Machine.execCanCmdRecover ch ini s
  | .busOffRecoveryDone ch => Sys2Proof.Machine.execBusOffRecoveryDone ch s
  | .diFilterChange ch level => Sys2Proof.Machine.execDiFilterChange ch level s
  | .localApply c pins => Sys2Proof.Machine.execLocalApply c pins s
  | .rberrOnset ch => Sys2Proof.Machine.execRberrOnset ch s
  | .dioTrip ch how => Sys2Proof.Machine.execDioTrip ch how s
  | .dioRetry ch => Sys2Proof.Machine.execDioRetry ch s
  | .retriesReset ch => Sys2Proof.Machine.execRetriesReset ch s
  | .fioDioRearm val => Sys2Proof.Machine.execFioDioRearm val s
  | .feedLost group mv => Sys2Proof.Machine.execFeedLost group mv s
  | .feedReturn group => Sys2Proof.Machine.execFeedReturn group s
  | .aiConversion ch x full fault => Sys2Proof.Machine.execAiConversion ch x full fault s
  | .aoComply ch tenthUa => Sys2Proof.Machine.execAoComply ch tenthUa s
  | .aoOpen ch tenthUa => Sys2Proof.Machine.execAoOpen ch tenthUa s
  | .aoConditionClear ch tenthUa => Sys2Proof.Machine.execAoConditionClear ch tenthUa s
  | .pwrLim ch e => Sys2Proof.Machine.execPwrLim ch e s
  | .strapChange g fitted => Sys2Proof.Machine.execStrapChange g fitted s
  | .captLo ch mean => Sys2Proof.Machine.execCaptLo ch mean s
  | .captHi ch mean => Sys2Proof.Machine.execCaptHi ch mean s
  | .store ch => Sys2Proof.Machine.execStore ch s
  | .discard ch => Sys2Proof.Machine.execDiscard ch s
  | .factory ch => Sys2Proof.Machine.execFactory ch s
  | .driveLo ch => Sys2Proof.Machine.execDriveLo ch s
  | .driveHi ch => Sys2Proof.Machine.execDriveHi ch s
  | .hartPoll ch => Sys2Proof.Machine.execHartPoll ch s
  | .hartHctlGo val => Sys2Proof.Machine.execHartHctlGo val s
  | .hartTransactionEnd ch out retries => Sys2Proof.Machine.execHartTransactionEnd ch out retries s
  | .selvedgeSample x sp => Sys2Proof.Machine.execSelvedgeSample x sp s
  | .discrepancy input => Sys2Proof.Machine.execDiscrepancy input s
  | .resetStuck => Sys2Proof.Machine.execResetStuck s
  | .spCycle r => Sys2Proof.Machine.execSpCycle r s
  | .testPulse second => Sys2Proof.Machine.execTestPulse second s
  | .outFault k => Sys2Proof.Machine.execOutFault k s
  | .darkTest k ok => Sys2Proof.Machine.execDarkTest k ok s
  | .overcurrent k => Sys2Proof.Machine.execOvercurrent k s
  | .supply mv => Sys2Proof.Machine.execSupply mv s
  | .agree d => Sys2Proof.Machine.execAgree d s
  | .selvedgeChallenge ok => Sys2Proof.Machine.execSelvedgeChallenge ok s
  | .wscPduReceive conn pdu primarySeq => Sys2Proof.Machine.execWscPduReceive conn pdu primarySeq s
  | .wscDeadline conn => Sys2Proof.Machine.execWscDeadline conn s
  | .tallyWrite => Sys2Proof.Machine.execTallyWrite s
  | .tlyRdseq val => Sys2Proof.Machine.execTlyRdseq val s
  | .tlyClrkey val => Sys2Proof.Machine.execTlyClrkey val s
  | .rinseRead e0 e1 m0 m1 behind => Sys2Proof.Machine.execRinseRead e0 e1 m0 m1 behind s
  | .correctedWriteBack line => Sys2Proof.Machine.execCorrectedWriteBack line s
  | .sramSweep ce refetch dbl => Sys2Proof.Machine.execSramSweep ce refetch dbl s
  | .mramScrub ce errs => Sys2Proof.Machine.execMramScrub ce errs s
  | .memInjArm => Sys2Proof.Machine.execMemInjArm s
  | .bootLdKey val image => Sys2Proof.Machine.execBootLdKey val image s
  | .warmSwitch => Sys2Proof.Machine.execWarmSwitch s
  | .scheduledSwitch => Sys2Proof.Machine.execScheduledSwitch s
  | .settleEnd fail => Sys2Proof.Machine.execSettleEnd fail s
  | .autoConfirm => Sys2Proof.Machine.execAutoConfirm s
  | .holdupOkChange mv => Sys2Proof.Machine.execHoldupOkChange mv s
  | .ptpMessage port m d gm tag ns => Sys2Proof.Machine.execPtpMessage port m d gm tag ns s
  | .ptpTransmit port m tag => Sys2Proof.Machine.execPtpTransmit port m tag s
  | .areaWriteComplete area obs => Sys2Proof.Machine.execAreaWriteComplete area obs s
  | .ringStartupTimeout => Sys2Proof.Machine.execRingStartupTimeout s
  | .hartBurstMessage ch bytes => Sys2Proof.Machine.execHartBurstMessage ch bytes s

end Sys2Proof.Machine
end

