-- ==== Sys2Proof/Machine/Reads.lean ====
section
/-! DEFINITION. What a read of a register returns (spec/03_register_conventions.md R62 to R66): the content of every read-only register,
by block. A read has no side effect (R63), so it is no command: what an observer of the register space sees. -/

namespace Sys2Proof.Machine

/-- The code of a domain's state in TIM_DOM_STAT (spec/11_tim_clock_domains.md Table 11.3). -/
def DomState.code : DomState → Nat
  | .off => 0
  | .acquiring => 1
  | .locked => 2
  | .holdover => 3
  | .refused => 4

/-- A read-only register or array: its BAR0 offset, stride and count, and the content of register `i` of it. -/
abbrev RoRow := Nat × Nat × Nat × (Nat → Word)

/-- The content at `o` that a list of rows gives. -/
def roAt : List RoRow → Nat → Option Word
  | [], _ => none
  | (b, st, n, f) :: rs, o =>
    if st = 0 then (if o = b then some (f 0) else roAt rs o)
    else if b ≤ o ∧ (o - b) % st = 0 ∧ (o - b) / st < n then some (f ((o - b) / st)) else roAt rs o

/-- A number as a register word. -/
abbrev w32 (n : Nat) : Word := BitVec.ofNat 32 n

/-- Fields of a word: `(position, value)`. -/
abbrev wf (fs : List (Nat × Nat)) : Word := wordOf fs

/-- BLOCK_PSTAT of the block or channel at `base` (Table 3.3). -/
def State.pstat (s : State) (base : Nat) : Word :=
  let p := s.posted.look base {}
  wf [(0, bit p.busy.isSome), (16, p.lostwr.toNat)]

/-- SYS (spec/03_register_conventions.md Table 3.9). -/
def State.roSys (s : State) : List RoRow := [
  (Reg.sysId, 0, 1, fun _ => s.sysId),
  (Reg.sysUidLo, 0, 1, fun _ => s.sys.uid.setWidth 32),
  (Reg.sysUidHi, 0, 1, fun _ => (s.sys.uid >>> 32).setWidth 32),
  (Reg.sysSlot, 0, 1, fun _ => s.sysSlot),
  (Reg.sysMode, 0, 1, fun _ => s.sysMode),
  (Reg.sysCap, 0, 1, fun _ => sysCap),
  (Reg.sysFault, 0, 1, fun _ => s.sysFault),
  (Reg.sysVoteAddr, 0, 1, fun _ => s.sys.voteAddr),
  (Reg.sysVotefix, 0, 1, fun _ => s.sys.voteFix),
  (Reg.sysVotefail, 0, 1, fun _ => s.sys.voteFail),
  (Reg.sysAccfault, 0, 1, fun _ =>
    wf [(0, s.sys.partial_.toNat), (8, s.sys.unassigned.toNat), (16, s.sys.roWr.toNat), (24, s.sys.seqErr.toNat)]),
  (Reg.sysAccaddr, 0, 1, fun _ => s.sys.accAddr),
  (Reg.sysOptimeLo, 0, 1, fun _ => w32 s.opMs),
  (Reg.sysOptimeHi, 0, 1, fun _ => w32 (s.opMs / 2 ^ 32 % 2 ^ 16)),
  (Reg.sysPwrcyc, 0, 1, fun _ => s.sys.pwrcyc),
  (Reg.sysIsland, 0, 1, fun _ => w32 s.sys.island.toNat)]

/-- HIF (spec/04_host_rings.md Table 4.12). -/
def State.roHif (s : State) : List RoRow := [
  (Reg.hifStat, 0, 1, fun _ => wf [(0, bit s.hif.ready), (1, bit s.hif.adminLive)]),
  (Reg.hifLink, 0, 1, fun _ => wf [(0, s.hif.speed.toNat), (4, s.hif.width.toNat), (9, bit s.hif.l1)]),
  (Reg.hifRingHalt, 0, 1, fun _ => maskOf 17 (fun n => (s.ring n).halted) ||| wf [(17, bit s.hif.ev.halted)]),
  (Reg.hifRingLive, 0, 1, fun _ => maskOf 17 (fun n => (s.ring n).live && !(s.ring n).halted) |||
    wf [(17, bit (s.hif.ev.live && !s.hif.ev.halted))]),
  (Reg.hifErrinfo, 0, 1, fun _ => s.hif.errInfo),
  (Reg.hifDmaerr, 0, 1, fun _ => s.hif.dmaErr),
  (Reg.hifDupcnt, 0, 1, fun _ => s.hif.dupCnt),
  (Reg.hifStalecnt, 0, 1, fun _ => s.hif.staleCnt),
  (Reg.hifJrnl, 0, 1, fun _ => w32 s.journalKib),
  (Reg.hifEvtlost, 0, 1, fun _ => s.hif.evtLost),
  (Reg.hifHighLo, 0x10, 17, fun n => (s.hif.wins.look n {}).high.setWidth 32),
  (Reg.hifHighHi, 0x10, 17, fun n => ((s.hif.wins.look n {}).high >>> 32).setWidth 32),
  (Reg.hifSqhead, 0x10, 17, fun n => w32 (s.ring n).sqHead),
  (Reg.hifCqtail, 0x10, 18, fun n => if n = 17 then w32 s.hif.ev.tail else w32 (s.ring n).cqTail)]

/-- CYC_CLS_CFG (spec/05_cyclic_execution.md Table 5.11). -/
def State.clsCfgWord (s : State) (c : Nat) : Word :=
  let k := s.ccfg c
  if !k.en then 0
  else wf [(0, k.pair), (2, s.rank c), (5, bit k.skippable), (6, 1), (7, bit k.mirror)]

/-- CYC_CLS_STAT (spec/05_cyclic_execution.md Table 5.12). -/
def Cls.stat (x : Cls) : Word :=
  wf [(0, bit x.active), (1, bit x.late), (2, bit x.overSoft), (3, bit x.held), (4, bit (x.active && x.first))]

/-- CYC (spec/05_cyclic_execution.md Table 5.10). -/
def State.roCyc (s : State) : List RoRow := [
  (Reg.cycStat, 0, 1, fun _ => wf [(0, bit s.cycles), (8, (maskOf 8 fun c => (s.ccfg c).en).toNat),
    (16, (maskOf 8 fun c => (s.cls c).late).toNat)]),
  (Reg.cycForces, 0, 1, fun _ => w32 s.cyc.forces.length),
  (Reg.cycPendwr, 0, 1, fun _ => maskOf 8 fun c => !(s.cmem c).pendWr.isEmpty),
  (Reg.cycPairLoad, 4, 4, fun p => let l := ((s.pair p).load s.tim.ns).toNat
    wf [(0, l), (16, max l (s.cyc.loadMax.look p 0).toNat)]),
  (Reg.cycClsCfg, 0x40, 8, s.clsCfgWord),
  (Reg.cycClsCycle, 0x40, 8, fun c => w32 (s.ccfg c).cycUs),
  (Reg.cycClsStat, 0x40, 8, fun c => (s.cls c).stat),
  (Reg.cycClsCycnoLo, 0x40, 8, fun c => (s.cls c).cycno.setWidth 32),
  (Reg.cycClsCycnoHi, 0x40, 8, fun c => ((s.cls c).cycno >>> 32).setWidth 32),
  (Reg.cycClsExec, 0x40, 8, fun c => (s.cls c).exec),
  (Reg.cycClsExecmax, 0x40, 8, fun c => (s.cls c).execMax),
  (Reg.cycClsOvrcnt, 0x40, 8, fun c => (s.cls c).ovrCnt),
  (Reg.cycClsLatecnt, 0x40, 8, fun c => (s.cls c).lateCnt),
  (Reg.cycClsSkipcnt, 0x40, 8, fun c => (s.cls c).skipCnt),
  (Reg.cycClsErrtask, 0x40, 8, fun c => let x := s.cls c
    wf [(0, x.etOver.toNat), (8, x.etStn.toNat), (16, x.etTake.toNat), (24, x.etSkip.toNat)])]

/-- LSP_PAIR_STAT (spec/06_lockstep_and_darn.md Table 6.7). -/
def Pair.stat (q : Pair) : Word :=
  let f := fun (b : Bool) => bit (b && !q.failed)
  wf [(0, bit q.failed), (1, f q.broken), (2, f q.restoring), (3, f q.reexec), (4, f q.idle), (5, q.cls), (8, q.resume.length),
    (16, q.ckseq.toNat % 2 ^ 16)]

/-- LSP (spec/06_lockstep_and_darn.md Table 6.5). -/
def State.roLsp (s : State) : List RoRow := [
  (Reg.lspStat, 0, 1, fun _ => wf [(0, bit (s.lsp.anyV Pair.broken)), (1, bit (s.lsp.anyV Pair.failed)),
    (4, (maskOf 4 fun p => (s.pair p).broken).toNat), (8, (maskOf 4 fun p => (s.pair p).failed).toNat),
    (12, (maskOf 4 fun p => (s.pair p).restoring).toNat)]),
  (Reg.lspPairStat, 0x80, 4, fun p => (s.pair p).stat),
  (Reg.lspPairCkmax, 0x80, 4, fun p => s.cfg.regs.look (Reg.lspPairCkmax + 0x80 * p) 0),
  (Reg.lspPairDarncnt, 0x80, 4, fun p => (s.pair p).darnCnt),
  (Reg.lspPairDarnhr, 0x80, 4, fun p =>
    w32 ((s.pair p).darnTimes.countP (fun t => decide (s.sys.opNs < t + 3600000000000)) % 2 ^ 16)),
  (Reg.lspPairCkptcnt, 0x80, 4, fun p => (s.pair p).ckptCnt),
  (Reg.lspPairEarlycnt, 0x80, 4, fun p => wf [(0, (s.pair p).earlyLog.toNat), (16, (s.pair p).earlyDef.toNat)]),
  (Reg.lspPairFillmax, 0x80, 4, fun p => wf [(0, (s.pair p).fillLog), (16, (s.pair p).fillDef)]),
  (Reg.lspPairMminfo, 0x80, 4, fun p => (s.pair p).mminfo),
  (Reg.lspPairMmtime, 0x80, 4, fun p => (s.pair p).mmTime),
  (Reg.lspPairRestmax, 0x80, 4, fun p => (s.pair p).restMax),
  (Reg.lspPairDbgStat, 0x80, 4, fun p => let q := s.pair p
    wf [(0, bit q.halted), (1, bit q.bpHit), (2, q.bpNo.toNat), (4, bit q.stepped), (16, q.dbgDropped.toNat)]),
  (Reg.lspPairDbgPc, 0x80, 4, fun p => if (s.pair p).halted then (s.pair p).pc else 0)]

/-- The loops of engine `e`. -/
def State.engLoops (s : State) (e : Nat) : List (Nat × LoopCfg) := s.cfg.loops.filter fun l => decide (l.1 / 1024 = e)

/-- The configured load of engine `e` in 0.01 % of 24,000,000 standard steps per second (spec/07_loop_engines.md Table 7.7). -/
def State.engLoad (s : State) (e : Nat) : Nat :=
  ((s.engLoops e).map fun l => if l.2.ns = 0 then 0 else l.2.cost * 20000000000 / l.2.ns).sum / 1000 / 2400

/-- CLE_LOOP (spec/07_loop_engines.md Table 7.15). -/
def State.loopWord (s : State) (n : Nat) : Word :=
  let c := s.lcfg n
  wf [(0, n / 1024), (2, 1), (3, bit c.sched), (4, bit c.linear), (5, c.law), (10, bit c.reverse), (11, bit c.chk), (12, bit c.remoteFb),
    (13, bit c.remoteOut), (14, bit c.spExt), (16, c.owner)]

/-- A register of the window at place `k`, of loop `n` (spec/07_loop_engines.md Table 7.14). -/
def State.winWord (s : State) (n k : Nat) : Word :=
  let l := s.loop n
  let c := s.lcfg n
  if k = 0x04 then s.loopWord n
  else if k = 0x08 then wf [(0, c.period), (16, c.crease)]
  else if k = 0x0C then s.loopStat n
  else if k = 0x34 then l.out
  else if k = 0x38 then l.fb
  else if k = 0x3C then l.dyn.look 0 0
  else if 0x80 ≤ k ∧ k < 0xC0 then l.activeWord c ((k - 0x80) / 4)
  else if k = 0xC0 then wf [(0, l.schPt.toNat), (16, l.schF.toNat)]
  else if k = 0xC4 then wf [(0, l.cntSat.toNat), (8, l.cntFbl.toNat), (16, l.cntChk.toNat), (24, l.cntRef.toNat)]
  else if k = 0xC8 then l.setpoint c
  else if k = 0xCC then l.op.mout
  else 0

/-- CLE (spec/07_loop_engines.md Table 7.14) but for the windows. -/
def State.roCle (s : State) : List RoRow := [
  (Reg.cleStat, 0, 1, fun _ => wf [(0, (maskOf 4 fun e => (s.eng e).runs).toNat), (4, bit s.cle.chk0), (5, bit s.cle.chk1)]),
  (Reg.cleEngLoad, 4, 4, fun e => wf [(0, s.engLoad e), (16, (s.engLoops e).length)]),
  (Reg.cleEngSlack, 4, 4, fun e => (s.eng e).slack),
  (Reg.cleEngEntries, 4, 4, fun e => w32 (s.eng e).frame.length),
  (Reg.cleEngNanin, 4, 4, fun e => (s.eng e).nanin),
  (Reg.cleChkmm, 4, 2, fun k => if k = 0 then s.cle.mm0 else s.cle.mm1),
  (Reg.cleFbl, 4, 128, fun i => maskOf 32 fun b => (s.loop (32 * i + b)).fbl),
  (Reg.cleSat, 4, 128, fun i => maskOf 32 fun b => (s.loop (32 * i + b)).sat),
  (Reg.cleMan, 4, 128, fun i => maskOf 32 fun b => (s.loop (32 * i + b)).man)]

/-- DPX_MIRROR (spec/09_duplex_pair.md R245): the changed KiB of the last complete 1 ms window of full time, and the highest. -/
def State.mirrorWord (s : State) : Word :=
  let e := s.dpx2
  let w := s.tim.ns / 1000000
  let n := e.mirB / 1024
  if w = e.mirWin then wf [(0, e.mirKib.toNat), (16, e.mirMax.toNat)]
  else wf [(0, if w = e.mirWin + 1 then n else 0), (16, max e.mirMax.toNat n)]

/-- DPX (spec/09_duplex_pair.md Table 9.8). -/
def State.roDpx (s : State) : List RoRow :=
  let d := s.dpx
  let e := s.dpx2
  [ (Reg.dpxStat, 0, 1, fun _ => s.dpxStat),
    (Reg.dpxEpoch, 0, 1, fun _ => d.eOwn),
    (Reg.dpxEpochSeen, 0, 1, fun _ => d.eSeen),
    (Reg.dpxPartner, 0, 1, fun _ => wf [(0, if s.cfg.partner then s.cfg.partnerNode.toNat else 0), (24, d.partnerMode.toNat),
      (28, bit d.partnerRole)]),
    (Reg.dpxLane, 4, 2, fun n => if n = 0 then wf [(0, bit d.up0), (8, d.miss0.toNat), (16, d.crc0.toNat)]
      else wf [(0, bit d.up1), (8, d.miss1.toNat), (16, d.crc1.toNat)]),
    (Reg.dpxHblost, 0, 1, fun _ => d.hbLost),
    (Reg.dpxAlign, 0, 1, fun _ => w32 s.cfg.alignUs),
    (Reg.dpxGapLast, 0, 1, fun _ => e.gapLast),
    (Reg.dpxGapMax, 0, 1, fun _ => e.gapMax),
    (Reg.dpxTocnt, 0, 1, fun _ => wf [(0, e.toDet.toNat), (16, e.toCmd.toNat)]),
    (Reg.dpxMirror, 0, 1, fun _ => s.mirrorWord),
    (Reg.dpxBacklog, 0, 1, fun _ => w32 (min 8192 ((s.backlogNow + 1023) / 1024))),
    (Reg.dpxAckto, 0, 1, fun _ => e.ackTo),
    (Reg.dpxSynccnt, 0, 1, fun _ => wf [(0, e.syncDone.toNat), (16, e.syncAband.toNat)]),
    (Reg.dpxSyncprog, 0, 1, fun _ => w32 e.syncMib.toNat),
    (Reg.dpxPsNext, 0, 1, fun _ => e.psNext),
    (Reg.dpxPsLast, 0, 1, fun _ => wf [(0, e.psResult.toNat), (4, e.psCheck.toNat), (8, e.psRing.toNat), (16, e.psCnt.toNat)]),
    (Reg.dpxStepdown, 0, 1, fun _ => e.stepDown),
    (Reg.dpxOrphan, 0, 1, fun _ => w32 (s.hif.journal.countP JRec.orphan % 2 ^ 16))]

/-- NET (spec/10_io_network.md Table 10.8); a ring that is not configured reads 0 in all its registers (R294). -/
def State.roNet (s : State) : List RoRow :=
  let ring (f : Nat → Word) (r : Nat) : Word := if s.ringSet r then f r else 0
  let sel := bits (s.reg Reg.netStnSel) 0 10
  let x := s.stn sel
  [ (Reg.netStat, 0, 1, fun _ => wf [(0, (maskOf 4 fun r => s.ringSet r && (s.nring r).opened).toNat), (4, (maskOf 4 s.ringSet).toNat), (8, bit (s.portUp 4)),
      (9, bit (s.portUp 5)), (10, bit (s.portUp 6)), (16, s.net.stns.countV Stn.failed)]),
    (Reg.netPort, 4, 7, fun n => let p := s.net.ports.look n {}
      wf [(0, bit p.link), (1, bit p.held), (2, p.speed.toNat), (4, bit p.full), (16, p.fcs.toNat)]),
    (Reg.netStnInfo, 0, 1, fun _ => if s.stnSet sel then wf [(0, (s.scfg sel).node.toNat), (18, 1), (19, (s.scfg sel).cls)] else 0),
    (Reg.netStnStat, 0, 1, fun _ => wf [(0, bit x.failed), (1, bit x.rejoining), (2, bit x.paramPend), (8, x.last0.toNat)]),
    (Reg.netStnCnt, 0, 1, fun _ => wf [(0, x.missLatch.toNat), (8, x.timesFailed.toNat), (16, x.rejoins.toNat), (24, x.single.toNat)]),
    (Reg.netRingCfg, 0x40, 4, ring fun r => let c := s.cfg.rings.look r {}
      wf [(0, c.seg.toNat), (10, c.vid.toNat), (22, c.n), (31, bit c.slow)]),
    (Reg.netRingStat, 0x40, 4, ring fun r => let c := s.nring r
      wf [(0, bit c.opened), (1, bit c.east), (2, bit c.west)]),
    (Reg.netRingLoad, 0x40, 4, ring fun r => w32 (s.cfg.rings.look r {}).load.toNat),
    (Reg.netRingElim, 0x40, 4, ring fun r => (s.nring r).elim),
    (Reg.netRingSingle, 0x40, 4, ring fun r => (s.nring r).single),
    (Reg.netRingDisc, 0x40, 4, ring fun r => (s.nring r).disc),
    (Reg.netRingLate, 0x40, 4, ring fun r => (s.nring r).late),
    (Reg.netRingOpencnt, 0x40, 4, ring fun r => (s.nring r).openCnt),
    (Reg.netPeerStat, 0, 1, fun _ => wf [(0, s.net.subs.countV Sub.failed), (16, s.cfg.pubs.length)]),
    (Reg.netPeerElim, 0, 1, fun _ => s.net.peerElim),
    (Reg.netPeerDisc, 0, 1, fun _ => s.net.peerDisc),
    (Reg.netStnFailed, 4, 32, fun i => maskOf 32 fun b => (s.stn (32 * i + b)).failed),
    (Reg.netPeerFailed, 4, 8, fun i => maskOf 32 fun b => (s.net.subs.look (32 * i + b) {}).failed)]

/-- f in 0.001 ppb, rounded to nearest (spec/11_time.md Table 11.6, TIM_FREQ). -/
def Tim.freqWord (t : Tim) : Word :=
  let u : Int := 65536 * 1000000
  BitVec.ofInt 32 ((2 * t.f + u).fdiv (2 * u))

/-- TIM (spec/11_time.md Tables 11.6 to 11.8); a domain that is not enabled reads 0 in every register (R320). -/
def State.roTim (s : State) : List RoRow :=
  let t := s.tim
  let dm (f : Nat → Word) (d : Nat) : Word := if s.domEn d then f d else 0
  [ (Reg.timStat, 0, 1, fun _ => wf [(0, bit t.set), (1, bit t.sel), (2, bit (t.doms.anyV fun d => decide (d.state = .refused))),
      (3, bit s.inHoldover), (4, s.srcEff), (6, bit t.slewLim), (7, bit t.iClamp),
      (8, (maskOf 7 fun p => decide ((s.tport p).queue.length = 64)).toNat)]),
    (Reg.timNowNs, 0, 1, fun _ => w32 s.nanos),
    (Reg.timNowSlo, 0, 1, fun _ => w32 s.secs),
    (Reg.timNowShi, 0, 1, fun _ => w32 (s.secs / 2 ^ 32 % 2 ^ 16)),
    (Reg.timNowShort, 0, 1, fun _ => s.short),
    (Reg.timFreq, 0, 1, fun _ => t.freqWord),
    (Reg.timStepcnt, 0, 1, fun _ => t.stepCnt),
    (Reg.timSwcnt, 0, 1, fun _ => t.swCnt),
    (Reg.timSetcnt, 0, 1, fun _ => t.setCnt),
    (Reg.timDomCfg, 0x40, 2, dm fun d => s.liveReg (Reg.timDomCfg + 0x40 * d)),
    (Reg.timDomStat, 0x40, 2, dm fun d => let x := s.dom d
      wf [(0, DomState.code x.state), (3, bit (decide (t.sel = decide (d = 1)))), (4, bit x.agree), (8, x.good)]),
    (Reg.timDomOfs, 0x40, 2, dm fun d => satInt (s.dom d).ofs),
    (Reg.timDomOfsmax, 0x40, 2, dm fun d => satInt (s.dom d).ofsMax),
    (Reg.timDomShort, 0x40, 2, dm fun d => if s.domLocked d then s.short + BitVec.ofInt 32 (s.dom d).ofs else 0),
    (Reg.timDomGmidLo, 0x40, 2, dm fun d => (s.dom d).gmid.setWidth 32),
    (Reg.timDomGmidHi, 0x40, 2, dm fun d => ((s.dom d).gmid >>> 32).setWidth 32),
    (Reg.timDomMeascnt, 0x40, 2, dm fun d => wf [(0, (s.dom d).acc.toNat), (16, (s.dom d).rej.toNat)]),
    (Reg.timTsqStat, 0x10, 7, fun p => let n := (s.tport p).queue.length
      wf [(0, n), (7, bit (decide (n = 64)))]),
    (Reg.timTsqLost, 0x10, 7, fun p => (s.tport p).lost),
    (Reg.timPortLate, 0x10, 7, fun p => (s.tport p).late),
    (Reg.timPortPdelay, 0x10, 7, fun p => (s.tport p).pdelay),
    (Reg.timCapNs, 0x10, 2, fun c => (t.caps.look c {}).ns),
    (Reg.timCapSlo, 0x10, 2, fun c => (t.caps.look c {}).slo),
    (Reg.timCapInfo, 0x10, 2, fun c => let x := t.caps.look c {}
      wf [(0, x.frac.toNat), (2, bit x.edge), (16, x.count.toNat)]),
    (Reg.timCapMissed, 0x10, 2, fun c => (t.caps.look c {}).missed)]

/-- CAN_STAT (spec/12_can.md Table 12.13). -/
def State.canStat (s : State) (c : Nat) : Word :=
  let x := s.chan c
  wf [(0, x.estate.toNat), (2, bit x.txErr), (3, bit x.rx0Err), (4, bit x.rx1Err), (5, bit x.listen), (6, bit x.off), (7, bit x.txActive),
    (8, bit (s.rxFull c 1)), (9, bit (s.rxFull c 2)), (10, bit (decide (96 ≤ x.tec) || decide (96 ≤ x.recv))), (11, bit x.pex),
    (12, bit ((s.press.look (canReg c 0x20) {}).pend))]

/-- CAN (spec/12_can.md Table 12.12), channel by channel. -/
def State.roCan (s : State) : List RoRow :=
  let x := s.chan
  let q := s.canQ
  [ (Reg.canStat, 0x2000, 8, s.canStat),
    (Reg.canPstat, 0x2000, 8, fun c => s.pstat (0x080000 + 0x2000 * c)),
    (Reg.canCfg, 0x2000, 8, s.canCfg),
    (Reg.canFilt, 0x2000, 8, fun c => wf [(0, (s.cfg.can.look c {}).std.length), (16, (s.cfg.can.look c {}).ext.length)]),
    (Reg.canEcnt, 0x2000, 8, fun c => wf [(0, (x c).tec), (16, min 255 (x c).recv)]),
    (Reg.canErrinfo, 0x2000, 8, fun c => wf [(0, (x c).errN.toNat), (4, (x c).errD.toNat)]),
    (Reg.canTdcv, 0x2000, 8, fun c => wf [(0, (x c).tdcv.toNat), (16, (x c).ssp.toNat)]),
    (Reg.canRxcnt, 0x2000, 8, fun c => (x c).rxCnt),
    (Reg.canTxcnt, 0x2000, 8, fun c => (x c).txCnt),
    (Reg.canArblost, 0x2000, 8, fun c => (x c).arbLost),
    (Reg.canErrcnt, 0x2000, 8, fun c => wf [(0, (x c).eStuff.toNat), (8, (x c).eForm.toNat), (16, (x c).eCrc.toNat), (24, (x c).eBit.toNat)]),
    (Reg.canErrcnt2, 0x2000, 8, fun c => wf [(0, (x c).eAck.toNat), (8, (x c).ePass.toNat), (16, (x c).eBus.toNat), (24, (x c).ePex.toNat)]),
    (Reg.canDrop, 0x2000, 8, fun c => wf [(0, (x c).dropFull.toNat), (16, (x c).dropSize.toNat)]),
    (Reg.canTxq, 0x2000, 8, fun c => wf [(0, (q c).sidxRd.toNat), (16, (q c).cidx.toNat)]),
    (Reg.canRxq0, 0x2000, 8, fun c => wf [(0, ((q c).widx 1).toNat), (16, ((q c).ridx 1).toNat)]),
    (Reg.canRxq1, 0x2000, 8, fun c => wf [(0, ((q c).widx 2).toNat), (16, ((q c).ridx 2).toNat)]),
    (Reg.canCancel, 0x2000, 8, fun c => wf [(0, (x c).cancelled.toNat), (16, (x c).cancelLate.toNat)])]

/-- An AIO channel shows a fault (spec/13_local_field_io.md Table 13.4, FIO_AIO_FAULT). -/
def State.aioFault (s : State) (n : Nat) : Bool :=
  let a := s.aio n
  s.aioSet n && (if s.aioOut n then a.openW || a.comply || a.pwrLim || a.chanFault else !a.valid)

/-- FIO (spec/13_local_field_io.md Table 13.4). -/
def State.roFio (s : State) : List RoRow :=
  let h := s.fio.hart
  [ (Reg.fioStat, 0, 1, fun _ => wf [(0, bit s.fio.run), (1, bit s.fio.feed0), (2, bit s.fio.feed1), (3, bit s.fio.afeed),
      (4, bit s.fio.strap0), (5, bit s.fio.strap1)]),
    (Reg.fioPstat, 0, 1, fun _ => s.pstat 0x090000),
    (Reg.fioDioIn, 0, 1, fun _ => maskOf 32 fun n => (s.dio n).state),
    (Reg.fioDioRb, 0, 1, fun _ => maskOf 32 fun n => (s.dio n).rb),
    (Reg.fioDioFault, 0, 1, fun _ => maskOf 32 fun n => decide (bits (s.dioStat n) 2 6 ≠ 0)),
    (Reg.fioAioFault, 0, 1, fun _ => maskOf 16 s.aioFault),
    (Reg.fioDioCfg, 0x20, 32, s.dioCfg),
    (Reg.fioDioStat, 0x20, 32, s.dioStat),
    (Reg.fioDioCnt, 0x20, 32, fun n => let d := s.dio n
      wf [(0, d.trips.toNat), (8, d.latches.toNat), (16, d.rbCnt.toNat), (24, d.chg.toNat)]),
    (Reg.fioAioCfg, 0x40, 16, s.aioCfg),
    (Reg.fioAioStat, 0x40, 16, s.aioStat),
    (Reg.fioAioRaw, 0x40, 16, fun n => w32 (s.aio n).raw.toNat),
    (Reg.fioAioValue, 0x40, 16, fun n => (s.aio n).value),
    (Reg.fioAioTrimst, 0x40, 16, fun n => wf [(0, (s.aio n).step.toNat), (4, (s.aio n).why.toNat)]),
    (Reg.fioAioCnt, 0x40, 16, fun n => let a := s.aio n
      wf [(0, a.cLow.toNat), (8, a.cHigh.toNat), (16, a.cPwr.toNat), (24, a.cAo.toNat)]),
    (Reg.fioAioHart, 0x40, 16, fun n => let a := s.aio n
      wf [(0, a.devs.toNat), (8, a.hRetries.toNat), (16, a.hFailed.toNat)]),
    (Reg.fioHartHstat, 0, 1, fun _ => wf [(0, h.hstat.toNat), (8, h.bytes.toNat), (16, h.why.toNat), (24, h.lost.toNat)]),
    (Reg.fioHartHrsp, 4, 68, fun i => w32 (unle (slice h.rsp (4 * i) 4)))]

/-- SAF (spec/14_safety.md Tables 14.7 to 14.9). -/
def State.roSaf (s : State) : List RoRow :=
  let f := s.saf
  let sel := bits (s.reg Reg.safWscSel) 0 6
  let c := s.wscCfg sel
  let x := s.wsc sel
  let si (g : Nat → Word) (i : Nat) : Word := if siType (s.siCfg i) = 0 then 0 else g i
  let so (g : Nat → Word) (k : Nat) : Word := if s.soSet k then g k else 0
  let down := fun n => decide ((s.wsc n).state = 3 ∨ (s.wsc n).state = 4)
  [ (Reg.safStat, 0, 1, fun _ => wf [(0, bit f.spRun), (1, bit f.selRun), (2, bit (f.sel.set || f.sp.set)), (3, bit (f.sel.stuck || f.sp.stuck)),
      (4, bit f.rst), (5, bit f.cfgOk), (8, (maskOf 4 fun k => (s.so k).hs && (s.so k).ls).toNat),
      (16, (maskOf 8 fun i => (f.si.look i {}).go).toNat)]),
    (Reg.safPstat, 0, 1, fun _ => s.pstat 0x0A0000),
    (Reg.safLock, 0, 1, fun _ => wf [(0, f.cause.toNat), (5, bit f.sel.set), (6, bit f.sp.set), (8, f.last.toNat), (16, f.present.toNat)]),
    (Reg.safLockinfo, 0, 1, fun _ => wf [(0, f.infoIndex.toNat), (6, f.infoKind.toNat), (8, bit f.infoSp), (9, bit f.infoChb)]),
    (Reg.safCfgcrc, 0, 1, fun _ => f.cfgCrc),
    (Reg.safSelcrc, 0, 1, fun _ => f.selCrc),
    (Reg.safCnt, 0, 1, fun _ => wf [(0, f.cntLock.toNat), (8, f.cntAcc.toNat), (16, f.cntRef.toNat), (24, f.cntStuck.toNat)]),
    (Reg.safSpcyc, 0, 1, fun _ => wf [(0, f.spCyc.toNat), (16, f.spCycMax.toNat)]),
    (Reg.safTp, 0, 1, fun _ => wf [(0, bit f.tp1), (1, bit f.tp2), (16, f.pulses.toNat)]),
    (Reg.safSiStat, 4, 8, si fun i => let y := f.si.look i {}
      wf [(0, bit y.a.v), (1, bit y.b.v), (2, bit y.go), (3, bit (y.disagree (s.siCfg i))), (4, bit y.a.pm), (5, bit y.b.pm),
        (6, bit y.a.cs), (7, bit y.b.cs), (8, bit y.agree), (16, y.disc % 2 ^ 15)]),
    (Reg.safSiCnt, 4, 8, si fun i => let y := f.si.look i {}
      wf [(0, y.cTrip.toNat), (8, y.cPulse.toNat), (16, y.cCross.toNat), (24, y.cDemand.toNat)]),
    (Reg.safSoStat, 4, 4, so fun k => let o := s.so k
      wf [(0, bit (o.hs && o.ls)), (1, bit o.hs), (2, bit o.ls), (3, bit o.spPermit), (4, bit o.selPermit), (5, bit o.wait),
        (6, bit o.outFault), (7, bit o.overcur)]),
    (Reg.safSoCnt, 4, 4, so fun k => wf [(0, (s.so k).ons.toNat), (16, (s.so k).darkFail.toNat), (24, (s.so k).faults.toNat)]),
    (Reg.safWscCfg, 0, 1, fun _ => wf [(0, c.carrier.toNat), (2, bit c.en), (3, bit c.ackAuto), (8, c.len), (16, c.wd)]),
    (Reg.safWscId, 0, 1, fun _ => c.id),
    (Reg.safWscStat, 0, 1, fun _ => wf [(0, x.state.toNat), (3, bit x.fsv), (16, x.lastSeq.toNat)]),
    (Reg.safWscTx, 0, 1, fun _ => wf [(0, x.txSeq.toNat), (16, x.ackSeq.toNat)]),
    (Reg.safWscErr, 0, 1, fun _ => wf [(0, x.eCrc.toNat), (8, x.eSeq.toNat), (16, x.eLen.toNat), (24, x.eWd.toNat)]),
    (Reg.safWscRtt, 0, 1, fun _ => wf [(0, x.rtt.toNat), (16, x.rttMax.toNat)]),
    (Reg.safWscFailed, 4, 2, fun j => maskOf 32 fun b => down (32 * j + b))]

/-- TLY (spec/15_tally_recorder.md Table 15.6). -/
def State.roTly (s : State) : List RoRow :=
  let t := s.tly
  [ (Reg.tlyStat, 0, 1, fun _ => wf [(0, bit t.isOpen), (1, bit (decide (t.freePages false = 0))), (2, bit (decide (t.freePages true ≤ 1))),
      (3, bit s.pwr.pfail), (8, t.clrReason.toNat), (16, t.freePages false)]),
    (Reg.tlyPstat, 0, 1, fun _ => s.pstat 0x0B0000),
    (Reg.tlySeq, 0, 1, fun _ => t.seq),
    (Reg.tlyOldest, 0, 1, fun _ => t.oldestSeq false),
    (Reg.tlyAoldest, 0, 1, fun _ => t.oldestSeq true),
    (Reg.tlyAfree, 0, 1, fun _ => w32 (t.freePages true)),
    (Reg.tlyNonceLo, 0, 1, fun _ => t.nonce.setWidth 32),
    (Reg.tlyNonceHi, 0, 1, fun _ => (t.nonce >>> 32).setWidth 32),
    (Reg.tlyOvwcnt, 0, 1, fun _ => t.ovw),
    (Reg.tlyDropcnt, 0, 1, fun _ => t.drop),
    (Reg.tlyAuditlost, 0, 1, fun _ => t.auditLost),
    (Reg.tlyQlost, 0, 1, fun _ => t.qLost),
    (Reg.tlySealfail, 0, 1, fun _ => t.sealFail),
    (Reg.tlyClrcnt, 0, 1, fun _ => wf [(0, t.clears.toNat), (16, t.clrRefused.toNat)]),
    (Reg.tlyRdstat, 0, 1, fun _ => wf [(0, bit t.found), (1, bit t.later), (8, t.rdLen.toNat)]),
    (Reg.tlyRdbuf, 4, 256, fun i => w32 (unle (slice t.rdBuf (4 * i) 4)))]

/-- MEM (spec/16_memory_integrity.md Table 16.3). -/
def State.roMem (s : State) : List RoRow :=
  let m := s.mm
  [ (Reg.memStat, 0, 1, fun _ => wf [(0, bit m.trained), (1, bit m.markDev.isSome), (2, m.markDev.getD 0), (7, bit m.rinseRun), (8, bit m.rinsePaused)]),
    (Reg.memCecnt, 0, 1, fun _ => m.ceCnt),
    (Reg.memUecnt, 0, 1, fun _ => m.ueCnt),
    (Reg.memCeAddrLo, 0, 1, fun _ => w32 m.ceAddr),
    (Reg.memCeAddrHi, 0, 1, fun _ => w32 (m.ceAddr / 2 ^ 32 % 4)),
    (Reg.memCeInfo, 0, 1, fun _ => wf [(0, m.dev0.toNat), (8, m.dev1.toNat), (16, bit m.erased), (17, bit m.ceRinse)]),
    (Reg.memUeAddrLo, 0, 1, fun _ => w32 m.ueAddr),
    (Reg.memUeAddrHi, 0, 1, fun _ => w32 (m.ueAddr / 2 ^ 32 % 4)),
    (Reg.memUeInfo, 0, 1, fun _ => w32 m.ueInfo),
    (Reg.memRinsePos, 0, 1, fun _ => w32 m.pos),
    (Reg.memRinseStat, 0, 1, fun _ => wf [(0, m.passes.toNat), (16, bit m.behind)]),
    (Reg.memRinseLast, 0, 1, fun _ => wf [(0, m.lastCe.toNat), (16, m.lastUe.toNat)]),
    (Reg.memDev, 4, 19, fun d => let x := m.devs.look d {}
      wf [(0, min 65535 (x.hourAt s.sys.opNs)), (16, x.boot.toNat), (31, bit x.marked)]),
    (Reg.memSramCe, 0, 1, fun _ => m.sramCe),
    (Reg.memSramUe, 0, 1, fun _ => wf [(0, m.refetch.toNat), (16, m.fatal.toNat)]),
    (Reg.memMramCe, 0, 1, fun _ => m.mramCe),
    (Reg.memMramUe, 0, 1, fun _ => m.mramUe)]

/-- Minutes of operating time to automatic confirmation, rounded up (spec/17_firmware_and_configuration.md Table 17.10). -/
def State.migLeft (s : State) : Nat := match s.boot.confirmAt with
  | some t => (t - s.opMs + 59999) / 60000
  | none => 0

/-- BOOT_ACT_STAT.STATE (spec/17_firmware_and_configuration.md Table 17.10): with no activation in progress, 6 while a switch awaits
confirmation. -/
def Boot.actState (b : Boot) : Nat := if !b.act.busy && decide (b.act.state = 0) && b.switched then 6 else b.act.state.toNat

/-- BOOT (spec/17_firmware_and_configuration.md Table 17.10). -/
def State.roBoot (s : State) : List RoRow :=
  let b := s.boot
  let ver := fun (k : Bank) => if k.ok then k.hdr.version else 0
  [ (Reg.bootStat, 0, 1, fun _ => s.bootStat),
    (Reg.bootFwver, 0, 1, fun _ => b.fwVer),
    (Reg.bootFwsvn, 0, 1, fun _ => wf [(0, b.fwSvn.toNat), (16, b.minSvn.toNat)]),
    (Reg.bootBankaVer, 0, 1, fun _ => ver b.bankA),
    (Reg.bootBankbVer, 0, 1, fun _ => ver b.bankB),
    (Reg.bootCfgAct, 0, 1, fun _ => b.actVer),
    (Reg.bootCfgPrev, 0, 1, fun _ => b.prevVer),
    (Reg.bootCfgHigh, 0, 1, fun _ => b.high),
    (Reg.bootStg, 0, 1, fun _ => wf [(0, b.stgFw.state.toNat), (4, b.stgCfg.state.toNat), (8, b.stgKey.state.toNat)]),
    (Reg.bootStgFwlen, 0, 1, fun _ => w32 b.stgFw.len),
    (Reg.bootStgCfglen, 0, 1, fun _ => w32 b.stgCfg.len),
    (Reg.bootActStat, 0, 1, fun _ => wf [(0, b.actState), (3, bit b.act.separate), (4, bit b.act.safety), (8, b.act.reason.toNat)]),
    (Reg.bootActAtLo, 0, 1, fun _ => b.act.at_.setWidth 32),
    (Reg.bootActAtHi, 0, 1, fun _ => (b.act.at_ >>> 32).setWidth 32),
    (Reg.bootActPause, 0, 1, fun _ => b.act.pauseUs),
    (Reg.bootMigLeft, 0, 1, fun _ => w32 s.migLeft),
    (Reg.bootKs, 0, 1, fun _ => wf [(0, bit b.ks.rel0.isSome), (1, bit b.ks.rel1.isSome), (2, bit b.ks.plant.isSome),
      (3, bit b.ks.plantRet.isSome), (4, bit b.ks.dev), (8, (maskOf 8 fun n => (b.ks.op.find n).isSome).toNat), (16, bit b.ks.locked)]),
    (Reg.bootLdStat, 0, 1, fun _ => wf [(0, b.ldState.toNat), (8, b.ldReason.toNat)]),
    (Reg.bootMeas, 4, 72, fun i => w32 (unle (slice (b.meas.look (i / 8) []) (4 * (i % 8)) 4)))]

/-- PWR_STAT (spec/18_power_electrical_mechanical.md Table 18.17). -/
def State.pwrStat (s : State) : Word :=
  let p := s.pwr
  wf [(0, bit p.pfail), (1, bit p.feedA), (2, bit p.feedB), (3, bit p.holdup), (4, bit (p.pfail || p.shutdown)), (5, bit p.shutdown),
    (6, bit (decide (p.rails ≠ 0))), (7, bit p.tempWarn), (8, bit p.boardWarn), (9, bit p.vretLow), (10, bit (!s.saf.supplyBad)), (11, bit p.recharge)]

/-- The front-panel LEDs (spec/18_power_electrical_mechanical.md Table 18.12): of the states that apply, the leftmost decides. -/
def State.leds (s : State) : Word :=
  let pick := fun (on slow fast : Bool) => if on then 1 else if slow then 2 else if fast then 3 else 0
  let m := s.sys.mode
  let d := s.dpx.state
  if !s.powered then 0
  else wf [
    (0, pick (!s.pwr.pfail) false s.pwr.pfail),
    (2, pick (decide (m = .run) && s.sys.primary) (decide (m = .run) && !s.sys.primary)
      (decide (m = .boot ∨ m = .takeover ∨ m = .activate) || s.sys.trans.isSome)),
    (4, pick (decide (d = .insync)) (decide (d = .syncing)) (decide (d = .noPartner ∨ d = .waitPeer ∨ d = .linkLost ∨ d = .refused))),
    (6, pick (decide (m = .faultHalt) || (decide (m = .boot) && s.boot.held) || s.pwr.hkWd) (decide (m = .recovery))
      (decide (s.sysFault.toNat % 2 ^ 11 ≠ 0))),
    (8, pick s.locked false (s.saf.sel.stuck || s.saf.sp.stuck)),
    (10, pick (s.net.rings.anyV NRing.opened) (s.net.stns.anyV Stn.failed || s.net.subs.anyV Sub.failed) false),
    (12, pick false ((s.reg Reg.pwrIdent).getLsbD 0) false)]

/-- PWR (spec/18_power_electrical_mechanical.md Table 18.16). -/
def State.roPwr (s : State) : List RoRow :=
  let p := s.pwr
  [ (Reg.pwrStat, 0, 1, fun _ => s.pwrStat),
    (Reg.pwrPstat, 0, 1, fun _ => s.pstat 0x0E0000),
    (Reg.pwrFeeda, 0, 1, fun _ => wf [(0, p.feedAmv.toNat), (16, p.feedAma.toNat)]),
    (Reg.pwrFeedb, 0, 1, fun _ => wf [(0, p.feedBmv.toNat), (16, p.feedBma.toNat)]),
    (Reg.pwrBus, 0, 1, fun _ => wf [(0, p.busMv.toNat), (16, p.busLow.toNat)]),
    (Reg.pwrPower, 0, 1, fun _ => wf [(0, p.power.toNat), (16, p.powerMax.toNat)]),
    (Reg.pwrPfcnt, 0, 1, fun _ => wf [(0, p.pfCnt.toNat), (16, p.pfClr.toNat)]),
    (Reg.pwrPflast, 0, 1, fun _ => p.pfLast),
    (Reg.pwrRail, 0, 1, fun _ => wf [(0, p.rails.toNat), (8, p.railFirst.toNat), (11, bit p.railValid)]),
    (Reg.pwrTemp, 0, 1, fun _ => wf [(0, p.temp.toNat), (16, p.tempMax.toNat)]),
    (Reg.pwrTboard, 0, 1, fun _ => wf [(0, p.tboard.toNat), (16, p.tboardMax.toNat)]),
    (Reg.pwrVret, 0, 1, fun _ => w32 p.vret.toNat),
    (Reg.pwrRetsec, 0, 1, fun _ => s.ret.secs),
    (Reg.pwrSfeed, 0, 1, fun _ => wf [(0, p.sfeedMv.toNat), (16, p.afeedMv.toNat)]),
    (Reg.pwrLed, 0, 1, fun _ => s.leds)]

/-- The read-only registers of the block that `o` lies in. -/
def State.roRows (s : State) (o : Nat) : List RoRow :=
  match o / 0x10000 with
  | 0 => s.roSys
  | 1 => s.roHif
  | 2 => s.roCyc
  | 3 => s.roLsp
  | 4 => s.roCle
  | 5 => s.roDpx
  | 6 => s.roNet
  | 7 => s.roTim
  | 8 => s.roCan
  | 9 => s.roFio
  | 10 => s.roSaf
  | 11 => s.roTly
  | 12 => s.roMem
  | 13 => s.roBoot
  | 14 => s.roPwr
  | _ => []

/-- A press control register as read (Table 3.6). -/
def Press.word (p : Press) : Word := wf [(1, bit p.pend), (2, bit p.refused), (16, p.lost.toNat)]

/-- A word of a CLE window as read; every register of a window whose selector names no configured slot reads 0
(spec/07_loop_engines.md R209). -/
def State.winRead (s : State) (o : Nat) : Word :=
  let (w, k) := winOf o
  let n := s.winSlot w
  if k = 0 then s.reg o
  else if !s.loopSet n then 0
  else if k = 0x28 then (s.loop n).opPress.word
  else if k = 0x2C then (s.loop n).bkPress.word
  else if (0x10 ≤ k ∧ k < 0x28) ∨ (0x40 ≤ k ∧ k < 0x80) then s.windowRead o w k
  else s.winWord n k

/-- The offset is a register of a task class that is not configured, which reads 0 (spec/05_cyclic_execution.md R149). -/
def State.noClass (s : State) (o : Nat) : Bool :=
  decide (Reg.cycClsCfg ≤ o ∧ o < Reg.cycClsCfg + 0x200) && !(s.ccfg ((o - Reg.cycClsCfg) / 0x40)).en

/-- The offset is a register of a channel that is not configured: it reads 0, but for the PSTAT of a CAN channel (spec/12_can.md R340;
spec/13_local_field_io.md R366), and so does a safety input, output or connection (spec/14_safety.md R402). -/
def State.noChan (s : State) (o : Nat) : Bool :=
  let p := o % 0x10000
  match o / 0x10000 with
  | 8 => decide (p % 0x2000 ≠ 4) && !s.canSet (p / 0x2000)
  | 9 => (decide (0x100 ≤ p ∧ p < 0x500) && !s.dioSet ((p - 0x100) / 0x20)) || (decide (0x600 ≤ p ∧ p < 0xA00) && !s.aioSet ((p - 0x600) / 0x40))
  | 10 => (decide (0x40 ≤ p ∧ p < 0xA0) && decide (siType (s.siCfg (p % 0x20 / 4)) = 0)) ||
    (decide (0xA0 ≤ p ∧ p < 0xD0) && !s.soSet (p % 0x10 / 4)) ||
    (decide (0x104 ≤ p ∧ p < 0x11C) && !(s.wscCfg (bits (s.reg Reg.safWscSel) 0 6)).en)
  | _ => false

/-- What a read of BAR0 offset `o` returns (R62, R63, R66): an unassigned address and a write-only register read 0, a staging copy reads
as written, a voted register as the vote gives it. -/
def State.readReg (o : Nat) (s : State) : Word :=
  if inWindow o then s.winRead o
  else if s.noClass o || s.noChan o then 0
  else if inMsix o then s.aliasRead o
  else match rowAt o with
    | none => 0
    | some r => match r.acc with
      | .ro => (roAt (s.roRows o) o).getD 0
      | .press => (s.press.look o {}).word
      | .wo => 0
      | _ => s.aliasRead o

/-- What a read of the BAR4 word at `off` returns (R86): the bit of the BAR0 register that it aliases. -/
def State.readAlias (off : Nat) (s : State) : Word := BitVec.ofNat 32 (bit ((s.readReg (off / 128 * 4)).getLsbD (off / 4 % 32)))

/-- What a read of BAR2 offset `off` returns (spec/04_host_rings.md R98): a doorbell of a slot that exists reads as last written, every
other word 0. -/
def State.readDoorbell (off : Nat) (s : State) : Word :=
  let n := off / 0x1000
  if !s.slotLive n || decide (17 < n) then 0
  else if off % 0x1000 = 0 then (if n = 17 then 0 else (s.ring n).sqDb)
  else if off % 0x1000 = 4 then (if n = 17 then s.hif.ev.cqDb else (s.ring n).cqDb)
  else 0

end Sys2Proof.Machine
end

