-- ==== Sys2Proof/Safety.lean ====
section
/-! DEFINITION. What a claim about the machine calls a safe state, a completed step and an untouched part of the state. -/

namespace Sys2Proof.Safety

open Sys2Proof.Machine

/-- A step completes: it ends in a next state, not in a fault or a refusal. -/
def Completes (o : Host.Outcome State Fault Refusal) : Prop := ∃ t, o = .next t

/-- What a state must hold for the role rule of spec/02_modes_and_startup.md R31 and R32: the module holds the primary role only in a
mode that allows it; in HOLD, the mode it was entered from counts. -/
def RoleLegal (s : State) : Prop := s.sys.primary = true → roleAllowed s.sys.mode s.sys.from_ = true

/-- Both switches of every safety output are open. -/
def SafetyOff (s : State) : Prop := ∀ k : Fin 4, (s.saf.so.look k.val {}).hs = false ∧ (s.saf.so.look k.val {}).ls = false

/-- The configured CAN channels stand where spec/12_can.md Table 12.2 puts them in the mode and the role of the module. -/
def CanFollows (s : State) : Prop :=
  ∀ c off listen, c < 8 → s.canSet c = true → s.canWants = some (off, listen) → (s.chan c).off = off ∧ (s.chan c).listen = listen

/-- The control block and the entries of every CAN queue are byte memories in canonical form (spec/12_can.md Table 12.6, R331). -/
def QueuesCanonical (s : State) : Prop :=
  ∀ c q, Memory.wf ((s.canQ c).ctl.look q []) = true ∧ Memory.wf ((s.canQ c).ent.look q []) = true

/-- What every command leaves behind it: the CAN channels follow the mode and the role, and on a module that runs no abandoned mode
command waits for its completion (spec/02_modes_and_startup.md R52). -/
structure Settled (s : State) : Prop where
  can : CanFollows s
  served : s.alive = true → s.sys.preempted = []

/-- Of the HIF block at most the event ring and the pending interrupt vectors differ (spec/04_host_rings.md R120, R121). -/
def EventsOnly (s t : State) : Prop :=
  t.hif = { s.hif with ev := t.hif.ev, evSeq := t.hif.evSeq, evtLost := t.hif.evtLost, evLoss := t.hif.evLoss, msixPend := t.hif.msixPend }

/-- Ring command `h`, whose operation is `op`, can be taken and passes the checks of step 1 of spec/04_host_rings.md R112: its ring
offers it, its entry is well formed, its identifier is above H on a primary (R115), the role is the one it needs, its completion ring
stands, and its completion entry can be written. -/
structure Offered (op : HostOp) (h : Hcmd) (s : State) : Prop where
  settled : Settled s
  taken : s.canTake h.slot op.dur = true
  form : op.static h = none
  fresh : s.sys.primary = true → (s.win h.slot).high < h.reqId
  role : op.roleP = true → s.sys.primary = true
  posts : (s.ring h.slot).cqHalt = false
  answered : h.cqeOk = true

/-- The command `h` of its ring is complete with `status`: among what left the module, `l`, is its completion entry, and the ring has
moved past the entry and runs no command (spec/04_host_rings.md R104, R117). -/
structure Completed (h : Hcmd) (status : BitVec 16) (l : List Out) (s t : State) : Prop where
  entry : ∃ c : Cqe, Out.cqe h.slot c ∈ l ∧ c.reqId = h.reqId ∧ c.status = status ∧ c.dup = false
  sent : t.outbox = s.outbox ++ l
  moved : (t.ring h.slot).sqHead = ((s.ring h.slot).sqHead + 1) % 2 ^ (s.ring h.slot).sqK
  idle : (t.ring h.slot).infl = none

/-- The command `h` has been taken from its ring and waits there. -/
structure Waiting (h : Hcmd) (s t : State) : Prop where
  held : ∃ i : Infl, (t.ring h.slot).infl = some i ∧ i.cmd.reqId = h.reqId ∧ i.cmd.slot = h.slot
  moved : (t.ring h.slot).sqHead = ((s.ring h.slot).sqHead + 1) % 2 ^ (s.ring h.slot).sqK

/-- Record `r` arrives in its turn at a module whose lanes work: it passes the checks of spec/09_duplex_pair.md R238, and no other
record waits. -/
structure InTurn (r : BRec) (s : State) : Prop where
  settled : Settled s
  lanes : s.lanesOn = true
  crc : r.crcOk = true
  type : r.type ≤ 12
  format : s.fmtOk r.fmt = true
  turn : s.dpx2.rseqRx = 0 ∨ r.rseq = s.dpx2.rseqRx + 1
  alone : s.dpx2.waitRec = []

/-- The command that has a received record of the baste link arrive, one for each type and each kind of notice (spec/09_duplex_pair.md
Tables 9.14, 9.18). -/
def Arrival (r : BRec) (i : Instr) : Prop :=
  i ∈ [.ack r, .hostwork r, .lines r, .commitEnd r, .loopState r, .loopGroup r, .tallyHdrs r, .versions r, .window r, .image r,
    .noticeFailure r, .noticeHalt r, .noticeHandover r, .noticeHandback r, .noticeRingAbsent r, .noticeProofFail r, .noticeCutIn r,
    .noticeReady r, .noticeCheckFailed r]

/-- The parts of the state, one for each field of `State`. -/
inductive Part where
  | sys | hif | cyc | lsp | cle | chg | dpx | dpx2 | mir | net | tim | can | canq | fio | saf
  | tly | mm | boot | pwr | ret | cfg | prog | regs | live | votes | press | posted | outbox | freeN | pending
deriving DecidableEq, Repr

/-- A part is the same in both states. -/
def Part.same (p : Part) (s t : State) : Prop :=
  match p with
  | .sys => t.sys = s.sys | .hif => t.hif = s.hif | .cyc => t.cyc = s.cyc | .lsp => t.lsp = s.lsp | .cle => t.cle = s.cle
  | .chg => t.chg = s.chg | .dpx => t.dpx = s.dpx | .dpx2 => t.dpx2 = s.dpx2 | .mir => t.mir = s.mir | .net => t.net = s.net
  | .tim => t.tim = s.tim | .can => t.can = s.can | .canq => t.canq = s.canq | .fio => t.fio = s.fio | .saf => t.saf = s.saf
  | .tly => t.tly = s.tly | .mm => t.mm = s.mm | .boot => t.boot = s.boot | .pwr => t.pwr = s.pwr | .ret => t.ret = s.ret
  | .cfg => t.cfg = s.cfg | .prog => t.prog = s.prog | .regs => t.regs = s.regs | .live => t.live = s.live | .votes => t.votes = s.votes
  | .press => t.press = s.press | .posted => t.posted = s.posted | .outbox => t.outbox = s.outbox | .freeN => t.freeN = s.freeN | .pending => t.pending = s.pending

/-- `t` differs from `s` at most in the parts that `ps` names: the frame of what leads from `s` to `t`. -/
structure OnlyChanges (ps : List Part) (s t : State) : Prop where
  same : ∀ p, p ∉ ps → p.same s t

end Sys2Proof.Safety
end

