-- ==== Sys2Proof/Certificates/Slice0/Obligations.lean ====
section
/-! DEFINITION. The statements for the provers. Each says in its docstring which sentences of the spec it formalises. -/

open Sys2Proof Sys2Proof.Machine Sys2Proof.Safety

/-- A configuration request is answered with retry status while HIF holds it back, and otherwise with the identity of the function.
On an unpowered module TAMPER_LATCH_SET sets its bit of the latch and VRET_LOST sets bit 2 and restarts the seconds at 0.
OPTIME_SAVE keeps the operating time in ms. HOLDUP_OK_CHANGE, VRET_MEASUREMENT, FEED_RANGE_CHANGE and TEMPERATURE_SAMPLE set the
readings, maxima and flags of the PWR block to the values written here. A VRET below 2.20 V writes record 0x0E04 once in 24 h of
operating time, a junction temperature at or above the threshold in use record 0x0E03 once in 60 s, and a feed that leaves its
range record 0x0E01; no other record is written, and nothing else changes but the events that report a change of SYS_FAULT. -/
def Obligations.SupplyReadingsAreKept : Prop :=
  (∀ s : State, s.sys.mode ≠ .retain →
    exec .pcieConfigRequest s = .next { s with outbox := s.outbox ++ [if s.hif.crs then .cfgRetry else .cfgAnswer s.pciId] }) ∧
  (∀ (s : State) (cover : Bool), s.sys.mode = .retain →
    exec (.tamperLatchSet cover) s = .next { s with ret := { s.ret with
      tamper := s.ret.tamper ||| (if cover then 2 else 1), present := cover && s.ret.present } }) ∧
  (∀ s : State, s.sys.mode = .retain →
    exec .vretLost s = .next { s with ret := { s.ret with tamper := s.ret.tamper ||| 4, secs := 0 } }) ∧
  (∀ s : State, s.sys.mode ≠ .retain → s.pwr.shutdown = false → s.pwr.pfail = false →
    exec .optimeSave s = .next { s with ret := { s.ret with savedOp := s.sys.opNs / 1000000 % 2 ^ 48 } }) ∧
  (∀ (s : State) (mv : BitVec 16),
    exec (.holdupOkChange mv) s = .next { s with pwr := { s.pwr with
      busMv := mv, holdup := decide (44000 ≤ mv), recharge := s.pwr.recharge && decide (mv < 48000)
      busLow := if s.pwr.pfail && decide (mv < s.pwr.busLow) then mv else s.pwr.busLow } }) ∧
  (∀ (s : State) (mv : BitVec 16), s.sys.mode ≠ .retain → ∃ t, exec (.vretMeasurement mv) s = .next t ∧
    t.pwr = { s.pwr with vret := mv, vretLow := decide (mv.toNat < 2200), vretWarnT := t.pwr.vretWarnT } ∧
    (if mv.toNat < 2200 ∧ (∀ t0, s.pwr.vretWarnT = some t0 → t0 + 86400000000000 ≤ s.sys.opNs) then
      t.pwr.vretWarnT = some s.sys.opNs ∧ t.tly = (s.log 0x0E04 3 ([0, 0, 0, 0] ++ le 2 mv.toNat)).tly
    else t.pwr.vretWarnT = s.pwr.vretWarnT ∧ t.tly = s.tly) ∧ OnlyChanges [.pwr, .tly] s t) ∧
  (∀ (s : State) (feedB inRange : Bool) (mv : BitVec 16), Settled s → s.sys.mode ≠ .retain →
    (if feedB then s.pwr.feedB else s.pwr.feedA) ≠ inRange → ∃ t, exec (.feedRangeChange feedB inRange mv) s = .next t ∧
    t.pwr = (if feedB then { s.pwr with feedB := inRange, feedBmv := mv } else { s.pwr with feedA := inRange, feedAmv := mv }) ∧
    t.tly = (if inRange then s.tly
      else (s.log 0x0E01 3 ([if feedB then 1 else 0, 0, 0, 0] ++ le 4 mv.toNat)).tly) ∧ OnlyChanges [.pwr, .tly, .hif, .outbox] s t ∧ EventsOnly s t) ∧
  (∀ (s : State) (junction inlet : BitVec 16), Settled s → s.sys.mode ≠ .retain →
    ∃ t, exec (.temperatureSample junction inlet) s = .next t ∧
    t.pwr = { s.pwr with
      temp := junction, tempMax := if s.pwr.tempSeen then smax s.pwr.tempMax junction else junction, tboard := inlet
      tboardMax := if s.pwr.tempSeen then smax s.pwr.tboardMax inlet else inlet, tempSeen := true
      tempWarn := decide ((s.twarn : Int) ≤ junction.toInt), boardWarn := decide (700 < inlet.toInt)
      hotRun := if 1500 ≤ junction.toInt then s.pwr.hotRun + 1 else 0, twarnT := t.pwr.twarnT } ∧
    (if (s.twarn : Int) ≤ junction.toInt ∧ (∀ t0, s.pwr.twarnT = some t0 → t0 + 60000000000 ≤ s.sys.opNs) then
      t.pwr.twarnT = some s.sys.opNs ∧ t.tly = (s.log 0x0E03 3 ([0, 0, 0, 0] ++ le 2 junction.toNat)).tly
    else t.pwr.twarnT = s.pwr.twarnT ∧ t.tly = s.tly) ∧ OnlyChanges [.pwr, .tly, .hif, .outbox] s t ∧ EventsOnly s t)

/-- PFAIL_SET raises PFAIL, counts it, keeps the time and the bus voltage, and lets only the record at the head of the Tally queue
be written on (log entry 27). A fetched command stays in its ring exactly if its recording has begun; every other one is dropped
and its ring's fetch head goes back by one entry. PFAIL_CLEAR ends it, counts it, and keeps its duration in µs and the lowest
bus voltage. Beside these only what a dropped command had prepared, the marks of the blocks under write, the records and the
events that report it can change. -/
def Obligations.PfailHoldsAndReleasesWork : Prop :=
  (∀ s : State, Settled s → s.sys.mode ≠ .retain → s.pwr.shutdown = false → s.pwr.pfail = false → ∃ t, exec .pfailSet s = .next t ∧
    t.pwr = { s.pwr with pfail := true, pfCnt := s.pwr.pfCnt + 1, pfFrom := s.sys.opNs, busLow := s.pwr.busMv } ∧
    t.tly.writing = s.tly.queue.head? ∧
    (∀ n i, (t.ring n).infl = some i ↔ ((s.ring n).infl = some i ∧ i.begun = true)) ∧
    (∀ n i, (s.ring n).infl = some i → i.begun = false →
      (t.ring n).sqHead = ((s.ring n).sqHead + 2 ^ (s.ring n).sqK - 1) % 2 ^ (s.ring n).sqK) ∧
    OnlyChanges [.sys, .hif, .chg, .dpx2, .pwr, .boot, .tly, .outbox] s t) ∧
  (∀ (s : State) (low : BitVec 16), Settled s → s.sys.mode ≠ .retain → s.pwr.shutdown = false → s.pwr.pfail = true →
    ∃ t, exec (.pfailClear low) s = .next t ∧
    t.pwr = { s.pwr with
      pfail := false, pfClr := s.pwr.pfClr + 1, pfLast := BitVec.ofNat 32 (sat 32 ((s.sys.opNs - s.pwr.pfFrom) / 1000)), busLow := low
      recharge := decide (s.pwr.busMv < 48000 ∨ low < 48000) } ∧
    t.mm.markUnsaved = false ∧ t.tly.writing = none ∧ OnlyChanges [.pwr, .mm, .tly, .hif, .outbox] s t ∧ EventsOnly s t)

/-- INPUT_LOST and HOLD_UP_SPENT lead a powered module to RETAIN without the primary role, with configuration requests held back
again; they leave the RET island, the identifier windows and the active program as they were, and the press journal too where no
commanded transition is in progress or abandoned. SLOT_PRESENCE_LOST clears PRESENT; a primary without an in-sync partner runs
on with nothing else changed but the record and its events; any other module begins its shutdown, stops its heartbeats and runs
no class, and its parts outside those named here stay as they were. -/
def Obligations.ShutdownReachesRetain : Prop :=
  (∀ s : State, s.sys.mode ≠ .retain → ∃ t, exec .inputLost s = .next t ∧ t.sys.mode = .retain ∧ t.sys.primary = false ∧
    t.hif.crs = true ∧ (s.sys.trans = none → s.sys.preempted = [] → t.hif.journal = s.hif.journal) ∧ t.hif.wins = s.hif.wins ∧
    t.chg.active = s.chg.active ∧ t.ret = s.ret ∧ t.freeN = s.freeN ∧ t.pending = s.pending) ∧
  (∀ s : State, s.sys.mode ≠ .retain → ∃ t, exec .holdUpSpent s = .next t ∧ t.sys.mode = .retain ∧ t.sys.primary = false ∧
    t.hif.crs = true ∧ (s.sys.trans = none → s.sys.preempted = [] → t.hif.journal = s.hif.journal) ∧ t.hif.wins = s.hif.wins ∧
    t.chg.active = s.chg.active ∧ t.ret = s.ret ∧ t.freeN = s.freeN ∧ t.pending = s.pending) ∧
  (∀ s : State, Settled s → s.sys.mode ≠ .retain → s.pwr.shutdown = false → s.ret.present = true → s.sys.primary = true →
    s.dpx.state ≠ .insync → ∃ t, exec .slotPresenceLost s = .next t ∧ t.ret = { s.ret with present := false } ∧
    OnlyChanges [.ret, .tly, .hif, .outbox] s t ∧ EventsOnly s t) ∧
  (∀ s : State, s.sys.mode ≠ .retain → s.pwr.shutdown = false → s.ret.present = true → s.sys.primary = false ∨ s.dpx.state = .insync →
    ∃ t, exec .slotPresenceLost s = .next t ∧ t.ret = { s.ret with present := false } ∧ t.pwr = { s.pwr with shutdown := true } ∧
    t.dpx.heartbeats = false ∧ (∀ n, (t.cls n).running = false ∧ (t.cls n).active = false) ∧
    OnlyChanges [.sys, .hif, .cyc, .lsp, .dpx, .dpx2, .can, .canq, .fio, .saf, .tly, .pwr, .ret, .outbox] s t)

/-- Outside the settle window of R458, on a running module that is not in FAULT-HALT: a rail fault, 100 samples at or above 150.0
°C, a watchdog expiry and a clock fault each lead to FAULT-HALT without the primary role, with both safety latches set and every
safety output open. The halt cause is 0x07 on a module with an in-sync partner; otherwise it is 0x07 for rails and heat, 0x03
for a watchdog and 0x06 for a clock fault. INSYNC does not hold after it. A rail fault also shows its rail. The parts outside
those named stay as they were. -/
def Obligations.UnrecoverableFaultsHaltTheModule : Prop :=
  (∀ (s : State) (rail : Fin 7) (mv : Word), s.running = true → s.settling = false → s.sys.mode ≠ .faultHalt →
    ∃ t, exec (.railFault rail mv) s = .next t ∧ t.sys.mode = .faultHalt ∧ t.sys.primary = false ∧ t.sys.haltCause = 7 ∧
    t.dpx.state ≠ .insync ∧ t.saf.sel.set = true ∧ t.saf.sp.set = true ∧ SafetyOff t ∧ t.pwr.rails.getLsbD rail.val = true ∧
    OnlyChanges [.sys, .hif, .cyc, .lsp, .dpx, .dpx2, .can, .canq, .fio, .saf, .tly, .mm, .pwr, .outbox] s t) ∧
  (∀ s : State, s.running = true → s.settling = false → s.sys.mode ≠ .faultHalt → 100 ≤ s.pwr.hotRun →
    ∃ t, exec .overtemperature s = .next t ∧ t.sys.mode = .faultHalt ∧ t.sys.primary = false ∧ t.sys.haltCause = 7 ∧
    t.dpx.state ≠ .insync ∧ t.saf.sel.set = true ∧ t.saf.sp.set = true ∧ SafetyOff t ∧
    OnlyChanges [.sys, .hif, .cyc, .lsp, .dpx, .dpx2, .can, .canq, .fio, .saf, .tly, .mm, .outbox] s t) ∧
  (∀ s : State, s.running = true → s.settling = false → s.sys.mode ≠ .faultHalt →
    ∃ t, exec .hkWatchdogExpiry s = .next t ∧ t.sys.mode = .faultHalt ∧ t.sys.primary = false ∧
    t.sys.haltCause = (if s.insync then 7 else 3) ∧ t.dpx.state ≠ .insync ∧ t.saf.sel.set = true ∧ t.saf.sp.set = true ∧
    SafetyOff t ∧ t.pwr = { s.pwr with hkWd := true } ∧ OnlyChanges [.sys, .hif, .cyc, .lsp, .dpx, .dpx2, .can, .canq, .fio, .saf, .tly, .mm, .pwr, .outbox] s t) ∧
  (∀ (s : State) (e : Fin 8), s.running = true → s.settling = false → s.sys.mode ≠ .faultHalt →
    ∃ t, exec (.engineWatchdogExpiry e) s = .next t ∧ t.sys.mode = .faultHalt ∧ t.sys.primary = false ∧
    t.sys.haltCause = (if s.insync then 7 else 3) ∧ t.dpx.state ≠ .insync ∧ t.saf.sel.set = true ∧ t.saf.sp.set = true ∧
    SafetyOff t ∧ OnlyChanges [.sys, .hif, .cyc, .lsp, .cle, .dpx, .dpx2, .net, .can, .canq, .fio, .saf, .tly, .mm, .outbox] s t) ∧
  (∀ s : State, s.running = true → s.settling = false → s.sys.mode ≠ .faultHalt →
    ∃ t, exec .clockFault s = .next t ∧ t.sys.mode = .faultHalt ∧ t.sys.primary = false ∧
    t.sys.haltCause = (if s.insync then 7 else 6) ∧ t.dpx.state ≠ .insync ∧ t.saf.sel.set = true ∧ t.saf.sp.set = true ∧
    SafetyOff t ∧ OnlyChanges [.sys, .hif, .cyc, .lsp, .dpx, .dpx2, .can, .canq, .fio, .saf, .tly, .mm, .outbox] s t)

/-- A register or alias write outside its BAR, or not at a whole word, is a fault of the model. On a module whose registers can be
reached, a write with incomplete byte enables counts in PARTIAL, one to an unassigned address in UNASSIGNED, one to a read-only
register in ROWR; an alias write of a reserved bit too, and an alias write otherwise as a write to its target; SYS_ACCADDR takes
the offset, and nothing else changes but the bookkeeping of the record, the record and the events. -/
def Obligations.WritesOutsideTheMapAreCounted : Prop :=
  (∀ (s : State) (ini : Ini) (off : Nat) (v : Word) (be : BitVec 4), 2 ^ 24 ≤ off →
    exec (.registerWrite ini off v be) s = .fault .outsideBar) ∧
  (∀ (s : State) (ini : Ini) (off : Nat) (v : Word) (be : BitVec 4), off < 2 ^ 24 → off % 4 ≠ 0 →
    exec (.registerWrite ini off v be) s = .fault .notWordAligned) ∧
  (∀ (s : State) (ini : Ini) (off : Nat) (v : Word) (be : BitVec 4), 2 ^ 25 ≤ off →
    exec (.bitAliasWrite ini off v be) s = .fault .outsideBar) ∧
  (∀ (s : State) (ini : Ini) (off : Nat) (v : Word) (be : BitVec 4), off < 2 ^ 25 → off % 4 ≠ 0 →
    exec (.bitAliasWrite ini off v be) s = .fault .notWordAligned) ∧
  (∀ (s : State) (ini : Ini) (off : Nat) (v : Word) (be : BitVec 4), Settled s → off < 2 ^ 24 → off % 4 = 0 → s.regLive off = true →
    be ≠ 15 → ∃ t, exec (.registerWrite ini off v be) s = .next t ∧
    t.sys = { s.sys with partial_ := s.sys.partial_ + 1, accAddr := wordOf [(2, off / 4 % 2 ^ 22), (24, 0)], warned := t.sys.warned
                         further := t.sys.further } ∧
    OnlyChanges [.sys, .tly, .hif, .outbox] s t ∧ EventsOnly s t) ∧
  (∀ (s : State) (ini : Ini) (off : Nat) (v : Word), Settled s → off < 2 ^ 24 → off % 4 = 0 → s.regLive off = true →
    rowAt off = none → inMsix off = false → ∃ t, exec (.registerWrite ini off v 15) s = .next t ∧
    t.sys = { s.sys with unassigned := s.sys.unassigned + 1, accAddr := wordOf [(2, off / 4 % 2 ^ 22), (24, 0)]
                         warned := t.sys.warned, further := t.sys.further } ∧
    OnlyChanges [.sys, .tly, .hif, .outbox] s t ∧ EventsOnly s t) ∧
  (∀ (s : State) (ini : Ini) (off : Nat) (v : Word) (r : RegRow), Settled s → off < 2 ^ 24 → off % 4 = 0 → s.regLive off = true →
    rowAt off = some r → r.acc = .ro → inMsix off = false → ∃ t, exec (.registerWrite ini off v 15) s = .next t ∧
    t.sys = { s.sys with roWr := s.sys.roWr + 1, accAddr := wordOf [(2, off / 4 % 2 ^ 22), (24, 0)]
                         warned := t.sys.warned, further := t.sys.further } ∧
    OnlyChanges [.sys, .tly, .hif, .outbox] s t ∧ EventsOnly s t) ∧
  (∀ (s : State) (ini : Ini) (o i : Nat) (v : Word) (r : RegRow), Settled s → o < 2 ^ 20 → o % 4 = 0 → i < 32 → s.regLive o = true →
    rowAt o = some r → inMsix o = false → r.acc = .ro ∨ r.mask.getLsbD i = false →
    ∃ t, exec (.bitAliasWrite ini (o * 32 + 4 * i) v 15) s = .next t ∧
    t.sys = { s.sys with roWr := s.sys.roWr + 1, accAddr := wordOf [(2, o / 4 % 2 ^ 22), (24, 0)]
                         warned := t.sys.warned, further := t.sys.further } ∧
    OnlyChanges [.sys, .tly, .hif, .outbox] s t ∧ EventsOnly s t) ∧
  (∀ (s : State) (ini : Ini) (o i : Nat) (v : Word) (be : BitVec 4), Settled s → o < 2 ^ 20 → o % 4 = 0 → i < 32 → s.regLive o = true →
    be ≠ 15 → ∃ t, exec (.bitAliasWrite ini (o * 32 + 4 * i) v be) s = .next t ∧
    t.sys = { s.sys with partial_ := s.sys.partial_ + 1, accAddr := wordOf [(2, o / 4 % 2 ^ 22), (24, 0)], warned := t.sys.warned
                         further := t.sys.further } ∧
    OnlyChanges [.sys, .tly, .hif, .outbox] s t ∧ EventsOnly s t) ∧
  (∀ (s : State) (ini : Ini) (o i : Nat) (v : Word), Settled s → o < 2 ^ 20 → o % 4 = 0 → i < 32 → s.regLive o = true →
    rowAt o = none → inMsix o = false → ∃ t, exec (.bitAliasWrite ini (o * 32 + 4 * i) v 15) s = .next t ∧
    t.sys = { s.sys with unassigned := s.sys.unassigned + 1, accAddr := wordOf [(2, o / 4 % 2 ^ 22), (24, 0)]
                         warned := t.sys.warned, further := t.sys.further } ∧
    OnlyChanges [.sys, .tly, .hif, .outbox] s t ∧ EventsOnly s t)

/-- On a settled module whose registers can be reached, for a register in no posted block, no loop window and not the MSI-X table,
that the initiator may write: an RW register takes the written bits that are not reserved; so does the staging copy of an RWP
register while its press is not pending, and its live copy stays; a pending press discards the write and counts it in LOST; the
three copies of an RWV field all take the value. A write through a bit alias sets exactly that bit of an RW register. Every
other register keeps its copies. -/
def Obligations.RegisterCopiesTakeMaskedWrites : Prop :=
  (∀ (s : State) (ini : Ini) (off : Nat) (v : Word) (r : RegRow), Settled s → off < 2 ^ 24 → off % 4 = 0 → s.regLive off = true →
    rowAt off = some r → r.acc = .rw → inMsix off = false → inWindow off = false → s.mayWrite ini off .rw = true → postBase off = none →
    off ≠ Reg.memInjCtrl → off ≠ 0x0A0020 → ∃ t, exec (.registerWrite ini off v 15) s = .next t ∧
    t.reg off = v &&& r.mask ∧ (∀ o, o ≠ off → t.reg o = s.reg o) ∧ OnlyChanges [.regs, .hif, .outbox] s t ∧ EventsOnly s t) ∧
  (∀ (s : State) (ini : Ini) (off g : Nat) (v : Word) (r : RegRow), Settled s → off < 2 ^ 24 → off % 4 = 0 → s.regLive off = true →
    rowAt off = some r → r.acc = .rwp → pressOf off = some g → inMsix off = false → inWindow off = false →
    s.mayWrite ini off .rwp = true → postBase off = none → (s.pressAt g).pend = false →
    ∃ t, exec (.registerWrite ini off v 15) s = .next t ∧
    t.reg off = v &&& r.mask ∧ (∀ o, o ≠ off → t.reg o = s.reg o) ∧ OnlyChanges [.regs, .hif, .outbox] s t ∧ EventsOnly s t) ∧
  (∀ (s : State) (ini : Ini) (off g : Nat) (v : Word) (r : RegRow), Settled s → off < 2 ^ 24 → off % 4 = 0 → s.regLive off = true →
    rowAt off = some r → r.acc = .rwp → pressOf off = some g → inMsix off = false → inWindow off = false →
    s.mayWrite ini off .rwp = true → postBase off = none → (s.pressAt g).pend = true →
    ∃ t, exec (.registerWrite ini off v 15) s = .next t ∧
    t.pressAt g = { s.pressAt g with lost := (s.pressAt g).lost + 1 } ∧ (∀ o, o ≠ g → t.pressAt o = s.pressAt o) ∧
    t.sys = { s.sys with accAddr := wordOf [(2, off / 4 % 2 ^ 22), (24, 0)] } ∧ OnlyChanges [.sys, .press, .hif, .outbox] s t ∧ EventsOnly s t) ∧
  (∀ (s : State) (ini : Ini) (off : Nat) (v : Word) (r : RegRow), Settled s → off < 2 ^ 24 → off % 4 = 0 → s.regLive off = true →
    rowAt off = some r → r.acc = .rwv → inMsix off = false → inWindow off = false → s.mayWrite ini off .rwv = true →
    postBase off = none → ∃ t, exec (.registerWrite ini off v 15) s = .next t ∧
    t.vote off = { a := v &&& r.mask, b := v &&& r.mask, c := v &&& r.mask } ∧ (∀ o, o ≠ off → t.vote o = s.vote o) ∧
    OnlyChanges [.votes, .hif, .outbox] s t ∧ EventsOnly s t) ∧
  (∀ (s : State) (ini : Ini) (o i : Nat) (v : Word) (r : RegRow), Settled s → o < 2 ^ 20 → o % 4 = 0 → i < 32 → s.regLive o = true →
    rowAt o = some r → r.acc = .rw → r.mask.getLsbD i = true → inMsix o = false → inWindow o = false → s.mayWrite ini o .rw = true →
    postBase o = none → o ≠ Reg.memInjCtrl → o ≠ 0x0A0020 →
    ∃ t, exec (.bitAliasWrite ini (o * 32 + 4 * i) v 15) s = .next t ∧
    (t.reg o).getLsbD i = v.getLsbD 0 ∧ (∀ j, j ≠ i → r.mask.getLsbD j = true → (t.reg o).getLsbD j = (s.reg o).getLsbD j) ∧
    (∀ p, p ≠ o → t.reg p = s.reg p) ∧ OnlyChanges [.regs, .hif, .outbox] s t ∧ EventsOnly s t)

/-- A write that the initiator may make to a register of a posted block makes the block BUSY with it and changes nothing else; while
BUSY is 1 a further write is discarded and counts in LOSTWR. POSTED_WRITE_DONE ends BUSY and gives an RW register of the block
its value (the FIO hart control, the injection trigger, TLY_RDSEQ and the mailbox have commands of their own).
POSTED_BLOCK_FAILED marks the block. -/
def Obligations.PostedWritesWaitInTheirBlock : Prop :=
  (∀ (s : State) (ini : Ini) (off b : Nat) (v : Word) (r : RegRow), Settled s → off < 2 ^ 24 → off % 4 = 0 → s.regLive off = true →
    rowAt off = some r → r.acc ≠ .ro → inMsix off = false → inWindow off = false → s.mayWrite ini off r.acc = true →
    postBase off = some b → (s.posted.look b {}).busy = none → ∃ t, exec (.registerWrite ini off v 15) s = .next t ∧
    t.posted.look b {} = { s.posted.look b {} with busy := some { off := off, val := v } } ∧
    (∀ x, x ≠ b → t.posted.look x {} = s.posted.look x {}) ∧ OnlyChanges [.posted, .hif, .outbox] s t ∧ EventsOnly s t) ∧
  (∀ (s : State) (ini : Ini) (off b : Nat) (v : Word) (r : RegRow), Settled s → off < 2 ^ 24 → off % 4 = 0 → s.regLive off = true →
    rowAt off = some r → r.acc ≠ .ro → inMsix off = false → inWindow off = false → s.mayWrite ini off r.acc = true →
    postBase off = some b → (s.posted.look b {}).busy ≠ none → ∃ t, exec (.registerWrite ini off v 15) s = .next t ∧
    t.posted.look b {} = { s.posted.look b {} with lostwr := (s.posted.look b {}).lostwr + 1 } ∧
    (∀ x, x ≠ b → t.posted.look x {} = s.posted.look x {}) ∧ OnlyChanges [.sys, .posted, .tly, .hif, .outbox] s t ∧ EventsOnly s t) ∧
  (∀ (s : State) (b : Nat) (w : Post) (r : RegRow), s.sys.preempted = [] → (s.posted.look b {}).busy = some w →
    rowAt w.off = some r → r.acc = .rw → w.off ≠ Reg.memInjCtrl → w.off ≠ Reg.tlyRdseq → w.off ≠ Reg.fioHartHctl → w.off ≠ 0x0A0020 →
    ∃ t, exec (.postedWriteDone b) s = .next t ∧ t.reg w.off = w.val &&& r.mask ∧ (∀ o, o ≠ w.off → t.reg o = s.reg o) ∧
    t.posted.look b {} = { s.posted.look b {} with busy := none, failed := false } ∧
    (∀ x, x ≠ b → t.posted.look x {} = s.posted.look x {}) ∧ OnlyChanges [.regs, .posted, .can, .canq, .hif, .outbox] s t ∧ EventsOnly s t) ∧
  (∀ (s : State) (b : Nat), Settled s → (s.posted.look b {}).busy ≠ none → (s.posted.look b {}).failed = false →
    ∃ t, exec (.postedBlockFailed b) s = .next t ∧ t.posted.look b {} = { s.posted.look b {} with failed := true } ∧
    (∀ x, x ≠ b → t.posted.look x {} = s.posted.look x {}) ∧ OnlyChanges [.posted, .tly, .hif, .outbox] s t ∧ EventsOnly s t)

/-- GO of a press control sets PEND, or counts in LOST while PEND is 1; in a posted block when the posted write is done. At the safe
boundary of a pending press whose staging copies are valid together, the live copy of every register of the group takes its
staging copy, every other live copy stays, and PEND and REFUSED are 0; where they are not valid, no live copy changes, PEND is 0
and REFUSED is 1. The staging copies stay in both cases. -/
def Obligations.PressCopiesAWholeGroupOrNothing : Prop :=
  (∀ (s : State) (ini : Ini) (off : Nat) (r : RegRow), Settled s → s.regLive off = true → rowAt off = some r → r.acc = .press →
    r.mask.getLsbD 0 = true → inMsix off = false → inWindow off = false → s.mayWrite ini off .press = true →
    postBase off = none → (s.pressAt off).pend = false →
    ∃ t, exec (.pressGo ini off) s = .next t ∧ t.pressAt off = { s.pressAt off with pend := true } ∧
    (∀ o, o ≠ off → t.pressAt o = s.pressAt o) ∧ OnlyChanges [.press, .hif, .outbox] s t ∧ EventsOnly s t) ∧
  (∀ (s : State) (ini : Ini) (off : Nat) (r : RegRow), Settled s → s.regLive off = true → rowAt off = some r → r.acc = .press →
    r.mask.getLsbD 0 = true → inMsix off = false → inWindow off = false → s.mayWrite ini off .press = true →
    postBase off = none → (s.pressAt off).pend = true →
    ∃ t, exec (.pressGo ini off) s = .next t ∧ t.pressAt off = { s.pressAt off with lost := (s.pressAt off).lost + 1 } ∧
    (∀ o, o ≠ off → t.pressAt o = s.pressAt o) ∧ t.sys = { s.sys with accAddr := wordOf [(2, off / 4 % 2 ^ 22), (24, 0)] } ∧
    OnlyChanges [.sys, .press, .hif, .outbox] s t ∧ EventsOnly s t) ∧
  (∀ (s : State) (ini : Ini) (off b : Nat) (r : RegRow), Settled s → s.regLive off = true → rowAt off = some r → r.acc = .press →
    r.mask.getLsbD 0 = true → inMsix off = false → inWindow off = false → s.mayWrite ini off .press = true → postBase off = some b →
    (s.posted.look b {}).busy = none → ∃ t, exec (.pressGo ini off) s = .next t ∧
    t.posted.look b {} = { s.posted.look b {} with busy := some { off := off, val := 1 } } ∧ OnlyChanges [.posted, .hif, .outbox] s t ∧ EventsOnly s t ∧
    (∃ u, exec (.postedWriteDone b) t = .next u ∧ (u.posted.look b {}).busy = none ∧
      u.pressAt off = (if (s.pressAt off).pend = true then { s.pressAt off with lost := (s.pressAt off).lost + 1 }
        else { s.pressAt off with pend := true }) ∧
      (∀ o, o ≠ off → u.pressAt o = s.pressAt o) ∧ OnlyChanges [.sys, .press, .posted, .hif, .outbox] s u)) ∧
  (∀ (s : State) (off : Nat), s.sys.preempted = [] → s.regLive off = true → inWindow off = false → (s.pressAt off).pend = true →
    s.atBoundary off = true → s.pressOk off = true → ∃ t, exec (.pressApply off) s = .next t ∧
    (∀ m ∈ groupOf off, t.liveReg m = s.reg m) ∧ (∀ o, o ∉ groupOf off → t.liveReg o = s.liveReg o) ∧
    t.pressAt off = { s.pressAt off with pend := false, refused := false } ∧ (∀ o, o ≠ off → t.pressAt o = s.pressAt o) ∧
    OnlyChanges [.sys, .hif, .dpx2, .can, .canq, .fio, .live, .press, .outbox] s t) ∧
  (∀ (s : State) (off : Nat), Settled s → s.regLive off = true → inWindow off = false → (s.pressAt off).pend = true →
    s.atBoundary off = true → s.pressOk off = false → ∃ t, exec (.pressApply off) s = .next t ∧
    t.pressAt off = { s.pressAt off with pend := false, refused := true } ∧ (∀ o, o ≠ off → t.pressAt o = s.pressAt o) ∧
    OnlyChanges [.press, .hif, .outbox] s t ∧ EventsOnly s t)

/-- Where one copy of one voted field is upset and every other voted field agrees, VOTE_SWEEP leaves every field as it was before
the upset and counts one correction. Where the three copies of a field differ, it is held at its safe default, and the count and
SYS_VOTE_ADDR name it. PARITY_SWEEP of a word whose group has not tripped trips that group: for the safety configuration and the
Selvedge parameters it sets both latches and opens every safety output, for the key store it locks the store, and for the role
and the epoch, outside the settle window, it halts the module with cause 0x05, or 0x07 with an in-sync partner. -/
def Obligations.SweepsRestoreVotesAndTripParity : Prop :=
  (∀ (s : State) (o k : Nat) (w : Word), Settled s → s.reach = true → isVoted o = true → k < 3 → (∀ p, (s.vote p).agree = true) →
    (s.vote o).atDefault = false → w ≠ (s.vote o).a → ∃ t, exec (.voteSweep [(o, k, w)]) s = .next t ∧ (∀ p, t.vote p = s.vote p) ∧
    t.sys = { s.sys with voteFix := s.sys.voteFix + 1 } ∧ OnlyChanges [.sys, .votes, .tly, .hif, .outbox] s t ∧ EventsOnly s t) ∧
  (∀ (s : State) (o : Nat), Settled s → s.reach = true → o ∈ s.votes.keys → (∀ p, p ≠ o → (s.vote p).agree = true) →
    (s.vote o).atDefault = false → (s.vote o).majority = false → s.votes.keys.Nodup → ∃ t, exec (.voteSweep []) s = .next t ∧
    (t.vote o).atDefault = true ∧ t.voted o = rstOf o ∧ (∀ p, p ≠ o → t.vote p = s.vote p) ∧
    t.sys = { s.sys with voteFail := s.sys.voteFail + 1, voteAddr := BitVec.ofNat 32 o } ∧ OnlyChanges [.sys, .votes, .tly, .hif, .outbox] s t ∧
    EventsOnly s t) ∧
  (∀ (s : State) (o g : Nat), Settled s → s.reach = true → parityGroup o = some g → g = 1 ∨ g = 2 → s.sys.parityBad = [] →
    g ∉ s.sys.parTrip → ∃ t, exec (.paritySweep [o]) s = .next t ∧
    t.sys = { s.sys with parityBad := [o], parTrip := s.sys.parTrip ++ [g] } ∧ t.saf.sel.set = true ∧ t.saf.sp.set = true ∧
    SafetyOff t ∧ OnlyChanges [.sys, .saf, .tly, .hif, .outbox] s t ∧ EventsOnly s t) ∧
  (∀ (s : State) (o : Nat), Settled s → s.reach = true → parityGroup o = some 3 → s.sys.parityBad = [] → 3 ∉ s.sys.parTrip →
    ∃ t, exec (.paritySweep [o]) s = .next t ∧
    t.sys = { s.sys with parityBad := [o], parTrip := s.sys.parTrip ++ [3] } ∧
    t.boot = { s.boot with ks := { s.boot.ks with locked := true } } ∧ OnlyChanges [.sys, .boot, .tly, .hif, .outbox] s t ∧ EventsOnly s t) ∧
  (∀ (s : State) (o : Nat), s.reach = true → s.running = true → s.settling = false → s.sys.mode ≠ .faultHalt → parityGroup o = some 4 →
    s.sys.parityBad = [] → 4 ∉ s.sys.parTrip → ∃ t, exec (.paritySweep [o]) s = .next t ∧ t.sys.mode = .faultHalt ∧
    t.sys.primary = false ∧ t.sys.haltCause = (if s.insync then 7 else 5) ∧ t.sys.parTrip = s.sys.parTrip ++ [4] ∧
    t.sys.parityBad = [o] ∧ SafetyOff t ∧ OnlyChanges [.sys, .hif, .cyc, .lsp, .dpx, .dpx2, .can, .canq, .fio, .saf, .tly, .mm, .outbox] s t)

/-- Under supervision a kick restarts the host-liveness time and ends HOST_LOST, and the expiry sets HOST_LOST and writes warning
record 0x0007; without supervision neither has any effect. In FAULT-HALT, RECOVERY and a held BOOT the first word of the restart
key is kept with its time; the second word within 1 ms restarts the module at boot step 2 (State.restart) and counts no power
cycle. A first word of another value, a second word that differs or comes later, and any word in another mode count in SEQ of
SYS_ACCFAULT, leave SYS_RESTART's offset in SYS_ACCADDR and forget the key; beside these nothing changes but the bookkeeping of
the access-fault record, the record and the events. -/
def Obligations.HostLivenessAndTheRestartKey : Prop :=
  (∀ (s : State) (v : Word), Settled s → s.reach = true → (s.liveReg Reg.sysHlwMode).getLsbD 0 = true →
    ∃ t, exec (.sysHlwKick v) s = .next t ∧ t.sys = { s.sys with hlwFrom := s.sys.opNs, hostLost := false } ∧
    OnlyChanges [.sys, .hif, .outbox] s t ∧ EventsOnly s t) ∧
  (∀ (s : State) (v : Word), Settled s → s.reach = true → (s.liveReg Reg.sysHlwMode).getLsbD 0 = false →
    exec (.sysHlwKick v) s = .next s) ∧
  (∀ s : State, Settled s → s.reach = true → (s.liveReg Reg.sysHlwMode).getLsbD 0 = true → s.sys.hostLost = false →
    ∃ t, exec .hostLivenessExpiry s = .next t ∧ t.sys = { s.sys with hostLost := true } ∧
    t.tly = (s.log 0x0007 3 (le 4 (s.liveReg Reg.sysHlwTime).toNat)).tly ∧ OnlyChanges [.sys, .tly, .hif, .outbox] s t ∧ EventsOnly s t) ∧
  (∀ s : State, s.reach = true → (s.liveReg Reg.sysHlwMode).getLsbD 0 = false → exec .hostLivenessExpiry s = .next s) ∧
  (∀ (s : State) (obs : BootObs), Settled s → s.reach = true → s.restartable = true → s.sys.restartKey = none →
    ∃ t, exec (.sysRestart 0x0000A5C3 obs) s = .next t ∧ t.sys = { s.sys with restartKey := some s.sys.opNs } ∧
    OnlyChanges [.sys, .hif, .outbox] s t ∧ EventsOnly s t) ∧
  (∀ (s : State) (v : Word) (obs : BootObs), Settled s → s.reach = true → s.restartable = true → s.sys.restartKey = none → v ≠ 0x0000A5C3 →
    ∃ t, exec (.sysRestart v obs) s = .next t ∧
    t.sys = { s.sys with seqErr := s.sys.seqErr + 1, restartKey := none, accAddr := 0x000044, warned := t.sys.warned
                         further := t.sys.further } ∧
    OnlyChanges [.sys, .tly, .hif, .outbox] s t ∧ EventsOnly s t) ∧
  (∀ (s : State) (obs : BootObs) (t0 : Nat), s.reach = true → s.restartable = true → s.sys.restartKey = some t0 →
    s.sys.opNs ≤ t0 + 1000000 → ∃ t, exec (.sysRestart 0x00003C5A obs) s = .next t ∧ t.hif.crs = false ∧
    t.sys.pwrcyc = s.sys.pwrcyc ∧ t.sys.restartKey = none ∧
    t = settleState s (({ s with sys := { s.sys with restartKey := none } } : State).restart obs)) ∧
  (∀ (s : State) (v : Word) (obs : BootObs) (t0 : Nat), Settled s → s.reach = true → s.restartable = true →
    s.sys.restartKey = some t0 → v ≠ 0x00003C5A ∨ t0 + 1000000 < s.sys.opNs → ∃ t, exec (.sysRestart v obs) s = .next t ∧
    t.sys = { s.sys with seqErr := s.sys.seqErr + 1, restartKey := none, accAddr := 0x000044, warned := t.sys.warned
                         further := t.sys.further } ∧
    OnlyChanges [.sys, .tly, .hif, .outbox] s t ∧ EventsOnly s t) ∧
  (∀ (s : State) (v : Word) (obs : BootObs), Settled s → s.reach = true → s.restartable = false →
    ∃ t, exec (.sysRestart v obs) s = .next t ∧
    t.sys = { s.sys with seqErr := s.sys.seqErr + 1, restartKey := none, accAddr := 0x000044, warned := t.sys.warned
                         further := t.sys.further } ∧
    OnlyChanges [.sys, .tly, .hif, .outbox] s t ∧ EventsOnly s t)

/-- From RETAIN, or from BOOT before step 2, POWER_GOOD starts the module whatever the start finds: the power-cycle counter counts
one and configuration requests are answered from then on. A key store that fails its parity holds the module in BOOT with cause
2 and no primary role. -/
def Obligations.PowerGoodStartsTheModule : Prop :=
  (∀ (s : State) (obs : BootObs), s.sys.mode = .retain ∨ (s.sys.mode = .boot ∧ s.hif.crs = true) →
    ∃ t, exec (.powerGood obs) s = .next t ∧ t.sys.pwrcyc = s.sys.pwrcyc + 1 ∧ t.hif.crs = false) ∧
  (∀ (s : State) (obs : BootObs), s.sys.mode = .retain ∨ (s.sys.mode = .boot ∧ s.hif.crs = true) → obs.ksParity = false →
    ∃ t, exec (.powerGood obs) s = .next t ∧ t.sys.mode = .boot ∧ t.sys.primary = false ∧ t.boot.held = true ∧ t.boot.cause = 2 ∧
    t.boot.step = 2 ∧ t.hif.rings = [] ∧ t.hif.journal = s.hif.journal)

/-- A full-word write to a doorbell of an existing ring that is not halted is kept, and moves the submission tail, the completion
head or the event head to it, where no cause of R99 holds; every other ring stays. Where a cause holds, the ring is halted with
that cause in HIF_ERRINFO and its index stays; of a command in it, one whose recording has begun stays, and another completes
with ABORTED. A halted ring only keeps the value (log entry 118). A write beyond BAR2 or not at a whole word is a fault of the
model. Incomplete byte enables count in PARTIAL, a word that is no doorbell of an existing ring in UNASSIGNED, and SYS_ACCADDR
takes the BAR2 offset with SPACE 1. -/
def Obligations.DoorbellsMoveIndicesOrHaltTheRing : Prop :=
  (∀ (s : State) (p k : Nat) (v : Word) (be : BitVec 4), 256 ≤ p ∨ 0x1000 ≤ k → exec (.submissionDoorbell ⟨p, k⟩ v be) s = .fault .outsideBar) ∧
  (∀ (s : State) (p : Nat) (v : Word) (be : BitVec 4), 256 ≤ p → exec (.completionDoorbell p v be) s = .fault .outsideBar) ∧
  (∀ (s : State) (p k : Nat) (v : Word) (be : BitVec 4), p < 256 → k < 0x1000 → k % 4 ≠ 0 →
    exec (.submissionDoorbell ⟨p, k⟩ v be) s = .fault .notWordAligned) ∧
  (∀ (s : State) (p : Nat) (v : Word), Settled s → p < 17 → s.reach = true → (s.ring p).live = true → (s.ring p).halted = false →
    doorbellCause (s.ring p).sqK (s.ring p).tail (ringDist (s.ring p).sqK (s.ring p).tail ((s.ring p).sqHead + 2 ^ (s.ring p).sqK - 1)) 2
      v = none → ∃ t, exec (.submissionDoorbell ⟨p, 0⟩ v 15) s = .next t ∧
    t.ring p = { s.ring p with sqDb := v, tail := v.toNat % 2 ^ 16 } ∧ (∀ n, n ≠ p → t.ring n = s.ring n) ∧ OnlyChanges [.hif] s t) ∧
  (∀ (s : State) (p : Nat) (v : Word), Settled s → p < 17 → s.reach = true → (s.ring p).live = true → (s.ring p).halted = false →
    doorbellCause (s.ring p).cqK (s.ring p).headDb (ringDist (s.ring p).cqK (s.ring p).headDb (s.ring p).cqTail) 5 v = none →
    ∃ t, exec (.completionDoorbell p v 15) s = .next t ∧
    t.ring p = { s.ring p with cqDb := v, headDb := v.toNat % 2 ^ 16 } ∧ (∀ n, n ≠ p → t.ring n = s.ring n) ∧ OnlyChanges [.hif] s t) ∧
  (∀ (s : State) (v : Word), Settled s → s.reach = true → s.hif.ev.live = true → s.hif.ev.halted = false →
    doorbellCause s.hif.ev.k s.hif.ev.headDb (ringDist s.hif.ev.k s.hif.ev.headDb s.hif.ev.tail) 5 v = none →
    exec (.completionDoorbell 17 v 15) s = .next { s with hif := { s.hif with
      ev := { s.hif.ev with cqDb := v, headDb := v.toNat % 2 ^ 16 } } }) ∧
  (∀ (s : State) (p c : Nat) (v : Word), Settled s → p < 17 → s.reach = true → (s.ring p).live = true → (s.ring p).halted = false →
    (∀ i, (s.ring p).infl = some i → i.begun = true) →
    doorbellCause (s.ring p).sqK (s.ring p).tail (ringDist (s.ring p).sqK (s.ring p).tail ((s.ring p).sqHead + 2 ^ (s.ring p).sqK - 1)) 2
      v = some c → ∃ t, exec (.submissionDoorbell ⟨p, 0⟩ v 15) s = .next t ∧ t.ring p = { s.ring p with sqDb := v, halted := true } ∧
    (∀ n, n ≠ p → t.ring n = s.ring n) ∧ t.hif.errInfo = wordOf [(0, p), (8, c), (16, if c = 3 then 0 else v.toNat % 2 ^ 16)] ∧
    OnlyChanges [.hif, .tly, .outbox] s t) ∧
  (∀ (s : State) (p c : Nat) (v : Word), Settled s → p < 17 → s.reach = true → (s.ring p).live = true → (s.ring p).halted = false →
    (∀ i, (s.ring p).infl = some i → i.begun = true) →
    doorbellCause (s.ring p).cqK (s.ring p).headDb (ringDist (s.ring p).cqK (s.ring p).headDb (s.ring p).cqTail) 5 v = some c →
    ∃ t, exec (.completionDoorbell p v 15) s = .next t ∧ t.ring p = { s.ring p with cqDb := v, halted := true, cqHalt := true } ∧
    (∀ n, n ≠ p → t.ring n = s.ring n) ∧ t.hif.errInfo = wordOf [(0, p), (8, c), (16, if c = 3 then 0 else v.toNat % 2 ^ 16)] ∧
    OnlyChanges [.hif, .tly, .outbox] s t) ∧
  (∀ (s : State) (c : Nat) (v : Word), Settled s → s.reach = true → s.hif.ev.live = true → s.hif.ev.halted = false →
    doorbellCause s.hif.ev.k s.hif.ev.headDb (ringDist s.hif.ev.k s.hif.ev.headDb s.hif.ev.tail) 5 v = some c →
    ∃ t, exec (.completionDoorbell 17 v 15) s = .next t ∧ t.hif.ev = { s.hif.ev with cqDb := v, halted := true } ∧
    (∀ n, t.ring n = s.ring n) ∧ t.hif.errInfo = wordOf [(0, 17), (8, c), (16, if c = 3 then 0 else v.toNat % 2 ^ 16)] ∧
    OnlyChanges [.hif, .tly] s t) ∧
  (∀ (s : State) (p c : Nat) (v : Word) (i : Infl), Settled s → p < 17 → s.reach = true → (s.ring p).live = true →
    (s.ring p).halted = false → (s.ring p).cqHalt = false → (s.ring p).deleting = false → (s.ring p).infl = some i → i.begun = false →
    i.cmd.slot = p → i.cmd.cqeOk = true →
    doorbellCause (s.ring p).sqK (s.ring p).tail (ringDist (s.ring p).sqK (s.ring p).tail ((s.ring p).sqHead + 2 ^ (s.ring p).sqK - 1)) 2
      v = some c → ∃ t q, exec (.submissionDoorbell ⟨p, 0⟩ v 15) s = .next t ∧ Out.cqe p q ∈ t.outbox ∧ q.reqId = i.cmd.reqId ∧
    q.status = 0x000F ∧ (t.ring p).infl = none ∧ (t.ring p).halted = true ∧ (t.ring p).tail = (s.ring p).tail ∧
    (∀ n, n ≠ p → t.ring n = s.ring n) ∧ OnlyChanges [.sys, .hif, .chg, .dpx2, .boot, .tly, .outbox] s t) ∧
  (∀ (s : State) (p : Nat) (v : Word), Settled s → p < 17 → s.reach = true → (s.ring p).live = true → (s.ring p).halted = true →
    exec (.submissionDoorbell ⟨p, 0⟩ v 15) s = .next (s.updRing p fun r => { r with sqDb := v }) ∧
    exec (.completionDoorbell p v 15) s = .next (s.updRing p fun r => { r with cqDb := v })) ∧
  (∀ (s : State) (p k : Nat) (v : Word) (be : BitVec 4), Settled s → p < 256 → k < 0x1000 → k % 4 = 0 → s.reach = true → be ≠ 15 →
    ∃ t, exec (.submissionDoorbell ⟨p, k⟩ v be) s = .next t ∧
    t.sys = { s.sys with partial_ := s.sys.partial_ + 1, accAddr := wordOf [(2, (p * 0x1000 + k) / 4 % 2 ^ 22), (24, 1)]
                         warned := t.sys.warned, further := t.sys.further } ∧ OnlyChanges [.sys, .tly] s t) ∧
  (∀ (s : State) (p : Nat) (v : Word) (be : BitVec 4), Settled s → p < 256 → s.reach = true → be ≠ 15 →
    ∃ t, exec (.completionDoorbell p v be) s = .next t ∧
    t.sys = { s.sys with partial_ := s.sys.partial_ + 1, accAddr := wordOf [(2, (p * 0x1000 + 4) / 4 % 2 ^ 22), (24, 1)]
                         warned := t.sys.warned, further := t.sys.further } ∧ OnlyChanges [.sys, .tly] s t) ∧
  (∀ (s : State) (p k : Nat) (v : Word), Settled s → p < 256 → k < 0x1000 → k % 4 = 0 → s.reach = true →
    17 < p ∨ s.slotLive p = false ∨ (k ≠ 0 ∧ k ≠ 4) ∨ (p = 17 ∧ k = 0) → ∃ t, exec (.submissionDoorbell ⟨p, k⟩ v 15) s = .next t ∧
    t.sys = { s.sys with unassigned := s.sys.unassigned + 1, accAddr := wordOf [(2, (p * 0x1000 + k) / 4 % 2 ^ 22), (24, 1)]
                         warned := t.sys.warned, further := t.sys.further } ∧ OnlyChanges [.sys, .tly] s t) ∧
  (∀ (s : State) (p : Nat) (v : Word), Settled s → p < 256 → s.reach = true → 17 < p ∨ s.slotLive p = false →
    ∃ t, exec (.completionDoorbell p v 15) s = .next t ∧
    t.sys = { s.sys with unassigned := s.sys.unassigned + 1, accAddr := wordOf [(2, (p * 0x1000 + 4) / 4 % 2 ^ 22), (24, 1)]
                         warned := t.sys.warned, further := t.sys.further } ∧ OnlyChanges [.sys, .tly] s t)

/-- MSIX_UNMASK unmasks its vector and sends its pending message. The coalescing time clears the uncounted completions of its ring
and sends its vector, or sets its pending bit. The flush empties the class N list, with one host-work record per entry to an
in-sync partner. PCIE_RESET deletes every ring and the event ring, masks every vector and gives the HIF registers their reset
values; mode and role, journal, windows and counters stay, and a command whose record is unacknowledged is kept. A record that
is not acknowledged in time ends INSYNC and is counted; the record of a refused command and that of a FORCE_SET are journaled,
and their commands complete. A failed entry fetch halts its ring, a failed payload fetch or return-data write of the opcodes
named completes with DMA_ERR, a failed completion write of NOP halts the ring; a failed event write counts the event as lost and
gives its entry back. Each failed access counts in HIF_DMAERR. -/
def Obligations.InterruptsWindowsAndPcieReset : Prop :=
  (∀ (s : State) (v : Fin 64), s.reach = true → exec (.msixUnmask v) s = .next { s with
    hif := { s.hif with msixMask := s.hif.msixMask.filter fun x => x != v.val, msixPend := s.hif.msixPend.filter fun x => x != v.val }
    outbox := s.outbox ++ (if v.val ∈ s.hif.msixPend then [.msix v.val] else []) }) ∧
  (∀ (s : State) (n : Nat), (s.ring n).live = true → 0 < (s.ring n).uncounted → ∃ t, exec (.interruptCoalesceTimeout n) s = .next t ∧
    t.ring n = { s.ring n with uncounted := 0 } ∧ (∀ m, m ≠ n → t.ring m = s.ring m) ∧
    ((s.ring n).vector ∉ s.hif.msixMask → t.outbox = s.outbox ++ [.msix (s.ring n).vector]) ∧
    ((s.ring n).vector ∈ s.hif.msixMask → (s.ring n).vector ∈ t.hif.msixPend ∧ t.outbox = s.outbox) ∧ OnlyChanges [.hif, .outbox] s t) ∧
  (∀ s : State, s.running = true → s.insync = true → s.cfg.partner = true → ∃ t, exec .windowEntryFlush s = .next t ∧
    t.hif = { s.hif with nWin := [] } ∧ t.dpx2.rseqTx = s.dpx2.rseqTx + BitVec.ofNat 64 s.hif.nWin.length ∧
    t.dpx2.hwOut = s.dpx2.hwOut ++ (List.range s.hif.nWin.length).map (fun i => s.dpx2.rseqTx + 1 + BitVec.ofNat 64 i) ∧
    t.outbox.length = s.outbox.length + s.hif.nWin.length ∧ t.outbox.take s.outbox.length = s.outbox ∧
    (∀ x ∈ t.outbox.drop s.outbox.length, ∃ b : BRec, x = .baste b ∧ b.type = 3 ∧ b.sync = false) ∧ OnlyChanges [.hif, .dpx2, .outbox] s t) ∧
  (∀ s : State, s.running = true → s.insync = false → exec .windowEntryFlush s = .next { s with hif := { s.hif with nWin := [] } }) ∧
  (∀ s : State, s.sys.mode ≠ .retain → ∃ t, exec .pcieReset s = .next t ∧
    t.hif = { s.hif with rings := [], ev := {}, adminLive := false, errInfo := 0, msixMask := List.range 64, msixPend := [], heldCq := []
                         lost := t.hif.lost } ∧
    t.sys = { s.sys with trans := t.sys.trans, preempted := t.sys.preempted } ∧
    (∀ n i, (s.ring n).infl = some i → i.ackRseq.isSome = true → i ∈ t.hif.lost) ∧
    (∀ o, o / 0x10000 = 1 → t.reg o = rstOf o ∧ t.liveReg o = rstOf o ∧ t.pressAt o = {}) ∧
    (∀ o, o / 0x10000 ≠ 1 → t.reg o = s.reg o ∧ t.liveReg o = s.liveReg o ∧ t.pressAt o = s.pressAt o) ∧
    OnlyChanges [.sys, .hif, .chg, .dpx2, .boot, .regs, .live, .press] s t) ∧
  (∀ (s : State) (rseq : DWord) (n : Nat) (i : Infl), s.running = true → s.insync = true → s.awaiting rseq = some n →
    (s.ring n).infl = some i → i.cmd.slot = n → i.status ≠ St.ok → (s.hostOp i.cmd).isSome = true → i.cmd.cqeOk = true →
    (s.ring n).cqHalt = false → ∃ t c, exec (.mirrorAckTimeout rseq) s = .next t ∧
    t.dpx.state ≠ .insync ∧ t.dpx2.ackTo = s.dpx2.ackTo + 1 ∧ t.hif.jseq = s.hif.jseq + 1 ∧
    Out.cqe n c ∈ t.outbox ∧ c.reqId = i.cmd.reqId ∧ c.status = i.status ∧ c.mirrored = false ∧ c.journaled = decide (s.hif.jseq + 1 ≠ 0) ∧
    c.jseq = s.hif.jseq + 1 ∧ OnlyChanges [.sys, .hif, .dpx, .dpx2, .can, .canq, .tly, .outbox] s t) ∧
  (∀ (s : State) (rseq : DWord) (n : Nat) (i : Infl), s.running = true → s.insync = true → s.awaiting rseq = some n →
    (s.ring n).infl = some i → i.cmd.slot = n → i.status = St.ok → i.cmd.opcode = 0x43 → i.cmd.cqeOk = true →
    (s.ring n).cqHalt = false → ∃ t c, exec (.mirrorAckTimeout rseq) s = .next t ∧
    t.dpx.state ≠ .insync ∧ t.dpx2.ackTo = s.dpx2.ackTo + 1 ∧ t.hif.jseq = s.hif.jseq + 1 ∧
    t.cyc.forces = (s.setForces (classOf i.cmd) (elemsOf true i.cmd)).cyc.forces ∧
    Out.cqe n c ∈ t.outbox ∧ c.reqId = i.cmd.reqId ∧ c.status = 0 ∧ c.mirrored = false ∧ c.jseq = s.hif.jseq + 1 ∧
    OnlyChanges [.sys, .hif, .cyc, .dpx, .dpx2, .can, .canq, .tly, .outbox] s t) ∧
  (∀ (s : State) (rseq : DWord), s.running = true → s.insync = true → s.awaiting rseq = none → s.lostOf rseq = none →
    rseq ∈ s.dpx2.hwOut → ∃ t, exec (.mirrorAckTimeout rseq) s = .next t ∧ t.dpx.state ≠ .insync ∧ t.dpx2.ackTo = s.dpx2.ackTo + 1 ∧
    t.hif.jseq = s.hif.jseq ∧ OnlyChanges [.sys, .hif, .dpx, .dpx2, .can, .canq, .tly, .outbox] s t) ∧
  (∀ (s : State) (n : Nat), Settled s → s.canTake n .n = true → n ≠ 17 →
    ∃ t, exec (.hostMemoryError (.entry n)) s = .next t ∧ t.ring n = { s.ring n with halted := true } ∧
    (∀ m, m ≠ n → t.ring m = s.ring m) ∧ t.hif.dmaErr = s.hif.dmaErr + 1 ∧ t.hif.errInfo = wordOf [(0, n), (8, 3)] ∧ OnlyChanges [.hif, .tly, .outbox] s t) ∧
  (∀ (s : State) (h : Hcmd) (op : HostOp), Settled s → h.opcode ∈ ([0x41, 0x43, 0x44, 0x45, 0x48] : List Byte) → s.hostOp h = some op →
    s.canTake h.slot op.dur = true → op.static { h with fetchOk := false } = some St.dmaErr → (s.ring h.slot).cqHalt = false →
    h.cqeOk = true → ∃ t l, exec (.hostMemoryError (.payload h)) s = .next t ∧ Completed h 0x0004 l s t ∧
    t.hif.dmaErr = s.hif.dmaErr + 1 ∧ t.hif.wins = s.hif.wins ∧ OnlyChanges [.hif, .outbox] s t) ∧
  (∀ (s : State) (h : Hcmd), Offered opIdentify h s → h.opcode = 0x01 → ∃ t l, exec (.hostMemoryError (.returned h)) s = .next t ∧
    Completed h 0x0004 l s t ∧ t.hif.dmaErr = s.hif.dmaErr + 1 ∧ OnlyChanges [.hif, .outbox] s t) ∧
  (∀ (s : State) (h : Hcmd), Offered (opNop false) h s → h.opcode = 0x40 → ∃ t, exec (.hostMemoryError (.completion h)) s = .next t ∧
    (t.ring h.slot).halted = true ∧ (t.ring h.slot).infl = none ∧ (∀ n, n ≠ h.slot → t.ring n = s.ring n) ∧
    t.hif.dmaErr = s.hif.dmaErr + 1 ∧ OnlyChanges [.hif, .tly, .outbox] s t) ∧
  (∀ s : State, Settled s → s.hif.ev.live = true → s.hif.ev.halted = false → s.hif.ev.tail ≠ s.hif.ev.headDb →
    ∃ t, exec (.hostMemoryError .event) s = .next t ∧ t.hif.dmaErr = s.hif.dmaErr + 1 ∧ t.hif.evtLost = s.hif.evtLost + 1 ∧
    t.hif.evLoss = true ∧ t.hif.ev.tail = (s.hif.ev.tail + 2 ^ s.hif.ev.k - 1) % 2 ^ s.hif.ev.k ∧ (∀ m, t.ring m = s.ring m) ∧ OnlyChanges [.hif] s t)

/-- A NOP of either ring, IDENTIFY, ATTEST_QUOTE, TALLY_READ and PROGRAM_LOAD STATUS that the ring offers, with a well-formed entry
and, on a primary, a new identifier, complete with status 0 in the same step; on a primary the identifier becomes H. The return
data leaves before the completion: 4,096 identity bytes that begin with SYS_ID, a quote that begins with its format, the records
that TALLY_READ asks for, status bytes that begin with the active and the previous version. An entry whose opcode Table 4.7 does
not list completes with INVALID_OPCODE (taken by the row NOP, log entry 119). Nothing but the HIF block changes, and no other
ring. -/
def Obligations.UnrecordedCommandsCompleteAtOnce : Prop :=
  (∀ (s : State) (h : Hcmd), Offered (opNop true) h s → knownOp h.opcode = true → ∃ t l, exec (.nop h) s = .next t ∧ Completed h 0 l s t ∧
    (s.sys.primary = true → (t.win h.slot).high = h.reqId) ∧ (∀ n, n ≠ h.slot → t.ring n = s.ring n) ∧ OnlyChanges [.hif, .outbox] s t) ∧
  (∀ (s : State) (h : Hcmd), Offered (opNop true) h s → knownOp h.opcode = false → ∃ t l, exec (.nop h) s = .next t ∧
    Completed h 0x0001 l s t ∧ t.hif.wins = s.hif.wins ∧ (∀ n, n ≠ h.slot → t.ring n = s.ring n) ∧ OnlyChanges [.hif, .outbox] s t) ∧
  (∀ (s : State) (h : Hcmd), Offered (opNop false) h s → ∃ t l, exec (.nopCommand h) s = .next t ∧ Completed h 0 l s t ∧
    (s.sys.primary = true → (t.win h.slot).high = h.reqId) ∧ (∀ n, n ≠ h.slot → t.ring n = s.ring n) ∧ OnlyChanges [.hif, .outbox] s t) ∧
  (∀ (s : State) (h : Hcmd), Offered opIdentify h s → h.retOk = true → ∃ t l b, exec (.identify h) s = .next t ∧ Completed h 0 l s t ∧
    l.head? = some (Out.ret h.slot h.rptr b) ∧ b.length = 4096 ∧ b.take 4 = le 4 s.sysId.toNat ∧
    (s.sys.primary = true → (t.win h.slot).high = h.reqId) ∧ (∀ n, n ≠ h.slot → t.ring n = s.ring n) ∧ OnlyChanges [.hif, .outbox] s t) ∧
  (∀ (s : State) (h : Hcmd), Offered opQuote h s → h.retOk = true → ∃ t l b, exec (.attestQuote h) s = .next t ∧ Completed h 0 l s t ∧
    l.head? = some (Out.ret h.slot h.rptr b) ∧ b.take 2 = [0x02, 0x17] ∧
    (s.sys.primary = true → (t.win h.slot).high = h.reqId) ∧ (∀ n, n ≠ h.slot → t.ring n = s.ring n) ∧ OnlyChanges [.hif, .outbox] s t) ∧
  (∀ (s : State) (h : Hcmd), Offered opTallyRead h s → h.retOk = true → ∃ t l, exec (.tallyRead h) s = .next t ∧ Completed h 0 l s t ∧
    ((s.tallyRead h).ret ≠ [] → l.head? = some (Out.ret h.slot h.rptr (s.tallyRead h).ret)) ∧
    (s.sys.primary = true → (t.win h.slot).high = h.reqId) ∧ (∀ n, n ≠ h.slot → t.ring n = s.ring n) ∧ OnlyChanges [.hif, .outbox] s t) ∧
  (∀ (s : State) (h : Hcmd), Offered opStatus (loadEntry h 2) s → h.retOk = true → ∃ t l b, exec (.programLoadStatus h) s = .next t ∧
    Completed h 0 l s t ∧ l.head? = some (Out.ret h.slot h.rptr b) ∧ b.take 8 = le 4 s.chg.actVer.toNat ++ le 4 s.chg.prevVer.toNat ∧
    (s.sys.primary = true → (t.win h.slot).high = h.reqId) ∧ (∀ n, n ≠ h.slot → t.ring n = s.ring n) ∧ OnlyChanges [.hif, .outbox] s t)

/-- On a free slot RING_CREATE makes the ring its entry names, with its phase at 1 and its indices at 0, where no completion waits
for that slot; one that waits for it is written into the new pair. RING_DELETE removes the ring of its slot; a command in it
whose recording has not begun completes with ABORTED first, and for one whose recording has begun the ring is marked and
RING_DELETE waits. EVENT_CREATE and EVENT_DELETE make and remove the event ring. Each completes with status 0 unless it waits,
and no other ring changes but the admin ring it came from. -/
def Obligations.RingAndEventRingCommands : Prop :=
  (∀ (s : State) (h : Hcmd), Offered opRingCreate h s → (s.ring (h.target.toNat + 1)).live = false →
    (∀ e ∈ s.hif.heldCq, e.2.slot ≠ h.target.toNat + 1) → ∃ t l, exec (.ringCreate h) s = .next t ∧ Completed h 0 l s t ∧
    t.ring (h.target.toNat + 1) = { live := true, sqBase := h.dptr, cqBase := h.rptr, sqK := h.param0.toNat % 32
                                    cqK := h.param0.toNat / 256 % 32, vector := h.param0.toNat / 65536 % 64
                                    coalN := h.param1.toNat % 65536, coalT := h.param1.toNat / 65536 } ∧
    (∀ n, n ≠ h.slot → n ≠ h.target.toNat + 1 → t.ring n = s.ring n) ∧ OnlyChanges [.hif, .outbox] s t) ∧
  (∀ (s : State) (h : Hcmd) (e : Bool × Cqe), Offered opRingCreate h s → (s.ring (h.target.toNat + 1)).live = false →
    e ∈ s.hif.heldCq → e.2.slot = h.target.toNat + 1 → ∃ t l c, exec (.ringCreate h) s = .next t ∧ Completed h 0 l s t ∧
    Out.cqe (h.target.toNat + 1) c ∈ l ∧ c.reqId = e.2.reqId ∧ c.status = e.2.status ∧ (t.ring (h.target.toNat + 1)).live = true ∧
    (∀ n, n ≠ h.slot → n ≠ h.target.toNat + 1 → t.ring n = s.ring n) ∧ OnlyChanges [.hif, .outbox] s t) ∧
  (∀ (s : State) (h : Hcmd), Offered opRingDelete h s → (s.ring (h.target.toNat + 1)).live = true →
    (s.ring (h.target.toNat + 1)).infl = none → ∃ t l, exec (.ringDelete h) s = .next t ∧ Completed h 0 l s t ∧
    t.ring (h.target.toNat + 1) = {} ∧ (∀ n, n ≠ h.slot → n ≠ h.target.toNat + 1 → t.ring n = s.ring n) ∧ OnlyChanges [.hif, .outbox] s t) ∧
  (∀ (s : State) (h : Hcmd) (i : Infl), Offered opRingDelete h s → (s.ring (h.target.toNat + 1)).live = true →
    (s.ring (h.target.toNat + 1)).infl = some i → i.begun = true → ∃ t, exec (.ringDelete h) s = .next t ∧ Waiting h s t ∧
    t.ring (h.target.toNat + 1) = { s.ring (h.target.toNat + 1) with deleting := true } ∧
    (∀ n, n ≠ h.slot → n ≠ h.target.toNat + 1 → t.ring n = s.ring n) ∧ OnlyChanges [.hif, .outbox] s t) ∧
  (∀ (s : State) (h : Hcmd) (i : Infl), Offered opRingDelete h s → (s.ring (h.target.toNat + 1)).live = true →
    (s.ring (h.target.toNat + 1)).infl = some i → i.begun = false → i.cmd.slot = h.target.toNat + 1 → i.cmd.cqeOk = true →
    (s.ring (h.target.toNat + 1)).cqHalt = false → (s.ring (h.target.toNat + 1)).deleting = false →
    ∃ t l c, exec (.ringDelete h) s = .next t ∧ Completed h 0 l s t ∧ Out.cqe (h.target.toNat + 1) c ∈ l ∧ c.reqId = i.cmd.reqId ∧
    c.status = 0x000F ∧ t.ring (h.target.toNat + 1) = {} ∧ (∀ n, n ≠ h.slot → n ≠ h.target.toNat + 1 → t.ring n = s.ring n) ∧
    OnlyChanges [.sys, .hif, .chg, .dpx2, .boot, .outbox] s t) ∧
  (∀ (s : State) (h : Hcmd), Offered opEventCreate h s → s.hif.ev.live = false →
    ∃ t l, exec (.eventCreate h) s = .next t ∧ Completed h 0 l s t ∧
    t.hif.ev = { live := true, base := h.dptr, k := h.param0.toNat % 32, vector := h.param0.toNat / 65536 % 64
                 minSev := h.param0.toNat / 2 ^ 24 % 8, tail := t.hif.ev.tail, phase := t.hif.ev.phase } ∧
    (∀ n, n ≠ h.slot → t.ring n = s.ring n) ∧ OnlyChanges [.hif, .outbox] s t) ∧
  (∀ (s : State) (h : Hcmd), Offered opEventDelete h s → s.hif.ev.live = true →
    ∃ t l, exec (.eventDelete h) s = .next t ∧ Completed h 0 l s t ∧ t.hif.ev = {} ∧
    (∀ n, n ≠ h.slot → t.ring n = s.ring n) ∧ OnlyChanges [.hif, .outbox] s t)

/-- On a primary without an in-sync partner, VAR_WRITE, FORCE_SET, FORCE_CLEAR, LOOP_WRITE and TALLY_CLEAR whose checks pass take
the next journal number, enter the window as H, have their effect and complete with status 0 in the same step. A VAR_WRITE to a
class whose cycles run appends its elements to the class's pending-write buffer; to another class it writes them at once. A
TALLY_CLEAR clears its range of its region alone; one with a token draws a new nonce, and completes with the status of a check
that fails, with its region as it was. A VAR_WRITE or a LOOP_WRITE that must wait stays in its ring (log entry 9). VAR_READ and
LOOP_READ return their data before their completion where they need not wait, and wait in their ring where they must. -/
def Obligations.JournaledCommandsTakeEffectAndComplete : Prop :=
  (∀ (s : State) (h : Hcmd), Offered opVarWrite h s → s.sys.primary = true → s.insync = false → s.writeWaits h = false →
    s.checkVarWrite h = .go → s.writePends (classOf h) = true → ∃ t l, exec (.varWrite h) s = .next t ∧ Completed h 0 l s t ∧
    t.cmem (classOf h) = { s.cmem (classOf h) with pendWr := (s.cmem (classOf h)).pendWr ++ elemsOf true h } ∧
    (∀ c, c ≠ classOf h → t.cmem c = s.cmem c) ∧ t.cyc = { s.cyc with mem := t.cyc.mem } ∧ t.hif.jseq = s.hif.jseq + 1 ∧
    (t.win h.slot).high = h.reqId ∧ OnlyChanges [.hif, .cyc, .outbox] s t) ∧
  (∀ (s : State) (h : Hcmd), Offered opVarWrite h s → s.sys.primary = true → s.insync = false → s.writeWaits h = false →
    s.checkVarWrite h = .go → s.writePends (classOf h) = false → ∃ t l, exec (.varWrite h) s = .next t ∧ Completed h 0 l s t ∧
    t.cyc = ((elemsOf true h).foldl (fun (u : State) e => u.pokeNow e) s).cyc ∧ t.hif.jseq = s.hif.jseq + 1 ∧
    (t.win h.slot).high = h.reqId ∧ OnlyChanges [.hif, .cyc, .outbox] s t) ∧
  (∀ (s : State) (h : Hcmd), s.writeWaits h = true → varStatic true false { h with opcode := 0x42 } = none →
    exec (.varWrite h) s = .next s) ∧
  (∀ (s : State) (h : Hcmd), Offered opForceSet h s → s.sys.primary = true → s.insync = false → s.checkForceSet h = .go →
    ∃ t l, exec (.forceSet h) s = .next t ∧ Completed h 0 l s t ∧
    t.cyc = { s.cyc with forces := (s.setForces (classOf h) (elemsOf true h)).cyc.forces } ∧
    (∀ e, (elemsOf true h).getLast? = some e → ∃ f ∈ t.cyc.forces, f.elem = e ∧ f.cls = classOf h) ∧
    t.hif.jseq = s.hif.jseq + 1 ∧ (t.win h.slot).high = h.reqId ∧ OnlyChanges [.hif, .cyc, .outbox] s t) ∧
  (∀ (s : State) (h : Hcmd), Offered opForceClear h s → s.sys.primary = true → s.insync = false → s.checkForceClear h = .go →
    ∃ t l, exec (.forceClear h) s = .next t ∧ Completed h 0 l s t ∧ t.cyc = { s.cyc with forces := t.cyc.forces } ∧
    (∀ f, f ∈ t.cyc.forces ↔ f ∈ s.cyc.forces ∧ ∀ e ∈ elemsOf false h,
      (e.clearAll = true → f.cls ≠ classOf h) ∧ (e.clearAll = false → sameElem e f.elem = false)) ∧
    t.hif.jseq = s.hif.jseq + 1 ∧ (t.win h.slot).high = h.reqId ∧ OnlyChanges [.hif, .cyc, .outbox] s t) ∧
  (∀ (s : State) (h : Hcmd), Offered opLoopWrite h s → s.sys.primary = true → s.insync = false → s.loopWriteWaits h = false →
    s.checkLoopWrite h = .go → ∃ t l, exec (.loopWrite h) s = .next t ∧ Completed h 0 l s t ∧ t.cle = (s.loopWrite h).cle ∧
    (∀ n, (∀ b ∈ loopElems h, slotOf b ≠ n) → t.loop n = s.loop n) ∧ t.hif.jseq = s.hif.jseq + 1 ∧
    (t.win h.slot).high = h.reqId ∧ OnlyChanges [.hif, .cle, .outbox] s t) ∧
  (∀ (s : State) (h : Hcmd), s.loopWriteWaits h = true → loopWriteStatic { h with opcode := 0x46 } = none →
    exec (.loopWrite h) s = .next s) ∧
  (∀ (s : State) (h : Hcmd), Offered opClear h s → s.sys.primary = true → s.insync = false → hasToken h = false →
    s.checkClear h = .go → ∃ t l, exec (.tallyClear h) s = .next t ∧ Completed h 0 l s t ∧ t.tly.clears = s.tly.clears + 1 ∧
    t.tly.pages (clearAudit h) = clearPages (s.tly.pages (clearAudit h)) (clearSeqs h).1 (clearSeqs h).2 ∧
    t.tly.pages (!clearAudit h) = s.tly.pages (!clearAudit h) ∧ t.hif.jseq = s.hif.jseq + 1 ∧ (t.win h.slot).high = h.reqId ∧
    OnlyChanges [.hif, .tly, .outbox] s t) ∧
  (∀ (s : State) (h : Hcmd), Offered opClear h s → s.sys.primary = true → s.insync = false → hasToken h = true →
    ∃ t l st, exec (.tallyClear h) s = .next t ∧ Completed h st l s t ∧ (s.checkClear h = .go → st = 0) ∧
    (∀ x r, s.checkClear h = .no x r → st = x ∧ t.tly.pages (clearAudit h) = s.tly.pages (clearAudit h)) ∧
    (s.checkClear h = .go → t.tly.clears = s.tly.clears + 1 ∧
      t.tly.pages (clearAudit h) = clearPages (s.tly.pages (clearAudit h)) (clearSeqs h).1 (clearSeqs h).2) ∧
    t.tly.pages (!clearAudit h) = s.tly.pages (!clearAudit h) ∧ t.hif.jseq = s.hif.jseq + 1 ∧ (t.win h.slot).high = h.reqId ∧
    t.freeN = s.freeN + 1 ∧ OnlyChanges [.hif, .tly, .outbox, .freeN] s t) ∧
  (∀ (s : State) (h : Hcmd), Offered opVarRead h s → s.checkRead h = .go → h.retOk = true → s.readWaits (classOf h) = false →
    ∃ t l, exec (.varRead h) s = .next t ∧ Completed h 0 l s t ∧
    l.head? = some (Out.ret h.slot h.rptr (s.varNow h)) ∧ OnlyChanges [.hif, .outbox] s t) ∧
  (∀ (s : State) (h : Hcmd), Offered opVarRead h s → s.checkRead h = .go → s.readWaits (classOf h) = true →
    ∃ t, exec (.varRead h) s = .next t ∧ Waiting h s t ∧ (∀ n, n ≠ h.slot → t.ring n = s.ring n) ∧ OnlyChanges [.hif, .outbox] s t) ∧
  (∀ (s : State) (h : Hcmd), Offered opLoopRead h s → s.checkLoops h = .go → h.retOk = true → s.loopReadWaits = false →
    ∃ t l, exec (.loopRead h) s = .next t ∧ Completed h 0 l s t ∧
    l.head? = some (Out.ret h.slot h.rptr (loopReturn ((loopElems h).map fun b => s.loopRecord (slotOf b)))) ∧ OnlyChanges [.hif, .outbox] s t) ∧
  (∀ (s : State) (h : Hcmd), Offered opLoopRead h s → s.checkLoops h = .go → s.loopReadWaits = true →
    ∃ t, exec (.loopRead h) s = .next t ∧ Waiting h s t ∧ (∀ n, n ≠ h.slot → t.ring n = s.ring n) ∧ OnlyChanges [.hif, .outbox] s t)

/-- On a primary with an in-sync partner and a mirror backlog below 8,000,000 bytes, FORCE_SET, LOOP_WRITE and ROLE_EXCHANGE whose
checks pass send a HOSTWORK record under the next RSEQ (one more for each further 65,440 bytes of payload, log entry 116), wait
in their ring for the acknowledgement of the last part and have no effect yet; nothing is journaled. When that acknowledgement
arrives in its turn, FORCE_SET sets its forces, and after ROLE_EXCHANGE the exchange waits for its boundary, as a proof where
the entry says so. -/
def Obligations.MirroredCommandsWaitForTheirAcknowledgement : Prop :=
  (∀ (s : State) (h : Hcmd) (k : Nat), Offered opForceSet h s → s.sys.primary = true → s.insync = true → s.cfg.partner = true →
    s.backlogNow ≤ 8000000 → k = max 1 ((h.payload.length + 65439) / 65440) → h.payload.length ≤ 65536 →
    s.awaiting (s.dpx2.rseqTx + BitVec.ofNat 64 k) = none → s.checkForceSet h = .go →
    ∃ t, exec (.forceSet h) s = .next t ∧ Waiting h s t ∧ t.dpx2.rseqTx = s.dpx2.rseqTx + BitVec.ofNat 64 k ∧
    t.outbox.length = s.outbox.length + k ∧ t.outbox.take s.outbox.length = s.outbox ∧
    (∀ x ∈ t.outbox.drop s.outbox.length, ∃ b : BRec, x = .baste b ∧ b.type = 3) ∧ t.hif.journal = s.hif.journal ∧
    OnlyChanges [.hif, .dpx2, .outbox] s t ∧
    (∀ r : BRec, InTurn r t → fieldN r.payload 0 8 = t.dpx2.rseqTx.toNat → fieldN r.payload 8 1 = 3 → fieldN r.payload 9 1 = 0 →
      ∃ u, exec (.ack r) t = .next u ∧ u.cyc.forces = (s.setForces (classOf h) (elemsOf true h)).cyc.forces ∧
      (u.win h.slot).high = h.reqId ∧ (u.ring h.slot).infl = none)) ∧
  (∀ (s : State) (h : Hcmd) (k : Nat), Offered opLoopWrite h s → s.sys.primary = true → s.insync = true → s.cfg.partner = true →
    s.backlogNow ≤ 8000000 → k = max 1 ((h.payload.length + 65439) / 65440) → h.payload.length ≤ 65536 → s.loopWriteWaits h = false →
    s.checkLoopWrite h = .go → ∃ t, exec (.loopWrite h) s = .next t ∧ Waiting h s t ∧
    t.dpx2.rseqTx = s.dpx2.rseqTx + BitVec.ofNat 64 k ∧ t.outbox.length = s.outbox.length + k ∧
    t.outbox.take s.outbox.length = s.outbox ∧ (∀ x ∈ t.outbox.drop s.outbox.length, ∃ b : BRec, x = .baste b ∧ b.type = 3) ∧
    t.hif.journal = s.hif.journal ∧ OnlyChanges [.hif, .dpx2, .outbox] s t) ∧
  (∀ (s : State) (h : Hcmd) (k : Nat), Offered opExchange h s → s.cfg.partner = true → s.backlogNow ≤ 8000000 →
    k = max 1 ((h.payload.length + 65439) / 65440) → h.payload.length ≤ 65536 → s.awaiting (s.dpx2.rseqTx + BitVec.ofNat 64 k) = none →
    s.checkExchange = .go → ∃ t, exec (.roleExchange h) s = .next t ∧ Waiting h s t ∧
    t.dpx2.rseqTx = s.dpx2.rseqTx + BitVec.ofNat 64 k ∧ t.outbox.length = s.outbox.length + k ∧
    t.outbox.take s.outbox.length = s.outbox ∧ (∀ x ∈ t.outbox.drop s.outbox.length, ∃ b : BRec, x = .baste b ∧ b.type = 3) ∧
    t.hif.journal = s.hif.journal ∧ t.dpx2.xPend = false ∧ OnlyChanges [.hif, .dpx2, .outbox] s t ∧
    (∀ r : BRec, InTurn r t → fieldN r.payload 0 8 = t.dpx2.rseqTx.toNat → fieldN r.payload 8 1 = 3 → fieldN r.payload 9 1 = 0 →
      ∃ u, exec (.ack r) t = .next u ∧ u.dpx2.xPend = true ∧ u.dpx2.isProof = h.param0.getLsbD 0 ∧ u.dpx2.xslot = h.slot ∧
      Waiting h s u))

/-- Where the command is not mirrored (no primary role, or no in-sync partner), MODE_SET from STOP to RUN, TEST or COMMISSION,
between COMMISSION and STOP or TEST, from COMMISSION or STOP into IDLE-LINK, from COMMISSION or TEST into HOLD, from RUN into
HOLD on a standby, from HOLD back, and from RECOVERY to STOP or COMMISSION enters the mode, with FROM the mode left, and
completes with status 0; the role afterwards is as written here. From RUN to STOP, and from TEST to STOP or COMMISSION, a
primary changes at once while no cycle is active; otherwise its classes start no further cycle and the transition is in
progress. Every configured class is running after the change to RUN on a primary; the pairs of a HOLD mask, and no others, are
broken, and none is after the exit. -/
def Obligations.CommandedModeChanges : Prop :=
  (∀ (s : State) (h : Hcmd), Offered (s.modeOp .run none) h s → s.sys.mode = .stop → s.sys.trans = none → s.sys.primary = true →
    s.insync = false → ∃ t l, exec (.modeSetRun h) s = .next t ∧ Completed h 0 l s t ∧ t.sys.mode = .run ∧ t.sys.from_ = .stop ∧
    t.sys.primary = true ∧ (∀ c, (c, s.ccfg c) ∈ s.cfg.cls → (s.ccfg c).en = true → (t.cls c).running = true) ∧
    OnlyChanges [.sys, .hif, .cyc, .cle, .can, .canq, .fio, .tly, .outbox] s t) ∧
  (∀ (s : State) (h : Hcmd), Offered (s.modeOp .stop none) h s → s.sys.mode = .run ∨ s.sys.mode = .test → s.sys.trans = none →
    s.sys.primary = true → s.insync = false → s.quiet = true → ∃ t l, exec (.modeSetStop h) s = .next t ∧ Completed h 0 l s t ∧
    t.sys.mode = .stop ∧ t.sys.from_ = s.sys.mode ∧ t.sys.primary = true ∧ (∀ c, (t.cls c).running = false) ∧
    (s.sys.mode = .test → t.cyc.forces = []) ∧ OnlyChanges [.sys, .hif, .cyc, .can, .canq, .fio, .tly, .mm, .outbox] s t) ∧
  (∀ (s : State) (h : Hcmd), Offered (s.modeOp .stop none) h s → s.sys.mode = .run ∨ s.sys.mode = .test → s.sys.trans = none →
    s.sys.primary = true → s.insync = false → s.quiet = false → s.executes = true → ∃ t, exec (.modeSetStop h) s = .next t ∧
    Waiting h s t ∧ t.sys = { s.sys with trans := some { dst := .stop, cause := 0, slot := h.slot } } ∧
    (∀ c, (t.cls c).running = false ∧ (t.cls c).active = (s.cls c).active) ∧ OnlyChanges [.sys, .hif, .cyc, .tly, .outbox] s t) ∧
  (∀ (s : State) (h : Hcmd), Offered (s.modeOp .stop none) h s → s.sys.mode = .commission → s.sys.trans = none → s.cfg.valid = true →
    s.prog.loaded = true → s.sys.primary = true → s.insync = false → ∃ t l, exec (.modeSetStop h) s = .next t ∧ Completed h 0 l s t ∧
    t.sys.mode = .stop ∧ t.sys.from_ = .commission ∧ t.sys.primary = true ∧ OnlyChanges [.sys, .hif, .can, .canq, .fio, .tly, .outbox] s t) ∧
  (∀ (s : State) (h : Hcmd), Offered (s.modeOp .commission none) h s → s.sys.mode = .stop → s.sys.trans = none →
    (s.sys.primary = true → s.insync = false) → ∃ t l, exec (.modeSetCommission h) s = .next t ∧ Completed h 0 l s t ∧
    t.sys.mode = .commission ∧ t.sys.from_ = .stop ∧ t.sys.primary = (s.sys.primary || s.sys.lone) ∧
    OnlyChanges [.sys, .hif, .can, .canq, .fio, .tly, .outbox] s t) ∧
  (∀ (s : State) (h : Hcmd), Offered (s.modeOp .commission none) h s → s.sys.mode = .test → s.sys.trans = none →
    s.sys.primary = true → s.insync = false → s.quiet = true → ∃ t l, exec (.modeSetCommission h) s = .next t ∧ Completed h 0 l s t ∧
    t.sys.mode = .commission ∧ t.sys.from_ = .test ∧ t.sys.primary = true ∧ (∀ c, (t.cls c).running = false) ∧ t.cyc.forces = [] ∧
    OnlyChanges [.sys, .hif, .cyc, .can, .canq, .fio, .tly, .mm, .outbox] s t) ∧
  (∀ (s : State) (h : Hcmd), Offered (s.modeOp .commission none) h s → s.sys.mode = .test → s.sys.trans = none →
    s.sys.primary = true → s.insync = false → s.quiet = false → s.executes = true → ∃ t, exec (.modeSetCommission h) s = .next t ∧
    Waiting h s t ∧ t.sys = { s.sys with trans := some { dst := .commission, cause := 0, slot := h.slot } } ∧
    (∀ c, (t.cls c).running = false ∧ (t.cls c).active = (s.cls c).active) ∧ OnlyChanges [.sys, .hif, .cyc, .tly, .outbox] s t) ∧
  (∀ (s : State) (h : Hcmd), Offered (s.modeOp .test none) h s → s.sys.mode = .stop ∨ s.sys.mode = .commission → s.sys.trans = none →
    (s.sys.primary = true → s.insync = false) → ∃ t l, exec (.modeSetTest h) s = .next t ∧ Completed h 0 l s t ∧ t.sys.mode = .test ∧
    t.sys.from_ = s.sys.mode ∧ t.sys.primary = (s.sys.primary || s.sys.lone) ∧ OnlyChanges [.sys, .hif, .cyc, .cle, .can, .canq, .fio, .tly, .outbox] s t) ∧
  (∀ (s : State) (h : Hcmd), Offered (s.modeOp .hold none) h s →
    s.sys.mode = .commission ∨ s.sys.mode = .test ∨ (s.sys.mode = .run ∧ s.sys.primary = false) → s.sys.trans = none →
    (s.sys.primary = true → s.insync = false) → (holdPairs h).all (fun p => s.hosts p) = true →
    ∃ t l, exec (.modeSetHold h) s = .next t ∧ Completed h 0 l s t ∧ t.sys.mode = .hold ∧ t.sys.from_ = s.sys.mode ∧
    t.sys.primary = (s.sys.mode != .run && (s.sys.primary || s.sys.lone)) ∧ (s.sys.mode = .run → t.dpx.state ≠ .insync) ∧
    (∀ p ∈ holdPairs h, (t.pair p).broken = true) ∧ (∀ p, p ∉ holdPairs h → t.pair p = s.pair p) ∧
    OnlyChanges [.sys, .hif, .cyc, .lsp, .dpx, .dpx2, .can, .canq, .fio, .tly, .mm, .outbox] s t) ∧
  (∀ (s : State) (h : Hcmd), Offered (s.modeOp s.sys.from_ none) h s → s.sys.mode = .hold →
    s.sys.from_ = .commission ∨ s.sys.from_ = .test ∨ s.sys.from_ = .run → s.sys.trans = none → (s.sys.primary = true → s.insync = false) →
    ∃ t l, exec (.modeSetHoldExit h) s = .next t ∧
    Completed h 0 l s t ∧ t.sys.mode = s.sys.from_ ∧ t.sys.from_ = .hold ∧ t.sys.primary = (s.sys.primary || s.sys.lone) ∧
    (∀ p, p < 4 → (t.pair p).broken = false) ∧ (∀ c, (t.cls c).held = false) ∧
    OnlyChanges [.sys, .hif, .cyc, .lsp, .can, .canq, .fio, .tly, .regs, .outbox] s t) ∧
  (∀ (s : State) (h : Hcmd), Offered (s.modeOp .idleLink none) h s → s.sys.mode = .stop ∨ s.sys.mode = .commission → s.sys.trans = none →
    s.sys.primary = false ∨ (s.sys.lone = true ∧ s.insync = false) → ∃ t l, exec (.modeSetIdleLink h) s = .next t ∧ Completed h 0 l s t ∧
    t.sys.mode = .idleLink ∧ t.sys.from_ = s.sys.mode ∧ t.sys.primary = false ∧ SafetyOff t ∧ t.mm.rinsePaused = true ∧
    OnlyChanges [.sys, .hif, .cyc, .lsp, .dpx, .dpx2, .can, .canq, .fio, .saf, .tly, .mm, .outbox] s t) ∧
  (∀ (s : State) (h : Hcmd), Offered (s.modeOp .stop none) h s → s.sys.mode = .recovery → s.sys.trans = none → s.sys.primary = false →
    s.sys.lone = true → ∃ t l, exec (.modeSetStop h) s = .next t ∧ Completed h 0 l s t ∧ t.sys.mode = .stop ∧
    t.sys.from_ = .recovery ∧ t.sys.primary = true ∧ t.boot.sel = s.boot.bank) ∧
  (∀ (s : State) (h : Hcmd), Offered (s.modeOp .commission none) h s → s.sys.mode = .recovery → s.sys.trans = none → s.sys.primary = false →
    s.sys.lone = true → ∃ t l, exec (.modeSetCommission h) s = .next t ∧ Completed h 0 l s t ∧ t.sys.mode = .commission ∧
    t.sys.from_ = .recovery ∧ t.sys.primary = true)

/-- A RESTART that R111 accepts writes its completion with status 0 and then starts the module from boot step 2, without counting a
power cycle. The exit from IDLE-LINK from the admin ring completes with status 0; where self-test passes and the bank verifies
it ends in the mode that was left, else in FAULT-HALT with halt cause 0x04 and both safety latches set; the standing of the
Rinse engine's pause is over. A request on P6 is answered to its node: IDENTIFY with the identity, ATTEST_QUOTE with a quote, a
MODE_SET outside IDLE-LINK and an opcode that is none of these three with INVALID_OPCODE, one whose length is not DLEN with
LEN_ERR; these change nothing but the answer and its free values. A MODE_SET to the mode that was left, in IDLE-LINK, leaves
IDLE-LINK where its token passes, and else ends with TOKEN_ERR and leaves the mode. -/
def Obligations.RestartAndTheExitFromIdleLink : Prop :=
  (∀ (s : State) (h : Hcmd) (obs : BootObs), Offered opRestart h s → s.checkRestart = .go →
    ∃ (t : State) (l : List Out) (c : Cqe), exec (.restart h obs) s = .next t ∧ t.outbox = s.outbox ++ l ∧ Out.cqe h.slot c ∈ l ∧
    c.reqId = h.reqId ∧ c.status = 0 ∧ t.sys.pwrcyc = s.sys.pwrcyc ∧ t.hif.crs = false ∧ t.hif.rings = []) ∧
  (∀ (s : State) (h : Hcmd) (obs : BootObs), Offered (s.modeOp s.sys.from_ (some obs)) h s → h.p6node = none → s.sys.mode = .idleLink →
    s.sys.from_ = .stop ∨ s.sys.from_ = .commission → s.sys.trans = none → (s.sys.primary = true → s.insync = false) →
    ∃ t l, exec (.modeSetIdleExit h obs) s = .next t ∧ Completed h 0 l s t ∧ t.sys.from_ = .idleLink ∧ t.mm.rinsePaused = false ∧
    (obs.selfTest = true → s.boot.runs = true → t.sys.mode = s.sys.from_) ∧
    (obs.selfTest = false ∨ s.boot.runs = false →
      t.sys.mode = .faultHalt ∧ t.sys.haltCause = 4 ∧ t.saf.sel.set = true ∧ t.saf.sp.set = true)) ∧
  (∀ (s : State) (f : Kcp) (h : Hcmd), Settled s → s.running = true → s.portUp 6 = true → f.fcsOk = true →
    s.headerOk { f.typed 9 with port := 6 } = true → (p6Entry f h).payload.length = (p6Entry f h).dlen.toNat →
    (p6Entry f h).opcode ≠ 0x01 → (p6Entry f h).opcode ≠ 0x0D → (p6Entry f h).opcode = 0x06 → s.sys.mode ≠ .idleLink →
    ∃ t c, exec (.mgmt f h) s = .next t ∧ Out.p6 f.src (Cqe.bytes c) ∈ t.outbox ∧ c.status = St.invalidOpcode ∧
    c.reqId = (p6Entry f h).reqId ∧ t.freeN = s.freeN + 1 ∧ OnlyChanges [.outbox, .freeN] s t) ∧
  (∀ (s : State) (f : Kcp) (h : Hcmd), Settled s → s.running = true → s.portUp 6 = true → f.fcsOk = true →
    s.headerOk { f.typed 9 with port := 6 } = true → (p6Entry f h).payload.length = (p6Entry f h).dlen.toNat →
    (p6Entry f h).opcode ≠ 0x01 → (p6Entry f h).opcode ≠ 0x06 → (p6Entry f h).opcode ≠ 0x0D →
    ∃ t c, exec (.mgmt f h) s = .next t ∧ Out.p6 f.src (Cqe.bytes c) ∈ t.outbox ∧ c.status = St.invalidOpcode ∧
    c.reqId = (p6Entry f h).reqId ∧ t.freeN = s.freeN + 1 ∧ OnlyChanges [.outbox, .freeN] s t) ∧
  (∀ (s : State) (f : Kcp) (h : Hcmd), Settled s → s.running = true → s.portUp 6 = true → f.fcsOk = true →
    s.headerOk { f.typed 9 with port := 6 } = true → (p6Entry f h).payload.length ≠ (p6Entry f h).dlen.toNat →
    ∃ t c, exec (.mgmt f h) s = .next t ∧ Out.p6 f.src (Cqe.bytes c) ∈ t.outbox ∧ c.status = St.lenErr ∧
    c.reqId = (p6Entry f h).reqId ∧ t.freeN = s.freeN + 1 ∧ OnlyChanges [.outbox, .freeN] s t) ∧
  (∀ (s : State) (f : Kcp) (h : Hcmd), Settled s → s.running = true → s.portUp 6 = true → f.fcsOk = true →
    s.headerOk { f.typed 9 with port := 6 } = true → (p6Entry f h).payload.length = (p6Entry f h).dlen.toNat →
    (p6Entry f h).opcode = 0x01 → opIdentify.static { p6Entry f h with slot := 0, reqId := 1, sgl := false } = none →
    ∃ t c b, exec (.mgmt f h) s = .next t ∧ Out.p6 f.src (Cqe.bytes c ++ b) ∈ t.outbox ∧ c.status = 0 ∧ b.length = 4096 ∧
    b.take 4 = le 4 s.sysId.toNat ∧ t.freeN = s.freeN + 1 ∧ OnlyChanges [.outbox, .freeN] s t) ∧
  (∀ (s : State) (f : Kcp) (h : Hcmd), Settled s → s.running = true → s.portUp 6 = true → f.fcsOk = true →
    s.headerOk { f.typed 9 with port := 6 } = true → (p6Entry f h).payload.length = (p6Entry f h).dlen.toNat →
    (p6Entry f h).opcode = 0x0D → opQuote.static { p6Entry f h with slot := 0, reqId := 1, sgl := false } = none →
    ∃ t c b, exec (.mgmt f h) s = .next t ∧ Out.p6 f.src (Cqe.bytes c ++ b) ∈ t.outbox ∧ c.status = 0 ∧
    b.take 2 = [0x02, 0x17] ∧ t.freeN = s.freeN + 1 ∧ OnlyChanges [.outbox, .freeN] s t) ∧
  (∀ (s : State) (f : Kcp) (h : Hcmd), Settled s → s.running = true → s.portUp 6 = true → f.fcsOk = true →
    s.headerOk { f.typed 9 with port := 6 } = true → (p6Entry f h).payload.length = (p6Entry f h).dlen.toNat →
    (p6Entry f h).opcode = 0x06 → (p6Entry f h).dlen = 128 → s.sys.mode = .idleLink → s.sys.trans = none →
    s.sys.primary = false → s.sys.from_ = .stop ∨ s.sys.from_ = .commission → targetMode (p6Entry f h) = s.sys.from_ →
    modeFields s.sys.from_ (p6Entry f h) = true → p6Reserved (p6Entry f h).payload = true →
    ∃ t c, exec (.mgmt f h) s = .next t ∧ Out.p6 f.src (Cqe.bytes c) ∈ t.outbox ∧
    (s.p6Token (p6Entry f h) = true → c.status = 0 ∧ t.sys.from_ = .idleLink ∧
      (t.sys.mode = s.sys.from_ ∨ (t.sys.mode = .faultHalt ∧ t.sys.haltCause = 4))) ∧
    (s.p6Token (p6Entry f h) = false → c.status = St.tokenErr ∧ t.sys = s.sys))

/-- On a primary without an in-sync partner: an IMAGE_WRITE whose checks pass puts its bytes into the area it names and waits for
the write. IMAGE_VERIFY completes with OK, SIG_ERR or REFUSED, and the area shows verified exactly where the status is OK.
SWITCH and CONFIG_RETURN are journaled; where their checks pass they begin the activation that their fields spell and wait;
where a check fails they complete with its status, and BOOT_ACT_STAT keeps the reason of a REFUSED. CONFIRM of a switch ends the
migration window, takes the store format of the running image and raises the minimum SVN to its SVN; CANCEL abandons an
activation before its second step. Each changes only the parts named. -/
def Obligations.StagedImagesAndActivations : Prop :=
  (∀ (s : State) (h : Hcmd), Offered opImageWrite h s → s.sys.primary = true → s.insync = false → s.checkWrite h = .go →
    ∃ t, exec (.imageWrite h) s = .next t ∧ Waiting h s t ∧
    t.boot = s.boot.write (areaOf h.target.toNat) (decide (h.param0 = 1)) h.payload [(h.slot, h.reqId)] ∧
    (t.boot.stg (areaOf h.target.toNat)).writing = true ∧ (t.boot.stg (areaOf h.target.toNat)).state = 1 ∧ OnlyChanges [.hif, .boot, .outbox] s t) ∧
  (∀ (s : State) (h : Hcmd), Offered opImageVerify h s → s.sys.primary = true → s.insync = false → s.checkVerify h = .go →
    h.retOk = true → ∃ t l st, exec (.imageVerify h) s = .next t ∧ Completed h st l s t ∧
    (st = St.ok ∨ st = St.sigErr ∨ st = St.refused) ∧ (st = St.ok → (t.boot.stg (areaOf h.target.toNat)).state = 4) ∧
    (st ≠ St.ok → (t.boot.stg (areaOf h.target.toNat)).state = 5) ∧ OnlyChanges [.hif, .boot, .tly, .outbox] s t) ∧
  (∀ (s : State) (h : Hcmd), Offered opSwitch (actEntry h 0) s → s.insync = false → ∃ t, exec (.activateSwitch h) s = .next t ∧
    (s.checkSwitch (actEntry h 0) = .go → Waiting h s t ∧ t.boot = { s.boot with act := s.switchAct (actEntry h 0) } ∧
      t.boot.act.busy = true ∧ t.boot.act.step = 1) ∧
    (∀ st r, s.checkSwitch (actEntry h 0) = .no st r → (∃ l, Completed h st l s t) ∧
      t.boot.act = { s.boot.act with reason := if st = St.refused then r.setWidth 8 else s.boot.act.reason }) ∧
    t.hif.jseq = s.hif.jseq + 1 ∧ OnlyChanges [.hif, .boot, .tly, .outbox] s t) ∧
  (∀ (s : State) (h : Hcmd), Offered opCfgReturn h s → s.insync = false → ∃ t, exec (.configReturn h) s = .next t ∧
    (s.checkCfgReturn h = .go → Waiting h s t ∧ t.boot = { s.boot with act := s.returnAct h } ∧ t.boot.act.busy = true ∧
      t.boot.act.isReturn = true) ∧
    (∀ st r, s.checkCfgReturn h = .no st r → (∃ l, Completed h st l s t) ∧
      t.boot.act = { s.boot.act with reason := if st = St.refused then r.setWidth 8 else s.boot.act.reason }) ∧
    t.hif.jseq = s.hif.jseq + 1 ∧ OnlyChanges [.hif, .boot, .tly, .outbox] s t) ∧
  (∀ (s : State) (h : Hcmd), Offered opConfirm (actEntry h 1) s → s.insync = false → s.boot.switched = true →
    ∃ t l, exec (.activateConfirm h) s = .next t ∧ Completed h 0 l s t ∧ t.boot.switched = false ∧ t.boot.migrating = false ∧
    t.boot.confirmAt = none ∧ t.boot.minSvn = (if s.boot.minSvn.toNat < s.boot.fwSvn.toNat then s.boot.fwSvn else s.boot.minSvn) ∧
    t.boot.storeFmt = s.boot.runHdr.storeFmt ∧ OnlyChanges [.hif, .boot, .tly, .outbox] s t) ∧
  (∀ (s : State) (h : Hcmd), Offered opCancel (actEntry h 2) s → s.insync = false → s.boot.act.busy = true → s.boot.act.done = false →
    s.boot.act.step ≤ 1 → ∃ t l, exec (.activateCancel h) s = .next t ∧ Completed h 0 l s t ∧
    t.boot = { s.boot with act := { s.boot.act with busy := false, state := 0, step := 0, awaitReady := false } } ∧
    OnlyChanges [.hif, .boot, .outbox] s t)

/-- On a primary without an in-sync partner: a CHANGE whose checks pass is kept in slot memory's package area and waits for the
store, with nothing journaled and nothing scheduled; where that package is stored already it is journaled and scheduled at once.
A RETURN that passes its checks is journaled and scheduled: the change is in state 3, and the command waits for the exchange.
The active program stays. A CHANGE or a RETURN that fails a check completes with that check's status, and no change is begun. -/
def Obligations.ProgramLoadCommands : Prop :=
  (∀ (s : State) (h : Hcmd), Offered opChange (loadEntry h 0) s → s.insync = false → ∃ t, exec (.programLoadChange h) s = .next t ∧
    (s.checkChange (loadEntry h 0) = .go → s.chg.package ≠ h.payload ∨ s.chg.pkgDone = false → Waiting h s t ∧
      t.chg.state = 1 ∧ t.chg.package = h.payload ∧ t.chg.stored = false ∧ t.chg.recorded = false ∧ t.chg.slot = h.slot ∧
      t.hif.journal = s.hif.journal) ∧
    (s.checkChange (loadEntry h 0) = .go → s.chg.package = h.payload → s.chg.pkgDone = true → Waiting h s t ∧
      t.chg.state = 3 ∧ t.chg.isReturn = false ∧ t.chg.recorded = true ∧ t.chg.slot = h.slot ∧ t.hif.jseq = s.hif.jseq + 1) ∧
    (∀ st r, s.checkChange (loadEntry h 0) = .no st r → (∃ l, Completed h st l s t) ∧ t.chg = s.chg) ∧
    t.chg.active = s.chg.active ∧ OnlyChanges [.hif, .chg, .outbox] s t) ∧
  (∀ (s : State) (h : Hcmd), Offered opReturn (loadEntry h 1) s → s.insync = false → ∃ t, exec (.programLoadReturn h) s = .next t ∧
    (s.checkReturn (loadEntry h 1) = .go → Waiting h s t ∧ t.chg.state = 3 ∧ t.chg.isReturn = true ∧ t.chg.recorded = true ∧
      t.chg.slot = h.slot) ∧
    (∀ st r, s.checkReturn (loadEntry h 1) = .no st r → (∃ l, Completed h st l s t) ∧ t.chg = s.chg) ∧
    t.chg.active = s.chg.active ∧ t.hif.jseq = s.hif.jseq + 1 ∧ OnlyChanges [.hif, .chg, .outbox] s t)

/-- With no access to DRAM to report, a boundary of an enabled class advances its cycle number by one. The class that runs and is
idle starts that cycle on its idle pair, with the working buffer a copy of the committed image where no force and no pending
write exists; a class that is held, not running, or on a module without cycles starts none. A boundary that finds the cycle
active leaves the decision open for the 2 ns step, in which a commit counts first. The clock that follows makes a class late
that is not skippable, and counts a skipped cycle of a skippable one; one skip more than CYC_CLS_SKIPMAX halts the application
with cause 1. -/
def Obligations.BoundariesStartDelayOrDropCycles : Prop :=
  (∀ (s : State) (c : Fin 8) (work : Work), Settled s → s.running = true → (s.ccfg c).en = true → s.sys.mode ≠ .idleLink →
    s.dpx2.modeDue = none → (s.cls c).running = false ∨ (s.cls c).held = true ∨ s.cycles = false →
    ∃ t, exec (.classBoundary c [] work) s = .next t ∧
    t.cls c = { s.cls c with cycno := (s.cls c).cycno + 1, undecided := false } ∧ (∀ d, d ≠ c.val → t.cls d = s.cls d) ∧
    (s.cfg.partner = false ∨ s.executes = true → t.net = s.net) ∧ OnlyChanges [.cyc, .lsp, .hif, .net, .outbox] s t ∧ EventsOnly s t) ∧
  (∀ (s : State) (c : Fin 8) (work : Work), Settled s → s.running = true → (s.ccfg c).en = true → s.sys.mode ≠ .idleLink →
    (s.cls c).running = true → (s.cls c).held = false → s.cycles = true → (s.cls c).active = false →
    (s.pair (s.ccfg c).pair).idle = true → (s.pair (s.ccfg c).pair).failed = false → (s.pair (s.ccfg c).pair).broken = false →
    (s.pair (s.ccfg c).pair).fence = false → s.dpx2.proofWin = false →
    (∀ e ∈ s.cfg.cls, e.1 ≠ c.val → e.2.pair = (s.ccfg c).pair → s.wants e.1 = false) →
    ∃ t, exec (.classBoundary c [] work) s = .next t ∧ (t.cls c).cycno = (s.cls c).cycno + 1 ∧ (t.cls c).active = true ∧
    (t.cls c).cur = (s.cls c).cycno + 1 ∧ (t.cls c).startNs = s.tim.ns ∧ (t.cls c).late = false ∧
    (t.cls c).first = ((s.cls c).firstDue && !(s.cls c).changedDue) ∧ (∀ d, d ≠ c.val → t.cls d = s.cls d ∧ t.cmem d = s.cmem d) ∧
    (t.pair (s.ccfg c).pair).idle = false ∧ (t.pair (s.ccfg c).pair).cls = c.val ∧
    (∀ p, p ≠ (s.ccfg c).pair → t.pair p = s.pair p) ∧ (t.cmem c).image = (s.cmem c).image ∧
    (s.cyc.forces = [] → (s.cmem c).pendWr = [] → (t.cmem c).work = (s.cmem c).image) ∧ OnlyChanges [.cyc, .lsp, .net, .tly, .hif, .outbox] s t) ∧
  (∀ (s : State) (c : Fin 8) (work : Work), Settled s → s.running = true → (s.ccfg c).en = true → s.sys.mode ≠ .idleLink →
    (s.cls c).running = true → (s.cls c).held = false → s.cycles = true → (s.cls c).active = true → (s.ccfg c).skippable = false →
    (∀ d, (s.cls d).undecided = false) → ∃ t, exec (.classBoundary c [] work) s = .next t ∧
    t.cls c = { s.cls c with cycno := (s.cls c).cycno + 1, undecided := true } ∧ (∀ d, d ≠ c.val → t.cls d = s.cls d) ∧
    OnlyChanges [.cyc, .lsp, .hif, .outbox] s t ∧ EventsOnly s t ∧ (∃ u, step { t with pending := [] } = .next u ∧ u.cls c = { s.cls c with
      cycno := (s.cls c).cycno + 1, late := true, latePend := some ((s.cls c).cycno + 1), lateNs := s.tim.ns
      lateCnt := (s.cls c).lateCnt + 1 } ∧ (∀ d, d ≠ c.val → u.cls d = s.cls d) ∧ (∀ d, u.cmem d = t.cmem d))) ∧
  (∀ (s : State) (c : Fin 8) (work : Work), Settled s → s.running = true → (s.ccfg c).en = true → s.sys.mode ≠ .idleLink →
    (s.cls c).running = true → (s.cls c).held = false → s.cycles = true → (s.cls c).active = true → (s.ccfg c).skippable = true →
    (s.cls c).dropped < s.skipMax c → (∀ d, (s.cls d).undecided = false) → ∃ t, exec (.classBoundary c [] work) s = .next t ∧
    t.cls c = { s.cls c with cycno := (s.cls c).cycno + 1, undecided := true } ∧ (∀ d, d ≠ c.val → t.cls d = s.cls d) ∧
    OnlyChanges [.cyc, .lsp, .hif, .outbox] s t ∧ EventsOnly s t ∧ (∃ u, step { t with pending := [] } = .next u ∧ u.cls c = { s.cls c with
      cycno := (s.cls c).cycno + 1, late := true, skipCnt := (s.cls c).skipCnt + 1, dropped := (s.cls c).dropped + 1
      droppedArg := (s.cls c).droppedArg + 1, dueSkip := true } ∧ (∀ d, d ≠ c.val → u.cls d = s.cls d) ∧
    (∀ d, u.cmem d = t.cmem d))) ∧
  (∀ (s : State) (c : Fin 8) (work : Work), Settled s → s.running = true → (s.ccfg c).en = true → s.sys.mode ≠ .idleLink →
    s.sys.mode ≠ .test → (s.cls c).running = true → (s.cls c).held = false → s.cycles = true → (s.cls c).active = true →
    (s.ccfg c).skippable = true → s.skipMax c ≤ (s.cls c).dropped → s.boot.act.state ≠ 4 → s.insync = false →
    (∀ d, (s.cls d).undecided = false) → ∃ t, exec (.classBoundary c [] work) s = .next t ∧
    t.cls c = { s.cls c with cycno := (s.cls c).cycno + 1, undecided := true } ∧ OnlyChanges [.cyc, .lsp, .hif, .outbox] s t ∧ EventsOnly s t ∧
    (∃ u, step { t with pending := [] } = .next u ∧ u.sys.mode = .faultHalt ∧ u.sys.haltCause = 1 ∧ u.sys.primary = false ∧
      (∀ d, (u.cls d).running = false) ∧ u.saf.sel.set = true ∧ u.saf.sp.set = true ∧ SafetyOff u))

/-- Where the body of a class ends on its pair with no deferred store and no store held back (u is the state after its last stores)
and the index is due, the committed image becomes the working buffer of u and no other class's committed image changes. Where
nothing else waits, the cycle is no longer active and only the cyclic, lockstep, Tally, event and output state changes. Where a
boundary of the same 2 ns step left its decision open, the commit counts first and the next cycle starts at once, neither late
nor dropped. A body that ends before the aligned time keeps its cycle active and its image; the second OUTPUT_COMMIT then
publishes. On a broken pair the cycle ends without a commit, and what it deferred is counted. -/
def Obligations.CommitsPublishTheWorkingBuffer : Prop :=
  (∀ (s : State) (c : Fin 8) (work : Work) (early : Bool), s.pairsUp = true → (s.ccfg c).en = true → (s.cls c).active = true →
    (s.cls c).bodyDone = false → (s.pair (s.ccfg c).pair).runs = true → (s.pair (s.ccfg c).pair).cls = c.val →
    (s.pair (s.ccfg c).pair).broken = false → work.defs = [] → (s.pair (s.ccfg c).pair).defer = [] →
    ((s.runWork (s.ccfg c).pair c work).pair (s.ccfg c).pair).stalled = false →
    early = false ∨ (s.bodyEnd c work).aligned c = false → ∃ t, exec (.outputCommit c work early) s = .next t ∧
    (t.cmem c).image = ((s.bodyEnd c work).cmem c).work ∧ (t.cmem c).idx = (!(s.cmem c).idx) ∧
    (∀ d, d ≠ c.val → (t.cmem d).image = (s.cmem d).image)) ∧
  (∀ (s : State) (c : Fin 8) (work : Work), Settled s → s.pairsUp = true → (s.ccfg c).en = true → (s.cls c).active = true →
    (s.cls c).bodyDone = false → (s.pair (s.ccfg c).pair).runs = true → (s.pair (s.ccfg c).pair).cls = c.val →
    (s.pair (s.ccfg c).pair).broken = false → work.defs = [] → (s.pair (s.ccfg c).pair).defer = [] →
    ((s.runWork (s.ccfg c).pair c work).pair (s.ccfg c).pair).stalled = false → s.fastest ≠ some c.val →
    s.insync = false → s.dpx.state ≠ .syncing → s.stopTo = none → s.chg.state = 0 → s.chg.awaitCls = [] → (s.cls c).latePend = none →
    (s.cls c).undecided = false → (∀ n, (s.ring n).infl = none) → ∃ t, exec (.outputCommit c work false) s = .next t ∧
    (t.cmem c).image = ((s.bodyEnd c work).cmem c).work ∧ (t.cls c).active = false ∧ (t.cls c).late = false ∧
    (t.cls c).exec = BitVec.ofNat 32 ((s.tim.ns - (s.cls c).startNs) / 1000) ∧ (t.cls c).cycno = (s.cls c).cycno ∧
    (t.cmem c).globPub = ((s.bodyEnd c work).cmem c).glob ∧ (t.cmem c).commits = (s.cmem c).commits + 1 ∧
    (t.pair (s.ccfg c).pair).log = [] ∧ (∀ d, d ≠ c.val → (t.cmem d).image = (s.cmem d).image) ∧
    OnlyChanges [.cyc, .lsp, .tly, .hif, .outbox] s t ∧ EventsOnly s t) ∧
  (∀ (s : State) (c : Fin 8) (work : Work), Settled s → s.pairsUp = true → (s.ccfg c).en = true → (s.cls c).active = true →
    (s.cls c).bodyDone = false → (s.pair (s.ccfg c).pair).runs = true → (s.pair (s.ccfg c).pair).cls = c.val →
    (s.pair (s.ccfg c).pair).broken = false → work.defs = [] → (s.pair (s.ccfg c).pair).defer = [] →
    ((s.runWork (s.ccfg c).pair c work).pair (s.ccfg c).pair).stalled = false → s.fastest ≠ some c.val →
    s.insync = false → s.dpx.state ≠ .syncing → s.stopTo = none → s.chg.state = 0 → s.chg.awaitCls = [] → (s.cls c).latePend = none →
    (s.cls c).undecided = true → (s.cls c).running = true → s.cycles = true → (∀ n, (s.ring n).infl = none) →
    ∃ t, exec (.outputCommit c work false) s = .next t ∧ (t.cmem c).image = ((s.bodyEnd c work).cmem c).work ∧
    (t.cls c).active = true ∧ (t.cls c).undecided = false ∧ (t.cls c).late = false ∧ (t.cls c).cur = (s.cls c).cycno ∧
    (t.cls c).startNs = s.tim.ns ∧ (t.cls c).lateCnt = (s.cls c).lateCnt ∧ (t.cls c).skipCnt = (s.cls c).skipCnt) ∧
  (∀ (s : State) (c : Fin 8) (work : Work), Settled s → s.pairsUp = true → (s.ccfg c).en = true → (s.cls c).active = true →
    (s.cls c).bodyDone = false → (s.pair (s.ccfg c).pair).runs = true → (s.pair (s.ccfg c).pair).cls = c.val →
    (s.pair (s.ccfg c).pair).broken = false → work.defs = [] → (s.pair (s.ccfg c).pair).defer = [] →
    ((s.runWork (s.ccfg c).pair c work).pair (s.ccfg c).pair).stalled = false → s.aligned c = true →
    ∃ t, exec (.outputCommit c work true) s = .next t ∧ (t.cls c).active = true ∧ (t.cls c).bodyDone = true ∧
    (∀ d, (t.cmem d).image = (s.cmem d).image) ∧ OnlyChanges [.cyc, .lsp, .hif, .outbox] s t ∧ EventsOnly s t) ∧
  (∀ (s : State) (c : Fin 8) (work : Work), s.pairsUp = true → (s.ccfg c).en = true → (s.cls c).active = true →
    (s.cls c).bodyDone = true → (s.pair (s.ccfg c).pair).defer = [] → (s.pair (s.ccfg c).pair).stalled = false →
    ∃ t, exec (.outputCommit c work false) s = .next t ∧
    (t.cmem c).image = (s.cmem c).work ∧ (∀ d, d ≠ c.val → (t.cmem d).image = (s.cmem d).image)) ∧
  (∀ (s : State) (c : Fin 8) (work : Work) (early : Bool), Settled s → s.pairsUp = true → (s.ccfg c).en = true →
    (s.cls c).active = true → (s.cls c).bodyDone = false → (s.pair (s.ccfg c).pair).runs = true →
    (s.pair (s.ccfg c).pair).cls = c.val → (s.pair (s.ccfg c).pair).broken = true → (s.pair (s.ccfg c).pair).defer = [] →
    ∃ t, exec (.outputCommit c work early) s = .next t ∧ (t.cls c).active = false ∧ (t.cls c).cycno = (s.cls c).cycno ∧
    (∀ d, (t.cmem d).image = (s.cmem d).image) ∧ (t.pair (s.ccfg c).pair).dbgDropped =
      (s.pair (s.ccfg c).pair).dbgDropped + BitVec.ofNat 16 work.defs.length + 1 ∧ OnlyChanges [.cyc, .lsp, .tly, .hif, .outbox] s t ∧ EventsOnly s t)

/-- SOFT_BUDGET_EXPIRY of an active cycle, outside a proof window, sets OVER_SOFT, counts the overrun and, where the previous cycle
kept its budget, makes the OVERRUN error task due; a second one in the same cycle changes nothing. HARD_LIMIT_EXPIRY writes
record 0x0202 for a skippable class, which goes on. For another class, with no in-sync partner, outside TEST and the settle
window of a switch, it halts the application with cause 1: FAULT-HALT, no role, no class running, both lock-out latches set and
every safety output off. -/
def Obligations.BudgetsOfACycle : Prop :=
  (∀ (s : State) (c : Fin 8), Settled s → s.pairsUp = true → (s.ccfg c).en = true → (s.cls c).active = true →
    (s.cls c).held = false → (s.cls c).cycOver = false → s.dpx2.proofWin = false → ∃ t, exec (.softBudgetExpiry c) s = .next t ∧
    t.cls c = { s.cls c with overSoft := true, cycOver := true, ovrCnt := (s.cls c).ovrCnt + 1
                             dueOver := (s.cls c).dueOver || (s.cls c).prevIn } ∧
    (∀ d, d ≠ c.val → t.cls d = s.cls d) ∧ (∀ d, t.cmem d = s.cmem d) ∧ OnlyChanges [.cyc, .hif, .outbox] s t ∧ EventsOnly s t) ∧
  (∀ (s : State) (c : Fin 8), (s.cls c).cycOver = true → exec (.softBudgetExpiry c) s = .next s) ∧
  (∀ (s : State) (c : Fin 8), Settled s → s.pairsUp = true → (s.ccfg c).en = true → (s.cls c).active = true →
    (s.cls c).held = false → (s.ccfg c).skippable = true → ∃ t, exec (.hardLimitExpiry c) s = .next t ∧
    t.tly = (s.log 0x0202 4 ([BitVec.ofNat 8 c.val, 0, 0, 0] ++ le 8 (s.cls c).cur.toNat ++
      le 4 ((s.tim.ns - (s.cls c).startNs) / 1000))).tly ∧ OnlyChanges [.tly, .hif, .outbox] s t ∧ EventsOnly s t) ∧
  (∀ (s : State) (c : Fin 8), s.pairsUp = true → (s.ccfg c).en = true → (s.cls c).active = true → s.sys.mode ≠ .test →
    (s.cls c).held = false → (s.ccfg c).skippable = false → s.boot.act.state ≠ 4 → s.insync = false →
    ∃ t, exec (.hardLimitExpiry c) s = .next t ∧ t.sys.mode = .faultHalt ∧ t.sys.haltCause = 1 ∧ t.sys.primary = false ∧
    (∀ d, (t.cls d).running = false ∧ (t.cls d).active = false) ∧ t.saf.sel.set = true ∧ t.saf.sp.set = true ∧ SafetyOff t ∧
    OnlyChanges [.sys, .hif, .cyc, .lsp, .dpx2, .can, .canq, .fio, .saf, .tly, .outbox] s t)

/-- An interval checkpoint stops the class of a pair in lock step. An early checkpoint is counted by its cause, where that cause is
full or a store is held for it. CHECKPOINT_SEAL, where nothing is held back and the pair keeps its class, gives the next
sequence number, empties log and buffer, clears the mismatch and re-execution marks and lets the class run; a deferred store to
shared memory reaches it, byte for byte; a private store that was held back then reaches its memory. A known-answer sequence on
an idle pair seals a checkpoint and changes nothing else. -/
def Obligations.CheckpointsBeginAndSeal : Prop :=
  (∀ (s : State) (p : Fin 4) (work : Work), s.lockstep p = true → (s.pair p).runs = true →
    ∃ t, exec (.intervalCheckpoint p work) s = .next t ∧ t.pair p = { (s.pairWork p work).pair p with taking := true } ∧
    (∀ q, q ≠ p.val → t.pair q = s.pair q) ∧ (∀ c, t.cls c = s.cls c ∧ (t.cmem c).image = (s.cmem c).image) ∧ OnlyChanges [.cyc, .lsp] s t) ∧
  (∀ (s : State) (p : Fin 4) (work : Work), s.lockstep p = true → (s.pair p).runs = true →
    ((s.pairWork p work).pair p).heldD ≠ [] ∨ 1024 ≤ ((s.pairWork p work).pair p).defer.length →
    ∃ t, exec (.earlyCheckpoint p work true) s = .next t ∧
    t.pair p = { (s.pairWork p work).pair p with taking := true, earlyDef := (s.pair p).earlyDef + 1 } ∧
    (∀ q, q ≠ p.val → t.pair q = s.pair q) ∧ OnlyChanges [.cyc, .lsp] s t) ∧
  (∀ (s : State) (p : Fin 4) (work : Work), s.lockstep p = true → (s.pair p).runs = true →
    ((s.pairWork p work).pair p).heldP ≠ [] ∨ 4096 ≤ ((s.pairWork p work).pair p).log.length →
    ∃ t, exec (.earlyCheckpoint p work false) s = .next t ∧
    t.pair p = { (s.pairWork p work).pair p with taking := true, earlyLog := (s.pair p).earlyLog + 1 } ∧
    (∀ q, q ≠ p.val → t.pair q = s.pair q) ∧ OnlyChanges [.cyc, .lsp] s t) ∧
  (∀ (s : State) (p : Fin 4), Settled s → s.lockstep p = true → (s.pair p).taking = true → (s.pair p).fence = false →
    (s.pair p).restoring = false → (s.pair p).idle = false → s.bestOn p = some (s.pair p).cls → (s.pair p).defer = [] →
    (s.pair p).heldP = [] → (s.pair p).heldD = [] → ∃ t, exec (.checkpointSeal p) s = .next t ∧ t.pair p = { s.pair p with
      seqNext := (s.pair p).seqNext + 1, ckseq := (s.pair p).seqNext + 1, ckptCnt := (s.pair p).ckptCnt + 1, log := []
      mism := false, reexec := false, starting := false, taking := false } ∧
    (∀ q, q ≠ p.val → t.pair q = s.pair q) ∧ OnlyChanges [.lsp, .hif, .outbox] s t ∧ EventsOnly s t) ∧
  (∀ (s : State) (p : Fin 4) (a : Nat) (b : List Byte), Settled s → s.lockstep p = true → (s.pair p).taking = true →
    (s.pair p).fence = false → (s.pair p).restoring = false → (s.pair p).idle = false → s.bestOn p = some (s.pair p).cls →
    (s.pair p).defer = [.mem a b] → (s.pair p).heldP = [] → (s.pair p).heldD = [] → ∃ t, exec (.checkpointSeal p) s = .next t ∧
    (∀ i, i < b.length → t.cyc.shared.rd (a + i) = b.getD i 0) ∧
    (∀ x, x < a ∨ a + b.length ≤ x → t.cyc.shared.rd x = s.cyc.shared.rd x) ∧ t.cyc = { s.cyc with shared := t.cyc.shared } ∧
    (t.pair p).defer = [] ∧ (t.pair p).log = [] ∧ (∀ q, q ≠ p.val → t.pair q = s.pair q) ∧ OnlyChanges [.cyc, .lsp, .hif, .outbox] s t ∧
    EventsOnly s t) ∧
  (∀ (s : State) (p : Fin 4) (x : PStore), Settled s → s.lockstep p = true → (s.pair p).taking = true →
    (s.pair p).fence = false → (s.pair p).restoring = false → (s.pair p).idle = false → s.bestOn p = some (s.pair p).cls →
    (s.pair p).defer = [] → (s.pair p).heldP = [x] → (s.pair p).heldD = [] → (linesOf x.addr x.bytes.length).length ≤ 4096 →
    ∃ t, exec (.checkpointSeal p) s = .next t ∧
    t.cmem (s.pair p).cls = (s.cmem (s.pair p).cls).poke x.area x.addr x.bytes ∧ (t.pair p).heldP = [] ∧
    (t.pair p).log.length = (linesOf x.addr x.bytes.length).length ∧ (∀ d, d ≠ (s.pair p).cls → t.cmem d = s.cmem d) ∧
    (∀ q, q ≠ p.val → t.pair q = s.pair q) ∧ OnlyChanges [.cyc, .lsp, .hif, .outbox] s t ∧ EventsOnly s t) ∧
  (∀ (s : State) (p : Fin 4), s.knownAnswer p = true → (s.pair p).defer = [] → (s.pair p).heldP = [] → (s.pair p).heldD = [] →
    ∃ t, exec (.knownAnswerRun p) s = .next t ∧ t.pair p = { s.pair p with
      seqNext := (s.pair p).seqNext + 1, ckseq := (s.pair p).seqNext + 1, ckptCnt := (s.pair p).ckptCnt + 1, log := []
      mism := false, reexec := false, starting := false, taking := false } ∧
    (∀ q, q ≠ p.val → t.pair q = s.pair q) ∧ OnlyChanges [.lsp] s t)

/-- With the darn limit off, the first mismatch after a seal on a running pair with a sealed checkpoint counts a darn, notes point
and time, latches the fence and starts the restore. With no checkpoint in force, on an idle pair outside its known-answer
sequence, the reset counts as a darn at once and fence and restore stay as they are. The end of the restore puts the logged
lines back, drops the held stores, lifts the fence and marks re-execution. A second mismatch, or a restore of more than 20 µs,
fails the pair. With no in-sync partner, outside TEST and the settle window of a switch, the module then enters FAULT-HALT, with
cause 2 where it is primary, lone or executing, else with cause 7; no class runs, and the safety outputs are off. -/
def Obligations.DarnsRestoreAndSecondMismatchesFailThePair : Prop :=
  (∀ (s : State) (p point : Fin 4) (work : Work) (seq : Bool), Settled s → s.lockstep p = true → (s.pair p).mism = false →
    (s.pair p).idle = false → (s.pair p).starting = false → s.darnLim p = 0 →
    ∃ t, exec (.comparatorMismatch p ⟨point, seq⟩ work) s = .next t ∧ (t.pair p).fence = true ∧ (t.pair p).restoring = true ∧
    (t.pair p).mism = true ∧ (t.pair p).failed = false ∧ (t.pair p).darnCnt = (s.pair p).darnCnt + 1 ∧
    (t.pair p).mmPoint = BitVec.ofNat 4 (point.val + 1) ∧ (t.pair p).mmTime = s.short ∧ (t.pair p).mmSecond = false ∧
    (t.pair p).mmIdle = false ∧ (t.pair p).log = ((s.pairWork p work).pair p).log ∧ (∀ q, q ≠ p.val → t.pair q = s.pair q) ∧
    OnlyChanges [.cyc, .lsp, .hif, .outbox] s t ∧ EventsOnly s t) ∧
  (∀ (s : State) (p point : Fin 4) (work : Work), Settled s → s.lockstep p = true → (s.pair p).mism = false →
    (s.pair p).idle = true → s.darnLim p = 0 → ∃ t, exec (.comparatorMismatch p ⟨point, false⟩ work) s = .next t ∧
    (t.pair p).fence = (s.pair p).fence ∧ (t.pair p).restoring = (s.pair p).restoring ∧ (t.pair p).mism = true ∧
    (t.pair p).darnCnt = (s.pair p).darnCnt + 1 ∧ (t.pair p).mmIdle = true ∧ (∀ q, q ≠ p.val → t.pair q = s.pair q) ∧
    OnlyChanges [.lsp, .tly, .hif, .outbox] s t ∧ EventsOnly s t) ∧
  (∀ (s : State) (p point : Fin 4) (work : Work) (seq : Bool), s.lockstep p = true → (s.pair p).mism = true → s.boot.act.state ≠ 4 →
    s.insync = false → s.sys.mode ≠ .faultHalt → s.sys.mode ≠ .test → ∃ t, exec (.comparatorMismatch p ⟨point, seq⟩ work) s = .next t ∧
    (t.pair p).failed = true ∧ (t.pair p).fence = true ∧ (t.pair p).mmSecond = true ∧ t.sys.mode = .faultHalt ∧
    t.sys.haltCause = (if s.sys.lone || s.sys.primary || s.executes then 2 else 7) ∧ t.sys.primary = false ∧
    (∀ d, (t.cls d).running = false) ∧ SafetyOff t ∧ OnlyChanges [.sys, .hif, .cyc, .lsp, .can, .canq, .fio, .saf, .tly, .outbox] s t) ∧
  (∀ (s : State) (p : Fin 4), s.lockstep p = true → (s.pair p).restoring = true → s.boot.act.state ≠ 4 → s.insync = false →
    s.sys.mode ≠ .faultHalt → s.sys.mode ≠ .test → ∃ t, exec (.restoreTimeout p) s = .next t ∧ (t.pair p).failed = true ∧
    (t.pair p).fence = true ∧ (t.pair p).restoring = false ∧ t.sys.mode = .faultHalt ∧
    t.sys.haltCause = (if s.sys.lone || s.sys.primary || s.executes then 2 else 7) ∧ t.sys.primary = false ∧
    (∀ d, (t.cls d).running = false) ∧ SafetyOff t ∧ OnlyChanges [.sys, .hif, .cyc, .lsp, .can, .canq, .fio, .saf, .tly, .outbox] s t) ∧
  (∀ (s : State) (p : Fin 4) (ns : Nat), Settled s → s.lockstep p = true → (s.pair p).restoring = true → (s.pair p).idle = false →
    s.bestOn p = some (s.pair p).cls → ∃ t, exec (.darnRestoreEnd p ns) s = .next t ∧ t.pair p = { s.pair p with
      log := [], defer := [], heldP := [], heldD := [], restoring := false, fence := false, reexec := true
      restMax := if (s.pair p).restMax.toNat < ns then BitVec.ofNat 32 ns else (s.pair p).restMax } ∧
    (∀ c, t.cmem c = (s.undoLog p).cmem c ∧ t.cls c = s.cls c) ∧ (∀ q, q ≠ p.val → t.pair q = s.pair q) ∧
    OnlyChanges [.cyc, .lsp, .tly, .hif, .outbox] s t ∧ EventsOnly s t) ∧
  (∀ (s : State) (p : Fin 4) (ns : Nat) (e : LogEnt), Settled s → s.lockstep p = true → (s.pair p).restoring = true →
    (s.pair p).idle = false → s.bestOn p = some (s.pair p).cls → (s.pair p).log = [e] → e.area < 3 → e.old.length = 64 →
    ∃ t, exec (.darnRestoreEnd p ns) s = .next t ∧
    (∀ i, i < 64 → ((t.cmem e.cls).area e.area).rd (64 * e.line + i) = e.old.getD i 0) ∧
    (∀ x, x < 64 * e.line ∨ 64 * e.line + 64 ≤ x → ((t.cmem e.cls).area e.area).rd x = ((s.cmem e.cls).area e.area).rd x))

/-- On a broken pair in HOLD, HALT stops core A at the instruction given, STEP runs a halted core for one instruction and halts it
again, RESUME lets it run, and an enabled breakpoint halts a running core at its address. On a pair that is not broken, or
outside HOLD, the write is discarded and counted as a write to a read-only register, and the breakpoint does not act. No commit
and no class state changes. -/
def Obligations.DebuggerOfABrokenPair : Prop :=
  (∀ (s : State) (p : Fin 4) (pc : Word) (work : Work), s.reach = true → s.debuggable p = true → (s.pair p).halted = false →
    ∃ t, exec (.dbgHalt p pc work) s = .next t ∧ t.pair p = { (s.pairWork p work).pair p with
      halted := true, pc := pc, bpHit := false, stepped := false } ∧
    (∀ q, q ≠ p.val → t.pair q = s.pair q) ∧ (∀ c, t.cls c = s.cls c ∧ (t.cmem c).image = (s.cmem c).image) ∧ OnlyChanges [.cyc, .lsp] s t) ∧
  (∀ (s : State) (p : Fin 4) (pc : Word) (work : Work), s.reach = true → s.debuggable p = true → (s.pair p).halted = true →
    ∃ t, exec (.dbgStep p pc work) s = .next t ∧ (t.pair p).halted = true ∧ (t.pair p).stepped = true ∧ (t.pair p).bpHit = false ∧
    (t.pair p).pc = pc ∧ (work = {} → t.pair p = { s.pair p with halted := true, stepped := true, bpHit := false, pc := pc }) ∧
    (∀ q, q ≠ p.val → t.pair q = s.pair q) ∧ (∀ c, t.cls c = s.cls c ∧ (t.cmem c).image = (s.cmem c).image) ∧ OnlyChanges [.cyc, .lsp] s t) ∧
  (∀ (s : State) (p : Fin 4), s.reach = true → s.debuggable p = true → ∃ t, exec (.dbgResume p) s = .next t ∧
    t.pair p = { s.pair p with halted := false, stepped := false, bpHit := false } ∧ (∀ q, q ≠ p.val → t.pair q = s.pair q) ∧
    OnlyChanges [.lsp] s t) ∧
  (∀ (s : State) (p b : Fin 4) (work : Work), s.debuggable p = true → (s.pair p).halted = false →
    (s.bpReg p b).getLsbD 0 = true → ∃ t, exec (.breakpointHit p b work) s = .next t ∧
    t.pair p = { (s.pairWork p work).pair p with
      halted := true, pc := s.bpReg p b &&& 0xFFFFFFFC, bpHit := true, stepped := false, bpNo := BitVec.ofNat 2 b.val } ∧
    (∀ q, q ≠ p.val → t.pair q = s.pair q) ∧ (∀ c, t.cls c = s.cls c ∧ (t.cmem c).image = (s.cmem c).image) ∧ OnlyChanges [.cyc, .lsp] s t) ∧
  (∀ (s : State) (p : Fin 4) (pc : Word) (work : Work), Settled s → s.reach = true → s.debuggable p = false →
    (∃ t, exec (.dbgHalt p pc work) s = .next t ∧ t.sys.roWr = s.sys.roWr + 1 ∧ OnlyChanges [.sys, .tly, .hif, .outbox] s t ∧ EventsOnly s t) ∧
    (∃ t, exec (.dbgStep p pc work) s = .next t ∧ t.sys.roWr = s.sys.roWr + 1 ∧ OnlyChanges [.sys, .tly, .hif, .outbox] s t ∧ EventsOnly s t) ∧
    (∃ t, exec (.dbgResume p) s = .next t ∧ t.sys.roWr = s.sys.roWr + 1 ∧ OnlyChanges [.sys, .tly, .hif, .outbox] s t ∧ EventsOnly s t)) ∧
  (∀ (s : State) (p b : Fin 4) (work : Work), s.debuggable p = false → exec (.breakpointHit p b work) s = .next s)

/-- A minor frame puts its entries before the engine. At phase 0 a pending MANUAL puts the loop in manual with the live manual
output at the output last written, unless an operating-group press is taken; a pending press of a valid staging group makes it
live and counts; a pending press of a valid inactive bank makes it active and copies it; an invalid one is refused and changes
no live value. REARM, MANUAL and AUTO through the window of their owner set the request of the selected loop only, and are
counted as a write to a read-only register from another initiator. -/
def Obligations.LoopSamplesRequestsAndPresses : Prop :=
  (∀ (s : State) (e : Fin 4), s.loopsUp = true → ∃ t, exec (.minorFrameStart e) s = .next t ∧
    t.eng e = (s.eng e).begin (s.tim.ns / max 1 (s.minorNs e)) ∧ (t.eng e).frame = (s.eng e).frame ∧
    (∀ x ∈ (t.eng e).todo, x ∈ (s.eng e).frame) ∧ (t.eng e).endNs = 0 ∧ (∀ d, d ≠ e.val → t.eng d = s.eng d) ∧
    (∀ n, t.loop n = s.loop n) ∧ OnlyChanges [.cle] s t) ∧
  (∀ (s : State) (n : Nat), s.loopsUp = true → s.loopSet n = true → (s.loop n).opPress.pend = false →
    (s.loop n).bkPress.pend = false → ∃ t, exec (.loopPhase0 n) s = .next t ∧
    (t.loop n).op = (if (s.loop n).manReq then { (s.loop n).op with mout := (s.loop n).out } else (s.loop n).op) ∧
    (t.loop n).man = ((s.loop n).man || (s.loop n).manReq) ∧ (t.loop n).manReq = false ∧ (t.loop n).autoReq = false ∧
    (t.loop n).rearmPend = false ∧ (t.loop n).nowRearm = (s.loop n).rearmPend ∧ (t.loop n).run = s.loopRuns n ∧
    (t.loop n).out = (s.loop n).out ∧ (t.loop n).active = (s.loop n).active ∧ (t.loop n).dyn = (s.loop n).dyn ∧
    (∀ m, m ≠ n → t.loop m = s.loop m) ∧ OnlyChanges [.cle] s t) ∧
  (∀ (s : State) (n : Nat), s.loopsUp = true → s.loopSet n = true → (s.loop n).opPress.pend = true → (s.loop n).stg.ok = true →
    (s.loop n).bkPress.pend = false → ∃ t, exec (.loopPhase0 n) s = .next t ∧ (t.loop n).op = (s.loop n).stg ∧
    (t.loop n).opPress = { (s.loop n).opPress with pend := false, refused := false } ∧
    (t.loop n).presses = (s.loop n).presses + 1 ∧ (∀ m, m ≠ n → t.loop m = s.loop m) ∧ OnlyChanges [.sys, .hif, .cle, .dpx, .dpx2, .tly, .outbox] s t ∧
    (s.insync = false → OnlyChanges [.cle] s t)) ∧
  (∀ (s : State) (n : Nat), s.loopsUp = true → s.loopSet n = true → (s.loop n).opPress.pend = true → (s.loop n).stg.ok = false →
    (s.loop n).manReq = false → ∃ t, exec (.loopPhase0 n) s = .next t ∧ (t.loop n).op = (s.loop n).op ∧
    (t.loop n).opPress = { (s.loop n).opPress with pend := false, refused := true } ∧ (t.loop n).presses = (s.loop n).presses ∧
    (∀ m, m ≠ n → t.loop m = s.loop m) ∧ OnlyChanges [.cle] s t) ∧
  (∀ (s : State) (n : Nat), s.loopsUp = true → s.loopSet n = true → (s.loop n).bkPress.pend = true →
    bankOk (s.lcfg n) (bankOf (s.loop n).inactive) = true → ∃ t, exec (.loopPhase0 n) s = .next t ∧
    (t.loop n).abank = (!(s.loop n).abank) ∧ (t.loop n).active = (s.loop n).inactive ∧ (t.loop n).inactive = (s.loop n).inactive ∧
    (t.loop n).bkPress = { (s.loop n).bkPress with pend := false, refused := false } ∧ (∀ m, m ≠ n → t.loop m = s.loop m) ∧
    OnlyChanges [.sys, .hif, .cle, .dpx, .dpx2, .tly, .outbox] s t) ∧
  (∀ (s : State) (n : Nat), s.loopsUp = true → s.loopSet n = true → (s.loop n).bkPress.pend = true →
    bankOk (s.lcfg n) (bankOf (s.loop n).inactive) = false → ∃ t, exec (.loopPhase0 n) s = .next t ∧
    (t.loop n).abank = (s.loop n).abank ∧ (t.loop n).active = (s.loop n).active ∧ (t.loop n).bkPress.refused = true ∧
    (t.loop n).bkPress.pend = false ∧ (∀ m, m ≠ n → t.loop m = s.loop m) ∧ OnlyChanges [.sys, .hif, .cle, .dpx, .dpx2, .tly, .outbox] s t) ∧
  (∀ (s : State) (w : Fin 8) (ini : Ini), Settled s → s.reach = true → winOwner w ini = true → s.loopSet (s.winSlot w) = true →
    ownerOk (s.lcfg (s.winSlot w)).owner ini = true →
    (∃ t, exec (.loopCmdRearm w ini) s = .next t ∧ t.loop (s.winSlot w) = { s.loop (s.winSlot w) with rearmPend := true } ∧
      (∀ m, m ≠ s.winSlot w → t.loop m = s.loop m) ∧ OnlyChanges [.cle] s t) ∧
    (∃ t, exec (.loopCmdManual w ini) s = .next t ∧ t.loop (s.winSlot w) = { s.loop (s.winSlot w) with manReq := true } ∧
      (∀ m, m ≠ s.winSlot w → t.loop m = s.loop m) ∧ OnlyChanges [.cle] s t) ∧
    (∃ t, exec (.loopCmdAuto w ini) s = .next t ∧ t.loop (s.winSlot w) = { s.loop (s.winSlot w) with autoReq := true } ∧
      (∀ m, m ≠ s.winSlot w → t.loop m = s.loop m) ∧ OnlyChanges [.cle] s t)) ∧
  (∀ (s : State) (w : Fin 8) (ini : Ini) (i : Instr), Settled s → s.reach = true →
    i = .loopCmdRearm w ini ∨ i = .loopCmdManual w ini ∨ i = .loopCmdAuto w ini → winOwner w ini = false →
    ∃ t, exec i s = .next t ∧ t.sys.roWr = s.sys.roWr + 1 ∧ OnlyChanges [.sys, .tly, .hif, .outbox] s t ∧ EventsOnly s t)

/-- LOOP_STEP of an entry of the minor frame in progress computes the law on the inputs sampled for it and consumes the entry; a bad
feedback of a loop that is not in loss is noted and keeps latch and states; a loop outside the walk is not stepped. Where its
checked pair agrees and the module is no standby in RUN, LOOP_CREASE of a running loop with no loss sets its output to the latch
in automatic and to the live manual output in manual. A new loss is counted, and the output is that of the loss action: safe
value, last output, or manual from the last output; after a NaN of the law the last output is written first. A loop that the
mode does not run writes its configured safe value in STOP. The value written leaves the module; no other loop changes. The
crease of a loop on a standby in RUN keeps the mirrored state. -/
def Obligations.LoopStepsAndCreases : Prop :=
  (∀ (s : State) (n : Nat) (flip : Word) (e : Nat) (rest : List FrEnt), s.loopsUp = true → s.loopSet n = true →
    s.loopRuns n = true → (s.loop n).run = true → walkTo n (s.eng (n / 1024)).todo (s.eng (n / 1024)).endNs = some (e, rest) →
    ∃ t, exec (.loopStep n flip) s = .next t ∧
    t.loop n = ((s.sampleIns n fun i => !i.atPhase0).loop n).step (s.lcfg n) flip ∧ (t.eng (n / 1024)).todo = rest ∧
    (t.eng (n / 1024)).endNs = e ∧ (t.loop n).stepped = true ∧ (t.loop n).out = (s.loop n).out ∧
    (∀ m, m ≠ n → t.loop m = s.loop m) ∧ (∀ d, d ≠ n / 1024 → t.eng d = s.eng d) ∧ OnlyChanges [.cle] s t) ∧
  (∀ (u : Loop) (c : LoopCfg) (flip : Word) (k : Nat), (u.countFreeze).cause c = some k → u.fbl = false → u.nowRearm = false →
    (u.step c flip).newLoss = true ∧ (u.step c flip).fblCause = BitVec.ofNat 3 k ∧ (u.step c flip).latch = u.latch ∧
    (u.step c flip).dyn = u.dyn) ∧
  (∀ (s : State) (n : Nat) (flip : Word), walkTo n (s.eng (n / 1024)).todo (s.eng (n / 1024)).endNs = none →
    exec (.loopStep n flip) s = .next s) ∧
  (∀ (s : State) (n : Nat), Settled s → s.loopsUp = true → s.loopSet n = true → (s.loop n).run = true → s.loopRuns n = true →
    s.tracks = false → (s.loop n).fbl = false → (s.loop n).newLoss = false → (s.loop n).mismatch (s.lcfg n) = false →
    ∃ t, exec (.loopCrease n) s = .next t ∧ (t.loop n).out = (if (s.loop n).man then (s.loop n).op.mout else (s.loop n).latch) ∧
    (t.loop n).creaseT = s.short ∧ (t.loop n).stepped = false ∧ (t.loop n).fbl = false ∧
    Out.loop n (t.loop n).out ∈ t.outbox ∧ (∀ m, m ≠ n → t.loop m = s.loop m) ∧ OnlyChanges [.sys, .hif, .cle, .dpx, .dpx2, .fio, .tly, .outbox] s t) ∧
  (∀ (s : State) (n : Nat), Settled s → s.loopsUp = true → s.loopSet n = true → (s.loop n).run = true → s.loopRuns n = true →
    s.tracks = false → (s.loop n).fbl = false → (s.loop n).newLoss = true → (s.loop n).mismatch (s.lcfg n) = false →
    ∃ t, exec (.loopCrease n) s = .next t ∧ (t.loop n).fbl = true ∧ (t.loop n).newLoss = false ∧
    (t.loop n).cntFbl = (s.loop n).cntFbl + 1 ∧
    ((s.loop n).fblCause ≠ 4 → bits (s.loop n).op.action 0 2 = 1 → (t.loop n).out = (s.loop n).op.safe) ∧
    ((s.loop n).fblCause = 4 → (t.loop n).out = (s.loop n).out) ∧
    (bits (s.loop n).op.action 0 2 = 2 → (t.loop n).man = true ∧ (t.loop n).out = (s.loop n).out) ∧
    (bits (s.loop n).op.action 0 2 = 0 → (t.loop n).out = (s.loop n).out) ∧
    Out.loop n (t.loop n).out ∈ t.outbox ∧ (∀ m, m ≠ n → t.loop m = s.loop m) ∧ OnlyChanges [.sys, .hif, .cle, .dpx, .dpx2, .fio, .tly, .outbox] s t) ∧
  (∀ (s : State) (n : Nat), Settled s → s.loopsUp = true → s.loopSet n = true → s.loopRuns n = false → s.tracks = false →
    s.outMode = .stop →
    ∃ t, exec (.loopCrease n) s = .next t ∧ (t.loop n).out = (s.lcfg n).safe ∧ (t.loop n).run = false ∧
    (t.loop n).fbl = (s.loop n).fbl ∧ Out.loop n (s.lcfg n).safe ∈ t.outbox ∧ (∀ m, m ≠ n → t.loop m = s.loop m) ∧
    OnlyChanges [.sys, .hif, .cle, .dpx, .dpx2, .fio, .tly, .outbox] s t) ∧
  (∀ (s : State) (n : Nat), Settled s → s.loopsUp = true → s.loopSet n = true → s.tracks = true → (∀ k, (s.ring k).infl = none) →
    ∃ t, exec (.loopCrease n) s = .next t ∧ t.cle = s.cle ∧ t.fio = s.fio ∧ OnlyChanges [.hif, .outbox] s t ∧ EventsOnly s t)

/-- INPUT, LOOP_IN, PARAM_ACK, PEER and BEACON on a port whose link is up: a bad FCS is counted on the port and a bad header, a TYPE
that Table 10.4 does not list among them, as a discarded frame, and nothing else changes; with the link down nothing does. A
second copy of an INPUT, LOOP_IN, PARAM_ACK or PEER is counted as eliminated and changes no station, subscription or loop value;
one outside the history has no effect at all. -/
def Obligations.FramesPassTheirChecksInOrder : Prop :=
  (∀ (s : State) (f : Kcp) (i : Instr), i ∈ [Instr.input f, .loopIn f, .paramAck f, .peer f, .beacon f] → Settled s →
    s.running = true → s.portUp f.port = true → f.fcsOk = false → ∃ t, exec i s = .next t ∧
    t.net = { s.net with ports := t.net.ports } ∧
    t.net.ports.look f.port {} = { s.net.ports.look f.port {} with fcs := (s.net.ports.look f.port {}).fcs + 1 } ∧
    (∀ p, p ≠ f.port → t.net.ports.look p {} = s.net.ports.look p {}) ∧ OnlyChanges [.net] s t) ∧
  (∀ (s : State) (f : Kcp) (e : Instr × BitVec 4),
    e ∈ [(Instr.input f, 2), (.loopIn f, 4), (.paramAck f, 7), (.peer f, 8), (.beacon f, 5)] → Settled s →
    s.running = true → s.portUp f.port = true → f.fcsOk = true → s.headerOk (f.typed e.2) = false →
    ∃ t, exec e.1 s = .next t ∧ t.net = { s.net with rings := t.net.rings, peerDisc := t.net.peerDisc } ∧
    (f.port < 4 → t.nring f.port = { s.nring f.port with disc := (s.nring f.port).disc + 1 } ∧ t.net.peerDisc = s.net.peerDisc) ∧
    (4 ≤ f.port → t.net.peerDisc = s.net.peerDisc + 1 ∧ t.net.rings = s.net.rings) ∧
    (∀ r, r ≠ f.port → t.nring r = s.nring r) ∧ OnlyChanges [.net] s t) ∧
  (∀ (s : State) (f : Kcp) (i : Instr), i ∈ [Instr.input f, .loopIn f, .paramAck f, .peer f, .beacon f] → Settled s →
    s.running = false ∨ s.portUp f.port = false → exec i s = .next s) ∧
  (∀ (s : State) (f : Kcp) (e : Instr × BitVec 4), e ∈ [(Instr.input f, 2), (.loopIn f, 4), (.paramAck f, 7)] → Settled s →
    s.running = true → s.portUp f.port = true → f.fcsOk = true → s.headerOk (f.typed e.2) = true →
    (s.net.strms.look (f.typed e.2).key {}).judge f.seq = .duplicate → ∃ t, exec e.1 s = .next t ∧
    t.nring f.port = { s.nring f.port with elim := (s.nring f.port).elim + 1 } ∧ (∀ r, r ≠ f.port → t.nring r = s.nring r) ∧
    t.net = { s.net with rings := t.net.rings, strms := t.net.strms } ∧ OnlyChanges [.net] s t) ∧
  (∀ (s : State) (f : Kcp), Settled s → s.running = true → s.portUp f.port = true → f.fcsOk = true →
    s.headerOk (f.typed 8) = true → (s.net.strms.look (f.typed 8).key {}).judge f.seq = .duplicate →
    ∃ t, exec (.peer f) s = .next t ∧ t.net = { s.net with peerElim := s.net.peerElim + 1, strms := t.net.strms } ∧ OnlyChanges [.net] s t) ∧
  (∀ (s : State) (f : Kcp) (e : Instr × BitVec 4), e ∈ [(Instr.input f, 2), (.loopIn f, 4), (.paramAck f, 7), (.peer f, 8)] →
    Settled s → s.running = true → s.portUp f.port = true → f.fcsOk = true → s.headerOk (f.typed e.2) = true →
    (s.net.strms.look (f.typed e.2).key {}).judge f.seq = .outside → exec e.1 s = .next s)

/-- Under an epoch that neither ends this module's role nor raises E_seen, after start-up: an INPUT fills its station's window; a
LOOP_IN of the current sample is kept for its group, another is counted late; where one of the two reports RESTARTED with no
block outstanding, a module that drives builds a new block and sends it. A PARAM_ACK that accepts the outstanding block ends the
parametering, a refusal leaves the station failed with a record, and one for another block changes no station. A PEER frame of
its subscription's length is taken and restores a failed subscription; a subscription that times out fails, with a record. Other
stations and subscriptions keep their state. A stream whose history is reset starts afresh, and a frame that came in one copy
only is counted on its ring. -/
def Obligations.FirstCopiesReachTheirStation : Prop :=
  (∀ (s : State) (f : Kcp) (i : Nat), Settled s → s.running = true → s.portUp f.port = true → f.fcsOk = true →
    s.headerOk (f.typed 2) = true → s.stnOf f.port f.src = some i →
    (s.net.strms.look (f.typed 2).key {}).judge f.seq = .fresh → f.epoch ≤ s.dpx.eSeen →
    s.drives = false ∨ f.epoch ≤ s.dpx.eOwn → s.boot.awaitStn = false →
    (f.payload.headD 0).getLsbD 1 = false ∨ (s.stn i).paramPend = true → ∃ t, exec (.input f) s = .next t ∧
    (t.stn i).rx = slice f.payload 4 (s.scfg i).inLen ∧ (t.stn i).last0 = f.payload.headD 0 ∧ (t.stn i).got = true ∧
    (t.stn i).everIn = true ∧ (t.stn i).failed = (s.stn i).failed ∧
    (t.stn i).gotOk = ((s.stn i).gotOk || ((f.payload.headD 0).getLsbD 0 && !(f.payload.headD 0).getLsbD 1 && !(s.stn i).paramPend)) ∧
    (∀ j, j ≠ i → t.stn j = s.stn j) ∧ (∀ k, k ≠ (f.typed 2).key → t.net.strms.look k {} = s.net.strms.look k {}) ∧
    t.net.strms.look (f.typed 2).key {} = (s.net.strms.look (f.typed 2).key {}).take f.seq ∧
    t.net.subs = s.net.subs ∧ t.net.loopIn = s.net.loopIn ∧ OnlyChanges [.net] s t) ∧
  (∀ (s : State) (f : Kcp) (i : Nat), Settled s → s.running = true → s.portUp f.port = true → f.fcsOk = true →
    s.headerOk (f.typed 4) = true → s.stnOf f.port f.src = some i →
    (s.net.strms.look (f.typed 4).key {}).judge f.seq = .fresh → f.epoch ≤ s.dpx.eSeen →
    s.drives = false ∨ f.epoch ≤ s.dpx.eOwn → (f.payload.headD 0).getLsbD 1 = false ∨ (s.stn i).paramPend = true →
    ∃ t, exec (.loopIn f) s = .next t ∧
    ((groupPeriods (s.stnLoops i)).getD f.pgrp.toNat 0 ≠ 0 →
      f.cyc = BitVec.ofNat 16 (s.sampleNo (25000 * (groupPeriods (s.stnLoops i)).getD f.pgrp.toNat 0)) →
      t.net.loopIn.find (i * 16 + f.pgrp.toNat) = some (f.cyc, s.tim.ns, f.payload.drop 4) ∧
      ∀ k, k ≠ i * 16 + f.pgrp.toNat → t.net.loopIn.find k = s.net.loopIn.find k) ∧
    (f.cyc ≠ BitVec.ofNat 16 (s.sampleNo (25000 * (groupPeriods (s.stnLoops i)).getD f.pgrp.toNat 0)) →
      (t.nring f.port).late = (s.nring f.port).late + 1 ∧ t.net.loopIn = s.net.loopIn) ∧
    (∀ j, (t.stn j).rx = (s.stn j).rx ∧ (t.stn j).got = (s.stn j).got) ∧ OnlyChanges [.net] s t) ∧
  (∀ (s : State) (f : Kcp) (i : Nat) (e : Instr × BitVec 4), e ∈ [(Instr.input f, 2), (.loopIn f, 4)] → Settled s →
    s.running = true → s.portUp f.port = true → f.fcsOk = true → s.headerOk (f.typed e.2) = true → s.stnOf f.port f.src = some i →
    (s.net.strms.look (f.typed e.2).key {}).judge f.seq = .fresh → f.epoch ≤ s.dpx.eSeen → f.epoch ≤ s.dpx.eOwn → s.drives = true →
    s.boot.awaitStn = false → (f.payload.headD 0).getLsbD 1 = true → (s.stn i).paramPend = false → s.dupStn i = false →
    ∃ t fr, exec e.1 s = .next t ∧ (t.stn i).paramId = (s.stn i).paramId + 1 ∧ (t.stn i).paramPend = true ∧
    Out.frame fr ∈ t.outbox.drop s.outbox.length ∧ fr.kind = .param ∧ fr.dst = i ∧ fr.epoch = s.dpx.eOwn ∧
    (∀ j, j ≠ i → t.stn j = s.stn j) ∧ OnlyChanges [.net, .outbox] s t) ∧
  (∀ (s : State) (f : Kcp) (i : Nat), Settled s → s.running = true → s.portUp f.port = true → f.fcsOk = true →
    s.headerOk (f.typed 7) = true → s.stnOf f.port f.src = some i →
    (s.net.strms.look (f.typed 7).key {}).judge f.seq = .fresh → f.epoch ≤ s.dpx.eSeen →
    s.drives = false ∨ f.epoch ≤ s.dpx.eOwn → ∃ t, exec (.paramAck f) s = .next t ∧
    ((s.stn i).paramPend = true → (s.stn i).paramId = BitVec.ofNat 32 (fieldN f.payload 0 4) → fieldN f.payload 4 1 = 0 →
      t.stn i = { s.stn i with paramPend := false, acked := true, rejoining := false, gotOk := false, refused := false } ∧
      t.tly = s.tly) ∧
    ((s.stn i).paramPend = true → (s.stn i).paramId = BitVec.ofNat 32 (fieldN f.payload 0 4) → fieldN f.payload 4 1 ≠ 0 →
      t.stn i = { s.stn i with
        paramPend := false, acked := true, rejoining := false, gotOk := false, refused := true, failed := true } ∧
      t.tly = (s.log 0x0603 4 ([BitVec.ofNat 8 f.port, BitVec.ofNat 8 (fieldN f.payload 4 1)] ++ le 2 i ++
        le 4 (s.stn i).paramId.toNat)).tly) ∧
    ((s.stn i).paramPend = false ∨ (s.stn i).paramId ≠ BitVec.ofNat 32 (fieldN f.payload 0 4) → t.stn i = s.stn i ∧ t.tly = s.tly) ∧
    (∀ j, j ≠ i → t.stn j = s.stn j) ∧ OnlyChanges [.net, .tly, .hif, .outbox] s t ∧ EventsOnly s t) ∧
  (∀ (s : State) (f : Kcp), Settled s → s.running = true → s.portUp f.port = true → f.fcsOk = true →
    s.headerOk (f.typed 8) = true → (s.net.strms.look (f.typed 8).key {}).judge f.seq = .fresh →
    (∀ i ∈ s.subsOf f.src, (s.net.subs.look i {}).epoch ≤ f.epoch) → ∃ t, exec (.peer f) s = .next t ∧
    (∀ i ∈ s.subsOf f.src, (t.net.subs.look i {}).epoch = f.epoch ∧
      (f.payload.length = (s.cfg.subs.look i {}).len → (t.net.subs.look i {}).data = f.payload ∧ (t.net.subs.look i {}).got = true ∧
        (t.net.subs.look i {}).failed = false ∧
        (t.net.subs.look i {}).changed = ((s.net.subs.look i {}).changed || (s.net.subs.look i {}).failed)) ∧
      (f.payload.length ≠ (s.cfg.subs.look i {}).len → (t.net.subs.look i {}).data = (s.net.subs.look i {}).data)) ∧
    (∀ i, i ∉ s.subsOf f.src → t.net.subs.look i {} = s.net.subs.look i {}) ∧ t.net.stns = s.net.stns ∧ OnlyChanges [.net] s t) ∧
  (∀ (s : State) (i : Nat), Settled s → s.running = true → (s.cfg.subs.find i).isSome = true →
    (s.net.subs.look i {}).failed = false → ∃ t, exec (.peerTimeout i) s = .next t ∧
    t.net.subs.look i {} = { s.net.subs.look i {} with failed := true, changed := true } ∧
    (∀ j, j ≠ i → t.net.subs.look j {} = s.net.subs.look j {}) ∧ t.net = { s.net with subs := t.net.subs } ∧
    t.tly = (s.log 0x0604 3 ([BitVec.ofNat 8 i, 0, 0, 0] ++ le 4 (s.cfg.subs.look i {}).node.toNat)).tly ∧ OnlyChanges [.net, .tly] s t) ∧
  (∀ (s : State) (key : Nat), (s.net.strms.look key {}).alone = false → ∃ t, exec (.eliminationHistoryReset key) s = .next t ∧
    t.net.strms.find key = none ∧ (∀ k, k ≠ key → t.net.strms.find k = s.net.strms.find k) ∧
    t.net = { s.net with strms := t.net.strms } ∧ OnlyChanges [.net] s t) ∧
  (∀ (s : State) (key : Nat), (s.net.strms.look key {}).alone = true → (s.strmFrom key).1 < 4 →
    ∃ t, exec (.eliminationHistoryReset key) s = .next t ∧ t.net.strms.find key = none ∧
    (∀ k, k ≠ key → t.net.strms.find k = s.net.strms.find k) ∧
    t.nring (s.strmFrom key).1 = { s.nring (s.strmFrom key).1 with single := (s.nring (s.strmFrom key).1).single + 1 } ∧
    (∀ r, r ≠ (s.strmFrom key).1 → t.nring r = s.nring r) ∧ OnlyChanges [.net] s t)

/-- LINK_CHANGE records a link that comes up, with the diagnostic values of a transceiver; a wrong speed, half duplex or wrong
transceiver holds it down, with a record. At a beacon slot a module that drives the plant sends a beacon on each live ring, and
on a primary or a module with no partner every configured ring takes over what its slot heard, opens after three slots without
one direction and closes after twenty with both. A standby for which the slot makes the takeover due enters TAKEOVER with a new
epoch of its side above E_seen. The first beacon with a higher epoch makes a primary in RUN step down: standby, no class
running, no INSYNC, its journal orphaned; a lower or equal one changes no epoch of this module and no station. -/
def Obligations.LinksAndRingSupervision : Prop :=
  (∀ (s : State) (p : Fin 7) (speed : BitVec 2) (full typeOk : Bool) (diag : List Byte), Settled s → s.running = true →
    s.holdCause p speed full typeOk = none → ∃ t, exec (.linkChange p true speed full ⟨typeOk, diag⟩) s = .next t ∧
    t.net.ports.look p {} = { s.net.ports.look p {} with
      link := true, held := false, speed := speed, full := full, diag := if p.val = 4 ∨ p.val = 5 then diag else [] } ∧
    (∀ q, q ≠ p.val → t.net.ports.look q {} = s.net.ports.look q {}) ∧ t.net = { s.net with ports := t.net.ports } ∧ OnlyChanges [.net] s t) ∧
  (∀ (s : State) (p : Fin 7) (speed : BitVec 2) (full typeOk : Bool) (diag : List Byte) (k : Nat), Settled s → s.running = true →
    s.holdCause p speed full typeOk = some k → ∃ t, exec (.linkChange p true speed full ⟨typeOk, diag⟩) s = .next t ∧
    t.net.ports.look p {} = { s.net.ports.look p {} with
      link := true, held := true, speed := speed, full := full, diag := if p.val = 4 ∨ p.val = 5 then diag else [] } ∧
    t.portUp p = false ∧ (p.val < 4 → s.ringSet p = true → (t.nring p).opened = true) ∧
    (∀ q, q ≠ p.val → t.net.ports.look q {} = s.net.ports.look q {} ∧ t.nring q = s.nring q) ∧
    t.tly = (s.log 0x0601 3 [BitVec.ofNat 8 p.val, BitVec.ofNat 8 k]).tly ∧ OnlyChanges [.net, .tly, .hif, .outbox] s t ∧ EventsOnly s t) ∧
  (∀ (s : State) (p : Fin 7) (speed : BitVec 2) (full typeOk : Bool) (diag : List Byte), Settled s → s.running = true →
    ∃ t, exec (.linkChange p false speed full ⟨typeOk, diag⟩) s = .next t ∧
    t.net.ports.look p {} = { s.net.ports.look p {} with link := false, held := false, speed := 0, full := false, diag := [] } ∧
    (∀ q, q ≠ p.val → t.net.ports.look q {} = s.net.ports.look q {}) ∧ t.net = { s.net with ports := t.net.ports } ∧ OnlyChanges [.net] s t) ∧
  (∀ s : State, Settled s → s.running = true → s.watchesRings = true → s.drives = true ∨ s.cfg.partner = false →
    s.cfg.rings.keys.Nodup → ∃ t, exec .beaconSlot s = .next t ∧
    (∀ r ∈ s.cfg.rings.keys, (t.nring r).east = (s.nring r).curE ∧ (t.nring r).west = (s.nring r).curW ∧
      (t.nring r).curE = false ∧ (t.nring r).curW = false ∧
      (t.nring r).missE = (if (s.nring r).curE || !s.portUp r then 0 else (s.nring r).missE + 1) ∧
      (t.nring r).missW = (if (s.nring r).curW || !s.portUp r then 0 else (s.nring r).missW + 1) ∧
      ((s.nring r).opened = false → ((t.nring r).opened = true ↔ 3 ≤ (t.nring r).missE ∨ 3 ≤ (t.nring r).missW)) ∧
      ((s.nring r).opened = true → (s.net.ports.look r {}).held = false →
        ((t.nring r).opened = false ↔ 20 ≤ (t.nring r).both))) ∧
    (∀ r, r ∉ s.cfg.rings.keys → t.nring r = s.nring r) ∧
    (s.drives = true → ∀ r ∈ s.liveRings, ∃ fr : Frame, Out.frame fr ∈ t.outbox ∧ fr.kind = .beacon ∧ fr.dst = r ∧
      fr.epoch = s.dpx.eOwn) ∧
    OnlyChanges [.net, .tly, .hif, .outbox] s t ∧ EventsOnly s t) ∧
  (∀ s : State, s.running = true → s.drives = false → s.cfg.partner = true → s.watchesRings = true → s.cfg.rings.keys.Nodup →
    s.sys.lone = false → s.cfg.valid = true → s.dpx.eSeen.toNat + 2 < 2 ^ 32 → s.countAbsent.takeoverDue = true →
    ∃ t, exec .beaconSlot s = .next t ∧ t.sys.mode = .takeover ∧ t.sys.from_ = .run ∧ t.sys.primary = false ∧
    t.dpx.state = .noPartner ∧ s.dpx.eSeen < t.dpx.eOwn ∧ t.dpx.eOwn.getLsbD 0 = s.side ∧ t.dpx.eSeen = t.dpx.eOwn ∧
    t.drives = true ∧ OnlyChanges [.sys, .hif, .cyc, .cle, .chg, .dpx, .dpx2, .mir, .net, .can, .canq, .fio, .tly, .boot, .outbox] s t) ∧
  (∀ (s : State) (f : Kcp), s.running = true → s.portUp f.port = true → f.fcsOk = true → s.headerOk (f.typed 5) = true →
    f.src ≠ s.sys.nodeId → (s.net.strms.look (f.typed 5).key {}).judge f.seq = .fresh → s.sys.primary = true →
    s.sys.mode = .run → s.dpx.eOwn < f.epoch → s.boot.listening = false → ∃ t, exec (.beacon f) s = .next t ∧
    t.sys.primary = false ∧ t.sys.mode = .run ∧ (∀ c, (t.cls c).running = false) ∧ t.dpx.state ≠ .insync ∧
    f.epoch ≤ t.dpx.eSeen ∧ t.dpx2.stepDown = s.dpx2.stepDown + 1 ∧ (∀ r ∈ t.hif.journal, r.orphan = true) ∧
    OnlyChanges [.sys, .hif, .cyc, .lsp, .dpx, .dpx2, .net, .can, .canq, .fio, .tly, .outbox] s t) ∧
  (∀ (s : State) (f : Kcp), Settled s → s.running = true → s.portUp f.port = true → f.fcsOk = true →
    s.headerOk (f.typed 5) = true → f.src ≠ s.sys.nodeId →
    (s.net.strms.look (f.typed 5).key {}).judge f.seq = .fresh → s.drives = false ∨ f.epoch ≤ s.dpx.eOwn →
    s.boot.listening = false → ∃ t, exec (.beacon f) s = .next t ∧ f.epoch ≤ t.dpx.eSeen ∧ s.dpx.eSeen ≤ t.dpx.eSeen ∧
    t.dpx.eOwn = s.dpx.eOwn ∧ (∀ j, t.stn j = s.stn j) ∧ OnlyChanges [.net, .dpx, .dpx2] s t)

/-- On a module that drives, where its mode puts outputs out, OUTPUT_LAUNCH sends one frame with the epoch E_own and the next
sequence number of its stream; with no safety connection configured an OUTPUT carries the committed image in RUN once its class
has committed, and a repeat is marked; in STOP it carries the station's safe values, as it does on a lone module in FAULT-HALT
or RECOVERY. From another module that does not drive nothing leaves. A publication carries the last committed globals, a
LOOP_OUT what its loops write at the crease. A parameter block leaves again under its PARAM_ID on a retry, and every second
under a new one while the station is failed and acknowledges none; a station with the identifier of an earlier one is refused
with result 3. -/
def Obligations.FramesLeaveWithTheValuesOfTheirMode : Prop :=
  (∀ (s : State) (i : Nat) (img : Bool) (b : List Byte), s.stnSet i = true → s.drives = true →
    s.pwr.shutdown = false → s.outputOf (s.scfg i) = some (img, b) → ∃ t fr, exec (.outputLaunch i) s = .next t ∧
    t.outbox = s.outbox ++ [.frame fr] ∧ fr.kind = .output ∧ fr.dst = i ∧ fr.epoch = s.dpx.eOwn ∧
    fr.seq = s.net.tx.look (0x10000 + i) 0 + 1 ∧ t.net.tx.look (0x10000 + i) 0 = fr.seq ∧
    fr.cyc = (s.cls (s.scfg i).cls).cycno.setWidth 16 ∧ (s.cfg.wsc = [] → fr.payload = b) ∧
    (s.sys.mode = .run → img = true → fr.rep = (decide ((s.stn i).sentNo = (s.cmem (s.scfg i).cls).commitNo) || (s.cmem (s.scfg i).cls).preRun)) ∧
    (s.sys.mode = .stop → s.sys.trans = none → b = stnSafe (s.scfg i) ∧ img = false) ∧
    (s.sys.mode = .run → s.sys.trans = none → (s.cmem (s.scfg i).cls).preRun = false → b = s.stnImage (s.scfg i) ∧ img = true) ∧
    (∀ j, j ≠ i → t.stn j = s.stn j) ∧ OnlyChanges [.net, .saf, .outbox] s t) ∧
  (∀ (s : State) (i : Nat), s.stnSet i = true → s.drives = false → s.safeFrames = true → ∃ t fr, exec (.outputLaunch i) s = .next t ∧
    t.outbox = s.outbox ++ [.frame fr] ∧ fr.kind = .output ∧ fr.dst = i ∧ (s.cfg.wsc = [] → fr.payload = stnSafe (s.scfg i)) ∧
    (∀ j, t.stn j = s.stn j) ∧ OnlyChanges [.net, .saf, .outbox] s t) ∧
  (∀ (s : State) (i : Nat), s.stnSet i = true → s.drives = false → s.safeFrames = false → exec (.outputLaunch i) s = .next s) ∧
  (∀ (s : State) (i : Nat) (g : BitVec 4) (n : Nat) (ns : List Nat), s.drives = true → s.pwr.shutdown = false → s.loopsUp = true →
    s.stnSet i = true → s.groupLoops i g.toNat = n :: ns → (s.creaseOut n).1.isSome = true → ∃ t fr, exec (.loopOutLaunch i g) s = .next t ∧
    t.outbox = s.outbox ++ [.frame fr] ∧ fr.kind = .loopOut ∧ fr.dst = i ∧ fr.pgrp = g ∧ fr.epoch = s.dpx.eOwn ∧
    fr.cyc = BitVec.ofNat 16 (s.loop n).sample ∧ fr.payload = (n :: ns).flatMap (fun j => le 4 ((s.creaseOut j).1.getD (s.loop j).out).toNat) ∧
    fr.payload.length = 4 * (ns.length + 1) ∧ t.net = { s.net with tx := t.net.tx } ∧ OnlyChanges [.net, .outbox] s t) ∧
  (∀ (s : State) (p : Nat), s.drives = true → s.pwr.shutdown = false → (s.cfg.pubs.find p).isSome = true →
    ∃ t fr, exec (.peerLaunch p) s = .next t ∧ t.outbox = s.outbox ++ [.frame fr] ∧ fr.kind = .peer ∧ fr.dst = p ∧
    fr.epoch = s.dpx.eOwn ∧ (s.cfg.wsc = [] → fr.payload =
      (s.cmem (s.cfg.pubs.look p {}).cls).globPub.rdN (s.cfg.pubs.look p {}).at_ (s.cfg.pubs.look p {}).len) ∧
    fr.rep = decide (s.net.pubSent.look p 0 = (s.cmem (s.cfg.pubs.look p {}).cls).commitNo) ∧
    t.net.pubSent.look p 0 = (s.cmem (s.cfg.pubs.look p {}).cls).commitNo ∧ t.net.stns = s.net.stns ∧ OnlyChanges [.net, .saf, .outbox] s t) ∧
  (∀ (s : State) (i : Nat), s.drives = true → s.stnSet i = true → (s.stn i).paramPend = true →
    ∃ t, exec (.paramRetry i) s = .next t ∧ t.net = { s.net with tx := t.net.tx } ∧
    t.outbox.length = s.outbox.length + max 1 (((s.paramBlock i (s.stn i).paramId).length + 1469) / 1470) ∧
    (∀ fr, Out.frame fr ∈ t.outbox.drop s.outbox.length → fr.kind = .param ∧ fr.dst = i ∧ fr.epoch = s.dpx.eOwn) ∧ OnlyChanges [.net, .outbox] s t) ∧
  (∀ (s : State) (i : Nat), s.drives = true → s.stnSet i = true → (s.stn i).failed = true → (s.stn i).acked = false →
    s.dupStn i = false → ∃ t, exec (.paramPeriodic i) s = .next t ∧ t.stn i = { s.stn i with paramId := (s.stn i).paramId + 1, paramPend := true } ∧
    (∀ j, j ≠ i → t.stn j = s.stn j) ∧ s.outbox.length < t.outbox.length ∧
    (∀ fr, Out.frame fr ∈ t.outbox.drop s.outbox.length → fr.kind = .param ∧ fr.dst = i) ∧ OnlyChanges [.net, .outbox] s t) ∧
  (∀ (s : State) (i : Nat), s.drives = true → s.stnSet i = true → (s.stn i).failed = true → (s.stn i).acked = false →
    s.dupStn i = true → ∃ t, exec (.paramPeriodic i) s = .next t ∧ t.stn i = { s.stn i with
      paramPend := false, acked := true, rejoining := false, gotOk := false, refused := true, failed := true } ∧
    (∀ j, j ≠ i → t.stn j = s.stn j) ∧ t.tly = (s.log 0x0603 4 ([BitVec.ofNat 8 (s.scfg i).ring, 3] ++ le 2 i ++
      le 4 (s.stn i).paramId.toNat)).tly ∧ OnlyChanges [.net, .tly] s t)

/-- For every record type and notice: with the lanes not working nothing happens; a bad CRC, a format outside the receiver's range
or a TYPE outside Table 9.14 is counted on its lane and breaks its run of good heartbeats (below 16 errors in 1 ms nothing else
changes); a record ahead of its turn is kept once and not used; one at or below the last used has no effect. When a gap before a
waiting TALLY_HDRS record is not filled in time, INSYNC ends and that record is used. -/
def Obligations.RecordsOfTheBasteLinkAreCheckedAndOrdered : Prop :=
  (∀ (s : State) (r : BRec) (i : Instr), Arrival r i → s.lanesOn = false → exec i s = .next s) ∧
  (∀ (s : State) (r : BRec) (i : Instr), Arrival r i → Settled s → s.lanesOn = true → r.crcOk = false ∨ s.fmtOk r.fmt = false ∨ 12 < r.type →
    (s.dpx.crcT r.lane).length < 15 → ∃ t, exec i s = .next t ∧
    (if r.lane then t.dpx.crc1 = s.dpx.crc1 + 1 ∧ t.dpx.good1 = 0 ∧ t.dpx.crc0 = s.dpx.crc0
     else t.dpx.crc0 = s.dpx.crc0 + 1 ∧ t.dpx.good0 = 0 ∧ t.dpx.crc1 = s.dpx.crc1) ∧
    t.dpx.state = s.dpx.state ∧ t.dpx.up0 = s.dpx.up0 ∧ t.dpx.up1 = s.dpx.up1 ∧ t.dpx.eOwn = s.dpx.eOwn ∧ OnlyChanges [.dpx] s t) ∧
  (∀ (s : State) (r : BRec) (i : Instr), Arrival r i → Settled s → s.lanesOn = true → r.crcOk = true → s.fmtOk r.fmt = true →
    r.type ≤ 12 → s.dpx2.rseqRx ≠ 0 → s.dpx2.rseqRx + 1 ≠ r.rseq → s.dpx2.rseqRx < r.rseq → ∃ t, exec i s = .next t ∧
    t.dpx2 = { s.dpx2 with waitRec := t.dpx2.waitRec } ∧ (∀ x ∈ s.dpx2.waitRec, x ∈ t.dpx2.waitRec) ∧
    (∃ x ∈ t.dpx2.waitRec, x.rseq = r.rseq) ∧ OnlyChanges [.dpx2] s t) ∧
  (∀ (s : State) (r : BRec) (i : Instr), Arrival r i → Settled s → s.lanesOn = true → r.crcOk = true → s.fmtOk r.fmt = true →
    r.type ≤ 12 → s.dpx2.rseqRx ≠ 0 → s.dpx2.rseqRx + 1 ≠ r.rseq → ¬ s.dpx2.rseqRx < r.rseq → exec i s = .next s) ∧
  (∀ (s : State) (r : BRec), s.running = true → s.dpx2.waitRec = [r] → r.type = 8 → s.insync = true →
    ∃ t, exec .rseqGapTimeout s = .next t ∧ t.dpx.state ≠ .insync ∧ t.dpx2.waitRec = [] ∧ t.dpx2.rseqRx = r.rseq ∧
    OnlyChanges [.sys, .hif, .dpx, .dpx2, .can, .canq, .tly, .outbox] s t)

/-- On the receiving module, in its turn, for a program that it holds and with no exchange due by it: LINES adds its lines to the
buffer of its class and area and changes no image. COMMIT_END with the right number of records and CRC, with no host write
waiting and outside a configuration switch, publishes the committed image with the received lines written over it (over nothing
in the first bulk of an initial sync), takes data and globals the same way, empties the buffers and is acknowledged; with a
wrong CRC or count it is answered with result 1 and no image changes. At the first one of the fastest class the old primary of
an exchange, in TAKEOVER, becomes standby in RUN. LOOP_STATE and LOOP_GROUP set the mirrored state of their loop only; of a
program unknown here they end INSYNC. -/
def Obligations.CommitsReachTheStandby : Prop :=
  (∀ (s : State) (r : BRec), InTurn r s → s.receives = true → s.holdsVersion r.progVer = true →
    s.chg.state ≠ 3 ∨ r.progVer = s.chg.actVer → ∃ t, exec (.lines r) s = .next t ∧
    (fieldN r.payload 1 1 = 0 → (t.mirCls (fieldN r.payload 0 1 % 8)).inactive =
      (s.mirCls (fieldN r.payload 0 1 % 8)).inactive ++ lineEntries r.payload 16 (fieldN r.payload 2 2)) ∧
    (fieldN r.payload 1 1 = 1 → (t.mirCls (fieldN r.payload 0 1 % 8)).inData =
      (s.mirCls (fieldN r.payload 0 1 % 8)).inData ++ lineEntries r.payload 16 (fieldN r.payload 2 2)) ∧
    (t.mirCls (fieldN r.payload 0 1 % 8)).lines = (s.mirCls (fieldN r.payload 0 1 % 8)).lines + 1 ∧
    (∀ c, c ≠ fieldN r.payload 0 1 % 8 → t.mirCls c = s.mirCls c) ∧ OnlyChanges [.mir, .dpx2] s t) ∧
  (∀ (s : State) (r : BRec) (c : Nat), InTurn r s → s.receives = true → s.holdsVersion r.progVer = true →
    s.chg.state ≠ 3 → s.pairAct = false → (s.mirCls c).wr = [] →
    s.sys.mode ≠ .takeover → fieldN r.payload 0 1 % 8 = c → (s.mirCls c).closes r.payload = true →
    ∃ t, exec (.commitEnd r) s = .next t ∧
    (t.cmem c).image = overlay (if r.sync && !(s.mirCls c).bulk then [] else (s.cmem c).image) (s.mirCls c).inactive ∧
    (t.cmem c).data = overlay (if r.sync && !(s.mirCls c).bulk then [] else (s.cmem c).data) (s.mirCls c).inData ∧
    (t.cmem c).globPub = overlay (if r.sync && !(s.mirCls c).bulk then [] else (s.cmem c).globPub) (s.mirCls c).inGlob ∧
    (t.mirCls c).inactive = [] ∧ (t.mirCls c).cyc = BitVec.ofNat 64 (fieldN r.payload 8 8) ∧
    (∀ d, d ≠ c → t.cmem d = s.cmem d ∧ t.mirCls d = s.mirCls d) ∧ (∀ d, t.cls d = s.cls d) ∧
    (∃ a : BRec, Out.baste a ∈ t.outbox ∧ a.type = 2 ∧ fieldN a.payload 9 1 = 0) ∧ OnlyChanges [.cyc, .mir, .dpx2, .outbox] s t) ∧
  (∀ (s : State) (r : BRec) (c : Nat), InTurn r s → s.receives = true → s.holdsVersion r.progVer = true →
    s.chg.state ≠ 3 ∨ r.progVer = s.chg.actVer →
    fieldN r.payload 0 1 % 8 = c → (s.mirCls c).closes r.payload = false → ∃ t, exec (.commitEnd r) s = .next t ∧
    (t.mirCls c).inactive = [] ∧ (t.mirCls c).lines = 0 ∧ (∀ d, d ≠ c → t.mirCls d = s.mirCls d) ∧
    (∃ a : BRec, Out.baste a ∈ t.outbox ∧ a.type = 2 ∧ fieldN a.payload 9 1 = 1) ∧ OnlyChanges [.mir, .dpx2, .outbox] s t) ∧
  (∀ (s : State) (r : BRec) (c : Nat), InTurn r s → s.receives = true → s.holdsVersion r.progVer = true →
    s.chg.state ≠ 3 → s.pairAct = false → s.fastest = some c →
    s.sys.mode = .takeover → s.dpx2.takeFrom = 0 → s.sys.lone = false → fieldN r.payload 0 1 % 8 = c →
    (s.mirCls c).closes r.payload = true → ∃ t, exec (.commitEnd r) s = .next t ∧ t.sys.mode = .run ∧ t.sys.primary = false ∧
    t.dpx.handover = false ∧ t.hif.hold = false ∧
    (t.cmem c).image = overlay (if r.sync && !(s.mirCls c).bulk then [] else (s.cmem c).image) (s.mirCls c).inactive ∧
    OnlyChanges [.sys, .hif, .cyc, .dpx, .dpx2, .mir, .can, .canq, .fio, .tly, .outbox] s t) ∧
  (∀ (s : State) (r : BRec) (n : Nat), InTurn r s → s.receives = true → s.holdsVersion r.progVer = true → fieldN r.payload 0 2 = n →
    s.loopSet n = true → r.payload.length = 32 + 4 * fieldN r.payload 2 1 → ∃ t, exec (.loopState r) s = .next t ∧
    t.loop n = (s.loop n).mirrored r.payload 0 ∧ (t.loop n).out = BitVec.ofNat 32 (fieldN r.payload 8 4) ∧
    (t.loop n).run = (s.loop n).run ∧ (∀ m, m ≠ n → t.loop m = s.loop m) ∧ OnlyChanges [.cle, .dpx2] s t) ∧
  (∀ (s : State) (r : BRec) (n : Nat), InTurn r s → s.receives = true → s.holdsVersion r.progVer = true → fieldN r.payload 0 2 = n →
    s.loopSet n = true → ∃ t, exec (.loopGroup r) s = .next t ∧ (t.loop n).op = { (s.loop n).op with
      safe := BitVec.ofNat 32 (fieldN r.payload 4 4), sattime := BitVec.ofNat 32 (fieldN r.payload 8 4)
      frztime := BitVec.ofNat 32 (fieldN r.payload 12 4), action := BitVec.ofNat 32 (fieldN r.payload 16 4) } ∧
    (t.loop n).presses = BitVec.ofNat 32 (fieldN r.payload 20 4) ∧ (t.loop n).out = (s.loop n).out ∧
    (∀ m, m ≠ n → t.loop m = s.loop m) ∧ OnlyChanges [.cle, .dpx2] s t) ∧
  (∀ (s : State) (r : BRec) (i : Instr), i = .loopState r ∨ i = .loopGroup r → InTurn r s → s.receives = true → s.insync = true →
    s.holdsVersion r.progVer = false → s.awaitsVersion r.progVer = false → ∃ t, exec i s = .next t ∧ t.dpx.state ≠ .insync ∧
    t.cle = s.cle ∧ OnlyChanges [.sys, .hif, .dpx, .dpx2, .tly, .outbox] s t)

/-- On the receiving module, in its turn: a HOSTWORK record in one part is acknowledged and enters the window copy under the
primary's H; a refused command has no other effect; VAR_WRITE values for a later cycle wait for the mirrored commit, others are
written at once; nothing is journaled. A WINDOW record in one part replaces the copy of its ring; TALLY_HDRS adds headers, at
most 65,536. TALLY_HDRS_SEND of an in-sync primary sends the unsent headers, a batch that fits one record and the backlog in one
record of type 8. VERSIONS is kept; a standby that finds its own configuration newer refuses the synchronisation with reason 2.
A part of an image that is not the last is acknowledged and joined; a package in one part that passes its checks is kept as that
of a change not yet recorded, and one that fails them leaves the change state as it was. -/
def Obligations.HostWorkWindowsHeadersAndVersions : Prop :=
  (∀ (s : State) (r : BRec), InTurn r s → s.receives = true → r.last = true → s.dpx2.hwBuf = [] →
    BitVec.ofNat 64 (fieldN r.payload 8 8) ≠ 0 → fieldN r.payload 4 1 = 2 →
    ∃ t, exec (.hostwork r) s = .next t ∧
    t.win (fieldN r.payload 0 1 % 32) = { (s.win (fieldN r.payload 0 1 % 32)).enter (BitVec.ofNat 64 (fieldN r.payload 8 8)) with
      high := BitVec.ofNat 64 (fieldN r.payload 16 8) } ∧
    (∀ n, n ≠ fieldN r.payload 0 1 % 32 → t.win n = s.win n) ∧ t.hif = { s.hif with wins := t.hif.wins } ∧
    (∃ a : BRec, Out.baste a ∈ t.outbox ∧ a.type = 2) ∧ OnlyChanges [.hif, .dpx2, .outbox] s t) ∧
  (∀ (s : State) (r : BRec) (h : Hcmd), InTurn r s → s.receives = true → r.last = true → s.dpx2.hwBuf = [] →
    BitVec.ofNat 64 (fieldN r.payload 8 8) ≠ 0 →
    fieldN r.payload 4 1 = 0 → fieldN r.payload 2 2 = 0 →
    h = entryOf (fieldN r.payload 0 1 % 32) (slice r.payload 32 64) (r.payload.drop 96) → h.opcode = 0x42 →
    BitVec.ofNat 64 (fieldN r.payload 24 8) ≠ 0 → ∃ t, exec (.hostwork r) s = .next t ∧
    (t.mirCls (classOf h)).wr = (s.mirCls (classOf h)).wr ++
      (elemsOf true h).map (fun e => (BitVec.ofNat 64 (fieldN r.payload 24 8), e)) ∧
    (∀ c, c ≠ classOf h → t.mirCls c = s.mirCls c) ∧ t.hif = { s.hif with wins := t.hif.wins } ∧ OnlyChanges [.hif, .mir, .dpx2, .outbox] s t) ∧
  (∀ (s : State) (r : BRec) (h : Hcmd), InTurn r s → s.receives = true → r.last = true → s.dpx2.hwBuf = [] →
    BitVec.ofNat 64 (fieldN r.payload 8 8) ≠ 0 →
    fieldN r.payload 4 1 = 0 → fieldN r.payload 2 2 = 0 →
    h = entryOf (fieldN r.payload 0 1 % 32) (slice r.payload 32 64) (r.payload.drop 96) → h.opcode = 0x42 →
    BitVec.ofNat 64 (fieldN r.payload 24 8) = 0 → ∃ t, exec (.hostwork r) s = .next t ∧
    t.cyc = ((elemsOf true h).foldl (fun (u : State) e => u.pokeNow e) s).cyc ∧ t.hif = { s.hif with wins := t.hif.wins } ∧
    OnlyChanges [.hif, .cyc, .dpx2, .outbox] s t) ∧
  (∀ (s : State) (r : BRec), InTurn r s → s.receives = true → s.dpx2.winOpen = false → ∃ t, exec (.window r) s = .next t ∧
    (t.win (fieldN r.payload 0 1 % 32)).high = BitVec.ofNat 64 (fieldN r.payload 8 8) ∧
    (t.win (fieldN r.payload 0 1 % 32)).ids.length = fieldN r.payload 4 4 ∧
    (∀ n, n ≠ fieldN r.payload 0 1 % 32 → t.win n = s.win n) ∧ t.hif = { s.hif with wins := t.hif.wins } ∧ OnlyChanges [.hif, .dpx2] s t) ∧
  (∀ (s : State) (r : BRec), InTurn r s → ∃ t, exec (.tallyHdrs r) s = .next t ∧
    t.tly = { s.tly with partner := t.tly.partner } ∧ t.tly.partner.length ≤ max s.tly.partner.length 65536 ∧
    (s.tly.partner.length + fieldN r.payload 0 2 ≤ 65536 →
      ∀ h ∈ headersOf r.payload (fieldN r.payload 0 2) 8, h ∈ t.tly.partner) ∧ OnlyChanges [.tly, .dpx2] s t) ∧
  (∀ s : State, s.running = true → s.insync = true → s.sys.primary = true → s.cfg.partner = true →
    ∃ t, exec .tallyHdrsSend s = .next t ∧
    t.tly.unsent = [] ∧ (s.tly.unsent.length ≤ 4095 → s.dpx2.backlog + 44 + s.tly.unsent.flatten.length ≤ 8388608 →
      t.tly = { s.tly with unsent := [] } ∧ t.outbox.length = s.outbox.length + (if s.tly.unsent = [] then 0 else 1) ∧
      ∀ a ∈ t.outbox.drop s.outbox.length, ∃ b : BRec, a = .baste b ∧ b.type = 8 ∧ b.payload.drop 8 = s.tly.unsent.flatten) ∧
    OnlyChanges [.sys, .hif, .dpx, .dpx2, .tly, .can, .canq, .outbox] s t) ∧
  (∀ (s : State) (r : BRec), InTurn r s → s.dpx.state ≠ .syncing → s.dpx.state ≠ .refused →
    ∃ t, exec (.versions r) s = .next t ∧
    t.dpx2 = { s.dpx2 with rseqRx := r.rseq, vers := r.payload } ∧ OnlyChanges [.dpx2] s t) ∧
  (∀ (s : State) (r : BRec), InTurn r s → s.dpx.state = .syncing → s.sys.primary = false → s.boot.act.busy = false →
    fieldN r.payload 0 4 = s.boot.fwVer.toNat → fieldN r.payload 4 4 < s.boot.actVer.toNat →
    ∃ t, exec (.versions r) s = .next t ∧ t.dpx2.vers = r.payload ∧
    t.dpx.state = .refused ∧ t.dpx.reason = 2 ∧ OnlyChanges [.dpx, .dpx2, .tly, .hif, .outbox] s t ∧ EventsOnly s t) ∧
  (∀ (s : State) (r : BRec), InTurn r s → s.receives = true → r.last = false → ∃ t, exec (.image r) s = .next t ∧
    t.dpx2.imgBuf = (if fieldN r.payload 8 8 = 0 then [] else s.dpx2.imgBuf).take (fieldN r.payload 8 8) ++ r.payload.drop 16 ∧
    t.dpx2.imgKind = fieldN r.payload 0 1 ∧ (∃ a : BRec, Out.baste a ∈ t.outbox ∧ a.type = 2) ∧ OnlyChanges [.dpx2, .outbox] s t) ∧
  (∀ (s : State) (r : BRec) (b : List Byte), InTurn r s → s.receives = true → r.last = true → fieldN r.payload 0 1 = 4 →
    fieldN r.payload 8 8 = 0 → b = (r.payload.drop 16).take (fieldN r.payload 4 4) → ∃ t, exec (.image r) s = .next t ∧
    (s.checkPkg b = .go → s.chg.pkgDone = false ∨ s.chg.package ≠ b → t.chg.package = b ∧ t.chg.state = 1 ∧ t.chg.stored = false ∧ t.chg.recorded = false) ∧
    (∀ st k, s.checkPkg b = .no st k → t.chg = s.chg) ∧ t.chg.active = s.chg.active ∧ t.chg.actVer = s.chg.actVer ∧
    OnlyChanges [.chg, .dpx2, .outbox] s t)

/-- In their turn, with no activation in progress: the good ACK of the cut-in notice brings a synchronising primary in sync and
counts it; that of the last commit is noted where no exchange waits. A failure notice on a primary or with no INSYNC is only
noted. A halt notice to a standby ends in FAULT-HALT with cause 1, outside BOOT and TEST. HANDOVER and HANDBACK name the
boundary to an in-sync standby in RUN and are acknowledged, with result 1 and no other effect by one that has failed its proof
swap. RING_ABSENT of a ring not reported before asks a primary for an exchange that R264 allows, outside a proof window, and
does nothing on a standby. PROOF_FAIL is kept, and is the result of the proof swap in which this module gave its role away.
CUT_IN brings a synchronising standby in RUN in sync and leaves only orphans in its journal. READY of a package not yet stored
here is noted; CHECK_FAILED ends a change not yet recorded. -/
def Obligations.AcknowledgementsAndNotices : Prop :=
  (∀ (s : State) (r : BRec), InTurn r s → fieldN r.payload 8 1 = 0x0B → fieldN r.payload 9 1 = 0 →
    BitVec.ofNat 64 (fieldN r.payload 0 8) = s.dpx2.cutRseq →
    s.dpx.state = .syncing → s.sys.primary = true → s.boot.act.busy = false → ∃ t, exec (.ack r) s = .next t ∧
    t.dpx.state = .insync ∧ t.dpx2.syncDone = s.dpx2.syncDone + 1 ∧ t.dpx2.abandRow = 0 ∧ t.hif.hold = false ∧
    OnlyChanges [.dpx, .dpx2, .mir, .tly, .hif, .outbox] s t) ∧
  (∀ (s : State) (r : BRec), InTurn r s → fieldN r.payload 8 1 = 5 → fieldN r.payload 9 1 = 0 →
    BitVec.ofNat 64 (fieldN r.payload 0 8) = s.dpx2.ceRseq → s.dpx2.xPend = false → s.dpx2.absPend = 0 →
    ∃ t, exec (.ack r) s = .next t ∧ t.dpx2 = { s.dpx2 with rseqRx := r.rseq, ceAck := true } ∧ OnlyChanges [.dpx2] s t) ∧
  (∀ (s : State) (r : BRec), InTurn r s → s.sys.primary = true ∨ s.insync = false → ∃ t, exec (.noticeFailure r) s = .next t ∧
    t.dpx2 = { s.dpx2 with rseqRx := r.rseq, failNote := true } ∧ OnlyChanges [.dpx2] s t) ∧
  (∀ (s : State) (r : BRec), InTurn r s → s.receives = true → s.sys.mode ≠ .boot → s.sys.mode ≠ .faultHalt → s.sys.mode ≠ .test →
    ∃ t, exec (.noticeHalt r) s = .next t ∧ t.sys.mode = .faultHalt ∧ t.sys.haltCause = 1 ∧ t.sys.primary = false ∧
    t.dpx.state ≠ .insync ∧ (∀ c, (t.cls c).running = false) ∧ t.saf.sel.set = true ∧ t.saf.sp.set = true ∧ SafetyOff t ∧
    OnlyChanges [.sys, .hif, .cyc, .lsp, .dpx, .dpx2, .can, .canq, .fio, .saf, .tly, .outbox] s t) ∧
  (∀ (s : State) (r : BRec) (i : Instr), i = .noticeHandover r ∨ i = .noticeHandback r → InTurn r s → s.insync = true →
    s.sys.primary = false → s.sys.mode = .run → s.dpx.proofFail = false → s.boot.act.busy = false → ∃ t, exec i s = .next t ∧
    t.dpx = { s.dpx with handover := true } ∧ t.dpx2.hBound = BitVec.ofNat 64 (fieldN r.payload 8 8) ∧
    (∃ a : BRec, Out.baste a ∈ t.outbox ∧ a.type = 2 ∧ fieldN a.payload 9 1 = 0) ∧ OnlyChanges [.dpx, .dpx2, .outbox] s t) ∧
  (∀ (s : State) (r : BRec) (i : Instr), i = .noticeHandover r ∨ i = .noticeHandback r → InTurn r s → s.insync = true →
    s.sys.primary = false → s.sys.mode = .run → s.dpx.proofFail = true → ∃ t, exec i s = .next t ∧ t.dpx = s.dpx ∧
    t.dpx2.hBound = s.dpx2.hBound ∧ (∃ a : BRec, Out.baste a ∈ t.outbox ∧ a.type = 2 ∧ fieldN a.payload 9 1 = 1) ∧
    OnlyChanges [.dpx2, .outbox] s t) ∧
  (∀ (s : State) (r : BRec), InTurn r s → s.sys.primary = false ∨ s.insync = false → ∃ t, exec (.noticeRingAbsent r) s = .next t ∧
    t.dpx2 = { s.dpx2 with rseqRx := r.rseq } ∧ OnlyChanges [.dpx2] s t) ∧
  (∀ (s : State) (r : BRec) (k : Nat), InTurn r s → s.sys.primary = true → s.checkExchange = .go → s.dpx2.proofWin = false →
    s.dpx2.ceAck = false → k < 4 → fieldN r.payload 1 1 / 2 ^ k % 2 = 1 →
    s.dpx2.absentT.find k = none → ∃ t, exec (.noticeRingAbsent r) s = .next t ∧ t.dpx2.xPend = true ∧ t.dpx2.isProof = false ∧
    t.dpx2.absentT.find k = some s.sys.opNs ∧ t.dpx2.absPend = 0 ∧ OnlyChanges [.dpx2] s t) ∧
  (∀ (s : State) (r : BRec), InTurn r s → ∃ t, exec (.noticeProofFail r) s = .next t ∧ t.dpx = { s.dpx with partnerPf := true } ∧
    (s.dpx2.psOpen = true → t.dpx2.psResult = 2 ∧ t.dpx2.psRing = s.dpx2.absRep ∧ t.dpx2.psCnt = s.dpx2.psCnt + 1 ∧
      t.dpx2.psOpen = false ∧ (s.dpx2.absRep ≠ 0 → t.dpx2.psCheck = 1)) ∧
    (s.dpx2.psOpen = false → t.dpx2 = { s.dpx2 with rseqRx := r.rseq }) ∧ OnlyChanges [.dpx, .dpx2, .freeN] s t) ∧
  (∀ (s : State) (r : BRec), InTurn r s → s.receives = true → s.dpx.state = .syncing → s.sys.mode = .run → s.boot.act.busy = false →
    ∃ t, exec (.noticeCutIn r) s = .next t ∧ t.dpx.state = .insync ∧ t.dpx2.syncDone = s.dpx2.syncDone + 1 ∧
    t.hif.journal = s.hif.journal.filter (fun j => j.orphan) ∧ (∃ a : BRec, Out.baste a ∈ t.outbox ∧ a.type = 2) ∧
    OnlyChanges [.dpx, .dpx2, .mir, .tly, .hif, .outbox] s t) ∧
  (∀ (s : State) (r : BRec), InTurn r s → s.sys.primary = true → s.chg.state = 1 → s.chg.stored = false → s.chg.recorded = false →
    BitVec.ofNat 64 (fieldN r.payload 16 8) = s.chg.pkgRseq → ∃ t, exec (.noticeReady r) s = .next t ∧
    t.chg = { s.chg with peerReady := true } ∧ OnlyChanges [.chg, .dpx2, .outbox] s t) ∧
  (∀ (s : State) (r : BRec), InTurn r s → s.sys.primary = true → s.chg.state = 1 ∨ s.chg.state = 2 → s.chg.recorded = false →
    ∃ t, exec (.noticeCheckFailed r) s = .next t ∧ t.chg.state = 0 ∧ t.chg.active = s.chg.active ∧ t.chg.actVer = s.chg.actVer ∧
    OnlyChanges [.hif, .chg, .dpx2, .tly, .outbox] s t)

/-- A heartbeat carries the next count, the mode, the role and both epochs. A missed one is counted; the third takes its lane down
with a record while the other lane stays up. With both lanes lost, a standby of an in-sync pair in RUN whose live rings are all
silent takes over under a higher epoch; a primary in RUN ends INSYNC and stays primary. In RUN, a heartbeat of an in-sync
partner that the configuration names updates what is known of it and raises E_seen. A partner of the same side met out of sync
is refused with reason 5. In WAIT_PEER or LINK_LOST a standby that meets its primary goes to SYNCING; in WAIT_PEER, the module
whose partner stands in a mode that forbids the role becomes primary with a new epoch. -/
def Obligations.HeartbeatsKeepTheLanes : Prop :=
  (∀ (s : State) (lane : Bool), s.lanesOn = true → s.dpx.heartbeats = true → ∃ t h, exec (.heartbeatSend lane) s = .next t ∧
    t.outbox = s.outbox ++ [.heartbeat lane h] ∧ h.count = s.dpx.hbCnt lane + 1 ∧ t.dpx.hbCnt lane = h.count ∧
    t.dpx.hbCnt (!lane) = s.dpx.hbCnt (!lane) ∧ h.mode = s.sys.mode ∧ h.role = s.sys.primary ∧ h.eOwn = s.dpx.eOwn ∧
    h.eSeen = s.dpx.eSeen ∧ h.insync = s.insync ∧ h.side = s.side ∧ h.txTime = s.short ∧ t.dpx.state = s.dpx.state ∧
    OnlyChanges [.dpx, .outbox] s t) ∧
  (∀ (s : State) (lane : Bool), s.lanesOn = false ∨ s.dpx.heartbeats = false → exec (.heartbeatSend lane) s = .next s) ∧
  (∀ (s : State) (lane : Bool), Settled s → s.lanesOn = true → (s.dpx.miss lane).toNat < 2 →
    ∃ t, exec (.heartbeatMissed lane) s = .next t ∧ t.dpx.miss lane = s.dpx.miss lane + 1 ∧ t.dpx.good lane = 0 ∧
    t.dpx.hbLost = s.dpx.hbLost + 1 ∧ t.dpx.up lane = s.dpx.up lane ∧ t.dpx.miss (!lane) = s.dpx.miss (!lane) ∧
    t.dpx.state = s.dpx.state ∧ OnlyChanges [.dpx] s t) ∧
  (∀ (s : State) (lane : Bool), Settled s → s.lanesOn = true → s.dpx.miss lane = 2 → s.dpx.up lane = true →
    s.dpx.up (!lane) = true → ∃ t, exec (.heartbeatMissed lane) s = .next t ∧ t.dpx.up lane = false ∧ t.dpx.up (!lane) = true ∧
    t.dpx.state = s.dpx.state ∧ t.tly = (s.log 0x0501 3 [BitVec.ofNat 8 (bit lane), 1, 1]).tly ∧ OnlyChanges [.dpx, .tly] s t) ∧
  (∀ (s : State) (lane : Bool), s.lanesOn = true → s.dpx.miss lane = 2 → s.dpx.up (!lane) = false →
    3 ≤ (s.dpx.miss (!lane)).toNat → s.sys.mode = .run → s.sys.primary = false → s.sys.lone = false → s.insync = true →
    s.liveRings ≠ [] → (∀ n ∈ s.liveRings, s.beaconAbsent n = true) → s.cfg.valid = true → s.dpx.eSeen.toNat + 2 < 2 ^ 32 →
    ∃ t, exec (.heartbeatMissed lane) s = .next t ∧ t.sys.mode = .takeover ∧ t.sys.primary = false ∧ t.dpx.state = .noPartner ∧
    s.dpx.eSeen < t.dpx.eOwn ∧ t.dpx.eOwn.getLsbD 0 = s.side ∧ t.drives = true ∧
    OnlyChanges [.sys, .hif, .cyc, .cle, .chg, .dpx, .dpx2, .mir, .tim, .can, .canq, .fio, .tly, .boot, .outbox] s t) ∧
  (∀ (s : State) (lane : Bool), s.lanesOn = true → s.dpx.miss lane = 2 → s.dpx.up (!lane) = false →
    3 ≤ (s.dpx.miss (!lane)).toNat → s.sys.mode = .run → s.sys.primary = true → s.insync = true → s.dpx2.xPend = false →
    s.dpx.handover = false → Settled s → ∃ t, exec (.heartbeatMissed lane) s = .next t ∧ t.dpx.state = .linkLost ∧
    t.sys = s.sys ∧ t.dpx.eOwn = s.dpx.eOwn ∧ OnlyChanges [.hif, .dpx, .dpx2, .tly, .outbox] s t) ∧
  (∀ (s : State) (lane : Bool) (hb : Hb), Settled s → s.lanesOn = true → hb.crcOk = true → s.fmtOk hb.fmt = true →
    s.boot.awaitPartner = false → s.boot.listening = false → s.sys.mode = .run → s.insync = true → hb.insync = true →
    hb.side = (!s.side) → s.dpx2.misnamed = false → s.cfg.partnerNode ≠ s.sys.nodeId → s.sys.primary = false ∨ hb.mode ≠ .recovery →
    s.dpx.up lane = true → ∃ t, exec (.heartbeat lane hb) s = .next t ∧
    t.dpx.partnerMode = BitVec.ofNat 4 hb.mode.code ∧ t.dpx.partnerRole = hb.role ∧ t.dpx.partnerE = hb.eOwn ∧
    t.dpx.miss lane = 0 ∧ t.dpx.good lane = s.dpx.good lane + 1 ∧ hb.eOwn ≤ t.dpx.eSeen ∧ hb.eSeen ≤ t.dpx.eSeen ∧
    s.dpx.eSeen ≤ t.dpx.eSeen ∧ t.dpx.eOwn = s.dpx.eOwn ∧ t.dpx.state = .insync ∧ OnlyChanges [.dpx, .tim, .tly] s t) ∧
  (∀ (s : State) (lane : Bool) (hb : Hb), Settled s → s.lanesOn = true → hb.crcOk = true → s.fmtOk hb.fmt = true →
    s.boot.awaitPartner = false → s.boot.listening = false → s.sys.mode ≠ .boot → s.insync = false → s.boot.act.busy = false →
    hb.side = s.side → ∃ t, exec (.heartbeat lane hb) s = .next t ∧ t.dpx.state = .refused ∧ t.dpx.reason = 5 ∧ t.sys = s.sys ∧
    OnlyChanges [.dpx, .dpx2, .tim, .tly, .hif, .outbox] s t ∧ EventsOnly s t) ∧
  (∀ (s : State) (lane : Bool) (hb : Hb), Settled s → s.lanesOn = true → hb.crcOk = true → s.fmtOk hb.fmt = true →
    s.boot.awaitPartner = false → s.boot.listening = false → s.sys.mode = .run → s.sys.primary = false →
    s.dpx.state = .waitPeer ∨ s.dpx.state = .linkLost → hb.role = true → hb.mode = .run → hb.side = (!s.side) →
    s.dpx2.misnamed = false → s.cfg.partnerNode ≠ s.sys.nodeId → s.boot.act.busy = false → ∃ t, exec (.heartbeat lane hb) s = .next t ∧
    t.dpx.state = .syncing ∧ t.dpx.partnerRole = true ∧ t.sys = s.sys ∧ OnlyChanges [.dpx, .tim, .tly, .hif, .outbox] s t ∧ EventsOnly s t) ∧
  (∀ (s : State) (lane : Bool) (hb : Hb), s.lanesOn = true → hb.crcOk = true → s.fmtOk hb.fmt = true →
    s.boot.awaitPartner = false → s.boot.listening = false → s.sys.mode = .run → s.sys.primary = false → s.dpx.state = .waitPeer →
    hb.role = false → hb.mode ≠ .boot → roleAllowed hb.mode .run = false → hb.side = (!s.side) → s.cfg.valid = true →
    s.dpx.eSeen.toNat + 2 < 2 ^ 32 → hb.eOwn ≤ s.dpx.eSeen → hb.eSeen ≤ s.dpx.eSeen → s.boot.act.busy = false →
    s.dpx2.misnamed = false → s.cfg.partnerNode ≠ s.sys.nodeId → s.boot.replayDue = false → ∃ t, exec (.heartbeat lane hb) s = .next t ∧ t.sys.primary = true ∧ t.sys.mode = .run ∧ t.dpx.state = .noPartner ∧
    s.dpx.eSeen < t.dpx.eOwn ∧ (∀ c, (c, s.ccfg c) ∈ s.cfg.cls → (s.ccfg c).en = true → (t.cls c).running = true) ∧
    OnlyChanges [.sys, .hif, .cyc, .cle, .dpx, .dpx2, .net, .tim, .can, .canq, .tly, .outbox] s t)

/-- INITIAL_SYNC_START enters SYNCING and sends the versions; a primary that knows fitting versions of its partner sends the bulk
too. CUT_IN after the bulk holds the fetch of recorded commands and sends the notice last; the third abandoned sync in a row is
refused with reason 4. At the hand-over boundary of an in-sync pair in RUN the primary, with no activation in progress, enters
TAKEOVER without the role, with every class stopped, and drives nothing; the standby enters TAKEOVER under a higher epoch and
drives. A due proof swap that R264 allows asks for the exchange and tells the partner so, one that it forbids is deferred by 60
s. At the end of the window it passes where no check fails, and a bad output fails it with check 3. -/
def Obligations.SynchronisationHandOverAndProofSwaps : Prop :=
  (∀ s : State, Settled s → s.maySync = true → s.dpx2.vers = [] ∨ s.sys.primary = false →
    ∃ t, exec .initialSyncStart s = .next t ∧ t.dpx.state = .syncing ∧
    (∃ b : BRec, Out.baste b ∈ t.outbox ∧ b.type = 9 ∧ b.payload = s.versBytes) ∧ t.sys = s.sys ∧ OnlyChanges [.dpx, .dpx2, .mir, .tly, .hif, .outbox] s t ∧
    EventsOnly s t) ∧
  (∀ s : State, Settled s → s.maySync = true → s.sys.primary = true → s.versOk = true →
    ∃ t, exec .initialSyncStart s = .next t ∧ t.dpx.state = .syncing ∧ t.dpx2.bulkSent = true ∧
    (∃ b : BRec, Out.baste b ∈ t.outbox ∧ b.type = 9 ∧ b.payload = s.versBytes) ∧ (∀ c, (t.cmem c).image = (s.cmem c).image) ∧
    t.sys = s.sys ∧ OnlyChanges [.cyc, .dpx, .dpx2, .mir, .tly, .hif, .outbox] s t ∧ EventsOnly s t) ∧
  (∀ s : State, Settled s → s.maySync = true → s.dpx.state = .syncing → s.sys.primary = true → s.versOk = true → s.dpx2.bulkSent = true →
    ∃ t, exec .cutIn s = .next t ∧ t.hif = { s.hif with hold := true } ∧ t.dpx2.cutRseq = t.dpx2.rseqTx ∧
    (∃ b : BRec, t.outbox.getLast? = some (.baste b) ∧ b.type = 11 ∧ b.payload.headD 0 = 7) ∧ OnlyChanges [.hif, .dpx2, .tly, .outbox] s t) ∧
  (∀ s : State, Settled s → s.running = true → s.dpx.state = .syncing → ∃ t, exec .syncAbandon s = .next t ∧
    t.dpx2.syncAband = s.dpx2.syncAband + 1 ∧ t.dpx2.abandRow = s.dpx2.abandRow + 1 ∧ t.hif.hold = false ∧
    (2 ≤ s.dpx2.abandRow → t.dpx.state = .refused ∧ t.dpx.reason = 4) ∧ (s.dpx2.abandRow < 2 → t.dpx = s.dpx) ∧
    OnlyChanges [.hif, .dpx, .dpx2, .tly, .outbox] s t) ∧
  (∀ s : State, s.running = true → s.dpx.handover = true → s.insync = true → s.sys.mode = .run → s.sys.primary = true →
    s.boot.act.busy = false → ∃ t, exec .handoverBoundary s = .next t ∧ t.sys.mode = .takeover ∧ t.sys.primary = false ∧
    t.drives = false ∧ (∀ c, (t.cls c).running = false ∧ (t.cls c).active = false) ∧ t.dpx.eOwn = s.dpx.eOwn ∧
    OnlyChanges [.sys, .hif, .cyc, .lsp, .dpx2, .can, .canq, .fio, .tly, .outbox] s t) ∧
  (∀ s : State, s.running = true → s.dpx.handover = true → s.insync = true → s.sys.mode = .run → s.sys.primary = false →
    s.sys.lone = false → s.cfg.valid = true → s.dpx.eSeen.toNat + 2 < 2 ^ 32 → ∃ t, exec .handoverBoundary s = .next t ∧
    t.sys.mode = .takeover ∧ t.sys.primary = false ∧ t.drives = true ∧ s.dpx.eSeen < t.dpx.eOwn ∧ t.dpx.state = s.dpx.state ∧
    t.dpx.eOwn.getLsbD 0 = s.side ∧
    (∀ c, (c, s.ccfg c) ∈ s.cfg.cls → (s.ccfg c).en = true → (t.cls c).running = true ∧ (t.cls c).dueTake = some t.dpx.eOwn) ∧
    OnlyChanges [.sys, .hif, .cyc, .cle, .dpx, .dpx2, .mir, .can, .canq, .fio, .tly, .outbox] s t) ∧
  (∀ (s : State) (st : BitVec 16) (k : Word), Settled s → s.running = true → s.sys.primary = true → s.psInterval ≠ 0 →
    s.dpx2.psNext ≠ 0 → s.checkExchange = .no st k → ∃ t, exec .proofSwapDue s = .next t ∧ t.dpx2 = { s.dpx2 with
      psResult := 3, psCheck := 0, psRing := 0, psNext := s.dpx2.psNext + 60 } ∧
    t.tly = (s.log 0x0505 2 [BitVec.ofNat 8 (if st = St.refused then k.toNat else 0)]).tly ∧ OnlyChanges [.dpx2, .tly] s t) ∧
  (∀ s : State, Settled s → s.running = true → s.sys.primary = true → s.psInterval ≠ 0 → s.dpx2.psNext ≠ 0 →
    s.checkExchange = .go → s.cfg.partner = true → s.dpx2.ceAck = false → ∃ t, exec .proofSwapDue s = .next t ∧
    t.dpx2.rseqTx = s.dpx2.rseqTx + 1 ∧ t.dpx2.xPend = true ∧ t.dpx2.isProof = true ∧ t.dpx2.xslot = 31 ∧
    t.dpx2.psNext = s.dpx2.psNext ∧ (∃ b : BRec, t.outbox = s.outbox ++ [.baste b] ∧ b.type = 3) ∧ OnlyChanges [.dpx2, .outbox] s t) ∧
  (∀ s : State, Settled s → s.running = true → s.dpx2.proofWin = true → s.echoRings = 0 → s.outputsBad = false →
    ∃ t, exec .proofWindowEnd s = .next t ∧ t.dpx2.psResult = 1 ∧ t.dpx2.psCnt = s.dpx2.psCnt + 1 ∧ t.dpx2.proofWin = false ∧
    t.tly = (s.log 0x0504 2 [1, 0, 0]).tly ∧ OnlyChanges [.dpx2, .tly] s t) ∧
  (∀ s : State, Settled s → s.running = true → s.dpx2.proofWin = true → s.echoRings = 0 → s.outputsBad = true →
    ∃ t, exec .proofWindowEnd s = .next t ∧ t.dpx2.psResult = 2 ∧ t.dpx2.psCheck = 3 ∧ t.dpx2.proofWin = false ∧
    t.dpx.proofFail = true ∧ t.sys = s.sys ∧
    (s.cfg.partner = true → ∃ b : BRec, Out.baste b ∈ t.outbox ∧ b.type = 11 ∧ b.payload.headD 0 = 6) ∧
    OnlyChanges [.hif, .dpx, .dpx2, .tly, .outbox] s t)

/-- While PFAIL is 0 and no journal waits for its replay: without a heartbeat a module whose E_own is E_seen goes on listening,
another with start mode STOP ends BOOT in it as standby in WAIT_PEER. When nothing was heard in the absent wait, a module takes
a new epoch: with start mode STOP it ends BOOT in it as primary, with RUN and a station configured it goes on to boot step 8.
The end of the wait for stations enters RUN as primary with every enabled class running. The first word of DPX_CLAIM in
WAIT_PEER is kept for 1 ms, the second claims the role in RUN with a new epoch; any other word, or the key in another state or
in BOOT, is counted as a sequence error. -/
def Obligations.StartsWithoutAPartnerAndTheClaim : Prop :=
  (∀ s : State, Settled s → s.running = true → s.pwr.pfail = false → s.boot.awaitPartner = true → s.dpx.eOwn = s.dpx.eSeen →
    ∃ t, exec .partnerSearchTimeout s = .next t ∧ t.boot = { s.boot with awaitPartner := false, listening := true } ∧ OnlyChanges [.boot] s t) ∧
  (∀ s : State, s.running = true → s.pwr.pfail = false → s.boot.awaitPartner = true → s.dpx.eOwn ≠ s.dpx.eSeen → s.cfg.startMode = .stop →
    s.sys.mode = .boot → ∃ t, exec .partnerSearchTimeout s = .next t ∧ t.sys.mode = .stop ∧
    t.sys.primary = false ∧ t.dpx.state = .waitPeer ∧ t.dpx.eOwn = s.dpx.eOwn ∧ t.boot.step = 0 ∧ t.boot.awaitPartner = false ∧
    OnlyChanges [.sys, .hif, .dpx, .can, .canq, .fio, .tly, .boot, .outbox] s t) ∧
  (∀ s : State, s.running = true → s.pwr.pfail = false → s.boot.listening = true → s.cfg.startMode = .stop → s.sys.mode = .boot →
    s.cfg.valid = true → s.boot.replayDue = false → s.dpx.eSeen.toNat + 2 < 2 ^ 32 → ∃ t, exec .absentWaitExpiry s = .next t ∧ t.sys.mode = .stop ∧ t.sys.primary = true ∧
    s.dpx.eSeen < t.dpx.eOwn ∧ t.dpx.eOwn.getLsbD 0 = s.side ∧ t.dpx.state = .noPartner ∧ t.boot.listening = false ∧
    OnlyChanges [.sys, .hif, .dpx, .dpx2, .can, .canq, .fio, .tly, .boot, .outbox] s t) ∧
  (∀ s : State, Settled s → s.running = true → s.pwr.pfail = false → s.boot.listening = true → s.cfg.startMode = .run → s.sys.mode = .boot →
    s.cfg.valid = true → s.cfg.stn ≠ [] → s.dpx.eSeen.toNat + 2 < 2 ^ 32 → ∃ t, exec .absentWaitExpiry s = .next t ∧
    t.sys.mode = .boot ∧ t.boot = { s.boot with listening := false, step := 8, awaitStn := true } ∧ s.dpx.eSeen < t.dpx.eOwn ∧
    t.dpx.eOwn.getLsbD 0 = s.side ∧ t.dpx.state = .noPartner ∧ OnlyChanges [.hif, .dpx, .dpx2, .net, .tly, .boot, .outbox] s t ∧ EventsOnly s t) ∧
  (∀ s : State, s.running = true → s.pwr.pfail = false → s.boot.awaitStn = true → s.cfg.startMode = .run → s.sys.mode = .boot → s.sys.lone = false →
    s.boot.replayDue = false → ∃ t, exec .ringStartupTimeout s = .next t ∧ t.sys.mode = .run ∧
    t.sys.primary = true ∧ t.dpx = s.dpx ∧ t.boot.step = 0 ∧ t.boot.awaitStn = false ∧ t.hif.ready = true ∧
    (∀ c, (c, s.ccfg c) ∈ s.cfg.cls → (s.ccfg c).en = true → (t.cls c).running = true ∧ (t.cls c).firstDue = true) ∧
    OnlyChanges [.sys, .hif, .cyc, .cle, .can, .canq, .fio, .tly, .boot, .outbox] s t) ∧
  (∀ (s : State) (v : Word), Settled s → s.reach = true → s.dpx.state = .waitPeer → s.sys.mode ≠ .boot → s.dpx2.claimKey = none → v = 0x0000C1A1 →
    exec (.dpxClaim v) s = .next { s with dpx2 := { s.dpx2 with claimKey := some s.sys.opNs } }) ∧
  (∀ (s : State) (v : Word) (t0 : Nat), s.reach = true → s.dpx.state = .waitPeer → s.dpx2.claimKey = some t0 → v = 0x00001A1C →
    s.sys.opNs ≤ t0 + 1000000 → s.sys.mode = .run → s.sys.primary = false → s.cfg.valid = true → s.boot.replayDue = false →
    s.dpx.eSeen.toNat + 2 < 2 ^ 32 → ∃ t, exec (.dpxClaim v) s = .next t ∧ t.sys.primary = true ∧ t.sys.mode = .run ∧ s.dpx.eSeen < t.dpx.eOwn ∧
    t.dpx.eOwn.getLsbD 0 = s.side ∧ t.dpx.state = .noPartner ∧ t.dpx2.claimKey = none ∧
    OnlyChanges [.sys, .hif, .cyc, .cle, .dpx, .dpx2, .net, .can, .canq, .tly, .outbox] s t) ∧
  (∀ (s : State) (v : Word), Settled s → s.reach = true → s.dpx.state ≠ .waitPeer ∨ s.sys.mode = .boot ∨ keyStep 0x0000C1A1 0x00001A1C v s.sys.opNs s.dpx2.claimKey = none →
    ∃ t, exec (.dpxClaim v) s = .next t ∧ t.sys.seqErr = s.sys.seqErr + 1 ∧ t.sys.primary = s.sys.primary ∧ t.dpx = s.dpx ∧
    t.dpx2 = { s.dpx2 with claimKey := none } ∧ OnlyChanges [.sys, .dpx2, .tly, .hif, .outbox] s t)

/-- A Sync or host measurement of an enabled domain on a set clock, beyond TIM_STEPMAX in a mode that permits no set, leaves the
domain REFUSED with a count and moves neither the clock nor the integrator. A Sync measurement within TIM_STEPMAX on the
selected domain while ACQUIRING or LOCKED feeds the servo: the integrator and the frequency take the values of R305, and the
eighth good one in a row locks the domain; an accepted host measurement of a LOCKED domain feeds the integrator the same way and
is counted. A host measurement that R303 rejects is counted and used up; where the host is not the source it is a write to a
read-only register. The clock itself never moves here. -/
def Obligations.MeasurementsDisciplineTheirDomain : Prop :=
  (∀ (s : State) (d : Fin 2) (theta : Int) (gm : DWord), Settled s → s.timRuns = true → s.domEn d = true →
    bits (s.liveReg Reg.timCfg) 0 2 = 0 → s.tim.pend = none → s.tim.set = true → s.setPermitted = false → s.stepMax < theta.natAbs →
    ∃ t, exec (.syncMeasurement d theta gm) s = .next t ∧ (t.dom d).state = .refused ∧ (t.dom d).ofs = theta ∧
    (t.dom d).agree = false ∧ (t.dom d).gmid = gm ∧ t.tim.stepCnt = s.tim.stepCnt + 1 ∧ t.tim.ns = s.tim.ns ∧
    t.tim.iTerm = s.tim.iTerm ∧ (∀ e, e ≠ d.val → t.dom e = s.dom e) ∧ t.tim.caps = s.tim.caps ∧ t.tim.ports = s.tim.ports ∧
    OnlyChanges [.tim, .tly, .hif, .outbox] s t ∧ EventsOnly s t) ∧
  (∀ (s : State) (d : Fin 2) (theta : Int) (gm : DWord), Settled s → s.timRuns = true → s.domEn d = true →
    bits (s.liveReg Reg.timCfg) 0 2 = 0 → s.tim.pend = none → s.tim.set = true → theta.natAbs ≤ s.stepMax → s.selDom = d.val →
    s.srcEff ≠ 2 → (s.dom d).state = .acquiring ∨ (s.dom d).state = .locked → ∃ t, exec (.syncMeasurement d theta gm) s = .next t ∧
    t.tim.iTerm = clampInt iLimit (s.tim.iTerm + ((s.liveReg Reg.timKi).toNat : Int) * theta *
      ((min (match (s.dom d).prevT with | some p => s.tim.ns - p | none => 0) 1000000000 : Nat) : Int)) ∧
    t.tim.f = t.tim.iTerm + clampInt (((s.liveReg Reg.timSlew).toNat : Int) * ppbUnit)
      (((s.liveReg Reg.timKp).toNat : Int) * theta * 1000000000) ∧
    (t.dom d).ofs = theta ∧ (t.dom d).agree = true ∧ t.tim.ns = s.tim.ns ∧ t.tim.sel = s.tim.sel ∧
    ((s.dom d).state = .locked → (t.dom d).state = .locked) ∧
    ((s.dom d).state = .acquiring → (s.dom d).good = 7 → theta.natAbs ≤ 250 → (t.dom d).state = .locked) ∧
    ((s.dom d).state = .acquiring → 250 < theta.natAbs → (t.dom d).state = .acquiring ∧ (t.dom d).good = 0) ∧
    (∀ e, e ≠ d.val → t.dom e = s.dom e) ∧ OnlyChanges [.tim, .tly, .hif, .outbox] s t ∧ EventsOnly s t) ∧
  (∀ (s : State) (d : Fin 2) (theta : Int) (gm : DWord), s.domEn d = false ∨ bits (s.liveReg Reg.timCfg) 0 2 ≠ 0 →
    exec (.syncMeasurement d theta gm) s = .next s) ∧
  (∀ (s : State) (d : Fin 2) (v : Word), Settled s → s.reach = true → s.hostMeasures d = true → s.timRuns = true →
    s.measBad d v.toInt = true → ∃ t, exec (.timDomMeas d v) s = .next t ∧ (t.dom d).rej = (s.dom d).rej + 1 ∧
    (t.dom d).used = true ∧ (t.dom d).ofs = (s.dom d).ofs ∧ (t.dom d).state = (s.dom d).state ∧ (∀ e, e ≠ d.val → t.dom e = s.dom e) ∧
    t.tim = { s.tim with doms := t.tim.doms } ∧ OnlyChanges [.tim] s t) ∧
  (∀ (s : State) (d : Fin 2) (v : Word), Settled s → s.reach = true → s.hostMeasures d = true → s.timRuns = true →
    s.measBad d v.toInt = false → s.tim.pend = none → s.tim.set = true → s.setPermitted = false →
    s.stepMax < ((s.dom d).measS.toInt * 1000000000 + v.toInt).natAbs → ∃ t, exec (.timDomMeas d v) s = .next t ∧
    (t.dom d).state = .refused ∧ (t.dom d).ofs = (s.dom d).measS.toInt * 1000000000 + v.toInt ∧ (t.dom d).used = true ∧
    t.tim.stepCnt = s.tim.stepCnt + 1 ∧ t.tim.ns = s.tim.ns ∧ t.tim.iTerm = s.tim.iTerm ∧ (∀ e, e ≠ d.val → t.dom e = s.dom e) ∧
    OnlyChanges [.tim, .tly, .hif, .outbox] s t ∧ EventsOnly s t) ∧
  (∀ (s : State) (d : Fin 2) (v : Word), Settled s → s.reach = true → s.hostMeasures d = true → s.timRuns = true →
    s.measBad d v.toInt = false → s.tim.pend = none → s.tim.set = true → s.selDom = d.val → s.srcEff ≠ 2 →
    ((s.dom d).measS.toInt * 1000000000 + v.toInt).natAbs ≤ s.stepMax → (s.dom d).state = .locked → ∃ t, exec (.timDomMeas d v) s = .next t ∧
    t.tim.iTerm = clampInt iLimit (s.tim.iTerm + ((s.liveReg Reg.timKi).toNat : Int) * ((s.dom d).measS.toInt * 1000000000 + v.toInt) *
      ((min (match (s.dom d).prevT with | some p => s.tim.ns - (shortDiff s.short (s.dom d).meast).toNat - p | none => 0)
        1000000000 : Nat) : Int)) ∧
    (t.dom d).state = .locked ∧ (t.dom d).acc = (s.dom d).acc + 1 ∧ (t.dom d).used = true ∧ (t.dom d).agree = true ∧
    (t.dom d).ofs = (s.dom d).measS.toInt * 1000000000 + v.toInt ∧ t.tim.ns = s.tim.ns ∧ (∀ e, e ≠ d.val → t.dom e = s.dom e) ∧
    OnlyChanges [.tim, .tly, .hif, .outbox] s t ∧ EventsOnly s t) ∧
  (∀ (s : State) (d : Fin 2) (v : Word), Settled s → s.reach = true → s.hostMeasures d = false →
    ∃ t, exec (.timDomMeas d v) s = .next t ∧ t.sys.roWr = s.sys.roWr + 1 ∧ OnlyChanges [.sys, .tly, .hif, .outbox] s t ∧ EventsOnly s t)

/-- CLOCK_SET adds the decided offset to the local clock, sets SET, counts it, records it, and ends every REFUSED state; where a set
is no longer permitted the decision is dropped and the clock stays. DOMAIN_HOLDOVER and HOLDOVER_TIMEOUT move their domain to
HOLDOVER and ACQUIRING. REVERT_TIMER changes the selected domain once, counts and records it. The complete realign key decides a
set by the offset of a fresh selected domain; the first word alone is kept, and any other word is a sequence error. -/
def Obligations.TheLocalClockIsSetAndItsDomainsChange : Prop :=
  (∀ (s : State) (p : TimSet), Settled s → s.tim.pend = some p → s.timRuns = true → s.setPermitted = true →
    ∃ t, exec .clockSet s = .next t ∧ t.tim.ns = ((s.tim.ns : Int) + p.ofs).toNat ∧ t.tim.set = true ∧
    t.tim.setCnt = s.tim.setCnt + 1 ∧ t.tim.pend = none ∧ t.tim.f = t.tim.iTerm ∧ (p.slope = none → t.tim.iTerm = s.tim.iTerm) ∧
    (∀ d, (t.dom d).state ≠ .refused) ∧ (∀ d, (s.dom d).state ≠ .refused → (t.dom d).state = (s.dom d).state) ∧
    (∀ c, t.cmem c = s.cmem c) ∧ t.sys = s.sys ∧ OnlyChanges [.cyc, .tim, .tly] s t) ∧
  (∀ (s : State) (p : TimSet), s.tim.pend = some p → s.timRuns = false ∨ s.setPermitted = false →
    exec .clockSet s = .next { s with tim := { s.tim with pend := none } }) ∧
  (∀ (s : State), s.tim.pend = none → exec .clockSet s = .next s) ∧
  (∀ (s : State) (d : Fin 2), Settled s → s.timRuns = true → s.domLocked d = true → ∃ t, exec (.domainHoldover d) s = .next t ∧
    (t.dom d).state = .holdover ∧ (t.dom d).good = 0 ∧ t.domLocked d = false ∧ (∀ e, e ≠ d.val → t.dom e = s.dom e) ∧
    t.tim.ns = s.tim.ns ∧ t.tim.iTerm = s.tim.iTerm ∧ OnlyChanges [.tim, .tly, .hif, .outbox] s t ∧ EventsOnly s t) ∧
  (∀ (s : State) (d : Fin 2), Settled s → s.timRuns = true → s.domEn d = true → (s.dom d).state = .holdover →
    ∃ t, exec (.holdoverTimeout d) s = .next t ∧ (t.dom d).state = .acquiring ∧ (t.dom d).good = 0 ∧ (t.dom d).prevT = none ∧
    (∀ e, e ≠ d.val → t.dom e = s.dom e) ∧ t.tim = { s.tim with doms := t.tim.doms } ∧ OnlyChanges [.tim] s t) ∧
  (∀ s : State, Settled s → s.timRuns = true → bits (s.liveReg Reg.timCfg) 2 1 = 1 → s.prefDom ≠ s.selDom →
    s.domGood s.prefDom = true → ∃ t, exec .revertTimer s = .next t ∧ t.tim.sel = (!s.tim.sel) ∧ t.tim.swCnt = s.tim.swCnt + 1 ∧
    t.tim.ns = s.tim.ns ∧ t.tim.f = s.tim.f ∧ t.tim.doms = s.tim.doms ∧
    t.tly = (({ s with tim := { s.tim with sel := !s.tim.sel } } : State).log 0x0703 2
      [BitVec.ofNat 8 s.selDom, BitVec.ofNat 8 (1 - s.selDom), 3]).tly ∧ OnlyChanges [.tim, .tly] s t) ∧
  (∀ (s : State) (v : Word), Settled s → s.reach = true → s.setPermitted = true → s.tim.realignKey = none → v = 0x00007E5A →
    exec (.timRealign v) s = .next { s with tim := { s.tim with realignKey := some s.sys.opNs } }) ∧
  (∀ (s : State) (v : Word) (t0 : Nat), Settled s → s.reach = true → s.setPermitted = true → s.tim.realignKey = some t0 →
    v = 0x0000A5E7 → s.sys.opNs ≤ t0 + 1000000 → s.freshDom s.selDom = true → exec (.timRealign v) s = .next { s with
      tim := { s.tim with realignKey := none, pend := some { src := s.selDom, ofs := (s.dom s.selDom).ofs } } }) ∧
  (∀ (s : State) (v : Word), Settled s → s.reach = true → s.setPermitted = false ∨
    keyStep 0x00007E5A 0x0000A5E7 v s.sys.opNs s.tim.realignKey = none →
    ∃ t, exec (.timRealign v) s = .next t ∧ t.sys.seqErr = s.sys.seqErr + 1 ∧ t.tim = { s.tim with realignKey := none } ∧
    OnlyChanges [.sys, .tim, .tly, .hif, .outbox] s t)

/-- A transmit timestamp of the running TIM island is appended to its port's queue, or counted as lost once 64 are held. A late
launch is counted. A selected capture edge is taken with full time and counted; one within 1 µs of the last taken is counted as
missed and leaves the captured time. TOUT rises and falls in turn, and a period of 0 keeps it low. A peer-delay request on a
configured ring or on a port with the peer-to-peer mechanism is answered; an Announce on a port of its domain names the
grandmaster; a delay response uses up its timestamp, and a peer-delay response gives the link delay. What the module sends, it
sends only where R311 lets it. -/
def Obligations.TimestampsLaunchesCapturesAndMessages : Prop :=
  (∀ (s : State) (p : Fin 7) (tag : BitVec 16) (frac : BitVec 2), s.timRuns = true → (s.tport p).queue.length < 64 →
    ∃ t, exec (.txTimestamp p tag frac) s = .next t ∧ t.tport p = { s.tport p with queue := (s.tport p).queue ++
      [{ tag := tag, frac := frac, seclo := BitVec.ofNat 8 s.secs, ns := BitVec.ofNat 32 s.nanos }] } ∧
    (∀ q, q ≠ p.val → t.tport q = s.tport q) ∧ t.tim = { s.tim with ports := t.tim.ports } ∧ OnlyChanges [.tim] s t) ∧
  (∀ (s : State) (p : Fin 7) (tag : BitVec 16) (frac : BitVec 2), s.timRuns = true → 64 ≤ (s.tport p).queue.length →
    ∃ t, exec (.txTimestamp p tag frac) s = .next t ∧ t.tport p = { s.tport p with lost := (s.tport p).lost + 1 } ∧
    (∀ q, q ≠ p.val → t.tport q = s.tport q) ∧ t.tim = { s.tim with ports := t.tim.ports } ∧ OnlyChanges [.tim] s t) ∧
  (∀ (s : State) (p : Fin 7), s.timRuns = true → ∃ t, exec (.launchLate p) s = .next t ∧
    t.tport p = { s.tport p with late := (s.tport p).late + 1 } ∧ (∀ q, q ≠ p.val → t.tport q = s.tport q) ∧
    t.tim = { s.tim with ports := t.tim.ports } ∧ OnlyChanges [.tim] s t) ∧
  (∀ (s : State) (i : Fin 2) (rising : Bool) (frac : BitVec 2), s.timRuns = true → s.capSelected i rising = true →
    (∀ l, (s.tim.caps.look i {}).last = some l → l + 1000 ≤ s.sys.opNs) → ∃ t, exec (.captureEdge i rising frac) s = .next t ∧
    t.tim.caps.look i {} = { s.tim.caps.look i {} with
      ns := BitVec.ofNat 32 s.nanos, slo := BitVec.ofNat 32 s.secs, frac := frac, edge := rising
      count := (s.tim.caps.look i {}).count + 1, last := some s.sys.opNs } ∧
    (∀ j, j ≠ i.val → t.tim.caps.look j {} = s.tim.caps.look j {}) ∧ t.tim = { s.tim with caps := t.tim.caps } ∧ OnlyChanges [.tim] s t) ∧
  (∀ (s : State) (i : Fin 2) (rising : Bool) (frac : BitVec 2) (l : Nat), s.timRuns = true → s.capSelected i rising = true →
    (s.tim.caps.look i {}).last = some l → s.sys.opNs < l + 1000 → ∃ t, exec (.captureEdge i rising frac) s = .next t ∧
    t.tim.caps.look i {} = { s.tim.caps.look i {} with missed := (s.tim.caps.look i {}).missed + 1 } ∧
    (∀ j, j ≠ i.val → t.tim.caps.look j {} = s.tim.caps.look j {}) ∧ t.tim = { s.tim with caps := t.tim.caps } ∧ OnlyChanges [.tim] s t) ∧
  (∀ (s : State) (i : Fin 2) (rising : Bool) (frac : BitVec 2), s.capSelected i rising = false →
    exec (.captureEdge i rising frac) s = .next s) ∧
  (∀ s : State, s.timRuns = true → s.tim.tout = true ∨ s.liveReg Reg.timToutPeriod ≠ 0 → exec .toutEdge s = .next { s with
    tim := { s.tim with tout := !s.tim.tout }, outbox := s.outbox ++ [.tout (!s.tim.tout)] }) ∧
  (∀ s : State, s.tim.tout = false → s.liveReg Reg.timToutPeriod = 0 → exec .toutEdge s = .next s) ∧
  (∀ (s : State) (p : Fin 7) (d : Fin 2) (gm : DWord) (tag : BitVec 16) (ns : Word), s.timRuns = true → s.portUp p = true →
    s.carries d p = true → ∃ t, exec (.ptpMessage p .announce d gm tag ns) s = .next t ∧ t.dom d = { s.dom d with gmid := gm } ∧
    (∀ e, e ≠ d.val → t.dom e = s.dom e) ∧ t.tim = { s.tim with doms := t.tim.doms } ∧ OnlyChanges [.tim] s t) ∧
  (∀ (s : State) (p : Fin 7) (d : Fin 2) (gm : DWord) (tag : BitVec 16) (ns : Word), s.timRuns = true → s.portUp p = true →
    (p.val < 4 ∧ s.ringSet p = true) ∨ s.delayOn false p = true → ∃ t, exec (.ptpMessage p .pdelayReq d gm tag ns) s = .next t ∧
    (∃ n, t.outbox = s.outbox ++ [.ptp p .pdelayResp n]) ∧ OnlyChanges [.outbox] s t) ∧
  (∀ (s : State) (p : Fin 7) (d : Fin 2) (gm : DWord) (tag : BitVec 16) (ns : Word), s.timRuns = true → s.portUp p = true →
    ((s.tport p).queue.any fun e => e.tag == tag) = true → ∃ t, exec (.ptpMessage p .pdelayResp d gm tag ns) s = .next t ∧
    (t.tport p).pdelay = ns ∧ (∀ e ∈ (t.tport p).queue, e.tag ≠ tag) ∧ (∀ q, q ≠ p.val → t.tport q = s.tport q) ∧ OnlyChanges [.tim] s t) ∧
  (∀ (s : State) (p : Fin 7) (d : Fin 2) (gm : DWord) (tag : BitVec 16) (ns : Word), s.timRuns = true → s.portUp p = true →
    ((s.tport p).queue.any fun e => e.tag == tag) = true → ∃ t, exec (.ptpMessage p .delayResp d gm tag ns) s = .next t ∧
    (t.tport p).pdelay = (s.tport p).pdelay ∧ (∀ e ∈ (t.tport p).queue, e.tag ≠ tag) ∧ (∀ q, q ≠ p.val → t.tport q = s.tport q) ∧
    OnlyChanges [.tim] s t) ∧
  (∀ (s : State) (p : Fin 7) (m : PtpMsg) (d : Fin 2) (gm : DWord) (tag : BitVec 16) (ns : Word),
    m = .sync ∨ m = .followUp ∨ m = .delayReq → exec (.ptpMessage p m d gm tag ns) s = .next s) ∧
  (∀ (s : State) (p : Fin 7) (m : PtpMsg) (tag : BitVec 16), s.timRuns = true → s.portUp p = true → s.maySend p m = true →
    m ≠ .followUp → ∃ t, exec (.ptpTransmit p m tag) s = .next t ∧ (∃ n, t.outbox = s.outbox ++ [.ptp p m n]) ∧ OnlyChanges [.outbox] s t) ∧
  (∀ (s : State) (p : Fin 7) (tag : BitVec 16), s.timRuns = true → s.portUp p = true → s.maySend p .followUp = true →
    ((s.tport p).queue.any fun e => e.tag == tag) = true → ∃ t, exec (.ptpTransmit p .followUp tag) s = .next t ∧
    (∃ n, t.outbox = s.outbox ++ [.ptp p .followUp n]) ∧ (∀ e ∈ (t.tport p).queue, e.tag ≠ tag) ∧ OnlyChanges [.tim, .outbox] s t) ∧
  (∀ (s : State) (p : Fin 7) (m : PtpMsg) (tag : BitVec 16), s.maySend p m = false → exec (.ptpTransmit p m tag) s = .next s)

/-- On a live channel a frame of an enabled format lowers REC. One that filtering rejects, or that a listening channel hears, writes
no queue. One for a queue that is full, or larger than its slot, is counted and leaves the queues as they were. Otherwise the
whole entry is written at WIDX mod 2^k, WIDX advances by one in the register and in the control block, the entries elsewhere
stay, and the frame is counted. A protocol exception is counted with PXD at 0, and is a form error with PXD at 1. A dead channel
takes nothing. -/
def Obligations.CanFramesAreFilteredAndHandedOver : Prop :=
  (∀ (s : State) (ch : Fin 8) (fr : CanEnt) (sof : Word), s.canLive ch = true → s.canFmt ch fr.fmt = true →
    (s.chan ch).listen = true ∨ (s.filterFrame ch fr).1 = none → ∃ t, exec (.canFrameReceived ch fr sof) s = .next t ∧
    (t.chan ch).rxCnt = (s.chan ch).rxCnt ∧ (t.chan ch).dropFull = (s.chan ch).dropFull ∧ (t.chan ch).dropSize = (s.chan ch).dropSize ∧
    ((s.chan ch).recv ≤ 127 → (t.chan ch).recv = (s.chan ch).recv - 1) ∧
    (127 < (s.chan ch).recv → 119 ≤ (t.chan ch).recv ∧ (t.chan ch).recv ≤ 127) ∧
    (∀ c, c ≠ ch.val → t.chan c = s.chan c) ∧ OnlyChanges [.can, .tly, .freeN] s t) ∧
  (∀ (s : State) (ch : Fin 8) (fr : CanEnt) (sof : Word) (q : Nat), s.canLive ch = true → s.canFmt ch fr.fmt = true →
    (s.chan ch).listen = false → (s.filterFrame ch fr).1 = some q → s.qk ch q ≠ 0 → s.rxFull ch q = true →
    ∃ t, exec (.canFrameReceived ch fr sof) s = .next t ∧ (t.chan ch).dropFull = (s.chan ch).dropFull + 1 ∧
    (t.chan ch).rxCnt = (s.chan ch).rxCnt ∧ (∀ c, c ≠ ch.val → t.chan c = s.chan c) ∧ OnlyChanges [.can, .tly, .freeN] s t) ∧
  (∀ (s : State) (ch : Fin 8) (fr : CanEnt) (sof : Word) (q : Nat), s.canLive ch = true → s.canFmt ch fr.fmt = true →
    (s.chan ch).listen = false → (s.filterFrame ch fr).1 = some q → s.qk ch q ≠ 0 → s.rxFull ch q = false →
    s.dslot ch < dlcLen fr.fmt fr.rtr fr.dlc → ∃ t, exec (.canFrameReceived ch fr sof) s = .next t ∧
    (t.chan ch).dropSize = (s.chan ch).dropSize + 1 ∧ (t.chan ch).rxCnt = (s.chan ch).rxCnt ∧
    (∀ c, c ≠ ch.val → t.chan c = s.chan c) ∧ OnlyChanges [.can, .tly, .freeN] s t) ∧
  (∀ (s : State) (ch : Fin 8) (fr : CanEnt) (sof : Word) (q : Nat), s.canLive ch = true → s.canFmt ch fr.fmt = true →
    (s.chan ch).listen = false → (s.filterFrame ch fr).1 = some q → s.qk ch q ≠ 0 → s.rxFull ch q = false →
    dlcLen fr.fmt fr.rtr fr.dlc ≤ s.dslot ch → fr.data.length ≤ s.dslot ch → Memory.wf ((s.canQ ch).ent.look q []) = true →
    Memory.wf ((s.canQ ch).ctl.look q []) = true → ∃ t, exec (.canFrameReceived ch fr sof) s = .next t ∧
    (t.canQ ch).widx q = (s.canQ ch).widx q + 1 ∧ (t.canQ ch).ctl16 q 0 = ((s.canQ ch).widx q + 1).toNat ∧
    (t.canQ ch).ctl16 q 32 = (s.canQ ch).ctl16 q 32 ∧ (t.chan ch).rxCnt = (s.chan ch).rxCnt + 1 ∧
    ((t.canQ ch).ent.look q []).rdN (s.entAt ch q ((s.canQ ch).widx q)) 16 = fr.head 0 ∧
    ((t.canQ ch).ent.look q []).rdN (s.entAt ch q ((s.canQ ch).widx q) + 28) 4 = le 4 sof.toNat ∧
    ((t.canQ ch).ent.look q []).rdN (s.entAt ch q ((s.canQ ch).widx q) + 32) fr.data.length = fr.data ∧
    (∀ i, (s.filterFrame ch fr).2 = some i → i < 256 →
      ((t.canQ ch).ent.look q []).rd (s.entAt ch q ((s.canQ ch).widx q) + 24) = BitVec.ofNat 8 i) ∧
    (∀ a, a < s.entAt ch q ((s.canQ ch).widx q) ∨ s.entAt ch q ((s.canQ ch).widx q) + 32 + s.dslot ch ≤ a →
      ((t.canQ ch).ent.look q []).rd a = ((s.canQ ch).ent.look q []).rd a) ∧
    (∀ p, p ≠ q → (t.canQ ch).ent.look p [] = (s.canQ ch).ent.look p [] ∧ (t.canQ ch).ctl.look p [] = (s.canQ ch).ctl.look p []) ∧
    (t.canQ ch).cur = (s.canQ ch).cur ∧ (t.canQ ch).cidx = (s.canQ ch).cidx ∧
    (∀ c, c ≠ ch.val → t.chan c = s.chan c ∧ t.canQ c = s.canQ c) ∧ OnlyChanges [.can, .canq, .tly, .freeN] s t) ∧
  (∀ (s : State) (ch : Fin 8) (fr : CanEnt) (sof : Word), s.canLive ch = false ∨ s.canFmt ch fr.fmt = false →
    exec (.canFrameReceived ch fr sof) s = .next s) ∧
  (∀ (s : State) (ch : Fin 8) (xl : Bool), s.canLive ch = true → s.canFd ch = true → xl = false ∨ s.canXl ch = false →
    bits (s.canCfg ch) 7 1 = 0 → exec (.protocolException ch xl) s =
      .next (s.updCan ch fun x => { x with pex := true, ePex := x.ePex + 1 })) ∧
  (∀ (s : State) (ch : Fin 8) (xl : Bool), s.canLive ch = true → s.canFd ch = true → xl = false ∨ s.canXl ch = false →
    bits (s.canCfg ch) 7 1 = 1 → ∃ t, exec (.protocolException ch xl) s = .next t ∧ (t.chan ch).eForm = (s.chan ch).eForm + 1 ∧
    (t.chan ch).errN = 2 ∧ (t.chan ch).recv = min 255 ((s.chan ch).recv + 1) ∧ (t.chan ch).ePex = (s.chan ch).ePex ∧
    (∀ c, c ≠ ch.val → t.chan c = s.chan c) ∧ OnlyChanges [.can, .canq, .tly, .freeN] s t)

/-- A transmitter's error raises TEC, never while the channel listens; a receiver's raises REC up to 255. TEC or REC at 128 makes
the channel error passive, counted once on entry; TEC above 255 makes it bus-off, or recovering at once with AUTO_RECOV, counted
and recorded. RECOVER of a bus-off channel by the host or HK starts recovery; another initiator's write is counted in RO_WR, a
busy channel's is lost. The end of recovery leaves the channel error active with both counters at 0. -/
def Obligations.CanErrorsConfineTheChannelUntilItRecovers : Prop :=
  (∀ (s : State) (ch : Fin 8) (k : CanErr) (dp : Bool) (inc : Fin 9), s.canLive ch = true → (s.chan ch).listen = false →
    (s.chan ch).tec + inc.val ≤ 255 → ∃ t, exec (.canError ch k dp true inc) s = .next t ∧
    (t.chan ch).tec = (s.chan ch).tec + inc.val ∧ (t.chan ch).recv = (s.chan ch).recv ∧
    ((t.chan ch).estate = 1 ↔ 128 ≤ (s.chan ch).tec + inc.val ∨ 128 ≤ (s.chan ch).recv) ∧ (t.chan ch).estate.toNat ≤ 1 ∧
    ((s.chan ch).estate = 0 → (t.chan ch).estate = 1 → (t.chan ch).ePass = (s.chan ch).ePass + 1) ∧
    ((s.chan ch).estate = 1 → (t.chan ch).ePass = (s.chan ch).ePass) ∧ (t.chan ch).eBus = (s.chan ch).eBus ∧
    (∀ c, c ≠ ch.val → t.chan c = s.chan c) ∧ OnlyChanges [.can, .tly] s t) ∧
  (∀ (s : State) (ch : Fin 8) (k : CanErr) (dp : Bool) (inc : Fin 9), s.canLive ch = true → (s.chan ch).listen = false →
    255 < (s.chan ch).tec + inc.val → ∃ t, exec (.canError ch k dp true inc) s = .next t ∧ (t.chan ch).tec = 256 ∧
    (t.chan ch).estate = (if bits (s.canCfg ch) 6 1 = 1 then 3 else 2) ∧ (t.chan ch).eBus = (s.chan ch).eBus + 1 ∧
    ((s.canQ ch).cur.isSome = true → (t.chan ch).txActive = false) ∧ t.canLive ch = false ∧ (∀ c, c ≠ ch.val → t.chan c = s.chan c ∧ t.canQ c = s.canQ c) ∧
    OnlyChanges [.can, .canq, .tly, .freeN] s t) ∧
  (∀ (s : State) (ch : Fin 8) (k : CanErr) (dp : Bool) (inc : Fin 9), s.canLive ch = true → (s.chan ch).listen = true →
    (s.chan ch).tec ≤ 255 → ∃ t, exec (.canError ch k dp true inc) s = .next t ∧ (t.chan ch).tec = (s.chan ch).tec ∧
    (t.chan ch).recv = (s.chan ch).recv ∧ OnlyChanges [.can, .tly] s t) ∧
  (∀ (s : State) (ch : Fin 8) (k : CanErr) (dp : Bool) (inc : Fin 9), s.canLive ch = true → (s.chan ch).tec ≤ 255 →
    ∃ t, exec (.canError ch k dp false inc) s = .next t ∧ (t.chan ch).recv = min 255 ((s.chan ch).recv + inc.val) ∧
    (t.chan ch).tec = (s.chan ch).tec ∧ (∀ c, c ≠ ch.val → t.chan c = s.chan c) ∧ OnlyChanges [.can, .tly] s t) ∧
  (∀ (s : State) (ch : Fin 8) (dp tx : Bool) (inc : Fin 9), s.canLive ch = true → ∃ t, exec (.canError ch .crc dp tx inc) s = .next t ∧
    (t.chan ch).eCrc = (s.chan ch).eCrc + 1 ∧ (t.chan ch).eStuff = (s.chan ch).eStuff ∧ (t.chan ch).eBit = (s.chan ch).eBit ∧
    (if dp then (t.chan ch).errD = 6 ∧ (t.chan ch).errN = (s.chan ch).errN
      else (t.chan ch).errN = 6 ∧ (t.chan ch).errD = (s.chan ch).errD)) ∧
  (∀ (s : State) (ch : Fin 8) (k : CanErr) (dp tx : Bool) (inc : Fin 9), s.canLive ch = false →
    exec (.canError ch k dp tx inc) s = .next s) ∧
  (∀ (s : State) (ch : Fin 8) (ini : Ini), Settled s → s.regLive (canReg ch.val 0x24) = true → ini = .host ∨ ini = .hk →
    (s.posted.look (canReg ch.val 0) {}).busy = none → s.canSet ch = true → (s.chan ch).estate = 2 →
    ∃ t, exec (.canCmdRecover ch ini) s = .next t ∧
    t.posted.look (canReg ch.val 0) {} = { s.posted.look (canReg ch.val 0) {} with busy := some { off := canReg ch.val 0x24, val := 1 } } ∧
    OnlyChanges [.posted, .hif, .outbox] s t ∧ EventsOnly s t ∧
    (∃ u, exec (.postedWriteDone (canReg ch.val 0)) t = .next u ∧ u.chan ch = { s.chan ch with estate := 3 } ∧
      (u.posted.look (canReg ch.val 0) {}).busy = none ∧ (∀ c, c ≠ ch.val → u.chan c = s.chan c))) ∧
  (∀ (s : State) (ch : Fin 8) (ini : Ini), Settled s → s.regLive (canReg ch.val 0x24) = true → ini = .host ∨ ini = .hk →
    (s.posted.look (canReg ch.val 0) {}).busy = none → s.canSet ch = false ∨ (s.chan ch).estate ≠ 2 →
    ∃ t, exec (.canCmdRecover ch ini) s = .next t ∧ OnlyChanges [.posted, .hif, .outbox] s t ∧ EventsOnly s t ∧
    (∃ u, exec (.postedWriteDone (canReg ch.val 0)) t = .next u ∧ u.can = s.can ∧
      (u.posted.look (canReg ch.val 0) {}).busy = none)) ∧
  (∀ (s : State) (ch : Fin 8) (ini : Ini), Settled s → s.regLive (canReg ch.val 0x24) = true → ini = .host ∨ ini = .hk →
    (s.posted.look (canReg ch.val 0) {}).busy.isSome = true → ∃ t, exec (.canCmdRecover ch ini) s = .next t ∧
    (t.posted.look (canReg ch.val 0) {}).lostwr = (s.posted.look (canReg ch.val 0) {}).lostwr + 1 ∧ t.can = s.can ∧
    OnlyChanges [.sys, .posted, .tly, .hif, .outbox] s t ∧ EventsOnly s t) ∧
  (∀ (s : State) (ch : Fin 8) (ini : Ini), Settled s → s.regLive (canReg ch.val 0x24) = true → ini ≠ .host → ini ≠ .hk →
    ∃ t, exec (.canCmdRecover ch ini) s = .next t ∧ t.sys.roWr = s.sys.roWr + 1 ∧ OnlyChanges [.sys, .tly, .hif, .outbox] s t ∧ EventsOnly s t) ∧
  (∀ (s : State) (ch : Fin 8), s.running = true → (s.chan ch).estate = 3 → exec (.busOffRecoveryDone ch) s =
    .next (s.updCan ch fun x => { x with estate := 0, tec := 0, recv := 0 })) ∧
  (∀ (s : State) (ch : Fin 8), s.running = false ∨ (s.chan ch).estate ≠ 3 → exec (.busOffRecoveryDone ch) s = .next s)

/-- A poll reads SIDX and RECOVER_SEQ. With no entry in progress it fetches the one at CIDX, or completes an invalid one with
INVALID; an inconsistent SIDX halts the queue with TXQ_ERR and fetches nothing. An attempt starts unless CANCEL reads 1, which
completes the entry CANCELLED. A sent attempt completes SENT and counts; a lost or failed one waits for a retry, or completes
RETRY_EXH after the last allowed attempt, or CANCELLED. Each completion writes STATUS into the entry and advances CIDX. Where
nothing more is submitted, nothing more is fetched. -/
def Obligations.CanEntriesAreSentInOrderAndCompleted : Prop :=
  (∀ (s : State) (ch : Fin 8), s.running = true → s.canSet ch = true → (s.chan ch).off = false → (s.chan ch).listen = false →
    (s.canQ ch).cur = none → s.qk ch 0 ≠ 0 → BitVec.ofNat 16 ((s.canQ ch).ctl16 0 0) ≠ (s.canQ ch).cidx →
    (BitVec.ofNat 16 ((s.canQ ch).ctl16 0 0) - (s.canQ ch).cidx).toNat ≤ 2 ^ s.qk ch 0 →
    ∃ t, exec (.txqPoll ch) s = .next t ∧ (t.canQ ch).sidxRd = BitVec.ofNat 16 ((s.canQ ch).ctl16 0 0) ∧ (t.chan ch).txErr = false ∧
    (∀ e : CanEnt, parseEnt (((s.canQ ch).ent.look 0 []).rdN (s.entAt ch 0 (s.canQ ch).cidx) (32 + s.dslot ch)) = e →
      (s.entInvalid ch e = false → (t.canQ ch).cur = some { ent := e } ∧ (t.canQ ch).cidx = (s.canQ ch).cidx ∧
        (t.canQ ch).ent = (s.canQ ch).ent) ∧
      (s.entInvalid ch e = true → (t.canQ ch).cur = none ∧ (t.canQ ch).cidx = (s.canQ ch).cidx + 1 ∧
        ((t.canQ ch).ent.look 0 []).rd (s.entAt ch 0 (s.canQ ch).cidx + 24) = 4)) ∧
    (∀ c, c ≠ ch.val → t.chan c = s.chan c ∧ t.canQ c = s.canQ c) ∧ OnlyChanges [.can, .canq, .tly, .freeN] s t) ∧
  (∀ (s : State) (ch : Fin 8), s.running = true → s.canSet ch = true → (s.chan ch).off = false → (s.chan ch).listen = false →
    2 ^ s.qk ch 0 < (BitVec.ofNat 16 ((s.canQ ch).ctl16 0 0) - (s.canQ ch).cidx).toNat →
    ∃ t, exec (.txqPoll ch) s = .next t ∧ (t.chan ch).txErr = true ∧ (t.canQ ch).cur = (s.canQ ch).cur ∧
    (t.canQ ch).cidx = (s.canQ ch).cidx ∧ (t.canQ ch).ent = (s.canQ ch).ent ∧ ((s.chan ch).txErr = true → t.tly = s.tly) ∧
    (∀ c, c ≠ ch.val → t.chan c = s.chan c ∧ t.canQ c = s.canQ c) ∧ OnlyChanges [.can, .canq, .tly] s t) ∧
  (∀ (s : State) (ch : Fin 8), s.running = true → s.canSet ch = true → (s.chan ch).off = false → (s.chan ch).listen = false →
    (s.chan ch).estate = 2 → ((s.canQ ch).ctl.look 0 []).rd 2 ≠ (s.canQ ch).recoverRd →
    ∃ t, exec (.txqPoll ch) s = .next t ∧ (t.chan ch).estate = 3 ∧ (t.canQ ch).recoverRd = ((s.canQ ch).ctl.look 0 []).rd 2) ∧
  (∀ (s : State) (ch : Fin 8), s.running = false ∨ s.canSet ch = false ∨ (s.chan ch).off = true ∨ (s.chan ch).listen = true →
    exec (.txqPoll ch) s = .next s) ∧
  (∀ (s : State) (ch : Fin 8) (e : CanCur), (s.canQ ch).cur = some e → s.canSends ch = true → (s.chan ch).txActive = false →
    s.cancelled ch = false → exec (.attemptStart ch) s = .next ((s.updCanQ ch fun q => { q with
      cur := some { e with tries := e.tries + 1, sof := s.short } }).updCan ch fun x => { x with txActive := true, pex := false })) ∧
  (∀ (s : State) (ch : Fin 8) (e : CanCur), (s.canQ ch).cur = some e → s.canSends ch = true → (s.chan ch).txActive = false →
    s.cancelled ch = true → ∃ t, exec (.attemptStart ch) s = .next t ∧ (t.canQ ch).cur = none ∧
    (t.canQ ch).cidx = (s.canQ ch).cidx + 1 ∧ ((t.canQ ch).ent.look 0 []).rd (s.entAt ch 0 (s.canQ ch).cidx + 24) = 2 ∧
    (t.chan ch).cancelled = (s.chan ch).cancelled + 1 ∧ (∀ c, c ≠ ch.val → t.chan c = s.chan c ∧ t.canQ c = s.canQ c) ∧
    OnlyChanges [.can, .canq, .freeN] s t) ∧
  (∀ (s : State) (ch : Fin 8), (s.canQ ch).cur = none ∨ s.canSends ch = false ∨ (s.chan ch).txActive = true →
    exec (.attemptStart ch) s = .next s) ∧
  (∀ (s : State) (ch : Fin 8) (e : CanCur) (v : BitVec 8), (s.canQ ch).cur = some e → s.canSends ch = true →
    (s.chan ch).txActive = true → (s.chan ch).tec ≤ 256 → BitVec.ofNat 16 ((s.canQ ch).ctl16 0 0) = (s.canQ ch).cidx + 1 →
    ∃ t, exec (.attemptEnd ch (.sent v)) s = .next t ∧ (t.canQ ch).cur = none ∧ (t.canQ ch).cidx = (s.canQ ch).cidx + 1 ∧
    ((t.canQ ch).ent.look 0 []).rd (s.entAt ch 0 (s.canQ ch).cidx + 24) = 1 ∧ (t.chan ch).txActive = false ∧
    (t.chan ch).txCnt = (s.chan ch).txCnt + 1 ∧ (t.chan ch).tec = (s.chan ch).tec - 1 ∧
    (t.chan ch).cancelLate = (if s.cancelled ch then (s.chan ch).cancelLate + 1 else (s.chan ch).cancelLate) ∧
    (e.ent.fmt ≠ 0 → bits (s.liveReg (canReg ch 0x1C)) 8 1 = 1 → (t.chan ch).tdcv = BitVec.ofNat 7 (min 127 v.toNat)) ∧
    (∃ f : Frame, t.outbox = s.outbox ++ [.frame f] ∧ f.kind = .can ∧ f.dst = ch.val ∧ f.payload = s.canSent ch e.ent) ∧
    (∀ c, c ≠ ch.val → t.chan c = s.chan c ∧ t.canQ c = s.canQ c) ∧ OnlyChanges [.can, .canq, .tly, .outbox, .freeN] s t) ∧
  (∀ (s : State) (ch : Fin 8) (e : CanCur), (s.canQ ch).cur = some e → s.canSends ch = true → (s.chan ch).txActive = true →
    s.cancelled ch = false → e.ent.retry = 15 ∨ e.tries < e.ent.retry.toNat + 1 →
    ∃ t, exec (.attemptEnd ch .lost) s = .next t ∧ (t.canQ ch).cur = some { e with arb := true } ∧
    (t.canQ ch).cidx = (s.canQ ch).cidx ∧ (t.canQ ch).ent = (s.canQ ch).ent ∧ (t.chan ch).txActive = false ∧
    (t.chan ch).arbLost = (s.chan ch).arbLost + 1 ∧ (∀ c, c ≠ ch.val → t.chan c = s.chan c ∧ t.canQ c = s.canQ c) ∧
    OnlyChanges [.can, .canq, .tly] s t) ∧
  (∀ (s : State) (ch : Fin 8) (e : CanCur), (s.canQ ch).cur = some e → s.canSends ch = true → (s.chan ch).txActive = true →
    s.cancelled ch = false → e.ent.retry ≠ 15 → e.ent.retry.toNat + 1 ≤ e.tries →
    BitVec.ofNat 16 ((s.canQ ch).ctl16 0 0) = (s.canQ ch).cidx + 1 →
    ∃ t, exec (.attemptEnd ch .error) s = .next t ∧ (t.canQ ch).cur = none ∧ (t.canQ ch).cidx = (s.canQ ch).cidx + 1 ∧
    ((t.canQ ch).ent.look 0 []).rd (s.entAt ch 0 (s.canQ ch).cidx + 24) = 3 ∧ (t.chan ch).txActive = false ∧
    (t.chan ch).txCnt = (s.chan ch).txCnt ∧ t.outbox = s.outbox ∧ (∀ c, c ≠ ch.val → t.chan c = s.chan c ∧ t.canQ c = s.canQ c) ∧
    OnlyChanges [.can, .canq, .tly, .freeN] s t) ∧
  (∀ (s : State) (ch : Fin 8) (e : CanCur), (s.canQ ch).cur = some e → s.canSends ch = true → (s.chan ch).txActive = true →
    s.cancelled ch = true → BitVec.ofNat 16 ((s.canQ ch).ctl16 0 0) = (s.canQ ch).cidx + 1 →
    ∃ t, exec (.attemptEnd ch .error) s = .next t ∧ (t.canQ ch).cur = none ∧ (t.canQ ch).cidx = (s.canQ ch).cidx + 1 ∧
    ((t.canQ ch).ent.look 0 []).rd (s.entAt ch 0 (s.canQ ch).cidx + 24) = 2 ∧
    (t.chan ch).cancelled = (s.chan ch).cancelled + 1 ∧ OnlyChanges [.can, .canq, .tly, .freeN] s t) ∧
  (∀ (s : State) (ch : Fin 8) (out : CanEnd), (s.canQ ch).cur = none ∨ s.canSends ch = false ∨ (s.chan ch).txActive = false →
    exec (.attemptEnd ch out) s = .next s)

/-- A full or empty filter changes an input's state and counts. RBERR is raised once per onset, never while the channel is tripped,
latched or in FEED_LOST. A trip opens both switches and counts; the first of a run is recorded, the trip of a retry counts in
RETRIES, and the output latches once that reaches RETRYMAX. A retry drives the value in force again, and so does a re-arm when
its posted write is done. A lost feed group drives only low, sets FEED_LOST, is shown in FIO_STAT and writes one record; it
keeps the values in force, and its return drives them again without a retry count. No other channel changes. -/
def Obligations.LocalDigitalChannelsFilterTripAndRetry : Prop :=
  (∀ (s : State) (n : Fin 32) (b : Bool), s.fioRuns = true → s.dioSet n = true → s.dioOut n = false → (s.dio n).state ≠ b →
    ∃ t, exec (.diFilterChange n b) s = .next t ∧ t.dio n = { s.dio n with
      state := b, rb := b, chg := (s.dio n).chg + 1, c := if b then bits (s.liveReg (Reg.fioDioFilt + 0x20 * n)) 0 8 else 0 } ∧ (∀ m, m ≠ n.val → t.dio m = s.dio m) ∧
    t.fio = { s.fio with dio := t.fio.dio } ∧ OnlyChanges [.fio] s t) ∧
  (∀ (s : State) (n : Fin 32) (b : Bool), s.fioRuns = false ∨ s.dioSet n = false ∨ s.dioOut n = true ∨ (s.dio n).state = b →
    exec (.diFilterChange n b) s = .next s) ∧
  (∀ (s : State) (n : Fin 32), s.fioRuns = true → s.dioOut n = true → (s.dio n).rberr = false → (s.dio n).tripped = false →
    (s.dio n).latched = false → (s.dio n).feedLost = false → ∃ t, exec (.rberrOnset n) s = .next t ∧ t.dio n = { s.dio n with
      rberr := true, rbCnt := (s.dio n).rbCnt + 1, rb := !(s.dio n).state } ∧ (∀ m, m ≠ n.val → t.dio m = s.dio m) ∧ OnlyChanges [.fio] s t) ∧
  (∀ (s : State) (n : Fin 32), (s.dio n).rberr = true ∨ (s.dio n).tripped = true ∨ (s.dio n).latched = true ∨
    (s.dio n).feedLost = true → exec (.rberrOnset n) s = .next s) ∧
  (∀ (s : State) (n : Fin 32) (h : Trip), s.fioRuns = true → s.dioOut n = true → (s.dio n).canTrip h = true →
    (s.dio n).runOn = false → s.retryMax n ≠ 0 → ∃ t, exec (.dioTrip n h) s = .next t ∧ (t.dio n).tripped = true ∧
    (t.dio n).level = none ∧ (t.dio n).latched = false ∧ (t.dio n).trips = (s.dio n).trips + 1 ∧
    (t.dio n).latches = (s.dio n).latches ∧ (t.dio n).retries = min 255 (s.dio n).retries ∧ (t.dio n).state = (s.dio n).state ∧
    (h = .ovl → (t.dio n).ovl = true) ∧ (h = .shortSup → (t.dio n).shortSup = true) ∧ (h = .therm → (t.dio n).therm = true) ∧
    t.tly = (s.log 0x0901 3 [BitVec.ofNat 8 n, BitVec.ofNat 8 (tripCode h)]).tly ∧ t.outbox = s.outbox ++ [.dio n none] ∧
    (∀ m, m ≠ n.val → t.dio m = s.dio m) ∧ OnlyChanges [.fio, .tly, .outbox] s t) ∧
  (∀ (s : State) (n : Fin 32) (h : Trip) (t0 : Nat), s.fioRuns = true → s.dioOut n = true → (s.dio n).canTrip h = true →
    (s.dio n).runOn = true → (s.dio n).retryAt = some t0 → s.sys.opNs ≤ t0 + 2000000 → ∃ t, exec (.dioTrip n h) s = .next t ∧
    (t.dio n).tripped = true ∧ (t.dio n).level = none ∧ (t.dio n).trips = (s.dio n).trips + 1 ∧
    (t.dio n).retries = min 255 ((s.dio n).retries + 1) ∧ (t.dio n).latched = decide (s.retryMax n ≤ (s.dio n).retries + 1) ∧
    (t.dio n).latches = (if s.retryMax n ≤ (s.dio n).retries + 1 then (s.dio n).latches + 1 else (s.dio n).latches) ∧
    t.tly = (if s.retryMax n ≤ (s.dio n).retries + 1 then
      (s.log 0x0902 4 [BitVec.ofNat 8 n, BitVec.ofNat 8 (min 255 ((s.dio n).retries + 1))]).tly else s.tly) ∧
    t.outbox = s.outbox ++ [.dio n none] ∧ (∀ m, m ≠ n.val → t.dio m = s.dio m) ∧ OnlyChanges [.fio, .tly, .outbox] s t) ∧
  (∀ (s : State) (n : Fin 32) (h : Trip), s.fioRuns = true → s.dioOut n = true → (s.dio n).canTrip h = true →
    (s.dio n).runOn = false → s.retryMax n = 0 → ∃ t, exec (.dioTrip n h) s = .next t ∧ (t.dio n).latched = true ∧
    (t.dio n).level = none ∧ (t.dio n).latches = (s.dio n).latches + 1 ∧ (∀ m, m ≠ n.val → t.dio m = s.dio m)) ∧
  (∀ (s : State) (n : Fin 32) (h : Trip), s.dioOut n = false ∨ (s.dio n).canTrip h = false → exec (.dioTrip n h) s = .next s) ∧
  (∀ (s : State) (n : Fin 32), s.fioRuns = true → s.dioOut n = true → (s.dio n).tripped = true → (s.dio n).latched = false →
    ∃ t, exec (.dioRetry n) s = .next t ∧ (t.dio n).tripped = false ∧
    (t.dio n).level = some ((s.dio n).state && !(s.dio n).feedLost) ∧ (t.dio n).retryAt = some s.sys.opNs ∧
    (t.dio n).retries = (s.dio n).retries ∧ (t.dio n).trips = (s.dio n).trips ∧
    t.outbox = s.outbox ++ [.dio n (some ((s.dio n).state && !(s.dio n).feedLost))] ∧
    (∀ m, m ≠ n.val → t.dio m = s.dio m) ∧ OnlyChanges [.fio, .outbox] s t) ∧
  (∀ (s : State) (n : Fin 32), (s.dio n).tripped = false ∨ (s.dio n).latched = true → exec (.dioRetry n) s = .next s) ∧
  (∀ (s : State) (n : Fin 32), s.fioRuns = true → s.dioOut n = true → ∃ t, exec (.retriesReset n) s = .next t ∧
    t.dio n = { s.dio n with retries := 0, runOn := false, retryAt := none } ∧ (∀ m, m ≠ n.val → t.dio m = s.dio m) ∧ OnlyChanges [.fio] s t) ∧
  (∀ (s : State) (v : Word), Settled s → s.regLive Reg.fioDioRearm = true → (s.posted.look 0x090000 {}).busy = none →
    ∃ t, exec (.fioDioRearm v) s = .next t ∧ t.posted.look 0x090000 {} = { s.posted.look 0x090000 {} with busy := some { off := Reg.fioDioRearm, val := v } } ∧
    OnlyChanges [.posted, .hif, .outbox] s t ∧ EventsOnly s t ∧ (∃ u, exec (.postedWriteDone 0x090000) t = .next u ∧
    (∀ n : Fin 32, v.getLsbD n = true → s.dioOut n = true → (s.dio n).latched = true →
      (u.dio n).latched = false ∧ (u.dio n).retries = 0 ∧ (u.dio n).level = some ((s.dio n).state && !(s.dio n).feedLost)) ∧
    (∀ n : Fin 32, v.getLsbD n = false ∨ s.dioOut n = false ∨ (s.dio n).latched = false → u.dio n = s.dio n) ∧
    OnlyChanges [.fio, .posted, .hif, .outbox] s u)) ∧
  (∀ (s : State) (v : Word), Settled s → s.regLive Reg.fioDioRearm = true → (s.posted.look 0x090000 {}).busy.isSome = true →
    ∃ t, exec (.fioDioRearm v) s = .next t ∧ (t.posted.look 0x090000 {}).lostwr = (s.posted.look 0x090000 {}).lostwr + 1 ∧
    OnlyChanges [.sys, .tly, .posted, .hif, .outbox] s t ∧ EventsOnly s t) ∧
  (∀ (s : State) (g : Fin 2) (mv : Word), s.fioRuns = true → s.feedOn g = true → ∃ t, exec (.feedLost g mv) s = .next t ∧
    t.feedOn g = false ∧ (t.readReg Reg.fioStat).getLsbD (1 + g.val) = false ∧ (∀ i : Fin 16, s.dioOut (16 * g.val + i) = true → (t.dio (16 * g.val + i)).feedLost = true ∧
      (t.dio (16 * g.val + i)).level ≠ some true ∧ (t.dio (16 * g.val + i)).rberr = false ∧
      (t.dio (16 * g.val + i)).state = (s.dio (16 * g.val + i)).state) ∧
    (∀ m, m < 16 * g.val ∨ 16 * g.val + 16 ≤ m → t.dio m = s.dio m) ∧
    t.tly = (s.log 0x0903 4 ([BitVec.ofNat 8 g, 0, 0, 0] ++ le 4 mv.toNat)).tly ∧ OnlyChanges [.fio, .tly, .outbox] s t) ∧
  (∀ (s : State) (g : Fin 2), s.fioRuns = true → s.feedOn g = false → ∃ t, exec (.feedReturn g) s = .next t ∧ t.feedOn g = true ∧ (t.readReg Reg.fioStat).getLsbD (1 + g.val) = true ∧
    (∀ i : Fin 16, s.dioOut (16 * g.val + i) = true → (t.dio (16 * g.val + i)).feedLost = false ∧
      (t.dio (16 * g.val + i)).state = (s.dio (16 * g.val + i)).state ∧
      (t.dio (16 * g.val + i)).retries = (s.dio (16 * g.val + i)).retries ∧
      ((s.dio (16 * g.val + i)).tripped = false → (s.dio (16 * g.val + i)).latched = false →
        (t.dio (16 * g.val + i)).level = some (s.dio (16 * g.val + i)).state)) ∧
    (∀ m, m < 16 * g.val ∨ 16 * g.val + 16 ≤ m → t.dio m = s.dio m) ∧ OnlyChanges [.fio, .outbox] s t) ∧
  (∀ (s : State) (g : Fin 2) (mv : Word), s.feedOn g = false → exec (.feedLost g mv) s = .next s) ∧
  (∀ (s : State) (g : Fin 2), s.feedOn g = true → exec (.feedReturn g) s = .next s)

/-- At the local apply instant of a class each of its digital outputs takes the committed image, its safe value, or the value it
has, as Table 2.2 says; each analogue output that drives no trim point takes the current of its engineering value, or its fail
value where that is a NaN or an infinity; no channel of another class changes. A fitted strap gives every failed output of its
group 3.5 mA and every dead one 3.2 mA. An open loop and a compliance shortfall are counted and recorded, keep the command, and
clear within 0.1 mA. -/
def Obligations.LocalOutputsApplyTheCommittedImage : Prop :=
  (∀ (s : State) (c : Fin 8) (pins : Word), s.fioRuns = true → ∃ t, exec (.localApply c pins) s = .next t ∧
    (∀ e ∈ (s.ccfg c).dout, s.dioOut e.1 = true → (∀ f ∈ (s.ccfg c).dout, f.1 = e.1 → f.2 = e.2) →
      match s.carryOf c e.2 (s.cfg.commDio.contains e.1) with
      | .image => (t.dio e.1).state = decide ((s.outImage c).rd e.2 ≠ 0)
      | .safe => (t.dio e.1).state = s.cfg.dioSafe.contains e.1
      | .keep | .dead => (t.dio e.1).state = (s.dio e.1).state) ∧
    (∀ n, (∀ e ∈ (s.ccfg c).dout, e.1 ≠ n) → t.dio n = s.dio n) ∧ (∀ n, (∀ e ∈ (s.ccfg c).aout, e.1 ≠ n) → t.aio n = s.aio n) ∧
    (∀ e ∈ (s.ccfg c).aout, s.aioOut e.1 = true → (s.aio e.1).step ≠ 5 → (∀ f ∈ (s.ccfg c).aout, f.1 = e.1 → f.2 = e.2) →
      match s.carryOf c e.2 (s.cfg.commAio.contains e.1) with
      | .image => if F32.isFinite (BitVec.ofNat 32 (unle ((s.outImage c).rdN e.2 4)))
          then (t.aio e.1).cmd = s.aoCurrent e.1 (BitVec.ofNat 32 (unle ((s.outImage c).rdN e.2 4))) ∧ (t.aio e.1).failout = false ∧
            (t.aio e.1).value = BitVec.ofNat 32 (unle ((s.outImage c).rdN e.2 4))
          else (t.aio e.1).cmd = s.failCurrent e.1 ∧ (t.aio e.1).failout = true
      | .safe => (s.cfg.aio.look e.1 {}).safe = none → (t.aio e.1).cmd = s.failCurrent e.1 ∧ (t.aio e.1).failout = true
      | .keep | .dead => t.aio e.1 = s.aio e.1) ∧ OnlyChanges [.fio, .outbox] s t) ∧
  (∀ (s : State) (c : Fin 8) (pins : Word), s.fioRuns = false → exec (.localApply c pins) s = .next s) ∧
  (∀ (s : State) (g : Fin 2) (b : Bool), s.fioRuns = true → (if g.val = 0 then s.fio.strap0 else s.fio.strap1) ≠ b →
    ∃ t, exec (.strapChange g b) s = .next t ∧ (if g.val = 0 then t.fio.strap0 else t.fio.strap1) = b ∧
    (∀ i : Fin 8, s.aioOut (8 * g.val + i) = true → (s.aio (8 * g.val + i)).step ≠ 5 →
      ((s.aio (8 * g.val + i)).failout = true → b = true → (t.aio (8 * g.val + i)).cmd = 35000) ∧
      ((s.aio (8 * g.val + i)).failout = true → b = false → bits (s.voted (Reg.fioAioFail + 0x40 * (8 * g.val + i))) 0 2 = 0 →
        (t.aio (8 * g.val + i)).cmd = 215000) ∧
      ((s.aio (8 * g.val + i)).failout = false → (s.aio (8 * g.val + i)).zero = true →
        (t.aio (8 * g.val + i)).cmd = if b then 32000 else 0) ∧
      ((s.aio (8 * g.val + i)).failout = false → (s.aio (8 * g.val + i)).zero = false →
        t.aio (8 * g.val + i) = s.aio (8 * g.val + i))) ∧
    (∀ n, n < 8 * g.val ∨ 8 * g.val + 8 ≤ n → t.aio n = s.aio n) ∧ t.fio.dio = s.fio.dio ∧
    t.tly = (s.log 0x0906 2 [BitVec.ofNat 8 g, BitVec.ofNat 8 (bit b)]).tly ∧ OnlyChanges [.fio, .tly, .outbox] s t) ∧
  (∀ (s : State) (g : Fin 2) (b : Bool), (if g.val = 0 then s.fio.strap0 else s.fio.strap1) = b →
    exec (.strapChange g b) s = .next s) ∧
  (∀ (s : State) (n : Fin 16) (m : Nat), s.fioRuns = true → s.aioOut n = true → (s.aio n).openW = false → m < 5000 →
    35000 ≤ (s.aio n).cmd → ∃ t, exec (.aoOpen n m) s = .next t ∧ (t.aio n).openW = true ∧ (t.aio n).comply = (s.aio n).comply ∧
    (t.aio n).cAo = (s.aio n).cAo + 1 ∧ (t.aio n).cmd = (s.aio n).cmd ∧ (t.aio n).failout = (s.aio n).failout ∧
    (∀ k, k ≠ n.val → t.aio k = s.aio k) ∧ OnlyChanges [.fio, .tly] s t) ∧
  (∀ (s : State) (n : Fin 16) (m : Nat), (s.aio n).openW = true ∨ 5000 ≤ m ∨ (s.aio n).cmd < 35000 →
    exec (.aoOpen n m) s = .next s) ∧
  (∀ (s : State) (n : Fin 16) (m : Nat), s.fioRuns = true → s.aioOut n = true → (s.aio n).comply = false → 5000 ≤ m →
    2000 < ((m : Int) - (s.aio n).cmd).natAbs → ∃ t, exec (.aoComply n m) s = .next t ∧ (t.aio n).comply = true ∧
    (t.aio n).openW = (s.aio n).openW ∧ (t.aio n).cAo = (s.aio n).cAo + 1 ∧ (t.aio n).cmd = (s.aio n).cmd ∧
    (∀ k, k ≠ n.val → t.aio k = s.aio k) ∧ OnlyChanges [.fio, .tly] s t) ∧
  (∀ (s : State) (n : Fin 16) (m : Nat), (s.aio n).comply = true ∨ m < 5000 ∨ ((m : Int) - (s.aio n).cmd).natAbs ≤ 2000 →
    exec (.aoComply n m) s = .next s) ∧
  (∀ (s : State) (n : Fin 16) (m : Nat), s.fioRuns = true → s.aioOut n = true → ((m : Int) - (s.aio n).cmd).natAbs ≤ 1000 →
    ∃ t, exec (.aoConditionClear n m) s = .next t ∧
    t.aio n = { s.aio n with openW := false, comply := false, raw := BitVec.ofNat 24 m } ∧
    (∀ k, k ≠ n.val → t.aio k = s.aio k) ∧ OnlyChanges [.fio] s t) ∧
  (∀ (s : State) (n : Fin 16) (m : Nat), 1000 < ((m : Int) - (s.aio n).cmd).natAbs → exec (.aoConditionClear n m) s = .next s)

/-- An AI conversion of a 4 to 20 mA channel takes the code of Table 13.2 and is valid up to code 2. A store that reaches 0 limits
its channel until it holds 4 mJ. A trim write makes the FIO block busy, is lost while it is busy, and acts when the posted write
is done. A trim operation in a wrong mode or on a busy channel is refused with reason 1, a far reference with 2, a store under
PFAIL with 3 and out of limits with 4, without both captures or a drive on an AI with 5; refused operations leave the trim.
STORE, FACTORY and DISCARD act as R360 says. A HART poll or request starts when the channel is free; a busy mailbox loses the
GO; transactions end in a response or a failure. -/
def Obligations.AnalogueInputsTrimAndHart : Prop :=
  (∀ (s : State) (n : Fin 16) (x : Int), s.fioRuns = true → s.aioSet n = true → s.aioRange n = 1 ∨ s.aioRange n = 2 →
    bits (s.aioCfg n) 3 1 = 0 → (s.aio n).chanFault = false → ∃ t, exec (.aiConversion n x false false) s = .next t ∧
    ((s.aio n).trim x ≤ 36000 → (t.aio n).code = 3 ∧ (t.aio n).valid = false ∧
      (t.aio n).cLow = (if (s.aio n).code = 3 then (s.aio n).cLow else (s.aio n).cLow + 1)) ∧
    (36000 < (s.aio n).trim x → (s.aio n).trim x < 38000 → (t.aio n).code = 1 ∧ (t.aio n).valid = true) ∧
    (38000 ≤ (s.aio n).trim x → (s.aio n).trim x ≤ 205000 → (t.aio n).code = 0 ∧ (t.aio n).valid = true) ∧
    (205000 < (s.aio n).trim x → (s.aio n).trim x < 210000 → (t.aio n).code = 2 ∧ (t.aio n).valid = true) ∧
    (210000 ≤ (s.aio n).trim x → (t.aio n).code = 4 ∧ (t.aio n).valid = false ∧
      (t.aio n).cHigh = (if (s.aio n).code = 4 then (s.aio n).cHigh else (s.aio n).cHigh + 1)) ∧
    (t.aio n).raw = BitVec.ofInt 24 ((s.aio n).trim x) ∧ (t.aio n).value = s.aiValue n (s.aiMean n ((s.aio n).trim x)).2 ∧
    (∀ k, k ≠ n.val → t.aio k = s.aio k) ∧ OnlyChanges [.fio, .tly] s t) ∧
  (∀ (s : State) (n : Fin 16) (x : Int) (full fault : Bool), s.fioRuns = true → s.aioSet n = true → 1 ≤ s.aioRange n →
    s.aioRange n ≤ 4 → fault = true ∨ (s.aio n).chanFault = true ∨ bits (s.aioCfg n) 3 1 = 1 →
    ∃ t, exec (.aiConversion n x full fault) s = .next t ∧ (t.aio n).valid = false ∧ (t.aio n).raw = (s.aio n).raw ∧
    (t.aio n).value = (s.aio n).value ∧ (bits (s.aioCfg n) 3 1 = 1 → (t.aio n).code = 6) ∧
    (bits (s.aioCfg n) 3 1 = 0 → (t.aio n).code = 5) ∧ (∀ k, k ≠ n.val → t.aio k = s.aio k) ∧ OnlyChanges [.fio, .tly] s t) ∧
  (∀ (s : State) (n : Fin 16) (x : Int) (full fault : Bool), s.aioSet n = false → exec (.aiConversion n x full fault) s = .next s) ∧
  (∀ (s : State) (n : Fin 16) (e : Nat), s.fioRuns = true → s.aioSet n = true → ∃ t, exec (.pwrLim n e) s = .next t ∧
    (t.aio n).store = min 1600 e ∧ (e = 0 → (t.aio n).pwrLim = true) ∧ (400 ≤ e → (t.aio n).pwrLim = false) ∧
    (0 < e → e < 400 → (t.aio n).pwrLim = (s.aio n).pwrLim) ∧
    (t.aio n).cPwr = (if e = 0 ∧ (s.aio n).pwrLim = false then (s.aio n).cPwr + 1 else (s.aio n).cPwr) ∧
    (∀ k, k ≠ n.val → t.aio k = s.aio k) ∧ OnlyChanges [.fio] s t) ∧
  (∀ (s : State) (n : Fin 16) (m : Int) (i : Instr), i ∈ [.captLo n m, .captHi n m, .store n, .discard n, .factory n, .driveLo n,
    .driveHi n] → Settled s → s.regLive (Reg.fioAioTrimcmd + 0x40 * n.val) = true →
    (s.posted.look 0x090000 {}).busy = none → s.aioSet n = true → s.trimBarred n = true →
    ∃ t, exec i s = .next t ∧ OnlyChanges [.posted, .hif, .outbox] s t ∧ EventsOnly s t ∧ (t.posted.look 0x090000 {}).busy.isSome = true ∧
    (∃ u, exec (.postedWriteDone 0x090000) t = .next u ∧ u.aio n = { s.aio n with step := 4, why := 1 } ∧
      (∀ k, k ≠ n.val → u.aio k = s.aio k) ∧ OnlyChanges [.fio, .posted, .hif, .outbox] s u)) ∧
  (∀ (s : State) (n : Fin 16) (m : Int) (i : Instr), i ∈ [.captLo n m, .captHi n m, .store n, .discard n, .factory n, .driveLo n,
    .driveHi n] → Settled s → s.regLive (Reg.fioAioTrimcmd + 0x40 * n.val) = true →
    (s.posted.look 0x090000 {}).busy.isSome = true → ∃ t, exec i s = .next t ∧
    (t.posted.look 0x090000 {}).lostwr = (s.posted.look 0x090000 {}).lostwr + 1 ∧ t.fio = s.fio ∧
    OnlyChanges [.sys, .posted, .tly, .hif, .outbox] s t ∧ EventsOnly s t) ∧
  (∀ (s : State) (n : Fin 16) (m : Int) (i : Instr), i ∈ [.captLo n m, .captHi n m, .store n, .discard n, .factory n, .driveLo n,
    .driveHi n] → Settled s → s.regLive (Reg.fioAioTrimcmd + 0x40 * n.val) = true →
    (s.posted.look 0x090000 {}).busy = none → s.aioSet n = false → ∃ t, exec i s = .next t ∧ OnlyChanges [.posted, .hif, .outbox] s t ∧ EventsOnly s t ∧
    (∃ u, exec (.postedWriteDone 0x090000) t = .next u ∧ OnlyChanges [.posted, .hif, .outbox] s u)) ∧
  (∀ (s : State) (n : Fin 16) (m : Int) (i : Instr) (hi : Bool), i = (if hi then .captHi n m else .captLo n m) → Settled s → s.regLive (Reg.fioAioTrimcmd + 0x40 * n.val) = true →
    (s.posted.look 0x090000 {}).busy = none → s.aioSet n = true → s.trimBarred n = false → s.aioOut n = false →
    ∃ t, exec i s = .next t ∧ OnlyChanges [.posted, .hif, .outbox] s t ∧
    EventsOnly s t ∧ (∃ u, exec (.postedWriteDone 0x090000) t = .next u ∧
    ((s.trimPoint n hi).2 < ((bits (s.reg (Reg.fioAioTrimref + 0x40 * n)) 0 24 : Int) - (s.trimPoint n hi).1).natAbs →
      u.aio n = { s.aio n with step := 4, why := 2 }) ∧
    (((bits (s.reg (Reg.fioAioTrimref + 0x40 * n)) 0 24 : Int) - (s.trimPoint n hi).1).natAbs ≤ (s.trimPoint n hi).2 →
      (u.aio n).trimActive = true ∧ (u.aio n).cal = (s.aio n).cal ∧
      (if hi then (u.aio n).mHi = some m ∧ (u.aio n).rHi = bits (s.reg (Reg.fioAioTrimref + 0x40 * n)) 0 24 ∧
          (u.aio n).mLo = (s.aio n).mLo
        else (u.aio n).mLo = some m ∧ (u.aio n).rLo = bits (s.reg (Reg.fioAioTrimref + 0x40 * n)) 0 24 ∧
          (u.aio n).mHi = (s.aio n).mHi ∧ (u.aio n).step = (if (s.aio n).mHi.isSome then 2 else 1))) ∧
    (∀ k, k ≠ n.val → u.aio k = s.aio k) ∧ OnlyChanges [.fio, .posted, .hif, .outbox] s u)) ∧
  (∀ (s : State) (n : Fin 16), Settled s → s.regLive (Reg.fioAioTrimcmd + 0x40 * n.val) = true →
    (s.posted.look 0x090000 {}).busy = none → s.aioSet n = true → s.trimBarred n = false → ∃ t, exec (.store n) s = .next t ∧ OnlyChanges [.posted, .hif, .outbox] s t ∧
    EventsOnly s t ∧ (∃ u, exec (.postedWriteDone 0x090000) t = .next u ∧
    ((s.aio n).mLo = none ∨ (s.aio n).mHi = none → u.aio n = { s.aio n with step := 4, why := 5 }) ∧
    (∀ a b, (s.aio n).mLo = some a → (s.aio n).mHi = some b → s.pwr.pfail = true → u.aio n = { s.aio n with step := 4, why := 3 }) ∧
    (∀ a b, (s.aio n).mLo = some a → (s.aio n).mHi = some b → s.pwr.pfail = false →
      (trimBad (decide (s.aioRange n = 4)) a (s.aio n).rLo b (s.aio n).rHi = true → u.aio n = { s.aio n with step := 4, why := 4 }) ∧
      (trimBad (decide (s.aioRange n = 4)) a (s.aio n).rLo b (s.aio n).rHi = false → (u.aio n).step = 3 ∧
        (u.aio n).cal = some (a, (s.aio n).rLo, b, (s.aio n).rHi) ∧ (u.aio n).trimActive = false ∧ (u.aio n).mLo = none)) ∧
    (∀ k, k ≠ n.val → u.aio k = s.aio k) ∧ OnlyChanges [.fio, .posted, .tly, .hif, .outbox] s u)) ∧
  (∀ (s : State) (n : Fin 16), Settled s → s.regLive (Reg.fioAioTrimcmd + 0x40 * n.val) = true →
    (s.posted.look 0x090000 {}).busy = none → s.aioSet n = true → s.trimBarred n = false → ∃ t, exec (.discard n) s = .next t ∧ OnlyChanges [.posted, .hif, .outbox] s t ∧
    EventsOnly s t ∧ (∃ u, exec (.postedWriteDone 0x090000) t = .next u ∧
    u.aio n = { s.aio n with trimActive := false, driven := false, mLo := none, mHi := none, step := 0, why := 0 } ∧
    (∀ k, k ≠ n.val → u.aio k = s.aio k) ∧ OnlyChanges [.fio, .posted, .hif, .outbox] s u)) ∧
  (∀ (s : State) (n : Fin 16), Settled s → s.regLive (Reg.fioAioTrimcmd + 0x40 * n.val) = true →
    (s.posted.look 0x090000 {}).busy = none → s.aioSet n = true → s.trimBarred n = false → s.pwr.pfail = false →
    ∃ t, exec (.factory n) s = .next t ∧ OnlyChanges [.posted, .hif, .outbox] s t ∧
    EventsOnly s t ∧ (∃ u, exec (.postedWriteDone 0x090000) t = .next u ∧
    u.aio n = { s.aio n with cal := none, step := (s.aio n).trimStep, why := 0 } ∧
    (∀ k, k ≠ n.val → u.aio k = s.aio k) ∧ OnlyChanges [.fio, .posted, .tly, .hif, .outbox] s u)) ∧
  (∀ (s : State) (n : Fin 16) (i : Instr) (hi : Bool), i = (if hi then .driveHi n else .driveLo n) → Settled s → s.regLive (Reg.fioAioTrimcmd + 0x40 * n.val) = true →
    (s.posted.look 0x090000 {}).busy = none → s.aioSet n = true → s.trimBarred n = false → 
    ∃ t, exec i s = .next t ∧ OnlyChanges [.posted, .hif, .outbox] s t ∧
    EventsOnly s t ∧ (∃ u, exec (.postedWriteDone 0x090000) t = .next u ∧
    (s.aioOut n = false → u.aio n = { s.aio n with step := 4, why := 5 }) ∧
    (s.aioOut n = true → (u.aio n).cmd = (if hi then 200000 else 40000) ∧ (u.aio n).step = 5 ∧ (u.aio n).driven = true ∧
      (u.aio n).trimActive = true ∧ Out.aio n (if hi then 200000 else 40000) ∈ u.outbox) ∧
    (∀ k, k ≠ n.val → u.aio k = s.aio k) ∧ OnlyChanges [.fio, .posted, .hif, .outbox] s u)) ∧
  (∀ (s : State) (n : Fin 16), s.hartRuns n = true → s.hartDevs n ≠ 0 → ∃ t, exec (.hartPoll n) s = .next t ∧
    (s.hartBusy n = false → t.hartBusy n = true ∧ ∃ q, t.outbox = s.outbox ++ [.hart n q]) ∧
    (s.hartBusy n = true → n.val ∈ t.fio.hart.due ∧ t.outbox = s.outbox ∧ t.fio.hart.run = s.fio.hart.run) ∧
    t.fio.aio = s.fio.aio ∧ OnlyChanges [.fio, .outbox] s t) ∧
  (∀ (s : State) (v : Word), Settled s → s.regLive Reg.fioHartHctl = true → (s.posted.look 0x090000 {}).busy = none →
    ∃ t, exec (.hartHctlGo v) s = .next t ∧ OnlyChanges [.posted, .hif, .outbox] s t ∧ EventsOnly s t ∧ (∃ u, exec (.postedWriteDone 0x090000) t = .next u ∧
    (s.fio.hart.hstat = 1 → u.fio.hart = { s.fio.hart with lost := s.fio.hart.lost + 1 } ∧ u.regs = s.regs ∧
      u.sys.accAddr = wordOf [(2, Reg.fioHartHctl / 4 % 2 ^ 22), (24, 0)]) ∧
    (s.fio.hart.hstat ≠ 1 → s.hartRuns (bits v 0 4) = false → u.fio.hart.hstat = 3 ∧ u.fio.hart.why = 3) ∧
    (s.fio.hart.hstat ≠ 1 → s.hartRuns (bits v 0 4) = true → bits v 8 8 = 0 → u.fio.hart.hstat = 3 ∧ u.fio.hart.why = 4) ∧
    (s.fio.hart.hstat ≠ 1 → s.hartRuns (bits v 0 4) = true → bits v 8 8 ≠ 0 → u.fio.hart.hstat = 1 ∧
      u.hartBusy (bits v 0 4) = true) ∧ u.fio.aio = s.fio.aio ∧ OnlyChanges [.sys, .fio, .regs, .posted, .hif, .outbox] s u)) ∧
  (∀ (s : State) (n : Fin 16) (out : HartEnd) (r : Nat) (d : Nat), s.hartRuns n = true → s.fio.hart.run.find n = some (2, d) →
    ∃ t, exec (.hartTransactionEnd n out r) s = .next t ∧ (t.aio n).hRetries = (s.aio n).hRetries + BitVec.ofNat 8 r ∧
    (∀ b, out = .answer b → t.fio.hart.hstat = 2 ∧ t.fio.hart.bytes = BitVec.ofNat 8 b.length ∧
      (t.aio n).hFailed = (s.aio n).hFailed) ∧
    (out = .silent → t.fio.hart.hstat = 3 ∧ t.fio.hart.why = 1 ∧ (t.aio n).hFailed = (s.aio n).hFailed + 1) ∧
    (out = .checkByte → t.fio.hart.hstat = 3 ∧ t.fio.hart.why = 2 ∧ (t.aio n).hFailed = (s.aio n).hFailed + 1) ∧ OnlyChanges [.fio, .outbox] s t) ∧
  (∀ (s : State) (n : Fin 16) (r : Nat) (d : Nat) (b : List Byte), s.hartRuns n = true → s.fio.hart.run.find n = some (0, d) →
    ∃ t, exec (.hartTransactionEnd n (.answer b) r) s = .next t ∧ (t.aio n).vals.look d [] = b.take 18 ∧
    (t.aio n).answered.look d 0 = s.sys.opNs ∧ (t.aio n).absent.look d 0 = 0 ∧ (d < 8 → (t.aio n).devs.getLsbD d = true) ∧
    (∀ k, k ≠ n.val → t.aio k = s.aio k) ∧ OnlyChanges [.fio, .outbox] s t) ∧
  (∀ (s : State) (n : Fin 16) (r : Nat) (d : Nat), s.hartRuns n = true → s.fio.hart.run.find n = some (0, d) →
    2 ≤ (s.aio n).absent.look d 0 → ∃ t, exec (.hartTransactionEnd n .silent r) s = .next t ∧ (t.aio n).devs.getLsbD d = false ∧
    (t.aio n).vals = (s.aio n).vals ∧ (t.aio n).answered = (s.aio n).answered ∧ OnlyChanges [.fio, .outbox] s t) ∧
  (∀ (s : State) (n : Fin 16) (b : List Byte), s.hartRuns n = true → ∃ t, exec (.hartBurstMessage n b) s = .next t ∧
    t.fio.hart.burst.look n [] = b ∧ t.fio.aio = s.fio.aio ∧ OnlyChanges [.fio] s t) ∧
  (∀ (s : State) (n : Fin 16) (b : List Byte), s.hartRuns n = false → exec (.hartBurstMessage n b) s = .next s)

/-- A mismatch or an overcurrent of an output, a failed dark test, a full discrepancy count, a disagreement of the two parts and a
lost supply each set both latches and open every safety output; the first cause is kept with its input or output, and counted; a
later one leaves it. A wrong challenge answer also ends SP and halts a module outside the settle window. A passed dark test, a
stuck reset and a test pulse latch nothing. The supply cause ends at 19.0 V. -/
def Obligations.SafetyFaultsLatchTheLockOut : Prop :=
  (∀ (s : State) (k : Fin 4), Settled s → s.safRuns = true → s.soSet k = true → (s.so k).outFault = false →
    ∃ t, exec (.outFault k) s = .next t ∧ SafetyOff t ∧ t.saf.sel.set = true ∧ t.saf.sp.set = true ∧ t.saf.isPresent 7 = true ∧
    (t.so k).outFault = true ∧ (t.so k).faults = (s.so k).faults + 1 ∧
    (s.saf.sel.set = false → s.saf.sp.set = false → t.saf.cause = 7 ∧ t.saf.infoKind = 2 ∧ t.saf.infoIndex = BitVec.ofNat 6 k ∧
      t.saf.infoSp = true ∧ t.saf.cntLock = s.saf.cntLock + 1) ∧
    (s.saf.sel.set = true ∨ s.saf.sp.set = true → t.saf.cause = s.saf.cause ∧ t.saf.cntLock = s.saf.cntLock) ∧
    OnlyChanges [.saf, .tly, .hif, .outbox] s t ∧ EventsOnly s t) ∧
  (∀ (s : State) (k : Fin 4), Settled s → s.safRuns = true → s.soSet k = true → (s.so k).overcur = false →
    ∃ t, exec (.overcurrent k) s = .next t ∧ SafetyOff t ∧ t.saf.sel.set = true ∧ t.saf.sp.set = true ∧ t.saf.isPresent 8 = true ∧
    (t.so k).overcur = true ∧ (t.so k).faults = (s.so k).faults + 1 ∧
    (s.saf.sel.set = false → s.saf.sp.set = false → t.saf.cause = 8 ∧ t.saf.infoKind = 2 ∧ t.saf.infoIndex = BitVec.ofNat 6 k) ∧
    OnlyChanges [.saf, .tly, .hif, .outbox] s t ∧ EventsOnly s t) ∧
  (∀ (s : State) (k : Fin 4), (s.so k).outFault = true → exec (.outFault k) s = .next s) ∧
  (∀ (s : State) (k : Fin 4), (s.so k).overcur = true → exec (.overcurrent k) s = .next s) ∧
  (∀ (s : State) (k : Fin 4), Settled s → s.safRuns = true → (s.so k).hs = true → (s.so k).ls = true →
    bits (s.soCfg k) 16 12 ≠ 0 → ∃ t, exec (.darkTest k true) s = .next t ∧ (t.so k).darkLow = !(s.so k).darkLow ∧
    (t.so k).hs = true ∧ (t.so k).ls = true ∧ (t.so k).darkFail = (s.so k).darkFail ∧ t.saf.sel = s.saf.sel ∧ t.saf.sp = s.saf.sp ∧
    (∀ j, j ≠ k.val → t.so j = s.so j) ∧ OnlyChanges [.saf] s t) ∧
  (∀ (s : State) (k : Fin 4), Settled s → s.safRuns = true → (s.so k).hs = true → (s.so k).ls = true →
    bits (s.soCfg k) 16 12 ≠ 0 → ∃ t, exec (.darkTest k false) s = .next t ∧ SafetyOff t ∧ t.saf.sel.set = true ∧
    t.saf.sp.set = true ∧ t.saf.isPresent 7 = true ∧ (t.so k).darkFail = (s.so k).darkFail + 1 ∧ (t.so k).outFault = true ∧
    OnlyChanges [.saf, .tly, .hif, .outbox] s t ∧ EventsOnly s t) ∧
  (∀ (s : State) (k : Fin 4) (ok : Bool), (s.so k).hs = false ∨ (s.so k).ls = false ∨ bits (s.soCfg k) 16 12 = 0 →
    exec (.darkTest k ok) s = .next s) ∧
  (∀ (s : State) (i : Fin 8), Settled s → s.safRuns = true → s.saf.selRun = true → siType (s.siCfg i) ≠ 0 →
    (s.saf.si.look i {}).disagree (s.siCfg i) = true → (s.saf.si.look i {}).tripped = false →
    ∃ t, exec (.discrepancy i) s = .next t ∧ SafetyOff t ∧ t.saf.sel.set = true ∧ t.saf.sp.set = true ∧ t.saf.isPresent 4 = true ∧
    t.saf.si.look i {} = { s.saf.si.look i {} with
      disc := bits (s.siCfg i) 16 15, tripped := true, cTrip := (s.saf.si.look i {}).cTrip + 1 } ∧
    (s.saf.sel.set = false → s.saf.sp.set = false → t.saf.cause = 4 ∧ t.saf.infoKind = 1 ∧ t.saf.infoIndex = BitVec.ofNat 6 i ∧
      t.saf.infoSp = false) ∧ OnlyChanges [.saf, .tly, .hif, .outbox] s t ∧ EventsOnly s t) ∧
  (∀ (s : State) (i : Fin 8), (s.saf.si.look i {}).disagree (s.siCfg i) = false ∨ (s.saf.si.look i {}).tripped = true →
    exec (.discrepancy i) s = .next s) ∧
  (∀ (s : State) (d : Disagree), Settled s → s.safRuns = true → ∃ t, exec (.agree d) s = .next t ∧ SafetyOff t ∧
    t.saf.sel.set = true ∧ t.saf.sp.set = true ∧ t.saf.isPresent 9 = true ∧
    (s.saf.sel.set = false → s.saf.sp.set = false → t.saf.cause = 9 ∧ t.saf.infoSp = true) ∧
    (∀ (i : Fin 8) (c : Bool), d = .channel i c → (t.saf.si.look i {}).agree = true) ∧ OnlyChanges [.saf, .tly, .hif, .outbox] s t ∧ EventsOnly s t) ∧
  (∀ s : State, s.running = true → s.saf.started = true → s.saf.selRun = true → s.settling = false → s.sys.mode ≠ .faultHalt →
    ∃ t, exec (.selvedgeChallenge false) s = .next t ∧ t.saf.spRun = false ∧ SafetyOff t ∧ t.saf.sel.set = true ∧
    t.saf.sp.set = true ∧ t.saf.isPresent 11 = true ∧ t.sys.mode = .faultHalt ∧ t.sys.primary = false ∧ t.sys.haltCause = 7 ∧
    OnlyChanges [.sys, .hif, .cyc, .lsp, .dpx, .dpx2, .can, .canq, .fio, .saf, .tly, .mm, .outbox] s t) ∧
  (∀ s : State, exec (.selvedgeChallenge true) s = .next s) ∧
  (∀ s : State, Settled s → s.safRuns = true → s.saf.rst = true → s.saf.sel.stuck = false → ∃ t, exec .resetStuck s = .next t ∧
    t.saf.sel.stuck = true ∧ t.saf.sp.stuck = true ∧ t.saf.sel.set = s.saf.sel.set ∧ t.saf.sp.set = s.saf.sp.set ∧
    t.saf.cntStuck = s.saf.cntStuck + 1 ∧ t.saf.cause = s.saf.cause ∧ t.saf.so = s.saf.so ∧ OnlyChanges [.saf, .tly] s t) ∧
  (∀ s : State, s.saf.rst = false ∨ s.saf.sel.stuck = true → exec .resetStuck s = .next s) ∧
  (∀ (s : State) (b : Bool), s.safRuns = true → s.saf.selRun = true → ∃ t, exec (.testPulse b) s = .next t ∧
    t.saf.pulses = s.saf.pulses + 1 ∧ t.saf.pulseNo = (if b then 2 else 1) ∧ t.saf.tp1 = (s.saf.tp1 && b) ∧
    t.saf.tp2 = (s.saf.tp2 && !b) ∧ t.saf.sel = s.saf.sel ∧ t.saf.so = s.saf.so ∧
    t.outbox = s.outbox ++ [.tp (if b then 2 else 1) false] ∧ OnlyChanges [.saf, .outbox] s t) ∧
  (∀ (s : State) (mv : BitVec 16), Settled s → s.safRuns = true → s.saf.supplyBad = false → mv.toNat < 18000 →
    ∃ t, exec (.supply mv) s = .next t ∧ SafetyOff t ∧ t.saf.sel.set = true ∧ t.saf.sp.set = true ∧ t.saf.isPresent 10 = true ∧
    t.saf.supplyBad = true ∧ t.pwr = { s.pwr with sfeedMv := mv } ∧ OnlyChanges [.saf, .pwr, .tly, .hif, .outbox] s t ∧ EventsOnly s t) ∧
  (∀ (s : State) (mv : BitVec 16), Settled s → s.powered = true → 19000 ≤ mv.toNat → ∃ t, exec (.supply mv) s = .next t ∧
    t.saf = { s.saf.setPresent 10 false with supplyBad := false } ∧ t.pwr = { s.pwr with sfeedMv := mv } ∧ OnlyChanges [.saf, .pwr] s t) ∧
  (∀ (s : State) (mv : BitVec 16), s.powered = true → 18000 ≤ mv.toNat → mv.toNat < 19000 →
    exec (.supply mv) s = .next { s with pwr := { s.pwr with sfeedMv := mv } })

/-- A Selvedge sample outside a pulse takes each channel as read; with FILT up to 1 its input is in its go state exactly as R371
says. A disagreement counts and agreement clears the count; the count N trips, latches and opens every output, whatever reset
edge the sample holds. A qualified release clears the Selvedge latch where no cause is present, and is refused where one is.
Afterwards a low-side switch is closed only with its permit, a clear latch and a mode that allows it; the same holds of the
high-side switches after an SP cycle, which also writes only the CAN queues that SP owns. -/
def Obligations.SamplesResetsAndTheSafetyOutputs : Prop :=
  (∀ (s : State) (x sp : Samp), Settled s → s.safRuns = true → s.saf.selRun = true → ∃ t, exec (.selvedgeSample x sp) s = .next t ∧
    (∀ k : Fin 4, (t.so k).ls = true → t.saf.sel.set = false ∧ t.selPermits k = true ∧ t.soMode k = true ∧ t.soSet k = true) ∧
    (∀ i : Fin 8, s.saf.pulseNo = 0 → siType (s.siCfg i) ≠ 0 → (t.saf.si.look i {}).a.v = x.a.getLsbD i ∧
      (t.saf.si.look i {}).b.v = x.b.getLsbD i) ∧
    (∀ i : Fin 8, s.saf.pulseNo = 0 → bits (s.siCfg i) 4 4 ≤ 1 → siType (s.siCfg i) = 1 →
      (t.saf.si.look i {}).go = (x.a.getLsbD i && x.b.getLsbD i)) ∧
    (∀ i : Fin 8, s.saf.pulseNo = 0 → bits (s.siCfg i) 4 4 ≤ 1 → siType (s.siCfg i) = 2 →
      (t.saf.si.look i {}).go = (x.a.getLsbD i && !x.b.getLsbD i)) ∧
    (∀ i : Fin 8, s.saf.pulseNo = 0 → (siType (s.siCfg i) = 1 ∧ x.a.getLsbD i = x.b.getLsbD i) ∨
      (siType (s.siCfg i) = 2 ∧ x.a.getLsbD i ≠ x.b.getLsbD i) → (t.saf.si.look i {}).disc = 0) ∧
    (∀ i : Fin 8, s.saf.pulseNo = 0 → (siType (s.siCfg i) = 1 ∧ x.a.getLsbD i ≠ x.b.getLsbD i) ∨
      (siType (s.siCfg i) = 2 ∧ x.a.getLsbD i = x.b.getLsbD i) → (s.saf.si.look i {}).tripped = false →
      ((s.saf.si.look i {}).disc + 1 < bits (s.siCfg i) 16 15 →
        (t.saf.si.look i {}).disc = (s.saf.si.look i {}).disc + 1 ∧ (t.saf.si.look i {}).tripped = false) ∧
      ((s.saf.si.look i {}).disc + 1 = bits (s.siCfg i) 16 15 → (t.saf.si.look i {}).tripped = true ∧ t.saf.sel.set = true ∧
        t.saf.sp.set = true ∧ t.saf.isPresent 4 = true ∧ SafetyOff t)) ∧
    (x.rst = false → 800 ≤ s.saf.sel.press → s.saf.sel.press ≤ 12000 → s.saf.sel.stuck = false →
      (t.saf.present = 0 → t.saf.sel.set = false ∧ t.saf.cntAcc = s.saf.cntAcc + 1 ∧ t.saf.cntRef = s.saf.cntRef) ∧
      (t.saf.present ≠ 0 → t.saf.cntRef = s.saf.cntRef + 1 ∧ t.saf.cntAcc = s.saf.cntAcc ∧
        (s.saf.sel.set = true → t.saf.sel.set = true))) ∧
    (x.rst = false → s.saf.sel.press < 800 ∨ s.saf.sel.stuck = true → t.saf.cntAcc = s.saf.cntAcc ∧ t.saf.cntRef = s.saf.cntRef ∧
      (s.saf.sel.set = true → t.saf.sel.set = true)) ∧ (x.rst = false → t.saf.sel.stuck = false ∧ t.saf.sel.press = 0) ∧
    t.saf.rst = x.rst ∧ OnlyChanges [.saf, .tly, .hif, .outbox] s t ∧ EventsOnly s t) ∧
  (∀ (s : State) (x sp : Samp), s.safRuns = false ∨ s.saf.selRun = false → exec (.selvedgeSample x sp) s = .next s) ∧
  (∀ (s : State) (r : SpRun), Settled s → s.safRuns = true → s.saf.spRun = true → r.selBad = false → r.diag = false →
    ∃ t, exec (.spCycle r) s = .next t ∧
    (∀ k : Fin 4, (t.so k).hs = true → t.saf.sp.set = false ∧ r.permits.getLsbD k = true ∧ t.soMode k = true ∧ t.soSet k = true) ∧
    (∀ k : Fin 4, (t.so k).ls = (s.so k).ls) ∧ t.saf.spCyc = r.us ∧ t.saf.spQual = false ∧
    (s.saf.spQual = true → t.saf.present = 0 → t.saf.sp.set = false) ∧ t.saf.sel.set = s.saf.sel.set ∧
    (s.saf.spQual = false → t.saf.sp.set = s.saf.sp.set) ∧
    (∀ c : Fin 8, bits (s.canCfg c) 3 1 = 0 → t.canQ c = s.canQ c) ∧ OnlyChanges [.can, .canq, .saf, .tly, .hif, .outbox] s t ∧ EventsOnly s t) ∧
  (∀ (s : State) (r : SpRun), s.safRuns = false ∨ s.saf.spRun = false → exec (.spCycle r) s = .next s)

/-- A PDU of a wrong length, a wrong CRC or a SEQ outside 1 to 64 beyond the last is counted by kind and delivers nothing. One that
passes becomes the baseline of a connection in START, delivers its data from the second on, or fail-safe values with FSV; two
good ones in a row take a failed connection to WAIT_ACK, or straight to OK with ACK_AUTO. An end that does not send sets the
deadline to WD after the arrival. A deadline that passes fails the connection with zeros, is counted, and latches no lock-out.
The CRC has its check value. -/
def Obligations.SafeChannelPdusAreCheckedAndTimed : Prop :=
  crcWsc [0x31, 0x32, 0x33, 0x34, 0x35, 0x36, 0x37, 0x38, 0x39] = 0x1697D06A ∧
  (∀ (s : State) (n : Fin 64) (p : List Byte) (q : BitVec 16), s.safRuns = true → (s.wscCfg n).en = true →
    fieldN p 5 1 ≠ (s.wscCfg n).len ∨ p.length ≠ 10 + (s.wscCfg n).len → ∃ t, exec (.wscPduReceive n p q) s = .next t ∧
    (t.wsc n).eLen = (s.wsc n).eLen + 1 ∧ (t.wsc n).state = (s.wsc n).state ∧ (t.wsc n).data = (s.wsc n).data ∧
    (t.wsc n).lastSeq = (s.wsc n).lastSeq ∧ (t.wsc n).deadline = (s.wsc n).deadline ∧ (∀ m, m ≠ n.val → t.wsc m = s.wsc m) ∧
    t.saf = { s.saf with wsc := t.saf.wsc } ∧ OnlyChanges [.saf] s t) ∧
  (∀ (s : State) (n : Fin 64) (p : List Byte) (q : BitVec 16), s.safRuns = true → (s.wscCfg n).en = true →
    fieldN p 5 1 = (s.wscCfg n).len → p.length = 10 + (s.wscCfg n).len →
    fieldN p (6 + (s.wscCfg n).len) 4 ≠ (wscCrc (s.wscCfg n).id (s.wscCfg n).len p).toNat →
    ∃ t, exec (.wscPduReceive n p q) s = .next t ∧ (t.wsc n).eCrc = (s.wsc n).eCrc + 1 ∧ (t.wsc n).state = (s.wsc n).state ∧
    (t.wsc n).data = (s.wsc n).data ∧ (t.wsc n).deadline = (s.wsc n).deadline ∧ (∀ m, m ≠ n.val → t.wsc m = s.wsc m) ∧ OnlyChanges [.saf] s t) ∧
  (∀ (s : State) (n : Fin 64) (p : List Byte) (q : BitVec 16), s.safRuns = true → (s.wscCfg n).en = true →
    fieldN p 5 1 = (s.wscCfg n).len → p.length = 10 + (s.wscCfg n).len → (s.wsc n).state ≠ 1 →
    fieldN p (6 + (s.wscCfg n).len) 4 = (wscCrc (s.wscCfg n).id (s.wscCfg n).len p).toNat →
    BitVec.ofNat 16 (fieldN p 0 2) = (s.wsc n).lastSeq ∨ 64 < (BitVec.ofNat 16 (fieldN p 0 2) - (s.wsc n).lastSeq).toNat →
    ∃ t, exec (.wscPduReceive n p q) s = .next t ∧ (t.wsc n).eSeq = (s.wsc n).eSeq + 1 ∧ (t.wsc n).state = (s.wsc n).state ∧
    (t.wsc n).data = (s.wsc n).data ∧ (t.wsc n).deadline = (s.wsc n).deadline ∧ (∀ m, m ≠ n.val → t.wsc m = s.wsc m) ∧ OnlyChanges [.saf] s t) ∧
  (∀ (s : State) (n : Fin 64) (p : List Byte) (q : BitVec 16), s.safRuns = true → (s.wscCfg n).en = true → s.wscCheck n p = 0 →
    ∃ t, exec (.wscPduReceive n p q) s = .next t ∧ (t.wsc n).lastSeq = BitVec.ofNat 16 (fieldN p 0 2) ∧
    (t.wsc n).ackSeq = BitVec.ofNat 16 (fieldN p 2 2) ∧
    ((s.wsc n).state = 1 → (s.wsc n).valid = 0 → (t.wsc n).state = 1 ∧ (t.wsc n).valid = 1 ∧ (t.wsc n).data = (s.wsc n).data) ∧
    ((s.wsc n).state = 1 → (s.wsc n).valid ≠ 0 → (t.wsc n).state = 2) ∧
    ((s.wsc n).state = 2 → (t.wsc n).state = 2) ∧
    ((s.wsc n).state = 2 ∨ ((s.wsc n).state = 1 ∧ (s.wsc n).valid ≠ 0) → fieldN p 4 1 % 2 = 0 →
      (t.wsc n).data = slice p 6 (s.wscCfg n).len ∧ (t.wsc n).fsv = false) ∧
    ((s.wsc n).state = 2 ∨ ((s.wsc n).state = 1 ∧ (s.wsc n).valid ≠ 0) → fieldN p 4 1 % 2 = 1 →
      (∀ b ∈ (t.wsc n).data, b = 0) ∧ (t.wsc n).fsv = true) ∧
    ((s.wsc n).state = 3 → fieldN p 4 1 % 2 = 1 ∨ (s.wsc n).valid = 0 → (t.wsc n).state = 3 ∧ (t.wsc n).data = (s.wsc n).data) ∧
    ((s.wsc n).state = 3 → fieldN p 4 1 % 2 = 0 → (s.wsc n).valid = 1 →
      (t.wsc n).state = (if (s.wscCfg n).ackAuto then 2 else 4)) ∧
    (s.wscSends = false → (t.wsc n).deadline = some (s.sys.opNs + (s.wscCfg n).wd * 1000000)) ∧
    (∀ m, m ≠ n.val → t.wsc m = s.wsc m) ∧ OnlyChanges [.saf] s t) ∧
  (∀ (s : State) (n : Fin 64) (p : List Byte) (q : BitVec 16), s.safRuns = false ∨ (s.wscCfg n).en = false →
    exec (.wscPduReceive n p q) s = .next s) ∧
  (∀ (s : State) (n : Fin 64), s.safRuns = true → (s.wscCfg n).en = true → (s.wsc n).deadline.isSome = true → (s.wsc n).state ≠ 3 →
    ∃ t, exec (.wscDeadline n) s = .next t ∧ (t.wsc n).state = 3 ∧ (t.wsc n).fsv = true ∧ (t.wsc n).eWd = (s.wsc n).eWd + 1 ∧
    (t.wsc n).data = List.replicate (s.wscCfg n).len 0 ∧ (t.wsc n).deadline = none ∧ t.saf.sel = s.saf.sel ∧ t.saf.sp = s.saf.sp ∧
    t.saf.so = s.saf.so ∧ (∀ m, m ≠ n.val → t.wsc m = s.wsc m) ∧ OnlyChanges [.saf, .tly] s t) ∧
  (∀ (s : State) (n : Fin 64), (s.wsc n).deadline = none ∨ (s.wsc n).state = 3 → exec (.wscDeadline n) s = .next s)

/-- A write takes the next record that may be written from the queue: it stands sealed in its region afterwards, or it is counted as
dropped or as lost audit. With no page left that it may overwrite, the log keeps its records. Under PFAIL a record below
severity 5 stays queued unless its write has begun. Writes of TLY_RDSEQ and of the clear key act when the posted write is done,
and are lost while the block is busy. A lookup copies the record found or finds none, and changes no record. The complete clear
key clears exactly the sealed log records of the range and counts, or leaves its reason; where the mode needs a token the key is
a sequence error. -/
def Obligations.TallyRecordsAreSealedReadAndCleared : Prop :=
  (∀ (s : State) (r : TRec), Settled s → s.running = true → s.tly.isOpen = true → s.tly.next s.pwr.pfail = some r →
    ∃ t, exec .tallyWrite s = .next t ∧ t.tly.queue = s.tly.queue.filter (fun q => q.seq != r.seq) ∧
    (t.tly.holds r = true ∨ (r.sev ≠ 7 ∧ t.tly.drop = s.tly.drop + 1) ∨ (r.sev = 7 ∧ t.tly.auditLost = s.tly.auditLost + 1)) ∧
    (r.sev ≠ 7 → t.tly.audit = s.tly.audit) ∧ (r.sev = 7 → t.tly.log = s.tly.log) ∧
    (r.sev ≠ 7 → s.tly.intoOpen false r = none → s.tly.freePages false = 0 → s.tly.victim r.sev = none →
      t.tly.drop = s.tly.drop + 1 ∧ sealedRecs t.tly.log = sealedRecs s.tly.log) ∧
    (r.sev ≠ 7 → 0 < s.tly.freePages false → t.tly.holds r = true ∧ t.tly.drop = s.tly.drop ∧ t.tly.ovw = s.tly.ovw) ∧
    t.tly.seq = s.tly.seq ∧ OnlyChanges [.tly, .hif, .outbox, .freeN] s t ∧ EventsOnly s t) ∧
  (∀ s : State, Settled s → s.tly.next s.pwr.pfail = none → exec .tallyWrite s = .next s) ∧
  (∀ s : State, s.running = false ∨ s.tly.isOpen = false → exec .tallyWrite s = .next s) ∧
  (∀ (s : State) (r : TRec), s.pwr.pfail = true → s.tly.writing = none → s.tly.next s.pwr.pfail = some r → 5 ≤ r.sev) ∧
  (∀ (s : State) (v : Word), Settled s → s.reach = true → (s.posted.look 0x0B0000 {}).busy = none → 
    ∃ t, exec (.tlyRdseq v) s = .next t ∧ OnlyChanges [.posted, .hif, .outbox] s t ∧ EventsOnly s t ∧ (∃ u, exec (.postedWriteDone 0x0B0000) t = .next u ∧
    (∀ r, s.tly.lookup ((s.reg Reg.tlyRdreg).getLsbD 0) v = some r → u.tly.found = true ∧ u.tly.later = decide (r.seq ≠ v) ∧
      u.tly.rdLen = BitVec.ofNat 8 r.len ∧ u.tly.rdBuf = padTo 1024 r.bytes) ∧
    (s.tly.lookup ((s.reg Reg.tlyRdreg).getLsbD 0) v = none → u.tly.found = false ∧ u.tly.rdLen = 0 ∧ u.tly.rdBuf = []) ∧
    u.tly.log = s.tly.log ∧ u.tly.audit = s.tly.audit ∧ u.tly.queue = s.tly.queue ∧
    OnlyChanges [.tly, .regs, .posted, .hif, .outbox] s u)) ∧
  (∀ (s : State) (v : Word) (i : Instr), i = .tlyRdseq v ∨ i = .tlyClrkey v → Settled s → s.reach = true →
    (s.posted.look 0x0B0000 {}).busy.isSome = true → ∃ t, exec i s = .next t ∧
    (t.posted.look 0x0B0000 {}).lostwr = (s.posted.look 0x0B0000 {}).lostwr + 1 ∧ t.regs = s.regs ∧ t.tly.log = s.tly.log ∧
    OnlyChanges [.sys, .posted, .tly, .hif, .outbox] s t ∧ EventsOnly s t) ∧
  (∀ (s : State) (v : Word), Settled s → s.reach = true → (s.posted.look 0x0B0000 {}).busy = none →
    needsToken false s.sys.mode = true ∨ (s.tly.clrKey = none ∧ v ≠ 0x0000C1EA) → 
    ∃ t, exec (.tlyClrkey v) s = .next t ∧ OnlyChanges [.posted, .hif, .outbox] s t ∧ EventsOnly s t ∧ (∃ u, exec (.postedWriteDone 0x0B0000) t = .next u ∧
    u.sys.seqErr = s.sys.seqErr + 1 ∧ u.tly.clrKey = none ∧ u.tly.log = s.tly.log ∧ u.tly.clears = s.tly.clears ∧
    OnlyChanges [.sys, .tly, .posted, .hif, .outbox] s u)) ∧
  (∀ s : State, Settled s → s.reach = true → (s.posted.look 0x0B0000 {}).busy = none → needsToken false s.sys.mode = false →
    s.tly.clrKey = none → ∃ t, exec (.tlyClrkey 0x0000C1EA) s = .next t ∧ OnlyChanges [.posted, .hif, .outbox] s t ∧ EventsOnly s t ∧ (∃ u, exec (.postedWriteDone 0x0B0000) t = .next u ∧
    u.tly = { s.tly with clrKey := some s.sys.opNs } ∧ OnlyChanges [.tly, .posted, .hif, .outbox] s u)) ∧
  (∀ (s : State) (t0 : Nat), Settled s → s.reach = true → (s.posted.look 0x0B0000 {}).busy = none →
    needsToken false s.sys.mode = false → s.tly.clrKey = some t0 → s.sys.opNs ≤ t0 + 1000000 →
    ∃ t, exec (.tlyClrkey 0x0000AE1C) s = .next t ∧ OnlyChanges [.posted, .hif, .outbox] s t ∧ EventsOnly s t ∧ (∃ u, exec (.postedWriteDone 0x0B0000) t = .next u ∧
    u.tly.clrKey = none ∧
    u.tly.clrReason = BitVec.ofNat 8 (s.tly.clearReason false (s.reg Reg.tlyClrFrom) (s.reg Reg.tlyClrTo)) ∧
    u.tly.audit = s.tly.audit ∧
    (s.tly.clearReason false (s.reg Reg.tlyClrFrom) (s.reg Reg.tlyClrTo) ≠ 0 → u.tly.log = s.tly.log ∧
      u.tly.clrRefused = s.tly.clrRefused + 1 ∧ u.tly.clears = s.tly.clears) ∧
    (s.tly.clearReason false (s.reg Reg.tlyClrFrom) (s.reg Reg.tlyClrTo) = 0 → u.tly.clears = s.tly.clears + 1 ∧
      (∀ q : TRec, q ∈ sealedRecs u.tly.log ↔ q ∈ sealedRecs s.tly.log ∧ seqIn (s.reg Reg.tlyClrFrom) (s.reg Reg.tlyClrTo) q.seq = false)) ∧
    OnlyChanges [.tly, .posted, .hif, .outbox] s u))

/-- Rinse of a clean line moves to the next, and ends the pass after the last. One symbol in error without a marked device is
corrected and counted with its device and its line is due for write-back; three or four are uncorrectable, which rinse counts
and records without failing the module. A write-back leaves the line's codewords good. Sweep and scrub count; a double error of
SRAM halts a module outside the settle window, one of MRAM is counted. MEM_INJ_CTRL arms only in TEST; elsewhere the write is a
write to a read-only register. -/
def Obligations.MemoryErrorsAreCorrectedCountedOrFatal : Prop :=
  (∀ (s : State) (b : Bool) (m0 m1 : Option (List Nat)), Settled s → s.rinses = true → s.mm.bad.look (64 * s.mm.pos) [] = [] →
    s.mm.bad.look (64 * s.mm.pos + 32) [] = [] → ∃ t, exec (.rinseRead [] [] m0 m1 b) s = .next t ∧
    (s.mm.pos + 1 < 2 ^ 28 → t.mm = { s.mm with pos := s.mm.pos + 1, behind := b }) ∧
    (2 ^ 28 ≤ s.mm.pos + 1 → t.mm.pos = 0 ∧ t.mm.passes = s.mm.passes + 1 ∧ t.mm.passCe = 0 ∧ t.mm.passUe = 0 ∧
      t.mm.lastCe = BitVec.ofNat 16 (sat 16 s.mm.passCe)) ∧ OnlyChanges [.mm] s t) ∧
  (∀ (s : State) (b : Bool) (m0 m1 : Option (List Nat)) (x : Nat), x < 38 → Settled s → s.rinses = true →
    s.mm.bad.look (64 * s.mm.pos) [] = [] → s.mm.bad.look (64 * s.mm.pos + 32) [] = [] → s.mm.markDev = none →
    s.mm.pos + 1 < 2 ^ 28 → ∃ t, exec (.rinseRead [x] [] m0 m1 b) s = .next t ∧ t.mm.ceCnt = s.mm.ceCnt + 1 ∧
    t.mm.ceAddr = 64 * s.mm.pos ∧ t.mm.dev0 = BitVec.ofNat 5 (x / 2) ∧ t.mm.dev1 = 31 ∧ t.mm.ceRinse = true ∧
    s.mm.pos ∈ t.mm.wbPend ∧ t.mm.ueCnt = s.mm.ueCnt ∧ (t.mm.devs.look (x / 2) {}).boot = (s.mm.devs.look (x / 2) {}).boot + 1 ∧
    t.mm.pos = s.mm.pos + 1 ∧ t.sys.mode = s.sys.mode ∧ OnlyChanges [.mm, .tly, .hif, .outbox] s t ∧ EventsOnly s t) ∧
  (∀ (s : State) (b : Bool) (m0 m1 : Option (List Nat)) (e : List Nat), e.length = 3 ∨ e.length = 4 → Settled s → s.rinses = true →
    s.mm.bad.look (64 * s.mm.pos) [] = [] → s.mm.bad.look (64 * s.mm.pos + 32) [] = [] → s.mm.markDev = none →
    s.mm.pos + 1 < 2 ^ 28 → ∃ t, exec (.rinseRead e [] m0 m1 b) s = .next t ∧ t.mm.ueCnt = s.mm.ueCnt + 1 ∧
    t.mm.ueAddr = 64 * s.mm.pos ∧ t.mm.ueRinse = true ∧ t.mm.ceCnt = s.mm.ceCnt ∧ t.mm.passUe = s.mm.passUe + 1 ∧
    t.sys.mode = s.sys.mode ∧ t.mm.pos = s.mm.pos + 1 ∧ s.mm.pos ∉ t.mm.wbPend ∧ OnlyChanges [.mm, .tly] s t) ∧
  (∀ (s : State) (e0 e1 : List Nat) (m0 m1 : Option (List Nat)) (b : Bool), s.rinses = false →
    exec (.rinseRead e0 e1 m0 m1 b) s = .next s) ∧
  (∀ (s : State) (l : Nat), s.running = true → l ∈ s.mm.wbPend → s.mm.inj.find l = none →
    ∃ t, exec (.correctedWriteBack l) s = .next t ∧ t.mm.bad.look (64 * l) [] = [] ∧ t.mm.bad.look (64 * l + 32) [] = [] ∧
    l ∉ t.mm.wbPend ∧ (∀ a, a ≠ 64 * l → a ≠ 64 * l + 32 → t.mm.bad.look a [] = s.mm.bad.look a []) ∧
    t.mm = { s.mm with bad := t.mm.bad, wbPend := t.mm.wbPend } ∧ OnlyChanges [.mm] s t) ∧
  (∀ (s : State) (l : Nat), l ∉ s.mm.wbPend → exec (.correctedWriteBack l) s = .next s) ∧
  (∀ (s : State) (ce re : Nat), Settled s → s.running = true → exec (.sramSweep ce re 0) s = .next { s with mm := { s.mm with
    sramCe := s.mm.sramCe + BitVec.ofNat 32 ce, refetch := s.mm.refetch + BitVec.ofNat 16 re } }) ∧
  (∀ (s : State) (ce re dbl : Nat), dbl ≠ 0 → s.running = true → s.settling = false → s.sys.mode ≠ .faultHalt →
    ∃ t, exec (.sramSweep ce re dbl) s = .next t ∧ t.sys.mode = .faultHalt ∧ t.sys.haltCause = 7 ∧ t.sys.primary = false ∧
    t.mm.fatal = s.mm.fatal + BitVec.ofNat 16 dbl ∧ SafetyOff t ∧
    OnlyChanges [.sys, .hif, .cyc, .lsp, .dpx, .dpx2, .can, .canq, .fio, .saf, .tly, .mm, .outbox] s t) ∧
  (∀ (s : State) (ce : Nat) (es : List MramErr), s.running = true → ∃ t, exec (.mramScrub ce es) s = .next t ∧
    t.mm.mramCe = s.mm.mramCe + BitVec.ofNat 32 ce ∧ t.mm.mramUe = s.mm.mramUe + BitVec.ofNat 32 es.length ∧
    (∀ ch : Fin 16, .calib ch ∈ es → (t.aio ch).cal = none) ∧ (∀ off, .keyStore off ∈ es → s.sys.parTrip.contains 3 = false →
      t.boot.ks.locked = true) ∧ t.sys.mode = s.sys.mode) ∧
  (∀ s : State, Settled s → s.reach = true → s.sys.mode = .test → exec .memInjArm s = .next { s with mm := { s.mm with
    inj := [(s.injLine, bits (s.reg Reg.memInjMask) 0 19)] } }) ∧
  (∀ s : State, Settled s → s.reach = true → s.sys.mode ≠ .test → ∃ t, exec .memInjArm s = .next t ∧
    t.sys.roWr = s.sys.roWr + 1 ∧ t.mm = s.mm ∧ OnlyChanges [.sys, .tly, .hif, .outbox] s t ∧ EventsOnly s t) ∧
  (∀ (s : State) (ce re dbl : Nat) (es : List MramErr), s.running = false → exec (.sramSweep ce re dbl) s = .next s ∧
    exec (.mramScrub ce es) s = .next s)

/-- At the exchange instant a standby waits for the first mirror record of the new version and exchanges when it arrives (log entry
108); a primary whose changed classes are active moves the exchange, or gives it up after three moves; otherwise the new program
is in force and the old one is the previous. An instant met in TAKEOVER is kept for the first commit. A stored package is
marked; a standby that is not ready in time ends the change with nothing changed. A warm switch selects the new bank or
configuration and waits in ACTIVATE for the commits of a running primary; a standby returns with INSYNC ended. A settle window
passes or, failing on a lone module, restarts it into RECOVERY with cause 5, or into BOOT held where that start finds no key
store or no image. 72 h confirm the firmware. An area write ends staged. The load key acts in BOOT held only. -/
def Obligations.ProgramsExchangeAndImagesSwitch : Prop :=
  (∀ s : State, Settled s → s.running = true → s.changeMode = true → s.chg.state = 3 → s.chg.xDue = false → s.executes = true →
    s.changedActive = true ∨ s.pwr.pfail = true → s.chg.moves ≠ 3 → ∃ t, exec .exchangeInstant s = .next t ∧
    t.chg.moves = s.chg.moves + 1 ∧ t.chg.xNs = s.chg.xNs + s.exchangeL s.chg.classes ∧ t.chg.state = 3 ∧
    t.chg.active = s.chg.active ∧ OnlyChanges [.chg, .tly] s t) ∧
  (∀ s : State, Settled s → s.running = true → s.changeMode = true → s.chg.state = 3 → s.chg.xDue = false → s.executes = true →
    s.changedActive = true ∨ s.pwr.pfail = true → s.chg.moves = 3 → s.chg.cmd = none →
    (∀ i, (s.ring s.chg.slot).infl = some i → i.cmd.slot = s.chg.slot) → ∃ t, exec .exchangeInstant s = .next t ∧
    t.chg.state = 0 ∧ t.chg.recorded = false ∧ t.chg.active = s.chg.active ∧ t.chg.previous = s.chg.previous ∧
    (t.ring s.chg.slot).infl = none ∧ OnlyChanges [.hif, .chg, .tly, .outbox] s t) ∧
  (∀ s : State, Settled s → s.running = true → s.changeMode = true → s.chg.state = 3 → s.chg.xDue = false →
    s.executes = true → s.changedActive = false → s.pwr.pfail = false → ∃ t, exec .exchangeInstant s = .next t ∧
    (s.chg.isReturn = false → t.chg.active = Config.newProgram s.chg.active s.chg.package ∧ t.chg.previous = s.chg.active ∧
      t.chg.actVer = s.chg.newVer ∧ t.chg.prevVer = s.chg.actVer) ∧
    (s.chg.isReturn = true → t.chg.active = s.chg.previous ∧ t.chg.previous = s.chg.active ∧ t.chg.actVer = s.chg.prevVer ∧
      t.chg.prevVer = s.chg.actVer) ∧ t.prog = { Config.parseProg t.chg.active with loaded := true } ∧
    t.cyc.forces = s.cyc.forces.filter (fun f => (t.prog.vars.find f.elem.handle.toNat).isSome) ∧
    (∀ c ∈ classList s.chg.classes, (t.cls c).changedDue = true) ∧
    (s.sys.mode = .run ∨ s.sys.mode = .test → t.chg.state = 4 ∧ t.chg.awaitCls = classList s.chg.classes) ∧
    (s.sys.mode ≠ .run → s.sys.mode ≠ .test → t.chg.state = 0) ∧ OnlyChanges [.hif, .cyc, .chg, .dpx2, .tly, .prog, .outbox] s t) ∧
  (∀ s : State, Settled s → s.running = true → s.changeMode = true → s.chg.state = 3 → s.chg.xDue = false → s.executes = false →
    s.insync = true → exec .exchangeInstant s = .next { s with chg := { s.chg with xDue := true } }) ∧
  (∀ (s : State) (r : BRec), InTurn r s → s.receives = true → s.executes = false → s.chg.state = 3 → s.chg.isReturn = false →
    r.progVer = s.chg.newVer → r.progVer ≠ s.chg.actVer → ∃ t, exec (.lines r) s = .next t ∧
    t.chg.active = Config.newProgram s.chg.active s.chg.package ∧ t.chg.previous = s.chg.active ∧ t.chg.actVer = r.progVer ∧
    t.chg.state = 0 ∧ t.dpx = s.dpx ∧
    (t.mirCls (fieldN r.payload 0 1 % 8)).lines = (s.mirCls (fieldN r.payload 0 1 % 8)).lines + 1 ∧
    OnlyChanges [.cyc, .chg, .dpx2, .mir, .tly, .prog, .outbox] s t) ∧
  (∀ s : State, s.running = false ∨ (s.changeMode = false ∧ s.sys.mode ≠ .takeover) ∨ s.chg.state ≠ 3 ∨ s.chg.xDue = true →
    exec .exchangeInstant s = .next s) ∧
  (∀ s : State, Settled s → s.running = true → s.sys.mode = .takeover → s.changeMode = false → s.chg.state = 3 → s.chg.xDue = false →
    exec .exchangeInstant s = .next { s with chg := { s.chg with xDue := true } }) ∧
  (∀ s : State, Settled s → s.running = true → s.pwr.pfail = false → s.chg.state = 1 → s.chg.stored = false → s.executes = true →
    s.chg.peerReady = false → exec .packageStoreDone s = .next { s with chg := { s.chg with stored := true, pkgDone := true, state := 2 } }) ∧
  (∀ s : State, Settled s → s.running = true → s.pwr.pfail = false → s.chg.state = 1 → s.chg.stored = false → s.executes = false →
    s.cfg.partner = true → ∃ t r, exec .packageStoreDone s = .next t ∧ t.chg = { s.chg with stored := true, pkgDone := true, state := 2 } ∧
    t.outbox = s.outbox ++ [.baste r] ∧ r.type = 11 ∧ r.payload.head? = some 8 ∧ OnlyChanges [.chg, .dpx2, .outbox] s t) ∧
  (∀ s : State, s.pwr.pfail = true ∨ s.chg.state ≠ 1 ∨ s.chg.stored = true → exec .packageStoreDone s = .next s) ∧
  (∀ s : State, Settled s → s.running = true → s.executes = true → s.chg.state = 1 ∨ s.chg.state = 2 → s.chg.peerReady = false →
    (∀ i, (s.ring s.chg.slot).infl = some i → i.cmd.slot = s.chg.slot) → ∃ t, exec .standbyReadyTimeout s = .next t ∧ t.chg.state = 0 ∧ t.chg.active = s.chg.active ∧ t.chg.previous = s.chg.previous ∧
    (t.ring s.chg.slot).infl = none ∧ OnlyChanges [.hif, .chg, .tly, .outbox] s t) ∧
  (∀ s : State, s.executes = false ∨ s.chg.peerReady = true → exec .standbyReadyTimeout s = .next s) ∧
  (∀ s : State, Settled s → s.mayWarmSwitch = true → ∃ t, exec .warmSwitch s = .next t ∧
    t.boot.bank = (if s.boot.actTarget.fw then !s.boot.bank else s.boot.bank) ∧
    (∀ n, s.boot.actTarget.cfg = some n → t.boot.cfgAct = some n ∧ t.boot.cfgPrev = s.boot.cfgAct ∧ t.cfg.valid = true ∧
      t.boot.actVer = (parseHdr (s.boot.cfgImage n)).version) ∧
    (s.boot.actTarget.cfg = none → t.cfg = s.cfg ∧ t.prog = s.prog ∧ t.boot.cfgAct = s.boot.cfgAct) ∧
    (s.sys.primary = true → s.sys.mode = .run → t.sys.mode = .activate ∧ t.sys.primary = true ∧ t.boot.act.awaitCommit = true) ∧
    OnlyChanges [.sys, .hif, .cyc, .lsp, .cle, .chg, .dpx, .dpx2, .can, .canq, .fio, .saf, .tly, .mm, .boot, .cfg, .prog, .regs, .live, .votes, .outbox] s t) ∧
  (∀ s : State, s.mayWarmSwitch = false → exec .warmSwitch s = .next s) ∧
  (∀ s : State, Settled s → s.running = true → s.pwr.pfail = false → s.boot.act.busy = true → s.boot.act.done = false →
    s.boot.act.pair = true → s.sys.primary = false → s.sys.lone = false → s.boot.act.at_ ≠ 0 → s.boot.act.step = 1 → s.quiet = true →
    s.sys.mode = .run ∨ s.sys.mode = .stop → ∃ t, exec .scheduledSwitch s = .next t ∧ t.sys.mode = s.sys.mode ∧
    t.boot.act.done = true ∧ t.boot.act.step = 3 ∧ t.insync = false ∧
    t.boot.bank = (if s.boot.actTarget.fw then !s.boot.bank else s.boot.bank) ∧
    OnlyChanges [.sys, .hif, .cyc, .lsp, .cle, .chg, .dpx, .dpx2, .can, .canq, .fio, .saf, .tly, .mm, .boot, .cfg, .prog, .regs, .live, .votes, .outbox] s t) ∧
  (∀ s : State, s.boot.act.busy = false ∨ s.boot.act.pair = false ∨ s.sys.primary = true → exec .scheduledSwitch s = .next s) ∧
  (∀ s : State, Settled s → s.running = true → s.boot.act.state = 4 → ∃ t, exec (.settleEnd none) s = .next t ∧
    (s.boot.act.pair = true → t.boot.act.state = 5 ∧ t.boot.act.step = 6 ∧ t.boot.act.busy = s.boot.act.busy) ∧
    (s.boot.act.pair = false → t.boot.act.state = 0 ∧ t.boot.act.busy = false) ∧ t.boot.bank = s.boot.bank ∧
    t.boot.cfgAct = s.boot.cfgAct ∧ OnlyChanges [.hif, .boot, .tly, .outbox] s t) ∧
  (∀ (s : State) (c : Fin 5), s.running = true → s.boot.act.state = 4 → s.boot.act.pair = false →
    ∃ t, exec (.settleEnd (some c)) s = .next t ∧ t.sys.primary = false ∧
    (t.boot.held = true → t.sys.mode = .boot) ∧ (t.boot.held = false → t.sys.mode = .recovery ∧ t.boot.cause = 5)) ∧
  (∀ (s : State) (f : Option (Fin 5)), s.boot.act.state ≠ 4 → exec (.settleEnd f) s = .next s) ∧
  (∀ s : State, Settled s → s.running = true → s.boot.switched = true → s.pwr.pfail = false → s.sys.mode ≠ .recovery →
    ∃ t, exec .autoConfirm s = .next t ∧ t.boot.switched = false ∧ t.boot.migrating = false ∧ t.boot.confirmAt = none ∧
    t.boot.minSvn = (if s.boot.minSvn.toNat < s.boot.fwSvn.toNat then s.boot.fwSvn else s.boot.minSvn) ∧ OnlyChanges [.boot, .tly] s t) ∧
  (∀ s : State, s.boot.switched = false ∨ s.pwr.pfail = true ∨ s.sys.mode = .recovery → exec .autoConfirm s = .next s) ∧
  (∀ (s : State) (a : Fin 3) (obs : BootObs) (k : Area), k = (if a.val = 0 then .fw else if a.val = 1 then .cfg else .keys) →
    Settled s → s.reach = true → s.boot.held = false → s.running = true → (s.boot.stg k).writing = true → s.pwr.pfail = false →
    ∃ t, exec (.areaWriteComplete a obs) s = .next t ∧ (t.boot.stg k).state = 3 ∧ (t.boot.stg k).writing = false ∧
    (t.boot.stg k).len = (s.boot.imageAt k (s.boot.stg k).dest).length ∧ t.boot.imageAt k (s.boot.stg k).dest =
      s.boot.imageAt k (s.boot.stg k).dest ∧ OnlyChanges [.hif, .boot, .tly, .outbox] s t) ∧
  (∀ (s : State) (obs : BootObs), Settled s → s.reach = true → s.boot.held = true → s.boot.ldState = 3 →
    verifyImage s.boot.ks .fw s.boot.minSvn.toNat s.boot.storeFmt.toNat 0 false s.boot.bankA.bytes ≠ .ok →
    ∃ t, exec (.areaWriteComplete 0 obs) s = .next t ∧ t.boot.ldState = 5 ∧ t.boot.held = true ∧ OnlyChanges [.boot] s t) ∧
  (∀ (s : State) (v : Word) (x : List Byte), Settled s → s.reach = true → s.boot.held = false →
    ∃ t, exec (.bootLdKey v x) s = .next t ∧ t.sys.roWr = s.sys.roWr + 1 ∧ t.boot = s.boot ∧ OnlyChanges [.sys, .tly, .hif, .outbox] s t ∧ EventsOnly s t) ∧
  (∀ (s : State) (x : List Byte), Settled s → s.reach = true → s.boot.held = true → s.boot.ldKey = none →
    exec (.bootLdKey 0x0000B007 x) s = .next { s with boot := { s.boot with ldKey := some s.sys.opNs } }) ∧
  (∀ (s : State) (x : List Byte) (t0 : Nat), Settled s → s.reach = true → s.boot.held = true → s.boot.ldKey = some t0 →
    s.sys.opNs ≤ t0 + 1000000 → ∃ t, exec (.bootLdKey 0x0000700B x) s = .next t ∧ t.boot.ldKey = none ∧
    (s.boot.ks.locked = true → t.boot.ldState = 5 ∧ t.boot.ldReason = 0x6F ∧ t.boot.bankA = s.boot.bankA) ∧
    (s.boot.ks.locked = false → verifyImage s.boot.ks .fw s.boot.minSvn.toNat s.boot.storeFmt.toNat 0 false x = .ok →
      t.boot.ldState = 3 ∧ t.boot.bankA.bytes = x) ∧ OnlyChanges [.boot] s t)

/-- For every command and state, a step of the state with that command in front of its queue is exec of the command on the state
with the queue's rest. On an empty queue, and this is the model's choice (DESIGN CHOICE, log entry 10), one clock passes: on a
powered module whose boundaries are all decided the local clock ticks, but for IDLE-LINK, and operating time counts 2 ns; in
RETAIN nothing changes. -/
def Obligations.AStepRunsTheFrontCommand : Prop :=
  (∀ (s : State) (c : Instr) (cs : List Instr), step { s with pending := c :: cs } = exec c { s with pending := cs }) ∧
  (∀ s : State, s.pending = [] → s.sys.mode ≠ .retain → s.undecided = [] → step s =
    .next { s with tim := if s.sys.mode = .idleLink then s.tim else s.tim.tick, sys := { s.sys with opNs := s.sys.opNs + 2 } }) ∧
  (∀ s : State, s.pending = [] → s.sys.mode = .retain → step s = .next s)

/-- The configured CAN channels stand where Table 12.2 puts them for the mode and the role, and on a module that runs no abandoned
mode command is still without its completion: every command and every idle step that answers a next state keeps that. -/
def Obligations.EveryStepLeavesTheModuleSettled : Prop :=
  ∀ s t : State, Settled s → step s = .next t → Settled t

/-- If the module holds the primary role only in a mode that allows it (in HOLD: only when it was entered from COMMISSION or TEST),
then after any step that answers a next state it does so again, whatever the command. -/
def Obligations.TheRoleStaysWhereTheModeAllowsIt : Prop :=
  ∀ s t : State, RoleLegal s → step s = .next t → RoleLegal t

/-- The control block and the entries of every queue of every CAN channel are byte memories with strictly rising addresses and no
entry equal to the 0 that an unlisted byte reads as. Every step that answers a next state keeps that. -/
def Obligations.QueueMemoriesKeepTheirForm : Prop :=
  ∀ s t : State, QueuesCanonical s → step s = .next t → QueuesCanonical t

/-- State.reset is settled, role-legal and canonical, holds no command, not the primary role, has both safety latches set and every
safety output open. The registers with a non-zero Reset column hold it in the copy a read returns and, for RWP registers, in the
live copy; those of a class or channel that is not configured hold it in the live copy and read 0. -/
def Obligations.ResetIsSettledAndHoldsTheResetValues : Prop :=
  Settled State.reset ∧ RoleLegal State.reset ∧ QueuesCanonical State.reset ∧ SafetyOff State.reset ∧ State.reset.pending = [] ∧
  State.reset.sys.primary = false ∧ State.reset.saf.sel.set = true ∧ State.reset.saf.sp.set = true ∧
  (∀ p ∈ [(0x000050, 0x3E8), (0x030104, 0x64), (0x050044, 0x93A80), (0x050048, 0x2710), (0x070004, 4), (0x070008, 0x3E8),
    (0x07000C, 0x2710), (0x070010, 0xC000), (0x070014, 0x4000), (0x070340, 0xF4240), (0x070344, 0x186A0),
    (0x0C0024, 0x1E0)], State.reset.readReg p.1 = BitVec.ofNat 32 p.2 ∧ State.reset.liveReg p.1 = BitVec.ofNat 32 p.2) ∧
  (∀ p ∈ [(0x020114, 8), (0x090108, 0x50064)], State.reset.liveReg p.1 = BitVec.ofNat 32 p.2 ∧ State.reset.readReg p.1 = 0) ∧
  (∀ p ∈ [(0x030110, 0x20), (0x050058, 0x7D0), (0x0C0038, 0x20), (0x0D0044, 0x2710)],
    State.reset.readReg p.1 = BitVec.ofNat 32 p.2)
end

