-- ==== Sys2Proof/Laws/Tab.lean ====
section
/-! SUPPORT. Keyed lists: what `put`, `upd`, `del` and `mapV` do to an entry. None needs the keys to be in order. -/

namespace Sys2Proof.Laws

variable {α : Type} {t : Tab α} {d v : α}

@[simp] theorem find_put_self (k : Nat) (v : α) : (t.put k v).find k = some v := by
  induction t with
  | nil => simp [Tab.put, Tab.find]
  | cons e t ih =>
    obtain ⟨j, u⟩ := e
    unfold Tab.put
    split
    · simp [Tab.find]
    · split
      · simp [Tab.find]
      · rename_i h
        simp [Tab.find, Ne.symm h, ih]

theorem find_put_ne {j k : Nat} {v : α} (h : j ≠ k) : (t.put k v).find j = t.find j := by
  induction t with
  | nil => simp [Tab.put, Tab.find, h.symm]
  | cons e t ih =>
    obtain ⟨i, u⟩ := e
    unfold Tab.put
    split
    · simp [Tab.find, h.symm]
    · split
      · rename_i hk
        subst hk
        simp [Tab.find, h.symm]
      · simp [Tab.find, ih]

@[simp] theorem find_del_self (k : Nat) : (t.del k).find k = none := by
  induction t with
  | nil => rfl
  | cons e t ih =>
    obtain ⟨j, u⟩ := e
    unfold Tab.del
    split
    · exact ih
    · rename_i h
      simp [Tab.find, h, ih]

theorem find_del_ne {j k : Nat} (h : j ≠ k) : (t.del k).find j = t.find j := by
  induction t with
  | nil => rfl
  | cons e t ih =>
    obtain ⟨i, u⟩ := e
    unfold Tab.del
    split
    · rename_i hi
      subst hi
      simp [Tab.find, h.symm, ih]
    · simp [Tab.find, ih]

@[simp] theorem find_mapV (f : α → α) (k : Nat) : (t.mapV f).find k = (t.find k).map f := by
  induction t with
  | nil => rfl
  | cons e t ih =>
    obtain ⟨j, u⟩ := e
    show Tab.find ((j, f u) :: Tab.mapV t f) k = _
    unfold Tab.find
    split
    · rfl
    · exact ih

@[simp] theorem look_put_self (k : Nat) (v d : α) : (t.put k v).look k d = v := by simp [Tab.look]

theorem look_put_ne {j k : Nat} (h : j ≠ k) : (t.put k v).look j d = t.look j d := by simp [Tab.look, find_put_ne h]

@[simp] theorem look_upd_self (k : Nat) (d : α) (f : α → α) : (t.upd k d f).look k d = f (t.look k d) := by simp [Tab.upd]

theorem look_upd_ne {j k : Nat} {f : α → α} {e : α} (h : j ≠ k) : (t.upd k e f).look j d = t.look j d := look_put_ne h

@[simp] theorem look_del_self (k : Nat) (d : α) : (t.del k).look k d = d := by simp [Tab.look]

theorem look_del_ne {j k : Nat} (h : j ≠ k) : (t.del k).look j d = t.look j d := by simp [Tab.look, find_del_ne h]

theorem look_mapV {f : α → α} (h : f d = d) (k : Nat) : (t.mapV f).look k d = f (t.look k d) := by
  unfold Tab.look
  rw [find_mapV]
  cases t.find k with
  | none => exact h.symm
  | some v => rfl

end Sys2Proof.Laws
end

