-- ==== Sys2Proof/Laws/Entries.lean ====
section
/-! SUPPORT. An entry of a table after an update of that entry, and of another one. -/

namespace Sys2Proof.Laws

open Sys2Proof.Machine

variable {s : State}

@[simp] theorem cls_updCls (c : Nat) (f : Cls → Cls) : (s.updCls c f).cls c = f (s.cls c) := look_upd_self ..
theorem cls_updCls_ne {c j : Nat} (f : Cls → Cls) (h : j ≠ c) : (s.updCls c f).cls j = s.cls j := look_upd_ne h
@[simp] theorem cmem_updMem (c : Nat) (f : ClsMem → ClsMem) : (s.updMem c f).cmem c = f (s.cmem c) := look_upd_self ..
theorem cmem_updMem_ne {c j : Nat} (f : ClsMem → ClsMem) (h : j ≠ c) : (s.updMem c f).cmem j = s.cmem j := look_upd_ne h
@[simp] theorem ring_updRing (n : Nat) (f : Ring → Ring) : (s.updRing n f).ring n = f (s.ring n) := look_upd_self ..
theorem ring_updRing_ne {n j : Nat} (f : Ring → Ring) (h : j ≠ n) : (s.updRing n f).ring j = s.ring j := look_upd_ne h
@[simp] theorem loop_updLoop (n : Nat) (f : Loop → Loop) : (s.updLoop n f).loop n = f (s.loop n) := look_upd_self ..
theorem loop_updLoop_ne {n j : Nat} (f : Loop → Loop) (h : j ≠ n) : (s.updLoop n f).loop j = s.loop j := look_upd_ne h
@[simp] theorem eng_updEng (e : Nat) (f : Eng → Eng) : (s.updEng e f).eng e = f (s.eng e) := look_upd_self ..
theorem eng_updEng_ne {e j : Nat} (f : Eng → Eng) (h : j ≠ e) : (s.updEng e f).eng j = s.eng j := look_upd_ne h
@[simp] theorem pair_updPair (p : Nat) (f : Pair → Pair) : (s.updPair p f).pair p = f (s.pair p) := look_upd_self ..
theorem pair_updPair_ne {p j : Nat} (f : Pair → Pair) (h : j ≠ p) : (s.updPair p f).pair j = s.pair j := look_upd_ne h
@[simp] theorem dio_updDio (n : Nat) (f : Dio → Dio) : (s.updDio n f).dio n = f (s.dio n) := look_upd_self ..
theorem dio_updDio_ne {n j : Nat} (f : Dio → Dio) (h : j ≠ n) : (s.updDio n f).dio j = s.dio j := look_upd_ne h
@[simp] theorem aio_updAio (n : Nat) (f : Aio → Aio) : (s.updAio n f).aio n = f (s.aio n) := look_upd_self ..
theorem aio_updAio_ne {n j : Nat} (f : Aio → Aio) (h : j ≠ n) : (s.updAio n f).aio j = s.aio j := look_upd_ne h
@[simp] theorem chan_updCan (c : Nat) (f : Can → Can) : (s.updCan c f).chan c = f (s.chan c) := look_upd_self ..
theorem chan_updCan_ne {c j : Nat} (f : Can → Can) (h : j ≠ c) : (s.updCan c f).chan j = s.chan j := look_upd_ne h
@[simp] theorem canQ_updCanQ (c : Nat) (f : CanQ → CanQ) : (s.updCanQ c f).canQ c = f (s.canQ c) := look_upd_self ..
theorem canQ_updCanQ_ne {c j : Nat} (f : CanQ → CanQ) (h : j ≠ c) : (s.updCanQ c f).canQ j = s.canQ j := look_upd_ne h
@[simp] theorem stn_updStn (i : Nat) (f : Stn → Stn) : (s.updStn i f).stn i = f (s.stn i) := look_upd_self ..
theorem stn_updStn_ne {i j : Nat} (f : Stn → Stn) (h : j ≠ i) : (s.updStn i f).stn j = s.stn j := look_upd_ne h
@[simp] theorem nring_updRingN (r : Nat) (f : NRing → NRing) : (s.updRingN r f).nring r = f (s.nring r) := look_upd_self ..
theorem nring_updRingN_ne {r j : Nat} (f : NRing → NRing) (h : j ≠ r) : (s.updRingN r f).nring j = s.nring j := look_upd_ne h
@[simp] theorem mirCls_updMir (c : Nat) (f : MirCls → MirCls) : (s.updMir c f).mirCls c = f (s.mirCls c) := look_upd_self ..
theorem mirCls_updMir_ne {c j : Nat} (f : MirCls → MirCls) (h : j ≠ c) : (s.updMir c f).mirCls j = s.mirCls j := look_upd_ne h
@[simp] theorem wsc_updWsc (n : Nat) (f : Wsc → Wsc) : (s.updWsc n f).wsc n = f (s.wsc n) := look_upd_self ..
theorem wsc_updWsc_ne {n j : Nat} (f : Wsc → Wsc) (h : j ≠ n) : (s.updWsc n f).wsc j = s.wsc j := look_upd_ne h
@[simp] theorem dom_updDom (d : Nat) (f : Dom → Dom) : (s.updDom d f).dom d = f (s.dom d) := look_upd_self ..
theorem dom_updDom_ne {d j : Nat} (f : Dom → Dom) (h : j ≠ d) : (s.updDom d f).dom j = s.dom j := look_upd_ne h
@[simp] theorem tport_updTPort (p : Nat) (f : TPort → TPort) : (s.updTPort p f).tport p = f (s.tport p) := look_upd_self ..
theorem tport_updTPort_ne {p j : Nat} (f : TPort → TPort) (h : j ≠ p) : (s.updTPort p f).tport j = s.tport j := look_upd_ne h

@[simp] theorem pressAt_updPress (o : Nat) (f : Press → Press) : (s.updPress o f).pressAt o = f (s.pressAt o) := look_upd_self ..
theorem pressAt_updPress_ne {o j : Nat} (f : Press → Press) (h : j ≠ o) : (s.updPress o f).pressAt j = s.pressAt j := look_upd_ne h
@[simp] theorem reg_setReg (o : Nat) (v : Word) : (s.setReg o v).reg o = v := look_put_self ..
theorem reg_setReg_ne {o j : Nat} (v : Word) (h : j ≠ o) : (s.setReg o v).reg j = s.reg j := look_put_ne h
@[simp] theorem liveReg_setLive (o : Nat) (v : Word) : (s.setLive o v).liveReg o = v := look_put_self ..
theorem liveReg_setLive_ne {o j : Nat} (v : Word) (h : j ≠ o) : (s.setLive o v).liveReg j = s.liveReg j := look_put_ne h
@[simp] theorem vote_setVote (o : Nat) (v : Word) : (s.setVote o v).vote o = { a := v, b := v, c := v } := look_put_self ..
theorem vote_setVote_ne {o j : Nat} (v : Word) (h : j ≠ o) : (s.setVote o v).vote j = s.vote j := look_put_ne h

end Sys2Proof.Laws
end

