-- ==== Sys2Proof/Laws/Frame.lean ====
section
/-! SUPPORT. Frames: how `OnlyChanges` passes through the pieces of a definition. -/

namespace Sys2Proof.Laws

open Sys2Proof.Machine Sys2Proof.Safety

/-- Every part that `a` names is among those of `b`. -/
abbrev Within (a b : List Part) : Prop := ∀ p ∈ a, p ∈ b

theorem Within.step {a b c : List Part} (h : Within b c) (d : a.all (fun p => b.contains p) = true) : Within a c := fun p hp => h p (by
  have := List.all_eq_true.mp d p hp
  simpa using this)

/-- Nothing has changed. -/
theorem OnlyChanges.refl {P : List Part} {s : State} : OnlyChanges P s s := ⟨fun p _ => by cases p <;> rfl⟩

/-- A longer list of parts names what may change as well. -/
theorem OnlyChanges.mono {P Q : List Part} {s t : State} (h : OnlyChanges P s t) (w : Within P Q) : OnlyChanges Q s t :=
  ⟨fun p hp => h.same p fun q => hp (w p q)⟩

/-- Frames compose. -/
theorem OnlyChanges.trans {P : List Part} {s t u : State} (h : OnlyChanges P s t) (k : OnlyChanges P t u) : OnlyChanges P s u :=
  ⟨fun p hp => by
    have h1 := h.same p hp
    have h2 := k.same p hp
    cases p <;> exact h2.trans h1⟩

theorem OnlyChanges.cut {P : List Part} {s u : State} (x : State) (h : OnlyChanges P s x) (k : OnlyChanges P s x → OnlyChanges P s u) :
    OnlyChanges P s u := k h

theorem OnlyChanges.foldl {α : Type} {P : List Part} {s t : State} {f : State → α → State} {l : List α} (h : OnlyChanges P s t)
    (hf : ∀ u a, OnlyChanges P s u → OnlyChanges P s (f u a)) : OnlyChanges P s (l.foldl f t) := by
  induction l generalizing t with
  | nil => exact h
  | cons a l ih => exact ih (hf _ _ h)

theorem OnlyChanges.ite {c : Prop} [Decidable c] {P : List Part} {s t u : State} (h : OnlyChanges P s t) (k : OnlyChanges P s u) :
    OnlyChanges P s (if c then t else u) := by
  split
  · exact h
  · exact k

theorem OnlyChanges.snd {α : Type} {P : List Part} {s t : State} {a : α} (h : OnlyChanges P s t) : OnlyChanges P s (a, t).2 := h

theorem OnlyChanges.fst {α : Type} {P : List Part} {s t : State} {a : α} (h : OnlyChanges P s t) : OnlyChanges P s (t, a).1 := h

theorem OnlyChanges.hres {P : List Part} {s t : State} {a : List Byte} {b : Word} {c : DWord} {d : Bool} {e : BitVec 16}
    (h : OnlyChanges P s t) : OnlyChanges P s (HRes.mk t a b c d e).s := h

/-- What the effect and the work before the record of a ring command may change. -/
structure OpOnly (P : List Part) (s : State) (op : HostOp) : Prop where
  effect : ∀ {h : Hcmd} {u : State}, OnlyChanges P s u → OnlyChanges P s (op.effect h u).s
  prepare : ∀ {h : Hcmd} {u v : State}, op.prepare h u = some v → OnlyChanges P s u → OnlyChanges P s v

/-- A record update of `t` changes the parts it names. -/
theorem OnlyChanges.upd {P : List Part} {s t : State} {a0 a1 a2 a3 a4 a5 a6 a7 a8 a9 a10 a11 a12 a13 a14 a15 a16 a17 a18 a19 a20 a21 a22 a23 a24 a25 a26 a27 a28}
    (h : OnlyChanges P s t)
    (he : ∀ p, p ∉ P → p.same t (State.mk a0 a1 a2 a3 a4 a5 a6 a7 a8 a9 a10 a11 a12 a13 a14 a15 a16 a17 a18 a19 a20 a21 a22 a23 a24 a25 a26 a27 a28 t.pending)) :
    OnlyChanges P s (State.mk a0 a1 a2 a3 a4 a5 a6 a7 a8 a9 a10 a11 a12 a13 a14 a15 a16 a17 a18 a19 a20 a21 a22 a23 a24 a25 a26 a27 a28 t.pending) := by
  refine ⟨fun p hp => ?_⟩
  have h1 := h.same p hp
  have h2 := he p hp
  cases p <;> exact h2.trans h1

end Sys2Proof.Laws
end

