-- ==== Sys2Proof/Laws/Memory.lean ====
section
/-! SUPPORT. Byte memories: a read after a write, and that every operation keeps the one canonical form. -/

namespace Sys2Proof.Laws

open Sys2Proof.Machine

theorem wfFrom_mono {m : Mem} {a b : Nat} (h : Mem.wfFrom m b = true) (l : a ≤ b) : Mem.wfFrom m a = true := by
  cases m with
  | nil => rfl
  | cons e m =>
    obtain ⟨j, v⟩ := e
    simp only [Mem.wfFrom, Bool.and_eq_true, decide_eq_true_eq] at h ⊢
    exact ⟨⟨by omega, h.1.2⟩, h.2⟩

theorem rd_below {m : Mem} {lo a : Nat} (h : Mem.wfFrom m lo = true) (l : a < lo) : m.rd a = 0 := by
  induction m generalizing lo with
  | nil => rfl
  | cons e m ih =>
    obtain ⟨j, v⟩ := e
    simp only [Mem.wfFrom, Bool.and_eq_true, decide_eq_true_eq] at h
    rw [Mem.rd, if_neg (by omega)]
    exact ih h.2 (by omega)

theorem wfFrom_wr {m : Mem} {lo a : Nat} {b : Byte} (h : Mem.wfFrom m lo = true) (l : lo ≤ a) : Mem.wfFrom (m.wr a b) lo = true := by
  induction m generalizing lo with
  | nil =>
    unfold Mem.wr
    split
    · rfl
    · rename_i hb
      simpa [Mem.wfFrom, l] using hb
  | cons e m ih =>
    obtain ⟨j, v⟩ := e
    have hh := h
    simp only [Mem.wfFrom, Bool.and_eq_true, decide_eq_true_eq] at h
    unfold Mem.wr
    split
    · split
      · exact hh
      · rename_i hl hb
        simp only [Mem.wfFrom, Bool.and_eq_true, decide_eq_true_eq]
        exact ⟨⟨l, hb⟩, ⟨⟨by omega, h.1.2⟩, h.2⟩⟩
    · split
      · rename_i hl ha
        split
        · exact wfFrom_mono h.2 (by omega)
        · rename_i hb
          simp only [Mem.wfFrom, Bool.and_eq_true, decide_eq_true_eq]
          exact ⟨⟨l, hb⟩, by subst ha; exact h.2⟩
      · simp only [Mem.wfFrom, Bool.and_eq_true, decide_eq_true_eq]
        exact ⟨h.1, ih h.2 (by omega)⟩

/-- Writing a byte keeps the canonical form. -/
theorem wf_wr {m : Mem} (a : Nat) (b : Byte) (h : Memory.wf m = true) : Memory.wf (m.wr a b) = true := wfFrom_wr h (Nat.zero_le a)

/-- Writing bytes keeps the canonical form. -/
theorem wf_wrN {m : Mem} (a : Nat) (bs : List Byte) (h : Memory.wf m = true) : Memory.wf (m.wrN a bs) = true := by
  induction bs generalizing m a with
  | nil => exact h
  | cons b bs ih => exact ih (a + 1) (wf_wr a b h)

theorem wf_nil : Memory.wf [] = true := rfl

/-- A read after a write to the same address. -/
theorem rd_wr_self {m : Mem} {lo : Nat} (a : Nat) (b : Byte) (h : Mem.wfFrom m lo = true) : (m.wr a b).rd a = b := by
  induction m generalizing lo with
  | nil =>
    unfold Mem.wr
    split
    · rename_i hb; simp [Mem.rd, hb]
    · simp [Mem.rd]
  | cons e m ih =>
    obtain ⟨j, v⟩ := e
    simp only [Mem.wfFrom, Bool.and_eq_true, decide_eq_true_eq] at h
    unfold Mem.wr
    split
    · rename_i hl
      split
      · rename_i hb
        rw [Mem.rd, if_neg (by omega), hb]
        exact rd_below h.2 (by omega)
      · simp [Mem.rd]
    · split
      · rename_i ha
        split
        · rename_i hb
          rw [hb]
          exact rd_below h.2 (by omega)
        · simp [Mem.rd]
      · rename_i h1 h2
        rw [Mem.rd, if_neg (by omega)]
        exact ih h.2

/-- A write leaves every other address as it was. -/
theorem rd_wr_ne {m : Mem} {a c : Nat} (b : Byte) (h : c ≠ a) : (m.wr a b).rd c = m.rd c := by
  induction m with
  | nil =>
    unfold Mem.wr
    split
    · rfl
    · simp [Mem.rd, h.symm]
  | cons e m ih =>
    obtain ⟨j, v⟩ := e
    unfold Mem.wr
    split
    · split
      · rfl
      · simp [Mem.rd, h.symm]
    · split
      · rename_i ha
        subst ha
        split <;> simp [Mem.rd, h.symm]
      · simp [Mem.rd, ih]

/-- A write of bytes leaves every address outside them as it was. -/
theorem rd_wrN_out {m : Mem} {a c : Nat} (bs : List Byte) (h : c < a ∨ a + bs.length ≤ c) : (m.wrN a bs).rd c = m.rd c := by
  induction bs generalizing m a with
  | nil => rfl
  | cons b bs ih =>
    simp only [List.length_cons] at h
    rw [Mem.wrN, ih (by omega), rd_wr_ne b (by omega)]

/-- Both memories of a state area keep their form. -/
theorem area_wf_wr {x : Area2} (a : Nat) (b : Byte) (h : Memory.wf x.data = true ∧ Memory.wf x.glob = true) :
    Memory.wf (x.wr a b).data = true ∧ Memory.wf (x.wr a b).glob = true := by
  unfold Area2.wr
  split
  · exact ⟨wf_wr _ _ h.1, h.2⟩
  · exact ⟨h.1, wf_wr _ _ h.2⟩

theorem area_wf_wrN {x : Area2} (a : Nat) (bs : List Byte) (h : Memory.wf x.data = true ∧ Memory.wf x.glob = true) :
    Memory.wf (x.wrN a bs).data = true ∧ Memory.wf (x.wrN a bs).glob = true := by
  induction bs generalizing x a with
  | nil => exact h
  | cons b bs ih => exact ih (a + 1) (area_wf_wr a b h)

end Sys2Proof.Laws
end

