-- ==== Sys2Proof/Laws/OnlyRegisters.lean ====
section
/-! SUPPORT. What each operation of Registers.lean may change: one frame per operation. -/

set_option linter.unusedTactic false
set_option linter.unreachableTactic false
set_option linter.unusedVariables false
set_option linter.tactic.unusedName false

namespace Sys2Proof.Laws

open Sys2Proof.Machine Sys2Proof.Safety

theorem setReg_only {P : List Part} {s₀ : State} {x0 : Nat} {x1 : Word} {t : State} (hP : Within [.regs] P)  (h : OnlyChanges P s₀ t) :
    OnlyChanges P s₀ (State.setReg x0 x1 t) := by
  unfold State.setReg
  repeat' (first
    | with_reducible assumption
    | with_reducible (refine OnlyChanges.foldl ?_ (fun u a h => ?_))
    | (extract_lets +onlyGivenNames x; first | (refine OnlyChanges.cut x ?_ (fun h => ?_); (on_goal 2 => clear_value x); (on_goal 1 => subst x)) | clear_value x)
    | split
    | with_reducible (refine OnlyChanges.snd ?_)
    | with_reducible (refine OnlyChanges.fst ?_)
    | with_reducible (refine OnlyChanges.hres ?_)
    | ((with_reducible (refine OnlyChanges.upd ?_ (fun p hp => ?_))); on_goal 2 => (cases p <;> first | exact rfl | exact absurd (hP _ (by decide)) hp)))

theorem setLive_only {P : List Part} {s₀ : State} {x0 : Nat} {x1 : Word} {t : State} (hP : Within [.live] P)  (h : OnlyChanges P s₀ t) :
    OnlyChanges P s₀ (State.setLive x0 x1 t) := by
  unfold State.setLive
  repeat' (first
    | with_reducible assumption
    | with_reducible (refine OnlyChanges.foldl ?_ (fun u a h => ?_))
    | (extract_lets +onlyGivenNames x; first | (refine OnlyChanges.cut x ?_ (fun h => ?_); (on_goal 2 => clear_value x); (on_goal 1 => subst x)) | clear_value x)
    | split
    | with_reducible (refine OnlyChanges.snd ?_)
    | with_reducible (refine OnlyChanges.fst ?_)
    | with_reducible (refine OnlyChanges.hres ?_)
    | ((with_reducible (refine OnlyChanges.upd ?_ (fun p hp => ?_))); on_goal 2 => (cases p <;> first | exact rfl | exact absurd (hP _ (by decide)) hp)))

theorem setVote_only {P : List Part} {s₀ : State} {x0 : Nat} {x1 : Word} {t : State} (hP : Within [.votes] P)  (h : OnlyChanges P s₀ t) :
    OnlyChanges P s₀ (State.setVote x0 x1 t) := by
  unfold State.setVote
  repeat' (first
    | with_reducible assumption
    | with_reducible (refine OnlyChanges.foldl ?_ (fun u a h => ?_))
    | (extract_lets +onlyGivenNames x; first | (refine OnlyChanges.cut x ?_ (fun h => ?_); (on_goal 2 => clear_value x); (on_goal 1 => subst x)) | clear_value x)
    | split
    | with_reducible (refine OnlyChanges.snd ?_)
    | with_reducible (refine OnlyChanges.fst ?_)
    | with_reducible (refine OnlyChanges.hres ?_)
    | ((with_reducible (refine OnlyChanges.upd ?_ (fun p hp => ?_))); on_goal 2 => (cases p <;> first | exact rfl | exact absurd (hP _ (by decide)) hp)))

end Sys2Proof.Laws
end

