-- ==== Sys2Proof/Laws/OnlyOps.lean ====
section
/-! SUPPORT. What each operation of Ops.lean may change: one frame per operation. -/

set_option linter.unusedTactic false
set_option linter.unreachableTactic false
set_option linter.unusedVariables false
set_option linter.tactic.unusedName false

namespace Sys2Proof.Laws

open Sys2Proof.Machine Sys2Proof.Safety

theorem draw_only {P : List Part} {s₀ : State}  {t : State} (hP : Within [.freeN] P)  (h : OnlyChanges P s₀ t) :
    OnlyChanges P s₀ ((State.draw t).2) := by
  unfold State.draw
  repeat' (first
    | with_reducible assumption
    | with_reducible (refine OnlyChanges.foldl ?_ (fun u a h => ?_))
    | (extract_lets +onlyGivenNames x; first | (refine OnlyChanges.cut x ?_ (fun h => ?_); (on_goal 2 => clear_value x); (on_goal 1 => subst x)) | clear_value x)
    | split
    | with_reducible (refine OnlyChanges.snd ?_)
    | with_reducible (refine OnlyChanges.fst ?_)
    | with_reducible (refine OnlyChanges.hres ?_)
    | ((with_reducible (refine OnlyChanges.upd ?_ (fun p hp => ?_))); on_goal 2 => (cases p <;> first | exact rfl | exact absurd (hP _ (by decide)) hp)))

theorem drawObs_only {P : List Part} {s₀ : State}  {t : State} (hP : Within [.freeN] P)  (h : OnlyChanges P s₀ t) :
    OnlyChanges P s₀ ((State.drawObs t).2) := by
  unfold State.drawObs
  repeat' (first
    | with_reducible assumption
    | with_reducible (refine OnlyChanges.foldl ?_ (fun u a h => ?_))
    | (extract_lets +onlyGivenNames x; first | (refine OnlyChanges.cut x ?_ (fun h => ?_); (on_goal 2 => clear_value x); (on_goal 1 => subst x)) | clear_value x)
    | split
    | with_reducible (refine OnlyChanges.snd ?_)
    | with_reducible (refine OnlyChanges.fst ?_)
    | with_reducible (refine OnlyChanges.hres ?_)
    | ((with_reducible (refine OnlyChanges.upd ?_ (fun p hp => ?_))); on_goal 2 => (cases p <;> first | exact rfl | exact absurd (hP _ (by decide)) hp)))

theorem put_only {P : List Part} {s₀ : State} {x0 : Out} {t : State} (hP : Within [.outbox] P)  (h : OnlyChanges P s₀ t) :
    OnlyChanges P s₀ (State.put x0 t) := by
  unfold State.put
  repeat' (first
    | with_reducible assumption
    | with_reducible (refine OnlyChanges.foldl ?_ (fun u a h => ?_))
    | (extract_lets +onlyGivenNames x; first | (refine OnlyChanges.cut x ?_ (fun h => ?_); (on_goal 2 => clear_value x); (on_goal 1 => subst x)) | clear_value x)
    | split
    | with_reducible (refine OnlyChanges.snd ?_)
    | with_reducible (refine OnlyChanges.fst ?_)
    | with_reducible (refine OnlyChanges.hres ?_)
    | ((with_reducible (refine OnlyChanges.upd ?_ (fun p hp => ?_))); on_goal 2 => (cases p <;> first | exact rfl | exact absurd (hP _ (by decide)) hp)))

theorem msix_only {P : List Part} {s₀ : State} {x0 : Nat} {t : State} (hP : Within [.hif, .outbox] P)  (h : OnlyChanges P s₀ t) :
    OnlyChanges P s₀ (State.msix x0 t) := by
  unfold State.msix
  repeat' (first
    | with_reducible assumption
    | with_reducible (refine put_only (hP.step (by decide)) ?_)
    | with_reducible (refine OnlyChanges.foldl ?_ (fun u a h => ?_))
    | (extract_lets +onlyGivenNames x; first | (refine OnlyChanges.cut x ?_ (fun h => ?_); (on_goal 2 => clear_value x); (on_goal 1 => subst x)) | clear_value x)
    | split
    | with_reducible (refine OnlyChanges.snd ?_)
    | with_reducible (refine OnlyChanges.fst ?_)
    | with_reducible (refine OnlyChanges.hres ?_)
    | ((with_reducible (refine OnlyChanges.upd ?_ (fun p hp => ?_))); on_goal 2 => (cases p <;> first | exact rfl | exact absurd (hP _ (by decide)) hp)))

theorem event_only {P : List Part} {s₀ : State} {x0 : BitVec 16} {x1 : Nat} {x2 : Word} {x3 : List Byte} {t : State} (hP : Within [.hif, .outbox] P)  (h : OnlyChanges P s₀ t) :
    OnlyChanges P s₀ (State.event x0 x1 x2 x3 t) := by
  unfold State.event
  repeat' (first
    | with_reducible assumption
    | with_reducible (refine put_only (hP.step (by decide)) ?_)
    | with_reducible (refine msix_only (hP.step (by decide)) ?_)
    | with_reducible (refine OnlyChanges.foldl ?_ (fun u a h => ?_))
    | (extract_lets +onlyGivenNames x; first | (refine OnlyChanges.cut x ?_ (fun h => ?_); (on_goal 2 => clear_value x); (on_goal 1 => subst x)) | clear_value x)
    | split
    | with_reducible (refine OnlyChanges.snd ?_)
    | with_reducible (refine OnlyChanges.fst ?_)
    | with_reducible (refine OnlyChanges.hres ?_)
    | ((with_reducible (refine OnlyChanges.upd ?_ (fun p hp => ?_))); on_goal 2 => (cases p <;> first | exact rfl | exact absurd (hP _ (by decide)) hp)))

theorem intoQueue_only {P : List Part} {s₀ : State} {x0 : TRec} {t : State} (hP : Within [.tly] P)  (h : OnlyChanges P s₀ t) :
    OnlyChanges P s₀ (State.intoQueue x0 t) := by
  unfold State.intoQueue
  repeat' (first
    | with_reducible assumption
    | with_reducible (refine OnlyChanges.foldl ?_ (fun u a h => ?_))
    | (extract_lets +onlyGivenNames x; first | (refine OnlyChanges.cut x ?_ (fun h => ?_); (on_goal 2 => clear_value x); (on_goal 1 => subst x)) | clear_value x)
    | split
    | with_reducible (refine OnlyChanges.snd ?_)
    | with_reducible (refine OnlyChanges.fst ?_)
    | with_reducible (refine OnlyChanges.hres ?_)
    | ((with_reducible (refine OnlyChanges.upd ?_ (fun p hp => ?_))); on_goal 2 => (cases p <;> first | exact rfl | exact absurd (hP _ (by decide)) hp)))

theorem refuseRec_only {P : List Part} {s₀ : State} {x0 : TRec} {t : State} (hP : Within [.tly] P)  (h : OnlyChanges P s₀ t) :
    OnlyChanges P s₀ (State.refuseRec x0 t) := by
  unfold State.refuseRec
  repeat' (first
    | with_reducible assumption
    | with_reducible (refine intoQueue_only (hP.step (by decide)) ?_)
    | with_reducible (refine OnlyChanges.foldl ?_ (fun u a h => ?_))
    | (extract_lets +onlyGivenNames x; first | (refine OnlyChanges.cut x ?_ (fun h => ?_); (on_goal 2 => clear_value x); (on_goal 1 => subst x)) | clear_value x)
    | split
    | with_reducible (refine OnlyChanges.snd ?_)
    | with_reducible (refine OnlyChanges.fst ?_)
    | with_reducible (refine OnlyChanges.hres ?_)
    | ((with_reducible (refine OnlyChanges.upd ?_ (fun p hp => ?_))); on_goal 2 => (cases p <;> first | exact rfl | exact absurd (hP _ (by decide)) hp)))

theorem enqueue_only {P : List Part} {s₀ : State} {x0 : TRec} {t : State} (hP : Within [.tly] P)  (h : OnlyChanges P s₀ t) :
    OnlyChanges P s₀ (State.enqueue x0 t) := by
  unfold State.enqueue
  repeat' (first
    | with_reducible assumption
    | with_reducible (refine intoQueue_only (hP.step (by decide)) ?_)
    | with_reducible (refine refuseRec_only (hP.step (by decide)) ?_)
    | with_reducible (refine OnlyChanges.foldl ?_ (fun u a h => ?_))
    | (extract_lets +onlyGivenNames x; first | (refine OnlyChanges.cut x ?_ (fun h => ?_); (on_goal 2 => clear_value x); (on_goal 1 => subst x)) | clear_value x)
    | split
    | with_reducible (refine OnlyChanges.snd ?_)
    | with_reducible (refine OnlyChanges.fst ?_)
    | with_reducible (refine OnlyChanges.hres ?_)
    | ((with_reducible (refine OnlyChanges.upd ?_ (fun p hp => ?_))); on_goal 2 => (cases p <;> first | exact rfl | exact absurd (hP _ (by decide)) hp)))

theorem log_only {P : List Part} {s₀ : State} {x0 : Nat} {x1 : Nat} {x2 : List Byte} {t : State} (hP : Within [.tly] P)  (h : OnlyChanges P s₀ t) :
    OnlyChanges P s₀ (State.log x0 x1 x2 t) := by
  unfold State.log
  repeat' (first
    | with_reducible assumption
    | with_reducible (refine enqueue_only (hP.step (by decide)) ?_)
    | with_reducible (refine OnlyChanges.foldl ?_ (fun u a h => ?_))
    | (extract_lets +onlyGivenNames x; first | (refine OnlyChanges.cut x ?_ (fun h => ?_); (on_goal 2 => clear_value x); (on_goal 1 => subst x)) | clear_value x)
    | split
    | with_reducible (refine OnlyChanges.snd ?_)
    | with_reducible (refine OnlyChanges.fst ?_)
    | with_reducible (refine OnlyChanges.hres ?_)
    | ((with_reducible (refine OnlyChanges.upd ?_ (fun p hp => ?_))); on_goal 2 => (cases p <;> first | exact rfl | exact absurd (hP _ (by decide)) hp)))

theorem report_only {P : List Part} {s₀ : State} {b : State} {t : State} (hP : Within [.hif, .outbox] P)  (h : OnlyChanges P s₀ t) :
    OnlyChanges P s₀ (report b t) := by
  unfold report
  repeat' (first
    | with_reducible assumption
    | with_reducible (refine event_only (hP.step (by decide)) ?_)
    | with_reducible (refine OnlyChanges.foldl ?_ (fun u a h => ?_))
    | (extract_lets +onlyGivenNames x; first | (refine OnlyChanges.cut x ?_ (fun h => ?_); (on_goal 2 => clear_value x); (on_goal 1 => subst x)) | clear_value x)
    | split
    | with_reducible (refine OnlyChanges.snd ?_)
    | with_reducible (refine OnlyChanges.fst ?_)
    | with_reducible (refine OnlyChanges.hres ?_)
    | ((with_reducible (refine OnlyChanges.upd ?_ (fun p hp => ?_))); on_goal 2 => (cases p <;> first | exact rfl | exact absurd (hP _ (by decide)) hp)))

theorem soOff_only {P : List Part} {s₀ : State}  {t : State} (hP : Within [.saf, .outbox] P)  (h : OnlyChanges P s₀ t) :
    OnlyChanges P s₀ (State.soOff t) := by
  unfold State.soOff
  repeat' (first
    | with_reducible assumption
    | with_reducible (refine put_only (hP.step (by decide)) ?_)
    | with_reducible (refine OnlyChanges.foldl ?_ (fun u a h => ?_))
    | (extract_lets +onlyGivenNames x; first | (refine OnlyChanges.cut x ?_ (fun h => ?_); (on_goal 2 => clear_value x); (on_goal 1 => subst x)) | clear_value x)
    | split
    | with_reducible (refine OnlyChanges.snd ?_)
    | with_reducible (refine OnlyChanges.fst ?_)
    | with_reducible (refine OnlyChanges.hres ?_)
    | ((with_reducible (refine OnlyChanges.upd ?_ (fun p hp => ?_))); on_goal 2 => (cases p <;> first | exact rfl | exact absurd (hP _ (by decide)) hp)))

theorem lockout_only {P : List Part} {s₀ : State} {x0 : Nat} {x1 : Nat} {x2 : Nat} {x3 : Bool} {x4 : Bool} {t : State} (hP : Within [.saf, .tly, .outbox] P)  (h : OnlyChanges P s₀ t) :
    OnlyChanges P s₀ (State.lockout x0 x1 x2 x3 x4 t) := by
  unfold State.lockout
  repeat' (first
    | with_reducible assumption
    | with_reducible (refine soOff_only (hP.step (by decide)) ?_)
    | with_reducible (refine log_only (hP.step (by decide)) ?_)
    | with_reducible (refine OnlyChanges.foldl ?_ (fun u a h => ?_))
    | (extract_lets +onlyGivenNames x; first | (refine OnlyChanges.cut x ?_ (fun h => ?_); (on_goal 2 => clear_value x); (on_goal 1 => subst x)) | clear_value x)
    | split
    | with_reducible (refine OnlyChanges.snd ?_)
    | with_reducible (refine OnlyChanges.fst ?_)
    | with_reducible (refine OnlyChanges.hres ?_)
    | ((with_reducible (refine OnlyChanges.upd ?_ (fun p hp => ?_))); on_goal 2 => (cases p <;> first | exact rfl | exact absurd (hP _ (by decide)) hp)))

theorem clearForces_only {P : List Part} {s₀ : State}  {t : State} (hP : Within [.cyc] P)  (h : OnlyChanges P s₀ t) :
    OnlyChanges P s₀ (State.clearForces t) := by
  unfold State.clearForces
  repeat' (first
    | with_reducible assumption
    | with_reducible (refine OnlyChanges.foldl ?_ (fun u a h => ?_))
    | (extract_lets +onlyGivenNames x; first | (refine OnlyChanges.cut x ?_ (fun h => ?_); (on_goal 2 => clear_value x); (on_goal 1 => subst x)) | clear_value x)
    | split
    | with_reducible (refine OnlyChanges.snd ?_)
    | with_reducible (refine OnlyChanges.fst ?_)
    | with_reducible (refine OnlyChanges.hres ?_)
    | ((with_reducible (refine OnlyChanges.upd ?_ (fun p hp => ?_))); on_goal 2 => (cases p <;> first | exact rfl | exact absurd (hP _ (by decide)) hp)))

theorem setMode_only {P : List Part} {s₀ : State} {x0 : Mode} {x1 : Nat} {t : State} (hP : Within [.sys, .hif, .cyc, .saf, .tly, .mm, .outbox] P)  (h : OnlyChanges P s₀ t) :
    OnlyChanges P s₀ (State.setMode x0 x1 t) := by
  unfold State.setMode
  repeat' (first
    | with_reducible assumption
    | with_reducible (refine clearForces_only (hP.step (by decide)) ?_)
    | with_reducible (refine log_only (hP.step (by decide)) ?_)
    | with_reducible (refine event_only (hP.step (by decide)) ?_)
    | with_reducible (refine OnlyChanges.foldl ?_ (fun u a h => ?_))
    | (extract_lets +onlyGivenNames x; first | (refine OnlyChanges.cut x ?_ (fun h => ?_); (on_goal 2 => clear_value x); (on_goal 1 => subst x)) | clear_value x)
    | split
    | with_reducible (refine OnlyChanges.snd ?_)
    | with_reducible (refine OnlyChanges.fst ?_)
    | with_reducible (refine OnlyChanges.hres ?_)
    | ((with_reducible (refine OnlyChanges.upd ?_ (fun p hp => ?_))); on_goal 2 => (cases p <;> first | exact rfl | exact absurd (hP _ (by decide)) hp)))

theorem beginTrans_only {P : List Part} {s₀ : State} {x0 : Mode} {x1 : Nat} {x2 : Nat} {t : State} (hP : Within [.sys] P)  (h : OnlyChanges P s₀ t) :
    OnlyChanges P s₀ (State.beginTrans x0 x1 x2 t) := by
  unfold State.beginTrans
  repeat' (first
    | with_reducible assumption
    | with_reducible (refine OnlyChanges.foldl ?_ (fun u a h => ?_))
    | (extract_lets +onlyGivenNames x; first | (refine OnlyChanges.cut x ?_ (fun h => ?_); (on_goal 2 => clear_value x); (on_goal 1 => subst x)) | clear_value x)
    | split
    | with_reducible (refine OnlyChanges.snd ?_)
    | with_reducible (refine OnlyChanges.fst ?_)
    | with_reducible (refine OnlyChanges.hres ?_)
    | ((with_reducible (refine OnlyChanges.upd ?_ (fun p hp => ?_))); on_goal 2 => (cases p <;> first | exact rfl | exact absurd (hP _ (by decide)) hp)))

theorem preempt_only {P : List Part} {s₀ : State}  {t : State} (hP : Within [.sys] P)  (h : OnlyChanges P s₀ t) :
    OnlyChanges P s₀ (State.preempt t) := by
  unfold State.preempt
  repeat' (first
    | with_reducible assumption
    | with_reducible (refine OnlyChanges.foldl ?_ (fun u a h => ?_))
    | (extract_lets +onlyGivenNames x; first | (refine OnlyChanges.cut x ?_ (fun h => ?_); (on_goal 2 => clear_value x); (on_goal 1 => subst x)) | clear_value x)
    | split
    | with_reducible (refine OnlyChanges.snd ?_)
    | with_reducible (refine OnlyChanges.fst ?_)
    | with_reducible (refine OnlyChanges.hres ?_)
    | ((with_reducible (refine OnlyChanges.upd ?_ (fun p hp => ?_))); on_goal 2 => (cases p <;> first | exact rfl | exact absurd (hP _ (by decide)) hp)))

end Sys2Proof.Laws
end

