-- ==== Sys2Proof/Laws/OnlyFollow.lean ====
section
/-! SUPPORT. What each operation of Follow.lean may change: one frame per operation. -/

set_option linter.unusedTactic false
set_option linter.unreachableTactic false
set_option linter.unusedVariables false
set_option linter.tactic.unusedName false

namespace Sys2Proof.Laws

open Sys2Proof.Machine Sys2Proof.Safety

theorem updCan_only {P : List Part} {s₀ : State} {x0 : Nat} {x1 : Can → Can} {t : State} (hP : Within [.can] P)  (h : OnlyChanges P s₀ t) :
    OnlyChanges P s₀ (State.updCan x0 x1 t) := by
  unfold State.updCan
  repeat' (first
    | with_reducible assumption
    | with_reducible (refine OnlyChanges.foldl ?_ (fun u a h => ?_))
    | (extract_lets +onlyGivenNames x; first | (refine OnlyChanges.cut x ?_ (fun h => ?_); (on_goal 2 => clear_value x); (on_goal 1 => subst x)) | clear_value x)
    | split
    | with_reducible (refine OnlyChanges.snd ?_)
    | with_reducible (refine OnlyChanges.fst ?_)
    | with_reducible (refine OnlyChanges.hres ?_)
    | ((with_reducible (refine OnlyChanges.upd ?_ (fun p hp => ?_))); on_goal 2 => (cases p <;> first | exact rfl | exact absurd (hP _ (by decide)) hp)))

theorem updCanQ_only {P : List Part} {s₀ : State} {x0 : Nat} {x1 : CanQ → CanQ} {t : State} (hP : Within [.canq] P)  (h : OnlyChanges P s₀ t) :
    OnlyChanges P s₀ (State.updCanQ x0 x1 t) := by
  unfold State.updCanQ
  repeat' (first
    | with_reducible assumption
    | with_reducible (refine OnlyChanges.foldl ?_ (fun u a h => ?_))
    | (extract_lets +onlyGivenNames x; first | (refine OnlyChanges.cut x ?_ (fun h => ?_); (on_goal 2 => clear_value x); (on_goal 1 => subst x)) | clear_value x)
    | split
    | with_reducible (refine OnlyChanges.snd ?_)
    | with_reducible (refine OnlyChanges.fst ?_)
    | with_reducible (refine OnlyChanges.hres ?_)
    | ((with_reducible (refine OnlyChanges.upd ?_ (fun p hp => ?_))); on_goal 2 => (cases p <;> first | exact rfl | exact absurd (hP _ (by decide)) hp)))

theorem canFollow_only {P : List Part} {s₀ : State} {x0 : Nat} {t : State} (hP : Within [.hif, .dpx, .dpx2, .can, .canq, .tly] P)  (h : OnlyChanges P s₀ t) :
    OnlyChanges P s₀ (State.canFollow x0 t) := by
  unfold State.canFollow
  repeat' (first
    | with_reducible assumption
    | with_reducible (refine updCan_only (hP.step (by decide)) ?_)
    | with_reducible (refine updCanQ_only (hP.step (by decide)) ?_)
    | with_reducible (refine abandon_only (hP.step (by decide)) ?_)
    | with_reducible (refine OnlyChanges.foldl ?_ (fun u a h => ?_))
    | (extract_lets +onlyGivenNames x; first | (refine OnlyChanges.cut x ?_ (fun h => ?_); (on_goal 2 => clear_value x); (on_goal 1 => subst x)) | clear_value x)
    | split
    | with_reducible (refine OnlyChanges.snd ?_)
    | with_reducible (refine OnlyChanges.fst ?_)
    | with_reducible (refine OnlyChanges.hres ?_)
    | ((with_reducible (refine OnlyChanges.upd ?_ (fun p hp => ?_))); on_goal 2 => (cases p <;> first | exact rfl | exact absurd (hP _ (by decide)) hp)))

theorem canSync_only {P : List Part} {s₀ : State}  {t : State} (hP : Within [.hif, .dpx, .dpx2, .can, .canq, .tly] P)  (h : OnlyChanges P s₀ t) :
    OnlyChanges P s₀ (State.canSync t) := by
  unfold State.canSync
  repeat' (first
    | with_reducible assumption
    | with_reducible (refine canFollow_only (hP.step (by decide)) ?_)
    | with_reducible (refine OnlyChanges.foldl ?_ (fun u a h => ?_))
    | (extract_lets +onlyGivenNames x; first | (refine OnlyChanges.cut x ?_ (fun h => ?_); (on_goal 2 => clear_value x); (on_goal 1 => subst x)) | clear_value x)
    | split
    | with_reducible (refine OnlyChanges.snd ?_)
    | with_reducible (refine OnlyChanges.fst ?_)
    | with_reducible (refine OnlyChanges.hres ?_)
    | ((with_reducible (refine OnlyChanges.upd ?_ (fun p hp => ?_))); on_goal 2 => (cases p <;> first | exact rfl | exact absurd (hP _ (by decide)) hp)))

theorem updDio_only {P : List Part} {s₀ : State} {x0 : Nat} {x1 : Dio → Dio} {t : State} (hP : Within [.fio] P)  (h : OnlyChanges P s₀ t) :
    OnlyChanges P s₀ (State.updDio x0 x1 t) := by
  unfold State.updDio
  repeat' (first
    | with_reducible assumption
    | with_reducible (refine OnlyChanges.foldl ?_ (fun u a h => ?_))
    | (extract_lets +onlyGivenNames x; first | (refine OnlyChanges.cut x ?_ (fun h => ?_); (on_goal 2 => clear_value x); (on_goal 1 => subst x)) | clear_value x)
    | split
    | with_reducible (refine OnlyChanges.snd ?_)
    | with_reducible (refine OnlyChanges.fst ?_)
    | with_reducible (refine OnlyChanges.hres ?_)
    | ((with_reducible (refine OnlyChanges.upd ?_ (fun p hp => ?_))); on_goal 2 => (cases p <;> first | exact rfl | exact absurd (hP _ (by decide)) hp)))

theorem driveWith_only {P : List Part} {s₀ : State} {x0 : Nat} {x1 : Dio → Dio} {t : State} (hP : Within [.fio, .outbox] P)  (h : OnlyChanges P s₀ t) :
    OnlyChanges P s₀ (State.driveWith x0 x1 t) := by
  unfold State.driveWith
  repeat' (first
    | with_reducible assumption
    | with_reducible (refine updDio_only (hP.step (by decide)) ?_)
    | with_reducible (refine put_only (hP.step (by decide)) ?_)
    | with_reducible (refine OnlyChanges.foldl ?_ (fun u a h => ?_))
    | (extract_lets +onlyGivenNames x; first | (refine OnlyChanges.cut x ?_ (fun h => ?_); (on_goal 2 => clear_value x); (on_goal 1 => subst x)) | clear_value x)
    | split
    | with_reducible (refine OnlyChanges.snd ?_)
    | with_reducible (refine OnlyChanges.fst ?_)
    | with_reducible (refine OnlyChanges.hres ?_)
    | ((with_reducible (refine OnlyChanges.upd ?_ (fun p hp => ?_))); on_goal 2 => (cases p <;> first | exact rfl | exact absurd (hP _ (by decide)) hp)))

theorem driveDio_only {P : List Part} {s₀ : State} {x0 : Nat} {x1 : Bool} {t : State} (hP : Within [.fio, .outbox] P)  (h : OnlyChanges P s₀ t) :
    OnlyChanges P s₀ (State.driveDio x0 x1 t) := by
  unfold State.driveDio
  repeat' (first
    | with_reducible assumption
    | with_reducible (refine driveWith_only (hP.step (by decide)) ?_)
    | with_reducible (refine OnlyChanges.foldl ?_ (fun u a h => ?_))
    | (extract_lets +onlyGivenNames x; first | (refine OnlyChanges.cut x ?_ (fun h => ?_); (on_goal 2 => clear_value x); (on_goal 1 => subst x)) | clear_value x)
    | split
    | with_reducible (refine OnlyChanges.snd ?_)
    | with_reducible (refine OnlyChanges.fst ?_)
    | with_reducible (refine OnlyChanges.hres ?_)
    | ((with_reducible (refine OnlyChanges.upd ?_ (fun p hp => ?_))); on_goal 2 => (cases p <;> first | exact rfl | exact absurd (hP _ (by decide)) hp)))

theorem updAio_only {P : List Part} {s₀ : State} {x0 : Nat} {x1 : Aio → Aio} {t : State} (hP : Within [.fio] P)  (h : OnlyChanges P s₀ t) :
    OnlyChanges P s₀ (State.updAio x0 x1 t) := by
  unfold State.updAio
  repeat' (first
    | with_reducible assumption
    | with_reducible (refine OnlyChanges.foldl ?_ (fun u a h => ?_))
    | (extract_lets +onlyGivenNames x; first | (refine OnlyChanges.cut x ?_ (fun h => ?_); (on_goal 2 => clear_value x); (on_goal 1 => subst x)) | clear_value x)
    | split
    | with_reducible (refine OnlyChanges.snd ?_)
    | with_reducible (refine OnlyChanges.fst ?_)
    | with_reducible (refine OnlyChanges.hres ?_)
    | ((with_reducible (refine OnlyChanges.upd ?_ (fun p hp => ?_))); on_goal 2 => (cases p <;> first | exact rfl | exact absurd (hP _ (by decide)) hp)))

theorem command_only {P : List Part} {s₀ : State} {x0 : Nat} {x1 : Int} {x2 : Aio → Aio} {t : State} (hP : Within [.fio, .outbox] P)  (h : OnlyChanges P s₀ t) :
    OnlyChanges P s₀ (State.command x0 x1 x2 t) := by
  unfold State.command
  repeat' (first
    | with_reducible assumption
    | with_reducible (refine updAio_only (hP.step (by decide)) ?_)
    | with_reducible (refine put_only (hP.step (by decide)) ?_)
    | with_reducible (refine OnlyChanges.foldl ?_ (fun u a h => ?_))
    | (extract_lets +onlyGivenNames x; first | (refine OnlyChanges.cut x ?_ (fun h => ?_); (on_goal 2 => clear_value x); (on_goal 1 => subst x)) | clear_value x)
    | split
    | with_reducible (refine OnlyChanges.snd ?_)
    | with_reducible (refine OnlyChanges.fst ?_)
    | with_reducible (refine OnlyChanges.hres ?_)
    | ((with_reducible (refine OnlyChanges.upd ?_ (fun p hp => ?_))); on_goal 2 => (cases p <;> first | exact rfl | exact absurd (hP _ (by decide)) hp)))

theorem driveFail_only {P : List Part} {s₀ : State} {x0 : Nat} {t : State} (hP : Within [.fio, .outbox] P)  (h : OnlyChanges P s₀ t) :
    OnlyChanges P s₀ (State.driveFail x0 t) := by
  unfold State.driveFail
  repeat' (first
    | with_reducible assumption
    | with_reducible (refine command_only (hP.step (by decide)) ?_)
    | with_reducible (refine OnlyChanges.foldl ?_ (fun u a h => ?_))
    | (extract_lets +onlyGivenNames x; first | (refine OnlyChanges.cut x ?_ (fun h => ?_); (on_goal 2 => clear_value x); (on_goal 1 => subst x)) | clear_value x)
    | split
    | with_reducible (refine OnlyChanges.snd ?_)
    | with_reducible (refine OnlyChanges.fst ?_)
    | with_reducible (refine OnlyChanges.hres ?_)
    | ((with_reducible (refine OnlyChanges.upd ?_ (fun p hp => ?_))); on_goal 2 => (cases p <;> first | exact rfl | exact absurd (hP _ (by decide)) hp)))

theorem driveZero_only {P : List Part} {s₀ : State} {x0 : Nat} {t : State} (hP : Within [.fio, .outbox] P)  (h : OnlyChanges P s₀ t) :
    OnlyChanges P s₀ (State.driveZero x0 t) := by
  unfold State.driveZero
  repeat' (first
    | with_reducible assumption
    | with_reducible (refine command_only (hP.step (by decide)) ?_)
    | with_reducible (refine OnlyChanges.foldl ?_ (fun u a h => ?_))
    | (extract_lets +onlyGivenNames x; first | (refine OnlyChanges.cut x ?_ (fun h => ?_); (on_goal 2 => clear_value x); (on_goal 1 => subst x)) | clear_value x)
    | split
    | with_reducible (refine OnlyChanges.snd ?_)
    | with_reducible (refine OnlyChanges.fst ?_)
    | with_reducible (refine OnlyChanges.hres ?_)
    | ((with_reducible (refine OnlyChanges.upd ?_ (fun p hp => ?_))); on_goal 2 => (cases p <;> first | exact rfl | exact absurd (hP _ (by decide)) hp)))

theorem driveAo_only {P : List Part} {s₀ : State} {x0 : Nat} {x1 : Word} {t : State} (hP : Within [.fio, .outbox] P)  (h : OnlyChanges P s₀ t) :
    OnlyChanges P s₀ (State.driveAo x0 x1 t) := by
  unfold State.driveAo
  repeat' (first
    | with_reducible assumption
    | with_reducible (refine command_only (hP.step (by decide)) ?_)
    | with_reducible (refine driveFail_only (hP.step (by decide)) ?_)
    | with_reducible (refine OnlyChanges.foldl ?_ (fun u a h => ?_))
    | (extract_lets +onlyGivenNames x; first | (refine OnlyChanges.cut x ?_ (fun h => ?_); (on_goal 2 => clear_value x); (on_goal 1 => subst x)) | clear_value x)
    | split
    | with_reducible (refine OnlyChanges.snd ?_)
    | with_reducible (refine OnlyChanges.fst ?_)
    | with_reducible (refine OnlyChanges.hres ?_)
    | ((with_reducible (refine OnlyChanges.upd ?_ (fun p hp => ?_))); on_goal 2 => (cases p <;> first | exact rfl | exact absurd (hP _ (by decide)) hp)))

theorem driveSafe_only {P : List Part} {s₀ : State} {x0 : Nat} {t : State} (hP : Within [.fio, .outbox] P)  (h : OnlyChanges P s₀ t) :
    OnlyChanges P s₀ (State.driveSafe x0 t) := by
  unfold State.driveSafe
  repeat' (first
    | with_reducible assumption
    | with_reducible (refine driveAo_only (hP.step (by decide)) ?_)
    | with_reducible (refine driveFail_only (hP.step (by decide)) ?_)
    | with_reducible (refine OnlyChanges.foldl ?_ (fun u a h => ?_))
    | (extract_lets +onlyGivenNames x; first | (refine OnlyChanges.cut x ?_ (fun h => ?_); (on_goal 2 => clear_value x); (on_goal 1 => subst x)) | clear_value x)
    | split
    | with_reducible (refine OnlyChanges.snd ?_)
    | with_reducible (refine OnlyChanges.fst ?_)
    | with_reducible (refine OnlyChanges.hres ?_)
    | ((with_reducible (refine OnlyChanges.upd ?_ (fun p hp => ?_))); on_goal 2 => (cases p <;> first | exact rfl | exact absurd (hP _ (by decide)) hp)))

theorem fioFollow_only {P : List Part} {s₀ : State} {x0 : Mode} {t : State} (hP : Within [.fio, .outbox] P)  (h : OnlyChanges P s₀ t) :
    OnlyChanges P s₀ (State.fioFollow x0 t) := by
  unfold State.fioFollow
  repeat' (first
    | with_reducible assumption
    | with_reducible (refine driveZero_only (hP.step (by decide)) ?_)
    | with_reducible (refine driveDio_only (hP.step (by decide)) ?_)
    | with_reducible (refine driveFail_only (hP.step (by decide)) ?_)
    | with_reducible (refine OnlyChanges.foldl ?_ (fun u a h => ?_))
    | (extract_lets +onlyGivenNames x; first | (refine OnlyChanges.cut x ?_ (fun h => ?_); (on_goal 2 => clear_value x); (on_goal 1 => subst x)) | clear_value x)
    | split
    | with_reducible (refine OnlyChanges.snd ?_)
    | with_reducible (refine OnlyChanges.fst ?_)
    | with_reducible (refine OnlyChanges.hres ?_)
    | ((with_reducible (refine OnlyChanges.upd ?_ (fun p hp => ?_))); on_goal 2 => (cases p <;> first | exact rfl | exact absurd (hP _ (by decide)) hp)))

end Sys2Proof.Laws
end

