-- ==== Sys2Proof/Laws/OnlyFrames.lean ====
section
/-! SUPPORT. What each operation of Frames.lean may change: one frame per operation. -/

set_option linter.unusedTactic false
set_option linter.unreachableTactic false
set_option linter.unusedVariables false
set_option linter.tactic.unusedName false

namespace Sys2Proof.Laws

open Sys2Proof.Machine Sys2Proof.Safety

theorem updStn_only {P : List Part} {s₀ : State} {x0 : Nat} {x1 : Stn → Stn} {t : State} (hP : Within [.net] P)  (h : OnlyChanges P s₀ t) :
    OnlyChanges P s₀ (State.updStn x0 x1 t) := by
  unfold State.updStn
  repeat' (first
    | with_reducible assumption
    | with_reducible (refine OnlyChanges.foldl ?_ (fun u a h => ?_))
    | (extract_lets +onlyGivenNames x; first | (refine OnlyChanges.cut x ?_ (fun h => ?_); (on_goal 2 => clear_value x); (on_goal 1 => subst x)) | clear_value x)
    | split
    | with_reducible (refine OnlyChanges.snd ?_)
    | with_reducible (refine OnlyChanges.fst ?_)
    | with_reducible (refine OnlyChanges.hres ?_)
    | ((with_reducible (refine OnlyChanges.upd ?_ (fun p hp => ?_))); on_goal 2 => (cases p <;> first | exact rfl | exact absurd (hP _ (by decide)) hp)))

theorem nextSeq_only {P : List Part} {s₀ : State} {x0 : Nat} {t : State} (hP : Within [.net] P)  (h : OnlyChanges P s₀ t) :
    OnlyChanges P s₀ ((State.nextSeq x0 t).2) := by
  unfold State.nextSeq
  repeat' (first
    | with_reducible assumption
    | with_reducible (refine OnlyChanges.foldl ?_ (fun u a h => ?_))
    | (extract_lets +onlyGivenNames x; first | (refine OnlyChanges.cut x ?_ (fun h => ?_); (on_goal 2 => clear_value x); (on_goal 1 => subst x)) | clear_value x)
    | split
    | with_reducible (refine OnlyChanges.snd ?_)
    | with_reducible (refine OnlyChanges.fst ?_)
    | with_reducible (refine OnlyChanges.hres ?_)
    | ((with_reducible (refine OnlyChanges.upd ?_ (fun p hp => ?_))); on_goal 2 => (cases p <;> first | exact rfl | exact absurd (hP _ (by decide)) hp)))

theorem sendIn_only {P : List Part} {s₀ : State} {x0 : FrameKind} {x1 : Nat} {x2 : Nat} {x3 : Bool} {x4 : BitVec 16} {x5 : BitVec 4} {x6 : List Byte} {t : State} (hP : Within [.net, .outbox] P)  (h : OnlyChanges P s₀ t) :
    OnlyChanges P s₀ (State.sendIn x0 x1 x2 x3 x4 x5 x6 t) := by
  unfold State.sendIn
  repeat' (first
    | with_reducible assumption
    | with_reducible (refine nextSeq_only (hP.step (by decide)) ?_)
    | with_reducible (refine put_only (hP.step (by decide)) ?_)
    | with_reducible (refine OnlyChanges.foldl ?_ (fun u a h => ?_))
    | (extract_lets +onlyGivenNames x; first | (refine OnlyChanges.cut x ?_ (fun h => ?_); (on_goal 2 => clear_value x); (on_goal 1 => subst x)) | (refine OnlyChanges.cut x.2 ?_ (fun h => ?_); (on_goal 2 => clear_value x); (on_goal 1 => subst x)) | clear_value x)
    | (generalize he : State.nextSeq _ _ = e; have k : OnlyChanges P s₀ e.2 := (by rw [← he]; refine nextSeq_only (hP.step (by decide)) ?_ <;> with_reducible assumption); clear he; obtain ⟨a, u⟩ := e; dsimp -zeta only at k ⊢)
    | split
    | with_reducible (refine OnlyChanges.snd ?_)
    | with_reducible (refine OnlyChanges.fst ?_)
    | with_reducible (refine OnlyChanges.hres ?_)
    | ((with_reducible (refine OnlyChanges.upd ?_ (fun p hp => ?_))); on_goal 2 => (cases p <;> first | exact rfl | exact absurd (hP _ (by decide)) hp)))

theorem sendFrame_only {P : List Part} {s₀ : State} {x0 : FrameKind} {x1 : Nat} {x2 : Nat} {x3 : Bool} {x4 : List Byte} {t : State} (hP : Within [.net, .outbox] P)  (h : OnlyChanges P s₀ t) :
    OnlyChanges P s₀ (State.sendFrame x0 x1 x2 x3 x4 t) := by
  unfold State.sendFrame
  repeat' (first
    | with_reducible assumption
    | with_reducible (refine sendIn_only (hP.step (by decide)) ?_)
    | with_reducible (refine OnlyChanges.foldl ?_ (fun u a h => ?_))
    | (extract_lets +onlyGivenNames x; first | (refine OnlyChanges.cut x ?_ (fun h => ?_); (on_goal 2 => clear_value x); (on_goal 1 => subst x)) | clear_value x)
    | split
    | with_reducible (refine OnlyChanges.snd ?_)
    | with_reducible (refine OnlyChanges.fst ?_)
    | with_reducible (refine OnlyChanges.hres ?_)
    | ((with_reducible (refine OnlyChanges.upd ?_ (fun p hp => ?_))); on_goal 2 => (cases p <;> first | exact rfl | exact absurd (hP _ (by decide)) hp)))

theorem sendParts_only {P : List Part} {s₀ : State} {x0 : Nat} {x1 : Nat} {x2 : List Byte} {x4 : Nat} {t : State} (hP : Within [.net, .outbox] P)  (h : OnlyChanges P s₀ t) :
    OnlyChanges P s₀ (State.sendParts x0 x1 x2 t x4) := by
  induction x4 generalizing t with
  | zero => exact h
  | succ k ih => exact ih (sendFrame_only (hP.step (by decide)) h)

theorem sendBlock_only {P : List Part} {s₀ : State} {x0 : Nat} {t : State} (hP : Within [.net, .outbox] P)  (h : OnlyChanges P s₀ t) :
    OnlyChanges P s₀ (State.sendBlock x0 t) := by
  unfold State.sendBlock
  repeat' (first
    | with_reducible assumption
    | with_reducible (refine sendParts_only (hP.step (by decide)) ?_)
    | with_reducible (refine OnlyChanges.foldl ?_ (fun u a h => ?_))
    | (extract_lets +onlyGivenNames x; first | (refine OnlyChanges.cut x ?_ (fun h => ?_); (on_goal 2 => clear_value x); (on_goal 1 => subst x)) | clear_value x)
    | split
    | with_reducible (refine OnlyChanges.snd ?_)
    | with_reducible (refine OnlyChanges.fst ?_)
    | with_reducible (refine OnlyChanges.hres ?_)
    | ((with_reducible (refine OnlyChanges.upd ?_ (fun p hp => ?_))); on_goal 2 => (cases p <;> first | exact rfl | exact absurd (hP _ (by decide)) hp)))

theorem refuseStn_only {P : List Part} {s₀ : State} {x0 : Nat} {x1 : Nat} {x2 : Word} {t : State} (hP : Within [.net, .tly] P)  (h : OnlyChanges P s₀ t) :
    OnlyChanges P s₀ (State.refuseStn x0 x1 x2 t) := by
  unfold State.refuseStn
  repeat' (first
    | with_reducible assumption
    | with_reducible (refine updStn_only (hP.step (by decide)) ?_)
    | with_reducible (refine log_only (hP.step (by decide)) ?_)
    | with_reducible (refine OnlyChanges.foldl ?_ (fun u a h => ?_))
    | (extract_lets +onlyGivenNames x; first | (refine OnlyChanges.cut x ?_ (fun h => ?_); (on_goal 2 => clear_value x); (on_goal 1 => subst x)) | clear_value x)
    | split
    | with_reducible (refine OnlyChanges.snd ?_)
    | with_reducible (refine OnlyChanges.fst ?_)
    | with_reducible (refine OnlyChanges.hres ?_)
    | ((with_reducible (refine OnlyChanges.upd ?_ (fun p hp => ?_))); on_goal 2 => (cases p <;> first | exact rfl | exact absurd (hP _ (by decide)) hp)))

theorem newBlock_only {P : List Part} {s₀ : State} {x0 : Nat} {t : State} (hP : Within [.net, .tly, .outbox] P)  (h : OnlyChanges P s₀ t) :
    OnlyChanges P s₀ (State.newBlock x0 t) := by
  unfold State.newBlock
  repeat' (first
    | with_reducible assumption
    | with_reducible (refine refuseStn_only (hP.step (by decide)) ?_)
    | with_reducible (refine updStn_only (hP.step (by decide)) ?_)
    | with_reducible (refine sendBlock_only (hP.step (by decide)) ?_)
    | with_reducible (refine OnlyChanges.foldl ?_ (fun u a h => ?_))
    | (extract_lets +onlyGivenNames x; first | (refine OnlyChanges.cut x ?_ (fun h => ?_); (on_goal 2 => clear_value x); (on_goal 1 => subst x)) | clear_value x)
    | split
    | with_reducible (refine OnlyChanges.snd ?_)
    | with_reducible (refine OnlyChanges.fst ?_)
    | with_reducible (refine OnlyChanges.hres ?_)
    | ((with_reducible (refine OnlyChanges.upd ?_ (fun p hp => ?_))); on_goal 2 => (cases p <;> first | exact rfl | exact absurd (hP _ (by decide)) hp)))

theorem newBlocks_only {P : List Part} {s₀ : State}  {t : State} (hP : Within [.net, .tly, .outbox] P)  (h : OnlyChanges P s₀ t) :
    OnlyChanges P s₀ (State.newBlocks t) := by
  unfold State.newBlocks
  repeat' (first
    | with_reducible assumption
    | with_reducible (refine newBlock_only (hP.step (by decide)) ?_)
    | with_reducible (refine OnlyChanges.foldl ?_ (fun u a h => ?_))
    | (extract_lets +onlyGivenNames x; first | (refine OnlyChanges.cut x ?_ (fun h => ?_); (on_goal 2 => clear_value x); (on_goal 1 => subst x)) | clear_value x)
    | split
    | with_reducible (refine OnlyChanges.snd ?_)
    | with_reducible (refine OnlyChanges.fst ?_)
    | with_reducible (refine OnlyChanges.hres ?_)
    | ((with_reducible (refine OnlyChanges.upd ?_ (fun p hp => ?_))); on_goal 2 => (cases p <;> first | exact rfl | exact absurd (hP _ (by decide)) hp)))

end Sys2Proof.Laws
end

