-- ==== Sys2Proof/Laws/OnlyStart.lean ====
section
/-! SUPPORT. What each operation of Start.lean may change: one frame per operation. -/

set_option linter.unusedTactic false
set_option linter.unreachableTactic false
set_option linter.unusedVariables false
set_option linter.tactic.unusedName false

namespace Sys2Proof.Laws

open Sys2Proof.Machine Sys2Proof.Safety

theorem clearBeacons_only {P : List Part} {s₀ : State}  {t : State} (hP : Within [.dpx, .dpx2] P)  (h : OnlyChanges P s₀ t) :
    OnlyChanges P s₀ (State.clearBeacons t) := by
  unfold State.clearBeacons
  repeat' (first
    | with_reducible assumption
    | with_reducible (refine OnlyChanges.foldl ?_ (fun u a h => ?_))
    | (extract_lets +onlyGivenNames x; first | (refine OnlyChanges.cut x ?_ (fun h => ?_); (on_goal 2 => clear_value x); (on_goal 1 => subst x)) | clear_value x)
    | split
    | with_reducible (refine OnlyChanges.snd ?_)
    | with_reducible (refine OnlyChanges.fst ?_)
    | with_reducible (refine OnlyChanges.hres ?_)
    | ((with_reducible (refine OnlyChanges.upd ?_ (fun p hp => ?_))); on_goal 2 => (cases p <;> first | exact rfl | exact absurd (hP _ (by decide)) hp)))

theorem takeEpoch_only {P : List Part} {s₀ : State}  {t : State} (hP : Within [.dpx, .dpx2] P)  (h : OnlyChanges P s₀ t) :
    OnlyChanges P s₀ (State.takeEpoch t) := by
  unfold State.takeEpoch
  repeat' (first
    | with_reducible assumption
    | with_reducible (refine clearBeacons_only (hP.step (by decide)) ?_)
    | with_reducible (refine OnlyChanges.foldl ?_ (fun u a h => ?_))
    | (extract_lets +onlyGivenNames x; first | (refine OnlyChanges.cut x ?_ (fun h => ?_); (on_goal 2 => clear_value x); (on_goal 1 => subst x)) | clear_value x)
    | split
    | with_reducible (refine OnlyChanges.snd ?_)
    | with_reducible (refine OnlyChanges.fst ?_)
    | with_reducible (refine OnlyChanges.hres ?_)
    | ((with_reducible (refine OnlyChanges.upd ?_ (fun p hp => ?_))); on_goal 2 => (cases p <;> first | exact rfl | exact absurd (hP _ (by decide)) hp)))

theorem setSync_only {P : List Part} {s₀ : State} {x0 : SyncState} {x1 : Nat} {x2 : Nat} {t : State} (hP : Within [.dpx, .tly] P)  (h : OnlyChanges P s₀ t) :
    OnlyChanges P s₀ (State.setSync x0 x1 x2 t) := by
  unfold State.setSync
  repeat' (first
    | with_reducible assumption
    | with_reducible (refine log_only (hP.step (by decide)) ?_)
    | with_reducible (refine OnlyChanges.foldl ?_ (fun u a h => ?_))
    | (extract_lets +onlyGivenNames x; first | (refine OnlyChanges.cut x ?_ (fun h => ?_); (on_goal 2 => clear_value x); (on_goal 1 => subst x)) | clear_value x)
    | split
    | with_reducible (refine OnlyChanges.snd ?_)
    | with_reducible (refine OnlyChanges.fst ?_)
    | with_reducible (refine OnlyChanges.hres ?_)
    | ((with_reducible (refine OnlyChanges.upd ?_ (fun p hp => ?_))); on_goal 2 => (cases p <;> first | exact rfl | exact absurd (hP _ (by decide)) hp)))

theorem kept_only {P : List Part} {s₀ : State}  {t : State} (hP : Within [.sys, .hif, .cyc, .lsp, .cle, .chg, .dpx, .dpx2, .mir, .net, .tim, .can, .canq, .fio, .saf, .tly, .mm, .boot, .pwr, .cfg, .prog, .regs, .live, .votes, .press, .posted] P)  (h : OnlyChanges P s₀ t) :
    OnlyChanges P s₀ (State.kept t) := by
  refine ⟨fun p hp => ?_⟩
  have h1 := h.same p hp
  cases p <;> first | exact h1 | exact absurd (hP _ (by decide)) hp

theorem bootOutputs_only {P : List Part} {s₀ : State}  {t : State} (hP : Within [.fio, .saf, .outbox] P)  (h : OnlyChanges P s₀ t) :
    OnlyChanges P s₀ (State.bootOutputs t) := by
  unfold State.bootOutputs
  repeat' (first
    | with_reducible assumption
    | with_reducible (refine soOff_only (hP.step (by decide)) ?_)
    | with_reducible (refine driveWith_only (hP.step (by decide)) ?_)
    | with_reducible (refine driveZero_only (hP.step (by decide)) ?_)
    | with_reducible (refine OnlyChanges.foldl ?_ (fun u a h => ?_))
    | (extract_lets +onlyGivenNames x; first | (refine OnlyChanges.cut x ?_ (fun h => ?_); (on_goal 2 => clear_value x); (on_goal 1 => subst x)) | clear_value x)
    | split
    | with_reducible (refine OnlyChanges.snd ?_)
    | with_reducible (refine OnlyChanges.fst ?_)
    | with_reducible (refine OnlyChanges.hres ?_)
    | ((with_reducible (refine OnlyChanges.upd ?_ (fun p hp => ?_))); on_goal 2 => (cases p <;> first | exact rfl | exact absurd (hP _ (by decide)) hp)))

theorem tripGroup_only {P : List Part} {s₀ : State} {x0 : Nat} {x1 : Nat} {t : State} (hP : Within [.sys, .tly] P)  (h : OnlyChanges P s₀ t) :
    OnlyChanges P s₀ (State.tripGroup x0 x1 t) := by
  unfold State.tripGroup
  repeat' (first
    | with_reducible assumption
    | with_reducible (refine log_only (hP.step (by decide)) ?_)
    | with_reducible (refine OnlyChanges.foldl ?_ (fun u a h => ?_))
    | (extract_lets +onlyGivenNames x; first | (refine OnlyChanges.cut x ?_ (fun h => ?_); (on_goal 2 => clear_value x); (on_goal 1 => subst x)) | clear_value x)
    | split
    | with_reducible (refine OnlyChanges.snd ?_)
    | with_reducible (refine OnlyChanges.fst ?_)
    | with_reducible (refine OnlyChanges.hres ?_)
    | ((with_reducible (refine OnlyChanges.upd ?_ (fun p hp => ?_))); on_goal 2 => (cases p <;> first | exact rfl | exact absurd (hP _ (by decide)) hp)))

theorem keyTrip_only {P : List Part} {s₀ : State} {x0 : Nat} {t : State} (hP : Within [.sys, .tly, .boot] P)  (h : OnlyChanges P s₀ t) :
    OnlyChanges P s₀ (State.keyTrip x0 t) := by
  unfold State.keyTrip
  repeat' (first
    | with_reducible assumption
    | with_reducible (refine tripGroup_only (hP.step (by decide)) ?_)
    | with_reducible (refine OnlyChanges.foldl ?_ (fun u a h => ?_))
    | (extract_lets +onlyGivenNames x; first | (refine OnlyChanges.cut x ?_ (fun h => ?_); (on_goal 2 => clear_value x); (on_goal 1 => subst x)) | clear_value x)
    | split
    | with_reducible (refine OnlyChanges.snd ?_)
    | with_reducible (refine OnlyChanges.fst ?_)
    | with_reducible (refine OnlyChanges.hres ?_)
    | ((with_reducible (refine OnlyChanges.upd ?_ (fun p hp => ?_))); on_goal 2 => (cases p <;> first | exact rfl | exact absurd (hP _ (by decide)) hp)))

theorem mramDouble_only {P : List Part} {s₀ : State} {x0 : MramErr} {t : State} (hP : Within [.sys, .hif, .fio, .tly, .mm, .boot] P)  (h : OnlyChanges P s₀ t) :
    OnlyChanges P s₀ (State.mramDouble x0 t) := by
  unfold State.mramDouble
  repeat' (first
    | with_reducible assumption
    | with_reducible (refine journal_only (hP.step (by decide)) ?_)
    | with_reducible (refine keyTrip_only (hP.step (by decide)) ?_)
    | with_reducible (refine updAio_only (hP.step (by decide)) ?_)
    | with_reducible (refine log_only (hP.step (by decide)) ?_)
    | with_reducible (refine OnlyChanges.foldl ?_ (fun u a h => ?_))
    | (extract_lets +onlyGivenNames x; first | (refine OnlyChanges.cut x ?_ (fun h => ?_); (on_goal 2 => clear_value x); (on_goal 1 => subst x)) | clear_value x)
    | split
    | with_reducible (refine OnlyChanges.snd ?_)
    | with_reducible (refine OnlyChanges.fst ?_)
    | with_reducible (refine OnlyChanges.hres ?_)
    | ((with_reducible (refine OnlyChanges.upd ?_ (fun p hp => ?_))); on_goal 2 => (cases p <;> first | exact rfl | exact absurd (hP _ (by decide)) hp)))

theorem mramRead_only {P : List Part} {s₀ : State} {x0 : Nat} {x1 : List MramErr} {t : State} (hP : Within [.sys, .hif, .fio, .tly, .mm, .boot] P)  (h : OnlyChanges P s₀ t) :
    OnlyChanges P s₀ (State.mramRead x0 x1 t) := by
  unfold State.mramRead
  repeat' (first
    | with_reducible assumption
    | with_reducible (refine mramDouble_only (hP.step (by decide)) ?_)
    | with_reducible (refine OnlyChanges.foldl ?_ (fun u a h => ?_))
    | (extract_lets +onlyGivenNames x; first | (refine OnlyChanges.cut x ?_ (fun h => ?_); (on_goal 2 => clear_value x); (on_goal 1 => subst x)) | clear_value x)
    | split
    | with_reducible (refine OnlyChanges.snd ?_)
    | with_reducible (refine OnlyChanges.fst ?_)
    | with_reducible (refine OnlyChanges.hres ?_)
    | ((with_reducible (refine OnlyChanges.upd ?_ (fun p hp => ?_))); on_goal 2 => (cases p <;> first | exact rfl | exact absurd (hP _ (by decide)) hp)))

theorem powerMark_only {P : List Part} {s₀ : State}  {t : State} (hP : Within [.tly] P)  (h : OnlyChanges P s₀ t) :
    OnlyChanges P s₀ (State.powerMark t) := by
  unfold State.powerMark
  repeat' (first
    | with_reducible assumption
    | with_reducible (refine enqueue_only (hP.step (by decide)) ?_)
    | with_reducible (refine OnlyChanges.foldl ?_ (fun u a h => ?_))
    | (extract_lets +onlyGivenNames x; first | (refine OnlyChanges.cut x ?_ (fun h => ?_); (on_goal 2 => clear_value x); (on_goal 1 => subst x)) | clear_value x)
    | split
    | with_reducible (refine OnlyChanges.snd ?_)
    | with_reducible (refine OnlyChanges.fst ?_)
    | with_reducible (refine OnlyChanges.hres ?_)
    | ((with_reducible (refine OnlyChanges.upd ?_ (fun p hp => ?_))); on_goal 2 => (cases p <;> first | exact rfl | exact absurd (hP _ (by decide)) hp)))

theorem tamperRead_only {P : List Part} {s₀ : State}  {t : State} (hP : Within [.tly, .ret] P)  (h : OnlyChanges P s₀ t) :
    OnlyChanges P s₀ (State.tamperRead t) := by
  unfold State.tamperRead
  repeat' (first
    | with_reducible assumption
    | with_reducible (refine log_only (hP.step (by decide)) ?_)
    | with_reducible (refine OnlyChanges.foldl ?_ (fun u a h => ?_))
    | (extract_lets +onlyGivenNames x; first | (refine OnlyChanges.cut x ?_ (fun h => ?_); (on_goal 2 => clear_value x); (on_goal 1 => subst x)) | clear_value x)
    | split
    | with_reducible (refine OnlyChanges.snd ?_)
    | with_reducible (refine OnlyChanges.fst ?_)
    | with_reducible (refine OnlyChanges.hres ?_)
    | ((with_reducible (refine OnlyChanges.upd ?_ (fun p hp => ?_))); on_goal 2 => (cases p <;> first | exact rfl | exact absurd (hP _ (by decide)) hp)))

theorem newNonce_only {P : List Part} {s₀ : State}  {t : State} (hP : Within [.tly, .freeN] P)  (h : OnlyChanges P s₀ t) :
    OnlyChanges P s₀ (State.newNonce t) := by
  unfold State.newNonce
  repeat' (first
    | with_reducible assumption
    | with_reducible (refine draw_only (hP.step (by decide)) ?_)
    | with_reducible (refine OnlyChanges.foldl ?_ (fun u a h => ?_))
    | (extract_lets +onlyGivenNames x; first | (refine OnlyChanges.cut x ?_ (fun h => ?_); (on_goal 2 => clear_value x); (on_goal 1 => subst x)) | (refine OnlyChanges.cut x.2 ?_ (fun h => ?_); (on_goal 2 => clear_value x); (on_goal 1 => subst x)) | clear_value x)
    | split
    | with_reducible (refine OnlyChanges.snd ?_)
    | with_reducible (refine OnlyChanges.fst ?_)
    | with_reducible (refine OnlyChanges.hres ?_)
    | ((with_reducible (refine OnlyChanges.upd ?_ (fun p hp => ?_))); on_goal 2 => (cases p <;> first | exact rfl | exact absurd (hP _ (by decide)) hp)))

theorem factoryCheck_only {P : List Part} {s₀ : State} {x0 : List (Fin 16)} {t : State} (hP : Within [.fio] P)  (h : OnlyChanges P s₀ t) :
    OnlyChanges P s₀ (State.factoryCheck x0 t) := by
  unfold State.factoryCheck
  repeat' (first
    | with_reducible assumption
    | with_reducible (refine updAio_only (hP.step (by decide)) ?_)
    | with_reducible (refine OnlyChanges.foldl ?_ (fun u a h => ?_))
    | (extract_lets +onlyGivenNames x; first | (refine OnlyChanges.cut x ?_ (fun h => ?_); (on_goal 2 => clear_value x); (on_goal 1 => subst x)) | clear_value x)
    | split
    | with_reducible (refine OnlyChanges.snd ?_)
    | with_reducible (refine OnlyChanges.fst ?_)
    | with_reducible (refine OnlyChanges.hres ?_)
    | ((with_reducible (refine OnlyChanges.upd ?_ (fun p hp => ?_))); on_goal 2 => (cases p <;> first | exact rfl | exact absurd (hP _ (by decide)) hp)))

theorem step2_only {P : List Part} {s₀ : State} {x0 : Bool} {x1 : BootObs} {t : State} (hP : Within [.sys, .hif, .cyc, .lsp, .cle, .chg, .dpx, .dpx2, .mir, .net, .tim, .can, .canq, .fio, .saf, .tly, .mm, .boot, .pwr, .ret, .cfg, .prog, .regs, .live, .votes, .press, .posted, .outbox, .freeN] P)  (h : OnlyChanges P s₀ t) :
    OnlyChanges P s₀ (State.step2 x0 x1 t) := by
  unfold State.step2
  repeat' (first
    | with_reducible assumption
    | with_reducible (refine bootOutputs_only (hP.step (by decide)) ?_)
    | with_reducible (refine kept_only (hP.step (by decide)) ?_)
    | with_reducible (refine powerMark_only (hP.step (by decide)) ?_)
    | with_reducible (refine log_only (hP.step (by decide)) ?_)
    | with_reducible (refine mramRead_only (hP.step (by decide)) ?_)
    | with_reducible (refine factoryCheck_only (hP.step (by decide)) ?_)
    | with_reducible (refine keyTrip_only (hP.step (by decide)) ?_)
    | with_reducible (refine tamperRead_only (hP.step (by decide)) ?_)
    | with_reducible (refine newNonce_only (hP.step (by decide)) ?_)
    | with_reducible (refine OnlyChanges.foldl ?_ (fun u a h => ?_))
    | (extract_lets +onlyGivenNames x; first | (refine OnlyChanges.cut x ?_ (fun h => ?_); (on_goal 2 => clear_value x); (on_goal 1 => subst x)) | clear_value x)
    | split
    | with_reducible (refine OnlyChanges.snd ?_)
    | with_reducible (refine OnlyChanges.fst ?_)
    | with_reducible (refine OnlyChanges.hres ?_)
    | ((with_reducible (refine OnlyChanges.upd ?_ (fun p hp => ?_))); on_goal 2 => (cases p <;> first | exact rfl | exact absurd (hP _ (by decide)) hp)))

theorem step3_only {P : List Part} {s₀ : State}  {t : State} (hP : Within [.boot] P)  (h : OnlyChanges P s₀ t) :
    OnlyChanges P s₀ (State.step3 t) := by
  unfold State.step3
  repeat' (first
    | with_reducible assumption
    | with_reducible (refine OnlyChanges.foldl ?_ (fun u a h => ?_))
    | (extract_lets +onlyGivenNames x; first | (refine OnlyChanges.cut x ?_ (fun h => ?_); (on_goal 2 => clear_value x); (on_goal 1 => subst x)) | clear_value x)
    | split
    | with_reducible (refine OnlyChanges.snd ?_)
    | with_reducible (refine OnlyChanges.fst ?_)
    | with_reducible (refine OnlyChanges.hres ?_)
    | ((with_reducible (refine OnlyChanges.upd ?_ (fun p hp => ?_))); on_goal 2 => (cases p <;> first | exact rfl | exact absurd (hP _ (by decide)) hp)))

theorem markDevice_only {P : List Part} {s₀ : State} {x0 : Nat} {x1 : Nat} {t : State} (hP : Within [.tly, .mm] P)  (h : OnlyChanges P s₀ t) :
    OnlyChanges P s₀ (State.markDevice x0 x1 t) := by
  unfold State.markDevice
  repeat' (first
    | with_reducible assumption
    | with_reducible (refine log_only (hP.step (by decide)) ?_)
    | with_reducible (refine OnlyChanges.foldl ?_ (fun u a h => ?_))
    | (extract_lets +onlyGivenNames x; first | (refine OnlyChanges.cut x ?_ (fun h => ?_); (on_goal 2 => clear_value x); (on_goal 1 => subst x)) | clear_value x)
    | split
    | with_reducible (refine OnlyChanges.snd ?_)
    | with_reducible (refine OnlyChanges.fst ?_)
    | with_reducible (refine OnlyChanges.hres ?_)
    | ((with_reducible (refine OnlyChanges.upd ?_ (fun p hp => ?_))); on_goal 2 => (cases p <;> first | exact rfl | exact absurd (hP _ (by decide)) hp)))

theorem step4_only {P : List Part} {s₀ : State} {x0 : BootObs} {t : State} (hP : Within [.tly, .mm, .boot] P)  (h : OnlyChanges P s₀ t) :
    OnlyChanges P s₀ (State.step4 x0 t) := by
  unfold State.step4
  repeat' (first
    | with_reducible assumption
    | with_reducible (refine markDevice_only (hP.step (by decide)) ?_)
    | with_reducible (refine OnlyChanges.foldl ?_ (fun u a h => ?_))
    | (extract_lets +onlyGivenNames x; first | (refine OnlyChanges.cut x ?_ (fun h => ?_); (on_goal 2 => clear_value x); (on_goal 1 => subst x)) | clear_value x)
    | split
    | with_reducible (refine OnlyChanges.snd ?_)
    | with_reducible (refine OnlyChanges.fst ?_)
    | with_reducible (refine OnlyChanges.hres ?_)
    | ((with_reducible (refine OnlyChanges.upd ?_ (fun p hp => ?_))); on_goal 2 => (cases p <;> first | exact rfl | exact absurd (hP _ (by decide)) hp)))

theorem loadRegs_only {P : List Part} {s₀ : State} {x0 : Tab Word} {t : State} (hP : Within [.regs, .live, .votes] P)  (h : OnlyChanges P s₀ t) :
    OnlyChanges P s₀ (State.loadRegs x0 t) := by
  revert h
  induction x0 generalizing t with
  | nil => exact fun h => h
  | cons e l ih =>
    intro h
    obtain ⟨o, v⟩ := e
    refine ih ?_
    split
    · exact setVote_only (hP.step (by decide)) h
    · exact setLive_only (hP.step (by decide)) (setReg_only (hP.step (by decide)) h)
    · exact setReg_only (hP.step (by decide)) h

theorem loadProgram_only {P : List Part} {s₀ : State}  {t : State} (hP : Within [.cyc, .prog] P)  (h : OnlyChanges P s₀ t) :
    OnlyChanges P s₀ (State.loadProgram t) := by
  unfold State.loadProgram
  repeat' (first
    | with_reducible assumption
    | with_reducible (refine OnlyChanges.foldl ?_ (fun u a h => ?_))
    | (extract_lets +onlyGivenNames x; first | (refine OnlyChanges.cut x ?_ (fun h => ?_); (on_goal 2 => clear_value x); (on_goal 1 => subst x)) | clear_value x)
    | split
    | with_reducible (refine OnlyChanges.snd ?_)
    | with_reducible (refine OnlyChanges.fst ?_)
    | with_reducible (refine OnlyChanges.hres ?_)
    | ((with_reducible (refine OnlyChanges.upd ?_ (fun p hp => ?_))); on_goal 2 => (cases p <;> first | exact rfl | exact absurd (hP _ (by decide)) hp)))

theorem installProgram_only {P : List Part} {s₀ : State} {x0 : List Byte} {t : State} (hP : Within [.chg] P)  (h : OnlyChanges P s₀ t) :
    OnlyChanges P s₀ (State.installProgram x0 t) := by
  unfold State.installProgram
  repeat' (first
    | with_reducible assumption
    | with_reducible (refine OnlyChanges.foldl ?_ (fun u a h => ?_))
    | (extract_lets +onlyGivenNames x; first | (refine OnlyChanges.cut x ?_ (fun h => ?_); (on_goal 2 => clear_value x); (on_goal 1 => subst x)) | clear_value x)
    | split
    | with_reducible (refine OnlyChanges.snd ?_)
    | with_reducible (refine OnlyChanges.fst ?_)
    | with_reducible (refine OnlyChanges.hres ?_)
    | ((with_reducible (refine OnlyChanges.upd ?_ (fun p hp => ?_))); on_goal 2 => (cases p <;> first | exact rfl | exact absurd (hP _ (by decide)) hp)))

theorem enrolOps_only {P : List Part} {s₀ : State} {x0 : List Byte} {t : State} (hP : Within [.tly, .boot] P)  (h : OnlyChanges P s₀ t) :
    OnlyChanges P s₀ (State.enrolOps x0 t) := by
  unfold State.enrolOps
  repeat' (first
    | with_reducible assumption
    | with_reducible (refine log_only (hP.step (by decide)) ?_)
    | with_reducible (refine OnlyChanges.foldl ?_ (fun u a h => ?_))
    | (extract_lets +onlyGivenNames x; first | (refine OnlyChanges.cut x ?_ (fun h => ?_); (on_goal 2 => clear_value x); (on_goal 1 => subst x)) | clear_value x)
    | split
    | with_reducible (refine OnlyChanges.snd ?_)
    | with_reducible (refine OnlyChanges.fst ?_)
    | with_reducible (refine OnlyChanges.hres ?_)
    | ((with_reducible (refine OnlyChanges.upd ?_ (fun p hp => ?_))); on_goal 2 => (cases p <;> first | exact rfl | exact absurd (hP _ (by decide)) hp)))

theorem step5_only {P : List Part} {s₀ : State}  {t : State} (hP : Within [.sys, .cyc, .chg, .tly, .boot, .cfg, .prog] P)  (h : OnlyChanges P s₀ t) :
    OnlyChanges P s₀ (State.step5 t) := by
  unfold State.step5
  repeat' (first
    | with_reducible assumption
    | with_reducible (refine installProgram_only (hP.step (by decide)) ?_)
    | with_reducible (refine enrolOps_only (hP.step (by decide)) ?_)
    | with_reducible (refine loadProgram_only (hP.step (by decide)) ?_)
    | with_reducible (refine OnlyChanges.foldl ?_ (fun u a h => ?_))
    | (extract_lets +onlyGivenNames x; first | (refine OnlyChanges.cut x ?_ (fun h => ?_); (on_goal 2 => clear_value x); (on_goal 1 => subst x)) | clear_value x)
    | split
    | with_reducible (refine OnlyChanges.snd ?_)
    | with_reducible (refine OnlyChanges.fst ?_)
    | with_reducible (refine OnlyChanges.hres ?_)
    | ((with_reducible (refine OnlyChanges.upd ?_ (fun p hp => ?_))); on_goal 2 => (cases p <;> first | exact rfl | exact absurd (hP _ (by decide)) hp)))

theorem safStart_only {P : List Part} {s₀ : State}  {t : State} (hP : Within [.saf, .tly, .outbox] P)  (h : OnlyChanges P s₀ t) :
    OnlyChanges P s₀ (State.safStart t) := by
  unfold State.safStart
  repeat' (first
    | with_reducible assumption
    | with_reducible (refine log_only (hP.step (by decide)) ?_)
    | with_reducible (refine lockout_only (hP.step (by decide)) ?_)
    | with_reducible (refine OnlyChanges.foldl ?_ (fun u a h => ?_))
    | (extract_lets +onlyGivenNames x; first | (refine OnlyChanges.cut x ?_ (fun h => ?_); (on_goal 2 => clear_value x); (on_goal 1 => subst x)) | clear_value x)
    | split
    | with_reducible (refine OnlyChanges.snd ?_)
    | with_reducible (refine OnlyChanges.fst ?_)
    | with_reducible (refine OnlyChanges.hres ?_)
    | ((with_reducible (refine OnlyChanges.upd ?_ (fun p hp => ?_))); on_goal 2 => (cases p <;> first | exact rfl | exact absurd (hP _ (by decide)) hp)))

theorem measure_only {P : List Part} {s₀ : State}  {t : State} (hP : Within [.boot] P)  (h : OnlyChanges P s₀ t) :
    OnlyChanges P s₀ (State.measure t) := by
  unfold State.measure
  repeat' (first
    | with_reducible assumption
    | with_reducible (refine OnlyChanges.foldl ?_ (fun u a h => ?_))
    | (extract_lets +onlyGivenNames x; first | (refine OnlyChanges.cut x ?_ (fun h => ?_); (on_goal 2 => clear_value x); (on_goal 1 => subst x)) | clear_value x)
    | split
    | with_reducible (refine OnlyChanges.snd ?_)
    | with_reducible (refine OnlyChanges.fst ?_)
    | with_reducible (refine OnlyChanges.hres ?_)
    | ((with_reducible (refine OnlyChanges.upd ?_ (fun p hp => ?_))); on_goal 2 => (cases p <;> first | exact rfl | exact absurd (hP _ (by decide)) hp)))

theorem numberCycles_only {P : List Part} {s₀ : State}  {t : State} (hP : Within [.cyc] P)  (h : OnlyChanges P s₀ t) :
    OnlyChanges P s₀ (State.numberCycles t) := by
  unfold State.numberCycles
  repeat' (first
    | with_reducible assumption
    | with_reducible (refine OnlyChanges.foldl ?_ (fun u a h => ?_))
    | (extract_lets +onlyGivenNames x; first | (refine OnlyChanges.cut x ?_ (fun h => ?_); (on_goal 2 => clear_value x); (on_goal 1 => subst x)) | clear_value x)
    | split
    | with_reducible (refine OnlyChanges.snd ?_)
    | with_reducible (refine OnlyChanges.fst ?_)
    | with_reducible (refine OnlyChanges.hres ?_)
    | ((with_reducible (refine OnlyChanges.upd ?_ (fun p hp => ?_))); on_goal 2 => (cases p <;> first | exact rfl | exact absurd (hP _ (by decide)) hp)))

theorem bootHeld_only {P : List Part} {s₀ : State}  {t : State} (hP : Within [.fio, .outbox] P)  (h : OnlyChanges P s₀ t) :
    OnlyChanges P s₀ (State.bootHeld t) := by
  unfold State.bootHeld
  repeat' (first
    | with_reducible assumption
    | with_reducible (refine put_only (hP.step (by decide)) ?_)
    | with_reducible (refine driveZero_only (hP.step (by decide)) ?_)
    | with_reducible (refine OnlyChanges.foldl ?_ (fun u a h => ?_))
    | (extract_lets +onlyGivenNames x; first | (refine OnlyChanges.cut x ?_ (fun h => ?_); (on_goal 2 => clear_value x); (on_goal 1 => subst x)) | clear_value x)
    | split
    | with_reducible (refine OnlyChanges.snd ?_)
    | with_reducible (refine OnlyChanges.fst ?_)
    | with_reducible (refine OnlyChanges.hres ?_)
    | ((with_reducible (refine OnlyChanges.upd ?_ (fun p hp => ?_))); on_goal 2 => (cases p <;> first | exact rfl | exact absurd (hP _ (by decide)) hp)))

theorem step6_only {P : List Part} {s₀ : State}  {t : State} (hP : Within [.sys, .cyc, .cle, .dpx, .tim, .fio, .saf, .tly, .boot, .regs, .live, .votes, .outbox] P)  (h : OnlyChanges P s₀ t) :
    OnlyChanges P s₀ (State.step6 t) := by
  unfold State.step6
  repeat' (first
    | with_reducible assumption
    | with_reducible (refine loadRegs_only (hP.step (by decide)) ?_)
    | with_reducible (refine safStart_only (hP.step (by decide)) ?_)
    | with_reducible (refine measure_only (hP.step (by decide)) ?_)
    | with_reducible (refine numberCycles_only (hP.step (by decide)) ?_)
    | with_reducible (refine bootHeld_only (hP.step (by decide)) ?_)
    | with_reducible (refine setSync_only (hP.step (by decide)) ?_)
    | with_reducible (refine OnlyChanges.foldl ?_ (fun u a h => ?_))
    | (extract_lets +onlyGivenNames x; first | (refine OnlyChanges.cut x ?_ (fun h => ?_); (on_goal 2 => clear_value x); (on_goal 1 => subst x)) | clear_value x)
    | split
    | with_reducible (refine OnlyChanges.snd ?_)
    | with_reducible (refine OnlyChanges.fst ?_)
    | with_reducible (refine OnlyChanges.hres ?_)
    | ((with_reducible (refine OnlyChanges.upd ?_ (fun p hp => ?_))); on_goal 2 => (cases p <;> first | exact rfl | exact absurd (hP _ (by decide)) hp)))

theorem runClasses_only {P : List Part} {s₀ : State}  {t : State} (hP : Within [.cyc, .cle, .net] P)  (h : OnlyChanges P s₀ t) :
    OnlyChanges P s₀ (State.runClasses t) := by
  unfold State.runClasses
  repeat' (first
    | with_reducible assumption
    | with_reducible (refine OnlyChanges.foldl ?_ (fun u a h => ?_))
    | (extract_lets +onlyGivenNames x; first | (refine OnlyChanges.cut x ?_ (fun h => ?_); (on_goal 2 => clear_value x); (on_goal 1 => subst x)) | clear_value x)
    | split
    | with_reducible (refine OnlyChanges.snd ?_)
    | with_reducible (refine OnlyChanges.fst ?_)
    | with_reducible (refine OnlyChanges.hres ?_)
    | ((with_reducible (refine OnlyChanges.upd ?_ (fun p hp => ?_))); on_goal 2 => (cases p <;> first | exact rfl | exact absurd (hP _ (by decide)) hp)))

theorem noteLoad_only {P : List Part} {s₀ : State} {x0 : Nat} {t : State} (hP : Within [.cyc] P)  (h : OnlyChanges P s₀ t) :
    OnlyChanges P s₀ (State.noteLoad x0 t) := by
  unfold State.noteLoad
  repeat' (first
    | with_reducible assumption
    | with_reducible (refine OnlyChanges.foldl ?_ (fun u a h => ?_))
    | (extract_lets +onlyGivenNames x; first | (refine OnlyChanges.cut x ?_ (fun h => ?_); (on_goal 2 => clear_value x); (on_goal 1 => subst x)) | clear_value x)
    | split
    | with_reducible (refine OnlyChanges.snd ?_)
    | with_reducible (refine OnlyChanges.fst ?_)
    | with_reducible (refine OnlyChanges.hres ?_)
    | ((with_reducible (refine OnlyChanges.upd ?_ (fun p hp => ?_))); on_goal 2 => (cases p <;> first | exact rfl | exact absurd (hP _ (by decide)) hp)))

theorem haltClasses_only {P : List Part} {s₀ : State}  {t : State} (hP : Within [.cyc, .lsp] P)  (h : OnlyChanges P s₀ t) :
    OnlyChanges P s₀ (State.haltClasses t) := by
  unfold State.haltClasses
  repeat' (first
    | with_reducible assumption
    | with_reducible (refine noteLoad_only (hP.step (by decide)) ?_)
    | with_reducible (refine OnlyChanges.foldl ?_ (fun u a h => ?_))
    | (extract_lets +onlyGivenNames x; first | (refine OnlyChanges.cut x ?_ (fun h => ?_); (on_goal 2 => clear_value x); (on_goal 1 => subst x)) | clear_value x)
    | split
    | with_reducible (refine OnlyChanges.snd ?_)
    | with_reducible (refine OnlyChanges.fst ?_)
    | with_reducible (refine OnlyChanges.hres ?_)
    | ((with_reducible (refine OnlyChanges.upd ?_ (fun p hp => ?_))); on_goal 2 => (cases p <;> first | exact rfl | exact absurd (hP _ (by decide)) hp)))

theorem enterStart_only {P : List Part} {s₀ : State} {x0 : Mode} {x1 : Bool} {t : State} (hP : Within [.sys, .hif, .cyc, .cle, .dpx, .net, .saf, .tly, .mm, .boot, .outbox] P)  (h : OnlyChanges P s₀ t) :
    OnlyChanges P s₀ (State.enterStart x0 x1 t) := by
  unfold State.enterStart
  repeat' (first
    | with_reducible assumption
    | with_reducible (refine runClasses_only (hP.step (by decide)) ?_)
    | with_reducible (refine setMode_only (hP.step (by decide)) ?_)
    | with_reducible (refine setSync_only (hP.step (by decide)) ?_)
    | with_reducible (refine OnlyChanges.foldl ?_ (fun u a h => ?_))
    | (extract_lets +onlyGivenNames x; first | (refine OnlyChanges.cut x ?_ (fun h => ?_); (on_goal 2 => clear_value x); (on_goal 1 => subst x)) | clear_value x)
    | split
    | with_reducible (refine OnlyChanges.snd ?_)
    | with_reducible (refine OnlyChanges.fst ?_)
    | with_reducible (refine OnlyChanges.hres ?_)
    | ((with_reducible (refine OnlyChanges.upd ?_ (fun p hp => ?_))); on_goal 2 => (cases p <;> first | exact rfl | exact absurd (hP _ (by decide)) hp)))

theorem endBoot_only {P : List Part} {s₀ : State} {x0 : Mode} {x1 : Bool} {t : State} (hP : Within [.sys, .hif, .cyc, .cle, .dpx, .dpx2, .net, .saf, .tly, .mm, .boot, .outbox] P)  (h : OnlyChanges P s₀ t) :
    OnlyChanges P s₀ (State.endBoot x0 x1 t) := by
  unfold State.endBoot
  repeat' (first
    | with_reducible assumption
    | with_reducible (refine takeEpoch_only (hP.step (by decide)) ?_)
    | with_reducible (refine enterStart_only (hP.step (by decide)) ?_)
    | with_reducible (refine OnlyChanges.foldl ?_ (fun u a h => ?_))
    | (extract_lets +onlyGivenNames x; first | (refine OnlyChanges.cut x ?_ (fun h => ?_); (on_goal 2 => clear_value x); (on_goal 1 => subst x)) | clear_value x)
    | split
    | with_reducible (refine OnlyChanges.snd ?_)
    | with_reducible (refine OnlyChanges.fst ?_)
    | with_reducible (refine OnlyChanges.hres ?_)
    | ((with_reducible (refine OnlyChanges.upd ?_ (fun p hp => ?_))); on_goal 2 => (cases p <;> first | exact rfl | exact absurd (hP _ (by decide)) hp)))

theorem replayOnce_only {P : List Part} {s₀ : State} {x0 : State → State} {t : State} (hP : Within [.boot] P) (hf0 : ∀ u, OnlyChanges P s₀ u → OnlyChanges P s₀ (x0 u)) (h : OnlyChanges P s₀ t) :
    OnlyChanges P s₀ (State.replayOnce x0 t) := by
  unfold State.replayOnce
  repeat' (first
    | with_reducible assumption
    | with_reducible (refine OnlyChanges.foldl ?_ (fun u a h => ?_))
    | with_reducible (apply hf0)
    | (extract_lets +onlyGivenNames x; first | (refine OnlyChanges.cut x ?_ (fun h => ?_); (on_goal 2 => clear_value x); (on_goal 1 => subst x)) | clear_value x)
    | split
    | with_reducible (refine OnlyChanges.snd ?_)
    | with_reducible (refine OnlyChanges.fst ?_)
    | with_reducible (refine OnlyChanges.hres ?_)
    | ((with_reducible (refine OnlyChanges.upd ?_ (fun p hp => ?_))); on_goal 2 => (cases p <;> first | exact rfl | exact absurd (hP _ (by decide)) hp)))

theorem ringStart_only {P : List Part} {s₀ : State} {x0 : State → State} {x1 : List Nat} {t : State} (hP : Within [.sys, .hif, .cyc, .cle, .dpx, .dpx2, .net, .saf, .tly, .mm, .boot, .outbox] P) (hf0 : ∀ u, OnlyChanges P s₀ u → OnlyChanges P s₀ (x0 u)) (h : OnlyChanges P s₀ t) :
    OnlyChanges P s₀ (State.ringStart x0 x1 t) := by
  unfold State.ringStart
  repeat' (first
    | with_reducible assumption
    | with_reducible (refine takeEpoch_only (hP.step (by decide)) ?_)
    | with_reducible (refine newBlocks_only (hP.step (by decide)) ?_)
    | with_reducible (refine replayOnce_only (hP.step (by decide)) ?_ ?_)
    | with_reducible (refine enterStart_only (hP.step (by decide)) ?_)
    | with_reducible (refine OnlyChanges.foldl ?_ (fun u a h => ?_))
    | with_reducible (apply hf0)
    | intro _
    | (extract_lets +onlyGivenNames x; first | (refine OnlyChanges.cut x ?_ (fun h => ?_); (on_goal 2 => clear_value x); (on_goal 1 => subst x)) | clear_value x)
    | split
    | intro _
    | with_reducible (refine OnlyChanges.snd ?_)
    | with_reducible (refine OnlyChanges.fst ?_)
    | with_reducible (refine OnlyChanges.hres ?_)
    | ((with_reducible (refine OnlyChanges.upd ?_ (fun p hp => ?_))); on_goal 2 => (cases p <;> first | exact rfl | exact absurd (hP _ (by decide)) hp)))

theorem holdBoot_only {P : List Part} {s₀ : State} {x0 : Nat} {t : State} (hP : Within [.boot] P)  (h : OnlyChanges P s₀ t) :
    OnlyChanges P s₀ (State.holdBoot x0 t) := by
  unfold State.holdBoot
  repeat' (first
    | with_reducible assumption
    | with_reducible (refine OnlyChanges.foldl ?_ (fun u a h => ?_))
    | (extract_lets +onlyGivenNames x; first | (refine OnlyChanges.cut x ?_ (fun h => ?_); (on_goal 2 => clear_value x); (on_goal 1 => subst x)) | clear_value x)
    | split
    | with_reducible (refine OnlyChanges.snd ?_)
    | with_reducible (refine OnlyChanges.fst ?_)
    | with_reducible (refine OnlyChanges.hres ?_)
    | ((with_reducible (refine OnlyChanges.upd ?_ (fun p hp => ?_))); on_goal 2 => (cases p <;> first | exact rfl | exact absurd (hP _ (by decide)) hp)))

theorem testFailed_only {P : List Part} {s₀ : State}  {t : State} (hP : Within [.sys, .hif, .cyc, .cle, .dpx, .dpx2, .net, .saf, .tly, .mm, .boot, .outbox] P)  (h : OnlyChanges P s₀ t) :
    OnlyChanges P s₀ (State.testFailed t) := by
  unfold State.testFailed
  repeat' (first
    | with_reducible assumption
    | with_reducible (refine endBoot_only (hP.step (by decide)) ?_)
    | with_reducible (refine lockout_only (hP.step (by decide)) ?_)
    | with_reducible (refine OnlyChanges.foldl ?_ (fun u a h => ?_))
    | (extract_lets +onlyGivenNames x; first | (refine OnlyChanges.cut x ?_ (fun h => ?_); (on_goal 2 => clear_value x); (on_goal 1 => subst x)) | clear_value x)
    | split
    | with_reducible (refine OnlyChanges.snd ?_)
    | with_reducible (refine OnlyChanges.fst ?_)
    | with_reducible (refine OnlyChanges.hres ?_)
    | ((with_reducible (refine OnlyChanges.upd ?_ (fun p hp => ?_))); on_goal 2 => (cases p <;> first | exact rfl | exact absurd (hP _ (by decide)) hp)))

theorem bootExit_only {P : List Part} {s₀ : State} {x0 : State → State} {x1 : Bool} {x2 : List Nat} {t : State} (hP : Within [.sys, .hif, .cyc, .cle, .dpx, .dpx2, .net, .saf, .tly, .mm, .boot, .outbox] P) (hf0 : ∀ u, OnlyChanges P s₀ u → OnlyChanges P s₀ (x0 u)) (h : OnlyChanges P s₀ t) :
    OnlyChanges P s₀ (State.bootExit x0 x1 x2 t) := by
  unfold State.bootExit
  repeat' (first
    | with_reducible assumption
    | with_reducible (refine replayOnce_only (hP.step (by decide)) ?_ ?_)
    | with_reducible (refine endBoot_only (hP.step (by decide)) ?_)
    | with_reducible (refine testFailed_only (hP.step (by decide)) ?_)
    | with_reducible (refine ringStart_only (hP.step (by decide)) ?_ ?_)
    | with_reducible (refine OnlyChanges.foldl ?_ (fun u a h => ?_))
    | with_reducible (apply hf0)
    | intro _
    | (extract_lets +onlyGivenNames x; first | (refine OnlyChanges.cut x ?_ (fun h => ?_); (on_goal 2 => clear_value x); (on_goal 1 => subst x)) | clear_value x)
    | split
    | intro _
    | with_reducible (refine OnlyChanges.snd ?_)
    | with_reducible (refine OnlyChanges.fst ?_)
    | with_reducible (refine OnlyChanges.hres ?_)
    | ((with_reducible (refine OnlyChanges.upd ?_ (fun p hp => ?_))); on_goal 2 => (cases p <;> first | exact rfl | exact absurd (hP _ (by decide)) hp)))

theorem steps4to7_only {P : List Part} {s₀ : State} {x0 : BootObs} {t : State} (hP : Within [.sys, .cyc, .cle, .chg, .dpx, .tim, .fio, .saf, .tly, .mm, .boot, .cfg, .prog, .regs, .live, .votes, .outbox] P)  (h : OnlyChanges P s₀ t) :
    OnlyChanges P s₀ (State.steps4to7 x0 t) := by
  unfold State.steps4to7
  repeat' (first
    | with_reducible assumption
    | with_reducible (refine step4_only (hP.step (by decide)) ?_)
    | with_reducible (refine step5_only (hP.step (by decide)) ?_)
    | with_reducible (refine step6_only (hP.step (by decide)) ?_)
    | with_reducible (refine OnlyChanges.foldl ?_ (fun u a h => ?_))
    | (extract_lets +onlyGivenNames x; first | (refine OnlyChanges.cut x ?_ (fun h => ?_); (on_goal 2 => clear_value x); (on_goal 1 => subst x)) | clear_value x)
    | split
    | with_reducible (refine OnlyChanges.snd ?_)
    | with_reducible (refine OnlyChanges.fst ?_)
    | with_reducible (refine OnlyChanges.hres ?_)
    | ((with_reducible (refine OnlyChanges.upd ?_ (fun p hp => ?_))); on_goal 2 => (cases p <;> first | exact rfl | exact absurd (hP _ (by decide)) hp)))

theorem bootFrom4_only {P : List Part} {s₀ : State} {x0 : State → State} {x1 : BootObs} {t : State} (hP : Within [.sys, .hif, .cyc, .cle, .chg, .dpx, .dpx2, .net, .tim, .fio, .saf, .tly, .mm, .boot, .cfg, .prog, .regs, .live, .votes, .outbox] P) (hf0 : ∀ u, OnlyChanges P s₀ u → OnlyChanges P s₀ (x0 u)) (h : OnlyChanges P s₀ t) :
    OnlyChanges P s₀ (State.bootFrom4 x0 x1 t) := by
  unfold State.bootFrom4
  repeat' (first
    | with_reducible assumption
    | with_reducible (refine steps4to7_only (hP.step (by decide)) ?_)
    | with_reducible (refine bootExit_only (hP.step (by decide)) ?_ ?_)
    | with_reducible (refine OnlyChanges.foldl ?_ (fun u a h => ?_))
    | with_reducible (apply hf0)
    | intro _
    | (extract_lets +onlyGivenNames x; first | (refine OnlyChanges.cut x ?_ (fun h => ?_); (on_goal 2 => clear_value x); (on_goal 1 => subst x)) | clear_value x)
    | split
    | intro _
    | with_reducible (refine OnlyChanges.snd ?_)
    | with_reducible (refine OnlyChanges.fst ?_)
    | with_reducible (refine OnlyChanges.hres ?_)
    | ((with_reducible (refine OnlyChanges.upd ?_ (fun p hp => ?_))); on_goal 2 => (cases p <;> first | exact rfl | exact absurd (hP _ (by decide)) hp)))

theorem bootFrom3_only {P : List Part} {s₀ : State} {x0 : State → State} {x1 : BootObs} {t : State} (hP : Within [.sys, .hif, .cyc, .cle, .chg, .dpx, .dpx2, .net, .tim, .fio, .saf, .tly, .mm, .boot, .cfg, .prog, .regs, .live, .votes, .outbox] P) (hf0 : ∀ u, OnlyChanges P s₀ u → OnlyChanges P s₀ (x0 u)) (h : OnlyChanges P s₀ t) :
    OnlyChanges P s₀ (State.bootFrom3 x0 x1 t) := by
  unfold State.bootFrom3
  repeat' (first
    | with_reducible assumption
    | with_reducible (refine holdBoot_only (hP.step (by decide)) ?_)
    | with_reducible (refine bootFrom4_only (hP.step (by decide)) ?_ ?_)
    | with_reducible (refine OnlyChanges.foldl ?_ (fun u a h => ?_))
    | with_reducible (apply hf0)
    | intro _
    | (extract_lets +onlyGivenNames x; first | (refine OnlyChanges.cut x ?_ (fun h => ?_); (on_goal 2 => clear_value x); (on_goal 1 => subst x)) | clear_value x)
    | split
    | intro _
    | with_reducible (refine OnlyChanges.snd ?_)
    | with_reducible (refine OnlyChanges.fst ?_)
    | with_reducible (refine OnlyChanges.hres ?_)
    | ((with_reducible (refine OnlyChanges.upd ?_ (fun p hp => ?_))); on_goal 2 => (cases p <;> first | exact rfl | exact absurd (hP _ (by decide)) hp)))

theorem bootFrom2_only {P : List Part} {s₀ : State} {x0 : State → State} {x1 : Bool} {x2 : BootObs} {t : State} (hP : Within [.sys, .hif, .cyc, .lsp, .cle, .chg, .dpx, .dpx2, .mir, .net, .tim, .can, .canq, .fio, .saf, .tly, .mm, .boot, .pwr, .ret, .cfg, .prog, .regs, .live, .votes, .press, .posted, .outbox, .freeN] P) (hf0 : ∀ u, OnlyChanges P s₀ u → OnlyChanges P s₀ (x0 u)) (h : OnlyChanges P s₀ t) :
    OnlyChanges P s₀ (State.bootFrom2 x0 x1 x2 t) := by
  unfold State.bootFrom2
  repeat' (first
    | with_reducible assumption
    | with_reducible (refine step2_only (hP.step (by decide)) ?_)
    | with_reducible (refine holdBoot_only (hP.step (by decide)) ?_)
    | with_reducible (refine step3_only (hP.step (by decide)) ?_)
    | with_reducible (refine bootFrom3_only (hP.step (by decide)) ?_ ?_)
    | with_reducible (refine OnlyChanges.foldl ?_ (fun u a h => ?_))
    | with_reducible (apply hf0)
    | intro _
    | (extract_lets +onlyGivenNames x; first | (refine OnlyChanges.cut x ?_ (fun h => ?_); (on_goal 2 => clear_value x); (on_goal 1 => subst x)) | clear_value x)
    | split
    | intro _
    | with_reducible (refine OnlyChanges.snd ?_)
    | with_reducible (refine OnlyChanges.fst ?_)
    | with_reducible (refine OnlyChanges.hres ?_)
    | ((with_reducible (refine OnlyChanges.upd ?_ (fun p hp => ?_))); on_goal 2 => (cases p <;> first | exact rfl | exact absurd (hP _ (by decide)) hp)))

end Sys2Proof.Laws
end

