-- ==== Sys2Proof/Laws/OnlyTlyOps.lean ====
section
/-! SUPPORT. What each operation of TlyOps.lean may change: one frame per operation. -/

set_option linter.unusedTactic false
set_option linter.unreachableTactic false
set_option linter.unusedVariables false
set_option linter.tactic.unusedName false

namespace Sys2Proof.Laws

open Sys2Proof.Machine Sys2Proof.Safety

theorem applyClear_only {P : List Part} {s₀ : State} {x0 : Bool} {x1 : Word} {x2 : Word} {x3 : Nat} {t : State} (hP : Within [.tly] P)  (h : OnlyChanges P s₀ t) :
    OnlyChanges P s₀ (State.applyClear x0 x1 x2 x3 t) := by
  unfold State.applyClear
  repeat' (first
    | with_reducible assumption
    | with_reducible (refine log_only (hP.step (by decide)) ?_)
    | with_reducible (refine OnlyChanges.foldl ?_ (fun u a h => ?_))
    | (extract_lets +onlyGivenNames x; first | (refine OnlyChanges.cut x ?_ (fun h => ?_); (on_goal 2 => clear_value x); (on_goal 1 => subst x)) | clear_value x)
    | split
    | with_reducible (refine OnlyChanges.snd ?_)
    | with_reducible (refine OnlyChanges.fst ?_)
    | with_reducible (refine OnlyChanges.hres ?_)
    | ((with_reducible (refine OnlyChanges.upd ?_ (fun p hp => ?_))); on_goal 2 => (cases p <;> first | exact rfl | exact absurd (hP _ (by decide)) hp)))

end Sys2Proof.Laws
end

