-- ==== Sys2Proof/Laws/OnlyFail.lean ====
section
/-! SUPPORT. What each operation of Fail.lean may change: one frame per operation. -/

set_option linter.unusedTactic false
set_option linter.unreachableTactic false
set_option linter.unusedVariables false
set_option linter.tactic.unusedName false

namespace Sys2Proof.Laws

open Sys2Proof.Machine Sys2Proof.Safety

theorem updCls_only {P : List Part} {s₀ : State} {x0 : Nat} {x1 : Cls → Cls} {t : State} (hP : Within [.cyc] P)  (h : OnlyChanges P s₀ t) :
    OnlyChanges P s₀ (State.updCls x0 x1 t) := by
  unfold State.updCls
  repeat' (first
    | with_reducible assumption
    | with_reducible (refine OnlyChanges.foldl ?_ (fun u a h => ?_))
    | (extract_lets +onlyGivenNames x; first | (refine OnlyChanges.cut x ?_ (fun h => ?_); (on_goal 2 => clear_value x); (on_goal 1 => subst x)) | clear_value x)
    | split
    | with_reducible (refine OnlyChanges.snd ?_)
    | with_reducible (refine OnlyChanges.fst ?_)
    | with_reducible (refine OnlyChanges.hres ?_)
    | ((with_reducible (refine OnlyChanges.upd ?_ (fun p hp => ?_))); on_goal 2 => (cases p <;> first | exact rfl | exact absurd (hP _ (by decide)) hp)))

theorem updMem_only {P : List Part} {s₀ : State} {x0 : Nat} {x1 : ClsMem → ClsMem} {t : State} (hP : Within [.cyc] P)  (h : OnlyChanges P s₀ t) :
    OnlyChanges P s₀ (State.updMem x0 x1 t) := by
  unfold State.updMem
  repeat' (first
    | with_reducible assumption
    | with_reducible (refine OnlyChanges.foldl ?_ (fun u a h => ?_))
    | (extract_lets +onlyGivenNames x; first | (refine OnlyChanges.cut x ?_ (fun h => ?_); (on_goal 2 => clear_value x); (on_goal 1 => subst x)) | clear_value x)
    | split
    | with_reducible (refine OnlyChanges.snd ?_)
    | with_reducible (refine OnlyChanges.fst ?_)
    | with_reducible (refine OnlyChanges.hres ?_)
    | ((with_reducible (refine OnlyChanges.upd ?_ (fun p hp => ?_))); on_goal 2 => (cases p <;> first | exact rfl | exact absurd (hP _ (by decide)) hp)))

theorem countMirror_only {P : List Part} {s₀ : State} {x0 : Nat} {t : State} (hP : Within [.dpx2] P)  (h : OnlyChanges P s₀ t) :
    OnlyChanges P s₀ (State.countMirror x0 t) := by
  unfold State.countMirror
  repeat' (first
    | with_reducible assumption
    | with_reducible (refine OnlyChanges.foldl ?_ (fun u a h => ?_))
    | (extract_lets +onlyGivenNames x; first | (refine OnlyChanges.cut x ?_ (fun h => ?_); (on_goal 2 => clear_value x); (on_goal 1 => subst x)) | clear_value x)
    | split
    | with_reducible (refine OnlyChanges.snd ?_)
    | with_reducible (refine OnlyChanges.fst ?_)
    | with_reducible (refine OnlyChanges.hres ?_)
    | ((with_reducible (refine OnlyChanges.upd ?_ (fun p hp => ?_))); on_goal 2 => (cases p <;> first | exact rfl | exact absurd (hP _ (by decide)) hp)))

theorem queueRec_only {P : List Part} {s₀ : State} {x0 : Nat} {x1 : List Byte} {t : State} (hP : Within [.dpx2] P)  (h : OnlyChanges P s₀ t) :
    OnlyChanges P s₀ (State.queueRec x0 x1 t) := by
  unfold State.queueRec
  repeat' (first
    | with_reducible assumption
    | with_reducible (refine countMirror_only (hP.step (by decide)) ?_)
    | with_reducible (refine OnlyChanges.foldl ?_ (fun u a h => ?_))
    | (extract_lets +onlyGivenNames x; first | (refine OnlyChanges.cut x ?_ (fun h => ?_); (on_goal 2 => clear_value x); (on_goal 1 => subst x)) | clear_value x)
    | split
    | with_reducible (refine OnlyChanges.snd ?_)
    | with_reducible (refine OnlyChanges.fst ?_)
    | with_reducible (refine OnlyChanges.hres ?_)
    | ((with_reducible (refine OnlyChanges.upd ?_ (fun p hp => ?_))); on_goal 2 => (cases p <;> first | exact rfl | exact absurd (hP _ (by decide)) hp)))

theorem sendPart_only {P : List Part} {s₀ : State} {x0 : Nat} {x1 : Bool} {x2 : Bool} {x3 : Bool} {x4 : List Byte} {t : State} (hP : Within [.dpx2, .outbox] P)  (h : OnlyChanges P s₀ t) :
    OnlyChanges P s₀ (State.sendPart x0 x1 x2 x3 x4 t) := by
  unfold State.sendPart
  repeat' (first
    | with_reducible assumption
    | with_reducible (refine queueRec_only (hP.step (by decide)) ?_)
    | with_reducible (refine put_only (hP.step (by decide)) ?_)
    | with_reducible (refine OnlyChanges.foldl ?_ (fun u a h => ?_))
    | (extract_lets +onlyGivenNames x; first | (refine OnlyChanges.cut x ?_ (fun h => ?_); (on_goal 2 => clear_value x); (on_goal 1 => subst x)) | clear_value x)
    | split
    | with_reducible (refine OnlyChanges.snd ?_)
    | with_reducible (refine OnlyChanges.fst ?_)
    | with_reducible (refine OnlyChanges.hres ?_)
    | ((with_reducible (refine OnlyChanges.upd ?_ (fun p hp => ?_))); on_goal 2 => (cases p <;> first | exact rfl | exact absurd (hP _ (by decide)) hp)))

theorem sendRec_only {P : List Part} {s₀ : State} {x0 : Nat} {x1 : Bool} {x2 : Bool} {x3 : List Byte} {t : State} (hP : Within [.dpx2, .outbox] P)  (h : OnlyChanges P s₀ t) :
    OnlyChanges P s₀ (State.sendRec x0 x1 x2 x3 t) := by
  unfold State.sendRec
  repeat' (first
    | with_reducible assumption
    | with_reducible (refine sendPart_only (hP.step (by decide)) ?_)
    | with_reducible (refine OnlyChanges.foldl ?_ (fun u a h => ?_))
    | (extract_lets +onlyGivenNames x; first | (refine OnlyChanges.cut x ?_ (fun h => ?_); (on_goal 2 => clear_value x); (on_goal 1 => subst x)) | clear_value x)
    | split
    | with_reducible (refine OnlyChanges.snd ?_)
    | with_reducible (refine OnlyChanges.fst ?_)
    | with_reducible (refine OnlyChanges.hres ?_)
    | ((with_reducible (refine OnlyChanges.upd ?_ (fun p hp => ?_))); on_goal 2 => (cases p <;> first | exact rfl | exact absurd (hP _ (by decide)) hp)))

theorem notice_only {P : List Part} {s₀ : State} {x0 : Nat} {x1 : Nat} {x2 : DWord} {x3 : DWord} {t : State} (hP : Within [.dpx2, .outbox] P)  (h : OnlyChanges P s₀ t) :
    OnlyChanges P s₀ (State.notice x0 x1 x2 x3 t) := by
  unfold State.notice
  repeat' (first
    | with_reducible assumption
    | with_reducible (refine sendRec_only (hP.step (by decide)) ?_)
    | with_reducible (refine OnlyChanges.foldl ?_ (fun u a h => ?_))
    | (extract_lets +onlyGivenNames x; first | (refine OnlyChanges.cut x ?_ (fun h => ?_); (on_goal 2 => clear_value x); (on_goal 1 => subst x)) | clear_value x)
    | split
    | with_reducible (refine OnlyChanges.snd ?_)
    | with_reducible (refine OnlyChanges.fst ?_)
    | with_reducible (refine OnlyChanges.hres ?_)
    | ((with_reducible (refine OnlyChanges.upd ?_ (fun p hp => ?_))); on_goal 2 => (cases p <;> first | exact rfl | exact absurd (hP _ (by decide)) hp)))

theorem stopHeartbeats_only {P : List Part} {s₀ : State}  {t : State} (hP : Within [.dpx] P)  (h : OnlyChanges P s₀ t) :
    OnlyChanges P s₀ (State.stopHeartbeats t) := by
  unfold State.stopHeartbeats
  repeat' (first
    | with_reducible assumption
    | with_reducible (refine OnlyChanges.foldl ?_ (fun u a h => ?_))
    | (extract_lets +onlyGivenNames x; first | (refine OnlyChanges.cut x ?_ (fun h => ?_); (on_goal 2 => clear_value x); (on_goal 1 => subst x)) | clear_value x)
    | split
    | with_reducible (refine OnlyChanges.snd ?_)
    | with_reducible (refine OnlyChanges.fst ?_)
    | with_reducible (refine OnlyChanges.hres ?_)
    | ((with_reducible (refine OnlyChanges.upd ?_ (fun p hp => ?_))); on_goal 2 => (cases p <;> first | exact rfl | exact absurd (hP _ (by decide)) hp)))

theorem endInsync_only {P : List Part} {s₀ : State} {x0 : Nat} {t : State} (hP : Within [.sys, .hif, .dpx, .dpx2, .tly] P)  (h : OnlyChanges P s₀ t) :
    OnlyChanges P s₀ (State.endInsync x0 t) := by
  unfold State.endInsync
  repeat' (first
    | with_reducible assumption
    | with_reducible (refine setSync_only (hP.step (by decide)) ?_)
    | with_reducible (refine OnlyChanges.foldl ?_ (fun u a h => ?_))
    | (extract_lets +onlyGivenNames x; first | (refine OnlyChanges.cut x ?_ (fun h => ?_); (on_goal 2 => clear_value x); (on_goal 1 => subst x)) | clear_value x)
    | split
    | with_reducible (refine OnlyChanges.snd ?_)
    | with_reducible (refine OnlyChanges.fst ?_)
    | with_reducible (refine OnlyChanges.hres ?_)
    | ((with_reducible (refine OnlyChanges.upd ?_ (fun p hp => ?_))); on_goal 2 => (cases p <;> first | exact rfl | exact absurd (hP _ (by decide)) hp)))

theorem backlogOver_only {P : List Part} {s₀ : State}  {t : State} (hP : Within [.sys, .hif, .dpx, .dpx2, .tly] P)  (h : OnlyChanges P s₀ t) :
    OnlyChanges P s₀ (State.backlogOver t) := by
  unfold State.backlogOver
  repeat' (first
    | with_reducible assumption
    | with_reducible (refine endInsync_only (hP.step (by decide)) ?_)
    | with_reducible (refine OnlyChanges.foldl ?_ (fun u a h => ?_))
    | (extract_lets +onlyGivenNames x; first | (refine OnlyChanges.cut x ?_ (fun h => ?_); (on_goal 2 => clear_value x); (on_goal 1 => subst x)) | clear_value x)
    | split
    | with_reducible (refine OnlyChanges.snd ?_)
    | with_reducible (refine OnlyChanges.fst ?_)
    | with_reducible (refine OnlyChanges.hres ?_)
    | ((with_reducible (refine OnlyChanges.upd ?_ (fun p hp => ?_))); on_goal 2 => (cases p <;> first | exact rfl | exact absurd (hP _ (by decide)) hp)))

theorem overrunRec_only {P : List Part} {s₀ : State} {x0 : Nat} {t : State} (hP : Within [.tly] P)  (h : OnlyChanges P s₀ t) :
    OnlyChanges P s₀ (State.overrunRec x0 t) := by
  unfold State.overrunRec
  repeat' (first
    | with_reducible assumption
    | with_reducible (refine log_only (hP.step (by decide)) ?_)
    | with_reducible (refine OnlyChanges.foldl ?_ (fun u a h => ?_))
    | (extract_lets +onlyGivenNames x; first | (refine OnlyChanges.cut x ?_ (fun h => ?_); (on_goal 2 => clear_value x); (on_goal 1 => subst x)) | clear_value x)
    | split
    | with_reducible (refine OnlyChanges.snd ?_)
    | with_reducible (refine OnlyChanges.fst ?_)
    | with_reducible (refine OnlyChanges.hres ?_)
    | ((with_reducible (refine OnlyChanges.upd ?_ (fun p hp => ?_))); on_goal 2 => (cases p <;> first | exact rfl | exact absurd (hP _ (by decide)) hp)))

theorem overrunRecs_only {P : List Part} {s₀ : State}  {t : State} (hP : Within [.tly] P)  (h : OnlyChanges P s₀ t) :
    OnlyChanges P s₀ (State.overrunRecs t) := by
  unfold State.overrunRecs
  repeat' (first
    | with_reducible assumption
    | with_reducible (refine overrunRec_only (hP.step (by decide)) ?_)
    | with_reducible (refine OnlyChanges.foldl ?_ (fun u a h => ?_))
    | (extract_lets +onlyGivenNames x; first | (refine OnlyChanges.cut x ?_ (fun h => ?_); (on_goal 2 => clear_value x); (on_goal 1 => subst x)) | clear_value x)
    | split
    | with_reducible (refine OnlyChanges.snd ?_)
    | with_reducible (refine OnlyChanges.fst ?_)
    | with_reducible (refine OnlyChanges.hres ?_)
    | ((with_reducible (refine OnlyChanges.upd ?_ (fun p hp => ?_))); on_goal 2 => (cases p <;> first | exact rfl | exact absurd (hP _ (by decide)) hp)))

theorem enterHalt_only {P : List Part} {s₀ : State} {x0 : Nat} {t : State} (hP : Within [.sys, .hif, .cyc, .lsp, .saf, .tly, .mm, .outbox] P)  (h : OnlyChanges P s₀ t) :
    OnlyChanges P s₀ (State.enterHalt x0 t) := by
  unfold State.enterHalt
  repeat' (first
    | with_reducible assumption
    | with_reducible (refine overrunRecs_only (hP.step (by decide)) ?_)
    | with_reducible (refine preempt_only (hP.step (by decide)) ?_)
    | with_reducible (refine haltClasses_only (hP.step (by decide)) ?_)
    | with_reducible (refine setMode_only (hP.step (by decide)) ?_)
    | with_reducible (refine lockout_only (hP.step (by decide)) ?_)
    | with_reducible (refine OnlyChanges.foldl ?_ (fun u a h => ?_))
    | (extract_lets +onlyGivenNames x; first | (refine OnlyChanges.cut x ?_ (fun h => ?_); (on_goal 2 => clear_value x); (on_goal 1 => subst x)) | clear_value x)
    | split
    | with_reducible (refine OnlyChanges.snd ?_)
    | with_reducible (refine OnlyChanges.fst ?_)
    | with_reducible (refine OnlyChanges.hres ?_)
    | ((with_reducible (refine OnlyChanges.upd ?_ (fun p hp => ?_))); on_goal 2 => (cases p <;> first | exact rfl | exact absurd (hP _ (by decide)) hp)))

theorem settleFail_only {P : List Part} {s₀ : State} {x0 : Nat} {t : State} (hP : Within [.sys, .hif, .cyc, .lsp, .cle, .chg, .dpx, .dpx2, .mir, .net, .tim, .can, .canq, .fio, .saf, .tly, .mm, .boot, .pwr, .ret, .cfg, .prog, .regs, .live, .votes, .press, .posted, .outbox, .freeN] P)  (h : OnlyChanges P s₀ t) :
    OnlyChanges P s₀ (State.settleFail x0 t) := by
  unfold State.settleFail
  repeat' (first
    | with_reducible assumption
    | with_reducible (refine haltClasses_only (hP.step (by decide)) ?_)
    | with_reducible (refine drawObs_only (hP.step (by decide)) ?_)
    | with_reducible (refine step2_only (hP.step (by decide)) ?_)
    | with_reducible (refine holdBoot_only (hP.step (by decide)) ?_)
    | with_reducible (refine step3_only (hP.step (by decide)) ?_)
    | with_reducible (refine steps4to7_only (hP.step (by decide)) ?_)
    | with_reducible (refine endBoot_only (hP.step (by decide)) ?_)
    | with_reducible (refine log_only (hP.step (by decide)) ?_)
    | with_reducible (refine OnlyChanges.foldl ?_ (fun u a h => ?_))
    | (extract_lets +onlyGivenNames x; first | (refine OnlyChanges.cut x ?_ (fun h => ?_); (on_goal 2 => clear_value x); (on_goal 1 => subst x)) | (refine OnlyChanges.cut x.2 ?_ (fun h => ?_); (on_goal 2 => clear_value x); (on_goal 1 => subst x)) | clear_value x)
    | (generalize he : State.drawObs _ = e; have k : OnlyChanges P s₀ e.2 := (by rw [← he]; refine drawObs_only (hP.step (by decide)) ?_ <;> with_reducible assumption); clear he; obtain ⟨a, u⟩ := e; dsimp -zeta only at k ⊢)
    | split
    | with_reducible (refine OnlyChanges.snd ?_)
    | with_reducible (refine OnlyChanges.fst ?_)
    | with_reducible (refine OnlyChanges.hres ?_)
    | ((with_reducible (refine OnlyChanges.upd ?_ (fun p hp => ?_))); on_goal 2 => (cases p <;> first | exact rfl | exact absurd (hP _ (by decide)) hp)))

theorem unrecoverable_only {P : List Part} {s₀ : State} {x0 : Nat} {t : State} (hP : Within [.sys, .hif, .cyc, .lsp, .cle, .chg, .dpx, .dpx2, .mir, .net, .tim, .can, .canq, .fio, .saf, .tly, .mm, .boot, .pwr, .ret, .cfg, .prog, .regs, .live, .votes, .press, .posted, .outbox, .freeN] P)  (h : OnlyChanges P s₀ t) :
    OnlyChanges P s₀ (State.unrecoverable x0 t) := by
  unfold State.unrecoverable
  repeat' (first
    | with_reducible assumption
    | with_reducible (refine shutdown_only (hP.step (by decide)) ?_)
    | with_reducible (refine settleFail_only (hP.step (by decide)) ?_)
    | with_reducible (refine notice_only (hP.step (by decide)) ?_)
    | with_reducible (refine stopHeartbeats_only (hP.step (by decide)) ?_)
    | with_reducible (refine endInsync_only (hP.step (by decide)) ?_)
    | with_reducible (refine enterHalt_only (hP.step (by decide)) ?_)
    | with_reducible (refine OnlyChanges.foldl ?_ (fun u a h => ?_))
    | (extract_lets +onlyGivenNames x; first | (refine OnlyChanges.cut x ?_ (fun h => ?_); (on_goal 2 => clear_value x); (on_goal 1 => subst x)) | clear_value x)
    | split
    | with_reducible (refine OnlyChanges.snd ?_)
    | with_reducible (refine OnlyChanges.fst ?_)
    | with_reducible (refine OnlyChanges.hres ?_)
    | ((with_reducible (refine OnlyChanges.upd ?_ (fun p hp => ?_))); on_goal 2 => (cases p <;> first | exact rfl | exact absurd (hP _ (by decide)) hp)))

theorem freshUnmirrored_only {P : List Part} {s₀ : State}  {t : State} (hP : Within [.cyc] P)  (h : OnlyChanges P s₀ t) :
    OnlyChanges P s₀ (State.freshUnmirrored t) := by
  unfold State.freshUnmirrored
  repeat' (first
    | with_reducible assumption
    | with_reducible (refine updMem_only (hP.step (by decide)) ?_)
    | with_reducible (refine OnlyChanges.foldl ?_ (fun u a h => ?_))
    | (extract_lets +onlyGivenNames x; first | (refine OnlyChanges.cut x ?_ (fun h => ?_); (on_goal 2 => clear_value x); (on_goal 1 => subst x)) | clear_value x)
    | split
    | with_reducible (refine OnlyChanges.snd ?_)
    | with_reducible (refine OnlyChanges.fst ?_)
    | with_reducible (refine OnlyChanges.hres ?_)
    | ((with_reducible (refine OnlyChanges.upd ?_ (fun p hp => ?_))); on_goal 2 => (cases p <;> first | exact rfl | exact absurd (hP _ (by decide)) hp)))

theorem startTakeover_only {P : List Part} {s₀ : State}  {t : State} (hP : Within [.cyc, .cle, .mir] P)  (h : OnlyChanges P s₀ t) :
    OnlyChanges P s₀ (State.startTakeover t) := by
  unfold State.startTakeover
  repeat' (first
    | with_reducible assumption
    | with_reducible (refine freshUnmirrored_only (hP.step (by decide)) ?_)
    | with_reducible (refine OnlyChanges.foldl ?_ (fun u a h => ?_))
    | (extract_lets +onlyGivenNames x; first | (refine OnlyChanges.cut x ?_ (fun h => ?_); (on_goal 2 => clear_value x); (on_goal 1 => subst x)) | clear_value x)
    | split
    | with_reducible (refine OnlyChanges.snd ?_)
    | with_reducible (refine OnlyChanges.fst ?_)
    | with_reducible (refine OnlyChanges.hres ?_)
    | ((with_reducible (refine OnlyChanges.upd ?_ (fun p hp => ?_))); on_goal 2 => (cases p <;> first | exact rfl | exact absurd (hP _ (by decide)) hp)))

theorem takeover_only {P : List Part} {s₀ : State}  {t : State} (hP : Within [.sys, .hif, .cyc, .cle, .chg, .dpx, .dpx2, .mir, .saf, .tly, .mm, .boot, .outbox] P)  (h : OnlyChanges P s₀ t) :
    OnlyChanges P s₀ (State.takeover t) := by
  unfold State.takeover
  repeat' (first
    | with_reducible assumption
    | with_reducible (refine preempt_only (hP.step (by decide)) ?_)
    | with_reducible (refine setMode_only (hP.step (by decide)) ?_)
    | with_reducible (refine beginTrans_only (hP.step (by decide)) ?_)
    | with_reducible (refine takeEpoch_only (hP.step (by decide)) ?_)
    | with_reducible (refine startTakeover_only (hP.step (by decide)) ?_)
    | with_reducible (refine log_only (hP.step (by decide)) ?_)
    | with_reducible (refine OnlyChanges.foldl ?_ (fun u a h => ?_))
    | (extract_lets +onlyGivenNames x; first | (refine OnlyChanges.cut x ?_ (fun h => ?_); (on_goal 2 => clear_value x); (on_goal 1 => subst x)) | clear_value x)
    | split
    | with_reducible (refine OnlyChanges.snd ?_)
    | with_reducible (refine OnlyChanges.fst ?_)
    | with_reducible (refine OnlyChanges.hres ?_)
    | ((with_reducible (refine OnlyChanges.upd ?_ (fun p hp => ?_))); on_goal 2 => (cases p <;> first | exact rfl | exact absurd (hP _ (by decide)) hp)))

theorem orphanJournal_only {P : List Part} {s₀ : State}  {t : State} (hP : Within [.hif, .tly] P)  (h : OnlyChanges P s₀ t) :
    OnlyChanges P s₀ (State.orphanJournal t) := by
  unfold State.orphanJournal
  repeat' (first
    | with_reducible assumption
    | with_reducible (refine journal_only (hP.step (by decide)) ?_)
    | with_reducible (refine log_only (hP.step (by decide)) ?_)
    | with_reducible (refine OnlyChanges.foldl ?_ (fun u a h => ?_))
    | (extract_lets +onlyGivenNames x; first | (refine OnlyChanges.cut x ?_ (fun h => ?_); (on_goal 2 => clear_value x); (on_goal 1 => subst x)) | clear_value x)
    | split
    | with_reducible (refine OnlyChanges.snd ?_)
    | with_reducible (refine OnlyChanges.fst ?_)
    | with_reducible (refine OnlyChanges.hres ?_)
    | ((with_reducible (refine OnlyChanges.upd ?_ (fun p hp => ?_))); on_goal 2 => (cases p <;> first | exact rfl | exact absurd (hP _ (by decide)) hp)))

theorem asStandby_only {P : List Part} {s₀ : State}  {t : State} (hP : Within [.sys] P)  (h : OnlyChanges P s₀ t) :
    OnlyChanges P s₀ (State.asStandby t) := by
  unfold State.asStandby
  repeat' (first
    | with_reducible assumption
    | with_reducible (refine OnlyChanges.foldl ?_ (fun u a h => ?_))
    | (extract_lets +onlyGivenNames x; first | (refine OnlyChanges.cut x ?_ (fun h => ?_); (on_goal 2 => clear_value x); (on_goal 1 => subst x)) | clear_value x)
    | split
    | with_reducible (refine OnlyChanges.snd ?_)
    | with_reducible (refine OnlyChanges.fst ?_)
    | with_reducible (refine OnlyChanges.hres ?_)
    | ((with_reducible (refine OnlyChanges.upd ?_ (fun p hp => ?_))); on_goal 2 => (cases p <;> first | exact rfl | exact absurd (hP _ (by decide)) hp)))

theorem leaveTakeover_only {P : List Part} {s₀ : State}  {t : State} (hP : Within [.sys, .hif, .cyc, .cle, .chg, .dpx, .dpx2, .mir, .saf, .tly, .mm, .boot, .outbox] P)  (h : OnlyChanges P s₀ t) :
    OnlyChanges P s₀ (State.leaveTakeover t) := by
  unfold State.leaveTakeover
  repeat' (first
    | with_reducible assumption
    | with_reducible (refine takeover_only (hP.step (by decide)) ?_)
    | with_reducible (refine setMode_only (hP.step (by decide)) ?_)
    | with_reducible (refine asStandby_only (hP.step (by decide)) ?_)
    | with_reducible (refine OnlyChanges.foldl ?_ (fun u a h => ?_))
    | (extract_lets +onlyGivenNames x; first | (refine OnlyChanges.cut x ?_ (fun h => ?_); (on_goal 2 => clear_value x); (on_goal 1 => subst x)) | clear_value x)
    | split
    | with_reducible (refine OnlyChanges.snd ?_)
    | with_reducible (refine OnlyChanges.fst ?_)
    | with_reducible (refine OnlyChanges.hres ?_)
    | ((with_reducible (refine OnlyChanges.upd ?_ (fun p hp => ?_))); on_goal 2 => (cases p <;> first | exact rfl | exact absurd (hP _ (by decide)) hp)))

theorem stepDown_only {P : List Part} {s₀ : State} {x0 : Nat} {x1 : Word} {t : State} (hP : Within [.sys, .hif, .cyc, .lsp, .cle, .chg, .dpx, .dpx2, .mir, .saf, .tly, .mm, .boot, .outbox] P)  (h : OnlyChanges P s₀ t) :
    OnlyChanges P s₀ (State.stepDown x0 x1 t) := by
  unfold State.stepDown
  repeat' (first
    | with_reducible assumption
    | with_reducible (refine log_only (hP.step (by decide)) ?_)
    | with_reducible (refine orphanJournal_only (hP.step (by decide)) ?_)
    | with_reducible (refine endInsync_only (hP.step (by decide)) ?_)
    | with_reducible (refine haltClasses_only (hP.step (by decide)) ?_)
    | with_reducible (refine asStandby_only (hP.step (by decide)) ?_)
    | with_reducible (refine leaveTakeover_only (hP.step (by decide)) ?_)
    | with_reducible (refine setSync_only (hP.step (by decide)) ?_)
    | with_reducible (refine OnlyChanges.foldl ?_ (fun u a h => ?_))
    | (extract_lets +onlyGivenNames x; first | (refine OnlyChanges.cut x ?_ (fun h => ?_); (on_goal 2 => clear_value x); (on_goal 1 => subst x)) | clear_value x)
    | split
    | with_reducible (refine OnlyChanges.snd ?_)
    | with_reducible (refine OnlyChanges.fst ?_)
    | with_reducible (refine OnlyChanges.hres ?_)
    | ((with_reducible (refine OnlyChanges.upd ?_ (fun p hp => ?_))); on_goal 2 => (cases p <;> first | exact rfl | exact absurd (hP _ (by decide)) hp)))

theorem seeEpoch_only {P : List Part} {s₀ : State} {x0 : Word} {t : State} (hP : Within [.dpx] P)  (h : OnlyChanges P s₀ t) :
    OnlyChanges P s₀ (State.seeEpoch x0 t) := by
  unfold State.seeEpoch
  repeat' (first
    | with_reducible assumption
    | with_reducible (refine OnlyChanges.foldl ?_ (fun u a h => ?_))
    | (extract_lets +onlyGivenNames x; first | (refine OnlyChanges.cut x ?_ (fun h => ?_); (on_goal 2 => clear_value x); (on_goal 1 => subst x)) | clear_value x)
    | split
    | with_reducible (refine OnlyChanges.snd ?_)
    | with_reducible (refine OnlyChanges.fst ?_)
    | with_reducible (refine OnlyChanges.hres ?_)
    | ((with_reducible (refine OnlyChanges.upd ?_ (fun p hp => ?_))); on_goal 2 => (cases p <;> first | exact rfl | exact absurd (hP _ (by decide)) hp)))

theorem dropOutputs_only {P : List Part} {s₀ : State}  {t : State} (hP : Within [.can, .fio, .saf, .outbox] P)  (h : OnlyChanges P s₀ t) :
    OnlyChanges P s₀ (State.dropOutputs t) := by
  unfold State.dropOutputs
  repeat' (first
    | with_reducible assumption
    | with_reducible (refine put_only (hP.step (by decide)) ?_)
    | with_reducible (refine soOff_only (hP.step (by decide)) ?_)
    | with_reducible (refine driveZero_only (hP.step (by decide)) ?_)
    | with_reducible (refine OnlyChanges.foldl ?_ (fun u a h => ?_))
    | (extract_lets +onlyGivenNames x; first | (refine OnlyChanges.cut x ?_ (fun h => ?_); (on_goal 2 => clear_value x); (on_goal 1 => subst x)) | clear_value x)
    | split
    | with_reducible (refine OnlyChanges.snd ?_)
    | with_reducible (refine OnlyChanges.fst ?_)
    | with_reducible (refine OnlyChanges.hres ?_)
    | ((with_reducible (refine OnlyChanges.upd ?_ (fun p hp => ?_))); on_goal 2 => (cases p <;> first | exact rfl | exact absurd (hP _ (by decide)) hp)))

theorem stopModule_only {P : List Part} {s₀ : State}  {t : State} (hP : Within [.sys, .cyc, .lsp, .dpx, .can, .fio, .saf, .pwr, .outbox] P)  (h : OnlyChanges P s₀ t) :
    OnlyChanges P s₀ (State.stopModule t) := by
  unfold State.stopModule
  repeat' (first
    | with_reducible assumption
    | with_reducible (refine stopHeartbeats_only (hP.step (by decide)) ?_)
    | with_reducible (refine preempt_only (hP.step (by decide)) ?_)
    | with_reducible (refine haltClasses_only (hP.step (by decide)) ?_)
    | with_reducible (refine dropOutputs_only (hP.step (by decide)) ?_)
    | with_reducible (refine OnlyChanges.foldl ?_ (fun u a h => ?_))
    | (extract_lets +onlyGivenNames x; first | (refine OnlyChanges.cut x ?_ (fun h => ?_); (on_goal 2 => clear_value x); (on_goal 1 => subst x)) | clear_value x)
    | split
    | with_reducible (refine OnlyChanges.snd ?_)
    | with_reducible (refine OnlyChanges.fst ?_)
    | with_reducible (refine OnlyChanges.hres ?_)
    | ((with_reducible (refine OnlyChanges.upd ?_ (fun p hp => ?_))); on_goal 2 => (cases p <;> first | exact rfl | exact absurd (hP _ (by decide)) hp)))

theorem intoRetain_only {P : List Part} {s₀ : State}  {t : State} (hP : Within [.sys, .hif, .cyc, .lsp, .cle, .chg, .dpx, .dpx2, .mir, .net, .tim, .can, .canq, .fio, .saf, .tly, .mm, .boot, .pwr, .cfg, .prog, .regs, .live, .votes, .press, .posted] P)  (h : OnlyChanges P s₀ t) :
    OnlyChanges P s₀ (State.intoRetain t) := by
  unfold State.intoRetain
  repeat' (first
    | with_reducible assumption
    | with_reducible (refine log_only (hP.step (by decide)) ?_)
    | with_reducible (refine kept_only (hP.step (by decide)) ?_)
    | with_reducible (refine OnlyChanges.foldl ?_ (fun u a h => ?_))
    | (extract_lets +onlyGivenNames x; first | (refine OnlyChanges.cut x ?_ (fun h => ?_); (on_goal 2 => clear_value x); (on_goal 1 => subst x)) | clear_value x)
    | split
    | with_reducible (refine OnlyChanges.snd ?_)
    | with_reducible (refine OnlyChanges.fst ?_)
    | with_reducible (refine OnlyChanges.hres ?_)
    | ((with_reducible (refine OnlyChanges.upd ?_ (fun p hp => ?_))); on_goal 2 => (cases p <;> first | exact rfl | exact absurd (hP _ (by decide)) hp)))

end Sys2Proof.Laws
end

