-- ==== Sys2Proof/Laws/OnlyRings.lean ====
section
/-! SUPPORT. What each operation of Rings.lean may change: one frame per operation. -/

set_option linter.unusedTactic false
set_option linter.unreachableTactic false
set_option linter.unusedVariables false
set_option linter.tactic.unusedName false

namespace Sys2Proof.Laws

open Sys2Proof.Machine Sys2Proof.Safety

theorem updRing_only {P : List Part} {s₀ : State} {x0 : Nat} {x1 : Ring → Ring} {t : State} (hP : Within [.hif] P)  (h : OnlyChanges P s₀ t) :
    OnlyChanges P s₀ (State.updRing x0 x1 t) := by
  unfold State.updRing
  repeat' (first
    | with_reducible assumption
    | with_reducible (refine OnlyChanges.foldl ?_ (fun u a h => ?_))
    | (extract_lets +onlyGivenNames x; first | (refine OnlyChanges.cut x ?_ (fun h => ?_); (on_goal 2 => clear_value x); (on_goal 1 => subst x)) | clear_value x)
    | split
    | with_reducible (refine OnlyChanges.snd ?_)
    | with_reducible (refine OnlyChanges.fst ?_)
    | with_reducible (refine OnlyChanges.hres ?_)
    | ((with_reducible (refine OnlyChanges.upd ?_ (fun p hp => ?_))); on_goal 2 => (cases p <;> first | exact rfl | exact absurd (hP _ (by decide)) hp)))

theorem journal_only {P : List Part} {s₀ : State} {x0 : JRec} {t : State} (hP : Within [.hif] P)  (h : OnlyChanges P s₀ t) :
    OnlyChanges P s₀ (State.journal x0 t) := by
  unfold State.journal
  repeat' (first
    | with_reducible assumption
    | with_reducible (refine OnlyChanges.foldl ?_ (fun u a h => ?_))
    | (extract_lets +onlyGivenNames x; first | (refine OnlyChanges.cut x ?_ (fun h => ?_); (on_goal 2 => clear_value x); (on_goal 1 => subst x)) | clear_value x)
    | split
    | with_reducible (refine OnlyChanges.snd ?_)
    | with_reducible (refine OnlyChanges.fst ?_)
    | with_reducible (refine OnlyChanges.hres ?_)
    | ((with_reducible (refine OnlyChanges.upd ?_ (fun p hp => ?_))); on_goal 2 => (cases p <;> first | exact rfl | exact absurd (hP _ (by decide)) hp)))

theorem retire_only {P : List Part} {s₀ : State} {x0 : Nat} {x1 : DWord} {t : State} (hP : Within [.hif] P)  (h : OnlyChanges P s₀ t) :
    OnlyChanges P s₀ (State.retire x0 x1 t) := by
  unfold State.retire
  repeat' (first
    | with_reducible assumption
    | with_reducible (refine journal_only (hP.step (by decide)) ?_)
    | with_reducible (refine OnlyChanges.foldl ?_ (fun u a h => ?_))
    | (extract_lets +onlyGivenNames x; first | (refine OnlyChanges.cut x ?_ (fun h => ?_); (on_goal 2 => clear_value x); (on_goal 1 => subst x)) | clear_value x)
    | split
    | with_reducible (refine OnlyChanges.snd ?_)
    | with_reducible (refine OnlyChanges.fst ?_)
    | with_reducible (refine OnlyChanges.hres ?_)
    | ((with_reducible (refine OnlyChanges.upd ?_ (fun p hp => ?_))); on_goal 2 => (cases p <;> first | exact rfl | exact absurd (hP _ (by decide)) hp)))

theorem enterWin_only {P : List Part} {s₀ : State} {x0 : Nat} {x1 : DWord} {t : State} (hP : Within [.hif] P)  (h : OnlyChanges P s₀ t) :
    OnlyChanges P s₀ (State.enterWin x0 x1 t) := by
  unfold State.enterWin
  repeat' (first
    | with_reducible assumption
    | with_reducible (refine OnlyChanges.foldl ?_ (fun u a h => ?_))
    | (extract_lets +onlyGivenNames x; first | (refine OnlyChanges.cut x ?_ (fun h => ?_); (on_goal 2 => clear_value x); (on_goal 1 => subst x)) | clear_value x)
    | split
    | with_reducible (refine OnlyChanges.snd ?_)
    | with_reducible (refine OnlyChanges.fst ?_)
    | with_reducible (refine OnlyChanges.hres ?_)
    | ((with_reducible (refine OnlyChanges.upd ?_ (fun p hp => ?_))); on_goal 2 => (cases p <;> first | exact rfl | exact absurd (hP _ (by decide)) hp)))

theorem leaveWin_only {P : List Part} {s₀ : State} {x0 : Nat} {x1 : DWord} {t : State} (hP : Within [.hif] P)  (h : OnlyChanges P s₀ t) :
    OnlyChanges P s₀ (State.leaveWin x0 x1 t) := by
  unfold State.leaveWin
  repeat' (first
    | with_reducible assumption
    | with_reducible (refine OnlyChanges.foldl ?_ (fun u a h => ?_))
    | (extract_lets +onlyGivenNames x; first | (refine OnlyChanges.cut x ?_ (fun h => ?_); (on_goal 2 => clear_value x); (on_goal 1 => subst x)) | clear_value x)
    | split
    | with_reducible (refine OnlyChanges.snd ?_)
    | with_reducible (refine OnlyChanges.fst ?_)
    | with_reducible (refine OnlyChanges.hres ?_)
    | ((with_reducible (refine OnlyChanges.upd ?_ (fun p hp => ?_))); on_goal 2 => (cases p <;> first | exact rfl | exact absurd (hP _ (by decide)) hp)))

theorem countInt_only {P : List Part} {s₀ : State} {x0 : Nat} {x1 : Bool} {t : State} (hP : Within [.hif, .outbox] P)  (h : OnlyChanges P s₀ t) :
    OnlyChanges P s₀ (State.countInt x0 x1 t) := by
  unfold State.countInt
  repeat' (first
    | with_reducible assumption
    | with_reducible (refine msix_only (hP.step (by decide)) ?_)
    | with_reducible (refine updRing_only (hP.step (by decide)) ?_)
    | with_reducible (refine OnlyChanges.foldl ?_ (fun u a h => ?_))
    | (extract_lets +onlyGivenNames x; first | (refine OnlyChanges.cut x ?_ (fun h => ?_); (on_goal 2 => clear_value x); (on_goal 1 => subst x)) | clear_value x)
    | split
    | with_reducible (refine OnlyChanges.snd ?_)
    | with_reducible (refine OnlyChanges.fst ?_)
    | with_reducible (refine OnlyChanges.hres ?_)
    | ((with_reducible (refine OnlyChanges.upd ?_ (fun p hp => ?_))); on_goal 2 => (cases p <;> first | exact rfl | exact absurd (hP _ (by decide)) hp)))

theorem haltRing_only {P : List Part} {s₀ : State} {x0 : Nat} {x1 : Nat} {x2 : Nat} {t : State} (hP : Within [.hif, .tly, .outbox] P)  (h : OnlyChanges P s₀ t) :
    OnlyChanges P s₀ (State.haltRing x0 x1 x2 t) := by
  unfold State.haltRing
  repeat' (first
    | with_reducible assumption
    | with_reducible (refine updRing_only (hP.step (by decide)) ?_)
    | with_reducible (refine log_only (hP.step (by decide)) ?_)
    | with_reducible (refine event_only (hP.step (by decide)) ?_)
    | with_reducible (refine OnlyChanges.foldl ?_ (fun u a h => ?_))
    | (extract_lets +onlyGivenNames x; first | (refine OnlyChanges.cut x ?_ (fun h => ?_); (on_goal 2 => clear_value x); (on_goal 1 => subst x)) | clear_value x)
    | split
    | with_reducible (refine OnlyChanges.snd ?_)
    | with_reducible (refine OnlyChanges.fst ?_)
    | with_reducible (refine OnlyChanges.hres ?_)
    | ((with_reducible (refine OnlyChanges.upd ?_ (fun p hp => ?_))); on_goal 2 => (cases p <;> first | exact rfl | exact absurd (hP _ (by decide)) hp)))

theorem dmaErr_only {P : List Part} {s₀ : State}  {t : State} (hP : Within [.hif] P)  (h : OnlyChanges P s₀ t) :
    OnlyChanges P s₀ (State.dmaErr t) := by
  unfold State.dmaErr
  repeat' (first
    | with_reducible assumption
    | with_reducible (refine OnlyChanges.foldl ?_ (fun u a h => ?_))
    | (extract_lets +onlyGivenNames x; first | (refine OnlyChanges.cut x ?_ (fun h => ?_); (on_goal 2 => clear_value x); (on_goal 1 => subst x)) | clear_value x)
    | split
    | with_reducible (refine OnlyChanges.snd ?_)
    | with_reducible (refine OnlyChanges.fst ?_)
    | with_reducible (refine OnlyChanges.hres ?_)
    | ((with_reducible (refine OnlyChanges.upd ?_ (fun p hp => ?_))); on_goal 2 => (cases p <;> first | exact rfl | exact absurd (hP _ (by decide)) hp)))

theorem postCqe_only {P : List Part} {s₀ : State} {x0 : Bool} {x1 : Cqe} {t : State} (hP : Within [.hif, .outbox] P)  (h : OnlyChanges P s₀ t) :
    OnlyChanges P s₀ (State.postCqe x0 x1 t) := by
  unfold State.postCqe
  repeat' (first
    | with_reducible assumption
    | with_reducible (refine updRing_only (hP.step (by decide)) ?_)
    | with_reducible (refine put_only (hP.step (by decide)) ?_)
    | with_reducible (refine countInt_only (hP.step (by decide)) ?_)
    | with_reducible (refine retire_only (hP.step (by decide)) ?_)
    | with_reducible (refine OnlyChanges.foldl ?_ (fun u a h => ?_))
    | (extract_lets +onlyGivenNames x; first | (refine OnlyChanges.cut x ?_ (fun h => ?_); (on_goal 2 => clear_value x); (on_goal 1 => subst x)) | clear_value x)
    | split
    | with_reducible (refine OnlyChanges.snd ?_)
    | with_reducible (refine OnlyChanges.fst ?_)
    | with_reducible (refine OnlyChanges.hres ?_)
    | ((with_reducible (refine OnlyChanges.upd ?_ (fun p hp => ?_))); on_goal 2 => (cases p <;> first | exact rfl | exact absurd (hP _ (by decide)) hp)))

theorem releaseHeld_only {P : List Part} {s₀ : State} {x0 : Nat} {t : State} (hP : Within [.hif, .outbox] P)  (h : OnlyChanges P s₀ t) :
    OnlyChanges P s₀ (State.releaseHeld x0 t) := by
  unfold State.releaseHeld
  repeat' (first
    | with_reducible assumption
    | with_reducible (refine postCqe_only (hP.step (by decide)) ?_)
    | with_reducible (refine OnlyChanges.foldl ?_ (fun u a h => ?_))
    | (extract_lets +onlyGivenNames x; first | (refine OnlyChanges.cut x ?_ (fun h => ?_); (on_goal 2 => clear_value x); (on_goal 1 => subst x)) | clear_value x)
    | split
    | with_reducible (refine OnlyChanges.snd ?_)
    | with_reducible (refine OnlyChanges.fst ?_)
    | with_reducible (refine OnlyChanges.hres ?_)
    | ((with_reducible (refine OnlyChanges.upd ?_ (fun p hp => ?_))); on_goal 2 => (cases p <;> first | exact rfl | exact absurd (hP _ (by decide)) hp)))

theorem writeCqe_only {P : List Part} {s₀ : State} {x0 : Hcmd} {x1 : BitVec 16} {x2 : Bool} {x3 : Bool} {x4 : DWord} {x5 : Nat} {x6 : Word} {x7 : DWord} {t : State} (hP : Within [.hif, .tly, .outbox] P)  (h : OnlyChanges P s₀ t) :
    OnlyChanges P s₀ (State.writeCqe x0 x1 x2 x3 x4 x5 x6 x7 t) := by
  unfold State.writeCqe
  repeat' (first
    | with_reducible assumption
    | with_reducible (refine updRing_only (hP.step (by decide)) ?_)
    | with_reducible (refine dmaErr_only (hP.step (by decide)) ?_)
    | with_reducible (refine haltRing_only (hP.step (by decide)) ?_)
    | with_reducible (refine postCqe_only (hP.step (by decide)) ?_)
    | with_reducible (refine OnlyChanges.foldl ?_ (fun u a h => ?_))
    | (extract_lets +onlyGivenNames x; first | (refine OnlyChanges.cut x ?_ (fun h => ?_); (on_goal 2 => clear_value x); (on_goal 1 => subst x)) | clear_value x)
    | split
    | with_reducible (refine OnlyChanges.snd ?_)
    | with_reducible (refine OnlyChanges.fst ?_)
    | with_reducible (refine OnlyChanges.hres ?_)
    | ((with_reducible (refine OnlyChanges.upd ?_ (fun p hp => ?_))); on_goal 2 => (cases p <;> first | exact rfl | exact absurd (hP _ (by decide)) hp)))

theorem removeRing_only {P : List Part} {s₀ : State} {x0 : Nat} {t : State} (hP : Within [.hif] P)  (h : OnlyChanges P s₀ t) :
    OnlyChanges P s₀ (State.removeRing x0 t) := by
  unfold State.removeRing
  repeat' (first
    | with_reducible assumption
    | with_reducible (refine OnlyChanges.foldl ?_ (fun u a h => ?_))
    | (extract_lets +onlyGivenNames x; first | (refine OnlyChanges.cut x ?_ (fun h => ?_); (on_goal 2 => clear_value x); (on_goal 1 => subst x)) | clear_value x)
    | split
    | with_reducible (refine OnlyChanges.snd ?_)
    | with_reducible (refine OnlyChanges.fst ?_)
    | with_reducible (refine OnlyChanges.hres ?_)
    | ((with_reducible (refine OnlyChanges.upd ?_ (fun p hp => ?_))); on_goal 2 => (cases p <;> first | exact rfl | exact absurd (hP _ (by decide)) hp)))

theorem endDelete_only {P : List Part} {s₀ : State} {x0 : Nat} {t : State} (hP : Within [.hif, .tly, .outbox] P)  (h : OnlyChanges P s₀ t) :
    OnlyChanges P s₀ (State.endDelete x0 t) := by
  unfold State.endDelete
  repeat' (first
    | with_reducible assumption
    | with_reducible (refine removeRing_only (hP.step (by decide)) ?_)
    | with_reducible (refine writeCqe_only (hP.step (by decide)) ?_)
    | with_reducible (refine OnlyChanges.foldl ?_ (fun u a h => ?_))
    | (extract_lets +onlyGivenNames x; first | (refine OnlyChanges.cut x ?_ (fun h => ?_); (on_goal 2 => clear_value x); (on_goal 1 => subst x)) | clear_value x)
    | split
    | with_reducible (refine OnlyChanges.snd ?_)
    | with_reducible (refine OnlyChanges.fst ?_)
    | with_reducible (refine OnlyChanges.hres ?_)
    | ((with_reducible (refine OnlyChanges.upd ?_ (fun p hp => ?_))); on_goal 2 => (cases p <;> first | exact rfl | exact absurd (hP _ (by decide)) hp)))

theorem complete_only {P : List Part} {s₀ : State} {x0 : Hcmd} {x1 : BitVec 16} {x2 : Bool} {x3 : Bool} {x4 : DWord} {x5 : Nat} {x6 : Word} {x7 : DWord} {t : State} (hP : Within [.hif, .tly, .outbox] P)  (h : OnlyChanges P s₀ t) :
    OnlyChanges P s₀ (State.complete x0 x1 x2 x3 x4 x5 x6 x7 t) := by
  unfold State.complete
  repeat' (first
    | with_reducible assumption
    | with_reducible (refine writeCqe_only (hP.step (by decide)) ?_)
    | with_reducible (refine endDelete_only (hP.step (by decide)) ?_)
    | with_reducible (refine OnlyChanges.foldl ?_ (fun u a h => ?_))
    | (extract_lets +onlyGivenNames x; first | (refine OnlyChanges.cut x ?_ (fun h => ?_); (on_goal 2 => clear_value x); (on_goal 1 => subst x)) | clear_value x)
    | split
    | with_reducible (refine OnlyChanges.snd ?_)
    | with_reducible (refine OnlyChanges.fst ?_)
    | with_reducible (refine OnlyChanges.hres ?_)
    | ((with_reducible (refine OnlyChanges.upd ?_ (fun p hp => ?_))); on_goal 2 => (cases p <;> first | exact rfl | exact absurd (hP _ (by decide)) hp)))

theorem finish_only {P : List Part} {s₀ : State} {x0 : Hcmd} {x1 : BitVec 16} {t : State} (hP : Within [.hif, .tly, .outbox] P)  (h : OnlyChanges P s₀ t) :
    OnlyChanges P s₀ (State.finish x0 x1 t) := by
  unfold State.finish
  repeat' (first
    | with_reducible assumption
    | with_reducible (refine complete_only (hP.step (by decide)) ?_)
    | with_reducible (refine OnlyChanges.foldl ?_ (fun u a h => ?_))
    | (extract_lets +onlyGivenNames x; first | (refine OnlyChanges.cut x ?_ (fun h => ?_); (on_goal 2 => clear_value x); (on_goal 1 => subst x)) | clear_value x)
    | split
    | with_reducible (refine OnlyChanges.snd ?_)
    | with_reducible (refine OnlyChanges.fst ?_)
    | with_reducible (refine OnlyChanges.hres ?_)
    | ((with_reducible (refine OnlyChanges.upd ?_ (fun p hp => ?_))); on_goal 2 => (cases p <;> first | exact rfl | exact absurd (hP _ (by decide)) hp)))

theorem giveBack_only {P : List Part} {s₀ : State} {x0 : Hcmd} {x1 : List Byte} {t : State} (hP : Within [.hif, .outbox] P)  (h : OnlyChanges P s₀ t) :
    OnlyChanges P s₀ ((State.giveBack x0 x1 t).2) := by
  unfold State.giveBack
  split
  · exact h
  · split
    · exact put_only (hP.step (by decide)) h
    · exact dmaErr_only (hP.step (by decide)) h

theorem settle_only {P : List Part} {s₀ : State} {x0 : Hcmd} {x1 : BitVec 16} {x2 : Bool} {x3 : DWord} {x4 : List Byte} {x5 : Word} {x6 : DWord} {t : State} (hP : Within [.hif, .tly, .outbox] P)  (h : OnlyChanges P s₀ t) :
    OnlyChanges P s₀ (State.settle x0 x1 x2 x3 x4 x5 x6 t) := by
  unfold State.settle
  exact complete_only (hP.step (by decide)) (giveBack_only (hP.step (by decide)) h)

theorem fetch_only {P : List Part} {s₀ : State} {x0 : Nat} {t : State} (hP : Within [.hif] P)  (h : OnlyChanges P s₀ t) :
    OnlyChanges P s₀ (State.fetch x0 t) := by
  unfold State.fetch
  repeat' (first
    | with_reducible assumption
    | with_reducible (refine updRing_only (hP.step (by decide)) ?_)
    | with_reducible (refine OnlyChanges.foldl ?_ (fun u a h => ?_))
    | (extract_lets +onlyGivenNames x; first | (refine OnlyChanges.cut x ?_ (fun h => ?_); (on_goal 2 => clear_value x); (on_goal 1 => subst x)) | clear_value x)
    | split
    | with_reducible (refine OnlyChanges.snd ?_)
    | with_reducible (refine OnlyChanges.fst ?_)
    | with_reducible (refine OnlyChanges.hres ?_)
    | ((with_reducible (refine OnlyChanges.upd ?_ (fun p hp => ?_))); on_goal 2 => (cases p <;> first | exact rfl | exact absurd (hP _ (by decide)) hp)))

theorem afterRecord_only {P : List Part} {s₀ : State} {x0 : HostOp} {x1 : Hcmd} {x2 : BitVec 16} {x3 : Word} {x4 : Bool} {x5 : DWord} {t : State} (hP : Within [.hif, .tly, .outbox] P) (hf0 : OpOnly P s₀ x0) (h : OnlyChanges P s₀ t) :
    OnlyChanges P s₀ (State.afterRecord x0 x1 x2 x3 x4 x5 t) := by
  unfold State.afterRecord
  repeat' (first
    | with_reducible assumption
    | with_reducible (refine enterWin_only (hP.step (by decide)) ?_)
    | with_reducible (refine complete_only (hP.step (by decide)) ?_)
    | with_reducible (refine updRing_only (hP.step (by decide)) ?_)
    | with_reducible (refine settle_only (hP.step (by decide)) ?_)
    | with_reducible (refine OnlyChanges.foldl ?_ (fun u a h => ?_))
    | with_reducible exact hf0
    | with_reducible (refine hf0.effect ?_)
    | with_reducible (refine hf0.prepare (by assumption) ?_)
    | (extract_lets +onlyGivenNames x; first | (refine OnlyChanges.cut x ?_ (fun h => ?_); (on_goal 2 => clear_value x); (on_goal 1 => subst x)) | (refine OnlyChanges.cut x.s ?_ (fun h => ?_); (on_goal 2 => clear_value x); (on_goal 1 => subst x)) | clear_value x)
    | split
    | with_reducible (refine OnlyChanges.snd ?_)
    | with_reducible (refine OnlyChanges.fst ?_)
    | with_reducible (refine OnlyChanges.hres ?_)
    | ((with_reducible (refine OnlyChanges.upd ?_ (fun p hp => ?_))); on_goal 2 => (cases p <;> first | exact rfl | exact absurd (hP _ (by decide)) hp)))

theorem recordJournal_only {P : List Part} {s₀ : State} {x0 : HostOp} {x1 : Hcmd} {x2 : BitVec 16} {x3 : Word} {x4 : DWord} {t : State} (hP : Within [.hif, .tly, .outbox] P) (hf0 : OpOnly P s₀ x0) (h : OnlyChanges P s₀ t) :
    OnlyChanges P s₀ (State.recordJournal x0 x1 x2 x3 x4 t) := by
  unfold State.recordJournal
  repeat' (first
    | with_reducible assumption
    | with_reducible (refine updRing_only (hP.step (by decide)) ?_)
    | with_reducible (refine journal_only (hP.step (by decide)) ?_)
    | with_reducible (refine afterRecord_only (hP.step (by decide)) ?_ ?_)
    | with_reducible (refine OnlyChanges.foldl ?_ (fun u a h => ?_))
    | with_reducible exact hf0
    | with_reducible (refine hf0.effect ?_)
    | with_reducible (refine hf0.prepare (by assumption) ?_)
    | intro _
    | (extract_lets +onlyGivenNames x; first | (refine OnlyChanges.cut x ?_ (fun h => ?_); (on_goal 2 => clear_value x); (on_goal 1 => subst x)) | (refine OnlyChanges.cut x.s ?_ (fun h => ?_); (on_goal 2 => clear_value x); (on_goal 1 => subst x)) | clear_value x)
    | split
    | intro _
    | with_reducible (refine OnlyChanges.snd ?_)
    | with_reducible (refine OnlyChanges.fst ?_)
    | with_reducible (refine OnlyChanges.hres ?_)
    | ((with_reducible (refine OnlyChanges.upd ?_ (fun p hp => ?_))); on_goal 2 => (cases p <;> first | exact rfl | exact absurd (hP _ (by decide)) hp)))

theorem sendHostwork_only {P : List Part} {s₀ : State} {x0 : Bool} {x1 : List Byte} {t : State} (hP : Within [.dpx2, .outbox] P)  (h : OnlyChanges P s₀ t) :
    OnlyChanges P s₀ (State.sendHostwork x0 x1 t) := by
  unfold State.sendHostwork
  repeat' (first
    | with_reducible assumption
    | with_reducible (refine sendPart_only (hP.step (by decide)) ?_)
    | with_reducible (refine OnlyChanges.foldl ?_ (fun u a h => ?_))
    | (extract_lets +onlyGivenNames x; first | (refine OnlyChanges.cut x ?_ (fun h => ?_); (on_goal 2 => clear_value x); (on_goal 1 => subst x)) | clear_value x)
    | split
    | with_reducible (refine OnlyChanges.snd ?_)
    | with_reducible (refine OnlyChanges.fst ?_)
    | with_reducible (refine OnlyChanges.hres ?_)
    | ((with_reducible (refine OnlyChanges.upd ?_ (fun p hp => ?_))); on_goal 2 => (cases p <;> first | exact rfl | exact absurd (hP _ (by decide)) hp)))

theorem record_only {P : List Part} {s₀ : State} {x0 : HostOp} {x1 : Hcmd} {x2 : BitVec 16} {x3 : Word} {x4 : DWord} {t : State} (hP : Within [.sys, .hif, .dpx, .dpx2, .tly, .outbox] P) (hf0 : OpOnly P s₀ x0) (h : OnlyChanges P s₀ t) :
    OnlyChanges P s₀ (State.record x0 x1 x2 x3 x4 t) := by
  unfold State.record
  repeat' (first
    | with_reducible assumption
    | with_reducible (refine sendHostwork_only (hP.step (by decide)) ?_)
    | with_reducible (refine updRing_only (hP.step (by decide)) ?_)
    | with_reducible (refine backlogOver_only (hP.step (by decide)) ?_)
    | with_reducible (refine recordJournal_only (hP.step (by decide)) ?_ ?_)
    | with_reducible (refine OnlyChanges.foldl ?_ (fun u a h => ?_))
    | with_reducible exact hf0
    | with_reducible (refine hf0.effect ?_)
    | with_reducible (refine hf0.prepare (by assumption) ?_)
    | intro _
    | (extract_lets +onlyGivenNames x; first | (refine OnlyChanges.cut x ?_ (fun h => ?_); (on_goal 2 => clear_value x); (on_goal 1 => subst x)) | (refine OnlyChanges.cut x.s ?_ (fun h => ?_); (on_goal 2 => clear_value x); (on_goal 1 => subst x)) | clear_value x)
    | split
    | intro _
    | with_reducible (refine OnlyChanges.snd ?_)
    | with_reducible (refine OnlyChanges.fst ?_)
    | with_reducible (refine OnlyChanges.hres ?_)
    | ((with_reducible (refine OnlyChanges.upd ?_ (fun p hp => ?_))); on_goal 2 => (cases p <;> first | exact rfl | exact absurd (hP _ (by decide)) hp)))

theorem runUnrecorded_only {P : List Part} {s₀ : State} {x0 : HostOp} {x1 : Hcmd} {t : State} (hP : Within [.hif, .tly, .outbox] P) (hf0 : OpOnly P s₀ x0) (h : OnlyChanges P s₀ t) :
    OnlyChanges P s₀ (State.runUnrecorded x0 x1 t) := by
  unfold State.runUnrecorded
  repeat' (first
    | with_reducible assumption
    | with_reducible (refine complete_only (hP.step (by decide)) ?_)
    | with_reducible (refine updRing_only (hP.step (by decide)) ?_)
    | with_reducible (refine settle_only (hP.step (by decide)) ?_)
    | with_reducible (refine OnlyChanges.foldl ?_ (fun u a h => ?_))
    | with_reducible exact hf0
    | with_reducible (refine hf0.effect ?_)
    | with_reducible (refine hf0.prepare (by assumption) ?_)
    | (extract_lets +onlyGivenNames x; first | (refine OnlyChanges.cut x ?_ (fun h => ?_); (on_goal 2 => clear_value x); (on_goal 1 => subst x)) | (refine OnlyChanges.cut x.s ?_ (fun h => ?_); (on_goal 2 => clear_value x); (on_goal 1 => subst x)) | clear_value x)
    | split
    | with_reducible (refine OnlyChanges.snd ?_)
    | with_reducible (refine OnlyChanges.fst ?_)
    | with_reducible (refine OnlyChanges.hres ?_)
    | ((with_reducible (refine OnlyChanges.upd ?_ (fun p hp => ?_))); on_goal 2 => (cases p <;> first | exact rfl | exact absurd (hP _ (by decide)) hp)))

theorem runPrimary_only {P : List Part} {s₀ : State} {x0 : HostOp} {x1 : Hcmd} {t : State} (hP : Within [.sys, .hif, .dpx, .dpx2, .tly, .outbox] P) (hf0 : OpOnly P s₀ x0) (h : OnlyChanges P s₀ t) :
    OnlyChanges P s₀ (State.runPrimary x0 x1 t) := by
  unfold State.runPrimary
  repeat' (first
    | with_reducible assumption
    | with_reducible (refine complete_only (hP.step (by decide)) ?_)
    | with_reducible (refine finish_only (hP.step (by decide)) ?_)
    | with_reducible (refine enterWin_only (hP.step (by decide)) ?_)
    | with_reducible (refine runUnrecorded_only (hP.step (by decide)) ?_ ?_)
    | with_reducible (refine record_only (hP.step (by decide)) ?_ ?_)
    | with_reducible (refine updRing_only (hP.step (by decide)) ?_)
    | with_reducible (refine OnlyChanges.foldl ?_ (fun u a h => ?_))
    | with_reducible exact hf0
    | with_reducible (refine hf0.effect ?_)
    | with_reducible (refine hf0.prepare (by assumption) ?_)
    | intro _
    | (extract_lets +onlyGivenNames x; first | (refine OnlyChanges.cut x ?_ (fun h => ?_); (on_goal 2 => clear_value x); (on_goal 1 => subst x)) | (refine OnlyChanges.cut x.s ?_ (fun h => ?_); (on_goal 2 => clear_value x); (on_goal 1 => subst x)) | clear_value x)
    | split
    | intro _
    | with_reducible (refine OnlyChanges.snd ?_)
    | with_reducible (refine OnlyChanges.fst ?_)
    | with_reducible (refine OnlyChanges.hres ?_)
    | ((with_reducible (refine OnlyChanges.upd ?_ (fun p hp => ?_))); on_goal 2 => (cases p <;> first | exact rfl | exact absurd (hP _ (by decide)) hp)))

theorem recordPrepared_only {P : List Part} {s₀ : State} {x0 : HostOp} {x1 : Nat} {t : State} (hP : Within [.sys, .hif, .dpx, .dpx2, .tly, .outbox] P) (hf0 : OpOnly P s₀ x0) (h : OnlyChanges P s₀ t) :
    OnlyChanges P s₀ (State.recordPrepared x0 x1 t) := by
  unfold State.recordPrepared
  repeat' (first
    | with_reducible assumption
    | with_reducible (refine record_only (hP.step (by decide)) ?_ ?_)
    | with_reducible (refine OnlyChanges.foldl ?_ (fun u a h => ?_))
    | with_reducible exact hf0
    | with_reducible (refine hf0.effect ?_)
    | with_reducible (refine hf0.prepare (by assumption) ?_)
    | intro _
    | (extract_lets +onlyGivenNames x; first | (refine OnlyChanges.cut x ?_ (fun h => ?_); (on_goal 2 => clear_value x); (on_goal 1 => subst x)) | (refine OnlyChanges.cut x.s ?_ (fun h => ?_); (on_goal 2 => clear_value x); (on_goal 1 => subst x)) | clear_value x)
    | split
    | intro _
    | with_reducible (refine OnlyChanges.snd ?_)
    | with_reducible (refine OnlyChanges.fst ?_)
    | with_reducible (refine OnlyChanges.hres ?_)
    | ((with_reducible (refine OnlyChanges.upd ?_ (fun p hp => ?_))); on_goal 2 => (cases p <;> first | exact rfl | exact absurd (hP _ (by decide)) hp)))

theorem refuseRecorded_only {P : List Part} {s₀ : State} {x0 : HostOp} {x1 : Nat} {x2 : Word} {t : State} (hP : Within [.sys, .hif, .dpx, .dpx2, .tly, .outbox] P) (hf0 : OpOnly P s₀ x0) (h : OnlyChanges P s₀ t) :
    OnlyChanges P s₀ (State.refuseRecorded x0 x1 x2 t) := by
  unfold State.refuseRecorded
  repeat' (first
    | with_reducible assumption
    | with_reducible (refine record_only (hP.step (by decide)) ?_ ?_)
    | with_reducible (refine OnlyChanges.foldl ?_ (fun u a h => ?_))
    | with_reducible exact hf0
    | with_reducible (refine hf0.effect ?_)
    | with_reducible (refine hf0.prepare (by assumption) ?_)
    | intro _
    | (extract_lets +onlyGivenNames x; first | (refine OnlyChanges.cut x ?_ (fun h => ?_); (on_goal 2 => clear_value x); (on_goal 1 => subst x)) | (refine OnlyChanges.cut x.s ?_ (fun h => ?_); (on_goal 2 => clear_value x); (on_goal 1 => subst x)) | clear_value x)
    | split
    | intro _
    | with_reducible (refine OnlyChanges.snd ?_)
    | with_reducible (refine OnlyChanges.fst ?_)
    | with_reducible (refine OnlyChanges.hres ?_)
    | ((with_reducible (refine OnlyChanges.upd ?_ (fun p hp => ?_))); on_goal 2 => (cases p <;> first | exact rfl | exact absurd (hP _ (by decide)) hp)))

theorem refusePrepared_only {P : List Part} {s₀ : State} {x0 : Nat} {x1 : Word} {t : State} (hP : Within [.hif, .tly, .outbox] P)  (h : OnlyChanges P s₀ t) :
    OnlyChanges P s₀ (State.refusePrepared x0 x1 t) := by
  unfold State.refusePrepared
  repeat' (first
    | with_reducible assumption
    | with_reducible (refine complete_only (hP.step (by decide)) ?_)
    | with_reducible (refine OnlyChanges.foldl ?_ (fun u a h => ?_))
    | (extract_lets +onlyGivenNames x; first | (refine OnlyChanges.cut x ?_ (fun h => ?_); (on_goal 2 => clear_value x); (on_goal 1 => subst x)) | clear_value x)
    | split
    | with_reducible (refine OnlyChanges.snd ?_)
    | with_reducible (refine OnlyChanges.fst ?_)
    | with_reducible (refine OnlyChanges.hres ?_)
    | ((with_reducible (refine OnlyChanges.upd ?_ (fun p hp => ?_))); on_goal 2 => (cases p <;> first | exact rfl | exact absurd (hP _ (by decide)) hp)))

theorem runCmd_only {P : List Part} {s₀ : State} {x0 : HostOp} {x1 : Hcmd} {t : State} (hP : Within [.sys, .hif, .dpx, .dpx2, .tly, .outbox] P) (hf0 : OpOnly P s₀ x0) (h : OnlyChanges P s₀ t) :
    OnlyChanges P s₀ (State.runCmd x0 x1 t) := by
  unfold State.runCmd
  repeat' (first
    | with_reducible assumption
    | with_reducible (refine fetch_only (hP.step (by decide)) ?_)
    | with_reducible (refine dmaErr_only (hP.step (by decide)) ?_)
    | with_reducible (refine finish_only (hP.step (by decide)) ?_)
    | with_reducible (refine runPrimary_only (hP.step (by decide)) ?_ ?_)
    | with_reducible (refine runUnrecorded_only (hP.step (by decide)) ?_ ?_)
    | with_reducible (refine OnlyChanges.foldl ?_ (fun u a h => ?_))
    | with_reducible exact hf0
    | with_reducible (refine hf0.effect ?_)
    | with_reducible (refine hf0.prepare (by assumption) ?_)
    | intro _
    | (extract_lets +onlyGivenNames x; first | (refine OnlyChanges.cut x ?_ (fun h => ?_); (on_goal 2 => clear_value x); (on_goal 1 => subst x)) | (refine OnlyChanges.cut x.s ?_ (fun h => ?_); (on_goal 2 => clear_value x); (on_goal 1 => subst x)) | clear_value x)
    | split
    | intro _
    | with_reducible (refine OnlyChanges.snd ?_)
    | with_reducible (refine OnlyChanges.fst ?_)
    | with_reducible (refine OnlyChanges.hres ?_)
    | ((with_reducible (refine OnlyChanges.upd ?_ (fun p hp => ?_))); on_goal 2 => (cases p <;> first | exact rfl | exact absurd (hP _ (by decide)) hp)))

theorem finishWaiting_only {P : List Part} {s₀ : State} {x0 : Nat} {x1 : BitVec 16} {x2 : List Byte} {x3 : Word} {x4 : DWord} {t : State} (hP : Within [.hif, .tly, .outbox] P)  (h : OnlyChanges P s₀ t) :
    OnlyChanges P s₀ (State.finishWaiting x0 x1 x2 x3 x4 t) := by
  unfold State.finishWaiting
  repeat' (first
    | with_reducible assumption
    | with_reducible (refine settle_only (hP.step (by decide)) ?_)
    | with_reducible (refine OnlyChanges.foldl ?_ (fun u a h => ?_))
    | (extract_lets +onlyGivenNames x; first | (refine OnlyChanges.cut x ?_ (fun h => ?_); (on_goal 2 => clear_value x); (on_goal 1 => subst x)) | clear_value x)
    | split
    | with_reducible (refine OnlyChanges.snd ?_)
    | with_reducible (refine OnlyChanges.fst ?_)
    | with_reducible (refine OnlyChanges.hres ?_)
    | ((with_reducible (refine OnlyChanges.upd ?_ (fun p hp => ?_))); on_goal 2 => (cases p <;> first | exact rfl | exact absurd (hP _ (by decide)) hp)))

theorem finishTrans_only {P : List Part} {s₀ : State}  {t : State} (hP : Within [.sys, .hif, .cyc, .saf, .tly, .mm, .outbox] P)  (h : OnlyChanges P s₀ t) :
    OnlyChanges P s₀ (State.finishTrans t) := by
  unfold State.finishTrans
  repeat' (first
    | with_reducible assumption
    | with_reducible (refine setMode_only (hP.step (by decide)) ?_)
    | with_reducible (refine finishWaiting_only (hP.step (by decide)) ?_)
    | with_reducible (refine OnlyChanges.foldl ?_ (fun u a h => ?_))
    | (extract_lets +onlyGivenNames x; first | (refine OnlyChanges.cut x ?_ (fun h => ?_); (on_goal 2 => clear_value x); (on_goal 1 => subst x)) | clear_value x)
    | split
    | with_reducible (refine OnlyChanges.snd ?_)
    | with_reducible (refine OnlyChanges.fst ?_)
    | with_reducible (refine OnlyChanges.hres ?_)
    | ((with_reducible (refine OnlyChanges.upd ?_ (fun p hp => ?_))); on_goal 2 => (cases p <;> first | exact rfl | exact absurd (hP _ (by decide)) hp)))

theorem completePreempted_only {P : List Part} {s₀ : State}  {t : State} (hP : Within [.sys, .hif, .tly, .outbox] P)  (h : OnlyChanges P s₀ t) :
    OnlyChanges P s₀ (State.completePreempted t) := by
  unfold State.completePreempted
  repeat' (first
    | with_reducible assumption
    | with_reducible (refine finishWaiting_only (hP.step (by decide)) ?_)
    | with_reducible (refine OnlyChanges.foldl ?_ (fun u a h => ?_))
    | (extract_lets +onlyGivenNames x; first | (refine OnlyChanges.cut x ?_ (fun h => ?_); (on_goal 2 => clear_value x); (on_goal 1 => subst x)) | clear_value x)
    | split
    | with_reducible (refine OnlyChanges.snd ?_)
    | with_reducible (refine OnlyChanges.fst ?_)
    | with_reducible (refine OnlyChanges.hres ?_)
    | ((with_reducible (refine OnlyChanges.upd ?_ (fun p hp => ?_))); on_goal 2 => (cases p <;> first | exact rfl | exact absurd (hP _ (by decide)) hp)))

theorem detach_only {P : List Part} {s₀ : State} {x0 : Nat} {t : State} (hP : Within [.sys, .chg, .dpx2, .boot] P)  (h : OnlyChanges P s₀ t) :
    OnlyChanges P s₀ (State.detach x0 t) := by
  unfold State.detach
  repeat' (first
    | with_reducible assumption
    | with_reducible (refine OnlyChanges.foldl ?_ (fun u a h => ?_))
    | (extract_lets +onlyGivenNames x; first | (refine OnlyChanges.cut x ?_ (fun h => ?_); (on_goal 2 => clear_value x); (on_goal 1 => subst x)) | clear_value x)
    | split
    | with_reducible (refine OnlyChanges.snd ?_)
    | with_reducible (refine OnlyChanges.fst ?_)
    | with_reducible (refine OnlyChanges.hres ?_)
    | ((with_reducible (refine OnlyChanges.upd ?_ (fun p hp => ?_))); on_goal 2 => (cases p <;> first | exact rfl | exact absurd (hP _ (by decide)) hp)))

theorem forget_only {P : List Part} {s₀ : State} {x0 : Nat} {t : State} (hP : Within [.sys, .chg, .dpx2, .boot] P)  (h : OnlyChanges P s₀ t) :
    OnlyChanges P s₀ (State.forget x0 t) := by
  unfold State.forget
  repeat' (first
    | with_reducible assumption
    | with_reducible (refine detach_only (hP.step (by decide)) ?_)
    | with_reducible (refine OnlyChanges.foldl ?_ (fun u a h => ?_))
    | (extract_lets +onlyGivenNames x; first | (refine OnlyChanges.cut x ?_ (fun h => ?_); (on_goal 2 => clear_value x); (on_goal 1 => subst x)) | clear_value x)
    | split
    | with_reducible (refine OnlyChanges.snd ?_)
    | with_reducible (refine OnlyChanges.fst ?_)
    | with_reducible (refine OnlyChanges.hres ?_)
    | ((with_reducible (refine OnlyChanges.upd ?_ (fun p hp => ?_))); on_goal 2 => (cases p <;> first | exact rfl | exact absurd (hP _ (by decide)) hp)))

theorem abortInfl_only {P : List Part} {s₀ : State} {x0 : Nat} {t : State} (hP : Within [.sys, .hif, .chg, .dpx2, .tly, .boot, .outbox] P)  (h : OnlyChanges P s₀ t) :
    OnlyChanges P s₀ (State.abortInfl x0 t) := by
  unfold State.abortInfl
  repeat' (first
    | with_reducible assumption
    | with_reducible (refine forget_only (hP.step (by decide)) ?_)
    | with_reducible (refine finish_only (hP.step (by decide)) ?_)
    | with_reducible (refine OnlyChanges.foldl ?_ (fun u a h => ?_))
    | (extract_lets +onlyGivenNames x; first | (refine OnlyChanges.cut x ?_ (fun h => ?_); (on_goal 2 => clear_value x); (on_goal 1 => subst x)) | clear_value x)
    | split
    | with_reducible (refine OnlyChanges.snd ?_)
    | with_reducible (refine OnlyChanges.fst ?_)
    | with_reducible (refine OnlyChanges.hres ?_)
    | ((with_reducible (refine OnlyChanges.upd ?_ (fun p hp => ?_))); on_goal 2 => (cases p <;> first | exact rfl | exact absurd (hP _ (by decide)) hp)))

theorem dropInfl_only {P : List Part} {s₀ : State} {x0 : Nat} {t : State} (hP : Within [.sys, .hif, .chg, .dpx2, .boot] P)  (h : OnlyChanges P s₀ t) :
    OnlyChanges P s₀ (State.dropInfl x0 t) := by
  unfold State.dropInfl
  repeat' (first
    | with_reducible assumption
    | with_reducible (refine forget_only (hP.step (by decide)) ?_)
    | with_reducible (refine updRing_only (hP.step (by decide)) ?_)
    | with_reducible (refine OnlyChanges.foldl ?_ (fun u a h => ?_))
    | (extract_lets +onlyGivenNames x; first | (refine OnlyChanges.cut x ?_ (fun h => ?_); (on_goal 2 => clear_value x); (on_goal 1 => subst x)) | clear_value x)
    | split
    | with_reducible (refine OnlyChanges.snd ?_)
    | with_reducible (refine OnlyChanges.fst ?_)
    | with_reducible (refine OnlyChanges.hres ?_)
    | ((with_reducible (refine OnlyChanges.upd ?_ (fun p hp => ?_))); on_goal 2 => (cases p <;> first | exact rfl | exact absurd (hP _ (by decide)) hp)))

theorem dropUnrecorded_only {P : List Part} {s₀ : State}  {t : State} (hP : Within [.sys, .hif, .chg, .dpx2, .boot] P)  (h : OnlyChanges P s₀ t) :
    OnlyChanges P s₀ (State.dropUnrecorded t) := by
  unfold State.dropUnrecorded
  repeat' (first
    | with_reducible assumption
    | with_reducible (refine dropInfl_only (hP.step (by decide)) ?_)
    | with_reducible (refine OnlyChanges.foldl ?_ (fun u a h => ?_))
    | (extract_lets +onlyGivenNames x; first | (refine OnlyChanges.cut x ?_ (fun h => ?_); (on_goal 2 => clear_value x); (on_goal 1 => subst x)) | clear_value x)
    | split
    | with_reducible (refine OnlyChanges.snd ?_)
    | with_reducible (refine OnlyChanges.fst ?_)
    | with_reducible (refine OnlyChanges.hres ?_)
    | ((with_reducible (refine OnlyChanges.upd ?_ (fun p hp => ?_))); on_goal 2 => (cases p <;> first | exact rfl | exact absurd (hP _ (by decide)) hp)))

theorem deleteRings_only {P : List Part} {s₀ : State}  {t : State} (hP : Within [.sys, .hif, .chg, .dpx2, .boot] P)  (h : OnlyChanges P s₀ t) :
    OnlyChanges P s₀ (State.deleteRings t) := by
  unfold State.deleteRings
  repeat' (first
    | with_reducible assumption
    | with_reducible (refine dropUnrecorded_only (hP.step (by decide)) ?_)
    | with_reducible (refine detach_only (hP.step (by decide)) ?_)
    | with_reducible (refine OnlyChanges.foldl ?_ (fun u a h => ?_))
    | (extract_lets +onlyGivenNames x; first | (refine OnlyChanges.cut x ?_ (fun h => ?_); (on_goal 2 => clear_value x); (on_goal 1 => subst x)) | clear_value x)
    | split
    | with_reducible (refine OnlyChanges.snd ?_)
    | with_reducible (refine OnlyChanges.fst ?_)
    | with_reducible (refine OnlyChanges.hres ?_)
    | ((with_reducible (refine OnlyChanges.upd ?_ (fun p hp => ?_))); on_goal 2 => (cases p <;> first | exact rfl | exact absurd (hP _ (by decide)) hp)))

theorem serveRead_only {P : List Part} {s₀ : State} {x0 : Nat} {t : State} (hP : Within [.hif, .tly, .outbox] P)  (h : OnlyChanges P s₀ t) :
    OnlyChanges P s₀ (State.serveRead x0 t) := by
  unfold State.serveRead
  repeat' (first
    | with_reducible assumption
    | with_reducible (refine finishWaiting_only (hP.step (by decide)) ?_)
    | with_reducible (refine OnlyChanges.foldl ?_ (fun u a h => ?_))
    | (extract_lets +onlyGivenNames x; first | (refine OnlyChanges.cut x ?_ (fun h => ?_); (on_goal 2 => clear_value x); (on_goal 1 => subst x)) | clear_value x)
    | split
    | with_reducible (refine OnlyChanges.snd ?_)
    | with_reducible (refine OnlyChanges.fst ?_)
    | with_reducible (refine OnlyChanges.hres ?_)
    | ((with_reducible (refine OnlyChanges.upd ?_ (fun p hp => ?_))); on_goal 2 => (cases p <;> first | exact rfl | exact absurd (hP _ (by decide)) hp)))

theorem readsFollow_only {P : List Part} {s₀ : State} {x0 : Mode} {t : State} (hP : Within [.hif, .tly, .outbox] P)  (h : OnlyChanges P s₀ t) :
    OnlyChanges P s₀ (State.readsFollow x0 t) := by
  unfold State.readsFollow
  repeat' (first
    | with_reducible assumption
    | with_reducible (refine serveRead_only (hP.step (by decide)) ?_)
    | with_reducible (refine OnlyChanges.foldl ?_ (fun u a h => ?_))
    | (extract_lets +onlyGivenNames x; first | (refine OnlyChanges.cut x ?_ (fun h => ?_); (on_goal 2 => clear_value x); (on_goal 1 => subst x)) | clear_value x)
    | split
    | with_reducible (refine OnlyChanges.snd ?_)
    | with_reducible (refine OnlyChanges.fst ?_)
    | with_reducible (refine OnlyChanges.hres ?_)
    | ((with_reducible (refine OnlyChanges.upd ?_ (fun p hp => ?_))); on_goal 2 => (cases p <;> first | exact rfl | exact absurd (hP _ (by decide)) hp)))

theorem settleState_only {P : List Part} {s₀ : State} {b : State} {t : State} (hP : Within [.sys, .hif, .dpx, .dpx2, .can, .canq, .fio, .tly, .outbox] P)  (h : OnlyChanges P s₀ t) :
    OnlyChanges P s₀ (settleState b t) := by
  unfold settleState
  repeat' (first
    | with_reducible assumption
    | with_reducible (refine canSync_only (hP.step (by decide)) ?_)
    | with_reducible (refine fioFollow_only (hP.step (by decide)) ?_)
    | with_reducible (refine report_only (hP.step (by decide)) ?_)
    | with_reducible (refine completePreempted_only (hP.step (by decide)) ?_)
    | with_reducible (refine readsFollow_only (hP.step (by decide)) ?_)
    | with_reducible (refine OnlyChanges.foldl ?_ (fun u a h => ?_))
    | (extract_lets +onlyGivenNames x; first | (refine OnlyChanges.cut x ?_ (fun h => ?_); (on_goal 2 => clear_value x); (on_goal 1 => subst x)) | clear_value x)
    | split
    | with_reducible (refine OnlyChanges.snd ?_)
    | with_reducible (refine OnlyChanges.fst ?_)
    | with_reducible (refine OnlyChanges.hres ?_)
    | ((with_reducible (refine OnlyChanges.upd ?_ (fun p hp => ?_))); on_goal 2 => (cases p <;> first | exact rfl | exact absurd (hP _ (by decide)) hp)))

end Sys2Proof.Laws
end

