-- ==== Sys2Proof/Laws/OnlyPower.lean ====
section
/-! SUPPORT. What each operation of Power.lean may change: one frame per operation. -/

set_option linter.unusedTactic false
set_option linter.unreachableTactic false
set_option linter.unusedVariables false
set_option linter.tactic.unusedName false

namespace Sys2Proof.Laws

open Sys2Proof.Machine Sys2Proof.Safety

theorem updPwr_only {P : List Part} {s₀ : State} {x0 : Pwr → Pwr} {t : State} (hP : Within [.pwr] P)  (h : OnlyChanges P s₀ t) :
    OnlyChanges P s₀ (State.updPwr x0 t) := by
  unfold State.updPwr
  repeat' (first
    | with_reducible assumption
    | with_reducible (refine OnlyChanges.foldl ?_ (fun u a h => ?_))
    | (extract_lets +onlyGivenNames x; first | (refine OnlyChanges.cut x ?_ (fun h => ?_); (on_goal 2 => clear_value x); (on_goal 1 => subst x)) | clear_value x)
    | split
    | with_reducible (refine OnlyChanges.snd ?_)
    | with_reducible (refine OnlyChanges.fst ?_)
    | with_reducible (refine OnlyChanges.hres ?_)
    | ((with_reducible (refine OnlyChanges.upd ?_ (fun p hp => ?_))); on_goal 2 => (cases p <;> first | exact rfl | exact absurd (hP _ (by decide)) hp)))

theorem pfailOn_only {P : List Part} {s₀ : State}  {t : State} (hP : Within [.sys, .hif, .chg, .dpx2, .tly, .boot, .pwr, .outbox] P)  (h : OnlyChanges P s₀ t) :
    OnlyChanges P s₀ (State.pfailOn t) := by
  unfold State.pfailOn
  repeat' (first
    | with_reducible assumption
    | with_reducible (refine updPwr_only (hP.step (by decide)) ?_)
    | with_reducible (refine dropUnrecorded_only (hP.step (by decide)) ?_)
    | with_reducible (refine log_only (hP.step (by decide)) ?_)
    | with_reducible (refine event_only (hP.step (by decide)) ?_)
    | with_reducible (refine OnlyChanges.foldl ?_ (fun u a h => ?_))
    | (extract_lets +onlyGivenNames x; first | (refine OnlyChanges.cut x ?_ (fun h => ?_); (on_goal 2 => clear_value x); (on_goal 1 => subst x)) | clear_value x)
    | split
    | with_reducible (refine OnlyChanges.snd ?_)
    | with_reducible (refine OnlyChanges.fst ?_)
    | with_reducible (refine OnlyChanges.hres ?_)
    | ((with_reducible (refine OnlyChanges.upd ?_ (fun p hp => ?_))); on_goal 2 => (cases p <;> first | exact rfl | exact absurd (hP _ (by decide)) hp)))

theorem pfailOff_only {P : List Part} {s₀ : State} {x0 : BitVec 16} {t : State} (hP : Within [.hif, .tly, .mm, .pwr, .outbox] P)  (h : OnlyChanges P s₀ t) :
    OnlyChanges P s₀ (State.pfailOff x0 t) := by
  unfold State.pfailOff
  repeat' (first
    | with_reducible assumption
    | with_reducible (refine updPwr_only (hP.step (by decide)) ?_)
    | with_reducible (refine log_only (hP.step (by decide)) ?_)
    | with_reducible (refine event_only (hP.step (by decide)) ?_)
    | with_reducible (refine OnlyChanges.foldl ?_ (fun u a h => ?_))
    | (extract_lets +onlyGivenNames x; first | (refine OnlyChanges.cut x ?_ (fun h => ?_); (on_goal 2 => clear_value x); (on_goal 1 => subst x)) | clear_value x)
    | split
    | with_reducible (refine OnlyChanges.snd ?_)
    | with_reducible (refine OnlyChanges.fst ?_)
    | with_reducible (refine OnlyChanges.hres ?_)
    | ((with_reducible (refine OnlyChanges.upd ?_ (fun p hp => ?_))); on_goal 2 => (cases p <;> first | exact rfl | exact absurd (hP _ (by decide)) hp)))

theorem stopNow_only {P : List Part} {s₀ : State}  {t : State} (hP : Within [.sys, .hif, .cyc, .lsp, .dpx, .can, .fio, .saf, .tly, .pwr, .outbox] P)  (h : OnlyChanges P s₀ t) :
    OnlyChanges P s₀ (State.stopNow t) := by
  unfold State.stopNow
  repeat' (first
    | with_reducible assumption
    | with_reducible (refine stopModule_only (hP.step (by decide)) ?_)
    | with_reducible (refine completePreempted_only (hP.step (by decide)) ?_)
    | with_reducible (refine OnlyChanges.foldl ?_ (fun u a h => ?_))
    | (extract_lets +onlyGivenNames x; first | (refine OnlyChanges.cut x ?_ (fun h => ?_); (on_goal 2 => clear_value x); (on_goal 1 => subst x)) | clear_value x)
    | split
    | with_reducible (refine OnlyChanges.snd ?_)
    | with_reducible (refine OnlyChanges.fst ?_)
    | with_reducible (refine OnlyChanges.hres ?_)
    | ((with_reducible (refine OnlyChanges.upd ?_ (fun p hp => ?_))); on_goal 2 => (cases p <;> first | exact rfl | exact absurd (hP _ (by decide)) hp)))

theorem shutdown_only {P : List Part} {s₀ : State}  {t : State} (hP : Within [.sys, .hif, .cyc, .lsp, .cle, .chg, .dpx, .dpx2, .mir, .net, .tim, .can, .canq, .fio, .saf, .tly, .mm, .boot, .pwr, .cfg, .prog, .regs, .live, .votes, .press, .posted, .outbox] P)  (h : OnlyChanges P s₀ t) :
    OnlyChanges P s₀ (State.shutdown t) := by
  unfold State.shutdown
  repeat' (first
    | with_reducible assumption
    | with_reducible (refine notice_only (hP.step (by decide)) ?_)
    | with_reducible (refine stopNow_only (hP.step (by decide)) ?_)
    | with_reducible (refine intoRetain_only (hP.step (by decide)) ?_)
    | with_reducible (refine OnlyChanges.foldl ?_ (fun u a h => ?_))
    | (extract_lets +onlyGivenNames x; first | (refine OnlyChanges.cut x ?_ (fun h => ?_); (on_goal 2 => clear_value x); (on_goal 1 => subst x)) | clear_value x)
    | split
    | with_reducible (refine OnlyChanges.snd ?_)
    | with_reducible (refine OnlyChanges.fst ?_)
    | with_reducible (refine OnlyChanges.hres ?_)
    | ((with_reducible (refine OnlyChanges.upd ?_ (fun p hp => ?_))); on_goal 2 => (cases p <;> first | exact rfl | exact absurd (hP _ (by decide)) hp)))

theorem feedChange_only {P : List Part} {s₀ : State} {x0 : Bool} {x1 : Bool} {x2 : BitVec 16} {t : State} (hP : Within [.tly, .pwr] P)  (h : OnlyChanges P s₀ t) :
    OnlyChanges P s₀ (State.feedChange x0 x1 x2 t) := by
  unfold State.feedChange
  repeat' (first
    | with_reducible assumption
    | with_reducible (refine updPwr_only (hP.step (by decide)) ?_)
    | with_reducible (refine log_only (hP.step (by decide)) ?_)
    | with_reducible (refine OnlyChanges.foldl ?_ (fun u a h => ?_))
    | (extract_lets +onlyGivenNames x; first | (refine OnlyChanges.cut x ?_ (fun h => ?_); (on_goal 2 => clear_value x); (on_goal 1 => subst x)) | clear_value x)
    | split
    | with_reducible (refine OnlyChanges.snd ?_)
    | with_reducible (refine OnlyChanges.fst ?_)
    | with_reducible (refine OnlyChanges.hres ?_)
    | ((with_reducible (refine OnlyChanges.upd ?_ (fun p hp => ?_))); on_goal 2 => (cases p <;> first | exact rfl | exact absurd (hP _ (by decide)) hp)))

theorem lowSidesOpen_only {P : List Part} {s₀ : State}  {t : State} (hP : Within [.saf] P)  (h : OnlyChanges P s₀ t) :
    OnlyChanges P s₀ (State.lowSidesOpen t) := by
  unfold State.lowSidesOpen
  repeat' (first
    | with_reducible assumption
    | with_reducible (refine OnlyChanges.foldl ?_ (fun u a h => ?_))
    | (extract_lets +onlyGivenNames x; first | (refine OnlyChanges.cut x ?_ (fun h => ?_); (on_goal 2 => clear_value x); (on_goal 1 => subst x)) | clear_value x)
    | split
    | with_reducible (refine OnlyChanges.snd ?_)
    | with_reducible (refine OnlyChanges.fst ?_)
    | with_reducible (refine OnlyChanges.hres ?_)
    | ((with_reducible (refine OnlyChanges.upd ?_ (fun p hp => ?_))); on_goal 2 => (cases p <;> first | exact rfl | exact absurd (hP _ (by decide)) hp)))

theorem railFault_only {P : List Part} {s₀ : State} {x0 : Fin 7} {x1 : Word} {t : State} (hP : Within [.sys, .hif, .cyc, .lsp, .cle, .chg, .dpx, .dpx2, .mir, .net, .tim, .can, .canq, .fio, .saf, .tly, .mm, .boot, .pwr, .ret, .cfg, .prog, .regs, .live, .votes, .press, .posted, .outbox, .freeN] P)  (h : OnlyChanges P s₀ t) :
    OnlyChanges P s₀ (State.railFault x0 x1 t) := by
  unfold State.railFault
  repeat' (first
    | with_reducible assumption
    | with_reducible (refine updPwr_only (hP.step (by decide)) ?_)
    | with_reducible (refine log_only (hP.step (by decide)) ?_)
    | with_reducible (refine lowSidesOpen_only (hP.step (by decide)) ?_)
    | with_reducible (refine unrecoverable_only (hP.step (by decide)) ?_)
    | with_reducible (refine OnlyChanges.foldl ?_ (fun u a h => ?_))
    | (extract_lets +onlyGivenNames x; first | (refine OnlyChanges.cut x ?_ (fun h => ?_); (on_goal 2 => clear_value x); (on_goal 1 => subst x)) | clear_value x)
    | split
    | with_reducible (refine OnlyChanges.snd ?_)
    | with_reducible (refine OnlyChanges.fst ?_)
    | with_reducible (refine OnlyChanges.hres ?_)
    | ((with_reducible (refine OnlyChanges.upd ?_ (fun p hp => ?_))); on_goal 2 => (cases p <;> first | exact rfl | exact absurd (hP _ (by decide)) hp)))

theorem tempSample_only {P : List Part} {s₀ : State} {x0 : BitVec 16} {x1 : BitVec 16} {t : State} (hP : Within [.tly, .pwr] P)  (h : OnlyChanges P s₀ t) :
    OnlyChanges P s₀ (State.tempSample x0 x1 t) := by
  unfold State.tempSample
  repeat' (first
    | with_reducible assumption
    | with_reducible (refine updPwr_only (hP.step (by decide)) ?_)
    | with_reducible (refine log_only (hP.step (by decide)) ?_)
    | with_reducible (refine OnlyChanges.foldl ?_ (fun u a h => ?_))
    | (extract_lets +onlyGivenNames x; first | (refine OnlyChanges.cut x ?_ (fun h => ?_); (on_goal 2 => clear_value x); (on_goal 1 => subst x)) | clear_value x)
    | split
    | with_reducible (refine OnlyChanges.snd ?_)
    | with_reducible (refine OnlyChanges.fst ?_)
    | with_reducible (refine OnlyChanges.hres ?_)
    | ((with_reducible (refine OnlyChanges.upd ?_ (fun p hp => ?_))); on_goal 2 => (cases p <;> first | exact rfl | exact absurd (hP _ (by decide)) hp)))

theorem watchdog_only {P : List Part} {s₀ : State} {x0 : Nat} {t : State} (hP : Within [.sys, .hif, .cyc, .lsp, .cle, .chg, .dpx, .dpx2, .mir, .net, .tim, .can, .canq, .fio, .saf, .tly, .mm, .boot, .pwr, .ret, .cfg, .prog, .regs, .live, .votes, .press, .posted, .outbox, .freeN] P)  (h : OnlyChanges P s₀ t) :
    OnlyChanges P s₀ (State.watchdog x0 t) := by
  unfold State.watchdog
  repeat' (first
    | with_reducible assumption
    | with_reducible (refine log_only (hP.step (by decide)) ?_)
    | with_reducible (refine unrecoverable_only (hP.step (by decide)) ?_)
    | with_reducible (refine OnlyChanges.foldl ?_ (fun u a h => ?_))
    | (extract_lets +onlyGivenNames x; first | (refine OnlyChanges.cut x ?_ (fun h => ?_); (on_goal 2 => clear_value x); (on_goal 1 => subst x)) | clear_value x)
    | split
    | with_reducible (refine OnlyChanges.snd ?_)
    | with_reducible (refine OnlyChanges.fst ?_)
    | with_reducible (refine OnlyChanges.hres ?_)
    | ((with_reducible (refine OnlyChanges.upd ?_ (fun p hp => ?_))); on_goal 2 => (cases p <;> first | exact rfl | exact absurd (hP _ (by decide)) hp)))

theorem engineDead_only {P : List Part} {s₀ : State} {x0 : Nat} {t : State} (hP : Within [.cle, .net, .fio, .saf] P)  (h : OnlyChanges P s₀ t) :
    OnlyChanges P s₀ (State.engineDead x0 t) := by
  unfold State.engineDead
  repeat' (first
    | with_reducible assumption
    | with_reducible (refine OnlyChanges.foldl ?_ (fun u a h => ?_))
    | (extract_lets +onlyGivenNames x; first | (refine OnlyChanges.cut x ?_ (fun h => ?_); (on_goal 2 => clear_value x); (on_goal 1 => subst x)) | clear_value x)
    | split
    | with_reducible (refine OnlyChanges.snd ?_)
    | with_reducible (refine OnlyChanges.fst ?_)
    | with_reducible (refine OnlyChanges.hres ?_)
    | ((with_reducible (refine OnlyChanges.upd ?_ (fun p hp => ?_))); on_goal 2 => (cases p <;> first | exact rfl | exact absurd (hP _ (by decide)) hp)))

theorem vretSample_only {P : List Part} {s₀ : State} {x0 : BitVec 16} {t : State} (hP : Within [.tly, .pwr] P)  (h : OnlyChanges P s₀ t) :
    OnlyChanges P s₀ (State.vretSample x0 t) := by
  unfold State.vretSample
  repeat' (first
    | with_reducible assumption
    | with_reducible (refine updPwr_only (hP.step (by decide)) ?_)
    | with_reducible (refine log_only (hP.step (by decide)) ?_)
    | with_reducible (refine OnlyChanges.foldl ?_ (fun u a h => ?_))
    | (extract_lets +onlyGivenNames x; first | (refine OnlyChanges.cut x ?_ (fun h => ?_); (on_goal 2 => clear_value x); (on_goal 1 => subst x)) | clear_value x)
    | split
    | with_reducible (refine OnlyChanges.snd ?_)
    | with_reducible (refine OnlyChanges.fst ?_)
    | with_reducible (refine OnlyChanges.hres ?_)
    | ((with_reducible (refine OnlyChanges.upd ?_ (fun p hp => ?_))); on_goal 2 => (cases p <;> first | exact rfl | exact absurd (hP _ (by decide)) hp)))

theorem withdrawn_only {P : List Part} {s₀ : State}  {t : State} (hP : Within [.sys, .hif, .cyc, .lsp, .dpx, .dpx2, .can, .fio, .saf, .tly, .pwr, .ret, .outbox] P)  (h : OnlyChanges P s₀ t) :
    OnlyChanges P s₀ (State.withdrawn t) := by
  unfold State.withdrawn
  repeat' (first
    | with_reducible assumption
    | with_reducible (refine log_only (hP.step (by decide)) ?_)
    | with_reducible (refine notice_only (hP.step (by decide)) ?_)
    | with_reducible (refine stopNow_only (hP.step (by decide)) ?_)
    | with_reducible (refine OnlyChanges.foldl ?_ (fun u a h => ?_))
    | (extract_lets +onlyGivenNames x; first | (refine OnlyChanges.cut x ?_ (fun h => ?_); (on_goal 2 => clear_value x); (on_goal 1 => subst x)) | clear_value x)
    | split
    | with_reducible (refine OnlyChanges.snd ?_)
    | with_reducible (refine OnlyChanges.fst ?_)
    | with_reducible (refine OnlyChanges.hres ?_)
    | ((with_reducible (refine OnlyChanges.upd ?_ (fun p hp => ?_))); on_goal 2 => (cases p <;> first | exact rfl | exact absurd (hP _ (by decide)) hp)))

end Sys2Proof.Laws
end

