-- ==== Sys2Proof/Laws/OnlyAccess.lean ====
section
/-! SUPPORT. What each operation of Access.lean may change: one frame per operation. -/

set_option linter.unusedTactic false
set_option linter.unreachableTactic false
set_option linter.unusedVariables false
set_option linter.tactic.unusedName false

namespace Sys2Proof.Laws

open Sys2Proof.Machine Sys2Proof.Safety

theorem faultRec_only {P : List Part} {s₀ : State} {x0 : Nat} {x1 : Nat} {t : State} (hP : Within [.sys, .tly] P)  (h : OnlyChanges P s₀ t) :
    OnlyChanges P s₀ (State.faultRec x0 x1 t) := by
  unfold State.faultRec
  repeat' (first
    | with_reducible assumption
    | with_reducible (refine log_only (hP.step (by decide)) ?_)
    | with_reducible (refine OnlyChanges.foldl ?_ (fun u a h => ?_))
    | (extract_lets +onlyGivenNames x; first | (refine OnlyChanges.cut x ?_ (fun h => ?_); (on_goal 2 => clear_value x); (on_goal 1 => subst x)) | clear_value x)
    | split
    | with_reducible (refine OnlyChanges.snd ?_)
    | with_reducible (refine OnlyChanges.fst ?_)
    | with_reducible (refine OnlyChanges.hres ?_)
    | ((with_reducible (refine OnlyChanges.upd ?_ (fun p hp => ?_))); on_goal 2 => (cases p <;> first | exact rfl | exact absurd (hP _ (by decide)) hp)))

theorem accAddr_only {P : List Part} {s₀ : State} {x0 : Nat} {x1 : Bool} {t : State} (hP : Within [.sys] P)  (h : OnlyChanges P s₀ t) :
    OnlyChanges P s₀ (State.accAddr x0 x1 t) := by
  unfold State.accAddr
  repeat' (first
    | with_reducible assumption
    | with_reducible (refine OnlyChanges.foldl ?_ (fun u a h => ?_))
    | (extract_lets +onlyGivenNames x; first | (refine OnlyChanges.cut x ?_ (fun h => ?_); (on_goal 2 => clear_value x); (on_goal 1 => subst x)) | clear_value x)
    | split
    | with_reducible (refine OnlyChanges.snd ?_)
    | with_reducible (refine OnlyChanges.fst ?_)
    | with_reducible (refine OnlyChanges.hres ?_)
    | ((with_reducible (refine OnlyChanges.upd ?_ (fun p hp => ?_))); on_goal 2 => (cases p <;> first | exact rfl | exact absurd (hP _ (by decide)) hp)))

theorem partialWr_only {P : List Part} {s₀ : State} {x0 : Nat} {x1 : Bool} {t : State} (hP : Within [.sys, .tly] P)  (h : OnlyChanges P s₀ t) :
    OnlyChanges P s₀ (State.partialWr x0 x1 t) := by
  unfold State.partialWr
  repeat' (first
    | with_reducible assumption
    | with_reducible (refine accAddr_only (hP.step (by decide)) ?_)
    | with_reducible (refine faultRec_only (hP.step (by decide)) ?_)
    | with_reducible (refine OnlyChanges.foldl ?_ (fun u a h => ?_))
    | (extract_lets +onlyGivenNames x; first | (refine OnlyChanges.cut x ?_ (fun h => ?_); (on_goal 2 => clear_value x); (on_goal 1 => subst x)) | clear_value x)
    | split
    | with_reducible (refine OnlyChanges.snd ?_)
    | with_reducible (refine OnlyChanges.fst ?_)
    | with_reducible (refine OnlyChanges.hres ?_)
    | ((with_reducible (refine OnlyChanges.upd ?_ (fun p hp => ?_))); on_goal 2 => (cases p <;> first | exact rfl | exact absurd (hP _ (by decide)) hp)))

theorem unassignedWr_only {P : List Part} {s₀ : State} {x0 : Nat} {x1 : Bool} {t : State} (hP : Within [.sys, .tly] P)  (h : OnlyChanges P s₀ t) :
    OnlyChanges P s₀ (State.unassignedWr x0 x1 t) := by
  unfold State.unassignedWr
  repeat' (first
    | with_reducible assumption
    | with_reducible (refine accAddr_only (hP.step (by decide)) ?_)
    | with_reducible (refine faultRec_only (hP.step (by decide)) ?_)
    | with_reducible (refine OnlyChanges.foldl ?_ (fun u a h => ?_))
    | (extract_lets +onlyGivenNames x; first | (refine OnlyChanges.cut x ?_ (fun h => ?_); (on_goal 2 => clear_value x); (on_goal 1 => subst x)) | clear_value x)
    | split
    | with_reducible (refine OnlyChanges.snd ?_)
    | with_reducible (refine OnlyChanges.fst ?_)
    | with_reducible (refine OnlyChanges.hres ?_)
    | ((with_reducible (refine OnlyChanges.upd ?_ (fun p hp => ?_))); on_goal 2 => (cases p <;> first | exact rfl | exact absurd (hP _ (by decide)) hp)))

theorem roWr_only {P : List Part} {s₀ : State} {x0 : Nat} {t : State} (hP : Within [.sys, .tly] P)  (h : OnlyChanges P s₀ t) :
    OnlyChanges P s₀ (State.roWr x0 t) := by
  unfold State.roWr
  repeat' (first
    | with_reducible assumption
    | with_reducible (refine accAddr_only (hP.step (by decide)) ?_)
    | with_reducible (refine faultRec_only (hP.step (by decide)) ?_)
    | with_reducible (refine OnlyChanges.foldl ?_ (fun u a h => ?_))
    | (extract_lets +onlyGivenNames x; first | (refine OnlyChanges.cut x ?_ (fun h => ?_); (on_goal 2 => clear_value x); (on_goal 1 => subst x)) | clear_value x)
    | split
    | with_reducible (refine OnlyChanges.snd ?_)
    | with_reducible (refine OnlyChanges.fst ?_)
    | with_reducible (refine OnlyChanges.hres ?_)
    | ((with_reducible (refine OnlyChanges.upd ?_ (fun p hp => ?_))); on_goal 2 => (cases p <;> first | exact rfl | exact absurd (hP _ (by decide)) hp)))

theorem seqErr_only {P : List Part} {s₀ : State} {x0 : Nat} {t : State} (hP : Within [.sys, .tly] P)  (h : OnlyChanges P s₀ t) :
    OnlyChanges P s₀ (State.seqErr x0 t) := by
  unfold State.seqErr
  repeat' (first
    | with_reducible assumption
    | with_reducible (refine accAddr_only (hP.step (by decide)) ?_)
    | with_reducible (refine faultRec_only (hP.step (by decide)) ?_)
    | with_reducible (refine OnlyChanges.foldl ?_ (fun u a h => ?_))
    | (extract_lets +onlyGivenNames x; first | (refine OnlyChanges.cut x ?_ (fun h => ?_); (on_goal 2 => clear_value x); (on_goal 1 => subst x)) | clear_value x)
    | split
    | with_reducible (refine OnlyChanges.snd ?_)
    | with_reducible (refine OnlyChanges.fst ?_)
    | with_reducible (refine OnlyChanges.hres ?_)
    | ((with_reducible (refine OnlyChanges.upd ?_ (fun p hp => ?_))); on_goal 2 => (cases p <;> first | exact rfl | exact absurd (hP _ (by decide)) hp)))

theorem lostWr_only {P : List Part} {s₀ : State} {x0 : Nat} {x1 : Nat} {t : State} (hP : Within [.sys, .tly, .posted] P)  (h : OnlyChanges P s₀ t) :
    OnlyChanges P s₀ (State.lostWr x0 x1 t) := by
  unfold State.lostWr
  repeat' (first
    | with_reducible assumption
    | with_reducible (refine accAddr_only (hP.step (by decide)) ?_)
    | with_reducible (refine faultRec_only (hP.step (by decide)) ?_)
    | with_reducible (refine OnlyChanges.foldl ?_ (fun u a h => ?_))
    | (extract_lets +onlyGivenNames x; first | (refine OnlyChanges.cut x ?_ (fun h => ?_); (on_goal 2 => clear_value x); (on_goal 1 => subst x)) | clear_value x)
    | split
    | with_reducible (refine OnlyChanges.snd ?_)
    | with_reducible (refine OnlyChanges.fst ?_)
    | with_reducible (refine OnlyChanges.hres ?_)
    | ((with_reducible (refine OnlyChanges.upd ?_ (fun p hp => ?_))); on_goal 2 => (cases p <;> first | exact rfl | exact absurd (hP _ (by decide)) hp)))

theorem postTo_only {P : List Part} {s₀ : State} {x0 : Nat} {x1 : Nat} {x2 : Word} {x3 : Option Int} {t : State} (hP : Within [.sys, .tly, .posted] P)  (h : OnlyChanges P s₀ t) :
    OnlyChanges P s₀ (State.postTo x0 x1 x2 x3 t) := by
  unfold State.postTo
  repeat' (first
    | with_reducible assumption
    | with_reducible (refine lostWr_only (hP.step (by decide)) ?_)
    | with_reducible (refine OnlyChanges.foldl ?_ (fun u a h => ?_))
    | (extract_lets +onlyGivenNames x; first | (refine OnlyChanges.cut x ?_ (fun h => ?_); (on_goal 2 => clear_value x); (on_goal 1 => subst x)) | clear_value x)
    | split
    | with_reducible (refine OnlyChanges.snd ?_)
    | with_reducible (refine OnlyChanges.fst ?_)
    | with_reducible (refine OnlyChanges.hres ?_)
    | ((with_reducible (refine OnlyChanges.upd ?_ (fun p hp => ?_))); on_goal 2 => (cases p <;> first | exact rfl | exact absurd (hP _ (by decide)) hp)))

end Sys2Proof.Laws
end

