-- ==== Sys2Proof/Laws/OnlyHif.lean ====
section
/-! SUPPORT. What each operation of Hif.lean may change: one frame per operation. -/

set_option linter.unusedTactic false
set_option linter.unreachableTactic false
set_option linter.unusedVariables false
set_option linter.tactic.unusedName false

namespace Sys2Proof.Laws

open Sys2Proof.Machine Sys2Proof.Safety

theorem pcieReset_only {P : List Part} {s₀ : State}  {t : State} (hP : Within [.sys, .hif, .chg, .dpx2, .boot, .regs, .live, .press] P)  (h : OnlyChanges P s₀ t) :
    OnlyChanges P s₀ (State.pcieReset t) := by
  unfold State.pcieReset
  repeat' (first
    | with_reducible assumption
    | with_reducible (refine deleteRings_only (hP.step (by decide)) ?_)
    | with_reducible (refine OnlyChanges.foldl ?_ (fun u a h => ?_))
    | (extract_lets +onlyGivenNames x; first | (refine OnlyChanges.cut x ?_ (fun h => ?_); (on_goal 2 => clear_value x); (on_goal 1 => subst x)) | clear_value x)
    | split
    | with_reducible (refine OnlyChanges.snd ?_)
    | with_reducible (refine OnlyChanges.fst ?_)
    | with_reducible (refine OnlyChanges.hres ?_)
    | ((with_reducible (refine OnlyChanges.upd ?_ (fun p hp => ?_))); on_goal 2 => (cases p <;> first | exact rfl | exact absurd (hP _ (by decide)) hp)))

theorem haltDoorbell_only {P : List Part} {s₀ : State} {x0 : Nat} {x1 : Nat} {x2 : Nat} {t : State} (hP : Within [.sys, .hif, .chg, .dpx2, .tly, .boot, .outbox] P)  (h : OnlyChanges P s₀ t) :
    OnlyChanges P s₀ (State.haltDoorbell x0 x1 x2 t) := by
  unfold State.haltDoorbell
  repeat' (first
    | with_reducible assumption
    | with_reducible (refine abortInfl_only (hP.step (by decide)) ?_)
    | with_reducible (refine haltRing_only (hP.step (by decide)) ?_)
    | with_reducible (refine OnlyChanges.foldl ?_ (fun u a h => ?_))
    | (extract_lets +onlyGivenNames x; first | (refine OnlyChanges.cut x ?_ (fun h => ?_); (on_goal 2 => clear_value x); (on_goal 1 => subst x)) | clear_value x)
    | split
    | with_reducible (refine OnlyChanges.snd ?_)
    | with_reducible (refine OnlyChanges.fst ?_)
    | with_reducible (refine OnlyChanges.hres ?_)
    | ((with_reducible (refine OnlyChanges.upd ?_ (fun p hp => ?_))); on_goal 2 => (cases p <;> first | exact rfl | exact absurd (hP _ (by decide)) hp)))

theorem sqDoorbell_only {P : List Part} {s₀ : State} {x0 : Nat} {x1 : Word} {t : State} (hP : Within [.sys, .hif, .chg, .dpx2, .tly, .boot, .outbox] P)  (h : OnlyChanges P s₀ t) :
    OnlyChanges P s₀ (State.sqDoorbell x0 x1 t) := by
  unfold State.sqDoorbell
  repeat' (first
    | with_reducible assumption
    | with_reducible (refine updRing_only (hP.step (by decide)) ?_)
    | with_reducible (refine haltDoorbell_only (hP.step (by decide)) ?_)
    | with_reducible (refine OnlyChanges.foldl ?_ (fun u a h => ?_))
    | (extract_lets +onlyGivenNames x; first | (refine OnlyChanges.cut x ?_ (fun h => ?_); (on_goal 2 => clear_value x); (on_goal 1 => subst x)) | clear_value x)
    | split
    | with_reducible (refine OnlyChanges.snd ?_)
    | with_reducible (refine OnlyChanges.fst ?_)
    | with_reducible (refine OnlyChanges.hres ?_)
    | ((with_reducible (refine OnlyChanges.upd ?_ (fun p hp => ?_))); on_goal 2 => (cases p <;> first | exact rfl | exact absurd (hP _ (by decide)) hp)))

theorem cqDoorbell_only {P : List Part} {s₀ : State} {x0 : Nat} {x1 : Word} {t : State} (hP : Within [.sys, .hif, .chg, .dpx2, .tly, .boot, .outbox] P)  (h : OnlyChanges P s₀ t) :
    OnlyChanges P s₀ (State.cqDoorbell x0 x1 t) := by
  unfold State.cqDoorbell
  repeat' (first
    | with_reducible assumption
    | with_reducible (refine updRing_only (hP.step (by decide)) ?_)
    | with_reducible (refine haltDoorbell_only (hP.step (by decide)) ?_)
    | with_reducible (refine OnlyChanges.foldl ?_ (fun u a h => ?_))
    | (extract_lets +onlyGivenNames x; first | (refine OnlyChanges.cut x ?_ (fun h => ?_); (on_goal 2 => clear_value x); (on_goal 1 => subst x)) | clear_value x)
    | split
    | with_reducible (refine OnlyChanges.snd ?_)
    | with_reducible (refine OnlyChanges.fst ?_)
    | with_reducible (refine OnlyChanges.hres ?_)
    | ((with_reducible (refine OnlyChanges.upd ?_ (fun p hp => ?_))); on_goal 2 => (cases p <;> first | exact rfl | exact absurd (hP _ (by decide)) hp)))

theorem evDoorbell_only {P : List Part} {s₀ : State} {x0 : Word} {t : State} (hP : Within [.hif, .tly, .outbox] P)  (h : OnlyChanges P s₀ t) :
    OnlyChanges P s₀ (State.evDoorbell x0 t) := by
  unfold State.evDoorbell
  repeat' (first
    | with_reducible assumption
    | with_reducible (refine haltRing_only (hP.step (by decide)) ?_)
    | with_reducible (refine OnlyChanges.foldl ?_ (fun u a h => ?_))
    | (extract_lets +onlyGivenNames x; first | (refine OnlyChanges.cut x ?_ (fun h => ?_); (on_goal 2 => clear_value x); (on_goal 1 => subst x)) | clear_value x)
    | split
    | with_reducible (refine OnlyChanges.snd ?_)
    | with_reducible (refine OnlyChanges.fst ?_)
    | with_reducible (refine OnlyChanges.hres ?_)
    | ((with_reducible (refine OnlyChanges.upd ?_ (fun p hp => ?_))); on_goal 2 => (cases p <;> first | exact rfl | exact absurd (hP _ (by decide)) hp)))

theorem doorbell_only {P : List Part} {s₀ : State} {x0 : Nat} {x1 : Nat} {x2 : Word} {t : State} (hP : Within [.sys, .hif, .chg, .dpx2, .tly, .boot, .outbox] P)  (h : OnlyChanges P s₀ t) :
    OnlyChanges P s₀ (State.doorbell x0 x1 x2 t) := by
  unfold State.doorbell
  repeat' (first
    | with_reducible assumption
    | with_reducible (refine unassignedWr_only (hP.step (by decide)) ?_)
    | with_reducible (refine sqDoorbell_only (hP.step (by decide)) ?_)
    | with_reducible (refine evDoorbell_only (hP.step (by decide)) ?_)
    | with_reducible (refine cqDoorbell_only (hP.step (by decide)) ?_)
    | with_reducible (refine OnlyChanges.foldl ?_ (fun u a h => ?_))
    | (extract_lets +onlyGivenNames x; first | (refine OnlyChanges.cut x ?_ (fun h => ?_); (on_goal 2 => clear_value x); (on_goal 1 => subst x)) | clear_value x)
    | split
    | with_reducible (refine OnlyChanges.snd ?_)
    | with_reducible (refine OnlyChanges.fst ?_)
    | with_reducible (refine OnlyChanges.hres ?_)
    | ((with_reducible (refine OnlyChanges.upd ?_ (fun p hp => ?_))); on_goal 2 => (cases p <;> first | exact rfl | exact absurd (hP _ (by decide)) hp)))

theorem sendUnasked_only {P : List Part} {s₀ : State} {x0 : List Byte} {t : State} (hP : Within [.dpx2, .outbox] P)  (h : OnlyChanges P s₀ t) :
    OnlyChanges P s₀ (State.sendUnasked x0 t) := by
  unfold State.sendUnasked
  repeat' (first
    | with_reducible assumption
    | with_reducible (refine sendHostwork_only (hP.step (by decide)) ?_)
    | with_reducible (refine OnlyChanges.foldl ?_ (fun u a h => ?_))
    | (extract_lets +onlyGivenNames x; first | (refine OnlyChanges.cut x ?_ (fun h => ?_); (on_goal 2 => clear_value x); (on_goal 1 => subst x)) | clear_value x)
    | split
    | with_reducible (refine OnlyChanges.snd ?_)
    | with_reducible (refine OnlyChanges.fst ?_)
    | with_reducible (refine OnlyChanges.hres ?_)
    | ((with_reducible (refine OnlyChanges.upd ?_ (fun p hp => ?_))); on_goal 2 => (cases p <;> first | exact rfl | exact absurd (hP _ (by decide)) hp)))

theorem flushWins_only {P : List Part} {s₀ : State}  {t : State} (hP : Within [.hif, .dpx2, .outbox] P)  (h : OnlyChanges P s₀ t) :
    OnlyChanges P s₀ (State.flushWins t) := by
  unfold State.flushWins
  repeat' (first
    | with_reducible assumption
    | with_reducible (refine sendUnasked_only (hP.step (by decide)) ?_)
    | with_reducible (refine OnlyChanges.foldl ?_ (fun u a h => ?_))
    | (extract_lets +onlyGivenNames x; first | (refine OnlyChanges.cut x ?_ (fun h => ?_); (on_goal 2 => clear_value x); (on_goal 1 => subst x)) | clear_value x)
    | split
    | with_reducible (refine OnlyChanges.snd ?_)
    | with_reducible (refine OnlyChanges.fst ?_)
    | with_reducible (refine OnlyChanges.hres ?_)
    | ((with_reducible (refine OnlyChanges.upd ?_ (fun p hp => ?_))); on_goal 2 => (cases p <;> first | exact rfl | exact absurd (hP _ (by decide)) hp)))

end Sys2Proof.Laws
end

