-- ==== Sys2Proof/Laws/OnlyStations.lean ====
section
/-! SUPPORT. What each operation of Stations.lean may change: one frame per operation. -/

set_option linter.unusedTactic false
set_option linter.unreachableTactic false
set_option linter.unusedVariables false
set_option linter.tactic.unusedName false

namespace Sys2Proof.Laws

open Sys2Proof.Machine Sys2Proof.Safety

theorem updRingN_only {P : List Part} {s₀ : State} {x0 : Nat} {x1 : NRing → NRing} {t : State} (hP : Within [.net] P)  (h : OnlyChanges P s₀ t) :
    OnlyChanges P s₀ (State.updRingN x0 x1 t) := by
  unfold State.updRingN
  repeat' (first
    | with_reducible assumption
    | with_reducible (refine OnlyChanges.foldl ?_ (fun u a h => ?_))
    | (extract_lets +onlyGivenNames x; first | (refine OnlyChanges.cut x ?_ (fun h => ?_); (on_goal 2 => clear_value x); (on_goal 1 => subst x)) | clear_value x)
    | split
    | with_reducible (refine OnlyChanges.snd ?_)
    | with_reducible (refine OnlyChanges.fst ?_)
    | with_reducible (refine OnlyChanges.hres ?_)
    | ((with_reducible (refine OnlyChanges.upd ?_ (fun p hp => ?_))); on_goal 2 => (cases p <;> first | exact rfl | exact absurd (hP _ (by decide)) hp)))

theorem discFrame_only {P : List Part} {s₀ : State} {x0 : Nat} {t : State} (hP : Within [.net] P)  (h : OnlyChanges P s₀ t) :
    OnlyChanges P s₀ (State.discFrame x0 t) := by
  unfold State.discFrame
  repeat' (first
    | with_reducible assumption
    | with_reducible (refine updRingN_only (hP.step (by decide)) ?_)
    | with_reducible (refine OnlyChanges.foldl ?_ (fun u a h => ?_))
    | (extract_lets +onlyGivenNames x; first | (refine OnlyChanges.cut x ?_ (fun h => ?_); (on_goal 2 => clear_value x); (on_goal 1 => subst x)) | clear_value x)
    | split
    | with_reducible (refine OnlyChanges.snd ?_)
    | with_reducible (refine OnlyChanges.fst ?_)
    | with_reducible (refine OnlyChanges.hres ?_)
    | ((with_reducible (refine OnlyChanges.upd ?_ (fun p hp => ?_))); on_goal 2 => (cases p <;> first | exact rfl | exact absurd (hP _ (by decide)) hp)))

theorem fcsBad_only {P : List Part} {s₀ : State} {x0 : Nat} {t : State} (hP : Within [.net] P)  (h : OnlyChanges P s₀ t) :
    OnlyChanges P s₀ (State.fcsBad x0 t) := by
  unfold State.fcsBad
  repeat' (first
    | with_reducible assumption
    | with_reducible (refine OnlyChanges.foldl ?_ (fun u a h => ?_))
    | (extract_lets +onlyGivenNames x; first | (refine OnlyChanges.cut x ?_ (fun h => ?_); (on_goal 2 => clear_value x); (on_goal 1 => subst x)) | clear_value x)
    | split
    | with_reducible (refine OnlyChanges.snd ?_)
    | with_reducible (refine OnlyChanges.fst ?_)
    | with_reducible (refine OnlyChanges.hres ?_)
    | ((with_reducible (refine OnlyChanges.upd ?_ (fun p hp => ?_))); on_goal 2 => (cases p <;> first | exact rfl | exact absurd (hP _ (by decide)) hp)))

theorem singleFrame_only {P : List Part} {s₀ : State} {x0 : Nat} {x1 : Option Nat} {t : State} (hP : Within [.net] P)  (h : OnlyChanges P s₀ t) :
    OnlyChanges P s₀ (State.singleFrame x0 x1 t) := by
  unfold State.singleFrame
  repeat' (first
    | with_reducible assumption
    | with_reducible (refine updRingN_only (hP.step (by decide)) ?_)
    | with_reducible (refine updStn_only (hP.step (by decide)) ?_)
    | with_reducible (refine OnlyChanges.foldl ?_ (fun u a h => ?_))
    | (extract_lets +onlyGivenNames x; first | (refine OnlyChanges.cut x ?_ (fun h => ?_); (on_goal 2 => clear_value x); (on_goal 1 => subst x)) | clear_value x)
    | split
    | with_reducible (refine OnlyChanges.snd ?_)
    | with_reducible (refine OnlyChanges.fst ?_)
    | with_reducible (refine OnlyChanges.hres ?_)
    | ((with_reducible (refine OnlyChanges.upd ?_ (fun p hp => ?_))); on_goal 2 => (cases p <;> first | exact rfl | exact absurd (hP _ (by decide)) hp)))

theorem eliminate_only {P : List Part} {s₀ : State} {x0 : Kcp} {x1 : Option Nat} {t : State} (hP : Within [.net] P)  (h : OnlyChanges P s₀ t) :
    OnlyChanges P s₀ ((State.eliminate x0 x1 t).2) := by
  unfold State.eliminate
  repeat' (first
    | with_reducible assumption
    | with_reducible (refine singleFrame_only (hP.step (by decide)) ?_)
    | with_reducible (refine updRingN_only (hP.step (by decide)) ?_)
    | with_reducible (refine OnlyChanges.foldl ?_ (fun u a h => ?_))
    | (extract_lets +onlyGivenNames x; first | (refine OnlyChanges.cut x ?_ (fun h => ?_); (on_goal 2 => clear_value x); (on_goal 1 => subst x)) | clear_value x)
    | split
    | with_reducible (refine OnlyChanges.snd ?_)
    | with_reducible (refine OnlyChanges.fst ?_)
    | with_reducible (refine OnlyChanges.hres ?_)
    | ((with_reducible (refine OnlyChanges.upd ?_ (fun p hp => ?_))); on_goal 2 => (cases p <;> first | exact rfl | exact absurd (hP _ (by decide)) hp)))

theorem receive_only {P : List Part} {s₀ : State} {x0 : BitVec 4} {x1 : Option Nat} {x2 : State → State} {x3 : Kcp} {t : State} (hP : Within [.net] P) (hf2 : ∀ u, OnlyChanges P s₀ u → OnlyChanges P s₀ (x2 u)) (h : OnlyChanges P s₀ t) :
    OnlyChanges P s₀ (State.receive x0 x1 x2 x3 t) := by
  unfold State.receive
  extract_lets g
  split
  · exact h
  split
  · exact fcsBad_only (hP.step (by decide)) h
  split
  · exact discFrame_only (hP.step (by decide)) h
  have k : OnlyChanges P s₀ (State.eliminate g x1 t).2 := eliminate_only (hP.step (by decide)) h
  show OnlyChanges P s₀ (if (State.eliminate g x1 t).1 then x2 (State.eliminate g x1 t).2 else (State.eliminate g x1 t).2)
  split
  · exact hf2 _ k
  · exact k

theorem meetEpoch_only {P : List Part} {s₀ : State} {x0 : Nat} {x1 : Word} {t : State} (hP : Within [.sys, .hif, .cyc, .lsp, .cle, .chg, .dpx, .dpx2, .mir, .saf, .tly, .mm, .boot, .outbox] P)  (h : OnlyChanges P s₀ t) :
    OnlyChanges P s₀ (State.meetEpoch x0 x1 t) := by
  unfold State.meetEpoch
  repeat' (first
    | with_reducible assumption
    | with_reducible (refine seeEpoch_only (hP.step (by decide)) ?_)
    | with_reducible (refine stepDown_only (hP.step (by decide)) ?_)
    | with_reducible (refine OnlyChanges.foldl ?_ (fun u a h => ?_))
    | (extract_lets +onlyGivenNames x; first | (refine OnlyChanges.cut x ?_ (fun h => ?_); (on_goal 2 => clear_value x); (on_goal 1 => subst x)) | clear_value x)
    | split
    | with_reducible (refine OnlyChanges.snd ?_)
    | with_reducible (refine OnlyChanges.fst ?_)
    | with_reducible (refine OnlyChanges.hres ?_)
    | ((with_reducible (refine OnlyChanges.upd ?_ (fun p hp => ?_))); on_goal 2 => (cases p <;> first | exact rfl | exact absurd (hP _ (by decide)) hp)))

theorem parameterise_only {P : List Part} {s₀ : State} {x0 : Nat} {t : State} (hP : Within [.net, .tly, .outbox] P)  (h : OnlyChanges P s₀ t) :
    OnlyChanges P s₀ (State.parameterise x0 t) := by
  unfold State.parameterise
  repeat' (first
    | with_reducible assumption
    | with_reducible (refine newBlock_only (hP.step (by decide)) ?_)
    | with_reducible (refine OnlyChanges.foldl ?_ (fun u a h => ?_))
    | (extract_lets +onlyGivenNames x; first | (refine OnlyChanges.cut x ?_ (fun h => ?_); (on_goal 2 => clear_value x); (on_goal 1 => subst x)) | clear_value x)
    | split
    | with_reducible (refine OnlyChanges.snd ?_)
    | with_reducible (refine OnlyChanges.fst ?_)
    | with_reducible (refine OnlyChanges.hres ?_)
    | ((with_reducible (refine OnlyChanges.upd ?_ (fun p hp => ?_))); on_goal 2 => (cases p <;> first | exact rfl | exact absurd (hP _ (by decide)) hp)))

theorem restarted_only {P : List Part} {s₀ : State} {x0 : Nat} {x1 : Byte} {t : State} (hP : Within [.net, .tly, .outbox] P)  (h : OnlyChanges P s₀ t) :
    OnlyChanges P s₀ (State.restarted x0 x1 t) := by
  unfold State.restarted
  repeat' (first
    | with_reducible assumption
    | with_reducible (refine parameterise_only (hP.step (by decide)) ?_)
    | with_reducible (refine OnlyChanges.foldl ?_ (fun u a h => ?_))
    | (extract_lets +onlyGivenNames x; first | (refine OnlyChanges.cut x ?_ (fun h => ?_); (on_goal 2 => clear_value x); (on_goal 1 => subst x)) | clear_value x)
    | split
    | with_reducible (refine OnlyChanges.snd ?_)
    | with_reducible (refine OnlyChanges.fst ?_)
    | with_reducible (refine OnlyChanges.hres ?_)
    | ((with_reducible (refine OnlyChanges.upd ?_ (fun p hp => ?_))); on_goal 2 => (cases p <;> first | exact rfl | exact absurd (hP _ (by decide)) hp)))

theorem lateInput_only {P : List Part} {s₀ : State} {x0 : Kcp} {x1 : Nat} {t : State} (hP : Within [.net] P)  (h : OnlyChanges P s₀ t) :
    OnlyChanges P s₀ (State.lateInput x0 x1 t) := by
  unfold State.lateInput
  repeat' (first
    | with_reducible assumption
    | with_reducible (refine updRingN_only (hP.step (by decide)) ?_)
    | with_reducible (refine OnlyChanges.foldl ?_ (fun u a h => ?_))
    | (extract_lets +onlyGivenNames x; first | (refine OnlyChanges.cut x ?_ (fun h => ?_); (on_goal 2 => clear_value x); (on_goal 1 => subst x)) | clear_value x)
    | split
    | with_reducible (refine OnlyChanges.snd ?_)
    | with_reducible (refine OnlyChanges.fst ?_)
    | with_reducible (refine OnlyChanges.hres ?_)
    | ((with_reducible (refine OnlyChanges.upd ?_ (fun p hp => ?_))); on_goal 2 => (cases p <;> first | exact rfl | exact absurd (hP _ (by decide)) hp)))

theorem step8Done_only {P : List Part} {s₀ : State} {x0 : State → State} {t : State} (hP : Within [.sys, .hif, .cyc, .cle, .dpx, .net, .saf, .tly, .mm, .boot, .outbox] P) (hf0 : ∀ u, OnlyChanges P s₀ u → OnlyChanges P s₀ (x0 u)) (h : OnlyChanges P s₀ t) :
    OnlyChanges P s₀ (State.step8Done x0 t) := by
  unfold State.step8Done
  repeat' (first
    | with_reducible assumption
    | with_reducible (refine replayOnce_only (hP.step (by decide)) ?_ ?_)
    | with_reducible (refine enterStart_only (hP.step (by decide)) ?_)
    | with_reducible (refine OnlyChanges.foldl ?_ (fun u a h => ?_))
    | with_reducible (apply hf0)
    | intro _
    | (extract_lets +onlyGivenNames x; first | (refine OnlyChanges.cut x ?_ (fun h => ?_); (on_goal 2 => clear_value x); (on_goal 1 => subst x)) | clear_value x)
    | split
    | intro _
    | with_reducible (refine OnlyChanges.snd ?_)
    | with_reducible (refine OnlyChanges.fst ?_)
    | with_reducible (refine OnlyChanges.hres ?_)
    | ((with_reducible (refine OnlyChanges.upd ?_ (fun p hp => ?_))); on_goal 2 => (cases p <;> first | exact rfl | exact absurd (hP _ (by decide)) hp)))

theorem takeInput_only {P : List Part} {s₀ : State} {x0 : State → State} {x1 : Nat} {x2 : Kcp} {t : State} (hP : Within [.sys, .hif, .cyc, .lsp, .cle, .chg, .dpx, .dpx2, .mir, .net, .saf, .tly, .mm, .boot, .outbox] P) (hf0 : ∀ u, OnlyChanges P s₀ u → OnlyChanges P s₀ (x0 u)) (h : OnlyChanges P s₀ t) :
    OnlyChanges P s₀ (State.takeInput x0 x1 x2 t) := by
  unfold State.takeInput
  repeat' (first
    | with_reducible assumption
    | with_reducible (refine meetEpoch_only (hP.step (by decide)) ?_)
    | with_reducible (refine lateInput_only (hP.step (by decide)) ?_)
    | with_reducible (refine updStn_only (hP.step (by decide)) ?_)
    | with_reducible (refine restarted_only (hP.step (by decide)) ?_)
    | with_reducible (refine step8Done_only (hP.step (by decide)) ?_ ?_)
    | with_reducible (refine OnlyChanges.foldl ?_ (fun u a h => ?_))
    | with_reducible (apply hf0)
    | intro _
    | (extract_lets +onlyGivenNames x; first | (refine OnlyChanges.cut x ?_ (fun h => ?_); (on_goal 2 => clear_value x); (on_goal 1 => subst x)) | clear_value x)
    | split
    | intro _
    | with_reducible (refine OnlyChanges.snd ?_)
    | with_reducible (refine OnlyChanges.fst ?_)
    | with_reducible (refine OnlyChanges.hres ?_)
    | ((with_reducible (refine OnlyChanges.upd ?_ (fun p hp => ?_))); on_goal 2 => (cases p <;> first | exact rfl | exact absurd (hP _ (by decide)) hp)))

theorem takeParamAck_only {P : List Part} {s₀ : State} {x0 : Nat} {x1 : Kcp} {t : State} (hP : Within [.sys, .hif, .cyc, .lsp, .cle, .chg, .dpx, .dpx2, .mir, .net, .saf, .tly, .mm, .boot, .outbox] P)  (h : OnlyChanges P s₀ t) :
    OnlyChanges P s₀ (State.takeParamAck x0 x1 t) := by
  unfold State.takeParamAck
  repeat' (first
    | with_reducible assumption
    | with_reducible (refine meetEpoch_only (hP.step (by decide)) ?_)
    | with_reducible (refine updStn_only (hP.step (by decide)) ?_)
    | with_reducible (refine refuseStn_only (hP.step (by decide)) ?_)
    | with_reducible (refine OnlyChanges.foldl ?_ (fun u a h => ?_))
    | (extract_lets +onlyGivenNames x; first | (refine OnlyChanges.cut x ?_ (fun h => ?_); (on_goal 2 => clear_value x); (on_goal 1 => subst x)) | clear_value x)
    | split
    | with_reducible (refine OnlyChanges.snd ?_)
    | with_reducible (refine OnlyChanges.fst ?_)
    | with_reducible (refine OnlyChanges.hres ?_)
    | ((with_reducible (refine OnlyChanges.upd ?_ (fun p hp => ?_))); on_goal 2 => (cases p <;> first | exact rfl | exact absurd (hP _ (by decide)) hp)))

theorem setIn_only {P : List Part} {s₀ : State} {x0 : Nat} {x1 : Nat} {x2 : List Byte} {t : State} (hP : Within [.cyc] P)  (h : OnlyChanges P s₀ t) :
    OnlyChanges P s₀ (State.setIn x0 x1 x2 t) := by
  unfold State.setIn
  repeat' (first
    | with_reducible assumption
    | with_reducible (refine updMem_only (hP.step (by decide)) ?_)
    | with_reducible (refine OnlyChanges.foldl ?_ (fun u a h => ?_))
    | (extract_lets +onlyGivenNames x; first | (refine OnlyChanges.cut x ?_ (fun h => ?_); (on_goal 2 => clear_value x); (on_goal 1 => subst x)) | clear_value x)
    | split
    | with_reducible (refine OnlyChanges.snd ?_)
    | with_reducible (refine OnlyChanges.fst ?_)
    | with_reducible (refine OnlyChanges.hres ?_)
    | ((with_reducible (refine OnlyChanges.upd ?_ (fun p hp => ?_))); on_goal 2 => (cases p <;> first | exact rfl | exact absurd (hP _ (by decide)) hp)))

theorem setWord_only {P : List Part} {s₀ : State} {x0 : Nat} {x1 : Nat} {x2 : Nat} {x3 : Word} {t : State} (hP : Within [.cyc] P)  (h : OnlyChanges P s₀ t) :
    OnlyChanges P s₀ (State.setWord x0 x1 x2 x3 t) := by
  unfold State.setWord
  repeat' (first
    | with_reducible assumption
    | with_reducible (refine updMem_only (hP.step (by decide)) ?_)
    | with_reducible (refine OnlyChanges.foldl ?_ (fun u a h => ?_))
    | (extract_lets +onlyGivenNames x; first | (refine OnlyChanges.cut x ?_ (fun h => ?_); (on_goal 2 => clear_value x); (on_goal 1 => subst x)) | clear_value x)
    | split
    | with_reducible (refine OnlyChanges.snd ?_)
    | with_reducible (refine OnlyChanges.fst ?_)
    | with_reducible (refine OnlyChanges.hres ?_)
    | ((with_reducible (refine OnlyChanges.upd ?_ (fun p hp => ?_))); on_goal 2 => (cases p <;> first | exact rfl | exact absurd (hP _ (by decide)) hp)))

theorem substStn_only {P : List Part} {s₀ : State} {x0 : Nat} {x1 : Nat} {t : State} (hP : Within [.cyc] P)  (h : OnlyChanges P s₀ t) :
    OnlyChanges P s₀ (State.substStn x0 x1 t) := by
  unfold State.substStn
  repeat' (first
    | with_reducible assumption
    | with_reducible (refine setIn_only (hP.step (by decide)) ?_)
    | with_reducible (refine OnlyChanges.foldl ?_ (fun u a h => ?_))
    | (extract_lets +onlyGivenNames x; first | (refine OnlyChanges.cut x ?_ (fun h => ?_); (on_goal 2 => clear_value x); (on_goal 1 => subst x)) | clear_value x)
    | split
    | with_reducible (refine OnlyChanges.snd ?_)
    | with_reducible (refine OnlyChanges.fst ?_)
    | with_reducible (refine OnlyChanges.hres ?_)
    | ((with_reducible (refine OnlyChanges.upd ?_ (fun p hp => ?_))); on_goal 2 => (cases p <;> first | exact rfl | exact absurd (hP _ (by decide)) hp)))

theorem failStn_only {P : List Part} {s₀ : State} {x0 : Nat} {x1 : Nat} {x2 : DWord} {t : State} (hP : Within [.cyc, .net, .tly] P)  (h : OnlyChanges P s₀ t) :
    OnlyChanges P s₀ (State.failStn x0 x1 x2 t) := by
  unfold State.failStn
  repeat' (first
    | with_reducible assumption
    | with_reducible (refine updStn_only (hP.step (by decide)) ?_)
    | with_reducible (refine substStn_only (hP.step (by decide)) ?_)
    | with_reducible (refine setWord_only (hP.step (by decide)) ?_)
    | with_reducible (refine log_only (hP.step (by decide)) ?_)
    | with_reducible (refine updCls_only (hP.step (by decide)) ?_)
    | with_reducible (refine OnlyChanges.foldl ?_ (fun u a h => ?_))
    | (extract_lets +onlyGivenNames x; first | (refine OnlyChanges.cut x ?_ (fun h => ?_); (on_goal 2 => clear_value x); (on_goal 1 => subst x)) | clear_value x)
    | split
    | with_reducible (refine OnlyChanges.snd ?_)
    | with_reducible (refine OnlyChanges.fst ?_)
    | with_reducible (refine OnlyChanges.hres ?_)
    | ((with_reducible (refine OnlyChanges.upd ?_ (fun p hp => ?_))); on_goal 2 => (cases p <;> first | exact rfl | exact absurd (hP _ (by decide)) hp)))

theorem rejoinStn_only {P : List Part} {s₀ : State} {x0 : Nat} {x1 : Nat} {t : State} (hP : Within [.cyc, .net] P)  (h : OnlyChanges P s₀ t) :
    OnlyChanges P s₀ (State.rejoinStn x0 x1 t) := by
  unfold State.rejoinStn
  repeat' (first
    | with_reducible assumption
    | with_reducible (refine updStn_only (hP.step (by decide)) ?_)
    | with_reducible (refine setIn_only (hP.step (by decide)) ?_)
    | with_reducible (refine setWord_only (hP.step (by decide)) ?_)
    | with_reducible (refine updCls_only (hP.step (by decide)) ?_)
    | with_reducible (refine OnlyChanges.foldl ?_ (fun u a h => ?_))
    | (extract_lets +onlyGivenNames x; first | (refine OnlyChanges.cut x ?_ (fun h => ?_); (on_goal 2 => clear_value x); (on_goal 1 => subst x)) | clear_value x)
    | split
    | with_reducible (refine OnlyChanges.snd ?_)
    | with_reducible (refine OnlyChanges.fst ?_)
    | with_reducible (refine OnlyChanges.hres ?_)
    | ((with_reducible (refine OnlyChanges.upd ?_ (fun p hp => ?_))); on_goal 2 => (cases p <;> first | exact rfl | exact absurd (hP _ (by decide)) hp)))

theorem latchStn_only {P : List Part} {s₀ : State} {x0 : Nat} {x1 : DWord} {x2 : Nat} {t : State} (hP : Within [.cyc, .net, .tly] P)  (h : OnlyChanges P s₀ t) :
    OnlyChanges P s₀ (State.latchStn x0 x1 x2 t) := by
  unfold State.latchStn
  repeat' (first
    | with_reducible assumption
    | with_reducible (refine updStn_only (hP.step (by decide)) ?_)
    | with_reducible (refine setIn_only (hP.step (by decide)) ?_)
    | with_reducible (refine setWord_only (hP.step (by decide)) ?_)
    | with_reducible (refine failStn_only (hP.step (by decide)) ?_)
    | with_reducible (refine rejoinStn_only (hP.step (by decide)) ?_)
    | with_reducible (refine substStn_only (hP.step (by decide)) ?_)
    | with_reducible (refine OnlyChanges.foldl ?_ (fun u a h => ?_))
    | (extract_lets +onlyGivenNames x; first | (refine OnlyChanges.cut x ?_ (fun h => ?_); (on_goal 2 => clear_value x); (on_goal 1 => subst x)) | clear_value x)
    | split
    | with_reducible (refine OnlyChanges.snd ?_)
    | with_reducible (refine OnlyChanges.fst ?_)
    | with_reducible (refine OnlyChanges.hres ?_)
    | ((with_reducible (refine OnlyChanges.upd ?_ (fun p hp => ?_))); on_goal 2 => (cases p <;> first | exact rfl | exact absurd (hP _ (by decide)) hp)))

theorem watchStations_only {P : List Part} {s₀ : State} {x0 : Nat} {t : State} (hP : Within [.net] P)  (h : OnlyChanges P s₀ t) :
    OnlyChanges P s₀ (State.watchStations x0 t) := by
  unfold State.watchStations
  repeat' (first
    | with_reducible assumption
    | with_reducible (refine updStn_only (hP.step (by decide)) ?_)
    | with_reducible (refine OnlyChanges.foldl ?_ (fun u a h => ?_))
    | (extract_lets +onlyGivenNames x; first | (refine OnlyChanges.cut x ?_ (fun h => ?_); (on_goal 2 => clear_value x); (on_goal 1 => subst x)) | clear_value x)
    | split
    | with_reducible (refine OnlyChanges.snd ?_)
    | with_reducible (refine OnlyChanges.fst ?_)
    | with_reducible (refine OnlyChanges.hres ?_)
    | ((with_reducible (refine OnlyChanges.upd ?_ (fun p hp => ?_))); on_goal 2 => (cases p <;> first | exact rfl | exact absurd (hP _ (by decide)) hp)))

theorem latchSub_only {P : List Part} {s₀ : State} {x0 : Nat} {x1 : Nat} {t : State} (hP : Within [.cyc, .net] P)  (h : OnlyChanges P s₀ t) :
    OnlyChanges P s₀ (State.latchSub x0 x1 t) := by
  unfold State.latchSub
  repeat' (first
    | with_reducible assumption
    | with_reducible (refine setIn_only (hP.step (by decide)) ?_)
    | with_reducible (refine updMem_only (hP.step (by decide)) ?_)
    | with_reducible (refine OnlyChanges.foldl ?_ (fun u a h => ?_))
    | (extract_lets +onlyGivenNames x; first | (refine OnlyChanges.cut x ?_ (fun h => ?_); (on_goal 2 => clear_value x); (on_goal 1 => subst x)) | clear_value x)
    | split
    | with_reducible (refine OnlyChanges.snd ?_)
    | with_reducible (refine OnlyChanges.fst ?_)
    | with_reducible (refine OnlyChanges.hres ?_)
    | ((with_reducible (refine OnlyChanges.upd ?_ (fun p hp => ?_))); on_goal 2 => (cases p <;> first | exact rfl | exact absurd (hP _ (by decide)) hp)))

end Sys2Proof.Laws
end

