-- ==== Sys2Proof/Laws/OnlyCyc.lean ====
section
/-! SUPPORT. What each operation of Cyc.lean may change: one frame per operation. -/

set_option linter.unusedTactic false
set_option linter.unreachableTactic false
set_option linter.unusedVariables false
set_option linter.tactic.unusedName false

namespace Sys2Proof.Laws

open Sys2Proof.Machine Sys2Proof.Safety

theorem updPair_only {P : List Part} {s₀ : State} {x0 : Nat} {x1 : Pair → Pair} {t : State} (hP : Within [.lsp] P)  (h : OnlyChanges P s₀ t) :
    OnlyChanges P s₀ (State.updPair x0 x1 t) := by
  unfold State.updPair
  repeat' (first
    | with_reducible assumption
    | with_reducible (refine OnlyChanges.foldl ?_ (fun u a h => ?_))
    | (extract_lets +onlyGivenNames x; first | (refine OnlyChanges.cut x ?_ (fun h => ?_); (on_goal 2 => clear_value x); (on_goal 1 => subst x)) | clear_value x)
    | split
    | with_reducible (refine OnlyChanges.snd ?_)
    | with_reducible (refine OnlyChanges.fst ?_)
    | with_reducible (refine OnlyChanges.hres ?_)
    | ((with_reducible (refine OnlyChanges.upd ?_ (fun p hp => ?_))); on_goal 2 => (cases p <;> first | exact rfl | exact absurd (hP _ (by decide)) hp)))

theorem privStore_only {P : List Part} {s₀ : State} {x0 : Nat} {x1 : Nat} {x2 : PStore} {t : State} (hP : Within [.cyc, .lsp, .tly] P)  (h : OnlyChanges P s₀ t) :
    OnlyChanges P s₀ (State.privStore x0 x1 x2 t) := by
  unfold State.privStore
  repeat' (first
    | with_reducible assumption
    | with_reducible (refine updMem_only (hP.step (by decide)) ?_)
    | with_reducible (refine log_only (hP.step (by decide)) ?_)
    | with_reducible (refine updPair_only (hP.step (by decide)) ?_)
    | with_reducible (refine OnlyChanges.foldl ?_ (fun u a h => ?_))
    | (extract_lets +onlyGivenNames x; first | (refine OnlyChanges.cut x ?_ (fun h => ?_); (on_goal 2 => clear_value x); (on_goal 1 => subst x)) | clear_value x)
    | split
    | with_reducible (refine OnlyChanges.snd ?_)
    | with_reducible (refine OnlyChanges.fst ?_)
    | with_reducible (refine OnlyChanges.hres ?_)
    | ((with_reducible (refine OnlyChanges.upd ?_ (fun p hp => ?_))); on_goal 2 => (cases p <;> first | exact rfl | exact absurd (hP _ (by decide)) hp)))

theorem defStore_only {P : List Part} {s₀ : State} {x0 : Nat} {x1 : DefSt} {t : State} (hP : Within [.lsp] P)  (h : OnlyChanges P s₀ t) :
    OnlyChanges P s₀ (State.defStore x0 x1 t) := by
  unfold State.defStore
  repeat' (first
    | with_reducible assumption
    | with_reducible (refine updPair_only (hP.step (by decide)) ?_)
    | with_reducible (refine OnlyChanges.foldl ?_ (fun u a h => ?_))
    | (extract_lets +onlyGivenNames x; first | (refine OnlyChanges.cut x ?_ (fun h => ?_); (on_goal 2 => clear_value x); (on_goal 1 => subst x)) | clear_value x)
    | split
    | with_reducible (refine OnlyChanges.snd ?_)
    | with_reducible (refine OnlyChanges.fst ?_)
    | with_reducible (refine OnlyChanges.hres ?_)
    | ((with_reducible (refine OnlyChanges.upd ?_ (fun p hp => ?_))); on_goal 2 => (cases p <;> first | exact rfl | exact absurd (hP _ (by decide)) hp)))

theorem runWork_only {P : List Part} {s₀ : State} {x0 : Nat} {x1 : Nat} {x2 : Work} {t : State} (hP : Within [.cyc, .lsp, .tly] P)  (h : OnlyChanges P s₀ t) :
    OnlyChanges P s₀ (State.runWork x0 x1 x2 t) := by
  unfold State.runWork
  repeat' (first
    | with_reducible assumption
    | with_reducible (refine privStore_only (hP.step (by decide)) ?_)
    | with_reducible (refine defStore_only (hP.step (by decide)) ?_)
    | with_reducible (refine OnlyChanges.foldl ?_ (fun u a h => ?_))
    | (extract_lets +onlyGivenNames x; first | (refine OnlyChanges.cut x ?_ (fun h => ?_); (on_goal 2 => clear_value x); (on_goal 1 => subst x)) | clear_value x)
    | split
    | with_reducible (refine OnlyChanges.snd ?_)
    | with_reducible (refine OnlyChanges.fst ?_)
    | with_reducible (refine OnlyChanges.hres ?_)
    | ((with_reducible (refine OnlyChanges.upd ?_ (fun p hp => ?_))); on_goal 2 => (cases p <;> first | exact rfl | exact absurd (hP _ (by decide)) hp)))

theorem releaseStores_only {P : List Part} {s₀ : State} {x0 : Nat} {t : State} (hP : Within [.cyc, .lsp, .tly] P)  (h : OnlyChanges P s₀ t) :
    OnlyChanges P s₀ (State.releaseStores x0 t) := by
  unfold State.releaseStores
  repeat' (first
    | with_reducible assumption
    | with_reducible (refine updPair_only (hP.step (by decide)) ?_)
    | with_reducible (refine runWork_only (hP.step (by decide)) ?_)
    | with_reducible (refine OnlyChanges.foldl ?_ (fun u a h => ?_))
    | (extract_lets +onlyGivenNames x; first | (refine OnlyChanges.cut x ?_ (fun h => ?_); (on_goal 2 => clear_value x); (on_goal 1 => subst x)) | clear_value x)
    | split
    | with_reducible (refine OnlyChanges.snd ?_)
    | with_reducible (refine OnlyChanges.fst ?_)
    | with_reducible (refine OnlyChanges.hres ?_)
    | ((with_reducible (refine OnlyChanges.upd ?_ (fun p hp => ?_))); on_goal 2 => (cases p <;> first | exact rfl | exact absurd (hP _ (by decide)) hp)))

theorem undoLog_only {P : List Part} {s₀ : State} {x0 : Nat} {t : State} (hP : Within [.cyc, .tly] P)  (h : OnlyChanges P s₀ t) :
    OnlyChanges P s₀ (State.undoLog x0 t) := by
  unfold State.undoLog
  repeat' (first
    | with_reducible assumption
    | with_reducible (refine log_only (hP.step (by decide)) ?_)
    | with_reducible (refine updMem_only (hP.step (by decide)) ?_)
    | with_reducible (refine OnlyChanges.foldl ?_ (fun u a h => ?_))
    | (extract_lets +onlyGivenNames x; first | (refine OnlyChanges.cut x ?_ (fun h => ?_); (on_goal 2 => clear_value x); (on_goal 1 => subst x)) | clear_value x)
    | split
    | with_reducible (refine OnlyChanges.snd ?_)
    | with_reducible (refine OnlyChanges.fst ?_)
    | with_reducible (refine OnlyChanges.hres ?_)
    | ((with_reducible (refine OnlyChanges.upd ?_ (fun p hp => ?_))); on_goal 2 => (cases p <;> first | exact rfl | exact absurd (hP _ (by decide)) hp)))

theorem seal_only {P : List Part} {s₀ : State} {x0 : Nat → DefSt → State → State} {x1 : Nat} {t : State} (hP : Within [.cyc, .lsp, .tly] P) (hf0 : ∀ a c u, OnlyChanges P s₀ u → OnlyChanges P s₀ (x0 a c u)) (h : OnlyChanges P s₀ t) :
    OnlyChanges P s₀ (State.seal x0 x1 t) := by
  unfold State.seal
  repeat' (first
    | with_reducible assumption
    | with_reducible (refine updPair_only (hP.step (by decide)) ?_)
    | with_reducible (refine releaseStores_only (hP.step (by decide)) ?_)
    | with_reducible (refine OnlyChanges.foldl ?_ (fun u a h => ?_))
    | with_reducible (apply hf0)
    | (extract_lets +onlyGivenNames x; first | (refine OnlyChanges.cut x ?_ (fun h => ?_); (on_goal 2 => clear_value x); (on_goal 1 => subst x)) | clear_value x)
    | split
    | with_reducible (refine OnlyChanges.snd ?_)
    | with_reducible (refine OnlyChanges.fst ?_)
    | with_reducible (refine OnlyChanges.hres ?_)
    | ((with_reducible (refine OnlyChanges.upd ?_ (fun p hp => ?_))); on_goal 2 => (cases p <;> first | exact rfl | exact absurd (hP _ (by decide)) hp)))

theorem pairBusy_only {P : List Part} {s₀ : State} {x0 : Nat} {t : State} (hP : Within [.lsp] P)  (h : OnlyChanges P s₀ t) :
    OnlyChanges P s₀ (State.pairBusy x0 t) := by
  unfold State.pairBusy
  repeat' (first
    | with_reducible assumption
    | with_reducible (refine updPair_only (hP.step (by decide)) ?_)
    | with_reducible (refine OnlyChanges.foldl ?_ (fun u a h => ?_))
    | (extract_lets +onlyGivenNames x; first | (refine OnlyChanges.cut x ?_ (fun h => ?_); (on_goal 2 => clear_value x); (on_goal 1 => subst x)) | clear_value x)
    | split
    | with_reducible (refine OnlyChanges.snd ?_)
    | with_reducible (refine OnlyChanges.fst ?_)
    | with_reducible (refine OnlyChanges.hres ?_)
    | ((with_reducible (refine OnlyChanges.upd ?_ (fun p hp => ?_))); on_goal 2 => (cases p <;> first | exact rfl | exact absurd (hP _ (by decide)) hp)))

theorem pairIdle_only {P : List Part} {s₀ : State} {x0 : Nat} {t : State} (hP : Within [.cyc, .lsp] P)  (h : OnlyChanges P s₀ t) :
    OnlyChanges P s₀ (State.pairIdle x0 t) := by
  unfold State.pairIdle
  repeat' (first
    | with_reducible assumption
    | with_reducible (refine noteLoad_only (hP.step (by decide)) ?_)
    | with_reducible (refine updPair_only (hP.step (by decide)) ?_)
    | with_reducible (refine OnlyChanges.foldl ?_ (fun u a h => ?_))
    | (extract_lets +onlyGivenNames x; first | (refine OnlyChanges.cut x ?_ (fun h => ?_); (on_goal 2 => clear_value x); (on_goal 1 => subst x)) | clear_value x)
    | split
    | with_reducible (refine OnlyChanges.snd ?_)
    | with_reducible (refine OnlyChanges.fst ?_)
    | with_reducible (refine OnlyChanges.hres ?_)
    | ((with_reducible (refine OnlyChanges.upd ?_ (fun p hp => ?_))); on_goal 2 => (cases p <;> first | exact rfl | exact absurd (hP _ (by decide)) hp)))

theorem preemptOn_only {P : List Part} {s₀ : State} {x0 : Nat → DefSt → State → State} {x1 : Nat} {t : State} (hP : Within [.cyc, .lsp, .tly] P) (hf0 : ∀ a c u, OnlyChanges P s₀ u → OnlyChanges P s₀ (x0 a c u)) (h : OnlyChanges P s₀ t) :
    OnlyChanges P s₀ (State.preemptOn x0 x1 t) := by
  unfold State.preemptOn
  repeat' (first
    | with_reducible assumption
    | with_reducible (refine seal_only (hP.step (by decide)) ?_ ?_)
    | with_reducible (refine updPair_only (hP.step (by decide)) ?_)
    | with_reducible (refine updCls_only (hP.step (by decide)) ?_)
    | with_reducible (refine OnlyChanges.foldl ?_ (fun u a h => ?_))
    | with_reducible (apply hf0)
    | intro _
    | (extract_lets +onlyGivenNames x; first | (refine OnlyChanges.cut x ?_ (fun h => ?_); (on_goal 2 => clear_value x); (on_goal 1 => subst x)) | clear_value x)
    | split
    | intro _
    | with_reducible (refine OnlyChanges.snd ?_)
    | with_reducible (refine OnlyChanges.fst ?_)
    | with_reducible (refine OnlyChanges.hres ?_)
    | ((with_reducible (refine OnlyChanges.upd ?_ (fun p hp => ?_))); on_goal 2 => (cases p <;> first | exact rfl | exact absurd (hP _ (by decide)) hp)))

theorem beginOn_only {P : List Part} {s₀ : State} {x0 : Nat} {x1 : Nat} {t : State} (hP : Within [.cyc, .lsp] P)  (h : OnlyChanges P s₀ t) :
    OnlyChanges P s₀ (State.beginOn x0 x1 t) := by
  unfold State.beginOn
  repeat' (first
    | with_reducible assumption
    | with_reducible (refine pairBusy_only (hP.step (by decide)) ?_)
    | with_reducible (refine updCls_only (hP.step (by decide)) ?_)
    | with_reducible (refine updPair_only (hP.step (by decide)) ?_)
    | with_reducible (refine OnlyChanges.foldl ?_ (fun u a h => ?_))
    | (extract_lets +onlyGivenNames x; first | (refine OnlyChanges.cut x ?_ (fun h => ?_); (on_goal 2 => clear_value x); (on_goal 1 => subst x)) | clear_value x)
    | split
    | with_reducible (refine OnlyChanges.snd ?_)
    | with_reducible (refine OnlyChanges.fst ?_)
    | with_reducible (refine OnlyChanges.hres ?_)
    | ((with_reducible (refine OnlyChanges.upd ?_ (fun p hp => ?_))); on_goal 2 => (cases p <;> first | exact rfl | exact absurd (hP _ (by decide)) hp)))

theorem schedule_only {P : List Part} {s₀ : State} {x0 : Nat → DefSt → State → State} {x1 : Nat} {t : State} (hP : Within [.cyc, .lsp, .tly] P) (hf0 : ∀ a c u, OnlyChanges P s₀ u → OnlyChanges P s₀ (x0 a c u)) (h : OnlyChanges P s₀ t) :
    OnlyChanges P s₀ (State.schedule x0 x1 t) := by
  unfold State.schedule
  repeat' (first
    | with_reducible assumption
    | with_reducible (refine pairIdle_only (hP.step (by decide)) ?_)
    | with_reducible (refine preemptOn_only (hP.step (by decide)) ?_ ?_)
    | with_reducible (refine beginOn_only (hP.step (by decide)) ?_)
    | with_reducible (refine OnlyChanges.foldl ?_ (fun u a h => ?_))
    | with_reducible (apply hf0)
    | intro _
    | (extract_lets +onlyGivenNames x; first | (refine OnlyChanges.cut x ?_ (fun h => ?_); (on_goal 2 => clear_value x); (on_goal 1 => subst x)) | clear_value x)
    | split
    | intro _
    | with_reducible (refine OnlyChanges.snd ?_)
    | with_reducible (refine OnlyChanges.fst ?_)
    | with_reducible (refine OnlyChanges.hres ?_)
    | ((with_reducible (refine OnlyChanges.upd ?_ (fun p hp => ?_))); on_goal 2 => (cases p <;> first | exact rfl | exact absurd (hP _ (by decide)) hp)))

theorem pokeElem_only {P : List Part} {s₀ : State} {x0 : Elem} {t : State} (hP : Within [.cyc] P)  (h : OnlyChanges P s₀ t) :
    OnlyChanges P s₀ (State.pokeElem x0 t) := by
  unfold State.pokeElem
  repeat' (first
    | with_reducible assumption
    | with_reducible (refine setIn_only (hP.step (by decide)) ?_)
    | with_reducible (refine updMem_only (hP.step (by decide)) ?_)
    | with_reducible (refine OnlyChanges.foldl ?_ (fun u a h => ?_))
    | (extract_lets +onlyGivenNames x; first | (refine OnlyChanges.cut x ?_ (fun h => ?_); (on_goal 2 => clear_value x); (on_goal 1 => subst x)) | clear_value x)
    | split
    | with_reducible (refine OnlyChanges.snd ?_)
    | with_reducible (refine OnlyChanges.fst ?_)
    | with_reducible (refine OnlyChanges.hres ?_)
    | ((with_reducible (refine OnlyChanges.upd ?_ (fun p hp => ?_))); on_goal 2 => (cases p <;> first | exact rfl | exact absurd (hP _ (by decide)) hp)))

theorem pokeNow_only {P : List Part} {s₀ : State} {x0 : Elem} {t : State} (hP : Within [.cyc] P)  (h : OnlyChanges P s₀ t) :
    OnlyChanges P s₀ (State.pokeNow x0 t) := by
  unfold State.pokeNow
  repeat' (first
    | with_reducible assumption
    | with_reducible (refine pokeElem_only (hP.step (by decide)) ?_)
    | with_reducible (refine updMem_only (hP.step (by decide)) ?_)
    | with_reducible (refine OnlyChanges.foldl ?_ (fun u a h => ?_))
    | (extract_lets +onlyGivenNames x; first | (refine OnlyChanges.cut x ?_ (fun h => ?_); (on_goal 2 => clear_value x); (on_goal 1 => subst x)) | clear_value x)
    | split
    | with_reducible (refine OnlyChanges.snd ?_)
    | with_reducible (refine OnlyChanges.fst ?_)
    | with_reducible (refine OnlyChanges.hres ?_)
    | ((with_reducible (refine OnlyChanges.upd ?_ (fun p hp => ?_))); on_goal 2 => (cases p <;> first | exact rfl | exact absurd (hP _ (by decide)) hp)))

theorem applyForces_only {P : List Part} {s₀ : State} {x0 : Nat} {x1 : Bool} {t : State} (hP : Within [.cyc] P)  (h : OnlyChanges P s₀ t) :
    OnlyChanges P s₀ (State.applyForces x0 x1 t) := by
  unfold State.applyForces
  repeat' (first
    | with_reducible assumption
    | with_reducible (refine pokeElem_only (hP.step (by decide)) ?_)
    | with_reducible (refine OnlyChanges.foldl ?_ (fun u a h => ?_))
    | (extract_lets +onlyGivenNames x; first | (refine OnlyChanges.cut x ?_ (fun h => ?_); (on_goal 2 => clear_value x); (on_goal 1 => subst x)) | clear_value x)
    | split
    | with_reducible (refine OnlyChanges.snd ?_)
    | with_reducible (refine OnlyChanges.fst ?_)
    | with_reducible (refine OnlyChanges.hres ?_)
    | ((with_reducible (refine OnlyChanges.upd ?_ (fun p hp => ?_))); on_goal 2 => (cases p <;> first | exact rfl | exact absurd (hP _ (by decide)) hp)))

theorem applyPending_only {P : List Part} {s₀ : State} {x0 : Nat} {t : State} (hP : Within [.cyc] P)  (h : OnlyChanges P s₀ t) :
    OnlyChanges P s₀ (State.applyPending x0 t) := by
  unfold State.applyPending
  repeat' (first
    | with_reducible assumption
    | with_reducible (refine pokeElem_only (hP.step (by decide)) ?_)
    | with_reducible (refine updMem_only (hP.step (by decide)) ?_)
    | with_reducible (refine OnlyChanges.foldl ?_ (fun u a h => ?_))
    | (extract_lets +onlyGivenNames x; first | (refine OnlyChanges.cut x ?_ (fun h => ?_); (on_goal 2 => clear_value x); (on_goal 1 => subst x)) | clear_value x)
    | split
    | with_reducible (refine OnlyChanges.snd ?_)
    | with_reducible (refine OnlyChanges.fst ?_)
    | with_reducible (refine OnlyChanges.hres ?_)
    | ((with_reducible (refine OnlyChanges.upd ?_ (fun p hp => ?_))); on_goal 2 => (cases p <;> first | exact rfl | exact absurd (hP _ (by decide)) hp)))

theorem latchLocal_only {P : List Part} {s₀ : State} {x0 : Nat} {t : State} (hP : Within [.cyc] P)  (h : OnlyChanges P s₀ t) :
    OnlyChanges P s₀ (State.latchLocal x0 t) := by
  unfold State.latchLocal
  repeat' (first
    | with_reducible assumption
    | with_reducible (refine setIn_only (hP.step (by decide)) ?_)
    | with_reducible (refine OnlyChanges.foldl ?_ (fun u a h => ?_))
    | (extract_lets +onlyGivenNames x; first | (refine OnlyChanges.cut x ?_ (fun h => ?_); (on_goal 2 => clear_value x); (on_goal 1 => subst x)) | clear_value x)
    | split
    | with_reducible (refine OnlyChanges.snd ?_)
    | with_reducible (refine OnlyChanges.fst ?_)
    | with_reducible (refine OnlyChanges.hres ?_)
    | ((with_reducible (refine OnlyChanges.upd ?_ (fun p hp => ?_))); on_goal 2 => (cases p <;> first | exact rfl | exact absurd (hP _ (by decide)) hp)))

theorem latch_only {P : List Part} {s₀ : State} {x0 : Nat} {x1 : DWord} {t : State} (hP : Within [.cyc, .net, .tly] P)  (h : OnlyChanges P s₀ t) :
    OnlyChanges P s₀ (State.latch x0 x1 t) := by
  unfold State.latch
  repeat' (first
    | with_reducible assumption
    | with_reducible (refine updCls_only (hP.step (by decide)) ?_)
    | with_reducible (refine latchStn_only (hP.step (by decide)) ?_)
    | with_reducible (refine latchSub_only (hP.step (by decide)) ?_)
    | with_reducible (refine latchLocal_only (hP.step (by decide)) ?_)
    | with_reducible (refine updMem_only (hP.step (by decide)) ?_)
    | with_reducible (refine OnlyChanges.foldl ?_ (fun u a h => ?_))
    | (extract_lets +onlyGivenNames x; first | (refine OnlyChanges.cut x ?_ (fun h => ?_); (on_goal 2 => clear_value x); (on_goal 1 => subst x)) | clear_value x)
    | split
    | with_reducible (refine OnlyChanges.snd ?_)
    | with_reducible (refine OnlyChanges.fst ?_)
    | with_reducible (refine OnlyChanges.hres ?_)
    | ((with_reducible (refine OnlyChanges.upd ?_ (fun p hp => ?_))); on_goal 2 => (cases p <;> first | exact rfl | exact absurd (hP _ (by decide)) hp)))

theorem startCycle_only {P : List Part} {s₀ : State} {x0 : Nat} {x1 : DWord} {x2 : Nat} {t : State} (hP : Within [.cyc, .net, .tly] P)  (h : OnlyChanges P s₀ t) :
    OnlyChanges P s₀ (State.startCycle x0 x1 x2 t) := by
  unfold State.startCycle
  repeat' (first
    | with_reducible assumption
    | with_reducible (refine updMem_only (hP.step (by decide)) ?_)
    | with_reducible (refine updCls_only (hP.step (by decide)) ?_)
    | with_reducible (refine latch_only (hP.step (by decide)) ?_)
    | with_reducible (refine applyForces_only (hP.step (by decide)) ?_)
    | with_reducible (refine applyPending_only (hP.step (by decide)) ?_)
    | with_reducible (refine OnlyChanges.foldl ?_ (fun u a h => ?_))
    | (extract_lets +onlyGivenNames x; first | (refine OnlyChanges.cut x ?_ (fun h => ?_); (on_goal 2 => clear_value x); (on_goal 1 => subst x)) | clear_value x)
    | split
    | with_reducible (refine OnlyChanges.snd ?_)
    | with_reducible (refine OnlyChanges.fst ?_)
    | with_reducible (refine OnlyChanges.hres ?_)
    | ((with_reducible (refine OnlyChanges.upd ?_ (fun p hp => ?_))); on_goal 2 => (cases p <;> first | exact rfl | exact absurd (hP _ (by decide)) hp)))

theorem haltNotice_only {P : List Part} {s₀ : State} {x0 : Nat} {x1 : Nat} {x2 : DWord} {t : State} (hP : Within [.sys, .hif, .cyc, .lsp, .cle, .chg, .dpx, .dpx2, .mir, .net, .tim, .can, .canq, .fio, .saf, .tly, .mm, .boot, .pwr, .ret, .cfg, .prog, .regs, .live, .votes, .press, .posted, .outbox, .freeN] P)  (h : OnlyChanges P s₀ t) :
    OnlyChanges P s₀ (State.haltNotice x0 x1 x2 t) := by
  unfold State.haltNotice
  repeat' (first
    | with_reducible assumption
    | with_reducible (refine log_only (hP.step (by decide)) ?_)
    | with_reducible (refine settleFail_only (hP.step (by decide)) ?_)
    | with_reducible (refine notice_only (hP.step (by decide)) ?_)
    | with_reducible (refine endInsync_only (hP.step (by decide)) ?_)
    | with_reducible (refine enterHalt_only (hP.step (by decide)) ?_)
    | with_reducible (refine OnlyChanges.foldl ?_ (fun u a h => ?_))
    | (extract_lets +onlyGivenNames x; first | (refine OnlyChanges.cut x ?_ (fun h => ?_); (on_goal 2 => clear_value x); (on_goal 1 => subst x)) | clear_value x)
    | split
    | with_reducible (refine OnlyChanges.snd ?_)
    | with_reducible (refine OnlyChanges.fst ?_)
    | with_reducible (refine OnlyChanges.hres ?_)
    | ((with_reducible (refine OnlyChanges.upd ?_ (fun p hp => ?_))); on_goal 2 => (cases p <;> first | exact rfl | exact absurd (hP _ (by decide)) hp)))

theorem failPair_only {P : List Part} {s₀ : State} {x0 : Nat} {x1 : Nat} {t : State} (hP : Within [.sys, .hif, .cyc, .lsp, .cle, .chg, .dpx, .dpx2, .mir, .net, .tim, .can, .canq, .fio, .saf, .tly, .mm, .boot, .pwr, .ret, .cfg, .prog, .regs, .live, .votes, .press, .posted, .outbox, .freeN] P)  (h : OnlyChanges P s₀ t) :
    OnlyChanges P s₀ (State.failPair x0 x1 t) := by
  unfold State.failPair
  repeat' (first
    | with_reducible assumption
    | with_reducible (refine updPair_only (hP.step (by decide)) ?_)
    | with_reducible (refine log_only (hP.step (by decide)) ?_)
    | with_reducible (refine unrecoverable_only (hP.step (by decide)) ?_)
    | with_reducible (refine OnlyChanges.foldl ?_ (fun u a h => ?_))
    | (extract_lets +onlyGivenNames x; first | (refine OnlyChanges.cut x ?_ (fun h => ?_); (on_goal 2 => clear_value x); (on_goal 1 => subst x)) | clear_value x)
    | split
    | with_reducible (refine OnlyChanges.snd ?_)
    | with_reducible (refine OnlyChanges.fst ?_)
    | with_reducible (refine OnlyChanges.hres ?_)
    | ((with_reducible (refine OnlyChanges.upd ?_ (fun p hp => ?_))); on_goal 2 => (cases p <;> first | exact rfl | exact absurd (hP _ (by decide)) hp)))

end Sys2Proof.Laws
end

