-- ==== Sys2Proof/Laws/OnlyLsp.lean ====
section
/-! SUPPORT. What each operation of Lsp.lean may change: one frame per operation. -/

set_option linter.unusedTactic false
set_option linter.unreachableTactic false
set_option linter.unusedVariables false
set_option linter.tactic.unusedName false

namespace Sys2Proof.Laws

open Sys2Proof.Machine Sys2Proof.Safety

theorem pairWork_only {P : List Part} {s₀ : State} {x0 : Nat} {x1 : Work} {t : State} (hP : Within [.cyc, .lsp, .tly] P)  (h : OnlyChanges P s₀ t) :
    OnlyChanges P s₀ (State.pairWork x0 x1 t) := by
  unfold State.pairWork
  repeat' (first
    | with_reducible assumption
    | with_reducible (refine runWork_only (hP.step (by decide)) ?_)
    | with_reducible (refine OnlyChanges.foldl ?_ (fun u a h => ?_))
    | (extract_lets +onlyGivenNames x; first | (refine OnlyChanges.cut x ?_ (fun h => ?_); (on_goal 2 => clear_value x); (on_goal 1 => subst x)) | clear_value x)
    | split
    | with_reducible (refine OnlyChanges.snd ?_)
    | with_reducible (refine OnlyChanges.fst ?_)
    | with_reducible (refine OnlyChanges.hres ?_)
    | ((with_reducible (refine OnlyChanges.upd ?_ (fun p hp => ?_))); on_goal 2 => (cases p <;> first | exact rfl | exact absurd (hP _ (by decide)) hp)))

theorem noteMismatch_only {P : List Part} {s₀ : State} {x0 : Nat} {x1 : Nat} {x2 : Bool} {x3 : Bool} {t : State} (hP : Within [.lsp] P)  (h : OnlyChanges P s₀ t) :
    OnlyChanges P s₀ (State.noteMismatch x0 x1 x2 x3 t) := by
  unfold State.noteMismatch
  repeat' (first
    | with_reducible assumption
    | with_reducible (refine updPair_only (hP.step (by decide)) ?_)
    | with_reducible (refine OnlyChanges.foldl ?_ (fun u a h => ?_))
    | (extract_lets +onlyGivenNames x; first | (refine OnlyChanges.cut x ?_ (fun h => ?_); (on_goal 2 => clear_value x); (on_goal 1 => subst x)) | clear_value x)
    | split
    | with_reducible (refine OnlyChanges.snd ?_)
    | with_reducible (refine OnlyChanges.fst ?_)
    | with_reducible (refine OnlyChanges.hres ?_)
    | ((with_reducible (refine OnlyChanges.upd ?_ (fun p hp => ?_))); on_goal 2 => (cases p <;> first | exact rfl | exact absurd (hP _ (by decide)) hp)))

theorem countDarn_only {P : List Part} {s₀ : State} {x0 : Nat} {t : State} (hP : Within [.lsp] P)  (h : OnlyChanges P s₀ t) :
    OnlyChanges P s₀ (State.countDarn x0 t) := by
  unfold State.countDarn
  repeat' (first
    | with_reducible assumption
    | with_reducible (refine updPair_only (hP.step (by decide)) ?_)
    | with_reducible (refine OnlyChanges.foldl ?_ (fun u a h => ?_))
    | (extract_lets +onlyGivenNames x; first | (refine OnlyChanges.cut x ?_ (fun h => ?_); (on_goal 2 => clear_value x); (on_goal 1 => subst x)) | clear_value x)
    | split
    | with_reducible (refine OnlyChanges.snd ?_)
    | with_reducible (refine OnlyChanges.fst ?_)
    | with_reducible (refine OnlyChanges.hres ?_)
    | ((with_reducible (refine OnlyChanges.upd ?_ (fun p hp => ?_))); on_goal 2 => (cases p <;> first | exact rfl | exact absurd (hP _ (by decide)) hp)))

theorem darnRec_only {P : List Part} {s₀ : State} {x0 : Nat} {x1 : Bool} {x2 : Nat} {t : State} (hP : Within [.tly] P)  (h : OnlyChanges P s₀ t) :
    OnlyChanges P s₀ (State.darnRec x0 x1 x2 t) := by
  unfold State.darnRec
  repeat' (first
    | with_reducible assumption
    | with_reducible (refine log_only (hP.step (by decide)) ?_)
    | with_reducible (refine OnlyChanges.foldl ?_ (fun u a h => ?_))
    | (extract_lets +onlyGivenNames x; first | (refine OnlyChanges.cut x ?_ (fun h => ?_); (on_goal 2 => clear_value x); (on_goal 1 => subst x)) | clear_value x)
    | split
    | with_reducible (refine OnlyChanges.snd ?_)
    | with_reducible (refine OnlyChanges.fst ?_)
    | with_reducible (refine OnlyChanges.hres ?_)
    | ((with_reducible (refine OnlyChanges.upd ?_ (fun p hp => ?_))); on_goal 2 => (cases p <;> first | exact rfl | exact absurd (hP _ (by decide)) hp)))

theorem firstMismatch_only {P : List Part} {s₀ : State} {x0 : Nat} {x1 : Bool} {t : State} (hP : Within [.sys, .hif, .cyc, .lsp, .cle, .chg, .dpx, .dpx2, .mir, .net, .tim, .can, .canq, .fio, .saf, .tly, .mm, .boot, .pwr, .ret, .cfg, .prog, .regs, .live, .votes, .press, .posted, .outbox, .freeN] P)  (h : OnlyChanges P s₀ t) :
    OnlyChanges P s₀ (State.firstMismatch x0 x1 t) := by
  unfold State.firstMismatch
  repeat' (first
    | with_reducible assumption
    | with_reducible (refine countDarn_only (hP.step (by decide)) ?_)
    | with_reducible (refine darnRec_only (hP.step (by decide)) ?_)
    | with_reducible (refine updPair_only (hP.step (by decide)) ?_)
    | with_reducible (refine failPair_only (hP.step (by decide)) ?_)
    | with_reducible (refine OnlyChanges.foldl ?_ (fun u a h => ?_))
    | (extract_lets +onlyGivenNames x; first | (refine OnlyChanges.cut x ?_ (fun h => ?_); (on_goal 2 => clear_value x); (on_goal 1 => subst x)) | clear_value x)
    | split
    | with_reducible (refine OnlyChanges.snd ?_)
    | with_reducible (refine OnlyChanges.fst ?_)
    | with_reducible (refine OnlyChanges.hres ?_)
    | ((with_reducible (refine OnlyChanges.upd ?_ (fun p hp => ?_))); on_goal 2 => (cases p <;> first | exact rfl | exact absurd (hP _ (by decide)) hp)))

theorem mismatch_only {P : List Part} {s₀ : State} {x0 : Nat} {x1 : Nat} {x2 : Bool} {t : State} (hP : Within [.sys, .hif, .cyc, .lsp, .cle, .chg, .dpx, .dpx2, .mir, .net, .tim, .can, .canq, .fio, .saf, .tly, .mm, .boot, .pwr, .ret, .cfg, .prog, .regs, .live, .votes, .press, .posted, .outbox, .freeN] P)  (h : OnlyChanges P s₀ t) :
    OnlyChanges P s₀ (State.mismatch x0 x1 x2 t) := by
  unfold State.mismatch
  repeat' (first
    | with_reducible assumption
    | with_reducible (refine noteMismatch_only (hP.step (by decide)) ?_)
    | with_reducible (refine failPair_only (hP.step (by decide)) ?_)
    | with_reducible (refine firstMismatch_only (hP.step (by decide)) ?_)
    | with_reducible (refine OnlyChanges.foldl ?_ (fun u a h => ?_))
    | (extract_lets +onlyGivenNames x; first | (refine OnlyChanges.cut x ?_ (fun h => ?_); (on_goal 2 => clear_value x); (on_goal 1 => subst x)) | clear_value x)
    | split
    | with_reducible (refine OnlyChanges.snd ?_)
    | with_reducible (refine OnlyChanges.fst ?_)
    | with_reducible (refine OnlyChanges.hres ?_)
    | ((with_reducible (refine OnlyChanges.upd ?_ (fun p hp => ?_))); on_goal 2 => (cases p <;> first | exact rfl | exact absurd (hP _ (by decide)) hp)))

theorem restoreEnd_only {P : List Part} {s₀ : State} {x0 : Nat} {x1 : Nat} {t : State} (hP : Within [.cyc, .lsp, .tly] P)  (h : OnlyChanges P s₀ t) :
    OnlyChanges P s₀ (State.restoreEnd x0 x1 t) := by
  unfold State.restoreEnd
  repeat' (first
    | with_reducible assumption
    | with_reducible (refine undoLog_only (hP.step (by decide)) ?_)
    | with_reducible (refine updPair_only (hP.step (by decide)) ?_)
    | with_reducible (refine darnRec_only (hP.step (by decide)) ?_)
    | with_reducible (refine schedule_only (hP.step (by decide)) ?_ ?_)
    | with_reducible (refine OnlyChanges.foldl ?_ (fun u a h => ?_))
    | intro _
    | (extract_lets +onlyGivenNames x; first | (refine OnlyChanges.cut x ?_ (fun h => ?_); (on_goal 2 => clear_value x); (on_goal 1 => subst x)) | clear_value x)
    | split
    | intro _
    | with_reducible (refine OnlyChanges.snd ?_)
    | with_reducible (refine OnlyChanges.fst ?_)
    | with_reducible (refine OnlyChanges.hres ?_)
    | ((with_reducible (refine OnlyChanges.upd ?_ (fun p hp => ?_))); on_goal 2 => (cases p <;> first | exact rfl | exact absurd (hP _ (by decide)) hp)))

theorem haltCore_only {P : List Part} {s₀ : State} {x0 : Nat} {x1 : Word} {x2 : Work} {t : State} (hP : Within [.cyc, .lsp, .tly] P)  (h : OnlyChanges P s₀ t) :
    OnlyChanges P s₀ (State.haltCore x0 x1 x2 t) := by
  unfold State.haltCore
  repeat' (first
    | with_reducible assumption
    | with_reducible (refine pairWork_only (hP.step (by decide)) ?_)
    | with_reducible (refine updPair_only (hP.step (by decide)) ?_)
    | with_reducible (refine OnlyChanges.foldl ?_ (fun u a h => ?_))
    | (extract_lets +onlyGivenNames x; first | (refine OnlyChanges.cut x ?_ (fun h => ?_); (on_goal 2 => clear_value x); (on_goal 1 => subst x)) | clear_value x)
    | split
    | with_reducible (refine OnlyChanges.snd ?_)
    | with_reducible (refine OnlyChanges.fst ?_)
    | with_reducible (refine OnlyChanges.hres ?_)
    | ((with_reducible (refine OnlyChanges.upd ?_ (fun p hp => ?_))); on_goal 2 => (cases p <;> first | exact rfl | exact absurd (hP _ (by decide)) hp)))

theorem stepCore_only {P : List Part} {s₀ : State} {x0 : Nat} {x1 : Word} {x2 : Work} {t : State} (hP : Within [.cyc, .lsp, .tly] P)  (h : OnlyChanges P s₀ t) :
    OnlyChanges P s₀ (State.stepCore x0 x1 x2 t) := by
  unfold State.stepCore
  repeat' (first
    | with_reducible assumption
    | with_reducible (refine updPair_only (hP.step (by decide)) ?_)
    | with_reducible (refine pairWork_only (hP.step (by decide)) ?_)
    | with_reducible (refine OnlyChanges.foldl ?_ (fun u a h => ?_))
    | (extract_lets +onlyGivenNames x; first | (refine OnlyChanges.cut x ?_ (fun h => ?_); (on_goal 2 => clear_value x); (on_goal 1 => subst x)) | clear_value x)
    | split
    | with_reducible (refine OnlyChanges.snd ?_)
    | with_reducible (refine OnlyChanges.fst ?_)
    | with_reducible (refine OnlyChanges.hres ?_)
    | ((with_reducible (refine OnlyChanges.upd ?_ (fun p hp => ?_))); on_goal 2 => (cases p <;> first | exact rfl | exact absurd (hP _ (by decide)) hp)))

theorem resumeCore_only {P : List Part} {s₀ : State} {x0 : Nat} {t : State} (hP : Within [.lsp] P)  (h : OnlyChanges P s₀ t) :
    OnlyChanges P s₀ (State.resumeCore x0 t) := by
  unfold State.resumeCore
  repeat' (first
    | with_reducible assumption
    | with_reducible (refine updPair_only (hP.step (by decide)) ?_)
    | with_reducible (refine OnlyChanges.foldl ?_ (fun u a h => ?_))
    | (extract_lets +onlyGivenNames x; first | (refine OnlyChanges.cut x ?_ (fun h => ?_); (on_goal 2 => clear_value x); (on_goal 1 => subst x)) | clear_value x)
    | split
    | with_reducible (refine OnlyChanges.snd ?_)
    | with_reducible (refine OnlyChanges.fst ?_)
    | with_reducible (refine OnlyChanges.hres ?_)
    | ((with_reducible (refine OnlyChanges.upd ?_ (fun p hp => ?_))); on_goal 2 => (cases p <;> first | exact rfl | exact absurd (hP _ (by decide)) hp)))

end Sys2Proof.Laws
end

