-- ==== Sys2Proof/Laws/OnlyDpx.lean ====
section
/-! SUPPORT. What each operation of Dpx.lean may change: one frame per operation. -/

set_option linter.unusedTactic false
set_option linter.unreachableTactic false
set_option linter.unusedVariables false
set_option linter.tactic.unusedName false

namespace Sys2Proof.Laws

open Sys2Proof.Machine Sys2Proof.Safety

theorem updDpx_only {P : List Part} {s₀ : State} {x0 : Dpx → Dpx} {t : State} (hP : Within [.dpx] P)  (h : OnlyChanges P s₀ t) :
    OnlyChanges P s₀ (State.updDpx x0 t) := by
  unfold State.updDpx
  repeat' (first
    | with_reducible assumption
    | with_reducible (refine OnlyChanges.foldl ?_ (fun u a h => ?_))
    | (extract_lets +onlyGivenNames x; first | (refine OnlyChanges.cut x ?_ (fun h => ?_); (on_goal 2 => clear_value x); (on_goal 1 => subst x)) | clear_value x)
    | split
    | with_reducible (refine OnlyChanges.snd ?_)
    | with_reducible (refine OnlyChanges.fst ?_)
    | with_reducible (refine OnlyChanges.hres ?_)
    | ((with_reducible (refine OnlyChanges.upd ?_ (fun p hp => ?_))); on_goal 2 => (cases p <;> first | exact rfl | exact absurd (hP _ (by decide)) hp)))

theorem updDpx2_only {P : List Part} {s₀ : State} {x0 : Dpx2 → Dpx2} {t : State} (hP : Within [.dpx2] P)  (h : OnlyChanges P s₀ t) :
    OnlyChanges P s₀ (State.updDpx2 x0 t) := by
  unfold State.updDpx2
  repeat' (first
    | with_reducible assumption
    | with_reducible (refine OnlyChanges.foldl ?_ (fun u a h => ?_))
    | (extract_lets +onlyGivenNames x; first | (refine OnlyChanges.cut x ?_ (fun h => ?_); (on_goal 2 => clear_value x); (on_goal 1 => subst x)) | clear_value x)
    | split
    | with_reducible (refine OnlyChanges.snd ?_)
    | with_reducible (refine OnlyChanges.fst ?_)
    | with_reducible (refine OnlyChanges.hres ?_)
    | ((with_reducible (refine OnlyChanges.upd ?_ (fun p hp => ?_))); on_goal 2 => (cases p <;> first | exact rfl | exact absurd (hP _ (by decide)) hp)))

theorem decideTakeover_only {P : List Part} {s₀ : State}  {t : State} (hP : Within [.sys, .hif, .cyc, .cle, .chg, .dpx, .dpx2, .mir, .saf, .tly, .mm, .boot, .outbox] P)  (h : OnlyChanges P s₀ t) :
    OnlyChanges P s₀ (State.decideTakeover t) := by
  unfold State.decideTakeover
  repeat' (first
    | with_reducible assumption
    | with_reducible (refine takeover_only (hP.step (by decide)) ?_)
    | with_reducible (refine OnlyChanges.foldl ?_ (fun u a h => ?_))
    | (extract_lets +onlyGivenNames x; first | (refine OnlyChanges.cut x ?_ (fun h => ?_); (on_goal 2 => clear_value x); (on_goal 1 => subst x)) | clear_value x)
    | split
    | with_reducible (refine OnlyChanges.snd ?_)
    | with_reducible (refine OnlyChanges.fst ?_)
    | with_reducible (refine OnlyChanges.hres ?_)
    | ((with_reducible (refine OnlyChanges.upd ?_ (fun p hp => ?_))); on_goal 2 => (cases p <;> first | exact rfl | exact absurd (hP _ (by decide)) hp)))

theorem holdUnfed_only {P : List Part} {s₀ : State}  {t : State} (hP : Within [.tim] P)  (h : OnlyChanges P s₀ t) :
    OnlyChanges P s₀ (State.holdUnfed t) := by
  unfold State.holdUnfed
  repeat' (first
    | with_reducible assumption
    | with_reducible (refine OnlyChanges.foldl ?_ (fun u a h => ?_))
    | (extract_lets +onlyGivenNames x; first | (refine OnlyChanges.cut x ?_ (fun h => ?_); (on_goal 2 => clear_value x); (on_goal 1 => subst x)) | clear_value x)
    | split
    | with_reducible (refine OnlyChanges.snd ?_)
    | with_reducible (refine OnlyChanges.fst ?_)
    | with_reducible (refine OnlyChanges.hres ?_)
    | ((with_reducible (refine OnlyChanges.upd ?_ (fun p hp => ?_))); on_goal 2 => (cases p <;> first | exact rfl | exact absurd (hP _ (by decide)) hp)))

theorem bothDown_only {P : List Part} {s₀ : State}  {t : State} (hP : Within [.sys, .hif, .cyc, .cle, .chg, .dpx, .dpx2, .mir, .tim, .saf, .tly, .mm, .boot, .outbox] P)  (h : OnlyChanges P s₀ t) :
    OnlyChanges P s₀ (State.bothDown t) := by
  unfold State.bothDown
  repeat' (first
    | with_reducible assumption
    | with_reducible (refine holdUnfed_only (hP.step (by decide)) ?_)
    | with_reducible (refine takeover_only (hP.step (by decide)) ?_)
    | with_reducible (refine updDpx_only (hP.step (by decide)) ?_)
    | with_reducible (refine endInsync_only (hP.step (by decide)) ?_)
    | with_reducible (refine setSync_only (hP.step (by decide)) ?_)
    | with_reducible (refine OnlyChanges.foldl ?_ (fun u a h => ?_))
    | (extract_lets +onlyGivenNames x; first | (refine OnlyChanges.cut x ?_ (fun h => ?_); (on_goal 2 => clear_value x); (on_goal 1 => subst x)) | clear_value x)
    | split
    | with_reducible (refine OnlyChanges.snd ?_)
    | with_reducible (refine OnlyChanges.fst ?_)
    | with_reducible (refine OnlyChanges.hres ?_)
    | ((with_reducible (refine OnlyChanges.upd ?_ (fun p hp => ?_))); on_goal 2 => (cases p <;> first | exact rfl | exact absurd (hP _ (by decide)) hp)))

theorem laneDown_only {P : List Part} {s₀ : State} {x0 : Bool} {x1 : Nat} {t : State} (hP : Within [.dpx, .tly] P)  (h : OnlyChanges P s₀ t) :
    OnlyChanges P s₀ (State.laneDown x0 x1 t) := by
  unfold State.laneDown
  repeat' (first
    | with_reducible assumption
    | with_reducible (refine updDpx_only (hP.step (by decide)) ?_)
    | with_reducible (refine log_only (hP.step (by decide)) ?_)
    | with_reducible (refine OnlyChanges.foldl ?_ (fun u a h => ?_))
    | (extract_lets +onlyGivenNames x; first | (refine OnlyChanges.cut x ?_ (fun h => ?_); (on_goal 2 => clear_value x); (on_goal 1 => subst x)) | clear_value x)
    | split
    | with_reducible (refine OnlyChanges.snd ?_)
    | with_reducible (refine OnlyChanges.fst ?_)
    | with_reducible (refine OnlyChanges.hres ?_)
    | ((with_reducible (refine OnlyChanges.upd ?_ (fun p hp => ?_))); on_goal 2 => (cases p <;> first | exact rfl | exact absurd (hP _ (by decide)) hp)))

theorem missOne_only {P : List Part} {s₀ : State} {x0 : Bool} {t : State} (hP : Within [.dpx] P)  (h : OnlyChanges P s₀ t) :
    OnlyChanges P s₀ (State.missOne x0 t) := by
  unfold State.missOne
  repeat' (first
    | with_reducible assumption
    | with_reducible (refine updDpx_only (hP.step (by decide)) ?_)
    | with_reducible (refine OnlyChanges.foldl ?_ (fun u a h => ?_))
    | (extract_lets +onlyGivenNames x; first | (refine OnlyChanges.cut x ?_ (fun h => ?_); (on_goal 2 => clear_value x); (on_goal 1 => subst x)) | clear_value x)
    | split
    | with_reducible (refine OnlyChanges.snd ?_)
    | with_reducible (refine OnlyChanges.fst ?_)
    | with_reducible (refine OnlyChanges.hres ?_)
    | ((with_reducible (refine OnlyChanges.upd ?_ (fun p hp => ?_))); on_goal 2 => (cases p <;> first | exact rfl | exact absurd (hP _ (by decide)) hp)))

theorem heartbeatMissed_only {P : List Part} {s₀ : State} {x0 : Bool} {t : State} (hP : Within [.sys, .hif, .cyc, .cle, .chg, .dpx, .dpx2, .mir, .tim, .saf, .tly, .mm, .boot, .outbox] P)  (h : OnlyChanges P s₀ t) :
    OnlyChanges P s₀ (State.heartbeatMissed x0 t) := by
  unfold State.heartbeatMissed
  repeat' (first
    | with_reducible assumption
    | with_reducible (refine missOne_only (hP.step (by decide)) ?_)
    | with_reducible (refine laneDown_only (hP.step (by decide)) ?_)
    | with_reducible (refine bothDown_only (hP.step (by decide)) ?_)
    | with_reducible (refine OnlyChanges.foldl ?_ (fun u a h => ?_))
    | (extract_lets +onlyGivenNames x; first | (refine OnlyChanges.cut x ?_ (fun h => ?_); (on_goal 2 => clear_value x); (on_goal 1 => subst x)) | clear_value x)
    | split
    | with_reducible (refine OnlyChanges.snd ?_)
    | with_reducible (refine OnlyChanges.fst ?_)
    | with_reducible (refine OnlyChanges.hres ?_)
    | ((with_reducible (refine OnlyChanges.upd ?_ (fun p hp => ?_))); on_goal 2 => (cases p <;> first | exact rfl | exact absurd (hP _ (by decide)) hp)))

theorem crcError_only {P : List Part} {s₀ : State} {x0 : Bool} {t : State} (hP : Within [.sys, .hif, .cyc, .cle, .chg, .dpx, .dpx2, .mir, .tim, .saf, .tly, .mm, .boot, .outbox] P)  (h : OnlyChanges P s₀ t) :
    OnlyChanges P s₀ (State.crcError x0 t) := by
  unfold State.crcError
  repeat' (first
    | with_reducible assumption
    | with_reducible (refine updDpx_only (hP.step (by decide)) ?_)
    | with_reducible (refine laneDown_only (hP.step (by decide)) ?_)
    | with_reducible (refine bothDown_only (hP.step (by decide)) ?_)
    | with_reducible (refine OnlyChanges.foldl ?_ (fun u a h => ?_))
    | (extract_lets +onlyGivenNames x; first | (refine OnlyChanges.cut x ?_ (fun h => ?_); (on_goal 2 => clear_value x); (on_goal 1 => subst x)) | clear_value x)
    | split
    | with_reducible (refine OnlyChanges.snd ?_)
    | with_reducible (refine OnlyChanges.fst ?_)
    | with_reducible (refine OnlyChanges.hres ?_)
    | ((with_reducible (refine OnlyChanges.upd ?_ (fun p hp => ?_))); on_goal 2 => (cases p <;> first | exact rfl | exact absurd (hP _ (by decide)) hp)))

theorem laneGood_only {P : List Part} {s₀ : State} {x0 : Bool} {t : State} (hP : Within [.dpx, .tly] P)  (h : OnlyChanges P s₀ t) :
    OnlyChanges P s₀ (State.laneGood x0 t) := by
  unfold State.laneGood
  repeat' (first
    | with_reducible assumption
    | with_reducible (refine updDpx_only (hP.step (by decide)) ?_)
    | with_reducible (refine log_only (hP.step (by decide)) ?_)
    | with_reducible (refine OnlyChanges.foldl ?_ (fun u a h => ?_))
    | (extract_lets +onlyGivenNames x; first | (refine OnlyChanges.cut x ?_ (fun h => ?_); (on_goal 2 => clear_value x); (on_goal 1 => subst x)) | clear_value x)
    | split
    | with_reducible (refine OnlyChanges.snd ?_)
    | with_reducible (refine OnlyChanges.fst ?_)
    | with_reducible (refine OnlyChanges.hres ?_)
    | ((with_reducible (refine OnlyChanges.upd ?_ (fun p hp => ?_))); on_goal 2 => (cases p <;> first | exact rfl | exact absurd (hP _ (by decide)) hp)))

theorem notePartner_only {P : List Part} {s₀ : State} {x0 : Bool} {x1 : Hb} {t : State} (hP : Within [.dpx] P)  (h : OnlyChanges P s₀ t) :
    OnlyChanges P s₀ (State.notePartner x0 x1 t) := by
  unfold State.notePartner
  repeat' (first
    | with_reducible assumption
    | with_reducible (refine updDpx_only (hP.step (by decide)) ?_)
    | with_reducible (refine seeEpoch_only (hP.step (by decide)) ?_)
    | with_reducible (refine OnlyChanges.foldl ?_ (fun u a h => ?_))
    | (extract_lets +onlyGivenNames x; first | (refine OnlyChanges.cut x ?_ (fun h => ?_); (on_goal 2 => clear_value x); (on_goal 1 => subst x)) | clear_value x)
    | split
    | with_reducible (refine OnlyChanges.snd ?_)
    | with_reducible (refine OnlyChanges.fst ?_)
    | with_reducible (refine OnlyChanges.hres ?_)
    | ((with_reducible (refine OnlyChanges.upd ?_ (fun p hp => ?_))); on_goal 2 => (cases p <;> first | exact rfl | exact absurd (hP _ (by decide)) hp)))

theorem meetPartner_only {P : List Part} {s₀ : State} {x0 : State → State} {x1 : Hb} {t : State} (hP : Within [.sys, .hif, .cyc, .cle, .dpx, .dpx2, .net, .saf, .tly, .mm, .boot, .outbox] P) (hf0 : ∀ u, OnlyChanges P s₀ u → OnlyChanges P s₀ (x0 u)) (h : OnlyChanges P s₀ t) :
    OnlyChanges P s₀ (State.meetPartner x0 x1 t) := by
  unfold State.meetPartner
  repeat' (first
    | with_reducible assumption
    | with_reducible (refine endBoot_only (hP.step (by decide)) ?_)
    | with_reducible (refine setSync_only (hP.step (by decide)) ?_)
    | with_reducible (refine ringStart_only (hP.step (by decide)) ?_ ?_)
    | with_reducible (refine replayOnce_only (hP.step (by decide)) ?_ ?_)
    | with_reducible (refine OnlyChanges.foldl ?_ (fun u a h => ?_))
    | with_reducible (apply hf0)
    | intro _
    | (extract_lets +onlyGivenNames x; first | (refine OnlyChanges.cut x ?_ (fun h => ?_); (on_goal 2 => clear_value x); (on_goal 1 => subst x)) | clear_value x)
    | split
    | intro _
    | with_reducible (refine OnlyChanges.snd ?_)
    | with_reducible (refine OnlyChanges.fst ?_)
    | with_reducible (refine OnlyChanges.hres ?_)
    | ((with_reducible (refine OnlyChanges.upd ?_ (fun p hp => ?_))); on_goal 2 => (cases p <;> first | exact rfl | exact absurd (hP _ (by decide)) hp)))

theorem assumeRole_only {P : List Part} {s₀ : State} {x0 : State → State} {t : State} (hP : Within [.sys, .cyc, .cle, .dpx, .dpx2, .net, .tly, .boot, .outbox] P) (hf0 : ∀ u, OnlyChanges P s₀ u → OnlyChanges P s₀ (x0 u)) (h : OnlyChanges P s₀ t) :
    OnlyChanges P s₀ (State.assumeRole x0 t) := by
  unfold State.assumeRole
  repeat' (first
    | with_reducible assumption
    | with_reducible (refine replayOnce_only (hP.step (by decide)) ?_ ?_)
    | with_reducible (refine takeEpoch_only (hP.step (by decide)) ?_)
    | with_reducible (refine runClasses_only (hP.step (by decide)) ?_)
    | with_reducible (refine parameterise_only (hP.step (by decide)) ?_)
    | with_reducible (refine OnlyChanges.foldl ?_ (fun u a h => ?_))
    | with_reducible (apply hf0)
    | intro _
    | (extract_lets +onlyGivenNames x; first | (refine OnlyChanges.cut x ?_ (fun h => ?_); (on_goal 2 => clear_value x); (on_goal 1 => subst x)) | clear_value x)
    | split
    | intro _
    | with_reducible (refine OnlyChanges.snd ?_)
    | with_reducible (refine OnlyChanges.fst ?_)
    | with_reducible (refine OnlyChanges.hres ?_)
    | ((with_reducible (refine OnlyChanges.upd ?_ (fun p hp => ?_))); on_goal 2 => (cases p <;> first | exact rfl | exact absurd (hP _ (by decide)) hp)))

theorem sendVersions_only {P : List Part} {s₀ : State}  {t : State} (hP : Within [.dpx2, .outbox] P)  (h : OnlyChanges P s₀ t) :
    OnlyChanges P s₀ (State.sendVersions t) := by
  unfold State.sendVersions
  repeat' (first
    | with_reducible assumption
    | with_reducible (refine sendRec_only (hP.step (by decide)) ?_)
    | with_reducible (refine OnlyChanges.foldl ?_ (fun u a h => ?_))
    | (extract_lets +onlyGivenNames x; first | (refine OnlyChanges.cut x ?_ (fun h => ?_); (on_goal 2 => clear_value x); (on_goal 1 => subst x)) | clear_value x)
    | split
    | with_reducible (refine OnlyChanges.snd ?_)
    | with_reducible (refine OnlyChanges.fst ?_)
    | with_reducible (refine OnlyChanges.hres ?_)
    | ((with_reducible (refine OnlyChanges.upd ?_ (fun p hp => ?_))); on_goal 2 => (cases p <;> first | exact rfl | exact absurd (hP _ (by decide)) hp)))

theorem forgetVersions_only {P : List Part} {s₀ : State}  {t : State} (hP : Within [.dpx2] P)  (h : OnlyChanges P s₀ t) :
    OnlyChanges P s₀ (State.forgetVersions t) := by
  unfold State.forgetVersions
  repeat' (first
    | with_reducible assumption
    | with_reducible (refine OnlyChanges.foldl ?_ (fun u a h => ?_))
    | (extract_lets +onlyGivenNames x; first | (refine OnlyChanges.cut x ?_ (fun h => ?_); (on_goal 2 => clear_value x); (on_goal 1 => subst x)) | clear_value x)
    | split
    | with_reducible (refine OnlyChanges.snd ?_)
    | with_reducible (refine OnlyChanges.fst ?_)
    | with_reducible (refine OnlyChanges.hres ?_)
    | ((with_reducible (refine OnlyChanges.upd ?_ (fun p hp => ?_))); on_goal 2 => (cases p <;> first | exact rfl | exact absurd (hP _ (by decide)) hp)))

theorem followPartner_only {P : List Part} {s₀ : State} {x0 : State → State} {x1 : Hb} {t : State} (hP : Within [.sys, .hif, .cyc, .cle, .chg, .dpx, .dpx2, .mir, .net, .saf, .tly, .mm, .boot, .outbox] P) (hf0 : ∀ u, OnlyChanges P s₀ u → OnlyChanges P s₀ (x0 u)) (h : OnlyChanges P s₀ t) :
    OnlyChanges P s₀ (State.followPartner x0 x1 t) := by
  unfold State.followPartner
  repeat' (first
    | with_reducible assumption
    | with_reducible (refine endInsync_only (hP.step (by decide)) ?_)
    | with_reducible (refine forgetVersions_only (hP.step (by decide)) ?_)
    | with_reducible (refine setSync_only (hP.step (by decide)) ?_)
    | with_reducible (refine setMode_only (hP.step (by decide)) ?_)
    | with_reducible (refine takeover_only (hP.step (by decide)) ?_)
    | with_reducible (refine assumeRole_only (hP.step (by decide)) ?_ ?_)
    | with_reducible (refine OnlyChanges.foldl ?_ (fun u a h => ?_))
    | with_reducible (apply hf0)
    | intro _
    | (extract_lets +onlyGivenNames x; first | (refine OnlyChanges.cut x ?_ (fun h => ?_); (on_goal 2 => clear_value x); (on_goal 1 => subst x)) | clear_value x)
    | split
    | intro _
    | with_reducible (refine OnlyChanges.snd ?_)
    | with_reducible (refine OnlyChanges.fst ?_)
    | with_reducible (refine OnlyChanges.hres ?_)
    | ((with_reducible (refine OnlyChanges.upd ?_ (fun p hp => ?_))); on_goal 2 => (cases p <;> first | exact rfl | exact absurd (hP _ (by decide)) hp)))

theorem takeHeartbeat_only {P : List Part} {s₀ : State} {x0 : State → State} {x1 : Bool → Hb → State → State} {x2 : Bool} {x3 : Hb} {t : State} (hP : Within [.sys, .hif, .cyc, .cle, .chg, .dpx, .dpx2, .mir, .net, .saf, .tly, .mm, .boot, .outbox] P) (hf0 : ∀ u, OnlyChanges P s₀ u → OnlyChanges P s₀ (x0 u)) (hf1 : ∀ a c u, OnlyChanges P s₀ u → OnlyChanges P s₀ (x1 a c u)) (h : OnlyChanges P s₀ t) :
    OnlyChanges P s₀ (State.takeHeartbeat x0 x1 x2 x3 t) := by
  unfold State.takeHeartbeat
  repeat' (first
    | with_reducible assumption
    | with_reducible (refine laneGood_only (hP.step (by decide)) ?_)
    | with_reducible (refine notePartner_only (hP.step (by decide)) ?_)
    | with_reducible (refine meetPartner_only (hP.step (by decide)) ?_ ?_)
    | with_reducible (refine followPartner_only (hP.step (by decide)) ?_ ?_)
    | with_reducible (refine OnlyChanges.foldl ?_ (fun u a h => ?_))
    | with_reducible (apply hf0)
    | with_reducible (apply hf1)
    | intro _
    | (extract_lets +onlyGivenNames x; first | (refine OnlyChanges.cut x ?_ (fun h => ?_); (on_goal 2 => clear_value x); (on_goal 1 => subst x)) | clear_value x)
    | split
    | intro _
    | with_reducible (refine OnlyChanges.snd ?_)
    | with_reducible (refine OnlyChanges.fst ?_)
    | with_reducible (refine OnlyChanges.hres ?_)
    | ((with_reducible (refine OnlyChanges.upd ?_ (fun p hp => ?_))); on_goal 2 => (cases p <;> first | exact rfl | exact absurd (hP _ (by decide)) hp)))

theorem heartbeatIn_only {P : List Part} {s₀ : State} {x0 : State → State} {x1 : Bool → Hb → State → State} {x2 : Bool} {x3 : Hb} {t : State} (hP : Within [.sys, .hif, .cyc, .cle, .chg, .dpx, .dpx2, .mir, .net, .tim, .saf, .tly, .mm, .boot, .outbox] P) (hf0 : ∀ u, OnlyChanges P s₀ u → OnlyChanges P s₀ (x0 u)) (hf1 : ∀ a c u, OnlyChanges P s₀ u → OnlyChanges P s₀ (x1 a c u)) (h : OnlyChanges P s₀ t) :
    OnlyChanges P s₀ (State.heartbeatIn x0 x1 x2 x3 t) := by
  unfold State.heartbeatIn
  repeat' (first
    | with_reducible assumption
    | with_reducible (refine crcError_only (hP.step (by decide)) ?_)
    | with_reducible (refine takeHeartbeat_only (hP.step (by decide)) ?_ ?_ ?_)
    | with_reducible (refine OnlyChanges.foldl ?_ (fun u a h => ?_))
    | with_reducible (apply hf0)
    | with_reducible (apply hf1)
    | intro _
    | (extract_lets +onlyGivenNames x; first | (refine OnlyChanges.cut x ?_ (fun h => ?_); (on_goal 2 => clear_value x); (on_goal 1 => subst x)) | clear_value x)
    | split
    | intro _
    | with_reducible (refine OnlyChanges.snd ?_)
    | with_reducible (refine OnlyChanges.fst ?_)
    | with_reducible (refine OnlyChanges.hres ?_)
    | ((with_reducible (refine OnlyChanges.upd ?_ (fun p hp => ?_))); on_goal 2 => (cases p <;> first | exact rfl | exact absurd (hP _ (by decide)) hp)))

theorem noPartnerFound_only {P : List Part} {s₀ : State}  {t : State} (hP : Within [.sys, .hif, .cyc, .cle, .dpx, .dpx2, .net, .saf, .tly, .mm, .boot, .outbox] P)  (h : OnlyChanges P s₀ t) :
    OnlyChanges P s₀ (State.noPartnerFound t) := by
  unfold State.noPartnerFound
  repeat' (first
    | with_reducible assumption
    | with_reducible (refine endBoot_only (hP.step (by decide)) ?_)
    | with_reducible (refine setSync_only (hP.step (by decide)) ?_)
    | with_reducible (refine OnlyChanges.foldl ?_ (fun u a h => ?_))
    | (extract_lets +onlyGivenNames x; first | (refine OnlyChanges.cut x ?_ (fun h => ?_); (on_goal 2 => clear_value x); (on_goal 1 => subst x)) | clear_value x)
    | split
    | with_reducible (refine OnlyChanges.snd ?_)
    | with_reducible (refine OnlyChanges.fst ?_)
    | with_reducible (refine OnlyChanges.hres ?_)
    | ((with_reducible (refine OnlyChanges.upd ?_ (fun p hp => ?_))); on_goal 2 => (cases p <;> first | exact rfl | exact absurd (hP _ (by decide)) hp)))

theorem heardWhileListening_only {P : List Part} {s₀ : State}  {t : State} (hP : Within [.sys, .hif, .cyc, .cle, .dpx, .dpx2, .net, .saf, .tly, .mm, .boot, .outbox] P)  (h : OnlyChanges P s₀ t) :
    OnlyChanges P s₀ (State.heardWhileListening t) := by
  unfold State.heardWhileListening
  repeat' (first
    | with_reducible assumption
    | with_reducible (refine endBoot_only (hP.step (by decide)) ?_)
    | with_reducible (refine setSync_only (hP.step (by decide)) ?_)
    | with_reducible (refine OnlyChanges.foldl ?_ (fun u a h => ?_))
    | (extract_lets +onlyGivenNames x; first | (refine OnlyChanges.cut x ?_ (fun h => ?_); (on_goal 2 => clear_value x); (on_goal 1 => subst x)) | clear_value x)
    | split
    | with_reducible (refine OnlyChanges.snd ?_)
    | with_reducible (refine OnlyChanges.fst ?_)
    | with_reducible (refine OnlyChanges.hres ?_)
    | ((with_reducible (refine OnlyChanges.upd ?_ (fun p hp => ?_))); on_goal 2 => (cases p <;> first | exact rfl | exact absurd (hP _ (by decide)) hp)))

theorem absentExpired_only {P : List Part} {s₀ : State} {x0 : State → State} {t : State} (hP : Within [.sys, .hif, .cyc, .cle, .dpx, .dpx2, .net, .saf, .tly, .mm, .boot, .outbox] P) (hf0 : ∀ u, OnlyChanges P s₀ u → OnlyChanges P s₀ (x0 u)) (h : OnlyChanges P s₀ t) :
    OnlyChanges P s₀ (State.absentExpired x0 t) := by
  unfold State.absentExpired
  repeat' (first
    | with_reducible assumption
    | with_reducible (refine ringStart_only (hP.step (by decide)) ?_ ?_)
    | with_reducible (refine replayOnce_only (hP.step (by decide)) ?_ ?_)
    | with_reducible (refine endBoot_only (hP.step (by decide)) ?_)
    | with_reducible (refine setSync_only (hP.step (by decide)) ?_)
    | with_reducible (refine OnlyChanges.foldl ?_ (fun u a h => ?_))
    | with_reducible (apply hf0)
    | intro _
    | (extract_lets +onlyGivenNames x; first | (refine OnlyChanges.cut x ?_ (fun h => ?_); (on_goal 2 => clear_value x); (on_goal 1 => subst x)) | clear_value x)
    | split
    | intro _
    | with_reducible (refine OnlyChanges.snd ?_)
    | with_reducible (refine OnlyChanges.fst ?_)
    | with_reducible (refine OnlyChanges.hres ?_)
    | ((with_reducible (refine OnlyChanges.upd ?_ (fun p hp => ?_))); on_goal 2 => (cases p <;> first | exact rfl | exact absurd (hP _ (by decide)) hp)))

theorem claimRole_only {P : List Part} {s₀ : State} {x0 : State → State} {t : State} (hP : Within [.sys, .cyc, .cle, .dpx, .dpx2, .net, .tly, .boot, .outbox] P) (hf0 : ∀ u, OnlyChanges P s₀ u → OnlyChanges P s₀ (x0 u)) (h : OnlyChanges P s₀ t) :
    OnlyChanges P s₀ (State.claimRole x0 t) := by
  unfold State.claimRole
  repeat' (first
    | with_reducible assumption
    | with_reducible (refine assumeRole_only (hP.step (by decide)) ?_ ?_)
    | with_reducible (refine setSync_only (hP.step (by decide)) ?_)
    | with_reducible (refine log_only (hP.step (by decide)) ?_)
    | with_reducible (refine OnlyChanges.foldl ?_ (fun u a h => ?_))
    | with_reducible (apply hf0)
    | intro _
    | (extract_lets +onlyGivenNames x; first | (refine OnlyChanges.cut x ?_ (fun h => ?_); (on_goal 2 => clear_value x); (on_goal 1 => subst x)) | clear_value x)
    | split
    | intro _
    | with_reducible (refine OnlyChanges.snd ?_)
    | with_reducible (refine OnlyChanges.fst ?_)
    | with_reducible (refine OnlyChanges.hres ?_)
    | ((with_reducible (refine OnlyChanges.upd ?_ (fun p hp => ?_))); on_goal 2 => (cases p <;> first | exact rfl | exact absurd (hP _ (by decide)) hp)))

theorem claimWord_only {P : List Part} {s₀ : State} {x0 : State → State} {x1 : Word} {t : State} (hP : Within [.sys, .cyc, .cle, .dpx, .dpx2, .net, .tly, .boot, .outbox] P) (hf0 : ∀ u, OnlyChanges P s₀ u → OnlyChanges P s₀ (x0 u)) (h : OnlyChanges P s₀ t) :
    OnlyChanges P s₀ (State.claimWord x0 x1 t) := by
  unfold State.claimWord
  repeat' (first
    | with_reducible assumption
    | with_reducible (refine seqErr_only (hP.step (by decide)) ?_)
    | with_reducible (refine claimRole_only (hP.step (by decide)) ?_ ?_)
    | with_reducible (refine OnlyChanges.foldl ?_ (fun u a h => ?_))
    | with_reducible (apply hf0)
    | intro _
    | (extract_lets +onlyGivenNames x; first | (refine OnlyChanges.cut x ?_ (fun h => ?_); (on_goal 2 => clear_value x); (on_goal 1 => subst x)) | clear_value x)
    | split
    | intro _
    | with_reducible (refine OnlyChanges.snd ?_)
    | with_reducible (refine OnlyChanges.fst ?_)
    | with_reducible (refine OnlyChanges.hres ?_)
    | ((with_reducible (refine OnlyChanges.upd ?_ (fun p hp => ?_))); on_goal 2 => (cases p <;> first | exact rfl | exact absurd (hP _ (by decide)) hp)))

end Sys2Proof.Laws
end

