-- ==== Sys2Proof/Laws/OnlyNet.lean ====
section
/-! SUPPORT. What each operation of Net.lean may change: one frame per operation. -/

set_option linter.unusedTactic false
set_option linter.unreachableTactic false
set_option linter.unusedVariables false
set_option linter.tactic.unusedName false

namespace Sys2Proof.Laws

open Sys2Proof.Machine Sys2Proof.Safety

theorem ringHeld_only {P : List Part} {s₀ : State} {x0 : Nat} {t : State} (hP : Within [.net] P)  (h : OnlyChanges P s₀ t) :
    OnlyChanges P s₀ (State.ringHeld x0 t) := by
  unfold State.ringHeld
  repeat' (first
    | with_reducible assumption
    | with_reducible (refine updRingN_only (hP.step (by decide)) ?_)
    | with_reducible (refine OnlyChanges.foldl ?_ (fun u a h => ?_))
    | (extract_lets +onlyGivenNames x; first | (refine OnlyChanges.cut x ?_ (fun h => ?_); (on_goal 2 => clear_value x); (on_goal 1 => subst x)) | clear_value x)
    | split
    | with_reducible (refine OnlyChanges.snd ?_)
    | with_reducible (refine OnlyChanges.fst ?_)
    | with_reducible (refine OnlyChanges.hres ?_)
    | ((with_reducible (refine OnlyChanges.upd ?_ (fun p hp => ?_))); on_goal 2 => (cases p <;> first | exact rfl | exact absurd (hP _ (by decide)) hp)))

theorem linkUp_only {P : List Part} {s₀ : State} {x0 : Nat} {x1 : BitVec 2} {x2 : Bool} {x3 : Bool} {x4 : List Byte} {t : State} (hP : Within [.net, .tly] P)  (h : OnlyChanges P s₀ t) :
    OnlyChanges P s₀ (State.linkUp x0 x1 x2 x3 x4 t) := by
  unfold State.linkUp
  repeat' (first
    | with_reducible assumption
    | with_reducible (refine ringHeld_only (hP.step (by decide)) ?_)
    | with_reducible (refine log_only (hP.step (by decide)) ?_)
    | with_reducible (refine OnlyChanges.foldl ?_ (fun u a h => ?_))
    | (extract_lets +onlyGivenNames x; first | (refine OnlyChanges.cut x ?_ (fun h => ?_); (on_goal 2 => clear_value x); (on_goal 1 => subst x)) | clear_value x)
    | split
    | with_reducible (refine OnlyChanges.snd ?_)
    | with_reducible (refine OnlyChanges.fst ?_)
    | with_reducible (refine OnlyChanges.hres ?_)
    | ((with_reducible (refine OnlyChanges.upd ?_ (fun p hp => ?_))); on_goal 2 => (cases p <;> first | exact rfl | exact absurd (hP _ (by decide)) hp)))

theorem linkDown_only {P : List Part} {s₀ : State} {x0 : Nat} {t : State} (hP : Within [.net] P)  (h : OnlyChanges P s₀ t) :
    OnlyChanges P s₀ (State.linkDown x0 t) := by
  unfold State.linkDown
  repeat' (first
    | with_reducible assumption
    | with_reducible (refine OnlyChanges.foldl ?_ (fun u a h => ?_))
    | (extract_lets +onlyGivenNames x; first | (refine OnlyChanges.cut x ?_ (fun h => ?_); (on_goal 2 => clear_value x); (on_goal 1 => subst x)) | clear_value x)
    | split
    | with_reducible (refine OnlyChanges.snd ?_)
    | with_reducible (refine OnlyChanges.fst ?_)
    | with_reducible (refine OnlyChanges.hres ?_)
    | ((with_reducible (refine OnlyChanges.upd ?_ (fun p hp => ?_))); on_goal 2 => (cases p <;> first | exact rfl | exact absurd (hP _ (by decide)) hp)))

theorem sendBeacon_only {P : List Part} {s₀ : State} {x0 : Nat} {t : State} (hP : Within [.net, .outbox] P)  (h : OnlyChanges P s₀ t) :
    OnlyChanges P s₀ (State.sendBeacon x0 t) := by
  unfold State.sendBeacon
  repeat' (first
    | with_reducible assumption
    | with_reducible (refine sendFrame_only (hP.step (by decide)) ?_)
    | with_reducible (refine OnlyChanges.foldl ?_ (fun u a h => ?_))
    | (extract_lets +onlyGivenNames x; first | (refine OnlyChanges.cut x ?_ (fun h => ?_); (on_goal 2 => clear_value x); (on_goal 1 => subst x)) | clear_value x)
    | split
    | with_reducible (refine OnlyChanges.snd ?_)
    | with_reducible (refine OnlyChanges.fst ?_)
    | with_reducible (refine OnlyChanges.hres ?_)
    | ((with_reducible (refine OnlyChanges.upd ?_ (fun p hp => ?_))); on_goal 2 => (cases p <;> first | exact rfl | exact absurd (hP _ (by decide)) hp)))

theorem sendBeacons_only {P : List Part} {s₀ : State}  {t : State} (hP : Within [.net, .outbox] P)  (h : OnlyChanges P s₀ t) :
    OnlyChanges P s₀ (State.sendBeacons t) := by
  unfold State.sendBeacons
  repeat' (first
    | with_reducible assumption
    | with_reducible (refine sendBeacon_only (hP.step (by decide)) ?_)
    | with_reducible (refine OnlyChanges.foldl ?_ (fun u a h => ?_))
    | (extract_lets +onlyGivenNames x; first | (refine OnlyChanges.cut x ?_ (fun h => ?_); (on_goal 2 => clear_value x); (on_goal 1 => subst x)) | clear_value x)
    | split
    | with_reducible (refine OnlyChanges.snd ?_)
    | with_reducible (refine OnlyChanges.fst ?_)
    | with_reducible (refine OnlyChanges.hres ?_)
    | ((with_reducible (refine OnlyChanges.upd ?_ (fun p hp => ?_))); on_goal 2 => (cases p <;> first | exact rfl | exact absurd (hP _ (by decide)) hp)))

theorem superviseRing_only {P : List Part} {s₀ : State} {x0 : Nat} {t : State} (hP : Within [.net, .tly] P)  (h : OnlyChanges P s₀ t) :
    OnlyChanges P s₀ (State.superviseRing x0 t) := by
  unfold State.superviseRing
  repeat' (first
    | with_reducible assumption
    | with_reducible (refine updRingN_only (hP.step (by decide)) ?_)
    | with_reducible (refine log_only (hP.step (by decide)) ?_)
    | with_reducible (refine OnlyChanges.foldl ?_ (fun u a h => ?_))
    | (extract_lets +onlyGivenNames x; first | (refine OnlyChanges.cut x ?_ (fun h => ?_); (on_goal 2 => clear_value x); (on_goal 1 => subst x)) | clear_value x)
    | split
    | with_reducible (refine OnlyChanges.snd ?_)
    | with_reducible (refine OnlyChanges.fst ?_)
    | with_reducible (refine OnlyChanges.hres ?_)
    | ((with_reducible (refine OnlyChanges.upd ?_ (fun p hp => ?_))); on_goal 2 => (cases p <;> first | exact rfl | exact absurd (hP _ (by decide)) hp)))

theorem countAbsent_only {P : List Part} {s₀ : State}  {t : State} (hP : Within [.dpx, .dpx2] P)  (h : OnlyChanges P s₀ t) :
    OnlyChanges P s₀ (State.countAbsent t) := by
  unfold State.countAbsent
  repeat' (first
    | with_reducible assumption
    | with_reducible (refine OnlyChanges.foldl ?_ (fun u a h => ?_))
    | (extract_lets +onlyGivenNames x; first | (refine OnlyChanges.cut x ?_ (fun h => ?_); (on_goal 2 => clear_value x); (on_goal 1 => subst x)) | clear_value x)
    | split
    | with_reducible (refine OnlyChanges.snd ?_)
    | with_reducible (refine OnlyChanges.fst ?_)
    | with_reducible (refine OnlyChanges.hres ?_)
    | ((with_reducible (refine OnlyChanges.upd ?_ (fun p hp => ?_))); on_goal 2 => (cases p <;> first | exact rfl | exact absurd (hP _ (by decide)) hp)))

theorem showAbsent_only {P : List Part} {s₀ : State}  {t : State} (hP : Within [.dpx] P)  (h : OnlyChanges P s₀ t) :
    OnlyChanges P s₀ (State.showAbsent t) := by
  unfold State.showAbsent
  repeat' (first
    | with_reducible assumption
    | with_reducible (refine OnlyChanges.foldl ?_ (fun u a h => ?_))
    | (extract_lets +onlyGivenNames x; first | (refine OnlyChanges.cut x ?_ (fun h => ?_); (on_goal 2 => clear_value x); (on_goal 1 => subst x)) | clear_value x)
    | split
    | with_reducible (refine OnlyChanges.snd ?_)
    | with_reducible (refine OnlyChanges.fst ?_)
    | with_reducible (refine OnlyChanges.hres ?_)
    | ((with_reducible (refine OnlyChanges.upd ?_ (fun p hp => ?_))); on_goal 2 => (cases p <;> first | exact rfl | exact absurd (hP _ (by decide)) hp)))

theorem reportAbsent_only {P : List Part} {s₀ : State}  {t : State} (hP : Within [.dpx2, .outbox] P)  (h : OnlyChanges P s₀ t) :
    OnlyChanges P s₀ (State.reportAbsent t) := by
  unfold State.reportAbsent
  repeat' (first
    | with_reducible assumption
    | with_reducible (refine notice_only (hP.step (by decide)) ?_)
    | with_reducible (refine OnlyChanges.foldl ?_ (fun u a h => ?_))
    | (extract_lets +onlyGivenNames x; first | (refine OnlyChanges.cut x ?_ (fun h => ?_); (on_goal 2 => clear_value x); (on_goal 1 => subst x)) | clear_value x)
    | split
    | with_reducible (refine OnlyChanges.snd ?_)
    | with_reducible (refine OnlyChanges.fst ?_)
    | with_reducible (refine OnlyChanges.hres ?_)
    | ((with_reducible (refine OnlyChanges.upd ?_ (fun p hp => ?_))); on_goal 2 => (cases p <;> first | exact rfl | exact absurd (hP _ (by decide)) hp)))

theorem standbySlot_only {P : List Part} {s₀ : State}  {t : State} (hP : Within [.sys, .hif, .cyc, .cle, .chg, .dpx, .dpx2, .mir, .saf, .tly, .mm, .boot, .outbox] P)  (h : OnlyChanges P s₀ t) :
    OnlyChanges P s₀ (State.standbySlot t) := by
  unfold State.standbySlot
  repeat' (first
    | with_reducible assumption
    | with_reducible (refine countAbsent_only (hP.step (by decide)) ?_)
    | with_reducible (refine showAbsent_only (hP.step (by decide)) ?_)
    | with_reducible (refine takeover_only (hP.step (by decide)) ?_)
    | with_reducible (refine reportAbsent_only (hP.step (by decide)) ?_)
    | with_reducible (refine OnlyChanges.foldl ?_ (fun u a h => ?_))
    | (extract_lets +onlyGivenNames x; first | (refine OnlyChanges.cut x ?_ (fun h => ?_); (on_goal 2 => clear_value x); (on_goal 1 => subst x)) | clear_value x)
    | split
    | with_reducible (refine OnlyChanges.snd ?_)
    | with_reducible (refine OnlyChanges.fst ?_)
    | with_reducible (refine OnlyChanges.hres ?_)
    | ((with_reducible (refine OnlyChanges.upd ?_ (fun p hp => ?_))); on_goal 2 => (cases p <;> first | exact rfl | exact absurd (hP _ (by decide)) hp)))

theorem beaconSlot_only {P : List Part} {s₀ : State}  {t : State} (hP : Within [.sys, .hif, .cyc, .cle, .chg, .dpx, .dpx2, .mir, .net, .saf, .tly, .mm, .boot, .outbox] P)  (h : OnlyChanges P s₀ t) :
    OnlyChanges P s₀ (State.beaconSlot t) := by
  unfold State.beaconSlot
  repeat' (first
    | with_reducible assumption
    | with_reducible (refine sendBeacons_only (hP.step (by decide)) ?_)
    | with_reducible (refine superviseRing_only (hP.step (by decide)) ?_)
    | with_reducible (refine standbySlot_only (hP.step (by decide)) ?_)
    | with_reducible (refine OnlyChanges.foldl ?_ (fun u a h => ?_))
    | (extract_lets +onlyGivenNames x; first | (refine OnlyChanges.cut x ?_ (fun h => ?_); (on_goal 2 => clear_value x); (on_goal 1 => subst x)) | clear_value x)
    | split
    | with_reducible (refine OnlyChanges.snd ?_)
    | with_reducible (refine OnlyChanges.fst ?_)
    | with_reducible (refine OnlyChanges.hres ?_)
    | ((with_reducible (refine OnlyChanges.upd ?_ (fun p hp => ?_))); on_goal 2 => (cases p <;> first | exact rfl | exact absurd (hP _ (by decide)) hp)))

theorem noteDirection_only {P : List Part} {s₀ : State} {x0 : Kcp} {t : State} (hP : Within [.net] P)  (h : OnlyChanges P s₀ t) :
    OnlyChanges P s₀ (State.noteDirection x0 t) := by
  unfold State.noteDirection
  repeat' (first
    | with_reducible assumption
    | with_reducible (refine updRingN_only (hP.step (by decide)) ?_)
    | with_reducible (refine OnlyChanges.foldl ?_ (fun u a h => ?_))
    | (extract_lets +onlyGivenNames x; first | (refine OnlyChanges.cut x ?_ (fun h => ?_); (on_goal 2 => clear_value x); (on_goal 1 => subst x)) | clear_value x)
    | split
    | with_reducible (refine OnlyChanges.snd ?_)
    | with_reducible (refine OnlyChanges.fst ?_)
    | with_reducible (refine OnlyChanges.hres ?_)
    | ((with_reducible (refine OnlyChanges.upd ?_ (fun p hp => ?_))); on_goal 2 => (cases p <;> first | exact rfl | exact absurd (hP _ (by decide)) hp)))

theorem noteBeacon_only {P : List Part} {s₀ : State} {x0 : Kcp} {t : State} (hP : Within [.dpx, .dpx2] P)  (h : OnlyChanges P s₀ t) :
    OnlyChanges P s₀ (State.noteBeacon x0 t) := by
  unfold State.noteBeacon
  repeat' (first
    | with_reducible assumption
    | with_reducible (refine OnlyChanges.foldl ?_ (fun u a h => ?_))
    | (extract_lets +onlyGivenNames x; first | (refine OnlyChanges.cut x ?_ (fun h => ?_); (on_goal 2 => clear_value x); (on_goal 1 => subst x)) | clear_value x)
    | split
    | with_reducible (refine OnlyChanges.snd ?_)
    | with_reducible (refine OnlyChanges.fst ?_)
    | with_reducible (refine OnlyChanges.hres ?_)
    | ((with_reducible (refine OnlyChanges.upd ?_ (fun p hp => ?_))); on_goal 2 => (cases p <;> first | exact rfl | exact absurd (hP _ (by decide)) hp)))

theorem useBeacon_only {P : List Part} {s₀ : State} {x0 : Kcp} {t : State} (hP : Within [.sys, .hif, .cyc, .lsp, .cle, .chg, .dpx, .dpx2, .mir, .net, .saf, .tly, .mm, .boot, .outbox] P)  (h : OnlyChanges P s₀ t) :
    OnlyChanges P s₀ (State.useBeacon x0 t) := by
  unfold State.useBeacon
  repeat' (first
    | with_reducible assumption
    | with_reducible (refine meetEpoch_only (hP.step (by decide)) ?_)
    | with_reducible (refine seeEpoch_only (hP.step (by decide)) ?_)
    | with_reducible (refine heardWhileListening_only (hP.step (by decide)) ?_)
    | with_reducible (refine OnlyChanges.foldl ?_ (fun u a h => ?_))
    | (extract_lets +onlyGivenNames x; first | (refine OnlyChanges.cut x ?_ (fun h => ?_); (on_goal 2 => clear_value x); (on_goal 1 => subst x)) | clear_value x)
    | split
    | with_reducible (refine OnlyChanges.snd ?_)
    | with_reducible (refine OnlyChanges.fst ?_)
    | with_reducible (refine OnlyChanges.hres ?_)
    | ((with_reducible (refine OnlyChanges.upd ?_ (fun p hp => ?_))); on_goal 2 => (cases p <;> first | exact rfl | exact absurd (hP _ (by decide)) hp)))

theorem ringDelay_only {P : List Part} {s₀ : State} {x0 : Nat} {t : State} (hP : Within [.tim] P)  (h : OnlyChanges P s₀ t) :
    OnlyChanges P s₀ (State.ringDelay x0 t) := by
  unfold State.ringDelay
  repeat' (first
    | with_reducible assumption
    | with_reducible (refine OnlyChanges.foldl ?_ (fun u a h => ?_))
    | (extract_lets +onlyGivenNames x; first | (refine OnlyChanges.cut x ?_ (fun h => ?_); (on_goal 2 => clear_value x); (on_goal 1 => subst x)) | clear_value x)
    | split
    | with_reducible (refine OnlyChanges.snd ?_)
    | with_reducible (refine OnlyChanges.fst ?_)
    | with_reducible (refine OnlyChanges.hres ?_)
    | ((with_reducible (refine OnlyChanges.upd ?_ (fun p hp => ?_))); on_goal 2 => (cases p <;> first | exact rfl | exact absurd (hP _ (by decide)) hp)))

theorem beaconIn_only {P : List Part} {s₀ : State} {x0 : Kcp} {t : State} (hP : Within [.sys, .hif, .cyc, .lsp, .cle, .chg, .dpx, .dpx2, .mir, .net, .tim, .saf, .tly, .mm, .boot, .outbox] P)  (h : OnlyChanges P s₀ t) :
    OnlyChanges P s₀ (State.beaconIn x0 t) := by
  unfold State.beaconIn
  repeat' (first
    | with_reducible assumption
    | with_reducible (refine fcsBad_only (hP.step (by decide)) ?_)
    | with_reducible (refine discFrame_only (hP.step (by decide)) ?_)
    | with_reducible (refine noteDirection_only (hP.step (by decide)) ?_)
    | with_reducible (refine noteBeacon_only (hP.step (by decide)) ?_)
    | with_reducible (refine ringDelay_only (hP.step (by decide)) ?_)
    | with_reducible (refine eliminate_only (hP.step (by decide)) ?_)
    | with_reducible (refine useBeacon_only (hP.step (by decide)) ?_)
    | with_reducible (refine OnlyChanges.foldl ?_ (fun u a h => ?_))
    | (extract_lets +onlyGivenNames x; first | (refine OnlyChanges.cut x ?_ (fun h => ?_); (on_goal 2 => clear_value x); (on_goal 1 => subst x)) | (refine OnlyChanges.cut x.2 ?_ (fun h => ?_); (on_goal 2 => clear_value x); (on_goal 1 => subst x)) | clear_value x)
    | (generalize he : State.eliminate _ _ _ = e; have k : OnlyChanges P s₀ e.2 := (by rw [← he]; refine eliminate_only (hP.step (by decide)) ?_ <;> with_reducible assumption); clear he; obtain ⟨a, u⟩ := e; dsimp -zeta only at k ⊢)
    | split
    | with_reducible (refine OnlyChanges.snd ?_)
    | with_reducible (refine OnlyChanges.fst ?_)
    | with_reducible (refine OnlyChanges.hres ?_)
    | ((with_reducible (refine OnlyChanges.upd ?_ (fun p hp => ?_))); on_goal 2 => (cases p <;> first | exact rfl | exact absurd (hP _ (by decide)) hp)))

theorem updSub_only {P : List Part} {s₀ : State} {x0 : Nat} {x1 : Sub → Sub} {t : State} (hP : Within [.net] P)  (h : OnlyChanges P s₀ t) :
    OnlyChanges P s₀ (State.updSub x0 x1 t) := by
  unfold State.updSub
  repeat' (first
    | with_reducible assumption
    | with_reducible (refine OnlyChanges.foldl ?_ (fun u a h => ?_))
    | (extract_lets +onlyGivenNames x; first | (refine OnlyChanges.cut x ?_ (fun h => ?_); (on_goal 2 => clear_value x); (on_goal 1 => subst x)) | clear_value x)
    | split
    | with_reducible (refine OnlyChanges.snd ?_)
    | with_reducible (refine OnlyChanges.fst ?_)
    | with_reducible (refine OnlyChanges.hres ?_)
    | ((with_reducible (refine OnlyChanges.upd ?_ (fun p hp => ?_))); on_goal 2 => (cases p <;> first | exact rfl | exact absurd (hP _ (by decide)) hp)))

theorem takePeer_only {P : List Part} {s₀ : State} {x0 : Kcp} {x1 : Nat} {t : State} (hP : Within [.net] P)  (h : OnlyChanges P s₀ t) :
    OnlyChanges P s₀ (State.takePeer x0 x1 t) := by
  unfold State.takePeer
  repeat' (first
    | with_reducible assumption
    | with_reducible (refine updSub_only (hP.step (by decide)) ?_)
    | with_reducible (refine OnlyChanges.foldl ?_ (fun u a h => ?_))
    | (extract_lets +onlyGivenNames x; first | (refine OnlyChanges.cut x ?_ (fun h => ?_); (on_goal 2 => clear_value x); (on_goal 1 => subst x)) | clear_value x)
    | split
    | with_reducible (refine OnlyChanges.snd ?_)
    | with_reducible (refine OnlyChanges.fst ?_)
    | with_reducible (refine OnlyChanges.hres ?_)
    | ((with_reducible (refine OnlyChanges.upd ?_ (fun p hp => ?_))); on_goal 2 => (cases p <;> first | exact rfl | exact absurd (hP _ (by decide)) hp)))

theorem usePeer_only {P : List Part} {s₀ : State} {x0 : Kcp} {t : State} (hP : Within [.net] P)  (h : OnlyChanges P s₀ t) :
    OnlyChanges P s₀ (State.usePeer x0 t) := by
  unfold State.usePeer
  repeat' (first
    | with_reducible assumption
    | with_reducible (refine discFrame_only (hP.step (by decide)) ?_)
    | with_reducible (refine updSub_only (hP.step (by decide)) ?_)
    | with_reducible (refine takePeer_only (hP.step (by decide)) ?_)
    | with_reducible (refine OnlyChanges.foldl ?_ (fun u a h => ?_))
    | (extract_lets +onlyGivenNames x; first | (refine OnlyChanges.cut x ?_ (fun h => ?_); (on_goal 2 => clear_value x); (on_goal 1 => subst x)) | clear_value x)
    | split
    | with_reducible (refine OnlyChanges.snd ?_)
    | with_reducible (refine OnlyChanges.fst ?_)
    | with_reducible (refine OnlyChanges.hres ?_)
    | ((with_reducible (refine OnlyChanges.upd ?_ (fun p hp => ?_))); on_goal 2 => (cases p <;> first | exact rfl | exact absurd (hP _ (by decide)) hp)))

end Sys2Proof.Laws
end

