-- ==== Sys2Proof/Laws/OnlyCle.lean ====
section
/-! SUPPORT. What each operation of Cle.lean may change: one frame per operation. -/

set_option linter.unusedTactic false
set_option linter.unreachableTactic false
set_option linter.unusedVariables false
set_option linter.tactic.unusedName false

namespace Sys2Proof.Laws

open Sys2Proof.Machine Sys2Proof.Safety

theorem updLoop_only {P : List Part} {s₀ : State} {x0 : Nat} {x1 : Loop → Loop} {t : State} (hP : Within [.cle] P)  (h : OnlyChanges P s₀ t) :
    OnlyChanges P s₀ (State.updLoop x0 x1 t) := by
  unfold State.updLoop
  repeat' (first
    | with_reducible assumption
    | with_reducible (refine OnlyChanges.foldl ?_ (fun u a h => ?_))
    | (extract_lets +onlyGivenNames x; first | (refine OnlyChanges.cut x ?_ (fun h => ?_); (on_goal 2 => clear_value x); (on_goal 1 => subst x)) | clear_value x)
    | split
    | with_reducible (refine OnlyChanges.snd ?_)
    | with_reducible (refine OnlyChanges.fst ?_)
    | with_reducible (refine OnlyChanges.hres ?_)
    | ((with_reducible (refine OnlyChanges.upd ?_ (fun p hp => ?_))); on_goal 2 => (cases p <;> first | exact rfl | exact absurd (hP _ (by decide)) hp)))

theorem updEng_only {P : List Part} {s₀ : State} {x0 : Nat} {x1 : Eng → Eng} {t : State} (hP : Within [.cle] P)  (h : OnlyChanges P s₀ t) :
    OnlyChanges P s₀ (State.updEng x0 x1 t) := by
  unfold State.updEng
  repeat' (first
    | with_reducible assumption
    | with_reducible (refine OnlyChanges.foldl ?_ (fun u a h => ?_))
    | (extract_lets +onlyGivenNames x; first | (refine OnlyChanges.cut x ?_ (fun h => ?_); (on_goal 2 => clear_value x); (on_goal 1 => subst x)) | clear_value x)
    | split
    | with_reducible (refine OnlyChanges.snd ?_)
    | with_reducible (refine OnlyChanges.fst ?_)
    | with_reducible (refine OnlyChanges.hres ?_)
    | ((with_reducible (refine OnlyChanges.upd ?_ (fun p hp => ?_))); on_goal 2 => (cases p <;> first | exact rfl | exact absurd (hP _ (by decide)) hp)))

theorem takeLoopIn_only {P : List Part} {s₀ : State} {x0 : Nat} {x1 : Kcp} {t : State} (hP : Within [.sys, .hif, .cyc, .lsp, .cle, .chg, .dpx, .dpx2, .mir, .net, .saf, .tly, .mm, .boot, .outbox] P)  (h : OnlyChanges P s₀ t) :
    OnlyChanges P s₀ (State.takeLoopIn x0 x1 t) := by
  unfold State.takeLoopIn
  repeat' (first
    | with_reducible assumption
    | with_reducible (refine meetEpoch_only (hP.step (by decide)) ?_)
    | with_reducible (refine restarted_only (hP.step (by decide)) ?_)
    | with_reducible (refine updRingN_only (hP.step (by decide)) ?_)
    | with_reducible (refine OnlyChanges.foldl ?_ (fun u a h => ?_))
    | (extract_lets +onlyGivenNames x; first | (refine OnlyChanges.cut x ?_ (fun h => ?_); (on_goal 2 => clear_value x); (on_goal 1 => subst x)) | clear_value x)
    | split
    | with_reducible (refine OnlyChanges.snd ?_)
    | with_reducible (refine OnlyChanges.fst ?_)
    | with_reducible (refine OnlyChanges.hres ?_)
    | ((with_reducible (refine OnlyChanges.upd ?_ (fun p hp => ?_))); on_goal 2 => (cases p <;> first | exact rfl | exact absurd (hP _ (by decide)) hp)))

theorem sampleOne_only {P : List Part} {s₀ : State} {x0 : Nat} {x1 : Nat × InSrc} {t : State} (hP : Within [.cle] P)  (h : OnlyChanges P s₀ t) :
    OnlyChanges P s₀ (State.sampleOne x0 x1 t) := by
  unfold State.sampleOne
  repeat' (first
    | with_reducible assumption
    | with_reducible (refine updLoop_only (hP.step (by decide)) ?_)
    | with_reducible (refine updEng_only (hP.step (by decide)) ?_)
    | with_reducible (refine OnlyChanges.foldl ?_ (fun u a h => ?_))
    | (extract_lets +onlyGivenNames x; first | (refine OnlyChanges.cut x ?_ (fun h => ?_); (on_goal 2 => clear_value x); (on_goal 1 => subst x)) | clear_value x)
    | split
    | with_reducible (refine OnlyChanges.snd ?_)
    | with_reducible (refine OnlyChanges.fst ?_)
    | with_reducible (refine OnlyChanges.hres ?_)
    | ((with_reducible (refine OnlyChanges.upd ?_ (fun p hp => ?_))); on_goal 2 => (cases p <;> first | exact rfl | exact absurd (hP _ (by decide)) hp)))

theorem deliver_only {P : List Part} {s₀ : State} {x0 : Nat} {t : State} (hP : Within [.cle] P)  (h : OnlyChanges P s₀ t) :
    OnlyChanges P s₀ (State.deliver x0 t) := by
  unfold State.deliver
  repeat' (first
    | with_reducible assumption
    | with_reducible (refine updLoop_only (hP.step (by decide)) ?_)
    | with_reducible (refine OnlyChanges.foldl ?_ (fun u a h => ?_))
    | (extract_lets +onlyGivenNames x; first | (refine OnlyChanges.cut x ?_ (fun h => ?_); (on_goal 2 => clear_value x); (on_goal 1 => subst x)) | clear_value x)
    | split
    | with_reducible (refine OnlyChanges.snd ?_)
    | with_reducible (refine OnlyChanges.fst ?_)
    | with_reducible (refine OnlyChanges.hres ?_)
    | ((with_reducible (refine OnlyChanges.upd ?_ (fun p hp => ?_))); on_goal 2 => (cases p <;> first | exact rfl | exact absurd (hP _ (by decide)) hp)))

theorem sampleIns_only {P : List Part} {s₀ : State} {x0 : Nat} {x1 : InSrc → Bool} {t : State} (hP : Within [.cle] P)  (h : OnlyChanges P s₀ t) :
    OnlyChanges P s₀ (State.sampleIns x0 x1 t) := by
  unfold State.sampleIns
  repeat' (first
    | with_reducible assumption
    | with_reducible (refine sampleOne_only (hP.step (by decide)) ?_)
    | with_reducible (refine OnlyChanges.foldl ?_ (fun u a h => ?_))
    | (extract_lets +onlyGivenNames x; first | (refine OnlyChanges.cut x ?_ (fun h => ?_); (on_goal 2 => clear_value x); (on_goal 1 => subst x)) | clear_value x)
    | split
    | with_reducible (refine OnlyChanges.snd ?_)
    | with_reducible (refine OnlyChanges.fst ?_)
    | with_reducible (refine OnlyChanges.hres ?_)
    | ((with_reducible (refine OnlyChanges.upd ?_ (fun p hp => ?_))); on_goal 2 => (cases p <;> first | exact rfl | exact absurd (hP _ (by decide)) hp)))

theorem sendGroup_only {P : List Part} {s₀ : State} {x0 : Nat} {t : State} (hP : Within [.sys, .hif, .dpx, .dpx2, .tly, .outbox] P)  (h : OnlyChanges P s₀ t) :
    OnlyChanges P s₀ (State.sendGroup x0 t) := by
  unfold State.sendGroup
  repeat' (first
    | with_reducible assumption
    | with_reducible (refine sendRec_only (hP.step (by decide)) ?_)
    | with_reducible (refine backlogOver_only (hP.step (by decide)) ?_)
    | with_reducible (refine OnlyChanges.foldl ?_ (fun u a h => ?_))
    | (extract_lets +onlyGivenNames x; first | (refine OnlyChanges.cut x ?_ (fun h => ?_); (on_goal 2 => clear_value x); (on_goal 1 => subst x)) | clear_value x)
    | split
    | with_reducible (refine OnlyChanges.snd ?_)
    | with_reducible (refine OnlyChanges.fst ?_)
    | with_reducible (refine OnlyChanges.hres ?_)
    | ((with_reducible (refine OnlyChanges.upd ?_ (fun p hp => ?_))); on_goal 2 => (cases p <;> first | exact rfl | exact absurd (hP _ (by decide)) hp)))

theorem phase0_only {P : List Part} {s₀ : State} {x0 : Nat} {t : State} (hP : Within [.sys, .hif, .cle, .dpx, .dpx2, .tly, .outbox] P)  (h : OnlyChanges P s₀ t) :
    OnlyChanges P s₀ (State.phase0 x0 t) := by
  unfold State.phase0
  repeat' (first
    | with_reducible assumption
    | with_reducible (refine updLoop_only (hP.step (by decide)) ?_)
    | with_reducible (refine sampleIns_only (hP.step (by decide)) ?_)
    | with_reducible (refine sendGroup_only (hP.step (by decide)) ?_)
    | with_reducible (refine OnlyChanges.foldl ?_ (fun u a h => ?_))
    | (extract_lets +onlyGivenNames x; first | (refine OnlyChanges.cut x ?_ (fun h => ?_); (on_goal 2 => clear_value x); (on_goal 1 => subst x)) | clear_value x)
    | split
    | with_reducible (refine OnlyChanges.snd ?_)
    | with_reducible (refine OnlyChanges.fst ?_)
    | with_reducible (refine OnlyChanges.hres ?_)
    | ((with_reducible (refine OnlyChanges.upd ?_ (fun p hp => ?_))); on_goal 2 => (cases p <;> first | exact rfl | exact absurd (hP _ (by decide)) hp)))

theorem loopStep_only {P : List Part} {s₀ : State} {x0 : Nat} {x1 : Word} {t : State} (hP : Within [.cle] P)  (h : OnlyChanges P s₀ t) :
    OnlyChanges P s₀ (State.loopStep x0 x1 t) := by
  unfold State.loopStep
  repeat' (first
    | with_reducible assumption
    | with_reducible (refine updEng_only (hP.step (by decide)) ?_)
    | with_reducible (refine sampleIns_only (hP.step (by decide)) ?_)
    | with_reducible (refine updLoop_only (hP.step (by decide)) ?_)
    | with_reducible (refine OnlyChanges.foldl ?_ (fun u a h => ?_))
    | (extract_lets +onlyGivenNames x; first | (refine OnlyChanges.cut x ?_ (fun h => ?_); (on_goal 2 => clear_value x); (on_goal 1 => subst x)) | clear_value x)
    | split
    | with_reducible (refine OnlyChanges.snd ?_)
    | with_reducible (refine OnlyChanges.fst ?_)
    | with_reducible (refine OnlyChanges.hres ?_)
    | ((with_reducible (refine OnlyChanges.upd ?_ (fun p hp => ?_))); on_goal 2 => (cases p <;> first | exact rfl | exact absurd (hP _ (by decide)) hp)))

theorem mirrorLoop_only {P : List Part} {s₀ : State} {x0 : Nat} {t : State} (hP : Within [.sys, .hif, .dpx, .dpx2, .tly, .outbox] P)  (h : OnlyChanges P s₀ t) :
    OnlyChanges P s₀ (State.mirrorLoop x0 t) := by
  unfold State.mirrorLoop
  repeat' (first
    | with_reducible assumption
    | with_reducible (refine sendRec_only (hP.step (by decide)) ?_)
    | with_reducible (refine backlogOver_only (hP.step (by decide)) ?_)
    | with_reducible (refine OnlyChanges.foldl ?_ (fun u a h => ?_))
    | (extract_lets +onlyGivenNames x; first | (refine OnlyChanges.cut x ?_ (fun h => ?_); (on_goal 2 => clear_value x); (on_goal 1 => subst x)) | clear_value x)
    | split
    | with_reducible (refine OnlyChanges.snd ?_)
    | with_reducible (refine OnlyChanges.fst ?_)
    | with_reducible (refine OnlyChanges.hres ?_)
    | ((with_reducible (refine OnlyChanges.upd ?_ (fun p hp => ?_))); on_goal 2 => (cases p <;> first | exact rfl | exact absurd (hP _ (by decide)) hp)))

theorem checkPair_only {P : List Part} {s₀ : State} {x0 : Nat} {t : State} (hP : Within [.sys, .hif, .cyc, .lsp, .cle, .chg, .dpx, .dpx2, .mir, .net, .tim, .can, .canq, .fio, .saf, .tly, .mm, .boot, .pwr, .ret, .cfg, .prog, .regs, .live, .votes, .press, .posted, .outbox, .freeN] P)  (h : OnlyChanges P s₀ t) :
    OnlyChanges P s₀ (State.checkPair x0 t) := by
  unfold State.checkPair
  repeat' (first
    | with_reducible assumption
    | with_reducible (refine mismatch_only (hP.step (by decide)) ?_)
    | with_reducible (refine updLoop_only (hP.step (by decide)) ?_)
    | with_reducible (refine OnlyChanges.foldl ?_ (fun u a h => ?_))
    | (extract_lets +onlyGivenNames x; first | (refine OnlyChanges.cut x ?_ (fun h => ?_); (on_goal 2 => clear_value x); (on_goal 1 => subst x)) | clear_value x)
    | split
    | with_reducible (refine OnlyChanges.snd ?_)
    | with_reducible (refine OnlyChanges.fst ?_)
    | with_reducible (refine OnlyChanges.hres ?_)
    | ((with_reducible (refine OnlyChanges.upd ?_ (fun p hp => ?_))); on_goal 2 => (cases p <;> first | exact rfl | exact absurd (hP _ (by decide)) hp)))

theorem takeLoss_only {P : List Part} {s₀ : State} {x0 : Nat} {t : State} (hP : Within [.cle, .tly] P)  (h : OnlyChanges P s₀ t) :
    OnlyChanges P s₀ (State.takeLoss x0 t) := by
  unfold State.takeLoss
  repeat' (first
    | with_reducible assumption
    | with_reducible (refine updLoop_only (hP.step (by decide)) ?_)
    | with_reducible (refine log_only (hP.step (by decide)) ?_)
    | with_reducible (refine OnlyChanges.foldl ?_ (fun u a h => ?_))
    | (extract_lets +onlyGivenNames x; first | (refine OnlyChanges.cut x ?_ (fun h => ?_); (on_goal 2 => clear_value x); (on_goal 1 => subst x)) | clear_value x)
    | split
    | with_reducible (refine OnlyChanges.snd ?_)
    | with_reducible (refine OnlyChanges.fst ?_)
    | with_reducible (refine OnlyChanges.hres ?_)
    | ((with_reducible (refine OnlyChanges.upd ?_ (fun p hp => ?_))); on_goal 2 => (cases p <;> first | exact rfl | exact absurd (hP _ (by decide)) hp)))

theorem countSat_only {P : List Part} {s₀ : State} {x0 : Nat} {x1 : Word} {t : State} (hP : Within [.cle, .tly] P)  (h : OnlyChanges P s₀ t) :
    OnlyChanges P s₀ (State.countSat x0 x1 t) := by
  unfold State.countSat
  repeat' (first
    | with_reducible assumption
    | with_reducible (refine updLoop_only (hP.step (by decide)) ?_)
    | with_reducible (refine log_only (hP.step (by decide)) ?_)
    | with_reducible (refine OnlyChanges.foldl ?_ (fun u a h => ?_))
    | (extract_lets +onlyGivenNames x; first | (refine OnlyChanges.cut x ?_ (fun h => ?_); (on_goal 2 => clear_value x); (on_goal 1 => subst x)) | clear_value x)
    | split
    | with_reducible (refine OnlyChanges.snd ?_)
    | with_reducible (refine OnlyChanges.fst ?_)
    | with_reducible (refine OnlyChanges.hres ?_)
    | ((with_reducible (refine OnlyChanges.upd ?_ (fun p hp => ?_))); on_goal 2 => (cases p <;> first | exact rfl | exact absurd (hP _ (by decide)) hp)))

theorem creaseOut_only {P : List Part} {s₀ : State} {x0 : Nat} {t : State} (hP : Within [.sys, .hif, .cyc, .lsp, .cle, .chg, .dpx, .dpx2, .mir, .net, .tim, .can, .canq, .fio, .saf, .tly, .mm, .boot, .pwr, .ret, .cfg, .prog, .regs, .live, .votes, .press, .posted, .outbox, .freeN] P)  (h : OnlyChanges P s₀ t) :
    OnlyChanges P s₀ ((State.creaseOut x0 t).2) := by
  unfold State.creaseOut
  repeat' (first
    | with_reducible assumption
    | with_reducible (refine mismatch_only (hP.step (by decide)) ?_)
    | with_reducible (refine checkPair_only (hP.step (by decide)) ?_)
    | with_reducible (refine takeLoss_only (hP.step (by decide)) ?_)
    | with_reducible (refine updLoop_only (hP.step (by decide)) ?_)
    | with_reducible (refine OnlyChanges.foldl ?_ (fun u a h => ?_))
    | (extract_lets +onlyGivenNames x; first | (refine OnlyChanges.cut x ?_ (fun h => ?_); (on_goal 2 => clear_value x); (on_goal 1 => subst x)) | clear_value x)
    | split
    | with_reducible (refine OnlyChanges.snd ?_)
    | with_reducible (refine OnlyChanges.fst ?_)
    | with_reducible (refine OnlyChanges.hres ?_)
    | ((with_reducible (refine OnlyChanges.upd ?_ (fun p hp => ?_))); on_goal 2 => (cases p <;> first | exact rfl | exact absurd (hP _ (by decide)) hp)))

theorem noteCrease_only {P : List Part} {s₀ : State} {x0 : Nat} {t : State} (hP : Within [.cle] P)  (h : OnlyChanges P s₀ t) :
    OnlyChanges P s₀ (State.noteCrease x0 t) := by
  unfold State.noteCrease
  repeat' (first
    | with_reducible assumption
    | with_reducible (refine updLoop_only (hP.step (by decide)) ?_)
    | with_reducible (refine OnlyChanges.foldl ?_ (fun u a h => ?_))
    | (extract_lets +onlyGivenNames x; first | (refine OnlyChanges.cut x ?_ (fun h => ?_); (on_goal 2 => clear_value x); (on_goal 1 => subst x)) | clear_value x)
    | split
    | with_reducible (refine OnlyChanges.snd ?_)
    | with_reducible (refine OnlyChanges.fst ?_)
    | with_reducible (refine OnlyChanges.hres ?_)
    | ((with_reducible (refine OnlyChanges.upd ?_ (fun p hp => ?_))); on_goal 2 => (cases p <;> first | exact rfl | exact absurd (hP _ (by decide)) hp)))

theorem crease_only {P : List Part} {s₀ : State} {x0 : OutDst → Word → State → State} {x1 : Nat} {t : State} (hP : Within [.sys, .hif, .cyc, .lsp, .cle, .chg, .dpx, .dpx2, .mir, .net, .tim, .can, .canq, .fio, .saf, .tly, .mm, .boot, .pwr, .ret, .cfg, .prog, .regs, .live, .votes, .press, .posted, .outbox, .freeN] P) (hf0 : ∀ a c u, OnlyChanges P s₀ u → OnlyChanges P s₀ (x0 a c u)) (h : OnlyChanges P s₀ t) :
    OnlyChanges P s₀ (State.crease x0 x1 t) := by
  unfold State.crease
  split
  · exact hf0 _ _ _ h
  extract_lets run
  have k : OnlyChanges P s₀ (State.creaseOut x1 t).2 := creaseOut_only (hP.step (by decide)) h
  clear_value run
  generalize State.creaseOut x1 t = e at k ⊢
  obtain ⟨a, u⟩ := e
  cases a with
  | none => exact updLoop_only (hP.step (by decide)) k
  | some v =>
    refine put_only (hP.step (by decide)) (mirrorLoop_only (hP.step (by decide)) (noteCrease_only (hP.step (by decide)) ?_))
    split
    · exact countSat_only (hP.step (by decide)) (updLoop_only (hP.step (by decide)) (hf0 _ _ _ k))
    · exact updLoop_only (hP.step (by decide)) (hf0 _ _ _ k)

theorem viaWindow_only {P : List Part} {s₀ : State} {x0 : Nat} {x1 : Nat} {x2 : Bool} {x3 : Ini} {x4 : Nat → State → State} {t : State} (hP : Within [.sys, .tly] P) (hf4 : ∀ a u, OnlyChanges P s₀ u → OnlyChanges P s₀ (x4 a u)) (h : OnlyChanges P s₀ t) :
    OnlyChanges P s₀ (State.viaWindow x0 x1 x2 x3 x4 t) := by
  unfold State.viaWindow
  repeat' (first
    | with_reducible assumption
    | with_reducible (refine roWr_only (hP.step (by decide)) ?_)
    | with_reducible (refine unassignedWr_only (hP.step (by decide)) ?_)
    | with_reducible (refine OnlyChanges.foldl ?_ (fun u a h => ?_))
    | with_reducible (apply hf4)
    | (extract_lets +onlyGivenNames x; first | (refine OnlyChanges.cut x ?_ (fun h => ?_); (on_goal 2 => clear_value x); (on_goal 1 => subst x)) | clear_value x)
    | split
    | with_reducible (refine OnlyChanges.snd ?_)
    | with_reducible (refine OnlyChanges.fst ?_)
    | with_reducible (refine OnlyChanges.hres ?_)
    | ((with_reducible (refine OnlyChanges.upd ?_ (fun p hp => ?_))); on_goal 2 => (cases p <;> first | exact rfl | exact absurd (hP _ (by decide)) hp)))

theorem loopCmd_only {P : List Part} {s₀ : State} {x0 : Nat} {x1 : Ini} {x2 : Word} {t : State} (hP : Within [.sys, .cle, .tly] P)  (h : OnlyChanges P s₀ t) :
    OnlyChanges P s₀ (State.loopCmd x0 x1 x2 t) := by
  unfold State.loopCmd
  repeat' (first
    | with_reducible assumption
    | with_reducible (refine viaWindow_only (hP.step (by decide)) ?_ ?_)
    | with_reducible (refine updLoop_only (hP.step (by decide)) ?_)
    | with_reducible (refine OnlyChanges.foldl ?_ (fun u a h => ?_))
    | intro _
    | (extract_lets +onlyGivenNames x; first | (refine OnlyChanges.cut x ?_ (fun h => ?_); (on_goal 2 => clear_value x); (on_goal 1 => subst x)) | clear_value x)
    | split
    | intro _
    | with_reducible (refine OnlyChanges.snd ?_)
    | with_reducible (refine OnlyChanges.fst ?_)
    | with_reducible (refine OnlyChanges.hres ?_)
    | ((with_reducible (refine OnlyChanges.upd ?_ (fun p hp => ?_))); on_goal 2 => (cases p <;> first | exact rfl | exact absurd (hP _ (by decide)) hp)))

end Sys2Proof.Laws
end

