-- ==== Sys2Proof/Laws/OnlyTim.lean ====
section
/-! SUPPORT. What each operation of Tim.lean may change: one frame per operation. -/

set_option linter.unusedTactic false
set_option linter.unreachableTactic false
set_option linter.unusedVariables false
set_option linter.tactic.unusedName false

namespace Sys2Proof.Laws

open Sys2Proof.Machine Sys2Proof.Safety

theorem updTim_only {P : List Part} {s₀ : State} {x0 : Tim → Tim} {t : State} (hP : Within [.tim] P)  (h : OnlyChanges P s₀ t) :
    OnlyChanges P s₀ (State.updTim x0 t) := by
  unfold State.updTim
  repeat' (first
    | with_reducible assumption
    | with_reducible (refine OnlyChanges.foldl ?_ (fun u a h => ?_))
    | (extract_lets +onlyGivenNames x; first | (refine OnlyChanges.cut x ?_ (fun h => ?_); (on_goal 2 => clear_value x); (on_goal 1 => subst x)) | clear_value x)
    | split
    | with_reducible (refine OnlyChanges.snd ?_)
    | with_reducible (refine OnlyChanges.fst ?_)
    | with_reducible (refine OnlyChanges.hres ?_)
    | ((with_reducible (refine OnlyChanges.upd ?_ (fun p hp => ?_))); on_goal 2 => (cases p <;> first | exact rfl | exact absurd (hP _ (by decide)) hp)))

theorem updDom_only {P : List Part} {s₀ : State} {x0 : Nat} {x1 : Dom → Dom} {t : State} (hP : Within [.tim] P)  (h : OnlyChanges P s₀ t) :
    OnlyChanges P s₀ (State.updDom x0 x1 t) := by
  unfold State.updDom
  repeat' (first
    | with_reducible assumption
    | with_reducible (refine updTim_only (hP.step (by decide)) ?_)
    | with_reducible (refine OnlyChanges.foldl ?_ (fun u a h => ?_))
    | (extract_lets +onlyGivenNames x; first | (refine OnlyChanges.cut x ?_ (fun h => ?_); (on_goal 2 => clear_value x); (on_goal 1 => subst x)) | clear_value x)
    | split
    | with_reducible (refine OnlyChanges.snd ?_)
    | with_reducible (refine OnlyChanges.fst ?_)
    | with_reducible (refine OnlyChanges.hres ?_)
    | ((with_reducible (refine OnlyChanges.upd ?_ (fun p hp => ?_))); on_goal 2 => (cases p <;> first | exact rfl | exact absurd (hP _ (by decide)) hp)))

theorem updTPort_only {P : List Part} {s₀ : State} {x0 : Nat} {x1 : TPort → TPort} {t : State} (hP : Within [.tim] P)  (h : OnlyChanges P s₀ t) :
    OnlyChanges P s₀ (State.updTPort x0 x1 t) := by
  unfold State.updTPort
  repeat' (first
    | with_reducible assumption
    | with_reducible (refine updTim_only (hP.step (by decide)) ?_)
    | with_reducible (refine OnlyChanges.foldl ?_ (fun u a h => ?_))
    | (extract_lets +onlyGivenNames x; first | (refine OnlyChanges.cut x ?_ (fun h => ?_); (on_goal 2 => clear_value x); (on_goal 1 => subst x)) | clear_value x)
    | split
    | with_reducible (refine OnlyChanges.snd ?_)
    | with_reducible (refine OnlyChanges.fst ?_)
    | with_reducible (refine OnlyChanges.hres ?_)
    | ((with_reducible (refine OnlyChanges.upd ?_ (fun p hp => ?_))); on_goal 2 => (cases p <;> first | exact rfl | exact absurd (hP _ (by decide)) hp)))

theorem clampRecord_only {P : List Part} {s₀ : State}  {t : State} (hP : Within [.tim, .tly] P)  (h : OnlyChanges P s₀ t) :
    OnlyChanges P s₀ (State.clampRecord t) := by
  unfold State.clampRecord
  repeat' (first
    | with_reducible assumption
    | with_reducible (refine updTim_only (hP.step (by decide)) ?_)
    | with_reducible (refine log_only (hP.step (by decide)) ?_)
    | with_reducible (refine OnlyChanges.foldl ?_ (fun u a h => ?_))
    | (extract_lets +onlyGivenNames x; first | (refine OnlyChanges.cut x ?_ (fun h => ?_); (on_goal 2 => clear_value x); (on_goal 1 => subst x)) | clear_value x)
    | split
    | with_reducible (refine OnlyChanges.snd ?_)
    | with_reducible (refine OnlyChanges.fst ?_)
    | with_reducible (refine OnlyChanges.hres ?_)
    | ((with_reducible (refine OnlyChanges.upd ?_ (fun p hp => ?_))); on_goal 2 => (cases p <;> first | exact rfl | exact absurd (hP _ (by decide)) hp)))

theorem servo_only {P : List Part} {s₀ : State} {x0 : Int} {x1 : Nat} {t : State} (hP : Within [.tim, .tly] P)  (h : OnlyChanges P s₀ t) :
    OnlyChanges P s₀ (State.servo x0 x1 t) := by
  unfold State.servo
  repeat' (first
    | with_reducible assumption
    | with_reducible (refine updTim_only (hP.step (by decide)) ?_)
    | with_reducible (refine clampRecord_only (hP.step (by decide)) ?_)
    | with_reducible (refine OnlyChanges.foldl ?_ (fun u a h => ?_))
    | (extract_lets +onlyGivenNames x; first | (refine OnlyChanges.cut x ?_ (fun h => ?_); (on_goal 2 => clear_value x); (on_goal 1 => subst x)) | clear_value x)
    | split
    | with_reducible (refine OnlyChanges.snd ?_)
    | with_reducible (refine OnlyChanges.fst ?_)
    | with_reducible (refine OnlyChanges.hres ?_)
    | ((with_reducible (refine OnlyChanges.upd ?_ (fun p hp => ?_))); on_goal 2 => (cases p <;> first | exact rfl | exact absurd (hP _ (by decide)) hp)))

theorem holdFreq_only {P : List Part} {s₀ : State}  {t : State} (hP : Within [.tim] P)  (h : OnlyChanges P s₀ t) :
    OnlyChanges P s₀ (State.holdFreq t) := by
  unfold State.holdFreq
  repeat' (first
    | with_reducible assumption
    | with_reducible (refine updTim_only (hP.step (by decide)) ?_)
    | with_reducible (refine OnlyChanges.foldl ?_ (fun u a h => ?_))
    | (extract_lets +onlyGivenNames x; first | (refine OnlyChanges.cut x ?_ (fun h => ?_); (on_goal 2 => clear_value x); (on_goal 1 => subst x)) | clear_value x)
    | split
    | with_reducible (refine OnlyChanges.snd ?_)
    | with_reducible (refine OnlyChanges.fst ?_)
    | with_reducible (refine OnlyChanges.hres ?_)
    | ((with_reducible (refine OnlyChanges.upd ?_ (fun p hp => ?_))); on_goal 2 => (cases p <;> first | exact rfl | exact absurd (hP _ (by decide)) hp)))

theorem switchDom_only {P : List Part} {s₀ : State} {x0 : Nat} {t : State} (hP : Within [.tim, .tly] P)  (h : OnlyChanges P s₀ t) :
    OnlyChanges P s₀ (State.switchDom x0 t) := by
  unfold State.switchDom
  repeat' (first
    | with_reducible assumption
    | with_reducible (refine updTim_only (hP.step (by decide)) ?_)
    | with_reducible (refine log_only (hP.step (by decide)) ?_)
    | with_reducible (refine OnlyChanges.foldl ?_ (fun u a h => ?_))
    | (extract_lets +onlyGivenNames x; first | (refine OnlyChanges.cut x ?_ (fun h => ?_); (on_goal 2 => clear_value x); (on_goal 1 => subst x)) | clear_value x)
    | split
    | with_reducible (refine OnlyChanges.snd ?_)
    | with_reducible (refine OnlyChanges.fst ?_)
    | with_reducible (refine OnlyChanges.hres ?_)
    | ((with_reducible (refine OnlyChanges.upd ?_ (fun p hp => ?_))); on_goal 2 => (cases p <;> first | exact rfl | exact absurd (hP _ (by decide)) hp)))

theorem decideSwitch_only {P : List Part} {s₀ : State}  {t : State} (hP : Within [.tim, .tly] P)  (h : OnlyChanges P s₀ t) :
    OnlyChanges P s₀ (State.decideSwitch t) := by
  unfold State.decideSwitch
  repeat' (first
    | with_reducible assumption
    | with_reducible (refine switchDom_only (hP.step (by decide)) ?_)
    | with_reducible (refine holdFreq_only (hP.step (by decide)) ?_)
    | with_reducible (refine updTim_only (hP.step (by decide)) ?_)
    | with_reducible (refine OnlyChanges.foldl ?_ (fun u a h => ?_))
    | (extract_lets +onlyGivenNames x; first | (refine OnlyChanges.cut x ?_ (fun h => ?_); (on_goal 2 => clear_value x); (on_goal 1 => subst x)) | clear_value x)
    | split
    | with_reducible (refine OnlyChanges.snd ?_)
    | with_reducible (refine OnlyChanges.fst ?_)
    | with_reducible (refine OnlyChanges.hres ?_)
    | ((with_reducible (refine OnlyChanges.upd ?_ (fun p hp => ?_))); on_goal 2 => (cases p <;> first | exact rfl | exact absurd (hP _ (by decide)) hp)))

theorem enterDom_only {P : List Part} {s₀ : State} {x0 : Nat} {x1 : DomState} {t : State} (hP : Within [.tim] P)  (h : OnlyChanges P s₀ t) :
    OnlyChanges P s₀ (State.enterDom x0 x1 t) := by
  unfold State.enterDom
  repeat' (first
    | with_reducible assumption
    | with_reducible (refine updDom_only (hP.step (by decide)) ?_)
    | with_reducible (refine OnlyChanges.foldl ?_ (fun u a h => ?_))
    | (extract_lets +onlyGivenNames x; first | (refine OnlyChanges.cut x ?_ (fun h => ?_); (on_goal 2 => clear_value x); (on_goal 1 => subst x)) | clear_value x)
    | split
    | with_reducible (refine OnlyChanges.snd ?_)
    | with_reducible (refine OnlyChanges.fst ?_)
    | with_reducible (refine OnlyChanges.hres ?_)
    | ((with_reducible (refine OnlyChanges.upd ?_ (fun p hp => ?_))); on_goal 2 => (cases p <;> first | exact rfl | exact absurd (hP _ (by decide)) hp)))

theorem domStep_only {P : List Part} {s₀ : State} {x0 : Nat} {x1 : Int} {t : State} (hP : Within [.tim] P)  (h : OnlyChanges P s₀ t) :
    OnlyChanges P s₀ (State.domStep x0 x1 t) := by
  unfold State.domStep
  repeat' (first
    | with_reducible assumption
    | with_reducible (refine updDom_only (hP.step (by decide)) ?_)
    | with_reducible (refine enterDom_only (hP.step (by decide)) ?_)
    | with_reducible (refine OnlyChanges.foldl ?_ (fun u a h => ?_))
    | (extract_lets +onlyGivenNames x; first | (refine OnlyChanges.cut x ?_ (fun h => ?_); (on_goal 2 => clear_value x); (on_goal 1 => subst x)) | clear_value x)
    | split
    | with_reducible (refine OnlyChanges.snd ?_)
    | with_reducible (refine OnlyChanges.fst ?_)
    | with_reducible (refine OnlyChanges.hres ?_)
    | ((with_reducible (refine OnlyChanges.upd ?_ (fun p hp => ?_))); on_goal 2 => (cases p <;> first | exact rfl | exact absurd (hP _ (by decide)) hp)))

theorem qualify_only {P : List Part} {s₀ : State} {x0 : Nat} {x1 : Nat} {x2 : Int} {t : State} (hP : Within [.tim] P)  (h : OnlyChanges P s₀ t) :
    OnlyChanges P s₀ (State.qualify x0 x1 x2 t) := by
  unfold State.qualify
  repeat' (first
    | with_reducible assumption
    | with_reducible (refine updDom_only (hP.step (by decide)) ?_)
    | with_reducible (refine updTim_only (hP.step (by decide)) ?_)
    | with_reducible (refine OnlyChanges.foldl ?_ (fun u a h => ?_))
    | (extract_lets +onlyGivenNames x; first | (refine OnlyChanges.cut x ?_ (fun h => ?_); (on_goal 2 => clear_value x); (on_goal 1 => subst x)) | clear_value x)
    | split
    | with_reducible (refine OnlyChanges.snd ?_)
    | with_reducible (refine OnlyChanges.fst ?_)
    | with_reducible (refine OnlyChanges.hres ?_)
    | ((with_reducible (refine OnlyChanges.upd ?_ (fun p hp => ?_))); on_goal 2 => (cases p <;> first | exact rfl | exact absurd (hP _ (by decide)) hp)))

theorem setClock_only {P : List Part} {s₀ : State} {x0 : TimSet} {t : State} (hP : Within [.cyc, .tim, .tly] P)  (h : OnlyChanges P s₀ t) :
    OnlyChanges P s₀ (State.setClock x0 t) := by
  unfold State.setClock
  repeat' (first
    | with_reducible assumption
    | with_reducible (refine updTim_only (hP.step (by decide)) ?_)
    | with_reducible (refine numberCycles_only (hP.step (by decide)) ?_)
    | with_reducible (refine log_only (hP.step (by decide)) ?_)
    | with_reducible (refine OnlyChanges.foldl ?_ (fun u a h => ?_))
    | (extract_lets +onlyGivenNames x; first | (refine OnlyChanges.cut x ?_ (fun h => ?_); (on_goal 2 => clear_value x); (on_goal 1 => subst x)) | clear_value x)
    | split
    | with_reducible (refine OnlyChanges.snd ?_)
    | with_reducible (refine OnlyChanges.fst ?_)
    | with_reducible (refine OnlyChanges.hres ?_)
    | ((with_reducible (refine OnlyChanges.upd ?_ (fun p hp => ?_))); on_goal 2 => (cases p <;> first | exact rfl | exact absurd (hP _ (by decide)) hp)))

theorem noteOfs_only {P : List Part} {s₀ : State} {x0 : Nat} {x1 : Int} {t : State} (hP : Within [.tim] P)  (h : OnlyChanges P s₀ t) :
    OnlyChanges P s₀ (State.noteOfs x0 x1 t) := by
  unfold State.noteOfs
  repeat' (first
    | with_reducible assumption
    | with_reducible (refine updDom_only (hP.step (by decide)) ?_)
    | with_reducible (refine OnlyChanges.foldl ?_ (fun u a h => ?_))
    | (extract_lets +onlyGivenNames x; first | (refine OnlyChanges.cut x ?_ (fun h => ?_); (on_goal 2 => clear_value x); (on_goal 1 => subst x)) | clear_value x)
    | split
    | with_reducible (refine OnlyChanges.snd ?_)
    | with_reducible (refine OnlyChanges.fst ?_)
    | with_reducible (refine OnlyChanges.hres ?_)
    | ((with_reducible (refine OnlyChanges.upd ?_ (fun p hp => ?_))); on_goal 2 => (cases p <;> first | exact rfl | exact absurd (hP _ (by decide)) hp)))

theorem refuseMeas_only {P : List Part} {s₀ : State} {x0 : Nat} {x1 : Int} {t : State} (hP : Within [.tim, .tly] P)  (h : OnlyChanges P s₀ t) :
    OnlyChanges P s₀ (State.refuseMeas x0 x1 t) := by
  unfold State.refuseMeas
  repeat' (first
    | with_reducible assumption
    | with_reducible (refine enterDom_only (hP.step (by decide)) ?_)
    | with_reducible (refine updTim_only (hP.step (by decide)) ?_)
    | with_reducible (refine log_only (hP.step (by decide)) ?_)
    | with_reducible (refine decideSwitch_only (hP.step (by decide)) ?_)
    | with_reducible (refine OnlyChanges.foldl ?_ (fun u a h => ?_))
    | (extract_lets +onlyGivenNames x; first | (refine OnlyChanges.cut x ?_ (fun h => ?_); (on_goal 2 => clear_value x); (on_goal 1 => subst x)) | clear_value x)
    | split
    | with_reducible (refine OnlyChanges.snd ?_)
    | with_reducible (refine OnlyChanges.fst ?_)
    | with_reducible (refine OnlyChanges.hres ?_)
    | ((with_reducible (refine OnlyChanges.upd ?_ (fun p hp => ?_))); on_goal 2 => (cases p <;> first | exact rfl | exact absurd (hP _ (by decide)) hp)))

theorem acceptMeas_only {P : List Part} {s₀ : State} {x0 : Nat} {x1 : Nat} {x2 : Int} {x3 : Bool} {t : State} (hP : Within [.tim, .tly] P)  (h : OnlyChanges P s₀ t) :
    OnlyChanges P s₀ (State.acceptMeas x0 x1 x2 x3 t) := by
  unfold State.acceptMeas
  repeat' (first
    | with_reducible assumption
    | with_reducible (refine updDom_only (hP.step (by decide)) ?_)
    | with_reducible (refine domStep_only (hP.step (by decide)) ?_)
    | with_reducible (refine servo_only (hP.step (by decide)) ?_)
    | with_reducible (refine qualify_only (hP.step (by decide)) ?_)
    | with_reducible (refine decideSwitch_only (hP.step (by decide)) ?_)
    | with_reducible (refine OnlyChanges.foldl ?_ (fun u a h => ?_))
    | (extract_lets +onlyGivenNames x; first | (refine OnlyChanges.cut x ?_ (fun h => ?_); (on_goal 2 => clear_value x); (on_goal 1 => subst x)) | clear_value x)
    | split
    | with_reducible (refine OnlyChanges.snd ?_)
    | with_reducible (refine OnlyChanges.fst ?_)
    | with_reducible (refine OnlyChanges.hres ?_)
    | ((with_reducible (refine OnlyChanges.upd ?_ (fun p hp => ?_))); on_goal 2 => (cases p <;> first | exact rfl | exact absurd (hP _ (by decide)) hp)))

theorem domMeasure_only {P : List Part} {s₀ : State} {x0 : Nat} {x1 : Nat} {x2 : Int} {x3 : Bool} {t : State} (hP : Within [.tim, .tly] P)  (h : OnlyChanges P s₀ t) :
    OnlyChanges P s₀ (State.domMeasure x0 x1 x2 x3 t) := by
  unfold State.domMeasure
  repeat' (first
    | with_reducible assumption
    | with_reducible (refine noteOfs_only (hP.step (by decide)) ?_)
    | with_reducible (refine updDom_only (hP.step (by decide)) ?_)
    | with_reducible (refine refuseMeas_only (hP.step (by decide)) ?_)
    | with_reducible (refine acceptMeas_only (hP.step (by decide)) ?_)
    | with_reducible (refine OnlyChanges.foldl ?_ (fun u a h => ?_))
    | (extract_lets +onlyGivenNames x; first | (refine OnlyChanges.cut x ?_ (fun h => ?_); (on_goal 2 => clear_value x); (on_goal 1 => subst x)) | clear_value x)
    | split
    | with_reducible (refine OnlyChanges.snd ?_)
    | with_reducible (refine OnlyChanges.fst ?_)
    | with_reducible (refine OnlyChanges.hres ?_)
    | ((with_reducible (refine OnlyChanges.upd ?_ (fun p hp => ?_))); on_goal 2 => (cases p <;> first | exact rfl | exact absurd (hP _ (by decide)) hp)))

theorem submitMeas_only {P : List Part} {s₀ : State} {x0 : Nat} {x1 : Word} {t : State} (hP : Within [.tim, .tly] P)  (h : OnlyChanges P s₀ t) :
    OnlyChanges P s₀ (State.submitMeas x0 x1 t) := by
  unfold State.submitMeas
  repeat' (first
    | with_reducible assumption
    | with_reducible (refine updDom_only (hP.step (by decide)) ?_)
    | with_reducible (refine domMeasure_only (hP.step (by decide)) ?_)
    | with_reducible (refine OnlyChanges.foldl ?_ (fun u a h => ?_))
    | (extract_lets +onlyGivenNames x; first | (refine OnlyChanges.cut x ?_ (fun h => ?_); (on_goal 2 => clear_value x); (on_goal 1 => subst x)) | clear_value x)
    | split
    | with_reducible (refine OnlyChanges.snd ?_)
    | with_reducible (refine OnlyChanges.fst ?_)
    | with_reducible (refine OnlyChanges.hres ?_)
    | ((with_reducible (refine OnlyChanges.upd ?_ (fun p hp => ?_))); on_goal 2 => (cases p <;> first | exact rfl | exact absurd (hP _ (by decide)) hp)))

theorem writeMeas_only {P : List Part} {s₀ : State} {x0 : Nat} {x1 : Word} {t : State} (hP : Within [.sys, .tim, .tly] P)  (h : OnlyChanges P s₀ t) :
    OnlyChanges P s₀ (State.writeMeas x0 x1 t) := by
  unfold State.writeMeas
  repeat' (first
    | with_reducible assumption
    | with_reducible (refine roWr_only (hP.step (by decide)) ?_)
    | with_reducible (refine submitMeas_only (hP.step (by decide)) ?_)
    | with_reducible (refine OnlyChanges.foldl ?_ (fun u a h => ?_))
    | (extract_lets +onlyGivenNames x; first | (refine OnlyChanges.cut x ?_ (fun h => ?_); (on_goal 2 => clear_value x); (on_goal 1 => subst x)) | clear_value x)
    | split
    | with_reducible (refine OnlyChanges.snd ?_)
    | with_reducible (refine OnlyChanges.fst ?_)
    | with_reducible (refine OnlyChanges.hres ?_)
    | ((with_reducible (refine OnlyChanges.upd ?_ (fun p hp => ?_))); on_goal 2 => (cases p <;> first | exact rfl | exact absurd (hP _ (by decide)) hp)))

theorem basteMeasure_only {P : List Part} {s₀ : State} {x0 : Int} {t : State} (hP : Within [.tim, .tly] P)  (h : OnlyChanges P s₀ t) :
    OnlyChanges P s₀ (State.basteMeasure x0 t) := by
  unfold State.basteMeasure
  repeat' (first
    | with_reducible assumption
    | with_reducible (refine updTim_only (hP.step (by decide)) ?_)
    | with_reducible (refine servo_only (hP.step (by decide)) ?_)
    | with_reducible (refine OnlyChanges.foldl ?_ (fun u a h => ?_))
    | (extract_lets +onlyGivenNames x; first | (refine OnlyChanges.cut x ?_ (fun h => ?_); (on_goal 2 => clear_value x); (on_goal 1 => subst x)) | clear_value x)
    | split
    | with_reducible (refine OnlyChanges.snd ?_)
    | with_reducible (refine OnlyChanges.fst ?_)
    | with_reducible (refine OnlyChanges.hres ?_)
    | ((with_reducible (refine OnlyChanges.upd ?_ (fun p hp => ?_))); on_goal 2 => (cases p <;> first | exact rfl | exact absurd (hP _ (by decide)) hp)))

theorem basteTime_only {P : List Part} {s₀ : State} {x0 : Bool} {x1 : Hb} {t : State} (hP : Within [.tim, .tly] P)  (h : OnlyChanges P s₀ t) :
    OnlyChanges P s₀ (State.basteTime x0 x1 t) := by
  unfold State.basteTime
  repeat' (first
    | with_reducible assumption
    | with_reducible (refine updTim_only (hP.step (by decide)) ?_)
    | with_reducible (refine basteMeasure_only (hP.step (by decide)) ?_)
    | with_reducible (refine OnlyChanges.foldl ?_ (fun u a h => ?_))
    | (extract_lets +onlyGivenNames x; first | (refine OnlyChanges.cut x ?_ (fun h => ?_); (on_goal 2 => clear_value x); (on_goal 1 => subst x)) | clear_value x)
    | split
    | with_reducible (refine OnlyChanges.snd ?_)
    | with_reducible (refine OnlyChanges.fst ?_)
    | with_reducible (refine OnlyChanges.hres ?_)
    | ((with_reducible (refine OnlyChanges.upd ?_ (fun p hp => ?_))); on_goal 2 => (cases p <;> first | exact rfl | exact absurd (hP _ (by decide)) hp)))

theorem realign_only {P : List Part} {s₀ : State}  {t : State} (hP : Within [.tim] P)  (h : OnlyChanges P s₀ t) :
    OnlyChanges P s₀ (State.realign t) := by
  unfold State.realign
  repeat' (first
    | with_reducible assumption
    | with_reducible (refine updTim_only (hP.step (by decide)) ?_)
    | with_reducible (refine OnlyChanges.foldl ?_ (fun u a h => ?_))
    | (extract_lets +onlyGivenNames x; first | (refine OnlyChanges.cut x ?_ (fun h => ?_); (on_goal 2 => clear_value x); (on_goal 1 => subst x)) | clear_value x)
    | split
    | with_reducible (refine OnlyChanges.snd ?_)
    | with_reducible (refine OnlyChanges.fst ?_)
    | with_reducible (refine OnlyChanges.hres ?_)
    | ((with_reducible (refine OnlyChanges.upd ?_ (fun p hp => ?_))); on_goal 2 => (cases p <;> first | exact rfl | exact absurd (hP _ (by decide)) hp)))

theorem realignWord_only {P : List Part} {s₀ : State} {x0 : Word} {t : State} (hP : Within [.sys, .tim, .tly] P)  (h : OnlyChanges P s₀ t) :
    OnlyChanges P s₀ (State.realignWord x0 t) := by
  unfold State.realignWord
  repeat' (first
    | with_reducible assumption
    | with_reducible (refine updTim_only (hP.step (by decide)) ?_)
    | with_reducible (refine seqErr_only (hP.step (by decide)) ?_)
    | with_reducible (refine realign_only (hP.step (by decide)) ?_)
    | with_reducible (refine OnlyChanges.foldl ?_ (fun u a h => ?_))
    | (extract_lets +onlyGivenNames x; first | (refine OnlyChanges.cut x ?_ (fun h => ?_); (on_goal 2 => clear_value x); (on_goal 1 => subst x)) | clear_value x)
    | split
    | with_reducible (refine OnlyChanges.snd ?_)
    | with_reducible (refine OnlyChanges.fst ?_)
    | with_reducible (refine OnlyChanges.hres ?_)
    | ((with_reducible (refine OnlyChanges.upd ?_ (fun p hp => ?_))); on_goal 2 => (cases p <;> first | exact rfl | exact absurd (hP _ (by decide)) hp)))

theorem takeStamp_only {P : List Part} {s₀ : State} {x0 : Nat} {x1 : BitVec 16} {t v : State} (hP : Within [.tim] P) (e : State.takeStamp x0 x1 t = some v) (h : OnlyChanges P s₀ t) :
    OnlyChanges P s₀ v := by
  unfold State.takeStamp at e
  split at e
  · cases e
    exact updTPort_only (hP.step (by decide)) h
  · cases e

theorem sendPtp_only {P : List Part} {s₀ : State} {x0 : Nat} {x1 : PtpMsg} {t : State} (hP : Within [.outbox] P)  (h : OnlyChanges P s₀ t) :
    OnlyChanges P s₀ (State.sendPtp x0 x1 t) := by
  unfold State.sendPtp
  repeat' (first
    | with_reducible assumption
    | with_reducible (refine put_only (hP.step (by decide)) ?_)
    | with_reducible (refine OnlyChanges.foldl ?_ (fun u a h => ?_))
    | (extract_lets +onlyGivenNames x; first | (refine OnlyChanges.cut x ?_ (fun h => ?_); (on_goal 2 => clear_value x); (on_goal 1 => subst x)) | clear_value x)
    | split
    | with_reducible (refine OnlyChanges.snd ?_)
    | with_reducible (refine OnlyChanges.fst ?_)
    | with_reducible (refine OnlyChanges.hres ?_)
    | ((with_reducible (refine OnlyChanges.upd ?_ (fun p hp => ?_))); on_goal 2 => (cases p <;> first | exact rfl | exact absurd (hP _ (by decide)) hp)))

end Sys2Proof.Laws
end

