-- ==== Sys2Proof/Laws/OnlyFio.lean ====
section
/-! SUPPORT. What each operation of Fio.lean may change: one frame per operation. -/

set_option linter.unusedTactic false
set_option linter.unreachableTactic false
set_option linter.unusedVariables false
set_option linter.tactic.unusedName false

namespace Sys2Proof.Laws

open Sys2Proof.Machine Sys2Proof.Safety

theorem postFio_only {P : List Part} {s₀ : State} {x0 : Nat} {x1 : Word} {x2 : Option Int} {t : State} (hP : Within [.sys, .tly, .posted] P)  (h : OnlyChanges P s₀ t) :
    OnlyChanges P s₀ (State.postFio x0 x1 x2 t) := by
  unfold State.postFio
  repeat' (first
    | with_reducible assumption
    | with_reducible (refine postTo_only (hP.step (by decide)) ?_)
    | with_reducible (refine OnlyChanges.foldl ?_ (fun u a h => ?_))
    | (extract_lets +onlyGivenNames x; first | (refine OnlyChanges.cut x ?_ (fun h => ?_); (on_goal 2 => clear_value x); (on_goal 1 => subst x)) | clear_value x)
    | split
    | with_reducible (refine OnlyChanges.snd ?_)
    | with_reducible (refine OnlyChanges.fst ?_)
    | with_reducible (refine OnlyChanges.hres ?_)
    | ((with_reducible (refine OnlyChanges.upd ?_ (fun p hp => ?_))); on_goal 2 => (cases p <;> first | exact rfl | exact absurd (hP _ (by decide)) hp)))

theorem postTrim_only {P : List Part} {s₀ : State} {x0 : Nat} {x1 : Word} {x2 : Option Int} {t : State} (hP : Within [.sys, .tly, .posted] P)  (h : OnlyChanges P s₀ t) :
    OnlyChanges P s₀ (State.postTrim x0 x1 x2 t) := by
  unfold State.postTrim
  repeat' (first
    | with_reducible assumption
    | with_reducible (refine postFio_only (hP.step (by decide)) ?_)
    | with_reducible (refine OnlyChanges.foldl ?_ (fun u a h => ?_))
    | (extract_lets +onlyGivenNames x; first | (refine OnlyChanges.cut x ?_ (fun h => ?_); (on_goal 2 => clear_value x); (on_goal 1 => subst x)) | clear_value x)
    | split
    | with_reducible (refine OnlyChanges.snd ?_)
    | with_reducible (refine OnlyChanges.fst ?_)
    | with_reducible (refine OnlyChanges.hres ?_)
    | ((with_reducible (refine OnlyChanges.upd ?_ (fun p hp => ?_))); on_goal 2 => (cases p <;> first | exact rfl | exact absurd (hP _ (by decide)) hp)))

theorem applyDio_only {P : List Part} {s₀ : State} {x0 : Nat} {x1 : Nat} {x2 : Nat} {t : State} (hP : Within [.fio, .outbox] P)  (h : OnlyChanges P s₀ t) :
    OnlyChanges P s₀ (State.applyDio x0 x1 x2 t) := by
  unfold State.applyDio
  repeat' (first
    | with_reducible assumption
    | with_reducible (refine driveDio_only (hP.step (by decide)) ?_)
    | with_reducible (refine OnlyChanges.foldl ?_ (fun u a h => ?_))
    | (extract_lets +onlyGivenNames x; first | (refine OnlyChanges.cut x ?_ (fun h => ?_); (on_goal 2 => clear_value x); (on_goal 1 => subst x)) | clear_value x)
    | split
    | with_reducible (refine OnlyChanges.snd ?_)
    | with_reducible (refine OnlyChanges.fst ?_)
    | with_reducible (refine OnlyChanges.hres ?_)
    | ((with_reducible (refine OnlyChanges.upd ?_ (fun p hp => ?_))); on_goal 2 => (cases p <;> first | exact rfl | exact absurd (hP _ (by decide)) hp)))

theorem applyAio_only {P : List Part} {s₀ : State} {x0 : Nat} {x1 : Nat} {x2 : Nat} {t : State} (hP : Within [.fio, .outbox] P)  (h : OnlyChanges P s₀ t) :
    OnlyChanges P s₀ (State.applyAio x0 x1 x2 t) := by
  unfold State.applyAio
  repeat' (first
    | with_reducible assumption
    | with_reducible (refine driveAo_only (hP.step (by decide)) ?_)
    | with_reducible (refine driveSafe_only (hP.step (by decide)) ?_)
    | with_reducible (refine OnlyChanges.foldl ?_ (fun u a h => ?_))
    | (extract_lets +onlyGivenNames x; first | (refine OnlyChanges.cut x ?_ (fun h => ?_); (on_goal 2 => clear_value x); (on_goal 1 => subst x)) | clear_value x)
    | split
    | with_reducible (refine OnlyChanges.snd ?_)
    | with_reducible (refine OnlyChanges.fst ?_)
    | with_reducible (refine OnlyChanges.hres ?_)
    | ((with_reducible (refine OnlyChanges.upd ?_ (fun p hp => ?_))); on_goal 2 => (cases p <;> first | exact rfl | exact absurd (hP _ (by decide)) hp)))

theorem readPin_only {P : List Part} {s₀ : State} {x0 : Nat} {x1 : Bool} {t : State} (hP : Within [.fio] P)  (h : OnlyChanges P s₀ t) :
    OnlyChanges P s₀ (State.readPin x0 x1 t) := by
  unfold State.readPin
  repeat' (first
    | with_reducible assumption
    | with_reducible (refine updDio_only (hP.step (by decide)) ?_)
    | with_reducible (refine OnlyChanges.foldl ?_ (fun u a h => ?_))
    | (extract_lets +onlyGivenNames x; first | (refine OnlyChanges.cut x ?_ (fun h => ?_); (on_goal 2 => clear_value x); (on_goal 1 => subst x)) | clear_value x)
    | split
    | with_reducible (refine OnlyChanges.snd ?_)
    | with_reducible (refine OnlyChanges.fst ?_)
    | with_reducible (refine OnlyChanges.hres ?_)
    | ((with_reducible (refine OnlyChanges.upd ?_ (fun p hp => ?_))); on_goal 2 => (cases p <;> first | exact rfl | exact absurd (hP _ (by decide)) hp)))

theorem writeOut_only {P : List Part} {s₀ : State} {x0 : OutDst} {x1 : Word} {t : State} (hP : Within [.fio, .outbox] P)  (h : OnlyChanges P s₀ t) :
    OnlyChanges P s₀ (State.writeOut x0 x1 t) := by
  unfold State.writeOut
  repeat' (first
    | with_reducible assumption
    | with_reducible (refine driveAo_only (hP.step (by decide)) ?_)
    | with_reducible (refine driveDio_only (hP.step (by decide)) ?_)
    | with_reducible (refine OnlyChanges.foldl ?_ (fun u a h => ?_))
    | (extract_lets +onlyGivenNames x; first | (refine OnlyChanges.cut x ?_ (fun h => ?_); (on_goal 2 => clear_value x); (on_goal 1 => subst x)) | clear_value x)
    | split
    | with_reducible (refine OnlyChanges.snd ?_)
    | with_reducible (refine OnlyChanges.fst ?_)
    | with_reducible (refine OnlyChanges.hres ?_)
    | ((with_reducible (refine OnlyChanges.upd ?_ (fun p hp => ?_))); on_goal 2 => (cases p <;> first | exact rfl | exact absurd (hP _ (by decide)) hp)))

theorem trip_only {P : List Part} {s₀ : State} {x0 : Nat} {x1 : Trip} {t : State} (hP : Within [.fio, .tly, .outbox] P)  (h : OnlyChanges P s₀ t) :
    OnlyChanges P s₀ (State.trip x0 x1 t) := by
  unfold State.trip
  repeat' (first
    | with_reducible assumption
    | with_reducible (refine updDio_only (hP.step (by decide)) ?_)
    | with_reducible (refine put_only (hP.step (by decide)) ?_)
    | with_reducible (refine log_only (hP.step (by decide)) ?_)
    | with_reducible (refine OnlyChanges.foldl ?_ (fun u a h => ?_))
    | (extract_lets +onlyGivenNames x; first | (refine OnlyChanges.cut x ?_ (fun h => ?_); (on_goal 2 => clear_value x); (on_goal 1 => subst x)) | clear_value x)
    | split
    | with_reducible (refine OnlyChanges.snd ?_)
    | with_reducible (refine OnlyChanges.fst ?_)
    | with_reducible (refine OnlyChanges.hres ?_)
    | ((with_reducible (refine OnlyChanges.upd ?_ (fun p hp => ?_))); on_goal 2 => (cases p <;> first | exact rfl | exact absurd (hP _ (by decide)) hp)))

theorem rearm_only {P : List Part} {s₀ : State} {x0 : Word} {t : State} (hP : Within [.fio, .outbox] P)  (h : OnlyChanges P s₀ t) :
    OnlyChanges P s₀ (State.rearm x0 t) := by
  unfold State.rearm
  repeat' (first
    | with_reducible assumption
    | with_reducible (refine driveWith_only (hP.step (by decide)) ?_)
    | with_reducible (refine OnlyChanges.foldl ?_ (fun u a h => ?_))
    | (extract_lets +onlyGivenNames x; first | (refine OnlyChanges.cut x ?_ (fun h => ?_); (on_goal 2 => clear_value x); (on_goal 1 => subst x)) | clear_value x)
    | split
    | with_reducible (refine OnlyChanges.snd ?_)
    | with_reducible (refine OnlyChanges.fst ?_)
    | with_reducible (refine OnlyChanges.hres ?_)
    | ((with_reducible (refine OnlyChanges.upd ?_ (fun p hp => ?_))); on_goal 2 => (cases p <;> first | exact rfl | exact absurd (hP _ (by decide)) hp)))

theorem setFeed_only {P : List Part} {s₀ : State} {x0 : Nat} {x1 : Bool} {t : State} (hP : Within [.fio, .outbox] P)  (h : OnlyChanges P s₀ t) :
    OnlyChanges P s₀ (State.setFeed x0 x1 t) := by
  unfold State.setFeed
  repeat' (first
    | with_reducible assumption
    | with_reducible (refine driveWith_only (hP.step (by decide)) ?_)
    | with_reducible (refine OnlyChanges.foldl ?_ (fun u a h => ?_))
    | (extract_lets +onlyGivenNames x; first | (refine OnlyChanges.cut x ?_ (fun h => ?_); (on_goal 2 => clear_value x); (on_goal 1 => subst x)) | clear_value x)
    | split
    | with_reducible (refine OnlyChanges.snd ?_)
    | with_reducible (refine OnlyChanges.fst ?_)
    | with_reducible (refine OnlyChanges.hres ?_)
    | ((with_reducible (refine OnlyChanges.upd ?_ (fun p hp => ?_))); on_goal 2 => (cases p <;> first | exact rfl | exact absurd (hP _ (by decide)) hp)))

theorem aiFailure_only {P : List Part} {s₀ : State} {x0 : Nat} {x1 : Nat} {x2 : Int} {t : State} (hP : Within [.fio, .tly] P)  (h : OnlyChanges P s₀ t) :
    OnlyChanges P s₀ (State.aiFailure x0 x1 x2 t) := by
  unfold State.aiFailure
  repeat' (first
    | with_reducible assumption
    | with_reducible (refine updAio_only (hP.step (by decide)) ?_)
    | with_reducible (refine log_only (hP.step (by decide)) ?_)
    | with_reducible (refine OnlyChanges.foldl ?_ (fun u a h => ?_))
    | (extract_lets +onlyGivenNames x; first | (refine OnlyChanges.cut x ?_ (fun h => ?_); (on_goal 2 => clear_value x); (on_goal 1 => subst x)) | clear_value x)
    | split
    | with_reducible (refine OnlyChanges.snd ?_)
    | with_reducible (refine OnlyChanges.fst ?_)
    | with_reducible (refine OnlyChanges.hres ?_)
    | ((with_reducible (refine OnlyChanges.upd ?_ (fun p hp => ?_))); on_goal 2 => (cases p <;> first | exact rfl | exact absurd (hP _ (by decide)) hp)))

theorem convert_only {P : List Part} {s₀ : State} {x0 : Nat} {x1 : Int} {x2 : Bool} {x3 : Bool} {t : State} (hP : Within [.fio, .tly] P)  (h : OnlyChanges P s₀ t) :
    OnlyChanges P s₀ (State.convert x0 x1 x2 x3 t) := by
  unfold State.convert
  repeat' (first
    | with_reducible assumption
    | with_reducible (refine aiFailure_only (hP.step (by decide)) ?_)
    | with_reducible (refine updAio_only (hP.step (by decide)) ?_)
    | with_reducible (refine OnlyChanges.foldl ?_ (fun u a h => ?_))
    | (extract_lets +onlyGivenNames x; first | (refine OnlyChanges.cut x ?_ (fun h => ?_); (on_goal 2 => clear_value x); (on_goal 1 => subst x)) | clear_value x)
    | split
    | with_reducible (refine OnlyChanges.snd ?_)
    | with_reducible (refine OnlyChanges.fst ?_)
    | with_reducible (refine OnlyChanges.hres ?_)
    | ((with_reducible (refine OnlyChanges.upd ?_ (fun p hp => ?_))); on_goal 2 => (cases p <;> first | exact rfl | exact absurd (hP _ (by decide)) hp)))

theorem aoOnset_only {P : List Part} {s₀ : State} {x0 : Nat} {x1 : Nat} {x2 : Nat} {t : State} (hP : Within [.fio, .tly] P)  (h : OnlyChanges P s₀ t) :
    OnlyChanges P s₀ (State.aoOnset x0 x1 x2 t) := by
  unfold State.aoOnset
  repeat' (first
    | with_reducible assumption
    | with_reducible (refine updAio_only (hP.step (by decide)) ?_)
    | with_reducible (refine log_only (hP.step (by decide)) ?_)
    | with_reducible (refine OnlyChanges.foldl ?_ (fun u a h => ?_))
    | (extract_lets +onlyGivenNames x; first | (refine OnlyChanges.cut x ?_ (fun h => ?_); (on_goal 2 => clear_value x); (on_goal 1 => subst x)) | clear_value x)
    | split
    | with_reducible (refine OnlyChanges.snd ?_)
    | with_reducible (refine OnlyChanges.fst ?_)
    | with_reducible (refine OnlyChanges.hres ?_)
    | ((with_reducible (refine OnlyChanges.upd ?_ (fun p hp => ?_))); on_goal 2 => (cases p <;> first | exact rfl | exact absurd (hP _ (by decide)) hp)))

theorem restrap_only {P : List Part} {s₀ : State} {x0 : Nat} {t : State} (hP : Within [.fio, .outbox] P)  (h : OnlyChanges P s₀ t) :
    OnlyChanges P s₀ (State.restrap x0 t) := by
  unfold State.restrap
  repeat' (first
    | with_reducible assumption
    | with_reducible (refine driveFail_only (hP.step (by decide)) ?_)
    | with_reducible (refine driveZero_only (hP.step (by decide)) ?_)
    | with_reducible (refine OnlyChanges.foldl ?_ (fun u a h => ?_))
    | (extract_lets +onlyGivenNames x; first | (refine OnlyChanges.cut x ?_ (fun h => ?_); (on_goal 2 => clear_value x); (on_goal 1 => subst x)) | clear_value x)
    | split
    | with_reducible (refine OnlyChanges.snd ?_)
    | with_reducible (refine OnlyChanges.fst ?_)
    | with_reducible (refine OnlyChanges.hres ?_)
    | ((with_reducible (refine OnlyChanges.upd ?_ (fun p hp => ?_))); on_goal 2 => (cases p <;> first | exact rfl | exact absurd (hP _ (by decide)) hp)))

theorem trimRefuse_only {P : List Part} {s₀ : State} {x0 : Nat} {x1 : Nat} {t : State} (hP : Within [.fio] P)  (h : OnlyChanges P s₀ t) :
    OnlyChanges P s₀ (State.trimRefuse x0 x1 t) := by
  unfold State.trimRefuse
  repeat' (first
    | with_reducible assumption
    | with_reducible (refine updAio_only (hP.step (by decide)) ?_)
    | with_reducible (refine OnlyChanges.foldl ?_ (fun u a h => ?_))
    | (extract_lets +onlyGivenNames x; first | (refine OnlyChanges.cut x ?_ (fun h => ?_); (on_goal 2 => clear_value x); (on_goal 1 => subst x)) | clear_value x)
    | split
    | with_reducible (refine OnlyChanges.snd ?_)
    | with_reducible (refine OnlyChanges.fst ?_)
    | with_reducible (refine OnlyChanges.hres ?_)
    | ((with_reducible (refine OnlyChanges.upd ?_ (fun p hp => ?_))); on_goal 2 => (cases p <;> first | exact rfl | exact absurd (hP _ (by decide)) hp)))

theorem trimOp_only {P : List Part} {s₀ : State} {x0 : Nat} {x1 : State → State} {t : State} (hP : Within [.fio] P) (hf1 : ∀ u, OnlyChanges P s₀ u → OnlyChanges P s₀ (x1 u)) (h : OnlyChanges P s₀ t) :
    OnlyChanges P s₀ (State.trimOp x0 x1 t) := by
  unfold State.trimOp
  repeat' (first
    | with_reducible assumption
    | with_reducible (refine trimRefuse_only (hP.step (by decide)) ?_)
    | with_reducible (refine OnlyChanges.foldl ?_ (fun u a h => ?_))
    | with_reducible (apply hf1)
    | (extract_lets +onlyGivenNames x; first | (refine OnlyChanges.cut x ?_ (fun h => ?_); (on_goal 2 => clear_value x); (on_goal 1 => subst x)) | clear_value x)
    | split
    | with_reducible (refine OnlyChanges.snd ?_)
    | with_reducible (refine OnlyChanges.fst ?_)
    | with_reducible (refine OnlyChanges.hres ?_)
    | ((with_reducible (refine OnlyChanges.upd ?_ (fun p hp => ?_))); on_goal 2 => (cases p <;> first | exact rfl | exact absurd (hP _ (by decide)) hp)))

theorem capture_only {P : List Part} {s₀ : State} {x0 : Nat} {x1 : Bool} {x2 : Int} {t : State} (hP : Within [.fio] P)  (h : OnlyChanges P s₀ t) :
    OnlyChanges P s₀ (State.capture x0 x1 x2 t) := by
  unfold State.capture
  repeat' (first
    | with_reducible assumption
    | with_reducible (refine trimRefuse_only (hP.step (by decide)) ?_)
    | with_reducible (refine updAio_only (hP.step (by decide)) ?_)
    | with_reducible (refine OnlyChanges.foldl ?_ (fun u a h => ?_))
    | (extract_lets +onlyGivenNames x; first | (refine OnlyChanges.cut x ?_ (fun h => ?_); (on_goal 2 => clear_value x); (on_goal 1 => subst x)) | clear_value x)
    | split
    | with_reducible (refine OnlyChanges.snd ?_)
    | with_reducible (refine OnlyChanges.fst ?_)
    | with_reducible (refine OnlyChanges.hres ?_)
    | ((with_reducible (refine OnlyChanges.upd ?_ (fun p hp => ?_))); on_goal 2 => (cases p <;> first | exact rfl | exact absurd (hP _ (by decide)) hp)))

theorem trimRecord_only {P : List Part} {s₀ : State} {x0 : Nat} {x1 : Nat} {x2 : Int} {x3 : Int} {x4 : Int} {x5 : Int} {t : State} (hP : Within [.tly] P)  (h : OnlyChanges P s₀ t) :
    OnlyChanges P s₀ (State.trimRecord x0 x1 x2 x3 x4 x5 t) := by
  unfold State.trimRecord
  repeat' (first
    | with_reducible assumption
    | with_reducible (refine log_only (hP.step (by decide)) ?_)
    | with_reducible (refine OnlyChanges.foldl ?_ (fun u a h => ?_))
    | (extract_lets +onlyGivenNames x; first | (refine OnlyChanges.cut x ?_ (fun h => ?_); (on_goal 2 => clear_value x); (on_goal 1 => subst x)) | clear_value x)
    | split
    | with_reducible (refine OnlyChanges.snd ?_)
    | with_reducible (refine OnlyChanges.fst ?_)
    | with_reducible (refine OnlyChanges.hres ?_)
    | ((with_reducible (refine OnlyChanges.upd ?_ (fun p hp => ?_))); on_goal 2 => (cases p <;> first | exact rfl | exact absurd (hP _ (by decide)) hp)))

theorem trimStore_only {P : List Part} {s₀ : State} {x0 : Nat} {t : State} (hP : Within [.fio, .tly] P)  (h : OnlyChanges P s₀ t) :
    OnlyChanges P s₀ (State.trimStore x0 t) := by
  unfold State.trimStore
  repeat' (first
    | with_reducible assumption
    | with_reducible (refine trimRefuse_only (hP.step (by decide)) ?_)
    | with_reducible (refine updAio_only (hP.step (by decide)) ?_)
    | with_reducible (refine trimRecord_only (hP.step (by decide)) ?_)
    | with_reducible (refine OnlyChanges.foldl ?_ (fun u a h => ?_))
    | (extract_lets +onlyGivenNames x; first | (refine OnlyChanges.cut x ?_ (fun h => ?_); (on_goal 2 => clear_value x); (on_goal 1 => subst x)) | clear_value x)
    | split
    | with_reducible (refine OnlyChanges.snd ?_)
    | with_reducible (refine OnlyChanges.fst ?_)
    | with_reducible (refine OnlyChanges.hres ?_)
    | ((with_reducible (refine OnlyChanges.upd ?_ (fun p hp => ?_))); on_goal 2 => (cases p <;> first | exact rfl | exact absurd (hP _ (by decide)) hp)))

theorem trimDiscard_only {P : List Part} {s₀ : State} {x0 : Nat} {t : State} (hP : Within [.fio] P)  (h : OnlyChanges P s₀ t) :
    OnlyChanges P s₀ (State.trimDiscard x0 t) := by
  unfold State.trimDiscard
  repeat' (first
    | with_reducible assumption
    | with_reducible (refine updAio_only (hP.step (by decide)) ?_)
    | with_reducible (refine OnlyChanges.foldl ?_ (fun u a h => ?_))
    | (extract_lets +onlyGivenNames x; first | (refine OnlyChanges.cut x ?_ (fun h => ?_); (on_goal 2 => clear_value x); (on_goal 1 => subst x)) | clear_value x)
    | split
    | with_reducible (refine OnlyChanges.snd ?_)
    | with_reducible (refine OnlyChanges.fst ?_)
    | with_reducible (refine OnlyChanges.hres ?_)
    | ((with_reducible (refine OnlyChanges.upd ?_ (fun p hp => ?_))); on_goal 2 => (cases p <;> first | exact rfl | exact absurd (hP _ (by decide)) hp)))

theorem trimFactory_only {P : List Part} {s₀ : State} {x0 : Nat} {t : State} (hP : Within [.fio, .tly] P)  (h : OnlyChanges P s₀ t) :
    OnlyChanges P s₀ (State.trimFactory x0 t) := by
  unfold State.trimFactory
  repeat' (first
    | with_reducible assumption
    | with_reducible (refine trimRefuse_only (hP.step (by decide)) ?_)
    | with_reducible (refine updAio_only (hP.step (by decide)) ?_)
    | with_reducible (refine trimRecord_only (hP.step (by decide)) ?_)
    | with_reducible (refine OnlyChanges.foldl ?_ (fun u a h => ?_))
    | (extract_lets +onlyGivenNames x; first | (refine OnlyChanges.cut x ?_ (fun h => ?_); (on_goal 2 => clear_value x); (on_goal 1 => subst x)) | clear_value x)
    | split
    | with_reducible (refine OnlyChanges.snd ?_)
    | with_reducible (refine OnlyChanges.fst ?_)
    | with_reducible (refine OnlyChanges.hres ?_)
    | ((with_reducible (refine OnlyChanges.upd ?_ (fun p hp => ?_))); on_goal 2 => (cases p <;> first | exact rfl | exact absurd (hP _ (by decide)) hp)))

theorem trimDrive_only {P : List Part} {s₀ : State} {x0 : Nat} {x1 : Bool} {t : State} (hP : Within [.fio, .outbox] P)  (h : OnlyChanges P s₀ t) :
    OnlyChanges P s₀ (State.trimDrive x0 x1 t) := by
  unfold State.trimDrive
  repeat' (first
    | with_reducible assumption
    | with_reducible (refine trimRefuse_only (hP.step (by decide)) ?_)
    | with_reducible (refine updAio_only (hP.step (by decide)) ?_)
    | with_reducible (refine put_only (hP.step (by decide)) ?_)
    | with_reducible (refine OnlyChanges.foldl ?_ (fun u a h => ?_))
    | (extract_lets +onlyGivenNames x; first | (refine OnlyChanges.cut x ?_ (fun h => ?_); (on_goal 2 => clear_value x); (on_goal 1 => subst x)) | clear_value x)
    | split
    | with_reducible (refine OnlyChanges.snd ?_)
    | with_reducible (refine OnlyChanges.fst ?_)
    | with_reducible (refine OnlyChanges.hres ?_)
    | ((with_reducible (refine OnlyChanges.upd ?_ (fun p hp => ?_))); on_goal 2 => (cases p <;> first | exact rfl | exact absurd (hP _ (by decide)) hp)))

theorem updHart_only {P : List Part} {s₀ : State} {x0 : Hart → Hart} {t : State} (hP : Within [.fio] P)  (h : OnlyChanges P s₀ t) :
    OnlyChanges P s₀ (State.updHart x0 t) := by
  unfold State.updHart
  repeat' (first
    | with_reducible assumption
    | with_reducible (refine OnlyChanges.foldl ?_ (fun u a h => ?_))
    | (extract_lets +onlyGivenNames x; first | (refine OnlyChanges.cut x ?_ (fun h => ?_); (on_goal 2 => clear_value x); (on_goal 1 => subst x)) | clear_value x)
    | split
    | with_reducible (refine OnlyChanges.snd ?_)
    | with_reducible (refine OnlyChanges.fst ?_)
    | with_reducible (refine OnlyChanges.hres ?_)
    | ((with_reducible (refine OnlyChanges.upd ?_ (fun p hp => ?_))); on_goal 2 => (cases p <;> first | exact rfl | exact absurd (hP _ (by decide)) hp)))

theorem hartPop_only {P : List Part} {s₀ : State} {x0 : Nat} {x1 : Nat} {t : State} (hP : Within [.fio] P)  (h : OnlyChanges P s₀ t) :
    OnlyChanges P s₀ (State.hartPop x0 x1 t) := by
  unfold State.hartPop
  repeat' (first
    | with_reducible assumption
    | with_reducible (refine updHart_only (hP.step (by decide)) ?_)
    | with_reducible (refine OnlyChanges.foldl ?_ (fun u a h => ?_))
    | (extract_lets +onlyGivenNames x; first | (refine OnlyChanges.cut x ?_ (fun h => ?_); (on_goal 2 => clear_value x); (on_goal 1 => subst x)) | clear_value x)
    | split
    | with_reducible (refine OnlyChanges.snd ?_)
    | with_reducible (refine OnlyChanges.fst ?_)
    | with_reducible (refine OnlyChanges.hres ?_)
    | ((with_reducible (refine OnlyChanges.upd ?_ (fun p hp => ?_))); on_goal 2 => (cases p <;> first | exact rfl | exact absurd (hP _ (by decide)) hp)))

theorem hartNext_only {P : List Part} {s₀ : State} {x0 : Nat} {t : State} (hP : Within [.fio, .outbox] P)  (h : OnlyChanges P s₀ t) :
    OnlyChanges P s₀ (State.hartNext x0 t) := by
  unfold State.hartNext
  repeat' (first
    | with_reducible assumption
    | with_reducible (refine hartPop_only (hP.step (by decide)) ?_)
    | with_reducible (refine updHart_only (hP.step (by decide)) ?_)
    | with_reducible (refine put_only (hP.step (by decide)) ?_)
    | with_reducible (refine OnlyChanges.foldl ?_ (fun u a h => ?_))
    | (extract_lets +onlyGivenNames x; first | (refine OnlyChanges.cut x ?_ (fun h => ?_); (on_goal 2 => clear_value x); (on_goal 1 => subst x)) | clear_value x)
    | split
    | with_reducible (refine OnlyChanges.snd ?_)
    | with_reducible (refine OnlyChanges.fst ?_)
    | with_reducible (refine OnlyChanges.hres ?_)
    | ((with_reducible (refine OnlyChanges.upd ?_ (fun p hp => ?_))); on_goal 2 => (cases p <;> first | exact rfl | exact absurd (hP _ (by decide)) hp)))

theorem hartGo_only {P : List Part} {s₀ : State} {x0 : Word} {t : State} (hP : Within [.sys, .fio, .regs, .outbox] P)  (h : OnlyChanges P s₀ t) :
    OnlyChanges P s₀ (State.hartGo x0 t) := by
  unfold State.hartGo
  repeat' (first
    | with_reducible assumption
    | with_reducible (refine updHart_only (hP.step (by decide)) ?_)
    | with_reducible (refine accAddr_only (hP.step (by decide)) ?_)
    | with_reducible (refine setReg_only (hP.step (by decide)) ?_)
    | with_reducible (refine hartNext_only (hP.step (by decide)) ?_)
    | with_reducible (refine OnlyChanges.foldl ?_ (fun u a h => ?_))
    | (extract_lets +onlyGivenNames x; first | (refine OnlyChanges.cut x ?_ (fun h => ?_); (on_goal 2 => clear_value x); (on_goal 1 => subst x)) | clear_value x)
    | split
    | with_reducible (refine OnlyChanges.snd ?_)
    | with_reducible (refine OnlyChanges.fst ?_)
    | with_reducible (refine OnlyChanges.hres ?_)
    | ((with_reducible (refine OnlyChanges.upd ?_ (fun p hp => ?_))); on_goal 2 => (cases p <;> first | exact rfl | exact absurd (hP _ (by decide)) hp)))

theorem pollEnd_only {P : List Part} {s₀ : State} {x0 : Nat} {x1 : Nat} {x2 : HartEnd} {t : State} (hP : Within [.fio] P)  (h : OnlyChanges P s₀ t) :
    OnlyChanges P s₀ (State.pollEnd x0 x1 x2 t) := by
  unfold State.pollEnd
  repeat' (first
    | with_reducible assumption
    | with_reducible (refine updAio_only (hP.step (by decide)) ?_)
    | with_reducible (refine OnlyChanges.foldl ?_ (fun u a h => ?_))
    | (extract_lets +onlyGivenNames x; first | (refine OnlyChanges.cut x ?_ (fun h => ?_); (on_goal 2 => clear_value x); (on_goal 1 => subst x)) | clear_value x)
    | split
    | with_reducible (refine OnlyChanges.snd ?_)
    | with_reducible (refine OnlyChanges.fst ?_)
    | with_reducible (refine OnlyChanges.hres ?_)
    | ((with_reducible (refine OnlyChanges.upd ?_ (fun p hp => ?_))); on_goal 2 => (cases p <;> first | exact rfl | exact absurd (hP _ (by decide)) hp)))

theorem hartEnd_only {P : List Part} {s₀ : State} {x0 : Nat} {x1 : HartEnd} {x2 : Nat} {t : State} (hP : Within [.fio, .outbox] P)  (h : OnlyChanges P s₀ t) :
    OnlyChanges P s₀ (State.hartEnd x0 x1 x2 t) := by
  unfold State.hartEnd
  repeat' (first
    | with_reducible assumption
    | with_reducible (refine updAio_only (hP.step (by decide)) ?_)
    | with_reducible (refine updHart_only (hP.step (by decide)) ?_)
    | with_reducible (refine pollEnd_only (hP.step (by decide)) ?_)
    | with_reducible (refine hartNext_only (hP.step (by decide)) ?_)
    | with_reducible (refine OnlyChanges.foldl ?_ (fun u a h => ?_))
    | (extract_lets +onlyGivenNames x; first | (refine OnlyChanges.cut x ?_ (fun h => ?_); (on_goal 2 => clear_value x); (on_goal 1 => subst x)) | clear_value x)
    | split
    | with_reducible (refine OnlyChanges.snd ?_)
    | with_reducible (refine OnlyChanges.fst ?_)
    | with_reducible (refine OnlyChanges.hres ?_)
    | ((with_reducible (refine OnlyChanges.upd ?_ (fun p hp => ?_))); on_goal 2 => (cases p <;> first | exact rfl | exact absurd (hP _ (by decide)) hp)))

end Sys2Proof.Laws
end

