-- ==== Sys2Proof/Laws/OnlyCan.lean ====
section
/-! SUPPORT. What each operation of Can.lean may change: one frame per operation. -/

set_option linter.unusedTactic false
set_option linter.unreachableTactic false
set_option linter.unusedVariables false
set_option linter.tactic.unusedName false

namespace Sys2Proof.Laws

open Sys2Proof.Machine Sys2Proof.Safety

theorem judgeQ_only {P : List Part} {s₀ : State} {x0 : Nat} {x1 : Nat} {t : State} (hP : Within [.can, .tly] P)  (h : OnlyChanges P s₀ t) :
    OnlyChanges P s₀ (State.judgeQ x0 x1 t) := by
  unfold State.judgeQ
  repeat' (first
    | with_reducible assumption
    | with_reducible (refine updCan_only (hP.step (by decide)) ?_)
    | with_reducible (refine log_only (hP.step (by decide)) ?_)
    | with_reducible (refine OnlyChanges.foldl ?_ (fun u a h => ?_))
    | (extract_lets +onlyGivenNames x; first | (refine OnlyChanges.cut x ?_ (fun h => ?_); (on_goal 2 => clear_value x); (on_goal 1 => subst x)) | clear_value x)
    | split
    | with_reducible (refine OnlyChanges.snd ?_)
    | with_reducible (refine OnlyChanges.fst ?_)
    | with_reducible (refine OnlyChanges.hres ?_)
    | ((with_reducible (refine OnlyChanges.upd ?_ (fun p hp => ?_))); on_goal 2 => (cases p <;> first | exact rfl | exact absurd (hP _ (by decide)) hp)))

theorem canStore_only {P : List Part} {s₀ : State} {x0 : Nat} {x1 : Nat} {x2 : Bool} {x3 : Nat} {x4 : List Byte} {t : State} (hP : Within [.can, .canq, .tly] P)  (h : OnlyChanges P s₀ t) :
    OnlyChanges P s₀ (State.canStore x0 x1 x2 x3 x4 t) := by
  unfold State.canStore
  repeat' (first
    | with_reducible assumption
    | with_reducible (refine updCanQ_only (hP.step (by decide)) ?_)
    | with_reducible (refine judgeQ_only (hP.step (by decide)) ?_)
    | with_reducible (refine OnlyChanges.foldl ?_ (fun u a h => ?_))
    | (extract_lets +onlyGivenNames x; first | (refine OnlyChanges.cut x ?_ (fun h => ?_); (on_goal 2 => clear_value x); (on_goal 1 => subst x)) | clear_value x)
    | split
    | with_reducible (refine OnlyChanges.snd ?_)
    | with_reducible (refine OnlyChanges.fst ?_)
    | with_reducible (refine OnlyChanges.hres ?_)
    | ((with_reducible (refine OnlyChanges.upd ?_ (fun p hp => ?_))); on_goal 2 => (cases p <;> first | exact rfl | exact absurd (hP _ (by decide)) hp)))

theorem confine_only {P : List Part} {s₀ : State} {x0 : Nat} {t : State} (hP : Within [.can, .tly] P)  (h : OnlyChanges P s₀ t) :
    OnlyChanges P s₀ (State.confine x0 t) := by
  unfold State.confine
  repeat' (first
    | with_reducible assumption
    | with_reducible (refine updCan_only (hP.step (by decide)) ?_)
    | with_reducible (refine log_only (hP.step (by decide)) ?_)
    | with_reducible (refine OnlyChanges.foldl ?_ (fun u a h => ?_))
    | (extract_lets +onlyGivenNames x; first | (refine OnlyChanges.cut x ?_ (fun h => ?_); (on_goal 2 => clear_value x); (on_goal 1 => subst x)) | clear_value x)
    | split
    | with_reducible (refine OnlyChanges.snd ?_)
    | with_reducible (refine OnlyChanges.fst ?_)
    | with_reducible (refine OnlyChanges.hres ?_)
    | ((with_reducible (refine OnlyChanges.upd ?_ (fun p hp => ?_))); on_goal 2 => (cases p <;> first | exact rfl | exact absurd (hP _ (by decide)) hp)))

theorem canComplete_only {P : List Part} {s₀ : State} {x0 : Nat} {x1 : Nat} {x2 : Bool} {t : State} (hP : Within [.canq, .freeN] P)  (h : OnlyChanges P s₀ t) :
    OnlyChanges P s₀ (State.canComplete x0 x1 x2 t) := by
  unfold State.canComplete
  repeat' (first
    | with_reducible assumption
    | with_reducible (refine draw_only (hP.step (by decide)) ?_)
    | with_reducible (refine updCanQ_only (hP.step (by decide)) ?_)
    | with_reducible (refine OnlyChanges.foldl ?_ (fun u a h => ?_))
    | (extract_lets +onlyGivenNames x; first | (refine OnlyChanges.cut x ?_ (fun h => ?_); (on_goal 2 => clear_value x); (on_goal 1 => subst x)) | (refine OnlyChanges.cut x.2 ?_ (fun h => ?_); (on_goal 2 => clear_value x); (on_goal 1 => subst x)) | clear_value x)
    | split
    | with_reducible (refine OnlyChanges.snd ?_)
    | with_reducible (refine OnlyChanges.fst ?_)
    | with_reducible (refine OnlyChanges.hres ?_)
    | ((with_reducible (refine OnlyChanges.upd ?_ (fun p hp => ?_))); on_goal 2 => (cases p <;> first | exact rfl | exact absurd (hP _ (by decide)) hp)))

theorem canFetch_only {P : List Part} {s₀ : State} {x0 : Nat} {t : State} (hP : Within [.canq, .freeN] P)  (h : OnlyChanges P s₀ t) :
    OnlyChanges P s₀ (State.canFetch x0 t) := by
  unfold State.canFetch
  repeat' (first
    | with_reducible assumption
    | with_reducible (refine updCanQ_only (hP.step (by decide)) ?_)
    | with_reducible (refine canComplete_only (hP.step (by decide)) ?_)
    | with_reducible (refine OnlyChanges.foldl ?_ (fun u a h => ?_))
    | (extract_lets +onlyGivenNames x; first | (refine OnlyChanges.cut x ?_ (fun h => ?_); (on_goal 2 => clear_value x); (on_goal 1 => subst x)) | clear_value x)
    | split
    | with_reducible (refine OnlyChanges.snd ?_)
    | with_reducible (refine OnlyChanges.fst ?_)
    | with_reducible (refine OnlyChanges.hres ?_)
    | ((with_reducible (refine OnlyChanges.upd ?_ (fun p hp => ?_))); on_goal 2 => (cases p <;> first | exact rfl | exact absurd (hP _ (by decide)) hp)))

theorem canPoll_only {P : List Part} {s₀ : State} {x0 : Nat} {t : State} (hP : Within [.can, .canq, .tly, .freeN] P)  (h : OnlyChanges P s₀ t) :
    OnlyChanges P s₀ (State.canPoll x0 t) := by
  unfold State.canPoll
  repeat' (first
    | with_reducible assumption
    | with_reducible (refine updCanQ_only (hP.step (by decide)) ?_)
    | with_reducible (refine updCan_only (hP.step (by decide)) ?_)
    | with_reducible (refine judgeQ_only (hP.step (by decide)) ?_)
    | with_reducible (refine canFetch_only (hP.step (by decide)) ?_)
    | with_reducible (refine OnlyChanges.foldl ?_ (fun u a h => ?_))
    | (extract_lets +onlyGivenNames x; first | (refine OnlyChanges.cut x ?_ (fun h => ?_); (on_goal 2 => clear_value x); (on_goal 1 => subst x)) | clear_value x)
    | split
    | with_reducible (refine OnlyChanges.snd ?_)
    | with_reducible (refine OnlyChanges.fst ?_)
    | with_reducible (refine OnlyChanges.hres ?_)
    | ((with_reducible (refine OnlyChanges.upd ?_ (fun p hp => ?_))); on_goal 2 => (cases p <;> first | exact rfl | exact absurd (hP _ (by decide)) hp)))

theorem handOver_only {P : List Part} {s₀ : State} {x0 : Nat} {x1 : Nat} {x2 : Option Nat} {x3 : CanEnt} {x4 : Word} {t : State} (hP : Within [.can, .canq, .tly, .freeN] P)  (h : OnlyChanges P s₀ t) :
    OnlyChanges P s₀ (State.handOver x0 x1 x2 x3 x4 t) := by
  unfold State.handOver
  repeat' (first
    | with_reducible assumption
    | with_reducible (refine updCan_only (hP.step (by decide)) ?_)
    | with_reducible (refine draw_only (hP.step (by decide)) ?_)
    | with_reducible (refine updCanQ_only (hP.step (by decide)) ?_)
    | with_reducible (refine judgeQ_only (hP.step (by decide)) ?_)
    | with_reducible (refine OnlyChanges.foldl ?_ (fun u a h => ?_))
    | (extract_lets +onlyGivenNames x; first | (refine OnlyChanges.cut x ?_ (fun h => ?_); (on_goal 2 => clear_value x); (on_goal 1 => subst x)) | (refine OnlyChanges.cut x.2 ?_ (fun h => ?_); (on_goal 2 => clear_value x); (on_goal 1 => subst x)) | clear_value x)
    | split
    | with_reducible (refine OnlyChanges.snd ?_)
    | with_reducible (refine OnlyChanges.fst ?_)
    | with_reducible (refine OnlyChanges.hres ?_)
    | ((with_reducible (refine OnlyChanges.upd ?_ (fun p hp => ?_))); on_goal 2 => (cases p <;> first | exact rfl | exact absurd (hP _ (by decide)) hp)))

theorem recDown_only {P : List Part} {s₀ : State} {x0 : Nat} {t : State} (hP : Within [.can, .freeN] P)  (h : OnlyChanges P s₀ t) :
    OnlyChanges P s₀ (State.recDown x0 t) := by
  unfold State.recDown
  repeat' (first
    | with_reducible assumption
    | with_reducible (refine updCan_only (hP.step (by decide)) ?_)
    | with_reducible (refine draw_only (hP.step (by decide)) ?_)
    | with_reducible (refine OnlyChanges.foldl ?_ (fun u a h => ?_))
    | (extract_lets +onlyGivenNames x; first | (refine OnlyChanges.cut x ?_ (fun h => ?_); (on_goal 2 => clear_value x); (on_goal 1 => subst x)) | (refine OnlyChanges.cut x.2 ?_ (fun h => ?_); (on_goal 2 => clear_value x); (on_goal 1 => subst x)) | clear_value x)
    | split
    | with_reducible (refine OnlyChanges.snd ?_)
    | with_reducible (refine OnlyChanges.fst ?_)
    | with_reducible (refine OnlyChanges.hres ?_)
    | ((with_reducible (refine OnlyChanges.upd ?_ (fun p hp => ?_))); on_goal 2 => (cases p <;> first | exact rfl | exact absurd (hP _ (by decide)) hp)))

theorem attemptFailed_only {P : List Part} {s₀ : State} {x0 : Nat} {x1 : Bool} {t : State} (hP : Within [.can, .canq, .freeN] P)  (h : OnlyChanges P s₀ t) :
    OnlyChanges P s₀ (State.attemptFailed x0 x1 t) := by
  unfold State.attemptFailed
  repeat' (first
    | with_reducible assumption
    | with_reducible (refine updCanQ_only (hP.step (by decide)) ?_)
    | with_reducible (refine updCan_only (hP.step (by decide)) ?_)
    | with_reducible (refine canComplete_only (hP.step (by decide)) ?_)
    | with_reducible (refine OnlyChanges.foldl ?_ (fun u a h => ?_))
    | (extract_lets +onlyGivenNames x; first | (refine OnlyChanges.cut x ?_ (fun h => ?_); (on_goal 2 => clear_value x); (on_goal 1 => subst x)) | clear_value x)
    | split
    | with_reducible (refine OnlyChanges.snd ?_)
    | with_reducible (refine OnlyChanges.fst ?_)
    | with_reducible (refine OnlyChanges.hres ?_)
    | ((with_reducible (refine OnlyChanges.upd ?_ (fun p hp => ?_))); on_goal 2 => (cases p <;> first | exact rfl | exact absurd (hP _ (by decide)) hp)))

theorem canError_only {P : List Part} {s₀ : State} {x0 : Nat} {x1 : CanErr} {x2 : Bool} {x3 : Bool} {x4 : Nat} {t : State} (hP : Within [.can, .canq, .tly, .freeN] P)  (h : OnlyChanges P s₀ t) :
    OnlyChanges P s₀ (State.canError x0 x1 x2 x3 x4 t) := by
  unfold State.canError
  repeat' (first
    | with_reducible assumption
    | with_reducible (refine updCan_only (hP.step (by decide)) ?_)
    | with_reducible (refine confine_only (hP.step (by decide)) ?_)
    | with_reducible (refine attemptFailed_only (hP.step (by decide)) ?_)
    | with_reducible (refine canPoll_only (hP.step (by decide)) ?_)
    | with_reducible (refine OnlyChanges.foldl ?_ (fun u a h => ?_))
    | (extract_lets +onlyGivenNames x; first | (refine OnlyChanges.cut x ?_ (fun h => ?_); (on_goal 2 => clear_value x); (on_goal 1 => subst x)) | clear_value x)
    | split
    | with_reducible (refine OnlyChanges.snd ?_)
    | with_reducible (refine OnlyChanges.fst ?_)
    | with_reducible (refine OnlyChanges.hres ?_)
    | ((with_reducible (refine OnlyChanges.upd ?_ (fun p hp => ?_))); on_goal 2 => (cases p <;> first | exact rfl | exact absurd (hP _ (by decide)) hp)))

theorem canCmd_only {P : List Part} {s₀ : State} {x0 : Nat} {t : State} (hP : Within [.can] P)  (h : OnlyChanges P s₀ t) :
    OnlyChanges P s₀ (State.canCmd x0 t) := by
  unfold State.canCmd
  repeat' (first
    | with_reducible assumption
    | with_reducible (refine updCan_only (hP.step (by decide)) ?_)
    | with_reducible (refine OnlyChanges.foldl ?_ (fun u a h => ?_))
    | (extract_lets +onlyGivenNames x; first | (refine OnlyChanges.cut x ?_ (fun h => ?_); (on_goal 2 => clear_value x); (on_goal 1 => subst x)) | clear_value x)
    | split
    | with_reducible (refine OnlyChanges.snd ?_)
    | with_reducible (refine OnlyChanges.fst ?_)
    | with_reducible (refine OnlyChanges.hres ?_)
    | ((with_reducible (refine OnlyChanges.upd ?_ (fun p hp => ?_))); on_goal 2 => (cases p <;> first | exact rfl | exact absurd (hP _ (by decide)) hp)))

theorem noteTdcv_only {P : List Part} {s₀ : State} {x0 : Nat} {x1 : CanEnt} {x2 : BitVec 8} {t : State} (hP : Within [.can] P)  (h : OnlyChanges P s₀ t) :
    OnlyChanges P s₀ (State.noteTdcv x0 x1 x2 t) := by
  unfold State.noteTdcv
  repeat' (first
    | with_reducible assumption
    | with_reducible (refine updCan_only (hP.step (by decide)) ?_)
    | with_reducible (refine OnlyChanges.foldl ?_ (fun u a h => ?_))
    | (extract_lets +onlyGivenNames x; first | (refine OnlyChanges.cut x ?_ (fun h => ?_); (on_goal 2 => clear_value x); (on_goal 1 => subst x)) | clear_value x)
    | split
    | with_reducible (refine OnlyChanges.snd ?_)
    | with_reducible (refine OnlyChanges.fst ?_)
    | with_reducible (refine OnlyChanges.hres ?_)
    | ((with_reducible (refine OnlyChanges.upd ?_ (fun p hp => ?_))); on_goal 2 => (cases p <;> first | exact rfl | exact absurd (hP _ (by decide)) hp)))

theorem attemptSent_only {P : List Part} {s₀ : State} {x0 : Nat} {x1 : CanCur} {x2 : BitVec 8} {t : State} (hP : Within [.can, .canq, .tly, .outbox, .freeN] P)  (h : OnlyChanges P s₀ t) :
    OnlyChanges P s₀ (State.attemptSent x0 x1 x2 t) := by
  unfold State.attemptSent
  repeat' (first
    | with_reducible assumption
    | with_reducible (refine noteTdcv_only (hP.step (by decide)) ?_)
    | with_reducible (refine put_only (hP.step (by decide)) ?_)
    | with_reducible (refine updCan_only (hP.step (by decide)) ?_)
    | with_reducible (refine canComplete_only (hP.step (by decide)) ?_)
    | with_reducible (refine confine_only (hP.step (by decide)) ?_)
    | with_reducible (refine OnlyChanges.foldl ?_ (fun u a h => ?_))
    | (extract_lets +onlyGivenNames x; first | (refine OnlyChanges.cut x ?_ (fun h => ?_); (on_goal 2 => clear_value x); (on_goal 1 => subst x)) | clear_value x)
    | split
    | with_reducible (refine OnlyChanges.snd ?_)
    | with_reducible (refine OnlyChanges.fst ?_)
    | with_reducible (refine OnlyChanges.hres ?_)
    | ((with_reducible (refine OnlyChanges.upd ?_ (fun p hp => ?_))); on_goal 2 => (cases p <;> first | exact rfl | exact absurd (hP _ (by decide)) hp)))

end Sys2Proof.Laws
end

