-- ==== Sys2Proof/Laws/OnlySaf.lean ====
section
/-! SUPPORT. What each operation of Saf.lean may change: one frame per operation. -/

set_option linter.unusedTactic false
set_option linter.unreachableTactic false
set_option linter.unusedVariables false
set_option linter.tactic.unusedName false

namespace Sys2Proof.Laws

open Sys2Proof.Machine Sys2Proof.Safety

theorem updSaf_only {P : List Part} {s₀ : State} {x0 : Saf → Saf} {t : State} (hP : Within [.saf] P)  (h : OnlyChanges P s₀ t) :
    OnlyChanges P s₀ (State.updSaf x0 t) := by
  unfold State.updSaf
  repeat' (first
    | with_reducible assumption
    | with_reducible (refine OnlyChanges.foldl ?_ (fun u a h => ?_))
    | (extract_lets +onlyGivenNames x; first | (refine OnlyChanges.cut x ?_ (fun h => ?_); (on_goal 2 => clear_value x); (on_goal 1 => subst x)) | clear_value x)
    | split
    | with_reducible (refine OnlyChanges.snd ?_)
    | with_reducible (refine OnlyChanges.fst ?_)
    | with_reducible (refine OnlyChanges.hres ?_)
    | ((with_reducible (refine OnlyChanges.upd ?_ (fun p hp => ?_))); on_goal 2 => (cases p <;> first | exact rfl | exact absurd (hP _ (by decide)) hp)))

theorem stuckRecord_only {P : List Part} {s₀ : State} {x0 : Nat} {t : State} (hP : Within [.saf, .tly] P)  (h : OnlyChanges P s₀ t) :
    OnlyChanges P s₀ (State.stuckRecord x0 t) := by
  unfold State.stuckRecord
  repeat' (first
    | with_reducible assumption
    | with_reducible (refine updSaf_only (hP.step (by decide)) ?_)
    | with_reducible (refine log_only (hP.step (by decide)) ?_)
    | with_reducible (refine OnlyChanges.foldl ?_ (fun u a h => ?_))
    | (extract_lets +onlyGivenNames x; first | (refine OnlyChanges.cut x ?_ (fun h => ?_); (on_goal 2 => clear_value x); (on_goal 1 => subst x)) | clear_value x)
    | split
    | with_reducible (refine OnlyChanges.snd ?_)
    | with_reducible (refine OnlyChanges.fst ?_)
    | with_reducible (refine OnlyChanges.hres ?_)
    | ((with_reducible (refine OnlyChanges.upd ?_ (fun p hp => ?_))); on_goal 2 => (cases p <;> first | exact rfl | exact absurd (hP _ (by decide)) hp)))

theorem clearLatch_only {P : List Part} {s₀ : State} {x0 : Bool} {t : State} (hP : Within [.saf, .tly] P)  (h : OnlyChanges P s₀ t) :
    OnlyChanges P s₀ (State.clearLatch x0 t) := by
  unfold State.clearLatch
  repeat' (first
    | with_reducible assumption
    | with_reducible (refine log_only (hP.step (by decide)) ?_)
    | with_reducible (refine OnlyChanges.foldl ?_ (fun u a h => ?_))
    | (extract_lets +onlyGivenNames x; first | (refine OnlyChanges.cut x ?_ (fun h => ?_); (on_goal 2 => clear_value x); (on_goal 1 => subst x)) | clear_value x)
    | split
    | with_reducible (refine OnlyChanges.snd ?_)
    | with_reducible (refine OnlyChanges.fst ?_)
    | with_reducible (refine OnlyChanges.hres ?_)
    | ((with_reducible (refine OnlyChanges.upd ?_ (fun p hp => ?_))); on_goal 2 => (cases p <;> first | exact rfl | exact absurd (hP _ (by decide)) hp)))

theorem refuseReset_only {P : List Part} {s₀ : State}  {t : State} (hP : Within [.saf, .tly] P)  (h : OnlyChanges P s₀ t) :
    OnlyChanges P s₀ (State.refuseReset t) := by
  unfold State.refuseReset
  repeat' (first
    | with_reducible assumption
    | with_reducible (refine updSaf_only (hP.step (by decide)) ?_)
    | with_reducible (refine log_only (hP.step (by decide)) ?_)
    | with_reducible (refine OnlyChanges.foldl ?_ (fun u a h => ?_))
    | (extract_lets +onlyGivenNames x; first | (refine OnlyChanges.cut x ?_ (fun h => ?_); (on_goal 2 => clear_value x); (on_goal 1 => subst x)) | clear_value x)
    | split
    | with_reducible (refine OnlyChanges.snd ?_)
    | with_reducible (refine OnlyChanges.fst ?_)
    | with_reducible (refine OnlyChanges.hres ?_)
    | ((with_reducible (refine OnlyChanges.upd ?_ (fun p hp => ?_))); on_goal 2 => (cases p <;> first | exact rfl | exact absurd (hP _ (by decide)) hp)))

theorem judgePress_only {P : List Part} {s₀ : State} {x0 : Bool} {x1 : Bool} {t : State} (hP : Within [.saf, .tly] P)  (h : OnlyChanges P s₀ t) :
    OnlyChanges P s₀ (State.judgePress x0 x1 t) := by
  unfold State.judgePress
  repeat' (first
    | with_reducible assumption
    | with_reducible (refine refuseReset_only (hP.step (by decide)) ?_)
    | with_reducible (refine updSaf_only (hP.step (by decide)) ?_)
    | with_reducible (refine clearLatch_only (hP.step (by decide)) ?_)
    | with_reducible (refine OnlyChanges.foldl ?_ (fun u a h => ?_))
    | (extract_lets +onlyGivenNames x; first | (refine OnlyChanges.cut x ?_ (fun h => ?_); (on_goal 2 => clear_value x); (on_goal 1 => subst x)) | clear_value x)
    | split
    | with_reducible (refine OnlyChanges.snd ?_)
    | with_reducible (refine OnlyChanges.fst ?_)
    | with_reducible (refine OnlyChanges.hres ?_)
    | ((with_reducible (refine OnlyChanges.upd ?_ (fun p hp => ?_))); on_goal 2 => (cases p <;> first | exact rfl | exact absurd (hP _ (by decide)) hp)))

theorem updSo_only {P : List Part} {s₀ : State} {x0 : Nat} {x1 : So → So} {t : State} (hP : Within [.saf, .outbox] P)  (h : OnlyChanges P s₀ t) :
    OnlyChanges P s₀ (State.updSo x0 x1 t) := by
  unfold State.updSo
  repeat' (first
    | with_reducible assumption
    | with_reducible (refine updSaf_only (hP.step (by decide)) ?_)
    | with_reducible (refine put_only (hP.step (by decide)) ?_)
    | with_reducible (refine OnlyChanges.foldl ?_ (fun u a h => ?_))
    | (extract_lets +onlyGivenNames x; first | (refine OnlyChanges.cut x ?_ (fun h => ?_); (on_goal 2 => clear_value x); (on_goal 1 => subst x)) | clear_value x)
    | split
    | with_reducible (refine OnlyChanges.snd ?_)
    | with_reducible (refine OnlyChanges.fst ?_)
    | with_reducible (refine OnlyChanges.hres ?_)
    | ((with_reducible (refine OnlyChanges.upd ?_ (fun p hp => ?_))); on_goal 2 => (cases p <;> first | exact rfl | exact absurd (hP _ (by decide)) hp)))

theorem selSwitch_only {P : List Part} {s₀ : State} {x0 : Bool} {t : State} (hP : Within [.saf, .outbox] P)  (h : OnlyChanges P s₀ t) :
    OnlyChanges P s₀ (State.selSwitch x0 t) := by
  unfold State.selSwitch
  repeat' (first
    | with_reducible assumption
    | with_reducible (refine updSo_only (hP.step (by decide)) ?_)
    | with_reducible (refine OnlyChanges.foldl ?_ (fun u a h => ?_))
    | (extract_lets +onlyGivenNames x; first | (refine OnlyChanges.cut x ?_ (fun h => ?_); (on_goal 2 => clear_value x); (on_goal 1 => subst x)) | clear_value x)
    | split
    | with_reducible (refine OnlyChanges.snd ?_)
    | with_reducible (refine OnlyChanges.fst ?_)
    | with_reducible (refine OnlyChanges.hres ?_)
    | ((with_reducible (refine OnlyChanges.upd ?_ (fun p hp => ?_))); on_goal 2 => (cases p <;> first | exact rfl | exact absurd (hP _ (by decide)) hp)))

theorem spSwitch_only {P : List Part} {s₀ : State} {x0 : BitVec 4} {x1 : Bool} {t : State} (hP : Within [.saf, .outbox] P)  (h : OnlyChanges P s₀ t) :
    OnlyChanges P s₀ (State.spSwitch x0 x1 t) := by
  unfold State.spSwitch
  repeat' (first
    | with_reducible assumption
    | with_reducible (refine updSo_only (hP.step (by decide)) ?_)
    | with_reducible (refine OnlyChanges.foldl ?_ (fun u a h => ?_))
    | (extract_lets +onlyGivenNames x; first | (refine OnlyChanges.cut x ?_ (fun h => ?_); (on_goal 2 => clear_value x); (on_goal 1 => subst x)) | clear_value x)
    | split
    | with_reducible (refine OnlyChanges.snd ?_)
    | with_reducible (refine OnlyChanges.fst ?_)
    | with_reducible (refine OnlyChanges.hres ?_)
    | ((with_reducible (refine OnlyChanges.upd ?_ (fun p hp => ?_))); on_goal 2 => (cases p <;> first | exact rfl | exact absurd (hP _ (by decide)) hp)))

theorem latchFaults_only {P : List Part} {s₀ : State} {x0 : Bool} {x1 : List (Nat × Nat × Bool)} {t : State} (hP : Within [.saf, .tly, .outbox] P)  (h : OnlyChanges P s₀ t) :
    OnlyChanges P s₀ (State.latchFaults x0 x1 t) := by
  unfold State.latchFaults
  repeat' (first
    | with_reducible assumption
    | with_reducible (refine lockout_only (hP.step (by decide)) ?_)
    | with_reducible (refine OnlyChanges.foldl ?_ (fun u a h => ?_))
    | (extract_lets +onlyGivenNames x; first | (refine OnlyChanges.cut x ?_ (fun h => ?_); (on_goal 2 => clear_value x); (on_goal 1 => subst x)) | clear_value x)
    | split
    | with_reducible (refine OnlyChanges.snd ?_)
    | with_reducible (refine OnlyChanges.fst ?_)
    | with_reducible (refine OnlyChanges.hres ?_)
    | ((with_reducible (refine OnlyChanges.upd ?_ (fun p hp => ?_))); on_goal 2 => (cases p <;> first | exact rfl | exact absurd (hP _ (by decide)) hp)))

theorem sampleReset_only {P : List Part} {s₀ : State} {x0 : Samp} {x1 : Samp} {t : State} (hP : Within [.saf, .tly] P)  (h : OnlyChanges P s₀ t) :
    OnlyChanges P s₀ ((State.sampleReset x0 x1 t).1) := by
  unfold State.sampleReset
  repeat' (first
    | with_reducible assumption
    | with_reducible (refine updSaf_only (hP.step (by decide)) ?_)
    | with_reducible (refine stuckRecord_only (hP.step (by decide)) ?_)
    | with_reducible (refine judgePress_only (hP.step (by decide)) ?_)
    | with_reducible (refine OnlyChanges.foldl ?_ (fun u a h => ?_))
    | (extract_lets +onlyGivenNames x; first | (refine OnlyChanges.cut x ?_ (fun h => ?_); (on_goal 2 => clear_value x); (on_goal 1 => subst x)) | clear_value x)
    | split
    | with_reducible (refine OnlyChanges.snd ?_)
    | with_reducible (refine OnlyChanges.fst ?_)
    | with_reducible (refine OnlyChanges.hres ?_)
    | ((with_reducible (refine OnlyChanges.upd ?_ (fun p hp => ?_))); on_goal 2 => (cases p <;> first | exact rfl | exact absurd (hP _ (by decide)) hp)))

theorem selSample_only {P : List Part} {s₀ : State} {x0 : Samp} {x1 : Samp} {t : State} (hP : Within [.saf, .tly, .outbox] P)  (h : OnlyChanges P s₀ t) :
    OnlyChanges P s₀ (State.selSample x0 x1 t) := by
  unfold State.selSample
  repeat' (first
    | with_reducible assumption
    | with_reducible (refine latchFaults_only (hP.step (by decide)) ?_)
    | with_reducible (refine updSaf_only (hP.step (by decide)) ?_)
    | with_reducible (refine sampleReset_only (hP.step (by decide)) ?_)
    | with_reducible (refine selSwitch_only (hP.step (by decide)) ?_)
    | with_reducible (refine OnlyChanges.foldl ?_ (fun u a h => ?_))
    | (extract_lets +onlyGivenNames x; first | (refine OnlyChanges.cut x ?_ (fun h => ?_); (on_goal 2 => clear_value x); (on_goal 1 => subst x)) | (refine OnlyChanges.cut x.1 ?_ (fun h => ?_); (on_goal 2 => clear_value x); (on_goal 1 => subst x)) | clear_value x)
    | (generalize he : State.sampleReset _ _ _ = e; have k : OnlyChanges P s₀ e.1 := (by rw [← he]; refine sampleReset_only (hP.step (by decide)) ?_ <;> with_reducible assumption); clear he; obtain ⟨a, u⟩ := e; dsimp -zeta only at k ⊢)
    | split
    | with_reducible (refine OnlyChanges.snd ?_)
    | with_reducible (refine OnlyChanges.fst ?_)
    | with_reducible (refine OnlyChanges.hres ?_)
    | ((with_reducible (refine OnlyChanges.upd ?_ (fun p hp => ?_))); on_goal 2 => (cases p <;> first | exact rfl | exact absurd (hP _ (by decide)) hp)))

theorem soFault_only {P : List Part} {s₀ : State} {x0 : Nat} {x1 : Nat} {t : State} (hP : Within [.saf, .tly, .outbox] P)  (h : OnlyChanges P s₀ t) :
    OnlyChanges P s₀ (State.soFault x0 x1 t) := by
  unfold State.soFault
  repeat' (first
    | with_reducible assumption
    | with_reducible (refine updSo_only (hP.step (by decide)) ?_)
    | with_reducible (refine lockout_only (hP.step (by decide)) ?_)
    | with_reducible (refine OnlyChanges.foldl ?_ (fun u a h => ?_))
    | (extract_lets +onlyGivenNames x; first | (refine OnlyChanges.cut x ?_ (fun h => ?_); (on_goal 2 => clear_value x); (on_goal 1 => subst x)) | clear_value x)
    | split
    | with_reducible (refine OnlyChanges.snd ?_)
    | with_reducible (refine OnlyChanges.fst ?_)
    | with_reducible (refine OnlyChanges.hres ?_)
    | ((with_reducible (refine OnlyChanges.upd ?_ (fun p hp => ?_))); on_goal 2 => (cases p <;> first | exact rfl | exact absurd (hP _ (by decide)) hp)))

theorem safDead_only {P : List Part} {s₀ : State} {x0 : Nat} {x1 : Bool} {t : State} (hP : Within [.sys, .hif, .cyc, .lsp, .cle, .chg, .dpx, .dpx2, .mir, .net, .tim, .can, .canq, .fio, .saf, .tly, .mm, .boot, .pwr, .ret, .cfg, .prog, .regs, .live, .votes, .press, .posted, .outbox, .freeN] P)  (h : OnlyChanges P s₀ t) :
    OnlyChanges P s₀ (State.safDead x0 x1 t) := by
  unfold State.safDead
  repeat' (first
    | with_reducible assumption
    | with_reducible (refine lockout_only (hP.step (by decide)) ?_)
    | with_reducible (refine unrecoverable_only (hP.step (by decide)) ?_)
    | with_reducible (refine OnlyChanges.foldl ?_ (fun u a h => ?_))
    | (extract_lets +onlyGivenNames x; first | (refine OnlyChanges.cut x ?_ (fun h => ?_); (on_goal 2 => clear_value x); (on_goal 1 => subst x)) | clear_value x)
    | split
    | with_reducible (refine OnlyChanges.snd ?_)
    | with_reducible (refine OnlyChanges.fst ?_)
    | with_reducible (refine OnlyChanges.hres ?_)
    | ((with_reducible (refine OnlyChanges.upd ?_ (fun p hp => ?_))); on_goal 2 => (cases p <;> first | exact rfl | exact absurd (hP _ (by decide)) hp)))

theorem updWsc_only {P : List Part} {s₀ : State} {x0 : Nat} {x1 : Wsc → Wsc} {t : State} (hP : Within [.saf] P)  (h : OnlyChanges P s₀ t) :
    OnlyChanges P s₀ (State.updWsc x0 x1 t) := by
  unfold State.updWsc
  repeat' (first
    | with_reducible assumption
    | with_reducible (refine updSaf_only (hP.step (by decide)) ?_)
    | with_reducible (refine OnlyChanges.foldl ?_ (fun u a h => ?_))
    | (extract_lets +onlyGivenNames x; first | (refine OnlyChanges.cut x ?_ (fun h => ?_); (on_goal 2 => clear_value x); (on_goal 1 => subst x)) | clear_value x)
    | split
    | with_reducible (refine OnlyChanges.snd ?_)
    | with_reducible (refine OnlyChanges.fst ?_)
    | with_reducible (refine OnlyChanges.hres ?_)
    | ((with_reducible (refine OnlyChanges.upd ?_ (fun p hp => ?_))); on_goal 2 => (cases p <;> first | exact rfl | exact absurd (hP _ (by decide)) hp)))

theorem wscReceive_only {P : List Part} {s₀ : State} {x0 : Nat} {x1 : List Byte} {x2 : BitVec 16} {t : State} (hP : Within [.saf] P)  (h : OnlyChanges P s₀ t) :
    OnlyChanges P s₀ (State.wscReceive x0 x1 x2 t) := by
  unfold State.wscReceive
  repeat' (first
    | with_reducible assumption
    | with_reducible (refine updWsc_only (hP.step (by decide)) ?_)
    | with_reducible (refine OnlyChanges.foldl ?_ (fun u a h => ?_))
    | (extract_lets +onlyGivenNames x; first | (refine OnlyChanges.cut x ?_ (fun h => ?_); (on_goal 2 => clear_value x); (on_goal 1 => subst x)) | clear_value x)
    | split
    | with_reducible (refine OnlyChanges.snd ?_)
    | with_reducible (refine OnlyChanges.fst ?_)
    | with_reducible (refine OnlyChanges.hres ?_)
    | ((with_reducible (refine OnlyChanges.upd ?_ (fun p hp => ?_))); on_goal 2 => (cases p <;> first | exact rfl | exact absurd (hP _ (by decide)) hp)))

theorem wscSend_only {P : List Part} {s₀ : State} {x0 : Nat} {t : State} (hP : Within [.saf] P)  (h : OnlyChanges P s₀ t) :
    OnlyChanges P s₀ ((State.wscSend x0 t).2) := by
  unfold State.wscSend
  repeat' (first
    | with_reducible assumption
    | with_reducible (refine updWsc_only (hP.step (by decide)) ?_)
    | with_reducible (refine OnlyChanges.foldl ?_ (fun u a h => ?_))
    | (extract_lets +onlyGivenNames x; first | (refine OnlyChanges.cut x ?_ (fun h => ?_); (on_goal 2 => clear_value x); (on_goal 1 => subst x)) | clear_value x)
    | split
    | with_reducible (refine OnlyChanges.snd ?_)
    | with_reducible (refine OnlyChanges.fst ?_)
    | with_reducible (refine OnlyChanges.hres ?_)
    | ((with_reducible (refine OnlyChanges.upd ?_ (fun p hp => ?_))); on_goal 2 => (cases p <;> first | exact rfl | exact absurd (hP _ (by decide)) hp)))

theorem spStore_only {P : List Part} {s₀ : State} {x0 : DefSt} {t : State} (hP : Within [.can, .canq, .tly] P)  (h : OnlyChanges P s₀ t) :
    OnlyChanges P s₀ (State.spStore x0 t) := by
  unfold State.spStore
  repeat' (first
    | with_reducible assumption
    | with_reducible (refine canStore_only (hP.step (by decide)) ?_)
    | with_reducible (refine OnlyChanges.foldl ?_ (fun u a h => ?_))
    | (extract_lets +onlyGivenNames x; first | (refine OnlyChanges.cut x ?_ (fun h => ?_); (on_goal 2 => clear_value x); (on_goal 1 => subst x)) | clear_value x)
    | split
    | with_reducible (refine OnlyChanges.snd ?_)
    | with_reducible (refine OnlyChanges.fst ?_)
    | with_reducible (refine OnlyChanges.hres ?_)
    | ((with_reducible (refine OnlyChanges.upd ?_ (fun p hp => ?_))); on_goal 2 => (cases p <;> first | exact rfl | exact absurd (hP _ (by decide)) hp)))

theorem readBacks_only {P : List Part} {s₀ : State} {x0 : BitVec 4} {t : State} (hP : Within [.saf, .outbox] P)  (h : OnlyChanges P s₀ t) :
    OnlyChanges P s₀ (State.readBacks x0 t) := by
  unfold State.readBacks
  repeat' (first
    | with_reducible assumption
    | with_reducible (refine updSo_only (hP.step (by decide)) ?_)
    | with_reducible (refine updSaf_only (hP.step (by decide)) ?_)
    | with_reducible (refine OnlyChanges.foldl ?_ (fun u a h => ?_))
    | (extract_lets +onlyGivenNames x; first | (refine OnlyChanges.cut x ?_ (fun h => ?_); (on_goal 2 => clear_value x); (on_goal 1 => subst x)) | clear_value x)
    | split
    | with_reducible (refine OnlyChanges.snd ?_)
    | with_reducible (refine OnlyChanges.fst ?_)
    | with_reducible (refine OnlyChanges.hres ?_)
    | ((with_reducible (refine OnlyChanges.upd ?_ (fun p hp => ?_))); on_goal 2 => (cases p <;> first | exact rfl | exact absurd (hP _ (by decide)) hp)))

theorem spWsc_only {P : List Part} {s₀ : State} {x0 : SpRun} {t : State} (hP : Within [.saf] P)  (h : OnlyChanges P s₀ t) :
    OnlyChanges P s₀ (State.spWsc x0 t) := by
  unfold State.spWsc
  repeat' (first
    | with_reducible assumption
    | with_reducible (refine updWsc_only (hP.step (by decide)) ?_)
    | with_reducible (refine updSaf_only (hP.step (by decide)) ?_)
    | with_reducible (refine OnlyChanges.foldl ?_ (fun u a h => ?_))
    | (extract_lets +onlyGivenNames x; first | (refine OnlyChanges.cut x ?_ (fun h => ?_); (on_goal 2 => clear_value x); (on_goal 1 => subst x)) | clear_value x)
    | split
    | with_reducible (refine OnlyChanges.snd ?_)
    | with_reducible (refine OnlyChanges.fst ?_)
    | with_reducible (refine OnlyChanges.hres ?_)
    | ((with_reducible (refine OnlyChanges.upd ?_ (fun p hp => ?_))); on_goal 2 => (cases p <;> first | exact rfl | exact absurd (hP _ (by decide)) hp)))

theorem spCanPdu_only {P : List Part} {s₀ : State} {x0 : Nat} {x1 : Nat} {t : State} (hP : Within [.can, .canq, .saf, .tly] P)  (h : OnlyChanges P s₀ t) :
    OnlyChanges P s₀ (State.spCanPdu x0 x1 t) := by
  unfold State.spCanPdu
  repeat' (first
    | with_reducible assumption
    | with_reducible (refine wscSend_only (hP.step (by decide)) ?_)
    | with_reducible (refine canStore_only (hP.step (by decide)) ?_)
    | with_reducible (refine OnlyChanges.foldl ?_ (fun u a h => ?_))
    | (extract_lets +onlyGivenNames x; first | (refine OnlyChanges.cut x ?_ (fun h => ?_); (on_goal 2 => clear_value x); (on_goal 1 => subst x)) | (refine OnlyChanges.cut x.2 ?_ (fun h => ?_); (on_goal 2 => clear_value x); (on_goal 1 => subst x)) | clear_value x)
    | (generalize he : State.wscSend _ _ = e; have k : OnlyChanges P s₀ e.2 := (by rw [← he]; refine wscSend_only (hP.step (by decide)) ?_ <;> with_reducible assumption); clear he; obtain ⟨a, u⟩ := e; dsimp -zeta only at k ⊢)
    | split
    | with_reducible (refine OnlyChanges.snd ?_)
    | with_reducible (refine OnlyChanges.fst ?_)
    | with_reducible (refine OnlyChanges.hres ?_)
    | ((with_reducible (refine OnlyChanges.upd ?_ (fun p hp => ?_))); on_goal 2 => (cases p <;> first | exact rfl | exact absurd (hP _ (by decide)) hp)))

theorem spStores_only {P : List Part} {s₀ : State} {x0 : SpRun} {t : State} (hP : Within [.can, .canq, .saf, .tly] P)  (h : OnlyChanges P s₀ t) :
    OnlyChanges P s₀ (State.spStores x0 t) := by
  unfold State.spStores
  repeat' (first
    | with_reducible assumption
    | with_reducible (refine spStore_only (hP.step (by decide)) ?_)
    | with_reducible (refine spCanPdu_only (hP.step (by decide)) ?_)
    | with_reducible (refine OnlyChanges.foldl ?_ (fun u a h => ?_))
    | (extract_lets +onlyGivenNames x; first | (refine OnlyChanges.cut x ?_ (fun h => ?_); (on_goal 2 => clear_value x); (on_goal 1 => subst x)) | clear_value x)
    | split
    | with_reducible (refine OnlyChanges.snd ?_)
    | with_reducible (refine OnlyChanges.fst ?_)
    | with_reducible (refine OnlyChanges.hres ?_)
    | ((with_reducible (refine OnlyChanges.upd ?_ (fun p hp => ?_))); on_goal 2 => (cases p <;> first | exact rfl | exact absurd (hP _ (by decide)) hp)))

theorem spCycle_only {P : List Part} {s₀ : State} {x0 : SpRun} {t : State} (hP : Within [.sys, .hif, .cyc, .lsp, .cle, .chg, .dpx, .dpx2, .mir, .net, .tim, .can, .canq, .fio, .saf, .tly, .mm, .boot, .pwr, .ret, .cfg, .prog, .regs, .live, .votes, .press, .posted, .outbox, .freeN] P)  (h : OnlyChanges P s₀ t) :
    OnlyChanges P s₀ (State.spCycle x0 t) := by
  unfold State.spCycle
  repeat' (first
    | with_reducible assumption
    | with_reducible (refine updSaf_only (hP.step (by decide)) ?_)
    | with_reducible (refine readBacks_only (hP.step (by decide)) ?_)
    | with_reducible (refine spWsc_only (hP.step (by decide)) ?_)
    | with_reducible (refine spStores_only (hP.step (by decide)) ?_)
    | with_reducible (refine safDead_only (hP.step (by decide)) ?_)
    | with_reducible (refine judgePress_only (hP.step (by decide)) ?_)
    | with_reducible (refine spSwitch_only (hP.step (by decide)) ?_)
    | with_reducible (refine OnlyChanges.foldl ?_ (fun u a h => ?_))
    | (extract_lets +onlyGivenNames x; first | (refine OnlyChanges.cut x ?_ (fun h => ?_); (on_goal 2 => clear_value x); (on_goal 1 => subst x)) | clear_value x)
    | split
    | with_reducible (refine OnlyChanges.snd ?_)
    | with_reducible (refine OnlyChanges.fst ?_)
    | with_reducible (refine OnlyChanges.hres ?_)
    | ((with_reducible (refine OnlyChanges.upd ?_ (fun p hp => ?_))); on_goal 2 => (cases p <;> first | exact rfl | exact absurd (hP _ (by decide)) hp)))

end Sys2Proof.Laws
end

