-- ==== Sys2Proof/Laws/OnlyChange.lean ====
section
/-! SUPPORT. What each operation of Change.lean may change: one frame per operation. -/

set_option linter.unusedTactic false
set_option linter.unreachableTactic false
set_option linter.unusedVariables false
set_option linter.tactic.unusedName false

namespace Sys2Proof.Laws

open Sys2Proof.Machine Sys2Proof.Safety

theorem sendImage_only {P : List Part} {s₀ : State} {x0 : Nat} {x1 : List Byte} {t : State} (hP : Within [.dpx2, .outbox] P)  (h : OnlyChanges P s₀ t) :
    OnlyChanges P s₀ (State.sendImage x0 x1 t) := by
  unfold State.sendImage
  repeat' (first
    | with_reducible assumption
    | with_reducible (refine sendPart_only (hP.step (by decide)) ?_)
    | with_reducible (refine OnlyChanges.foldl ?_ (fun u a h => ?_))
    | (extract_lets +onlyGivenNames x; first | (refine OnlyChanges.cut x ?_ (fun h => ?_); (on_goal 2 => clear_value x); (on_goal 1 => subst x)) | clear_value x)
    | split
    | with_reducible (refine OnlyChanges.snd ?_)
    | with_reducible (refine OnlyChanges.fst ?_)
    | with_reducible (refine OnlyChanges.hres ?_)
    | ((with_reducible (refine OnlyChanges.upd ?_ (fun p hp => ?_))); on_goal 2 => (cases p <;> first | exact rfl | exact absurd (hP _ (by decide)) hp)))

theorem updChg_only {P : List Part} {s₀ : State} {x0 : Change → Change} {t : State} (hP : Within [.chg] P)  (h : OnlyChanges P s₀ t) :
    OnlyChanges P s₀ (State.updChg x0 t) := by
  unfold State.updChg
  repeat' (first
    | with_reducible assumption
    | with_reducible (refine OnlyChanges.foldl ?_ (fun u a h => ?_))
    | (extract_lets +onlyGivenNames x; first | (refine OnlyChanges.cut x ?_ (fun h => ?_); (on_goal 2 => clear_value x); (on_goal 1 => subst x)) | clear_value x)
    | split
    | with_reducible (refine OnlyChanges.snd ?_)
    | with_reducible (refine OnlyChanges.fst ?_)
    | with_reducible (refine OnlyChanges.hres ?_)
    | ((with_reducible (refine OnlyChanges.upd ?_ (fun p hp => ?_))); on_goal 2 => (cases p <;> first | exact rfl | exact absurd (hP _ (by decide)) hp)))

theorem setUpChange_only {P : List Part} {s₀ : State} {x0 : Bool} {x1 : Hcmd} {t : State} (hP : Within [.chg] P)  (h : OnlyChanges P s₀ t) :
    OnlyChanges P s₀ (State.setUpChange x0 x1 t) := by
  unfold State.setUpChange
  repeat' (first
    | with_reducible assumption
    | with_reducible (refine updChg_only (hP.step (by decide)) ?_)
    | with_reducible (refine OnlyChanges.foldl ?_ (fun u a h => ?_))
    | (extract_lets +onlyGivenNames x; first | (refine OnlyChanges.cut x ?_ (fun h => ?_); (on_goal 2 => clear_value x); (on_goal 1 => subst x)) | clear_value x)
    | split
    | with_reducible (refine OnlyChanges.snd ?_)
    | with_reducible (refine OnlyChanges.fst ?_)
    | with_reducible (refine OnlyChanges.hres ?_)
    | ((with_reducible (refine OnlyChanges.upd ?_ (fun p hp => ?_))); on_goal 2 => (cases p <;> first | exact rfl | exact absurd (hP _ (by decide)) hp)))

theorem prepareChange_only {P : List Part} {s₀ : State} {x0 : Hcmd} {t v : State} (hP : Within [.chg, .dpx2, .outbox] P) (e : State.prepareChange x0 t = some v) (h : OnlyChanges P s₀ t) :
    OnlyChanges P s₀ v := by
  unfold State.prepareChange at e
  extract_lets x at e
  have hx : OnlyChanges P s₀ x := setUpChange_only (hP.step (by decide)) h
  clear_value x
  split at e
  · cases e
  · cases e
    split
    · exact updChg_only (hP.step (by decide)) (sendImage_only (hP.step (by decide)) hx)
    · exact hx

theorem scheduleAt_only {P : List Part} {s₀ : State} {x0 : Nat} {t : State} (hP : Within [.chg] P)  (h : OnlyChanges P s₀ t) :
    OnlyChanges P s₀ (State.scheduleAt x0 t) := by
  unfold State.scheduleAt
  repeat' (first
    | with_reducible assumption
    | with_reducible (refine updChg_only (hP.step (by decide)) ?_)
    | with_reducible (refine OnlyChanges.foldl ?_ (fun u a h => ?_))
    | (extract_lets +onlyGivenNames x; first | (refine OnlyChanges.cut x ?_ (fun h => ?_); (on_goal 2 => clear_value x); (on_goal 1 => subst x)) | clear_value x)
    | split
    | with_reducible (refine OnlyChanges.snd ?_)
    | with_reducible (refine OnlyChanges.fst ?_)
    | with_reducible (refine OnlyChanges.hres ?_)
    | ((with_reducible (refine OnlyChanges.upd ?_ (fun p hp => ?_))); on_goal 2 => (cases p <;> first | exact rfl | exact absurd (hP _ (by decide)) hp)))

theorem scheduleChange_only {P : List Part} {s₀ : State} {x0 : Bool} {x1 : Hcmd} {t : State} (hP : Within [.chg] P)  (h : OnlyChanges P s₀ t) :
    OnlyChanges P s₀ ((State.scheduleChange x0 x1 t).s) := by
  unfold State.scheduleChange
  repeat' (first
    | with_reducible assumption
    | with_reducible (refine setUpChange_only (hP.step (by decide)) ?_)
    | with_reducible (refine updChg_only (hP.step (by decide)) ?_)
    | with_reducible (refine scheduleAt_only (hP.step (by decide)) ?_)
    | with_reducible (refine OnlyChanges.foldl ?_ (fun u a h => ?_))
    | (extract_lets +onlyGivenNames x; first | (refine OnlyChanges.cut x ?_ (fun h => ?_); (on_goal 2 => clear_value x); (on_goal 1 => subst x)) | clear_value x)
    | split
    | with_reducible (refine OnlyChanges.snd ?_)
    | with_reducible (refine OnlyChanges.fst ?_)
    | with_reducible (refine OnlyChanges.hres ?_)
    | ((with_reducible (refine OnlyChanges.upd ?_ (fun p hp => ?_))); on_goal 2 => (cases p <;> first | exact rfl | exact absurd (hP _ (by decide)) hp)))

theorem recordChange_only {P : List Part} {s₀ : State} {x0 : HostOp} {t : State} (hP : Within [.sys, .hif, .dpx, .dpx2, .tly, .outbox] P) (hf0 : OpOnly P s₀ x0) (h : OnlyChanges P s₀ t) :
    OnlyChanges P s₀ (State.recordChange x0 t) := by
  unfold State.recordChange
  repeat' (first
    | with_reducible assumption
    | with_reducible (refine record_only (hP.step (by decide)) ?_ ?_)
    | with_reducible (refine OnlyChanges.foldl ?_ (fun u a h => ?_))
    | with_reducible exact hf0
    | with_reducible (refine hf0.effect ?_)
    | with_reducible (refine hf0.prepare (by assumption) ?_)
    | intro _
    | (extract_lets +onlyGivenNames x; first | (refine OnlyChanges.cut x ?_ (fun h => ?_); (on_goal 2 => clear_value x); (on_goal 1 => subst x)) | (refine OnlyChanges.cut x.s ?_ (fun h => ?_); (on_goal 2 => clear_value x); (on_goal 1 => subst x)) | clear_value x)
    | split
    | intro _
    | with_reducible (refine OnlyChanges.snd ?_)
    | with_reducible (refine OnlyChanges.fst ?_)
    | with_reducible (refine OnlyChanges.hres ?_)
    | ((with_reducible (refine OnlyChanges.upd ?_ (fun p hp => ?_))); on_goal 2 => (cases p <;> first | exact rfl | exact absurd (hP _ (by decide)) hp)))

theorem dropChange_only {P : List Part} {s₀ : State}  {t : State} (hP : Within [.chg] P)  (h : OnlyChanges P s₀ t) :
    OnlyChanges P s₀ (State.dropChange t) := by
  unfold State.dropChange
  repeat' (first
    | with_reducible assumption
    | with_reducible (refine updChg_only (hP.step (by decide)) ?_)
    | with_reducible (refine OnlyChanges.foldl ?_ (fun u a h => ?_))
    | (extract_lets +onlyGivenNames x; first | (refine OnlyChanges.cut x ?_ (fun h => ?_); (on_goal 2 => clear_value x); (on_goal 1 => subst x)) | clear_value x)
    | split
    | with_reducible (refine OnlyChanges.snd ?_)
    | with_reducible (refine OnlyChanges.fst ?_)
    | with_reducible (refine OnlyChanges.hres ?_)
    | ((with_reducible (refine OnlyChanges.upd ?_ (fun p hp => ?_))); on_goal 2 => (cases p <;> first | exact rfl | exact absurd (hP _ (by decide)) hp)))

theorem refuseChange_only {P : List Part} {s₀ : State}  {t : State} (hP : Within [.hif, .chg, .tly, .outbox] P)  (h : OnlyChanges P s₀ t) :
    OnlyChanges P s₀ (State.refuseChange t) := by
  unfold State.refuseChange
  repeat' (first
    | with_reducible assumption
    | with_reducible (refine dropChange_only (hP.step (by decide)) ?_)
    | with_reducible (refine refusePrepared_only (hP.step (by decide)) ?_)
    | with_reducible (refine OnlyChanges.foldl ?_ (fun u a h => ?_))
    | (extract_lets +onlyGivenNames x; first | (refine OnlyChanges.cut x ?_ (fun h => ?_); (on_goal 2 => clear_value x); (on_goal 1 => subst x)) | clear_value x)
    | split
    | with_reducible (refine OnlyChanges.snd ?_)
    | with_reducible (refine OnlyChanges.fst ?_)
    | with_reducible (refine OnlyChanges.hres ?_)
    | ((with_reducible (refine OnlyChanges.upd ?_ (fun p hp => ?_))); on_goal 2 => (cases p <;> first | exact rfl | exact absurd (hP _ (by decide)) hp)))

theorem moveExchange_only {P : List Part} {s₀ : State}  {t : State} (hP : Within [.chg, .tly] P)  (h : OnlyChanges P s₀ t) :
    OnlyChanges P s₀ (State.moveExchange t) := by
  unfold State.moveExchange
  repeat' (first
    | with_reducible assumption
    | with_reducible (refine updChg_only (hP.step (by decide)) ?_)
    | with_reducible (refine log_only (hP.step (by decide)) ?_)
    | with_reducible (refine OnlyChanges.foldl ?_ (fun u a h => ?_))
    | (extract_lets +onlyGivenNames x; first | (refine OnlyChanges.cut x ?_ (fun h => ?_); (on_goal 2 => clear_value x); (on_goal 1 => subst x)) | clear_value x)
    | split
    | with_reducible (refine OnlyChanges.snd ?_)
    | with_reducible (refine OnlyChanges.fst ?_)
    | with_reducible (refine OnlyChanges.hres ?_)
    | ((with_reducible (refine OnlyChanges.upd ?_ (fun p hp => ?_))); on_goal 2 => (cases p <;> first | exact rfl | exact absurd (hP _ (by decide)) hp)))

theorem mapClass_only {P : List Part} {s₀ : State} {x0 : List Byte} {x1 : List MapRun} {x2 : Prog} {x3 : Nat} {t : State} (hP : Within [.cyc] P)  (h : OnlyChanges P s₀ t) :
    OnlyChanges P s₀ (State.mapClass x0 x1 x2 x3 t) := by
  unfold State.mapClass
  repeat' (first
    | with_reducible assumption
    | with_reducible (refine updMem_only (hP.step (by decide)) ?_)
    | with_reducible (refine OnlyChanges.foldl ?_ (fun u a h => ?_))
    | (extract_lets +onlyGivenNames x; first | (refine OnlyChanges.cut x ?_ (fun h => ?_); (on_goal 2 => clear_value x); (on_goal 1 => subst x)) | clear_value x)
    | split
    | with_reducible (refine OnlyChanges.snd ?_)
    | with_reducible (refine OnlyChanges.fst ?_)
    | with_reducible (refine OnlyChanges.hres ?_)
    | ((with_reducible (refine OnlyChanges.upd ?_ (fun p hp => ?_))); on_goal 2 => (cases p <;> first | exact rfl | exact absurd (hP _ (by decide)) hp)))

theorem exchangePrograms_only {P : List Part} {s₀ : State}  {t : State} (hP : Within [.cyc, .chg, .tly, .prog] P)  (h : OnlyChanges P s₀ t) :
    OnlyChanges P s₀ (State.exchangePrograms t) := by
  unfold State.exchangePrograms
  extract_lets cs m a b src new c w d e
  have ha : OnlyChanges P s₀ a := OnlyChanges.foldl h fun u x hu => applyPending_only (hP.step (by decide)) hu
  clear_value a
  have hb : OnlyChanges P s₀ b := updChg_only (hP.step (by decide)) ha
  clear_value b
  clear_value new src
  have hc : OnlyChanges P s₀ c := OnlyChanges.foldl hb fun u x hu => mapClass_only (hP.step (by decide)) hu
  clear_value c
  have hd : OnlyChanges P s₀ d := by
    refine OnlyChanges.upd hc fun p hp => ?_
    cases p <;> first | exact rfl | exact absurd (hP _ (by decide)) hp
  clear_value d
  have he : OnlyChanges P s₀ e := by
    show OnlyChanges P s₀ (if d.executes = true then _ else d)
    split
    · exact OnlyChanges.foldl hd fun u x hu => updCls_only (hP.step (by decide)) hu
    · exact hd
  clear_value e
  exact OnlyChanges.foldl he fun u x hu => log_only (hP.step (by decide)) hu

theorem endChange_only {P : List Part} {s₀ : State} {x0 : BitVec 16} {x1 : Word} {x2 : DWord} {t : State} (hP : Within [.hif, .chg, .tly, .outbox] P)  (h : OnlyChanges P s₀ t) :
    OnlyChanges P s₀ (State.endChange x0 x1 x2 t) := by
  unfold State.endChange
  repeat' (first
    | with_reducible assumption
    | with_reducible (refine dropChange_only (hP.step (by decide)) ?_)
    | with_reducible (refine finishWaiting_only (hP.step (by decide)) ?_)
    | with_reducible (refine postCqe_only (hP.step (by decide)) ?_)
    | with_reducible (refine OnlyChanges.foldl ?_ (fun u a h => ?_))
    | (extract_lets +onlyGivenNames x; first | (refine OnlyChanges.cut x ?_ (fun h => ?_); (on_goal 2 => clear_value x); (on_goal 1 => subst x)) | clear_value x)
    | split
    | with_reducible (refine OnlyChanges.snd ?_)
    | with_reducible (refine OnlyChanges.fst ?_)
    | with_reducible (refine OnlyChanges.hres ?_)
    | ((with_reducible (refine OnlyChanges.upd ?_ (fun p hp => ?_))); on_goal 2 => (cases p <;> first | exact rfl | exact absurd (hP _ (by decide)) hp)))

theorem completeChange_only {P : List Part} {s₀ : State}  {t : State} (hP : Within [.hif, .chg, .tly, .outbox] P)  (h : OnlyChanges P s₀ t) :
    OnlyChanges P s₀ (State.completeChange t) := by
  unfold State.completeChange
  repeat' (first
    | with_reducible assumption
    | with_reducible (refine endChange_only (hP.step (by decide)) ?_)
    | with_reducible (refine OnlyChanges.foldl ?_ (fun u a h => ?_))
    | (extract_lets +onlyGivenNames x; first | (refine OnlyChanges.cut x ?_ (fun h => ?_); (on_goal 2 => clear_value x); (on_goal 1 => subst x)) | clear_value x)
    | split
    | with_reducible (refine OnlyChanges.snd ?_)
    | with_reducible (refine OnlyChanges.fst ?_)
    | with_reducible (refine OnlyChanges.hres ?_)
    | ((with_reducible (refine OnlyChanges.upd ?_ (fun p hp => ?_))); on_goal 2 => (cases p <;> first | exact rfl | exact absurd (hP _ (by decide)) hp)))

theorem exchangeNow_only {P : List Part} {s₀ : State}  {t : State} (hP : Within [.hif, .cyc, .chg, .dpx2, .tly, .prog, .outbox] P)  (h : OnlyChanges P s₀ t) :
    OnlyChanges P s₀ (State.exchangeNow t) := by
  unfold State.exchangeNow
  repeat' (first
    | with_reducible assumption
    | with_reducible (refine exchangePrograms_only (hP.step (by decide)) ?_)
    | with_reducible (refine sendVersions_only (hP.step (by decide)) ?_)
    | with_reducible (refine updChg_only (hP.step (by decide)) ?_)
    | with_reducible (refine completeChange_only (hP.step (by decide)) ?_)
    | with_reducible (refine dropChange_only (hP.step (by decide)) ?_)
    | with_reducible (refine OnlyChanges.foldl ?_ (fun u a h => ?_))
    | (extract_lets +onlyGivenNames x; first | (refine OnlyChanges.cut x ?_ (fun h => ?_); (on_goal 2 => clear_value x); (on_goal 1 => subst x)) | clear_value x)
    | split
    | with_reducible (refine OnlyChanges.snd ?_)
    | with_reducible (refine OnlyChanges.fst ?_)
    | with_reducible (refine OnlyChanges.hres ?_)
    | ((with_reducible (refine OnlyChanges.upd ?_ (fun p hp => ?_))); on_goal 2 => (cases p <;> first | exact rfl | exact absurd (hP _ (by decide)) hp)))

theorem standbyInstant_only {P : List Part} {s₀ : State}  {t : State} (hP : Within [.chg] P)  (h : OnlyChanges P s₀ t) :
    OnlyChanges P s₀ (State.standbyInstant t) := by
  unfold State.standbyInstant
  repeat' (first
    | with_reducible assumption
    | with_reducible (refine updChg_only (hP.step (by decide)) ?_)
    | with_reducible (refine dropChange_only (hP.step (by decide)) ?_)
    | with_reducible (refine OnlyChanges.foldl ?_ (fun u a h => ?_))
    | (extract_lets +onlyGivenNames x; first | (refine OnlyChanges.cut x ?_ (fun h => ?_); (on_goal 2 => clear_value x); (on_goal 1 => subst x)) | clear_value x)
    | split
    | with_reducible (refine OnlyChanges.snd ?_)
    | with_reducible (refine OnlyChanges.fst ?_)
    | with_reducible (refine OnlyChanges.hres ?_)
    | ((with_reducible (refine OnlyChanges.upd ?_ (fun p hp => ?_))); on_goal 2 => (cases p <;> first | exact rfl | exact absurd (hP _ (by decide)) hp)))

theorem exchangeInstant_only {P : List Part} {s₀ : State}  {t : State} (hP : Within [.hif, .cyc, .chg, .dpx2, .tly, .prog, .outbox] P)  (h : OnlyChanges P s₀ t) :
    OnlyChanges P s₀ (State.exchangeInstant t) := by
  unfold State.exchangeInstant
  repeat' (first
    | with_reducible assumption
    | with_reducible (refine standbyInstant_only (hP.step (by decide)) ?_)
    | with_reducible (refine endChange_only (hP.step (by decide)) ?_)
    | with_reducible (refine moveExchange_only (hP.step (by decide)) ?_)
    | with_reducible (refine exchangeNow_only (hP.step (by decide)) ?_)
    | with_reducible (refine OnlyChanges.foldl ?_ (fun u a h => ?_))
    | (extract_lets +onlyGivenNames x; first | (refine OnlyChanges.cut x ?_ (fun h => ?_); (on_goal 2 => clear_value x); (on_goal 1 => subst x)) | clear_value x)
    | split
    | with_reducible (refine OnlyChanges.snd ?_)
    | with_reducible (refine OnlyChanges.fst ?_)
    | with_reducible (refine OnlyChanges.hres ?_)
    | ((with_reducible (refine OnlyChanges.upd ?_ (fun p hp => ?_))); on_goal 2 => (cases p <;> first | exact rfl | exact absurd (hP _ (by decide)) hp)))

theorem applyMirrored_only {P : List Part} {s₀ : State} {x0 : Nat} {x1 : DWord} {t : State} (hP : Within [.cyc, .mir] P)  (h : OnlyChanges P s₀ t) :
    OnlyChanges P s₀ (State.applyMirrored x0 x1 t) := by
  unfold State.applyMirrored
  repeat' (first
    | with_reducible assumption
    | with_reducible (refine pokeElem_only (hP.step (by decide)) ?_)
    | with_reducible (refine OnlyChanges.foldl ?_ (fun u a h => ?_))
    | (extract_lets +onlyGivenNames x; first | (refine OnlyChanges.cut x ?_ (fun h => ?_); (on_goal 2 => clear_value x); (on_goal 1 => subst x)) | clear_value x)
    | split
    | with_reducible (refine OnlyChanges.snd ?_)
    | with_reducible (refine OnlyChanges.fst ?_)
    | with_reducible (refine OnlyChanges.hres ?_)
    | ((with_reducible (refine OnlyChanges.upd ?_ (fun p hp => ?_))); on_goal 2 => (cases p <;> first | exact rfl | exact absurd (hP _ (by decide)) hp)))

theorem meetVersion_only {P : List Part} {s₀ : State} {x0 : Word} {x1 : Nat} {x2 : DWord} {t : State} (hP : Within [.hif, .cyc, .chg, .dpx2, .mir, .tly, .prog, .outbox] P)  (h : OnlyChanges P s₀ t) :
    OnlyChanges P s₀ (State.meetVersion x0 x1 x2 t) := by
  unfold State.meetVersion
  repeat' (first
    | with_reducible assumption
    | with_reducible (refine applyMirrored_only (hP.step (by decide)) ?_)
    | with_reducible (refine exchangeNow_only (hP.step (by decide)) ?_)
    | with_reducible (refine OnlyChanges.foldl ?_ (fun u a h => ?_))
    | (extract_lets +onlyGivenNames x; first | (refine OnlyChanges.cut x ?_ (fun h => ?_); (on_goal 2 => clear_value x); (on_goal 1 => subst x)) | clear_value x)
    | split
    | with_reducible (refine OnlyChanges.snd ?_)
    | with_reducible (refine OnlyChanges.fst ?_)
    | with_reducible (refine OnlyChanges.hres ?_)
    | ((with_reducible (refine OnlyChanges.upd ?_ (fun p hp => ?_))); on_goal 2 => (cases p <;> first | exact rfl | exact absurd (hP _ (by decide)) hp)))

theorem changeLapsed_only {P : List Part} {s₀ : State} {x0 : Word} {x1 : Nat} {x2 : DWord} {t : State} (hP : Within [.chg] P)  (h : OnlyChanges P s₀ t) :
    OnlyChanges P s₀ (State.changeLapsed x0 x1 x2 t) := by
  unfold State.changeLapsed
  repeat' (first
    | with_reducible assumption
    | with_reducible (refine dropChange_only (hP.step (by decide)) ?_)
    | with_reducible (refine OnlyChanges.foldl ?_ (fun u a h => ?_))
    | (extract_lets +onlyGivenNames x; first | (refine OnlyChanges.cut x ?_ (fun h => ?_); (on_goal 2 => clear_value x); (on_goal 1 => subst x)) | clear_value x)
    | split
    | with_reducible (refine OnlyChanges.snd ?_)
    | with_reducible (refine OnlyChanges.fst ?_)
    | with_reducible (refine OnlyChanges.hres ?_)
    | ((with_reducible (refine OnlyChanges.upd ?_ (fun p hp => ?_))); on_goal 2 => (cases p <;> first | exact rfl | exact absurd (hP _ (by decide)) hp)))

theorem resumeChange_only {P : List Part} {s₀ : State}  {t : State} (hP : Within [.chg] P)  (h : OnlyChanges P s₀ t) :
    OnlyChanges P s₀ (State.resumeChange t) := by
  unfold State.resumeChange
  repeat' (first
    | with_reducible assumption
    | with_reducible (refine updChg_only (hP.step (by decide)) ?_)
    | with_reducible (refine scheduleAt_only (hP.step (by decide)) ?_)
    | with_reducible (refine OnlyChanges.foldl ?_ (fun u a h => ?_))
    | (extract_lets +onlyGivenNames x; first | (refine OnlyChanges.cut x ?_ (fun h => ?_); (on_goal 2 => clear_value x); (on_goal 1 => subst x)) | clear_value x)
    | split
    | with_reducible (refine OnlyChanges.snd ?_)
    | with_reducible (refine OnlyChanges.fst ?_)
    | with_reducible (refine OnlyChanges.hres ?_)
    | ((with_reducible (refine OnlyChanges.upd ?_ (fun p hp => ?_))); on_goal 2 => (cases p <;> first | exact rfl | exact absurd (hP _ (by decide)) hp)))

theorem changeCommitted_only {P : List Part} {s₀ : State} {x0 : Nat} {t : State} (hP : Within [.hif, .chg, .tly, .outbox] P)  (h : OnlyChanges P s₀ t) :
    OnlyChanges P s₀ (State.changeCommitted x0 t) := by
  unfold State.changeCommitted
  repeat' (first
    | with_reducible assumption
    | with_reducible (refine updChg_only (hP.step (by decide)) ?_)
    | with_reducible (refine completeChange_only (hP.step (by decide)) ?_)
    | with_reducible (refine OnlyChanges.foldl ?_ (fun u a h => ?_))
    | (extract_lets +onlyGivenNames x; first | (refine OnlyChanges.cut x ?_ (fun h => ?_); (on_goal 2 => clear_value x); (on_goal 1 => subst x)) | clear_value x)
    | split
    | with_reducible (refine OnlyChanges.snd ?_)
    | with_reducible (refine OnlyChanges.fst ?_)
    | with_reducible (refine OnlyChanges.hres ?_)
    | ((with_reducible (refine OnlyChanges.upd ?_ (fun p hp => ?_))); on_goal 2 => (cases p <;> first | exact rfl | exact absurd (hP _ (by decide)) hp)))

theorem opChange_op {P : List Part} {s₀ : State}   (hP : Within [.chg, .dpx2, .outbox] P) :
    OpOnly P s₀ (opChange ) := by
  unfold opChange
  repeat' (first
    | (refine ⟨fun {h u} k => ?_, fun {h u v} e k => ?_⟩; (on_goal 2 => first | (exact prepareChange_only (hP.step (by decide)) e k)); (on_goal 1 => dsimp -zeta only))
    | with_reducible assumption
    | with_reducible (refine scheduleChange_only (hP.step (by decide)) ?_)
    | with_reducible (refine setUpChange_only (hP.step (by decide)) ?_)
    | with_reducible (refine prepareChange_only (hP.step (by decide)) (by assumption) ?_)
    | with_reducible (refine OnlyChanges.foldl ?_ (fun u a h => ?_))
    | (extract_lets +onlyGivenNames x; first | (refine OnlyChanges.cut x ?_ (fun h => ?_); (on_goal 2 => clear_value x); (on_goal 1 => subst x)) | (refine OnlyChanges.cut x.s ?_ (fun h => ?_); (on_goal 2 => clear_value x); (on_goal 1 => subst x)) | clear_value x)
    | split
    | with_reducible (refine OnlyChanges.snd ?_)
    | with_reducible (refine OnlyChanges.fst ?_)
    | with_reducible (refine OnlyChanges.hres ?_)
    | ((with_reducible (refine OnlyChanges.upd ?_ (fun p hp => ?_))); on_goal 2 => (cases p <;> first | exact rfl | exact absurd (hP _ (by decide)) hp)))

theorem opReturn_op {P : List Part} {s₀ : State}   (hP : Within [.chg] P) :
    OpOnly P s₀ (opReturn ) := by
  unfold opReturn
  repeat' (first
    | (refine ⟨fun {h u} k => ?_, fun {h u v} e k => ?_⟩; (on_goal 2 => first | (cases e)); (on_goal 1 => dsimp -zeta only))
    | with_reducible assumption
    | with_reducible (refine scheduleChange_only (hP.step (by decide)) ?_)
    | with_reducible (refine setUpChange_only (hP.step (by decide)) ?_)
    | with_reducible (refine OnlyChanges.foldl ?_ (fun u a h => ?_))
    | (extract_lets +onlyGivenNames x; first | (refine OnlyChanges.cut x ?_ (fun h => ?_); (on_goal 2 => clear_value x); (on_goal 1 => subst x)) | (refine OnlyChanges.cut x.s ?_ (fun h => ?_); (on_goal 2 => clear_value x); (on_goal 1 => subst x)) | clear_value x)
    | split
    | with_reducible (refine OnlyChanges.snd ?_)
    | with_reducible (refine OnlyChanges.fst ?_)
    | with_reducible (refine OnlyChanges.hres ?_)
    | ((with_reducible (refine OnlyChanges.upd ?_ (fun p hp => ?_))); on_goal 2 => (cases p <;> first | exact rfl | exact absurd (hP _ (by decide)) hp)))

theorem opStatus_op {P : List Part} {s₀ : State}   (hP : Within [] P) :
    OpOnly P s₀ (opStatus ) := by
  unfold opStatus
  repeat' (first
    | (refine ⟨fun {h u} k => ?_, fun {h u v} e k => ?_⟩; (on_goal 2 => first | (cases e)); (on_goal 1 => dsimp -zeta only))
    | with_reducible assumption
    | with_reducible (refine OnlyChanges.foldl ?_ (fun u a h => ?_))
    | (extract_lets +onlyGivenNames x; first | (refine OnlyChanges.cut x ?_ (fun h => ?_); (on_goal 2 => clear_value x); (on_goal 1 => subst x)) | clear_value x)
    | split
    | with_reducible (refine OnlyChanges.snd ?_)
    | with_reducible (refine OnlyChanges.fst ?_)
    | with_reducible (refine OnlyChanges.hres ?_)
    | ((with_reducible (refine OnlyChanges.upd ?_ (fun p hp => ?_))); on_goal 2 => (cases p <;> first | exact rfl | exact absurd (hP _ (by decide)) hp)))

theorem changeOp_op {P : List Part} {s₀ : State}  {t : State} (hP : Within [.chg, .dpx2, .outbox] P) :
    OpOnly P s₀ (State.changeOp t) := by
  unfold State.changeOp
  repeat' (first
    | (refine ⟨fun {h u} k => ?_, fun {h u v} e k => ?_⟩; (on_goal 2 => first | (cases e)); (on_goal 1 => dsimp -zeta only))
    | with_reducible assumption
    | with_reducible exact opReturn_op (hP.step (by decide)) 
    | with_reducible exact opChange_op (hP.step (by decide)) 
    | with_reducible (refine OnlyChanges.foldl ?_ (fun u a h => ?_))
    | (extract_lets +onlyGivenNames x; first | (refine OnlyChanges.cut x ?_ (fun h => ?_); (on_goal 2 => clear_value x); (on_goal 1 => subst x)) | clear_value x)
    | split
    | with_reducible (refine OnlyChanges.snd ?_)
    | with_reducible (refine OnlyChanges.fst ?_)
    | with_reducible (refine OnlyChanges.hres ?_)
    | ((with_reducible (refine OnlyChanges.upd ?_ (fun p hp => ?_))); on_goal 2 => (cases p <;> first | exact rfl | exact absurd (hP _ (by decide)) hp)))

theorem packageStored_only {P : List Part} {s₀ : State}  {t : State} (hP : Within [.sys, .hif, .chg, .dpx, .dpx2, .tly, .outbox] P)  (h : OnlyChanges P s₀ t) :
    OnlyChanges P s₀ (State.packageStored t) := by
  unfold State.packageStored
  repeat' (first
    | with_reducible assumption
    | with_reducible (refine updChg_only (hP.step (by decide)) ?_)
    | with_reducible (refine recordChange_only (hP.step (by decide)) ?_ ?_)
    | with_reducible exact changeOp_op (hP.step (by decide)) 
    | with_reducible (refine notice_only (hP.step (by decide)) ?_)
    | with_reducible (refine OnlyChanges.foldl ?_ (fun u a h => ?_))
    | intro _
    | (extract_lets +onlyGivenNames x; first | (refine OnlyChanges.cut x ?_ (fun h => ?_); (on_goal 2 => clear_value x); (on_goal 1 => subst x)) | clear_value x)
    | split
    | intro _
    | with_reducible (refine OnlyChanges.snd ?_)
    | with_reducible (refine OnlyChanges.fst ?_)
    | with_reducible (refine OnlyChanges.hres ?_)
    | ((with_reducible (refine OnlyChanges.upd ?_ (fun p hp => ?_))); on_goal 2 => (cases p <;> first | exact rfl | exact absurd (hP _ (by decide)) hp)))

end Sys2Proof.Laws
end

