-- ==== Sys2Proof/Laws/OnlyStage.lean ====
section
/-! SUPPORT. What each operation of Stage.lean may change: one frame per operation. -/

set_option linter.unusedTactic false
set_option linter.unreachableTactic false
set_option linter.unusedVariables false
set_option linter.tactic.unusedName false

namespace Sys2Proof.Laws

open Sys2Proof.Machine Sys2Proof.Safety

theorem updBoot_only {P : List Part} {s₀ : State} {x0 : Boot → Boot} {t : State} (hP : Within [.boot] P)  (h : OnlyChanges P s₀ t) :
    OnlyChanges P s₀ (State.updBoot x0 t) := by
  unfold State.updBoot
  repeat' (first
    | with_reducible assumption
    | with_reducible (refine OnlyChanges.foldl ?_ (fun u a h => ?_))
    | (extract_lets +onlyGivenNames x; first | (refine OnlyChanges.cut x ?_ (fun h => ?_); (on_goal 2 => clear_value x); (on_goal 1 => subst x)) | clear_value x)
    | split
    | with_reducible (refine OnlyChanges.snd ?_)
    | with_reducible (refine OnlyChanges.fst ?_)
    | with_reducible (refine OnlyChanges.hres ?_)
    | ((with_reducible (refine OnlyChanges.upd ?_ (fun p hp => ?_))); on_goal 2 => (cases p <;> first | exact rfl | exact absurd (hP _ (by decide)) hp)))

theorem updAct_only {P : List Part} {s₀ : State} {x0 : Act → Act} {t : State} (hP : Within [.boot] P)  (h : OnlyChanges P s₀ t) :
    OnlyChanges P s₀ (State.updAct x0 t) := by
  unfold State.updAct
  repeat' (first
    | with_reducible assumption
    | with_reducible (refine updBoot_only (hP.step (by decide)) ?_)
    | with_reducible (refine OnlyChanges.foldl ?_ (fun u a h => ?_))
    | (extract_lets +onlyGivenNames x; first | (refine OnlyChanges.cut x ?_ (fun h => ?_); (on_goal 2 => clear_value x); (on_goal 1 => subst x)) | clear_value x)
    | split
    | with_reducible (refine OnlyChanges.snd ?_)
    | with_reducible (refine OnlyChanges.fst ?_)
    | with_reducible (refine OnlyChanges.hres ?_)
    | ((with_reducible (refine OnlyChanges.upd ?_ (fun p hp => ?_))); on_goal 2 => (cases p <;> first | exact rfl | exact absurd (hP _ (by decide)) hp)))

theorem imageWrite_only {P : List Part} {s₀ : State} {x0 : Hcmd} {t : State} (hP : Within [.boot] P)  (h : OnlyChanges P s₀ t) :
    OnlyChanges P s₀ ((State.imageWrite x0 t).s) := by
  unfold State.imageWrite
  repeat' (first
    | with_reducible assumption
    | with_reducible (refine updBoot_only (hP.step (by decide)) ?_)
    | with_reducible (refine OnlyChanges.foldl ?_ (fun u a h => ?_))
    | (extract_lets +onlyGivenNames x; first | (refine OnlyChanges.cut x ?_ (fun h => ?_); (on_goal 2 => clear_value x); (on_goal 1 => subst x)) | clear_value x)
    | split
    | with_reducible (refine OnlyChanges.snd ?_)
    | with_reducible (refine OnlyChanges.fst ?_)
    | with_reducible (refine OnlyChanges.hres ?_)
    | ((with_reducible (refine OnlyChanges.upd ?_ (fun p hp => ?_))); on_goal 2 => (cases p <;> first | exact rfl | exact absurd (hP _ (by decide)) hp)))

theorem opImageWrite_op {P : List Part} {s₀ : State}   (hP : Within [.boot] P) :
    OpOnly P s₀ (opImageWrite ) := by
  unfold opImageWrite
  repeat' (first
    | (refine ⟨fun {h u} k => ?_, fun {h u v} e k => ?_⟩; (on_goal 2 => first | (cases e)); (on_goal 1 => dsimp -zeta only))
    | with_reducible assumption
    | with_reducible (refine imageWrite_only (hP.step (by decide)) ?_)
    | with_reducible (refine OnlyChanges.foldl ?_ (fun u a h => ?_))
    | (extract_lets +onlyGivenNames x; first | (refine OnlyChanges.cut x ?_ (fun h => ?_); (on_goal 2 => clear_value x); (on_goal 1 => subst x)) | (refine OnlyChanges.cut x.s ?_ (fun h => ?_); (on_goal 2 => clear_value x); (on_goal 1 => subst x)) | clear_value x)
    | split
    | with_reducible (refine OnlyChanges.snd ?_)
    | with_reducible (refine OnlyChanges.fst ?_)
    | with_reducible (refine OnlyChanges.hres ?_)
    | ((with_reducible (refine OnlyChanges.upd ?_ (fun p hp => ?_))); on_goal 2 => (cases p <;> first | exact rfl | exact absurd (hP _ (by decide)) hp)))

theorem keyRec_only {P : List Part} {s₀ : State} {x0 : Nat} {x1 : List Byte} {t : State} (hP : Within [.tly] P)  (h : OnlyChanges P s₀ t) :
    OnlyChanges P s₀ (State.keyRec x0 x1 t) := by
  unfold State.keyRec
  repeat' (first
    | with_reducible assumption
    | with_reducible (refine log_only (hP.step (by decide)) ?_)
    | with_reducible (refine OnlyChanges.foldl ?_ (fun u a h => ?_))
    | (extract_lets +onlyGivenNames x; first | (refine OnlyChanges.cut x ?_ (fun h => ?_); (on_goal 2 => clear_value x); (on_goal 1 => subst x)) | clear_value x)
    | split
    | with_reducible (refine OnlyChanges.snd ?_)
    | with_reducible (refine OnlyChanges.fst ?_)
    | with_reducible (refine OnlyChanges.hres ?_)
    | ((with_reducible (refine OnlyChanges.upd ?_ (fun p hp => ?_))); on_goal 2 => (cases p <;> first | exact rfl | exact absurd (hP _ (by decide)) hp)))

theorem enrolPlant_only {P : List Part} {s₀ : State}  {t : State} (hP : Within [.tly, .boot] P)  (h : OnlyChanges P s₀ t) :
    OnlyChanges P s₀ (State.enrolPlant t) := by
  unfold State.enrolPlant
  repeat' (first
    | with_reducible assumption
    | with_reducible (refine updBoot_only (hP.step (by decide)) ?_)
    | with_reducible (refine keyRec_only (hP.step (by decide)) ?_)
    | with_reducible (refine OnlyChanges.foldl ?_ (fun u a h => ?_))
    | (extract_lets +onlyGivenNames x; first | (refine OnlyChanges.cut x ?_ (fun h => ?_); (on_goal 2 => clear_value x); (on_goal 1 => subst x)) | clear_value x)
    | split
    | with_reducible (refine OnlyChanges.snd ?_)
    | with_reducible (refine OnlyChanges.fst ?_)
    | with_reducible (refine OnlyChanges.hres ?_)
    | ((with_reducible (refine OnlyChanges.upd ?_ (fun p hp => ?_))); on_goal 2 => (cases p <;> first | exact rfl | exact absurd (hP _ (by decide)) hp)))

theorem imageVerify_only {P : List Part} {s₀ : State} {x0 : Hcmd} {t : State} (hP : Within [.tly, .boot] P)  (h : OnlyChanges P s₀ t) :
    OnlyChanges P s₀ ((State.imageVerify x0 t).s) := by
  unfold State.imageVerify
  repeat' (first
    | with_reducible assumption
    | with_reducible (refine updBoot_only (hP.step (by decide)) ?_)
    | with_reducible (refine enrolPlant_only (hP.step (by decide)) ?_)
    | with_reducible (refine OnlyChanges.foldl ?_ (fun u a h => ?_))
    | (extract_lets +onlyGivenNames x; first | (refine OnlyChanges.cut x ?_ (fun h => ?_); (on_goal 2 => clear_value x); (on_goal 1 => subst x)) | clear_value x)
    | split
    | with_reducible (refine OnlyChanges.snd ?_)
    | with_reducible (refine OnlyChanges.fst ?_)
    | with_reducible (refine OnlyChanges.hres ?_)
    | ((with_reducible (refine OnlyChanges.upd ?_ (fun p hp => ?_))); on_goal 2 => (cases p <;> first | exact rfl | exact absurd (hP _ (by decide)) hp)))

theorem opImageVerify_op {P : List Part} {s₀ : State}   (hP : Within [.tly, .boot] P) :
    OpOnly P s₀ (opImageVerify ) := by
  unfold opImageVerify
  repeat' (first
    | (refine ⟨fun {h u} k => ?_, fun {h u v} e k => ?_⟩; (on_goal 2 => first | (cases e)); (on_goal 1 => dsimp -zeta only))
    | with_reducible assumption
    | with_reducible (refine imageVerify_only (hP.step (by decide)) ?_)
    | with_reducible (refine OnlyChanges.foldl ?_ (fun u a h => ?_))
    | (extract_lets +onlyGivenNames x; first | (refine OnlyChanges.cut x ?_ (fun h => ?_); (on_goal 2 => clear_value x); (on_goal 1 => subst x)) | (refine OnlyChanges.cut x.s ?_ (fun h => ?_); (on_goal 2 => clear_value x); (on_goal 1 => subst x)) | clear_value x)
    | split
    | with_reducible (refine OnlyChanges.snd ?_)
    | with_reducible (refine OnlyChanges.fst ?_)
    | with_reducible (refine OnlyChanges.hres ?_)
    | ((with_reducible (refine OnlyChanges.upd ?_ (fun p hp => ?_))); on_goal 2 => (cases p <;> first | exact rfl | exact absurd (hP _ (by decide)) hp)))

theorem actRec_only {P : List Part} {s₀ : State}  {t : State} (hP : Within [.tly] P)  (h : OnlyChanges P s₀ t) :
    OnlyChanges P s₀ (State.actRec t) := by
  unfold State.actRec
  repeat' (first
    | with_reducible assumption
    | with_reducible (refine log_only (hP.step (by decide)) ?_)
    | with_reducible (refine OnlyChanges.foldl ?_ (fun u a h => ?_))
    | (extract_lets +onlyGivenNames x; first | (refine OnlyChanges.cut x ?_ (fun h => ?_); (on_goal 2 => clear_value x); (on_goal 1 => subst x)) | clear_value x)
    | split
    | with_reducible (refine OnlyChanges.snd ?_)
    | with_reducible (refine OnlyChanges.fst ?_)
    | with_reducible (refine OnlyChanges.hres ?_)
    | ((with_reducible (refine OnlyChanges.upd ?_ (fun p hp => ?_))); on_goal 2 => (cases p <;> first | exact rfl | exact absurd (hP _ (by decide)) hp)))

theorem beginAct_only {P : List Part} {s₀ : State} {x0 : Act} {t : State} (hP : Within [.tly, .boot] P)  (h : OnlyChanges P s₀ t) :
    OnlyChanges P s₀ ((State.beginAct x0 t).s) := by
  unfold State.beginAct
  repeat' (first
    | with_reducible assumption
    | with_reducible (refine updAct_only (hP.step (by decide)) ?_)
    | with_reducible (refine actRec_only (hP.step (by decide)) ?_)
    | with_reducible (refine OnlyChanges.foldl ?_ (fun u a h => ?_))
    | (extract_lets +onlyGivenNames x; first | (refine OnlyChanges.cut x ?_ (fun h => ?_); (on_goal 2 => clear_value x); (on_goal 1 => subst x)) | clear_value x)
    | split
    | with_reducible (refine OnlyChanges.snd ?_)
    | with_reducible (refine OnlyChanges.fst ?_)
    | with_reducible (refine OnlyChanges.hres ?_)
    | ((with_reducible (refine OnlyChanges.upd ?_ (fun p hp => ?_))); on_goal 2 => (cases p <;> first | exact rfl | exact absurd (hP _ (by decide)) hp)))

theorem prepareSwitch_only {P : List Part} {s₀ : State} {x0 : Hcmd} {t v : State} (hP : Within [.dpx2, .boot, .outbox] P) (e : State.prepareSwitch x0 t = some v) (h : OnlyChanges P s₀ t) :
    OnlyChanges P s₀ v := by
  unfold State.prepareSwitch at e
  split at e
  · cases e
  · cases e
    refine updAct_only (hP.step (by decide)) ?_
    repeat' (first
      | with_reducible assumption
      | with_reducible (refine sendImage_only (hP.step (by decide)) ?_)
      | split)

theorem opSwitch_op {P : List Part} {s₀ : State}   (hP : Within [.dpx2, .tly, .boot, .outbox] P) :
    OpOnly P s₀ (opSwitch ) := by
  unfold opSwitch
  repeat' (first
    | (refine ⟨fun {h u} k => ?_, fun {h u v} e k => ?_⟩; (on_goal 2 => first | (exact prepareSwitch_only (hP.step (by decide)) e k)); (on_goal 1 => dsimp -zeta only))
    | with_reducible assumption
    | with_reducible (refine beginAct_only (hP.step (by decide)) ?_)
    | with_reducible (refine prepareSwitch_only (hP.step (by decide)) (by assumption) ?_)
    | with_reducible (refine OnlyChanges.foldl ?_ (fun u a h => ?_))
    | (extract_lets +onlyGivenNames x; first | (refine OnlyChanges.cut x ?_ (fun h => ?_); (on_goal 2 => clear_value x); (on_goal 1 => subst x)) | (refine OnlyChanges.cut x.s ?_ (fun h => ?_); (on_goal 2 => clear_value x); (on_goal 1 => subst x)) | clear_value x)
    | split
    | with_reducible (refine OnlyChanges.snd ?_)
    | with_reducible (refine OnlyChanges.fst ?_)
    | with_reducible (refine OnlyChanges.hres ?_)
    | ((with_reducible (refine OnlyChanges.upd ?_ (fun p hp => ?_))); on_goal 2 => (cases p <;> first | exact rfl | exact absurd (hP _ (by decide)) hp)))

theorem opCfgReturn_op {P : List Part} {s₀ : State}   (hP : Within [.tly, .boot] P) :
    OpOnly P s₀ (opCfgReturn ) := by
  unfold opCfgReturn
  repeat' (first
    | (refine ⟨fun {h u} k => ?_, fun {h u v} e k => ?_⟩; (on_goal 2 => first | (cases e)); (on_goal 1 => dsimp -zeta only))
    | with_reducible assumption
    | with_reducible (refine beginAct_only (hP.step (by decide)) ?_)
    | with_reducible (refine OnlyChanges.foldl ?_ (fun u a h => ?_))
    | (extract_lets +onlyGivenNames x; first | (refine OnlyChanges.cut x ?_ (fun h => ?_); (on_goal 2 => clear_value x); (on_goal 1 => subst x)) | (refine OnlyChanges.cut x.s ?_ (fun h => ?_); (on_goal 2 => clear_value x); (on_goal 1 => subst x)) | clear_value x)
    | split
    | with_reducible (refine OnlyChanges.snd ?_)
    | with_reducible (refine OnlyChanges.fst ?_)
    | with_reducible (refine OnlyChanges.hres ?_)
    | ((with_reducible (refine OnlyChanges.upd ?_ (fun p hp => ?_))); on_goal 2 => (cases p <;> first | exact rfl | exact absurd (hP _ (by decide)) hp)))

theorem confirm_only {P : List Part} {s₀ : State}  {t : State} (hP : Within [.tly, .boot] P)  (h : OnlyChanges P s₀ t) :
    OnlyChanges P s₀ (State.confirm t) := by
  unfold State.confirm
  repeat' (first
    | with_reducible assumption
    | with_reducible (refine updBoot_only (hP.step (by decide)) ?_)
    | with_reducible (refine keyRec_only (hP.step (by decide)) ?_)
    | with_reducible (refine OnlyChanges.foldl ?_ (fun u a h => ?_))
    | (extract_lets +onlyGivenNames x; first | (refine OnlyChanges.cut x ?_ (fun h => ?_); (on_goal 2 => clear_value x); (on_goal 1 => subst x)) | clear_value x)
    | split
    | with_reducible (refine OnlyChanges.snd ?_)
    | with_reducible (refine OnlyChanges.fst ?_)
    | with_reducible (refine OnlyChanges.hres ?_)
    | ((with_reducible (refine OnlyChanges.upd ?_ (fun p hp => ?_))); on_goal 2 => (cases p <;> first | exact rfl | exact absurd (hP _ (by decide)) hp)))

theorem opConfirm_op {P : List Part} {s₀ : State}   (hP : Within [.tly, .boot] P) :
    OpOnly P s₀ (opConfirm ) := by
  unfold opConfirm
  repeat' (first
    | (refine ⟨fun {h u} k => ?_, fun {h u v} e k => ?_⟩; (on_goal 2 => first | (cases e)); (on_goal 1 => dsimp -zeta only))
    | with_reducible assumption
    | with_reducible (refine confirm_only (hP.step (by decide)) ?_)
    | with_reducible (refine OnlyChanges.foldl ?_ (fun u a h => ?_))
    | (extract_lets +onlyGivenNames x; first | (refine OnlyChanges.cut x ?_ (fun h => ?_); (on_goal 2 => clear_value x); (on_goal 1 => subst x)) | clear_value x)
    | split
    | with_reducible (refine OnlyChanges.snd ?_)
    | with_reducible (refine OnlyChanges.fst ?_)
    | with_reducible (refine OnlyChanges.hres ?_)
    | ((with_reducible (refine OnlyChanges.upd ?_ (fun p hp => ?_))); on_goal 2 => (cases p <;> first | exact rfl | exact absurd (hP _ (by decide)) hp)))

theorem cancelAct_only {P : List Part} {s₀ : State}  {t : State} (hP : Within [.boot] P)  (h : OnlyChanges P s₀ t) :
    OnlyChanges P s₀ (State.cancelAct t) := by
  unfold State.cancelAct
  repeat' (first
    | with_reducible assumption
    | with_reducible (refine updAct_only (hP.step (by decide)) ?_)
    | with_reducible (refine OnlyChanges.foldl ?_ (fun u a h => ?_))
    | (extract_lets +onlyGivenNames x; first | (refine OnlyChanges.cut x ?_ (fun h => ?_); (on_goal 2 => clear_value x); (on_goal 1 => subst x)) | clear_value x)
    | split
    | with_reducible (refine OnlyChanges.snd ?_)
    | with_reducible (refine OnlyChanges.fst ?_)
    | with_reducible (refine OnlyChanges.hres ?_)
    | ((with_reducible (refine OnlyChanges.upd ?_ (fun p hp => ?_))); on_goal 2 => (cases p <;> first | exact rfl | exact absurd (hP _ (by decide)) hp)))

theorem opCancel_op {P : List Part} {s₀ : State}   (hP : Within [.boot] P) :
    OpOnly P s₀ (opCancel ) := by
  unfold opCancel
  repeat' (first
    | (refine ⟨fun {h u} k => ?_, fun {h u v} e k => ?_⟩; (on_goal 2 => first | (cases e)); (on_goal 1 => dsimp -zeta only))
    | with_reducible assumption
    | with_reducible (refine cancelAct_only (hP.step (by decide)) ?_)
    | with_reducible (refine OnlyChanges.foldl ?_ (fun u a h => ?_))
    | (extract_lets +onlyGivenNames x; first | (refine OnlyChanges.cut x ?_ (fun h => ?_); (on_goal 2 => clear_value x); (on_goal 1 => subst x)) | clear_value x)
    | split
    | with_reducible (refine OnlyChanges.snd ?_)
    | with_reducible (refine OnlyChanges.fst ?_)
    | with_reducible (refine OnlyChanges.hres ?_)
    | ((with_reducible (refine OnlyChanges.upd ?_ (fun p hp => ?_))); on_goal 2 => (cases p <;> first | exact rfl | exact absurd (hP _ (by decide)) hp)))

theorem noteReason_only {P : List Part} {s₀ : State} {x0 : HostOp} {x1 : Hcmd} {b : State} {t : State} (hP : Within [.boot] P) (hf0 : OpOnly P s₀ x0) (h : OnlyChanges P s₀ t) :
    OnlyChanges P s₀ (State.noteReason x0 x1 b t) := by
  unfold State.noteReason
  repeat' (first
    | with_reducible assumption
    | with_reducible (refine updAct_only (hP.step (by decide)) ?_)
    | with_reducible (refine OnlyChanges.foldl ?_ (fun u a h => ?_))
    | with_reducible exact hf0
    | with_reducible (refine hf0.effect ?_)
    | with_reducible (refine hf0.prepare (by assumption) ?_)
    | (extract_lets +onlyGivenNames x; first | (refine OnlyChanges.cut x ?_ (fun h => ?_); (on_goal 2 => clear_value x); (on_goal 1 => subst x)) | (refine OnlyChanges.cut x.s ?_ (fun h => ?_); (on_goal 2 => clear_value x); (on_goal 1 => subst x)) | clear_value x)
    | split
    | with_reducible (refine OnlyChanges.snd ?_)
    | with_reducible (refine OnlyChanges.fst ?_)
    | with_reducible (refine OnlyChanges.hres ?_)
    | ((with_reducible (refine OnlyChanges.upd ?_ (fun p hp => ?_))); on_goal 2 => (cases p <;> first | exact rfl | exact absurd (hP _ (by decide)) hp)))

theorem runAct_only {P : List Part} {s₀ : State} {x0 : HostOp} {x1 : Hcmd} {t : State} (hP : Within [.sys, .hif, .dpx, .dpx2, .tly, .boot, .outbox] P) (hf0 : OpOnly P s₀ x0) (h : OnlyChanges P s₀ t) :
    OnlyChanges P s₀ (State.runAct x0 x1 t) := by
  unfold State.runAct
  exact noteReason_only (hP.step (by decide)) hf0 (runCmd_only (hP.step (by decide)) hf0 h)

theorem reloadLoops_only {P : List Part} {s₀ : State}  {t : State} (hP : Within [.cle] P)  (h : OnlyChanges P s₀ t) :
    OnlyChanges P s₀ (State.reloadLoops t) := by
  unfold State.reloadLoops
  repeat' (first
    | with_reducible assumption
    | with_reducible (refine OnlyChanges.foldl ?_ (fun u a h => ?_))
    | (extract_lets +onlyGivenNames x; first | (refine OnlyChanges.cut x ?_ (fun h => ?_); (on_goal 2 => clear_value x); (on_goal 1 => subst x)) | clear_value x)
    | split
    | with_reducible (refine OnlyChanges.snd ?_)
    | with_reducible (refine OnlyChanges.fst ?_)
    | with_reducible (refine OnlyChanges.hres ?_)
    | ((with_reducible (refine OnlyChanges.upd ?_ (fun p hp => ?_))); on_goal 2 => (cases p <;> first | exact rfl | exact absurd (hP _ (by decide)) hp)))

theorem newConfig_only {P : List Part} {s₀ : State} {x0 : List Byte} {x1 : List Byte} {t : State} (hP : Within [.cyc, .cle, .chg, .tly, .boot, .cfg, .prog, .regs, .live, .votes] P)  (h : OnlyChanges P s₀ t) :
    OnlyChanges P s₀ (State.newConfig x0 x1 t) := by
  unfold State.newConfig
  repeat' (first
    | with_reducible assumption
    | with_reducible (refine loadRegs_only (hP.step (by decide)) ?_)
    | with_reducible (refine installProgram_only (hP.step (by decide)) ?_)
    | with_reducible (refine reloadLoops_only (hP.step (by decide)) ?_)
    | with_reducible (refine numberCycles_only (hP.step (by decide)) ?_)
    | with_reducible (refine enrolOps_only (hP.step (by decide)) ?_)
    | with_reducible (refine OnlyChanges.foldl ?_ (fun u a h => ?_))
    | (extract_lets +onlyGivenNames x; first | (refine OnlyChanges.cut x ?_ (fun h => ?_); (on_goal 2 => clear_value x); (on_goal 1 => subst x)) | clear_value x)
    | split
    | with_reducible (refine OnlyChanges.snd ?_)
    | with_reducible (refine OnlyChanges.fst ?_)
    | with_reducible (refine OnlyChanges.hres ?_)
    | ((with_reducible (refine OnlyChanges.upd ?_ (fun p hp => ?_))); on_goal 2 => (cases p <;> first | exact rfl | exact absurd (hP _ (by decide)) hp)))

theorem warmSwitch_only {P : List Part} {s₀ : State} {x0 : Nat} {t : State} (hP : Within [.sys, .hif, .cyc, .lsp, .cle, .chg, .saf, .tly, .mm, .boot, .cfg, .prog, .regs, .live, .votes, .outbox] P)  (h : OnlyChanges P s₀ t) :
    OnlyChanges P s₀ (State.warmSwitch x0 t) := by
  unfold State.warmSwitch
  repeat' (first
    | with_reducible assumption
    | with_reducible (refine updAct_only (hP.step (by decide)) ?_)
    | with_reducible (refine setMode_only (hP.step (by decide)) ?_)
    | with_reducible (refine updBoot_only (hP.step (by decide)) ?_)
    | with_reducible (refine newConfig_only (hP.step (by decide)) ?_)
    | with_reducible (refine soOff_only (hP.step (by decide)) ?_)
    | with_reducible (refine safStart_only (hP.step (by decide)) ?_)
    | with_reducible (refine measure_only (hP.step (by decide)) ?_)
    | with_reducible (refine OnlyChanges.foldl ?_ (fun u a h => ?_))
    | (extract_lets +onlyGivenNames x; first | (refine OnlyChanges.cut x ?_ (fun h => ?_); (on_goal 2 => clear_value x); (on_goal 1 => subst x)) | clear_value x)
    | split
    | with_reducible (refine OnlyChanges.snd ?_)
    | with_reducible (refine OnlyChanges.fst ?_)
    | with_reducible (refine OnlyChanges.hres ?_)
    | ((with_reducible (refine OnlyChanges.upd ?_ (fun p hp => ?_))); on_goal 2 => (cases p <;> first | exact rfl | exact absurd (hP _ (by decide)) hp)))

theorem leaveActivate_only {P : List Part} {s₀ : State}  {t : State} (hP : Within [.sys, .hif, .cyc, .saf, .tly, .mm, .outbox] P)  (h : OnlyChanges P s₀ t) :
    OnlyChanges P s₀ (State.leaveActivate t) := by
  unfold State.leaveActivate
  repeat' (first
    | with_reducible assumption
    | with_reducible (refine setMode_only (hP.step (by decide)) ?_)
    | with_reducible (refine OnlyChanges.foldl ?_ (fun u a h => ?_))
    | (extract_lets +onlyGivenNames x; first | (refine OnlyChanges.cut x ?_ (fun h => ?_); (on_goal 2 => clear_value x); (on_goal 1 => subst x)) | clear_value x)
    | split
    | with_reducible (refine OnlyChanges.snd ?_)
    | with_reducible (refine OnlyChanges.fst ?_)
    | with_reducible (refine OnlyChanges.hres ?_)
    | ((with_reducible (refine OnlyChanges.upd ?_ (fun p hp => ?_))); on_goal 2 => (cases p <;> first | exact rfl | exact absurd (hP _ (by decide)) hp)))

theorem completeAct_only {P : List Part} {s₀ : State} {x0 : BitVec 16} {x1 : Word} {t : State} (hP : Within [.hif, .tly, .boot, .outbox] P)  (h : OnlyChanges P s₀ t) :
    OnlyChanges P s₀ (State.completeAct x0 x1 t) := by
  unfold State.completeAct
  repeat' (first
    | with_reducible assumption
    | with_reducible (refine updAct_only (hP.step (by decide)) ?_)
    | with_reducible (refine finishWaiting_only (hP.step (by decide)) ?_)
    | with_reducible (refine OnlyChanges.foldl ?_ (fun u a h => ?_))
    | (extract_lets +onlyGivenNames x; first | (refine OnlyChanges.cut x ?_ (fun h => ?_); (on_goal 2 => clear_value x); (on_goal 1 => subst x)) | clear_value x)
    | split
    | with_reducible (refine OnlyChanges.snd ?_)
    | with_reducible (refine OnlyChanges.fst ?_)
    | with_reducible (refine OnlyChanges.hres ?_)
    | ((with_reducible (refine OnlyChanges.upd ?_ (fun p hp => ?_))); on_goal 2 => (cases p <;> first | exact rfl | exact absurd (hP _ (by decide)) hp)))

theorem settleFrom_only {P : List Part} {s₀ : State}  {t : State} (hP : Within [.sys, .hif, .cyc, .saf, .tly, .mm, .boot, .outbox] P)  (h : OnlyChanges P s₀ t) :
    OnlyChanges P s₀ (State.settleFrom t) := by
  unfold State.settleFrom
  repeat' (first
    | with_reducible assumption
    | with_reducible (refine leaveActivate_only (hP.step (by decide)) ?_)
    | with_reducible (refine updAct_only (hP.step (by decide)) ?_)
    | with_reducible (refine actRec_only (hP.step (by decide)) ?_)
    | with_reducible (refine OnlyChanges.foldl ?_ (fun u a h => ?_))
    | (extract_lets +onlyGivenNames x; first | (refine OnlyChanges.cut x ?_ (fun h => ?_); (on_goal 2 => clear_value x); (on_goal 1 => subst x)) | clear_value x)
    | split
    | with_reducible (refine OnlyChanges.snd ?_)
    | with_reducible (refine OnlyChanges.fst ?_)
    | with_reducible (refine OnlyChanges.hres ?_)
    | ((with_reducible (refine OnlyChanges.upd ?_ (fun p hp => ?_))); on_goal 2 => (cases p <;> first | exact rfl | exact absurd (hP _ (by decide)) hp)))

theorem afterSwitch_only {P : List Part} {s₀ : State}  {t : State} (hP : Within [.sys, .hif, .cyc, .dpx, .dpx2, .saf, .tly, .mm, .boot, .outbox] P)  (h : OnlyChanges P s₀ t) :
    OnlyChanges P s₀ (State.afterSwitch t) := by
  unfold State.afterSwitch
  repeat' (first
    | with_reducible assumption
    | with_reducible (refine sendVersions_only (hP.step (by decide)) ?_)
    | with_reducible (refine updAct_only (hP.step (by decide)) ?_)
    | with_reducible (refine leaveActivate_only (hP.step (by decide)) ?_)
    | with_reducible (refine completeAct_only (hP.step (by decide)) ?_)
    | with_reducible (refine actRec_only (hP.step (by decide)) ?_)
    | with_reducible (refine endInsync_only (hP.step (by decide)) ?_)
    | with_reducible (refine OnlyChanges.foldl ?_ (fun u a h => ?_))
    | (extract_lets +onlyGivenNames x; first | (refine OnlyChanges.cut x ?_ (fun h => ?_); (on_goal 2 => clear_value x); (on_goal 1 => subst x)) | clear_value x)
    | split
    | with_reducible (refine OnlyChanges.snd ?_)
    | with_reducible (refine OnlyChanges.fst ?_)
    | with_reducible (refine OnlyChanges.hres ?_)
    | ((with_reducible (refine OnlyChanges.upd ?_ (fun p hp => ?_))); on_goal 2 => (cases p <;> first | exact rfl | exact absurd (hP _ (by decide)) hp)))

theorem settled_only {P : List Part} {s₀ : State}  {t : State} (hP : Within [.hif, .tly, .boot, .outbox] P)  (h : OnlyChanges P s₀ t) :
    OnlyChanges P s₀ (State.settled t) := by
  unfold State.settled
  repeat' (first
    | with_reducible assumption
    | with_reducible (refine updAct_only (hP.step (by decide)) ?_)
    | with_reducible (refine actRec_only (hP.step (by decide)) ?_)
    | with_reducible (refine completeAct_only (hP.step (by decide)) ?_)
    | with_reducible (refine OnlyChanges.foldl ?_ (fun u a h => ?_))
    | (extract_lets +onlyGivenNames x; first | (refine OnlyChanges.cut x ?_ (fun h => ?_); (on_goal 2 => clear_value x); (on_goal 1 => subst x)) | clear_value x)
    | split
    | with_reducible (refine OnlyChanges.snd ?_)
    | with_reducible (refine OnlyChanges.fst ?_)
    | with_reducible (refine OnlyChanges.hres ?_)
    | ((with_reducible (refine OnlyChanges.upd ?_ (fun p hp => ?_))); on_goal 2 => (cases p <;> first | exact rfl | exact absurd (hP _ (by decide)) hp)))

theorem settleBad_only {P : List Part} {s₀ : State} {x0 : Nat} {t : State} (hP : Within [.sys, .hif, .cyc, .lsp, .cle, .chg, .dpx, .dpx2, .mir, .net, .tim, .can, .canq, .fio, .saf, .tly, .mm, .boot, .pwr, .ret, .cfg, .prog, .regs, .live, .votes, .press, .posted, .outbox, .freeN] P)  (h : OnlyChanges P s₀ t) :
    OnlyChanges P s₀ (State.settleBad x0 t) := by
  unfold State.settleBad
  repeat' (first
    | with_reducible assumption
    | with_reducible (refine log_only (hP.step (by decide)) ?_)
    | with_reducible (refine updAct_only (hP.step (by decide)) ?_)
    | with_reducible (refine settleFail_only (hP.step (by decide)) ?_)
    | with_reducible (refine OnlyChanges.foldl ?_ (fun u a h => ?_))
    | (extract_lets +onlyGivenNames x; first | (refine OnlyChanges.cut x ?_ (fun h => ?_); (on_goal 2 => clear_value x); (on_goal 1 => subst x)) | clear_value x)
    | split
    | with_reducible (refine OnlyChanges.snd ?_)
    | with_reducible (refine OnlyChanges.fst ?_)
    | with_reducible (refine OnlyChanges.hres ?_)
    | ((with_reducible (refine OnlyChanges.upd ?_ (fun p hp => ?_))); on_goal 2 => (cases p <;> first | exact rfl | exact absurd (hP _ (by decide)) hp)))

end Sys2Proof.Laws
end

