-- ==== Sys2Proof/Laws/OnlyReplay.lean ====
section
/-! SUPPORT. What each operation of Replay.lean may change: one frame per operation. -/

set_option linter.unusedTactic false
set_option linter.unreachableTactic false
set_option linter.unusedVariables false
set_option linter.tactic.unusedName false

namespace Sys2Proof.Laws

open Sys2Proof.Machine Sys2Proof.Safety

theorem skipRec_only {P : List Part} {s₀ : State} {x0 : JRec} {x1 : Nat} {t : State} (hP : Within [.tly] P)  (h : OnlyChanges P s₀ t) :
    OnlyChanges P s₀ (State.skipRec x0 x1 t) := by
  unfold State.skipRec
  repeat' (first
    | with_reducible assumption
    | with_reducible (refine log_only (hP.step (by decide)) ?_)
    | with_reducible (refine OnlyChanges.foldl ?_ (fun u a h => ?_))
    | (extract_lets +onlyGivenNames x; first | (refine OnlyChanges.cut x ?_ (fun h => ?_); (on_goal 2 => clear_value x); (on_goal 1 => subst x)) | clear_value x)
    | split
    | with_reducible (refine OnlyChanges.snd ?_)
    | with_reducible (refine OnlyChanges.fst ?_)
    | with_reducible (refine OnlyChanges.hres ?_)
    | ((with_reducible (refine OnlyChanges.upd ?_ (fun p hp => ?_))); on_goal 2 => (cases p <;> first | exact rfl | exact absurd (hP _ (by decide)) hp)))

theorem replayEffect_only {P : List Part} {s₀ : State} {x0 : JRec} {t : State} (hP : Within [.cyc, .cle] P)  (h : OnlyChanges P s₀ t) :
    OnlyChanges P s₀ (State.replayEffect x0 t) := by
  unfold State.replayEffect
  repeat' (first
    | with_reducible assumption
    | with_reducible (refine pokeNow_only (hP.step (by decide)) ?_)
    | with_reducible (refine loopWrite_only (hP.step (by decide)) ?_)
    | with_reducible (refine setForces_only (hP.step (by decide)) ?_)
    | with_reducible (refine clearForce_only (hP.step (by decide)) ?_)
    | with_reducible (refine OnlyChanges.foldl ?_ (fun u a h => ?_))
    | (extract_lets +onlyGivenNames x; first | (refine OnlyChanges.cut x ?_ (fun h => ?_); (on_goal 2 => clear_value x); (on_goal 1 => subst x)) | clear_value x)
    | split
    | with_reducible (refine OnlyChanges.snd ?_)
    | with_reducible (refine OnlyChanges.fst ?_)
    | with_reducible (refine OnlyChanges.hres ?_)
    | ((with_reducible (refine OnlyChanges.upd ?_ (fun p hp => ?_))); on_goal 2 => (cases p <;> first | exact rfl | exact absurd (hP _ (by decide)) hp)))

theorem dropRec_only {P : List Part} {s₀ : State} {x0 : JRec} {t : State} (hP : Within [.hif] P)  (h : OnlyChanges P s₀ t) :
    OnlyChanges P s₀ (State.dropRec x0 t) := by
  unfold State.dropRec
  repeat' (first
    | with_reducible assumption
    | with_reducible (refine journal_only (hP.step (by decide)) ?_)
    | with_reducible (refine OnlyChanges.foldl ?_ (fun u a h => ?_))
    | (extract_lets +onlyGivenNames x; first | (refine OnlyChanges.cut x ?_ (fun h => ?_); (on_goal 2 => clear_value x); (on_goal 1 => subst x)) | clear_value x)
    | split
    | with_reducible (refine OnlyChanges.snd ?_)
    | with_reducible (refine OnlyChanges.fst ?_)
    | with_reducible (refine OnlyChanges.hres ?_)
    | ((with_reducible (refine OnlyChanges.upd ?_ (fun p hp => ?_))); on_goal 2 => (cases p <;> first | exact rfl | exact absurd (hP _ (by decide)) hp)))

theorem dropImage_only {P : List Part} {s₀ : State} {x0 : JRec} {t : State} (hP : Within [.hif] P)  (h : OnlyChanges P s₀ t) :
    OnlyChanges P s₀ (State.dropImage x0 t) := by
  unfold State.dropImage
  repeat' (first
    | with_reducible assumption
    | with_reducible (refine dropRec_only (hP.step (by decide)) ?_)
    | with_reducible (refine leaveWin_only (hP.step (by decide)) ?_)
    | with_reducible (refine OnlyChanges.foldl ?_ (fun u a h => ?_))
    | (extract_lets +onlyGivenNames x; first | (refine OnlyChanges.cut x ?_ (fun h => ?_); (on_goal 2 => clear_value x); (on_goal 1 => subst x)) | clear_value x)
    | split
    | with_reducible (refine OnlyChanges.snd ?_)
    | with_reducible (refine OnlyChanges.fst ?_)
    | with_reducible (refine OnlyChanges.hres ?_)
    | ((with_reducible (refine OnlyChanges.upd ?_ (fun p hp => ?_))); on_goal 2 => (cases p <;> first | exact rfl | exact absurd (hP _ (by decide)) hp)))

theorem replayOne_only {P : List Part} {s₀ : State} {x1 : JRec} {t : State} (hP : Within [.hif, .cyc, .cle, .tly] P)  (h : OnlyChanges P s₀ t) :
    OnlyChanges P s₀ (State.replayOne t x1) := by
  unfold State.replayOne
  repeat' (first
    | with_reducible assumption
    | with_reducible (refine skipRec_only (hP.step (by decide)) ?_)
    | with_reducible (refine dropRec_only (hP.step (by decide)) ?_)
    | with_reducible (refine replayEffect_only (hP.step (by decide)) ?_)
    | with_reducible (refine dropImage_only (hP.step (by decide)) ?_)
    | with_reducible (refine leaveWin_only (hP.step (by decide)) ?_)
    | with_reducible (refine OnlyChanges.foldl ?_ (fun u a h => ?_))
    | (extract_lets +onlyGivenNames x; first | (refine OnlyChanges.cut x ?_ (fun h => ?_); (on_goal 2 => clear_value x); (on_goal 1 => subst x)) | clear_value x)
    | split
    | with_reducible (refine OnlyChanges.snd ?_)
    | with_reducible (refine OnlyChanges.fst ?_)
    | with_reducible (refine OnlyChanges.hres ?_)
    | ((with_reducible (refine OnlyChanges.upd ?_ (fun p hp => ?_))); on_goal 2 => (cases p <;> first | exact rfl | exact absurd (hP _ (by decide)) hp)))

theorem replay_only {P : List Part} {s₀ : State}  {t : State} (hP : Within [.hif, .cyc, .cle, .tly] P)  (h : OnlyChanges P s₀ t) :
    OnlyChanges P s₀ (State.replay t) := by
  unfold State.replay
  repeat' (first
    | with_reducible assumption
    | with_reducible (refine replayOne_only (hP.step (by decide)) ?_)
    | with_reducible (refine OnlyChanges.foldl ?_ (fun u a h => ?_))
    | (extract_lets +onlyGivenNames x; first | (refine OnlyChanges.cut x ?_ (fun h => ?_); (on_goal 2 => clear_value x); (on_goal 1 => subst x)) | clear_value x)
    | split
    | with_reducible (refine OnlyChanges.snd ?_)
    | with_reducible (refine OnlyChanges.fst ?_)
    | with_reducible (refine OnlyChanges.hres ?_)
    | ((with_reducible (refine OnlyChanges.upd ?_ (fun p hp => ?_))); on_goal 2 => (cases p <;> first | exact rfl | exact absurd (hP _ (by decide)) hp)))

end Sys2Proof.Laws
end

