-- ==== Sys2Proof/Laws/OnlyAdmin.lean ====
section
/-! SUPPORT. What each operation of Admin.lean may change: one frame per operation. -/

set_option linter.unusedTactic false
set_option linter.unreachableTactic false
set_option linter.unusedVariables false
set_option linter.tactic.unusedName false

namespace Sys2Proof.Laws

open Sys2Proof.Machine Sys2Proof.Safety

theorem runUnknown_only {P : List Part} {s₀ : State} {x0 : Hcmd} {t : State} (hP : Within [.hif, .tly, .outbox] P)  (h : OnlyChanges P s₀ t) :
    OnlyChanges P s₀ (State.runUnknown x0 t) := by
  unfold State.runUnknown
  repeat' (first
    | with_reducible assumption
    | with_reducible (refine fetch_only (hP.step (by decide)) ?_)
    | with_reducible (refine finish_only (hP.step (by decide)) ?_)
    | with_reducible (refine OnlyChanges.foldl ?_ (fun u a h => ?_))
    | (extract_lets +onlyGivenNames x; first | (refine OnlyChanges.cut x ?_ (fun h => ?_); (on_goal 2 => clear_value x); (on_goal 1 => subst x)) | clear_value x)
    | split
    | with_reducible (refine OnlyChanges.snd ?_)
    | with_reducible (refine OnlyChanges.fst ?_)
    | with_reducible (refine OnlyChanges.hres ?_)
    | ((with_reducible (refine OnlyChanges.upd ?_ (fun p hp => ?_))); on_goal 2 => (cases p <;> first | exact rfl | exact absurd (hP _ (by decide)) hp)))

theorem opIdentify_op {P : List Part} {s₀ : State}   (hP : Within [] P) :
    OpOnly P s₀ (opIdentify ) := by
  unfold opIdentify
  repeat' (first
    | (refine ⟨fun {h u} k => ?_, fun {h u v} e k => ?_⟩; (on_goal 2 => first | (cases e)); (on_goal 1 => dsimp -zeta only))
    | with_reducible assumption
    | with_reducible (refine OnlyChanges.foldl ?_ (fun u a h => ?_))
    | (extract_lets +onlyGivenNames x; first | (refine OnlyChanges.cut x ?_ (fun h => ?_); (on_goal 2 => clear_value x); (on_goal 1 => subst x)) | clear_value x)
    | split
    | with_reducible (refine OnlyChanges.snd ?_)
    | with_reducible (refine OnlyChanges.fst ?_)
    | with_reducible (refine OnlyChanges.hres ?_)
    | ((with_reducible (refine OnlyChanges.upd ?_ (fun p hp => ?_))); on_goal 2 => (cases p <;> first | exact rfl | exact absurd (hP _ (by decide)) hp)))

theorem setRing_only {P : List Part} {s₀ : State} {x0 : Nat} {x1 : Ring} {t : State} (hP : Within [.hif] P)  (h : OnlyChanges P s₀ t) :
    OnlyChanges P s₀ (State.setRing x0 x1 t) := by
  unfold State.setRing
  repeat' (first
    | with_reducible assumption
    | with_reducible (refine OnlyChanges.foldl ?_ (fun u a h => ?_))
    | (extract_lets +onlyGivenNames x; first | (refine OnlyChanges.cut x ?_ (fun h => ?_); (on_goal 2 => clear_value x); (on_goal 1 => subst x)) | clear_value x)
    | split
    | with_reducible (refine OnlyChanges.snd ?_)
    | with_reducible (refine OnlyChanges.fst ?_)
    | with_reducible (refine OnlyChanges.hres ?_)
    | ((with_reducible (refine OnlyChanges.upd ?_ (fun p hp => ?_))); on_goal 2 => (cases p <;> first | exact rfl | exact absurd (hP _ (by decide)) hp)))

theorem opRingCreate_op {P : List Part} {s₀ : State}   (hP : Within [.hif, .outbox] P) :
    OpOnly P s₀ (opRingCreate ) := by
  unfold opRingCreate
  repeat' (first
    | (refine ⟨fun {h u} k => ?_, fun {h u v} e k => ?_⟩; (on_goal 2 => first | (cases e)); (on_goal 1 => dsimp -zeta only))
    | with_reducible assumption
    | with_reducible (refine setRing_only (hP.step (by decide)) ?_)
    | with_reducible (refine releaseHeld_only (hP.step (by decide)) ?_)
    | with_reducible (refine OnlyChanges.foldl ?_ (fun u a h => ?_))
    | (extract_lets +onlyGivenNames x; first | (refine OnlyChanges.cut x ?_ (fun h => ?_); (on_goal 2 => clear_value x); (on_goal 1 => subst x)) | clear_value x)
    | split
    | with_reducible (refine OnlyChanges.snd ?_)
    | with_reducible (refine OnlyChanges.fst ?_)
    | with_reducible (refine OnlyChanges.hres ?_)
    | ((with_reducible (refine OnlyChanges.upd ?_ (fun p hp => ?_))); on_goal 2 => (cases p <;> first | exact rfl | exact absurd (hP _ (by decide)) hp)))

theorem ringDelete_only {P : List Part} {s₀ : State} {x0 : Nat} {t : State} (hP : Within [.sys, .hif, .chg, .dpx2, .tly, .boot, .outbox] P)  (h : OnlyChanges P s₀ t) :
    OnlyChanges P s₀ ((State.ringDelete x0 t).s) := by
  unfold State.ringDelete
  repeat' (first
    | with_reducible assumption
    | with_reducible (refine updRing_only (hP.step (by decide)) ?_)
    | with_reducible (refine abortInfl_only (hP.step (by decide)) ?_)
    | with_reducible (refine removeRing_only (hP.step (by decide)) ?_)
    | with_reducible (refine OnlyChanges.foldl ?_ (fun u a h => ?_))
    | (extract_lets +onlyGivenNames x; first | (refine OnlyChanges.cut x ?_ (fun h => ?_); (on_goal 2 => clear_value x); (on_goal 1 => subst x)) | clear_value x)
    | split
    | with_reducible (refine OnlyChanges.snd ?_)
    | with_reducible (refine OnlyChanges.fst ?_)
    | with_reducible (refine OnlyChanges.hres ?_)
    | ((with_reducible (refine OnlyChanges.upd ?_ (fun p hp => ?_))); on_goal 2 => (cases p <;> first | exact rfl | exact absurd (hP _ (by decide)) hp)))

theorem opRingDelete_op {P : List Part} {s₀ : State}   (hP : Within [.sys, .hif, .chg, .dpx2, .tly, .boot, .outbox] P) :
    OpOnly P s₀ (opRingDelete ) := by
  unfold opRingDelete
  repeat' (first
    | (refine ⟨fun {h u} k => ?_, fun {h u v} e k => ?_⟩; (on_goal 2 => first | (cases e)); (on_goal 1 => dsimp -zeta only))
    | with_reducible assumption
    | with_reducible (refine ringDelete_only (hP.step (by decide)) ?_)
    | with_reducible (refine OnlyChanges.foldl ?_ (fun u a h => ?_))
    | (extract_lets +onlyGivenNames x; first | (refine OnlyChanges.cut x ?_ (fun h => ?_); (on_goal 2 => clear_value x); (on_goal 1 => subst x)) | (refine OnlyChanges.cut x.s ?_ (fun h => ?_); (on_goal 2 => clear_value x); (on_goal 1 => subst x)) | clear_value x)
    | split
    | with_reducible (refine OnlyChanges.snd ?_)
    | with_reducible (refine OnlyChanges.fst ?_)
    | with_reducible (refine OnlyChanges.hres ?_)
    | ((with_reducible (refine OnlyChanges.upd ?_ (fun p hp => ?_))); on_goal 2 => (cases p <;> first | exact rfl | exact absurd (hP _ (by decide)) hp)))

theorem opEventCreate_op {P : List Part} {s₀ : State}   (hP : Within [.hif] P) :
    OpOnly P s₀ (opEventCreate ) := by
  unfold opEventCreate
  repeat' (first
    | (refine ⟨fun {h u} k => ?_, fun {h u v} e k => ?_⟩; (on_goal 2 => first | (cases e)); (on_goal 1 => dsimp -zeta only))
    | with_reducible assumption
    | with_reducible (refine OnlyChanges.foldl ?_ (fun u a h => ?_))
    | (extract_lets +onlyGivenNames x; first | (refine OnlyChanges.cut x ?_ (fun h => ?_); (on_goal 2 => clear_value x); (on_goal 1 => subst x)) | clear_value x)
    | split
    | with_reducible (refine OnlyChanges.snd ?_)
    | with_reducible (refine OnlyChanges.fst ?_)
    | with_reducible (refine OnlyChanges.hres ?_)
    | ((with_reducible (refine OnlyChanges.upd ?_ (fun p hp => ?_))); on_goal 2 => (cases p <;> first | exact rfl | exact absurd (hP _ (by decide)) hp)))

theorem opEventDelete_op {P : List Part} {s₀ : State}   (hP : Within [.hif] P) :
    OpOnly P s₀ (opEventDelete ) := by
  unfold opEventDelete
  repeat' (first
    | (refine ⟨fun {h u} k => ?_, fun {h u v} e k => ?_⟩; (on_goal 2 => first | (cases e)); (on_goal 1 => dsimp -zeta only))
    | with_reducible assumption
    | with_reducible (refine OnlyChanges.foldl ?_ (fun u a h => ?_))
    | (extract_lets +onlyGivenNames x; first | (refine OnlyChanges.cut x ?_ (fun h => ?_); (on_goal 2 => clear_value x); (on_goal 1 => subst x)) | clear_value x)
    | split
    | with_reducible (refine OnlyChanges.snd ?_)
    | with_reducible (refine OnlyChanges.fst ?_)
    | with_reducible (refine OnlyChanges.hres ?_)
    | ((with_reducible (refine OnlyChanges.upd ?_ (fun p hp => ?_))); on_goal 2 => (cases p <;> first | exact rfl | exact absurd (hP _ (by decide)) hp)))

theorem stopClasses_only {P : List Part} {s₀ : State}  {t : State} (hP : Within [.cyc] P)  (h : OnlyChanges P s₀ t) :
    OnlyChanges P s₀ (State.stopClasses t) := by
  unfold State.stopClasses
  repeat' (first
    | with_reducible assumption
    | with_reducible (refine OnlyChanges.foldl ?_ (fun u a h => ?_))
    | (extract_lets +onlyGivenNames x; first | (refine OnlyChanges.cut x ?_ (fun h => ?_); (on_goal 2 => clear_value x); (on_goal 1 => subst x)) | clear_value x)
    | split
    | with_reducible (refine OnlyChanges.snd ?_)
    | with_reducible (refine OnlyChanges.fst ?_)
    | with_reducible (refine OnlyChanges.hres ?_)
    | ((with_reducible (refine OnlyChanges.upd ?_ (fun p hp => ?_))); on_goal 2 => (cases p <;> first | exact rfl | exact absurd (hP _ (by decide)) hp)))

theorem testClasses_only {P : List Part} {s₀ : State}  {t : State} (hP : Within [.cyc, .cle, .net] P)  (h : OnlyChanges P s₀ t) :
    OnlyChanges P s₀ (State.testClasses t) := by
  unfold State.testClasses
  repeat' (first
    | with_reducible assumption
    | with_reducible (refine runClasses_only (hP.step (by decide)) ?_)
    | with_reducible (refine OnlyChanges.foldl ?_ (fun u a h => ?_))
    | (extract_lets +onlyGivenNames x; first | (refine OnlyChanges.cut x ?_ (fun h => ?_); (on_goal 2 => clear_value x); (on_goal 1 => subst x)) | clear_value x)
    | split
    | with_reducible (refine OnlyChanges.snd ?_)
    | with_reducible (refine OnlyChanges.fst ?_)
    | with_reducible (refine OnlyChanges.hres ?_)
    | ((with_reducible (refine OnlyChanges.upd ?_ (fun p hp => ?_))); on_goal 2 => (cases p <;> first | exact rfl | exact absurd (hP _ (by decide)) hp)))

theorem leaveSync_only {P : List Part} {s₀ : State}  {t : State} (hP : Within [.sys, .hif, .dpx, .dpx2, .tly] P)  (h : OnlyChanges P s₀ t) :
    OnlyChanges P s₀ (State.leaveSync t) := by
  unfold State.leaveSync
  repeat' (first
    | with_reducible assumption
    | with_reducible (refine endInsync_only (hP.step (by decide)) ?_)
    | with_reducible (refine OnlyChanges.foldl ?_ (fun u a h => ?_))
    | (extract_lets +onlyGivenNames x; first | (refine OnlyChanges.cut x ?_ (fun h => ?_); (on_goal 2 => clear_value x); (on_goal 1 => subst x)) | clear_value x)
    | split
    | with_reducible (refine OnlyChanges.snd ?_)
    | with_reducible (refine OnlyChanges.fst ?_)
    | with_reducible (refine OnlyChanges.hres ?_)
    | ((with_reducible (refine OnlyChanges.upd ?_ (fun p hp => ?_))); on_goal 2 => (cases p <;> first | exact rfl | exact absurd (hP _ (by decide)) hp)))

theorem followMode_only {P : List Part} {s₀ : State} {x0 : Mode} {t : State} (hP : Within [.sys, .hif, .cyc, .dpx, .dpx2, .saf, .tly, .mm, .outbox] P)  (h : OnlyChanges P s₀ t) :
    OnlyChanges P s₀ (State.followMode x0 t) := by
  unfold State.followMode
  repeat' (first
    | with_reducible assumption
    | with_reducible (refine leaveSync_only (hP.step (by decide)) ?_)
    | with_reducible (refine setMode_only (hP.step (by decide)) ?_)
    | with_reducible (refine OnlyChanges.foldl ?_ (fun u a h => ?_))
    | (extract_lets +onlyGivenNames x; first | (refine OnlyChanges.cut x ?_ (fun h => ?_); (on_goal 2 => clear_value x); (on_goal 1 => subst x)) | clear_value x)
    | split
    | with_reducible (refine OnlyChanges.snd ?_)
    | with_reducible (refine OnlyChanges.fst ?_)
    | with_reducible (refine OnlyChanges.hres ?_)
    | ((with_reducible (refine OnlyChanges.upd ?_ (fun p hp => ?_))); on_goal 2 => (cases p <;> first | exact rfl | exact absurd (hP _ (by decide)) hp)))

theorem followDue_only {P : List Part} {s₀ : State} {x0 : Nat} {t : State} (hP : Within [.sys, .hif, .cyc, .dpx, .dpx2, .saf, .tly, .mm, .outbox] P)  (h : OnlyChanges P s₀ t) :
    OnlyChanges P s₀ (State.followDue x0 t) := by
  unfold State.followDue
  repeat' (first
    | with_reducible assumption
    | with_reducible (refine followMode_only (hP.step (by decide)) ?_)
    | with_reducible (refine OnlyChanges.foldl ?_ (fun u a h => ?_))
    | (extract_lets +onlyGivenNames x; first | (refine OnlyChanges.cut x ?_ (fun h => ?_); (on_goal 2 => clear_value x); (on_goal 1 => subst x)) | clear_value x)
    | split
    | with_reducible (refine OnlyChanges.snd ?_)
    | with_reducible (refine OnlyChanges.fst ?_)
    | with_reducible (refine OnlyChanges.hres ?_)
    | ((with_reducible (refine OnlyChanges.upd ?_ (fun p hp => ?_))); on_goal 2 => (cases p <;> first | exact rfl | exact absurd (hP _ (by decide)) hp)))

theorem enterHold_only {P : List Part} {s₀ : State} {x0 : Hcmd} {t : State} (hP : Within [.sys, .hif, .cyc, .lsp, .dpx, .dpx2, .saf, .tly, .mm, .outbox] P)  (h : OnlyChanges P s₀ t) :
    OnlyChanges P s₀ (State.enterHold x0 t) := by
  unfold State.enterHold
  repeat' (first
    | with_reducible assumption
    | with_reducible (refine updPair_only (hP.step (by decide)) ?_)
    | with_reducible (refine releaseStores_only (hP.step (by decide)) ?_)
    | with_reducible (refine leaveSync_only (hP.step (by decide)) ?_)
    | with_reducible (refine setMode_only (hP.step (by decide)) ?_)
    | with_reducible (refine OnlyChanges.foldl ?_ (fun u a h => ?_))
    | (extract_lets +onlyGivenNames x; first | (refine OnlyChanges.cut x ?_ (fun h => ?_); (on_goal 2 => clear_value x); (on_goal 1 => subst x)) | clear_value x)
    | split
    | with_reducible (refine OnlyChanges.snd ?_)
    | with_reducible (refine OnlyChanges.fst ?_)
    | with_reducible (refine OnlyChanges.hres ?_)
    | ((with_reducible (refine OnlyChanges.upd ?_ (fun p hp => ?_))); on_goal 2 => (cases p <;> first | exact rfl | exact absurd (hP _ (by decide)) hp)))

theorem clearBps_only {P : List Part} {s₀ : State} {x0 : Nat} {t : State} (hP : Within [.regs] P)  (h : OnlyChanges P s₀ t) :
    OnlyChanges P s₀ (State.clearBps x0 t) := by
  unfold State.clearBps
  repeat' (first
    | with_reducible assumption
    | with_reducible (refine setReg_only (hP.step (by decide)) ?_)
    | with_reducible (refine OnlyChanges.foldl ?_ (fun u a h => ?_))
    | (extract_lets +onlyGivenNames x; first | (refine OnlyChanges.cut x ?_ (fun h => ?_); (on_goal 2 => clear_value x); (on_goal 1 => subst x)) | clear_value x)
    | split
    | with_reducible (refine OnlyChanges.snd ?_)
    | with_reducible (refine OnlyChanges.fst ?_)
    | with_reducible (refine OnlyChanges.hres ?_)
    | ((with_reducible (refine OnlyChanges.upd ?_ (fun p hp => ?_))); on_goal 2 => (cases p <;> first | exact rfl | exact absurd (hP _ (by decide)) hp)))

theorem leaveHold_only {P : List Part} {s₀ : State}  {t : State} (hP : Within [.sys, .hif, .cyc, .lsp, .saf, .tly, .mm, .regs, .outbox] P)  (h : OnlyChanges P s₀ t) :
    OnlyChanges P s₀ (State.leaveHold t) := by
  unfold State.leaveHold
  repeat' (first
    | with_reducible assumption
    | with_reducible (refine overrunRec_only (hP.step (by decide)) ?_)
    | with_reducible (refine clearBps_only (hP.step (by decide)) ?_)
    | with_reducible (refine updPair_only (hP.step (by decide)) ?_)
    | with_reducible (refine setMode_only (hP.step (by decide)) ?_)
    | with_reducible (refine OnlyChanges.foldl ?_ (fun u a h => ?_))
    | (extract_lets +onlyGivenNames x; first | (refine OnlyChanges.cut x ?_ (fun h => ?_); (on_goal 2 => clear_value x); (on_goal 1 => subst x)) | clear_value x)
    | split
    | with_reducible (refine OnlyChanges.snd ?_)
    | with_reducible (refine OnlyChanges.fst ?_)
    | with_reducible (refine OnlyChanges.hres ?_)
    | ((with_reducible (refine OnlyChanges.upd ?_ (fun p hp => ?_))); on_goal 2 => (cases p <;> first | exact rfl | exact absurd (hP _ (by decide)) hp)))

theorem enterIdle_only {P : List Part} {s₀ : State}  {t : State} (hP : Within [.sys, .hif, .cyc, .lsp, .dpx, .dpx2, .fio, .saf, .tly, .mm, .outbox] P)  (h : OnlyChanges P s₀ t) :
    OnlyChanges P s₀ (State.enterIdle t) := by
  unfold State.enterIdle
  repeat' (first
    | with_reducible assumption
    | with_reducible (refine leaveSync_only (hP.step (by decide)) ?_)
    | with_reducible (refine soOff_only (hP.step (by decide)) ?_)
    | with_reducible (refine haltClasses_only (hP.step (by decide)) ?_)
    | with_reducible (refine setMode_only (hP.step (by decide)) ?_)
    | with_reducible (refine OnlyChanges.foldl ?_ (fun u a h => ?_))
    | (extract_lets +onlyGivenNames x; first | (refine OnlyChanges.cut x ?_ (fun h => ?_); (on_goal 2 => clear_value x); (on_goal 1 => subst x)) | clear_value x)
    | split
    | with_reducible (refine OnlyChanges.snd ?_)
    | with_reducible (refine OnlyChanges.fst ?_)
    | with_reducible (refine OnlyChanges.hres ?_)
    | ((with_reducible (refine OnlyChanges.upd ?_ (fun p hp => ?_))); on_goal 2 => (cases p <;> first | exact rfl | exact absurd (hP _ (by decide)) hp)))

theorem reloadEngines_only {P : List Part} {s₀ : State}  {t : State} (hP : Within [.sys, .hif, .cyc, .lsp, .cle, .dpx, .net, .tim, .fio, .saf, .tly, .mm, .boot, .regs, .live, .votes, .outbox] P)  (h : OnlyChanges P s₀ t) :
    OnlyChanges P s₀ (State.reloadEngines t) := by
  unfold State.reloadEngines
  repeat' (first
    | with_reducible assumption
    | with_reducible (refine restarted_only (hP.step (by decide)) ?_)
    | with_reducible (refine step6_only (hP.step (by decide)) ?_)
    | with_reducible (refine OnlyChanges.foldl ?_ (fun u a h => ?_))
    | (extract_lets +onlyGivenNames x; first | (refine OnlyChanges.cut x ?_ (fun h => ?_); (on_goal 2 => clear_value x); (on_goal 1 => subst x)) | clear_value x)
    | split
    | with_reducible (refine OnlyChanges.snd ?_)
    | with_reducible (refine OnlyChanges.fst ?_)
    | with_reducible (refine OnlyChanges.hres ?_)
    | ((with_reducible (refine OnlyChanges.upd ?_ (fun p hp => ?_))); on_goal 2 => (cases p <;> first | exact rfl | exact absurd (hP _ (by decide)) hp)))

theorem leaveIdle_only {P : List Part} {s₀ : State} {x0 : Option BootObs} {t : State} (hP : Within [.sys, .hif, .cyc, .lsp, .cle, .dpx, .net, .tim, .fio, .saf, .tly, .mm, .boot, .regs, .live, .votes, .outbox, .freeN] P)  (h : OnlyChanges P s₀ t) :
    OnlyChanges P s₀ (State.leaveIdle x0 t) := by
  unfold State.leaveIdle
  repeat' (first
    | with_reducible assumption
    | with_reducible (refine drawObs_only (hP.step (by decide)) ?_)
    | with_reducible (refine reloadEngines_only (hP.step (by decide)) ?_)
    | with_reducible (refine setMode_only (hP.step (by decide)) ?_)
    | with_reducible (refine lockout_only (hP.step (by decide)) ?_)
    | with_reducible (refine OnlyChanges.foldl ?_ (fun u a h => ?_))
    | (extract_lets +onlyGivenNames x; first | (refine OnlyChanges.cut x ?_ (fun h => ?_); (on_goal 2 => clear_value x); (on_goal 1 => subst x)) | (refine OnlyChanges.cut x.2 ?_ (fun h => ?_); (on_goal 2 => clear_value x); (on_goal 1 => subst x)) | clear_value x)
    | (generalize he : State.drawObs _ = e; have k : OnlyChanges P s₀ e.2 := (by rw [← he]; refine drawObs_only (hP.step (by decide)) ?_ <;> with_reducible assumption); clear he; obtain ⟨a, u⟩ := e; dsimp -zeta only at k ⊢)
    | split
    | with_reducible (refine OnlyChanges.snd ?_)
    | with_reducible (refine OnlyChanges.fst ?_)
    | with_reducible (refine OnlyChanges.hres ?_)
    | ((with_reducible (refine OnlyChanges.upd ?_ (fun p hp => ?_))); on_goal 2 => (cases p <;> first | exact rfl | exact absurd (hP _ (by decide)) hp)))

theorem leaveRecovery_only {P : List Part} {s₀ : State} {x0 : Mode} {t : State} (hP : Within [.sys, .hif, .cyc, .cle, .dpx, .dpx2, .saf, .tly, .mm, .boot, .outbox] P)  (h : OnlyChanges P s₀ t) :
    OnlyChanges P s₀ (State.leaveRecovery x0 t) := by
  unfold State.leaveRecovery
  repeat' (first
    | with_reducible assumption
    | with_reducible (refine replayOnce_only (hP.step (by decide)) ?_ ?_)
    | with_reducible (refine replay_only (hP.step (by decide)) ?_)
    | with_reducible (refine takeEpoch_only (hP.step (by decide)) ?_)
    | with_reducible (refine setMode_only (hP.step (by decide)) ?_)
    | with_reducible (refine OnlyChanges.foldl ?_ (fun u a h => ?_))
    | intro _
    | (extract_lets +onlyGivenNames x; first | (refine OnlyChanges.cut x ?_ (fun h => ?_); (on_goal 2 => clear_value x); (on_goal 1 => subst x)) | clear_value x)
    | split
    | intro _
    | with_reducible (refine OnlyChanges.snd ?_)
    | with_reducible (refine OnlyChanges.fst ?_)
    | with_reducible (refine OnlyChanges.hres ?_)
    | ((with_reducible (refine OnlyChanges.upd ?_ (fun p hp => ?_))); on_goal 2 => (cases p <;> first | exact rfl | exact absurd (hP _ (by decide)) hp)))

theorem stopInto_only {P : List Part} {s₀ : State} {x0 : Mode} {x1 : Nat} {t : State} (hP : Within [.sys, .hif, .cyc, .dpx, .dpx2, .saf, .tly, .mm, .outbox] P)  (h : OnlyChanges P s₀ t) :
    OnlyChanges P s₀ ((State.stopInto x0 x1 t).s) := by
  unfold State.stopInto
  repeat' (first
    | with_reducible assumption
    | with_reducible (refine stopClasses_only (hP.step (by decide)) ?_)
    | with_reducible (refine leaveSync_only (hP.step (by decide)) ?_)
    | with_reducible (refine setMode_only (hP.step (by decide)) ?_)
    | with_reducible (refine beginTrans_only (hP.step (by decide)) ?_)
    | with_reducible (refine OnlyChanges.foldl ?_ (fun u a h => ?_))
    | (extract_lets +onlyGivenNames x; first | (refine OnlyChanges.cut x ?_ (fun h => ?_); (on_goal 2 => clear_value x); (on_goal 1 => subst x)) | clear_value x)
    | split
    | with_reducible (refine OnlyChanges.snd ?_)
    | with_reducible (refine OnlyChanges.fst ?_)
    | with_reducible (refine OnlyChanges.hres ?_)
    | ((with_reducible (refine OnlyChanges.upd ?_ (fun p hp => ?_))); on_goal 2 => (cases p <;> first | exact rfl | exact absurd (hP _ (by decide)) hp)))

theorem modeEffect_only {P : List Part} {s₀ : State} {x0 : Mode} {x1 : Option BootObs} {x2 : Hcmd} {t : State} (hP : Within [.sys, .hif, .cyc, .lsp, .cle, .dpx, .dpx2, .net, .tim, .fio, .saf, .tly, .mm, .boot, .regs, .live, .votes, .outbox, .freeN] P)  (h : OnlyChanges P s₀ t) :
    OnlyChanges P s₀ ((State.modeEffect x0 x1 x2 t).s) := by
  unfold State.modeEffect
  repeat' (first
    | with_reducible assumption
    | with_reducible (refine leaveHold_only (hP.step (by decide)) ?_)
    | with_reducible (refine leaveIdle_only (hP.step (by decide)) ?_)
    | with_reducible (refine leaveRecovery_only (hP.step (by decide)) ?_)
    | with_reducible (refine enterHold_only (hP.step (by decide)) ?_)
    | with_reducible (refine stopInto_only (hP.step (by decide)) ?_)
    | with_reducible (refine enterIdle_only (hP.step (by decide)) ?_)
    | with_reducible (refine runClasses_only (hP.step (by decide)) ?_)
    | with_reducible (refine setMode_only (hP.step (by decide)) ?_)
    | with_reducible (refine testClasses_only (hP.step (by decide)) ?_)
    | with_reducible (refine OnlyChanges.foldl ?_ (fun u a h => ?_))
    | (extract_lets +onlyGivenNames x; first | (refine OnlyChanges.cut x ?_ (fun h => ?_); (on_goal 2 => clear_value x); (on_goal 1 => subst x)) | (refine OnlyChanges.cut x.s ?_ (fun h => ?_); (on_goal 2 => clear_value x); (on_goal 1 => subst x)) | clear_value x)
    | split
    | with_reducible (refine OnlyChanges.snd ?_)
    | with_reducible (refine OnlyChanges.fst ?_)
    | with_reducible (refine OnlyChanges.hres ?_)
    | ((with_reducible (refine OnlyChanges.upd ?_ (fun p hp => ?_))); on_goal 2 => (cases p <;> first | exact rfl | exact absurd (hP _ (by decide)) hp)))

theorem modeOp_op {P : List Part} {s₀ : State} {x1 : Mode} {x2 : Option BootObs} {t : State} (hP : Within [.sys, .hif, .cyc, .lsp, .cle, .dpx, .dpx2, .net, .tim, .fio, .saf, .tly, .mm, .boot, .regs, .live, .votes, .outbox, .freeN] P) :
    OpOnly P s₀ (State.modeOp t x1 x2) := by
  unfold State.modeOp
  repeat' (first
    | (refine ⟨fun {h u} k => ?_, fun {h u v} e k => ?_⟩; (on_goal 2 => first | (cases e)); (on_goal 1 => dsimp -zeta only))
    | with_reducible assumption
    | with_reducible (refine modeEffect_only (hP.step (by decide)) ?_)
    | with_reducible (refine OnlyChanges.foldl ?_ (fun u a h => ?_))
    | (extract_lets +onlyGivenNames x; first | (refine OnlyChanges.cut x ?_ (fun h => ?_); (on_goal 2 => clear_value x); (on_goal 1 => subst x)) | (refine OnlyChanges.cut x.s ?_ (fun h => ?_); (on_goal 2 => clear_value x); (on_goal 1 => subst x)) | clear_value x)
    | split
    | with_reducible (refine OnlyChanges.snd ?_)
    | with_reducible (refine OnlyChanges.fst ?_)
    | with_reducible (refine OnlyChanges.hres ?_)
    | ((with_reducible (refine OnlyChanges.upd ?_ (fun p hp => ?_))); on_goal 2 => (cases p <;> first | exact rfl | exact absurd (hP _ (by decide)) hp)))

theorem runMode_only {P : List Part} {s₀ : State} {x0 : Mode} {x1 : Option BootObs} {x2 : Hcmd} {t : State} (hP : Within [.sys, .hif, .cyc, .lsp, .cle, .dpx, .dpx2, .net, .tim, .fio, .saf, .tly, .mm, .boot, .regs, .live, .votes, .outbox, .freeN] P)  (h : OnlyChanges P s₀ t) :
    OnlyChanges P s₀ (State.runMode x0 x1 x2 t) := by
  unfold State.runMode
  repeat' (first
    | with_reducible assumption
    | with_reducible (refine runCmd_only (hP.step (by decide)) ?_ ?_)
    | with_reducible exact modeOp_op (hP.step (by decide)) 
    | with_reducible (refine OnlyChanges.foldl ?_ (fun u a h => ?_))
    | intro _
    | (extract_lets +onlyGivenNames x; first | (refine OnlyChanges.cut x ?_ (fun h => ?_); (on_goal 2 => clear_value x); (on_goal 1 => subst x)) | clear_value x)
    | split
    | intro _
    | with_reducible (refine OnlyChanges.snd ?_)
    | with_reducible (refine OnlyChanges.fst ?_)
    | with_reducible (refine OnlyChanges.hres ?_)
    | ((with_reducible (refine OnlyChanges.upd ?_ (fun p hp => ?_))); on_goal 2 => (cases p <;> first | exact rfl | exact absurd (hP _ (by decide)) hp)))

theorem askExchange_only {P : List Part} {s₀ : State} {x0 : Bool} {x1 : Nat} {t : State} (hP : Within [.dpx2] P)  (h : OnlyChanges P s₀ t) :
    OnlyChanges P s₀ (State.askExchange x0 x1 t) := by
  unfold State.askExchange
  repeat' (first
    | with_reducible assumption
    | with_reducible (refine OnlyChanges.foldl ?_ (fun u a h => ?_))
    | (extract_lets +onlyGivenNames x; first | (refine OnlyChanges.cut x ?_ (fun h => ?_); (on_goal 2 => clear_value x); (on_goal 1 => subst x)) | clear_value x)
    | split
    | with_reducible (refine OnlyChanges.snd ?_)
    | with_reducible (refine OnlyChanges.fst ?_)
    | with_reducible (refine OnlyChanges.hres ?_)
    | ((with_reducible (refine OnlyChanges.upd ?_ (fun p hp => ?_))); on_goal 2 => (cases p <;> first | exact rfl | exact absurd (hP _ (by decide)) hp)))

theorem opExchange_op {P : List Part} {s₀ : State}   (hP : Within [.dpx2] P) :
    OpOnly P s₀ (opExchange ) := by
  unfold opExchange
  repeat' (first
    | (refine ⟨fun {h u} k => ?_, fun {h u v} e k => ?_⟩; (on_goal 2 => first | (cases e)); (on_goal 1 => dsimp -zeta only))
    | with_reducible assumption
    | with_reducible (refine askExchange_only (hP.step (by decide)) ?_)
    | with_reducible (refine OnlyChanges.foldl ?_ (fun u a h => ?_))
    | (extract_lets +onlyGivenNames x; first | (refine OnlyChanges.cut x ?_ (fun h => ?_); (on_goal 2 => clear_value x); (on_goal 1 => subst x)) | clear_value x)
    | split
    | with_reducible (refine OnlyChanges.snd ?_)
    | with_reducible (refine OnlyChanges.fst ?_)
    | with_reducible (refine OnlyChanges.hres ?_)
    | ((with_reducible (refine OnlyChanges.upd ?_ (fun p hp => ?_))); on_goal 2 => (cases p <;> first | exact rfl | exact absurd (hP _ (by decide)) hp)))

theorem opRestart_op {P : List Part} {s₀ : State}   (hP : Within [.sys] P) :
    OpOnly P s₀ (opRestart ) := by
  unfold opRestart
  repeat' (first
    | (refine ⟨fun {h u} k => ?_, fun {h u v} e k => ?_⟩; (on_goal 2 => first | (cases e)); (on_goal 1 => dsimp -zeta only))
    | with_reducible assumption
    | with_reducible (refine beginTrans_only (hP.step (by decide)) ?_)
    | with_reducible (refine OnlyChanges.foldl ?_ (fun u a h => ?_))
    | (extract_lets +onlyGivenNames x; first | (refine OnlyChanges.cut x ?_ (fun h => ?_); (on_goal 2 => clear_value x); (on_goal 1 => subst x)) | clear_value x)
    | split
    | with_reducible (refine OnlyChanges.snd ?_)
    | with_reducible (refine OnlyChanges.fst ?_)
    | with_reducible (refine OnlyChanges.hres ?_)
    | ((with_reducible (refine OnlyChanges.upd ?_ (fun p hp => ?_))); on_goal 2 => (cases p <;> first | exact rfl | exact absurd (hP _ (by decide)) hp)))

theorem restart_only {P : List Part} {s₀ : State} {x0 : BootObs} {t : State} (hP : Within [.sys, .hif, .cyc, .lsp, .cle, .chg, .dpx, .dpx2, .mir, .net, .tim, .can, .canq, .fio, .saf, .tly, .mm, .boot, .pwr, .ret, .cfg, .prog, .regs, .live, .votes, .press, .posted, .outbox, .freeN] P)  (h : OnlyChanges P s₀ t) :
    OnlyChanges P s₀ (State.restart x0 t) := by
  unfold State.restart
  repeat' (first
    | with_reducible assumption
    | with_reducible (refine bootFrom2_only (hP.step (by decide)) ?_ ?_)
    | with_reducible (refine replay_only (hP.step (by decide)) ?_)
    | with_reducible (refine OnlyChanges.foldl ?_ (fun u a h => ?_))
    | intro _
    | (extract_lets +onlyGivenNames x; first | (refine OnlyChanges.cut x ?_ (fun h => ?_); (on_goal 2 => clear_value x); (on_goal 1 => subst x)) | clear_value x)
    | split
    | intro _
    | with_reducible (refine OnlyChanges.snd ?_)
    | with_reducible (refine OnlyChanges.fst ?_)
    | with_reducible (refine OnlyChanges.hres ?_)
    | ((with_reducible (refine OnlyChanges.upd ?_ (fun p hp => ?_))); on_goal 2 => (cases p <;> first | exact rfl | exact absurd (hP _ (by decide)) hp)))

theorem runRestart_only {P : List Part} {s₀ : State} {x0 : BootObs} {x1 : Hcmd} {t : State} (hP : Within [.sys, .hif, .cyc, .lsp, .cle, .chg, .dpx, .dpx2, .mir, .net, .tim, .can, .canq, .fio, .saf, .tly, .mm, .boot, .pwr, .ret, .cfg, .prog, .regs, .live, .votes, .press, .posted, .outbox, .freeN] P)  (h : OnlyChanges P s₀ t) :
    OnlyChanges P s₀ (State.runRestart x0 x1 t) := by
  unfold State.runRestart
  repeat' (first
    | with_reducible assumption
    | with_reducible (refine runCmd_only (hP.step (by decide)) ?_ ?_)
    | with_reducible exact opRestart_op (hP.step (by decide)) 
    | with_reducible (refine restart_only (hP.step (by decide)) ?_)
    | with_reducible (refine OnlyChanges.foldl ?_ (fun u a h => ?_))
    | intro _
    | (extract_lets +onlyGivenNames x; first | (refine OnlyChanges.cut x ?_ (fun h => ?_); (on_goal 2 => clear_value x); (on_goal 1 => subst x)) | clear_value x)
    | split
    | intro _
    | with_reducible (refine OnlyChanges.snd ?_)
    | with_reducible (refine OnlyChanges.fst ?_)
    | with_reducible (refine OnlyChanges.hres ?_)
    | ((with_reducible (refine OnlyChanges.upd ?_ (fun p hp => ?_))); on_goal 2 => (cases p <;> first | exact rfl | exact absurd (hP _ (by decide)) hp)))

theorem opQuote_op {P : List Part} {s₀ : State}   (hP : Within [] P) :
    OpOnly P s₀ (opQuote ) := by
  unfold opQuote
  repeat' (first
    | (refine ⟨fun {h u} k => ?_, fun {h u v} e k => ?_⟩; (on_goal 2 => first | (cases e)); (on_goal 1 => dsimp -zeta only))
    | with_reducible assumption
    | with_reducible (refine OnlyChanges.foldl ?_ (fun u a h => ?_))
    | (extract_lets +onlyGivenNames x; first | (refine OnlyChanges.cut x ?_ (fun h => ?_); (on_goal 2 => clear_value x); (on_goal 1 => subst x)) | clear_value x)
    | split
    | with_reducible (refine OnlyChanges.snd ?_)
    | with_reducible (refine OnlyChanges.fst ?_)
    | with_reducible (refine OnlyChanges.hres ?_)
    | ((with_reducible (refine OnlyChanges.upd ?_ (fun p hp => ?_))); on_goal 2 => (cases p <;> first | exact rfl | exact absurd (hP _ (by decide)) hp)))

theorem tallyClear_only {P : List Part} {s₀ : State} {x0 : Hcmd} {t : State} (hP : Within [.tly] P)  (h : OnlyChanges P s₀ t) :
    OnlyChanges P s₀ (State.tallyClear x0 t) := by
  unfold State.tallyClear
  repeat' (first
    | with_reducible assumption
    | with_reducible (refine clearRange_only (hP.step (by decide)) ?_)
    | with_reducible (refine OnlyChanges.foldl ?_ (fun u a h => ?_))
    | (extract_lets +onlyGivenNames x; first | (refine OnlyChanges.cut x ?_ (fun h => ?_); (on_goal 2 => clear_value x); (on_goal 1 => subst x)) | (refine OnlyChanges.cut x.2 ?_ (fun h => ?_); (on_goal 2 => clear_value x); (on_goal 1 => subst x)) | clear_value x)
    | (generalize he : State.clearRange _ _ _ _ _ = e; have k : OnlyChanges P s₀ e.2 := (by rw [← he]; refine clearRange_only (hP.step (by decide)) ?_ <;> with_reducible assumption); clear he; obtain ⟨a, u⟩ := e; dsimp -zeta only at k ⊢)
    | split
    | with_reducible (refine OnlyChanges.snd ?_)
    | with_reducible (refine OnlyChanges.fst ?_)
    | with_reducible (refine OnlyChanges.hres ?_)
    | ((with_reducible (refine OnlyChanges.upd ?_ (fun p hp => ?_))); on_goal 2 => (cases p <;> first | exact rfl | exact absurd (hP _ (by decide)) hp)))

theorem opClear_op {P : List Part} {s₀ : State}   (hP : Within [.tly] P) :
    OpOnly P s₀ (opClear ) := by
  unfold opClear
  repeat' (first
    | (refine ⟨fun {h u} k => ?_, fun {h u v} e k => ?_⟩; (on_goal 2 => first | (cases e)); (on_goal 1 => dsimp -zeta only))
    | with_reducible assumption
    | with_reducible (refine tallyClear_only (hP.step (by decide)) ?_)
    | with_reducible (refine OnlyChanges.foldl ?_ (fun u a h => ?_))
    | (extract_lets +onlyGivenNames x; first | (refine OnlyChanges.cut x ?_ (fun h => ?_); (on_goal 2 => clear_value x); (on_goal 1 => subst x)) | clear_value x)
    | split
    | with_reducible (refine OnlyChanges.snd ?_)
    | with_reducible (refine OnlyChanges.fst ?_)
    | with_reducible (refine OnlyChanges.hres ?_)
    | ((with_reducible (refine OnlyChanges.upd ?_ (fun p hp => ?_))); on_goal 2 => (cases p <;> first | exact rfl | exact absurd (hP _ (by decide)) hp)))

theorem afterToken_only {P : List Part} {s₀ : State} {x0 : Hcmd} {b : State} {t : State} (hP : Within [.tly, .freeN] P)  (h : OnlyChanges P s₀ t) :
    OnlyChanges P s₀ (State.afterToken x0 b t) := by
  unfold State.afterToken
  repeat' (first
    | with_reducible assumption
    | with_reducible exact opClear_op (hP.step (by decide)) 
    | with_reducible (refine newNonce_only (hP.step (by decide)) ?_)
    | with_reducible (refine clearRefused_only (hP.step (by decide)) ?_)
    | with_reducible (refine OnlyChanges.foldl ?_ (fun u a h => ?_))
    | (extract_lets +onlyGivenNames x; first | (refine OnlyChanges.cut x ?_ (fun h => ?_); (on_goal 2 => clear_value x); (on_goal 1 => subst x)) | clear_value x)
    | split
    | with_reducible (refine OnlyChanges.snd ?_)
    | with_reducible (refine OnlyChanges.fst ?_)
    | with_reducible (refine OnlyChanges.hres ?_)
    | ((with_reducible (refine OnlyChanges.upd ?_ (fun p hp => ?_))); on_goal 2 => (cases p <;> first | exact rfl | exact absurd (hP _ (by decide)) hp)))

theorem runClear_only {P : List Part} {s₀ : State} {x0 : Hcmd} {t : State} (hP : Within [.sys, .hif, .dpx, .dpx2, .tly, .outbox, .freeN] P)  (h : OnlyChanges P s₀ t) :
    OnlyChanges P s₀ (State.runClear x0 t) := by
  unfold State.runClear
  repeat' (first
    | with_reducible assumption
    | with_reducible (refine afterToken_only (hP.step (by decide)) ?_)
    | with_reducible (refine runCmd_only (hP.step (by decide)) ?_ ?_)
    | with_reducible exact opClear_op (hP.step (by decide)) 
    | with_reducible (refine OnlyChanges.foldl ?_ (fun u a h => ?_))
    | intro _
    | (extract_lets +onlyGivenNames x; first | (refine OnlyChanges.cut x ?_ (fun h => ?_); (on_goal 2 => clear_value x); (on_goal 1 => subst x)) | clear_value x)
    | split
    | intro _
    | with_reducible (refine OnlyChanges.snd ?_)
    | with_reducible (refine OnlyChanges.fst ?_)
    | with_reducible (refine OnlyChanges.hres ?_)
    | ((with_reducible (refine OnlyChanges.upd ?_ (fun p hp => ?_))); on_goal 2 => (cases p <;> first | exact rfl | exact absurd (hP _ (by decide)) hp)))

end Sys2Proof.Laws
end

