-- ==== Sys2Proof/Laws/OnlyHostOps.lean ====
section
/-! SUPPORT. What each operation of HostOps.lean may change: one frame per operation. -/

set_option linter.unusedTactic false
set_option linter.unreachableTactic false
set_option linter.unusedVariables false
set_option linter.tactic.unusedName false

namespace Sys2Proof.Laws

open Sys2Proof.Machine Sys2Proof.Safety

theorem activateOp_op {P : List Part} {s₀ : State} {x0 : Hcmd}  (hP : Within [.dpx2, .tly, .boot, .outbox] P) :
    OpOnly P s₀ (activateOp x0) := by
  unfold activateOp
  repeat' (first
    | (refine ⟨fun {h u} k => ?_, fun {h u v} e k => ?_⟩; (on_goal 2 => first | (cases e)); (on_goal 1 => dsimp -zeta only))
    | with_reducible assumption
    | with_reducible exact opSwitch_op (hP.step (by decide)) 
    | with_reducible exact opConfirm_op (hP.step (by decide)) 
    | with_reducible exact opCancel_op (hP.step (by decide)) 
    | with_reducible (refine OnlyChanges.foldl ?_ (fun u a h => ?_))
    | (extract_lets +onlyGivenNames x; first | (refine OnlyChanges.cut x ?_ (fun h => ?_); (on_goal 2 => clear_value x); (on_goal 1 => subst x)) | clear_value x)
    | split
    | with_reducible (refine OnlyChanges.snd ?_)
    | with_reducible (refine OnlyChanges.fst ?_)
    | with_reducible (refine OnlyChanges.hres ?_)
    | ((with_reducible (refine OnlyChanges.upd ?_ (fun p hp => ?_))); on_goal 2 => (cases p <;> first | exact rfl | exact absurd (hP _ (by decide)) hp)))

theorem loadOp_op {P : List Part} {s₀ : State} {x0 : Hcmd}  (hP : Within [.chg, .dpx2, .outbox] P) :
    OpOnly P s₀ (loadOp x0) := by
  unfold loadOp
  repeat' (first
    | (refine ⟨fun {h u} k => ?_, fun {h u v} e k => ?_⟩; (on_goal 2 => first | (cases e)); (on_goal 1 => dsimp -zeta only))
    | with_reducible assumption
    | with_reducible exact opChange_op (hP.step (by decide)) 
    | with_reducible exact opReturn_op (hP.step (by decide)) 
    | with_reducible exact opStatus_op (hP.step (by decide)) 
    | with_reducible (refine OnlyChanges.foldl ?_ (fun u a h => ?_))
    | (extract_lets +onlyGivenNames x; first | (refine OnlyChanges.cut x ?_ (fun h => ?_); (on_goal 2 => clear_value x); (on_goal 1 => subst x)) | clear_value x)
    | split
    | with_reducible (refine OnlyChanges.snd ?_)
    | with_reducible (refine OnlyChanges.fst ?_)
    | with_reducible (refine OnlyChanges.hres ?_)
    | ((with_reducible (refine OnlyChanges.upd ?_ (fun p hp => ?_))); on_goal 2 => (cases p <;> first | exact rfl | exact absurd (hP _ (by decide)) hp)))

theorem hostOp_op {P : List Part} {s₀ : State} {x1 : Hcmd} {t : State} {op : HostOp} (hP : Within [.sys, .hif, .cyc, .lsp, .cle, .chg, .dpx, .dpx2, .net, .tim, .fio, .saf, .tly, .mm, .boot, .regs, .live, .votes, .outbox, .freeN] P) (e : State.hostOp t x1 = some op) :
    OpOnly P s₀ op := by
  unfold State.hostOp at e
  split at e
  all_goals (cases e <;> first | exact opNop_op (hP.step (by decide)) | exact opIdentify_op (hP.step (by decide)) | exact opRingCreate_op (hP.step (by decide)) | exact opRingDelete_op (hP.step (by decide)) | exact opEventCreate_op (hP.step (by decide)) | exact opEventDelete_op (hP.step (by decide)) | exact modeOp_op (hP.step (by decide)) | exact opExchange_op (hP.step (by decide)) | exact opRestart_op (hP.step (by decide)) | exact opImageWrite_op (hP.step (by decide)) | exact opImageVerify_op (hP.step (by decide)) | exact activateOp_op (hP.step (by decide)) | exact opCfgReturn_op (hP.step (by decide)) | exact opQuote_op (hP.step (by decide)) | exact opClear_op (hP.step (by decide)) | exact opVarRead_op (hP.step (by decide)) | exact varWriteOp_op (hP.step (by decide)) | exact opForceSet_op (hP.step (by decide)) | exact opForceClear_op (hP.step (by decide)) | exact opLoopRead_op (hP.step (by decide)) | exact opLoopWrite_op (hP.step (by decide)) | exact opTallyRead_op (hP.step (by decide)) | exact loadOp_op (hP.step (by decide)))

theorem ackHost_only {P : List Part} {s₀ : State} {x0 : Nat} {t : State} (hP : Within [.sys, .hif, .cyc, .lsp, .cle, .chg, .dpx, .dpx2, .net, .tim, .fio, .saf, .tly, .mm, .boot, .regs, .live, .votes, .outbox, .freeN] P)  (h : OnlyChanges P s₀ t) :
    OnlyChanges P s₀ (State.ackHost x0 t) := by
  unfold State.ackHost
  repeat' (first
    | with_reducible assumption
    | with_reducible exact hostOp_op (hP.step (by decide)) (by assumption)
    | with_reducible (refine updRing_only (hP.step (by decide)) ?_)
    | with_reducible (refine afterRecord_only (hP.step (by decide)) ?_ ?_)
    | with_reducible (refine OnlyChanges.foldl ?_ (fun u a h => ?_))
    | intro _
    | (extract_lets +onlyGivenNames x; first | (refine OnlyChanges.cut x ?_ (fun h => ?_); (on_goal 2 => clear_value x); (on_goal 1 => subst x)) | clear_value x)
    | split
    | intro _
    | with_reducible (refine OnlyChanges.snd ?_)
    | with_reducible (refine OnlyChanges.fst ?_)
    | with_reducible (refine OnlyChanges.hres ?_)
    | ((with_reducible (refine OnlyChanges.upd ?_ (fun p hp => ?_))); on_goal 2 => (cases p <;> first | exact rfl | exact absurd (hP _ (by decide)) hp)))

theorem ackMissing_only {P : List Part} {s₀ : State} {x0 : Nat} {t : State} (hP : Within [.sys, .hif, .cyc, .lsp, .cle, .chg, .dpx, .dpx2, .net, .tim, .fio, .saf, .tly, .mm, .boot, .regs, .live, .votes, .outbox, .freeN] P)  (h : OnlyChanges P s₀ t) :
    OnlyChanges P s₀ (State.ackMissing x0 t) := by
  unfold State.ackMissing
  repeat' (first
    | with_reducible assumption
    | with_reducible exact hostOp_op (hP.step (by decide)) (by assumption)
    | with_reducible (refine endInsync_only (hP.step (by decide)) ?_)
    | with_reducible (refine updRing_only (hP.step (by decide)) ?_)
    | with_reducible (refine recordJournal_only (hP.step (by decide)) ?_ ?_)
    | with_reducible (refine OnlyChanges.foldl ?_ (fun u a h => ?_))
    | intro _
    | (extract_lets +onlyGivenNames x; first | (refine OnlyChanges.cut x ?_ (fun h => ?_); (on_goal 2 => clear_value x); (on_goal 1 => subst x)) | clear_value x)
    | split
    | intro _
    | with_reducible (refine OnlyChanges.snd ?_)
    | with_reducible (refine OnlyChanges.fst ?_)
    | with_reducible (refine OnlyChanges.hres ?_)
    | ((with_reducible (refine OnlyChanges.upd ?_ (fun p hp => ?_))); on_goal 2 => (cases p <;> first | exact rfl | exact absurd (hP _ (by decide)) hp)))

theorem endLost_only {P : List Part} {s₀ : State} {x0 : Infl} {t : State} (hP : Within [.sys, .hif, .cyc, .lsp, .cle, .chg, .dpx, .dpx2, .net, .tim, .fio, .saf, .tly, .mm, .boot, .regs, .live, .votes, .outbox, .freeN] P)  (h : OnlyChanges P s₀ t) :
    OnlyChanges P s₀ (State.endLost x0 t) := by
  unfold State.endLost
  extract_lets x u
  clear_value x
  have hu : OnlyChanges P s₀ u := enterWin_only (hP.step (by decide)) (OnlyChanges.upd h fun p hp => by
    cases p <;> first | exact rfl | exact absurd (hP _ (by decide)) hp)
  clear_value u
  split
  · rename_i op e
    have k : OpOnly P s₀ op := hostOp_op (hP.step (by decide)) e
    split
    · exact k.effect hu
    · exact hu
  · exact hu

theorem lostMissing_only {P : List Part} {s₀ : State} {x0 : Infl} {t : State} (hP : Within [.sys, .hif, .cyc, .lsp, .cle, .chg, .dpx, .dpx2, .net, .tim, .fio, .saf, .tly, .mm, .boot, .regs, .live, .votes, .outbox, .freeN] P)  (h : OnlyChanges P s₀ t) :
    OnlyChanges P s₀ (State.lostMissing x0 t) := by
  unfold State.lostMissing
  repeat' (first
    | with_reducible assumption
    | with_reducible (refine endInsync_only (hP.step (by decide)) ?_)
    | with_reducible exact hostOp_op (hP.step (by decide)) (by assumption)
    | with_reducible (refine journal_only (hP.step (by decide)) ?_)
    | with_reducible (refine endLost_only (hP.step (by decide)) ?_)
    | with_reducible (refine OnlyChanges.foldl ?_ (fun u a h => ?_))
    | (extract_lets +onlyGivenNames x; first | (refine OnlyChanges.cut x ?_ (fun h => ?_); (on_goal 2 => clear_value x); (on_goal 1 => subst x)) | clear_value x)
    | split
    | with_reducible (refine OnlyChanges.snd ?_)
    | with_reducible (refine OnlyChanges.fst ?_)
    | with_reducible (refine OnlyChanges.hres ?_)
    | ((with_reducible (refine OnlyChanges.upd ?_ (fun p hp => ?_))); on_goal 2 => (cases p <;> first | exact rfl | exact absurd (hP _ (by decide)) hp)))

theorem unaskedMissing_only {P : List Part} {s₀ : State}  {t : State} (hP : Within [.sys, .hif, .dpx, .dpx2, .tly] P)  (h : OnlyChanges P s₀ t) :
    OnlyChanges P s₀ (State.unaskedMissing t) := by
  unfold State.unaskedMissing
  repeat' (first
    | with_reducible assumption
    | with_reducible (refine endInsync_only (hP.step (by decide)) ?_)
    | with_reducible (refine OnlyChanges.foldl ?_ (fun u a h => ?_))
    | (extract_lets +onlyGivenNames x; first | (refine OnlyChanges.cut x ?_ (fun h => ?_); (on_goal 2 => clear_value x); (on_goal 1 => subst x)) | clear_value x)
    | split
    | with_reducible (refine OnlyChanges.snd ?_)
    | with_reducible (refine OnlyChanges.fst ?_)
    | with_reducible (refine OnlyChanges.hres ?_)
    | ((with_reducible (refine OnlyChanges.upd ?_ (fun p hp => ?_))); on_goal 2 => (cases p <;> first | exact rfl | exact absurd (hP _ (by decide)) hp)))

theorem runEntry_only {P : List Part} {s₀ : State} {x0 : Hcmd} {t : State} (hP : Within [.sys, .hif, .cyc, .lsp, .cle, .chg, .dpx, .dpx2, .mir, .net, .tim, .can, .canq, .fio, .saf, .tly, .mm, .boot, .pwr, .ret, .cfg, .prog, .regs, .live, .votes, .press, .posted, .outbox, .freeN] P)  (h : OnlyChanges P s₀ t) :
    OnlyChanges P s₀ (State.runEntry x0 t) := by
  unfold State.runEntry
  repeat' (first
    | with_reducible assumption
    | with_reducible (refine drawObs_only (hP.step (by decide)) ?_)
    | with_reducible (refine runRestart_only (hP.step (by decide)) ?_)
    | with_reducible (refine runAct_only (hP.step (by decide)) ?_ ?_)
    | with_reducible exact activateOp_op (hP.step (by decide)) 
    | with_reducible exact opCfgReturn_op (hP.step (by decide)) 
    | with_reducible (refine runClear_only (hP.step (by decide)) ?_)
    | with_reducible (refine runCmd_only (hP.step (by decide)) ?_ ?_)
    | with_reducible exact varWriteOp_op (hP.step (by decide)) 
    | with_reducible exact opLoopWrite_op (hP.step (by decide)) 
    | with_reducible exact hostOp_op (hP.step (by decide)) (by assumption)
    | with_reducible (refine runUnknown_only (hP.step (by decide)) ?_)
    | with_reducible (refine OnlyChanges.foldl ?_ (fun u a h => ?_))
    | intro _
    | (extract_lets +onlyGivenNames x; first | (refine OnlyChanges.cut x ?_ (fun h => ?_); (on_goal 2 => clear_value x); (on_goal 1 => subst x)) | (refine OnlyChanges.cut x.2 ?_ (fun h => ?_); (on_goal 2 => clear_value x); (on_goal 1 => subst x)) | clear_value x)
    | (generalize he : State.drawObs _ = e; have k : OnlyChanges P s₀ e.2 := (by rw [← he]; refine drawObs_only (hP.step (by decide)) ?_ <;> with_reducible assumption); clear he; obtain ⟨a, u⟩ := e; dsimp -zeta only at k ⊢)
    | split
    | intro _
    | with_reducible (refine OnlyChanges.snd ?_)
    | with_reducible (refine OnlyChanges.fst ?_)
    | with_reducible (refine OnlyChanges.hres ?_)
    | ((with_reducible (refine OnlyChanges.upd ?_ (fun p hp => ?_))); on_goal 2 => (cases p <;> first | exact rfl | exact absurd (hP _ (by decide)) hp)))

theorem entryFails_only {P : List Part} {s₀ : State} {x0 : Nat} {t : State} (hP : Within [.hif, .tly, .outbox] P)  (h : OnlyChanges P s₀ t) :
    OnlyChanges P s₀ (State.entryFails x0 t) := by
  unfold State.entryFails
  repeat' (first
    | with_reducible assumption
    | with_reducible (refine dmaErr_only (hP.step (by decide)) ?_)
    | with_reducible (refine haltRing_only (hP.step (by decide)) ?_)
    | with_reducible (refine OnlyChanges.foldl ?_ (fun u a h => ?_))
    | (extract_lets +onlyGivenNames x; first | (refine OnlyChanges.cut x ?_ (fun h => ?_); (on_goal 2 => clear_value x); (on_goal 1 => subst x)) | clear_value x)
    | split
    | with_reducible (refine OnlyChanges.snd ?_)
    | with_reducible (refine OnlyChanges.fst ?_)
    | with_reducible (refine OnlyChanges.hres ?_)
    | ((with_reducible (refine OnlyChanges.upd ?_ (fun p hp => ?_))); on_goal 2 => (cases p <;> first | exact rfl | exact absurd (hP _ (by decide)) hp)))

theorem eventFails_only {P : List Part} {s₀ : State}  {t : State} (hP : Within [.hif] P)  (h : OnlyChanges P s₀ t) :
    OnlyChanges P s₀ (State.eventFails t) := by
  unfold State.eventFails
  repeat' (first
    | with_reducible assumption
    | with_reducible (refine dmaErr_only (hP.step (by decide)) ?_)
    | with_reducible (refine OnlyChanges.foldl ?_ (fun u a h => ?_))
    | (extract_lets +onlyGivenNames x; first | (refine OnlyChanges.cut x ?_ (fun h => ?_); (on_goal 2 => clear_value x); (on_goal 1 => subst x)) | clear_value x)
    | split
    | with_reducible (refine OnlyChanges.snd ?_)
    | with_reducible (refine OnlyChanges.fst ?_)
    | with_reducible (refine OnlyChanges.hres ?_)
    | ((with_reducible (refine OnlyChanges.upd ?_ (fun p hp => ?_))); on_goal 2 => (cases p <;> first | exact rfl | exact absurd (hP _ (by decide)) hp)))

theorem hostError_only {P : List Part} {s₀ : State} {x0 : HostErr} {t : State} (hP : Within [.sys, .hif, .cyc, .lsp, .cle, .chg, .dpx, .dpx2, .mir, .net, .tim, .can, .canq, .fio, .saf, .tly, .mm, .boot, .pwr, .ret, .cfg, .prog, .regs, .live, .votes, .press, .posted, .outbox, .freeN] P)  (h : OnlyChanges P s₀ t) :
    OnlyChanges P s₀ (State.hostError x0 t) := by
  unfold State.hostError
  repeat' (first
    | with_reducible assumption
    | with_reducible (refine entryFails_only (hP.step (by decide)) ?_)
    | with_reducible (refine runEntry_only (hP.step (by decide)) ?_)
    | with_reducible (refine event_only (hP.step (by decide)) ?_)
    | with_reducible (refine eventFails_only (hP.step (by decide)) ?_)
    | with_reducible (refine OnlyChanges.foldl ?_ (fun u a h => ?_))
    | (extract_lets +onlyGivenNames x; first | (refine OnlyChanges.cut x ?_ (fun h => ?_); (on_goal 2 => clear_value x); (on_goal 1 => subst x)) | clear_value x)
    | split
    | with_reducible (refine OnlyChanges.snd ?_)
    | with_reducible (refine OnlyChanges.fst ?_)
    | with_reducible (refine OnlyChanges.hres ?_)
    | ((with_reducible (refine OnlyChanges.upd ?_ (fun p hp => ?_))); on_goal 2 => (cases p <;> first | exact rfl | exact absurd (hP _ (by decide)) hp)))

theorem p6Answer_only {P : List Part} {s₀ : State} {x0 : BitVec 18} {x1 : Hcmd} {x2 : BitVec 16} {x3 : List Byte} {t : State} (hP : Within [.outbox, .freeN] P)  (h : OnlyChanges P s₀ t) :
    OnlyChanges P s₀ (State.p6Answer x0 x1 x2 x3 t) := by
  unfold State.p6Answer
  repeat' (first
    | with_reducible assumption
    | with_reducible (refine draw_only (hP.step (by decide)) ?_)
    | with_reducible (refine put_only (hP.step (by decide)) ?_)
    | with_reducible (refine OnlyChanges.foldl ?_ (fun u a h => ?_))
    | (extract_lets +onlyGivenNames x; first | (refine OnlyChanges.cut x ?_ (fun h => ?_); (on_goal 2 => clear_value x); (on_goal 1 => subst x)) | (refine OnlyChanges.cut x.2 ?_ (fun h => ?_); (on_goal 2 => clear_value x); (on_goal 1 => subst x)) | clear_value x)
    | split
    | with_reducible (refine OnlyChanges.snd ?_)
    | with_reducible (refine OnlyChanges.fst ?_)
    | with_reducible (refine OnlyChanges.hres ?_)
    | ((with_reducible (refine OnlyChanges.upd ?_ (fun p hp => ?_))); on_goal 2 => (cases p <;> first | exact rfl | exact absurd (hP _ (by decide)) hp)))

theorem p6Mode_only {P : List Part} {s₀ : State} {x0 : Option BootObs} {x1 : Hcmd} {t : State} (hP : Within [.sys, .hif, .cyc, .lsp, .cle, .dpx, .net, .tim, .fio, .saf, .tly, .mm, .boot, .regs, .live, .votes, .outbox, .freeN] P)  (h : OnlyChanges P s₀ t) :
    OnlyChanges P s₀ ((State.p6Mode x0 x1 t).2) := by
  unfold State.p6Mode
  repeat' (first
    | with_reducible assumption
    | with_reducible (refine newNonce_only (hP.step (by decide)) ?_)
    | with_reducible (refine leaveIdle_only (hP.step (by decide)) ?_)
    | with_reducible (refine OnlyChanges.foldl ?_ (fun u a h => ?_))
    | (extract_lets +onlyGivenNames x; first | (refine OnlyChanges.cut x ?_ (fun h => ?_); (on_goal 2 => clear_value x); (on_goal 1 => subst x)) | clear_value x)
    | split
    | with_reducible (refine OnlyChanges.snd ?_)
    | with_reducible (refine OnlyChanges.fst ?_)
    | with_reducible (refine OnlyChanges.hres ?_)
    | ((with_reducible (refine OnlyChanges.upd ?_ (fun p hp => ?_))); on_goal 2 => (cases p <;> first | exact rfl | exact absurd (hP _ (by decide)) hp)))

theorem p6Run_only {P : List Part} {s₀ : State} {x0 : Option BootObs} {x1 : BitVec 18} {x2 : Hcmd} {t : State} (hP : Within [.sys, .hif, .cyc, .lsp, .cle, .dpx, .net, .tim, .fio, .saf, .tly, .mm, .boot, .regs, .live, .votes, .outbox, .freeN] P)  (h : OnlyChanges P s₀ t) :
    OnlyChanges P s₀ (State.p6Run x0 x1 x2 t) := by
  unfold State.p6Run
  repeat' (first
    | with_reducible assumption
    | with_reducible exact opIdentify_op (hP.step (by decide)) 
    | with_reducible (refine p6Answer_only (hP.step (by decide)) ?_)
    | with_reducible exact opQuote_op (hP.step (by decide)) 
    | with_reducible (refine p6Mode_only (hP.step (by decide)) ?_)
    | with_reducible (refine OnlyChanges.foldl ?_ (fun u a h => ?_))
    | (extract_lets +onlyGivenNames x; first | (refine OnlyChanges.cut x ?_ (fun h => ?_); (on_goal 2 => clear_value x); (on_goal 1 => subst x)) | (refine OnlyChanges.cut x.2 ?_ (fun h => ?_); (on_goal 2 => clear_value x); (on_goal 1 => subst x)) | clear_value x)
    | (generalize he : State.p6Mode _ _ _ = e; have k : OnlyChanges P s₀ e.2 := (by rw [← he]; refine p6Mode_only (hP.step (by decide)) ?_ <;> with_reducible assumption); clear he; obtain ⟨a, u⟩ := e; dsimp -zeta only at k ⊢)
    | split
    | with_reducible (refine OnlyChanges.snd ?_)
    | with_reducible (refine OnlyChanges.fst ?_)
    | with_reducible (refine OnlyChanges.hres ?_)
    | ((with_reducible (refine OnlyChanges.upd ?_ (fun p hp => ?_))); on_goal 2 => (cases p <;> first | exact rfl | exact absurd (hP _ (by decide)) hp)))

end Sys2Proof.Laws
end

