-- ==== Sys2Proof/Laws/OnlyRecords.lean ====
section
/-! SUPPORT. What each operation of Records.lean may change: one frame per operation. -/

set_option linter.unusedTactic false
set_option linter.unreachableTactic false
set_option linter.unusedVariables false
set_option linter.tactic.unusedName false

namespace Sys2Proof.Laws

open Sys2Proof.Machine Sys2Proof.Safety

theorem ackRec_only {P : List Part} {s₀ : State} {x0 : BRec} {x1 : Nat} {t : State} (hP : Within [.dpx2, .outbox] P)  (h : OnlyChanges P s₀ t) :
    OnlyChanges P s₀ (State.ackRec x0 x1 t) := by
  unfold State.ackRec
  repeat' (first
    | with_reducible assumption
    | with_reducible (refine sendRec_only (hP.step (by decide)) ?_)
    | with_reducible (refine OnlyChanges.foldl ?_ (fun u a h => ?_))
    | (extract_lets +onlyGivenNames x; first | (refine OnlyChanges.cut x ?_ (fun h => ?_); (on_goal 2 => clear_value x); (on_goal 1 => subst x)) | clear_value x)
    | split
    | with_reducible (refine OnlyChanges.snd ?_)
    | with_reducible (refine OnlyChanges.fst ?_)
    | with_reducible (refine OnlyChanges.hres ?_)
    | ((with_reducible (refine OnlyChanges.upd ?_ (fun p hp => ?_))); on_goal 2 => (cases p <;> first | exact rfl | exact absurd (hP _ (by decide)) hp)))

theorem updMir_only {P : List Part} {s₀ : State} {x0 : Nat} {x1 : MirCls → MirCls} {t : State} (hP : Within [.mir] P)  (h : OnlyChanges P s₀ t) :
    OnlyChanges P s₀ (State.updMir x0 x1 t) := by
  unfold State.updMir
  repeat' (first
    | with_reducible assumption
    | with_reducible (refine OnlyChanges.foldl ?_ (fun u a h => ?_))
    | (extract_lets +onlyGivenNames x; first | (refine OnlyChanges.cut x ?_ (fun h => ?_); (on_goal 2 => clear_value x); (on_goal 1 => subst x)) | clear_value x)
    | split
    | with_reducible (refine OnlyChanges.snd ?_)
    | with_reducible (refine OnlyChanges.fst ?_)
    | with_reducible (refine OnlyChanges.hres ?_)
    | ((with_reducible (refine OnlyChanges.upd ?_ (fun p hp => ?_))); on_goal 2 => (cases p <;> first | exact rfl | exact absurd (hP _ (by decide)) hp)))

theorem tryHandover_only {P : List Part} {s₀ : State}  {t : State} (hP : Within [.hif, .dpx, .dpx2, .outbox] P)  (h : OnlyChanges P s₀ t) :
    OnlyChanges P s₀ (State.tryHandover t) := by
  unfold State.tryHandover
  repeat' (first
    | with_reducible assumption
    | with_reducible (refine notice_only (hP.step (by decide)) ?_)
    | with_reducible (refine OnlyChanges.foldl ?_ (fun u a h => ?_))
    | (extract_lets +onlyGivenNames x; first | (refine OnlyChanges.cut x ?_ (fun h => ?_); (on_goal 2 => clear_value x); (on_goal 1 => subst x)) | clear_value x)
    | split
    | with_reducible (refine OnlyChanges.snd ?_)
    | with_reducible (refine OnlyChanges.fst ?_)
    | with_reducible (refine OnlyChanges.hres ?_)
    | ((with_reducible (refine OnlyChanges.upd ?_ (fun p hp => ?_))); on_goal 2 => (cases p <;> first | exact rfl | exact absurd (hP _ (by decide)) hp)))

theorem tryAbsent_only {P : List Part} {s₀ : State}  {t : State} (hP : Within [.hif, .dpx, .dpx2, .outbox] P)  (h : OnlyChanges P s₀ t) :
    OnlyChanges P s₀ (State.tryAbsent t) := by
  unfold State.tryAbsent
  repeat' (first
    | with_reducible assumption
    | with_reducible (refine askExchange_only (hP.step (by decide)) ?_)
    | with_reducible (refine tryHandover_only (hP.step (by decide)) ?_)
    | with_reducible (refine OnlyChanges.foldl ?_ (fun u a h => ?_))
    | (extract_lets +onlyGivenNames x; first | (refine OnlyChanges.cut x ?_ (fun h => ?_); (on_goal 2 => clear_value x); (on_goal 1 => subst x)) | clear_value x)
    | split
    | with_reducible (refine OnlyChanges.snd ?_)
    | with_reducible (refine OnlyChanges.fst ?_)
    | with_reducible (refine OnlyChanges.hres ?_)
    | ((with_reducible (refine OnlyChanges.upd ?_ (fun p hp => ?_))); on_goal 2 => (cases p <;> first | exact rfl | exact absurd (hP _ (by decide)) hp)))

theorem mirrorAct_only {P : List Part} {s₀ : State} {x0 : Act} {t : State} (hP : Within [.tly, .boot] P)  (h : OnlyChanges P s₀ t) :
    OnlyChanges P s₀ (State.mirrorAct x0 t) := by
  unfold State.mirrorAct
  repeat' (first
    | with_reducible assumption
    | with_reducible (refine updAct_only (hP.step (by decide)) ?_)
    | with_reducible (refine actRec_only (hP.step (by decide)) ?_)
    | with_reducible (refine OnlyChanges.foldl ?_ (fun u a h => ?_))
    | (extract_lets +onlyGivenNames x; first | (refine OnlyChanges.cut x ?_ (fun h => ?_); (on_goal 2 => clear_value x); (on_goal 1 => subst x)) | clear_value x)
    | split
    | with_reducible (refine OnlyChanges.snd ?_)
    | with_reducible (refine OnlyChanges.fst ?_)
    | with_reducible (refine OnlyChanges.hres ?_)
    | ((with_reducible (refine OnlyChanges.upd ?_ (fun p hp => ?_))); on_goal 2 => (cases p <;> first | exact rfl | exact absurd (hP _ (by decide)) hp)))

theorem mirrorReturn_only {P : List Part} {s₀ : State}  {t : State} (hP : Within [.chg] P)  (h : OnlyChanges P s₀ t) :
    OnlyChanges P s₀ (State.mirrorReturn t) := by
  unfold State.mirrorReturn
  repeat' (first
    | with_reducible assumption
    | with_reducible (refine updChg_only (hP.step (by decide)) ?_)
    | with_reducible (refine OnlyChanges.foldl ?_ (fun u a h => ?_))
    | (extract_lets +onlyGivenNames x; first | (refine OnlyChanges.cut x ?_ (fun h => ?_); (on_goal 2 => clear_value x); (on_goal 1 => subst x)) | clear_value x)
    | split
    | with_reducible (refine OnlyChanges.snd ?_)
    | with_reducible (refine OnlyChanges.fst ?_)
    | with_reducible (refine OnlyChanges.hres ?_)
    | ((with_reducible (refine OnlyChanges.upd ?_ (fun p hp => ?_))); on_goal 2 => (cases p <;> first | exact rfl | exact absurd (hP _ (by decide)) hp)))

theorem mirrorChange_only {P : List Part} {s₀ : State} {x0 : DWord} {t : State} (hP : Within [.chg] P)  (h : OnlyChanges P s₀ t) :
    OnlyChanges P s₀ (State.mirrorChange x0 t) := by
  unfold State.mirrorChange
  repeat' (first
    | with_reducible assumption
    | with_reducible (refine scheduleAt_only (hP.step (by decide)) ?_)
    | with_reducible (refine OnlyChanges.foldl ?_ (fun u a h => ?_))
    | (extract_lets +onlyGivenNames x; first | (refine OnlyChanges.cut x ?_ (fun h => ?_); (on_goal 2 => clear_value x); (on_goal 1 => subst x)) | clear_value x)
    | split
    | with_reducible (refine OnlyChanges.snd ?_)
    | with_reducible (refine OnlyChanges.fst ?_)
    | with_reducible (refine OnlyChanges.hres ?_)
    | ((with_reducible (refine OnlyChanges.upd ?_ (fun p hp => ?_))); on_goal 2 => (cases p <;> first | exact rfl | exact absurd (hP _ (by decide)) hp)))

theorem mirrorWrites_only {P : List Part} {s₀ : State} {x0 : Hcmd} {x1 : DWord} {t : State} (hP : Within [.cyc, .mir] P)  (h : OnlyChanges P s₀ t) :
    OnlyChanges P s₀ (State.mirrorWrites x0 x1 t) := by
  unfold State.mirrorWrites
  repeat' (first
    | with_reducible assumption
    | with_reducible (refine pokeNow_only (hP.step (by decide)) ?_)
    | with_reducible (refine updMir_only (hP.step (by decide)) ?_)
    | with_reducible (refine OnlyChanges.foldl ?_ (fun u a h => ?_))
    | (extract_lets +onlyGivenNames x; first | (refine OnlyChanges.cut x ?_ (fun h => ?_); (on_goal 2 => clear_value x); (on_goal 1 => subst x)) | clear_value x)
    | split
    | with_reducible (refine OnlyChanges.snd ?_)
    | with_reducible (refine OnlyChanges.fst ?_)
    | with_reducible (refine OnlyChanges.hres ?_)
    | ((with_reducible (refine OnlyChanges.upd ?_ (fun p hp => ?_))); on_goal 2 => (cases p <;> first | exact rfl | exact absurd (hP _ (by decide)) hp)))

theorem mirrorMode_only {P : List Part} {s₀ : State} {x0 : Mode} {x1 : DWord} {t : State} (hP : Within [.sys, .hif, .cyc, .dpx, .dpx2, .saf, .tly, .mm, .outbox] P)  (h : OnlyChanges P s₀ t) :
    OnlyChanges P s₀ (State.mirrorMode x0 x1 t) := by
  unfold State.mirrorMode
  repeat' (first
    | with_reducible assumption
    | with_reducible (refine followMode_only (hP.step (by decide)) ?_)
    | with_reducible (refine OnlyChanges.foldl ?_ (fun u a h => ?_))
    | (extract_lets +onlyGivenNames x; first | (refine OnlyChanges.cut x ?_ (fun h => ?_); (on_goal 2 => clear_value x); (on_goal 1 => subst x)) | clear_value x)
    | split
    | with_reducible (refine OnlyChanges.snd ?_)
    | with_reducible (refine OnlyChanges.fst ?_)
    | with_reducible (refine OnlyChanges.hres ?_)
    | ((with_reducible (refine OnlyChanges.upd ?_ (fun p hp => ?_))); on_goal 2 => (cases p <;> first | exact rfl | exact absurd (hP _ (by decide)) hp)))

theorem mirrorEffect_only {P : List Part} {s₀ : State} {x0 : Hcmd} {x1 : DWord} {t : State} (hP : Within [.sys, .hif, .cyc, .cle, .chg, .dpx, .dpx2, .mir, .saf, .tly, .mm, .boot, .outbox] P)  (h : OnlyChanges P s₀ t) :
    OnlyChanges P s₀ (State.mirrorEffect x0 x1 t) := by
  unfold State.mirrorEffect
  split
  · exact mirrorMode_only (hP.step (by decide)) h
  · exact OnlyChanges.upd h (fun p hp => by cases p <;> first | exact rfl | exact absurd (hP _ (by decide)) hp)
  · split
    · exact mirrorAct_only (hP.step (by decide)) h
    · split
      · exact confirm_only (hP.step (by decide)) h
      · exact h
    · exact cancelAct_only (hP.step (by decide)) h
  · exact mirrorAct_only (hP.step (by decide)) h
  · exact mirrorWrites_only (hP.step (by decide)) h
  · exact (opForceSet_op (hP.step (by decide))).effect h
  · exact (opForceClear_op (hP.step (by decide))).effect h
  · exact loopWrite_only (hP.step (by decide)) h
  · refine updChg_only (hP.step (by decide)) (mirrorChange_only (hP.step (by decide)) ?_)
    split
    · exact mirrorReturn_only (hP.step (by decide)) h
    · exact h
  · exact h

theorem mirrorWin_only {P : List Part} {s₀ : State} {x0 : Nat} {x1 : DWord} {x2 : DWord} {x3 : Bool} {t : State} (hP : Within [.hif, .dpx2] P)  (h : OnlyChanges P s₀ t) :
    OnlyChanges P s₀ (State.mirrorWin x0 x1 x2 x3 t) := by
  unfold State.mirrorWin
  repeat' (first
    | with_reducible assumption
    | with_reducible (refine OnlyChanges.foldl ?_ (fun u a h => ?_))
    | (extract_lets +onlyGivenNames x; first | (refine OnlyChanges.cut x ?_ (fun h => ?_); (on_goal 2 => clear_value x); (on_goal 1 => subst x)) | clear_value x)
    | split
    | with_reducible (refine OnlyChanges.snd ?_)
    | with_reducible (refine OnlyChanges.fst ?_)
    | with_reducible (refine OnlyChanges.hres ?_)
    | ((with_reducible (refine OnlyChanges.upd ?_ (fun p hp => ?_))); on_goal 2 => (cases p <;> first | exact rfl | exact absurd (hP _ (by decide)) hp)))

theorem joinHost_only {P : List Part} {s₀ : State} {x0 : BRec} {t : State} (hP : Within [.dpx2] P)  (h : OnlyChanges P s₀ t) :
    OnlyChanges P s₀ ((State.joinHost x0 t).2) := by
  unfold State.joinHost
  repeat' (first
    | with_reducible assumption
    | with_reducible (refine OnlyChanges.foldl ?_ (fun u a h => ?_))
    | (extract_lets +onlyGivenNames x; first | (refine OnlyChanges.cut x ?_ (fun h => ?_); (on_goal 2 => clear_value x); (on_goal 1 => subst x)) | clear_value x)
    | split
    | with_reducible (refine OnlyChanges.snd ?_)
    | with_reducible (refine OnlyChanges.fst ?_)
    | with_reducible (refine OnlyChanges.hres ?_)
    | ((with_reducible (refine OnlyChanges.upd ?_ (fun p hp => ?_))); on_goal 2 => (cases p <;> first | exact rfl | exact absurd (hP _ (by decide)) hp)))

theorem takeHostwork_only {P : List Part} {s₀ : State} {x0 : BRec} {t : State} (hP : Within [.sys, .hif, .cyc, .cle, .chg, .dpx, .dpx2, .mir, .saf, .tly, .mm, .boot, .outbox] P)  (h : OnlyChanges P s₀ t) :
    OnlyChanges P s₀ (State.takeHostwork x0 t) := by
  unfold State.takeHostwork
  repeat' (first
    | with_reducible assumption
    | with_reducible (refine joinHost_only (hP.step (by decide)) ?_)
    | with_reducible (refine ackRec_only (hP.step (by decide)) ?_)
    | with_reducible (refine mirrorWin_only (hP.step (by decide)) ?_)
    | with_reducible (refine mirrorEffect_only (hP.step (by decide)) ?_)
    | with_reducible (refine OnlyChanges.foldl ?_ (fun u a h => ?_))
    | (extract_lets +onlyGivenNames x; first | (refine OnlyChanges.cut x ?_ (fun h => ?_); (on_goal 2 => clear_value x); (on_goal 1 => subst x)) | (refine OnlyChanges.cut x.2 ?_ (fun h => ?_); (on_goal 2 => clear_value x); (on_goal 1 => subst x)) | clear_value x)
    | (generalize he : State.joinHost _ _ = e; have k : OnlyChanges P s₀ e.2 := (by rw [← he]; refine joinHost_only (hP.step (by decide)) ?_ <;> with_reducible assumption); clear he; obtain ⟨a, u⟩ := e; dsimp -zeta only at k ⊢)
    | split
    | with_reducible (refine OnlyChanges.snd ?_)
    | with_reducible (refine OnlyChanges.fst ?_)
    | with_reducible (refine OnlyChanges.hres ?_)
    | ((with_reducible (refine OnlyChanges.upd ?_ (fun p hp => ?_))); on_goal 2 => (cases p <;> first | exact rfl | exact absurd (hP _ (by decide)) hp)))

theorem versionUnknown_only {P : List Part} {s₀ : State}  {t : State} (hP : Within [.sys, .hif, .dpx, .dpx2, .tly] P)  (h : OnlyChanges P s₀ t) :
    OnlyChanges P s₀ (State.versionUnknown t) := by
  unfold State.versionUnknown
  repeat' (first
    | with_reducible assumption
    | with_reducible (refine endInsync_only (hP.step (by decide)) ?_)
    | with_reducible (refine OnlyChanges.foldl ?_ (fun u a h => ?_))
    | (extract_lets +onlyGivenNames x; first | (refine OnlyChanges.cut x ?_ (fun h => ?_); (on_goal 2 => clear_value x); (on_goal 1 => subst x)) | clear_value x)
    | split
    | with_reducible (refine OnlyChanges.snd ?_)
    | with_reducible (refine OnlyChanges.fst ?_)
    | with_reducible (refine OnlyChanges.hres ?_)
    | ((with_reducible (refine OnlyChanges.upd ?_ (fun p hp => ?_))); on_goal 2 => (cases p <;> first | exact rfl | exact absurd (hP _ (by decide)) hp)))

theorem takeLines_only {P : List Part} {s₀ : State} {x0 : BRec} {t : State} (hP : Within [.sys, .hif, .dpx, .dpx2, .mir, .tly] P)  (h : OnlyChanges P s₀ t) :
    OnlyChanges P s₀ (State.takeLines x0 t) := by
  unfold State.takeLines
  repeat' (first
    | with_reducible assumption
    | with_reducible (refine versionUnknown_only (hP.step (by decide)) ?_)
    | with_reducible (refine updMir_only (hP.step (by decide)) ?_)
    | with_reducible (refine OnlyChanges.foldl ?_ (fun u a h => ?_))
    | (extract_lets +onlyGivenNames x; first | (refine OnlyChanges.cut x ?_ (fun h => ?_); (on_goal 2 => clear_value x); (on_goal 1 => subst x)) | clear_value x)
    | split
    | with_reducible (refine OnlyChanges.snd ?_)
    | with_reducible (refine OnlyChanges.fst ?_)
    | with_reducible (refine OnlyChanges.hres ?_)
    | ((with_reducible (refine OnlyChanges.upd ?_ (fun p hp => ?_))); on_goal 2 => (cases p <;> first | exact rfl | exact absurd (hP _ (by decide)) hp)))

theorem takeCommit_only {P : List Part} {s₀ : State} {x0 : Nat} {x1 : BRec} {t : State} (hP : Within [.cyc, .dpx2, .mir] P)  (h : OnlyChanges P s₀ t) :
    OnlyChanges P s₀ (State.takeCommit x0 x1 t) := by
  unfold State.takeCommit
  repeat' (first
    | with_reducible assumption
    | with_reducible (refine updMir_only (hP.step (by decide)) ?_)
    | with_reducible (refine updMem_only (hP.step (by decide)) ?_)
    | with_reducible (refine pokeElem_only (hP.step (by decide)) ?_)
    | with_reducible (refine OnlyChanges.foldl ?_ (fun u a h => ?_))
    | (extract_lets +onlyGivenNames x; first | (refine OnlyChanges.cut x ?_ (fun h => ?_); (on_goal 2 => clear_value x); (on_goal 1 => subst x)) | clear_value x)
    | split
    | with_reducible (refine OnlyChanges.snd ?_)
    | with_reducible (refine OnlyChanges.fst ?_)
    | with_reducible (refine OnlyChanges.hres ?_)
    | ((with_reducible (refine OnlyChanges.upd ?_ (fun p hp => ?_))); on_goal 2 => (cases p <;> first | exact rfl | exact absurd (hP _ (by decide)) hp)))

theorem freshStart_only {P : List Part} {s₀ : State} {x0 : State → State} {t : State} (hP : Within [.sys, .hif, .cyc, .lsp, .cle, .chg, .dpx, .dpx2, .mir, .net, .tim, .can, .canq, .fio, .saf, .tly, .mm, .boot, .pwr, .ret, .cfg, .prog, .regs, .live, .votes, .press, .posted, .outbox, .freeN] P) (hf0 : ∀ u, OnlyChanges P s₀ u → OnlyChanges P s₀ (x0 u)) (h : OnlyChanges P s₀ t) :
    OnlyChanges P s₀ (State.freshStart x0 t) := by
  unfold State.freshStart
  repeat' (first
    | with_reducible assumption
    | with_reducible (refine drawObs_only (hP.step (by decide)) ?_)
    | with_reducible (refine bootFrom2_only (hP.step (by decide)) ?_ ?_)
    | with_reducible (refine replay_only (hP.step (by decide)) ?_)
    | with_reducible (refine OnlyChanges.foldl ?_ (fun u a h => ?_))
    | with_reducible (apply hf0)
    | intro _
    | (extract_lets +onlyGivenNames x; first | (refine OnlyChanges.cut x ?_ (fun h => ?_); (on_goal 2 => clear_value x); (on_goal 1 => subst x)) | (refine OnlyChanges.cut x.2 ?_ (fun h => ?_); (on_goal 2 => clear_value x); (on_goal 1 => subst x)) | clear_value x)
    | (generalize he : State.drawObs _ = e; have k : OnlyChanges P s₀ e.2 := (by rw [← he]; refine drawObs_only (hP.step (by decide)) ?_ <;> with_reducible assumption); clear he; obtain ⟨a, u⟩ := e; dsimp -zeta only at k ⊢)
    | split
    | intro _
    | with_reducible (refine OnlyChanges.snd ?_)
    | with_reducible (refine OnlyChanges.fst ?_)
    | with_reducible (refine OnlyChanges.hres ?_)
    | ((with_reducible (refine OnlyChanges.upd ?_ (fun p hp => ?_))); on_goal 2 => (cases p <;> first | exact rfl | exact absurd (hP _ (by decide)) hp)))

theorem restartPrevious_only {P : List Part} {s₀ : State}  {t : State} (hP : Within [.sys, .hif, .cyc, .lsp, .cle, .chg, .dpx, .dpx2, .mir, .net, .tim, .can, .canq, .fio, .saf, .tly, .mm, .boot, .pwr, .ret, .cfg, .prog, .regs, .live, .votes, .press, .posted, .outbox, .freeN] P)  (h : OnlyChanges P s₀ t) :
    OnlyChanges P s₀ (State.restartPrevious t) := by
  unfold State.restartPrevious
  repeat' (first
    | with_reducible assumption
    | with_reducible (refine freshStart_only (hP.step (by decide)) ?_ ?_)
    | with_reducible (refine OnlyChanges.foldl ?_ (fun u a h => ?_))
    | intro _
    | (extract_lets +onlyGivenNames x; first | (refine OnlyChanges.cut x ?_ (fun h => ?_); (on_goal 2 => clear_value x); (on_goal 1 => subst x)) | clear_value x)
    | split
    | intro _
    | with_reducible (refine OnlyChanges.snd ?_)
    | with_reducible (refine OnlyChanges.fst ?_)
    | with_reducible (refine OnlyChanges.hres ?_)
    | ((with_reducible (refine OnlyChanges.upd ?_ (fun p hp => ?_))); on_goal 2 => (cases p <;> first | exact rfl | exact absurd (hP _ (by decide)) hp)))

theorem psCount_only {P : List Part} {s₀ : State}  {t : State} (hP : Within [.dpx2] P)  (h : OnlyChanges P s₀ t) :
    OnlyChanges P s₀ (State.psCount t) := by
  unfold State.psCount
  repeat' (first
    | with_reducible assumption
    | with_reducible (refine OnlyChanges.foldl ?_ (fun u a h => ?_))
    | (extract_lets +onlyGivenNames x; first | (refine OnlyChanges.cut x ?_ (fun h => ?_); (on_goal 2 => clear_value x); (on_goal 1 => subst x)) | clear_value x)
    | split
    | with_reducible (refine OnlyChanges.snd ?_)
    | with_reducible (refine OnlyChanges.fst ?_)
    | with_reducible (refine OnlyChanges.hres ?_)
    | ((with_reducible (refine OnlyChanges.upd ?_ (fun p hp => ?_))); on_goal 2 => (cases p <;> first | exact rfl | exact absurd (hP _ (by decide)) hp)))

theorem psRestart_only {P : List Part} {s₀ : State} {x0 : Nat} {t : State} (hP : Within [.dpx2] P)  (h : OnlyChanges P s₀ t) :
    OnlyChanges P s₀ (State.psRestart x0 t) := by
  unfold State.psRestart
  repeat' (first
    | with_reducible assumption
    | with_reducible (refine psCount_only (hP.step (by decide)) ?_)
    | with_reducible (refine OnlyChanges.foldl ?_ (fun u a h => ?_))
    | (extract_lets +onlyGivenNames x; first | (refine OnlyChanges.cut x ?_ (fun h => ?_); (on_goal 2 => clear_value x); (on_goal 1 => subst x)) | clear_value x)
    | split
    | with_reducible (refine OnlyChanges.snd ?_)
    | with_reducible (refine OnlyChanges.fst ?_)
    | with_reducible (refine OnlyChanges.hres ?_)
    | ((with_reducible (refine OnlyChanges.upd ?_ (fun p hp => ?_))); on_goal 2 => (cases p <;> first | exact rfl | exact absurd (hP _ (by decide)) hp)))

theorem proofOpen_only {P : List Part} {s₀ : State}  {t : State} (hP : Within [.dpx2] P)  (h : OnlyChanges P s₀ t) :
    OnlyChanges P s₀ (State.proofOpen t) := by
  unfold State.proofOpen
  repeat' (first
    | with_reducible assumption
    | with_reducible (refine psRestart_only (hP.step (by decide)) ?_)
    | with_reducible (refine OnlyChanges.foldl ?_ (fun u a h => ?_))
    | (extract_lets +onlyGivenNames x; first | (refine OnlyChanges.cut x ?_ (fun h => ?_); (on_goal 2 => clear_value x); (on_goal 1 => subst x)) | clear_value x)
    | split
    | with_reducible (refine OnlyChanges.snd ?_)
    | with_reducible (refine OnlyChanges.fst ?_)
    | with_reducible (refine OnlyChanges.hres ?_)
    | ((with_reducible (refine OnlyChanges.upd ?_ (fun p hp => ?_))); on_goal 2 => (cases p <;> first | exact rfl | exact absurd (hP _ (by decide)) hp)))

theorem handedOver_only {P : List Part} {s₀ : State}  {t : State} (hP : Within [.sys, .hif, .cyc, .lsp, .cle, .chg, .dpx, .dpx2, .mir, .net, .tim, .can, .canq, .fio, .saf, .tly, .mm, .boot, .pwr, .ret, .cfg, .prog, .regs, .live, .votes, .press, .posted, .outbox, .freeN] P)  (h : OnlyChanges P s₀ t) :
    OnlyChanges P s₀ (State.handedOver t) := by
  have hb : ∀ a, OnlyChanges P s₀ a → OnlyChanges P s₀
      { a with dpx := { a.dpx with handover := false }, hif := { a.hif with hold := false } } := fun a ha => by
    exact OnlyChanges.upd ha (fun p hp => by cases p <;> first | exact rfl | exact absurd (hP _ (by decide)) hp)
  have hd : ∀ a, OnlyChanges P s₀ a → OnlyChanges P s₀ { a with dpx2 := { a.dpx2 with xslot := 31 } } := fun a ha => by
    exact OnlyChanges.upd ha (fun p hp => by cases p <;> first | exact rfl | exact absurd (hP _ (by decide)) hp)
  unfold State.handedOver
  have he : ∀ (c : Prop) [Decidable c] (f : Act → Act) a, OnlyChanges P s₀ a → OnlyChanges P s₀ (if c then a.updAct f else a) := fun c _ f a ha => by
    split
    · exact updAct_only (hP.step (by decide)) ha
    · exact ha
  extract_lets a s₁ s₂ b e c s₃ d
  have k : OnlyChanges P s₀ d := hd _ (finishWaiting_only (hP.step (by decide)) (he _ _ _ (hb _ (proofOpen_only (hP.step (by decide)) (asStandby_only (hP.step (by decide)) (setMode_only (hP.step (by decide)) h))))))
  split
  · exact restartPrevious_only (hP.step (by decide)) k
  · exact k

theorem takeCommitEnd_only {P : List Part} {s₀ : State} {x0 : BRec} {t : State} (hP : Within [.sys, .hif, .cyc, .lsp, .cle, .chg, .dpx, .dpx2, .mir, .net, .tim, .can, .canq, .fio, .saf, .tly, .mm, .boot, .pwr, .ret, .cfg, .prog, .regs, .live, .votes, .press, .posted, .outbox, .freeN] P)  (h : OnlyChanges P s₀ t) :
    OnlyChanges P s₀ (State.takeCommitEnd x0 t) := by
  unfold State.takeCommitEnd
  repeat' (first
    | with_reducible assumption
    | with_reducible (refine ackRec_only (hP.step (by decide)) ?_)
    | with_reducible (refine updMir_only (hP.step (by decide)) ?_)
    | with_reducible (refine versionUnknown_only (hP.step (by decide)) ?_)
    | with_reducible (refine takeCommit_only (hP.step (by decide)) ?_)
    | with_reducible (refine changeLapsed_only (hP.step (by decide)) ?_)
    | with_reducible (refine takeover_only (hP.step (by decide)) ?_)
    | with_reducible (refine handedOver_only (hP.step (by decide)) ?_)
    | with_reducible (refine OnlyChanges.foldl ?_ (fun u a h => ?_))
    | (extract_lets +onlyGivenNames x; first | (refine OnlyChanges.cut x ?_ (fun h => ?_); (on_goal 2 => clear_value x); (on_goal 1 => subst x)) | clear_value x)
    | split
    | with_reducible (refine OnlyChanges.snd ?_)
    | with_reducible (refine OnlyChanges.fst ?_)
    | with_reducible (refine OnlyChanges.hres ?_)
    | ((with_reducible (refine OnlyChanges.upd ?_ (fun p hp => ?_))); on_goal 2 => (cases p <;> first | exact rfl | exact absurd (hP _ (by decide)) hp)))

theorem takeLoopEntries_only {P : List Part} {s₀ : State} {x0 : List Byte} {x1 : Nat} {x2 : Nat} {t : State} (hP : Within [.cle] P)  (h : OnlyChanges P s₀ t) :
    OnlyChanges P s₀ (State.takeLoopEntries x0 x1 x2 t) := by
  induction x1 generalizing x2 t with
  | zero => exact h
  | succ k ih =>
    unfold State.takeLoopEntries
    split
    · exact h
    · refine ih ?_
      split
      · exact updLoop_only (hP.step (by decide)) h
      · exact h

theorem takeLoopState_only {P : List Part} {s₀ : State} {x0 : BRec} {t : State} (hP : Within [.sys, .hif, .cle, .dpx, .dpx2, .tly] P)  (h : OnlyChanges P s₀ t) :
    OnlyChanges P s₀ (State.takeLoopState x0 t) := by
  unfold State.takeLoopState
  repeat' (first
    | with_reducible assumption
    | with_reducible (refine versionUnknown_only (hP.step (by decide)) ?_)
    | with_reducible (refine takeLoopEntries_only (hP.step (by decide)) ?_)
    | with_reducible (refine OnlyChanges.foldl ?_ (fun u a h => ?_))
    | (extract_lets +onlyGivenNames x; first | (refine OnlyChanges.cut x ?_ (fun h => ?_); (on_goal 2 => clear_value x); (on_goal 1 => subst x)) | clear_value x)
    | split
    | with_reducible (refine OnlyChanges.snd ?_)
    | with_reducible (refine OnlyChanges.fst ?_)
    | with_reducible (refine OnlyChanges.hres ?_)
    | ((with_reducible (refine OnlyChanges.upd ?_ (fun p hp => ?_))); on_goal 2 => (cases p <;> first | exact rfl | exact absurd (hP _ (by decide)) hp)))

theorem takeLoopGroup_only {P : List Part} {s₀ : State} {x0 : BRec} {t : State} (hP : Within [.sys, .hif, .cle, .dpx, .dpx2, .tly] P)  (h : OnlyChanges P s₀ t) :
    OnlyChanges P s₀ (State.takeLoopGroup x0 t) := by
  unfold State.takeLoopGroup
  repeat' (first
    | with_reducible assumption
    | with_reducible (refine versionUnknown_only (hP.step (by decide)) ?_)
    | with_reducible (refine updLoop_only (hP.step (by decide)) ?_)
    | with_reducible (refine OnlyChanges.foldl ?_ (fun u a h => ?_))
    | (extract_lets +onlyGivenNames x; first | (refine OnlyChanges.cut x ?_ (fun h => ?_); (on_goal 2 => clear_value x); (on_goal 1 => subst x)) | clear_value x)
    | split
    | with_reducible (refine OnlyChanges.snd ?_)
    | with_reducible (refine OnlyChanges.fst ?_)
    | with_reducible (refine OnlyChanges.hres ?_)
    | ((with_reducible (refine OnlyChanges.upd ?_ (fun p hp => ?_))); on_goal 2 => (cases p <;> first | exact rfl | exact absurd (hP _ (by decide)) hp)))

theorem takeHdrs_only {P : List Part} {s₀ : State} {x0 : BRec} {t : State} (hP : Within [.tly] P)  (h : OnlyChanges P s₀ t) :
    OnlyChanges P s₀ (State.takeHdrs x0 t) := by
  unfold State.takeHdrs
  repeat' (first
    | with_reducible assumption
    | with_reducible (refine OnlyChanges.foldl ?_ (fun u a h => ?_))
    | (extract_lets +onlyGivenNames x; first | (refine OnlyChanges.cut x ?_ (fun h => ?_); (on_goal 2 => clear_value x); (on_goal 1 => subst x)) | clear_value x)
    | split
    | with_reducible (refine OnlyChanges.snd ?_)
    | with_reducible (refine OnlyChanges.fst ?_)
    | with_reducible (refine OnlyChanges.hres ?_)
    | ((with_reducible (refine OnlyChanges.upd ?_ (fun p hp => ?_))); on_goal 2 => (cases p <;> first | exact rfl | exact absurd (hP _ (by decide)) hp)))

theorem sendHdrs_only {P : List Part} {s₀ : State} {x0 : Bool} {x1 : List (List Byte)} {t : State} (hP : Within [.dpx2, .outbox] P)  (h : OnlyChanges P s₀ t) :
    OnlyChanges P s₀ (State.sendHdrs x0 x1 t) := by
  unfold State.sendHdrs
  repeat' (first
    | with_reducible assumption
    | with_reducible (refine sendPart_only (hP.step (by decide)) ?_)
    | with_reducible (refine OnlyChanges.foldl ?_ (fun u a h => ?_))
    | (extract_lets +onlyGivenNames x; first | (refine OnlyChanges.cut x ?_ (fun h => ?_); (on_goal 2 => clear_value x); (on_goal 1 => subst x)) | clear_value x)
    | split
    | with_reducible (refine OnlyChanges.snd ?_)
    | with_reducible (refine OnlyChanges.fst ?_)
    | with_reducible (refine OnlyChanges.hres ?_)
    | ((with_reducible (refine OnlyChanges.upd ?_ (fun p hp => ?_))); on_goal 2 => (cases p <;> first | exact rfl | exact absurd (hP _ (by decide)) hp)))

theorem sendIf_only {P : List Part} {s₀ : State} {x0 : Nat} {x1 : List Byte} {t : State} (hP : Within [.dpx2, .outbox] P)  (h : OnlyChanges P s₀ t) :
    OnlyChanges P s₀ (State.sendIf x0 x1 t) := by
  unfold State.sendIf
  repeat' (first
    | with_reducible assumption
    | with_reducible (refine sendImage_only (hP.step (by decide)) ?_)
    | with_reducible (refine OnlyChanges.foldl ?_ (fun u a h => ?_))
    | (extract_lets +onlyGivenNames x; first | (refine OnlyChanges.cut x ?_ (fun h => ?_); (on_goal 2 => clear_value x); (on_goal 1 => subst x)) | clear_value x)
    | split
    | with_reducible (refine OnlyChanges.snd ?_)
    | with_reducible (refine OnlyChanges.fst ?_)
    | with_reducible (refine OnlyChanges.hres ?_)
    | ((with_reducible (refine OnlyChanges.upd ?_ (fun p hp => ?_))); on_goal 2 => (cases p <;> first | exact rfl | exact absurd (hP _ (by decide)) hp)))

theorem judgeVersions_only {P : List Part} {s₀ : State}  {t : State} (hP : Within [.dpx, .dpx2, .tly, .outbox] P)  (h : OnlyChanges P s₀ t) :
    OnlyChanges P s₀ (State.judgeVersions t) := by
  unfold State.judgeVersions
  repeat' (first
    | with_reducible assumption
    | with_reducible (refine sendImage_only (hP.step (by decide)) ?_)
    | with_reducible (refine sendIf_only (hP.step (by decide)) ?_)
    | with_reducible (refine setSync_only (hP.step (by decide)) ?_)
    | with_reducible (refine OnlyChanges.foldl ?_ (fun u a h => ?_))
    | (extract_lets +onlyGivenNames x; first | (refine OnlyChanges.cut x ?_ (fun h => ?_); (on_goal 2 => clear_value x); (on_goal 1 => subst x)) | clear_value x)
    | split
    | with_reducible (refine OnlyChanges.snd ?_)
    | with_reducible (refine OnlyChanges.fst ?_)
    | with_reducible (refine OnlyChanges.hres ?_)
    | ((with_reducible (refine OnlyChanges.upd ?_ (fun p hp => ?_))); on_goal 2 => (cases p <;> first | exact rfl | exact absurd (hP _ (by decide)) hp)))

theorem sendLines_only {P : List Part} {s₀ : State} {x0 : Bool} {x1 : List (List Byte)} {t : State} (hP : Within [.dpx2, .outbox] P)  (h : OnlyChanges P s₀ t) :
    OnlyChanges P s₀ (State.sendLines x0 x1 t) := by
  unfold State.sendLines
  repeat' (first
    | with_reducible assumption
    | with_reducible (refine sendPart_only (hP.step (by decide)) ?_)
    | with_reducible (refine OnlyChanges.foldl ?_ (fun u a h => ?_))
    | (extract_lets +onlyGivenNames x; first | (refine OnlyChanges.cut x ?_ (fun h => ?_); (on_goal 2 => clear_value x); (on_goal 1 => subst x)) | clear_value x)
    | split
    | with_reducible (refine OnlyChanges.snd ?_)
    | with_reducible (refine OnlyChanges.fst ?_)
    | with_reducible (refine OnlyChanges.hres ?_)
    | ((with_reducible (refine OnlyChanges.upd ?_ (fun p hp => ?_))); on_goal 2 => (cases p <;> first | exact rfl | exact absurd (hP _ (by decide)) hp)))

theorem sendCommit_only {P : List Part} {s₀ : State} {x0 : Bool} {x1 : Nat} {x2 : List Nat} {x3 : List Nat} {x4 : List Nat} {t : State} (hP : Within [.dpx2, .outbox] P)  (h : OnlyChanges P s₀ t) :
    OnlyChanges P s₀ (State.sendCommit x0 x1 x2 x3 x4 t) := by
  unfold State.sendCommit
  repeat' (first
    | with_reducible assumption
    | with_reducible (refine sendLines_only (hP.step (by decide)) ?_)
    | with_reducible (refine sendRec_only (hP.step (by decide)) ?_)
    | with_reducible (refine OnlyChanges.foldl ?_ (fun u a h => ?_))
    | (extract_lets +onlyGivenNames x; first | (refine OnlyChanges.cut x ?_ (fun h => ?_); (on_goal 2 => clear_value x); (on_goal 1 => subst x)) | clear_value x)
    | split
    | with_reducible (refine OnlyChanges.snd ?_)
    | with_reducible (refine OnlyChanges.fst ?_)
    | with_reducible (refine OnlyChanges.hres ?_)
    | ((with_reducible (refine OnlyChanges.upd ?_ (fun p hp => ?_))); on_goal 2 => (cases p <;> first | exact rfl | exact absurd (hP _ (by decide)) hp)))

theorem sendClass_only {P : List Part} {s₀ : State} {x0 : Nat} {t : State} (hP : Within [.dpx2, .outbox] P)  (h : OnlyChanges P s₀ t) :
    OnlyChanges P s₀ (State.sendClass x0 t) := by
  unfold State.sendClass
  repeat' (first
    | with_reducible assumption
    | with_reducible (refine sendCommit_only (hP.step (by decide)) ?_)
    | with_reducible (refine OnlyChanges.foldl ?_ (fun u a h => ?_))
    | (extract_lets +onlyGivenNames x; first | (refine OnlyChanges.cut x ?_ (fun h => ?_); (on_goal 2 => clear_value x); (on_goal 1 => subst x)) | clear_value x)
    | split
    | with_reducible (refine OnlyChanges.snd ?_)
    | with_reducible (refine OnlyChanges.fst ?_)
    | with_reducible (refine OnlyChanges.hres ?_)
    | ((with_reducible (refine OnlyChanges.upd ?_ (fun p hp => ?_))); on_goal 2 => (cases p <;> first | exact rfl | exact absurd (hP _ (by decide)) hp)))

theorem sendRest_only {P : List Part} {s₀ : State} {x0 : Nat} {t : State} (hP : Within [.dpx2, .outbox] P)  (h : OnlyChanges P s₀ t) :
    OnlyChanges P s₀ (State.sendRest x0 t) := by
  unfold State.sendRest
  repeat' (first
    | with_reducible assumption
    | with_reducible (refine sendCommit_only (hP.step (by decide)) ?_)
    | with_reducible (refine OnlyChanges.foldl ?_ (fun u a h => ?_))
    | (extract_lets +onlyGivenNames x; first | (refine OnlyChanges.cut x ?_ (fun h => ?_); (on_goal 2 => clear_value x); (on_goal 1 => subst x)) | clear_value x)
    | split
    | with_reducible (refine OnlyChanges.snd ?_)
    | with_reducible (refine OnlyChanges.fst ?_)
    | with_reducible (refine OnlyChanges.hres ?_)
    | ((with_reducible (refine OnlyChanges.upd ?_ (fun p hp => ?_))); on_goal 2 => (cases p <;> first | exact rfl | exact absurd (hP _ (by decide)) hp)))

theorem sendLoop_only {P : List Part} {s₀ : State} {x0 : Nat} {t : State} (hP : Within [.dpx2, .outbox] P)  (h : OnlyChanges P s₀ t) :
    OnlyChanges P s₀ (State.sendLoop x0 t) := by
  unfold State.sendLoop
  repeat' (first
    | with_reducible assumption
    | with_reducible (refine sendRec_only (hP.step (by decide)) ?_)
    | with_reducible (refine OnlyChanges.foldl ?_ (fun u a h => ?_))
    | (extract_lets +onlyGivenNames x; first | (refine OnlyChanges.cut x ?_ (fun h => ?_); (on_goal 2 => clear_value x); (on_goal 1 => subst x)) | clear_value x)
    | split
    | with_reducible (refine OnlyChanges.snd ?_)
    | with_reducible (refine OnlyChanges.fst ?_)
    | with_reducible (refine OnlyChanges.hres ?_)
    | ((with_reducible (refine OnlyChanges.upd ?_ (fun p hp => ?_))); on_goal 2 => (cases p <;> first | exact rfl | exact absurd (hP _ (by decide)) hp)))

theorem sendWindow_only {P : List Part} {s₀ : State} {x0 : Nat} {x1 : Win} {t : State} (hP : Within [.dpx2, .outbox] P)  (h : OnlyChanges P s₀ t) :
    OnlyChanges P s₀ (State.sendWindow x0 x1 t) := by
  unfold State.sendWindow
  repeat' (first
    | with_reducible assumption
    | with_reducible (refine sendPart_only (hP.step (by decide)) ?_)
    | with_reducible (refine OnlyChanges.foldl ?_ (fun u a h => ?_))
    | (extract_lets +onlyGivenNames x; first | (refine OnlyChanges.cut x ?_ (fun h => ?_); (on_goal 2 => clear_value x); (on_goal 1 => subst x)) | clear_value x)
    | split
    | with_reducible (refine OnlyChanges.snd ?_)
    | with_reducible (refine OnlyChanges.fst ?_)
    | with_reducible (refine OnlyChanges.hres ?_)
    | ((with_reducible (refine OnlyChanges.upd ?_ (fun p hp => ?_))); on_goal 2 => (cases p <;> first | exact rfl | exact absurd (hP _ (by decide)) hp)))

theorem countSync_only {P : List Part} {s₀ : State} {x0 : Nat} {t : State} (hP : Within [.dpx2] P)  (h : OnlyChanges P s₀ t) :
    OnlyChanges P s₀ (State.countSync x0 t) := by
  unfold State.countSync
  repeat' (first
    | with_reducible assumption
    | with_reducible (refine OnlyChanges.foldl ?_ (fun u a h => ?_))
    | (extract_lets +onlyGivenNames x; first | (refine OnlyChanges.cut x ?_ (fun h => ?_); (on_goal 2 => clear_value x); (on_goal 1 => subst x)) | clear_value x)
    | split
    | with_reducible (refine OnlyChanges.snd ?_)
    | with_reducible (refine OnlyChanges.fst ?_)
    | with_reducible (refine OnlyChanges.hres ?_)
    | ((with_reducible (refine OnlyChanges.upd ?_ (fun p hp => ?_))); on_goal 2 => (cases p <;> first | exact rfl | exact absurd (hP _ (by decide)) hp)))

theorem sendBulk_only {P : List Part} {s₀ : State}  {t : State} (hP : Within [.cyc, .dpx2, .tly, .outbox] P)  (h : OnlyChanges P s₀ t) :
    OnlyChanges P s₀ (State.sendBulk t) := by
  unfold State.sendBulk
  repeat' (first
    | with_reducible assumption
    | with_reducible (refine sendClass_only (hP.step (by decide)) ?_)
    | with_reducible (refine sendLoop_only (hP.step (by decide)) ?_)
    | with_reducible (refine sendHdrs_only (hP.step (by decide)) ?_)
    | with_reducible (refine updMem_only (hP.step (by decide)) ?_)
    | with_reducible (refine countSync_only (hP.step (by decide)) ?_)
    | with_reducible (refine OnlyChanges.foldl ?_ (fun u a h => ?_))
    | (extract_lets +onlyGivenNames x; first | (refine OnlyChanges.cut x ?_ (fun h => ?_); (on_goal 2 => clear_value x); (on_goal 1 => subst x)) | clear_value x)
    | split
    | with_reducible (refine OnlyChanges.snd ?_)
    | with_reducible (refine OnlyChanges.fst ?_)
    | with_reducible (refine OnlyChanges.hres ?_)
    | ((with_reducible (refine OnlyChanges.upd ?_ (fun p hp => ?_))); on_goal 2 => (cases p <;> first | exact rfl | exact absurd (hP _ (by decide)) hp)))

theorem weighVersions_only {P : List Part} {s₀ : State}  {t : State} (hP : Within [.cyc, .dpx, .dpx2, .tly, .outbox] P)  (h : OnlyChanges P s₀ t) :
    OnlyChanges P s₀ (State.weighVersions t) := by
  unfold State.weighVersions
  repeat' (first
    | with_reducible assumption
    | with_reducible (refine sendBulk_only (hP.step (by decide)) ?_)
    | with_reducible (refine judgeVersions_only (hP.step (by decide)) ?_)
    | with_reducible (refine setSync_only (hP.step (by decide)) ?_)
    | with_reducible (refine OnlyChanges.foldl ?_ (fun u a h => ?_))
    | (extract_lets +onlyGivenNames x; first | (refine OnlyChanges.cut x ?_ (fun h => ?_); (on_goal 2 => clear_value x); (on_goal 1 => subst x)) | clear_value x)
    | split
    | with_reducible (refine OnlyChanges.snd ?_)
    | with_reducible (refine OnlyChanges.fst ?_)
    | with_reducible (refine OnlyChanges.hres ?_)
    | ((with_reducible (refine OnlyChanges.upd ?_ (fun p hp => ?_))); on_goal 2 => (cases p <;> first | exact rfl | exact absurd (hP _ (by decide)) hp)))

theorem takeVersions_only {P : List Part} {s₀ : State} {x0 : BRec} {t : State} (hP : Within [.cyc, .dpx, .dpx2, .tly, .outbox] P)  (h : OnlyChanges P s₀ t) :
    OnlyChanges P s₀ (State.takeVersions x0 t) := by
  unfold State.takeVersions
  repeat' (first
    | with_reducible assumption
    | with_reducible (refine weighVersions_only (hP.step (by decide)) ?_)
    | with_reducible (refine setSync_only (hP.step (by decide)) ?_)
    | with_reducible (refine OnlyChanges.foldl ?_ (fun u a h => ?_))
    | (extract_lets +onlyGivenNames x; first | (refine OnlyChanges.cut x ?_ (fun h => ?_); (on_goal 2 => clear_value x); (on_goal 1 => subst x)) | clear_value x)
    | split
    | with_reducible (refine OnlyChanges.snd ?_)
    | with_reducible (refine OnlyChanges.fst ?_)
    | with_reducible (refine OnlyChanges.hres ?_)
    | ((with_reducible (refine OnlyChanges.upd ?_ (fun p hp => ?_))); on_goal 2 => (cases p <;> first | exact rfl | exact absurd (hP _ (by decide)) hp)))

theorem takeWindow_only {P : List Part} {s₀ : State} {x0 : BRec} {t : State} (hP : Within [.hif, .dpx2] P)  (h : OnlyChanges P s₀ t) :
    OnlyChanges P s₀ (State.takeWindow x0 t) := by
  unfold State.takeWindow
  repeat' (first
    | with_reducible assumption
    | with_reducible (refine OnlyChanges.foldl ?_ (fun u a h => ?_))
    | (extract_lets +onlyGivenNames x; first | (refine OnlyChanges.cut x ?_ (fun h => ?_); (on_goal 2 => clear_value x); (on_goal 1 => subst x)) | clear_value x)
    | split
    | with_reducible (refine OnlyChanges.snd ?_)
    | with_reducible (refine OnlyChanges.fst ?_)
    | with_reducible (refine OnlyChanges.hres ?_)
    | ((with_reducible (refine OnlyChanges.upd ?_ (fun p hp => ?_))); on_goal 2 => (cases p <;> first | exact rfl | exact absurd (hP _ (by decide)) hp)))

theorem restart5_only {P : List Part} {s₀ : State}  {t : State} (hP : Within [.sys, .hif, .cyc, .lsp, .cle, .chg, .dpx, .dpx2, .mir, .net, .tim, .can, .canq, .fio, .saf, .tly, .mm, .boot, .pwr, .cfg, .prog, .regs, .live, .votes, .press, .posted, .outbox, .freeN] P)  (h : OnlyChanges P s₀ t) :
    OnlyChanges P s₀ (State.restart5 t) := by
  have k0 : OnlyChanges P s₀ (State.drawObs t).2 := drawObs_only (hP.step (by decide)) h
  unfold State.restart5
  generalize State.drawObs t = e at k0
  obtain ⟨obs, u⟩ := e
  replace k0 : OnlyChanges P s₀ u := k0
  show OnlyChanges P s₀ _
  have hk : OnlyChanges P s₀ u.bootOutputs.kept := kept_only (hP.step (by decide)) (bootOutputs_only (hP.step (by decide)) k0)
  dsimp only
  generalize u.bootOutputs.kept = a at hk
  have hs : ∀ (y : Sys) (b : Tly) (z : Mm) (x : Hif) (w : Boot), OnlyChanges P s₀
      { a with sys := y, tly := b, mm := z, hif := x, boot := w } := fun y b z x w =>
    OnlyChanges.upd hk (fun p hp => by cases p <;> first | exact rfl | exact absurd (hP _ (by decide)) hp)
  have hc : ∀ y b z x w d, OnlyChanges P s₀ (((State.log 0x0001 2 d { a with sys := y, tly := b, mm := z, hif := x, boot := w }).step3.step5).step6) := fun y b z x w d =>
    step6_only (hP.step (by decide)) (step5_only (hP.step (by decide)) (step3_only (hP.step (by decide)) (log_only (hP.step (by decide)) (hs y b z x w))))
  refine bootExit_only (hP.step (by decide)) (fun u k => replay_only (hP.step (by decide)) k) ?_
  exact OnlyChanges.upd (hc _ _ _ _ _ _) (fun p hp => by cases p <;> first | exact rfl | exact absurd (hP _ (by decide)) hp)

theorem takePackage_only {P : List Part} {s₀ : State} {x0 : List Byte} {x1 : DWord} {t : State} (hP : Within [.chg, .dpx2, .outbox] P)  (h : OnlyChanges P s₀ t) :
    OnlyChanges P s₀ (State.takePackage x0 x1 t) := by
  unfold State.takePackage
  repeat' (first
    | with_reducible assumption
    | with_reducible (refine notice_only (hP.step (by decide)) ?_)
    | with_reducible (refine updChg_only (hP.step (by decide)) ?_)
    | with_reducible (refine OnlyChanges.foldl ?_ (fun u a h => ?_))
    | (extract_lets +onlyGivenNames x; first | (refine OnlyChanges.cut x ?_ (fun h => ?_); (on_goal 2 => clear_value x); (on_goal 1 => subst x)) | clear_value x)
    | split
    | with_reducible (refine OnlyChanges.snd ?_)
    | with_reducible (refine OnlyChanges.fst ?_)
    | with_reducible (refine OnlyChanges.hres ?_)
    | ((with_reducible (refine OnlyChanges.upd ?_ (fun p hp => ?_))); on_goal 2 => (cases p <;> first | exact rfl | exact absurd (hP _ (by decide)) hp)))

theorem takeStaged_only {P : List Part} {s₀ : State} {x0 : Area} {x1 : List Byte} {x2 : DWord} {t : State} (hP : Within [.dpx2, .boot, .outbox] P)  (h : OnlyChanges P s₀ t) :
    OnlyChanges P s₀ (State.takeStaged x0 x1 x2 t) := by
  unfold State.takeStaged
  repeat' (first
    | with_reducible assumption
    | with_reducible (refine updBoot_only (hP.step (by decide)) ?_)
    | with_reducible (refine notice_only (hP.step (by decide)) ?_)
    | with_reducible (refine OnlyChanges.foldl ?_ (fun u a h => ?_))
    | (extract_lets +onlyGivenNames x; first | (refine OnlyChanges.cut x ?_ (fun h => ?_); (on_goal 2 => clear_value x); (on_goal 1 => subst x)) | clear_value x)
    | split
    | with_reducible (refine OnlyChanges.snd ?_)
    | with_reducible (refine OnlyChanges.fst ?_)
    | with_reducible (refine OnlyChanges.hres ?_)
    | ((with_reducible (refine OnlyChanges.upd ?_ (fun p hp => ?_))); on_goal 2 => (cases p <;> first | exact rfl | exact absurd (hP _ (by decide)) hp)))

theorem takeFirmware_only {P : List Part} {s₀ : State} {x0 : List Byte} {x1 : DWord} {t : State} (hP : Within [.sys, .hif, .cyc, .lsp, .cle, .chg, .dpx, .dpx2, .mir, .net, .tim, .can, .canq, .fio, .saf, .tly, .mm, .boot, .pwr, .ret, .cfg, .prog, .regs, .live, .votes, .press, .posted, .outbox, .freeN] P)  (h : OnlyChanges P s₀ t) :
    OnlyChanges P s₀ (State.takeFirmware x0 x1 t) := by
  unfold State.takeFirmware
  repeat' (first
    | with_reducible assumption
    | with_reducible (refine freshStart_only (hP.step (by decide)) ?_ ?_)
    | with_reducible (refine notice_only (hP.step (by decide)) ?_)
    | with_reducible (refine setSync_only (hP.step (by decide)) ?_)
    | with_reducible (refine OnlyChanges.foldl ?_ (fun u a h => ?_))
    | intro _
    | (extract_lets +onlyGivenNames x; first | (refine OnlyChanges.cut x ?_ (fun h => ?_); (on_goal 2 => clear_value x); (on_goal 1 => subst x)) | clear_value x)
    | split
    | intro _
    | with_reducible (refine OnlyChanges.snd ?_)
    | with_reducible (refine OnlyChanges.fst ?_)
    | with_reducible (refine OnlyChanges.hres ?_)
    | ((with_reducible (refine OnlyChanges.upd ?_ (fun p hp => ?_))); on_goal 2 => (cases p <;> first | exact rfl | exact absurd (hP _ (by decide)) hp)))

theorem takeConfig_only {P : List Part} {s₀ : State} {x0 : List Byte} {t : State} (hP : Within [.sys, .hif, .cyc, .lsp, .cle, .chg, .dpx, .dpx2, .mir, .net, .tim, .can, .canq, .fio, .saf, .tly, .mm, .boot, .pwr, .cfg, .prog, .regs, .live, .votes, .press, .posted, .outbox, .freeN] P)  (h : OnlyChanges P s₀ t) :
    OnlyChanges P s₀ (State.takeConfig x0 t) := by
  unfold State.takeConfig
  repeat' (first
    | with_reducible assumption
    | with_reducible (refine restart5_only (hP.step (by decide)) ?_)
    | with_reducible (refine OnlyChanges.foldl ?_ (fun u a h => ?_))
    | (extract_lets +onlyGivenNames x; first | (refine OnlyChanges.cut x ?_ (fun h => ?_); (on_goal 2 => clear_value x); (on_goal 1 => subst x)) | clear_value x)
    | split
    | with_reducible (refine OnlyChanges.snd ?_)
    | with_reducible (refine OnlyChanges.fst ?_)
    | with_reducible (refine OnlyChanges.hres ?_)
    | ((with_reducible (refine OnlyChanges.upd ?_ (fun p hp => ?_))); on_goal 2 => (cases p <;> first | exact rfl | exact absurd (hP _ (by decide)) hp)))

theorem takeProgram_only {P : List Part} {s₀ : State} {x0 : List Byte} {t : State} (hP : Within [.sys, .hif, .cyc, .lsp, .cle, .chg, .dpx, .dpx2, .mir, .net, .tim, .can, .canq, .fio, .saf, .tly, .mm, .boot, .pwr, .cfg, .prog, .regs, .live, .votes, .press, .posted, .outbox, .freeN] P)  (h : OnlyChanges P s₀ t) :
    OnlyChanges P s₀ (State.takeProgram x0 t) := by
  unfold State.takeProgram
  repeat' (first
    | with_reducible assumption
    | with_reducible (refine updChg_only (hP.step (by decide)) ?_)
    | with_reducible (refine restart5_only (hP.step (by decide)) ?_)
    | with_reducible (refine OnlyChanges.foldl ?_ (fun u a h => ?_))
    | (extract_lets +onlyGivenNames x; first | (refine OnlyChanges.cut x ?_ (fun h => ?_); (on_goal 2 => clear_value x); (on_goal 1 => subst x)) | clear_value x)
    | split
    | with_reducible (refine OnlyChanges.snd ?_)
    | with_reducible (refine OnlyChanges.fst ?_)
    | with_reducible (refine OnlyChanges.hres ?_)
    | ((with_reducible (refine OnlyChanges.upd ?_ (fun p hp => ?_))); on_goal 2 => (cases p <;> first | exact rfl | exact absurd (hP _ (by decide)) hp)))

theorem takeContent_only {P : List Part} {s₀ : State} {x0 : Nat} {x1 : List Byte} {x2 : DWord} {t : State} (hP : Within [.sys, .hif, .cyc, .lsp, .cle, .chg, .dpx, .dpx2, .mir, .net, .tim, .can, .canq, .fio, .saf, .tly, .mm, .boot, .pwr, .ret, .cfg, .prog, .regs, .live, .votes, .press, .posted, .outbox, .freeN] P)  (h : OnlyChanges P s₀ t) :
    OnlyChanges P s₀ (State.takeContent x0 x1 x2 t) := by
  unfold State.takeContent
  repeat' (first
    | with_reducible assumption
    | with_reducible (refine takeStaged_only (hP.step (by decide)) ?_)
    | with_reducible (refine takeFirmware_only (hP.step (by decide)) ?_)
    | with_reducible (refine takeConfig_only (hP.step (by decide)) ?_)
    | with_reducible (refine takeProgram_only (hP.step (by decide)) ?_)
    | with_reducible (refine takePackage_only (hP.step (by decide)) ?_)
    | with_reducible (refine OnlyChanges.foldl ?_ (fun u a h => ?_))
    | (extract_lets +onlyGivenNames x; first | (refine OnlyChanges.cut x ?_ (fun h => ?_); (on_goal 2 => clear_value x); (on_goal 1 => subst x)) | clear_value x)
    | split
    | with_reducible (refine OnlyChanges.snd ?_)
    | with_reducible (refine OnlyChanges.fst ?_)
    | with_reducible (refine OnlyChanges.hres ?_)
    | ((with_reducible (refine OnlyChanges.upd ?_ (fun p hp => ?_))); on_goal 2 => (cases p <;> first | exact rfl | exact absurd (hP _ (by decide)) hp)))

theorem takeImage_only {P : List Part} {s₀ : State} {x0 : BRec} {t : State} (hP : Within [.sys, .hif, .cyc, .lsp, .cle, .chg, .dpx, .dpx2, .mir, .net, .tim, .can, .canq, .fio, .saf, .tly, .mm, .boot, .pwr, .ret, .cfg, .prog, .regs, .live, .votes, .press, .posted, .outbox, .freeN] P)  (h : OnlyChanges P s₀ t) :
    OnlyChanges P s₀ (State.takeImage x0 t) := by
  unfold State.takeImage
  repeat' (first
    | with_reducible assumption
    | with_reducible (refine ackRec_only (hP.step (by decide)) ?_)
    | with_reducible (refine takeContent_only (hP.step (by decide)) ?_)
    | with_reducible (refine OnlyChanges.foldl ?_ (fun u a h => ?_))
    | (extract_lets +onlyGivenNames x; first | (refine OnlyChanges.cut x ?_ (fun h => ?_); (on_goal 2 => clear_value x); (on_goal 1 => subst x)) | clear_value x)
    | split
    | with_reducible (refine OnlyChanges.snd ?_)
    | with_reducible (refine OnlyChanges.fst ?_)
    | with_reducible (refine OnlyChanges.hres ?_)
    | ((with_reducible (refine OnlyChanges.upd ?_ (fun p hp => ?_))); on_goal 2 => (cases p <;> first | exact rfl | exact absurd (hP _ (by decide)) hp)))

theorem psBegin_only {P : List Part} {s₀ : State}  {t : State} (hP : Within [.dpx2] P)  (h : OnlyChanges P s₀ t) :
    OnlyChanges P s₀ (State.psBegin t) := by
  unfold State.psBegin
  repeat' (first
    | with_reducible assumption
    | with_reducible (refine psRestart_only (hP.step (by decide)) ?_)
    | with_reducible (refine OnlyChanges.foldl ?_ (fun u a h => ?_))
    | (extract_lets +onlyGivenNames x; first | (refine OnlyChanges.cut x ?_ (fun h => ?_); (on_goal 2 => clear_value x); (on_goal 1 => subst x)) | clear_value x)
    | split
    | with_reducible (refine OnlyChanges.snd ?_)
    | with_reducible (refine OnlyChanges.fst ?_)
    | with_reducible (refine OnlyChanges.hres ?_)
    | ((with_reducible (refine OnlyChanges.upd ?_ (fun p hp => ?_))); on_goal 2 => (cases p <;> first | exact rfl | exact absurd (hP _ (by decide)) hp)))

theorem proofFailed_only {P : List Part} {s₀ : State} {x0 : Nat} {x1 : Nat} {t : State} (hP : Within [.hif, .dpx, .dpx2, .tly, .outbox] P)  (h : OnlyChanges P s₀ t) :
    OnlyChanges P s₀ (State.proofFailed x0 x1 t) := by
  unfold State.proofFailed
  repeat' (first
    | with_reducible assumption
    | with_reducible (refine log_only (hP.step (by decide)) ?_)
    | with_reducible (refine psRestart_only (hP.step (by decide)) ?_)
    | with_reducible (refine notice_only (hP.step (by decide)) ?_)
    | with_reducible (refine tryHandover_only (hP.step (by decide)) ?_)
    | with_reducible (refine OnlyChanges.foldl ?_ (fun u a h => ?_))
    | (extract_lets +onlyGivenNames x; first | (refine OnlyChanges.cut x ?_ (fun h => ?_); (on_goal 2 => clear_value x); (on_goal 1 => subst x)) | clear_value x)
    | split
    | with_reducible (refine OnlyChanges.snd ?_)
    | with_reducible (refine OnlyChanges.fst ?_)
    | with_reducible (refine OnlyChanges.hres ?_)
    | ((with_reducible (refine OnlyChanges.upd ?_ (fun p hp => ?_))); on_goal 2 => (cases p <;> first | exact rfl | exact absurd (hP _ (by decide)) hp)))

theorem ringAbsent_only {P : List Part} {s₀ : State} {x0 : Nat} {t : State} (hP : Within [.hif, .dpx, .dpx2, .tly, .outbox] P)  (h : OnlyChanges P s₀ t) :
    OnlyChanges P s₀ (State.ringAbsent x0 t) := by
  unfold State.ringAbsent
  repeat' (first
    | with_reducible assumption
    | with_reducible (refine proofFailed_only (hP.step (by decide)) ?_)
    | with_reducible (refine tryAbsent_only (hP.step (by decide)) ?_)
    | with_reducible (refine OnlyChanges.foldl ?_ (fun u a h => ?_))
    | (extract_lets +onlyGivenNames x; first | (refine OnlyChanges.cut x ?_ (fun h => ?_); (on_goal 2 => clear_value x); (on_goal 1 => subst x)) | clear_value x)
    | split
    | with_reducible (refine OnlyChanges.snd ?_)
    | with_reducible (refine OnlyChanges.fst ?_)
    | with_reducible (refine OnlyChanges.hres ?_)
    | ((with_reducible (refine OnlyChanges.upd ?_ (fun p hp => ?_))); on_goal 2 => (cases p <;> first | exact rfl | exact absurd (hP _ (by decide)) hp)))

theorem takeHandover_only {P : List Part} {s₀ : State} {x0 : Bool} {x1 : BRec} {t : State} (hP : Within [.dpx, .dpx2, .boot, .outbox] P)  (h : OnlyChanges P s₀ t) :
    OnlyChanges P s₀ (State.takeHandover x0 x1 t) := by
  have hu : ∀ a (x : Dpx) (y : Dpx2), OnlyChanges P s₀ a → OnlyChanges P s₀ { a with dpx := x, dpx2 := y } := fun a x y ha =>
    OnlyChanges.upd ha (fun p hp => by cases p <;> first | exact rfl | exact absurd (hP _ (by decide)) hp)
  unfold State.takeHandover
  split
  · split
    · exact ackRec_only (hP.step (by decide)) h
    · extract_lets a d e b
      have hb : OnlyChanges P s₀ b := hu _ _ _ (ackRec_only (hP.step (by decide)) h)
      split
      · exact updAct_only (hP.step (by decide)) hb
      · exact hb
  · exact ackRec_only (hP.step (by decide)) h

theorem handoverRefused_only {P : List Part} {s₀ : State}  {t : State} (hP : Within [.hif, .dpx, .dpx2, .tly, .outbox] P)  (h : OnlyChanges P s₀ t) :
    OnlyChanges P s₀ (State.handoverRefused t) := by
  unfold State.handoverRefused
  repeat' (first
    | with_reducible assumption
    | with_reducible (refine finishWaiting_only (hP.step (by decide)) ?_)
    | with_reducible (refine OnlyChanges.foldl ?_ (fun u a h => ?_))
    | (extract_lets +onlyGivenNames x; first | (refine OnlyChanges.cut x ?_ (fun h => ?_); (on_goal 2 => clear_value x); (on_goal 1 => subst x)) | clear_value x)
    | split
    | with_reducible (refine OnlyChanges.snd ?_)
    | with_reducible (refine OnlyChanges.fst ?_)
    | with_reducible (refine OnlyChanges.hres ?_)
    | ((with_reducible (refine OnlyChanges.upd ?_ (fun p hp => ?_))); on_goal 2 => (cases p <;> first | exact rfl | exact absurd (hP _ (by decide)) hp)))

theorem partnerProofFail_only {P : List Part} {s₀ : State}  {t : State} (hP : Within [.dpx, .dpx2, .freeN] P)  (h : OnlyChanges P s₀ t) :
    OnlyChanges P s₀ (State.partnerProofFail t) := by
  unfold State.partnerProofFail
  repeat' (first
    | with_reducible assumption
    | with_reducible (refine draw_only (hP.step (by decide)) ?_)
    | with_reducible (refine psRestart_only (hP.step (by decide)) ?_)
    | with_reducible (refine OnlyChanges.foldl ?_ (fun u a h => ?_))
    | (extract_lets +onlyGivenNames x; first | (refine OnlyChanges.cut x ?_ (fun h => ?_); (on_goal 2 => clear_value x); (on_goal 1 => subst x)) | (refine OnlyChanges.cut x.2 ?_ (fun h => ?_); (on_goal 2 => clear_value x); (on_goal 1 => subst x)) | clear_value x)
    | split
    | with_reducible (refine OnlyChanges.snd ?_)
    | with_reducible (refine OnlyChanges.fst ?_)
    | with_reducible (refine OnlyChanges.hres ?_)
    | ((with_reducible (refine OnlyChanges.upd ?_ (fun p hp => ?_))); on_goal 2 => (cases p <;> first | exact rfl | exact absurd (hP _ (by decide)) hp)))

theorem enterSync_only {P : List Part} {s₀ : State}  {t : State} (hP : Within [.hif, .dpx, .dpx2, .mir, .tly, .outbox] P)  (h : OnlyChanges P s₀ t) :
    OnlyChanges P s₀ (State.enterSync t) := by
  unfold State.enterSync
  repeat' (first
    | with_reducible assumption
    | with_reducible (refine setSync_only (hP.step (by decide)) ?_)
    | with_reducible (refine psBegin_only (hP.step (by decide)) ?_)
    | with_reducible (refine notice_only (hP.step (by decide)) ?_)
    | with_reducible (refine OnlyChanges.foldl ?_ (fun u a h => ?_))
    | (extract_lets +onlyGivenNames x; first | (refine OnlyChanges.cut x ?_ (fun h => ?_); (on_goal 2 => clear_value x); (on_goal 1 => subst x)) | clear_value x)
    | split
    | with_reducible (refine OnlyChanges.snd ?_)
    | with_reducible (refine OnlyChanges.fst ?_)
    | with_reducible (refine OnlyChanges.hres ?_)
    | ((with_reducible (refine OnlyChanges.upd ?_ (fun p hp => ?_))); on_goal 2 => (cases p <;> first | exact rfl | exact absurd (hP _ (by decide)) hp)))

theorem actInSync_only {P : List Part} {s₀ : State}  {t : State} (hP : Within [.hif, .dpx2, .tly, .boot, .outbox] P)  (h : OnlyChanges P s₀ t) :
    OnlyChanges P s₀ (State.actInSync t) := by
  unfold State.actInSync
  repeat' (first
    | with_reducible assumption
    | with_reducible (refine completeAct_only (hP.step (by decide)) ?_)
    | with_reducible (refine updAct_only (hP.step (by decide)) ?_)
    | with_reducible (refine actRec_only (hP.step (by decide)) ?_)
    | with_reducible (refine askExchange_only (hP.step (by decide)) ?_)
    | with_reducible (refine OnlyChanges.foldl ?_ (fun u a h => ?_))
    | (extract_lets +onlyGivenNames x; first | (refine OnlyChanges.cut x ?_ (fun h => ?_); (on_goal 2 => clear_value x); (on_goal 1 => subst x)) | clear_value x)
    | split
    | with_reducible (refine OnlyChanges.snd ?_)
    | with_reducible (refine OnlyChanges.fst ?_)
    | with_reducible (refine OnlyChanges.hres ?_)
    | ((with_reducible (refine OnlyChanges.upd ?_ (fun p hp => ?_))); on_goal 2 => (cases p <;> first | exact rfl | exact absurd (hP _ (by decide)) hp)))

theorem takeCutIn_only {P : List Part} {s₀ : State} {x0 : BRec} {t : State} (hP : Within [.hif, .dpx, .dpx2, .mir, .tly, .boot, .outbox] P)  (h : OnlyChanges P s₀ t) :
    OnlyChanges P s₀ (State.takeCutIn x0 t) := by
  unfold State.takeCutIn
  repeat' (first
    | with_reducible assumption
    | with_reducible (refine ackRec_only (hP.step (by decide)) ?_)
    | with_reducible (refine journal_only (hP.step (by decide)) ?_)
    | with_reducible (refine enterSync_only (hP.step (by decide)) ?_)
    | with_reducible (refine actInSync_only (hP.step (by decide)) ?_)
    | with_reducible (refine OnlyChanges.foldl ?_ (fun u a h => ?_))
    | (extract_lets +onlyGivenNames x; first | (refine OnlyChanges.cut x ?_ (fun h => ?_); (on_goal 2 => clear_value x); (on_goal 1 => subst x)) | clear_value x)
    | split
    | with_reducible (refine OnlyChanges.snd ?_)
    | with_reducible (refine OnlyChanges.fst ?_)
    | with_reducible (refine OnlyChanges.hres ?_)
    | ((with_reducible (refine OnlyChanges.upd ?_ (fun p hp => ?_))); on_goal 2 => (cases p <;> first | exact rfl | exact absurd (hP _ (by decide)) hp)))

theorem takeReady_only {P : List Part} {s₀ : State} {x0 : BRec} {t : State} (hP : Within [.sys, .hif, .chg, .dpx, .dpx2, .tly, .boot, .outbox] P)  (h : OnlyChanges P s₀ t) :
    OnlyChanges P s₀ (State.takeReady x0 t) := by
  unfold State.takeReady
  repeat' (first
    | with_reducible assumption
    | with_reducible (refine ackRec_only (hP.step (by decide)) ?_)
    | with_reducible (refine updChg_only (hP.step (by decide)) ?_)
    | with_reducible (refine recordChange_only (hP.step (by decide)) ?_ ?_)
    | with_reducible exact changeOp_op (hP.step (by decide)) 
    | with_reducible (refine updAct_only (hP.step (by decide)) ?_)
    | with_reducible (refine recordPrepared_only (hP.step (by decide)) ?_ ?_)
    | with_reducible exact opSwitch_op (hP.step (by decide)) 
    | with_reducible (refine OnlyChanges.foldl ?_ (fun u a h => ?_))
    | intro _
    | (extract_lets +onlyGivenNames x; first | (refine OnlyChanges.cut x ?_ (fun h => ?_); (on_goal 2 => clear_value x); (on_goal 1 => subst x)) | clear_value x)
    | split
    | intro _
    | with_reducible (refine OnlyChanges.snd ?_)
    | with_reducible (refine OnlyChanges.fst ?_)
    | with_reducible (refine OnlyChanges.hres ?_)
    | ((with_reducible (refine OnlyChanges.upd ?_ (fun p hp => ?_))); on_goal 2 => (cases p <;> first | exact rfl | exact absurd (hP _ (by decide)) hp)))

theorem takeCheckFailed_only {P : List Part} {s₀ : State}  {t : State} (hP : Within [.sys, .hif, .chg, .dpx, .dpx2, .tly, .boot, .outbox] P)  (h : OnlyChanges P s₀ t) :
    OnlyChanges P s₀ (State.takeCheckFailed t) := by
  unfold State.takeCheckFailed
  repeat' (first
    | with_reducible assumption
    | with_reducible (refine refuseChange_only (hP.step (by decide)) ?_)
    | with_reducible (refine updAct_only (hP.step (by decide)) ?_)
    | with_reducible (refine refuseRecorded_only (hP.step (by decide)) ?_ ?_)
    | with_reducible exact opSwitch_op (hP.step (by decide)) 
    | with_reducible (refine setSync_only (hP.step (by decide)) ?_)
    | with_reducible (refine OnlyChanges.foldl ?_ (fun u a h => ?_))
    | intro _
    | (extract_lets +onlyGivenNames x; first | (refine OnlyChanges.cut x ?_ (fun h => ?_); (on_goal 2 => clear_value x); (on_goal 1 => subst x)) | clear_value x)
    | split
    | intro _
    | with_reducible (refine OnlyChanges.snd ?_)
    | with_reducible (refine OnlyChanges.fst ?_)
    | with_reducible (refine OnlyChanges.hres ?_)
    | ((with_reducible (refine OnlyChanges.upd ?_ (fun p hp => ?_))); on_goal 2 => (cases p <;> first | exact rfl | exact absurd (hP _ (by decide)) hp)))

theorem takeFailure_only {P : List Part} {s₀ : State}  {t : State} (hP : Within [.sys, .hif, .cyc, .cle, .chg, .dpx, .dpx2, .mir, .saf, .tly, .mm, .boot, .outbox] P)  (h : OnlyChanges P s₀ t) :
    OnlyChanges P s₀ (State.takeFailure t) := by
  unfold State.takeFailure
  repeat' (first
    | with_reducible assumption
    | with_reducible (refine decideTakeover_only (hP.step (by decide)) ?_)
    | with_reducible (refine OnlyChanges.foldl ?_ (fun u a h => ?_))
    | (extract_lets +onlyGivenNames x; first | (refine OnlyChanges.cut x ?_ (fun h => ?_); (on_goal 2 => clear_value x); (on_goal 1 => subst x)) | clear_value x)
    | split
    | with_reducible (refine OnlyChanges.snd ?_)
    | with_reducible (refine OnlyChanges.fst ?_)
    | with_reducible (refine OnlyChanges.hres ?_)
    | ((with_reducible (refine OnlyChanges.upd ?_ (fun p hp => ?_))); on_goal 2 => (cases p <;> first | exact rfl | exact absurd (hP _ (by decide)) hp)))

theorem takeHalt_only {P : List Part} {s₀ : State} {x0 : BRec} {t : State} (hP : Within [.sys, .hif, .cyc, .lsp, .cle, .chg, .dpx, .dpx2, .mir, .net, .tim, .can, .canq, .fio, .saf, .tly, .mm, .boot, .pwr, .ret, .cfg, .prog, .regs, .live, .votes, .press, .posted, .outbox, .freeN] P)  (h : OnlyChanges P s₀ t) :
    OnlyChanges P s₀ (State.takeHalt x0 t) := by
  unfold State.takeHalt
  repeat' (first
    | with_reducible assumption
    | with_reducible (refine haltNotice_only (hP.step (by decide)) ?_)
    | with_reducible (refine OnlyChanges.foldl ?_ (fun u a h => ?_))
    | (extract_lets +onlyGivenNames x; first | (refine OnlyChanges.cut x ?_ (fun h => ?_); (on_goal 2 => clear_value x); (on_goal 1 => subst x)) | clear_value x)
    | split
    | with_reducible (refine OnlyChanges.snd ?_)
    | with_reducible (refine OnlyChanges.fst ?_)
    | with_reducible (refine OnlyChanges.hres ?_)
    | ((with_reducible (refine OnlyChanges.upd ?_ (fun p hp => ?_))); on_goal 2 => (cases p <;> first | exact rfl | exact absurd (hP _ (by decide)) hp)))

theorem takeNotice_only {P : List Part} {s₀ : State} {x0 : BRec} {t : State} (hP : Within [.sys, .hif, .cyc, .lsp, .cle, .chg, .dpx, .dpx2, .mir, .net, .tim, .can, .canq, .fio, .saf, .tly, .mm, .boot, .pwr, .ret, .cfg, .prog, .regs, .live, .votes, .press, .posted, .outbox, .freeN] P)  (h : OnlyChanges P s₀ t) :
    OnlyChanges P s₀ (State.takeNotice x0 t) := by
  unfold State.takeNotice
  repeat' (first
    | with_reducible assumption
    | with_reducible (refine takeFailure_only (hP.step (by decide)) ?_)
    | with_reducible (refine takeHalt_only (hP.step (by decide)) ?_)
    | with_reducible (refine takeHandover_only (hP.step (by decide)) ?_)
    | with_reducible (refine ringAbsent_only (hP.step (by decide)) ?_)
    | with_reducible (refine partnerProofFail_only (hP.step (by decide)) ?_)
    | with_reducible (refine takeCutIn_only (hP.step (by decide)) ?_)
    | with_reducible (refine takeReady_only (hP.step (by decide)) ?_)
    | with_reducible (refine takeCheckFailed_only (hP.step (by decide)) ?_)
    | with_reducible (refine OnlyChanges.foldl ?_ (fun u a h => ?_))
    | (extract_lets +onlyGivenNames x; first | (refine OnlyChanges.cut x ?_ (fun h => ?_); (on_goal 2 => clear_value x); (on_goal 1 => subst x)) | clear_value x)
    | split
    | with_reducible (refine OnlyChanges.snd ?_)
    | with_reducible (refine OnlyChanges.fst ?_)
    | with_reducible (refine OnlyChanges.hres ?_)
    | ((with_reducible (refine OnlyChanges.upd ?_ (fun p hp => ?_))); on_goal 2 => (cases p <;> first | exact rfl | exact absurd (hP _ (by decide)) hp)))

theorem takeAck_only {P : List Part} {s₀ : State} {x0 : BRec} {t : State} (hP : Within [.sys, .hif, .cyc, .lsp, .cle, .chg, .dpx, .dpx2, .mir, .net, .tim, .fio, .saf, .tly, .mm, .boot, .regs, .live, .votes, .outbox, .freeN] P)  (h : OnlyChanges P s₀ t) :
    OnlyChanges P s₀ (State.takeAck x0 t) := by
  unfold State.takeAck
  repeat' (first
    | with_reducible assumption
    | with_reducible (refine ackHost_only (hP.step (by decide)) ?_)
    | with_reducible (refine endLost_only (hP.step (by decide)) ?_)
    | with_reducible (refine tryHandover_only (hP.step (by decide)) ?_)
    | with_reducible (refine tryAbsent_only (hP.step (by decide)) ?_)
    | with_reducible (refine handoverRefused_only (hP.step (by decide)) ?_)
    | with_reducible (refine enterSync_only (hP.step (by decide)) ?_)
    | with_reducible (refine actInSync_only (hP.step (by decide)) ?_)
    | with_reducible (refine OnlyChanges.foldl ?_ (fun u a h => ?_))
    | (extract_lets +onlyGivenNames x; first | (refine OnlyChanges.cut x ?_ (fun h => ?_); (on_goal 2 => clear_value x); (on_goal 1 => subst x)) | clear_value x)
    | split
    | with_reducible (refine OnlyChanges.snd ?_)
    | with_reducible (refine OnlyChanges.fst ?_)
    | with_reducible (refine OnlyChanges.hres ?_)
    | ((with_reducible (refine OnlyChanges.upd ?_ (fun p hp => ?_))); on_goal 2 => (cases p <;> first | exact rfl | exact absurd (hP _ (by decide)) hp)))

theorem useRec_only {P : List Part} {s₀ : State} {x0 : BRec} {t : State} (hP : Within [.sys, .hif, .cyc, .lsp, .cle, .chg, .dpx, .dpx2, .mir, .net, .tim, .can, .canq, .fio, .saf, .tly, .mm, .boot, .pwr, .ret, .cfg, .prog, .regs, .live, .votes, .press, .posted, .outbox, .freeN] P)  (h : OnlyChanges P s₀ t) :
    OnlyChanges P s₀ (State.useRec x0 t) := by
  unfold State.useRec
  repeat' (first
    | with_reducible assumption
    | with_reducible (refine takeAck_only (hP.step (by decide)) ?_)
    | with_reducible (refine takeHostwork_only (hP.step (by decide)) ?_)
    | with_reducible (refine meetVersion_only (hP.step (by decide)) ?_)
    | with_reducible (refine takeLines_only (hP.step (by decide)) ?_)
    | with_reducible (refine takeCommitEnd_only (hP.step (by decide)) ?_)
    | with_reducible (refine takeLoopState_only (hP.step (by decide)) ?_)
    | with_reducible (refine takeLoopGroup_only (hP.step (by decide)) ?_)
    | with_reducible (refine takeHdrs_only (hP.step (by decide)) ?_)
    | with_reducible (refine takeVersions_only (hP.step (by decide)) ?_)
    | with_reducible (refine takeWindow_only (hP.step (by decide)) ?_)
    | with_reducible (refine takeNotice_only (hP.step (by decide)) ?_)
    | with_reducible (refine takeImage_only (hP.step (by decide)) ?_)
    | with_reducible (refine OnlyChanges.foldl ?_ (fun u a h => ?_))
    | (extract_lets +onlyGivenNames x; first | (refine OnlyChanges.cut x ?_ (fun h => ?_); (on_goal 2 => clear_value x); (on_goal 1 => subst x)) | clear_value x)
    | split
    | with_reducible (refine OnlyChanges.snd ?_)
    | with_reducible (refine OnlyChanges.fst ?_)
    | with_reducible (refine OnlyChanges.hres ?_)
    | ((with_reducible (refine OnlyChanges.upd ?_ (fun p hp => ?_))); on_goal 2 => (cases p <;> first | exact rfl | exact absurd (hP _ (by decide)) hp)))

theorem nextRec_only {P : List Part} {s₀ : State} {x0 : BRec} {t : State} (hP : Within [.sys, .hif, .cyc, .lsp, .cle, .chg, .dpx, .dpx2, .mir, .net, .tim, .can, .canq, .fio, .saf, .tly, .mm, .boot, .pwr, .ret, .cfg, .prog, .regs, .live, .votes, .press, .posted, .outbox, .freeN] P)  (h : OnlyChanges P s₀ t) :
    OnlyChanges P s₀ (State.nextRec x0 t) := by
  unfold State.nextRec
  repeat' (first
    | with_reducible assumption
    | with_reducible (refine useRec_only (hP.step (by decide)) ?_)
    | with_reducible (refine OnlyChanges.foldl ?_ (fun u a h => ?_))
    | (extract_lets +onlyGivenNames x; first | (refine OnlyChanges.cut x ?_ (fun h => ?_); (on_goal 2 => clear_value x); (on_goal 1 => subst x)) | clear_value x)
    | split
    | with_reducible (refine OnlyChanges.snd ?_)
    | with_reducible (refine OnlyChanges.fst ?_)
    | with_reducible (refine OnlyChanges.hres ?_)
    | ((with_reducible (refine OnlyChanges.upd ?_ (fun p hp => ?_))); on_goal 2 => (cases p <;> first | exact rfl | exact absurd (hP _ (by decide)) hp)))

theorem drainRecs_only {P : List Part} {s₀ : State} {x0 : Nat} {t : State} (hP : Within [.sys, .hif, .cyc, .lsp, .cle, .chg, .dpx, .dpx2, .mir, .net, .tim, .can, .canq, .fio, .saf, .tly, .mm, .boot, .pwr, .ret, .cfg, .prog, .regs, .live, .votes, .press, .posted, .outbox, .freeN] P)  (h : OnlyChanges P s₀ t) :
    OnlyChanges P s₀ (State.drainRecs x0 t) := by
  induction x0 generalizing t with
  | zero => exact h
  | succ k ih =>
    unfold State.drainRecs
    split
    · exact h
    · refine ih (nextRec_only (hP.step (by decide)) ?_)
      exact OnlyChanges.upd h (fun p hp => by cases p <;> first | exact rfl | exact absurd (hP _ (by decide)) hp)

theorem takeRec_only {P : List Part} {s₀ : State} {x0 : BRec} {t : State} (hP : Within [.sys, .hif, .cyc, .lsp, .cle, .chg, .dpx, .dpx2, .mir, .net, .tim, .can, .canq, .fio, .saf, .tly, .mm, .boot, .pwr, .ret, .cfg, .prog, .regs, .live, .votes, .press, .posted, .outbox, .freeN] P)  (h : OnlyChanges P s₀ t) :
    OnlyChanges P s₀ (State.takeRec x0 t) := by
  unfold State.takeRec
  repeat' (first
    | with_reducible assumption
    | with_reducible (refine crcError_only (hP.step (by decide)) ?_)
    | with_reducible (refine nextRec_only (hP.step (by decide)) ?_)
    | with_reducible (refine drainRecs_only (hP.step (by decide)) ?_)
    | with_reducible (refine OnlyChanges.foldl ?_ (fun u a h => ?_))
    | (extract_lets +onlyGivenNames x; first | (refine OnlyChanges.cut x ?_ (fun h => ?_); (on_goal 2 => clear_value x); (on_goal 1 => subst x)) | clear_value x)
    | split
    | with_reducible (refine OnlyChanges.snd ?_)
    | with_reducible (refine OnlyChanges.fst ?_)
    | with_reducible (refine OnlyChanges.hres ?_)
    | ((with_reducible (refine OnlyChanges.upd ?_ (fun p hp => ?_))); on_goal 2 => (cases p <;> first | exact rfl | exact absurd (hP _ (by decide)) hp)))

theorem gapOver_only {P : List Part} {s₀ : State}  {t : State} (hP : Within [.sys, .hif, .cyc, .lsp, .cle, .chg, .dpx, .dpx2, .mir, .net, .tim, .can, .canq, .fio, .saf, .tly, .mm, .boot, .pwr, .ret, .cfg, .prog, .regs, .live, .votes, .press, .posted, .outbox, .freeN] P)  (h : OnlyChanges P s₀ t) :
    OnlyChanges P s₀ (State.gapOver t) := by
  unfold State.gapOver
  repeat' (first
    | with_reducible assumption
    | with_reducible (refine endInsync_only (hP.step (by decide)) ?_)
    | with_reducible (refine drainRecs_only (hP.step (by decide)) ?_)
    | with_reducible (refine OnlyChanges.foldl ?_ (fun u a h => ?_))
    | (extract_lets +onlyGivenNames x; first | (refine OnlyChanges.cut x ?_ (fun h => ?_); (on_goal 2 => clear_value x); (on_goal 1 => subst x)) | clear_value x)
    | split
    | with_reducible (refine OnlyChanges.snd ?_)
    | with_reducible (refine OnlyChanges.fst ?_)
    | with_reducible (refine OnlyChanges.hres ?_)
    | ((with_reducible (refine OnlyChanges.upd ?_ (fun p hp => ?_))); on_goal 2 => (cases p <;> first | exact rfl | exact absurd (hP _ (by decide)) hp)))

end Sys2Proof.Laws
end

