-- ==== Sys2Proof/Laws/OnlyPairSync.lean ====
section
/-! SUPPORT. What each operation of PairSync.lean may change: one frame per operation. -/

set_option linter.unusedTactic false
set_option linter.unreachableTactic false
set_option linter.unusedVariables false
set_option linter.tactic.unusedName false

namespace Sys2Proof.Laws

open Sys2Proof.Machine Sys2Proof.Safety

theorem missedAt_only {P : List Part} {s₀ : State}  {t : State} (hP : Within [.sys, .hif, .cyc, .lsp, .cle, .chg, .dpx, .dpx2, .mir, .net, .tim, .can, .canq, .fio, .saf, .tly, .mm, .boot, .pwr, .ret, .cfg, .prog, .regs, .live, .votes, .press, .posted, .outbox, .freeN] P)  (h : OnlyChanges P s₀ t) :
    OnlyChanges P s₀ (State.missedAt t) := by
  unfold State.missedAt
  repeat' (first
    | with_reducible assumption
    | with_reducible (refine completeAct_only (hP.step (by decide)) ?_)
    | with_reducible (refine restartPrevious_only (hP.step (by decide)) ?_)
    | with_reducible (refine OnlyChanges.foldl ?_ (fun u a h => ?_))
    | (extract_lets +onlyGivenNames x; first | (refine OnlyChanges.cut x ?_ (fun h => ?_); (on_goal 2 => clear_value x); (on_goal 1 => subst x)) | clear_value x)
    | split
    | with_reducible (refine OnlyChanges.snd ?_)
    | with_reducible (refine OnlyChanges.fst ?_)
    | with_reducible (refine OnlyChanges.hres ?_)
    | ((with_reducible (refine OnlyChanges.upd ?_ (fun p hp => ?_))); on_goal 2 => (cases p <;> first | exact rfl | exact absurd (hP _ (by decide)) hp)))

theorem beginSync_only {P : List Part} {s₀ : State}  {t : State} (hP : Within [.dpx, .dpx2, .mir, .tly] P)  (h : OnlyChanges P s₀ t) :
    OnlyChanges P s₀ (State.beginSync t) := by
  unfold State.beginSync
  repeat' (first
    | with_reducible assumption
    | with_reducible (refine setSync_only (hP.step (by decide)) ?_)
    | with_reducible (refine OnlyChanges.foldl ?_ (fun u a h => ?_))
    | (extract_lets +onlyGivenNames x; first | (refine OnlyChanges.cut x ?_ (fun h => ?_); (on_goal 2 => clear_value x); (on_goal 1 => subst x)) | clear_value x)
    | split
    | with_reducible (refine OnlyChanges.snd ?_)
    | with_reducible (refine OnlyChanges.fst ?_)
    | with_reducible (refine OnlyChanges.hres ?_)
    | ((with_reducible (refine OnlyChanges.upd ?_ (fun p hp => ?_))); on_goal 2 => (cases p <;> first | exact rfl | exact absurd (hP _ (by decide)) hp)))

theorem sendPending_only {P : List Part} {s₀ : State} {x0 : Nat} {t : State} (hP : Within [.dpx2, .outbox] P)  (h : OnlyChanges P s₀ t) :
    OnlyChanges P s₀ (State.sendPending x0 t) := by
  unfold State.sendPending
  repeat' (first
    | with_reducible assumption
    | with_reducible (refine sendHostwork_only (hP.step (by decide)) ?_)
    | with_reducible (refine OnlyChanges.foldl ?_ (fun u a h => ?_))
    | (extract_lets +onlyGivenNames x; first | (refine OnlyChanges.cut x ?_ (fun h => ?_); (on_goal 2 => clear_value x); (on_goal 1 => subst x)) | clear_value x)
    | split
    | with_reducible (refine OnlyChanges.snd ?_)
    | with_reducible (refine OnlyChanges.fst ?_)
    | with_reducible (refine OnlyChanges.hres ?_)
    | ((with_reducible (refine OnlyChanges.upd ?_ (fun p hp => ?_))); on_goal 2 => (cases p <;> first | exact rfl | exact absurd (hP _ (by decide)) hp)))

theorem cutIn_only {P : List Part} {s₀ : State}  {t : State} (hP : Within [.hif, .dpx2, .tly, .outbox] P)  (h : OnlyChanges P s₀ t) :
    OnlyChanges P s₀ (State.cutIn t) := by
  unfold State.cutIn
  repeat' (first
    | with_reducible assumption
    | with_reducible (refine sendRest_only (hP.step (by decide)) ?_)
    | with_reducible (refine sendLoop_only (hP.step (by decide)) ?_)
    | with_reducible (refine sendHdrs_only (hP.step (by decide)) ?_)
    | with_reducible (refine sendWindow_only (hP.step (by decide)) ?_)
    | with_reducible (refine sendPending_only (hP.step (by decide)) ?_)
    | with_reducible (refine countSync_only (hP.step (by decide)) ?_)
    | with_reducible (refine notice_only (hP.step (by decide)) ?_)
    | with_reducible (refine OnlyChanges.foldl ?_ (fun u a h => ?_))
    | (extract_lets +onlyGivenNames x; first | (refine OnlyChanges.cut x ?_ (fun h => ?_); (on_goal 2 => clear_value x); (on_goal 1 => subst x)) | clear_value x)
    | split
    | with_reducible (refine OnlyChanges.snd ?_)
    | with_reducible (refine OnlyChanges.fst ?_)
    | with_reducible (refine OnlyChanges.hres ?_)
    | ((with_reducible (refine OnlyChanges.upd ?_ (fun p hp => ?_))); on_goal 2 => (cases p <;> first | exact rfl | exact absurd (hP _ (by decide)) hp)))

theorem abandon_only {P : List Part} {s₀ : State}  {t : State} (hP : Within [.hif, .dpx, .dpx2, .tly] P)  (h : OnlyChanges P s₀ t) :
    OnlyChanges P s₀ (State.abandon t) := by
  unfold State.abandon
  repeat' (first
    | with_reducible assumption
    | with_reducible (refine setSync_only (hP.step (by decide)) ?_)
    | with_reducible (refine OnlyChanges.foldl ?_ (fun u a h => ?_))
    | (extract_lets +onlyGivenNames x; first | (refine OnlyChanges.cut x ?_ (fun h => ?_); (on_goal 2 => clear_value x); (on_goal 1 => subst x)) | clear_value x)
    | split
    | with_reducible (refine OnlyChanges.snd ?_)
    | with_reducible (refine OnlyChanges.fst ?_)
    | with_reducible (refine OnlyChanges.hres ?_)
    | ((with_reducible (refine OnlyChanges.upd ?_ (fun p hp => ?_))); on_goal 2 => (cases p <;> first | exact rfl | exact absurd (hP _ (by decide)) hp)))

theorem handToPartner_only {P : List Part} {s₀ : State}  {t : State} (hP : Within [.sys, .hif, .cyc, .lsp, .cle, .chg, .dpx, .dpx2, .mir, .saf, .tly, .mm, .boot, .outbox] P)  (h : OnlyChanges P s₀ t) :
    OnlyChanges P s₀ (State.handToPartner t) := by
  have hb : ∀ a, OnlyChanges P s₀ a → OnlyChanges P s₀ { a with dpx2 := { a.dpx2 with takeFrom := 0, proofWin := false } } := fun a ha => by
    exact OnlyChanges.upd ha (fun p hp => by cases p <;> first | exact rfl | exact absurd (hP _ (by decide)) hp)
  unfold State.handToPartner
  extract_lets a b s₁ c
  have k : OnlyChanges P s₀ c := hb _ (asStandby_only (hP.step (by decide)) (beginTrans_only (hP.step (by decide)) (setMode_only (hP.step (by decide)) (haltClasses_only (hP.step (by decide)) (overrunRecs_only (hP.step (by decide)) h)))))
  split
  · exact updAct_only (hP.step (by decide)) k
  · exact k

theorem takeOverByCommand_only {P : List Part} {s₀ : State}  {t : State} (hP : Within [.sys, .hif, .cyc, .cle, .chg, .dpx, .dpx2, .mir, .saf, .tly, .mm, .boot, .outbox] P)  (h : OnlyChanges P s₀ t) :
    OnlyChanges P s₀ (State.takeOverByCommand t) := by
  have hb : ∀ a (y : Dpx2), OnlyChanges P s₀ a → OnlyChanges P s₀ { a with dpx2 := y } := fun a y ha => by
    exact OnlyChanges.upd ha (fun p hp => by cases p <;> first | exact rfl | exact absurd (hP _ (by decide)) hp)
  exact startTakeover_only (hP.step (by decide)) (hb _ _ (takeEpoch_only (hP.step (by decide)) (beginTrans_only (hP.step (by decide)) (setMode_only (hP.step (by decide)) h))))

theorem proofDue_only {P : List Part} {s₀ : State}  {t : State} (hP : Within [.hif, .dpx, .dpx2, .tly, .outbox] P)  (h : OnlyChanges P s₀ t) :
    OnlyChanges P s₀ (State.proofDue t) := by
  unfold State.proofDue
  repeat' (first
    | with_reducible assumption
    | with_reducible (refine sendUnasked_only (hP.step (by decide)) ?_)
    | with_reducible (refine askExchange_only (hP.step (by decide)) ?_)
    | with_reducible (refine tryHandover_only (hP.step (by decide)) ?_)
    | with_reducible (refine log_only (hP.step (by decide)) ?_)
    | with_reducible (refine OnlyChanges.foldl ?_ (fun u a h => ?_))
    | (extract_lets +onlyGivenNames x; first | (refine OnlyChanges.cut x ?_ (fun h => ?_); (on_goal 2 => clear_value x); (on_goal 1 => subst x)) | clear_value x)
    | split
    | with_reducible (refine OnlyChanges.snd ?_)
    | with_reducible (refine OnlyChanges.fst ?_)
    | with_reducible (refine OnlyChanges.hres ?_)
    | ((with_reducible (refine OnlyChanges.upd ?_ (fun p hp => ?_))); on_goal 2 => (cases p <;> first | exact rfl | exact absurd (hP _ (by decide)) hp)))

theorem proofJudge_only {P : List Part} {s₀ : State}  {t : State} (hP : Within [.hif, .dpx, .dpx2, .tly, .outbox] P)  (h : OnlyChanges P s₀ t) :
    OnlyChanges P s₀ (State.proofJudge t) := by
  unfold State.proofJudge
  repeat' (first
    | with_reducible assumption
    | with_reducible (refine proofFailed_only (hP.step (by decide)) ?_)
    | with_reducible (refine OnlyChanges.foldl ?_ (fun u a h => ?_))
    | (extract_lets +onlyGivenNames x; first | (refine OnlyChanges.cut x ?_ (fun h => ?_); (on_goal 2 => clear_value x); (on_goal 1 => subst x)) | clear_value x)
    | split
    | with_reducible (refine OnlyChanges.snd ?_)
    | with_reducible (refine OnlyChanges.fst ?_)
    | with_reducible (refine OnlyChanges.hres ?_)
    | ((with_reducible (refine OnlyChanges.upd ?_ (fun p hp => ?_))); on_goal 2 => (cases p <;> first | exact rfl | exact absurd (hP _ (by decide)) hp)))

theorem proofPassed_only {P : List Part} {s₀ : State}  {t : State} (hP : Within [.dpx2, .tly] P)  (h : OnlyChanges P s₀ t) :
    OnlyChanges P s₀ (State.proofPassed t) := by
  unfold State.proofPassed
  repeat' (first
    | with_reducible assumption
    | with_reducible (refine log_only (hP.step (by decide)) ?_)
    | with_reducible (refine psRestart_only (hP.step (by decide)) ?_)
    | with_reducible (refine OnlyChanges.foldl ?_ (fun u a h => ?_))
    | (extract_lets +onlyGivenNames x; first | (refine OnlyChanges.cut x ?_ (fun h => ?_); (on_goal 2 => clear_value x); (on_goal 1 => subst x)) | clear_value x)
    | split
    | with_reducible (refine OnlyChanges.snd ?_)
    | with_reducible (refine OnlyChanges.fst ?_)
    | with_reducible (refine OnlyChanges.hres ?_)
    | ((with_reducible (refine OnlyChanges.upd ?_ (fun p hp => ?_))); on_goal 2 => (cases p <;> first | exact rfl | exact absurd (hP _ (by decide)) hp)))

theorem windowEnd_only {P : List Part} {s₀ : State}  {t : State} (hP : Within [.hif, .dpx, .dpx2, .tly, .outbox] P)  (h : OnlyChanges P s₀ t) :
    OnlyChanges P s₀ (State.windowEnd t) := by
  unfold State.windowEnd
  repeat' (first
    | with_reducible assumption
    | with_reducible (refine proofJudge_only (hP.step (by decide)) ?_)
    | with_reducible (refine proofPassed_only (hP.step (by decide)) ?_)
    | with_reducible (refine OnlyChanges.foldl ?_ (fun u a h => ?_))
    | (extract_lets +onlyGivenNames x; first | (refine OnlyChanges.cut x ?_ (fun h => ?_); (on_goal 2 => clear_value x); (on_goal 1 => subst x)) | clear_value x)
    | split
    | with_reducible (refine OnlyChanges.snd ?_)
    | with_reducible (refine OnlyChanges.fst ?_)
    | with_reducible (refine OnlyChanges.hres ?_)
    | ((with_reducible (refine OnlyChanges.upd ?_ (fun p hp => ?_))); on_goal 2 => (cases p <;> first | exact rfl | exact absurd (hP _ (by decide)) hp)))

end Sys2Proof.Laws
end

