-- ==== Sys2Proof/Laws/OnlyRegs.lean ====
section
/-! SUPPORT. What each operation of Regs.lean may change: one frame per operation. -/

set_option linter.unusedTactic false
set_option linter.unreachableTactic false
set_option linter.unusedVariables false
set_option linter.tactic.unusedName false

namespace Sys2Proof.Laws

open Sys2Proof.Machine Sys2Proof.Safety

theorem updPress_only {P : List Part} {s₀ : State} {x0 : Nat} {x1 : Press → Press} {t : State} (hP : Within [.press] P)  (h : OnlyChanges P s₀ t) :
    OnlyChanges P s₀ (State.updPress x0 x1 t) := by
  unfold State.updPress
  repeat' (first
    | with_reducible assumption
    | with_reducible (refine OnlyChanges.foldl ?_ (fun u a h => ?_))
    | (extract_lets +onlyGivenNames x; first | (refine OnlyChanges.cut x ?_ (fun h => ?_); (on_goal 2 => clear_value x); (on_goal 1 => subst x)) | clear_value x)
    | split
    | with_reducible (refine OnlyChanges.snd ?_)
    | with_reducible (refine OnlyChanges.fst ?_)
    | with_reducible (refine OnlyChanges.hres ?_)
    | ((with_reducible (refine OnlyChanges.upd ?_ (fun p hp => ?_))); on_goal 2 => (cases p <;> first | exact rfl | exact absurd (hP _ (by decide)) hp)))

theorem goAt_only {P : List Part} {s₀ : State} {x0 : Nat} {x1 : Word} {t : State} (hP : Within [.sys, .press] P)  (h : OnlyChanges P s₀ t) :
    OnlyChanges P s₀ (State.goAt x0 x1 t) := by
  unfold State.goAt
  repeat' (first
    | with_reducible assumption
    | with_reducible (refine updPress_only (hP.step (by decide)) ?_)
    | with_reducible (refine accAddr_only (hP.step (by decide)) ?_)
    | with_reducible (refine OnlyChanges.foldl ?_ (fun u a h => ?_))
    | (extract_lets +onlyGivenNames x; first | (refine OnlyChanges.cut x ?_ (fun h => ?_); (on_goal 2 => clear_value x); (on_goal 1 => subst x)) | clear_value x)
    | split
    | with_reducible (refine OnlyChanges.snd ?_)
    | with_reducible (refine OnlyChanges.fst ?_)
    | with_reducible (refine OnlyChanges.hres ?_)
    | ((with_reducible (refine OnlyChanges.upd ?_ (fun p hp => ?_))); on_goal 2 => (cases p <;> first | exact rfl | exact absurd (hP _ (by decide)) hp)))

theorem stageAt_only {P : List Part} {s₀ : State} {x0 : Nat} {x1 : Nat} {x2 : Word} {t : State} (hP : Within [.sys, .regs, .press] P)  (h : OnlyChanges P s₀ t) :
    OnlyChanges P s₀ (State.stageAt x0 x1 x2 t) := by
  unfold State.stageAt
  repeat' (first
    | with_reducible assumption
    | with_reducible (refine updPress_only (hP.step (by decide)) ?_)
    | with_reducible (refine accAddr_only (hP.step (by decide)) ?_)
    | with_reducible (refine setReg_only (hP.step (by decide)) ?_)
    | with_reducible (refine OnlyChanges.foldl ?_ (fun u a h => ?_))
    | (extract_lets +onlyGivenNames x; first | (refine OnlyChanges.cut x ?_ (fun h => ?_); (on_goal 2 => clear_value x); (on_goal 1 => subst x)) | clear_value x)
    | split
    | with_reducible (refine OnlyChanges.snd ?_)
    | with_reducible (refine OnlyChanges.fst ?_)
    | with_reducible (refine OnlyChanges.hres ?_)
    | ((with_reducible (refine OnlyChanges.upd ?_ (fun p hp => ?_))); on_goal 2 => (cases p <;> first | exact rfl | exact absurd (hP _ (by decide)) hp)))

theorem windowWrite_only {P : List Part} {s₀ : State} {x0 : Ini} {x1 : Nat} {x2 : Nat} {x3 : Nat} {x4 : Word} {t : State} (hP : Within [.sys, .cle, .tly, .regs] P)  (h : OnlyChanges P s₀ t) :
    OnlyChanges P s₀ (State.windowWrite x0 x1 x2 x3 x4 t) := by
  unfold State.windowWrite
  extract_lets lost
  have hl : ∀ n b u, OnlyChanges P s₀ u → OnlyChanges P s₀ (lost n b u) := fun n b u k => by
    exact OnlyChanges.ite (accAddr_only (hP.step (by decide)) k) k
  clear_value lost
  split
  · split
    · exact setReg_only (hP.step (by decide)) h
    · exact roWr_only (hP.step (by decide)) h
  split
  · split
    · exact roWr_only (hP.step (by decide)) h
    · exact viaWindow_only (hP.step (by decide)) (fun n u k => hl n true _ (updLoop_only (hP.step (by decide)) k)) h
  split
  · refine viaWindow_only (hP.step (by decide)) (fun n u k => ?_) h
    split
    · exact hl n true _ (updLoop_only (hP.step (by decide)) k)
    · exact updLoop_only (hP.step (by decide)) k
  split
  · refine viaWindow_only (hP.step (by decide)) (fun n u k => ?_) h
    split
    · exact hl n false _ (updLoop_only (hP.step (by decide)) k)
    · exact updLoop_only (hP.step (by decide)) k
  split
  · exact loopCmd_only (hP.step (by decide)) h
  · exact viaWindow_only (hP.step (by decide)) (fun n u k => hl n false _ (updLoop_only (hP.step (by decide)) k)) h

theorem kick_only {P : List Part} {s₀ : State}  {t : State} (hP : Within [.sys] P)  (h : OnlyChanges P s₀ t) :
    OnlyChanges P s₀ (State.kick t) := by
  unfold State.kick
  repeat' (first
    | with_reducible assumption
    | with_reducible (refine OnlyChanges.foldl ?_ (fun u a h => ?_))
    | (extract_lets +onlyGivenNames x; first | (refine OnlyChanges.cut x ?_ (fun h => ?_); (on_goal 2 => clear_value x); (on_goal 1 => subst x)) | clear_value x)
    | split
    | with_reducible (refine OnlyChanges.snd ?_)
    | with_reducible (refine OnlyChanges.fst ?_)
    | with_reducible (refine OnlyChanges.hres ?_)
    | ((with_reducible (refine OnlyChanges.upd ?_ (fun p hp => ?_))); on_goal 2 => (cases p <;> first | exact rfl | exact absurd (hP _ (by decide)) hp)))

theorem restartWord_only {P : List Part} {s₀ : State} {x0 : Word} {x1 : BootObs} {t : State} (hP : Within [.sys, .hif, .cyc, .lsp, .cle, .chg, .dpx, .dpx2, .mir, .net, .tim, .can, .canq, .fio, .saf, .tly, .mm, .boot, .pwr, .ret, .cfg, .prog, .regs, .live, .votes, .press, .posted, .outbox, .freeN] P)  (h : OnlyChanges P s₀ t) :
    OnlyChanges P s₀ (State.restartWord x0 x1 t) := by
  unfold State.restartWord
  repeat' (first
    | with_reducible assumption
    | with_reducible (refine seqErr_only (hP.step (by decide)) ?_)
    | with_reducible (refine restart_only (hP.step (by decide)) ?_)
    | with_reducible (refine OnlyChanges.foldl ?_ (fun u a h => ?_))
    | (extract_lets +onlyGivenNames x; first | (refine OnlyChanges.cut x ?_ (fun h => ?_); (on_goal 2 => clear_value x); (on_goal 1 => subst x)) | clear_value x)
    | split
    | with_reducible (refine OnlyChanges.snd ?_)
    | with_reducible (refine OnlyChanges.fst ?_)
    | with_reducible (refine OnlyChanges.hres ?_)
    | ((with_reducible (refine OnlyChanges.upd ?_ (fun p hp => ?_))); on_goal 2 => (cases p <;> first | exact rfl | exact absurd (hP _ (by decide)) hp)))

theorem loadImage_only {P : List Part} {s₀ : State} {x0 : List Byte} {t : State} (hP : Within [.boot] P)  (h : OnlyChanges P s₀ t) :
    OnlyChanges P s₀ (State.loadImage x0 t) := by
  unfold State.loadImage
  repeat' (first
    | with_reducible assumption
    | with_reducible (refine OnlyChanges.foldl ?_ (fun u a h => ?_))
    | (extract_lets +onlyGivenNames x; first | (refine OnlyChanges.cut x ?_ (fun h => ?_); (on_goal 2 => clear_value x); (on_goal 1 => subst x)) | clear_value x)
    | split
    | with_reducible (refine OnlyChanges.snd ?_)
    | with_reducible (refine OnlyChanges.fst ?_)
    | with_reducible (refine OnlyChanges.hres ?_)
    | ((with_reducible (refine OnlyChanges.upd ?_ (fun p hp => ?_))); on_goal 2 => (cases p <;> first | exact rfl | exact absurd (hP _ (by decide)) hp)))

theorem ldWord_only {P : List Part} {s₀ : State} {x0 : Word} {x1 : List Byte} {t : State} (hP : Within [.sys, .tly, .boot] P)  (h : OnlyChanges P s₀ t) :
    OnlyChanges P s₀ (State.ldWord x0 x1 t) := by
  unfold State.ldWord
  repeat' (first
    | with_reducible assumption
    | with_reducible (refine roWr_only (hP.step (by decide)) ?_)
    | with_reducible (refine loadImage_only (hP.step (by decide)) ?_)
    | with_reducible (refine seqErr_only (hP.step (by decide)) ?_)
    | with_reducible (refine OnlyChanges.foldl ?_ (fun u a h => ?_))
    | (extract_lets +onlyGivenNames x; first | (refine OnlyChanges.cut x ?_ (fun h => ?_); (on_goal 2 => clear_value x); (on_goal 1 => subst x)) | clear_value x)
    | split
    | with_reducible (refine OnlyChanges.snd ?_)
    | with_reducible (refine OnlyChanges.fst ?_)
    | with_reducible (refine OnlyChanges.hres ?_)
    | ((with_reducible (refine OnlyChanges.upd ?_ (fun p hp => ?_))); on_goal 2 => (cases p <;> first | exact rfl | exact absurd (hP _ (by decide)) hp)))

theorem hostImage_only {P : List Part} {s₀ : State}  {t : State} (hP : Within [.freeN] P)  (h : OnlyChanges P s₀ t) :
    OnlyChanges P s₀ ((State.hostImage t).2) := by
  unfold State.hostImage
  repeat' (first
    | with_reducible assumption
    | with_reducible (refine OnlyChanges.foldl ?_ (fun u a h => ?_))
    | (extract_lets +onlyGivenNames x; first | (refine OnlyChanges.cut x ?_ (fun h => ?_); (on_goal 2 => clear_value x); (on_goal 1 => subst x)) | clear_value x)
    | split
    | with_reducible (refine OnlyChanges.snd ?_)
    | with_reducible (refine OnlyChanges.fst ?_)
    | with_reducible (refine OnlyChanges.hres ?_)
    | ((with_reducible (refine OnlyChanges.upd ?_ (fun p hp => ?_))); on_goal 2 => (cases p <;> first | exact rfl | exact absurd (hP _ (by decide)) hp)))

theorem trimWrite_only {P : List Part} {s₀ : State} {x0 : Nat} {x1 : Nat} {x2 : Option Int} {t : State} (hP : Within [.fio, .tly, .outbox, .freeN] P)  (h : OnlyChanges P s₀ t) :
    OnlyChanges P s₀ (State.trimWrite x0 x1 x2 t) := by
  have hd : OnlyChanges P s₀ t.draw.2 := draw_only (hP.step (by decide)) h
  unfold State.trimWrite
  have he : OnlyChanges P s₀ (if x2.isSome then ((0 : DWord), t) else t.draw).2 := by
    split
    · exact h
    · exact hd
  generalize (if x2.isSome then ((0 : DWord), t) else t.draw) = e at he ⊢
  obtain ⟨w, d⟩ := e
  dsimp only at he ⊢
  split
  · exact trimOp_only (hP.step (by decide)) (fun u k => capture_only (hP.step (by decide)) k) he
  · exact trimOp_only (hP.step (by decide)) (fun u k => capture_only (hP.step (by decide)) k) he
  · exact trimOp_only (hP.step (by decide)) (fun u k => trimStore_only (hP.step (by decide)) k) h
  · exact trimOp_only (hP.step (by decide)) (fun u k => trimDiscard_only (hP.step (by decide)) k) h
  · exact trimOp_only (hP.step (by decide)) (fun u k => trimFactory_only (hP.step (by decide)) k) h
  · exact trimOp_only (hP.step (by decide)) (fun u k => trimDrive_only (hP.step (by decide)) k) h
  · exact trimOp_only (hP.step (by decide)) (fun u k => trimDrive_only (hP.step (by decide)) k) h
  · exact h

theorem debugWrite_only {P : List Part} {s₀ : State} {x0 : Nat} {x1 : Word} {t : State} (hP : Within [.cyc, .lsp, .tly, .freeN] P)  (h : OnlyChanges P s₀ t) :
    OnlyChanges P s₀ (State.debugWrite x0 x1 t) := by
  unfold State.debugWrite
  repeat' (first
    | with_reducible assumption
    | with_reducible (refine draw_only (hP.step (by decide)) ?_)
    | with_reducible (refine haltCore_only (hP.step (by decide)) ?_)
    | with_reducible (refine stepCore_only (hP.step (by decide)) ?_)
    | with_reducible (refine resumeCore_only (hP.step (by decide)) ?_)
    | with_reducible (refine OnlyChanges.foldl ?_ (fun u a h => ?_))
    | (extract_lets +onlyGivenNames x; first | (refine OnlyChanges.cut x ?_ (fun h => ?_); (on_goal 2 => clear_value x); (on_goal 1 => subst x)) | (refine OnlyChanges.cut x.2 ?_ (fun h => ?_); (on_goal 2 => clear_value x); (on_goal 1 => subst x)) | clear_value x)
    | split
    | with_reducible (refine OnlyChanges.snd ?_)
    | with_reducible (refine OnlyChanges.fst ?_)
    | with_reducible (refine OnlyChanges.hres ?_)
    | ((with_reducible (refine OnlyChanges.upd ?_ (fun p hp => ?_))); on_goal 2 => (cases p <;> first | exact rfl | exact absurd (hP _ (by decide)) hp)))

theorem writeOnly_only {P : List Part} {s₀ : State} {x0 : Nat} {x1 : Word} {x2 : Option Int} {t : State} (hP : Within [.sys, .hif, .cyc, .lsp, .cle, .chg, .dpx, .dpx2, .mir, .net, .tim, .can, .canq, .fio, .saf, .tly, .mm, .boot, .pwr, .ret, .cfg, .prog, .regs, .live, .votes, .press, .posted, .outbox, .freeN] P)  (h : OnlyChanges P s₀ t) :
    OnlyChanges P s₀ (State.writeOnly x0 x1 x2 t) := by
  unfold State.writeOnly
  refine OnlyChanges.ite (restartWord_only (hP.step (by decide)) (drawObs_only (hP.step (by decide)) h)) ?_
  refine OnlyChanges.ite (kick_only (hP.step (by decide)) h) ?_
  refine OnlyChanges.ite (claimWord_only (hP.step (by decide)) (fun u k => replay_only (hP.step (by decide)) k) h) ?_
  refine OnlyChanges.ite (realignWord_only (hP.step (by decide)) h) ?_
  refine OnlyChanges.ite (rearm_only (hP.step (by decide)) h) ?_
  refine OnlyChanges.ite (clrWord_only (hP.step (by decide)) h) ?_
  refine OnlyChanges.ite (ldWord_only (hP.step (by decide)) (hostImage_only (hP.step (by decide)) h)) ?_
  refine OnlyChanges.ite (debugWrite_only (hP.step (by decide)) h) ?_
  refine OnlyChanges.ite ?_ (OnlyChanges.ite (OnlyChanges.ite (canCmd_only (hP.step (by decide)) h) h) (trimWrite_only (hP.step (by decide)) h))
  dsimp only
  split
  · exact updDom_only (hP.step (by decide)) h
  · exact updDom_only (hP.step (by decide)) h
  · exact writeMeas_only (hP.step (by decide)) h

theorem writeNow_only {P : List Part} {s₀ : State} {x0 : Nat} {x1 : Word} {t : State} (hP : Within [.sys, .fio, .saf, .tly, .mm, .regs, .outbox] P)  (h : OnlyChanges P s₀ t) :
    OnlyChanges P s₀ (State.writeNow x0 x1 t) := by
  unfold State.writeNow
  repeat' (first
    | with_reducible assumption
    | with_reducible (refine injWord_only (hP.step (by decide)) ?_)
    | with_reducible (refine lookRecord_only (hP.step (by decide)) ?_)
    | with_reducible (refine hartGo_only (hP.step (by decide)) ?_)
    | with_reducible (refine setReg_only (hP.step (by decide)) ?_)
    | with_reducible (refine OnlyChanges.foldl ?_ (fun u a h => ?_))
    | (extract_lets +onlyGivenNames x; first | (refine OnlyChanges.cut x ?_ (fun h => ?_); (on_goal 2 => clear_value x); (on_goal 1 => subst x)) | clear_value x)
    | split
    | with_reducible (refine OnlyChanges.snd ?_)
    | with_reducible (refine OnlyChanges.fst ?_)
    | with_reducible (refine OnlyChanges.hres ?_)
    | ((with_reducible (refine OnlyChanges.upd ?_ (fun p hp => ?_))); on_goal 2 => (cases p <;> first | exact rfl | exact absurd (hP _ (by decide)) hp)))

theorem writeReg_only {P : List Part} {s₀ : State} {x0 : Nat} {x1 : RegRow} {x2 : Word} {x3 : Option Int} {t : State} (hP : Within [.sys, .hif, .cyc, .lsp, .cle, .chg, .dpx, .dpx2, .mir, .net, .tim, .can, .canq, .fio, .saf, .tly, .mm, .boot, .pwr, .ret, .cfg, .prog, .regs, .live, .votes, .press, .posted, .outbox, .freeN] P)  (h : OnlyChanges P s₀ t) :
    OnlyChanges P s₀ (State.writeReg x0 x1 x2 x3 t) := by
  unfold State.writeReg
  repeat' (first
    | with_reducible assumption
    | with_reducible (refine roWr_only (hP.step (by decide)) ?_)
    | with_reducible (refine writeNow_only (hP.step (by decide)) ?_)
    | with_reducible (refine writeOnly_only (hP.step (by decide)) ?_)
    | with_reducible (refine stageAt_only (hP.step (by decide)) ?_)
    | with_reducible (refine setVote_only (hP.step (by decide)) ?_)
    | with_reducible (refine setReg_only (hP.step (by decide)) ?_)
    | with_reducible (refine goAt_only (hP.step (by decide)) ?_)
    | with_reducible (refine OnlyChanges.foldl ?_ (fun u a h => ?_))
    | (extract_lets +onlyGivenNames x; first | (refine OnlyChanges.cut x ?_ (fun h => ?_); (on_goal 2 => clear_value x); (on_goal 1 => subst x)) | clear_value x)
    | split
    | with_reducible (refine OnlyChanges.snd ?_)
    | with_reducible (refine OnlyChanges.fst ?_)
    | with_reducible (refine OnlyChanges.hres ?_)
    | ((with_reducible (refine OnlyChanges.upd ?_ (fun p hp => ?_))); on_goal 2 => (cases p <;> first | exact rfl | exact absurd (hP _ (by decide)) hp)))

theorem msixWrite_only {P : List Part} {s₀ : State} {x0 : Nat} {x1 : Word} {t : State} (hP : Within [.sys, .hif, .tly, .regs, .outbox] P)  (h : OnlyChanges P s₀ t) :
    OnlyChanges P s₀ (State.msixWrite x0 x1 t) := by
  unfold State.msixWrite
  repeat' (first
    | with_reducible assumption
    | with_reducible (refine roWr_only (hP.step (by decide)) ?_)
    | with_reducible (refine msix_only (hP.step (by decide)) ?_)
    | with_reducible (refine setReg_only (hP.step (by decide)) ?_)
    | with_reducible (refine OnlyChanges.foldl ?_ (fun u a h => ?_))
    | (extract_lets +onlyGivenNames x; first | (refine OnlyChanges.cut x ?_ (fun h => ?_); (on_goal 2 => clear_value x); (on_goal 1 => subst x)) | clear_value x)
    | split
    | with_reducible (refine OnlyChanges.snd ?_)
    | with_reducible (refine OnlyChanges.fst ?_)
    | with_reducible (refine OnlyChanges.hres ?_)
    | ((with_reducible (refine OnlyChanges.upd ?_ (fun p hp => ?_))); on_goal 2 => (cases p <;> first | exact rfl | exact absurd (hP _ (by decide)) hp)))

theorem fullWrite_only {P : List Part} {s₀ : State} {x0 : Ini} {x1 : Nat} {x2 : Word} {t : State} (hP : Within [.sys, .hif, .cyc, .lsp, .cle, .chg, .dpx, .dpx2, .mir, .net, .tim, .can, .canq, .fio, .saf, .tly, .mm, .boot, .pwr, .ret, .cfg, .prog, .regs, .live, .votes, .press, .posted, .outbox, .freeN] P)  (h : OnlyChanges P s₀ t) :
    OnlyChanges P s₀ (State.fullWrite x0 x1 x2 t) := by
  unfold State.fullWrite
  repeat' (first
    | with_reducible assumption
    | with_reducible (refine msixWrite_only (hP.step (by decide)) ?_)
    | with_reducible (refine unassignedWr_only (hP.step (by decide)) ?_)
    | with_reducible (refine roWr_only (hP.step (by decide)) ?_)
    | with_reducible (refine windowWrite_only (hP.step (by decide)) ?_)
    | with_reducible (refine writeReg_only (hP.step (by decide)) ?_)
    | with_reducible (refine postTo_only (hP.step (by decide)) ?_)
    | with_reducible (refine OnlyChanges.foldl ?_ (fun u a h => ?_))
    | (extract_lets +onlyGivenNames x; first | (refine OnlyChanges.cut x ?_ (fun h => ?_); (on_goal 2 => clear_value x); (on_goal 1 => subst x)) | clear_value x)
    | split
    | with_reducible (refine OnlyChanges.snd ?_)
    | with_reducible (refine OnlyChanges.fst ?_)
    | with_reducible (refine OnlyChanges.hres ?_)
    | ((with_reducible (refine OnlyChanges.upd ?_ (fun p hp => ?_))); on_goal 2 => (cases p <;> first | exact rfl | exact absurd (hP _ (by decide)) hp)))

theorem aliasWrite_only {P : List Part} {s₀ : State} {x0 : Ini} {x1 : Nat} {x2 : Nat} {x3 : Bool} {t : State} (hP : Within [.sys, .hif, .cyc, .lsp, .cle, .chg, .dpx, .dpx2, .mir, .net, .tim, .can, .canq, .fio, .saf, .tly, .mm, .boot, .pwr, .ret, .cfg, .prog, .regs, .live, .votes, .press, .posted, .outbox, .freeN] P)  (h : OnlyChanges P s₀ t) :
    OnlyChanges P s₀ (State.aliasWrite x0 x1 x2 x3 t) := by
  unfold State.aliasWrite
  repeat' (first
    | with_reducible assumption
    | with_reducible (refine fullWrite_only (hP.step (by decide)) ?_)
    | with_reducible (refine unassignedWr_only (hP.step (by decide)) ?_)
    | with_reducible (refine roWr_only (hP.step (by decide)) ?_)
    | with_reducible (refine OnlyChanges.foldl ?_ (fun u a h => ?_))
    | (extract_lets +onlyGivenNames x; first | (refine OnlyChanges.cut x ?_ (fun h => ?_); (on_goal 2 => clear_value x); (on_goal 1 => subst x)) | clear_value x)
    | split
    | with_reducible (refine OnlyChanges.snd ?_)
    | with_reducible (refine OnlyChanges.fst ?_)
    | with_reducible (refine OnlyChanges.hres ?_)
    | ((with_reducible (refine OnlyChanges.upd ?_ (fun p hp => ?_))); on_goal 2 => (cases p <;> first | exact rfl | exact absurd (hP _ (by decide)) hp)))

theorem adminPressed_only {P : List Part} {s₀ : State}  {t : State} (hP : Within [.hif, .live, .outbox] P)  (h : OnlyChanges P s₀ t) :
    OnlyChanges P s₀ (State.adminPressed t) := by
  unfold State.adminPressed
  repeat' (first
    | with_reducible assumption
    | with_reducible (refine removeRing_only (hP.step (by decide)) ?_)
    | with_reducible (refine updRing_only (hP.step (by decide)) ?_)
    | with_reducible (refine releaseHeld_only (hP.step (by decide)) ?_)
    | with_reducible (refine OnlyChanges.foldl ?_ (fun u a h => ?_))
    | (extract_lets +onlyGivenNames x; first | (refine OnlyChanges.cut x ?_ (fun h => ?_); (on_goal 2 => clear_value x); (on_goal 1 => subst x)) | clear_value x)
    | split
    | with_reducible (refine OnlyChanges.snd ?_)
    | with_reducible (refine OnlyChanges.fst ?_)
    | with_reducible (refine OnlyChanges.hres ?_)
    | ((with_reducible (refine OnlyChanges.upd ?_ (fun p hp => ?_))); on_goal 2 => (cases p <;> first | exact rfl | exact absurd (hP _ (by decide)) hp)))

theorem afterPress_only {P : List Part} {s₀ : State} {x0 : Nat} {t : State} (hP : Within [.sys, .hif, .dpx2, .fio, .live, .outbox] P)  (h : OnlyChanges P s₀ t) :
    OnlyChanges P s₀ (State.afterPress x0 t) := by
  unfold State.afterPress
  repeat' (first
    | with_reducible assumption
    | with_reducible (refine adminPressed_only (hP.step (by decide)) ?_)
    | with_reducible (refine psCount_only (hP.step (by decide)) ?_)
    | with_reducible (refine updDio_only (hP.step (by decide)) ?_)
    | with_reducible (refine OnlyChanges.foldl ?_ (fun u a h => ?_))
    | (extract_lets +onlyGivenNames x; first | (refine OnlyChanges.cut x ?_ (fun h => ?_); (on_goal 2 => clear_value x); (on_goal 1 => subst x)) | clear_value x)
    | split
    | with_reducible (refine OnlyChanges.snd ?_)
    | with_reducible (refine OnlyChanges.fst ?_)
    | with_reducible (refine OnlyChanges.hres ?_)
    | ((with_reducible (refine OnlyChanges.upd ?_ (fun p hp => ?_))); on_goal 2 => (cases p <;> first | exact rfl | exact absurd (hP _ (by decide)) hp)))

theorem takePress_only {P : List Part} {s₀ : State} {x0 : Nat} {t : State} (hP : Within [.sys, .hif, .dpx2, .fio, .live, .press, .outbox] P)  (h : OnlyChanges P s₀ t) :
    OnlyChanges P s₀ (State.takePress x0 t) := by
  unfold State.takePress
  repeat' (first
    | with_reducible assumption
    | with_reducible (refine updPress_only (hP.step (by decide)) ?_)
    | with_reducible (refine setLive_only (hP.step (by decide)) ?_)
    | with_reducible (refine afterPress_only (hP.step (by decide)) ?_)
    | with_reducible (refine OnlyChanges.foldl ?_ (fun u a h => ?_))
    | (extract_lets +onlyGivenNames x; first | (refine OnlyChanges.cut x ?_ (fun h => ?_); (on_goal 2 => clear_value x); (on_goal 1 => subst x)) | clear_value x)
    | split
    | with_reducible (refine OnlyChanges.snd ?_)
    | with_reducible (refine OnlyChanges.fst ?_)
    | with_reducible (refine OnlyChanges.hres ?_)
    | ((with_reducible (refine OnlyChanges.upd ?_ (fun p hp => ?_))); on_goal 2 => (cases p <;> first | exact rfl | exact absurd (hP _ (by decide)) hp)))

theorem takeLoopPress_only {P : List Part} {s₀ : State} {x0 : Nat} {t : State} (hP : Within [.sys, .hif, .cle, .dpx, .dpx2, .tly, .outbox] P)  (h : OnlyChanges P s₀ t) :
    OnlyChanges P s₀ (State.takeLoopPress x0 t) := by
  unfold State.takeLoopPress
  repeat' (first
    | with_reducible assumption
    | with_reducible (refine updLoop_only (hP.step (by decide)) ?_)
    | with_reducible (refine sendGroup_only (hP.step (by decide)) ?_)
    | with_reducible (refine OnlyChanges.foldl ?_ (fun u a h => ?_))
    | (extract_lets +onlyGivenNames x; first | (refine OnlyChanges.cut x ?_ (fun h => ?_); (on_goal 2 => clear_value x); (on_goal 1 => subst x)) | clear_value x)
    | split
    | with_reducible (refine OnlyChanges.snd ?_)
    | with_reducible (refine OnlyChanges.fst ?_)
    | with_reducible (refine OnlyChanges.hres ?_)
    | ((with_reducible (refine OnlyChanges.upd ?_ (fun p hp => ?_))); on_goal 2 => (cases p <;> first | exact rfl | exact absurd (hP _ (by decide)) hp)))

theorem voteOne_only {P : List Part} {s₀ : State} {x0 : Nat} {t : State} (hP : Within [.sys, .tly, .votes] P)  (h : OnlyChanges P s₀ t) :
    OnlyChanges P s₀ (State.voteOne x0 t) := by
  unfold State.voteOne
  repeat' (first
    | with_reducible assumption
    | with_reducible (refine setVote_only (hP.step (by decide)) ?_)
    | with_reducible (refine log_only (hP.step (by decide)) ?_)
    | with_reducible (refine OnlyChanges.foldl ?_ (fun u a h => ?_))
    | (extract_lets +onlyGivenNames x; first | (refine OnlyChanges.cut x ?_ (fun h => ?_); (on_goal 2 => clear_value x); (on_goal 1 => subst x)) | clear_value x)
    | split
    | with_reducible (refine OnlyChanges.snd ?_)
    | with_reducible (refine OnlyChanges.fst ?_)
    | with_reducible (refine OnlyChanges.hres ?_)
    | ((with_reducible (refine OnlyChanges.upd ?_ (fun p hp => ?_))); on_goal 2 => (cases p <;> first | exact rfl | exact absurd (hP _ (by decide)) hp)))

theorem checkParity_only {P : List Part} {s₀ : State} {x0 : Nat} {t : State} (hP : Within [.sys, .hif, .cyc, .lsp, .cle, .chg, .dpx, .dpx2, .mir, .net, .tim, .can, .canq, .fio, .saf, .tly, .mm, .boot, .pwr, .ret, .cfg, .prog, .regs, .live, .votes, .press, .posted, .outbox, .freeN] P)  (h : OnlyChanges P s₀ t) :
    OnlyChanges P s₀ (State.checkParity x0 t) := by
  unfold State.checkParity
  repeat' (first
    | with_reducible assumption
    | with_reducible (refine parityTrip_only (hP.step (by decide)) ?_)
    | with_reducible (refine OnlyChanges.foldl ?_ (fun u a h => ?_))
    | (extract_lets +onlyGivenNames x; first | (refine OnlyChanges.cut x ?_ (fun h => ?_); (on_goal 2 => clear_value x); (on_goal 1 => subst x)) | clear_value x)
    | split
    | with_reducible (refine OnlyChanges.snd ?_)
    | with_reducible (refine OnlyChanges.fst ?_)
    | with_reducible (refine OnlyChanges.hres ?_)
    | ((with_reducible (refine OnlyChanges.upd ?_ (fun p hp => ?_))); on_goal 2 => (cases p <;> first | exact rfl | exact absurd (hP _ (by decide)) hp)))

theorem areaWritten_only {P : List Part} {s₀ : State} {x0 : Area} {t : State} (hP : Within [.hif, .tly, .boot, .outbox] P)  (h : OnlyChanges P s₀ t) :
    OnlyChanges P s₀ (State.areaWritten x0 t) := by
  unfold State.areaWritten
  repeat' (first
    | with_reducible assumption
    | with_reducible (refine updBoot_only (hP.step (by decide)) ?_)
    | with_reducible (refine journal_only (hP.step (by decide)) ?_)
    | with_reducible (refine finishWaiting_only (hP.step (by decide)) ?_)
    | with_reducible (refine OnlyChanges.foldl ?_ (fun u a h => ?_))
    | (extract_lets +onlyGivenNames x; first | (refine OnlyChanges.cut x ?_ (fun h => ?_); (on_goal 2 => clear_value x); (on_goal 1 => subst x)) | clear_value x)
    | split
    | with_reducible (refine OnlyChanges.snd ?_)
    | with_reducible (refine OnlyChanges.fst ?_)
    | with_reducible (refine OnlyChanges.hres ?_)
    | ((with_reducible (refine OnlyChanges.upd ?_ (fun p hp => ?_))); on_goal 2 => (cases p <;> first | exact rfl | exact absurd (hP _ (by decide)) hp)))

theorem bankLoaded_only {P : List Part} {s₀ : State} {x0 : BootObs} {t : State} (hP : Within [.sys, .hif, .cyc, .lsp, .cle, .chg, .dpx, .dpx2, .mir, .net, .tim, .can, .canq, .fio, .saf, .tly, .mm, .boot, .pwr, .ret, .cfg, .prog, .regs, .live, .votes, .press, .posted, .outbox, .freeN] P)  (h : OnlyChanges P s₀ t) :
    OnlyChanges P s₀ (State.bankLoaded x0 t) := by
  unfold State.bankLoaded
  repeat' (first
    | with_reducible assumption
    | with_reducible (refine restart_only (hP.step (by decide)) ?_)
    | with_reducible (refine OnlyChanges.foldl ?_ (fun u a h => ?_))
    | (extract_lets +onlyGivenNames x; first | (refine OnlyChanges.cut x ?_ (fun h => ?_); (on_goal 2 => clear_value x); (on_goal 1 => subst x)) | clear_value x)
    | split
    | with_reducible (refine OnlyChanges.snd ?_)
    | with_reducible (refine OnlyChanges.fst ?_)
    | with_reducible (refine OnlyChanges.hres ?_)
    | ((with_reducible (refine OnlyChanges.upd ?_ (fun p hp => ?_))); on_goal 2 => (cases p <;> first | exact rfl | exact absurd (hP _ (by decide)) hp)))

end Sys2Proof.Laws
end

