-- ==== Sys2Proof/Laws/OnlyNetExec.lean ====
section
/-! SUPPORT. What each operation of NetExec.lean may change: one frame per operation. -/

set_option linter.unusedTactic false
set_option linter.unreachableTactic false
set_option linter.unusedVariables false
set_option linter.tactic.unusedName false

namespace Sys2Proof.Laws

open Sys2Proof.Machine Sys2Proof.Safety

theorem carryPdus_only {P : List Part} {s₀ : State} {x0 : Nat} {x1 : Nat} {x2 : List Byte} {t : State} (hP : Within [.saf] P)  (h : OnlyChanges P s₀ t) :
    OnlyChanges P s₀ ((State.carryPdus x0 x1 x2 t).2) := by
  unfold State.carryPdus
  split
  · exact h
  rename_i c
  clear c
  generalize t.cfg.wsc.filter _ = l
  induction l generalizing x2 t with
  | nil => exact h
  | cons e l ih =>
    rw [List.foldl_cons]
    exact ih (wscSend_only (hP.step (by decide)) h)

theorem sendOutput_only {P : List Part} {s₀ : State} {x0 : Nat} {x1 : Bool} {x2 : List Byte} {t : State} (hP : Within [.net, .saf, .outbox] P)  (h : OnlyChanges P s₀ t) :
    OnlyChanges P s₀ (State.sendOutput x0 x1 x2 t) := by
  unfold State.sendOutput
  repeat' (first
    | with_reducible assumption
    | with_reducible (refine carryPdus_only (hP.step (by decide)) ?_)
    | with_reducible (refine sendIn_only (hP.step (by decide)) ?_)
    | with_reducible (refine OnlyChanges.foldl ?_ (fun u a h => ?_))
    | (extract_lets +onlyGivenNames x; first | (refine OnlyChanges.cut x ?_ (fun h => ?_); (on_goal 2 => clear_value x); (on_goal 1 => subst x)) | (refine OnlyChanges.cut x.2 ?_ (fun h => ?_); (on_goal 2 => clear_value x); (on_goal 1 => subst x)) | clear_value x)
    | (generalize he : State.carryPdus _ _ _ _ = e; have k : OnlyChanges P s₀ e.2 := (by rw [← he]; refine carryPdus_only (hP.step (by decide)) ?_ <;> with_reducible assumption); clear he; obtain ⟨a, u⟩ := e; dsimp -zeta only at k ⊢)
    | split
    | with_reducible (refine OnlyChanges.snd ?_)
    | with_reducible (refine OnlyChanges.fst ?_)
    | with_reducible (refine OnlyChanges.hres ?_)
    | ((with_reducible (refine OnlyChanges.upd ?_ (fun p hp => ?_))); on_goal 2 => (cases p <;> first | exact rfl | exact absurd (hP _ (by decide)) hp)))

theorem launchOutput_only {P : List Part} {s₀ : State} {x0 : Nat} {t : State} (hP : Within [.sys, .hif, .cyc, .lsp, .cle, .chg, .dpx, .dpx2, .mir, .net, .tim, .can, .canq, .fio, .saf, .tly, .mm, .boot, .pwr, .cfg, .prog, .regs, .live, .votes, .press, .posted, .outbox] P)  (h : OnlyChanges P s₀ t) :
    OnlyChanges P s₀ (State.launchOutput x0 t) := by
  unfold State.launchOutput
  repeat' (first
    | with_reducible assumption
    | with_reducible (refine shutdown_only (hP.step (by decide)) ?_)
    | with_reducible (refine takeover_only (hP.step (by decide)) ?_)
    | with_reducible (refine sendOutput_only (hP.step (by decide)) ?_)
    | with_reducible (refine updStn_only (hP.step (by decide)) ?_)
    | with_reducible (refine OnlyChanges.foldl ?_ (fun u a h => ?_))
    | (extract_lets +onlyGivenNames x; first | (refine OnlyChanges.cut x ?_ (fun h => ?_); (on_goal 2 => clear_value x); (on_goal 1 => subst x)) | clear_value x)
    | split
    | with_reducible (refine OnlyChanges.snd ?_)
    | with_reducible (refine OnlyChanges.fst ?_)
    | with_reducible (refine OnlyChanges.hres ?_)
    | ((with_reducible (refine OnlyChanges.upd ?_ (fun p hp => ?_))); on_goal 2 => (cases p <;> first | exact rfl | exact absurd (hP _ (by decide)) hp)))

theorem launchLoopOut_only {P : List Part} {s₀ : State} {x0 : Nat} {x1 : Nat} {t : State} (hP : Within [.sys, .hif, .cyc, .lsp, .cle, .chg, .dpx, .dpx2, .mir, .net, .tim, .can, .canq, .fio, .saf, .tly, .mm, .boot, .pwr, .ret, .cfg, .prog, .regs, .live, .votes, .press, .posted, .outbox, .freeN] P)  (h : OnlyChanges P s₀ t) :
    OnlyChanges P s₀ (State.launchLoopOut x0 x1 t) := by
  unfold State.launchLoopOut
  repeat' (first
    | with_reducible assumption
    | with_reducible (refine creaseOut_only (hP.step (by decide)) ?_)
    | with_reducible (refine sendIn_only (hP.step (by decide)) ?_)
    | with_reducible (refine OnlyChanges.foldl ?_ (fun u a h => ?_))
    | (extract_lets +onlyGivenNames x; first | (refine OnlyChanges.cut x ?_ (fun h => ?_); (on_goal 2 => clear_value x); (on_goal 1 => subst x)) | (refine OnlyChanges.cut x.2 ?_ (fun h => ?_); (on_goal 2 => clear_value x); (on_goal 1 => subst x)) | clear_value x)
    | (generalize he : State.creaseOut _ _ = e; have k : OnlyChanges P s₀ e.2 := (by rw [← he]; refine creaseOut_only (hP.step (by decide)) ?_ <;> with_reducible assumption); clear he; obtain ⟨a, u⟩ := e; dsimp -zeta only at k ⊢)
    | split
    | with_reducible (refine OnlyChanges.snd ?_)
    | with_reducible (refine OnlyChanges.fst ?_)
    | with_reducible (refine OnlyChanges.hres ?_)
    | ((with_reducible (refine OnlyChanges.upd ?_ (fun p hp => ?_))); on_goal 2 => (cases p <;> first | exact rfl | exact absurd (hP _ (by decide)) hp)))

theorem launchPub_only {P : List Part} {s₀ : State} {x0 : Nat} {t : State} (hP : Within [.net, .saf, .outbox] P)  (h : OnlyChanges P s₀ t) :
    OnlyChanges P s₀ (State.launchPub x0 t) := by
  unfold State.launchPub
  repeat' (first
    | with_reducible assumption
    | with_reducible (refine carryPdus_only (hP.step (by decide)) ?_)
    | with_reducible (refine sendIn_only (hP.step (by decide)) ?_)
    | with_reducible (refine OnlyChanges.foldl ?_ (fun u a h => ?_))
    | (extract_lets +onlyGivenNames x; first | (refine OnlyChanges.cut x ?_ (fun h => ?_); (on_goal 2 => clear_value x); (on_goal 1 => subst x)) | (refine OnlyChanges.cut x.2 ?_ (fun h => ?_); (on_goal 2 => clear_value x); (on_goal 1 => subst x)) | clear_value x)
    | (generalize he : State.carryPdus _ _ _ _ = e; have k : OnlyChanges P s₀ e.2 := (by rw [← he]; refine carryPdus_only (hP.step (by decide)) ?_ <;> with_reducible assumption); clear he; obtain ⟨a, u⟩ := e; dsimp -zeta only at k ⊢)
    | split
    | with_reducible (refine OnlyChanges.snd ?_)
    | with_reducible (refine OnlyChanges.fst ?_)
    | with_reducible (refine OnlyChanges.hres ?_)
    | ((with_reducible (refine OnlyChanges.upd ?_ (fun p hp => ?_))); on_goal 2 => (cases p <;> first | exact rfl | exact absurd (hP _ (by decide)) hp)))

end Sys2Proof.Laws
end

