-- ==== Sys2Proof/WellFormed.lean ====
section
/-! DEFINITION. The commands that the outside can form: operands within the widths and numbers of spec/. -/

namespace Sys2Proof

/-- A submission entry: a ring slot of spec/04_host_rings.md Table 4.3, and a payload of DLEN bytes where it was read. -/
def Hcmd.wf (h : Hcmd) : Bool := decide (h.slot < 17) && (!h.fetchOk || decide (h.payload.length = h.dlen.toNat))

/-- A record of the baste link (spec/09_duplex_pair.md Table 9.13, R238). -/
def BRec.wf (r : BRec) : Bool := decide (r.type < 2 ^ 16) && decide (r.fmt < 2 ^ 8) && decide (r.payload.length ≤ 65536)

/-- A KCP frame: a port of spec/10_io_network.md Table 10.1 and the payload length of Table 10.3. -/
def Kcp.wf (f : Kcp) : Bool :=
  decide (f.port < 7) && decide (f.payload.length ≤ if f.port < 4 then 1474 else 9148)

/-- A CAN frame (spec/12_can.md R331). -/
def CanEnt.wf (e : CanEnt) : Bool := decide (e.data.length ≤ 2048)

/-- What a program stored: the private areas of spec/06_lockstep_and_darn.md R162. -/
def Work.wf (w : Work) : Bool := w.priv.all fun x => decide (x.area < 3)

/-- A word of BAR0 (spec/03_register_conventions.md R62). -/
def offWf (off : Nat) : Bool := decide (off < 2 ^ 24) && decide (off % 4 = 0)

/-- An initiator: one of the four AP pairs. -/
def Ini.wf : Ini → Bool
  | .app p => decide (p < 4)
  | .dbg p => decide (p < 4)
  | _ => true

/-- Where a double error of MRAM lies: a Tally slot of either region, a journal slot, a key-store word. -/
def MramErr.wf : MramErr → Bool
  | .keyStore o => decide (o % 4 = 0)
  | _ => true

/-- What a start finds: devices and stations that exist (spec/16_memory_integrity.md R425, spec/10_io_network.md R272). -/
def BootObs.wf (o : BootObs) : Bool :=
  o.trainFail.all (fun d => decide (d < 18)) && (o.stnsIn.all fun i => decide (i < 1024)) && o.mramBad.all MramErr.wf

/-- A failed access to host memory, for a ring that exists. -/
def HostErr.wf : HostErr → Bool
  | .entry n => decide (n < 17)
  | .payload h => h.wf
  | .returned h => h.wf
  | .completion h => h.wf
  | .event => true

/-- The command is well formed. -/
def Instr.wf : Instr → Bool
  | .powerGood o => o.wf
  | .sysRestart _ o => o.wf
  | .areaWriteComplete _ o => o.wf
  | .modeSetIdleExit h o => h.wf && o.wf
  | .restart h o => h.wf && o.wf
  | .registerWrite i o _ _ => i.wf && offWf o
  | .bitAliasWrite i o _ _ => i.wf && decide (o < 2 ^ 25) && decide (o % 4 = 0)
  | .pressGo i o => i.wf && offWf o
  | .pressApply o => offWf o
  | .postedWriteDone o => offWf o
  | .postedBlockFailed o => offWf o
  | .voteSweep u => u.all fun e => offWf e.1 && decide (e.2.1 < 3)
  | .paritySweep u => u.all offWf
  | .submissionDoorbell w _ _ => decide (w.page < 256) && decide (w.off < 0x1000 ∧ w.off % 4 = 0)
  | .completionDoorbell p _ _ => decide (p < 256)
  | .interruptCoalesceTimeout n => decide (n < 17)
  | .hostMemoryError e => e.wf
  | .nop h | .identify h | .ringCreate h | .ringDelete h | .eventCreate h | .eventDelete h | .modeSetRun h | .modeSetStop h
  | .modeSetCommission h | .modeSetTest h | .modeSetHold h | .modeSetHoldExit h | .modeSetIdleLink h | .roleExchange h
  | .imageWrite h | .imageVerify h | .activateSwitch h | .activateConfirm h | .activateCancel h | .configReturn h
  | .attestQuote h | .tallyClear h | .nopCommand h | .varRead h | .varWrite h | .forceSet h | .forceClear h | .loopRead h
  | .loopWrite h | .tallyRead h | .programLoadChange h | .programLoadReturn h | .programLoadStatus h => h.wf
  | .classBoundary _ _ w | .outputCommit _ w _ | .intervalCheckpoint _ w | .earlyCheckpoint _ w _ | .comparatorMismatch _ _ w
  | .dbgHalt _ _ w | .dbgStep _ _ w | .breakpointHit _ _ w => w.wf
  | .loopPhase0 n | .loopStep n _ | .loopCrease n => decide (n < 4096)
  | .loopCmdRearm _ i | .loopCmdManual _ i | .loopCmdAuto _ i | .canCmdRecover _ i => i.wf
  | .ack r | .hostwork r | .lines r | .commitEnd r | .loopState r | .loopGroup r | .tallyHdrs r | .versions r | .window r
  | .image r | .noticeFailure r | .noticeHalt r | .noticeHandover r | .noticeHandback r | .noticeRingAbsent r
  | .noticeProofFail r | .noticeCutIn r | .noticeReady r | .noticeCheckFailed r => r.wf
  | .beacon f | .input f | .loopIn f | .paramAck f | .peer f => f.wf
  | .mgmt f _ => f.wf
  | .outputLaunch i | .loopOutLaunch i _ | .paramRetry i | .paramPeriodic i => decide (i < 1024)
  | .peerLaunch i => decide (i < 64)
  | .peerTimeout i => decide (i < 256)
  | .canFrameReceived _ e _ => e.wf
  | .wscPduReceive _ pdu _ => decide (pdu.length ≤ 58)
  | .hartBurstMessage _ b => decide (b.length ≤ 255)
  | .mramScrub _ e => e.all MramErr.wf
  | .correctedWriteBack l => decide (l < 2 ^ 28)
  | .pcieConfigRequest | .tamperLatchSet _ | .vretLost | .pfailSet | .pfailClear _ | .inputLost | .holdUpSpent
  | .feedRangeChange _ _ _ | .railFault _ _ | .temperatureSample _ _ | .overtemperature | .hkWatchdogExpiry
  | .engineWatchdogExpiry _ | .clockFault | .optimeSave | .vretMeasurement _ | .slotPresenceLost | .sysHlwKick _
  | .hostLivenessExpiry | .pcieReset | .msixUnmask _ | .windowEntryFlush | .mirrorAckTimeout _ | .softBudgetExpiry _
  | .hardLimitExpiry _ | .checkpointSeal _ | .darnRestoreEnd _ _ | .restoreTimeout _ | .knownAnswerRun _ | .dbgResume _
  | .minorFrameStart _ | .exchangeInstant | .packageStoreDone | .standbyReadyTimeout | .heartbeatSend _ | .heartbeat _ _
  | .heartbeatMissed _ | .rseqGapTimeout | .tallyHdrsSend | .initialSyncStart | .cutIn | .syncAbandon | .handoverBoundary
  | .proofSwapDue | .proofWindowEnd | .partnerSearchTimeout | .absentWaitExpiry | .dpxClaim _ | .linkChange _ _ _ _ _
  | .beaconSlot | .eliminationHistoryReset _ | .syncMeasurement _ _ _ | .timDomMeas _ _ | .clockSet | .domainHoldover _
  | .holdoverTimeout _ | .revertTimer | .timRealign _ | .txTimestamp _ _ _ | .launchLate _ | .captureEdge _ _ _ | .toutEdge
  | .protocolException _ _ | .txqPoll _ | .attemptStart _ | .attemptEnd _ _ | .canError _ _ _ _ _ | .busOffRecoveryDone _
  | .diFilterChange _ _ | .localApply _ _ | .rberrOnset _ | .dioTrip _ _ | .dioRetry _ | .retriesReset _ | .fioDioRearm _
  | .feedLost _ _ | .feedReturn _ | .aiConversion _ _ _ _ | .aoComply _ _ | .aoOpen _ _ | .aoConditionClear _ _ | .pwrLim _ _
  | .strapChange _ _ | .captLo _ _ | .captHi _ _ | .store _ | .discard _ | .factory _ | .driveLo _ | .driveHi _ | .hartPoll _
  | .hartHctlGo _ | .hartTransactionEnd _ _ _ | .selvedgeSample _ _ | .discrepancy _ | .resetStuck | .spCycle _ | .testPulse _
  | .outFault _ | .darkTest _ _ | .overcurrent _ | .supply _ | .agree _ | .selvedgeChallenge _ | .wscDeadline _ | .tallyWrite
  | .tlyRdseq _ | .tlyClrkey _ | .rinseRead _ _ _ _ _ | .sramSweep _ _ _ | .memInjArm | .bootLdKey _ _
  | .warmSwitch | .scheduledSwitch | .settleEnd _ | .autoConfirm | .holdupOkChange _ | .ptpMessage _ _ _ _ _ _
  | .ptpTransmit _ _ _ | .ringStartupTimeout => true

end Sys2Proof
end

