-- ==== Sys2Proof/Laws/PerInstr.lean ====
section
/-! SUPPORT. The catalogue of commands: what well-formedness says of the ring entry a command carries, command by command. -/

namespace Sys2Proof.Laws.Catalogue

/-- The submission entry that a ring command carries. -/
def ringEntry : Instr → Option Hcmd
  | .nop h => some h
  | .identify h => some h
  | .ringCreate h => some h
  | .ringDelete h => some h
  | .eventCreate h => some h
  | .eventDelete h => some h
  | .modeSetRun h => some h
  | .modeSetStop h => some h
  | .modeSetCommission h => some h
  | .modeSetTest h => some h
  | .modeSetHold h => some h
  | .modeSetHoldExit h => some h
  | .modeSetIdleLink h => some h
  | .modeSetIdleExit h _ => some h
  | .roleExchange h => some h
  | .restart h _ => some h
  | .imageWrite h => some h
  | .imageVerify h => some h
  | .activateSwitch h => some h
  | .activateConfirm h => some h
  | .activateCancel h => some h
  | .configReturn h => some h
  | .attestQuote h => some h
  | .tallyClear h => some h
  | .nopCommand h => some h
  | .varRead h => some h
  | .varWrite h => some h
  | .forceSet h => some h
  | .forceClear h => some h
  | .loopRead h => some h
  | .loopWrite h => some h
  | .tallyRead h => some h
  | .programLoadChange h => some h
  | .programLoadReturn h => some h
  | .programLoadStatus h => some h
  | _ => none

/-- A well-formed ring command names one of the 17 rings, and its payload, where it was read, has the length DLEN gives. -/
def Statement (i : Instr) : Prop :=
  i.wf = true → ∀ h, ringEntry i = some h → h.slot < 17 ∧ (h.fetchOk = true → h.payload.length = h.dlen.toNat)

theorem entry_fits {h : Hcmd} (w : h.wf = true) : h.slot < 17 ∧ (h.fetchOk = true → h.payload.length = h.dlen.toNat) := by
  unfold Hcmd.wf at w
  cases hf : h.fetchOk <;> simp_all

theorem powerGood (x0 : BootObs) : Statement (.powerGood x0) := fun _ _ e => nomatch e
theorem pcieConfigRequest : Statement (.pcieConfigRequest) := fun _ _ e => nomatch e
theorem tamperLatchSet (x0 : Bool) : Statement (.tamperLatchSet x0) := fun _ _ e => nomatch e
theorem vretLost : Statement (.vretLost) := fun _ _ e => nomatch e
theorem pfailSet : Statement (.pfailSet) := fun _ _ e => nomatch e
theorem pfailClear (x0 : BitVec 16) : Statement (.pfailClear x0) := fun _ _ e => nomatch e
theorem inputLost : Statement (.inputLost) := fun _ _ e => nomatch e
theorem holdUpSpent : Statement (.holdUpSpent) := fun _ _ e => nomatch e
theorem feedRangeChange (x0 : Bool) (x1 : Bool) (x2 : BitVec 16) : Statement (.feedRangeChange x0 x1 x2) := fun _ _ e => nomatch e
theorem railFault (x0 : Fin 7) (x1 : Word) : Statement (.railFault x0 x1) := fun _ _ e => nomatch e
theorem temperatureSample (x0 : BitVec 16) (x1 : BitVec 16) : Statement (.temperatureSample x0 x1) := fun _ _ e => nomatch e
theorem overtemperature : Statement (.overtemperature) := fun _ _ e => nomatch e
theorem hkWatchdogExpiry : Statement (.hkWatchdogExpiry) := fun _ _ e => nomatch e
theorem engineWatchdogExpiry (x0 : Fin 8) : Statement (.engineWatchdogExpiry x0) := fun _ _ e => nomatch e
theorem clockFault : Statement (.clockFault) := fun _ _ e => nomatch e
theorem optimeSave : Statement (.optimeSave) := fun _ _ e => nomatch e
theorem vretMeasurement (x0 : BitVec 16) : Statement (.vretMeasurement x0) := fun _ _ e => nomatch e
theorem slotPresenceLost : Statement (.slotPresenceLost) := fun _ _ e => nomatch e
theorem registerWrite (x0 : Ini) (x1 : Nat) (x2 : Word) (x3 : BitVec 4) : Statement (.registerWrite x0 x1 x2 x3) := fun _ _ e => nomatch e
theorem bitAliasWrite (x0 : Ini) (x1 : Nat) (x2 : Word) (x3 : BitVec 4) : Statement (.bitAliasWrite x0 x1 x2 x3) := fun _ _ e => nomatch e
theorem postedWriteDone (x0 : Nat) : Statement (.postedWriteDone x0) := fun _ _ e => nomatch e
theorem postedBlockFailed (x0 : Nat) : Statement (.postedBlockFailed x0) := fun _ _ e => nomatch e
theorem pressGo (x0 : Ini) (x1 : Nat) : Statement (.pressGo x0 x1) := fun _ _ e => nomatch e
theorem pressApply (x0 : Nat) : Statement (.pressApply x0) := fun _ _ e => nomatch e
theorem voteSweep (x0 : List (Nat × Nat × Word)) : Statement (.voteSweep x0) := fun _ _ e => nomatch e
theorem paritySweep (x0 : List Nat) : Statement (.paritySweep x0) := fun _ _ e => nomatch e
theorem sysHlwKick (x0 : Word) : Statement (.sysHlwKick x0) := fun _ _ e => nomatch e
theorem hostLivenessExpiry : Statement (.hostLivenessExpiry) := fun _ _ e => nomatch e
theorem sysRestart (x0 : Word) (x1 : BootObs) : Statement (.sysRestart x0 x1) := fun _ _ e => nomatch e
theorem pcieReset : Statement (.pcieReset) := fun _ _ e => nomatch e
theorem submissionDoorbell (x0 : DbWord) (x1 : Word) (x2 : BitVec 4) : Statement (.submissionDoorbell x0 x1 x2) := fun _ _ e => nomatch e
theorem completionDoorbell (x0 : Nat) (x1 : Word) (x2 : BitVec 4) : Statement (.completionDoorbell x0 x1 x2) := fun _ _ e => nomatch e
theorem msixUnmask (x0 : Fin 64) : Statement (.msixUnmask x0) := fun _ _ e => nomatch e
theorem interruptCoalesceTimeout (x0 : Nat) : Statement (.interruptCoalesceTimeout x0) := fun _ _ e => nomatch e
theorem hostMemoryError (x0 : HostErr) : Statement (.hostMemoryError x0) := fun _ _ e => nomatch e
theorem windowEntryFlush : Statement (.windowEntryFlush) := fun _ _ e => nomatch e
theorem mirrorAckTimeout (x0 : DWord) : Statement (.mirrorAckTimeout x0) := fun _ _ e => nomatch e
theorem nop (x0 : Hcmd) : Statement (.nop x0) := by
  intro w h e
  cases e
  exact entry_fits (w)
theorem identify (x0 : Hcmd) : Statement (.identify x0) := by
  intro w h e
  cases e
  exact entry_fits (w)
theorem ringCreate (x0 : Hcmd) : Statement (.ringCreate x0) := by
  intro w h e
  cases e
  exact entry_fits (w)
theorem ringDelete (x0 : Hcmd) : Statement (.ringDelete x0) := by
  intro w h e
  cases e
  exact entry_fits (w)
theorem eventCreate (x0 : Hcmd) : Statement (.eventCreate x0) := by
  intro w h e
  cases e
  exact entry_fits (w)
theorem eventDelete (x0 : Hcmd) : Statement (.eventDelete x0) := by
  intro w h e
  cases e
  exact entry_fits (w)
theorem modeSetRun (x0 : Hcmd) : Statement (.modeSetRun x0) := by
  intro w h e
  cases e
  exact entry_fits (w)
theorem modeSetStop (x0 : Hcmd) : Statement (.modeSetStop x0) := by
  intro w h e
  cases e
  exact entry_fits (w)
theorem modeSetCommission (x0 : Hcmd) : Statement (.modeSetCommission x0) := by
  intro w h e
  cases e
  exact entry_fits (w)
theorem modeSetTest (x0 : Hcmd) : Statement (.modeSetTest x0) := by
  intro w h e
  cases e
  exact entry_fits (w)
theorem modeSetHold (x0 : Hcmd) : Statement (.modeSetHold x0) := by
  intro w h e
  cases e
  exact entry_fits (w)
theorem modeSetHoldExit (x0 : Hcmd) : Statement (.modeSetHoldExit x0) := by
  intro w h e
  cases e
  exact entry_fits (w)
theorem modeSetIdleLink (x0 : Hcmd) : Statement (.modeSetIdleLink x0) := by
  intro w h e
  cases e
  exact entry_fits (w)
theorem modeSetIdleExit (x0 : Hcmd) (x1 : BootObs) : Statement (.modeSetIdleExit x0 x1) := by
  intro w h e
  cases e
  exact entry_fits ((Bool.and_eq_true _ _ ▸ w : _ ∧ _).1)
theorem roleExchange (x0 : Hcmd) : Statement (.roleExchange x0) := by
  intro w h e
  cases e
  exact entry_fits (w)
theorem restart (x0 : Hcmd) (x1 : BootObs) : Statement (.restart x0 x1) := by
  intro w h e
  cases e
  exact entry_fits ((Bool.and_eq_true _ _ ▸ w : _ ∧ _).1)
theorem imageWrite (x0 : Hcmd) : Statement (.imageWrite x0) := by
  intro w h e
  cases e
  exact entry_fits (w)
theorem imageVerify (x0 : Hcmd) : Statement (.imageVerify x0) := by
  intro w h e
  cases e
  exact entry_fits (w)
theorem activateSwitch (x0 : Hcmd) : Statement (.activateSwitch x0) := by
  intro w h e
  cases e
  exact entry_fits (w)
theorem activateConfirm (x0 : Hcmd) : Statement (.activateConfirm x0) := by
  intro w h e
  cases e
  exact entry_fits (w)
theorem activateCancel (x0 : Hcmd) : Statement (.activateCancel x0) := by
  intro w h e
  cases e
  exact entry_fits (w)
theorem configReturn (x0 : Hcmd) : Statement (.configReturn x0) := by
  intro w h e
  cases e
  exact entry_fits (w)
theorem attestQuote (x0 : Hcmd) : Statement (.attestQuote x0) := by
  intro w h e
  cases e
  exact entry_fits (w)
theorem tallyClear (x0 : Hcmd) : Statement (.tallyClear x0) := by
  intro w h e
  cases e
  exact entry_fits (w)
theorem nopCommand (x0 : Hcmd) : Statement (.nopCommand x0) := by
  intro w h e
  cases e
  exact entry_fits (w)
theorem varRead (x0 : Hcmd) : Statement (.varRead x0) := by
  intro w h e
  cases e
  exact entry_fits (w)
theorem varWrite (x0 : Hcmd) : Statement (.varWrite x0) := by
  intro w h e
  cases e
  exact entry_fits (w)
theorem forceSet (x0 : Hcmd) : Statement (.forceSet x0) := by
  intro w h e
  cases e
  exact entry_fits (w)
theorem forceClear (x0 : Hcmd) : Statement (.forceClear x0) := by
  intro w h e
  cases e
  exact entry_fits (w)
theorem loopRead (x0 : Hcmd) : Statement (.loopRead x0) := by
  intro w h e
  cases e
  exact entry_fits (w)
theorem loopWrite (x0 : Hcmd) : Statement (.loopWrite x0) := by
  intro w h e
  cases e
  exact entry_fits (w)
theorem tallyRead (x0 : Hcmd) : Statement (.tallyRead x0) := by
  intro w h e
  cases e
  exact entry_fits (w)
theorem programLoadChange (x0 : Hcmd) : Statement (.programLoadChange x0) := by
  intro w h e
  cases e
  exact entry_fits (w)
theorem programLoadReturn (x0 : Hcmd) : Statement (.programLoadReturn x0) := by
  intro w h e
  cases e
  exact entry_fits (w)
theorem programLoadStatus (x0 : Hcmd) : Statement (.programLoadStatus x0) := by
  intro w h e
  cases e
  exact entry_fits (w)
theorem classBoundary (x0 : Fin 8) (x1 : List MemAcc) (x2 : Work) : Statement (.classBoundary x0 x1 x2) := fun _ _ e => nomatch e
theorem outputCommit (x0 : Fin 8) (x1 : Work) (x2 : Bool) : Statement (.outputCommit x0 x1 x2) := fun _ _ e => nomatch e
theorem softBudgetExpiry (x0 : Fin 8) : Statement (.softBudgetExpiry x0) := fun _ _ e => nomatch e
theorem hardLimitExpiry (x0 : Fin 8) : Statement (.hardLimitExpiry x0) := fun _ _ e => nomatch e
theorem intervalCheckpoint (x0 : Fin 4) (x1 : Work) : Statement (.intervalCheckpoint x0 x1) := fun _ _ e => nomatch e
theorem earlyCheckpoint (x0 : Fin 4) (x1 : Work) (x2 : Bool) : Statement (.earlyCheckpoint x0 x1 x2) := fun _ _ e => nomatch e
theorem checkpointSeal (x0 : Fin 4) : Statement (.checkpointSeal x0) := fun _ _ e => nomatch e
theorem comparatorMismatch (x0 : Fin 4) (x1 : Mism) (x2 : Work) : Statement (.comparatorMismatch x0 x1 x2) := fun _ _ e => nomatch e
theorem darnRestoreEnd (x0 : Fin 4) (x1 : Nat) : Statement (.darnRestoreEnd x0 x1) := fun _ _ e => nomatch e
theorem restoreTimeout (x0 : Fin 4) : Statement (.restoreTimeout x0) := fun _ _ e => nomatch e
theorem knownAnswerRun (x0 : Fin 4) : Statement (.knownAnswerRun x0) := fun _ _ e => nomatch e
theorem dbgHalt (x0 : Fin 4) (x1 : Word) (x2 : Work) : Statement (.dbgHalt x0 x1 x2) := fun _ _ e => nomatch e
theorem dbgStep (x0 : Fin 4) (x1 : Word) (x2 : Work) : Statement (.dbgStep x0 x1 x2) := fun _ _ e => nomatch e
theorem dbgResume (x0 : Fin 4) : Statement (.dbgResume x0) := fun _ _ e => nomatch e
theorem breakpointHit (x0 : Fin 4) (x1 : Fin 4) (x2 : Work) : Statement (.breakpointHit x0 x1 x2) := fun _ _ e => nomatch e
theorem minorFrameStart (x0 : Fin 4) : Statement (.minorFrameStart x0) := fun _ _ e => nomatch e
theorem loopPhase0 (x0 : Nat) : Statement (.loopPhase0 x0) := fun _ _ e => nomatch e
theorem loopStep (x0 : Nat) (x1 : Word) : Statement (.loopStep x0 x1) := fun _ _ e => nomatch e
theorem loopCrease (x0 : Nat) : Statement (.loopCrease x0) := fun _ _ e => nomatch e
theorem loopCmdRearm (x0 : Fin 8) (x1 : Ini) : Statement (.loopCmdRearm x0 x1) := fun _ _ e => nomatch e
theorem loopCmdManual (x0 : Fin 8) (x1 : Ini) : Statement (.loopCmdManual x0 x1) := fun _ _ e => nomatch e
theorem loopCmdAuto (x0 : Fin 8) (x1 : Ini) : Statement (.loopCmdAuto x0 x1) := fun _ _ e => nomatch e
theorem exchangeInstant : Statement (.exchangeInstant) := fun _ _ e => nomatch e
theorem packageStoreDone : Statement (.packageStoreDone) := fun _ _ e => nomatch e
theorem standbyReadyTimeout : Statement (.standbyReadyTimeout) := fun _ _ e => nomatch e
theorem heartbeatSend (x0 : Bool) : Statement (.heartbeatSend x0) := fun _ _ e => nomatch e
theorem heartbeat (x0 : Bool) (x1 : Hb) : Statement (.heartbeat x0 x1) := fun _ _ e => nomatch e
theorem heartbeatMissed (x0 : Bool) : Statement (.heartbeatMissed x0) := fun _ _ e => nomatch e
theorem rseqGapTimeout : Statement (.rseqGapTimeout) := fun _ _ e => nomatch e
theorem ack (x0 : BRec) : Statement (.ack x0) := fun _ _ e => nomatch e
theorem hostwork (x0 : BRec) : Statement (.hostwork x0) := fun _ _ e => nomatch e
theorem lines (x0 : BRec) : Statement (.lines x0) := fun _ _ e => nomatch e
theorem commitEnd (x0 : BRec) : Statement (.commitEnd x0) := fun _ _ e => nomatch e
theorem loopState (x0 : BRec) : Statement (.loopState x0) := fun _ _ e => nomatch e
theorem loopGroup (x0 : BRec) : Statement (.loopGroup x0) := fun _ _ e => nomatch e
theorem tallyHdrs (x0 : BRec) : Statement (.tallyHdrs x0) := fun _ _ e => nomatch e
theorem tallyHdrsSend : Statement (.tallyHdrsSend) := fun _ _ e => nomatch e
theorem versions (x0 : BRec) : Statement (.versions x0) := fun _ _ e => nomatch e
theorem window (x0 : BRec) : Statement (.window x0) := fun _ _ e => nomatch e
theorem image (x0 : BRec) : Statement (.image x0) := fun _ _ e => nomatch e
theorem noticeFailure (x0 : BRec) : Statement (.noticeFailure x0) := fun _ _ e => nomatch e
theorem noticeHalt (x0 : BRec) : Statement (.noticeHalt x0) := fun _ _ e => nomatch e
theorem noticeHandover (x0 : BRec) : Statement (.noticeHandover x0) := fun _ _ e => nomatch e
theorem noticeHandback (x0 : BRec) : Statement (.noticeHandback x0) := fun _ _ e => nomatch e
theorem noticeRingAbsent (x0 : BRec) : Statement (.noticeRingAbsent x0) := fun _ _ e => nomatch e
theorem noticeProofFail (x0 : BRec) : Statement (.noticeProofFail x0) := fun _ _ e => nomatch e
theorem noticeCutIn (x0 : BRec) : Statement (.noticeCutIn x0) := fun _ _ e => nomatch e
theorem noticeReady (x0 : BRec) : Statement (.noticeReady x0) := fun _ _ e => nomatch e
theorem noticeCheckFailed (x0 : BRec) : Statement (.noticeCheckFailed x0) := fun _ _ e => nomatch e
theorem initialSyncStart : Statement (.initialSyncStart) := fun _ _ e => nomatch e
theorem cutIn : Statement (.cutIn) := fun _ _ e => nomatch e
theorem syncAbandon : Statement (.syncAbandon) := fun _ _ e => nomatch e
theorem handoverBoundary : Statement (.handoverBoundary) := fun _ _ e => nomatch e
theorem proofSwapDue : Statement (.proofSwapDue) := fun _ _ e => nomatch e
theorem proofWindowEnd : Statement (.proofWindowEnd) := fun _ _ e => nomatch e
theorem partnerSearchTimeout : Statement (.partnerSearchTimeout) := fun _ _ e => nomatch e
theorem absentWaitExpiry : Statement (.absentWaitExpiry) := fun _ _ e => nomatch e
theorem dpxClaim (x0 : Word) : Statement (.dpxClaim x0) := fun _ _ e => nomatch e
theorem linkChange (x0 : Fin 7) (x1 : Bool) (x2 : BitVec 2) (x3 : Bool) (x4 : Sfp) : Statement (.linkChange x0 x1 x2 x3 x4) := fun _ _ e => nomatch e
theorem beaconSlot : Statement (.beaconSlot) := fun _ _ e => nomatch e
theorem beacon (x0 : Kcp) : Statement (.beacon x0) := fun _ _ e => nomatch e
theorem input (x0 : Kcp) : Statement (.input x0) := fun _ _ e => nomatch e
theorem loopIn (x0 : Kcp) : Statement (.loopIn x0) := fun _ _ e => nomatch e
theorem outputLaunch (x0 : Nat) : Statement (.outputLaunch x0) := fun _ _ e => nomatch e
theorem loopOutLaunch (x0 : Nat) (x1 : BitVec 4) : Statement (.loopOutLaunch x0 x1) := fun _ _ e => nomatch e
theorem paramAck (x0 : Kcp) : Statement (.paramAck x0) := fun _ _ e => nomatch e
theorem paramRetry (x0 : Nat) : Statement (.paramRetry x0) := fun _ _ e => nomatch e
theorem paramPeriodic (x0 : Nat) : Statement (.paramPeriodic x0) := fun _ _ e => nomatch e
theorem eliminationHistoryReset (x0 : Nat) : Statement (.eliminationHistoryReset x0) := fun _ _ e => nomatch e
theorem peer (x0 : Kcp) : Statement (.peer x0) := fun _ _ e => nomatch e
theorem peerLaunch (x0 : Nat) : Statement (.peerLaunch x0) := fun _ _ e => nomatch e
theorem peerTimeout (x0 : Nat) : Statement (.peerTimeout x0) := fun _ _ e => nomatch e
theorem mgmt (x0 : Kcp) (x1 : Hcmd) : Statement (.mgmt x0 x1) := fun _ _ e => nomatch e
theorem syncMeasurement (x0 : Fin 2) (x1 : Int) (x2 : DWord) : Statement (.syncMeasurement x0 x1 x2) := fun _ _ e => nomatch e
theorem timDomMeas (x0 : Fin 2) (x1 : Word) : Statement (.timDomMeas x0 x1) := fun _ _ e => nomatch e
theorem clockSet : Statement (.clockSet) := fun _ _ e => nomatch e
theorem domainHoldover (x0 : Fin 2) : Statement (.domainHoldover x0) := fun _ _ e => nomatch e
theorem holdoverTimeout (x0 : Fin 2) : Statement (.holdoverTimeout x0) := fun _ _ e => nomatch e
theorem revertTimer : Statement (.revertTimer) := fun _ _ e => nomatch e
theorem timRealign (x0 : Word) : Statement (.timRealign x0) := fun _ _ e => nomatch e
theorem txTimestamp (x0 : Fin 7) (x1 : BitVec 16) (x2 : BitVec 2) : Statement (.txTimestamp x0 x1 x2) := fun _ _ e => nomatch e
theorem launchLate (x0 : Fin 7) : Statement (.launchLate x0) := fun _ _ e => nomatch e
theorem captureEdge (x0 : Fin 2) (x1 : Bool) (x2 : BitVec 2) : Statement (.captureEdge x0 x1 x2) := fun _ _ e => nomatch e
theorem toutEdge : Statement (.toutEdge) := fun _ _ e => nomatch e
theorem canFrameReceived (x0 : Fin 8) (x1 : CanEnt) (x2 : Word) : Statement (.canFrameReceived x0 x1 x2) := fun _ _ e => nomatch e
theorem protocolException (x0 : Fin 8) (x1 : Bool) : Statement (.protocolException x0 x1) := fun _ _ e => nomatch e
theorem txqPoll (x0 : Fin 8) : Statement (.txqPoll x0) := fun _ _ e => nomatch e
theorem attemptStart (x0 : Fin 8) : Statement (.attemptStart x0) := fun _ _ e => nomatch e
theorem attemptEnd (x0 : Fin 8) (x1 : CanEnd) : Statement (.attemptEnd x0 x1) := fun _ _ e => nomatch e
theorem canError (x0 : Fin 8) (x1 : CanErr) (x2 : Bool) (x3 : Bool) (x4 : Fin 9) : Statement (.canError x0 x1 x2 x3 x4) := fun _ _ e => nomatch e
theorem canCmdRecover (x0 : Fin 8) (x1 : Ini) : Statement (.canCmdRecover x0 x1) := fun _ _ e => nomatch e
theorem busOffRecoveryDone (x0 : Fin 8) : Statement (.busOffRecoveryDone x0) := fun _ _ e => nomatch e
theorem diFilterChange (x0 : Fin 32) (x1 : Bool) : Statement (.diFilterChange x0 x1) := fun _ _ e => nomatch e
theorem localApply (x0 : Fin 8) (x1 : Word) : Statement (.localApply x0 x1) := fun _ _ e => nomatch e
theorem rberrOnset (x0 : Fin 32) : Statement (.rberrOnset x0) := fun _ _ e => nomatch e
theorem dioTrip (x0 : Fin 32) (x1 : Trip) : Statement (.dioTrip x0 x1) := fun _ _ e => nomatch e
theorem dioRetry (x0 : Fin 32) : Statement (.dioRetry x0) := fun _ _ e => nomatch e
theorem retriesReset (x0 : Fin 32) : Statement (.retriesReset x0) := fun _ _ e => nomatch e
theorem fioDioRearm (x0 : Word) : Statement (.fioDioRearm x0) := fun _ _ e => nomatch e
theorem feedLost (x0 : Fin 2) (x1 : Word) : Statement (.feedLost x0 x1) := fun _ _ e => nomatch e
theorem feedReturn (x0 : Fin 2) : Statement (.feedReturn x0) := fun _ _ e => nomatch e
theorem aiConversion (x0 : Fin 16) (x1 : Int) (x2 : Bool) (x3 : Bool) : Statement (.aiConversion x0 x1 x2 x3) := fun _ _ e => nomatch e
theorem aoComply (x0 : Fin 16) (x1 : Nat) : Statement (.aoComply x0 x1) := fun _ _ e => nomatch e
theorem aoOpen (x0 : Fin 16) (x1 : Nat) : Statement (.aoOpen x0 x1) := fun _ _ e => nomatch e
theorem aoConditionClear (x0 : Fin 16) (x1 : Nat) : Statement (.aoConditionClear x0 x1) := fun _ _ e => nomatch e
theorem pwrLim (x0 : Fin 16) (x1 : Nat) : Statement (.pwrLim x0 x1) := fun _ _ e => nomatch e
theorem strapChange (x0 : Fin 2) (x1 : Bool) : Statement (.strapChange x0 x1) := fun _ _ e => nomatch e
theorem captLo (x0 : Fin 16) (x1 : Int) : Statement (.captLo x0 x1) := fun _ _ e => nomatch e
theorem captHi (x0 : Fin 16) (x1 : Int) : Statement (.captHi x0 x1) := fun _ _ e => nomatch e
theorem store (x0 : Fin 16) : Statement (.store x0) := fun _ _ e => nomatch e
theorem discard (x0 : Fin 16) : Statement (.discard x0) := fun _ _ e => nomatch e
theorem factory (x0 : Fin 16) : Statement (.factory x0) := fun _ _ e => nomatch e
theorem driveLo (x0 : Fin 16) : Statement (.driveLo x0) := fun _ _ e => nomatch e
theorem driveHi (x0 : Fin 16) : Statement (.driveHi x0) := fun _ _ e => nomatch e
theorem hartPoll (x0 : Fin 16) : Statement (.hartPoll x0) := fun _ _ e => nomatch e
theorem hartHctlGo (x0 : Word) : Statement (.hartHctlGo x0) := fun _ _ e => nomatch e
theorem hartTransactionEnd (x0 : Fin 16) (x1 : HartEnd) (x2 : Nat) : Statement (.hartTransactionEnd x0 x1 x2) := fun _ _ e => nomatch e
theorem selvedgeSample (x0 : Samp) (x1 : Samp) : Statement (.selvedgeSample x0 x1) := fun _ _ e => nomatch e
theorem discrepancy (x0 : Fin 8) : Statement (.discrepancy x0) := fun _ _ e => nomatch e
theorem resetStuck : Statement (.resetStuck) := fun _ _ e => nomatch e
theorem spCycle (x0 : SpRun) : Statement (.spCycle x0) := fun _ _ e => nomatch e
theorem testPulse (x0 : Bool) : Statement (.testPulse x0) := fun _ _ e => nomatch e
theorem outFault (x0 : Fin 4) : Statement (.outFault x0) := fun _ _ e => nomatch e
theorem darkTest (x0 : Fin 4) (x1 : Bool) : Statement (.darkTest x0 x1) := fun _ _ e => nomatch e
theorem overcurrent (x0 : Fin 4) : Statement (.overcurrent x0) := fun _ _ e => nomatch e
theorem supply (x0 : BitVec 16) : Statement (.supply x0) := fun _ _ e => nomatch e
theorem agree (x0 : Disagree) : Statement (.agree x0) := fun _ _ e => nomatch e
theorem selvedgeChallenge (x0 : Bool) : Statement (.selvedgeChallenge x0) := fun _ _ e => nomatch e
theorem wscPduReceive (x0 : Fin 64) (x1 : List Byte) (x2 : BitVec 16) : Statement (.wscPduReceive x0 x1 x2) := fun _ _ e => nomatch e
theorem wscDeadline (x0 : Fin 64) : Statement (.wscDeadline x0) := fun _ _ e => nomatch e
theorem tallyWrite : Statement (.tallyWrite) := fun _ _ e => nomatch e
theorem tlyRdseq (x0 : Word) : Statement (.tlyRdseq x0) := fun _ _ e => nomatch e
theorem tlyClrkey (x0 : Word) : Statement (.tlyClrkey x0) := fun _ _ e => nomatch e
theorem rinseRead (x0 : List Nat) (x1 : List Nat) (x2 : Option (List Nat)) (x3 : Option (List Nat)) (x4 : Bool) : Statement (.rinseRead x0 x1 x2 x3 x4) := fun _ _ e => nomatch e
theorem correctedWriteBack (x0 : Nat) : Statement (.correctedWriteBack x0) := fun _ _ e => nomatch e
theorem sramSweep (x0 : Nat) (x1 : Nat) (x2 : Nat) : Statement (.sramSweep x0 x1 x2) := fun _ _ e => nomatch e
theorem mramScrub (x0 : Nat) (x1 : List MramErr) : Statement (.mramScrub x0 x1) := fun _ _ e => nomatch e
theorem memInjArm : Statement (.memInjArm) := fun _ _ e => nomatch e
theorem bootLdKey (x0 : Word) (x1 : List Byte) : Statement (.bootLdKey x0 x1) := fun _ _ e => nomatch e
theorem warmSwitch : Statement (.warmSwitch) := fun _ _ e => nomatch e
theorem scheduledSwitch : Statement (.scheduledSwitch) := fun _ _ e => nomatch e
theorem settleEnd (x0 : Option (Fin 5)) : Statement (.settleEnd x0) := fun _ _ e => nomatch e
theorem autoConfirm : Statement (.autoConfirm) := fun _ _ e => nomatch e
theorem holdupOkChange (x0 : BitVec 16) : Statement (.holdupOkChange x0) := fun _ _ e => nomatch e
theorem ptpMessage (x0 : Fin 7) (x1 : PtpMsg) (x2 : Fin 2) (x3 : DWord) (x4 : BitVec 16) (x5 : Word) : Statement (.ptpMessage x0 x1 x2 x3 x4 x5) := fun _ _ e => nomatch e
theorem ptpTransmit (x0 : Fin 7) (x1 : PtpMsg) (x2 : BitVec 16) : Statement (.ptpTransmit x0 x1 x2) := fun _ _ e => nomatch e
theorem areaWriteComplete (x0 : Fin 3) (x1 : BootObs) : Statement (.areaWriteComplete x0 x1) := fun _ _ e => nomatch e
theorem ringStartupTimeout : Statement (.ringStartupTimeout) := fun _ _ e => nomatch e
theorem hartBurstMessage (x0 : Fin 16) (x1 : List Byte) : Statement (.hartBurstMessage x0 x1) := fun _ _ e => nomatch e

end Sys2Proof.Laws.Catalogue
end

