-- ==== Sys2Proof/Laws/Settle.lean ====
section
/-! SUPPORT. What follows a command (`settleState`): on a settled state that keeps its mode, only events. -/

namespace Sys2Proof.Laws

open Sys2Proof.Machine Sys2Proof.Safety

theorem EventsOnly.refl {s : State} : EventsOnly s s := rfl

theorem EventsOnly.trans {s t u : State} (h : EventsOnly s t) (k : EventsOnly t u) : EventsOnly s u := by
  unfold EventsOnly at *
  rw [k, h]

theorem CanFollows.congr {s t : State} (h : CanFollows s) (hm : t.sys.mode = s.sys.mode) (hp : t.sys.primary = s.sys.primary)
    (hc : t.can = s.can) (hr : t.regs = s.regs) : CanFollows t := by
  have e1 : ∀ c, t.canSet c = s.canSet c := fun c => by
    unfold State.canSet State.canCfg State.reg
    rw [hr]
  have e2 : t.canWants = s.canWants := by simp only [State.canWants, hm, hp]
  have e3 : ∀ c, t.chan c = s.chan c := fun c => by simp only [State.chan, hc]
  intro c off listen hlt hset hw
  rw [e1] at hset
  rw [e2] at hw
  rw [e3]
  exact h c off listen hlt hset hw

theorem canFollow_id {s : State} {c : Nat} (h : CanFollows s) (hc : c < 8) (hs : s.canSet c = true) : s.canFollow c = s := by
  unfold State.canFollow
  split
  · rfl
  · rename_i off listen hw
    obtain ⟨ho, hl⟩ := h c off listen hc hs hw
    simp [ho, hl]

theorem canSync_id {s : State} (h : CanFollows s) : s.canSync = s := by
  have key : ∀ l : List Nat, (∀ c ∈ l, c < 8) → l.foldl (fun (t : State) c => if t.canSet c then t.canFollow c else t) s = s := by
    intro l
    induction l with
    | nil => intro _; rfl
    | cons c l ih =>
      intro hl
      rw [List.foldl_cons]
      have hc : c < 8 := hl c (by simp)
      have e : (if s.canSet c = true then s.canFollow c else s) = s := by
        split
        · rename_i hs
          exact canFollow_id h hc hs
        · rfl
      rw [e]
      exact ih fun d hd => hl d (by simp [hd])
  exact key _ fun c hc => by simpa using hc

theorem fioFollow_id {s : State} {m : Mode} (h : s.sys.mode = m) : s.fioFollow m = s := by
  unfold State.fioFollow
  simp [h]

theorem completePreempted_id {s : State} (h : s.sys.preempted = []) : s.completePreempted = s := by
  unfold State.completePreempted
  rw [h, List.foldl_nil]
  obtain ⟨sys, hif, cyc, lsp, cle, chg, dpx, dpx2, mir, net, tim, can, canq, fio, saf, tly, mm, boot, pwr, ret, cfg, prog, regs,
    live, votes, press, posted, outbox, freeN, pending⟩ := s
  obtain ⟨⟩ := sys
  subst h
  rfl

theorem readsFollow_id {s : State} {m : Mode} (h : s.sys.mode = m) : s.readsFollow m = s := by
  unfold State.readsFollow
  simp [h]

/-- What a settled state that keeps its mode still gets: the events that report it. -/
theorem settleState_settled {s t : State} (h : Settled t) (hm : t.sys.mode = s.sys.mode) : settleState s t = report s t := by
  unfold settleState
  rw [canSync_id h.can, fioFollow_id hm]
  dsimp only
  split
  · rename_i ha
    rw [completePreempted_id (h.served ha), readsFollow_id hm]
  · rfl

theorem msix_events {v : Nat} {s : State} : EventsOnly s (s.msix v) := by
  unfold State.msix
  split <;> rfl

theorem event_events {c : BitVec 16} {v : Nat} {w : Word} {d : List Byte} {s : State} : EventsOnly s (s.event c v w d) := by
  unfold State.event
  split
  · rfl
  · dsimp only
    split
    · rfl
    · refine EventsOnly.trans ?_ msix_events
      rfl

theorem report_events {s t : State} : EventsOnly t (report s t) := by
  unfold report
  extract_lets t1 t2
  have h1 : EventsOnly t t1 := by
    by_cases h : s.sys.primary = t.sys.primary
    · simp only [t1, if_pos h]; rfl
    · simp only [t1, if_neg h]; exact event_events
  have h2 : EventsOnly t1 t2 := by
    by_cases h : s.insync = t1.insync
    · simp only [t2, if_pos h]; rfl
    · simp only [t2, if_neg h]; exact event_events
  split
  · exact EventsOnly.trans h1 h2
  · exact EventsOnly.trans (EventsOnly.trans h1 h2) event_events

theorem msix_keeps {o : Out} {v : Nat} {s : State} (h : o ∈ s.outbox) : o ∈ (s.msix v).outbox := by
  unfold State.msix
  split
  · exact h
  · exact List.mem_append_left _ h

theorem event_keeps {o : Out} {c : BitVec 16} {v : Nat} {w : Word} {d : List Byte} {s : State} (h : o ∈ s.outbox) :
    o ∈ (s.event c v w d).outbox := by
  unfold State.event
  split
  · exact h
  · dsimp only
    split
    · exact h
    · exact msix_keeps (List.mem_append_left _ h)

theorem report_keeps {o : Out} {s t : State} (h : o ∈ t.outbox) : o ∈ (report s t).outbox := by
  unfold report
  extract_lets t1 t2
  have h1 : o ∈ t1.outbox := by
    by_cases hc : s.sys.primary = t.sys.primary
    · simp only [t1, if_pos hc]; exact h
    · simp only [t1, if_neg hc]; exact event_keeps h
  have h2 : o ∈ t2.outbox := by
    by_cases hc : s.insync = t1.insync
    · simp only [t2, if_pos hc]; exact h1
    · simp only [t2, if_neg hc]; exact event_keeps h1
  split
  · exact h2
  · exact event_keeps h2

/-- A command that answers `done s t` for a settled `t` in the same mode: a next state that differs from `t` at most in events. -/
theorem done_settled {s t : State} (h : Settled t) (hm : t.sys.mode = s.sys.mode) :
    ∃ u, done s t = .next u ∧ OnlyChanges [.hif, .outbox] t u ∧ EventsOnly t u ∧ ∀ o ∈ t.outbox, o ∈ u.outbox := by
  refine ⟨report s t, ?_, report_only (fun p hp => hp) OnlyChanges.refl, report_events, fun o ho => report_keeps ho⟩
  unfold done
  rw [settleState_settled h hm]

/-- The parts on which being settled does not depend. -/
def calm : List Part := [.hif, .cyc, .lsp, .cle, .chg, .dpx, .dpx2, .mir, .net, .tim, .canq, .fio, .saf, .tly, .mm, .boot, .ret, .cfg,
  .prog, .live, .votes, .press, .posted, .outbox, .freeN, .pending]

/-- A state that differs from a settled one only outside the mode, the CAN channels, their registers and the shutdown is settled. -/
theorem Settled.step {s t : State} (h : Settled s) (hs : t.sys.mode = s.sys.mode) (hp : t.sys.primary = s.sys.primary)
    (hq : t.sys.preempted = s.sys.preempted) (k : OnlyChanges (.sys :: .pwr :: calm) s t) (hd : t.pwr.shutdown = s.pwr.shutdown) :
    Settled t := by
  refine ⟨CanFollows.congr h.can hs hp (k.same .can (by decide)) (k.same .regs (by decide)), ?_⟩
  intro e
  rw [hq]
  apply h.served
  unfold State.alive State.powered at *
  rw [hs, hd] at e
  exact e

theorem Settled.of {s t : State} {ps : List Part} (h : Settled s) (k : OnlyChanges ps s t) (w : Within ps calm) : Settled t := by
  have k : OnlyChanges calm s t := OnlyChanges.mono k w
  have a : t.sys = s.sys := k.same .sys (by decide)
  have d : t.pwr = s.pwr := k.same .pwr (by decide)
  exact Settled.step h (by rw [a]) (by rw [a]) (by rw [a])
    (OnlyChanges.mono k fun p hp => List.mem_cons_of_mem _ (List.mem_cons_of_mem _ hp)) (by rw [d])

/-- A command that answers `done s t` on a settled state, where `t` differs from `s` in calm parts only. -/
theorem done_of {s t : State} {ps qs : List Part} (h : Settled s) (k : OnlyChanges ps s t) (w : Within ps calm)
    (q : Within (.hif :: .outbox :: ps) qs) :
    ∃ u, done s t = .next u ∧ OnlyChanges qs s u ∧ EventsOnly t u ∧ OnlyChanges [.hif, .outbox] t u ∧ ∀ o ∈ t.outbox, o ∈ u.outbox := by
  have a : t.sys = s.sys := (OnlyChanges.mono k w).same .sys (by decide)
  obtain ⟨u, hu, ho, he, hk⟩ := done_settled (Settled.of h k w) (s := s) (by rw [a])
  refine ⟨u, hu, OnlyChanges.trans (OnlyChanges.mono k fun p hp => q p (List.mem_cons_of_mem _ (List.mem_cons_of_mem _ hp)))
    (OnlyChanges.mono ho fun p hp => q p ?_), he, ho, hk⟩
  rcases List.mem_cons.mp hp with rfl | hp
  · exact List.mem_cons_self
  · rcases List.mem_cons.mp hp with rfl | hp
    · exact List.mem_cons_of_mem _ List.mem_cons_self
    · cases hp

end Sys2Proof.Laws
end

