-- ==== Sys2Proof/Laws/State.lean ====
section
/-! SUPPORT. Every field of the state after every plain update of one of its parts. -/

namespace Sys2Proof.Laws

open Sys2Proof.Machine

variable {s : State}

@[simp] theorem setRing_sys (n : Nat) (r : Ring) : (s.setRing n r).sys = s.sys := rfl
@[simp] theorem setRing_hif (n : Nat) (r : Ring) : (s.setRing n r).hif = { s.hif with rings := s.hif.rings.put n r } := rfl
@[simp] theorem setRing_cyc (n : Nat) (r : Ring) : (s.setRing n r).cyc = s.cyc := rfl
@[simp] theorem setRing_lsp (n : Nat) (r : Ring) : (s.setRing n r).lsp = s.lsp := rfl
@[simp] theorem setRing_cle (n : Nat) (r : Ring) : (s.setRing n r).cle = s.cle := rfl
@[simp] theorem setRing_chg (n : Nat) (r : Ring) : (s.setRing n r).chg = s.chg := rfl
@[simp] theorem setRing_dpx (n : Nat) (r : Ring) : (s.setRing n r).dpx = s.dpx := rfl
@[simp] theorem setRing_dpx2 (n : Nat) (r : Ring) : (s.setRing n r).dpx2 = s.dpx2 := rfl
@[simp] theorem setRing_mir (n : Nat) (r : Ring) : (s.setRing n r).mir = s.mir := rfl
@[simp] theorem setRing_net (n : Nat) (r : Ring) : (s.setRing n r).net = s.net := rfl
@[simp] theorem setRing_tim (n : Nat) (r : Ring) : (s.setRing n r).tim = s.tim := rfl
@[simp] theorem setRing_can (n : Nat) (r : Ring) : (s.setRing n r).can = s.can := rfl
@[simp] theorem setRing_canq (n : Nat) (r : Ring) : (s.setRing n r).canq = s.canq := rfl
@[simp] theorem setRing_fio (n : Nat) (r : Ring) : (s.setRing n r).fio = s.fio := rfl
@[simp] theorem setRing_saf (n : Nat) (r : Ring) : (s.setRing n r).saf = s.saf := rfl
@[simp] theorem setRing_tly (n : Nat) (r : Ring) : (s.setRing n r).tly = s.tly := rfl
@[simp] theorem setRing_mm (n : Nat) (r : Ring) : (s.setRing n r).mm = s.mm := rfl
@[simp] theorem setRing_boot (n : Nat) (r : Ring) : (s.setRing n r).boot = s.boot := rfl
@[simp] theorem setRing_pwr (n : Nat) (r : Ring) : (s.setRing n r).pwr = s.pwr := rfl
@[simp] theorem setRing_ret (n : Nat) (r : Ring) : (s.setRing n r).ret = s.ret := rfl
@[simp] theorem setRing_cfg (n : Nat) (r : Ring) : (s.setRing n r).cfg = s.cfg := rfl
@[simp] theorem setRing_prog (n : Nat) (r : Ring) : (s.setRing n r).prog = s.prog := rfl
@[simp] theorem setRing_regs (n : Nat) (r : Ring) : (s.setRing n r).regs = s.regs := rfl
@[simp] theorem setRing_live (n : Nat) (r : Ring) : (s.setRing n r).live = s.live := rfl
@[simp] theorem setRing_votes (n : Nat) (r : Ring) : (s.setRing n r).votes = s.votes := rfl
@[simp] theorem setRing_press (n : Nat) (r : Ring) : (s.setRing n r).press = s.press := rfl
@[simp] theorem setRing_posted (n : Nat) (r : Ring) : (s.setRing n r).posted = s.posted := rfl
@[simp] theorem setRing_outbox (n : Nat) (r : Ring) : (s.setRing n r).outbox = s.outbox := rfl
@[simp] theorem setRing_freeN (n : Nat) (r : Ring) : (s.setRing n r).freeN = s.freeN := rfl
@[simp] theorem setRing_pending (n : Nat) (r : Ring) : (s.setRing n r).pending = s.pending := rfl

@[simp] theorem updRing_sys (n : Nat) (f : Ring → Ring) : (s.updRing n f).sys = s.sys := rfl
@[simp] theorem updRing_hif (n : Nat) (f : Ring → Ring) : (s.updRing n f).hif = { s.hif with rings := s.hif.rings.upd n {} f } := rfl
@[simp] theorem updRing_cyc (n : Nat) (f : Ring → Ring) : (s.updRing n f).cyc = s.cyc := rfl
@[simp] theorem updRing_lsp (n : Nat) (f : Ring → Ring) : (s.updRing n f).lsp = s.lsp := rfl
@[simp] theorem updRing_cle (n : Nat) (f : Ring → Ring) : (s.updRing n f).cle = s.cle := rfl
@[simp] theorem updRing_chg (n : Nat) (f : Ring → Ring) : (s.updRing n f).chg = s.chg := rfl
@[simp] theorem updRing_dpx (n : Nat) (f : Ring → Ring) : (s.updRing n f).dpx = s.dpx := rfl
@[simp] theorem updRing_dpx2 (n : Nat) (f : Ring → Ring) : (s.updRing n f).dpx2 = s.dpx2 := rfl
@[simp] theorem updRing_mir (n : Nat) (f : Ring → Ring) : (s.updRing n f).mir = s.mir := rfl
@[simp] theorem updRing_net (n : Nat) (f : Ring → Ring) : (s.updRing n f).net = s.net := rfl
@[simp] theorem updRing_tim (n : Nat) (f : Ring → Ring) : (s.updRing n f).tim = s.tim := rfl
@[simp] theorem updRing_can (n : Nat) (f : Ring → Ring) : (s.updRing n f).can = s.can := rfl
@[simp] theorem updRing_canq (n : Nat) (f : Ring → Ring) : (s.updRing n f).canq = s.canq := rfl
@[simp] theorem updRing_fio (n : Nat) (f : Ring → Ring) : (s.updRing n f).fio = s.fio := rfl
@[simp] theorem updRing_saf (n : Nat) (f : Ring → Ring) : (s.updRing n f).saf = s.saf := rfl
@[simp] theorem updRing_tly (n : Nat) (f : Ring → Ring) : (s.updRing n f).tly = s.tly := rfl
@[simp] theorem updRing_mm (n : Nat) (f : Ring → Ring) : (s.updRing n f).mm = s.mm := rfl
@[simp] theorem updRing_boot (n : Nat) (f : Ring → Ring) : (s.updRing n f).boot = s.boot := rfl
@[simp] theorem updRing_pwr (n : Nat) (f : Ring → Ring) : (s.updRing n f).pwr = s.pwr := rfl
@[simp] theorem updRing_ret (n : Nat) (f : Ring → Ring) : (s.updRing n f).ret = s.ret := rfl
@[simp] theorem updRing_cfg (n : Nat) (f : Ring → Ring) : (s.updRing n f).cfg = s.cfg := rfl
@[simp] theorem updRing_prog (n : Nat) (f : Ring → Ring) : (s.updRing n f).prog = s.prog := rfl
@[simp] theorem updRing_regs (n : Nat) (f : Ring → Ring) : (s.updRing n f).regs = s.regs := rfl
@[simp] theorem updRing_live (n : Nat) (f : Ring → Ring) : (s.updRing n f).live = s.live := rfl
@[simp] theorem updRing_votes (n : Nat) (f : Ring → Ring) : (s.updRing n f).votes = s.votes := rfl
@[simp] theorem updRing_press (n : Nat) (f : Ring → Ring) : (s.updRing n f).press = s.press := rfl
@[simp] theorem updRing_posted (n : Nat) (f : Ring → Ring) : (s.updRing n f).posted = s.posted := rfl
@[simp] theorem updRing_outbox (n : Nat) (f : Ring → Ring) : (s.updRing n f).outbox = s.outbox := rfl
@[simp] theorem updRing_freeN (n : Nat) (f : Ring → Ring) : (s.updRing n f).freeN = s.freeN := rfl
@[simp] theorem updRing_pending (n : Nat) (f : Ring → Ring) : (s.updRing n f).pending = s.pending := rfl

@[simp] theorem updChg_sys (f : Change → Change) : (s.updChg f).sys = s.sys := rfl
@[simp] theorem updChg_hif (f : Change → Change) : (s.updChg f).hif = s.hif := rfl
@[simp] theorem updChg_cyc (f : Change → Change) : (s.updChg f).cyc = s.cyc := rfl
@[simp] theorem updChg_lsp (f : Change → Change) : (s.updChg f).lsp = s.lsp := rfl
@[simp] theorem updChg_cle (f : Change → Change) : (s.updChg f).cle = s.cle := rfl
@[simp] theorem updChg_chg (f : Change → Change) : (s.updChg f).chg = f s.chg := rfl
@[simp] theorem updChg_dpx (f : Change → Change) : (s.updChg f).dpx = s.dpx := rfl
@[simp] theorem updChg_dpx2 (f : Change → Change) : (s.updChg f).dpx2 = s.dpx2 := rfl
@[simp] theorem updChg_mir (f : Change → Change) : (s.updChg f).mir = s.mir := rfl
@[simp] theorem updChg_net (f : Change → Change) : (s.updChg f).net = s.net := rfl
@[simp] theorem updChg_tim (f : Change → Change) : (s.updChg f).tim = s.tim := rfl
@[simp] theorem updChg_can (f : Change → Change) : (s.updChg f).can = s.can := rfl
@[simp] theorem updChg_canq (f : Change → Change) : (s.updChg f).canq = s.canq := rfl
@[simp] theorem updChg_fio (f : Change → Change) : (s.updChg f).fio = s.fio := rfl
@[simp] theorem updChg_saf (f : Change → Change) : (s.updChg f).saf = s.saf := rfl
@[simp] theorem updChg_tly (f : Change → Change) : (s.updChg f).tly = s.tly := rfl
@[simp] theorem updChg_mm (f : Change → Change) : (s.updChg f).mm = s.mm := rfl
@[simp] theorem updChg_boot (f : Change → Change) : (s.updChg f).boot = s.boot := rfl
@[simp] theorem updChg_pwr (f : Change → Change) : (s.updChg f).pwr = s.pwr := rfl
@[simp] theorem updChg_ret (f : Change → Change) : (s.updChg f).ret = s.ret := rfl
@[simp] theorem updChg_cfg (f : Change → Change) : (s.updChg f).cfg = s.cfg := rfl
@[simp] theorem updChg_prog (f : Change → Change) : (s.updChg f).prog = s.prog := rfl
@[simp] theorem updChg_regs (f : Change → Change) : (s.updChg f).regs = s.regs := rfl
@[simp] theorem updChg_live (f : Change → Change) : (s.updChg f).live = s.live := rfl
@[simp] theorem updChg_votes (f : Change → Change) : (s.updChg f).votes = s.votes := rfl
@[simp] theorem updChg_press (f : Change → Change) : (s.updChg f).press = s.press := rfl
@[simp] theorem updChg_posted (f : Change → Change) : (s.updChg f).posted = s.posted := rfl
@[simp] theorem updChg_outbox (f : Change → Change) : (s.updChg f).outbox = s.outbox := rfl
@[simp] theorem updChg_freeN (f : Change → Change) : (s.updChg f).freeN = s.freeN := rfl
@[simp] theorem updChg_pending (f : Change → Change) : (s.updChg f).pending = s.pending := rfl

@[simp] theorem updLoop_sys (n : Nat) (f : Loop → Loop) : (s.updLoop n f).sys = s.sys := rfl
@[simp] theorem updLoop_hif (n : Nat) (f : Loop → Loop) : (s.updLoop n f).hif = s.hif := rfl
@[simp] theorem updLoop_cyc (n : Nat) (f : Loop → Loop) : (s.updLoop n f).cyc = s.cyc := rfl
@[simp] theorem updLoop_lsp (n : Nat) (f : Loop → Loop) : (s.updLoop n f).lsp = s.lsp := rfl
@[simp] theorem updLoop_cle (n : Nat) (f : Loop → Loop) : (s.updLoop n f).cle = { s.cle with loops := s.cle.loops.upd n {} f } := rfl
@[simp] theorem updLoop_chg (n : Nat) (f : Loop → Loop) : (s.updLoop n f).chg = s.chg := rfl
@[simp] theorem updLoop_dpx (n : Nat) (f : Loop → Loop) : (s.updLoop n f).dpx = s.dpx := rfl
@[simp] theorem updLoop_dpx2 (n : Nat) (f : Loop → Loop) : (s.updLoop n f).dpx2 = s.dpx2 := rfl
@[simp] theorem updLoop_mir (n : Nat) (f : Loop → Loop) : (s.updLoop n f).mir = s.mir := rfl
@[simp] theorem updLoop_net (n : Nat) (f : Loop → Loop) : (s.updLoop n f).net = s.net := rfl
@[simp] theorem updLoop_tim (n : Nat) (f : Loop → Loop) : (s.updLoop n f).tim = s.tim := rfl
@[simp] theorem updLoop_can (n : Nat) (f : Loop → Loop) : (s.updLoop n f).can = s.can := rfl
@[simp] theorem updLoop_canq (n : Nat) (f : Loop → Loop) : (s.updLoop n f).canq = s.canq := rfl
@[simp] theorem updLoop_fio (n : Nat) (f : Loop → Loop) : (s.updLoop n f).fio = s.fio := rfl
@[simp] theorem updLoop_saf (n : Nat) (f : Loop → Loop) : (s.updLoop n f).saf = s.saf := rfl
@[simp] theorem updLoop_tly (n : Nat) (f : Loop → Loop) : (s.updLoop n f).tly = s.tly := rfl
@[simp] theorem updLoop_mm (n : Nat) (f : Loop → Loop) : (s.updLoop n f).mm = s.mm := rfl
@[simp] theorem updLoop_boot (n : Nat) (f : Loop → Loop) : (s.updLoop n f).boot = s.boot := rfl
@[simp] theorem updLoop_pwr (n : Nat) (f : Loop → Loop) : (s.updLoop n f).pwr = s.pwr := rfl
@[simp] theorem updLoop_ret (n : Nat) (f : Loop → Loop) : (s.updLoop n f).ret = s.ret := rfl
@[simp] theorem updLoop_cfg (n : Nat) (f : Loop → Loop) : (s.updLoop n f).cfg = s.cfg := rfl
@[simp] theorem updLoop_prog (n : Nat) (f : Loop → Loop) : (s.updLoop n f).prog = s.prog := rfl
@[simp] theorem updLoop_regs (n : Nat) (f : Loop → Loop) : (s.updLoop n f).regs = s.regs := rfl
@[simp] theorem updLoop_live (n : Nat) (f : Loop → Loop) : (s.updLoop n f).live = s.live := rfl
@[simp] theorem updLoop_votes (n : Nat) (f : Loop → Loop) : (s.updLoop n f).votes = s.votes := rfl
@[simp] theorem updLoop_press (n : Nat) (f : Loop → Loop) : (s.updLoop n f).press = s.press := rfl
@[simp] theorem updLoop_posted (n : Nat) (f : Loop → Loop) : (s.updLoop n f).posted = s.posted := rfl
@[simp] theorem updLoop_outbox (n : Nat) (f : Loop → Loop) : (s.updLoop n f).outbox = s.outbox := rfl
@[simp] theorem updLoop_freeN (n : Nat) (f : Loop → Loop) : (s.updLoop n f).freeN = s.freeN := rfl
@[simp] theorem updLoop_pending (n : Nat) (f : Loop → Loop) : (s.updLoop n f).pending = s.pending := rfl

@[simp] theorem updEng_sys (e : Nat) (f : Eng → Eng) : (s.updEng e f).sys = s.sys := rfl
@[simp] theorem updEng_hif (e : Nat) (f : Eng → Eng) : (s.updEng e f).hif = s.hif := rfl
@[simp] theorem updEng_cyc (e : Nat) (f : Eng → Eng) : (s.updEng e f).cyc = s.cyc := rfl
@[simp] theorem updEng_lsp (e : Nat) (f : Eng → Eng) : (s.updEng e f).lsp = s.lsp := rfl
@[simp] theorem updEng_cle (e : Nat) (f : Eng → Eng) : (s.updEng e f).cle = { s.cle with eng := s.cle.eng.upd e {} f } := rfl
@[simp] theorem updEng_chg (e : Nat) (f : Eng → Eng) : (s.updEng e f).chg = s.chg := rfl
@[simp] theorem updEng_dpx (e : Nat) (f : Eng → Eng) : (s.updEng e f).dpx = s.dpx := rfl
@[simp] theorem updEng_dpx2 (e : Nat) (f : Eng → Eng) : (s.updEng e f).dpx2 = s.dpx2 := rfl
@[simp] theorem updEng_mir (e : Nat) (f : Eng → Eng) : (s.updEng e f).mir = s.mir := rfl
@[simp] theorem updEng_net (e : Nat) (f : Eng → Eng) : (s.updEng e f).net = s.net := rfl
@[simp] theorem updEng_tim (e : Nat) (f : Eng → Eng) : (s.updEng e f).tim = s.tim := rfl
@[simp] theorem updEng_can (e : Nat) (f : Eng → Eng) : (s.updEng e f).can = s.can := rfl
@[simp] theorem updEng_canq (e : Nat) (f : Eng → Eng) : (s.updEng e f).canq = s.canq := rfl
@[simp] theorem updEng_fio (e : Nat) (f : Eng → Eng) : (s.updEng e f).fio = s.fio := rfl
@[simp] theorem updEng_saf (e : Nat) (f : Eng → Eng) : (s.updEng e f).saf = s.saf := rfl
@[simp] theorem updEng_tly (e : Nat) (f : Eng → Eng) : (s.updEng e f).tly = s.tly := rfl
@[simp] theorem updEng_mm (e : Nat) (f : Eng → Eng) : (s.updEng e f).mm = s.mm := rfl
@[simp] theorem updEng_boot (e : Nat) (f : Eng → Eng) : (s.updEng e f).boot = s.boot := rfl
@[simp] theorem updEng_pwr (e : Nat) (f : Eng → Eng) : (s.updEng e f).pwr = s.pwr := rfl
@[simp] theorem updEng_ret (e : Nat) (f : Eng → Eng) : (s.updEng e f).ret = s.ret := rfl
@[simp] theorem updEng_cfg (e : Nat) (f : Eng → Eng) : (s.updEng e f).cfg = s.cfg := rfl
@[simp] theorem updEng_prog (e : Nat) (f : Eng → Eng) : (s.updEng e f).prog = s.prog := rfl
@[simp] theorem updEng_regs (e : Nat) (f : Eng → Eng) : (s.updEng e f).regs = s.regs := rfl
@[simp] theorem updEng_live (e : Nat) (f : Eng → Eng) : (s.updEng e f).live = s.live := rfl
@[simp] theorem updEng_votes (e : Nat) (f : Eng → Eng) : (s.updEng e f).votes = s.votes := rfl
@[simp] theorem updEng_press (e : Nat) (f : Eng → Eng) : (s.updEng e f).press = s.press := rfl
@[simp] theorem updEng_posted (e : Nat) (f : Eng → Eng) : (s.updEng e f).posted = s.posted := rfl
@[simp] theorem updEng_outbox (e : Nat) (f : Eng → Eng) : (s.updEng e f).outbox = s.outbox := rfl
@[simp] theorem updEng_freeN (e : Nat) (f : Eng → Eng) : (s.updEng e f).freeN = s.freeN := rfl
@[simp] theorem updEng_pending (e : Nat) (f : Eng → Eng) : (s.updEng e f).pending = s.pending := rfl

@[simp] theorem updPair_sys (p : Nat) (f : Pair → Pair) : (s.updPair p f).sys = s.sys := rfl
@[simp] theorem updPair_hif (p : Nat) (f : Pair → Pair) : (s.updPair p f).hif = s.hif := rfl
@[simp] theorem updPair_cyc (p : Nat) (f : Pair → Pair) : (s.updPair p f).cyc = s.cyc := rfl
@[simp] theorem updPair_lsp (p : Nat) (f : Pair → Pair) : (s.updPair p f).lsp = s.lsp.upd p {} f := rfl
@[simp] theorem updPair_cle (p : Nat) (f : Pair → Pair) : (s.updPair p f).cle = s.cle := rfl
@[simp] theorem updPair_chg (p : Nat) (f : Pair → Pair) : (s.updPair p f).chg = s.chg := rfl
@[simp] theorem updPair_dpx (p : Nat) (f : Pair → Pair) : (s.updPair p f).dpx = s.dpx := rfl
@[simp] theorem updPair_dpx2 (p : Nat) (f : Pair → Pair) : (s.updPair p f).dpx2 = s.dpx2 := rfl
@[simp] theorem updPair_mir (p : Nat) (f : Pair → Pair) : (s.updPair p f).mir = s.mir := rfl
@[simp] theorem updPair_net (p : Nat) (f : Pair → Pair) : (s.updPair p f).net = s.net := rfl
@[simp] theorem updPair_tim (p : Nat) (f : Pair → Pair) : (s.updPair p f).tim = s.tim := rfl
@[simp] theorem updPair_can (p : Nat) (f : Pair → Pair) : (s.updPair p f).can = s.can := rfl
@[simp] theorem updPair_canq (p : Nat) (f : Pair → Pair) : (s.updPair p f).canq = s.canq := rfl
@[simp] theorem updPair_fio (p : Nat) (f : Pair → Pair) : (s.updPair p f).fio = s.fio := rfl
@[simp] theorem updPair_saf (p : Nat) (f : Pair → Pair) : (s.updPair p f).saf = s.saf := rfl
@[simp] theorem updPair_tly (p : Nat) (f : Pair → Pair) : (s.updPair p f).tly = s.tly := rfl
@[simp] theorem updPair_mm (p : Nat) (f : Pair → Pair) : (s.updPair p f).mm = s.mm := rfl
@[simp] theorem updPair_boot (p : Nat) (f : Pair → Pair) : (s.updPair p f).boot = s.boot := rfl
@[simp] theorem updPair_pwr (p : Nat) (f : Pair → Pair) : (s.updPair p f).pwr = s.pwr := rfl
@[simp] theorem updPair_ret (p : Nat) (f : Pair → Pair) : (s.updPair p f).ret = s.ret := rfl
@[simp] theorem updPair_cfg (p : Nat) (f : Pair → Pair) : (s.updPair p f).cfg = s.cfg := rfl
@[simp] theorem updPair_prog (p : Nat) (f : Pair → Pair) : (s.updPair p f).prog = s.prog := rfl
@[simp] theorem updPair_regs (p : Nat) (f : Pair → Pair) : (s.updPair p f).regs = s.regs := rfl
@[simp] theorem updPair_live (p : Nat) (f : Pair → Pair) : (s.updPair p f).live = s.live := rfl
@[simp] theorem updPair_votes (p : Nat) (f : Pair → Pair) : (s.updPair p f).votes = s.votes := rfl
@[simp] theorem updPair_press (p : Nat) (f : Pair → Pair) : (s.updPair p f).press = s.press := rfl
@[simp] theorem updPair_posted (p : Nat) (f : Pair → Pair) : (s.updPair p f).posted = s.posted := rfl
@[simp] theorem updPair_outbox (p : Nat) (f : Pair → Pair) : (s.updPair p f).outbox = s.outbox := rfl
@[simp] theorem updPair_freeN (p : Nat) (f : Pair → Pair) : (s.updPair p f).freeN = s.freeN := rfl
@[simp] theorem updPair_pending (p : Nat) (f : Pair → Pair) : (s.updPair p f).pending = s.pending := rfl

@[simp] theorem updDpx_sys (f : Dpx → Dpx) : (s.updDpx f).sys = s.sys := rfl
@[simp] theorem updDpx_hif (f : Dpx → Dpx) : (s.updDpx f).hif = s.hif := rfl
@[simp] theorem updDpx_cyc (f : Dpx → Dpx) : (s.updDpx f).cyc = s.cyc := rfl
@[simp] theorem updDpx_lsp (f : Dpx → Dpx) : (s.updDpx f).lsp = s.lsp := rfl
@[simp] theorem updDpx_cle (f : Dpx → Dpx) : (s.updDpx f).cle = s.cle := rfl
@[simp] theorem updDpx_chg (f : Dpx → Dpx) : (s.updDpx f).chg = s.chg := rfl
@[simp] theorem updDpx_dpx (f : Dpx → Dpx) : (s.updDpx f).dpx = f s.dpx := rfl
@[simp] theorem updDpx_dpx2 (f : Dpx → Dpx) : (s.updDpx f).dpx2 = s.dpx2 := rfl
@[simp] theorem updDpx_mir (f : Dpx → Dpx) : (s.updDpx f).mir = s.mir := rfl
@[simp] theorem updDpx_net (f : Dpx → Dpx) : (s.updDpx f).net = s.net := rfl
@[simp] theorem updDpx_tim (f : Dpx → Dpx) : (s.updDpx f).tim = s.tim := rfl
@[simp] theorem updDpx_can (f : Dpx → Dpx) : (s.updDpx f).can = s.can := rfl
@[simp] theorem updDpx_canq (f : Dpx → Dpx) : (s.updDpx f).canq = s.canq := rfl
@[simp] theorem updDpx_fio (f : Dpx → Dpx) : (s.updDpx f).fio = s.fio := rfl
@[simp] theorem updDpx_saf (f : Dpx → Dpx) : (s.updDpx f).saf = s.saf := rfl
@[simp] theorem updDpx_tly (f : Dpx → Dpx) : (s.updDpx f).tly = s.tly := rfl
@[simp] theorem updDpx_mm (f : Dpx → Dpx) : (s.updDpx f).mm = s.mm := rfl
@[simp] theorem updDpx_boot (f : Dpx → Dpx) : (s.updDpx f).boot = s.boot := rfl
@[simp] theorem updDpx_pwr (f : Dpx → Dpx) : (s.updDpx f).pwr = s.pwr := rfl
@[simp] theorem updDpx_ret (f : Dpx → Dpx) : (s.updDpx f).ret = s.ret := rfl
@[simp] theorem updDpx_cfg (f : Dpx → Dpx) : (s.updDpx f).cfg = s.cfg := rfl
@[simp] theorem updDpx_prog (f : Dpx → Dpx) : (s.updDpx f).prog = s.prog := rfl
@[simp] theorem updDpx_regs (f : Dpx → Dpx) : (s.updDpx f).regs = s.regs := rfl
@[simp] theorem updDpx_live (f : Dpx → Dpx) : (s.updDpx f).live = s.live := rfl
@[simp] theorem updDpx_votes (f : Dpx → Dpx) : (s.updDpx f).votes = s.votes := rfl
@[simp] theorem updDpx_press (f : Dpx → Dpx) : (s.updDpx f).press = s.press := rfl
@[simp] theorem updDpx_posted (f : Dpx → Dpx) : (s.updDpx f).posted = s.posted := rfl
@[simp] theorem updDpx_outbox (f : Dpx → Dpx) : (s.updDpx f).outbox = s.outbox := rfl
@[simp] theorem updDpx_freeN (f : Dpx → Dpx) : (s.updDpx f).freeN = s.freeN := rfl
@[simp] theorem updDpx_pending (f : Dpx → Dpx) : (s.updDpx f).pending = s.pending := rfl

@[simp] theorem updCls_sys (c : Nat) (f : Cls → Cls) : (s.updCls c f).sys = s.sys := rfl
@[simp] theorem updCls_hif (c : Nat) (f : Cls → Cls) : (s.updCls c f).hif = s.hif := rfl
@[simp] theorem updCls_cyc (c : Nat) (f : Cls → Cls) : (s.updCls c f).cyc = { s.cyc with cls := s.cyc.cls.upd c {} f } := rfl
@[simp] theorem updCls_lsp (c : Nat) (f : Cls → Cls) : (s.updCls c f).lsp = s.lsp := rfl
@[simp] theorem updCls_cle (c : Nat) (f : Cls → Cls) : (s.updCls c f).cle = s.cle := rfl
@[simp] theorem updCls_chg (c : Nat) (f : Cls → Cls) : (s.updCls c f).chg = s.chg := rfl
@[simp] theorem updCls_dpx (c : Nat) (f : Cls → Cls) : (s.updCls c f).dpx = s.dpx := rfl
@[simp] theorem updCls_dpx2 (c : Nat) (f : Cls → Cls) : (s.updCls c f).dpx2 = s.dpx2 := rfl
@[simp] theorem updCls_mir (c : Nat) (f : Cls → Cls) : (s.updCls c f).mir = s.mir := rfl
@[simp] theorem updCls_net (c : Nat) (f : Cls → Cls) : (s.updCls c f).net = s.net := rfl
@[simp] theorem updCls_tim (c : Nat) (f : Cls → Cls) : (s.updCls c f).tim = s.tim := rfl
@[simp] theorem updCls_can (c : Nat) (f : Cls → Cls) : (s.updCls c f).can = s.can := rfl
@[simp] theorem updCls_canq (c : Nat) (f : Cls → Cls) : (s.updCls c f).canq = s.canq := rfl
@[simp] theorem updCls_fio (c : Nat) (f : Cls → Cls) : (s.updCls c f).fio = s.fio := rfl
@[simp] theorem updCls_saf (c : Nat) (f : Cls → Cls) : (s.updCls c f).saf = s.saf := rfl
@[simp] theorem updCls_tly (c : Nat) (f : Cls → Cls) : (s.updCls c f).tly = s.tly := rfl
@[simp] theorem updCls_mm (c : Nat) (f : Cls → Cls) : (s.updCls c f).mm = s.mm := rfl
@[simp] theorem updCls_boot (c : Nat) (f : Cls → Cls) : (s.updCls c f).boot = s.boot := rfl
@[simp] theorem updCls_pwr (c : Nat) (f : Cls → Cls) : (s.updCls c f).pwr = s.pwr := rfl
@[simp] theorem updCls_ret (c : Nat) (f : Cls → Cls) : (s.updCls c f).ret = s.ret := rfl
@[simp] theorem updCls_cfg (c : Nat) (f : Cls → Cls) : (s.updCls c f).cfg = s.cfg := rfl
@[simp] theorem updCls_prog (c : Nat) (f : Cls → Cls) : (s.updCls c f).prog = s.prog := rfl
@[simp] theorem updCls_regs (c : Nat) (f : Cls → Cls) : (s.updCls c f).regs = s.regs := rfl
@[simp] theorem updCls_live (c : Nat) (f : Cls → Cls) : (s.updCls c f).live = s.live := rfl
@[simp] theorem updCls_votes (c : Nat) (f : Cls → Cls) : (s.updCls c f).votes = s.votes := rfl
@[simp] theorem updCls_press (c : Nat) (f : Cls → Cls) : (s.updCls c f).press = s.press := rfl
@[simp] theorem updCls_posted (c : Nat) (f : Cls → Cls) : (s.updCls c f).posted = s.posted := rfl
@[simp] theorem updCls_outbox (c : Nat) (f : Cls → Cls) : (s.updCls c f).outbox = s.outbox := rfl
@[simp] theorem updCls_freeN (c : Nat) (f : Cls → Cls) : (s.updCls c f).freeN = s.freeN := rfl
@[simp] theorem updCls_pending (c : Nat) (f : Cls → Cls) : (s.updCls c f).pending = s.pending := rfl

@[simp] theorem updMem_sys (c : Nat) (f : ClsMem → ClsMem) : (s.updMem c f).sys = s.sys := rfl
@[simp] theorem updMem_hif (c : Nat) (f : ClsMem → ClsMem) : (s.updMem c f).hif = s.hif := rfl
@[simp] theorem updMem_cyc (c : Nat) (f : ClsMem → ClsMem) : (s.updMem c f).cyc = { s.cyc with mem := s.cyc.mem.upd c {} f } := rfl
@[simp] theorem updMem_lsp (c : Nat) (f : ClsMem → ClsMem) : (s.updMem c f).lsp = s.lsp := rfl
@[simp] theorem updMem_cle (c : Nat) (f : ClsMem → ClsMem) : (s.updMem c f).cle = s.cle := rfl
@[simp] theorem updMem_chg (c : Nat) (f : ClsMem → ClsMem) : (s.updMem c f).chg = s.chg := rfl
@[simp] theorem updMem_dpx (c : Nat) (f : ClsMem → ClsMem) : (s.updMem c f).dpx = s.dpx := rfl
@[simp] theorem updMem_dpx2 (c : Nat) (f : ClsMem → ClsMem) : (s.updMem c f).dpx2 = s.dpx2 := rfl
@[simp] theorem updMem_mir (c : Nat) (f : ClsMem → ClsMem) : (s.updMem c f).mir = s.mir := rfl
@[simp] theorem updMem_net (c : Nat) (f : ClsMem → ClsMem) : (s.updMem c f).net = s.net := rfl
@[simp] theorem updMem_tim (c : Nat) (f : ClsMem → ClsMem) : (s.updMem c f).tim = s.tim := rfl
@[simp] theorem updMem_can (c : Nat) (f : ClsMem → ClsMem) : (s.updMem c f).can = s.can := rfl
@[simp] theorem updMem_canq (c : Nat) (f : ClsMem → ClsMem) : (s.updMem c f).canq = s.canq := rfl
@[simp] theorem updMem_fio (c : Nat) (f : ClsMem → ClsMem) : (s.updMem c f).fio = s.fio := rfl
@[simp] theorem updMem_saf (c : Nat) (f : ClsMem → ClsMem) : (s.updMem c f).saf = s.saf := rfl
@[simp] theorem updMem_tly (c : Nat) (f : ClsMem → ClsMem) : (s.updMem c f).tly = s.tly := rfl
@[simp] theorem updMem_mm (c : Nat) (f : ClsMem → ClsMem) : (s.updMem c f).mm = s.mm := rfl
@[simp] theorem updMem_boot (c : Nat) (f : ClsMem → ClsMem) : (s.updMem c f).boot = s.boot := rfl
@[simp] theorem updMem_pwr (c : Nat) (f : ClsMem → ClsMem) : (s.updMem c f).pwr = s.pwr := rfl
@[simp] theorem updMem_ret (c : Nat) (f : ClsMem → ClsMem) : (s.updMem c f).ret = s.ret := rfl
@[simp] theorem updMem_cfg (c : Nat) (f : ClsMem → ClsMem) : (s.updMem c f).cfg = s.cfg := rfl
@[simp] theorem updMem_prog (c : Nat) (f : ClsMem → ClsMem) : (s.updMem c f).prog = s.prog := rfl
@[simp] theorem updMem_regs (c : Nat) (f : ClsMem → ClsMem) : (s.updMem c f).regs = s.regs := rfl
@[simp] theorem updMem_live (c : Nat) (f : ClsMem → ClsMem) : (s.updMem c f).live = s.live := rfl
@[simp] theorem updMem_votes (c : Nat) (f : ClsMem → ClsMem) : (s.updMem c f).votes = s.votes := rfl
@[simp] theorem updMem_press (c : Nat) (f : ClsMem → ClsMem) : (s.updMem c f).press = s.press := rfl
@[simp] theorem updMem_posted (c : Nat) (f : ClsMem → ClsMem) : (s.updMem c f).posted = s.posted := rfl
@[simp] theorem updMem_outbox (c : Nat) (f : ClsMem → ClsMem) : (s.updMem c f).outbox = s.outbox := rfl
@[simp] theorem updMem_freeN (c : Nat) (f : ClsMem → ClsMem) : (s.updMem c f).freeN = s.freeN := rfl
@[simp] theorem updMem_pending (c : Nat) (f : ClsMem → ClsMem) : (s.updMem c f).pending = s.pending := rfl

@[simp] theorem updHart_sys (f : Hart → Hart) : (s.updHart f).sys = s.sys := rfl
@[simp] theorem updHart_hif (f : Hart → Hart) : (s.updHart f).hif = s.hif := rfl
@[simp] theorem updHart_cyc (f : Hart → Hart) : (s.updHart f).cyc = s.cyc := rfl
@[simp] theorem updHart_lsp (f : Hart → Hart) : (s.updHart f).lsp = s.lsp := rfl
@[simp] theorem updHart_cle (f : Hart → Hart) : (s.updHart f).cle = s.cle := rfl
@[simp] theorem updHart_chg (f : Hart → Hart) : (s.updHart f).chg = s.chg := rfl
@[simp] theorem updHart_dpx (f : Hart → Hart) : (s.updHart f).dpx = s.dpx := rfl
@[simp] theorem updHart_dpx2 (f : Hart → Hart) : (s.updHart f).dpx2 = s.dpx2 := rfl
@[simp] theorem updHart_mir (f : Hart → Hart) : (s.updHart f).mir = s.mir := rfl
@[simp] theorem updHart_net (f : Hart → Hart) : (s.updHart f).net = s.net := rfl
@[simp] theorem updHart_tim (f : Hart → Hart) : (s.updHart f).tim = s.tim := rfl
@[simp] theorem updHart_can (f : Hart → Hart) : (s.updHart f).can = s.can := rfl
@[simp] theorem updHart_canq (f : Hart → Hart) : (s.updHart f).canq = s.canq := rfl
@[simp] theorem updHart_fio (f : Hart → Hart) : (s.updHart f).fio = { s.fio with hart := f s.fio.hart } := rfl
@[simp] theorem updHart_saf (f : Hart → Hart) : (s.updHart f).saf = s.saf := rfl
@[simp] theorem updHart_tly (f : Hart → Hart) : (s.updHart f).tly = s.tly := rfl
@[simp] theorem updHart_mm (f : Hart → Hart) : (s.updHart f).mm = s.mm := rfl
@[simp] theorem updHart_boot (f : Hart → Hart) : (s.updHart f).boot = s.boot := rfl
@[simp] theorem updHart_pwr (f : Hart → Hart) : (s.updHart f).pwr = s.pwr := rfl
@[simp] theorem updHart_ret (f : Hart → Hart) : (s.updHart f).ret = s.ret := rfl
@[simp] theorem updHart_cfg (f : Hart → Hart) : (s.updHart f).cfg = s.cfg := rfl
@[simp] theorem updHart_prog (f : Hart → Hart) : (s.updHart f).prog = s.prog := rfl
@[simp] theorem updHart_regs (f : Hart → Hart) : (s.updHart f).regs = s.regs := rfl
@[simp] theorem updHart_live (f : Hart → Hart) : (s.updHart f).live = s.live := rfl
@[simp] theorem updHart_votes (f : Hart → Hart) : (s.updHart f).votes = s.votes := rfl
@[simp] theorem updHart_press (f : Hart → Hart) : (s.updHart f).press = s.press := rfl
@[simp] theorem updHart_posted (f : Hart → Hart) : (s.updHart f).posted = s.posted := rfl
@[simp] theorem updHart_outbox (f : Hart → Hart) : (s.updHart f).outbox = s.outbox := rfl
@[simp] theorem updHart_freeN (f : Hart → Hart) : (s.updHart f).freeN = s.freeN := rfl
@[simp] theorem updHart_pending (f : Hart → Hart) : (s.updHart f).pending = s.pending := rfl

@[simp] theorem updDio_sys (n : Nat) (f : Dio → Dio) : (s.updDio n f).sys = s.sys := rfl
@[simp] theorem updDio_hif (n : Nat) (f : Dio → Dio) : (s.updDio n f).hif = s.hif := rfl
@[simp] theorem updDio_cyc (n : Nat) (f : Dio → Dio) : (s.updDio n f).cyc = s.cyc := rfl
@[simp] theorem updDio_lsp (n : Nat) (f : Dio → Dio) : (s.updDio n f).lsp = s.lsp := rfl
@[simp] theorem updDio_cle (n : Nat) (f : Dio → Dio) : (s.updDio n f).cle = s.cle := rfl
@[simp] theorem updDio_chg (n : Nat) (f : Dio → Dio) : (s.updDio n f).chg = s.chg := rfl
@[simp] theorem updDio_dpx (n : Nat) (f : Dio → Dio) : (s.updDio n f).dpx = s.dpx := rfl
@[simp] theorem updDio_dpx2 (n : Nat) (f : Dio → Dio) : (s.updDio n f).dpx2 = s.dpx2 := rfl
@[simp] theorem updDio_mir (n : Nat) (f : Dio → Dio) : (s.updDio n f).mir = s.mir := rfl
@[simp] theorem updDio_net (n : Nat) (f : Dio → Dio) : (s.updDio n f).net = s.net := rfl
@[simp] theorem updDio_tim (n : Nat) (f : Dio → Dio) : (s.updDio n f).tim = s.tim := rfl
@[simp] theorem updDio_can (n : Nat) (f : Dio → Dio) : (s.updDio n f).can = s.can := rfl
@[simp] theorem updDio_canq (n : Nat) (f : Dio → Dio) : (s.updDio n f).canq = s.canq := rfl
@[simp] theorem updDio_fio (n : Nat) (f : Dio → Dio) : (s.updDio n f).fio = { s.fio with dio := s.fio.dio.upd n {} f } := rfl
@[simp] theorem updDio_saf (n : Nat) (f : Dio → Dio) : (s.updDio n f).saf = s.saf := rfl
@[simp] theorem updDio_tly (n : Nat) (f : Dio → Dio) : (s.updDio n f).tly = s.tly := rfl
@[simp] theorem updDio_mm (n : Nat) (f : Dio → Dio) : (s.updDio n f).mm = s.mm := rfl
@[simp] theorem updDio_boot (n : Nat) (f : Dio → Dio) : (s.updDio n f).boot = s.boot := rfl
@[simp] theorem updDio_pwr (n : Nat) (f : Dio → Dio) : (s.updDio n f).pwr = s.pwr := rfl
@[simp] theorem updDio_ret (n : Nat) (f : Dio → Dio) : (s.updDio n f).ret = s.ret := rfl
@[simp] theorem updDio_cfg (n : Nat) (f : Dio → Dio) : (s.updDio n f).cfg = s.cfg := rfl
@[simp] theorem updDio_prog (n : Nat) (f : Dio → Dio) : (s.updDio n f).prog = s.prog := rfl
@[simp] theorem updDio_regs (n : Nat) (f : Dio → Dio) : (s.updDio n f).regs = s.regs := rfl
@[simp] theorem updDio_live (n : Nat) (f : Dio → Dio) : (s.updDio n f).live = s.live := rfl
@[simp] theorem updDio_votes (n : Nat) (f : Dio → Dio) : (s.updDio n f).votes = s.votes := rfl
@[simp] theorem updDio_press (n : Nat) (f : Dio → Dio) : (s.updDio n f).press = s.press := rfl
@[simp] theorem updDio_posted (n : Nat) (f : Dio → Dio) : (s.updDio n f).posted = s.posted := rfl
@[simp] theorem updDio_outbox (n : Nat) (f : Dio → Dio) : (s.updDio n f).outbox = s.outbox := rfl
@[simp] theorem updDio_freeN (n : Nat) (f : Dio → Dio) : (s.updDio n f).freeN = s.freeN := rfl
@[simp] theorem updDio_pending (n : Nat) (f : Dio → Dio) : (s.updDio n f).pending = s.pending := rfl

@[simp] theorem updAio_sys (n : Nat) (f : Aio → Aio) : (s.updAio n f).sys = s.sys := rfl
@[simp] theorem updAio_hif (n : Nat) (f : Aio → Aio) : (s.updAio n f).hif = s.hif := rfl
@[simp] theorem updAio_cyc (n : Nat) (f : Aio → Aio) : (s.updAio n f).cyc = s.cyc := rfl
@[simp] theorem updAio_lsp (n : Nat) (f : Aio → Aio) : (s.updAio n f).lsp = s.lsp := rfl
@[simp] theorem updAio_cle (n : Nat) (f : Aio → Aio) : (s.updAio n f).cle = s.cle := rfl
@[simp] theorem updAio_chg (n : Nat) (f : Aio → Aio) : (s.updAio n f).chg = s.chg := rfl
@[simp] theorem updAio_dpx (n : Nat) (f : Aio → Aio) : (s.updAio n f).dpx = s.dpx := rfl
@[simp] theorem updAio_dpx2 (n : Nat) (f : Aio → Aio) : (s.updAio n f).dpx2 = s.dpx2 := rfl
@[simp] theorem updAio_mir (n : Nat) (f : Aio → Aio) : (s.updAio n f).mir = s.mir := rfl
@[simp] theorem updAio_net (n : Nat) (f : Aio → Aio) : (s.updAio n f).net = s.net := rfl
@[simp] theorem updAio_tim (n : Nat) (f : Aio → Aio) : (s.updAio n f).tim = s.tim := rfl
@[simp] theorem updAio_can (n : Nat) (f : Aio → Aio) : (s.updAio n f).can = s.can := rfl
@[simp] theorem updAio_canq (n : Nat) (f : Aio → Aio) : (s.updAio n f).canq = s.canq := rfl
@[simp] theorem updAio_fio (n : Nat) (f : Aio → Aio) : (s.updAio n f).fio = { s.fio with aio := s.fio.aio.upd n {} f } := rfl
@[simp] theorem updAio_saf (n : Nat) (f : Aio → Aio) : (s.updAio n f).saf = s.saf := rfl
@[simp] theorem updAio_tly (n : Nat) (f : Aio → Aio) : (s.updAio n f).tly = s.tly := rfl
@[simp] theorem updAio_mm (n : Nat) (f : Aio → Aio) : (s.updAio n f).mm = s.mm := rfl
@[simp] theorem updAio_boot (n : Nat) (f : Aio → Aio) : (s.updAio n f).boot = s.boot := rfl
@[simp] theorem updAio_pwr (n : Nat) (f : Aio → Aio) : (s.updAio n f).pwr = s.pwr := rfl
@[simp] theorem updAio_ret (n : Nat) (f : Aio → Aio) : (s.updAio n f).ret = s.ret := rfl
@[simp] theorem updAio_cfg (n : Nat) (f : Aio → Aio) : (s.updAio n f).cfg = s.cfg := rfl
@[simp] theorem updAio_prog (n : Nat) (f : Aio → Aio) : (s.updAio n f).prog = s.prog := rfl
@[simp] theorem updAio_regs (n : Nat) (f : Aio → Aio) : (s.updAio n f).regs = s.regs := rfl
@[simp] theorem updAio_live (n : Nat) (f : Aio → Aio) : (s.updAio n f).live = s.live := rfl
@[simp] theorem updAio_votes (n : Nat) (f : Aio → Aio) : (s.updAio n f).votes = s.votes := rfl
@[simp] theorem updAio_press (n : Nat) (f : Aio → Aio) : (s.updAio n f).press = s.press := rfl
@[simp] theorem updAio_posted (n : Nat) (f : Aio → Aio) : (s.updAio n f).posted = s.posted := rfl
@[simp] theorem updAio_outbox (n : Nat) (f : Aio → Aio) : (s.updAio n f).outbox = s.outbox := rfl
@[simp] theorem updAio_freeN (n : Nat) (f : Aio → Aio) : (s.updAio n f).freeN = s.freeN := rfl
@[simp] theorem updAio_pending (n : Nat) (f : Aio → Aio) : (s.updAio n f).pending = s.pending := rfl

@[simp] theorem updCan_sys (c : Nat) (f : Can → Can) : (s.updCan c f).sys = s.sys := rfl
@[simp] theorem updCan_hif (c : Nat) (f : Can → Can) : (s.updCan c f).hif = s.hif := rfl
@[simp] theorem updCan_cyc (c : Nat) (f : Can → Can) : (s.updCan c f).cyc = s.cyc := rfl
@[simp] theorem updCan_lsp (c : Nat) (f : Can → Can) : (s.updCan c f).lsp = s.lsp := rfl
@[simp] theorem updCan_cle (c : Nat) (f : Can → Can) : (s.updCan c f).cle = s.cle := rfl
@[simp] theorem updCan_chg (c : Nat) (f : Can → Can) : (s.updCan c f).chg = s.chg := rfl
@[simp] theorem updCan_dpx (c : Nat) (f : Can → Can) : (s.updCan c f).dpx = s.dpx := rfl
@[simp] theorem updCan_dpx2 (c : Nat) (f : Can → Can) : (s.updCan c f).dpx2 = s.dpx2 := rfl
@[simp] theorem updCan_mir (c : Nat) (f : Can → Can) : (s.updCan c f).mir = s.mir := rfl
@[simp] theorem updCan_net (c : Nat) (f : Can → Can) : (s.updCan c f).net = s.net := rfl
@[simp] theorem updCan_tim (c : Nat) (f : Can → Can) : (s.updCan c f).tim = s.tim := rfl
@[simp] theorem updCan_can (c : Nat) (f : Can → Can) : (s.updCan c f).can = s.can.upd c {} f := rfl
@[simp] theorem updCan_canq (c : Nat) (f : Can → Can) : (s.updCan c f).canq = s.canq := rfl
@[simp] theorem updCan_fio (c : Nat) (f : Can → Can) : (s.updCan c f).fio = s.fio := rfl
@[simp] theorem updCan_saf (c : Nat) (f : Can → Can) : (s.updCan c f).saf = s.saf := rfl
@[simp] theorem updCan_tly (c : Nat) (f : Can → Can) : (s.updCan c f).tly = s.tly := rfl
@[simp] theorem updCan_mm (c : Nat) (f : Can → Can) : (s.updCan c f).mm = s.mm := rfl
@[simp] theorem updCan_boot (c : Nat) (f : Can → Can) : (s.updCan c f).boot = s.boot := rfl
@[simp] theorem updCan_pwr (c : Nat) (f : Can → Can) : (s.updCan c f).pwr = s.pwr := rfl
@[simp] theorem updCan_ret (c : Nat) (f : Can → Can) : (s.updCan c f).ret = s.ret := rfl
@[simp] theorem updCan_cfg (c : Nat) (f : Can → Can) : (s.updCan c f).cfg = s.cfg := rfl
@[simp] theorem updCan_prog (c : Nat) (f : Can → Can) : (s.updCan c f).prog = s.prog := rfl
@[simp] theorem updCan_regs (c : Nat) (f : Can → Can) : (s.updCan c f).regs = s.regs := rfl
@[simp] theorem updCan_live (c : Nat) (f : Can → Can) : (s.updCan c f).live = s.live := rfl
@[simp] theorem updCan_votes (c : Nat) (f : Can → Can) : (s.updCan c f).votes = s.votes := rfl
@[simp] theorem updCan_press (c : Nat) (f : Can → Can) : (s.updCan c f).press = s.press := rfl
@[simp] theorem updCan_posted (c : Nat) (f : Can → Can) : (s.updCan c f).posted = s.posted := rfl
@[simp] theorem updCan_outbox (c : Nat) (f : Can → Can) : (s.updCan c f).outbox = s.outbox := rfl
@[simp] theorem updCan_freeN (c : Nat) (f : Can → Can) : (s.updCan c f).freeN = s.freeN := rfl
@[simp] theorem updCan_pending (c : Nat) (f : Can → Can) : (s.updCan c f).pending = s.pending := rfl

@[simp] theorem updCanQ_sys (c : Nat) (f : CanQ → CanQ) : (s.updCanQ c f).sys = s.sys := rfl
@[simp] theorem updCanQ_hif (c : Nat) (f : CanQ → CanQ) : (s.updCanQ c f).hif = s.hif := rfl
@[simp] theorem updCanQ_cyc (c : Nat) (f : CanQ → CanQ) : (s.updCanQ c f).cyc = s.cyc := rfl
@[simp] theorem updCanQ_lsp (c : Nat) (f : CanQ → CanQ) : (s.updCanQ c f).lsp = s.lsp := rfl
@[simp] theorem updCanQ_cle (c : Nat) (f : CanQ → CanQ) : (s.updCanQ c f).cle = s.cle := rfl
@[simp] theorem updCanQ_chg (c : Nat) (f : CanQ → CanQ) : (s.updCanQ c f).chg = s.chg := rfl
@[simp] theorem updCanQ_dpx (c : Nat) (f : CanQ → CanQ) : (s.updCanQ c f).dpx = s.dpx := rfl
@[simp] theorem updCanQ_dpx2 (c : Nat) (f : CanQ → CanQ) : (s.updCanQ c f).dpx2 = s.dpx2 := rfl
@[simp] theorem updCanQ_mir (c : Nat) (f : CanQ → CanQ) : (s.updCanQ c f).mir = s.mir := rfl
@[simp] theorem updCanQ_net (c : Nat) (f : CanQ → CanQ) : (s.updCanQ c f).net = s.net := rfl
@[simp] theorem updCanQ_tim (c : Nat) (f : CanQ → CanQ) : (s.updCanQ c f).tim = s.tim := rfl
@[simp] theorem updCanQ_can (c : Nat) (f : CanQ → CanQ) : (s.updCanQ c f).can = s.can := rfl
@[simp] theorem updCanQ_canq (c : Nat) (f : CanQ → CanQ) : (s.updCanQ c f).canq = s.canq.upd c {} f := rfl
@[simp] theorem updCanQ_fio (c : Nat) (f : CanQ → CanQ) : (s.updCanQ c f).fio = s.fio := rfl
@[simp] theorem updCanQ_saf (c : Nat) (f : CanQ → CanQ) : (s.updCanQ c f).saf = s.saf := rfl
@[simp] theorem updCanQ_tly (c : Nat) (f : CanQ → CanQ) : (s.updCanQ c f).tly = s.tly := rfl
@[simp] theorem updCanQ_mm (c : Nat) (f : CanQ → CanQ) : (s.updCanQ c f).mm = s.mm := rfl
@[simp] theorem updCanQ_boot (c : Nat) (f : CanQ → CanQ) : (s.updCanQ c f).boot = s.boot := rfl
@[simp] theorem updCanQ_pwr (c : Nat) (f : CanQ → CanQ) : (s.updCanQ c f).pwr = s.pwr := rfl
@[simp] theorem updCanQ_ret (c : Nat) (f : CanQ → CanQ) : (s.updCanQ c f).ret = s.ret := rfl
@[simp] theorem updCanQ_cfg (c : Nat) (f : CanQ → CanQ) : (s.updCanQ c f).cfg = s.cfg := rfl
@[simp] theorem updCanQ_prog (c : Nat) (f : CanQ → CanQ) : (s.updCanQ c f).prog = s.prog := rfl
@[simp] theorem updCanQ_regs (c : Nat) (f : CanQ → CanQ) : (s.updCanQ c f).regs = s.regs := rfl
@[simp] theorem updCanQ_live (c : Nat) (f : CanQ → CanQ) : (s.updCanQ c f).live = s.live := rfl
@[simp] theorem updCanQ_votes (c : Nat) (f : CanQ → CanQ) : (s.updCanQ c f).votes = s.votes := rfl
@[simp] theorem updCanQ_press (c : Nat) (f : CanQ → CanQ) : (s.updCanQ c f).press = s.press := rfl
@[simp] theorem updCanQ_posted (c : Nat) (f : CanQ → CanQ) : (s.updCanQ c f).posted = s.posted := rfl
@[simp] theorem updCanQ_outbox (c : Nat) (f : CanQ → CanQ) : (s.updCanQ c f).outbox = s.outbox := rfl
@[simp] theorem updCanQ_freeN (c : Nat) (f : CanQ → CanQ) : (s.updCanQ c f).freeN = s.freeN := rfl
@[simp] theorem updCanQ_pending (c : Nat) (f : CanQ → CanQ) : (s.updCanQ c f).pending = s.pending := rfl

@[simp] theorem updMm_sys (f : Mm → Mm) : (s.updMm f).sys = s.sys := rfl
@[simp] theorem updMm_hif (f : Mm → Mm) : (s.updMm f).hif = s.hif := rfl
@[simp] theorem updMm_cyc (f : Mm → Mm) : (s.updMm f).cyc = s.cyc := rfl
@[simp] theorem updMm_lsp (f : Mm → Mm) : (s.updMm f).lsp = s.lsp := rfl
@[simp] theorem updMm_cle (f : Mm → Mm) : (s.updMm f).cle = s.cle := rfl
@[simp] theorem updMm_chg (f : Mm → Mm) : (s.updMm f).chg = s.chg := rfl
@[simp] theorem updMm_dpx (f : Mm → Mm) : (s.updMm f).dpx = s.dpx := rfl
@[simp] theorem updMm_dpx2 (f : Mm → Mm) : (s.updMm f).dpx2 = s.dpx2 := rfl
@[simp] theorem updMm_mir (f : Mm → Mm) : (s.updMm f).mir = s.mir := rfl
@[simp] theorem updMm_net (f : Mm → Mm) : (s.updMm f).net = s.net := rfl
@[simp] theorem updMm_tim (f : Mm → Mm) : (s.updMm f).tim = s.tim := rfl
@[simp] theorem updMm_can (f : Mm → Mm) : (s.updMm f).can = s.can := rfl
@[simp] theorem updMm_canq (f : Mm → Mm) : (s.updMm f).canq = s.canq := rfl
@[simp] theorem updMm_fio (f : Mm → Mm) : (s.updMm f).fio = s.fio := rfl
@[simp] theorem updMm_saf (f : Mm → Mm) : (s.updMm f).saf = s.saf := rfl
@[simp] theorem updMm_tly (f : Mm → Mm) : (s.updMm f).tly = s.tly := rfl
@[simp] theorem updMm_mm (f : Mm → Mm) : (s.updMm f).mm = f s.mm := rfl
@[simp] theorem updMm_boot (f : Mm → Mm) : (s.updMm f).boot = s.boot := rfl
@[simp] theorem updMm_pwr (f : Mm → Mm) : (s.updMm f).pwr = s.pwr := rfl
@[simp] theorem updMm_ret (f : Mm → Mm) : (s.updMm f).ret = s.ret := rfl
@[simp] theorem updMm_cfg (f : Mm → Mm) : (s.updMm f).cfg = s.cfg := rfl
@[simp] theorem updMm_prog (f : Mm → Mm) : (s.updMm f).prog = s.prog := rfl
@[simp] theorem updMm_regs (f : Mm → Mm) : (s.updMm f).regs = s.regs := rfl
@[simp] theorem updMm_live (f : Mm → Mm) : (s.updMm f).live = s.live := rfl
@[simp] theorem updMm_votes (f : Mm → Mm) : (s.updMm f).votes = s.votes := rfl
@[simp] theorem updMm_press (f : Mm → Mm) : (s.updMm f).press = s.press := rfl
@[simp] theorem updMm_posted (f : Mm → Mm) : (s.updMm f).posted = s.posted := rfl
@[simp] theorem updMm_outbox (f : Mm → Mm) : (s.updMm f).outbox = s.outbox := rfl
@[simp] theorem updMm_freeN (f : Mm → Mm) : (s.updMm f).freeN = s.freeN := rfl
@[simp] theorem updMm_pending (f : Mm → Mm) : (s.updMm f).pending = s.pending := rfl

@[simp] theorem updSub_sys (i : Nat) (f : Sub → Sub) : (s.updSub i f).sys = s.sys := rfl
@[simp] theorem updSub_hif (i : Nat) (f : Sub → Sub) : (s.updSub i f).hif = s.hif := rfl
@[simp] theorem updSub_cyc (i : Nat) (f : Sub → Sub) : (s.updSub i f).cyc = s.cyc := rfl
@[simp] theorem updSub_lsp (i : Nat) (f : Sub → Sub) : (s.updSub i f).lsp = s.lsp := rfl
@[simp] theorem updSub_cle (i : Nat) (f : Sub → Sub) : (s.updSub i f).cle = s.cle := rfl
@[simp] theorem updSub_chg (i : Nat) (f : Sub → Sub) : (s.updSub i f).chg = s.chg := rfl
@[simp] theorem updSub_dpx (i : Nat) (f : Sub → Sub) : (s.updSub i f).dpx = s.dpx := rfl
@[simp] theorem updSub_dpx2 (i : Nat) (f : Sub → Sub) : (s.updSub i f).dpx2 = s.dpx2 := rfl
@[simp] theorem updSub_mir (i : Nat) (f : Sub → Sub) : (s.updSub i f).mir = s.mir := rfl
@[simp] theorem updSub_net (i : Nat) (f : Sub → Sub) : (s.updSub i f).net = { s.net with subs := s.net.subs.upd i {} f } := rfl
@[simp] theorem updSub_tim (i : Nat) (f : Sub → Sub) : (s.updSub i f).tim = s.tim := rfl
@[simp] theorem updSub_can (i : Nat) (f : Sub → Sub) : (s.updSub i f).can = s.can := rfl
@[simp] theorem updSub_canq (i : Nat) (f : Sub → Sub) : (s.updSub i f).canq = s.canq := rfl
@[simp] theorem updSub_fio (i : Nat) (f : Sub → Sub) : (s.updSub i f).fio = s.fio := rfl
@[simp] theorem updSub_saf (i : Nat) (f : Sub → Sub) : (s.updSub i f).saf = s.saf := rfl
@[simp] theorem updSub_tly (i : Nat) (f : Sub → Sub) : (s.updSub i f).tly = s.tly := rfl
@[simp] theorem updSub_mm (i : Nat) (f : Sub → Sub) : (s.updSub i f).mm = s.mm := rfl
@[simp] theorem updSub_boot (i : Nat) (f : Sub → Sub) : (s.updSub i f).boot = s.boot := rfl
@[simp] theorem updSub_pwr (i : Nat) (f : Sub → Sub) : (s.updSub i f).pwr = s.pwr := rfl
@[simp] theorem updSub_ret (i : Nat) (f : Sub → Sub) : (s.updSub i f).ret = s.ret := rfl
@[simp] theorem updSub_cfg (i : Nat) (f : Sub → Sub) : (s.updSub i f).cfg = s.cfg := rfl
@[simp] theorem updSub_prog (i : Nat) (f : Sub → Sub) : (s.updSub i f).prog = s.prog := rfl
@[simp] theorem updSub_regs (i : Nat) (f : Sub → Sub) : (s.updSub i f).regs = s.regs := rfl
@[simp] theorem updSub_live (i : Nat) (f : Sub → Sub) : (s.updSub i f).live = s.live := rfl
@[simp] theorem updSub_votes (i : Nat) (f : Sub → Sub) : (s.updSub i f).votes = s.votes := rfl
@[simp] theorem updSub_press (i : Nat) (f : Sub → Sub) : (s.updSub i f).press = s.press := rfl
@[simp] theorem updSub_posted (i : Nat) (f : Sub → Sub) : (s.updSub i f).posted = s.posted := rfl
@[simp] theorem updSub_outbox (i : Nat) (f : Sub → Sub) : (s.updSub i f).outbox = s.outbox := rfl
@[simp] theorem updSub_freeN (i : Nat) (f : Sub → Sub) : (s.updSub i f).freeN = s.freeN := rfl
@[simp] theorem updSub_pending (i : Nat) (f : Sub → Sub) : (s.updSub i f).pending = s.pending := rfl

@[simp] theorem updStn_sys (i : Nat) (f : Stn → Stn) : (s.updStn i f).sys = s.sys := rfl
@[simp] theorem updStn_hif (i : Nat) (f : Stn → Stn) : (s.updStn i f).hif = s.hif := rfl
@[simp] theorem updStn_cyc (i : Nat) (f : Stn → Stn) : (s.updStn i f).cyc = s.cyc := rfl
@[simp] theorem updStn_lsp (i : Nat) (f : Stn → Stn) : (s.updStn i f).lsp = s.lsp := rfl
@[simp] theorem updStn_cle (i : Nat) (f : Stn → Stn) : (s.updStn i f).cle = s.cle := rfl
@[simp] theorem updStn_chg (i : Nat) (f : Stn → Stn) : (s.updStn i f).chg = s.chg := rfl
@[simp] theorem updStn_dpx (i : Nat) (f : Stn → Stn) : (s.updStn i f).dpx = s.dpx := rfl
@[simp] theorem updStn_dpx2 (i : Nat) (f : Stn → Stn) : (s.updStn i f).dpx2 = s.dpx2 := rfl
@[simp] theorem updStn_mir (i : Nat) (f : Stn → Stn) : (s.updStn i f).mir = s.mir := rfl
@[simp] theorem updStn_net (i : Nat) (f : Stn → Stn) : (s.updStn i f).net = { s.net with stns := s.net.stns.upd i {} f } := rfl
@[simp] theorem updStn_tim (i : Nat) (f : Stn → Stn) : (s.updStn i f).tim = s.tim := rfl
@[simp] theorem updStn_can (i : Nat) (f : Stn → Stn) : (s.updStn i f).can = s.can := rfl
@[simp] theorem updStn_canq (i : Nat) (f : Stn → Stn) : (s.updStn i f).canq = s.canq := rfl
@[simp] theorem updStn_fio (i : Nat) (f : Stn → Stn) : (s.updStn i f).fio = s.fio := rfl
@[simp] theorem updStn_saf (i : Nat) (f : Stn → Stn) : (s.updStn i f).saf = s.saf := rfl
@[simp] theorem updStn_tly (i : Nat) (f : Stn → Stn) : (s.updStn i f).tly = s.tly := rfl
@[simp] theorem updStn_mm (i : Nat) (f : Stn → Stn) : (s.updStn i f).mm = s.mm := rfl
@[simp] theorem updStn_boot (i : Nat) (f : Stn → Stn) : (s.updStn i f).boot = s.boot := rfl
@[simp] theorem updStn_pwr (i : Nat) (f : Stn → Stn) : (s.updStn i f).pwr = s.pwr := rfl
@[simp] theorem updStn_ret (i : Nat) (f : Stn → Stn) : (s.updStn i f).ret = s.ret := rfl
@[simp] theorem updStn_cfg (i : Nat) (f : Stn → Stn) : (s.updStn i f).cfg = s.cfg := rfl
@[simp] theorem updStn_prog (i : Nat) (f : Stn → Stn) : (s.updStn i f).prog = s.prog := rfl
@[simp] theorem updStn_regs (i : Nat) (f : Stn → Stn) : (s.updStn i f).regs = s.regs := rfl
@[simp] theorem updStn_live (i : Nat) (f : Stn → Stn) : (s.updStn i f).live = s.live := rfl
@[simp] theorem updStn_votes (i : Nat) (f : Stn → Stn) : (s.updStn i f).votes = s.votes := rfl
@[simp] theorem updStn_press (i : Nat) (f : Stn → Stn) : (s.updStn i f).press = s.press := rfl
@[simp] theorem updStn_posted (i : Nat) (f : Stn → Stn) : (s.updStn i f).posted = s.posted := rfl
@[simp] theorem updStn_outbox (i : Nat) (f : Stn → Stn) : (s.updStn i f).outbox = s.outbox := rfl
@[simp] theorem updStn_freeN (i : Nat) (f : Stn → Stn) : (s.updStn i f).freeN = s.freeN := rfl
@[simp] theorem updStn_pending (i : Nat) (f : Stn → Stn) : (s.updStn i f).pending = s.pending := rfl

@[simp] theorem updRingN_sys (r : Nat) (f : NRing → NRing) : (s.updRingN r f).sys = s.sys := rfl
@[simp] theorem updRingN_hif (r : Nat) (f : NRing → NRing) : (s.updRingN r f).hif = s.hif := rfl
@[simp] theorem updRingN_cyc (r : Nat) (f : NRing → NRing) : (s.updRingN r f).cyc = s.cyc := rfl
@[simp] theorem updRingN_lsp (r : Nat) (f : NRing → NRing) : (s.updRingN r f).lsp = s.lsp := rfl
@[simp] theorem updRingN_cle (r : Nat) (f : NRing → NRing) : (s.updRingN r f).cle = s.cle := rfl
@[simp] theorem updRingN_chg (r : Nat) (f : NRing → NRing) : (s.updRingN r f).chg = s.chg := rfl
@[simp] theorem updRingN_dpx (r : Nat) (f : NRing → NRing) : (s.updRingN r f).dpx = s.dpx := rfl
@[simp] theorem updRingN_dpx2 (r : Nat) (f : NRing → NRing) : (s.updRingN r f).dpx2 = s.dpx2 := rfl
@[simp] theorem updRingN_mir (r : Nat) (f : NRing → NRing) : (s.updRingN r f).mir = s.mir := rfl
@[simp] theorem updRingN_net (r : Nat) (f : NRing → NRing) : (s.updRingN r f).net = { s.net with rings := s.net.rings.upd r {} f } := rfl
@[simp] theorem updRingN_tim (r : Nat) (f : NRing → NRing) : (s.updRingN r f).tim = s.tim := rfl
@[simp] theorem updRingN_can (r : Nat) (f : NRing → NRing) : (s.updRingN r f).can = s.can := rfl
@[simp] theorem updRingN_canq (r : Nat) (f : NRing → NRing) : (s.updRingN r f).canq = s.canq := rfl
@[simp] theorem updRingN_fio (r : Nat) (f : NRing → NRing) : (s.updRingN r f).fio = s.fio := rfl
@[simp] theorem updRingN_saf (r : Nat) (f : NRing → NRing) : (s.updRingN r f).saf = s.saf := rfl
@[simp] theorem updRingN_tly (r : Nat) (f : NRing → NRing) : (s.updRingN r f).tly = s.tly := rfl
@[simp] theorem updRingN_mm (r : Nat) (f : NRing → NRing) : (s.updRingN r f).mm = s.mm := rfl
@[simp] theorem updRingN_boot (r : Nat) (f : NRing → NRing) : (s.updRingN r f).boot = s.boot := rfl
@[simp] theorem updRingN_pwr (r : Nat) (f : NRing → NRing) : (s.updRingN r f).pwr = s.pwr := rfl
@[simp] theorem updRingN_ret (r : Nat) (f : NRing → NRing) : (s.updRingN r f).ret = s.ret := rfl
@[simp] theorem updRingN_cfg (r : Nat) (f : NRing → NRing) : (s.updRingN r f).cfg = s.cfg := rfl
@[simp] theorem updRingN_prog (r : Nat) (f : NRing → NRing) : (s.updRingN r f).prog = s.prog := rfl
@[simp] theorem updRingN_regs (r : Nat) (f : NRing → NRing) : (s.updRingN r f).regs = s.regs := rfl
@[simp] theorem updRingN_live (r : Nat) (f : NRing → NRing) : (s.updRingN r f).live = s.live := rfl
@[simp] theorem updRingN_votes (r : Nat) (f : NRing → NRing) : (s.updRingN r f).votes = s.votes := rfl
@[simp] theorem updRingN_press (r : Nat) (f : NRing → NRing) : (s.updRingN r f).press = s.press := rfl
@[simp] theorem updRingN_posted (r : Nat) (f : NRing → NRing) : (s.updRingN r f).posted = s.posted := rfl
@[simp] theorem updRingN_outbox (r : Nat) (f : NRing → NRing) : (s.updRingN r f).outbox = s.outbox := rfl
@[simp] theorem updRingN_freeN (r : Nat) (f : NRing → NRing) : (s.updRingN r f).freeN = s.freeN := rfl
@[simp] theorem updRingN_pending (r : Nat) (f : NRing → NRing) : (s.updRingN r f).pending = s.pending := rfl

@[simp] theorem put_sys (o : Out) : (s.put o).sys = s.sys := rfl
@[simp] theorem put_hif (o : Out) : (s.put o).hif = s.hif := rfl
@[simp] theorem put_cyc (o : Out) : (s.put o).cyc = s.cyc := rfl
@[simp] theorem put_lsp (o : Out) : (s.put o).lsp = s.lsp := rfl
@[simp] theorem put_cle (o : Out) : (s.put o).cle = s.cle := rfl
@[simp] theorem put_chg (o : Out) : (s.put o).chg = s.chg := rfl
@[simp] theorem put_dpx (o : Out) : (s.put o).dpx = s.dpx := rfl
@[simp] theorem put_dpx2 (o : Out) : (s.put o).dpx2 = s.dpx2 := rfl
@[simp] theorem put_mir (o : Out) : (s.put o).mir = s.mir := rfl
@[simp] theorem put_net (o : Out) : (s.put o).net = s.net := rfl
@[simp] theorem put_tim (o : Out) : (s.put o).tim = s.tim := rfl
@[simp] theorem put_can (o : Out) : (s.put o).can = s.can := rfl
@[simp] theorem put_canq (o : Out) : (s.put o).canq = s.canq := rfl
@[simp] theorem put_fio (o : Out) : (s.put o).fio = s.fio := rfl
@[simp] theorem put_saf (o : Out) : (s.put o).saf = s.saf := rfl
@[simp] theorem put_tly (o : Out) : (s.put o).tly = s.tly := rfl
@[simp] theorem put_mm (o : Out) : (s.put o).mm = s.mm := rfl
@[simp] theorem put_boot (o : Out) : (s.put o).boot = s.boot := rfl
@[simp] theorem put_pwr (o : Out) : (s.put o).pwr = s.pwr := rfl
@[simp] theorem put_ret (o : Out) : (s.put o).ret = s.ret := rfl
@[simp] theorem put_cfg (o : Out) : (s.put o).cfg = s.cfg := rfl
@[simp] theorem put_prog (o : Out) : (s.put o).prog = s.prog := rfl
@[simp] theorem put_regs (o : Out) : (s.put o).regs = s.regs := rfl
@[simp] theorem put_live (o : Out) : (s.put o).live = s.live := rfl
@[simp] theorem put_votes (o : Out) : (s.put o).votes = s.votes := rfl
@[simp] theorem put_press (o : Out) : (s.put o).press = s.press := rfl
@[simp] theorem put_posted (o : Out) : (s.put o).posted = s.posted := rfl
@[simp] theorem put_outbox (o : Out) : (s.put o).outbox = s.outbox ++ [o] := rfl
@[simp] theorem put_freeN (o : Out) : (s.put o).freeN = s.freeN := rfl
@[simp] theorem put_pending (o : Out) : (s.put o).pending = s.pending := rfl

@[simp] theorem updPwr_sys (f : Pwr → Pwr) : (s.updPwr f).sys = s.sys := rfl
@[simp] theorem updPwr_hif (f : Pwr → Pwr) : (s.updPwr f).hif = s.hif := rfl
@[simp] theorem updPwr_cyc (f : Pwr → Pwr) : (s.updPwr f).cyc = s.cyc := rfl
@[simp] theorem updPwr_lsp (f : Pwr → Pwr) : (s.updPwr f).lsp = s.lsp := rfl
@[simp] theorem updPwr_cle (f : Pwr → Pwr) : (s.updPwr f).cle = s.cle := rfl
@[simp] theorem updPwr_chg (f : Pwr → Pwr) : (s.updPwr f).chg = s.chg := rfl
@[simp] theorem updPwr_dpx (f : Pwr → Pwr) : (s.updPwr f).dpx = s.dpx := rfl
@[simp] theorem updPwr_dpx2 (f : Pwr → Pwr) : (s.updPwr f).dpx2 = s.dpx2 := rfl
@[simp] theorem updPwr_mir (f : Pwr → Pwr) : (s.updPwr f).mir = s.mir := rfl
@[simp] theorem updPwr_net (f : Pwr → Pwr) : (s.updPwr f).net = s.net := rfl
@[simp] theorem updPwr_tim (f : Pwr → Pwr) : (s.updPwr f).tim = s.tim := rfl
@[simp] theorem updPwr_can (f : Pwr → Pwr) : (s.updPwr f).can = s.can := rfl
@[simp] theorem updPwr_canq (f : Pwr → Pwr) : (s.updPwr f).canq = s.canq := rfl
@[simp] theorem updPwr_fio (f : Pwr → Pwr) : (s.updPwr f).fio = s.fio := rfl
@[simp] theorem updPwr_saf (f : Pwr → Pwr) : (s.updPwr f).saf = s.saf := rfl
@[simp] theorem updPwr_tly (f : Pwr → Pwr) : (s.updPwr f).tly = s.tly := rfl
@[simp] theorem updPwr_mm (f : Pwr → Pwr) : (s.updPwr f).mm = s.mm := rfl
@[simp] theorem updPwr_boot (f : Pwr → Pwr) : (s.updPwr f).boot = s.boot := rfl
@[simp] theorem updPwr_pwr (f : Pwr → Pwr) : (s.updPwr f).pwr = f s.pwr := rfl
@[simp] theorem updPwr_ret (f : Pwr → Pwr) : (s.updPwr f).ret = s.ret := rfl
@[simp] theorem updPwr_cfg (f : Pwr → Pwr) : (s.updPwr f).cfg = s.cfg := rfl
@[simp] theorem updPwr_prog (f : Pwr → Pwr) : (s.updPwr f).prog = s.prog := rfl
@[simp] theorem updPwr_regs (f : Pwr → Pwr) : (s.updPwr f).regs = s.regs := rfl
@[simp] theorem updPwr_live (f : Pwr → Pwr) : (s.updPwr f).live = s.live := rfl
@[simp] theorem updPwr_votes (f : Pwr → Pwr) : (s.updPwr f).votes = s.votes := rfl
@[simp] theorem updPwr_press (f : Pwr → Pwr) : (s.updPwr f).press = s.press := rfl
@[simp] theorem updPwr_posted (f : Pwr → Pwr) : (s.updPwr f).posted = s.posted := rfl
@[simp] theorem updPwr_outbox (f : Pwr → Pwr) : (s.updPwr f).outbox = s.outbox := rfl
@[simp] theorem updPwr_freeN (f : Pwr → Pwr) : (s.updPwr f).freeN = s.freeN := rfl
@[simp] theorem updPwr_pending (f : Pwr → Pwr) : (s.updPwr f).pending = s.pending := rfl

@[simp] theorem updMir_sys (c : Nat) (f : MirCls → MirCls) : (s.updMir c f).sys = s.sys := rfl
@[simp] theorem updMir_hif (c : Nat) (f : MirCls → MirCls) : (s.updMir c f).hif = s.hif := rfl
@[simp] theorem updMir_cyc (c : Nat) (f : MirCls → MirCls) : (s.updMir c f).cyc = s.cyc := rfl
@[simp] theorem updMir_lsp (c : Nat) (f : MirCls → MirCls) : (s.updMir c f).lsp = s.lsp := rfl
@[simp] theorem updMir_cle (c : Nat) (f : MirCls → MirCls) : (s.updMir c f).cle = s.cle := rfl
@[simp] theorem updMir_chg (c : Nat) (f : MirCls → MirCls) : (s.updMir c f).chg = s.chg := rfl
@[simp] theorem updMir_dpx (c : Nat) (f : MirCls → MirCls) : (s.updMir c f).dpx = s.dpx := rfl
@[simp] theorem updMir_dpx2 (c : Nat) (f : MirCls → MirCls) : (s.updMir c f).dpx2 = s.dpx2 := rfl
@[simp] theorem updMir_mir (c : Nat) (f : MirCls → MirCls) : (s.updMir c f).mir = s.mir.upd c {} f := rfl
@[simp] theorem updMir_net (c : Nat) (f : MirCls → MirCls) : (s.updMir c f).net = s.net := rfl
@[simp] theorem updMir_tim (c : Nat) (f : MirCls → MirCls) : (s.updMir c f).tim = s.tim := rfl
@[simp] theorem updMir_can (c : Nat) (f : MirCls → MirCls) : (s.updMir c f).can = s.can := rfl
@[simp] theorem updMir_canq (c : Nat) (f : MirCls → MirCls) : (s.updMir c f).canq = s.canq := rfl
@[simp] theorem updMir_fio (c : Nat) (f : MirCls → MirCls) : (s.updMir c f).fio = s.fio := rfl
@[simp] theorem updMir_saf (c : Nat) (f : MirCls → MirCls) : (s.updMir c f).saf = s.saf := rfl
@[simp] theorem updMir_tly (c : Nat) (f : MirCls → MirCls) : (s.updMir c f).tly = s.tly := rfl
@[simp] theorem updMir_mm (c : Nat) (f : MirCls → MirCls) : (s.updMir c f).mm = s.mm := rfl
@[simp] theorem updMir_boot (c : Nat) (f : MirCls → MirCls) : (s.updMir c f).boot = s.boot := rfl
@[simp] theorem updMir_pwr (c : Nat) (f : MirCls → MirCls) : (s.updMir c f).pwr = s.pwr := rfl
@[simp] theorem updMir_ret (c : Nat) (f : MirCls → MirCls) : (s.updMir c f).ret = s.ret := rfl
@[simp] theorem updMir_cfg (c : Nat) (f : MirCls → MirCls) : (s.updMir c f).cfg = s.cfg := rfl
@[simp] theorem updMir_prog (c : Nat) (f : MirCls → MirCls) : (s.updMir c f).prog = s.prog := rfl
@[simp] theorem updMir_regs (c : Nat) (f : MirCls → MirCls) : (s.updMir c f).regs = s.regs := rfl
@[simp] theorem updMir_live (c : Nat) (f : MirCls → MirCls) : (s.updMir c f).live = s.live := rfl
@[simp] theorem updMir_votes (c : Nat) (f : MirCls → MirCls) : (s.updMir c f).votes = s.votes := rfl
@[simp] theorem updMir_press (c : Nat) (f : MirCls → MirCls) : (s.updMir c f).press = s.press := rfl
@[simp] theorem updMir_posted (c : Nat) (f : MirCls → MirCls) : (s.updMir c f).posted = s.posted := rfl
@[simp] theorem updMir_outbox (c : Nat) (f : MirCls → MirCls) : (s.updMir c f).outbox = s.outbox := rfl
@[simp] theorem updMir_freeN (c : Nat) (f : MirCls → MirCls) : (s.updMir c f).freeN = s.freeN := rfl
@[simp] theorem updMir_pending (c : Nat) (f : MirCls → MirCls) : (s.updMir c f).pending = s.pending := rfl

@[simp] theorem setReg_sys (o : Nat) (v : Word) : (s.setReg o v).sys = s.sys := rfl
@[simp] theorem setReg_hif (o : Nat) (v : Word) : (s.setReg o v).hif = s.hif := rfl
@[simp] theorem setReg_cyc (o : Nat) (v : Word) : (s.setReg o v).cyc = s.cyc := rfl
@[simp] theorem setReg_lsp (o : Nat) (v : Word) : (s.setReg o v).lsp = s.lsp := rfl
@[simp] theorem setReg_cle (o : Nat) (v : Word) : (s.setReg o v).cle = s.cle := rfl
@[simp] theorem setReg_chg (o : Nat) (v : Word) : (s.setReg o v).chg = s.chg := rfl
@[simp] theorem setReg_dpx (o : Nat) (v : Word) : (s.setReg o v).dpx = s.dpx := rfl
@[simp] theorem setReg_dpx2 (o : Nat) (v : Word) : (s.setReg o v).dpx2 = s.dpx2 := rfl
@[simp] theorem setReg_mir (o : Nat) (v : Word) : (s.setReg o v).mir = s.mir := rfl
@[simp] theorem setReg_net (o : Nat) (v : Word) : (s.setReg o v).net = s.net := rfl
@[simp] theorem setReg_tim (o : Nat) (v : Word) : (s.setReg o v).tim = s.tim := rfl
@[simp] theorem setReg_can (o : Nat) (v : Word) : (s.setReg o v).can = s.can := rfl
@[simp] theorem setReg_canq (o : Nat) (v : Word) : (s.setReg o v).canq = s.canq := rfl
@[simp] theorem setReg_fio (o : Nat) (v : Word) : (s.setReg o v).fio = s.fio := rfl
@[simp] theorem setReg_saf (o : Nat) (v : Word) : (s.setReg o v).saf = s.saf := rfl
@[simp] theorem setReg_tly (o : Nat) (v : Word) : (s.setReg o v).tly = s.tly := rfl
@[simp] theorem setReg_mm (o : Nat) (v : Word) : (s.setReg o v).mm = s.mm := rfl
@[simp] theorem setReg_boot (o : Nat) (v : Word) : (s.setReg o v).boot = s.boot := rfl
@[simp] theorem setReg_pwr (o : Nat) (v : Word) : (s.setReg o v).pwr = s.pwr := rfl
@[simp] theorem setReg_ret (o : Nat) (v : Word) : (s.setReg o v).ret = s.ret := rfl
@[simp] theorem setReg_cfg (o : Nat) (v : Word) : (s.setReg o v).cfg = s.cfg := rfl
@[simp] theorem setReg_prog (o : Nat) (v : Word) : (s.setReg o v).prog = s.prog := rfl
@[simp] theorem setReg_regs (o : Nat) (v : Word) : (s.setReg o v).regs = s.regs.put o v := rfl
@[simp] theorem setReg_live (o : Nat) (v : Word) : (s.setReg o v).live = s.live := rfl
@[simp] theorem setReg_votes (o : Nat) (v : Word) : (s.setReg o v).votes = s.votes := rfl
@[simp] theorem setReg_press (o : Nat) (v : Word) : (s.setReg o v).press = s.press := rfl
@[simp] theorem setReg_posted (o : Nat) (v : Word) : (s.setReg o v).posted = s.posted := rfl
@[simp] theorem setReg_outbox (o : Nat) (v : Word) : (s.setReg o v).outbox = s.outbox := rfl
@[simp] theorem setReg_freeN (o : Nat) (v : Word) : (s.setReg o v).freeN = s.freeN := rfl
@[simp] theorem setReg_pending (o : Nat) (v : Word) : (s.setReg o v).pending = s.pending := rfl

@[simp] theorem setLive_sys (o : Nat) (v : Word) : (s.setLive o v).sys = s.sys := rfl
@[simp] theorem setLive_hif (o : Nat) (v : Word) : (s.setLive o v).hif = s.hif := rfl
@[simp] theorem setLive_cyc (o : Nat) (v : Word) : (s.setLive o v).cyc = s.cyc := rfl
@[simp] theorem setLive_lsp (o : Nat) (v : Word) : (s.setLive o v).lsp = s.lsp := rfl
@[simp] theorem setLive_cle (o : Nat) (v : Word) : (s.setLive o v).cle = s.cle := rfl
@[simp] theorem setLive_chg (o : Nat) (v : Word) : (s.setLive o v).chg = s.chg := rfl
@[simp] theorem setLive_dpx (o : Nat) (v : Word) : (s.setLive o v).dpx = s.dpx := rfl
@[simp] theorem setLive_dpx2 (o : Nat) (v : Word) : (s.setLive o v).dpx2 = s.dpx2 := rfl
@[simp] theorem setLive_mir (o : Nat) (v : Word) : (s.setLive o v).mir = s.mir := rfl
@[simp] theorem setLive_net (o : Nat) (v : Word) : (s.setLive o v).net = s.net := rfl
@[simp] theorem setLive_tim (o : Nat) (v : Word) : (s.setLive o v).tim = s.tim := rfl
@[simp] theorem setLive_can (o : Nat) (v : Word) : (s.setLive o v).can = s.can := rfl
@[simp] theorem setLive_canq (o : Nat) (v : Word) : (s.setLive o v).canq = s.canq := rfl
@[simp] theorem setLive_fio (o : Nat) (v : Word) : (s.setLive o v).fio = s.fio := rfl
@[simp] theorem setLive_saf (o : Nat) (v : Word) : (s.setLive o v).saf = s.saf := rfl
@[simp] theorem setLive_tly (o : Nat) (v : Word) : (s.setLive o v).tly = s.tly := rfl
@[simp] theorem setLive_mm (o : Nat) (v : Word) : (s.setLive o v).mm = s.mm := rfl
@[simp] theorem setLive_boot (o : Nat) (v : Word) : (s.setLive o v).boot = s.boot := rfl
@[simp] theorem setLive_pwr (o : Nat) (v : Word) : (s.setLive o v).pwr = s.pwr := rfl
@[simp] theorem setLive_ret (o : Nat) (v : Word) : (s.setLive o v).ret = s.ret := rfl
@[simp] theorem setLive_cfg (o : Nat) (v : Word) : (s.setLive o v).cfg = s.cfg := rfl
@[simp] theorem setLive_prog (o : Nat) (v : Word) : (s.setLive o v).prog = s.prog := rfl
@[simp] theorem setLive_regs (o : Nat) (v : Word) : (s.setLive o v).regs = s.regs := rfl
@[simp] theorem setLive_live (o : Nat) (v : Word) : (s.setLive o v).live = s.live.put o v := rfl
@[simp] theorem setLive_votes (o : Nat) (v : Word) : (s.setLive o v).votes = s.votes := rfl
@[simp] theorem setLive_press (o : Nat) (v : Word) : (s.setLive o v).press = s.press := rfl
@[simp] theorem setLive_posted (o : Nat) (v : Word) : (s.setLive o v).posted = s.posted := rfl
@[simp] theorem setLive_outbox (o : Nat) (v : Word) : (s.setLive o v).outbox = s.outbox := rfl
@[simp] theorem setLive_freeN (o : Nat) (v : Word) : (s.setLive o v).freeN = s.freeN := rfl
@[simp] theorem setLive_pending (o : Nat) (v : Word) : (s.setLive o v).pending = s.pending := rfl

@[simp] theorem setVote_sys (o : Nat) (v : Word) : (s.setVote o v).sys = s.sys := rfl
@[simp] theorem setVote_hif (o : Nat) (v : Word) : (s.setVote o v).hif = s.hif := rfl
@[simp] theorem setVote_cyc (o : Nat) (v : Word) : (s.setVote o v).cyc = s.cyc := rfl
@[simp] theorem setVote_lsp (o : Nat) (v : Word) : (s.setVote o v).lsp = s.lsp := rfl
@[simp] theorem setVote_cle (o : Nat) (v : Word) : (s.setVote o v).cle = s.cle := rfl
@[simp] theorem setVote_chg (o : Nat) (v : Word) : (s.setVote o v).chg = s.chg := rfl
@[simp] theorem setVote_dpx (o : Nat) (v : Word) : (s.setVote o v).dpx = s.dpx := rfl
@[simp] theorem setVote_dpx2 (o : Nat) (v : Word) : (s.setVote o v).dpx2 = s.dpx2 := rfl
@[simp] theorem setVote_mir (o : Nat) (v : Word) : (s.setVote o v).mir = s.mir := rfl
@[simp] theorem setVote_net (o : Nat) (v : Word) : (s.setVote o v).net = s.net := rfl
@[simp] theorem setVote_tim (o : Nat) (v : Word) : (s.setVote o v).tim = s.tim := rfl
@[simp] theorem setVote_can (o : Nat) (v : Word) : (s.setVote o v).can = s.can := rfl
@[simp] theorem setVote_canq (o : Nat) (v : Word) : (s.setVote o v).canq = s.canq := rfl
@[simp] theorem setVote_fio (o : Nat) (v : Word) : (s.setVote o v).fio = s.fio := rfl
@[simp] theorem setVote_saf (o : Nat) (v : Word) : (s.setVote o v).saf = s.saf := rfl
@[simp] theorem setVote_tly (o : Nat) (v : Word) : (s.setVote o v).tly = s.tly := rfl
@[simp] theorem setVote_mm (o : Nat) (v : Word) : (s.setVote o v).mm = s.mm := rfl
@[simp] theorem setVote_boot (o : Nat) (v : Word) : (s.setVote o v).boot = s.boot := rfl
@[simp] theorem setVote_pwr (o : Nat) (v : Word) : (s.setVote o v).pwr = s.pwr := rfl
@[simp] theorem setVote_ret (o : Nat) (v : Word) : (s.setVote o v).ret = s.ret := rfl
@[simp] theorem setVote_cfg (o : Nat) (v : Word) : (s.setVote o v).cfg = s.cfg := rfl
@[simp] theorem setVote_prog (o : Nat) (v : Word) : (s.setVote o v).prog = s.prog := rfl
@[simp] theorem setVote_regs (o : Nat) (v : Word) : (s.setVote o v).regs = s.regs := rfl
@[simp] theorem setVote_live (o : Nat) (v : Word) : (s.setVote o v).live = s.live := rfl
@[simp] theorem setVote_votes (o : Nat) (v : Word) : (s.setVote o v).votes = s.votes.put o { a := v, b := v, c := v } := rfl
@[simp] theorem setVote_press (o : Nat) (v : Word) : (s.setVote o v).press = s.press := rfl
@[simp] theorem setVote_posted (o : Nat) (v : Word) : (s.setVote o v).posted = s.posted := rfl
@[simp] theorem setVote_outbox (o : Nat) (v : Word) : (s.setVote o v).outbox = s.outbox := rfl
@[simp] theorem setVote_freeN (o : Nat) (v : Word) : (s.setVote o v).freeN = s.freeN := rfl
@[simp] theorem setVote_pending (o : Nat) (v : Word) : (s.setVote o v).pending = s.pending := rfl

@[simp] theorem updPress_sys (o : Nat) (f : Press → Press) : (s.updPress o f).sys = s.sys := rfl
@[simp] theorem updPress_hif (o : Nat) (f : Press → Press) : (s.updPress o f).hif = s.hif := rfl
@[simp] theorem updPress_cyc (o : Nat) (f : Press → Press) : (s.updPress o f).cyc = s.cyc := rfl
@[simp] theorem updPress_lsp (o : Nat) (f : Press → Press) : (s.updPress o f).lsp = s.lsp := rfl
@[simp] theorem updPress_cle (o : Nat) (f : Press → Press) : (s.updPress o f).cle = s.cle := rfl
@[simp] theorem updPress_chg (o : Nat) (f : Press → Press) : (s.updPress o f).chg = s.chg := rfl
@[simp] theorem updPress_dpx (o : Nat) (f : Press → Press) : (s.updPress o f).dpx = s.dpx := rfl
@[simp] theorem updPress_dpx2 (o : Nat) (f : Press → Press) : (s.updPress o f).dpx2 = s.dpx2 := rfl
@[simp] theorem updPress_mir (o : Nat) (f : Press → Press) : (s.updPress o f).mir = s.mir := rfl
@[simp] theorem updPress_net (o : Nat) (f : Press → Press) : (s.updPress o f).net = s.net := rfl
@[simp] theorem updPress_tim (o : Nat) (f : Press → Press) : (s.updPress o f).tim = s.tim := rfl
@[simp] theorem updPress_can (o : Nat) (f : Press → Press) : (s.updPress o f).can = s.can := rfl
@[simp] theorem updPress_canq (o : Nat) (f : Press → Press) : (s.updPress o f).canq = s.canq := rfl
@[simp] theorem updPress_fio (o : Nat) (f : Press → Press) : (s.updPress o f).fio = s.fio := rfl
@[simp] theorem updPress_saf (o : Nat) (f : Press → Press) : (s.updPress o f).saf = s.saf := rfl
@[simp] theorem updPress_tly (o : Nat) (f : Press → Press) : (s.updPress o f).tly = s.tly := rfl
@[simp] theorem updPress_mm (o : Nat) (f : Press → Press) : (s.updPress o f).mm = s.mm := rfl
@[simp] theorem updPress_boot (o : Nat) (f : Press → Press) : (s.updPress o f).boot = s.boot := rfl
@[simp] theorem updPress_pwr (o : Nat) (f : Press → Press) : (s.updPress o f).pwr = s.pwr := rfl
@[simp] theorem updPress_ret (o : Nat) (f : Press → Press) : (s.updPress o f).ret = s.ret := rfl
@[simp] theorem updPress_cfg (o : Nat) (f : Press → Press) : (s.updPress o f).cfg = s.cfg := rfl
@[simp] theorem updPress_prog (o : Nat) (f : Press → Press) : (s.updPress o f).prog = s.prog := rfl
@[simp] theorem updPress_regs (o : Nat) (f : Press → Press) : (s.updPress o f).regs = s.regs := rfl
@[simp] theorem updPress_live (o : Nat) (f : Press → Press) : (s.updPress o f).live = s.live := rfl
@[simp] theorem updPress_votes (o : Nat) (f : Press → Press) : (s.updPress o f).votes = s.votes := rfl
@[simp] theorem updPress_press (o : Nat) (f : Press → Press) : (s.updPress o f).press = s.press.upd o {} f := rfl
@[simp] theorem updPress_posted (o : Nat) (f : Press → Press) : (s.updPress o f).posted = s.posted := rfl
@[simp] theorem updPress_outbox (o : Nat) (f : Press → Press) : (s.updPress o f).outbox = s.outbox := rfl
@[simp] theorem updPress_freeN (o : Nat) (f : Press → Press) : (s.updPress o f).freeN = s.freeN := rfl
@[simp] theorem updPress_pending (o : Nat) (f : Press → Press) : (s.updPress o f).pending = s.pending := rfl

@[simp] theorem updSaf_sys (f : Saf → Saf) : (s.updSaf f).sys = s.sys := rfl
@[simp] theorem updSaf_hif (f : Saf → Saf) : (s.updSaf f).hif = s.hif := rfl
@[simp] theorem updSaf_cyc (f : Saf → Saf) : (s.updSaf f).cyc = s.cyc := rfl
@[simp] theorem updSaf_lsp (f : Saf → Saf) : (s.updSaf f).lsp = s.lsp := rfl
@[simp] theorem updSaf_cle (f : Saf → Saf) : (s.updSaf f).cle = s.cle := rfl
@[simp] theorem updSaf_chg (f : Saf → Saf) : (s.updSaf f).chg = s.chg := rfl
@[simp] theorem updSaf_dpx (f : Saf → Saf) : (s.updSaf f).dpx = s.dpx := rfl
@[simp] theorem updSaf_dpx2 (f : Saf → Saf) : (s.updSaf f).dpx2 = s.dpx2 := rfl
@[simp] theorem updSaf_mir (f : Saf → Saf) : (s.updSaf f).mir = s.mir := rfl
@[simp] theorem updSaf_net (f : Saf → Saf) : (s.updSaf f).net = s.net := rfl
@[simp] theorem updSaf_tim (f : Saf → Saf) : (s.updSaf f).tim = s.tim := rfl
@[simp] theorem updSaf_can (f : Saf → Saf) : (s.updSaf f).can = s.can := rfl
@[simp] theorem updSaf_canq (f : Saf → Saf) : (s.updSaf f).canq = s.canq := rfl
@[simp] theorem updSaf_fio (f : Saf → Saf) : (s.updSaf f).fio = s.fio := rfl
@[simp] theorem updSaf_saf (f : Saf → Saf) : (s.updSaf f).saf = f s.saf := rfl
@[simp] theorem updSaf_tly (f : Saf → Saf) : (s.updSaf f).tly = s.tly := rfl
@[simp] theorem updSaf_mm (f : Saf → Saf) : (s.updSaf f).mm = s.mm := rfl
@[simp] theorem updSaf_boot (f : Saf → Saf) : (s.updSaf f).boot = s.boot := rfl
@[simp] theorem updSaf_pwr (f : Saf → Saf) : (s.updSaf f).pwr = s.pwr := rfl
@[simp] theorem updSaf_ret (f : Saf → Saf) : (s.updSaf f).ret = s.ret := rfl
@[simp] theorem updSaf_cfg (f : Saf → Saf) : (s.updSaf f).cfg = s.cfg := rfl
@[simp] theorem updSaf_prog (f : Saf → Saf) : (s.updSaf f).prog = s.prog := rfl
@[simp] theorem updSaf_regs (f : Saf → Saf) : (s.updSaf f).regs = s.regs := rfl
@[simp] theorem updSaf_live (f : Saf → Saf) : (s.updSaf f).live = s.live := rfl
@[simp] theorem updSaf_votes (f : Saf → Saf) : (s.updSaf f).votes = s.votes := rfl
@[simp] theorem updSaf_press (f : Saf → Saf) : (s.updSaf f).press = s.press := rfl
@[simp] theorem updSaf_posted (f : Saf → Saf) : (s.updSaf f).posted = s.posted := rfl
@[simp] theorem updSaf_outbox (f : Saf → Saf) : (s.updSaf f).outbox = s.outbox := rfl
@[simp] theorem updSaf_freeN (f : Saf → Saf) : (s.updSaf f).freeN = s.freeN := rfl
@[simp] theorem updSaf_pending (f : Saf → Saf) : (s.updSaf f).pending = s.pending := rfl

@[simp] theorem updWsc_sys (n : Nat) (f : Wsc → Wsc) : (s.updWsc n f).sys = s.sys := rfl
@[simp] theorem updWsc_hif (n : Nat) (f : Wsc → Wsc) : (s.updWsc n f).hif = s.hif := rfl
@[simp] theorem updWsc_cyc (n : Nat) (f : Wsc → Wsc) : (s.updWsc n f).cyc = s.cyc := rfl
@[simp] theorem updWsc_lsp (n : Nat) (f : Wsc → Wsc) : (s.updWsc n f).lsp = s.lsp := rfl
@[simp] theorem updWsc_cle (n : Nat) (f : Wsc → Wsc) : (s.updWsc n f).cle = s.cle := rfl
@[simp] theorem updWsc_chg (n : Nat) (f : Wsc → Wsc) : (s.updWsc n f).chg = s.chg := rfl
@[simp] theorem updWsc_dpx (n : Nat) (f : Wsc → Wsc) : (s.updWsc n f).dpx = s.dpx := rfl
@[simp] theorem updWsc_dpx2 (n : Nat) (f : Wsc → Wsc) : (s.updWsc n f).dpx2 = s.dpx2 := rfl
@[simp] theorem updWsc_mir (n : Nat) (f : Wsc → Wsc) : (s.updWsc n f).mir = s.mir := rfl
@[simp] theorem updWsc_net (n : Nat) (f : Wsc → Wsc) : (s.updWsc n f).net = s.net := rfl
@[simp] theorem updWsc_tim (n : Nat) (f : Wsc → Wsc) : (s.updWsc n f).tim = s.tim := rfl
@[simp] theorem updWsc_can (n : Nat) (f : Wsc → Wsc) : (s.updWsc n f).can = s.can := rfl
@[simp] theorem updWsc_canq (n : Nat) (f : Wsc → Wsc) : (s.updWsc n f).canq = s.canq := rfl
@[simp] theorem updWsc_fio (n : Nat) (f : Wsc → Wsc) : (s.updWsc n f).fio = s.fio := rfl
@[simp] theorem updWsc_saf (n : Nat) (f : Wsc → Wsc) : (s.updWsc n f).saf = { s.saf with wsc := s.saf.wsc.upd n {} f } := rfl
@[simp] theorem updWsc_tly (n : Nat) (f : Wsc → Wsc) : (s.updWsc n f).tly = s.tly := rfl
@[simp] theorem updWsc_mm (n : Nat) (f : Wsc → Wsc) : (s.updWsc n f).mm = s.mm := rfl
@[simp] theorem updWsc_boot (n : Nat) (f : Wsc → Wsc) : (s.updWsc n f).boot = s.boot := rfl
@[simp] theorem updWsc_pwr (n : Nat) (f : Wsc → Wsc) : (s.updWsc n f).pwr = s.pwr := rfl
@[simp] theorem updWsc_ret (n : Nat) (f : Wsc → Wsc) : (s.updWsc n f).ret = s.ret := rfl
@[simp] theorem updWsc_cfg (n : Nat) (f : Wsc → Wsc) : (s.updWsc n f).cfg = s.cfg := rfl
@[simp] theorem updWsc_prog (n : Nat) (f : Wsc → Wsc) : (s.updWsc n f).prog = s.prog := rfl
@[simp] theorem updWsc_regs (n : Nat) (f : Wsc → Wsc) : (s.updWsc n f).regs = s.regs := rfl
@[simp] theorem updWsc_live (n : Nat) (f : Wsc → Wsc) : (s.updWsc n f).live = s.live := rfl
@[simp] theorem updWsc_votes (n : Nat) (f : Wsc → Wsc) : (s.updWsc n f).votes = s.votes := rfl
@[simp] theorem updWsc_press (n : Nat) (f : Wsc → Wsc) : (s.updWsc n f).press = s.press := rfl
@[simp] theorem updWsc_posted (n : Nat) (f : Wsc → Wsc) : (s.updWsc n f).posted = s.posted := rfl
@[simp] theorem updWsc_outbox (n : Nat) (f : Wsc → Wsc) : (s.updWsc n f).outbox = s.outbox := rfl
@[simp] theorem updWsc_freeN (n : Nat) (f : Wsc → Wsc) : (s.updWsc n f).freeN = s.freeN := rfl
@[simp] theorem updWsc_pending (n : Nat) (f : Wsc → Wsc) : (s.updWsc n f).pending = s.pending := rfl

@[simp] theorem updBoot_sys (f : Boot → Boot) : (s.updBoot f).sys = s.sys := rfl
@[simp] theorem updBoot_hif (f : Boot → Boot) : (s.updBoot f).hif = s.hif := rfl
@[simp] theorem updBoot_cyc (f : Boot → Boot) : (s.updBoot f).cyc = s.cyc := rfl
@[simp] theorem updBoot_lsp (f : Boot → Boot) : (s.updBoot f).lsp = s.lsp := rfl
@[simp] theorem updBoot_cle (f : Boot → Boot) : (s.updBoot f).cle = s.cle := rfl
@[simp] theorem updBoot_chg (f : Boot → Boot) : (s.updBoot f).chg = s.chg := rfl
@[simp] theorem updBoot_dpx (f : Boot → Boot) : (s.updBoot f).dpx = s.dpx := rfl
@[simp] theorem updBoot_dpx2 (f : Boot → Boot) : (s.updBoot f).dpx2 = s.dpx2 := rfl
@[simp] theorem updBoot_mir (f : Boot → Boot) : (s.updBoot f).mir = s.mir := rfl
@[simp] theorem updBoot_net (f : Boot → Boot) : (s.updBoot f).net = s.net := rfl
@[simp] theorem updBoot_tim (f : Boot → Boot) : (s.updBoot f).tim = s.tim := rfl
@[simp] theorem updBoot_can (f : Boot → Boot) : (s.updBoot f).can = s.can := rfl
@[simp] theorem updBoot_canq (f : Boot → Boot) : (s.updBoot f).canq = s.canq := rfl
@[simp] theorem updBoot_fio (f : Boot → Boot) : (s.updBoot f).fio = s.fio := rfl
@[simp] theorem updBoot_saf (f : Boot → Boot) : (s.updBoot f).saf = s.saf := rfl
@[simp] theorem updBoot_tly (f : Boot → Boot) : (s.updBoot f).tly = s.tly := rfl
@[simp] theorem updBoot_mm (f : Boot → Boot) : (s.updBoot f).mm = s.mm := rfl
@[simp] theorem updBoot_boot (f : Boot → Boot) : (s.updBoot f).boot = f s.boot := rfl
@[simp] theorem updBoot_pwr (f : Boot → Boot) : (s.updBoot f).pwr = s.pwr := rfl
@[simp] theorem updBoot_ret (f : Boot → Boot) : (s.updBoot f).ret = s.ret := rfl
@[simp] theorem updBoot_cfg (f : Boot → Boot) : (s.updBoot f).cfg = s.cfg := rfl
@[simp] theorem updBoot_prog (f : Boot → Boot) : (s.updBoot f).prog = s.prog := rfl
@[simp] theorem updBoot_regs (f : Boot → Boot) : (s.updBoot f).regs = s.regs := rfl
@[simp] theorem updBoot_live (f : Boot → Boot) : (s.updBoot f).live = s.live := rfl
@[simp] theorem updBoot_votes (f : Boot → Boot) : (s.updBoot f).votes = s.votes := rfl
@[simp] theorem updBoot_press (f : Boot → Boot) : (s.updBoot f).press = s.press := rfl
@[simp] theorem updBoot_posted (f : Boot → Boot) : (s.updBoot f).posted = s.posted := rfl
@[simp] theorem updBoot_outbox (f : Boot → Boot) : (s.updBoot f).outbox = s.outbox := rfl
@[simp] theorem updBoot_freeN (f : Boot → Boot) : (s.updBoot f).freeN = s.freeN := rfl
@[simp] theorem updBoot_pending (f : Boot → Boot) : (s.updBoot f).pending = s.pending := rfl

@[simp] theorem updAct_sys (f : Act → Act) : (s.updAct f).sys = s.sys := rfl
@[simp] theorem updAct_hif (f : Act → Act) : (s.updAct f).hif = s.hif := rfl
@[simp] theorem updAct_cyc (f : Act → Act) : (s.updAct f).cyc = s.cyc := rfl
@[simp] theorem updAct_lsp (f : Act → Act) : (s.updAct f).lsp = s.lsp := rfl
@[simp] theorem updAct_cle (f : Act → Act) : (s.updAct f).cle = s.cle := rfl
@[simp] theorem updAct_chg (f : Act → Act) : (s.updAct f).chg = s.chg := rfl
@[simp] theorem updAct_dpx (f : Act → Act) : (s.updAct f).dpx = s.dpx := rfl
@[simp] theorem updAct_dpx2 (f : Act → Act) : (s.updAct f).dpx2 = s.dpx2 := rfl
@[simp] theorem updAct_mir (f : Act → Act) : (s.updAct f).mir = s.mir := rfl
@[simp] theorem updAct_net (f : Act → Act) : (s.updAct f).net = s.net := rfl
@[simp] theorem updAct_tim (f : Act → Act) : (s.updAct f).tim = s.tim := rfl
@[simp] theorem updAct_can (f : Act → Act) : (s.updAct f).can = s.can := rfl
@[simp] theorem updAct_canq (f : Act → Act) : (s.updAct f).canq = s.canq := rfl
@[simp] theorem updAct_fio (f : Act → Act) : (s.updAct f).fio = s.fio := rfl
@[simp] theorem updAct_saf (f : Act → Act) : (s.updAct f).saf = s.saf := rfl
@[simp] theorem updAct_tly (f : Act → Act) : (s.updAct f).tly = s.tly := rfl
@[simp] theorem updAct_mm (f : Act → Act) : (s.updAct f).mm = s.mm := rfl
@[simp] theorem updAct_boot (f : Act → Act) : (s.updAct f).boot = { s.boot with act := f s.boot.act } := rfl
@[simp] theorem updAct_pwr (f : Act → Act) : (s.updAct f).pwr = s.pwr := rfl
@[simp] theorem updAct_ret (f : Act → Act) : (s.updAct f).ret = s.ret := rfl
@[simp] theorem updAct_cfg (f : Act → Act) : (s.updAct f).cfg = s.cfg := rfl
@[simp] theorem updAct_prog (f : Act → Act) : (s.updAct f).prog = s.prog := rfl
@[simp] theorem updAct_regs (f : Act → Act) : (s.updAct f).regs = s.regs := rfl
@[simp] theorem updAct_live (f : Act → Act) : (s.updAct f).live = s.live := rfl
@[simp] theorem updAct_votes (f : Act → Act) : (s.updAct f).votes = s.votes := rfl
@[simp] theorem updAct_press (f : Act → Act) : (s.updAct f).press = s.press := rfl
@[simp] theorem updAct_posted (f : Act → Act) : (s.updAct f).posted = s.posted := rfl
@[simp] theorem updAct_outbox (f : Act → Act) : (s.updAct f).outbox = s.outbox := rfl
@[simp] theorem updAct_freeN (f : Act → Act) : (s.updAct f).freeN = s.freeN := rfl
@[simp] theorem updAct_pending (f : Act → Act) : (s.updAct f).pending = s.pending := rfl

@[simp] theorem updTim_sys (f : Tim → Tim) : (s.updTim f).sys = s.sys := rfl
@[simp] theorem updTim_hif (f : Tim → Tim) : (s.updTim f).hif = s.hif := rfl
@[simp] theorem updTim_cyc (f : Tim → Tim) : (s.updTim f).cyc = s.cyc := rfl
@[simp] theorem updTim_lsp (f : Tim → Tim) : (s.updTim f).lsp = s.lsp := rfl
@[simp] theorem updTim_cle (f : Tim → Tim) : (s.updTim f).cle = s.cle := rfl
@[simp] theorem updTim_chg (f : Tim → Tim) : (s.updTim f).chg = s.chg := rfl
@[simp] theorem updTim_dpx (f : Tim → Tim) : (s.updTim f).dpx = s.dpx := rfl
@[simp] theorem updTim_dpx2 (f : Tim → Tim) : (s.updTim f).dpx2 = s.dpx2 := rfl
@[simp] theorem updTim_mir (f : Tim → Tim) : (s.updTim f).mir = s.mir := rfl
@[simp] theorem updTim_net (f : Tim → Tim) : (s.updTim f).net = s.net := rfl
@[simp] theorem updTim_tim (f : Tim → Tim) : (s.updTim f).tim = f s.tim := rfl
@[simp] theorem updTim_can (f : Tim → Tim) : (s.updTim f).can = s.can := rfl
@[simp] theorem updTim_canq (f : Tim → Tim) : (s.updTim f).canq = s.canq := rfl
@[simp] theorem updTim_fio (f : Tim → Tim) : (s.updTim f).fio = s.fio := rfl
@[simp] theorem updTim_saf (f : Tim → Tim) : (s.updTim f).saf = s.saf := rfl
@[simp] theorem updTim_tly (f : Tim → Tim) : (s.updTim f).tly = s.tly := rfl
@[simp] theorem updTim_mm (f : Tim → Tim) : (s.updTim f).mm = s.mm := rfl
@[simp] theorem updTim_boot (f : Tim → Tim) : (s.updTim f).boot = s.boot := rfl
@[simp] theorem updTim_pwr (f : Tim → Tim) : (s.updTim f).pwr = s.pwr := rfl
@[simp] theorem updTim_ret (f : Tim → Tim) : (s.updTim f).ret = s.ret := rfl
@[simp] theorem updTim_cfg (f : Tim → Tim) : (s.updTim f).cfg = s.cfg := rfl
@[simp] theorem updTim_prog (f : Tim → Tim) : (s.updTim f).prog = s.prog := rfl
@[simp] theorem updTim_regs (f : Tim → Tim) : (s.updTim f).regs = s.regs := rfl
@[simp] theorem updTim_live (f : Tim → Tim) : (s.updTim f).live = s.live := rfl
@[simp] theorem updTim_votes (f : Tim → Tim) : (s.updTim f).votes = s.votes := rfl
@[simp] theorem updTim_press (f : Tim → Tim) : (s.updTim f).press = s.press := rfl
@[simp] theorem updTim_posted (f : Tim → Tim) : (s.updTim f).posted = s.posted := rfl
@[simp] theorem updTim_outbox (f : Tim → Tim) : (s.updTim f).outbox = s.outbox := rfl
@[simp] theorem updTim_freeN (f : Tim → Tim) : (s.updTim f).freeN = s.freeN := rfl
@[simp] theorem updTim_pending (f : Tim → Tim) : (s.updTim f).pending = s.pending := rfl

@[simp] theorem updDom_sys (d : Nat) (f : Dom → Dom) : (s.updDom d f).sys = s.sys := rfl
@[simp] theorem updDom_hif (d : Nat) (f : Dom → Dom) : (s.updDom d f).hif = s.hif := rfl
@[simp] theorem updDom_cyc (d : Nat) (f : Dom → Dom) : (s.updDom d f).cyc = s.cyc := rfl
@[simp] theorem updDom_lsp (d : Nat) (f : Dom → Dom) : (s.updDom d f).lsp = s.lsp := rfl
@[simp] theorem updDom_cle (d : Nat) (f : Dom → Dom) : (s.updDom d f).cle = s.cle := rfl
@[simp] theorem updDom_chg (d : Nat) (f : Dom → Dom) : (s.updDom d f).chg = s.chg := rfl
@[simp] theorem updDom_dpx (d : Nat) (f : Dom → Dom) : (s.updDom d f).dpx = s.dpx := rfl
@[simp] theorem updDom_dpx2 (d : Nat) (f : Dom → Dom) : (s.updDom d f).dpx2 = s.dpx2 := rfl
@[simp] theorem updDom_mir (d : Nat) (f : Dom → Dom) : (s.updDom d f).mir = s.mir := rfl
@[simp] theorem updDom_net (d : Nat) (f : Dom → Dom) : (s.updDom d f).net = s.net := rfl
@[simp] theorem updDom_tim (d : Nat) (f : Dom → Dom) : (s.updDom d f).tim = { s.tim with doms := s.tim.doms.upd d {} f } := rfl
@[simp] theorem updDom_can (d : Nat) (f : Dom → Dom) : (s.updDom d f).can = s.can := rfl
@[simp] theorem updDom_canq (d : Nat) (f : Dom → Dom) : (s.updDom d f).canq = s.canq := rfl
@[simp] theorem updDom_fio (d : Nat) (f : Dom → Dom) : (s.updDom d f).fio = s.fio := rfl
@[simp] theorem updDom_saf (d : Nat) (f : Dom → Dom) : (s.updDom d f).saf = s.saf := rfl
@[simp] theorem updDom_tly (d : Nat) (f : Dom → Dom) : (s.updDom d f).tly = s.tly := rfl
@[simp] theorem updDom_mm (d : Nat) (f : Dom → Dom) : (s.updDom d f).mm = s.mm := rfl
@[simp] theorem updDom_boot (d : Nat) (f : Dom → Dom) : (s.updDom d f).boot = s.boot := rfl
@[simp] theorem updDom_pwr (d : Nat) (f : Dom → Dom) : (s.updDom d f).pwr = s.pwr := rfl
@[simp] theorem updDom_ret (d : Nat) (f : Dom → Dom) : (s.updDom d f).ret = s.ret := rfl
@[simp] theorem updDom_cfg (d : Nat) (f : Dom → Dom) : (s.updDom d f).cfg = s.cfg := rfl
@[simp] theorem updDom_prog (d : Nat) (f : Dom → Dom) : (s.updDom d f).prog = s.prog := rfl
@[simp] theorem updDom_regs (d : Nat) (f : Dom → Dom) : (s.updDom d f).regs = s.regs := rfl
@[simp] theorem updDom_live (d : Nat) (f : Dom → Dom) : (s.updDom d f).live = s.live := rfl
@[simp] theorem updDom_votes (d : Nat) (f : Dom → Dom) : (s.updDom d f).votes = s.votes := rfl
@[simp] theorem updDom_press (d : Nat) (f : Dom → Dom) : (s.updDom d f).press = s.press := rfl
@[simp] theorem updDom_posted (d : Nat) (f : Dom → Dom) : (s.updDom d f).posted = s.posted := rfl
@[simp] theorem updDom_outbox (d : Nat) (f : Dom → Dom) : (s.updDom d f).outbox = s.outbox := rfl
@[simp] theorem updDom_freeN (d : Nat) (f : Dom → Dom) : (s.updDom d f).freeN = s.freeN := rfl
@[simp] theorem updDom_pending (d : Nat) (f : Dom → Dom) : (s.updDom d f).pending = s.pending := rfl

@[simp] theorem updTPort_sys (p : Nat) (f : TPort → TPort) : (s.updTPort p f).sys = s.sys := rfl
@[simp] theorem updTPort_hif (p : Nat) (f : TPort → TPort) : (s.updTPort p f).hif = s.hif := rfl
@[simp] theorem updTPort_cyc (p : Nat) (f : TPort → TPort) : (s.updTPort p f).cyc = s.cyc := rfl
@[simp] theorem updTPort_lsp (p : Nat) (f : TPort → TPort) : (s.updTPort p f).lsp = s.lsp := rfl
@[simp] theorem updTPort_cle (p : Nat) (f : TPort → TPort) : (s.updTPort p f).cle = s.cle := rfl
@[simp] theorem updTPort_chg (p : Nat) (f : TPort → TPort) : (s.updTPort p f).chg = s.chg := rfl
@[simp] theorem updTPort_dpx (p : Nat) (f : TPort → TPort) : (s.updTPort p f).dpx = s.dpx := rfl
@[simp] theorem updTPort_dpx2 (p : Nat) (f : TPort → TPort) : (s.updTPort p f).dpx2 = s.dpx2 := rfl
@[simp] theorem updTPort_mir (p : Nat) (f : TPort → TPort) : (s.updTPort p f).mir = s.mir := rfl
@[simp] theorem updTPort_net (p : Nat) (f : TPort → TPort) : (s.updTPort p f).net = s.net := rfl
@[simp] theorem updTPort_tim (p : Nat) (f : TPort → TPort) : (s.updTPort p f).tim = { s.tim with ports := s.tim.ports.upd p {} f } := rfl
@[simp] theorem updTPort_can (p : Nat) (f : TPort → TPort) : (s.updTPort p f).can = s.can := rfl
@[simp] theorem updTPort_canq (p : Nat) (f : TPort → TPort) : (s.updTPort p f).canq = s.canq := rfl
@[simp] theorem updTPort_fio (p : Nat) (f : TPort → TPort) : (s.updTPort p f).fio = s.fio := rfl
@[simp] theorem updTPort_saf (p : Nat) (f : TPort → TPort) : (s.updTPort p f).saf = s.saf := rfl
@[simp] theorem updTPort_tly (p : Nat) (f : TPort → TPort) : (s.updTPort p f).tly = s.tly := rfl
@[simp] theorem updTPort_mm (p : Nat) (f : TPort → TPort) : (s.updTPort p f).mm = s.mm := rfl
@[simp] theorem updTPort_boot (p : Nat) (f : TPort → TPort) : (s.updTPort p f).boot = s.boot := rfl
@[simp] theorem updTPort_pwr (p : Nat) (f : TPort → TPort) : (s.updTPort p f).pwr = s.pwr := rfl
@[simp] theorem updTPort_ret (p : Nat) (f : TPort → TPort) : (s.updTPort p f).ret = s.ret := rfl
@[simp] theorem updTPort_cfg (p : Nat) (f : TPort → TPort) : (s.updTPort p f).cfg = s.cfg := rfl
@[simp] theorem updTPort_prog (p : Nat) (f : TPort → TPort) : (s.updTPort p f).prog = s.prog := rfl
@[simp] theorem updTPort_regs (p : Nat) (f : TPort → TPort) : (s.updTPort p f).regs = s.regs := rfl
@[simp] theorem updTPort_live (p : Nat) (f : TPort → TPort) : (s.updTPort p f).live = s.live := rfl
@[simp] theorem updTPort_votes (p : Nat) (f : TPort → TPort) : (s.updTPort p f).votes = s.votes := rfl
@[simp] theorem updTPort_press (p : Nat) (f : TPort → TPort) : (s.updTPort p f).press = s.press := rfl
@[simp] theorem updTPort_posted (p : Nat) (f : TPort → TPort) : (s.updTPort p f).posted = s.posted := rfl
@[simp] theorem updTPort_outbox (p : Nat) (f : TPort → TPort) : (s.updTPort p f).outbox = s.outbox := rfl
@[simp] theorem updTPort_freeN (p : Nat) (f : TPort → TPort) : (s.updTPort p f).freeN = s.freeN := rfl
@[simp] theorem updTPort_pending (p : Nat) (f : TPort → TPort) : (s.updTPort p f).pending = s.pending := rfl

end Sys2Proof.Laws
end

