-- ==== Sys2Proof/Tests/Slice0.lean ====
section
/-! SUPPORT. The model's own tests: a command that cannot be formed for each check of WellFormed, values that the spec states, and for
each statement with hypotheses a state and operands that meet them, case by case. -/

set_option Elab.async false

namespace Sys2Proof.Tests

open Sys2Proof.Machine Sys2Proof.Safety

theorem settled_of {s : State} (h : ∀ c : Fin 8, s.canSet c = false ∨ s.canWants = none ∨
    s.canWants = some ((s.chan c).off, (s.chan c).listen)) (p : s.sys.preempted = []) : Settled s := by
  refine ⟨fun c off listen hc hs hw => ?_, fun _ => p⟩
  rcases h ⟨c, hc⟩ with h | h | h
  · simp [h] at hs
  · simp [h] at hw
  · rw [h] at hw
    cases hw
    exact ⟨rfl, rfl⟩

theorem offered_of {op : HostOp} {h : Hcmd} {s : State} (a : Settled s) (b : s.canTake h.slot op.dur = true ∧ op.static h = none ∧
    (s.sys.primary = true → (s.win h.slot).high < h.reqId) ∧ (op.roleP = true → s.sys.primary = true) ∧
    (s.ring h.slot).cqHalt = false ∧ h.cqeOk = true) : Offered op h s :=
  let ⟨taken, form, fresh, role, posts, answered⟩ := b
  { settled := a, taken, form, fresh, role, posts, answered }

theorem inTurn_of {r : BRec} {s : State} (a : Settled s) (b : s.lanesOn = true ∧ r.crcOk = true ∧ r.type ≤ 12 ∧ s.fmtOk r.fmt = true ∧
    (s.dpx2.rseqRx = 0 ∨ r.rseq = s.dpx2.rseqRx + 1) ∧ s.dpx2.waitRec = []) : InTurn r s :=
  let ⟨lanes, crc, type, format, turn, alone⟩ := b
  { settled := a, lanes, crc, type, format, turn, alone }

theorem look_all {α : Type} {p : α → Prop} {d : α} (hd : p d) : ∀ {t : Tab α}, (∀ e ∈ t, p e.2) → ∀ k, p (t.look k d)
  | [], _, _ => hd
  | (j, v) :: t, h, k => by
    have ih := look_all hd (t := t) (fun e he => h e (List.mem_cons_of_mem _ he)) k
    unfold Tab.look Tab.find
    split
    · exact h (j, v) List.mem_cons_self
    · exact ih

theorem no_mirror {s : State} {n : Nat} {q : Infl → Prop} (h : (s.ring n).infl = none) : ∀ i, (s.ring n).infl = some i → q i :=
  fun i k => nomatch h.symm.trans k

/-- A lone module in STOP, as it stands after its start: it holds the primary role and its registers can be reached. -/
def stop : State := { State.reset with
  sys.mode := .stop, sys.primary := true, sys.lone := true, hif.crs := false, hif.ready := true, cfg.valid := true }

/-- A module without its registers, unpowered. -/
def retained : State := { State.reset with sys.mode := .retain }

/-- A ring of 16 entries that offers one command. -/
def offers : Ring := { live := true, sqK := 4, cqK := 4, tail := 1 }

/-- `stop` with the admin ring and one command ring, a variable, a class and a loop. -/
def host : State := { stop with
  hif.rings := [(0, offers), (1, offers)]
  cfg.cls := [(0, { en := true, cycUs := 1000 })], cfg.loops := [(0, { owner := 1, n := 1 })]
  prog := { loaded := true, vars := [(1, { cls := 0, mem := 2, size := 8, mirrored := true })] } }

/-- A completion that waits for ring 16. -/
def held16 : Cqe := { reqId := 1, sqHead := 0, slot := 16, opcode := 0, status := 0, phase := true, dup := false, mirrored := false
                      journaled := false, rdone := 0, result0 := 0, result1 := 0, accTime := 0, node := 0, jseq := 0 }

/-- `host` in RUN with an in-sync partner. -/
def pair : State := { host with sys.mode := .run, sys.lone := false, cfg.partner := true, dpx.state := .insync }

/-- One element with a value of 4 bytes. -/
def poke : List Byte := [1, 0, 0, 0, 0, 0, 4, 0, 7, 0, 0, 0, 0, 0, 0, 0]

/-- A lone primary in RUN whose class 0 is in a cycle on pair 0. -/
def runs : State := { stop with
  sys.mode := .run, cfg.cls := [(0, { en := true, cycUs := 1000 })]
  cyc.cls := [(0, { running := true, active := true })], lsp := [(0, { idle := false })] }

/-- `runs` with two classes on pairs of their own, class 1 in a cycle. -/
def twoRun : State := { runs with
  cfg.cls := [(0, { en := true, cycUs := 1000 }), (1, { en := true, cycUs := 2000, pair := 1, skippable := true })]
  cyc.cls := [(1, { running := true, active := true })], lsp := [(1, { idle := false, cls := 1 })] }

/-- A lone primary in RUN with the linear loop 4095, which runs and whose step the minor frame holds. -/
def looped : State := { stop with
  sys.mode := .run, cfg.loops := [(4095, { owner := 1, n := 1 })], cle.loops := [(4095, { run := true })]
  cle.eng := [(3, { todo := [{ slot := 4095, cost := 1 }] })] }

/-- A lone primary in RUN with station 3 on ring 2, whose ports are up. -/
def ringed : State := { stop with
  sys.mode := .run, cfg.stn := [(3, { node := 77, ring := 2, inLen := 4, outLen := 2 })], cfg.rings := [(2, { n := 1 })]
  cfg.subs := [(0, { node := 9, len := 4 })], cfg.pubs := [(5, {})], sys.nodeId := 5
  net.ports := [(2, { link := true }), (4, { link := true })] }

/-- A standby in RUN, in sync, on ring 2. -/
def standby : State := { stop with
  sys.mode := .run, sys.primary := false, sys.lone := false, cfg.partner := true, cfg.partnerNode := 8, dpx.state := .insync, dpx.up0 := true, dpx.up1 := true
  cfg.loops := [(0, { owner := 1, n := 1 })], cfg.rings := [(2, { n := 1 })], net.ports := [(2, { link := true })]
  cfg.cls := [(0, { en := true, cycUs := 1000 })] }

/-- A primary in RUN, in sync. -/
def primary : State := { standby with sys.primary := true }

/-- A lone primary in RUN whose CAN channel 7 is bus-on, with queues of four entries of 64 bytes and FD frames. -/
def canned : State := { stop with
  sys.mode := .run, regs := [(0x08E008, 0x12021010)], can := [(7, { off := false })] }

/-- A lone module in STOP with its local channels running: input 30 and output 31, analogue input 14 and output 15. -/
def local_ : State := { stop with
  fio.run := true, fio.feed0 := true, fio.feed1 := true
  regs := [(0x0904C0, 0x40), (0x0904E0, 0x41), (0x090980, 0x70A), (0x0909C0, 0x305)] }

/-- A lone module in STOP whose safety subsystem runs, with output 3 configured and on, and connection 63. -/
def safe : State := { stop with
  saf.started := true, saf.selRun := true, saf.spRun := true, saf.so := [(3, { hs := true, ls := true })], cfg.wsc := [(63, { en := true })], saf.wsc := [(63, { sent := [(0, 0)] })]
  regs := [(0x0A00AC, 0x00010400)] }

/-- The header of a PDU of connection 63 with sequence number `n`, and its CRC. -/
def pdu (n : Byte) : List Byte := [n, 0, 0, 0, 0, 0] ++ le 4 (wscCrc 0 0 [n, 0, 0, 0, 0, 0]).toNat

/-- What a step's next state shows. -/
def after {α : Type} (o : Host.Outcome State Fault Refusal) (f : State → α) : Option α :=
  match o with
  | .next t => some (f t)
  | _ => none

/-! Commands that cannot be formed: one for each check of WellFormed. -/

theorem test_wf_refuses_slot : (Instr.nop { slot := 17 }).wf = false := by decide
theorem test_wf_refuses_payload : (Instr.varRead { slot := 1, dlen := 8 }).wf = false := by decide
theorem test_wf_refuses_record_type : (Instr.ack { type := 65536 }).wf = false := by decide +kernel
theorem test_wf_refuses_record_format : (Instr.ack { fmt := 256 }).wf = false := by decide
theorem test_wf_refuses_record_length (n : Nat) (h : 65536 < n) : (Instr.image { payload := List.replicate n 0 }).wf = false := by
  simp [Instr.wf, BRec.wf, h]
theorem test_wf_refuses_port : (Instr.input { port := 7 }).wf = false := by decide
theorem test_wf_refuses_frame_length (n : Nat) (h : 1474 < n) : (Instr.input { payload := List.replicate n 0 }).wf = false := by
  simp [Instr.wf, Kcp.wf, h]
theorem test_wf_refuses_can_data (n : Nat) (h : 2048 < n) : (Instr.canFrameReceived 0 { data := List.replicate n 0 } 0).wf = false := by
  simp [Instr.wf, CanEnt.wf, h]
theorem test_wf_refuses_area : (Instr.intervalCheckpoint 0 { priv := [{ area := 3 }] }).wf = false := by decide
theorem test_wf_refuses_offset : (Instr.registerWrite .host 16777216 0 15).wf = false := by decide +kernel
theorem test_wf_refuses_unaligned : (Instr.pressGo .host 2).wf = false := by decide +kernel
theorem test_wf_refuses_alias_offset : (Instr.bitAliasWrite .host 33554432 0 15).wf = false := by decide +kernel
theorem test_wf_refuses_initiator : (Instr.registerWrite (.app 4) 0 0 15).wf = false := by decide
theorem test_wf_refuses_device : (Instr.powerGood { trainFail := [18] }).wf = false := by decide
theorem test_wf_refuses_station : (Instr.powerGood { stnsIn := [1024] }).wf = false := by decide +kernel
theorem test_wf_refuses_vote_copy : (Instr.voteSweep [(0, 3, 0)]).wf = false := by decide
theorem test_wf_refuses_guarded_word : (Instr.paritySweep [2]).wf = false := by decide
theorem test_wf_refuses_key_store_word : (Instr.mramScrub 0 [.keyStore 2]).wf = false := by decide
theorem test_wf_refuses_doorbell_page : (Instr.submissionDoorbell ⟨256, 0⟩ 0 15).wf = false := by decide +kernel
theorem test_wf_refuses_ring_of_an_access : (Instr.hostMemoryError (.entry 17)).wf = false := by decide
theorem test_wf_refuses_loop : (Instr.loopCrease 4096).wf = false := by decide +kernel
theorem test_wf_refuses_station_index : (Instr.outputLaunch 1024).wf = false := by decide +kernel
theorem test_wf_refuses_publication : (Instr.peerLaunch 64).wf = false := by decide
theorem test_wf_refuses_subscription : (Instr.peerTimeout 256).wf = false := by decide +kernel
theorem test_wf_refuses_pdu : (Instr.wscPduReceive 0 (List.replicate 59 0) 0).wf = false := by decide
theorem test_wf_refuses_burst : (Instr.hartBurstMessage 0 (List.replicate 256 0)).wf = false := by decide +kernel
theorem test_wf_refuses_line : (Instr.correctedWriteBack 268435456).wf = false := by decide +kernel

/-! Values that the spec states. -/

/-- spec/14_safety.md R394: the check value over the digits 1 to 9. -/
theorem test_wsc_crc_check_value : crcWsc [0x31, 0x32, 0x33, 0x34, 0x35, 0x36, 0x37, 0x38, 0x39] = 0x1697D06A := by decide +kernel

/-- spec/00_scope.md, short times across the wrap: 8,192 ns ahead, 4,096 ns behind. -/
theorem test_short_times_wrap :
    shortDiff 0x00001000 0xFFFFF000 = 8192 ∧ shortDiff 0xFFFFE000 0xFFFFF000 = -4096 := by decide +kernel

/-- spec/03_register_conventions.md Table 3.17: the host-liveness press applies, and SYS_HLW_PRESS then reads 0x0001_0000. -/
theorem test_press_applies_time : after (exec (.pressApply 0x000058) { stop with
      press := [(0x000058, { pend := true, lost := 1 })], regs := [(0x000050, 0x7D0), (0x000054, 1)], live := [(0x000054, 1)] })
    (fun t => (t.readReg 0x000058, t.liveReg 0x000050, t.liveReg 0x000054)) = some (0x00010000, 0x7D0, 1) := by decide +kernel

/-- spec/03_register_conventions.md, the alias of SYS_HLW_MODE bit 0 lies at 0x000A80. -/
theorem test_alias_of_hlw_mode : after (exec (.bitAliasWrite .host 0x000A80 0 15) { stop with regs := [(0x000050, 0x7D0), (0x000054, 1)] })
    (fun t => (t.reg 0x000054, t.reg 0x000050)) = some (0, 0x7D0) := by decide +kernel

/-- spec/13_local_field_io.md Tables 13.7, 13.8: the third retry of DIO7 trips, and FIO_DIO_STAT reads 0x0003_0025. -/
theorem test_dio_latches_after_its_retries : after (exec (.dioTrip 7 .ovl) { local_ with
      sys.opNs := 308000000, regs := [(0x0901E0, 0x41)], live := [(0x0901E8, 0x00030064)]
      fio.dio := [(7, { state := true, retries := 2, trips := 3, runOn := true, retryAt := some 306000000 })] })
    (fun t => t.readReg 0x0901F0) = some 0x00030025 := by decide +kernel

/-- spec/10_io_network.md, reading station 0x00105 in the dropout example. -/
theorem test_station_status_word :
    State.readReg 0x060038 { stop with regs := [(0x060030, 0x105)], cfg.stn := [(261, { node := 0x105, ring := 1 })],
                                       net.stns := [(261, { failed := true, last0 := 0x09 })] } = 0x00000901 := by decide +kernel

/-- spec/06_lockstep_and_darn.md Tables 6.9, 6.10: the second mismatch from one checkpoint fails pair 2. -/
theorem test_second_mismatch_fails_the_pair : after (exec (.comparatorMismatch 2 ⟨1, false⟩ {}) { runs with
      cfg.cls := [(5, { en := true, cycUs := 2000, pair := 2 })], cyc.cls := [(5, { running := true, active := true })]
      lsp := [(2, { idle := false, cls := 5, ckseq := 0x1A41, mism := true })] })
    (fun t => (t.readReg 0x030000, t.readReg 0x030200, t.sys.mode, t.sys.haltCause)) =
      some (0x00000402, 0x1A4100A1, .faultHalt, 2) := by decide +kernel

/-- spec/13_local_field_io.md: with ELO = 0 and EHI = 100, an output of 61.2 drives 13.792 mA, in steps of 0.1 µA. -/
theorem test_output_current :
    State.aoCurrent { local_ with cfg.aio := [(15, { elo := 0, ehi := 0x42C80000 })] } 15 0x4274CCCD = 137920 := by decide +kernel

/-! Tests of the model's own laws on one step. -/

theorem test_idle_step_counts_two_ns : after (step { stop with sys.opNs := 40 }) (fun t => (t.sys.opNs, t.tim.ns)) = some (42, 2) := by
  decide +kernel

theorem test_step_takes_the_front : after (step { stop with pending := [.fioDioRearm 0, .vretLost] }) (fun t => t.pending) =
    some [.vretLost] := by decide +kernel

theorem test_reset_waits_for_no_command : State.reset.pending = [] := rfl

/-! The hypotheses of the statements can be met. -/

/-- Every case of `Obligations.SupplyReadingsAreKept` is met by some state and operands. -/
theorem test_supply_readings_are_kept_met :
    (∃ (s : State), s.sys.mode ≠ .retain) ∧
    (∃ (s : State), s.sys.mode = .retain) ∧
    (∃ (s : State), s.sys.mode = .retain) ∧
    (∃ (s : State), s.sys.mode ≠ .retain ∧ s.pwr.shutdown = false ∧ s.pwr.pfail = false) ∧
    (∃ (s : State), s.sys.mode ≠ .retain) ∧
    (∃ (s : State) (feedB : Bool) (inRange : Bool), Settled s ∧ s.sys.mode ≠ .retain ∧ (if feedB then s.pwr.feedB else s.pwr.feedA) ≠ inRange) ∧
    (∃ (s : State), Settled s ∧ s.sys.mode ≠ .retain) :=
  ⟨⟨stop, by decide +kernel⟩,
   ⟨retained, by decide +kernel⟩,
   ⟨retained, by decide +kernel⟩,
   ⟨stop, by decide +kernel⟩,
   ⟨stop, by decide +kernel⟩,
   ⟨stop, true, false, settled_of (by decide +kernel) rfl, by decide +kernel⟩,
   ⟨stop, settled_of (by decide +kernel) rfl, by decide +kernel⟩⟩

/-- Every case of `Obligations.PfailHoldsAndReleasesWork` is met by some state and operands. -/
theorem test_pfail_holds_and_releases_work_met :
    (∃ (s : State), Settled s ∧ s.sys.mode ≠ .retain ∧ s.pwr.shutdown = false ∧ s.pwr.pfail = false) ∧
    (∃ (s : State), Settled s ∧ s.sys.mode ≠ .retain ∧ s.pwr.shutdown = false ∧ s.pwr.pfail = true) :=
  ⟨⟨stop, settled_of (by decide +kernel) rfl, by decide +kernel⟩,
   ⟨{ stop with pwr.pfail := true }, settled_of (by decide +kernel) rfl, by decide +kernel⟩⟩

/-- Every case of `Obligations.ShutdownReachesRetain` is met by some state and operands. -/
theorem test_shutdown_reaches_retain_met :
    (∃ (s : State), s.sys.mode ≠ .retain) ∧
    (∃ (s : State), s.sys.mode ≠ .retain) ∧
    (∃ (s : State), Settled s ∧ s.sys.mode ≠ .retain ∧ s.pwr.shutdown = false ∧ s.ret.present = true ∧ s.sys.primary = true ∧ s.dpx.state ≠ .insync) ∧
    (∃ (s : State), s.sys.mode ≠ .retain ∧ s.pwr.shutdown = false ∧ s.ret.present = true ∧ (s.sys.primary = false ∨ s.dpx.state = .insync)) :=
  ⟨⟨stop, by decide +kernel⟩,
   ⟨stop, by decide +kernel⟩,
   ⟨{ stop with ret.present := true }, settled_of (by decide +kernel) rfl, by decide +kernel⟩,
   ⟨{ stop with ret.present := true, sys.primary := false }, by decide +kernel⟩⟩

/-- Every case of `Obligations.UnrecoverableFaultsHaltTheModule` is met by some state and operands. -/
theorem test_unrecoverable_faults_halt_the_module_met :
    (∃ (s : State), s.running = true ∧ s.settling = false ∧ s.sys.mode ≠ .faultHalt) ∧
    (∃ (s : State), s.running = true ∧ s.settling = false ∧ s.sys.mode ≠ .faultHalt ∧ 100 ≤ s.pwr.hotRun) ∧
    (∃ (s : State), s.running = true ∧ s.settling = false ∧ s.sys.mode ≠ .faultHalt) ∧
    (∃ (s : State), s.running = true ∧ s.settling = false ∧ s.sys.mode ≠ .faultHalt) ∧
    (∃ (s : State), s.running = true ∧ s.settling = false ∧ s.sys.mode ≠ .faultHalt) :=
  ⟨⟨stop, by decide +kernel⟩,
   ⟨{ stop with pwr.hotRun := 100 }, by decide +kernel⟩,
   ⟨stop, by decide +kernel⟩,
   ⟨stop, by decide +kernel⟩,
   ⟨stop, by decide +kernel⟩⟩

/-- Every case of `Obligations.WritesOutsideTheMapAreCounted` is met by some state and operands. -/
theorem test_writes_outside_the_map_are_counted_met :
    (∃ (off : Nat), 2 ^ 24 ≤ off) ∧
    (∃ (off : Nat), off < 2 ^ 24 ∧ off % 4 ≠ 0) ∧
    (∃ (off : Nat), 2 ^ 25 ≤ off) ∧
    (∃ (off : Nat), off < 2 ^ 25 ∧ off % 4 ≠ 0) ∧
    (∃ (s : State) (off : Nat) (be : BitVec 4), Settled s ∧ off < 2 ^ 24 ∧ off % 4 = 0 ∧ s.regLive off = true ∧ be ≠ 15) ∧
    (∃ (s : State) (off : Nat), Settled s ∧ off < 2 ^ 24 ∧ off % 4 = 0 ∧ s.regLive off = true ∧ rowAt off = none ∧ inMsix off = false) ∧
    (∃ (s : State) (off : Nat) (r : RegRow), Settled s ∧ off < 2 ^ 24 ∧ off % 4 = 0 ∧ s.regLive off = true ∧ rowAt off = some r ∧ r.acc = .ro ∧ inMsix off = false) ∧
    (∃ (s : State) (o : Nat) (i : Nat) (r : RegRow), Settled s ∧ o < 2 ^ 20 ∧ o % 4 = 0 ∧ i < 32 ∧ s.regLive o = true ∧ rowAt o = some r ∧ inMsix o = false ∧ (r.acc = .ro ∨ r.mask.getLsbD i = false)) ∧
    (∃ (s : State) (o : Nat) (i : Nat) (be : BitVec 4), Settled s ∧ o < 2 ^ 20 ∧ o % 4 = 0 ∧ i < 32 ∧ s.regLive o = true ∧ be ≠ 15) ∧
    (∃ (s : State) (o : Nat) (i : Nat), Settled s ∧ o < 2 ^ 20 ∧ o % 4 = 0 ∧ i < 32 ∧ s.regLive o = true ∧ rowAt o = none ∧ inMsix o = false) :=
  ⟨⟨2 ^ 24, by decide +kernel⟩,
   ⟨2 ^ 24 - 1, by decide +kernel⟩,
   ⟨2 ^ 25, by decide +kernel⟩,
   ⟨2 ^ 25 - 1, by decide +kernel⟩,
   ⟨stop, 2 ^ 24 - 4, 0, settled_of (by decide +kernel) rfl, by decide +kernel⟩,
   ⟨stop, 0x000FFC, settled_of (by decide +kernel) rfl, by decide +kernel⟩,
   ⟨stop, 0, ((rowAt 0).getD ⟨0, 0, 0, .ro, 0, 0, 0⟩), settled_of (by decide +kernel) rfl, by decide +kernel⟩,
   ⟨stop, 0, 31, ((rowAt 0).getD ⟨0, 0, 0, .ro, 0, 0, 0⟩), settled_of (by decide +kernel) rfl, by decide +kernel⟩,
   ⟨stop, 0, 31, 0, settled_of (by decide +kernel) rfl, by decide +kernel⟩,
   ⟨stop, 0x000FFC, 0, settled_of (by decide +kernel) rfl, by decide +kernel⟩⟩

/-- Every case of `Obligations.RegisterCopiesTakeMaskedWrites` is met by some state and operands. -/
theorem test_register_copies_take_masked_writes_met :
    (∃ (s : State) (ini : Ini) (off : Nat) (r : RegRow), Settled s ∧ off < 2 ^ 24 ∧ off % 4 = 0 ∧ s.regLive off = true ∧ rowAt off = some r ∧ r.acc = .rw ∧ inMsix off = false ∧ inWindow off = false ∧ s.mayWrite ini off .rw = true ∧ postBase off = none ∧ off ≠ Reg.memInjCtrl ∧ off ≠ 0x0A0020) ∧
    (∃ (s : State) (ini : Ini) (off : Nat) (g : Nat) (r : RegRow), Settled s ∧ off < 2 ^ 24 ∧ off % 4 = 0 ∧ s.regLive off = true ∧ rowAt off = some r ∧ r.acc = .rwp ∧ pressOf off = some g ∧ inMsix off = false ∧ inWindow off = false ∧ s.mayWrite ini off .rwp = true ∧ postBase off = none ∧ (s.pressAt g).pend = false) ∧
    (∃ (s : State) (ini : Ini) (off : Nat) (g : Nat) (r : RegRow), Settled s ∧ off < 2 ^ 24 ∧ off % 4 = 0 ∧ s.regLive off = true ∧ rowAt off = some r ∧ r.acc = .rwp ∧ pressOf off = some g ∧ inMsix off = false ∧ inWindow off = false ∧ s.mayWrite ini off .rwp = true ∧ postBase off = none ∧ (s.pressAt g).pend = true) ∧
    (∃ (s : State) (ini : Ini) (off : Nat) (r : RegRow), Settled s ∧ off < 2 ^ 24 ∧ off % 4 = 0 ∧ s.regLive off = true ∧ rowAt off = some r ∧ r.acc = .rwv ∧ inMsix off = false ∧ inWindow off = false ∧ s.mayWrite ini off .rwv = true ∧ postBase off = none) ∧
    (∃ (s : State) (ini : Ini) (o : Nat) (i : Nat) (r : RegRow), Settled s ∧ o < 2 ^ 20 ∧ o % 4 = 0 ∧ i < 32 ∧ s.regLive o = true ∧ rowAt o = some r ∧ r.acc = .rw ∧ r.mask.getLsbD i = true ∧ inMsix o = false ∧ inWindow o = false ∧ s.mayWrite ini o .rw = true ∧ postBase o = none ∧ o ≠ Reg.memInjCtrl ∧ o ≠ 0x0A0020) :=
  ⟨⟨stop, .host, 0x000040, ((rowAt 0x000040).getD ⟨0, 0, 0, .ro, 0, 0, 0⟩), settled_of (by decide +kernel) rfl, by decide +kernel⟩,
   ⟨stop, .host, 0x000050, 0x000058, ((rowAt 0x000050).getD ⟨0, 0, 0, .ro, 0, 0, 0⟩), settled_of (by decide +kernel) rfl, by decide +kernel⟩,
   ⟨{ stop with press := [(0x000058, { pend := true })] }, .host, 0x000050, 0x000058, ((rowAt 0x000050).getD ⟨0, 0, 0, .ro, 0, 0, 0⟩), settled_of (by decide +kernel) rfl, by decide +kernel⟩,
   ⟨stop, .host, 0x030110, ((rowAt 0x030110).getD ⟨0, 0, 0, .ro, 0, 0, 0⟩), settled_of (by decide +kernel) rfl, by decide +kernel⟩,
   ⟨stop, .host, 0x000040, 0, ((rowAt 0x000040).getD ⟨0, 0, 0, .ro, 0, 0, 0⟩), settled_of (by decide +kernel) rfl, by decide +kernel⟩⟩

/-- Every case of `Obligations.PostedWritesWaitInTheirBlock` is met by some state and operands. -/
theorem test_posted_writes_wait_in_their_block_met :
    (∃ (s : State) (ini : Ini) (off : Nat) (b : Nat) (r : RegRow), Settled s ∧ off < 2 ^ 24 ∧ off % 4 = 0 ∧ s.regLive off = true ∧ rowAt off = some r ∧ r.acc ≠ .ro ∧ inMsix off = false ∧ inWindow off = false ∧ s.mayWrite ini off r.acc = true ∧ postBase off = some b ∧ (s.posted.look b {}).busy = none) ∧
    (∃ (s : State) (ini : Ini) (off : Nat) (b : Nat) (r : RegRow), Settled s ∧ off < 2 ^ 24 ∧ off % 4 = 0 ∧ s.regLive off = true ∧ rowAt off = some r ∧ r.acc ≠ .ro ∧ inMsix off = false ∧ inWindow off = false ∧ s.mayWrite ini off r.acc = true ∧ postBase off = some b ∧ (s.posted.look b {}).busy ≠ none) ∧
    (∃ (s : State) (b : Nat) (w : Post) (r : RegRow), s.sys.preempted = [] ∧ (s.posted.look b {}).busy = some w ∧ rowAt w.off = some r ∧ r.acc = .rw ∧ w.off ≠ Reg.memInjCtrl ∧ w.off ≠ Reg.tlyRdseq ∧ w.off ≠ Reg.fioHartHctl ∧ w.off ≠ 0x0A0020) ∧
    (∃ (s : State) (b : Nat), Settled s ∧ (s.posted.look b {}).busy ≠ none ∧ (s.posted.look b {}).failed = false) :=
  ⟨⟨stop, .host, 0x090108, 0x090000, ((rowAt 0x090108).getD ⟨0, 0, 0, .ro, 0, 0, 0⟩), settled_of (by decide +kernel) rfl, by decide +kernel⟩,
   ⟨{ stop with posted := [(0x090000, { busy := some { off := 0x090108 } })] }, .host, 0x090108, 0x090000, ((rowAt 0x090108).getD ⟨0, 0, 0, .ro, 0, 0, 0⟩), settled_of (by decide +kernel) rfl, by decide +kernel⟩,
   ⟨{ stop with posted := [(0x090000, { busy := some { off := 0x090620 } })] }, 0x090000, { off := 0x090620 }, ((rowAt 0x090620).getD ⟨0, 0, 0, .ro, 0, 0, 0⟩), by decide +kernel⟩,
   ⟨{ stop with posted := [(0x090000, { busy := some { off := 0x090108 } })] }, 0x090000, settled_of (by decide +kernel) rfl, by decide +kernel⟩⟩

/-- Every case of `Obligations.PressCopiesAWholeGroupOrNothing` is met by some state and operands. -/
theorem test_press_copies_a_whole_group_or_nothing_met :
    (∃ (s : State) (ini : Ini) (off : Nat) (r : RegRow), Settled s ∧ s.regLive off = true ∧ rowAt off = some r ∧ r.acc = .press ∧ r.mask.getLsbD 0 = true ∧ inMsix off = false ∧ inWindow off = false ∧ s.mayWrite ini off .press = true ∧ postBase off = none ∧ (s.pressAt off).pend = false) ∧
    (∃ (s : State) (ini : Ini) (off : Nat) (r : RegRow), Settled s ∧ s.regLive off = true ∧ rowAt off = some r ∧ r.acc = .press ∧ r.mask.getLsbD 0 = true ∧ inMsix off = false ∧ inWindow off = false ∧ s.mayWrite ini off .press = true ∧ postBase off = none ∧ (s.pressAt off).pend = true) ∧
    (∃ (s : State) (ini : Ini) (off : Nat) (b : Nat) (r : RegRow), Settled s ∧ s.regLive off = true ∧ rowAt off = some r ∧ r.acc = .press ∧ r.mask.getLsbD 0 = true ∧ inMsix off = false ∧ inWindow off = false ∧ s.mayWrite ini off .press = true ∧ postBase off = some b ∧ (s.posted.look b {}).busy = none) ∧
    (∃ (s : State) (off : Nat), s.sys.preempted = [] ∧ s.regLive off = true ∧ inWindow off = false ∧ (s.pressAt off).pend = true ∧ s.atBoundary off = true ∧ s.pressOk off = true) ∧
    (∃ (s : State) (off : Nat), Settled s ∧ s.regLive off = true ∧ inWindow off = false ∧ (s.pressAt off).pend = true ∧ s.atBoundary off = true ∧ s.pressOk off = false) :=
  ⟨⟨stop, .host, 0x000058, ((rowAt 0x000058).getD ⟨0, 0, 0, .ro, 0, 0, 0⟩), settled_of (by decide +kernel) rfl, by decide +kernel⟩,
   ⟨{ stop with press := [(0x000058, { pend := true })] }, .host, 0x000058, ((rowAt 0x000058).getD ⟨0, 0, 0, .ro, 0, 0, 0⟩), settled_of (by decide +kernel) rfl, by decide +kernel⟩,
   ⟨stop, .host, 0x09010C, 0x090000, ((rowAt 0x09010C).getD ⟨0, 0, 0, .ro, 0, 0, 0⟩), settled_of (by decide +kernel) rfl, by decide +kernel⟩,
   ⟨{ stop with press := [(0x000058, { pend := true })] }, 0x000058, by decide +kernel⟩,
   ⟨{ stop with press := [(0x000058, { pend := true })], regs := [(0x000050, 9)] }, 0x000058, settled_of (by decide +kernel) rfl, by decide +kernel⟩⟩

/-- Every case of `Obligations.SweepsRestoreVotesAndTripParity` is met by some state and operands. -/
theorem test_sweeps_restore_votes_and_trip_parity_met :
    (∃ (s : State) (o : Nat) (k : Nat) (w : Word), Settled s ∧ (∀ p, (s.vote p).agree = true) ∧ s.reach = true ∧ isVoted o = true ∧ k < 3 ∧ (s.vote o).atDefault = false ∧ w ≠ (s.vote o).a) ∧
    (∃ (s : State) (o : Nat), Settled s ∧ ((∀ p, p ≠ o → (s.vote p).agree = true)) ∧ s.reach = true ∧ o ∈ s.votes.keys ∧ (s.vote o).atDefault = false ∧ (s.vote o).majority = false ∧ s.votes.keys.Nodup) ∧
    (∃ (s : State) (o : Nat) (g : Nat), Settled s ∧ s.reach = true ∧ parityGroup o = some g ∧ (g = 1 ∨ g = 2) ∧ s.sys.parityBad = [] ∧ g ∉ s.sys.parTrip) ∧
    (∃ (s : State) (o : Nat), Settled s ∧ s.reach = true ∧ parityGroup o = some 3 ∧ s.sys.parityBad = [] ∧ 3 ∉ s.sys.parTrip) ∧
    (∃ (s : State) (o : Nat), s.reach = true ∧ s.running = true ∧ s.settling = false ∧ s.sys.mode ≠ .faultHalt ∧ parityGroup o = some 4 ∧ s.sys.parityBad = [] ∧ 4 ∉ s.sys.parTrip) :=
  ⟨⟨stop, 0x030110, 2, 1, settled_of (by decide +kernel) rfl, fun p => by simp [State.vote, Vote.agree, stop, State.reset, Tab.look, Tab.find], by decide +kernel⟩,
   ⟨{ stop with votes := [(0x030110, { a := 1, b := 2, c := 3 })] }, 0x030110, settled_of (by decide +kernel) rfl, fun p hp => by simp [State.vote, Vote.agree, Tab.look, Tab.find, stop, Ne.symm hp], by decide +kernel⟩,
   ⟨stop, 0x0A0040, 1, settled_of (by decide +kernel) rfl, by decide +kernel⟩,
   ⟨stop, 0x0D0000, settled_of (by decide +kernel) rfl, by decide +kernel⟩,
   ⟨stop, 0x050020, by decide +kernel⟩⟩

/-- Every case of `Obligations.HostLivenessAndTheRestartKey` is met by some state and operands. -/
theorem test_host_liveness_and_the_restart_key_met :
    (∃ (s : State), Settled s ∧ s.reach = true ∧ (s.liveReg Reg.sysHlwMode).getLsbD 0 = true) ∧
    (∃ (s : State), Settled s ∧ s.reach = true ∧ (s.liveReg Reg.sysHlwMode).getLsbD 0 = false) ∧
    (∃ (s : State), Settled s ∧ s.reach = true ∧ (s.liveReg Reg.sysHlwMode).getLsbD 0 = true ∧ s.sys.hostLost = false) ∧
    (∃ (s : State), s.reach = true ∧ (s.liveReg Reg.sysHlwMode).getLsbD 0 = false) ∧
    (∃ (s : State), Settled s ∧ s.reach = true ∧ s.restartable = true ∧ s.sys.restartKey = none) ∧
    (∃ (s : State) (v : Word), Settled s ∧ s.reach = true ∧ s.restartable = true ∧ s.sys.restartKey = none ∧ v ≠ 0x0000A5C3) ∧
    (∃ (s : State) (t0 : Nat), s.reach = true ∧ s.restartable = true ∧ s.sys.restartKey = some t0 ∧ s.sys.opNs ≤ t0 + 1000000) ∧
    (∃ (s : State) (v : Word) (t0 : Nat), Settled s ∧ s.reach = true ∧ s.restartable = true ∧ s.sys.restartKey = some t0 ∧ (v ≠ 0x00003C5A ∨ t0 + 1000000 < s.sys.opNs)) ∧
    (∃ (s : State), Settled s ∧ s.reach = true ∧ s.restartable = false) :=
  ⟨⟨{ stop with live := [(0x000054, 1)] }, settled_of (by decide +kernel) rfl, by decide +kernel⟩,
   ⟨{ stop with live := [(0x000054, 0)] }, settled_of (by decide +kernel) rfl, by decide +kernel⟩,
   ⟨{ stop with live := [(0x000054, 1)] }, settled_of (by decide +kernel) rfl, by decide +kernel⟩,
   ⟨{ stop with live := [(0x000054, 0)] }, by decide +kernel⟩,
   ⟨{ stop with sys.mode := .recovery }, settled_of (by decide +kernel) rfl, by decide +kernel⟩,
   ⟨{ stop with sys.mode := .recovery }, 0, settled_of (by decide +kernel) rfl, by decide +kernel⟩,
   ⟨{ stop with sys.mode := .recovery, sys.restartKey := some 0, sys.opNs := 1000000 }, 0, by decide +kernel⟩,
   ⟨{ stop with sys.mode := .recovery, sys.restartKey := some 0, sys.opNs := 1000001 }, 0, 0, settled_of (by decide +kernel) rfl, by decide +kernel⟩,
   ⟨stop, settled_of (by decide +kernel) rfl, by decide +kernel⟩⟩

/-- Every case of `Obligations.PowerGoodStartsTheModule` is met by some state and operands. -/
theorem test_power_good_starts_the_module_met :
    (∃ (s : State), (s.sys.mode = .retain ∨ (s.sys.mode = .boot ∧ s.hif.crs = true))) ∧
    (∃ (s : State) (obs : BootObs), (s.sys.mode = .retain ∨ (s.sys.mode = .boot ∧ s.hif.crs = true)) ∧ obs.ksParity = false) :=
  ⟨⟨retained, by decide +kernel⟩,
   ⟨ State.reset, { ksParity := false }, by decide +kernel⟩⟩

/-- Every case of `Obligations.DoorbellsMoveIndicesOrHaltTheRing` is met by some state and operands. -/
theorem test_doorbells_move_indices_or_halt_the_ring_met :
    (∃ (p : Nat) (k : Nat), (256 ≤ p ∨ 0x1000 ≤ k)) ∧
    (∃ (p : Nat), 256 ≤ p) ∧
    (∃ (p : Nat) (k : Nat), p < 256 ∧ k < 0x1000 ∧ k % 4 ≠ 0) ∧
    (∃ (s : State) (p : Nat) (v : Word), Settled s ∧ p < 17 ∧ s.reach = true ∧ (s.ring p).live = true ∧ (s.ring p).halted = false ∧ doorbellCause (s.ring p).sqK (s.ring p).tail (ringDist (s.ring p).sqK (s.ring p).tail ((s.ring p).sqHead + 2 ^ (s.ring p).sqK - 1)) 2 v = none) ∧
    (∃ (s : State) (p : Nat) (v : Word), Settled s ∧ p < 17 ∧ s.reach = true ∧ (s.ring p).live = true ∧ (s.ring p).halted = false ∧ doorbellCause (s.ring p).cqK (s.ring p).headDb (ringDist (s.ring p).cqK (s.ring p).headDb (s.ring p).cqTail) 5 v = none) ∧
    (∃ (s : State) (v : Word), Settled s ∧ s.reach = true ∧ s.hif.ev.live = true ∧ s.hif.ev.halted = false ∧ doorbellCause s.hif.ev.k s.hif.ev.headDb (ringDist s.hif.ev.k s.hif.ev.headDb s.hif.ev.tail) 5 v = none) ∧
    (∃ (s : State) (p : Nat) (c : Nat) (v : Word), Settled s ∧ p < 17 ∧ s.reach = true ∧ (s.ring p).live = true ∧ (s.ring p).halted = false ∧ ((∀ i, (s.ring p).infl = some i → i.begun = true)) ∧ doorbellCause (s.ring p).sqK (s.ring p).tail (ringDist (s.ring p).sqK (s.ring p).tail ((s.ring p).sqHead + 2 ^ (s.ring p).sqK - 1)) 2 v = some c) ∧
    (∃ (s : State) (p : Nat) (c : Nat) (v : Word), Settled s ∧ p < 17 ∧ s.reach = true ∧ (s.ring p).live = true ∧ (s.ring p).halted = false ∧ ((∀ i, (s.ring p).infl = some i → i.begun = true)) ∧ doorbellCause (s.ring p).cqK (s.ring p).headDb (ringDist (s.ring p).cqK (s.ring p).headDb (s.ring p).cqTail) 5 v = some c) ∧
    (∃ (s : State) (c : Nat) (v : Word), Settled s ∧ s.reach = true ∧ s.hif.ev.live = true ∧ s.hif.ev.halted = false ∧ doorbellCause s.hif.ev.k s.hif.ev.headDb (ringDist s.hif.ev.k s.hif.ev.headDb s.hif.ev.tail) 5 v = some c) ∧
    (∃ (s : State) (p : Nat) (c : Nat) (v : Word) (i : Infl), Settled s ∧ p < 17 ∧ s.reach = true ∧ (s.ring p).live = true ∧ (s.ring p).halted = false ∧ (s.ring p).cqHalt = false ∧ (s.ring p).deleting = false ∧ (s.ring p).infl = some i ∧ i.begun = false ∧ i.cmd.slot = p ∧ i.cmd.cqeOk = true ∧ doorbellCause (s.ring p).sqK (s.ring p).tail (ringDist (s.ring p).sqK (s.ring p).tail ((s.ring p).sqHead + 2 ^ (s.ring p).sqK - 1)) 2 v = some c) ∧
    (∃ (s : State) (p : Nat), Settled s ∧ p < 17 ∧ s.reach = true ∧ (s.ring p).live = true ∧ (s.ring p).halted = true) ∧
    (∃ (s : State) (p : Nat) (k : Nat) (be : BitVec 4), Settled s ∧ p < 256 ∧ k < 0x1000 ∧ k % 4 = 0 ∧ s.reach = true ∧ be ≠ 15) ∧
    (∃ (s : State) (p : Nat) (be : BitVec 4), Settled s ∧ p < 256 ∧ s.reach = true ∧ be ≠ 15) ∧
    (∃ (s : State) (p : Nat) (k : Nat), Settled s ∧ p < 256 ∧ k < 0x1000 ∧ k % 4 = 0 ∧ s.reach = true ∧ (17 < p ∨ s.slotLive p = false ∨ (k ≠ 0 ∧ k ≠ 4) ∨ (p = 17 ∧ k = 0))) ∧
    (∃ (s : State) (p : Nat), Settled s ∧ p < 256 ∧ s.reach = true ∧ (17 < p ∨ s.slotLive p = false)) :=
  ⟨⟨256, 0, by decide +kernel⟩,
   ⟨256, by decide +kernel⟩,
   ⟨255, 0xFFF, by decide +kernel⟩,
   ⟨{ host with hif.rings := [(1, { offers with sqHead := 0, tail := 0 })] }, 1, 15, settled_of (by decide +kernel) rfl, by decide +kernel⟩,
   ⟨host, 1, 0, settled_of (by decide +kernel) rfl, by decide +kernel⟩,
   ⟨{ host with hif.ev.live := true, hif.ev.k := 4 }, 0, settled_of (by decide +kernel) rfl, by decide +kernel⟩,
   ⟨host, 0, 1, 16, settled_of (by decide +kernel) rfl, by decide +kernel⟩,
   ⟨host, 0, 4, 0x10000, settled_of (by decide +kernel) rfl, by decide +kernel⟩,
   ⟨{ host with hif.ev.live := true, hif.ev.k := 4 }, 1, 16, settled_of (by decide +kernel) rfl, by decide +kernel⟩,
   ⟨{ host with hif.rings := [(1, { offers with infl := some { cmd := { slot := 1 } } })] }, 1, 1, 16, { cmd := { slot := 1 } }, settled_of (by decide +kernel) rfl, by decide +kernel⟩,
   ⟨{ host with hif.rings := [(16, { offers with halted := true })] }, 16, settled_of (by decide +kernel) rfl, by decide +kernel⟩,
   ⟨host, 255, 0xFFC, 0, settled_of (by decide +kernel) rfl, by decide +kernel⟩,
   ⟨host, 255, 0, settled_of (by decide +kernel) rfl, by decide +kernel⟩,
   ⟨host, 17, 0xFFC, settled_of (by decide +kernel) rfl, by decide +kernel⟩,
   ⟨host, 18, settled_of (by decide +kernel) rfl, by decide +kernel⟩⟩

/-- Every case of `Obligations.InterruptsWindowsAndPcieReset` is met by some state and operands. -/
theorem test_interrupts_windows_and_pcie_reset_met :
    (∃ (s : State), s.reach = true) ∧
    (∃ (s : State) (n : Nat), (s.ring n).live = true ∧ 0 < (s.ring n).uncounted) ∧
    (∃ (s : State), s.running = true ∧ s.insync = true ∧ s.cfg.partner = true) ∧
    (∃ (s : State), s.running = true ∧ s.insync = false) ∧
    (∃ (s : State), s.sys.mode ≠ .retain) ∧
    (∃ (s : State) (rseq : DWord) (n : Nat) (i : Infl), s.running = true ∧ s.insync = true ∧ s.awaiting rseq = some n ∧ (s.ring n).infl = some i ∧ i.cmd.slot = n ∧ i.status ≠ St.ok ∧ (s.hostOp i.cmd).isSome = true ∧ i.cmd.cqeOk = true ∧ (s.ring n).cqHalt = false) ∧
    (∃ (s : State) (rseq : DWord) (n : Nat) (i : Infl), s.running = true ∧ s.insync = true ∧ s.awaiting rseq = some n ∧ (s.ring n).infl = some i ∧ i.cmd.slot = n ∧ i.status = St.ok ∧ i.cmd.opcode = 0x43 ∧ i.cmd.cqeOk = true ∧ (s.ring n).cqHalt = false) ∧
    (∃ (s : State) (rseq : DWord), s.running = true ∧ s.insync = true ∧ s.awaiting rseq = none ∧ s.lostOf rseq = none ∧ rseq ∈ s.dpx2.hwOut) ∧
    (∃ (s : State) (n : Nat), Settled s ∧ s.canTake n .n = true ∧ n ≠ 17) ∧
    (∃ (s : State) (h : Hcmd) (op : HostOp), Settled s ∧ s.hostOp h = some op ∧ h.opcode ∈ ([0x41, 0x43, 0x44, 0x45, 0x48] : List Byte) ∧ s.canTake h.slot op.dur = true ∧ op.static { h with fetchOk := false } = some St.dmaErr ∧ (s.ring h.slot).cqHalt = false ∧ h.cqeOk = true) ∧
    (∃ (s : State) (h : Hcmd), Offered opIdentify h s ∧ h.opcode = 0x01) ∧
    (∃ (s : State) (h : Hcmd), Offered (opNop false) h s ∧ h.opcode = 0x40) ∧
    (∃ (s : State), Settled s ∧ s.hif.ev.live = true ∧ s.hif.ev.halted = false ∧ s.hif.ev.tail ≠ s.hif.ev.headDb) :=
  ⟨⟨host, by decide +kernel⟩,
   ⟨{ host with hif.rings := [(1, { offers with uncounted := 1 })] }, 1, by decide +kernel⟩,
   ⟨{ pair with hif.nWin := [{ slot := 1 }] }, by decide +kernel⟩,
   ⟨host, by decide +kernel⟩,
   ⟨host, by decide +kernel⟩,
   ⟨{ pair with hif.rings := [(1, { offers with infl := some { cmd := { slot := 1 }, ackRseq := some 5, status := 1 } })] }, 5, 1, { cmd := { slot := 1 }, ackRseq := some 5, status := 1 }, by decide +kernel⟩,
   ⟨{ pair with hif.rings := [(1, { offers with infl := some { cmd := { slot := 1, opcode := 0x43 }, ackRseq := some 5 } })] }, 5, 1, { cmd := { slot := 1, opcode := 0x43 }, ackRseq := some 5 }, by decide +kernel⟩,
   ⟨{ pair with dpx2.hwOut := [5] }, 5, by decide +kernel⟩,
   ⟨host, 1, settled_of (by decide +kernel) rfl, by decide +kernel⟩,
   ⟨host, { slot := 1, opcode := 0x43, reqId := 1, dlen := 16, payload := poke }, opForceSet, settled_of (by decide +kernel) rfl, rfl, by decide +kernel⟩,
   ⟨host, { opcode := 1, reqId := 1, rlen := 4096 }, offered_of (settled_of (by decide +kernel) rfl) (by decide +kernel), by decide +kernel⟩,
   ⟨host, { slot := 1, opcode := 0x40, reqId := 1 }, offered_of (settled_of (by decide +kernel) rfl) (by decide +kernel), by decide +kernel⟩,
   ⟨{ host with hif.ev.live := true, hif.ev.k := 4, hif.ev.tail := 1 }, settled_of (by decide +kernel) rfl, by decide +kernel⟩⟩

/-- Every case of `Obligations.UnrecordedCommandsCompleteAtOnce` is met by some state and operands. -/
theorem test_unrecorded_commands_complete_at_once_met :
    (∃ (s : State) (h : Hcmd), Offered (opNop true) h s ∧ knownOp h.opcode = true) ∧
    (∃ (s : State) (h : Hcmd), Offered (opNop true) h s ∧ knownOp h.opcode = false) ∧
    (∃ (s : State) (h : Hcmd), Offered (opNop false) h s) ∧
    (∃ (s : State) (h : Hcmd), Offered opIdentify h s ∧ h.retOk = true) ∧
    (∃ (s : State) (h : Hcmd), Offered opQuote h s ∧ h.retOk = true) ∧
    (∃ (s : State) (h : Hcmd), Offered opTallyRead h s ∧ h.retOk = true) ∧
    (∃ (s : State) (h : Hcmd), Offered opStatus (loadEntry h 2) s ∧ h.retOk = true) :=
  ⟨⟨host, { reqId := 1 }, offered_of (settled_of (by decide +kernel) rfl) (by decide +kernel), by decide +kernel⟩,
   ⟨host, { reqId := 1, opcode := 0x0F }, offered_of (settled_of (by decide +kernel) rfl) (by decide +kernel), by decide +kernel⟩,
   ⟨host, { slot := 1, reqId := 1 }, offered_of (settled_of (by decide +kernel) rfl) (by decide +kernel)⟩,
   ⟨host, { reqId := 1, rlen := 4096 }, offered_of (settled_of (by decide +kernel) rfl) (by decide +kernel), by decide +kernel⟩,
   ⟨host, { reqId := 1, rlen := 4096, dlen := 64, payload := List.replicate 64 0 }, offered_of (settled_of (by decide +kernel) rfl) (by decide +kernel), by decide +kernel⟩,
   ⟨host, { slot := 1, reqId := 1, rlen := 1024 }, offered_of (settled_of (by decide +kernel) rfl) (by decide +kernel), by decide +kernel⟩,
   ⟨host, { slot := 1, reqId := 1, rlen := 64 }, offered_of (settled_of (by decide +kernel) rfl) (by decide +kernel), by decide +kernel⟩⟩

/-- Every case of `Obligations.RingAndEventRingCommands` is met by some state and operands. -/
theorem test_ring_and_event_ring_commands_met :
    (∃ (s : State) (h : Hcmd), Offered opRingCreate h s ∧ (s.ring (h.target.toNat + 1)).live = false ∧ (∀ e ∈ s.hif.heldCq, e.2.slot ≠ h.target.toNat + 1)) ∧
    (∃ (s : State) (h : Hcmd) (e : Bool × Cqe), Offered opRingCreate h s ∧ (s.ring (h.target.toNat + 1)).live = false ∧ e ∈ s.hif.heldCq ∧ e.2.slot = h.target.toNat + 1) ∧
    (∃ (s : State) (h : Hcmd), Offered opRingDelete h s ∧ (s.ring (h.target.toNat + 1)).live = true ∧ (s.ring (h.target.toNat + 1)).infl = none) ∧
    (∃ (s : State) (h : Hcmd) (i : Infl), Offered opRingDelete h s ∧ (s.ring (h.target.toNat + 1)).live = true ∧ (s.ring (h.target.toNat + 1)).infl = some i ∧ i.begun = true) ∧
    (∃ (s : State) (h : Hcmd) (i : Infl), Offered opRingDelete h s ∧ (s.ring (h.target.toNat + 1)).live = true ∧ (s.ring (h.target.toNat + 1)).infl = some i ∧ i.begun = false ∧ i.cmd.slot = h.target.toNat + 1 ∧ i.cmd.cqeOk = true ∧ (s.ring (h.target.toNat + 1)).cqHalt = false ∧ (s.ring (h.target.toNat + 1)).deleting = false) ∧
    (∃ (s : State) (h : Hcmd), Offered opEventCreate h s ∧ s.hif.ev.live = false) ∧
    (∃ (s : State) (h : Hcmd), Offered opEventDelete h s ∧ s.hif.ev.live = true) :=
  ⟨⟨host, { reqId := 1, target := 15, param0 := 0x0404 }, offered_of (settled_of (by decide +kernel) rfl) (by decide +kernel), by decide +kernel⟩,
   ⟨{ host with hif.heldCq := [(false, held16)] }, { reqId := 1, target := 15, param0 := 0x0404 }, (false, held16), offered_of (settled_of (by decide +kernel) rfl) (by decide +kernel), by decide +kernel⟩,
   ⟨host, { reqId := 1 }, offered_of (settled_of (by decide +kernel) rfl) (by decide +kernel), by decide +kernel⟩,
   ⟨{ host with hif.rings := [(0, offers), (1, { offers with infl := some { recorded := true } })] }, { reqId := 1 }, { recorded := true }, offered_of (settled_of (by decide +kernel) rfl) (by decide +kernel), by decide +kernel⟩,
   ⟨{ host with hif.rings := [(0, offers), (1, { offers with infl := some { cmd := { slot := 1 } } })] }, { reqId := 1 }, { cmd := { slot := 1 } }, offered_of (settled_of (by decide +kernel) rfl) (by decide +kernel), by decide +kernel⟩,
   ⟨host, { reqId := 1, param0 := 4 }, offered_of (settled_of (by decide +kernel) rfl) (by decide +kernel), by decide +kernel⟩,
   ⟨{ host with hif.ev.live := true, hif.ev.k := 4 }, { reqId := 1 }, offered_of (settled_of (by decide +kernel) rfl) (by decide +kernel), by decide +kernel⟩⟩

/-- Every case of `Obligations.JournaledCommandsTakeEffectAndComplete` is met by some state and operands. -/
theorem test_journaled_commands_take_effect_and_complete_met :
    (∃ (s : State) (h : Hcmd), Offered opVarWrite h s ∧ s.sys.primary = true ∧ s.insync = false ∧ s.writeWaits h = false ∧ s.checkVarWrite h = .go ∧ s.writePends (classOf h) = true) ∧
    (∃ (s : State) (h : Hcmd), Offered opVarWrite h s ∧ s.sys.primary = true ∧ s.insync = false ∧ s.writeWaits h = false ∧ s.checkVarWrite h = .go ∧ s.writePends (classOf h) = false) ∧
    (∃ (s : State) (h : Hcmd), s.writeWaits h = true ∧ varStatic true false { h with opcode := 0x42 } = none) ∧
    (∃ (s : State) (h : Hcmd), Offered opForceSet h s ∧ s.sys.primary = true ∧ s.insync = false ∧ s.checkForceSet h = .go) ∧
    (∃ (s : State) (h : Hcmd), Offered opForceClear h s ∧ s.sys.primary = true ∧ s.insync = false ∧ s.checkForceClear h = .go) ∧
    (∃ (s : State) (h : Hcmd), Offered opLoopWrite h s ∧ s.sys.primary = true ∧ s.insync = false ∧ s.loopWriteWaits h = false ∧ s.checkLoopWrite h = .go) ∧
    (∃ (s : State) (h : Hcmd), s.loopWriteWaits h = true ∧ loopWriteStatic { h with opcode := 0x46 } = none) ∧
    (∃ (s : State) (h : Hcmd), Offered opClear h s ∧ s.sys.primary = true ∧ s.insync = false ∧ hasToken h = false ∧ s.checkClear h = .go) ∧
    (∃ (s : State) (h : Hcmd), Offered opClear h s ∧ s.sys.primary = true ∧ s.insync = false ∧ hasToken h = true) ∧
    (∃ (s : State) (h : Hcmd), Offered opVarRead h s ∧ s.checkRead h = .go ∧ h.retOk = true ∧ s.readWaits (classOf h) = false) ∧
    (∃ (s : State) (h : Hcmd), Offered opVarRead h s ∧ s.checkRead h = .go ∧ s.readWaits (classOf h) = true) ∧
    (∃ (s : State) (h : Hcmd), Offered opLoopRead h s ∧ s.checkLoops h = .go ∧ h.retOk = true ∧ s.loopReadWaits = false) ∧
    (∃ (s : State) (h : Hcmd), Offered opLoopRead h s ∧ s.checkLoops h = .go ∧ s.loopReadWaits = true) :=
  ⟨⟨{ host with sys.mode := .test }, { slot := 1, reqId := 1, dlen := 16, payload := poke }, offered_of (settled_of (by decide +kernel) rfl) (by decide +kernel), by decide +kernel⟩,
   ⟨host, { slot := 1, reqId := 1, dlen := 16, payload := poke }, offered_of (settled_of (by decide +kernel) rfl) (by decide +kernel), by decide +kernel⟩,
   ⟨{ host with sys.mode := .takeover }, { slot := 1, reqId := 1, dlen := 16, payload := poke }, by decide +kernel⟩,
   ⟨{ host with sys.mode := .test }, { slot := 1, reqId := 1, dlen := 16, payload := poke }, offered_of (settled_of (by decide +kernel) rfl) (by decide +kernel), by decide +kernel⟩,
   ⟨{ host with sys.mode := .test }, { slot := 1, reqId := 1, dlen := 8, payload := poke.take 8 }, offered_of (settled_of (by decide +kernel) rfl) (by decide +kernel), by decide +kernel⟩,
   ⟨host, { slot := 1, reqId := 1, dlen := 8, payload := [0, 0, 2, 0, 0, 0, 0, 0] }, offered_of (settled_of (by decide +kernel) rfl) (by decide +kernel), by decide +kernel⟩,
   ⟨{ host with cle.loops := [(0, { opPress := { pend := true } })] }, { slot := 1, reqId := 1, dlen := 8, payload := [0, 0, 2, 0, 0, 0, 0, 0] }, by decide +kernel⟩,
   ⟨{ host with sys.mode := .test }, { reqId := 1, dlen := 16, payload := List.replicate 16 0 }, offered_of (settled_of (by decide +kernel) rfl) (by decide +kernel), by decide +kernel⟩,
   ⟨{ host with sys.mode := .test }, { reqId := 1, dlen := 128, payload := List.replicate 128 0 }, offered_of (settled_of (by decide +kernel) rfl) (by decide +kernel), by decide +kernel⟩,
   ⟨host, { slot := 1, reqId := 1, dlen := 8, rlen := 24, payload := poke.take 8 }, offered_of (settled_of (by decide +kernel) rfl) (by decide +kernel), by decide +kernel⟩,
   ⟨{ host with sys.mode := .run, cyc.cls := [(0, { running := true })] }, { slot := 1, reqId := 1, dlen := 8, rlen := 24, payload := poke.take 8 }, offered_of (settled_of (by decide +kernel) rfl) (by decide +kernel), by decide +kernel⟩,
   ⟨{ host with sys.primary := false }, { slot := 1, reqId := 1, dlen := 8, rlen := 80, payload := List.replicate 8 0 }, offered_of (settled_of (by decide +kernel) rfl) (by decide +kernel), by decide +kernel⟩,
   ⟨host, { slot := 1, reqId := 1, dlen := 8, rlen := 80, payload := List.replicate 8 0 }, offered_of (settled_of (by decide +kernel) rfl) (by decide +kernel), by decide +kernel⟩⟩

/-- Every case of `Obligations.MirroredCommandsWaitForTheirAcknowledgement` is met by some state and operands. -/
theorem test_mirrored_commands_wait_for_their_acknowledgement_met :
    (∃ (s : State) (h : Hcmd) (k : Nat), Offered opForceSet h s ∧ s.sys.primary = true ∧ s.insync = true ∧ s.cfg.partner = true ∧ s.backlogNow ≤ 8000000 ∧ k = max 1 ((h.payload.length + 65439) / 65440) ∧ h.payload.length ≤ 65536 ∧ s.awaiting (s.dpx2.rseqTx + BitVec.ofNat 64 k) = none ∧ s.checkForceSet h = .go) ∧
    (∃ (s : State) (h : Hcmd) (k : Nat), Offered opLoopWrite h s ∧ s.sys.primary = true ∧ s.insync = true ∧ s.cfg.partner = true ∧ s.backlogNow ≤ 8000000 ∧ k = max 1 ((h.payload.length + 65439) / 65440) ∧ h.payload.length ≤ 65536 ∧ s.loopWriteWaits h = false ∧ s.checkLoopWrite h = .go) ∧
    (∃ (s : State) (h : Hcmd) (k : Nat), Offered opExchange h s ∧ s.cfg.partner = true ∧ s.backlogNow ≤ 8000000 ∧ k = max 1 ((h.payload.length + 65439) / 65440) ∧ h.payload.length ≤ 65536 ∧ s.awaiting (s.dpx2.rseqTx + BitVec.ofNat 64 k) = none ∧ s.checkExchange = .go) :=
  ⟨⟨{ pair with sys.mode := .test }, { slot := 1, reqId := 1, dlen := 16, payload := poke }, 1, offered_of (settled_of (by decide +kernel) rfl) (by decide +kernel), by decide +kernel⟩,
   ⟨pair, { slot := 1, reqId := 1, dlen := 8, payload := [0, 0, 2, 0, 0, 0, 0, 0] }, 1, offered_of (settled_of (by decide +kernel) rfl) (by decide +kernel), by decide +kernel⟩,
   ⟨pair, { reqId := 1 }, 1, offered_of (settled_of (by decide +kernel) rfl) (by decide +kernel), by decide +kernel⟩⟩

/-- Every case of `Obligations.CommandedModeChanges` is met by some state and operands. -/
theorem test_commanded_mode_changes_met :
    (∃ (s : State) (h : Hcmd), Offered (s.modeOp .run none) h s ∧ s.sys.mode = .stop ∧ s.sys.trans = none ∧ s.sys.primary = true ∧ s.insync = false) ∧
    (∃ (s : State) (h : Hcmd), Offered (s.modeOp .stop none) h s ∧ (s.sys.mode = .run ∨ s.sys.mode = .test) ∧ s.sys.trans = none ∧ s.sys.primary = true ∧ s.insync = false ∧ s.quiet = true) ∧
    (∃ (s : State) (h : Hcmd), Offered (s.modeOp .stop none) h s ∧ (s.sys.mode = .run ∨ s.sys.mode = .test) ∧ s.sys.trans = none ∧ s.sys.primary = true ∧ s.insync = false ∧ s.quiet = false ∧ s.executes = true) ∧
    (∃ (s : State) (h : Hcmd), Offered (s.modeOp .stop none) h s ∧ s.sys.mode = .commission ∧ s.sys.trans = none ∧ s.cfg.valid = true ∧ s.prog.loaded = true ∧ s.sys.primary = true ∧ s.insync = false) ∧
    (∃ (s : State) (h : Hcmd), Offered (s.modeOp .commission none) h s ∧ s.sys.mode = .stop ∧ s.sys.trans = none ∧ ((s.sys.primary = true → s.insync = false))) ∧
    (∃ (s : State) (h : Hcmd), Offered (s.modeOp .commission none) h s ∧ s.sys.mode = .test ∧ s.sys.trans = none ∧ s.sys.primary = true ∧ s.insync = false ∧ s.quiet = true) ∧
    (∃ (s : State) (h : Hcmd), Offered (s.modeOp .commission none) h s ∧ s.sys.mode = .test ∧ s.sys.trans = none ∧ s.sys.primary = true ∧ s.insync = false ∧ s.quiet = false ∧ s.executes = true) ∧
    (∃ (s : State) (h : Hcmd), Offered (s.modeOp .test none) h s ∧ (s.sys.mode = .stop ∨ s.sys.mode = .commission) ∧ s.sys.trans = none ∧ ((s.sys.primary = true → s.insync = false))) ∧
    (∃ (s : State) (h : Hcmd), Offered (s.modeOp .hold none) h s ∧ (s.sys.mode = .commission ∨ s.sys.mode = .test ∨ (s.sys.mode = .run ∧ s.sys.primary = false)) ∧ s.sys.trans = none ∧ ((s.sys.primary = true → s.insync = false)) ∧ (holdPairs h).all (fun p => s.hosts p) = true) ∧
    (∃ (s : State) (h : Hcmd), Offered (s.modeOp s.sys.from_ none) h s ∧ s.sys.mode = .hold ∧ (s.sys.from_ = .commission ∨ s.sys.from_ = .test ∨ s.sys.from_ = .run) ∧ s.sys.trans = none ∧ ((s.sys.primary = true → s.insync = false))) ∧
    (∃ (s : State) (h : Hcmd), Offered (s.modeOp .idleLink none) h s ∧ (s.sys.mode = .stop ∨ s.sys.mode = .commission) ∧ s.sys.trans = none ∧ (s.sys.primary = false ∨ (s.sys.lone = true ∧ s.insync = false))) ∧
    (∃ (s : State) (h : Hcmd), Offered (s.modeOp .stop none) h s ∧ s.sys.mode = .recovery ∧ s.sys.trans = none ∧ s.sys.primary = false ∧ s.sys.lone = true) ∧
    (∃ (s : State) (h : Hcmd), Offered (s.modeOp .commission none) h s ∧ s.sys.mode = .recovery ∧ s.sys.trans = none ∧ s.sys.primary = false ∧ s.sys.lone = true) :=
  ⟨⟨host, { reqId := 1 }, offered_of (settled_of (by decide +kernel) rfl) (by decide +kernel), by decide +kernel⟩,
   ⟨{ host with sys.mode := .run }, { reqId := 1 }, offered_of (settled_of (by decide +kernel) rfl) (by decide +kernel), by decide +kernel⟩,
   ⟨{ host with sys.mode := .run, cyc.cls := [(0, { running := true, active := true })] }, { reqId := 1 }, offered_of (settled_of (by decide +kernel) rfl) (by decide +kernel), by decide +kernel⟩,
   ⟨{ host with sys.mode := .commission }, { reqId := 1 }, offered_of (settled_of (by decide +kernel) rfl) (by decide +kernel), by decide +kernel⟩,
   ⟨host, { reqId := 1 }, offered_of (settled_of (by decide +kernel) rfl) (by decide +kernel), by decide +kernel⟩,
   ⟨{ host with sys.mode := .test }, { reqId := 1 }, offered_of (settled_of (by decide +kernel) rfl) (by decide +kernel), by decide +kernel⟩,
   ⟨{ host with sys.mode := .test, cyc.cls := [(0, { running := true, active := true })] }, { reqId := 1 }, offered_of (settled_of (by decide +kernel) rfl) (by decide +kernel), by decide +kernel⟩,
   ⟨host, { reqId := 1 }, offered_of (settled_of (by decide +kernel) rfl) (by decide +kernel), by decide +kernel⟩,
   ⟨{ host with sys.mode := .test }, { reqId := 1, param0 := 1 }, offered_of (settled_of (by decide +kernel) rfl) (by decide +kernel), by decide +kernel⟩,
   ⟨{ host with sys.mode := .hold, sys.from_ := .test }, { reqId := 1 }, offered_of (settled_of (by decide +kernel) rfl) (by decide +kernel), by decide +kernel⟩,
   ⟨host, { reqId := 1 }, offered_of (settled_of (by decide +kernel) rfl) (by decide +kernel), by decide +kernel⟩,
   ⟨{ host with sys.mode := .recovery, sys.primary := false }, { reqId := 1 }, offered_of (settled_of (by decide +kernel) rfl) (by decide +kernel), by decide +kernel⟩,
   ⟨{ host with sys.mode := .recovery, sys.primary := false }, { reqId := 1 }, offered_of (settled_of (by decide +kernel) rfl) (by decide +kernel), by decide +kernel⟩⟩

/-- Every case of `Obligations.RestartAndTheExitFromIdleLink` is met by some state and operands. -/
theorem test_restart_and_the_exit_from_idle_link_met :
    (∃ (s : State) (h : Hcmd), Offered opRestart h s ∧ s.checkRestart = .go) ∧
    (∃ (s : State) (h : Hcmd) (obs : BootObs), Offered (s.modeOp s.sys.from_ (some obs)) h s ∧ h.p6node = none ∧ s.sys.mode = .idleLink ∧ (s.sys.from_ = .stop ∨ s.sys.from_ = .commission) ∧ s.sys.trans = none ∧ ((s.sys.primary = true → s.insync = false))) ∧
    (∃ (s : State) (f : Kcp) (h : Hcmd), Settled s ∧ s.running = true ∧ s.portUp 6 = true ∧ f.fcsOk = true ∧ s.headerOk { f.typed 9 with port := 6 } = true ∧ (p6Entry f h).payload.length = (p6Entry f h).dlen.toNat ∧ (p6Entry f h).opcode ≠ 0x01 ∧ (p6Entry f h).opcode ≠ 0x0D ∧ (p6Entry f h).opcode = 0x06 ∧ s.sys.mode ≠ .idleLink) ∧
    (∃ (s : State) (f : Kcp) (h : Hcmd), Settled s ∧ s.running = true ∧ s.portUp 6 = true ∧ f.fcsOk = true ∧ s.headerOk { f.typed 9 with port := 6 } = true ∧ (p6Entry f h).payload.length = (p6Entry f h).dlen.toNat ∧ (p6Entry f h).opcode ≠ 0x01 ∧ (p6Entry f h).opcode ≠ 0x06 ∧ (p6Entry f h).opcode ≠ 0x0D) ∧
    (∃ (s : State) (f : Kcp) (h : Hcmd), Settled s ∧ s.running = true ∧ s.portUp 6 = true ∧ f.fcsOk = true ∧ s.headerOk { f.typed 9 with port := 6 } = true ∧ (p6Entry f h).payload.length ≠ (p6Entry f h).dlen.toNat) ∧
    (∃ (s : State) (f : Kcp) (h : Hcmd), Settled s ∧ s.running = true ∧ s.portUp 6 = true ∧ f.fcsOk = true ∧ s.headerOk { f.typed 9 with port := 6 } = true ∧ (p6Entry f h).payload.length = (p6Entry f h).dlen.toNat ∧ (p6Entry f h).opcode = 0x01 ∧ opIdentify.static { p6Entry f h with slot := 0, reqId := 1, sgl := false } = none) ∧
    (∃ (s : State) (f : Kcp) (h : Hcmd), Settled s ∧ s.running = true ∧ s.portUp 6 = true ∧ f.fcsOk = true ∧ s.headerOk { f.typed 9 with port := 6 } = true ∧ (p6Entry f h).payload.length = (p6Entry f h).dlen.toNat ∧ (p6Entry f h).opcode = 0x0D ∧ opQuote.static { p6Entry f h with slot := 0, reqId := 1, sgl := false } = none) ∧
    (∃ (s : State) (f : Kcp) (h : Hcmd), Settled s ∧ s.running = true ∧ s.portUp 6 = true ∧ f.fcsOk = true ∧ s.headerOk { f.typed 9 with port := 6 } = true ∧ (p6Entry f h).payload.length = (p6Entry f h).dlen.toNat ∧ (p6Entry f h).opcode = 0x06 ∧ (p6Entry f h).dlen = 128 ∧ s.sys.mode = .idleLink ∧ s.sys.trans = none ∧ s.sys.primary = false ∧ (s.sys.from_ = .stop ∨ s.sys.from_ = .commission) ∧ targetMode (p6Entry f h) = s.sys.from_ ∧ modeFields s.sys.from_ (p6Entry f h) = true ∧ p6Reserved (p6Entry f h).payload = true) :=
  ⟨⟨host, { reqId := 1 }, offered_of (settled_of (by decide +kernel) rfl) (by decide +kernel), by decide +kernel⟩,
   ⟨{ host with sys.mode := .idleLink, sys.from_ := .stop, sys.primary := false }, { reqId := 1 }, {}, offered_of (settled_of (by decide +kernel) rfl) (by decide +kernel), by decide +kernel⟩,
   ⟨{ host with net.ports := [(6, { link := true })] }, { payload := 6 :: List.replicate 63 0 }, {}, settled_of (by decide +kernel) rfl, by decide +kernel⟩,
   ⟨{ host with net.ports := [(6, { link := true })] }, { payload := 8 :: List.replicate 63 0 }, {}, settled_of (by decide +kernel) rfl, by decide +kernel⟩,
   ⟨{ host with net.ports := [(6, { link := true })] }, { payload := 8 :: List.replicate 64 0 }, {}, settled_of (by decide +kernel) rfl, by decide +kernel⟩,
   ⟨{ host with net.ports := [(6, { link := true })] }, { payload := 1 :: List.replicate 32 0 ++ [16] ++ List.replicate 30 0 }, {}, settled_of (by decide +kernel) rfl, by decide +kernel⟩,
   ⟨{ host with net.ports := [(6, { link := true })] }, { payload := [13, 0, 0, 0, 64, 0, 0, 0] ++ List.replicate 25 0 ++ [16] ++ List.replicate 94 0 }, {}, settled_of (by decide +kernel) rfl, by decide +kernel⟩,
   ⟨{ host with sys.mode := .idleLink, sys.from_ := .stop, sys.primary := false, net.ports := [(6, { link := true })] }, { payload := [6, 0, 5, 0, 128, 0, 0, 0] ++ List.replicate 56 0 ++ [5] ++ List.replicate 127 0 }, {}, settled_of (by decide +kernel) rfl, by decide +kernel⟩⟩

/-- Every case of `Obligations.StagedImagesAndActivations` is met by some state and operands. -/
theorem test_staged_images_and_activations_met :
    (∃ (s : State) (h : Hcmd), Offered opImageWrite h s ∧ s.sys.primary = true ∧ s.insync = false ∧ s.checkWrite h = .go) ∧
    (∃ (s : State) (h : Hcmd), Offered opImageVerify h s ∧ s.sys.primary = true ∧ s.insync = false ∧ s.checkVerify h = .go ∧ h.retOk = true) ∧
    (∃ (s : State) (h : Hcmd), Offered opSwitch (actEntry h 0) s ∧ s.insync = false) ∧
    (∃ (s : State) (h : Hcmd), Offered opCfgReturn h s ∧ s.insync = false) ∧
    (∃ (s : State) (h : Hcmd), Offered opConfirm (actEntry h 1) s ∧ s.insync = false ∧ s.boot.switched = true) ∧
    (∃ (s : State) (h : Hcmd), Offered opCancel (actEntry h 2) s ∧ s.insync = false ∧ s.boot.act.busy = true ∧ s.boot.act.done = false ∧ s.boot.act.step ≤ 1) :=
  ⟨⟨host, { reqId := 1, target := 3, dlen := 1, param0 := 1, payload := [0] }, offered_of (settled_of (by decide +kernel) rfl) (by decide +kernel), by decide +kernel⟩,
   ⟨host, { reqId := 1, target := 1, rlen := 256 }, offered_of (settled_of (by decide +kernel) rfl) (by decide +kernel), by decide +kernel⟩,
   ⟨host, { reqId := 1, dlen := 64, payload := [0, 1] ++ List.replicate 62 0 }, offered_of (settled_of (by decide +kernel) rfl) (by decide +kernel), by decide +kernel⟩,
   ⟨host, { reqId := 1, param0 := 3 }, offered_of (settled_of (by decide +kernel) rfl) (by decide +kernel), by decide +kernel⟩,
   ⟨{ host with boot.switched := true }, { reqId := 1, dlen := 64, payload := [0, 1] ++ List.replicate 62 0 }, offered_of (settled_of (by decide +kernel) rfl) (by decide +kernel), by decide +kernel⟩,
   ⟨{ host with boot.act.busy := true, boot.act.step := 1 }, { reqId := 1, dlen := 64, payload := [0, 1] ++ List.replicate 62 0 }, offered_of (settled_of (by decide +kernel) rfl) (by decide +kernel), by decide +kernel⟩⟩

/-- Every case of `Obligations.ProgramLoadCommands` is met by some state and operands. -/
theorem test_program_load_commands_met :
    (∃ (s : State) (h : Hcmd), Offered opChange (loadEntry h 0) s ∧ s.insync = false) ∧
    (∃ (s : State) (h : Hcmd), Offered opReturn (loadEntry h 1) s ∧ s.insync = false) :=
  ⟨⟨host, { slot := 1, reqId := 1, dlen := 128, payload := List.replicate 128 1 }, offered_of (settled_of (by decide +kernel) rfl) (by decide +kernel), by decide +kernel⟩,
   ⟨host, { slot := 1, reqId := 1, dlen := 64, payload := List.replicate 64 0 }, offered_of (settled_of (by decide +kernel) rfl) (by decide +kernel), by decide +kernel⟩⟩

/-- Every case of `Obligations.BoundariesStartDelayOrDropCycles` is met by some state and operands. -/
theorem test_boundaries_start_delay_or_drop_cycles_met :
    (∃ (s : State) (c : Fin 8), Settled s ∧ s.running = true ∧ (s.ccfg c).en = true ∧ s.sys.mode ≠ .idleLink ∧ s.dpx2.modeDue = none ∧ ((s.cls c).running = false ∨ (s.cls c).held = true ∨ s.cycles = false)) ∧
    (∃ (s : State) (c : Fin 8), Settled s ∧ s.running = true ∧ (s.ccfg c).en = true ∧ s.sys.mode ≠ .idleLink ∧ (s.cls c).running = true ∧ (s.cls c).held = false ∧ s.cycles = true ∧ (s.cls c).active = false ∧ (s.pair (s.ccfg c).pair).idle = true ∧ (s.pair (s.ccfg c).pair).failed = false ∧ (s.pair (s.ccfg c).pair).broken = false ∧ (s.pair (s.ccfg c).pair).fence = false ∧ s.dpx2.proofWin = false ∧ ((∀ e ∈ s.cfg.cls, e.1 ≠ c.val → e.2.pair = (s.ccfg c).pair → s.wants e.1 = false))) ∧
    (∃ (s : State) (c : Fin 8), Settled s ∧ (∀ d, (s.cls d).undecided = false) ∧ s.running = true ∧ (s.ccfg c).en = true ∧ s.sys.mode ≠ .idleLink ∧ (s.cls c).running = true ∧ (s.cls c).held = false ∧ s.cycles = true ∧ (s.cls c).active = true ∧ (s.ccfg c).skippable = false) ∧
    (∃ (s : State) (c : Fin 8), Settled s ∧ (∀ d, (s.cls d).undecided = false) ∧ s.running = true ∧ (s.ccfg c).en = true ∧ s.sys.mode ≠ .idleLink ∧ (s.cls c).running = true ∧ (s.cls c).held = false ∧ s.cycles = true ∧ (s.cls c).active = true ∧ (s.ccfg c).skippable = true ∧ (s.cls c).dropped < s.skipMax c) ∧
    (∃ (s : State) (c : Fin 8), Settled s ∧ (∀ d, (s.cls d).undecided = false) ∧ s.running = true ∧ (s.ccfg c).en = true ∧ s.sys.mode ≠ .idleLink ∧ s.sys.mode ≠ .test ∧ (s.cls c).running = true ∧ (s.cls c).held = false ∧ s.cycles = true ∧ (s.cls c).active = true ∧ (s.ccfg c).skippable = true ∧ s.skipMax c ≤ (s.cls c).dropped ∧ s.boot.act.state ≠ 4 ∧ s.insync = false) :=
  ⟨⟨{ runs with cyc.cls := [] }, 0, settled_of (by decide +kernel) rfl, by decide +kernel⟩,
   ⟨{ runs with cyc.cls := [(0, { running := true })], lsp := [] }, 0, settled_of (by decide +kernel) rfl, by decide +kernel⟩,
   ⟨runs, 0, settled_of (by decide +kernel) rfl, look_all (p := fun (x : Cls) => x.undecided = false) rfl (by decide +kernel), by decide +kernel⟩,
   ⟨{ twoRun with cyc.cls := [(1, { running := true, active := true, dropped := 7 })] }, 1, settled_of (by decide +kernel) rfl, look_all (p := fun (x : Cls) => x.undecided = false) rfl (by decide +kernel), by decide +kernel⟩,
   ⟨{ twoRun with cyc.cls := [(1, { running := true, active := true, dropped := 8 })] }, 1, settled_of (by decide +kernel) rfl, look_all (p := fun (x : Cls) => x.undecided = false) rfl (by decide +kernel), by decide +kernel⟩⟩

/-- Every case of `Obligations.CommitsPublishTheWorkingBuffer` is met by some state and operands. -/
theorem test_commits_publish_the_working_buffer_met :
    (∃ (s : State) (c : Fin 8) (work : Work) (early : Bool), s.pairsUp = true ∧ (s.ccfg c).en = true ∧ (s.cls c).active = true ∧ (s.cls c).bodyDone = false ∧ (s.pair (s.ccfg c).pair).runs = true ∧ (s.pair (s.ccfg c).pair).cls = c.val ∧ (s.pair (s.ccfg c).pair).broken = false ∧ work.defs = [] ∧ (s.pair (s.ccfg c).pair).defer = [] ∧ ((s.runWork (s.ccfg c).pair c work).pair (s.ccfg c).pair).stalled = false ∧ (early = false ∨ (s.bodyEnd c work).aligned c = false)) ∧
    (∃ (s : State) (c : Fin 8) (work : Work), Settled s ∧ (∀ n, (s.ring n).infl = none) ∧ s.pairsUp = true ∧ (s.ccfg c).en = true ∧ (s.cls c).active = true ∧ (s.cls c).bodyDone = false ∧ (s.pair (s.ccfg c).pair).runs = true ∧ (s.pair (s.ccfg c).pair).cls = c.val ∧ (s.pair (s.ccfg c).pair).broken = false ∧ work.defs = [] ∧ (s.pair (s.ccfg c).pair).defer = [] ∧ ((s.runWork (s.ccfg c).pair c work).pair (s.ccfg c).pair).stalled = false ∧ s.fastest ≠ some c.val ∧ s.insync = false ∧ s.dpx.state ≠ .syncing ∧ s.stopTo = none ∧ s.chg.state = 0 ∧ s.chg.awaitCls = [] ∧ (s.cls c).latePend = none ∧ (s.cls c).undecided = false) ∧
    (∃ (s : State) (c : Fin 8) (work : Work), Settled s ∧ (∀ n, (s.ring n).infl = none) ∧ s.pairsUp = true ∧ (s.ccfg c).en = true ∧ (s.cls c).active = true ∧ (s.cls c).bodyDone = false ∧ (s.pair (s.ccfg c).pair).runs = true ∧ (s.pair (s.ccfg c).pair).cls = c.val ∧ (s.pair (s.ccfg c).pair).broken = false ∧ work.defs = [] ∧ (s.pair (s.ccfg c).pair).defer = [] ∧ ((s.runWork (s.ccfg c).pair c work).pair (s.ccfg c).pair).stalled = false ∧ s.fastest ≠ some c.val ∧ s.insync = false ∧ s.dpx.state ≠ .syncing ∧ s.stopTo = none ∧ s.chg.state = 0 ∧ s.chg.awaitCls = [] ∧ (s.cls c).latePend = none ∧ (s.cls c).undecided = true ∧ (s.cls c).running = true ∧ s.cycles = true) ∧
    (∃ (s : State) (c : Fin 8) (work : Work), Settled s ∧ s.pairsUp = true ∧ (s.ccfg c).en = true ∧ (s.cls c).active = true ∧ (s.cls c).bodyDone = false ∧ (s.pair (s.ccfg c).pair).runs = true ∧ (s.pair (s.ccfg c).pair).cls = c.val ∧ (s.pair (s.ccfg c).pair).broken = false ∧ work.defs = [] ∧ (s.pair (s.ccfg c).pair).defer = [] ∧ ((s.runWork (s.ccfg c).pair c work).pair (s.ccfg c).pair).stalled = false ∧ s.aligned c = true) ∧
    (∃ (s : State) (c : Fin 8), s.pairsUp = true ∧ (s.ccfg c).en = true ∧ (s.cls c).active = true ∧ (s.cls c).bodyDone = true ∧ (s.pair (s.ccfg c).pair).defer = [] ∧ (s.pair (s.ccfg c).pair).stalled = false) ∧
    (∃ (s : State) (c : Fin 8), Settled s ∧ s.pairsUp = true ∧ (s.ccfg c).en = true ∧ (s.cls c).active = true ∧ (s.cls c).bodyDone = false ∧ (s.pair (s.ccfg c).pair).runs = true ∧ (s.pair (s.ccfg c).pair).cls = c.val ∧ (s.pair (s.ccfg c).pair).broken = true ∧ (s.pair (s.ccfg c).pair).defer = []) :=
  ⟨⟨runs, 0, {}, true, by decide +kernel⟩,
   ⟨twoRun, 1, {}, settled_of (by decide +kernel) rfl, look_all (p := fun (x : Ring) => x.infl = none) rfl (by decide +kernel), by decide +kernel⟩,
   ⟨{ twoRun with cyc.cls := [(1, { running := true, active := true, undecided := true })] }, 1, {}, settled_of (by decide +kernel) rfl, look_all (p := fun (x : Ring) => x.infl = none) rfl (by decide +kernel), by decide +kernel⟩,
   ⟨{ runs with sys.lone := false }, 0, {}, settled_of (by decide +kernel) rfl, by decide +kernel⟩,
   ⟨{ runs with cyc.cls := [(0, { running := true, active := true, bodyDone := true })] }, 0, by decide +kernel⟩,
   ⟨{ runs with lsp := [(0, { idle := false, broken := true })] }, 0, settled_of (by decide +kernel) rfl, by decide +kernel⟩⟩

/-- Every case of `Obligations.BudgetsOfACycle` is met by some state and operands. -/
theorem test_budgets_of_a_cycle_met :
    (∃ (s : State) (c : Fin 8), Settled s ∧ s.pairsUp = true ∧ (s.ccfg c).en = true ∧ (s.cls c).active = true ∧ (s.cls c).held = false ∧ (s.cls c).cycOver = false ∧ s.dpx2.proofWin = false) ∧
    (∃ (s : State) (c : Fin 8), (s.cls c).cycOver = true) ∧
    (∃ (s : State) (c : Fin 8), Settled s ∧ s.pairsUp = true ∧ (s.ccfg c).en = true ∧ (s.cls c).active = true ∧ (s.cls c).held = false ∧ (s.ccfg c).skippable = true) ∧
    (∃ (s : State) (c : Fin 8), s.pairsUp = true ∧ (s.ccfg c).en = true ∧ (s.cls c).active = true ∧ s.sys.mode ≠ .test ∧ (s.cls c).held = false ∧ (s.ccfg c).skippable = false ∧ s.boot.act.state ≠ 4 ∧ s.insync = false) :=
  ⟨⟨runs, 0, settled_of (by decide +kernel) rfl, by decide +kernel⟩,
   ⟨{ runs with cyc.cls := [(0, { cycOver := true })] }, 0, by decide +kernel⟩,
   ⟨twoRun, 1, settled_of (by decide +kernel) rfl, by decide +kernel⟩,
   ⟨runs, 0, by decide +kernel⟩⟩

/-- Every case of `Obligations.CheckpointsBeginAndSeal` is met by some state and operands. -/
theorem test_checkpoints_begin_and_seal_met :
    (∃ (s : State) (p : Fin 4), s.lockstep p = true ∧ (s.pair p).runs = true) ∧
    (∃ (s : State) (p : Fin 4) (work : Work), s.lockstep p = true ∧ (s.pair p).runs = true ∧ (((s.pairWork p work).pair p).heldD ≠ [] ∨ 1024 ≤ ((s.pairWork p work).pair p).defer.length)) ∧
    (∃ (s : State) (p : Fin 4) (work : Work), s.lockstep p = true ∧ (s.pair p).runs = true ∧ (((s.pairWork p work).pair p).heldP ≠ [] ∨ 4096 ≤ ((s.pairWork p work).pair p).log.length)) ∧
    (∃ (s : State) (p : Fin 4), Settled s ∧ s.lockstep p = true ∧ (s.pair p).taking = true ∧ (s.pair p).fence = false ∧ (s.pair p).restoring = false ∧ (s.pair p).idle = false ∧ s.bestOn p = some (s.pair p).cls ∧ (s.pair p).defer = [] ∧ (s.pair p).heldP = [] ∧ (s.pair p).heldD = []) ∧
    (∃ (s : State) (p : Fin 4) (a : Nat) (b : List Byte), Settled s ∧ s.lockstep p = true ∧ (s.pair p).taking = true ∧ (s.pair p).fence = false ∧ (s.pair p).restoring = false ∧ (s.pair p).idle = false ∧ s.bestOn p = some (s.pair p).cls ∧ (s.pair p).defer = [.mem a b] ∧ (s.pair p).heldP = [] ∧ (s.pair p).heldD = []) ∧
    (∃ (s : State) (p : Fin 4) (x : PStore), Settled s ∧ s.lockstep p = true ∧ (s.pair p).taking = true ∧ (s.pair p).fence = false ∧ (s.pair p).restoring = false ∧ (s.pair p).idle = false ∧ s.bestOn p = some (s.pair p).cls ∧ (s.pair p).defer = [] ∧ (s.pair p).heldP = [x] ∧ (s.pair p).heldD = [] ∧ (linesOf x.addr x.bytes.length).length ≤ 4096) ∧
    (∃ (s : State) (p : Fin 4), s.knownAnswer p = true ∧ (s.pair p).defer = [] ∧ (s.pair p).heldP = [] ∧ (s.pair p).heldD = []) :=
  ⟨⟨runs, 0, by decide +kernel⟩,
   ⟨{ runs with lsp := [(0, { idle := false, defer := List.replicate 1024 (.mem 0 []) })] }, 0, {}, by decide +kernel⟩,
   ⟨{ runs with lsp := [(0, { idle := false, log := List.replicate 4096 {} })] }, 0, {}, by decide +kernel⟩,
   ⟨{ runs with lsp := [(0, { idle := false, taking := true })] }, 0, settled_of (by decide +kernel) rfl, by decide +kernel⟩,
   ⟨{ runs with lsp := [(0, { idle := false, taking := true, defer := [.mem 5 [1]] })] }, 0, 5, [1], settled_of (by decide +kernel) rfl, by decide +kernel⟩,
   ⟨{ runs with lsp := [(0, { idle := false, taking := true, heldP := [{ addr := 5, bytes := [1] }] })] }, 0, { addr := 5, bytes := [1] }, settled_of (by decide +kernel) rfl, by decide +kernel⟩,
   ⟨runs, 3, by decide +kernel⟩⟩

/-- Every case of `Obligations.DarnsRestoreAndSecondMismatchesFailThePair` is met by some state and operands. -/
theorem test_darns_restore_and_second_mismatches_fail_the_pair_met :
    (∃ (s : State) (p : Fin 4), Settled s ∧ s.lockstep p = true ∧ (s.pair p).mism = false ∧ (s.pair p).idle = false ∧ (s.pair p).starting = false ∧ s.darnLim p = 0) ∧
    (∃ (s : State) (p : Fin 4), Settled s ∧ s.lockstep p = true ∧ (s.pair p).mism = false ∧ (s.pair p).idle = true ∧ s.darnLim p = 0) ∧
    (∃ (s : State) (p : Fin 4), s.lockstep p = true ∧ (s.pair p).mism = true ∧ s.boot.act.state ≠ 4 ∧ s.insync = false ∧ s.sys.mode ≠ .faultHalt ∧ s.sys.mode ≠ .test) ∧
    (∃ (s : State) (p : Fin 4), s.lockstep p = true ∧ (s.pair p).restoring = true ∧ s.boot.act.state ≠ 4 ∧ s.insync = false ∧ s.sys.mode ≠ .faultHalt ∧ s.sys.mode ≠ .test) ∧
    (∃ (s : State) (p : Fin 4), Settled s ∧ s.lockstep p = true ∧ (s.pair p).restoring = true ∧ (s.pair p).idle = false ∧ s.bestOn p = some (s.pair p).cls) ∧
    (∃ (s : State) (p : Fin 4) (e : LogEnt), Settled s ∧ s.lockstep p = true ∧ (s.pair p).restoring = true ∧ (s.pair p).idle = false ∧ s.bestOn p = some (s.pair p).cls ∧ (s.pair p).log = [e] ∧ e.area < 3 ∧ e.old.length = 64) :=
  ⟨⟨{ runs with lsp := [(0, { idle := false })], votes := [(0x030110, { a := 0, b := 0, c := 0 })] }, 0, settled_of (by decide +kernel) rfl, by decide +kernel⟩,
   ⟨{ runs with lsp := [], votes := [(0x030110, { a := 0, b := 0, c := 0 })] }, 0, settled_of (by decide +kernel) rfl, by decide +kernel⟩,
   ⟨{ runs with lsp := [(0, { idle := false, mism := true })] }, 0, by decide +kernel⟩,
   ⟨{ runs with lsp := [(0, { idle := false, restoring := true })] }, 0, by decide +kernel⟩,
   ⟨{ runs with lsp := [(0, { idle := false, restoring := true })] }, 0, settled_of (by decide +kernel) rfl, by decide +kernel⟩,
   ⟨{ runs with lsp := [(0, { idle := false, restoring := true, log := [{ area := 2, old := List.replicate 64 7 }] })] }, 0, { area := 2, old := List.replicate 64 7 }, settled_of (by decide +kernel) rfl, by decide +kernel⟩⟩

/-- Every case of `Obligations.DebuggerOfABrokenPair` is met by some state and operands. -/
theorem test_debugger_of_a_broken_pair_met :
    (∃ (s : State) (p : Fin 4), s.reach = true ∧ s.debuggable p = true ∧ (s.pair p).halted = false) ∧
    (∃ (s : State) (p : Fin 4), s.reach = true ∧ s.debuggable p = true ∧ (s.pair p).halted = true) ∧
    (∃ (s : State) (p : Fin 4), s.reach = true ∧ s.debuggable p = true) ∧
    (∃ (s : State) (p : Fin 4) (b : Fin 4), s.debuggable p = true ∧ (s.pair p).halted = false ∧ (s.bpReg p b).getLsbD 0 = true) ∧
    (∃ (s : State) (p : Fin 4), Settled s ∧ s.reach = true ∧ s.debuggable p = false) ∧
    (∃ (s : State) (p : Fin 4), s.debuggable p = false) :=
  ⟨⟨{ runs with sys.mode := .hold, lsp := [(3, { broken := true })] }, 3, by decide +kernel⟩,
   ⟨{ runs with sys.mode := .hold, lsp := [(3, { broken := true, halted := true })] }, 3, by decide +kernel⟩,
   ⟨{ runs with sys.mode := .hold, lsp := [(3, { broken := true })] }, 3, by decide +kernel⟩,
   ⟨{ runs with sys.mode := .hold, lsp := [(3, { broken := true })], regs := [(0x0302CC, 1)] }, 3, 3, by decide +kernel⟩,
   ⟨runs, 3, settled_of (by decide +kernel) rfl, by decide +kernel⟩,
   ⟨runs, 3, by decide +kernel⟩⟩

/-- Every case of `Obligations.LoopSamplesRequestsAndPresses` is met by some state and operands. -/
theorem test_loop_samples_requests_and_presses_met :
    (∃ (s : State), s.loopsUp = true) ∧
    (∃ (s : State) (n : Nat), s.loopsUp = true ∧ s.loopSet n = true ∧ (s.loop n).opPress.pend = false ∧ (s.loop n).bkPress.pend = false) ∧
    (∃ (s : State) (n : Nat), s.loopsUp = true ∧ s.loopSet n = true ∧ (s.loop n).opPress.pend = true ∧ (s.loop n).stg.ok = true ∧ (s.loop n).bkPress.pend = false) ∧
    (∃ (s : State) (n : Nat), s.loopsUp = true ∧ s.loopSet n = true ∧ (s.loop n).opPress.pend = true ∧ (s.loop n).stg.ok = false ∧ (s.loop n).manReq = false) ∧
    (∃ (s : State) (n : Nat), s.loopsUp = true ∧ s.loopSet n = true ∧ (s.loop n).bkPress.pend = true ∧ bankOk (s.lcfg n) (bankOf (s.loop n).inactive) = true) ∧
    (∃ (s : State) (n : Nat), s.loopsUp = true ∧ s.loopSet n = true ∧ (s.loop n).bkPress.pend = true ∧ bankOk (s.lcfg n) (bankOf (s.loop n).inactive) = false) ∧
    (∃ (s : State) (w : Fin 8) (ini : Ini), Settled s ∧ s.reach = true ∧ winOwner w ini = true ∧ s.loopSet (s.winSlot w) = true ∧ ownerOk (s.lcfg (s.winSlot w)).owner ini = true) ∧
    (∃ (s : State) (w : Fin 8) (ini : Ini) (i : Instr), Settled s ∧ s.reach = true ∧ (i = .loopCmdRearm w ini ∨ i = .loopCmdManual w ini ∨ i = .loopCmdAuto w ini) ∧ winOwner w ini = false) :=
  ⟨⟨looped, by decide +kernel⟩,
   ⟨looped, 4095, by decide +kernel⟩,
   ⟨{ looped with cle.loops := [(4095, { opPress := { pend := true } })] }, 4095, by decide +kernel⟩,
   ⟨{ looped with cle.loops := [(4095, { opPress := { pend := true }, stg := { action := 3 } })] }, 4095, by decide +kernel⟩,
   ⟨{ looped with cle.loops := [(4095, { bkPress := { pend := true }, bank1 := [(1, 0x3F800000)] })] }, 4095, by decide +kernel⟩,
   ⟨{ looped with cle.loops := [(4095, { bkPress := { pend := true } })] }, 4095, by decide +kernel⟩,
   ⟨{ looped with regs := [(0x040B00, 4095)] }, 7, .host, settled_of (by decide +kernel) rfl, by decide +kernel⟩,
   ⟨looped, 7, .app 0, .loopCmdAuto 7 (.app 0), settled_of (by decide +kernel) rfl, by decide +kernel⟩⟩

/-- Every case of `Obligations.LoopStepsAndCreases` is met by some state and operands. -/
theorem test_loop_steps_and_creases_met :
    (∃ (s : State) (n : Nat) (e : Nat) (rest : List FrEnt), s.loopsUp = true ∧ s.loopSet n = true ∧ s.loopRuns n = true ∧ (s.loop n).run = true ∧ walkTo n (s.eng (n / 1024)).todo (s.eng (n / 1024)).endNs = some (e, rest)) ∧
    (∃ (u : Loop) (c : LoopCfg) (k : Nat), (u.countFreeze).cause c = some k ∧ u.fbl = false ∧ u.nowRearm = false) ∧
    (∃ (s : State) (n : Nat), walkTo n (s.eng (n / 1024)).todo (s.eng (n / 1024)).endNs = none) ∧
    (∃ (s : State) (n : Nat), Settled s ∧ s.loopsUp = true ∧ s.loopSet n = true ∧ (s.loop n).run = true ∧ s.loopRuns n = true ∧ s.tracks = false ∧ (s.loop n).fbl = false ∧ (s.loop n).newLoss = false ∧ (s.loop n).mismatch (s.lcfg n) = false) ∧
    (∃ (s : State) (n : Nat), Settled s ∧ s.loopsUp = true ∧ s.loopSet n = true ∧ (s.loop n).run = true ∧ s.loopRuns n = true ∧ s.tracks = false ∧ (s.loop n).fbl = false ∧ (s.loop n).newLoss = true ∧ (s.loop n).mismatch (s.lcfg n) = false) ∧
    (∃ (s : State) (n : Nat), Settled s ∧ s.loopsUp = true ∧ s.loopSet n = true ∧ s.loopRuns n = false ∧ s.tracks = false ∧ s.outMode = .stop) ∧
    (∃ (s : State) (n : Nat), Settled s ∧ (∀ k, (s.ring k).infl = none) ∧ s.loopsUp = true ∧ s.loopSet n = true ∧ s.tracks = true) :=
  ⟨⟨looped, 4095, 5, [], by decide +kernel⟩,
   ⟨{}, { law := 1, n := 1, ins := [{}] }, 1, by decide +kernel⟩,
   ⟨looped, 0, by decide +kernel⟩,
   ⟨looped, 4095, settled_of (by decide +kernel) rfl, by decide +kernel⟩,
   ⟨{ looped with cle.loops := [(4095, { run := true, newLoss := true })] }, 4095, settled_of (by decide +kernel) rfl, by decide +kernel⟩,
   ⟨{ looped with sys.mode := .stop }, 4095, settled_of (by decide +kernel) rfl, by decide +kernel⟩,
   ⟨{ looped with sys.primary := false }, 4095, settled_of (by decide +kernel) rfl, look_all (p := fun (x : Ring) => x.infl = none) rfl (by decide +kernel), by decide +kernel⟩⟩

/-- Every case of `Obligations.FramesPassTheirChecksInOrder` is met by some state and operands. -/
theorem test_frames_pass_their_checks_in_order_met :
    (∃ (s : State) (f : Kcp) (i : Instr), Settled s ∧ i ∈ [Instr.input f, .loopIn f, .paramAck f, .peer f, .beacon f] ∧ s.running = true ∧ s.portUp f.port = true ∧ f.fcsOk = false) ∧
    (∃ (s : State) (f : Kcp) (e : Instr × BitVec 4), Settled s ∧ e ∈ [(Instr.input f, 2), (.loopIn f, 4), (.paramAck f, 7), (.peer f, 8), (.beacon f, 5)] ∧ s.running = true ∧ s.portUp f.port = true ∧ f.fcsOk = true ∧ s.headerOk (f.typed e.2) = false) ∧
    (∃ (s : State) (f : Kcp) (i : Instr), Settled s ∧ i ∈ [Instr.input f, .loopIn f, .paramAck f, .peer f, .beacon f] ∧ (s.running = false ∨ s.portUp f.port = false)) ∧
    (∃ (s : State) (f : Kcp) (e : Instr × BitVec 4), Settled s ∧ e ∈ [(Instr.input f, 2), (.loopIn f, 4), (.paramAck f, 7)] ∧ s.running = true ∧ s.portUp f.port = true ∧ f.fcsOk = true ∧ s.headerOk (f.typed e.2) = true ∧ (s.net.strms.look (f.typed e.2).key {}).judge f.seq = .duplicate) ∧
    (∃ (s : State) (f : Kcp), Settled s ∧ s.running = true ∧ s.portUp f.port = true ∧ f.fcsOk = true ∧ s.headerOk (f.typed 8) = true ∧ (s.net.strms.look (f.typed 8).key {}).judge f.seq = .duplicate) ∧
    (∃ (s : State) (f : Kcp) (e : Instr × BitVec 4), Settled s ∧ e ∈ [(Instr.input f, 2), (.loopIn f, 4), (.paramAck f, 7), (.peer f, 8)] ∧ s.running = true ∧ s.portUp f.port = true ∧ f.fcsOk = true ∧ s.headerOk (f.typed e.2) = true ∧ (s.net.strms.look (f.typed e.2).key {}).judge f.seq = .outside) :=
  ⟨⟨ringed, { port := 2, fcsOk := false }, .input { port := 2, fcsOk := false }, settled_of (by decide +kernel) rfl, by decide +kernel⟩,
   ⟨ringed, { port := 2, version := 2 }, (.beacon { port := 2, version := 2 }, 5), settled_of (by decide +kernel) rfl, by decide +kernel⟩,
   ⟨ringed, { port := 0 }, .peer {}, settled_of (by decide +kernel) rfl, by decide +kernel⟩,
   ⟨{ ringed with net.strms := [(Kcp.key { port := 2, type := 2, src := 77, dst := 5 }, { seen := [0] })] }, { port := 2, src := 77, dst := 5 }, (.input { port := 2, src := 77, dst := 5 }, 2), settled_of (by decide +kernel) rfl, by decide +kernel⟩,
   ⟨{ ringed with net.strms := [(Kcp.key { port := 4, type := 8, src := 9, dst := 9 }, { seen := [0] })] }, { port := 4, src := 9, dst := 9 }, settled_of (by decide +kernel) rfl, by decide +kernel⟩,
   ⟨{ ringed with net.strms := [(Kcp.key { port := 2, type := 2, src := 77, dst := 5 }, { seen := [0] })] }, { port := 2, src := 77, dst := 5, seq := 0x8000 }, (.input { port := 2, src := 77, dst := 5, seq := 0x8000 }, 2), settled_of (by decide +kernel) rfl, by decide +kernel⟩⟩

/-- Every case of `Obligations.FirstCopiesReachTheirStation` is met by some state and operands. -/
theorem test_first_copies_reach_their_station_met :
    (∃ (s : State) (f : Kcp) (i : Nat), Settled s ∧ s.running = true ∧ s.portUp f.port = true ∧ f.fcsOk = true ∧ s.headerOk (f.typed 2) = true ∧ s.stnOf f.port f.src = some i ∧ (s.net.strms.look (f.typed 2).key {}).judge f.seq = .fresh ∧ f.epoch ≤ s.dpx.eSeen ∧ (s.drives = false ∨ f.epoch ≤ s.dpx.eOwn) ∧ s.boot.awaitStn = false ∧ ((f.payload.headD 0).getLsbD 1 = false ∨ (s.stn i).paramPend = true)) ∧
    (∃ (s : State) (f : Kcp) (i : Nat), Settled s ∧ s.running = true ∧ s.portUp f.port = true ∧ f.fcsOk = true ∧ s.headerOk (f.typed 4) = true ∧ s.stnOf f.port f.src = some i ∧ (s.net.strms.look (f.typed 4).key {}).judge f.seq = .fresh ∧ f.epoch ≤ s.dpx.eSeen ∧ (s.drives = false ∨ f.epoch ≤ s.dpx.eOwn) ∧ ((f.payload.headD 0).getLsbD 1 = false ∨ (s.stn i).paramPend = true)) ∧
    (∃ (s : State) (f : Kcp) (i : Nat) (e : Instr × BitVec 4), Settled s ∧ e ∈ [(Instr.input f, 2), (.loopIn f, 4)] ∧ s.running = true ∧ s.portUp f.port = true ∧ f.fcsOk = true ∧ s.headerOk (f.typed e.2) = true ∧ s.stnOf f.port f.src = some i ∧ (s.net.strms.look (f.typed e.2).key {}).judge f.seq = .fresh ∧ f.epoch ≤ s.dpx.eSeen ∧ f.epoch ≤ s.dpx.eOwn ∧ s.drives = true ∧ s.boot.awaitStn = false ∧ (f.payload.headD 0).getLsbD 1 = true ∧ (s.stn i).paramPend = false ∧ s.dupStn i = false) ∧
    (∃ (s : State) (f : Kcp) (i : Nat), Settled s ∧ s.running = true ∧ s.portUp f.port = true ∧ f.fcsOk = true ∧ s.headerOk (f.typed 7) = true ∧ s.stnOf f.port f.src = some i ∧ (s.net.strms.look (f.typed 7).key {}).judge f.seq = .fresh ∧ f.epoch ≤ s.dpx.eSeen ∧ (s.drives = false ∨ f.epoch ≤ s.dpx.eOwn)) ∧
    (∃ (s : State) (f : Kcp), Settled s ∧ s.running = true ∧ s.portUp f.port = true ∧ f.fcsOk = true ∧ s.headerOk (f.typed 8) = true ∧ (s.net.strms.look (f.typed 8).key {}).judge f.seq = .fresh ∧ (∀ i ∈ s.subsOf f.src, (s.net.subs.look i {}).epoch ≤ f.epoch)) ∧
    (∃ (s : State) (i : Nat), Settled s ∧ s.running = true ∧ (s.cfg.subs.find i).isSome = true ∧ (s.net.subs.look i {}).failed = false) ∧
    (∃ (s : State) (key : Nat), (s.net.strms.look key {}).alone = false) ∧
    (∃ (s : State) (key : Nat), (s.net.strms.look key {}).alone = true ∧ (s.strmFrom key).1 < 4) :=
  ⟨⟨ringed, { port := 2, src := 77, dst := 5 }, 3, settled_of (by decide +kernel) rfl, by decide +kernel⟩,
   ⟨ringed, { port := 2, src := 77, dst := 5 }, 3, settled_of (by decide +kernel) rfl, by decide +kernel⟩,
   ⟨ringed, { port := 2, src := 77, dst := 5, payload := [2] }, 3, (.loopIn { port := 2, src := 77, dst := 5, payload := [2] }, 4), settled_of (by decide +kernel) rfl, by decide +kernel⟩,
   ⟨ringed, { port := 2, src := 77, dst := 5 }, 3, settled_of (by decide +kernel) rfl, by decide +kernel⟩,
   ⟨ringed, { port := 4, src := 9, dst := 9 }, settled_of (by decide +kernel) rfl, by decide +kernel⟩,
   ⟨ringed, 0, settled_of (by decide +kernel) rfl, by decide +kernel⟩,
   ⟨ringed, 0, by decide +kernel⟩,
   ⟨{ ringed with net.strms := [(0x1080000, { alone := true })] }, 0x1080000, by decide +kernel⟩⟩

/-- Every case of `Obligations.LinksAndRingSupervision` is met by some state and operands. -/
theorem test_links_and_ring_supervision_met :
    (∃ (s : State) (p : Fin 7) (speed : BitVec 2) (full : Bool) (typeOk : Bool), Settled s ∧ s.running = true ∧ s.holdCause p speed full typeOk = none) ∧
    (∃ (s : State) (p : Fin 7) (speed : BitVec 2) (full : Bool) (typeOk : Bool) (k : Nat), Settled s ∧ s.running = true ∧ s.holdCause p speed full typeOk = some k) ∧
    (∃ (s : State), Settled s ∧ s.running = true) ∧
    (∃ (s : State), Settled s ∧ s.running = true ∧ s.watchesRings = true ∧ (s.drives = true ∨ s.cfg.partner = false) ∧ s.cfg.rings.keys.Nodup) ∧
    (∃ (s : State), s.running = true ∧ s.drives = false ∧ s.cfg.partner = true ∧ s.watchesRings = true ∧ s.cfg.rings.keys.Nodup ∧ s.sys.lone = false ∧ s.cfg.valid = true ∧ s.dpx.eSeen.toNat + 2 < 2 ^ 32 ∧ s.countAbsent.takeoverDue = true) ∧
    (∃ (s : State) (f : Kcp), s.running = true ∧ s.portUp f.port = true ∧ f.fcsOk = true ∧ s.headerOk (f.typed 5) = true ∧ f.src ≠ s.sys.nodeId ∧ (s.net.strms.look (f.typed 5).key {}).judge f.seq = .fresh ∧ s.sys.primary = true ∧ s.sys.mode = .run ∧ s.dpx.eOwn < f.epoch ∧ s.boot.listening = false) ∧
    (∃ (s : State) (f : Kcp), Settled s ∧ s.running = true ∧ s.portUp f.port = true ∧ f.fcsOk = true ∧ s.headerOk (f.typed 5) = true ∧ f.src ≠ s.sys.nodeId ∧ (s.net.strms.look (f.typed 5).key {}).judge f.seq = .fresh ∧ (s.drives = false ∨ f.epoch ≤ s.dpx.eOwn) ∧ s.boot.listening = false) :=
  ⟨⟨ringed, 2, 2, true, false, settled_of (by decide +kernel) rfl, by decide +kernel⟩,
   ⟨ringed, 2, 2, false, false, 2, settled_of (by decide +kernel) rfl, by decide +kernel⟩,
   ⟨ringed, settled_of (by decide +kernel) rfl, by decide +kernel⟩,
   ⟨ringed, settled_of (by decide +kernel) rfl, by decide +kernel⟩,
   ⟨{ ringed with sys.primary := false, sys.lone := false, cfg.partner := true, dpx.state := .insync, dpx2.failNote := true, dpx2.absSlots := [(2, 1)] }, by decide +kernel⟩,
   ⟨ringed, { port := 2, src := 6, epoch := 1 }, by decide +kernel⟩,
   ⟨ringed, { port := 2, src := 6 }, settled_of (by decide +kernel) rfl, by decide +kernel⟩⟩

/-- Every case of `Obligations.FramesLeaveWithTheValuesOfTheirMode` is met by some state and operands. -/
theorem test_frames_leave_with_the_values_of_their_mode_met :
    (∃ (s : State) (i : Nat) (img : Bool) (b : List Byte), s.stnSet i = true ∧ s.drives = true ∧ s.pwr.shutdown = false ∧ s.outputOf (s.scfg i) = some (img, b)) ∧
    (∃ (s : State) (i : Nat), s.stnSet i = true ∧ s.drives = false ∧ s.safeFrames = true) ∧
    (∃ (s : State) (i : Nat), s.stnSet i = true ∧ s.drives = false ∧ s.safeFrames = false) ∧
    (∃ (s : State) (i : Nat) (g : BitVec 4) (n : Nat) (ns : List Nat), s.drives = true ∧ s.pwr.shutdown = false ∧ s.loopsUp = true ∧ s.stnSet i = true ∧ s.groupLoops i g.toNat = n :: ns ∧ (s.creaseOut n).1.isSome = true) ∧
    (∃ (s : State) (p : Nat), s.drives = true ∧ s.pwr.shutdown = false ∧ (s.cfg.pubs.find p).isSome = true) ∧
    (∃ (s : State) (i : Nat), s.drives = true ∧ s.stnSet i = true ∧ (s.stn i).paramPend = true) ∧
    (∃ (s : State) (i : Nat), s.drives = true ∧ s.stnSet i = true ∧ (s.stn i).failed = true ∧ (s.stn i).acked = false ∧ s.dupStn i = false) ∧
    (∃ (s : State) (i : Nat), s.drives = true ∧ s.stnSet i = true ∧ (s.stn i).failed = true ∧ (s.stn i).acked = false ∧ s.dupStn i = true) :=
  ⟨⟨ringed, 3, true, [0, 0], by decide +kernel⟩,
   ⟨{ ringed with sys.mode := .recovery, sys.primary := false }, 3, by decide +kernel⟩,
   ⟨{ ringed with sys.primary := false }, 3, by decide +kernel⟩,
   ⟨{ ringed with cfg.loops := [(4095, { owner := 1, n := 1, out.kind := 3, out.unit := 3 })], cfg.stn := [(3, { ring := 2, param := List.replicate 18 0 ++ [1, 0, 0, 0, 0, 0, 1, 0, 4, 0, 0, 0, 0, 0] })] }, 3, 0, 4095, [], by decide +kernel⟩,
   ⟨ringed, 5, by decide +kernel⟩,
   ⟨{ ringed with net.stns := [(3, { paramPend := true })] }, 3, by decide +kernel⟩,
   ⟨{ ringed with net.stns := [(3, { failed := true })] }, 3, by decide +kernel⟩,
   ⟨{ ringed with net.stns := [(3, { failed := true })], sys.nodeId := 77 }, 3, by decide +kernel⟩⟩

/-- Every case of `Obligations.RecordsOfTheBasteLinkAreCheckedAndOrdered` is met by some state and operands. -/
theorem test_records_of_the_baste_link_are_checked_and_ordered_met :
    (∃ (s : State) (r : BRec) (i : Instr), Arrival r i ∧ s.lanesOn = false) ∧
    (∃ (s : State) (r : BRec) (i : Instr), Arrival r i ∧ Settled s ∧ s.lanesOn = true ∧ (r.crcOk = false ∨ s.fmtOk r.fmt = false ∨ 12 < r.type) ∧ (s.dpx.crcT r.lane).length < 15) ∧
    (∃ (s : State) (r : BRec) (i : Instr), Arrival r i ∧ Settled s ∧ s.lanesOn = true ∧ r.crcOk = true ∧ s.fmtOk r.fmt = true ∧ r.type ≤ 12 ∧ s.dpx2.rseqRx ≠ 0 ∧ s.dpx2.rseqRx + 1 ≠ r.rseq ∧ s.dpx2.rseqRx < r.rseq) ∧
    (∃ (s : State) (r : BRec) (i : Instr), Arrival r i ∧ Settled s ∧ s.lanesOn = true ∧ r.crcOk = true ∧ s.fmtOk r.fmt = true ∧ r.type ≤ 12 ∧ s.dpx2.rseqRx ≠ 0 ∧ s.dpx2.rseqRx + 1 ≠ r.rseq ∧ ¬ s.dpx2.rseqRx < r.rseq) ∧
    (∃ (s : State) (r : BRec), s.running = true ∧ s.dpx2.waitRec = [r] ∧ r.type = 8 ∧ s.insync = true) :=
  ⟨⟨{ standby with cfg.partner := false }, {}, .lines {}, by unfold Arrival; decide +kernel, by decide +kernel⟩,
   ⟨{ standby with dpx.crcT0 := List.replicate 14 0 }, { crcOk := false }, .lines { crcOk := false }, by unfold Arrival; decide +kernel, settled_of (by decide +kernel) rfl, by decide +kernel⟩,
   ⟨{ standby with dpx2.rseqRx := 1 }, { rseq := 3 }, .ack { rseq := 3 }, by unfold Arrival; decide +kernel, settled_of (by decide +kernel) rfl, by decide +kernel⟩,
   ⟨{ standby with dpx2.rseqRx := 1 }, { rseq := 1 }, .image { rseq := 1 }, by unfold Arrival; decide +kernel, settled_of (by decide +kernel) rfl, by decide +kernel⟩,
   ⟨{ standby with dpx2.waitRec := [{ type := 8, rseq := 3 }] }, { type := 8, rseq := 3 }, by decide +kernel⟩⟩

/-- Every case of `Obligations.CommitsReachTheStandby` is met by some state and operands. -/
theorem test_commits_reach_the_standby_met :
    (∃ (s : State) (r : BRec), InTurn r s ∧ s.receives = true ∧ s.holdsVersion r.progVer = true ∧ (s.chg.state ≠ 3 ∨ r.progVer = s.chg.actVer)) ∧
    (∃ (s : State) (r : BRec) (c : Nat), InTurn r s ∧ s.receives = true ∧ s.holdsVersion r.progVer = true ∧ s.chg.state ≠ 3 ∧ s.pairAct = false ∧ (s.mirCls c).wr = [] ∧ s.sys.mode ≠ .takeover ∧ fieldN r.payload 0 1 % 8 = c ∧ (s.mirCls c).closes r.payload = true) ∧
    (∃ (s : State) (r : BRec) (c : Nat), InTurn r s ∧ s.receives = true ∧ s.holdsVersion r.progVer = true ∧ (s.chg.state ≠ 3 ∨ r.progVer = s.chg.actVer) ∧ fieldN r.payload 0 1 % 8 = c ∧ (s.mirCls c).closes r.payload = false) ∧
    (∃ (s : State) (r : BRec) (c : Nat), InTurn r s ∧ s.receives = true ∧ s.holdsVersion r.progVer = true ∧ s.chg.state ≠ 3 ∧ s.pairAct = false ∧ s.fastest = some c ∧ s.sys.mode = .takeover ∧ s.dpx2.takeFrom = 0 ∧ s.sys.lone = false ∧ fieldN r.payload 0 1 % 8 = c ∧ (s.mirCls c).closes r.payload = true) ∧
    (∃ (s : State) (r : BRec) (n : Nat), InTurn r s ∧ s.receives = true ∧ s.holdsVersion r.progVer = true ∧ fieldN r.payload 0 2 = n ∧ s.loopSet n = true ∧ r.payload.length = 32 + 4 * fieldN r.payload 2 1) ∧
    (∃ (s : State) (r : BRec) (n : Nat), InTurn r s ∧ s.receives = true ∧ s.holdsVersion r.progVer = true ∧ fieldN r.payload 0 2 = n ∧ s.loopSet n = true) ∧
    (∃ (s : State) (r : BRec) (i : Instr), InTurn r s ∧ (i = .loopState r ∨ i = .loopGroup r) ∧ s.receives = true ∧ s.insync = true ∧ s.holdsVersion r.progVer = false ∧ s.awaitsVersion r.progVer = false) :=
  ⟨⟨standby, {}, inTurn_of (settled_of (by decide +kernel) rfl) (by decide +kernel), by decide +kernel⟩,
   ⟨standby, { payload := List.replicate 32 0 }, 0, inTurn_of (settled_of (by decide +kernel) rfl) (by decide +kernel), by decide +kernel⟩,
   ⟨standby, { payload := List.replicate 20 0 ++ [1] }, 0, inTurn_of (settled_of (by decide +kernel) rfl) (by decide +kernel), by decide +kernel⟩,
   ⟨{ standby with sys.mode := .takeover }, { payload := List.replicate 32 0 }, 0, inTurn_of (settled_of (by decide +kernel) rfl) (by decide +kernel), by decide +kernel⟩,
   ⟨standby, { payload := List.replicate 32 0 }, 0, inTurn_of (settled_of (by decide +kernel) rfl) (by decide +kernel), by decide +kernel⟩,
   ⟨standby, { payload := List.replicate 32 0 }, 0, inTurn_of (settled_of (by decide +kernel) rfl) (by decide +kernel), by decide +kernel⟩,
   ⟨standby, { progVer := 7 }, .loopGroup { progVer := 7 }, inTurn_of (settled_of (by decide +kernel) rfl) (by decide +kernel), by decide +kernel⟩⟩

/-- Every case of `Obligations.HostWorkWindowsHeadersAndVersions` is met by some state and operands. -/
theorem test_host_work_windows_headers_and_versions_met :
    (∃ (s : State) (r : BRec), InTurn r s ∧ s.receives = true ∧ r.last = true ∧ s.dpx2.hwBuf = [] ∧ BitVec.ofNat 64 (fieldN r.payload 8 8) ≠ 0 ∧ fieldN r.payload 4 1 = 2) ∧
    (∃ (s : State) (r : BRec) (h : Hcmd), InTurn r s ∧ s.receives = true ∧ r.last = true ∧ s.dpx2.hwBuf = [] ∧ BitVec.ofNat 64 (fieldN r.payload 8 8) ≠ 0 ∧ fieldN r.payload 4 1 = 0 ∧ fieldN r.payload 2 2 = 0 ∧ h = entryOf (fieldN r.payload 0 1 % 32) (slice r.payload 32 64) (r.payload.drop 96) ∧ h.opcode = 0x42 ∧ BitVec.ofNat 64 (fieldN r.payload 24 8) ≠ 0) ∧
    (∃ (s : State) (r : BRec) (h : Hcmd), InTurn r s ∧ s.receives = true ∧ r.last = true ∧ s.dpx2.hwBuf = [] ∧ BitVec.ofNat 64 (fieldN r.payload 8 8) ≠ 0 ∧ fieldN r.payload 4 1 = 0 ∧ fieldN r.payload 2 2 = 0 ∧ h = entryOf (fieldN r.payload 0 1 % 32) (slice r.payload 32 64) (r.payload.drop 96) ∧ h.opcode = 0x42 ∧ BitVec.ofNat 64 (fieldN r.payload 24 8) = 0) ∧
    (∃ (s : State) (r : BRec), InTurn r s ∧ s.receives = true ∧ s.dpx2.winOpen = false) ∧
    (∃ (s : State) (r : BRec), InTurn r s) ∧
    (∃ (s : State), s.running = true ∧ s.insync = true ∧ s.sys.primary = true ∧ s.cfg.partner = true) ∧
    (∃ (s : State) (r : BRec), InTurn r s ∧ s.dpx.state ≠ .syncing ∧ s.dpx.state ≠ .refused) ∧
    (∃ (s : State) (r : BRec), InTurn r s ∧ s.dpx.state = .syncing ∧ s.sys.primary = false ∧ s.boot.act.busy = false ∧ fieldN r.payload 0 4 = s.boot.fwVer.toNat ∧ fieldN r.payload 4 4 < s.boot.actVer.toNat) ∧
    (∃ (s : State) (r : BRec), InTurn r s ∧ s.receives = true ∧ r.last = false) ∧
    (∃ (s : State) (r : BRec) (b : List Byte), InTurn r s ∧ s.receives = true ∧ r.last = true ∧ fieldN r.payload 0 1 = 4 ∧ fieldN r.payload 8 8 = 0 ∧ b = (r.payload.drop 16).take (fieldN r.payload 4 4)) :=
  ⟨⟨standby, { payload := [1, 0, 0, 0, 2, 0, 0, 0, 1] }, inTurn_of (settled_of (by decide +kernel) rfl) (by decide +kernel), by decide +kernel⟩,
   ⟨standby, { payload := [1, 0, 0, 0, 0, 0, 0, 0, 1] ++ List.replicate 15 0 ++ [1, 0, 0, 0, 0, 0, 0, 0, 0x42] }, entryOf (fieldN [1] 0 1 % 32) (slice ([1, 0, 0, 0, 0, 0, 0, 0, 1] ++ List.replicate 15 0 ++ [1, 0, 0, 0, 0, 0, 0, 0, 0x42]) 32 64) [], inTurn_of (settled_of (by decide +kernel) rfl) (by decide +kernel), by decide +kernel⟩,
   ⟨standby, { payload := [1, 0, 0, 0, 0, 0, 0, 0, 1] ++ List.replicate 15 0 ++ [0, 0, 0, 0, 0, 0, 0, 0, 0x42] }, entryOf (fieldN [1] 0 1 % 32) (slice ([1, 0, 0, 0, 0, 0, 0, 0, 1] ++ List.replicate 15 0 ++ [0, 0, 0, 0, 0, 0, 0, 0, 0x42]) 32 64) [], inTurn_of (settled_of (by decide +kernel) rfl) (by decide +kernel), by decide +kernel⟩,
   ⟨standby, {}, inTurn_of (settled_of (by decide +kernel) rfl) (by decide +kernel), by decide +kernel⟩,
   ⟨standby, {}, inTurn_of (settled_of (by decide +kernel) rfl) (by decide +kernel)⟩,
   ⟨primary, by decide +kernel⟩,
   ⟨standby, {}, inTurn_of (settled_of (by decide +kernel) rfl) (by decide +kernel), by decide +kernel⟩,
   ⟨{ standby with dpx.state := .syncing, boot.actVer := 1 }, {}, inTurn_of (settled_of (by decide +kernel) rfl) (by decide +kernel), by decide +kernel⟩,
   ⟨standby, { last := false }, inTurn_of (settled_of (by decide +kernel) rfl) (by decide +kernel), by decide +kernel⟩,
   ⟨standby, { payload := [4] }, [], inTurn_of (settled_of (by decide +kernel) rfl) (by decide +kernel), by decide +kernel⟩⟩

/-- Every case of `Obligations.AcknowledgementsAndNotices` is met by some state and operands. -/
theorem test_acknowledgements_and_notices_met :
    (∃ (s : State) (r : BRec), InTurn r s ∧ fieldN r.payload 8 1 = 0x0B ∧ fieldN r.payload 9 1 = 0 ∧ BitVec.ofNat 64 (fieldN r.payload 0 8) = s.dpx2.cutRseq ∧ s.dpx.state = .syncing ∧ s.sys.primary = true ∧ s.boot.act.busy = false) ∧
    (∃ (s : State) (r : BRec), InTurn r s ∧ fieldN r.payload 8 1 = 5 ∧ fieldN r.payload 9 1 = 0 ∧ BitVec.ofNat 64 (fieldN r.payload 0 8) = s.dpx2.ceRseq ∧ s.dpx2.xPend = false ∧ s.dpx2.absPend = 0) ∧
    (∃ (s : State) (r : BRec), InTurn r s ∧ (s.sys.primary = true ∨ s.insync = false)) ∧
    (∃ (s : State) (r : BRec), InTurn r s ∧ s.receives = true ∧ s.sys.mode ≠ .boot ∧ s.sys.mode ≠ .faultHalt ∧ s.sys.mode ≠ .test) ∧
    (∃ (s : State) (r : BRec) (i : Instr), InTurn r s ∧ (i = .noticeHandover r ∨ i = .noticeHandback r) ∧ s.insync = true ∧ s.sys.primary = false ∧ s.sys.mode = .run ∧ s.dpx.proofFail = false ∧ s.boot.act.busy = false) ∧
    (∃ (s : State) (r : BRec) (i : Instr), InTurn r s ∧ (i = .noticeHandover r ∨ i = .noticeHandback r) ∧ s.insync = true ∧ s.sys.primary = false ∧ s.sys.mode = .run ∧ s.dpx.proofFail = true) ∧
    (∃ (s : State) (r : BRec), InTurn r s ∧ (s.sys.primary = false ∨ s.insync = false)) ∧
    (∃ (s : State) (r : BRec) (k : Nat), InTurn r s ∧ s.sys.primary = true ∧ s.checkExchange = .go ∧ s.dpx2.proofWin = false ∧ s.dpx2.ceAck = false ∧ k < 4 ∧ fieldN r.payload 1 1 / 2 ^ k % 2 = 1 ∧ s.dpx2.absentT.find k = none) ∧
    (∃ (s : State) (r : BRec), InTurn r s) ∧
    (∃ (s : State) (r : BRec), InTurn r s ∧ s.receives = true ∧ s.dpx.state = .syncing ∧ s.sys.mode = .run ∧ s.boot.act.busy = false) ∧
    (∃ (s : State) (r : BRec), InTurn r s ∧ s.sys.primary = true ∧ s.chg.state = 1 ∧ s.chg.stored = false ∧ s.chg.recorded = false ∧ BitVec.ofNat 64 (fieldN r.payload 16 8) = s.chg.pkgRseq) ∧
    (∃ (s : State) (r : BRec), InTurn r s ∧ s.sys.primary = true ∧ (s.chg.state = 1 ∨ s.chg.state = 2) ∧ s.chg.recorded = false) :=
  ⟨⟨{ primary with dpx.state := .syncing }, { payload := List.replicate 8 0 ++ [0x0B] }, inTurn_of (settled_of (by decide +kernel) rfl) (by decide +kernel), by decide +kernel⟩,
   ⟨standby, { payload := List.replicate 8 0 ++ [5] }, inTurn_of (settled_of (by decide +kernel) rfl) (by decide +kernel), by decide +kernel⟩,
   ⟨{ standby with dpx.state := .waitPeer }, {}, inTurn_of (settled_of (by decide +kernel) rfl) (by decide +kernel), by decide +kernel⟩,
   ⟨standby, {}, inTurn_of (settled_of (by decide +kernel) rfl) (by decide +kernel), by decide +kernel⟩,
   ⟨standby, {}, .noticeHandback {}, inTurn_of (settled_of (by decide +kernel) rfl) (by decide +kernel), by decide +kernel⟩,
   ⟨{ standby with dpx.proofFail := true }, {}, .noticeHandover {}, inTurn_of (settled_of (by decide +kernel) rfl) (by decide +kernel), by decide +kernel⟩,
   ⟨standby, {}, inTurn_of (settled_of (by decide +kernel) rfl) (by decide +kernel), by decide +kernel⟩,
   ⟨primary, { payload := [0, 8] }, 3, inTurn_of (settled_of (by decide +kernel) rfl) (by decide +kernel), by decide +kernel⟩,
   ⟨standby, {}, inTurn_of (settled_of (by decide +kernel) rfl) (by decide +kernel)⟩,
   ⟨{ standby with dpx.state := .syncing }, {}, inTurn_of (settled_of (by decide +kernel) rfl) (by decide +kernel), by decide +kernel⟩,
   ⟨{ primary with chg.state := 1 }, {}, inTurn_of (settled_of (by decide +kernel) rfl) (by decide +kernel), by decide +kernel⟩,
   ⟨{ primary with chg.state := 2 }, {}, inTurn_of (settled_of (by decide +kernel) rfl) (by decide +kernel), by decide +kernel⟩⟩

/-- Every case of `Obligations.HeartbeatsKeepTheLanes` is met by some state and operands. -/
theorem test_heartbeats_keep_the_lanes_met :
    (∃ (s : State), s.lanesOn = true ∧ s.dpx.heartbeats = true) ∧
    (∃ (s : State), (s.lanesOn = false ∨ s.dpx.heartbeats = false)) ∧
    (∃ (s : State) (lane : Bool), Settled s ∧ s.lanesOn = true ∧ (s.dpx.miss lane).toNat < 2) ∧
    (∃ (s : State) (lane : Bool), Settled s ∧ s.lanesOn = true ∧ s.dpx.miss lane = 2 ∧ s.dpx.up lane = true ∧ s.dpx.up (!lane) = true) ∧
    (∃ (s : State) (lane : Bool), s.lanesOn = true ∧ s.dpx.miss lane = 2 ∧ s.dpx.up (!lane) = false ∧ 3 ≤ (s.dpx.miss (!lane)).toNat ∧ s.sys.mode = .run ∧ s.sys.primary = false ∧ s.sys.lone = false ∧ s.insync = true ∧ s.liveRings ≠ [] ∧ (∀ n ∈ s.liveRings, s.beaconAbsent n = true) ∧ s.cfg.valid = true ∧ s.dpx.eSeen.toNat + 2 < 2 ^ 32) ∧
    (∃ (s : State) (lane : Bool), Settled s ∧ s.lanesOn = true ∧ s.dpx.miss lane = 2 ∧ s.dpx.up (!lane) = false ∧ 3 ≤ (s.dpx.miss (!lane)).toNat ∧ s.sys.mode = .run ∧ s.sys.primary = true ∧ s.insync = true ∧ s.dpx2.xPend = false ∧ s.dpx.handover = false) ∧
    (∃ (s : State) (lane : Bool) (hb : Hb), Settled s ∧ s.lanesOn = true ∧ hb.crcOk = true ∧ s.fmtOk hb.fmt = true ∧ s.boot.awaitPartner = false ∧ s.boot.listening = false ∧ s.sys.mode = .run ∧ s.insync = true ∧ hb.insync = true ∧ hb.side = (!s.side) ∧ s.dpx2.misnamed = false ∧ s.cfg.partnerNode ≠ s.sys.nodeId ∧ (s.sys.primary = false ∨ hb.mode ≠ .recovery) ∧ s.dpx.up lane = true) ∧
    (∃ (s : State) (hb : Hb), Settled s ∧ s.lanesOn = true ∧ hb.crcOk = true ∧ s.fmtOk hb.fmt = true ∧ s.boot.awaitPartner = false ∧ s.boot.listening = false ∧ s.sys.mode ≠ .boot ∧ s.insync = false ∧ s.boot.act.busy = false ∧ hb.side = s.side) ∧
    (∃ (s : State) (hb : Hb), Settled s ∧ s.lanesOn = true ∧ hb.crcOk = true ∧ s.fmtOk hb.fmt = true ∧ s.boot.awaitPartner = false ∧ s.boot.listening = false ∧ s.sys.mode = .run ∧ s.sys.primary = false ∧ (s.dpx.state = .waitPeer ∨ s.dpx.state = .linkLost) ∧ hb.role = true ∧ hb.mode = .run ∧ hb.side = (!s.side) ∧ s.dpx2.misnamed = false ∧ s.cfg.partnerNode ≠ s.sys.nodeId ∧ s.boot.act.busy = false) ∧
    (∃ (s : State) (hb : Hb), s.lanesOn = true ∧ hb.crcOk = true ∧ s.fmtOk hb.fmt = true ∧ s.boot.awaitPartner = false ∧ s.boot.listening = false ∧ s.sys.mode = .run ∧ s.sys.primary = false ∧ s.dpx.state = .waitPeer ∧ hb.role = false ∧ hb.mode ≠ .boot ∧ roleAllowed hb.mode .run = false ∧ hb.side = (!s.side) ∧ s.cfg.valid = true ∧ s.dpx.eSeen.toNat + 2 < 2 ^ 32 ∧ hb.eOwn ≤ s.dpx.eSeen ∧ hb.eSeen ≤ s.dpx.eSeen ∧ s.boot.act.busy = false ∧ s.dpx2.misnamed = false ∧ s.cfg.partnerNode ≠ s.sys.nodeId ∧ s.boot.replayDue = false) :=
  ⟨⟨standby, by decide +kernel⟩,
   ⟨{ standby with dpx.heartbeats := false }, by decide +kernel⟩,
   ⟨{ standby with dpx.miss0 := 1 }, false, settled_of (by decide +kernel) rfl, by decide +kernel⟩,
   ⟨{ standby with dpx.miss0 := 2 }, false, settled_of (by decide +kernel) rfl, by decide +kernel⟩,
   ⟨{ standby with dpx.miss0 := 2, dpx.miss1 := 3, dpx.up1 := false, dpx2.absSlots := [(2, 2)] }, false, by decide +kernel⟩,
   ⟨{ primary with dpx.miss0 := 2, dpx.miss1 := 3, dpx.up1 := false }, false, settled_of (by decide +kernel) rfl, by decide +kernel⟩,
   ⟨standby, false, { insync := true, side := true }, settled_of (by decide +kernel) rfl, by decide +kernel⟩,
   ⟨{ standby with dpx.state := .waitPeer }, {}, settled_of (by decide +kernel) rfl, by decide +kernel⟩,
   ⟨{ standby with dpx.state := .linkLost }, { mode := .run, role := true, side := true }, settled_of (by decide +kernel) rfl, by decide +kernel⟩,
   ⟨{ standby with dpx.state := .waitPeer }, { mode := .recovery, side := true }, by decide +kernel⟩⟩

/-- Every case of `Obligations.SynchronisationHandOverAndProofSwaps` is met by some state and operands. -/
theorem test_synchronisation_hand_over_and_proof_swaps_met :
    (∃ (s : State), Settled s ∧ s.maySync = true ∧ (s.dpx2.vers = [] ∨ s.sys.primary = false)) ∧
    (∃ (s : State), Settled s ∧ s.maySync = true ∧ s.sys.primary = true ∧ s.versOk = true) ∧
    (∃ (s : State), Settled s ∧ s.maySync = true ∧ s.dpx.state = .syncing ∧ s.sys.primary = true ∧ s.versOk = true ∧ s.dpx2.bulkSent = true) ∧
    (∃ (s : State), Settled s ∧ s.running = true ∧ s.dpx.state = .syncing) ∧
    (∃ (s : State), s.running = true ∧ s.dpx.handover = true ∧ s.insync = true ∧ s.sys.mode = .run ∧ s.sys.primary = true ∧ s.boot.act.busy = false) ∧
    (∃ (s : State), s.running = true ∧ s.dpx.handover = true ∧ s.insync = true ∧ s.sys.mode = .run ∧ s.sys.primary = false ∧ s.sys.lone = false ∧ s.cfg.valid = true ∧ s.dpx.eSeen.toNat + 2 < 2 ^ 32) ∧
    (∃ (s : State) (st : BitVec 16) (k : Word), Settled s ∧ s.running = true ∧ s.sys.primary = true ∧ s.psInterval ≠ 0 ∧ s.dpx2.psNext ≠ 0 ∧ s.checkExchange = .no st k) ∧
    (∃ (s : State), Settled s ∧ s.running = true ∧ s.sys.primary = true ∧ s.psInterval ≠ 0 ∧ s.dpx2.psNext ≠ 0 ∧ s.checkExchange = .go ∧ s.cfg.partner = true ∧ s.dpx2.ceAck = false) ∧
    (∃ (s : State), Settled s ∧ s.running = true ∧ s.dpx2.proofWin = true ∧ s.echoRings = 0 ∧ s.outputsBad = false) ∧
    (∃ (s : State), Settled s ∧ s.running = true ∧ s.dpx2.proofWin = true ∧ s.echoRings = 0 ∧ s.outputsBad = true) :=
  ⟨⟨{ standby with dpx.state := .waitPeer, dpx.partnerHb := true, dpx.partnerMode := 6, dpx.partnerRole := true }, settled_of (by decide +kernel) rfl, by decide +kernel⟩,
   ⟨{ primary with dpx.state := .noPartner, dpx.partnerHb := true, dpx.partnerMode := 6, dpx2.vers := List.replicate 16 0 }, settled_of (by decide +kernel) rfl, by decide +kernel⟩,
   ⟨{ primary with dpx.state := .syncing, dpx.partnerHb := true, dpx.partnerMode := 6, dpx2.vers := List.replicate 16 0, dpx2.bulkSent := true }, settled_of (by decide +kernel) rfl, by decide +kernel⟩,
   ⟨{ standby with dpx.state := .syncing }, settled_of (by decide +kernel) rfl, by decide +kernel⟩,
   ⟨{ primary with dpx.handover := true }, by decide +kernel⟩,
   ⟨{ standby with dpx.handover := true }, by decide +kernel⟩,
   ⟨{ primary with dpx2.psNext := 1, dpx.handover := true }, St.modeBusy, 0, settled_of (by decide +kernel) rfl, by decide +kernel⟩,
   ⟨{ primary with dpx2.psNext := 1 }, settled_of (by decide +kernel) rfl, by decide +kernel⟩,
   ⟨{ standby with dpx2.proofWin := true }, settled_of (by decide +kernel) rfl, by decide +kernel⟩,
   ⟨{ standby with dpx2.proofWin := true, fio.dio := [(0, { latched := true })], regs := [(0x090100, 0x41)] }, settled_of (by decide +kernel) rfl, by decide +kernel⟩⟩

/-- Every case of `Obligations.StartsWithoutAPartnerAndTheClaim` is met by some state and operands. -/
theorem test_starts_without_a_partner_and_the_claim_met :
    (∃ (s : State), Settled s ∧ s.running = true ∧ s.pwr.pfail = false ∧ s.boot.awaitPartner = true ∧ s.dpx.eOwn = s.dpx.eSeen) ∧
    (∃ (s : State), s.running = true ∧ s.pwr.pfail = false ∧ s.boot.awaitPartner = true ∧ s.dpx.eOwn ≠ s.dpx.eSeen ∧ s.cfg.startMode = .stop ∧ s.sys.mode = .boot) ∧
    (∃ (s : State), s.running = true ∧ s.pwr.pfail = false ∧ s.boot.listening = true ∧ s.cfg.startMode = .stop ∧ s.sys.mode = .boot ∧ s.cfg.valid = true ∧ s.boot.replayDue = false ∧ s.dpx.eSeen.toNat + 2 < 2 ^ 32) ∧
    (∃ (s : State), Settled s ∧ s.running = true ∧ s.pwr.pfail = false ∧ s.boot.listening = true ∧ s.cfg.startMode = .run ∧ s.sys.mode = .boot ∧ s.cfg.valid = true ∧ s.cfg.stn ≠ [] ∧ s.dpx.eSeen.toNat + 2 < 2 ^ 32) ∧
    (∃ (s : State), s.running = true ∧ s.pwr.pfail = false ∧ s.boot.awaitStn = true ∧ s.cfg.startMode = .run ∧ s.sys.mode = .boot ∧ s.sys.lone = false ∧ s.boot.replayDue = false) ∧
    (∃ (s : State) (v : Word), Settled s ∧ s.reach = true ∧ s.dpx.state = .waitPeer ∧ s.sys.mode ≠ .boot ∧ s.dpx2.claimKey = none ∧ v = 0x0000C1A1) ∧
    (∃ (s : State) (v : Word) (t0 : Nat), s.reach = true ∧ s.dpx.state = .waitPeer ∧ s.dpx2.claimKey = some t0 ∧ v = 0x00001A1C ∧ s.sys.opNs ≤ t0 + 1000000 ∧ s.sys.mode = .run ∧ s.sys.primary = false ∧ s.cfg.valid = true ∧ s.boot.replayDue = false ∧ s.dpx.eSeen.toNat + 2 < 2 ^ 32) ∧
    (∃ (s : State) (v : Word), Settled s ∧ s.reach = true ∧ (s.dpx.state ≠ .waitPeer ∨ s.sys.mode = .boot ∨ keyStep 0x0000C1A1 0x00001A1C v s.sys.opNs s.dpx2.claimKey = none)) :=
  ⟨⟨{ standby with boot.awaitPartner := true }, settled_of (by decide +kernel) rfl, by decide +kernel⟩,
   ⟨{ standby with boot.awaitPartner := true, dpx.eSeen := 1, sys.mode := .boot }, by decide +kernel⟩,
   ⟨{ standby with boot.listening := true, sys.mode := .boot }, by decide +kernel⟩,
   ⟨{ standby with boot.listening := true, sys.mode := .boot, cfg.startMode := .run, cfg.stn := [(3, { node := 77, ring := 2 })] }, settled_of (by decide +kernel) rfl, by decide +kernel⟩,
   ⟨{ standby with boot.awaitStn := true, sys.mode := .boot, cfg.startMode := .run }, by decide +kernel⟩,
   ⟨{ standby with dpx.state := .waitPeer }, 0x0000C1A1, settled_of (by decide +kernel) rfl, by decide +kernel⟩,
   ⟨{ standby with dpx.state := .waitPeer, dpx2.claimKey := some 0, sys.opNs := 1000000 }, 0x00001A1C, 0, by decide +kernel⟩,
   ⟨standby, 0, settled_of (by decide +kernel) rfl, by decide +kernel⟩⟩

/-- Every case of `Obligations.MeasurementsDisciplineTheirDomain` is met by some state and operands. -/
theorem test_measurements_discipline_their_domain_met :
    (∃ (s : State) (d : Fin 2) (theta : Int), Settled s ∧ s.timRuns = true ∧ s.domEn d = true ∧ bits (s.liveReg Reg.timCfg) 0 2 = 0 ∧ s.tim.pend = none ∧ s.tim.set = true ∧ s.setPermitted = false ∧ s.stepMax < theta.natAbs) ∧
    (∃ (s : State) (d : Fin 2) (theta : Int), Settled s ∧ s.timRuns = true ∧ s.domEn d = true ∧ bits (s.liveReg Reg.timCfg) 0 2 = 0 ∧ s.tim.pend = none ∧ s.tim.set = true ∧ theta.natAbs ≤ s.stepMax ∧ s.selDom = d.val ∧ s.srcEff ≠ 2 ∧ ((s.dom d).state = .acquiring ∨ (s.dom d).state = .locked)) ∧
    (∃ (s : State) (d : Fin 2), (s.domEn d = false ∨ bits (s.liveReg Reg.timCfg) 0 2 ≠ 0)) ∧
    (∃ (s : State) (d : Fin 2) (v : Word), Settled s ∧ s.reach = true ∧ s.hostMeasures d = true ∧ s.timRuns = true ∧ s.measBad d v.toInt = true) ∧
    (∃ (s : State) (d : Fin 2) (v : Word), Settled s ∧ s.reach = true ∧ s.hostMeasures d = true ∧ s.timRuns = true ∧ s.measBad d v.toInt = false ∧ s.tim.pend = none ∧ s.tim.set = true ∧ s.setPermitted = false ∧ s.stepMax < ((s.dom d).measS.toInt * 1000000000 + v.toInt).natAbs) ∧
    (∃ (s : State) (d : Fin 2) (v : Word), Settled s ∧ s.reach = true ∧ s.hostMeasures d = true ∧ s.timRuns = true ∧ s.measBad d v.toInt = false ∧ s.tim.pend = none ∧ s.tim.set = true ∧ s.selDom = d.val ∧ s.srcEff ≠ 2 ∧ ((s.dom d).measS.toInt * 1000000000 + v.toInt).natAbs ≤ s.stepMax ∧ (s.dom d).state = .locked) ∧
    (∃ (s : State) (d : Fin 2), Settled s ∧ s.reach = true ∧ s.hostMeasures d = false) :=
  ⟨⟨{ standby with regs := [(0x070140, 0x100)], tim.set := true }, 1, -1001, settled_of (by decide +kernel) rfl, by decide +kernel⟩,
   ⟨{ standby with regs := [(0x070140, 0x100)], tim.set := true, tim.sel := true, tim.doms := [(1, { state := .locked })] }, 1, -1000, settled_of (by decide +kernel) rfl, by decide +kernel⟩,
   ⟨standby, 0, by decide +kernel⟩,
   ⟨{ standby with regs := [(0x070140, 0x100)], live := [(0x070004, 1)] }, 1, 1000000000, settled_of (by decide +kernel) rfl, by decide +kernel⟩,
   ⟨{ standby with regs := [(0x070140, 0x100)], live := [(0x070004, 1)], tim.set := true }, 1, 1001, settled_of (by decide +kernel) rfl, by decide +kernel⟩,
   ⟨{ standby with regs := [(0x070140, 0x100)], live := [(0x070004, 1)], tim.set := true, tim.sel := true, tim.doms := [(1, { state := .locked })] }, 1, 1000, settled_of (by decide +kernel) rfl, by decide +kernel⟩,
   ⟨standby, 0, settled_of (by decide +kernel) rfl, by decide +kernel⟩⟩

/-- Every case of `Obligations.TheLocalClockIsSetAndItsDomainsChange` is met by some state and operands. -/
theorem test_the_local_clock_is_set_and_its_domains_change_met :
    (∃ (s : State) (p : TimSet), Settled s ∧ s.tim.pend = some p ∧ s.timRuns = true ∧ s.setPermitted = true) ∧
    (∃ (s : State) (p : TimSet), s.tim.pend = some p ∧ (s.timRuns = false ∨ s.setPermitted = false)) ∧
    (∃ (s : State), s.tim.pend = none) ∧
    (∃ (s : State) (d : Fin 2), Settled s ∧ s.timRuns = true ∧ s.domLocked d = true) ∧
    (∃ (s : State) (d : Fin 2), Settled s ∧ s.timRuns = true ∧ s.domEn d = true ∧ (s.dom d).state = .holdover) ∧
    (∃ (s : State), Settled s ∧ s.timRuns = true ∧ bits (s.liveReg Reg.timCfg) 2 1 = 1 ∧ s.prefDom ≠ s.selDom ∧ s.domGood s.prefDom = true) ∧
    (∃ (s : State) (v : Word), Settled s ∧ s.reach = true ∧ s.setPermitted = true ∧ s.tim.realignKey = none ∧ v = 0x00007E5A) ∧
    (∃ (s : State) (v : Word) (t0 : Nat), Settled s ∧ s.reach = true ∧ s.setPermitted = true ∧ s.tim.realignKey = some t0 ∧ v = 0x0000A5E7 ∧ s.sys.opNs ≤ t0 + 1000000 ∧ s.freshDom s.selDom = true) ∧
    (∃ (s : State) (v : Word), Settled s ∧ s.reach = true ∧ (s.setPermitted = false ∨ keyStep 0x00007E5A 0x0000A5E7 v s.sys.opNs s.tim.realignKey = none)) :=
  ⟨⟨{ stop with tim.pend := some {} }, {}, settled_of (by decide +kernel) rfl, by decide +kernel⟩,
   ⟨{ stop with tim.pend := some {}, sys.mode := .idleLink }, {}, by decide +kernel⟩,
   ⟨stop, by decide +kernel⟩,
   ⟨{ stop with regs := [(0x070140, 0x100)], tim.doms := [(1, { state := .locked })] }, 1, settled_of (by decide +kernel) rfl, by decide +kernel⟩,
   ⟨{ stop with regs := [(0x070140, 0x100)], tim.doms := [(1, { state := .holdover })] }, 1, settled_of (by decide +kernel) rfl, by decide +kernel⟩,
   ⟨{ stop with regs := [(0x070140, 0x100)], live := [(0x070004, 0xC)], tim.doms := [(1, { state := .locked, agree := true })] }, settled_of (by decide +kernel) rfl, by decide +kernel⟩,
   ⟨stop, 0x00007E5A, settled_of (by decide +kernel) rfl, by decide +kernel⟩,
   ⟨{ stop with tim.realignKey := some 0, sys.opNs := 1000000, regs := [(0x070100, 0x100)], tim.doms := [(0, { lastAny := some 0 })] }, 0x0000A5E7, 0, settled_of (by decide +kernel) rfl, by decide +kernel⟩,
   ⟨stop, 0, settled_of (by decide +kernel) rfl, by decide +kernel⟩⟩

/-- Every case of `Obligations.TimestampsLaunchesCapturesAndMessages` is met by some state and operands. -/
theorem test_timestamps_launches_captures_and_messages_met :
    (∃ (s : State) (p : Fin 7), s.timRuns = true ∧ (s.tport p).queue.length < 64) ∧
    (∃ (s : State) (p : Fin 7), s.timRuns = true ∧ 64 ≤ (s.tport p).queue.length) ∧
    (∃ (s : State), s.timRuns = true) ∧
    (∃ (s : State) (i : Fin 2) (rising : Bool), ((∀ l, (s.tim.caps.look i {}).last = some l → l + 1000 ≤ s.sys.opNs)) ∧ s.timRuns = true ∧ s.capSelected i rising = true) ∧
    (∃ (s : State) (i : Fin 2) (rising : Bool) (l : Nat), s.timRuns = true ∧ s.capSelected i rising = true ∧ (s.tim.caps.look i {}).last = some l ∧ s.sys.opNs < l + 1000) ∧
    (∃ (s : State) (i : Fin 2) (rising : Bool), s.capSelected i rising = false) ∧
    (∃ (s : State), s.timRuns = true ∧ (s.tim.tout = true ∨ s.liveReg Reg.timToutPeriod ≠ 0)) ∧
    (∃ (s : State), s.tim.tout = false ∧ s.liveReg Reg.timToutPeriod = 0) ∧
    (∃ (s : State) (p : Fin 7) (d : Fin 2), s.timRuns = true ∧ s.portUp p = true ∧ s.carries d p = true) ∧
    (∃ (s : State) (p : Fin 7), s.timRuns = true ∧ s.portUp p = true ∧ ((p.val < 4 ∧ s.ringSet p = true) ∨ s.delayOn false p = true)) ∧
    (∃ (s : State) (p : Fin 7) (tag : BitVec 16), s.timRuns = true ∧ s.portUp p = true ∧ ((s.tport p).queue.any fun e => e.tag == tag) = true) ∧
    (∃ (s : State) (p : Fin 7) (tag : BitVec 16), s.timRuns = true ∧ s.portUp p = true ∧ ((s.tport p).queue.any fun e => e.tag == tag) = true) ∧
    (∃ (m : PtpMsg), (m = .sync ∨ m = .followUp ∨ m = .delayReq)) ∧
    (∃ (s : State) (p : Fin 7) (m : PtpMsg), s.timRuns = true ∧ s.portUp p = true ∧ s.maySend p m = true ∧ m ≠ .followUp) ∧
    (∃ (s : State) (p : Fin 7) (tag : BitVec 16), s.timRuns = true ∧ s.portUp p = true ∧ s.maySend p .followUp = true ∧ ((s.tport p).queue.any fun e => e.tag == tag) = true) ∧
    (∃ (s : State) (p : Fin 7) (m : PtpMsg), s.maySend p m = false) :=
  ⟨⟨ringed, 0, by decide +kernel⟩,
   ⟨{ ringed with tim.ports := [(6, { queue := List.replicate 64 {} })] }, 6, by decide +kernel⟩,
   ⟨ringed, by decide +kernel⟩,
   ⟨{ ringed with regs := [(0x070300, 0xC)], tim.caps := [(1, { last := some 0 })], sys.opNs := 1000 }, 1, true, fun _ e => by cases e; decide +kernel, by decide +kernel⟩,
   ⟨{ ringed with regs := [(0x070300, 0xC)], tim.caps := [(1, { last := some 0 })], sys.opNs := 999 }, 1, true, 0, by decide +kernel⟩,
   ⟨ringed, 0, false, by decide +kernel⟩,
   ⟨ringed, by decide +kernel⟩,
   ⟨{ ringed with live := [(0x070340, 0)] }, by decide +kernel⟩,
   ⟨{ ringed with regs := [(0x070140, 0x040100)] }, 2, 1, by decide +kernel⟩,
   ⟨ringed, 2, by decide +kernel⟩,
   ⟨{ ringed with tim.ports := [(2, { queue := [{ tag := 9 }] })] }, 2, 9, by decide +kernel⟩,
   ⟨{ ringed with tim.ports := [(2, { queue := [{ tag := 9 }] })] }, 2, 9, by decide +kernel⟩,
   ⟨.sync, by decide +kernel⟩,
   ⟨ringed, 2, .announce, by decide +kernel⟩,
   ⟨{ ringed with tim.ports := [(2, { queue := [{ tag := 9 }] })] }, 2, 9, by decide +kernel⟩,
   ⟨ringed, 6, .announce, by decide +kernel⟩⟩

/-- Every case of `Obligations.CanFramesAreFilteredAndHandedOver` is met by some state and operands. -/
theorem test_can_frames_are_filtered_and_handed_over_met :
    (∃ (s : State) (ch : Fin 8) (fr : CanEnt), s.canLive ch = true ∧ s.canFmt ch fr.fmt = true ∧ ((s.chan ch).listen = true ∨ (s.filterFrame ch fr).1 = none)) ∧
    (∃ (s : State) (ch : Fin 8) (fr : CanEnt) (q : Nat), s.canLive ch = true ∧ s.canFmt ch fr.fmt = true ∧ (s.chan ch).listen = false ∧ (s.filterFrame ch fr).1 = some q ∧ s.qk ch q ≠ 0 ∧ s.rxFull ch q = true) ∧
    (∃ (s : State) (ch : Fin 8) (fr : CanEnt) (q : Nat), s.canLive ch = true ∧ s.canFmt ch fr.fmt = true ∧ (s.chan ch).listen = false ∧ (s.filterFrame ch fr).1 = some q ∧ s.qk ch q ≠ 0 ∧ s.rxFull ch q = false ∧ s.dslot ch < dlcLen fr.fmt fr.rtr fr.dlc) ∧
    (∃ (s : State) (ch : Fin 8) (fr : CanEnt) (q : Nat), s.canLive ch = true ∧ s.canFmt ch fr.fmt = true ∧ (s.chan ch).listen = false ∧ (s.filterFrame ch fr).1 = some q ∧ s.qk ch q ≠ 0 ∧ s.rxFull ch q = false ∧ dlcLen fr.fmt fr.rtr fr.dlc ≤ s.dslot ch ∧ fr.data.length ≤ s.dslot ch ∧ Memory.wf ((s.canQ ch).ent.look q []) = true ∧ Memory.wf ((s.canQ ch).ctl.look q []) = true) ∧
    (∃ (s : State) (ch : Fin 8) (fr : CanEnt), (s.canLive ch = false ∨ s.canFmt ch fr.fmt = false)) ∧
    (∃ (s : State) (ch : Fin 8) (xl : Bool), s.canLive ch = true ∧ s.canFd ch = true ∧ (xl = false ∨ s.canXl ch = false) ∧ bits (s.canCfg ch) 7 1 = 0) ∧
    (∃ (s : State) (ch : Fin 8) (xl : Bool), s.canLive ch = true ∧ s.canFd ch = true ∧ (xl = false ∨ s.canXl ch = false) ∧ bits (s.canCfg ch) 7 1 = 1) :=
  ⟨⟨{ canned with can := [(7, { off := false, listen := true })] }, 7, {}, by decide +kernel⟩,
   ⟨{ canned with canq := [(7, { w0 := 4 })] }, 7, {}, 1, by decide +kernel⟩,
   ⟨{ canned with regs := [(0x08E008, 0x12020010)] }, 7, { fmt := 1, dlc := 9 }, 1, by decide +kernel⟩,
   ⟨canned, 7, { fmt := 1, dlc := 15, data := List.replicate 64 0 }, 1, by decide +kernel⟩,
   ⟨canned, 7, { fmt := 2 }, by decide +kernel⟩,
   ⟨canned, 7, false, by decide +kernel⟩,
   ⟨{ canned with regs := [(0x08E008, 0x12021090)] }, 7, false, by decide +kernel⟩⟩

/-- Every case of `Obligations.CanErrorsConfineTheChannelUntilItRecovers` is met by some state and operands. -/
theorem test_can_errors_confine_the_channel_until_it_recovers_met :
    (∃ (s : State) (ch : Fin 8) (inc : Fin 9), s.canLive ch = true ∧ (s.chan ch).listen = false ∧ (s.chan ch).tec + inc.val ≤ 255) ∧
    (∃ (s : State) (ch : Fin 8) (inc : Fin 9), s.canLive ch = true ∧ (s.chan ch).listen = false ∧ 255 < (s.chan ch).tec + inc.val) ∧
    (∃ (s : State) (ch : Fin 8), s.canLive ch = true ∧ (s.chan ch).listen = true ∧ (s.chan ch).tec ≤ 255) ∧
    (∃ (s : State) (ch : Fin 8), s.canLive ch = true ∧ (s.chan ch).tec ≤ 255) ∧
    (∃ (s : State) (ch : Fin 8), s.canLive ch = true) ∧
    (∃ (s : State) (ch : Fin 8), s.canLive ch = false) ∧
    (∃ (s : State) (ch : Fin 8) (ini : Ini), Settled s ∧ s.regLive (canReg ch.val 0x24) = true ∧ (ini = .host ∨ ini = .hk) ∧ (s.posted.look (canReg ch.val 0) {}).busy = none ∧ s.canSet ch = true ∧ (s.chan ch).estate = 2) ∧
    (∃ (s : State) (ch : Fin 8) (ini : Ini), Settled s ∧ s.regLive (canReg ch.val 0x24) = true ∧ (ini = .host ∨ ini = .hk) ∧ (s.posted.look (canReg ch.val 0) {}).busy = none ∧ (s.canSet ch = false ∨ (s.chan ch).estate ≠ 2)) ∧
    (∃ (s : State) (ch : Fin 8) (ini : Ini), Settled s ∧ s.regLive (canReg ch.val 0x24) = true ∧ (ini = .host ∨ ini = .hk) ∧ (s.posted.look (canReg ch.val 0) {}).busy.isSome = true) ∧
    (∃ (s : State) (ch : Fin 8) (ini : Ini), Settled s ∧ s.regLive (canReg ch.val 0x24) = true ∧ ini ≠ .host ∧ ini ≠ .hk) ∧
    (∃ (s : State) (ch : Fin 8), s.running = true ∧ (s.chan ch).estate = 3) ∧
    (∃ (s : State) (ch : Fin 8), (s.running = false ∨ (s.chan ch).estate ≠ 3)) :=
  ⟨⟨{ canned with can := [(7, { off := false, tec := 247 })] }, 7, 8, by decide +kernel⟩,
   ⟨{ canned with can := [(7, { off := false, tec := 248 })] }, 7, 8, by decide +kernel⟩,
   ⟨{ canned with can := [(7, { off := false, listen := true })] }, 7, by decide +kernel⟩,
   ⟨canned, 7, by decide +kernel⟩,
   ⟨canned, 7, by decide +kernel⟩,
   ⟨canned, 0, by decide +kernel⟩,
   ⟨{ canned with can := [(7, { off := false, estate := 2 })] }, 7, .host, settled_of (by decide +kernel) rfl, by decide +kernel⟩,
   ⟨canned, 7, .host, settled_of (by decide +kernel) rfl, by decide +kernel⟩,
   ⟨{ canned with posted := [(0x08E000, { busy := some {} })] }, 7, .host, settled_of (by decide +kernel) rfl, by decide +kernel⟩,
   ⟨canned, 7, .app 3, settled_of (by decide +kernel) rfl, by decide +kernel⟩,
   ⟨{ canned with can := [(7, { off := false, estate := 3 })] }, 7, by decide +kernel⟩,
   ⟨canned, 0, by decide +kernel⟩⟩

/-- Every case of `Obligations.CanEntriesAreSentInOrderAndCompleted` is met by some state and operands. -/
theorem test_can_entries_are_sent_in_order_and_completed_met :
    (∃ (s : State) (ch : Fin 8), s.running = true ∧ s.canSet ch = true ∧ (s.chan ch).off = false ∧ (s.chan ch).listen = false ∧ (s.canQ ch).cur = none ∧ s.qk ch 0 ≠ 0 ∧ BitVec.ofNat 16 ((s.canQ ch).ctl16 0 0) ≠ (s.canQ ch).cidx ∧ (BitVec.ofNat 16 ((s.canQ ch).ctl16 0 0) - (s.canQ ch).cidx).toNat ≤ 2 ^ s.qk ch 0) ∧
    (∃ (s : State) (ch : Fin 8), s.running = true ∧ s.canSet ch = true ∧ (s.chan ch).off = false ∧ (s.chan ch).listen = false ∧ 2 ^ s.qk ch 0 < (BitVec.ofNat 16 ((s.canQ ch).ctl16 0 0) - (s.canQ ch).cidx).toNat) ∧
    (∃ (s : State) (ch : Fin 8), s.running = true ∧ s.canSet ch = true ∧ (s.chan ch).off = false ∧ (s.chan ch).listen = false ∧ (s.chan ch).estate = 2 ∧ ((s.canQ ch).ctl.look 0 []).rd 2 ≠ (s.canQ ch).recoverRd) ∧
    (∃ (s : State) (ch : Fin 8), (s.running = false ∨ s.canSet ch = false ∨ (s.chan ch).off = true ∨ (s.chan ch).listen = true)) ∧
    (∃ (s : State) (ch : Fin 8) (e : CanCur), (s.canQ ch).cur = some e ∧ s.canSends ch = true ∧ (s.chan ch).txActive = false ∧ s.cancelled ch = false) ∧
    (∃ (s : State) (ch : Fin 8) (e : CanCur), (s.canQ ch).cur = some e ∧ s.canSends ch = true ∧ (s.chan ch).txActive = false ∧ s.cancelled ch = true) ∧
    (∃ (s : State) (ch : Fin 8), ((s.canQ ch).cur = none ∨ s.canSends ch = false ∨ (s.chan ch).txActive = true)) ∧
    (∃ (s : State) (ch : Fin 8) (e : CanCur), (s.canQ ch).cur = some e ∧ s.canSends ch = true ∧ (s.chan ch).txActive = true ∧ (s.chan ch).tec ≤ 256 ∧ BitVec.ofNat 16 ((s.canQ ch).ctl16 0 0) = (s.canQ ch).cidx + 1) ∧
    (∃ (s : State) (ch : Fin 8) (e : CanCur), (s.canQ ch).cur = some e ∧ s.canSends ch = true ∧ (s.chan ch).txActive = true ∧ s.cancelled ch = false ∧ (e.ent.retry = 15 ∨ e.tries < e.ent.retry.toNat + 1)) ∧
    (∃ (s : State) (ch : Fin 8) (e : CanCur), (s.canQ ch).cur = some e ∧ s.canSends ch = true ∧ (s.chan ch).txActive = true ∧ s.cancelled ch = false ∧ e.ent.retry ≠ 15 ∧ e.ent.retry.toNat + 1 ≤ e.tries ∧ BitVec.ofNat 16 ((s.canQ ch).ctl16 0 0) = (s.canQ ch).cidx + 1) ∧
    (∃ (s : State) (ch : Fin 8) (e : CanCur), (s.canQ ch).cur = some e ∧ s.canSends ch = true ∧ (s.chan ch).txActive = true ∧ s.cancelled ch = true ∧ BitVec.ofNat 16 ((s.canQ ch).ctl16 0 0) = (s.canQ ch).cidx + 1) ∧
    (∃ (s : State) (ch : Fin 8), ((s.canQ ch).cur = none ∨ s.canSends ch = false ∨ (s.chan ch).txActive = false)) :=
  ⟨⟨{ canned with canq := [(7, { ctl := [(0, [(0, 4)])] })] }, 7, by decide +kernel⟩,
   ⟨{ canned with canq := [(7, { ctl := [(0, [(0, 5)])] })] }, 7, by decide +kernel⟩,
   ⟨{ canned with can := [(7, { off := false, estate := 2 })], canq := [(7, { ctl := [(0, [(2, 1)])] })] }, 7, by decide +kernel⟩,
   ⟨canned, 0, by decide +kernel⟩,
   ⟨{ canned with canq := [(7, { cur := some {} })] }, 7, {}, by decide +kernel⟩,
   ⟨{ canned with canq := [(7, { cur := some {}, ent := [(0, [(16, 1)])] })] }, 7, {}, by decide +kernel⟩,
   ⟨canned, 0, by decide +kernel⟩,
   ⟨{ canned with canq := [(7, { cur := some {}, ctl := [(0, [(0, 1)])] })], can := [(7, { off := false, txActive := true })] }, 7, {}, by decide +kernel⟩,
   ⟨{ canned with canq := [(7, { cur := some { ent.retry := 1, tries := 1 } })], can := [(7, { off := false, txActive := true })] }, 7, { ent.retry := 1, tries := 1 }, by decide +kernel⟩,
   ⟨{ canned with canq := [(7, { cur := some { ent.retry := 1, tries := 2 }, ctl := [(0, [(0, 1)])] })], can := [(7, { off := false, txActive := true })] }, 7, { ent.retry := 1, tries := 2 }, by decide +kernel⟩,
   ⟨{ canned with canq := [(7, { cur := some {}, ctl := [(0, [(0, 1)])], ent := [(0, [(16, 1)])] })], can := [(7, { off := false, txActive := true })] }, 7, {}, by decide +kernel⟩,
   ⟨canned, 0, by decide +kernel⟩⟩

/-- Every case of `Obligations.LocalDigitalChannelsFilterTripAndRetry` is met by some state and operands. -/
theorem test_local_digital_channels_filter_trip_and_retry_met :
    (∃ (s : State) (n : Fin 32) (b : Bool), s.fioRuns = true ∧ s.dioSet n = true ∧ s.dioOut n = false ∧ (s.dio n).state ≠ b) ∧
    (∃ (s : State) (n : Fin 32) (b : Bool), (s.fioRuns = false ∨ s.dioSet n = false ∨ s.dioOut n = true ∨ (s.dio n).state = b)) ∧
    (∃ (s : State) (n : Fin 32), s.fioRuns = true ∧ s.dioOut n = true ∧ (s.dio n).rberr = false ∧ (s.dio n).tripped = false ∧ (s.dio n).latched = false ∧ (s.dio n).feedLost = false) ∧
    (∃ (s : State) (n : Fin 32), ((s.dio n).rberr = true ∨ (s.dio n).tripped = true ∨ (s.dio n).latched = true ∨ (s.dio n).feedLost = true)) ∧
    (∃ (s : State) (n : Fin 32) (h : Trip), s.fioRuns = true ∧ s.dioOut n = true ∧ (s.dio n).canTrip h = true ∧ (s.dio n).runOn = false ∧ s.retryMax n ≠ 0) ∧
    (∃ (s : State) (n : Fin 32) (h : Trip) (t0 : Nat), s.fioRuns = true ∧ s.dioOut n = true ∧ (s.dio n).canTrip h = true ∧ (s.dio n).runOn = true ∧ (s.dio n).retryAt = some t0 ∧ s.sys.opNs ≤ t0 + 2000000) ∧
    (∃ (s : State) (n : Fin 32) (h : Trip), s.fioRuns = true ∧ s.dioOut n = true ∧ (s.dio n).canTrip h = true ∧ (s.dio n).runOn = false ∧ s.retryMax n = 0) ∧
    (∃ (s : State) (n : Fin 32) (h : Trip), (s.dioOut n = false ∨ (s.dio n).canTrip h = false)) ∧
    (∃ (s : State) (n : Fin 32), s.fioRuns = true ∧ s.dioOut n = true ∧ (s.dio n).tripped = true ∧ (s.dio n).latched = false) ∧
    (∃ (s : State) (n : Fin 32), ((s.dio n).tripped = false ∨ (s.dio n).latched = true)) ∧
    (∃ (s : State) (n : Fin 32), s.fioRuns = true ∧ s.dioOut n = true) ∧
    (∃ (s : State), Settled s ∧ s.regLive Reg.fioDioRearm = true ∧ (s.posted.look 0x090000 {}).busy = none) ∧
    (∃ (s : State), Settled s ∧ s.regLive Reg.fioDioRearm = true ∧ (s.posted.look 0x090000 {}).busy.isSome = true) ∧
    (∃ (s : State) (g : Fin 2), s.fioRuns = true ∧ s.feedOn g = true) ∧
    (∃ (s : State) (g : Fin 2), s.fioRuns = true ∧ s.feedOn g = false) ∧
    (∃ (s : State) (g : Fin 2), s.feedOn g = false) ∧
    (∃ (s : State) (g : Fin 2), s.feedOn g = true) :=
  ⟨⟨local_, 30, true, by decide +kernel⟩,
   ⟨local_, 0, false, by decide +kernel⟩,
   ⟨local_, 31, by decide +kernel⟩,
   ⟨{ local_ with fio.dio := [(0, { latched := true })] }, 0, by decide +kernel⟩,
   ⟨local_, 31, .therm, by decide +kernel⟩,
   ⟨{ local_ with fio.dio := [(31, { runOn := true, retryAt := some 0 })], sys.opNs := 2000000 }, 31, .shortSup, 0, by decide +kernel⟩,
   ⟨{ local_ with live := [(0x0904E8, 0)] }, 31, .shortSup, by decide +kernel⟩,
   ⟨local_, 0, .therm, by decide +kernel⟩,
   ⟨{ local_ with fio.dio := [(31, { tripped := true })] }, 31, by decide +kernel⟩,
   ⟨local_, 0, by decide +kernel⟩,
   ⟨local_, 31, by decide +kernel⟩,
   ⟨local_, settled_of (by decide +kernel) rfl, by decide +kernel⟩,
   ⟨{ local_ with posted := [(0x090000, { busy := some {} })] }, settled_of (by decide +kernel) rfl, by decide +kernel⟩,
   ⟨local_, 1, by decide +kernel⟩,
   ⟨{ local_ with fio.feed1 := false }, 1, by decide +kernel⟩,
   ⟨{ local_ with fio.feed1 := false }, 1, by decide +kernel⟩,
   ⟨local_, 1, by decide +kernel⟩⟩

/-- Every case of `Obligations.LocalOutputsApplyTheCommittedImage` is met by some state and operands. -/
theorem test_local_outputs_apply_the_committed_image_met :
    (∃ (s : State), s.fioRuns = true) ∧
    (∃ (s : State), s.fioRuns = false) ∧
    (∃ (s : State) (g : Fin 2) (b : Bool), s.fioRuns = true ∧ (if g.val = 0 then s.fio.strap0 else s.fio.strap1) ≠ b) ∧
    (∃ (s : State) (g : Fin 2) (b : Bool), (if g.val = 0 then s.fio.strap0 else s.fio.strap1) = b) ∧
    (∃ (s : State) (n : Fin 16) (m : Nat), s.fioRuns = true ∧ s.aioOut n = true ∧ (s.aio n).openW = false ∧ m < 5000 ∧ 35000 ≤ (s.aio n).cmd) ∧
    (∃ (s : State) (n : Fin 16) (m : Nat), ((s.aio n).openW = true ∨ 5000 ≤ m ∨ (s.aio n).cmd < 35000)) ∧
    (∃ (s : State) (n : Fin 16) (m : Nat), s.fioRuns = true ∧ s.aioOut n = true ∧ (s.aio n).comply = false ∧ 5000 ≤ m ∧ 2000 < ((m : Int) - (s.aio n).cmd).natAbs) ∧
    (∃ (s : State) (n : Fin 16) (m : Nat), ((s.aio n).comply = true ∨ m < 5000 ∨ ((m : Int) - (s.aio n).cmd).natAbs ≤ 2000)) ∧
    (∃ (s : State) (n : Fin 16) (m : Nat), s.fioRuns = true ∧ s.aioOut n = true ∧ ((m : Int) - (s.aio n).cmd).natAbs ≤ 1000) ∧
    (∃ (s : State) (n : Fin 16) (m : Nat), 1000 < ((m : Int) - (s.aio n).cmd).natAbs) :=
  ⟨⟨local_, by decide +kernel⟩,
   ⟨{ local_ with fio.run := false }, by decide +kernel⟩,
   ⟨local_, 1, true, by decide +kernel⟩,
   ⟨local_, 0, false, by decide +kernel⟩,
   ⟨{ local_ with fio.aio := [(15, { cmd := 35000 })] }, 15, 4999, by decide +kernel⟩,
   ⟨local_, 0, 0, by decide +kernel⟩,
   ⟨{ local_ with fio.aio := [(15, { cmd := 7001 })] }, 15, 5000, by decide +kernel⟩,
   ⟨local_, 0, 0, by decide +kernel⟩,
   ⟨local_, 15, 1000, by decide +kernel⟩,
   ⟨local_, 15, 1001, by decide +kernel⟩⟩

/-- Every case of `Obligations.AnalogueInputsTrimAndHart` is met by some state and operands. -/
theorem test_analogue_inputs_trim_and_hart_met :
    (∃ (s : State) (n : Fin 16), s.fioRuns = true ∧ s.aioSet n = true ∧ (s.aioRange n = 1 ∨ s.aioRange n = 2) ∧ bits (s.aioCfg n) 3 1 = 0 ∧ (s.aio n).chanFault = false) ∧
    (∃ (s : State) (n : Fin 16) (fault : Bool), s.fioRuns = true ∧ s.aioSet n = true ∧ 1 ≤ s.aioRange n ∧ s.aioRange n ≤ 4 ∧ (fault = true ∨ (s.aio n).chanFault = true ∨ bits (s.aioCfg n) 3 1 = 1)) ∧
    (∃ (s : State) (n : Fin 16), s.aioSet n = false) ∧
    (∃ (s : State) (n : Fin 16), s.fioRuns = true ∧ s.aioSet n = true) ∧
    (∃ (s : State) (n : Fin 16) (m : Int) (i : Instr), Settled s ∧ i ∈ [.captLo n m, .captHi n m, .store n, .discard n, .factory n, .driveLo n, .driveHi n] ∧ s.regLive (Reg.fioAioTrimcmd + 0x40 * n.val) = true ∧ (s.posted.look 0x090000 {}).busy = none ∧ s.aioSet n = true ∧ s.trimBarred n = true) ∧
    (∃ (s : State) (n : Fin 16) (m : Int) (i : Instr), Settled s ∧ i ∈ [.captLo n m, .captHi n m, .store n, .discard n, .factory n, .driveLo n, .driveHi n] ∧ s.regLive (Reg.fioAioTrimcmd + 0x40 * n.val) = true ∧ (s.posted.look 0x090000 {}).busy.isSome = true) ∧
    (∃ (s : State) (n : Fin 16) (m : Int) (i : Instr), Settled s ∧ i ∈ [.captLo n m, .captHi n m, .store n, .discard n, .factory n, .driveLo n, .driveHi n] ∧ s.regLive (Reg.fioAioTrimcmd + 0x40 * n.val) = true ∧ (s.posted.look 0x090000 {}).busy = none ∧ s.aioSet n = false) ∧
    (∃ (s : State) (n : Fin 16) (m : Int) (i : Instr) (hi : Bool), Settled s ∧ i = (if hi then .captHi n m else .captLo n m) ∧ s.regLive (Reg.fioAioTrimcmd + 0x40 * n.val) = true ∧ (s.posted.look 0x090000 {}).busy = none ∧ s.aioSet n = true ∧ s.trimBarred n = false ∧ s.aioOut n = false) ∧
    (∃ (s : State) (n : Fin 16), Settled s ∧ s.regLive (Reg.fioAioTrimcmd + 0x40 * n.val) = true ∧ (s.posted.look 0x090000 {}).busy = none ∧ s.aioSet n = true ∧ s.trimBarred n = false) ∧
    (∃ (s : State) (n : Fin 16), Settled s ∧ s.regLive (Reg.fioAioTrimcmd + 0x40 * n.val) = true ∧ (s.posted.look 0x090000 {}).busy = none ∧ s.aioSet n = true ∧ s.trimBarred n = false) ∧
    (∃ (s : State) (n : Fin 16), Settled s ∧ s.regLive (Reg.fioAioTrimcmd + 0x40 * n.val) = true ∧ (s.posted.look 0x090000 {}).busy = none ∧ s.aioSet n = true ∧ s.trimBarred n = false ∧ s.pwr.pfail = false) ∧
    (∃ (s : State) (n : Fin 16) (i : Instr) (hi : Bool), Settled s ∧ i = (if hi then .driveHi n else .driveLo n) ∧ s.regLive (Reg.fioAioTrimcmd + 0x40 * n.val) = true ∧ (s.posted.look 0x090000 {}).busy = none ∧ s.aioSet n = true ∧ s.trimBarred n = false) ∧
    (∃ (s : State) (n : Fin 16), s.hartRuns n = true ∧ s.hartDevs n ≠ 0) ∧
    (∃ (s : State), Settled s ∧ s.regLive Reg.fioHartHctl = true ∧ (s.posted.look 0x090000 {}).busy = none) ∧
    (∃ (s : State) (n : Fin 16) (d : Nat), s.hartRuns n = true ∧ s.fio.hart.run.find n = some (2, d)) ∧
    (∃ (s : State) (n : Fin 16) (d : Nat), s.hartRuns n = true ∧ s.fio.hart.run.find n = some (0, d)) ∧
    (∃ (s : State) (n : Fin 16) (d : Nat), s.hartRuns n = true ∧ s.fio.hart.run.find n = some (0, d) ∧ 2 ≤ (s.aio n).absent.look d 0) ∧
    (∃ (s : State) (n : Fin 16), s.hartRuns n = true) ∧
    (∃ (s : State) (n : Fin 16), s.hartRuns n = false) :=
  ⟨⟨{ local_ with regs := [(0x090980, 0x102)] }, 14, by decide +kernel⟩,
   ⟨local_, 14, true, by decide +kernel⟩,
   ⟨local_, 0, by decide +kernel⟩,
   ⟨local_, 15, by decide +kernel⟩,
   ⟨local_, 15, 0, .store 15, settled_of (by decide +kernel) rfl, by decide +kernel⟩,
   ⟨{ local_ with posted := [(0x090000, { busy := some {} })] }, 15, 0, .store 15, settled_of (by decide +kernel) rfl, by decide +kernel⟩,
   ⟨local_, 0, 0, .captHi 0 0, settled_of (by decide +kernel) rfl, by decide +kernel⟩,
   ⟨{ local_ with sys.mode := .test }, 14, 0, .captHi 14 0, true, settled_of (by decide +kernel) rfl, by decide +kernel⟩,
   ⟨{ local_ with sys.mode := .commission }, 14, settled_of (by decide +kernel) rfl, by decide +kernel⟩,
   ⟨{ local_ with sys.mode := .commission }, 14, settled_of (by decide +kernel) rfl, by decide +kernel⟩,
   ⟨{ local_ with sys.mode := .commission }, 14, settled_of (by decide +kernel) rfl, by decide +kernel⟩,
   ⟨{ local_ with sys.mode := .commission }, 15, .driveHi 15, true, settled_of (by decide +kernel) rfl, by decide +kernel⟩,
   ⟨local_, 14, by decide +kernel⟩,
   ⟨local_, settled_of (by decide +kernel) rfl, by decide +kernel⟩,
   ⟨{ local_ with fio.hart.run := [(14, 2, 1)] }, 14, 1, by decide +kernel⟩,
   ⟨{ local_ with fio.hart.run := [(14, 0, 1)] }, 14, 1, by decide +kernel⟩,
   ⟨{ local_ with fio.hart.run := [(14, 0, 1)], fio.aio := [(14, { absent := [(1, 2)] })] }, 14, 1, by decide +kernel⟩,
   ⟨local_, 14, by decide +kernel⟩,
   ⟨local_, 0, by decide +kernel⟩⟩

/-- Every case of `Obligations.SafetyFaultsLatchTheLockOut` is met by some state and operands. -/
theorem test_safety_faults_latch_the_lock_out_met :
    (∃ (s : State) (k : Fin 4), Settled s ∧ s.safRuns = true ∧ s.soSet k = true ∧ (s.so k).outFault = false) ∧
    (∃ (s : State) (k : Fin 4), Settled s ∧ s.safRuns = true ∧ s.soSet k = true ∧ (s.so k).overcur = false) ∧
    (∃ (s : State) (k : Fin 4), (s.so k).outFault = true) ∧
    (∃ (s : State) (k : Fin 4), (s.so k).overcur = true) ∧
    (∃ (s : State) (k : Fin 4), Settled s ∧ s.safRuns = true ∧ (s.so k).hs = true ∧ (s.so k).ls = true ∧ bits (s.soCfg k) 16 12 ≠ 0) ∧
    (∃ (s : State) (k : Fin 4), Settled s ∧ s.safRuns = true ∧ (s.so k).hs = true ∧ (s.so k).ls = true ∧ bits (s.soCfg k) 16 12 ≠ 0) ∧
    (∃ (s : State) (k : Fin 4), ((s.so k).hs = false ∨ (s.so k).ls = false ∨ bits (s.soCfg k) 16 12 = 0)) ∧
    (∃ (s : State) (i : Fin 8), Settled s ∧ s.safRuns = true ∧ s.saf.selRun = true ∧ siType (s.siCfg i) ≠ 0 ∧ (s.saf.si.look i {}).disagree (s.siCfg i) = true ∧ (s.saf.si.look i {}).tripped = false) ∧
    (∃ (s : State) (i : Fin 8), ((s.saf.si.look i {}).disagree (s.siCfg i) = false ∨ (s.saf.si.look i {}).tripped = true)) ∧
    (∃ (s : State), Settled s ∧ s.safRuns = true) ∧
    (∃ (s : State), s.running = true ∧ s.saf.started = true ∧ s.saf.selRun = true ∧ s.settling = false ∧ s.sys.mode ≠ .faultHalt) ∧
    (∃ (s : State), Settled s ∧ s.safRuns = true ∧ s.saf.rst = true ∧ s.saf.sel.stuck = false) ∧
    (∃ (s : State), (s.saf.rst = false ∨ s.saf.sel.stuck = true)) ∧
    (∃ (s : State), s.safRuns = true ∧ s.saf.selRun = true) ∧
    (∃ (s : State) (mv : BitVec 16), Settled s ∧ s.safRuns = true ∧ s.saf.supplyBad = false ∧ mv.toNat < 18000) ∧
    (∃ (s : State) (mv : BitVec 16), Settled s ∧ s.powered = true ∧ 19000 ≤ mv.toNat) ∧
    (∃ (s : State) (mv : BitVec 16), s.powered = true ∧ 18000 ≤ mv.toNat ∧ mv.toNat < 19000) :=
  ⟨⟨safe, 3, settled_of (by decide +kernel) rfl, by decide +kernel⟩,
   ⟨safe, 3, settled_of (by decide +kernel) rfl, by decide +kernel⟩,
   ⟨{ safe with saf.so := [(0, { outFault := true })] }, 0, by decide +kernel⟩,
   ⟨{ safe with saf.so := [(0, { overcur := true })] }, 0, by decide +kernel⟩,
   ⟨safe, 3, settled_of (by decide +kernel) rfl, by decide +kernel⟩,
   ⟨safe, 3, settled_of (by decide +kernel) rfl, by decide +kernel⟩,
   ⟨safe, 0, by decide +kernel⟩,
   ⟨{ safe with regs := [(0x0A005C, 1)], saf.si := [(7, { a := { v := true } })] }, 7, settled_of (by decide +kernel) rfl, by decide +kernel⟩,
   ⟨safe, 0, by decide +kernel⟩,
   ⟨safe, settled_of (by decide +kernel) rfl, by decide +kernel⟩,
   ⟨{ safe with sys.mode := .run }, by decide +kernel⟩,
   ⟨{ safe with saf.rst := true }, settled_of (by decide +kernel) rfl, by decide +kernel⟩,
   ⟨safe, by decide +kernel⟩,
   ⟨safe, by decide +kernel⟩,
   ⟨safe, 17999, settled_of (by decide +kernel) rfl, by decide +kernel⟩,
   ⟨safe, 19000, settled_of (by decide +kernel) rfl, by decide +kernel⟩,
   ⟨safe, 18999, by decide +kernel⟩⟩

/-- Every case of `Obligations.SamplesResetsAndTheSafetyOutputs` is met by some state and operands. -/
theorem test_samples_resets_and_the_safety_outputs_met :
    (∃ (s : State), Settled s ∧ s.safRuns = true ∧ s.saf.selRun = true) ∧
    (∃ (s : State), (s.safRuns = false ∨ s.saf.selRun = false)) ∧
    (∃ (s : State) (r : SpRun), Settled s ∧ s.safRuns = true ∧ s.saf.spRun = true ∧ r.selBad = false ∧ r.diag = false) ∧
    (∃ (s : State), (s.safRuns = false ∨ s.saf.spRun = false)) :=
  ⟨⟨safe, settled_of (by decide +kernel) rfl, by decide +kernel⟩,
   ⟨{ safe with saf.selRun := false }, by decide +kernel⟩,
   ⟨safe, ⟨0, [], 0, 0, [], 0, false, false, []⟩, settled_of (by decide +kernel) rfl, by decide +kernel⟩,
   ⟨{ safe with saf.started := false }, by decide +kernel⟩⟩

/-- Every case of `Obligations.SafeChannelPdusAreCheckedAndTimed` is met by some state and operands. -/
theorem test_safe_channel_pdus_are_checked_and_timed_met :
    (∃ (s : State) (n : Fin 64) (p : List Byte), s.safRuns = true ∧ (s.wscCfg n).en = true ∧ (fieldN p 5 1 ≠ (s.wscCfg n).len ∨ p.length ≠ 10 + (s.wscCfg n).len)) ∧
    (∃ (s : State) (n : Fin 64) (p : List Byte), s.safRuns = true ∧ (s.wscCfg n).en = true ∧ fieldN p 5 1 = (s.wscCfg n).len ∧ p.length = 10 + (s.wscCfg n).len ∧ fieldN p (6 + (s.wscCfg n).len) 4 ≠ (wscCrc (s.wscCfg n).id (s.wscCfg n).len p).toNat) ∧
    (∃ (s : State) (n : Fin 64) (p : List Byte), s.safRuns = true ∧ (s.wscCfg n).en = true ∧ fieldN p 5 1 = (s.wscCfg n).len ∧ p.length = 10 + (s.wscCfg n).len ∧ (s.wsc n).state ≠ 1 ∧ fieldN p (6 + (s.wscCfg n).len) 4 = (wscCrc (s.wscCfg n).id (s.wscCfg n).len p).toNat ∧ (BitVec.ofNat 16 (fieldN p 0 2) = (s.wsc n).lastSeq ∨ 64 < (BitVec.ofNat 16 (fieldN p 0 2) - (s.wsc n).lastSeq).toNat)) ∧
    (∃ (s : State) (n : Fin 64) (p : List Byte), s.safRuns = true ∧ (s.wscCfg n).en = true ∧ s.wscCheck n p = 0) ∧
    (∃ (s : State) (n : Fin 64), (s.safRuns = false ∨ (s.wscCfg n).en = false)) ∧
    (∃ (s : State) (n : Fin 64), s.safRuns = true ∧ (s.wscCfg n).en = true ∧ (s.wsc n).deadline.isSome = true ∧ (s.wsc n).state ≠ 3) ∧
    (∃ (s : State) (n : Fin 64), ((s.wsc n).deadline = none ∨ (s.wsc n).state = 3)) :=
  ⟨⟨safe, 63, [], by decide +kernel⟩,
   ⟨safe, 63, [1, 0, 0, 0, 0, 0, 0, 0, 0, 0], by decide +kernel⟩,
   ⟨safe, 63, pdu 0, by decide +kernel⟩,
   ⟨safe, 63, pdu 64, by decide +kernel⟩,
   ⟨safe, 0, by decide +kernel⟩,
   ⟨{ safe with saf.wsc := [(63, { deadline := some 0 })] }, 63, by decide +kernel⟩,
   ⟨safe, 0, by decide +kernel⟩⟩

/-- Every case of `Obligations.TallyRecordsAreSealedReadAndCleared` is met by some state and operands. -/
theorem test_tally_records_are_sealed_read_and_cleared_met :
    (∃ (s : State) (r : TRec), Settled s ∧ s.running = true ∧ s.tly.isOpen = true ∧ s.tly.next s.pwr.pfail = some r) ∧
    (∃ (s : State), Settled s ∧ s.tly.next s.pwr.pfail = none) ∧
    (∃ (s : State), (s.running = false ∨ s.tly.isOpen = false)) ∧
    (∃ (s : State) (r : TRec), s.pwr.pfail = true ∧ s.tly.writing = none ∧ s.tly.next s.pwr.pfail = some r) ∧
    (∃ (s : State), Settled s ∧ s.reach = true ∧ (s.posted.look 0x0B0000 {}).busy = none) ∧
    (∃ (s : State) (v : Word) (i : Instr), Settled s ∧ (i = .tlyRdseq v ∨ i = .tlyClrkey v) ∧ s.reach = true ∧ (s.posted.look 0x0B0000 {}).busy.isSome = true) ∧
    (∃ (s : State) (v : Word), Settled s ∧ s.reach = true ∧ (s.posted.look 0x0B0000 {}).busy = none ∧ (needsToken false s.sys.mode = true ∨ (s.tly.clrKey = none ∧ v ≠ 0x0000C1EA))) ∧
    (∃ (s : State), Settled s ∧ s.reach = true ∧ (s.posted.look 0x0B0000 {}).busy = none ∧ needsToken false s.sys.mode = false ∧ s.tly.clrKey = none) ∧
    (∃ (s : State) (t0 : Nat), Settled s ∧ s.reach = true ∧ (s.posted.look 0x0B0000 {}).busy = none ∧ needsToken false s.sys.mode = false ∧ s.tly.clrKey = some t0 ∧ s.sys.opNs ≤ t0 + 1000000) :=
  ⟨⟨{ stop with tly.isOpen := true, tly.queue := [{ sev := 2 }] }, { sev := 2 }, settled_of (by decide +kernel) rfl, by decide +kernel⟩,
   ⟨stop, settled_of (by decide +kernel) rfl, by decide +kernel⟩,
   ⟨stop, by decide +kernel⟩,
   ⟨{ stop with pwr.pfail := true, tly.queue := [{ sev := 4 }, { sev := 5 }] }, { sev := 5 }, by decide +kernel⟩,
   ⟨stop, settled_of (by decide +kernel) rfl, by decide +kernel⟩,
   ⟨{ stop with posted := [(0x0B0000, { busy := some {} })] }, 0, .tlyRdseq 0, settled_of (by decide +kernel) rfl, by decide +kernel⟩,
   ⟨stop, 1, settled_of (by decide +kernel) rfl, by decide +kernel⟩,
   ⟨{ stop with sys.mode := .test }, settled_of (by decide +kernel) rfl, by decide +kernel⟩,
   ⟨{ stop with sys.mode := .test, tly.clrKey := some 0, sys.opNs := 1000000 }, 0, settled_of (by decide +kernel) rfl, by decide +kernel⟩⟩

/-- Every case of `Obligations.MemoryErrorsAreCorrectedCountedOrFatal` is met by some state and operands. -/
theorem test_memory_errors_are_corrected_counted_or_fatal_met :
    (∃ (s : State), Settled s ∧ s.rinses = true ∧ s.mm.bad.look (64 * s.mm.pos) [] = [] ∧ s.mm.bad.look (64 * s.mm.pos + 32) [] = []) ∧
    (∃ (s : State) (x : Nat), Settled s ∧ x < 38 ∧ s.rinses = true ∧ s.mm.bad.look (64 * s.mm.pos) [] = [] ∧ s.mm.bad.look (64 * s.mm.pos + 32) [] = [] ∧ s.mm.markDev = none ∧ s.mm.pos + 1 < 2 ^ 28) ∧
    (∃ (s : State) (e : List Nat), Settled s ∧ (e.length = 3 ∨ e.length = 4) ∧ s.rinses = true ∧ s.mm.bad.look (64 * s.mm.pos) [] = [] ∧ s.mm.bad.look (64 * s.mm.pos + 32) [] = [] ∧ s.mm.markDev = none ∧ s.mm.pos + 1 < 2 ^ 28) ∧
    (∃ (s : State), s.rinses = false) ∧
    (∃ (s : State) (l : Nat), s.running = true ∧ l ∈ s.mm.wbPend ∧ s.mm.inj.find l = none) ∧
    (∃ (s : State) (l : Nat), l ∉ s.mm.wbPend) ∧
    (∃ (s : State), Settled s ∧ s.running = true) ∧
    (∃ (s : State) (dbl : Nat), dbl ≠ 0 ∧ s.running = true ∧ s.settling = false ∧ s.sys.mode ≠ .faultHalt) ∧
    (∃ (s : State), s.running = true) ∧
    (∃ (s : State), Settled s ∧ s.reach = true ∧ s.sys.mode = .test) ∧
    (∃ (s : State), Settled s ∧ s.reach = true ∧ s.sys.mode ≠ .test) ∧
    (∃ (s : State), s.running = false) :=
  ⟨⟨{ stop with mm.trained := true, mm.rinseRun := true, mm.pos := 2 ^ 28 - 1 }, settled_of (by decide +kernel) rfl, by decide +kernel⟩,
   ⟨{ stop with mm.trained := true, mm.rinseRun := true, mm.pos := 2 ^ 28 - 2 }, 37, settled_of (by decide +kernel) rfl, by decide +kernel⟩,
   ⟨{ stop with mm.trained := true, mm.rinseRun := true }, [0, 1, 2, 3], settled_of (by decide +kernel) rfl, by decide +kernel⟩,
   ⟨stop, by decide +kernel⟩,
   ⟨{ stop with mm.wbPend := [5] }, 5, by decide +kernel⟩,
   ⟨stop, 0, by decide +kernel⟩,
   ⟨stop, settled_of (by decide +kernel) rfl, by decide +kernel⟩,
   ⟨stop, 1, by decide +kernel⟩,
   ⟨stop, by decide +kernel⟩,
   ⟨{ stop with sys.mode := .test }, settled_of (by decide +kernel) rfl, by decide +kernel⟩,
   ⟨stop, settled_of (by decide +kernel) rfl, by decide +kernel⟩,
   ⟨retained, by decide +kernel⟩⟩

/-- Every case of `Obligations.ProgramsExchangeAndImagesSwitch` is met by some state and operands. -/
theorem test_programs_exchange_and_images_switch_met :
    (∃ (s : State), Settled s ∧ s.running = true ∧ s.changeMode = true ∧ s.chg.state = 3 ∧ s.chg.xDue = false ∧ s.executes = true ∧ (s.changedActive = true ∨ s.pwr.pfail = true) ∧ s.chg.moves ≠ 3) ∧
    (∃ (s : State), Settled s ∧ ((∀ i, (s.ring s.chg.slot).infl = some i → i.cmd.slot = s.chg.slot)) ∧ s.running = true ∧ s.changeMode = true ∧ s.chg.state = 3 ∧ s.chg.xDue = false ∧ s.executes = true ∧ (s.changedActive = true ∨ s.pwr.pfail = true) ∧ s.chg.moves = 3 ∧ s.chg.cmd = none) ∧
    (∃ (s : State), Settled s ∧ s.running = true ∧ s.changeMode = true ∧ s.chg.state = 3 ∧ s.chg.xDue = false ∧ s.executes = true ∧ s.changedActive = false ∧ s.pwr.pfail = false) ∧
    (∃ (s : State), Settled s ∧ s.running = true ∧ s.changeMode = true ∧ s.chg.state = 3 ∧ s.chg.xDue = false ∧ s.executes = false ∧ s.insync = true) ∧
    (∃ (s : State) (r : BRec), InTurn r s ∧ s.receives = true ∧ s.executes = false ∧ s.chg.state = 3 ∧ s.chg.isReturn = false ∧ r.progVer = s.chg.newVer ∧ r.progVer ≠ s.chg.actVer) ∧
    (∃ (s : State), (s.running = false ∨ (s.changeMode = false ∧ s.sys.mode ≠ .takeover) ∨ s.chg.state ≠ 3 ∨ s.chg.xDue = true)) ∧
    (∃ (s : State), Settled s ∧ s.running = true ∧ s.sys.mode = .takeover ∧ s.changeMode = false ∧ s.chg.state = 3 ∧ s.chg.xDue = false) ∧
    (∃ (s : State), Settled s ∧ s.running = true ∧ s.pwr.pfail = false ∧ s.chg.state = 1 ∧ s.chg.stored = false ∧ s.executes = true ∧ s.chg.peerReady = false) ∧
    (∃ (s : State), Settled s ∧ s.running = true ∧ s.pwr.pfail = false ∧ s.chg.state = 1 ∧ s.chg.stored = false ∧ s.executes = false ∧ s.cfg.partner = true) ∧
    (∃ (s : State), (s.pwr.pfail = true ∨ s.chg.state ≠ 1 ∨ s.chg.stored = true)) ∧
    (∃ (s : State), Settled s ∧ ((∀ i, (s.ring s.chg.slot).infl = some i → i.cmd.slot = s.chg.slot)) ∧ s.running = true ∧ s.executes = true ∧ (s.chg.state = 1 ∨ s.chg.state = 2) ∧ s.chg.peerReady = false) ∧
    (∃ (s : State), (s.executes = false ∨ s.chg.peerReady = true)) ∧
    (∃ (s : State), Settled s ∧ s.mayWarmSwitch = true) ∧
    (∃ (s : State), s.mayWarmSwitch = false) ∧
    (∃ (s : State), Settled s ∧ s.running = true ∧ s.pwr.pfail = false ∧ s.boot.act.busy = true ∧ s.boot.act.done = false ∧ s.boot.act.pair = true ∧ s.sys.primary = false ∧ s.sys.lone = false ∧ s.boot.act.at_ ≠ 0 ∧ s.boot.act.step = 1 ∧ s.quiet = true ∧ (s.sys.mode = .run ∨ s.sys.mode = .stop)) ∧
    (∃ (s : State), (s.boot.act.busy = false ∨ s.boot.act.pair = false ∨ s.sys.primary = true)) ∧
    (∃ (s : State), Settled s ∧ s.running = true ∧ s.boot.act.state = 4) ∧
    (∃ (s : State), s.running = true ∧ s.boot.act.state = 4 ∧ s.boot.act.pair = false) ∧
    (∃ (s : State), s.boot.act.state ≠ 4) ∧
    (∃ (s : State), Settled s ∧ s.running = true ∧ s.boot.switched = true ∧ s.pwr.pfail = false ∧ s.sys.mode ≠ .recovery) ∧
    (∃ (s : State), (s.boot.switched = false ∨ s.pwr.pfail = true ∨ s.sys.mode = .recovery)) ∧
    (∃ (s : State) (a : Fin 3) (k : Area), Settled s ∧ k = (if a.val = 0 then .fw else if a.val = 1 then .cfg else .keys) ∧ s.reach = true ∧ s.boot.held = false ∧ s.running = true ∧ (s.boot.stg k).writing = true ∧ s.pwr.pfail = false) ∧
    (∃ (s : State), Settled s ∧ s.reach = true ∧ s.boot.held = true ∧ s.boot.ldState = 3 ∧ verifyImage s.boot.ks .fw s.boot.minSvn.toNat s.boot.storeFmt.toNat 0 false s.boot.bankA.bytes ≠ .ok) ∧
    (∃ (s : State), Settled s ∧ s.reach = true ∧ s.boot.held = false) ∧
    (∃ (s : State), Settled s ∧ s.reach = true ∧ s.boot.held = true ∧ s.boot.ldKey = none) ∧
    (∃ (s : State) (t0 : Nat), Settled s ∧ s.reach = true ∧ s.boot.held = true ∧ s.boot.ldKey = some t0 ∧ s.sys.opNs ≤ t0 + 1000000) :=
  ⟨⟨{ runs with chg.state := 3, chg.classes := 1, chg.moves := 2 }, settled_of (by decide +kernel) rfl, by decide +kernel⟩,
   ⟨{ runs with chg.state := 3, chg.classes := 1, chg.moves := 3 }, settled_of (by decide +kernel) rfl, no_mirror rfl, by decide +kernel⟩,
   ⟨{ runs with chg.state := 3, chg.classes := 2 }, settled_of (by decide +kernel) rfl, by decide +kernel⟩,
   ⟨{ standby with chg.state := 3 }, settled_of (by decide +kernel) rfl, by decide +kernel⟩,
   ⟨{ standby with chg.state := 3, chg.newVer := 1 }, { progVer := 1 }, inTurn_of (settled_of (by decide +kernel) rfl) (by decide +kernel), by decide +kernel⟩,
   ⟨runs, by decide +kernel⟩,
   ⟨{ runs with sys.mode := .takeover, chg.state := 3 }, settled_of (by decide +kernel) rfl, by decide +kernel⟩,
   ⟨{ runs with chg.state := 1 }, settled_of (by decide +kernel) rfl, by decide +kernel⟩,
   ⟨{ standby with chg.state := 1 }, settled_of (by decide +kernel) rfl, by decide +kernel⟩,
   ⟨{ runs with chg.state := 2 }, by decide +kernel⟩,
   ⟨{ runs with chg.state := 2 }, settled_of (by decide +kernel) rfl, no_mirror rfl, by decide +kernel⟩,
   ⟨standby, by decide +kernel⟩,
   ⟨{ stop with boot.act.busy := true }, settled_of (by decide +kernel) rfl, by decide +kernel⟩,
   ⟨runs, by decide +kernel⟩,
   ⟨{ standby with boot.act := { busy := true, pair := true, at_ := 1, step := 1 } }, settled_of (by decide +kernel) rfl, by decide +kernel⟩,
   ⟨runs, by decide +kernel⟩,
   ⟨{ runs with boot.act.state := 4 }, settled_of (by decide +kernel) rfl, by decide +kernel⟩,
   ⟨{ runs with boot.act.state := 4 }, by decide +kernel⟩,
   ⟨runs, by decide +kernel⟩,
   ⟨{ runs with boot.switched := true }, settled_of (by decide +kernel) rfl, by decide +kernel⟩,
   ⟨runs, by decide +kernel⟩,
   ⟨{ runs with boot.stgKey.writing := true }, 2, .keys, settled_of (by decide +kernel) rfl, by decide +kernel⟩,
   ⟨{ runs with boot.held := true, boot.ldState := 3 }, settled_of (by decide +kernel) rfl, by decide +kernel⟩,
   ⟨runs, settled_of (by decide +kernel) rfl, by decide +kernel⟩,
   ⟨{ runs with boot.held := true }, settled_of (by decide +kernel) rfl, by decide +kernel⟩,
   ⟨{ runs with boot.held := true, boot.ldKey := some 0, sys.opNs := 1000000 }, 0, settled_of (by decide +kernel) rfl, by decide +kernel⟩⟩

/-- Every case of `Obligations.AStepRunsTheFrontCommand` is met by some state and operands. -/
theorem test_a_step_runs_the_front_command_met :
    (∃ (s : State), s.pending = [] ∧ s.sys.mode ≠ .retain ∧ s.undecided = []) ∧
    (∃ (s : State), s.pending = [] ∧ s.sys.mode = .retain) :=
  ⟨⟨stop, by decide +kernel⟩,
   ⟨retained, by decide +kernel⟩⟩

/-- The case of `Obligations.EveryStepLeavesTheModuleSettled` is met by some state and operands. -/
theorem test_every_step_leaves_the_module_settled_met :
    (∃ (s : State) (t : State), Settled s ∧ step s = .next t) :=
  ⟨stop, stop.clock, settled_of (by decide +kernel) rfl, rfl⟩

/-- The case of `Obligations.TheRoleStaysWhereTheModeAllowsIt` is met by some state and operands. -/
theorem test_the_role_stays_where_the_mode_allows_it_met :
    (∃ (s : State) (t : State), RoleLegal s ∧ step s = .next t) :=
  ⟨stop, stop.clock, fun _ => rfl, rfl⟩

/-- The case of `Obligations.QueueMemoriesKeepTheirForm` is met by some state and operands. -/
theorem test_queue_memories_keep_their_form_met :
    (∃ (s : State) (t : State), QueuesCanonical s ∧ step s = .next t) :=
  ⟨canned, canned.clock, fun _ _ => ⟨rfl, rfl⟩, rfl⟩

end Sys2Proof.Tests
end

section
/-! What follows a command (`settleState`) leaves the mode, the role, the halt cause and the baste link as they are. -/

namespace Sys2Proof.Proofs

open Sys2Proof.Machine Sys2Proof.Safety Sys2Proof.Laws

variable {s t : State}

/-- A list of parts lies in another: by evaluation. -/
theorem within {a b : List Part} (d : a.all (fun p => b.contains p) = true) : Within a b := Within.step (fun _ h => h) d

/-- The parts of `qs` stay where none of them is among those that change. -/
theorem same_of_disjoint {ps qs : List Part} (k : OnlyChanges ps s t) (d : ps.all (fun p => !qs.contains p) = true) :
    ∀ p ∈ qs, p.same s t := fun p hp => k.same p fun hq => by
  have := List.all_eq_true.mp d p hq
  simp [hp] at this

/-- A channel that follows the mode changes its own state and its queues only (spec/12_can.md R326). -/
theorem canFollow_frame {c : Nat} (h : OnlyChanges [.can, .canq] s t) : OnlyChanges [.can, .canq] s (t.canFollow c) := by
  unfold State.canFollow
  split
  · exact h
  · dsimp only
    split
    · exact h
    · split
      · exact updCan_only (within rfl) h
      · exact updCanQ_only (within rfl) (updCan_only (within rfl) h)

theorem canSync_frame : OnlyChanges [.can, .canq] s s.canSync :=
  OnlyChanges.foldl OnlyChanges.refl fun _ _ h => OnlyChanges.ite (canFollow_frame h) h

theorem completePreempted_sys : s.completePreempted.sys = { s.sys with preempted := [] } := by
  have k : OnlyChanges [.hif, .tly, .outbox] { s with sys := { s.sys with preempted := [] } } s.completePreempted :=
    OnlyChanges.foldl OnlyChanges.refl fun _ _ h => finishWaiting_only (within rfl) h
  exact k.same .sys (by decide)

/-- The parts that what follows a command may change. -/
def settling : List Part := [.sys, .hif, .can, .canq, .fio, .tly, .outbox]

/-- The state whose changes a command reports: the CAN channels and the local outputs follow the mode. -/
theorem follow_frame (m : Mode) : OnlyChanges [.can, .canq, .fio, .outbox] t (t.canSync.fioFollow m) :=
  fioFollow_only (within rfl) (OnlyChanges.mono canSync_frame (within rfl))

theorem settleState_frame : OnlyChanges settling t (settleState s t) := by
  have h : OnlyChanges settling t (t.canSync.fioFollow s.sys.mode) :=
    OnlyChanges.mono (follow_frame _) (within rfl)
  unfold settleState
  refine report_only (within rfl) (OnlyChanges.ite ?_ h)
  exact readsFollow_only (within rfl)
    (completePreempted_only (within rfl) h)

/-- Of the system block, what follows a command changes at most the list of abandoned mode commands. -/
theorem settleState_sys : (settleState s t).sys = { t.sys with preempted := (settleState s t).sys.preempted } := by
  have hu : (t.canSync.fioFollow s.sys.mode).sys = t.sys := (follow_frame _).same .sys (by decide)
  have hr : ∀ v : State, (report s v).sys = v.sys := fun v =>
    (report_only (within rfl) OnlyChanges.refl : OnlyChanges [.hif, .outbox] v _).same .sys (by decide)
  unfold settleState
  rw [hr]
  split
  · have hf : ∀ v : State, (v.readsFollow s.sys.mode).sys = v.sys := fun v =>
      (readsFollow_only (within rfl) OnlyChanges.refl : OnlyChanges [.hif, .tly, .outbox] v _).same .sys (by decide)
    rw [hf, completePreempted_sys, hu]
  · rw [hu]

end Sys2Proof.Proofs
end

section
/-! What the steps of a cycle keep: the published side of every class's memories, and of a class's state all but the mark of its
preemption and the count of its changed stations (spec/01_architecture.md R19, spec/05_cyclic_execution.md Table 5.1). -/

namespace Sys2Proof.Proofs

open Sys2Proof.Machine Sys2Proof.Safety Sys2Proof.Laws

variable {s t : State}

/-- What the commits of a class have published (R19, R22). -/
structure Published where
  pub0 : Mem
  pub1 : Mem
  idx : Bool
  globPub : Mem
  commits : Nat

/-- The published side of a class's memories. -/
def published (m : ClsMem) : Published :=
  { pub0 := m.pub0, pub1 := m.pub1, idx := m.idx, globPub := m.globPub, commits := m.commits }

theorem idx_congr {m n : ClsMem} (h : published m = published n) : m.idx = n.idx := congrArg Published.idx h

theorem globPub_congr {m n : ClsMem} (h : published m = published n) : m.globPub = n.globPub := congrArg Published.globPub h

theorem commits_congr {m n : ClsMem} (h : published m = published n) : m.commits = n.commits := congrArg Published.commits h

theorem image_congr {m n : ClsMem} (h : published m = published n) : m.image = n.image := by
  have h0 : m.pub0 = n.pub0 := congrArg Published.pub0 h
  have h1 : m.pub1 = n.pub1 := congrArg Published.pub1 h
  rw [ClsMem.image, h0, h1, idx_congr h]
  rfl

/-- The state of a class but for the mark of its preemption and the count of its changed stations. -/
def core (x : Cls) : Cls := { x with preempted := false, etArg := 0 }

theorem active_of_core {x y : Cls} (h : core x = core y) : x.active = y.active := (congrArg Cls.active h :)

theorem bodyDone_of_core {x y : Cls} (h : core x = core y) : x.bodyDone = y.bodyDone := (congrArg Cls.bodyDone h :)

theorem cycno_of_core {x y : Cls} (h : core x = core y) : x.cycno = y.cycno := (congrArg Cls.cycno h :)

theorem startNs_of_core {x y : Cls} (h : core x = core y) : x.startNs = y.startNs := (congrArg Cls.startNs h :)

/-- From `s` to `t` nothing is published, and the classes keep their state but for what `core` leaves out. -/
structure Keeps (s t : State) : Prop where
  cls : ∀ d, core (t.cls d) = core (s.cls d)
  mem : ∀ d, published (t.cmem d) = published (s.cmem d)

theorem Keeps.refl : Keeps s s := ⟨fun _ => rfl, fun _ => rfl⟩

theorem Keeps.trans {u : State} (h : Keeps s t) (k : Keeps t u) : Keeps s u :=
  ⟨fun d => (k.cls d).trans (h.cls d), fun d => (k.mem d).trans (h.mem d)⟩

theorem Keeps.foldl {α : Type} {f : State → α → State} {l : List α} (h : Keeps s t) (hf : ∀ u a, Keeps s u → Keeps s (f u a)) :
    Keeps s (l.foldl f t) := by
  induction l generalizing t with
  | nil => exact h
  | cons a l ih => exact ih (hf _ _ h)

theorem Keeps.ite {c : Prop} [Decidable c] {u : State} (h : Keeps s t) (k : Keeps s u) : Keeps s (if c then t else u) := by
  split
  · exact h
  · exact k

/-- An operation that keeps the tables of the classes and their memories. -/
theorem Keeps.of_tables {u : State} (h : Keeps s t) (hc : u.cyc.cls = t.cyc.cls) (hm : u.cyc.mem = t.cyc.mem) : Keeps s u := by
  refine h.trans ⟨fun d => ?_, fun d => ?_⟩
  · rw [State.cls, hc]; rfl
  · rw [State.cmem, hm]; rfl

/-- An operation that leaves the cyclic part as it is. -/
theorem Keeps.of_frame {P : List Part} {u : State} (h : Keeps s t) (k : OnlyChanges P t u) (hP : Part.cyc ∉ P) : Keeps s u := by
  have e : u.cyc = t.cyc := k.same .cyc hP
  exact h.of_tables (by rw [e]) (by rw [e])

theorem updMem_keeps {c : Nat} {f : ClsMem → ClsMem} (h : Keeps s t) (hf : ∀ m, published (f m) = published m) :
    Keeps s (t.updMem c f) := by
  refine h.trans ⟨fun _ => rfl, fun d => ?_⟩
  by_cases hd : d = c
  · rw [hd, cmem_updMem, hf]
  · rw [cmem_updMem_ne f hd]

theorem updCls_keeps {c : Nat} {f : Cls → Cls} (h : Keeps s t) (hf : ∀ x, core (f x) = core x) : Keeps s (t.updCls c f) := by
  refine h.trans ⟨fun d => ?_, fun _ => rfl⟩
  by_cases hd : d = c
  · rw [hd, cls_updCls, hf]
  · rw [cls_updCls_ne f hd]

/-! Stores of a program and of the host. -/

theorem published_setArea (m : ClsMem) (a : Nat) (x : Mem) : published (m.setArea a x) = published m := by
  unfold ClsMem.setArea
  split
  · rfl
  · split <;> rfl

theorem published_touch (m : ClsMem) (a line : Nat) : published (m.touch a line) = published m := by
  unfold ClsMem.touch
  split <;> rfl

theorem published_poke (m : ClsMem) (a addr : Nat) (b : List Byte) : published (m.poke a addr b) = published m := by
  have h : ∀ (l : List Nat) (n : ClsMem), published (l.foldl (fun (x : ClsMem) k => x.touch a k) n) = published n := by
    intro l
    induction l with
    | nil => exact fun _ => rfl
    | cons k l ih => exact fun n => (ih _).trans (published_touch ..)
  exact (published_setArea ..).trans (h ..)

theorem setIn_keeps {c a : Nat} {b : List Byte} (h : Keeps s t) : Keeps s (t.setIn c a b) := updMem_keeps h fun _ => rfl

theorem pokeElem_keeps {e : Elem} (h : Keeps s t) : Keeps s (t.pokeElem e) := by
  unfold State.pokeElem
  split
  · exact h
  · exact (setIn_keeps h).ite (updMem_keeps h fun _ => published_poke ..)

theorem applyForces_keeps {c : Nat} {out : Bool} (h : Keeps s t) : Keeps s (t.applyForces c out) :=
  h.foldl fun _ _ h => pokeElem_keeps h

theorem applyPending_keeps {c : Nat} (h : Keeps s t) : Keeps s (t.applyPending c) :=
  updMem_keeps (h.foldl fun _ _ h => pokeElem_keeps h) fun _ => rfl

theorem updPair_keeps {p : Nat} {f : Pair → Pair} (h : Keeps s t) : Keeps s (t.updPair p f) := h.of_tables rfl rfl

theorem privStore_keeps {p c : Nat} {x : PStore} (h : Keeps s t) : Keeps s (t.privStore p c x) := by
  unfold State.privStore
  exact (updMem_keeps h fun _ => published_poke ..).ite
    ((updPair_keeps h).ite (updMem_keeps (updPair_keeps h) fun _ => published_poke ..))

theorem defStore_keeps {p : Nat} {d : DefSt} (h : Keeps s t) : Keeps s (t.defStore p d) := by
  unfold State.defStore
  exact (updPair_keeps h).ite ((updPair_keeps h).ite (updPair_keeps h))

theorem runWork_keeps {p c : Nat} {w : Work} (h : Keeps s t) : Keeps s (t.runWork p c w) :=
  (h.foldl fun _ _ h => privStore_keeps h).foldl fun _ _ h => defStore_keeps h

/-! The latch of a class (Table 5.1 step 2). -/

theorem setWord_keeps {c i a : Nat} {w : Word} (h : Keeps s t) : Keeps s (t.setWord c i a w) := updMem_keeps h fun _ => rfl

theorem updNet_keeps {n : Net} (h : Keeps s t) : Keeps s { t with net := n } := h.of_tables rfl rfl

theorem updStn_keeps {i : Nat} {f : Stn → Stn} (h : Keeps s t) : Keeps s (t.updStn i f) := updNet_keeps h

theorem log_keeps {code sev : Nat} {d : List Byte} (h : Keeps s t) : Keeps s (t.log code sev d) :=
  h.of_frame (log_only (within rfl) OnlyChanges.refl : OnlyChanges [.tly] t _) (by decide)

theorem substStn_keeps {c i : Nat} (h : Keeps s t) : Keeps s (t.substStn c i) := by
  unfold State.substStn
  exact (setIn_keeps h).ite ((setIn_keeps h).ite h)

theorem failStn_keeps {c i : Nat} {n : DWord} (h : Keeps s t) : Keeps s (t.failStn c i n) :=
  updCls_keeps (log_keeps (setWord_keeps (substStn_keeps (updStn_keeps h)))) fun _ => rfl

theorem rejoinStn_keeps {c i : Nat} (h : Keeps s t) : Keeps s (t.rejoinStn c i) :=
  updCls_keeps (setWord_keeps (setIn_keeps (updStn_keeps h))) fun _ => rfl

theorem latchStn_keeps {c i : Nat} {n : DWord} (h : Keeps s t) : Keeps s (t.latchStn c n i) := by
  have h1 : Keeps s (if (t.stn i).got then t else t.updStn i fun y => { y with missLatch := y.missLatch + 1 }) :=
    h.ite (updStn_keeps h)
  exact updStn_keeps (((setWord_keeps (setIn_keeps h1)).ite (failStn_keeps h1)).ite
    ((rejoinStn_keeps h1).ite (setWord_keeps (substStn_keeps (updStn_keeps h1)))))

theorem latchSub_keeps {c i : Nat} (h : Keeps s t) : Keeps s (t.latchSub c i) :=
  updNet_keeps (updMem_keeps (Keeps.ite (Keeps.ite h (setIn_keeps h)) (setIn_keeps h)) fun _ => rfl)

theorem latchLocal_keeps {c : Nat} (h : Keeps s t) : Keeps s (t.latchLocal c) :=
  (((h.foldl fun _ _ h => setIn_keeps h).foldl fun _ _ h => setIn_keeps h).foldl fun _ _ h => setIn_keeps h).foldl
    fun _ _ h => setIn_keeps h

theorem latch_keeps {c : Nat} {n : DWord} (h : Keeps s t) : Keeps s (t.latch c n) :=
  updMem_keeps (latchLocal_keeps (Keeps.foldl (Keeps.foldl (updCls_keeps h fun _ => rfl) fun _ _ h => latchStn_keeps h)
    fun _ _ h => latchSub_keeps h)) fun _ => rfl

theorem latchLoops_keeps {c : Nat} (h : Keeps s t) : Keeps s (t.latchLoops c) := h.foldl fun _ _ h => setIn_keeps h

/-! The mode. -/

theorem setMode_keeps {m : Mode} {cause : Nat} (h : Keeps s t) : Keeps s (t.setMode m cause) := by
  have he : ∀ {u : State} {c : BitVec 16} {k : Nat} {w : Word} {d : List Byte}, Keeps s u → Keeps s (u.event c k w d) := fun {u} _ _ _ _ h =>
    h.of_frame (event_only (within rfl) OnlyChanges.refl : OnlyChanges [.hif, .outbox] u _) (by decide)
  unfold State.setMode
  dsimp only
  refine he (log_keeps ?_)
  split <;> split <;> exact h.of_tables rfl rfl

end Sys2Proof.Proofs
end

section
/-! A pair without deferred and held stores turns from class to class and stores nothing (spec/05_cyclic_execution.md R128,
spec/06_lockstep_and_darn.md R160, R165). -/

namespace Sys2Proof.Proofs

open Sys2Proof.Machine Sys2Proof.Safety Sys2Proof.Laws

variable {s t : State} {p : Nat}

/-- Pair `p` has deferred no store and holds none back (R162, R165). -/
structure Calm (p : Nat) (s : State) : Prop where
  defer : (s.pair p).defer = []
  heldP : (s.pair p).heldP = []
  heldD : (s.pair p).heldD = []

theorem calm_of_not_stalled (hd : (s.pair p).defer = []) (hs : (s.pair p).stalled = false) : Calm p s := by
  obtain ⟨hP, hD⟩ : (s.pair p).heldP = [] ∧ (s.pair p).heldD = [] := by simpa [Pair.stalled] using hs
  exact ⟨hd, hP, hD⟩

theorem Calm.congr (h : Calm p s) (e : t.lsp = s.lsp) : Calm p t := by
  have e' : t.pair p = s.pair p := by rw [State.pair, e]; rfl
  exact ⟨e' ▸ h.defer, e' ▸ h.heldP, e' ▸ h.heldD⟩

/-- From `s` to `t` pairs and classes have taken turns: nothing is published, no other part changes, and pair `p` is calm. -/
structure Turns (p : Nat) (s t : State) : Prop where
  keeps : Keeps s t
  frame : OnlyChanges [.cyc, .lsp] s t
  calm : Calm p t

theorem Turns.refl (h : Calm p s) : Turns p s s := ⟨Keeps.refl, OnlyChanges.refl, h⟩

theorem Turns.ite {c : Prop} [Decidable c] {u : State} (h : Turns p s t) (k : Turns p s u) : Turns p s (if c then t else u) := by
  split
  · exact h
  · exact k

theorem updPair_turns {f : Pair → Pair} (h : Turns p s t) (hd : (f (t.pair p)).defer = []) (hP : (f (t.pair p)).heldP = [])
    (hD : (f (t.pair p)).heldD = []) : Turns p s (t.updPair p f) :=
  ⟨updPair_keeps h.keeps, updPair_only (within rfl) h.frame, by rwa [pair_updPair], by rwa [pair_updPair], by rwa [pair_updPair]⟩

theorem updCls_turns {c : Nat} {f : Cls → Cls} (h : Turns p s t) (hf : ∀ x, core (f x) = core x) : Turns p s (t.updCls c f) :=
  ⟨updCls_keeps h.keeps hf, updCls_only (within rfl) h.frame, h.calm.congr rfl⟩

theorem releaseStores_turns (h : Turns p s t) : Turns p s (t.releaseStores p) := by
  unfold State.releaseStores
  dsimp only
  rw [h.calm.heldP, h.calm.heldD]
  exact updPair_turns h h.calm.defer rfl rfl

theorem seal_turns {release : Nat → DefSt → State → State} (h : Turns p s t) : Turns p s (t.seal release p) := by
  unfold State.seal
  rw [h.calm.defer]
  exact releaseStores_turns (updPair_turns h rfl h.calm.heldP h.calm.heldD)

theorem preemptOn_turns {release : Nat → DefSt → State → State} (h : Turns p s t) : Turns p s (t.preemptOn release p) := by
  have k : Turns p s (t.seal release p) := seal_turns h
  exact updCls_turns (Turns.ite h (updPair_turns k k.calm.defer k.calm.heldP k.calm.heldD)) fun _ => rfl

theorem pairBusy_turns (h : Turns p s t) : Turns p s (t.pairBusy p) :=
  updPair_turns h h.calm.defer h.calm.heldP h.calm.heldD

theorem beginOn_turns {c : Nat} (h : Turns p s t) : Turns p s (t.beginOn p c) := by
  have k : Turns p s ((t.pairBusy p).updCls c fun x => { x with preempted := false }) :=
    updCls_turns (pairBusy_turns h) fun _ => rfl
  unfold State.beginOn
  dsimp only
  split <;> exact updPair_turns k k.calm.defer k.calm.heldP k.calm.heldD

theorem noteLoad_turns (h : Turns p s t) : Turns p s (t.noteLoad p) :=
  ⟨h.keeps.of_tables rfl rfl, noteLoad_only (within rfl) h.frame, h.calm.congr rfl⟩

theorem pairIdle_turns (h : Turns p s t) : Turns p s (t.pairIdle p) :=
  updPair_turns (noteLoad_turns h) h.calm.defer h.calm.heldP h.calm.heldD

theorem schedule_turns {release : Nat → DefSt → State → State} (h : Turns p s t) : Turns p s (t.schedule release p) := by
  unfold State.schedule
  dsimp only
  split
  · exact h
  · split
    · exact Turns.ite h (pairIdle_turns h)
    · exact Turns.ite h (beginOn_turns (Turns.ite h (preemptOn_turns h)))

/-! What a pair that falls idle keeps; the log of an idle pair stays empty. -/

theorem pairIdle_idle : ((s.pairIdle p).pair p).idle = true := by
  rw [State.pairIdle, pair_updPair]

theorem pairIdle_log : ((s.pairIdle p).pair p).log = (s.pair p).log := by
  rw [State.pairIdle, pair_updPair]
  rfl

theorem pairIdle_dropped : ((s.pairIdle p).pair p).dbgDropped = (s.pair p).dbgDropped := by
  rw [State.pairIdle, pair_updPair]
  rfl

theorem beginOn_log {c : Nat} (h : (s.pair p).log = []) : ((s.beginOn p c).pair p).log = [] := by
  unfold State.beginOn
  dsimp only
  split
  · rw [pair_updPair]
  · rw [pair_updPair]
    show (((s.pairBusy p).pair p)).log = []
    rw [State.pairBusy, pair_updPair]
    exact h

theorem schedule_log_of_idle {release : Nat → DefSt → State → State} (hi : (s.pair p).idle = true) (h : (s.pair p).log = []) :
    ((s.schedule release p).pair p).log = [] := by
  unfold State.schedule
  dsimp only
  rw [hi]
  split
  · exact h
  · split
    · exact h
    · exact beginOn_log h

end Sys2Proof.Proofs
end

section
/-! The end of a body and the write of the published-buffer index (spec/01_architecture.md R19, spec/05_cyclic_execution.md R134, R135). -/

namespace Sys2Proof.Proofs

open Sys2Proof.Machine Sys2Proof.Safety Sys2Proof.Laws

variable {s t : State} {c : Nat}

/-! The stores of a body. -/

theorem privStore_frame {p : Nat} {x : PStore} (h : OnlyChanges [.cyc, .lsp] s t) :
    OnlyChanges [.cyc, .lsp] s (t.privStore p c x) := by
  unfold State.privStore
  exact OnlyChanges.ite (updMem_only (within rfl) h) (OnlyChanges.ite (updPair_only (within rfl) h)
    (updMem_only (within rfl) (updPair_only (within rfl) h)))

theorem runWork_frame (p : Nat) (w : Work) : OnlyChanges [.cyc, .lsp] s (s.runWork p c w) :=
  OnlyChanges.foldl (OnlyChanges.foldl OnlyChanges.refl fun _ _ h => privStore_frame h) fun _ _ h => defStore_only (within rfl) h

theorem updMem_pair (f : ClsMem → ClsMem) (p : Nat) : (s.updMem c f).pair p = s.pair p := rfl

theorem privStore_defer (p : Nat) (x : PStore) : ((s.privStore p c x).pair p).defer = (s.pair p).defer := by
  unfold State.privStore
  dsimp only
  split
  · rfl
  · split
    · rw [pair_updPair]
    · rw [updMem_pair, pair_updPair]

theorem runWork_defer {p : Nat} {w : Work} (hw : w.defs = []) : ((s.runWork p c w).pair p).defer = (s.pair p).defer := by
  have h : ∀ (l : List PStore) (u : State), ((l.foldl (fun (v : State) x => v.privStore p c x) u).pair p).defer = (u.pair p).defer := by
    intro l
    induction l with
    | nil => exact fun _ => rfl
    | cons x l ih => exact fun u => (ih _).trans (privStore_defer ..)
  unfold State.runWork
  rw [hw]
  exact h ..

/-- The conditions under which the body of class `c` ends with the stores `work` on its sound pair, and nothing is deferred or held. -/
structure BodyEnds (c : Nat) (work : Work) (s : State) : Prop where
  active : (s.cls c).active = true
  unended : (s.cls c).bodyDone = false
  runs : (s.pair (s.ccfg c).pair).runs = true
  turn : (s.pair (s.ccfg c).pair).cls = c
  sound : (s.pair (s.ccfg c).pair).broken = false
  defs : work.defs = []
  defer : (s.pair (s.ccfg c).pair).defer = []
  free : ((s.runWork (s.ccfg c).pair c work).pair (s.ccfg c).pair).stalled = false

theorem bodyEnd_eq {work : Work} (h : BodyEnds c work s) : s.bodyEnd c work =
    ((s.runWork (s.ccfg c).pair c work).applyForces c true).updPair (s.ccfg c).pair fun x => { x with log := [], defer := [] } := by
  have hd : (((s.runWork (s.ccfg c).pair c work).applyForces c true).pair (s.ccfg c).pair).defer = [] := by
    have k : OnlyChanges [.cyc] (s.runWork (s.ccfg c).pair c work) _ := applyForces_only (x0 := c) (x1 := true) (within rfl) OnlyChanges.refl
    rw [State.pair, k.same .lsp (by decide)]
    exact (runWork_defer h.defs).trans h.defer
  unfold State.bodyEnd
  dsimp only
  rw [hd]
  rfl

theorem bodyEnd_turns {work : Work} (h : BodyEnds c work s) : Turns (s.ccfg c).pair s (s.bodyEnd c work) := by
  have hw : Turns (s.ccfg c).pair s (s.runWork (s.ccfg c).pair c work) :=
    ⟨runWork_keeps Keeps.refl, runWork_frame .., calm_of_not_stalled ((runWork_defer h.defs).trans h.defer) h.free⟩
  have k : OnlyChanges [.cyc] (s.runWork (s.ccfg c).pair c work) _ := applyForces_only (x0 := c) (x1 := true) (within rfl) OnlyChanges.refl
  have hf : Turns (s.ccfg c).pair s ((s.runWork (s.ccfg c).pair c work).applyForces c true) :=
    ⟨applyForces_keeps hw.keeps, applyForces_only (within rfl) hw.frame, hw.calm.congr (k.same .lsp (by decide))⟩
  rw [bodyEnd_eq h]
  exact updPair_turns hf rfl hf.calm.heldP hf.calm.heldD

theorem bodyEnd_log {work : Work} (h : BodyEnds c work s) : ((s.bodyEnd c work).pair (s.ccfg c).pair).log = [] := by
  rw [bodyEnd_eq h, pair_updPair]

/-- The body has ended and its pair is idle. -/
def ended (c : Nat) (work : Work) (s : State) : State := (s.bodyEnd c work).pairIdle (s.ccfg c).pair

theorem ended_turns {work : Work} (h : BodyEnds c work s) : Turns (s.ccfg c).pair s (ended c work s) := pairIdle_turns (bodyEnd_turns h)

theorem ended_cmem (work : Work) (d : Nat) : (ended c work s).cmem d = (s.bodyEnd c work).cmem d := rfl

theorem ended_idle (work : Work) : ((ended c work s).pair (s.ccfg c).pair).idle = true := pairIdle_idle

theorem ended_log {work : Work} (h : BodyEnds c work s) : ((ended c work s).pair (s.ccfg c).pair).log = [] := by
  rw [ended, pairIdle_log, bodyEnd_log h]

theorem commit_of_bodyEnds {work : Work} (h : BodyEnds c work s) (early : Bool) :
    s.commit c work early = (ended c work s).endOrWrite c early := by
  simp [State.commit, ended, h.active, h.unended, h.runs, h.turn, h.sound, h.free]

theorem commit_of_bodyDone (ha : (s.cls c).active = true) (hd : (s.cls c).bodyDone = true) (work : Work) :
    s.commit c work false = s.writeIndex c := by
  simp [State.commit, ha, hd]

/-! The write of the index. -/

/-- The index of class `c` is written and its cycle has ended, before what follows a commit. -/
def indexed (c : Nat) (s : State) : State :=
  ((s.overrunRec c).updMem c (ClsMem.publish (s.cls c).cur s.short)).updCls c fun x =>
    x.commit ((s.tim.ns - (s.cls c).startNs) / 1000) (s.liveReg (Reg.cycClsSoft + 0x40 * c)).toNat

/-- What follows the write of the index but for the start of a waiting cycle. -/
def afterIndex (c : Nat) (s : State) : State :=
  ((((if s.fastest = some c then s.fastCommit else s).mirrorCommit c).answerReads c).changeCommitted c).stopDone

theorem writeIndex_eq : s.writeIndex c =
    ((afterIndex c (indexed c s)).lateStart c).schedule releaseDef (s.ccfg c).pair := rfl

theorem image_publish (n : DWord) (w : Word) (m : ClsMem) : (m.publish n w).image = m.work := by
  cases h : m.idx <;> simp [ClsMem.publish, ClsMem.image, h]

theorem idx_publish (n : DWord) (w : Word) (m : ClsMem) : (m.publish n w).idx = !m.idx := by
  cases h : m.idx <;> simp [ClsMem.publish, h]

theorem overrunRec_frame : OnlyChanges [.tly] s (s.overrunRec c) := overrunRec_only (within rfl) OnlyChanges.refl

theorem indexed_frame : OnlyChanges [.cyc, .tly] s (indexed c s) :=
  updCls_only (within rfl) (updMem_only (within rfl) (overrunRec_only (within rfl) OnlyChanges.refl))

theorem indexed_cmem : (indexed c s).cmem c = (s.cmem c).publish (s.cls c).cur s.short := by
  have e : (s.overrunRec c).cmem c = s.cmem c := by rw [State.cmem, overrunRec_frame.same .cyc (by decide)]; rfl
  exact (cmem_updMem ..).trans (by rw [e])

theorem indexed_cmem_ne {d : Nat} (h : d ≠ c) : (indexed c s).cmem d = s.cmem d := by
  have e : (s.overrunRec c).cmem d = s.cmem d := by rw [State.cmem, overrunRec_frame.same .cyc (by decide)]; rfl
  exact (cmem_updMem_ne _ h).trans e

theorem indexed_cls : (indexed c s).cls c =
    (s.cls c).commit ((s.tim.ns - (s.cls c).startNs) / 1000) (s.liveReg (Reg.cycClsSoft + 0x40 * c)).toNat := by
  have e : ((s.overrunRec c).updMem c (ClsMem.publish (s.cls c).cur s.short)).cls c = s.cls c := by
    show (s.overrunRec c).cls c = _
    rw [State.cls, overrunRec_frame.same .cyc (by decide)]
    rfl
  exact (cls_updCls ..).trans (by rw [e])

end Sys2Proof.Proofs
end

section
/-! What follows the write of the index: a first commit, the mirror, the waiting reads, a change, a stop, and the start of a waiting cycle
(spec/05_cyclic_execution.md R134, R135, R142). -/

namespace Sys2Proof.Proofs

open Sys2Proof.Machine Sys2Proof.Safety Sys2Proof.Laws

variable {s t : State} {c : Nat}

/-! What follows publishes nothing. -/

theorem leaveActivate_keeps (h : Keeps s t) : Keeps s t.leaveActivate := (setMode_keeps h).ite h

theorem settleFrom_keeps (h : Keeps s t) : Keeps s t.settleFrom := by
  unfold State.settleFrom
  exact ((leaveActivate_keeps h).of_frame (updAct_only (within rfl) OnlyChanges.refl : OnlyChanges [.boot] _ _) (by decide)).of_frame
    (actRec_only (within rfl) OnlyChanges.refl : OnlyChanges [.tly] _ _) (by decide)

theorem actCommit_keeps {took : Bool} (h : Keeps s t) : Keeps s (t.actCommit took) :=
  (settleFrom_keeps h).ite ((h.of_frame (completeAct_only (within rfl) OnlyChanges.refl :
    OnlyChanges [.hif, .tly, .boot, .outbox] _ _) (by decide)).ite ((settleFrom_keeps h).ite h))

theorem firstCommit_keeps (h : Keeps s t) : Keeps s t.firstCommit := by
  unfold State.firstCommit
  exact setMode_keeps (h.of_tables rfl rfl)

theorem fastCommit_keeps (h : Keeps s t) : Keeps s t.fastCommit := by
  have hr : ∀ {u : State}, Keeps s u → Keeps s u.resumeChange := fun {u} h =>
    h.of_frame (resumeChange_only (within rfl) OnlyChanges.refl : OnlyChanges [.chg] u _) (by decide)
  have hu : ∀ {u : State} {a : Dpx2} {b : Cle}, Keeps s u → Keeps s { u with dpx2 := a, cle := b } := fun h => h.of_tables rfl rfl
  unfold State.fastCommit
  exact hu (actCommit_keeps (Keeps.ite (hr (firstCommit_keeps h)) h))

theorem mirrorCommit_keeps (h : Keeps s t) : Keeps s (t.mirrorCommit c) := by
  have hs : ∀ {sync : Bool} {a b d : List Nat}, Keeps s (t.sendCommit sync c a b d) :=
    h.of_frame (sendCommit_only (within rfl) OnlyChanges.refl : OnlyChanges [.dpx2, .outbox] t _) (by decide)
  have hb : ∀ {u : State}, Keeps s u → Keeps s u.backlogOver := fun {u} h =>
    h.of_frame (backlogOver_only (within rfl) OnlyChanges.refl : OnlyChanges [.sys, .hif, .dpx, .dpx2, .tly] u _) (by decide)
  unfold State.mirrorCommit
  exact Keeps.ite (updMem_keeps (hb hs) fun _ => rfl) (Keeps.ite h (updMem_keeps (Keeps.ite hs h) fun _ => rfl))

theorem stopDone_keeps (h : Keeps s t) : Keeps s t.stopDone := by
  have hl : Keeps s t.leaveSync :=
    h.of_frame (leaveSync_only (within rfl) OnlyChanges.refl : OnlyChanges [.sys, .hif, .dpx, .dpx2, .tly] t _) (by decide)
  have hf : ∀ {u : State}, Keeps s u → Keeps s u.finishTrans := fun {u} h => by
    unfold State.finishTrans
    split
    · exact (setMode_keeps h).of_frame (finishWaiting_only (within rfl) OnlyChanges.refl : OnlyChanges [.hif, .tly, .outbox] _ _)
        (by decide)
    · exact h
  unfold State.stopDone
  split
  · exact (hf hl).ite h
  · exact h

theorem afterIndex_keeps : Keeps s (afterIndex c s) := by
  have hm : Keeps s ((if s.fastest = some c then s.fastCommit else s).mirrorCommit c) :=
    mirrorCommit_keeps ((fastCommit_keeps Keeps.refl).ite Keeps.refl)
  exact stopDone_keeps ((hm.of_frame (answerReads_only (within rfl) OnlyChanges.refl : OnlyChanges [.hif, .tly, .outbox] _ _)
    (by decide)).of_frame (changeCommitted_only (within rfl) OnlyChanges.refl : OnlyChanges [.hif, .chg, .tly, .outbox] _ _) (by decide))

theorem afterIndex_frame : OnlyChanges [.sys, .hif, .cyc, .cle, .chg, .dpx, .dpx2, .mir, .saf, .tly, .mm, .boot, .outbox] s (afterIndex c s) :=
  stopDone_only (within rfl) (changeCommitted_only (within rfl) (answerReads_only (within rfl) (mirrorCommit_only (within rfl)
    (OnlyChanges.ite (fastCommit_only (within rfl) OnlyChanges.refl) OnlyChanges.refl))))

/-! The start of a cycle (R135). -/

/-- The cycle of number `n` is marked as started, with its boundary at `ns`. -/
def begun (c : Nat) (n : DWord) (ns : Nat) (s : State) : State :=
  (s.updMem c fun m => { m with comData := m.data }).updCls c fun x =>
    { x with active := true, late := false, cur := n, startNs := ns, cycOver := false, bodyDone := false
             first := x.firstDue && !x.changedDue, firstDue := false, changed := x.changedDue, changedDue := false
             latePend := none, preempted := true }

theorem begun_mem (n : DWord) (ns d : Nat) : published ((begun c n ns s).cmem d) = published (s.cmem d) :=
  (updMem_keeps Keeps.refl fun _ => rfl : Keeps s (s.updMem c fun m => { m with comData := m.data })).mem d

/-- The class `y` runs the cycle of number `n` that began at `ns`, with the counts of `x`. -/
structure Cycling (n : DWord) (ns : Nat) (x y : Cls) : Prop where
  active : y.active = true
  late : y.late = false
  cur : y.cur = n
  startNs : y.startNs = ns
  undecided : y.undecided = x.undecided
  lateCnt : y.lateCnt = x.lateCnt
  skipCnt : y.skipCnt = x.skipCnt

theorem Cycling.of_core {n : DWord} {ns : Nat} {x y z : Cls} (h : Cycling n ns x y) (e : core z = core y) : Cycling n ns x z :=
  ⟨(congrArg Cls.active e).trans h.active, (congrArg Cls.late e).trans h.late, (congrArg Cls.cur e).trans h.cur,
    (congrArg Cls.startNs e).trans h.startNs, (congrArg Cls.undecided e).trans h.undecided,
    (congrArg Cls.lateCnt e).trans h.lateCnt, (congrArg Cls.skipCnt e).trans h.skipCnt⟩

theorem Cycling.of_counts {n : DWord} {ns : Nat} {x y z : Cls} (h : Cycling n ns x y) (e : core x = core z) : Cycling n ns z y :=
  ⟨h.active, h.late, h.cur, h.startNs, h.undecided.trans (congrArg Cls.undecided e :), h.lateCnt.trans (congrArg Cls.lateCnt e :),
    h.skipCnt.trans (congrArg Cls.skipCnt e :)⟩

theorem begun_cycling (n : DWord) (ns : Nat) : Cycling n ns (s.cls c) ((begun c n ns s).cls c) := by
  rw [begun, cls_updCls]
  exact ⟨rfl, rfl, rfl, rfl, rfl, rfl, rfl⟩

/-- Steps 2 and 3 of Table 5.1: the latch, forced inputs and pending writes. -/
theorem latched_keeps (n : DWord) : Keeps s (((s.latch c n).applyForces c false).applyPending c) :=
  applyPending_keeps (applyForces_keeps (latch_keeps Keeps.refl))

theorem startCycle_eq (n : DWord) (ns : Nat) : s.startCycle c n ns =
    ((((begun c n ns s).latch c n).applyForces c false).applyPending c).updCls c fun x =>
      x.errorTasks (s.subFailed c || decide (0 < x.etArg)) := rfl

theorem updCls_cmem (f : Cls → Cls) (d : Nat) : (s.updCls c f).cmem d = s.cmem d := rfl

theorem startCycle_mem (n : DWord) (ns d : Nat) : published ((s.startCycle c n ns).cmem d) = published (s.cmem d) := by
  have h := (latched_keeps (s := begun c n ns s) (c := c) n).mem d
  rw [startCycle_eq, updCls_cmem, h, begun_mem]

theorem Cycling.errorTasks {n : DWord} {ns : Nat} {x y : Cls} (h : Cycling n ns x y) (stn : Bool) : Cycling n ns x (y.errorTasks stn) := by
  obtain ⟨h1, h2, h3, h4, h5, h6, h7⟩ := h
  exact ⟨h1, h2, h3, h4, h5, h6, h7⟩

theorem startCycle_cycling (n : DWord) (ns : Nat) : Cycling n ns (s.cls c) ((s.startCycle c n ns).cls c) := by
  have h := (begun_cycling (s := s) (c := c) n ns).of_core ((latched_keeps (s := begun c n ns s) (c := c) n).cls c)
  rw [startCycle_eq, cls_updCls]
  exact h.errorTasks _

end Sys2Proof.Proofs
end

section
/-! Output commits (O23): the index published, and the six cases of OUTPUT_COMMIT. -/

namespace Sys2Proof.Proofs

open Sys2Proof.Machine Sys2Proof.Safety Sys2Proof.Laws

variable {s t u : State} {c : Nat}

/-! The cycle that a commit lets start. -/

section

variable {p : Nat} {n : DWord} {ns : Nat}

theorem startOn_calm (hp : (s.ccfg c).pair = p) (h : Calm p s) :
    Keeps ((s.latchLoops c).startCycle c n ns) (s.startOn c n ns) ∧ Calm p (s.startOn c n ns) := by
  subst hp
  have k : OnlyChanges [.cyc, .net, .tly] s ((s.latchLoops c).startCycle c n ns) :=
    startCycle_only (within rfl) (latchLoops_only (within rfl) OnlyChanges.refl)
  have ht := schedule_turns (release := releaseDef) (Turns.refl (h.congr (k.same .lsp (by decide))))
  have kj : OnlyChanges [.hif, .dpx, .dpx2, .tly, .outbox] _ (s.startOn c n ns) := proofJudge_only (within rfl) OnlyChanges.refl
  exact ⟨ht.keeps.of_frame kj (by decide), ht.calm.congr (kj.same .lsp (by decide))⟩

theorem startOn_mem (hp : (s.ccfg c).pair = p) (h : Calm p s) (d : Nat) :
    published ((s.startOn c n ns).cmem d) = published (s.cmem d) := by
  rw [(startOn_calm hp h).1.mem d, startCycle_mem, (latchLoops_keeps Keeps.refl).mem d]

theorem startOn_cycling (hp : (s.ccfg c).pair = p) (h : Calm p s) : Cycling n ns (s.cls c) ((s.startOn c n ns).cls c) := by
  have hl := (latchLoops_keeps (c := c) (Keeps.refl (s := s))).cls c
  have hs := startCycle_cycling (s := s.latchLoops c) (c := c) n ns
  exact (hs.of_core ((startOn_calm hp h).1.cls c)).of_counts hl

/-- The class is no longer undecided about a boundary of this step (R134). -/
def decided (c : Nat) (s : State) : State := s.updCls c fun y => { y with undecided := false }

theorem decided_pair : ((decided c s).ccfg c).pair = (s.ccfg c).pair := rfl

theorem Calm.decided (h : Calm p s) : Calm p (decided c s) := h.congr rfl

theorem lateStart_calm (hp : (s.ccfg c).pair = p) (h : Calm p s) :
    (∀ d, published ((s.lateStart c).cmem d) = published (s.cmem d)) ∧ Calm p (s.lateStart c) := by
  unfold State.lateStart
  dsimp only
  split
  · split
    · exact ⟨startOn_mem hp h, (startOn_calm hp h).2⟩
    · exact ⟨fun _ => rfl, h⟩
  · split
    · exact ⟨startOn_mem (s := decided c s) hp h.decided, (startOn_calm (s := decided c s) hp h.decided).2⟩
    · exact ⟨fun _ => rfl, h⟩

end

/-! The commit publishes. -/

theorem ccfg_congr (h : t.cfg = s.cfg) (d : Nat) : t.ccfg d = s.ccfg d := by
  rw [State.ccfg, h]
  rfl

theorem afterIndex_indexed_frame :
    OnlyChanges [.sys, .hif, .cyc, .cle, .chg, .dpx, .dpx2, .mir, .saf, .tly, .mm, .boot, .outbox] s (afterIndex c (indexed c s)) :=
  OnlyChanges.trans (OnlyChanges.mono indexed_frame (within rfl)) afterIndex_frame

theorem writeIndex_mem (h : Calm (s.ccfg c).pair s) (d : Nat) :
    published ((s.writeIndex c).cmem d) = published ((indexed c s).cmem d) := by
  have hp := congrArg ClsCfg.pair (ccfg_congr (afterIndex_indexed_frame (s := s) (c := c).same .cfg (by decide)) c)
  obtain ⟨hm, hl⟩ := lateStart_calm hp (h.congr (afterIndex_indexed_frame.same .lsp (by decide)))
  have ht := schedule_turns (release := releaseDef) (Turns.refl hl)
  rw [writeIndex_eq, ht.keeps.mem d, hm, afterIndex_keeps.mem d]

/-- The write of the index of class `c` on a calm pair makes its working buffer the committed image, and no other image changes. -/
theorem writeIndex_publishes (h : Calm (s.ccfg c).pair s) :
    ((s.writeIndex c).cmem c).image = (s.cmem c).work ∧ ((s.writeIndex c).cmem c).idx = (!(s.cmem c).idx) ∧
      ∀ d, d ≠ c → ((s.writeIndex c).cmem d).image = (s.cmem d).image := by
  have hc := writeIndex_mem h c
  rw [indexed_cmem] at hc
  refine ⟨(image_congr hc).trans (image_publish ..), (idx_congr hc).trans (idx_publish ..), fun d hd => ?_⟩
  rw [image_congr (writeIndex_mem h d), indexed_cmem_ne hd]

/-! A commit that nothing else waits for. -/

/-- Nothing but a boundary of the same step waits for the commit of class `c`. -/
structure Plain (c : Nat) (s : State) : Prop where
  slower : s.fastest ≠ some c
  alone : s.insync = false
  unsynced : s.dpx.state ≠ .syncing
  staying : s.stopTo = none
  unchanged : s.chg.state = 0
  unasked : ∀ n, (s.ring n).infl = none

theorem Plain.of_frame {P : List Part} (h : Plain c s) (k : OnlyChanges P s t)
    (hP : P.all (fun p => !([Part.sys, .hif, .chg, .dpx, .cfg].contains p)) = true) : Plain c t := by
  have out := same_of_disjoint k hP
  have hsys : t.sys = s.sys := out .sys (by decide)
  have hhif : t.hif = s.hif := out .hif (by decide)
  have hchg : t.chg = s.chg := out .chg (by decide)
  have hdpx : t.dpx = s.dpx := out .dpx (by decide)
  have hcfg : t.cfg = s.cfg := out .cfg (by decide)
  obtain ⟨h1, h2, h3, h4, h5, h6⟩ := h
  refine ⟨?_, ?_, hdpx ▸ h3, ?_, hchg ▸ h5, fun n => ?_⟩
  · rwa [State.fastest, hcfg]
  · rwa [State.insync, hdpx]
  · rwa [State.stopTo, hsys]
  · rw [State.ring, hhif]
    exact h6 n

theorem mirrorCommit_of_plain (h : Plain c s) : s.mirrorCommit c = s.updMem c fun x => { x with dirty := [] } := by
  simp [State.mirrorCommit, h.alone, h.unsynced]

theorem answerReads_of_unasked (h : ∀ n, (s.ring n).infl = none) : s.answerReads c = s := by
  have hn : ∀ n, s.answerRead c n = s := fun n => by simp [State.answerRead, h n]
  unfold State.answerReads
  induction s.hif.rings.keys with
  | nil => rfl
  | cons n l ih => rw [List.foldl_cons, hn, ih]

/-- The changed lines of class `c` are marked no more. -/
def cleaned (c : Nat) (s : State) : State := s.updMem c fun x => { x with dirty := [] }

theorem afterIndex_of_plain (h : Plain c s) : afterIndex c s = cleaned c s := by
  have hp : Plain c (cleaned c s) :=
    h.of_frame (updMem_only (within rfl) OnlyChanges.refl : OnlyChanges [.cyc] s _) rfl
  rw [afterIndex, if_neg h.slower, mirrorCommit_of_plain h]
  show ((((cleaned c s).answerReads c).changeCommitted c).stopDone) = _
  rw [answerReads_of_unasked hp.unasked]
  simp [State.changeCommitted, State.stopDone, hp.unchanged, hp.staying]

/-- The state in which a plain commit decides what starts next. -/
def committed (c : Nat) (s : State) : State := cleaned c (indexed c s)

theorem committed_frame : OnlyChanges [.cyc, .tly] s (committed c s) :=
  updMem_only (within rfl) (updCls_only (within rfl) (updMem_only (within rfl) (overrunRec_only (within rfl) OnlyChanges.refl)))

theorem committed_cls : (committed c s).cls c =
    (s.cls c).commit ((s.tim.ns - (s.cls c).startNs) / 1000) (s.liveReg (Reg.cycClsSoft + 0x40 * c)).toNat := indexed_cls

theorem writeIndex_of_plain (h : Plain c s) :
    s.writeIndex c = ((committed c s).lateStart c).schedule releaseDef (s.ccfg c).pair := by
  rw [writeIndex_eq, afterIndex_of_plain (h.of_frame indexed_frame rfl)]
  rfl

/-! OUTPUT_COMMIT and what follows it. -/

theorem exec_outputCommit {c : Fin 8} {work : Work} {early : Bool} :
    exec (.outputCommit c work early) s = execOutputCommit c work early s := rfl

theorem outputCommit_eq {c : Fin 8} (hup : s.pairsUp = true) (hen : (s.ccfg c).en = true) (work : Work) (early : Bool) :
    exec (.outputCommit c work early) s = done s (s.commit c work early) :=
  exec_outputCommit.trans (if_pos (by simp [hup, hen]))

theorem settleState_cmem (d : Nat) : (settleState s t).cmem d = t.cmem d := by
  rw [State.cmem, settleState_frame.same .cyc (by decide)]
  rfl

theorem settleState_cls (d : Nat) : (settleState s t).cls d = t.cls d := by
  rw [State.cls, settleState_frame.same .cyc (by decide)]
  rfl

/-- On a settled state, a command that changes only the cyclic, lockstep and Tally parts: these stay, and events report it. -/
theorem done_cyclic {ps qs : List Part} (h : Settled s) (k : OnlyChanges ps s t) (w : Within ps [.cyc, .lsp, .tly])
    (q : Within (.hif :: .outbox :: ps) qs) : done s t = .next (settleState s t) ∧ (settleState s t).lsp = t.lsp ∧
      OnlyChanges qs s (settleState s t) ∧ EventsOnly s (settleState s t) := by
  have kc : OnlyChanges [.cyc, .lsp, .tly] s t := OnlyChanges.mono k w
  obtain ⟨u, hu, ho, he, hf, -⟩ := done_of h k (fun p hp => within (b := calm) rfl p (w p hp)) q
  obtain rfl : settleState s t = u := Host.Outcome.next.inj hu
  have hs : EventsOnly s t := by
    unfold EventsOnly
    rw [kc.same .hif (by decide)]
  exact ⟨hu, hf.same .lsp (by decide), ho, EventsOnly.trans hs he⟩

theorem aligned_congr (hs : t.sys = s.sys) (hc : t.cfg = s.cfg) : t.aligned c = s.aligned c := by
  have e : ∀ u : State, u.aligned c =
      (!u.sys.lone && decide ((u.cfg.cls.look c {}).cycUs = State.cfUs { s with cfg := u.cfg })) := fun _ => rfl
  rw [e, e, hs, hc]

theorem ended_frame {work : Work} (h : BodyEnds c work s) : OnlyChanges [.cyc, .lsp] s (ended c work s) := (ended_turns h).frame

theorem ended_ccfg {work : Work} (h : BodyEnds c work s) : (ended c work s).ccfg c = s.ccfg c :=
  ccfg_congr ((ended_frame h).same .cfg (by decide)) c

theorem ended_calm {work : Work} (h : BodyEnds c work s) : Calm ((ended c work s).ccfg c).pair (ended c work s) := by
  rw [ended_ccfg h]
  exact (ended_turns h).calm

theorem ended_aligned (work : Work) : (ended c work s).aligned c = (s.bodyEnd c work).aligned c :=
  have k : OnlyChanges [.cyc, .lsp] (s.bodyEnd c work) (ended c work s) := pairIdle_only (within rfl) OnlyChanges.refl
  aligned_congr (k.same .sys (by decide)) (k.same .cfg (by decide))

theorem commit_writes {work : Work} {early : Bool} (h : BodyEnds c work s)
    (he : early = false ∨ (s.bodyEnd c work).aligned c = false) : s.commit c work early = (ended c work s).writeIndex c := by
  rw [commit_of_bodyEnds h, State.endOrWrite, ended_aligned, if_neg]
  rcases he with he | he <;> simp [he]

/-- A body that ends when its index is due: its working buffer is published, and nothing else. -/
theorem commit_publishes {work : Work} {early : Bool} (h : BodyEnds c work s)
    (he : early = false ∨ (s.bodyEnd c work).aligned c = false) :
    ((s.commit c work early).cmem c).image = ((s.bodyEnd c work).cmem c).work ∧
      ((s.commit c work early).cmem c).idx = (!(s.cmem c).idx) ∧
      ∀ d, d ≠ c → ((s.commit c work early).cmem d).image = (s.cmem d).image := by
  rw [commit_writes h he]
  obtain ⟨hw, hi, ho⟩ := writeIndex_publishes (ended_calm h)
  have hk := (ended_turns h).keeps
  refine ⟨hw, by rw [hi, idx_congr (hk.mem c)], fun d hd => ?_⟩
  rw [ho d hd, image_congr (hk.mem d)]

/-! A plain commit. -/

theorem ended_plain {work : Work} (h : BodyEnds c work s) (hp : Plain c s) : Plain c (ended c work s) := hp.of_frame (ended_frame h) rfl

theorem commit_of_plain {work : Work} (h : BodyEnds c work s) (hp : Plain c s) : s.commit c work false =
    ((committed c (ended c work s)).lateStart c).schedule releaseDef (s.ccfg c).pair := by
  rw [commit_writes h (.inl rfl), writeIndex_of_plain (ended_plain h hp), ended_ccfg h]

theorem committed_of_ended_frame {work : Work} (h : BodyEnds c work s) : OnlyChanges [.cyc, .lsp, .tly] s (committed c (ended c work s)) :=
  OnlyChanges.trans (OnlyChanges.mono (ended_frame h) (within rfl)) (OnlyChanges.mono committed_frame (within rfl))

/-- The class after its plain commit, by the fields that the commit and the body leave. -/
structure CommittedCls (x y : Cls) (ns : Nat) : Prop where
  active : y.active = false
  late : y.late = false
  exec : y.exec = BitVec.ofNat 32 ((ns - x.startNs) / 1000)
  cycno : y.cycno = x.cycno
  latePend : y.latePend = x.latePend
  undecided : y.undecided = x.undecided
  running : y.running = x.running
  lateCnt : y.lateCnt = x.lateCnt
  skipCnt : y.skipCnt = x.skipCnt

theorem CommittedCls.of_core {x y z : Cls} {ns : Nat} (h : CommittedCls x y ns) (e : core z = core y) : CommittedCls x z ns :=
  ⟨(congrArg Cls.active e).trans h.active, (congrArg Cls.late e).trans h.late, (congrArg Cls.exec e).trans h.exec,
    (congrArg Cls.cycno e).trans h.cycno, (congrArg Cls.latePend e).trans h.latePend, (congrArg Cls.undecided e).trans h.undecided,
    (congrArg Cls.running e).trans h.running, (congrArg Cls.lateCnt e).trans h.lateCnt, (congrArg Cls.skipCnt e).trans h.skipCnt⟩

theorem committedCls_commit {x y : Cls} (ns soft : Nat) (e : core y = core x) :
    CommittedCls x (y.commit ((ns - y.startNs) / 1000) soft) ns := by
  rw [startNs_of_core e]
  exact ⟨rfl, rfl, rfl, (cycno_of_core e :), (congrArg Cls.latePend e :), (congrArg Cls.undecided e :),
    (congrArg Cls.running e :), (congrArg Cls.lateCnt e :), (congrArg Cls.skipCnt e :)⟩

theorem committed_of_ended_cls {work : Work} (h : BodyEnds c work s) :
    CommittedCls (s.cls c) ((committed c (ended c work s)).cls c) s.tim.ns := by
  have ht : (ended c work s).tim = s.tim := (ended_frame h).same .tim (by decide)
  rw [committed_cls, ht]
  exact committedCls_commit _ _ ((ended_turns h).keeps.cls c)

theorem lateStart_of_nothing (hl : (s.cls c).latePend = none) (hu : (s.cls c).undecided = false) : s.lateStart c = s := by
  simp [State.lateStart, hl, hu]

theorem lateStart_of_undecided (hl : (s.cls c).latePend = none) (hu : (s.cls c).undecided = true) (hr : (s.cls c).running = true)
    (hc : s.cycles = true) : s.lateStart c =
      (decided c s).startOn c (s.cls c).cycno s.tim.ns := by
  simp [State.lateStart, decided, hl, hu, hr, hc]

theorem cycles_of_frame (k : OnlyChanges [.cyc, .lsp, .tly] s t) : t.cycles = s.cycles := by
  have hsys : t.sys = s.sys := k.same .sys (by decide)
  have hpwr : t.pwr = s.pwr := k.same .pwr (by decide)
  have hdpx : t.dpx2 = s.dpx2 := k.same .dpx2 (by decide)
  have hboot : t.boot = s.boot := k.same .boot (by decide)
  simp only [State.cycles, State.executes, State.running, State.powered, hsys, hpwr, hdpx, hboot]

end Sys2Proof.Proofs
end

section
/-! The six cases of OUTPUT_COMMIT (O23). -/

namespace Sys2Proof.Proofs

open Sys2Proof.Machine Sys2Proof.Safety Sys2Proof.Laws

variable {s t u : State} {c : Nat} {work : Work}

/-- The state after a plain commit that starts no cycle. -/
def rested (c : Nat) (work : Work) (s : State) : State :=
  (committed c (ended c work s)).schedule releaseDef (s.ccfg c).pair

theorem committed_of_ended_turns (h : BodyEnds c work s) :
    Turns (s.ccfg c).pair (committed c (ended c work s)) (rested c work s) :=
  schedule_turns (Turns.refl ((ended_turns h).calm.congr (committed_frame.same .lsp (by decide))))

theorem rested_frame (h : BodyEnds c work s) : OnlyChanges [.cyc, .lsp, .tly] s (rested c work s) :=
  OnlyChanges.trans (committed_of_ended_frame h) (OnlyChanges.mono (committed_of_ended_turns h).frame (within rfl))

theorem rested_cls (h : BodyEnds c work s) : CommittedCls (s.cls c) ((rested c work s).cls c) s.tim.ns :=
  (committed_of_ended_cls h).of_core ((committed_of_ended_turns h).keeps.cls c)

theorem rested_log (h : BodyEnds c work s) : ((rested c work s).pair (s.ccfg c).pair).log = [] := by
  have e : (committed c (ended c work s)).pair (s.ccfg c).pair = (ended c work s).pair (s.ccfg c).pair := by
    rw [State.pair, committed_frame.same .lsp (by decide)]
    rfl
  exact schedule_log_of_idle (by rw [e]; exact ended_idle work) (by rw [e]; exact ended_log h)

theorem rested_published (h : BodyEnds c work s) : published ((rested c work s).cmem c) =
    published (((ended c work s).cmem c).publish ((ended c work s).cls c).cur (ended c work s).short) := by
  rw [(committed_of_ended_turns h).keeps.mem c, ← indexed_cmem]
  exact (updMem_keeps Keeps.refl fun _ => rfl : Keeps (indexed c (ended c work s)) (committed c (ended c work s))).mem c

theorem globPub_publish (n : DWord) (w : Word) (m : ClsMem) : (m.publish n w).globPub = m.glob := rfl

theorem commits_publish (n : DWord) (w : Word) (m : ClsMem) : (m.publish n w).commits = m.commits + 1 := by
  cases h : m.idx <;> simp [ClsMem.publish, h]

theorem commit_eq_rested (h : BodyEnds c work s) (hp : Plain c s) (hl : (s.cls c).latePend = none) (hu : (s.cls c).undecided = false) :
    s.commit c work false = rested c work s := by
  have hc := committed_of_ended_cls h
  rw [commit_of_plain h hp, lateStart_of_nothing (hc.latePend.trans hl) (hc.undecided.trans hu)]
  rfl

/-- A plain commit with no boundary waiting for it. -/
theorem outputCommit_rests {c : Fin 8} (hS : Settled s) (hup : s.pairsUp = true) (hen : (s.ccfg c).en = true) (h : BodyEnds c work s)
    (hp : Plain c s) (hl : (s.cls c).latePend = none) (hu : (s.cls c).undecided = false) :
    ∃ t, exec (.outputCommit c work false) s = .next t ∧
    (t.cmem c).image = ((s.bodyEnd c work).cmem c).work ∧ (t.cls c).active = false ∧ (t.cls c).late = false ∧
    (t.cls c).exec = BitVec.ofNat 32 ((s.tim.ns - (s.cls c).startNs) / 1000) ∧ (t.cls c).cycno = (s.cls c).cycno ∧
    (t.cmem c).globPub = ((s.bodyEnd c work).cmem c).glob ∧ (t.cmem c).commits = (s.cmem c).commits + 1 ∧
    (t.pair (s.ccfg c).pair).log = [] ∧ (∀ d, d ≠ c.val → (t.cmem d).image = (s.cmem d).image) ∧
    OnlyChanges [.cyc, .lsp, .tly, .hif, .outbox] s t ∧ EventsOnly s t := by
  obtain ⟨hd, hlsp, hf, he⟩ := done_cyclic (qs := [.cyc, .lsp, .tly, .hif, .outbox]) hS (rested_frame h) (within rfl) (within rfl)
  obtain ⟨himg, -, hother⟩ := commit_publishes (early := false) h (.inl rfl)
  have hpub := rested_published h
  rw [commit_eq_rested h hp hl hu] at himg hother
  refine ⟨settleState s (rested c work s), ?_, ?_, ?_, ?_, ?_, ?_, ?_, ?_, ?_, fun d hd => ?_, hf, he⟩
  · rw [outputCommit_eq hup hen, commit_eq_rested h hp hl hu, hd]
  · rw [settleState_cmem, himg]
  · rw [settleState_cls, (rested_cls h).active]
  · rw [settleState_cls, (rested_cls h).late]
  · rw [settleState_cls, (rested_cls h).exec]
  · rw [settleState_cls, (rested_cls h).cycno]
  · rw [settleState_cmem, globPub_congr hpub, globPub_publish, ended_cmem]
  · rw [settleState_cmem, commits_congr hpub, commits_publish, commits_congr ((ended_turns h).keeps.mem c)]
  · rw [State.pair, hlsp]
    exact rested_log h
  · rw [settleState_cmem, hother d hd]

/-- A plain commit that counts before a boundary of the same step (R134): the next cycle starts at once. -/
theorem commit_starts (h : BodyEnds c work s) (hp : Plain c s) (hl : (s.cls c).latePend = none) (hu : (s.cls c).undecided = true)
    (hr : (s.cls c).running = true) (hy : s.cycles = true) :
    Cycling (s.cls c).cycno s.tim.ns { s.cls c with undecided := false } ((s.commit c work false).cls c) := by
  have hc := committed_of_ended_cls h
  have hk := committed_of_ended_frame h
  have hp' : ((decided c (committed c (ended c work s))).ccfg c).pair = (s.ccfg c).pair := by
    rw [decided_pair, ccfg_congr (hk.same .cfg (by decide))]
  have hq : Calm (s.ccfg c).pair (decided c (committed c (ended c work s))) :=
    ((ended_turns h).calm.congr (committed_frame.same .lsp (by decide))).decided
  have hturn := schedule_turns (release := releaseDef)
    (Turns.refl (startOn_calm (n := (s.cls c).cycno) (ns := s.tim.ns) hp' hq).2)
  have hstart := startOn_cycling (n := (s.cls c).cycno) (ns := s.tim.ns) hp' hq
  rw [decided, cls_updCls] at hstart
  rw [commit_of_plain h hp, lateStart_of_undecided (hc.latePend.trans hl) (hc.undecided.trans hu) (hc.running.trans hr)
    ((cycles_of_frame hk).trans hy), hc.cycno, hk.same .tim (by decide)]
  obtain ⟨h1, h2, h3, h4, h5, h6, h7⟩ := hstart.of_core (hturn.keeps.cls c)
  exact ⟨h1, h2, h3, h4, h5, h6.trans hc.lateCnt, h7.trans hc.skipCnt⟩

/-! A body that ends before the aligned time. -/

/-- The body of class `c` has ended and its index waits for the aligned time. -/
def unwritten (c : Nat) (work : Work) (s : State) : State := (ended c work s).updCls c fun x => { x with bodyDone := true }

/-- The same once the pair has turned to another class. -/
def waiting (c : Nat) (work : Work) (s : State) : State := (unwritten c work s).schedule releaseDef (s.ccfg c).pair

theorem unwritten_frame (h : BodyEnds c work s) : OnlyChanges [.cyc, .lsp] s (unwritten c work s) :=
  updCls_only (within rfl) (ended_frame h)

theorem unwritten_cmem (d : Nat) : (unwritten c work s).cmem d = (ended c work s).cmem d := rfl

theorem unwritten_cls : (unwritten c work s).cls c = { (ended c work s).cls c with bodyDone := true } := cls_updCls ..

theorem commit_early (h : BodyEnds c work s) (ha : s.aligned c = true) : s.commit c work true = waiting c work s := by
  have hb : (ended c work s).aligned c = true :=
    (aligned_congr ((ended_frame h).same .sys (by decide)) ((ended_frame h).same .cfg (by decide))).trans ha
  rw [commit_of_bodyEnds h, State.endOrWrite, hb, if_pos (by rfl), ended_ccfg h]
  rfl

theorem waiting_turns (h : BodyEnds c work s) :
    Turns (s.ccfg c).pair (unwritten c work s) (waiting c work s) :=
  schedule_turns (Turns.refl ((ended_turns h).calm.congr rfl))

theorem waiting_frame (h : BodyEnds c work s) : OnlyChanges [.cyc, .lsp] s (waiting c work s) :=
  OnlyChanges.trans (unwritten_frame h) (waiting_turns h).frame

theorem waiting_cls (h : BodyEnds c work s) : ((waiting c work s).cls c).active = true ∧ ((waiting c work s).cls c).bodyDone = true := by
  have hw := (waiting_turns h).keeps.cls c
  rw [unwritten_cls] at hw
  have ha : ((ended c work s).cls c).active = true := (active_of_core ((ended_turns h).keeps.cls c)).trans h.active
  exact ⟨(active_of_core hw).trans ha, bodyDone_of_core hw⟩

theorem waiting_image (h : BodyEnds c work s) (d : Nat) : ((waiting c work s).cmem d).image = (s.cmem d).image := by
  rw [image_congr ((waiting_turns h).keeps.mem d), unwritten_cmem, image_congr ((ended_turns h).keeps.mem d)]

theorem outputCommit_waits {c : Fin 8} (hS : Settled s) (hup : s.pairsUp = true) (hen : (s.ccfg c).en = true) (h : BodyEnds c work s)
    (ha : s.aligned c = true) : ∃ t, exec (.outputCommit c work true) s = .next t ∧ (t.cls c).active = true ∧
    (t.cls c).bodyDone = true ∧ (∀ d, (t.cmem d).image = (s.cmem d).image) ∧ OnlyChanges [.cyc, .lsp, .hif, .outbox] s t ∧
    EventsOnly s t := by
  obtain ⟨hd, -, hf, he⟩ := done_cyclic (qs := [.cyc, .lsp, .hif, .outbox]) hS (waiting_frame h) (within rfl) (within rfl)
  refine ⟨settleState s (waiting c work s), ?_, ?_, ?_, fun d => ?_, hf, he⟩
  · rw [outputCommit_eq hup hen, commit_early h ha, hd]
  · rw [settleState_cls, (waiting_cls h).1]
  · rw [settleState_cls, (waiting_cls h).2]
  · rw [settleState_cmem, waiting_image h]

/-! A broken pair (spec/06_lockstep_and_darn.md R174, R175). -/

theorem privStore_of_broken {p : Nat} (hb : (s.pair p).broken = true) (x : PStore) : (s.privStore p c x).pair p = s.pair p := by
  unfold State.privStore
  dsimp only
  rw [if_pos hb, updMem_pair]

theorem defStore_of_broken {p : Nat} (hb : (s.pair p).broken = true) (d : DefSt) :
    (s.defStore p d).pair p = { s.pair p with dbgDropped := (s.pair p).dbgDropped + 1 } := by
  unfold State.defStore
  dsimp only
  rw [if_pos hb, pair_updPair]

theorem foldl_privStore_of_broken {p : Nat} (l : List PStore) (hb : (s.pair p).broken = true) :
    (l.foldl (fun (u : State) x => u.privStore p c x) s).pair p = s.pair p := by
  induction l generalizing s with
  | nil => rfl
  | cons x l ih =>
    have e := privStore_of_broken (c := c) hb x
    rw [List.foldl_cons, ih (by rw [e, hb]), e]

theorem foldl_defStore_of_broken {p : Nat} (l : List DefSt) (hb : (s.pair p).broken = true) :
    (l.foldl (fun (u : State) d => u.defStore p d) s).pair p =
      { s.pair p with dbgDropped := (s.pair p).dbgDropped + BitVec.ofNat 16 l.length } := by
  induction l generalizing s with
  | nil => simp
  | cons d l ih =>
    have e := defStore_of_broken hb d
    rw [List.foldl_cons, ih (by rw [e, hb]), e]
    simp only [List.length_cons, BitVec.ofNat_add, Pair.mk.injEq, true_and, and_true]
    rw [BitVec.add_assoc, BitVec.add_comm 1]
    rfl

theorem runWork_of_broken {p : Nat} (hb : (s.pair p).broken = true) : (s.runWork p c work).pair p =
    { s.pair p with dbgDropped := (s.pair p).dbgDropped + BitVec.ofNat 16 work.defs.length } := by
  have hp := foldl_privStore_of_broken (c := c) work.priv hb
  have hd := foldl_defStore_of_broken work.defs (by rw [hp]; exact hb)
  rw [hp] at hd
  exact hd

theorem commit_of_broken (ha : (s.cls c).active = true) (hd : (s.cls c).bodyDone = false) (hr : (s.pair (s.ccfg c).pair).runs = true)
    (hc : (s.pair (s.ccfg c).pair).cls = c) (hb : (s.pair (s.ccfg c).pair).broken = true) (early : Bool) :
    s.commit c work early = s.brokenEnd c (s.ccfg c).pair work := by
  simp [State.commit, ha, hd, hr, hc, hb]

/-- The stores of a broken pair are made or discarded, and the deferred ones are counted with the write of the index. -/
def discarded (c p : Nat) (work : Work) (s : State) : State :=
  ((s.runWork p c work).overrunRec c).updPair p fun x =>
    { x with defer := [], dbgDropped := x.dbgDropped + BitVec.ofNat 16 (x.defer.length + 1) }

theorem brokenEnd_eq (p : Nat) : s.brokenEnd c p work = ((discarded c p work s).updCls c fun x =>
    { x with active := false, bodyDone := false, cycOver := false }).pairIdle p := rfl

theorem discarded_keeps (p : Nat) : Keeps s (discarded c p work s) := by
  have h : Keeps s (s.runWork p c work) := runWork_keeps Keeps.refl
  exact updPair_keeps (h.of_frame overrunRec_frame (by decide))

theorem pairIdle_cls (p d : Nat) : (s.pairIdle p).cls d = s.cls d := rfl

theorem pairIdle_cmem (p d : Nat) : (s.pairIdle p).cmem d = s.cmem d := rfl

theorem brokenEnd_image (p d : Nat) : ((s.brokenEnd c p work).cmem d).image = (s.cmem d).image := by
  rw [brokenEnd_eq, pairIdle_cmem, updCls_cmem, image_congr ((discarded_keeps p).mem d)]

theorem brokenEnd_cls (p : Nat) :
    ((s.brokenEnd c p work).cls c).active = false ∧ ((s.brokenEnd c p work).cls c).cycno = (s.cls c).cycno := by
  have hk := (discarded_keeps (s := s) (c := c) (work := work) p).cls c
  rw [brokenEnd_eq, pairIdle_cls, cls_updCls]
  exact ⟨rfl, (cycno_of_core hk :)⟩

theorem updCls_pair (f : Cls → Cls) (p : Nat) : (s.updCls c f).pair p = s.pair p := rfl

theorem brokenEnd_dropped {p : Nat} (hb : (s.pair p).broken = true) (hd : (s.pair p).defer = []) :
    ((s.brokenEnd c p work).pair p).dbgDropped = (s.pair p).dbgDropped + BitVec.ofNat 16 work.defs.length + 1 := by
  have e : ((s.runWork p c work).overrunRec c).pair p = (s.runWork p c work).pair p := by
    rw [State.pair, overrunRec_frame.same .lsp (by decide)]
    rfl
  rw [brokenEnd_eq, pairIdle_dropped, updCls_pair, discarded, pair_updPair, e, runWork_of_broken hb, hd]
  rfl

theorem outputCommit_broken {c : Fin 8} (hS : Settled s) (hup : s.pairsUp = true) (hen : (s.ccfg c).en = true)
    (ha : (s.cls c).active = true) (hn : (s.cls c).bodyDone = false) (hr : (s.pair (s.ccfg c).pair).runs = true)
    (hc : (s.pair (s.ccfg c).pair).cls = c.val) (hb : (s.pair (s.ccfg c).pair).broken = true)
    (hdef : (s.pair (s.ccfg c).pair).defer = []) (early : Bool) :
    ∃ t, exec (.outputCommit c work early) s = .next t ∧ (t.cls c).active = false ∧ (t.cls c).cycno = (s.cls c).cycno ∧
    (∀ d, (t.cmem d).image = (s.cmem d).image) ∧ (t.pair (s.ccfg c).pair).dbgDropped =
      (s.pair (s.ccfg c).pair).dbgDropped + BitVec.ofNat 16 work.defs.length + 1 ∧ OnlyChanges [.cyc, .lsp, .tly, .hif, .outbox] s t ∧
    EventsOnly s t := by
  have k : OnlyChanges [.cyc, .lsp, .tly] s (s.brokenEnd c (s.ccfg c).pair work) := brokenEnd_only (within rfl) OnlyChanges.refl
  obtain ⟨hd, hlsp, hf, he⟩ := done_cyclic (qs := [.cyc, .lsp, .tly, .hif, .outbox]) hS k (within rfl) (within rfl)
  refine ⟨settleState s (s.brokenEnd c (s.ccfg c).pair work), ?_, ?_, ?_, fun d => ?_, ?_, hf, he⟩
  · rw [outputCommit_eq hup hen, commit_of_broken ha hn hr hc hb, hd]
  · rw [settleState_cls, (brokenEnd_cls _).1]
  · rw [settleState_cls, (brokenEnd_cls _).2]
  · rw [settleState_cmem, brokenEnd_image]
  · rw [State.pair, hlsp]
    exact brokenEnd_dropped hb hdef

/-- Settles O23: a due index publishes (`commit_publishes`, `writeIndex_publishes`); what else a plain commit, one that a boundary waits
for, an early end and a broken pair leave. -/
theorem commitsPublishTheWorkingBuffer : Obligations.CommitsPublishTheWorkingBuffer := by
  refine ⟨?_, ?_, ?_, ?_, ?_, ?_⟩
  · intro s c work early hup hen ha hn hr hc hb hw hd hs he
    obtain ⟨himg, hidx, hother⟩ := commit_publishes ⟨ha, hn, hr, hc, hb, hw, hd, hs⟩ he
    refine ⟨_, outputCommit_eq hup hen work early, ?_, ?_, fun d hd => ?_⟩
    · rw [settleState_cmem, himg]
    · rw [settleState_cmem, hidx]
    · rw [settleState_cmem, hother d hd]
  · intro s c work hS hup hen ha hn hr hc hb hw hd hs hfast hin hsyn hstop hchg _ hl hu hinfl
    exact outputCommit_rests hS hup hen ⟨ha, hn, hr, hc, hb, hw, hd, hs⟩ ⟨hfast, hin, hsyn, hstop, hchg, hinfl⟩ hl hu
  · intro s c work _ hup hen ha hn hr hc hb hw hd hs hfast hin hsyn hstop hchg _ hl hu hrun hcyc hinfl
    have h : BodyEnds c work s := ⟨ha, hn, hr, hc, hb, hw, hd, hs⟩
    obtain ⟨h1, h2, h3, h4, h5, h6, h7⟩ := commit_starts h ⟨hfast, hin, hsyn, hstop, hchg, hinfl⟩ hl hu hrun hcyc
    refine ⟨_, outputCommit_eq hup hen work false, ?_, ?_⟩
    · rw [settleState_cmem, (commit_publishes (early := false) h (.inl rfl)).1]
    · rw [settleState_cls]
      exact ⟨h1, h5, h2, h3, h4, h6, h7⟩
  · intro s c work hS hup hen ha hn hr hc hb hw hd hs hal
    exact outputCommit_waits hS hup hen ⟨ha, hn, hr, hc, hb, hw, hd, hs⟩ hal
  · intro s c work hup hen ha hn hd hs
    obtain ⟨himg, -, hother⟩ := writeIndex_publishes (calm_of_not_stalled hd hs)
    refine ⟨_, outputCommit_eq hup hen work false, ?_, fun d hd => ?_⟩
    · rw [settleState_cmem, commit_of_bodyDone ha hn, himg]
    · rw [settleState_cmem, commit_of_bodyDone ha hn, hother d hd]
  · intro s c work early hS hup hen ha hn hr hc hb hd
    exact outputCommit_broken hS hup hen ha hn hr hc hb hd early

end Sys2Proof.Proofs
end

section
/-! Unrecoverable faults (O4): what FAULT-HALT and the lock-out set, and that an unrecoverable fault leads there. -/

namespace Sys2Proof.Proofs

open Sys2Proof.Machine Sys2Proof.Safety Sys2Proof.Laws

variable {s t u : State}

/-! The lock-out (spec/14_safety.md R386). -/

theorem soOff_saf : s.soOff.saf =
    { s.saf with so := s.saf.so.mapV fun o => { o with hs := false, ls := false, wait := false, rearmSel := false, rearmSp := false } } := by
  have k : ∀ (l : List Nat) (v : State), OnlyChanges [.outbox] v (l.foldl (fun (t : State) n => t.put (.so n false false)) v) :=
    fun l v => OnlyChanges.foldl OnlyChanges.refl fun _ _ h => put_only (within rfl) h
  exact (k _ _).same .saf (by decide)

theorem safetyOff_soOff : SafetyOff s.soOff := by
  intro n
  rw [soOff_saf]
  exact ⟨by rw [look_mapV rfl], by rw [look_mapV rfl]⟩

theorem safetyOff_congr (h : SafetyOff s) (e : t.saf = s.saf) : SafetyOff t := by
  unfold SafetyOff
  rw [e]
  exact h

/-- Both latches set and every safety output open. -/
structure LockedOut (s : State) : Prop where
  sel : s.saf.sel.set = true
  sp : s.saf.sp.set = true
  off : SafetyOff s

theorem LockedOut.congr (h : LockedOut s) (e : t.saf = s.saf) : LockedOut t :=
  ⟨by rw [e]; exact h.sel, by rw [e]; exact h.sp, safetyOff_congr h.off e⟩

theorem lockedOut_lockout (c kind index : Nat) (bySp chb : Bool) : LockedOut (s.lockout c kind index bySp chb) := by
  have hlog : ∀ (v : State) (code : Nat) (d : List Byte), (v.log code 6 d).saf = v.saf := fun v code d =>
    (log_only (within rfl) OnlyChanges.refl : OnlyChanges [.tly] v _).same .saf (by decide)
  have hoff : ∀ f : Saf, f.sel.set = true → f.sp.set = true → LockedOut ({ s with saf := f }).soOff := fun f h1 h2 =>
    ⟨by rw [soOff_saf]; exact h1, by rw [soOff_saf]; exact h2, safetyOff_soOff⟩
  unfold State.lockout
  dsimp only
  split
  · exact (hoff _ rfl rfl).congr (hlog ..)
  · exact hoff _ rfl rfl

/-! FAULT-HALT (spec/02_modes_and_startup.md R30, R48). -/

theorem setMode_sys (m : Mode) (cause : Nat) : (s.setMode m cause).sys = { s.sys with
    mode := m, trans := none, from_ := s.sys.mode, primary := s.roleIn m
    haltCause := if m = Mode.faultHalt then s.sys.haltCause else 0 } := by
  have hev : ∀ (v : State) (c : BitVec 16) (k : Nat) (w : Word) (d : List Byte), (v.event c k w d).sys = v.sys := fun v c k w d =>
    (event_only (within rfl) OnlyChanges.refl : OnlyChanges [.hif, .outbox] v _).same .sys (by decide)
  have hlog : ∀ (v : State) (code k : Nat) (d : List Byte), (v.log code k d).sys = v.sys := fun v code k d =>
    (log_only (within rfl) OnlyChanges.refl : OnlyChanges [.tly] v _).same .sys (by decide)
  unfold State.setMode
  dsimp only
  rw [hev, hlog]
  split <;> split <;> rfl

/-- The module is in FAULT-HALT with halt cause `cause` and without the role, locked out. -/
structure Halted (cause : BitVec 8) (s : State) : Prop where
  mode : s.sys.mode = .faultHalt
  primary : s.sys.primary = false
  cause : s.sys.haltCause = cause
  locked : LockedOut s

theorem halted_enterHalt (cause : Nat) : Halted (BitVec.ofNat 8 cause) (s.enterHalt cause) := by
  have hsys : (s.enterHalt cause).sys = _ := 
    ((lockout_only (within rfl) OnlyChanges.refl : OnlyChanges [.saf, .tly, .outbox] _ (s.enterHalt cause)).same .sys (by decide)).trans
      (setMode_sys ..)
  exact ⟨by rw [hsys], by rw [hsys]; rfl, by rw [hsys]; rfl, lockedOut_lockout ..⟩

/-! The end of INSYNC (spec/09_duplex_pair.md R242). -/

theorem afterLoss_ne_insync : s.afterLoss ≠ .insync := by
  unfold State.afterLoss
  split
  · decide
  · split <;> decide

theorem setSync_state (st : SyncState) (reason cause : Nat) : (s.setSync st reason cause).dpx.state = st := by
  unfold State.setSync
  split
  · assumption
  · exact congrArg Dpx.state ((log_only (within rfl) OnlyChanges.refl : OnlyChanges [.tly] _ _).same .dpx (by decide))

theorem endInsync_state (cause : Nat) : (s.endInsync cause).dpx.state ≠ .insync := by
  unfold State.endInsync
  split
  · simpa [State.insync] using ‹(!s.insync) = true›
  · have h : (s.setSync s.afterLoss 0 cause).dpx.state ≠ .insync := by
      rw [setSync_state]
      exact afterLoss_ne_insync
    dsimp only
    split <;> exact h

/-! An unrecoverable fault (spec/01_architecture.md R11, spec/02_modes_and_startup.md R48). -/

/-- The parts that the halt itself changes. -/
def halting : List Part := [.sys, .hif, .cyc, .lsp, .dpx, .dpx2, .saf, .tly, .mm, .outbox]

/-- The parts that an unrecoverable fault changes, with what follows it. -/
def faulting : List Part := [.sys, .hif, .cyc, .lsp, .dpx, .dpx2, .can, .canq, .fio, .saf, .tly, .mm, .outbox]

/-- The conditions under which a fault halts the module: it runs, outside a settle window, and has not halted yet. -/
structure MayHalt (s : State) : Prop where
  running : s.running = true
  settled : s.settling = false
  mode : s.sys.mode ≠ .faultHalt

theorem MayHalt.after {P : List Part} (h : MayHalt s) (k : OnlyChanges P s u)
    (hP : P.all (fun p => !([Part.sys, .boot, .dpx].contains p)) = true) (hd : u.pwr.shutdown = s.pwr.shutdown) :
    MayHalt u ∧ u.insync = s.insync := by
  have out := same_of_disjoint k hP
  have hsys : u.sys = s.sys := out .sys (by decide)
  have hboot : u.boot = s.boot := out .boot (by decide)
  have hdpx : u.dpx = s.dpx := out .dpx (by decide)
  have hin : u.insync = s.insync := by rw [State.insync, hdpx]; rfl
  refine ⟨⟨?_, ?_, hsys ▸ h.mode⟩, hin⟩
  · rw [← h.running, State.running, State.powered, hsys, hd]
    rfl
  · rw [← h.settled, State.settling, hin, hboot]
    rfl

theorem unrecoverable_eq (h : MayHalt s) (alone : Nat) : s.unrecoverable alone =
    if s.insync then (((s.notice 1 0 s.lastCommit 0).stopHeartbeats).endInsync 6).enterHalt 7 else s.enterHalt alone := by
  obtain ⟨hp, hd⟩ : s.powered = true ∧ s.pwr.shutdown = false := by simpa [State.running] using h.running
  simp [State.unrecoverable, hp, hd, h.settled, h.mode]

theorem enterHalt_dpx (cause : Nat) : (s.enterHalt cause).dpx = s.dpx :=
  (enterHalt_only (within rfl) OnlyChanges.refl :
    OnlyChanges [.sys, .hif, .cyc, .lsp, .saf, .tly, .mm, .outbox] s _).same .dpx (by decide)

/-- An unrecoverable fault halts the module, ends INSYNC, and changes nothing else. -/
theorem unrecoverable_halts (h : MayHalt s) (alone : Nat) :
    Halted (if s.insync then 7 else BitVec.ofNat 8 alone) (s.unrecoverable alone) ∧
      (s.unrecoverable alone).dpx.state ≠ .insync ∧ OnlyChanges halting s (s.unrecoverable alone) := by
  rw [unrecoverable_eq h]
  split
  · refine ⟨halted_enterHalt 7, ?_, enterHalt_only (within rfl) (endInsync_only (within rfl)
      (stopHeartbeats_only (within rfl) (notice_only (within rfl) OnlyChanges.refl)))⟩
    rw [enterHalt_dpx]
    exact endInsync_state 6
  · refine ⟨halted_enterHalt alone, ?_, enterHalt_only (within rfl) OnlyChanges.refl⟩
    rw [enterHalt_dpx]
    simpa [State.insync] using ‹¬s.insync = true›

theorem Halted.settle {cause : BitVec 8} (h : Halted cause t) : Halted cause (settleState s t) := by
  have hsys : (settleState s t).sys = _ := settleState_sys
  exact ⟨by rw [hsys]; exact h.mode, by rw [hsys]; exact h.primary, by rw [hsys]; exact h.cause,
    h.locked.congr (settleState_frame.same .saf (by decide))⟩

/-- A command that finds an unrecoverable fault after it has changed `s` to `u`. -/
theorem done_unrecoverable {P : List Part} (h : MayHalt s) (k : OnlyChanges P s u)
    (hP : P.all (fun p => !([Part.sys, .boot, .dpx].contains p)) = true) (hd : u.pwr.shutdown = s.pwr.shutdown) (alone : Nat) :
    ∃ t, done s (u.unrecoverable alone) = .next t ∧ Halted (if s.insync then 7 else BitVec.ofNat 8 alone) t ∧
      t.dpx.state ≠ .insync ∧ t.pwr = u.pwr ∧ OnlyChanges faulting u t := by
  obtain ⟨hu, hin⟩ := h.after k hP hd
  obtain ⟨hh, hs, ho⟩ := unrecoverable_halts hu alone
  have hf : OnlyChanges settling (u.unrecoverable alone) (settleState s (u.unrecoverable alone)) := settleState_frame
  refine ⟨_, rfl, hin ▸ hh.settle, ?_, ?_, ?_⟩
  · rw [hf.same .dpx (by decide)]
    exact hs
  · exact (hf.same .pwr (by decide)).trans (ho.same .pwr (by decide))
  · exact OnlyChanges.trans (OnlyChanges.mono ho (within rfl)) (OnlyChanges.mono hf (within rfl))

/-! The five commands. -/

theorem exec_railFault (rail : Fin 7) (mv : Word) : exec (.railFault rail mv) s = execRailFault rail mv s := rfl
theorem exec_overtemperature : exec .overtemperature s = execOvertemperature s := rfl
theorem exec_hkWatchdogExpiry : exec .hkWatchdogExpiry s = execHkWatchdogExpiry s := rfl
theorem exec_engineWatchdogExpiry (e : Fin 8) : exec (.engineWatchdogExpiry e) s = execEngineWatchdogExpiry e s := rfl
theorem exec_clockFault : exec .clockFault s = execClockFault s := rfl

/-- The supply block with rail `c` outside its window (R474). -/
def railOut (c : Fin 7) (p : Pwr) : Pwr :=
  { p with rails := p.rails ||| (1#7 <<< c.val), railValid := true
           railFirst := if p.railValid then p.railFirst else BitVec.ofNat 3 c.val }

theorem railOut_shows (c : Fin 7) (p : Pwr) : (railOut c p).rails.getLsbD c.val = true := by
  simp [railOut]

/-- What a rail fault leaves before the module halts: the rail and its record, and the low-side switches for VSEL. -/
def railSeen (c : Fin 7) (mv : Word) (s : State) : State :=
  let t := (s.updPwr (railOut c)).log 0x0E02 5 ([BitVec.ofNat 8 c.val, 0, 0, 0] ++ le 4 mv.toNat)
  if c.val = 2 then t.lowSidesOpen else t

theorem railSeen_frame (c : Fin 7) (mv : Word) : OnlyChanges [.tly, .saf] (s.updPwr (railOut c)) (railSeen c mv s) :=
  OnlyChanges.ite (lowSidesOpen_only (within rfl) (log_only (within rfl) OnlyChanges.refl)) (log_only (within rfl) OnlyChanges.refl)

theorem railFault_halts (rail : Fin 7) (mv : Word) (h : MayHalt s) :
    ∃ t, exec (.railFault rail mv) s = .next t ∧ Halted 7 t ∧ t.dpx.state ≠ .insync ∧ t.pwr.rails.getLsbD rail.val = true ∧
    OnlyChanges (.pwr :: faulting) s t := by
  have hp : (railSeen rail mv s).pwr = railOut rail s.pwr := (railSeen_frame rail mv).same .pwr (by decide)
  have k : OnlyChanges [.pwr, .tly, .saf] s (railSeen rail mv s) :=
    OnlyChanges.trans (updPwr_only (within rfl) OnlyChanges.refl) (OnlyChanges.mono (railSeen_frame rail mv) (within rfl))
  have hx : exec (.railFault rail mv) s = done s ((railSeen rail mv s).unrecoverable 7) :=
    (exec_railFault rail mv).trans (if_pos h.running)
  obtain ⟨t, ht, hh, hi, hpw, ho⟩ := done_unrecoverable h k rfl (by rw [hp]; rfl) 7
  refine ⟨t, hx.trans ht, by simpa using hh, hi, ?_,
    OnlyChanges.trans (OnlyChanges.mono k (within rfl)) (OnlyChanges.mono ho (within rfl))⟩
  rw [hpw, hp]
  exact railOut_shows ..

theorem overtemperature_halts (h : MayHalt s) (hot : 100 ≤ s.pwr.hotRun) :
    ∃ t, exec .overtemperature s = .next t ∧ Halted 7 t ∧ t.dpx.state ≠ .insync ∧ OnlyChanges faulting s t := by
  have hx : exec .overtemperature s = done s (s.unrecoverable 7) :=
    exec_overtemperature.trans (if_pos (by simp [h.running, hot]))
  obtain ⟨t, ht, hh, hi, -, ho⟩ := done_unrecoverable h (OnlyChanges.refl : OnlyChanges [] s s) rfl rfl 7
  exact ⟨t, hx.trans ht, by simpa using hh, hi, ho⟩

theorem hkWatchdogExpiry_halts (h : MayHalt s) : ∃ t, exec .hkWatchdogExpiry s = .next t ∧
    Halted (if s.insync then 7 else 3) t ∧ t.dpx.state ≠ .insync ∧ t.pwr = { s.pwr with hkWd := true } ∧
    OnlyChanges (.pwr :: faulting) s t := by
  have kl : OnlyChanges [.tly] (s.updPwr fun p => { p with hkWd := true })
      ((s.updPwr fun p => { p with hkWd := true }).log 0x1004 5 [BitVec.ofNat 8 8]) := log_only (within rfl) OnlyChanges.refl
  have hp := kl.same .pwr (by decide)
  have k : OnlyChanges [.pwr, .tly] s ((s.updPwr fun p => { p with hkWd := true }).log 0x1004 5 [BitVec.ofNat 8 8]) :=
    OnlyChanges.trans (updPwr_only (within rfl) OnlyChanges.refl) (OnlyChanges.mono kl (within rfl))
  have hx : exec .hkWatchdogExpiry s = done s ((s.updPwr fun p => { p with hkWd := true }).watchdog 8) :=
    exec_hkWatchdogExpiry.trans (if_pos h.running)
  obtain ⟨t, ht, hh, hi, hpw, ho⟩ := done_unrecoverable h k rfl (by rw [hp]; rfl) 3
  exact ⟨t, hx.trans ht, hh, hi, hpw.trans hp, OnlyChanges.trans (OnlyChanges.mono k (within rfl)) (OnlyChanges.mono ho (within rfl))⟩

theorem engineWatchdogExpiry_halts (e : Fin 8) (h : MayHalt s) : ∃ t, exec (.engineWatchdogExpiry e) s = .next t ∧
    Halted (if s.insync then 7 else 3) t ∧ t.dpx.state ≠ .insync ∧ OnlyChanges (.cle :: .net :: faulting) s t := by
  have k : OnlyChanges [.cle, .net, .saf, .fio, .tly] s ((s.engineDead e.val).log 0x1004 5 [BitVec.ofNat 8 e.val]) :=
    log_only (within rfl) (engineDead_only (within rfl) OnlyChanges.refl)
  have hx : exec (.engineWatchdogExpiry e) s = done s ((s.engineDead e.val).watchdog e.val) :=
    (exec_engineWatchdogExpiry e).trans (if_pos h.running)
  obtain ⟨t, ht, hh, hi, -, ho⟩ := done_unrecoverable h k rfl (by rw [k.same .pwr (by decide)]) 3
  exact ⟨t, hx.trans ht, hh, hi, OnlyChanges.trans (OnlyChanges.mono k (within rfl)) (OnlyChanges.mono ho (within rfl))⟩

theorem clockFault_halts (h : MayHalt s) : ∃ t, exec .clockFault s = .next t ∧
    Halted (if s.insync then 7 else 6) t ∧ t.dpx.state ≠ .insync ∧ OnlyChanges faulting s t := by
  have k : OnlyChanges [.saf, .tly, .outbox] s (s.lockout 13 0 0 false false) := lockout_only (within rfl) OnlyChanges.refl
  have hx : exec .clockFault s = done s ((s.lockout 13 0 0 false false).unrecoverable 6) :=
    exec_clockFault.trans (if_pos h.running)
  obtain ⟨t, ht, hh, hi, -, ho⟩ := done_unrecoverable h k rfl (by rw [k.same .pwr (by decide)]) 6
  exact ⟨t, hx.trans ht, hh, hi, OnlyChanges.trans (OnlyChanges.mono k (within rfl)) (OnlyChanges.mono ho (within rfl))⟩

/-- Settles O4: each of the five commands ends in `done_unrecoverable`. -/
theorem unrecoverableFaultsHaltTheModule : Obligations.UnrecoverableFaultsHaltTheModule := by
  refine ⟨fun s rail mv hr hs hm => ?_, fun s hr hs hm hot => ?_, fun s hr hs hm => ?_, fun s e hr hs hm => ?_, fun s hr hs hm => ?_⟩
  · obtain ⟨t, hx, ⟨hm, hp, hc, hl⟩, hi, hrail, ho⟩ := railFault_halts rail mv ⟨hr, hs, hm⟩
    exact ⟨t, hx, hm, hp, hc, hi, hl.sel, hl.sp, hl.off, hrail, OnlyChanges.mono ho (within rfl)⟩
  · obtain ⟨t, hx, ⟨hm, hp, hc, hl⟩, hi, ho⟩ := overtemperature_halts ⟨hr, hs, hm⟩ hot
    exact ⟨t, hx, hm, hp, hc, hi, hl.sel, hl.sp, hl.off, ho⟩
  · obtain ⟨t, hx, ⟨hm, hp, hc, hl⟩, hi, hpw, ho⟩ := hkWatchdogExpiry_halts ⟨hr, hs, hm⟩
    exact ⟨t, hx, hm, hp, hc, hi, hl.sel, hl.sp, hl.off, hpw, OnlyChanges.mono ho (within rfl)⟩
  · obtain ⟨t, hx, ⟨hm, hp, hc, hl⟩, hi, ho⟩ := engineWatchdogExpiry_halts e ⟨hr, hs, hm⟩
    exact ⟨t, hx, hm, hp, hc, hi, hl.sel, hl.sp, hl.off, OnlyChanges.mono ho (within rfl)⟩
  · obtain ⟨t, hx, ⟨hm, hp, hc, hl⟩, hi, ho⟩ := clockFault_halts ⟨hr, hs, hm⟩
    exact ⟨t, hx, hm, hp, hc, hi, hl.sel, hl.sp, hl.off, ho⟩

end Sys2Proof.Proofs
end

section
/-! The frames that the module sends (O33): one frame of `sendIn`, the parts of a parameter block, and the launches made of them. -/

namespace Sys2Proof.Proofs

open Sys2Proof.Machine Sys2Proof.Safety Sys2Proof.Laws

variable {s t u : State}

/-- Between `s` and `t` the frame `fr` has left, under E_own and with the next number of the stream `key` (spec/10_io_network.md Table
10.3); of the network block only the sequence numbers differ. -/
structure Leaves (kind : FrameKind) (key dst : Nat) (rep : Bool) (fr : Frame) (s t : State) : Prop where
  outbox : t.outbox = s.outbox ++ [.frame fr]
  kind : fr.kind = kind
  dst : fr.dst = dst
  rep : fr.rep = rep
  epoch : fr.epoch = s.dpx.eOwn
  seq : fr.seq = s.net.tx.look key 0 + 1
  counted : t.net.tx.look key 0 = fr.seq
  net : t.net = { s.net with tx := t.net.tx }

theorem sendIn_leaves (kind : FrameKind) (key dst : Nat) (rep : Bool) (cyc : BitVec 16) (pgrp : BitVec 4) (payload : List Byte) :
    ∃ fr, Leaves kind key dst rep fr s (s.sendIn kind key dst rep cyc pgrp payload) ∧ fr.cyc = cyc ∧ fr.pgrp = pgrp ∧
      fr.payload = payload :=
  ⟨_, ⟨rfl, rfl, rfl, rfl, rfl, rfl, look_put_self .., rfl⟩, rfl, rfl, rfl⟩

/-- What has changed in the safety block alone before the frame leaves is not seen of it. -/
theorem Leaves.after_saf {kind : FrameKind} {key dst : Nat} {rep : Bool} {fr : Frame} (h : Leaves kind key dst rep fr u t)
    (k : OnlyChanges [.saf] s u) : Leaves kind key dst rep fr s t := by
  have ho : u.outbox = s.outbox := k.same .outbox (by decide)
  have hd : u.dpx = s.dpx := k.same .dpx (by decide)
  have hn : u.net = s.net := k.same .net (by decide)
  obtain ⟨h1, h2, h3, h4, h5, h6, h7, h8⟩ := h
  exact ⟨ho ▸ h1, h2, h3, h4, hd ▸ h5, hn ▸ h6, h7, hn ▸ h8⟩

theorem Leaves.stn {kind : FrameKind} {key dst : Nat} {rep : Bool} {fr : Frame} (h : Leaves kind key dst rep fr s t) (j : Nat) :
    t.stn j = s.stn j := by
  unfold State.stn
  rw [h.net]

/-! OUTPUT frames. -/

theorem exec_outputLaunch (i : Nat) : exec (.outputLaunch i) s = execOutputLaunch i s := rfl

theorem outputLaunch_of_set {i : Nat} (hset : s.stnSet i = true) : exec (.outputLaunch i) s = .next (s.launchOutput i) :=
  (exec_outputLaunch i).trans (if_pos hset)

theorem carryPdus_of_no_connections (h : s.cfg.wsc = []) (carrier unit : Nat) (b : List Byte) :
    s.carryPdus carrier unit b = (b, s) := by
  unfold State.carryPdus
  split
  · rfl
  · rw [h]
    rfl

/-- A frame that carries the PDUs of its safety connections (R392, R393). -/
theorem carried_leaves (carrier unit : Nat) (b : List Byte) (kind : FrameKind) (key dst : Nat) (rep : Bool) (cyc : BitVec 16) :
    ∃ fr, Leaves kind key dst rep fr s
        ((s.carryPdus carrier unit b).2.sendIn kind key dst rep cyc 0 (s.carryPdus carrier unit b).1) ∧
      fr.cyc = cyc ∧ (s.cfg.wsc = [] → fr.payload = b) := by
  have k : OnlyChanges [.saf] s (s.carryPdus carrier unit b).2 := carryPdus_only (within rfl) OnlyChanges.refl
  obtain ⟨fr, hl, hc, -, hp⟩ := sendIn_leaves (s := (s.carryPdus carrier unit b).2) kind key dst rep cyc 0
    (s.carryPdus carrier unit b).1
  refine ⟨fr, hl.after_saf k, hc, fun h => ?_⟩
  rw [hp, carryPdus_of_no_connections h]

theorem sendOutput_leaves (i : Nat) (rep : Bool) (b : List Byte) :
    ∃ fr, Leaves .output (0x10000 + i) i rep fr s (s.sendOutput i rep b) ∧
      fr.cyc = (s.cls (s.scfg i).cls).cycno.setWidth 16 ∧ (s.cfg.wsc = [] → fr.payload = b) :=
  carried_leaves ..

/-- The image that leaves for station `i` is a repeat (spec/01_architecture.md R20). -/
def imageRepeat (s : State) (i : Nat) : Bool :=
  decide ((s.stn i).sentNo = (s.cmem (s.scfg i).cls).commitNo) || (s.cmem (s.scfg i).cls).preRun ||
    decide (s.sys.mode = .takeover ∨ s.sys.mode = .activate)

theorem launchOutput_image {i : Nat} {b : List Byte} (hd : s.drives = true) (hs : s.pwr.shutdown = false)
    (ho : s.outputOf (s.scfg i) = some (true, b)) : s.launchOutput i =
      (s.sendOutput i (imageRepeat s i) b).updStn i fun x => { x with sentNo := (s.cmem (s.scfg i).cls).commitNo } := by
  simp [State.launchOutput, imageRepeat, hd, hs, ho]

theorem launchOutput_values {i : Nat} {b : List Byte} (hd : s.drives = true) (hs : s.pwr.shutdown = false)
    (ho : s.outputOf (s.scfg i) = some (false, b)) : s.launchOutput i = s.sendOutput i false b := by
  simp [State.launchOutput, hd, hs, ho]

theorem launchOutput_of_lone {i : Nat} (hd : s.drives = false) (hf : s.safeFrames = true) :
    s.launchOutput i = s.sendOutput i false (stnSafe (s.scfg i)) := by
  simp [State.launchOutput, hd, hf]

theorem launchOutput_silent {i : Nat} (hd : s.drives = false) (hf : s.safeFrames = false) : s.launchOutput i = s := by
  simp [State.launchOutput, hd, hf]

theorem classMode_of_settled_mode {c : Nat} {m : Mode} (h : s.sys.mode = m) (hm : m ≠ .hold) (ht : s.sys.trans = none) :
    s.classMode c = m := by
  simp [State.classMode, State.outMode, State.stopTo, State.rowMode, h, hm, ht]

theorem outputOf_stop {k : StnCfg} (h : s.sys.mode = .stop) (ht : s.sys.trans = none) :
    s.outputOf k = some (false, stnSafe k) := by
  simp [State.outputOf, classMode_of_settled_mode h (by decide) ht]

theorem outputOf_run {k : StnCfg} (h : s.sys.mode = .run) (ht : s.sys.trans = none) (hp : (s.cmem k.cls).preRun = false) :
    s.outputOf k = some (true, s.stnImage k) := by
  simp [State.outputOf, classMode_of_settled_mode h (by decide) ht, hp]

/-- OUTPUT_LAUNCH on a module that drives: the frame, and what it carries in RUN and STOP. -/
theorem outputLaunch_drives {i : Nat} {img : Bool} {b : List Byte} (hset : s.stnSet i = true) (hd : s.drives = true)
    (hs : s.pwr.shutdown = false) (ho : s.outputOf (s.scfg i) = some (img, b)) :
    ∃ (t : State) (fr : Frame), exec (.outputLaunch i) s = .next t ∧
    t.outbox = s.outbox ++ [.frame fr] ∧ fr.kind = .output ∧ fr.dst = i ∧ fr.epoch = s.dpx.eOwn ∧
    fr.seq = s.net.tx.look (0x10000 + i) 0 + 1 ∧ t.net.tx.look (0x10000 + i) 0 = fr.seq ∧
    fr.cyc = (s.cls (s.scfg i).cls).cycno.setWidth 16 ∧ (s.cfg.wsc = [] → fr.payload = b) ∧
    (s.sys.mode = .run → img = true → fr.rep = (decide ((s.stn i).sentNo = (s.cmem (s.scfg i).cls).commitNo) || (s.cmem (s.scfg i).cls).preRun)) ∧
    (s.sys.mode = .stop → s.sys.trans = none → b = stnSafe (s.scfg i) ∧ img = false) ∧
    (s.sys.mode = .run → s.sys.trans = none → (s.cmem (s.scfg i).cls).preRun = false → b = s.stnImage (s.scfg i) ∧ img = true) ∧
    (∀ j, j ≠ i → t.stn j = s.stn j) ∧ OnlyChanges [.net, .saf, .outbox] s t := by
  have hx := outputLaunch_of_set hset
  have hstop : s.sys.mode = .stop → s.sys.trans = none → b = stnSafe (s.scfg i) ∧ img = false := fun hm ht => by
    rw [outputOf_stop hm ht] at ho
    cases ho
    exact ⟨rfl, rfl⟩
  have hrun : s.sys.mode = .run → s.sys.trans = none → (s.cmem (s.scfg i).cls).preRun = false →
      b = s.stnImage (s.scfg i) ∧ img = true := fun hm ht hp => by
    rw [outputOf_run hm ht hp] at ho
    cases ho
    exact ⟨rfl, rfl⟩
  cases img with
  | false =>
    rw [launchOutput_values hd hs ho] at hx
    obtain ⟨fr, hl, hc, hp⟩ := sendOutput_leaves (s := s) i false b
    exact ⟨_, fr, hx, hl.outbox, hl.kind, hl.dst, hl.epoch, hl.seq, hl.counted, hc, hp, nofun, hstop, hrun,
      fun j _ => hl.stn j, sendOutput_only (within rfl) OnlyChanges.refl⟩
  | true =>
    rw [launchOutput_image hd hs ho] at hx
    obtain ⟨fr, hl, hc, hp⟩ := sendOutput_leaves (s := s) i (imageRepeat s i) b
    refine ⟨_, fr, hx, hl.outbox, hl.kind, hl.dst, hl.epoch, hl.seq, hl.counted, hc, hp, fun hm _ => ?_, hstop, hrun,
      fun j hj => (stn_updStn_ne _ hj).trans (hl.stn j),
      updStn_only (within rfl) (sendOutput_only (within rfl) OnlyChanges.refl)⟩
    simp [hl.rep, imageRepeat, hm]

/-- OUTPUT_LAUNCH on a lone module in FAULT-HALT or RECOVERY. -/
theorem outputLaunch_lone {i : Nat} (hset : s.stnSet i = true) (hd : s.drives = false) (hf : s.safeFrames = true) :
    ∃ (t : State) (fr : Frame), exec (.outputLaunch i) s = .next t ∧
    t.outbox = s.outbox ++ [.frame fr] ∧ fr.kind = .output ∧ fr.dst = i ∧ (s.cfg.wsc = [] → fr.payload = stnSafe (s.scfg i)) ∧
    (∀ j, t.stn j = s.stn j) ∧ OnlyChanges [.net, .saf, .outbox] s t := by
  have hx := outputLaunch_of_set hset
  rw [launchOutput_of_lone hd hf] at hx
  obtain ⟨fr, hl, -, hp⟩ := sendOutput_leaves (s := s) i false (stnSafe (s.scfg i))
  exact ⟨_, fr, hx, hl.outbox, hl.kind, hl.dst, hp, hl.stn, sendOutput_only (within rfl) OnlyChanges.refl⟩

/-! LOOP_OUT and PEER frames. -/

theorem exec_loopOutLaunch (i : Nat) (g : BitVec 4) : exec (.loopOutLaunch i g) s = execLoopOutLaunch i g s := rfl
theorem exec_peerLaunch (p : Nat) : exec (.peerLaunch p) s = execPeerLaunch p s := rfl

theorem length_le (n v : Nat) : (le n v).length = n := by
  induction n generalizing v with
  | zero => rfl
  | succ n ih => simp [le, ih]

theorem launchLoopOut_of_crease {i g n : Nat} {ns : List Nat} (hg : s.groupLoops i g = n :: ns)
    (hn : (s.creaseOut n).1.isSome = true) :
    s.launchLoopOut i g = s.sendIn .loopOut (0x30000 + 16 * i + g) i false (BitVec.ofNat 16 (s.loop n).sample) (BitVec.ofNat 4 g)
      ((n :: ns).flatMap fun j => le 4 ((s.creaseOut j).1.getD (s.loop j).out).toNat) := by
  have hnone : (s.creaseOut n).1.isNone = false := by
    rw [← Option.not_isSome, hn]
    rfl
  simp [State.launchLoopOut, hg, hnone]

theorem loopOutLaunch_leaves {i n : Nat} {g : BitVec 4} {ns : List Nat} (hd : s.drives = true) (hs : s.pwr.shutdown = false)
    (hu : s.loopsUp = true) (hset : s.stnSet i = true) (hg : s.groupLoops i g.toNat = n :: ns)
    (hn : (s.creaseOut n).1.isSome = true) : ∃ (t : State) (fr : Frame), exec (.loopOutLaunch i g) s = .next t ∧
    t.outbox = s.outbox ++ [.frame fr] ∧ fr.kind = .loopOut ∧ fr.dst = i ∧ fr.pgrp = g ∧ fr.epoch = s.dpx.eOwn ∧
    fr.cyc = BitVec.ofNat 16 (s.loop n).sample ∧ fr.payload = (n :: ns).flatMap (fun j => le 4 ((s.creaseOut j).1.getD (s.loop j).out).toNat) ∧
    fr.payload.length = 4 * (ns.length + 1) ∧ t.net = { s.net with tx := t.net.tx } ∧ OnlyChanges [.net, .outbox] s t := by
  have hx : exec (.loopOutLaunch i g) s = .next (s.launchLoopOut i g.toNat) :=
    (exec_loopOutLaunch i g).trans (if_pos (by simp [hd, hs, hu, hset]))
  rw [launchLoopOut_of_crease hg hn] at hx
  obtain ⟨fr, hl, hc, hgrp, hp⟩ := sendIn_leaves (s := s) .loopOut (0x30000 + 16 * i + g.toNat) i false
    (BitVec.ofNat 16 (s.loop n).sample) (BitVec.ofNat 4 g.toNat)
    ((n :: ns).flatMap fun j => le 4 ((s.creaseOut j).1.getD (s.loop j).out).toNat)
  refine ⟨_, fr, hx, hl.outbox, hl.kind, hl.dst, ?_, hl.epoch, hc, hp, ?_, hl.net, sendIn_only (within rfl) OnlyChanges.refl⟩
  · simpa using hgrp
  · simp [hp, List.length_flatMap, length_le]
    omega

theorem peerLaunch_leaves {p : Nat} (hd : s.drives = true) (hs : s.pwr.shutdown = false) (hc : (s.cfg.pubs.find p).isSome = true) :
    ∃ (t : State) (fr : Frame), exec (.peerLaunch p) s = .next t ∧ t.outbox = s.outbox ++ [.frame fr] ∧ fr.kind = .peer ∧ fr.dst = p ∧
    fr.epoch = s.dpx.eOwn ∧ (s.cfg.wsc = [] → fr.payload =
      (s.cmem (s.cfg.pubs.look p {}).cls).globPub.rdN (s.cfg.pubs.look p {}).at_ (s.cfg.pubs.look p {}).len) ∧
    fr.rep = decide (s.net.pubSent.look p 0 = (s.cmem (s.cfg.pubs.look p {}).cls).commitNo) ∧
    t.net.pubSent.look p 0 = (s.cmem (s.cfg.pubs.look p {}).cls).commitNo ∧ t.net.stns = s.net.stns ∧ OnlyChanges [.net, .saf, .outbox] s t := by
  have hx : exec (.peerLaunch p) s = .next (s.launchPub p) := (exec_peerLaunch p).trans (if_pos (by simp [hd, hs, hc]))
  obtain ⟨fr, hl, -, hp⟩ := carried_leaves (s := s) 1 p
    ((s.cmem (s.cfg.pubs.look p {}).cls).globPub.rdN (s.cfg.pubs.look p {}).at_ (s.cfg.pubs.look p {}).len) .peer (0x80000 + p) p
    (decide (s.net.pubSent.look p 0 = (s.cmem (s.cfg.pubs.look p {}).cls).commitNo))
    ((s.cls (s.cfg.pubs.look p {}).cls).cycno.setWidth 16)
  have hstns := congrArg Net.stns hl.net
  exact ⟨_, fr, hx, hl.outbox, hl.kind, hl.dst, hl.epoch, hp, hl.rep, look_put_self .., hstns,
    launchPub_only (within rfl) OnlyChanges.refl⟩

/-! The parameter blocks of stations. -/

/-- Between `s` and `t` exactly `n` PARAM frames of station `i` have left, each under E_own; of the network block only the sequence
numbers differ. -/
structure ParamsLeave (i n : Nat) (s t : State) : Prop where
  frames : ∃ l : List Frame, l.length = n ∧ t.outbox = s.outbox ++ l.map Out.frame ∧
    ∀ fr ∈ l, fr.kind = .param ∧ fr.dst = i ∧ fr.epoch = s.dpx.eOwn
  net : t.net = { s.net with tx := t.net.tx }

theorem ParamsLeave.cons {i key n : Nat} {fr : Frame} (h : Leaves .param key i false fr s u) (hd : u.dpx = s.dpx)
    (k : ParamsLeave i n u t) : ParamsLeave i (n + 1) s t := by
  obtain ⟨⟨l, hn, ho, hf⟩, hnet⟩ := k
  refine ⟨⟨fr :: l, by simp [hn], by simp [ho, h.outbox], fun x hx => ?_⟩, by rw [hnet, h.net]⟩
  rcases List.mem_cons.mp hx with rfl | hx
  · exact ⟨h.kind, h.dst, h.epoch⟩
  · exact hd ▸ hf x hx

theorem sendParts_leave (i parts : Nat) (b : List Byte) (k : Nat) : ParamsLeave i k s (State.sendParts i parts b s k) := by
  induction k generalizing s with
  | zero => exact ⟨⟨[], rfl, (List.append_nil _).symm, nofun⟩, rfl⟩
  | succ k ih =>
    obtain ⟨fr, hl, -⟩ := sendIn_leaves (s := s) .param (0x60000 + i) i false 0 0
      ([BitVec.ofNat 8 (parts - (k + 1)), BitVec.ofNat 8 parts, 0, 0] ++ ((b.drop (1470 * (parts - (k + 1)))).take 1470))
    exact .cons hl rfl ih

/-- The number of PARAM frames of a block (R285). -/
def paramParts (b : List Byte) : Nat := max 1 ((b.length + 1469) / 1470)

theorem sendBlock_leave (i : Nat) : ParamsLeave i (paramParts (s.paramBlock i (s.stn i).paramId)) s (s.sendBlock i) :=
  sendParts_leave ..

theorem ParamsLeave.outbox_length {i n : Nat} (h : ParamsLeave i n s t) : t.outbox.length = s.outbox.length + n := by
  obtain ⟨l, hn, ho, -⟩ := h.frames
  simp [ho, hn]

theorem ParamsLeave.each {i n : Nat} (h : ParamsLeave i n s t) (fr : Frame) (hf : Out.frame fr ∈ t.outbox.drop s.outbox.length) :
    fr.kind = .param ∧ fr.dst = i ∧ fr.epoch = s.dpx.eOwn := by
  obtain ⟨l, -, ho, hl⟩ := h.frames
  rw [ho, List.drop_left] at hf
  obtain ⟨x, hx, he⟩ := List.mem_map.mp hf
  cases he
  exact hl fr hx

theorem ParamsLeave.stn {i n : Nat} (h : ParamsLeave i n s t) (j : Nat) : t.stn j = s.stn j := by
  unfold State.stn
  rw [h.net]

theorem exec_paramRetry (i : Nat) : exec (.paramRetry i) s = execParamRetry i s := rfl
theorem exec_paramPeriodic (i : Nat) : exec (.paramPeriodic i) s = execParamPeriodic i s := rfl

theorem paramsUp_of_drives (h : s.drives = true) : s.paramsUp = true := by simp [State.paramsUp, h]

theorem paramRetry_leaves {i : Nat} (hd : s.drives = true) (hset : s.stnSet i = true) (hp : (s.stn i).paramPend = true) :
    ∃ t, exec (.paramRetry i) s = .next t ∧ t.net = { s.net with tx := t.net.tx } ∧
    t.outbox.length = s.outbox.length + max 1 (((s.paramBlock i (s.stn i).paramId).length + 1469) / 1470) ∧
    (∀ fr, Out.frame fr ∈ t.outbox.drop s.outbox.length → fr.kind = .param ∧ fr.dst = i ∧ fr.epoch = s.dpx.eOwn) ∧
    OnlyChanges [.net, .outbox] s t :=
  ⟨s.sendBlock i, (exec_paramRetry i).trans (if_pos (by simp [paramsUp_of_drives hd, hset, hp])), (sendBlock_leave i).net, (sendBlock_leave i).outbox_length,
    (sendBlock_leave i).each, sendBlock_only (within rfl) OnlyChanges.refl⟩

theorem paramPeriodic_eq {i : Nat} (hd : s.drives = true) (hset : s.stnSet i = true) (hf : (s.stn i).failed = true)
    (ha : (s.stn i).acked = false) : exec (.paramPeriodic i) s = .next (s.newBlock i) := by
  have hx : exec (.paramPeriodic i) s = .next (s.parameterise i) := (exec_paramPeriodic i).trans (if_pos (by simp [hd, hset, hf, ha]))
  rw [hx, State.parameterise, if_pos (paramsUp_of_drives hd)]

theorem paramPeriodic_new {i : Nat} (hd : s.drives = true) (hset : s.stnSet i = true) (hf : (s.stn i).failed = true)
    (ha : (s.stn i).acked = false) (hdup : s.dupStn i = false) :
    ∃ t, exec (.paramPeriodic i) s = .next t ∧ t.stn i = { s.stn i with paramId := (s.stn i).paramId + 1, paramPend := true } ∧
    (∀ j, j ≠ i → t.stn j = s.stn j) ∧ s.outbox.length < t.outbox.length ∧
    (∀ fr, Out.frame fr ∈ t.outbox.drop s.outbox.length → fr.kind = .param ∧ fr.dst = i) ∧ OnlyChanges [.net, .outbox] s t := by
  have hx := paramPeriodic_eq hd hset hf ha
  rw [State.newBlock, hdup, if_neg Bool.false_ne_true] at hx
  have hl := sendBlock_leave (s := s.updStn i fun x => { x with paramId := x.paramId + 1, paramPend := true }) i
  refine ⟨_, hx, (hl.stn i).trans (stn_updStn ..), fun j hj => (hl.stn j).trans (stn_updStn_ne _ hj), ?_,
    fun fr h => ⟨(hl.each fr h).1, (hl.each fr h).2.1⟩,
    sendBlock_only (within rfl) (updStn_only (within rfl) OnlyChanges.refl)⟩
  have hn := hl.outbox_length
  have h1 : 1 ≤ paramParts (State.paramBlock (s.updStn i fun x => { x with paramId := x.paramId + 1, paramPend := true }) i
    ((s.updStn i fun x => { x with paramId := x.paramId + 1, paramPend := true }).stn i).paramId) := le_max_left ..
  rw [updStn_outbox] at hn
  omega

/-! A record of the Tally does not depend on the network block. -/

theorem intoQueue_of_net (n : Net) (r : TRec) (u : State) :
    State.intoQueue r { u with net := n } = { u.intoQueue r with net := n } := by
  unfold State.intoQueue
  dsimp only
  split <;> rfl

theorem enqueue_of_net (n : Net) (r : TRec) : State.enqueue r { s with net := n } = { s.enqueue r with net := n } := by
  unfold State.enqueue
  split
  · exact intoQueue_of_net ..
  · exact intoQueue_of_net n _ { s with tly := { s.tly with drop := s.tly.drop + 1 } }

theorem log_of_net (n : Net) (code sev : Nat) (d : List Byte) :
    State.log code sev d { s with net := n } = { s.log code sev d with net := n } := by
  unfold State.log
  by_cases h : sev < s.sevMin
  · rw [if_pos h]
    exact if_pos h
  · rw [if_neg h]
    exact (if_neg h).trans (enqueue_of_net ..)

theorem paramPeriodic_duplicate {i : Nat} (hd : s.drives = true) (hset : s.stnSet i = true) (hf : (s.stn i).failed = true)
    (ha : (s.stn i).acked = false) (hdup : s.dupStn i = true) : ∃ t, exec (.paramPeriodic i) s = .next t ∧ t.stn i = { s.stn i with
      paramPend := false, acked := true, rejoining := false, gotOk := false, refused := true, failed := true } ∧
    (∀ j, j ≠ i → t.stn j = s.stn j) ∧ t.tly = (s.log 0x0603 4 ([BitVec.ofNat 8 (s.scfg i).ring, 3] ++ le 2 i ++
      le 4 (s.stn i).paramId.toNat)).tly ∧ OnlyChanges [.net, .tly] s t := by
  have hx := paramPeriodic_eq hd hset hf ha
  rw [State.newBlock, hdup, if_pos rfl] at hx
  have hlog : s.refuseStn i 3 (s.stn i).paramId = _ := log_of_net ..
  refine ⟨_, hx, ?_, fun j hj => ?_, ?_, refuseStn_only (within rfl) OnlyChanges.refl⟩
  · rw [hlog]
    exact stn_updStn ..
  · rw [hlog]
    exact stn_updStn_ne _ hj
  · rw [hlog]
    rfl

/-- Settles O33, clause by clause. -/
theorem framesLeaveWithTheValuesOfTheirMode : Obligations.FramesLeaveWithTheValuesOfTheirMode :=
  ⟨fun _ _ _ _ => outputLaunch_drives, fun _ _ => outputLaunch_lone,
    fun _ _ hset hd hf => (outputLaunch_of_set hset).trans (congrArg _ (launchOutput_silent hd hf)),
    fun _ _ _ _ _ => loopOutLaunch_leaves, fun _ _ => peerLaunch_leaves, fun _ _ => paramRetry_leaves,
    fun _ _ => paramPeriodic_new, fun _ _ => paramPeriodic_duplicate⟩

end Sys2Proof.Proofs
end

section
/-! The state after reset. -/

namespace Sys2Proof.Proofs

open Sys2Proof.Machine Sys2Proof.Safety Sys2Proof.Laws

/-- No CAN channel is configured at reset, and no abandoned mode command waits. -/
theorem reset_settled : Settled State.reset where
  can c _ _ hc hset _ := by
    have hn : ∀ c < 8, State.reset.canSet c = false := by decide
    cases (hn c hc).symm.trans hset
  served _ := rfl

/-- Settles O60: the queues and the safety outputs of the reset state are empty tables, its registers are computed. -/
theorem resetIsSettledAndHoldsTheResetValues : Obligations.ResetIsSettledAndHoldsTheResetValues :=
  ⟨reset_settled, nofun, fun _ _ => ⟨rfl, rfl⟩, fun _ => ⟨rfl, rfl⟩, rfl, rfl, rfl, rfl, by decide, by decide, by decide⟩

end Sys2Proof.Proofs
end

section
/-! The role rule (spec/02_modes_and_startup.md R31, R32): how `RoleLegal` passes through the pieces of a definition. -/

namespace Sys2Proof.Safety

open Sys2Proof.Machine Sys2Proof.Laws

variable {s t u : State}

/-- Every part but the system block. -/
def offSys : List Part := [.hif, .cyc, .lsp, .cle, .chg, .dpx, .dpx2, .mir, .net, .tim, .can, .canq, .fio, .saf, .tly, .mm, .boot, .pwr,
  .ret, .cfg, .prog, .regs, .live, .votes, .press, .posted, .outbox, .freeN, .pending]

theorem RoleLegal.congr (h : RoleLegal s) (hm : t.sys.mode = s.sys.mode) (hf : t.sys.from_ = s.sys.from_)
    (hp : t.sys.primary = s.sys.primary) : RoleLegal t := by
  rw [RoleLegal, hm, hf, hp]
  exact h

theorem RoleLegal.of_sys (h : RoleLegal s) (e : t.sys = s.sys) : RoleLegal t := h.congr (by rw [e]) (by rw [e]) (by rw [e])

/-- What leaves the system block as it is keeps the role rule. -/
theorem RoleLegal.frame (h : RoleLegal s) (k : OnlyChanges offSys s t) : RoleLegal t := h.of_sys (k.same .sys (by decide))

/-- A module without the primary role meets the rule in every mode. -/
theorem RoleLegal.standby (h : s.sys.primary = false) : RoleLegal s := fun hp => absurd (h.symm.trans hp) Bool.false_ne_true

theorem RoleLegal.ite {c : Prop} [Decidable c] (h : RoleLegal s) (k : RoleLegal t) : RoleLegal (if c then s else t) := by
  split
  · exact h
  · exact k

theorem RoleLegal.foldl {α : Type} {f : State → α → State} {l : List α} (h : RoleLegal s)
    (hf : ∀ u a, RoleLegal u → RoleLegal (f u a)) : RoleLegal (l.foldl f s) := by
  induction l generalizing s with
  | nil => exact h
  | cons a l ih => exact ih (hf _ _ h)

end Sys2Proof.Safety
end

section
/-! The operations that set the mode or the role keep the role rule, and so does every operation that calls them. -/

namespace Sys2Proof.Proofs

open Sys2Proof.Machine Sys2Proof.Safety Sys2Proof.Laws

variable {s t : State}

/-! Modes, records and the start (Ops.lean, Start.lean). -/

theorem log_legal {code sev : Nat} {d : List Byte} (h : RoleLegal s) : RoleLegal (s.log code sev d) :=
  h.frame (log_only (within rfl) OnlyChanges.refl)

theorem setSync_legal {st : SyncState} {reason cause : Nat} (h : RoleLegal s) : RoleLegal (s.setSync st reason cause) :=
  h.frame (setSync_only (within rfl) OnlyChanges.refl)

/-- A change of mode leaves the role only where the new mode allows it, whatever the role was. -/
theorem setMode_legal {m : Mode} {cause : Nat} : RoleLegal (s.setMode m cause) := by
  have e : (s.setMode m cause).sys = _ := setMode_sys m cause
  intro hp
  rw [e] at hp ⊢
  exact (Bool.and_eq_true _ _ ▸ hp : _ ∧ _).1

theorem beginTrans_legal {m : Mode} {cause slot : Nat} (h : RoleLegal s) : RoleLegal (s.beginTrans m cause slot) := h

theorem preempt_legal (h : RoleLegal s) : RoleLegal s.preempt := by
  unfold State.preempt
  split <;> exact h

theorem asStandby_legal : RoleLegal s.asStandby := RoleLegal.standby rfl

theorem tripGroup_legal {off g : Nat} (h : RoleLegal s) : RoleLegal (s.tripGroup off g) :=
  log_legal (s := { s with sys := { s.sys with parTrip := s.sys.parTrip ++ [g] } }) h

theorem keyTrip_legal {off : Nat} (h : RoleLegal s) : RoleLegal (s.keyTrip off) :=
  h.ite (tripGroup_legal h : RoleLegal (s.tripGroup off 3))

theorem mramDouble_legal {e : MramErr} (h : RoleLegal s) : RoleLegal (s.mramDouble e) := by
  unfold State.mramDouble
  dsimp only
  split
  · exact h
  · exact h
  · exact keyTrip_legal (s := { s with mm := _ }) h
  · exact RoleLegal.ite (log_legal (s := { s with mm := _, fio := _ }) h) h
  · exact h

theorem mramRead_legal {ce : Nat} {errs : List MramErr} (h : RoleLegal s) : RoleLegal (s.mramRead ce errs) :=
  RoleLegal.foldl (s := { s with mm := _ }) h fun _ _ h => mramDouble_legal h

theorem step2_legal {pg : Bool} {obs : BootObs} : RoleLegal (s.step2 pg obs) := by
  unfold State.step2
  refine RoleLegal.frame ?_ (newNonce_only (within rfl) (tamperRead_only (within rfl) OnlyChanges.refl))
  refine RoleLegal.ite (RoleLegal.frame (mramRead_legal ?_) (factoryCheck_only (within rfl) OnlyChanges.refl)) (keyTrip_legal
    (RoleLegal.frame (mramRead_legal ?_) (factoryCheck_only (within rfl) OnlyChanges.refl)))
  all_goals
    exact log_legal (RoleLegal.ite (RoleLegal.frame (RoleLegal.standby rfl) (powerMark_only (within rfl) OnlyChanges.refl)) (RoleLegal.standby rfl))

theorem loadProgram_legal (h : RoleLegal s) : RoleLegal s.loadProgram := h

theorem enrolOps_legal {img : List Byte} (h : RoleLegal s) : RoleLegal (s.enrolOps img) :=
  h.frame (enrolOps_only (within rfl) OnlyChanges.refl)

theorem step5_legal (h : RoleLegal s) : RoleLegal s.step5 := by
  unfold State.step5
  dsimp only
  split
  · exact loadProgram_legal (enrolOps_legal (RoleLegal.ite (t := State.installProgram _ _) h h))
  · exact h

theorem loadRegs_legal {o : Tab Word} (h : RoleLegal s) : RoleLegal (State.loadRegs o s) :=
  h.frame (loadRegs_only (within rfl) OnlyChanges.refl)

theorem step6_legal (h : RoleLegal s) : RoleLegal s.step6 := by
  have hsaf : ∀ {u : State} {f : Saf}, RoleLegal u → RoleLegal (State.numberCycles (State.measure (State.safStart { u with saf := f }))) :=
    fun {u f} h => RoleLegal.frame (s := { u with saf := f }) h
      (numberCycles_only (within rfl) (measure_only (within rfl) (safStart_only (within rfl) OnlyChanges.refl)))
  have hset : ∀ {u : State} {f : Fio} {a : Tim} {c : Cle} {l : Bool}, RoleLegal u →
      RoleLegal (State.bootHeld { u with fio := f, tim := a, cle := c, sys := { u.sys with lone := l } }) := fun {u f a c l} h =>
    RoleLegal.frame (s := { u with fio := f, tim := a, cle := c, sys := { u.sys with lone := l } }) h
      (bootHeld_only (within rfl) OnlyChanges.refl)
  have hload : RoleLegal (State.loadRegs s.cfg.regs { s with boot := { s.boot with step := 6 } }) := loadRegs_legal h
  exact RoleLegal.ite (hset (hsaf hload)) (setSync_legal (hset (hsaf hload)))

theorem takeEpoch_legal (h : RoleLegal s) : RoleLegal s.takeEpoch :=
  h.frame (takeEpoch_only (within rfl) OnlyChanges.refl)

theorem runClasses_legal (h : RoleLegal s) : RoleLegal s.runClasses := h

theorem haltClasses_legal (h : RoleLegal s) : RoleLegal s.haltClasses :=
  h.frame (haltClasses_only (within rfl) OnlyChanges.refl)

theorem roleAllowed_self {m entry : Mode} (h : roleAllowed m m = true) : roleAllowed m entry = true := by
  cases m with
  | hold => exact absurd h (by decide)
  | _ => exact h

/-- The role that a start gives in its mode. -/
theorem assigned_legal {m : Mode} {primary : Bool} (hm : s.sys.mode = m) :
    RoleLegal { s with sys := { s.sys with primary := primary && roleAllowed m m } } := by
  subst hm
  exact fun hp => roleAllowed_self (Bool.and_eq_true _ _ ▸ hp : _ ∧ _).2

theorem setMode_mode (m : Mode) (cause : Nat) : (s.setMode m cause).sys.mode = m := congrArg Sys.mode (setMode_sys m cause)

/-- BOOT ends in the role asked for, where its mode allows it. -/
theorem enterStart_legal {m : Mode} {primary : Bool} : RoleLegal (s.enterStart m primary) := by
  unfold State.enterStart
  refine RoleLegal.ite (setSync_legal ?_) ?_ <;> exact assigned_legal (setMode_mode m 2)

theorem endBoot_legal {m : Mode} {primary : Bool} : RoleLegal (s.endBoot m primary) := enterStart_legal

theorem newBlocks_legal (h : RoleLegal s) : RoleLegal s.newBlocks := h.frame (newBlocks_only (within rfl) OnlyChanges.refl)

theorem ringStart_legal {replay : State → State} {stnsIn : List Nat} (h : RoleLegal s) : RoleLegal (s.ringStart replay stnsIn) := by
  refine enterStart_legal.ite (RoleLegal.of_sys (newBlocks_legal (takeEpoch_legal ?_)) rfl)
  exact h

theorem lockout_legal {c kind index : Nat} {bySp chb : Bool} (h : RoleLegal s) : RoleLegal (s.lockout c kind index bySp chb) :=
  h.frame (lockout_only (within rfl) OnlyChanges.refl)

theorem testFailed_legal : RoleLegal s.testFailed := lockout_legal endBoot_legal

theorem bootExit_legal {replay : State → State} {failed : Bool} {stnsIn : List Nat} (h : RoleLegal s) :
    RoleLegal (s.bootExit replay failed stnsIn) := by
  unfold State.bootExit
  exact endBoot_legal.ite (testFailed_legal.ite (endBoot_legal.ite (RoleLegal.ite (s := { s with boot := _ }) h
    ((ringStart_legal h).ite endBoot_legal))))

theorem steps4to7_legal {obs : BootObs} (h : RoleLegal s) : RoleLegal (s.steps4to7 obs) := by
  have h4 : RoleLegal (s.step4 obs) := h.frame (step4_only (within rfl) OnlyChanges.refl)
  exact (step6_legal (step5_legal h4) :)

theorem holdBoot_legal {cause : Nat} (h : RoleLegal s) : RoleLegal (s.holdBoot cause) := h

theorem bootFrom3_legal {replay : State → State} {obs : BootObs} (h : RoleLegal s) : RoleLegal (s.bootFrom3 replay obs) :=
  RoleLegal.ite (holdBoot_legal h) (bootExit_legal (steps4to7_legal h))

theorem step3_legal (h : RoleLegal s) : RoleLegal s.step3 := h

/-- A start ends in a legal role from any state. -/
theorem bootFrom2_legal {replay : State → State} {pg : Bool} {obs : BootObs} : RoleLegal (s.bootFrom2 replay pg obs) :=
  RoleLegal.ite (holdBoot_legal step2_legal) (bootFrom3_legal (step3_legal step2_legal))

/-! Failures, the takeover and the shutdown (Fail.lean). -/

theorem notice_legal {kind detail : Nat} {n r : DWord} (h : RoleLegal s) : RoleLegal (s.notice kind detail n r) :=
  h.frame (notice_only (within rfl) OnlyChanges.refl)

theorem endInsync_legal {cause : Nat} (h : RoleLegal s) : RoleLegal (s.endInsync cause) := by
  have hs : RoleLegal (s.setSync s.afterLoss 0 cause) := setSync_legal h
  unfold State.endInsync
  dsimp only
  split
  · exact h
  · split <;> exact hs

theorem backlogOver_legal (h : RoleLegal s) : RoleLegal s.backlogOver := (endInsync_legal h).ite h

theorem enterHalt_legal {cause : Nat} : RoleLegal (s.enterHalt cause) := lockout_legal (setMode_legal)

theorem settleFail_legal {check : Nat} : RoleLegal (s.settleFail check) :=
  RoleLegal.ite (holdBoot_legal step2_legal) (RoleLegal.ite (holdBoot_legal (step3_legal step2_legal)) (log_legal endBoot_legal))

theorem unrecoverable_legal {alone : Nat} (h : RoleLegal s) : RoleLegal (s.unrecoverable alone) :=
  h.ite (settleFail_legal.ite (enterHalt_legal.ite enterHalt_legal))

theorem startTakeover_legal (h : RoleLegal s) : RoleLegal s.startTakeover :=
  h.frame (startTakeover_only (within rfl) OnlyChanges.refl)

theorem takeover_legal : RoleLegal s.takeover := by
  have h : ∀ {u : State} {d : Dpx} {e : Dpx2}, RoleLegal u → RoleLegal { u with dpx := d, dpx2 := e } := fun h => h
  exact log_legal (startTakeover_legal (h (takeEpoch_legal (beginTrans_legal (setMode_legal)))))

theorem leaveTakeover_legal : RoleLegal s.leaveTakeover := asStandby_legal.ite asStandby_legal

theorem stepDown_legal {port : Nat} {e : Word} : RoleLegal (s.stepDown port e) := setSync_legal leaveTakeover_legal

theorem seeEpoch_legal {e : Word} (h : RoleLegal s) : RoleLegal (s.seeEpoch e) :=
  h.frame (seeEpoch_only (within rfl) OnlyChanges.refl)

theorem stopModule_legal (h : RoleLegal s) : RoleLegal s.stopModule := by
  have ht : RoleLegal (s.stopHeartbeats.preempt.haltClasses.dropOutputs) :=
    (haltClasses_legal (preempt_legal (s := s.stopHeartbeats) h)).frame (dropOutputs_only (within rfl) OnlyChanges.refl)
  exact ht

theorem intoRetain_legal : RoleLegal s.intoRetain := RoleLegal.standby rfl

end Sys2Proof.Proofs
end

section
/-! A ring command keeps the role rule where its operation does. -/

namespace Sys2Proof.Proofs

open Sys2Proof.Machine Sys2Proof.Safety Sys2Proof.Laws

variable {s t : State} {op : HostOp} {h : Hcmd}

/-- The effect of an operation, and its work before the record, keep the role rule. -/
structure OpLegal (op : HostOp) : Prop where
  effect : ∀ {h : Hcmd} {u : State}, RoleLegal u → RoleLegal (op.effect h u).s
  prepare : ∀ {h : Hcmd} {u v : State}, op.prepare h u = some v → RoleLegal u → RoleLegal v

theorem OpLegal.of_frame (k : ∀ u, OpOnly offSys u op) : OpLegal op :=
  ⟨fun {_ u} hl => hl.frame ((k u).effect OnlyChanges.refl), fun {_ u _} e hl => hl.frame ((k u).prepare e OnlyChanges.refl)⟩

theorem updRing_legal {n : Nat} {f : Ring → Ring} (hl : RoleLegal s) : RoleLegal (s.updRing n f) := hl

theorem complete_legal {st : BitVec 16} {d m : Bool} {j : DWord} {n : Nat} {r0 : Word} {r1 : DWord} (hl : RoleLegal s) :
    RoleLegal (s.complete h st d m j n r0 r1) := hl.frame (complete_only (within rfl) OnlyChanges.refl)

theorem finish_legal {st : BitVec 16} (hl : RoleLegal s) : RoleLegal (s.finish h st) := complete_legal hl

theorem settle_legal {st : BitVec 16} {m : Bool} {j : DWord} {b : List Byte} {r0 : Word} {r1 : DWord} (hl : RoleLegal s) :
    RoleLegal (s.settle h st m j b r0 r1) := hl.frame (settle_only (within rfl) OnlyChanges.refl)

theorem finishWaiting_legal {n : Nat} {st : BitVec 16} {b : List Byte} {r0 : Word} {r1 : DWord} (hl : RoleLegal s) :
    RoleLegal (s.finishWaiting n st b r0 r1) := hl.frame (finishWaiting_only (within rfl) OnlyChanges.refl)

theorem afterRecord_legal {st : BitVec 16} {w : Word} {m : Bool} {j : DWord} (ho : OpLegal op) (hl : RoleLegal s) :
    RoleLegal (s.afterRecord op h st w m j) := by
  have hw : RoleLegal (s.enterWin h.slot h.reqId) := hl
  exact (complete_legal hw).ite ((updRing_legal (ho.effect hw)).ite (settle_legal (ho.effect hw)))

theorem recordJournal_legal {st : BitVec 16} {w : Word} {n : DWord} (ho : OpLegal op) (hl : RoleLegal s) :
    RoleLegal (s.recordJournal op h st w n) :=
  afterRecord_legal ho (s := State.journal _ (s.updRing _ _)) hl

theorem record_legal {st : BitVec 16} {w : Word} {n : DWord} (ho : OpLegal op) (hl : RoleLegal s) :
    RoleLegal (s.record op h st w n) := by
  have hw : ∀ {b : List Byte}, RoleLegal (s.sendHostwork false b) := hl.frame (sendHostwork_only (within rfl) OnlyChanges.refl)
  exact RoleLegal.ite (backlogOver_legal (updRing_legal hw)) (recordJournal_legal ho hl)

theorem runUnrecorded_legal (ho : OpLegal op) (hl : RoleLegal s) : RoleLegal (s.runUnrecorded op h) := by
  unfold State.runUnrecorded
  split
  · exact complete_legal hl
  · exact (updRing_legal (ho.effect hl)).ite (settle_legal (ho.effect hl))

theorem runPrimary_legal (ho : OpLegal op) (hl : RoleLegal s) : RoleLegal (s.runPrimary op h) := by
  unfold State.runPrimary
  dsimp only
  split
  · exact RoleLegal.ite (complete_legal (s := { s with hif := _ }) hl) (finish_legal (s := { s with hif := _ }) hl)
  · split
    · exact runUnrecorded_legal ho (s := { s with hif := _ }) hl
    · split
      · exact record_legal ho hl
      · split
        next he => exact updRing_legal (ho.prepare he hl)
        next => exact record_legal ho hl

theorem recordPrepared_legal {n : Nat} (ho : OpLegal op) (hl : RoleLegal s) : RoleLegal (s.recordPrepared op n) := by
  unfold State.recordPrepared
  split
  · exact record_legal ho hl
  · exact hl

theorem refuseRecorded_legal {n : Nat} {w : Word} (ho : OpLegal op) (hl : RoleLegal s) : RoleLegal (s.refuseRecorded op n w) := by
  unfold State.refuseRecorded
  split
  · exact record_legal ho hl
  · exact hl

theorem runCmd_legal (ho : OpLegal op) (hl : RoleLegal s) : RoleLegal (s.runCmd op h) := by
  have hf : RoleLegal (s.fetch h.slot) := hl
  unfold State.runCmd
  refine hl.ite ?_
  dsimp only
  split
  · exact finish_legal (RoleLegal.ite (s := State.dmaErr _) hf hf)
  · exact (runPrimary_legal ho hf).ite ((finish_legal hf).ite (runUnrecorded_legal ho hf))

theorem finishTrans_legal (hl : RoleLegal s) : RoleLegal s.finishTrans := by
  unfold State.finishTrans
  split
  · exact finishWaiting_legal setMode_legal
  · exact hl

theorem completePreempted_legal (hl : RoleLegal s) : RoleLegal s.completePreempted :=
  RoleLegal.foldl (s := { s with sys := { s.sys with preempted := [] } }) hl fun _ _ h => finishWaiting_legal h

theorem detach_legal {n : Nat} (hl : RoleLegal s) : RoleLegal (s.detach n) := hl

theorem forget_legal {n : Nat} (hl : RoleLegal s) : RoleLegal (s.forget n) := by
  have hc : ∀ {u : State} {b : Boot}, RoleLegal u →
      RoleLegal (if u.boot.act.awaitReady ∧ u.boot.act.slot = n then { u with boot := b } else u) :=
    fun {u b} h => RoleLegal.ite (s := { u with boot := b }) h h
  refine detach_legal (hc ?_)
  exact RoleLegal.ite (s := { s with chg := _ }) hl hl

theorem abortInfl_legal {n : Nat} (hl : RoleLegal s) : RoleLegal (s.abortInfl n) := by
  unfold State.abortInfl
  split
  · exact hl.ite (finish_legal (forget_legal hl))
  · exact hl

theorem dropInfl_legal {n : Nat} (hl : RoleLegal s) : RoleLegal (s.dropInfl n) := by
  unfold State.dropInfl
  split
  · exact hl.ite (updRing_legal (forget_legal hl))
  · exact hl

theorem dropUnrecorded_legal (hl : RoleLegal s) : RoleLegal s.dropUnrecorded := hl.foldl fun _ _ h => dropInfl_legal h

theorem deleteRings_legal (hl : RoleLegal s) : RoleLegal s.deleteRings := by
  have h : RoleLegal ((s.dropUnrecorded.hif.rings.keys).foldl (fun (v : State) n => v.detach n) s.dropUnrecorded) :=
    (dropUnrecorded_legal hl).foldl fun _ _ h => detach_legal h
  exact h

/-- What follows a command keeps the role rule. -/
theorem settleState_legal (hl : RoleLegal t) : RoleLegal (settleState s t) := by
  have e : (settleState s t).sys = _ := settleState_sys
  exact hl.congr (by rw [e]) (by rw [e]) (by rw [e])

end Sys2Proof.Proofs
end

section
/-! What the blocks do by themselves keeps the role rule: power, register faults, doorbells, stations, pairs, the baste link, loops, time,
safety and memory. -/

namespace Sys2Proof.Proofs

open Sys2Proof.Machine Sys2Proof.Safety Sys2Proof.Laws

variable {s t : State}

/-! Power (Power.lean). -/

theorem pfailOn_legal (h : RoleLegal s) : RoleLegal s.pfailOn := by
  have hd : ∀ {p : Pwr} {b : Boot} {y : Tly}, RoleLegal (State.dropUnrecorded { s with pwr := p, boot := b, tly := y }) :=
    fun {p b y} => dropUnrecorded_legal (s := { s with pwr := p, boot := b, tly := y }) h
  exact hd.frame (event_only (within rfl) (log_only (within rfl) OnlyChanges.refl))

theorem stopNow_legal (h : RoleLegal s) : RoleLegal s.stopNow := completePreempted_legal (stopModule_legal h)

theorem shutdown_legal : RoleLegal s.shutdown := intoRetain_legal

theorem railFault_legal {c : Fin 7} {mv : Word} (h : RoleLegal s) : RoleLegal (s.railFault c mv) := by
  have hl : ∀ {p : Pwr} {d : List Byte}, RoleLegal (State.log 0x0E02 5 d { s with pwr := p }) := fun {p _} => log_legal (s := { s with pwr := p }) h
  exact unrecoverable_legal ((hl.frame (lowSidesOpen_only (within rfl) OnlyChanges.refl)).ite hl)

theorem watchdog_legal {e : Nat} (h : RoleLegal s) : RoleLegal (s.watchdog e) := unrecoverable_legal (log_legal h)

theorem withdrawn_legal (h : RoleLegal s) : RoleLegal s.withdrawn := by
  have hl : ∀ {r : Ret} {d : List Byte}, RoleLegal (State.log 0x1005 7 d { s with ret := r }) := fun {r _} => log_legal (s := { s with ret := r }) h
  exact RoleLegal.ite ((stopNow_legal (notice_legal hl)).ite hl) (stopNow_legal hl)

/-! Register faults (Access.lean). -/

theorem faultRec_legal {c off : Nat} (h : RoleLegal s) : RoleLegal (s.faultRec c off) :=
  RoleLegal.ite (log_legal (s := { s with sys := { s.sys with warned := _, further := _ } }) h)
    (t := { s with sys := { s.sys with further := _ } }) h

theorem accAddr_legal {off : Nat} {bar2 : Bool} (h : RoleLegal s) : RoleLegal (s.accAddr off bar2) := by
  unfold State.accAddr
  generalize wordOf _ = w
  exact h

theorem partialWr_legal {off : Nat} {bar2 : Bool} (h : RoleLegal s) : RoleLegal (s.partialWr off bar2) :=
  faultRec_legal (accAddr_legal (s := { s with sys := { s.sys with partial_ := s.sys.partial_ + 1 } }) h)

theorem unassignedWr_legal {off : Nat} {bar2 : Bool} (h : RoleLegal s) : RoleLegal (s.unassignedWr off bar2) :=
  faultRec_legal (accAddr_legal (s := { s with sys := { s.sys with unassigned := s.sys.unassigned + 1 } }) h)

theorem roWr_legal {off : Nat} (h : RoleLegal s) : RoleLegal (s.roWr off) :=
  faultRec_legal (accAddr_legal (s := { s with sys := { s.sys with roWr := s.sys.roWr + 1 } }) h)

theorem seqErr_legal {off : Nat} (h : RoleLegal s) : RoleLegal (s.seqErr off) :=
  faultRec_legal (accAddr_legal (s := { s with sys := { s.sys with seqErr := s.sys.seqErr + 1 } }) h)

theorem postTo_legal {base off : Nat} {v : Word} {mean : Option Int} (h : RoleLegal s) : RoleLegal (s.postTo base off v mean) := by
  have hl : RoleLegal (s.lostWr base off) := faultRec_legal (accAddr_legal (s := { s with posted := s.posted.upd base {} _ }) h)
  exact hl.ite (t := { s with posted := _ }) h

/-! Doorbells and the reset of the host interface (Hif.lean). -/

theorem pcieReset_legal (h : RoleLegal s) : RoleLegal s.pcieReset := (deleteRings_legal h).of_sys rfl

theorem haltDoorbell_legal {n cause idx : Nat} (h : RoleLegal s) : RoleLegal (s.haltDoorbell n cause idx) :=
  (abortInfl_legal h).frame (haltRing_only (within rfl) OnlyChanges.refl)

theorem sqDoorbell_legal {n : Nat} {v : Word} (h : RoleLegal s) : RoleLegal (s.sqDoorbell n v) := by
  have hr : RoleLegal (s.updRing n fun x => { x with sqDb := v }) := h
  unfold State.sqDoorbell
  refine hr.ite ?_
  split
  · exact haltDoorbell_legal hr
  · exact hr

theorem cqDoorbell_legal {n : Nat} {v : Word} (h : RoleLegal s) : RoleLegal (s.cqDoorbell n v) := by
  have hr : RoleLegal (s.updRing n fun x => { x with cqDb := v }) := h
  unfold State.cqDoorbell
  refine hr.ite ?_
  split
  · exact updRing_legal (haltDoorbell_legal hr)
  · exact hr

theorem doorbell_legal {page k : Nat} {v : Word} (h : RoleLegal s) : RoleLegal (s.doorbell page k v) :=
  (unassignedWr_legal h).ite ((sqDoorbell_legal h).ite
    (((h.frame (evDoorbell_only (within rfl) OnlyChanges.refl)).ite (cqDoorbell_legal h)).ite (unassignedWr_legal h)))

/-! Stations (Stations.lean). -/

theorem meetEpoch_legal {port : Nat} {e : Word} (h : RoleLegal s) : RoleLegal (s.meetEpoch port e) :=
  stepDown_legal.ite (seeEpoch_legal h)

theorem step8Done_legal {replay : State → State} (h : RoleLegal s) : RoleLegal (s.step8Done replay) := enterStart_legal.ite h

theorem takeInput_legal {replay : State → State} {i : Nat} {f : Kcp} (h : RoleLegal s) : RoleLegal (s.takeInput replay i f) :=
  step8Done_legal ((meetEpoch_legal h).frame (restarted_only (within rfl) (updStn_only (within rfl) (lateInput_only (within rfl) OnlyChanges.refl))))

theorem takeParamAck_legal {i : Nat} {f : Kcp} (h : RoleLegal s) : RoleLegal (s.takeParamAck i f) := by
  have hm : RoleLegal (s.meetEpoch f.port f.epoch) := meetEpoch_legal h
  exact hm.ite ((hm.frame (updStn_only (within rfl) OnlyChanges.refl)).ite (hm.frame (refuseStn_only (within rfl) OnlyChanges.refl)))

theorem receive_legal {type : BitVec 4} {stn : Option Nat} {use : State → State} {f : Kcp} (h : RoleLegal s)
    (hu : ∀ u, RoleLegal u → RoleLegal (use u)) : RoleLegal (s.receive type stn use f) := by
  have he : RoleLegal (s.eliminate (f.typed type) stn).2 := h.frame (eliminate_only (within rfl) OnlyChanges.refl)
  exact h.ite ((h.frame (fcsBad_only (within rfl) OnlyChanges.refl)).ite ((h.frame (discFrame_only (within rfl) OnlyChanges.refl)).ite
    ((hu _ he).ite he)))

/-! Classes and pairs (Cyc.lean, Lsp.lean). -/

theorem updPair_legal {p : Nat} {f : Pair → Pair} (h : RoleLegal s) : RoleLegal (s.updPair p f) := h

theorem haltNotice_legal {c why : Nat} {n : DWord} : RoleLegal (s.haltNotice c why n) := settleFail_legal.ite enterHalt_legal

theorem failPair_legal {p why : Nat} (h : RoleLegal s) : RoleLegal (s.failPair p why) :=
  unrecoverable_legal (log_legal (s := s.updPair p _) h)

theorem firstMismatch_legal {p : Nat} {seq : Bool} (h : RoleLegal s) : RoleLegal (s.firstMismatch p seq) := by
  have hc : RoleLegal (s.countDarn p) := h.frame (countDarn_only (within rfl) OnlyChanges.refl)
  have hu := RoleLegal.ite (c := (!(s.pair p).underCkpt seq) = true) (s := (s.countDarn p).darnRec p true 0)
    (t := (s.countDarn p).updPair p fun x => { x with fence := true, restoring := true, taking := false })
    (hc.frame (darnRec_only (within rfl) OnlyChanges.refl)) hc
  exact (failPair_legal hu).ite hu

theorem mismatch_legal {p point : Nat} {seq : Bool} (h : RoleLegal s) : RoleLegal (s.mismatch p point seq) :=
  RoleLegal.ite (failPair_legal (h.frame (noteMismatch_only (within rfl) OnlyChanges.refl)))
    (firstMismatch_legal (h.frame (noteMismatch_only (within rfl) OnlyChanges.refl)))

theorem seal_legal {release : Nat → DefSt → State → State} {p : Nat} (hr : ∀ p d u, RoleLegal u → RoleLegal (release p d u))
    (h : RoleLegal s) : RoleLegal (s.seal release p) := by
  refine RoleLegal.frame (RoleLegal.foldl ?_ fun u d hu => hr p d u hu) (releaseStores_only (within rfl) OnlyChanges.refl)
  exact h

theorem schedule_legal {release : Nat → DefSt → State → State} {p : Nat} (hr : ∀ p d u, RoleLegal u → RoleLegal (release p d u))
    (h : RoleLegal s) : RoleLegal (s.schedule release p) := by
  have hp : RoleLegal (s.preemptOn release p) :=
    RoleLegal.of_sys (RoleLegal.ite (c := (s.pair p).starting = true) h (updPair_legal (seal_legal hr h))) rfl
  unfold State.schedule
  refine h.ite ?_
  split
  · exact h.ite (h.frame (pairIdle_only (within rfl) OnlyChanges.refl))
  · exact h.ite ((h.ite hp).frame (beginOn_only (within rfl) OnlyChanges.refl))

end Sys2Proof.Proofs
end

section
/-! The pair, the ring ports, the loops, time, safety and memory keep the role rule. -/

namespace Sys2Proof.Proofs

open Sys2Proof.Machine Sys2Proof.Safety Sys2Proof.Laws

variable {s t : State}

/-! The baste link (Dpx.lean). -/

theorem bothDown_legal (h : RoleLegal s) : RoleLegal s.bothDown := by
  have hu : RoleLegal s.holdUnfed := h.frame (holdUnfed_only (within rfl) OnlyChanges.refl)
  have hd : ∀ {d : Dpx2} {f : Dpx → Dpx}, RoleLegal (State.updDpx f { s.holdUnfed with dpx2 := d }) := hu
  exact takeover_legal.ite ((endInsync_legal hd).ite ((setSync_legal hd).ite ((setSync_legal hd).ite hd)))

theorem heartbeatMissed_legal {lane : Bool} (h : RoleLegal s) : RoleLegal (s.heartbeatMissed lane) := by
  have hm : RoleLegal (s.missOne lane) := h.frame (missOne_only (within rfl) OnlyChanges.refl)
  have hd : RoleLegal ((s.missOne lane).laneDown lane 1) := hm.frame (laneDown_only (within rfl) OnlyChanges.refl)
  exact RoleLegal.ite ((bothDown_legal hd).ite hd) hm

theorem crcError_legal {lane : Bool} (h : RoleLegal s) : RoleLegal (s.crcError lane) := by
  have hu : ∀ {f : Dpx → Dpx}, RoleLegal (s.updDpx f) := h
  have hd : ∀ {f : Dpx → Dpx}, RoleLegal ((s.updDpx f).laneDown lane 2) := hu.frame (laneDown_only (within rfl) OnlyChanges.refl)
  exact RoleLegal.ite ((bothDown_legal hd).ite hd) hu

theorem meetPartner_legal {replay : State → State} {hb : Hb} (h : RoleLegal s) : RoleLegal (s.meetPartner replay hb) := by
  unfold State.meetPartner
  refine RoleLegal.ite (setSync_legal endBoot_legal) (RoleLegal.ite (setSync_legal (RoleLegal.ite (ringStart_legal ?_) endBoot_legal))
    (setSync_legal endBoot_legal))
  exact h

/-- Who takes the role outside a start takes it only where the mode allows it. -/
theorem assumeRole_legal {replay : State → State} : RoleLegal (s.assumeRole replay) := by
  have ht : ∀ u : State, RoleLegal { u.takeEpoch with
      sys := { u.takeEpoch.sys with primary := roleAllowed u.sys.mode u.sys.from_ } } := fun u hp => by
    have e : u.takeEpoch.sys = u.sys := (takeEpoch_only (within rfl) OnlyChanges.refl : OnlyChanges [.dpx, .dpx2] u _).same .sys (by decide)
    show roleAllowed u.takeEpoch.sys.mode u.takeEpoch.sys.from_ = true
    rw [e]
    exact hp
  exact RoleLegal.foldl ((runClasses_legal (ht _)).ite (ht _)) fun _ _ h => h.frame (parameterise_only (within rfl) OnlyChanges.refl)

theorem followPartner_legal {replay : State → State} {hb : Hb} (h : RoleLegal s) : RoleLegal (s.followPartner replay hb) := by
  have hs : ∀ {st : SyncState} {n k : Nat}, RoleLegal (s.setSync st n k) := setSync_legal h
  unfold State.followPartner
  split
  · exact setSync_legal (((endInsync_legal h).ite h).frame (forgetVersions_only (within rfl) OnlyChanges.refl))
  · exact hs.ite (setMode_legal.ite ((endInsync_legal h).ite ((setSync_legal assumeRole_legal).ite (hs.ite (hs.ite h)))))

theorem takeHeartbeat_legal {replay : State → State} {time : Bool → Hb → State → State} {lane : Bool} {hb : Hb} (h : RoleLegal s)
    (ht : ∀ l b u, RoleLegal u → RoleLegal (time l b u)) : RoleLegal (s.takeHeartbeat replay time lane hb) := by
  have hn : RoleLegal (((time lane hb s).laneGood lane).notePartner lane hb) :=
    (ht _ _ _ h).frame (notePartner_only (within rfl) (laneGood_only (within rfl) OnlyChanges.refl))
  exact RoleLegal.ite (hn.ite (meetPartner_legal hn)) (hn.ite (followPartner_legal hn))

theorem heartbeatIn_legal {replay : State → State} {time : Bool → Hb → State → State} {lane : Bool} {hb : Hb} (h : RoleLegal s)
    (ht : ∀ l b u, RoleLegal u → RoleLegal (time l b u)) : RoleLegal (s.heartbeatIn replay time lane hb) :=
  (crcError_legal h).ite (takeHeartbeat_legal h ht)

theorem noPartnerFound_legal (h : RoleLegal s) : RoleLegal s.noPartnerFound :=
  RoleLegal.ite (s := { s with boot := _ }) h (setSync_legal endBoot_legal)

theorem heardWhileListening_legal (h : RoleLegal s) : RoleLegal s.heardWhileListening := (setSync_legal endBoot_legal).ite h

theorem absentExpired_legal {replay : State → State} (h : RoleLegal s) : RoleLegal (s.absentExpired replay) := by
  refine setSync_legal (RoleLegal.ite (ringStart_legal ?_) endBoot_legal)
  exact h

theorem claimWord_legal {replay : State → State} {v : Word} (h : RoleLegal s) : RoleLegal (s.claimWord replay v) := by
  have hk : ∀ k : Option Nat, RoleLegal { s with dpx2 := { s.dpx2 with claimKey := k } } := fun _ => h
  unfold State.claimWord
  refine (seqErr_legal (hk _)).ite ?_
  split
  · exact RoleLegal.ite (log_legal (setSync_legal assumeRole_legal)) (hk _)
  · exact seqErr_legal (hk _)

/-! Beacons (Net.lean). -/

theorem standbySlot_legal (h : RoleLegal s) : RoleLegal s.standbySlot := by
  have ht : RoleLegal s.countAbsent.showAbsent := h.frame (showAbsent_only (within rfl) (countAbsent_only (within rfl) OnlyChanges.refl))
  exact takeover_legal.ite ((ht.frame (reportAbsent_only (within rfl) OnlyChanges.refl)).ite ht)

theorem beaconSlot_legal (h : RoleLegal s) : RoleLegal s.beaconSlot := by
  have hb : RoleLegal s.sendBeacons := h.frame (sendBeacons_only (within rfl) OnlyChanges.refl)
  have hu := RoleLegal.ite (c := s.sendBeacons.watchesRings = true) (RoleLegal.foldl (f := fun v r => v.superviseRing r)
    (l := s.sendBeacons.cfg.rings.keys) hb fun _ _ h => h.frame (superviseRing_only (within rfl) OnlyChanges.refl)) hb
  exact (standbySlot_legal hu).ite hu

theorem beaconIn_legal {f : Kcp} (h : RoleLegal s) : RoleLegal (s.beaconIn f) := by
  have hn : RoleLegal ((s.noteDirection (f.typed 5)).noteBeacon (f.typed 5)) :=
    h.frame (noteBeacon_only (within rfl) (noteDirection_only (within rfl) OnlyChanges.refl))
  have he : RoleLegal (((s.noteDirection (f.typed 5)).noteBeacon (f.typed 5)).eliminate (f.typed 5) none).2 :=
    hn.frame (eliminate_only (within rfl) OnlyChanges.refl)
  exact h.ite ((h.frame (fcsBad_only (within rfl) OnlyChanges.refl)).ite ((h.frame (discFrame_only (within rfl) OnlyChanges.refl)).ite
    ((hn.frame (ringDelay_only (within rfl) OnlyChanges.refl)).ite
      ((heardWhileListening_legal (seeEpoch_legal (meetEpoch_legal he))).ite he))))

/-! Loops (Cle.lean). -/

theorem updLoop_legal {n : Nat} {f : Loop → Loop} (h : RoleLegal s) : RoleLegal (s.updLoop n f) := h

theorem takeLoopIn_legal {i : Nat} {f : Kcp} (h : RoleLegal s) : RoleLegal (s.takeLoopIn i f) := by
  have hr : RoleLegal ((s.meetEpoch f.port f.epoch).restarted i (f.payload.headD 0)) :=
    (meetEpoch_legal h).frame (restarted_only (within rfl) OnlyChanges.refl)
  exact RoleLegal.ite (RoleLegal.of_sys hr rfl) (hr.frame (updRingN_only (within rfl) OnlyChanges.refl))

theorem sendGroup_legal {n : Nat} (h : RoleLegal s) : RoleLegal (s.sendGroup n) :=
  RoleLegal.ite (backlogOver_legal (h.frame (sendRec_only (within rfl) OnlyChanges.refl))) h

theorem phase0_legal {n : Nat} (h : RoleLegal s) : RoleLegal (s.phase0 n) := by
  have hs : ∀ {f g : Loop → Loop} {c : Bool},
      RoleLegal (State.updLoop n g (if c = true then s.updLoop n f else (s.updLoop n f).sampleIns n InSrc.atPhase0)) :=
    fun {f _ _} => updLoop_legal (RoleLegal.ite (s := s.updLoop n f) h
      (RoleLegal.frame (s := s.updLoop n f) h (sampleIns_only (within rfl) OnlyChanges.refl)))
  exact RoleLegal.ite hs (sendGroup_legal hs)

theorem mirrorLoop_legal {n : Nat} (h : RoleLegal s) : RoleLegal (s.mirrorLoop n) :=
  RoleLegal.ite (backlogOver_legal (h.frame (sendRec_only (within rfl) OnlyChanges.refl))) h

theorem checkPair_legal {n : Nat} (h : RoleLegal s) : RoleLegal (s.checkPair n) :=
  RoleLegal.ite (s := s.updLoop n _) h (updLoop_legal (RoleLegal.ite (s := { s with cle := _ }) (t := { s with cle := _ }) h h))

theorem creaseOut_legal {n : Nat} (h : RoleLegal s) : RoleLegal (s.creaseOut n).2 :=
  RoleLegal.ite (updLoop_legal ((checkPair_legal h).frame (takeLoss_only (within rfl) OnlyChanges.refl))) h

theorem crease_legal {write : OutDst → Word → State → State} {n : Nat} (h : RoleLegal s)
    (hw : ∀ o w u, RoleLegal u → RoleLegal (write o w u)) : RoleLegal (s.crease write n) := by
  unfold State.crease
  refine RoleLegal.ite (hw _ _ _ h) ?_
  have hc : RoleLegal (s.creaseOut n).2 := creaseOut_legal h
  dsimp only
  split
  next he =>
    rw [he] at hc
    exact hc
  next u t he =>
    rw [he] at hc
    have hn : ∀ {f : Loop → Loop} {c : Bool}, RoleLegal (State.noteCrease n
        (if c = true then ((write (s.lcfg n).out u t).updLoop n f).countSat n u else (write (s.lcfg n).out u t).updLoop n f)) := fun {f _} =>
      have hl : RoleLegal ((write (s.lcfg n).out u t).updLoop n f) := updLoop_legal (hw _ _ _ hc)
      ((hl.frame (countSat_only (within rfl) OnlyChanges.refl)).ite hl).frame (noteCrease_only (within rfl) OnlyChanges.refl)
    exact (mirrorLoop_legal hn).frame (put_only (within rfl) OnlyChanges.refl)

theorem viaWindow_legal {w off : Nat} {own : Bool} {ini : Ini} {use : Nat → State → State} (h : RoleLegal s)
    (hu : ∀ n u, RoleLegal u → RoleLegal (use n u)) : RoleLegal (s.viaWindow w off own ini use) :=
  (roWr_legal h).ite ((unassignedWr_legal h).ite ((roWr_legal h).ite (hu _ _ h)))

theorem loopCmd_legal {w : Nat} {ini : Ini} {v : Word} (h : RoleLegal s) : RoleLegal (s.loopCmd w ini v) :=
  viaWindow_legal h fun _ _ h => updLoop_legal h

/-! Time, local outputs, safety, the Tally and memory (Tim.lean, Fio.lean, Saf.lean, Tly.lean, Mem.lean). -/

theorem writeMeas_legal {d : Nat} {v : Word} (h : RoleLegal s) : RoleLegal (s.writeMeas d v) :=
  (roWr_legal h).ite ((h.frame (submitMeas_only (within rfl) OnlyChanges.refl)).ite h)

theorem updTim_legal {f : Tim → Tim} (h : RoleLegal s) : RoleLegal (s.updTim f) := h

theorem realignWord_legal {v : Word} (h : RoleLegal s) : RoleLegal (s.realignWord v) := by
  unfold State.realignWord
  refine (seqErr_legal (updTim_legal h)).ite ?_
  split
  · exact RoleLegal.ite ((updTim_legal h).frame (realign_only (within rfl) OnlyChanges.refl)) (updTim_legal h)
  · exact seqErr_legal (updTim_legal h)

theorem hartGo_legal {v : Word} (h : RoleLegal s) : RoleLegal (s.hartGo v) := by
  have hu : ∀ {u : State} {f : Hart → Hart}, RoleLegal u → RoleLegal (u.updHart f) := fun h => h
  have hr : ∀ {o : Nat} {w : Word}, RoleLegal (s.setReg o w) := h
  exact RoleLegal.ite (accAddr_legal (hu h)) ((hu hr).ite ((hu hr).ite ((hu hr).frame (hartNext_only (within rfl) OnlyChanges.refl))))

theorem safDead_legal {c : Nat} {bySp : Bool} (h : RoleLegal s) : RoleLegal (s.safDead c bySp) := unrecoverable_legal (lockout_legal h)

theorem spCycle_legal {r : SpRun} (h : RoleLegal s) : RoleLegal (s.spCycle r) := by
  have hd : ∀ {u : State} {c : Bool} {k : Nat}, RoleLegal u → RoleLegal (if c = true then u.safDead k true else u) :=
    fun h => (safDead_legal h).ite h
  have hj : ∀ {u : State} {c : Bool} {b : Bool}, RoleLegal u → RoleLegal (if c = true then u.judgePress true b else u) := fun h =>
    (h.frame (judgePress_only (within rfl) OnlyChanges.refl)).ite h
  have hu : ∀ {u : State} {f : Saf → Saf}, RoleLegal u → RoleLegal (u.updSaf f) := fun h => h
  have hw : ∀ {u : State}, RoleLegal u → RoleLegal ((u.readBacks r.match_).spWsc r |>.spStores r) := fun h =>
    h.frame (spStores_only (within rfl) (spWsc_only (within rfl) (readBacks_only (within rfl) OnlyChanges.refl)))
  exact (hu (hj (hd (hd (hw (hu h)))))).frame (spSwitch_only (within rfl) OnlyChanges.refl)

theorem clrWord_legal {v : Word} (h : RoleLegal s) : RoleLegal (s.clrWord v) := by
  have hk : ∀ k : Option Nat, RoleLegal { s with tly := { s.tly with clrKey := k } } := fun _ => h
  unfold State.clrWord
  refine (seqErr_legal (hk _)).ite ?_
  split
  · exact RoleLegal.ite ((hk _).frame (registerClear_only (within rfl) OnlyChanges.refl)) (hk _)
  · exact seqErr_legal (hk _)

theorem updMm_legal {f : Mm → Mm} (h : RoleLegal s) : RoleLegal (s.updMm f) := h

theorem uncorrectable_legal {addr : Nat} {rinse part : Bool} {cls : Nat} (h : RoleLegal s) :
    RoleLegal (s.uncorrectable addr rinse part cls) :=
  RoleLegal.ite (log_legal (updMm_legal h)) (unrecoverable_legal (log_legal (updMm_legal h)))

theorem readCodeword_legal {addr : Nat} {syms : List Nat} {mis : Option (List Nat)} {rinse part : Bool} {cls : Nat} (h : RoleLegal s) :
    RoleLegal (s.readCodeword addr syms mis rinse part cls) := by
  have ht : ∀ {c : Bool} {f : Mm → Mm}, RoleLegal (if c = true then s else s.updMm f) := fun {_ f} => RoleLegal.ite (t := s.updMm f) h h
  unfold State.readCodeword
  dsimp only
  split
  · exact ht
  · exact ht.frame (corrected_only (within rfl) OnlyChanges.refl)
  · exact uncorrectable_legal ht

theorem access_legal {a : MemAcc} (h : RoleLegal s) : RoleLegal (s.access a) := by
  cases a with
  | read => exact readCodeword_legal h
  | write => exact h.frame (writeLine_only (within rfl) OnlyChanges.refl)

theorem parityTrip_legal {off g : Nat} (h : RoleLegal s) : RoleLegal (s.parityTrip off g) := by
  unfold State.parityTrip
  refine h.ite ?_
  split
  · exact lockout_legal (tripGroup_legal h)
  · exact lockout_legal (tripGroup_legal h)
  · exact keyTrip_legal h
  · exact unrecoverable_legal (tripGroup_legal h)

theorem injWord_legal {v : Word} (h : RoleLegal s) : RoleLegal (s.injWord v) :=
  (roWr_legal h).ite ((updMm_legal h).ite (updMm_legal h))

end Sys2Proof.Proofs
end

section
/-! The commands of the rings keep the role rule (Load.lean, Activate.lean, Admin.lean). -/

namespace Sys2Proof.Proofs

open Sys2Proof.Machine Sys2Proof.Safety Sys2Proof.Laws

variable {s t : State} {op : HostOp} {h : Hcmd}

/-! Program and region changes, activations. -/

theorem recordChange_legal (ho : OpLegal op) (hl : RoleLegal s) : RoleLegal (s.recordChange op) := by
  unfold State.recordChange
  split
  · split
    · exact record_legal ho hl
    · exact hl
  · exact hl

theorem changeOp_legal : OpLegal s.changeOp := OpLegal.of_frame fun _ => changeOp_op (within rfl)

theorem packageStored_legal (hl : RoleLegal s) : RoleLegal s.packageStored := by
  have ht : ∀ {f : Change → Change}, RoleLegal (s.updChg f) := hl
  exact (recordChange_legal changeOp_legal ht).ite (notice_legal ht)

theorem noteReason_legal (hl : RoleLegal t) : RoleLegal (s.noteReason op h t) := by
  unfold State.noteReason
  split
  · split
    · exact RoleLegal.ite (s := t.updAct _) hl hl
    · exact hl
  · exact hl

theorem runAct_legal (ho : OpLegal op) (hl : RoleLegal s) : RoleLegal (s.runAct op h) := noteReason_legal (runCmd_legal ho hl)

theorem updBoot_legal {f : Boot → Boot} (hl : RoleLegal s) : RoleLegal (s.updBoot f) := hl

theorem warmSwitch_legal {n : Nat} : RoleLegal (s.warmSwitch n) := by
  unfold State.warmSwitch
  extract_lets x restart img t0 t1 t2 t3 t4 t5 t6 t7 t8
  have h1 : RoleLegal t1 := updBoot_legal setMode_legal
  have h2 : RoleLegal t2 := h1.of_sys rfl
  have h3 : RoleLegal t3 := RoleLegal.ite (h2.frame (newConfig_only (within rfl) OnlyChanges.refl)) h2
  have h4 : RoleLegal t4 := RoleLegal.ite (updBoot_legal h3) h3
  have h5 : RoleLegal t5 := RoleLegal.ite (h4.frame (safStart_only (within rfl) (soOff_only (within rfl) OnlyChanges.refl))) h4
  have h6 : RoleLegal t6 := h5.frame (measure_only (within rfl) OnlyChanges.refl)
  have h7 : RoleLegal t7 := RoleLegal.ite (updBoot_legal h6) h6
  have h8 : RoleLegal t8 := by
    show RoleLegal (match x.cfg with | some _ => t7.updBoot _ | none => t7)
    split
    · exact updBoot_legal h7
    · exact h7
  exact h8.of_sys rfl

theorem leaveActivate_legal (hl : RoleLegal s) : RoleLegal s.leaveActivate := setMode_legal.ite hl

theorem completeAct_legal {st : BitVec 16} {w : Word} (hl : RoleLegal s) : RoleLegal (s.completeAct st w) :=
  hl.frame (completeAct_only (within rfl) OnlyChanges.refl)

theorem actRec_legal (hl : RoleLegal s) : RoleLegal s.actRec := hl.frame (actRec_only (within rfl) OnlyChanges.refl)

theorem updAct_legal {f : Act → Act} (hl : RoleLegal s) : RoleLegal (s.updAct f) := hl

theorem settleFrom_legal (hl : RoleLegal s) : RoleLegal s.settleFrom := actRec_legal (updAct_legal (leaveActivate_legal hl))

theorem afterSwitch_legal (hl : RoleLegal s) : RoleLegal s.afterSwitch := by
  unfold State.afterSwitch
  extract_lets u a t v
  have hu : RoleLegal u := RoleLegal.ite (hl.frame (sendVersions_only (within rfl) OnlyChanges.refl)) hl
  have ht : RoleLegal t := leaveActivate_legal hu
  have hv : RoleLegal v := updAct_legal ht
  split
  · exact updAct_legal hu
  split
  · exact completeAct_legal ht
  · exact endInsync_legal (actRec_legal hv)

theorem settleBad_legal {check : Nat} (hl : RoleLegal s) : RoleLegal (s.settleBad check) := by
  unfold State.settleBad
  extract_lets t
  have ht : RoleLegal t := updAct_legal (log_legal hl)
  split
  · exact ht.of_sys rfl
  · exact settleFail_legal

/-! The mode commands. -/

theorem leaveSync_legal (hl : RoleLegal s) : RoleLegal s.leaveSync := hl.ite (endInsync_legal hl)

theorem followMode_legal {m : Mode} : RoleLegal (s.followMode m) := setMode_legal

theorem followDue_legal {c : Nat} (hl : RoleLegal s) : RoleLegal (s.followDue c) := by
  unfold State.followDue
  split
  · exact followMode_legal.ite hl
  · exact hl

theorem enterHold_legal : RoleLegal (s.enterHold h) := setMode_legal

theorem leaveHold_legal : RoleLegal s.leaveHold := setMode_legal

theorem enterIdle_legal : RoleLegal s.enterIdle := setMode_legal

theorem leaveIdle_legal {seen : Option BootObs} : RoleLegal (s.leaveIdle seen) := by
  unfold State.leaveIdle
  exact RoleLegal.ite setMode_legal (lockout_legal setMode_legal)

theorem leaveRecovery_legal {dst : Mode} : RoleLegal (s.leaveRecovery dst) := setMode_legal

theorem res_legal {b : List Byte} {x : Word} {y : DWord} {w : Bool} {st : BitVec 16} (hl : RoleLegal s) :
    RoleLegal (HRes.mk s b x y w st).s := hl

theorem ite_res_legal {c : Prop} [Decidable c] {a b : HRes} (ha : RoleLegal a.s) (hb : RoleLegal b.s) :
    RoleLegal (if c then a else b).s := by
  split
  · exact ha
  · exact hb

theorem stopInto_legal {dst : Mode} {n : Nat} (hl : RoleLegal s) : RoleLegal (s.stopInto dst n).s :=
  ite_res_legal (res_legal setMode_legal) (res_legal (beginTrans_legal (hl.frame (stopClasses_only (within rfl) OnlyChanges.refl))))

theorem modeEffect_legal {dst : Mode} {obs : Option BootObs} (hl : RoleLegal s) : RoleLegal (s.modeEffect dst obs h).s := by
  unfold State.modeEffect
  split
  · exact res_legal leaveHold_legal
  · exact res_legal leaveIdle_legal
  · exact res_legal leaveRecovery_legal
  · exact ite_res_legal (res_legal enterHold_legal) (stopInto_legal hl)
  · exact ite_res_legal (res_legal enterHold_legal) (stopInto_legal hl)
  · exact ite_res_legal (res_legal enterHold_legal) (ite_res_legal (res_legal enterIdle_legal) (ite_res_legal (res_legal setMode_legal)
      (ite_res_legal (res_legal setMode_legal) (res_legal setMode_legal))))

theorem modeOp_legal {dst : Mode} {obs : Option BootObs} : OpLegal (s.modeOp dst obs) :=
  ⟨modeEffect_legal, fun e => nomatch e⟩

theorem runMode_legal {dst : Mode} {obs : Option BootObs} (hl : RoleLegal s) : RoleLegal (s.runMode dst obs h) :=
  runCmd_legal modeOp_legal hl

theorem ringDelete_legal {n : Nat} (hl : RoleLegal s) : RoleLegal (s.ringDelete n).s := by
  have hr : ∀ {u : State}, RoleLegal u → RoleLegal (u.removeRing n) := fun h => h.frame (removeRing_only (within rfl) OnlyChanges.refl)
  unfold State.ringDelete
  split
  · split
    · exact updRing_legal hl
    · exact hr (abortInfl_legal hl)
  · exact hr hl

theorem opRingDelete_legal : OpLegal opRingDelete := ⟨ringDelete_legal, fun e => nomatch e⟩

theorem opRestart_legal : OpLegal opRestart := ⟨beginTrans_legal, fun e => nomatch e⟩

theorem restart_legal {obs : BootObs} : RoleLegal (s.restart obs) := bootFrom2_legal

theorem runRestart_legal {obs : BootObs} (hl : RoleLegal s) : RoleLegal (s.runRestart obs h) := by
  have ht := runCmd_legal (h := { h with opcode := 0x08 }) opRestart_legal hl
  unfold State.runRestart
  dsimp only
  split
  · exact restart_legal.ite ht
  · exact ht

theorem opClear_legal : OpLegal opClear := OpLegal.of_frame fun _ => opClear_op (within rfl)

theorem newNonce_legal (hl : RoleLegal s) : RoleLegal s.newNonce := hl.frame (newNonce_only (within rfl) OnlyChanges.refl)

theorem afterToken_legal (hl : RoleLegal t) : RoleLegal (s.afterToken h t) := by
  have hu : RoleLegal (if hasToken h || needsToken (clearAudit h) s.sys.mode then t.newNonce else t) := (newNonce_legal hl).ite hl
  unfold State.afterToken
  split
  · dsimp only
    split
    · exact hu.frame (clearRefused_only (within rfl) OnlyChanges.refl)
    · exact hu
  · exact hl

theorem runClear_legal (hl : RoleLegal s) : RoleLegal (s.runClear h) := afterToken_legal (runCmd_legal opClear_legal hl)

/-! Every command of the rings. -/

theorem activateOp_legal : OpLegal (activateOp h) := OpLegal.of_frame fun _ => activateOp_op (within rfl)

theorem opCfgReturn_legal : OpLegal opCfgReturn := OpLegal.of_frame fun _ => opCfgReturn_op (within rfl)

theorem varWriteOp_legal : OpLegal s.varWriteOp := OpLegal.of_frame fun _ => varWriteOp_op (within rfl)

theorem opLoopWrite_legal : OpLegal opLoopWrite := OpLegal.of_frame fun _ => opLoopWrite_op (within rfl)

theorem hostOp_legal {o : HostOp} (e : s.hostOp h = some o) : OpLegal o := by
  unfold State.hostOp at e
  split at e <;> cases e
  · exact OpLegal.of_frame fun _ => opNop_op (within rfl)
  · exact OpLegal.of_frame fun _ => opIdentify_op (within rfl)
  · exact OpLegal.of_frame fun _ => opRingCreate_op (within rfl)
  · exact opRingDelete_legal
  · exact OpLegal.of_frame fun _ => opEventCreate_op (within rfl)
  · exact OpLegal.of_frame fun _ => opEventDelete_op (within rfl)
  · exact modeOp_legal
  · exact OpLegal.of_frame fun _ => opExchange_op (within rfl)
  · exact opRestart_legal
  · exact OpLegal.of_frame fun _ => opImageWrite_op (within rfl)
  · exact OpLegal.of_frame fun _ => opImageVerify_op (within rfl)
  · exact activateOp_legal
  · exact opCfgReturn_legal
  · exact OpLegal.of_frame fun _ => opQuote_op (within rfl)
  · exact opClear_legal
  · exact OpLegal.of_frame fun _ => opNop_op (within rfl)
  · exact OpLegal.of_frame fun _ => opVarRead_op (within rfl)
  · exact varWriteOp_legal
  · exact OpLegal.of_frame fun _ => opForceSet_op (within rfl)
  · exact OpLegal.of_frame fun _ => opForceClear_op (within rfl)
  · exact OpLegal.of_frame fun _ => opLoopRead_op (within rfl)
  · exact opLoopWrite_legal
  · exact OpLegal.of_frame fun _ => opTallyRead_op (within rfl)
  · exact OpLegal.of_frame fun _ => loadOp_op (within rfl)

theorem runEntry_legal (hl : RoleLegal s) : RoleLegal (s.runEntry h) := by
  have hd : RoleLegal s.drawObs.2 := hl.frame (drawObs_only (within rfl) OnlyChanges.refl)
  unfold State.runEntry
  split
  · exact runRestart_legal hd
  · exact runAct_legal activateOp_legal hl
  · exact runAct_legal opCfgReturn_legal hl
  · exact runClear_legal hl
  · exact hl.ite (runCmd_legal varWriteOp_legal hl)
  · exact hl.ite (runCmd_legal opLoopWrite_legal hl)
  · split
    next e => exact runCmd_legal (hostOp_legal e) hl
    next => exact hl.frame (runUnknown_only (within rfl) OnlyChanges.refl)

theorem hostError_legal {e : HostErr} (hl : RoleLegal s) : RoleLegal (s.hostError e) := by
  cases e with
  | entry n => exact hl.frame (entryFails_only (within rfl) OnlyChanges.refl)
  | payload h => exact runEntry_legal hl
  | returned h => exact runEntry_legal hl
  | completion h => exact runEntry_legal hl
  | event => exact hl.frame (eventFails_only (within rfl) OnlyChanges.refl)

/-! The end of a mirrored command, and the commands of P6. -/

theorem ackHost_legal {n : Nat} (hl : RoleLegal s) : RoleLegal (s.ackHost n) := by
  unfold State.ackHost
  split
  · exact hl
  · split
    next => exact hl
    next e => exact afterRecord_legal (hostOp_legal e) (updRing_legal hl)

theorem ackMissing_legal {n : Nat} (hl : RoleLegal s) : RoleLegal (s.ackMissing n) := by
  have ht : ∀ {f : Ring → Ring} {d : Dpx2}, RoleLegal { (s.endInsync 1).updRing n f with dpx2 := d } := endInsync_legal hl
  unfold State.ackMissing
  split
  · exact hl
  · split
    next => exact hl
    next e => exact recordJournal_legal (hostOp_legal e) ht

theorem endLost_legal {i : Infl} (hl : RoleLegal s) : RoleLegal (s.endLost i) := by
  have ht : ∀ {x : Hif} {n : Nat} {r : DWord}, RoleLegal (State.enterWin n r { s with hif := x }) := hl
  unfold State.endLost
  dsimp only
  split
  next e => exact RoleLegal.ite ((hostOp_legal e).effect ht) ht
  next => exact ht

theorem unaskedMissing_legal (hl : RoleLegal s) : RoleLegal s.unaskedMissing := (endInsync_legal hl).of_sys rfl

theorem lostMissing_legal {i : Infl} (hl : RoleLegal s) : RoleLegal (s.lostMissing i) := by
  have ht := unaskedMissing_legal hl
  unfold State.lostMissing
  dsimp only
  split
  · exact endLost_legal (ht.frame (journal_only (within rfl) OnlyChanges.refl))
  · exact ht

theorem p6Mode_legal {obs : Option BootObs} (hl : RoleLegal s) : RoleLegal (s.p6Mode obs h).2 := by
  have hn := newNonce_legal hl
  unfold State.p6Mode
  split
  · exact hl
  split
  · exact hn
  split
  · exact hl
  split
  · exact hl
  split
  · exact hn
  split
  · exact hn
  · exact leaveIdle_legal

theorem p6Run_legal {obs : Option BootObs} {n : BitVec 18} (hl : RoleLegal s) : RoleLegal (s.p6Run obs n h) := by
  have ha : ∀ {u : State} {st : BitVec 16} {b : List Byte}, RoleLegal u → RoleLegal (u.p6Answer n h st b) := fun h =>
    h.frame (p6Answer_only (within rfl) OnlyChanges.refl)
  exact (ha hl).ite ((ha hl).ite ((ha (p6Mode_legal hl)).ite (ha hl)))

end Sys2Proof.Proofs
end

section
/-! The records of the baste link keep the role rule (Records.lean). -/

namespace Sys2Proof.Proofs

open Sys2Proof.Machine Sys2Proof.Safety Sys2Proof.Laws

variable {s t : State} {op : HostOp} {h : Hcmd} {r : BRec}

theorem ackRec_legal {n : Nat} (hl : RoleLegal s) : RoleLegal (s.ackRec r n) := hl.frame (ackRec_only (within rfl) OnlyChanges.refl)

/-! Mirrored commands. -/

theorem mirrorMode_legal {m : Mode} {n : DWord} (hl : RoleLegal s) : RoleLegal (s.mirrorMode m n) :=
  hl.ite (RoleLegal.ite (s := { s with dpx2 := _ }) hl followMode_legal)

theorem mirrorEffect_legal {n : DWord} (hl : RoleLegal s) : RoleLegal (s.mirrorEffect h n) := by
  have hr : RoleLegal (if h.target.toNat % 4 = 1 then s.mirrorReturn else s) :=
    RoleLegal.ite (hl.frame (mirrorReturn_only (within rfl) OnlyChanges.refl)) hl
  have ha : ∀ {a : Act}, RoleLegal (s.mirrorAct a) := hl.frame (mirrorAct_only (within rfl) OnlyChanges.refl)
  unfold State.mirrorEffect
  split
  · exact mirrorMode_legal hl
  · exact hl
  · split
    · exact ha
    · exact RoleLegal.ite (hl.frame (confirm_only (within rfl) OnlyChanges.refl)) hl
    · exact hl.frame (cancelAct_only (within rfl) OnlyChanges.refl)
  · exact ha
  · exact hl.frame (mirrorWrites_only (within rfl) OnlyChanges.refl)
  · exact hl.frame ((opForceSet_op (within rfl)).effect OnlyChanges.refl)
  · exact hl.frame ((opForceClear_op (within rfl)).effect OnlyChanges.refl)
  · exact hl.frame (loopWrite_only (within rfl) OnlyChanges.refl)
  · exact hr.frame (updChg_only (within rfl) (mirrorChange_only (within rfl) OnlyChanges.refl))
  · exact hl

theorem takeHostwork_legal (hl : RoleLegal s) : RoleLegal (s.takeHostwork r) := by
  have hj : RoleLegal (s.joinHost r).2 := hl.frame (joinHost_only (within rfl) OnlyChanges.refl)
  have hm : ∀ {n : Nat} {a b : DWord} {p : Bool}, RoleLegal ((s.joinHost r).2.mirrorWin n a b p) :=
    hj.frame (mirrorWin_only (within rfl) OnlyChanges.refl)
  exact (ackRec_legal hj).ite ((ackRec_legal hj).ite (ackRec_legal (hm.ite (mirrorEffect_legal hm))))

/-! Records of a commit and of a loop. -/

theorem versionUnknown_legal (hl : RoleLegal s) : RoleLegal s.versionUnknown := endInsync_legal hl

theorem updMir_legal {c : Nat} {f : MirCls → MirCls} (hl : RoleLegal s) : RoleLegal (s.updMir c f) := hl

theorem takeLines_legal (hl : RoleLegal s) : RoleLegal (s.takeLines r) :=
  hl.ite ((versionUnknown_legal hl).ite (updMir_legal hl))

theorem freshStart_legal {f : State → State} : RoleLegal (s.freshStart f) := bootFrom2_legal

theorem restartPrevious_legal : RoleLegal s.restartPrevious := freshStart_legal

/-- The old primary of a handover goes on as standby. -/
theorem handedOver_legal : RoleLegal s.handedOver := by
  unfold State.handedOver
  extract_lets t1 hif dpx t2 t3 t4 dpx2 t5
  have h1 : RoleLegal t1 := asStandby_legal.frame (proofOpen_only (within rfl) OnlyChanges.refl)
  have h2 : RoleLegal t2 := h1.of_sys rfl
  have h3 : RoleLegal t3 := RoleLegal.ite (updAct_legal h2) h2
  have h4 : RoleLegal t4 := finishWaiting_legal h3
  have h5 : RoleLegal t5 := h4.of_sys rfl
  exact restartPrevious_legal.ite h5

theorem takeCommitEnd_legal (hl : RoleLegal s) : RoleLegal (s.takeCommitEnd r) := by
  have hm : ∀ {c n : Nat}, RoleLegal ((s.updMir c MirCls.clearIn).ackRec r n) := ackRec_legal (updMir_legal hl)
  have ht : ∀ {c n : Nat} {w : Word} {d : DWord}, RoleLegal (((s.takeCommit c r).changeLapsed w c d).ackRec r n) :=
    ackRec_legal (hl.frame (changeLapsed_only (within rfl) (takeCommit_only (within rfl) OnlyChanges.refl)))
  exact (ackRec_legal hl).ite ((versionUnknown_legal hm).ite (hm.ite (handedOver_legal.ite ht)))

theorem takeLoopState_legal (hl : RoleLegal s) : RoleLegal (s.takeLoopState r) :=
  hl.ite ((versionUnknown_legal hl).ite (hl.frame (takeLoopEntries_only (within rfl) OnlyChanges.refl)))

theorem takeLoopGroup_legal (hl : RoleLegal s) : RoleLegal (s.takeLoopGroup r) :=
  hl.ite ((versionUnknown_legal hl).ite (RoleLegal.ite (updLoop_legal hl) hl))

/-! Images, and the start that a renewed configuration asks for. -/

theorem restart5_legal : RoleLegal s.restart5 := by
  refine bootExit_legal (RoleLegal.of_sys (step6_legal (step5_legal (step3_legal (log_legal ?_)))) rfl)
  exact RoleLegal.standby rfl

theorem takeFirmware_legal {b : List Byte} {n : DWord} (hl : RoleLegal s) : RoleLegal (s.takeFirmware b n) :=
  freshStart_legal.ite (setSync_legal (notice_legal hl))

theorem takeConfig_legal {b : List Byte} (hl : RoleLegal s) : RoleLegal (s.takeConfig b) := restart5_legal.ite hl

theorem takeProgram_legal {b : List Byte} (hl : RoleLegal s) : RoleLegal (s.takeProgram b) := restart5_legal.ite hl

theorem takeContent_legal {k : Nat} {b : List Byte} {n : DWord} (hl : RoleLegal s) : RoleLegal (s.takeContent k b n) := by
  have hs : ∀ {a : Area}, RoleLegal (s.takeStaged a b n) := hl.frame (takeStaged_only (within rfl) OnlyChanges.refl)
  unfold State.takeContent
  split
  · exact hs.ite ((takeFirmware_legal hl).ite hl)
  · exact hs.ite ((takeConfig_legal hl).ite hl)
  · exact (takeProgram_legal hl).ite hl
  · exact hl.frame (takePackage_only (within rfl) OnlyChanges.refl)

theorem takeImage_legal (hl : RoleLegal s) : RoleLegal (s.takeImage r) := by
  have hu : ∀ {d : Dpx2}, RoleLegal { s.ackRec r 0 with dpx2 := d } := ackRec_legal hl
  exact (ackRec_legal hl).ite ((takeContent_legal hu).ite hu)

/-! Notices and acknowledges. -/

theorem opSwitch_legal : OpLegal opSwitch := OpLegal.of_frame fun _ => opSwitch_op (within rfl)

theorem takeReady_legal (hl : RoleLegal s) : RoleLegal (s.takeReady r) := by
  have ht : RoleLegal (s.ackRec r 0) := ackRec_legal hl
  have hc : ∀ {f : Change → Change}, RoleLegal ((s.ackRec r 0).updChg f) := ht
  exact ht.ite ((recordChange_legal changeOp_legal hc).ite ((recordPrepared_legal opSwitch_legal (updAct_legal ht)).ite ht))

theorem takeCheckFailed_legal (hl : RoleLegal s) : RoleLegal s.takeCheckFailed :=
  hl.ite (RoleLegal.ite (hl.frame (refuseChange_only (within rfl) OnlyChanges.refl))
    ((refuseRecorded_legal opSwitch_legal (updAct_legal hl)).ite ((setSync_legal hl).ite hl)))

theorem takeFailure_legal (hl : RoleLegal s) : RoleLegal s.takeFailure :=
  takeover_legal.ite (t := { s with dpx2 := _ }) hl

theorem takeHalt_legal (hl : RoleLegal s) : RoleLegal (s.takeHalt r) := haltNotice_legal.ite hl

theorem takeNotice_legal (hl : RoleLegal s) : RoleLegal (s.takeNotice r) := by
  have hh : ∀ {b : Bool}, RoleLegal (s.takeHandover b r) := hl.frame (takeHandover_only (within rfl) OnlyChanges.refl)
  unfold State.takeNotice
  split
  · exact takeFailure_legal hl
  · exact takeHalt_legal hl
  · exact hh
  · exact hh
  · exact hl.frame (ringAbsent_only (within rfl) OnlyChanges.refl)
  · exact hl.frame (partnerProofFail_only (within rfl) OnlyChanges.refl)
  · exact hl.frame (takeCutIn_only (within rfl) OnlyChanges.refl)
  · exact takeReady_legal hl
  · exact takeCheckFailed_legal hl
  · exact hl

theorem takeAck_legal (hl : RoleLegal s) : RoleLegal (s.takeAck r) := by
  have hd : ∀ {d : Dpx2}, RoleLegal { s with dpx2 := d } := hl
  unfold State.takeAck
  dsimp only
  split
  · split
    · exact hl
    · split
      · exact ackHost_legal hl
      · split
        · exact endLost_legal hl
        · exact hd
  · exact RoleLegal.ite (hd.frame (tryAbsent_only (within rfl) (tryHandover_only (within rfl) OnlyChanges.refl))) hl
  · exact RoleLegal.ite (RoleLegal.ite (hl.frame (handoverRefused_only (within rfl) OnlyChanges.refl)) hl)
      (RoleLegal.ite (hl.frame (actInSync_only (within rfl) (enterSync_only (within rfl) OnlyChanges.refl))) hl)
  · exact hl

/-! Every record, in the order of its number. -/

theorem meetVersion_legal {w : Word} {c : Nat} {n : DWord} (hl : RoleLegal s) : RoleLegal (s.meetVersion w c n) :=
  hl.frame (meetVersion_only (within rfl) OnlyChanges.refl)

theorem useRec_legal (hl : RoleLegal s) : RoleLegal (s.useRec r) := by
  unfold State.useRec
  split
  · exact takeAck_legal hl
  · exact takeHostwork_legal hl
  · exact takeLines_legal (meetVersion_legal hl)
  · exact takeCommitEnd_legal (meetVersion_legal hl)
  · exact takeLoopState_legal hl
  · exact takeLoopGroup_legal hl
  · exact hl.frame (takeHdrs_only (within rfl) OnlyChanges.refl)
  · exact hl.frame (takeVersions_only (within rfl) OnlyChanges.refl)
  · exact hl.frame (takeWindow_only (within rfl) OnlyChanges.refl)
  · exact takeNotice_legal hl
  · exact takeImage_legal hl
  · exact hl

theorem nextRec_legal (hl : RoleLegal s) : RoleLegal (s.nextRec r) := useRec_legal (s := { s with dpx2 := _ }) hl

theorem drainRecs_legal {n : Nat} (hl : RoleLegal s) : RoleLegal (s.drainRecs n) := by
  induction n generalizing s with
  | zero => exact hl
  | succ n ih =>
    unfold State.drainRecs
    split
    · exact hl
    · exact ih (nextRec_legal (s := { s with dpx2 := _ }) hl)

theorem takeRec_legal (hl : RoleLegal s) : RoleLegal (s.takeRec r) := by
  have hw : ∀ {d : Dpx2}, RoleLegal { s with dpx2 := d } := hl
  exact (crcError_legal hl).ite ((drainRecs_legal (nextRec_legal hl)).ite (RoleLegal.ite (hl.ite hw) hl))

theorem gapOver_legal (hl : RoleLegal s) : RoleLegal s.gapOver := by
  have hg : ∀ {d : Dpx2}, RoleLegal { s.endInsync 9 with dpx2 := d } := endInsync_legal hl
  unfold State.gapOver
  split
  · exact hl
  · exact drainRecs_legal hg

/-! The switch of a pair and the handover. -/

theorem missedAt_legal (hl : RoleLegal s) : RoleLegal s.missedAt :=
  RoleLegal.ite ((completeAct_legal hl).ite (restartPrevious_legal.ite hl)) hl

theorem handToPartner_legal : RoleLegal s.handToPartner := by
  unfold State.handToPartner
  extract_lets t1 t2 dpx2 t3
  have h2 : RoleLegal t2 := asStandby_legal
  have h3 : RoleLegal t3 := h2.of_sys rfl
  exact RoleLegal.ite (updAct_legal h3) h3

theorem takeOverByCommand_legal : RoleLegal s.takeOverByCommand := by
  have ht : ∀ {d : Dpx2}, RoleLegal { ((s.setMode .takeover 6).beginTrans .run 6 31).takeEpoch with dpx2 := d } :=
    takeEpoch_legal (beginTrans_legal setMode_legal)
  exact startTakeover_legal ht

end Sys2Proof.Proofs
end

section
/-! Register writes, the cycle and the clock keep the role rule (Follow.lean, Cycle.lean). -/

namespace Sys2Proof.Proofs

open Sys2Proof.Machine Sys2Proof.Safety Sys2Proof.Laws

variable {s t : State}

/-! Writes of registers. -/

theorem updPress_legal {o : Nat} {f : Press → Press} (h : RoleLegal s) : RoleLegal (s.updPress o f) := h

theorem setReg_legal {o : Nat} {v : Word} (h : RoleLegal s) : RoleLegal (s.setReg o v) := h

theorem goAt_legal {o : Nat} {v : Word} (h : RoleLegal s) : RoleLegal (s.goAt o v) := RoleLegal.ite (accAddr_legal (updPress_legal h)) h

theorem stageAt_legal {o g : Nat} {v : Word} (h : RoleLegal s) : RoleLegal (s.stageAt o g v) :=
  RoleLegal.ite (accAddr_legal (updPress_legal h)) h

theorem windowWrite_legal {ini : Ini} {o w k : Nat} {v : Word} (h : RoleLegal s) : RoleLegal (s.windowWrite ini o w k v) := by
  have hl : ∀ {u : State} {op : Bool} {n : Nat}, RoleLegal u → RoleLegal
      (if (if op then (s.loop n).opPress.pend else (s.loop n).bkPress.pend) then u.accAddr o false else u) :=
    fun h => (accAddr_legal h).ite h
  have hg : ∀ {u : State} {op : Bool} {n : Nat}, RoleLegal u → RoleLegal ((if v.getLsbD 0 then
      (fun t => if (if op then (s.loop n).opPress.pend else (s.loop n).bkPress.pend) then t.accAddr o false else t) else id) u) :=
    fun h => by
      split
      · exact hl h
      · exact h
  have hv : ∀ {own : Bool} {use : Nat → State → State}, (∀ n u, RoleLegal u → RoleLegal (use n u)) →
      RoleLegal (s.viaWindow w o own ini use) := fun hu => viaWindow_legal h hu
  unfold State.windowWrite
  dsimp only
  split
  · exact RoleLegal.ite (setReg_legal h) (roWr_legal h)
  split
  · exact (roWr_legal h).ite (hv fun n u h => hl (op := true) (updLoop_legal h))
  split
  · exact hv fun n u h => hg (op := true) (updLoop_legal h)
  split
  · exact hv fun n u h => hg (op := false) (updLoop_legal h)
  split
  · exact loopCmd_legal h
  · exact hv fun n u h => hl (op := false) (updLoop_legal h)

theorem kick_legal (h : RoleLegal s) : RoleLegal s.kick := RoleLegal.ite (s := { s with sys := _ }) h h

theorem restartWord_legal {v : Word} {obs : BootObs} (h : RoleLegal s) : RoleLegal (s.restartWord v obs) := by
  have hk : ∀ {k : Option Nat}, RoleLegal { s with sys := { s.sys with restartKey := k } } := h
  unfold State.restartWord
  dsimp only
  split
  · exact seqErr_legal hk
  · split
    · exact restart_legal.ite hk
    · exact seqErr_legal hk

theorem ldWord_legal {v : Word} {img : List Byte} (h : RoleLegal s) : RoleLegal (s.ldWord v img) := by
  have hk : ∀ {b : Boot}, RoleLegal { s with boot := b } := h
  unfold State.ldWord
  dsimp only
  split
  · exact roWr_legal h
  · split
    · exact RoleLegal.ite (hk.frame (loadImage_only (within rfl) OnlyChanges.refl)) hk
    · exact seqErr_legal hk

theorem writeOnly_legal {o : Nat} {v : Word} {mean : Option Int} (h : RoleLegal s) : RoleLegal (s.writeOnly o v mean) := by
  unfold State.writeOnly
  refine RoleLegal.ite (restartWord_legal (h.frame (drawObs_only (within rfl) OnlyChanges.refl))) ?_
  refine (kick_legal h).ite ((claimWord_legal h).ite ((realignWord_legal h).ite ?_))
  refine RoleLegal.ite (h.frame (rearm_only (within rfl) OnlyChanges.refl)) ((clrWord_legal h).ite ?_)
  refine RoleLegal.ite (ldWord_legal (h.frame (hostImage_only (within rfl) OnlyChanges.refl))) ?_
  refine RoleLegal.ite (h.frame (debugWrite_only (within rfl) OnlyChanges.refl)) ?_
  split
  · dsimp only
    split
    · exact h
    · exact h
    · exact writeMeas_legal h
  · exact RoleLegal.ite (RoleLegal.ite (h.frame (canCmd_only (within rfl) OnlyChanges.refl)) h)
      (h.frame (trimWrite_only (within rfl) OnlyChanges.refl))

theorem writeNow_legal {o : Nat} {v : Word} (h : RoleLegal s) : RoleLegal (s.writeNow o v) := by
  have hm : ∀ {f : Saf}, RoleLegal { s with saf := f } := h
  exact (injWord_legal h).ite (RoleLegal.ite (h.frame (lookRecord_only (within rfl) OnlyChanges.refl))
    (RoleLegal.ite ((hartGo_legal h).ite (setReg_legal h)) (hm.ite (setReg_legal h))))

theorem writeReg_legal {o : Nat} {r : RegRow} {v : Word} {mean : Option Int} (h : RoleLegal s) : RoleLegal (s.writeReg o r v mean) := by
  unfold State.writeReg
  dsimp only
  split
  · exact roWr_legal h
  · exact writeNow_legal h
  · exact writeOnly_legal h
  · exact stageAt_legal h
  · exact h
  · exact h
  · exact goAt_legal h

theorem msixWrite_legal {o : Nat} {v : Word} (h : RoleLegal s) : RoleLegal (s.msixWrite o v) := by
  have hm : ∀ {x : Hif}, RoleLegal { s with hif := x } := h
  unfold State.msixWrite
  dsimp only
  exact (roWr_legal h).ite (RoleLegal.ite (hm.ite (RoleLegal.ite (hm.frame (msix_only (within rfl) OnlyChanges.refl)) hm)) (setReg_legal h))

theorem fullWrite_legal {ini : Ini} {o : Nat} {v : Word} (h : RoleLegal s) : RoleLegal (s.fullWrite ini o v) := by
  unfold State.fullWrite
  split
  · exact msixWrite_legal h
  split
  · exact unassignedWr_legal h
  refine (roWr_legal h).ite ((windowWrite_legal h).ite ((roWr_legal h).ite ?_))
  split
  · exact writeReg_legal h
  · exact postTo_legal h

theorem aliasWrite_legal {ini : Ini} {o i : Nat} {b : Bool} (h : RoleLegal s) : RoleLegal (s.aliasWrite ini o i b) := by
  unfold State.aliasWrite
  split
  · exact fullWrite_legal h
  split
  · exact unassignedWr_legal h
  · exact (roWr_legal h).ite (fullWrite_legal h)

/-! Presses, votes and parity. -/

theorem afterPress_legal {o : Nat} (h : RoleLegal s) : RoleLegal (s.afterPress o) :=
  RoleLegal.ite (s := { s with sys := _ }) h (RoleLegal.ite (h.frame (adminPressed_only (within rfl) OnlyChanges.refl))
    (RoleLegal.ite (h.frame (psCount_only (within rfl) OnlyChanges.refl)) (RoleLegal.ite (s := s.updDio _ _) h h)))

theorem takePress_legal {o : Nat} (h : RoleLegal s) : RoleLegal (s.takePress o) := by
  have hm : RoleLegal ((groupOf o).foldl (fun (u : State) m => u.setLive m (u.reg m)) s) := h.foldl fun _ _ h => h
  exact RoleLegal.ite (updPress_legal h) (updPress_legal (afterPress_legal hm))

theorem takeLoopPress_legal {o : Nat} (h : RoleLegal s) : RoleLegal (s.takeLoopPress o) := by
  have hu : ∀ {n : Nat} {f : Loop → Loop}, RoleLegal (s.updLoop n f) := h
  exact h.ite (hu.ite (hu.ite (sendGroup_legal hu)))

theorem voteOne_legal {o : Nat} (h : RoleLegal s) : RoleLegal (s.voteOne o) := by
  have hs : ∀ {u : State}, RoleLegal u → RoleLegal { u with sys := { u.sys with voteFix := u.sys.voteFix + 1 } } := fun h => h
  refine h.ite (RoleLegal.ite (hs (log_legal ?_)) (log_legal ?_)) <;> exact h

theorem checkParity_legal {o : Nat} (h : RoleLegal s) : RoleLegal (s.checkParity o) := by
  unfold State.checkParity
  split
  · exact parityTrip_legal h
  · exact h

theorem bankLoaded_legal {obs : BootObs} (h : RoleLegal s) : RoleLegal (s.bankLoaded obs) := by
  unfold State.bankLoaded
  dsimp only
  split
  · exact restart_legal
  · exact h

/-! A cycle from its start to its commit. -/

theorem releaseDef_legal (p : Nat) (d : DefSt) (u : State) (h : RoleLegal u) : RoleLegal (releaseDef p d u) := by
  have hc : ∀ {c q o : Nat} {e : Bool} {b : List Byte}, RoleLegal (u.canRequest p c q e o b) :=
    h.frame (canRequest_only (within rfl) OnlyChanges.refl)
  unfold releaseDef
  split
  · exact (fullWrite_legal h).ite h
  · exact h
  · exact hc
  · exact hc
  · exact h.frame (hartRequest_only (within rfl) OnlyChanges.refl)

theorem updCls_legal {c : Nat} {f : Cls → Cls} (h : RoleLegal s) : RoleLegal (s.updCls c f) := h

theorem startOn_legal {c ns : Nat} {n : DWord} (h : RoleLegal s) : RoleLegal (s.startOn c n ns) := by
  have hc : RoleLegal ((s.latchLoops c).startCycle c n ns) :=
    h.frame (startCycle_only (within rfl) (latchLoops_only (within rfl) OnlyChanges.refl))
  exact (schedule_legal releaseDef_legal hc).frame (proofJudge_only (within rfl) OnlyChanges.refl)

theorem boundaryBusy_legal {c : Nat} (h : RoleLegal s) : RoleLegal (s.boundaryBusy c) :=
  RoleLegal.ite (updCls_legal h) (haltNotice_legal.ite h)

theorem decideBusy_legal {c : Nat} (h : RoleLegal s) : RoleLegal (s.decideBusy c) :=
  RoleLegal.ite (boundaryBusy_legal (updCls_legal h)) h

theorem boundary_legal {c : Nat} (h : RoleLegal s) : RoleLegal (s.boundary c) := by
  have ht : ∀ {f : Cls → Cls}, RoleLegal ((s.decideBusy c).updCls c f) := updCls_legal (decideBusy_legal h)
  exact RoleLegal.ite (ht.frame (watchStations_only (within rfl) OnlyChanges.refl)) (RoleLegal.ite (updCls_legal ht) (startOn_legal ht))

theorem bodyEnd_legal {c : Nat} {work : Work} (h : RoleLegal s) : RoleLegal (s.bodyEnd c work) := by
  have hw : ∀ {p : Nat}, RoleLegal ((s.runWork p c work).applyForces c true) :=
    h.frame (applyForces_only (within rfl) (runWork_only (within rfl) OnlyChanges.refl))
  exact RoleLegal.foldl (updPair_legal hw) fun _ _ h => releaseDef_legal _ _ _ h

theorem firstCommit_legal : RoleLegal s.firstCommit := setMode_legal

theorem actCommit_legal {took : Bool} (h : RoleLegal s) : RoleLegal (s.actCommit took) :=
  (settleFrom_legal h).ite ((completeAct_legal h).ite ((settleFrom_legal h).ite h))

theorem fastCommit_legal (h : RoleLegal s) : RoleLegal s.fastCommit := by
  have ht : ∀ {c : Prop} [Decidable c], RoleLegal (if c then s.firstCommit.resumeChange else s) :=
    RoleLegal.ite (firstCommit_legal.frame (resumeChange_only (within rfl) OnlyChanges.refl)) h
  exact (actCommit_legal ht).of_sys rfl

theorem updMem_legal {c : Nat} {f : ClsMem → ClsMem} (h : RoleLegal s) : RoleLegal (s.updMem c f) := h

theorem mirrorCommit_legal {c : Nat} (h : RoleLegal s) : RoleLegal (s.mirrorCommit c) := by
  have hs : ∀ {b : Bool} {i d g : List Nat}, RoleLegal (s.sendCommit b c i d g) := h.frame (sendCommit_only (within rfl) OnlyChanges.refl)
  exact RoleLegal.ite (updMem_legal (backlogOver_legal hs)) (h.ite (updMem_legal (hs.ite h)))

theorem stopDone_legal (h : RoleLegal s) : RoleLegal s.stopDone := by
  unfold State.stopDone
  split
  · exact (finishTrans_legal (leaveSync_legal h)).ite h
  · exact h

theorem lateStart_legal {c : Nat} (h : RoleLegal s) : RoleLegal (s.lateStart c) := by
  unfold State.lateStart
  dsimp only
  split
  · exact (startOn_legal h).ite h
  · exact (startOn_legal (updCls_legal h)).ite h

theorem writeIndex_legal {c : Nat} (h : RoleLegal s) : RoleLegal (s.writeIndex c) := by
  unfold State.writeIndex
  extract_lets us t1 t2 t3 t4
  have h1 : RoleLegal t1 := updMem_legal (h.frame (overrunRec_only (within rfl) OnlyChanges.refl))
  have h2 : RoleLegal t2 := updCls_legal h1
  have h3 : RoleLegal t3 := (fastCommit_legal h2).ite h2
  have h4 : RoleLegal t4 := stopDone_legal ((mirrorCommit_legal h3).frame
    (changeCommitted_only (within rfl) (answerReads_only (within rfl) OnlyChanges.refl)))
  exact schedule_legal releaseDef_legal (lateStart_legal h4)

theorem endOrWrite_legal {c : Nat} {early : Bool} (h : RoleLegal s) : RoleLegal (s.endOrWrite c early) :=
  (schedule_legal releaseDef_legal (updCls_legal h)).ite (writeIndex_legal h)

theorem commit_legal {c : Nat} {work : Work} {early : Bool} (h : RoleLegal s) : RoleLegal (s.commit c work early) := by
  have hw : ∀ {p : Nat}, RoleLegal (s.runWork p c work) := h.frame (runWork_only (within rfl) OnlyChanges.refl)
  have hb : ∀ {p : Nat}, RoleLegal (s.brokenEnd c p work) := h.frame (brokenEnd_only (within rfl) OnlyChanges.refl)
  have hi : ∀ {p : Nat}, RoleLegal ((s.bodyEnd c work).pairIdle p) := (bodyEnd_legal h).frame (pairIdle_only (within rfl) OnlyChanges.refl)
  exact h.ite ((h.ite (writeIndex_legal h)).ite (h.ite (hb.ite (hw.ite (endOrWrite_legal hi)))))

theorem hardOver_legal {c : Nat} (h : RoleLegal s) : RoleLegal (s.hardOver c) := (log_legal h).ite haltNotice_legal

/-- The passing of time after a command. -/
theorem clock_legal (h : RoleLegal s) : RoleLegal s.clock := by
  have ht : ∀ {u : State} {x : Tim} {n : Nat}, RoleLegal u → RoleLegal { u with tim := x, sys := { u.sys with opNs := n } } := fun h => h
  unfold State.clock
  refine h.ite (ht ?_)
  split
  · exact h
  · exact settleState_legal (h.foldl fun _ _ h => decideBusy_legal h)

end Sys2Proof.Proofs
end

section
/-! Every command keeps the role rule (O58). -/

namespace Sys2Proof.Proofs

open Sys2Proof.Machine Sys2Proof.Safety Sys2Proof.Laws

variable {s t : State} {h : Hcmd}

/-- A next state, where there is one, keeps the role rule. -/
def LegalOut (o : Host.Outcome State Fault Refusal) : Prop := ∀ t, o = .next t → RoleLegal t

theorem LegalOut.next (hl : RoleLegal t) : LegalOut (.next t) := fun _ e => by
  cases e
  exact hl

theorem LegalOut.done (hl : RoleLegal t) : LegalOut (done s t) := LegalOut.next (settleState_legal hl)

theorem LegalOut.fault {f : Fault} : LegalOut (.fault f) := fun _ e => by cases e

theorem LegalOut.ite {c : Prop} [Decidable c] {o p : Host.Outcome State Fault Refusal} (ho : LegalOut o) (hp : LegalOut p) :
    LegalOut (if c then o else p) := by
  split
  · exact ho
  · exact hp

/-! The commands that branch on more than a condition. -/

theorem bar2Write_legal {page k : Nat} {v : Word} {be : BitVec 4} (hl : RoleLegal s) : LegalOut (s.bar2Write page k v be) :=
  .ite .fault (.ite .fault (.ite (.next hl) (.ite (.done (partialWr_legal hl)) (.done (doorbell_legal hl)))))

theorem recIn_legal {n : Nat} {r : BRec} (hl : RoleLegal s) : LegalOut (s.recIn n r) := .ite (.done (takeRec_legal hl)) (.next hl)

theorem postedWriteDone_legal {b : Nat} (hl : RoleLegal s) : LegalOut (execPostedWriteDone b s) := by
  have ht : ∀ {p : Tab Posted}, RoleLegal { s with posted := p } := hl
  unfold execPostedWriteDone
  split
  · dsimp only
    split
    · exact .done (writeReg_legal ht)
    · exact .done ht
  · exact .next hl

theorem pressGo_legal {ini : Ini} {o : Nat} (hl : RoleLegal s) : LegalOut (execPressGo ini o s) := by
  unfold execPressGo
  split
  · exact .ite (.done (fullWrite_legal hl)) (.next hl)
  · exact .next hl

theorem voteSweep_legal {l : List (Nat × Nat × Word)} (hl : RoleLegal s) : LegalOut (execVoteSweep l s) := by
  refine .ite (.next hl) (.done (RoleLegal.foldl (RoleLegal.foldl hl ?_) fun _ _ => voteOne_legal))
  exact fun _ _ h => h

theorem paritySweep_legal {l : List Nat} (hl : RoleLegal s) : LegalOut (execParitySweep l s) := by
  refine .ite (.next hl) (.done (RoleLegal.foldl ?_ fun _ _ => checkParity_legal))
  exact hl

theorem mirrorAckTimeout_legal {r : DWord} (hl : RoleLegal s) : LegalOut (execMirrorAckTimeout r s) := by
  unfold execMirrorAckTimeout
  split
  · exact .ite (.done (ackMissing_legal hl)) (.next hl)
  · split
    · exact .ite (.done (lostMissing_legal hl)) (.next hl)
    · exact .ite (.done (unaskedMissing_legal hl)) (.next hl)

/-- A MODE_SET that no mode was left for is refused by its check. -/
theorem refusedMode_legal {m : Mode} {obs : Option BootObs} :
    OpLegal { s.modeOp m obs with check := fun _ _ => .no St.modeRefused 0 } := ⟨modeEffect_legal, fun e => nomatch e⟩

theorem modeSetIdleExit_legal {obs : BootObs} (hl : RoleLegal s) : LegalOut (execModeSetIdleExit h obs s) := by
  unfold execModeSetIdleExit
  dsimp only
  split
  · exact .ite (.done (p6Run_legal hl)) (.next hl)
  · exact .done ((runMode_legal hl).ite (runCmd_legal refusedMode_legal hl))

theorem mgmt_legal {f : Kcp} (hl : RoleLegal s) : LegalOut (execMgmt f h s) :=
  .ite (.next hl) (.ite (.next (hl.frame (fcsBad_only (within rfl) OnlyChanges.refl)))
    (.ite (.next (hl.frame (discFrame_only (within rfl) OnlyChanges.refl)))
      (.done ((p6Run_legal hl).ite (hl.frame (p6Answer_only (within rfl) OnlyChanges.refl))))))

theorem settleEnd_legal {f : Option (Fin 5)} (hl : RoleLegal s) : LegalOut (execSettleEnd f s) := by
  unfold execSettleEnd
  refine .ite ?_ (.next hl)
  split
  · exact .done (hl.frame (settled_only (within rfl) OnlyChanges.refl))
  · exact .done (settleBad_legal hl)

theorem areaWriteComplete_legal {a : Fin 3} {obs : BootObs} (hl : RoleLegal s) : LegalOut (execAreaWriteComplete a obs s) :=
  .ite (.next hl) (.ite (.ite (.done (bankLoaded_legal hl)) (.next hl))
    (.ite (.done (hl.frame (areaWritten_only (within rfl) OnlyChanges.refl))) (.next hl)))

theorem classBoundary_legal {c : Fin 8} {mem : List MemAcc} {w : Work} (hl : RoleLegal s) : LegalOut (execClassBoundary c mem w s) := by
  have hm : RoleLegal (mem.foldl (fun (u : State) a => u.access a) s) := hl.foldl fun _ _ => access_legal
  exact .ite (.done ((followDue_legal (boundary_legal (hm.frame (pairWork_only (within rfl) OnlyChanges.refl)))).ite hm)) (.next hl)

/-- Frames of a station: those of an unknown one are counted only. -/
theorem fromStn_legal {type : BitVec 4} {f : Kcp} {use : Nat → State → State} {k : Nat → Option Nat} (hl : RoleLegal s)
    (hu : ∀ i u, RoleLegal u → RoleLegal (use i u)) : LegalOut (match s.stnOf f.port f.src with
      | some i => done s (s.receive type (k i) (use i) f)
      | none => done s (s.receive type none (fun t => t.meetEpoch f.port f.epoch) f)) := by
  split
  · exact .done (receive_legal hl (hu _))
  · exact .done (receive_legal hl fun _ => meetEpoch_legal)

theorem input_legal {f : Kcp} (hl : RoleLegal s) : LegalOut (execInput f s) := fromStn_legal hl fun _ _ => takeInput_legal

theorem loopIn_legal {f : Kcp} (hl : RoleLegal s) : LegalOut (execLoopIn f s) := fromStn_legal hl fun _ _ => takeLoopIn_legal

theorem paramAck_legal {f : Kcp} (hl : RoleLegal s) : LegalOut (execParamAck f s) := fromStn_legal hl fun _ _ => takeParamAck_legal

theorem launchOutput_legal {i : Nat} (hl : RoleLegal s) : RoleLegal (s.launchOutput i) := by
  have hs : ∀ {r : Bool} {b : List Byte}, RoleLegal (s.sendOutput i r b) := hl.frame (sendOutput_only (within rfl) OnlyChanges.refl)
  unfold State.launchOutput
  dsimp only
  split
  · split
    · exact hs.frame (updStn_only (within rfl) OnlyChanges.refl)
    · exact hs
    · exact hl
  · exact hs.ite hl

theorem launchLoopOut_legal {i g : Nat} (hl : RoleLegal s) : RoleLegal (s.launchLoopOut i g) := by
  unfold State.launchLoopOut
  split
  · exact hl
  · exact hl.ite (hl.frame (sendIn_only (within rfl) OnlyChanges.refl))

theorem loopCrease_legal {n : Nat} (hl : RoleLegal s) : LegalOut (execLoopCrease n s) :=
  .ite (.done ((crease_legal hl fun _ _ _ h => RoleLegal.ite (h.frame (writeOut_only (within rfl) OnlyChanges.refl)) h).frame
    (answerLoopReads_only (within rfl) OnlyChanges.refl))) (.next hl)

theorem clockSet_legal (hl : RoleLegal s) : LegalOut (execClockSet s) := by
  unfold execClockSet
  split
  · exact .next hl
  · exact .ite (.done (hl.frame (setClock_only (within rfl) OnlyChanges.refl))) (.next hl)

theorem takeStamp_legal {p : Nat} {tag : BitVec 16} (e : s.takeStamp p tag = some t) (hl : RoleLegal s) : RoleLegal t :=
  hl.frame (takeStamp_only (within rfl) e OnlyChanges.refl)

theorem ptpMessage_legal {p : Fin 7} {m : PtpMsg} {d : Fin 2} {gm : DWord} {tag : BitVec 16} {ns : Word} (hl : RoleLegal s) :
    LegalOut (execPtpMessage p m d gm tag ns s) := by
  unfold execPtpMessage
  refine .ite (.next hl) ?_
  cases m with
  | announce => exact .ite (.next hl) (.next hl)
  | pdelayReq => exact .ite (.next (hl.frame (sendPtp_only (within rfl) OnlyChanges.refl))) (.next hl)
  | pdelayResp =>
    dsimp only
    split
    next e => exact .next ((takeStamp_legal e hl).frame (updTPort_only (within rfl) OnlyChanges.refl))
    next => exact .next hl
  | delayResp =>
    dsimp only
    split
    next e => exact .next (takeStamp_legal e hl)
    next => exact .next hl
  | sync => exact .next hl
  | followUp => exact .next hl
  | delayReq => exact .next hl

theorem ptpTransmit_legal {p : Fin 7} {m : PtpMsg} {tag : BitVec 16} (hl : RoleLegal s) : LegalOut (execPtpTransmit p m tag s) := by
  have hs : ∀ {u : State} {k : PtpMsg}, RoleLegal u → RoleLegal (u.sendPtp p.val k) := fun h =>
    h.frame (sendPtp_only (within rfl) OnlyChanges.refl)
  unfold execPtpTransmit
  refine .ite (.next hl) ?_
  split
  · split
    next e => exact .next (hs (takeStamp_legal e hl))
    next => exact .next hl
  · exact .next (hs hl)

theorem localApply_legal {c : Fin 8} {pins : Word} (hl : RoleLegal s) : LegalOut (execLocalApply c pins s) := by
  refine .ite (.next hl) (.next (RoleLegal.foldl (RoleLegal.foldl (RoleLegal.foldl hl ?_) ?_) ?_))
  · exact fun _ _ h => h.frame (readPin_only (within rfl) OnlyChanges.refl)
  · exact fun _ _ h => h.frame (applyDio_only (within rfl) OnlyChanges.refl)
  · exact fun _ _ h => h.frame (applyAio_only (within rfl) OnlyChanges.refl)

theorem updCan_legal {c : Nat} {f : Can → Can} (hl : RoleLegal s) : RoleLegal (s.updCan c f) := hl

theorem canFrameReceived_legal {c : Fin 8} {fr : CanEnt} {sof : Word} (hl : RoleLegal s) : LegalOut (execCanFrameReceived c fr sof s) := by
  have ht : ∀ {f : Can → Can}, RoleLegal (((s.updCan c.val f).recDown c.val).confine c.val) :=
    (updCan_legal hl).frame (confine_only (within rfl) (recDown_only (within rfl) OnlyChanges.refl))
  unfold execCanFrameReceived
  dsimp only
  refine .ite (.next hl) ?_
  split
  · exact .next (ht.frame (handOver_only (within rfl) OnlyChanges.refl))
  · exact .next ht

theorem attemptStart_legal {c : Fin 8} (hl : RoleLegal s) : LegalOut (execAttemptStart c s) := by
  have hc : RoleLegal (s.canComplete c.val 2 false) := hl.frame (canComplete_only (within rfl) OnlyChanges.refl)
  unfold execAttemptStart
  dsimp only
  split
  · exact .next hl
  · exact .ite (.next hl) (.ite (.next (updCan_legal hc)) (.next hl))

theorem attemptEnd_legal {c : Fin 8} {out : CanEnd} (hl : RoleLegal s) : LegalOut (execAttemptEnd c out s) := by
  have hp : ∀ {u : State}, RoleLegal u → RoleLegal (u.canPoll c.val) := fun h => h.frame (canPoll_only (within rfl) OnlyChanges.refl)
  have hf : ∀ {u : State} {b : Bool}, RoleLegal u → RoleLegal (u.attemptFailed c.val b) := fun h =>
    h.frame (attemptFailed_only (within rfl) OnlyChanges.refl)
  unfold execAttemptEnd
  dsimp only
  split
  · exact .next hl
  · refine .ite (.next hl) (.next (hp ?_))
    cases out with
    | sent v => exact hl.frame (attemptSent_only (within rfl) OnlyChanges.refl)
    | lost => exact hf (updCan_legal hl)
    | error => exact hf hl

theorem updSaf_legal {f : Saf → Saf} (hl : RoleLegal s) : RoleLegal (s.updSaf f) := hl

theorem agree_legal {d : Disagree} (hl : RoleLegal s) : LegalOut (execAgree d s) := by
  unfold execAgree
  refine .ite (.next hl) ?_
  cases d with
  | channel i chb => exact .done (lockout_legal (updSaf_legal hl))
  | rst => exact .done (lockout_legal (updSaf_legal hl))
  | permit k => exact .done (lockout_legal (updSaf_legal hl))

theorem supply_legal {mv : BitVec 16} (hl : RoleLegal s) : LegalOut (execSupply mv s) := by
  have ht : ∀ {f : Pwr → Pwr}, RoleLegal (s.updPwr f) := hl
  exact .ite (.next hl) (.ite (.ite (.done (lockout_legal (updSaf_legal ht))) (.next (updSaf_legal ht)))
    (.ite (.done (updSaf_legal ht)) (.next ht)))

theorem outbox_legal {o : Out} (hl : RoleLegal s) : RoleLegal (s.put o) := hl

theorem msixUnmask_legal {v : Fin 64} (hl : RoleLegal s) : LegalOut (execMsixUnmask v s) := by
  have ht : ∀ {x : Hif}, RoleLegal { s with hif := x } := hl
  exact .ite (.next hl) (.next ((outbox_legal ht).ite ht))

theorem initialSyncStart_legal (hl : RoleLegal s) : LegalOut (execInitialSyncStart s) := by
  have ht : RoleLegal s.beginSync.sendVersions := hl.frame (sendVersions_only (within rfl) (beginSync_only (within rfl) OnlyChanges.refl))
  exact .ite (.done (RoleLegal.ite (ht.frame (weighVersions_only (within rfl) OnlyChanges.refl)) ht)) (.next hl)

theorem rinseRead_legal {a b : List Nat} {x y : Option (List Nat)} {c : Bool} (hl : RoleLegal s) : LegalOut (execRinseRead a b x y c s) :=
  .ite (.done (updMm_legal ((readCodeword_legal (readCodeword_legal hl)).frame (rinsed_only (within rfl) OnlyChanges.refl)))) (.next hl)

theorem sramSweep_legal {a b c : Nat} (hl : RoleLegal s) : LegalOut (execSramSweep a b c s) := by
  have ht : ∀ {f : Mm → Mm}, RoleLegal (s.updMm f) := updMm_legal hl
  exact .ite (.next hl) (.done (ht.ite (unrecoverable_legal ht)))

theorem earlyCheckpoint_legal {p : Fin 4} {w : Work} {b : Bool} (hl : RoleLegal s) : LegalOut (execEarlyCheckpoint p w b s) := by
  have ht : RoleLegal (s.pairWork p w) := hl.frame (pairWork_only (within rfl) OnlyChanges.refl)
  exact .ite (.ite (.next (updPair_legal ht)) (.ite (.next (updPair_legal ht)) (.next ht))) (.next hl)

theorem eliminationHistoryReset_legal {k : Nat} (hl : RoleLegal s) : LegalOut (execEliminationHistoryReset k s) := by
  have ht : RoleLegal (if (s.net.strms.look k {}).alone then s.singleFrame (s.strmFrom k).1 (s.strmFrom k).2 else s) :=
    RoleLegal.ite (hl.frame (singleFrame_only (within rfl) OnlyChanges.refl)) hl
  exact .next (ht.of_sys rfl)

theorem tallyHdrsSend_legal (hl : RoleLegal s) : LegalOut (execTallyHdrsSend s) := by
  have ht : ∀ {x : Tly} {l : List (List Byte)}, RoleLegal (State.sendHdrs false l { s with tly := x }) := fun {x l} =>
    RoleLegal.frame (s := { s with tly := x }) hl (sendHdrs_only (within rfl) OnlyChanges.refl)
  exact .ite (.done (backlogOver_legal ht)) (.next hl)

theorem strapChange_legal {g : Fin 2} {b : Bool} (hl : RoleLegal s) : LegalOut (execStrapChange g b s) := by
  have hf : ∀ {f : Fio}, RoleLegal (State.restrap g.val { s with fio := f }) := fun {f} =>
    RoleLegal.frame (s := { s with fio := f }) hl (restrap_only (within rfl) OnlyChanges.refl)
  exact .ite (.next hl) (.next (log_legal hf))

theorem hartPoll_legal {c : Fin 16} (hl : RoleLegal s) : LegalOut (execHartPoll c s) := by
  have hh : ∀ {f : Hart → Hart}, RoleLegal (s.updHart f) := hl
  exact .ite (.next hl) (.next (hh.frame (hartNext_only (within rfl) OnlyChanges.refl)))

theorem darkTest_legal {k : Fin 4} {b : Bool} (hl : RoleLegal s) : LegalOut (execDarkTest k b s) := by
  have ht : ∀ {f : So → So}, RoleLegal (s.updSo k.val f) := hl.frame (updSo_only (within rfl) OnlyChanges.refl)
  exact .ite (.next hl) (.ite (.done ht) (.done (ht.frame (soFault_only (within rfl) OnlyChanges.refl))))

theorem wscDeadline_legal {c : Fin 64} (hl : RoleLegal s) : LegalOut (execWscDeadline c s) := by
  have ht : ∀ {f : Wsc → Wsc}, RoleLegal (s.updWsc c.val f) := hl
  exact .ite (.next hl) (.next (log_legal ht))

theorem exec_legal {i : Instr} (hl : RoleLegal s) : LegalOut (exec i s) := by
  cases i with
  | powerGood _ => exact .ite (.done bootFrom2_legal) (.next hl)
  | pcieConfigRequest => exact .ite (.next hl) (.ite (.next hl) (.next hl))
  | tamperLatchSet _ => exact .ite (.next hl) (.next hl)
  | vretLost => exact .ite (.next hl) (.next hl)
  | pfailSet => exact .ite (.done (pfailOn_legal hl)) (.next hl)
  | pfailClear _ => exact .ite (.done (hl.frame (pfailOff_only (within rfl) OnlyChanges.refl))) (.next hl)
  | inputLost => exact .ite (.done shutdown_legal) (.next hl)
  | holdUpSpent => exact .ite (.done shutdown_legal) (.next hl)
  | feedRangeChange _ _ _ => exact .ite (.done (hl.frame (feedChange_only (within rfl) OnlyChanges.refl))) (.next hl)
  | railFault _ _ => exact .ite (.done (railFault_legal hl)) (.next hl)
  | temperatureSample _ _ => exact .ite (.done (hl.frame (tempSample_only (within rfl) OnlyChanges.refl))) (.next hl)
  | overtemperature => exact .ite (.done (unrecoverable_legal hl)) (.next hl)
  | hkWatchdogExpiry => exact .ite (.done (watchdog_legal (s := s.updPwr _) hl)) (.next hl)
  | engineWatchdogExpiry _ => exact .ite (.done (watchdog_legal (hl.frame (engineDead_only (within rfl) OnlyChanges.refl)))) (.next hl)
  | clockFault => exact .ite (.done (unrecoverable_legal (lockout_legal hl))) (.next hl)
  | optimeSave => exact .ite (.next hl) (.next hl)
  | vretMeasurement _ => exact .ite (.next (hl.frame (vretSample_only (within rfl) OnlyChanges.refl))) (.next hl)
  | slotPresenceLost => exact .ite (.done (withdrawn_legal hl)) (.next hl)
  | registerWrite _ _ _ _ =>
    exact .ite .fault (.ite .fault (.ite (.next hl) (.ite (.done (partialWr_legal hl)) (.done (fullWrite_legal hl)))))
  | bitAliasWrite _ _ _ _ =>
    exact .ite .fault (.ite .fault (.ite (.next hl) (.ite (.done (partialWr_legal hl)) (.done (aliasWrite_legal hl)))))
  | postedWriteDone _ => exact postedWriteDone_legal hl
  | postedBlockFailed _ => exact .ite (.done (log_legal (s := { s with posted := _ }) hl)) (.next hl)
  | pressGo _ _ => exact pressGo_legal hl
  | pressApply _ =>
    exact .ite (.next hl) (.ite (.ite (.done (takeLoopPress_legal hl)) (.next hl)) (.ite (.done (takePress_legal hl)) (.next hl)))
  | voteSweep _ => exact voteSweep_legal hl
  | paritySweep _ => exact paritySweep_legal hl
  | sysHlwKick _ => exact .ite (.done (kick_legal hl)) (.next hl)
  | hostLivenessExpiry => exact .ite (.done (log_legal (s := { s with sys := { s.sys with hostLost := true } }) hl)) (.next hl)
  | sysRestart _ _ => exact .ite (.done (restartWord_legal hl)) (.next hl)
  | pcieReset => exact .ite (.next (pcieReset_legal hl)) (.next hl)
  | submissionDoorbell _ _ _ => exact bar2Write_legal hl
  | completionDoorbell _ _ _ => exact bar2Write_legal hl
  | msixUnmask _ => exact msixUnmask_legal hl
  | interruptCoalesceTimeout _ =>
    exact .ite (.next (RoleLegal.frame (updRing_legal hl) (msix_only (within rfl) OnlyChanges.refl))) (.next hl)
  | hostMemoryError _ => exact .done (hostError_legal hl)
  | windowEntryFlush => exact .ite (.next (hl.frame (flushWins_only (within rfl) OnlyChanges.refl))) (.next hl)
  | mirrorAckTimeout _ => exact mirrorAckTimeout_legal hl
  | nop _ =>
    exact .done ((runCmd_legal (OpLegal.of_frame fun _ => opNop_op (within rfl)) hl).ite (hl.frame (runUnknown_only
      (within rfl) OnlyChanges.refl)))
  | identify _ => exact .done (runCmd_legal (OpLegal.of_frame fun _ => opIdentify_op (within rfl)) hl)
  | ringCreate _ => exact .done (runCmd_legal (OpLegal.of_frame fun _ => opRingCreate_op (within rfl)) hl)
  | ringDelete _ => exact .done (runCmd_legal opRingDelete_legal hl)
  | eventCreate _ => exact .done (runCmd_legal (OpLegal.of_frame fun _ => opEventCreate_op (within rfl)) hl)
  | eventDelete _ => exact .done (runCmd_legal (OpLegal.of_frame fun _ => opEventDelete_op (within rfl)) hl)
  | modeSetRun _ => exact .done (runMode_legal hl)
  | modeSetStop _ => exact .done (runMode_legal hl)
  | modeSetCommission _ => exact .done (runMode_legal hl)
  | modeSetTest _ => exact .done (runMode_legal hl)
  | modeSetHold _ => exact .done (runMode_legal hl)
  | modeSetHoldExit _ => exact .done ((runMode_legal hl).ite (runCmd_legal refusedMode_legal hl))
  | modeSetIdleLink _ => exact .done (runMode_legal hl)
  | modeSetIdleExit _ _ => exact modeSetIdleExit_legal hl
  | roleExchange _ => exact .done (runCmd_legal (OpLegal.of_frame fun _ => opExchange_op (within rfl)) hl)
  | restart _ _ => exact .done (runRestart_legal hl)
  | imageWrite _ => exact .done (runCmd_legal (OpLegal.of_frame fun _ => opImageWrite_op (within rfl)) hl)
  | imageVerify _ => exact .done (runCmd_legal (OpLegal.of_frame fun _ => opImageVerify_op (within rfl)) hl)
  | activateSwitch _ => exact .done (runAct_legal opSwitch_legal hl)
  | activateConfirm _ => exact .done (runAct_legal (OpLegal.of_frame fun _ => opConfirm_op (within rfl)) hl)
  | activateCancel _ => exact .done (runAct_legal (OpLegal.of_frame fun _ => opCancel_op (within rfl)) hl)
  | configReturn _ => exact .done (runAct_legal opCfgReturn_legal hl)
  | attestQuote _ => exact .done (runCmd_legal (OpLegal.of_frame fun _ => opQuote_op (within rfl)) hl)
  | tallyClear _ => exact .done (runClear_legal hl)
  | nopCommand _ => exact .done (runCmd_legal (OpLegal.of_frame fun _ => opNop_op (within rfl)) hl)
  | varRead _ => exact .done (runCmd_legal (OpLegal.of_frame fun _ => opVarRead_op (within rfl)) hl)
  | varWrite _ => exact .ite (.next hl) (.done (runCmd_legal varWriteOp_legal hl))
  | forceSet _ => exact .done (runCmd_legal (OpLegal.of_frame fun _ => opForceSet_op (within rfl)) hl)
  | forceClear _ => exact .done (runCmd_legal (OpLegal.of_frame fun _ => opForceClear_op (within rfl)) hl)
  | loopRead _ => exact .done (runCmd_legal (OpLegal.of_frame fun _ => opLoopRead_op (within rfl)) hl)
  | loopWrite _ => exact .ite (.next hl) (.done (runCmd_legal opLoopWrite_legal hl))
  | tallyRead _ => exact .done (runCmd_legal (OpLegal.of_frame fun _ => opTallyRead_op (within rfl)) hl)
  | programLoadChange _ => exact .done (runCmd_legal (OpLegal.of_frame fun _ => opChange_op (within rfl)) hl)
  | programLoadReturn _ => exact .done (runCmd_legal (OpLegal.of_frame fun _ => opReturn_op (within rfl)) hl)
  | programLoadStatus _ => exact .done (runCmd_legal (OpLegal.of_frame fun _ => opStatus_op (within rfl)) hl)
  | classBoundary _ _ _ => exact classBoundary_legal hl
  | outputCommit _ _ _ => exact .ite (.done (commit_legal hl)) (.next hl)
  | softBudgetExpiry _ => exact .ite (.done (hl.frame (softOver_only (within rfl) OnlyChanges.refl))) (.next hl)
  | hardLimitExpiry _ => exact .ite (.done (hardOver_legal hl)) (.next hl)
  | intervalCheckpoint _ _ => exact .ite (.next (updPair_legal (hl.frame (pairWork_only (within rfl) OnlyChanges.refl)))) (.next hl)
  | earlyCheckpoint _ _ _ => exact earlyCheckpoint_legal hl
  | checkpointSeal _ => exact .ite (.done (schedule_legal releaseDef_legal (seal_legal releaseDef_legal hl))) (.next hl)
  | comparatorMismatch _ _ _ => exact .ite (.done (mismatch_legal (hl.frame (pairWork_only (within rfl) OnlyChanges.refl)))) (.next hl)
  | darnRestoreEnd _ _ => exact .ite (.done (hl.frame (restoreEnd_only (within rfl) OnlyChanges.refl))) (.next hl)
  | restoreTimeout _ => exact .ite (.done (failPair_legal hl)) (.next hl)
  | knownAnswerRun _ => exact .ite (.next (seal_legal (fun _ _ _ h => h) hl)) (.next hl)
  | dbgHalt _ _ _ =>
    exact .ite (.next hl) (.ite (.done (roWr_legal hl)) (.ite (.next hl) (.next (hl.frame (haltCore_only (within rfl) OnlyChanges.refl)))))
  | dbgStep _ _ _ =>
    exact .ite (.next hl) (.ite (.done (roWr_legal hl)) (.ite (.next hl) (.next (hl.frame (stepCore_only (within rfl) OnlyChanges.refl)))))
  | dbgResume _ => exact .ite (.next hl) (.ite (.done (roWr_legal hl)) (.next (hl.frame (resumeCore_only (within rfl) OnlyChanges.refl))))
  | breakpointHit _ _ _ => exact .ite (.next (updPair_legal (hl.frame (haltCore_only (within rfl) OnlyChanges.refl)))) (.next hl)
  | minorFrameStart _ => exact .ite (.next hl) (.next hl)
  | loopPhase0 _ => exact .ite (.next (phase0_legal hl)) (.next hl)
  | loopStep _ _ => exact .ite (.next (hl.frame (loopStep_only (within rfl) OnlyChanges.refl))) (.next hl)
  | loopCrease _ => exact loopCrease_legal hl
  | loopCmdRearm _ _ => exact .ite (.done (loopCmd_legal hl)) (.next hl)
  | loopCmdManual _ _ => exact .ite (.done (loopCmd_legal hl)) (.next hl)
  | loopCmdAuto _ _ => exact .ite (.done (loopCmd_legal hl)) (.next hl)
  | exchangeInstant =>
    exact .ite (.ite (.done (hl.frame (exchangeInstant_only (within rfl) OnlyChanges.refl))) (.ite (.done
      (t := s.updChg _) hl) (.next hl))) (.next hl)
  | packageStoreDone => exact .ite (.done (packageStored_legal hl)) (.next hl)
  | standbyReadyTimeout => exact .ite (.done (hl.frame (refuseChange_only (within rfl) OnlyChanges.refl))) (.next hl)
  | heartbeatSend _ => exact .ite (.next (outbox_legal (s := s.updDpx _) hl)) (.next hl)
  | heartbeat _ _ =>
    exact .ite (.done (missedAt_legal (heartbeatIn_legal hl fun _ _ _ h => h.frame (basteTime_only
      (within rfl) OnlyChanges.refl)))) (.next hl)
  | heartbeatMissed _ => exact .ite (.done (heartbeatMissed_legal hl)) (.next hl)
  | rseqGapTimeout => exact .ite (.done (gapOver_legal hl)) (.next hl)
  | ack _ => exact recIn_legal hl
  | hostwork _ => exact recIn_legal hl
  | lines _ => exact recIn_legal hl
  | commitEnd _ => exact recIn_legal hl
  | loopState _ => exact recIn_legal hl
  | loopGroup _ => exact recIn_legal hl
  | tallyHdrs _ => exact recIn_legal hl
  | tallyHdrsSend => exact tallyHdrsSend_legal hl
  | versions _ => exact recIn_legal hl
  | window _ => exact recIn_legal hl
  | image _ => exact recIn_legal hl
  | noticeFailure _ => exact recIn_legal hl
  | noticeHalt _ => exact recIn_legal hl
  | noticeHandover _ => exact recIn_legal hl
  | noticeHandback _ => exact recIn_legal hl
  | noticeRingAbsent _ => exact recIn_legal hl
  | noticeProofFail _ => exact recIn_legal hl
  | noticeCutIn _ => exact recIn_legal hl
  | noticeReady _ => exact recIn_legal hl
  | noticeCheckFailed _ => exact recIn_legal hl
  | initialSyncStart => exact initialSyncStart_legal hl
  | cutIn => exact .ite (.done (hl.frame (cutIn_only (within rfl) OnlyChanges.refl))) (.next hl)
  | syncAbandon => exact .ite (.done (hl.frame (abandon_only (within rfl) OnlyChanges.refl))) (.next hl)
  | handoverBoundary => exact .ite (.done (handToPartner_legal.ite takeOverByCommand_legal)) (.next hl)
  | proofSwapDue => exact .ite (.done (hl.frame (proofDue_only (within rfl) OnlyChanges.refl))) (.next hl)
  | proofWindowEnd => exact .ite (.done (hl.frame (windowEnd_only (within rfl) OnlyChanges.refl))) (.next hl)
  | partnerSearchTimeout => exact .ite (.done (noPartnerFound_legal hl)) (.next hl)
  | absentWaitExpiry => exact .ite (.done (absentExpired_legal hl)) (.next hl)
  | dpxClaim _ => exact .ite (.done (claimWord_legal hl)) (.next hl)
  | linkChange _ _ _ _ _ =>
    exact .ite (.next hl) (.ite (.done (hl.frame (linkUp_only (within rfl) OnlyChanges.refl))) (.done (hl.frame
      (linkDown_only (within rfl) OnlyChanges.refl))))
  | beaconSlot => exact .ite (.done (beaconSlot_legal hl)) (.next hl)
  | beacon _ => exact .done (beaconIn_legal hl)
  | input _ => exact input_legal hl
  | loopIn _ => exact loopIn_legal hl
  | outputLaunch _ => exact .ite (.next (launchOutput_legal hl)) (.next hl)
  | loopOutLaunch _ _ => exact .ite (.next (launchLoopOut_legal hl)) (.next hl)
  | paramAck _ => exact paramAck_legal hl
  | paramRetry _ => exact .ite (.next (hl.frame (sendBlock_only (within rfl) OnlyChanges.refl))) (.next hl)
  | paramPeriodic _ => exact .ite (.next (hl.frame (parameterise_only (within rfl) OnlyChanges.refl))) (.next hl)
  | eliminationHistoryReset _ => exact eliminationHistoryReset_legal hl
  | peer _ => exact .done (receive_legal hl fun _ h => h.frame (usePeer_only (within rfl) OnlyChanges.refl))
  | peerLaunch _ => exact .ite (.next (hl.frame (launchPub_only (within rfl) OnlyChanges.refl))) (.next hl)
  | peerTimeout _ => exact .ite (.done (hl.frame (log_only (within rfl) (updSub_only (within rfl) OnlyChanges.refl)))) (.next hl)
  | mgmt _ _ => exact mgmt_legal hl
  | syncMeasurement _ _ _ =>
    exact .ite (.done (hl.frame (domMeasure_only (within rfl) (updDom_only (within rfl) OnlyChanges.refl)))) (.next hl)
  | timDomMeas _ _ => exact .ite (.done (writeMeas_legal hl)) (.next hl)
  | clockSet => exact clockSet_legal hl
  | domainHoldover _ =>
    exact .ite (.done (hl.frame (decideSwitch_only (within rfl) (enterDom_only (within rfl) OnlyChanges.refl)))) (.next hl)
  | holdoverTimeout _ => exact .ite (.done (hl.frame (enterDom_only (within rfl) OnlyChanges.refl))) (.next hl)
  | revertTimer => exact .ite (.done (hl.frame (switchDom_only (within rfl) OnlyChanges.refl))) (.next hl)
  | timRealign _ => exact .ite (.done (realignWord_legal hl)) (.next hl)
  | txTimestamp _ _ _ => exact .ite (.next hl) (.next hl)
  | launchLate _ => exact .ite (.next hl) (.next hl)
  | captureEdge _ _ _ => exact .ite (.next hl) (.next hl)
  | toutEdge => exact .ite (.next hl) (.next hl)
  | canFrameReceived _ _ _ => exact canFrameReceived_legal hl
  | protocolException _ _ => exact .ite (.next hl) (.ite (.next (hl.frame (canError_only (within rfl) OnlyChanges.refl))) (.next hl))
  | txqPoll _ => exact .ite (.next (hl.frame (canPoll_only (within rfl) OnlyChanges.refl))) (.next hl)
  | attemptStart _ => exact attemptStart_legal hl
  | attemptEnd _ _ => exact attemptEnd_legal hl
  | canError _ _ _ _ _ => exact .ite (.next (hl.frame (canError_only (within rfl) OnlyChanges.refl))) (.next hl)
  | canCmdRecover _ _ => exact .ite (.next hl) (.ite (.done (roWr_legal hl)) (.done (postTo_legal hl)))
  | busOffRecoveryDone _ => exact .ite (.next hl) (.next hl)
  | diFilterChange _ _ => exact .ite (.next hl) (.next hl)
  | localApply _ _ => exact localApply_legal hl
  | rberrOnset _ => exact .ite (.next hl) (.next hl)
  | dioTrip _ _ => exact .ite (.next (hl.frame (trip_only (within rfl) OnlyChanges.refl))) (.next hl)
  | dioRetry _ => exact .ite (.next (hl.frame (driveWith_only (within rfl) OnlyChanges.refl))) (.next hl)
  | retriesReset _ => exact .ite (.next hl) (.next hl)
  | fioDioRearm _ => exact .ite (.done (postTo_legal hl)) (.next hl)
  | feedLost _ _ => exact .ite (.next (hl.frame (log_only (within rfl) (setFeed_only (within rfl) OnlyChanges.refl)))) (.next hl)
  | feedReturn _ => exact .ite (.next (hl.frame (setFeed_only (within rfl) OnlyChanges.refl))) (.next hl)
  | aiConversion _ _ _ _ =>
    exact .ite (.next (hl.frame (deliver_only (within rfl) (convert_only (within rfl) OnlyChanges.refl)))) (.next hl)
  | aoComply _ _ => exact .ite (.next (hl.frame (aoOnset_only (within rfl) OnlyChanges.refl))) (.next hl)
  | aoOpen _ _ => exact .ite (.next (hl.frame (aoOnset_only (within rfl) OnlyChanges.refl))) (.next hl)
  | aoConditionClear _ _ => exact .ite (.next hl) (.next hl)
  | pwrLim _ _ => exact .ite (.next hl) (.next hl)
  | strapChange _ _ => exact strapChange_legal hl
  | captLo _ _ => exact .ite (.done (postTo_legal hl)) (.next hl)
  | captHi _ _ => exact .ite (.done (postTo_legal hl)) (.next hl)
  | store _ => exact .ite (.done (postTo_legal hl)) (.next hl)
  | discard _ => exact .ite (.done (postTo_legal hl)) (.next hl)
  | factory _ => exact .ite (.done (postTo_legal hl)) (.next hl)
  | driveLo _ => exact .ite (.done (postTo_legal hl)) (.next hl)
  | driveHi _ => exact .ite (.done (postTo_legal hl)) (.next hl)
  | hartPoll _ => exact hartPoll_legal hl
  | hartHctlGo _ => exact .ite (.done (postTo_legal hl)) (.next hl)
  | hartTransactionEnd _ _ _ => exact .ite (.next (hl.frame (hartEnd_only (within rfl) OnlyChanges.refl))) (.next hl)
  | selvedgeSample _ _ => exact .ite (.done (hl.frame (selSample_only (within rfl) OnlyChanges.refl))) (.next hl)
  | discrepancy _ => exact .ite (.next hl) (.done (lockout_legal (updSaf_legal hl)))
  | resetStuck => exact .ite (.done (RoleLegal.frame (updSaf_legal hl) (stuckRecord_only (within rfl) OnlyChanges.refl))) (.next hl)
  | spCycle _ => exact .ite (.done (spCycle_legal hl)) (.next hl)
  | testPulse _ => exact .ite (.next (outbox_legal (updSaf_legal hl))) (.next hl)
  | outFault _ => exact .ite (.done (hl.frame (soFault_only (within rfl) OnlyChanges.refl))) (.next hl)
  | darkTest _ _ => exact darkTest_legal hl
  | overcurrent _ => exact .ite (.done (hl.frame (soFault_only (within rfl) OnlyChanges.refl))) (.next hl)
  | supply _ => exact supply_legal hl
  | agree _ => exact agree_legal hl
  | selvedgeChallenge _ => exact .ite (.next hl) (.done (safDead_legal (updSaf_legal hl)))
  | wscPduReceive _ _ _ => exact .ite (.next (hl.frame (wscReceive_only (within rfl) OnlyChanges.refl))) (.next hl)
  | wscDeadline _ => exact wscDeadline_legal hl
  | tallyWrite => exact .ite (.done (hl.frame (writeNext_only (within rfl) OnlyChanges.refl))) (.next hl)
  | tlyRdseq _ => exact .ite (.done (postTo_legal hl)) (.next hl)
  | tlyClrkey _ => exact .ite (.done (postTo_legal hl)) (.next hl)
  | rinseRead _ _ _ _ _ => exact rinseRead_legal hl
  | correctedWriteBack _ => exact .ite (.next (hl.frame (writeLine_only (within rfl) OnlyChanges.refl))) (.next hl)
  | sramSweep _ _ _ => exact sramSweep_legal hl
  | mramScrub _ _ => exact .ite (.next hl) (.done (mramRead_legal hl))
  | memInjArm => exact .ite (.done (injWord_legal hl)) (.next hl)
  | bootLdKey _ _ => exact .ite (.done (ldWord_legal hl)) (.next hl)
  | warmSwitch => exact .ite (.done (afterSwitch_legal warmSwitch_legal)) (.next hl)
  | scheduledSwitch => exact .ite (.done (afterSwitch_legal warmSwitch_legal)) (.next hl)
  | settleEnd _ => exact settleEnd_legal hl
  | autoConfirm => exact .ite (.done (hl.frame (confirm_only (within rfl) OnlyChanges.refl))) (.next hl)
  | holdupOkChange _ => exact .next hl
  | ptpMessage _ _ _ _ _ _ => exact ptpMessage_legal hl
  | ptpTransmit _ _ _ => exact ptpTransmit_legal hl
  | areaWriteComplete _ _ => exact areaWriteComplete_legal hl
  | ringStartupTimeout => exact .ite (.done enterStart_legal) (.next hl)
  | hartBurstMessage _ _ => exact .ite (.next hl) (.next hl)

/-- Settles O58: no step gives or leaves the role where the mode forbids it, by the commands (`exec_legal`) and the clock. -/
theorem theRoleStaysWhereTheModeAllowsIt : Obligations.TheRoleStaysWhereTheModeAllowsIt := by
  intro s t hl e
  unfold step at e
  split at e
  · cases e
    exact clock_legal hl
  next c cs _ =>
    have hq : RoleLegal { s with pending := cs } := hl
    exact exec_legal hq t e

end Sys2Proof.Proofs
end

section
/-! A start that finds a damaged journal record (O11): the read of the non-volatile store at boot unseals the record (`mramDouble`), so a
start that the key store holds in BOOT does not leave the journal as it was. -/

namespace Sys2Proof.Proofs

open Sys2Proof.Machine Sys2Proof.Safety Sys2Proof.Laws

/-- A module before step 2 of its start, with one sealed record in its journal. -/
def oneRecord : State := { State.reset with hif.journal := [{}] }

/-- What the start finds: a key store that fails its parity, and an error of two symbols in that record. -/
def damagedRecord : BootObs := { ksParity := false, mramBad := [.journal 0 0] }

/-- Which records of the journal are sealed in a next state. -/
def sealsOf : Host.Outcome State Fault Refusal → List Bool
  | .next t => t.hif.journal.map JRec.sealed
  | _ => []

theorem sealsOf_powerGood : sealsOf (exec (.powerGood damagedRecord) oneRecord) = [false] := by decide +kernel

/-- Refutes O11: in its second clause the journal is said to stay, and here its record loses its seal. -/
theorem not_powerGoodStartsTheModule : ¬ Obligations.PowerGoodStartsTheModule := by
  rintro ⟨-, h⟩
  obtain ⟨t, e, -, -, -, -, -, -, hj⟩ := h oneRecord damagedRecord (.inr ⟨rfl, rfl⟩) rfl
  have hseals : sealsOf (.next t) = [false] := e ▸ sealsOf_powerGood
  have hkept : sealsOf (.next t) = [true] := congrArg (List.map JRec.sealed) hj
  cases hkept.symm.trans hseals

end Sys2Proof.Proofs
end

section
/-! The end of the wait for the stations (O40): the classes start (`runClasses`), and with them every station ends its rejoining, so
the network block does not stay as it was. -/

namespace Sys2Proof.Proofs

open Sys2Proof.Machine Sys2Proof.Safety Sys2Proof.Laws

/-- A module in BOOT that waits for its stations before RUN, with one station rejoining. -/
def awaitingStations : State := { State.reset with
  cfg.startMode := .run, boot.awaitStn := true, boot.replayDue := false, sys.lone := false, net.stns := [(0, { rejoining := true })] }

/-- Which stations are rejoining in a next state. -/
def rejoiningOf : Host.Outcome State Fault Refusal → List Bool
  | .next t => t.net.stns.map fun e => e.2.rejoining
  | _ => []

theorem rejoiningOf_ringStartupTimeout : rejoiningOf (exec .ringStartupTimeout awaitingStations) = [false] := by decide +kernel

/-- Refutes O40: in its fifth clause the network block is said to stay, and here the station's mark of rejoining goes. -/
theorem not_startsWithoutAPartnerAndTheClaim : ¬ Obligations.StartsWithoutAPartnerAndTheClaim := by
  rintro ⟨-, -, -, -, h, -⟩
  obtain ⟨t, e, -, -, -, -, -, -, -, hk⟩ := h awaitingStations rfl rfl rfl rfl rfl rfl rfl
  have hends : rejoiningOf (.next t) = [false] := e ▸ rejoiningOf_ringStartupTimeout
  have hnet : t.net = awaitingStations.net := hk.same .net (by decide)
  have hkept : rejoiningOf (.next t) = [true] := by
    rw [rejoiningOf, hnet]
    rfl
  cases hkept.symm.trans hends

end Sys2Proof.Proofs
end

section
/-! The change to RUN on a primary (O18): the classes start (`runClasses`), and with them every station ends its rejoining, so the
network block does not stay as it was. -/

namespace Sys2Proof.Proofs

open Sys2Proof.Machine Sys2Proof.Safety Sys2Proof.Laws

/-- A lone primary in STOP whose admin ring offers one command, with one station rejoining. -/
def stoppedRejoining : State := { State.reset with
  sys.mode := .stop, sys.primary := true, sys.lone := true, hif.crs := false, hif.ready := true, cfg.valid := true, prog.loaded := true
  hif.rings := [(0, { live := true, sqK := 4, cqK := 4, tail := 1 })], net.stns := [(0, { rejoining := true })] }

/-- The command that asks for RUN. -/
def askRun : Hcmd := { reqId := 1 }

theorem askRun_offered : Offered (stoppedRejoining.modeOp .run none) askRun stoppedRejoining where
  settled := { can := fun c _ _ hc hs _ => by
                 have hn : ∀ c < 8, stoppedRejoining.canSet c = false := by decide
                 cases (hn c hc).symm.trans hs
               served := fun _ => rfl }
  taken := by decide
  form := by decide
  fresh _ := by decide
  role _ := rfl
  posts := rfl
  answered := rfl

/-- The mode of a next state, and which of its stations are rejoining. -/
def modeAndRejoining : Host.Outcome State Fault Refusal → Option (Mode × List Bool)
  | .next t => some (t.sys.mode, t.net.stns.map fun e => e.2.rejoining)
  | _ => none

theorem modeAndRejoining_modeSetRun : modeAndRejoining (exec (.modeSetRun askRun) stoppedRejoining) = some (.run, [false]) := by
  decide +kernel

/-- Refutes O18: in its first clause the network block is said to stay, and here the station's mark of rejoining goes. -/
theorem not_commandedModeChanges : ¬ Obligations.CommandedModeChanges := by
  rintro ⟨h, -⟩
  obtain ⟨t, _, e, -, hmode, -, -, -, hk⟩ := h stoppedRejoining askRun askRun_offered rfl rfl rfl rfl
  have hends : modeAndRejoining (.next t) = some (.run, [false]) := e ▸ modeAndRejoining_modeSetRun
  have hnet : t.net = stoppedRejoining.net := hk.same .net (by decide)
  have hkept : modeAndRejoining (.next t) = some (.run, [true]) := by
    rw [modeAndRejoining, hnet, hmode]
    rfl
  cases hkept.symm.trans hends

end Sys2Proof.Proofs
end

section
/-! What a start and the exit from IDLE-LINK carry over: everything sent before, the power-cycle counter, the abandoned mode commands,
the readiness for configuration requests and the rings. -/

namespace Sys2Proof.Proofs

open Sys2Proof.Machine Sys2Proof.Safety Sys2Proof.Laws

variable {s t u : State}

/-- From `s` to `t` the module sends at most more, and the power-cycle counter, the abandoned mode commands, the retry status and the
rings stay. -/
structure Carries (s t : State) : Prop where
  sent : s.outbox <+: t.outbox
  pwrcyc : t.sys.pwrcyc = s.sys.pwrcyc
  preempted : t.sys.preempted = s.sys.preempted
  crs : t.hif.crs = s.hif.crs
  rings : t.hif.rings = s.hif.rings

theorem Carries.refl : Carries s s := ⟨List.prefix_rfl, rfl, rfl, rfl, rfl⟩

theorem Carries.trans (h : Carries s t) (k : Carries t u) : Carries s u :=
  ⟨h.sent.trans k.sent, k.pwrcyc.trans h.pwrcyc, k.preempted.trans h.preempted, k.crs.trans h.crs, k.rings.trans h.rings⟩

/-- Every part but the system block, the host interface and the outbox. -/
def quiet : List Part := [.cyc, .lsp, .cle, .chg, .dpx, .dpx2, .mir, .net, .tim, .can, .canq, .fio, .saf, .tly, .mm, .boot, .pwr,
  .ret, .cfg, .prog, .regs, .live, .votes, .press, .posted, .freeN, .pending]

/-- What leaves the system block, the host interface and the outbox carries all of it over. -/
theorem Carries.of_quiet (k : OnlyChanges quiet s t) : Carries s t := by
  have hs : t.sys = s.sys := k.same .sys (by decide)
  have hh : t.hif = s.hif := k.same .hif (by decide)
  have ho : t.outbox = s.outbox := k.same .outbox (by decide)
  exact ⟨ho ▸ List.prefix_rfl, by rw [hs], by rw [hs], by rw [hh], by rw [hh]⟩

/-- An update that leaves the outbox and these fields. -/
theorem Carries.set (h : Carries s t) (ho : u.outbox = t.outbox := by rfl) (hp : u.sys.pwrcyc = t.sys.pwrcyc := by rfl)
    (hq : u.sys.preempted = t.sys.preempted := by rfl) (hc : u.hif.crs = t.hif.crs := by rfl)
    (hr : u.hif.rings = t.hif.rings := by rfl) : Carries s u :=
  h.trans ⟨ho ▸ List.prefix_rfl, hp, hq, hc, hr⟩

theorem Carries.frame (h : Carries s t) (k : OnlyChanges quiet t u) : Carries s u := h.trans (.of_quiet k)

theorem Carries.ite {c : Prop} [Decidable c] (h : Carries s t) (k : Carries s u) : Carries s (if c then t else u) := by
  split
  · exact h
  · exact k

theorem Carries.foldl {α : Type} {f : State → α → State} {l : List α} (h : Carries s t)
    (hf : ∀ u a, Carries s u → Carries s (f u a)) : Carries s (l.foldl f t) := by
  induction l generalizing t with
  | nil => exact h
  | cons a l ih => exact ih (hf _ _ h)

/-! Outputs, records and modes. -/

theorem put_carries {o : Out} (h : Carries s t) : Carries s (t.put o) :=
  h.trans ⟨List.prefix_append .., rfl, rfl, rfl, rfl⟩

theorem msix_carries {v : Nat} (h : Carries s t) : Carries s (t.msix v) := by
  unfold State.msix
  split
  · exact h.set
  · exact put_carries h

theorem event_carries {c : BitVec 16} {v : Nat} {w : Word} {d : List Byte} (h : Carries s t) : Carries s (t.event c v w d) := by
  have hh : ∀ {x : Hif}, x.crs = t.hif.crs → x.rings = t.hif.rings → Carries s { t with hif := x } :=
    fun hc hr => h.set rfl rfl rfl hc hr
  unfold State.event
  split
  · exact h
  · dsimp only
    split
    · exact hh rfl rfl
    · exact msix_carries (put_carries (hh rfl rfl))

theorem log_carries {c v : Nat} {d : List Byte} (h : Carries s t) : Carries s (t.log c v d) :=
  h.frame (log_only (within rfl) OnlyChanges.refl)

theorem soOff_carries (h : Carries s t) : Carries s t.soOff := by
  refine Carries.foldl ?_ fun _ _ h => put_carries h
  exact h.set

theorem lockout_carries {c k i : Nat} {b d : Bool} (h : Carries s t) : Carries s (t.lockout c k i b d) := by
  have ho : ∀ {g : Saf}, Carries s (State.soOff { t with saf := g }) := soOff_carries h.set
  exact (log_carries ho).ite ho

theorem driveWith_carries {n : Nat} {f : Dio → Dio} (h : Carries s t) : Carries s (t.driveWith n f) := by
  have hu : ∀ {f : Dio → Dio}, Carries s (t.updDio n f) := h.frame (updDio_only (within rfl) OnlyChanges.refl)
  exact hu.ite (put_carries hu)

theorem command_carries {n : Nat} {i : Int} {f : Aio → Aio} (h : Carries s t) : Carries s (t.command n i f) := by
  have hu : ∀ {f : Aio → Aio}, Carries s (t.updAio n f) := h.frame (updAio_only (within rfl) OnlyChanges.refl)
  exact h.ite (hu.ite (put_carries hu))

theorem driveZero_carries {n : Nat} (h : Carries s t) : Carries s (t.driveZero n) := command_carries h

theorem driveFail_carries {n : Nat} (h : Carries s t) : Carries s (t.driveFail n) := command_carries h

theorem driveDio_carries {n : Nat} {v : Bool} (h : Carries s t) : Carries s (t.driveDio n v) := (driveWith_carries h).ite h

theorem setMode_carries {m : Mode} {c : Nat} (h : Carries s t) : Carries s (t.setMode m c) := by
  unfold State.setMode
  refine event_carries (log_carries ?_)
  dsimp only
  split <;> split <;> exact h.set

/-! The start (Start.lean). -/

theorem bootHeld_carries (h : Carries s t) : Carries s t.bootHeld :=
  (h.foldl fun _ _ h => (put_carries h).ite h).foldl fun _ _ h => driveZero_carries h

theorem bootOutputs_carries (h : Carries s t) : Carries s t.bootOutputs := by
  have h0 : Carries s { t.soOff with fio := { t.soOff.fio with aio := t.soOff.fio.aio.mapV Aio.endTrim } } :=
    (soOff_carries h).set
  exact (h0.foldl fun _ _ h => (driveWith_carries h).ite h).foldl fun _ _ h => driveZero_carries h

theorem step4_carries {obs : BootObs} (h : Carries s t) : Carries s (t.step4 obs) := h.frame (step4_only (within rfl) OnlyChanges.refl)

theorem step5_carries (h : Carries s t) : Carries s t.step5 := by
  have k : ∀ {v : State} {b : Boot} {c : Cfg} {n : BitVec 18}, Carries s v →
      Carries s { v with boot := b, cfg := c, sys := { v.sys with nodeId := n } } := fun h => h.set
  unfold State.step5
  dsimp only
  split
  · exact Carries.frame ((k h).ite ((k h).frame (installProgram_only (within rfl) OnlyChanges.refl)))
      (loadProgram_only (within rfl) (enrolOps_only (within rfl) OnlyChanges.refl))
  · exact h.set

theorem safStart_carries (h : Carries s t) : Carries s t.safStart := by
  have hl : ∀ {f : Saf} {b : List Byte}, Carries s (State.log 0x0A01 6 b { t with saf := f }) :=
    log_carries h.set
  exact (lockout_carries hl).ite hl

theorem setSync_carries {x : SyncState} {r c : Nat} (h : Carries s t) : Carries s (t.setSync x r c) :=
  h.frame (setSync_only (within rfl) OnlyChanges.refl)

theorem step6_carries (h : Carries s t) : Carries s t.step6 := by
  have hl : Carries s (State.loadRegs t.cfg.regs { t with boot := { t.boot with step := 6 } }) :=
    Carries.frame (t := { t with boot := { t.boot with step := 6 } }) h.set
      (loadRegs_only (within rfl) OnlyChanges.refl)
  have hs : ∀ {v : State} {f : Saf}, Carries s v → Carries s (State.numberCycles (State.measure (State.safStart { v with saf := f }))) :=
    fun {v f} h => Carries.frame (t := State.safStart { v with saf := f }) (safStart_carries h.set)
      (numberCycles_only (within rfl) (measure_only (within rfl) OnlyChanges.refl))
  have hb : ∀ {v : State} {f : Fio} {a : Tim} {c : Cle} {l : Bool}, Carries s v →
      Carries s (State.bootHeld { v with fio := f, tim := a, cle := c, sys := { v.sys with lone := l } }) := fun h =>
    bootHeld_carries h.set
  exact Carries.ite (hb (hs hl)) (setSync_carries (hb (hs hl)))

end Sys2Proof.Proofs
end

section
/-! A start from boot step 2 (Start.lean), to its end. -/

namespace Sys2Proof.Proofs

open Sys2Proof.Machine Sys2Proof.Safety Sys2Proof.Laws

variable {s t u : State}

theorem takeEpoch_carries (h : Carries s t) : Carries s t.takeEpoch := h.frame (takeEpoch_only (within rfl) OnlyChanges.refl)

theorem enterStart_carries {m : Mode} {p : Bool} (h : Carries s t) : Carries s (t.enterStart m p) := by
  unfold State.enterStart
  extract_lets b t1 q y1 t2 t3 t4 y4 t5
  have h2 : Carries s t2 := h.set
  have h3 : Carries s t3 := (h2.frame (runClasses_only (within rfl) OnlyChanges.refl)).ite h2
  have h4 : Carries s t4 := setMode_carries h3
  have h5 : Carries s t5 := h4.set
  exact (setSync_carries h5).ite h5

theorem endBoot_carries {m : Mode} {p : Bool} (h : Carries s t) : Carries s (t.endBoot m p) :=
  enterStart_carries ((takeEpoch_carries h).ite h)

theorem sendParts_carries {i n k : Nat} {b : List Byte} (h : Carries s t) : Carries s (State.sendParts i n b t k) := by
  induction k generalizing t with
  | zero => exact h
  | succ k ih => exact ih (put_carries (h.frame (nextSeq_only (within rfl) OnlyChanges.refl)))

theorem newBlocks_carries (h : Carries s t) : Carries s t.newBlocks := by
  refine h.foldl fun v e h => Carries.ite ?_ (sendParts_carries ?_)
  · exact h.frame (refuseStn_only (within rfl) OnlyChanges.refl)
  · exact h.frame (updStn_only (within rfl) OnlyChanges.refl)

theorem replayOne_carries {r : JRec} (h : Carries s t) : Carries s (t.replayOne r) := by
  have hd : ∀ {v : State}, Carries s v → Carries s (v.dropRec r) := fun h => h.set
  have hw : ∀ {v : State}, Carries s v → Carries s (v.leaveWin r.slot r.reqId) := fun h => h.set
  have hk : ∀ {n : Nat}, Carries s (t.skipRec r n) := h.frame (skipRec_only (within rfl) OnlyChanges.refl)
  unfold State.replayOne
  split
  · exact h
  split
  · exact hd hk
  split
  · split
    · exact hk
    · exact h.frame (replayEffect_only (within rfl) OnlyChanges.refl)
  · exact Carries.ite ((hw (hd h)).ite (hd h)) (hw (hd h))

theorem replayOnce_carries (h : Carries s t) : Carries s (t.replayOnce State.replay) := by
  have hr : Carries s t.replay := h.foldl fun _ _ h => h.foldl fun _ _ h => replayOne_carries h
  exact Carries.ite hr.set h

theorem ringStart_carries {l : List Nat} (h : Carries s t) : Carries s (t.ringStart State.replay l) := by
  have hn : ∀ {x : Net}, Carries s (State.newBlocks (State.takeEpoch { t with net := x })) :=
    newBlocks_carries (takeEpoch_carries h.set)
  exact (enterStart_carries (replayOnce_carries hn)).ite hn.set

theorem bootExit_carries {f : Bool} {l : List Nat} (h : Carries s t) : Carries s (t.bootExit State.replay f l) := by
  have hr := replayOnce_carries h
  have hh : ∀ {c : BitVec 8}, Carries s { t with sys := { t.sys with haltCause := c } } := h.set
  refine (endBoot_carries (hr.ite h)).ite ((lockout_carries (endBoot_carries hh)).ite ((endBoot_carries hr).ite (Carries.ite h.set ?_)))
  exact (ringStart_carries h).ite (endBoot_carries hr)

theorem bootFrom3_carries {obs : BootObs} (h : Carries s t) : Carries s (t.bootFrom3 State.replay obs) := by
  have h6 : Carries s (((t.step4 obs).step5).step6) := step6_carries (step5_carries (step4_carries h))
  exact Carries.ite h.set (bootExit_carries h6.set)

theorem tripGroup_carries {o g : Nat} (h : Carries s t) : Carries s (t.tripGroup o g) := by
  have hs : ∀ {l : List Nat}, Carries s { t with sys := { t.sys with parTrip := l } } := h.set
  exact log_carries hs

theorem keyTrip_carries {o : Nat} (h : Carries s t) : Carries s (t.keyTrip o) := h.ite (tripGroup_carries h).set

theorem mramDouble_carries {e : MramErr} (h : Carries s t) : Carries s (t.mramDouble e) := by
  have hm : ∀ {x : Mm}, Carries s { t with mm := x } := h.set
  have ha : ∀ {x : Mm} {n : Nat} {f : Aio → Aio}, Carries s (State.updAio n f { t with mm := x }) := h.set
  unfold State.mramDouble
  cases e with
  | tally a n => exact h.set
  | journal n id => exact h.set
  | keyStore o => exact keyTrip_carries hm
  | calib c => exact (log_carries ha).ite hm
  | twin => exact hm

theorem mramRead_carries {n : Nat} {l : List MramErr} (h : Carries s t) : Carries s (t.mramRead n l) := by
  have hm : ∀ {x : Mm}, Carries s { t with mm := x } := h.set
  exact hm.foldl fun _ _ h => mramDouble_carries h

/-- A start that no power cycle caused: what was sent stays, the power-cycle counter too, configuration requests are answered, no
abandoned mode command and no ring is left. -/
structure Restarted (s t : State) : Prop where
  sent : s.outbox <+: t.outbox
  pwrcyc : t.sys.pwrcyc = s.sys.pwrcyc
  preempted : t.sys.preempted = []
  crs : t.hif.crs = false
  rings : t.hif.rings = []

theorem Restarted.carries (h : Restarted s t) (k : Carries t u) : Restarted s u :=
  ⟨h.sent.trans k.sent, k.pwrcyc.trans h.pwrcyc, k.preempted.trans h.preempted, k.crs.trans h.crs, k.rings.trans h.rings⟩

theorem step2_restarted {obs : BootObs} : Restarted s (s.step2 false obs) := by
  have ho : Carries s s.bootOutputs := bootOutputs_carries .refl
  unfold State.step2
  extract_lets old k ms op sys hif tly boot ks ret k0 k1 k2 k3 k4
  have h0 : Restarted s k0 := ⟨ho.sent, ho.pwrcyc, rfl, rfl, rfl⟩
  have h2 : Carries k0 k2 := log_carries .refl
  have h3 : Carries k0 k3 := (mramRead_carries h2).frame (factoryCheck_only (within rfl) OnlyChanges.refl)
  have h4 : Carries k0 k4 := h3.ite (keyTrip_carries h3)
  exact h0.carries (h4.frame (newNonce_only (within rfl) (tamperRead_only (within rfl) OnlyChanges.refl)))

theorem bootFrom2_restarted {obs : BootObs} : Restarted s (s.bootFrom2 State.replay false obs) := by
  have h2 : Restarted s (s.step2 false obs) := step2_restarted
  have h3 : Carries (s.step2 false obs) (s.step2 false obs).step3 := Carries.refl.set
  exact h2.carries (Carries.ite Carries.refl.set (bootFrom3_carries h3))

end Sys2Proof.Proofs
end

section
/-! Completions: what the end of a command sends, and that it leaves the admin ring at the entry it stands at. -/

namespace Sys2Proof.Proofs

open Sys2Proof.Machine Sys2Proof.Safety Sys2Proof.Laws

variable {s t u : State} {h : Hcmd}

/-- From `s` to `t` the module sends at most more; the admin ring stands at the same entry, and takes no command. -/
structure Serves (s t : State) : Prop where
  sent : s.outbox <+: t.outbox
  head : (t.ring 0).sqHead = (s.ring 0).sqHead
  idle : (s.ring 0).infl = none → (t.ring 0).infl = none

theorem Serves.refl : Serves s s := ⟨List.prefix_rfl, rfl, id⟩

theorem Serves.trans (h : Serves s t) (k : Serves t u) : Serves s u :=
  ⟨h.sent.trans k.sent, k.head.trans h.head, k.idle ∘ h.idle⟩

theorem Carries.serves (h : Carries s t) : Serves s t := by
  have hr : t.ring 0 = s.ring 0 := by rw [State.ring, h.rings, State.ring]
  exact ⟨h.sent, by rw [hr], by rw [hr]; exact id⟩

theorem Serves.carries (h : Serves s t) (k : Carries t u) : Serves s u := h.trans k.serves

theorem Serves.ite {c : Prop} [Decidable c] (h : Serves s t) (k : Serves s u) : Serves s (if c then t else u) := by
  split
  · exact h
  · exact k

theorem Serves.foldl {α : Type} {f : State → α → State} {l : List α} (h : Serves s t)
    (hf : ∀ u a, Serves s u → Serves s (f u a)) : Serves s (l.foldl f t) := by
  induction l generalizing t with
  | nil => exact h
  | cons a l ih => exact ih (hf _ _ h)

/-- An update of a ring that moves no entry and begins no command. -/
theorem updRing_serves {n : Nat} {f : Ring → Ring} (h : Serves s t) (hh : ∀ r, (f r).sqHead = r.sqHead)
    (hi : ∀ r, r.infl = none → (f r).infl = none) : Serves s (t.updRing n f) := by
  have hr : (t.updRing n f).ring 0 = f (t.ring 0) ∨ (t.updRing n f).ring 0 = t.ring 0 := by
    by_cases hn : n = 0
    · exact .inl (hn ▸ ring_updRing n f)
    · exact .inr (ring_updRing_ne f (Ne.symm hn))
  refine h.trans ⟨List.prefix_rfl, ?_, ?_⟩ <;> rcases hr with e | e <;> rw [e]
  · exact hh _
  · exact hi _
  · exact id

theorem put_serves {o : Out} (h : Serves s t) : Serves s (t.put o) := h.carries (put_carries .refl)

theorem msix_serves {v : Nat} (h : Serves s t) : Serves s (t.msix v) := h.carries (msix_carries .refl)

theorem dmaErr_serves (h : Serves s t) : Serves s t.dmaErr := h.carries (Carries.set .refl)

theorem haltRing_serves {n c i : Nat} (h : Serves s t) : Serves s (t.haltRing n c i) := by
  have hx : ∀ {v : State} {w : Word}, Serves s v → Serves s { v with hif := { v.hif with errInfo := w } } := fun h =>
    h.carries (Carries.set .refl)
  have he : Serves s { t with hif := { t.hif with ev := { t.hif.ev with halted := true } } } := h.carries (Carries.set .refl)
  have hu : Serves s (t.updRing n fun r => { r with halted := true }) := updRing_serves h (fun _ => rfl) fun _ => id
  unfold State.haltRing
  exact (hx (he.ite hu)).carries (event_carries (log_carries .refl))

theorem countInt_serves {n : Nat} {b : Bool} (h : Serves s t) : Serves s (t.countInt n b) := by
  have hu : ∀ {k : Nat}, Serves s (t.updRing n fun r => { r with uncounted := k }) := updRing_serves h (fun _ => rfl) fun _ => id
  have hu1 : Serves s (t.updRing n fun r => { r with uncounted := r.uncounted + 1 }) := updRing_serves h (fun _ => rfl) fun _ => id
  exact (h.ite (msix_serves h)).ite ((msix_serves hu).ite hu1)

theorem retire_serves {n : Nat} {id : DWord} (h : Serves s t) : Serves s (t.retire n id) := h.carries (Carries.set .refl)

/-- The completion entry as the ring of `c` writes it. -/
def writtenCqe (s : State) (c : Cqe) : Cqe :=
  { c with sqHead := (s.ring c.slot).sqHead, phase := (s.ring c.slot).phase, accTime := s.accTime }

theorem postCqe_serves {b : Bool} {c : Cqe} : Serves (t.put (.cqe c.slot (writtenCqe t c))) (t.postCqe b c) := by
  have hu : ∀ {k : Nat}, Serves (t.put (.cqe c.slot (writtenCqe t c)))
      (State.put (.cqe c.slot (writtenCqe t c)) (t.updRing c.slot fun r => { r with cqTail := k, phase := if k = 0 then !r.phase else r.phase })) :=
    updRing_serves (t := t.put _) .refl (fun _ => rfl) fun _ => id
  exact retire_serves (countInt_serves hu)

theorem writeCqe_serves {st : BitVec 16} {d m : Bool} {j : DWord} {n : Nat} {r0 : Word} {r1 : DWord} (k : Serves s t) :
    Serves s (t.writeCqe h st d m j n r0 r1) := by
  have hu : Serves s (t.updRing h.slot fun r => { r with infl := none }) := updRing_serves k (fun _ => rfl) fun _ _ => rfl
  unfold State.writeCqe
  refine Serves.ite (updRing_serves (haltRing_serves (dmaErr_serves hu)) (fun _ => rfl) fun _ => id) ?_
  exact Serves.ite (hu.carries (Carries.set .refl)) ((put_serves hu).trans postCqe_serves)

theorem removeRing_serves {n : Nat} (hn : n ≠ 0) (k : Serves s t) : Serves s (t.removeRing n) := by
  have hr : (t.removeRing n).ring 0 = t.ring 0 := look_del_ne (Ne.symm hn)
  exact k.trans ⟨List.prefix_rfl, by rw [hr], by rw [hr]; exact id⟩

theorem endDelete_serves {n : Nat} (hn : n ≠ 0) (k : Serves s t) : Serves s (t.endDelete n) := by
  have hr := removeRing_serves hn k
  unfold State.endDelete
  dsimp only
  split
  · exact (writeCqe_serves hr).ite hr
  · exact hr

theorem complete_serves {st : BitVec 16} {d m : Bool} {j : DWord} {n : Nat} {r0 : Word} {r1 : DWord} (k : Serves s t) :
    Serves s (t.complete h st d m j n r0 r1) := by
  unfold State.complete
  dsimp only
  split
  next hd =>
    have hn : h.slot ≠ 0 := of_decide_eq_true (Bool.and_eq_true _ _ ▸ hd : _ ∧ _).2
    exact endDelete_serves hn (writeCqe_serves k)
  next => exact writeCqe_serves k

theorem settle_serves {st : BitVec 16} {m : Bool} {j : DWord} {b : List Byte} {r0 : Word} {r1 : DWord} (k : Serves s t) :
    Serves s (t.settle h st m j b r0 r1) := by
  have hg : Serves s (t.giveBack h b).2 := by
    unfold State.giveBack
    split
    · exact k
    split
    · exact put_serves k
    · exact dmaErr_serves k
  exact complete_serves hg

theorem finishWaiting_serves {n : Nat} {st : BitVec 16} {b : List Byte} {r0 : Word} {r1 : DWord} (k : Serves s t) :
    Serves s (t.finishWaiting n st b r0 r1) := by
  unfold State.finishWaiting
  split
  · exact settle_serves k
  · exact k

theorem serveRead_serves {n : Nat} (k : Serves s t) : Serves s (t.serveRead n) := by
  unfold State.serveRead
  split
  · exact (finishWaiting_serves k).ite ((finishWaiting_serves k).ite k)
  · exact k

/-! What follows a command. -/

theorem canSync_carries : Carries t t.canSync := .of_quiet (OnlyChanges.mono canSync_frame (within rfl))

theorem fioFollow_carries {m : Mode} (k : Carries s t) : Carries s (t.fioFollow m) := by
  have h0 : Carries s { t with fio := { t.fio with aio := t.fio.aio.mapV Aio.endTrim } } := k.set
  unfold State.fioFollow
  refine k.ite ?_
  dsimp only
  split
  · exact (h0.foldl fun _ _ h => driveDio_carries h).foldl fun _ _ h => driveZero_carries h
  · exact (h0.foldl fun _ _ h => driveDio_carries h).foldl fun _ _ h => driveZero_carries h
  · exact (h0.foldl fun _ _ h => driveDio_carries h).foldl fun _ _ h => driveFail_carries h
  · exact h0

theorem report_carries : Carries t (report s t) := by
  unfold report
  extract_lets t1 t2
  have h1 : Carries t t1 := Carries.refl.ite (event_carries .refl)
  have h2 : Carries t t2 := h1.ite (event_carries h1)
  exact h2.ite (event_carries h2)

/-- Where no abandoned mode command waits, what follows a command sends at most more and leaves the admin ring at its entry. -/
theorem settleState_serves (hp : t.sys.preempted = []) : Serves t (settleState s t) := by
  have hu : Carries t (t.canSync.fioFollow s.sys.mode) := fioFollow_carries canSync_carries
  have hr : ∀ {m : Mode}, Serves t ((t.canSync.fioFollow s.sys.mode).readsFollow m) := fun {m} =>
    hu.serves.ite (hu.serves.foldl fun _ _ k => serveRead_serves k)
  unfold settleState
  dsimp only
  rw [completePreempted_id (hu.preempted.trans hp)]
  exact (hr.ite hu.serves).carries report_carries

/-- Where no ring is left either, it leaves those as they are. -/
theorem settleState_carries (hp : t.sys.preempted = []) (hr : t.hif.rings = []) : Carries t (settleState s t) := by
  have hu : Carries t (t.canSync.fioFollow s.sys.mode) := fioFollow_carries canSync_carries
  have hn : ∀ {m : Mode}, (t.canSync.fioFollow s.sys.mode).readsFollow m = t.canSync.fioFollow s.sys.mode := fun {m} => by
    unfold State.readsFollow
    rw [hu.rings, hr]
    exact ite_self _
  unfold settleState
  dsimp only
  rw [completePreempted_id (hu.preempted.trans hp), hn, ite_self]
  exact hu.trans report_carries

end Sys2Proof.Proofs
end

section
/-! A ring command that passes its checks and completes at once. -/

namespace Sys2Proof.Proofs

open Sys2Proof.Machine Sys2Proof.Safety Sys2Proof.Laws

variable {s t u : State} {h : Hcmd} {op : HostOp}

/-- The host interface `x` is that of `s` once the entry of ring `n` has been taken. -/
structure Taken (n : Nat) (s : State) (x : Hif) : Prop where
  head : (x.rings.look n {}).sqHead = ((s.ring n).sqHead + 1) % 2 ^ (s.ring n).sqK
  posts : (x.rings.look n {}).cqHalt = (s.ring n).cqHalt
  stays : (x.rings.look n {}).deleting = (s.ring n).deleting

/-- The command `h` of `op` is taken and passes the checks of a primary and of a standby alike, its own check in any state of the host
interface too, and its effect does not wait; no partner has to mirror it. -/
structure Runs (op : HostOp) (h : Hcmd) (s : State) : Prop where
  taken : s.canTake h.slot op.dur = true
  form : op.static h = none
  fresh : s.sys.primary = true → (s.win h.slot).high < h.reqId
  role : op.roleP = true → s.sys.primary = true
  alone : s.sys.primary = true → op.dur ≠ .n → s.insync = false
  go : ∀ x, op.check h { s with hif := x } = .go
  plain : ∀ u, op.prepare h u = none
  ends : ∀ x, (op.effect h { s with hif := x }).wait = false

theorem runUnrecorded_go (hc : op.check h t = .go) (hw : (op.effect h t).wait = false) :
    t.runUnrecorded op h = (op.effect h t).s.settle h (op.effect h t).status false 0 (op.effect h t).ret (op.effect h t).r0 (op.effect h t).r1 := by
  unfold State.runUnrecorded
  rw [hc]
  dsimp only
  rw [hw]
  rfl

theorem afterRecord_ok {w : Word} {m : Bool} {j : DWord} (hw : (op.effect h (t.enterWin h.slot h.reqId)).wait = false) :
    t.afterRecord op h St.ok w m j = (op.effect h (t.enterWin h.slot h.reqId)).s.settle h
      (op.effect h (t.enterWin h.slot h.reqId)).status m j (op.effect h (t.enterWin h.slot h.reqId)).ret
      (op.effect h (t.enterWin h.slot h.reqId)).r0 (op.effect h (t.enterWin h.slot h.reqId)).r1 := by
  unfold State.afterRecord
  dsimp only
  rw [if_neg (fun e => e rfl), hw]
  rfl

theorem Taken.of_ring {n : Nat} {r : Ring} {x : Hif} (e : x.rings.look n {} = r) (hh : r.sqHead = ((s.ring n).sqHead + 1) % 2 ^ (s.ring n).sqK)
    (hp : r.cqHalt = (s.ring n).cqHalt) (hd : r.deleting = (s.ring n).deleting) : Taken n s x := ⟨e ▸ hh, e ▸ hp, e ▸ hd⟩

theorem runCmd_primary (ht : s.canTake h.slot op.dur = true) (hs : op.static h = none) (hp : s.sys.primary = true) :
    s.runCmd op h = (s.fetch h.slot).runPrimary op h := by
  have hf : (s.fetch h.slot).sys.primary = true := hp
  simp only [State.runCmd, ht, hs, hf, Bool.not_true, Bool.false_eq_true, if_false, if_true]

theorem runCmd_standby (ht : s.canTake h.slot op.dur = true) (hs : op.static h = none) (hr : op.roleP = false)
    (hp : s.sys.primary = false) : s.runCmd op h = (s.fetch h.slot).runUnrecorded op h := by
  have hf : (s.fetch h.slot).sys.primary = false := hp
  simp only [State.runCmd, ht, hs, hr, hf, Bool.not_true, Bool.false_eq_true, if_false]

theorem runPrimary_plain (hf : (t.win h.slot).high < h.reqId) (hd : op.dur = .n) : t.runPrimary op h =
    State.runUnrecorded op h { t.enterWin h.slot h.reqId with
      hif := { (t.enterWin h.slot h.reqId).hif with nWin := (t.enterWin h.slot h.reqId).hif.nWin ++ [h] } } := by
  simp only [State.runPrimary, hf, hd, decide_true, Bool.not_true, Bool.false_eq_true, if_false, if_true]

theorem runPrimary_journal (hf : (t.win h.slot).high < h.reqId) (hd : op.dur ≠ .n) (hc : op.check h t = .go)
    (hp : op.prepare h t = none) (hi : t.insync = false) : t.runPrimary op h = t.recordJournal op h St.ok 0 (op.cyc h t) := by
  simp only [State.runPrimary, State.record, hf, hd, hc, hp, hi, decide_true, Bool.not_true, Bool.false_eq_true, if_false]

/-- The command takes its entry, takes effect and settles. -/
def Ends (op : HostOp) (h : Hcmd) (s : State) : Prop :=
  ∃ x m j, Taken h.slot s x ∧ s.runCmd op h = (op.effect h { s with hif := x }).s.settle h (op.effect h { s with hif := x }).status m j
    (op.effect h { s with hif := x }).ret (op.effect h { s with hif := x }).r0 (op.effect h { s with hif := x }).r1

theorem runCmd_standby_ends (k : Runs op h s) (hp : s.sys.primary = false) : Ends op h s := by
  have hr : (s.fetch h.slot).ring h.slot = _ := ring_updRing ..
  have hrole : op.roleP = false := Bool.eq_false_iff.mpr fun e => by cases hp.symm.trans (k.role e)
  exact ⟨(s.fetch h.slot).hif, _, _, .of_ring hr rfl rfl rfl,
    (runCmd_standby k.taken k.form hrole hp).trans (runUnrecorded_go (k.go _) (k.ends _))⟩

theorem runCmd_plain_ends (k : Runs op h s) (hp : s.sys.primary = true) (hd : op.dur = .n) : Ends op h s := by
  have hr : (s.fetch h.slot).ring h.slot = _ := ring_updRing ..
  have hf : ((s.fetch h.slot).win h.slot).high < h.reqId := k.fresh hp
  refine ⟨_, _, _, ?_, (runCmd_primary k.taken k.form hp).trans ((runPrimary_plain hf hd).trans (runUnrecorded_go (k.go _) (k.ends _)))⟩
  exact .of_ring hr rfl rfl rfl

theorem journal_enterWin {i : Infl} {r : JRec} {n : Nat} {id : DWord} : ∃ x,
    x.rings.look n {} = { t.ring n with infl := some i } ∧
      (((t.updRing n fun r => { r with infl := some i }).journal r).enterWin n id) = { t with hif := x } := by
  refine ⟨_, ?_, rfl⟩
  exact ring_updRing n fun r => { r with infl := some i }

/-- A journaled command whose effect does not wait: the journal and the window change, and the ring holds the command. -/
theorem recordJournal_settles {w : DWord} (hw : ∀ x, (op.effect h { t with hif := x }).wait = false) : ∃ x m j i,
    x.rings.look h.slot {} = { t.ring h.slot with infl := some i } ∧ t.recordJournal op h St.ok 0 w =
      (op.effect h { t with hif := x }).s.settle h (op.effect h { t with hif := x }).status m j (op.effect h { t with hif := x }).ret
        (op.effect h { t with hif := x }).r0 (op.effect h { t with hif := x }).r1 := by
  unfold State.recordJournal
  dsimp only
  obtain ⟨x, hx, e⟩ := journal_enterWin (t := t) (i := { cmd := h, status := St.ok, reason := 0, aux := w.toNat })
    (r := jrecOf op.dur h St.ok (decide (St.ok ≠ St.ok)) (t.hif.jseq + 1) w) (n := h.slot) (id := h.reqId)
  refine ⟨x, false, t.hif.jseq + 1, _, hx, (afterRecord_ok ?_).trans ?_⟩
  · rw [e]
    exact hw x
  · rw [e]

theorem runCmd_journal_ends (k : Runs op h s) (hp : s.sys.primary = true) (hd : op.dur ≠ .n) : Ends op h s := by
  have hr : (s.fetch h.slot).ring h.slot = _ := ring_updRing ..
  have hf : ((s.fetch h.slot).win h.slot).high < h.reqId := k.fresh hp
  have hc : s.runCmd op h = _ := (runCmd_primary k.taken k.form hp).trans (runPrimary_journal hf hd (k.go _) (k.plain _) (k.alone hp hd))
  obtain ⟨x, m, j, i, hx, e⟩ := recordJournal_settles (t := s.fetch h.slot) (op := op) (h := h) (w := op.cyc h (s.fetch h.slot)) k.ends
  refine ⟨x, m, j, ?_, hc.trans e⟩
  rw [hr] at hx
  exact .of_ring hx rfl rfl rfl

theorem runCmd_runs (k : Runs op h s) : Ends op h s := by
  cases hp : s.sys.primary with
  | false => exact runCmd_standby_ends k hp
  | true =>
    by_cases hd : op.dur = .n
    · exact runCmd_plain_ends k hp hd
    · exact runCmd_journal_ends k hp hd

end Sys2Proof.Proofs
end

section
/-! RESTART (spec/04_host_rings.md R111): its completion goes out before the start. -/

namespace Sys2Proof.Proofs

open Sys2Proof.Machine Sys2Proof.Safety Sys2Proof.Laws

variable {s t u : State} {h : Hcmd}

theorem postCqe_posts {b d : Bool} {c : Cqe} {n : Nat} {i : DWord} {st : BitVec 16} (hn : c.slot = n) (hi : c.reqId = i)
    (hs : c.status = st) (hd : c.dup = d) :
    ∃ c' : Cqe, c'.reqId = i ∧ c'.status = st ∧ c'.dup = d ∧ Serves (t.put (.cqe n c')) (t.postCqe b c) :=
  hn ▸ ⟨writtenCqe t c, hi, hs, hd, postCqe_serves⟩

theorem complete_posts {st : BitVec 16} {d m : Bool} {j : DWord} {n : Nat} {r0 : Word} {r1 : DWord} (hq : h.cqeOk = true)
    (hp : (t.ring h.slot).cqHalt = false) : ∃ c : Cqe, c.reqId = h.reqId ∧ c.status = st ∧ c.dup = d ∧
      Serves ((t.updRing h.slot fun r => { r with infl := none }).put (.cqe h.slot c)) (t.complete h st d m j n r0 r1) := by
  have hc : ((t.updRing h.slot fun r => { r with infl := none }).ring h.slot).cqHalt = false := by
    rw [ring_updRing]
    exact hp
  have hw : ∃ c : Cqe, c.reqId = h.reqId ∧ c.status = st ∧ c.dup = d ∧
      Serves ((t.updRing h.slot fun r => { r with infl := none }).put (.cqe h.slot c)) (t.writeCqe h st d m j n r0 r1) := by
    unfold State.writeCqe
    dsimp only
    rw [hq, hc, Bool.not_true, if_neg Bool.false_ne_true, if_neg Bool.false_ne_true]
    exact postCqe_posts rfl rfl rfl rfl
  obtain ⟨c, hid, hst, hdup, hs⟩ := hw
  refine ⟨c, hid, hst, hdup, ?_⟩
  unfold State.complete
  dsimp only
  split
  next hd => exact endDelete_serves (of_decide_eq_true (Bool.and_eq_true _ _ ▸ hd : _ ∧ _).2) hs
  next => exact hs

/-- A command that returns no data completes with its status. -/
theorem settle_posts {st : BitVec 16} {m : Bool} {j : DWord} {r0 : Word} {r1 : DWord} (hq : h.cqeOk = true)
    (hp : (t.ring h.slot).cqHalt = false) : ∃ c : Cqe, c.reqId = h.reqId ∧ c.status = st ∧ c.dup = false ∧
      Serves ((t.updRing h.slot fun r => { r with infl := none }).put (.cqe h.slot c)) (t.settle h st m j [] r0 r1) :=
  complete_posts hq hp

theorem prefix_mem {α : Type} {l m k : List α} {a : α} (h : l <+: m) (e : m ++ [a] <+: k) : ∃ r, k = l ++ r ∧ a ∈ r := by
  obtain ⟨r, rfl⟩ := h
  obtain ⟨q, rfl⟩ := e
  exact ⟨r ++ [a] ++ q, by simp only [List.append_assoc], by simp⟩

theorem restart_runs (o : Offered opRestart h s) (hc : s.checkRestart = .go) : Runs opRestart { h with opcode := 0x08 } s where
  taken := o.taken
  form := o.form
  fresh := o.fresh
  role := o.role
  alone _ hd := absurd rfl hd
  go _ := hc
  plain _ := rfl
  ends _ := rfl

/-- A RESTART that is accepted writes its completion, then starts the module. -/
theorem runRestart_restarted {obs : BootObs} (o : Offered opRestart h s) (hc : s.checkRestart = .go) :
    ∃ (t : State) (c : Cqe), s.runRestart obs h = t.restart obs ∧ c.reqId = h.reqId ∧ c.status = 0 ∧
      s.outbox ++ [.cqe h.slot c] <+: t.outbox ∧ t.sys.pwrcyc = s.sys.pwrcyc := by
  obtain ⟨x, m, j, hx, e⟩ := runCmd_runs (restart_runs o hc)
  have hp : (State.ring { s with hif := x } h.slot).cqHalt = false := hx.posts.trans o.posts
  obtain ⟨c, hid, hst, -, hs⟩ := settle_posts (h := { h with opcode := 0x08 }) (st := 0) (m := m) (j := j) (r0 := 0) (r1 := 0)
    (t := State.beginTrans .boot 7 31 { s with hif := x }) o.answered hp
  have hsys : (s.runCmd opRestart { h with opcode := 0x08 }).sys = (s.beginTrans .boot 7 31).sys := by
    rw [e]
    exact (settle_only (within rfl) OnlyChanges.refl : OnlyChanges [.hif, .tly, .outbox] _ _).same .sys (by decide)
  refine ⟨s.runCmd opRestart { h with opcode := 0x08 }, c, ?_, hid, hst, e ▸ hs.sent, (congrArg Sys.pwrcyc hsys :)⟩
  unfold State.runRestart
  dsimp only
  rw [hsys]
  rfl

theorem restart_completes {obs : BootObs} (o : Offered opRestart h s) (hc : s.checkRestart = .go) :
    ∃ (t : State) (l : List Out) (c : Cqe), exec (.restart h obs) s = .next t ∧ t.outbox = s.outbox ++ l ∧ Out.cqe h.slot c ∈ l ∧
    c.reqId = h.reqId ∧ c.status = 0 ∧ t.sys.pwrcyc = s.sys.pwrcyc ∧ t.hif.crs = false ∧ t.hif.rings = [] := by
  obtain ⟨t, c, e, hid, hst, hsent, hcyc⟩ := runRestart_restarted (obs := obs) o hc
  have hr : Restarted t (t.restart obs) := bootFrom2_restarted
  have hk : Carries (t.restart obs) (settleState s (t.restart obs)) := settleState_carries hr.preempted hr.rings
  have hf := hr.carries hk
  obtain ⟨l, hl, hmem⟩ := prefix_mem List.prefix_rfl (hsent.trans hf.sent)
  refine ⟨_, l, c, congrArg (done s) e, hl, hmem, hid, hst, hf.pwrcyc.trans hcyc, hf.crs, hf.rings⟩

end Sys2Proof.Proofs
end

section
/-! The exit from IDLE-LINK (spec/02_modes_and_startup.md R40): what it leaves. -/

namespace Sys2Proof.Proofs

open Sys2Proof.Machine Sys2Proof.Safety Sys2Proof.Laws

variable {s t u : State} {h : Hcmd} {obs : BootObs}

theorem step6_mode : s.step6.sys.mode = s.sys.mode := by
  have hh : ∀ {v : State}, v.bootHeld.sys = v.sys := fun {v} =>
    (bootHeld_only (within rfl) OnlyChanges.refl : OnlyChanges [.fio, .outbox] v _).same .sys (by decide)
  have hy : ∀ {v : State}, (v.setSync .waitPeer 0 0).sys = v.sys := fun {v} =>
    (setSync_only (within rfl) OnlyChanges.refl : OnlyChanges [.dpx, .tly] v _).same .sys (by decide)
  have hl : (State.loadRegs s.cfg.regs { s with boot := { s.boot with step := 6 } }).sys = s.sys :=
    (loadRegs_only (within rfl) OnlyChanges.refl : OnlyChanges [.regs, .live, .votes] { s with boot := { s.boot with step := 6 } } _).same
      .sys (by decide)
  have hs : ∀ {v : State} {f : Saf}, v.sys = s.sys → (State.numberCycles (State.measure (State.safStart { v with saf := f }))).sys = s.sys :=
    fun {v f} e => ((numberCycles_only (within rfl) (measure_only (within rfl) (safStart_only (within rfl) OnlyChanges.refl)) :
      OnlyChanges [.saf, .tly, .outbox, .boot, .cyc] { v with saf := f } _).same .sys (by decide)).trans e
  have hb : ∀ {v : State} {f : Fio} {a : Tim} {c : Cle} {l : Bool}, v.sys = s.sys →
      (State.bootHeld { v with fio := f, tim := a, cle := c, sys := { v.sys with lone := l } }).sys.mode = s.sys.mode :=
    fun e => (congrArg Sys.mode hh).trans (congrArg Sys.mode e :)
  have hi : ∀ {c : Prop} [Decidable c] {v : State}, v.sys.mode = s.sys.mode →
      (if c then v else v.setSync .waitPeer 0 0).sys.mode = s.sys.mode := fun {c _ v} e => by
    split
    · exact e
    · exact (congrArg Sys.mode hy).trans e
  exact hi (hb (hs hl))

theorem reloadEngines_mode : s.reloadEngines.sys.mode = s.sys.mode := step6_mode

theorem reloadEngines_paused : s.reloadEngines.mm.rinsePaused = false := by
  have hm : ∀ {v : State}, v.step6.mm = v.mm := fun {v} => (step6_only (within rfl) OnlyChanges.refl :
    OnlyChanges [.sys, .cyc, .cle, .dpx, .tim, .fio, .saf, .tly, .boot, .regs, .live, .votes, .outbox] v _).same .mm (by decide)
  exact congrArg Mm.rinsePaused hm

theorem reloadEngines_carries : Carries s s.reloadEngines := by
  unfold State.reloadEngines
  extract_lets mm sys hif t u bt
  have ht : Carries s t := Carries.set .refl
  have hu : Carries s u := step6_carries ht
  exact hu.set

theorem setMode_paused {m : Mode} {c : Nat} : (s.setMode m c).mm.rinsePaused = s.mm.rinsePaused := by
  have hev : ∀ {v : State} {c : BitVec 16} {k : Nat} {w : Word} {d : List Byte}, (v.event c k w d).mm = v.mm := fun {v c k w d} =>
    (event_only (within rfl) OnlyChanges.refl : OnlyChanges [.hif, .outbox] v _).same .mm (by decide)
  have hlog : ∀ {v : State} {code k : Nat} {d : List Byte}, (v.log code k d).mm = v.mm := fun {v code k d} =>
    (log_only (within rfl) OnlyChanges.refl : OnlyChanges [.tly] v _).same .mm (by decide)
  unfold State.setMode
  dsimp only
  rw [hev, hlog]
  split <;> split <;> rfl

/-- The exit from IDLE-LINK has led from `s` to `t`; `ok` tells whether self-test passed and the bank verified. -/
structure LeftIdle (ok : Bool) (s t : State) : Prop where
  origin : t.sys.from_ = s.sys.mode
  paused : t.mm.rinsePaused = false
  ends : ok = true → t.sys.mode = s.sys.from_
  fails : ok = false → t.sys.mode = .faultHalt ∧ t.sys.haltCause = 4 ∧ t.saf.sel.set = true ∧ t.saf.sp.set = true

theorem LeftIdle.ite {b : Bool} (h : LeftIdle true s t) (k : LeftIdle false s u) : LeftIdle b s (if b then t else u) := by
  cases b with
  | true => exact h
  | false => exact k

theorem setMode_leftIdle {m : Mode} {c : Nat} (hm : t.sys.mode = s.sys.mode) (hp : t.mm.rinsePaused = false) (hf : s.sys.from_ = m) :
    LeftIdle true s (t.setMode m c) where
  origin := (congrArg Sys.from_ (setMode_sys m c)).trans hm
  paused := setMode_paused.trans hp
  ends _ := (congrArg Sys.mode (setMode_sys m c)).trans hf.symm
  fails hk := nomatch hk

theorem halt_leftIdle {c a b d : Nat} {x y : Bool} (hm : t.sys.mode = s.sys.mode) (hp : t.mm.rinsePaused = false) :
    LeftIdle false s ((State.setMode .faultHalt c { t with sys := { t.sys with haltCause := 4 } }).lockout a b d x y) := by
  have hq : (State.setMode .faultHalt c { t with sys := { t.sys with haltCause := 4 } }).mm.rinsePaused = false :=
    setMode_paused.trans hp
  have hs := setMode_sys (s := { t with sys := { t.sys with haltCause := 4 } }) .faultHalt c
  generalize State.setMode .faultHalt c { t with sys := { t.sys with haltCause := 4 } } = v at hq hs ⊢
  have hk : OnlyChanges [.saf, .tly, .outbox] v (v.lockout a b d x y) := lockout_only (within rfl) OnlyChanges.refl
  have hsys : (v.lockout a b d x y).sys = v.sys := hk.same .sys (by decide)
  have hmm : (v.lockout a b d x y).mm = v.mm := hk.same .mm (by decide)
  obtain ⟨hsel, hsp, -⟩ := lockedOut_lockout (s := v) a b d x y
  refine ⟨?_, by rw [hmm]; exact hq, fun e => absurd e Bool.false_ne_true, fun _ => ⟨?_, ?_, hsel, hsp⟩⟩
  · rw [hsys, hs]
    exact hm
  · rw [hsys, hs]
  · rw [hsys, hs]
    rfl

theorem leaveIdle_left : LeftIdle (obs.selfTest && s.boot.runs) s (s.leaveIdle (some obs)) := by
  unfold State.leaveIdle
  dsimp only
  exact .ite (setMode_leftIdle reloadEngines_mode reloadEngines_paused rfl) (halt_leftIdle reloadEngines_mode reloadEngines_paused)

theorem leaveIdle_carries {o : Option BootObs} : Carries s (s.leaveIdle o) := by
  have hr : ∀ {v : State} {b : Bool}, Carries s v → Carries s (if b then v.reloadEngines.setMode s.sys.from_ 0 else
      (State.setMode .faultHalt 3 { v.reloadEngines with sys := { v.reloadEngines.sys with haltCause := 4 } }).lockout 2 0 0 true false) :=
    fun h => (setMode_carries (h.trans reloadEngines_carries)).ite
      (lockout_carries (setMode_carries (Carries.set (h.trans reloadEngines_carries))))
  cases o with
  | some o => exact hr .refl
  | none => exact hr (Carries.set .refl)

/-- An exit whose start is not observed draws its observation. -/
theorem leaveIdle_none : ∃ ok, LeftIdle ok s (s.leaveIdle none) := by
  have k := leaveIdle_left (s := s.drawObs.2) (obs := s.drawObs.1)
  exact ⟨_, k.origin, k.paused, k.ends, k.fails⟩

/-- An update of the host interface, the Tally, the outbox and the free values leaves all of it. -/
theorem LeftIdle.settles {ok : Bool} (k : LeftIdle ok s t) (hk : OnlyChanges [.hif, .tly, .outbox, .freeN] t u) : LeftIdle ok s u := by
  have hs : u.sys = t.sys := hk.same .sys (by decide)
  have hm : u.mm = t.mm := hk.same .mm (by decide)
  have hf : u.saf = t.saf := hk.same .saf (by decide)
  refine ⟨?_, ?_, fun e => ?_, fun e => ?_⟩
  · rw [hs]
    exact k.origin
  · rw [hm]
    exact k.paused
  · rw [hs]
    exact k.ends e
  · rw [hs, hf]
    exact k.fails e

/-- What follows a command leaves all of it. -/
theorem LeftIdle.settle {ok : Bool} (k : LeftIdle ok s t) : LeftIdle ok s (settleState u t) := by
  have hf : OnlyChanges settling t (settleState u t) := settleState_frame
  have hs : (settleState u t).sys = _ := settleState_sys
  have hmm : (settleState u t).mm = t.mm := hf.same .mm (by decide)
  have hsaf : (settleState u t).saf = t.saf := hf.same .saf (by decide)
  generalize settleState u t = v at hs hmm hsaf ⊢
  refine ⟨?_, by rw [hmm]; exact k.paused, fun e => ?_, fun e => ?_⟩
  · rw [hs]
    exact k.origin
  · rw [hs]
    exact k.ends e
  · rw [hs, hsaf]
    exact k.fails e

end Sys2Proof.Proofs
end

section
/-! A MODE_SET in IDLE-LINK from the admin ring. -/

namespace Sys2Proof.Proofs

open Sys2Proof.Machine Sys2Proof.Safety Sys2Proof.Laws

variable {s t u : State} {h : Hcmd} {obs : BootObs} {o : Option BootObs} {dst : Mode}

theorem orElse_none {a : Option (BitVec 16)} {c : Bool} {st : BitVec 16} : orElse a c st = none ↔ a = none ∧ c = true := by
  cases a <;> cases c <;> simp [orElse]

theorem commonCheck_admin {a b c : Nat} (hc : commonCheck true a b c h = none) : h.slot = 0 := by
  unfold commonCheck at hc
  split at hc
  · cases hc
  next hs => exact of_decide_eq_true (not_not.mp hs)

theorem canTake_alive {n : Nat} {d : Dur} (ht : s.canTake n d = true) : s.alive = true := by
  simp only [State.canTake, Bool.and_eq_true] at ht
  tauto

theorem modeFields_entry (hf : modeFields dst h = true) : modeFields dst (modeEntry dst h) = true := by
  have hc : (BitVec.ofNat 16 dst.code).toNat < 12 := by cases dst <;> decide
  simp only [modeFields, Bool.and_eq_true] at hf ⊢
  exact ⟨⟨decide_eq_true hc, hf.1.2⟩, hf.2⟩

theorem modeForm_entry (hs : (s.modeOp dst o).static h = none) : (s.modeOp dst o).static (modeEntry dst h) = none := by
  obtain ⟨hc, hf⟩ := orElse_none.mp hs
  exact orElse_none.mpr ⟨hc, modeFields_entry hf⟩

/-- In IDLE-LINK a MODE_SET may go to the mode that was left. -/
theorem checkMode_idleLink (hm : s.sys.mode = .idleLink) (hf : s.sys.from_ = .stop ∨ s.sys.from_ = .commission) (ht : s.sys.trans = none) :
    s.checkMode s.sys.from_ h = .go := by
  have hg : mayGo .idleLink s.sys.from_ s.sys.from_ = true := by simp [mayGo]
  have hi : s.sys.from_ ≠ .idleLink ∧ s.sys.from_ ≠ .hold := by rcases hf with e | e <;> rw [e] <;> decide
  simp [State.checkMode, ht, hm, hg, hi]

theorem modeEffect_idleLink (hm : s.sys.mode = .idleLink) : s.modeEffect dst o h = { s := s.leaveIdle o } := by
  unfold State.modeEffect
  rw [hm]

theorem idleExit_runs {g : Hcmd} (k : Offered (s.modeOp s.sys.from_ o) h s) (hg : g = { h with opcode := 0x06 }) (hm : s.sys.mode = .idleLink)
    (hf : s.sys.from_ = .stop ∨ s.sys.from_ = .commission) (ht : s.sys.trans = none) (hi : s.sys.primary = true → s.insync = false) :
    Runs (s.modeOp s.sys.from_ o) (modeEntry s.sys.from_ g) s := by
  subst hg
  have hend : ∀ x, ((s.modeOp s.sys.from_ o).effect (modeEntry s.sys.from_ { h with opcode := 0x06 }) { s with hif := x }).wait = false :=
    fun x => congrArg HRes.wait (modeEffect_idleLink (s := { s with hif := x }) hm)
  exact {
    taken := k.taken
    form := modeForm_entry k.form
    fresh := k.fresh
    role := k.role
    alone := fun hp _ => hi hp
    go := fun x => checkMode_idleLink (s := { s with hif := x }) hm hf ht
    plain := fun _ => rfl
    ends := hend }

/-- The exit takes its entry, leaves IDLE-LINK and completes with status 0. -/
theorem runMode_idleLink (k : Offered (s.modeOp s.sys.from_ o) h s) (hm : s.sys.mode = .idleLink)
    (hf : s.sys.from_ = .stop ∨ s.sys.from_ = .commission) (ht : s.sys.trans = none) (hi : s.sys.primary = true → s.insync = false) :
    ∃ x m j, Taken h.slot s x ∧ s.runMode s.sys.from_ o { h with opcode := 0x06 } =
      (State.leaveIdle o { s with hif := x }).settle (modeEntry s.sys.from_ { h with opcode := 0x06 }) 0 m j [] 0 0 := by
  obtain ⟨x, m, j, hx, e⟩ := runCmd_runs (idleExit_runs k rfl hm hf ht hi)
  refine ⟨x, m, j, hx, e.trans ?_⟩
  have he : (s.modeOp s.sys.from_ o).effect (modeEntry s.sys.from_ { h with opcode := 0x06 }) { s with hif := x } =
      { s := State.leaveIdle o { s with hif := x } } := modeEffect_idleLink (s := { s with hif := x }) hm
  rw [he]

/-- A command of the admin ring that is taken, carries the rings over and settles with status 0 is complete. -/
theorem settled_completes {x : Hif} {v : State} {g : Hcmd} {m : Bool} {j : DWord} (hx : Taken 0 s x) (k : Carries { s with hif := x } v)
    (hp : s.sys.preempted = []) (hs : h.slot = 0) (hq : g.cqeOk = true) (hn : (s.ring 0).cqHalt = false) (hg : g.slot = 0)
    (hid : g.reqId = h.reqId) : ∃ l, Completed h 0 l s (settleState s (v.settle g 0 m j [] 0 0)) := by
  have hr : v.ring 0 = x.rings.look 0 {} := congrArg (fun l : Tab Ring => l.look 0 {}) k.rings
  have hc : (v.ring g.slot).cqHalt = false := by rw [hg, hr]; exact hx.posts.trans hn
  obtain ⟨c, hcid, hst, hdup, hw⟩ := settle_posts (t := v) (st := 0) (m := m) (j := j) (r0 := 0) (r1 := 0) hq hc
  have hsys : (v.settle g 0 m j [] 0 0).sys = v.sys :=
    (settle_only (within rfl) OnlyChanges.refl : OnlyChanges [.hif, .tly, .outbox] v _).same .sys (by decide)
  have hf := hw.trans (settleState_serves (s := s) (by rw [hsys]; exact k.preempted.trans hp))
  rw [hg] at hf
  have hu : ∀ {f : Ring → Ring} {c : Out}, ((v.updRing 0 f).put c).ring 0 = f (v.ring 0) := fun {f c} => ring_updRing 0 f
  obtain ⟨l, hl, hmem⟩ := prefix_mem k.sent hf.sent
  refine ⟨l, ⟨c, hs ▸ hmem, hcid.trans hid, hst, hdup⟩, hl, ?_, ?_⟩
  · rw [hs, hf.head, hu, hr]
    exact hx.head
  · rw [hs]
    exact hf.idle (by rw [hu])

theorem idleExit_completes (k : Offered (s.modeOp s.sys.from_ (some obs)) h s) (hn : h.p6node = none) (hm : s.sys.mode = .idleLink)
    (hf : s.sys.from_ = .stop ∨ s.sys.from_ = .commission) (ht : s.sys.trans = none) (hi : s.sys.primary = true → s.insync = false) :
    ∃ t l, exec (.modeSetIdleExit h obs) s = .next t ∧ Completed h 0 l s t ∧ t.sys.from_ = .idleLink ∧ t.mm.rinsePaused = false ∧
    (obs.selfTest = true → s.boot.runs = true → t.sys.mode = s.sys.from_) ∧
    (obs.selfTest = false ∨ s.boot.runs = false →
      t.sys.mode = .faultHalt ∧ t.sys.haltCause = 4 ∧ t.saf.sel.set = true ∧ t.saf.sp.set = true) := by
  obtain ⟨x, m, j, hx, e⟩ := runMode_idleLink k hm hf ht hi
  have hs : h.slot = 0 := commonCheck_admin (orElse_none.mp k.form).1
  obtain ⟨l, hl⟩ := settled_completes (g := modeEntry s.sys.from_ { h with opcode := 0x06 }) (m := m) (j := j) (hs ▸ hx)
    (leaveIdle_carries (o := some obs)) (k.settled.served (canTake_alive k.taken)) hs k.answered (hs ▸ k.posts) hs rfl
  have hleft : LeftIdle (obs.selfTest && s.boot.runs) s (State.leaveIdle (some obs) { s with hif := x }) := by
    have q := leaveIdle_left (s := { s with hif := x }) (obs := obs)
    exact ⟨q.origin, q.paused, q.ends, q.fails⟩
  have hend := (hleft.settles (settle_only (within rfl) OnlyChanges.refl) : LeftIdle _ s ((State.leaveIdle (some obs) { s with hif := x }).settle
    (modeEntry s.sys.from_ { h with opcode := 0x06 }) 0 m j [] 0 0)).settle (u := s)
  refine ⟨_, l, ?_, hl, hend.origin.trans hm, hend.paused, fun h1 h2 => hend.ends (by rw [h1, h2]; rfl), fun h1 => hend.fails ?_⟩
  · have hx : exec (.modeSetIdleExit h obs) s = execModeSetIdleExit h obs s := rfl
    rw [hx]
    unfold execModeSetIdleExit
    split
    next n hp => cases hp.symm.trans hn
    next => exact congrArg (done s) ((if_pos hm).trans e)
  · rcases h1 with h1 | h1 <;> rw [h1]
    · exact Bool.false_and _
    · exact Bool.and_false _

end Sys2Proof.Proofs
end

section
/-! Requests on P6 (spec/10_io_network.md R292). -/

namespace Sys2Proof.Proofs

open Sys2Proof.Machine Sys2Proof.Safety Sys2Proof.Laws

variable {s t u : State} {f : Kcp} {h g : Hcmd} {n : BitVec 18} {st : BitVec 16} {b : List Byte}

/-- The request `g` of node `n` has been answered with `st` and the data `b`; nothing else is different. -/
structure Answered (n : BitVec 18) (g : Hcmd) (st : BitVec 16) (b : List Byte) (s t : State) : Prop where
  answer : ∃ c : Cqe, Out.p6 n (c.bytes ++ b) ∈ t.outbox ∧ c.status = st ∧ c.reqId = g.reqId
  frees : t.freeN = s.freeN + 1
  stays : OnlyChanges [.outbox, .freeN] s t

theorem p6Answer_answered : Answered n g st b s (s.p6Answer n g st b) where
  answer := by
    unfold State.p6Answer
    exact ⟨_, List.mem_append_right _ (List.mem_singleton_self _), rfl, rfl⟩
  frees := rfl
  stays := p6Answer_only (within rfl) OnlyChanges.refl

theorem report_id (hp : t.sys.primary = s.sys.primary) (hi : t.insync = s.insync) (hf : t.sysFault = s.sysFault) : report s t = t := by
  unfold report
  extract_lets t1 t2
  have h1 : t1 = t := if_pos hp.symm
  have h2 : t2 = t := by
    dsimp only [t2]
    rw [h1, if_pos hi.symm]
  rw [h2, if_pos hf.symm]

/-- On a settled state nothing follows an answer. -/
theorem done_answer (hs : Settled s) : done s (s.p6Answer n g st b) = .next (s.p6Answer n g st b) := by
  have ht : Settled (s.p6Answer n g st b) := 
    Settled.of hs (p6Answer_only (within rfl) OnlyChanges.refl : OnlyChanges [.outbox, .freeN] s _) (within rfl)
  have hr : report s (s.p6Answer n g st b) = s.p6Answer n g st b := report_id rfl rfl rfl
  unfold done
  rw [settleState_settled (s := s) ht rfl, hr]

theorem typed_fcsOk {k : BitVec 4} : (f.typed k).fcsOk = f.fcsOk := by
  unfold Kcp.typed
  split <;> rfl

/-- A MGMT frame that P6 takes is run as a request, or answered with LEN_ERR. -/
theorem exec_mgmt (hr : s.running = true) (hp : s.portUp 6 = true) (hf : f.fcsOk = true)
    (hh : s.headerOk { f.typed 9 with port := 6 } = true) : exec (.mgmt f h) s =
      done s (if (p6Entry f h).payload.length = (p6Entry f h).dlen.toNat then s.p6Run none f.src (p6Entry f h)
        else s.p6Answer f.src (p6Entry f h) St.lenErr []) := by
  have hn : ¬ (!s.headerOk { f.typed 9 with port := 6 }) = true := by
    rw [hh]
    decide
  refine (if_neg ?_ : execMgmt f h s = _).trans ((if_neg ?_).trans (if_neg hn))
  · rw [hr, hp]
    decide
  · rw [typed_fcsOk, hf]
    decide

end Sys2Proof.Proofs
end

section
/-! What P6 answers to each request. -/

namespace Sys2Proof.Proofs

open Sys2Proof.Machine Sys2Proof.Safety Sys2Proof.Laws

variable {s t u : State} {f : Kcp} {h g : Hcmd} {n : BitVec 18} {st : BitVec 16} {b : List Byte} {o : Option BootObs}

theorem p6Run_mode (h6 : g.opcode = 0x06) : s.p6Run o n g = (s.p6Mode o g).2.p6Answer n g (s.p6Mode o g).1 [] := by
  simp [State.p6Run, h6]

theorem p6Run_other (h1 : g.opcode ≠ 0x01) (hd : g.opcode ≠ 0x0D) (h6 : g.opcode ≠ 0x06) :
    s.p6Run o n g = s.p6Answer n g St.invalidOpcode [] := by
  simp only [State.p6Run, if_neg h1, if_neg hd, if_neg h6]

theorem p6Query_ok {op : HostOp} (hs : op.static { g with slot := 0, reqId := 1, sgl := false } = none) :
    s.p6Query op g = (St.ok, (op.effect g s).ret) := by
  unfold State.p6Query
  rw [hs]

theorem p6Run_identify (h1 : g.opcode = 0x01) (hs : opIdentify.static { g with slot := 0, reqId := 1, sgl := false } = none) :
    s.p6Run o n g = s.p6Answer n g St.ok s.identity := by
  simp only [State.p6Run, if_pos h1, p6Query_ok hs]
  rfl

theorem p6Run_quote (hd : g.opcode = 0x0D) (hs : opQuote.static { g with slot := 0, reqId := 1, sgl := false } = none) :
    s.p6Run o n g = s.p6Answer n g St.ok (s.quote g.payload) := by
  have h1 : g.opcode ≠ 0x01 := by rw [hd]; decide
  simp only [State.p6Run, if_neg h1, if_pos hd, p6Query_ok hs]
  rfl

theorem p6Mode_outside (hm : s.sys.mode ≠ .idleLink) : s.p6Mode o g = (St.invalidOpcode, s) := if_pos hm

theorem p6Mode_badToken (hm : s.sys.mode = .idleLink) (hd : g.dlen = 128) (hf : modeFields (targetMode g) g = true)
    (hr : p6Reserved g.payload = true) (ht : s.p6Token g = false) : s.p6Mode o g = (St.tokenErr, s.newNonce) := by
  simp [State.p6Mode, hm, hd, hf, hr, ht]

theorem p6Mode_goes (hm : s.sys.mode = .idleLink) (hd : g.dlen = 128) (hf : modeFields (targetMode g) g = true)
    (hr : p6Reserved g.payload = true) (ht : s.p6Token g = true) (hc : s.newNonce.checkMode (targetMode g) g = .go) :
    s.p6Mode o g = (St.ok, s.newNonce.leaveIdle o) := by
  simp [State.p6Mode, hm, hd, hf, hr, ht, hc]

theorem padTo_length {k : Nat} (hb : b.length ≤ k) : (padTo k b).length = k := by
  unfold padTo
  rw [List.length_append, List.length_replicate]
  omega

/-- The identity is 4096 bytes long and begins with the system identifier. -/
theorem identity_length : s.identity.length = 4096 := padTo_length (by
  simp only [List.length_append, length_le]
  decide)

theorem identity_begins : s.identity.take 4 = le 4 s.sysId.toNat := by
  unfold State.identity padTo
  simp only [List.append_assoc]
  exact List.take_left' (length_le ..)

theorem quote_begins {p : List Byte} : (s.quote p).take 2 = [0x02, 0x17] := by
  unfold State.quote State.quoteBody padTo
  simp only [List.append_assoc]
  exact List.take_left' rfl

/-- P6 answers on a settled state. -/
theorem mgmt_answered (hs : Settled s) (e : exec (.mgmt f h) s = done s (s.p6Answer n g st b)) :
    ∃ t c, exec (.mgmt f h) s = .next t ∧ Out.p6 n (Cqe.bytes c ++ b) ∈ t.outbox ∧ c.status = st ∧ c.reqId = g.reqId ∧
      t.freeN = s.freeN + 1 ∧ OnlyChanges [.outbox, .freeN] s t := by
  have ha : Answered n g st b s (s.p6Answer n g st b) := p6Answer_answered
  obtain ⟨c, hc, hst, hid⟩ := ha.answer
  exact ⟨_, c, e.trans (done_answer hs), hc, hst, hid, ha.frees, ha.stays⟩

theorem mgmt_refused (hs : Settled s) (e : exec (.mgmt f h) s = done s (s.p6Answer n g st [])) :
    ∃ t c, exec (.mgmt f h) s = .next t ∧ Out.p6 n (Cqe.bytes c) ∈ t.outbox ∧ c.status = st ∧ c.reqId = g.reqId ∧
      t.freeN = s.freeN + 1 ∧ OnlyChanges [.outbox, .freeN] s t := by
  obtain ⟨t, c, hx, hc, hk⟩ := mgmt_answered hs e
  exact ⟨t, c, hx, List.append_nil c.bytes ▸ hc, hk⟩

/-- A MODE_SET whose token does not pass leaves the system block. -/
theorem badToken_answered (hs : Settled s) : ∃ t c, done s (s.newNonce.p6Answer n g St.tokenErr []) = .next t ∧
    Out.p6 n (Cqe.bytes c) ∈ t.outbox ∧ c.status = St.tokenErr ∧ t.sys = s.sys := by
  obtain ⟨c, hc, hst, -⟩ := (p6Answer_answered (s := s.newNonce) (n := n) (g := g) (st := St.tokenErr) (b := [])).answer
  have hk : OnlyChanges [.tly, .freeN, .outbox] s (s.newNonce.p6Answer n g St.tokenErr []) :=
    p6Answer_only (within rfl) (newNonce_only (within rfl) OnlyChanges.refl)
  obtain ⟨t, ht, ho, -, -, hmem⟩ := done_of (qs := [.hif, .outbox, .tly, .freeN]) hs hk (within rfl) (within rfl)
  exact ⟨t, c, ht, hmem _ (List.append_nil c.bytes ▸ hc), hst, ho.same .sys (by decide)⟩

/-- A MODE_SET whose token passes leaves IDLE-LINK. -/
theorem token_leaves (hp : s.sys.preempted = []) : ∃ t c ok, done s ((s.newNonce.leaveIdle none).p6Answer n g St.ok []) = .next t ∧
    Out.p6 n (Cqe.bytes c) ∈ t.outbox ∧ c.status = St.ok ∧ LeftIdle ok s t := by
  obtain ⟨c, hc, hst, -⟩ := (p6Answer_answered (s := s.newNonce.leaveIdle none) (n := n) (g := g) (st := St.ok) (b := [])).answer
  obtain ⟨ok, hl⟩ := leaveIdle_none (s := s.newNonce)
  have hl : LeftIdle ok s (s.newNonce.leaveIdle none) := ⟨hl.origin, hl.paused, hl.ends, hl.fails⟩
  have ha : LeftIdle ok s ((s.newNonce.leaveIdle none).p6Answer n g St.ok []) :=
    hl.settles (p6Answer_only (within rfl) OnlyChanges.refl)
  have hq : (s.newNonce.leaveIdle none).sys.preempted = [] := leaveIdle_carries.preempted.trans hp
  have hv : Serves _ (settleState s ((s.newNonce.leaveIdle none).p6Answer n g St.ok [])) := settleState_serves hq
  exact ⟨_, c, ok, rfl, hv.sent.subset (List.append_nil c.bytes ▸ hc), hst, ha.settle⟩

end Sys2Proof.Proofs
end

section
/-! RESTART, the exit from IDLE-LINK and the requests on P6. -/

namespace Sys2Proof.Proofs

open Sys2Proof.Machine Sys2Proof.Safety Sys2Proof.Laws

variable {s : State} {f : Kcp} {h : Hcmd}

/-- A MGMT frame whose length fits is run as a request. -/
theorem exec_mgmt_run (hr : s.running = true) (hp : s.portUp 6 = true) (hf : f.fcsOk = true)
    (hh : s.headerOk { f.typed 9 with port := 6 } = true) (hl : (p6Entry f h).payload.length = (p6Entry f h).dlen.toNat) :
    exec (.mgmt f h) s = done s (s.p6Run none f.src (p6Entry f h)) := by
  rw [exec_mgmt hr hp hf hh, if_pos hl]

/-- In IDLE-LINK, a MODE_SET on P6 to the mode that was left. -/
theorem mgmt_idleExit (hs : Settled s) (hr : s.running = true) (e : exec (.mgmt f h) s = done s (s.p6Run none f.src (p6Entry f h)))
    (h6 : (p6Entry f h).opcode = 0x06) (hd : (p6Entry f h).dlen = 128) (hm : s.sys.mode = .idleLink) (ht : s.sys.trans = none)
    (hf : s.sys.from_ = .stop ∨ s.sys.from_ = .commission) (hg : targetMode (p6Entry f h) = s.sys.from_)
    (hq : modeFields s.sys.from_ (p6Entry f h) = true) (hv : p6Reserved (p6Entry f h).payload = true) :
    ∃ t c, exec (.mgmt f h) s = .next t ∧ Out.p6 f.src (Cqe.bytes c) ∈ t.outbox ∧
    (s.p6Token (p6Entry f h) = true → c.status = 0 ∧ t.sys.from_ = .idleLink ∧
      (t.sys.mode = s.sys.from_ ∨ (t.sys.mode = .faultHalt ∧ t.sys.haltCause = 4))) ∧
    (s.p6Token (p6Entry f h) = false → c.status = St.tokenErr ∧ t.sys = s.sys) := by
  rw [p6Run_mode h6] at e
  cases hk : s.p6Token (p6Entry f h) with
  | true =>
    have hc : s.newNonce.checkMode (targetMode (p6Entry f h)) (p6Entry f h) = .go := by
      rw [hg]
      exact checkMode_idleLink (s := s.newNonce) hm hf ht
    rw [p6Mode_goes hm hd (hg ▸ hq) hv hk hc] at e
    obtain ⟨t, c, ok, hx, hc, hst, hl⟩ := token_leaves (s := s) (n := f.src) (g := p6Entry f h) (hs.served hr)
    refine ⟨t, c, e.trans hx, hc, fun _ => ⟨hst, hl.origin.trans hm, ?_⟩, fun hk => absurd hk.symm Bool.false_ne_true⟩
    cases ok with
    | true => exact .inl (hl.ends rfl)
    | false =>
      obtain ⟨hm, hc, -⟩ := hl.fails rfl
      exact .inr ⟨hm, hc⟩
  | false =>
    rw [p6Mode_badToken hm hd (hg ▸ hq) hv hk] at e
    obtain ⟨t, c, hx, hc, hst, hsys⟩ := badToken_answered (n := f.src) (g := p6Entry f h) hs
    exact ⟨t, c, e.trans hx, hc, fun hk => absurd hk Bool.false_ne_true, fun _ => ⟨hst, hsys⟩⟩

/-- Settles O19: RESTART completes before its start, which carries the completion; the exit from IDLE-LINK carries the rings over, so
that its completion stands; and on a settled state nothing follows what P6 answers. -/
theorem restartAndTheExitFromIdleLink : Obligations.RestartAndTheExitFromIdleLink := by
  refine ⟨fun _ _ _ => restart_completes, fun _ _ _ => idleExit_completes, ?_, ?_, ?_, ?_, ?_, ?_⟩
  · intro s f h hs hr hp hf hh hl _ _ h6 hm
    have e := exec_mgmt_run hr hp hf hh hl
    rw [p6Run_mode h6, p6Mode_outside hm] at e
    exact mgmt_refused hs e
  · intro s f h hs hr hp hf hh hl h1 h6 hd
    exact mgmt_refused hs ((exec_mgmt_run hr hp hf hh hl).trans (congrArg (done s) (p6Run_other h1 hd h6)))
  · intro s f h hs hr hp hf hh hl
    exact mgmt_refused hs ((exec_mgmt hr hp hf hh).trans (congrArg (done s) (if_neg hl)))
  · intro s f h hs hr hp hf hh hl h1 hst
    obtain ⟨t, c, hx, hc, hok, -, hfree, hk⟩ :=
      mgmt_answered hs ((exec_mgmt_run hr hp hf hh hl).trans (congrArg (done s) (p6Run_identify h1 hst)))
    exact ⟨t, c, s.identity, hx, hc, hok, identity_length, identity_begins, hfree, hk⟩
  · intro s f h hs hr hp hf hh hl hd hst
    obtain ⟨t, c, hx, hc, hok, -, hfree, hk⟩ :=
      mgmt_answered hs ((exec_mgmt_run hr hp hf hh hl).trans (congrArg (done s) (p6Run_quote hd hst)))
    exact ⟨t, c, s.quote (p6Entry f h).payload, hx, hc, hok, quote_begins, hfree, hk⟩
  · intro s f h hs hr hp hf hh hl h6 hd hm ht _ hfrom hg hq hv
    exact mgmt_idleExit hs hr (exec_mgmt_run hr hp hf hh hl) h6 hd hm ht hfrom hg hq hv

end Sys2Proof.Proofs
end

section
/-! What follows a command on a state that stays settled: events, and nothing else. -/

namespace Sys2Proof.Proofs

open Sys2Proof.Machine Sys2Proof.Safety Sys2Proof.Laws

variable {s t u : State} {ps : List Part}

/-- A command has led from `s` to `u` by changing the parts `ps`; from there `t` differs by the events that report it. -/
structure Reported (ps : List Part) (s u t : State) : Prop where
  rest : OnlyChanges [.hif, .outbox] u t
  frame : OnlyChanges (.hif :: .outbox :: ps) s t
  events : EventsOnly s t

theorem Reported.sys (h : Reported ps s u t) : t.sys = u.sys := h.rest.same .sys (by decide)

theorem settleState_reported (hu : Settled u) (hm : u.sys.mode = s.sys.mode) (k : OnlyChanges ps s u) (hh : Part.hif ∉ ps) :
    Reported ps s u (settleState s u) := by
  have hif : u.hif = s.hif := k.same .hif hh
  rw [settleState_settled hu hm]
  have w : Within [.hif, .outbox] (.hif :: .outbox :: ps) := fun p hp => List.mem_append_left ps hp
  have kw : Within ps (.hif :: .outbox :: ps) := fun p hp => List.mem_append_right [Part.hif, Part.outbox] hp
  refine ⟨report_only (within rfl) OnlyChanges.refl, report_only w (OnlyChanges.mono k kw), ?_⟩
  · have he : EventsOnly u (report s u) := report_events
    unfold EventsOnly at *
    rw [he, hif]

/-- The parts on which being settled does not depend, and the system block, whose mode, role and abandoned commands count. -/
def calmSys : List Part := .sys :: calm

theorem settled_of_sys (h : Settled s) (k : OnlyChanges ps s u) (w : Within ps calmSys) (hm : u.sys.mode = s.sys.mode)
    (hp : u.sys.primary = s.sys.primary) (hq : u.sys.preempted = s.sys.preempted) : Settled u := by
  have k : OnlyChanges calmSys s u := OnlyChanges.mono k w
  have hd : u.pwr = s.pwr := k.same .pwr (by decide)
  exact Settled.step h hm hp hq (OnlyChanges.mono k (within rfl)) (by rw [hd])

/-- A command that changes calm parts of a settled state, and of the system block neither the mode, nor the role, nor the abandoned
mode commands. -/
theorem settleState_of_sys (h : Settled s) (k : OnlyChanges ps s u) (w : Within ps calmSys) (hm : u.sys.mode = s.sys.mode)
    (hp : u.sys.primary = s.sys.primary) (hq : u.sys.preempted = s.sys.preempted) (hh : Part.hif ∉ ps) :
    Reported ps s u (settleState s u) :=
  settleState_reported (settled_of_sys h k w hm hp hq) hm k hh

/-- A command that changes calm parts of a settled state. -/
theorem settleState_of_calm (h : Settled s) (k : OnlyChanges ps s u) (w : Within ps calm) (hh : Part.hif ∉ ps) :
    Reported ps s u (settleState s u) :=
  have hs : u.sys = s.sys := (OnlyChanges.mono k w).same .sys (by decide)
  settleState_reported (Settled.of h k w) (by rw [hs]) k hh

/-- An update of the system block. -/
theorem sys_frame (x : Sys) : OnlyChanges [.sys] s { s with sys := x } :=
  ⟨fun p hp => by cases p with
    | sys => exact absurd (by decide) hp
    | _ => rfl⟩

theorem settleState_id (h : Settled s) : settleState s s = s := by
  rw [settleState_settled h rfl]
  exact report_id rfl rfl rfl

end Sys2Proof.Proofs
end

section
/-! Writes that reach no register (spec/03_register_conventions.md R64 to R75): what each leaves. -/

namespace Sys2Proof.Proofs

open Sys2Proof.Machine Sys2Proof.Safety Sys2Proof.Laws

variable {s t u : State} {ini : Ini} {o off i : Nat} {v : Word} {be : BitVec 4} {r : RegRow}

/-! The bookkeeping of an access fault. -/

/-- What SYS_ACCADDR shows of a discarded write at `off` in BAR0 (Table 3.9). -/
def accWord (off : Nat) : Word := wordOf [(2, off / 4 % 2 ^ 22), (24, 0)]

theorem accAddr_eq : s.accAddr off false = { s with sys := { s.sys with accAddr := accWord off } } := rfl

theorem log_sys (code sev : Nat) (d : List Byte) : (s.log code sev d).sys = s.sys :=
  (log_only (within rfl) OnlyChanges.refl : OnlyChanges [.tly] s _).same .sys (by decide)

/-- Of the system block, the record of an access fault changes its own bookkeeping only (R75). -/
theorem faultRec_sys (c off : Nat) :
    (s.faultRec c off).sys = { s.sys with warned := (s.faultRec c off).sys.warned, further := (s.faultRec c off).sys.further } := by
  have h : ∃ w f, (s.faultRec c off).sys = { s.sys with warned := w, further := f } := by
    unfold State.faultRec
    exact iteInduction (motive := fun t : State => ∃ w f, t.sys = { s.sys with warned := w, further := f })
      (fun _ => ⟨_, _, log_sys ..⟩) fun _ => ⟨_, _, rfl⟩
  obtain ⟨w, f, e⟩ := h
  rw [e]

/-- A write that is discarded leaves `x` of the system block, but for the bookkeeping of the record, and the record. -/
structure Discarded (x : Sys) (s t : State) : Prop where
  sys : t.sys = { x with warned := t.sys.warned, further := t.sys.further }
  frame : OnlyChanges [.sys, .tly, .hif, .outbox] s t
  events : EventsOnly s t

theorem discarded_faultRec (h : Settled s) (x : Sys) (hm : x.mode = s.sys.mode) (hp : x.primary = s.sys.primary)
    (hq : x.preempted = s.sys.preempted) (c : Nat) :
    Discarded x s (settleState s (State.faultRec c off { s with sys := x })) := by
  have hx : OnlyChanges [.sys, .tly] s { s with sys := x } := OnlyChanges.mono (sys_frame x) (within rfl)
  have hs := faultRec_sys (s := { s with sys := x }) c off
  have k := settleState_of_sys h (faultRec_only (within rfl) hx) (within rfl) (by rw [hs]; exact hm) (by rw [hs]; exact hp)
    (by rw [hs]; exact hq) (by decide)
  refine ⟨?_, OnlyChanges.mono k.frame (within rfl), k.events⟩
  rw [k.sys]
  exact hs

theorem partialWr_eq : s.partialWr off false =
    State.faultRec 1 off { s with sys := { s.sys with partial_ := s.sys.partial_ + 1, accAddr := accWord off } } := rfl

theorem discarded_partialWr (h : Settled s) : Discarded { s.sys with partial_ := s.sys.partial_ + 1, accAddr := accWord off } s
    (settleState s (s.partialWr off false)) := by
  rw [partialWr_eq]
  exact discarded_faultRec h { s.sys with partial_ := s.sys.partial_ + 1, accAddr := accWord off } rfl rfl rfl 1

theorem unassignedWr_eq : s.unassignedWr off false =
    State.faultRec 2 off { s with sys := { s.sys with unassigned := s.sys.unassigned + 1, accAddr := accWord off } } := rfl

theorem discarded_unassignedWr (h : Settled s) : Discarded { s.sys with unassigned := s.sys.unassigned + 1, accAddr := accWord off } s
    (settleState s (s.unassignedWr off false)) := by
  rw [unassignedWr_eq]
  exact discarded_faultRec h { s.sys with unassigned := s.sys.unassigned + 1, accAddr := accWord off } rfl rfl rfl 2

theorem roWr_eq : s.roWr off =
    State.faultRec 3 off { s with sys := { s.sys with roWr := s.sys.roWr + 1, accAddr := accWord off } } := rfl

theorem discarded_roWr (h : Settled s) : Discarded { s.sys with roWr := s.sys.roWr + 1, accAddr := accWord off } s
    (settleState s (s.roWr off)) := by
  rw [roWr_eq]
  exact discarded_faultRec h { s.sys with roWr := s.sys.roWr + 1, accAddr := accWord off } rfl rfl rfl 3

/-! A write through BAR0 (R62, R64) and one to an aliased bit in BAR4 (R86). -/

theorem exec_registerWrite : exec (.registerWrite ini off v be) s = execRegisterWrite ini off v be s := rfl
theorem exec_bitAliasWrite : exec (.bitAliasWrite ini off v be) s = execBitAliasWrite ini off v be s := rfl

theorem registerWrite_outside (h : 2 ^ 24 ≤ off) : exec (.registerWrite ini off v be) s = .fault .outsideBar :=
  exec_registerWrite.trans (if_pos h)

theorem registerWrite_unaligned (h : off < 2 ^ 24) (ha : off % 4 ≠ 0) :
    exec (.registerWrite ini off v be) s = .fault .notWordAligned :=
  exec_registerWrite.trans ((if_neg (Nat.not_le.mpr h)).trans (if_pos ha))

theorem bitAliasWrite_outside (h : 2 ^ 25 ≤ off) : exec (.bitAliasWrite ini off v be) s = .fault .outsideBar :=
  exec_bitAliasWrite.trans (if_pos h)

theorem bitAliasWrite_unaligned (h : off < 2 ^ 25) (ha : off % 4 ≠ 0) :
    exec (.bitAliasWrite ini off v be) s = .fault .notWordAligned :=
  exec_bitAliasWrite.trans ((if_neg (Nat.not_le.mpr h)).trans (if_pos ha))

/-- A write at a whole word that arrives somewhere. -/
structure Arrives (off : Nat) (s : State) : Prop where
  inside : off < 2 ^ 24
  aligned : off % 4 = 0
  live : s.regLive off = true

theorem Arrives.registerWrite (h : Arrives off s) : exec (.registerWrite ini off v be) s =
    if be ≠ 15 then done s (s.partialWr off false) else done s (s.fullWrite ini off v) := by
  have hin : ¬ 0x1000000 ≤ off := Nat.not_le.mpr h.inside
  rw [exec_registerWrite, execRegisterWrite, if_neg hin, if_neg (not_not.mpr h.aligned), h.live]
  rfl

theorem Arrives.full (h : Arrives off s) : exec (.registerWrite ini off v 15) s = done s (s.fullWrite ini off v) :=
  h.registerWrite.trans (if_neg (not_not.mpr rfl))

/-- Bit `i` of the register at `o`, of the first MiB of BAR0, is aliased, and a write to it arrives somewhere. -/
structure AliasArrives (o i : Nat) (s : State) : Prop where
  inside : o < 2 ^ 20
  aligned : o % 4 = 0
  bit : i < 32
  live : s.regLive o = true

theorem AliasArrives.bitAliasWrite (h : AliasArrives o i s) : exec (.bitAliasWrite ini (o * 32 + 4 * i) v be) s =
    if be ≠ 15 then done s (s.partialWr o false) else done s (s.aliasWrite ini o i (v.getLsbD 0)) := by
  obtain ⟨hin, ha, hi, hl⟩ := h
  have htarget : (o * 32 + 4 * i) / 128 * 4 = o := by omega
  have hbit : (o * 32 + 4 * i) / 4 % 32 = i := by omega
  have hle : ¬ 0x2000000 ≤ o * 32 + 4 * i := by omega
  have hword : ¬ (o * 32 + 4 * i) % 4 ≠ 0 := by omega
  rw [exec_bitAliasWrite, execBitAliasWrite, if_neg hle, if_neg hword, htarget, hbit, hl]
  rfl

theorem AliasArrives.full (h : AliasArrives o i s) :
    exec (.bitAliasWrite ini (o * 32 + 4 * i) v 15) s = done s (s.aliasWrite ini o i (v.getLsbD 0)) :=
  h.bitAliasWrite.trans (if_neg (not_not.mpr rfl))

/-! The register that a write names. -/

theorem fullWrite_unassigned (hm : inMsix o = false) (hr : rowAt o = none) : s.fullWrite ini o v = s.unassignedWr o false := by
  simp [State.fullWrite, hm, hr]

theorem fullWrite_readOnly (hm : inMsix o = false) (hr : rowAt o = some r) (ha : r.acc = .ro) : s.fullWrite ini o v = s.roWr o := by
  simp [State.fullWrite, hm, hr, ha]

theorem aliasWrite_unassigned {b : Bool} (hm : inMsix o = false) (hr : rowAt o = none) :
    s.aliasWrite ini o i b = s.unassignedWr o false := by
  simp [State.aliasWrite, hm, hr]

theorem aliasWrite_readOnly {b : Bool} (hm : inMsix o = false) (hr : rowAt o = some r) (ha : r.acc = .ro ∨ r.mask.getLsbD i = false) :
    s.aliasWrite ini o i b = s.roWr o := by
  rcases ha with ha | ha <;> simp [State.aliasWrite, hm, hr, ha]

theorem aliasWrite_register {b : Bool} (hm : inMsix o = false) (hr : rowAt o = some r) (ha : r.acc ≠ .ro) (hi : r.mask.getLsbD i = true) :
    s.aliasWrite ini o i b = s.fullWrite ini o (withBit (s.aliasRead o) i b) := by
  simp [State.aliasWrite, hm, hr, ha, hi]

/-- Settles O5: which operation discards the write, and what that one leaves (`Discarded`). -/
theorem writesOutsideTheMapAreCounted : Obligations.WritesOutsideTheMapAreCounted := by
  refine ⟨fun _ _ _ _ _ => registerWrite_outside, fun _ _ _ _ _ => registerWrite_unaligned, fun _ _ _ _ _ => bitAliasWrite_outside,
    fun _ _ _ _ _ => bitAliasWrite_unaligned, ?_, ?_, ?_, ?_, ?_, ?_⟩
  · intro s ini off v be hs hin ha hl hbe
    obtain ⟨hsys, hk, he⟩ := discarded_partialWr (off := off) hs
    exact ⟨_, (Arrives.registerWrite ⟨hin, ha, hl⟩).trans (if_pos hbe), hsys, hk, he⟩
  · intro s ini off v hs hin ha hl hr hm
    obtain ⟨hsys, hk, he⟩ := discarded_unassignedWr (off := off) hs
    exact ⟨_, (Arrives.full ⟨hin, ha, hl⟩).trans (congrArg (done s) (fullWrite_unassigned hm hr)), hsys, hk, he⟩
  · intro s ini off v r hs hin ha hl hr hro hm
    obtain ⟨hsys, hk, he⟩ := discarded_roWr (off := off) hs
    exact ⟨_, (Arrives.full ⟨hin, ha, hl⟩).trans (congrArg (done s) (fullWrite_readOnly hm hr hro)), hsys, hk, he⟩
  · intro s ini o i v r hs hin ha hi hl hr hm hro
    obtain ⟨hsys, hk, he⟩ := discarded_roWr (off := o) hs
    exact ⟨_, (AliasArrives.full ⟨hin, ha, hi, hl⟩).trans (congrArg (done s) (aliasWrite_readOnly hm hr hro)), hsys, hk, he⟩
  · intro s ini o i v be hs hin ha hi hl hbe
    obtain ⟨hsys, hk, he⟩ := discarded_partialWr (off := o) hs
    exact ⟨_, (AliasArrives.bitAliasWrite ⟨hin, ha, hi, hl⟩).trans (if_pos hbe), hsys, hk, he⟩
  · intro s ini o i v hs hin ha hi hl hr hm
    obtain ⟨hsys, hk, he⟩ := discarded_unassignedWr (off := o) hs
    exact ⟨_, (AliasArrives.full ⟨hin, ha, hi, hl⟩).trans (congrArg (done s) (aliasWrite_unassigned hm hr)), hsys, hk, he⟩

end Sys2Proof.Proofs
end

section
/-! Writes that reach their register (spec/03_register_conventions.md R62, R67): what each access code does with the word. -/

namespace Sys2Proof.Proofs

open Sys2Proof.Machine Sys2Proof.Safety Sys2Proof.Laws

variable {s t u : State} {ini : Ini} {o off i j g b : Nat} {v w : Word} {r : RegRow} {m : Option Int}

/-! What a write does to a register of each access code. -/

/-- A register that only holds what is written to it: no command of its own takes the word. -/
structure PlainRegister (o : Nat) : Prop where
  inj : o ≠ Reg.memInjCtrl
  rdseq : o ≠ Reg.tlyRdseq
  hctl : o ≠ Reg.fioHartHctl
  mbox : o ≠ 0x0A0020

theorem writeReg_rw (ha : r.acc = .rw) (h : PlainRegister o) : s.writeReg o r v m = s.setReg o (v &&& r.mask) := by
  simp [State.writeReg, ha, State.writeNow, h.inj, h.rdseq, h.hctl, h.mbox]

theorem writeReg_rwp (ha : r.acc = .rwp) (hg : pressOf o = some g) : s.writeReg o r v m = s.stageAt o g (v &&& r.mask) := by
  simp [State.writeReg, ha, hg]

theorem writeReg_rwv (ha : r.acc = .rwv) : s.writeReg o r v m = s.setVote o (v &&& r.mask) := by simp [State.writeReg, ha]

theorem writeReg_press (ha : r.acc = .press) : s.writeReg o r v m = s.goAt o (v &&& r.mask) := by simp [State.writeReg, ha]

theorem stageAt_of_free (h : (s.pressAt g).pend = false) : s.stageAt o g v = s.setReg o v := by simp [State.stageAt, h]

theorem stageAt_of_pending (h : (s.pressAt g).pend = true) : s.stageAt o g v = (s.updPress g Press.lose).accAddr o false := by
  simp [State.stageAt, h]

/-! The register that a write names. -/

/-- The register `r` at `o` lies in no window, and the initiator may write it. -/
structure Writable (ini : Ini) (o : Nat) (r : RegRow) (s : State) : Prop where
  row : rowAt o = some r
  acc : r.acc ≠ .ro
  msix : inMsix o = false
  window : inWindow o = false
  may : s.mayWrite ini o r.acc = true

theorem Writable.of_acc {a : Acc} (ha : r.acc = a) (hro : a ≠ .ro) (hr : rowAt o = some r) (hm : inMsix o = false)
    (hw : inWindow o = false) (hi : s.mayWrite ini o a = true) : Writable ini o r s :=
  ⟨hr, ha ▸ hro, hm, hw, ha ▸ hi⟩

theorem Writable.direct (h : Writable ini o r s) (hp : postBase o = none) : s.fullWrite ini o v = s.writeReg o r v none := by
  simp [State.fullWrite, h.row, h.acc, h.msix, h.window, h.may, hp]

theorem Writable.posted (h : Writable ini o r s) (hp : postBase o = some b) : s.fullWrite ini o v = s.postTo b o v none := by
  simp [State.fullWrite, h.row, h.acc, h.msix, h.window, h.may, hp]

theorem not_can_of_postBase (h : postBase o = none) : o / 0x10000 ≠ 8 := by
  intro hc
  unfold postBase at h
  split at h
  next ho =>
    subst ho
    omega
  next => simp [hc] at h

theorem PlainRegister.of_postBase (h : postBase o = none) (hi : o ≠ Reg.memInjCtrl) (hm : o ≠ 0x0A0020) : PlainRegister o := by
  refine ⟨hi, ?_, ?_, hm⟩ <;> rintro rfl <;> exact absurd h (by decide)

/-! A register of no CAN channel leaves the state settled. -/

theorem canSet_setReg {c : Nat} (hc : o / 0x10000 ≠ 8) (hlt : c < 8) : (s.setReg o v).canSet c = s.canSet c := by
  have hne : canReg c 0x8 ≠ o := by
    unfold canReg
    omega
  unfold State.canSet State.canCfg
  rw [reg_setReg_ne v hne]

theorem settled_setReg (h : Settled s) (hc : o / 0x10000 ≠ 8) : Settled (s.setReg o v) where
  can := fun c off listen hlt hset hw => h.can c off listen hlt (canSet_setReg hc hlt ▸ hset) hw
  served := h.served

/-- One register takes the word, every other keeps its own, and nothing else changes but the events. -/
structure TakesWord (o : Nat) (v : Word) (s t : State) : Prop where
  reg : t.reg o = v
  others : ∀ p, p ≠ o → t.reg p = s.reg p
  frame : OnlyChanges [.regs, .hif, .outbox] s t
  events : EventsOnly s t

theorem reg_congr (h : t.regs = s.regs) (p : Nat) : t.reg p = s.reg p := by rw [State.reg, State.reg, h]

theorem takesWord_setReg (h : Settled s) (hp : postBase o = none) : TakesWord o v s (settleState s (s.setReg o v)) := by
  have k := settleState_reported (s := s) (settled_setReg (v := v) h (not_can_of_postBase hp)) rfl
    (setReg_only (within rfl) OnlyChanges.refl : OnlyChanges [.regs] s _) (by decide)
  have hr : (settleState s (s.setReg o v)).regs = (s.setReg o v).regs := k.rest.same .regs (by decide)
  refine ⟨?_, fun p hne => ?_, OnlyChanges.mono k.frame (within rfl), k.events⟩
  · rw [reg_congr hr, reg_setReg]
  · rw [reg_congr hr, reg_setReg_ne v hne]

/-! A press that is pending discards the write of its group (R82). -/

/-- The press control at `g` is `p`, every other one stays, and SYS_ACCADDR shows the discarded write at `o`. -/
structure LosesWord (o g : Nat) (p : Press) (s t : State) : Prop where
  press : t.pressAt g = p
  others : ∀ k, k ≠ g → t.pressAt k = s.pressAt k
  sys : t.sys = { s.sys with accAddr := accWord o }
  frame : OnlyChanges [.sys, .press, .hif, .outbox] s t
  events : EventsOnly s t

theorem pressAt_congr (h : t.press = s.press) (p : Nat) : t.pressAt p = s.pressAt p := by rw [State.pressAt, State.pressAt, h]

theorem losesWord_lose (h : Settled s) : LosesWord o g { s.pressAt g with lost := (s.pressAt g).lost + 1 } s
    (settleState s ((s.updPress g Press.lose).accAddr o false)) := by
  have k := settleState_of_sys h (accAddr_only (x0 := o) (x1 := false) (within rfl) (updPress_only (x0 := g) (x1 := Press.lose) (within rfl)
    (OnlyChanges.refl : OnlyChanges [.sys, .press] s s))) (within rfl) rfl rfl rfl (by decide)
  have hpress : (settleState s ((s.updPress g Press.lose).accAddr o false)).press = (s.updPress g Press.lose).press :=
    k.rest.same .press (by decide)
  refine ⟨?_, fun p hne => ?_, k.sys, OnlyChanges.mono k.frame (within rfl), k.events⟩
  · rw [pressAt_congr hpress, pressAt_updPress]
    rfl
  · rw [pressAt_congr hpress, pressAt_updPress_ne _ hne]

/-! A voted field takes the word in its three copies (R76). -/

theorem vote_congr (h : t.votes = s.votes) (p : Nat) : t.vote p = s.vote p := by rw [State.vote, State.vote, h]

theorem settleState_setVote (h : Settled s) : Reported [.votes] s (s.setVote o v) (settleState s (s.setVote o v)) :=
  settleState_of_calm h (setVote_only (within rfl) OnlyChanges.refl) (within rfl) (by decide)

/-! A write to an aliased bit writes one bit (R86, R87). -/

theorem aliasRead_rw (hr : rowAt o = some r) (ha : r.acc = .rw) (hm : inMsix o = false) (hw : inWindow o = false)
    (h : PlainRegister o) : s.aliasRead o = s.reg o := by
  simp [State.aliasRead, hr, ha, hm, hw, h.mbox, h.inj]

theorem getLsbD_withBit_self {x : Bool} (hi : i < 32) : (withBit w i x).getLsbD i = x := by
  cases x <;> simp [withBit, hi]

theorem getLsbD_withBit_ne {x : Bool} (h : j ≠ i) : (withBit w i x).getLsbD j = w.getLsbD j := by
  have hbit : (1#32 <<< i).getLsbD j = false := by
    rw [BitVec.getLsbD_shiftLeft, BitVec.getLsbD_one]
    simp
    omega
  unfold withBit
  cases x with
  | true => rw [if_pos rfl, BitVec.getLsbD_or, hbit, Bool.or_false]
  | false =>
    rw [if_neg Bool.false_ne_true, BitVec.getLsbD_and, BitVec.getLsbD_not, hbit]
    simpa using BitVec.lt_of_getLsbD

/-- Settles O6: the word that each access code takes, where it takes it, and what a write to an aliased bit writes of it. -/
theorem registerCopiesTakeMaskedWrites : Obligations.RegisterCopiesTakeMaskedWrites := by
  refine ⟨?_, ?_, ?_, ?_, ?_⟩
  · intro s ini off v r hs hin hal hl hr ha hm hw hi hp hinj hmb
    have hx := (Writable.of_acc ha (by decide) hr hm hw hi).direct (v := v) hp
    rw [writeReg_rw ha (.of_postBase hp hinj hmb)] at hx
    obtain ⟨hreg, hother, hk, he⟩ := takesWord_setReg (v := v &&& r.mask) hs hp
    exact ⟨_, (Arrives.full ⟨hin, hal, hl⟩).trans (congrArg (done s) hx), hreg, hother, hk, he⟩
  · intro s ini off g v r hs hin hal hl hr ha hg hm hw hi hp hfree
    have hx := (Writable.of_acc ha (by decide) hr hm hw hi).direct (v := v) hp
    rw [writeReg_rwp ha hg, stageAt_of_free hfree] at hx
    obtain ⟨hreg, hother, hk, he⟩ := takesWord_setReg (v := v &&& r.mask) hs hp
    exact ⟨_, (Arrives.full ⟨hin, hal, hl⟩).trans (congrArg (done s) hx), hreg, hother, hk, he⟩
  · intro s ini off g v r hs hin hal hl hr ha hg hm hw hi hp hpend
    have hx := (Writable.of_acc ha (by decide) hr hm hw hi).direct (v := v) hp
    rw [writeReg_rwp ha hg, stageAt_of_pending hpend] at hx
    obtain ⟨hlost, hother, hsys, hk, he⟩ := losesWord_lose (o := off) (g := g) hs
    exact ⟨_, (Arrives.full ⟨hin, hal, hl⟩).trans (congrArg (done s) hx), hlost, hother, hsys, hk, he⟩
  · intro s ini off v r hs hin hal hl hr ha hm hw hi hp
    have hx := (Writable.of_acc ha (by decide) hr hm hw hi).direct (v := v) hp
    rw [writeReg_rwv ha] at hx
    have k := settleState_setVote (o := off) (v := v &&& r.mask) hs
    have hv := vote_congr (k.rest.same .votes (by decide))
    refine ⟨_, (Arrives.full ⟨hin, hal, hl⟩).trans (congrArg (done s) hx), (hv off).trans (vote_setVote ..), fun p hne => ?_,
      OnlyChanges.mono k.frame (within rfl), k.events⟩
    exact (hv p).trans (vote_setVote_ne _ hne)
  · intro s ini o i v r hs hin hal hi hl hr ha hbit hm hw hmay hp hinj hmb
    have hplain : PlainRegister o := .of_postBase hp hinj hmb
    have hx := (Writable.of_acc ha (by decide) hr hm hw hmay).direct (v := withBit (s.reg o) i (v.getLsbD 0)) hp
    rw [writeReg_rw ha hplain, ← aliasRead_rw (s := s) hr ha hm hw hplain,
      ← aliasWrite_register hm hr (by rw [ha]; decide) hbit] at hx
    obtain ⟨hreg, hother, hk, he⟩ := takesWord_setReg (v := withBit (s.aliasRead o) i (v.getLsbD 0) &&& r.mask) hs hp
    refine ⟨_, (AliasArrives.full ⟨hin, hal, hi, hl⟩).trans (congrArg (done s) hx), ?_, fun j hj hmask => ?_, hother, hk, he⟩
    · rw [hreg, BitVec.getLsbD_and, getLsbD_withBit_self hi, hbit, Bool.and_true]
    · rw [hreg, BitVec.getLsbD_and, getLsbD_withBit_ne hj, hmask, Bool.and_true, aliasRead_rw hr ha hm hw hplain]

end Sys2Proof.Proofs
end

section
/-! Posted writes (O7, spec/03_register_conventions.md R70 to R72): what a block holds while a write waits in it, and after it. -/

namespace Sys2Proof.Proofs

open Sys2Proof.Machine Sys2Proof.Safety Sys2Proof.Laws

variable {s t u : State} {o b : Nat} {v : Word} {r : RegRow} {m : Option Int} {p : Post} {x : Posted}

/-! What follows a command that keeps the mode and leaves no abandoned mode command. -/

theorem settleState_of_mode (hm : u.sys.mode = s.sys.mode) (hq : u.sys.preempted = []) : settleState s u = report s u.canSync := by
  have hc : u.canSync.sys = u.sys := canSync_frame.same .sys (by decide)
  have hm : u.canSync.sys.mode = s.sys.mode := by rw [hc, hm]
  have hq : u.canSync.sys.preempted = [] := by rw [hc, hq]
  unfold settleState
  dsimp only
  rw [fioFollow_id hm, completePreempted_id hq, readsFollow_id hm, ite_self]

/-- The CAN channels follow their registers, and events report what has changed. -/
theorem settleState_followed (hm : u.sys.mode = s.sys.mode) (hq : u.sys.preempted = []) :
    OnlyChanges [.can, .canq, .hif, .outbox] u (settleState s u) ∧ EventsOnly u (settleState s u) := by
  have hh : u.canSync.hif = u.hif := canSync_frame.same .hif (by decide)
  rw [settleState_of_mode hm hq]
  refine ⟨report_only (within rfl) (OnlyChanges.mono canSync_frame (within rfl)), ?_⟩
  have he : EventsOnly u.canSync (report s u.canSync) := report_events
  unfold EventsOnly at *
  rw [he, hh]

/-! The state of a block. -/

/-- The block at `b` holds `x`, and every other block what it held. -/
structure BlockHolds (b : Nat) (x : Posted) (s t : State) : Prop where
  block : t.posted.look b {} = x
  others : ∀ k, k ≠ b → t.posted.look k {} = s.posted.look k {}

theorem blockHolds_put (h : t.posted = s.posted.put b x) : BlockHolds b x s t := by
  refine ⟨?_, fun k hk => ?_⟩
  · rw [h, look_put_self]
  · rw [h, look_put_ne hk]

/-- `s` with the write `p` waiting in the block at `b`. -/
def waitingIn (b : Nat) (p : Post) (s : State) : State :=
  { s with posted := s.posted.upd b {} fun x => { x with busy := some p } }

/-- `s` with no write waiting in the block at `b`. -/
def freed (b : Nat) (s : State) : State :=
  { s with posted := s.posted.upd b {} fun x => { x with busy := none, failed := false } }

/-- An update of the posted blocks. -/
theorem posted_frame (x : Tab Posted) : OnlyChanges [.posted] s { s with posted := x } :=
  ⟨fun q hq => by cases q with
    | posted => exact absurd (by decide) hq
    | _ => rfl⟩

theorem waitingIn_frame : OnlyChanges [.posted] s (waitingIn b p s) := posted_frame _

theorem freed_frame : OnlyChanges [.posted] s (freed b s) := posted_frame _

theorem freed_holds : BlockHolds b { s.posted.look b {} with busy := none, failed := false } s (freed b s) := blockHolds_put rfl

theorem postTo_of_free (h : (s.posted.look b {}).busy = none) : s.postTo b o v m = waitingIn b { off := o, val := v, mean := m } s :=
  if_neg (by rw [h]; exact Bool.false_ne_true)

theorem postTo_of_busy (h : (s.posted.look b {}).busy ≠ none) : s.postTo b o v m = s.lostWr b o :=
  if_pos (Option.isSome_iff_ne_none.mpr h)

/-- A write to a free block makes it BUSY. -/
theorem settleState_waitingIn (h : Settled s) : Reported [.posted] s (waitingIn b p s) (settleState s (waitingIn b p s)) :=
  settleState_of_calm h waitingIn_frame (within rfl) (by decide)

/-- A write to a busy block is counted in LOSTWR. -/
theorem settleState_lostWr (h : Settled s) : Reported [.sys, .tly, .posted] s (s.lostWr b o) (settleState s (s.lostWr b o)) := by
  have hsys : (s.lostWr b o).sys = _ := faultRec_sys 5 o
  exact settleState_of_sys h (lostWr_only (within rfl) OnlyChanges.refl) (within rfl) (by rw [hsys]; rfl) (by rw [hsys]; rfl)
    (by rw [hsys]; rfl) (by decide)

theorem lostWr_posted : (s.lostWr b o).posted = s.posted.upd b {} fun x => { x with lostwr := x.lostwr + 1 } :=
  (faultRec_only (within rfl) OnlyChanges.refl : OnlyChanges [.sys, .tly] _ (s.lostWr b o)).same .posted (by decide)

/-! POSTED_WRITE_DONE and POSTED_BLOCK_FAILED. -/

theorem exec_postedWriteDone : exec (.postedWriteDone b) s = execPostedWriteDone b s := rfl
theorem exec_postedBlockFailed : exec (.postedBlockFailed b) s = execPostedBlockFailed b s := rfl

theorem postedWriteDone_writes (hb : (s.posted.look b {}).busy = some p) (hr : rowAt p.off = some r) :
    exec (.postedWriteDone b) s = done s ((freed b s).writeReg p.off r p.val p.mean) := by
  simp only [exec_postedWriteDone, execPostedWriteDone, hb, hr]
  rfl

/-- The block at `b` is free again, and the register at `o` has taken the word that waited. -/
structure TakesEffect (b o : Nat) (v : Word) (s t : State) : Prop where
  block : BlockHolds b { s.posted.look b {} with busy := none, failed := false } s t
  reg : t.reg o = v
  others : ∀ k, k ≠ o → t.reg k = s.reg k
  frame : OnlyChanges [.regs, .posted, .can, .canq, .hif, .outbox] s t
  events : EventsOnly s t

theorem takesEffect_setReg (hq : s.sys.preempted = []) : TakesEffect b o v s (settleState s ((freed b s).setReg o v)) := by
  obtain ⟨hk, he⟩ := settleState_followed (s := s) (u := (freed b s).setReg o v) rfl hq
  have hu : OnlyChanges [.regs, .posted] s ((freed b s).setReg o v) :=
    setReg_only (within rfl) (OnlyChanges.mono freed_frame (within rfl))
  have hr := reg_congr (hk.same .regs (by decide))
  refine ⟨blockHolds_put (hk.same .posted (by decide)), (hr o).trans (reg_setReg ..), fun k hne => ?_,
    OnlyChanges.trans (OnlyChanges.mono hu (within rfl)) (OnlyChanges.mono hk (within rfl)), he⟩
  exact (hr k).trans (reg_setReg_ne v hne)

/-- `s` with the block at `b` marked failed, and the record of it (R72). -/
def blockFailed (b : Nat) (s : State) : State :=
  ({ s with posted := s.posted.put b { s.posted.look b {} with failed := true } }).log 0x0006 5 (le 4 b)

theorem postedBlockFailed_marks (hb : (s.posted.look b {}).busy ≠ none) (hf : (s.posted.look b {}).failed = false) :
    exec (.postedBlockFailed b) s = done s (blockFailed b s) := by
  have hi : (s.posted.look b {}).busy.isSome = true := Option.isSome_iff_ne_none.mpr hb
  exact exec_postedBlockFailed.trans (if_pos (by rw [hi, hf]; rfl))

theorem settleState_blockFailed (h : Settled s) :
    Reported [.posted, .tly] s (blockFailed b s) (settleState s (blockFailed b s)) := by
  exact settleState_of_calm h (log_only (within rfl) (OnlyChanges.mono (posted_frame _) (within rfl))) (within rfl) (by decide)

theorem blockFailed_posted : (blockFailed b s).posted = s.posted.put b { s.posted.look b {} with failed := true } :=
  (log_only (within rfl) OnlyChanges.refl : OnlyChanges [.tly] _ (blockFailed b s)).same .posted (by decide)

/-- Settles O7: a write waits in its block or is lost, takes effect when it is done, and a block that stays busy is marked. -/
theorem postedWritesWaitInTheirBlock : Obligations.PostedWritesWaitInTheirBlock := by
  refine ⟨?_, ?_, ?_, ?_⟩
  · intro s ini off b v r hs hin hal hl hr ha hm hw hi hb hfree
    have hx := (Writable.mk hr ha hm hw hi).posted (v := v) hb
    rw [postTo_of_free hfree] at hx
    have k := settleState_waitingIn (b := b) (p := { off := off, val := v }) hs
    have hp : BlockHolds b { s.posted.look b {} with busy := some { off := off, val := v } } s _ :=
      blockHolds_put (k.rest.same .posted (by decide))
    exact ⟨_, (Arrives.full ⟨hin, hal, hl⟩).trans (congrArg (done s) hx), hp.block, hp.others,
      OnlyChanges.mono k.frame (within rfl), k.events⟩
  · intro s ini off b v r hs hin hal hl hr ha hm hw hi hb hbusy
    have hx := (Writable.mk hr ha hm hw hi).posted (v := v) hb
    rw [postTo_of_busy hbusy] at hx
    have k := settleState_lostWr (b := b) (o := off) hs
    have hp : BlockHolds b { s.posted.look b {} with lostwr := (s.posted.look b {}).lostwr + 1 } s _ :=
      blockHolds_put ((k.rest.same .posted (by decide)).trans lostWr_posted)
    exact ⟨_, (Arrives.full ⟨hin, hal, hl⟩).trans (congrArg (done s) hx), hp.block, hp.others,
      OnlyChanges.mono k.frame (within rfl), k.events⟩
  · intro s b w r hq hb hr ha hinj hrd hctl hmb
    have hx := postedWriteDone_writes hb hr
    rw [writeReg_rw ha ⟨hinj, hrd, hctl, hmb⟩] at hx
    obtain ⟨hp, hreg, hother, hk, he⟩ := takesEffect_setReg (b := b) (o := w.off) (v := w.val &&& r.mask) hq
    exact ⟨_, hx, hreg, hother, hp.block, hp.others, hk, he⟩
  · intro s b hs hb hf
    have k := settleState_blockFailed (b := b) hs
    have hp : BlockHolds b { s.posted.look b {} with failed := true } s _ :=
      blockHolds_put ((k.rest.same .posted (by decide)).trans blockFailed_posted)
    exact ⟨_, postedBlockFailed_marks hb hf, hp.block, hp.others, OnlyChanges.mono k.frame (within rfl), k.events⟩

end Sys2Proof.Proofs
end

section
/-! The press (O8, spec/03_register_conventions.md R80 to R85): GO, and the safe boundary of a pending press. -/

namespace Sys2Proof.Proofs

open Sys2Proof.Machine Sys2Proof.Safety Sys2Proof.Laws

variable {s t u : State} {ini : Ini} {o off b k : Nat} {v : Word} {r : RegRow} {f g : Press → Press}

/-! GO of a press control (R81, R82). -/

theorem updPress_congr (h : f (s.pressAt o) = g (s.pressAt o)) : s.updPress o f = s.updPress o g := by
  have hp : s.press.upd o {} f = s.press.upd o {} g := congrArg (s.press.put o) h
  rw [State.updPress, hp]
  rfl

theorem goAt_of_free (hv : v.getLsbD 0 = true) (h : (s.pressAt o).pend = false) :
    s.goAt o v = s.updPress o fun p => { p with pend := true } := by
  have hgo : (s.pressAt o).go v = { s.pressAt o with pend := true } := by simp [Press.go, hv, h]
  unfold State.goAt
  rw [hv, h]
  exact updPress_congr hgo

theorem goAt_of_pending (hv : v.getLsbD 0 = true) (h : (s.pressAt o).pend = true) :
    s.goAt o v = (s.updPress o Press.lose).accAddr o false := by
  have hgo : (s.pressAt o).go v = (s.pressAt o).lose := by simp [Press.go, hv, h]
  unfold State.goAt
  rw [hv, h]
  exact congrArg (State.accAddr o false) (updPress_congr hgo)

theorem exec_pressGo : exec (.pressGo ini off) s = execPressGo ini off s := rfl

theorem pressGo_writes (hl : s.regLive off = true) (hr : rowAt off = some r) (ha : r.acc = .press) :
    exec (.pressGo ini off) s = done s (s.fullWrite ini off 1) := by
  simp [exec_pressGo, execPressGo, hl, hr, ha]

/-- Bit 0 of a press control is GO. -/
theorem goBit (hb : r.mask.getLsbD 0 = true) : (1#32 &&& r.mask).getLsbD 0 = true := by simp [hb]

theorem pressGo_direct (hl : s.regLive off = true) (h : Writable ini off r s) (ha : r.acc = .press) (hp : postBase off = none) :
    exec (.pressGo ini off) s = done s (s.goAt off (1#32 &&& r.mask)) := by
  rw [pressGo_writes hl h.row ha, h.direct hp, writeReg_press ha]
  rfl

/-- The press control at `o` is `p`, and every other one what it was. -/
structure PressHolds (o : Nat) (p : Press) (s t : State) : Prop where
  press : t.pressAt o = p
  others : ∀ k, k ≠ o → t.pressAt k = s.pressAt k

theorem pressHolds_upd (h : t.press = (s.updPress o f).press) : PressHolds o (f (s.pressAt o)) s t := by
  have hp := pressAt_congr h
  exact ⟨(hp o).trans (pressAt_updPress ..), fun k hk => (hp k).trans (pressAt_updPress_ne f hk)⟩

theorem settleState_updPress (h : Settled s) : Reported [.press] s (s.updPress o f) (settleState s (s.updPress o f)) :=
  settleState_of_calm h (updPress_only (within rfl) OnlyChanges.refl) (within rfl) (by decide)

/-! GO in a posted block: it acts when the posted write is done (R70). -/

/-- What GO makes of a press control. -/
def Press.requested (p : Press) : Press := if p.pend = true then { p with lost := p.lost + 1 } else { p with pend := true }

theorem goAt_press (hv : v.getLsbD 0 = true) : PressHolds o (Press.requested (s.pressAt o)) s (s.goAt o v) := by
  cases hp : (s.pressAt o).pend with
  | false =>
    have hreq : Press.requested (s.pressAt o) = { s.pressAt o with pend := true } := if_neg (by rw [hp]; exact Bool.false_ne_true)
    rw [goAt_of_free hv hp, hreq]
    exact pressHolds_upd (f := fun p => { p with pend := true }) rfl
  | true =>
    have hreq : Press.requested (s.pressAt o) = (s.pressAt o).lose := if_pos hp
    rw [goAt_of_pending hv hp, hreq]
    exact pressHolds_upd (t := (s.updPress o Press.lose).accAddr o false) (f := Press.lose) rfl

theorem goAt_sys : (s.goAt o v).sys = { s.sys with accAddr := (s.goAt o v).sys.accAddr } := by
  unfold State.goAt
  split <;> rfl

/-- A posted write of GO that is done, on a settled state. -/
theorem settleState_freed_goAt (h : Settled s) :
    Reported [.sys, .press, .posted] s ((freed b s).goAt o v) (settleState s ((freed b s).goAt o v)) := by
  have hsys : ((freed b s).goAt o v).sys = _ := goAt_sys
  exact settleState_of_sys h (goAt_only (within rfl) (OnlyChanges.mono freed_frame (within rfl))) (within rfl) (by rw [hsys]; rfl)
    (by rw [hsys]; rfl) (by rw [hsys]; rfl) (by decide)

theorem goAt_posted : (s.goAt o v).posted = s.posted :=
  (goAt_only (within rfl) OnlyChanges.refl : OnlyChanges [.sys, .press] s _).same .posted (by decide)

/-- POSTED_WRITE_DONE of a GO that waits in the block at `b`. -/
theorem postedGo_acts (h : Settled s) (hw : (s.posted.look b {}).busy = some { off := off, val := 1 }) (hr : rowAt off = some r)
    (ha : r.acc = .press) (hb : r.mask.getLsbD 0 = true) :
    ∃ u, exec (.postedWriteDone b) s = .next u ∧ (u.posted.look b {}).busy = none ∧
      PressHolds off (Press.requested (s.pressAt off)) s u ∧ OnlyChanges [.sys, .press, .posted, .hif, .outbox] s u := by
  have hx := postedWriteDone_writes hw hr
  rw [writeReg_press ha] at hx
  have k := settleState_freed_goAt (b := b) (o := off) (v := 1#32 &&& r.mask) h
  have hpost := (k.rest.same .posted (by decide)).trans goAt_posted
  have hgo : PressHolds off _ _ ((freed b s).goAt off (1#32 &&& r.mask)) := goAt_press (s := freed b s) (goBit hb)
  have hpress := pressAt_congr (k.rest.same .press (by decide))
  refine ⟨_, hx, ?_, ⟨(hpress off).trans hgo.press, fun p hp => (hpress p).trans (hgo.others p hp)⟩, OnlyChanges.mono k.frame (within rfl)⟩
  show ((settleState s ((freed b s).goAt off (1#32 &&& r.mask))).posted.look b {}).busy = none
  rw [hpost, freed_holds.block]

/-! The safe boundary (R81): the staging copies of the group go to the live ones together. -/

/-- `s` with the staging copies of the registers `l` in their live copies. -/
def copied (l : List Nat) (s : State) : State := l.foldl (fun (u : State) m => u.setLive m (u.reg m)) s

theorem copied_frame (l : List Nat) : OnlyChanges [.live] s (copied l s) :=
  OnlyChanges.foldl OnlyChanges.refl fun _ _ h => setLive_only (within rfl) h

theorem liveReg_copied (l : List Nat) (m : Nat) : (copied l s).liveReg m = if m ∈ l then s.reg m else s.liveReg m := by
  induction l generalizing s with
  | nil => rfl
  | cons a l ih =>
    have hstep : copied (a :: l) s = copied l (s.setLive a (s.reg a)) := rfl
    rw [hstep, ih]
    by_cases hm : m ∈ l
    · rw [if_pos hm, if_pos (List.mem_cons_of_mem a hm)]
      rfl
    · by_cases ha : m = a
      · subst ha
        rw [if_neg hm, liveReg_setLive, if_pos List.mem_cons_self]
      · rw [if_neg hm, liveReg_setLive_ne _ ha, if_neg (by simp [ha, hm])]

/-! What an applied press does beside the copy: no live copy changes. -/

theorem adminPressed_frame : OnlyChanges [.hif, .outbox] s s.adminPressed := by
  have hdel : OnlyChanges [.hif, .outbox] s (s.removeRing 0) := removeRing_only (within rfl) OnlyChanges.refl
  have hhif : ∀ {v : State} {x : Hif}, OnlyChanges [.hif, .outbox] s v → OnlyChanges [.hif, .outbox] s { v with hif := x } :=
    fun h => OnlyChanges.trans h ⟨fun p hp => by cases p with
      | hif => exact absurd (by decide) hp
      | _ => rfl⟩
  unfold State.adminPressed
  refine OnlyChanges.ite ?_ (hhif hdel)
  have hring : ∀ {f : Ring → Ring} {x : Hif}, OnlyChanges [.hif, .outbox] s
      { State.updRing 0 f (if s.hif.adminLive then s else s.removeRing 0) with hif := x } := fun {f x} =>
    hhif (updRing_only (within rfl) (OnlyChanges.ite OnlyChanges.refl hdel))
  exact OnlyChanges.ite hring (releaseHeld_only (within rfl) hring)

theorem afterPress_frame : OnlyChanges [.sys, .hif, .dpx2, .fio, .outbox] s (s.afterPress o) := by
  unfold State.afterPress
  refine OnlyChanges.ite (OnlyChanges.mono (sys_frame _) (within rfl)) (OnlyChanges.ite (OnlyChanges.mono adminPressed_frame (within rfl)) ?_)
  exact OnlyChanges.ite (psCount_only (within rfl) OnlyChanges.refl)
    (OnlyChanges.ite (updDio_only (within rfl) OnlyChanges.refl) OnlyChanges.refl)

theorem afterPress_sys : (s.afterPress o).sys = { s.sys with hlwFrom := (s.afterPress o).sys.hlwFrom, hostLost := (s.afterPress o).sys.hostLost } := by
  have hadmin : s.adminPressed.sys = s.sys := adminPressed_frame.same .sys (by decide)
  have hps : s.psCount.sys = s.sys := rfl
  unfold State.afterPress
  split
  · rfl
  split
  · rw [hadmin]
  split
  · rw [hps]
  split <;> rfl

theorem exec_pressApply : exec (.pressApply off) s = execPressApply off s := rfl

/-- A press that is pending reaches the safe boundary of its group. -/
theorem pressApply_takes (hl : s.regLive off = true) (hw : inWindow off = false) (hp : (s.pressAt off).pend = true)
    (hb : s.atBoundary off = true) : exec (.pressApply off) s = done s (s.takePress off) := by
  simp [exec_pressApply, execPressApply, hl, hw, hp, hb]

theorem takePress_of_ok (h : s.pressOk o = true) :
    s.takePress o = ((copied (groupOf o) s).afterPress o).updPress o fun p => p.endWith true := by
  simp [State.takePress, h, copied]

theorem takePress_of_bad (h : s.pressOk o = false) : s.takePress o = s.updPress o fun p => p.endWith false := by
  simp [State.takePress, h]

/-- The group of the press at `o` goes live together, and the press is over. -/
structure Pressed (o : Nat) (s t : State) : Prop where
  live : ∀ m, t.liveReg m = if m ∈ groupOf o then s.reg m else s.liveReg m
  press : PressHolds o { s.pressAt o with pend := false, refused := false } s t
  frame : OnlyChanges [.sys, .hif, .dpx2, .can, .canq, .fio, .live, .press, .outbox] s t

theorem pressed_takePress (hq : s.sys.preempted = []) (h : s.pressOk o = true) : Pressed o s (settleState s (s.takePress o)) := by
  rw [takePress_of_ok h]
  have hcopy : OnlyChanges [.live] s (copied (groupOf o) s) := copied_frame _
  have hafter : OnlyChanges [.sys, .hif, .dpx2, .fio, .outbox] (copied (groupOf o) s) ((copied (groupOf o) s).afterPress o) := afterPress_frame
  have hsys : (((copied (groupOf o) s).afterPress o).updPress o fun p => p.endWith true).sys = _ := afterPress_sys
  have hs0 : (copied (groupOf o) s).sys = s.sys := hcopy.same .sys (by decide)
  rw [hs0] at hsys
  obtain ⟨hk, -⟩ := settleState_followed (s := s) (u := ((copied (groupOf o) s).afterPress o).updPress o fun p => p.endWith true)
    (by rw [hsys]) (by rw [hsys]; exact hq)
  have hu : OnlyChanges [.sys, .hif, .dpx2, .fio, .live, .press, .outbox] s
      (((copied (groupOf o) s).afterPress o).updPress o fun p => p.endWith true) :=
    updPress_only (within rfl) (OnlyChanges.trans (OnlyChanges.mono hcopy (within rfl)) (OnlyChanges.mono hafter (within rfl)))
  have hpress : ((copied (groupOf o) s).afterPress o).press = s.press :=
    (hafter.same .press (by decide)).trans (hcopy.same .press (by decide))
  refine ⟨fun m => ?_, ?_, OnlyChanges.trans (OnlyChanges.mono hu (within rfl)) (OnlyChanges.mono hk (within rfl))⟩
  · have hlive := (hk.same .live (by decide)).trans (hafter.same .live (by decide))
    rw [← liveReg_copied, State.liveReg, hlive]
    rfl
  · refine pressHolds_upd (f := fun p => p.endWith true) ((hk.same .press (by decide)).trans ?_)
    rw [State.updPress, State.updPress, hpress]

/-- Settles O8: GO by the state of the press control, at once or when its posted write is done; the boundary by what the staging
copies are together. -/
theorem pressCopiesAWholeGroupOrNothing : Obligations.PressCopiesAWholeGroupOrNothing := by
  refine ⟨?_, ?_, ?_, ?_, ?_⟩
  · intro s ini off r hs hl hr ha hb hm hw hi hp hfree
    have hx := pressGo_direct hl (.of_acc ha (by decide) hr hm hw hi) ha hp
    rw [goAt_of_free (goBit hb) hfree] at hx
    have k := settleState_updPress (o := off) (f := fun p => { p with pend := true }) hs
    have hpress := pressHolds_upd (k.rest.same .press (by decide))
    exact ⟨_, hx, hpress.press, hpress.others, OnlyChanges.mono k.frame (within rfl), k.events⟩
  · intro s ini off r hs hl hr ha hb hm hw hi hp hpend
    have hx := pressGo_direct hl (.of_acc ha (by decide) hr hm hw hi) ha hp
    rw [goAt_of_pending (goBit hb) hpend] at hx
    obtain ⟨hlost, hother, hsys, hk, he⟩ := losesWord_lose (o := off) (g := off) hs
    exact ⟨_, hx, hlost, hother, hsys, hk, he⟩
  · intro s ini off b r hs hl hr ha hb hm hw hi hp hfree
    have hx := pressGo_writes (ini := ini) hl hr ha
    rw [(Writable.of_acc ha (by decide) hr hm hw hi).posted hp, postTo_of_free hfree] at hx
    have k := settleState_waitingIn (b := b) (p := { off := off, val := 1 }) hs
    have hblock : BlockHolds b { s.posted.look b {} with busy := some { off := off, val := 1 } } s _ :=
      blockHolds_put (k.rest.same .posted (by decide))
    have hts : OnlyChanges [.posted, .hif, .outbox] s _ := OnlyChanges.mono k.frame (within rfl)
    obtain ⟨u, hu, hfreed, hpress, huk⟩ := postedGo_acts (Settled.of hs hts (within rfl)) (congrArg Posted.busy hblock.block) hr ha hb
    have hsame := pressAt_congr (hts.same .press (by decide))
    rw [hsame off] at hpress
    exact ⟨_, hx, hblock.block, hts, k.events, u, hu, hfreed, hpress.press, fun p hne => (hpress.others p hne).trans (hsame p),
      OnlyChanges.trans (OnlyChanges.mono hts (within rfl)) huk⟩
  · intro s off hq hl hw hp hb hok
    obtain ⟨hlive, hpress, hk⟩ := pressed_takePress (o := off) hq hok
    exact ⟨_, pressApply_takes hl hw hp hb, fun m hm => (hlive m).trans (if_pos hm), fun m hm => (hlive m).trans (if_neg hm),
      hpress.press, hpress.others, hk⟩
  · intro s off hs hl hw hp hb hbad
    have hx := pressApply_takes hl hw hp hb
    rw [takePress_of_bad hbad] at hx
    have k := settleState_updPress (o := off) (f := fun p => p.endWith false) hs
    have hpress := pressHolds_upd (k.rest.same .press (by decide))
    exact ⟨_, hx, hpress.press, hpress.others, OnlyChanges.mono k.frame (within rfl), k.events⟩

end Sys2Proof.Proofs
end

section
/-! Vote sweeps (O9, spec/03_register_conventions.md R76, R77): what a sweep makes of the one field whose copies are not the same. -/

namespace Sys2Proof.Proofs

open Sys2Proof.Machine Sys2Proof.Safety Sys2Proof.Laws

variable {s t u : State} {o p k : Nat} {w : Word} {x : Vote}

/-! The three copies of a field. -/

theorem agree_iff : x.agree = true ↔ x.a = x.b ∧ x.b = x.c := by simp [Vote.agree]

theorem not_agree_of_not_majority (h : x.majority = false) : x.agree = false := by
  unfold Vote.majority at h
  unfold Vote.agree
  simp_all

/-- One upset copy of three that agree: the other two outvote it (R76). -/
theorem upset_outvoted (h : x.agree = true) (hk : k < 3) (hw : w ≠ x.a) (d : Word) :
    (x.upset k w).agree = false ∧ (x.upset k w).majority = true ∧ (x.upset k w).val d = x.a := by
  obtain ⟨hab, hbc⟩ := agree_iff.mp h
  have hwb : w ≠ x.b := hab ▸ hw
  have hwc : w ≠ x.c := hbc ▸ hwb
  match k with
  | 0 => simp [Vote.upset, Vote.agree, Vote.majority, Vote.val, hwc, hab, hbc]
  | 1 => simp [Vote.upset, Vote.agree, Vote.majority, Vote.val, hab.trans hbc, hwc.symm]
  | 2 => simp [Vote.upset, Vote.agree, Vote.majority, Vote.val, hab, hwb.symm]
  | n + 3 => omega

theorem upset_atDefault : (x.upset k w).atDefault = x.atDefault := by
  unfold Vote.upset
  split <;> rfl

/-! The vote of one field. -/

theorem voteOne_of_agree (h : (s.vote o).agree = true) : s.voteOne o = s := by simp [State.voteOne, h]

theorem voteOne_of_default (h : (s.vote o).atDefault = true) : s.voteOne o = s := by simp [State.voteOne, h]

/-- The field at `o` with the value `m` again in its three copies, counted and recorded (R76). -/
def corrected (o : Nat) (m : Word) (s : State) : State :=
  let t := (s.setVote o m).log 0x0003 3 (le 4 o ++ le 4 m.toNat)
  { t with sys := { t.sys with voteFix := t.sys.voteFix + 1 } }

theorem voteOne_of_majority (hd : (s.vote o).atDefault = false) (ha : (s.vote o).agree = false) (hm : (s.vote o).majority = true) :
    s.voteOne o = corrected o ((s.vote o).val (rstOf o)) s := by
  simp [State.voteOne, hd, ha, hm, corrected]

theorem corrected_frame (m : Word) : OnlyChanges [.sys, .votes, .tly] s (corrected o m s) :=
  OnlyChanges.trans (log_only (within rfl) (setVote_only (within rfl) OnlyChanges.refl)) (OnlyChanges.mono (sys_frame _) (within rfl))

theorem corrected_sys (m : Word) : (corrected o m s).sys = { s.sys with voteFix := s.sys.voteFix + 1 } := by
  have h : (State.log 0x0003 3 (le 4 o ++ le 4 m.toNat) (s.setVote o m)).sys = s.sys := log_sys ..
  unfold corrected
  dsimp only
  rw [h]

theorem corrected_votes (m : Word) : (corrected o m s).votes = (s.setVote o m).votes :=
  (log_only (within rfl) OnlyChanges.refl : OnlyChanges [.tly] (s.setVote o m) _).same .votes (by decide)

/-- The field at `o` at its safe default, counted and named (R77). -/
def heldAtDefault (o : Nat) (s : State) : State := { s with
  votes := s.votes.put o { s.vote o with atDefault := true }
  sys := { s.sys with voteFail := s.sys.voteFail + 1, voteAddr := BitVec.ofNat 32 o } }

/-- A field held at its safe default, with the record of it. -/
def defaulted (o : Nat) (s : State) : State := (heldAtDefault o s).log 0x0004 5 (le 4 o ++ le 4 (rstOf o).toNat)

theorem voteOne_of_none (hd : (s.vote o).atDefault = false) (hm : (s.vote o).majority = false) : s.voteOne o = defaulted o s := by
  simp [State.voteOne, hd, hm, not_agree_of_not_majority hm, defaulted, heldAtDefault]

theorem defaulted_frame : OnlyChanges [.sys, .votes, .tly] s (defaulted o s) := by
  have h : OnlyChanges [.sys, .votes, .tly] s (heldAtDefault o s) :=
    ⟨fun p hp => by cases p with
      | sys => exact absurd (by decide) hp
      | votes => exact absurd (by decide) hp
      | _ => rfl⟩
  exact log_only (within rfl) h

theorem defaulted_sys : (defaulted o s).sys = { s.sys with voteFail := s.sys.voteFail + 1, voteAddr := BitVec.ofNat 32 o } := log_sys ..

theorem defaulted_votes : (defaulted o s).votes = (heldAtDefault o s).votes :=
  (log_only (within rfl) OnlyChanges.refl : OnlyChanges [.tly] _ (defaulted o s)).same .votes (by decide)

theorem heldAtDefault_vote : ((heldAtDefault o s).vote o).atDefault = true := congrArg Vote.atDefault (look_put_self ..)

theorem heldAtDefault_vote_ne (h : p ≠ o) : (heldAtDefault o s).vote p = s.vote p := look_put_ne h

/-! The sweep over all fields. -/

theorem mem_keys_put {α : Type} {l : Tab α} {v : α} : o ∈ (l.put o v).keys := by
  induction l with
  | nil => exact List.mem_singleton.mpr rfl
  | cons e l ih =>
    obtain ⟨j, y⟩ := e
    unfold Tab.put
    split
    · exact List.mem_cons_self
    split
    · exact List.mem_cons_self
    · exact List.mem_cons_of_mem _ ih

theorem foldl_voteOne_id {l : List Nat} (h : ∀ p, s.voteOne p = s) : l.foldl (fun (u : State) p => u.voteOne p) s = s := by
  induction l with
  | nil => rfl
  | cons a l ih => rw [List.foldl_cons, h a, ih]

/-- A sweep votes the one field that needs it. -/
theorem foldl_voteOne_one {l : List Nat} (ho : o ∈ l) (hne : ∀ p, p ≠ o → s.voteOne p = s)
    (hfix : ∀ p, (s.voteOne o).voteOne p = s.voteOne o) : l.foldl (fun (u : State) p => u.voteOne p) s = s.voteOne o := by
  induction l with
  | nil => cases ho
  | cons a l ih =>
    rw [List.foldl_cons]
    by_cases ha : a = o
    · rw [ha, foldl_voteOne_id hfix]
    · rw [hne a ha, ih ((List.mem_cons.mp ho).resolve_left (Ne.symm ha))]

theorem exec_voteSweep {l : List (Nat × Nat × Word)} : exec (.voteSweep l) s = execVoteSweep l s := rfl

/-- `s` with copy `k` of the voted field at `o` upset. -/
def disturbed (o k : Nat) (w : Word) (s : State) : State := { s with votes := s.votes.put o ((s.vote o).upset k w) }

theorem voteSweep_upset (hr : s.reach = true) (ho : isVoted o = true) : exec (.voteSweep [(o, k, w)]) s =
    done s ((disturbed o k w s).votes.keys.foldl (fun (u : State) p => u.voteOne p) (disturbed o k w s)) := by
  simp [exec_voteSweep, execVoteSweep, hr, ho, disturbed]

theorem voteSweep_plain (hr : s.reach = true) :
    exec (.voteSweep []) s = done s (s.votes.keys.foldl (fun (u : State) p => u.voteOne p) s) := by
  simp [exec_voteSweep, execVoteSweep, hr]

theorem vote_disturbed : (disturbed o k w s).vote o = (s.vote o).upset k w := look_put_self ..

theorem vote_disturbed_ne (h : p ≠ o) : (disturbed o k w s).vote p = s.vote p := look_put_ne h

/-- A sweep that finds one upset copy gives every field its copies back. -/
theorem vote_corrected (h : (s.vote o).agree = true) (hd : (s.vote o).atDefault = false) (p : Nat) :
    (corrected o (s.vote o).a (disturbed o k w s)).vote p = s.vote p := by
  rw [vote_congr (corrected_votes _)]
  by_cases hp : p = o
  · obtain ⟨hab, hbc⟩ := agree_iff.mp h
    rw [hp, vote_setVote]
    cases hx : s.vote o
    simp_all
  · rw [vote_setVote_ne _ hp, vote_disturbed_ne hp]

theorem voteSweep_corrects (hr : s.reach = true) (ho : isVoted o = true) (hk : k < 3) (h : ∀ p, (s.vote p).agree = true)
    (hd : (s.vote o).atDefault = false) (hw : w ≠ (s.vote o).a) :
    exec (.voteSweep [(o, k, w)]) s = done s (corrected o (s.vote o).a (disturbed o k w s)) := by
  obtain ⟨hagree, hmaj, hval⟩ := upset_outvoted (h o) hk hw (rstOf o)
  have hone : (disturbed o k w s).voteOne o = corrected o (s.vote o).a (disturbed o k w s) := by
    rw [← vote_disturbed (w := w) (s := s)] at hagree hmaj hval
    rw [voteOne_of_majority (by rw [vote_disturbed, upset_atDefault, hd]) hagree hmaj, hval]
  have hkey : o ∈ (disturbed o k w s).votes.keys := mem_keys_put
  rw [voteSweep_upset hr ho, foldl_voteOne_one hkey, hone]
  · exact fun p hp => voteOne_of_agree (by rw [vote_disturbed_ne hp, h])
  · rw [hone]
    exact fun p => voteOne_of_agree (by rw [vote_corrected (h o) hd, h])

theorem disturbed_frame : OnlyChanges [.votes] s (disturbed o k w s) :=
  ⟨fun p hp => by cases p with
    | votes => exact absurd (by decide) hp
    | _ => rfl⟩

theorem settleState_corrected (h : Settled s) (m : Word) : Reported [.sys, .votes, .tly] s (corrected o m (disturbed o k w s))
    (settleState s (corrected o m (disturbed o k w s))) := by
  have hs := corrected_sys (s := disturbed o k w s) (o := o) m
  exact settleState_of_sys h (OnlyChanges.trans (OnlyChanges.mono disturbed_frame (within rfl)) (corrected_frame m)) (within rfl)
    (by rw [hs]; rfl) (by rw [hs]; rfl) (by rw [hs]; rfl) (by decide)

/-- A sweep that finds a field whose copies all differ holds it at its safe default. -/
theorem voteSweep_defaults (hr : s.reach = true) (ho : o ∈ s.votes.keys) (h : ∀ p, p ≠ o → (s.vote p).agree = true)
    (hd : (s.vote o).atDefault = false) (hm : (s.vote o).majority = false) : exec (.voteSweep []) s = done s (defaulted o s) := by
  have hv := vote_congr (defaulted_votes (s := s) (o := o))
  rw [voteSweep_plain hr, foldl_voteOne_one ho, voteOne_of_none hd hm]
  · exact fun p hp => voteOne_of_agree (h p hp)
  · rw [voteOne_of_none hd hm]
    intro p
    by_cases hp : p = o
    · exact voteOne_of_default (by rw [hp, hv, heldAtDefault_vote])
    · exact voteOne_of_agree (by rw [hv, heldAtDefault_vote_ne hp, h p hp])

theorem settleState_defaulted (h : Settled s) :
    Reported [.sys, .votes, .tly] s (defaulted o s) (settleState s (defaulted o s)) :=
  settleState_of_sys h defaulted_frame (within rfl) (by rw [defaulted_sys]) (by rw [defaulted_sys]) (by rw [defaulted_sys]) (by decide)

end Sys2Proof.Proofs
end

section
/-! Parity sweeps (O9, spec/03_register_conventions.md R78, Table 3.5): the safe state of each guarded group. -/

namespace Sys2Proof.Proofs

open Sys2Proof.Machine Sys2Proof.Safety Sys2Proof.Laws

variable {s t u : State} {o g : Nat}

theorem exec_paritySweep {l : List Nat} : exec (.paritySweep l) s = execParitySweep l s := rfl

/-- `s` with the guarded word at `o` changed, and none other. -/
def marred (o : Nat) (s : State) : State := { s with sys := { s.sys with parityBad := [o] } }

theorem paritySweep_one (hr : s.reach = true) (hg : parityGroup o = some g) (hb : s.sys.parityBad = []) :
    exec (.paritySweep [o]) s = done s ((marred o s).parityTrip o g) := by
  simp [exec_paritySweep, execParitySweep, hr, hg, hb, State.checkParity, marred]

theorem tripGroup_sys : (s.tripGroup o g).sys = { s.sys with parTrip := s.sys.parTrip ++ [g] } := log_sys ..

/-! The safety configuration and the Selvedge parameters. -/

theorem parityTrip_safety (hg : g = 1 ∨ g = 2) (h : g ∉ s.sys.parTrip) :
    ∃ bySp, s.parityTrip o g = (s.tripGroup o g).lockout 3 0 0 bySp false := by
  rcases hg with rfl | rfl
  · exact ⟨true, if_neg (by simpa using h)⟩
  · exact ⟨false, if_neg (by simpa using h)⟩

theorem lockout_tripped_sys {bySp : Bool} : (State.lockout 3 0 0 bySp false (s.tripGroup o g)).sys =
    { s.sys with parTrip := s.sys.parTrip ++ [g] } :=
  ((lockout_only (within rfl) OnlyChanges.refl : OnlyChanges [.saf, .tly, .outbox] _ _).same .sys (by decide)).trans tripGroup_sys

/-- The safety outputs open, and the parts that this changes. -/
theorem settleState_lockout_tripped {bySp : Bool} (h : Settled s) : Reported [.sys, .saf, .tly, .outbox] s
    (State.lockout 3 0 0 bySp false ((marred o s).tripGroup o g))
    (settleState s (State.lockout 3 0 0 bySp false ((marred o s).tripGroup o g))) := by
  have hs := lockout_tripped_sys (s := marred o s) (o := o) (g := g) (bySp := bySp)
  exact settleState_of_sys h (lockout_only (within rfl) (tripGroup_only (within rfl) (OnlyChanges.mono (sys_frame _) (within rfl))))
    (within rfl) (by rw [hs]; rfl) (by rw [hs]; rfl) (by rw [hs]; rfl) (by decide)

/-! The key store. -/

theorem parityTrip_keys (h : 3 ∉ s.sys.parTrip) : s.parityTrip o 3 =
    { s.tripGroup o 3 with boot := { (s.tripGroup o 3).boot with ks := { (s.tripGroup o 3).boot.ks with locked := true } } } :=
  have hnew : ¬ s.sys.parTrip.contains 3 = true := by simpa using h
  (if_neg hnew : s.parityTrip o 3 = s.keyTrip o).trans (if_neg hnew)

theorem tripGroup_boot : (s.tripGroup o g).boot = s.boot :=
  (tripGroup_only (within rfl) OnlyChanges.refl : OnlyChanges [.sys, .tly] s _).same .boot (by decide)

theorem parityTrip_frame : OnlyChanges [.sys, .tly, .boot] s (s.parityTrip o 3) :=
  OnlyChanges.ite OnlyChanges.refl (keyTrip_only (within rfl) OnlyChanges.refl)

/-! The role and the epoch. -/

/-- What the sweeps have found stays. -/
structure KeepsParity (s t : State) : Prop where
  trip : t.sys.parTrip = s.sys.parTrip
  bad : t.sys.parityBad = s.sys.parityBad

theorem KeepsParity.trans (h : KeepsParity s t) (k : KeepsParity t u) : KeepsParity s u :=
  ⟨k.trip.trans h.trip, k.bad.trans h.bad⟩

theorem KeepsParity.of_sys (h : t.sys = s.sys) : KeepsParity s t := ⟨by rw [h], by rw [h]⟩

theorem endInsync_keepsParity {c : Nat} : KeepsParity s (s.endInsync c) := by
  have hs : ∀ st r c, (s.setSync st r c).sys = s.sys := fun _ _ _ =>
    (setSync_only (within rfl) OnlyChanges.refl : OnlyChanges [.dpx, .tly] s _).same .sys (by decide)
  have h := KeepsParity.of_sys (hs s.afterLoss 0 c)
  unfold State.endInsync
  refine iteInduction (motive := KeepsParity s) (fun _ => ⟨rfl, rfl⟩) fun _ => ?_
  dsimp only
  split
  · exact h.trans ⟨rfl, rfl⟩
  · exact h.trans ⟨rfl, rfl⟩

theorem enterHalt_keepsParity {c : Nat} : KeepsParity s (s.enterHalt c) := by
  have hover : s.overrunRecs.sys = s.sys :=
    (overrunRecs_only (within rfl) OnlyChanges.refl : OnlyChanges [.tly] s _).same .sys (by decide)
  have hpre : KeepsParity s.overrunRecs s.overrunRecs.preempt := by
    unfold State.preempt
    split <;> exact ⟨rfl, rfl⟩
  have hclasses : s.overrunRecs.preempt.haltClasses.sys = s.overrunRecs.preempt.sys :=
    (haltClasses_only (within rfl) OnlyChanges.refl : OnlyChanges [.cyc, .lsp] _ _).same .sys (by decide)
  have hhalt : (s.enterHalt c).sys = _ :=
    ((lockout_only (within rfl) OnlyChanges.refl : OnlyChanges [.saf, .tly, .outbox] _ (s.enterHalt c)).same .sys (by decide)).trans
      (setMode_sys ..)
  refine (KeepsParity.of_sys hover).trans (hpre.trans ((KeepsParity.of_sys hclasses).trans ⟨?_, ?_⟩)) <;> rw [hhalt]

theorem unrecoverable_keepsParity {alone : Nat} (h : MayHalt s) : KeepsParity s (s.unrecoverable alone) := by
  rw [unrecoverable_eq h]
  have hn : (State.stopHeartbeats (s.notice 1 0 s.lastCommit 0)).sys = s.sys :=
    (stopHeartbeats_only (within rfl) (notice_only (within rfl) OnlyChanges.refl) : OnlyChanges [.dpx, .dpx2, .outbox] s _).same .sys
      (by decide)
  split
  · exact (KeepsParity.of_sys hn).trans (endInsync_keepsParity.trans enterHalt_keepsParity)
  · exact enterHalt_keepsParity

theorem settleState_keepsParity : KeepsParity t (settleState s t) := by
  constructor <;> rw [settleState_sys]

theorem MayHalt.of_tripped (h : MayHalt s) : MayHalt ((marred o s).tripGroup o g) ∧ ((marred o s).tripGroup o g).insync = s.insync := by
  have k : OnlyChanges [.sys, .tly] s ((marred o s).tripGroup o g) :=
    tripGroup_only (within rfl) (OnlyChanges.mono (sys_frame _) (within rfl))
  have hsys : ((marred o s).tripGroup o g).sys = { (marred o s).sys with parTrip := s.sys.parTrip ++ [g] } := tripGroup_sys
  have hin : ((marred o s).tripGroup o g).insync = s.insync := by rw [State.insync, State.insync, k.same .dpx (by decide)]
  refine ⟨⟨?_, ?_, ?_⟩, hin⟩
  · rw [State.running, State.powered, hsys, k.same .pwr (by decide)]
    exact h.running
  · rw [State.settling, hin, k.same .boot (by decide)]
    exact h.settled
  · rw [hsys]
    exact h.mode

theorem paritySweep_halts (hr : s.reach = true) (h : MayHalt s) (hg : parityGroup o = some 4) (hb : s.sys.parityBad = [])
    (ht : 4 ∉ s.sys.parTrip) : ∃ t, exec (.paritySweep [o]) s = .next t ∧ Halted (if s.insync then 7 else 5) t ∧
      KeepsParity ((marred o s).tripGroup o 4) t ∧ OnlyChanges faulting s t := by
  have hx := paritySweep_one hr hg hb
  have htrip : (marred o s).parityTrip o 4 = ((marred o s).tripGroup o 4).unrecoverable 5 :=
    if_neg (by simpa [marred] using ht)
  rw [htrip] at hx
  obtain ⟨hmay, hin⟩ := h.of_tripped (o := o) (g := 4)
  obtain ⟨hh, -, ho⟩ := unrecoverable_halts hmay 5
  rw [hin] at hh
  have k : OnlyChanges [.sys, .tly] s ((marred o s).tripGroup o 4) :=
    tripGroup_only (within rfl) (OnlyChanges.mono (sys_frame _) (within rfl))
  refine ⟨_, hx, hh.settle, (unrecoverable_keepsParity hmay).trans settleState_keepsParity, ?_⟩
  exact OnlyChanges.trans (OnlyChanges.mono k (within rfl))
    (OnlyChanges.trans (OnlyChanges.mono ho (within rfl)) (OnlyChanges.mono settleState_frame (within rfl)))

/-- Settles O9: the sweep votes the one field that needs it, and trips the one group whose word is bad. -/
theorem sweepsRestoreVotesAndTripParity : Obligations.SweepsRestoreVotesAndTripParity := by
  refine ⟨?_, ?_, ?_, ?_, ?_⟩
  · intro s o k w hs hr ho hk h hd hw
    have j := settleState_corrected (o := o) (k := k) (w := w) hs (s.vote o).a
    have hv := vote_congr (j.rest.same .votes (by decide))
    refine ⟨_, voteSweep_corrects hr ho hk h hd hw, fun p => (hv p).trans (vote_corrected (h o) hd p), ?_,
      OnlyChanges.mono j.frame (within rfl), j.events⟩
    exact j.sys.trans (corrected_sys _)
  · intro s o hs hr ho h hd hm _
    have j := settleState_defaulted (o := o) hs
    have hv := vote_congr ((j.rest.same .votes (by decide)).trans defaulted_votes)
    have hdef : ((settleState s (defaulted o s)).vote o).atDefault = true := by rw [hv, heldAtDefault_vote]
    exact ⟨_, voteSweep_defaults hr ho h hd hm, hdef, if_pos hdef, fun p hp => (hv p).trans (heldAtDefault_vote_ne hp), j.sys.trans defaulted_sys,
      OnlyChanges.mono j.frame (within rfl), j.events⟩
  · intro s o g hs hr hg hsafety hb ht
    have hx := paritySweep_one hr hg hb
    obtain ⟨bySp, htrip⟩ := parityTrip_safety (s := marred o s) (o := o) hsafety ht
    rw [htrip] at hx
    have j := settleState_lockout_tripped (o := o) (g := g) (bySp := bySp) hs
    have hl : LockedOut _ := (lockedOut_lockout 3 0 0 bySp false).congr (j.rest.same .saf (by decide))
    exact ⟨_, hx, j.sys.trans lockout_tripped_sys, hl.sel, hl.sp, hl.off, OnlyChanges.mono j.frame (within rfl), j.events⟩
  · intro s o hs hr hg hb ht
    have hx := paritySweep_one hr hg hb
    have hmarred : OnlyChanges [.sys, .tly, .boot] s (marred o s) := OnlyChanges.mono (sys_frame _) (within rfl)
    have k := OnlyChanges.trans hmarred (parityTrip_frame (s := marred o s) (o := o))
    have htrip := parityTrip_keys (s := marred o s) (o := o) ht
    have hsys : ((marred o s).parityTrip o 3).sys = { s.sys with parityBad := [o], parTrip := s.sys.parTrip ++ [3] } := by
      rw [htrip]
      exact tripGroup_sys
    have j := settleState_of_sys hs k (within rfl) (by rw [hsys]) (by rw [hsys]) (by rw [hsys]) (by decide)
    refine ⟨_, hx, j.sys.trans hsys, (j.rest.same .boot (by decide)).trans ?_, OnlyChanges.mono j.frame (within rfl), j.events⟩
    rw [htrip]
    dsimp only
    rw [tripGroup_boot]
    rfl
  · intro s o hr hrun hset hmode hg hb ht
    obtain ⟨t, hx, ⟨hm, hp, hc, hl⟩, hpar, hk⟩ := paritySweep_halts hr ⟨hrun, hset, hmode⟩ hg hb ht
    have htrip := tripGroup_sys (s := marred o s) (o := o) (g := 4)
    refine ⟨t, hx, hm, hp, hc, hpar.trip.trans ?_, hpar.bad.trans ?_, hl.off, hk⟩ <;> rw [htrip] <;> rfl

end Sys2Proof.Proofs
end

section
/-! A start leaves the restart key as it is (spec/03_register_conventions.md R92): what a restart changes of the system block. -/

namespace Sys2Proof.Proofs

open Sys2Proof.Machine Sys2Proof.Safety Sys2Proof.Laws

variable {s t u : State}

/-- The pending word of the restart key stays. -/
def KeepsKey (s t : State) : Prop := t.sys.restartKey = s.sys.restartKey

theorem KeepsKey.trans (h : KeepsKey s t) (k : KeepsKey t u) : KeepsKey s u := Eq.trans k h

theorem KeepsKey.of_frame {ps : List Part} (k : OnlyChanges ps s t) (d : Part.sys ∉ ps) : KeepsKey s t := by
  have hs : t.sys = s.sys := k.same .sys d
  rw [KeepsKey, hs]

theorem KeepsKey.ite {c : Prop} [Decidable c] (h : KeepsKey s t) (k : KeepsKey s u) : KeepsKey s (if c then t else u) := by
  split
  · exact h
  · exact k

theorem KeepsKey.foldl {α : Type} {f : State → α → State} {l : List α} (h : KeepsKey s t)
    (hf : ∀ u a, KeepsKey s u → KeepsKey s (f u a)) : KeepsKey s (l.foldl f t) := by
  induction l generalizing t with
  | nil => exact h
  | cons a l ih => exact ih (hf _ _ h)

/-! Boot step 2. -/

theorem keyTrip_keepsKey {o : Nat} : KeepsKey s (s.keyTrip o) := by
  have htrip : KeepsKey s (s.tripGroup o 3) := by rw [KeepsKey, tripGroup_sys]
  exact KeepsKey.ite rfl htrip

theorem mramDouble_keepsKey {e : MramErr} : KeepsKey s (s.mramDouble e) := by
  have hlog : ∀ {v : State} {f : Aio → Aio} {n : Nat} {b : List Byte},
      KeepsKey v (State.log 0x0908 3 b (v.updAio n f)) := fun {v f n b} =>
    .of_frame (ps := [.fio, .tly]) (log_only (within rfl) (updAio_only (within rfl) OnlyChanges.refl)) (by decide)
  unfold State.mramDouble
  cases e with
  | keyStore o => exact keyTrip_keepsKey (s := { s with mm := _ })
  | calib c => exact KeepsKey.ite (hlog (v := { s with mm := _ })) rfl
  | tally a n => rfl
  | journal n id => rfl
  | twin => rfl

theorem mramRead_keepsKey {n : Nat} {l : List MramErr} : KeepsKey s (s.mramRead n l) :=
  KeepsKey.foldl (t := { s with mm := _ }) rfl fun _ _ h => h.trans mramDouble_keepsKey

/-- Boot step 2 forgets the word: the system block takes its reset values. -/
theorem step2_restartKey {obs : BootObs} : (s.step2 false obs).sys.restartKey = none := by
  unfold State.step2
  extract_lets old k ms op sys hif tly boot ks ret k0 k1 k2 k3 k4
  have h0 : k0.sys.restartKey = none := rfl
  have h2 : KeepsKey k0 k2 := .of_frame (ps := [.tly]) (log_only (within rfl) OnlyChanges.refl) (by decide)
  have h3 : KeepsKey k0 k3 := h2.trans (mramRead_keepsKey.trans
    (.of_frame (ps := [.fio]) (factoryCheck_only (within rfl) OnlyChanges.refl) (by decide)))
  have h4 : KeepsKey k0 k4 := h3.ite (h3.trans keyTrip_keepsKey)
  have hread : KeepsKey k0 (State.newNonce (State.tamperRead k4)) := h4.trans (.of_frame (ps := [.tly, .ret, .freeN])
    (newNonce_only (within rfl) (tamperRead_only (within rfl) OnlyChanges.refl)) (by decide))
  exact Eq.trans hread h0

/-! The later steps. -/

theorem step5_keepsKey : KeepsKey s s.step5 := by
  have henrol : ∀ {v : State} {b : List Byte}, KeepsKey v (v.enrolOps b).loadProgram := fun {v b} =>
    .of_frame (ps := [.tly, .boot, .prog, .cyc]) (loadProgram_only (within rfl) (enrolOps_only (within rfl) OnlyChanges.refl)) (by decide)
  have hinstall : ∀ {v : State} {b : List Byte}, KeepsKey v (v.installProgram b) := fun {v b} =>
    .of_frame (ps := [.chg]) (installProgram_only (within rfl) OnlyChanges.refl) (by decide)
  unfold State.step5
  dsimp only
  split
  · refine KeepsKey.trans (KeepsKey.ite ?_ (KeepsKey.trans ?_ hinstall)) henrol <;> rfl
  · rfl

theorem setSync_keepsKey {st : SyncState} {r c : Nat} (h : KeepsKey s t) : KeepsKey s (t.setSync st r c) :=
  h.trans (.of_frame (ps := [.dpx, .tly]) (setSync_only (within rfl) OnlyChanges.refl) (by decide))

theorem step6_keepsKey : KeepsKey s s.step6 := by
  have hload : KeepsKey s (State.loadRegs s.cfg.regs { s with boot := { s.boot with step := 6 } }) :=
    KeepsKey.of_frame (s := { s with boot := { s.boot with step := 6 } }) (ps := [.regs, .live, .votes])
      (loadRegs_only (within rfl) OnlyChanges.refl) (by decide)
  have hsaf : ∀ {u : State} {f : Saf}, KeepsKey s u →
      KeepsKey s (State.numberCycles (State.measure (State.safStart { u with saf := f }))) := fun {u f} h =>
    KeepsKey.trans (t := { u with saf := f }) h (.of_frame (ps := [.saf, .tly, .outbox, .boot, .cyc])
      (numberCycles_only (within rfl) (measure_only (within rfl) (safStart_only (within rfl) OnlyChanges.refl))) (by decide))
  have hset : ∀ {u : State} {f : Fio} {a : Tim} {c : Cle} {l : Bool}, KeepsKey s u →
      KeepsKey s (State.bootHeld { u with fio := f, tim := a, cle := c, sys := { u.sys with lone := l } }) := fun {u f a c l} h =>
    KeepsKey.trans (t := { u with fio := f, tim := a, cle := c, sys := { u.sys with lone := l } }) h
      (.of_frame (ps := [.fio, .outbox]) (bootHeld_only (within rfl) OnlyChanges.refl) (by decide))
  exact KeepsKey.ite (hset (hsaf hload)) (setSync_keepsKey (hset (hsaf hload)))

theorem enterStart_keepsKey {m : Mode} {p : Bool} : KeepsKey s (s.enterStart m p) := by
  unfold State.enterStart
  extract_lets b t1 q y1 t2 t3 t4 y4 t5
  have h2 : KeepsKey s t2 := rfl
  have h3 : KeepsKey s t3 := KeepsKey.ite
    (h2.trans (.of_frame (ps := [.cyc, .cle, .net]) (runClasses_only (within rfl) OnlyChanges.refl) (by decide))) h2
  have hmode : t4.sys = _ := setMode_sys m 2
  have h4 : KeepsKey t3 t4 := by rw [KeepsKey, hmode]
  have h5 : KeepsKey s t5 := h3.trans h4
  exact KeepsKey.ite (setSync_keepsKey h5) h5

theorem takeEpoch_keepsKey : KeepsKey s s.takeEpoch :=
  .of_frame (ps := [.dpx, .dpx2]) (takeEpoch_only (within rfl) OnlyChanges.refl) (by decide)

theorem endBoot_keepsKey {m : Mode} {p : Bool} : KeepsKey s (s.endBoot m p) :=
  KeepsKey.trans (KeepsKey.ite takeEpoch_keepsKey rfl) enterStart_keepsKey

theorem replayOnce_keepsKey : KeepsKey s (s.replayOnce State.replay) :=
  .of_frame (ps := [.hif, .cyc, .cle, .tly, .boot])
    (replayOnce_only (within rfl) (fun _ h => replay_only (within rfl) h) OnlyChanges.refl) (by decide)

theorem ringStart_keepsKey {l : List Nat} : KeepsKey s (s.ringStart State.replay l) := by
  have hn : ∀ {x : Net}, KeepsKey s (State.newBlocks (State.takeEpoch { s with net := x })) := fun {x} =>
    KeepsKey.trans (t := State.takeEpoch { s with net := x }) (takeEpoch_keepsKey (s := { s with net := x }))
      (.of_frame (ps := [.net, .tly, .outbox]) (newBlocks_only (within rfl) OnlyChanges.refl) (by decide))
  exact KeepsKey.ite (hn.trans (replayOnce_keepsKey.trans enterStart_keepsKey)) hn

theorem testFailed_keepsKey : KeepsKey s s.testFailed :=
  KeepsKey.trans (t := State.endBoot .faultHalt false { s with sys := { s.sys with haltCause := 4 } })
    (endBoot_keepsKey (s := { s with sys := { s.sys with haltCause := 4 } }))
    (.of_frame (ps := [.saf, .tly, .outbox]) (lockout_only (within rfl) OnlyChanges.refl) (by decide))

theorem bootExit_keepsKey {f : Bool} {l : List Nat} : KeepsKey s (s.bootExit State.replay f l) := by
  have hend : ∀ {m : Mode} {p : Bool}, KeepsKey s ((s.replayOnce State.replay).endBoot m p) := replayOnce_keepsKey.trans endBoot_keepsKey
  exact ((KeepsKey.ite replayOnce_keepsKey rfl).trans endBoot_keepsKey).ite
    (testFailed_keepsKey.ite (hend.ite (KeepsKey.ite rfl (ringStart_keepsKey.ite hend))))

theorem bootFrom4_keepsKey {obs : BootObs} : KeepsKey s (s.bootFrom4 State.replay obs) := by
  have h4 : KeepsKey s (s.step4 obs) := .of_frame (ps := [.tly, .mm, .boot]) (step4_only (within rfl) OnlyChanges.refl) (by decide)
  have h6 : KeepsKey s (s.steps4to7 obs) := h4.trans (step5_keepsKey.trans step6_keepsKey)
  exact h6.trans bootExit_keepsKey

theorem restart_restartKey {obs : BootObs} : (s.restart obs).sys.restartKey = none := by
  have h2 : (s.step2 false obs).sys.restartKey = none := step2_restartKey
  have h3 : KeepsKey (s.step2 false obs) (s.step2 false obs).step3 := rfl
  have hall : KeepsKey (s.step2 false obs) (s.restart obs) := KeepsKey.ite rfl (KeepsKey.ite h3 (h3.trans bootFrom4_keepsKey))
  exact Eq.trans hall h2

theorem settleState_keepsKey : KeepsKey t (settleState s t) := by rw [KeepsKey, settleState_sys]

end Sys2Proof.Proofs
end

section
/-! Host liveness and the restart key (O10, spec/03_register_conventions.md R91, R92). -/

namespace Sys2Proof.Proofs

open Sys2Proof.Machine Sys2Proof.Safety Sys2Proof.Laws

variable {s t u : State} {v : Word} {obs : BootObs} {t0 : Nat}

/-! Host liveness. -/

theorem exec_sysHlwKick : exec (.sysHlwKick v) s = execSysHlwKick v s := rfl
theorem exec_hostLivenessExpiry : exec .hostLivenessExpiry s = execHostLivenessExpiry s := rfl

/-- `s` with the host-liveness time begun anew. -/
def kicked (s : State) : State := { s with sys := { s.sys with hlwFrom := s.sys.opNs, hostLost := false } }

theorem sysHlwKick_supervised (hr : s.reach = true) (h : (s.liveReg Reg.sysHlwMode).getLsbD 0 = true) :
    exec (.sysHlwKick v) s = done s (kicked s) := by
  rw [exec_sysHlwKick, execSysHlwKick, if_pos hr, State.kick, if_pos h]
  rfl

theorem sysHlwKick_unsupervised (hr : s.reach = true) (h : (s.liveReg Reg.sysHlwMode).getLsbD 0 = false) :
    exec (.sysHlwKick v) s = done s s := by
  rw [exec_sysHlwKick, execSysHlwKick, if_pos hr, State.kick, if_neg (by rw [h]; exact Bool.false_ne_true)]

/-- The record of a lost host, of SYS_HLW_TIME `w`. -/
def hostLostRec (w : Word) (s : State) : State := s.log 0x0007 3 (le 4 w.toNat)

/-- `s` with HOST_LOST set. -/
def hostGone (s : State) : State := { s with sys := { s.sys with hostLost := true } }

theorem hostLivenessExpiry_supervised (hr : s.reach = true) (h : (s.liveReg Reg.sysHlwMode).getLsbD 0 = true) (hl : s.sys.hostLost = false) :
    exec .hostLivenessExpiry s = done s (hostLostRec (s.liveReg Reg.sysHlwTime) (hostGone s)) :=
  exec_hostLivenessExpiry.trans (if_pos (by rw [hr, h, hl]; rfl))

theorem hostLivenessExpiry_unsupervised (h : (s.liveReg Reg.sysHlwMode).getLsbD 0 = false) : exec .hostLivenessExpiry s = .next s :=
  exec_hostLivenessExpiry.trans (if_neg (by rw [h, Bool.and_false, Bool.false_and]; exact Bool.false_ne_true))

/-! A record of the Tally does not depend on HOST_LOST. -/

theorem intoQueue_hostGone (r : TRec) : State.intoQueue r (hostGone s) = hostGone (s.intoQueue r) := by
  unfold State.intoQueue hostGone
  dsimp only
  split <;> rfl

theorem enqueue_hostGone (r : TRec) : State.enqueue r (hostGone s) = hostGone (s.enqueue r) := by
  unfold State.enqueue
  split
  · exact intoQueue_hostGone r
  · exact intoQueue_hostGone (s := { s with tly := { s.tly with drop := s.tly.drop + 1 } }) _

theorem log_hostGone (code sev : Nat) (d : List Byte) : State.log code sev d (hostGone s) = hostGone (s.log code sev d) := by
  unfold State.log
  by_cases h : sev < s.sevMin
  · rw [if_pos h]
    exact if_pos h
  · rw [if_neg h]
    exact (if_neg h).trans (enqueue_hostGone _)

/-! The restart key. -/

theorem exec_sysRestart : exec (.sysRestart v obs) s = execSysRestart v obs s := rfl

theorem sysRestart_reached (hr : s.reach = true) : exec (.sysRestart v obs) s = done s (s.restartWord v obs) :=
  exec_sysRestart.trans (if_pos hr)

/-- `s` with the key pending as `k` says. -/
def withKey (k : Option Nat) (s : State) : State := { s with sys := { s.sys with restartKey := k } }

theorem restartWord_refused (h : s.restartable = false) : s.restartWord v obs = (withKey none s).seqErr Reg.sysRestart := by
  rw [State.restartWord, h]
  rfl

theorem restartWord_taken {p : Option Nat} {full : Bool} (h : s.restartable = true)
    (hk : keyStep 0x0000A5C3 0x00003C5A v s.sys.opNs s.sys.restartKey = some (p, full)) :
    s.restartWord v obs = if full then (withKey p s).restart obs else withKey p s := by
  rw [State.restartWord, h, hk]
  rfl

theorem restartWord_outOfSequence (h : s.restartable = true)
    (hk : keyStep 0x0000A5C3 0x00003C5A v s.sys.opNs s.sys.restartKey = none) :
    s.restartWord v obs = (withKey none s).seqErr Reg.sysRestart := by
  rw [State.restartWord, h, hk]
  rfl

theorem restartWord_first (h : s.restartable = true) (hk : s.sys.restartKey = none) :
    s.restartWord 0x0000A5C3 obs = withKey (some s.sys.opNs) s :=
  restartWord_taken (full := false) h (by rw [hk]; rfl)

theorem restartWord_wrongFirst (h : s.restartable = true) (hk : s.sys.restartKey = none) (hv : v ≠ 0x0000A5C3) :
    s.restartWord v obs = (withKey none s).seqErr Reg.sysRestart :=
  restartWord_outOfSequence h (by rw [hk]; exact if_neg hv)

theorem restartWord_second (h : s.restartable = true) (hk : s.sys.restartKey = some t0) (ht : s.sys.opNs ≤ t0 + 1000000) :
    s.restartWord 0x00003C5A obs = (withKey none s).restart obs :=
  restartWord_taken (full := true) h (by rw [hk]; exact if_pos ⟨rfl, ht⟩)

theorem restartWord_wrongSecond (h : s.restartable = true) (hk : s.sys.restartKey = some t0)
    (hv : v ≠ 0x00003C5A ∨ t0 + 1000000 < s.sys.opNs) : s.restartWord v obs = (withKey none s).seqErr Reg.sysRestart :=
  restartWord_outOfSequence h (by rw [hk]; exact if_neg fun ⟨he, ht⟩ => hv.elim (· he) (Nat.not_lt.mpr ht))

/-- The system block after a word of the restart key that counts as a sequence error. -/
def wrongWord (s : State) : Sys := { s.sys with seqErr := s.sys.seqErr + 1, restartKey := none, accAddr := 0x000044 }

theorem withKey_seqErr : (withKey none s).seqErr Reg.sysRestart = State.faultRec 4 Reg.sysRestart { s with sys := wrongWord s } := rfl

/-- A word that counts in SEQ. -/
theorem sysRestart_wrong (h : Settled s) (hr : s.reach = true) (he : s.restartWord v obs = (withKey none s).seqErr Reg.sysRestart) :
    ∃ t, exec (.sysRestart v obs) s = .next t ∧
    t.sys = { s.sys with seqErr := s.sys.seqErr + 1, restartKey := none, accAddr := 0x000044, warned := t.sys.warned
                         further := t.sys.further } ∧
    OnlyChanges [.sys, .tly, .hif, .outbox] s t ∧ EventsOnly s t := by
  obtain ⟨hsys, hk, hev⟩ := discarded_faultRec (off := Reg.sysRestart) h (wrongWord s) rfl rfl rfl 4
  exact ⟨_, (sysRestart_reached hr).trans (congrArg (done s) (he.trans withKey_seqErr)), hsys, hk, hev⟩

/-- A restart forgets the key, and what follows it keeps what `Restarted` says. -/
theorem sysRestart_complete (hr : s.reach = true) (h : s.restartable = true) (hk : s.sys.restartKey = some t0)
    (ht : s.sys.opNs ≤ t0 + 1000000) : ∃ t, exec (.sysRestart 0x00003C5A obs) s = .next t ∧ t.hif.crs = false ∧
    t.sys.pwrcyc = s.sys.pwrcyc ∧ t.sys.restartKey = none ∧ t = settleState s ((withKey none s).restart obs) := by
  have hb : Restarted (withKey none s) ((withKey none s).restart obs) := bootFrom2_restarted
  have hall := hb.carries (settleState_carries (s := s) hb.preempted hb.rings)
  have hkey := Eq.trans (settleState_keepsKey (s := s)) (restart_restartKey (s := withKey none s) (obs := obs))
  exact ⟨_, (sysRestart_reached hr).trans (congrArg (done s) (restartWord_second h hk ht)), hall.crs, hall.pwrcyc, hkey, rfl⟩

/-- Settles O10: a kick and the expiry by the bit that supervises them, a word of the key by what `keyStep` finds. -/
theorem hostLivenessAndTheRestartKey : Obligations.HostLivenessAndTheRestartKey := by
  refine ⟨?_, ?_, ?_, fun s hr => hostLivenessExpiry_unsupervised, ?_, ?_, fun s obs t0 => sysRestart_complete, ?_, ?_⟩
  · intro s v hs hr hm
    have k := settleState_of_sys hs (sys_frame (s := s) { s.sys with hlwFrom := s.sys.opNs, hostLost := false }) (within rfl)
      rfl rfl rfl (by decide)
    exact ⟨_, sysHlwKick_supervised hr hm, k.sys, OnlyChanges.mono k.frame (within rfl), k.events⟩
  · intro s v hs hr hm
    exact (sysHlwKick_unsupervised hr hm).trans (congrArg Host.Outcome.next (settleState_id hs))
  · intro s hs hr hm hl
    have hx : OnlyChanges [.sys, .tly] s (hostGone s) := OnlyChanges.mono (sys_frame (s := s) { s.sys with hostLost := true }) (within rfl)
    have hlog := log_sys (s := hostGone s) 0x0007 3 (le 4 (s.liveReg Reg.sysHlwTime).toNat)
    have k := settleState_of_sys hs (log_only (within rfl) hx) (within rfl) (by rw [hlog]; rfl) (by rw [hlog]; rfl)
      (by rw [hlog]; rfl) (by decide)
    refine ⟨_, hostLivenessExpiry_supervised hr hm hl, k.sys.trans hlog, (k.rest.same .tly (by decide)).trans ?_,
      OnlyChanges.mono k.frame (within rfl), k.events⟩
    rw [log_hostGone]
    rfl
  · intro s obs hs hr h hk
    have k := settleState_of_sys hs (sys_frame (s := s) { s.sys with restartKey := some s.sys.opNs }) (within rfl) rfl rfl rfl (by decide)
    exact ⟨_, (sysRestart_reached hr).trans (congrArg (done s) (restartWord_first h hk)), k.sys,
      OnlyChanges.mono k.frame (within rfl), k.events⟩
  · intro s v obs hs hr h hk hv
    exact sysRestart_wrong hs hr (restartWord_wrongFirst h hk hv)
  · intro s v obs t0 hs hr h hk hv
    exact sysRestart_wrong hs hr (restartWord_wrongSecond h hk hv)
  · intro s v obs hs hr h
    exact sysRestart_wrong hs hr (restartWord_refused h)

end Sys2Proof.Proofs
end

section
/-! A conversion that a loop reads (O49): it is delivered to the loop (spec/07_loop_engines.md R187), so the loop engines do not stay as
they were. -/

namespace Sys2Proof.Proofs

open Sys2Proof.Machine Sys2Proof.Safety Sys2Proof.Laws

/-- A module with one AI of 4 to 20 mA that runs, read by one loop. -/
def loopOnAi : State := { State.reset with
  fio.run := true, regs := [(Reg.fioAioCfg, 0x101)], cfg.loops := [(0, { ins := [{ kind := 1, unit := 0 }] })] }

/-- How many loops of the loop engines hold a conversion in a next state. -/
def convertedOf : Host.Outcome State Fault Refusal → Nat
  | .next t => t.cle.loops.length
  | _ => 0

theorem convertedOf_aiConversion : convertedOf (exec (.aiConversion 0 100000 false false) loopOnAi) = 1 := by decide +kernel

/-- Refutes O49: in its first clause the loop engines are said to stay, and here a loop takes the conversion. -/
theorem not_analogueInputsTrimAndHart : ¬ Obligations.AnalogueInputsTrimAndHart := by
  rintro ⟨h, -⟩
  obtain ⟨t, e, -, -, -, -, -, -, -, -, hk⟩ := h loopOnAi 0 100000 (by decide +kernel) (by decide +kernel) (.inl (by decide +kernel)) (by decide +kernel) rfl
  have htaken : convertedOf (.next t) = 1 := e ▸ convertedOf_aiConversion
  have hcle : t.cle = loopOnAi.cle := hk.same .cle (by decide)
  have hkept : convertedOf (.next t) = 0 := by
    rw [convertedOf, hcle]
    rfl
  cases hkept.symm.trans htaken

end Sys2Proof.Proofs
end

section
/-! One step (O56): the front command, or one clock on an empty queue. -/

namespace Sys2Proof.Proofs

open Sys2Proof.Machine Sys2Proof.Safety Sys2Proof.Laws

variable {s : State}

theorem step_of_front (c : Instr) (cs : List Instr) : step { s with pending := c :: cs } = exec c { s with pending := cs } := rfl

theorem step_of_empty (h : s.pending = []) : step s = .next s.clock := by
  unfold step
  rw [h]

theorem clock_of_decided (hm : s.sys.mode ≠ .retain) (hu : s.undecided = []) : s.clock =
    { s with tim := if s.sys.mode = .idleLink then s.tim else s.tim.tick, sys := { s.sys with opNs := s.sys.opNs + 2 } } := by
  have hp : (!s.powered) = false := by simp [State.powered, hm]
  unfold State.clock
  rw [hp, if_neg Bool.false_ne_true, hu]

theorem clock_of_retain (hm : s.sys.mode = .retain) : s.clock = s := if_pos (by simp [State.powered, hm])

/-- Settles O56: the queue decides what a step runs, and the clock is that of the mode. -/
theorem aStepRunsTheFrontCommand : Obligations.AStepRunsTheFrontCommand :=
  ⟨fun _ c cs => step_of_front c cs,
    fun _ he hm hu => (step_of_empty he).trans (congrArg Host.Outcome.next (clock_of_decided hm hu)),
    fun _ he hm => (step_of_empty he).trans (congrArg Host.Outcome.next (clock_of_retain hm))⟩

end Sys2Proof.Proofs
end

section
/-! A command on a settled state that changes nothing a report shows: nothing follows it. -/

namespace Sys2Proof.Proofs

open Sys2Proof.Machine Sys2Proof.Safety Sys2Proof.Laws

variable {s t u : State} {ps : List Part}

/-- The parts that neither the CAN channels and local outputs nor the events of a report follow. -/
def unreportedParts : List Part :=
  [.hif, .cyc, .cle, .chg, .dpx2, .mir, .canq, .fio, .tly, .boot, .ret, .cfg, .prog, .live, .press, .outbox, .freeN, .pending]

/-- From `s` to `t` nothing changes that a report shows or that the mode's followers follow. -/
structure Unreported (s t : State) : Prop where
  frame : OnlyChanges (.sys :: unreportedParts) s t
  mode : t.sys.mode = s.sys.mode
  primary : t.sys.primary = s.sys.primary
  parTrip : t.sys.parTrip = s.sys.parTrip
  hostLost : t.sys.hostLost = s.sys.hostLost
  haltCause : t.sys.haltCause = s.sys.haltCause
  preempted : s.sys.preempted = [] → t.sys.preempted = []

theorem Unreported.of_frame (k : OnlyChanges ps s t) (w : Within ps unreportedParts) : Unreported s t := by
  have k : OnlyChanges unreportedParts s t := OnlyChanges.mono k w
  have hs : t.sys = s.sys := k.same .sys (by decide)
  exact ⟨OnlyChanges.mono k fun _ hp => List.mem_cons_of_mem _ hp, by rw [hs], by rw [hs], by rw [hs], by rw [hs], by rw [hs],
    fun h => by rw [hs]; exact h⟩

theorem Unreported.settled (k : Unreported s t) (h : Settled s) : Settled t := by
  have hp : t.pwr = s.pwr := k.frame.same .pwr (by decide)
  have ha : t.alive = s.alive := by simp only [State.alive, State.powered, k.mode, hp]
  exact ⟨CanFollows.congr h.can k.mode k.primary (k.frame.same .can (by decide)) (k.frame.same .regs (by decide)),
    fun e => k.preempted (h.served (ha ▸ e))⟩

theorem Unreported.insync (k : Unreported s t) : t.insync = s.insync := by
  have h : t.dpx = s.dpx := k.frame.same .dpx (by decide)
  rw [State.insync, State.insync, h]

theorem Unreported.sysFault (k : Unreported s t) : t.sysFault = s.sysFault := by
  have hvotes : t.votes = s.votes := k.frame.same .votes (by decide)
  have hlsp : t.lsp = s.lsp := k.frame.same .lsp (by decide)
  have hmm : t.mm = s.mm := k.frame.same .mm (by decide)
  have hpwr : t.pwr = s.pwr := k.frame.same .pwr (by decide)
  have hsaf : t.saf = s.saf := k.frame.same .saf (by decide)
  have hnet : t.net = s.net := k.frame.same .net (by decide)
  have hdpx : t.dpx = s.dpx := k.frame.same .dpx (by decide)
  have htim : t.tim = s.tim := k.frame.same .tim (by decide)
  have hregs : t.regs = s.regs := k.frame.same .regs (by decide)
  have hposted : t.posted = s.posted := k.frame.same .posted (by decide)
  have hen : ∀ d, t.domEn d = s.domEn d := fun d => by rw [State.domEn, State.domEn, reg_congr hregs]
  have hlocked : ∀ d, t.domLocked d = s.domLocked d := fun d => by rw [State.domLocked, State.domLocked, hen, State.dom, State.dom, htim]
  unfold State.sysFault State.locked
  rw [k.insync, hen, hen, hlocked, hlocked, hvotes, hlsp, hmm, hpwr, hsaf, hnet, hdpx, hposted, k.mode, k.parTrip, k.hostLost, k.haltCause]

/-- Nothing follows such a command. -/
theorem Unreported.done_eq (k : Unreported s t) (h : Settled s) : done s t = .next t := by
  unfold done
  rw [settleState_settled (k.settled h) k.mode, report_id k.primary k.insync k.sysFault]

theorem done_of_frame (h : Settled s) (k : OnlyChanges ps s t) (w : Within ps unreportedParts) : done s t = .next t :=
  (Unreported.of_frame k w).done_eq h

end Sys2Proof.Proofs
end

section
/-! What a completion leaves (spec/04_host_rings.md R104, R110, R120): its entry, and of its ring the write position and the counts. -/

namespace Sys2Proof.Proofs

open Sys2Proof.Machine Sys2Proof.Safety Sys2Proof.Laws

variable {s t u : State} {h : Hcmd} {n m : Nat} {o : Out}

/-- An update of the host interface. -/
theorem hif_frame (x : Hif) : OnlyChanges [.hif] s { s with hif := x } :=
  ⟨fun p hp => by cases p with
    | hif => exact absurd (by decide) hp
    | _ => rfl⟩

/-- A ring without the write position, the phase and the uncounted completions of its completion ring. -/
def ringBody (r : Ring) : Ring := { r with cqTail := 0, phase := true, uncounted := 0 }

/-- The host interface without its rings, its journal and the pending interrupt vectors. -/
def hifBody (x : Hif) : Hif := { x with rings := [], journal := [], msixPend := [] }

/-- From `s` to `t` completions of ring `n` have been written, and their interrupts raised. -/
structure Posts (n : Nat) (s t : State) : Prop where
  sent : s.outbox <+: t.outbox
  ring : ringBody (t.ring n) = ringBody (s.ring n)
  others : ∀ m, m ≠ n → t.ring m = s.ring m
  hif : hifBody t.hif = hifBody s.hif
  frame : OnlyChanges [.hif, .outbox] s t

theorem Posts.refl : Posts n s s := ⟨List.prefix_rfl, rfl, fun _ _ => rfl, rfl, OnlyChanges.refl⟩

theorem Posts.trans (h : Posts n s t) (k : Posts n t u) : Posts n s u :=
  ⟨h.sent.trans k.sent, k.ring.trans h.ring, fun m hm => (k.others m hm).trans (h.others m hm), k.hif.trans h.hif, OnlyChanges.trans h.frame k.frame⟩

theorem Posts.ite {c : Prop} [Decidable c] (h : Posts n s t) (k : Posts n s u) : Posts n s (if c then t else u) := by
  split
  · exact h
  · exact k

theorem Posts.live (h : Posts n s t) : (t.ring n).live = (s.ring n).live := (congrArg Ring.live h.ring :)

/-! The steps of a completion. -/

theorem updRing_posts {f : Ring → Ring} (h : Posts n s t) (hf : ∀ r, ringBody (f r) = ringBody r) : Posts n s (t.updRing n f) :=
  h.trans ⟨List.prefix_rfl, by rw [ring_updRing, hf], fun _ hm => ring_updRing_ne f hm, rfl, updRing_only (within rfl) OnlyChanges.refl⟩

theorem put_posts (h : Posts n s t) : Posts n s (t.put o) :=
  h.trans ⟨List.prefix_append .., rfl, fun _ _ => rfl, rfl, put_only (within rfl) OnlyChanges.refl⟩

theorem msix_posts {v : Nat} (h : Posts n s t) : Posts n s (t.msix v) := by
  have hp : Posts n t { t with hif := { t.hif with msixPend := if v ∈ t.hif.msixPend then t.hif.msixPend else t.hif.msixPend ++ [v] } } :=
    ⟨List.prefix_rfl, rfl, fun _ _ => rfl, rfl, OnlyChanges.mono (hif_frame _) (within rfl)⟩
  exact (h.trans hp).ite (put_posts h)

theorem countInt_posts {b : Bool} (h : Posts n s t) : Posts n s (t.countInt n b) := by
  have hu : ∀ {f : Ring → Nat}, Posts n s (t.updRing n fun r => { r with uncounted := f r }) := updRing_posts h fun _ => rfl
  exact (h.ite (msix_posts h)).ite ((msix_posts hu).ite hu)

theorem retire_posts {k : Nat} {id : DWord} (h : Posts n s t) : Posts n s (t.retire k id) :=
  h.trans ⟨List.prefix_rfl, rfl, fun _ _ => rfl, rfl, retire_only (within rfl) OnlyChanges.refl⟩

theorem postCqe_posted {b : Bool} {c : Cqe} (hn : c.slot = n) : Posts n (t.put (.cqe n (writtenCqe t c))) (t.postCqe b c) := by
  subst hn
  have hu : ∀ {k : Nat}, Posts c.slot (t.put (.cqe c.slot (writtenCqe t c)))
      (State.put (.cqe c.slot (writtenCqe t c)) (t.updRing c.slot fun r => { r with cqTail := k, phase := if k = 0 then !r.phase else r.phase })) :=
    updRing_posts (t := t.put _) .refl fun _ => rfl
  exact retire_posts (countInt_posts hu)

/-! The completion of a command. -/

/-- Ring `n` runs no command. -/
def idled (n : Nat) (s : State) : State := s.updRing n fun r => { r with infl := none }

theorem idled_ring : (idled n s).ring n = { s.ring n with infl := none } := ring_updRing ..

theorem idled_ring_ne (hm : m ≠ n) : (idled n s).ring m = s.ring m := ring_updRing_ne _ hm

theorem idled_frame : OnlyChanges [.hif] s (idled n s) := updRing_only (within rfl) OnlyChanges.refl

/-- The completion entry of `h` (Table 4.5), as its ring writes it in `s`. -/
def completionOf (h : Hcmd) (st : BitVec 16) (dup mirrored : Bool) (j : DWord) (rdone : Nat) (r0 : Word) (r1 : DWord) (s : State) : Cqe :=
  writtenCqe s { reqId := h.reqId, sqHead := 0, slot := h.slot, opcode := h.opcode, status := st, phase := true, dup := dup
                 mirrored := mirrored, journaled := decide (j ≠ 0), rdone := rdone, result0 := r0, result1 := r1, accTime := 0
                 node := s.sys.nodeId, jseq := j }

section

variable {st : BitVec 16} {d mi : Bool} {j : DWord} {k : Nat} {r0 : Word} {r1 : DWord}

theorem writeCqe_posted (hq : h.cqeOk = true) (hp : (t.ring h.slot).cqHalt = false) :
    Posts h.slot ((idled h.slot t).put (.cqe h.slot (completionOf h st d mi j k r0 r1 (idled h.slot t)))) (t.writeCqe h st d mi j k r0 r1) := by
  have hc : ((idled h.slot t).ring h.slot).cqHalt = false := by rw [idled_ring]; exact hp
  unfold State.writeCqe
  dsimp only
  rw [hq, Bool.not_true, if_neg Bool.false_ne_true, show (t.updRing h.slot _) = idled h.slot t from rfl, hc, if_neg Bool.false_ne_true]
  exact postCqe_posted rfl

theorem complete_of_kept (hd : (t.ring h.slot).deleting = false) : t.complete h st d mi j k r0 r1 = t.writeCqe h st d mi j k r0 r1 := by
  unfold State.complete
  dsimp only
  rw [hd, Bool.false_and, if_neg Bool.false_ne_true]

/-- A completion on a ring that is not being deleted. -/
theorem complete_posted (hq : h.cqeOk = true) (hp : (t.ring h.slot).cqHalt = false) (hd : (t.ring h.slot).deleting = false) :
    Posts h.slot ((idled h.slot t).put (.cqe h.slot (completionOf h st d mi j k r0 r1 (idled h.slot t)))) (t.complete h st d mi j k r0 r1) := by
  rw [complete_of_kept hd]
  exact writeCqe_posted hq hp

end

end Sys2Proof.Proofs
end

section
/-! A command that ends (spec/04_host_rings.md R104, R117, R120): what leaves the module, and what its ring and the window keep. -/

namespace Sys2Proof.Proofs

open Sys2Proof.Machine Sys2Proof.Safety Sys2Proof.Laws

variable {s t u v : State} {h g : Hcmd} {op : HostOp} {st : BitVec 16} {l k : List Out}

/-- From `v` to `t` the command `h` has ended with `st`, and `l` is what was sent for it. -/
structure Finishes (h : Hcmd) (st : BitVec 16) (l : List Out) (v t : State) : Prop where
  entry : ∃ c : Cqe, Out.cqe h.slot c ∈ l ∧ c.reqId = h.reqId ∧ c.status = st ∧ c.dup = false
  sent : t.outbox = v.outbox ++ l
  ring : ringBody (t.ring h.slot) = ringBody { v.ring h.slot with infl := none }
  others : ∀ n, n ≠ h.slot → t.ring n = v.ring n
  hif : hifBody t.hif = hifBody v.hif
  frame : OnlyChanges [.hif, .outbox] v t

theorem Finishes.wins (f : Finishes h st l v t) : t.hif.wins = v.hif.wins := (congrArg Hif.wins f.hif :)

theorem Finishes.jseq (f : Finishes h st l v t) : t.hif.jseq = v.hif.jseq := (congrArg Hif.jseq f.hif :)

theorem Finishes.ev (f : Finishes h st l v t) : t.hif.ev = v.hif.ev := (congrArg Hif.ev f.hif :)

/-- The completion ring of `h` stands, takes its entry and is not being deleted. -/
structure Answers (h : Hcmd) (v : State) : Prop where
  entry : h.cqeOk = true
  stands : (v.ring h.slot).cqHalt = false
  kept : (v.ring h.slot).deleting = false

theorem complete_finishes {m : Bool} {j : DWord} {n : Nat} {r0 : Word} {r1 : DWord} (a : Answers h v) :
    ∃ q, Finishes h st (.cqe h.slot (completionOf h st false m j n r0 r1 (idled h.slot v)) :: q) v (v.complete h st false m j n r0 r1) := by
  have hp := complete_posted (st := st) (d := false) (mi := m) (j := j) (k := n) (r0 := r0) (r1 := r1) a.entry a.stands a.kept
  obtain ⟨q, hq⟩ := hp.sent
  refine ⟨q, ⟨_, List.mem_cons_self, rfl, rfl, rfl⟩, ?_, ?_, fun m hm => ?_, hp.hif.trans rfl, ?_⟩
  · rw [← hq]
    exact List.append_assoc ..
  · exact hp.ring.trans (congrArg ringBody idled_ring)
  · exact (hp.others m hm).trans (idled_ring_ne hm)
  · exact OnlyChanges.trans (put_only (within rfl) (OnlyChanges.mono idled_frame (within rfl))) hp.frame

/-- Something left the module before. -/
theorem Finishes.after (f : Finishes h st l (v.put o) t) : Finishes h st (o :: l) v t where
  entry := by
    obtain ⟨c, hc, h⟩ := f.entry
    exact ⟨c, List.mem_cons_of_mem _ hc, h⟩
  sent := f.sent.trans (List.append_assoc ..)
  ring := f.ring
  others := f.others
  hif := f.hif
  frame := OnlyChanges.trans (put_only (within rfl) OnlyChanges.refl) f.frame

/-- A command that returns data which its host can take, or none, ends with its status; the data leaves first (R120). -/
theorem settle_finishes {b : List Byte} {m : Bool} {j : DWord} {r0 : Word} {r1 : DWord} (a : Answers h v) (hb : b = [] ∨ h.retOk = true) :
    ∃ l, Finishes h st l v (v.settle h st m j b r0 r1) ∧ (b ≠ [] → l.head? = some (.ret h.slot h.rptr b)) := by
  by_cases he : b = []
  · subst he
    obtain ⟨q, f⟩ := complete_finishes (st := st) (m := m) (j := j) (n := 0) (r0 := r0) (r1 := r1) a
    exact ⟨_, f, fun hn => absurd rfl hn⟩
  · have hg : v.giveBack h b = (true, v.put (.ret h.slot h.rptr b)) := by
      simp [State.giveBack, he, hb.resolve_left he]
    obtain ⟨q, f⟩ := complete_finishes (st := st) (m := m) (j := j) (n := b.length) (r0 := r0) (r1 := r1)
      (v := v.put (.ret h.slot h.rptr b)) ⟨a.entry, a.stands, a.kept⟩
    unfold State.settle
    rw [hg]
    exact ⟨_, f.after, fun _ => rfl⟩

/-! The entry of a command: what its ring and the window hold once it is taken (R112, R115). -/

/-- A ring whose next entry has been fetched, and which runs no command. -/
def fetchedRing (r : Ring) : Ring := { r with sqHead := (r.sqHead + 1) % 2 ^ r.sqK, infl := none }

/-- The host interface without what the entry of a command changes: rings, windows and journal. -/
def enteredBody (x : Hif) : Hif := { x with rings := [], wins := [], nWin := [], journal := [], jseq := 0 }

/-- The host interface `x` is that of `s` once `h` has been taken from its ring and, on a primary, is in the window. -/
structure Entered (h : Hcmd) (s : State) (x : Hif) : Prop where
  ring : { x.rings.look h.slot {} with infl := none } = fetchedRing (s.ring h.slot)
  others : ∀ n, n ≠ h.slot → x.rings.look n {} = s.ring n
  high : s.sys.primary = true → (x.wins.look h.slot {}).high = h.reqId
  rest : enteredBody x = enteredBody s.hif

theorem Entered.ev {x : Hif} (e : Entered h s x) : x.ev = s.hif.ev := (congrArg Hif.ev e.rest :)

theorem Entered.heldCq {x : Hif} (e : Entered h s x) : x.heldCq = s.hif.heldCq := (congrArg Hif.heldCq e.rest :)

/-- What leads on from the entry of a command without touching its ring: the ring still shows the entry taken. -/
theorem Entered.answers {x : Hif} (e : Entered h s x) (hr : v.ring h.slot = x.rings.look h.slot {}) (hq : h.cqeOk = true)
    (hp : (s.ring h.slot).cqHalt = false) (hd : (s.ring h.slot).deleting = false) : Answers h v := by
  have hc : (x.rings.look h.slot {}).cqHalt = (s.ring h.slot).cqHalt := (congrArg Ring.cqHalt e.ring :)
  have hk : (x.rings.look h.slot {}).deleting = (s.ring h.slot).deleting := (congrArg Ring.deleting e.ring :)
  exact ⟨hq, by rw [hr, hc, hp], by rw [hr, hk, hd]⟩

/-- A command that has been taken and has ended is complete. -/
theorem Finishes.completed {x : Hif} (f : Finishes h st l v t) (e : Entered h s x) (hr : v.ring h.slot = x.rings.look h.slot {})
    (ho : v.outbox = s.outbox ++ k) : Completed h st (k ++ l) s t := by
  obtain ⟨c, hc, hid⟩ := f.entry
  have hring : ringBody (t.ring h.slot) = ringBody (fetchedRing (s.ring h.slot)) := by rw [f.ring, hr, e.ring]
  refine ⟨⟨c, List.mem_append_right _ hc, hid⟩, ?_, (congrArg Ring.sqHead hring :), (congrArg Ring.infl hring :)⟩
  rw [f.sent, ho, List.append_assoc]

/-- Completion speaks of the slot and the identifier of an entry only. -/
theorem completed_of_entry (hs : g.slot = h.slot) (hi : g.reqId = h.reqId) (c : Completed g st l s t) : Completed h st l s t := by
  obtain ⟨he, hsent, hm, hidle⟩ := c
  exact ⟨hs ▸ hi ▸ he, hsent, hs ▸ hm, hs ▸ hidle⟩

theorem waiting_of_entry (hs : g.slot = h.slot) (hi : g.reqId = h.reqId) (w : Waiting g s t) : Waiting h s t := by
  obtain ⟨hw, hm⟩ := w
  exact ⟨hs ▸ hi ▸ hw, hs ▸ hm⟩

theorem offered_of_entry (o : Offered op h s) (hs : g.slot = h.slot) (hi : g.reqId = h.reqId) (hq : g.cqeOk = h.cqeOk)
    (hf : op.static g = op.static h) : Offered op g s :=
  ⟨o.settled, hs ▸ o.taken, hf.trans o.form, by rw [hs, hi]; exact o.fresh, o.role, hs ▸ o.posts, hq.trans o.answered⟩

end Sys2Proof.Proofs
end

section
/-! The way of a command from its ring to its effect (spec/04_host_rings.md R112, R115, R116). -/

namespace Sys2Proof.Proofs

open Sys2Proof.Machine Sys2Proof.Safety Sys2Proof.Laws

variable {s t u v : State} {h : Hcmd} {op : HostOp} {st : BitVec 16}

theorem canTake_kept {n : Nat} {d : Dur} (ht : s.canTake n d = true) : (s.ring n).deleting = false := by
  simp only [State.canTake, Bool.and_eq_true, Bool.not_eq_true'] at ht
  tauto

theorem enter_high {w : Win} {id : DWord} (hw : w.high < id) : (w.enter id).high = id := if_pos hw

theorem high_enterWin {n : Nat} {id : DWord} (hw : (s.win n).high < id) : ((s.enterWin n id).win n).high = id := by
  have he : (s.enterWin n id).win n = (s.win n).enter id := look_upd_self (t := s.hif.wins) n {} fun w => w.enter id
  rw [he, enter_high hw]

theorem fetch_ring {n : Nat} : (s.fetch n).ring n = { s.ring n with sqHead := ((s.ring n).sqHead + 1) % 2 ^ (s.ring n).sqK } :=
  ring_updRing ..

theorem fetch_ring_ne {n m : Nat} (hm : m ≠ n) : (s.fetch n).ring m = s.ring m := ring_updRing_ne _ hm

/-- A fetched command that is not in the window. -/
theorem fetch_entered (hp : s.sys.primary = false) : Entered h s (s.fetch h.slot).hif where
  ring := congrArg (fun r : Ring => { r with infl := none }) fetch_ring
  others _ hn := fetch_ring_ne hn
  high e := absurd (hp.symm.trans e) Bool.false_ne_true
  rest := rfl

/-- A class N command of a primary: its identifier enters the window, and the entry waits to travel. -/
theorem window_entered (hf : (s.win h.slot).high < h.reqId) : Entered h s
    { ((s.fetch h.slot).enterWin h.slot h.reqId).hif with nWin := ((s.fetch h.slot).enterWin h.slot h.reqId).hif.nWin ++ [h] } where
  ring := congrArg (fun r : Ring => { r with infl := none }) (fetch_ring (s := s) (n := h.slot))
  others n hn := (fetch_ring_ne hn : (s.fetch h.slot).ring n = s.ring n)
  high _ := high_enterWin (s := s.fetch h.slot) hf
  rest := rfl

/-- `s` with the record of `h` in the journal (R112): its ring holds the command. -/
def journaledIn (op : HostOp) (h : Hcmd) (st : BitVec 16) (w : Word) (n : DWord) (s : State) : State :=
  State.journal (jrecOf op.dur h st (decide (st ≠ St.ok)) (s.hif.jseq + 1) n)
    (s.updRing h.slot fun x => { x with infl := some { cmd := h, status := st, reason := w, aux := n.toNat } })

theorem journaledIn_ring {w : Word} {n : DWord} : (journaledIn op h st w n s).ring h.slot =
    { s.ring h.slot with infl := some { cmd := h, status := st, reason := w, aux := n.toNat } } :=
  ring_updRing (s := s) h.slot fun x => { x with infl := some { cmd := h, status := st, reason := w, aux := n.toNat } }

theorem journaledIn_ring_ne {w : Word} {n : DWord} {m : Nat} (hm : m ≠ h.slot) : (journaledIn op h st w n s).ring m = s.ring m :=
  ring_updRing_ne (s := s) (fun x => { x with infl := some { cmd := h, status := st, reason := w, aux := n.toNat } }) hm

theorem recordJournal_eq {w : Word} {n : DWord} : s.recordJournal op h st w n =
    (journaledIn op h st w n s).afterRecord op h st w false (s.hif.jseq + 1) := rfl

/-- A journaled command of a primary. -/
theorem journal_entered {w : Word} {n : DWord} (hf : (s.win h.slot).high < h.reqId) :
    Entered h s ((journaledIn op h st w n (s.fetch h.slot)).enterWin h.slot h.reqId).hif where
  ring := by
    have hr := journaledIn_ring (op := op) (h := h) (st := st) (w := w) (n := n) (s := s.fetch h.slot)
    rw [fetch_ring] at hr
    exact congrArg (fun r : Ring => { r with infl := none }) hr
  others m hm := (journaledIn_ring_ne (op := op) (st := st) (w := w) (n := n) hm).trans (fetch_ring_ne hm)
  high _ := high_enterWin (s := journaledIn op h st w n (s.fetch h.slot)) hf
  rest := rfl

/-- A class N command is taken, enters the window on a primary, and runs without a record. -/
theorem runCmd_unrecorded (o : Offered op h s) (hd : op.dur = .n) :
    ∃ x, Entered h s x ∧ s.runCmd op h = State.runUnrecorded op h { s with hif := x } := by
  cases hp : s.sys.primary with
  | false =>
    have hr : op.roleP = false := Bool.eq_false_iff.mpr fun e => by cases hp.symm.trans (o.role e)
    exact ⟨_, fetch_entered hp, runCmd_standby o.taken o.form hr hp⟩
  | true =>
    have hf : ((s.fetch h.slot).win h.slot).high < h.reqId := o.fresh hp
    exact ⟨_, window_entered (o.fresh hp), (runCmd_primary o.taken o.form hp).trans (runPrimary_plain hf hd)⟩

theorem runPrimary_record (hf : (t.win h.slot).high < h.reqId) (hd : op.dur ≠ .n) (hc : op.check h t = .go) (hp : op.prepare h t = none) :
    t.runPrimary op h = t.record op h St.ok 0 (op.cyc h t) := by
  simp only [State.runPrimary, hf, hd, hc, hp, decide_true, Bool.not_true, Bool.false_eq_true, if_false]

theorem runPrimary_refuse {w : Word} (hf : (t.win h.slot).high < h.reqId) (hd : op.dur ≠ .n) (hc : op.check h t = .no st w) :
    t.runPrimary op h = t.record op h st w 0 := by
  simp only [State.runPrimary, hf, hd, hc, decide_true, Bool.not_true, Bool.false_eq_true, if_false]

theorem record_alone {w : Word} {n : DWord} (hi : t.insync = false) : t.record op h st w n = t.recordJournal op h st w n := by
  rw [State.record, hi, if_neg Bool.false_ne_true]

/-- A command that a primary records is taken and passes the checks of step 1. -/
theorem runCmd_recorded (o : Offered op h s) (hp : s.sys.primary = true) (hd : op.dur ≠ .n) (hc : op.check h (s.fetch h.slot) = .go)
    (hn : op.prepare h (s.fetch h.slot) = none) :
    s.runCmd op h = (s.fetch h.slot).record op h St.ok 0 (op.cyc h (s.fetch h.slot)) :=
  (runCmd_primary o.taken o.form hp).trans (runPrimary_record (o.fresh hp) hd hc hn)

/-- A journaled command takes the next journal number, enters the window, takes effect and settles. -/
theorem runCmd_journaled (o : Offered op h s) (hp : s.sys.primary = true) (hd : op.dur ≠ .n) (hi : s.insync = false)
    (hc : ∀ x, op.check h { s with hif := x } = .go) (hn : ∀ u, op.prepare h u = none)
    (hw : ∀ x, (op.effect h { s with hif := x }).wait = false) : ∃ x, Entered h s x ∧ x.jseq = s.hif.jseq + 1 ∧
    s.runCmd op h = (op.effect h { s with hif := x }).s.settle h (op.effect h { s with hif := x }).status false (s.hif.jseq + 1)
      (op.effect h { s with hif := x }).ret (op.effect h { s with hif := x }).r0 (op.effect h { s with hif := x }).r1 := by
  have e := (runCmd_recorded o hp hd (hc _) (hn _)).trans (record_alone hi)
  exact ⟨_, journal_entered (o.fresh hp), rfl, e.trans (recordJournal_eq.trans (afterRecord_ok (hw _)))⟩

/-- A command that is refused on state is journaled as such, enters the window and completes with its status. -/
theorem runCmd_journal_refused {w : Word} (o : Offered op h s) (hp : s.sys.primary = true) (hd : op.dur ≠ .n) (hi : s.insync = false)
    (hc : op.check h (s.fetch h.slot) = .no st w) (hs : st ≠ St.ok) : ∃ x, Entered h s x ∧ x.jseq = s.hif.jseq + 1 ∧
    s.runCmd op h = State.complete h st false false (s.hif.jseq + 1) 0 w 0 { s with hif := x } := by
  have e := ((runCmd_primary o.taken o.form hp).trans (runPrimary_refuse (o.fresh hp) hd hc)).trans (record_alone hi)
  exact ⟨_, journal_entered (o.fresh hp), rfl, e.trans (recordJournal_eq.trans (if_pos hs))⟩

end Sys2Proof.Proofs
end

section
/-! Class N commands (spec/04_host_rings.md R112, R120): they complete with their return data in the step that takes them (O14). -/

namespace Sys2Proof.Proofs

open Sys2Proof.Machine Sys2Proof.Safety Sys2Proof.Laws

variable {s t : State} {h g : Hcmd} {op : HostOp} {st : BitVec 16} {b : List Byte} {l : List Out} {r0 : Word} {r1 : DWord}

/-- From `s` to `t` the command `h` has been taken and has completed, its data `b` before it; nothing but the host interface has changed. -/
structure Replied (h : Hcmd) (st : BitVec 16) (b : List Byte) (l : List Out) (s t : State) : Prop where
  completed : Completed h st l s t
  data : b ≠ [] → l.head? = some (.ret h.slot h.rptr b)
  window : s.sys.primary = true → (t.win h.slot).high = h.reqId
  others : ∀ n, n ≠ h.slot → t.ring n = s.ring n
  frame : OnlyChanges [.hif, .outbox] s t

/-- The command answers with `b` at once and changes nothing, whatever the host interface holds. -/
structure Reads (op : HostOp) (h : Hcmd) (b : List Byte) (r0 : Word) (r1 : DWord) (s : State) : Prop where
  plain : op.dur = .n
  go : ∀ x, op.check h { s with hif := x } = .go
  answer : ∀ x, op.effect h { s with hif := x } = { s := { s with hif := x }, ret := b, r0 := r0, r1 := r1 }

theorem runCmd_replied (o : Offered op h s) (k : Reads op h b r0 r1 s) (hb : b = [] ∨ h.retOk = true) :
    ∃ l, Replied h St.ok b l s (s.runCmd op h) := by
  obtain ⟨x, e, hrun⟩ := runCmd_unrecorded o k.plain
  have a : Answers h { s with hif := x } := e.answers rfl o.answered o.posts (canTake_kept o.taken)
  obtain ⟨l, f, hdata⟩ := settle_finishes (st := St.ok) (m := false) (j := 0) (r0 := r0) (r1 := r1) a hb
  have hout : s.runCmd op h = State.settle h St.ok false 0 b r0 r1 { s with hif := x } := by
    rw [hrun, runUnrecorded_go (k.go x) (by rw [k.answer]), k.answer]
  rw [hout]
  refine ⟨l, f.completed (k := []) e rfl (List.append_nil _).symm, hdata, fun hp => ?_, fun n hn => ?_, ?_⟩
  · rw [State.win, f.wins]
    exact e.high hp
  · exact (f.others n hn).trans (e.others n hn)
  · exact OnlyChanges.trans (OnlyChanges.mono (hif_frame x) (within rfl)) f.frame

/-- An entry that Table 4.7 does not list (R107) is taken and refused; it does not enter the window. -/
theorem runUnknown_replied (ht : s.canTake h.slot .n = true) (hp : (s.ring h.slot).cqHalt = false) (hq : h.cqeOk = true) :
    ∃ l, Completed h St.invalidOpcode l s (s.runUnknown h) ∧ (s.runUnknown h).hif.wins = s.hif.wins ∧
      (∀ n, n ≠ h.slot → (s.runUnknown h).ring n = s.ring n) ∧ OnlyChanges [.hif, .outbox] s (s.runUnknown h) := by
  have a : Answers h (s.fetch h.slot) := ⟨hq, by rw [fetch_ring]; exact hp, by rw [fetch_ring]; exact canTake_kept ht⟩
  obtain ⟨q, f⟩ := complete_finishes (st := St.invalidOpcode) (m := false) (j := 0) (n := 0) (r0 := 0) (r1 := 0) a
  have hrun : s.runUnknown h = (s.fetch h.slot).complete h St.invalidOpcode false false 0 0 0 0 := if_pos ht
  obtain ⟨c, hc, hid⟩ := f.entry
  have hring : ringBody ((s.runUnknown h).ring h.slot) = ringBody (fetchedRing (s.ring h.slot)) := by
    rw [hrun, f.ring, fetch_ring]
    rfl
  refine ⟨_, ⟨⟨c, hc, hid⟩, hrun ▸ f.sent, (congrArg Ring.sqHead hring :), (congrArg Ring.infl hring :)⟩, hrun ▸ f.wins, fun n hn => ?_, ?_⟩
  · rw [hrun, f.others n hn, fetch_ring_ne hn]
  · rw [hrun]
    exact OnlyChanges.trans (fetch_only (within rfl) OnlyChanges.refl) f.frame

/-! What the opcodes of the obligation answer. -/

theorem nop_reads {a : Bool} : Reads (opNop a) h [] 0 0 s := ⟨rfl, fun _ => rfl, fun _ => rfl⟩

theorem identify_reads : Reads opIdentify h s.identity 0 0 s := ⟨rfl, fun _ => rfl, fun _ => rfl⟩

theorem quote_reads : Reads opQuote h (s.quote h.payload) 0 0 s := ⟨rfl, fun _ => rfl, fun _ => rfl⟩

theorem tallyRead_reads : Reads opTallyRead h (s.tallyRead h).ret (s.tallyRead h).r0 (s.tallyRead h).r1 s := ⟨rfl, fun _ => rfl, fun _ => rfl⟩

theorem status_reads : Reads opStatus h s.changeStatus s.chg.actVer 0 s := ⟨rfl, fun _ => rfl, fun _ => rfl⟩

theorem status_take : s.changeStatus.take 8 = le 4 s.chg.actVer.toNat ++ le 4 s.chg.prevVer.toNat := by
  have hl : (le 4 s.chg.actVer.toNat ++ le 4 s.chg.prevVer.toNat).length = 8 := by simp only [List.length_append, length_le]
  have he : s.changeStatus = (le 4 s.chg.actVer.toNat ++ le 4 s.chg.prevVer.toNat) ++
      ([BitVec.ofNat 8 s.chg.state.toNat, BitVec.ofNat 8 s.chg.moves] ++ le 6 0 ++
        le 8 (if s.chg.state = 0 then 0 else s.chg.xcyc.toNat) ++ padTo 32 s.chg.actDig ++ le 8 0) := by
    simp only [State.changeStatus, List.append_assoc]
  rw [he, List.take_left' hl]

/-- Completion, data and window speak of the slot, the identifier and the return address of an entry only. -/
theorem replied_of_entry (hs : g.slot = h.slot) (hi : g.reqId = h.reqId) (hr : g.rptr = h.rptr) (k : Replied g st b l s t) :
    Replied h st b l s t :=
  ⟨completed_of_entry hs hi k.completed, hs ▸ hr ▸ k.data, hs ▸ hi ▸ k.window, hs ▸ k.others, k.frame⟩

/-- The row of a class N opcode on the entry `g` that it makes of `h`. -/
theorem done_replied (o : Offered op h s) (hs : g.slot = h.slot) (hi : g.reqId = h.reqId) (hr : g.rptr = h.rptr) (hq : g.cqeOk = h.cqeOk)
    (hf : op.static g = op.static h) (k : Reads op g b r0 r1 s) (hb : b = [] ∨ g.retOk = true) :
    ∃ t l, done s (s.runCmd op g) = .next t ∧ Replied h St.ok b l s t := by
  obtain ⟨l, hl⟩ := runCmd_replied (offered_of_entry o hs hi hq hf) k hb
  exact ⟨_, l, done_of_frame o.settled hl.frame (within rfl), replied_of_entry hs hi hr hl⟩

/-- Settles O14: each of these opcodes reads, so its command completes in the step that takes it; an unknown opcode is refused. -/
theorem unrecordedCommandsCompleteAtOnce : Obligations.UnrecordedCommandsCompleteAtOnce := by
  refine ⟨fun s h o hk => ?_, fun s h o hk => ?_, fun s h o => ?_, fun s h o hr => ?_, fun s h o hr => ?_, fun s h o hr => ?_, fun s h o hr => ?_⟩
  case refine_1 =>
    obtain ⟨t, l, he, k⟩ := done_replied (g := { h with opcode := 0x00 }) o rfl rfl rfl rfl rfl nop_reads (.inl rfl)
    exact ⟨t, l, (congrArg (done s) (if_pos hk)).trans he, k.completed, k.window, k.others, k.frame⟩
  case refine_2 =>
    obtain ⟨l, hc, hw, ho, hf⟩ := runUnknown_replied o.taken o.posts o.answered
    have hrun : exec (.nop h) s = done s (s.runUnknown h) := congrArg (done s) (if_neg (by rw [hk]; exact Bool.false_ne_true))
    exact ⟨_, l, hrun.trans (done_of_frame o.settled hf (within rfl)), hc, hw, ho, hf⟩
  case refine_3 =>
    obtain ⟨t, l, he, k⟩ := done_replied (g := { h with opcode := 0x40 }) o rfl rfl rfl rfl rfl nop_reads (.inl rfl)
    exact ⟨t, l, he, k.completed, k.window, k.others, k.frame⟩
  case refine_4 =>
    obtain ⟨t, l, he, k⟩ := done_replied (g := { h with opcode := 0x01 }) o rfl rfl rfl rfl rfl identify_reads (.inr hr)
    exact ⟨t, l, _, he, k.completed, k.data (List.ne_nil_of_length_eq_add_one identity_length), identity_length, identity_begins, k.window,
      k.others, k.frame⟩
  case refine_5 =>
    obtain ⟨t, l, he, k⟩ := done_replied (g := { h with opcode := 0x0D }) o rfl rfl rfl rfl rfl quote_reads (.inr hr)
    have hn : s.quote h.payload ≠ [] := fun e => by
      have := quote_begins (s := s) (p := h.payload)
      rw [e] at this
      cases this
    exact ⟨t, l, _, he, k.completed, k.data hn, quote_begins, k.window, k.others, k.frame⟩
  case refine_6 =>
    obtain ⟨t, l, he, k⟩ := done_replied (g := { h with opcode := 0x47 }) o rfl rfl rfl rfl rfl tallyRead_reads (.inr hr)
    exact ⟨t, l, he, k.completed, k.data, k.window, k.others, k.frame⟩
  case refine_7 =>
    obtain ⟨t, l, he, k⟩ := done_replied o rfl rfl rfl rfl rfl status_reads (.inr hr)
    have k := replied_of_entry (g := loadEntry h 2) (h := h) rfl rfl rfl k
    have hn : s.changeStatus ≠ [] := fun e => by
      have := congrArg List.length (status_take (s := s))
      rw [e, List.length_append, length_le, length_le] at this
      cases this
    exact ⟨t, l, _, he, k.completed, k.data hn, status_take, k.window, k.others, k.frame⟩

end Sys2Proof.Proofs
end

section
/-! A command that is given up before its recording has begun (spec/04_host_rings.md R100, R110). -/

namespace Sys2Proof.Proofs

open Sys2Proof.Machine Sys2Proof.Safety Sys2Proof.Laws

variable {s t u : State} {n : Nat} {i : Infl}

theorem forget_sys : (s.forget n).sys = (s.detach n).sys := by
  unfold State.forget
  dsimp only
  split <;> split <;> rfl

/-- What a command has prepared is forgotten: in the system block, the transition and the abandoned commands. -/
theorem forget_unreported : Unreported s (s.forget n) where
  frame := OnlyChanges.mono (forget_only (within rfl) OnlyChanges.refl : OnlyChanges [.sys, .chg, .dpx2, .boot] s _) (within rfl)
  mode := (congrArg Sys.mode forget_sys :)
  primary := (congrArg Sys.primary forget_sys :)
  parTrip := (congrArg Sys.parTrip forget_sys :)
  hostLost := (congrArg Sys.hostLost forget_sys :)
  haltCause := (congrArg Sys.haltCause forget_sys :)
  preempted e := by
    have hp : (s.forget n).sys.preempted = s.sys.preempted.filter fun k => k != n := congrArg Sys.preempted forget_sys
    rw [hp, e, List.filter_nil]

theorem Unreported.refl : Unreported s s := ⟨OnlyChanges.refl, rfl, rfl, rfl, rfl, rfl, id⟩

theorem Unreported.trans (h : Unreported s t) (k : Unreported t u) : Unreported s u :=
  ⟨OnlyChanges.trans h.frame k.frame, k.mode.trans h.mode, k.primary.trans h.primary, k.parTrip.trans h.parTrip,
    k.hostLost.trans h.hostLost, k.haltCause.trans h.haltCause, fun e => k.preempted (h.preempted e)⟩

theorem forget_hif : (s.forget n).hif = s.hif :=
  (forget_only (within rfl) OnlyChanges.refl : OnlyChanges [.sys, .chg, .dpx2, .boot] s _).same .hif (by decide)

theorem forget_ring {m : Nat} : (s.forget n).ring m = s.ring m := congrArg (fun x : Hif => x.rings.look m {}) forget_hif

theorem forget_outbox : (s.forget n).outbox = s.outbox :=
  (forget_only (within rfl) OnlyChanges.refl : OnlyChanges [.sys, .chg, .dpx2, .boot] s _).same .outbox (by decide)

theorem abortInfl_of_none (hi : (s.ring n).infl = none) : s.abortInfl n = s := by
  unfold State.abortInfl
  rw [hi]

theorem abortInfl_of_begun (hi : (s.ring n).infl = some i) (hb : i.begun = true) : s.abortInfl n = s := by
  unfold State.abortInfl
  rw [hi]
  exact if_pos hb

theorem abortInfl_of_unbegun (hi : (s.ring n).infl = some i) (hb : i.begun = false) :
    s.abortInfl n = (s.forget n).finish i.cmd St.aborted := by
  unfold State.abortInfl
  rw [hi]
  exact if_neg (by rw [hb]; exact Bool.false_ne_true)

/-- A command given up before its recording completes with ABORTED, where its completion ring takes the entry. -/
theorem abortInfl_finishes (hi : (s.ring n).infl = some i) (hb : i.begun = false) (hs : i.cmd.slot = n) (hq : i.cmd.cqeOk = true)
    (hp : (s.ring n).cqHalt = false) (hd : (s.ring n).deleting = false) :
    ∃ l, Finishes i.cmd St.aborted l (s.forget n) (s.abortInfl n) := by
  subst hs
  obtain ⟨q, f⟩ := complete_finishes (st := St.aborted) (m := false) (j := 0) (n := 0) (r0 := 0) (r1 := 0)
    (v := s.forget i.cmd.slot) ⟨hq, by rw [forget_ring]; exact hp, by rw [forget_ring]; exact hd⟩
  rw [abortInfl_of_unbegun hi hb]
  exact ⟨_, f⟩

end Sys2Proof.Proofs
end

section
/-! The ring commands of the admin ring (spec/04_host_rings.md R96, R100, R109, R110; O15). -/

namespace Sys2Proof.Proofs

open Sys2Proof.Machine Sys2Proof.Safety Sys2Proof.Laws

variable {s t u v : State} {h g : Hcmd} {op : HostOp} {n m : Nat} {x : Hif} {k : List Out}

/-! The row of an opcode runs the entry with that opcode. -/

theorem offered_of_opcode {b : BitVec 8} (o : Offered op h s) (hf : op.static { h with opcode := b } = op.static h) :
    Offered op { h with opcode := b } s := offered_of_entry o rfl rfl rfl hf

theorem completed_of_opcode {b : BitVec 8} {st : BitVec 16} (c : Completed { h with opcode := b } st k s t) : Completed h st k s t :=
  completed_of_entry (g := { h with opcode := b }) rfl rfl c

theorem waiting_of_opcode {b : BitVec 8} (w : Waiting { h with opcode := b } s t) : Waiting h s t :=
  waiting_of_entry (g := { h with opcode := b }) rfl rfl w

/-- An unrecorded command whose effect is `f`, which leaves its own ring, completes from there with status 0. -/
theorem runCmd_completes {f : State → State} {P : List Out → Prop} (o : Offered op h s) (hd : op.dur = .n)
    (hc : ∀ x, Entered h s x → op.check h { s with hif := x } = .go)
    (he : ∀ x, Entered h s x → op.effect h { s with hif := x } = { s := f { s with hif := x } })
    (hr : ∀ x, Entered h s x → (f { s with hif := x }).ring h.slot = x.rings.look h.slot {})
    (ho : ∀ x, Entered h s x → ∃ k, (f { s with hif := x }).outbox = s.outbox ++ k ∧ P k) :
    ∃ x k l, Entered h s x ∧ P k ∧ Completed h 0 (k ++ l) s (s.runCmd op h) ∧
      Finishes h St.ok l (f { s with hif := x }) (s.runCmd op h) := by
  obtain ⟨x, e, hrun⟩ := runCmd_unrecorded o hd
  obtain ⟨k, hk, hP⟩ := ho x e
  have a : Answers h (f { s with hif := x }) := e.answers (hr x e) o.answered o.posts (canTake_kept o.taken)
  obtain ⟨l, q, -⟩ := settle_finishes (st := St.ok) (m := false) (j := 0) (b := []) (r0 := 0) (r1 := 0) a (.inl rfl)
  have hend : s.runCmd op h = (f { s with hif := x }).settle h St.ok false 0 [] 0 0 := by
    rw [hrun, runUnrecorded_go (hc x e) (by rw [he x e]), he x e]
  rw [hend]
  exact ⟨x, k, l, e, hP, q.completed e (hr x e) hk, q⟩

/-- An unrecorded command that waits is held in its ring. -/
theorem runCmd_waits (o : Offered op h s) (hd : op.dur = .n) (hc : ∀ x, Entered h s x → op.check h { s with hif := x } = .go)
    (hw : ∀ x, Entered h s x → (op.effect h { s with hif := x }).wait = true) :
    ∃ x, Entered h s x ∧ s.runCmd op h =
      (op.effect h { s with hif := x }).s.updRing h.slot fun r => { r with infl := some { cmd := h } } := by
  obtain ⟨x, e, hrun⟩ := runCmd_unrecorded o hd
  refine ⟨x, e, hrun.trans ?_⟩
  unfold State.runUnrecorded
  rw [hc x e]
  exact if_pos (hw x e)

theorem opRingCreate_admin (hf : opRingCreate.static h = none) : h.slot = 0 := commonCheck_admin (orElse_none.mp hf).1

theorem opRingDelete_admin (hf : opRingDelete.static h = none) : h.slot = 0 := commonCheck_admin (orElse_none.mp hf).1

theorem setRing_ring {r : Ring} : (s.setRing n r).ring n = r := look_put_self ..

theorem setRing_ring_ne {r : Ring} (hm : m ≠ n) : (s.setRing n r).ring m = s.ring m := look_put_ne hm ..

theorem removeRing_ring : (s.removeRing n).ring n = {} := look_del_self ..

theorem removeRing_ring_ne (hm : m ≠ n) : (s.removeRing n).ring m = s.ring m := look_del_ne hm

theorem ringMade_eq : ringMade h = { live := true, sqBase := h.dptr, cqBase := h.rptr, sqK := h.param0.toNat % 32
                                     cqK := h.param0.toNat / 256 % 32, vector := h.param0.toNat / 65536 % 64
                                     coalN := h.param1.toNat % 65536, coalT := h.param1.toNat / 65536 } := by
  simp [ringMade, bits, Nat.shiftRight_eq_div_pow]

theorem evMade_eq : evMade h = { live := true, base := h.dptr, k := h.param0.toNat % 32, vector := h.param0.toNat / 65536 % 64
                                 minSev := h.param0.toNat / 2 ^ 24 % 8 } := by
  simp [evMade, bits, Nat.shiftRight_eq_div_pow]

/-! The completions that waited for a ring. -/

/-- Waiting completions of ring `m` are written to it in their order, each with the result it was kept with. -/
theorem foldl_postCqe_posts {es : List (Bool × Cqe)} (hm : ∀ e ∈ es, e.2.slot = m) :
    Posts m u (es.foldl (fun (t : State) e => t.postCqe e.1 e.2) u) ∧
      ∃ k, (es.foldl (fun (t : State) e => t.postCqe e.1 e.2) u).outbox = u.outbox ++ k ∧
        ∀ e ∈ es, ∃ c : Cqe, Out.cqe m c ∈ k ∧ c.reqId = e.2.reqId ∧ c.status = e.2.status := by
  induction es generalizing u with
  | nil => exact ⟨.refl, [], (List.append_nil _).symm, fun e he => absurd he List.not_mem_nil⟩
  | cons e es ih =>
    obtain ⟨hp, k, hk, hall⟩ := ih (u := u.postCqe e.1 e.2) fun d hd => hm d (List.mem_cons_of_mem _ hd)
    have h1 : Posts m (u.put (.cqe m (writtenCqe u e.2))) (u.postCqe e.1 e.2) := postCqe_posted (hm e List.mem_cons_self)
    obtain ⟨q, hq⟩ := h1.sent
    have ho : (u.postCqe e.1 e.2).outbox = u.outbox ++ .cqe m (writtenCqe u e.2) :: q := by
      rw [← hq]
      exact List.append_assoc ..
    refine ⟨((put_posts .refl).trans h1).trans hp, .cqe m (writtenCqe u e.2) :: q ++ k, hk.trans ?_, fun d hd => ?_⟩
    · rw [ho, List.append_assoc]
    · rcases List.mem_cons.mp hd with rfl | hd
      · exact ⟨_, List.mem_append_left _ List.mem_cons_self, rfl, rfl⟩
      · obtain ⟨c, hc, hid⟩ := hall d hd
        exact ⟨c, List.mem_append_right _ hc, hid⟩

/-! The effects of the four commands. -/

/-- RING_CREATE of `h`: the ring, and the completions that waited for its slot. -/
def created (h : Hcmd) (s : State) : State := (s.setRing (h.target.toNat + 1) (ringMade h)).releaseHeld (h.target.toNat + 1)

/-- `s` with the new ring, before the completions that waited for it are written. -/
def bare (h : Hcmd) (s : State) : State := State.setRing (h.target.toNat + 1) (ringMade h)
  { s with hif := { s.hif with heldCq := s.hif.heldCq.filter fun e => e.2.slot != h.target.toNat + 1 } }

theorem created_of_unheld (hh : ∀ e ∈ s.hif.heldCq, e.2.slot ≠ h.target.toNat + 1) : created h s = bare h s := by
  have hn : (s.hif.heldCq.filter fun e => e.2.slot == h.target.toNat + 1) = [] :=
    List.filter_eq_nil_iff.mpr fun e he hb => hh e he (eq_of_beq hb)
  have he : created h s = (s.hif.heldCq.filter fun e => e.2.slot == h.target.toNat + 1).foldl
    (fun (t : State) e => t.postCqe e.1 e.2) (bare h s) := rfl
  rw [he, hn]
  rfl

theorem created_posts : Posts (h.target.toNat + 1) (bare h s) (created h s) ∧ ∃ k, (created h s).outbox = s.outbox ++ k ∧
    ∀ e ∈ s.hif.heldCq, e.2.slot = h.target.toNat + 1 →
      ∃ c : Cqe, Out.cqe (h.target.toNat + 1) c ∈ k ∧ c.reqId = e.2.reqId ∧ c.status = e.2.status := by
  obtain ⟨hp, k, hk, hall⟩ := foldl_postCqe_posts (u := bare h s) (m := h.target.toNat + 1)
    (es := s.hif.heldCq.filter fun e => e.2.slot == h.target.toNat + 1) fun e he => eq_of_beq (List.mem_filter.mp he).2
  exact ⟨hp, k, hk, fun e he hs => hall e (List.mem_filter.mpr ⟨he, beq_iff_eq.mpr hs⟩)⟩

theorem created_ring : ((created h s).ring (h.target.toNat + 1)).live = true :=
  created_posts.1.live.trans (congrArg Ring.live setRing_ring)

theorem created_ring_ne (hn : n ≠ h.target.toNat + 1) : (created h s).ring n = s.ring n :=
  (created_posts.1.others n hn).trans (setRing_ring_ne hn)

theorem created_frame : OnlyChanges [.hif, .outbox] s (created h s) :=
  releaseHeld_only (within rfl) (setRing_only (within rfl) OnlyChanges.refl)

/-- RING_CREATE on a free slot. -/
theorem ringCreate_completes (o : Offered opRingCreate h s) (hf : (s.ring (h.target.toNat + 1)).live = false) :
    ∃ x k l, Entered h s x ∧ (∀ e ∈ s.hif.heldCq, e.2.slot = h.target.toNat + 1 →
        ∃ c : Cqe, Out.cqe (h.target.toNat + 1) c ∈ k ∧ c.reqId = e.2.reqId ∧ c.status = e.2.status) ∧
      Completed h 0 (k ++ l) s (s.runCmd opRingCreate h) ∧
      Finishes h St.ok l (created h { s with hif := x }) (s.runCmd opRingCreate h) := by
  have h0 : h.target.toNat + 1 ≠ h.slot := opRingCreate_admin o.form ▸ Nat.succ_ne_zero _
  refine runCmd_completes (f := created h) o rfl (fun x e => ?_) (fun _ _ => rfl) (fun x _ => created_ring_ne h0.symm) fun x e => ?_
  · exact if_neg (by rw [State.ring, e.others _ h0, hf]; exact Bool.false_ne_true)
  · obtain ⟨-, k, hk, hall⟩ := created_posts (h := h) (s := { s with hif := x })
    exact ⟨k, hk, fun d hd => hall d (e.heldCq ▸ hd)⟩

/-- Beside the slot it names, RING_CREATE leaves every ring but the admin ring it came from. -/
theorem created_finishes {l : List Out} (h0 : h.slot = 0) (e : Entered h s x) (f : Finishes h St.ok l (created h { s with hif := x }) t) :
    t.ring (h.target.toNat + 1) = (created h { s with hif := x }).ring (h.target.toNat + 1) ∧
      (∀ n, n ≠ h.slot → n ≠ h.target.toNat + 1 → t.ring n = s.ring n) ∧ OnlyChanges [.hif, .outbox] s t :=
  ⟨f.others _ (h0 ▸ Nat.succ_ne_zero _), fun n hn hm => (f.others n hn).trans ((created_ring_ne hm).trans (e.others n hn)),
    OnlyChanges.trans (OnlyChanges.mono (hif_frame x) (within rfl)) (OnlyChanges.trans created_frame f.frame)⟩

/-! RING_DELETE. -/

theorem ringDelete_idle (hi : (u.ring m).infl = none) : u.ringDelete m = { s := u.removeRing m } := by
  unfold State.ringDelete
  rw [hi]

theorem ringDelete_begun {i : Infl} (hi : (u.ring m).infl = some i) (hb : i.begun = true) :
    u.ringDelete m = { s := u.updRing m fun r => { r with deleting := true }, wait := true } := by
  unfold State.ringDelete
  rw [hi]
  exact if_pos hb

theorem ringDelete_unbegun {i : Infl} (hi : (u.ring m).infl = some i) (hb : i.begun = false) :
    u.ringDelete m = { s := (u.abortInfl m).removeRing m } := by
  unfold State.ringDelete
  rw [hi]
  exact if_neg (by rw [hb]; exact Bool.false_ne_true)

theorem ringDelete_check (e : Entered h s x) (h0 : h.slot = 0) (hl : (s.ring (h.target.toNat + 1)).live = true) :
    opRingDelete.check h { s with hif := x } = .go :=
  if_pos (by rw [State.ring, e.others _ (h0 ▸ Nat.succ_ne_zero _), hl])

/-- A ring that runs no command is deleted. -/
theorem ringDelete_of_idle (o : Offered opRingDelete h s) (hl : (s.ring (h.target.toNat + 1)).live = true)
    (hi : (s.ring (h.target.toNat + 1)).infl = none) : ∃ l, Completed h 0 l s (s.runCmd opRingDelete h) ∧
    (s.runCmd opRingDelete h).ring (h.target.toNat + 1) = {} ∧
    (∀ n, n ≠ h.slot → n ≠ h.target.toNat + 1 → (s.runCmd opRingDelete h).ring n = s.ring n) ∧
    OnlyChanges [.hif, .outbox] s (s.runCmd opRingDelete h) := by
  have h0 := opRingDelete_admin o.form
  have hm : h.target.toNat + 1 ≠ h.slot := h0 ▸ Nat.succ_ne_zero _
  obtain ⟨x, k, l, e, -, hc, f⟩ := runCmd_completes (f := fun u => u.removeRing (h.target.toNat + 1)) (P := fun _ => True) o rfl
    (fun x e => ringDelete_check e h0 hl)
    (fun x e => ringDelete_idle (by rw [State.ring, e.others _ hm, hi])) (fun x _ => removeRing_ring_ne (s := { s with hif := x }) hm.symm)
    (fun x _ => ⟨[], (List.append_nil _).symm, trivial⟩)
  refine ⟨_, hc, (f.others _ hm).trans removeRing_ring, fun n hn hd => ?_, ?_⟩
  · exact (f.others n hn).trans ((removeRing_ring_ne hd).trans (e.others n hn))
  · exact OnlyChanges.trans (removeRing_only (within rfl) (OnlyChanges.mono (hif_frame x) (within rfl))) f.frame

/-- A ring whose command is being recorded is marked, and its deletion waits for that command. -/
theorem ringDelete_of_begun {i : Infl} (o : Offered opRingDelete h s) (hl : (s.ring (h.target.toNat + 1)).live = true)
    (hi : (s.ring (h.target.toNat + 1)).infl = some i) (hb : i.begun = true) : Waiting h s (s.runCmd opRingDelete h) ∧
    (s.runCmd opRingDelete h).ring (h.target.toNat + 1) = { s.ring (h.target.toNat + 1) with deleting := true } ∧
    (∀ n, n ≠ h.slot → n ≠ h.target.toNat + 1 → (s.runCmd opRingDelete h).ring n = s.ring n) ∧
    OnlyChanges [.hif, .outbox] s (s.runCmd opRingDelete h) := by
  have h0 := opRingDelete_admin o.form
  have hm : h.target.toNat + 1 ≠ h.slot := h0 ▸ Nat.succ_ne_zero _
  have heff : ∀ x, Entered h s x → opRingDelete.effect h { s with hif := x } = _ :=
    fun x e => ringDelete_begun (i := i) (by rw [State.ring, e.others _ hm, hi]) hb
  obtain ⟨x, e, hrun⟩ := runCmd_waits o rfl (fun x e => ringDelete_check e h0 hl) (fun x e => by rw [heff x e])
  rw [heff x e] at hrun
  have hown : (s.runCmd opRingDelete h).ring h.slot = { x.rings.look h.slot {} with infl := some { cmd := h } } := by
    rw [hrun, ring_updRing, ring_updRing_ne _ hm.symm]
    rfl
  have hoth : ∀ n, n ≠ h.slot → (s.runCmd opRingDelete h).ring n =
      (State.updRing (h.target.toNat + 1) (fun r => { r with deleting := true }) { s with hif := x }).ring n := fun n hn => by
    rw [hrun, ring_updRing_ne _ hn]
  refine ⟨⟨⟨{ cmd := h }, by rw [hown], rfl, rfl⟩, ?_⟩, ?_, fun n hn hd => ?_, ?_⟩
  · rw [hown]
    exact (congrArg Ring.sqHead e.ring :)
  · rw [hoth _ hm, ring_updRing, State.ring, e.others _ hm]
  · rw [hoth n hn, ring_updRing_ne _ hd]
    exact e.others n hn
  · rw [hrun]
    exact updRing_only (within rfl) (updRing_only (within rfl) (OnlyChanges.mono (hif_frame x) (within rfl)))

/-- A ring whose command is not yet recorded: the command is given up, then the ring goes. -/
theorem ringDelete_of_unbegun {i : Infl} (o : Offered opRingDelete h s) (hl : (s.ring (h.target.toNat + 1)).live = true)
    (hi : (s.ring (h.target.toNat + 1)).infl = some i) (hb : i.begun = false) (hs : i.cmd.slot = h.target.toNat + 1)
    (hq : i.cmd.cqeOk = true) (hp : (s.ring (h.target.toNat + 1)).cqHalt = false) (hd : (s.ring (h.target.toNat + 1)).deleting = false) :
    ∃ l c, Completed h 0 l s (s.runCmd opRingDelete h) ∧ Out.cqe (h.target.toNat + 1) c ∈ l ∧ c.reqId = i.cmd.reqId ∧
    c.status = 0x000F ∧ (s.runCmd opRingDelete h).ring (h.target.toNat + 1) = {} ∧
    (∀ n, n ≠ h.slot → n ≠ h.target.toNat + 1 → (s.runCmd opRingDelete h).ring n = s.ring n) ∧ Unreported s (s.runCmd opRingDelete h) ∧
    OnlyChanges [.sys, .hif, .chg, .dpx2, .boot, .outbox] s (s.runCmd opRingDelete h) := by
  have h0 := opRingDelete_admin o.form
  have hm : h.target.toNat + 1 ≠ h.slot := h0 ▸ Nat.succ_ne_zero _
  have hfin : ∀ x, Entered h s x → ∃ l, Finishes i.cmd St.aborted l (State.forget (h.target.toNat + 1) { s with hif := x })
      (State.abortInfl (h.target.toNat + 1) { s with hif := x }) := fun x e => by
    have hr : State.ring { s with hif := x } (h.target.toNat + 1) = s.ring (h.target.toNat + 1) := e.others _ hm
    exact abortInfl_finishes (by rw [hr, hi]) hb hs hq (by rw [hr, hp]) (by rw [hr, hd])
  obtain ⟨x, k, l, e, ⟨c, hck, hid, hst⟩, hc, f⟩ := runCmd_completes
    (f := fun u => (u.abortInfl (h.target.toNat + 1)).removeRing (h.target.toNat + 1))
    (P := fun k => ∃ c : Cqe, Out.cqe (h.target.toNat + 1) c ∈ k ∧ c.reqId = i.cmd.reqId ∧ c.status = St.aborted) o rfl
    (fun x e => ringDelete_check e h0 hl)
    (fun x e => ringDelete_unbegun (by rw [State.ring, e.others _ hm, hi]) hb)
    (fun x e => by
      obtain ⟨l, f⟩ := hfin x e
      rw [removeRing_ring_ne hm.symm, f.others _ (by rw [hs]; exact hm.symm), forget_ring]
      rfl)
    (fun x e => by
      obtain ⟨l, f⟩ := hfin x e
      obtain ⟨c, hc, hid, hst, -⟩ := f.entry
      exact ⟨l, f.sent.trans (congrArg (· ++ l) forget_outbox), c, hs ▸ hc, hid, hst⟩)
  obtain ⟨l', f'⟩ := hfin x e
  have hx : Unreported s { s with hif := x } := .of_frame (hif_frame x) (within rfl)
  refine ⟨_, c, hc, List.mem_append_left _ hck, hid, hst, (f.others _ hm).trans removeRing_ring, fun n hn hne => ?_, ?_, ?_⟩
  · rw [f.others n hn, removeRing_ring_ne hne, f'.others n (by rw [hs]; exact hne), forget_ring]
    exact e.others n hn
  · exact ((hx.trans forget_unreported).trans (.of_frame f'.frame (within rfl))).trans
      ((Unreported.of_frame (removeRing_only (within rfl) OnlyChanges.refl : OnlyChanges [.hif] _ _) (within rfl)).trans
        (.of_frame f.frame (within rfl)))
  · have hg : OnlyChanges [.sys, .hif, .chg, .dpx2, .boot, .outbox] s (State.forget (h.target.toNat + 1) { s with hif := x }) :=
      forget_only (within rfl) (OnlyChanges.mono (hif_frame x) (within rfl))
    exact OnlyChanges.trans (removeRing_only (within rfl) (OnlyChanges.trans hg (OnlyChanges.mono f'.frame (within rfl))))
      (OnlyChanges.mono f.frame (within rfl))

/-! The event ring. -/

/-- A command that sets the event ring to `y` completes. -/
theorem setEv_completes {y : EvRing} (o : Offered op h s) (hd : op.dur = .n)
    (hc : ∀ x, Entered h s x → op.check h { s with hif := x } = .go)
    (he : ∀ x, op.effect h { s with hif := x } = { s := { s with hif := { x with ev := y } } }) : ∃ l, Completed h 0 l s (s.runCmd op h) ∧
    (s.runCmd op h).hif.ev = y ∧ (∀ n, n ≠ h.slot → (s.runCmd op h).ring n = s.ring n) ∧ OnlyChanges [.hif, .outbox] s (s.runCmd op h) := by
  obtain ⟨x, k, l, e, -, hk, f⟩ := runCmd_completes (f := fun u => { u with hif := { u.hif with ev := y } }) (P := fun _ => True) o hd hc
    (fun x _ => he x) (fun _ _ => rfl) (fun _ _ => ⟨[], (List.append_nil _).symm, trivial⟩)
  exact ⟨_, hk, f.ev, fun n hn => (f.others n hn).trans (e.others n hn),
    OnlyChanges.trans (OnlyChanges.mono (hif_frame _ : OnlyChanges [.hif] s { s with hif := { x with ev := y } }) (within rfl)) f.frame⟩

theorem eventCreate_check (e : Entered h s x) (hl : s.hif.ev.live = false) : opEventCreate.check h { s with hif := x } = .go :=
  if_neg (by rw [e.ev, hl]; exact Bool.false_ne_true)

theorem eventDelete_check (e : Entered h s x) (hl : s.hif.ev.live = true) : opEventDelete.check h { s with hif := x } = .go :=
  if_pos (by rw [e.ev, hl])

/-- Settles O15: the admin ring is none of the rings that it makes and removes, so their commands complete where they came from. -/
theorem ringAndEventRingCommands : Obligations.RingAndEventRingCommands := by
  refine ⟨fun s h o hf hn => ?_, fun s h e o hf he hs => ?_, fun s h o hl hi => ?_, fun s h i o hl hi hb => ?_,
    fun s h i o hl hi hb hs hq hp hd => ?_, fun s h o hl => ?_, fun s h o hl => ?_⟩
  case refine_1 =>
    obtain ⟨x, k, l, e, -, hc, f⟩ := ringCreate_completes (offered_of_opcode (b := 0x02) o rfl) hf
    obtain ⟨hr, ho, hk⟩ := created_finishes (h := { h with opcode := 0x02 }) (opRingCreate_admin o.form) e f
    refine ⟨_, _, done_of_frame o.settled hk (within rfl), completed_of_opcode hc, hr.trans ?_, ho, hk⟩
    rw [created_of_unheld (s := { s with hif := x }) (h := { h with opcode := 0x02 }) (e.heldCq ▸ hn), bare, setRing_ring]
    exact ringMade_eq
  case refine_2 =>
    obtain ⟨x, k, l, hx, hall, hc, f⟩ := ringCreate_completes (offered_of_opcode (b := 0x02) o rfl) hf
    obtain ⟨hr, ho, hk⟩ := created_finishes (h := { h with opcode := 0x02 }) (opRingCreate_admin o.form) hx f
    obtain ⟨c, hck, hid, hst⟩ := hall e he hs
    exact ⟨_, _, c, done_of_frame o.settled hk (within rfl), completed_of_opcode hc, List.mem_append_left _ hck, hid, hst,
      (congrArg Ring.live hr).trans created_ring, ho, hk⟩
  case refine_3 =>
    obtain ⟨l, hc, hr, ho, hk⟩ := ringDelete_of_idle (offered_of_opcode (b := 0x03) o rfl) hl hi
    exact ⟨_, l, done_of_frame o.settled hk (within rfl), completed_of_opcode hc, hr, ho, hk⟩
  case refine_4 =>
    obtain ⟨hw, hr, ho, hk⟩ := ringDelete_of_begun (offered_of_opcode (b := 0x03) o rfl) hl hi hb
    exact ⟨_, done_of_frame o.settled hk (within rfl), waiting_of_opcode hw, hr, ho, hk⟩
  case refine_5 =>
    obtain ⟨l, c, hc, hm, hid, hst, hr, ho, hu, hk⟩ := ringDelete_of_unbegun (offered_of_opcode (b := 0x03) o rfl) hl hi hb hs hq hp hd
    exact ⟨_, l, c, hu.done_eq o.settled, completed_of_opcode hc, hm, hid, hst, hr, ho, hk⟩
  case refine_6 =>
    obtain ⟨l, hc, hev, ho, hk⟩ := setEv_completes (offered_of_opcode (b := 0x04) o rfl) rfl (fun x e => eventCreate_check e hl) (fun _ => rfl)
    refine ⟨_, l, done_of_frame o.settled hk (within rfl), completed_of_opcode hc, ?_, ho, hk⟩
    rw [hev]
    exact evMade_eq
  case refine_7 =>
    obtain ⟨l, hc, hev, ho, hk⟩ := setEv_completes (offered_of_opcode (b := 0x05) o rfl) rfl (fun x e => eventDelete_check e hl) (fun _ => rfl)
    exact ⟨_, l, done_of_frame o.settled hk (within rfl), completed_of_opcode hc, hev, ho, hk⟩

end Sys2Proof.Proofs
end

section
/-! Commands that a lone primary journals (spec/04_host_rings.md R112): they act and complete in the step that takes them (O16). -/

namespace Sys2Proof.Proofs

open Sys2Proof.Machine Sys2Proof.Safety Sys2Proof.Laws

variable {s t u v : State} {h g : Hcmd} {op : HostOp} {st : BitVec 16} {l : List Out} {r0 : Word} {r1 : DWord}

/-- The recorded command `h` passes its checks in `s` and leads to `v`, whatever the host interface holds; it neither waits, nor answers
with data, nor does anything leave the module. -/
structure Acts (op : HostOp) (h : Hcmd) (r0 : Word) (r1 : DWord) (s v : State) : Prop where
  recorded : op.dur ≠ .n
  go : ∀ x, op.check h { s with hif := x } = .go
  plain : ∀ u, op.prepare h u = none
  effect : ∀ x, op.effect h { s with hif := x } = { s := { v with hif := x }, r0 := r0, r1 := r1 }
  silent : v.outbox = s.outbox

/-- From `s` to `t` the command `h` has been journaled and has completed with `st`; beside the host interface `t` is `v`. -/
structure Journaled (h : Hcmd) (st : BitVec 16) (l : List Out) (s v t : State) : Prop where
  completed : Completed h st l s t
  number : t.hif.jseq = s.hif.jseq + 1
  window : (t.win h.slot).high = h.reqId
  rest : OnlyChanges [.hif, .outbox] v t

theorem runCmd_acts (o : Offered op h s) (hp : s.sys.primary = true) (hi : s.insync = false) (k : Acts op h r0 r1 s v) :
    ∃ l, Journaled h St.ok l s v (s.runCmd op h) := by
  obtain ⟨x, e, hj, hrun⟩ := runCmd_journaled o hp k.recorded hi k.go k.plain fun x => by rw [k.effect]
  rw [k.effect] at hrun
  have a : Answers h { v with hif := x } := e.answers rfl o.answered o.posts (canTake_kept o.taken)
  obtain ⟨l, f, -⟩ := settle_finishes (st := St.ok) (m := false) (j := s.hif.jseq + 1) (b := []) (r0 := r0) (r1 := r1) a (.inl rfl)
  have f : Finishes h St.ok l { v with hif := x } (s.runCmd op h) := hrun ▸ f
  refine ⟨l, f.completed (k := []) e rfl (k.silent.trans (List.append_nil _).symm), f.jseq.trans hj, ?_,
    OnlyChanges.trans (OnlyChanges.mono (hif_frame x) (within rfl)) f.frame⟩
  rw [State.win, f.wins]
  exact e.high hp

/-- A command refused on state is journaled too, and completes with its status. -/
theorem runCmd_refused {w : Word} (o : Offered op h s) (hp : s.sys.primary = true) (hd : op.dur ≠ .n) (hi : s.insync = false)
    (hc : op.check h (s.fetch h.slot) = .no st w) (hs : st ≠ St.ok) : ∃ l, Journaled h st l s s (s.runCmd op h) := by
  obtain ⟨x, e, hj, hrun⟩ := runCmd_journal_refused o hp hd hi hc hs
  have a : Answers h { s with hif := x } := e.answers rfl o.answered o.posts (canTake_kept o.taken)
  obtain ⟨q, f⟩ := complete_finishes (st := st) (m := false) (j := s.hif.jseq + 1) (n := 0) (r0 := w) (r1 := 0) a
  rw [← hrun] at f
  refine ⟨_, f.completed (k := []) e rfl (List.append_nil _).symm, f.jseq.trans hj, ?_,
    OnlyChanges.trans (OnlyChanges.mono (hif_frame x) (within rfl)) f.frame⟩
  rw [State.win, f.wins]
  exact e.high hp

theorem journaled_of_opcode {b : BitVec 8} (k : Journaled { h with opcode := b } st l s v t) : Journaled h st l s v t :=
  ⟨completed_of_opcode k.completed, k.number, k.window, k.rest⟩

/-- What only the Tally and the free values follow leaves the completion. -/
theorem Journaled.after (k : Journaled h st l s v t) (hk : OnlyChanges [.tly, .freeN] t u) : Completed h st l s u ∧
    u.hif.jseq = s.hif.jseq + 1 ∧ (u.win h.slot).high = h.reqId := by
  have hh : u.hif = t.hif := hk.same .hif (by decide)
  have ho : u.outbox = t.outbox := hk.same .outbox (by decide)
  obtain ⟨hent, hsent, hmoved, hidle⟩ := k.completed
  have hr : u.ring h.slot = t.ring h.slot := congrArg (fun x : Hif => x.rings.look h.slot {}) hh
  exact ⟨⟨hent, ho.trans hsent, hr ▸ hmoved, hr ▸ hidle⟩, by rw [hh]; exact k.number, by rw [State.win, hh]; exact k.window⟩

/-! The effects touch their own part of the state, whatever the host interface holds. -/

theorem foldl_apart {α : Type} {f : State → α → State} {as : List α} {x : Hif}
    (hf : ∀ u a, f { u with hif := x } a = { f u a with hif := x }) :
    as.foldl f { s with hif := x } = { as.foldl f s with hif := x } := by
  induction as generalizing s with
  | nil => rfl
  | cons a as ih => rw [List.foldl_cons, List.foldl_cons, hf, ih]

theorem pokeElem_apart {e : Elem} {x : Hif} : State.pokeElem e { s with hif := x } = { s.pokeElem e with hif := x } := by
  have hv : State.var { s with hif := x } e.handle = s.var e.handle := rfl
  unfold State.pokeElem
  rw [hv]
  split
  · rfl
  · dsimp only
    split <;> rfl

theorem pokeNow_apart {e : Elem} {x : Hif} : State.pokeNow e { s with hif := x } = { s.pokeNow e with hif := x } := by
  have hv : State.var { s with hif := x } e.handle = s.var e.handle := rfl
  unfold State.pokeNow
  rw [pokeElem_apart, hv]
  dsimp only
  split <;> rfl

theorem intoQueue_apart {r : TRec} {x : Hif} : State.intoQueue r { s with hif := x } = { s.intoQueue r with hif := x } := by
  unfold State.intoQueue
  split <;> rfl

theorem refuseRec_apart {r : TRec} {x : Hif} : State.refuseRec r { s with hif := x } = { s.refuseRec r with hif := x } := by
  have hh : State.recHead { s with hif := x } 0x0B02 = s.recHead 0x0B02 := rfl
  unfold State.refuseRec
  rw [hh]
  exact intoQueue_apart (s := { s with tly := { s.tly with drop := s.tly.drop + 1 } })

theorem enqueue_apart {r : TRec} {x : Hif} : State.enqueue r { s with hif := x } = { s.enqueue r with hif := x } := by
  unfold State.enqueue
  split
  · exact intoQueue_apart
  · exact refuseRec_apart

theorem log_apart {c n : Nat} {b : List Byte} {x : Hif} : State.log c n b { s with hif := x } = { s.log c n b with hif := x } := by
  have hs : State.sevMin { s with hif := x } = s.sevMin := rfl
  have hh : State.recHead { s with hif := x } c = s.recHead c := rfl
  have hm : State.opMs { s with hif := x } = s.opMs := rfl
  unfold State.log
  rw [hs, hh, hm]
  split
  · rfl
  · exact enqueue_apart

end Sys2Proof.Proofs
end

section
/-! What the journaled commands do (spec/05_cyclic_execution.md R146, R147, spec/07_loop_engines.md R210, spec/15_tally_recorder.md R420). -/

namespace Sys2Proof.Proofs

open Sys2Proof.Machine Sys2Proof.Safety Sys2Proof.Laws

variable {s t u v : State} {h g : Hcmd} {st : BitVec 16} {l : List Out}

/-! VAR_WRITE. -/

theorem varWriteOp_primary (hp : s.sys.primary = true) : s.varWriteOp = opVarWrite :=
  if_neg (by rw [hp]; exact Bool.false_ne_true)

theorem varWrite_pends (hc : s.checkVarWrite h = .go) (hw : s.writePends (classOf h) = true) :
    Acts opVarWrite h 0 (s.nextCycle (classOf h)) s
      (s.updMem (classOf h) fun m => { m with pendWr := m.pendWr ++ elemsOf true h }) where
  recorded := by decide
  go _ := hc
  plain _ := rfl
  effect _ := if_pos hw
  silent := rfl

theorem varWrite_pokes (hc : s.checkVarWrite h = .go) (hw : s.writePends (classOf h) = false) :
    Acts opVarWrite h 0 (s.cls (classOf h)).cycno s ((elemsOf true h).foldl (fun (u : State) e => u.pokeNow e) s) where
  recorded := by decide
  go _ := hc
  plain _ := rfl
  effect x := (if_neg (fun e => absurd (hw.symm.trans e) Bool.false_ne_true)).trans
    (congrArg (fun u : State => ({ s := u, r1 := (s.cls (classOf h)).cycno } : HRes)) (foldl_apart fun _ _ => pokeNow_apart))
  silent := (OnlyChanges.foldl OnlyChanges.refl fun _ _ k => pokeNow_only (within rfl) k :
    OnlyChanges [.cyc] s ((elemsOf true h).foldl (fun (u : State) e => u.pokeNow e) s)).same .outbox (by decide)

/-! Forces. -/

theorem setForces_frame {c : Nat} {es : List Elem} : OnlyChanges [.cyc] s (s.setForces c es) := setForces_only (within rfl) OnlyChanges.refl

theorem setForces_cyc {c : Nat} {es : List Elem} : (s.setForces c es).cyc = { s.cyc with forces := (s.setForces c es).cyc.forces } := by
  unfold State.setForces
  induction es generalizing s with
  | nil => rfl
  | cons e es ih => exact (ih (s := s.setForce c e)).trans rfl

/-- The last element of a FORCE_SET is forced. -/
theorem setForces_last {c : Nat} {es : List Elem} {e : Elem} (he : es.getLast? = some e) :
    ∃ f ∈ (s.setForces c es).cyc.forces, f.elem = e ∧ f.cls = c := by
  obtain ⟨ds, rfl⟩ := List.getLast?_eq_some_iff.mp he
  unfold State.setForces
  rw [List.foldl_append]
  exact ⟨_, List.mem_append_right _ (List.mem_singleton_self _), rfl, rfl⟩

theorem setForces_apart {c : Nat} {es : List Elem} {x : Hif} :
    State.setForces c es { s with hif := x } = { s.setForces c es with hif := x } := foldl_apart fun _ _ => rfl

theorem checkForceSet_apart {x : Hif} : State.checkForceSet h { s with hif := x } = s.checkForceSet h := by
  unfold State.checkForceSet
  dsimp only
  rw [setForces_apart]
  rfl

theorem forceSet_acts (hc : s.checkForceSet h = .go) : Acts opForceSet h 0 0 s (s.setForces (classOf h) (elemsOf true h)) where
  recorded := by decide
  go _ := checkForceSet_apart.trans hc
  plain _ := rfl
  effect _ := congrArg (fun u : State => ({ s := u } : HRes)) setForces_apart
  silent := setForces_frame.same .outbox (by decide)

/-- The forces of class `c` cleared by `es`. -/
def clearForces (c : Nat) (es : List Elem) (s : State) : State := es.foldl (fun (t : State) e => t.clearForce c e) s

theorem clearForces_frame {c : Nat} {es : List Elem} : OnlyChanges [.cyc] s (clearForces c es s) :=
  OnlyChanges.foldl OnlyChanges.refl fun _ _ k => clearForce_only (within rfl) k

theorem clearForces_cyc {c : Nat} {es : List Elem} : (clearForces c es s).cyc = { s.cyc with forces := (clearForces c es s).cyc.forces } := by
  unfold clearForces
  induction es generalizing s with
  | nil => rfl
  | cons e es ih => exact (ih (s := s.clearForce c e)).trans rfl

/-- A force stays where no element of a FORCE_CLEAR names it. -/
theorem mem_clearForces {c : Nat} {es : List Elem} {f : Force} : f ∈ (clearForces c es s).cyc.forces ↔ f ∈ s.cyc.forces ∧
    ∀ e ∈ es, (e.clearAll = true → f.cls ≠ c) ∧ (e.clearAll = false → sameElem e f.elem = false) := by
  unfold clearForces
  induction es generalizing s with
  | nil => simp
  | cons e es ih =>
    have h1 : f ∈ (s.clearForce c e).cyc.forces ↔ f ∈ s.cyc.forces ∧
        ((e.clearAll = true → f.cls ≠ c) ∧ (e.clearAll = false → sameElem e f.elem = false)) := by
      cases hc : e.clearAll <;> simp [State.clearForce, hc]
    rw [List.foldl_cons, ih, h1, List.forall_mem_cons, and_assoc]

theorem forceClear_acts (hc : s.checkForceClear h = .go) : Acts opForceClear h 0 0 s (clearForces (classOf h) (elemsOf false h) s) where
  recorded := by decide
  go _ := hc
  plain _ := rfl
  effect _ := congrArg (fun u : State => ({ s := u } : HRes)) (foldl_apart fun _ _ => rfl)
  silent := clearForces_frame.same .outbox (by decide)

/-! LOOP_WRITE. -/

theorem loopWrite_frame : OnlyChanges [.cle] s (s.loopWrite h) := loopWrite_only (within rfl) OnlyChanges.refl

theorem loopWrite_loop {n : Nat} (hn : ∀ b ∈ loopElems h, slotOf b ≠ n) : (s.loopWrite h).loop n = s.loop n := by
  unfold State.loopWrite
  generalize loopElems h = bs at hn
  induction bs generalizing s with
  | nil => rfl
  | cons b bs ih =>
    obtain ⟨hb, hn⟩ := List.forall_mem_cons.mp hn
    exact (ih hn).trans (loop_updLoop_ne _ (Ne.symm hb))

theorem loopWrite_acts (hc : s.checkLoopWrite h = .go) : Acts opLoopWrite h 0 0 s (s.loopWrite h) where
  recorded := by decide
  go _ := hc
  plain _ := rfl
  effect _ := congrArg (fun u : State => ({ s := u } : HRes)) (foldl_apart fun _ _ => rfl)
  silent := loopWrite_frame.same .outbox (by decide)

/-! TALLY_CLEAR. -/

/-- The Tally without its queue and the counts of what that refuses. -/
def storedTally (t : Tly) : Tly := { t with queue := [], seq := 0, qLost := 0, drop := 0 }

theorem intoQueue_stored {r : TRec} : storedTally (s.intoQueue r).tly = storedTally s.tly := by
  unfold State.intoQueue
  split <;> rfl

theorem log_stored {c n : Nat} {b : List Byte} : storedTally (s.log c n b).tly = storedTally s.tly := by
  unfold State.log State.enqueue
  split
  · rfl
  · split
    · exact intoQueue_stored
    · exact intoQueue_stored

theorem clears_of_stored {a b : Tly} (e : storedTally a = storedTally b) : a.clears = b.clears := (congrArg Tly.clears e :)

theorem pages_of_stored {a b : Tly} {r : Bool} (e : storedTally a = storedTally b) : a.pages r = b.pages r := by
  cases r
  · exact (congrArg Tly.log e :)
  · exact (congrArg Tly.audit e :)

/-- The clear of a range: the Tally with the region's pages cleared and the clear counted, before its audit record. -/
def clearedTally (r : Bool) (a b : Word) (t : Tly) : Tly :=
  { t.setPages r (clearPages (t.pages r) a b) with clears := (t.setPages r (clearPages (t.pages r) a b)).clears + 1 }

theorem applyClear_stored {r : Bool} {a b : Word} {k : Nat} : storedTally (s.applyClear r a b k).tly = storedTally (clearedTally r a b s.tly) :=
  log_stored

theorem clearedTally_clears {r : Bool} {a b : Word} {t : Tly} : (clearedTally r a b t).clears = t.clears + 1 := by cases r <;> rfl

theorem clearedTally_pages {r : Bool} {a b : Word} {t : Tly} : (clearedTally r a b t).pages r = clearPages (t.pages r) a b := by
  cases r <;> rfl

theorem clearedTally_pages_not {r : Bool} {a b : Word} {t : Tly} : (clearedTally r a b t).pages (!r) = t.pages (!r) := by cases r <;> rfl

/-- The token of a TALLY_CLEAR passes, or none is needed. -/
def clearMay (h : Hcmd) (s : State) : Bool := if hasToken h then s.tokenOk h.payload else !needsToken (clearAudit h) s.sys.mode

theorem checkClear_eq : s.checkClear h = if clearMay h s then
    (if s.tly.clearReason (clearAudit h) (clearSeqs h).1 (clearSeqs h).2 = 0 then .go
     else .no St.refused (BitVec.ofNat 32 (s.tly.clearReason (clearAudit h) (clearSeqs h).1 (clearSeqs h).2)))
    else .no St.tokenErr 0 := rfl

theorem checkClear_go (hc : s.checkClear h = .go) :
    clearMay h s = true ∧ s.tly.clearReason (clearAudit h) (clearSeqs h).1 (clearSeqs h).2 = 0 := by
  rw [checkClear_eq] at hc
  split at hc
  next hm =>
    split at hc
    next hr => exact ⟨hm, hr⟩
    · cases hc
  · cases hc

theorem checkClear_status {w : Word} (hc : s.checkClear h = .no st w) : st ≠ St.ok := by
  rw [checkClear_eq] at hc
  split at hc
  · split at hc
    · cases hc
    · cases hc
      decide
  · cases hc
    decide

theorem needsToken_of_clear (ht : hasToken h = false) (hc : s.checkClear h = .go) : needsToken (clearAudit h) s.sys.mode = false := by
  simpa [clearMay, ht] using (checkClear_go hc).1

theorem applyClear_apart {r : Bool} {a b : Word} {k : Nat} {x : Hif} :
    State.applyClear r a b k { s with hif := x } = { s.applyClear r a b k with hif := x } :=
  log_apart (s := { s with tly := clearedTally r a b s.tly })

/-- The number of the key that a clear's audit record shows. -/
def clearKey (h : Hcmd) : Nat := if hasToken h then fieldN h.payload 24 1 % 8 else 0xFF

theorem tallyClear_applies (hr : s.tly.clearReason (clearAudit h) (clearSeqs h).1 (clearSeqs h).2 = 0) :
    s.tallyClear h = s.applyClear (clearAudit h) (clearSeqs h).1 (clearSeqs h).2 (clearKey h) := by
  unfold State.tallyClear State.clearRange
  rw [hr]
  rfl

/-- A clear that passes its checks is applied. -/
theorem clear_acts (hc : s.checkClear h = .go) :
    Acts opClear h 0 0 s (s.applyClear (clearAudit h) (clearSeqs h).1 (clearSeqs h).2 (clearKey h)) := by
  obtain ⟨-, hr⟩ := checkClear_go hc
  have hf : OnlyChanges [.tly] s (s.applyClear (clearAudit h) (clearSeqs h).1 (clearSeqs h).2 (clearKey h)) :=
    applyClear_only (within rfl) OnlyChanges.refl
  exact ⟨by decide, fun _ => hc, fun _ => rfl, fun x => congrArg (fun u : State => ({ s := u } : HRes))
    ((tallyClear_applies (s := { s with hif := x }) hr).trans applyClear_apart), hf.same .outbox (by decide)⟩

theorem afterToken_reached (o : Offered opClear h s) (hp : s.sys.primary = true) :
    (s.canTake h.slot opClear.dur && (opClear.static h).isNone && (!s.sys.primary || decide ((s.win h.slot).high < h.reqId))) = true := by
  simp [o.taken, o.form, hp, o.fresh hp]

theorem afterToken_of_go (hc : s.checkClear h = .go) (ht : hasToken h = false) : s.afterToken h t = t := by
  unfold State.afterToken
  rw [hc, ht, needsToken_of_clear ht hc]
  exact ite_self _

theorem afterToken_of_token (o : Offered opClear h s) (hp : s.sys.primary = true) (hc : s.checkClear h = .go) (ht : hasToken h = true) :
    s.afterToken h t = t.newNonce := by
  unfold State.afterToken
  rw [afterToken_reached o hp, hc, ht]
  rfl

theorem afterToken_of_no {w : Word} (o : Offered opClear h s) (hp : s.sys.primary = true) (hc : s.checkClear h = .no st w)
    (ht : hasToken h = true) : s.afterToken h t = t.newNonce.clearRefused := by
  unfold State.afterToken
  rw [afterToken_reached o hp, hc, ht]
  rfl

end Sys2Proof.Proofs
end

section
/-! The journaled commands from their rings, and the reads that may wait (O16). -/

namespace Sys2Proof.Proofs

open Sys2Proof.Machine Sys2Proof.Safety Sys2Proof.Laws

variable {s t u v : State} {h g : Hcmd} {op : HostOp} {st : BitVec 16} {l : List Out} {r0 : Word} {r1 : DWord} {ps : List Part}

/-- The row of a journaled command on the entry with its opcode `b`. -/
theorem done_journaled {b : BitVec 8} (o : Offered op h s) (hf : op.static { h with opcode := b } = op.static h) (hp : s.sys.primary = true)
    (hi : s.insync = false) (k : Acts op { h with opcode := b } r0 r1 s v) (hv : OnlyChanges ps s v) (w : Within ps unreportedParts) :
    ∃ t l, done s (s.runCmd op { h with opcode := b }) = .next t ∧ Journaled h 0 l s v t := by
  obtain ⟨l, hl⟩ := runCmd_acts (offered_of_opcode o hf) hp hi k
  exact ⟨_, l, done_of_frame o.settled (OnlyChanges.trans (OnlyChanges.mono hv w) (OnlyChanges.mono hl.rest (within rfl))) (fun _ hp => hp),
    journaled_of_opcode hl⟩

theorem exec_varWrite (hw : s.writeWaits h = false) (hp : s.sys.primary = true) :
    exec (.varWrite h) s = done s (s.runCmd opVarWrite { h with opcode := 0x42 }) := by
  have hb : s.writeBlocked h = false := by rw [State.writeBlocked, hw, Bool.false_and]
  refine (if_neg (by rw [hb]; exact Bool.false_ne_true) : exec (.varWrite h) s = _).trans ?_
  rw [varWriteOp_primary hp]

theorem exec_loopWrite (hw : s.loopWriteWaits h = false) :
    exec (.loopWrite h) s = done s (s.runCmd opLoopWrite { h with opcode := 0x46 }) := by
  have hb : s.loopBlocked h = false := by rw [State.loopBlocked, hw, Bool.false_and]
  exact if_neg (by rw [hb]; exact Bool.false_ne_true)

theorem varWrite_blocked (hw : s.writeWaits h = true) (hs : varStatic true false { h with opcode := 0x42 } = none) :
    exec (.varWrite h) s = .next s := if_pos (by rw [State.writeBlocked, hw, hs]; rfl)

theorem loopWrite_blocked (hw : s.loopWriteWaits h = true) (hs : loopWriteStatic { h with opcode := 0x46 } = none) :
    exec (.loopWrite h) s = .next s := if_pos (by rw [State.loopBlocked, hw, hs]; rfl)

/-- What a cleared Tally shows in the state that follows. -/
theorem cleared_shows {r : Bool} {a b : Word} {k : Nat} (ht : t.tly = (s.applyClear r a b k).tly) :
    t.tly.clears = s.tly.clears + 1 ∧ t.tly.pages r = clearPages (s.tly.pages r) a b ∧ t.tly.pages (!r) = s.tly.pages (!r) := by
  have e : storedTally t.tly = storedTally (clearedTally r a b s.tly) := (congrArg storedTally ht).trans applyClear_stored
  exact ⟨(clears_of_stored e).trans clearedTally_clears, (pages_of_stored e).trans clearedTally_pages,
    (pages_of_stored e).trans clearedTally_pages_not⟩

/-- TALLY_CLEAR without a token, on the entry that its row runs. -/
theorem runClear_plain (o : Offered opClear h s) (hp : s.sys.primary = true) (hi : s.insync = false) (ht : hasToken h = false)
    (hc : s.checkClear h = .go) : ∃ t l, exec (.tallyClear h) s = .next t ∧ Completed h 0 l s t ∧ t.tly.clears = s.tly.clears + 1 ∧
    t.tly.pages (clearAudit h) = clearPages (s.tly.pages (clearAudit h)) (clearSeqs h).1 (clearSeqs h).2 ∧
    t.tly.pages (!clearAudit h) = s.tly.pages (!clearAudit h) ∧ t.hif.jseq = s.hif.jseq + 1 ∧ (t.win h.slot).high = h.reqId ∧
    OnlyChanges [.hif, .tly, .outbox] s t := by
  obtain ⟨l, k⟩ := runCmd_acts (offered_of_opcode (b := 0x0E) o rfl) hp hi (clear_acts hc)
  have hf : OnlyChanges [.hif, .tly, .outbox] s (s.runCmd opClear { h with opcode := 0x0E }) :=
    OnlyChanges.trans (applyClear_only (within rfl) OnlyChanges.refl) (OnlyChanges.mono k.rest (within rfl))
  obtain ⟨h1, h2, h3⟩ := cleared_shows (k.rest.same .tly (by decide))
  have he : exec (.tallyClear h) s = .next (s.runCmd opClear { h with opcode := 0x0E }) :=
    (congrArg (done s) (afterToken_of_go (h := { h with opcode := 0x0E }) hc ht)).trans (done_of_frame o.settled hf (within rfl))
  exact ⟨_, l, he, completed_of_opcode k.completed, h1, h2, h3, k.number, k.window, hf⟩

/-- TALLY_CLEAR with a token that passes. -/
theorem runClear_token (o : Offered opClear h s) (hp : s.sys.primary = true) (hi : s.insync = false) (ht : hasToken h = true)
    (hc : s.checkClear h = .go) : ∃ t l, exec (.tallyClear h) s = .next t ∧ Completed h 0 l s t ∧
    (t.tly.clears = s.tly.clears + 1 ∧
      t.tly.pages (clearAudit h) = clearPages (s.tly.pages (clearAudit h)) (clearSeqs h).1 (clearSeqs h).2) ∧
    t.tly.pages (!clearAudit h) = s.tly.pages (!clearAudit h) ∧ t.hif.jseq = s.hif.jseq + 1 ∧ (t.win h.slot).high = h.reqId ∧
    t.freeN = s.freeN + 1 ∧ OnlyChanges [.hif, .tly, .outbox, .freeN] s t := by
  have og := offered_of_opcode (b := 0x0E) o rfl
  obtain ⟨l, k⟩ := runCmd_acts og hp hi (clear_acts hc)
  have hf : OnlyChanges [.hif, .tly, .outbox, .freeN] s (s.runCmd opClear { h with opcode := 0x0E }).newNonce :=
    newNonce_only (within rfl) (OnlyChanges.trans (applyClear_only (within rfl) OnlyChanges.refl) (OnlyChanges.mono k.rest (within rfl)))
  have hfree : (s.runCmd opClear { h with opcode := 0x0E }).freeN = s.freeN :=
    (k.rest.same .freeN (by decide)).trans ((applyClear_only (within rfl) OnlyChanges.refl : OnlyChanges [.tly] s _).same .freeN (by decide))
  obtain ⟨h1, h2, h3⟩ := cleared_shows (k.rest.same .tly (by decide))
  obtain ⟨hcm, hj, hw⟩ := k.after (newNonce_only (within rfl) OnlyChanges.refl)
  have he : exec (.tallyClear h) s = .next (s.runCmd opClear { h with opcode := 0x0E }).newNonce :=
    (congrArg (done s) (afterToken_of_token og hp hc ht)).trans (done_of_frame o.settled hf (within rfl))
  have hpages : ∀ {u : State} {r : Bool}, u.newNonce.tly.pages r = u.tly.pages r := fun {u r} => by cases r <;> rfl
  exact ⟨_, l, he, completed_of_opcode hcm, ⟨h1, hpages.trans h2⟩, hpages.trans h3, hj, hw, congrArg (· + 1) hfree, hf⟩

/-- TALLY_CLEAR with a token that a check on state refuses. -/
theorem runClear_refused {w : Word} (o : Offered opClear h s) (hp : s.sys.primary = true) (hi : s.insync = false) (ht : hasToken h = true)
    (hc : s.checkClear h = .no st w) : ∃ t l, exec (.tallyClear h) s = .next t ∧ Completed h st l s t ∧
    (∀ r, t.tly.pages r = s.tly.pages r) ∧ t.hif.jseq = s.hif.jseq + 1 ∧ (t.win h.slot).high = h.reqId ∧
    t.freeN = s.freeN + 1 ∧ OnlyChanges [.hif, .tly, .outbox, .freeN] s t := by
  have og := offered_of_opcode (b := 0x0E) o rfl
  obtain ⟨l, k⟩ := runCmd_refused og hp (by decide) hi hc (checkClear_status hc)
  have hf : OnlyChanges [.hif, .tly, .outbox, .freeN] s (s.runCmd opClear { h with opcode := 0x0E }).newNonce.clearRefused :=
    clearRefused_only (within rfl) (newNonce_only (within rfl) (OnlyChanges.mono k.rest (within rfl)))
  obtain ⟨hcm, hj, hw⟩ := k.after (clearRefused_only (within rfl) (newNonce_only (within rfl) OnlyChanges.refl))
  have he : exec (.tallyClear h) s = .next (s.runCmd opClear { h with opcode := 0x0E }).newNonce.clearRefused :=
    (congrArg (done s) (afterToken_of_no og hp hc ht)).trans (done_of_frame o.settled hf (within rfl))
  have hpages : ∀ {u : State} {r : Bool}, u.newNonce.clearRefused.tly.pages r = u.tly.pages r := fun {u r} => by cases r <;> rfl
  exact ⟨_, l, he, completed_of_opcode hcm, fun r => hpages.trans (congrArg (fun t : Tly => t.pages r) (k.rest.same .tly (by decide))), hj, hw,
    congrArg (· + 1) (k.rest.same .freeN (by decide)), hf⟩

/-! VAR_READ and LOOP_READ. -/

theorem varRead_reads (hc : s.checkRead h = .go) (hw : s.readWaits (classOf h) = false) :
    Reads opVarRead h (s.varNow h) (BitVec.ofNat 32 (elemsOf false h).length) (s.readCyc (classOf h)) s :=
  ⟨rfl, fun _ => hc, fun _ => if_neg (fun e => absurd (hw.symm.trans e) Bool.false_ne_true)⟩

theorem loopRead_reads (hc : s.checkLoops h = .go) (hw : s.loopReadWaits = false) :
    Reads opLoopRead h (loopReturn ((loopElems h).map fun b => s.loopRecord (slotOf b))) (BitVec.ofNat 32 (loopElems h).length) 0 s :=
  ⟨rfl, fun _ => hc, fun _ => if_neg (fun e => absurd (hw.symm.trans e) Bool.false_ne_true)⟩

/-- A class N command whose effect only waits. -/
theorem runCmd_holds (o : Offered op h s) (hd : op.dur = .n) (hc : ∀ x, op.check h { s with hif := x } = .go)
    (he : ∀ x, op.effect h { s with hif := x } = { s := { s with hif := x }, wait := true }) :
    Waiting h s (s.runCmd op h) ∧ (∀ n, n ≠ h.slot → (s.runCmd op h).ring n = s.ring n) ∧ OnlyChanges [.hif, .outbox] s (s.runCmd op h) := by
  obtain ⟨x, e, hrun⟩ := runCmd_waits o hd (fun x _ => hc x) fun x _ => by rw [he]
  rw [he] at hrun
  have hown : (s.runCmd op h).ring h.slot = { x.rings.look h.slot {} with infl := some { cmd := h } } := by
    rw [hrun, ring_updRing]
    rfl
  refine ⟨⟨⟨{ cmd := h }, by rw [hown], rfl, rfl⟩, ?_⟩, fun n hn => ?_, ?_⟩
  · rw [hown]
    exact (congrArg Ring.sqHead e.ring :)
  · rw [hrun, ring_updRing_ne _ hn]
    exact e.others n hn
  · rw [hrun]
    exact updRing_only (within rfl) (OnlyChanges.mono (hif_frame x) (within rfl))

/-- Settles O16: each of these commands acts on its own part of the state, so the journal, the window and the completion stand beside it. -/
theorem journaledCommandsTakeEffectAndComplete : Obligations.JournaledCommandsTakeEffectAndComplete := by
  refine ⟨fun s h o hp hi hw hc hd => ?_, fun s h o hp hi hw hc hd => ?_, fun s h hw hs => varWrite_blocked hw hs, fun s h o hp hi hc => ?_,
    fun s h o hp hi hc => ?_, fun s h o hp hi hw hc => ?_, fun s h hw hs => loopWrite_blocked hw hs,
    fun s h o hp hi ht hc => runClear_plain o hp hi ht hc, fun s h o hp hi ht => ?_, fun s h o hc hr hw => ?_, fun s h o hc hw => ?_,
    fun s h o hc hr hw => ?_, fun s h o hc hw => ?_⟩
  case refine_1 =>
    have hf : OnlyChanges [.cyc] s (s.updMem (classOf h) fun m => { m with pendWr := m.pendWr ++ elemsOf true h }) :=
      updMem_only (within rfl) OnlyChanges.refl
    obtain ⟨t, l, he, k⟩ := done_journaled (b := 0x42) o rfl hp hi (varWrite_pends hc hd) hf (within rfl)
    have hcyc : t.cyc = (s.updMem (classOf h) fun m => { m with pendWr := m.pendWr ++ elemsOf true h }).cyc := k.rest.same .cyc (by decide)
    refine ⟨t, l, (exec_varWrite hw hp).trans he, k.completed, ?_, fun c hne => ?_, ?_, k.number, k.window,
      OnlyChanges.trans (OnlyChanges.mono hf (within rfl)) (OnlyChanges.mono k.rest (within rfl))⟩
    · rw [State.cmem, hcyc]
      exact cmem_updMem ..
    · rw [State.cmem, hcyc]
      exact cmem_updMem_ne _ hne
    · rw [hcyc]
      rfl
  case refine_2 =>
    have hf : OnlyChanges [.cyc] s ((elemsOf true h).foldl (fun (u : State) e => u.pokeNow e) s) :=
      OnlyChanges.foldl OnlyChanges.refl fun _ _ k => pokeNow_only (within rfl) k
    obtain ⟨t, l, he, k⟩ := done_journaled (b := 0x42) o rfl hp hi (varWrite_pokes hc hd) hf (within rfl)
    exact ⟨t, l, (exec_varWrite hw hp).trans he, k.completed, k.rest.same .cyc (by decide), k.number, k.window,
      OnlyChanges.trans (OnlyChanges.mono hf (within rfl)) (OnlyChanges.mono k.rest (within rfl))⟩
  case refine_3 =>
    obtain ⟨t, l, he, k⟩ := done_journaled (b := 0x43) o rfl hp hi (forceSet_acts hc) setForces_frame (within rfl)
    have hcyc : t.cyc = (s.setForces (classOf h) (elemsOf true h)).cyc := k.rest.same .cyc (by decide)
    refine ⟨t, l, he, k.completed, hcyc.trans setForces_cyc, fun e hl => ?_, k.number, k.window,
      OnlyChanges.trans (OnlyChanges.mono setForces_frame (within rfl)) (OnlyChanges.mono k.rest (within rfl))⟩
    rw [hcyc]
    exact setForces_last hl
  case refine_4 =>
    obtain ⟨t, l, he, k⟩ := done_journaled (b := 0x44) o rfl hp hi (forceClear_acts hc) clearForces_frame (within rfl)
    have hcyc : t.cyc = (clearForces (classOf h) (elemsOf false h) s).cyc := k.rest.same .cyc (by decide)
    refine ⟨t, l, he, k.completed, ?_, fun f => ?_, k.number, k.window,
      OnlyChanges.trans (OnlyChanges.mono clearForces_frame (within rfl)) (OnlyChanges.mono k.rest (within rfl))⟩
    · rw [hcyc]
      exact clearForces_cyc
    · rw [hcyc]
      exact mem_clearForces
  case refine_5 =>
    obtain ⟨t, l, he, k⟩ := done_journaled (b := 0x46) o rfl hp hi (loopWrite_acts hc) loopWrite_frame (within rfl)
    have hcle : t.cle = (s.loopWrite h).cle := k.rest.same .cle (by decide)
    refine ⟨t, l, (exec_loopWrite hw).trans he, k.completed, hcle, fun n hn => ?_, k.number, k.window,
      OnlyChanges.trans (OnlyChanges.mono loopWrite_frame (within rfl)) (OnlyChanges.mono k.rest (within rfl))⟩
    rw [State.loop, hcle]
    exact loopWrite_loop hn
  case refine_6 =>
    cases hc : s.checkClear h with
    | go =>
      obtain ⟨t, l, he, hk, hcl, hpn, hrest⟩ := runClear_token o hp hi ht hc
      exact ⟨t, l, 0, he, hk, fun _ => rfl, fun _ _ e => Verdict.noConfusion e, fun _ => hcl, hpn, hrest⟩
    | no st w =>
      obtain ⟨t, l, he, hk, hpg, hrest⟩ := runClear_refused o hp hi ht hc
      refine ⟨t, l, st, he, hk, fun e => Verdict.noConfusion e, fun x r e => ?_, fun e => Verdict.noConfusion e, hpg _, hrest⟩
      cases e
      exact ⟨rfl, hpg _⟩
  case refine_7 =>
    obtain ⟨t, l, he, k⟩ := done_replied (g := { h with opcode := 0x41 }) o rfl rfl rfl rfl rfl (varRead_reads hc hw) (.inr hr)
    exact ⟨t, l, he, k.completed, k.data (by simp [State.varNow, State.varReturn]), k.frame⟩
  case refine_8 =>
    obtain ⟨hk, ho, hf⟩ := runCmd_holds (offered_of_opcode (b := 0x41) o rfl) rfl (fun _ => hc) fun _ => if_pos hw
    exact ⟨_, done_of_frame o.settled hf (within rfl), waiting_of_opcode hk, ho, hf⟩
  case refine_9 =>
    obtain ⟨t, l, he, k⟩ := done_replied (g := { h with opcode := 0x45 }) o rfl rfl rfl rfl rfl (loopRead_reads hc hw) (.inr hr)
    exact ⟨t, l, he, k.completed, k.data (by simp [loopReturn, padTo, le]), k.frame⟩
  case refine_10 =>
    obtain ⟨hk, ho, hf⟩ := runCmd_holds (offered_of_opcode (b := 0x45) o rfl) rfl (fun _ => hc) fun _ => if_pos hw
    exact ⟨_, done_of_frame o.settled hf (within rfl), waiting_of_opcode hk, ho, hf⟩

end Sys2Proof.Proofs
end

section
/-! A ring that halts (spec/04_host_rings.md R99, R100, R119), and a write that reaches no doorbell (R66). -/

namespace Sys2Proof.Proofs

open Sys2Proof.Machine Sys2Proof.Safety Sys2Proof.Laws

variable {s t u : State} {n m c idx off : Nat}

/-- The host interface without what an event changes: the event ring, its counts and the pending vectors. -/
def eventless (x : Hif) : Hif := { x with ev := {}, evSeq := 0, evtLost := 0, evLoss := false, msixPend := [] }

theorem msix_eventless {v : Nat} : eventless (s.msix v).hif = eventless s.hif := by
  unfold State.msix
  split <;> rfl

theorem event_eventless {code : BitVec 16} {sev : Nat} {w : Word} {d : List Byte} :
    eventless (s.event code sev w d).hif = eventless s.hif := by
  unfold State.event
  split
  · rfl
  · dsimp only
    split
    · rfl
    · exact msix_eventless

/-- An event for a halted event ring is counted as lost. -/
theorem event_halted {code : BitVec 16} {sev : Nat} {w : Word} {d : List Byte} (hh : s.hif.ev.halted = true) :
    (s.event code sev w d).hif.ev = s.hif.ev ∧ (s.event code sev w d).outbox = s.outbox := by
  unfold State.event
  split
  · exact ⟨rfl, rfl⟩
  · dsimp only
    rw [hh, Bool.true_or, if_pos rfl]
    exact ⟨rfl, rfl⟩

/-- HIF_ERRINFO names the ring, the cause and, but for cause 3, the value. -/
def haltWord (n c idx : Nat) : Word := wordOf [(0, n), (8, c), (16, if c = 3 then 0 else idx)]

theorem log_hif {code sev : Nat} {d : List Byte} : (s.log code sev d).hif = s.hif :=
  (log_only (within rfl) OnlyChanges.refl : OnlyChanges [.tly] s _).same .hif (by decide)

/-- Ring `n` halted with its cause, before the record and the event that say so. -/
def haltedRing (n c idx : Nat) (s : State) : State :=
  { s with hif := { (s.updRing n fun r => { r with halted := true }).hif with errInfo := haltWord n c idx } }

/-- The record and the event that tell of a halted ring. -/
def tellHalt (n c idx : Nat) (s : State) : State :=
  (s.log 0x0101 4 ([BitVec.ofNat 8 n, BitVec.ofNat 8 c] ++ le 2 (if c = 3 then 0 else idx))).event 5 4 (BitVec.ofNat 32 n) [BitVec.ofNat 8 c]

theorem tellHalt_eventless : eventless (tellHalt n c idx s).hif = eventless s.hif := by
  unfold tellHalt
  rw [event_eventless, log_hif]

theorem haltRing_haltedRing (hn : n ≠ 17) : s.haltRing n c idx = tellHalt n c idx (haltedRing n c idx s) := by
  unfold State.haltRing
  rw [if_neg hn]
  rfl

theorem haltRing_eventless (hn : n ≠ 17) : eventless (s.haltRing n c idx).hif = eventless (haltedRing n c idx s).hif := by
  rw [haltRing_haltedRing hn, tellHalt_eventless]

theorem rings_of_eventless {x y : Hif} (e : eventless x = eventless y) : x.rings = y.rings := (congrArg Hif.rings e :)

theorem errInfo_of_eventless {x y : Hif} (e : eventless x = eventless y) : x.errInfo = y.errInfo := (congrArg Hif.errInfo e :)

theorem haltRing_rings (hn : n ≠ 17) : (s.haltRing n c idx).hif.rings = (s.updRing n fun r => { r with halted := true }).hif.rings :=
  (rings_of_eventless (haltRing_eventless hn)).trans rfl

theorem haltRing_ring (hn : n ≠ 17) : (s.haltRing n c idx).ring n = { s.ring n with halted := true } :=
  (congrArg (fun t : Tab Ring => t.look n {}) (haltRing_rings hn)).trans (ring_updRing ..)

theorem haltRing_ring_ne (hn : n ≠ 17) (hm : m ≠ n) : (s.haltRing n c idx).ring m = s.ring m :=
  (congrArg (fun t : Tab Ring => t.look m {}) (haltRing_rings hn)).trans (ring_updRing_ne _ hm)

theorem haltRing_errInfo (hn : n ≠ 17) : (s.haltRing n c idx).hif.errInfo = haltWord n c idx := by
  have e := errInfo_of_eventless (haltRing_eventless (s := s) (c := c) (idx := idx) hn)
  exact e

theorem haltRing_frame : OnlyChanges [.hif, .tly, .outbox] s (s.haltRing n c idx) := haltRing_only (within rfl) OnlyChanges.refl

theorem haltRing_sends : s.outbox <+: (s.haltRing n c idx).outbox := (haltRing_serves .refl).sent

/-- The event ring halted with its cause, before the record and the event that say so. -/
def evHalted (c idx : Nat) (s : State) : State :=
  { s with hif := { s.hif with ev := { s.hif.ev with halted := true }, errInfo := haltWord 17 c idx } }

theorem haltRing_evHalted : s.haltRing 17 c idx = tellHalt 17 c idx (evHalted c idx s) := rfl

theorem tellHalt_halted (hh : s.hif.ev.halted = true) : (tellHalt n c idx s).hif.ev = s.hif.ev ∧ (tellHalt n c idx s).outbox = s.outbox := by
  have hlog : ∀ {code sev : Nat} {d : List Byte}, (s.log code sev d).outbox = s.outbox := fun {code sev d} =>
    (log_only (within rfl) OnlyChanges.refl : OnlyChanges [.tly] s _).same .outbox (by decide)
  unfold tellHalt
  obtain ⟨hev, hout⟩ := event_halted (s := s.log 0x0101 4 ([BitVec.ofNat 8 n, BitVec.ofNat 8 c] ++ le 2 (if c = 3 then 0 else idx)))
    (code := 5) (sev := 4) (w := BitVec.ofNat 32 n) (d := [BitVec.ofNat 8 c]) (by rw [log_hif, hh])
  exact ⟨hev.trans (congrArg Hif.ev log_hif), hout.trans hlog⟩

/-- The event ring halts: the event that says so is lost with it. -/
theorem haltRing_event : (s.haltRing 17 c idx).hif.ev = { s.hif.ev with halted := true } ∧ (∀ m, (s.haltRing 17 c idx).ring m = s.ring m) ∧
    (s.haltRing 17 c idx).hif.errInfo = haltWord 17 c idx ∧ OnlyChanges [.hif, .tly] s (s.haltRing 17 c idx) := by
  have hk := haltRing_frame (s := s) (n := 17) (c := c) (idx := idx)
  rw [haltRing_evHalted] at hk ⊢
  obtain ⟨hev, hout⟩ := tellHalt_halted (s := evHalted c idx s) (n := 17) (c := c) (idx := idx) rfl
  have hq : eventless (tellHalt 17 c idx (evHalted c idx s)).hif = eventless (evHalted c idx s).hif := tellHalt_eventless
  have hr := rings_of_eventless hq
  have he := errInfo_of_eventless hq
  refine ⟨hev, fun m => congrArg (fun t : Tab Ring => t.look m {}) hr, he, ⟨fun p hp => ?_⟩⟩
  by_cases hb : p = .outbox
  · subst hb
    exact hout
  · exact hk.same p (by simp_all)

end Sys2Proof.Proofs
end

section
/-! Doorbells (spec/04_host_rings.md R98, R99, R100). -/

namespace Sys2Proof.Proofs

open Sys2Proof.Machine Sys2Proof.Safety Sys2Proof.Laws

variable {s t u : State} {n m p k c idx off : Nat} {v : Word} {be : BitVec 4} {i : Infl}

/-! A write to BAR2. -/

theorem bar2Write_outside (h : 256 ≤ p ∨ 0x1000 ≤ k) : s.bar2Write p k v be = .fault .outsideBar := if_pos h

theorem bar2Write_inside (hp : p < 256) (hk : k < 0x1000) : ¬ (256 ≤ p ∨ 0x1000 ≤ k) := by omega

theorem bar2Write_unaligned (hp : p < 256) (hk : k < 0x1000) (ha : k % 4 ≠ 0) : s.bar2Write p k v be = .fault .notWordAligned :=
  (if_neg (bar2Write_inside hp hk)).trans (if_pos ha)

theorem bar2Write_reached (hp : p < 256) (hk : k < 0x1000) (ha : k % 4 = 0) (hr : s.reach = true) : s.bar2Write p k v be =
    if be ≠ 15 then done s (s.partialWr (p * 0x1000 + k) true) else done s (s.doorbell p k v) :=
  (if_neg (bar2Write_inside hp hk)).trans ((if_neg (not_not.mpr ha)).trans (if_neg (by rw [hr]; decide)))

theorem bar2Write_full (hp : p < 256) (hk : k < 0x1000) (ha : k % 4 = 0) (hr : s.reach = true) :
    s.bar2Write p k v 15 = done s (s.doorbell p k v) := (bar2Write_reached hp hk ha hr).trans (if_neg (not_not.mpr rfl))

theorem bar2Write_partial (hp : p < 256) (hk : k < 0x1000) (ha : k % 4 = 0) (hr : s.reach = true) (hb : be ≠ 15) :
    s.bar2Write p k v be = done s (s.partialWr (p * 0x1000 + k) true) := (bar2Write_reached hp hk ha hr).trans (if_pos hb)

/-! A write that is counted only. -/

theorem faultRec_unreported : Unreported s (s.faultRec c off) := by
  have e := faultRec_sys (s := s) c off
  generalize hw : (s.faultRec c off).sys.warned = w at e
  generalize hf : (s.faultRec c off).sys.further = f at e
  refine ⟨faultRec_only (within rfl) OnlyChanges.refl, ?_, ?_, ?_, ?_, ?_, fun h => ?_⟩ <;> rw [e]
  exact h

/-- The system block `x`, but for the bookkeeping of the access-fault record, and the record: nothing follows. -/
theorem done_faultRec {x : Sys} (h : Settled s) (hx : Unreported s { s with sys := x }) :
    ∃ t, done s (State.faultRec c off { s with sys := x }) = .next t ∧ t.sys = { x with warned := t.sys.warned, further := t.sys.further } ∧
    OnlyChanges [.sys, .tly] s t :=
  ⟨_, (hx.trans faultRec_unreported).done_eq h, faultRec_sys (s := { s with sys := x }) c off,
    faultRec_only (within rfl) (OnlyChanges.mono (sys_frame x) (within rfl))⟩

theorem sys_unreported {x : Sys} (hm : x.mode = s.sys.mode) (hp : x.primary = s.sys.primary) (ht : x.parTrip = s.sys.parTrip)
    (hh : x.hostLost = s.sys.hostLost) (hc : x.haltCause = s.sys.haltCause) (hq : x.preempted = s.sys.preempted) :
    Unreported s { s with sys := x } :=
  ⟨OnlyChanges.mono (sys_frame x) (within rfl), hm, hp, ht, hh, hc, fun e => hq.trans e⟩

theorem partialWr_bar2 (h : Settled s) : ∃ t, done s (s.partialWr off true) = .next t ∧
    t.sys = { s.sys with partial_ := s.sys.partial_ + 1, accAddr := wordOf [(2, off / 4 % 2 ^ 22), (24, 1)]
                         warned := t.sys.warned, further := t.sys.further } ∧ OnlyChanges [.sys, .tly] s t :=
  done_faultRec (c := 1) (x := { s.sys with partial_ := s.sys.partial_ + 1, accAddr := wordOf [(2, off / 4 % 2 ^ 22), (24, 1)] }) h
    (sys_unreported rfl rfl rfl rfl rfl rfl)

theorem unassignedWr_bar2 (h : Settled s) : ∃ t, done s (s.unassignedWr off true) = .next t ∧
    t.sys = { s.sys with unassigned := s.sys.unassigned + 1, accAddr := wordOf [(2, off / 4 % 2 ^ 22), (24, 1)]
                         warned := t.sys.warned, further := t.sys.further } ∧ OnlyChanges [.sys, .tly] s t :=
  done_faultRec (c := 2) (x := { s.sys with unassigned := s.sys.unassigned + 1, accAddr := wordOf [(2, off / 4 % 2 ^ 22), (24, 1)] }) h
    (sys_unreported rfl rfl rfl rfl rfl rfl)

/-! The doorbell that a word of BAR2 is (R98). -/

theorem slotLive_ring (hp : p < 17) : s.slotLive p = (s.ring p).live := if_neg (by omega)

theorem doorbell_live (hp : p < 17) (hl : (s.ring p).live = true) : ¬ (17 < p ∨ s.slotLive p = false) := by
  rintro (h | h)
  · omega
  · cases (slotLive_ring hp ▸ h).symm.trans hl

theorem doorbell_submission (hp : p < 17) (hl : (s.ring p).live = true) : s.doorbell p 0 v = s.sqDoorbell p v :=
  (if_neg (doorbell_live hp hl)).trans (if_pos ⟨rfl, hp⟩)

theorem doorbell_completion (hp : p < 17) (hl : (s.ring p).live = true) : s.doorbell p 4 v = s.cqDoorbell p v :=
  (if_neg (doorbell_live hp hl)).trans ((if_neg (fun e => nomatch e.1)).trans ((if_pos rfl).trans (if_neg (by omega))))

theorem doorbell_event (hl : s.hif.ev.live = true) : s.doorbell 17 4 v = s.evDoorbell v := by
  have hn : ¬ (17 < 17 ∨ s.slotLive 17 = false) := by
    rw [show s.slotLive 17 = s.hif.ev.live from if_pos rfl, hl]
    decide
  exact (if_neg hn).trans rfl

theorem doorbell_unassigned (h : 17 < p ∨ s.slotLive p = false ∨ (k ≠ 0 ∧ k ≠ 4) ∨ (p = 17 ∧ k = 0)) :
    s.doorbell p k v = s.unassignedWr (p * 0x1000 + k) true := by
  by_cases hl : 17 < p ∨ s.slotLive p = false
  · exact if_pos hl
  · have hk : k ≠ 4 ∧ ¬ (k = 0 ∧ p < 17) := by
      rcases h with h | h | h | h
      · exact absurd (.inl h) hl
      · exact absurd (.inr h) hl
      · omega
      · omega
    exact (if_neg hl).trans ((if_neg hk.2).trans (if_neg hk.1))

/-! The value of a doorbell (R99). -/

/-- The cause that a submission doorbell of `v` shows on ring `r`. -/
def sqCause (r : Ring) (v : Word) : Option Nat := doorbellCause r.sqK r.tail (ringDist r.sqK r.tail (r.sqHead + 2 ^ r.sqK - 1)) 2 v

/-- The cause that a completion doorbell of `v` shows on ring `r`. -/
def cqCause (r : Ring) (v : Word) : Option Nat := doorbellCause r.cqK r.headDb (ringDist r.cqK r.headDb r.cqTail) 5 v

/-- The cause that a doorbell of the event ring shows. -/
def evCause (e : EvRing) (v : Word) : Option Nat := doorbellCause e.k e.headDb (ringDist e.k e.headDb e.tail) 5 v

/-- `s` with the value of a submission doorbell kept. -/
def sqKept (p : Nat) (v : Word) (s : State) : State := s.updRing p fun r => { r with sqDb := v }

/-- `s` with the value of a completion doorbell kept. -/
def cqKept (p : Nat) (v : Word) (s : State) : State := s.updRing p fun r => { r with cqDb := v }

/-- `s` with the value of the event ring's doorbell kept. -/
def evKept (v : Word) (s : State) : State := { s with hif := { s.hif with ev := { s.hif.ev with cqDb := v } } }

theorem sqDoorbell_halted (hh : (s.ring p).halted = true) : s.sqDoorbell p v = sqKept p v s := if_pos hh

theorem cqDoorbell_halted (hh : (s.ring p).halted = true) : s.cqDoorbell p v = cqKept p v s := if_pos hh

theorem sqDoorbell_moves (hh : (s.ring p).halted = false) (hc : sqCause (s.ring p) v = none) :
    s.sqDoorbell p v = (sqKept p v s).updRing p fun r => { r with tail := v.toNat % 2 ^ 16 } := by
  unfold sqCause at hc
  unfold State.sqDoorbell
  dsimp only
  rw [hh, hc]
  rfl

theorem cqDoorbell_moves (hh : (s.ring p).halted = false) (hc : cqCause (s.ring p) v = none) :
    s.cqDoorbell p v = (cqKept p v s).updRing p fun r => { r with headDb := v.toNat % 2 ^ 16 } := by
  unfold cqCause at hc
  unfold State.cqDoorbell
  dsimp only
  rw [hh, hc]
  rfl

theorem evDoorbell_moves (hh : s.hif.ev.halted = false) (hc : evCause s.hif.ev v = none) : s.evDoorbell v =
    { s with hif := { s.hif with ev := { s.hif.ev with cqDb := v, headDb := v.toNat % 2 ^ 16 } } } := by
  unfold evCause at hc
  unfold State.evDoorbell
  dsimp only
  rw [hh, hc]
  rfl

theorem sqDoorbell_halts (hh : (s.ring p).halted = false) (hc : sqCause (s.ring p) v = some c) :
    s.sqDoorbell p v = (sqKept p v s).haltDoorbell p c (v.toNat % 2 ^ 16) := by
  unfold sqCause at hc
  unfold State.sqDoorbell
  dsimp only
  rw [hh, hc]
  rfl

theorem cqDoorbell_halts (hh : (s.ring p).halted = false) (hc : cqCause (s.ring p) v = some c) : s.cqDoorbell p v =
    ((cqKept p v s).haltDoorbell p c (v.toNat % 2 ^ 16)).updRing p fun r => { r with cqHalt := true } := by
  unfold cqCause at hc
  unfold State.cqDoorbell
  dsimp only
  rw [hh, hc]
  rfl

theorem evDoorbell_halts (hh : s.hif.ev.halted = false) (hc : evCause s.hif.ev v = some c) :
    s.evDoorbell v = (evKept v s).haltRing 17 c (v.toNat % 2 ^ 16) := by
  unfold evCause at hc
  unfold State.evDoorbell
  dsimp only
  rw [hh, hc]
  rfl

/-- A ring whose command is being recorded, or that has none, halts as it is. -/
theorem haltDoorbell_of_begun (hb : ∀ i, (s.ring n).infl = some i → i.begun = true) : s.haltDoorbell n c idx = s.haltRing n c idx := by
  unfold State.haltDoorbell
  cases hi : (s.ring n).infl with
  | none => rw [abortInfl_of_none hi]
  | some i => rw [abortInfl_of_begun hi (hb i hi)]

theorem sqKept_ring : (sqKept p v s).ring p = { s.ring p with sqDb := v } := ring_updRing ..

theorem sqKept_ring_ne (hm : m ≠ p) : (sqKept p v s).ring m = s.ring m := ring_updRing_ne _ hm

theorem cqKept_ring : (cqKept p v s).ring p = { s.ring p with cqDb := v } := ring_updRing ..

theorem cqKept_ring_ne (hm : m ≠ p) : (cqKept p v s).ring m = s.ring m := ring_updRing_ne _ hm

theorem sqKept_frame : OnlyChanges [.hif] s (sqKept p v s) := updRing_only (within rfl) OnlyChanges.refl

theorem cqKept_frame : OnlyChanges [.hif] s (cqKept p v s) := updRing_only (within rfl) OnlyChanges.refl

/-! What a doorbell of a ring leads to. -/

theorem sqDoorbell_moved (hh : (s.ring p).halted = false) (hc : sqCause (s.ring p) v = none) :
    (s.sqDoorbell p v).ring p = { s.ring p with sqDb := v, tail := v.toNat % 2 ^ 16 } ∧
    (∀ n, n ≠ p → (s.sqDoorbell p v).ring n = s.ring n) ∧ OnlyChanges [.hif] s (s.sqDoorbell p v) := by
  rw [sqDoorbell_moves hh hc]
  refine ⟨?_, fun n hn => ?_, updRing_only (within rfl) sqKept_frame⟩
  · rw [ring_updRing, sqKept_ring]
  · rw [ring_updRing_ne _ hn, sqKept_ring_ne hn]

theorem cqDoorbell_moved (hh : (s.ring p).halted = false) (hc : cqCause (s.ring p) v = none) :
    (s.cqDoorbell p v).ring p = { s.ring p with cqDb := v, headDb := v.toNat % 2 ^ 16 } ∧
    (∀ n, n ≠ p → (s.cqDoorbell p v).ring n = s.ring n) ∧ OnlyChanges [.hif] s (s.cqDoorbell p v) := by
  rw [cqDoorbell_moves hh hc]
  refine ⟨?_, fun n hn => ?_, updRing_only (within rfl) cqKept_frame⟩
  · rw [ring_updRing, cqKept_ring]
  · rw [ring_updRing_ne _ hn, cqKept_ring_ne hn]

theorem sqDoorbell_stops (hp : p < 17) (hh : (s.ring p).halted = false) (hb : ∀ i, (s.ring p).infl = some i → i.begun = true)
    (hc : sqCause (s.ring p) v = some c) : (s.sqDoorbell p v).ring p = { s.ring p with sqDb := v, halted := true } ∧
    (∀ n, n ≠ p → (s.sqDoorbell p v).ring n = s.ring n) ∧ (s.sqDoorbell p v).hif.errInfo = haltWord p c (v.toNat % 2 ^ 16) ∧
    OnlyChanges [.hif, .tly, .outbox] s (s.sqDoorbell p v) := by
  have h17 : p ≠ 17 := by omega
  rw [sqDoorbell_halts hh hc, haltDoorbell_of_begun fun i hi => hb i (by rw [sqKept_ring] at hi; exact hi)]
  refine ⟨?_, fun n hn => ?_, haltRing_errInfo h17, OnlyChanges.trans (OnlyChanges.mono sqKept_frame (within rfl)) haltRing_frame⟩
  · rw [haltRing_ring h17, sqKept_ring]
  · rw [haltRing_ring_ne h17 hn, sqKept_ring_ne hn]

theorem cqDoorbell_stops (hp : p < 17) (hh : (s.ring p).halted = false) (hb : ∀ i, (s.ring p).infl = some i → i.begun = true)
    (hc : cqCause (s.ring p) v = some c) : (s.cqDoorbell p v).ring p = { s.ring p with cqDb := v, halted := true, cqHalt := true } ∧
    (∀ n, n ≠ p → (s.cqDoorbell p v).ring n = s.ring n) ∧ (s.cqDoorbell p v).hif.errInfo = haltWord p c (v.toNat % 2 ^ 16) ∧
    OnlyChanges [.hif, .tly, .outbox] s (s.cqDoorbell p v) := by
  have h17 : p ≠ 17 := by omega
  rw [cqDoorbell_halts hh hc, haltDoorbell_of_begun fun i hi => hb i (by rw [cqKept_ring] at hi; exact hi)]
  refine ⟨?_, fun n hn => ?_, haltRing_errInfo (s := cqKept p v s) h17,
    updRing_only (within rfl) (OnlyChanges.trans (OnlyChanges.mono cqKept_frame (within rfl)) haltRing_frame)⟩
  · rw [ring_updRing, haltRing_ring h17, cqKept_ring]
  · rw [ring_updRing_ne _ hn, haltRing_ring_ne h17 hn, cqKept_ring_ne hn]

theorem evDoorbell_stops (hh : s.hif.ev.halted = false) (hc : evCause s.hif.ev v = some c) :
    (s.evDoorbell v).hif.ev = { s.hif.ev with cqDb := v, halted := true } ∧ (∀ n, (s.evDoorbell v).ring n = s.ring n) ∧
    (s.evDoorbell v).hif.errInfo = haltWord 17 c (v.toNat % 2 ^ 16) ∧ OnlyChanges [.hif, .tly] s (s.evDoorbell v) := by
  rw [evDoorbell_halts hh hc]
  obtain ⟨hev, hr, he, hk⟩ := haltRing_event (s := evKept v s) (c := c) (idx := v.toNat % 2 ^ 16)
  exact ⟨hev, hr, he, OnlyChanges.trans (OnlyChanges.mono (hif_frame (evKept v s).hif) (within rfl)) hk⟩

/-- A doorbell that halts its ring gives up a command whose recording has not begun. -/
theorem sqDoorbell_aborts (hp : p < 17) (hh : (s.ring p).halted = false) (hi : (s.ring p).infl = some i) (hb : i.begun = false)
    (hs : i.cmd.slot = p) (hq : i.cmd.cqeOk = true) (hcq : (s.ring p).cqHalt = false) (hd : (s.ring p).deleting = false)
    (hc : sqCause (s.ring p) v = some c) : ∃ q, Out.cqe p q ∈ (s.sqDoorbell p v).outbox ∧ q.reqId = i.cmd.reqId ∧ q.status = 0x000F ∧
    ((s.sqDoorbell p v).ring p).infl = none ∧ ((s.sqDoorbell p v).ring p).halted = true ∧
    ((s.sqDoorbell p v).ring p).tail = (s.ring p).tail ∧ (∀ n, n ≠ p → (s.sqDoorbell p v).ring n = s.ring n) ∧
    Unreported s (s.sqDoorbell p v) ∧ OnlyChanges [.sys, .hif, .chg, .dpx2, .boot, .tly, .outbox] s (s.sqDoorbell p v) := by
  have h17 : p ≠ 17 := by omega
  obtain ⟨l, f⟩ := abortInfl_finishes (s := sqKept p v s) (n := p) (i := i) (by rw [sqKept_ring]; exact hi) hb hs hq (by rw [sqKept_ring]; exact hcq)
    (by rw [sqKept_ring]; exact hd)
  have hr : ringBody ((State.abortInfl p (sqKept p v s)).ring p) = ringBody { s.ring p with sqDb := v, infl := none } := by
    have e := f.ring
    rw [hs, forget_ring, sqKept_ring] at e
    exact e
  have hg : OnlyChanges [.sys, .hif, .chg, .dpx2, .boot, .tly, .outbox] s (State.forget p (sqKept p v s)) :=
    forget_only (within rfl) (OnlyChanges.mono sqKept_frame (within rfl))
  obtain ⟨q, hql, hid, hst, -⟩ := f.entry
  rw [sqDoorbell_halts hh hc]
  unfold State.haltDoorbell
  refine ⟨q, haltRing_sends.subset ?_, hid, hst, ?_, ?_, ?_, fun n hn => ?_, ?_, ?_⟩
  · rw [f.sent]
    exact List.mem_append_right _ (hs ▸ hql)
  · rw [haltRing_ring h17]
    exact (congrArg Ring.infl hr :)
  · rw [haltRing_ring h17]
  · rw [haltRing_ring h17]
    exact (congrArg Ring.tail hr :)
  · rw [haltRing_ring_ne h17 hn, f.others n (by rw [hs]; exact hn), forget_ring, sqKept_ring_ne hn]
  · exact ((Unreported.of_frame sqKept_frame (within rfl)).trans forget_unreported).trans
      ((Unreported.of_frame f.frame (within rfl)).trans (.of_frame haltRing_frame (within rfl)))
  · exact OnlyChanges.trans (OnlyChanges.trans hg (OnlyChanges.mono f.frame (within rfl))) (OnlyChanges.mono haltRing_frame (within rfl))

/-- A full word at a doorbell of an existing ring is a submission, or a completion. -/
theorem exec_submission (hp : p < 17) (hr : s.reach = true) (hl : (s.ring p).live = true) :
    exec (.submissionDoorbell ⟨p, 0⟩ v 15) s = done s (s.sqDoorbell p v) :=
  (bar2Write_full (k := 0) (Nat.lt_trans hp (by decide)) (by decide) rfl hr).trans (congrArg (done s) (doorbell_submission hp hl))

theorem exec_completion (hp : p < 17) (hr : s.reach = true) (hl : (s.ring p).live = true) :
    exec (.completionDoorbell p v 15) s = done s (s.cqDoorbell p v) :=
  (bar2Write_full (Nat.lt_trans hp (by decide)) (by decide) rfl hr).trans (congrArg (done s) (doorbell_completion hp hl))

theorem exec_eventHead (hr : s.reach = true) (hl : s.hif.ev.live = true) : exec (.completionDoorbell 17 v 15) s = done s (s.evDoorbell v) :=
  (bar2Write_full (by omega) (by omega) rfl hr).trans (congrArg (done s) (doorbell_event hl))

/-- Settles O12: a doorbell changes its own ring, and what a write that is discarded counts is followed by nothing. -/
theorem doorbellsMoveIndicesOrHaltTheRing : Obligations.DoorbellsMoveIndicesOrHaltTheRing := by
  refine ⟨fun s p k v be h => bar2Write_outside h, fun s p v be h => bar2Write_outside (.inl h),
    fun s p k v be hp hk ha => bar2Write_unaligned hp hk ha, fun s p v h hp hr hl hh hc => ?_, fun s p v h hp hr hl hh hc => ?_,
    fun s v h hr hl hh hc => ?_, fun s p c v h hp hr hl hh hb hc => ?_, fun s p c v h hp hr hl hh hb hc => ?_,
    fun s c v h hr hl hh hc => ?_, fun s p c v i h hp hr hl hh hcq hd hi hb hs hq hc => ?_, fun s p v h hp hr hl hh => ⟨?_, ?_⟩,
    fun s p k v be h hp hk ha hr hb => ?_, fun s p v be h hp hr hb => ?_, fun s p k v h hp hk ha hr hu => ?_, fun s p v h hp hr hu => ?_⟩
  case refine_1 =>
    obtain ⟨hm, ho, hk⟩ := sqDoorbell_moved hh hc
    exact ⟨_, (exec_submission hp hr hl).trans (done_of_frame h hk (within rfl)), hm, ho, hk⟩
  case refine_2 =>
    obtain ⟨hm, ho, hk⟩ := cqDoorbell_moved hh hc
    exact ⟨_, (exec_completion hp hr hl).trans (done_of_frame h hk (within rfl)), hm, ho, hk⟩
  case refine_3 =>
    rw [exec_eventHead hr hl, evDoorbell_moves hh hc]
    exact done_of_frame h (hif_frame _) (within rfl)
  case refine_4 =>
    obtain ⟨hm, ho, he, hk⟩ := sqDoorbell_stops hp hh hb hc
    exact ⟨_, (exec_submission hp hr hl).trans (done_of_frame h hk (within rfl)), hm, ho, he, hk⟩
  case refine_5 =>
    obtain ⟨hm, ho, he, hk⟩ := cqDoorbell_stops hp hh hb hc
    exact ⟨_, (exec_completion hp hr hl).trans (done_of_frame h hk (within rfl)), hm, ho, he, hk⟩
  case refine_6 =>
    obtain ⟨hm, ho, he, hk⟩ := evDoorbell_stops hh hc
    exact ⟨_, (exec_eventHead hr hl).trans (done_of_frame h hk (within rfl)), hm, ho, he, hk⟩
  case refine_7 =>
    obtain ⟨q, hq, hid, hst, hn, ht, htl, ho, hu, hk⟩ := sqDoorbell_aborts hp hh hi hb hs hq hcq hd hc
    exact ⟨_, q, (exec_submission hp hr hl).trans (hu.done_eq h), hq, hid, hst, hn, ht, htl, ho, hk⟩
  case refine_8 =>
    rw [exec_submission hp hr hl, sqDoorbell_halted hh]
    exact done_of_frame h sqKept_frame (within rfl)
  case refine_9 =>
    rw [exec_completion hp hr hl, cqDoorbell_halted hh]
    exact done_of_frame h cqKept_frame (within rfl)
  case refine_10 =>
    obtain ⟨t, he, hs⟩ := partialWr_bar2 (off := p * 0x1000 + k) h
    exact ⟨t, (bar2Write_partial hp hk ha hr hb).trans he, hs⟩
  case refine_11 =>
    obtain ⟨t, he, hk⟩ := partialWr_bar2 (off := p * 0x1000 + 4) h
    exact ⟨t, (bar2Write_partial hp (by omega) rfl hr hb).trans he, hk⟩
  case refine_12 =>
    obtain ⟨t, he, hs⟩ := unassignedWr_bar2 (off := p * 0x1000 + k) h
    exact ⟨t, (bar2Write_full hp hk ha hr).trans ((congrArg (done s) (doorbell_unassigned hu)).trans he), hs⟩
  case refine_13 =>
    obtain ⟨t, he, hs⟩ := unassignedWr_bar2 (off := p * 0x1000 + 4) h
    have hn : 17 < p ∨ s.slotLive p = false ∨ (4 ≠ 0 ∧ 4 ≠ 4) ∨ (p = 17 ∧ 4 = 0) := hu.imp_right .inl
    exact ⟨t, (bar2Write_full hp (by omega) rfl hr).trans ((congrArg (done s) (doorbell_unassigned hn)).trans he), hs⟩

end Sys2Proof.Proofs
end

section
/-! Host-work records to the partner (spec/09_duplex_pair.md R238, R245; log entry 116). -/

namespace Sys2Proof.Proofs

open Sys2Proof.Machine Sys2Proof.Safety Sys2Proof.Laws

variable {s t u : State} {h : Hcmd} {k m n c : Nat} {b : List Byte}

/-- The pair's state without what a sent record changes: its number, the backlog and the mirror counts. -/
def linkBody (d : Dpx2) : Dpx2 :=
  { d with rseqTx := 0, backlog := 0, blNs := 0, mirWin := 0, mirB := 0, mirKib := 0, mirMax := 0 }

/-- What left the module is a host-work record, not one of an initial sync. -/
def IsHostwork (x : Out) : Prop := ∃ b : BRec, x = .baste b ∧ b.type = 3 ∧ b.sync = false

/-- From `s` to `t` `k` host-work records have been sent under the next numbers, and at most `c` bytes have entered the backlog. -/
structure Mirrors (k c : Nat) (s t : State) : Prop where
  number : t.dpx2.rseqTx = s.dpx2.rseqTx + BitVec.ofNat 64 k
  sent : ∃ l, t.outbox = s.outbox ++ l ∧ l.length = k ∧ ∀ x ∈ l, IsHostwork x
  backlog : t.backlogNow ≤ s.backlogNow + c
  body : linkBody t.dpx2 = linkBody s.dpx2
  frame : OnlyChanges [.dpx2, .outbox] s t

theorem Mirrors.refl : Mirrors 0 0 s s :=
  ⟨by simp, ⟨[], (List.append_nil _).symm, rfl, fun _ hx => absurd hx List.not_mem_nil⟩, Nat.le_add_right .., rfl, OnlyChanges.refl⟩

theorem Mirrors.trans (h : Mirrors k c s t) (g : Mirrors m n t u) : Mirrors (k + m) (c + n) s u := by
  obtain ⟨l, hl, hk, hall⟩ := h.sent
  obtain ⟨q, hq, hm, hall'⟩ := g.sent
  refine ⟨?_, ⟨l ++ q, ?_, ?_, fun x hx => ?_⟩, ?_, g.body.trans h.body, OnlyChanges.trans h.frame g.frame⟩
  · rw [g.number, h.number, BitVec.ofNat_add, BitVec.add_assoc]
  · rw [hq, hl, List.append_assoc]
  · rw [List.length_append, hk, hm]
  · exact (List.mem_append.mp hx).elim (hall x) (hall' x)
  · exact (g.backlog.trans (Nat.add_le_add_right h.backlog n)).trans (by omega)

theorem Mirrors.cfg (h : Mirrors k c s t) : t.cfg = s.cfg := h.frame.same .cfg (by decide)

/-- The bytes that a payload takes in the backlog. -/
theorem queueRec_backlog : (s.queueRec 3 b).backlogNow = s.backlogNow + 28 + (b.length + 7) / 8 * 8 := by
  have hns : (s.queueRec 3 b).tim = s.tim := (queueRec_only (within rfl) OnlyChanges.refl : OnlyChanges [.dpx2] s _).same .tim (by decide)
  have hbl : (s.queueRec 3 b).dpx2.blNs = s.tim.ns := rfl
  unfold State.backlogNow
  rw [hns, hbl, Nat.sub_self, Nat.zero_mul, Nat.zero_div, Nat.sub_zero]
  rfl

theorem countMirror_body : linkBody (s.countMirror n).dpx2 = linkBody s.dpx2 ∧ (s.countMirror n).dpx2.rseqTx = s.dpx2.rseqTx := by
  unfold State.countMirror
  dsimp only
  split <;> exact ⟨rfl, rfl⟩

theorem queueRec_body : linkBody (s.queueRec 3 b).dpx2 = linkBody s.dpx2 := countMirror_body.1

/-- One part of a record. -/
theorem sendPart_mirrors {last : Bool} (hp : s.cfg.partner = true) (hb : b.length ≤ 65536) :
    Mirrors 1 65564 s (s.sendPart 3 false false last b) := by
  have he : s.sendPart 3 false false last b = State.put (.baste { type := 3, fmt := s.boot.runHdr.mirrorFmt.toNat, sync := false, last := last
                                                                  rseq := s.dpx2.rseqTx + 1, progVer := 0, payload := b })
      { s.queueRec 3 b with dpx2 := { (s.queueRec 3 b).dpx2 with rseqTx := s.dpx2.rseqTx + 1 } } := by
    unfold State.sendPart
    rw [hp]
    rfl
  have ho : (s.queueRec 3 b).outbox = s.outbox :=
    (queueRec_only (within rfl) OnlyChanges.refl : OnlyChanges [.dpx2] s _).same .outbox (by decide)
  refine ⟨by rw [he]; rfl, ⟨_, by rw [he]; exact congrArg (· ++ [_]) ho, rfl, fun x hx => ⟨_, List.mem_singleton.mp hx, rfl, rfl⟩⟩, ?_, ?_,
    sendPart_only (within rfl) OnlyChanges.refl⟩
  · have hq : (s.sendPart 3 false false last b).backlogNow = (s.queueRec 3 b).backlogNow := by rw [he]; rfl
    rw [hq, queueRec_backlog]
    omega
  · rw [he]
    exact queueRec_body (b := b)

theorem foldl_mirrors {f : State → Nat → State} (hf : ∀ u i, u.cfg = s.cfg → Mirrors 1 c u (f u i)) :
    Mirrors n (n * c) s ((List.range n).foldl f s) := by
  induction n with
  | zero => exact (Nat.zero_mul c).symm ▸ .refl
  | succ n ih =>
    rw [List.range_succ, List.foldl_append, Nat.succ_mul]
    exact ih.trans (hf _ n ih.cfg)

/-- The number of parts of a host-work record with `m` bytes after its first 96. -/
def partsOf (m : Nat) : Nat := max 1 ((m + 65439) / 65440)

theorem sendHostwork_mirrors (hp : s.cfg.partner = true) (hb : b.length = 96 + m) :
    Mirrors (partsOf m) (partsOf m * 65564) s (s.sendHostwork false b) := by
  have hn : max 1 ((b.length - 96 + 65439) / 65440) = partsOf m := by rw [hb, Nat.add_sub_cancel_left, partsOf]
  unfold State.sendHostwork
  dsimp only
  rw [hn]
  refine foldl_mirrors fun u i hu => sendPart_mirrors (by rw [hu, hp]) ?_
  rw [List.length_append, List.length_take, List.length_take]
  omega

theorem entryBytes_length : (entryBytes h).length = 64 := by
  simp only [entryBytes, List.length_append, length_le, List.length_cons, List.length_nil]

/-- A record of 96 bytes, and of a journaled command its payload. -/
theorem hostworkBytes_length {d : Dur} {st : BitVec 16} {e : Bool} {i j : DWord} : (hostworkBytes d h st e i j).length =
    96 + (if e || decide (d = .s) then [] else h.payload).length := by
  simp only [hostworkBytes, List.length_append, entryBytes_length, length_le, List.length_cons, List.length_nil]

/-- A backlog of up to 8 MiB lets INSYNC stand (R245). -/
theorem backlogOver_of_le (h : s.backlogNow ≤ 8388608) : s.backlogOver = s := if_neg (by omega)

end Sys2Proof.Proofs
end

section
/-! A command that a primary records with its partner (spec/04_host_rings.md R112): it waits in its ring for the acknowledgement. -/

namespace Sys2Proof.Proofs

open Sys2Proof.Machine Sys2Proof.Safety Sys2Proof.Laws

variable {s t u : State} {h g : Hcmd} {op : HostOp} {k m n : Nat} {q : DWord}

/-! The ring whose command waits for a record. -/

/-- The ring of entry `e` holds a command that waits for record `q`. -/
def awaits (q : DWord) (e : Nat × Ring) : Bool := e.2.infl.any fun i => i.ackRseq == some q

theorem awaiting_eq : s.awaiting q = (s.hif.rings.find? (awaits q)).map Prod.fst := by
  unfold State.awaiting
  congr 1
  refine congrArg (fun p => List.find? p s.hif.rings) (funext fun e => ?_)
  unfold awaits
  cases e.2.infl <;> rfl

theorem awaiting_none : s.awaiting q = none ↔ ∀ e ∈ s.hif.rings, awaits q e = false := by
  rw [awaiting_eq, Option.map_eq_none_iff, List.find?_eq_none]
  simp

theorem mem_put_rings {α : Type} {t : Tab α} {v : α} {e : Nat × α} (he : e ∈ t.put k v) : e = (k, v) ∨ e ∈ t := by
  induction t with
  | nil => exact .inl (List.mem_singleton.mp he)
  | cons d t ih =>
    unfold Tab.put at he
    split at he
    · exact (List.mem_cons.mp he)
    · split at he
      · exact (List.mem_cons.mp he).imp_right (List.mem_cons_of_mem _)
      · rcases List.mem_cons.mp he with rfl | he
        · exact .inr List.mem_cons_self
        · exact (ih he).imp_right (List.mem_cons_of_mem _)

/-- An entry put into a table is the one found where no other meets the condition. -/
theorem find?_put {α : Type} {t : Tab α} {v : α} {p : Nat × α → Bool} (hp : p (k, v) = true) (ht : ∀ e ∈ t, p e = false) :
    List.find? p (t.put k v) = some (k, v) := by
  induction t with
  | nil => exact List.find?_cons_of_pos hp
  | cons d t ih =>
    obtain ⟨hd, ht⟩ := List.forall_mem_cons.mp ht
    unfold Tab.put
    split
    · exact List.find?_cons_of_pos hp
    · split
      · exact List.find?_cons_of_pos hp
      · rw [List.find?_cons_of_neg (by rw [hd]; exact Bool.false_ne_true), ih ht]

theorem awaiting_updRing {f : Ring → Ring} (hf : awaits q (n, f (s.ring n)) = true) (hs : s.awaiting q = none) :
    (s.updRing n f).awaiting q = some n := by
  rw [awaiting_eq]
  exact congrArg (Option.map Prod.fst) (find?_put hf (awaiting_none.mp hs))

theorem awaiting_updRing_none {f : Ring → Ring} (hf : awaits q (n, f (s.ring n)) = false) (hs : s.awaiting q = none) :
    (s.updRing n f).awaiting q = none := by
  rw [awaiting_none]
  intro e he
  rcases mem_put_rings he with rfl | he
  · exact hf
  · exact awaiting_none.mp hs e he

/-! The command. -/

/-- What a ring holds of a command whose record `q` is under way. -/
def underWay (op : HostOp) (h : Hcmd) (s : State) (q : DWord) : Infl :=
  { cmd := h, status := St.ok, reason := 0, ackRseq := some q, mirrored := true
    h := (((s.fetch h.slot).win h.slot).enter h.reqId).high, aux := (op.cyc h (s.fetch h.slot)).toNat }

/-- From `s` to `t` the command `h` has been taken, its record sent in `k` parts, and its ring holds it; nothing else has happened. -/
structure Mirrored (op : HostOp) (h : Hcmd) (k : Nat) (s t : State) : Prop where
  ring : t.ring h.slot = { (s.fetch h.slot).ring h.slot with infl := some (underWay op h s t.dpx2.rseqTx) }
  journal : t.hif.journal = s.hif.journal
  wins : t.hif.wins = s.hif.wins
  number : t.dpx2.rseqTx = s.dpx2.rseqTx + BitVec.ofNat 64 k
  sent : ∃ l, t.outbox = s.outbox ++ l ∧ l.length = k ∧ ∀ x ∈ l, IsHostwork x
  body : linkBody t.dpx2 = linkBody s.dpx2
  frame : OnlyChanges [.hif, .dpx2, .outbox] s t
  awaited : s.awaiting (s.dpx2.rseqTx + BitVec.ofNat 64 k) = none → t.awaiting t.dpx2.rseqTx = some h.slot

theorem partsOf_le (hm : m ≤ 65536) : partsOf m ≤ 2 := by
  unfold partsOf
  omega

/-- `s` with `h` taken and its record sent. -/
def recordSent (op : HostOp) (h : Hcmd) (s : State) : State :=
  (s.fetch h.slot).sendHostwork false (hostworkBytes op.dur h St.ok (decide (St.ok ≠ St.ok)) (((s.fetch h.slot).win h.slot).enter h.reqId).high
    (op.cyc h (s.fetch h.slot)))

theorem recordSent_mirrors (hr : s.cfg.partner = true) (hd : op.dur = .j) :
    Mirrors (partsOf h.payload.length) (partsOf h.payload.length * 65564) (s.fetch h.slot) (recordSent op h s) := by
  refine sendHostwork_mirrors hr ?_
  rw [hostworkBytes_length, hd]
  rfl

theorem idle_of_taken {d : Dur} (ht : s.canTake n d = true) : (s.ring n).infl = none := by
  simp only [State.canTake, Bool.and_eq_true] at ht
  obtain ⟨⟨⟨⟨⟨-, hi⟩, -⟩, -⟩, -⟩, -⟩ := ht
  exact Option.isNone_iff_eq_none.mp hi

theorem runCmd_mirrored (o : Offered op h s) (hp : s.sys.primary = true) (hi : s.insync = true) (hr : s.cfg.partner = true)
    (hb : s.backlogNow ≤ 8000000) (hl : h.payload.length ≤ 65536) (hd : op.dur = .j) (hc : op.check h (s.fetch h.slot) = .go)
    (hn : op.prepare h (s.fetch h.slot) = none) : Mirrored op h (partsOf h.payload.length) s (s.runCmd op h) := by
  have k := recordSent_mirrors (h := h) hr hd
  have hrun : s.runCmd op h = (State.updRing h.slot (fun x => { x with infl := some (underWay op h s (recordSent op h s).dpx2.rseqTx) })
      (recordSent op h s)).backlogOver := (runCmd_recorded o hp (by rw [hd]; decide) hc hn).trans (if_pos hi)
  have hback : (recordSent op h s).backlogNow ≤ 8388608 := by
    have h1 : (recordSent op h s).backlogNow ≤ s.backlogNow + partsOf h.payload.length * 65564 := k.backlog
    have h2 := partsOf_le hl
    omega
  rw [hrun.trans (backlogOver_of_le hback)]
  have hv : (recordSent op h s).hif = (s.fetch h.slot).hif := k.frame.same .hif (by decide)
  have hring : (recordSent op h s).ring h.slot = (s.fetch h.slot).ring h.slot := congrArg (fun x : Hif => x.rings.look h.slot {}) hv
  refine ⟨?_, (congrArg Hif.journal hv :), (congrArg Hif.wins hv :), k.number, k.sent, k.body, updRing_only (within rfl)
    (OnlyChanges.trans (fetch_only (within rfl) OnlyChanges.refl) (OnlyChanges.mono k.frame (within rfl))), fun ha => ?_⟩
  · rw [ring_updRing, hring]
    rfl
  · have hf : (s.fetch h.slot).awaiting (s.dpx2.rseqTx + BitVec.ofNat 64 (partsOf h.payload.length)) = none :=
      awaiting_updRing_none (by unfold awaits; rw [idle_of_taken o.taken]; rfl) ha
    have hw : (recordSent op h s).awaiting (recordSent op h s).dpx2.rseqTx = none := by
      rw [awaiting_eq, hv, k.number]
      rw [awaiting_eq] at hf
      exact hf
    exact awaiting_updRing (by simp [awaits, underWay]) hw

end Sys2Proof.Proofs
end

section
/-! The acknowledgement of a host-work record (spec/04_host_rings.md R112, spec/09_duplex_pair.md R238, R240). -/

namespace Sys2Proof.Proofs

open Sys2Proof.Machine Sys2Proof.Safety Sys2Proof.Laws

variable {s t u : State} {h g : Hcmd} {op : HostOp} {i : Infl} {r : BRec} {k n : Nat} {q : DWord} {st : BitVec 16} {w : Word}

/-- `s` after record `r` has been met in its turn. -/
def met (r : BRec) (s : State) : State := { s with dpx2 := { s.dpx2 with rseqRx := r.rseq } }

/-- The command of ring `n` no longer waits for its acknowledgement. -/
def acked (n : Nat) (i : Infl) (s : State) : State := s.updRing n fun r => { r with infl := some { i with ackRseq := none } }

theorem takeAck_awaited (h8 : fieldN r.payload 8 1 = 3) (h9 : fieldN r.payload 9 1 = 0)
    (ha : s.awaiting (BitVec.ofNat 64 (fieldN r.payload 0 8)) = some n) : s.takeAck r = s.ackHost n := by
  unfold State.takeAck
  dsimp only
  rw [h8, h9, ha]
  rfl

theorem drainRecs_empty (hw : s.dpx2.waitRec = []) : s.drainRecs s.dpx2.waitRec.length = s := by
  rw [hw]
  rfl

/-- An acknowledgement in its turn is taken. -/
theorem takeRec_ack (k : InTurn r s) : s.takeRec { r with type := 2 } =
    (State.takeAck { r with type := 2 } (met r s)).drainRecs (State.takeAck { r with type := 2 } (met r s)).dpx2.waitRec.length := by
  have hcrc : (!r.crcOk || !s.fmtOk r.fmt || !(decide (1 ≤ 2) && decide (2 ≤ 12))) = false := by rw [k.crc, k.format]; rfl
  exact (if_neg (by rw [hcrc]; exact Bool.false_ne_true)).trans (if_pos k.turn)

theorem exec_ack (k : InTurn r s) : exec (.ack r) s = done s (s.takeRec { r with type := 2 }) := by
  have hr : s.running = true := by
    have hl := k.lanes
    simp only [State.lanesOn, Bool.and_eq_true] at hl
    tauto
  refine (if_pos (by rw [hr, k.lanes]; rfl)).trans ?_
  rw [if_pos k.type]

/-- The acknowledgement of the record that the command of ring `n` waits for. -/
theorem ack_awaited (k : InTurn r s) (h8 : fieldN r.payload 8 1 = 3) (h9 : fieldN r.payload 9 1 = 0)
    (ha : s.awaiting (BitVec.ofNat 64 (fieldN r.payload 0 8)) = some n) (hu : (met r s).ackHost n = u) (hw : u.dpx2.waitRec = []) :
    exec (.ack r) s = done s u := by
  have he : State.takeAck { r with type := 2 } (met r s) = u := (takeAck_awaited (s := met r s) (r := { r with type := 2 }) h8 h9 ha).trans hu
  rw [exec_ack k, takeRec_ack k, he, drainRecs_empty hw]

theorem ackHost_eq (hi : (s.ring n).infl = some i) (ho : s.hostOp i.cmd = some op) :
    s.ackHost n = (acked n i s).afterRecord op i.cmd i.status i.reason true 0 := by
  unfold State.ackHost
  rw [hi]
  dsimp only
  rw [ho]
  rfl

theorem afterRecord_wait {m : Bool} {j : DWord} (hw : (op.effect h (t.enterWin h.slot h.reqId)).wait = true) :
    t.afterRecord op h St.ok w m j = (op.effect h (t.enterWin h.slot h.reqId)).s.updRing h.slot fun r =>
      { r with infl := some { cmd := h, recorded := true, mirrored := m, jseq := j, h := ((t.enterWin h.slot h.reqId).win h.slot).high } } := by
  unfold State.afterRecord
  dsimp only
  rw [if_neg (fun e => e rfl), hw]
  rfl

/-- The forces that a FORCE_SET leaves depend on the program and the forces before it. -/
theorem setForces_congr {c : Nat} {es : List Elem} (hp : t.prog = s.prog) (hc : t.cyc.forces = s.cyc.forces) :
    (t.setForces c es).cyc.forces = (s.setForces c es).cyc.forces := by
  unfold State.setForces
  induction es generalizing s t with
  | nil => exact hc
  | cons e es ih =>
    refine ih (s := s.setForce c e) (t := t.setForce c e) hp ?_
    have hv : t.var e.handle = s.var e.handle := by rw [State.var, State.var, hp]
    unfold State.setForce
    rw [hc, hv]

/-- `t` once the record of its waiting command `h` has been acknowledged by `r`, and `h` is in the window. -/
def durable (op : HostOp) (h : Hcmd) (r : BRec) (s t : State) : State :=
  (acked h.slot (underWay op h s t.dpx2.rseqTx) (met r t)).enterWin h.slot h.reqId

theorem durable_ring (m : Mirrored op h k s t) : (durable op h r s t).ring h.slot =
    { (s.fetch h.slot).ring h.slot with infl := some { underWay op h s t.dpx2.rseqTx with ackRseq := none } } := by
  have hr : (acked h.slot (underWay op h s t.dpx2.rseqTx) (met r t)).ring h.slot =
      { t.ring h.slot with infl := some { underWay op h s t.dpx2.rseqTx with ackRseq := none } } := ring_updRing ..
  refine (hr : (durable op h r s t).ring h.slot = _).trans ?_
  rw [m.ring]

theorem durable_high (m : Mirrored op h k s t) (hf : (s.win h.slot).high < h.reqId) : ((durable op h r s t).win h.slot).high = h.reqId := by
  refine high_enterWin (s := acked h.slot (underWay op h s t.dpx2.rseqTx) (met r t)) ?_
  have hw : (acked h.slot (underWay op h s t.dpx2.rseqTx) (met r t)).win h.slot = s.win h.slot :=
    congrArg (fun w : Tab Win => w.look h.slot {}) m.wins
  rw [hw]
  exact hf

theorem durable_frame : OnlyChanges [.hif, .dpx2] t (durable op h r s t) :=
  ⟨fun p hp => by cases p with
    | hif => exact absurd (by decide) hp
    | dpx2 => exact absurd (by decide) hp
    | _ => rfl⟩

/-- The acknowledgement of a command's record leads to what follows the record. -/
theorem mirrored_acked (m : Mirrored op h k s t) (ha : t.awaiting t.dpx2.rseqTx = some h.slot) (hop : (met r t).hostOp h = some op)
    (k : InTurn r t) (h0 : fieldN r.payload 0 8 = t.dpx2.rseqTx.toNat) (h8 : fieldN r.payload 8 1 = 3) (h9 : fieldN r.payload 9 1 = 0)
    (hu : (acked h.slot (underWay op h s t.dpx2.rseqTx) (met r t)).afterRecord op h St.ok 0 true 0 = u) (hw : u.dpx2.waitRec = []) :
    exec (.ack r) t = done t u := by
  have hi : ((met r t).ring h.slot).infl = some (underWay op h s t.dpx2.rseqTx) := by
    have e : (met r t).ring h.slot = t.ring h.slot := rfl
    rw [e, m.ring]
  refine ack_awaited k h8 h9 ?_ ((ackHost_eq hi hop).trans hu) hw
  rw [h0, BitVec.ofNat_toNat, BitVec.setWidth_eq]
  exact ha

end Sys2Proof.Proofs
end

section
/-! FORCE_SET, LOOP_WRITE and ROLE_EXCHANGE on a primary with an in-sync partner (O17). -/

namespace Sys2Proof.Proofs

open Sys2Proof.Machine Sys2Proof.Safety Sys2Proof.Laws

variable {s t u : State} {h g : Hcmd} {op : HostOp} {r : BRec} {k : Nat} {b : BitVec 8}

theorem Mirrored.waits (m : Mirrored op h k s t) : Waiting h s t := by
  refine ⟨⟨underWay op h s t.dpx2.rseqTx, by rw [m.ring], rfl, rfl⟩, ?_⟩
  rw [m.ring, fetch_ring]

/-- What left the module is what was sent before and the parts of the record. -/
theorem Mirrored.leaves (m : Mirrored op h k s t) : t.outbox.length = s.outbox.length + k ∧ t.outbox.take s.outbox.length = s.outbox ∧
    ∀ x ∈ t.outbox.drop s.outbox.length, ∃ b : BRec, x = .baste b ∧ b.type = 3 := by
  obtain ⟨l, hl, hk, hall⟩ := m.sent
  rw [hl]
  refine ⟨by rw [List.length_append, hk], List.take_left, fun x hx => ?_⟩
  rw [List.drop_left] at hx
  obtain ⟨c, hc, ht, -⟩ := hall x hx
  exact ⟨c, hc, ht⟩

/-- A mirrored command on the entry with its opcode. -/
theorem done_mirrored (o : Offered op h s) (hf : op.static { h with opcode := b } = op.static h) (hp : s.sys.primary = true)
    (hi : s.insync = true) (hr : s.cfg.partner = true) (hb : s.backlogNow ≤ 8000000) (hk : k = partsOf h.payload.length)
    (hl : h.payload.length ≤ 65536) (hd : op.dur = .j) (hc : op.check { h with opcode := b } (s.fetch h.slot) = .go)
    (hn : op.prepare { h with opcode := b } (s.fetch h.slot) = none) :
    ∃ t, done s (s.runCmd op { h with opcode := b }) = .next t ∧ Mirrored op { h with opcode := b } k s t := by
  subst hk
  have m := runCmd_mirrored (offered_of_opcode o hf) hp hi hr hb hl hd hc hn
  exact ⟨_, done_of_frame o.settled m.frame (within rfl), m⟩

/-- A FORCE_SET whose record has been acknowledged, before its completion. -/
def forced (g : Hcmd) (r : BRec) (s t : State) : State :=
  State.setForces (classOf g) (elemsOf true g) (durable opForceSet g r s t)

theorem forced_frame : OnlyChanges [.cyc] (durable opForceSet g r s t) (forced g r s t) := setForces_frame

theorem forced_answers (m : Mirrored opForceSet g k s t) (o : Offered opForceSet g s) : Answers g (forced g r s t) := by
  have hring : (forced g r s t).ring g.slot = _ :=
    (congrArg (fun x : Hif => x.rings.look g.slot {}) (forced_frame.same .hif (by decide))).trans (durable_ring m)
  refine ⟨o.answered, ?_, ?_⟩
  · rw [hring, fetch_ring]
    exact o.posts
  · rw [hring, fetch_ring]
    exact canTake_kept o.taken

/-- A FORCE_SET whose record is acknowledged sets its forces and completes. -/
theorem forceSet_acked (m : Mirrored opForceSet g k s t) (o : Offered opForceSet g s) (hp : s.sys.primary = true) (hg : g.opcode = 0x43)
    (ha : t.awaiting t.dpx2.rseqTx = some g.slot) (hr : InTurn r t) (h0 : fieldN r.payload 0 8 = t.dpx2.rseqTx.toNat)
    (h8 : fieldN r.payload 8 1 = 3) (h9 : fieldN r.payload 9 1 = 0) :
    ∃ u, exec (.ack r) t = .next u ∧ u.cyc.forces = (s.setForces (classOf g) (elemsOf true g)).cyc.forces ∧
      (u.win g.slot).high = g.reqId ∧ (u.ring g.slot).infl = none := by
  have hop : (met r t).hostOp g = some opForceSet := by
    unfold State.hostOp
    rw [hg]
    rfl
  obtain ⟨l, f, -⟩ := settle_finishes (st := St.ok) (m := true) (j := 0) (b := []) (r0 := 0) (r1 := 0) (forced_answers (r := r) m o) (.inl rfl)
  have hu : (acked g.slot (underWay opForceSet g s t.dpx2.rseqTx) (met r t)).afterRecord opForceSet g St.ok 0 true 0 =
      (forced g r s t).settle g St.ok true 0 [] 0 0 := afterRecord_ok rfl
  have hv : OnlyChanges [.hif, .cyc, .dpx2] t (forced g r s t) :=
    OnlyChanges.trans (OnlyChanges.mono durable_frame (within rfl)) (OnlyChanges.mono forced_frame (within rfl))
  have hk : OnlyChanges [.hif, .cyc, .dpx2, .outbox] t ((forced g r s t).settle g St.ok true 0 [] 0 0) :=
    OnlyChanges.trans (OnlyChanges.mono hv (within rfl)) (OnlyChanges.mono f.frame (within rfl))
  have hw : ((forced g r s t).settle g St.ok true 0 [] 0 0).dpx2 = (met r t).dpx2 :=
    (f.frame.same .dpx2 (by decide)).trans (forced_frame.same .dpx2 (by decide))
  have hcyc : ((forced g r s t).settle g St.ok true 0 [] 0 0).cyc = (forced g r s t).cyc := f.frame.same .cyc (by decide)
  refine ⟨_, (mirrored_acked m ha hop hr h0 h8 h9 hu (by rw [hw]; exact hr.alone)).trans (done_of_frame hr.settled hk (within rfl)), ?_, ?_,
    (congrArg Ring.infl f.ring :)⟩
  · rw [hcyc]
    exact setForces_congr (m.frame.same .prog (by decide)) (congrArg Cyc.forces (m.frame.same .cyc (by decide)))
  · rw [State.win, f.wins, forced_frame.same .hif (by decide)]
    exact durable_high m (o.fresh hp)

/-- A ROLE_EXCHANGE whose record has been acknowledged: it waits for its boundary in its ring. -/
def asked (g : Hcmd) (r : BRec) (s t : State) : State :=
  (State.askExchange (g.param0.getLsbD 0) g.slot (durable opExchange g r s t)).updRing g.slot fun x =>
    { x with infl := some { cmd := g, recorded := true, mirrored := true, jseq := 0, h := ((durable opExchange g r s t).win g.slot).high } }

theorem asked_frame : OnlyChanges [.hif, .dpx2] t (asked g r s t) :=
  updRing_only (within rfl) (askExchange_only (within rfl) durable_frame)

theorem asked_waits (m : Mirrored opExchange g k s t) : Waiting g s (asked g r s t) := by
  have hr : (State.askExchange (g.param0.getLsbD 0) g.slot (durable opExchange g r s t)).ring g.slot = _ := durable_ring m
  refine ⟨⟨{ cmd := g, recorded := true, mirrored := true, jseq := 0, h := ((durable opExchange g r s t).win g.slot).high }, ?_, rfl, rfl⟩, ?_⟩
  · unfold asked
    rw [ring_updRing]
  · unfold asked
    rw [ring_updRing, hr, fetch_ring]

/-- A ROLE_EXCHANGE whose record is acknowledged waits for its boundary. -/
theorem exchange_acked (m : Mirrored opExchange g k s t) (hg : g.opcode = 0x07) (ha : t.awaiting t.dpx2.rseqTx = some g.slot)
    (hr : InTurn r t) (h0 : fieldN r.payload 0 8 = t.dpx2.rseqTx.toNat) (h8 : fieldN r.payload 8 1 = 3) (h9 : fieldN r.payload 9 1 = 0) :
    ∃ u, exec (.ack r) t = .next u ∧ u.dpx2.xPend = true ∧ u.dpx2.isProof = g.param0.getLsbD 0 ∧ u.dpx2.xslot = g.slot ∧ Waiting g s u := by
  have hop : (met r t).hostOp g = some opExchange := by
    unfold State.hostOp
    rw [hg]
    rfl
  have hu : (acked g.slot (underWay opExchange g s t.dpx2.rseqTx) (met r t)).afterRecord opExchange g St.ok 0 true 0 = asked g r s t :=
    afterRecord_wait rfl
  exact ⟨_, (mirrored_acked m ha hop hr h0 h8 h9 hu hr.alone).trans (done_of_frame hr.settled asked_frame (within rfl)), rfl, rfl, rfl,
    asked_waits m⟩

theorem checkExchange_free (hc : s.checkExchange = .go) : s.insync = true ∧ s.dpx2.xPend = false := by
  unfold State.checkExchange at hc
  split at hc
  · cases hc
  next hb =>
    split at hc
    · cases hc
    · split at hc
      · cases hc
      next hi =>
        refine ⟨by simpa using hi, ?_⟩
        simp only [State.exchanging, not_or, Bool.or_eq_true] at hb
        simpa using hb.2.1

/-- Settles O17: a mirrored command stays in its ring with the number of its last record, by which its acknowledgement finds it. -/
theorem mirroredCommandsWaitForTheirAcknowledgement : Obligations.MirroredCommandsWaitForTheirAcknowledgement := by
  refine ⟨fun s h k o hp hi hr hb hk hl ha hc => ?_, fun s h k o hp hi hr hb hk hl hw hc => ?_, fun s h k o hr hb hk hl ha hc => ?_⟩
  case refine_1 =>
    obtain ⟨t, he, m⟩ := done_mirrored (b := 0x43) o rfl hp hi hr hb hk hl rfl (checkForceSet_apart.trans hc) rfl
    obtain ⟨hlen, htake, hdrop⟩ := m.leaves
    exact ⟨t, he, waiting_of_opcode m.waits, m.number, hlen, htake, hdrop, m.journal, m.frame,
      fun r hr h0 h8 h9 => forceSet_acked (g := { h with opcode := 0x43 }) m (offered_of_opcode o rfl) hp rfl (m.awaited ha) hr h0 h8 h9⟩
  case refine_2 =>
    obtain ⟨t, he, m⟩ := done_mirrored (b := 0x46) o rfl hp hi hr hb hk hl rfl hc rfl
    obtain ⟨hlen, htake, hdrop⟩ := m.leaves
    exact ⟨t, (exec_loopWrite hw).trans he, waiting_of_opcode m.waits, m.number, hlen, htake, hdrop, m.journal, m.frame⟩
  case refine_3 =>
    obtain ⟨hi, hx⟩ := checkExchange_free hc
    obtain ⟨t, he, m⟩ := done_mirrored (b := 0x07) o rfl (o.role rfl) hi hr hb hk hl rfl hc rfl
    obtain ⟨hlen, htake, hdrop⟩ := m.leaves
    refine ⟨t, he, waiting_of_opcode m.waits, m.number, hlen, htake, hdrop, m.journal, (congrArg Dpx2.xPend m.body :).trans hx, m.frame,
      fun r hr h0 h8 h9 => ?_⟩
    obtain ⟨u, hu, hpend, hproof, hslot, hwait⟩ := exchange_acked (g := { h with opcode := 0x07 }) m rfl (m.awaited ha) hr h0 h8 h9
    exact ⟨u, hu, hpend, hproof, hslot, waiting_of_opcode hwait⟩

end Sys2Proof.Proofs
end

section
/-! A failed completion write (O13): `State.haltRing` takes ring number 17 for the event ring (R99, R119), so a command ring that stands
under that number does not halt. -/

namespace Sys2Proof.Proofs

open Sys2Proof.Machine Sys2Proof.Safety Sys2Proof.Laws

/-- A module in STOP whose only command ring stands under the number of the event ring, and offers one command. -/
def ringUnder17 : State := { State.reset with
  sys.mode := .stop, hif.crs := false, hif.ready := true, hif.rings := [(17, { live := true, sqK := 4, cqK := 4, tail := 1 })] }

/-- The NOP of that ring. -/
def nopOf17 : Hcmd := { slot := 17, opcode := 0x40, reqId := 1 }

theorem nopOf17_offered : Offered (opNop false) nopOf17 ringUnder17 where
  settled := { can := fun c _ _ hc hs _ => by
                 have hn : ∀ c < 8, ringUnder17.canSet c = false := by decide
                 cases (hn c hc).symm.trans hs
               served := fun _ => rfl }
  taken := by decide
  form := by decide
  fresh e := nomatch e
  role e := nomatch e
  posts := rfl
  answered := rfl

/-- Whether command ring 17 of a next state is halted. -/
def halted17 : Host.Outcome State Fault Refusal → Option Bool
  | .next t => some (t.ring 17).halted
  | _ => none

theorem halted17_completionError : halted17 (exec (.hostMemoryError (.completion nopOf17)) ringUnder17) = some false := by decide +kernel

/-- Refutes O13: in its clause on a failed completion write the ring of the command is said to halt whatever its number, and a ring under
17, which the hypotheses allow, does not. -/
theorem not_interruptsWindowsAndPcieReset : ¬ Obligations.InterruptsWindowsAndPcieReset := by
  rintro ⟨-, -, -, -, -, -, -, -, -, -, -, h, -⟩
  obtain ⟨t, e, hhalted, -⟩ := h ringUnder17 nopOf17 nopOf17_offered rfl
  have hstands : halted17 (.next t) = some false := e ▸ halted17_completionError
  have hhalts : halted17 (.next t) = some true := congrArg some hhalted
  cases hhalts.symm.trans hstands

end Sys2Proof.Proofs
end

section
/-! A boundary with a force set (O22): the force is on a variable of another class, and step 3 of the cycle writes it there
(spec/05_cyclic_execution.md R147), so that class's memories do not stay as they were. -/

namespace Sys2Proof.Proofs

open Sys2Proof.Machine Sys2Proof.Safety Sys2Proof.Laws

/-- A lone primary in TEST whose class 0 waits for its boundary, with a force of class 0 on an input that the program in force gives to
class 1; an exchange of programs keeps such a force as long as its handle is known. -/
def forcedAcross : State := { State.reset with
  sys.mode := .test, sys.primary := true, cfg.cls := [(0, { en := true, cycUs := 1000 })], cyc.cls := [(0, { running := true })]
  cyc.forces := [{ elem := { handle := 1, len := 1, val := [7] } }], prog.vars := [(1, { cls := 1, mem := 1, size := 1 })] }

theorem forcedAcross_settled : Settled forcedAcross where
  can c _ _ hc hs _ := by
    have hn : ∀ c < 8, forcedAcross.canSet c = false := by decide
    cases (hn c hc).symm.trans hs
  served _ := rfl

/-- The input image of class 1 in a next state. -/
def inputsOf1 : Host.Outcome State Fault Refusal → Option Mem
  | .next t => some (t.cmem 1).inImg
  | _ => none

theorem inputsOf1_classBoundary : inputsOf1 (exec (.classBoundary 0 [] {}) forcedAcross) = some [(0, 7)] := by decide +kernel

/-- Refutes O22: in its second clause the memories of every other class are said to stay, and here class 1 takes a forced input. -/
theorem not_boundariesStartDelayOrDropCycles : ¬ Obligations.BoundariesStartDelayOrDropCycles := by
  rintro ⟨-, h, -⟩
  have hclear : ∀ e ∈ forcedAcross.cfg.cls, e.1 ≠ (0 : Fin 8).val → e.2.pair = (forcedAcross.ccfg (0 : Fin 8)).pair →
      forcedAcross.wants e.1 = false := by decide
  obtain ⟨t, e, -, -, -, -, -, -, hother, -⟩ :=
    h forcedAcross 0 {} forcedAcross_settled rfl rfl (by decide) rfl rfl rfl rfl rfl rfl rfl rfl rfl hclear
  have hforced : inputsOf1 (.next t) = some [(0, 7)] := e ▸ inputsOf1_classBoundary
  have hkept : inputsOf1 (.next t) = some [] := congrArg (fun m : ClsMem => some m.inImg) (hother 1 (by decide)).2
  cases hkept.symm.trans hforced

end Sys2Proof.Proofs
end

section
/-! FAULT-HALT outside TEST (spec/02_modes_and_startup.md R48) and the halt notice of a class (spec/05_cyclic_execution.md R137). -/

namespace Sys2Proof.Proofs

open Sys2Proof.Machine Sys2Proof.Safety Sys2Proof.Laws

variable {s t : State}

/-- A part that is the same after all need not be named in a frame. -/
theorem OnlyChanges.drop {p : Part} {ps : List Part} (k : OnlyChanges (p :: ps) s t) (h : p.same s t) : OnlyChanges ps s t := by
  refine ⟨fun q hq => ?_⟩
  by_cases e : q = p
  · exact e ▸ h
  · exact k.same q (by simp [e, hq])

theorem log_event_frame {code sev cause : Nat} {detail d : List Byte} {k : BitVec 16} {w : Word} :
    OnlyChanges [.hif, .tly, .outbox] s ((s.log code sev detail).event k cause w d) :=
  event_only (within rfl) (log_only (within rfl) OnlyChanges.refl)

theorem setMode_mm {m : Mode} {cause : Nat} (h : s.sys.mode ≠ .test) : (s.setMode m cause).mm = s.mm := by
  unfold State.setMode
  dsimp only
  rw [log_event_frame.same .mm (by decide), if_neg h]
  split <;> rfl

theorem setMode_cls {m : Mode} {cause : Nat} (d : Nat) : (s.setMode m cause).cls d = s.cls d := by
  unfold State.setMode
  dsimp only
  rw [State.cls, log_event_frame.same .cyc (by decide)]
  split <;> split <;> rfl

theorem preempt_mode : s.preempt.sys.mode = s.sys.mode := by
  unfold State.preempt
  split <;> rfl

theorem haltClasses_cls (d : Nat) : (s.haltClasses.cls d).running = false ∧ (s.haltClasses.cls d).active = false := by
  have e : s.haltClasses.cls d = _ := look_mapV (f := fun x : Cls => { x with running := false, active := false, undecided := false }) rfl d
  rw [e]
  exact ⟨rfl, rfl⟩

/-- A halt abandons the cycles of every class. -/
theorem enterHalt_cls (cause d : Nat) : ((s.enterHalt cause).cls d).running = false ∧ ((s.enterHalt cause).cls d).active = false := by
  have hl : (s.enterHalt cause).cyc = _ :=
    (lockout_only (within rfl) OnlyChanges.refl : OnlyChanges [.saf, .tly, .outbox] _ (s.enterHalt cause)).same .cyc (by decide)
  have e : (s.enterHalt cause).cls d = s.overrunRecs.preempt.haltClasses.cls d := by
    rw [State.cls, hl]
    exact setMode_cls d
  rw [e]
  exact haltClasses_cls d

theorem enterHalt_mm {cause : Nat} (h : s.sys.mode ≠ .test) : (s.enterHalt cause).mm = s.mm := by
  have hover : OnlyChanges [.tly] s s.overrunRecs := overrunRecs_only (within rfl) OnlyChanges.refl
  have hhalt : OnlyChanges [.cyc, .lsp] s.overrunRecs.preempt s.overrunRecs.preempt.haltClasses :=
    haltClasses_only (within rfl) OnlyChanges.refl
  have hmode : s.overrunRecs.preempt.haltClasses.sys.mode = s.sys.mode := by
    rw [hhalt.same .sys (by decide), preempt_mode, hover.same .sys (by decide)]
  have hmm : s.overrunRecs.preempt.haltClasses.mm = s.mm :=
    (haltClasses_only (within rfl) (preempt_only (within rfl) (OnlyChanges.mono hover (within rfl))) :
      OnlyChanges [.sys, .cyc, .lsp, .tly] s _).same .mm (by decide)
  have hl : (s.enterHalt cause).mm = _ :=
    (lockout_only (within rfl) OnlyChanges.refl : OnlyChanges [.saf, .tly, .outbox] _ (s.enterHalt cause)).same .mm (by decide)
  exact hl.trans ((setMode_mm (hmode ▸ h)).trans hmm)

/-- Only an exit from TEST disarms an injection (spec/16_memory_integrity.md R437), so a halt from another mode leaves that block. -/
theorem enterHalt_frame {cause : Nat} (h : s.sys.mode ≠ .test) :
    OnlyChanges [.sys, .hif, .cyc, .lsp, .saf, .tly, .outbox] s (s.enterHalt cause) :=
  OnlyChanges.drop (enterHalt_only (within rfl) OnlyChanges.refl) (p := .mm) (enterHalt_mm h)

/-- The halt of class `c` in cycle `n` for `why` has its record, and an executing module has told its partner (R137). -/
def haltTold (c why : Nat) (n : DWord) (s : State) : State :=
  let t := s.log 0x0203 5 ([BitVec.ofNat 8 c, BitVec.ofNat 8 why, 0, 0] ++ le 8 n.toNat)
  if why ≠ 3 ∧ t.executes = true then t.notice 2 1 t.lastCommit 0 else t

theorem haltTold_frame (c why : Nat) (n : DWord) : OnlyChanges [.tly, .dpx2, .outbox] s (haltTold c why n s) :=
  OnlyChanges.ite (notice_only (within rfl) (log_only (within rfl) OnlyChanges.refl)) (log_only (within rfl) OnlyChanges.refl)

/-- With no in-sync partner and outside a settle window, a halt notice ends in FAULT-HALT with cause 1. -/
theorem haltNotice_eq (hs : s.boot.act.state ≠ 4) (hi : s.insync = false) (c why : Nat) (n : DWord) :
    s.haltNotice c why n = (haltTold c why n s).enterHalt 1 := by
  have hset : ∀ v : State, OnlyChanges [.tly] s v → v.settling = false := fun v k => by
    have hboot : v.boot = s.boot := k.same .boot (by decide)
    rw [State.settling, hboot, decide_eq_false hs, Bool.false_and]
  have hin : (haltTold c why n s).insync = false := by
    rw [State.insync, (haltTold_frame c why n).same .dpx (by decide)]
    exact hi
  have hend : (haltTold c why n s).endInsync 6 = haltTold c why n s := by simp [State.endInsync, hin]
  exact Eq.trans (if_neg (by simp [hset _ (log_only (within rfl) OnlyChanges.refl)])) (congrArg (State.enterHalt 1) hend)

end Sys2Proof.Proofs
end

section
/-! The soft budget and the hard limit of a cycle (O24; spec/05_cyclic_execution.md R136 to R138). -/

namespace Sys2Proof.Proofs

open Sys2Proof.Machine Sys2Proof.Safety Sys2Proof.Laws

variable {s : State} {c : Fin 8}

/-- Class `c` is configured and in a cycle that is not held, on a module whose pairs are up: its limits are watched. -/
structure Watched (c : Fin 8) (s : State) : Prop where
  up : s.pairsUp = true
  configured : (s.ccfg c).en = true
  active : (s.cls c).active = true
  unheld : (s.cls c).held = false

/-! The soft budget. -/

theorem exec_softBudgetExpiry : exec (.softBudgetExpiry c) s = execSoftBudgetExpiry c s := rfl

theorem softBudgetExpiry_counts (h : Watched c s) (hn : (s.cls c).cycOver = false) :
    exec (.softBudgetExpiry c) s = done s (s.softOver c) :=
  exec_softBudgetExpiry.trans (if_pos (by simp [h.up, h.configured, h.active, h.unheld, hn]))

theorem softBudgetExpiry_again (ho : (s.cls c).cycOver = true) : exec (.softBudgetExpiry c) s = .next s :=
  exec_softBudgetExpiry.trans (if_neg (by simp [ho]))

/-- The class `x` with its overrun noted. -/
def overrun (x : Cls) : Cls :=
  { x with overSoft := true, cycOver := true, ovrCnt := x.ovrCnt + 1, dueOver := x.dueOver || x.prevIn }

/-- Outside a proof window an overrun is noted in its class and nowhere else. -/
theorem softOver_eq (hw : s.dpx2.proofWin = false) (c : Nat) : s.softOver c = s.updCls c overrun :=
  if_neg (by simp [hw])

/-! The hard limit. -/

theorem exec_hardLimitExpiry : exec (.hardLimitExpiry c) s = execHardLimitExpiry c s := rfl

theorem hardLimitExpiry_eq (h : Watched c s) : exec (.hardLimitExpiry c) s = done s (s.hardOver c) :=
  exec_hardLimitExpiry.trans (if_pos (by simp [h.up, h.configured, h.active, h.unheld]))

/-- The parts that a halt notice changes outside TEST and with no in-sync partner, with what follows it. -/
def noticing : List Part := [.sys, .hif, .cyc, .lsp, .dpx2, .can, .canq, .fio, .saf, .tly, .outbox]

/-- A command that halts the application: FAULT-HALT with cause 1, and no class goes on. -/
theorem done_haltNotice (hm : s.sys.mode ≠ .test) (hs : s.boot.act.state ≠ 4) (hi : s.insync = false) (c why : Nat) (n : DWord) :
    ∃ t, done s (s.haltNotice c why n) = .next t ∧ Halted 1 t ∧ (∀ d, (t.cls d).running = false ∧ (t.cls d).active = false) ∧
      OnlyChanges noticing s t := by
  have ht := haltTold_frame (s := s) c why n
  have hmode : (haltTold c why n s).sys.mode ≠ .test := by rwa [ht.same .sys (by decide)]
  refine ⟨settleState s ((haltTold c why n s).enterHalt 1), by rw [haltNotice_eq hs hi]; rfl, (halted_enterHalt 1).settle, fun d => ?_, ?_⟩
  · rw [settleState_cls]
    exact enterHalt_cls 1 d
  · exact OnlyChanges.trans (OnlyChanges.mono ht (within rfl))
      (OnlyChanges.trans (OnlyChanges.mono (enterHalt_frame hmode) (within rfl)) (OnlyChanges.mono settleState_frame (within rfl)))

/-- Settles O24: an overrun is noted in its class (`softOver_eq`), the hard limit of a skippable class in the Tally, and that of another
class halts the application (`done_haltNotice`). -/
theorem budgetsOfACycle : Obligations.BudgetsOfACycle := by
  refine ⟨?_, fun s c => softBudgetExpiry_again, ?_, ?_⟩
  · intro s c hS hup hen ha hh hn hw
    have hx := softBudgetExpiry_counts (c := c) ⟨hup, hen, ha, hh⟩ hn
    rw [softOver_eq hw] at hx
    have k : OnlyChanges [.cyc] s (s.updCls c overrun) := updCls_only (within rfl) OnlyChanges.refl
    exact ⟨_, hx.trans (done_of_frame hS k (within rfl)), cls_updCls .., fun d hd => cls_updCls_ne _ hd, updCls_cmem _,
      OnlyChanges.mono k (within rfl), rfl⟩
  · intro s c hS hup hen ha hh hk
    have hx := hardLimitExpiry_eq (c := c) ⟨hup, hen, ha, hh⟩
    rw [State.hardOver, if_pos hk] at hx
    have k : ∀ d, OnlyChanges [.tly] s (s.log 0x0202 4 d) := fun d => log_only (within rfl) OnlyChanges.refl
    exact ⟨_, hx.trans (done_of_frame hS (k _) (within rfl)), rfl, OnlyChanges.mono (k _) (within rfl),
      by rw [EventsOnly, (k _).same .hif (by decide)]⟩
  · intro s c hup hen ha hm hh hk hs hi
    have hx := hardLimitExpiry_eq (c := c) ⟨hup, hen, ha, hh⟩
    rw [State.hardOver, if_neg (by simp [hk])] at hx
    obtain ⟨t, ht, ⟨hmode, hrole, hcause, hlock⟩, hcls, hf⟩ := done_haltNotice hm hs hi c 1 (s.cls c).cur
    exact ⟨t, hx.trans ht, hmode, hcause, hrole, hcls, hlock.sel, hlock.sp, hlock.off, hf⟩

end Sys2Proof.Proofs
end

section
/-! The stores of a pair (spec/06_lockstep_and_darn.md R162, R174, R175): they publish nothing, and leave every class and every other pair
as it was. -/

namespace Sys2Proof.Proofs

open Sys2Proof.Machine Sys2Proof.Safety Sys2Proof.Laws

variable {s t u : State} {p c : Nat}

/-- From `s` to `t` only pair `p` and what its programs write for themselves have changed, and nothing is published. -/
structure WorkOf (p : Nat) (s t : State) : Prop where
  others : ∀ q, q ≠ p → t.pair q = s.pair q
  cls : ∀ c, t.cls c = s.cls c
  mem : ∀ c, published (t.cmem c) = published (s.cmem c)
  frame : OnlyChanges [.cyc, .lsp] s t

theorem WorkOf.refl : WorkOf p s s := ⟨fun _ _ => rfl, fun _ => rfl, fun _ => rfl, OnlyChanges.refl⟩

theorem WorkOf.ite {b : Prop} [Decidable b] (h : WorkOf p s t) (k : WorkOf p s u) : WorkOf p s (if b then t else u) := by
  split
  · exact h
  · exact k

theorem WorkOf.foldl {α : Type} {f : State → α → State} {l : List α} (h : WorkOf p s t)
    (hf : ∀ u a, WorkOf p s u → WorkOf p s (f u a)) : WorkOf p s (l.foldl f t) := by
  induction l generalizing t with
  | nil => exact h
  | cons a l ih => exact ih (hf _ _ h)

theorem WorkOf.image (h : WorkOf p s t) (c : Nat) : t.cls c = s.cls c ∧ (t.cmem c).image = (s.cmem c).image :=
  ⟨h.cls c, image_congr (h.mem c)⟩

theorem updPair_workOf {f : Pair → Pair} (h : WorkOf p s t) : WorkOf p s (t.updPair p f) :=
  ⟨fun q hq => (pair_updPair_ne f hq).trans (h.others q hq), h.cls, h.mem, updPair_only (within rfl) h.frame⟩

theorem poke_workOf {a addr : Nat} {b : List Byte} (h : WorkOf p s t) : WorkOf p s (t.updMem c fun m => m.poke a addr b) := by
  refine ⟨h.others, h.cls, fun d => ?_, updMem_only (within rfl) h.frame⟩
  by_cases hd : d = c
  · rw [hd, cmem_updMem, published_poke, h.mem]
  · rw [cmem_updMem_ne _ hd, h.mem]

theorem privStore_workOf {x : PStore} (h : WorkOf p s t) : WorkOf p s (t.privStore p c x) := by
  unfold State.privStore
  exact (poke_workOf h).ite ((updPair_workOf h).ite (poke_workOf (updPair_workOf h)))

theorem defStore_workOf {d : DefSt} (h : WorkOf p s t) : WorkOf p s (t.defStore p d) := by
  unfold State.defStore
  exact (updPair_workOf h).ite ((updPair_workOf h).ite (updPair_workOf h))

theorem runWork_workOf {w : Work} (h : WorkOf p s t) : WorkOf p s (t.runWork p c w) :=
  (h.foldl fun _ _ h => privStore_workOf h).foldl fun _ _ h => defStore_workOf h

theorem pairWork_workOf {w : Work} (h : WorkOf p s t) : WorkOf p s (t.pairWork p w) := (runWork_workOf h).ite h

theorem pairWork_none : s.pairWork p {} = s := ite_self s

end Sys2Proof.Proofs
end

section
/-! The debugger of a broken pair (O27; spec/06_lockstep_and_darn.md R174 to R176). -/

namespace Sys2Proof.Proofs

open Sys2Proof.Machine Sys2Proof.Safety Sys2Proof.Laws

variable {s : State} {p b : Fin 4} {pc : Word} {work : Work}

/-! Which write acts, and which is discarded (R176). -/

theorem exec_dbgHalt : exec (.dbgHalt p pc work) s = execDbgHalt p pc work s := rfl
theorem exec_dbgStep : exec (.dbgStep p pc work) s = execDbgStep p pc work s := rfl
theorem exec_dbgResume : exec (.dbgResume p) s = execDbgResume p s := rfl
theorem exec_breakpointHit : exec (.breakpointHit p b work) s = execBreakpointHit p b work s := rfl

theorem dbgHalt_acts (hr : s.reach = true) (hd : s.debuggable p = true) (hh : (s.pair p).halted = false) :
    exec (.dbgHalt p pc work) s = .next (s.haltCore p pc work) := by
  simp [exec_dbgHalt, execDbgHalt, hr, hd, hh]

theorem dbgStep_acts (hr : s.reach = true) (hd : s.debuggable p = true) (hh : (s.pair p).halted = true) :
    exec (.dbgStep p pc work) s = .next (s.stepCore p pc work) := by
  simp [exec_dbgStep, execDbgStep, hr, hd, hh]

theorem dbgResume_acts (hr : s.reach = true) (hd : s.debuggable p = true) : exec (.dbgResume p) s = .next (s.resumeCore p) := by
  simp [exec_dbgResume, execDbgResume, hr, hd]

theorem dbgHalt_discarded (hr : s.reach = true) (hd : s.debuggable p = false) :
    exec (.dbgHalt p pc work) s = done s (s.roWr (lspReg Reg.lspPairDbgCtrl p)) := by
  simp [exec_dbgHalt, execDbgHalt, hr, hd]

theorem dbgStep_discarded (hr : s.reach = true) (hd : s.debuggable p = false) :
    exec (.dbgStep p pc work) s = done s (s.roWr (lspReg Reg.lspPairDbgCtrl p)) := by
  simp [exec_dbgStep, execDbgStep, hr, hd]

theorem dbgResume_discarded (hr : s.reach = true) (hd : s.debuggable p = false) :
    exec (.dbgResume p) s = done s (s.roWr (lspReg Reg.lspPairDbgCtrl p)) := by
  simp [exec_dbgResume, execDbgResume, hr, hd]

/-- A write counted as one to a read-only register (spec/03_register_conventions.md R62). -/
theorem done_roWr (h : Settled s) (off : Nat) : ∃ t, done s (s.roWr off) = .next t ∧ t.sys.roWr = s.sys.roWr + 1 ∧
    OnlyChanges [.sys, .tly, .hif, .outbox] s t ∧ EventsOnly s t :=
  have k := discarded_roWr (off := off) h
  ⟨_, rfl, (congrArg Sys.roWr k.sys :), k.frame, k.events⟩

/-! What core A does. -/

theorem haltCore_workOf {p : Nat} : WorkOf p s (s.haltCore p pc work) := updPair_workOf (pairWork_workOf WorkOf.refl)

theorem stepCore_workOf {p : Nat} : WorkOf p s (s.stepCore p pc work) :=
  updPair_workOf (pairWork_workOf (updPair_workOf WorkOf.refl))

theorem haltCore_pair {p : Nat} : (s.haltCore p pc work).pair p =
    { (s.pairWork p work).pair p with halted := true, pc := pc, bpHit := false, stepped := false } := pair_updPair ..

theorem stepCore_pair {p : Nat} : (s.stepCore p pc work).pair p =
    { ((s.updPair p fun x => { x with halted := false }).pairWork p work).pair p with
      halted := true, stepped := true, bpHit := false, pc := pc } := pair_updPair ..

/-- An instruction that stores nothing changes only where core A stands. -/
theorem stepCore_pair_none {p : Nat} : (s.stepCore p pc {}).pair p =
    { s.pair p with halted := true, stepped := true, bpHit := false, pc := pc } := by
  rw [stepCore_pair, pairWork_none, pair_updPair]

/-- Core A halts at its breakpoint number `n`. -/
def breakAt (p n : Nat) (pc : Word) (work : Work) (s : State) : State :=
  (s.haltCore p pc work).updPair p fun x => { x with bpHit := true, bpNo := BitVec.ofNat 2 n }

theorem breakpointHit_acts (hd : s.debuggable p = true) (hh : (s.pair p).halted = false) (he : (s.bpReg p b).getLsbD 0 = true) :
    exec (.breakpointHit p b work) s = .next (breakAt p b (s.bpReg p b &&& 0xFFFFFFFC) work s) :=
  exec_breakpointHit.trans (if_pos (by simp only [hd, hh, he]; rfl))

theorem breakpointHit_idle (hd : s.debuggable p = false) : exec (.breakpointHit p b work) s = .next s :=
  exec_breakpointHit.trans (if_neg (by simp [hd]))

theorem breakAt_workOf {p n : Nat} : WorkOf p s (breakAt p n pc work s) := updPair_workOf haltCore_workOf

theorem breakAt_pair {p n : Nat} : (breakAt p n pc work s).pair p = { (s.pairWork p work).pair p with
    halted := true, pc := pc, bpHit := true, stepped := false, bpNo := BitVec.ofNat 2 n } := by
  rw [breakAt, pair_updPair, haltCore_pair]

/-- Settles O27: a debug operation is the stores of its pair and an update of that pair (`WorkOf`); a discarded write counts. -/
theorem debuggerOfABrokenPair : Obligations.DebuggerOfABrokenPair := by
  refine ⟨?_, ?_, ?_, ?_, ?_, ?_⟩
  · intro s p pc work hr hd hh
    have k : WorkOf p s (s.haltCore p pc work) := haltCore_workOf
    exact ⟨_, dbgHalt_acts hr hd hh, haltCore_pair, k.others, k.image, k.frame⟩
  · intro s p pc work hr hd hh
    have k : WorkOf p s (s.stepCore p pc work) := stepCore_workOf
    have hp := stepCore_pair (s := s) (p := p) (pc := pc) (work := work)
    refine ⟨_, dbgStep_acts hr hd hh, by rw [hp], by rw [hp], by rw [hp], by rw [hp], ?_, k.others, k.image, k.frame⟩
    rintro rfl
    exact stepCore_pair_none
  · intro s p hr hd
    exact ⟨_, dbgResume_acts hr hd, pair_updPair .., fun q hq => pair_updPair_ne _ hq, resumeCore_only (within rfl) OnlyChanges.refl⟩
  · intro s p b work hd hh he
    have k : WorkOf p s (breakAt p b (s.bpReg p b &&& 0xFFFFFFFC) work s) := breakAt_workOf
    exact ⟨_, breakpointHit_acts hd hh he, breakAt_pair, k.others, k.image, k.frame⟩
  · intro s p pc work hS hr hd
    rw [dbgHalt_discarded hr hd, dbgStep_discarded hr hd, dbgResume_discarded hr hd]
    exact ⟨done_roWr hS _, done_roWr hS _, done_roWr hS _⟩
  · intro s p b work hd
    exact breakpointHit_idle hd

end Sys2Proof.Proofs
end

section
/-! Memories out of canonical form (O25, O26). A `Mem` lists its addresses rising, each once; the type does not hold that, and neither do
the hypotheses of the two statements. Where an address stands twice, a store of 0 removes the first entry and the second one is read
(`rd_wr_self` asks for the form). -/

namespace Sys2Proof.Proofs

open Sys2Proof.Machine Sys2Proof.Safety Sys2Proof.Laws

theorem settled_of_canUnset {s : State} (h : ∀ c < 8, s.canSet c = false) (hp : s.sys.preempted = []) : Settled s where
  can c _ _ hc hs _ := by cases (h c hc).symm.trans hs
  served _ := hp

/-- A module in RUN whose class 0 is in a cycle. -/
def inCycle : State := { State.reset with
  sys.mode := .run, cfg.cls := [(0, { en := true, cycUs := 1000 })], cyc.cls := [(0, { running := true, active := true })] }

/-! A seal that stores into the shared memory (O25). -/

/-- Its class waits on pair 0 for a seal, with a deferred store of 0 to address 5 of the shared memory, which lists this address
twice. -/
def sharedTwice : State := { inCycle with
  cyc.shared := [(5, 1), (5, 2)], lsp := [(0, { idle := false, taking := true, defer := [.mem 5 [0]] })] }

/-- The byte at address 5 of the shared memory in a next state. -/
def sharedAt5 : Host.Outcome State Fault Refusal → Option Byte
  | .next t => some (t.cyc.shared.rd 5)
  | _ => none

theorem sharedAt5_checkpointSeal : sharedAt5 (exec (.checkpointSeal 0) sharedTwice) = some 2 := by decide +kernel

/-- Refutes O25: in its fifth clause the bytes of a deferred store are said to be read back whatever form the shared memory has, and
here 2 is read where 0 was stored. -/
theorem not_checkpointsBeginAndSeal : ¬ Obligations.CheckpointsBeginAndSeal := by
  rintro ⟨-, -, -, -, h, -⟩
  obtain ⟨t, e, hreads, -⟩ := h sharedTwice 0 5 [0] (settled_of_canUnset (by decide) rfl) rfl rfl rfl rfl rfl (by decide) rfl rfl rfl
  have hfound : sharedAt5 (.next t) = some 2 := e ▸ sharedAt5_checkpointSeal
  have hstored : sharedAt5 (.next t) = some 0 := congrArg some (hreads 0 Nat.zero_lt_one)
  cases hstored.symm.trans hfound

/-! A restore into the data of a class (O26). -/

/-- The log entry of the line at address 0 of the data of class 0, all of whose old bytes are 0. -/
def zeroLine : LogEnt := { old := List.replicate 64 0 }

/-- Its pair 0 restores that line for class 0, whose data lists address 0 twice. -/
def dataTwice : State := { inCycle with
  cyc.mem := [(0, { data := [(0, 1), (0, 2)] })], lsp := [(0, { idle := false, restoring := true, log := [zeroLine] })] }

/-- The byte at address 0 of the data of class 0 in a next state. -/
def dataAt0 : Host.Outcome State Fault Refusal → Option Byte
  | .next t => some (((t.cmem 0).area 0).rd 0)
  | _ => none

theorem dataAt0_darnRestoreEnd : dataAt0 (exec (.darnRestoreEnd 0 0) dataTwice) = some 2 := by decide +kernel

/-- Refutes O26: in its last clause the old bytes of a logged line are said to be read back whatever form the memory has, and here 2 is
read where 0 was restored. -/
theorem not_darnsRestoreAndSecondMismatchesFailThePair : ¬ Obligations.DarnsRestoreAndSecondMismatchesFailThePair := by
  rintro ⟨-, -, -, -, -, h⟩
  obtain ⟨t, e, hreads, -⟩ := h dataTwice 0 0 zeroLine (settled_of_canUnset (by decide) rfl) rfl rfl rfl (by decide) rfl (by decide) rfl
  have hfound : dataAt0 (.next t) = some 2 := e ▸ dataAt0_darnRestoreEnd
  have hrestored : dataAt0 (.next t) = some 0 := congrArg some (hreads 0 (by decide))
  cases hrestored.symm.trans hfound

end Sys2Proof.Proofs
end

section
/-! What sampling and the acts of phase 0 leave of a loop (spec/07_loop_engines.md R187, R192, R199, R203). -/

namespace Sys2Proof.Proofs

open Sys2Proof.Machine Sys2Proof.Safety Sys2Proof.Laws

variable {s t u : State} {n : Nat} {l m : Loop} {c : LoopCfg}

/-! Sampling (R187). -/

/-- From `s` to `t` loop `n` has sampled inputs: its feedback and its last valid inputs may differ, and no other loop does. -/
structure Samples (n : Nat) (s t : State) : Prop where
  loop : t.loop n = { s.loop n with fb := (t.loop n).fb, fbOk := (t.loop n).fbOk, ins := (t.loop n).ins }
  others : ∀ m, m ≠ n → t.loop m = s.loop m
  frame : OnlyChanges [.cle] s t

theorem Samples.refl : Samples n s s := ⟨rfl, fun _ _ => rfl, OnlyChanges.refl⟩

theorem Samples.trans (h : Samples n s t) (k : Samples n t u) : Samples n s u :=
  ⟨by rw [k.loop, h.loop], fun m hm => (k.others m hm).trans (h.others m hm), OnlyChanges.trans h.frame k.frame⟩

theorem samples_updLoop {f : Loop → Loop}
    (h : f (s.loop n) = { s.loop n with fb := (f (s.loop n)).fb, fbOk := (f (s.loop n)).fbOk, ins := (f (s.loop n)).ins }) :
    Samples n s (s.updLoop n f) :=
  ⟨by rw [loop_updLoop]; exact h, fun _ hm => loop_updLoop_ne f hm, updLoop_only (within rfl) OnlyChanges.refl⟩

theorem samples_updEng {e : Nat} {f : Eng → Eng} : Samples n s (s.updEng e f) :=
  ⟨rfl, fun _ _ => rfl, updEng_only (within rfl) OnlyChanges.refl⟩

theorem sampleOne_samples {e : Nat × InSrc} : Samples n s (s.sampleOne n e) := by
  unfold State.sampleOne
  dsimp only
  split
  · exact samples_updLoop rfl
  split
  · exact samples_updLoop rfl
  split
  · exact Samples.refl
  · exact samples_updEng

theorem sampleIns_samples {p : InSrc → Bool} : Samples n s (s.sampleIns n p) := by
  have hall : ∀ (l : List (Nat × InSrc)) (t : State), Samples n t (l.foldl (fun (u : State) e => u.sampleOne n e) t) := by
    intro l
    induction l with
    | nil => exact fun t => Samples.refl
    | cons e l ih => exact fun t => sampleOne_samples.trans (ih _)
  exact hall _ _

/-! The requests and the presses that a loop takes at phase 0 (R192, R199). -/

/-- The requests of a loop decide on manual and on the live manual output; the rest of the loop is as it was. -/
theorem takeRequests_eq : l.takeRequests = { l with
    nowRearm := l.rearmPend, nowAuto := l.autoReq && !l.manReq, nowMan := l.manReq, autoRef := l.op.mout
    rearmPend := false, autoReq := false, manReq := false, man := l.man || l.manReq
    op := if l.manReq then { l.op with mout := l.out } else l.op } := by
  unfold Loop.takeRequests
  cases hm : l.manReq <;> simp

theorem takeOp_of_idle (h : l.opPress.pend = false) : l.takeOp = l := by simp [Loop.takeOp, h]

theorem takeOp_of_ok (h : l.opPress.pend = true) (hok : l.stg.ok = true) : l.takeOp =
    { l with op := l.stg, opPress := { l.opPress with pend := false, refused := false }, presses := l.presses + 1 } := by
  simp [Loop.takeOp, h, hok]

theorem takeOp_of_bad (h : l.opPress.pend = true) (hbad : l.stg.ok = false) : l.takeOp =
    { l with opPress := { l.opPress with pend := false, refused := true } } := by
  simp [Loop.takeOp, h, hbad]

/-- A press of the operating group leaves the requests, the staging group, the banks and their press. -/
theorem takeOp_frame : l.takeOp = { l with op := l.takeOp.op, opPress := l.takeOp.opPress, presses := l.takeOp.presses } := by
  unfold Loop.takeOp
  split
  · rfl
  split <;> rfl

theorem takeBank_of_idle (h : l.bkPress.pend = false) : l.takeBank c = l := by simp [Loop.takeBank, h]

theorem takeBank_of_ok (h : l.bkPress.pend = true) (hok : bankOk c (bankOf l.inactive) = true) : l.takeBank c =
    { l with abank := !l.abank, bank0 := l.inactive, bank1 := l.inactive, bkPress := { l.bkPress with pend := false, refused := false } } := by
  simp [Loop.takeBank, h, hok]

theorem takeBank_of_bad (h : l.bkPress.pend = true) (hbad : bankOk c (bankOf l.inactive) = false) : l.takeBank c =
    { l with bkPress := { l.bkPress with pend := false, refused := true } } := by
  simp [Loop.takeBank, h, hbad]

/-- A press of the bank leaves the operating group, its press and its count. -/
theorem takeBank_frame : l.takeBank c =
    { l with abank := (l.takeBank c).abank, bank0 := (l.takeBank c).bank0, bank1 := (l.takeBank c).bank1, bkPress := (l.takeBank c).bkPress } := by
  unfold Loop.takeBank
  split
  · rfl
  split <;> rfl

/-- `m` has the banks of `l`, and the same one of them is active. -/
structure SameBanks (l m : Loop) : Prop where
  abank : m.abank = l.abank
  bank0 : m.bank0 = l.bank0
  bank1 : m.bank1 = l.bank1

theorem SameBanks.inactive (h : SameBanks l m) : m.inactive = l.inactive := by
  rw [Loop.inactive, Loop.inactive, h.abank, h.bank0, h.bank1]

theorem SameBanks.active (h : SameBanks l m) : m.active = l.active := by
  rw [Loop.active, Loop.active, h.abank, h.bank0, h.bank1]

end Sys2Proof.Proofs
end

section
/-! Phase 0 of a loop and the loop commands (O28, spec/07_loop_engines.md R181, R191, R192, R199, R203, R208, R209). -/

namespace Sys2Proof.Proofs

open Sys2Proof.Machine Sys2Proof.Safety Sys2Proof.Laws

variable {s : State} {n w : Nat} {ini : Ini} {l : Loop}

/-! Minor frames (R191). -/

/-- The minor frames of a table hold entries of the table. -/
theorem mem_of_mem_splitFrames {f : List FrEnt} {x : FrEnt} (hx : x ∈ f) : ∀ {es : List FrEnt}, f ∈ splitFrames es → x ∈ es
  | [], hf => nomatch hf
  | e :: es, hf => by
    have ih : ∀ g ∈ splitFrames es, x ∈ g → x ∈ es := fun g hg hxg => mem_of_mem_splitFrames hxg hg
    have tail : x ∈ es → x ∈ e :: es := List.mem_cons_of_mem e
    unfold splitFrames at hf
    split at hf
    · rcases List.mem_cons.mp hf with rfl | hf
      · exact List.mem_singleton.mp hx ▸ List.mem_cons_self
      · exact tail (ih f hf hx)
    split at hf
    · exact List.mem_singleton.mp (List.mem_singleton.mp hf ▸ hx) ▸ List.mem_cons_self
    · next g gs hs =>
      rcases List.mem_cons.mp hf with rfl | hf
      · rcases List.mem_cons.mp hx with rfl | hx
        · exact List.mem_cons_self
        · exact tail (ih g (hs ▸ List.mem_cons_self) hx)
      · exact tail (ih f (hs ▸ List.mem_cons_of_mem g hf) hx)

theorem mem_frame_of_mem_todo {g : Eng} {i : Nat} {x : FrEnt} (hx : x ∈ (g.begin i).todo) : x ∈ g.frame := by
  have hx : x ∈ (splitFrames g.frame).getD (i % max 1 (splitFrames g.frame).length) [] := hx
  rw [List.getD_eq_getElem?_getD] at hx
  cases hf : (splitFrames g.frame)[i % max 1 (splitFrames g.frame).length]? with
  | none => rw [hf] at hx; cases hx
  | some f => rw [hf] at hx; exact mem_of_mem_splitFrames hx (List.mem_of_getElem? hf)

theorem exec_minorFrameStart {e : Fin 4} : exec (.minorFrameStart e) s = execMinorFrameStart e s := rfl

theorem minorFrameStart_begins {e : Fin 4} (h : s.loopsUp = true) :
    exec (.minorFrameStart e) s = .next (s.updEng e fun g => g.begin (s.tim.ns / max 1 (s.minorNs e))) :=
  exec_minorFrameStart.trans (if_pos h)

/-! The sample that a loop begins at phase 0. -/

theorem resume_eq {r : Bool} {y : Word} :
    l.resume r y = { l with run := r, bumpDue := (l.resume r y).bumpDue, uref := (l.resume r y).uref } := by
  unfold Loop.resume
  split
  · next h =>
    obtain rfl : r = true := (Bool.and_eq_true_iff.mp h).1
    rfl
  split
  · next h hr =>
    have hrun : l.run = r := by simpa [hr] using h
    subst hrun
    rfl
  · next hr =>
    obtain rfl : r = false := Bool.not_eq_true _ ▸ hr
    rfl

/-- `s` after loop `n` has begun its sample at phase 0, before it takes what is pending. -/
def sampled (n : Nat) (s : State) : State :=
  let t := s.updLoop n fun l => { l.resume (s.loopRuns n) (s.readback n) with
    stepped := false, sample := s.sampleNo (s.lcfg n).ns, conv := [], frzOld := l.op.frztime }
  if s.tracks then t else t.sampleIns n InSrc.atPhase0

/-- What loop `n` is when the presses of phase 0 are taken: it has sampled and taken its requests. -/
def loopAsked (n : Nat) (s : State) : Loop := ((sampled n s).loop n).takeRequests

/-- `s` after loop `n` has taken all that is pending at phase 0. -/
def taken (n : Nat) (s : State) : State := (sampled n s).updLoop n fun l => (l.takeRequests.takeOp).takeBank (s.lcfg n)

theorem sampled_loop : (sampled n s).loop n = { s.loop n with
    run := s.loopRuns n, bumpDue := ((sampled n s).loop n).bumpDue, uref := ((sampled n s).loop n).uref
    stepped := ((sampled n s).loop n).stepped, sample := ((sampled n s).loop n).sample, conv := ((sampled n s).loop n).conv
    frzOld := ((sampled n s).loop n).frzOld, fb := ((sampled n s).loop n).fb, fbOk := ((sampled n s).loop n).fbOk
    ins := ((sampled n s).loop n).ins } := by
  unfold sampled
  extract_lets t
  have ht : t.loop n = _ := loop_updLoop n _
  rw [resume_eq] at ht
  split
  · rw [ht]
  · have hs := (sampleIns_samples (s := t) (n := n) (p := InSrc.atPhase0)).loop
    rw [hs, ht]

theorem sampled_others {m : Nat} (hm : m ≠ n) : (sampled n s).loop m = s.loop m := by
  unfold sampled
  extract_lets t
  have ht : t.loop m = s.loop m := loop_updLoop_ne _ hm
  split
  · exact ht
  · exact (sampleIns_samples.others m hm).trans ht

theorem sampled_frame : OnlyChanges [.cle] s (sampled n s) := by
  unfold sampled
  extract_lets t
  have ht : OnlyChanges [.cle] s t := updLoop_only (within rfl) OnlyChanges.refl
  exact OnlyChanges.ite ht (sampleIns_only (within rfl) ht)

theorem loopAsked_eq : loopAsked n s = { s.loop n with
    run := s.loopRuns n, man := (s.loop n).man || (s.loop n).manReq
    op := if (s.loop n).manReq then { (s.loop n).op with mout := (s.loop n).out } else (s.loop n).op
    nowRearm := (s.loop n).rearmPend, rearmPend := false, autoReq := false, manReq := false
    bumpDue := (loopAsked n s).bumpDue, uref := (loopAsked n s).uref, stepped := (loopAsked n s).stepped, sample := (loopAsked n s).sample
    conv := (loopAsked n s).conv, frzOld := (loopAsked n s).frzOld, fb := (loopAsked n s).fb, fbOk := (loopAsked n s).fbOk
    ins := (loopAsked n s).ins, nowAuto := (loopAsked n s).nowAuto, nowMan := (loopAsked n s).nowMan, autoRef := (loopAsked n s).autoRef } := by
  unfold loopAsked
  rw [takeRequests_eq, sampled_loop]

theorem loopAsked_opPress : (loopAsked n s).opPress = (s.loop n).opPress := by rw [loopAsked_eq]

theorem loopAsked_bkPress : (loopAsked n s).bkPress = (s.loop n).bkPress := by rw [loopAsked_eq]

theorem loopAsked_stg : (loopAsked n s).stg = (s.loop n).stg := by rw [loopAsked_eq]

theorem taken_loop : (taken n s).loop n = ((loopAsked n s).takeOp).takeBank (s.lcfg n) := loop_updLoop ..

theorem taken_others {m : Nat} (hm : m ≠ n) : (taken n s).loop m = s.loop m :=
  (loop_updLoop_ne _ hm).trans (sampled_others hm)

theorem taken_frame : OnlyChanges [.cle] s (taken n s) := updLoop_only (within rfl) sampled_frame

/-! LOOP_PHASE0: an operating-group press that was applied goes to an in-sync partner, which changes no loop. -/

theorem phase0_eq : s.phase0 n =
    if ((taken n s).loop n).presses = (s.loop n).presses then taken n s else (taken n s).sendGroup n := rfl

theorem sendGroup_of_alone (h : s.insync = false) : s.sendGroup n = s := by simp [State.sendGroup, h]

theorem exec_loopPhase0 : exec (.loopPhase0 n) s = execLoopPhase0 n s := rfl

theorem loopPhase0_acts (hup : s.loopsUp = true) (hset : s.loopSet n = true) : exec (.loopPhase0 n) s = .next (s.phase0 n) :=
  exec_loopPhase0.trans (if_pos (by rw [hup, hset]; rfl))

theorem phase0_cle : (s.phase0 n).cle = (taken n s).cle := by
  rw [phase0_eq]
  split
  · rfl
  · exact (sendGroup_only (within rfl) OnlyChanges.refl : OnlyChanges [.sys, .hif, .dpx, .dpx2, .tly, .outbox] _ _).same .cle (by decide)

theorem phase0_loop : (s.phase0 n).loop n = ((loopAsked n s).takeOp).takeBank (s.lcfg n) := by
  rw [State.loop, phase0_cle]
  exact taken_loop

theorem phase0_others : ∀ m, m ≠ n → (s.phase0 n).loop m = s.loop m := fun m hm => by
  rw [State.loop, phase0_cle]
  exact taken_others hm

theorem phase0_frame : OnlyChanges [.sys, .hif, .cle, .dpx, .dpx2, .tly, .outbox] s (s.phase0 n) :=
  phase0_only (within rfl) OnlyChanges.refl

theorem phase0_frame_of_presses (h : ((s.phase0 n).loop n).presses = (s.loop n).presses) : OnlyChanges [.cle] s (s.phase0 n) := by
  have ht : ((taken n s).loop n).presses = (s.loop n).presses := by rw [taken_loop, ← phase0_loop, h]
  rw [phase0_eq, if_pos ht]
  exact taken_frame

theorem phase0_frame_of_alone (h : s.insync = false) : OnlyChanges [.cle] s (s.phase0 n) := by
  have hd : (taken n s).dpx = s.dpx := taken_frame.same .dpx (by decide)
  have ht : (taken n s).insync = false := by rw [State.insync, hd]; exact h
  rw [phase0_eq, sendGroup_of_alone ht, ite_self]
  exact taken_frame

/-! The banks when the bank press of phase 0 is taken: the ones before it. -/

theorem loopAsked_takeOp_bkPress : ((loopAsked n s).takeOp).bkPress = (s.loop n).bkPress := by
  rw [takeOp_frame, loopAsked_eq]

theorem loopAsked_takeOp_banks : SameBanks (s.loop n) (loopAsked n s).takeOp := by
  rw [takeOp_frame, loopAsked_eq]
  exact ⟨rfl, rfl, rfl⟩

/-! The loop commands (R199, R209). -/

theorem request_rearm : Loop.request 1 l = { l with rearmPend := true } := by simp [Loop.request]

theorem request_manual : Loop.request 2 l = { l with manReq := true } := by simp [Loop.request]

theorem request_auto : Loop.request 4 l = { l with autoReq := true } := by simp [Loop.request]

/-- A command `v` by the owner of the window and of the loop that it selects. -/
theorem done_loopCmd {v : Word} {f : Loop → Loop} (hS : Settled s) (hw : winOwner w ini = true) (hset : s.loopSet (s.winSlot w) = true)
    (ho : ownerOk (s.lcfg (s.winSlot w)).owner ini = true) (hf : ∀ l, Loop.request v l = f l) :
    ∃ t, done s (s.loopCmd w ini v) = .next t ∧ t.loop (s.winSlot w) = f (s.loop (s.winSlot w)) ∧
      (∀ m, m ≠ s.winSlot w → t.loop m = s.loop m) ∧ OnlyChanges [.cle] s t := by
  have hc : s.loopCmd w ini v = s.updLoop (s.winSlot w) (Loop.request v) := by simp [State.loopCmd, State.viaWindow, hw, hset, ho]
  have k : OnlyChanges [.cle] s (s.updLoop (s.winSlot w) (Loop.request v)) := updLoop_only (within rfl) OnlyChanges.refl
  rw [hc]
  exact ⟨_, done_of_frame hS k (within rfl), (loop_updLoop ..).trans (hf _), fun m hm => loop_updLoop_ne _ hm, k⟩

theorem loopCmd_foreign {v : Word} (hw : winOwner w ini = false) : s.loopCmd w ini v = s.roWr (Reg.cleLoopCmd + 0x100 * w) := by
  simp [State.loopCmd, State.viaWindow, hw]

theorem loopCmdRearm_acts {w : Fin 8} (hr : s.reach = true) : exec (.loopCmdRearm w ini) s = done s (s.loopCmd w ini 1) :=
  (rfl : _ = execLoopCmdRearm w ini s).trans (if_pos hr)

theorem loopCmdManual_acts {w : Fin 8} (hr : s.reach = true) : exec (.loopCmdManual w ini) s = done s (s.loopCmd w ini 2) :=
  (rfl : _ = execLoopCmdManual w ini s).trans (if_pos hr)

theorem loopCmdAuto_acts {w : Fin 8} (hr : s.reach = true) : exec (.loopCmdAuto w ini) s = done s (s.loopCmd w ini 4) :=
  (rfl : _ = execLoopCmdAuto w ini s).trans (if_pos hr)

/-- Settles O28: phase 0 takes the requests, then the press of the operating group, then that of the bank, each by what it makes of the
loop; a loop command is an update of one loop or a counted write. -/
theorem loopSamplesRequestsAndPresses : Obligations.LoopSamplesRequestsAndPresses := by
  refine ⟨?_, ?_, ?_, ?_, ?_, ?_, ?_, ?_⟩
  · intro s e hup
    have he : (s.updEng e fun g => g.begin (s.tim.ns / max 1 (s.minorNs e))).eng e = _ := eng_updEng ..
    refine ⟨_, minorFrameStart_begins hup, he, by rw [he]; rfl, fun x hx => ?_, by rw [he]; rfl, fun d hd => eng_updEng_ne _ hd,
      fun _ => rfl, updEng_only (within rfl) OnlyChanges.refl⟩
    rw [he] at hx
    exact mem_frame_of_mem_todo hx
  · intro s n hup hset hop hbk
    rw [← loopAsked_opPress] at hop
    rw [← loopAsked_bkPress] at hbk
    have hl : (s.phase0 n).loop n = _ := (phase0_loop.trans (by rw [takeOp_of_idle hop, takeBank_of_idle hbk])).trans loopAsked_eq
    have hbanks : SameBanks (s.loop n) ((s.phase0 n).loop n) := by
      rw [hl]
      exact ⟨rfl, rfl, rfl⟩
    exact ⟨_, loopPhase0_acts hup hset, congrArg Loop.op hl, congrArg Loop.man hl, congrArg Loop.manReq hl, congrArg Loop.autoReq hl,
      congrArg Loop.rearmPend hl, congrArg Loop.nowRearm hl, congrArg Loop.run hl, (congrArg Loop.out hl :), hbanks.active,
      (congrArg Loop.dyn hl :), phase0_others, phase0_frame_of_presses (congrArg Loop.presses hl :)⟩
  · intro s n hup hset hop hok hbk
    rw [← loopAsked_opPress] at hop
    rw [← loopAsked_stg] at hok
    rw [← loopAsked_takeOp_bkPress] at hbk
    have hl : (s.phase0 n).loop n = _ := (phase0_loop.trans (takeBank_of_idle hbk)).trans (takeOp_of_ok hop hok)
    rw [loopAsked_eq] at hl
    exact ⟨_, loopPhase0_acts hup hset, congrArg Loop.op hl, congrArg Loop.opPress hl, congrArg Loop.presses hl, phase0_others,
      phase0_frame, phase0_frame_of_alone⟩
  · intro s n hup hset hop hbad hman
    rw [← loopAsked_opPress] at hop
    rw [← loopAsked_stg] at hbad
    have hl : (s.phase0 n).loop n = _ := phase0_loop.trans takeBank_frame
    rw [takeOp_of_bad hop hbad, loopAsked_eq, hman] at hl
    have hpresses : ((s.phase0 n).loop n).presses = (s.loop n).presses := (congrArg Loop.presses hl :)
    exact ⟨_, loopPhase0_acts hup hset, (congrArg Loop.op hl :), congrArg Loop.opPress hl, hpresses, phase0_others,
      phase0_frame_of_presses hpresses⟩
  · intro s n hup hset hbk hok
    have hbanks : SameBanks (s.loop n) (loopAsked n s).takeOp := loopAsked_takeOp_banks
    rw [← loopAsked_takeOp_bkPress] at hbk
    rw [← hbanks.inactive] at hok
    have hl := phase0_loop.trans (takeBank_of_ok hbk hok)
    rw [hbanks.inactive, hbanks.abank, loopAsked_takeOp_bkPress] at hl
    have hactive : ((s.phase0 n).loop n).active = (s.loop n).inactive := by rw [hl]; exact ite_self _
    have hinactive : ((s.phase0 n).loop n).inactive = (s.loop n).inactive := by rw [hl]; exact ite_self _
    exact ⟨_, loopPhase0_acts hup hset, congrArg Loop.abank hl, hactive, hinactive, congrArg Loop.bkPress hl, phase0_others, phase0_frame⟩
  · intro s n hup hset hbk hbad
    have hbanks : SameBanks (s.loop n) (loopAsked n s).takeOp := loopAsked_takeOp_banks
    rw [← loopAsked_takeOp_bkPress] at hbk
    rw [← hbanks.inactive] at hbad
    have hl := phase0_loop.trans (takeBank_of_bad hbk hbad)
    have hkept : SameBanks (s.loop n) ((s.phase0 n).loop n) := by
      rw [hl]
      exact ⟨hbanks.abank, hbanks.bank0, hbanks.bank1⟩
    exact ⟨_, loopPhase0_acts hup hset, hkept.abank, hkept.active, congrArg (·.bkPress.refused) hl, congrArg (·.bkPress.pend) hl,
      phase0_others, phase0_frame⟩
  · intro s w ini hS hr hw hset ho
    rw [loopCmdRearm_acts hr, loopCmdManual_acts hr, loopCmdAuto_acts hr]
    exact ⟨done_loopCmd hS hw hset ho fun _ => request_rearm, done_loopCmd hS hw hset ho fun _ => request_manual,
      done_loopCmd hS hw hset ho fun _ => request_auto⟩
  · rintro s w ini i hS hr (rfl | rfl | rfl) hw
    · rw [loopCmdRearm_acts hr, loopCmd_foreign hw]
      exact done_roWr hS _
    · rw [loopCmdManual_acts hr, loopCmd_foreign hw]
      exact done_roWr hS _
    · rw [loopCmdAuto_acts hr, loopCmd_foreign hw]
      exact done_roWr hS _

end Sys2Proof.Proofs
end

section
/-! A standby in RUN on which a stop is in progress (O29): R203 holds the mirrored state of a standby's loops, and on a STOP every loop
writes its safe value from the next crease. The model does both (`State.crease`, `State.loopsDrive`). -/

namespace Sys2Proof.Proofs

open Sys2Proof.Machine Sys2Proof.Safety Sys2Proof.Laws

/-- A standby in RUN, with a stop of the classes in progress, whose loop 0 writes to local digital output 0. The output is on, and the
safe value of the loop is off. -/
def stoppingStandby : State := { State.reset with
  sys.mode := .run, sys.trans := some { dst := .stop }, regs := [(Reg.fioDioCfg, 0x41)]
  cfg.loops := [(0, { out := { kind := 2 } })], fio.run := true, fio.dio := [(0, { state := true })] }

/-- The value of local digital output 0 in a next state. -/
def output0 : Host.Outcome State Fault Refusal → Option Bool
  | .next t => some (t.fio.dio.look 0 {}).state
  | _ => none

theorem output0_loopCrease : output0 (exec (.loopCrease 0) stoppingStandby) = some false := by decide +kernel

/-- Refutes O29: in its last clause the crease of a loop on a standby in RUN is said to leave the local outputs as they are, and here it
switches the output of the loop off, as the stop in progress requires. -/
theorem not_loopStepsAndCreases : ¬ Obligations.LoopStepsAndCreases := by
  rintro ⟨-, -, -, -, -, -, h⟩
  obtain ⟨t, e, -, hfio, -⟩ := h stoppingStandby 0 (settled_of_canUnset (by decide) rfl) rfl rfl rfl fun _ => rfl
  have hoff : output0 (.next t) = some false := e ▸ output0_loopCrease
  have hkept : output0 (.next t) = some true := congrArg (fun f : Fio => some (f.dio.look 0 {}).state) hfio
  cases hoff.symm.trans hkept

end Sys2Proof.Proofs
end

section
/-! A recorded command of a lone primary whose completion waits: journaled with its effect (spec/04_host_rings.md R112), or prepared before
its record (spec/08_online_change.md R219). -/

namespace Sys2Proof.Proofs

open Sys2Proof.Machine Sys2Proof.Safety Sys2Proof.Laws

variable {s t v : State} {h : Hcmd} {op : HostOp}

/-- A command is held in its ring, whose fetch head has moved past it. -/
theorem waiting_of_held {i : Infl} (hm : (v.ring h.slot).sqHead = ((s.ring h.slot).sqHead + 1) % 2 ^ (s.ring h.slot).sqK) (hi : i.cmd = h) :
    Waiting h s (v.updRing h.slot fun r => { r with infl := some i }) := by
  refine ⟨⟨i, by rw [ring_updRing], by rw [hi], by rw [hi]⟩, ?_⟩
  rw [ring_updRing]
  exact hm

theorem afterRecord_waits {w : Word} {m : Bool} {j : DWord} (hw : (op.effect h (t.enterWin h.slot h.reqId)).wait = true) :
    t.afterRecord op h St.ok w m j = (op.effect h (t.enterWin h.slot h.reqId)).s.updRing h.slot fun r => { r with
      infl := some { cmd := h, recorded := true, mirrored := m, jseq := j, h := ((t.enterWin h.slot h.reqId).win h.slot).high } } := by
  unfold State.afterRecord
  dsimp only
  rw [if_neg (fun e => e rfl), if_pos hw]

/-- A journaled command whose completion waits takes effect in the step that takes it, and stays in its ring. -/
theorem runCmd_journal_waits (o : Offered op h s) (hp : s.sys.primary = true) (hd : op.dur ≠ .n) (hi : s.insync = false)
    (hc : op.check h (s.fetch h.slot) = .go) (hn : op.prepare h (s.fetch h.slot) = none)
    (hw : ∀ x, (op.effect h { s with hif := x }).wait = true) : ∃ x i, Entered h s x ∧ x.jseq = s.hif.jseq + 1 ∧ i.cmd = h ∧
    s.runCmd op h = (op.effect h { s with hif := x }).s.updRing h.slot fun r => { r with infl := some i } := by
  have e := (runCmd_recorded o hp hd hc hn).trans (record_alone hi)
  exact ⟨_, _, journal_entered (o.fresh hp), rfl, rfl, e.trans (recordJournal_eq.trans (afterRecord_waits (hw _)))⟩

/-- A command that is prepared before its record waits in its ring, and nothing is journaled. -/
theorem runCmd_prepares (o : Offered op h s) (hp : s.sys.primary = true) (hd : op.dur ≠ .n)
    (hc : op.check h (s.fetch h.slot) = .go) (hn : op.prepare h (s.fetch h.slot) = some v) (hk : v.hif = (s.fetch h.slot).hif) :
    Waiting h s (s.runCmd op h) ∧ (s.runCmd op h).hif.journal = s.hif.journal ∧ OnlyChanges [.hif] v (s.runCmd op h) := by
  have hf : ((s.fetch h.slot).win h.slot).high < h.reqId := o.fresh hp
  have hrun : s.runCmd op h = v.updRing h.slot fun r => { r with infl := some { cmd := h } } := by
    rw [runCmd_primary o.taken o.form hp]
    simp only [State.runPrimary, hf, hd, hc, hn, decide_true, Bool.not_true, Bool.false_eq_true, if_false]
  have hr : v.ring h.slot = (s.fetch h.slot).ring h.slot := by rw [State.ring, State.ring, hk]
  rw [hrun]
  exact ⟨waiting_of_held (by rw [hr, fetch_ring]) rfl, (congrArg Hif.journal hk :), updRing_only (within rfl) OnlyChanges.refl⟩

end Sys2Proof.Proofs
end

section
/-! The checks and the beginning of a program change (spec/08_online_change.md R214 to R222, R230). -/

namespace Sys2Proof.Proofs

open Sys2Proof.Machine Sys2Proof.Safety Sys2Proof.Laws

variable {s : State} {h : Hcmd} {st : BitVec 16} {w : Word}

/-- A verdict that refuses a command does so with a status other than OK. -/
def RefusalsFail (v : Verdict) : Prop := ∀ st w, v = .no st w → st ≠ St.ok

theorem RefusalsFail.go : RefusalsFail .go := fun _ _ e => Verdict.noConfusion e

theorem RefusalsFail.no (hs : st ≠ St.ok) : RefusalsFail (.no st w) := by
  rintro _ _ ⟨⟩
  exact hs

theorem RefusalsFail.ite {c : Prop} [Decidable c] {u v : Verdict} (hu : RefusalsFail u) (hv : RefusalsFail v) :
    RefusalsFail (if c then u else v) := by
  split
  · exact hu
  · exact hv

/-- The limits of a change, as the verdict that both checks end with. -/
theorem changeLimits_status (r : Option Word) : RefusalsFail (match r with
    | some n => .no St.refused n
    | none => .go) := by
  cases r
  · exact .go
  · exact .no (by decide)

theorem checkPkg_status {b : List Byte} : RefusalsFail (s.checkPkg b) :=
  .ite (.no (by decide)) (.ite (.no (by decide)) (.ite (.no (by decide)) (.ite (.no (by decide)) (.ite (.no (by decide))
    (changeLimits_status _)))))

theorem checkChange_status : RefusalsFail (s.checkChange h) :=
  .ite (.no (by decide)) (.ite (.no (by decide)) checkPkg_status)

theorem checkReturn_status : RefusalsFail (s.checkReturn h) :=
  .ite (.no (by decide)) (.ite (.no (by decide)) (.ite (.no (by decide)) (.ite (.no (by decide)) (.ite (.no (by decide))
    (changeLimits_status _)))))

end Sys2Proof.Proofs
end

section
/-! PROGRAM_LOAD CHANGE and RETURN on a primary without an in-sync partner (spec/08_online_change.md R214, R219, R227, R230) (O21). -/

namespace Sys2Proof.Proofs

open Sys2Proof.Machine Sys2Proof.Safety Sys2Proof.Laws

variable {s : State} {h : Hcmd} {op : HostOp} {ret : Bool}

/-- From `s` to `t` the change or RETURN that `h` asks for has been journaled and scheduled, and `h` waits for the exchange. -/
structure Scheduled (ret : Bool) (h : Hcmd) (s t : State) : Prop where
  waiting : Waiting h s t
  state : t.chg.state = 3
  isReturn : t.chg.isReturn = ret
  recorded : t.chg.recorded = true
  slot : t.chg.slot = h.slot
  active : t.chg.active = s.chg.active
  number : t.hif.jseq = s.hif.jseq + 1
  frame : OnlyChanges [.hif, .chg] s t

/-- From `s` to `t` the package of the CHANGE `h` has been taken for its store, and `h` waits with nothing journaled. -/
structure Prepared (h : Hcmd) (s t : State) : Prop where
  waiting : Waiting h s t
  state : t.chg.state = 1
  package : t.chg.package = h.payload
  stored : t.chg.stored = false
  recorded : t.chg.recorded = false
  slot : t.chg.slot = h.slot
  active : t.chg.active = s.chg.active
  journal : t.hif.journal = s.hif.journal
  frame : OnlyChanges [.hif, .chg] s t

/-- A command whose effect schedules an exchange, and which needs nothing before its record. -/
theorem runCmd_schedules (o : Offered op h s) (hp : s.sys.primary = true) (hd : op.dur ≠ .n) (hi : s.insync = false)
    (hc : op.check h (s.fetch h.slot) = .go) (hn : op.prepare h (s.fetch h.slot) = none) (he : ∀ u, op.effect h u = u.scheduleChange ret h) :
    Scheduled ret h s (s.runCmd op h) := by
  obtain ⟨x, i, e, hj, hcmd, hrun⟩ := runCmd_journal_waits o hp hd hi hc hn fun x => by rw [he]; rfl
  rw [he] at hrun
  have hv : OnlyChanges [.hif, .chg] s (State.scheduleChange ret h { s with hif := x }).s :=
    scheduleChange_only (within rfl) (OnlyChanges.mono (hif_frame x) (within rfl))
  rw [hrun]
  exact ⟨waiting_of_held (congrArg Ring.sqHead e.ring :) hcmd, rfl, rfl, rfl, rfl, rfl, hj, updRing_only (within rfl) hv⟩

theorem prepareChange_stored (hp : s.chg.package = h.payload) (hd : s.chg.pkgDone = true) (hi : s.insync = false) :
    s.prepareChange h = none := by
  simp [State.prepareChange, State.setUpChange, State.updChg, hp, hd, hi]

theorem setUpChange_unstored (hn : s.chg.package ≠ h.payload ∨ s.chg.pkgDone = false) : (s.setUpChange false h).chg.stored = false := by
  rcases hn with hp | hd
  · simp [State.setUpChange, State.updChg, hp]
  · simp [State.setUpChange, State.updChg, hd]

theorem prepareChange_unstored (hn : s.chg.package ≠ h.payload ∨ s.chg.pkgDone = false) (hi : s.insync = false) :
    s.prepareChange h = some (s.setUpChange false h) := by
  simp [State.prepareChange, setUpChange_unstored hn, hi]

/-- A CHANGE whose package does not stand in slot memory yet. -/
theorem runChange_prepares (o : Offered opChange h s) (hi : s.insync = false) (hc : s.checkChange h = .go)
    (hn : s.chg.package ≠ h.payload ∨ s.chg.pkgDone = false) : Prepared h s (s.runCmd opChange h) := by
  obtain ⟨hw, hj, hf⟩ := runCmd_prepares (v := (s.fetch h.slot).setUpChange false h) o (o.role rfl) (by decide) hc
    (prepareChange_unstored hn hi) rfl
  have hchg : (s.runCmd opChange h).chg = (s.setUpChange false h).chg := hf.same .chg (by decide)
  refine ⟨hw, ?_, ?_, hchg ▸ setUpChange_unstored hn, ?_, ?_, ?_, hj, OnlyChanges.trans ?_ (OnlyChanges.mono hf (within rfl))⟩
  case refine_6 => exact setUpChange_only (within rfl) (fetch_only (within rfl) OnlyChanges.refl)
  all_goals
    rw [hchg]
    rfl

/-- A PROGRAM_LOAD that fails a check completes with its status and begins no change. -/
theorem runLoad_refused {n : Nat} {st : BitVec 16} {w : Word} (o : Offered op (loadEntry h n) s) (hp : s.sys.primary = true) (hd : op.dur ≠ .n)
    (hi : s.insync = false) (hc : op.check (loadEntry h n) (s.fetch (loadEntry h n).slot) = .no st w) (hs : st ≠ St.ok) :
    (∃ l, Completed h st l s (s.runCmd op (loadEntry h n))) ∧ (s.runCmd op (loadEntry h n)).chg = s.chg ∧
    (s.runCmd op (loadEntry h n)).hif.jseq = s.hif.jseq + 1 ∧ OnlyChanges [.hif, .chg, .outbox] s (s.runCmd op (loadEntry h n)) := by
  obtain ⟨l, k⟩ := runCmd_refused o hp hd hi hc hs
  exact ⟨⟨l, completed_of_entry (g := loadEntry h n) rfl rfl k.completed⟩, k.rest.same .chg (by decide), k.number,
    OnlyChanges.mono k.rest (within rfl)⟩

/-- Settles O21: whether the package stands decides between the preparation and the record; a RETURN is recorded at once, and a refused
command changes the host interface only. -/
theorem programLoadCommands : Obligations.ProgramLoadCommands := by
  refine ⟨fun s h o hi => ?_, fun s h o hi => ?_⟩
  case refine_1 =>
    have unstored : s.chg.package ≠ h.payload ∨ s.chg.pkgDone = false ↔ ¬(s.chg.package = h.payload ∧ s.chg.pkgDone = true) := by
      rw [not_and_or, Bool.not_eq_true]
    cases hc : s.checkChange (loadEntry h 0) with
    | no st w =>
      obtain ⟨hk, hchg, -, hf⟩ := runLoad_refused o (o.role rfl) (by decide) hi hc (checkChange_status _ _ hc)
      refine ⟨_, done_of_frame o.settled hf (within rfl), fun e => Verdict.noConfusion e, fun e => Verdict.noConfusion e, ?_, by rw [hchg], hf⟩
      rintro _ _ ⟨⟩
      exact ⟨hk, hchg⟩
    | go =>
      by_cases hn : s.chg.package = h.payload ∧ s.chg.pkgDone = true
      · have k : Scheduled false (loadEntry h 0) s (s.runCmd opChange (loadEntry h 0)) :=
          runCmd_schedules o (o.role rfl) (by decide) hi hc (prepareChange_stored hn.1 hn.2 hi) fun _ => rfl
        exact ⟨_, done_of_frame o.settled k.frame (within rfl), fun _ e => absurd hn (unstored.mp e), fun _ _ _ =>
          ⟨waiting_of_entry (g := loadEntry h 0) rfl rfl k.waiting, k.state, k.isReturn, k.recorded, k.slot, k.number⟩,
          fun _ _ e => Verdict.noConfusion e, k.active, OnlyChanges.mono k.frame (within rfl)⟩
      · have k : Prepared (loadEntry h 0) s (s.runCmd opChange (loadEntry h 0)) := runChange_prepares o hi hc (unstored.mpr hn)
        exact ⟨_, done_of_frame o.settled k.frame (within rfl), fun _ _ =>
          ⟨waiting_of_entry (g := loadEntry h 0) rfl rfl k.waiting, k.state, k.package, k.stored, k.recorded, k.slot, k.journal⟩,
          fun _ hp hd => absurd ⟨hp, hd⟩ hn, fun _ _ e => Verdict.noConfusion e, k.active, OnlyChanges.mono k.frame (within rfl)⟩
  case refine_2 =>
    cases hc : s.checkReturn (loadEntry h 1) with
    | no st w =>
      obtain ⟨hk, hchg, hj, hf⟩ := runLoad_refused o (o.role rfl) (by decide) hi hc (checkReturn_status _ _ hc)
      refine ⟨_, done_of_frame o.settled hf (within rfl), fun e => Verdict.noConfusion e, ?_, by rw [hchg], hj, hf⟩
      rintro _ _ ⟨⟩
      exact ⟨hk, hchg⟩
    | go =>
      have k : Scheduled true (loadEntry h 1) s (s.runCmd opReturn (loadEntry h 1)) :=
        runCmd_schedules o (o.role rfl) (by decide) hi hc rfl fun _ => rfl
      exact ⟨_, done_of_frame o.settled k.frame (within rfl),
        fun _ => ⟨waiting_of_entry (g := loadEntry h 1) rfl rfl k.waiting, k.state, k.isReturn, k.recorded, k.slot⟩,
        fun _ _ e => Verdict.noConfusion e, k.active, k.number, OnlyChanges.mono k.frame (within rfl)⟩

end Sys2Proof.Proofs
end

section
/-! The records of the baste link as they arrive (spec/09_duplex_pair.md R235, R238): one command for each type and notice, and what it
does with a record that is not the next one. -/

namespace Sys2Proof.Proofs

open Sys2Proof.Machine Sys2Proof.Safety Sys2Proof.Laws

variable {s t u : State} {r : BRec} {i : Instr} {ps : List Part}

/-! What the checks leave open. -/

/-- Command `i` has the record `q` arrive with type `k`: the content that `i` names is `q`'s own. -/
structure Receives (k : Nat) (q : BRec) (i : Instr) : Prop where
  low : 1 ≤ k
  high : k ≤ 12
  exec : ∀ s, exec i s = s.recIn k q

theorem receives_notice {k : Nat} (h : ∀ s, exec i s = s.noticeIn k r) : ∃ n q, Receives n q i ∧
    q.crcOk = r.crcOk ∧ q.fmt = r.fmt ∧ q.type = r.type ∧ q.lane = r.lane ∧ q.rseq = r.rseq :=
  ⟨11, { r with payload := BitVec.ofNat 8 k :: r.payload.drop 1 }, ⟨by decide, by decide, h⟩, rfl, rfl, rfl, rfl, rfl⟩

theorem receives_record {k : Nat} (hl : 1 ≤ k) (hh : k ≤ 12) (h : ∀ s, exec i s = s.recIn k r) : ∃ n q, Receives n q i ∧
    q.crcOk = r.crcOk ∧ q.fmt = r.fmt ∧ q.type = r.type ∧ q.lane = r.lane ∧ q.rseq = r.rseq :=
  ⟨k, r, ⟨hl, hh, h⟩, rfl, rfl, rfl, rfl, rfl⟩

/-- Each arrival command has its record, with a type of Table 9.14, arrive with the same head. -/
theorem receives_of_arrival (h : Arrival r i) : ∃ n q, Receives n q i ∧
    q.crcOk = r.crcOk ∧ q.fmt = r.fmt ∧ q.type = r.type ∧ q.lane = r.lane ∧ q.rseq = r.rseq := by
  simp only [Arrival, List.mem_cons, List.not_mem_nil, or_false] at h
  rcases h with rfl | rfl | rfl | rfl | rfl | rfl | rfl | rfl | rfl | rfl | rfl | rfl | rfl | rfl | rfl | rfl | rfl | rfl | rfl
  · exact receives_record (k := 2) (by decide) (by decide) fun _ => rfl
  · exact receives_record (k := 3) (by decide) (by decide) fun _ => rfl
  · exact receives_record (k := 4) (by decide) (by decide) fun _ => rfl
  · exact receives_record (k := 5) (by decide) (by decide) fun _ => rfl
  · exact receives_record (k := 6) (by decide) (by decide) fun _ => rfl
  · exact receives_record (k := 7) (by decide) (by decide) fun _ => rfl
  · exact receives_record (k := 8) (by decide) (by decide) fun _ => rfl
  · exact receives_record (k := 9) (by decide) (by decide) fun _ => rfl
  · exact receives_record (k := 10) (by decide) (by decide) fun _ => rfl
  · exact receives_record (k := 12) (by decide) (by decide) fun _ => rfl
  · exact receives_notice (k := 1) fun _ => rfl
  · exact receives_notice (k := 2) fun _ => rfl
  · exact receives_notice (k := 3) fun _ => rfl
  · exact receives_notice (k := 4) fun _ => rfl
  · exact receives_notice (k := 5) fun _ => rfl
  · exact receives_notice (k := 6) fun _ => rfl
  · exact receives_notice (k := 7) fun _ => rfl
  · exact receives_notice (k := 8) fun _ => rfl
  · exact receives_notice (k := 9) fun _ => rfl

/-- Record `r` as the command of type `k` has it arrive: a TYPE beyond Table 9.14 stays. -/
def typed (k : Nat) (r : BRec) : BRec := { r with type := if r.type ≤ 12 then k else r.type }

theorem running_of_lanes (h : s.lanesOn = true) : s.running = true := by
  simp only [State.lanesOn, Bool.and_eq_true] at h
  exact h.1.1.1

theorem partner_of_lanes (h : s.lanesOn = true) : s.cfg.partner = true := by
  simp only [State.lanesOn, Bool.and_eq_true] at h
  exact h.1.1.2

theorem recIn_off {k : Nat} (h : s.lanesOn = false) : s.recIn k r = .next s :=
  if_neg (by rw [h, Bool.and_false]; exact Bool.false_ne_true)

theorem recIn_on {k : Nat} (h : s.lanesOn = true) : s.recIn k r = done s (s.takeRec (typed k r)) :=
  if_pos (by rw [h, running_of_lanes h]; rfl)

/-! The checks of R238. -/

theorem takeRec_bad (h : r.crcOk = false ∨ s.fmtOk r.fmt = false ∨ 12 < r.type) : s.takeRec r = s.crcError r.lane := by
  refine if_pos ?_
  rcases h with h | h | h
  · rw [h]; rfl
  · rw [h]; simp
  · simp [Nat.not_le.mpr h]

/-- `s` with an early record kept. -/
def keptEarly (r : BRec) (s : State) : State := { s with dpx2 := { s.dpx2 with waitRec := s.dpx2.waitRec ++ [r] } }

/-- A record that passes the checks is used in its turn, kept where it is early, and has no effect where it is late. -/
theorem takeRec_valid (hc : r.crcOk = true) (hf : s.fmtOk r.fmt = true) (hl : 1 ≤ r.type) (hh : r.type ≤ 12) : s.takeRec r =
    if s.dpx2.rseqRx = 0 ∨ r.rseq = s.dpx2.rseqRx + 1 then (s.nextRec r).drainRecs (s.nextRec r).dpx2.waitRec.length
    else if s.dpx2.rseqRx < r.rseq then
      if s.dpx2.waitRec.any (fun x => x.rseq == r.rseq) then s else keptEarly r s
    else s :=
  if_neg (by rw [hc, hf, decide_eq_true hl, decide_eq_true hh]; exact Bool.false_ne_true)

theorem typed_valid {k : Nat} (h : r.type ≤ 12) : typed k r = { r with type := k } := by
  unfold typed
  rw [if_pos h]

/-- The CRC errors of a lane within the last millisecond, and one more now. -/
def lastErrors (lane : Bool) (s : State) : List Nat := ((s.dpx.crcT lane).filter fun t => decide (s.sys.opNs < t + 1000000)) ++ [s.sys.opNs]

/-- A CRC error counted on its lane, whose run of good heartbeats it breaks. -/
def countedCrc (lane : Bool) (s : State) : State := s.updDpx fun d =>
  if lane then { d with crc1 := d.crc1 + 1, crcT1 := lastErrors lane s, good1 := 0 }
  else { d with crc0 := d.crc0 + 1, crcT0 := lastErrors lane s, good0 := 0 }

theorem crcError_few {lane : Bool} (h : (s.dpx.crcT lane).length < 15) : s.crcError lane = countedCrc lane s := by
  have hl : (lastErrors lane s).length < 16 := by
    have := List.length_filter_le (fun t => decide (s.sys.opNs < t + 1000000)) (s.dpx.crcT lane)
    simp only [lastErrors, List.length_append, List.length_singleton]
    omega
  exact if_neg fun h => absurd h.1 (Nat.not_le.mpr hl)

theorem updDpx_frame (f : Dpx → Dpx) : OnlyChanges [.dpx] s (s.updDpx f) :=
  ⟨fun p hp => by cases p with
    | dpx => exact absurd (by decide) hp
    | _ => rfl⟩

theorem dpx2_frame (x : Dpx2) : OnlyChanges [.dpx2] s { s with dpx2 := x } :=
  ⟨fun p hp => by cases p with
    | dpx2 => exact absurd (by decide) hp
    | _ => rfl⟩

/-! What a report shows of the baste link and of time: the synchronisation state, and the state of each time domain. -/

/-- The parts that may change without a report, where the synchronisation state and the time domains stay. -/
def linkParts : List Part := .dpx :: .tim :: unreportedParts

theorem sysFault_link (k : OnlyChanges linkParts s t) (hd : t.dpx.state = s.dpx.state) (ht : t.tim.doms = s.tim.doms) :
    t.sysFault = s.sysFault := by
  have hsys : t.sys = s.sys := k.same .sys (by decide)
  have hvotes : t.votes = s.votes := k.same .votes (by decide)
  have hlsp : t.lsp = s.lsp := k.same .lsp (by decide)
  have hmm : t.mm = s.mm := k.same .mm (by decide)
  have hpwr : t.pwr = s.pwr := k.same .pwr (by decide)
  have hsaf : t.saf = s.saf := k.same .saf (by decide)
  have hnet : t.net = s.net := k.same .net (by decide)
  have hregs : t.regs = s.regs := k.same .regs (by decide)
  have hposted : t.posted = s.posted := k.same .posted (by decide)
  have hen : ∀ d, t.domEn d = s.domEn d := fun d => by rw [State.domEn, State.domEn, reg_congr hregs]
  have hlocked : ∀ d, t.domLocked d = s.domLocked d := fun d => by rw [State.domLocked, State.domLocked, hen, State.dom, State.dom, ht]
  unfold State.sysFault State.locked State.insync
  rw [hd, hen, hen, hlocked, hlocked, hvotes, hlsp, hmm, hpwr, hsaf, hnet, hposted, hsys]

/-- Nothing follows a command on a settled state that changes neither the synchronisation state nor a time domain, and otherwise only
what a report does not show. -/
theorem done_of_link (h : Settled s) (k : OnlyChanges ps s t) (w : Within ps linkParts) (hd : t.dpx.state = s.dpx.state)
    (ht : t.tim.doms = s.tim.doms) : done s t = .next t := by
  have k : OnlyChanges linkParts s t := OnlyChanges.mono k w
  have hs : t.sys = s.sys := k.same .sys (by decide)
  have hi : t.insync = s.insync := by rw [State.insync, State.insync, hd]
  unfold done
  rw [settleState_settled (Settled.of h k (within rfl)) (by rw [hs]), report_id (by rw [hs]) hi (sysFault_link k hd ht)]

theorem done_of_dpx (h : Settled s) (k : OnlyChanges ps s t) (w : Within ps (.dpx :: unreportedParts)) (hd : t.dpx.state = s.dpx.state) :
    done s t = .next t :=
  have ht : t.tim = s.tim := (OnlyChanges.mono k w).same .tim (by decide)
  done_of_link h (OnlyChanges.mono k w) (within rfl) hd (by rw [ht])

/-! The clauses of R238. -/

theorem countedCrc_lane (lane : Bool) : if lane then (countedCrc lane s).dpx.crc1 = s.dpx.crc1 + 1 ∧ (countedCrc lane s).dpx.good1 = 0 ∧
    (countedCrc lane s).dpx.crc0 = s.dpx.crc0 else (countedCrc lane s).dpx.crc0 = s.dpx.crc0 + 1 ∧ (countedCrc lane s).dpx.good0 = 0 ∧
    (countedCrc lane s).dpx.crc1 = s.dpx.crc1 := by
  cases lane <;> exact ⟨rfl, rfl, rfl⟩

theorem countedCrc_kept (lane : Bool) : (countedCrc lane s).dpx.state = s.dpx.state ∧ (countedCrc lane s).dpx.up0 = s.dpx.up0 ∧
    (countedCrc lane s).dpx.up1 = s.dpx.up1 ∧ (countedCrc lane s).dpx.eOwn = s.dpx.eOwn := by
  cases lane <;> exact ⟨rfl, rfl, rfl, rfl⟩

theorem countedCrc_frame (lane : Bool) : OnlyChanges [.dpx] s (countedCrc lane s) := updDpx_frame _

theorem bad_record {lane : Bool} (hs : Settled s) (hf : (s.dpx.crcT lane).length < 15) : ∃ t, done s (s.crcError lane) = .next t ∧
    (if lane then t.dpx.crc1 = s.dpx.crc1 + 1 ∧ t.dpx.good1 = 0 ∧ t.dpx.crc0 = s.dpx.crc0
     else t.dpx.crc0 = s.dpx.crc0 + 1 ∧ t.dpx.good0 = 0 ∧ t.dpx.crc1 = s.dpx.crc1) ∧
    t.dpx.state = s.dpx.state ∧ t.dpx.up0 = s.dpx.up0 ∧ t.dpx.up1 = s.dpx.up1 ∧ t.dpx.eOwn = s.dpx.eOwn ∧ OnlyChanges [.dpx] s t := by
  obtain ⟨hst, h0, h1, he⟩ := countedCrc_kept (s := s) lane
  rw [crcError_few hf]
  exact ⟨countedCrc lane s, done_of_dpx hs (countedCrc_frame lane) (within rfl) hst, countedCrc_lane lane, hst, h0, h1, he,
    countedCrc_frame lane⟩

theorem keptEarly_frame : OnlyChanges [.dpx2] s (keptEarly r s) := dpx2_frame _

theorem done_id (h : Settled s) : done s s = .next s := by
  unfold done
  rw [settleState_id h]

theorem early_record (hs : Settled s) : ∃ t,
    done s (if s.dpx2.waitRec.any (fun x => x.rseq == r.rseq) then s else keptEarly r s) = .next t ∧
    t.dpx2 = { s.dpx2 with waitRec := t.dpx2.waitRec } ∧ (∀ x ∈ s.dpx2.waitRec, x ∈ t.dpx2.waitRec) ∧
    (∃ x ∈ t.dpx2.waitRec, x.rseq = r.rseq) ∧ OnlyChanges [.dpx2] s t := by
  split
  case isTrue h =>
    obtain ⟨x, hx, he⟩ := List.any_eq_true.mp h
    exact ⟨s, done_id hs, rfl, fun _ hx => hx, ⟨x, hx, eq_of_beq he⟩, OnlyChanges.refl⟩
  case isFalse =>
    exact ⟨keptEarly r s, done_of_frame hs keptEarly_frame (within rfl), rfl, fun _ hx => List.mem_append_left _ hx,
      ⟨r, List.mem_append_right _ (List.mem_singleton.mpr rfl), rfl⟩, keptEarly_frame⟩

/-! The gap timeout (R238). -/

/-- The record that waited alone is the next one once INSYNC has ended. -/
def gapClosed (r : BRec) (s : State) : State :=
  { s.endInsync 9 with dpx2 := { (s.endInsync 9).dpx2 with rseqRx := r.rseq, waitRec := [] } }

/-- What the end of INSYNC leaves of the exchange and of the record queues (R242). -/
def unsynced (d : Dpx2) : Dpx2 :=
  { d with syncMib := 0, xPend := false, isProof := false, absPend := 0, modeDue := none, bulkSent := false, hwOut := [] }

theorem setSync_dpx2 (st : SyncState) (reason cause : Nat) : (s.setSync st reason cause).dpx2 = s.dpx2 :=
  (setSync_only (within rfl) OnlyChanges.refl : OnlyChanges [.dpx, .tly] s _).same .dpx2 (by decide)

theorem endInsync_dpx2 (h : s.insync = true) (cause : Nat) : (s.endInsync cause).dpx2 = unsynced s.dpx2 := by
  unfold State.endInsync unsynced
  rw [h]
  simp only [Bool.not_true, Bool.false_eq_true, if_false, apply_ite State.dpx2, setSync_dpx2, ite_self]

theorem gapOver_alone (hi : s.insync = true) (hw : s.dpx2.waitRec = [r]) (h8 : r.type = 8) : s.gapOver = (gapClosed r s).takeHdrs r := by
  have hl : lowestRseq s.dpx2.waitRec = some r.rseq := by rw [hw]; rfl
  have hw' : (s.endInsync 9).dpx2.waitRec = [r] := (congrArg Dpx2.waitRec (endInsync_dpx2 hi 9)).trans hw
  have hn : r.rseq == r.rseq - 1 + 1 := by simp
  unfold State.gapOver
  rw [hl]
  simp only [hw, List.length_singleton, State.drainRecs, hw', List.find?_cons, hn, List.filter_cons, bne_self_eq_false,
    Bool.false_eq_true, if_false, List.filter_nil]
  unfold State.nextRec State.useRec
  rw [h8]
  rfl

theorem takeHdrs_frame : OnlyChanges [.tly] s (s.takeHdrs r) := takeHdrs_only (within rfl) OnlyChanges.refl

theorem gapClosed_frame : OnlyChanges [.sys, .hif, .dpx, .dpx2, .tly] s (gapClosed r s) :=
  OnlyChanges.trans (endInsync_only (within rfl) OnlyChanges.refl) (OnlyChanges.mono (dpx2_frame _) (within rfl))

theorem endInsync_mode (cause : Nat) : (s.endInsync cause).sys.mode = s.sys.mode := by
  have hk : (s.setSync s.afterLoss 0 cause).sys = s.sys :=
    (setSync_only (within rfl) OnlyChanges.refl : OnlyChanges [.dpx, .tly] s _).same .sys (by decide)
  unfold State.endInsync
  simp only [apply_ite State.sys, apply_ite Sys.mode, hk, ite_self]

/-- What follows a command that keeps the mode leaves the local outputs as they are. -/
theorem settleState_frame_of_mode (hm : t.sys.mode = s.sys.mode) : OnlyChanges [.sys, .hif, .can, .canq, .tly, .outbox] t (settleState s t) := by
  have hc : t.canSync.sys = t.sys := canSync_frame.same .sys (by decide)
  have h : OnlyChanges [.sys, .hif, .can, .canq, .tly, .outbox] t t.canSync := OnlyChanges.mono canSync_frame (within rfl)
  unfold settleState
  rw [fioFollow_id (hc ▸ hm)]
  exact report_only (within rfl) (OnlyChanges.ite (readsFollow_only (within rfl) (completePreempted_only (within rfl) h)) h)

theorem gap_over (hr : s.running = true) (hw : s.dpx2.waitRec = [r]) (h8 : r.type = 8) (hi : s.insync = true) :
    ∃ t, exec .rseqGapTimeout s = .next t ∧ t.dpx.state ≠ .insync ∧ t.dpx2.waitRec = [] ∧ t.dpx2.rseqRx = r.rseq ∧
    OnlyChanges [.sys, .hif, .dpx, .dpx2, .can, .canq, .tly, .outbox] s t := by
  have he : exec .rseqGapTimeout s = done s s.gapOver := if_pos (by rw [hr, hw]; rfl)
  have kh : OnlyChanges [.tly] (gapClosed r s) ((gapClosed r s).takeHdrs r) := takeHdrs_frame
  have hm : ((gapClosed r s).takeHdrs r).sys.mode = s.sys.mode := by
    rw [show _ = (gapClosed r s).sys from kh.same .sys (by decide)]
    exact endInsync_mode 9
  have ks := settleState_frame_of_mode hm
  have hd : (settleState s ((gapClosed r s).takeHdrs r)).dpx = (s.endInsync 9).dpx :=
    (ks.same .dpx (by decide)).trans (kh.same .dpx (by decide))
  have hd2 : (settleState s ((gapClosed r s).takeHdrs r)).dpx2 = (gapClosed r s).dpx2 :=
    (ks.same .dpx2 (by decide)).trans (kh.same .dpx2 (by decide))
  refine ⟨_, by rw [he, gapOver_alone hi hw h8]; rfl, ?_, ?_, ?_, ?_⟩
  · rw [hd]
    exact endInsync_state 9
  · rw [hd2]
    rfl
  · rw [hd2]
    rfl
  · exact OnlyChanges.trans (OnlyChanges.trans (OnlyChanges.mono gapClosed_frame (within rfl)) (OnlyChanges.mono kh (within rfl)))
      (OnlyChanges.mono ks (within rfl))

/-- Settles O34: the checks of `takeRec` leave an error of the lane, an early record or a late one; the gap timeout ends INSYNC and
uses the record that waited. -/
theorem recordsOfTheBasteLinkAreCheckedAndOrdered : Obligations.RecordsOfTheBasteLinkAreCheckedAndOrdered := by
  refine ⟨fun s r i ha hl => ?_, fun s r i ha hs hl hb hf => ?_, fun s r i ha hs hl hc hf hh h0 hn hlt => ?_,
    fun s r i ha hs hl hc hf hh h0 hn hlt => ?_, fun s r hr hw h8 hi => gap_over hr hw h8 hi⟩
  · obtain ⟨n, q, ⟨-, -, he⟩, -⟩ := receives_of_arrival ha
    exact (he s).trans (recIn_off hl)
  · obtain ⟨n, q, ⟨-, hn, he⟩, qc, qf, qt, ql, -⟩ := receives_of_arrival ha
    have hb' : (typed n q).crcOk = false ∨ s.fmtOk (typed n q).fmt = false ∨ 12 < (typed n q).type := by
      refine hb.imp (fun h => qc.trans h) (Or.imp (fun h => (congrArg s.fmtOk qf).trans h) fun h => ?_)
      have : ¬ q.type ≤ 12 := by omega
      simp only [typed, if_neg this]
      omega
    rw [he, recIn_on hl, takeRec_bad hb', show (typed n q).lane = r.lane from ql]
    exact bad_record hs hf
  · obtain ⟨n, q, ⟨hk, hn', he⟩, qc, qf, qt, -, qr⟩ := receives_of_arrival ha
    rw [he, recIn_on hl, typed_valid (by omega), takeRec_valid (r := { q with type := n }) (qc.trans hc) ((congrArg s.fmtOk qf).trans hf) hk hn',
      if_neg (by rintro (h | h); exacts [h0 h, hn ((qr.symm.trans h).symm)]), if_pos (by rw [show _ = r.rseq from qr]; exact hlt)]
    have := early_record (r := { q with type := n }) hs
    rwa [show ({ q with type := n } : BRec).rseq = r.rseq from qr] at this ⊢
  · obtain ⟨n, q, ⟨hk, hn', he⟩, qc, qf, qt, -, qr⟩ := receives_of_arrival ha
    rw [he, recIn_on hl, typed_valid (by omega), takeRec_valid (r := { q with type := n }) (qc.trans hc) ((congrArg s.fmtOk qf).trans hf) hk hn',
      if_neg (by rintro (h | h); exacts [h0 h, hn ((qr.symm.trans h).symm)]), if_neg (by rw [show _ = r.rseq from qr]; exact hlt)]
    exact done_id hs

end Sys2Proof.Proofs
end

section
/-! The headers that a primary sends (O36): the clause on TALLY_HDRS_SEND does not ask for a settled state. The completion of a mode
command that was abandoned before (spec/02_modes_and_startup.md R52) leaves the module with this command too. -/

namespace Sys2Proof.Proofs

open Sys2Proof.Machine Sys2Proof.Safety Sys2Proof.Laws

/-- The primary of an in-sync pair in RUN whose ring 0 runs an abandoned mode command. -/
def abandonedOn0 : State := { State.reset with
  sys.mode := .run, sys.primary := true, sys.preempted := [0], cfg.partner := true, dpx.state := .insync
  hif.crs := false, hif.ready := true, hif.rings := [(0, { live := true, sqK := 4, cqK := 4, infl := some { cmd := { slot := 0, opcode := 0x06 } } })] }

/-- How much has left the module in a next state. -/
def sentCount : Host.Outcome State Fault Refusal → Option Nat
  | .next t => some t.outbox.length
  | _ => none

/-- Refutes O36: with no header to send, the primary `abandonedOn0` still sends the completion of its abandoned mode command,
where the clause on TALLY_HDRS_SEND has nothing leave the module. -/
theorem not_hostWorkWindowsHeadersAndVersions : ¬ Obligations.HostWorkWindowsHeadersAndVersions := by
  intro h
  obtain ⟨-, -, -, -, -, hsend, -⟩ := h
  obtain ⟨t, he, -, hlen, -⟩ := hsend abandonedOn0 rfl rfl rfl rfl
  obtain ⟨-, hlen, -⟩ := hlen (by decide) (by decide)
  have hc : sentCount (exec .tallyHdrsSend abandonedOn0) = some 1 := by decide +kernel
  rw [he] at hc
  exact absurd (hlen.symm.trans (Option.some.inj hc)) (by decide)

end Sys2Proof.Proofs
end

section
/-! A record of the baste link in its turn (spec/09_duplex_pair.md R238, R240): what its command does is what its type has the module do,
and what follows it; the acknowledgement. -/

namespace Sys2Proof.Proofs

open Sys2Proof.Machine Sys2Proof.Safety Sys2Proof.Laws

variable {s t u : State} {r : BRec} {k n : Nat}

/-! The record is used at once, and no other waits. -/

theorem met_frame : OnlyChanges [.dpx2] s (met r s) := dpx2_frame _

/-- The effect of a record in its turn, `u`, and what follows it. -/
theorem recIn_inTurn (h : InTurn r s) (hl : 1 ≤ k) (hh : k ≤ 12) (hu : State.useRec { r with type := k } (met r s) = u)
    (hw : u.dpx2.waitRec = []) : s.recIn k r = done s u := by
  have hn : State.nextRec { r with type := k } s = u := hu
  rw [recIn_on h.lanes, typed_valid h.type, takeRec_valid (r := { r with type := k }) h.crc h.format hl hh, if_pos h.turn, hn,
    drainRecs_empty hw]

/-- A notice of a kind, as its command has it arrive. -/
def noted (kind : Nat) (r : BRec) : BRec := { r with payload := BitVec.ofNat 8 kind :: r.payload.drop 1 }

theorem inTurn_noted (h : InTurn r s) : InTurn (noted k r) s :=
  ⟨h.settled, h.lanes, h.crc, h.type, h.format, h.turn, h.alone⟩

theorem slice_after_head {b : Byte} {p : List Byte} : slice (b :: p.drop 1) (n + 1) k = slice p (n + 1) k := by
  unfold slice
  rw [List.drop_succ_cons, List.drop_drop, Nat.add_comm 1 n]

/-- A notice's fields after its kind are those of the record. -/
theorem noted_field (kind : Nat) : fieldN (noted kind r).payload (n + 1) k = fieldN r.payload (n + 1) k :=
  congrArg unle slice_after_head

theorem noted_kind {kind : Nat} (h : kind < 256) : fieldN (noted kind r).payload 0 1 = kind := by
  simp [fieldN, slice, unle, noted, Nat.mod_eq_of_lt h]

/-- The notice `r` as it is used: of type 11. -/
def asNotice (kind : Nat) (r : BRec) : BRec := { noted kind r with type := 11 }

theorem asNotice_field (kind : Nat) : fieldN (asNotice kind r).payload (n + 1) k = fieldN r.payload (n + 1) k := noted_field kind

theorem asNotice_kind {kind : Nat} (h : kind < 256) : fieldN (asNotice kind r).payload 0 1 = kind := noted_kind h

theorem takeNotice_failure (h : fieldN r.payload 0 1 = 1) : s.takeNotice r = s.takeFailure := by simp only [State.takeNotice, h]

theorem takeNotice_halt (h : fieldN r.payload 0 1 = 2) : s.takeNotice r = s.takeHalt r := by simp only [State.takeNotice, h]

theorem takeNotice_handover (h : fieldN r.payload 0 1 = 3) : s.takeNotice r = s.takeHandover false r := by simp only [State.takeNotice, h]

theorem takeNotice_handback (h : fieldN r.payload 0 1 = 4) : s.takeNotice r = s.takeHandover true r := by simp only [State.takeNotice, h]

theorem takeNotice_ringAbsent (h : fieldN r.payload 0 1 = 5) : s.takeNotice r = s.ringAbsent (fieldN r.payload 1 1) := by simp only [State.takeNotice, h]

theorem takeNotice_proofFail (h : fieldN r.payload 0 1 = 6) : s.takeNotice r = s.partnerProofFail := by simp only [State.takeNotice, h]

theorem takeNotice_cutIn (h : fieldN r.payload 0 1 = 7) : s.takeNotice r = s.takeCutIn r := by simp only [State.takeNotice, h]

theorem takeNotice_ready (h : fieldN r.payload 0 1 = 8) : s.takeNotice r = s.takeReady r := by simp only [State.takeNotice, h]

theorem takeNotice_checkFailed (h : fieldN r.payload 0 1 = 9) : s.takeNotice r = s.takeCheckFailed := by simp only [State.takeNotice, h]

/-- The effect of a notice in its turn, `u`, and what follows it. -/
theorem noticeIn_inTurn (h : InTurn r s) (hu : (met r s).takeNotice (asNotice k r) = u) (hw : u.dpx2.waitRec = []) :
    s.noticeIn k r = done s u :=
  recIn_inTurn (r := noted k r) (inTurn_noted h) (by decide) (by decide) hu hw

/-! The acknowledgement. -/

/-- The record that `sendRec` sends: the next number, not split. -/
def recOf (type : Nat) (sync prog : Bool) (p : List Byte) (s : State) : BRec :=
  { type := type, fmt := s.boot.runHdr.mirrorFmt.toNat, sync := sync, last := true, rseq := s.dpx2.rseqTx + 1
    progVer := if prog then s.chg.actVer else 0, payload := p }

/-- The next number of a record has been used. -/
def numbered (s : State) : State := { s with dpx2 := { s.dpx2 with rseqTx := s.dpx2.rseqTx + 1 } }

/-- A record that is no mirror record takes its number and leaves. -/
theorem sendRec_eq {prog : Bool} {p : List Byte} (hp : s.cfg.partner = true) (hk : k < 3 ∨ 8 < k) :
    s.sendRec k false prog p = (numbered s).put (.baste (recOf k false prog p s)) := by
  have hq : s.queueRec k p = s := if_neg (by omega)
  unfold State.sendRec State.sendPart
  rw [hp, if_neg Bool.false_ne_true]
  simp only [hq]
  rfl

/-- A module without a partner sends no record. -/
theorem sendRec_alone {sync prog : Bool} {p : List Byte} (hp : s.cfg.partner = false) : s.sendRec k sync prog p = s :=
  if_pos (by rw [hp]; rfl)

/-- What left the module before a record has still left it. -/
theorem sendPart_keeps {sync prog last : Bool} {p : List Byte} {o : Out} (h : o ∈ s.outbox) : o ∈ (s.sendPart k sync prog last p).outbox := by
  have hq : (s.queueRec k p).outbox = s.outbox :=
    (queueRec_only (within rfl) OnlyChanges.refl : OnlyChanges [.dpx2] s _).same .outbox (by decide)
  unfold State.sendPart
  split
  · exact h
  · cases sync with
    | true => exact List.mem_append_left _ h
    | false => exact List.mem_append_left _ (hq ▸ h)

/-- The ACK of record `r` with a result. -/
def ackOf (r : BRec) (result : Nat) (s : State) : BRec :=
  recOf 2 false false (le 8 r.rseq.toNat ++ [BitVec.ofNat 8 r.type, BitVec.ofNat 8 result] ++ le 6 0) s

theorem ackRec_eq (hp : s.cfg.partner = true) (n : Nat) : s.ackRec r n = (numbered s).put (.baste (ackOf r n s)) :=
  sendRec_eq hp (.inl (by decide))

theorem ackOf_result (n : Nat) (h : n < 256) : fieldN (ackOf r n s).payload 9 1 = n := by
  have hd : (ackOf r n s).payload.drop 9 = BitVec.ofNat 8 n :: le 6 0 := by
    have hl : (le 8 r.rseq.toNat).length = 8 := length_le ..
    simp only [ackOf, recOf, List.append_assoc, List.drop_append, hl]
    rw [List.drop_eq_nil_of_le (by omega)]
    rfl
  simp [fieldN, slice, unle, hd, Nat.mod_eq_of_lt h]

theorem ackRec_frame : OnlyChanges [.dpx2, .outbox] s (s.ackRec r n) := ackRec_only (within rfl) OnlyChanges.refl

theorem ackRec_sent (hp : s.cfg.partner = true) (n : Nat) : Out.baste (ackOf r n s) ∈ (s.ackRec r n).outbox := by
  rw [ackRec_eq hp]
  exact List.mem_append_right _ (List.mem_singleton.mpr rfl)

theorem ackRec_dpx2 (hp : s.cfg.partner = true) (n : Nat) : (s.ackRec r n).dpx2 = { s.dpx2 with rseqTx := s.dpx2.rseqTx + 1 } := by
  rw [ackRec_eq hp]
  rfl

end Sys2Proof.Proofs
end

section
/-! Acknowledgements and notices (O37; spec/09_duplex_pair.md R240, R248 to R253, R264 to R269, Table 9.18). -/

namespace Sys2Proof.Proofs

open Sys2Proof.Machine Sys2Proof.Safety Sys2Proof.Laws

variable {s t u : State} {r : BRec} {k n : Nat} {ps : List Part}

/-! The waiting records stay where they are. -/

theorem endInsync_waitRec (cause : Nat) : (s.endInsync cause).dpx2.waitRec = s.dpx2.waitRec := by
  by_cases h : s.insync = true
  · rw [endInsync_dpx2 h]
    rfl
  · rw [State.endInsync, if_pos (by simp [h])]

/-! An exchange that does not start. -/

theorem tryHandover_idle (h : s.dpx2.xPend = false) : s.tryHandover = s := by
  unfold State.tryHandover
  split
  · rfl
  · simp [h]

theorem tryHandover_unacked (h : s.dpx2.ceAck = false) : s.tryHandover = s := by
  unfold State.tryHandover
  split
  · rfl
  · simp [h]

theorem tryAbsent_none (h : s.dpx2.absPend = 0) : s.tryAbsent = s := if_pos (.inl h)

theorem pairAct_idle (h : s.boot.act.busy = false) : s.pairAct = false := by
  rw [State.pairAct, h, Bool.false_and]

theorem actInSync_idle (h : s.boot.act.busy = false) : s.actInSync = s := by
  unfold State.actInSync
  simp [pairAct_idle h]

/-! Both modules come in sync (R248). -/

/-- `t` is `s` in sync: counted, with nothing held, and with what left the module before. -/
structure CameInSync (s t : State) : Prop where
  state : t.dpx.state = .insync
  counted : t.dpx2.syncDone = s.dpx2.syncDone + 1
  row : t.dpx2.abandRow = 0
  waits : t.dpx2.waitRec = s.dpx2.waitRec
  hif : t.hif = { s.hif with hold := false }
  sent : ∀ o ∈ s.outbox, o ∈ t.outbox
  frame : OnlyChanges [.hif, .dpx, .dpx2, .mir, .tly, .outbox] s t

theorem psBegin_dpx2 : ∃ f w, s.psBegin.dpx2 = { s.dpx2 with psFrom := f, psNext := w } := by
  unfold State.psBegin
  split
  · exact ⟨_, _, rfl⟩
  · exact ⟨_, _, rfl⟩

/-- What coming in sync changes of the pair's counters. -/
def joinedLink (d : Dpx2) : Dpx2 :=
  { d with syncDone := d.syncDone + 1, abandRow := 0, syncMib := 0, failNote := false, absRep := 0, bulkSent := false }

/-- The state before the interval of the proof swap counts and a failed module tells its partner so. -/
def joined (s : State) : State :=
  let t := s.setSync .insync 0 7
  { t with dpx2 := joinedLink t.dpx2, mir := t.mir.mapV fun x => { x with bulk := false }, hif := { t.hif with hold := false } }

theorem enterSync_eq : s.enterSync =
    if (joined s).psBegin.dpx.proofFail then (joined s).psBegin.notice 6 0 (joined s).psBegin.lastCommit 0 else (joined s).psBegin := rfl

theorem notice_dpx2 {d : Nat} {c q : DWord} : ∃ w, (s.notice k d c q).dpx2 = { s.dpx2 with rseqTx := w } := by
  unfold State.notice
  cases hp : s.cfg.partner with
  | true => rw [sendRec_eq hp (.inr (by decide))]; exact ⟨_, rfl⟩
  | false => rw [sendRec_alone hp]; exact ⟨_, rfl⟩

theorem enterSync_inSync : CameInSync s s.enterSync := by
  have ks : OnlyChanges [.dpx, .tly] s (s.setSync .insync 0 7) := setSync_only (within rfl) OnlyChanges.refl
  have kb : OnlyChanges [.dpx2] (joined s) (joined s).psBegin := psBegin_only (within rfl) OnlyChanges.refl
  have hd2 : (joined s).dpx2 = joinedLink s.dpx2 := congrArg joinedLink (setSync_dpx2 .insync 0 7)
  have hh : (joined s).hif = { s.hif with hold := false } := congrArg (fun x : Hif => { x with hold := false }) (ks.same .hif (by decide))
  have ho : (joined s).outbox = s.outbox := ks.same .outbox (by decide)
  have hst : (joined s).dpx.state = .insync := setSync_state ..
  obtain ⟨f, w, hb⟩ := (psBegin_dpx2 : ∃ f w, (joined s).psBegin.dpx2 = _)
  have hbase : CameInSync s (joined s).psBegin := {
    state := by rw [kb.same .dpx (by decide)]; exact hst
    counted := by rw [hb, hd2]; rfl
    row := by rw [hb, hd2]; rfl
    waits := by rw [hb, hd2]; rfl
    hif := (kb.same .hif (by decide)).trans hh
    sent := fun o h => by rw [kb.same .outbox (by decide), ho]; exact h
    frame := OnlyChanges.trans (OnlyChanges.mono ks (within rfl)) (OnlyChanges.trans
      ⟨fun p hp => by cases p with
        | dpx2 | mir | hif => exact absurd (by decide) hp
        | _ => rfl⟩ (OnlyChanges.mono kb (within rfl))) }
  rw [enterSync_eq]
  split
  case isFalse => exact hbase
  case isTrue =>
    obtain ⟨x, hx⟩ := (notice_dpx2 : ∃ x, ((joined s).psBegin.notice 6 0 (joined s).psBegin.lastCommit 0).dpx2 = _)
    have kn : OnlyChanges [.dpx2, .outbox] (joined s).psBegin ((joined s).psBegin.notice 6 0 (joined s).psBegin.lastCommit 0) :=
      notice_only (within rfl) OnlyChanges.refl
    exact {
      state := by rw [kn.same .dpx (by decide)]; exact hbase.state
      counted := by rw [hx]; exact hbase.counted
      row := by rw [hx]; exact hbase.row
      waits := by rw [hx]; exact hbase.waits
      hif := (kn.same .hif (by decide)).trans hbase.hif
      sent := fun o h => sendPart_keeps (hbase.sent o h)
      frame := OnlyChanges.trans hbase.frame (OnlyChanges.mono kn (within rfl)) }

/-! ACK (R240). -/

theorem takeAck_cutIn (h8 : fieldN r.payload 8 1 = 0x0B) (h9 : fieldN r.payload 9 1 = 0)
    (hn : BitVec.ofNat 64 (fieldN r.payload 0 8) = s.dpx2.cutRseq) (hst : s.dpx.state = .syncing) (hp : s.sys.primary = true) :
    s.takeAck r = s.enterSync.actInSync := by
  simp only [State.takeAck, h8, h9, decide_true, Bool.not_true, Bool.false_eq_true, if_false]
  exact if_pos ⟨hn, hst, hp⟩

/-- The last commit of the fastest class is acknowledged. -/
def commitAcked (s : State) : State := { s with dpx2 := { s.dpx2 with ceAck := true } }

theorem takeAck_commit (h8 : fieldN r.payload 8 1 = 5) (h9 : fieldN r.payload 9 1 = 0)
    (hn : BitVec.ofNat 64 (fieldN r.payload 0 8) = s.dpx2.ceRseq) (hx : s.dpx2.xPend = false) (ha : s.dpx2.absPend = 0) :
    s.takeAck r = commitAcked s := by
  simp only [State.takeAck, h8, h9]
  rw [if_pos ⟨hn, rfl⟩]
  change (commitAcked s).tryHandover.tryAbsent = commitAcked s
  rw [tryHandover_idle (s := commitAcked s) hx]
  exact tryAbsent_none ha

theorem cutIn_acked (h : InTurn r s) (h8 : fieldN r.payload 8 1 = 0x0B) (h9 : fieldN r.payload 9 1 = 0)
    (hn : BitVec.ofNat 64 (fieldN r.payload 0 8) = s.dpx2.cutRseq) (hst : s.dpx.state = .syncing) (hp : s.sys.primary = true)
    (hb : s.boot.act.busy = false) : ∃ t, exec (.ack r) s = .next t ∧
    t.dpx.state = .insync ∧ t.dpx2.syncDone = s.dpx2.syncDone + 1 ∧ t.dpx2.abandRow = 0 ∧ t.hif.hold = false ∧
    OnlyChanges [.dpx, .dpx2, .mir, .tly, .hif, .outbox] s t := by
  have k : CameInSync (met r s) (met r s).enterSync := enterSync_inSync
  have hbusy : (met r s).enterSync.boot.act.busy = false := by rw [k.frame.same .boot (by decide)]; exact hb
  have hu : (met r s).useRec { r with type := 2 } = (met r s).enterSync := by
    rw [← actInSync_idle hbusy]
    exact takeAck_cutIn (r := { r with type := 2 }) (s := met r s) h8 h9 hn hst hp
  have kf := OnlyChanges.trans (OnlyChanges.mono (met_frame (r := r) (s := s)) (within rfl)) k.frame
  obtain ⟨t, ht, hf, he, ho, -⟩ := done_of (qs := [.dpx, .dpx2, .mir, .tly, .hif, .outbox]) h.settled kf (within rfl) (within rfl)
  have hd2 : t.dpx2 = (met r s).enterSync.dpx2 := ho.same .dpx2 (by decide)
  have hd : t.dpx = (met r s).enterSync.dpx := ho.same .dpx (by decide)
  refine ⟨t, ?_, by rw [hd]; exact k.state, by rw [hd2]; exact k.counted, by rw [hd2]; exact k.row, ?_, hf⟩
  · rw [← ht]
    exact recIn_inTurn h (by decide) (by decide) hu (k.waits.trans h.alone)
  · rw [he, k.hif]

theorem commit_acked (h : InTurn r s) (h8 : fieldN r.payload 8 1 = 5) (h9 : fieldN r.payload 9 1 = 0)
    (hn : BitVec.ofNat 64 (fieldN r.payload 0 8) = s.dpx2.ceRseq) (hx : s.dpx2.xPend = false) (ha : s.dpx2.absPend = 0) :
    exec (.ack r) s = .next (commitAcked (met r s)) := by
  have hu : (met r s).useRec { r with type := 2 } = commitAcked (met r s) :=
    takeAck_commit (r := { r with type := 2 }) (s := met r s) h8 h9 hn hx ha
  have k : OnlyChanges [.dpx2] s (commitAcked (met r s)) := OnlyChanges.trans met_frame (dpx2_frame _)
  rw [← done_of_frame h.settled k (within rfl)]
  exact recIn_inTurn h (by decide) (by decide) hu h.alone

/-! The failure and the halt notice. -/

/-- A failure notice is noted. -/
def failNoted (s : State) : State := { s with dpx2 := { s.dpx2 with failNote := true } }

theorem takeFailure_noted (h : s.sys.primary = true ∨ s.insync = false) : s.takeFailure = failNoted s := by
  refine if_neg ?_
  have hd : (failNoted s).takeoverDue = false := by
    have hs : (failNoted s).insync = s.insync := rfl
    rcases h with h | h
    · simp [State.takeoverDue, show (failNoted s).sys.primary = true from h]
    · simp [State.takeoverDue, hs, h]
  rw [show ({ s with dpx2 := { s.dpx2 with failNote := true } } : State).takeoverDue = false from hd]
  exact Bool.false_ne_true

theorem failure_noted (h : InTurn r s) (hc : s.sys.primary = true ∨ s.insync = false) :
    exec (.noticeFailure r) s = .next (failNoted (met r s)) := by
  have hu : (met r s).takeNotice (asNotice 1 r) = failNoted (met r s) :=
    (takeNotice_failure (asNotice_kind (by decide))).trans (takeFailure_noted hc)
  have k : OnlyChanges [.dpx2] s (failNoted (met r s)) := OnlyChanges.trans met_frame (dpx2_frame _)
  rw [← done_of_frame h.settled k (within rfl)]
  exact noticeIn_inTurn h hu h.alone

/-- The halt of the partner has its record, and INSYNC ends. -/
def haltHeard (c : Nat) (n : DWord) (s : State) : State :=
  (s.log 0x0203 5 ([BitVec.ofNat 8 c, BitVec.ofNat 8 3, 0, 0] ++ le 8 n.toNat)).endInsync 6

theorem haltHeard_frame {c : Nat} {n : DWord} : OnlyChanges [.sys, .hif, .dpx, .dpx2, .tly] s (haltHeard c n s) :=
  endInsync_only (within rfl) (log_only (within rfl) OnlyChanges.refl)

theorem haltHeard_mode {c : Nat} {n : DWord} : (haltHeard c n s).sys.mode = s.sys.mode :=
  (endInsync_mode 6).trans (congrArg Sys.mode (log_sys ..))

theorem haltNotice_heard (c : Nat) (n : DWord) : s.haltNotice c 3 n = (haltHeard c n s).enterHalt 1 := by
  simp [State.haltNotice, haltHeard]

theorem halt_heard (h : InTurn r s) (hr : s.receives = true) (hb : s.sys.mode ≠ .boot) (hf : s.sys.mode ≠ .faultHalt)
    (ht : s.sys.mode ≠ .test) : ∃ t, exec (.noticeHalt r) s = .next t ∧ t.sys.mode = .faultHalt ∧ t.sys.haltCause = 1 ∧
    t.sys.primary = false ∧ t.dpx.state ≠ .insync ∧ (∀ c, (t.cls c).running = false) ∧ t.saf.sel.set = true ∧ t.saf.sp.set = true ∧
    SafetyOff t ∧ OnlyChanges [.sys, .hif, .cyc, .lsp, .dpx, .dpx2, .can, .canq, .fio, .saf, .tly, .outbox] s t := by
  have hal : s.alive = true := running_of_lanes h.lanes
  have hcond : ((met r s).receives && (met r s).alive && decide ((met r s).sys.mode ≠ .boot) && decide ((met r s).sys.mode ≠ .faultHalt)) = true := by
    simp [show (met r s).receives = true from hr, show (met r s).alive = true from hal, show (met r s).sys = s.sys from rfl, hb, hf]
  obtain ⟨v, hv⟩ : ∃ v, v = haltHeard ((met r s).fastest.getD 0) (BitVec.ofNat 64 (fieldN (asNotice 2 r).payload 8 8)) (met r s) := ⟨_, rfl⟩
  have hu : (met r s).takeNotice (asNotice 2 r) = v.enterHalt 1 := by
    rw [hv, ← haltNotice_heard]
    exact (takeNotice_halt (asNotice_kind (by decide))).trans (if_pos hcond)
  have kv : OnlyChanges [.sys, .hif, .dpx, .dpx2, .tly] s v :=
    hv ▸ OnlyChanges.trans (OnlyChanges.mono met_frame (within rfl)) haltHeard_frame
  have hm : v.sys.mode ≠ .test := by rw [hv, haltHeard_mode]; exact ht
  have ke := enterHalt_frame (cause := 1) hm
  have hw : v.dpx2.waitRec = [] := by
    rw [hv, haltHeard, endInsync_waitRec, (log_only (within rfl) OnlyChanges.refl : OnlyChanges [.tly] (met r s) _).same .dpx2 (by decide)]
    exact h.alone
  have hs : Halted 1 (settleState s (v.enterHalt 1)) := (halted_enterHalt 1).settle
  have ks : OnlyChanges settling (v.enterHalt 1) (settleState s (v.enterHalt 1)) := settleState_frame
  refine ⟨settleState s (v.enterHalt 1), ?_, hs.mode, hs.cause, hs.primary, ?_, fun c => ?_, hs.locked.sel, hs.locked.sp, hs.locked.off, ?_⟩
  · exact noticeIn_inTurn h hu ((congrArg Dpx2.waitRec (ke.same .dpx2 (by decide))).trans hw)
  · rw [ks.same .dpx (by decide), enterHalt_dpx, hv]
    exact endInsync_state 6
  · rw [settleState_cls]
    exact (enterHalt_cls 1 c).1
  · exact OnlyChanges.trans (OnlyChanges.mono kv (within rfl)) (OnlyChanges.trans (OnlyChanges.mono ke (within rfl)) (OnlyChanges.mono ks (within rfl)))

/-! HANDOVER and HANDBACK (R265, R269). -/

/-- The hand-over boundary `n` is named. -/
def boundaryNamed (back : Bool) (n : DWord) (s : State) : State :=
  { s with dpx := { s.dpx with handover := true }, dpx2 := { s.dpx2 with hBound := n, isProof := s.dpx2.isProof && !back } }

theorem boundaryNamed_frame {back : Bool} {n : DWord} : OnlyChanges [.dpx, .dpx2] s (boundaryNamed back n s) :=
  ⟨fun p hp => by cases p with
    | dpx | dpx2 => exact absurd (by decide) hp
    | _ => rfl⟩

/-- An in-sync standby in RUN: it can be asked to take the role. -/
structure CanTakeOver (s : State) : Prop where
  insync : s.insync = true
  standby : s.sys.primary = false
  mode : s.sys.mode = .run

theorem takeHandover_named {back : Bool} (h : CanTakeOver s) (hf : s.dpx.proofFail = false)
    (hb : s.boot.act.busy = false) :
    s.takeHandover back r = boundaryNamed back (BitVec.ofNat 64 (fieldN r.payload 8 8)) (s.ackRec r 0) := by
  have hact : (boundaryNamed back (BitVec.ofNat 64 (fieldN r.payload 8 8)) (s.ackRec r 0)).pairAct = false := by
    refine pairAct_idle ?_
    rw [boundaryNamed_frame.same .boot (by decide), ackRec_frame.same .boot (by decide)]
    exact hb
  unfold State.takeHandover
  rw [h.insync, h.standby, h.mode, hf]
  refine (if_pos (by decide)).trans ((if_neg Bool.false_ne_true).trans (if_neg fun e => ?_))
  obtain ⟨hboth, -⟩ := Bool.and_eq_true_iff.mp e
  exact Bool.false_ne_true (hact.symm.trans (Bool.and_eq_true_iff.mp hboth).2)

theorem takeHandover_refused {back : Bool} (hf : s.dpx.proofFail = true) : s.takeHandover back r = s.ackRec r 1 := by
  unfold State.takeHandover
  rw [hf, if_pos rfl, ite_self]

/-- A notice of an exchange, `i`, is HANDOVER or HANDBACK. -/
theorem exchange_notice {i : Instr} (hi : i = .noticeHandover r ∨ i = .noticeHandback r) :
    ∃ kind back, (∀ s, exec i s = s.noticeIn kind r) ∧ ∀ s : State, s.takeNotice (asNotice kind r) = s.takeHandover back (asNotice kind r) := by
  rcases hi with rfl | rfl
  · exact ⟨3, false, fun _ => rfl, fun _ => takeNotice_handover (asNotice_kind (by decide))⟩
  · exact ⟨4, true, fun _ => rfl, fun _ => takeNotice_handback (asNotice_kind (by decide))⟩

theorem boundary_named {i : Instr} (hi : i = .noticeHandover r ∨ i = .noticeHandback r) (h : InTurn r s) (hc : CanTakeOver s)
    (hf : s.dpx.proofFail = false) (hb : s.boot.act.busy = false) : ∃ t, exec i s = .next t ∧
    t.dpx = { s.dpx with handover := true } ∧ t.dpx2.hBound = BitVec.ofNat 64 (fieldN r.payload 8 8) ∧
    (∃ a : BRec, Out.baste a ∈ t.outbox ∧ a.type = 2 ∧ fieldN a.payload 9 1 = 0) ∧ OnlyChanges [.dpx, .dpx2, .outbox] s t := by
  obtain ⟨kind, back, he, hn⟩ := exchange_notice hi
  have hp : (met r s).cfg.partner = true := partner_of_lanes h.lanes
  have ka : OnlyChanges [.dpx2, .outbox] (met r s) ((met r s).ackRec (asNotice kind r) 0) := ackRec_frame
  have hu : (met r s).takeNotice (asNotice kind r) =
      boundaryNamed back (BitVec.ofNat 64 (fieldN r.payload 8 8)) ((met r s).ackRec (asNotice kind r) 0) := by
    rw [hn, takeHandover_named (s := met r s) ⟨hc.insync, hc.standby, hc.mode⟩ hf hb, asNotice_field]
  have k : OnlyChanges [.dpx, .dpx2, .outbox] s (boundaryNamed back (BitVec.ofNat 64 (fieldN r.payload 8 8)) ((met r s).ackRec (asNotice kind r) 0)) :=
    OnlyChanges.trans (OnlyChanges.mono met_frame (within rfl)) (OnlyChanges.trans (OnlyChanges.mono ka (within rfl))
      (OnlyChanges.mono boundaryNamed_frame (within rfl)))
  have hd : ((met r s).ackRec (asNotice kind r) 0).dpx = s.dpx := ka.same .dpx (by decide)
  have hw : ((met r s).ackRec (asNotice kind r) 0).dpx2.waitRec = [] := by rw [ackRec_dpx2 hp]; exact h.alone
  refine ⟨boundaryNamed back _ ((met r s).ackRec (asNotice kind r) 0), ?_, ?_, rfl, ⟨ackOf (asNotice kind r) 0 (met r s), ackRec_sent hp 0, rfl, ackOf_result 0 (by decide)⟩, k⟩
  · rw [he, noticeIn_inTurn h hu hw]
    exact done_of_dpx h.settled k (within rfl) (congrArg Dpx.state hd : ((met r s).ackRec (asNotice kind r) 0).dpx.state = s.dpx.state)
  · exact congrArg (fun d : Dpx => { d with handover := true }) hd

theorem boundary_refused {i : Instr} (hi : i = .noticeHandover r ∨ i = .noticeHandback r) (h : InTurn r s)
    (hf : s.dpx.proofFail = true) : ∃ t, exec i s = .next t ∧ t.dpx = s.dpx ∧
    t.dpx2.hBound = s.dpx2.hBound ∧ (∃ a : BRec, Out.baste a ∈ t.outbox ∧ a.type = 2 ∧ fieldN a.payload 9 1 = 1) ∧
    OnlyChanges [.dpx2, .outbox] s t := by
  obtain ⟨kind, back, he, hn⟩ := exchange_notice hi
  have hp : (met r s).cfg.partner = true := partner_of_lanes h.lanes
  have hu : (met r s).takeNotice (asNotice kind r) = (met r s).ackRec (asNotice kind r) 1 := by
    rw [hn, takeHandover_refused (s := met r s) hf]
  have ka : OnlyChanges [.dpx2, .outbox] (met r s) ((met r s).ackRec (asNotice kind r) 1) := ackRec_frame
  have k : OnlyChanges [.dpx2, .outbox] s ((met r s).ackRec (asNotice kind r) 1) :=
    OnlyChanges.trans (OnlyChanges.mono met_frame (within rfl)) ka
  refine ⟨(met r s).ackRec (asNotice kind r) 1, ?_, k.same .dpx (by decide), ?_,
    ⟨ackOf (asNotice kind r) 1 (met r s), ackRec_sent hp 1, rfl, ackOf_result 1 (by decide)⟩, k⟩
  · rw [he, noticeIn_inTurn h hu (by rw [ackRec_dpx2 hp]; exact h.alone)]
    exact done_of_frame h.settled k (within rfl)
  · rw [ackRec_dpx2 hp]
    rfl

/-! RING_ABSENT (R253). -/

theorem ringAbsent_ignored {m : Nat} (h : s.sys.primary = false ∨ s.insync = false) : s.ringAbsent m = s := by
  refine if_pos ?_
  rcases h with h | h <;> simp [h]

theorem ringAbsent_unheard (h : InTurn r s) (hc : s.sys.primary = false ∨ s.insync = false) :
    exec (.noticeRingAbsent r) s = .next (met r s) := by
  have hu : (met r s).takeNotice (asNotice 5 r) = met r s :=
    (takeNotice_ringAbsent (asNotice_kind (by decide))).trans (ringAbsent_ignored hc)
  rw [← done_of_frame h.settled (met_frame (r := r)) (within rfl)]
  exact noticeIn_inTurn h hu h.alone

/-- The rings of a mask that no report has named for 60 s (R253). -/
def newlyAbsent (m : Nat) (s : State) : Word :=
  maskOf 4 fun r => decide (m / 2 ^ r % 2 = 1) && (match s.dpx2.absentT.find r with
    | some t => decide (t + 60000000000 ≤ s.sys.opNs)
    | none => true)

/-- `s` with the report of the rings `w` waiting. -/
def reportedAbsent (w : BitVec 4) (s : State) : State := { s with dpx2 := { s.dpx2 with absPend := s.dpx2.absPend ||| w } }

theorem ringAbsent_reported {m : Nat} (hp : s.sys.primary = true) (hi : s.insync = true) (hw : s.dpx2.proofWin = false) :
    s.ringAbsent m = (reportedAbsent ((newlyAbsent m s).setWidth 4) s).tryAbsent := by
  unfold State.ringAbsent
  rw [hp, hi, hw]
  rfl

theorem maskOf_four (f : Nat → Bool) :
    maskOf 4 f = BitVec.ofNat 32 (bit (f 0) + bit (f 1) <<< 1 + bit (f 2) <<< 2 + bit (f 3) <<< 3) := by
  simp [maskOf, sumTo, List.range_succ, Nat.add_assoc]

/-- Each bit of a mask of four is its condition. -/
theorem maskOf_four_bit {f : Nat → Bool} (hk : k < 4) : (maskOf 4 f).getLsbD k = f k := by
  rw [maskOf_four]
  generalize h0 : f 0 = a0
  generalize h1 : f 1 = a1
  generalize h2 : f 2 = a2
  generalize h3 : f 3 = a3
  obtain rfl | rfl | rfl | rfl : k = 0 ∨ k = 1 ∨ k = 2 ∨ k = 3 := by omega
  · rw [h0]; clear h0 h1 h2 h3; revert a0 a1 a2 a3; decide
  · rw [h1]; clear h0 h1 h2 h3; revert a0 a1 a2 a3; decide
  · rw [h2]; clear h0 h1 h2 h3; revert a0 a1 a2 a3; decide
  · rw [h3]; clear h0 h1 h2 h3; revert a0 a1 a2 a3; decide

/-- Entries put for some keys of a list: those keys have the value, the others what they had. -/
theorem find_foldl_put {α : Type} (p : Nat → Bool) (v : α) (l : List Nat) (t : Tab α) :
    (l.foldl (fun (a : Tab α) r => if p r then a.put r v else a) t).find k = if k ∈ l ∧ p k = true then some v else t.find k := by
  induction l generalizing t with
  | nil => simp
  | cons a l ih =>
    rw [List.foldl_cons, ih]
    by_cases hl : k ∈ l ∧ p k = true
    · simp [hl]
    · rw [if_neg hl]
      by_cases ha : k = a
      · subst ha
        by_cases hp : p k = true <;> simp [hp]
      · have hne : (if p a = true then t.put a v else t).find k = t.find k := by
          split
          · exact find_put_ne ha
          · rfl
        rw [hne, if_neg (by rintro ⟨h, hp⟩; exact hl ⟨(List.mem_cons.mp h).resolve_left ha, hp⟩)]

/-- `s` with the exchange asked for by the reports that waited, which are now noted with their time. -/
def absentAsked (s : State) : State :=
  { s.askExchange false 31 with dpx2 := { (s.askExchange false 31).dpx2 with
      absPend := 0
      absentT := (List.range 4).foldl (fun (a : Tab Nat) r => if s.dpx2.absPend.getLsbD r then a.put r s.sys.opNs else a) s.dpx2.absentT } }

theorem absentAsked_frame : OnlyChanges [.dpx2] s (absentAsked s) := dpx2_frame _

theorem tryAbsent_asks (h0 : s.dpx2.absPend ≠ 0) (hg : s.checkExchange = .go) (ha : s.dpx2.ceAck = false) : s.tryAbsent = absentAsked s :=
  (if_neg (by rintro (h | h); exacts [h0 h, h hg])).trans (tryHandover_unacked (s := absentAsked s) ha)

theorem absentAsked_asks : (absentAsked s).dpx2.xPend = true ∧ (absentAsked s).dpx2.isProof = false ∧ (absentAsked s).dpx2.absPend = 0 :=
  ⟨rfl, rfl, rfl⟩

theorem absentAsked_waits : (absentAsked s).dpx2.waitRec = s.dpx2.waitRec := rfl

theorem absentAsked_noted (hk : k < 4) (hb : s.dpx2.absPend.getLsbD k = true) : (absentAsked s).dpx2.absentT.find k = some s.sys.opNs :=
  (find_foldl_put ..).trans (if_pos ⟨List.mem_range.mpr hk, hb⟩)

theorem reportedAbsent_frame {w : BitVec 4} : OnlyChanges [.dpx2] s (reportedAbsent w s) := dpx2_frame _

theorem reportedAbsent_bit {w : BitVec 4} (h : w.getLsbD k = true) : (reportedAbsent w s).dpx2.absPend.getLsbD k = true := by
  rw [show (reportedAbsent w s).dpx2.absPend = s.dpx2.absPend ||| w from rfl, BitVec.getLsbD_or, h, Bool.or_true]

theorem absent_ring_asks (h : InTurn r s) (hp : s.sys.primary = true) (hg : s.checkExchange = .go) (hw : s.dpx2.proofWin = false)
    (ha : s.dpx2.ceAck = false) (hk : k < 4) (hb : fieldN r.payload 1 1 / 2 ^ k % 2 = 1) (hn : s.dpx2.absentT.find k = none) :
    ∃ t, exec (.noticeRingAbsent r) s = .next t ∧ t.dpx2.xPend = true ∧ t.dpx2.isProof = false ∧
    t.dpx2.absentT.find k = some s.sys.opNs ∧ t.dpx2.absPend = 0 ∧ OnlyChanges [.dpx2] s t := by
  obtain ⟨w, hw4⟩ : ∃ w, w = (newlyAbsent (fieldN r.payload 1 1) (met r s)).setWidth 4 := ⟨_, rfl⟩
  have hbit : w.getLsbD k = true := by
    rw [hw4, BitVec.getLsbD_setWidth, newlyAbsent, maskOf_four_bit hk, show (met r s).dpx2.absentT.find k = none from hn]
    simp [hk, hb]
  have hor : (reportedAbsent w (met r s)).dpx2.absPend.getLsbD k = true := reportedAbsent_bit hbit
  have hu : (met r s).takeNotice (asNotice 5 r) = (reportedAbsent w (met r s)).tryAbsent := by
    rw [takeNotice_ringAbsent (asNotice_kind (by decide)), asNotice_field,
      ringAbsent_reported (s := met r s) hp (checkExchange_free hg).1 hw, ← hw4]
  have hg' : (reportedAbsent w (met r s)).checkExchange = .go := hg
  have ha' : (reportedAbsent w (met r s)).dpx2.ceAck = false := ha
  have hwait : (reportedAbsent w (met r s)).dpx2.waitRec = [] := h.alone
  have hops : (reportedAbsent w (met r s)).sys.opNs = s.sys.opNs := rfl
  have kv : OnlyChanges [.dpx2] s (reportedAbsent w (met r s)) := OnlyChanges.trans met_frame reportedAbsent_frame
  generalize reportedAbsent w (met r s) = v at *
  have hne : v.dpx2.absPend ≠ 0 := fun e => by
    rw [e] at hor
    simp at hor
  have kf : OnlyChanges [.dpx2] s (absentAsked v) := OnlyChanges.trans kv absentAsked_frame
  obtain ⟨hx, hpr, h0⟩ := absentAsked_asks (s := v)
  exact ⟨absentAsked v, (noticeIn_inTurn h (hu.trans (tryAbsent_asks hne hg' ha')) (absentAsked_waits.trans hwait)).trans (done_of_frame h.settled kf (within rfl)), hx, hpr,
    (absentAsked_noted hk hor).trans (congrArg some hops), h0, kf⟩

/-! PROOF_FAIL (R269). -/

/-- PROOF_FAIL of the partner is kept. -/
def partnerFailed (s : State) : State := { s with dpx := { s.dpx with partnerPf := true } }

/-- What the module knows of the failed check: 1 where it reported a ring itself, else a free value (log entry 5). -/
def failedCheck (s : State) : DWord × State := if s.dpx2.absRep ≠ 0 then (1, s) else s.draw

/-- The proof swap in which the module gave its role away has failed. -/
def swapFailed (s : State) : State :=
  { partnerFailed (failedCheck s).2 with dpx2 := { s.dpx2 with
      psResult := 2, psCheck := (failedCheck s).1.setWidth 4, psRing := s.dpx2.absRep, psCnt := s.dpx2.psCnt + 1, psOpen := false } }

theorem failedCheck_frame : OnlyChanges [.freeN] s (failedCheck s).2 := by
  unfold failedCheck
  split
  · exact OnlyChanges.refl
  · exact ⟨fun p hp => by cases p with
      | freeN => exact absurd (by decide) hp
      | _ => rfl⟩

theorem partnerFailed_frame : OnlyChanges [.dpx] s (partnerFailed s) := updDpx_frame fun d => { d with partnerPf := true }

theorem swapFailed_frame : OnlyChanges [.dpx, .dpx2, .freeN] s (swapFailed s) :=
  OnlyChanges.trans (OnlyChanges.mono failedCheck_frame (within rfl)) (OnlyChanges.trans (OnlyChanges.mono partnerFailed_frame (within rfl))
    (OnlyChanges.mono (dpx2_frame _) (within rfl)))

theorem partnerProofFail_open (h : s.dpx2.psOpen = true) : s.partnerProofFail = (swapFailed s).psRestart s.secs := by
  unfold State.partnerProofFail
  unfold swapFailed failedCheck
  rw [if_pos h]
  by_cases h0 : s.dpx2.absRep ≠ 0
  · simp only [if_pos h0]
    rfl
  · simp only [if_neg h0]
    rfl

theorem partnerProofFail_closed (h : s.dpx2.psOpen = false) : s.partnerProofFail = partnerFailed s := if_neg (by simp [h])

theorem proof_failed (h : InTurn r s) : ∃ t, exec (.noticeProofFail r) s = .next t ∧ t.dpx = { s.dpx with partnerPf := true } ∧
    (s.dpx2.psOpen = true → t.dpx2.psResult = 2 ∧ t.dpx2.psRing = s.dpx2.absRep ∧ t.dpx2.psCnt = s.dpx2.psCnt + 1 ∧
      t.dpx2.psOpen = false ∧ (s.dpx2.absRep ≠ 0 → t.dpx2.psCheck = 1)) ∧
    (s.dpx2.psOpen = false → t.dpx2 = { s.dpx2 with rseqRx := r.rseq }) ∧ OnlyChanges [.dpx, .dpx2, .freeN] s t := by
  have hn : (met r s).takeNotice (asNotice 6 r) = (met r s).partnerProofFail := takeNotice_proofFail (asNotice_kind (by decide))
  cases ho : s.dpx2.psOpen with
  | false =>
    have hu : (met r s).takeNotice (asNotice 6 r) = partnerFailed (met r s) := hn.trans (partnerProofFail_closed (s := met r s) ho)
    have k : OnlyChanges [.dpx, .dpx2, .freeN] s (partnerFailed (met r s)) :=
      OnlyChanges.trans (OnlyChanges.mono met_frame (within rfl)) (OnlyChanges.mono partnerFailed_frame (within rfl))
    exact ⟨partnerFailed (met r s), (noticeIn_inTurn h hu h.alone).trans (done_of_dpx h.settled k (within rfl) rfl), rfl,
      fun e => absurd e Bool.false_ne_true, fun _ => rfl, k⟩
  | true =>
    have hu : (met r s).takeNotice (asNotice 6 r) = (swapFailed (met r s)).psRestart (met r s).secs :=
      hn.trans (partnerProofFail_open (s := met r s) ho)
    have k : OnlyChanges [.dpx, .dpx2, .freeN] s ((swapFailed (met r s)).psRestart (met r s).secs) :=
      OnlyChanges.trans (OnlyChanges.mono met_frame (within rfl)) (psRestart_only (within rfl) swapFailed_frame)
    have hd : ((swapFailed (met r s)).psRestart (met r s).secs).dpx = { s.dpx with partnerPf := true } :=
      congrArg (fun d : Dpx => { d with partnerPf := true }) (failedCheck_frame.same .dpx (by decide) : (failedCheck (met r s)).2.dpx = _)
    have hst : ((swapFailed (met r s)).psRestart (met r s).secs).dpx.state = s.dpx.state := by rw [hd]
    refine ⟨(swapFailed (met r s)).psRestart (met r s).secs,
      (noticeIn_inTurn h hu h.alone).trans (done_of_dpx h.settled k (within rfl) hst), hd,
      fun _ => ⟨rfl, rfl, rfl, rfl, fun ha => ?_⟩, fun e => absurd e.symm Bool.false_ne_true, k⟩
    have hf : (failedCheck (met r s)).1 = 1 := congrArg Prod.fst (if_pos ha)
    exact congrArg (BitVec.setWidth 4) hf

/-! CUT_IN, READY and CHECK_FAILED (R248, R219). -/

/-- A standby's own journal is discarded, but for orphans (R249). -/
def orphansOnly (s : State) : State := { s with hif := { s.hif with journal := s.hif.journal.filter fun j => j.orphan } }

theorem orphansOnly_frame : OnlyChanges [.hif] s (orphansOnly s) := hif_frame _

theorem takeCutIn_joins (hr : s.receives = true) (hs : s.dpx.state = .syncing) (hm : s.sys.mode = .run) :
    s.takeCutIn r = (orphansOnly (s.ackRec r 0)).enterSync.actInSync :=
  if_pos (by rw [hr, hs, hm]; rfl)

theorem cutIn_joins (h : InTurn r s) (hr : s.receives = true) (hs : s.dpx.state = .syncing) (hm : s.sys.mode = .run)
    (hb : s.boot.act.busy = false) : ∃ t, exec (.noticeCutIn r) s = .next t ∧ t.dpx.state = .insync ∧
    t.dpx2.syncDone = s.dpx2.syncDone + 1 ∧ t.hif.journal = s.hif.journal.filter (fun j => j.orphan) ∧
    (∃ a : BRec, Out.baste a ∈ t.outbox ∧ a.type = 2) ∧ OnlyChanges [.dpx, .dpx2, .mir, .tly, .hif, .outbox] s t := by
  have hp : (met r s).cfg.partner = true := partner_of_lanes h.lanes
  have hack : Out.baste (ackOf (asNotice 7 r) 0 (met r s)) ∈ ((met r s).ackRec (asNotice 7 r) 0).outbox := ackRec_sent hp 0
  have hd2 : ((met r s).ackRec (asNotice 7 r) 0).dpx2 = { (met r s).dpx2 with rseqTx := (met r s).dpx2.rseqTx + 1 } := ackRec_dpx2 hp 0
  have ka : OnlyChanges [.dpx2, .outbox] (met r s) ((met r s).ackRec (asNotice 7 r) 0) := ackRec_frame
  have hn : (met r s).takeNotice (asNotice 7 r) = (orphansOnly ((met r s).ackRec (asNotice 7 r) 0)).enterSync.actInSync :=
    (takeNotice_cutIn (asNotice_kind (by decide))).trans (takeCutIn_joins (s := met r s) hr hs hm)
  generalize (met r s).ackRec (asNotice 7 r) 0 = v at hn hack hd2 ka
  have kv : OnlyChanges [.hif, .dpx2, .outbox] s (orphansOnly v) := OnlyChanges.trans (OnlyChanges.mono met_frame (within rfl))
    (OnlyChanges.trans (OnlyChanges.mono ka (within rfl)) (OnlyChanges.mono orphansOnly_frame (within rfl)))
  have k : CameInSync (orphansOnly v) (orphansOnly v).enterSync := enterSync_inSync
  have hbusy : (orphansOnly v).enterSync.boot.act.busy = false := by
    rw [k.frame.same .boot (by decide), kv.same .boot (by decide)]
    exact hb
  rw [actInSync_idle hbusy] at hn
  have kf := OnlyChanges.trans (OnlyChanges.mono kv (within rfl)) k.frame
  obtain ⟨t, ht, hf, he, ho, hkeep⟩ := done_of (qs := [.dpx, .dpx2, .mir, .tly, .hif, .outbox]) h.settled kf (within rfl) (within rfl)
  have hw : (orphansOnly v).dpx2 = { (met r s).dpx2 with rseqTx := (met r s).dpx2.rseqTx + 1 } := hd2
  have hh : (orphansOnly v).hif.journal = s.hif.journal.filter fun j => j.orphan :=
    congrArg (fun x : Hif => x.journal.filter fun j : JRec => j.orphan) (ka.same .hif (by decide) : v.hif = (met r s).hif)
  refine ⟨t, ?_, ?_, ?_, ?_, ⟨_, hkeep _ (k.sent _ hack), rfl⟩, hf⟩
  · rw [← ht]
    exact noticeIn_inTurn h hn (by rw [k.waits, hw]; exact h.alone)
  · rw [ho.same .dpx (by decide)]
    exact k.state
  · rw [ho.same .dpx2 (by decide), k.counted, hw]
    rfl
  · rw [he, k.hif]
    exact hh

/-- The standby holds the package of the change in progress. -/
def readyNoted (s : State) : State := s.updChg fun c => { c with peerReady := true }

theorem takeReady_noted (hp : s.sys.primary = true) (h1 : s.chg.state = 1) (hs : s.chg.stored = false) (hr : s.chg.recorded = false)
    (hn : BitVec.ofNat 64 (fieldN r.payload 16 8) = s.chg.pkgRseq) : s.takeReady r = readyNoted (s.ackRec r 0) := by
  have ka : OnlyChanges [.dpx2, .outbox] s (s.ackRec r 0) := ackRec_frame
  have hchg : (s.ackRec r 0).chg = s.chg := ka.same .chg (by decide)
  have hstored : (readyNoted (s.ackRec r 0)).chg.stored = false := by
    rw [show (readyNoted (s.ackRec r 0)).chg.stored = (s.ackRec r 0).chg.stored from rfl, hchg, hs]
  unfold State.takeReady
  dsimp only
  rw [if_neg (by simp [hp]), if_pos (by simp [h1, hr, hn])]
  exact if_neg fun e => Bool.false_ne_true (hstored.symm.trans (Bool.and_eq_true_iff.mp e).1)

theorem ready_noted (h : InTurn r s) (hp : s.sys.primary = true) (h1 : s.chg.state = 1) (hs : s.chg.stored = false)
    (hr : s.chg.recorded = false) (hn : BitVec.ofNat 64 (fieldN r.payload 16 8) = s.chg.pkgRseq) :
    ∃ t, exec (.noticeReady r) s = .next t ∧ t.chg = { s.chg with peerReady := true } ∧ OnlyChanges [.chg, .dpx2, .outbox] s t := by
  have hpar : (met r s).cfg.partner = true := partner_of_lanes h.lanes
  have ka : OnlyChanges [.dpx2, .outbox] (met r s) ((met r s).ackRec (asNotice 8 r) 0) := ackRec_frame
  have hu : (met r s).takeNotice (asNotice 8 r) = readyNoted ((met r s).ackRec (asNotice 8 r) 0) :=
    (takeNotice_ready (asNotice_kind (by decide))).trans
      (takeReady_noted (s := met r s) hp h1 hs hr (by rw [asNotice_field]; exact hn))
  have k : OnlyChanges [.chg, .dpx2, .outbox] s (readyNoted ((met r s).ackRec (asNotice 8 r) 0)) :=
    OnlyChanges.trans (OnlyChanges.mono met_frame (within rfl)) (updChg_only (within rfl) (OnlyChanges.mono ka (within rfl)))
  refine ⟨readyNoted ((met r s).ackRec (asNotice 8 r) 0),
    (noticeIn_inTurn h hu ?_).trans (done_of_frame h.settled k (within rfl)), ?_, k⟩
  · exact (congrArg Dpx2.waitRec (ackRec_dpx2 hpar 0)).trans h.alone
  · exact congrArg (fun c : Change => { c with peerReady := true }) (ka.same .chg (by decide))

theorem change_ended (h : InTurn r s) (hp : s.sys.primary = true) (hc : s.chg.state = 1 ∨ s.chg.state = 2) (hr : s.chg.recorded = false) :
    ∃ t, exec (.noticeCheckFailed r) s = .next t ∧ t.chg.state = 0 ∧ t.chg.active = s.chg.active ∧ t.chg.actVer = s.chg.actVer ∧
    OnlyChanges [.hif, .chg, .dpx2, .tly, .outbox] s t := by
  have hu : (met r s).takeNotice (asNotice 9 r) = (met r s).refuseChange := by
    rw [takeNotice_checkFailed (asNotice_kind (by decide)), State.takeCheckFailed, if_neg (by simp [show (met r s).sys.primary = true from hp])]
    exact if_pos (by rw [show (met r s).chg = s.chg from rfl, hr, decide_eq_true hc]; rfl)
  have kr : OnlyChanges [.hif, .tly, .outbox] (met r s).dropChange (met r s).refuseChange := refusePrepared_only (within rfl) OnlyChanges.refl
  have k : OnlyChanges [.hif, .chg, .dpx2, .tly, .outbox] s (met r s).refuseChange :=
    refuseChange_only (within rfl) (OnlyChanges.mono met_frame (within rfl))
  have hchg : (met r s).refuseChange.chg = (met r s).dropChange.chg := kr.same .chg (by decide)
  have hw : (met r s).refuseChange.dpx2 = (met r s).dropChange.dpx2 := kr.same .dpx2 (by decide)
  obtain ⟨t, ht, hf, -, ho, -⟩ := done_of (qs := [.hif, .chg, .dpx2, .tly, .outbox]) h.settled k (within rfl) (within rfl)
  have htc : t.chg = (met r s).dropChange.chg := (ho.same .chg (by decide)).trans hchg
  refine ⟨t, ?_, by rw [htc]; rfl, by rw [htc]; rfl, by rw [htc]; rfl, hf⟩
  rw [← ht]
  exact noticeIn_inTurn h hu (by rw [hw]; exact h.alone)

/-- Settles O37: one lemma for each acknowledgement and notice, by what `takeAck` and `takeNotice` make of its kind. -/
theorem acknowledgementsAndNotices : Obligations.AcknowledgementsAndNotices :=
  ⟨fun _ _ h h8 h9 hn hs hp hb => cutIn_acked h h8 h9 hn hs hp hb,
    fun _ _ h h8 h9 hn hx ha => ⟨_, commit_acked h h8 h9 hn hx ha, rfl, OnlyChanges.trans met_frame (dpx2_frame _)⟩,
    fun _ _ h hc => ⟨_, failure_noted h hc, rfl, OnlyChanges.trans met_frame (dpx2_frame _)⟩,
    fun _ _ h hr hb hf ht => halt_heard h hr hb hf ht,
    fun _ _ _ hi h hs hp hm hf hb => boundary_named hi h ⟨hs, hp, hm⟩ hf hb,
    fun _ _ _ hi h _ _ _ hf => boundary_refused hi h hf,
    fun _ _ h hc => ⟨_, ringAbsent_unheard h hc, rfl, met_frame⟩,
    fun _ _ _ h hp hg hw ha hk hb hn => absent_ring_asks h hp hg hw ha hk hb hn,
    fun _ _ h => proof_failed h,
    fun _ _ h hr hs hm hb => cutIn_joins h hr hs hm hb,
    fun _ _ h hp h1 hs hr hn => ready_noted h hp h1 hs hr hn,
    fun _ _ h hp hc hr => change_ended h hp hc hr⟩

end Sys2Proof.Proofs
end

section
/-! The hold of fetching (spec/04_host_rings.md R118): completions, reads that are served, and what follows a command leave it. -/

namespace Sys2Proof.Proofs

open Sys2Proof.Machine Sys2Proof.Safety Sys2Proof.Laws

variable {s t u : State} {h : Hcmd} {n : Nat} {st : BitVec 16} {b : List Byte} {r0 : Word} {r1 : DWord}

/-- From `s` to `t` the hold of fetching has stayed. -/
structure HoldStays (s t : State) : Prop where
  hold : t.hif.hold = s.hif.hold

theorem HoldStays.refl : HoldStays s s := ⟨rfl⟩

theorem HoldStays.trans (k : HoldStays s t) (l : HoldStays t u) : HoldStays s u := ⟨l.hold.trans k.hold⟩

theorem HoldStays.ite {c : Prop} [Decidable c] (k : HoldStays s t) (l : HoldStays s u) : HoldStays s (if c then t else u) := by
  split
  · exact k
  · exact l

theorem HoldStays.foldl {α : Type} {f : State → α → State} {l : List α} (k : HoldStays s t) (hf : ∀ u a, HoldStays s u → HoldStays s (f u a)) :
    HoldStays s (l.foldl f t) := by
  induction l generalizing t with
  | nil => exact k
  | cons a l ih => exact ih (hf _ _ k)

/-- What leaves the host interface leaves the hold. -/
theorem HoldStays.frame {P : List Part} (k : HoldStays s t) (f : OnlyChanges P t u) (hP : Part.hif ∉ P) : HoldStays s u :=
  k.trans ⟨congrArg Hif.hold (f.same .hif hP)⟩

theorem msix_holdStays {v : Nat} (k : HoldStays s t) : HoldStays s (t.msix v) := by
  unfold State.msix
  split
  · exact k.trans ⟨rfl⟩
  · exact k.trans ⟨rfl⟩

theorem holdStays_of_events (k : EventsOnly s t) : HoldStays s t := ⟨by unfold EventsOnly at k; rw [k]⟩

theorem event_holdStays {c : BitVec 16} {v : Nat} {w : Word} {d : List Byte} (k : HoldStays s t) : HoldStays s (t.event c v w d) :=
  k.trans (holdStays_of_events event_events)

theorem updRing_holdStays {f : Ring → Ring} (k : HoldStays s t) : HoldStays s (t.updRing n f) := k.trans ⟨rfl⟩

theorem put_holdStays {o : Out} (k : HoldStays s t) : HoldStays s (t.put o) := k.trans ⟨rfl⟩

theorem retire_holdStays {id : DWord} (k : HoldStays s t) : HoldStays s (t.retire n id) := k.trans ⟨rfl⟩

theorem countInt_holdStays {x : Bool} (k : HoldStays s t) : HoldStays s (t.countInt n x) := by
  unfold State.countInt
  exact (k.ite (msix_holdStays k)).ite ((msix_holdStays (updRing_holdStays k)).ite (updRing_holdStays k))

theorem postCqe_holdStays {x : Bool} {c : Cqe} (k : HoldStays s t) : HoldStays s (t.postCqe x c) :=
  retire_holdStays (countInt_holdStays (put_holdStays (updRing_holdStays k)))

theorem haltRing_holdStays {c i : Nat} (k : HoldStays s t) : HoldStays s (t.haltRing n c i) := by
  have hr : HoldStays s (if n = 17 then { t with hif := { t.hif with ev := { t.hif.ev with halted := true } } }
      else t.updRing n fun r => { r with halted := true }) := by
    split
    · exact k.trans ⟨rfl⟩
    · exact updRing_holdStays k
  unfold State.haltRing
  dsimp only
  generalize (if n = 17 then { t with hif := { t.hif with ev := { t.hif.ev with halted := true } } }
      else t.updRing n fun r => { r with halted := true }) = v at hr ⊢
  refine event_holdStays (HoldStays.frame ?_ (log_only (within rfl) OnlyChanges.refl : OnlyChanges [.tly] _ _) (by decide))
  exact hr.trans ⟨rfl⟩

theorem writeCqe_holdStays {x m : Bool} {j : DWord} {d : Nat} (k : HoldStays s t) : HoldStays s (t.writeCqe h st x m j d r0 r1) := by
  have hi : HoldStays s (t.updRing h.slot fun r => { r with infl := none }) := updRing_holdStays k
  unfold State.writeCqe
  dsimp only
  generalize (t.updRing h.slot fun r => { r with infl := none }) = v at hi ⊢
  exact HoldStays.ite (updRing_holdStays (haltRing_holdStays (hi.trans ⟨rfl⟩))) (HoldStays.ite (hi.trans ⟨rfl⟩) (postCqe_holdStays hi))

theorem endDelete_holdStays (k : HoldStays s t) : HoldStays s (t.endDelete n) := by
  have hr : HoldStays s (t.removeRing n) := k.trans ⟨rfl⟩
  unfold State.endDelete
  dsimp only
  split
  · exact (writeCqe_holdStays hr).ite hr
  · exact hr

theorem settle_holdStays {m : Bool} {j : DWord} (k : HoldStays s t) : HoldStays s (t.settle h st m j b r0 r1) := by
  have hg : HoldStays s (t.giveBack h b).2 := by
    unfold State.giveBack
    split
    · exact k
    · split
      · exact k.trans ⟨rfl⟩
      · exact k.trans ⟨rfl⟩
  exact HoldStays.ite (endDelete_holdStays (writeCqe_holdStays hg)) (writeCqe_holdStays hg)

theorem finishWaiting_holdStays (k : HoldStays s t) : HoldStays s (t.finishWaiting n st b r0 r1) := by
  unfold State.finishWaiting
  split
  · exact settle_holdStays k
  · exact k

theorem serveRead_holdStays (k : HoldStays s t) : HoldStays s (t.serveRead n) := by
  unfold State.serveRead
  split
  · exact (finishWaiting_holdStays k).ite ((finishWaiting_holdStays k).ite k)
  · exact k

theorem report_holdStays : HoldStays t (report s t) := holdStays_of_events report_events

theorem settleState_holdStays : HoldStays t (settleState s t) := by
  have hu : HoldStays t (t.canSync.fioFollow s.sys.mode) := HoldStays.refl.frame (follow_frame _) (by decide)
  unfold settleState
  dsimp only
  generalize t.canSync.fioFollow s.sys.mode = v at hu ⊢
  have hp : HoldStays t v.completePreempted := by
    unfold State.completePreempted
    exact HoldStays.foldl (hu.trans ⟨rfl⟩) fun _ _ => finishWaiting_holdStays
  exact (HoldStays.ite (hp.ite (hp.foldl fun _ _ => serveRead_holdStays)) hu).trans report_holdStays

end Sys2Proof.Proofs
end

section
/-! What a change of mode outside TEST and FAULT-HALT leaves, and the end of INSYNC on a module that asks for no exchange. -/

namespace Sys2Proof.Proofs

open Sys2Proof.Machine Sys2Proof.Safety Sys2Proof.Laws

variable {s t u : State}

theorem setMode_saf {m : Mode} {cause : Nat} (h : s.sys.mode ≠ .faultHalt) : (s.setMode m cause).saf = s.saf := by
  unfold State.setMode
  dsimp only
  rw [log_event_frame.same .saf (by decide), if_neg h]
  split <;> rfl

/-- A change of mode from one that is neither TEST nor FAULT-HALT leaves the safety unit and the injections. -/
theorem setMode_frame {m : Mode} {cause : Nat} (ht : s.sys.mode ≠ .test) (hf : s.sys.mode ≠ .faultHalt) :
    OnlyChanges [.sys, .hif, .cyc, .tly, .outbox] s (s.setMode m cause) :=
  OnlyChanges.drop (OnlyChanges.drop (p := .saf) (ps := [.mm, .sys, .hif, .cyc, .tly, .outbox])
    (setMode_only (within rfl) OnlyChanges.refl) (setMode_saf hf)) (setMode_mm ht)

theorem endInsync_sys (h : ((s.dpx2.xPend || s.dpx.handover) && s.sys.primary) = false) (cause : Nat) : (s.endInsync cause).sys = s.sys := by
  have hk : (s.setSync s.afterLoss 0 cause).sys = s.sys :=
    (setSync_only (within rfl) OnlyChanges.refl : OnlyChanges [.dpx, .tly] s _).same .sys (by decide)
  unfold State.endInsync
  rw [h]
  simp only [Bool.false_eq_true, if_false, apply_ite State.sys, hk, ite_self]

/-- Without an exchange that waits, the end of INSYNC leaves the mode commands. -/
theorem endInsync_frame (h : ((s.dpx2.xPend || s.dpx.handover) && s.sys.primary) = false) (cause : Nat) :
    OnlyChanges [.hif, .dpx, .dpx2, .tly] s (s.endInsync cause) :=
  OnlyChanges.drop (p := .sys) (endInsync_only (within rfl) OnlyChanges.refl) (endInsync_sys h cause)

end Sys2Proof.Proofs
end

section
/-! Commit records and loop state on the standby (O35; spec/09_duplex_pair.md R243, R244, R248, R265, Tables 9.14, 9.17). -/

namespace Sys2Proof.Proofs

open Sys2Proof.Machine Sys2Proof.Safety Sys2Proof.Laws

variable {s t u v : State} {r : BRec} {c d n : Nat}

/-! A record of the program that runs meets no exchange (R226). -/

theorem meetVersion_same {w : Word} {k : Nat} {q : DWord} (h : s.chg.state ≠ 3 ∨ w = s.chg.actVer) : s.meetVersion w k q = s := by
  refine if_neg ?_
  rcases h with h | h
  · simp only [decide_eq_false h, Bool.and_false, Bool.false_and]
    exact Bool.false_ne_true
  · simp [h]

theorem changeLapsed_none {w : Word} {k : Nat} {q : DWord} (h : s.chg.state ≠ 3) : s.changeLapsed w k q = s :=
  if_neg (by simp only [decide_eq_false h, Bool.and_false, Bool.false_and]; exact Bool.false_ne_true)

theorem updMir_frame (f : MirCls → MirCls) : OnlyChanges [.mir] s (s.updMir c f) :=
  ⟨fun p hp => by cases p with
    | mir => exact absurd (by decide) hp
    | _ => rfl⟩

theorem primary_of_receives (hr : s.running = true) (h : s.receives = true) : s.sys.primary = false := by
  simp only [State.receives, State.executes, hr, Bool.true_and, Bool.and_eq_true, Bool.not_eq_true', Bool.or_eq_false_iff] at h
  exact h.2.1

/-! LINES. -/

/-- What LINES makes of its class's buffers. -/
theorem takeLines_eq (h : s.receives = true) (hv : s.holdsVersion r.progVer = true) :
    ∃ f, s.takeLines r = s.updMir (fieldN r.payload 0 1 % 8) f ∧ (∀ m, (f m).lines = m.lines + 1) ∧
    (fieldN r.payload 1 1 = 0 → ∀ m, (f m).inactive = m.inactive ++ lineEntries r.payload 16 (fieldN r.payload 2 2)) ∧
    (fieldN r.payload 1 1 = 1 → ∀ m, (f m).inData = m.inData ++ lineEntries r.payload 16 (fieldN r.payload 2 2)) := by
  unfold State.takeLines
  rw [h, hv]
  refine ⟨_, rfl, fun m => ?_, fun h0 m => ?_, fun h1 m => ?_⟩
  · dsimp only
    split <;> rfl
  · simp only [h0]
  · simp only [h1]

theorem lines_collected (h : InTurn r s) (hr : s.receives = true) (hv : s.holdsVersion r.progVer = true)
    (hc : s.chg.state ≠ 3 ∨ r.progVer = s.chg.actVer) : ∃ t, exec (.lines r) s = .next t ∧
    (fieldN r.payload 1 1 = 0 → (t.mirCls (fieldN r.payload 0 1 % 8)).inactive =
      (s.mirCls (fieldN r.payload 0 1 % 8)).inactive ++ lineEntries r.payload 16 (fieldN r.payload 2 2)) ∧
    (fieldN r.payload 1 1 = 1 → (t.mirCls (fieldN r.payload 0 1 % 8)).inData =
      (s.mirCls (fieldN r.payload 0 1 % 8)).inData ++ lineEntries r.payload 16 (fieldN r.payload 2 2)) ∧
    (t.mirCls (fieldN r.payload 0 1 % 8)).lines = (s.mirCls (fieldN r.payload 0 1 % 8)).lines + 1 ∧
    (∀ c, c ≠ fieldN r.payload 0 1 % 8 → t.mirCls c = s.mirCls c) ∧ OnlyChanges [.mir, .dpx2] s t := by
  obtain ⟨f, hf, hl, h0, h1⟩ := takeLines_eq (r := { r with type := 4 }) (s := met r s) hr hv
  have hu : (met r s).useRec { r with type := 4 } = (met r s).updMir (fieldN r.payload 0 1 % 8) f := by
    refine Eq.trans ?_ hf
    exact congrArg (State.takeLines { r with type := 4 }) (meetVersion_same (s := met r s) hc)
  have k : OnlyChanges [.mir, .dpx2] s ((met r s).updMir (fieldN r.payload 0 1 % 8) f) :=
    OnlyChanges.trans (OnlyChanges.mono met_frame (within rfl)) (OnlyChanges.mono (updMir_frame f) (within rfl))
  refine ⟨_, (recIn_inTurn h (by decide) (by decide) hu h.alone).trans (done_of_frame h.settled k (within rfl)), fun e => ?_, fun e => ?_, ?_,
    fun c hc => mirCls_updMir_ne f hc, k⟩
  · rw [mirCls_updMir, h0 e]
    rfl
  · rw [mirCls_updMir, h1 e]
    rfl
  · rw [mirCls_updMir, hl]
    rfl

/-! COMMIT_END (R244). -/

theorem commitLines_image (m : ClsMem) (b : Bool) (x : MirCls) :
    (m.commitLines b x).image = overlay (if b then [] else m.image) x.inactive := by
  unfold ClsMem.commitLines ClsMem.image
  cases m.idx <;> rfl

/-- The commit replaces what was held: the first bulk of an initial sync (R248). -/
def replaces (r : BRec) (x : MirCls) : Bool := r.sync && !x.bulk

/-- The cycle that a commit record names. -/
def cycleOf (r : BRec) : DWord := BitVec.ofNat 64 (fieldN r.payload 8 8)

/-- The memories of a class after the commit record `r` with the lines of `x`. -/
def commitInto (r : BRec) (x : MirCls) (m : ClsMem) : ClsMem :=
  { m.commitLines (replaces r x) x with lastNo := cycleOf r, commitT := BitVec.ofNat 32 (fieldN r.payload 16 4) }

theorem commitInto_image (x : MirCls) (m : ClsMem) :
    (commitInto r x m).image = overlay (if replaces r x then [] else m.image) x.inactive := commitLines_image m (replaces r x) x

/-- What the standby holds of a class after the commit record `r`, where it held `x`. -/
def emptied (r : BRec) (x y : MirCls) : MirCls :=
  { y.clearIn with cyc := cycleOf r, bulk := x.bulk || r.sync, ver := r.progVer, wr := y.wr.filter fun e => decide ((cycleOf r).toNat < e.1.toNat) }

/-- From `s` to `t` the commit record `r` of class `c` has been taken over; the host writes due before it have led from `s` to `v`. -/
structure TakesCommit (c : Nat) (r : BRec) (s v t : State) : Prop where
  writes : Keeps s v
  none : (s.mirCls c).wr = [] → v = s
  mem : t.cmem c = commitInto r (s.mirCls c) (v.cmem c)
  mems : ∀ d, d ≠ c → t.cmem d = v.cmem d
  cls : ∀ d, t.cls d = v.cls d
  mir : t.mirCls c = emptied r (s.mirCls c) (s.mirCls c)
  mirs : ∀ d, d ≠ c → t.mirCls d = s.mirCls d
  link : ∃ w, t.dpx2 = { s.dpx2 with lastCommitT := w }
  frame : OnlyChanges [.cyc, .dpx2, .mir] s t

theorem pairMap_alone (h : s.pairAct = false) : s.pairMap = none := by
  simp [State.pairMap, h]

/-- The host writes of class `c` due by the cycle of commit record `r`. -/
def dueWrites (c : Nat) (r : BRec) (s : State) : List (DWord × Elem) :=
  (s.mirCls c).wr.filter fun e => decide (e.1.toNat ≤ (cycleOf r).toNat)

/-- `v` with the commit record `r` of class `c` written, where the standby held `x`. -/
def committedInto (c : Nat) (r : BRec) (x : MirCls) (v : State) : State :=
  ((v.updMem c fun m => m.commitLines (replaces r x) x).updMem c fun m =>
    { m with lastNo := cycleOf r, commitT := BitVec.ofNat 32 (fieldN r.payload 16 4) }).updMir c (emptied r x)

/-- The time of the last commit of the fastest class. -/
def commitTimed (c : Nat) (r : BRec) (s t : State) : State :=
  if s.fastest = some c then { t with dpx2 := { t.dpx2 with lastCommitT := BitVec.ofNat 32 (fieldN r.payload 16 4) } } else t

theorem takeCommit_eq (h : s.pairAct = false) : s.takeCommit c r = commitTimed c r s
    (committedInto c r (s.mirCls c) ((dueWrites c r s).foldl (fun (v : State) e => v.pokeElem e.2) s)) := by
  unfold State.takeCommit
  rw [pairMap_alone h]
  rfl

theorem commitTimed_link : ∃ w, (commitTimed c r s t).dpx2 = { t.dpx2 with lastCommitT := w } := by
  unfold commitTimed
  split
  · exact ⟨_, rfl⟩
  · exact ⟨t.dpx2.lastCommitT, rfl⟩

theorem commitTimed_frame : OnlyChanges [.dpx2] t (commitTimed c r s t) := by
  unfold commitTimed
  split
  · exact dpx2_frame _
  · exact OnlyChanges.refl

theorem committedInto_frame {x : MirCls} : OnlyChanges [.cyc, .mir] v (committedInto c r x v) :=
  ⟨fun p hp => by cases p with
    | cyc | mir => exact absurd (by decide) hp
    | _ => rfl⟩

theorem committedInto_cmem {x : MirCls} : (committedInto c r x v).cmem c = commitInto r x (v.cmem c) := by
  refine (cmem_updMem (s := v.updMem c fun m => m.commitLines (replaces r x) x) c _).trans ?_
  rw [cmem_updMem]
  rfl

theorem committedInto_cmem_ne {x : MirCls} (hd : d ≠ c) : (committedInto c r x v).cmem d = v.cmem d :=
  (cmem_updMem_ne (s := v.updMem c fun m => m.commitLines (replaces r x) x) _ hd).trans (cmem_updMem_ne _ hd)

theorem takeCommit_takes (h : s.pairAct = false) : ∃ v, TakesCommit c r s v (s.takeCommit c r) := by
  rw [takeCommit_eq h]
  have hk : Keeps s ((dueWrites c r s).foldl (fun (v : State) e => v.pokeElem e.2) s) := Keeps.refl.foldl fun _ _ h => pokeElem_keeps h
  have kv : OnlyChanges [.cyc] s ((dueWrites c r s).foldl (fun (v : State) e => v.pokeElem e.2) s) :=
    OnlyChanges.foldl OnlyChanges.refl fun _ _ h => pokeElem_only (within rfl) h
  have hn : (s.mirCls c).wr = [] → (dueWrites c r s).foldl (fun (v : State) e => v.pokeElem e.2) s = s := fun e => by
    rw [dueWrites, e]
    rfl
  generalize (dueWrites c r s).foldl (fun (v : State) e => v.pokeElem e.2) s = v at hk kv hn
  have hm : v.mir = s.mir := kv.same .mir (by decide)
  have hcls : ∀ d, v.mirCls d = s.mirCls d := fun d => by rw [State.mirCls, hm]; rfl
  have kt : OnlyChanges [.dpx2] (committedInto c r (s.mirCls c) v) (commitTimed c r s (committedInto c r (s.mirCls c) v)) := commitTimed_frame
  have hcyc : (commitTimed c r s (committedInto c r (s.mirCls c) v)).cyc = (committedInto c r (s.mirCls c) v).cyc := kt.same .cyc (by decide)
  have hmir : (commitTimed c r s (committedInto c r (s.mirCls c) v)).mir = (committedInto c r (s.mirCls c) v).mir := kt.same .mir (by decide)
  have hmem : ∀ d, (commitTimed c r s (committedInto c r (s.mirCls c) v)).cmem d = (committedInto c r (s.mirCls c) v).cmem d :=
    fun d => by rw [State.cmem, hcyc]; rfl
  obtain ⟨w, hw⟩ := commitTimed_link (c := c) (r := r) (s := s) (t := committedInto c r (s.mirCls c) v)
  refine ⟨v, hk, hn, (hmem c).trans committedInto_cmem, fun d hd => (hmem d).trans (committedInto_cmem_ne hd), fun d => ?_, ?_, fun d hd => ?_,
    ⟨w, ?_⟩, ?_⟩
  · rw [State.cls, hcyc]
    rfl
  · rw [State.mirCls, hmir]
    exact (mirCls_updMir c _).trans (congrArg (emptied r (s.mirCls c)) (hcls c))
  · rw [State.mirCls, hmir]
    exact (mirCls_updMir_ne _ hd).trans (hcls d)
  · have hd2 : (committedInto c r (s.mirCls c) v).dpx2 = s.dpx2 := kv.same .dpx2 (by decide)
    rw [hw, hd2]
  · exact OnlyChanges.trans (OnlyChanges.trans (OnlyChanges.mono kv (within rfl)) (OnlyChanges.mono committedInto_frame (within rfl)))
      (OnlyChanges.mono kt (within rfl))

/-- The record ends a commit of class `c` that is whole, of a program that the standby holds (Table 9.17). -/
structure EndsCommit (c : Nat) (r : BRec) (s : State) : Prop where
  receives : s.receives = true
  version : s.holdsVersion r.progVer = true
  change : s.chg.state ≠ 3
  alone : s.pairAct = false
  names : fieldN r.payload 0 1 % 8 = c
  closes : (s.mirCls c).closes r.payload = true

/-- A commit taken over and acknowledged. -/
def commitTaken (c : Nat) (r : BRec) (s : State) : State := (s.takeCommit c r).ackRec r 0

theorem takeCommit_frame : OnlyChanges [.cyc, .dpx2, .mir] s (s.takeCommit c r) := takeCommit_only (within rfl) OnlyChanges.refl

theorem commitTaken_frame : OnlyChanges [.cyc, .mir, .dpx2, .outbox] s (commitTaken c r s) :=
  OnlyChanges.trans (OnlyChanges.mono takeCommit_frame (within rfl)) (OnlyChanges.mono ackRec_frame (within rfl))

theorem takeCommitEnd_whole (h : EndsCommit c r s) : s.takeCommitEnd r =
    if decide ((commitTaken c r s).sys.mode = .takeover) && decide ((commitTaken c r s).dpx2.takeFrom = 0) && decide (s.fastest = some c)
    then (commitTaken c r s).handedOver else commitTaken c r s := by
  have hl : (s.takeCommit c r).changeLapsed r.progVer c (BitVec.ofNat 64 (fieldN r.payload 8 8)) = s.takeCommit c r := by
    refine changeLapsed_none ?_
    rw [takeCommit_frame.same .chg (by decide)]
    exact h.change
  unfold State.takeCommitEnd
  simp only [h.receives, h.version, h.names, h.closes, Bool.not_true, Bool.false_eq_true, if_false, hl]
  rfl

theorem takeCommitEnd_broken (hr : s.receives = true) (hv : s.holdsVersion r.progVer = true) (hc : fieldN r.payload 0 1 % 8 = c)
    (hb : (s.mirCls c).closes r.payload = false) : s.takeCommitEnd r = (s.updMir c MirCls.clearIn).ackRec r 1 := by
  unfold State.takeCommitEnd
  simp only [hr, hv, hc, hb, Bool.not_true, Bool.not_false, Bool.false_eq_true, if_false, if_true]

/-- COMMIT_END as it is used: of type 5. -/
def asEnd (r : BRec) : BRec := { r with type := 5 }

theorem useRec_commitEnd (hc : s.chg.state ≠ 3 ∨ r.progVer = s.chg.actVer) : (met r s).useRec (asEnd r) = (met r s).takeCommitEnd (asEnd r) :=
  congrArg (State.takeCommitEnd (asEnd r)) (meetVersion_same (s := met r s) hc)

theorem endsCommit_met (h : EndsCommit c r s) : EndsCommit c (asEnd r) (met r s) :=
  ⟨h.receives, h.version, h.change, h.alone, h.names, h.closes⟩

theorem commit_taken (h : InTurn r s) (e : EndsCommit c r s) (hw : (s.mirCls c).wr = []) (hm : s.sys.mode ≠ .takeover) :
    ∃ t, exec (.commitEnd r) s = .next t ∧
    (t.cmem c).image = overlay (if replaces r (s.mirCls c) then [] else (s.cmem c).image) (s.mirCls c).inactive ∧
    (t.cmem c).data = overlay (if replaces r (s.mirCls c) then [] else (s.cmem c).data) (s.mirCls c).inData ∧
    (t.cmem c).globPub = overlay (if replaces r (s.mirCls c) then [] else (s.cmem c).globPub) (s.mirCls c).inGlob ∧
    (t.mirCls c).inactive = [] ∧ (t.mirCls c).cyc = cycleOf r ∧
    (∀ d, d ≠ c → t.cmem d = s.cmem d ∧ t.mirCls d = s.mirCls d) ∧ (∀ d, t.cls d = s.cls d) ∧
    (∃ a : BRec, Out.baste a ∈ t.outbox ∧ a.type = 2 ∧ fieldN a.payload 9 1 = 0) ∧ OnlyChanges [.cyc, .mir, .dpx2, .outbox] s t := by
  have hp : (met r s).cfg.partner = true := partner_of_lanes h.lanes
  obtain ⟨v, k⟩ := takeCommit_takes (c := c) (r := asEnd r) (s := met r s) e.alone
  have hv : v = met r s := k.none hw
  have hpt : ((met r s).takeCommit c (asEnd r)).cfg.partner = true := by rw [k.frame.same .cfg (by decide)]; exact hp
  have ka : OnlyChanges [.dpx2, .outbox] ((met r s).takeCommit c (asEnd r)) (commitTaken c (asEnd r) (met r s)) := ackRec_frame
  have kt : OnlyChanges [.cyc, .mir, .dpx2, .outbox] s (commitTaken c (asEnd r) (met r s)) :=
    OnlyChanges.trans (OnlyChanges.mono met_frame (within rfl)) commitTaken_frame
  have hu : (met r s).useRec (asEnd r) = commitTaken c (asEnd r) (met r s) := by
    rw [useRec_commitEnd (.inl e.change), takeCommitEnd_whole (endsCommit_met e)]
    refine if_neg ?_
    rw [kt.same .sys (by decide), decide_eq_false hm, Bool.false_and, Bool.false_and]
    exact Bool.false_ne_true
  have hwait : (commitTaken c (asEnd r) (met r s)).dpx2.waitRec = [] := by
    obtain ⟨w, hl⟩ := k.link
    rw [commitTaken, ackRec_dpx2 hpt, hl]
    exact h.alone
  have hmem : ∀ d, (commitTaken c (asEnd r) (met r s)).cmem d = ((met r s).takeCommit c (asEnd r)).cmem d := fun d => by
    rw [State.cmem, ka.same .cyc (by decide)]; rfl
  have hmir : ∀ d, (commitTaken c (asEnd r) (met r s)).mirCls d = ((met r s).takeCommit c (asEnd r)).mirCls d := fun d => by
    rw [State.mirCls, ka.same .mir (by decide)]; rfl
  have hc : (commitTaken c (asEnd r) (met r s)).cmem c = commitInto r (s.mirCls c) (s.cmem c) := by
    rw [hmem, k.mem, hv]
    rfl
  refine ⟨_, (recIn_inTurn h (by decide) (by decide) hu hwait).trans (done_of_frame h.settled kt (within rfl)), ?_, ?_, ?_, ?_, ?_,
    fun d hd => ⟨?_, ?_⟩, fun d => ?_, ⟨ackOf (asEnd r) 0 _, ackRec_sent hpt 0, rfl, ackOf_result 0 (by decide)⟩, kt⟩
  · rw [hc]
    exact commitInto_image ..
  · rw [hc]
    rfl
  · rw [hc]
    rfl
  · rw [hmir, k.mir]
    rfl
  · rw [hmir, k.mir]
    rfl
  · rw [hmem, k.mems d hd, hv]
    rfl
  · rw [hmir, k.mirs d hd]
    rfl
  · have hcls : (commitTaken c (asEnd r) (met r s)).cls d = ((met r s).takeCommit c (asEnd r)).cls d := by
      rw [State.cls, ka.same .cyc (by decide)]; rfl
    rw [hcls, k.cls, hv]
    rfl

theorem commit_broken (h : InTurn r s) (hr : s.receives = true) (hv : s.holdsVersion r.progVer = true)
    (h3 : s.chg.state ≠ 3 ∨ r.progVer = s.chg.actVer) (hc : fieldN r.payload 0 1 % 8 = c) (hb : (s.mirCls c).closes r.payload = false) :
    ∃ t, exec (.commitEnd r) s = .next t ∧
    (t.mirCls c).inactive = [] ∧ (t.mirCls c).lines = 0 ∧ (∀ d, d ≠ c → t.mirCls d = s.mirCls d) ∧
    (∃ a : BRec, Out.baste a ∈ t.outbox ∧ a.type = 2 ∧ fieldN a.payload 9 1 = 1) ∧ OnlyChanges [.mir, .dpx2, .outbox] s t := by
  obtain ⟨v, hv'⟩ : ∃ v, v = (met r s).updMir c MirCls.clearIn := ⟨_, rfl⟩
  have hp : v.cfg.partner = true := hv' ▸ partner_of_lanes h.lanes
  have hw : v.dpx2.waitRec = [] := hv' ▸ h.alone
  have kv : OnlyChanges [.mir, .dpx2] s v :=
    hv' ▸ OnlyChanges.trans (OnlyChanges.mono met_frame (within rfl)) (OnlyChanges.mono (updMir_frame _) (within rfl))
  have ka : OnlyChanges [.dpx2, .outbox] v (v.ackRec (asEnd r) 1) := ackRec_frame
  have hu : (met r s).useRec (asEnd r) = v.ackRec (asEnd r) 1 :=
    hv' ▸ (useRec_commitEnd h3).trans (takeCommitEnd_broken (r := asEnd r) (s := met r s) hr hv hc hb)
  have k : OnlyChanges [.mir, .dpx2, .outbox] s (v.ackRec (asEnd r) 1) :=
    OnlyChanges.trans (OnlyChanges.mono kv (within rfl)) (OnlyChanges.mono ka (within rfl))
  have hmir : ∀ d, (v.ackRec (asEnd r) 1).mirCls d = ((met r s).updMir c MirCls.clearIn).mirCls d := fun d => by
    rw [State.mirCls, ka.same .mir (by decide), hv']; rfl
  refine ⟨v.ackRec (asEnd r) 1, (recIn_inTurn h (by decide) (by decide) hu ?_).trans (done_of_frame h.settled k (within rfl)), ?_, ?_,
    fun d hd => ?_, ⟨ackOf (asEnd r) 1 v, ackRec_sent hp 1, rfl, ackOf_result 1 (by decide)⟩, k⟩
  · rw [ackRec_dpx2 hp]
    exact hw
  · rw [hmir, mirCls_updMir]
    rfl
  · rw [hmir, mirCls_updMir]
    rfl
  · rw [hmir, mirCls_updMir_ne _ hd]
    rfl

/-! The old primary of an exchange (R265). -/

/-- No exchange waits for its boundary, and no fetch is held. -/
def unbound (s : State) : State := { s with dpx := { s.dpx with handover := false }, hif := { s.hif with hold := false } }

theorem unbound_frame : OnlyChanges [.dpx, .hif] s (unbound s) :=
  ⟨fun p hp => by cases p with
    | dpx | hif => exact absurd (by decide) hp
    | _ => rfl⟩

/-- The old primary is standby in RUN. -/
def backAsStandby (s : State) : State := unbound ((s.setMode .run 6).asStandby.proofOpen)

/-- No command waits for an exchange. -/
def unslotted (s : State) : State := { s with dpx2 := { s.dpx2 with xslot := 31 } }

theorem unslotted_boot : (unslotted s).boot = s.boot := rfl

theorem setMode_boot {m : Mode} {cause : Nat} : (s.setMode m cause).boot = s.boot :=
  (setMode_only (within rfl) OnlyChanges.refl : OnlyChanges [.sys, .hif, .cyc, .saf, .tly, .mm, .outbox] s _).same .boot (by decide)

theorem backAsStandby_boot : (backAsStandby s).boot = s.boot :=
  ((proofOpen_only (within rfl) OnlyChanges.refl : OnlyChanges [.dpx2] (s.setMode .run 6).asStandby _).same .boot (by decide)).trans setMode_boot

/-- The command that asked for the exchange, if any, completes. -/
def exchangeDone (s : State) : State := s.finishWaiting s.dpx2.xslot St.ok [] s.dpx.eSeen s.dpx2.hBound

theorem exchangeDone_frame : OnlyChanges [.hif, .tly, .outbox] s (exchangeDone s) := finishWaiting_only (within rfl) OnlyChanges.refl

/-- The output pause of a pair's switch is that of the exchange (spec/17_firmware_and_configuration.md R455). -/
def exchangePaused (s : State) : State :=
  if s.pairAct && decide (s.boot.act.step = 4) then s.updAct fun a => { a with pauseUs := BitVec.ofNat 32 s.cfUs } else s

/-- A pair's switch that hands back restarts the module (spec/17_firmware_and_configuration.md R455). -/
def exchangeEnded (s : State) : State :=
  if s.pairAct && s.boot.act.done && decide (s.boot.act.step = 5) && decide (s.boot.act.state = 0) then s.restartPrevious else s

theorem exchangePaused_alone (h : s.pairAct = false) : exchangePaused s = s :=
  if_neg (by rw [h, Bool.false_and]; exact Bool.false_ne_true)

theorem exchangeEnded_alone (h : s.pairAct = false) : exchangeEnded s = s :=
  if_neg (by rw [h, Bool.false_and, Bool.false_and, Bool.false_and]; exact Bool.false_ne_true)

theorem exchangeDone_holdStays : HoldStays s (exchangeDone s) := finishWaiting_holdStays .refl

theorem handedOver_steps : s.handedOver = exchangeEnded (unslotted (exchangeDone (exchangePaused (backAsStandby s)))) := by
  delta State.handedOver exchangeEnded unslotted exchangeDone exchangePaused backAsStandby unbound
  rfl

theorem pairAct_congr (h : t.boot = s.boot) : t.pairAct = s.pairAct := by
  rw [State.pairAct, h]
  rfl

theorem handedOver_eq (hp : s.pairAct = false) : s.handedOver = unslotted (exchangeDone (backAsStandby s)) := by
  have he : (exchangeDone (backAsStandby s)).boot = (backAsStandby s).boot := exchangeDone_frame.same .boot (by decide)
  have hb : (unslotted (exchangeDone (backAsStandby s))).boot = s.boot := by rw [unslotted_boot, he, backAsStandby_boot]
  rw [handedOver_steps, exchangePaused_alone ((pairAct_congr backAsStandby_boot).trans hp), exchangeEnded_alone ((pairAct_congr hb).trans hp)]

/-- A module that has handed the role over: standby in RUN, with no exchange and no hold left. -/
structure HandedOver (s t : State) : Prop where
  mode : t.sys.mode = .run
  standby : t.sys.primary = false
  boundary : t.dpx.handover = false
  hold : t.hif.hold = false
  waits : t.dpx2.waitRec = s.dpx2.waitRec
  mem : ∀ d, published (t.cmem d) = published (s.cmem d)
  frame : OnlyChanges [.sys, .hif, .cyc, .dpx, .dpx2, .tly, .outbox] s t

theorem proofOpen_waitRec : s.proofOpen.dpx2.waitRec = s.dpx2.waitRec := by
  unfold State.proofOpen
  dsimp only
  split
  · rfl
  · rfl

theorem backAsStandby_handed (hm : s.sys.mode = .takeover) : HandedOver s (backAsStandby s) := by
  have km : OnlyChanges [.sys, .hif, .cyc, .tly, .outbox] s (s.setMode .run 6) :=
    setMode_frame (by rw [hm]; decide) (by rw [hm]; decide)
  have kp : OnlyChanges [.dpx2] (s.setMode .run 6).asStandby (s.setMode .run 6).asStandby.proofOpen := proofOpen_only (within rfl) OnlyChanges.refl
  have hsys : (s.setMode .run 6).asStandby.proofOpen.sys = (s.setMode .run 6).asStandby.sys := kp.same .sys (by decide)
  have hcyc : (s.setMode .run 6).asStandby.proofOpen.cyc = (s.setMode .run 6).cyc := kp.same .cyc (by decide)
  refine ⟨?_, ?_, rfl, rfl, ?_, fun d => ?_, ?_⟩
  · exact (congrArg Sys.mode hsys).trans (setMode_mode .run 6)
  · exact congrArg Sys.primary hsys
  · exact proofOpen_waitRec.trans (congrArg Dpx2.waitRec (km.same .dpx2 (by decide)))
  · refine Eq.trans (congrArg published ?_) ((setMode_keeps (m := .run) (cause := 6) Keeps.refl).mem d)
    exact congrArg (fun x : Cyc => x.mem.look d {}) hcyc
  · exact OnlyChanges.trans (OnlyChanges.mono km (within rfl)) (OnlyChanges.trans (asStandby_only (within rfl) OnlyChanges.refl)
      (OnlyChanges.trans (OnlyChanges.mono kp (within rfl)) (OnlyChanges.mono unbound_frame (within rfl))))

theorem handedOver_handed (hm : s.sys.mode = .takeover) (hp : s.pairAct = false) : HandedOver s s.handedOver := by
  have h : HandedOver s (backAsStandby s) := backAsStandby_handed hm
  have ke : OnlyChanges [.hif, .tly, .outbox] (backAsStandby s) (exchangeDone (backAsStandby s)) := exchangeDone_frame
  have hh : HoldStays (backAsStandby s) (exchangeDone (backAsStandby s)) := exchangeDone_holdStays
  rw [handedOver_eq hp]
  generalize exchangeDone (backAsStandby s) = v at ke hh
  refine ⟨?_, ?_, ?_, hh.hold.trans h.hold, ?_, fun d => ?_, ?_⟩
  · exact (congrArg Sys.mode (ke.same .sys (by decide))).trans h.mode
  · exact (congrArg Sys.primary (ke.same .sys (by decide))).trans h.standby
  · exact (congrArg Dpx.handover (ke.same .dpx (by decide))).trans h.boundary
  · exact (congrArg Dpx2.waitRec (ke.same .dpx2 (by decide))).trans h.waits
  · refine Eq.trans (congrArg published ?_) (h.mem d)
    exact congrArg (fun x : Cyc => x.mem.look d {}) (ke.same .cyc (by decide))
  · exact OnlyChanges.trans h.frame (OnlyChanges.trans (OnlyChanges.mono ke (within rfl)) (OnlyChanges.mono (dpx2_frame _) (within rfl)))

theorem commit_hands_over (h : InTurn r s) (e : EndsCommit c r s) (hf : s.fastest = some c) (hm : s.sys.mode = .takeover)
    (h0 : s.dpx2.takeFrom = 0) : ∃ t, exec (.commitEnd r) s = .next t ∧ t.sys.mode = .run ∧ t.sys.primary = false ∧
    t.dpx.handover = false ∧ t.hif.hold = false ∧
    (t.cmem c).image = overlay (if replaces r (s.mirCls c) then [] else (s.cmem c).image) (s.mirCls c).inactive ∧
    OnlyChanges [.sys, .hif, .cyc, .dpx, .dpx2, .mir, .can, .canq, .fio, .tly, .outbox] s t := by
  obtain ⟨v, k⟩ := takeCommit_takes (c := c) (r := asEnd r) (s := met r s) e.alone
  obtain ⟨w, hl⟩ := k.link
  have hpt : ((met r s).takeCommit c (asEnd r)).cfg.partner = true := by rw [k.frame.same .cfg (by decide)]; exact partner_of_lanes h.lanes
  have ka : OnlyChanges [.dpx2, .outbox] ((met r s).takeCommit c (asEnd r)) (commitTaken c (asEnd r) (met r s)) := ackRec_frame
  have kt : OnlyChanges [.cyc, .mir, .dpx2, .outbox] s (commitTaken c (asEnd r) (met r s)) :=
    OnlyChanges.trans (OnlyChanges.mono met_frame (within rfl)) commitTaken_frame
  have hd2 : (commitTaken c (asEnd r) (met r s)).dpx2 = { (met r s).dpx2 with
      lastCommitT := w, rseqTx := ((met r s).takeCommit c (asEnd r)).dpx2.rseqTx + 1 } := by
    rw [commitTaken, ackRec_dpx2 hpt, hl]
  have hsys : (commitTaken c (asEnd r) (met r s)).sys.mode = .takeover := by rw [kt.same .sys (by decide)]; exact hm
  have hu : (met r s).useRec (asEnd r) = (commitTaken c (asEnd r) (met r s)).handedOver := by
    rw [useRec_commitEnd (.inl e.change), takeCommitEnd_whole (endsCommit_met e)]
    refine if_pos ?_
    have ht : (commitTaken c (asEnd r) (met r s)).dpx2.takeFrom = 0 := by rw [hd2]; exact h0
    have hfast : (met r s).fastest = some c := hf
    rw [decide_eq_true hsys, decide_eq_true ht, decide_eq_true hfast]
    rfl
  have hh : HandedOver _ (commitTaken c (asEnd r) (met r s)).handedOver :=
    handedOver_handed hsys ((pairAct_congr (kt.same .boot (by decide))).trans e.alone)
  have him : ((commitTaken c (asEnd r) (met r s)).cmem c).image =
      overlay (if replaces r (s.mirCls c) then [] else (s.cmem c).image) (s.mirCls c).inactive := by
    have hc : (commitTaken c (asEnd r) (met r s)).cmem c = commitInto (asEnd r) ((met r s).mirCls c) (v.cmem c) := by
      rw [State.cmem, ka.same .cyc (by decide)]; exact k.mem
    rw [hc, commitInto_image, image_congr (k.writes.mem c)]
    rfl
  have hwait : (commitTaken c (asEnd r) (met r s)).handedOver.dpx2.waitRec = [] := by
    rw [hh.waits, hd2]
    exact h.alone
  have ks : OnlyChanges settling (commitTaken c (asEnd r) (met r s)).handedOver (settleState s (commitTaken c (asEnd r) (met r s)).handedOver) :=
    settleState_frame
  refine ⟨_, recIn_inTurn h (by decide) (by decide) hu hwait, ?_, ?_, ?_, ?_, ?_, ?_⟩
  · rw [settleState_sys]
    exact hh.mode
  · rw [settleState_sys]
    exact hh.standby
  · rw [ks.same .dpx (by decide)]
    exact hh.boundary
  · exact settleState_holdStays.hold.trans hh.hold
  · rw [settleState_cmem, image_congr (hh.mem c)]
    exact him
  · exact OnlyChanges.trans (OnlyChanges.mono kt (within rfl)) (OnlyChanges.trans (OnlyChanges.mono hh.frame (within rfl)) (OnlyChanges.mono ks (within rfl)))

/-! Loop state (spec/07_loop_engines.md R204). -/

/-- A record that holds the state of one loop. -/
theorem takeLoopEntries_one {b : List Byte} (hl : s.loopSet (fieldN b 0 2) = true) (hb : b.length = 32 + 4 * fieldN b 2 1) :
    State.takeLoopEntries b b.length 0 s = s.updLoop (fieldN b 0 2) fun l => l.mirrored b 0 := by
  obtain ⟨k, hk⟩ : ∃ k, b.length = k + 2 := ⟨b.length - 2, by omega⟩
  have h0 : ¬ b.length < 0 + 32 := by omega
  have h1 : b.length < 0 + 32 + 4 * fieldN b 2 1 + 32 := by omega
  rw [hk, State.takeLoopEntries, if_neg h0, if_pos hl, State.takeLoopEntries]
  exact if_pos h1

theorem updLoop_frame (f : Loop → Loop) : OnlyChanges [.cle] s (s.updLoop n f) := updLoop_only (within rfl) OnlyChanges.refl

theorem mirrored_out (l : Loop) (b : List Byte) : (l.mirrored b 0).out = BitVec.ofNat 32 (fieldN b 8 4) := rfl

theorem mirrored_run (l : Loop) (b : List Byte) : (l.mirrored b 0).run = l.run := rfl

theorem takeLoopState_one (hr : s.receives = true) (hv : s.holdsVersion r.progVer = true) (hl : s.loopSet (fieldN r.payload 0 2) = true)
    (hb : r.payload.length = 32 + 4 * fieldN r.payload 2 1) :
    s.takeLoopState r = s.updLoop (fieldN r.payload 0 2) fun l => l.mirrored r.payload 0 := by
  unfold State.takeLoopState
  rw [hr, hv]
  exact takeLoopEntries_one hl hb

theorem loop_mirrored (h : InTurn r s) (hr : s.receives = true) (hv : s.holdsVersion r.progVer = true) (hn : fieldN r.payload 0 2 = n)
    (hl : s.loopSet n = true) (hb : r.payload.length = 32 + 4 * fieldN r.payload 2 1) : ∃ t, exec (.loopState r) s = .next t ∧
    t.loop n = (s.loop n).mirrored r.payload 0 ∧ (t.loop n).out = BitVec.ofNat 32 (fieldN r.payload 8 4) ∧
    (t.loop n).run = (s.loop n).run ∧ (∀ m, m ≠ n → t.loop m = s.loop m) ∧ OnlyChanges [.cle, .dpx2] s t := by
  subst hn
  have hu : (met r s).useRec { r with type := 6 } = (met r s).updLoop (fieldN r.payload 0 2) fun l => l.mirrored r.payload 0 :=
    takeLoopState_one (r := { r with type := 6 }) (s := met r s) hr hv hl hb
  have k : OnlyChanges [.cle, .dpx2] s ((met r s).updLoop (fieldN r.payload 0 2) fun l => l.mirrored r.payload 0) :=
    OnlyChanges.trans (OnlyChanges.mono met_frame (within rfl)) (OnlyChanges.mono (updLoop_frame _) (within rfl))
  refine ⟨_, (recIn_inTurn h (by decide) (by decide) hu h.alone).trans (done_of_frame h.settled k (within rfl)), ?_, ?_, ?_, fun m hm => ?_, k⟩
  · exact loop_updLoop ..
  · rw [loop_updLoop, mirrored_out]
  · rw [loop_updLoop, mirrored_run]
    rfl
  · exact loop_updLoop_ne _ hm

/-- The operator values and the press count that LOOP_GROUP carries. -/
def Loop.grouped (b : List Byte) (l : Loop) : Loop :=
  { l with
    op := { l.op with safe := BitVec.ofNat 32 (fieldN b 4 4), sattime := BitVec.ofNat 32 (fieldN b 8 4)
                      frztime := BitVec.ofNat 32 (fieldN b 12 4), action := BitVec.ofNat 32 (fieldN b 16 4) }
    presses := BitVec.ofNat 32 (fieldN b 20 4) }

theorem takeLoopGroup_one (hr : s.receives = true) (hv : s.holdsVersion r.progVer = true) (hl : s.loopSet (fieldN r.payload 0 2) = true) :
    s.takeLoopGroup r = s.updLoop (fieldN r.payload 0 2) (Loop.grouped r.payload) := by
  unfold State.takeLoopGroup
  rw [hr, hv]
  exact if_pos hl

theorem group_mirrored (h : InTurn r s) (hr : s.receives = true) (hv : s.holdsVersion r.progVer = true) (hn : fieldN r.payload 0 2 = n)
    (hl : s.loopSet n = true) : ∃ t, exec (.loopGroup r) s = .next t ∧ t.loop n = Loop.grouped r.payload (s.loop n) ∧
    (∀ m, m ≠ n → t.loop m = s.loop m) ∧ OnlyChanges [.cle, .dpx2] s t := by
  subst hn
  have hu : (met r s).useRec { r with type := 7 } = (met r s).updLoop (fieldN r.payload 0 2) (Loop.grouped r.payload) :=
    takeLoopGroup_one (r := { r with type := 7 }) (s := met r s) hr hv hl
  have k : OnlyChanges [.cle, .dpx2] s ((met r s).updLoop (fieldN r.payload 0 2) (Loop.grouped r.payload)) :=
    OnlyChanges.trans (OnlyChanges.mono met_frame (within rfl)) (OnlyChanges.mono (updLoop_frame _) (within rfl))
  exact ⟨_, (recIn_inTurn h (by decide) (by decide) hu h.alone).trans (done_of_frame h.settled k (within rfl)), loop_updLoop ..,
    fun m hm => loop_updLoop_ne _ hm, k⟩

theorem takeLoop_unknown (hr : s.receives = true) (hv : s.holdsVersion r.progVer = false) (ha : s.awaitsVersion r.progVer = false) :
    s.takeLoopState r = s.endInsync 4 ∧ s.takeLoopGroup r = s.endInsync 4 := by
  unfold State.takeLoopState State.takeLoopGroup
  rw [hr, hv, ha]
  exact ⟨rfl, rfl⟩

theorem version_unknown {i : Instr} (hi : i = .loopState r ∨ i = .loopGroup r) (h : InTurn r s) (hr : s.receives = true)
    (hv : s.holdsVersion r.progVer = false) (ha : s.awaitsVersion r.progVer = false) :
    ∃ t, exec i s = .next t ∧ t.dpx.state ≠ .insync ∧ t.cle = s.cle ∧ OnlyChanges [.sys, .hif, .dpx, .dpx2, .tly, .outbox] s t := by
  have hp : s.sys.primary = false := primary_of_receives (running_of_lanes h.lanes) hr
  have ke : OnlyChanges [.hif, .dpx, .dpx2, .tly] (met r s) ((met r s).endInsync 4) :=
    endInsync_frame (by rw [show (met r s).sys.primary = false from hp, Bool.and_false]) 4
  have k : OnlyChanges [.hif, .dpx, .dpx2, .tly] s ((met r s).endInsync 4) :=
    OnlyChanges.trans (OnlyChanges.mono met_frame (within rfl)) ke
  have hw : ((met r s).endInsync 4).dpx2.waitRec = [] := (endInsync_waitRec 4).trans h.alone
  have hx : exec i s = done s ((met r s).endInsync 4) := by
    rcases hi with rfl | rfl
    · exact recIn_inTurn (k := 6) h (by decide) (by decide) (takeLoop_unknown (r := { r with type := 6 }) (s := met r s) hr hv ha).1 hw
    · exact recIn_inTurn (k := 7) h (by decide) (by decide) (takeLoop_unknown (r := { r with type := 7 }) (s := met r s) hr hv ha).2 hw
  obtain ⟨t, ht, hf, -, ho, -⟩ := done_of (qs := [.sys, .hif, .dpx, .dpx2, .tly, .outbox]) h.settled k (within rfl) (within rfl)
  refine ⟨t, hx.trans ht, ?_, hf.same .cle (by decide), hf⟩
  rw [ho.same .dpx (by decide)]
  exact endInsync_state 4

/-- Settles O35: what a commit record, an end mark and a loop record make of the standby's copies. -/
theorem commitsReachTheStandby : Obligations.CommitsReachTheStandby := by
  refine ⟨fun s r h hr hv hc => lines_collected h hr hv hc, fun s r c h hr hv h3 hp hw hm hc hcl => ?_,
    fun s r c h hr hv h3 hc hb => commit_broken h hr hv h3 hc hb, fun s r c h hr hv h3 hp hf hm h0 hlo hc hcl => ?_,
    fun s r n h hr hv hn hl hb => loop_mirrored h hr hv hn hl hb, fun s r n h hr hv hn hl => ?_,
    fun s r i hi h hr hs hv ha => version_unknown hi h hr hv ha⟩
  · exact commit_taken h ⟨hr, hv, h3, hp, hc, hcl⟩ hw hm
  · exact commit_hands_over h ⟨hr, hv, h3, hp, hc, hcl⟩ hf hm h0
  · obtain ⟨t, ht, hloop, hrest, k⟩ := group_mirrored h hr hv hn hl
    exact ⟨t, ht, by rw [hloop]; rfl, by rw [hloop]; rfl, by rw [hloop]; rfl, hrest, k⟩

end Sys2Proof.Proofs
end

section
/-! What the operations of the pair do to the records, the epoch and the classes: a Tally record does not depend on the link's own
counters, a new epoch is above every one seen, and the classes of a new primary run (spec/09_duplex_pair.md R254, R258). -/

namespace Sys2Proof.Proofs

open Sys2Proof.Machine Sys2Proof.Safety Sys2Proof.Laws

variable {s t u : State} {k c : Nat}

/-! Tally records and the link (spec/15_tally_recorder.md R406). -/

/-- `s` with the link's lanes and counters as `d` and `e` say. -/
def relinked (d : Dpx) (e : Dpx2) (s : State) : State := { s with dpx := d, dpx2 := e }

theorem intoQueue_relinked (d : Dpx) (e : Dpx2) (r : TRec) : State.intoQueue r (relinked d e s) = relinked d e (s.intoQueue r) := by
  unfold State.intoQueue relinked
  dsimp only
  split <;> rfl

theorem recHead_relinked {d : Dpx} (e : Dpx2) (hd : d.state = s.dpx.state) (code : Nat) : (relinked d e s).recHead code = s.recHead code := by
  have hi : (relinked d e s).insync = s.insync := by
    rw [State.insync, show (relinked d e s).dpx.state = s.dpx.state from hd]
    rfl
  have hm : (relinked d e s).sysMode = s.sysMode := by
    rw [State.sysMode, hi]
    rfl
  rw [State.recHead, hm]
  rfl

theorem enqueue_relinked {d : Dpx} (e : Dpx2) (hd : d.state = s.dpx.state) (r : TRec) :
    State.enqueue r (relinked d e s) = relinked d e (s.enqueue r) := by
  unfold State.enqueue
  split
  · exact intoQueue_relinked ..
  · unfold State.refuseRec
    rw [recHead_relinked e hd]
    exact intoQueue_relinked (s := { s with tly := { s.tly with drop := s.tly.drop + 1 } }) ..

/-- A record says of the link its synchronisation state only. -/
theorem log_relinked {d : Dpx} (e : Dpx2) (hd : d.state = s.dpx.state) (code sev : Nat) (b : List Byte) :
    (relinked d e s).log code sev b = relinked d e (s.log code sev b) := by
  have hm : (relinked d e s).sevMin = s.sevMin := rfl
  unfold State.log
  rw [hm, recHead_relinked e hd]
  by_cases h : sev < s.sevMin
  · rw [if_pos h, if_pos h]
  · rw [if_neg h, if_neg h]
    exact enqueue_relinked e hd _

/-! A new epoch (R258). -/

theorem low_bit_succ (w : Word) : (w + 1).getLsbD 0 = !w.getLsbD 0 := by
  have hw := w.isLt
  have h1 : (w + 1).toNat = (w.toNat + 1) % 2 ^ 32 := by simp [BitVec.toNat_add]
  rw [BitVec.getLsbD, BitVec.getLsbD, Nat.testBit_zero, Nat.testBit_zero, h1]
  by_cases h : w.toNat % 2 = 1
  · have : (w.toNat + 1) % 2 ^ 32 % 2 = 0 := by omega
    rw [this, h]
    rfl
  · have : (w.toNat + 1) % 2 ^ 32 % 2 = 1 := by omega
    rw [this, decide_eq_false h]
    rfl

/-- The smallest epoch above `w` whose bit 0 is the side. -/
def nextEpoch (w : Word) (side : Bool) : Word := if (w + 1).getLsbD 0 = side then w + 1 else w + 1 + 1

theorem nextEpoch_bit (w : Word) (side : Bool) : (nextEpoch w side).getLsbD 0 = side := by
  unfold nextEpoch
  split
  · assumption
  · rename_i h
    rw [low_bit_succ]
    revert h
    cases (w + 1).getLsbD 0 <;> cases side <;> simp

theorem lt_nextEpoch {w : Word} (side : Bool) (h : w.toNat + 2 < 2 ^ 32) : w < nextEpoch w side := by
  unfold nextEpoch
  split <;> bv_omega

/-- The link of a module that has taken an epoch. -/
theorem takeEpoch_dpx (hv : s.cfg.valid = true) :
    s.takeEpoch.dpx = { s.clearBeacons.dpx with eOwn := nextEpoch s.dpx.eSeen s.side, eSeen := nextEpoch s.dpx.eSeen s.side } := by
  have hc : s.clearBeacons.cfg.valid = true := hv
  unfold State.takeEpoch
  dsimp only
  rw [if_pos hc]
  rfl

/-- From `s` to `t` the module has taken an epoch above every one seen, of its side. -/
structure NewEpoch (s t : State) : Prop where
  above : s.dpx.eSeen < t.dpx.eOwn
  side : t.dpx.eOwn.getLsbD 0 = s.side

theorem takeEpoch_new (hv : s.cfg.valid = true) (h : s.dpx.eSeen.toNat + 2 < 2 ^ 32) : NewEpoch s s.takeEpoch :=
  ⟨by rw [takeEpoch_dpx hv]; exact lt_nextEpoch _ h, by rw [takeEpoch_dpx hv]; exact nextEpoch_bit ..⟩

/-- The epoch is new to a module that has changed neither its link nor its side since `s`. -/
theorem takeEpoch_after {ps : List Part} (k : OnlyChanges ps s t) (w : Within ps [.sys, .hif, .cyc, .chg, .dpx2, .tim, .tly, .boot, .outbox])
    (hv : s.cfg.valid = true) (h : s.dpx.eSeen.toNat + 2 < 2 ^ 32) : NewEpoch s t.takeEpoch := by
  have k : OnlyChanges [.sys, .hif, .cyc, .chg, .dpx2, .tim, .tly, .boot, .outbox] s t := OnlyChanges.mono k w
  have hd : t.dpx = s.dpx := k.same .dpx (by decide)
  have hside : t.side = s.side := by rw [State.side, reg_congr (k.same .regs (by decide))]; rfl
  obtain ⟨ha, hb⟩ := takeEpoch_new (s := t) (by rw [k.same .cfg (by decide)]; exact hv) (by rw [hd]; exact h)
  exact ⟨hd ▸ ha, hb.trans hside⟩

theorem takeEpoch_state : s.takeEpoch.dpx.state = s.dpx.state := by
  unfold State.takeEpoch
  dsimp only
  split
  · rfl
  · rfl

/-! The classes of a module that takes the role (spec/05_cyclic_execution.md Table 5.3). -/

/-- An update of the enabled classes of a configuration reaches each of them. -/
theorem look_foldl_upd {α : Type} {d : α} {f : α → α} {p : α → Prop} (hf : ∀ x, p (f x)) {l : List (Nat × ClsCfg)} {k : Tab α}
    (h : p (k.look c d) ∨ ∃ e ∈ l, e.1 = c ∧ e.2.en = true) :
    p ((l.foldl (fun (k : Tab α) (e : Nat × ClsCfg) => if e.2.en then k.upd e.1 d f else k) k).look c d) := by
  induction l generalizing k with
  | nil => exact h.resolve_right fun ⟨_, he, _⟩ => absurd he List.not_mem_nil
  | cons e l ih =>
    refine ih ?_
    rcases h with h | ⟨x, hx, hc, hen⟩
    · left
      dsimp only
      split
      · by_cases hc : c = e.1
        · rw [hc, look_upd_self]
          exact hf _
        · rw [look_upd_ne hc]
          exact h
      · exact h
    · rcases List.mem_cons.mp hx with rfl | hx
      · left
        dsimp only
        rw [if_pos hen, ← hc, look_upd_self]
        exact hf _
      · exact .inr ⟨x, hx, hc, hen⟩

theorem freshUnmirrored_frame : OnlyChanges [.cyc] s s.freshUnmirrored := freshUnmirrored_only (within rfl) OnlyChanges.refl

/-- Every enabled class of a new primary runs, with the error task of the takeover due under its epoch. -/
theorem startTakeover_cls (hc : (c, s.ccfg c) ∈ s.cfg.cls) (hen : (s.ccfg c).en = true) :
    (s.startTakeover.cls c).running = true ∧ (s.startTakeover.cls c).dueTake = some s.dpx.eOwn := by
  have hcfg : s.freshUnmirrored.cfg = s.cfg := freshUnmirrored_frame.same .cfg (by decide)
  have hdpx : s.freshUnmirrored.dpx = s.dpx := freshUnmirrored_frame.same .dpx (by decide)
  refine look_foldl_upd (p := fun x : Cls => x.running = true ∧ x.dueTake = some s.dpx.eOwn) (fun x => ⟨rfl, ?_⟩) (.inr ⟨(c, s.ccfg c), ?_, rfl, hen⟩)
  · show some s.freshUnmirrored.dpx.eOwn = _
    rw [hdpx]
  · show _ ∈ s.freshUnmirrored.cfg.cls
    rw [hcfg]
    exact hc

theorem runClasses_cls (hc : (c, s.ccfg c) ∈ s.cfg.cls) (hen : (s.ccfg c).en = true) : (s.runClasses.cls c).running = true :=
  look_foldl_upd (p := fun x : Cls => x.running = true) (fun _ => rfl) (.inr ⟨(c, s.ccfg c), hc, rfl, hen⟩)

/-! The role in TAKEOVER and its records. -/

/-- A standby that is not lone stays standby in TAKEOVER. -/
theorem roleIn_takeover (hp : s.sys.primary = false) (hl : s.sys.lone = false) : s.roleIn .takeover = false := by
  simp [State.roleIn, hp, hl]

theorem setSync_reason (st : SyncState) (reason cause : Nat) : (s.setSync st reason cause).dpx.reason = BitVec.ofNat 4 reason := by
  unfold State.setSync
  split
  · rfl
  · exact congrArg Dpx.reason ((log_only (within rfl) OnlyChanges.refl : OnlyChanges [.tly] _ _).same .dpx (by decide))

/-- Events after a step that leaves the host interface are all that has happened to it. -/
theorem events_after (hh : t.hif = s.hif) (h : EventsOnly t u) : EventsOnly s u := by
  unfold EventsOnly at *
  rw [h, hh]

/-! What has left the module stays sent. -/

theorem sendRec_keeps {sync prog : Bool} {p : List Byte} {o : Out} (h : o ∈ s.outbox) : o ∈ (s.sendRec k sync prog p).outbox := sendPart_keeps h

theorem foldl_keeps {α : Type} {f : State → α → State} {l : List α} {o : Out} (hf : ∀ u a, o ∈ u.outbox → o ∈ (f u a).outbox)
    (h : o ∈ s.outbox) : o ∈ (l.foldl f s).outbox := by
  induction l generalizing s with
  | nil => exact h
  | cons a l ih => exact ih (hf s a h)

theorem sendLines_keeps {sync : Bool} {ps : List (List Byte)} {o : Out} (h : o ∈ s.outbox) : o ∈ (s.sendLines sync ps).outbox :=
  foldl_keeps (fun _ _ h => sendPart_keeps h) h

theorem sendCommit_keeps {sync : Bool} {img data glob : List Nat} {o : Out} (h : o ∈ s.outbox) :
    o ∈ (s.sendCommit sync c img data glob).outbox := by
  have hs : ∀ {p : List Byte} {ps qs ws : List (List Byte)},
      o ∈ ((((s.sendLines sync ps).sendLines sync qs).sendLines sync ws).sendRec 5 sync true p).outbox :=
    sendRec_keeps (sendLines_keeps (sendLines_keeps (sendLines_keeps h)))
  unfold State.sendCommit
  dsimp only
  split
  · exact hs
  · exact hs

theorem sendClass_keeps {o : Out} (h : o ∈ s.outbox) : o ∈ (s.sendClass c).outbox := sendCommit_keeps h

theorem sendLoop_keeps {o : Out} (h : o ∈ s.outbox) : o ∈ (s.sendLoop c).outbox := sendRec_keeps (sendRec_keeps h)

theorem sendHdrs_keeps {sync : Bool} {hs : List (List Byte)} {o : Out} (h : o ∈ s.outbox) : o ∈ (s.sendHdrs sync hs).outbox :=
  foldl_keeps (fun _ _ h => sendPart_keeps h) h

end Sys2Proof.Proofs
end

section
/-! Initial sync, the hand-over boundary and proof swaps (O39; spec/09_duplex_pair.md R247, R248, R254, R258, R265 to R269). -/

namespace Sys2Proof.Proofs

open Sys2Proof.Machine Sys2Proof.Safety Sys2Proof.Laws

variable {s t u : State} {c k n : Nat}

/-! An initial sync begins (R247). -/

theorem lanes_of_maySync (h : s.maySync = true) : s.lanesOn = true := by
  simp only [State.maySync, Bool.and_eq_true] at h
  obtain ⟨⟨⟨⟨⟨⟨⟨-, hl⟩, -⟩, -⟩, -⟩, -⟩, -⟩, -⟩ := h
  exact hl

theorem beginSync_frame : OnlyChanges [.dpx, .dpx2, .mir, .tly] s s.beginSync := beginSync_only (within rfl) OnlyChanges.refl

theorem beginSync_state : s.beginSync.dpx.state = .syncing := setSync_state .syncing 0 0

theorem beginSync_dpx2 : s.beginSync.dpx2 = { s.dpx2 with bulkSent := false, syncMib := 0 } :=
  congrArg (fun d : Dpx2 => { d with bulkSent := false, syncMib := 0 }) (setSync_dpx2 .syncing 0 0)

theorem versBytes_congr (hb : t.boot = s.boot) (hc : t.chg = s.chg) : t.versBytes = s.versBytes := by
  rw [State.versBytes, State.cfgDigest, hb, hc]
  rfl

theorem versOk_congr (hb : t.boot = s.boot) (hc : t.chg = s.chg) (hv : t.dpx2.vers = s.dpx2.vers) : t.versOk = s.versOk := by
  have ht : ∀ o, t.theirs o = s.theirs o := fun o => by rw [State.theirs, hv]; rfl
  rw [State.versOk, State.fwMatches, State.cfgMatches, State.progMatches, ht, ht, ht, pairAct_congr hb, hb, hc, hv]
  rfl

/-- The sync has begun, and the versions have gone to the partner. -/
def syncBegun (s : State) : State := s.beginSync.sendVersions

theorem syncBegun_eq (hp : s.cfg.partner = true) :
    syncBegun s = (numbered s.beginSync).put (.baste (recOf 9 false false s.beginSync.versBytes s.beginSync)) :=
  sendRec_eq (by rw [beginSync_frame.same .cfg (by decide)]; exact hp) (.inr (by decide))

theorem syncBegun_frame : OnlyChanges [.dpx, .dpx2, .mir, .tly, .outbox] s (syncBegun s) :=
  sendVersions_only (within rfl) (OnlyChanges.mono beginSync_frame (within rfl))

/-- A sync that has begun: SYNCING, no bulk sent, the versions known as before, its own sent. -/
structure SyncBegun (s t : State) : Prop where
  state : t.dpx.state = .syncing
  bulk : t.dpx2.bulkSent = false
  vers : t.dpx2.vers = s.dpx2.vers
  sent : ∃ b : BRec, Out.baste b ∈ t.outbox ∧ b.type = 9 ∧ b.payload = s.versBytes
  frame : OnlyChanges [.dpx, .dpx2, .mir, .tly, .outbox] s t

theorem syncBegun_begun (hp : s.cfg.partner = true) : SyncBegun s (syncBegun s) := by
  have hd2 : (syncBegun s).dpx2 = { s.beginSync.dpx2 with rseqTx := s.beginSync.dpx2.rseqTx + 1 } := by rw [syncBegun_eq hp]; rfl
  refine ⟨?_, ?_, ?_, ⟨recOf 9 false false s.beginSync.versBytes s.beginSync, ?_, rfl, ?_⟩, syncBegun_frame⟩
  · rw [syncBegun_eq hp]
    exact beginSync_state
  · rw [hd2, beginSync_dpx2]
  · rw [hd2, beginSync_dpx2]
  · rw [syncBegun_eq hp]
    exact List.mem_append_right _ (List.mem_singleton.mpr rfl)
  · exact versBytes_congr (beginSync_frame.same .boot (by decide)) (beginSync_frame.same .chg (by decide))

/-- A primary that knows its partner's versions weighs them at once. -/
def weighed (t : State) : State := if t.sys.primary && !t.dpx2.vers.isEmpty then t.weighVersions else t

theorem exec_initialSyncStart (h : s.maySync = true) : exec .initialSyncStart s = done s (weighed (syncBegun s)) := if_pos h

theorem weighed_unknown (h : t.dpx2.vers = [] ∨ t.sys.primary = false) : weighed t = t := by
  refine if_neg ?_
  rcases h with h | h <;> simp [h]

theorem sync_starts (hs : Settled s) (hm : s.maySync = true) (hv : s.dpx2.vers = [] ∨ s.sys.primary = false) :
    ∃ t, exec .initialSyncStart s = .next t ∧ t.dpx.state = .syncing ∧
    (∃ b : BRec, Out.baste b ∈ t.outbox ∧ b.type = 9 ∧ b.payload = s.versBytes) ∧ t.sys = s.sys ∧
    OnlyChanges [.dpx, .dpx2, .mir, .tly, .hif, .outbox] s t ∧ EventsOnly s t := by
  have b : SyncBegun s (syncBegun s) := syncBegun_begun (partner_of_lanes (lanes_of_maySync hm))
  have hw : weighed (syncBegun s) = syncBegun s := weighed_unknown (by rw [b.vers, b.frame.same .sys (by decide)]; exact hv)
  obtain ⟨t, ht, hf, he, ho, hk⟩ := done_of (qs := [.dpx, .dpx2, .mir, .tly, .hif, .outbox]) hs b.frame (within rfl) (within rfl)
  obtain ⟨r, hr, htype, hpay⟩ := b.sent
  refine ⟨t, ?_, ?_, ⟨r, hk _ hr, htype, hpay⟩, hf.same .sys (by decide), hf, events_after (b.frame.same .hif (by decide)) he⟩
  · rw [exec_initialSyncStart hm, hw]
    exact ht
  · rw [ho.same .dpx (by decide)]
    exact b.state

/-! The bulk (R248). -/

/-- The records of the bulk: the classes, the loops and the headers. -/
def bulkRecords (s : State) : State :=
  let t := s.syncClasses.foldl (fun (u : State) c => u.sendClass c) s
  let t := s.cfg.loops.foldl (fun (u : State) c => u.sendLoop c.1) t
  ({ t with tly := { t.tly with unsent := [] } }).sendHdrs true ((s.tly.sorted false ++ s.tly.sorted true).map TRec.header)

/-- The classes of `cs` that rest have no changed line any more. -/
def marksCleared (cs : List Nat) (s : State) : State :=
  cs.foldl (fun (u : State) c => if (u.cls c).active then u else u.updMem c fun m => { m with dirty := [] }) s

/-- The bulk has been sent, and is counted from outbox length `n` on. -/
def bulkCounted (n : Nat) (s : State) : State := { s.countSync n with dpx2 := { (s.countSync n).dpx2 with bulkSent := true } }

theorem sendBulk_eq (h : s.dpx2.bulkSent = false) :
    s.sendBulk = bulkCounted s.outbox.length (marksCleared s.syncClasses (bulkRecords s)) :=
  if_neg (by rw [h]; exact Bool.false_ne_true)

theorem bulkRecords_frame : OnlyChanges [.dpx2, .tly, .outbox] s (bulkRecords s) :=
  sendHdrs_only (within rfl) (OnlyChanges.trans (OnlyChanges.foldl (OnlyChanges.foldl OnlyChanges.refl fun _ _ h => sendClass_only (within rfl) h)
    fun _ _ h => sendLoop_only (within rfl) h) ⟨fun p hp => by cases p with
      | tly => exact absurd (by decide) hp
      | _ => rfl⟩)

theorem bulkRecords_keeps {o : Out} (h : o ∈ s.outbox) : o ∈ (bulkRecords s).outbox :=
  sendHdrs_keeps (foldl_keeps (fun _ _ h => sendLoop_keeps h) (foldl_keeps (fun _ _ h => sendClass_keeps h) h))

theorem marksCleared_frame {cs : List Nat} : OnlyChanges [.cyc] s (marksCleared cs s) :=
  OnlyChanges.foldl OnlyChanges.refl fun _ _ h => OnlyChanges.ite h (updMem_only (within rfl) h)

theorem marksCleared_keeps {cs : List Nat} : Keeps s (marksCleared cs s) :=
  Keeps.refl.foldl fun _ _ h => h.ite (updMem_keeps h fun _ => rfl)

theorem bulkCounted_frame : OnlyChanges [.dpx2] s (bulkCounted n s) :=
  OnlyChanges.trans (countSync_only (within rfl) OnlyChanges.refl) (dpx2_frame _)

theorem sendBulk_frame : OnlyChanges [.cyc, .dpx2, .tly, .outbox] s s.sendBulk := sendBulk_only (within rfl) OnlyChanges.refl

theorem sendBulk_sends (h : s.dpx2.bulkSent = false) : s.sendBulk.dpx2.bulkSent = true ∧ (∀ o ∈ s.outbox, o ∈ s.sendBulk.outbox) ∧
    ∀ c, (s.sendBulk.cmem c).image = (s.cmem c).image := by
  have kr : OnlyChanges [.dpx2, .tly, .outbox] s (bulkRecords s) := bulkRecords_frame
  have hkeep : ∀ o ∈ s.outbox, o ∈ (bulkRecords s).outbox := fun o h => bulkRecords_keeps h
  rw [sendBulk_eq h]
  generalize bulkRecords s = v at kr hkeep
  have hm : Keeps v (marksCleared s.syncClasses v) := marksCleared_keeps
  have km : OnlyChanges [.cyc] v (marksCleared s.syncClasses v) := marksCleared_frame
  generalize marksCleared s.syncClasses v = w at hm km
  have kc : OnlyChanges [.dpx2] w (bulkCounted s.outbox.length w) := bulkCounted_frame
  refine ⟨rfl, fun o h => ?_, fun c => ?_⟩
  · rw [kc.same .outbox (by decide), km.same .outbox (by decide)]
    exact hkeep o h
  · have hcm : (bulkCounted s.outbox.length w).cmem c = w.cmem c := by rw [State.cmem, kc.same .cyc (by decide)]; rfl
    have hvm : v.cmem c = s.cmem c := by rw [State.cmem, kr.same .cyc (by decide)]; rfl
    rw [hcm, image_congr (hm.mem c), hvm]

theorem weighed_fitting (hp : t.sys.primary = true) (hv : t.versOk = true) : weighed t = t.sendBulk := by
  have hne : t.dpx2.vers.isEmpty = false := by
    simp only [State.versOk, Bool.and_eq_true, Bool.not_eq_true'] at hv
    exact hv.1.1.1
  unfold weighed State.weighVersions
  rw [hp, hne, hv]
  rfl

theorem sync_sends_bulk (hs : Settled s) (hm : s.maySync = true) (hp : s.sys.primary = true) (hv : s.versOk = true) :
    ∃ t, exec .initialSyncStart s = .next t ∧ t.dpx.state = .syncing ∧ t.dpx2.bulkSent = true ∧
    (∃ b : BRec, Out.baste b ∈ t.outbox ∧ b.type = 9 ∧ b.payload = s.versBytes) ∧ (∀ c, (t.cmem c).image = (s.cmem c).image) ∧
    t.sys = s.sys ∧ OnlyChanges [.cyc, .dpx, .dpx2, .mir, .tly, .hif, .outbox] s t ∧ EventsOnly s t := by
  have b : SyncBegun s (syncBegun s) := syncBegun_begun (partner_of_lanes (lanes_of_maySync hm))
  have hw : weighed (syncBegun s) = (syncBegun s).sendBulk := by
    refine weighed_fitting ?_ ?_
    · rw [b.frame.same .sys (by decide)]
      exact hp
    · rw [versOk_congr (b.frame.same .boot (by decide)) (b.frame.same .chg (by decide)) b.vers]
      exact hv
  obtain ⟨hsent, hkeep, himg⟩ := sendBulk_sends b.bulk
  have kb : OnlyChanges [.cyc, .dpx2, .tly, .outbox] (syncBegun s) (syncBegun s).sendBulk := sendBulk_frame
  have kf : OnlyChanges [.cyc, .dpx, .dpx2, .mir, .tly, .outbox] s (syncBegun s).sendBulk :=
    OnlyChanges.trans (OnlyChanges.mono b.frame (within rfl)) (OnlyChanges.mono kb (within rfl))
  obtain ⟨t, ht, hf, he, ho, hk⟩ := done_of (qs := [.cyc, .dpx, .dpx2, .mir, .tly, .hif, .outbox]) hs kf (within rfl) (within rfl)
  obtain ⟨r, hr, htype, hpay⟩ := b.sent
  refine ⟨t, ?_, ?_, ?_, ⟨r, hk _ (hkeep _ hr), htype, hpay⟩, fun c => ?_, hf.same .sys (by decide), hf,
    events_after (kf.same .hif (by decide)) he⟩
  · rw [exec_initialSyncStart hm, hw]
    exact ht
  · rw [ho.same .dpx (by decide), kb.same .dpx (by decide)]
    exact b.state
  · rw [ho.same .dpx2 (by decide)]
    exact hsent
  · have h1 : t.cmem c = (syncBegun s).sendBulk.cmem c := by rw [State.cmem, ho.same .cyc (by decide)]; rfl
    have h2 : (syncBegun s).cmem c = s.cmem c := by rw [State.cmem, b.frame.same .cyc (by decide)]; rfl
    rw [h1, himg, h2]

/-! CUT_IN on the primary (R248). -/

/-- Fetching is held. -/
def holding (s : State) : State := { s with hif := { s.hif with hold := true } }

/-- What the bulk left: the changed lines, the loops, the headers, the windows and the pending host writes of `s`, sent from `t`. -/
def restSent (s t : State) : State :=
  let t := s.syncClasses.foldl (fun (u : State) c => u.sendRest c) t
  let t := s.cfg.loops.foldl (fun (u : State) c => u.sendLoop c.1) t
  let t := ({ t with tly := { t.tly with unsent := [] } }).sendHdrs true t.tly.unsent
  let t := s.hif.wins.foldl (fun (u : State) w => u.sendWindow w.1 w.2) t
  s.syncClasses.foldl (fun (u : State) c => u.sendPending c) t

/-- The number of the cut-in notice is noted. -/
def cutNoted (s : State) : State := { s with dpx2 := { s.dpx2 with cutRseq := s.dpx2.rseqTx } }

theorem cutIn_eq : s.cutIn = cutNoted (((restSent s (holding s)).countSync s.outbox.length).notice 7 0 (restSent s (holding s)).lastCommit 0) := rfl

theorem unsent_frame : OnlyChanges [.tly] t { t with tly := { t.tly with unsent := [] } } :=
  ⟨fun p hp => by cases p with
    | tly => exact absurd (by decide) hp
    | _ => rfl⟩

theorem restSent_frame : OnlyChanges [.dpx2, .tly, .outbox] t (restSent s t) := by
  unfold restSent
  dsimp only
  refine OnlyChanges.foldl (OnlyChanges.foldl (sendHdrs_only (within rfl) (OnlyChanges.trans (OnlyChanges.foldl (OnlyChanges.foldl OnlyChanges.refl
    fun _ _ h => ?_) fun _ _ h => ?_) (OnlyChanges.mono unsent_frame (within rfl)))) fun _ _ h => ?_) fun _ _ h => ?_
  · exact sendRest_only (within rfl) h
  · exact sendLoop_only (within rfl) h
  · exact sendWindow_only (within rfl) h
  · exact sendPending_only (within rfl) h

theorem notice_eq {d : Nat} {w q : DWord} (hp : s.cfg.partner = true) : s.notice k d w q = (numbered s).put (.baste (recOf 0x0B false false
    ([BitVec.ofNat 8 k, BitVec.ofNat 8 d, 0, 0] ++ le 4 s.dpx.eOwn.toNat ++ le 8 w.toNat ++ le 8 q.toNat) s)) :=
  sendRec_eq hp (.inr (by decide))

theorem cut_in (hs : Settled s) (hm : s.maySync = true) (hst : s.dpx.state = .syncing) (hp : s.sys.primary = true) (hv : s.versOk = true)
    (hb : s.dpx2.bulkSent = true) : ∃ t, exec .cutIn s = .next t ∧ t.hif = { s.hif with hold := true } ∧ t.dpx2.cutRseq = t.dpx2.rseqTx ∧
    (∃ b : BRec, t.outbox.getLast? = some (.baste b) ∧ b.type = 11 ∧ b.payload.headD 0 = 7) ∧ OnlyChanges [.hif, .dpx2, .tly, .outbox] s t := by
  have hx : exec .cutIn s = done s s.cutIn := if_pos (by rw [hm, hst, hp, hv, hb]; rfl)
  have kf : OnlyChanges [.hif, .dpx2, .tly, .outbox] s s.cutIn := cutIn_only (within rfl) OnlyChanges.refl
  have kc : OnlyChanges [.dpx2, .tly, .outbox] (holding s) ((restSent s (holding s)).countSync s.outbox.length) :=
    countSync_only (within rfl) restSent_frame
  have hpar : ((restSent s (holding s)).countSync s.outbox.length).cfg.partner = true := by
    rw [kc.same .cfg (by decide)]
    exact partner_of_lanes (lanes_of_maySync hm)
  refine ⟨s.cutIn, hx.trans (done_of_frame hs kf (within rfl)), ?_, ?_, ?_, kf⟩
  · rw [cutIn_eq, notice_eq hpar]
    exact kc.same .hif (by decide)
  · rw [cutIn_eq]
    rfl
  · rw [cutIn_eq, notice_eq hpar]
    exact ⟨_, List.getLast?_concat .., rfl, rfl⟩

/-! SYNC_ABANDON (R248). -/

/-- The abandoned sync is counted, and nothing is held. -/
def abandoned (s : State) : State :=
  { s with dpx2 := { s.dpx2 with syncAband := s.dpx2.syncAband + 1, abandRow := s.dpx2.abandRow + 1, syncMib := 0, bulkSent := false }
           hif := { s.hif with hold := false } }

theorem abandon_eq : s.abandon = if 3 ≤ s.dpx2.abandRow + 1 then (abandoned s).setSync .refused 4 8 else abandoned s := rfl

theorem abandon_dpx2 : s.abandon.dpx2 = (abandoned s).dpx2 := by
  rw [abandon_eq]
  split
  · exact setSync_dpx2 ..
  · rfl

theorem abandon_hif : s.abandon.hif = { s.hif with hold := false } := by
  rw [abandon_eq]
  split
  · exact (setSync_only (within rfl) OnlyChanges.refl : OnlyChanges [.dpx, .tly] (abandoned s) _).same .hif (by decide)
  · rfl

theorem sync_abandoned (hs : Settled s) (hr : s.running = true) (hst : s.dpx.state = .syncing) : ∃ t, exec .syncAbandon s = .next t ∧
    t.dpx2.syncAband = s.dpx2.syncAband + 1 ∧ t.dpx2.abandRow = s.dpx2.abandRow + 1 ∧ t.hif.hold = false ∧
    (2 ≤ s.dpx2.abandRow → t.dpx.state = .refused ∧ t.dpx.reason = 4) ∧ (s.dpx2.abandRow < 2 → t.dpx = s.dpx) ∧
    OnlyChanges [.hif, .dpx, .dpx2, .tly, .outbox] s t := by
  have hx : exec .syncAbandon s = done s s.abandon := if_pos (by rw [hr, hst]; rfl)
  have kf : OnlyChanges [.hif, .dpx, .dpx2, .tly] s s.abandon := abandon_only (within rfl) OnlyChanges.refl
  obtain ⟨t, ht, hf, he, ho, -⟩ := done_of (qs := [.hif, .dpx, .dpx2, .tly, .outbox]) hs kf (within rfl) (within rfl)
  have hd : t.dpx = s.abandon.dpx := ho.same .dpx (by decide)
  have hd2 : t.dpx2 = (abandoned s).dpx2 := (ho.same .dpx2 (by decide)).trans abandon_dpx2
  refine ⟨t, hx.trans ht, by rw [hd2]; rfl, by rw [hd2]; rfl, by rw [he, abandon_hif], fun h => ?_, fun h => ?_, hf⟩
  · have ha : s.abandon = (abandoned s).setSync .refused 4 8 := abandon_eq.trans (if_pos (by omega))
    rw [hd, ha]
    exact ⟨setSync_state .., setSync_reason ..⟩
  · have ha : s.abandon = abandoned s := abandon_eq.trans (if_neg (by omega))
    rw [hd, ha]
    rfl

end Sys2Proof.Proofs
end

section
/-! The hand-over boundary and proof swaps (O39; spec/09_duplex_pair.md R254, R258, R265 to R269). -/

namespace Sys2Proof.Proofs

open Sys2Proof.Machine Sys2Proof.Safety Sys2Proof.Laws

variable {s t u : State} {c n : Nat}

/-! The hand-over boundary on the old primary (R265). -/

/-- `s` in TAKEOVER on its way to RUN. -/
def takingOver (s : State) : State := (s.setMode .takeover 6).beginTrans .run 6 31

theorem takingOver_frame (h : s.sys.mode = .run) : OnlyChanges [.sys, .hif, .cyc, .tly, .outbox] s (takingOver s) :=
  beginTrans_only (within rfl) (setMode_frame (by rw [h]; decide) (by rw [h]; decide))

theorem takingOver_mode : (takingOver s).sys.mode = .takeover := setMode_mode .takeover 6

theorem takingOver_cls : (takingOver s).cls c = s.cls c := setMode_cls c

/-- No role has been taken, and no proof window runs. -/
def roleGiven (s : State) : State := { s with dpx2 := { s.dpx2 with takeFrom := 0, proofWin := false } }

theorem roleGiven_frame : OnlyChanges [.dpx2] s (roleGiven s) := dpx2_frame _

/-- A pair's switch is at its exchange. -/
def switchExchanged (s : State) : State :=
  if s.pairAct && decide (s.boot.act.step = 3) && !s.boot.act.done then s.updAct fun a => { a with step := 4 } else s

theorem handToPartner_eq : s.handToPartner = switchExchanged (roleGiven (takingOver s.overrunRecs.haltClasses).asStandby) := by
  delta State.handToPartner switchExchanged roleGiven takingOver
  rfl

theorem switchExchanged_alone (h : s.pairAct = false) : switchExchanged s = s :=
  if_neg (by rw [h, Bool.false_and, Bool.false_and]; exact Bool.false_ne_true)

/-- A module that has given its role away: standby in TAKEOVER, with every class stopped. -/
structure GaveRole (s t : State) : Prop where
  mode : t.sys.mode = .takeover
  standby : t.sys.primary = false
  taken : t.dpx2.takeFrom = 0
  stopped : ∀ c, (t.cls c).running = false ∧ (t.cls c).active = false
  frame : OnlyChanges [.sys, .hif, .cyc, .lsp, .dpx2, .tly, .outbox] s t

theorem halted_frame : OnlyChanges [.cyc, .lsp, .tly] s s.overrunRecs.haltClasses :=
  haltClasses_only (within rfl) (overrunRecs_only (within rfl) OnlyChanges.refl)

theorem handToPartner_gives (hm : s.sys.mode = .run) (hb : s.boot.act.busy = false) : GaveRole s s.handToPartner := by
  have kh : OnlyChanges [.cyc, .lsp, .tly] s s.overrunRecs.haltClasses := halted_frame
  have hc : ∀ c, (s.overrunRecs.haltClasses.cls c).running = false ∧ (s.overrunRecs.haltClasses.cls c).active = false := haltClasses_cls
  rw [handToPartner_eq]
  generalize s.overrunRecs.haltClasses = v at kh hc
  have hmv : v.sys.mode = .run := by rw [kh.same .sys (by decide)]; exact hm
  have kf : OnlyChanges [.sys, .hif, .cyc, .lsp, .dpx2, .tly, .outbox] s (roleGiven (takingOver v).asStandby) :=
    OnlyChanges.trans (OnlyChanges.mono kh (within rfl)) (OnlyChanges.trans (asStandby_only (within rfl)
      (OnlyChanges.mono (takingOver_frame hmv) (within rfl))) (OnlyChanges.mono roleGiven_frame (within rfl)))
  rw [switchExchanged_alone ((pairAct_congr (kf.same .boot (by decide))).trans (pairAct_idle hb))]
  refine ⟨takingOver_mode, rfl, rfl, fun c => ?_, kf⟩
  rw [show (roleGiven (takingOver v).asStandby).cls c = (takingOver v).cls c from rfl, takingOver_cls]
  exact hc c

theorem drives_takeover (h : t.sys.mode = .takeover) (hf : t.dpx2.takeFrom = 0) : t.drives = false := by
  simp [State.drives, h, hf]

theorem boundary_gives (hr : s.running = true) (hh : s.dpx.handover = true) (hi : s.insync = true) (hm : s.sys.mode = .run)
    (hp : s.sys.primary = true) (hb : s.boot.act.busy = false) : ∃ t, exec .handoverBoundary s = .next t ∧ t.sys.mode = .takeover ∧
    t.sys.primary = false ∧ t.drives = false ∧ (∀ c, (t.cls c).running = false ∧ (t.cls c).active = false) ∧ t.dpx.eOwn = s.dpx.eOwn ∧
    OnlyChanges [.sys, .hif, .cyc, .lsp, .dpx2, .can, .canq, .fio, .tly, .outbox] s t := by
  have hx : exec .handoverBoundary s = done s s.handToPartner := by
    refine (if_pos (by rw [hr, hh, hi, hm]; rfl)).trans ?_
    rw [if_pos hp]
  have g : GaveRole s s.handToPartner := handToPartner_gives hm hb
  have ks : OnlyChanges settling s.handToPartner (settleState s s.handToPartner) := settleState_frame
  have kt : OnlyChanges [.sys, .hif, .cyc, .lsp, .dpx2, .can, .canq, .fio, .tly, .outbox] s (settleState s s.handToPartner) :=
    OnlyChanges.trans (OnlyChanges.mono g.frame (within rfl)) (OnlyChanges.mono ks (within rfl))
  have hmode : (settleState s s.handToPartner).sys.mode = .takeover := by rw [settleState_sys]; exact g.mode
  refine ⟨_, hx, hmode, ?_, drives_takeover hmode ?_, fun c => ?_, by rw [kt.same .dpx (by decide)], kt⟩
  · rw [settleState_sys]
    exact g.standby
  · rw [ks.same .dpx2 (by decide)]
    exact g.taken
  · rw [settleState_cls]
    exact g.stopped c

/-! The hand-over boundary on the new primary. -/

/-- The rings that the module had reported absent count as handed over at the time `now` (R253). -/
def ringsNoted (rep : BitVec 4) (now : Nat) (s : State) : State :=
  { s with dpx2 := { s.dpx2 with
    takeFrom := 2, psOpen := false
    absentT := ((List.range 4).filter fun r => rep.getLsbD r).foldl (fun (a : Tab Nat) r => a.put r now) s.dpx2.absentT } }

theorem ringsNoted_frame {rep : BitVec 4} {now : Nat} : OnlyChanges [.dpx2] s (ringsNoted rep now s) := dpx2_frame _

theorem takeOverByCommand_eq : s.takeOverByCommand = (ringsNoted s.dpx2.absRep s.sys.opNs (takingOver s).takeEpoch).startTakeover := by
  delta State.takeOverByCommand ringsNoted takingOver
  rfl

/-- A module that has taken the role over by its classes and its epoch: in TAKEOVER, standby until it reaches RUN (R254). -/
structure TookRole (s t : State) : Prop where
  mode : t.sys.mode = .takeover
  standby : t.sys.primary = false
  taken : t.dpx2.takeFrom ≠ 0
  epoch : NewEpoch s t
  classes : ∀ c, (c, s.ccfg c) ∈ s.cfg.cls → (s.ccfg c).en = true → (t.cls c).running = true ∧ (t.cls c).dueTake = some t.dpx.eOwn

theorem takeOverByCommand_frame (hm : s.sys.mode = .run) : OnlyChanges [.sys, .hif, .cyc, .cle, .dpx, .dpx2, .mir, .tly, .outbox] s s.takeOverByCommand := by
  rw [takeOverByCommand_eq]
  exact startTakeover_only (within rfl) (OnlyChanges.trans (takeEpoch_only (within rfl) (OnlyChanges.mono (takingOver_frame hm) (within rfl)))
    (OnlyChanges.mono ringsNoted_frame (within rfl)))

/-- A standby in TAKEOVER with a new epoch has taken the role once its classes run. -/
theorem startTakeover_took (hc : t.cfg = s.cfg) (hm : t.sys.mode = .takeover) (hp : t.sys.primary = false) (hf : t.dpx2.takeFrom ≠ 0)
    (e : NewEpoch s t) : TookRole s t.startTakeover := by
  have k : OnlyChanges [.cyc, .cle, .mir] t t.startTakeover := startTakeover_only (within rfl) OnlyChanges.refl
  have hsys : t.startTakeover.sys = t.sys := k.same .sys (by decide)
  have hd : t.startTakeover.dpx = t.dpx := k.same .dpx (by decide)
  refine ⟨by rw [hsys]; exact hm, by rw [hsys]; exact hp, by rw [k.same .dpx2 (by decide)]; exact hf, ⟨?_, ?_⟩, fun c hm hen => ?_⟩
  · rw [hd]
    exact e.above
  · rw [hd]
    exact e.side
  · have hcc : t.ccfg c = s.ccfg c := by rw [State.ccfg, hc]; rfl
    rw [hd]
    exact startTakeover_cls (by rw [hcc, hc]; exact hm) (by rw [hcc]; exact hen)

theorem takeOverByCommand_takes (hm : s.sys.mode = .run) (hp : s.sys.primary = false) (hl : s.sys.lone = false) (hv : s.cfg.valid = true)
    (he : s.dpx.eSeen.toNat + 2 < 2 ^ 32) : TookRole s s.takeOverByCommand ∧ s.takeOverByCommand.dpx.state = s.dpx.state := by
  have k0 : OnlyChanges [.sys, .hif, .cyc, .tly, .outbox] s (takingOver s) := takingOver_frame hm
  have hprim : (takingOver s).sys.primary = false := (congrArg Sys.primary (setMode_sys .takeover 6)).trans (roleIn_takeover hp hl)
  have hmode : (takingOver s).sys.mode = .takeover := takingOver_mode
  rw [takeOverByCommand_eq]
  generalize takingOver s = v at k0 hprim hmode
  have k1 : OnlyChanges [.dpx, .dpx2] v v.takeEpoch := takeEpoch_only (within rfl) OnlyChanges.refl
  have e : NewEpoch s v.takeEpoch := takeEpoch_after k0 (within rfl) hv he
  have hst : v.takeEpoch.dpx.state = s.dpx.state := takeEpoch_state.trans (congrArg Dpx.state (k0.same .dpx (by decide)))
  have hsys : v.takeEpoch.sys = v.sys := k1.same .sys (by decide)
  have hcfg : v.takeEpoch.cfg = s.cfg := (k1.same .cfg (by decide)).trans (k0.same .cfg (by decide))
  generalize v.takeEpoch = x at e hst hsys hcfg
  have ht : (ringsNoted s.dpx2.absRep s.sys.opNs x).dpx2.takeFrom = 2 := rfl
  have kn : OnlyChanges [.dpx2] x (ringsNoted s.dpx2.absRep s.sys.opNs x) := ringsNoted_frame
  generalize ringsNoted s.dpx2.absRep s.sys.opNs x = w at ht kn
  have kw : OnlyChanges [.cyc, .cle, .mir] w w.startTakeover := startTakeover_only (within rfl) OnlyChanges.refl
  have hws : w.sys = v.sys := (kn.same .sys (by decide)).trans hsys
  have hwd : w.dpx = x.dpx := kn.same .dpx (by decide)
  refine ⟨startTakeover_took ((kn.same .cfg (by decide)).trans hcfg) (by rw [hws]; exact hmode) (by rw [hws]; exact hprim)
    (by rw [ht]; decide) ⟨by rw [hwd]; exact e.above, by rw [hwd]; exact e.side⟩, ?_⟩
  rw [kw.same .dpx (by decide), hwd]
  exact hst

theorem drives_taken (hr : s.running = true) (hp : t.pwr = s.pwr) (h : t.sys.mode = .takeover) (hf : t.dpx2.takeFrom ≠ 0) : t.drives = true := by
  have hd : s.pwr.shutdown = false := by
    simp only [State.running, Bool.and_eq_true, Bool.not_eq_true'] at hr
    exact hr.2
  simp [State.drives, State.alive, State.powered, h, hp, hd]
  exact hf

/-- What follows the taking of the role leaves it as it is. -/
theorem TookRole.settle (h : TookRole s t) : TookRole s (settleState u t) := by
  have ks : OnlyChanges settling t (settleState u t) := settleState_frame
  have hd : (settleState u t).dpx = t.dpx := ks.same .dpx (by decide)
  refine ⟨by rw [settleState_sys]; exact h.mode, by rw [settleState_sys]; exact h.standby, ?_, ⟨?_, ?_⟩, fun c hc hen => ?_⟩
  · rw [ks.same .dpx2 (by decide)]
    exact h.taken
  · rw [hd]
    exact h.epoch.above
  · rw [hd]
    exact h.epoch.side
  · rw [settleState_cls, hd]
    exact h.classes c hc hen

theorem boundary_takes (hr : s.running = true) (hh : s.dpx.handover = true) (hi : s.insync = true) (hm : s.sys.mode = .run)
    (hp : s.sys.primary = false) (hl : s.sys.lone = false) (hv : s.cfg.valid = true) (he : s.dpx.eSeen.toNat + 2 < 2 ^ 32) :
    ∃ t, exec .handoverBoundary s = .next t ∧ t.sys.mode = .takeover ∧ t.sys.primary = false ∧ t.drives = true ∧
    s.dpx.eSeen < t.dpx.eOwn ∧ t.dpx.state = s.dpx.state ∧ t.dpx.eOwn.getLsbD 0 = s.side ∧
    (∀ c, (c, s.ccfg c) ∈ s.cfg.cls → (s.ccfg c).en = true → (t.cls c).running = true ∧ (t.cls c).dueTake = some t.dpx.eOwn) ∧
    OnlyChanges [.sys, .hif, .cyc, .cle, .dpx, .dpx2, .mir, .can, .canq, .fio, .tly, .outbox] s t := by
  have hx : exec .handoverBoundary s = done s s.takeOverByCommand := by
    refine (if_pos (by rw [hr, hh, hi, hm]; rfl)).trans ?_
    rw [if_neg (by rw [hp]; exact Bool.false_ne_true)]
  obtain ⟨g, hst⟩ := takeOverByCommand_takes hm hp hl hv he
  have ks : OnlyChanges settling s.takeOverByCommand (settleState s s.takeOverByCommand) := settleState_frame
  have kt : OnlyChanges [.sys, .hif, .cyc, .cle, .dpx, .dpx2, .mir, .can, .canq, .fio, .tly, .outbox] s (settleState s s.takeOverByCommand) :=
    OnlyChanges.trans (OnlyChanges.mono (takeOverByCommand_frame hm) (within rfl)) (OnlyChanges.mono ks (within rfl))
  obtain ⟨hmode, hstandby, htaken, ⟨habove, hside⟩, hcls⟩ := g.settle (u := s)
  refine ⟨_, hx, hmode, hstandby, drives_taken hr (kt.same .pwr (by decide)) hmode htaken, habove, ?_, hside, hcls, kt⟩
  rw [ks.same .dpx (by decide)]
  exact hst

/-! Proof swaps (R267, R268). -/

theorem exec_proofSwapDue (hr : s.running = true) (hp : s.sys.primary = true) (hi : s.psInterval ≠ 0) (hn : s.dpx2.psNext ≠ 0) :
    exec .proofSwapDue s = done s s.proofDue :=
  if_pos (by rw [hr, hp, decide_eq_true hi, decide_eq_true hn]; rfl)

/-- A record says of the pair's counters nothing. -/
theorem log_dpx2 (x : Dpx2) (code sev : Nat) (b : List Byte) :
    State.log code sev b { s with dpx2 := x } = { s.log code sev b with dpx := s.dpx, dpx2 := x } :=
  log_relinked (d := s.dpx) x rfl code sev b

/-- The proof swap is deferred by 60 s. -/
def deferred (s : State) : State :=
  { s with dpx2 := { s.dpx2 with psResult := 3, psCheck := 0, psRing := 0, psNext := s.dpx2.psNext + 60 } }

theorem proofDue_defers {st : BitVec 16} {w : Word} (hc : s.checkExchange = .no st w) :
    s.proofDue = (deferred s).log 0x0505 2 [BitVec.ofNat 8 (if st = St.refused then w.toNat else 0)] := by
  have hn : (if st = St.refused then w else 0).toNat = if st = St.refused then w.toNat else 0 := by
    split
    · rfl
    · rfl
  unfold State.proofDue
  rw [hc, ← hn]
  rfl

theorem swap_deferred {st : BitVec 16} {w : Word} (hs : Settled s) (hr : s.running = true) (hp : s.sys.primary = true)
    (hi : s.psInterval ≠ 0) (hn : s.dpx2.psNext ≠ 0) (hc : s.checkExchange = .no st w) : ∃ t, exec .proofSwapDue s = .next t ∧
    t.dpx2 = { s.dpx2 with psResult := 3, psCheck := 0, psRing := 0, psNext := s.dpx2.psNext + 60 } ∧
    t.tly = (s.log 0x0505 2 [BitVec.ofNat 8 (if st = St.refused then w.toNat else 0)]).tly ∧ OnlyChanges [.dpx2, .tly] s t := by
  have kl : OnlyChanges [.tly] (deferred s) s.proofDue := by rw [proofDue_defers hc]; exact log_only (within rfl) OnlyChanges.refl
  have kf : OnlyChanges [.dpx2, .tly] s s.proofDue :=
    OnlyChanges.trans (OnlyChanges.mono (dpx2_frame _ : OnlyChanges [.dpx2] s (deferred s)) (within rfl)) (OnlyChanges.mono kl (within rfl))
  refine ⟨s.proofDue, (exec_proofSwapDue hr hp hi hn).trans (done_of_frame hs kf (within rfl)), kl.same .dpx2 (by decide), ?_, kf⟩
  rw [proofDue_defers hc, deferred, log_dpx2]

/-- The unasked record of a due proof swap (log entry 46). -/
def swapBytes : List Byte := hostworkBytes .j { opcode := 0x07, param0 := 1 } St.ok false 0 0

theorem proofDue_asks (hc : s.checkExchange = .go) : s.proofDue = ((s.sendUnasked swapBytes).askExchange true 31).tryHandover := by
  unfold State.proofDue
  rw [hc]
  rfl

theorem swap_asked (hs : Settled s) (hr : s.running = true) (hp : s.sys.primary = true) (hi : s.psInterval ≠ 0) (hn : s.dpx2.psNext ≠ 0)
    (hc : s.checkExchange = .go) (hpar : s.cfg.partner = true) (ha : s.dpx2.ceAck = false) : ∃ t, exec .proofSwapDue s = .next t ∧
    t.dpx2.rseqTx = s.dpx2.rseqTx + 1 ∧ t.dpx2.xPend = true ∧ t.dpx2.isProof = true ∧ t.dpx2.xslot = 31 ∧
    t.dpx2.psNext = s.dpx2.psNext ∧ (∃ b : BRec, t.outbox = s.outbox ++ [.baste b] ∧ b.type = 3) ∧ OnlyChanges [.dpx2, .outbox] s t := by
  have hb : swapBytes.length = 96 + 0 := by decide +kernel
  have m : Mirrors 1 65564 s (s.sendHostwork false swapBytes) := sendHostwork_mirrors (m := 0) hpar hb
  have hbody : ∀ {α : Type} (f : Dpx2 → α), f (linkBody (s.sendHostwork false swapBytes).dpx2) = f (linkBody s.dpx2) := fun f => congrArg f m.body
  have ku : OnlyChanges [.dpx2, .outbox] s ((s.sendUnasked swapBytes).askExchange true 31) :=
    askExchange_only (within rfl) (sendUnasked_only (within rfl) OnlyChanges.refl)
  have hdue : s.proofDue = (s.sendUnasked swapBytes).askExchange true 31 := by
    rw [proofDue_asks hc]
    exact tryHandover_unacked ((hbody Dpx2.ceAck : (s.sendHostwork false swapBytes).dpx2.ceAck = s.dpx2.ceAck).trans ha)
  rw [exec_proofSwapDue hr hp hi hn, hdue, done_of_frame hs ku (within rfl)]
  obtain ⟨l, hl, hlen, hall⟩ := m.sent
  obtain ⟨o, rfl⟩ := List.length_eq_one_iff.mp hlen
  obtain ⟨b, rfl, htype, -⟩ := hall o (List.mem_singleton.mpr rfl)
  exact ⟨_, rfl, m.number, rfl, rfl, rfl, (hbody Dpx2.psNext : (s.sendHostwork false swapBytes).dpx2.psNext = s.dpx2.psNext), ⟨b, hl, htype⟩, ku⟩

/-! The end of the proof window (R268). -/

theorem exec_proofWindowEnd (hr : s.running = true) (hw : s.dpx2.proofWin = true) : exec .proofWindowEnd s = done s s.windowEnd :=
  if_pos (by rw [hr, hw]; rfl)

/-- The proof swap is noted as passed. -/
def passed (s : State) : State :=
  { s with dpx2 := { s.dpx2 with psResult := 1, psCheck := 0, psRing := 0, psCnt := s.dpx2.psCnt + 1, proofWin := false } }

theorem passed_frame : OnlyChanges [.dpx2] s (passed s) := dpx2_frame _

theorem windowEnd_passes (hw : s.dpx2.proofWin = true) (he : s.echoRings = 0) (hb : s.outputsBad = false) :
    s.windowEnd = ((passed s).log 0x0504 2 [1, 0, 0]).psRestart s.secs := by
  have hj : s.proofJudge = s := by
    unfold State.proofJudge
    rw [hw, he, hb]
    rfl
  unfold State.windowEnd
  dsimp only
  rw [hj, if_pos hw]
  rfl

theorem psRestart_dpx2 (n : Nat) : ∃ w, (s.psRestart n).dpx2 = { s.dpx2 with psFrom := some n, psNext := w } := ⟨_, rfl⟩

theorem window_passes (hs : Settled s) (hr : s.running = true) (hw : s.dpx2.proofWin = true) (he : s.echoRings = 0) (hb : s.outputsBad = false) :
    ∃ t, exec .proofWindowEnd s = .next t ∧ t.dpx2.psResult = 1 ∧ t.dpx2.psCnt = s.dpx2.psCnt + 1 ∧ t.dpx2.proofWin = false ∧
    t.tly = (s.log 0x0504 2 [1, 0, 0]).tly ∧ OnlyChanges [.dpx2, .tly] s t := by
  have kl : OnlyChanges [.tly] (passed s) ((passed s).log 0x0504 2 [1, 0, 0]) := log_only (within rfl) OnlyChanges.refl
  have hd2 : ((passed s).log 0x0504 2 [1, 0, 0]).dpx2 = (passed s).dpx2 := kl.same .dpx2 (by decide)
  have ht : ((passed s).log 0x0504 2 [1, 0, 0]).tly = (s.log 0x0504 2 [1, 0, 0]).tly := by rw [passed, log_dpx2]
  have kv : OnlyChanges [.dpx2, .tly] s ((passed s).log 0x0504 2 [1, 0, 0]) :=
    OnlyChanges.trans (OnlyChanges.mono passed_frame (within rfl)) (OnlyChanges.mono kl (within rfl))
  rw [exec_proofWindowEnd hr hw, windowEnd_passes hw he hb]
  generalize (passed s).log 0x0504 2 [1, 0, 0] = v at hd2 ht kv
  obtain ⟨w, hp⟩ := psRestart_dpx2 (s := v) s.secs
  have kp : OnlyChanges [.dpx2] v (v.psRestart s.secs) := psRestart_only (within rfl) OnlyChanges.refl
  have kf : OnlyChanges [.dpx2, .tly] s (v.psRestart s.secs) := OnlyChanges.trans kv (OnlyChanges.mono kp (within rfl))
  refine ⟨v.psRestart s.secs, done_of_frame hs kf (within rfl), ?_, ?_, ?_, ?_, kf⟩
  · rw [hp, hd2]
    rfl
  · rw [hp, hd2]
    rfl
  · rw [hp, hd2]
    rfl
  · rw [kp.same .tly (by decide)]
    exact ht

/-- The proof swap is noted as failed, and the hand-back asked for (R269). -/
def swapLost (check ring : Nat) (s : State) : State :=
  { s with
    dpx := { s.dpx with proofFail := true }
    dpx2 := { s.dpx2 with psResult := 2, psCheck := BitVec.ofNat 4 check, psRing := BitVec.ofNat 4 ring, psCnt := s.dpx2.psCnt + 1,
                          proofWin := false, xPend := !s.dpx.partnerPf, isProof := false, xslot := 31 } }

/-- The failed proof swap has its record, the interval starts again, and the partner is told. -/
def swapTold (check ring : Nat) (s : State) : State :=
  (((swapLost check ring s).log 0x0504 4 [2, BitVec.ofNat 8 check, BitVec.ofNat 8 ring]).psRestart s.secs).notice 6 0 s.lastCommit 0

theorem proofFailed_eq (check ring : Nat) : s.proofFailed check ring = (swapTold check ring s).tryHandover := rfl

/-- A proof swap that has failed with check `check`. -/
structure SwapFailed (check : Nat) (t : State) : Prop where
  result : t.dpx2.psResult = 2
  check : t.dpx2.psCheck = BitVec.ofNat 4 check
  window : t.dpx2.proofWin = false
  failed : t.dpx.proofFail = true

theorem swapTold_failed (check ring : Nat) : SwapFailed check (swapTold check ring s) ∧
    (s.cfg.partner = true → ∃ b : BRec, Out.baste b ∈ (swapTold check ring s).outbox ∧ b.type = 11 ∧ b.payload.headD 0 = 6) := by
  have kl : OnlyChanges [.tly] (swapLost check ring s) ((swapLost check ring s).log 0x0504 4 [2, BitVec.ofNat 8 check, BitVec.ofNat 8 ring]) :=
    log_only (within rfl) OnlyChanges.refl
  have hcfg : (swapLost check ring s).cfg = s.cfg := rfl
  have h0 : SwapFailed check (swapLost check ring s) := ⟨rfl, rfl, rfl, rfl⟩
  unfold swapTold
  generalize swapLost check ring s = a at kl hcfg h0
  generalize a.log 0x0504 4 [2, BitVec.ofNat 8 check, BitVec.ofNat 8 ring] = v at kl
  have kp : OnlyChanges [.dpx2] v (v.psRestart s.secs) := psRestart_only (within rfl) OnlyChanges.refl
  obtain ⟨w, hp⟩ := psRestart_dpx2 (s := v) s.secs
  generalize v.psRestart s.secs = x at kp hp
  have kn : OnlyChanges [.dpx2, .outbox] x (x.notice 6 0 s.lastCommit 0) := notice_only (within rfl) OnlyChanges.refl
  obtain ⟨q, hq⟩ := notice_dpx2 (s := x) (k := 6) (d := 0) (c := s.lastCommit) (q := 0)
  have hd2 : v.dpx2 = a.dpx2 := kl.same .dpx2 (by decide)
  have hd : (x.notice 6 0 s.lastCommit 0).dpx = a.dpx :=
    (kn.same .dpx (by decide)).trans ((kp.same .dpx (by decide)).trans (kl.same .dpx (by decide)))
  refine ⟨⟨?_, ?_, ?_, by rw [hd]; exact h0.failed⟩, fun hpar => ?_⟩
  · rw [hq, hp, hd2]
    exact h0.result
  · rw [hq, hp, hd2]
    exact h0.check
  · rw [hq, hp, hd2]
    exact h0.window
  · have hx : x.cfg.partner = true := by
      rw [kp.same .cfg (by decide), kl.same .cfg (by decide), hcfg]
      exact hpar
    rw [notice_eq hx]
    exact ⟨_, List.mem_append_right _ (List.mem_singleton.mpr rfl), rfl, rfl⟩

theorem notice_failed {check k : Nat} {w : DWord} (h : SwapFailed check s) : SwapFailed check (s.notice k 0 w 0) := by
  have kn : OnlyChanges [.dpx2, .outbox] s (s.notice k 0 w 0) := notice_only (within rfl) OnlyChanges.refl
  obtain ⟨q, hq⟩ := notice_dpx2 (s := s) (k := k) (d := 0) (c := w) (q := 0)
  exact ⟨by rw [hq]; exact h.result, by rw [hq]; exact h.check, by rw [hq]; exact h.window, by rw [kn.same .dpx (by decide)]; exact h.failed⟩

/-- The chosen boundary leaves the outcome of the proof swap, and what had left the module. -/
theorem tryHandover_failed {check : Nat} (h : SwapFailed check s) : SwapFailed check s.tryHandover ∧ ∀ o ∈ s.outbox, o ∈ s.tryHandover.outbox := by
  unfold State.tryHandover
  split
  · exact ⟨h, fun _ ho => ho⟩
  · dsimp only
    split
    · have hn : ∀ {k : Nat} {w : DWord}, SwapFailed check (s.notice k 0 w 0) := notice_failed h
      exact ⟨⟨hn.result, hn.check, hn.window, hn.failed⟩, fun _ ho => sendPart_keeps ho⟩
    · exact ⟨h, fun _ ho => ho⟩

theorem windowEnd_fails (hw : s.dpx2.proofWin = true) (he : s.echoRings = 0) (hb : s.outputsBad = true) : s.windowEnd = s.proofFailed 3 0 := by
  have hj : s.proofJudge = s.proofFailed 3 0 := by
    unfold State.proofJudge
    rw [hw, he, hb]
    rfl
  have hf : (s.proofFailed 3 0).dpx2.proofWin = false := by
    rw [proofFailed_eq]
    exact (tryHandover_failed (swapTold_failed 3 0).1).1.window
  unfold State.windowEnd
  dsimp only
  rw [hj, if_neg (by rw [hf]; exact Bool.false_ne_true)]

theorem window_fails (hs : Settled s) (hr : s.running = true) (hw : s.dpx2.proofWin = true) (he : s.echoRings = 0) (hb : s.outputsBad = true) :
    ∃ t, exec .proofWindowEnd s = .next t ∧ t.dpx2.psResult = 2 ∧ t.dpx2.psCheck = 3 ∧ t.dpx2.proofWin = false ∧
    t.dpx.proofFail = true ∧ t.sys = s.sys ∧
    (s.cfg.partner = true → ∃ b : BRec, Out.baste b ∈ t.outbox ∧ b.type = 11 ∧ b.payload.headD 0 = 6) ∧
    OnlyChanges [.hif, .dpx, .dpx2, .tly, .outbox] s t := by
  obtain ⟨htold, hsent⟩ := swapTold_failed (s := s) 3 0
  obtain ⟨hf, hkeep⟩ := tryHandover_failed htold
  have kf : OnlyChanges [.hif, .dpx, .dpx2, .tly, .outbox] s (s.proofFailed 3 0) := proofFailed_only (within rfl) OnlyChanges.refl
  rw [← proofFailed_eq] at hf hkeep
  obtain ⟨t, ht, hft, -, ho, hk⟩ := done_of (qs := [.hif, .dpx, .dpx2, .tly, .outbox]) hs kf (within rfl) (within rfl)
  have hd : t.dpx = (s.proofFailed 3 0).dpx := ho.same .dpx (by decide)
  have hd2 : t.dpx2 = (s.proofFailed 3 0).dpx2 := ho.same .dpx2 (by decide)
  refine ⟨t, ?_, by rw [hd2]; exact hf.result, by rw [hd2]; exact hf.check, by rw [hd2]; exact hf.window, by rw [hd]; exact hf.failed,
    hft.same .sys (by decide), fun hpar => ?_, hft⟩
  · rw [exec_proofWindowEnd hr hw, windowEnd_fails hw he hb]
    exact ht
  · obtain ⟨b, hb', htype, hhead⟩ := hsent hpar
    exact ⟨b, hk _ (hkeep _ hb'), htype, hhead⟩

/-- Settles O39: the sync by what it begins and sends, the boundary by what either module becomes, the proof swap by its outcomes. -/
theorem synchronisationHandOverAndProofSwaps : Obligations.SynchronisationHandOverAndProofSwaps :=
  ⟨fun _ hs hm hv => sync_starts hs hm hv,
    fun _ hs hm hp hv => sync_sends_bulk hs hm hp hv,
    fun _ hs hm hst hp hv hb => cut_in hs hm hst hp hv hb,
    fun _ hs hr hst => sync_abandoned hs hr hst,
    fun _ hr hh hi hm hp hb => boundary_gives hr hh hi hm hp hb,
    fun _ hr hh hi hm hp hl hv he => boundary_takes hr hh hi hm hp hl hv he,
    fun _ _ _ hs hr hp hi hn hc => swap_deferred hs hr hp hi hn hc,
    fun _ hs hr hp hi hn hc hpar ha => swap_asked hs hr hp hi hn hc hpar ha,
    fun _ hs hr hw he hb => window_passes hs hr hw he hb,
    fun _ hs hr hw he hb => window_fails hs hr hw he hb⟩

end Sys2Proof.Proofs
end

section
/-! What a heartbeat and its loss make of the lanes (spec/09_duplex_pair.md R236, R237), and of the synchronisation state. -/

namespace Sys2Proof.Proofs

open Sys2Proof.Machine Sys2Proof.Safety Sys2Proof.Laws

variable {s t u : State} {lane : Bool} {c n : Nat}

/-! The synchronisation state. -/

theorem setSync_dpx (st : SyncState) (reason cause : Nat) :
    (s.setSync st reason cause).dpx = { s.dpx with state := st, reason := BitVec.ofNat 4 reason } := by
  unfold State.setSync
  split
  case isTrue h => rw [← h]
  case isFalse => exact (log_only (within rfl) OnlyChanges.refl : OnlyChanges [.tly] _ _).same .dpx (by decide)

theorem setSync_frame {st : SyncState} {reason cause : Nat} : OnlyChanges [.dpx, .tly] s (s.setSync st reason cause) :=
  setSync_only (within rfl) OnlyChanges.refl

theorem endInsync_dpx (h : s.insync = true) (cause : Nat) :
    (s.endInsync cause).dpx = { s.dpx with state := s.afterLoss, reason := 0, handover := false } := by
  unfold State.endInsync
  rw [h]
  simp only [Bool.not_true, Bool.false_eq_true, if_false, apply_ite State.dpx, setSync_dpx, ite_self]
  rfl

/-! Heartbeats sent (R236). -/

/-- The heartbeat has left on its lane. -/
def beaten (lane : Bool) (s : State) : State :=
  (s.updDpx fun d => if lane then { d with hbCnt1 := d.hbCnt1 + 1 } else { d with hbCnt0 := d.hbCnt0 + 1 }).put
    (.heartbeat lane (s.heartbeatOf lane))

theorem beaten_frame : OnlyChanges [.dpx, .outbox] s (beaten lane s) :=
  ⟨fun p hp => by cases p with
    | dpx | outbox => exact absurd (by decide) hp
    | _ => rfl⟩

theorem beaten_dpx : (beaten lane s).dpx.hbCnt lane = s.dpx.hbCnt lane + 1 ∧ (beaten lane s).dpx.hbCnt (!lane) = s.dpx.hbCnt (!lane) ∧
    (beaten lane s).dpx.state = s.dpx.state := by
  cases lane <;> exact ⟨rfl, rfl, rfl⟩

theorem heartbeat_sent (hl : s.lanesOn = true) (hh : s.dpx.heartbeats = true) : ∃ t h, exec (.heartbeatSend lane) s = .next t ∧
    t.outbox = s.outbox ++ [.heartbeat lane h] ∧ h.count = s.dpx.hbCnt lane + 1 ∧ t.dpx.hbCnt lane = h.count ∧
    t.dpx.hbCnt (!lane) = s.dpx.hbCnt (!lane) ∧ h.mode = s.sys.mode ∧ h.role = s.sys.primary ∧ h.eOwn = s.dpx.eOwn ∧
    h.eSeen = s.dpx.eSeen ∧ h.insync = s.insync ∧ h.side = s.side ∧ h.txTime = s.short ∧ t.dpx.state = s.dpx.state ∧
    OnlyChanges [.dpx, .outbox] s t := by
  obtain ⟨hc, ho, hst⟩ := beaten_dpx (s := s) (lane := lane)
  exact ⟨beaten lane s, s.heartbeatOf lane, if_pos (by rw [hl, hh]; rfl), rfl, rfl, hc, ho, rfl, rfl, rfl, rfl, rfl, rfl, rfl, hst, beaten_frame⟩

theorem heartbeat_unsent (h : s.lanesOn = false ∨ s.dpx.heartbeats = false) : exec (.heartbeatSend lane) s = .next s := by
  refine if_neg ?_
  rcases h with h | h <;> simp [h]

/-! Heartbeats missed (R236, R237). -/

/-- The lanes with one more heartbeat missed on `lane`. -/
def missedBy (lane : Bool) (d : Dpx) : Dpx :=
  { (d.setMiss lane (if d.miss lane = 255 then 255 else d.miss lane + 1)).setGood lane 0 with hbLost := d.hbLost + 1 }

theorem missOne_eq : s.missOne lane = s.updDpx (missedBy lane) := rfl

theorem missOne_dpx : (s.missOne lane).dpx = missedBy lane s.dpx := rfl

theorem missOne_frame : OnlyChanges [.dpx] s (s.missOne lane) := by
  rw [missOne_eq]
  exact updDpx_frame _

theorem missedBy_miss (d : Dpx) : (missedBy lane d).miss lane = if d.miss lane = 255 then 255 else d.miss lane + 1 := by
  cases lane <;> rfl

theorem missedBy_kept (d : Dpx) : (missedBy lane d).good lane = 0 ∧ (missedBy lane d).up lane = d.up lane ∧
    (missedBy lane d).miss (!lane) = d.miss (!lane) ∧ (missedBy lane d).state = d.state := by
  cases lane <;> exact ⟨rfl, rfl, rfl, rfl⟩

theorem missOne_up : (s.missOne lane).dpx.up lane = s.dpx.up lane := by
  rw [missOne_dpx]
  exact (missedBy_kept s.dpx).2.1

theorem exec_heartbeatMissed (h : s.lanesOn = true) : exec (.heartbeatMissed lane) s = done s (s.heartbeatMissed lane) := if_pos h

theorem miss_counted (hs : Settled s) (hl : s.lanesOn = true) (hm : (s.dpx.miss lane).toNat < 2) :
    ∃ t, exec (.heartbeatMissed lane) s = .next t ∧ t.dpx.miss lane = s.dpx.miss lane + 1 ∧ t.dpx.good lane = 0 ∧
    t.dpx.hbLost = s.dpx.hbLost + 1 ∧ t.dpx.up lane = s.dpx.up lane ∧ t.dpx.miss (!lane) = s.dpx.miss (!lane) ∧
    t.dpx.state = s.dpx.state ∧ OnlyChanges [.dpx] s t := by
  have hn : s.dpx.miss lane ≠ 255 := fun h => by rw [h] at hm; exact absurd hm (by decide)
  have hmiss : (missedBy lane s.dpx).miss lane = s.dpx.miss lane + 1 := (missedBy_miss s.dpx).trans (if_neg hn)
  obtain ⟨hgood, hup, hother, hst⟩ := missedBy_kept (lane := lane) s.dpx
  have he : s.heartbeatMissed lane = s.updDpx (missedBy lane) := by
    refine if_neg ?_
    rw [missOne_eq, show (s.updDpx (missedBy lane)).dpx.miss lane = s.dpx.miss lane + 1 from hmiss]
    simp only [decide_eq_true_eq]
    bv_omega
  refine ⟨s.updDpx (missedBy lane), ?_, hmiss, hgood, rfl, hup, hother, hst, updDpx_frame _⟩
  rw [exec_heartbeatMissed hl, he]
  exact done_of_dpx hs (updDpx_frame _) (within rfl) hst

/-- The lanes as the third missed heartbeat leaves them. -/
def downBy (lane : Bool) (d : Dpx) : Dpx := (missedBy lane d).setUp lane false

/-- The lane is down after a missed heartbeat. -/
def downed (lane : Bool) (s : State) : State := (s.missOne lane).laneDown lane 1

theorem setUp_miss (d : Dpx) (l m b : Bool) : (d.setUp l b).miss m = d.miss m := by
  cases l <;> cases m <;> rfl

theorem setUp_up (d : Dpx) (b : Bool) : (d.setUp lane b).up lane = b ∧ (d.setUp lane b).up (!lane) = d.up (!lane) := by
  cases lane <;> exact ⟨rfl, rfl⟩

theorem setUp_down {d : Dpx} (h : d.up lane = false) : d.setUp lane false = d := by
  cases lane with
  | false =>
    have hf : d.up0 = false := h
    rw [Dpx.setUp, if_neg Bool.false_ne_true, ← hf]
  | true =>
    have hf : d.up1 = false := h
    rw [Dpx.setUp, if_pos rfl, ← hf]

theorem downed_frame : OnlyChanges [.dpx, .tly] s (downed lane s) :=
  laneDown_only (within rfl) (OnlyChanges.mono missOne_frame (within rfl))

theorem setUp_kept (d : Dpx) (b : Bool) : (d.setUp lane b).state = d.state ∧ (d.setUp lane b).eOwn = d.eOwn ∧
    (d.setUp lane b).eSeen = d.eSeen ∧ (d.setUp lane b).handover = d.handover := by
  cases lane <;> exact ⟨rfl, rfl, rfl, rfl⟩

theorem missedBy_link (d : Dpx) : (missedBy lane d).state = d.state ∧ (missedBy lane d).eOwn = d.eOwn ∧
    (missedBy lane d).eSeen = d.eSeen ∧ (missedBy lane d).handover = d.handover := by
  cases lane <;> exact ⟨rfl, rfl, rfl, rfl⟩

theorem downBy_kept (d : Dpx) : (downBy lane d).state = d.state ∧ (downBy lane d).eOwn = d.eOwn ∧
    (downBy lane d).eSeen = d.eSeen ∧ (downBy lane d).handover = d.handover := by
  obtain ⟨hst, ho, hs, hh⟩ := setUp_kept (lane := lane) (missedBy lane d) false
  obtain ⟨hst', ho', hs', hh'⟩ := missedBy_link (lane := lane) d
  exact ⟨hst.trans hst', ho.trans ho', hs.trans hs', hh.trans hh'⟩

theorem downBy_state (d : Dpx) : (downBy lane d).state = d.state := (downBy_kept d).1

theorem downed_up (h : s.dpx.up lane = true) :
    downed lane s = relinked (downBy lane s.dpx) s.dpx2 (s.log 0x0501 3 [BitVec.ofNat 8 (bit lane), 1, 1]) := by
  rw [← log_relinked s.dpx2 (downBy_state s.dpx)]
  refine if_neg ?_
  rw [missOne_up, h]
  exact Bool.false_ne_true

theorem downed_dpx : (downed lane s).dpx = downBy lane s.dpx := by
  cases h : s.dpx.up lane with
  | true => rw [downed_up h]; rfl
  | false =>
    have hu : (s.missOne lane).dpx.up lane = false := by rw [missOne_up, h]
    have hd : downed lane s = s.missOne lane := if_pos (by rw [hu]; rfl)
    rw [hd, downBy, ← missOne_dpx, setUp_down hu]

theorem downBy_miss {d : Dpx} (h : d.miss lane = 2) : (downBy lane d).miss lane = 3 ∧ (downBy lane d).miss (!lane) = d.miss (!lane) := by
  rw [downBy, setUp_miss, setUp_miss, missedBy_miss, h]
  exact ⟨rfl, (missedBy_kept d).2.2.1⟩

theorem downBy_up (d : Dpx) : (downBy lane d).up lane = false ∧ (downBy lane d).up (!lane) = d.up (!lane) := by
  obtain ⟨hs, ho⟩ := setUp_up (lane := lane) (missedBy lane d) false
  refine ⟨hs, ho.trans ?_⟩
  cases lane <;> rfl

theorem downBy_both (d : Dpx) : (!(downBy lane d).up0 && !(downBy lane d).up1) = !d.up (!lane) := by
  obtain ⟨hs, ho⟩ := downBy_up (lane := lane) d
  cases lane with
  | false =>
    rw [show (downBy false d).up0 = false from hs, show (downBy false d).up1 = d.up true from ho]
    rfl
  | true =>
    rw [show (downBy true d).up1 = false from hs, show (downBy true d).up0 = d.up false from ho]
    exact Bool.and_true _

/-- The third missed heartbeat takes its lane down, and both lanes are down where the other was. -/
theorem heartbeatMissed_third (h : s.dpx.miss lane = 2) :
    s.heartbeatMissed lane = if !s.dpx.up (!lane) then (downed lane s).bothDown else downed lane s := by
  have hm : (s.missOne lane).dpx.miss lane = 3 := (missedBy_miss s.dpx).trans (by rw [h]; rfl)
  rw [← downBy_both, ← downed_dpx]
  exact if_pos (by rw [hm]; rfl)

theorem lane_down (hs : Settled s) (hl : s.lanesOn = true) (hm : s.dpx.miss lane = 2) (hu : s.dpx.up lane = true)
    (ho : s.dpx.up (!lane) = true) : ∃ t, exec (.heartbeatMissed lane) s = .next t ∧ t.dpx.up lane = false ∧
    t.dpx.up (!lane) = true ∧ t.dpx.state = s.dpx.state ∧ t.tly = (s.log 0x0501 3 [BitVec.ofNat 8 (bit lane), 1, 1]).tly ∧
    OnlyChanges [.dpx, .tly] s t := by
  have hst : (downed lane s).dpx.state = s.dpx.state := by rw [downed_dpx, downBy_state]
  have he : s.heartbeatMissed lane = downed lane s := by
    rw [heartbeatMissed_third hm, ho]
    rfl
  refine ⟨downed lane s, ?_, ?_, ?_, hst, by rw [downed_up hu]; rfl, downed_frame⟩
  · rw [exec_heartbeatMissed hl, he]
    exact done_of_dpx hs downed_frame (within rfl) hst
  · rw [downed_dpx]
    exact (downBy_up s.dpx).1
  · rw [downed_dpx]
    exact (downBy_up s.dpx).2.trans ho

end Sys2Proof.Proofs
end

section
/-! Both lanes down (spec/09_duplex_pair.md R242, R252 to R254): a standby that hears no ring takes over, a primary goes on alone. -/

namespace Sys2Proof.Proofs

open Sys2Proof.Machine Sys2Proof.Safety Sys2Proof.Laws

variable {s t u : State} {lane : Bool} {c n : Nat}

/-! Both lanes down. -/

/-- The records of a link that is gone are given up, and so is the partner's time. -/
def cutOff (s : State) : State := { s.holdUnfed with dpx2 := { s.dpx2 with rseqRx := 0, waitRec := [], vers := [] } }

theorem cutOff_frame : OnlyChanges [.dpx2, .tim] s (cutOff s) := by
  have k : OnlyChanges [.tim] s s.holdUnfed := holdUnfed_only (within rfl) OnlyChanges.refl
  exact OnlyChanges.trans (OnlyChanges.mono k (within rfl)) (OnlyChanges.mono (dpx2_frame _) (within rfl))

theorem cutOff_dpx2 : (cutOff s).dpx2 = { s.dpx2 with rseqRx := 0, waitRec := [], vers := [] } := rfl

theorem cutOff_primary (h : s.sys.primary = true) :
    cutOff s = { s with dpx2 := { s.dpx2 with rseqRx := 0, waitRec := [], vers := [] } } := by
  have hu : s.holdUnfed = s := if_pos (by rw [h]; rfl)
  rw [cutOff, hu]

/-- With the partner silent, INSYNC or an initial sync ends. -/
def partnerSilent (s : State) : State :=
  if s.insync then s.endInsync 3
  else if decide (s.dpx.state = .syncing) then s.setSync s.afterLoss 0 3
  else if decide (s.dpx.state = .refused) then s.setSync s.afterLoss 0 3
  else s

theorem bothDown_eq : s.bothDown =
    if (cutOff s).takeoverDue then (cutOff s).takeover else partnerSilent ((cutOff s).updDpx fun d => { d with partnerHb := false }) := by
  delta State.bothDown cutOff partnerSilent
  rfl

/-! Takeover by detection (R252, R254). -/

/-- What a takeover makes of a change or an activation in progress. -/
def changeKept (s : State) : State := { s with chg := s.chg.afterTakeover, boot := { s.boot with act := s.boot.act.afterTakeover } }

/-- The module in TAKEOVER by detection, on its way to RUN. -/
def detecting (s : State) : State := (s.setMode .takeover 5).beginTrans .run 5 31

/-- The partner is gone, and this module has taken its epoch by detection. -/
def partnerGone (s : State) : State :=
  { s with dpx := { s.dpx with state := .noPartner, partnerHb := false }, dpx2 := { s.dpx2 with takeFrom := 1 } }

theorem takeover_eq :
    s.takeover = (partnerGone (detecting (changeKept s).preempt).takeEpoch).startTakeover.log 0x0502 4 [4, 1, 0, 3] := by
  delta State.takeover partnerGone detecting changeKept
  rfl

theorem changeKept_frame : OnlyChanges [.chg, .boot] s (changeKept s) :=
  ⟨fun p hp => by cases p with
    | chg | boot => exact absurd (by decide) hp
    | _ => rfl⟩

theorem partnerGone_frame : OnlyChanges [.dpx, .dpx2] s (partnerGone s) :=
  ⟨fun p hp => by cases p with
    | dpx | dpx2 => exact absurd (by decide) hp
    | _ => rfl⟩

theorem detecting_frame (h : s.sys.mode = .run) : OnlyChanges [.sys, .hif, .cyc, .tly, .outbox] s (detecting s) :=
  beginTrans_only (within rfl) (setMode_frame (by rw [h]; decide) (by rw [h]; decide))

theorem detecting_sys (hp : s.sys.primary = false) (hl : s.sys.lone = false) :
    (detecting s).sys.mode = .takeover ∧ (detecting s).sys.primary = false :=
  ⟨setMode_mode .takeover 5, (congrArg Sys.primary (setMode_sys .takeover 5)).trans (roleIn_takeover hp hl)⟩

theorem preempt_role : s.preempt.sys.primary = s.sys.primary ∧ s.preempt.sys.lone = s.sys.lone := by
  unfold State.preempt
  split
  · exact ⟨rfl, rfl⟩
  · exact ⟨rfl, rfl⟩

/-- What a takeover by detection gives a standby in RUN. -/
structure TookByLoss (s t : State) : Prop where
  role : TookRole s t
  alone : t.dpx.state = .noPartner
  frame : OnlyChanges [.sys, .hif, .cyc, .cle, .chg, .dpx, .dpx2, .mir, .tly, .boot, .outbox] s t

theorem TookRole.log (h : TookRole s t) (code sev : Nat) (b : List Byte) : TookRole s (t.log code sev b) := by
  have k : OnlyChanges [.tly] t (t.log code sev b) := log_only (within rfl) OnlyChanges.refl
  have hsys : (t.log code sev b).sys = t.sys := k.same .sys (by decide)
  have hd : (t.log code sev b).dpx = t.dpx := k.same .dpx (by decide)
  have hcyc : ∀ c, (t.log code sev b).cls c = t.cls c := fun c => by rw [State.cls, k.same .cyc (by decide)]; rfl
  refine ⟨by rw [hsys]; exact h.mode, by rw [hsys]; exact h.standby, by rw [k.same .dpx2 (by decide)]; exact h.taken,
    ⟨by rw [hd]; exact h.epoch.above, by rw [hd]; exact h.epoch.side⟩, fun c hc hen => ?_⟩
  rw [hcyc, hd]
  exact h.classes c hc hen

theorem takeover_takes (hm : s.sys.mode = .run) (hp : s.sys.primary = false) (hl : s.sys.lone = false) (hv : s.cfg.valid = true)
    (he : s.dpx.eSeen.toNat + 2 < 2 ^ 32) : TookByLoss s s.takeover := by
  have kp : OnlyChanges [.sys, .chg, .boot] s (changeKept s).preempt :=
    preempt_only (within rfl) (OnlyChanges.mono changeKept_frame (within rfl))
  obtain ⟨hprim, hlone⟩ := preempt_role (s := changeKept s)
  have hmode : (changeKept s).preempt.sys.mode = .run := preempt_mode.trans hm
  rw [show (changeKept s).sys = s.sys from rfl] at hprim hlone
  rw [takeover_eq]
  generalize (changeKept s).preempt = p at kp hprim hlone hmode
  obtain ⟨hvm, hvp⟩ := detecting_sys (hprim.trans hp) (hlone.trans hl)
  have kv : OnlyChanges [.sys, .hif, .cyc, .chg, .tly, .boot, .outbox] s (detecting p) :=
    OnlyChanges.trans (OnlyChanges.mono kp (within rfl)) (OnlyChanges.mono (detecting_frame hmode) (within rfl))
  generalize detecting p = v at kv hvm hvp
  have kx : OnlyChanges [.dpx, .dpx2] v v.takeEpoch := takeEpoch_only (within rfl) OnlyChanges.refl
  have e : NewEpoch s v.takeEpoch := takeEpoch_after kv (within rfl) hv he
  generalize v.takeEpoch = x at kx e
  have kw : OnlyChanges [.dpx, .dpx2] x (partnerGone x) := partnerGone_frame
  have ew : NewEpoch s (partnerGone x) := ⟨e.above, e.side⟩
  have hst : (partnerGone x).dpx.state = .noPartner := rfl
  have ht : (partnerGone x).dpx2.takeFrom = 1 := rfl
  generalize partnerGone x = w at kw ew hst ht
  have kvw : OnlyChanges [.dpx, .dpx2] v w := OnlyChanges.trans kx kw
  have hws : w.sys = v.sys := kvw.same .sys (by decide)
  have hwc : w.cfg = s.cfg := (kvw.same .cfg (by decide)).trans (kv.same .cfg (by decide))
  have kt : OnlyChanges [.cyc, .cle, .mir, .tly] w (w.startTakeover.log 0x0502 4 [4, 1, 0, 3]) :=
    log_only (within rfl) (startTakeover_only (within rfl) OnlyChanges.refl)
  refine ⟨TookRole.log (startTakeover_took hwc (by rw [hws]; exact hvm) (by rw [hws]; exact hvp) (by rw [ht]; decide) ew) 0x0502 4 [4, 1, 0, 3], ?_, ?_⟩
  · rw [kt.same .dpx (by decide)]
    exact hst
  · exact OnlyChanges.trans (OnlyChanges.mono kv (within rfl)) (OnlyChanges.trans (OnlyChanges.mono kvw (within rfl)) (OnlyChanges.mono kt (within rfl)))

/-! The third missed heartbeat where the other lane is down. -/

/-- The lanes of a module whose partner has been silent on both, with all that takeover asks about the rest of it. -/
theorem cutOff_after (s : State) (lane : Bool) : OnlyChanges [.dpx, .dpx2, .tim, .tly] s (cutOff (downed lane s)) ∧
    (cutOff (downed lane s)).dpx = downBy lane s.dpx ∧ (cutOff (downed lane s)).dpx2.absSlots = s.dpx2.absSlots := by
  have kd : OnlyChanges [.dpx, .tly] s (downed lane s) := downed_frame
  have hd : (downed lane s).dpx = downBy lane s.dpx := downed_dpx
  generalize downed lane s = u at kd hd
  have kc : OnlyChanges [.dpx2, .tim] u (cutOff u) := cutOff_frame
  refine ⟨OnlyChanges.trans (OnlyChanges.mono kd (within rfl)) (OnlyChanges.mono kc (within rfl)), (kc.same .dpx (by decide)).trans hd, ?_⟩
  rw [cutOff_dpx2, kd.same .dpx2 (by decide)]

theorem downBy_lost {d : Dpx} (h : d.miss lane = 2) (ho : 3 ≤ (d.miss (!lane)).toNat) :
    (decide (3 ≤ (downBy lane d).miss0.toNat) && decide (3 ≤ (downBy lane d).miss1.toNat)) = true := by
  obtain ⟨hm, hother⟩ := downBy_miss h
  have h3 : 3 ≤ ((downBy lane d).miss lane).toNat := by rw [hm]; decide
  rw [← hother] at ho
  generalize downBy lane d = e at h3 ho
  cases lane with
  | false => exact Bool.and_eq_true_iff.mpr ⟨decide_eq_true h3, decide_eq_true ho⟩
  | true => exact Bool.and_eq_true_iff.mpr ⟨decide_eq_true ho, decide_eq_true h3⟩

theorem liveRings_congr (hc : t.cfg = s.cfg) (hn : t.net = s.net) : t.liveRings = s.liveRings := by
  have hp : ∀ r, t.portUp r = s.portUp r := fun r => by rw [State.portUp, hn]; rfl
  rw [State.liveRings, hc]
  exact congrArg (fun f => List.filter f _) (funext hp)

theorem takeoverDue_of (hr : s.running = true) (hm : s.sys.mode = .run) (hp : s.sys.primary = false) (hi : s.insync = true)
    (hb : s.heartbeatsLost = true) (hl : s.liveRings ≠ []) (ha : ∀ n ∈ s.liveRings, s.beaconAbsent n = true) : s.takeoverDue = true := by
  have hall : (s.liveRings.all fun r => s.beaconAbsent r) = true := List.all_eq_true.mpr ha
  have hne : s.liveRings.isEmpty = false := List.isEmpty_eq_false_iff.mpr hl
  simp only [State.takeoverDue, hr, hm, hp, hi, hb, hall, hne, Bool.or_true, decide_true, Bool.not_false, Bool.and_true]

theorem heartbeats_lost (hl : s.lanesOn = true) (hm : s.dpx.miss lane = 2) (ho : s.dpx.up (!lane) = false) :
    exec (.heartbeatMissed lane) s = done s (downed lane s).bothDown := by
  rw [exec_heartbeatMissed hl, heartbeatMissed_third hm, ho]
  rfl

/-- A standby of an in-sync pair that hears no ring decides takeover on the heartbeats lost on both lanes. -/
theorem takeoverDue_after (hrun : s.running = true) (hm : s.dpx.miss lane = 2) (ho : 3 ≤ (s.dpx.miss (!lane)).toNat)
    (hmode : s.sys.mode = .run) (hp : s.sys.primary = false) (hi : s.insync = true) (hr : s.liveRings ≠ [])
    (ha : ∀ n ∈ s.liveRings, s.beaconAbsent n = true) : (cutOff (downed lane s)).takeoverDue = true := by
  obtain ⟨kv, hd, habs⟩ := cutOff_after s lane
  generalize cutOff (downed lane s) = v at kv hd habs
  have hsys : v.sys = s.sys := kv.same .sys (by decide)
  have hlive : v.liveRings = s.liveRings := liveRings_congr (kv.same .cfg (by decide)) (kv.same .net (by decide))
  have hlost : v.heartbeatsLost = true := by
    rw [State.heartbeatsLost, hd]
    exact downBy_lost hm ho
  have hin : v.insync = true := by
    rw [State.insync, hd, (downBy_kept s.dpx).1]
    exact hi
  have hrun' : v.running = true := by
    rw [← hrun, State.running, State.running, State.powered, State.powered, hsys, kv.same .pwr (by decide)]
  refine takeoverDue_of hrun' (by rw [hsys]; exact hmode) (by rw [hsys]; exact hp) hin hlost (by rw [hlive]; exact hr) fun n hn => ?_
  rw [State.beaconAbsent, habs]
  exact ha n (hlive ▸ hn)

/-- The takeover, from the state before the heartbeats were lost. -/
theorem takeover_after (lane : Bool) (hmode : s.sys.mode = .run) (hp : s.sys.primary = false) (hlone : s.sys.lone = false)
    (hv : s.cfg.valid = true) (he : s.dpx.eSeen.toNat + 2 < 2 ^ 32) : TookRole s (cutOff (downed lane s)).takeover ∧
    (cutOff (downed lane s)).takeover.dpx.state = .noPartner ∧
    OnlyChanges [.sys, .hif, .cyc, .cle, .chg, .dpx, .dpx2, .mir, .tim, .tly, .boot, .outbox] s (cutOff (downed lane s)).takeover := by
  obtain ⟨kv, hd, -⟩ := cutOff_after s lane
  generalize cutOff (downed lane s) = v at kv hd
  have hsys : v.sys = s.sys := kv.same .sys (by decide)
  have hcfg : v.cfg = s.cfg := kv.same .cfg (by decide)
  have hside : v.side = s.side := by rw [State.side, reg_congr (kv.same .regs (by decide))]; rfl
  have hcls : ∀ c, v.ccfg c = s.ccfg c := fun c => by rw [State.ccfg, hcfg]; rfl
  have hseen : v.dpx.eSeen = s.dpx.eSeen := by rw [hd]; exact (downBy_kept s.dpx).2.2.1
  obtain ⟨⟨gm, gp, gt, ⟨habove, hbit⟩, gc⟩, hst, kt⟩ := takeover_takes (s := v) (by rw [hsys]; exact hmode) (by rw [hsys]; exact hp)
    (by rw [hsys]; exact hlone) (by rw [hcfg]; exact hv) (by rw [hseen]; exact he)
  refine ⟨⟨gm, gp, gt, ⟨hseen ▸ habove, hbit.trans hside⟩, fun c hc hen => ?_⟩, hst,
    OnlyChanges.trans (OnlyChanges.mono kv (within rfl)) (OnlyChanges.mono kt (within rfl))⟩
  exact gc c (by rw [hcls, hcfg]; exact hc) (by rw [hcls]; exact hen)

theorem standby_takes_over (hl : s.lanesOn = true) (hm : s.dpx.miss lane = 2) (hu : s.dpx.up (!lane) = false)
    (ho : 3 ≤ (s.dpx.miss (!lane)).toNat) (hmode : s.sys.mode = .run) (hp : s.sys.primary = false) (hlone : s.sys.lone = false)
    (hi : s.insync = true) (hr : s.liveRings ≠ []) (ha : ∀ n ∈ s.liveRings, s.beaconAbsent n = true) (hv : s.cfg.valid = true)
    (he : s.dpx.eSeen.toNat + 2 < 2 ^ 32) : ∃ t, exec (.heartbeatMissed lane) s = .next t ∧ t.sys.mode = .takeover ∧
    t.sys.primary = false ∧ t.dpx.state = .noPartner ∧ s.dpx.eSeen < t.dpx.eOwn ∧ t.dpx.eOwn.getLsbD 0 = s.side ∧ t.drives = true ∧
    OnlyChanges [.sys, .hif, .cyc, .cle, .chg, .dpx, .dpx2, .mir, .tim, .can, .canq, .fio, .tly, .boot, .outbox] s t := by
  have hrun : s.running = true := running_of_lanes hl
  rw [heartbeats_lost hl hm hu, bothDown_eq, if_pos (takeoverDue_after hrun hm ho hmode hp hi hr ha)]
  obtain ⟨g, hst, kt⟩ := takeover_after lane hmode hp hlone hv he
  generalize (cutOff (downed lane s)).takeover = v at g hst kt
  obtain ⟨hgm, hgp, htaken, ⟨habove, hbit⟩, -⟩ := g.settle (u := s)
  have ks : OnlyChanges settling v (settleState s v) := settleState_frame
  have k : OnlyChanges [.sys, .hif, .cyc, .cle, .chg, .dpx, .dpx2, .mir, .tim, .can, .canq, .fio, .tly, .boot, .outbox] s (settleState s v) :=
    OnlyChanges.trans (OnlyChanges.mono kt (within rfl)) (OnlyChanges.mono ks (within rfl))
  refine ⟨_, rfl, hgm, hgp, ?_, habove, hbit, drives_taken hrun (k.same .pwr (by decide)) hgm htaken, k⟩
  rw [ks.same .dpx (by decide)]
  exact hst

/-- The partner is silent on both lanes, and the records of the link are given up. -/
def alone (s : State) : State :=
  State.updDpx (fun d => { d with partnerHb := false }) { s with dpx2 := { s.dpx2 with rseqRx := 0, waitRec := [], vers := [] } }

theorem alone_frame : OnlyChanges [.dpx, .dpx2] s (alone s) :=
  ⟨fun p hp => by cases p with
    | dpx | dpx2 => exact absurd (by decide) hp
    | _ => rfl⟩

theorem alone_kept : (alone s).insync = s.insync ∧ (alone s).dpx.eOwn = s.dpx.eOwn ∧ (alone s).dpx2.xPend = s.dpx2.xPend ∧
    (alone s).dpx.handover = s.dpx.handover ∧ (alone s).dpx.up0 = s.dpx.up0 ∧ (alone s).dpx.up1 = s.dpx.up1 := ⟨rfl, rfl, rfl, rfl, rfl, rfl⟩

/-- A primary with both lanes down loses its link. -/
theorem alone_silent (hi : s.insync = true) (hp : s.sys.primary = true) (h0 : s.dpx.up0 = false) (h1 : s.dpx.up1 = false)
    (hx : s.dpx2.xPend = false) (hh : s.dpx.handover = false) : (partnerSilent (alone s)).dpx.state = .linkLost ∧
    (partnerSilent (alone s)).dpx.eOwn = s.dpx.eOwn ∧ OnlyChanges [.hif, .dpx, .dpx2, .tly] s (partnerSilent (alone s)) := by
  have ka : OnlyChanges [.dpx, .dpx2] s (alone s) := alone_frame
  obtain ⟨hi', he, hx', hh', h0', h1'⟩ := alone_kept (s := s)
  have hp' : (alone s).sys.primary = true := by rw [ka.same .sys (by decide)]; exact hp
  generalize alone s = u at ka hi' he hx' hh' h0' h1' hp'
  have hu : u.insync = true := hi'.trans hi
  have hs : partnerSilent u = u.endInsync 3 := if_pos hu
  have hl : u.afterLoss = .linkLost := by simp [State.afterLoss, h0', h1', h0, h1, hp']
  rw [hs, endInsync_dpx hu, hl]
  exact ⟨rfl, he, OnlyChanges.trans (OnlyChanges.mono ka (within rfl)) (endInsync_frame (by rw [hx', hh', hx, hh]; rfl) 3)⟩

theorem primary_goes_on (hs : Settled s) (hl : s.lanesOn = true) (hm : s.dpx.miss lane = 2) (hu : s.dpx.up (!lane) = false)
    (hp : s.sys.primary = true) (hi : s.insync = true) (hx : s.dpx2.xPend = false) (hh : s.dpx.handover = false) :
    ∃ t, exec (.heartbeatMissed lane) s = .next t ∧ t.dpx.state = .linkLost ∧ t.sys = s.sys ∧ t.dpx.eOwn = s.dpx.eOwn ∧
    OnlyChanges [.hif, .dpx, .dpx2, .tly, .outbox] s t := by
  have kd : OnlyChanges [.dpx, .tly] s (downed lane s) := downed_frame
  have hd : (downed lane s).dpx = downBy lane s.dpx := downed_dpx
  have hprim : (downed lane s).sys.primary = true := by rw [kd.same .sys (by decide)]; exact hp
  have hx' : (downed lane s).dpx2.xPend = false := by rw [kd.same .dpx2 (by decide)]; exact hx
  rw [heartbeats_lost hl hm hu, bothDown_eq, if_neg ?due, cutOff_primary hprim]
  case due =>
    rw [cutOff_primary hprim]
    simp [State.takeoverDue, hprim]
  generalize downed lane s = u at kd hd hprim hx'
  obtain ⟨h0, h1⟩ : u.dpx.up0 = false ∧ u.dpx.up1 = false := by
    have h := (downBy_both (lane := lane) s.dpx).trans (congrArg not hu)
    rw [← hd] at h
    simpa using h
  have hkept : u.insync = true ∧ u.dpx.eOwn = s.dpx.eOwn ∧ u.dpx.handover = false := by
    rw [State.insync, hd]
    obtain ⟨hst, he, -, hho⟩ := downBy_kept (lane := lane) s.dpx
    exact ⟨(congrArg (fun x => decide (x = SyncState.insync)) hst).trans hi, he, hho.trans hh⟩
  obtain ⟨hi', he, hh'⟩ := hkept
  obtain ⟨hst, heo, ka⟩ := alone_silent hi' hprim h0 h1 hx' hh'
  have k : OnlyChanges [.hif, .dpx, .dpx2, .tly] s (partnerSilent (alone u)) := OnlyChanges.trans (OnlyChanges.mono kd (within rfl)) ka
  obtain ⟨t, ht, hf, -, hk, -⟩ := done_of (qs := [.hif, .dpx, .dpx2, .tly, .outbox]) hs k (within rfl) (within rfl)
  have hdt : t.dpx = (partnerSilent (alone u)).dpx := hk.same .dpx (by decide)
  exact ⟨t, ht, by rw [hdt]; exact hst, hf.same .sys (by decide), by rw [hdt]; exact heo.trans he, hf⟩

end Sys2Proof.Proofs
end

section
/-! What a heartbeat of the partner tells (spec/09_duplex_pair.md R237 to R239, R258), and what the module makes of it (R234, R241, R242,
R262, R263). -/

namespace Sys2Proof.Proofs

open Sys2Proof.Machine Sys2Proof.Safety Sys2Proof.Laws

variable {s t u : State} {lane : Bool} {hb : Hb} {c n : Nat}

/-! The time that a heartbeat gives leaves the domains (R239, spec/11_time.md R302). -/

theorem log_tim (code sev : Nat) (b : List Byte) : (s.log code sev b).tim = s.tim :=
  (log_only (within rfl) OnlyChanges.refl : OnlyChanges [.tly] s _).same .tim (by decide)

theorem clampRecord_doms : s.clampRecord.tim.doms = s.tim.doms := by
  unfold State.clampRecord
  dsimp only
  rw [apply_ite State.tim, log_tim, apply_ite Tim.doms]
  exact ite_self _

theorem servo_doms (theta : Int) (dns : Nat) : (s.servo theta dns).tim.doms = s.tim.doms := clampRecord_doms

theorem basteMeasure_doms (theta : Int) : (s.basteMeasure theta).tim.doms = s.tim.doms := by
  unfold State.basteMeasure
  dsimp only
  split
  · rfl
  · split
    · rfl
    · exact servo_doms ..

theorem basteTime_doms : (s.basteTime lane hb).tim.doms = s.tim.doms := by
  unfold State.basteTime
  dsimp only
  split
  · rfl
  · split
    · exact basteMeasure_doms _
    · split
      · split
        · exact basteMeasure_doms _
        · exact basteMeasure_doms _
      · rfl

/-! What is known of the partner. -/

/-- The higher of two epochs. -/
def higher (a b : Word) : Word := if a < b then b else a

theorem le_higher (a b : Word) : a ≤ higher a b ∧ b ≤ higher a b := by
  unfold higher
  split <;> constructor <;> bv_omega

theorem higher_of_le {a b : Word} (h : b ≤ a) : higher a b = a := by
  refine if_neg ?_
  bv_omega

theorem seeEpoch_dpx (e : Word) : (s.seeEpoch e).dpx = { s.dpx with eSeen := higher s.dpx.eSeen e } := by
  unfold State.seeEpoch higher
  split <;> rfl

theorem laneGood_dpx : ∃ b, (s.laneGood lane).dpx = ((s.dpx.setGood lane (s.dpx.good lane + 1)).setMiss lane 0).setUp lane b := by
  unfold State.laneGood
  dsimp only
  split
  · refine ⟨true, ?_⟩
    exact (log_only (within rfl) OnlyChanges.refl : OnlyChanges [.tly] _ _).same .dpx (by decide)
  · refine ⟨s.dpx.up lane, ?_⟩
    cases lane <;> rfl

/-- The module as it has heard a heartbeat of its partner. -/
def heard (lane : Bool) (hb : Hb) (s : State) : State := ((s.basteTime lane hb).laneGood lane).notePartner lane hb

/-- What a heartbeat tells a module. -/
structure Heard (lane : Bool) (hb : Hb) (s t : State) : Prop where
  mode : t.dpx.partnerMode = BitVec.ofNat 4 hb.mode.code
  role : t.dpx.partnerRole = hb.role
  epoch : t.dpx.partnerE = hb.eOwn
  miss : t.dpx.miss lane = 0
  good : t.dpx.good lane = s.dpx.good lane + 1
  seen : t.dpx.eSeen = higher (higher s.dpx.eSeen hb.eOwn) hb.eSeen
  own : t.dpx.eOwn = s.dpx.eOwn
  state : t.dpx.state = s.dpx.state
  handover : t.dpx.handover = s.dpx.handover
  reason : t.dpx.reason = s.dpx.reason
  doms : t.tim.doms = s.tim.doms
  frame : OnlyChanges [.dpx, .tim, .tly] s t

theorem notePartner_dpx : ∃ p, (s.notePartner lane hb).dpx = { (s.dpx.setPrev lane hb.txTime s.short).setHbRx lane hb.count with
    partnerMode := BitVec.ofNat 4 hb.mode.code, partnerRole := hb.role, partnerHb := true, partnerE := hb.eOwn, partnerPf := p
    eSeen := higher (higher s.dpx.eSeen hb.eOwn) hb.eSeen } := by
  unfold State.notePartner
  dsimp only
  rw [seeEpoch_dpx, seeEpoch_dpx]
  refine ⟨s.dpx.partnerPf && decide (s.dpx.hbRx lane < hb.count), ?_⟩
  cases lane <;> rfl

/-- The lane with a good heartbeat more. -/
theorem laneGood_lane : (s.laneGood lane).dpx.miss lane = 0 ∧ (s.laneGood lane).dpx.good lane = s.dpx.good lane + 1 := by
  obtain ⟨b, hb⟩ := laneGood_dpx (s := s) (lane := lane)
  rw [hb, setUp_miss]
  cases lane <;> exact ⟨rfl, rfl⟩

theorem laneGood_kept : (s.laneGood lane).dpx.state = s.dpx.state ∧ (s.laneGood lane).dpx.eOwn = s.dpx.eOwn ∧
    (s.laneGood lane).dpx.eSeen = s.dpx.eSeen ∧ (s.laneGood lane).dpx.handover = s.dpx.handover ∧
    (s.laneGood lane).dpx.reason = s.dpx.reason := by
  obtain ⟨b, hb⟩ := laneGood_dpx (s := s) (lane := lane)
  rw [hb]
  cases lane <;> exact ⟨rfl, rfl, rfl, rfl, rfl⟩

/-- What the partner tells leaves the lane's run of heartbeats and the synchronisation state. -/
theorem notePartner_kept : (s.notePartner lane hb).dpx.miss lane = s.dpx.miss lane ∧ (s.notePartner lane hb).dpx.good lane = s.dpx.good lane ∧
    (s.notePartner lane hb).dpx.eOwn = s.dpx.eOwn ∧ (s.notePartner lane hb).dpx.state = s.dpx.state ∧
    (s.notePartner lane hb).dpx.handover = s.dpx.handover ∧ (s.notePartner lane hb).dpx.reason = s.dpx.reason := by
  obtain ⟨p, hp⟩ := notePartner_dpx (s := s) (lane := lane) (hb := hb)
  rw [hp]
  cases lane <;> exact ⟨rfl, rfl, rfl, rfl, rfl, rfl⟩

theorem heard_heard : Heard lane hb s (heard lane hb s) := by
  have ka : OnlyChanges [.tim, .tly] s (s.basteTime lane hb) := basteTime_only (within rfl) OnlyChanges.refl
  have hda : (s.basteTime lane hb).dpx = s.dpx := ka.same .dpx (by decide)
  have hdoms : (s.basteTime lane hb).tim.doms = s.tim.doms := basteTime_doms
  unfold heard
  generalize s.basteTime lane hb = a at ka hda hdoms
  have kb : OnlyChanges [.dpx, .tly] a (a.laneGood lane) := laneGood_only (within rfl) OnlyChanges.refl
  obtain ⟨hmiss, hgood⟩ := laneGood_lane (s := a) (lane := lane)
  obtain ⟨hst, hown, hseen, hho, hre⟩ := laneGood_kept (s := a) (lane := lane)
  rw [hda] at hgood hst hown hseen hho hre
  generalize a.laneGood lane = b at kb hmiss hgood hst hown hseen hho hre
  have kc : OnlyChanges [.dpx] b (b.notePartner lane hb) := notePartner_only (within rfl) OnlyChanges.refl
  obtain ⟨p, hp⟩ := notePartner_dpx (s := b) (lane := lane) (hb := hb)
  obtain ⟨hm, hg, ho, hs, hh, hr⟩ := notePartner_kept (s := b) (lane := lane) (hb := hb)
  refine ⟨by rw [hp], by rw [hp], by rw [hp], hm.trans hmiss, hg.trans hgood, by rw [hp, hseen], ho.trans hown, hs.trans hst, hh.trans hho,
    hr.trans hre, ?_, ?_⟩
  · rw [kc.same .tim (by decide), kb.same .tim (by decide)]
    exact hdoms
  · exact OnlyChanges.trans (OnlyChanges.mono ka (within rfl)) (OnlyChanges.trans (OnlyChanges.mono kb (within rfl)) (OnlyChanges.mono kc (within rfl)))

/-! A valid heartbeat outside a start. -/

theorem exec_heartbeat (hl : s.lanesOn = true) (hc : hb.crcOk = true) (hf : s.fmtOk hb.fmt = true) (ha : s.boot.awaitPartner = false)
    (hi : s.boot.listening = false) (hm : s.sys.mode ≠ .boot) :
    exec (.heartbeat lane hb) s = done s ((heard lane hb s).followPartner State.replay hb).missedAt := by
  have k : OnlyChanges [.dpx, .tim, .tly] s (heard lane hb s) := heard_heard.frame
  have hrun : s.running = true := running_of_lanes hl
  have hin : s.heartbeatIn State.replay (fun l h t => t.basteTime l h) lane hb = s.takeHeartbeat State.replay (fun l h t => t.basteTime l h) lane hb :=
    if_neg (by rw [hc, hf]; exact Bool.false_ne_true)
  have htake : s.takeHeartbeat State.replay (fun l h t => t.basteTime l h) lane hb = (heard lane hb s).followPartner State.replay hb := by
    unfold State.takeHeartbeat heard at *
    dsimp only
    rw [k.same .boot (by decide), ha, hi, k.same .sys (by decide), decide_eq_false hm]
    rfl
  rw [← htake, ← hin]
  exact if_pos (by rw [hrun, hl]; rfl)

theorem missedAt_insync (h : s.insync = true) : s.missedAt = s := if_neg (by simp [h])

theorem missedAt_idle (h : s.boot.act.busy = false) : s.missedAt = s := if_neg (by simp [pairAct_idle h])

/-! What the heartbeat makes of the synchronisation state. -/

/-- The partner's heartbeat fits this module: the other side, and the name that the configuration gives it. -/
structure Fits (hb : Hb) (s : State) : Prop where
  side : hb.side = (!s.side)
  named : s.dpx2.misnamed = false
  node : s.cfg.partnerNode ≠ s.sys.nodeId

theorem Fits.heard {t : State} (h : Fits hb s) (k : OnlyChanges [.dpx, .tim, .tly] s t) : Fits hb t := by
  have hside : t.side = s.side := by rw [State.side, reg_congr (k.same .regs (by decide))]; rfl
  refine ⟨by rw [hside]; exact h.side, by rw [k.same .dpx2 (by decide)]; exact h.named, ?_⟩
  rw [k.same .cfg (by decide), k.same .sys (by decide)]
  exact h.node

/-- A heartbeat that fits refuses no synchronisation of a module in RUN that is not in SYNCING. -/
theorem refusal_none (h : Fits hb s) (hr : s.sys.primary = false ∨ hb.mode ≠ .recovery) (hm : s.sys.mode = .run) (hs : s.dpx.state ≠ .syncing) :
    s.refusal hb = none := by
  have hside : ¬ (hb.side = s.side ∨ s.dpx2.misnamed = true ∨ s.cfg.partnerNode = s.sys.nodeId) := by
    rintro (hx | hx | hx)
    · rw [h.side] at hx
      exact absurd hx (by cases s.side <;> decide)
    · rw [h.named] at hx
      exact absurd hx Bool.false_ne_true
    · exact h.node hx
  have hrec : (s.sys.primary && decide (hb.mode = .recovery)) = false := by
    rcases hr with hr | hr <;> simp [hr]
  unfold State.refusal
  rw [if_neg hside, hrec, hm, decide_eq_false hs]
  simp

end Sys2Proof.Proofs
end

section
/-! The lanes and the synchronisation state under heartbeats (O38; spec/09_duplex_pair.md R234, R236 to R239, R242, R252, R258, R262). -/

namespace Sys2Proof.Proofs

open Sys2Proof.Machine Sys2Proof.Safety Sys2Proof.Laws

variable {s t u : State} {lane : Bool} {hb : Hb} {c n : Nat}

/-! A heartbeat in sync. -/

theorem follow_insync {replay : State → State} (hr : s.refusal hb = none) (hi : s.insync = true) (hh : hb.insync = true) :
    s.followPartner replay hb = s := by
  have hs : s.dpx.state = .insync := of_decide_eq_true hi
  unfold State.followPartner State.refusalGone
  rw [hr]
  dsimp only
  rw [hi, hs, hh]
  simp

theorem insync_of_state (h : t.dpx.state = s.dpx.state) : t.insync = s.insync := by rw [State.insync, State.insync, h]

theorem heartbeat_in_sync (hs : Settled s) (hl : s.lanesOn = true) (hc : hb.crcOk = true) (hf : s.fmtOk hb.fmt = true)
    (ha : s.boot.awaitPartner = false) (hli : s.boot.listening = false) (hm : s.sys.mode = .run) (hi : s.insync = true)
    (hh : hb.insync = true) (hfit : Fits hb s) (hr : s.sys.primary = false ∨ hb.mode ≠ .recovery) :
    ∃ t, exec (.heartbeat lane hb) s = .next t ∧
    t.dpx.partnerMode = BitVec.ofNat 4 hb.mode.code ∧ t.dpx.partnerRole = hb.role ∧ t.dpx.partnerE = hb.eOwn ∧
    t.dpx.miss lane = 0 ∧ t.dpx.good lane = s.dpx.good lane + 1 ∧ hb.eOwn ≤ t.dpx.eSeen ∧ hb.eSeen ≤ t.dpx.eSeen ∧
    s.dpx.eSeen ≤ t.dpx.eSeen ∧ t.dpx.eOwn = s.dpx.eOwn ∧ t.dpx.state = .insync ∧ OnlyChanges [.dpx, .tim, .tly] s t := by
  have h : Heard lane hb s (heard lane hb s) := heard_heard
  rw [exec_heartbeat hl hc hf ha hli (by rw [hm]; decide)]
  generalize heard lane hb s = u at h
  have hst : s.dpx.state = .insync := of_decide_eq_true hi
  have hiu : u.insync = true := (insync_of_state h.state).trans hi
  have hsys : u.sys = s.sys := h.frame.same .sys (by decide)
  have href : u.refusal hb = none := refusal_none (hfit.heard h.frame) (by rw [hsys]; exact hr) (by rw [hsys]; exact hm)
    (by rw [h.state, hst]; decide)
  rw [follow_insync href hiu hh, missedAt_insync hiu]
  obtain ⟨h1, h2⟩ := le_higher s.dpx.eSeen hb.eOwn
  obtain ⟨h3, h4⟩ := le_higher (higher s.dpx.eSeen hb.eOwn) hb.eSeen
  rw [← h.seen] at h3 h4
  exact ⟨u, done_of_link hs h.frame (within rfl) h.state h.doms, h.mode, h.role, h.epoch, h.miss, h.good, BitVec.le_trans h2 h3, h4,
    BitVec.le_trans h1 h3, h.own, h.state.trans hst, h.frame⟩

/-! A partner of the same side. -/

theorem follow_same_side {replay : State → State} (hside : hb.side = s.side) (hi : s.insync = false) :
    s.followPartner replay hb = s.forgetVersions.setSync .refused 5 0 := by
  have hr : s.refusal hb = some 5 := if_pos (.inl hside)
  unfold State.followPartner
  rw [hr, hi]
  rfl

theorem same_side_refused (hs : Settled s) (hl : s.lanesOn = true) (hc : hb.crcOk = true) (hf : s.fmtOk hb.fmt = true)
    (ha : s.boot.awaitPartner = false) (hli : s.boot.listening = false) (hm : s.sys.mode ≠ .boot) (hi : s.insync = false)
    (hb' : s.boot.act.busy = false) (hside : hb.side = s.side) : ∃ t, exec (.heartbeat lane hb) s = .next t ∧ t.dpx.state = .refused ∧
    t.dpx.reason = 5 ∧ t.sys = s.sys ∧ OnlyChanges [.dpx, .dpx2, .tim, .tly, .hif, .outbox] s t ∧ EventsOnly s t := by
  have h : Heard lane hb s (heard lane hb s) := heard_heard
  rw [exec_heartbeat hl hc hf ha hli hm]
  generalize heard lane hb s = u at h
  have hsu : u.side = s.side := by rw [State.side, reg_congr (h.frame.same .regs (by decide))]; rfl
  rw [follow_same_side (hside.trans hsu.symm) ((insync_of_state h.state).trans hi)]
  have kf : OnlyChanges [.dpx2] u u.forgetVersions := forgetVersions_only (within rfl) OnlyChanges.refl
  generalize u.forgetVersions = v at kf
  have ks : OnlyChanges [.dpx, .tly] v (v.setSync .refused 5 0) := setSync_frame
  have hd : (v.setSync .refused 5 0).dpx = { v.dpx with state := .refused, reason := BitVec.ofNat 4 5 } := setSync_dpx .refused 5 0
  generalize v.setSync .refused 5 0 = w at ks hd
  have k : OnlyChanges [.dpx, .dpx2, .tim, .tly] s w := OnlyChanges.trans (OnlyChanges.mono h.frame (within rfl))
    (OnlyChanges.trans (OnlyChanges.mono kf (within rfl)) (OnlyChanges.mono ks (within rfl)))
  rw [missedAt_idle (by rw [k.same .boot (by decide)]; exact hb')]
  obtain ⟨t, ht, hft, he, hk, -⟩ := done_of (qs := [.dpx, .dpx2, .tim, .tly, .hif, .outbox]) hs k (within rfl) (within rfl)
  have hdt : t.dpx = w.dpx := hk.same .dpx (by decide)
  exact ⟨t, ht, by rw [hdt, hd], by rw [hdt, hd]; rfl, hft.same .sys (by decide), hft, events_after (k.same .hif (by decide)) he⟩

/-! A standby that meets its primary. -/

theorem follow_primary {replay : State → State} (hr : s.refusal hb = none) (hp : s.sys.primary = false) (hm : s.sys.mode = .run)
    (hs : s.dpx.state = .waitPeer ∨ s.dpx.state = .linkLost) (hrole : hb.role = true) (hmode : hb.mode = .run) :
    s.followPartner replay hb = s.setSync .syncing 0 0 := by
  have hgone : s.refusalGone hb = false := by
    rcases hs with hs | hs <;> simp [State.refusalGone, hs]
  have hi : s.insync = false := by
    rcases hs with hs | hs <;> simp [State.insync, hs]
  have hfollow : ((s.sys.mode == .stop && hb.mode == .run) || (s.sys.mode == .run && hb.mode == .stop)) = false := by
    rw [hm, hmode]
    rfl
  unfold State.followPartner
  rw [hr]
  dsimp only
  rw [hgone, hfollow, hi, hrole, if_neg Bool.false_ne_true, if_neg (by simp), if_neg (by simp), if_neg (by simp), if_pos ⟨hs, rfl, hp⟩]

theorem standby_meets_primary (hs : Settled s) (hl : s.lanesOn = true) (hc : hb.crcOk = true) (hf : s.fmtOk hb.fmt = true)
    (ha : s.boot.awaitPartner = false) (hli : s.boot.listening = false) (hm : s.sys.mode = .run) (hp : s.sys.primary = false)
    (hst : s.dpx.state = .waitPeer ∨ s.dpx.state = .linkLost) (hrole : hb.role = true) (hmode : hb.mode = .run) (hfit : Fits hb s)
    (hb' : s.boot.act.busy = false) : ∃ t, exec (.heartbeat lane hb) s = .next t ∧
    t.dpx.state = .syncing ∧ t.dpx.partnerRole = true ∧ t.sys = s.sys ∧ OnlyChanges [.dpx, .tim, .tly, .hif, .outbox] s t ∧ EventsOnly s t := by
  have h : Heard lane hb s (heard lane hb s) := heard_heard
  rw [exec_heartbeat hl hc hf ha hli (by rw [hm]; decide)]
  generalize heard lane hb s = u at h
  have hsys : u.sys = s.sys := h.frame.same .sys (by decide)
  have hup : u.sys.primary = false := by rw [hsys]; exact hp
  have hum : u.sys.mode = .run := by rw [hsys]; exact hm
  have hust : u.dpx.state = .waitPeer ∨ u.dpx.state = .linkLost := by rw [h.state]; exact hst
  have href : u.refusal hb = none := refusal_none (hfit.heard h.frame) (.inl hup) hum (by rcases hust with e | e <;> rw [e] <;> decide)
  rw [follow_primary href hup hum hust hrole hmode]
  have ks : OnlyChanges [.dpx, .tly] u (u.setSync .syncing 0 0) := setSync_frame
  have hd : (u.setSync .syncing 0 0).dpx = { u.dpx with state := .syncing, reason := BitVec.ofNat 4 0 } := setSync_dpx .syncing 0 0
  generalize u.setSync .syncing 0 0 = w at ks hd
  have k : OnlyChanges [.dpx, .tim, .tly] s w := OnlyChanges.trans h.frame (OnlyChanges.mono ks (within rfl))
  rw [missedAt_idle (by rw [k.same .boot (by decide)]; exact hb')]
  obtain ⟨t, ht, hft, he, hk, -⟩ := done_of (qs := [.dpx, .tim, .tly, .hif, .outbox]) hs k (within rfl) (within rfl)
  have hdt : t.dpx = w.dpx := hk.same .dpx (by decide)
  exact ⟨t, ht, by rw [hdt, hd], by rw [hdt, hd]; exact h.role.trans hrole, hft.same .sys (by decide), hft,
    events_after (k.same .hif (by decide)) he⟩

/-! The role taken beside a partner whose mode forbids it (R262). -/

theorem winsRole_forbidden (hb' : hb.mode ≠ .boot) (hr : roleAllowed hb.mode .run = false) : s.winsRole hb = true := by
  simp [State.winsRole, hb', hr]

theorem follow_wins {replay : State → State} (hr : s.refusal hb = none) (hs : s.dpx.state = .waitPeer) (hrole : hb.role = false)
    (hw : s.winsRole hb = true) : s.followPartner replay hb = (s.assumeRole replay).setSync .noPartner 0 0 := by
  have hgone : s.refusalGone hb = false := by simp [State.refusalGone, hs]
  have hi : s.insync = false := by simp [State.insync, hs]
  unfold State.followPartner
  rw [hr]
  dsimp only
  rw [hgone, hi, hrole, if_neg Bool.false_ne_true, if_neg (by simp), if_neg (by simp), if_pos ⟨hs, rfl, hw⟩]

/-- The module holds the role, where its mode allows it, under a new epoch. -/
def roleTaken (s : State) : State := { s.takeEpoch with sys := { s.takeEpoch.sys with primary := roleAllowed s.sys.mode s.sys.from_ } }

theorem takeEpoch_frame : OnlyChanges [.dpx, .dpx2] s s.takeEpoch := takeEpoch_only (within rfl) OnlyChanges.refl

theorem roleTaken_frame : OnlyChanges [.sys, .dpx, .dpx2] s (roleTaken s) :=
  OnlyChanges.trans (OnlyChanges.mono takeEpoch_frame (within rfl)) ⟨fun p hp => by cases p with
    | sys => exact absurd (by decide) hp
    | _ => rfl⟩

theorem roleTaken_run (h : s.sys.mode = .run) : (roleTaken s).sys.primary = true ∧ (roleTaken s).sys.mode = .run := by
  refine ⟨?_, ?_⟩
  · show roleAllowed s.sys.mode s.sys.from_ = true
    rw [h]
    rfl
  · show s.takeEpoch.sys.mode = .run
    rw [takeEpoch_frame.same .sys (by decide)]
    exact h

/-- Every station gets its parameter block. -/
def parameterised (s : State) : State := s.cfg.stn.foldl (fun (v : State) e => v.parameterise e.1) s

theorem parameterised_frame : OnlyChanges [.net, .tly, .outbox] s (parameterised s) :=
  OnlyChanges.foldl OnlyChanges.refl fun _ _ h => parameterise_only (within rfl) h

theorem assumeRole_run {replay : State → State} (hr : s.boot.replayDue = false) (hm : s.sys.mode = .run) :
    s.assumeRole replay = parameterised (roleTaken s).runClasses := by
  have hn : s.replayOnce replay = s := if_neg (by rw [hr]; exact Bool.false_ne_true)
  unfold State.assumeRole
  rw [hn]
  exact congrArg parameterised (if_pos (roleTaken_run hm).2)

/-- A module in RUN that has assumed the role: primary, under a new epoch, every enabled class running. -/
structure AssumedRole (s t : State) : Prop where
  primary : t.sys.primary = true
  mode : t.sys.mode = .run
  epoch : s.dpx.eSeen < t.dpx.eOwn
  classes : ∀ c, (c, s.ccfg c) ∈ s.cfg.cls → (s.ccfg c).en = true → (t.cls c).running = true
  frame : OnlyChanges [.sys, .cyc, .cle, .dpx, .dpx2, .net, .tly, .outbox] s t

theorem assumeRole_assumes {replay : State → State} (hr : s.boot.replayDue = false) (hm : s.sys.mode = .run) (hv : s.cfg.valid = true)
    (he : s.dpx.eSeen.toNat + 2 < 2 ^ 32) : AssumedRole s (s.assumeRole replay) := by
  have kr : OnlyChanges [.sys, .dpx, .dpx2] s (roleTaken s) := roleTaken_frame
  have hnew : s.dpx.eSeen < (roleTaken s).dpx.eOwn := (takeEpoch_new hv he).above
  obtain ⟨hprim, hmode⟩ := roleTaken_run hm
  rw [assumeRole_run hr hm]
  generalize roleTaken s = v at kr hnew hprim hmode
  have kc : OnlyChanges [.cyc, .cle, .net] v v.runClasses := runClasses_only (within rfl) OnlyChanges.refl
  have kp : OnlyChanges [.net, .tly, .outbox] v.runClasses (parameterised v.runClasses) := parameterised_frame
  have kvp : OnlyChanges [.cyc, .cle, .net, .tly, .outbox] v (parameterised v.runClasses) :=
    OnlyChanges.trans (OnlyChanges.mono kc (within rfl)) (OnlyChanges.mono kp (within rfl))
  have hcfg : v.cfg = s.cfg := kr.same .cfg (by decide)
  have hcc : ∀ c, v.ccfg c = s.ccfg c := fun c => by rw [State.ccfg, hcfg]; rfl
  refine ⟨by rw [kvp.same .sys (by decide)]; exact hprim, by rw [kvp.same .sys (by decide)]; exact hmode,
    by rw [kvp.same .dpx (by decide)]; exact hnew, fun c hc hen => ?_,
    OnlyChanges.trans (OnlyChanges.mono kr (within rfl)) (OnlyChanges.mono kvp (within rfl))⟩
  have hcls : (parameterised v.runClasses).cls c = v.runClasses.cls c := by rw [State.cls, kp.same .cyc (by decide)]; rfl
  rw [hcls]
  exact runClasses_cls (by rw [hcc, hcfg]; exact hc) (by rw [hcc]; exact hen)

/-- The synchronisation state that follows leaves the role as it is. -/
theorem AssumedRole.alone (h : AssumedRole s t) : AssumedRole s (t.setSync .noPartner 0 0) := by
  have ks : OnlyChanges [.dpx, .tly] t (t.setSync .noPartner 0 0) := setSync_frame
  have hd : (t.setSync .noPartner 0 0).dpx = { t.dpx with state := .noPartner, reason := BitVec.ofNat 4 0 } := setSync_dpx .noPartner 0 0
  generalize t.setSync .noPartner 0 0 = v at ks hd
  have hcls : ∀ c, v.cls c = t.cls c := fun c => by rw [State.cls, ks.same .cyc (by decide)]; rfl
  exact ⟨by rw [ks.same .sys (by decide)]; exact h.primary, by rw [ks.same .sys (by decide)]; exact h.mode, by rw [hd]; exact h.epoch,
    fun c hc hen => by rw [hcls]; exact h.classes c hc hen, OnlyChanges.trans h.frame (OnlyChanges.mono ks (within rfl))⟩

/-- The heartbeat that has brought the role raises no epoch above those seen. -/
theorem AssumedRole.heard {u : State} (h : AssumedRole u t) (hu : Heard lane hb s u) (h1 : hb.eOwn ≤ s.dpx.eSeen) (h2 : hb.eSeen ≤ s.dpx.eSeen) :
    s.dpx.eSeen < t.dpx.eOwn ∧ (∀ c, (c, s.ccfg c) ∈ s.cfg.cls → (s.ccfg c).en = true → (t.cls c).running = true) := by
  have hcfg : u.cfg = s.cfg := hu.frame.same .cfg (by decide)
  have hcc : ∀ c, u.ccfg c = s.ccfg c := fun c => by rw [State.ccfg, hcfg]; rfl
  have hseen : u.dpx.eSeen = s.dpx.eSeen := by rw [hu.seen, higher_of_le h1, higher_of_le h2]
  exact ⟨hseen ▸ h.epoch, fun c hc hen => h.classes c (by rw [hcc, hcfg]; exact hc) (by rw [hcc]; exact hen)⟩

theorem standby_wins_role (hl : s.lanesOn = true) (hc : hb.crcOk = true) (hf : s.fmtOk hb.fmt = true)
    (ha : s.boot.awaitPartner = false) (hli : s.boot.listening = false) (hm : s.sys.mode = .run) (hp : s.sys.primary = false)
    (hst : s.dpx.state = .waitPeer) (hrole : hb.role = false) (hmode : hb.mode ≠ .boot) (hno : roleAllowed hb.mode .run = false)
    (hfit : Fits hb s) (hv : s.cfg.valid = true) (he : s.dpx.eSeen.toNat + 2 < 2 ^ 32) (h1 : hb.eOwn ≤ s.dpx.eSeen)
    (h2 : hb.eSeen ≤ s.dpx.eSeen) (hbusy : s.boot.act.busy = false) (hrep : s.boot.replayDue = false) :
    ∃ t, exec (.heartbeat lane hb) s = .next t ∧ t.sys.primary = true ∧ t.sys.mode = .run ∧ t.dpx.state = .noPartner ∧
    s.dpx.eSeen < t.dpx.eOwn ∧ (∀ c, (c, s.ccfg c) ∈ s.cfg.cls → (s.ccfg c).en = true → (t.cls c).running = true) ∧
    OnlyChanges [.sys, .hif, .cyc, .cle, .dpx, .dpx2, .net, .tim, .can, .canq, .tly, .outbox] s t := by
  have h : Heard lane hb s (heard lane hb s) := heard_heard
  rw [exec_heartbeat hl hc hf ha hli (by rw [hm]; decide)]
  generalize heard lane hb s = u at h
  have hsys : u.sys = s.sys := h.frame.same .sys (by decide)
  have hum : u.sys.mode = .run := by rw [hsys]; exact hm
  have hust : u.dpx.state = .waitPeer := h.state.trans hst
  have href : u.refusal hb = none := refusal_none (hfit.heard h.frame) (.inl (by rw [hsys]; exact hp)) hum (by rw [hust]; decide)
  have hseen : u.dpx.eSeen = s.dpx.eSeen := by rw [h.seen, higher_of_le h1, higher_of_le h2]
  have g : AssumedRole u ((u.assumeRole State.replay).setSync .noPartner 0 0) := AssumedRole.alone
    (assumeRole_assumes (by rw [h.frame.same .boot (by decide)]; exact hrep) hum (by rw [h.frame.same .cfg (by decide)]; exact hv)
      (by rw [hseen]; exact he))
  have hws : ((u.assumeRole State.replay).setSync .noPartner 0 0).dpx.state = .noPartner := setSync_state .noPartner 0 0
  rw [follow_wins href hust hrole (winsRole_forbidden hmode hno)]
  generalize (u.assumeRole State.replay).setSync .noPartner 0 0 = w at g hws
  have k : OnlyChanges [.sys, .cyc, .cle, .dpx, .dpx2, .net, .tim, .tly, .outbox] s w :=
    OnlyChanges.trans (OnlyChanges.mono h.frame (within rfl)) (OnlyChanges.mono g.frame (within rfl))
  rw [missedAt_idle (by rw [k.same .boot (by decide)]; exact hbusy)]
  have ks : OnlyChanges [.sys, .hif, .can, .canq, .tly, .outbox] w (settleState s w) := settleState_frame_of_mode (g.mode.trans hm.symm)
  have hd : (settleState s w).dpx = w.dpx := ks.same .dpx (by decide)
  obtain ⟨habove, hcls⟩ := g.heard h h1 h2
  refine ⟨_, rfl, by rw [settleState_sys]; exact g.primary, by rw [settleState_sys]; exact g.mode, by rw [hd]; exact hws, by rw [hd]; exact habove,
    fun c hc hen => by rw [settleState_cls]; exact hcls c hc hen, ?_⟩
  exact OnlyChanges.trans (OnlyChanges.mono k (within rfl)) (OnlyChanges.mono ks (within rfl))

/-- Settles O38: a lane by the count of its heartbeats, the loss of both by what either role makes of it, a heartbeat by what it tells
and what the synchronisation state follows. -/
theorem heartbeatsKeepTheLanes : Obligations.HeartbeatsKeepTheLanes :=
  ⟨fun _ _ hl hh => heartbeat_sent hl hh,
    fun _ _ h => heartbeat_unsent h,
    fun _ _ hs hl hm => miss_counted hs hl hm,
    fun _ _ hs hl hm hu ho => lane_down hs hl hm hu ho,
    fun _ _ hl hm hu ho hmode hp hlone hi hr ha hv he => standby_takes_over hl hm hu ho hmode hp hlone hi hr ha hv he,
    fun _ _ hl hm hu _ _ hp hi hx hh hs => primary_goes_on hs hl hm hu hp hi hx hh,
    fun _ _ _ hs hl hc hf ha hli hm hi hh hside hn hnode hr _ => heartbeat_in_sync hs hl hc hf ha hli hm hi hh ⟨hside, hn, hnode⟩ hr,
    fun _ _ _ hs hl hc hf ha hli hm hi hbusy hside => same_side_refused hs hl hc hf ha hli hm hi hbusy hside,
    fun _ _ _ hs hl hc hf ha hli hm hp hst hrole hmode hside hn hnode hbusy =>
      standby_meets_primary hs hl hc hf ha hli hm hp hst hrole hmode ⟨hside, hn, hnode⟩ hbusy,
    fun _ _ _ hl hc hf ha hli hm hp hst hrole hmode hno hside hv he h1 h2 hbusy hn hnode hrep =>
      standby_wins_role hl hc hf ha hli hm hp hst hrole hmode hno ⟨hside, hn, hnode⟩ hv he h1 h2 hbusy hrep⟩

end Sys2Proof.Proofs
end
